-- ==== Sys2Proof/Word.lean ====
section
/-! DEFINITION. The word types of the part (00_scope, R7 to R9): bytes, instruction words, scalar values and 64-byte
vector values. -/
namespace Sys2Proof

/-- A byte of memory. -/
abbrev Byte := BitVec 8
/-- A 16-bit value. -/
abbrev W16 := BitVec 16
/-- An instruction word, or one vector lane (01_encoding, R16; 04_core_compute, R124). -/
abbrev W32 := BitVec 32
/-- A scalar register, or a 64-bit address (03_core_numbers, R86). -/
abbrev W64 := BitVec 64
/-- A vector register or token payload: 16 lanes of 32 bits, byte 0 lowest (04_core_compute, R124). -/
abbrev V512 := BitVec 512

end Sys2Proof
end

