-- ==== Sys2Proof/Config.lean ====
section
/-! DEFINITION. What an implementation fixes and what the spec leaves open. A constant without a body is a free value:
nothing can be proved of what it is, so a statement holds whatever it is (see notes/assumptions). -/
namespace Sys2Proof.Config

/-- Which of the pending steps of the part's agents happens next, by a running counter: the spec gives no order among the
steps of different agents (09_memory_model, R271, R272, R420). -/
opaque choice : Nat → Nat
/-- How many ticks pass with a step, by a running counter: latencies have bounds only (09_memory_model, R420). -/
opaque elapsed : Nat → Nat
/-- For how many cycles the banks have held a request in a memory port, by a running counter (05_core_memory, R149, R161). -/
opaque bankStall : Nat → Nat
/-- Which neighbour of the exact value VRSQ.F32 delivers for an operand: true for the one above (04_core_compute, R127). -/
opaque rsqUp : W32 → Bool
/-- Which neighbour VEXP2.F32 delivers (04_core_compute, R127). -/
opaque exp2Up : W32 → Bool
/-- Which neighbour VLOG2.F32 delivers (04_core_compute, R127). -/
opaque log2Up : W32 → Bool
/-- Which neighbour VTANH.F32 delivers (04_core_compute, R127). -/
opaque tanhUp : W32 → Bool
/-- The residue of a checked quantity that the spec does not fix as an integer (04_core_compute, R115). -/
opaque residue : Nat → BitVec 3
/-- Which of the values that a byte has held since its command's commit a basin's tile read finds, by a free value's number and the byte
with the operand that it is read for (06_core_basin, R185; log entry 26). -/
opaque basinSees : Nat → Nat → Nat
/-- The signature over an attestation report, byte by byte (14_package_host, R384): the scheme is FIPS 205's. -/
opaque signature : List Byte → Nat → Byte
/-- The part's certificate, byte by byte (14_package_host, R383). -/
opaque certificate : Nat → Byte
/-- Part and stepping code of the attestation report (14_package_host, R384). -/
opaque partCode : W32
/-- Security version of the running firmware (14_package_host, R378). -/
opaque svn : W32
/-- The failure that stops start-up in a step, as its ECODE, by a running counter; another number for none (14_package_host, R379). -/
opaque bootFailure : Nat → Nat
/-- Whether firmware that is submitted for recovery verifies, by a running counter (14_package_host, R384). -/
opaque firmwareGood : Nat → Bool
/-- Whether a cluster's routers passed built-in self-test well enough to reach its cores (14_package_host, R379). -/
opaque routersGood : Nat → Bool
/-- Where start-up writes the core map, in units of 64 KiB of HBM (12_package_launch, R329). -/
opaque mapPlace : Nat
/-- The digest of each thing measured at start-up, M0 to M2 (14_package_host, R383). -/
opaque bootDigest : Nat → BitVec 256
/-- Calibrated wire and cistern delay W of a link, in ticks, or none when it failed calibration: die, edge, link
(10_die, R286). -/
opaque wireDelay : Nat → Nat → Nat → Option Nat
/-- The tick of die (0,0)'s count in which a die's time counter starts (10_die, R287). -/
opaque dieStart : Nat → Nat
/-- How far a die's calibrated offset is from the true one, before its bound by U (10_die, R287). -/
opaque offsetError : Nat → Int
/-- Which link of a die's edge calibration measures a time offset over: die, edge (10_die, R287). -/
opaque pathLink : Nat → Nat → Nat
/-- The tick at which bank 0 of a die's Reservoir begins its first refresh window (10_die, R292). -/
opaque refreshStart : Nat → W64
/-- The change of a die's offset at a recalibration, by a running counter: -1, 0 or 1 tick (10_die, R287). -/
opaque recalibration : Nat → Int
/-- Bytes of second-tier memory that the expanders populate (13_package_memory, R354, R356). -/
opaque tier2Bytes : Nat
/-- The ports that link training finds a device on (13_package_memory, R356). -/
opaque tier2Present : BitVec 16
/-- Whether a physical core passed built-in self-test (13_package_memory, R354; 14_package_host, R379). -/
opaque selfTest : Nat → Bool
/-- Measured package power in watts, by a running counter and the sectors that the stacks have transferred (13_package_memory, R366;
14_package_host, R381). -/
opaque draw : Nat → Nat → BitVec 16
/-- The set of a cluster's TLB that an entry lies in: queue, address, page size (13_package_memory, R359). -/
opaque tlbSet : Nat → Nat → Nat → Nat
/-- Whether the cold-plate limit limits, by a running counter (14_package_host, R381). -/
opaque thermal : Nat → Bool
/-- The frequency ceiling, in 10 MHz units, that the power manager's share allows a VF region: counter, die, region
(14_package_host, R382). -/
opaque powerCeiling : Nat → Nat → Nat → Nat
/-- Where the allocator keeps the save area of a context slot, counted in 64 KiB units of HBM: by 4 times the physical core plus the
slot (07_core_failures, R216; 12_package_launch, R331). -/
opaque saveArea : Nat → Nat
/-- Where it keeps the checkpoint areas of a physical core, in units of 256 KiB (12_package_launch, R340). -/
opaque ckptArea : Nat → Nat
/-- Where it keeps the stop log of a region slot, in units of 64 KiB (12_package_launch, R332). -/
opaque stopLog : Nat → Nat
/-- The 32 bytes under which a save area keeps a queued basin command, by a running counter and byte (07_core_failures, R217). -/
opaque commandBytes : Nat → Nat → Byte
/-- Packets of a class that a peer's receive buffer takes when a port becomes ACTIVE: class 0 FDATA, 1 FCTL (15_fabric, R389). -/
opaque portCredits : Nat → Nat
/-- Whether a port with CMP set compresses a body, by a running counter: it may (15_fabric, R390). -/
opaque compress : Nat → Bool
/-- The dictionary slot that a sender would insert a literal word into, by a running counter and word: 256 and above for none
(15_fabric, R391). -/
opaque insertSlot : Nat → Nat → Nat

end Sys2Proof.Config
end

