-- ==== Sys2Proof/Machine/Float.lean ====
section
/-! DEFINITION. Number formats, rounding, flags and conversions (03_core_numbers, R94 to R106), and the approximations of the
vector pipe (04_core_compute, R127). A format is named by its fmt code (01_encoding, R31): 0 INT, 1 FP64, 2 FP32, 3 BF16,
4 FP16, 5 E4M3, 6 E5M2, 7 E2M1. -/
namespace Sys2Proof.Machine

/-- The flags of an operation, in the order of st[8:4]: NV DZ OF UF NX (R87). -/
abbrev Flags := BitVec 5
/-- Invalid operation. -/
def fNV : Flags := 16#5
/-- Division by zero. -/
def fDZ : Flags := 8#5
/-- Overflow. -/
def fOF : Flags := 4#5
/-- Underflow. -/
def fUF : Flags := 2#5
/-- Inexact. -/
def fNX : Flags := 1#5

/-- Exponent width of a format (R94). -/
def fpExpBits : Nat → Nat
  | 1 => 11 | 2 => 8 | 3 => 8 | 4 => 5 | 5 => 4 | 6 => 5 | 7 => 2 | _ => 0
/-- Fraction width of a format (R94). -/
def fpFracBits : Nat → Nat
  | 1 => 52 | 2 => 23 | 3 => 7 | 4 => 10 | 5 => 3 | 6 => 2 | 7 => 1 | _ => 0
/-- Width of a format in bits; INT counts as the 64 bits of a scalar (R94, R96). -/
def fpWidth : Nat → Nat
  | 1 => 64 | 2 => 32 | 3 => 16 | 4 => 16 | 5 => 8 | 6 => 8 | 7 => 4 | _ => 64
/-- Exponent bias of a format (R94). -/
def fpBias (f : Nat) : Nat := 2 ^ (fpExpBits f - 1) - 1
/-- The exponent of the smallest step of a format: that of its subnormals (R94). -/
def fpMinExp (f : Nat) : Int := 1 - Int.ofNat (fpBias f) - Int.ofNat (fpFracBits f)
/-- The code of the largest finite magnitude (R94, R95). -/
def fpMaxCode (f : Nat) (fm : Bool) : Nat :=
  match f with
  | 5 => if fm then 0x7F else 0x7E
  | 6 => if fm then 0x7F else 0x7B
  | 7 => 7
  | _ => (2 ^ fpExpBits f - 1) * 2 ^ fpFracBits f - 1
/-- The code of the canonical NaN of sign 0, of a format that has one (R104). -/
def fpNaN : Nat → Nat
  | 1 => 0x7FF8000000000000 | 2 => 0x7FC00000 | 3 => 0x7FC0 | 4 => 0x7E00 | 5 => 0x7F | 6 => 0x7E | _ => 0
/-- Whether a format has NaN codes under a format mode (R95). -/
def fpHasNaN (f : Nat) (fm : Bool) : Bool := (1 ≤ f && f ≤ 4) || ((f == 5 || f == 6) && !fm)
/-- Whether a format has infinities under a format mode (R95). -/
def fpHasInf (f : Nat) (fm : Bool) : Bool := (1 ≤ f && f ≤ 4) || (f == 6 && !fm)
/-- The sign bit of a format, as a number. -/
def fpSign (f : Nat) (neg : Bool) : Nat := if neg then 2 ^ (fpWidth f - 1) else 0
/-- The code of an infinity, of a format that has one. -/
def fpInf (f : Nat) : Nat := (2 ^ fpExpBits f - 1) * 2 ^ fpFracBits f

/-- A value of a floating format: NaN with its sign and whether it signals, infinity, or (-1)^neg * m * 2^e; a zero is m = 0. -/
inductive FNum where
  | nan (neg sig : Bool)
  | inf (neg : Bool)
  | num (neg : Bool) (m : Nat) (e : Int)
deriving DecidableEq, Repr

/-- The value of a code (R94, R95). -/
def fpDecode (f : Nat) (fm : Bool) (x : Nat) : FNum :=
  let mb := fpFracBits f
  let neg := x / 2 ^ (fpWidth f - 1) % 2 == 1
  let ef := x / 2 ^ mb % 2 ^ fpExpBits f
  let fr := x % 2 ^ mb
  let top := ef == 2 ^ fpExpBits f - 1
  if f ≤ 4 && top then (if fr == 0 then .inf neg else .nan neg (fr < 2 ^ (mb - 1)))
  else if f == 5 && !fm && top && fr == 7 then .nan neg false
  else if f == 6 && !fm && top then (if fr == 0 then .inf neg else .nan neg false)
  else if ef == 0 then .num neg fr (fpMinExp f)
  else .num neg (fr + 2 ^ mb) (fpMinExp f + Int.ofNat (ef - 1))

/-- Whether a magnitude that is not a multiple of the step rounds up: twice the rest compared with the step (R102). -/
def roundsUp (mode : BitVec 2) (neg odd : Bool) (rest2 step : Nat) : Bool :=
  match mode.toNat with
  | 0 => step < rest2 || (rest2 == step && odd)
  | 1 => false
  | 2 => neg
  | _ => !neg

/-- A magnitude m * 2^e rounded to a multiple of 2^q, and whether it was inexact; sticky says that the exact magnitude lies
just above m * 2^e (R102, R107). -/
def roundAt (mode : BitVec 2) (neg sticky : Bool) (m : Nat) (e q : Int) : Nat × Bool :=
  let k := if sticky then (e - q).toNat + 2 else 0
  let m1 := m * 2 ^ k + (if sticky then 1 else 0)
  let e1 := e - Int.ofNat k
  if q ≤ e1 then (m1 * 2 ^ (e1 - q).toNat, false)
  else
    let step := 2 ^ (q - e1).toNat
    let lo := m1 / step
    let rest := m1 % step
    if rest == 0 then (lo, false)
    else (if roundsUp mode neg (lo % 2 == 1) (2 * rest) step then lo + 1 else lo, true)

/-- The magnitude delivered when a result overflows (R105). -/
def overflowCode (f : Nat) (fm sat : Bool) (mode : BitVec 2) (neg : Bool) : Nat :=
  let max := fpMaxCode f fm
  if sat then max
  else if fpHasInf f fm then
    (if mode == 1 || (mode == 2 && !neg) || (mode == 3 && neg) then max else fpInf f)
  else if f == 5 && !fm then fpNaN 5
  else max

/-- Round of R14: a finite magnitude m * 2^e (sticky: just above it) rounded to a format, with sign and flags (R102, R103,
R105). A zero magnitude keeps the sign. -/
def fpRound (f : Nat) (fm sat : Bool) (mode : BitVec 2) (neg : Bool) (m : Nat) (e : Int) (sticky : Bool) : Nat × Flags :=
  if m == 0 && !sticky then (fpSign f neg, 0)
  else
    let mb := Int.ofNat (fpFracBits f)
    let top := Int.ofNat (Nat.log2 m) + e
    let qn := top - mb
    let q := max qn (fpMinExp f)
    let (r, nx) := roundAt mode neg sticky m e q
    let code := r + (q - fpMinExp f).toNat * 2 ^ fpFracBits f
    if fpMaxCode f fm < code then
      (fpSign f neg + overflowCode f fm sat mode neg, fOF ||| fNX)
    else
      let full := (roundAt mode neg sticky m e qn).1
      let tiny := qn < fpMinExp f && !(qn + 1 == fpMinExp f && full == 2 ^ (fpFracBits f + 1))
      (fpSign f neg + code, (if nx then fNX else 0) ||| (if nx && tiny then fUF else 0))

/-- A result of arithmetic delivered in a format without a saturate bit (R104, R105). -/
def fpDeliver (f : Nat) (mode : BitVec 2) (r : FNum × Flags) : Nat × Flags :=
  match r.1 with
  | .nan _ _ => (fpNaN f, r.2)
  | .inf n => (fpSign f n + fpInf f, r.2)
  | .num n m e => let (x, fl) := fpRound f false false mode n m e false; (x, r.2 ||| fl)

/-- Whether a value is a signalling NaN. -/
def FNum.signals : FNum → Bool
  | .nan _ s => s
  | _ => false
/-- Whether a value is a NaN. -/
def FNum.isNaN : FNum → Bool
  | .nan _ _ => true
  | _ => false
/-- A value with its sign inverted. -/
def FNum.negate : FNum → FNum
  | .nan n s => .nan n s
  | .inf n => .inf (!n)
  | .num n m e => .num (!n) m e

/-- NV when a flag condition holds. -/
def nvIf (b : Bool) : Flags := if b then fNV else 0

/-- A signed multiple of 2^e as sign and magnitude. -/
def signedMag (n : Bool) (m : Nat) : Int := if n then -Int.ofNat m else Int.ofNat m

/-- The exact sum of finite terms, each sign, magnitude and exponent: its integer at the least exponent. -/
def sumTerms (ts : List (Bool × Nat × Int)) : Int × Int :=
  match ts with
  | [] => (0, 0)
  | t :: rest =>
    let e := rest.foldl (fun a u => min a u.2.2) t.2.2
    ((t :: rest).foldl (fun a u => a + signedMag u.1 (u.2.1 * 2 ^ (u.2.2 - e).toNat)) 0, e)

/-- The exact sum of two or three values, NaN and infinity rules included (R103, R126): an exact zero sum is +0, except -0
when every addend is -0 or the mode is RDN. Beside a quiet NaN only 0 × inf and a signaling NaN raise NV: an infinite product that meets an
opposite infinity while a third term is a quiet NaN raises none (DESIGN CHOICE, log entry 87). -/
def fpSum (mode : BitVec 2) (ts : List FNum) : FNum × Flags :=
  let nv := nvIf (ts.any FNum.signals)
  if ts.any FNum.isNaN then (.nan false false, nv)
  else if ts.any (fun t => t == .inf true) then
    (if ts.any (fun t => t == .inf false) then (.nan false false, fNV) else (.inf true, 0))
  else if ts.any (fun t => t == .inf false) then (.inf false, 0)
  else
    let terms := ts.filterMap (fun t => match t with | .num n m e => some (n, m, e) | _ => none)
    let (v, e) := sumTerms terms
    if v == 0 then
      (.num (mode == 2 || terms.all (fun t => t.1 && t.2.1 == 0)) 0 0, 0)
    else (.num (v < 0) v.natAbs e, 0)

/-- The exact product of two values (R103). -/
def fpProd (a b : FNum) : FNum × Flags :=
  let nv := nvIf (a.signals || b.signals)
  match a, b with
  | .nan _ _, _ => (.nan false false, nv)
  | _, .nan _ _ => (.nan false false, nv)
  | .inf x, .inf y => (.inf (x != y), 0)
  | .inf x, .num y m _ => if m == 0 then (.nan false false, fNV) else (.inf (x != y), 0)
  | .num x m _, .inf y => if m == 0 then (.nan false false, fNV) else (.inf (x != y), 0)
  | .num x m e, .num y k g => (.num (x != y) (m * k) (e + g), 0)

/-- Products and an addend summed exactly, one rounding to come (R126): NV of a 0 x inf product stands whatever the addend. -/
def fpFused (mode : BitVec 2) (prods : List (FNum × FNum)) (c : FNum) : FNum × Flags :=
  let ps := prods.map (fun p => fpProd p.1 p.2)
  let s := fpSum mode (c :: ps.map Prod.fst)
  (s.1, ps.foldl (fun a p => a ||| p.2) s.2)

/-- a + b in a format (R126). -/
def fpAdd (f : Nat) (mode : BitVec 2) (a b : Nat) : Nat × Flags :=
  fpDeliver f mode (fpSum mode [fpDecode f false a, fpDecode f false b])
/-- a - b in a format (R126). -/
def fpSub (f : Nat) (mode : BitVec 2) (a b : Nat) : Nat × Flags :=
  fpDeliver f mode (fpSum mode [fpDecode f false a, (fpDecode f false b).negate])
/-- a * b in a format (R126). -/
def fpMul (f : Nat) (mode : BitVec 2) (a b : Nat) : Nat × Flags :=
  fpDeliver f mode (fpProd (fpDecode f false a) (fpDecode f false b))
/-- a * b + c with one rounding (R126). -/
def fpFma (f : Nat) (mode : BitVec 2) (a b c : Nat) : Nat × Flags :=
  fpDeliver f mode (fpFused mode [(fpDecode f false a, fpDecode f false b)] (fpDecode f false c))
/-- c + a0 * b0 + a1 * b1 of BF16 products and an FP32 addend, with one rounding to FP32 (R126). -/
def fpDot2 (mode : BitVec 2) (a0 b0 a1 b1 c : Nat) : Nat × Flags :=
  let d := fpDecode 3 false
  fpDeliver 2 mode (fpFused mode [(d a0, d b0), (d a1, d b1)] (fpDecode 2 false c))

/-- The order of two values that are not NaN, zeros equal: -1, 0 or 1. -/
def fpOrder (a b : FNum) : Int :=
  let key : FNum → Int := fun x => match x with | .inf n => (if n then -1 else 1) | _ => 0
  if key a != 0 || key b != 0 then (key a - key b).sign
  else match a, b with
    | .num n m e, .num k p g =>
      let l := min e g
      (signedMag n (m * 2 ^ (e - l).toNat) - signedMag k (p * 2 ^ (g - l).toNat)).sign
    | _, _ => 0

/-- The minimum (or maximum) of two codes: -0 below +0, a NaN in either gives the canonical NaN, NV for a signalling NaN
(R104, R126). -/
def fpMinMax (f : Nat) (max : Bool) (a b : Nat) : Nat × Flags :=
  let x := fpDecode f false a
  let y := fpDecode f false b
  if x.isNaN || y.isNaN then (fpNaN f, nvIf (x.signals || y.signals))
  else
    let o := fpOrder x y
    let aLess := o < 0 || (o == 0 && a / 2 ^ (fpWidth f - 1) % 2 == 1)
    (if aLess != max then a else b, 0)

/-- a = b; NV for a signalling NaN only (R128). -/
def fpEq (f : Nat) (a b : Nat) : Bool × Flags :=
  let x := fpDecode f false a
  let y := fpDecode f false b
  (!x.isNaN && !y.isNaN && fpOrder x y == 0, nvIf (x.signals || y.signals))
/-- a < b, or a <= b; NV for any NaN (R128). -/
def fpLess (f : Nat) (orEq : Bool) (a b : Nat) : Bool × Flags :=
  let x := fpDecode f false a
  let y := fpDecode f false b
  let bad := x.isNaN || y.isNaN
  (!bad && (fpOrder x y < 0 || (orEq && fpOrder x y == 0)), nvIf bad)

/-- The integer square root, by trying bits from 2^k downwards. -/
def isqrt (x : Nat) : Nat → Nat → Nat
  | 0, r => r
  | k + 1, r => let t := r + 2 ^ k; isqrt x k (if t * t ≤ x then t else r)

/-- Reciprocal of an FP32 value, correctly rounded (R127): ±0 gives ±infinity with DZ. -/
def f32Rcp (mode : BitVec 2) (a : Nat) : Nat × Flags :=
  match fpDecode 2 false a with
  | .nan _ s => (fpNaN 2, nvIf s)
  | .inf n => (fpSign 2 n, 0)
  | .num n m e =>
    if m == 0 then (fpSign 2 n + fpInf 2, fDZ)
    else
      let q := 2 ^ 64 / m
      fpRound 2 false false mode n q (-64 - e) (2 ^ 64 % m != 0)

/-- Square root of an FP32 value, correctly rounded (R127). -/
def f32Sqrt (mode : BitVec 2) (a : Nat) : Nat × Flags :=
  match fpDecode 2 false a with
  | .nan _ s => (fpNaN 2, nvIf s)
  | .inf n => if n then (fpNaN 2, fNV) else (fpInf 2, 0)
  | .num n m e =>
    if m == 0 then (fpSign 2 n, 0)
    else if n then (fpNaN 2, fNV)
    else
      let odd := if e % 2 == 0 then 0 else 1
      let x := m * 2 ^ (60 + odd)
      let r := isqrt x 44 0
      fpRound 2 false false mode false r ((e - Int.ofNat odd) / 2 - 30) (r * r != x)

/-- A faithful result: the FP32 magnitude code at or next below the exact magnitude, whether the exact value is that code's,
and which neighbour is delivered (R127). UF follows the neighbour delivered at full precision (R103). -/
def faithful (neg : Bool) (m : Nat) (e : Int) (sticky up : Bool) : Nat × Flags :=
  fpRound 2 false false (if up then 3#2 else 2#2) neg m e sticky

/-- Reciprocal square root, faithful, exact for 4^k (R127). -/
def f32Rsq (a : Nat) : Nat × Flags :=
  match fpDecode 2 false a with
  | .nan _ s => (fpNaN 2, nvIf s)
  | .inf n => if n then (fpNaN 2, fNV) else (0, 0)
  | .num n m e =>
    if m == 0 then (fpSign 2 n + fpInf 2, fDZ)
    else if n then (fpNaN 2, fNV)
    else
      let odd := if e % 2 == 0 then 0 else 1
      let x := m * 2 ^ odd
      let q := 2 ^ 120 / x
      let r := isqrt q 61 0
      faithful false r (-60 - (e - Int.ofNat odd) / 2) (r * r * x != 2 ^ 120) (Config.rsqUp (BitVec.ofNat 32 a))

/-- Fraction bits of the fixed-point numbers below. -/
def fixBits : Nat := 256
/-- ln 2 in fixed point, cut. -/
def fixLn2 : Nat := 0xb17217f7d1cf79abc9e3b39803f2f6af40f343267298b62d8a0d175b8baafa2b
/-- e^x for a fixed-point x below 1, by its series: terms to come, index, term, sum. -/
def fixExp (x : Nat) : Nat → Nat → Nat → Nat → Nat
  | 0, _, _, s => s
  | n + 1, k, t, s => let u := t * x / 2 ^ fixBits / k; fixExp x n (k + 1) u (s + u)
/-- 2^x for a fixed-point x below 1. -/
def fixExp2 (x : Nat) : Nat := fixExp (x * fixLn2 / 2 ^ fixBits) 64 1 (2 ^ fixBits) (2 ^ fixBits)
/-- The sum of z^(2k+1) / (2k+1): terms to come, 2k+1, power, sum. -/
def fixAtanh (z2 : Nat) : Nat → Nat → Nat → Nat → Nat
  | 0, _, _, s => s
  | n + 1, k, p, s => fixAtanh z2 n (k + 2) (p * z2 / 2 ^ fixBits) (s + p / k)
/-- log2 of x = m / 2^k for 1 <= x < 2, in fixed point. -/
def fixLog2 (m k : Nat) : Nat :=
  let z := (m - 2 ^ k) * 2 ^ fixBits / (m + 2 ^ k)
  let ln := 2 * fixAtanh (z * z / 2 ^ fixBits) 84 1 z 0
  ln * 2 ^ fixBits / fixLn2

/-- 2^a, faithful, exact for the integers -149 to 127 (R127). Below -150 the result is +0. -/
def f32Exp2 (mode : BitVec 2) (a : Nat) : Nat × Flags :=
  match fpDecode 2 false a with
  | .nan _ s => (fpNaN 2, nvIf s)
  | .inf n => (if n then 0 else fpInf 2, 0)
  | .num n m e =>
    if m == 0 then (0x3F800000, 0)
    else
      let big := Int.ofNat (Nat.log2 m) + e
      if 7 ≤ big && !n then (overflowCode 2 false false mode false, fOF ||| fNX)
      else if 8 ≤ big then (0, fUF ||| fNX)
      else
        let v := signedMag n (m * 2 ^ (e + 256).toNat)
        let whole := v / 2 ^ fixBits
        let frac := (v % 2 ^ fixBits).toNat
        if v < -150 * 2 ^ fixBits then (0, fUF ||| fNX)
        else
          if frac == 0 && -149 ≤ whole then fpRound 2 false false mode false 1 whole false
          else
            let y := fixExp2 frac
            faithful false (y / 2 ^ 64) (whole - 192) true (Config.exp2Up (BitVec.ofNat 32 a))

/-- log2 of an FP32 value, faithful, exact for powers of two (R127). -/
def f32Log2 (a : Nat) : Nat × Flags :=
  match fpDecode 2 false a with
  | .nan _ s => (fpNaN 2, nvIf s)
  | .inf n => if n then (fpNaN 2, fNV) else (fpInf 2, 0)
  | .num n m e =>
    if m == 0 then (fpSign 2 true + fpInf 2, fDZ)
    else if n then (fpNaN 2, fNV)
    else
      let k := Nat.log2 m
      let whole := Int.ofNat k + e
      if m == 2 ^ k then fpRound 2 false false 0 (whole < 0) whole.natAbs 0 false
      else
        let v := whole * 2 ^ fixBits + Int.ofNat (fixLog2 m k)
        faithful (v < 0) ((if v < 0 then (-v).toNat - 1 else v.toNat) / 2 ^ 64) (-192) true
          (Config.log2Up (BitVec.ofNat 32 a))

/-- tanh of an FP32 value, faithful (R127). Below 2^-12 the exact magnitude lies between the operand and its lower neighbour;
from 10 on the result is ±1. -/
def f32Tanh (a : Nat) : Nat × Flags :=
  match fpDecode 2 false a with
  | .nan _ s => (fpNaN 2, nvIf s)
  | .inf n => (fpSign 2 n + 0x3F800000, 0)
  | .num n m e =>
    let up := Config.tanhUp (BitVec.ofNat 32 a)
    if m == 0 then (fpSign 2 n, 0)
    else
      let big := Int.ofNat (Nat.log2 m) + e
      if 4 ≤ big || (big == 3 && 10 * 2 ^ (-e).toNat ≤ m) then (fpSign 2 n + 0x3F800000, fNX)
      else if big < -12 then faithful n (m * 2 ^ 40 - 1) (e - 40) true up
      else
        -- tanh x = 1 - 2 / (e^(2x) + 1), with e^(2x) = 2^(2x / ln 2)
        let x2 := m * 2 ^ (257 + e).toNat
        let t := x2 * 2 ^ fixBits / fixLn2
        let y := fixExp2 (t % 2 ^ fixBits) * 2 ^ (t / 2 ^ fixBits)
        let v := 2 ^ fixBits - 2 * 2 ^ (2 * fixBits) / (y + 2 ^ fixBits)
        faithful n (v / 2 ^ 64) (-192) true up

/-- A conversion of a floating or integer value to a floating format (R106). -/
def cvtToFloat (dst : Nat) (fm sat : Bool) (mode : BitVec 2) : FNum → Nat × Flags
  | .num n m e => fpRound dst fm sat mode n m e false
  | .inf n =>
    if fpHasInf dst fm then (fpSign dst n + fpInf dst, 0)
    else if dst == 5 && !fm && !sat then (fpSign dst n + fpNaN 5, fNV)
    else (fpSign dst n + fpMaxCode dst fm, fOF)
  | .nan n s =>
    if fpHasNaN dst fm then (fpSign dst n + fpNaN dst, nvIf s)
    else (0, fNV)

/-- A conversion to a two's complement integer of a width (R106). -/
def cvtToInt (w : Nat) (mode : BitVec 2) : FNum → Int × Flags
  | .nan _ _ => (0, fNV)
  | .inf n => (if n then -(2 ^ (w - 1)) else 2 ^ (w - 1) - 1, fNV)
  | .num n m e =>
    let (r, nx) := roundAt mode n false m e 0
    let v := signedMag n r
    if v < -(2 ^ (w - 1)) then (-(2 ^ (w - 1)), fNV)
    else if 2 ^ (w - 1) - 1 < v then (2 ^ (w - 1) - 1, fNV)
    else (v, if nx then fNX else 0)

/-- A two's complement integer of a width. -/
def ofSigned (w : Nat) (x : Int) : Nat := (x % 2 ^ w).toNat
/-- The value of a two's complement integer of a width. -/
def toSigned (w x : Nat) : Int := if 2 ^ (w - 1) ≤ x % 2 ^ w then Int.ofNat (x % 2 ^ w) - 2 ^ w else Int.ofNat (x % 2 ^ w)

/-- A conversion between two fmt codes by R106, integers of width w on either side; the same format keeps the bits. -/
def convert (src dst w : Nat) (fm sat : Bool) (mode : BitVec 2) (x : Nat) : Nat × Flags :=
  let xw := x % 2 ^ (if src == 0 then w else fpWidth src)
  if src == dst then (xw, 0)
  else if src == 0 then
    let v := toSigned w x
    cvtToFloat dst fm sat mode (.num (v < 0) v.natAbs 0)
  else if dst == 0 then
    let (v, fl) := cvtToInt w mode (fpDecode src fm xw)
    (ofSigned w v, fl)
  else cvtToFloat dst fm sat mode (fpDecode src fm xw)

/-- Narrowing of an INT32 to an INT8, as VPACK does (04_core_compute, R135). -/
def narrow8 (sat : Bool) (x : Nat) : Nat × Flags :=
  let v := toSigned 32 x
  let out := v < -128 || 127 < v
  (if sat && out then ofSigned 8 (if v < 0 then -128 else 127) else x % 256, nvIf out)

/-- The class of a code, one bit of ten (R138). -/
def fpClass (f : Nat) (fm : Bool) (x : Nat) : Nat :=
  if f == 0 then 0
  else match fpDecode f fm (x % 2 ^ fpWidth f) with
    | .nan _ s => if s then 256 else 512
    | .inf n => if n then 1 else 128
    | .num n m _ =>
      if m == 0 then (if n then 8 else 16)
      else if m < 2 ^ fpFracBits f then (if n then 4 else 32)
      else (if n then 2 else 64)

/-- A UE8M12 block scale as magnitude and exponent; none is the NaN scale (03_core_numbers, R98). -/
def scaleValue (s : Nat) : Option (Nat × Int) :=
  let v := s % 2 ^ 20
  if v == 0xFFFFF then none
  else if v / 4096 == 0 then some (0, 0)
  else some (4096 + v % 4096, Int.ofNat (v / 4096) - 139)

/-- a * 2^k with one rounding (04_core_compute, R137). -/
def f32Scale (mode : BitVec 2) (a : Nat) (k : Int) : Nat × Flags :=
  match fpDecode 2 false a with
  | .nan _ s => (fpNaN 2, nvIf s)
  | .inf n => (fpSign 2 n + fpInf 2, 0)
  | .num n m e => fpRound 2 false false mode n m (e + k) false

/-- a times a block scale (04_core_compute, R137). -/
def f32ScaleX (mode : BitVec 2) (a s : Nat) : Nat × Flags :=
  match scaleValue s with
  | none => (fpNaN 2, 0)
  | some (sm, se) =>
    match fpDecode 2 false a with
    | .nan _ g => (fpNaN 2, nvIf g)
    | .inf n => if sm == 0 then (fpNaN 2, fNV) else (fpSign 2 n + fpInf 2, 0)
    | .num n m e => fpRound 2 false false mode n (m * sm) (e + se) false

/-- The significand of a code, the hidden bit included; what a residue check of a conversion compares (04_core_compute, R115); a
code that is no number has none, and its residue is free. -/
def significand (f : Nat) (fm : Bool) (x : Nat) : Nat :=
  match fpDecode f fm x with
  | .num _ m _ => m
  | _ => (Config.residue x).toNat

/-- The checked quantity of a floating sum: the magnitude of the exact sum of the significands, aligned to the largest exponent with
guard bits in threes, so many that no bit is lost: three more leave a residue modulo 7 as it is (R115). Where a term is no number
there is no such sum, and the residue is free, by the operands that seed names. -/
def alignedSum (seed : Nat) (ts : List FNum) : Nat :=
  let terms := ts.filterMap (fun t => match t with | .num n m e => if m == 0 then none else some (n, m, e) | _ => none)
  if ts.all (fun t => match t with | .num _ _ _ => true | _ => false) then
    match terms with
    | [] => 0
    | t :: rest =>
      let hi := rest.foldl (fun a u => max a u.2.2) t.2.2
      let lo := rest.foldl (fun a u => min a u.2.2) t.2.2
      let g := 3 * ((hi - lo).toNat / 3 + 1)
      ((t :: rest).foldl (fun a u => a + signedMag u.1 (u.2.1 * 2 ^ (g - (hi - u.2.2).toNat))) 0 : Int).natAbs
  else (Config.residue seed).toNat

end Sys2Proof.Machine
end

