-- ==== Sys2Proof/Syntax.lean ====
section
/-! DEFINITION. The instructions and steps of the part: one constructor for each row of the opcode table.
Rows of rule bodies carry the fields of their words (01_encoding, R18 to R21): a, b the sources, d, e the destinations,
t the tag action, i the immediate, x<name> a field of the extension word. A field that the row fixes is no argument.
Rows that are events of the part (95_what_each_step_holds) stand after them; the keys of what such a step acts on (which core,
which message, which queue) are plain data of the state, its step operands. -/
namespace Sys2Proof

/-- A 5-bit operand port code (01_encoding, R28). -/
abbrev Opd := BitVec 5
/-- A 4-bit tag action (01_encoding, R33). -/
abbrev Tag := BitVec 4

/-- Every row of the opcode table. -/
inductive Instr where
  /-- No operation (R117). -/
  | nop (t : Tag)
  /-- Moves a source to a destination (R117). -/
  | mov (a d e : Opd) (t : Tag)
  /-- Loads a sign-extended 14-bit immediate (R117). -/
  | movi (d : Opd) (i : BitVec 14)
  /-- Shifts a left by 14 and ORs in an immediate (R117). -/
  | movsh (a d : Opd) (i : BitVec 14)
  /-- 64-bit add (R117). -/
  | add (a b d e : Opd) (t : Tag)
  /-- Adds a sign-extended immediate (R117). -/
  | addi (a d : Opd) (i : BitVec 14)
  /-- 64-bit subtract (R117). -/
  | sub (a b d e : Opd) (t : Tag)
  /-- Low 64 bits of a product (R117). -/
  | mul (a b d e : Opd) (t : Tag)
  /-- High 64 bits of the signed product (R117). -/
  | mulh (a b d e : Opd) (t : Tag)
  /-- High 64 bits of the unsigned product (R117). -/
  | mulhu (a b d e : Opd) (t : Tag)
  /-- Signed division truncating toward zero, never faulting (R118). -/
  | div (a b d e : Opd) (t : Tag)
  /-- Unsigned division (R118). -/
  | divu (a b d e : Opd) (t : Tag)
  /-- Signed remainder (R118). -/
  | rem (a b d e : Opd) (t : Tag)
  /-- Unsigned remainder (R118). -/
  | remu (a b d e : Opd) (t : Tag)
  /-- Bitwise AND (R117). -/
  | and (a b d e : Opd) (t : Tag)
  /-- Bitwise AND with a zero-extended immediate (R117). -/
  | andi (a d : Opd) (i : BitVec 14)
  /-- Bitwise OR (R117). -/
  | or (a b d e : Opd) (t : Tag)
  /-- Bitwise OR with an immediate (R117). -/
  | ori (a d : Opd) (i : BitVec 14)
  /-- Bitwise XOR (R117). -/
  | xor (a b d e : Opd) (t : Tag)
  /-- Bitwise XOR with an immediate (R117). -/
  | xori (a d : Opd) (i : BitVec 14)
  /-- Shift left by b[5:0] (R117). -/
  | shl (a b d e : Opd) (t : Tag)
  /-- Shift left by an immediate count (R117). -/
  | shli (a d : Opd) (i : BitVec 6)
  /-- Logical right shift (R117). -/
  | shr (a b d e : Opd) (t : Tag)
  /-- Logical right shift by an immediate (R117). -/
  | shri (a d : Opd) (i : BitVec 6)
  /-- Arithmetic right shift (R117). -/
  | sar (a b d e : Opd) (t : Tag)
  /-- Arithmetic right shift by an immediate (R117). -/
  | sari (a d : Opd) (i : BitVec 6)
  /-- Rotate left by b[5:0] (R117). -/
  | rol (a b d e : Opd) (t : Tag)
  /-- Counts leading zero bits (R117). -/
  | clz (a d e : Opd) (t : Tag)
  /-- Counts trailing zero bits (R117). -/
  | ctz (a d e : Opd) (t : Tag)
  /-- Counts one bits (R117). -/
  | popc (a d e : Opd) (t : Tag)
  /-- Signed minimum (R117). -/
  | min (a b d e : Opd) (t : Tag)
  /-- Signed maximum (R117). -/
  | max (a b d e : Opd) (t : Tag)
  /-- Unsigned minimum (R117). -/
  | minu (a b d e : Opd) (t : Tag)
  /-- Unsigned maximum (R117). -/
  | maxu (a b d e : Opd) (t : Tag)
  /-- Signed saturating add (R117). -/
  | addsat (a b d e : Opd) (t : Tag)
  /-- Signed saturating subtract (R117). -/
  | subsat (a b d e : Opd) (t : Tag)
  /-- Sets 1 when a = b (R117). -/
  | seq (a b d e : Opd) (t : Tag)
  /-- Sets 1 when a ≠ b (R117). -/
  | sne (a b d e : Opd) (t : Tag)
  /-- Signed less-than (R117). -/
  | slt (a b d e : Opd) (t : Tag)
  /-- Unsigned less-than (R117). -/
  | sltu (a b d e : Opd) (t : Tag)
  /-- Signed less-or-equal (R117). -/
  | sle (a b d e : Opd) (t : Tag)
  /-- Unsigned less-or-equal (R117). -/
  | sleu (a b d e : Opd) (t : Tag)
  /-- Selects a or b on a condition register named in dstB (R119). -/
  | sel (a b d e : Opd) (t : Tag)
  /-- Sign-extends the low n bits (R120). -/
  | sext (a d : Opd) (i : BitVec 7)
  /-- Zero-extends the low n bits (R120). -/
  | zext (a d : Opd) (i : BitVec 7)
  /-- Extracts a bit field, signed or unsigned (R120). -/
  | bfx (a d : Opd) (i : BitVec 14)
  /-- Inserts a bit field in place (R120). -/
  | bfi (a b d e : Opd) (t : Tag)
  /-- Builds an absolute mesh address (R122). -/
  | xyadr (a b d e : Opd) (t : Tag)
  /-- Builds a relative mesh address (R122). -/
  | reladr (a b d e : Opd) (t : Tag)
  /-- Returns the coordinate word of the logical core (R122). -/
  | myxy (d e : Opd) (t : Tag)
  /-- Extracts one field of a mesh address (R122). -/
  | adrx (a d : Opd) (i : BitVec 2)
  /-- Checks and resolves an address for an n-byte access (R123). -/
  | adrchk (a b d e : Opd) (t : Tag)
  /-- Masked vector move (R125). -/
  | vmov (a d e : Opd) (t : Tag)
  /-- Broadcasts a scalar's low 32 bits to all lanes (R125). -/
  | vbcast (a d e : Opd) (t : Tag)
  /-- Permutes lanes by index (R125). -/
  | vperm (a b d e : Opd) (t : Tag)
  /-- Extracts one lane to a scalar (R125). -/
  | vextr (a d : Opd) (i : BitVec 4)
  /-- Inserts a scalar into one lane in place (R125). -/
  | vins (a d : Opd) (i : BitVec 4)
  /-- FP32 lane add (R126). -/
  | vaddF32 (a b d e : Opd) (t : Tag)
  /-- FP32 lane subtract (R126). -/
  | vsubF32 (a b d e : Opd) (t : Tag)
  /-- FP32 lane multiply (R126). -/
  | vmulF32 (a b d e : Opd) (t : Tag)
  /-- FP32 fused multiply-add in place (R126). -/
  | vfmaF32 (a b d e : Opd) (t : Tag)
  /-- FP32 lane minimum (R126). -/
  | vminF32 (a b d e : Opd) (t : Tag)
  /-- FP32 lane maximum (R126). -/
  | vmaxF32 (a b d e : Opd) (t : Tag)
  /-- FP64 pair add (R126). -/
  | vaddF64 (a b d e : Opd) (t : Tag)
  /-- FP64 pair subtract (R126). -/
  | vsubF64 (a b d e : Opd) (t : Tag)
  /-- FP64 pair multiply (R126). -/
  | vmulF64 (a b d e : Opd) (t : Tag)
  /-- FP64 fused multiply-add in place (R126). -/
  | vfmaF64 (a b d e : Opd) (t : Tag)
  /-- BF16 element add (R126). -/
  | vaddBf16 (a b d e : Opd) (t : Tag)
  /-- BF16 element multiply (R126). -/
  | vmulBf16 (a b d e : Opd) (t : Tag)
  /-- BF16 pair dot product accumulated into FP32 in place (R126). -/
  | vdot2Bf16 (a b d e : Opd) (t : Tag)
  /-- Clears the sign bit of each lane (R127). -/
  | vabsF32 (a d e : Opd) (t : Tag)
  /-- Inverts the sign bit of each lane (R127). -/
  | vnegF32 (a d e : Opd) (t : Tag)
  /-- Correctly rounded reciprocal (R127). -/
  | vrcpF32 (a d e : Opd) (t : Tag)
  /-- Faithful reciprocal square root (R127). -/
  | vrsqF32 (a d e : Opd) (t : Tag)
  /-- Correctly rounded square root (R127). -/
  | vsqrtF32 (a d e : Opd) (t : Tag)
  /-- Faithful base-2 exponential (R127). -/
  | vexp2F32 (a d e : Opd) (t : Tag)
  /-- Faithful base-2 logarithm (R127). -/
  | vlog2F32 (a d e : Opd) (t : Tag)
  /-- Faithful hyperbolic tangent (R127). -/
  | vtanhF32 (a d e : Opd) (t : Tag)
  /-- FP32 equality compare into lm and the lanes (R128). -/
  | vceqF32 (a b d e : Opd) (t : Tag)
  /-- FP32 less-than compare (R128). -/
  | vcltF32 (a b d e : Opd) (t : Tag)
  /-- FP32 less-or-equal compare (R128). -/
  | vcleF32 (a b d e : Opd) (t : Tag)
  /-- Selects each lane from a or b by lm (R128). -/
  | vsel (a b d e : Opd) (t : Tag)
  /-- INT32 lane add (R129). -/
  | viadd (a b d e : Opd) (t : Tag)
  /-- INT32 lane subtract (R129). -/
  | visub (a b d e : Opd) (t : Tag)
  /-- INT32 lane multiply, low 32 bits (R129). -/
  | vimul (a b d e : Opd) (t : Tag)
  /-- Lane bitwise AND (R129). -/
  | vand (a b d e : Opd) (t : Tag)
  /-- Lane bitwise OR (R129). -/
  | vor (a b d e : Opd) (t : Tag)
  /-- Lane bitwise XOR (R129). -/
  | vxor (a b d e : Opd) (t : Tag)
  /-- Lane shift left (R129). -/
  | vshl (a b d e : Opd) (t : Tag)
  /-- Lane logical right shift (R129). -/
  | vshr (a b d e : Opd) (t : Tag)
  /-- Lane arithmetic right shift (R129). -/
  | vsar (a b d e : Opd) (t : Tag)
  /-- Signed lane minimum (R129). -/
  | vimin (a b d e : Opd) (t : Tag)
  /-- Signed lane maximum (R129). -/
  | vimax (a b d e : Opd) (t : Tag)
  /-- INT32 equality compare into lm (R129). -/
  | viceq (a b d e : Opd) (t : Tag)
  /-- INT32 signed less-than compare into lm (R129). -/
  | viclt (a b d e : Opd) (t : Tag)
  /-- Saturating signed byte add (R129). -/
  | viaddsatI8 (a b d e : Opd) (t : Tag)
  /-- Pairwise-tree FP32 sum of all lanes into a scalar (R130). -/
  | vrsumF32 (a d e : Opd) (t : Tag)
  /-- Tree FP32 maximum of all lanes into a scalar (R130). -/
  | vrmaxF32 (a d e : Opd) (t : Tag)
  /-- Wrapping INT32 sum of all lanes into a scalar (R130). -/
  | vrsumI32 (a d e : Opd) (t : Tag)
  /-- Sets lm to a contiguous range of lanes (R131). -/
  | vmset (i : BitVec 8)
  /-- Reads lm into a scalar (R131). -/
  | vmget (d e : Opd) (t : Tag)
  /-- Shifts lanes up by n, filling with zero (R132). -/
  | vshiftl (a d : Opd) (i : BitVec 4)
  /-- Left-to-right FP32 prefix sum across lanes (R132). -/
  | vscanF32 (a d e : Opd) (t : Tag)
  /-- Converts one scalar between formats (R133). -/
  | cvt (a d : Opd) (i : BitVec 9)
  /-- Converts each lane between formats, masked (R134). -/
  | vcvt (a d : Opd) (i : BitVec 9)
  /-- Narrows 16 lanes into packed elements (R135). -/
  | vpack (a d : Opd) (i : BitVec 9)
  /-- Widens 16 packed elements into lanes (R136). -/
  | vunpk (a d : Opd) (i : BitVec 9)
  /-- Multiplies each lane by 2^k (R137). -/
  | vscale (a b d e : Opd) (t : Tag)
  /-- Multiplies each lane by a UE8M12 scale (R137). -/
  | vscalex (a b d e : Opd) (t : Tag)
  /-- Sets the bit-stream buffer and its state, returning the old bw (R141). -/
  | bsinit (a b d e : Opd) (t : Tag)
  /-- Refills, then returns the top n bits without consuming them (R142). -/
  | bspeek (a d : Opd) (i : BitVec 7)
  /-- Refills, then returns and consumes n bits (R142). -/
  | bsget (a d : Opd) (i : BitVec 7)
  /-- Refills, then consumes n bits (R142). -/
  | bsskip (a : Opd) (i : BitVec 7)
  /-- Decodes one canonical Huffman symbol from the local table (R144). -/
  | bshuf (a d e : Opd) (t : Tag)
  /-- Appends n bits and drains whole 32-bit elements to the write stream (R145). -/
  | bsput (a b d : Opd) (t : Tag)
  /-- Flushes the remaining bits to the stream, or discards up to a byte boundary (R145). -/
  | bsflush (d : Opd) (t : Tag)
  /-- Returns bw (R141). -/
  | bsstat (d e : Opd) (t : Tag)
  /-- Classifies a value in a given format (R138). -/
  | fclass (a b d e : Opd) (t : Tag)
  /-- Aborts the rule with EXPLICIT (R80). -/
  | abort (t : Tag)
  /-- Aborts with EXPLICIT when the source is zero (R80). -/
  | abortz (a : Opd) (t : Tag)
  /-- Aborts with EXPLICIT when the source is non-zero (R80). -/
  | abortnz (a : Opd) (t : Tag)
  /-- Stages en[k] := 1 (R81). -/
  | ruleon (i : BitVec 6)
  /-- Stages en[k] := 0 (R81). -/
  | ruleoff (i : BitVec 6)
  /-- Writes masked enable bits and returns the old ones (R82). -/
  | rulemask (a b d e : Opd) (t : Tag)
  /-- Reads a rule's abort record and optionally clears it (R83). -/
  | raborts (a b d e : Opd) (t : Tag)
  /-- Sets the context's ended flag at commit (R84). -/
  | ctxend (t : Tag)
  /-- Sets the yield flag so that the core passes to the next ready context (R85). -/
  | ctxyield (t : Tag)
  /-- Sets a tag bit (R167). -/
  | tset (i : BitVec 6)
  /-- Clears a tag bit (R167). -/
  | tclr (i : BitVec 6)
  /-- Returns the lowest set bit of tb AND a (R167). -/
  | tffr (a d e : Opd) (t : Tag)
  /-- Returns 1 when any bit of tb AND a is set (R167). -/
  | tany (a d e : Opd) (t : Tag)
  /-- Returns 1 when every bit of a is set in tb (R167). -/
  | tall (a d e : Opd) (t : Tag)
  /-- Writes masked bits of a tag mask or of tb, returning the old value (R168). -/
  | tmask (a b d e : Opd) (t : Tag)
  /-- Holds later traffic until earlier accesses in scope are performed or have replied (R174). -/
  | fence (i : BitVec 5)
  /-- Raises a software trap after the commit (R226). -/
  | trap (i : BitVec 8)
  /-- Sends a resume message with an action for a trapped context (R227). -/
  | tret (a b : Opd) (t : Tag)
  /-- Reads a CSR (R228). -/
  | csrr (d : Opd) (i : BitVec 12)
  /-- Writes a CSR under its access rules and returns the old value (R228). -/
  | csrw (a d : Opd) (i : BitVec 12)
  /-- Reads a word of the record ring (R230). -/
  | mcrd (a d e : Opd) (t : Tag)
  /-- Reads an event counter (R230). -/
  | cntrd (a d e : Opd) (t : Tag)
  /-- Clears an event counter (R230). -/
  | cntclr (a : Opd) (t : Tag)
  /-- Arms the core's residue error injector (R229). -/
  | errinj (a d e : Opd) (t : Tag)
  /-- Reads the die time counter, optionally corrected (R230). -/
  | timerd (a d e : Opd) (t : Tag)
  /-- Reads the context's round counter (R230). -/
  | roundrd (d e : Opd) (t : Tag)
  /-- Sets st.FM at commit and returns the old FM (R230). -/
  | fmtmode (a d e : Opd) (t : Tag)
  /-- Loads 1, 2, 4 or 8 bytes of local memory, zero-extended (R151). -/
  | ld (a d e : Opd) (t : Tag) (xw : BitVec 2) (xoff : BitVec 20)
  /-- Stores 1, 2, 4 or 8 bytes to local memory (R151). -/
  | st (a b : Opd) (t : Tag) (xw : BitVec 2) (xoff : BitVec 20)
  /-- Stores one 4-bit element as an indivisible read-modify-write (R151). -/
  | stn (a b : Opd) (t : Tag) (xh : BitVec 1) (xoff : BitVec 20)
  /-- Loads 64 bytes into a vector register (R151). -/
  | vld (a d e : Opd) (t : Tag) (xoff : BitVec 20)
  /-- Stores 64 bytes, optionally masked by lm (R151). -/
  | vst (a b : Opd) (t : Tag) (xm : BitVec 1) (xoff : BitVec 20)
  /-- Gathers 16 local elements by index (R152). -/
  | vldx (a b d e : Opd) (t : Tag) (xw : BitVec 2) (xm : BitVec 1) (xoff : BitVec 20)
  /-- Scatters 16 local elements by index (R152). -/
  | vstx (a b : Opd) (t : Tag) (xw : BitVec 2) (xm : BitVec 1) (xix : BitVec 4) (xoff : BitVec 20)
  /-- Split-phase remote read that replies on rp (R156). -/
  | rld (a : Opd) (t : Tag) (xw : BitVec 2) (xrt : BitVec 6) (xoff : BitVec 20)
  /-- Split-phase remote write, with an optional reply (R156). -/
  | rst (a b : Opd) (t : Tag) (xw : BitVec 2) (xrt : BitVec 6) (xrpy : BitVec 1) (xoff : BitVec 20)
  /-- Split-phase 64-byte remote read (R156). -/
  | rvld (a : Opd) (t : Tag) (xrt : BitVec 6) (xoff : BitVec 20)
  /-- Split-phase 64-byte remote write (R156). -/
  | rvst (a b : Opd) (t : Tag) (xrt : BitVec 6) (xrpy : BitVec 1) (xoff : BitVec 20)
  /-- Atomic wrapping add (R160). -/
  | amoAdd (a b : Opd) (t : Tag) (xw : BitVec 2) (xrt : BitVec 6) (xrpy : BitVec 1) (xoff : BitVec 15)
  /-- Atomic signed minimum (R160). -/
  | amoMin (a b : Opd) (t : Tag) (xw : BitVec 2) (xrt : BitVec 6) (xrpy : BitVec 1) (xoff : BitVec 15)
  /-- Atomic signed maximum (R160). -/
  | amoMax (a b : Opd) (t : Tag) (xw : BitVec 2) (xrt : BitVec 6) (xrpy : BitVec 1) (xoff : BitVec 15)
  /-- Atomic unsigned minimum (R160). -/
  | amoMinu (a b : Opd) (t : Tag) (xw : BitVec 2) (xrt : BitVec 6) (xrpy : BitVec 1) (xoff : BitVec 15)
  /-- Atomic unsigned maximum (R160). -/
  | amoMaxu (a b : Opd) (t : Tag) (xw : BitVec 2) (xrt : BitVec 6) (xrpy : BitVec 1) (xoff : BitVec 15)
  /-- Atomic AND (R160). -/
  | amoAnd (a b : Opd) (t : Tag) (xw : BitVec 2) (xrt : BitVec 6) (xrpy : BitVec 1) (xoff : BitVec 15)
  /-- Atomic OR (R160). -/
  | amoOr (a b : Opd) (t : Tag) (xw : BitVec 2) (xrt : BitVec 6) (xrpy : BitVec 1) (xoff : BitVec 15)
  /-- Atomic XOR (R160). -/
  | amoXor (a b : Opd) (t : Tag) (xw : BitVec 2) (xrt : BitVec 6) (xrpy : BitVec 1) (xoff : BitVec 15)
  /-- Atomic swap (R160). -/
  | amoSwap (a b : Opd) (t : Tag) (xw : BitVec 2) (xrt : BitVec 6) (xrpy : BitVec 1) (xoff : BitVec 15)
  /-- Atomic compare-and-swap (R160). -/
  | amoCas (a b : Opd) (t : Tag) (xw : BitVec 2) (xrt : BitVec 6) (xrpy : BitVec 1) (xcmp : BitVec 4) (xoff : BitVec 15)
  /-- Atomic FP32 add with RNE (R160). -/
  | amoFaddF32 (a b : Opd) (t : Tag) (xw : BitVec 2) (xrt : BitVec 6) (xrpy : BitVec 1) (xoff : BitVec 15)
  /-- Atomic BF16 add with RNE (R160). -/
  | amoFaddBf16 (a b : Opd) (t : Tag) (xw : BitVec 2) (xrt : BitVec 6) (xrpy : BitVec 1) (xoff : BitVec 15)
  /-- Binds a stream register to an affine engine from a parameter block (R162). -/
  | stream (a d : Opd) (t : Tag) (xdir : BitVec 1) (xfmt : BitVec 3) (xesz : BitVec 2)
  /-- Unbinds a stream, discarding fetched elements or writing queued ones first (R165). -/
  | strctlUnbind (d : Opd) (t : Tag)
  /-- Pauses a stream engine (R165). -/
  | strctlPause (d : Opd) (t : Tag)
  /-- Resumes a stream engine (R165). -/
  | strctlResume (d : Opd) (t : Tag)
  /-- Asks for a tag once the stream's committed elements are written or its nest fetched (R165). -/
  | strctlDrain (d : Opd) (t : Tag) (xtg : BitVec 6)
  /-- Copies a byte range through the cluster copy engine (R170). -/
  | cpy (a b : Opd) (xtg : BitVec 6) (xte : BitVec 1) (xlen : BitVec 4)
  /-- Copies a two-dimensional range described by a descriptor (R170). -/
  | cpy2 (a : Opd) (xtg : BitVec 6) (xte : BitVec 1)
  /-- Requests a flip of a publish window at its owner (R172). -/
  | publish (a : Opd) (xtg : BitVec 6) (xte : BitVec 1) (xwin : BitVec 3)
  /-- Asks the die's Reservoir to fetch external lines (R173). -/
  | pfetch (a b : Opd) (xtg : BitVec 6) (xte : BitVec 1)
  /-- Queues a floating matrix multiply-accumulate (R194). -/
  | mma (a b : Opd) (t : Tag) (xacc : BitVec 2) (xaf xbf : BitVec 3) (xk : BitVec 10) (xm xn : BitVec 4) (xz xbt : BitVec 1) (xep : BitVec 4)
  /-- Queues a matrix multiply into a zeroed accumulator (R194). -/
  | mmaz (a b : Opd) (t : Tag) (xacc : BitVec 2) (xaf xbf : BitVec 3) (xk : BitVec 10) (xm xn : BitVec 4) (xz xbt : BitVec 1) (xep : BitVec 4)
  /-- Queues a ternary by INT8 matrix multiply-accumulate (R196). -/
  | mmat (a b : Opd) (t : Tag) (xacc : BitVec 2) (xaf xbf : BitVec 3) (xk : BitVec 10) (xm xn : BitVec 4) (xz xbt : BitVec 1) (xep : BitVec 4)
  /-- Queues an INT8 matrix multiply-accumulate (R196). -/
  | mmai8 (a b : Opd) (t : Tag) (xacc : BitVec 2) (xaf xbf : BitVec 3) (xk : BitVec 10) (xm xn : BitVec 4) (xz xbt : BitVec 1) (xep : BitVec 4)
  /-- Queues an MX-scaled matrix multiply-accumulate (R195). -/
  | mmamx (a b : Opd) (t : Tag) (xacc : BitVec 2) (xaf xbf : BitVec 3) (xk : BitVec 10) (xm xn : BitVec 4) (xz xbt : BitVec 1) (xep : BitVec 4)
  /-- Reads accumulator rows to rp or through an epilogue chain (R197). -/
  | accrd (t : Tag) (xacc : BitVec 2) (xrt : BitVec 6) (xfirst xrn xep : BitVec 4) (xclr : BitVec 1)
  /-- Writes accumulator rows from a local tile (R198). -/
  | accwr (a : Opd) (t : Tag) (xacc xtyp : BitVec 2) (xfirst xrn : BitVec 4)
  /-- Zeroes an accumulator and sets its type (R199). -/
  | accz (t : Tag) (xacc xtyp : BitVec 2)
  /-- Queues a new descriptor for an epilogue chain (R200). -/
  | epicfg (a : Opd) (t : Tag) (xch : BitVec 4)
  /-- Queues the ABFT check setting (R202). -/
  | abftcfg (t : Tag) (xen xcorr : BitVec 1)
  /-- Reads basin queue state, slot state or an event counter, optionally clearing it (R203). -/
  | bqstat (d e : Opd) (t : Tag) (xsel : BitVec 4) (xclr : BitVec 1)
  /-- Arrives at a cluster barrier (R258). -/
  | bar (xk : BitVec 4) (xtg : BitVec 6) (xte : BitVec 1)
  /-- Arrives at a cluster barrier with a timeout (R258). -/
  | bart (a : Opd) (xk : BitVec 4) (xtg xtm : BitVec 6)
  /-- Contributes to a Confluence reduction tree (R258). -/
  | red (a : Opd) (xtr : BitVec 5) (xop : BitVec 4) (xv xall : BitVec 1) (xrt : BitVec 6)
  /-- Sends this side's half of a paired exchange (R258). -/
  | pairx (a : Opd) (xch : BitVec 4) (xrt : BitVec 6)
  /-- Requests a gang stop through the Sluice tree (R258). -/
  | sluice (a : Opd)
  /-- Forwards a trap record to the next handler-chain entry (R258). -/
  | hfwd (a : Opd)
  /-- Reads a band-table entry (R295). -/
  | bandrd (a d e : Opd) (t : Tag)
  /-- Reads a die's time offset and uncertainty (R295). -/
  | toffrd (a d e : Opd) (t : Tag)
  /-- Reads the region's VF state and optionally requests a change (R295). -/
  | vfreq (a d e : Opd) (t : Tag)
  /-- Reads the core's weir limit and optionally sets it (R295). -/
  | weir (a d e : Opd) (t : Tag)
  /-- Copies bytes from the die's pinned store to local memory (R296). -/
  | rsvld (a b : Opd) (t : Tag) (xtg : BitVec 6) (xte : BitVec 1) (xlen : BitVec 4)
  /-- Requests a new partition of the Reservoir (R297). -/
  | rsvcfgPart (a : Opd) (t : Tag) (xtg : BitVec 6) (xte : BitVec 1)
  /-- Drops the die's clean cache lines (R297). -/
  | rsvcfgDrop (a : Opd) (t : Tag) (xtg : BitVec 6) (xte : BitVec 1)
  /-- Launches a stream as Cascade blocks on a group (R315). -/
  | cgsend (a b : Opd) (xg : BitVec 8) (xtg : BitVec 6) (xte : BitVec 1) (xsrc : BitVec 2) (xhuf : BitVec 1) (xfmt : BitVec 3) (xlast : BitVec 1)
  /-- Sets or clears a member's grant hold and sends a vote (R316). -/
  | cgrant (xg : BitVec 8) (xhold : BitVec 1)
  /-- Lights a group's laser (R317). -/
  | cgwake (xg : BitVec 8) (xtg : BitVec 6) (xte : BitVec 1)
  /-- Releases the oldest popped receive slots (R318). -/
  | cgrel (xport : BitVec 1) (xk : BitVec 2)
  /-- Writes a membership filter (R319). -/
  | cgcfgFilter (a : Opd) (xix : BitVec 8)
  /-- Writes a receive port's delivery register (R319). -/
  | cgcfgPort (a : Opd) (xix : BitVec 8)
  /-- Changes a group's branch depth (R319). -/
  | cgcfgDepth (a : Opd) (xix : BitVec 8)
  /-- Reads Cascade port, filter, group, splitter or counter state (R320). -/
  | cgstat (a d e : Opd) (t : Tag) (xsel : BitVec 3)
  /-- Pushes end-of-stream tokens on output links and optionally ends the context (R348). -/
  | eos (xports : BitVec 4) (xend : BitVec 1)
  /-- Requests the swap of a region's shadow configuration (R349). -/
  | cfgswap (a : Opd) (xdis : BitVec 1) (xtg : BitVec 6) (xte : BitVec 1)
  /-- Arrives at the gang's package barrier (R351). -/
  | gbar (xtg : BitVec 6) (xte : BitVec 1)
  /-- Requests a counter sum or maximum at the next GBAR completion (R352). -/
  | statred (xkind : BitVec 2) (xidx : BitVec 6) (xmax : BitVec 1) (xrt : BitVec 6)
  /-- Reads queue or region state (R353). -/
  | qstat (a d e : Opd) (t : Tag) (xsel : BitVec 3)
  /-- Starts an indirect gather or scatter (R371). -/
  | xstr (a : Opd) (xtg : BitVec 6) (xte : BitVec 1)
  /-- Migrates a page to a new physical page (R371). -/
  | migrate (a b : Opd) (xtg : BitVec 6) (xte : BitVec 1)
  /-- Invalidates one page of one queue in every TLB (R371). -/
  | tlbinvPage (a b : Opd) (xtg : BitVec 6) (xte : BitVec 1)
  /-- Invalidates every entry of one queue (R371). -/
  | tlbinvQueue (b : Opd) (xtg : BitVec 6) (xte : BitVec 1)
  /-- Invalidates every TLB entry (R371). -/
  | tlbinvAll (xtg : BitVec 6) (xte : BitVec 1)
  /-- Returns a line's compression metadata (R371). -/
  | compattrQuery (a b : Opd) (xtg : BitVec 6) (xte : BitVec 1)
  /-- Sets the CMP bit of a page's leaf (R371). -/
  | compattrSet (a b : Opd) (xtg : BitVec 6) (xte : BitVec 1)
  /-- Rewrites every line of a page in its chosen encoding (R371). -/
  | compattrRecomp (a b : Opd) (xtg : BitVec 6) (xte : BitVec 1)
  /-- Runs a collective schedule (R401). -/
  | coll (a : Opd) (xk xtg : BitVec 6) (xte : BitVec 1)
  /-- Arms a fabric route-bank switch at the next BARRIER completion (R401). -/
  | routesw (xtg : BitVec 6) (xte : BitVec 1)
  /-- Issues a QUIESCE port command (R401). -/
  | fportQuiesce (a b : Opd) (xtg : BitVec 6) (xte : BitVec 1)
  /-- Issues a TRAIN port command (R401). -/
  | fportTrain (a b : Opd) (xtg : BitVec 6) (xte : BitVec 1)
  /-- Issues a CYCLE port command (R401). -/
  | fportCycle (a b : Opd) (xtg : BitVec 6) (xte : BitVec 1)
  /-- Reads fabric port, route, schedule, counter or identity state (R401). -/
  | fstat (a d e : Opd) (t : Tag) (xsel : BitVec 3)
  /-- The core runs one round of its active context: guards at cycle 0, selection, bodies, then commit, followed by the round-boundary actions (R60). -/
  | round
  /-- A TRET resume message reaches the target logical core and waits there for its next round boundary (R227). -/
  | tretMessageArrival
  /-- A mesh token for a context is placed in that context's queue, or in a holding register when the context is evicted (R214). -/
  | tokenArrival
  /-- A token held for 4096 cycles spills into the inbound ring; when the ring is full it stays held and a resume request is sent (R214). -/
  | tokenSpill
  /-- A credit for a popped token arrives on CTL at the sending binding (R57). -/
  | creditReturn
  /-- A reply token is placed on the issuing context's rp queue (R157). -/
  | replyArrival
  /-- The target's memory port performs an RLD, RST, RVLD or RVST in arrival order and sends a reply when one is asked for (R156). -/
  | remoteAccessServe
  /-- The memory port performs one read-modify-write atomic and replies with the old value when asked (R160). -/
  | amoPerform
  /-- The owner's memory port flips a publish window's SEL in one cycle and completes the PUBLISH (R172). -/
  | publishFlip
  /-- A request that fails after leaving the core ends with a reply carrying e = 1, or with a trap when no reply was asked (R158). -/
  | failedRequest
  /-- A read-stream engine fetches the next element of its nest with its sideband (R163). -/
  | streamFetch
  /-- A write-stream engine writes its oldest queued element to memory (R163). -/
  | streamWrite
  /-- A DRAIN tag is set once its write elements are written, or once the read nest's last element has been fetched (R165). -/
  | streamDrainTag
  /-- A copy engine reads one 64-byte unit whole and writes it whole (R169). -/
  | copyUnit
  /-- A copy command ends and sets its tag; an uncorrectable read stops it and starts a rollback (R170). -/
  | copyComplete
  /-- Every 2^LEAK region cycles the core's bucket LEVEL falls by one (R208). -/
  | bucketLeak
  /-- The basin arbiter grants the array to a core's head command, visiting ports in order and using the weights (R179). -/
  | basinGrant
  /-- A basin command finishes its accumulation, check and epilogue and frees its queue entry (R181). -/
  | basinCommandComplete
  /-- The basin places one raw accumulator row as a token on the rp queue (R197). -/
  | accrdRowDelivery
  /-- An epilogue chain delivers one output row to rp or to local memory, and sets the tag after the last row (R201). -/
  | epilogueRowDelivery
  /-- The basin's read pin on a receive slot clears after its last read, and a pending release takes effect (R184). -/
  | slotPinClear
  /-- A router forwards one flit one hop by its class arbitration and route bank, against a free buffer place (R233). -/
  | flitHop
  /-- A destination router acknowledges ejected flits on CTL, which lowers the source's outstanding counts (R237). -/
  | deliveryAck
  /-- A source core switches one class to the new route bank at the first cycle in which its outstanding count is zero (R240). -/
  | routeClassSwitch
  /-- A source core takes up a new core-map binding once its outstanding count toward that logical core is zero (R241). -/
  | coreMapRebind
  /-- A router combines one generation of a reduction tree once all of its inputs are present, then sends the result up or delivers it (R244). -/
  | confluenceCombine
  /-- A pending barrier arrival leaves its core once the earlier effects of its context in the cluster have been performed (R249). -/
  | barrierArrivalLeave
  /-- The barrier unit counts an arrival and, at COUNT, sends the completion to every context that arrived (R248). -/
  | barrierArrival
  /-- A barrier completion or cancellation reaches a context, clears its pending arrival and sets its tag (R248). -/
  | barrierCompletionArrival
  /-- A BART deadline passes before COUNT is reached: the generation is cancelled and the timeout tags are set (R258). -/
  | bartTimeout
  /-- A partner's half reaches a pairing buffer entry; it is discarded when stale, and delivered when ARMED is also set (R251). -/
  | pairHalfArrival
  /-- WAIT reaches DEADLINE: the half is discarded, the bound context traps with PAIR_TIMEOUT, and the partner is told (R252). -/
  | pairDeadline
  /-- A PAIR_TIMEOUT from the partner advances SEQ, clears the entry and traps the bound context (R252). -/
  | pairTimeoutMessage
  /-- A PAIR_ABORT from the partner discards the held half, advances SEQ and traps the bound context (R252). -/
  | pairAbortMessage
  /-- A trap record reaches its handler-chain entry and is placed on the handler's rp, or is refused and counted in REC_NAK (R253). -/
  | trapRecordDelivery
  /-- 256 cycles after a refused record, its sender resends it (R253). -/
  | recordResend
  /-- The power manager places an idle cluster in retention and computes the parity of its retention elements (R255). -/
  | retentionEntry
  /-- A flit addressed to a core of a cluster in retention starts the exit (R255). -/
  | retentionExitStart
  /-- The exit ends after 2,000 ticks with a parity check; a failure sets LOST and rolls back or faults the gangs (R256). -/
  | retentionExitEnd
  /-- The VF controller stops the region's cores at round boundaries and stops the region's clock for a change (R281). -/
  | vfRequestApply
  /-- After 2,000 or 200 ticks the bands are recomputed, PT and FREQ take their new values and the clock resumes (R281). -/
  | vfClockResume
  /-- After 1,024 cycles of cistern refusals, the sender region's weir EFF is halved (R285). -/
  | weirHalve
  /-- At a window start, with the region's cisterns at most half full, EFF doubles toward LIM (R285). -/
  | weirDouble
  /-- Every 2^20 ticks the die recalibrates its time offset by at most one tick (R287). -/
  | timeRecalibration
  /-- The Reservoir serves a line from a pinned bank or a cache copy, filling on a miss and waiting out refresh (R290). -/
  | reservoirAccess
  /-- The Reservoir cache drops a line by pseudo-LRU, never one whose write home is outstanding (R290). -/
  | cacheReplacement
  /-- One pinned-store line of an RSVLD is requested and written into core memory through the intake (R296). -/
  | rsvldLine
  /-- After the last line of an RSVLD is written, its tag is set (R296). -/
  | rsvldComplete
  /-- Once INUSE is 0, the pending partition drops its lines, sets P, zeroes the pinned store and completes (R297). -/
  | rsvcfgPartApply
  /-- A DROP ends once every cache line without an outstanding write home has been dropped (R297). -/
  | rsvcfgDropComplete
  /-- Every line of a PFETCH has been filled or skipped, and its tag is set (R173). -/
  | pfetchComplete
  /-- The source hub launches a group's next block once a branch entry, the outstanding limit and the laser allow it (R309). -/
  | cascadeBlockLaunch
  /-- A branch hub drops a block from the waveguide, checks its CRC, and acknowledges it or asks for it again (R310). -/
  | branchReceive
  /-- The source re-launches a block that a branch asks for again, from its retransmit store (R310). -/
  | retransmitRequest
  /-- A branch forwards its oldest block to its members when HOLDN is 0 and FWD − MINREL is below 4 (R308). -/
  | branchForward
  /-- A member port writes a block into a slot, checks the CRC, and queues and acknowledges it, or reports no free slot (R305). -/
  | memberSlotFill
  /-- A branch re-emits a block to one member after a CRC failure or after a release vote (R310). -/
  | memberReemit
  /-- An acknowledgement frees a branch entry or the retransmit store, and completes a CGSEND once every branch holds its final block (R310). -/
  | blockAck
  /-- A member's vote reaches its branch hub and updates MINREL and HOLDN (R308). -/
  | voteArrival
  /-- 2,000 ticks after a wake, the group's laser is lit and the waiting CGWAKEs complete (R317). -/
  | laserLit
  /-- After IDLE × 1024 ticks without a launch, the laser goes dark (R317). -/
  | laserDark
  /-- A held write to a group entry's CFG or BR takes effect once no block is unacknowledged and no CGSEND is queued (R302). -/
  | groupEntryWriteApply
  /-- A write of PKG_QKICK sets WIDX, or is ignored and counted in KICK_BAD (R323). -/
  | queueKick
  /-- A write of PKG_QCTL with EN sets the indices, makes the queue ACTIVE and clears FCODE (R322). -/
  | queueEnable
  /-- A write of PKG_QCTL with OFF moves the queue to DISABLED once it has no dispatched work (R322). -/
  | queueOff
  /-- The engine fetches a whole 128-byte packet and checks VALID and SEQ before taking it (R323). -/
  | packetFetch
  /-- 1 µs after a header mismatch the packet is read again; after the eighth mismatch the queue parks (R323). -/
  | packetRefetch
  /-- The scheduler selects a queue by effective level and weight and dispatches its head packet (R327). -/
  | packetDispatch
  /-- A dispatchable head that has waited AGE × 1,024 ticks raises its queue's effective level by one (R327). -/
  | ageRise
  /-- A packet completes: its status bytes are written, CIDX advances, the PKG_QCPLA word is written and the MSI-X is sent (R324). -/
  | packetCompletion
  /-- A LAUNCH packet with MODE 0 asks for a new region to be placed (R325). -/
  | launch
  /-- A LAUNCH with MODE 1 loads a region's shadow plane and sets SWPEND when the load ends (R335). -/
  | launchSwapAtQuiescence
  /-- A LAUNCH with MODE 2 loads a region's shadow plane for a later CFGSWAP (R335). -/
  | launchSwapAtCfgswap
  /-- The load of a shadow plane ends; SHADOW is set, and SWPEND too under MODE 1 (R335). -/
  | shadowLoadEnd
  /-- A COPY packet copies bytes between space 01 or host addresses (R325). -/
  | copy
  /-- A WAIT packet holds its queue until a named packet completes or a memory word meets a value (R325). -/
  | wait
  /-- Every 1 µs a memory WAIT reads its word and tests it (R325). -/
  | waitPoll
  /-- A SIGNAL packet writes a value once every earlier packet is complete, and may send the queue's vector (R325). -/
  | signal
  /-- A GROUPLOAD packet writes group-table entries, each held as R302 holds it (R325). -/
  | groupload
  /-- A RESERVOIR_LOAD packet writes a die's pinned store once INUSE is 0 (R325). -/
  | reservoirLoad
  /-- A FABRIC_RECONF packet runs port commands concurrently and writes a route image to the standby bank (R394). -/
  | fabricReconf
  /-- A port command that takes an ACTIVE port through QUIESCE and DRAIN to DARK (R393). -/
  | portCmdQuiesce
  /-- A port command that sets the expectations and trains a DARK or FAILED port (R393). -/
  | portCmdTrain
  /-- A port command that quiesces the port, keeps it dark for DARKT, then trains it (R393). -/
  | portCmdCycle
  /-- A DESTROY packet closes its target queue once its dispatched work is complete (R328). -/
  | destroy
  /-- A DESTROY with FORCE gang-stops and frees the target's regions without a save and aborts its dispatched packets (R328). -/
  | destroyForce
  /-- A RECORD packet sets the log base and size and turns recording on or off (R344). -/
  | record
  /-- A PWR packet with OP 0 sets the power cap (R382). -/
  | pwrSetCap
  /-- A PWR packet with OP 1 sets a partition's floor (R382). -/
  | pwrSetFloor
  /-- The allocator places a waiting LAUNCH on the first placement that fits, writes the cores' state and swaps it in (R331). -/
  | placement
  /-- When no GBAR completes within PDL ticks, the victim is gang-stopped and saved whole (R338). -/
  | preemptDeadline
  /-- The Still-tree root sends a sweep request SWEEP ticks after the previous one (R333). -/
  | stillSweep
  /-- All answers of a sweep reach the root, and the region is judged quiet or not (R333). -/
  | sweepResult
  /-- A stop request stops every core of the gang at a round boundary and records its counts (R337). -/
  | gangStop
  /-- After PDL ticks of drain, in-flight flits and context, basin and cluster state are scanned out to the save areas (R337). -/
  | gangStopScanOut
  /-- A stopped region returns to its rectangle, and its data, contexts and tokens are restored (R337). -/
  | gangResume
  /-- Every gang context has arrived and a sweep finds the gang idle: checkpoint, cache drop, SSTEP, STATRED replies and tags (R351). -/
  | gbarCompletion
  /-- A host write of GO to PKG_RETIRE requests a retirement, or sets FAIL for a bad target (R339). -/
  | pkgRetireGo
  /-- An uncorrectable error consumed by a gang restores its undo blocks and checkpoints and resumes it, or escalates (R342). -/
  | rollback
  /-- The duplicate-placement comparator finds a mismatch and rolls the gang back (R343). -/
  | comparatorMismatch
  /-- An exit item left unmatched for 100 µs counts CMP_MISMATCH and rolls the gang back (R343). -/
  | comparatorTimeout
  /-- A TLB miss walks the page table, one read per level, and parks the request on V = 0 (R359). -/
  | translationWalk
  /-- The host's page response lets the parked requests walk again, or fails them with PAGE_FAULT (R374). -/
  | pageRequestResponse
  /-- When the oldest parked request has waited PFDL µs, the gang rolls back or is gang-stopped (R361). -/
  | pfDeadline
  /-- An invalidation completes once its entries are dropped, its walks restarted and its requests performed (R362). -/
  | tlbinvComplete
  /-- The old page's home enters a fork once a fork entry is free (R369). -/
  | migrationFork
  /-- The fork copies one 128-byte line from old home to new; later writes are forked (R369). -/
  | migrationCopyLine
  /-- After the copy, the leaf is rewritten to the new page and the TLB entries are invalidated (R369). -/
  | migrationSwitch
  /-- After the invalidation, Reservoir copies of the old page are dropped, the fork is freed and the tag set (R369). -/
  | migrationRelease
  /-- The stack controller performs a write to a line, re-encoding it whole or decompressing and merging it (R365). -/
  | hbmWrite
  /-- The stack controller reads a line, decodes it by its metadata and withholds the data when poisoned (R355). -/
  | hbmRead
  /-- An indirect-stream engine gathers or scatters one element (R368). -/
  | xstrElement
  /-- An indirect stream ends, normally or early, and sets its tag (R368). -/
  | xstrComplete
  /-- The package writes a 64-byte event into the host ring when there is room, advances TAIL and sends the vector (R375). -/
  | eventWrite
  /-- A host write of PKG_EVREPLY sends the matching TRET and frees the tag, or counts EV_STALE (R376). -/
  | pkgEvreplyWrite
  /-- CNT reaches HBDL × 64: HST becomes DEAD and a KIND 4 event is sent (R380). -/
  | watchdogDead
  /-- Ticks since the last beat reach a further wall bound: HST becomes SLOW and a KIND 5 event is sent (R380). -/
  | watchdogSlow
  /-- Every 10 µs the manager computes the effective cap, shares it out and sets frequency ceilings (R382). -/
  | powerManagerUpdate
  /-- After reset the part trains links, verifies firmware, calibrates, initialises and sets READY (R379). -/
  | startup
  /-- A host link goes down and its traffic passes to the other port (R373). -/
  | hostLinkDown
  /-- A host link comes up and carries its queues' traffic again (R373). -/
  | hostLinkUp
  /-- A write of GO with RCV 0 produces a signed attestation report in the host buffer (R384). -/
  | attestReport
  /-- A write of GO with RCV 1 submits recovery firmware, which is verified as boot firmware is (R384). -/
  | recoveryFirmware
  /-- A write to DIE_VFR updates a region and makes a VF request when V is 1 (R281). -/
  | dieVfrWrite
  /-- A write of 1 to CLU_RTCTL.SW toggles ACT and requests the switch of every core to the other bank (R238). -/
  | cluRouteSwitchRequest
  /-- A write of 1 to FAB_RTCTL.SW begins an immediate switch of the fabric flows (R396). -/
  | fabRouteSwitchRequest
  /-- A write to a register with no row of its own applies its field Access rules (R12). -/
  | registerWrite
  /-- A port sends one data, idle or identity flit and keeps data flits for replay (R388). -/
  | fabricFlitTransmit
  /-- A port takes a flit: it accepts it or discards it with a NAK, and acts on the ACK, NAK and credits it carries (R388). -/
  | fabricFlitReceive
  /-- 2 µs without a new ACK resends from the oldest unacknowledged flit (R388). -/
  | replayTimeout
  /-- All 8 lanes lock and the port moves from TRAIN to VERIFY (R392). -/
  | laneLock
  /-- 400 µs without lock sends the port to FAILED with CAUSE 1 (R392). -/
  | trainTimeout
  /-- The peer's identity flit arrives and the port moves to ACTIVE, or to FAILED on a mismatch (R392). -/
  | identityArrival
  /-- 20 µs without an identity sends the port to FAILED with CAUSE 2 (R392). -/
  | verifyTimeout
  /-- A lane of an ACTIVE port loses lock and the port enters FAILED with CAUSE 4 (R392). -/
  | lossOfLock
  /-- 100 µs in DRAIN makes the port DARK with CAUSE 5 and discards its flits and packets (R399). -/
  | drainDeadline
  /-- The DARKT interval of a CYCLE ends and the port begins training (R393). -/
  | darkTimeExpiry
  /-- The fabric unit forwards a transit packet by its bank's route entry, or discards it when unreachable (R395). -/
  | transitForward
  /-- An FDATA packet for this package is decompressed, written or reduced, and acknowledged (R398). -/
  | fdataDelivery
  /-- A clear-to-send, delivery acknowledgement or barrier arrival packet arrives (R389). -/
  | fctlArrival
  /-- A flow moves to the new route bank at the first moment its outstanding count is zero (R396). -/
  | flowSwitch
  /-- A collective step starts once its order, W flag and the limit of 8 running steps allow it (R398). -/
  | collStepStart
  /-- A collective step completes; the COLL completes after its last step (R398). -/
  | collStepComplete
  /-- Traffic held by a fence leaves once its condition holds; an acquire at PACKAGE scope drops the die's cache lines (R174). -/
  | fenceReleaseTraffic
  /-- A CGWAKE, or a CGSEND for a dark group, reaches the group's source hub and starts the laser wake (dark to waking) or restarts the idle count (R317). -/
  | cgwakeArrival
  /-- A CXL expander performs a read or write at home in the second tier and answers, possibly with data poison that is handled as HBM poison (R356). -/
  | secondTierAccess
deriving DecidableEq, Repr

end Sys2Proof
end

