-- ==== Sys2Proof/Machine/State.lean ====
section
/-! DEFINITION. The state of one package, level by level, as plain data: contexts, cores, clusters, dies, the package, its
memories and its fabric ports; the body in flight; and the state right after reset. Sparse tables list what has changed
since reset, keyed by number: cores by 256·X + Y of their physical place, clusters by 12·die + 3·cy + cx, dies by 8·y + x. -/
namespace Sys2Proof.Machine

/-- No step of the part ends in a fault: aborts, traps, machine checks and failed requests are states that go on
(02_rule, R75; 07_core_failures, R204). The type has no constructor, so nothing raises it; this is safe. -/
inductive Fault where
deriving DecidableEq, Repr

/-- The reasons to refuse a step. -/
inductive Refusal where
  /-- Raised by an arm of the dispatch whose instruction has no meaning yet, by its mnemonic; safe: nothing runs. -/
  | notModelled (mnemonic : String)
deriving DecidableEq, Repr

/-- A table by number, keys rising; a number that is not listed stands as at reset. -/
abbrev SMap (α : Type) := List (Nat × α)

/-- A memory: address and byte, addresses strictly rising, no entry equal to the 0 that an unlisted address reads as
(14_package_host, R379 step 4). -/
abbrev Memory := List Host.Cell

/-- The keys and values that a step of the part acts on: which core, message, queue, and so on, in the order that the
definition of its meaning states. -/
structure EvArgs where
  x : Nat
  y : Nat
  z : Nat
  v : W64
  ok : Bool
  flit : BitVec 2048
deriving DecidableEq, Repr

/-- A step that has been started and may happen from a tick on. -/
structure Pending where
  due : Nat
  op : Instr
  args : EvArgs
deriving DecidableEq, Repr

/-- An output binding's place: physical core, context, port 0 mn, 1 me, 2 ms, 3 mw (02_rule, R57, R58). -/
structure BindKey where
  core : Nat
  cx : Nat
  port : Nat
deriving DecidableEq, Repr

/-- A token: sideband (01_encoding, R31), payload, and the binding whose credit it holds. -/
structure Token where
  sb : BitVec 40
  pay : V512
  src : Option BindKey
deriving DecidableEq, Repr

/-- An output binding `p=(dx,dy,c2):d` resolved at load: target logical core and context, depth and credits (02_rule, R57). -/
structure Binding where
  x : Nat
  y : Nat
  cx : Nat
  depth : Nat
  credits : Nat
deriving DecidableEq, Repr

/-- What a remote request asks its target's memory port for (05_core_memory, R156, R160, R172). -/
inductive ReqKind where
  /-- read of 1, 2, 4, 8 or 64 bytes -/
  | read (size : Nat)
  /-- write of the low bytes of the value -/
  | write (size : Nat) (data : V512)
  /-- atomic: sub-operation, width in bytes, operand, compare value -/
  | amo (op : Nat) (size : Nat) (x c : W64)
  /-- flip of a publish window, with its completion tag -/
  | publish (win : Nat) (tag : Option Nat)
deriving DecidableEq, Repr

/-- Where an instruction stands that has sent a request or a command: rule, body word and opcode, for the record of its failure
(07_core_failures, R220). -/
structure Origin where
  rule : Nat
  word : Nat
  opc : BitVec 8
deriving DecidableEq, Repr

/-- The origin of what no instruction has sent. -/
def Origin.none : Origin := { rule := 0, word := 0, opc := 0 }

/-- A remote request as captured at issue: its number, its issuer, the resolved address (05_core_memory, R154, R156). -/
structure Request where
  id : Nat
  core : Nat
  cx : Nat
  kind : ReqKind
  addr : W64
  rt : BitVec 6
  rpy : Bool
  fm : Bool
  priv : Bool
  queue : Nat
  fails : Nat
  org : Origin
deriving DecidableEq, Repr

/-- The engine and level commands that leave through the command port, with the values captured at issue. -/
inductive CmdOp where
  | cpy (src dst : W64) (len : Nat)
  | cpy2 (src dst : W64) (row rows : Nat) (sstr dstr : W32)
  | pfetch (addr : W64) (len : Nat)
  | red (tree op : Nat) (vec all : Bool) (rt : BitVec 6) (val : V512) (fm : Bool)
  | pairx (ch : Nat) (rt : BitVec 6) (val : V512) (sb : BitVec 40) (seq : Nat)
  | rsvld (src : Nat) (loc : Nat) (len : Nat)
  | rsvPart (p : Nat)
  | rsvDrop
  | cgsend (g : Nat) (src : W64) (len blen soff : Nat) (pinned huf last : Bool) (fmt : BitVec 3) (fm : Bool)
  | cgwake (g : Nat)
  | cfgswap (r : Nat) (discard : Bool)
  | statred (kind idx : Nat) (max : Bool) (rt : BitVec 6)
  | xstr (desc : V512)
  | migrate (va pa : W64)
  | tlbinv (op : Nat) (va : W64) (q : Nat)
  | compattr (op : Nat) (va : W64) (bit : Bool) (rt : BitVec 6) (fm : Bool)
  | coll (k : Nat) (base : W64)
  | routesw
  | fport (op : Nat) (port : Nat) (v : W64)
deriving DecidableEq, Repr

/-- A command: its number, its issuer and its completion tag (01_encoding, R28; 05_core_memory, R155, R166). -/
structure Command where
  id : Nat
  core : Nat
  cx : Nat
  tag : Option Nat
  op : CmdOp
  org : Origin
deriving DecidableEq, Repr

/-- An item of a context's outbound order, in commit order (02_rule, R69; 05_core_memory, R174; 08_cluster, R249). -/
inductive OutItem where
  | token (port : Nat) (tok : Token)
  | req (r : Request)
  | cmd (c : Command)
  | fence (kind : BitVec 2) (scope : Nat)
  | arrive (k : Nat) (timeout : Nat)
  | gbar (tag : Option Nat)
deriving DecidableEq, Repr

/-- Where an access of a context goes, as the scope of a fence judges it (05_core_memory, R174; 09_memory_model, R268). -/
inductive Target where
  | core (k : Nat)
  | hbm
  | tier2
  | host
  | pinned (die : Nat)
  | registers
  | unknown
  | die (die : Nat)
  | package
  | system
deriving DecidableEq, Repr

/-- An access that has left its context and is not yet performed, or whose reply has not returned: by request or command
number; a write to HBM is performed in the die's copy first and at home later (09_memory_model, R265, R266, R268). -/
structure Access where
  id : Nat
  write : Bool
  read : Bool
  atCopy : Bool
  targets : List Target
deriving DecidableEq, Repr

/-- A stream register and its engine (03_core_numbers, R91; 05_core_memory, R162, R163, R165). -/
structure Stream where
  bound : Bool
  dir : Bool
  done : Bool
  fmt : BitVec 3
  esz : BitVec 2
  block : Nat
  base : Nat
  cnt : Vector Nat 4
  str : Vector W32 4
  idx : Vector Nat 4
  fm : Bool
  paused : Bool
  unbinding : Bool
  fetched : List Token
  queued : List V512
  drains : List (Nat × Nat)
  faults : Nat
deriving DecidableEq, Repr

/-- An unbound stream (03_core_numbers, R91). -/
def Stream.reset : Stream :=
  { bound := false, dir := false, done := false, fmt := 0, esz := 0, block := 0, base := 0, cnt := Vector.replicate 4 1,
    str := Vector.replicate 4 0, idx := Vector.replicate 4 0, fm := false, paused := false, unbinding := false,
    fetched := [], queued := [], drains := [], faults := 0 }

/-- The four words of a trap record (07_core_failures, R220). -/
structure Record where
  w0 : W64
  w1 : W64
  w2 : W64
  w3 : W64
deriving DecidableEq, Repr

/-- A request for a statistic at the next GBAR completion (12_package_launch, R352). -/
structure StatReq where
  kind : Nat
  idx : Nat
  max : Bool
  rt : BitVec 6
deriving DecidableEq, Repr

/-- A context slot of a core (02_rule, R53; 03_core_numbers, R86; 07_core_failures, R210, R214): its trap with FM as its record carries
it (03_core_numbers, R101), the write streams that a later binding has replaced with elements still to be written (05_core_memory,
R165), and the checks of its streams' engines that wait for its next round (07_core_failures, R206). -/
structure Ctx where
  resident : Bool
  saving : Bool
  ready : Bool
  lx : Nat
  ly : Nat
  lc : Nat
  region : Nat
  s : Vector W64 16
  v : Vector V512 16
  lm : W16
  tb : W64
  tm : Vector W64 8
  fm : Bool
  rnd : BitVec 2
  flags : BitVec 5
  priv : Bool
  yielded : Bool
  ended : Bool
  q : Vector Stream 4
  bb : W64
  bw : W32
  amap : W16
  en : W64
  rm : W64
  fp : BitVec 6
  lastf : BitVec 6
  fired : Bool
  rabort : Vector (BitVec 24) 64
  mcls : Vector W32 8
  rounds : W64
  cnt : Vector W32 13
  trap : Option Record
  trapFm : Bool
  oldq : List (Nat × Stream)
  checks : List (Nat × BitVec 3 × BitVec 3)
  inq : Vector (List Token) 5
  blocks : Vector (List Nat) 2
  ring : List (Nat × Token)
  binds : Vector (Option Binding) 4
  cpUsed : Nat
  replies : Nat
  outbound : List OutItem
  pend : List Access
  barPend : BitVec 16
  barTag : Vector (Option Nat) 16
  barTout : Vector (Option Nat) 16
  gbar : Option (Option Nat)
  stats : List StatReq
  chains : Vector (BitVec 256) 15
  abftEn : Bool
  abftCorr : Bool
  bcnt : Vector W32 6
  bdone : W32
  undo : W64
  undoIdx : List Nat
deriving DecidableEq, Repr

/-- An empty context slot. Registers hold their launch values (02_rule, R53; 03_core_numbers, R86). -/
def Ctx.reset : Ctx :=
  { resident := false, saving := false, ready := false, lx := 0, ly := 0, lc := 0, region := 0,
    s := Vector.replicate 16 0, v := Vector.replicate 16 0, lm := 0xFFFF#16, tb := 0, tm := Vector.replicate 8 0,
    fm := false, rnd := 0, flags := 0, priv := false, yielded := false, ended := false,
    q := Vector.replicate 4 Stream.reset, bb := 0, bw := 0, amap := 0, en := 0, rm := 0, fp := 0, lastf := 0,
    fired := false, rabort := Vector.replicate 64 0, mcls := Vector.replicate 8 0, rounds := 0,
    cnt := Vector.replicate 13 0, trap := none, trapFm := false, oldq := [], checks := [], inq := Vector.replicate 5 [], blocks := Vector.replicate 2 [],
    ring := [], binds := Vector.replicate 4 none, cpUsed := 0, replies := 0, outbound := [], pend := [], barPend := 0,
    barTag := Vector.replicate 16 none, barTout := Vector.replicate 16 none, gbar := none, stats := [],
    chains := Vector.replicate 15 0, abftEn := true, abftCorr := true, bcnt := Vector.replicate 6 0, bdone := 0,
    undo := 0, undoIdx := [] }

/-- Types of an accumulator slot (06_basin: 06_core_basin, R176, R203). -/
inductive SlotType where
  | fp32
  | int32
  | fp64
  | none
deriving DecidableEq, Repr

/-- An accumulator slot: 16 rows of 64 bytes, a type and a poison bit with its code (06_core_basin, R176, R191). -/
structure AccSlot where
  rows : Vector V512 16
  ty : SlotType
  poison : Bool
  code : BitVec 8
deriving DecidableEq, Repr

/-- A slot at launch (06_core_basin, R176). -/
def AccSlot.reset : AccSlot := { rows := Vector.replicate 16 0, ty := .none, poison := false, code := 0 }

/-- A tile operand of a matrix command: local memory from an offset, or bytes taken at commit from a stream or a block
(06_core_basin, R183, R184). -/
inductive Tile where
  | mem (off scale : Nat)
  | bytes (rows : List V512)
  | slot (port : Nat) (slot : Nat) (soff : Nat)
deriving DecidableEq, Repr

/-- What a basin command does (06_core_basin, R193 to R202). -/
inductive BasinOp where
  | mma (op acc af bf k m n : Nat) (z bt : Bool) (ep : Nat) (a b : Tile)
  | accrd (acc rt first rows ep : Nat) (clr : Bool)
  | accwr (acc : Nat) (ty : SlotType) (first rows : Nat) (src : Nat)
  | accz (acc : Nat) (ty : SlotType)
  | epicfg (ch : Nat) (desc : BitVec 256)
  | abftcfg (en corr : Bool)
deriving DecidableEq, Repr

/-- A queued basin command: its context, opcode, the format mode at its round's cycle 0, its word; whether the round that committed it is
over, and what bytes of its core's memory have held since, each with whether its word was uncorrectable: its tile reads may still find
them (06_core_basin, R185, R187, R189). -/
structure BasinCmd where
  cx : Nat
  opc : BitVec 8
  fm : Bool
  op : BasinOp
  open_ : Bool
  old : List (Nat × Byte × Bool)
deriving DecidableEq, Repr

/-- Rows that a finished accumulation or read has still to deliver: chain number or 0 for raw rows, next row, rows left
(06_core_basin, R197, R201). -/
structure Delivery where
  cx : Nat
  acc : Nat
  ep : Nat
  rt : BitVec 6
  first : Nat
  next : Nat
  rows : Nat
  cols : Nat
  clr : Bool
  fm : Bool
deriving DecidableEq, Repr

/-- A receive slot of an optical port (11_package_cascade, R305). -/
inductive RxState where
  | free
  | full
  | popped
deriving DecidableEq, Repr

/-- A block of the Cascade: the header fields (11_package_cascade, R300), the payload in 64-byte lines, the header's CRC. -/
structure Block where
  gid : Nat
  fmt : BitVec 3
  fm : Bool
  last : Bool
  seq : W16
  len : Nat
  soff : Nat
  scl : BitVec 20
  data : List V512
  crc : W32
deriving DecidableEq, Repr

/-- A receive slot: its state, its block, the filter that took it, the basin pin and a release that waits for it
(11_package_cascade, R305; 06_core_basin, R184). -/
structure RxSlot where
  st : RxState
  blk : Option Block
  filter : Nat
  cx : Nat
  pin : Bool
  rel : Bool
  order : Nat
deriving DecidableEq, Repr

/-- A free slot. -/
def RxSlot.reset : RxSlot := { st := .free, blk := none, filter := 0, cx := 0, pin := false, rel := false, order := 0 }

/-- What a flit or an arrived message carries. -/
inductive Payload where
  /-- a port token for a context: context, input port 0 mn, 1 me, 2 ms, 3 mw (02_rule, R58) -/
  | token (cx port : Nat) (tok : Token)
  /-- a request for the target's memory port -/
  | request (r : Request)
  /-- a reply token for rp: context, request or command number it ends, token (05_core_memory, R157) -/
  | reply (cx id : Nat) (tok : Token)
  /-- the end of a failed request: context, number, reply expected, code, RT, the instruction (05_core_memory, R158) -/
  | failed (cx id : Nat) (rpy : Bool) (code : BitVec 8) (rt : BitVec 6) (fm wd : Bool) (org : Origin)
  /-- a credit for the binding that sent a popped token (02_rule, R57) -/
  | credit (cx port : Nat)
  /-- a resume message: context, SEQ, action (07_core_failures, R227) -/
  | tret (cx seq action : Nat)
  /-- a barrier arrival: barrier, member core and context, timeout or 0 (08_cluster, R248, R258) -/
  | barArrive (k core cx timeout : Nat)
  /-- a barrier completion or cancellation: context, barrier, cancelled (08_cluster, R248, R258) -/
  | barDone (cx k : Nat) (cancel : Bool)
  /-- a half of a pair: channel, SEQ, payload, sideband (08_cluster, R251) -/
  | pairHalf (ch seq : Nat) (val : V512) (sb : BitVec 40)
  /-- PAIR_TIMEOUT or PAIR_ABORT from the partner: channel, SEQ (08_cluster, R252) -/
  | pairTimeout (ch seq : Nat)
  | pairAbort (ch seq : Nat)
  /-- a trap record for a handler-chain entry, with its sender's chain position (08_cluster, R253) -/
  | record (entry : Nat) (rec : Record) (from_ : Nat) (fm : Bool)
  /-- a partial of a reduction tree (08_cluster, R244) -/
  | partials (tree : Nat) (p : V512) (op : Nat) (vec all : Bool) (fm : Bool) (bad : BitVec 8)
  /-- a member's vote (11_package_cascade, R308) -/
  | vote (g core k : Nat) (rel : W16) (hold : Bool)
  /-- an acknowledgement of a block: by a member to its branch, by a branch to the source (11_package_cascade, R310) -/
  | memberAck (g core k : Nat) (seq : W16)
  | branchAck (g die : Nat) (seq : W16)
  /-- a CGWAKE, or a CGSEND for a dark group, on its way to the source hub (11_package_cascade, R317) -/
  | wake (g : Nat) (cmd : Option Command)
  /-- acknowledgements of flits ejected, by class, on their way back to their source (08_cluster, R237) -/
  | acks (classes : List Nat)
  /-- a SLUICE on its way to the Sluice tree: region slot, reason (08_cluster, R258) -/
  | sluice (region : Nat) (reason : BitVec 8)
  /-- a core's answer to a sweep of its region's Still tree: region slot, idle, SENT, RCVD (12_package_launch, R333) -/
  | still (region : Nat) (idle : Bool) (sent rcvd : W64)
  /-- a sweep request on its way to a core of a region (12_package_launch, R333) -/
  | ask (region : Nat)
deriving DecidableEq, Repr

/-- A message that has reached its destination core's ejection port, or a hub, and waits for its step: the core that first sent it, the
core where it is, whether it came on from where its logical core had been (08_cluster, R241). -/
structure Msg where
  id : Nat
  src : Nat
  dst : Nat
  body : Payload
  moved : Bool
deriving DecidableEq, Repr

/-- A flit in the network: class 0 REQ, 1 RSP, 2 RED, 3 CTL; the router and input port where it waits (0 local, 1 W, 2 N,
3 E, 4 S), or the cistern before that router; the route-table bank (08_cluster, R233, R234, R237; 10_die, R282); the core that first
sent it, which a core that forwards it keeps (R241); the tick from which it may go on. -/
structure Flit where
  cls : Nat
  src : Nat
  dst : Nat
  bank : Nat
  at_ : Nat
  port : Nat
  cistern : Bool
  reserved : Bool
  body : Payload
  orig : Nat
  ready : Nat
deriving DecidableEq, Repr

/-- A split record of a merged atomic: number of the merged request, the two originals, the input ports of its router whose next flits
wait until the merged request has left (08_cluster, R242). -/
structure Split where
  id : Nat
  first : Request
  second : Request
  ports : List Nat
deriving DecidableEq, Repr

/-- One input of a Confluence router for a generation (08_cluster, R244). -/
structure RedIn where
  tree : Nat
  input : Nat
  val : V512
  op : Nat
  vec : Bool
  all : Bool
  fm : Bool
  bad : BitVec 8
deriving DecidableEq, Repr

/-- A context's contribution whose result has not returned: tree, context, RT, command number (08_cluster, R247). -/
structure RedWait where
  tree : Nat
  cx : Nat
  rt : BitVec 6
  id : Nat
deriving DecidableEq, Repr

/-- A TLB entry: queue, first virtual address and size of its page, leaf entry (13_package_memory, R359). -/
structure TlbEntry where
  queue : Nat
  va : Nat
  size : Nat
  leaf : W64
deriving DecidableEq, Repr

/-- A token held for an evicted context: the context, the token, the cycle since when it is held, and the cycle from which its holding
is not counted in HELD yet (07_core_failures, R214). -/
structure Held where
  addr : Nat
  tok : Token
  since : Nat
  from_ : Nat
deriving DecidableEq, Repr

/-- A core: its memories, its four context slots, its registers and its share of the basin and the mesh. Of its own: how many commands at
the head of its basin queue are granted, and whether the last of them still needs the array (06_core_basin, R178); a pass that its next
round takes first, and whether the round before it was idle (02_rule, R78); the upsets that will strike its stream engines, by 4 times
the slot plus the stream, one address computation each, and its selector (07_core_failures, R206); the cycle of its bucket's last leak
that no addition has met (R208); for each output of its router the cycle and the class of its last grant (08_cluster, R234); bindings
that it keeps until a drain (R241), its core-map cache (12_package_launch, R329), and the flits ejected there and not acknowledged yet,
by source and class (08_cluster, R237); the upsets that will strike its router's adders, one evaluation each (R246); the region whose
sweep its next round boundary answers (12_package_launch, R333). -/
structure Core where
  x : Nat
  y : Nat
  ctx : Vector Ctx 4
  mem : Memory
  active : Memory
  shadow : Memory
  eccUe : List Nat
  eccCorr : List Nat
  act : BitVec 2
  qr : Nat
  bwgt : BitVec 4
  weirLim : Nat
  bmem : W64
  cgf : Vector W64 4
  cgp : Vector W32 2
  rx : Vector RxSlot 8
  fills : Vector Nat 8
  pubw : Vector W64 8
  bucket : W32
  inj : BitVec 42
  save : Vector W64 4
  ckpt : W64
  cnt : Vector W32 11
  ring : List Record
  seq : BitVec 12
  acc : Vector AccSlot 8
  bq : List BasinCmd
  granted : Nat
  stepping : Bool
  deliv : Option Delivery
  trets : List (Nat × Nat × Nat)
  traps : List (Nat × Record)
  hold : SMap Held
  pass : Option Bool
  upsets : List Nat
  selUpset : Bool
  leakAt : Option Nat
  outst : List (Nat × Nat × Nat)
  bank : BitVec 4
  routes : Memory
  outs : SMap (Nat × Nat)
  trn : Vector W16 32
  redIn : List RedIn
  redUpsets : Nat
  ask : Option Nat
  redWait : List RedWait
  splits : List Split
  cmap : List (Nat × W64)
  mapc : List (Nat × W64)
  owed : List (Nat × Nat)
  tlb : List TlbEntry
  portq : List Request
  sent : W64
  rcvd : W64
  stopped : Bool
  halted : Bool
  win : Nat
  winCount : Nat
  refused : Vector (Nat × Nat) 5
  owner : Option Nat
deriving DecidableEq, Repr

/-- A core at reset at its physical place. Data SRAM reads zero; the control registers hold their reset values. -/
def Core.reset (k : Nat) : Core :=
  { x := k / 256, y := k % 256, ctx := Vector.replicate 4 Ctx.reset, mem := [], active := [], shadow := [], eccUe := [],
    eccCorr := [], act := 0, qr := 0, bwgt := 1, weirLim := 256, bmem := 0, cgf := Vector.replicate 4 0,
    cgp := Vector.replicate 2 0, rx := Vector.replicate 8 RxSlot.reset, fills := Vector.replicate 8 0, pubw := Vector.replicate 8 0,
    bucket := 0x00101800#32, inj := 0, save := Vector.replicate 4 0, ckpt := 0, cnt := Vector.replicate 11 0, ring := [],
    seq := 0, acc := Vector.replicate 8 AccSlot.reset, bq := [], granted := 0, stepping := false, deliv := none, trets := [],
    traps := [], hold := [], pass := none, upsets := [], selUpset := false, leakAt := none, outst := [], bank := 0, routes := [], outs := [], trn := Vector.replicate 32 0, redIn := [],
    redUpsets := 0, ask := none, redWait := [], splits := [], cmap := [], mapc := [], owed := [], tlb := [], portq := [], sent := 0, rcvd := 0,
    stopped := false, halted := false, win := 0, winCount := 0, refused := Vector.replicate 5 (0, 0),
    owner := none }

/-- A barrier of a cluster: its register fields, the contexts that have arrived and the least deadline of their BARTs, or, while its
gang is stopped, the cycles that are left to it (08_cluster, R248, R258, R260). -/
structure Barrier where
  v : Bool
  count : Nat
  arr : Nat
  gen : BitVec 8
  members : List (Nat × Nat)
  deadline : Option Nat
  frozen : Option Nat
deriving DecidableEq, Repr

/-- A barrier not in use. -/
def Barrier.reset : Barrier := { v := false, count := 0, arr := 0, gen := 0, members := [], deadline := none, frozen := none }

/-- A pair channel of a cluster and its buffer entry: since when its half is held, or, while its gang is stopped, the WAIT at which it
stands still (08_cluster, R250 to R252). -/
structure PairCh where
  v : Bool
  lx : Nat
  ly : Nat
  cx : Nat
  armed : Bool
  held : Option (V512 × BitVec 40)
  seq : BitVec 12
  since : Nat
  frozen : Option Nat
  rt : BitVec 6
  id : Nat
deriving DecidableEq, Repr

/-- An unbound channel. -/
def PairCh.reset : PairCh :=
  { v := false, lx := 0, ly := 0, cx := 0, armed := false, held := none, seq := 0, since := 0, frozen := none, rt := 0, id := 0 }

/-- A record that its handler has refused: its message's number, the core that sent it, its entry of the chain, its sender's position and
FM, and the cycle at which it is sent again (08_cluster, R253). -/
structure Resend where
  id : Nat
  core : Nat
  rec_ : Record
  entry : Nat
  from_ : Nat
  fm : Bool
  at_ : Nat
deriving DecidableEq, Repr

/-- A copy command in an engine: the next 64-byte unit to move, and the unit's bytes once read (05_core_memory, R169,
R170). -/
structure CopyJob where
  cmd : Command
  row : Nat
  pos : Nat
  unit : Option (List Byte)
deriving DecidableEq, Repr

/-- A cluster: shared registers, barriers, pairing, handler chain, TLB, fault buffer, copy engines, and for each basin the port
that its arbiter visits with the grants and the weight of this visit (06_core_basin, R179); while it is in retention the parity bits over its
retention elements, the upsets that will strike these, by 64-bit word, and the CTL flits in its wake buffer (08_cluster, R255). -/
structure Cluster where
  halt : Bool
  lost : Bool
  rstate : BitVec 2
  hch : W64
  rtSw : Bool
  rtDone : BitVec 4
  rtAct : Bool
  pairV : Bool
  pairDie : Nat
  pairCl : Nat
  deadline : Nat
  bar : Vector Barrier 16
  pch : Vector PairCh 16
  cnt : Vector W32 6
  recUsed : Vector Nat 4
  resend : List Resend
  parity : List Bool
  flips : List Nat
  wake : List Flit
  tlb : List TlbEntry
  parked : List Nat
  cq : Vector (List CopyJob) 2
  arb : Vector (Nat × Nat × Nat) 12
deriving DecidableEq, Repr

/-- A cluster at reset (08_cluster, R232, R238, R248, R250, R259). -/
def Cluster.reset : Cluster :=
  { halt := false, lost := false, rstate := 0, hch := 0, rtSw := false, rtDone := 0, rtAct := false, pairV := false,
    pairDie := 0, pairCl := 0, deadline := 125000, bar := Vector.replicate 16 Barrier.reset,
    pch := Vector.replicate 16 PairCh.reset, cnt := Vector.replicate 6 0, recUsed := Vector.replicate 4 0, resend := [],
    parity := [], flips := [], wake := [], tlb := [], parked := [], cq := Vector.replicate 2 [], arb := Vector.replicate 12 (0, 0, 1) }

/-- A VF region of a die: requested and in-force point and frequency, the rectangle, a change under way (10_die, R280,
R281); the cycles of its clock up to a tick, and whether the clock is stopped (00_scope, R10). -/
structure VfRegion where
  rpt : Nat
  rfreq : Nat
  pend : Bool
  v : Bool
  x0 : Nat
  x1 : Nat
  y0 : Nat
  y1 : Nat
  pt : Nat
  freq : Nat
  busy : Bool
  newPt : Nat
  newFreq : Nat
  ceil : Nat
  weirLim : Nat
  weirEff : Nat
  cyc : Nat
  cycAt : Nat
  off : Bool
  req : Nat × Nat
deriving DecidableEq, Repr

/-- A VF region at reset: point 11, 1.25 GHz, weir 256 (10_die, R280, R284). -/
def VfRegion.reset (k : Nat) : VfRegion :=
  { rpt := 11, rfreq := 125, pend := false, v := k == 0, x0 := 0, x1 := 0, y0 := 0, y1 := 0, pt := 11, freq := 125,
    busy := false, newPt := 11, newFreq := 125, ceil := 160, weirLim := 256, weirEff := 256, cyc := 0, cycAt := 0,
    off := false, req := (0, 0) }

/-- A line of a die's Reservoir copy of HBM: line number, bytes, the marks of the writes still on their way home, whether its bytes came
from a poisoned line, whether it holds an uncorrectable or a correctable error (09_memory_model, R262, R266; 10_die, R289, R290;
13_package_memory, R355). -/
structure CacheLine where
  line : Nat
  data : V512
  out : List Nat
  poison : Bool
  ue : Bool
  corr : Bool
deriving DecidableEq, Repr

/-- A block in a branch buffer: the tick at which its last byte reaches the cores of the die, members that have not acknowledged it,
members that need it again, members to which it is being emitted again, failures of each member (11_package_cascade, R304, R308 to
R311). -/
structure BranchEntry where
  blk : Block
  forwarded : Bool
  due : Nat
  wait : List (Nat × Nat)
  again : List (Nat × Nat)
  sent : List (Nat × Nat)
  fails : List (Nat × Nat × Nat)
deriving DecidableEq, Repr

/-- A group on one die: its splitter entry, what it has forwarded, its buffer, its members' votes, the failures of each block that it
has not taken (11_package_cascade, R303, R308, R311). -/
structure Branch where
  v : Bool
  seg : BitVec 12
  nmem : Nat
  fwd : W16
  buf : List BranchEntry
  votes : List (Nat × Nat × W16 × Bool)
  air : List Block
  fails : List (W16 × Nat)
deriving DecidableEq, Repr

/-- A die that is no branch. -/
def Branch.reset : Branch :=
  { v := false, seg := 0, nmem := 0, fwd := 0, buf := [], votes := [], air := [], fails := [] }

/-- An RSVLD in progress: its command and the bytes already written (10_die, R296). -/
structure RsvJob where
  cmd : Command
  pos : Nat
deriving DecidableEq, Repr

/-- A die: VF regions, time, bands, the Reservoir, its Cascade branches and counters. -/
structure Die where
  vf : Vector VfRegion 4
  band : SMap W32
  off : BitVec 48
  unc : BitVec 8
  rsvref : W64
  preq : Nat
  rpend : Bool
  users : List Nat
  p : Nat
  pinned : Memory
  pinUe : List Nat
  pinCorr : List Nat
  cache : List CacheLine
  cnt : Vector W32 7
  casc : Vector W32 9
  branch : SMap Branch
  rsvq : List RsvJob
  parts : List Command
  drops : List Command
deriving DecidableEq, Repr

/-- A die at reset (10_die, R280, R287, R289, R293). -/
def Die.reset : Die :=
  { vf := #v[VfRegion.reset 0, VfRegion.reset 1, VfRegion.reset 2, VfRegion.reset 3], band := [], off := 0, unc := 0,
    rsvref := 0, preq := 16, rpend := false, users := [], p := 16, pinned := [], pinUe := [], pinCorr := [], cache := [],
    cnt := Vector.replicate 7 0, casc := Vector.replicate 9 0, branch := [], rsvq := [], parts := [], drops := [] }

/-- Lasers of a group (11_package_cascade, R302, R317). -/
inductive Laser where
  | dark
  | waking
  | lit
deriving DecidableEq, Repr

/-- A CGSEND at its source hub: bytes already launched, the expanded bytes when it is compressed (11_package_cascade,
R313, R315). -/
structure Send where
  cmd : Command
  region : Nat
  pos : Nat
  lastSeq : Option W16
deriving DecidableEq, Repr

/-- An entry of the group table and its source hub's queues (11_package_cascade, R302, R309, R310). -/
structure Group where
  cfg : W64
  br : W64
  seq : W16
  ackd : W16
  laser : Laser
  fault : Bool
  heldCfg : Option W64
  heldBr : Option W64
  sends : List Send
  store : List (Block × List Nat × Nat)
  wakes : List Command
  since : Nat
deriving DecidableEq, Repr

/-- An entry not in use. -/
def Group.reset : Group :=
  { cfg := 0, br := 0, seq := 0, ackd := 0, laser := .dark, fault := false, heldCfg := none, heldBr := none, sends := [],
    store := [], wakes := [], since := 0 }

/-- States of a queue (12_package_launch, R322). -/
inductive QState where
  | disabled
  | active
  | closing
  | faulted
  | closed
deriving DecidableEq, Repr

/-- A packet of a queue from its fetch to its completion (12_package_launch, R323 to R326). -/
structure Packet where
  idx : W16
  bytes : BitVec 1024
  dispatched : Bool
  placed : Option Nat
  status : Option (BitVec 8 × BitVec 8)
  progress : Nat
  logSlot : Option (Bool × Nat)
deriving DecidableEq, Repr

/-- A queue: its registers and its packets (12_package_launch, R322, R323, R327, R344). -/
structure Queue where
  base : W64
  cfg : W64
  st : QState
  recfull : Bool
  fcode : BitVec 8
  elev : Nat
  cidx : W16
  ridx : W16
  widx : W16
  cpla : W64
  offPend : Bool
  parked : Bool
  rereads : Nat
  packets : List Packet
  wait : Nat
  logBase : W64
  logEntries : Nat
  logNext : Nat
  logOn : Bool
  asroot : W64
  closers : List (Nat × W16 × Bool)
  kickAt : Nat
deriving DecidableEq, Repr

/-- A queue at reset: DISABLED, WGT 1, LOG2SZ 4 (12_package_launch, R322; 13_package_memory, R357). -/
def Queue.reset : Queue :=
  { base := 0, cfg := 0x1004#64, st := .disabled, recfull := false, fcode := 0, elev := 0, cidx := 0, ridx := 0,
    widx := 0, cpla := 0, offPend := false, parked := false, rereads := 0, packets := [], wait := 0, logBase := 0,
    logEntries := 0, logNext := 0, logOn := false, asroot := 0, closers := [], kickAt := 0 }

/-- A context as an image declares it (01_encoding, R49; 02_rule, R53): its number, rule headers, body words, conflict rows, literals,
bindings (port, offset, context, depth), memory classes, tag masks, undo region and barriers. -/
structure ImageCtx where
  c : Nat
  headers : List (W64 × W64)
  body : List W32
  matrix : List W64
  lits : List W64
  binds : List (Nat × Int × Int × Nat × Nat)
  mcls : List (Nat × W32)
  tmask : List (Nat × W64)
  undo : W64
  bmem : W16
deriving DecidableEq, Repr, Inhabited

/-- A logical core of a placement: its place relative to the region origin, the place in the placement's rectangle whose physical
core runs it, its first physical context and its window there in blocks (0 and 1536 when not folded), its data, its receive
filters, its router's tree entries, its contexts (01_encoding, R49, R50; 12_package_launch, R329, R331). -/
structure ImageCore where
  rx : Nat
  ry : Nat
  hx : Nat
  hy : Nat
  cbase : Nat
  wbase : Nat
  wsize : Nat
  data : List (Nat × Byte)
  cgf : List (Nat × W64)
  trn : List (Nat × W16)
  ctxs : List ImageCtx
deriving DecidableEq, Repr, Inhabited

/-- One placement: 0 unfolded, 1 two or 2 four logical cores to a physical core; the rectangle of cores that it takes
(01_encoding, R50; 12_package_launch, R331). -/
structure Placement where
  fold : Nat
  w : Nat
  h : Nat
  cores : List ImageCore
deriving DecidableEq, Repr, Inhabited

/-- A configuration image after load-time checking (01_encoding, R49 to R52): the reason of a refusal, or what to place: the
queue, the grade, the extent in logical cores, the placements, the groups with E and IDLE and the core that sends on each, the
pair channels with both bound contexts, the cores with an RSVLD, the groups sent from the pinned store. -/
structure Image where
  reject : Option (BitVec 8)
  queue : Nat
  grade : Nat
  record : Bool
  w : Nat
  h : Nat
  placements : List Placement
  groups : List (Nat × W64 × Option (Nat × Nat))
  pairs : List (Nat × (Nat × Nat × Nat) × (Nat × Nat × Nat))
  pins : List (Nat × Nat)
  pinGroups : List Nat
deriving DecidableEq, Repr, Inhabited

/-- A logical core of a gang: its coordinates, and its image with the tree and barrier indices that it was given
(08_cluster, R243). -/
structure Seat where
  x : Nat
  y : Nat
  core : ImageCore
deriving DecidableEq, Repr

/-- A configuration in a region's shadow planes, loaded or being loaded: image, seats, the group entries that it will take, and the
LAUNCH that loads it (11_package_cascade, R299; 12_package_launch, R335). -/
structure Shadow where
  image : Image
  seats : List Seat
  plan : List (Nat × W64 × W64)
  queue : Nat
  pkt : W16
  mode : Nat
deriving DecidableEq, Repr

/-- States of a region slot (12_package_launch, R332). -/
inductive RState where
  | free
  | loading
  | running
  | swapping
  | stopped
  | rolling
  | ended
deriving DecidableEq, Repr

/-- A core of a gang as a stop or a checkpoint keeps it: its number, its contexts by slot, and the rest of it as it stood
(12_package_launch, R337, R340; 07_core_failures, R217). -/
structure SavedCore where
  core : Nat
  ctxs : List (Nat × Ctx)
  state : Core
deriving DecidableEq, Repr

/-- What a gang stop, or a GBAR completion for a rollback, keeps beside the contexts (08_cluster, R252, R260; 11_package_cascade, R321):
barriers, pairs, groups, what branches have forwarded, filters; of each context, by core and slot, the tag bits and the queue lengths as
they stood; and the tag bits and the STATRED replies that the completion gave it after its checkpoint (12_package_launch, R351). -/
structure SavedShared where
  bars : List (Nat × Nat × Barrier)
  pairs : List (Nat × Nat × PairCh)
  groups : List (Nat × W16)
  fwds : List (Nat × Nat × W16)
  filters : List (Nat × Nat × W64)
  stood : List (Nat × Nat × W64 × List Nat)
  gave : List (Nat × Nat × W64 × List Token)
deriving DecidableEq, Repr

/-- What a comparator holds: an item of an outbound order; a piece of an engine's write with the place that it goes to, at home only or in
a die's copy first; a partial of a reduction tree with the core that it goes to (12_package_launch, R343). -/
inductive ExitItem where
  | item (i : OutItem)
  | write (c : Command) (a pa : W64) (cmp home : Bool) (bs : List Byte)
  | partials (p : RedIn) (next : Nat)
deriving DecidableEq, Repr

/-- An item that has reached the comparator of a duplicate placement and waits for its match: copy, place in the copy, class,
destination, the core and context that sent it, the item, the time it came (12_package_launch, R343). -/
structure Exit where
  second : Bool
  pos : Nat
  cls : Nat
  dest : Nat
  core : Nat
  cx : Nat
  item : ExitItem
  since : Nat
deriving DecidableEq, Repr

/-- A region slot: its registers, its gang, its sweeps and what it keeps for resume and rollback (12_package_launch, R332
to R342). The watchdog's count is kept in hundredths of a cycle, up to the tick slowAt (14_package_host, R380). -/
structure Region where
  st : RState
  x0 : Nat
  y0 : Nat
  w : Nat
  h : Nat
  fold : Nat
  cfgid : BitVec 12
  queue : Nat
  pkt : W16
  sstep : W32
  norb : Bool
  rbcnt : Nat
  shadow : Bool
  swpend : Bool
  dup : Bool
  pdl : W32
  sweep : W16
  logb : W64
  image : Option Image
  cores : List Nat
  seats : List Seat
  unfold : List (Nat × W64)
  next : Option Shadow
  loading : Bool
  discard : Bool
  swapper : Option (Nat × Nat × Option Nat)
  swapped : Option (Nat × Nat × Option Nat)
  lastSweep : Option (Bool × W64 × W64)
  sweeping : Option (Bool × W64 × W64 × List Nat)
  stopping : Bool
  stopAt : Nat
  held : Option SavedShared
  reason : BitVec 8
  error : Option (BitVec 8)
  saved : List SavedCore
  inflight : List Flit
  check : List SavedCore
  shared : Option SavedShared
  launched : Nat
  dead : Bool
  victim : Option (Nat × Nat)
  rhb : W16
  hst : BitVec 2
  beat : Nat
  beatCycles : Nat
  slowAt : Nat
  retire : Option (Nat × Nat × Nat)
  exits : List Exit
  dupX : Nat
  dupY : Nat
  pages : List Nat
deriving DecidableEq, Repr

/-- A free region slot: PDL 20,000 and SWEEP 1,024 (12_package_launch, R332). -/
def Region.reset : Region :=
  { st := .free, x0 := 0, y0 := 0, w := 0, h := 0, fold := 0, cfgid := 0, queue := 0, pkt := 0, sstep := 0, norb := false,
    rbcnt := 0, shadow := false, swpend := false, dup := false, pdl := 20000, sweep := 1024, logb := 0, image := none,
    cores := [], seats := [], unfold := [], next := none, loading := false, discard := false, swapper := none, swapped := none, lastSweep := none, sweeping := none,
    stopping := false, stopAt := 0, held := none, reason := 0, error := none, saved := [], inflight := [], check := [], shared := none,
    launched := 0, dead := false, victim := none, rhb := 0, hst := 0, beat := 0, beatCycles := 0, slowAt := 0, retire := none,
    exits := [], dupX := 0, dupY := 0, pages := [] }

/-- Where a memory operation outside core memory stands (13_package_memory, R359, R360; 09_memory_model, R266). -/
inductive XPhase where
  /-- the next step is a table walk, at this level -/
  | walk (level : Nat) (table : W64)
  /-- parked at a page fault since a tick -/
  | parked (since : Nat)
  /-- translated: at the die's Reservoir -/
  | reservoir
  /-- at the home stack: a read, or a write on its way -/
  | home
  /-- at the second tier -/
  | tier2
deriving DecidableEq, Repr

/-- A memory operation outside core memory: the request, its physical address and its leaf's CMP bit, its phase, whether it
holds the command port while it is walked, whether its write is in the die's copy, whether it is a write of an engine's command, the
mark of its write in the copy's lines (13_package_memory, R359; 09_memory_model, R265, R267). -/
structure XOp where
  req : Request
  pa : W64
  cmp : Bool
  phase : XPhase
  port : Bool
  copyDone : Bool
  engine : Bool
  mark : Nat
deriving DecidableEq, Repr

/-- Steps of a migration (13_package_memory, R369). -/
inductive MigPhase where
  | waiting
  | copying (pos : Nat)
  | switching
  | invalidating
deriving DecidableEq, Repr

/-- A migration: its command, the page's size, old and new place, leaf address (13_package_memory, R369). -/
structure Migration where
  cmd : Command
  size : Nat
  old : W64
  new : W64
  leafAt : Nat
  leaf : W64
  cmp : Bool
  phase : MigPhase
deriving DecidableEq, Repr

/-- A job of the package's engines: its command, the next element, its failure, and of an indirect stream the stack whose engine runs it,
once that is known (13_package_memory, R367, R368). -/
structure XJob where
  cmd : Command
  pos : Nat
  fail : Option (BitVec 8)
  stack : Option Nat
deriving DecidableEq, Repr

/-- An engine's command that is parked in a fault buffer: the command, the queue and page that it awaits, since when, the step that
goes on with it (13_package_memory, R360, R361). -/
structure ParkedCmd where
  cmd : Command
  queue : Nat
  page : Nat
  since : Nat
  step : Pending
deriving DecidableEq, Repr

/-- An entry of the tag table: a page request with its queue, page and operations, or an event that expects a reply with its
trapped context (14_package_host, R374, R376). -/
inductive HostTag where
  | page (q : Nat) (va : Nat) (ops : List Nat) (since : Nat)
  | event (lx ly cx seq : Nat)
deriving DecidableEq, Repr

/-- An event waiting for the ring: kind, tag, region or queue number, record, and how many of the page requests that wait for a tag
came before it (14_package_host, R374, R375). -/
structure HostEvent where
  kind : Nat
  tag : Nat
  where_ : Nat
  time : W64
  record : Record
  behind : Nat
deriving DecidableEq, Repr

/-- States of a fabric port (15_fabric, R387, R392). -/
inductive PState where
  | dark
  | train
  | verify
  | active
  | quiesce
  | drain
  | failed
deriving DecidableEq, Repr

/-- A port command: 0 QUIESCE, 1 TRAIN, 2 CYCLE, its operands, who waits for it (15_fabric, R393). -/
structure PortCmd where
  op : Nat
  peer : Nat
  peerPort : Nat
  cmp : Bool
  dark : Nat
  packet : Option (Nat × W16)
  cmd : Option Command
deriving DecidableEq, Repr

/-- A packet of the fabric (15_fabric, R389): header fields, the offset or the kind of an FCTL packet, body bytes before
compression, and the port that it came in on. -/
structure FabPacket where
  id : Nat
  dst : Nat
  src : Nat
  fctl : Bool
  bank : Bool
  sched : Nat
  stag : W32
  off : Nat
  body : List Byte
  from_ : Option Nat
deriving DecidableEq, Repr

/-- A packet that a port has started and that is not acknowledged at the link: bytes still to be sent, the SEQ of its last flit
once that is sent, the dictionary slots that it refers to, what it inserts (15_fabric, R390, R391). -/
structure Sent where
  pkt : FabPacket
  left : Nat
  last : Option (BitVec 12)
  refs : List Nat
  ins : List (Nat × W64)
deriving DecidableEq, Repr

/-- A fabric port: registers, command queue, link state, dictionaries, credits to return and to use, the last flit sent, whether an ACK
is owed to the peer (15_fabric, R387 to R393). -/
structure Port where
  dark : Nat
  expPort : Nat
  expPeer : Nat
  cmp : Bool
  st : PState
  cause : Nat
  busy : Bool
  peerPort : Nat
  peer : Nat
  cmds : List PortCmd
  since : Nat
  txSeq : BitVec 12
  rxSeq : BitVec 12
  ackd : BitVec 12
  nak : Bool
  discarding : Bool
  replay : List (BitVec 2048)
  resends : Nat
  replaying : Nat
  ackAt : Nat
  waiting : List FabPacket
  stream : List Byte
  txDict : SMap W64
  rxDict : SMap W64
  started : List Sent
  partialRx : List Byte
  credits : Nat × Nat
  room : Nat × Nat
  tx : BitVec 2048
  say : Bool
deriving DecidableEq, Repr

/-- A port at reset: DARK, any peer (15_fabric, R387). -/
def Port.reset : Port :=
  { dark := 0, expPort := 255, expPeer := 65535, cmp := false, st := .dark, cause := 0, busy := false, peerPort := 0,
    peer := 0, cmds := [], since := 0, txSeq := 0, rxSeq := 0, ackd := 0, nak := false, discarding := false, replay := [],
    resends := 0, replaying := 0, ackAt := 0, waiting := [], stream := [], txDict := [], rxDict := [], started := [],
    partialRx := [], credits := (0, 0), room := (0, 0), tx := 0, say := false }

/-- A step of a running schedule: number, its 32 bytes, bytes moved, packets acknowledged, clear-to-send and barrier arrival seen,
done, its place in the order of starts (15_fabric, R397, R398). -/
structure RunStep where
  n : Nat
  word : BitVec 256
  moved : Nat
  acked : Nat
  cts : Bool
  arrived : Bool
  done : Bool
  order : Nat
deriving DecidableEq, Repr

/-- A schedule entry and its run (15_fabric, R397, R398). -/
structure Sched where
  w0 : W64
  w1 : W64
  run : Option (Command × W64)
  next : Nat
  doneN : Nat
  steps : List RunStep
  waiting : List (Command × W64)
deriving DecidableEq, Repr

/-- An undefined schedule. -/
def Sched.reset : Sched := { w0 := 0, w1 := 0, run := none, next := 0, doneN := 0, steps := [], waiting := [] }

/-- A flow: class, destination package, bank taken, packets outstanding (15_fabric, R396). -/
structure Flow where
  fctl : Bool
  dst : Nat
  bank : Bool
  out : Nat
deriving DecidableEq, Repr

/-- The fabric unit: identity, routes, ports, schedules, flows (15_fabric, R386, R395 to R397, R402). -/
structure Fabric where
  idV : Bool
  id : Nat
  arm : Option (Option Command)
  sw : Bool
  swCmd : Option Command
  done0 : Bool
  done1 : Bool
  act : Bool
  port : SMap Port
  route0 : SMap W16
  route1 : SMap W16
  cst : SMap Sched
  flows : List Flow
  transit : List FabPacket
  early : List FabPacket
  cnt : Vector W32 12
  reconf : List (Nat × W16 × List Nat × W64 × Bool)
deriving DecidableEq, Repr

/-- The fabric unit at reset. -/
def Fabric.reset : Fabric :=
  { idV := false, id := 0, arm := none, sw := false, swCmd := none, done0 := false, done1 := false, act := false,
    port := [], route0 := [], route1 := [], cst := [], flows := [], transit := [], early := [],
    cnt := Vector.replicate 12 0, reconf := [] }

/-- Package registers and units: power, events, trust, start-up, counters, and the tick up to which EV_WAIT counts page requests that
find the package buffer full (12_package_launch, 13_package_memory, 14_package_host, R374). -/
structure Pkg where
  grade : Nat
  ready : Bool
  phase : Nat
  fail : Bool
  ecode : Nat
  retire : W64
  cmbase : W64
  coreMap : SMap W64
  mapAt : Option Nat
  stcfg : W64
  xlctl : W32
  evcfg : W64
  evVec : Nat
  evTail : W16
  evHead : W16
  waiting : List HostEvent
  tags : SMap HostTag
  pageWait : List (Nat × Nat × List Nat)
  msix : List Nat
  linkUp : BitVec 2
  cap : Nat
  pstat : W32
  parts : SMap W32
  newPower : List (Nat × W16)
  meas : Vector (BitVec 256) 8
  attest : W64
  nonce : BitVec 256
  cnt : Vector W32 10
  evWait : W32
  heldAt : Nat
  evStale : W32
  stackCnt : SMap W32
  sectors : Nat
  xlCnt : Vector W32 6
  rrQueue : Nat
  rrCount : Nat
  cfgidNext : BitVec 12
  invals : List (Command × Nat × Nat × List Nat)
  migs : List Migration
  xjobs : List XJob
  parkedCmds : List ParkedCmd
  denied : List Nat
deriving DecidableEq, Repr

/-- The package at reset: not ready, in phase 1 of start-up, cap 24,000 W, PFDL 50 (14_package_host, R378, R381;
13_package_memory, R361). -/
def Pkg.reset : Pkg :=
  { grade := 3, ready := false, phase := 1, fail := false, ecode := 0, retire := 0, cmbase := 0, coreMap := [],
    mapAt := none, stcfg := 0, xlctl := 50, evcfg := 8, evVec := 0, evTail := 0, evHead := 0, waiting := [],
    tags := [], pageWait := [], msix := [], linkUp := 3, cap := 24000, pstat := 0, parts := [], newPower := [],
    meas := Vector.replicate 8 0, attest := 0, nonce := 0, cnt := Vector.replicate 10 0, evWait := 0, heldAt := 0, evStale := 0,
    stackCnt := [], sectors := 0, xlCnt := Vector.replicate 6 0, rrQueue := 0, rrCount := 0, cfgidNext := 0, invals := [], migs := [],
    xjobs := [], parkedCmds := [], denied := [] }

/-- An abort of a body: its code, the INFO of its record, the unit, lane and residues of a residue mismatch (07_core_failures,
R204, R220). -/
structure Abort where
  code : BitVec 8
  info : W64
  unit : BitVec 3
  lane : BitVec 4
  exp : BitVec 3
  obs : BitVec 3
deriving DecidableEq, Repr

/-- An effect that a body has staged and that acts at commit after the registers, in body order (02_rule, R68). -/
inductive Effect where
  /-- a token on mn, me, ms or mw -/
  | push (port : Nat) (tok : Token)
  /-- a request through cp -/
  | req (r : Request)
  /-- an engine or level command through cp -/
  | cmd (c : Command)
  /-- a fence -/
  | fence (kind : BitVec 2) (scope : Nat)
  /-- a basin command -/
  | basin (b : BasinCmd)
  /-- bytes stored to local memory, by physical offset -/
  | store (bytes : List (Nat × Byte))
  /-- half a byte stored: physical offset, upper half, value (05_core_memory, R148) -/
  | nibble (off : Nat) (high : Bool) (v : BitVec 4)
  /-- an element written through a write stream -/
  | elem (q : Nat) (val : V512)
  | stream (q : Nat) (st : Stream)
  /-- STRCTL: UNBIND 0, PAUSE 1, RESUME 2 -/
  | strctl (q : Nat) (op : Nat)
  /-- STRCTL DRAIN: the tag bit, and the elements that the same body writes through the stream after it (05_core_memory, R165) -/
  | drain (q : Nat) (tag : Nat) (later : Nat)
  | tagSet (n : Nat)
  | tagClear (n : Nat)
  /-- TMASK of tb: mask and value -/
  | tagMask (m v : W64)
  | enable (m v : W64)
  | clearAbort (rule : Nat)
  /-- CSRW of st: FM, RND and flags -/
  | status (fm : Bool) (rnd : BitVec 2) (flags : BitVec 5)
  | format (fm : Bool)
  | raise (flags : BitVec 5)
  | csr (n : Nat) (v : W64)
  | clearCount (n : Nat)
  | clearBasin (n : Nat)
  | inject (d : BitVec 42)
  /-- TRAP: number and word -/
  | softTrap (n word : Nat)
  | tret (w1 : W64) (action : Nat)
  | barrier (k : Nat) (tag tout : Option Nat) (timeout : Nat)
  | gbar (tag : Option Nat)
  | sluice (reason : BitVec 8)
  | forward (rec : Record) (fm : Bool)
  | vfreq (pt freq : Nat)
  | weir (lim : Nat)
  | grant (g : Nat) (hold : Bool)
  | release (port k : Nat)
  | filter (k : Nat) (v : W64)
  | rxPort (p : Nat) (v : W64)
  | depth (g e : Nat)
  | arm (c : Command)
  | yield_
  | end_
deriving DecidableEq, Repr

/-- The working copy of a body: the context's registers as the body sees them, which of them it has written, what it has
popped, and its staged effects (00_scope, R14; 02_rule, R68). -/
structure Work where
  rule : Nat
  hdrA : W64
  hdrB : W64
  pc : Nat
  cyc : Nat
  s : Vector W64 16
  sD : BitVec 16
  v : Vector V512 16
  vD : BitVec 16
  lm : W16
  lmD : Bool
  bb : W64
  bbD : Bool
  bw : W32
  bwD : Bool
  tm : Vector W64 8
  tmD : BitVec 8
  tb : W64
  en : W64
  flags : BitVec 5
  pops : Vector Nat 7
  checked : Vector Nat 7
  adv : Vector Nat 4
  wr : Vector Nat 4
  push : Vector Nat 5
  lits : Nat
  entries : Nat
  basins : Nat
  corr : Nat
  bytes : List (Nat × Byte)
  effects : List Effect
  raised : List (BitVec 5)
  inj : BitVec 42
  opc : BitVec 8
deriving DecidableEq, Repr

/-- A working copy with nothing in it. -/
def Work.reset : Work :=
  { rule := 0, hdrA := 0, hdrB := 0, pc := 0, cyc := 0, s := Vector.replicate 16 0, sD := 0, v := Vector.replicate 16 0,
    vD := 0, lm := 0xFFFF#16, lmD := false, bb := 0, bbD := false, bw := 0, bwD := false, tm := Vector.replicate 8 0,
    tmD := 0, tb := 0, en := 0, flags := 0, pops := Vector.replicate 7 0, checked := Vector.replicate 7 0,
    adv := Vector.replicate 4 0, wr := Vector.replicate 4 0, push := Vector.replicate 5 0, lits := 0, entries := 0,
    basins := 0, corr := 0, bytes := [], effects := [], raised := [], inj := 0, opc := 0 }

/-- A body that has ended, with its abort if it aborted (02_rule, R68, R74). -/
structure Finished where
  work : Work
  abort : Option Abort
deriving DecidableEq, Repr

/-- The round in flight: the core and context that run it, the rules still to run, the bodies that have ended, the body
that runs (02_rule, R60, R62). -/
structure Stage where
  active : Bool
  core : Nat
  cx : Fin 4
  todo : List Nat
  taken : List Nat
  finished : List Finished
  running : Bool
  work : Work
deriving DecidableEq, Repr

/-- No round in flight. -/
def Stage.reset : Stage :=
  { active := false, core := 0, cx := 0, todo := [], taken := [], finished := [], running := false, work := Work.reset }

/-- The whole package. -/
structure State where
  now : Nat
  fresh : Nat
  nextId : Nat
  ev : EvArgs
  inputs : List Pending
  agenda : List Pending
  stage : Stage
  core : SMap Core
  cluster : SMap Cluster
  die : SMap Die
  group : SMap Group
  queue : SMap Queue
  region : SMap Region
  flits : List Flit
  msgs : List Msg
  xops : List XOp
  hbm : Memory
  hbmMeta : SMap (BitVec 4)
  hbmPoison : List Nat
  hbmCorr : List Nat
  tier2 : Memory
  tier2Poison : List Nat
  host : Memory
  pkg : Pkg
  fab : Fabric
deriving DecidableEq, Repr

/-- The operands of a step that needs none. -/
def EvArgs.none : EvArgs := { x := 0, y := 0, z := 0, v := 0, ok := true, flit := 0 }

/-- The machine right after a fundamental reset: every register at its reset value, memories with nothing listed, no
configuration placed, start-up the only step under way (14_package_host, R379). -/
def State.reset : State :=
  { now := 0, fresh := 0, nextId := 0, ev := EvArgs.none, inputs := [], agenda := [⟨0, .startup, EvArgs.none⟩],
    stage := Stage.reset, core := [], cluster := [], die := [], group := [], queue := [], region := [], flits := [],
    msgs := [], xops := [], hbm := [], hbmMeta := [], hbmPoison := [], hbmCorr := [], tier2 := [], tier2Poison := [], host := [],
    pkg := Pkg.reset, fab := Fabric.reset }

end Sys2Proof.Machine
end

