-- ==== Sys2Proof/Machine/Ops.lean ====
section
/-! DEFINITION. The named operations over tables, memory, registers, messages and identity, and the taking of a trap and the
return from one, which every meaning shares. -/
namespace Sys2Proof.Machine

/-! ## Numbers and fields -/

/-- Bits hi down to lo of a value, as a number. -/
def bits {n : Nat} (x : BitVec n) (hi lo : Nat) : Nat := x.toNat >>> lo % 2 ^ (hi + 1 - lo)
/-- A bit of a value. -/
def bitAt {n : Nat} (x : BitVec n) (i : Nat) : Bool := x.toNat.testBit i
/-- A value with bits hi down to lo replaced by the low bits of a number. -/
def putBits {n : Nat} (x : BitVec n) (hi lo v : Nat) : BitVec n :=
  BitVec.ofNat n (x.toNat % 2 ^ lo + (v % 2 ^ (hi + 1 - lo)) * 2 ^ lo + (x.toNat / 2 ^ (hi + 1)) * 2 ^ (hi + 1))
/-- 1 for true. -/
def ofBool (b : Bool) : Nat := if b then 1 else 0
/-- A counter that saturates at 0xFFFF_FFFF, increased (07_core_failures, R223). -/
def satAdd (v : W32) (n : Nat) : W32 := BitVec.ofNat 32 (min (v.toNat + n) 0xFFFFFFFF)
/-- Residue7 of R14. -/
def residue7 (x : Nat) : BitVec 3 := BitVec.ofNat 3 (x % 7)
/-- Bits [n-1:0] of x, sign-extended (R14). -/
def sext64 (x : Nat) (n : Nat) : W64 :=
  if n == 0 then 0 else BitVec.ofNat 64 (x % 2 ^ n + (if x.testBit (n - 1) then 2 ^ 64 - 2 ^ n else 0))
/-- Bits [n-1:0] of x, zero-extended (R14). -/
def zext64 (x : Nat) (n : Nat) : W64 := BitVec.ofNat 64 (x % 2 ^ n)

/-! ## Tables and vectors -/

/-- The entry of a table, or the value given for a number not listed. -/
def tget {α : Type} (m : SMap α) (d : α) (k : Nat) : α :=
  match m with
  | [] => d
  | (i, x) :: r => if i == k then x else tget r d k
/-- A table with one entry written, keys rising. -/
def tput {α : Type} (m : SMap α) (k : Nat) (v : α) : SMap α :=
  match m with
  | [] => [(k, v)]
  | (i, x) :: r => if i == k then (k, v) :: r else if k < i then (k, v) :: (i, x) :: r else (i, x) :: tput r k v
/-- A table without an entry. -/
def tdel {α : Type} (m : SMap α) (k : Nat) : SMap α := m.filter (fun e => e.1 != k)
/-- Entry i of a vector, or a default beyond its end. -/
def vget {α : Type} {n : Nat} (v : Vector α n) (i : Nat) (d : α) : α := v.toList.getD i d
/-- A vector with entry i replaced; one beyond the end changes nothing. -/
def vset {α : Type} {n : Nat} (v : Vector α n) (i : Nat) (x : α) : Vector α n := v.setIfInBounds i x

/-! ## Memories -/

/-- The byte at an address: 0 where none is listed. -/
def memByte (m : Memory) (a : Nat) : Byte :=
  match m with
  | [] => 0
  | (i, b) :: r => if i == a then b else memByte r a
/-- A memory with one byte written, in its canonical form. -/
def memPut (m : Memory) (a : Nat) (v : Byte) : Memory :=
  match m with
  | [] => if v == 0 then [] else [(a, v)]
  | (i, b) :: r =>
    if i < a then (i, b) :: memPut r a v
    else if i == a then (if v == 0 then r else (a, v) :: r)
    else if v == 0 then (i, b) :: r else (a, v) :: (i, b) :: r
/-- The canonical form: addresses strictly rising, no entry 0. -/
def memWf (m : Memory) : Bool :=
  match m with
  | [] => true
  | [(_, b)] => b != 0
  | (i, b) :: (j, c) :: r => b != 0 && i < j && memWf ((j, c) :: r)
/-- n bytes from an address. -/
def memBytes (m : Memory) (a n : Nat) : List Byte := (List.range n).map (fun i => memByte m (a + i))
/-- A memory with bytes written one after the other. -/
def memStore (m : Memory) (bs : List (Nat × Byte)) : Memory := bs.foldl (fun m b => memPut m b.1 b.2) m
/-- Bytes as (address, byte) pairs from an address. -/
def placed (a : Nat) (bs : List Byte) : List (Nat × Byte) :=
  match bs with
  | [] => []
  | b :: r => (a, b) :: placed (a + 1) r
/-- A little-endian number. -/
def leNat (bs : List Byte) : Nat :=
  match bs with
  | [] => 0
  | b :: r => b.toNat + 256 * leNat r
/-- The n bytes of a number, little-endian. -/
def leBytes (n x : Nat) : List Byte :=
  match n with
  | 0 => []
  | n + 1 => BitVec.ofNat 8 x :: leBytes n (x / 256)

/-- n bits of CRC-32C. -/
def crcBits : Nat → Nat → Nat
  | 0, c => c
  | n + 1, c => crcBits n (if c % 2 = 1 then c / 2 ^^^ 0x82F63B78 else c / 2)
/-- CRC-32C of bytes (11_package_cascade, R300; 15_fabric, R388). -/
def crc32c (bs : List Byte) : W32 := ~~~ (BitVec.ofNat 32 (bs.foldl (fun c b => crcBits 8 (c ^^^ b.toNat)) 0xFFFFFFFF))

/-! ## Vector values (04_core_compute, R124) -/

/-- Lane i of a vector value. -/
def lane (v : V512) (i : Nat) : W32 := v.extractLsb' (32 * i) 32
/-- The vector value of 16 lanes. -/
def ofLanes (f : Nat → W32) : V512 :=
  f 15 ++ f 14 ++ f 13 ++ f 12 ++ f 11 ++ f 10 ++ f 9 ++ f 8 ++ f 7 ++ f 6 ++ f 5 ++ f 4 ++ f 3 ++ f 2 ++ f 1 ++ f 0
/-- The vector value of a scalar: its halves in lanes 0 and 1 (01_encoding, R30). -/
def ofScalar (x : W64) : V512 := x.zeroExtend 512
/-- Bytes 0 to 7 of a vector value (01_encoding, R30). -/
def loScalar (v : V512) : W64 := v.extractLsb' 0 64
/-- The bytes of a vector value. -/
def vBytes (v : V512) : List Byte := leBytes 64 v.toNat
/-- The vector value of at most 64 bytes. -/
def ofBytes (bs : List Byte) : V512 := BitVec.ofNat 512 (leNat (bs.take 64))

/-! ## The levels of the state -/

/-- A core by its number. -/
def coreOf (s : State) (k : Nat) : Core := tget s.core (Core.reset k) k
/-- The state with a core replaced. -/
def setCore (s : State) (k : Nat) (c : Core) : State := { s with core := tput s.core k c }
/-- A context slot of a core. -/
def ctxOf (s : State) (k c : Nat) : Ctx := vget (coreOf s k).ctx c Ctx.reset
/-- The state with a context slot replaced. -/
def setCtx (s : State) (k c : Nat) (x : Ctx) : State :=
  setCore s k { coreOf s k with ctx := vset (coreOf s k).ctx c x }
/-- A cluster by its number. -/
def clusterOf (s : State) (k : Nat) : Cluster := tget s.cluster Cluster.reset k
/-- The state with a cluster replaced. -/
def setCluster (s : State) (k : Nat) (c : Cluster) : State := { s with cluster := tput s.cluster k c }
/-- A die by its number. -/
def dieOf (s : State) (k : Nat) : Die := tget s.die Die.reset k
/-- The state with a die replaced. -/
def setDie (s : State) (k : Nat) (d : Die) : State := { s with die := tput s.die k d }
/-- An entry of the group table. -/
def groupOf (s : State) (k : Nat) : Group := tget s.group Group.reset k
/-- The state with a group's entry replaced. -/
def setGroup (s : State) (k : Nat) (g : Group) : State := { s with group := tput s.group k g }
/-- A queue. -/
def queueOf (s : State) (k : Nat) : Queue := tget s.queue Queue.reset k
/-- The state with a queue replaced. -/
def setQueue (s : State) (k : Nat) (q : Queue) : State := { s with queue := tput s.queue k q }
/-- A region slot. -/
def regionOf (s : State) (k : Nat) : Region := tget s.region Region.reset k
/-- The state with a region slot replaced. -/
def setRegion (s : State) (k : Nat) (r : Region) : State := { s with region := tput s.region k r }
/-- A port of the fabric. -/
def portOf (s : State) (p : Nat) : Port := tget s.fab.port Port.reset p
/-- The state with a port replaced. -/
def setPort (s : State) (p : Nat) (x : Port) : State := { s with fab := { s.fab with port := tput s.fab.port p x } }

/-- The cluster, die and position of a physical core (08_cluster, R231; 00_scope, R3): clusters are 13 x 8 physical cores,
dies 3 x 4 clusters, the package 8 x 8 dies. -/
def clusterXY (k : Nat) : Nat × Nat := (k / 256 / 13, k % 256 / 8)
/-- A cluster's number from its place in the package. -/
def clusterAt (cx cy : Nat) : Nat := 12 * (8 * (cy / 4) + cx / 3) + 3 * (cy % 4) + cx % 3
/-- The number of a core's cluster. -/
def clusterKey (k : Nat) : Nat := clusterAt (clusterXY k).1 (clusterXY k).2
/-- The number of a core's die. -/
def dieKey (k : Nat) : Nat := clusterKey k / 12
/-- A cluster's place in the package, in clusters. -/
def clusterPlace (c : Nat) : Nat × Nat := (3 * (c / 12 % 8) + c % 12 % 3, 4 * (c / 12 / 8) + c % 12 / 3)
/-- The cores of a cluster. -/
def clusterCores (c : Nat) : List Nat :=
  let (x, y) := clusterPlace c
  (List.range 13).flatMap (fun i => (List.range 8).map (fun j => 256 * (13 * x + i) + 8 * y + j))

/-- The physical core whose router the barrier unit of a cluster is attached to; messages to the Sluice tree and pairing buffers' replies
pass by it too (08_cluster, R248; for these DESIGN CHOICE, log entry 103). -/
def barrierCore (cl : Nat) : Nat := let (x, y) := clusterPlace cl; 256 * (13 * x + 6) + 8 * y + 4
/-- The physical core whose router the Cascade hub of a die is attached to (11_package_cascade, R298; DESIGN CHOICE, log entry
103). -/
def hubCore (die : Nat) : Nat := barrierCore (12 * die + 4)

/-! ## Identity: the core map (12_package_launch, R329, R330) -/

/-- The entry that a full-grade part is delivered with: logical (x, y) on its own place of its cluster, no fold. -/
def deliveryEntry (x y : Nat) : W64 :=
  BitVec.ofNat 64 (2 ^ 63 + (13 * (x / 12) + x % 12) * 2 ^ 49 + y * 2 ^ 41 + 1536 * 2 ^ 19)
/-- The map entry of a logical core: in the map that start-up wrote, or in device memory where PKG_CMBASE names another
place; 0 before the map is written. -/
def mapEntry (s : State) (x y : Nat) : W64 :=
  if 287 < x || 255 < y then 0
  else match s.pkg.mapAt with
    | none => 0
    | some at_ =>
      if s.pkg.cmbase.toNat == at_ then tget s.pkg.coreMap (deliveryEntry x y) (256 * x + y)
      else BitVec.ofNat 64 (leNat (memBytes s.hbm (s.pkg.cmbase.toNat + 8 * (256 * x + y)) 8))
/-- A map entry written. -/
def setMapEntry (s : State) (x y : Nat) (e : W64) : State :=
  if 287 < x || 255 < y then s
  else match s.pkg.mapAt with
    | none => s
    | some at_ =>
      if s.pkg.cmbase.toNat == at_ then { s with pkg := { s.pkg with coreMap := tput s.pkg.coreMap (256 * x + y) e } }
      else { s with hbm := memStore s.hbm (placed (s.pkg.cmbase.toNat + 8 * (256 * x + y)) (leBytes 8 e.toNat)) }
/-- The physical core and the physical context 0 of a bound logical core. -/
def placeOf (s : State) (x y : Nat) : Option (Nat × Nat) :=
  let e := mapEntry s x y
  if bitAt e 63 then some (256 * bits e 57 49 + bits e 48 41, bits e 59 58) else none
/-- The physical core and the physical context 0 that a map entry gives. -/
def entryPlace (e : W64) : Option (Nat × Nat) :=
  if bitAt e 63 then some (256 * bits e 57 49 + bits e 48 41, bits e 59 58) else none
/-- The binding that a source core uses: the one it keeps until its flits to the old place are acknowledged, else its cache's, else the
map's (08_cluster, R241; 12_package_launch, R329). -/
def boundAt (s : State) (from_ x y : Nat) : Option (Nat × Nat) :=
  let c := coreOf s from_
  match c.cmap.find? (fun e => e.1 == 256 * x + y), c.mapc.find? (fun e => e.1 == 256 * x + y) with
  | some (_, e), _ => entryPlace e
  | none, some (_, e) => entryPlace e
  | none, none => placeOf s x y
/-- A map entry that a core has used in its cache of 32 entries, before those used earlier; the one used longest ago makes room
(00_scope, R4; 12_package_launch, R329; which entry makes room is DESIGN CHOICE, log entry 73). -/
def cacheMap (s : State) (k x y : Nat) : State :=
  let c := coreOf s k
  let name := 256 * x + y
  let e := match c.mapc.find? (fun m => m.1 == name) with | some m => m.2 | none => mapEntry s x y
  if bitAt e 63 then setCore s k { c with mapc := ((name, e) :: c.mapc.filter (fun m => m.1 != name)).take 32 } else s
/-- The logical cores of a cluster. -/
def clusterNames (cl : Nat) : List (Nat × Nat) :=
  let (cx, cy) := clusterPlace cl
  (List.range 96).map (fun i => (12 * cx + i % 12, 8 * cy + i / 12))
/-- SUS of a physical core in the map entries that name it (12_package_launch, R329). -/
def noteSuspect (s : State) (k : Nat) (on : Bool) : State :=
  (clusterNames (clusterKey k)).foldl (fun s p =>
    match placeOf s p.1 p.2 with
    | some (j, _) => if j == k then setMapEntry s p.1 p.2 (putBits (mapEntry s p.1 p.2) 62 62 (ofBool on)) else s
    | none => s) s
/-- The window of a logical core's data in its physical core: base and size in bytes. -/
def windowOf (s : State) (x y : Nat) : Nat × Nat :=
  let e := mapEntry s x y
  (256 * bits e 40 30, 256 * bits e 29 19)

/-! ## The status word (03_core_numbers, R87) -/

/-- st of a context with the flags given; CTX is the index of the occupant, whatever slot holds it (07_core_failures, R214). -/
def statusWord (x : Ctx) (flags : Flags) : W64 :=
  BitVec.ofNat 64 (ofBool x.yielded * 2 ^ 20 + ofBool x.ended * 2 ^ 19 + ofBool x.priv * 2 ^ 18 + x.lc % 4 * 2 ^ 16 +
    flags.toNat * 16 + x.rnd.toNat * 2 + ofBool x.fm)

/-! ## Messages -/

/-- Operands of a step: up to three numbers. -/
def evArgs (x y z : Nat) : EvArgs := { EvArgs.none with x := x, y := y, z := z }
/-- A step that may happen from a time on. -/
def schedule (s : State) (due : Nat) (op : Instr) (args : EvArgs) : State :=
  { s with agenda := s.agenda ++ [⟨due, op, args⟩] }

/-- A flit put into a core's router on a class: 0 REQ, 1 RSP, 2 RED, 3 CTL, under the route-table bank that the source has in force for
the class; orig is the core that first sent its body (08_cluster, R234, R237, R240, R241). -/
def injectFlit (s : State) (cls src dst orig : Nat) (body : Payload) : State :=
  let f : Flit :=
    { cls := cls, src := src, dst := dst, bank := ofBool (bitAt (coreOf s src).bank cls), at_ := src, port := 0, cistern := false,
      reserved := false, body := body, orig := orig, ready := s.now }
  { s with flits := s.flits ++ [f], agenda := s.agenda ++ [⟨s.now, .flitHop, evArgs src 0 cls⟩] }
/-- A flit of a class counted as outstanding from a core to a core until it is acknowledged (08_cluster, R237). -/
def countFlit (s : State) (cls src dst : Nat) : State :=
  let c := coreOf s src
  let n := match c.outst.find? (fun o => o.1 == cls && o.2.1 == dst) with | some o => o.2.2 | none => 0
  setCore s src { c with outst := (cls, dst, n + 1) :: c.outst.filter (fun o => !(o.1 == cls && o.2.1 == dst)) }
/-- A flit sent from a core, outstanding until it is acknowledged. -/
def sendFlit (s : State) (cls src dst : Nat) (body : Payload) : State := injectFlit (countFlit s cls src dst) cls src dst src body
/-- A flit sent on from a core where its logical core is no longer: it keeps the core that first sent it (08_cluster, R241). -/
def forwardFlit (s : State) (cls src dst orig : Nat) (body : Payload) : State :=
  injectFlit (countFlit s cls src dst) cls src dst orig body
/-- A message that waits at its destination for its step. -/
def postMsg (s : State) (src dst : Nat) (body : Payload) : State :=
  { s with nextId := s.nextId + 1, msgs := s.msgs ++ [{ id := s.nextId, src := src, dst := dst, body := body, moved := false }] }
/-- A message that waits at its destination, and the step that takes it. -/
def deliver (s : State) (src dst : Nat) (body : Payload) (op : Instr) : State :=
  let id := s.nextId
  schedule (postMsg s src dst body) s.now op (evArgs id 0 0)
/-- The next free value's number, and the state that has used it. -/
def takeFresh (s : State) : Nat × State := (s.fresh, { s with fresh := s.fresh + 1 })
/-- DIE_TIME of a die: cleared at start-up, one count a tick from the tick in which the die's counter starts (10_die, R287; log entry
108). -/
def dieTime (s : State) (d : Nat) : W64 := BitVec.ofNat 64 (s.now - (if d == 0 then 0 else Config.dieStart d))
/-- Whether page requests find the package's buffer of 256 waiting events and requests full, so that the fault buffers hold them
(14_package_host, R374). -/
def heldBack (p : Pkg) : Bool :=
  !p.pageWait.isEmpty && 256 < p.pageWait.length + (p.waiting.filter (fun e => e.kind == 1)).length
/-- The ticks for which requests have been held back counted in EV_WAIT; called before each change of the buffer (14_package_host, R374). -/
def countHeld (s : State) : State :=
  if heldBack s.pkg then
    { s with pkg := { s.pkg with evWait := satAdd s.pkg.evWait (s.now - s.pkg.heldAt), heldAt := s.now } }
  else s
/-- A change of the buffer after which requests may be held back: their ticks count from now on. -/
def startHeld (s : State) : State := if heldBack s.pkg then { s with pkg := { s.pkg with heldAt := s.now } } else s
/-- An event for the host's ring: kind, tag, region or queue number, record (14_package_host, R375). -/
def hostEvent (s : State) (kind tag where_ : Nat) (r : Record) : State :=
  let time := dieTime s 0 + (dieOf s 0).off.signExtend 64
  let e : HostEvent := { kind := kind, tag := tag, where_ := where_, time := time, record := r, behind := s.pkg.pageWait.length }
  let s := countHeld s
  schedule (startHeld { s with pkg := { s.pkg with waiting := s.pkg.waiting ++ [e] } }) s.now .eventWrite EvArgs.none

/-! ## Taking a trap and returning from one (07_core_failures, R219 to R221, R227) -/

/-- What a record says of its cause: code, KIND (0 abort, 1 software, 2 machine check, 3 failed request), the word, the unit's
findings and INFO. -/
structure Cause where
  code : BitVec 8
  kind : Nat
  rule : Nat
  word : Nat
  opcode : BitVec 8
  unit : BitVec 3
  lane : BitVec 4
  exp : BitVec 3
  obs : BitVec 3
  info : W64
deriving DecidableEq, Repr

/-- Word 0 of a record (R220). -/
def causeWord (c : Cause) (cx : Nat) (mult noctx : Bool) : W64 :=
  BitVec.ofNat 64 (c.code.toNat * 2 ^ 56 + c.kind % 4 * 2 ^ 54 + ofBool mult * 2 ^ 53 + ofBool noctx * 2 ^ 52 +
    (if noctx then 0 else cx % 4 * 2 ^ 50 + c.rule % 64 * 2 ^ 44 + c.word % 32 * 2 ^ 39) + c.opcode.toNat * 2 ^ 31 +
    c.unit.toNat * 2 ^ 28 + c.lane.toNat * 2 ^ 24 + c.exp.toNat * 2 ^ 21 + c.obs.toNat * 2 ^ 18)
/-- The record of a cause in a context of a core (R220). -/
def recordOf (s : State) (k cx : Nat) (c : Cause) (mult noctx : Bool) : Record :=
  let x := ctxOf s k cx
  { w0 := causeWord c cx mult noctx
    w1 := BitVec.ofNat 64 (x.lx * 2 ^ 39 + x.ly * 2 ^ 31 + x.lc % 4 * 2 ^ 29 + (coreOf s k).seq.toNat * 2 ^ 17 + k)
    w2 := x.rounds
    w3 := c.info }
/-- SEQ of a record (R220). -/
def recordSeq (r : Record) : Nat := bits r.w1 28 17
/-- An entry of a cluster's handler chain, when valid: the logical core and the context (08_cluster, R253). -/
def handlerEntry (s : State) (cl n : Nat) : Option (Nat × Nat × Nat) :=
  let e := (clusterOf s cl).hch.toNat >>> (16 * n)
  let (cx, cy) := clusterPlace cl
  if n < 4 && e.testBit 15 then some (12 * cx + e / 2 ^ 11 % 16, 8 * cy + e / 2 ^ 8 % 8, e / 2 ^ 6 % 4) else none
/-- The chain position of a context, when it is a handler of its cluster. -/
def chainPosition (s : State) (k cx : Nat) : Option Nat :=
  let x := ctxOf s k cx
  (List.range 4).find? (fun n => handlerEntry s (clusterKey k) n == some (x.lx, x.ly, x.lc))
/-- The handler chain is exhausted: HALT is set, and every context of the cluster stops at its next round boundary
(08_cluster, R254). -/
def haltCluster (s : State) (cl : Nat) : State :=
  let s := setCluster s cl { clusterOf s cl with halt := true }
  { s with core := s.core.map (fun e => if clusterKey e.1 == cl then (e.1, { e.2 with halted := true }) else e) }
/-- A record sent to an entry of the cluster's chain on CTL; past the last valid entry the cluster halts and the host is told
(08_cluster, R253, R254). -/
def sendRecord (s : State) (k entry : Nat) (r : Record) (from_ : Nat) (fm : Bool) : State :=
  let cl := clusterKey k
  match handlerEntry s cl entry with
  | some (x, y, _) =>
    match boundAt s k x y with
    | some (dst, _) => sendFlit s 3 k dst (.record entry r from_ fm)
    | none => hostEvent (haltCluster s cl) 2 255 (ctxOf s k (bits r.w0 51 50)).region r
  | none => hostEvent (haltCluster s cl) 2 255 (ctxOf s k (bits r.w0 51 50)).region r
/-- A record written into its core's ring, newest first, four kept (R221). -/
def keepRecord (s : State) (k : Nat) (r : Record) : State :=
  let c := coreOf s k
  setCore s k { c with ring := (r :: c.ring).take 4, seq := c.seq + 1 }
/-- A machine check of units 0 to 7, and ABFT_MULTI, set SUSPECT at once (R208). -/
def suspectOf (s : State) (k : Nat) : State :=
  let c := coreOf s k
  noteSuspect (setCore s k { c with bucket := putBits c.bucket 31 31 1 }) k true
/-- The cause of a stream engine's machine check: unit 7, INFO the stream, no rule (R206, R220). -/
def engineCause (q : Nat) (exp obs : BitVec 3) : Cause :=
  { code := 0x02, kind := 2, rule := 0, word := 0, opcode := 0, unit := 7, lane := 0, exp := exp, obs := obs,
    info := BitVec.ofNat 64 (q % 4) }
/-- The taking of a trap or machine check: the record enters the ring, goes to the handler chain under the FM given and is counted, and
the context is marked trapped unless it has a trap outstanding or has ended (R219; 03_core_numbers, R101). -/
def takeTrap (s : State) (k cx : Nat) (fm : Bool) (c : Cause) (mult : Bool) : State :=
  let r := recordOf s k cx c mult false
  let s := keepRecord s k r
  let s := if c.kind == 2 then suspectOf s k else s
  let (entry, from_) := match chainPosition s k cx with | some n => (n + 1, n) | none => (0, 255)
  let s := sendRecord s k entry r from_ fm
  let x := ctxOf s k cx
  let x := { x with cnt := vset x.cnt 11 (satAdd (vget x.cnt 11 0) 1) }
  setCtx s k cx (if x.trap.isNone && !x.ended then { x with trap := some r, trapFm := fm } else x)
/-- A record that concerns no context: sent and kept, and nothing stops (R219). What its word 1 and its word 2 hold of a context's
identity and rounds the spec does not say: they are those of slot 0 (DESIGN CHOICE, log entry 97). -/
def takeUnitCheck (s : State) (k : Nat) (c : Cause) : State :=
  let r := recordOf s k 0 c false true
  let s := keepRecord s k r
  let s := if c.kind == 2 then suspectOf s k else s
  sendRecord s k 0 r 255 false
/-- A trap that reaches a context outside a round: it is raised at the core's next round boundary (R219). -/
def trapAtBoundary (s : State) (k cx : Nat) (c : Cause) : State :=
  let r := recordOf s k cx c false false
  let o := coreOf s k
  setCore s k { o with traps := o.traps ++ [(cx, r)] }
/-- A resume message acting at a core's round boundary: RESUME, DISABLE, END or HOLD of the trap whose record has the SEQ; any
other message is discarded and counted in STALE_TRET (R227). -/
def applyTret (s : State) (k cx seq action : Nat) : State :=
  let x := ctxOf s k cx
  match x.trap with
  | some r =>
    if recordSeq r == seq && x.resident then
      match action % 4 with
      | 0 => setCtx s k cx { x with trap := none }
      | 1 => setCtx s k cx { x with trap := none, en := x.en &&& ~~~(1#64 <<< bits r.w0 49 44) }
      | 2 => setCtx s k cx { x with trap := none, ended := true }
      | _ => hostEvent s 1 0 x.region r
    else
      let c := coreOf s k
      setCore s k { c with cnt := vset c.cnt 7 (satAdd (vget c.cnt 7 0) 1) }
  | none =>
    let c := coreOf s k
    setCore s k { c with cnt := vset c.cnt 7 (satAdd (vget c.cnt 7 0) 1) }

/-! ## Local memory (05_core_memory, R146; 01_encoding, R15) -/

/-- The physical data offset of a publish window's front or back byte: front bytes lie in the buffer that SEL names, back bytes
in the other; a redirected writer reaches the back buffer through front addresses (R171). -/
def windowOffset (c : Core) (off : Nat) (redirect : Bool) : Nat :=
  let one := fun (acc : Option Nat) (w : W64) =>
    match acc with
    | some x => some x
    | none =>
      if bitAt w 63 then
        let front := 256 * bits w 21 11
        let back := 256 * bits w 32 22
        let size := 256 * bits w 43 33
        let sel := bitAt w 62
        if front ≤ off && off < front + size then
          some (if sel != redirect then back + (off - front) else off)
        else if back ≤ off && off < back + size then some (if sel then front + (off - back) else off)
        else none
      else none
  (c.pubw.toList.foldl one none).getD off
/-- A byte of a core's data or instruction memory: data below 0x6_0000, the planes and tables above; the reserved part reads
zero (01_encoding, R15). Control registers are read elsewhere. -/
def localByte (c : Core) (off : Nat) : Byte :=
  if off < 0x60000 then memByte c.mem off
  else if off < 0x64000 then memByte c.active (off - 0x60000)
  else if off < 0x68000 then memByte c.shadow (off - 0x64000)
  else if off < 0x6A000 then memByte c.active (off - 0x68000 + 0x4000)
  else if off < 0x6C000 then memByte c.shadow (off - 0x6A000 + 0x4000)
  else 0
/-- A byte of data or instruction memory written; the reserved part ignores it (01_encoding, R15). -/
def setLocalByte (c : Core) (off : Nat) (v : Byte) : Core :=
  if off < 0x60000 then { c with mem := memPut c.mem off v }
  else if off < 0x64000 then { c with active := memPut c.active (off - 0x60000) v }
  else if off < 0x68000 then { c with shadow := memPut c.shadow (off - 0x64000) v }
  else if off < 0x6A000 then { c with active := memPut c.active (off - 0x68000 + 0x4000) v }
  else if off < 0x6C000 then { c with shadow := memPut c.shadow (off - 0x6A000 + 0x4000) v }
  else c
/-- A 64-bit word of a context's rule table: header words from +0x000, conflict rows from +0x400, literals from +0x600
(01_encoding, R15). -/
def tableWord (c : Core) (cx off : Nat) : W64 :=
  BitVec.ofNat 64 (leNat (memBytes c.active (0x4000 + 0x800 * cx + off) 8))
/-- Header word A of a rule. -/
def headerA (c : Core) (cx i : Nat) : W64 := tableWord c cx (16 * i)
/-- Header word B of a rule. -/
def headerB (c : Core) (cx i : Nat) : W64 := tableWord c cx (16 * i + 8)
/-- An instruction word of a context's body region (R16). -/
def bodyWord (c : Core) (cx w : Nat) : W32 :=
  BitVec.ofNat 32 (leNat (memBytes c.active (0x1000 * cx + 4 * w) 4))

end Sys2Proof.Machine
end

