-- ==== Sys2Proof/Machine/Body.lean ====
section
/-! DEFINITION. How an instruction of a rule body runs: on a working copy of its context, reading committed state, staging every
effect, ending in an abort or going on to the next word (00_scope, R14; 02_rule, R61, R63, R68, R74). -/
namespace Sys2Proof.Machine

/-- A computation of a body: it changes the working copy, or aborts. -/
abbrev Body := EStateM Abort Work

/-- The outcome of a step. -/
abbrev Outcome := Host.Outcome State Fault Refusal

/-- Codes of aborts, traps and checks (07_core_failures, R204). -/
def cExplicit : BitVec 8 := 0x01
/-- RESIDUE. -/
def cResidue : BitVec 8 := 0x02
/-- ILLEGAL_OPCODE. -/
def cIllegalOpcode : BitVec 8 := 0x03
/-- ILLEGAL_OPERAND. -/
def cIllegalOperand : BitVec 8 := 0x04
/-- CLASS_VIOLATION. -/
def cClass : BitVec 8 := 0x05
/-- FMT_MODE_MISMATCH. -/
def cFmtMode : BitVec 8 := 0x06
/-- LOCAL_ECC_UE. -/
def cEccUe : BitVec 8 := 0x07
/-- ALIGN. -/
def cAlign : BitVec 8 := 0x08
/-- RANGE. -/
def cRange : BitVec 8 := 0x09
/-- PRIV. -/
def cPriv : BitVec 8 := 0x0A
/-- COMMIT_OVERFLOW. -/
def cOverflow : BitVec 8 := 0x0B
/-- BASIN_QUEUE_FULL. -/
def cQueueFull : BitVec 8 := 0x0C
/-- PAGE_FAULT. -/
def cPageFault : BitVec 8 := 0x0D
/-- STRAY_TOKEN. -/
def cStray : BitVec 8 := 0x0E
/-- PAIR_TIMEOUT. -/
def cPairTimeout : BitVec 8 := 0x0F
/-- PAIR_ABORT. -/
def cPairAbort : BitVec 8 := 0x10
/-- RETENTION_LOST. -/
def cRetention : BitVec 8 := 0x11
/-- ABFT_MULTI. -/
def cAbftMulti : BitVec 8 := 0x12
/-- CMP_MISMATCH. -/
def cCmpMismatch : BitVec 8 := 0x13
/-- WATCHDOG. -/
def cWatchdog : BitVec 8 := 0x14

/-- Abort(code) of R14, with INFO of the record (R220). -/
def abortWith {α : Type} (code : BitVec 8) (info : W64) : Body α :=
  throw { code := code, info := info, unit := 0, lane := 0, exp := 0, obs := 0 }
/-- Abort(ILLEGAL_OPERAND). -/
def illegal {α : Type} : Body α := abortWith cIllegalOperand 0
/-- An abort unless a condition holds. -/
def need (ok : Bool) (code : BitVec 8) (info : W64) : Body Unit := if ok then pure () else abortWith code info

/-- The core that runs the body. -/
def bodyCore (s : State) : Core := coreOf s s.stage.core
/-- The context that runs the body, as committed. -/
def bodyCtx (s : State) : Ctx := vget (bodyCore s).ctx s.stage.cx.val Ctx.reset

/-- The unit that an instruction of a body occupies (01_encoding, R36). -/
inductive BodyUnit where
  | plain
  | vector
  | basin
deriving DecidableEq, Repr

/-- The working copy with a word run: the program counter past it, its cycles counted (02_rule, R60). -/
def Work.advance (w : Work) (words cost : Nat) : Work := { w with pc := w.pc + words, cyc := w.cyc + cost }

/-- The state after the body's word has run to its end. -/
def bodyWent (s : State) (w : Work) : State := { s with stage := { s.stage with work := w } }
/-- The state after the body has aborted: it has ended, with every staged effect to be discarded (02_rule, R74). -/
def bodyAborted (s : State) (w : Work) (a : Abort) : State :=
  { s with stage := { s.stage with running := false, finished := s.stage.finished ++ [⟨w, some a⟩] } }

/-- One instruction of a body, of so many words and cycles: a vector-pipe instruction needs the hv bit of the rule's header and
a basin command its hb bit (01_encoding, R41). -/
def runBody (s : State) (opc : BitVec 8) (unit : BodyUnit) (words cost : Nat) (m : Body Unit) : Outcome :=
  let w := { s.stage.work with opc := opc }
  let m : Body Unit := do
    match unit with
    | .plain => pure ()
    | .vector => need (bitAt w.hdrA 57) cIllegalOperand 0
    | .basin => need (bitAt w.hdrA 58) cIllegalOperand 0
    m
  match m.run w with
  | .ok _ w' => .next (bodyWent s (w'.advance words cost))
  | .error a w' => .next (bodyAborted s (w'.advance 0 cost) a)

/-- An effect staged behind those before it (02_rule, R68). -/
def stage (e : Effect) : Body Unit := modify fun w => { w with effects := w.effects ++ [e] }
/-- An entry of the commit buffer taken; the 33rd aborts (R68). -/
def entry : Body Unit := do
  let w ← get
  need (w.entries < 32) cOverflow 0
  set { w with entries := w.entries + 1 }

/-- A scalar register staged (R68): one entry, the first time. -/
def stageS (i : Nat) (v : W64) : Body Unit := do
  let w ← get
  if bitAt w.sD i then set { w with s := vset w.s i v }
  else
    entry
    modify fun w => { w with s := vset w.s i v, sD := w.sD ||| BitVec.ofNat 16 (2 ^ i) }
/-- A vector register staged. -/
def stageV (i : Nat) (v : V512) : Body Unit := do
  let w ← get
  if bitAt w.vD i then set { w with v := vset w.v i v }
  else
    entry
    modify fun w => { w with v := vset w.v i v, vD := w.vD ||| BitVec.ofNat 16 (2 ^ i) }
/-- lm staged. -/
def stageLm (v : W16) : Body Unit := do
  let w ← get
  if w.lmD then set { w with lm := v }
  else
    entry
    modify fun w => { w with lm := v, lmD := true }
/-- bb staged. -/
def stageBb (v : W64) : Body Unit := do
  let w ← get
  if w.bbD then set { w with bb := v }
  else
    entry
    modify fun w => { w with bb := v, bbD := true }
/-- bw staged. -/
def stageBw (v : W32) : Body Unit := do
  let w ← get
  if w.bwD then set { w with bw := v }
  else
    entry
    modify fun w => { w with bw := v, bwD := true }

/-- The pipe that runs the body's vector instructions: the first rule taken whose hv bit is set runs on pipe 0, unit 1; the
second on pipe 1, unit 2 (07_core_failures, R205). -/
def pipeUnit (s : State) (rule : Nat) : BitVec 3 :=
  match s.stage.taken.find? (fun i => bitAt (headerA (bodyCore s) s.stage.cx.val i) 57) with
  | some i => if i == rule then 1 else 2
  | none => 1

/-- Whether the injector matches a check: live, armed by this context, for the unit, the opcode and the lane (R229). -/
def injected (s : State) (w : Work) (unit ln : Nat) : Bool :=
  bits w.inj 7 0 != 0 && bits w.inj 41 40 == s.stage.cx.val && bits w.inj 26 24 == unit &&
    (bitAt w.inj 31 || bits w.inj 39 32 == w.opc.toNat) && bits w.inj 19 16 == ln
/-- A residue check of a quantity in a unit and lane: the armed injector makes it mismatch, lowering COUNT for good; the rule
then aborts with RESIDUE (04_core_compute, R115; 07_core_failures, R205, R229). -/
def checked (s : State) (unit ln q : Nat) : Body Unit := do
  let w ← get
  if injected s w unit ln then
    set { w with inj := w.inj - 1 }
    let u : BitVec 3 := if unit == 1 then pipeUnit s w.rule else BitVec.ofNat 3 unit
    throw { code := cResidue, info := 0, unit := u, lane := BitVec.ofNat 4 ln, exp := residue7 q,
            obs := residue7 (q % 7 + bits w.inj 10 8) }
  else pure ()
/-- The two checks of a scalar value: its low half as lane 0, its high half as lane 1 (R115, R220). -/
def checkedScalar (s : State) (v : W64) : Body Unit := do
  checked s 0 0 (v.toNat % 2 ^ 32)
  checked s 0 1 (v.toNat / 2 ^ 32)
/-- The check of an address formed in a body by the address generators (R205). -/
def checkedAddress (s : State) (a : W64) : Body Unit := checked s 3 0 (a.toNat % 2 ^ 32)

end Sys2Proof.Machine
end

