-- ==== Sys2Proof/Machine/Flags.lean ====
section
/-! DEFINITION. The sticky flags of st as instructions raise and write them, and the compares and masks that are flags of
lanes (03_core_numbers, R87, R88, R103; 04_core_compute, R113, R128). How each operation computes its flags stands with the
number formats in Float.lean. -/
namespace Sys2Proof.Machine

/-- Flags of one instruction staged: they are ORed into st at commit, and each counts one event (R88). -/
def raiseFlags (f : Flags) : Body Unit :=
  if f == 0 then pure ()
  else modify fun w =>
    { w with flags := w.flags ||| f, raised := w.raised ++ [f], effects := w.effects ++ [.raise f] }

/-- A CSRW of st: RND, FM and the flags take the value written, flags staged before are overwritten (R87, R88). -/
def writeStatus (v : W64) : Body Unit :=
  modify fun w =>
    { w with flags := BitVec.ofNat 5 (bits v 8 4)
             effects := w.effects ++ [.status (bitAt v 0) (BitVec.ofNat 2 (bits v 2 1)) (BitVec.ofNat 5 (bits v 8 4))] }

/-- Lanes of a compare: all ones where it holds (R128). -/
def maskLanes (t : Nat → Bool) : V512 := ofLanes (fun i => if t i then 0xFFFFFFFF#32 else 0)
/-- The 16 bits of a compare (R128). -/
def maskBits (t : Nat → Bool) : W16 :=
  BitVec.ofNat 16 ((List.range 16).foldl (fun a i => a + ofBool (t i) * 2 ^ i) 0)
/-- The flags of the lanes that take part. -/
def laneFlags (part : Nat → Bool) (f : Nat → Flags) : Flags :=
  (List.range 16).foldl (fun a i => if part i then a ||| f i else a) 0

end Sys2Proof.Machine
end

