-- ==== Sys2Proof/Machine/Guard.lean ====
section
/-! DEFINITION. Rule headers, guards and the selection of the rules of a round (01_encoding, R23 to R26, R41; 02_rule, R55, R62,
R72). -/
namespace Sys2Proof.Machine

/-- A count field of a header is zero exactly when its mask bit is clear (R25). -/
def countsOk (mask count : W64) (mlo clo w n : Nat) : Bool :=
  (List.range n).all (fun i => bitAt mask (mlo + i) == (bits count (clo + w * i + w - 1) (clo + w * i) != 0))
/-- Whether a header that has its valid bit set keeps R23 to R25; one that does not never fires (R41). -/
def headerOk (a b : W64) : Bool :=
  bits a 63 60 == 0 && bits b 63 58 == 0 && bits a 49 47 ≤ 4 && (bits a 49 47 != 0 || bits a 46 43 == 0) &&
    (bits a 52 50 != 7 || bits a 55 53 == 0) && (bits a 39 38 != 0 || bits a 42 40 == 0) && bits b 39 38 != 3 &&
    bits a 10 0 + bits a 15 11 + 1 ≤ 1024 && countsOk a b 33 48 2 5 && countsOk a b 22 24 2 7 && countsOk a b 29 0 6 4

/-- The tokens, or full blocks, that an input port 0 mn to 4 rp, 5 o0, 6 o1 of a context holds (R55). -/
def inCount (x : Ctx) (p : Nat) : Nat :=
  if p < 5 then (vget x.inq p []).length else (vget x.blocks (p - 5) []).length
/-- The credits of an output port 0 mn to 3 mw, 4 cp (02_rule, R57). -/
def outCount (x : Ctx) (p : Nat) : Nat :=
  if p < 4 then (match vget x.binds p none with | some b => b.credits | none => 0) else 8 - x.cpUsed
/-- FILL of a stream: fetched elements of a read stream, free entries of a write stream (03_core_numbers, R91). -/
def streamFill (st : Stream) : Nat :=
  if !st.bound then 0 else if st.dir then 64 - st.queued.length else st.fetched.length
/-- The fmt of the head token, or block, of an input port. -/
def headFmt (c : Core) (x : Ctx) (p : Nat) : Option Nat :=
  if p < 5 then ((vget x.inq p []).head?).map (fun t => bits t.sb 2 0)
  else match vget x.blocks (p - 5) [] with
    | [] => none
    | n :: _ => ((vget c.rx n RxSlot.reset).blk).map (fun b => b.fmt.toNat)

/-- The guard of rule i of a context, all terms, from committed state (R55). -/
def guardHolds (c : Core) (x : Ctx) (i : Nat) (a b : W64) : Bool :=
  let tm := vget x.tm (bits a 42 40) 0
  let reg := vget x.s (bits a 46 43) 0
  bitAt a 56 && headerOk a b && bitAt x.en i &&
    (List.range 7).all (fun p => !bitAt a (22 + p) || bits b (25 + 2 * p) (24 + 2 * p) ≤ inCount x p) &&
    (List.range 5).all (fun p => !bitAt a (33 + p) || bits b (49 + 2 * p) (48 + 2 * p) ≤ outCount x p) &&
    (List.range 4).all (fun q => !bitAt a (29 + q) || bits b (5 + 6 * q) (6 * q) ≤ streamFill (vget x.q q Stream.reset)) &&
    (match bits a 39 38 with
      | 0 => true
      | 1 => x.tb &&& tm != 0
      | 2 => x.tb &&& tm == tm
      | _ => x.tb &&& tm == 0) &&
    (match bits a 49 47 with
      | 0 => true
      | 1 => reg == 0
      | 2 => reg != 0
      | 3 => bitAt reg 63
      | _ => !bitAt reg 63) &&
    (bits a 52 50 == 7 || headFmt c x (bits a 52 50) == some (bits a 55 53))

/-- Whether rule i of a context of a core is enabled. -/
def ruleEnabled (c : Core) (cx : Nat) (x : Ctx) (i : Nat) : Bool := guardHolds c x i (headerA c cx i) (headerB c cx i)
/-- The enabled rules of a context; an ended one evaluates no guard (R84). -/
def enabledRules (c : Core) (cx : Nat) (x : Ctx) : List Nat :=
  if x.ended then [] else (List.range 64).filter (ruleEnabled c cx x)
/-- Headers that are marked valid and break the rules: each counts one event when the guards are evaluated (R41). -/
def badHeaders (c : Core) (cx : Nat) : Nat :=
  ((List.range 64).filter (fun i => bitAt (headerA c cx i) 56 && !headerOk (headerA c cx i) (headerB c cx i))).length

/-- Try(i) of the selector: taken rules, vector and basin units in use (R62). -/
def tryRule (c : Core) (cx : Nat) (en : List Nat) (acc : List Nat × Nat × Nat) (i : Nat) : List Nat × Nat × Nat :=
  let (taken, nv, nb) := acc
  let a := headerA c cx i
  let row := tableWord c cx (0x400 + 8 * i)
  let v := ofBool (bitAt a 57)
  let b := ofBool (bitAt a 58)
  if taken.length < 4 && en.contains i && !taken.contains i && taken.all (fun j => !bitAt row j) && nv + v ≤ 2 && nb + b ≤ 1
  then (taken ++ [i], nv + v, nb + b) else acc
/-- The rules of a round in the order taken: those with a retry mark by index, then scan order from fp (R62). -/
def selectRules (c : Core) (cx : Nat) (x : Ctx) : List Nat :=
  let en := enabledRules c cx x
  let retry := (List.range 64).filter (fun i => bitAt x.rm i)
  let scan := (List.range 64).map (fun k => (x.fp.toNat + k) % 64)
  ((retry ++ scan).foldl (tryRule c cx en) ([], 0, 0)).1

/-- Whether a context slot is eligible (07_core_failures, R210); a context that waits on GBAR is not (12_package_launch,
R351). -/
def eligible (x : Ctx) : Bool := x.resident && !x.ended && x.trap.isNone && !x.saving && x.gbar.isNone
/-- The ready bits as a round's cycle 0 sets them: that of each inactive eligible context is 1 when the context would have an
enabled rule against its own committed state (R210). -/
def markReady (c : Core) : Core :=
  { c with ctx := Vector.ofFn (fun i =>
      let x := vget c.ctx i.val Ctx.reset
      if i.val != c.act.toNat && eligible x then { x with ready := !(enabledRules c i.val x).isEmpty } else x) }
/-- Whether an eligible context has its ready bit set (R210, R211). -/
def ready (c : Core) (cx : Nat) : Bool :=
  let x := vget c.ctx cx Ctx.reset
  eligible x && x.ready

end Sys2Proof.Machine
end

