-- ==== Sys2Proof/Machine/RegMap.lean ====
section
/-! DEFINITION. The registers of the privileged control range 0x7_0000 to 0x7_FFFF of every core: what each reads as, and what a
write does (02_rule, R54; 06_core_basin, R179; 08_cluster, R232, R239, R243, R248, R250; 10_die, R279 to R287;
11_package_cascade, R302 to R306; 12_package_launch, R341). Registers are read and written by aligned 8-byte words. -/
namespace Sys2Proof.Machine

/-! ## VF regions of a die (10_die, R280, R281; 00_scope, R5) -/

/-- Whether a region's rectangle holds cluster (cx, cy) of the die. -/
def vfHolds (v : VfRegion) (cx cy : Nat) : Bool := v.v && v.x0 ≤ cx && cx ≤ v.x1 && v.y0 ≤ cy && cy ≤ v.y1
/-- The VF region that holds cluster c = 3·cy + cx of a die: the valid one among 1 to 3, else 0. -/
def vfIndex (d : Die) (c : Nat) : Nat :=
  (([1, 2, 3] : List Nat).find? (fun k => vfHolds (vget d.vf k (VfRegion.reset k)) (c % 3) (c / 3))).getD 0
/-- The VF region of a cluster. -/
def vfOfCluster (s : State) (cl : Nat) : VfRegion :=
  let d := dieOf s (cl / 12)
  let i := vfIndex d (cl % 12)
  vget d.vf i (VfRegion.reset i)
/-- The VF region of a core. -/
def vfOfCore (s : State) (k : Nat) : VfRegion := vfOfCluster s (clusterKey k)
/-- Whether a core's clock is stopped while its region changes point or frequency (R281). -/
def clockStopped (s : State) (k : Nat) : Bool := (vfOfCore s k).off
/-- The cycles that a VF region's clock has made; a stopped clock makes none (00_scope, R10; R281). -/
def vfCycles (s : State) (v : VfRegion) : Nat := v.cyc + (if v.off then 0 else (s.now - v.cycAt) * v.freq / 100)
/-- The cycles of a cluster's clock. -/
def clusterCycles (s : State) (cl : Nat) : Nat := vfCycles s (vfOfCluster s cl)
/-- Ticks of n cycles of a VF region, rounded up. -/
def vfTicks (v : VfRegion) (n : Nat) : Nat := (n * 100 + v.freq - 1) / v.freq
/-- The ticks to the next start of a window of 256 cycles of a region (R284). -/
def toWindow (s : State) (v : VfRegion) : Nat := max 1 (vfTicks v (256 - vfCycles s v % 256))
/-- The limit that DIE_WEIR.LIM acts as: below 16 as 16, above 256 as 256 (R284). -/
def VfRegion.limit (v : VfRegion) : Nat := max 16 (min 256 v.weirLim)
/-- The doubling of a region's limit begun at its next window start, unless it is under way (R285). The third operand is the window. -/
def beginDoubling (s : State) (die k : Nat) (v : VfRegion) : State :=
  if s.agenda.any (fun p => p.op == .weirDouble && p.args.x == die && p.args.y == k) then s
  else schedule s (s.now + toWindow s v) .weirDouble (evArgs die k (vfCycles s v / 256 + 1))
/-- The frequency ceiling of a VF point, in 10 MHz units (R5). -/
def pointCeiling (p : Nat) : Nat := 40 + 8 * p
/-- The frequency that a request takes: clamped to the point's ceiling and to the power manager's, and no
less than 400 MHz (R280). -/
def clampFreq (v : VfRegion) : Nat := max 40 (min v.rfreq (min (pointCeiling v.rpt) v.ceil))
/-- Whether a cluster holds a placed configuration. -/
def clusterPlaced (s : State) (cl : Nat) : Bool := s.region.any (fun r => r.2.cores.any (fun k => clusterKey k == cl))
/-- A core's index within its die, Y * 36 + X (R281). -/
def dieIndex (s : State) (k : Nat) : Nat :=
  match (coreOf s k).ctx.toList.find? (fun x => x.resident) with
  | some x => x.ly % 32 * 36 + x.lx % 36
  | none => 0
/-- Whether a request of core k for a VF region stands behind another core's of the same tick: the higher index stands (R281). -/
def overtaken (s : State) (v : VfRegion) (k : Nat) : Bool := v.req.1 == s.now && dieIndex s k < v.req.2
/-- A request for region k of a die at its RPT and RFREQ: PEND stays clear when nothing would change, for the clusters moved to it
either; the controller applies it at the next tick or later, after a change under way (R281). moved is 1 when a cluster with another
frequency has moved to the region, 2 when one with another point has. -/
def requestVf (s : State) (die k moved : Nat) : State :=
  let d := dieOf s die
  let v := vget d.vf k (VfRegion.reset k)
  if moved == 0 && !v.busy && v.rpt == v.pt && clampFreq v == v.freq then
    setDie s die { d with vf := vset d.vf k { v with pend := false } }
  else
    let mine := fun (p : Pending) => p.op == .vfRequestApply && p.args.x == die && p.args.y == k
    let forced := ((s.agenda.filter mine).map (fun p => p.args.z)).foldl max moved
    let s := { s with agenda := s.agenda.filter (fun p => !mine p) }
    schedule (setDie s die { d with vf := vset d.vf k { v with pend := true } }) s.now .vfRequestApply (evArgs die k forced)
/-- A region that held no cluster takes the point, frequency and clock of the first one that moves to it. -/
def adoptClock (s : State) (moved : List Nat) (d d2 : Die) (j : Nat) : Die :=
  let v := vget d2.vf j (VfRegion.reset j)
  if (List.range 12).any (fun c => vfIndex d c == j) || v.busy then d2
  else
    match moved.find? (fun c => vfIndex d2 c == j) with
    | none => d2
    | some c =>
      let o := vget d.vf (vfIndex d c) (VfRegion.reset 0)
      { d2 with vf := vset d2.vf j { v with pt := o.pt, freq := o.freq, cyc := vfCycles s o, cycAt := s.now, off := false } }
/-- A write to DIE_VFR k: a write that would move a cluster with a placed configuration is ignored whole; else the fields are
stored and the requests of R281 made. -/
def writeVfr (s : State) (die k : Nat) (w : W64) : State :=
  let d := dieOf s die
  let v := vget d.vf k (VfRegion.reset k)
  let n := { v with rpt := bits w 58 55, rfreq := bits w 54 46, x0 := bits w 30 29, x1 := bits w 28 27,
                    y0 := bits w 26 25, y1 := bits w 24 23, v := k == 0 || bitAt w 31 }
  let clash := ([1, 2, 3] : List Nat).any (fun j =>
    j != k && (List.range 12).any (fun c =>
      vfHolds (vget d.vf j (VfRegion.reset j)) (c % 3) (c / 3) && vfHolds n (c % 3) (c / 3)))
  let n := { n with v := k == 0 || (n.v && n.x0 ≤ n.x1 && n.y0 ≤ n.y1 && !clash) }
  let d2 := { d with vf := vset d.vf k n }
  let moved := (List.range 12).filter (fun c => vfIndex d c != vfIndex d2 c)
  if moved.any (fun c => clusterPlaced s (12 * die + c)) then s
  else
    let takers := (List.range 4).filter (fun j => moved.any (fun c => vfIndex d2 c == j))
    let from_ := fun (c : Nat) => vget d.vf (vfIndex d c) (VfRegion.reset 0)
    let d2 := takers.foldl (adoptClock s moved d) d2
    let s := setDie s die d2
    let other := fun (j : Nat) => let t := vget d2.vf j (VfRegion.reset j)
      let mine := moved.filter (fun c => vfIndex d2 c == j)
      if mine.any (fun c => (from_ c).pt != t.rpt) then 2 else ofBool (mine.any (fun c => (from_ c).freq != clampFreq t))
    let s := takers.foldl (fun s j => requestVf s die j (other j)) s
    if n.v && !takers.contains k then requestVf s die k 0 else s

/-! ## Route tables and their switch (08_cluster, R238 to R240) -/

/-- The plain dimension-ordered entry of a router at physical core k: column entries below 0x200, row entries above. -/
def plainRoute (k i : Nat) : Nat :=
  let j := i % 0x400
  if j < 0x200 then (if j < k / 256 then 1 else if k / 256 < j then 3 else 0)
  else (if j - 0x200 < k % 256 then 2 else if k % 256 < j - 0x200 then 4 else 0)
/-- Entry i of a router's tables, both banks from 0x7_9000. A listed byte is an entry that was written, plus one. -/
def routeEntry (s : State) (k i : Nat) : Nat :=
  let v := (memByte (coreOf s k).routes i).toNat
  if v == 0 then plainRoute k i else v - 1
/-- An entry written: codes 5 to 7 are ignored, and so is a write to the bank that ACT names: only the standby bank may be written (R238,
R239; with SW = 0 DEDUCED, log entry 105). -/
def writeRoute (s : State) (k i v : Nat) : State :=
  let cl := clusterOf s (clusterKey k)
  let c := coreOf s k
  if 4 < v % 8 || i / 0x400 == ofBool cl.rtAct || 0x800 ≤ i || (312 ≤ i % 0x400 && i % 0x400 < 0x200) ||
      0x300 ≤ i % 0x400
  then s
  else setCore s k { c with routes := memPut c.routes i (BitVec.ofNat 8 (v % 8 + 1)) }
/-- A switch requested: ACT toggles, and every core of the cluster switches every class in its own time (R238, R240). -/
def requestRouteSwitch (s : State) (cl : Nat) : State :=
  let c := clusterOf s cl
  if c.rtSw then s
  else
    let s := setCluster s cl { c with rtSw := true, rtAct := !c.rtAct, rtDone := 0 }
    { s with agenda := s.agenda ++ (clusterCores cl).flatMap (fun k =>
        (List.range 4).map (fun j => ⟨s.now, .routeClassSwitch, evArgs k j 0⟩)) }

/-! ## Reading -/

/-- Serial order of 16-bit counts: a precedes b when b - a lies in 1 to 32,767 (11_package_cascade, R308). -/
def serialBefore (a b : W16) : Bool := 1 ≤ (b - a).toNat && (b - a).toNat ≤ 32767
/-- The least REL of a branch's members (R308). -/
def minRel (b : Branch) : W16 :=
  match b.votes with
  | [] => b.fwd
  | v :: r => r.foldl (fun m u => if serialBefore u.2.2.1 m then u.2.2.1 else m) v.2.2.1
/-- Whether a member of a branch holds its grant (R308). -/
def holdN (b : Branch) : Bool := b.votes.any (fun v => v.2.2.2)
/-- PKG_CGT STATUS (R302). -/
def groupStatus (g : Group) : W64 :=
  BitVec.ofNat 64 (g.seq.toNat * 2 ^ 48 + g.ackd.toNat * 2 ^ 32 +
    (match g.laser with | .dark => 0 | .waking => 1 | .lit => 2) * 2 ^ 30 + ofBool g.fault * 2 ^ 29)
/-- DIE_SPL status (R303). -/
def branchStatus (b : Branch) : W64 :=
  BitVec.ofNat 64 (b.fwd.toNat * 2 ^ 48 + (minRel b).toNat * 2 ^ 32 + ofBool (holdN b) * 2 ^ 31 + b.buf.length % 8 * 2 ^ 28)
/-- DIE_SPL word 0 (R303). -/
def branchWord (b : Branch) : W64 :=
  BitVec.ofNat 64 (ofBool b.v * 2 ^ 63 + b.seg.toNat * 2 ^ 51 + b.nmem * 2 ^ 40)
/-- CORE_CGP p with the counts of its slots (R306). -/
def portWord (c : Core) (p : Nat) : W32 :=
  let sl := (c.rx.toList.drop (4 * p)).take 4
  let n := fun (f : RxSlot → Bool) => (sl.filter f).length
  BitVec.ofNat 32 ((vget c.cgp p 0).toNat / 2 ^ 19 * 2 ^ 19 + n RxSlot.pin * 256 + n (fun x => x.st == .popped) * 16 +
    n (fun x => x.st == .full))
/-- EFF of CORE_WEIR: the core's limit, or the region's in force when less (10_die, R284). -/
def coreWeirEff (s : State) (k : Nat) : Nat := min (coreOf s k).weirLim (vfOfCore s k).weirEff
/-- CORE_RSEL (02_rule, R54). -/
def rselWord (x : Ctx) : W32 := BitVec.ofNat 32 (ofBool x.fired * 2 ^ 16 + x.lastf.toNat * 256 + x.fp.toNat)
/-- CLU_BAR (08_cluster, R248). -/
def barWord (b : Barrier) : W32 :=
  BitVec.ofNat 32 (ofBool b.v * 2 ^ 31 + b.count % 512 * 2 ^ 22 + b.arr % 512 * 2 ^ 13 + b.gen.toNat * 32)
/-- WAIT of a pair channel: the cycles for which its half has been held; it stands still while the gang is stopped (R250, R252). -/
def pairWait (s : State) (cl : Nat) (p : PairCh) : Nat :=
  match p.frozen with | some w => w | none => if p.held.isSome then clusterCycles s cl - p.since else 0
/-- CLU_PCH (08_cluster, R250). -/
def pairWord (s : State) (cl : Nat) (p : PairCh) : W64 :=
  BitVec.ofNat 64 (ofBool p.v * 2 ^ 63 + p.lx % 16 * 2 ^ 59 + p.ly % 8 * 2 ^ 56 + p.cx % 4 * 2 ^ 54 + ofBool p.armed * 2 ^ 53 +
    ofBool p.held.isSome * 2 ^ 52 + p.seq.toNat * 2 ^ 40 +
    min (pairWait s cl p) (2 ^ 30 - 1))
/-- DIE_VFR (10_die, R280). -/
def vfrWord (v : VfRegion) : W64 :=
  BitVec.ofNat 64 (v.rpt % 16 * 2 ^ 55 + v.rfreq % 512 * 2 ^ 46 + ofBool v.pend * 2 ^ 45 + ofBool v.v * 2 ^ 31 +
    v.x0 % 4 * 2 ^ 29 + v.x1 % 4 * 2 ^ 27 + v.y0 % 4 * 2 ^ 25 + v.y1 % 4 * 2 ^ 23 + v.pt % 16 * 2 ^ 18 + v.freq % 512 * 2 ^ 9)
/-- DIE_RSV (10_die, R289). -/
def rsvWord (d : Die) : W32 :=
  BitVec.ofNat 32 (d.preq % 64 * 2 ^ 10 + ofBool d.rpend * 2 ^ 9 + ofBool (!d.users.isEmpty) * 2 ^ 8 + d.p % 64)
/-- DIE_TOFF (10_die, R287). -/
def toffWord (d : Die) : W64 := BitVec.ofNat 64 (d.unc.toNat * 2 ^ 48 + d.off.toNat)

/-- A 32-bit register of the control range; offsets that hold none read 0. -/
def reg32 (s : State) (k off : Nat) : W32 :=
  let c := coreOf s k
  let cl := clusterOf s (clusterKey k)
  let d := dieOf s (dieKey k)
  if 0x70100 ≤ off && off < 0x70180 then vget (vget c.ctx ((off - 0x70100) / 0x20) Ctx.reset).mcls (off % 0x20 / 4) 0
  else if 0x701A0 ≤ off && off < 0x701B0 then rselWord (vget c.ctx ((off - 0x701A0) / 4) Ctx.reset)
  else if off == 0x70240 then c.bwgt.zeroExtend 32
  else if off == 0x70244 then BitVec.ofNat 32 (coreWeirEff s k * 2 ^ 16 + c.weirLim)
  else if off == 0x70270 then portWord c 0
  else if off == 0x70278 then portWord c 1
  else if 0x70400 ≤ off && off < 0x70800 then
    (vget (vget c.ctx ((off - 0x70400) / 0x100) Ctx.reset).rabort (off % 0x100 / 4) 0).zeroExtend 32
  else if off == 0x78000 then BitVec.ofNat 32 (ofBool cl.halt * 128 + ofBool cl.lost * 64 + cl.rstate.toNat * 16)
  else if off == 0x78010 then BitVec.ofNat 32 (ofBool cl.rtSw * 256 + cl.rtDone.toNat * 16 + ofBool cl.rtAct)
  else if 0x78100 ≤ off && off < 0x78180 && off % 8 == 0 then barWord (vget cl.bar ((off - 0x78100) / 8) Barrier.reset)
  else if 0x78200 ≤ off && off < 0x78280 then (vget c.trn ((off - 0x78200) / 4) 0).zeroExtend 32
  else if 0x78800 ≤ off && off < 0x78818 then vget cl.cnt ((off - 0x78800) / 4) 0
  else if 0x7A040 ≤ off && off < 0x7A050 then
    let v := vget d.vf ((off - 0x7A040) / 4) (VfRegion.reset 1)
    BitVec.ofNat 32 (v.weirEff * 2 ^ 16 + v.weirLim)
  else if off == 0x7A070 then rsvWord d
  else if 0x7A400 ≤ off && off < 0x7A880 then tget d.band 0 ((off - 0x7A400) / 4)
  else if 0x7A900 ≤ off && off < 0x7A91C then vget d.cnt ((off - 0x7A900) / 4) 0
  else if 0x7AA00 ≤ off && off < 0x7AA24 then vget d.casc ((off - 0x7AA00) / 4) 0
  else 0
/-- A 64-bit register of the control range; none where the word holds no 64-bit register. -/
def reg64 (s : State) (k off : Nat) : Option W64 :=
  let c := coreOf s k
  let cl := clusterOf s (clusterKey k)
  let d := dieOf s (dieKey k)
  if 0x70180 ≤ off && off < 0x701A0 then some (vget c.ctx ((off - 0x70180) / 8) Ctx.reset).en
  else if 0x701C0 ≤ off && off < 0x701E0 then some (vget c.ctx ((off - 0x701C0) / 8) Ctx.reset).rm
  else if off == 0x70248 then some c.bmem
  else if 0x70250 ≤ off && off < 0x70270 then some (vget c.cgf ((off - 0x70250) / 8) 0)
  else if 0x70300 ≤ off && off < 0x70320 then some (vget c.ctx ((off - 0x70300) / 8) Ctx.reset).undo
  else if off == 0x78008 then some cl.hch
  else if off == 0x78018 then
    some (BitVec.ofNat 64 (ofBool cl.pairV * 2 ^ 63 + cl.pairDie % 8 * 2 ^ 37 + cl.pairDie / 8 % 8 * 2 ^ 34 +
      cl.pairCl % 4 * 2 ^ 32 + cl.pairCl / 4 % 4 * 2 ^ 30 + cl.deadline % 2 ^ 30))
  else if 0x78300 ≤ off && off < 0x78380 then some (pairWord s (clusterKey k) (vget cl.pch ((off - 0x78300) / 8) PairCh.reset))
  else if 0x7A000 ≤ off && off < 0x7A020 then some (vfrWord (vget d.vf ((off - 0x7A000) / 8) (VfRegion.reset 1)))
  else if off == 0x7A060 then some (dieTime s (dieKey k))
  else if off == 0x7A068 then some (toffWord d)
  else if off == 0x7A078 then some d.rsvref
  else if 0x7B000 ≤ off && off < 0x7C000 then
    let b := tget d.branch Branch.reset ((off - 0x7B000) / 16)
    some (if off % 16 == 0 then branchWord b else branchStatus b)
  else if 0x7C000 ≤ off && off < 0x7E000 then
    let g := groupOf s ((off - 0x7C000) / 32)
    some (match off % 32 / 8 with | 0 => g.cfg | 1 => g.br | 2 => groupStatus g | _ => 0)
  else none
/-- An aligned 8-byte word of the control range. -/
def regWord (s : State) (k off : Nat) : W64 :=
  if 0x79000 ≤ off && off < 0x79800 then
    BitVec.ofNat 64 (leNat ((List.range 8).map (fun i => BitVec.ofNat 8 (routeEntry s k (off - 0x79000 + i)))))
  else match reg64 s k off with
    | some v => v
    | none => reg32 s k (off + 4) ++ reg32 s k off
/-- A byte of the control range. -/
def regByte (s : State) (k off : Nat) : Byte :=
  BitVec.ofNat 8 ((regWord s k (off / 8 * 8)).toNat / 2 ^ (8 * (off % 8)))

/-! ## Writing -/

/-- A filter written: V, GID, PORT, CTX and HOLD; REL and RCV stand (11_package_cascade, R304). -/
def filterValue (old v : W64) : W64 := (v &&& 0xFFF8000000000000) ||| (old &&& 0x00000000FFFFFFFF)
/-- A membership that leaves its group: the die counts it no longer, and no entry waits for it (R304). -/
def leaveGroup (s : State) (k f g : Nat) : State :=
  let d := dieOf s (dieKey k)
  let b := tget d.branch Branch.reset g
  let drop := fun (e : BranchEntry) => { e with wait := e.wait.erase (k, f), again := e.again.erase (k, f), sent := e.sent.erase (k, f) }
  let b := { b with nmem := b.nmem - 1, votes := b.votes.filter (fun w => !(w.1 == k && w.2.1 == f)), buf := b.buf.map drop }
  schedule (setDie s (dieKey k) { d with branch := tput d.branch g b }) s.now .branchForward (evArgs (dieKey k) g 0)
/-- A membership that joins a group: blocks whose last byte has not reached the die's cores yet are for it too (R304); until its first
vote it counts with REL 0, as at launch (R308; DESIGN CHOICE, log entry 104). -/
def joinGroup (s : State) (k f g : Nat) : State :=
  let d := dieOf s (dieKey k)
  let b := tget d.branch Branch.reset g
  let coming := fun (e : BranchEntry) => e.forwarded && decide (s.now < e.due) && bitAt b.seg (clusterKey k % 12)
  let buf := b.buf.map (fun e => if coming e then { e with wait := e.wait ++ [(k, f)] } else e)
  let s' := setDie s (dieKey k) { d with branch := tput d.branch g { b with votes := b.votes ++ [(k, f, 0#16, false)], buf := buf } }
  (b.buf.filter coming).foldl (fun s e => schedule s e.due .memberSlotFill (evArgs k f e.blk.seq.toNat)) s'
/-- A filter of a core replaced (R304). -/
def setFilter (s : State) (k f : Nat) (v : W64) : State :=
  let c := coreOf s k
  let old := vget c.cgf f 0
  let s := setCore s k { c with cgf := vset c.cgf f (filterValue old v) }
  let stays := bitAt old 63 && bitAt v 63 && bits v 62 55 == bits old 62 55
  let s := if bitAt old 63 && !stays then leaveGroup s k f (bits old 62 55) else s
  if bitAt v 63 && !stays then joinGroup s k f (bits v 62 55) else s
/-- A receive port written, only while every slot of it is free (R306). -/
def writeRxPort (c : Core) (p : Nat) (v : W32) : Core :=
  if ((c.rx.toList.drop (4 * p)).take 4).all (fun x => x.st == .free) then
    { c with cgp := vset c.cgp p (v &&& 0xFFF80000) }
  else c
/-- Whether writes to a group's entry are held: it is valid, and a block is unacknowledged or a CGSEND queued: in the outbound order
of a context, resident or evicted, at a comparator, on its way to the source hub, or there (R302). -/
def groupHeld (s : State) (n : Nat) : Bool :=
  let g := groupOf s n
  let mine := fun (c : Command) => match c.op with | .cgsend k _ _ _ _ _ _ _ _ _ => k == n | _ => false
  let sends := fun (o : OutItem) => match o with | .cmd c => mine c | _ => false
  let queued := s.core.any (fun c => c.2.ctx.toList.any (fun x => x.outbound.any sends))
  let compared := fun (e : Exit) => match e.item with | .item o => sends o | _ => false
  let kept := s.region.any (fun r => r.2.exits.any compared ||
    (r.2.st == .stopped && r.2.saved.any (fun c => c.ctxs.any (fun x => x.2.outbound.any sends))))
  let coming := s.msgs.any (fun m => match m.body with | .wake _ (some c) => mine c | _ => false)
  bitAt g.cfg 63 && (g.seq != g.ackd || !g.sends.isEmpty || queued || kept || coming)
/-- CFG as a write leaves it: E of 5 to 7 leaves V at 0 (R302). -/
def groupCfg (v : W64) : W64 := if 4 < bits v 52 50 then v &&& 0x7FFFFFFFF0000000 else v &&& 0xFFFFFFFFF0000000
/-- A group's CFG or BR written, or held until its blocks and commands are done (R302). -/
def writeGroup (s : State) (n : Nat) (br : Bool) (v : W64) : State :=
  let g := groupOf s n
  if groupHeld s n then
    schedule (setGroup s n (if br then { g with heldBr := some v } else { g with heldCfg := some (groupCfg v) }))
      s.now .groupEntryWriteApply (evArgs n 0 0)
  else
    let g := { g with fault := false }
    schedule (setGroup s n (if br then { g with br := v } else { g with cfg := groupCfg v })) s.now .laserDark (evArgs n 0 0)

/-- A 32-bit register of a core written; m is 1 in the bits that the write carries. -/
def writeReg32 (s : State) (k off : Nat) (m v : W32) : State :=
  let c := coreOf s k
  let ck := clusterKey k
  let cl := clusterOf s ck
  let n := (reg32 s k off &&& ~~~m) ||| (v &&& m)
  let one := v &&& m
  if 0x70100 ≤ off && off < 0x70180 then
    let x := vget c.ctx ((off - 0x70100) / 0x20) Ctx.reset
    setCtx s k ((off - 0x70100) / 0x20) { x with mcls := vset x.mcls (off % 0x20 / 4) (n &&& 0xC03FFFFF) }
  else if 0x701A0 ≤ off && off < 0x701B0 then
    let x := vget c.ctx ((off - 0x701A0) / 4) Ctx.reset
    setCtx s k ((off - 0x701A0) / 4) { x with fp := n.extractLsb' 0 6 }
  else if off == 0x70240 then setCore s k { c with bwgt := n.extractLsb' 0 4 }
  else if off == 0x70244 then setCore s k { c with weirLim := max 16 (min 256 (bits n 8 0)) }
  else if off == 0x70270 then setCore s k (writeRxPort c 0 n)
  else if off == 0x70278 then setCore s k (writeRxPort c 1 n)
  else if 0x70400 ≤ off && off < 0x70800 then
    let x := vget c.ctx ((off - 0x70400) / 0x100) Ctx.reset
    setCtx s k ((off - 0x70400) / 0x100) { x with rabort := vset x.rabort (off % 0x100 / 4) (n.extractLsb' 0 24) }
  else if off == 0x78000 then
    setCluster s ck { cl with halt := cl.halt && !bitAt one 7, lost := cl.lost && !bitAt one 6 }
  else if off == 0x78010 then (if bitAt one 8 then requestRouteSwitch s ck else s)
  else if 0x78100 ≤ off && off < 0x78180 && off % 8 == 0 then
    let j := (off - 0x78100) / 8
    let b := { vget cl.bar j Barrier.reset with v := bitAt n 31, count := bits n 30 22 }
    setCluster s ck { cl with bar := vset cl.bar j b }
  else if 0x78200 ≤ off && off < 0x78280 then
    setCore s k { c with trn := vset c.trn ((off - 0x78200) / 4) (n.extractLsb' 0 16 &&& 0xFFE0) }
  else if 0x7A040 ≤ off && off < 0x7A050 then
    let d := dieOf s (dieKey k)
    let j := (off - 0x7A040) / 4
    let w := vget d.vf j (VfRegion.reset j)
    let w := { w with weirLim := bits n 8 0 }
    let s := setDie s (dieKey k) { d with vf := vset d.vf j { w with weirEff := min w.weirEff w.limit } }
    if w.weirEff < w.limit then beginDoubling s (dieKey k) j w else s
  else s
/-- A 64-bit register of a core written; m is 1 in the bits that the write carries. -/
def writeReg64 (s : State) (k off : Nat) (old m v : W64) : State :=
  let c := coreOf s k
  let ck := clusterKey k
  let cl := clusterOf s ck
  let dk := dieKey k
  let n := (old &&& ~~~m) ||| (v &&& m)
  if 0x70180 ≤ off && off < 0x701A0 then
    let j := (off - 0x70180) / 8
    setCtx s k j { vget c.ctx j Ctx.reset with en := n }
  else if off == 0x70248 then setCore s k { c with bmem := n }
  else if 0x70250 ≤ off && off < 0x70270 then
    let j := (off - 0x70250) / 8
    setFilter s k j n
  else if 0x70300 ≤ off && off < 0x70320 then
    let j := (off - 0x70300) / 8
    let x := vget c.ctx j Ctx.reset
    setCtx s k j { x with undo := (n &&& 0x00007FFFFE000000) ||| (x.undo &&& 0x0000000001FFE000) }
  else if off == 0x78008 then setCluster s ck { cl with hch := n &&& 0xFFC0FFC0FFC0FFC0 }
  else if off == 0x78018 then
    setCluster s ck { cl with pairV := bitAt n 63, pairDie := bits n 39 37 + 8 * bits n 36 34,
                              pairCl := bits n 33 32 + 4 * bits n 31 30, deadline := bits n 29 0 }
  else if 0x78300 ≤ off && off < 0x78380 then
    let j := (off - 0x78300) / 8
    let p := vget cl.pch j PairCh.reset
    let q := { p with v := bitAt n 63, lx := bits n 62 59, ly := bits n 58 56, cx := bits n 55 54 }
    setCluster s ck { cl with pch := vset cl.pch j q }
  else if 0x7A000 ≤ off && off < 0x7A020 then
    let j := (off - 0x7A000) / 8
    let w := vget (dieOf s dk).vf j (VfRegion.reset j)
    if overtaken s w k then s
    else writeVfr (setDie s dk { dieOf s dk with vf := vset (dieOf s dk).vf j { w with req := (s.now, dieIndex s k) } }) dk j n
  else if 0x7B000 ≤ off && off < 0x7C000 && off % 16 == 0 then
    let d := dieOf s dk
    let g := (off - 0x7B000) / 16
    let b := tget d.branch Branch.reset g
    let e := { b with v := bitAt n 63, seg := n.extractLsb' 51 12, nmem := bits n 50 40 }
    setDie s dk { d with branch := tput d.branch g e }
  else if 0x7C000 ≤ off && off < 0x7E000 then
    let g := (off - 0x7C000) / 32
    match off % 32 / 8 with
    | 0 => writeGroup s g false n
    | 1 => writeGroup s g true n
    | 2 => if bitAt (v &&& m) 29 then setGroup s g { groupOf s g with fault := false } else s
    | _ => s
  else s
/-- A write to an aligned 8-byte word of the control range; m is 1 in the bits of the bytes written. -/
def writeWord (s : State) (k off : Nat) (m v : W64) : State :=
  if 0x79000 ≤ off && off < 0x79800 then
    (List.range 8).foldl (fun s i =>
      if bits m (8 * i + 7) (8 * i) != 0 then writeRoute s k (off - 0x79000 + i) (bits v (8 * i + 7) (8 * i)) else s) s
  else match reg64 s k off with
    | some old => writeReg64 s k off old m v
    | none =>
      let s := if bits m 31 0 != 0 then writeReg32 s k off (m.extractLsb' 0 32) (v.extractLsb' 0 32) else s
      if bits m 63 32 != 0 then writeReg32 s k (off + 4) (m.extractLsb' 32 32) (v.extractLsb' 32 32) else s
/-- Bytes written to the control range, gathered into the words that hold them. -/
def writeRegBytes (s : State) (k : Nat) (bs : List (Nat × Byte)) : State :=
  let words := (bs.map (fun b => b.1 / 8 * 8)).eraseDups
  words.foldl (fun s off =>
    let here := bs.filter (fun b => b.1 / 8 * 8 == off)
    let m := here.foldl (fun (a : W64) b => a ||| (0xFF#64 <<< (8 * (b.1 % 8)))) 0
    let v := here.foldl (fun (a : W64) b => putBits a (8 * (b.1 % 8) + 7) (8 * (b.1 % 8)) b.2.toNat) 0
    writeWord s k off m v) s

end Sys2Proof.Machine
end

