-- ==== Sys2Proof/Machine/Operands.lean ====
section
/-! DEFINITION. Operand ports: reading every source form, writing every destination form, the sideband of a pushed token under
its tag action (01_encoding, R28 to R34), and the masked destination of the vector pipe (04_core_compute, R113). -/
namespace Sys2Proof.Machine

/-- A sideband (R31). -/
abbrev Sideband := BitVec 40
/-- The fields that a tag action passes on: fmt, h, t, e, d and scl (R32, R33). -/
def sbBase (sb : Sideband) : Sideband := sb &&& 0x7FFFF803FF#40
/-- The sideband of a pushed token: the tag action on the bases of srcA and srcB, with FMT setting the opcode's result type;
fm, ctx and wd are the port's (R32, R33). -/
def sbPush (t : Tag) (rtype : BitVec 3) (a b : Sideband) (fm : Bool) (cx : Nat) (wd : Bool) : Sideband :=
  let a := sbBase a
  let base : Sideband :=
    match t.toNat with
    | 1 => 0
    | 2 => putBits a 4 3 1
    | 3 => putBits a 4 3 2
    | 4 => putBits a 4 3 3
    | 5 => putBits a 5 5 1
    | 6 => putBits a 6 6 1
    | 7 => putBits a 7 7 1
    | 8 => putBits a 8 8 1
    | 9 => putBits a 9 9 1
    | 10 => putBits a 2 0 rtype.toNat
    | 11 => sbBase b
    | _ => a
  putBits (putBits (putBits base 10 10 (ofBool fm)) 12 11 cx) 39 39 (ofBool wd)
/-- KEEPIN: port sources are peeked (R29). -/
def keepIn (t : Tag) : Bool := t == 0xC#4

/-- The next token of an input port 0 mn to 4 rp that the body has not popped: popped with the check of its fm, or peeked
without one (R29, R59; 03_core_numbers, R101). Records of the handler chain carry no check: RT 63 on rp at a handler. -/
def takeToken (s : State) (p : Nat) (keep : Bool) : Body Token := do
  let w ← get
  let x := bodyCtx s
  match (vget x.inq p []).drop (vget w.pops p 0) with
  | [] => illegal
  | tok :: _ =>
    if keep then pure tok
    else
      let exempt := p == 4 && bits tok.sb 18 13 == 63 && (chainPosition s s.stage.core s.stage.cx.val).isSome
      need (exempt || bitAt tok.sb 10 == x.fm) cFmtMode 0
      set { w with pops := vset w.pops p (vget w.pops p 0 + 1) }
      pure tok
/-- The number of the receive slot whose block an optical port o0 or o1 has at its head for this body
(11_package_cascade, R305, R307); the pop checks the block's fm. -/
def takeBlock (s : State) (o : Nat) (keep : Bool) : Body (Nat × Block) := do
  let w ← get
  let x := bodyCtx s
  match (vget x.blocks o []).drop (vget w.pops (5 + o) 0) with
  | [] => illegal
  | n :: _ =>
    match (vget (bodyCore s).rx n RxSlot.reset).blk with
    | none => illegal
    | some b =>
      if keep then pure (n, b)
      else
        need (b.fm == x.fm) cFmtMode 0
        set { w with pops := vset w.pops (5 + o) (vget w.pops (5 + o) 0 + 1) }
        pure (n, b)
/-- The sideband of a block as a token (11_package_cascade, R300). -/
def blockSb (b : Block) (cx : Nat) : Sideband :=
  BitVec.ofNat 40 (2 ^ 39 + b.scl.toNat * 2 ^ 19 + cx * 2 ^ 11 + ofBool b.fm * 2 ^ 10 + ofBool b.last * 2 ^ 5 + 24 + b.fmt.toNat)
/-- What a direct read of a block returns: its first 64 bytes, or in deposit mode where the block lies and its length
(11_package_cascade, R307). -/
def blockValue (c : Core) (n : Nat) (b : Block) : V512 :=
  let g := vget c.cgp (n / 4) 0
  if bitAt g 31 then ofScalar (BitVec.ofNat 64 (b.len * 2 ^ 32 + (256 * bits g 29 19 + 8192 * (n % 4)) % 2 ^ 19))
  else b.data.headD 0
/-- A stream read: the next fetched element of a bound read stream (R28; 05_core_memory, R163). -/
def takeElement (s : State) (q : Nat) : Body Token := do
  let w ← get
  let st := vget (bodyCtx s).q q Stream.reset
  if st.bound && !st.dir then
    match st.fetched.drop (vget w.adv q 0) with
    | [] => illegal
    | tok :: _ =>
      set { w with adv := vset w.adv q (vget w.adv q 0 + 1) }
      pure tok
  else illegal
/-- The rule's next literal; past entry 63 it aborts with RANGE (R27). -/
def takeLit (s : State) : Body W64 := do
  let w ← get
  let n := bits w.hdrA 21 16 + w.lits
  need (n ≤ 63) cRange (BitVec.ofNat 64 n)
  set { w with lits := w.lits + 1 }
  pure (tableWord (bodyCore s) s.stage.cx.val (0x600 + 8 * n))

/-- A vector-class source with its base sideband (R28, R30). -/
def readV (s : State) (c : Opd) (keep : Bool) : Body (V512 × Sideband) := do
  let n := c.toNat
  if n < 16 then
    let w ← get
    pure (vget w.v n 0, 0)
  else if n < 21 then
    let t ← takeToken s (n - 16) keep
    pure (t.pay, t.sb)
  else if n == 22 || n == 23 then
    let b ← takeBlock s (n - 22) keep
    pure (blockValue (bodyCore s) b.1 b.2, blockSb b.2 ((bodyCtx s).lc % 4))
  else if 24 ≤ n && n < 28 then
    let t ← takeElement s (n - 24)
    pure (t.pay, t.sb)
  else if n == 28 then
    let v ← takeLit s
    pure (ofLanes (fun _ => v.extractLsb' 0 32), 0)
  else if n == 31 then pure (0, 0)
  else illegal
/-- A scalar-class source with its base sideband (R28, R30). -/
def readS (s : State) (c : Opd) (keep : Bool) : Body (W64 × Sideband) := do
  let n := c.toNat
  if n < 16 then
    let w ← get
    pure (vget w.s n 0, 0)
  else if n == 28 then
    let v ← takeLit s
    pure (v, 0)
  else if n == 29 then
    let w ← get
    pure (w.tb, 0)
  else if n == 30 then
    let w ← get
    pure (statusWord (bodyCtx s) w.flags, 0)
  else
    let (v, sb) ← readV s c keep
    pure (loScalar v, sb)

/-- A token pushed on mn, me, ms or mw: one credit of the port's binding and one entry (R28; 02_rule, R57, R59, R68). -/
def pushToken (s : State) (p : Nat) (v : V512) (sb : Nat → Sideband) : Body Unit := do
  let w ← get
  match vget (bodyCtx s).binds p none with
  | none => illegal
  | some b =>
    need (vget w.push p 0 < b.credits) cIllegalOperand 0
    entry
    let tok : Token := { sb := sb b.cx, pay := v, src := some ⟨s.stage.core, s.stage.cx.val, p⟩ }
    modify fun w => { w with push := vset w.push p (vget w.push p 0 + 1), effects := w.effects ++ [.push p tok] }
/-- An element written through a bound write stream with a free place: one entry (05_core_memory, R163). -/
def writeElement (s : State) (q : Nat) (v : V512) : Body Unit := do
  let w ← get
  let st := vget (bodyCtx s).q q Stream.reset
  need (st.bound && st.dir && st.queued.length + vget w.wr q 0 < 64) cIllegalOperand 0
  entry
  modify fun w => { w with wr := vset w.wr q (vget w.wr q 0 + 1), effects := w.effects ++ [.elem q v] }

/-- A scalar-class destination (R28). -/
def writeS (s : State) (c : Opd) (v : W64) (sb : Bool → Nat → Sideband) : Body Unit := do
  let n := c.toNat
  if n < 16 then stageS n v
  else if n < 20 then pushToken s (n - 16) (ofScalar v) (sb false)
  else if 24 ≤ n && n < 28 then writeElement s (n - 24) (ofScalar v)
  else if n == 31 then pure ()
  else illegal
/-- A vector-class destination (R28). -/
def writeV (s : State) (c : Opd) (v : V512) (sb : Bool → Nat → Sideband) : Body Unit := do
  let n := c.toNat
  if n < 16 then stageV n v
  else if n < 20 then pushToken s (n - 16) v (sb true)
  else if 24 ≤ n && n < 28 then writeElement s (n - 24) v
  else if n == 31 then pure ()
  else illegal

/-- How a pushed result's sideband is formed: the tag action, the opcode's result type, the bases of srcA and srcB. -/
structure TagUse where
  t : Tag
  rtype : BitVec 3
  a : Sideband
  b : Sideband

/-- The sideband of a result pushed by this context. -/
def TagUse.sb (u : TagUse) (s : State) (wd : Bool) (cx : Nat) : Sideband :=
  sbPush u.t u.rtype u.a u.b (bodyCtx s).fm cx wd

/-- A scalar result to dstA and dstB (R22). -/
def resultS (s : State) (d e : Opd) (u : TagUse) (v : W64) : Body Unit := do
  writeS s d v (u.sb s)
  writeS s e v (u.sb s)
/-- A vector result to dstA and dstB (R22). -/
def resultV (s : State) (d e : Opd) (u : TagUse) (v : V512) : Body Unit := do
  writeV s d v (u.sb s)
  writeV s e v (u.sb s)

/-- The lanes of a masked result: computed where lm is set, the old lanes of a register destination elsewhere, else zero
(04_core_compute, R113). -/
def maskedLanes (w : Work) (d : Opd) (part : Nat → Bool) (f : Nat → W32) : V512 :=
  ofLanes (fun i => if part i then f i else if d.toNat < 16 then lane (vget w.v d.toNat 0) i else 0)

/-- Whether the command port has a free entry for one command more of this body (02_rule, R57; 05_core_memory, R155). -/
def takeCp (s : State) : Body Unit := do
  let w ← get
  need ((bodyCtx s).cpUsed + vget w.push 4 0 < 8) cIllegalOperand 0
  entry
  modify fun w => { w with push := vset w.push 4 (vget w.push 4 0 + 1) }

end Sys2Proof.Machine
end

