-- ==== Sys2Proof/Machine/Scalar.lean ====
section
/-! DEFINITION. The scalar ALU's integer instructions and address arithmetic (04_core_compute, R117 to R123), one cycle each
unless R114 says otherwise. -/
namespace Sys2Proof.Machine

/-! ## Shapes shared by the family -/

/-- A format P instruction of one scalar source. -/
def scalar1 (s : State) (opc : BitVec 8) (cost : Nat) (a d e : Opd) (t : Tag) (f : W64 → W64) : Outcome :=
  runBody s opc .plain 1 cost do
    let (x, sa) ← readS s a (keepIn t)
    let v := f x
    checkedScalar s v
    resultS s d e ⟨t, 0, sa, 0⟩ v
/-- A format P instruction of two scalar sources, srcA read first (01_encoding, R29). -/
def scalar2 (s : State) (opc : BitVec 8) (cost : Nat) (a b d e : Opd) (t : Tag) (f : W64 → W64 → W64) : Outcome :=
  runBody s opc .plain 1 cost do
    let (x, sa) ← readS s a (keepIn t)
    let (y, sb) ← readS s b (keepIn t)
    let v := f x y
    checkedScalar s v
    resultS s d e ⟨t, 0, sa, sb⟩ v
/-- A format I instruction of one scalar source: no tag action, PASS (01_encoding, R19). -/
def scalarI (s : State) (opc : BitVec 8) (a d : Opd) (f : W64 → W64) : Outcome :=
  runBody s opc .plain 1 1 do
    let (x, sa) ← readS s a false
    let v := f x
    checkedScalar s v
    resultS s d 31#5 ⟨0, 0, sa, 0⟩ v

/-- 1 or 0 as a scalar. -/
def truth (b : Bool) : W64 := if b then 1 else 0
/-- A signed value clamped to 64 bits. -/
def clamp64 (x : Int) : W64 :=
  BitVec.ofInt 64 (if x < -(2 ^ 63) then -(2 ^ 63) else if 2 ^ 63 - 1 < x then 2 ^ 63 - 1 else x)
/-- Signed division truncating toward zero (R118). -/
def divS (a b : W64) : W64 := if b == 0 then 0xFFFFFFFFFFFFFFFF else BitVec.ofInt 64 (a.toInt.tdiv b.toInt)
/-- Unsigned division (R118). -/
def divU (a b : W64) : W64 := if b == 0 then 0xFFFFFFFFFFFFFFFF else BitVec.ofNat 64 (a.toNat / b.toNat)
/-- Signed remainder (R118). -/
def remS (a b : W64) : W64 := if b == 0 then a else BitVec.ofInt 64 (a.toInt.tmod b.toInt)
/-- Unsigned remainder (R118). -/
def remU (a b : W64) : W64 := if b == 0 then a else BitVec.ofNat 64 (a.toNat % b.toNat)
/-- The shift count of a register: bits [5:0] (R117). -/
def count6 (b : W64) : Nat := bits b 5 0
/-- Leading zero bits, 64 for 0 (R117). -/
def leadingZeros (x : W64) : W64 := if x == 0 then 64 else BitVec.ofNat 64 (63 - Nat.log2 x.toNat)
/-- Trailing zero bits, 64 for 0 (R117). -/
def trailingZeros (x : W64) : W64 :=
  BitVec.ofNat 64 (((List.range 64).find? (fun i => x.toNat.testBit i)).getD 64)
/-- The number of one bits (R117). -/
def onesCount (x : W64) : W64 := BitVec.ofNat 64 ((List.range 64).foldl (fun n i => n + ofBool (x.toNat.testBit i)) 0)
/-- The field of b inserted into old by BFI: width b[12:6], low bit b[5:0], field bits past 63 dropped (R120). -/
def insertField (a b old : W64) : W64 :=
  let w := bits b 12 6
  let lo := bits b 5 0
  if w == 0 then old
  else
    let m : W64 := BitVec.ofNat 64 ((2 ^ min w 64 - 1) * 2 ^ lo)
    (old &&& ~~~m) ||| (BitVec.ofNat 64 (a.toNat * 2 ^ lo) &&& m)

/-! ## Moves and immediates (R117) -/

/-- NOP: no result, no read. -/
def execNop (_t : Tag) (s : State) : Outcome := runBody s 0x00 .plain 1 1 (pure ())
/-- MOV: the value moved is checked by its carried residue. -/
def execMov (a d e : Opd) (t : Tag) (s : State) : Outcome := scalar1 s 0x01 1 a d e t id
/-- MOVI. -/
def execMovi (d : Opd) (i : BitVec 14) (s : State) : Outcome := scalarI s 0x02 31#5 d (fun _ => i.signExtend 64)
/-- MOVSH. -/
def execMovsh (a d : Opd) (i : BitVec 14) (s : State) : Outcome :=
  scalarI s 0x03 a d (fun x => (x <<< 14) ||| i.zeroExtend 64)

/-! ## Arithmetic (R117, R118) -/

/-- ADD. -/
def execAdd (a b d e : Opd) (t : Tag) (s : State) : Outcome := scalar2 s 0x04 1 a b d e t (fun x y => x + y)
/-- ADDI. -/
def execAddi (a d : Opd) (i : BitVec 14) (s : State) : Outcome := scalarI s 0x05 a d (fun x => x + i.signExtend 64)
/-- SUB. -/
def execSub (a b d e : Opd) (t : Tag) (s : State) : Outcome := scalar2 s 0x06 1 a b d e t (fun x y => x - y)
/-- MUL: low half of the product. -/
def execMul (a b d e : Opd) (t : Tag) (s : State) : Outcome := scalar2 s 0x07 2 a b d e t (fun x y => x * y)
/-- MULH: high half of the signed product. -/
def execMulh (a b d e : Opd) (t : Tag) (s : State) : Outcome :=
  scalar2 s 0x08 2 a b d e t (fun x y => BitVec.ofInt 64 (x.toInt * y.toInt / 2 ^ 64))
/-- MULHU: high half of the unsigned product. -/
def execMulhu (a b d e : Opd) (t : Tag) (s : State) : Outcome :=
  scalar2 s 0x09 2 a b d e t (fun x y => BitVec.ofNat 64 (x.toNat * y.toNat / 2 ^ 64))
/-- DIV. -/
def execDiv (a b d e : Opd) (t : Tag) (s : State) : Outcome := scalar2 s 0x0A 8 a b d e t divS
/-- DIVU. -/
def execDivu (a b d e : Opd) (t : Tag) (s : State) : Outcome := scalar2 s 0x0B 8 a b d e t divU
/-- REM. -/
def execRem (a b d e : Opd) (t : Tag) (s : State) : Outcome := scalar2 s 0x0C 8 a b d e t remS
/-- REMU. -/
def execRemu (a b d e : Opd) (t : Tag) (s : State) : Outcome := scalar2 s 0x0D 8 a b d e t remU

/-! ## Bitwise operations and shifts (R117) -/

/-- AND. -/
def execAnd (a b d e : Opd) (t : Tag) (s : State) : Outcome := scalar2 s 0x0E 1 a b d e t (fun x y => x &&& y)
/-- ANDI. -/
def execAndi (a d : Opd) (i : BitVec 14) (s : State) : Outcome := scalarI s 0x0F a d (fun x => x &&& i.zeroExtend 64)
/-- OR. -/
def execOr (a b d e : Opd) (t : Tag) (s : State) : Outcome := scalar2 s 0x10 1 a b d e t (fun x y => x ||| y)
/-- ORI. -/
def execOri (a d : Opd) (i : BitVec 14) (s : State) : Outcome := scalarI s 0x11 a d (fun x => x ||| i.zeroExtend 64)
/-- XOR. -/
def execXor (a b d e : Opd) (t : Tag) (s : State) : Outcome := scalar2 s 0x12 1 a b d e t (fun x y => x ^^^ y)
/-- XORI. -/
def execXori (a d : Opd) (i : BitVec 14) (s : State) : Outcome := scalarI s 0x13 a d (fun x => x ^^^ i.zeroExtend 64)
/-- SHL. -/
def execShl (a b d e : Opd) (t : Tag) (s : State) : Outcome := scalar2 s 0x14 1 a b d e t (fun x y => x <<< count6 y)
/-- SHLI. -/
def execShli (a d : Opd) (i : BitVec 6) (s : State) : Outcome := scalarI s 0x15 a d (fun x => x <<< i.toNat)
/-- SHR. -/
def execShr (a b d e : Opd) (t : Tag) (s : State) : Outcome := scalar2 s 0x16 1 a b d e t (fun x y => x >>> count6 y)
/-- SHRI. -/
def execShri (a d : Opd) (i : BitVec 6) (s : State) : Outcome := scalarI s 0x17 a d (fun x => x >>> i.toNat)
/-- SAR. -/
def execSar (a b d e : Opd) (t : Tag) (s : State) : Outcome :=
  scalar2 s 0x18 1 a b d e t (fun x y => x.sshiftRight (count6 y))
/-- SARI. -/
def execSari (a d : Opd) (i : BitVec 6) (s : State) : Outcome := scalarI s 0x19 a d (fun x => x.sshiftRight i.toNat)
/-- ROL. -/
def execRol (a b d e : Opd) (t : Tag) (s : State) : Outcome :=
  scalar2 s 0x1A 1 a b d e t (fun x y => x.rotateLeft (count6 y))
/-- CLZ. -/
def execClz (a d e : Opd) (t : Tag) (s : State) : Outcome := scalar1 s 0x1B 1 a d e t leadingZeros
/-- CTZ. -/
def execCtz (a d e : Opd) (t : Tag) (s : State) : Outcome := scalar1 s 0x1C 1 a d e t trailingZeros
/-- POPC. -/
def execPopc (a d e : Opd) (t : Tag) (s : State) : Outcome := scalar1 s 0x1D 1 a d e t onesCount

/-! ## Minimum, maximum, saturation and compares (R117) -/

/-- MIN, signed. -/
def execMin (a b d e : Opd) (t : Tag) (s : State) : Outcome :=
  scalar2 s 0x1E 1 a b d e t (fun x y => if x.toInt ≤ y.toInt then x else y)
/-- MAX, signed. -/
def execMax (a b d e : Opd) (t : Tag) (s : State) : Outcome :=
  scalar2 s 0x1F 1 a b d e t (fun x y => if x.toInt ≤ y.toInt then y else x)
/-- MINU. -/
def execMinu (a b d e : Opd) (t : Tag) (s : State) : Outcome :=
  scalar2 s 0x20 1 a b d e t (fun x y => if x.toNat ≤ y.toNat then x else y)
/-- MAXU. -/
def execMaxu (a b d e : Opd) (t : Tag) (s : State) : Outcome :=
  scalar2 s 0x21 1 a b d e t (fun x y => if x.toNat ≤ y.toNat then y else x)
/-- ADDSAT. -/
def execAddsat (a b d e : Opd) (t : Tag) (s : State) : Outcome :=
  scalar2 s 0x22 1 a b d e t (fun x y => clamp64 (x.toInt + y.toInt))
/-- SUBSAT. -/
def execSubsat (a b d e : Opd) (t : Tag) (s : State) : Outcome :=
  scalar2 s 0x23 1 a b d e t (fun x y => clamp64 (x.toInt - y.toInt))
/-- SEQ. -/
def execSeq (a b d e : Opd) (t : Tag) (s : State) : Outcome := scalar2 s 0x24 1 a b d e t (fun x y => truth (x == y))
/-- SNE. -/
def execSne (a b d e : Opd) (t : Tag) (s : State) : Outcome := scalar2 s 0x25 1 a b d e t (fun x y => truth (x != y))
/-- SLT, signed. -/
def execSlt (a b d e : Opd) (t : Tag) (s : State) : Outcome :=
  scalar2 s 0x26 1 a b d e t (fun x y => truth (x.toInt < y.toInt))
/-- SLTU. -/
def execSltu (a b d e : Opd) (t : Tag) (s : State) : Outcome :=
  scalar2 s 0x27 1 a b d e t (fun x y => truth (x.toNat < y.toNat))
/-- SLE, signed. -/
def execSle (a b d e : Opd) (t : Tag) (s : State) : Outcome :=
  scalar2 s 0x28 1 a b d e t (fun x y => truth (x.toInt ≤ y.toInt))
/-- SLEU. -/
def execSleu (a b d e : Opd) (t : Tag) (s : State) : Outcome :=
  scalar2 s 0x29 1 a b d e t (fun x y => truth (x.toNat ≤ y.toNat))
/-- SEL: the condition register stands in the dstB field; z reads 0 (R119). -/
def execSel (a b d e : Opd) (t : Tag) (s : State) : Outcome :=
  runBody s 0x2A .plain 1 1 do
    let (x, sa) ← readS s a (keepIn t)
    let (y, sb) ← readS s b (keepIn t)
    let (c, _) ← readS s e false
    let v := if c != 0 then x else y
    checkedScalar s v
    resultS s d 31#5 ⟨t, 0, sa, sb⟩ v

/-! ## Extension and bit fields (R120) -/

/-- SEXT. -/
def execSext (a d : Opd) (i : BitVec 7) (s : State) : Outcome := scalarI s 0x2B a d (fun x => sext64 x.toNat i.toNat)
/-- ZEXT. -/
def execZext (a d : Opd) (i : BitVec 7) (s : State) : Outcome := scalarI s 0x2C a d (fun x => zext64 x.toNat i.toNat)
/-- BFX: imm14 holds sx in [13], w in [12:6] and lo in [5:0]. -/
def execBfx (a d : Opd) (i : BitVec 14) (s : State) : Outcome :=
  scalarI s 0x2D a d (fun x =>
    let f := x.toNat / 2 ^ bits i 5 0
    if bitAt i 13 then sext64 f (bits i 12 6) else zext64 f (bits i 12 6))
/-- BFI: in place; dstB receives the new value (R112). -/
def execBfi (a b d e : Opd) (t : Tag) (s : State) : Outcome :=
  runBody s 0x2E .plain 1 1 do
    let (x, sa) ← readS s a (keepIn t)
    let (y, sb) ← readS s b (keepIn t)
    let w ← get
    let v := insertField x y (vget w.s d.toNat 0)
    checkedScalar s v
    resultS s d e ⟨t, 0, sa, sb⟩ v

/-! ## Address arithmetic (R121 to R123; 05_core_memory, R153) -/

/-- XYADR: an absolute mesh address; X past 287 or an offset past the local space aborts with RANGE, INFO the operand that
failed. -/
def execXyadr (a b d e : Opd) (t : Tag) (s : State) : Outcome :=
  runBody s 0x30 .plain 1 1 do
    let (x, sa) ← readS s a (keepIn t)
    let (y, sb) ← readS s b (keepIn t)
    need (bits x 16 8 ≤ 287) cRange x
    need (y.toNat < 0x80000) cRange y
    let v := BitVec.ofNat 64 (bits x 16 8 * 2 ^ 52 + bits x 7 0 * 2 ^ 44 + y.toNat)
    checkedScalar s v
    resultS s d e ⟨t, 0, sa, sb⟩ v
/-- RELADR: a relative mesh address. -/
def execReladr (a b d e : Opd) (t : Tag) (s : State) : Outcome :=
  runBody s 0x31 .plain 1 1 do
    let (x, sa) ← readS s a (keepIn t)
    let (y, sb) ← readS s b (keepIn t)
    need (y.toNat < 0x80000) cRange y
    let v := BitVec.ofNat 64 (2 ^ 61 + bits x 16 8 * 2 ^ 52 + bits x 7 0 * 2 ^ 44 + y.toNat)
    checkedScalar s v
    resultS s d e ⟨t, 0, sa, sb⟩ v
/-- The coordinate word of the logical core that a context stands for (R121, R122). RX and RY of a context of copy B under a duplicate
placement are taken from copy A's origin too, 0 where copy B lies left of it or above it (DESIGN CHOICE, log entry 88). -/
def coordinateWord (s : State) (x : Ctx) : W64 :=
  let r := regionOf s x.region
  BitVec.ofNat 64 ((x.lx - r.x0) % 512 * 2 ^ 40 + (x.ly - r.y0) % 256 * 2 ^ 32 + x.lx * 2 ^ 8 + x.ly)
/-- MYXY. -/
def execMyxy (d e : Opd) (t : Tag) (s : State) : Outcome :=
  scalar1 s 0x32 1 31#5 d e t (fun _ => coordinateWord s (bodyCtx s))
/-- A field of a mesh address (R122). -/
def addressField (a : W64) (f : BitVec 2) : W64 :=
  match f.toNat with
  | 0 => if bits a 63 62 != 0 then 0 else if bitAt a 61 then sext64 (bits a 60 52) 9 else zext64 (bits a 60 52) 9
  | 1 => if bits a 63 62 != 0 then 0 else if bitAt a 61 then sext64 (bits a 51 44) 8 else zext64 (bits a 51 44) 8
  | 2 => if bits a 63 62 != 0 then 0 else zext64 a.toNat 19
  | _ => BitVec.ofNat 64 (bits a 63 62)
/-- ADRX. -/
def execAdrx (a d : Opd) (i : BitVec 2) (s : State) : Outcome := scalarI s 0x33 a d (fun x => addressField x i)
/-- The steps of ADRCHK for n bytes at a from a context: the resolved address, or none (R123). -/
def resolveAddress (x : Ctx) (a : W64) (n : Nat) : Option W64 :=
  match bits a 63 62 with
  | 0 =>
    let rel := bitAt a 61
    let px : Int := if rel then Int.ofNat x.lx + (BitVec.ofNat 9 (bits a 60 52)).toInt else Int.ofNat (bits a 60 52)
    let py : Int := if rel then Int.ofNat x.ly + (BitVec.ofNat 8 (bits a 51 44)).toInt else Int.ofNat (bits a 51 44)
    let off := bits a 18 0
    let lim := if x.priv then 0x80000 else 0x60000
    if bits a 43 19 == 0 && 0 ≤ px && px ≤ 287 && 0 ≤ py && py ≤ 255 && 1 ≤ n && off + n ≤ lim then
      some (BitVec.ofNat 64 (px.toNat * 2 ^ 52 + py.toNat * 2 ^ 44 + off))
    else none
  | 1 => if bits a 61 48 == 0 && 1 ≤ n && bits a 47 0 + n ≤ 2 ^ 48 then some a else none
  | 2 => if x.priv && 1 ≤ n then some a else none
  | _ => none
/-- ADRCHK: it never aborts. -/
def execAdrchk (a b d e : Opd) (t : Tag) (s : State) : Outcome :=
  scalar2 s 0x34 1 a b d e t (fun x y => (resolveAddress (bodyCtx s) x y.toNat).getD 0xFFFFFFFFFFFFFFFF)

end Sys2Proof.Machine
end

