-- ==== Sys2Proof/Machine/LocalMem.lean ====
section
/-! DEFINITION. Local memory as a body sees it: the checks of an access, reads that forward the body's stores, staged stores, and
the local load and store instructions (05_core_memory, R146 to R152; 02_rule, R66). -/
namespace Sys2Proof.Machine

/-- Whether the memory classes of the rule hold the 256-byte block of an offset: the union of the classes of mcmask
(02_rule, R54, R66). -/
def classHolds (x : Ctx) (hdrB : W64) (off : Nat) : Bool :=
  (List.range 8).any (fun k =>
    let m := vget x.mcls k 0
    bitAt hdrB (40 + k) && bitAt m 31 && bits m 21 11 ≤ 1535 && bits m 10 0 ≤ off / 256 && off / 256 ≤ bits m 21 11)
/-- The class check of a range: bytes at 0x6_0000 and above lie in no class, and are exempt in a rule without classes (R66,
R150). -/
def classOk (x : Ctx) (hdrB : W64) (off n : Nat) : Bool :=
  if bits hdrB 47 40 == 0 then 0x60000 ≤ off
  else off + n ≤ 0x60000 &&
    (List.range ((off + n + 255) / 256 - off / 256)).all (fun i => classHolds x hdrB (256 * (off / 256 + i)))
/-- The checks of a local access at its address generation, in order: RANGE, PRIV, ALIGN, CLASS_VIOLATION (R150); then a data
byte past the window of the logical core aborts with RANGE (12_package_launch, R329). INFO is the offset. -/
def checkAccess (s : State) (ea : W64) (n align : Nat) : Body Unit := do
  let x := bodyCtx s
  let w ← get
  let off := ea.toNat
  need (off < 0x80000) cRange ea
  need (off + n ≤ 0x60000 || x.priv) cPriv ea
  need (off % align == 0) cAlign ea
  need (classOk x w.hdrB off n) cClass ea
  need (0x60000 ≤ off || off + n ≤ (windowOf s x.lx x.ly).2) cRange ea

/-- The physical offset of a byte of a body's access: through the window of the logical core (12_package_launch, R329), and
through the publish windows with SEL as at cycle 0 (05_core_memory, R171, R264). -/
def bodyOffset (s : State) (off : Nat) : Nat :=
  if off < 0x60000 then
    let x := bodyCtx s
    windowOffset (bodyCore s) ((windowOf s x.lx x.ly).1 + off) false
  else off
/-- A byte as the body sees it: its own staged store, else the byte at cycle 0 (R150; 09_memory_model, R264). -/
def bodyByte (s : State) (w : Work) (off : Nat) : Byte :=
  let p := bodyOffset s off
  match w.bytes.find? (fun b => b.1 == p) with
  | some b => b.2
  | none => if p < 0x70000 then localByte (bodyCore s) p else regByte s s.stage.core p
/-- Whether a range holds an 8-byte word with an uncorrectable error (R147). -/
def rangeBad (s : State) (off n : Nat) : Bool :=
  (List.range n).any (fun i => off + i < 0x60000 && (bodyCore s).eccUe.contains (bodyOffset s (off + i) / 8))
/-- The 8-byte words of a range that hold a correctable error (R147). -/
def correctedWords (s : State) (off n : Nat) : Nat :=
  (((List.range n).map (fun i => bodyOffset s (off + i) / 8)).eraseDups.filter (fun w => (bodyCore s).eccCorr.contains w)).length
/-- n bytes of local memory: LocalRead of R14; an uncorrectable error aborts with LOCAL_ECC_UE (R147). -/
def localRead (s : State) (off n : Nat) : Body Nat := do
  let w ← get
  need (!rangeBad s off n) cEccUe 0
  modify fun w => { w with corr := w.corr + correctedWords s off n }
  pure (leNat ((List.range n).map (fun i => bodyByte s w (off + i))))
/-- Bytes of one store instruction staged: one entry of the commit buffer (R68, R150). -/
def localWrite (s : State) (bs : List (Nat × Byte)) : Body Unit := do
  entry
  let ps := bs.map (fun b => (bodyOffset s b.1, b.2))
  modify fun w => { w with bytes := ps.reverse ++ w.bytes, effects := w.effects ++ [.store ps] }

/-- The effective offset a + off (R150). -/
def effective (a : W64) (off : BitVec 20) : W64 := a + off.signExtend 64
/-- LD: zero-extended (R151). -/
def execLd (a d e : Opd) (t : Tag) (xw : BitVec 2) (xoff : BitVec 20) (s : State) : Outcome :=
  runBody s 0xC0 .plain 2 2 do
    let (x, sa) ← readS s a (keepIn t)
    let ea := effective x xoff
    checkedAddress s ea
    checkAccess s ea (2 ^ xw.toNat) (2 ^ xw.toNat)
    let v ← localRead s ea.toNat (2 ^ xw.toNat)
    resultS s d e ⟨t, 0, sa, 0⟩ (BitVec.ofNat 64 v)
/-- ST (R151). -/
def execSt (a b : Opd) (t : Tag) (xw : BitVec 2) (xoff : BitVec 20) (s : State) : Outcome :=
  runBody s 0xC1 .plain 2 1 do
    let (x, _) ← readS s a (keepIn t)
    let (y, _) ← readS s b (keepIn t)
    let ea := effective x xoff
    checkedAddress s ea
    checkAccess s ea (2 ^ xw.toNat) (2 ^ xw.toNat)
    localWrite s (placed ea.toNat (leBytes (2 ^ xw.toNat) y.toNat))
/-- STN: one 4-bit element; the other half of the byte stays as it stands at the commit (R148, R151). -/
def execStn (a b : Opd) (t : Tag) (xh : BitVec 1) (xoff : BitVec 20) (s : State) : Outcome :=
  runBody s 0xC2 .plain 2 1 do
    let (x, _) ← readS s a (keepIn t)
    let (y, _) ← readS s b (keepIn t)
    let ea := effective x xoff
    checkedAddress s ea
    checkAccess s ea 1 1
    let w ← get
    let old := bodyByte s w ea.toNat
    let v := if xh == 1 then putBits old 7 4 y.toNat else putBits old 3 0 y.toNat
    let at_ := bodyOffset s ea.toNat
    entry
    let e : Effect := .nibble at_ (xh == 1) (y.extractLsb' 0 4)
    modify fun w => { w with bytes := (at_, v) :: w.bytes, effects := w.effects ++ [e] }
/-- VLD (R151). -/
def execVld (a d e : Opd) (t : Tag) (xoff : BitVec 20) (s : State) : Outcome :=
  runBody s 0xC3 .plain 2 2 do
    let (x, sa) ← readS s a (keepIn t)
    let ea := effective x xoff
    checkedAddress s ea
    checkAccess s ea 64 64
    let v ← localRead s ea.toNat 64
    resultV s d e ⟨t, 0, sa, 0⟩ (BitVec.ofNat 512 v)
/-- VST; with M set only lanes whose lm bit is set are written (R151). -/
def execVst (a b : Opd) (t : Tag) (xm : BitVec 1) (xoff : BitVec 20) (s : State) : Outcome :=
  runBody s 0xC4 .plain 2 1 do
    let (x, _) ← readS s a (keepIn t)
    let (y, _) ← readV s b (keepIn t)
    let ea := effective x xoff
    checkedAddress s ea
    checkAccess s ea 64 64
    let w ← get
    let bs := placed ea.toNat (vBytes y)
    localWrite s (bs.filter (fun p => xm == 0 || bitAt w.lm ((p.1 - ea.toNat) / 4)))

/-- The lanes of a gather or scatter that take part, in order (R152). -/
def indexedLanes (w : Work) (m : BitVec 1) : List Nat := (List.range 16).filter (fun i => m == 0 || bitAt w.lm i)
/-- The address of a lane of a gather or scatter (R152). -/
def indexedAddress (a : W64) (off : BitVec 20) (idx : V512) (i : Nat) : W64 :=
  effective a off + (lane idx i).signExtend 64
/-- The checks of the lanes in lane order: the first failing lane aborts (R152). -/
def checkIndexed (s : State) (a : W64) (off : BitVec 20) (idx : V512) (size : Nat) : List Nat → Body Unit
  | [] => pure ()
  | i :: r => do
    let ea := indexedAddress a off idx i
    checked s 3 i (ea.toNat % 2 ^ 32)
    checkAccess s ea size size
    checkIndexed s a off idx size r
/-- VLDX: W 01 and 10 only (R152). -/
def execVldx (a b d e : Opd) (t : Tag) (xw : BitVec 2) (xm : BitVec 1) (xoff : BitVec 20) (s : State) : Outcome :=
  runBody s 0xC5 .plain 2 4 do
    need (xw == 1 || xw == 2) cIllegalOperand 0
    let size := 2 ^ xw.toNat
    let (x, sa) ← readS s a (keepIn t)
    let (idx, sb) ← readV s b (keepIn t)
    let w ← get
    let ls := indexedLanes w xm
    checkIndexed s x xoff idx size ls
    let at_ := fun i => (indexedAddress x xoff idx i).toNat
    need (ls.all (fun i => !rangeBad s (at_ i) size)) cEccUe 0
    modify fun w => { w with corr := w.corr + (ls.map (fun i => correctedWords s (at_ i) size)).sum }
    let val := fun i => leNat ((List.range size).map (fun k => bodyByte s w (at_ i + k)))
    resultV s d e ⟨t, 0, sa, sb⟩ (ofLanes (fun i => if ls.contains i then BitVec.ofNat 32 (val i) else 0))
/-- VSTX: data from srcB, indices from vIX; the lanes write in ascending order within one entry (R152). -/
def execVstx (a b : Opd) (t : Tag) (xw : BitVec 2) (xm : BitVec 1) (xix : BitVec 4) (xoff : BitVec 20) (s : State) : Outcome :=
  runBody s 0xC6 .plain 2 4 do
    need (xw == 1 || xw == 2) cIllegalOperand 0
    let size := 2 ^ xw.toNat
    let (x, _) ← readS s a (keepIn t)
    let (y, _) ← readV s b (keepIn t)
    let w ← get
    let idx := vget w.v xix.toNat 0
    let ls := indexedLanes w xm
    checkIndexed s x xoff idx size ls
    localWrite s (ls.flatMap (fun i => placed (indexedAddress x xoff idx i).toNat (leBytes size (lane y i).toNat)))

end Sys2Proof.Machine
end

