-- ==== Sys2Proof/Machine/Remote.lean ====
section
/-! DEFINITION. Remote reads, writes and atomics: the address of a remote access resolved and checked at issue, and the request
that leaves through the command port at commit (05_core_memory, R153 to R160; 13_package_memory, R354). -/
namespace Sys2Proof.Machine

/-- Whether a space 10 address of an access of n bytes keeps its row of R354. -/
def space10Ok (s : State) (a : W64) (n : Nat) : Bool :=
  match bits a 61 58 with
  | 0 => bits a 57 48 == 0
  | 1 => bits a 57 41 == 0 && bits a 40 0 + n ≤ 3 * 2 ^ 39
  | 2 => bits a 57 44 == 0 && bits a 43 0 + n ≤ Config.tier2Bytes
  | 3 => bits a 57 47 == 0 && bits a 29 19 == 0 && bits a 46 38 ≤ 311 && bits a 18 0 + n ≤ 0x80000 &&
    Config.selfTest (256 * bits a 46 38 + bits a 37 30)
  | 4 => bits a 57 54 == 0 && bits a 47 28 == 0 && bits a 27 0 + n ≤ (dieOf s (bits a 53 48)).p * 6291456
  | 5 => bits a 57 57 == 0
  | _ => false
/-- The resolved address of an access of n bytes: RANGE, or PRIV for what only a privileged context may reach (R154). -/
def remoteAddress (s : State) (a : W64) (n : Nat) : Body W64 := do
  let x := bodyCtx s
  match resolveAddress { x with priv := true } a n with
  | none => abortWith cRange a
  | some r =>
    let inner := bits r 63 62 == 2 || (bits r 63 62 == 0 && 0x60000 < bits r 18 0 + n)
    need (x.priv || !inner) cPriv a
    need (bits r 63 62 != 2 || space10Ok s r n) cRange a
    pure r
/-- A request staged: one cp entry, with the context's FM as the body reads it (R155, R156). -/
def stageRequest (s : State) (kind : ReqKind) (addr : W64) (rt : BitVec 6) (rpy : Bool) : Body Unit := do
  takeCp s
  let x := bodyCtx s
  let w ← get
  stage (.req { id := 0, core := s.stage.core, cx := s.stage.cx.val, kind := kind, addr := addr, rt := rt, rpy := rpy,
                fm := x.fm, priv := x.priv, queue := 0, fails := 0, org := ⟨w.rule, w.pc, w.opc⟩ })
/-- The address of a split-phase access: formed, resolved, and checked for its width (R156). -/
def splitAddress (s : State) (ea : W64) (size : Nat) : Body W64 := do
  checkedAddress s ea
  let r ← remoteAddress s ea size
  need (r.toNat % size == 0) cAlign r
  pure r

/-- RLD (R156). -/
def execRld (a : Opd) (t : Tag) (xw : BitVec 2) (xrt : BitVec 6) (xoff : BitVec 20) (s : State) : Outcome :=
  runBody s 0xC7 .plain 2 1 do
    let (x, _) ← readS s a (keepIn t)
    let r ← splitAddress s (effective x xoff) (2 ^ xw.toNat)
    stageRequest s (.read (2 ^ xw.toNat)) r xrt true
/-- RST (R156). -/
def execRst (a b : Opd) (t : Tag) (xw : BitVec 2) (xrt : BitVec 6) (xrpy : BitVec 1) (xoff : BitVec 20) (s : State) : Outcome :=
  runBody s 0xC8 .plain 2 1 do
    let (x, _) ← readS s a (keepIn t)
    let (y, _) ← readS s b (keepIn t)
    let r ← splitAddress s (effective x xoff) (2 ^ xw.toNat)
    stageRequest s (.write (2 ^ xw.toNat) (ofScalar y)) r xrt (xrpy == 1)
/-- RVLD (R156). -/
def execRvld (a : Opd) (t : Tag) (xrt : BitVec 6) (xoff : BitVec 20) (s : State) : Outcome :=
  runBody s 0xC9 .plain 2 1 do
    let (x, _) ← readS s a (keepIn t)
    let r ← splitAddress s (effective x xoff) 64
    stageRequest s (.read 64) r xrt true
/-- RVST (R156). -/
def execRvst (a b : Opd) (t : Tag) (xrt : BitVec 6) (xrpy : BitVec 1) (xoff : BitVec 20) (s : State) : Outcome :=
  runBody s 0xCA .plain 2 1 do
    let (x, _) ← readS s a (keepIn t)
    let (y, _) ← readV s b (keepIn t)
    let r ← splitAddress s (effective x xoff) 64
    stageRequest s (.write 64 y) r xrt (xrpy == 1)

/-- Whether a sub-operation has a width: FADD.F32 at 4 bytes, FADD.BF16 at 2, every other at 4 and 8 (R160). -/
def amoWidthOk (op : Nat) (w : BitVec 2) : Bool :=
  if op == 10 then w == 2 else if op == 11 then w == 1 else w == 2 || w == 3
/-- The shared steps of AMO: operand and compare value captured at issue (R160). -/
def runAmo (op : Nat) (cmp : Option (BitVec 4)) (a b : Opd) (t : Tag) (xw : BitVec 2) (xrt : BitVec 6) (xrpy : BitVec 1)
    (xoff : BitVec 15) (s : State) : Outcome :=
  runBody s 0xCB .plain 2 1 do
    need (amoWidthOk op xw) cIllegalOperand 0
    let (x, _) ← readS s a (keepIn t)
    let (y, _) ← readS s b (keepIn t)
    let w ← get
    let r ← splitAddress s (x + xoff.signExtend 64) (2 ^ xw.toNat)
    let c := match cmp with | some k => vget w.s k.toNat 0 | none => 0
    stageRequest s (.amo op (2 ^ xw.toNat) y c) r xrt (xrpy == 1)
/-- AMO.ADD (R160). -/
def execAmoAdd (a b : Opd) (t : Tag) (xw : BitVec 2) (xrt : BitVec 6) (xrpy : BitVec 1) (xoff : BitVec 15)
    (s : State) : Outcome := runAmo 0 none a b t xw xrt xrpy xoff s
/-- AMO.MIN (R160). -/
def execAmoMin (a b : Opd) (t : Tag) (xw : BitVec 2) (xrt : BitVec 6) (xrpy : BitVec 1) (xoff : BitVec 15)
    (s : State) : Outcome := runAmo 1 none a b t xw xrt xrpy xoff s
/-- AMO.MAX (R160). -/
def execAmoMax (a b : Opd) (t : Tag) (xw : BitVec 2) (xrt : BitVec 6) (xrpy : BitVec 1) (xoff : BitVec 15)
    (s : State) : Outcome := runAmo 2 none a b t xw xrt xrpy xoff s
/-- AMO.MINU (R160). -/
def execAmoMinu (a b : Opd) (t : Tag) (xw : BitVec 2) (xrt : BitVec 6) (xrpy : BitVec 1) (xoff : BitVec 15)
    (s : State) : Outcome := runAmo 3 none a b t xw xrt xrpy xoff s
/-- AMO.MAXU (R160). -/
def execAmoMaxu (a b : Opd) (t : Tag) (xw : BitVec 2) (xrt : BitVec 6) (xrpy : BitVec 1) (xoff : BitVec 15)
    (s : State) : Outcome := runAmo 4 none a b t xw xrt xrpy xoff s
/-- AMO.AND (R160). -/
def execAmoAnd (a b : Opd) (t : Tag) (xw : BitVec 2) (xrt : BitVec 6) (xrpy : BitVec 1) (xoff : BitVec 15)
    (s : State) : Outcome := runAmo 5 none a b t xw xrt xrpy xoff s
/-- AMO.OR (R160). -/
def execAmoOr (a b : Opd) (t : Tag) (xw : BitVec 2) (xrt : BitVec 6) (xrpy : BitVec 1) (xoff : BitVec 15)
    (s : State) : Outcome := runAmo 6 none a b t xw xrt xrpy xoff s
/-- AMO.XOR (R160). -/
def execAmoXor (a b : Opd) (t : Tag) (xw : BitVec 2) (xrt : BitVec 6) (xrpy : BitVec 1) (xoff : BitVec 15)
    (s : State) : Outcome := runAmo 7 none a b t xw xrt xrpy xoff s
/-- AMO.SWAP (R160). -/
def execAmoSwap (a b : Opd) (t : Tag) (xw : BitVec 2) (xrt : BitVec 6) (xrpy : BitVec 1) (xoff : BitVec 15)
    (s : State) : Outcome := runAmo 8 none a b t xw xrt xrpy xoff s
/-- AMO.CAS (R160). -/
def execAmoCas (a b : Opd) (t : Tag) (xw : BitVec 2) (xrt : BitVec 6) (xrpy : BitVec 1) (xcmp : BitVec 4) (xoff : BitVec 15)
    (s : State) : Outcome := runAmo 9 (some xcmp) a b t xw xrt xrpy xoff s
/-- AMO.FADD.F32 (R160). -/
def execAmoFaddF32 (a b : Opd) (t : Tag) (xw : BitVec 2) (xrt : BitVec 6) (xrpy : BitVec 1) (xoff : BitVec 15)
    (s : State) : Outcome := runAmo 10 none a b t xw xrt xrpy xoff s
/-- AMO.FADD.BF16 (R160). -/
def execAmoFaddBf16 (a b : Opd) (t : Tag) (xw : BitVec 2) (xrt : BitVec 6) (xrpy : BitVec 1) (xoff : BitVec 15)
    (s : State) : Outcome := runAmo 11 none a b t xw xrt xrpy xoff s

end Sys2Proof.Machine
end

