-- ==== Sys2Proof/Machine/Engine.lean ====
section
/-! DEFINITION. Streams bound and controlled, copies, publication and prefetch, as a body issues them (05_core_memory, R162, R165,
R170 to R173). -/
namespace Sys2Proof.Machine

/-- The bytes of an element: 1, 4, 8 or 64 (03_core_numbers, R91). -/
def elementSize (esz : BitVec 2) : Nat := match esz.toNat with | 0 => 1 | 1 => 4 | 2 => 8 | _ => 64
/-- A range of local bytes lies in the classes of the rule, block by block (02_rule, R54, R66). -/
def rangeInClasses (x : Ctx) (hdrB : W64) (lo hi : Int) : Bool :=
  0 ≤ lo && hi ≤ 0x60000 &&
    (List.range ((hi.toNat + 255) / 256 - lo.toNat / 256)).all (fun i => classHolds x hdrB (256 * (lo.toNat / 256 + i)))
/-- The least and the greatest offset of an element of a nest (R162). -/
def nestBounds (base : Nat) (cnt : List Nat) (str : List W32) : Int × Int :=
  (cnt.zip str).foldl
    (fun acc p =>
      let d := Int.ofNat (p.1 - 1) * p.2.toInt
      (acc.1 + min 0 d, acc.2 + max 0 d)) (Int.ofNat base, Int.ofNat base)
/-- Field k of a block of 4-byte words read as one number. -/
def word32 (blk k : Nat) : Nat := blk >>> (8 * k) % 2 ^ 32

/-- STREAM (R162). -/
def execStream (a d : Opd) (t : Tag) (xdir : BitVec 1) (xfmt : BitVec 3) (xesz : BitVec 2) (s : State) : Outcome :=
  runBody s 0xCC .plain 2 2 do
    let (x, _) ← readS s a (keepIn t)
    checkedAddress s x
    checkAccess s x 48 8
    let blk ← localRead s x.toNat 48
    let w ← get
    let size := elementSize xesz
    let base := word32 blk 0
    let cnt := (List.range 4).map (fun k => word32 blk (8 + 8 * k))
    let str := (List.range 4).map (fun k => BitVec.ofNat 32 (word32 blk (12 + 8 * k)))
    need (cnt.all (fun c => 1 ≤ c && c ≤ 65536) && word32 blk 4 == 0 && word32 blk 40 == 0 && word32 blk 44 == 0)
      cIllegalOperand 0
    need (base % size == 0) cAlign (BitVec.ofNat 64 base)
    match str.find? (fun v => v.toNat % size != 0) with
    | some v => abortWith cAlign (v.zeroExtend 64)
    | none => pure ()
    let (lo, hi) := nestBounds base cnt str
    checkedAddress s (BitVec.ofInt 64 lo)
    checkedAddress s (BitVec.ofInt 64 hi)
    need (rangeInClasses (bodyCtx s) w.hdrB lo (hi + Int.ofNat size)) cClass
      (if rangeInClasses (bodyCtx s) w.hdrB lo (lo + 1) then BitVec.ofInt 64 hi else BitVec.ofInt 64 lo)
    let at_ := fun k => cnt.getD k 1
    let by_ := fun k => str.getD k 0
    let st : Stream :=
      { Stream.reset with
        bound := true, dir := xdir == 1, fmt := xfmt, esz := xesz, block := x.toNat, base := base,
        cnt := #v[at_ 0, at_ 1, at_ 2, at_ 3], str := #v[by_ 0, by_ 1, by_ 2, by_ 3] }
    stage (.stream (d.toNat - 24) st)

/-- The shared steps of STRCTL: the effect on its stream is staged; an unbound stream aborts, but for UNBIND (R165). -/
def runStrctl (unbind : Bool) (e : Nat → Effect) (d : Opd) (s : State) : Outcome :=
  runBody s 0xCD .plain 2 1 do
    need (unbind || (vget (bodyCtx s).q (d.toNat - 24) Stream.reset).bound) cIllegalOperand 0
    stage (e (d.toNat - 24))
/-- STRCTL.UNBIND (R165). -/
def execStrctlUnbind (d : Opd) (_t : Tag) (s : State) : Outcome := runStrctl true (fun q => .strctl q 0) d s
/-- STRCTL.PAUSE (R165). -/
def execStrctlPause (d : Opd) (_t : Tag) (s : State) : Outcome := runStrctl false (fun q => .strctl q 1) d s
/-- STRCTL.RESUME (R165). -/
def execStrctlResume (d : Opd) (_t : Tag) (s : State) : Outcome := runStrctl false (fun q => .strctl q 2) d s
/-- STRCTL.DRAIN (R165). -/
def execStrctlDrain (d : Opd) (_t : Tag) (xtg : BitVec 6) (s : State) : Outcome :=
  runStrctl false (fun q => .drain q xtg.toNat 0) d s

/-- The tag bit of a command, when TE is set (R170). -/
def tagOf (xtg : BitVec 6) (xte : BitVec 1) : Option Nat := if xte == 1 then some xtg.toNat else none
/-- A command staged: one cp entry (R155). -/
def stageCommand (s : State) (tag : Option Nat) (op : CmdOp) : Body Unit := do
  takeCp s
  let w ← get
  stage (.cmd { id := 0, core := s.stage.core, cx := s.stage.cx.val, tag := tag, op := op, org := ⟨w.rule, w.pc, w.opc⟩ })

/-- CPY (R170). -/
def execCpy (a b : Opd) (xtg : BitVec 6) (xte : BitVec 1) (xlen : BitVec 4) (s : State) : Outcome :=
  runBody s 0xCE .plain 2 1 do
    let (x, _) ← readS s a false
    let (y, _) ← readS s b false
    let w ← get
    let len := vget w.s xlen.toNat 0
    need (1 ≤ len.toNat && len.toNat ≤ 2 ^ 24) cRange len
    checkedAddress s x
    let src ← remoteAddress s x len.toNat
    checkedAddress s y
    let dst ← remoteAddress s y len.toNat
    stageCommand s (tagOf xtg xte) (.cpy src dst len.toNat)
/-- The address of row i of a two-dimensional copy. -/
def rowAddress (a : W64) (str : W32) (i : Nat) : W64 := a + BitVec.ofInt 64 (str.toInt * Int.ofNat i)
/-- Every row of a two-dimensional copy checked, n rows from row i on (R170). -/
def checkRows (s : State) (src dst : W64) (ss ds : W32) (len i : Nat) : Nat → Body Unit
  | 0 => pure ()
  | n + 1 => do
    let _ ← remoteAddress s (rowAddress src ss i) len
    let _ ← remoteAddress s (rowAddress dst ds i) len
    checkRows s src dst ss ds len (i + 1) n
/-- CPY2 (R170). -/
def execCpy2 (a : Opd) (xtg : BitVec 6) (xte : BitVec 1) (s : State) : Outcome :=
  runBody s 0xCF .plain 2 1 do
    let (x, _) ← readS s a false
    checkedAddress s x
    checkAccess s x 32 8
    let blk ← localRead s x.toNat 32
    let src := BitVec.ofNat 64 (blk % 2 ^ 64)
    let dst := BitVec.ofNat 64 (blk / 2 ^ 64 % 2 ^ 64)
    let len := word32 blk 16
    let rows := word32 blk 20
    let ss := BitVec.ofNat 32 (word32 blk 24)
    let ds := BitVec.ofNat 32 (word32 blk 28)
    need (1 ≤ len && len ≤ 65536) cRange (BitVec.ofNat 64 len)
    need (1 ≤ rows && rows ≤ 65536) cRange (BitVec.ofNat 64 rows)
    checkedAddress s src
    checkedAddress s dst
    checkRows s src dst ss ds len 0 rows
    let src ← remoteAddress s src len
    let dst ← remoteAddress s dst len
    stageCommand s (tagOf xtg xte) (.cpy2 src dst len rows ss ds)
/-- PUBLISH: the owner is the core of a space 00 address, its offset ignored, or the issuing core (R172). An address of another space
names no owner, and R172 gives no outcome for it: it aborts with RANGE, after the PRIV of R154 for space 10 from an unprivileged
context (DESIGN CHOICE, log entry 91). -/
def execPublish (a : Opd) (xtg : BitVec 6) (xte : BitVec 1) (xwin : BitVec 3) (s : State) : Outcome :=
  runBody s 0xD0 .plain 2 1 do
    let x := bodyCtx s
    let own := BitVec.ofNat 64 (x.lx * 2 ^ 52 + x.ly * 2 ^ 44)
    let (v, _) ← readS s a false
    let v := if a == 31#5 then own else v
    checkedAddress s v
    need (bits v 63 62 != 2 || x.priv) cPriv v
    need (bits v 63 62 == 0) cRange v
    let r ← remoteAddress s (v &&& ~~~0x7FFFF#64) 1
    stageRequest s (.publish xwin.toNat (tagOf xtg xte)) r 0 false
/-- PFETCH: an address of another space, or a length of 0, fetches nothing (R173). -/
def execPfetch (a b : Opd) (xtg : BitVec 6) (xte : BitVec 1) (s : State) : Outcome :=
  runBody s 0xD1 .plain 2 1 do
    let (x, _) ← readS s a false
    let (y, _) ← readS s b false
    checkedAddress s x
    if bits x 63 62 == 1 && y != 0 then
      let r ← remoteAddress s x y.toNat
      stageCommand s (tagOf xtg xte) (.pfetch r y.toNat)
    else stageCommand s (tagOf xtg xte) (.pfetch x 0)

end Sys2Proof.Machine
end

