-- ==== Sys2Proof/Machine/Control.lean ====
section
/-! DEFINITION. Rule control, tags and fences, one cycle each (02_rule, R80 to R85; 05_core_memory, R167, R168, R174). -/
namespace Sys2Proof.Machine

/-- ABORT (R80). -/
def execAbort (_t : Tag) (s : State) : Outcome := runBody s 0xA0 .plain 1 1 (abortWith cExplicit 0)
/-- ABORTZ: the read of srcA is residue-checked on the scalar ALU; a pop stands as staged when the rule goes on (R80). -/
def execAbortz (a : Opd) (t : Tag) (s : State) : Outcome :=
  runBody s 0xA1 .plain 1 1 do
    let (x, _) ← readS s a (keepIn t)
    checkedScalar s x
    need (x != 0) cExplicit 0
/-- ABORTNZ (R80). -/
def execAbortnz (a : Opd) (t : Tag) (s : State) : Outcome :=
  runBody s 0xA2 .plain 1 1 do
    let (x, _) ← readS s a (keepIn t)
    checkedScalar s x
    need (x == 0) cExplicit 0

/-- Enable bits staged under a mask; later words of the body see them (R81, R82). -/
def stageEnable (m v : W64) : Body Unit :=
  modify fun w => { w with en := (w.en &&& ~~~m) ||| (v &&& m), effects := w.effects ++ [.enable m v] }
/-- RULEON (R81). -/
def execRuleon (i : BitVec 6) (s : State) : Outcome :=
  runBody s 0xA3 .plain 1 1 (stageEnable (1#64 <<< i.toNat) (1#64 <<< i.toNat))
/-- RULEOFF (R81). -/
def execRuleoff (i : BitVec 6) (s : State) : Outcome := runBody s 0xA4 .plain 1 1 (stageEnable (1#64 <<< i.toNat) 0)
/-- RULEMASK (R82). -/
def execRulemask (a b d e : Opd) (t : Tag) (s : State) : Outcome :=
  runBody s 0xA5 .plain 1 1 do
    let w ← get
    let (v, sa) ← readS s a (keepIn t)
    let (m, sb) ← readS s b (keepIn t)
    stageEnable m v
    resultS s d e ⟨t, 0, sa, sb⟩ w.en
/-- RABORTS: the abort record as at cycle 0, cleared at commit when srcB is given and not zero (R83). -/
def execRaborts (a b d e : Opd) (t : Tag) (s : State) : Outcome :=
  runBody s 0xA6 .plain 1 1 do
    let (x, sa) ← readS s a (keepIn t)
    let (y, sb) ← readS s b (keepIn t)
    resultS s d e ⟨t, 0, sa, sb⟩ ((vget (bodyCtx s).rabort (bits x 5 0) 0).zeroExtend 64)
    if b != 31#5 && y != 0 then stage (.clearAbort (bits x 5 0))
/-- CTXEND (R84). -/
def execCtxend (_t : Tag) (s : State) : Outcome := runBody s 0xA7 .plain 1 1 (stage .end_)
/-- CTXYIELD (R85). -/
def execCtxyield (_t : Tag) (s : State) : Outcome := runBody s 0xA8 .plain 1 1 (stage .yield_)

/-- TSET (05_core_memory, R167). -/
def execTset (i : BitVec 6) (s : State) : Outcome :=
  runBody s 0xA9 .plain 1 1 do
    modify fun w => { w with tb := w.tb ||| (1#64 <<< i.toNat), effects := w.effects ++ [.tagSet i.toNat] }
/-- TCLR (R167). -/
def execTclr (i : BitVec 6) (s : State) : Outcome :=
  runBody s 0xAA .plain 1 1 do
    modify fun w => { w with tb := w.tb &&& ~~~(1#64 <<< i.toNat), effects := w.effects ++ [.tagClear i.toNat] }
/-- A tag query: it reads tb with this body's own staged changes (R167). -/
def tagQuery (s : State) (opc : BitVec 8) (a d e : Opd) (t : Tag) (f : W64 → W64 → W64) : Outcome :=
  runBody s opc .plain 1 1 do
    let (x, sa) ← readS s a (keepIn t)
    let w ← get
    resultS s d e ⟨t, 0, sa, 0⟩ (f w.tb x)
/-- TFFR (R167). -/
def execTffr (a d e : Opd) (t : Tag) (s : State) : Outcome := tagQuery s 0xAB a d e t (fun tb x => trailingZeros (tb &&& x))
/-- TANY (R167). -/
def execTany (a d e : Opd) (t : Tag) (s : State) : Outcome := tagQuery s 0xAC a d e t (fun tb x => truth (tb &&& x != 0))
/-- TALL (R167). -/
def execTall (a d e : Opd) (t : Tag) (s : State) : Outcome := tagQuery s 0xAD a d e t (fun tb x => truth (tb &&& x == x))
/-- TMASK: the target stands in the dstB field, tm0 to tm7 or tb; srcB z is a mask of all ones (R168). -/
def execTmask (a b d e : Opd) (t : Tag) (s : State) : Outcome :=
  runBody s 0xAE .plain 1 1 do
    let (v, sa) ← readS s a (keepIn t)
    let (y, sb) ← readS s b (keepIn t)
    let m : W64 := if b == 31#5 then 0xFFFFFFFFFFFFFFFF else y
    let w ← get
    if e == 29#5 then
      set { w with tb := (w.tb &&& ~~~m) ||| (v &&& m), effects := w.effects ++ [Effect.tagMask m v] }
      resultS s d 31#5 ⟨t, 0, sa, sb⟩ w.tb
    else if e.toNat < 8 then
      let old := vget w.tm e.toNat 0
      set { w with tm := vset w.tm e.toNat ((old &&& ~~~m) ||| (v &&& m)), tmD := w.tmD ||| BitVec.ofNat 8 (2 ^ e.toNat) }
      resultS s d 31#5 ⟨t, 0, sa, sb⟩ old
    else illegal
/-- FENCE: it enters the outbound order at commit; kind in [4:3], scope in [2:0] (R174). -/
def execFence (i : BitVec 5) (s : State) : Outcome :=
  runBody s 0xAF .plain 1 1 (stage (.fence (i.extractLsb' 3 2) (bits i 2 0)))

end Sys2Proof.Machine
end

