-- ==== Sys2Proof/Machine/System.lean ====
section
/-! DEFINITION. Traps, control and status registers, counters, time and the injector, one cycle each (07_core_failures, R222 to
R230). -/
namespace Sys2Proof.Machine

/-- An instruction that only a privileged context may run: PRIV with INFO 0 from any other (R220, R225). -/
def privileged (s : State) : Body Unit := need (bodyCtx s).priv cPriv 0

/-- QSTAT of a stream (03_core_numbers, R91). -/
def streamWord (st : Stream) : W64 :=
  BitVec.ofNat 64 (ofBool st.bound * 2 ^ 31 + ofBool st.dir * 2 ^ 30 + ofBool st.done * 2 ^ 29 + st.fmt.toNat * 2 ^ 26 +
    st.esz.toNat * 2 ^ 24 + streamFill st)
/-- CORE_CTXST: the active context, its rounds since it became active, and the state of every slot, with its ready bit as set at a
cycle 0 (R210). -/
def ctxStatus (c : Core) : W64 :=
  let nib := fun cx =>
    let x := vget c.ctx cx Ctx.reset
    ofBool x.resident * 8 + ofBool x.ready * 4 + ofBool x.trap.isSome * 2 + ofBool x.ended
  BitVec.ofNat 64 (c.act.toNat * 2 ^ 30 + min c.qr 4096 * 2 ^ 16 + nib 3 * 4096 + nib 2 * 256 + nib 1 * 16 + nib 0)

/-- The value of a CSR at cycle 0; none for a number that is no CSR (R222). -/
def csrValue (s : State) (n : Nat) : Option W64 :=
  let c := bodyCore s
  let x := bodyCtx s
  if n == 0 then some (statusWord x x.flags)
  else if n == 1 then some (x.amap.zeroExtend 64)
  else if 4 ≤ n && n < 8 then some (streamWord (vget x.q (n - 4) Stream.reset))
  else if 0x10 ≤ n && n < 0x18 then some (vget c.pubw (n - 0x10) 0)
  else if n == 0x20 then some (c.bucket.zeroExtend 64)
  else if n == 0x21 then some (ctxStatus c)
  else if n == 0x22 then some (c.inj.zeroExtend 64)
  else if 0x30 ≤ n && n < 0x34 then some (vget c.save (n - 0x30) 0)
  else if n == 0x34 then some c.ckpt
  else none

/-- TRAP: a software trap after the commit (R226). -/
def execTrap (i : BitVec 8) (s : State) : Outcome :=
  runBody s 0xB0 .plain 1 1 do
    let w ← get
    stage (.softTrap i.toNat w.pc)
/-- TRET: srcA holds word 1 of the record answered, srcB the action (R227). -/
def execTret (a b : Opd) (t : Tag) (s : State) : Outcome :=
  runBody s 0xB1 .plain 1 1 do
    privileged s
    let (x, _) ← readS s a (keepIn t)
    let (y, _) ← readS s b (keepIn t)
    need (y.toNat < 4) cIllegalOperand 0
    stage (.tret x y.toNat)
/-- CSRR (R228). -/
def execCsrr (d : Opd) (i : BitVec 12) (s : State) : Outcome :=
  runBody s 0xB2 .plain 1 1 do
    match csrValue s i.toNat with
    | none => illegal
    | some v => resultS s d 31#5 ⟨0, 0, 0, 0⟩ v
/-- CSRW: the write is staged under the register's access rules, and d receives the old value; BUCKET, SAVE and CKPT are
written by privileged contexts only (R222, R228). -/
def execCsrw (a d : Opd) (i : BitVec 12) (s : State) : Outcome :=
  runBody s 0xB3 .plain 1 1 do
    match csrValue s i.toNat with
    | none => illegal
    | some old =>
      if i == 0x20 || (0x30#12 ≤ i && i ≤ 0x34#12) then privileged s
      let (v, sa) ← readS s a false
      if i == 0 then writeStatus v else stage (.csr i.toNat v)
      resultS s d 31#5 ⟨0, 0, sa, 0⟩ old

/-- A word of a record. -/
def recordWord (r : Record) (n : Nat) : W64 := match n with | 0 => r.w0 | 1 => r.w1 | 2 => r.w2 | _ => r.w3
/-- MCRD (R230). -/
def execMcrd (a d e : Opd) (t : Tag) (s : State) : Outcome :=
  runBody s 0xB4 .plain 1 1 do
    privileged s
    let (x, sa) ← readS s a (keepIn t)
    need (x.toNat < 16) cIllegalOperand 0
    let v := match (bodyCore s).ring.drop (x.toNat / 4) with | [] => 0 | r :: _ => recordWord r (x.toNat % 4)
    resultS s d e ⟨t, 0, sa, 0⟩ v
/-- HELD with the cycles for which a core's tokens are being held (R214). -/
def heldCount (s : State) (k : Nat) : W32 :=
  let c := coreOf s k
  satAdd (vget c.cnt 10 0) ((c.hold.map (fun h => clusterCycles s (clusterKey k) - h.2.from_)).sum)
/-- The value of an event counter at cycle 0; any other index reads 0 (R223). -/
def counterValue (s : State) (n : Nat) : W32 :=
  if n < 13 then vget (bodyCtx s).cnt n 0
  else if n == 42 then heldCount s s.stage.core
  else if 32 ≤ n && n < 43 then vget (bodyCore s).cnt (n - 32) 0
  else 0
/-- CNTRD (R230). -/
def execCntrd (a d e : Opd) (t : Tag) (s : State) : Outcome :=
  runBody s 0xB5 .plain 1 1 do
    let (x, sa) ← readS s a (keepIn t)
    resultS s d e ⟨t, 0, sa, 0⟩ ((counterValue s (bits x 5 0)).zeroExtend 64)
/-- CNTCLR: the core's counters are cleared by privileged contexts only (R225, R230). -/
def execCntclr (a : Opd) (t : Tag) (s : State) : Outcome :=
  runBody s 0xB6 .plain 1 1 do
    let (x, _) ← readS s a (keepIn t)
    let n := bits x 5 0
    if 32 ≤ n && n < 43 then privileged s
    stage (.clearCount n)
/-- Whether a descriptor keeps the injector's limits (R229). -/
def injectorOk (v : W64) : Bool :=
  bits v 63 40 == 0 && bits v 30 27 == 0 && bits v 23 20 == 0 && bits v 15 11 == 0 && bits v 26 24 != 2 &&
    bits v 26 24 != 7 && (bits v 26 24 != 0 || bits v 19 16 < 2) && 1 ≤ bits v 10 8 && bits v 10 8 ≤ 6
/-- ERRINJ: d receives the count that remained (R229). -/
def execErrinj (a d e : Opd) (t : Tag) (s : State) : Outcome :=
  runBody s 0xB7 .plain 1 1 do
    privileged s
    let (v, sa) ← readS s a (keepIn t)
    need (injectorOk v) cIllegalOperand 0
    let w ← get
    stage (.inject (BitVec.ofNat 42 (v.toNat % 2 ^ 40 + s.stage.cx.val * 2 ^ 40)))
    resultS s d e ⟨t, 0, sa, 0⟩ (BitVec.ofNat 64 (bits w.inj 7 0))
/-- TIMERD: the die's time at cycle 0, with the calibrated offset when srcA[0] is set (R230). -/
def execTimerd (a d e : Opd) (t : Tag) (s : State) : Outcome :=
  runBody s 0xB8 .plain 1 1 do
    let (x, sa) ← readS s a (keepIn t)
    let die := dieKey s.stage.core
    let v := dieTime s die + (if bitAt x 0 then (dieOf s die).off.signExtend 64 else 0)
    resultS s d e ⟨t, 0, sa, 0⟩ v
/-- ROUNDRD: the round counter at cycle 0 (R224, R230). -/
def execRoundrd (d e : Opd) (t : Tag) (s : State) : Outcome :=
  runBody s 0xB9 .plain 1 1 (resultS s d e ⟨t, 0, 0, 0⟩ (bodyCtx s).rounds)
/-- FMTMODE: FM takes effect at commit; d receives FM at cycle 0 (R89, R230). -/
def execFmtmode (a d e : Opd) (t : Tag) (s : State) : Outcome :=
  runBody s 0xBA .plain 1 1 do
    let (x, sa) ← readS s a (keepIn t)
    stage (.format (bitAt x 0))
    resultS s d e ⟨t, 0, sa, 0⟩ (truth (bodyCtx s).fm)

end Sys2Proof.Machine
end

