-- ==== Sys2Proof/Machine/Cascade.lean ====
section
/-! DEFINITION. The Cascade instructions as a body issues them (11_package_cascade, R314 to R320). -/
namespace Sys2Proof.Machine

/-- Whether an entry of the group table is in use and placed by this context's configuration (R302, R315). -/
def ownGroup (s : State) (g : Nat) : Bool :=
  let e := (groupOf s g).cfg
  bitAt e 63 && bits e 39 28 == (regionOf s (bodyCtx s).region).cfgid.toNat
/-- The filter of a core that names a group for a context (R304, R316). -/
def filterFor (c : Core) (g cx : Nat) : Option Nat :=
  (List.range 4).find? (fun k =>
    let f := vget c.cgf k 0
    bitAt f 63 && bits f 62 55 == g && bits f 53 52 == cx)
/-- The source of a CGSEND checked; with HUF only its first byte is known (R315). -/
def cascadeSource (s : State) (a : W64) (g len : Nat) (pinned huf : Bool) : Body W64 := do
  let n := if huf then 1 else len
  if pinned then
    need (a.toNat % 64 == 0) cAlign a
    need (a.toNat + n ≤ (dieOf s (bits (groupOf s g).cfg 62 57)).p * 6291456) cRange a
    pure a
  else
    need (bits a 63 62 == 1 || (bits a 63 62 == 2 && bits a 61 58 == 1)) cRange a
    remoteAddress s a n
/-- CGSEND (R315). -/
def execCgsend (a b : Opd) (xg : BitVec 8) (xtg : BitVec 6) (xte : BitVec 1) (xsrc : BitVec 2) (xhuf : BitVec 1)
    (xfmt : BitVec 3) (xlast : BitVec 1) (s : State) : Outcome :=
  runBody s 0xF2 .plain 2 1 do
    need (xsrc.toNat < 2) cIllegalOperand 0
    need (ownGroup s xg.toNat && (groupOf s xg.toNat).br != 0) cIllegalOperand 0
    let (x, _) ← readS s a false
    let (y, _) ← readS s b false
    let len := bits y 31 0
    let blen := (bits y 38 32 + 1) * 64
    let soff := bits y 45 39 * 64
    need (bits y 63 46 == 0 && len != 0 && len % 64 == 0 && soff < blen) cIllegalOperand 0
    checkedAddress s x
    let r ← cascadeSource s x xg.toNat len (xsrc == 1) (xhuf == 1)
    stageCommand s (tagOf xtg xte)
      (.cgsend xg.toNat r len blen soff (xsrc == 1) (xhuf == 1) (xlast == 1) xfmt (bodyCtx s).fm)
/-- CGRANT (R316). -/
def execCgrant (xg : BitVec 8) (xhold : BitVec 1) (s : State) : Outcome :=
  runBody s 0xF2 .plain 2 1 do
    need (filterFor (bodyCore s) xg.toNat s.stage.cx.val).isSome cIllegalOperand 0
    stage (.grant xg.toNat (xhold == 1))
/-- CGWAKE (R317). -/
def execCgwake (xg : BitVec 8) (xtg : BitVec 6) (xte : BitVec 1) (s : State) : Outcome :=
  runBody s 0xF2 .plain 2 1 do
    need (ownGroup s xg.toNat) cIllegalOperand 0
    stageCommand s (tagOf xtg xte) (.cgwake xg.toNat)
/-- The slots of a port that a context has popped and not released (R318). -/
def poppedSlots (c : Core) (p cx : Nat) : Nat :=
  ((List.range 4).filter (fun i =>
    let r := vget c.rx (4 * p + i) RxSlot.reset
    r.st == .popped && !r.rel && r.cx == cx)).length
/-- CGREL (R318). -/
def execCgrel (xport : BitVec 1) (xk : BitVec 2) (s : State) : Outcome :=
  runBody s 0xF2 .plain 2 1 do
    let w ← get
    need (xk.toNat + 1 ≤ poppedSlots (bodyCore s) xport.toNat s.stage.cx.val + vget w.pops (5 + xport.toNat) 0)
      cIllegalOperand 0
    stage (.release xport.toNat (xk.toNat + 1))
/-- CGCFG FILTER (R319). -/
def execCgcfgFilter (a : Opd) (xix : BitVec 8) (s : State) : Outcome :=
  runBody s 0xF2 .plain 2 1 do
    privileged s
    need (xix.toNat < 4) cIllegalOperand 0
    let (x, _) ← readS s a false
    stage (.filter xix.toNat x)
/-- CGCFG PORT (R319). -/
def execCgcfgPort (a : Opd) (xix : BitVec 8) (s : State) : Outcome :=
  runBody s 0xF2 .plain 2 1 do
    privileged s
    need (xix.toNat < 2) cIllegalOperand 0
    let (x, _) ← readS s a false
    stage (.rxPort xix.toNat x)
/-- CGCFG DEPTH (R319). -/
def execCgcfgDepth (a : Opd) (xix : BitVec 8) (s : State) : Outcome :=
  runBody s 0xF2 .plain 2 1 do
    privileged s
    let (x, _) ← readS s a false
    need (x.toNat ≤ 4) cIllegalOperand 0
    stage (.depth xix.toNat x.toNat)
/-- CGSTAT, with the state as at cycle 0 (R320). -/
def execCgstat (a d e : Opd) (t : Tag) (xsel : BitVec 3) (s : State) : Outcome :=
  runBody s 0xF2 .plain 2 1 do
    let (x, sa) ← readS s a (keepIn t)
    let n := x.toNat
    let c := bodyCore s
    let die := dieOf s (dieKey s.stage.core)
    match xsel.toNat with
    | 0 =>
      need (n < 2) cIllegalOperand 0
      resultS s d e ⟨t, 0, sa, 0⟩
        ((portWord c n).zeroExtend 64 + BitVec.ofNat 64 ((vget (bodyCtx s).blocks n []).length * 2 ^ 32))
    | 1 =>
      need (n < 4) cIllegalOperand 0
      resultS s d e ⟨t, 0, sa, 0⟩ (vget c.cgf n 0)
    | 2 =>
      need (n < 256) cIllegalOperand 0
      resultS s d e ⟨t, 0, sa, 0⟩ (groupStatus (groupOf s n))
    | 3 =>
      need (n < 256) cIllegalOperand 0
      resultS s d e ⟨t, 0, sa, 0⟩ (branchStatus (tget die.branch Branch.reset n))
    | 4 =>
      need (n < 16) cIllegalOperand 0
      resultS s d e ⟨t, 0, sa, 0⟩ ((vget die.casc n 0).zeroExtend 64)
    | _ => illegal

end Sys2Proof.Machine
end

