-- ==== Sys2Proof/Machine/Cluster.lean ====
section
/-! DEFINITION. The cluster instructions as a body issues them: barriers, reductions, pairs, SLUICE and HFWD (08_cluster, R243 to
R258). -/
namespace Sys2Proof.Machine

/-- The checks of BAR and BART: the barrier is in use, this context is a member, no arrival of it is pending at cycle 0
(R248, R258). -/
def checkBarrier (s : State) (k : Nat) : Body Unit := do
  let c := bodyCore s
  let b := vget (clusterOf s (clusterKey s.stage.core)).bar k Barrier.reset
  need (b.v && bitAt c.bmem (16 * s.stage.cx.val + k)) cIllegalOperand 0
  need (!bitAt (bodyCtx s).barPend k) cIllegalOperand 0
/-- BAR (R258). -/
def execBar (xk : BitVec 4) (xtg : BitVec 6) (xte : BitVec 1) (s : State) : Outcome :=
  runBody s 0xF0 .plain 2 1 do
    checkBarrier s xk.toNat
    entry
    stage (.barrier xk.toNat (tagOf xtg xte) none 0)
/-- BART (R258). -/
def execBart (a : Opd) (xk : BitVec 4) (xtg xtm : BitVec 6) (s : State) : Outcome :=
  runBody s 0xF0 .plain 2 1 do
    checkBarrier s xk.toNat
    let (x, _) ← readS s a false
    need (x != 0 && x.toNat < 2 ^ 32 && xtg != xtm) cIllegalOperand 0
    entry
    stage (.barrier xk.toNat (some xtg.toNat) (some xtm.toNat) x.toNat)
/-- Whether a router's entry of a tree is in use: V set and PARENT not reserved (R243). -/
def treeOn (e : W16) : Bool := bitAt e 15 && bits e 7 5 ≤ 4
/-- RED (R246, R258). -/
def execRed (a : Opd) (xtr : BitVec 5) (xop : BitVec 4) (xv xall : BitVec 1) (xrt : BitVec 6) (s : State) : Outcome :=
  runBody s 0xF0 .plain 2 1 do
    let e := vget (bodyCore s).trn xtr.toNat 0
    need (treeOn e && bitAt e 14 && bits e 13 12 == s.stage.cx.val && xop.toNat < 12) cIllegalOperand 0
    let val ← (if xv == 1 then do
        let (v, _) ← readV s a false
        pure v
      else do
        let (v, _) ← readS s a false
        pure (ofScalar v))
    stageCommand s none (.red xtr.toNat xop.toNat (xv == 1) (xall == 1) xrt val (bodyCtx s).fm)
/-- Whether a channel is bound to a context of this cluster (R250). -/
def channelBound (x : Ctx) (p : PairCh) : Bool := p.v && p.lx == x.lx % 12 && p.ly == x.ly % 8 && p.cx == x.lc
/-- PAIRX (R251, R258). -/
def execPairx (a : Opd) (xch : BitVec 4) (xrt : BitVec 6) (s : State) : Outcome :=
  runBody s 0xF0 .plain 2 1 do
    let p := vget (clusterOf s (clusterKey s.stage.core)).pch xch.toNat PairCh.reset
    need (channelBound (bodyCtx s) p && !p.armed) cIllegalOperand 0
    let (v, sb) ← readV s a false
    stageCommand s none (.pairx xch.toNat xrt v (putBits sb 10 10 (ofBool (bodyCtx s).fm)) 0)
/-- SLUICE (R258). -/
def execSluice (a : Opd) (s : State) : Outcome :=
  runBody s 0xF0 .plain 2 1 do
    privileged s
    let (x, _) ← readS s a false
    entry
    stage (.sluice (x.extractLsb' 0 8))
/-- HFWD (R253, R258). -/
def execHfwd (a : Opd) (s : State) : Outcome :=
  runBody s 0xF0 .plain 2 1 do
    privileged s
    need (chainPosition s s.stage.core s.stage.cx.val).isSome cIllegalOperand 0
    let (v, sa) ← readV s a false
    entry
    let r : Record :=
      { w0 := v.extractLsb' 0 64, w1 := v.extractLsb' 64 64, w2 := v.extractLsb' 128 64, w3 := v.extractLsb' 192 64 }
    stage (.forward r (bitAt sa 10))

end Sys2Proof.Machine
end

