-- ==== Sys2Proof/Machine/Matrix.lean ====
section
/-! DEFINITION. The basin commands as a body issues them: fields, formats, tiles and descriptors checked at issue, the command
staged for its core's queue (06_core_basin, R177, R182 to R203). -/
namespace Sys2Proof.Machine

/-- The basin commands among n words of a body from a word on: the opcodes 0xE0 to 0xE8 and 0xEA (R177). -/
def basinWords (c : Core) (cx at_ : Nat) : Nat → Nat
  | 0 => 0
  | n + 1 =>
    let o := bits (bodyWord c cx at_) 31 24
    let one := if (0xE0 ≤ o && o ≤ 0xE8) || o == 0xEA then 1 else 0
    if 0xC0 ≤ o then (match n with | 0 => one | m + 1 => one + basinWords c cx (at_ + 2) m)
    else basinWords c cx (at_ + 1) n
/-- The start of a basin command: the first one of a body aborts when the queue's free entries at cycle 0 are fewer than the
body's commands (02_rule, R75). -/
def startBasin (s : State) : Body Unit := do
  let w ← get
  let c := bodyCore s
  let n := basinWords c s.stage.cx.val (bits w.hdrA 10 0) (bits w.hdrA 15 11 + 1)
  need (w.basins != 0 || n + c.bq.length ≤ 8) cQueueFull 0
  set { w with basins := w.basins + 1 }
/-- The physical slot of an accumulator, which must be mapped (03_core_numbers, R93). -/
def accSlot (s : State) (acc : BitVec 2) : Body Nat := do
  let m := (bodyCtx s).amap.toNat >>> (4 * acc.toNat)
  need (m.testBit 3) cIllegalOperand 0
  pure (m % 8)
/-- A basin command staged: one entry of the commit buffer (R177), with FM at cycle 0 (R187). -/
def stageBasin (s : State) (opc : BitVec 8) (op : BasinOp) : Body Unit := do
  entry
  stage (.basin { cx := s.stage.cx.val, opc := opc, fm := (bodyCtx s).fm, op := op, open_ := false, old := [] })

/-- Bits of an element of a format code: INT is INT8, or 2-bit ternary as the B of MMAT (R182). -/
def elementBits (f : BitVec 3) (tern : Bool) : Nat :=
  match f.toNat with | 0 => if tern then 2 else 8 | 1 => 64 | 2 => 32 | 3 => 16 | 4 => 16 | 7 => 4 | _ => 8
/-- The formats that a matrix command accepts (R186): command 0 MMA, 1 MMAZ, 2 MMAT, 3 MMAI8, 4 MMAMX. -/
def formatsOk (cmd : Nat) (af bf : BitVec 3) : Bool :=
  let a := af.toNat
  let b := bf.toNat
  match cmd with
  | 0 | 1 => (a == b && 1 ≤ a && a ≤ 4) || ((a == 5 || a == 6) && (b == 5 || b == 6))
  | 2 | 3 => a == 0 && b == 0
  | _ => (a == 0 || 5 ≤ a) && (b == 0 || 5 ≤ b)
/-- The fields of a matrix command within their limits (R182, R193). -/
def matrixOk (cmd : Nat) (af bf : BitVec 3) (k n : Nat) (z : Bool) : Bool :=
  let one := fun (bitsPer : Nat) => k * bitsPer % 8 == 0 && k * bitsPer / 8 ≤ 512
  formatsOk cmd af bf && 1 ≤ k && k ≤ 512 && one (elementBits af false) && one (elementBits bf (cmd == 2)) &&
    (af != 1 || n ≤ 8) && (cmd != 4 || k % 32 == 0) && (cmd != 1 || !z)

/-- A local tile of n bytes checked at an offset value (R185). -/
def checkTile (s : State) (v : W64) (n : Nat) : Body Unit := do
  checkedAddress s v
  checkAccess s v n 64
/-- The pointer form of an MX operand: tile and scale array, both checked (R195). -/
def checkPointer (s : State) (v : W64) (n scales : Nat) : Body Unit := do
  checkedAddress s v
  need (bits v 63 51 == 0 && bits v 31 19 == 0) cRange v
  checkAccess s (BitVec.ofNat 64 (bits v 18 0)) n 64
  checkAccess s (BitVec.ofNat 64 (bits v 50 32)) (4 * scales) 4
/-- c elements of a read stream, in order (R183). -/
def takeElements (s : State) (q : Nat) : Nat → Body (List V512)
  | 0 => pure []
  | n + 1 => do
    let t ← takeElement s q
    let r ← takeElements s q n
    pure (t.pay :: r)
/-- The A operand (R183, R195). -/
def operandA (s : State) (mx : Bool) (a : Opd) (af : BitVec 3) (k m : Nat) : Body Tile := do
  let w ← get
  let row := k * elementBits af false / 8
  if a.toNat < 16 then
    let v := vget w.s a.toNat 0
    if mx then
      checkPointer s v (m * row) (m * k / 32)
      pure (.mem (bits v 18 0) (bits v 50 32))
    else
      checkTile s v (m * row)
      pure (.mem v.toNat 0)
  else
    need (!mx && 24 ≤ a.toNat && a.toNat < 28) cIllegalOperand 0
    let st := vget (bodyCtx s).q (a.toNat - 24) Stream.reset
    let c := m * ((row + 63) / 64)
    need (st.bound && !st.dir && st.esz == 3 && c ≤ 63) cIllegalOperand 0
    let rows ← takeElements s (a.toNat - 24) c
    pure (.bytes rows)
/-- The B operand: a local tile, or the head block of an optical port (R184, R195). -/
def operandB (s : State) (cmd : Nat) (b : Opd) (bf : BitVec 3) (k n : Nat) : Body Tile := do
  let w ← get
  let size := (k * n * elementBits bf (cmd == 2) + 7) / 8
  if b.toNat < 16 then
    let v := vget w.s b.toNat 0
    if cmd == 4 then
      checkPointer s v size (n * k / 32)
      pure (.mem (bits v 18 0) (bits v 50 32))
    else
      checkTile s v size
      pure (.mem v.toNat 0)
  else
    need (b.toNat == 22 || b.toNat == 23) cIllegalOperand 0
    let (i, blk) ← takeBlock s (b.toNat - 22) false
    need (!bitAt (vget (bodyCore s).cgp (i / 4) 0) 31) cIllegalOperand 0
    need (blk.fmt == bf && size ≤ (if blk.soff == 0 then blk.len else blk.soff)) cIllegalOperand 0
    need (cmd != 4 || blk.soff != 0) cIllegalOperand 0
    pure (.slot (i / 4) (i % 4) blk.soff)
/-- The shared steps of the matrix commands (R193, R194). -/
def runMatrix (cmd : Nat) (opc : BitVec 8) (a b : Opd) (xacc : BitVec 2) (xaf xbf : BitVec 3) (xk : BitVec 10)
    (xm xn : BitVec 4) (xz xbt : BitVec 1) (xep : BitVec 4) (s : State) : Outcome :=
  runBody s opc .basin 2 1 do
    startBasin s
    let m := xm.toNat + 1
    let n := xn.toNat + 1
    need (matrixOk cmd xaf xbf xk.toNat n (xz == 1)) cIllegalOperand 0
    let slot ← accSlot s xacc
    let ta ← operandA s (cmd == 4) a xaf xk.toNat m
    let tb ← operandB s cmd b xbf xk.toNat n
    stageBasin s opc (.mma cmd slot xaf.toNat xbf.toNat xk.toNat m n (xz == 1) (xbt == 1) xep.toNat ta tb)
/-- MMA (R194). -/
def execMma (a b : Opd) (_t : Tag) (xacc : BitVec 2) (xaf xbf : BitVec 3) (xk : BitVec 10) (xm xn : BitVec 4)
    (xz xbt : BitVec 1) (xep : BitVec 4) (s : State) : Outcome := runMatrix 0 0xE0 a b xacc xaf xbf xk xm xn xz xbt xep s
/-- MMAZ (R194). -/
def execMmaz (a b : Opd) (_t : Tag) (xacc : BitVec 2) (xaf xbf : BitVec 3) (xk : BitVec 10) (xm xn : BitVec 4)
    (xz xbt : BitVec 1) (xep : BitVec 4) (s : State) : Outcome := runMatrix 1 0xE1 a b xacc xaf xbf xk xm xn xz xbt xep s
/-- MMAT (R194, R196). -/
def execMmat (a b : Opd) (_t : Tag) (xacc : BitVec 2) (xaf xbf : BitVec 3) (xk : BitVec 10) (xm xn : BitVec 4)
    (xz xbt : BitVec 1) (xep : BitVec 4) (s : State) : Outcome := runMatrix 2 0xE2 a b xacc xaf xbf xk xm xn xz xbt xep s
/-- MMAI8 (R194, R196). -/
def execMmai8 (a b : Opd) (_t : Tag) (xacc : BitVec 2) (xaf xbf : BitVec 3) (xk : BitVec 10) (xm xn : BitVec 4)
    (xz xbt : BitVec 1) (xep : BitVec 4) (s : State) : Outcome := runMatrix 3 0xE3 a b xacc xaf xbf xk xm xn xz xbt xep s
/-- MMAMX (R194, R195). -/
def execMmamx (a b : Opd) (_t : Tag) (xacc : BitVec 2) (xaf xbf : BitVec 3) (xk : BitVec 10) (xm xn : BitVec 4)
    (xz xbt : BitVec 1) (xep : BitVec 4) (s : State) : Outcome := runMatrix 4 0xEA a b xacc xaf xbf xk xm xn xz xbt xep s

/-- ACCRD (R197). -/
def execAccrd (_t : Tag) (xacc : BitVec 2) (xrt : BitVec 6) (xfirst xrn xep : BitVec 4) (xclr : BitVec 1) (s : State) :
    Outcome :=
  runBody s 0xE4 .basin 2 1 do
    startBasin s
    need (xfirst.toNat + xrn.toNat ≤ 15 && (xep == 0 || xrt == 0)) cIllegalOperand 0
    let slot ← accSlot s xacc
    stageBasin s 0xE4 (.accrd slot xrt.toNat xfirst.toNat (xrn.toNat + 1) xep.toNat (xclr == 1))
/-- The type that TYP names; 11 is illegal (R198). -/
def typOf (x : BitVec 2) : SlotType := match x.toNat with | 0 => .fp32 | 1 => .int32 | 2 => .fp64 | _ => .none
/-- ACCWR (R198). -/
def execAccwr (a : Opd) (_t : Tag) (xacc xtyp : BitVec 2) (xfirst xrn : BitVec 4) (s : State) : Outcome :=
  runBody s 0xE5 .basin 2 1 do
    startBasin s
    need (xtyp != 3 && xfirst.toNat + xrn.toNat ≤ 15) cIllegalOperand 0
    let slot ← accSlot s xacc
    let (v, _) ← readS s a false
    checkTile s v (64 * (xrn.toNat + 1))
    stageBasin s 0xE5 (.accwr slot (typOf xtyp) xfirst.toNat (xrn.toNat + 1) v.toNat)
/-- ACCZ (R199). -/
def execAccz (_t : Tag) (xacc xtyp : BitVec 2) (s : State) : Outcome :=
  runBody s 0xE6 .basin 2 1 do
    startBasin s
    need (xtyp != 3) cIllegalOperand 0
    let slot ← accSlot s xacc
    stageBasin s 0xE6 (.accz slot (typOf xtyp))

/-- The stage codes of a chain, up to the first 0 (R200). -/
def chainStages (d : BitVec 256) : List Nat :=
  ((List.range 6).map (fun i => bits d (4 * i + 3) (4 * i))).takeWhile (fun c => c != 0)
/-- The format of the rows that a chain delivers: that of its last CVT, else FP32 (R200, R201). -/
def chainFormat (d : BitVec 256) : Nat := if (chainStages d).contains 7 then bits d 202 200 else 2
/-- A descriptor within the limits of R200. CVTC counts only with a CVT stage, and then its bits [31:14] are 0; LO and HI always count; SINK
bit 30, which no field names, may hold any value (DESIGN CHOICE, log entry 94). -/
def chainOk (d : BitVec 256) : Bool :=
  let st := chainStages d
  let lo := fpDecode 2 false (bits d 159 128)
  let hi := fpDecode 2 false (bits d 191 160)
  bits d 31 24 == 0 && bits d 23 0 < 16 ^ st.length && st.all (fun c => c ≤ 7) && !(st.dropLast).contains 7 &&
    !lo.isNaN && !hi.isNaN && (fpLess 2 true (bits d 159 128) (bits d 191 160)).1 &&
    (!st.contains 7 || (bits d 199 198 == 0 && 2 ≤ bits d 202 200 && bits d 196 192 == 0 && bits d 223 206 == 0)) &&
    bits d 246 243 == 0
/-- The local ranges that a descriptor names, as offset and length: bias, residual tile, and the rows of a local sink
(R200, R201). A sink's range is taken as 16 rows of 16 elements, each row's bytes rounded up; BIAS and RES count only where their stage
stands in the chain (DESIGN CHOICE, log entry 93). -/
def chainRanges (d : BitVec 256) : List (Nat × Nat) :=
  let st := chainStages d
  (if st.contains 2 then [(bits d 95 64, 64)] else []) ++ (if st.contains 3 then [(bits d 127 96, 1024)] else []) ++
    (if bitAt d 255 then [(bits d 242 224, 16 * ((16 * fpWidth (chainFormat d) + 7) / 8))] else [])
/-- Tiles checked in order. -/
def checkTiles (s : State) : List (Nat × Nat) → Body Unit
  | [] => pure ()
  | (at_, n) :: r => do
    checkTile s (BitVec.ofNat 64 at_) n
    checkTiles s r
/-- EPICFG (R200). -/
def execEpicfg (a : Opd) (_t : Tag) (xch : BitVec 4) (s : State) : Outcome :=
  runBody s 0xE7 .basin 2 2 do
    startBasin s
    need (xch != 0) cIllegalOperand 0
    let (v, _) ← readS s a false
    checkedAddress s v
    checkAccess s v 32 8
    let blk ← localRead s v.toNat 32
    let d := BitVec.ofNat 256 blk
    need (chainOk d) cIllegalOperand 0
    checkTiles s (chainRanges d)
    stageBasin s 0xE7 (.epicfg xch.toNat d)
/-- ABFTCFG (R202). -/
def execAbftcfg (_t : Tag) (xen xcorr : BitVec 1) (s : State) : Outcome :=
  runBody s 0xE8 .basin 2 1 do
    startBasin s
    stageBasin s 0xE8 (.abftcfg (xen == 1) (xcorr == 1))

/-- The slot that a command names. -/
def BasinOp.slot : BasinOp → Option Nat
  | .mma _ acc _ _ _ _ _ _ _ _ _ _ => some acc
  | .accrd acc _ _ _ _ _ => some acc
  | .accwr acc _ _ _ _ => some acc
  | .accz acc _ => some acc
  | .epicfg _ _ => none
  | .abftcfg _ _ => none
/-- A slot type as BQSTAT shows it (R203). -/
def typeCode (t : SlotType) : Nat := match t with | .fp32 => 0 | .int32 => 1 | .fp64 => 2 | .none => 3
/-- Byte k of BQSTAT SEL 1 (R203). -/
def accByte (c : Core) (x : Ctx) (k : Nat) : Nat :=
  let m := x.amap.toNat >>> (4 * k)
  if m.testBit 3 then
    let a := vget c.acc (m % 8) AccSlot.reset
    ofBool (c.bq.any (fun b => b.op.slot == some (m % 8))) * 8 + ofBool a.poison * 4 + typeCode a.ty
  else 3
/-- BQSTAT, with the basin as at cycle 0 (R203). -/
def execBqstat (d e : Opd) (t : Tag) (xsel : BitVec 4) (xclr : BitVec 1) (s : State) : Outcome :=
  runBody s 0xE9 .plain 2 1 do
    need (xsel.toNat < 8) cIllegalOperand 0
    let c := bodyCore s
    let x := bodyCtx s
    let v : W64 :=
      match xsel.toNat with
      | 0 => BitVec.ofNat 64 (x.bdone.toNat * 2 ^ 32 +
          (c.bq.filter (fun b => b.cx == s.stage.cx.val)).length % 16 * 16 + (8 - c.bq.length))
      | 1 => BitVec.ofNat 64 (accByte c x 3 * 2 ^ 24 + accByte c x 2 * 65536 + accByte c x 1 * 256 + accByte c x 0)
      | n => (vget x.bcnt (n - 2) 0).zeroExtend 64
    resultS s d e ⟨t, 0, 0, 0⟩ v
    if xclr == 1 && 2 ≤ xsel.toNat then stage (.clearBasin (xsel.toNat - 2)) else pure ()

end Sys2Proof.Machine
end

