-- ==== Sys2Proof/Machine/ExtMem.lean ====
section
/-! DEFINITION. The external-memory instructions as a body issues them (13_package_memory, R367, R370, R371). -/
namespace Sys2Proof.Machine

/-- Bytes k to k + n - 1 of a descriptor as a number. -/
def descField (d : V512) (k n : Nat) : Nat := bits d (8 * (k + n) - 1) (8 * k)
/-- A descriptor of an indirect stream within its limits (R367). -/
def xstrOk (d : V512) : Bool :=
  let idx := descField d 0 8
  let tbl := descField d 8 8
  let loc := descField d 16 8
  let cnt := descField d 24 4
  let esz := descField d 28 4
  let iw := descField d 36 1
  idx / 2 ^ 62 == 1 && tbl / 2 ^ 62 == 1 && loc / 2 ^ 62 == 0 && iw ≤ 1 && descField d 37 1 ≤ 1 &&
    descField d 38 1 == 0 && descField d 39 1 ≤ 1 && descField d 48 16 == 0 && 1 ≤ cnt && cnt ≤ 65536 &&
    4 ≤ esz && esz ≤ 4096 && esz % 4 == 0 && idx % (if iw == 0 then 4 else 8) == 0 &&
    tbl % (if esz % 8 == 0 then 8 else 4) == 0 && loc % 64 == 0
/-- XSTR: the descriptor is staged with its core-memory address resolved (R367, R371). -/
def execXstr (a : Opd) (xtg : BitVec 6) (xte : BitVec 1) (s : State) : Outcome :=
  runBody s 0xF4 .plain 2 1 do
    let (x, _) ← readS s a false
    checkedAddress s x
    need (x.toNat % 8 == 0) cAlign x
    checkAccess s x 64 8
    let v ← localRead s x.toNat 64
    let d := BitVec.ofNat 512 v
    need (xstrOk d) cIllegalOperand 0
    let esz := descField d 28 4
    let _ ← remoteAddress s (BitVec.ofNat 64 (descField d 0 8)) (if descField d 36 1 == 0 then 4 else 8)
    let _ ← remoteAddress s (BitVec.ofNat 64 (descField d 8 8)) esz
    let loc ← remoteAddress s (BitVec.ofNat 64 (descField d 16 8)) esz
    stageCommand s (tagOf xtg xte) (.xstr (putBits d 191 128 loc.toNat))
/-- MIGRATE (R371). -/
def execMigrate (a b : Opd) (xtg : BitVec 6) (xte : BitVec 1) (s : State) : Outcome :=
  runBody s 0xF4 .plain 2 1 do
    privileged s
    let (x, _) ← readS s a false
    let (y, _) ← readS s b false
    checkedAddress s x
    need (bits x 63 62 == 1) cRange x
    let va ← remoteAddress s x 1
    checkedAddress s y
    need (bits y 63 62 == 2 && (bits y 61 58 == 1 || bits y 61 58 == 2)) cRange y
    let pa ← remoteAddress s y 1
    stageCommand s (tagOf xtg xte) (.migrate va pa)
/-- TLBINV of one page (R371). -/
def execTlbinvPage (a b : Opd) (xtg : BitVec 6) (xte : BitVec 1) (s : State) : Outcome :=
  runBody s 0xF4 .plain 2 1 do
    privileged s
    let (x, _) ← readS s a false
    let (y, _) ← readS s b false
    need (y.toNat < 2048) cIllegalOperand 0
    stageCommand s (tagOf xtg xte) (.tlbinv 0 x y.toNat)
/-- TLBINV of a queue (R371). -/
def execTlbinvQueue (b : Opd) (xtg : BitVec 6) (xte : BitVec 1) (s : State) : Outcome :=
  runBody s 0xF4 .plain 2 1 do
    privileged s
    let (y, _) ← readS s b false
    need (y.toNat < 2048) cIllegalOperand 0
    stageCommand s (tagOf xtg xte) (.tlbinv 1 0 y.toNat)
/-- TLBINV of every entry (R371). -/
def execTlbinvAll (xtg : BitVec 6) (xte : BitVec 1) (s : State) : Outcome :=
  runBody s 0xF4 .plain 2 1 do
    privileged s
    stageCommand s (tagOf xtg xte) (.tlbinv 2 0 0)
/-- The address of COMPATTR: 128-aligned, in space 01, or for a query also in space 10 naming HBM, the second tier or host
memory (R371). -/
def attrAddress (s : State) (x : W64) (query : Bool) : Body W64 := do
  checkedAddress s x
  need (x.toNat % 128 == 0) cAlign x
  let t := bits x 61 58
  need (bits x 63 62 == 1 || (query && bits x 63 62 == 2 && (t == 1 || t == 2 || t == 5))) cRange x
  remoteAddress s x 128
/-- COMPATTR QUERY (R371). -/
def execCompattrQuery (a b : Opd) (xtg : BitVec 6) (_xte : BitVec 1) (s : State) : Outcome :=
  runBody s 0xF4 .plain 2 1 do
    let (x, _) ← readS s a false
    let _ ← readS s b false
    let va ← attrAddress s x true
    stageCommand s none (.compattr 0 va false xtg (bodyCtx s).fm)
/-- COMPATTR SET (R371). -/
def execCompattrSet (a b : Opd) (xtg : BitVec 6) (xte : BitVec 1) (s : State) : Outcome :=
  runBody s 0xF4 .plain 2 1 do
    privileged s
    let (x, _) ← readS s a false
    let (y, _) ← readS s b false
    let va ← attrAddress s x false
    need (y.toNat < 2) cIllegalOperand 0
    stageCommand s (tagOf xtg xte) (.compattr 1 va (y == 1) 0 (bodyCtx s).fm)
/-- COMPATTR RECOMP (R371). -/
def execCompattrRecomp (a b : Opd) (xtg : BitVec 6) (xte : BitVec 1) (s : State) : Outcome :=
  runBody s 0xF4 .plain 2 1 do
    privileged s
    let (x, _) ← readS s a false
    let _ ← readS s b false
    let va ← attrAddress s x false
    stageCommand s (tagOf xtg xte) (.compattr 2 va false 0 (bodyCtx s).fm)

end Sys2Proof.Machine
end

