-- ==== Sys2Proof/Machine/Fabric.lean ====
section
/-! DEFINITION. The fabric instructions as a body issues them, and the words of the fabric registers (15_fabric, R386, R387, R395,
R397, R400, R401). -/
namespace Sys2Proof.Machine

/-- STATE of a port (R387). -/
def portStateCode (p : PState) : Nat :=
  match p with | .dark => 0 | .train => 1 | .verify => 2 | .active => 3 | .quiesce => 4 | .drain => 5 | .failed => 6
/-- FAB_PCTL (R387). -/
def portControl (p : Port) : W64 :=
  BitVec.ofNat 64 (p.dark * 2 ^ 48 + p.expPort * 2 ^ 40 + p.expPeer * 2 ^ 24 + ofBool p.cmp * 2 ^ 23)
/-- FAB_PSTAT (R387). -/
def portStatus (p : Port) : W64 :=
  BitVec.ofNat 64 (portStateCode p.st * 2 ^ 61 + p.cause * 2 ^ 58 + ofBool p.busy * 2 ^ 57 + p.peerPort * 2 ^ 40 +
    p.peer * 2 ^ 30 + p.replay.length * 2 ^ 20)
/-- FAB_RTCTL (R395). -/
def fabricRoutes (f : Fabric) : W32 :=
  BitVec.ofNat 32 (ofBool f.arm.isSome * 512 + ofBool f.sw * 256 + ofBool f.done1 * 128 + ofBool f.done0 * 64 + ofBool f.act)
/-- Word 0 of FAB_CST (R397). -/
def scheduleWord (c : Sched) : W64 :=
  BitVec.ofNat 64 (c.w0.toNat / 2 ^ 63 * 2 ^ 63 + ofBool c.run.isSome * 2 ^ 62 + bits c.w0 58 48 * 2 ^ 48 +
    c.doneN % 65536 * 2 ^ 32)
/-- FAB_ID (R386). -/
def fabricId (f : Fabric) : W64 := BitVec.ofNat 64 (ofBool f.idV * 2 ^ 63 + f.id)

/-- COLL (R401). -/
def execColl (a : Opd) (xk xtg : BitVec 6) (xte : BitVec 1) (s : State) : Outcome :=
  runBody s 0xF5 .plain 2 1 do
    need (bitAt (tget s.fab.cst Sched.reset xk.toNat).w0 63) cIllegalOperand 0
    let (x, _) ← readS s a false
    checkedAddress s x
    need (bits x 63 62 ≤ 1) cRange x
    let r ← remoteAddress s x 1
    need (r.toNat % 64 == 0) cAlign r
    stageCommand s (tagOf xtg xte) (.coll xk.toNat r)
/-- ROUTESW (R401). -/
def execRoutesw (xtg : BitVec 6) (xte : BitVec 1) (s : State) : Outcome :=
  runBody s 0xF5 .plain 2 1 do
    privileged s
    need (s.fab.arm.isNone && !s.fab.sw) cIllegalOperand 0
    takeCp s
    let w ← get
    stage (.arm { id := 0, core := s.stage.core, cx := s.stage.cx.val, tag := tagOf xtg xte, op := .routesw, org := ⟨w.rule, w.pc, w.opc⟩ })
/-- The operands of a port command within the limits of R393 and R401. -/
def portOperandOk (v : W64) : Bool :=
  (bits v 15 0 ≤ 1023 || bits v 15 0 == 0xFFFF) && (bits v 23 16 ≤ 47 || bits v 23 16 == 0xFF) && bits v 31 25 == 0 &&
    bits v 63 48 == 0
/-- The shared steps of FPORT (R401). -/
def runFport (op : Nat) (a b : Opd) (xtg : BitVec 6) (xte : BitVec 1) (s : State) : Outcome :=
  runBody s 0xF5 .plain 2 1 do
    privileged s
    let (x, _) ← readS s a false
    let (y, _) ← readS s b false
    need (x.toNat ≤ 47 && portOperandOk y) cIllegalOperand 0
    stageCommand s (tagOf xtg xte) (.fport op x.toNat y)
/-- FPORT QUIESCE (R401). -/
def execFportQuiesce (a b : Opd) (xtg : BitVec 6) (xte : BitVec 1) (s : State) : Outcome := runFport 0 a b xtg xte s
/-- FPORT TRAIN (R401). -/
def execFportTrain (a b : Opd) (xtg : BitVec 6) (xte : BitVec 1) (s : State) : Outcome := runFport 1 a b xtg xte s
/-- FPORT CYCLE (R401). -/
def execFportCycle (a b : Opd) (xtg : BitVec 6) (xte : BitVec 1) (s : State) : Outcome := runFport 2 a b xtg xte s
/-- FSTAT, with fabric state as at cycle 0 (R401). -/
def execFstat (a d e : Opd) (t : Tag) (xsel : BitVec 3) (s : State) : Outcome :=
  runBody s 0xF5 .plain 2 1 do
    let (x, sa) ← readS s a (keepIn t)
    let n := x.toNat
    match xsel.toNat with
    | 0 =>
      need (n < 64) cIllegalOperand 0
      resultS s d e ⟨t, 0, sa, 0⟩ (if n < 48 then portStatus (portOf s n) else 0)
    | 1 =>
      need (n == 0) cIllegalOperand 0
      resultS s d e ⟨t, 0, sa, 0⟩ ((fabricRoutes s.fab).zeroExtend 64)
    | 2 =>
      need (n < 64) cIllegalOperand 0
      resultS s d e ⟨t, 0, sa, 0⟩ (scheduleWord (tget s.fab.cst Sched.reset n))
    | 3 =>
      need (n < 16) cIllegalOperand 0
      resultS s d e ⟨t, 0, sa, 0⟩ ((vget s.fab.cnt n 0).zeroExtend 64)
    | 4 =>
      need (n == 0) cIllegalOperand 0
      resultS s d e ⟨t, 0, sa, 0⟩ (fabricId s.fab)
    | _ => illegal

end Sys2Proof.Machine
end

