-- ==== Sys2Proof/Machine/Memory.lean ====
section
/-! DEFINITION. Memory outside the cores: HBM at home with its line codes and poison, the second tier, host memory, the dies'
Reservoir copies, and translation by the TLBs and the table walk (09_memory_model, R265 to R267; 13_package_memory, R354 to
R366). -/
namespace Sys2Proof.Machine

/-! ## Home (13_package_memory, R354, R363 to R366) -/

/-- The entry of the core map that a byte of HBM belongs to, where start-up wrote the map. -/
def mapSlot (s : State) (a : Nat) : Option Nat :=
  match s.pkg.mapAt with
  | some b => if b ≤ a && a < b + 589824 then some ((a - b) / 8) else none
  | none => none
/-- A byte of HBM at home. -/
def hbmByte (s : State) (a : Nat) : Byte :=
  match mapSlot s a with
  | some k => (tget s.pkg.coreMap (deliveryEntry (k / 256) (k % 256)) k).extractLsb' (8 * (a % 8)) 8
  | none => memByte s.hbm a
/-- A byte of HBM written at home. -/
def hbmPut (s : State) (a : Nat) (v : Byte) : State :=
  match mapSlot s a with
  | some k =>
    let e := tget s.pkg.coreMap (deliveryEntry (k / 256) (k % 256)) k
    { s with pkg := { s.pkg with coreMap := tput s.pkg.coreMap k (putBits e (8 * (a % 8) + 7) (8 * (a % 8)) v.toNat) } }
  | none => { s with hbm := memPut s.hbm a v }
/-- n bytes of HBM at home. -/
def hbmBytes (s : State) (a n : Nat) : List Byte := (List.range n).map (fun i => hbmByte s (a + i))

/-- Whether x - base fits n bytes as a signed number, modulo 2^w (R364). -/
def deltaFits (w n base x : Nat) : Bool :=
  let d := (x + 2 ^ w - base) % 2 ^ w
  d < 2 ^ (8 * n - 1) || 2 ^ w - 2 ^ (8 * n - 1) ≤ d
/-- The words of a line, w bytes each. -/
def lineWords (bs : List Byte) (w : Nat) : List Nat := (List.range (128 / w)).map (fun i => leNat ((bs.drop (w * i)).take w))
/-- The encodings that apply to a line as (sectors, code), in tie order (R364). -/
def lineChoices (bs : List Byte) : List (Nat × Nat) :=
  let w8 := lineWords bs 8
  let w4 := lineWords bs 4
  let b8 := w8.headD 0
  let b4 := w4.headD 0
  let opt := fun (c : Bool) (p : Nat × Nat) => if c then [p] else []
  [(4, 0)] ++ opt (bs.all (fun b => b == 0)) (0, 1) ++ opt (w8.all (fun x => x == b8)) (1, 2) ++
    opt (w8.all (deltaFits 64 1 b8)) (1, 3) ++ opt (w8.all (deltaFits 64 2 b8)) (2, 4) ++
    opt (w8.all (deltaFits 64 4 b8)) (3, 7) ++ opt (w4.all (deltaFits 32 1 b4)) (2, 5) ++
    opt (w4.all (deltaFits 32 2 b4)) (3, 6)
/-- The code of a line as compression chooses it: the fewest sectors, a tie to the earlier row (R364). -/
def lineCode (bs : List Byte) : Nat :=
  ((lineChoices bs).foldl (fun (best : Nat × Nat) p => if p.1 < best.1 then p else best) (4, 0)).2
/-- The sectors that a code occupies (R364). -/
def codeSectors (c : Nat) : Nat := match c with | 1 => 0 | 2 => 1 | 3 => 1 | 4 => 2 | 5 => 2 | 6 => 3 | 7 => 3 | _ => 4
/-- The differences of a line's words, w bytes each, from its first word, n bytes each (R364). -/
def lineDeltas (bs : List Byte) (w n : Nat) : List Byte :=
  let ws := lineWords bs w
  ws.flatMap (fun x => leBytes n ((x + 2 ^ (8 * w) - ws.headD 0) % 2 ^ (8 * w) % 2 ^ (8 * n)))
/-- The bytes that the stack stores for a line under a code: the base, then the deltas, then zero to the end of the last sector (R364).
hbmBytes is the controller's decoded view of them: no read reaches the stored bytes but through it (R363; log entry 115). -/
def storedLine (bs : List Byte) (code : Nat) : List Byte :=
  let enc := match code with
    | 1 => []
    | 2 => bs.take 8
    | 3 => bs.take 8 ++ lineDeltas bs 8 1
    | 4 => bs.take 8 ++ lineDeltas bs 8 2
    | 5 => bs.take 4 ++ lineDeltas bs 4 1
    | 6 => bs.take 4 ++ lineDeltas bs 4 2
    | 7 => bs.take 8 ++ lineDeltas bs 8 4
    | _ => bs
  enc ++ List.replicate (32 * codeSectors code - enc.length) 0
/-- A counter of a stack, or of a second-tier port from index 32 on, increased (R372); the power meter counts the sectors that the
stacks transfer (R366). -/
def countStack (s : State) (stack n k : Nat) : State :=
  let v := satAdd (tget s.pkg.stackCnt 0 (8 * stack + n)) k
  let moved := if n < 2 && stack < 32 then k else 0
  { s with pkg := { s.pkg with stackCnt := tput s.pkg.stackCnt (8 * stack + n) v, sectors := s.pkg.sectors + moved } }
/-- The stack of an HBM address (R354). -/
def stackOf (a : Nat) : Nat := a / 256 % 32
/-- The code of a 128-byte line at home; 0001 since start-up where nothing has been written (14_package_host, R379). -/
def lineMeta (s : State) (line : Nat) : Nat := (tget s.hbmMeta 1#4 line).toNat
/-- The bytes that the stack stores for a line: its code's sectors (R364). -/
def storedSectors (s : State) (line : Nat) : List Byte := storedLine (hbmBytes s (128 * line) 128) (lineMeta s line)
/-- A read of a line at home counted: its occupied sectors read, the others elided (R366), and each of its 64-byte units in which the
controller corrected an error (R355). -/
def countRead (s : State) (line : Nat) : State :=
  let n := codeSectors (lineMeta s line)
  let fixed := ([2 * line, 2 * line + 1].filter (fun u => s.hbmCorr.contains u)).length
  let s := countStack (countStack s (stackOf (128 * line)) 0 n) (stackOf (128 * line)) 2 (4 - n)
  if fixed == 0 then s else countStack s (stackOf (128 * line)) 4 fixed
/-- Bytes of one 128-byte line written at home: encoded afresh when whole, else read and merged, under the CMP bit of the write's leaf
(R363, R365); a whole-line write clears poison, a merge into a line that cannot be read keeps it (R355, R364). -/
def homeWriteLine (s : State) (line : Nat) (bs : List (Nat × Byte)) (cmp : Bool) : State :=
  let stack := stackOf (128 * line)
  let whole := bs.length == 128
  let lost := s.hbmPoison.contains line || 7 < lineMeta s line
  let s := if whole then s else countStack (countRead s line) stack 3 1
  let s := bs.foldl (fun s b => hbmPut s b.1 b.2) s
  let code := if cmp then lineCode (hbmBytes s (128 * line) 128) else 0
  let n := codeSectors code
  let s := countStack (countStack s stack 1 n) stack 2 (4 - n)
  let rest := s.hbmPoison.filter (fun l => l != line)
  { s with
    hbmMeta := if code == 1 then tdel s.hbmMeta line else tput s.hbmMeta line (BitVec.ofNat 4 code)
    hbmPoison := if !whole && lost then line :: rest else rest
    hbmCorr := s.hbmCorr.filter (fun u => u / 2 != line) }
/-- The 128-byte lines that a range touches. -/
def linesOf (a n : Nat) : List Nat := (List.range ((a + n + 127) / 128 - a / 128)).map (fun i => a / 128 + i)
/-- Bytes of HBM written at home, line by line. -/
def homeLines (s : State) (ps : List (Nat × Byte)) (cmp : Bool) : State :=
  ((ps.map (fun p => p.1 / 128)).eraseDups).foldl
    (fun s l => homeWriteLine s l (ps.filter (fun p => p.1 / 128 == l)) cmp) s
/-- The port that holds a second-tier address (R356). -/
def tier2Port (s : State) (a : Nat) : Nat :=
  let present := (List.range 16).filter (bitAt s.pkg.stcfg)
  let unit := match bits s.pkg.stcfg 21 20 with | 1 => 65536 | 2 => 2097152 | _ => 4096
  let ways := 2 ^ (min (bits s.pkg.stcfg 19 16) (Nat.log2 present.length))
  present.getD (a / unit % ways) 0
/-- The index of the counters that an access to a physical address counts under: its stack, or 32 and its port (R372). -/
def counterPlace (s : State) (pa : W64) : Nat :=
  if bits pa 61 58 == 1 then stackOf (bits pa 40 0) else 32 + tier2Port s (bits pa 43 0)
/-- Bytes of the second tier written at home: never compressed; a whole line clears poison (R355, R356). -/
def tier2Write (s : State) (ps : List (Nat × Byte)) : State :=
  let ls := (ps.map (fun p => p.1 / 128)).eraseDups
  let s := ls.foldl (fun s l => countStack s (32 + tier2Port s (128 * l)) 1 4) s
  let whole := fun (l : Nat) => (ps.filter (fun p => p.1 / 128 == l)).length == 128
  { s with tier2 := memStore s.tier2 ps, tier2Poison := s.tier2Poison.filter (fun l => !(ls.contains l && whole l)) }
/-- The space 10 address of an HBM byte. -/
def hbmAddress (a : Nat) : W64 := BitVec.ofNat 64 (2 ^ 63 + 2 ^ 58 + a)
/-- Bytes written at a physical address of HBM or the second tier, given with their distance from it, whatever migrates. -/
def placeWrite (s : State) (pa : W64) (ps : List (Nat × Byte)) (cmp : Bool) : State :=
  match bits pa 61 58 with
  | 1 => homeLines s (ps.map (fun p => (bits pa 40 0 + p.1, p.2))) cmp
  | _ => tier2Write s (ps.map (fun p => (bits pa 43 0 + p.1, p.2)))
/-- The bytes of a page that a migration has copied so far (R369). -/
def copiedBytes (m : Migration) : Nat :=
  match m.phase with | .waiting => 0 | .copying pos => pos | .switching => m.size | .invalidating => m.size
/-- A write performed at an old page's home goes to the new page as well, for the lines that have been copied (R369). -/
def forkWrite (s : State) (pa : W64) (bs : List Byte) (m : Migration) : State :=
  let at_ := fun (p : Nat × Byte) => p.1 - m.old.toNat
  let mine := (placed pa.toNat bs).filter (fun p => m.old.toNat ≤ p.1 && p.1 - m.old.toNat < copiedBytes m)
  if mine.isEmpty then s
  else countStack (placeWrite s m.new (mine.map (fun p => (at_ p, p.2))) m.cmp) (counterPlace s pa) 7 1
/-- Bytes written at home in HBM or the second tier, and at the new pages that they fork to. -/
def forkedWrite (s : State) (pa : W64) (bs : List Byte) (cmp : Bool) : State :=
  let s := placeWrite s pa (placed 0 bs) cmp
  s.pkg.migs.foldl (fun s m => forkWrite s pa bs m) s
/-- Bytes of HBM written at home. -/
def homeWrite (s : State) (a : Nat) (bs : List Byte) (cmp : Bool) : State := forkedWrite s (hbmAddress a) bs cmp

/-! ## Copies in the dies' Reservoirs (09_memory_model, R262, R266, R267; 10_die, R290) -/

/-- A counter of a die increased (10_die, R293). -/
def countDie (s : State) (die n k : Nat) : State :=
  let d := dieOf s die
  setDie s die { d with cnt := vset d.cnt n (satAdd (vget d.cnt n 0) k) }
/-- A line of a die's copy, when present. -/
def cacheLine (s : State) (die line : Nat) : Option CacheLine := (dieOf s die).cache.find? (fun l => l.line == line)
/-- A line of a die's copy put in place of the one it holds. -/
def putLine (s : State) (die : Nat) (l : CacheLine) : State :=
  let d := dieOf s die
  setDie s die { d with cache := l :: d.cache.filter (fun x => x.line != l.line) }
/-- The ticks until a bank of a die's Reservoir leaves the refresh window it is in; 0 outside one (10_die, R292). -/
def refreshWait (s : State) (die bank : Nat) : Nat :=
  let t := (dieTime s die).toNat
  let t0 := (dieOf s die).rsvref.toNat
  let at_ := (t - t0) % 64000
  if t < t0 || at_ < 2000 * bank || 2000 * bank + 320 ≤ at_ then 0 else 2000 * bank + 320 - at_
/-- The bank of a pinned offset (10_die, R290). -/
def pinnedBank (d : Die) (off : Nat) : Nat := if d.p == 0 then 0 else off / 64 % d.p
/-- The bank of the cache part of a Reservoir that holds a line: the sets are interleaved over banks P to 31 (10_die, R290). -/
def cacheBank (d : Die) (line : Nat) : Nat := d.p + line % (32 - d.p)
/-- The set of a line in the cache part of a Reservoir: 16 ways over banks P to 31, interleaved by line address (10_die, R290). -/
def cacheSet (d : Die) (line : Nat) : Nat := line % ((32 - d.p) * 6144)
/-- The lines of a die's copy that share a line's set. -/
def sameSet (d : Die) (line : Nat) : List CacheLine := d.cache.filter (fun l => cacheSet d l.line == cacheSet d line)
/-- Whether a line is present, or may be allocated: a way is free, or holds a line without a write on its way home (R267; 10_die,
R290). -/
def wayFree (s : State) (die line : Nat) : Bool :=
  let set := sameSet (dieOf s die) line
  (cacheLine s die line).isSome || set.length < 16 || set.any (fun l => l.out.isEmpty)
/-- Whether a range of HBM touches a poisoned line, or one with a reserved code (R355, R364). -/
def homeBad (s : State) (a n : Nat) : Bool := (linesOf a n).any (fun l => s.hbmPoison.contains l || 7 < lineMeta s l)
/-- A line filled from home into the die's copy; with all 32 banks pinned no copy exists. A full set loses a line first, of the
replacement policy's choice, and the policy may drop the new line at any time from now on (R267, R290; log entry 73). -/
def fillLine (s : State) (die line : Nat) : State :=
  let d := dieOf s die
  if d.p == 32 || (cacheLine s die line).isSome then s
  else
    let set := sameSet d line
    let s :=
      if set.length < 16 then s
      else
        let (f, s) := takeFresh s
        let may := set.filter (fun l => l.out.isEmpty)
        match may[Config.choice f % may.length]? with
        | some v => setDie s die { d with cache := d.cache.erase v }
        | none => s
    let s := schedule (countRead s (line / 2)) s.now .cacheReplacement (evArgs die line 0)
    putLine s die { line := line, data := ofBytes (hbmBytes s (64 * line) 64), out := [], poison := homeBad s (64 * line) 64,
                    ue := false, corr := false }
/-- The bytes of a write on its way home put over a line's. -/
def overWrite (line : Nat) (v : V512) (o : XOp) : V512 :=
  match o.req.kind with
  | .write n x => (placed (bits o.pa 40 0) (leBytes n x.toNat)).foldl (fun (v : V512) p =>
      if p.1 / 64 == line then putBits v (8 * (p.1 % 64) + 7) (8 * (p.1 % 64)) p.2.toNat else v) v
  | _ => v
/-- A line of a die's copy before it is used: one with an uncorrectable error is dropped and fetched again from home, under the writes of
it that are still on their way there; a correctable error is corrected; each counts in RSV_CORR (10_die, R290). -/
def mendLine (s : State) (die line : Nat) : State :=
  match cacheLine s die line with
  | some c =>
    if c.ue then
      let s := countDie (countRead s (line / 2)) die 5 1
      let out := s.xops.filter (fun o => c.out.contains o.mark)
      putLine s die { c with
        data := out.foldl (overWrite line) (ofBytes (hbmBytes s (64 * line) 64)), poison := homeBad s (64 * line) 64,
        ue := false, corr := false }
    else if c.corr then putLine (countDie s die 5 1) die { c with corr := false }
    else s
  | none => s
/-- The view of a byte of HBM on a die: the die's copy of its line when present, else home (R267). -/
def viewByte (s : State) (die a : Nat) : Byte :=
  match cacheLine s die (a / 64) with
  | some l => l.data.extractLsb' (8 * (a % 64)) 8
  | none => hbmByte s a
/-- The 64-byte lines that a range touches. -/
def linesOf64 (a n : Nat) : List Nat := (List.range ((a + n + 63) / 64 - a / 64)).map (fun i => a / 64 + i)
/-- A read of HBM on a die: each line's copy, filled on a miss; hits and misses counted (R267; 10_die, R293). -/
def dieRead (s : State) (die a n : Nat) : List Byte × State :=
  let s := (linesOf64 a n).foldl
    (fun s l => if (dieOf s die).p == 32 then countRead s (l / 2)
      else if (cacheLine s die l).isSome then countDie s die 2 1 else fillLine (countDie s die 3 1) die l) s
  ((List.range n).map (fun i => viewByte s die (a + i)), s)
/-- The lines of a range that a die's copy holds made ready to be used. -/
def mendLines (s : State) (die a n : Nat) : State := (linesOf64 a n).foldl (fun s l => mendLine s die l) s
/-- Whether bytes of HBM read as poisoned on a die: its copy's where it holds the line, else home's (13_package_memory, R355). -/
def dieBad (s : State) (die a n : Nat) : Bool :=
  (linesOf64 a n).any (fun l => match cacheLine s die l with | some c => c.poison | none => homeBad s (64 * l) 64)
/-- A write of HBM performed in the die's copy: the line allocated when absent, and marked as holding a write on its way home (R266,
R267). -/
def dieWrite (s : State) (die a : Nat) (bs : List Byte) (mark : Nat) : State :=
  if (dieOf s die).p == 32 then s
  else
    (linesOf64 a bs.length).foldl (fun s l =>
      let s := fillLine (mendLine s die l) die l
      match cacheLine s die l with
      | some c =>
        let mine := (placed a bs).filter (fun p => p.1 / 64 == l)
        let v := mine.foldl (fun (v : V512) p => putBits v (8 * (p.1 % 64) + 7) (8 * (p.1 % 64)) p.2.toNat) c.data
        putLine s die { c with data := v, out := c.out ++ [mark], poison := c.poison && mine.length != 64 }
      | none => s) s
/-- A write of a die's copy has reached home: the lines that hold it no longer await it. -/
def cameHome (s : State) (die a n mark : Nat) : State :=
  (linesOf64 a n).foldl (fun s l =>
    match cacheLine s die l with
    | some c => putLine s die { c with out := c.out.filter (fun m => m != mark) }
    | none => s) s
/-- Every line of a die's copy dropped, but those whose writes are on their way home (R269). -/
def dropLines (s : State) (die : Nat) : State :=
  let d := dieOf s die
  setDie s die { d with cache := d.cache.filter (fun l => !l.out.isEmpty) }

/-! ## The pinned store (10_die, R289 to R292) -/

/-- n bytes of a pinned store. -/
def pinnedBytes (s : State) (die off n : Nat) : List Byte := memBytes (dieOf s die).pinned off n
/-- The aligned 8-byte words that a range touches. -/
def memWords (off n : Nat) : List Nat := (List.range ((off + n + 7) / 8 - off / 8)).map (fun i => off / 8 + i)
/-- Whether bytes of a pinned store hold an uncorrectable error (10_die, R289). -/
def pinnedBad (s : State) (die off n : Nat) : Bool := (memWords off n).any (fun w => (dieOf s die).pinUe.contains w)
/-- Correctable errors of bytes of a pinned store that are read: corrected and counted in RSV_CORR (10_die, R289, R293). -/
def pinnedFix (s : State) (die off n : Nat) : State :=
  let d := dieOf s die
  let hit := (memWords off n).filter (fun w => d.pinCorr.contains w)
  if hit.isEmpty then s
  else countDie (setDie s die { d with pinCorr := d.pinCorr.filter (fun w => !hit.contains w) }) die 5 hit.length
/-- Bytes written to a pinned store; the errors of the words written whole are gone. -/
def pinnedWrite (s : State) (die off : Nat) (bs : List Byte) : State :=
  let d := dieOf s die
  let keep := fun (w : Nat) => 8 * w < off || off + bs.length < 8 * w + 8
  setDie s die { d with
    pinned := memStore d.pinned (placed off bs), pinUe := d.pinUe.filter keep, pinCorr := d.pinCorr.filter keep }
/-- The space 10 address of an offset of a die's pinned store. -/
def pinnedAddress (die off : Nat) : W64 := BitVec.ofNat 64 (2 ^ 63 + 4 * 2 ^ 58 + die * 2 ^ 48 + off)
/-- Why accesses of an agent of a die to memory wait: the die whose Reservoir holds them up, the ticks until its last bank is out of
refresh or a way is free, the ticks that all of them wait (10_die, R292). -/
def reservoirWait (s : State) (die : Nat) (pa : W64) (n : Nat) : Nat × Nat × Nat :=
  let waits := fun (die : Nat) (banks : List Nat) =>
    let ws := banks.map (refreshWait s die)
    (die, ws.foldl max 0, ws.sum)
  match bits pa 61 58 with
  | 1 =>
    let d := dieOf s die
    let ls := linesOf64 (bits pa 40 0) n
    if d.p == 32 then (die, 0, 0)
    else if ls.any (fun l => !wayFree s die l) then (die, 1, 0)
    else waits die (ls.map (cacheBank d))
  | 4 => let k := bits pa 53 48; waits k ((linesOf64 (bits pa 27 0) n).map (fun l => pinnedBank (dieOf s k) (64 * l)))
  | _ => (die, 0, 0)
/-- A step put off until a Reservoir can serve its accesses; the ticks that they wait count once (10_die, R292, R293). -/
def putOff (s : State) (w : Nat × Nat × Nat) (op : Instr) (args : EvArgs) : State :=
  if s.agenda.contains ⟨s.now + w.2.1, op, args⟩ then s
  else schedule (if w.2.2 == 0 then s else countDie s w.1 4 w.2.2) (s.now + w.2.1) op args

/-! ## Translation (13_package_memory, R357 to R359) -/

/-- What a level of a walk finds. -/
inductive Walk where
  | next (table : W64)
  | leaf (e : W64) (size : Nat)
  | absent
  | broken
  /-- the entry lies in a poisoned line (R355) -/
  | poisoned
deriving DecidableEq, Repr

/-- The page that a leaf of a level maps (R358). -/
def pageSize (level : Nat) : Nat := match level with | 0 => 65536 | 1 => 2097152 | _ => 1073741824
/-- The index of an address in a table of a level (R358). -/
def tableIndex (level va : Nat) : Nat :=
  match level with | 3 => va / 2 ^ 39 % 512 | 2 => va / 2 ^ 30 % 512 | 1 => va / 2 ^ 21 % 512 | _ => va / 65536 % 32
/-- The space 10 address that an entry's PA names (R358). -/
def entryTarget (e : W64) : W64 := BitVec.ofNat 64 (2 ^ 63 + bits e 45 0 * 65536)
/-- An entry of a level as the walk reads it (R358). -/
def readEntry (s : State) (level : Nat) (e : W64) : Walk :=
  let t := entryTarget e
  if !bitAt e 63 then .absent
  else if bitAt e 62 then
    if level == 3 then .absent
    else if bits e 59 46 != 0 || t.toNat % pageSize level != 0 || !(bits t 61 58 == 1 || bits t 61 58 == 2 || bits t 61 58 == 5)
        || (bitAt e 60 && bits t 61 58 != 1) || !space10Ok s t 1
    then .broken
    else .leaf e (pageSize level)
  else if level == 0 then .absent
  else if bits e 59 46 != 0 || bits t 61 58 != 1 || !space10Ok s t 1 then .broken
  else .next t
/-- The HBM address of the entry of a table that an address indexes (R358). -/
def entryAt (level : Nat) (table : W64) (va : Nat) : Nat := bits table 40 0 + 8 * tableIndex level va
/-- One level of a walk: the entry read at home (R355, R358). -/
def walkLevel (s : State) (level : Nat) (table : W64) (va : Nat) : Walk :=
  let a := entryAt level table va
  if homeBad s a 8 then .poisoned else readEntry s level (BitVec.ofNat 64 (leNat (hbmBytes s a 8)))
/-- Whether a queue has an address space (R357). -/
def asValid (s : State) (q : Nat) : Bool := bitAt (queueOf s q).asroot 63
/-- The root table of a queue; none without an address space, or with a root outside HBM (R357, R358). -/
def walkRoot (s : State) (q : Nat) : Option W64 :=
  let r := (queueOf s q).asroot
  let t := entryTarget r
  if bitAt r 63 && bits t 61 58 == 1 && space10Ok s t 1 then some t else none
/-- A whole walk from a table of a level, with the addresses of the entries that it reads. -/
def walkFrom (s : State) (level : Nat) (table : W64) (va : Nat) : Walk × List Nat :=
  match walkLevel s level table va, level with
  | .next t, n + 1 =>
    let (w, l) := walkFrom s n t va
    (w, entryAt level table va :: l)
  | w, _ => (w, [entryAt level table va])
/-- The reads of a walk counted: each entry's line, and a poisoned one (R355, R366). -/
def countWalk (s : State) (w : Walk) (l : List Nat) : State :=
  let s := l.foldl (fun s a => countRead s (a / 128)) s
  if w == .poisoned then countStack s (stackOf (l.getLastD 0)) 5 1 else s
/-- A counter of the translation unit increased (R372). -/
def countXl (s : State) (n : Nat) : State :=
  { s with pkg := { s.pkg with xlCnt := vset s.pkg.xlCnt n (satAdd (vget s.pkg.xlCnt n 0) 1) } }
/-- The TLB entry of a list that maps an address for a queue. -/
def tlbHit (ts : List TlbEntry) (q va : Nat) : Option TlbEntry :=
  ts.find? (fun t => t.queue == q && t.va ≤ va && va < t.va + t.size)
/-- The set of a cluster's TLB, of 512, that an entry lies in (R359; log entry 73). -/
def clusterSet (t : TlbEntry) : Nat := Config.tlbSet t.queue t.va t.size % 512
/-- A TLB of sets of some ways with one more entry; a full set first loses one of the replacement policy's choice (R359). -/
def tlbAdd (ts : List TlbEntry) (ways pick : Nat) (set : TlbEntry → Nat) (t : TlbEntry) : List TlbEntry :=
  let mine := ts.filter (fun x => set x == set t)
  if mine.any (fun x => x.queue == t.queue && x.va == t.va) then ts
  else if mine.length < ways then t :: ts
  else t :: ts.erase (mine.getD (pick % ways) t)
/-- A leaf cached in the core's and the cluster's TLB (R359). -/
def tlbFill (s : State) (k q va size : Nat) (leaf : W64) : State :=
  let e : TlbEntry := { queue := q, va := va / size * size, size := size, leaf := leaf }
  let (f, s) := takeFresh s
  let c := coreOf s k
  let s := setCore s k { c with tlb := tlbAdd c.tlb 96 (Config.choice f) (fun _ => 0) e }
  let cl := clusterOf s (clusterKey k)
  setCluster s (clusterKey k) { cl with tlb := tlbAdd cl.tlb 8 (Config.choice (f + 1)) clusterSet e }
/-- The leaf that the core's or the cluster's TLB holds for an address. -/
def tlbLookup (s : State) (k q va : Nat) : Option TlbEntry :=
  match tlbHit (coreOf s k).tlb q va with
  | some t => some t
  | none => tlbHit (clusterOf s (clusterKey k)).tlb q va
/-- The physical address that a leaf gives to an address. -/
def leafAddress (leaf : W64) (va size : Nat) : W64 := BitVec.ofNat 64 ((entryTarget leaf).toNat + va % size)

/-- What a translation gives: a physical address with its leaf's CMP, an absent page, a failure with PAGE_FAULT, or a table whose line is
poisoned. -/
inductive Trans where
  | ok (pa : W64) (cmp : Bool)
  | absent
  | bad
  | poisoned
deriving DecidableEq, Repr

/-- A leaf applied to an access: a write through W = 0 fails (R359). -/
def leafAccess (leaf : W64) (va size : Nat) (write : Bool) : Trans :=
  if write && !bitAt leaf 61 then .bad else .ok (leafAddress leaf va size) (bitAt leaf 60)
/-- The translation of an access of an engine, in the cluster of the core that issued its command; without an address space it fails,
whatever a TLB holds (R357, R359). -/
def translate (s : State) (k q va : Nat) (write : Bool) : Trans × State :=
  if !asValid s q then (.bad, s)
  else match tlbLookup s k q va with
  | some t => (leafAccess t.leaf va t.size write, s)
  | none =>
    let s := countXl (countXl s 0) 1
    match walkRoot s q with
    | none => (.bad, s)
    | some root =>
      let (w, l) := walkFrom s 3 root va
      let s := countWalk s w l
      match w with
      | .leaf e size => (leafAccess e va size write, tlbFill s k q va size e)
      | .absent => (.absent, s)
      | .poisoned => (.poisoned, s)
      | _ => (.bad, s)
/-- LOG2 of the event ring: 8 to 16, any other value acts as 8 (14_package_host, R375). -/
def ringLog (p : Pkg) : Nat := if 8 ≤ bits p.evcfg 4 0 && bits p.evcfg 4 0 ≤ 16 then bits p.evcfg 4 0 else 8
/-- Whether the ring has room for the event at TAIL. -/
def ringRoom (p : Pkg) : Bool := (p.evTail - p.evHead).toNat < 2 ^ ringLog p
/-- A free tag of the tag table (14_package_host, R374). -/
def freeTag (p : Pkg) : Option Nat := (List.range 64).find? (fun n => !p.tags.any (fun e => e.1 == n))
/-- Whether the event at the ring's tail could be written but for its tag, and came before every page request that waits for one
(14_package_host, R374, R375). -/
def eventFirst (p : Pkg) : Bool :=
  match p.waiting with
  | e :: _ => e.kind == 1 && e.behind == 0 && bitAt p.evcfg 5 && ringRoom p
  | [] => false
/-- Page requests take free tags in the order in which they came, and behind an event that came before them; the number bounds them
(14_package_host, R374). -/
def grantTags : Nat → State → State
  | 0, s => s
  | n + 1, s =>
    match s.pkg.pageWait, freeTag s.pkg with
    | (q, page, ops) :: r, some tag =>
      if eventFirst s.pkg then s
      else
        let s := countHeld s
        let left := s.pkg.waiting.map (fun (e : HostEvent) => { e with behind := e.behind - 1 })
        grantTags n (countXl { s with
          pkg := { s.pkg with tags := tput s.pkg.tags tag (.page q page ops s.now), pageWait := r, waiting := left } } 2)
    | _, _ => s
/-- A page request for an operation: it joins the request of its page, or takes a tag, or waits for one (R360;
14_package_host, R374). -/
def requestPage (s : State) (q va op : Nat) : State :=
  let page := va / 65536
  let mine := fun (e : Nat × HostTag) => match e.2 with | .page q' p _ _ => q' == q && p == page | .event _ _ _ _ => false
  match s.pkg.tags.find? mine with
  | some (n, .page q' p ops since) =>
    if ops.contains op then s
    else { s with pkg := { s.pkg with tags := tput s.pkg.tags n (.page q' p (ops ++ [op]) since) } }
  | _ =>
    match s.pkg.pageWait.find? (fun w => w.1 == q && w.2.1 == page) with
    | some w =>
      if w.2.2.contains op then s
      else
        let put := fun (v : Nat × Nat × List Nat) => if v.1 == q && v.2.1 == page then (q, page, v.2.2 ++ [op]) else v
        { s with pkg := { s.pkg with pageWait := s.pkg.pageWait.map put } }
    | none =>
      let s := countHeld s
      grantTags 64 (startHeld { s with pkg := { s.pkg with pageWait := s.pkg.pageWait ++ [(q, page, [op])] } })

/-! ## Physical memory as engines reach it -/

/-- The sectors of a read of the second tier counted under its port (R372). -/
def countTier2Read (s : State) (pa : W64) (n : Nat) : State :=
  if bits pa 61 58 == 2 then
    (linesOf (bits pa 43 0) n).foldl (fun s l => countStack s (32 + tier2Port s (128 * l)) 0 4) s
  else s
/-- A read at home by an engine counted: the sectors of HBM lines under their stacks, of the second tier under its ports (R366,
R372). -/
def countHome (s : State) (pa : W64) (n : Nat) : State :=
  if bits pa 61 58 == 1 then (linesOf (bits pa 40 0) n).foldl countRead s else countTier2Read s pa n
/-- Whether bytes at a space 10 address of HBM, the second tier or host memory read as poisoned (R355, R356). -/
def physBad (s : State) (pa : W64) (n : Nat) : Bool :=
  match bits pa 61 58 with
  | 1 => homeBad s (bits pa 40 0) n
  | 2 => (linesOf (bits pa 43 0) n).any (fun l => s.tier2Poison.contains l)
  | _ => false
/-- Whether bytes at a space 10 address read as poisoned, or as uncorrectable in a pinned store, by an agent of a die (R355, R356;
10_die, R289). -/
def physBadOn (s : State) (die : Nat) (pa : W64) (n : Nat) : Bool :=
  match bits pa 61 58 with
  | 1 => dieBad s die (bits pa 40 0) n
  | 4 => pinnedBad s (bits pa 53 48) (bits pa 27 0) n
  | _ => physBad s pa n
/-- The lines that an agent of a die is about to read made ready (10_die, R290). -/
def physReady (s : State) (die : Nat) (pa : W64) (n : Nat) : State :=
  if bits pa 61 58 == 1 then mendLines s die (bits pa 40 0) n else s
/-- n bytes at a space 10 address, read as an agent of a die reads them (09_memory_model, R267). -/
def physRead (s : State) (die : Nat) (pa : W64) (n : Nat) : List Byte × State :=
  match bits pa 61 58 with
  | 1 => dieRead s die (bits pa 40 0) n
  | 2 => (memBytes s.tier2 (bits pa 43 0) n, s)
  | 3 =>
    let c := coreOf s (256 * bits pa 46 38 + bits pa 37 30)
    ((List.range n).map (fun i => localByte c (windowOffset c (bits pa 18 0 + i) false)), s)
  | 4 => (pinnedBytes s (bits pa 53 48) (bits pa 27 0) n, pinnedFix s (bits pa 53 48) (bits pa 27 0) n)
  | 5 => (memBytes s.host (bits pa 56 0) n, s)
  | _ => (List.replicate n 0, s)
/-- n bytes at a space 10 address read at home: no die's copy takes part. -/
def homeRead (s : State) (pa : W64) (n : Nat) : List Byte :=
  match bits pa 61 58 with
  | 1 => hbmBytes s (bits pa 40 0) n
  | 2 => memBytes s.tier2 (bits pa 43 0) n
  | 5 => memBytes s.host (bits pa 56 0) n
  | _ => List.replicate n 0
/-- Bytes written at home at a space 10 address, updating no copy (09_memory_model, R266). -/
def physHomeWrite (s : State) (pa : W64) (bs : List Byte) (cmp : Bool) : State :=
  match bits pa 61 58 with
  | 1 => forkedWrite s pa bs cmp
  | 2 => forkedWrite s pa bs cmp
  | 5 => { s with host := memStore s.host (placed (bits pa 56 0) bs) }
  | _ => s

end Sys2Proof.Machine
end

