-- ==== Sys2Proof/Machine/Region.lean ====
section
/-! DEFINITION. The region instructions as a body issues them, and the status words of queues and region slots
(12_package_launch, R322, R332, R347 to R353). -/
namespace Sys2Proof.Machine

/-- STATE of a queue (R322). -/
def queueStateCode (q : QState) : Nat :=
  match q with | .disabled => 0 | .active => 1 | .closing => 2 | .faulted => 3 | .closed => 4
/-- PKG_QSTAT (R322). -/
def queueStatus (q : Queue) : W64 :=
  BitVec.ofNat 64 (queueStateCode q.st * 2 ^ 61 + ofBool q.recfull * 2 ^ 60 + q.fcode.toNat * 2 ^ 48 + q.elev * 2 ^ 44 +
    q.cidx.toNat * 65536 + q.ridx.toNat)
/-- STATE of a region slot (R332). -/
def regionStateCode (r : RState) : Nat :=
  match r with
  | .free => 0 | .loading => 1 | .running => 2 | .swapping => 3 | .stopped => 4 | .rolling => 5 | .ended => 6
/-- RCTL of a region slot (R332). -/
def regionControl (r : Region) : W64 :=
  if r.st == .free then 0
  else
    BitVec.ofNat 64 (2 ^ 63 + regionStateCode r.st * 2 ^ 60 + r.x0 * 2 ^ 51 + r.y0 * 2 ^ 43 + (r.w - 1) * 2 ^ 34 +
      (r.h - 1) * 2 ^ 26 + r.fold * 2 ^ 24 + r.cfgid.toNat * 4096 + r.queue)
/-- RSTAT of a region slot (R332). -/
def regionStatus (r : Region) : W64 :=
  BitVec.ofNat 64 (r.sstep.toNat * 2 ^ 32 + ofBool r.norb * 2 ^ 31 + r.rbcnt * 2 ^ 28 + ofBool r.shadow * 2 ^ 27 +
    ofBool r.swpend * 2 ^ 26 + ofBool r.dup * 2 ^ 25)

/-- The end-of-stream tokens of EOS on the ports from p on (R348). -/
def pushEos (s : State) (ports : BitVec 4) (p : Nat) : Nat → Body Unit
  | 0 => pure ()
  | n + 1 => do
    if bitAt ports p then pushToken s p 0 (sbPush 5 0 0 0 (bodyCtx s).fm · false) else pure ()
    pushEos s ports (p + 1) n
/-- EOS (R348). -/
def execEos (xports : BitVec 4) (xend : BitVec 1) (s : State) : Outcome :=
  runBody s 0xF3 .plain 2 1 do
    need (xports != 0 || xend == 1) cIllegalOperand 0
    pushEos s xports 0 4
    if xend == 1 then stage .end_ else pure ()
/-- CFGSWAP (R349). -/
def execCfgswap (a : Opd) (xdis : BitVec 1) (xtg : BitVec 6) (xte : BitVec 1) (s : State) : Outcome :=
  runBody s 0xF3 .plain 2 1 do
    let own := (bodyCtx s).region
    let r ← (if a == 31#5 then do
        need (xte == 0) cIllegalOperand 0
        pure own
      else do
        privileged s
        let (x, _) ← readS s a false
        need (bits x 63 9 == 0) cIllegalOperand 0
        pure x.toNat)
    let slot := regionOf s r
    need (slot.st != .free && slot.shadow && !slot.swpend) cIllegalOperand 0
    stageCommand s (tagOf xtg xte) (.cfgswap r (xdis == 1))
/-- GBAR (R351). -/
def execGbar (xtg : BitVec 6) (xte : BitVec 1) (s : State) : Outcome :=
  runBody s 0xF3 .plain 2 1 (stage (.gbar (tagOf xtg xte)))
/-- Whether an effect of a body is a STATRED. -/
def isStatred (e : Effect) : Bool := match e with | .cmd ⟨_, _, _, _, .statred _ _ _ _, _⟩ => true | _ => false
/-- The counters that a KIND of STATRED names (R352). -/
def statIndexOk (kind idx : Nat) : Bool :=
  match kind with
  | 0 => idx ≤ 12
  | 1 => 32 ≤ idx && idx ≤ 42
  | 2 => idx ≤ 5
  | _ => idx ≤ 6
/-- The STATREDs of a context that wait for a completion, on their way or not (R352). -/
def statsPending (x : Ctx) : Nat :=
  x.stats.length +
    (x.outbound.filter (fun o => match o with | .cmd ⟨_, _, _, _, .statred _ _ _ _, _⟩ => true | _ => false)).length
/-- STATRED (R352). -/
def execStatred (xkind : BitVec 2) (xidx : BitVec 6) (xmax : BitVec 1) (xrt : BitVec 6) (s : State) : Outcome :=
  runBody s 0xF3 .plain 2 1 do
    need (statIndexOk xkind.toNat xidx.toNat) cIllegalOperand 0
    let w ← get
    need (statsPending (bodyCtx s) + (w.effects.filter isStatred).length < 4) cIllegalOperand 0
    stageCommand s none (.statred xkind.toNat xidx.toNat (xmax == 1) xrt)
/-- QSTAT, with package state as at cycle 0 (R353). -/
def execQstat (a d e : Opd) (t : Tag) (xsel : BitVec 3) (s : State) : Outcome :=
  runBody s 0xF3 .plain 2 1 do
    let r := regionOf s (bodyCtx s).region
    match xsel.toNat with
    | 0 =>
      let (x, sa) ← readS s a (keepIn t)
      need (x.toNat < 2048) cIllegalOperand 0
      need (x.toNat == r.queue || (bodyCtx s).priv) cPriv 0
      resultS s d e ⟨t, 0, sa, 0⟩ (queueStatus (queueOf s x.toNat))
    | 1 =>
      need (a == 31#5) cIllegalOperand 0
      resultS s d e ⟨t, 0, 0, 0⟩ (regionStatus r)
    | 2 =>
      need (a == 31#5) cIllegalOperand 0
      resultS s d e ⟨t, 0, 0, 0⟩ (regionControl r)
    | _ => illegal

end Sys2Proof.Machine
end

