-- ==== Sys2Proof/Machine/PkgRegs.lean ====
section
/-! DEFINITION. The package registers of the host BAR 0 image, which privileged contexts reach through space 10: reads, and writes
with the steps that they start (12_package_launch, R322, R329, R332, R339; 13_package_memory, R356, R357, R361, R372;
14_package_host, R375, R378, R380, R381, R383, R384; 15_fabric, R386). An offset that names no register reads 0 and ignores
writes. -/
namespace Sys2Proof.Machine

/-! ## Reading -/

/-- Two 32-bit words as one 64-bit word. -/
def pairWords (lo hi : W32) : W64 := hi ++ lo
/-- PKG_STATUS (14_package_host, R378). -/
def pkgStatus (p : Pkg) : W64 :=
  BitVec.ofNat 64 (ofBool p.ready * 2 ^ 63 + p.phase * 2 ^ 59 + ofBool p.fail * 2 ^ 58 + p.ecode * 2 ^ 32 + Config.svn.toNat)
/-- PKG_EVIDX (14_package_host, R375). -/
def eventIndex (p : Pkg) : W64 := BitVec.ofNat 64 (p.evVec * 2 ^ 32 + p.evTail.toNat * 65536 + p.evHead.toNat)
/-- RTIME of a region slot (12_package_launch, R332). -/
def regionTime (r : Region) : W64 := BitVec.ofNat 64 (r.pdl.toNat * 65536 + r.sweep.toNat)
/-- PKG_RHB of a region slot (14_package_host, R380). -/
def regionBeat (r : Region) : W64 :=
  BitVec.ofNat 64 (r.rhb.toNat * 2 ^ 48 + r.hst.toNat * 2 ^ 46 + min (r.beatCycles / 102400) (2 ^ 30 - 1) * 65536)
/-- A word of queue q's registers (12_package_launch, R322). -/
def queueReg (q : Queue) (off : Nat) : W64 :=
  match off with
  | 0 => q.base
  | 8 => q.cfg
  | 16 => queueStatus q
  | 24 => q.widx.zeroExtend 64
  | 40 => q.cpla
  | _ => 0
/-- A word of a region slot's registers (12_package_launch, R332). -/
def regionReg (r : Region) (off : Nat) : W64 :=
  match off with | 0 => regionControl r | 8 => regionStatus r | 16 => regionTime r | _ => r.logb
/-- A route entry of the fabric (15_fabric, R395). -/
def fabricRoute (f : Fabric) (bank : Bool) (d : Nat) : W16 := if bank then tget f.route1 0 d else tget f.route0 0 d
/-- A word of the fabric's registers (15_fabric, R386). -/
def fabricReg (s : State) (off : Nat) : W64 :=
  let f := s.fab
  if off == 0x50000 then fabricId f
  else if off == 0x50008 then (fabricRoutes f).zeroExtend 64
  else if 0x50100 ≤ off && off < 0x50400 then
    let p := portOf s ((off - 0x50100) / 16)
    if off % 16 == 0 then portControl p else portStatus p
  else if 0x51000 ≤ off && off < 0x52000 then
    let d := off % 0x800 / 2
    let r := fun i => fabricRoute f (0x51800 ≤ off) (d + i)
    r 3 ++ r 2 ++ r 1 ++ r 0
  else if 0x52000 ≤ off && off < 0x52400 then
    let c := tget f.cst Sched.reset ((off - 0x52000) / 16)
    if off % 16 == 0 then scheduleWord c else c.w1
  else if 0x53000 ≤ off && off < 0x53040 then
    let n := (off - 0x53000) / 4
    pairWords (vget f.cnt n 0) (vget f.cnt (n + 1) 0)
  else 0
/-- An aligned 64-bit word of the package registers. -/
def pkgWord (s : State) (off : Nat) : W64 :=
  let p := s.pkg
  if off == 0 then BitVec.ofNat 64 p.grade
  else if off == 8 then pkgStatus p
  else if off == 0x100 then p.retire
  else if off == 0x200 then p.xlctl.zeroExtend 64
  else if off == 0x210 then p.stcfg
  else if off == 0x220 then p.cmbase
  else if off == 0x400 then p.evcfg
  else if off == 0x408 then eventIndex p
  else if off == 0x500 then BitVec.ofNat 64 p.cap
  else if off == 0x508 then p.pstat.zeroExtend 64
  else if 0x540 ≤ off && off < 0x580 then
    pairWords (tget p.parts 0 ((off - 0x540) / 4)) (tget p.parts 0 ((off - 0x540) / 4 + 1))
  else if off == 0x600 then p.attest
  else if 0x620 ≤ off && off < 0x640 then p.nonce.extractLsb' (8 * (off - 0x620)) 64
  else if 0x2000 ≤ off && off < 0x2028 then pairWords (vget p.cnt ((off - 0x2000) / 4) 0) (vget p.cnt ((off - 0x2000) / 4 + 1) 0)
  else if 0x3000 ≤ off && off < 0x3C00 then
    let at_ := fun i => if (off - 0x3000) % 64 / 4 + i < 8 then
      tget p.stackCnt 0 (8 * ((off - 0x3000) / 64) + (off - 0x3000) % 64 / 4 + i) else 0
    pairWords (at_ 0) (at_ 1)
  else if 0x3C00 ≤ off && off < 0x3C18 then
    pairWords (vget p.xlCnt ((off - 0x3C00) / 4) 0) (vget p.xlCnt ((off - 0x3C00) / 4 + 1) 0)
  else if 0x10000 ≤ off && off < 0x11ED0 then
    BitVec.ofNat 64 (leNat ((List.range 8).map (fun i => Config.certificate (off - 0x10000 + i))))
  else if 0x30000 ≤ off && off < 0x34000 then (queueOf s ((off - 0x30000) / 8)).asroot
  else if 0x50000 ≤ off && off < 0x54000 then fabricReg s off
  else if 0x100000 ≤ off && off < 0x120000 then queueReg (queueOf s ((off - 0x100000) / 64)) (off % 64)
  else if 0x200000 ≤ off && off < 0x204000 then regionReg (regionOf s ((off - 0x200000) / 32)) (off % 32)
  else if 0x210000 ≤ off && off < 0x211000 then regionBeat (regionOf s ((off - 0x210000) / 8))
  else 0
/-- n bytes of the package registers. -/
def pkgBytes (s : State) (off n : Nat) : List Byte :=
  (List.range n).map (fun i => (pkgWord s ((off + i) / 8 * 8)).extractLsb' (8 * ((off + i) % 8)) 8)

/-! ## Writing -/

/-- Whether a queue's base registers may be written (12_package_launch, R322). -/
def queueIdle (q : Queue) : Bool := q.st == .disabled || q.st == .closed || q.st == .faulted
/-- PKG_QCFG as a write leaves it: level 15 is kept for queues 0 to 7 (12_package_launch, R322). -/
def queueConfig (n : Nat) (v : W64) : W64 :=
  let v := v &&& 0xFFFF0001FFFFFF1F
  if 8 ≤ n && bits v 11 8 == 15 then putBits v 11 8 14 else v
/-- The step of a write to PKG_QKICK or PKG_QCTL, with the number by which the writes of a queue are taken in their order
(12_package_launch, R322, R323). -/
def queueStep (s : State) (n : Nat) (op : Instr) (v : Nat) : State :=
  schedule { s with nextId := s.nextId + 1 } s.now op (evArgs n v (s.nextId + 1))
/-- A word of queue q's registers written; t says whether the low half was touched (12_package_launch, R322). -/
def writeQueueReg (s : State) (n off : Nat) (v : W64) (low : Bool) : State :=
  let q := queueOf s n
  match off with
  | 0 => if queueIdle q then setQueue s n { q with base := v &&& 0xFFFFFFFFFFFFFF81 } else s
  | 8 => if queueIdle q then setQueue s n { q with cfg := queueConfig n v } else s
  | 24 => if low then queueStep s n .queueKick (bits v 15 0) else s
  | 32 =>
    if s.pkg.ready && low then
      let s := if bitAt v 0 then queueStep s n .queueEnable (bits v 31 16) else s
      if bitAt v 1 then queueStep s n .queueOff 0 else s
    else s
  | 40 => setQueue s n { q with cpla := v &&& 0xFFFFFFFFFFFFFFF8 }
  | _ => s
/-- Route entries written in the standby bank, none while SW reads 1 (15_fabric, R395). -/
def writeFabricRoutes (s : State) (off : Nat) (v m : W64) : State :=
  let f := s.fab
  let bank := 0x51800 ≤ off
  if bank == f.act || f.sw then s
  else
    let one := fun (f : Fabric) (i : Nat) =>
      if bits m (16 * i + 15) (16 * i) == 0 then f
      else
        let d := off % 0x800 / 2 + i
        let e := (v.extractLsb' (16 * i) 16) &&& 0xC03F#16
        if bank then { f with route1 := tput f.route1 d e } else { f with route0 := tput f.route0 d e }
    { s with fab := (List.range 4).foldl one f }
/-- A word of the fabric's registers written (15_fabric, R386, R387, R395, R397). -/
def writeFabricReg (s : State) (off : Nat) (v m : W64) : State :=
  let f := s.fab
  if off == 0x50000 then
    if f.port.any (fun p => p.2.st != .dark && p.2.st != .failed) then s
    else { s with fab := { f with idV := bitAt v 63, id := bits v 9 0 } }
  else if off == 0x50008 then
    if bitAt v 8 && bitAt m 8 && !f.sw && f.arm.isNone then schedule s s.now .fabRouteSwitchRequest EvArgs.none else s
  else if 0x51000 ≤ off && off < 0x52000 then writeFabricRoutes s off v m
  else if 0x52000 ≤ off && off < 0x52400 then
    let k := (off - 0x52000) / 16
    let c := tget f.cst Sched.reset k
    if c.run.isSome then s
    else
      let c := if off % 16 == 0 then { c with w0 := v &&& 0x87FF000000000000 } else { c with w1 := v }
      { s with fab := { f with cst := tput f.cst k c } }
  else s
/-- A write to PKG_RETIRE: the fields are stored; with GO the retirement starts, and GO reads 1 until it ends (12_package_launch,
R339). -/
def writeRetire (s : State) (v : W64) : State :=
  if !s.pkg.ready || bitAt s.pkg.retire 63 then s
  else
    let s := { s with pkg := { s.pkg with retire := (v &&& 0xFFFFFFFFE0000000) ||| (s.pkg.retire &&& 0x10000000) } }
    if bitAt v 63 then schedule s s.now .pkgRetireGo { evArgs 0 0 1 with v := v } else s
/-- A write to PKG_ATTEST: GO starts a report over the measurements as they stand, or submits firmware (14_package_host,
R384). -/
def writeAttest (s : State) (v : W64) : State :=
  if bitAt s.pkg.attest 5 then s
  else
    let v := v &&& 0xFFFFFFFFFFFFFFF0
    let s := { s with pkg := { s.pkg with attest := v } }
    if !bitAt v 5 then s
    else
      let m := fun i => vget s.pkg.meas i 0
      let a := EvArgs.none
      let all := m 7 ++ m 6 ++ m 5 ++ m 4 ++ m 3 ++ m 2 ++ m 1 ++ m 0
      schedule s s.now (if bitAt v 4 then .recoveryFirmware else .attestReport) { a with flit := all }
/-- A partition's register as written (14_package_host, R381). -/
def partWord (v : W32) : W32 := v &&& 0x80007FFF
/-- A write to an aligned 64-bit word of the package registers; m is 1 in the bits written; host says that the host writes: region
slots are RO to programs (12_package_launch, R332). -/
def writePkgWord (s : State) (host : Bool) (off : Nat) (v0 m : W64) : State :=
  let p := s.pkg
  let v := (pkgWord s off &&& ~~~m) ||| (v0 &&& m)
  let low := bits m 31 0 != 0
  let high := bits m 63 32 != 0
  if off == 0x100 then writeRetire s v
  else if off == 0x200 then { s with pkg := { p with xlctl := v.extractLsb' 0 32 &&& 0xFFFF } }
  else if off == 0x210 then { s with pkg := { p with stcfg := (v &&& 0x3F0000) ||| (p.stcfg &&& 0xFFFF) } }
  else if off == 0x220 then
    if s.region.any (fun r => r.2.st != .free) then s else { s with pkg := { p with cmbase := v &&& 0x1FFFFFF0000 } }
  else if off == 0x400 then schedule { s with pkg := { p with evcfg := v } } s.now .eventWrite EvArgs.none
  else if off == 0x408 then
    let p := { p with evVec := bits v 42 32, evHead := v.extractLsb' 0 16 }
    schedule { s with pkg := p } s.now .eventWrite EvArgs.none
  else if off == 0x410 then
    let a := EvArgs.none
    if low then schedule s s.now .pkgEvreplyWrite { a with v := v0 &&& m &&& 0xFFFFFFFF } else s
  else if off == 0x500 then
    if p.ready && low then { s with pkg := { p with cap := min (bits v 14 0) 28000 } } else s
  else if 0x540 ≤ off && off < 0x580 then
    if p.ready then
      let n := (off - 0x540) / 4
      let ps := if low then tput p.parts n (partWord (v.extractLsb' 0 32)) else p.parts
      let ps := if high then tput ps (n + 1) (partWord (v.extractLsb' 32 32)) else ps
      { s with pkg := { p with parts := ps } }
    else s
  else if off == 0x600 then writeAttest s v
  else if 0x620 ≤ off && off < 0x640 then
    let at_ := 8 * (off - 0x620)
    { s with pkg := { p with nonce := putBits p.nonce (at_ + 63) at_ v.toNat } }
  else if 0x30000 ≤ off && off < 0x34000 then
    let n := (off - 0x30000) / 8
    setQueue s n { queueOf s n with asroot := v &&& 0x80003FFFFFFFFFFF }
  else if 0x50000 ≤ off && off < 0x54000 then writeFabricReg s off v m
  else if 0x100000 ≤ off && off < 0x120000 then
    let v := if off % 64 == 24 || off % 64 == 32 then v0 &&& m else v
    writeQueueReg s ((off - 0x100000) / 64) (off % 64) v low
  else if 0x200000 ≤ off && off < 0x204000 && off % 32 == 16 then
    let n := (off - 0x200000) / 32
    let r := regionOf s n
    if host && r.st == .free then
      setRegion s n { r with pdl := v.extractLsb' 16 32, sweep := BitVec.ofNat 16 (max 64 (bits v 15 0)) }
    else s
  else if 0x210000 ≤ off && off < 0x211000 then
    let n := (off - 0x210000) / 8
    let s := setRegion s n { regionOf s n with rhb := v.extractLsb' 48 16 }
    if bits v 63 48 == 0 then s
    else schedule (schedule s s.now .watchdogDead (evArgs n 0 0)) s.now .watchdogSlow (evArgs n 0 0)
  else s
/-- Bytes written to the package registers by the host or by a program, gathered into the words that hold them. -/
def writePkgBytes (s : State) (host : Bool) (off : Nat) (bs : List Byte) : State :=
  let ps := placed off bs
  let words := (List.range ((off + bs.length + 7) / 8 - off / 8)).map (fun i => off / 8 + i)
  words.foldl (fun s w =>
    let mine := ps.filter (fun p => p.1 / 8 == w)
    let v := mine.foldl (fun (a : W64) p => putBits a (8 * (p.1 % 8) + 7) (8 * (p.1 % 8)) p.2.toNat) 0
    let m := mine.foldl (fun (a : W64) p => putBits a (8 * (p.1 % 8) + 7) (8 * (p.1 % 8)) 255) 0
    writePkgWord s host (8 * w) v m) s

end Sys2Proof.Machine
end

