-- ==== Sys2Proof/Machine/Port.lean ====
section
/-! DEFINITION. A core's memory port and banks as agents other than bodies reach them: the undo log of live blocks, stores, port
reads and writes, and the arithmetic of atomics (05_core_memory, R147, R160, R161, R171; 12_package_launch, R341). -/
namespace Sys2Proof.Machine

/-- Ticks of n cycles of a core's region clock, rounded up (00_scope, R5, R10). -/
def ticksOf (s : State) (k n : Nat) : Nat := vfTicks (vfOfCore s k) n

/-! ## The undo log (12_package_launch, R341) -/

/-- Whether a class marked live of a context holds a 256-byte block, counted in the context's own offsets (02_rule, R54). -/
def liveBlock (x : Ctx) (blk : Nat) : Bool :=
  (List.range 8).any (fun k =>
    let m := vget x.mcls k 0
    bitAt m 31 && bitAt m 30 && bits m 21 11 ≤ 1535 && bits m 10 0 ≤ blk && blk ≤ bits m 21 11)
/-- The first block of the window of the logical core that a context stands for. -/
def windowBlock (s : State) (x : Ctx) : Nat := (windowOf s x.lx x.ly).1 / 256
/-- Whether a physical block lies in a live class of a context. -/
def liveIn (s : State) (x : Ctx) (blk : Nat) : Bool :=
  x.resident && windowBlock s x ≤ blk && liveBlock x (blk - windowBlock s x)
/-- A physical block of a core logged before its first write of the superstep: into the undo region of the writing context, or of
the lowest-numbered context whose live class holds it; with the region full, NORB is set and nothing is logged. -/
def logBlock (s : State) (k : Nat) (writer : Option Nat) (blk : Nat) : State :=
  let c := coreOf s k
  let holders := (List.range 4).filter (fun i => liveIn s (vget c.ctx i Ctx.reset) blk)
  match holders with
  | [] => s
  | h :: _ =>
    if c.ctx.toList.any (fun x => x.undoIdx.contains blk) then s
    else
      let i := writer.getD h
      let x := vget c.ctx i Ctx.reset
      let used := bits x.undo 24 14
      if used == bits x.undo 35 25 then
        let r := regionOf s x.region
        setRegion (setCtx s k i { x with undo := putBits x.undo 13 13 1 }) x.region { r with norb := true }
      else
        let to_ := 256 * (windowBlock s x + bits x.undo 46 36 + used)
        let c := { c with mem := memStore c.mem (placed to_ (memBytes c.mem (256 * blk) 256)) }
        let s := setCore s k c
        setCtx s k i { x with undo := putBits x.undo 24 14 (used + 1), undoIdx := x.undoIdx ++ [blk] }

/-! ## Stores at the banks -/

/-- What bytes held before a store noted for the basin commands that were committed before it: their tile reads may find the old value
or the new one (06_core_basin, R185). -/
def noteOld (c : Core) (ps : List (Nat × Byte)) : Core :=
  let was := ps.map (fun p => (p.1, localByte c p.1, c.eccUe.contains (p.1 / 8)))
  { c with bq := c.bq.map (fun b => if b.open_ then { b with old := b.old ++ was } else b) }
/-- Bytes stored at physical offsets of data or instruction memory: live blocks logged first, then the bytes written; an 8-byte
word written whole holds no error any more (05_core_memory, R147). -/
def storeBytes (s : State) (k : Nat) (writer : Option Nat) (ps : List (Nat × Byte)) : State :=
  let blocks := ((ps.filter (fun p => p.1 < 0x60000)).map (fun p => p.1 / 256)).eraseDups
  let s := blocks.foldl (fun s b => logBlock s k writer b) s
  let c := ps.foldl (fun c p => setLocalByte c p.1 p.2) (noteOld (coreOf s k) ps)
  let whole := fun (w : Nat) => (List.range 8).all (fun i => ps.any (fun p => p.1 == 8 * w + i))
  setCore s k { c with eccUe := c.eccUe.filter (fun w => !whole w), eccCorr := c.eccCorr.filter (fun w => !whole w) }
/-- The physical offset of a data byte of a logical core; offsets from 0x6_0000 up are the physical core's own
(12_package_launch, R329). -/
def windowed (s : State) (x y off : Nat) : Nat := if off < 0x60000 then (windowOf s x y).1 + off else off
/-- The physical bytes that an access of the memory port reaches; a redirected writer reaches the back buffer of a publish
window (05_core_memory, R171). -/
def portOffset (s : State) (k off : Nat) (redirect : Bool) : Nat :=
  if off < 0x60000 then windowOffset (coreOf s k) off redirect else off
/-- n bytes at a physical offset, read by the memory port or an engine. -/
def portRead (s : State) (k off n : Nat) : List Byte :=
  (List.range n).map (fun i =>
    let p := portOffset s k (off + i) false
    if p < 0x70000 then localByte (coreOf s k) p else regByte s k p)
/-- Whether a range holds a word with an uncorrectable error (R147). -/
def portBad (s : State) (k off n : Nat) : Bool :=
  (List.range n).any (fun i => off + i < 0x60000 && (coreOf s k).eccUe.contains (portOffset s k (off + i) false / 8))
/-- Corrected words of a read counted in SRAM_CORR (R147). -/
def countCorrected (s : State) (k off n : Nat) : State :=
  let c := coreOf s k
  let ws := ((List.range n).map (fun i => portOffset s k (off + i) false / 8)).eraseDups
  let m := (ws.filter (fun w => off < 0x60000 && c.eccCorr.contains w)).length
  setCore s k { c with cnt := vset c.cnt 0 (satAdd (vget c.cnt 0 0) m) }
/-- Words that a read-modify-write meets: a correctable error is counted and corrected before the merge (05_core_memory, R147, R148). -/
def mendWords (s : State) (k : Nat) (ws : List Nat) : State :=
  let c := coreOf s k
  let hit := ws.eraseDups.filter (fun w => c.eccCorr.contains w)
  setCore s k { c with eccCorr := c.eccCorr.filter (fun w => !hit.contains w), cnt := vset c.cnt 0 (satAdd (vget c.cnt 0 0) hit.length) }
/-- The 8-byte words that n bytes at an offset of the memory port lie in. -/
def portWords (s : State) (k off n : Nat) : List Nat :=
  if off < 0x60000 then ((List.range n).map (fun i => portOffset s k (off + i) false / 8)).eraseDups else []
/-- Half a byte written at a physical offset as one read-modify-write at the bank, or in the register that holds it (05_core_memory,
R148, R151). -/
def storeNibble (s : State) (k : Nat) (writer : Option Nat) (off : Nat) (high : Bool) (v : BitVec 4) : State :=
  let merge := fun (b : Byte) => if high then putBits b 7 4 v.toNat else putBits b 3 0 v.toNat
  if off < 0x70000 then
    let s := if off < 0x60000 then mendWords s k [off / 8] else s
    storeBytes s k writer [(off, merge (localByte (coreOf s k) off))]
  else writeRegBytes s k [(off, merge (regByte s k off))]
/-- Bytes written at a physical offset by the memory port, an engine or an intake: data and instruction memory at the banks,
control registers through their maps. -/
def portWrite (s : State) (k off : Nat) (bs : List Byte) (redirect : Bool) : State :=
  let ps := (placed off bs).map (fun p => (portOffset s k p.1 redirect, p.2))
  let s := storeBytes s k none (ps.filter (fun p => p.1 < 0x70000))
  match ps.filter (fun p => 0x70000 ≤ p.1) with
  | [] => s
  | rs => writeRegBytes s k rs

/-! ## Atomics (05_core_memory, R160) -/

/-- The new value of an atomic over its width in bytes, with the flags of a floating sum. -/
def amoResult (op size old x c : Nat) : Nat × Flags :=
  let m := 2 ^ (8 * size)
  let o := old % m
  let v := x % m
  let sg := fun (n : Nat) => toSigned (8 * size) n
  match op with
  | 0 => ((o + v) % m, 0)
  | 1 => (if sg v < sg o then v else o, 0)
  | 2 => (if sg o < sg v then v else o, 0)
  | 3 => (min o v, 0)
  | 4 => (max o v, 0)
  | 5 => (o &&& v, 0)
  | 6 => (o ||| v, 0)
  | 7 => (o ^^^ v, 0)
  | 8 => (v, 0)
  | 9 => (if o == c % m then v else o, 0)
  | 10 => fpAdd 2 0 o v
  | _ => fpAdd 3 0 o v
/-- NV, OF and NX events of a port's atomics counted (07_core_failures, R223). -/
def countAmo (s : State) (k : Nat) (f : Flags) : State :=
  let c := coreOf s k
  let up := fun (v : Vector W32 11) (n i : Nat) => if bitAt f i then vset v n (satAdd (vget v n 0) 1) else v
  setCore s k { c with cnt := up (up (up c.cnt 2 4) 3 2) 4 0 }

/-! ## Corrected errors (07_core_failures, R208) -/

/-- The cycles from one leak of a bucket to the next: 2^LEAK, at least 2^10 (R208). -/
def leakCycles (s : State) (k : Nat) : Nat := 2 ^ (max 10 (bits (coreOf s k).bucket 12 8))
/-- A leak to come at a count of the core's clock: looked at once the clock can have come so far (00_scope, R10). -/
def scheduleLeak (s : State) (k at_ : Nat) : State :=
  schedule s (s.now + max 1 (ticksOf s k (at_ - clusterCycles s (clusterKey k)))) .bucketLeak (evArgs k at_ 0)
/-- An addition to a core's leaky bucket: LEVEL and BUCKET_INC rise by one, and SUSPECT is set at the threshold; a bucket that
was empty leaks from now on. An addition in the cycle of a leak cancels it: LEVEL stands as before both (R208). -/
def bucketUp (s : State) (k : Nat) : State :=
  let c := coreOf s k
  let now := clusterCycles s (clusterKey k)
  let due := fun (p : Pending) => p.op == .bucketLeak && p.args.x == k && p.args.y == now
  let c := { c with cnt := vset c.cnt 6 (satAdd (vget c.cnt 6 0) 1) }
  let lvl := min (bits c.bucket 7 0 + 1) 255
  if c.leakAt == some now then
    let t := setCore s k { c with bucket := putBits c.bucket 7 0 lvl, leakAt := none }
    if lvl == 1 then scheduleLeak t k (now + leakCycles t k) else t
  else if s.agenda.any due then
    let t := setCore { s with agenda := s.agenda.filter (fun p => !due p) } k c
    scheduleLeak t k (now + leakCycles t k)
  else
    let b := putBits c.bucket 7 0 lvl
    let b := if max (bits c.bucket 23 16) 1 ≤ lvl then putBits b 31 31 1 else b
    let t := setCore s k { c with bucket := b }
    let t := if bitAt b 31 && !bitAt c.bucket 31 then noteSuspect t k true else t
    if lvl == 1 then scheduleLeak t k (now + leakCycles t k) else t

end Sys2Proof.Machine
end

