-- ==== Sys2Proof/Machine/Outbound.lean ====
section
/-! DEFINITION. What leaves a context: its outbound order with fences and arrivals, requests on their way, commands accepted by
their engines, the accesses that fences wait for, replies, failures and completions (05_core_memory, R155 to R159, R166, R174;
08_cluster, R249; 09_memory_model, R265 to R269, R274; 13_package_memory, R359, R360). -/
namespace Sys2Proof.Machine

/-! ## Contexts by their logical identity -/

/-- The number of a logical context: core (x, y) and context. Messages name contexts by it (07_core_failures, R214). -/
def ctxNumber (x y c : Nat) : Nat := 4 * (256 * x + y) + c % 4
/-- The logical context that a slot holds. -/
def ctxAddr (x : Ctx) : Nat := ctxNumber x.lx x.ly x.lc
/-- The slot of a core that holds a logical context. -/
def slotOf (s : State) (k addr : Nat) : Option Nat :=
  (List.range 4).find? (fun c => let x := ctxOf s k c; x.resident && ctxAddr x == addr)
/-- The physical core that the core map gives to a logical context. -/
def coreOfAddr (s : State) (addr : Nat) : Option Nat := (placeOf s (addr / 1024) (addr / 4 % 256)).map (fun p => p.1)
/-- Where a logical context is resident. -/
def findCtx (s : State) (addr : Nat) : Option (Nat × Nat) :=
  match coreOfAddr s addr with
  | some k => (slotOf s k addr).map (fun c => (k, c))
  | none => none
/-- A logical context changed, resident or saved. -/
def modCtx (s : State) (addr : Nat) (f : Ctx → Ctx) : State :=
  match findCtx s addr with
  | some (k, c) => setCtx s k c (f (ctxOf s k c))
  | none =>
    let one := fun (p : Nat × Ctx) => if ctxAddr p.2 == addr then (p.1, f p.2) else p
    let save := fun (c : SavedCore) => { c with ctxs := c.ctxs.map one }
    { s with region := s.region.map (fun r => (r.1, { r.2 with saved := r.2.saved.map save })) }
/-- A logical context wherever it is: resident, or saved by a gang stop. -/
def anyCtx (s : State) (addr : Nat) : Option Ctx :=
  match findCtx s addr with
  | some (k, c) => some (ctxOf s k c)
  | none =>
    let one := fun (c : SavedCore) => c.ctxs.find? (fun p => ctxAddr p.2 == addr)
    let found := s.region.findSome? (fun r => r.2.saved.findSome? one)
    found.map (fun p => p.2)
/-- The region slot of a logical context. -/
def regionOfCtx (s : State) (addr : Nat) : Nat := match anyCtx s addr with | some x => x.region | none => 0
/-- Whether a logical core lies in copy A, or in copy B, of a duplicate placement (12_package_launch, R343). -/
def inCopy (r : Region) (second : Bool) (x y : Nat) : Bool :=
  let x0 := if second then r.dupX else r.x0
  let y0 := if second then r.dupY else r.y0
  x0 ≤ x && x < x0 + r.w && y0 ≤ y && y < y0 + r.h
/-- The context of copy B that matches a context of copy A under a duplicate placement. -/
def twinOf (s : State) (addr : Nat) : Option Nat :=
  let x := addr / 1024
  let y := addr / 4 % 256
  match s.region.find? (fun r => r.2.dup && r.2.st != .free && inCopy r.2 false x y) with
  | some (_, r) => some (ctxNumber (x - r.x0 + r.dupX) (y - r.y0 + r.dupY) (addr % 4))
  | none => none
/-- The context of copy B that awaits an access of a context of copy A: one that left both copies as one (12_package_launch, R343). -/
def twinAwaits (s : State) (addr id : Nat) : Option Nat :=
  (twinOf s addr).filter (fun b => (anyCtx s b).any (fun x => x.pend.any (fun a => a.id == id && (a.read || a.write))))
/-- A context and its twin changed. -/
def modTwins (s : State) (addr : Nat) (f : Ctx → Ctx) : State :=
  let s := modCtx s addr f
  match twinOf s addr with
  | some b => modCtx s b f
  | none => s

/-- The held traffic of a context looked at again: its fences and its barrier arrivals. -/
def poke (s : State) (addr : Nat) : State :=
  match findCtx s addr with
  | some (k, c) =>
    let x := ctxOf s k c
    if x.outbound.isEmpty then s
    else
      let s := schedule s s.now .fenceReleaseTraffic (evArgs k c 0)
      if x.outbound.any (fun o => match o with | .arrive _ _ => true | _ => false) then
        schedule s s.now .barrierArrivalLeave (evArgs k c 0)
      else s
  | none => s
/-- The held traffic of a context and of its twin looked at again. -/
def pokeTwins (s : State) (addr : Nat) : State :=
  match twinOf s addr with
  | some b => poke (poke s addr) b
  | none => poke s addr

/-! ## Accesses that fences wait for (05_core_memory, R174; 09_memory_model, R268) -/

/-- An access of a context changed by its number, and dropped once nothing of it is awaited; an entry that is neither a read
nor a write stands for a token. -/
def settleAccess (id : Nat) (f : Access → Access) (x : Ctx) : Ctx :=
  let one := fun (a : Access) =>
    if a.id == id && (a.read || a.write) then
      let b := f a
      if b.read || b.write then some b else none
    else some a
  { x with pend := x.pend.filterMap one }
/-- An access changed by its number, in the context that made it and in its twin. -/
def modAccess (s : State) (addr id : Nat) (f : Access → Access) : State :=
  pokeTwins (modTwins s addr (settleAccess id f)) addr
/-- An access ended: performed, with its reply back when it has one. -/
def endAccess (s : State) (addr id : Nat) : State :=
  modAccess s addr id (fun a => { a with read := false, write := false })
/-- A write performed; a replying atomic still awaits its reply. -/
def writeDone (s : State) (addr id : Nat) : State := modAccess s addr id (fun a => { a with write := false })
/-- The reply of an access has returned. -/
def readDone (s : State) (addr id : Nat) : State := modAccess s addr id (fun a => { a with read := false })
/-- A list without the first entry that a token left. -/
def dropToken (port dst : Nat) : List Access → List Access
  | [] => []
  | a :: r => if !a.read && !a.write && a.id == port && a.targets == [.core dst] then r else a :: dropToken port dst r
/-- A token delivered: it no longer holds a barrier arrival of its sender (08_cluster, R249). -/
def tokenDone (s : State) (addr port dst : Nat) : State :=
  poke (modCtx s addr (fun x => { x with pend := dropToken port dst x.pend })) addr

/-- The target of a physical address (R268; 13_package_memory, R354). -/
def physTarget (pa : W64) : Target :=
  match bits pa 61 58 with
  | 1 => .hbm
  | 2 => .tier2
  | 3 => .core (256 * bits pa 46 38 + bits pa 37 30)
  | 4 => .pinned (bits pa 53 48)
  | 5 => .host
  | _ => .registers
/-- The target of a virtual address that a command names, as the tables stand when it leaves: a command is judged by the addresses that
it names (R268; log entry 109). -/
def virtTarget (s : State) (k q va : Nat) : Target :=
  match tlbLookup s k q va with
  | some t => physTarget (leafAddress t.leaf va t.size)
  | none =>
    match walkRoot s q with
    | none => .unknown
    | some root =>
      match (walkFrom s 3 root va).1 with
      | .leaf e size => physTarget (leafAddress e va size)
      | _ => .unknown
/-- The target of a resolved address of a context of core k. -/
def targetOf (s : State) (k q : Nat) (a : W64) : Target :=
  match bits a 63 62 with
  | 0 =>
    match boundAt s k (bits a 60 52) (bits a 51 44) with
    | some (j, _) => .core j
    | none => .unknown
  | 1 => virtTarget s k q (bits a 47 0)
  | _ => physTarget a
/-- Whether a target lies in the scope of a fence of core k: 0 CORE, 1 CLUSTER, 2 DIE, 3 PACKAGE, 4 SYSTEM (R174, R268). -/
def inScope (k scope : Nat) (t : Target) : Bool :=
  match t with
  | .core j =>
    match scope with
    | 0 => j == k
    | 1 => clusterKey j == clusterKey k
    | 2 => dieKey j == dieKey k
    | _ => true
  | .hbm => 2 ≤ scope
  | .tier2 => 4 ≤ scope
  | .host => 4 ≤ scope
  | .pinned d => if d == dieKey k then 2 ≤ scope else 3 ≤ scope
  | .registers => 3 ≤ scope
  | .unknown => true
  | .die _ => 2 ≤ scope
  | .package => 3 ≤ scope
  | .system => 4 ≤ scope
/-- Whether an access holds a release of a scope: a write not yet performed there; a write to HBM counts as performed at DIE
once it is in the die's copy (R268). -/
def holdsRelease (k scope : Nat) (a : Access) : Bool :=
  a.write && a.targets.any (inScope k scope) && !(a.atCopy && scope ≤ 2)
/-- Whether an access holds an acquire of a scope. -/
def holdsAcquire (k scope : Nat) (a : Access) : Bool := a.read && a.targets.any (inScope k scope)
/-- Whether an access holds a barrier arrival: a release at CLUSTER, and tokens to the cluster that are not delivered
(08_cluster, R249). -/
def holdsArrival (k : Nat) (a : Access) : Bool :=
  holdsRelease k 1 a || (!a.read && !a.write && a.targets.any (inScope k 1))

/-- The access of a request (R174); the target of one to space 01 is unknown until it is translated (R268). -/
def requestAccess (s : State) (k : Nat) (r : Request) : Access :=
  { id := r.id
    write := match r.kind with | .read _ => false | _ => true
    read := match r.kind with | .read _ => true | .amo _ _ _ _ => r.rpy | _ => false
    atCopy := false
    targets := [if bits r.addr 63 62 == 1 then .unknown else targetOf s k r.queue r.addr] }
/-- The targets of a command: the addresses it names, or what it acts on; none for a command that fences do not wait for
(R268). -/
def commandTargets (s : State) (k q : Nat) (c : CmdOp) : List Target :=
  let t := targetOf s k q
  match c with
  | .cpy src dst _ => [t src, t dst]
  | .cpy2 src dst _ rows ss ds =>
    ((List.range rows).flatMap (fun i => [t (rowAddress src ss i), t (rowAddress dst ds i)])).eraseDups
  | .pfetch a _ => [t a]
  | .red _ _ _ _ _ _ _ => []
  | .pairx _ _ _ _ _ => []
  | .rsvld _ _ _ => [.pinned (dieKey k), .core k]
  | .rsvPart _ => [.die (dieKey k)]
  | .rsvDrop => [.die (dieKey k)]
  | .cgsend g src _ _ _ pinned _ _ _ _ =>
    [if pinned then .pinned (bits (groupOf s g).cfg 62 57) else t src, .package]
  | .cgwake _ => [.package]
  | .cfgswap _ _ => []
  | .statred _ _ _ _ => []
  | .xstr d =>
    [t (BitVec.ofNat 64 (descField d 0 8)), t (BitVec.ofNat 64 (descField d 8 8)), t (BitVec.ofNat 64 (descField d 16 8))]
  | .migrate va pa => [t va, physTarget pa]
  | .tlbinv _ _ _ => [.package]
  | .compattr _ va _ _ _ => [t va]
  | .coll _ _ => [.system]
  | .routesw => [.system]
  | .fport _ _ _ => [.system]
/-- The access of a command. -/
def commandAccess (s : State) (k q : Nat) (c : Command) : Access :=
  { id := c.id, write := true, read := false, atCopy := false, targets := commandTargets s k q c.op }
/-- The access of an item that has not left. -/
def itemAccess (s : State) (k q : Nat) (i : OutItem) : List Access :=
  match i with
  | .req r => [requestAccess s k r]
  | .cmd c => [commandAccess s k q c]
  | .token port _ => [{ id := port, write := false, read := false, atCopy := false, targets := [.unknown] }]
  | _ => []

/-! ## Replies, failures and completions (05_core_memory, R157, R158, R166) -/

/-- The sideband of a reply: RT, context, fm and wd given, fmt, e (R157; 01_encoding, R31). -/
def replySb (rt : BitVec 6) (cx : Nat) (fm wd e : Bool) (fmt : Nat) : BitVec 40 :=
  BitVec.ofNat 40 (ofBool wd * 2 ^ 39 + rt.toNat * 2 ^ 13 + cx % 4 * 2 ^ 11 + ofBool fm * 2 ^ 10 + ofBool e * 32 + fmt)
/-- A reply token of a logical context (R157). -/
def replyToken (addr : Nat) (rt : BitVec 6) (fm wd e : Bool) (fmt : Nat) (v : V512) : Token :=
  { sb := replySb rt (addr % 4) fm wd e fmt, pay := v, src := none }
/-- A reply on its way from core k to the issuer on RSP; from a unit of the package it reaches the issuer's core directly. -/
def sendReply (s : State) (k : Option Nat) (addr id : Nat) (t : Token) : State :=
  match coreOfAddr s addr with
  | none => s
  | some dst =>
    match k with
    | some j => sendFlit s 1 j dst (.reply addr id t)
    | none => deliver s dst dst (.reply addr id t) .replyArrival
/-- The reply of a served request (R157). -/
def replyTo (s : State) (k : Option Nat) (r : Request) (v : V512) : State :=
  let wd := match r.kind with | .read n => n == 64 | _ => false
  if r.rpy then sendReply s k r.cx r.id (replyToken r.cx r.rt r.fm wd false 0 v) else s
/-- The end of a failed request: it comes back to its issuer, on RSP from a core (R158). -/
def failRequest (s : State) (k : Option Nat) (r : Request) (code : BitVec 8) : State :=
  let wide := match r.kind with | .read n => n == 64 | _ => false
  let p : Payload := .failed r.cx r.id r.rpy code r.rt r.fm wide r.org
  match coreOfAddr s r.cx with
  | none => s
  | some dst =>
    match k with
    | some j => sendFlit s 1 j dst p
    | none => deliver s dst dst p .failedRequest
/-- The end of a failed command: a trap of its context, its tag left clear (R158). -/
def failCommand (s : State) (c : Command) (code : BitVec 8) : State :=
  match coreOfAddr s c.cx with
  | none => s
  | some dst => deliver s dst dst (.failed c.cx c.id false code 0 false false c.org) .failedRequest
/-- A completion: the tag bit set in the issuing context, and in its twin where the command left both copies as one; the command is no
longer awaited by fences (R166, R273; 12_package_launch, R343). -/
def completeCommand (s : State) (addr id : Nat) (tag : Option Nat) : State :=
  let s := match tag with
    | some n =>
      let set := fun (x : Ctx) => { x with tb := x.tb ||| (1#64 <<< n) }
      let t := modCtx s addr set
      match twinAwaits s addr id with
      | some b => modCtx t b set
      | none => t
    | none => s
  endAccess s addr id

/-! ## Leaving (05_core_memory, R155, R159) -/

/-- A command-port entry freed (R155). -/
def freeCp (s : State) (addr : Nat) : State := modCtx s addr (fun x => { x with cpUsed := x.cpUsed - 1 })
/-- An access noted as having left. -/
def noteAccess (s : State) (addr : Nat) (a : Access) : State :=
  if a.targets.isEmpty then s else modCtx s addr (fun x => { x with pend := x.pend ++ [a] })
/-- A REQ flit that counts in SENT (12_package_launch, R333). -/
def sendRequest (s : State) (k dst : Nat) (p : Payload) : State :=
  let c := coreOf s k
  sendFlit (setCore s k { c with sent := c.sent + 1 }) 0 k dst p
/-- An operation put among those under way outside core memory, with its next step. -/
def addXOp (s : State) (x : XOp) (op : Instr) (delay : Nat) : State :=
  schedule { s with xops := s.xops ++ [x] } (s.now + delay) op (evArgs x.req.id 0 0)
/-- The die's copy of the lines of an atomic dropped as it leaves the core (09_memory_model, R266). -/
def dropAmoLine (s : State) (k : Nat) (r : Request) (pa : W64) : State :=
  match r.kind with
  | .amo _ size _ _ =>
    let d := dieOf s (dieKey k)
    let ls := linesOf64 (bits pa 40 0) size
    setDie s (dieKey k) { d with cache := d.cache.filter (fun l => !ls.contains l.line) }
  | _ => s
/-- A request to the package registers, performed as it arrives there (13_package_memory, R354). -/
def servePkg (s : State) (r : Request) : State :=
  let off := bits r.addr 47 0
  match r.kind with
  | .read n => replyTo s none r (ofBytes (pkgBytes s off n))
  | .write n v => writeDone (replyTo (writePkgBytes s false off (leBytes n v.toNat)) none r 0) r.cx r.id
  | .amo op size x c =>
    let old := leNat (pkgBytes s off size)
    let s := replyTo s none r (BitVec.ofNat 512 old)
    writeDone (writePkgBytes s false off (leBytes size (amoResult op size old x.toNat c.toNat).1)) r.cx r.id
  | .publish _ _ => s
/-- A request whose physical address is known goes to its target: HBM and the pinned store through the die's Reservoir, the
second tier and the host to their homes (09_memory_model, R265; 10_die, R291); the fences of its context now judge it by the target
that its translation found (09_memory_model, R268). -/
def enterPhysical (s : State) (k : Nat) (r : Request) (pa : W64) (cmp port : Bool) : State :=
  let x := { req := r, pa := pa, cmp := cmp, phase := .reservoir, port := port, copyDone := false, engine := false, mark := 0 : XOp }
  let s := if bits r.addr 63 62 == 1 then modAccess s r.cx r.id (fun a => { a with targets := [physTarget pa] }) else s
  match bits pa 61 58 with
  | 1 => addXOp (dropAmoLine s k r pa) x .reservoirAccess 2
  | 2 => addXOp s { x with phase := .tier2 } .secondTierAccess 2
  | 5 => addXOp s { x with phase := .tier2 } .secondTierAccess 2
  | 4 =>
    match r.kind with
    | .read _ => addXOp s x .reservoirAccess 2
    | _ => failRequest s none r cPriv
  | 3 => sendRequest s k (256 * bits pa 46 38 + bits pa 37 30) (.request r)
  | _ => servePkg s r
/-- The ticks of PFDL: a deadline of 0 acts as 1 µs (13_package_memory, R361). -/
def faultTicks (s : State) : Nat := 1000 * max 1 (bits s.pkg.xlctl 15 0)
/-- A list of operations with the first equal to one replaced. -/
def swapOp (x y : XOp) : List XOp → List XOp
  | [] => []
  | o :: r => if o == x then y :: r else o :: swapOp x y r
/-- The walks that a cluster's walker has in progress; it takes up to 4 at once (13_package_memory, R359). -/
def walksOf (s : State) (ck : Nat) : Nat :=
  (s.xops.filter (fun o =>
    clusterKey o.req.core == ck && (match o.phase with | .walk _ t => t != 0 | _ => false))).length
/-- Whether a command is parked at a page fault. -/
def isParked (s : State) (id : Nat) : Bool := s.pkg.parkedCmds.any (fun e => e.cmd.id == id)
/-- An engine's command parked in the fault buffer of its core's cluster at a page: the page is asked for, and its gang's deadline runs;
with the buffer full it tries again (13_package_memory, R360, R361). -/
def parkCommand (s : State) (q : Nat) (c : Command) (va : Nat) (op : Instr) (args : EvArgs) : State :=
  let ck := clusterKey c.core
  let cl := clusterOf s ck
  if isParked s c.id then s
  else if 64 ≤ cl.parked.length then schedule s (s.now + 1) op args
  else
    let s := setCluster s ck { cl with parked := cl.parked ++ [c.id] }
    let e : ParkedCmd := { cmd := c, queue := q, page := va / 65536, since := s.now, step := ⟨0, op, args⟩ }
    let s := requestPage { s with pkg := { s.pkg with parkedCmds := s.pkg.parkedCmds ++ [e] } } q va c.id
    schedule s (s.now + faultTicks s) .pfDeadline (evArgs (regionOfCtx s c.cx) 0 0)
/-- A request parked in its cluster's fault buffer: its command-port entry is free, its page is asked for, and its gang's deadline
runs (13_package_memory, R360, R361). -/
def parkOp (s : State) (x : XOp) : State :=
  let ck := clusterKey x.req.core
  let cl := clusterOf s ck
  let s := setCluster s ck { cl with parked := cl.parked ++ [x.req.id] }
  let y := { x with phase := .parked s.now, port := false }
  let s := { s with xops := if s.xops.contains x then swapOp x y s.xops else s.xops ++ [y] }
  let s := requestPage (if x.port then freeCp s x.req.cx else s) x.req.queue (bits x.req.addr 47 0) x.req.id
  schedule s (s.now + faultTicks s) .pfDeadline (evArgs (regionOfCtx s x.req.cx) 0 0)
/-- A request to space 01: it fails without an address space, parks or waits behind an earlier one of its context to its page, or goes on
by a TLB entry, or is walked, once the walker has room (13_package_memory, R357, R359, R360). -/
def enterVirtual (s : State) (k : Nat) (r : Request) : State :=
  let va := bits r.addr 47 0
  let write := match r.kind with | .read _ => false | _ => true
  let ck := clusterKey k
  let behind := s.xops.find? (fun o =>
    o.req.cx == r.cx && bits o.req.addr 63 62 == 1 && bits o.req.addr 47 0 / 65536 == va / 65536 &&
      (match o.phase with | .parked _ => true | .walk _ _ => true | _ => false))
  let x := { req := r, pa := 0, cmp := false, phase := .walk 3 0, port := true, copyDone := false, engine := false, mark := 0 : XOp }
  if !asValid s r.queue then failRequest (freeCp s r.cx) none r cPageFault
  else match behind with
  | some o =>
    let full : Bool := 64 ≤ (clusterOf s ck).parked.length
    match o.phase, full with | .parked _, false => parkOp s x | _, _ => addXOp s x .translationWalk 1
  | none =>
    match tlbLookup s k r.queue va with
    | some t =>
      match leafAccess t.leaf va t.size write with
      | .ok pa cmp => enterPhysical (freeCp (tlbFill s k r.queue va t.size t.leaf) r.cx) k r pa cmp false
      | _ => failRequest (freeCp s r.cx) none r cPageFault
    | none =>
      match walkRoot s r.queue with
      | none => failRequest (freeCp s r.cx) none r cPageFault
      | some root =>
        if 4 ≤ walksOf s ck then addXOp s x .translationWalk 1
        else addXOp (countXl (countXl s 0) 1) { x with phase := .walk 3 root } .translationWalk 60
/-- A request leaves the command port: to its target core on REQ, or to memory outside the cores (R155, R158). -/
def leaveRequest (s : State) (k : Nat) (r : Request) : State :=
  let s := noteAccess s r.cx (requestAccess s k r)
  let s := if r.rpy then modCtx s r.cx (fun x => { x with replies := x.replies + 1 }) else s
  match bits r.addr 63 62 with
  | 0 =>
    match boundAt s k (bits r.addr 60 52) (bits r.addr 51 44) with
    | none => failRequest (freeCp s r.cx) none r cRange
    | some (dst, _) => sendRequest (cacheMap (freeCp s r.cx) k (bits r.addr 60 52) (bits r.addr 51 44)) k dst (.request r)
  | 1 => enterVirtual s k r
  | _ => enterPhysical (freeCp s r.cx) k r r.addr false false
/-- A token leaves on its binding; none while the core map gives its receiver no place (02_rule, R57, R58). -/
def leaveToken (s : State) (k c port : Nat) (t : Token) : Option State :=
  let x := ctxOf s k c
  match vget x.binds port none with
  | none => some s
  | some b =>
    match boundAt s k b.x b.y with
    | none => none
    | some (dst, _) =>
      let a : Access := { id := port, write := false, read := false, atCopy := false, targets := [.core dst] }
      let s := setCtx s k c { x with pend := x.pend ++ [a] }
      let t := { t with src := some ⟨k, ctxAddr x, port⟩ }
      some (sendRequest (cacheMap s k b.x b.y) k dst (.token (ctxNumber b.x b.y b.cx) ((port + 2) % 4) t))

/-- Whether a command takes a reply credit (R155; 08_cluster, R257; 12_package_launch, R347; 13_package_memory, R371). -/
def commandReplies (s : State) (k : Nat) (c : CmdOp) : Bool :=
  match c with
  | .red tree _ _ all _ _ _ => all || bits (vget (coreOf s k).trn tree 0) 7 5 == 4
  | .pairx _ _ _ _ _ => true
  | .statred _ _ _ _ => true
  | .compattr op _ _ _ _ => op == 0
  | _ => false
/-- Whether a command takes a reply credit as it leaves: a PAIRX whose pair has ended meanwhile takes none (R155; 08_cluster,
R251). -/
def takesCredit (s : State) (k : Nat) (c : Command) : Bool :=
  commandReplies s k c.op &&
    match c.op with
    | .pairx ch _ _ _ _ =>
      let p := vget (clusterOf s (clusterKey k)).pch ch PairCh.reset
      p.armed && p.id == c.id
    | _ => true
/-- The copy engine that serves a core's half of its cluster (R169). -/
def copyEngine (x : Ctx) : Nat := if x.lx % 12 ≤ 5 then 0 else 1
/-- The physical core of the context that a pair channel of the partner cluster binds (08_cluster, R250, R251). -/
def partnerCore (s : State) (k ch : Nat) : Option Nat :=
  let cl := clusterOf s (clusterKey k)
  let pk := 12 * cl.pairDie + 3 * (cl.pairCl / 4) + cl.pairCl % 4
  let p := vget (clusterOf s pk).pch ch PairCh.reset
  let (cx, cy) := clusterPlace pk
  if cl.pairV && p.v then (placeOf s (12 * cx + p.lx) (8 * cy + p.ly)).map (fun e => e.1) else none
/-- A migration, an indirect stream or a prefetch taken up by its engine, and other package work. -/
def launchPackage (s : State) (c : Command) : State :=
  let p := s.pkg
  match c.op with
  | .pfetch _ _ =>
    schedule { s with pkg := { p with xjobs := p.xjobs ++ [{ cmd := c, pos := 0, fail := none, stack := none }] } }
      (s.now + 2) .pfetchComplete (evArgs c.id 0 0)
  | .xstr _ =>
    schedule { s with pkg := { p with xjobs := p.xjobs ++ [{ cmd := c, pos := 0, fail := none, stack := none }] } }
      (s.now + 2) .xstrElement (evArgs c.id 0 0)
  | .migrate _ pa =>
    let m := { cmd := c, size := 0, old := 0, new := pa, leafAt := 0, leaf := 0, cmp := false, phase := .waiting : Migration }
    schedule { s with pkg := { p with migs := p.migs ++ [m] } } (s.now + 2) .migrationFork (evArgs c.id 0 0)
  | .tlbinv _ _ _ =>
    schedule { s with pkg := { p with invals := p.invals ++ [(c, 0, 0, [])] } } (s.now + 2) .tlbinvComplete (evArgs c.id 0 0)
  | _ => s
/-- The home of a space 01 or 10 address for COMPATTR: its physical address with its leaf's place, entry and CMP. -/
def attrPlace (s : State) (k q : Nat) (va : W64) : Trans × State :=
  if bits va 63 62 == 1 then translate s k q (bits va 47 0) false else (.ok va false, s)
/-- The payload of a COMPATTR query (13_package_memory, R371). -/
def attrPayload (s : State) (pa : W64) (cmp : Bool) : V512 :=
  let line := bits pa 40 0 / 128
  match bits pa 61 58 with
  | 1 =>
    BitVec.ofNat 512 (lineMeta s line + codeSectors (lineMeta s line) * 16 + ofBool cmp * 256 +
      ofBool (homeBad s (128 * line) 128) * 512)
  | 2 => BitVec.ofNat 512 (64 + ofBool cmp * 256 + ofBool (s.tier2Poison.contains (bits pa 43 0 / 128)) * 512)
  | _ => BitVec.ofNat 512 (64 + ofBool cmp * 256)

/-- The leaf that maps an address of a queue, with the place of its entry at home, and the walk's reads counted. -/
def leafPlace (s : State) (q va : Nat) : Walk × Nat × State :=
  match walkRoot s q with
  | some root =>
    let (w, l) := walkFrom s 3 root va
    (w, l.getLastD 0, countWalk s w l)
  | none => (.broken, 0, s)
/-- The gang of a region slot has consumed an error: its rollback starts, with the error's code (12_package_launch, R342). -/
def consumeError (s : State) (n : Nat) (code : BitVec 8) : State :=
  schedule (setRegion s n { regionOf s n with error := some code }) s.now .rollback (evArgs n 0 0)
/-- A COMPATTR that waits for the host's answer to a page request (R360): its context's held traffic is looked at meanwhile. -/
def awaitPage (s : State) (q va : Nat) (c : Command) : State :=
  parkCommand s q c va .fenceReleaseTraffic (evArgs c.core 0 0)
/-- An error that a command consumed: its gang rolls back (12_package_launch, R342; 13_package_memory, R355). -/
def commandError (s : State) (c : Command) : State := consumeError s (regionOfCtx s c.cx) cEccUe
/-- Every line of a page read and rewritten in place, encoded afresh (13_package_memory, R366, R371). -/
def recompress (s : State) (pa : W64) (size : Nat) (cmp : Bool) : State :=
  if bits pa 61 58 != 1 then s
  else
    let a := bits pa 40 0 / size * size
    (linesOf a size).foldl (fun s l =>
      homeWriteLine (countRead s l) l (placed (128 * l) (hbmBytes s (128 * l) 128)) cmp) s
/-- COMPATTR: a query of a line, a leaf's CMP written at home, or a page rewritten (R371); a poisoned line that it reads, of the tables
or of the page, rolls its gang back (R355). -/
def runCompattr (s : State) (k q : Nat) (c : Command) (op : Nat) (va : W64) (bit : Bool) (rt : BitVec 6) (fm : Bool) :
    State :=
  let a := bits va 47 0
  if op == 0 then
    match attrPlace s k q va with
    | (.ok pa cmp, s) => sendReply (endAccess s c.cx c.id) none c.cx c.id (replyToken c.cx rt fm false false 0 (attrPayload s pa cmp))
    | (.absent, s) => awaitPage s q a c
    | (.poisoned, s) => commandError s c
    | (.bad, s) =>
      let t := replyToken c.cx rt fm false true 0 (BitVec.ofNat 512 cPageFault.toNat)
      sendReply (endAccess s c.cx c.id) none c.cx c.id t
  else
    match leafPlace s q a with
    | (.leaf e size, at_, s) =>
      let page := leafAddress e a size
      if op == 1 then
        if physTarget (entryTarget e) == .hbm then
          completeCommand (homeWrite s at_ (leBytes 8 (putBits e 60 60 (ofBool bit)).toNat) false) c.cx c.id c.tag
        else failCommand s c cPageFault
      else if physTarget page == .hbm && homeBad s (bits page 40 0 / size * size) size then
        commandError (countStack s (counterPlace s page) 5 1) c
      else completeCommand (recompress s page size (bitAt e 60)) c.cx c.id c.tag
    | (.absent, _, s) => awaitPage s q a c
    | (.poisoned, _, s) => commandError s c
    | (_, _, s) => failCommand s c cPageFault
/-- A command accepted by its engine: its command-port entry is freed, and its work is queued (R155). -/
def leaveCommand (s : State) (k cx : Nat) (c : Command) : State :=
  let x := ctxOf s k cx
  let q := (regionOf s x.region).queue
  let s := noteAccess s c.cx (commandAccess s k q c)
  let s := if takesCredit s k c then modCtx s c.cx (fun x => { x with replies := x.replies + 1 }) else s
  let s := freeCp s c.cx
  let ck := clusterKey k
  let d := dieOf s (dieKey k)
  match c.op with
  | .red tree op vec all rt val fm =>
    let o := coreOf s k
    let i : RedIn := { tree := tree, input := 0, val := val, op := op, vec := vec, all := all, fm := fm, bad := 0 }
    let w := if commandReplies s k c.op then [{ tree := tree, cx := c.cx, rt := rt, id := c.id : RedWait }] else []
    schedule (setCore s k { o with redIn := o.redIn ++ [i], redWait := o.redWait ++ w }) s.now .confluenceCombine (evArgs k tree 0)
  | .pairx ch _ val sb seq =>
    match partnerCore s k ch with
    | some dst => sendRequest s k dst (.pairHalf ch seq val sb)
    | none => s
  | .cpy _ _ _ =>
    let e := copyEngine x
    let cl := clusterOf s ck
    let j : CopyJob := { cmd := c, row := 0, pos := 0, unit := none }
    schedule (setCluster s ck { cl with cq := vset cl.cq e (vget cl.cq e [] ++ [j]) }) (s.now + 1) .copyUnit (evArgs ck e c.id)
  | .cpy2 _ _ _ _ _ _ =>
    let e := copyEngine x
    let cl := clusterOf s ck
    let j : CopyJob := { cmd := c, row := 0, pos := 0, unit := none }
    schedule (setCluster s ck { cl with cq := vset cl.cq e (vget cl.cq e [] ++ [j]) }) (s.now + 1) .copyUnit (evArgs ck e c.id)
  | .rsvld _ _ _ =>
    let t := setDie s (dieKey k) { d with rsvq := d.rsvq ++ [{ cmd := c, pos := 0 }] }
    if d.rsvq.isEmpty then schedule t (s.now + 2) .rsvldLine (evArgs (dieKey k) 0 0) else t
  | .rsvPart p =>
    schedule (setDie s (dieKey k) { d with parts := d.parts ++ [c], preq := p, rpend := true }) (s.now + 2) .rsvcfgPartApply
      (evArgs (dieKey k) 0 0)
  | .rsvDrop => schedule (setDie s (dieKey k) { d with drops := d.drops ++ [c] }) (s.now + 1) .rsvcfgDropComplete (evArgs (dieKey k) 0 0)
  | .cgsend g _ _ _ _ _ _ _ _ _ =>
    schedule (postMsg s k k (.wake g (some c))) (s.now + 2) .cgwakeArrival (evArgs s.nextId 0 0)
  | .cgwake g => schedule (postMsg s k k (.wake g (some c))) (s.now + 2) .cgwakeArrival (evArgs s.nextId 0 0)
  | .statred kind idx max rt =>
    modCtx s c.cx (fun x => { x with stats := x.stats ++ [{ kind := kind, idx := idx, max := max, rt := rt }] })
  | .compattr op va bit rt fm => runCompattr s k q c op va bit rt fm
  | .coll n base =>
    let e := tget s.fab.cst Sched.reset n
    let s := { s with fab := { s.fab with cst := tput s.fab.cst n { e with waiting := e.waiting ++ [(c, base)] } } }
    schedule s s.now .collStepStart (evArgs n 0 0)
  | .routesw => s
  | .fport op port v =>
    let p := portOf s port
    let j : PortCmd := { op := op, peer := bits v 15 0, peerPort := bits v 23 16, cmp := bitAt v 24, dark := bits v 47 32,
                         packet := none, cmd := some c }
    let ev := match op with | 0 => Instr.portCmdQuiesce | 1 => Instr.portCmdTrain | _ => Instr.portCmdCycle
    schedule (setPort s port { p with cmds := p.cmds ++ [j] }) s.now ev (evArgs port 0 0)
  | _ => launchPackage s c

/-! ## The comparators of a duplicate placement (12_package_launch, R343) -/

/-- Whether a physical core runs a logical core of a copy of a duplicate placement. -/
def copyCore (s : State) (r : Region) (second : Bool) (k : Nat) : Bool :=
  r.seats.any (fun t => inCopy r second t.x t.y && (placeOf s t.x t.y).any (fun p => p.1 == k))
/-- The place in its copy of a context of a duplicate placement: its number with the copy's origin taken off. -/
def copyPlace (r : Region) (second : Bool) (addr : Nat) : Nat :=
  if second then ctxNumber (addr / 1024 - r.dupX) (addr / 4 % 256 - r.dupY) (addr % 4)
  else ctxNumber (addr / 1024 - r.x0) (addr / 4 % 256 - r.y0) (addr % 4)
/-- The exit of an item that leaves its copy, with its region slot: its stream is its place in the copy, its class (0 to 3 as its flits, 4
requests to memory, 5 CGSEND) and its destination (log entry 117). -/
def exitOf (s : State) (k c : Nat) (i : OutItem) : Option (Nat × Exit) :=
  let x := ctxOf s k c
  let r := regionOf s x.region
  if !r.dup then none
  else
    let second := !inCopy r false x.lx x.ly
    let exit := fun (cls dest : Nat) =>
      some (x.region, { second := second, pos := copyPlace r second (ctxAddr x), cls := cls, dest := dest, core := k, cx := c, item := .item i,
                        since := s.now : Exit })
    let out := fun (lx ly : Nat) => if inCopy r second lx ly then none else exit 0 (256 * lx + ly)
    match i with
    | .token p _ => match vget x.binds p none with | some b => out b.x b.y | none => none
    | .req q =>
      match bits q.addr 63 62 with
      | 0 => out (bits q.addr 60 52) (bits q.addr 51 44)
      | n => exit 4 n
    | .cmd ⟨_, _, _, _, .cgsend g _ _ _ _ _ _ _ _ _, _⟩ => exit 5 g
    | .cmd ⟨_, _, _, _, .pairx ch _ _ _ _, _⟩ =>
      match partnerCore s k ch with
      | some d => if copyCore s r second d then none else exit 0 (2 ^ 17 + d)
      | none => none
    | _ => none
/-- Whether two items of an exit stream match. -/
def itemsMatch (a b : ExitItem) : Bool :=
  match a, b with
  | .item (.token p t), .item (.token q u) => p == q && t.pay == u.pay && t.sb == u.sb
  | .item (.req p), .item (.req q) => p.kind == q.kind && p.addr == q.addr && p.rt == q.rt && p.rpy == q.rpy && p.fm == q.fm
  | .item (.cmd p), .item (.cmd q) => p.tag == q.tag && p.op == q.op
  | .write _ a _ _ _ bs, .write _ b _ _ _ cs => a == b && bs == cs
  | .partials p _, .partials q _ => p == q
  | _, _ => false
/-- An item at the comparator of its region: the n-th of its exit stream waits for the n-th of the other copy's, which is answered with the
state once both are there; where they differ the comparator is told. -/
def meetExit (s : State) (n : Nat) (e : Exit) : Option Exit × State :=
  let r := regionOf s n
  match r.exits.find? (fun o => o.pos == e.pos && o.cls == e.cls && o.dest == e.dest && o.second != e.second) with
  | none => (none, schedule (setRegion s n { r with exits := r.exits ++ [e] }) (s.now + 100000) .comparatorTimeout (evArgs n 0 0))
  | some o =>
    let s := setRegion s n { r with exits := r.exits.erase o }
    if itemsMatch e.item o.item then (some o, s) else (none, schedule s s.now .comparatorMismatch (evArgs n 0 0))
/-- Copy B's item dropped at a match: it is accounted as if it had left, under the number of copy A's. -/
def dropTwin (s : State) (k c : Nat) (b a : OutItem) : State :=
  let addr := ctxAddr (ctxOf s k c)
  match b, a with
  | .req r, .req q =>
    let s := freeCp (noteAccess s addr { requestAccess s k r with id := q.id }) addr
    if r.rpy then modCtx s addr (fun x => { x with replies := x.replies + 1 }) else s
  | .cmd r, .cmd q => freeCp (noteAccess s addr { commandAccess s k 0 r with id := q.id }) addr
  | _, _ => s
/-- An item leaves its context; none when it cannot yet. -/
def leaveItem (s : State) (k c : Nat) (i : OutItem) : Option State :=
  match i with
  | .token p t => leaveToken s k c p t
  | .req r => some (leaveRequest s k r)
  | .cmd ⟨id, core, cx, tag, .compattr op va bit rt fm, org⟩ =>
    -- with the fault buffer full, a COMPATTR to an absent page holds its command port (13_package_memory, R360)
    let q := (regionOf s (ctxOf s k c).region).queue
    let absent := match walkRoot s q with
      | some root => bits va 63 62 == 1 && (tlbLookup s k q (bits va 47 0)).isNone && (walkFrom s 3 root (bits va 47 0)).1 == .absent
      | none => false
    if absent && 64 ≤ (clusterOf s (clusterKey k)).parked.length then none
    else some (leaveCommand s k c ⟨id, core, cx, tag, .compattr op va bit rt fm, org⟩)
  | .cmd q => some (leaveCommand s k c q)
  | _ => some s
/-- An item leaves, through the comparator where it leaves a copy of a duplicate placement; of two items that match, copy A's goes on. -/
def leaveChecked (s : State) (k c : Nat) (i : OutItem) : Option State :=
  match exitOf s k c i with
  | none => leaveItem s k c i
  | some (n, e) =>
    match meetExit s n e with
    | (none, s) => some s
    | (some o, s) =>
      match e.second, o.item with
      | true, .item j => leaveItem (dropTwin s k c i j) o.core o.cx j
      | false, .item j => leaveItem (dropTwin s o.core o.cx j i) k c i
      | _, _ => some s

/-! ## The outbound order (05_core_memory, R174; 08_cluster, R249) -/

/-- Where the walk over an outbound order stands: the state, what stays behind in order, whether tokens, and whether requests
and commands, are held from here on. -/
structure Walked where
  st : State
  kept : List OutItem
  tok : Bool
  cmd : Bool

/-- The reply credits of a context: 16, of which a handler keeps 8 for records (R155; 08_cluster, R253). -/
def replyCredits (s : State) (k c : Nat) : Nat := if (chainPosition s k c).isSome then 8 else 16
/-- Whether a request or command may leave by its reply credits, and with no earlier request held at a walk (R155;
13_package_memory, R359). -/
def mayLeave (s : State) (k c : Nat) (i : OutItem) : Bool :=
  let x := ctxOf s k c
  let wants := match i with | .req r => r.rpy | .cmd q => takesCredit s k q | _ => false
  (!wants || x.replies < replyCredits s k c) && !s.xops.any (fun o => o.port && o.req.cx == ctxAddr x)
/-- The accesses earlier than an item: those that have left and those still held. -/
def earlier (w : Walked) (k c : Nat) : List Access :=
  let x := ctxOf w.st k c
  x.pend ++ w.kept.flatMap (itemAccess w.st k (regionOf w.st x.region).queue)
/-- One item of the outbound order: it leaves, ends, or stays and holds what follows. The arrival of a barrier leaves only with
arr (BARRIER_ARRIVAL_LEAVE). -/
def walkItem (k c : Nat) (arr : Bool) (w : Walked) (i : OutItem) : Walked :=
  let stay := { w with kept := w.kept ++ [i] }
  let before := earlier w k c
  match i with
  | .token _ _ =>
    if w.tok then stay
    else match leaveChecked w.st k c i with
      | some s => { w with st := s }
      | none => { stay with tok := true }
  | .req _ =>
    if w.cmd || !mayLeave w.st k c i then { stay with cmd := true }
    else match leaveChecked w.st k c i with
      | some s => { w with st := s }
      | none => { stay with cmd := true }
  | .cmd _ =>
    if w.cmd || !mayLeave w.st k c i then { stay with cmd := true }
    else match leaveChecked w.st k c i with
      | some s => { w with st := s }
      | none => { stay with cmd := true }
  | .fence kind scope =>
    let rel := bitAt kind 1
    let acq := bitAt kind 0
    let held := (rel && before.any (holdsRelease k scope)) || (acq && before.any (holdsAcquire k scope)) ||
      (rel && w.tok) || (acq && w.cmd)
    if held then { stay with cmd := true, tok := w.tok || rel }
    else if acq && 3 ≤ scope then { w with st := dropLines w.st (dieKey k) }
    else w
  | .arrive b timeout =>
    if !arr || w.tok || w.cmd || before.any (holdsArrival k) then { stay with tok := true, cmd := true }
    else
      let x := ctxOf w.st k c
      let (px, py) := clusterXY k
      { w with st := sendFlit w.st 2 k (256 * (13 * px + 6) + 8 * py + 4) (.barArrive b k (ctxAddr x) timeout) }
  | .gbar _ =>
    if w.tok || w.cmd || before.any (holdsRelease k 3) then { stay with tok := true, cmd := true }
    else { w with st := schedule w.st w.st.now .gbarCompletion (evArgs (ctxOf w.st k c).region 0 0) }
/-- The outbound order of a context drained as far as it may go; a stopped core sends nothing (12_package_launch, R337). -/
def drain (s : State) (k c : Nat) (arr : Bool) : State :=
  if (coreOf s k).stopped || clockStopped s k then s
  else
    let x := ctxOf s k c
    let w := x.outbound.foldl (walkItem k c arr) { st := setCtx s k c { x with outbound := [] }, kept := [], tok := false, cmd := false }
    let x := ctxOf w.st k c
    setCtx w.st k c { x with outbound := w.kept ++ x.outbound }

/-- FENCE_RELEASE_TRAFFIC: the traffic that a fence held leaves once the fence lets it (R174). Operands: core, context. -/
def execFenceReleaseTraffic (s : State) : Outcome := .next (drain s s.ev.x s.ev.y false)
/-- BARRIER_ARRIVAL_LEAVE: a barrier arrival leaves its core once the context's earlier effects in the cluster are performed or
delivered (08_cluster, R249). Operands: core, context. -/
def execBarrierArrivalLeave (s : State) : Outcome := .next (drain s s.ev.x s.ev.y true)

end Sys2Proof.Machine
end

