-- ==== Sys2Proof/Machine/Streams.lean ====
section
/-! DEFINITION. The stream engines: the nest of a stream, fetches, writes and drain tags (05_core_memory, R162 to R165). -/
namespace Sys2Proof.Machine

/-- The region slot that a core's contexts run for. -/
def regionOfCore (s : State) (k : Nat) : Option Nat :=
  (((coreOf s k).ctx.toList.filter (fun x => x.resident)).head?).map (fun x => x.region)
/-- An error that an agent consumed on behalf of a core's gang. -/
def consumeOnCore (s : State) (k : Nat) (code : BitVec 8) : State :=
  match regionOfCore s k with
  | some n => consumeError s n code
  | none => s

/-- The offset of the element that a stream's indices name (R162). -/
def elementAt (st : Stream) : Nat :=
  ((st.idx.toList.zip st.str.toList).foldl (fun (a : Int) p => a + Int.ofNat p.1 * p.2.toInt) (Int.ofNat st.base)).toNat
/-- The indices after an element, as (count, index) pairs innermost first; none after the nest's last element (R163). -/
def nestNext : List (Nat × Nat) → Option (List Nat)
  | [] => none
  | (c, i) :: r => if i + 1 < c then some ((i + 1) :: r.map (fun p => p.2)) else (nestNext r).map (fun t => 0 :: t)
/-- A stream that has passed an element. -/
def stepNest (st : Stream) : Stream :=
  match nestNext (st.cnt.toList.zip st.idx.toList) with
  | some l => { st with idx := #v[l.getD 0 0, l.getD 1 0, l.getD 2 0, l.getD 3 0] }
  | none => { st with done := true }
/-- d of an element: bit k when the indices 0 to k all stand at their last values (R163). -/
def nestEnds (st : Stream) : Nat :=
  let last := fun (k : Nat) => vget st.idx k 0 + 1 == vget st.cnt k 1
  ((List.range 4).filter (fun k => (List.range (k + 1)).all last)).foldl (fun a k => a + 2 ^ k) 0
/-- The sideband of a fetched element (R163). -/
def elementSb (st : Stream) : BitVec 40 :=
  BitVec.ofNat 40 (ofBool (st.esz == 3) * 2 ^ 39 + ofBool st.fm * 2 ^ 10 + nestEnds st * 64 + ofBool (nestEnds st == 15) * 32 +
    st.fmt.toNat)
/-- A stream register of a context replaced. -/
def setStream (s : State) (k c q : Nat) (st : Stream) : State :=
  let x := ctxOf s k c
  setCtx s k c { x with q := vset x.q q st }
/-- A stream register of a context. -/
def streamOf (s : State) (k c q : Nat) : Stream := vget (ctxOf s k c).q q Stream.reset
/-- The first of the replaced bindings of a stream that still has elements to write (R165). -/
def oldBinding (x : Ctx) (q : Nat) : Option Stream := (x.oldq.find? (fun e => e.1 == q)).map (fun e => e.2)
/-- The first replaced binding of a stream changed, or gone. -/
def setOld (q : Nat) (st : Option Stream) : List (Nat × Stream) → List (Nat × Stream)
  | [] => []
  | e :: r => if e.1 == q then (match st with | some n => (q, n) :: r | none => r) else e :: setOld q st r
/-- The next step of a stream's engine, when it has one: a replaced binding's elements, and those of a stream that UNBIND ends, are
written first (R163, R165). -/
def wakeStream (s : State) (k c q : Nat) : State :=
  let st := streamOf s k c q
  if (oldBinding (ctxOf s k c) q).isSome || st.unbinding then schedule s (s.now + 1) .streamWrite (evArgs k c q)
  else if !st.bound || st.paused then s
  else if st.dir then (if st.queued.isEmpty then s else schedule s (s.now + 1) .streamWrite (evArgs k c q))
  else if st.done || 64 ≤ st.fetched.length then s
  else schedule s (s.now + 1) .streamFetch (evArgs k c q)
/-- Whether a drain of a stream is satisfied: every element it counted is written, or the nest's last is fetched (R165). -/
def drainMet (st : Stream) (d : Nat × Nat) : Bool := if st.dir then d.2 == 0 else st.done
/-- The drain tags that a stream owes, as a step to come. -/
def wakeDrain (s : State) (k c q : Nat) : State :=
  let st := streamOf s k c q
  if st.drains.any (drainMet st) then schedule s s.now .streamDrainTag (evArgs k c q) else s
/-- Tag bits of drains set in a context. -/
def setDrainTags (x : Ctx) (ds : List (Nat × Nat)) : Ctx := { x with tb := ds.foldl (fun b d => b ||| (1#64 <<< d.1)) x.tb }
/-- The tags of a stream's satisfied drains set, and the drains gone. -/
def settleDrains (s : State) (k c q : Nat) : State :=
  let st := streamOf s k c q
  let s := setCtx s k c (setDrainTags (ctxOf s k c) (st.drains.filter (drainMet st)))
  setStream s k c q { st with drains := st.drains.filter (fun d => !drainMet st d) }

/-- The check of the address that a stream's engine computes: struck by an upset it is computed again, which counts a corrected error
when that is clean; struck again, the stream pauses, and the context takes a machine check of unit 7 after its next round, or at
the core's next round boundary when it runs none (07_core_failures, R205, R206, R208). False when the element is withheld. -/
def engineAddress (s : State) (k c q : Nat) (st : Stream) : Bool × State :=
  let i := 4 * c + q
  let strike := fun (s : State) => let o := coreOf s k; setCore s k { o with upsets := o.upsets.erase i }
  if !(coreOf s k).upsets.contains i then (true, s)
  else
    let s := strike s
    if !(coreOf s k).upsets.contains i then (true, bucketUp s k)
    else
      let s := strike s
      let s := setStream s k c q { streamOf s k c q with paused := true }
      let a := elementAt st
      let obs := residue7 (a % 7 + 1 + (Config.residue a).toNat % 6)
      let x := ctxOf s k c
      if eligible x then (false, setCtx s k c { x with checks := x.checks ++ [(q, residue7 a, obs)] })
      else (false, trapAtBoundary s k c (engineCause q (residue7 a) obs))

/-- STREAM_FETCH: a read stream's engine fetches the next element of its nest with its sideband, up to 64 ahead, once the elements of a
binding that it replaced are written; an uncorrectable error withholds it and starts a rollback (R147, R163, R165). Operands: core,
context, stream. -/
def execStreamFetch (s : State) : Outcome :=
  let k := s.ev.x
  let c := s.ev.y
  let q := s.ev.z
  let st := streamOf s k c q
  if !st.bound || st.dir || st.paused || st.done || 64 ≤ st.fetched.length || (oldBinding (ctxOf s k c) q).isSome then .next s
  else
    let x := ctxOf s k c
    let off := windowed s x.lx x.ly (elementAt st)
    let n := elementSize st.esz
    match engineAddress s k c q st with
    | (false, s) => .next s
    | (true, s) =>
      if portBad s k off n then .next (consumeError s x.region cEccUe)
      else
        let t : Token := { sb := elementSb st, pay := ofBytes (portRead s k off n), src := none }
        let s := countCorrected s k off n
        let s := setStream s k c q { stepNest st with fetched := st.fetched ++ [t] }
        .next (wakeDrain (wakeStream s k c q) k c q)
/-- The head of a write stream's queue written at the nest's next element, and the stream past it; an element past the nest's end has
no place and is dropped (R163, R164). -/
def writeHead (s : State) (k c : Nat) (st : Stream) : State × Stream :=
  match st.queued with
  | [] => (s, st)
  | v :: r =>
    let x := ctxOf s k c
    let off := windowed s x.lx x.ly (elementAt st)
    let ps := (placed off ((vBytes v).take (elementSize st.esz))).map (fun p => (portOffset s k p.1 false, p.2))
    let s := if st.done then s else storeBytes s k (some c) ps
    let st := if st.done then st else stepNest st
    (s, { st with queued := r, drains := st.drains.map (fun d => (d.1, d.2 - 1)) })
/-- A binding with nothing left to write ends: its drains' tags are set (R165). -/
def endBinding (s : State) (k c : Nat) (st : Stream) : State :=
  setCtx s k c (setDrainTags (ctxOf s k c) (st.drains.filter (drainMet st)))
/-- The next element of a replaced binding written; after its last the binding is gone (R165). -/
def writeOld (s : State) (k c q : Nat) (st : Stream) : State :=
  match engineAddress s k c q st with
  | (false, s) => wakeStream s k c q
  | (true, s) =>
    let (s, st) := writeHead s k c st
    let x := ctxOf s k c
    if st.queued.isEmpty then wakeStream (endBinding (setCtx s k c { x with oldq := setOld q none x.oldq }) k c st) k c q
    else wakeStream (setCtx s k c { x with oldq := setOld q (some st) x.oldq }) k c q
/-- STREAM_WRITE: a write stream's engine writes the oldest queued element; UNBIND takes effect once none is left (R163, R165).
Operands: core, context, stream. -/
def execStreamWrite (s : State) : Outcome :=
  let k := s.ev.x
  let c := s.ev.y
  let q := s.ev.z
  let st := streamOf s k c q
  match oldBinding (ctxOf s k c) q with
  | some old => .next (writeOld s k c q old)
  | none =>
    if !st.bound || !st.dir || (st.paused && !st.unbinding) then .next s
    else if st.queued.isEmpty then
      if st.unbinding then .next (setStream (endBinding s k c st) k c q { st with bound := false, unbinding := false, drains := [] })
      else .next s
    else
      match engineAddress s k c q st with
      | (false, s) => .next (if st.unbinding then wakeStream s k c q else s)
      | (true, s) =>
        let (s, st) := writeHead s k c st
        .next (wakeDrain (wakeStream (setStream s k c q st) k c q) k c q)
/-- STREAM_DRAIN_TAG: the tag bits of the drains that are satisfied are set (R165). Operands: core, context, stream. -/
def execStreamDrainTag (s : State) : Outcome := .next (settleDrains s s.ev.x s.ev.y s.ev.z)

/-- Whether the engine of a binding that ends still has work: elements to write, or drains to answer (R165). -/
def leftToWrite (st : Stream) : Bool := st.bound && st.dir && (!st.queued.isEmpty || !st.drains.isEmpty)
/-- UNBIND: fetched elements are discarded; queued ones are written first, in the cycles after the commit (R164, R165). The drains of a
read stream that has not fetched its nest's last element go with the binding: their tags are never set (DESIGN CHOICE, log
entry 92). -/
def unbindStream (s : State) (k c q : Nat) : State :=
  let st := streamOf s k c q
  if leftToWrite st then wakeStream (setStream s k c q { st with unbinding := true }) k c q
  else
    let s := if st.dir then s else endBinding s k c st
    setStream s k c q { st with bound := false, unbinding := false, fetched := [], queued := [], drains := [] }
/-- A new binding of a stream: one that it replaces ends as UNBIND ends it, its elements written before the new one's accesses (R162,
R165). -/
def bindStream (s : State) (k c q : Nat) (n : Stream) : State :=
  let st := streamOf s k c q
  let s := if st.dir then s else endBinding s k c st
  let x := ctxOf s k c
  let s := if leftToWrite st then setCtx s k c { x with oldq := x.oldq ++ [(q, { st with unbinding := true })] } else s
  wakeStream (setStream s k c q n) k c q
/-- STRCTL at commit, but for DRAIN (R165). -/
def strctl (s : State) (k c q op : Nat) : State :=
  let st := streamOf s k c q
  match op with
  | 0 => if st.bound then unbindStream s k c q else s
  | 1 => setStream s k c q { st with paused := true }
  | _ => wakeStream (setStream s k c q { st with paused := false }) k c q
/-- DRAIN at commit: the elements that the stream holds, and those that the same body writes after it, are awaited (R165). -/
def drainStream (s : State) (k c q tag later : Nat) : State :=
  let st := streamOf s k c q
  setStream s k c q { st with drains := st.drains ++ [(tag, st.queued.length + later)] }

end Sys2Proof.Machine
end

