-- ==== Sys2Proof/Machine/Commit.lean ====
section
/-! DEFINITION. The commit of a round: the effects of the rules that ran to their end, in rule-index order and body order, the
aborts of the others, the traps of the round (02_rule, R68 to R77; 07_core_failures, R205 to R221). -/
namespace Sys2Proof.Machine

/-! ## Shared state that a commit touches -/

/-- A context counter of a slot increased (07_core_failures, R223). -/
def countCtx (s : State) (k c n m : Nat) : State :=
  let x := ctxOf s k c
  setCtx s k c { x with cnt := vset x.cnt n (satAdd (vget x.cnt n 0) m) }
/-- A core counter, by its index from 32 on, increased (R223). -/
def countCore (s : State) (k n m : Nat) : State :=
  let o := coreOf s k
  setCore s k { o with cnt := vset o.cnt (n - 32) (satAdd (vget o.cnt (n - 32) 0) m) }
/-- A package counter increased (12_package_launch, R346). -/
def countPkg (s : State) (n m : Nat) : State :=
  { s with pkg := { s.pkg with cnt := vset s.pkg.cnt n (satAdd (vget s.pkg.cnt n 0) m) } }
/-- A Cascade counter of a die increased (11_package_cascade, R320). -/
def countCasc (s : State) (die n m : Nat) : State :=
  let d := dieOf s die
  setDie s die { d with casc := vset d.casc n (satAdd (vget d.casc n 0) m) }

/-- The vote of a filter, sent to the branch hub of its die while the filter is valid (11_package_cascade, R308). -/
def sendVote (s : State) (k f : Nat) : State :=
  let v := vget (coreOf s k).cgf f 0
  if bitAt v 63 then
    sendFlit s 3 k (hubCore (dieKey k)) (.vote (bits v 62 55) k f (v.extractLsb' 16 16) (bitAt v 51))
  else s
/-- REL of the filter that named a block's group raised by one, be it valid or not, and its vote (R304, R318). -/
def raiseRel (s : State) (k f : Nat) : State :=
  let o := coreOf s k
  let v := vget o.cgf f 0
  sendVote (setCore s k { o with cgf := vset o.cgf f (putBits v 31 16 (bits v 31 16 + 1)) }) k f
/-- A receive slot freed, with REL of its group's filter raised (R305, R318). -/
def freeSlot (s : State) (k n : Nat) : State :=
  let o := coreOf s k
  let r := vget o.rx n RxSlot.reset
  let s := setCore s k { o with rx := vset o.rx n RxSlot.reset }
  match r.blk with
  | some _ => raiseRel s k r.filter
  | none => s
/-- A slot released: free at once, or once its basin pin clears (R318; 06_core_basin, R184). -/
def releaseSlot (s : State) (k n : Nat) : State :=
  let o := coreOf s k
  let r := vget o.rx n RxSlot.reset
  if r.pin then setCore s k { o with rx := vset o.rx n { r with rel := true } } else freeSlot s k n
/-- A slot put into a list of slots by the order of their pops. -/
def insertSlot (o : Core) (n : Nat) : List Nat → List Nat
  | [] => [n]
  | m :: r =>
    if (vget o.rx n RxSlot.reset).order < (vget o.rx m RxSlot.reset).order then n :: m :: r else m :: insertSlot o n r
/-- The slots of a port that a context has popped and not released, oldest first (R318). -/
def popped (o : Core) (p cx : Nat) : List Nat :=
  let mine := (List.range 4).filter (fun i =>
    let r := vget o.rx (4 * p + i) RxSlot.reset
    r.st == .popped && !r.rel && r.cx == cx)
  (mine.map (fun i => 4 * p + i)).foldl (fun l n => insertSlot o n l) []

/-- The basin that serves a core, counted over the package: 12 a cluster; a spare core has the port of the logical core it
stands for (06_core_basin, R175). -/
def basinPlace (s : State) (k : Nat) : Nat × Nat :=
  let cl := clusterKey k
  let (cx, cy) := clusterPlace cl
  let col := k / 256 % 13
  let here := if col < 12 then some (col, k % 8)
    else ((List.range 96).map (fun n => (n / 8, n % 8))).find? (fun p =>
      (placeOf s (12 * cx + p.1) (8 * cy + p.2)).map (fun e => e.1) == some k)
  match here with
  | some (x, y) => (12 * cl + 6 * (y / 4) + x / 2, 2 * (y % 4) + x % 2)
  | none => (12 * cl, 8)
/-- The basin of a core. -/
def basinOf (s : State) (k : Nat) : Nat := (basinPlace s k).1

/-- A pair channel of a cluster replaced. -/
def setPair (s : State) (cl ch : Nat) (p : PairCh) : State :=
  let c := clusterOf s cl
  setCluster s cl { c with pch := vset c.pch ch p }
/-- The core of the context that a pair channel of a cluster binds. -/
def pairCore (s : State) (cl ch : Nat) : Option Nat :=
  let p := vget (clusterOf s cl).pch ch PairCh.reset
  let (cx, cy) := clusterPlace cl
  (placeOf s (12 * cx + p.lx) (8 * cy + p.ly)).map (fun e => e.1)
/-- The context number that a pair channel of a cluster binds. -/
def pairCtx (s : State) (cl ch : Nat) : Nat :=
  let p := vget (clusterOf s cl).pch ch PairCh.reset
  let (cx, cy) := clusterPlace cl
  ctxNumber (12 * cx + p.lx) (8 * cy + p.ly) p.cx
/-- Whether the half of a channel's own side waits in its context's outbound order. -/
def halfWaits (x : Ctx) (p : PairCh) : Bool := x.outbound.any (fun o => match o with | .cmd c => c.id == p.id | _ => false)
/-- A channel as it stands once its sequence has ended (08_cluster, R251, R252). -/
def nextPair (p : PairCh) : PairCh := { p with armed := false, held := none, since := 0, frozen := none, seq := p.seq + 1 }
/-- PAIR_DELIVERY: a side with ARMED and HELD delivers the held half to its context as a reply on RSP and advances SEQ; its own half may
still have to leave (08_cluster, R234, R251). -/
def pairDeliver (s : State) (cl ch : Nat) : State :=
  let p := vget (clusterOf s cl).pch ch PairCh.reset
  match p.held with
  | some (v, sb) =>
    if p.armed then
      let addr := pairCtx s cl ch
      let t := { replyToken addr p.rt (bitAt sb 10) true false (bits sb 2 0) v with src := none }
      let s := modCtx (setPair s cl ch (nextPair p)) addr (fun x => if halfWaits x p then { x with replies := x.replies + 1 } else x)
      sendReply s (some (barrierCore cl)) addr p.id t
    else s
  | none => s
/-- A pair ended without its exchange: the held half is discarded, SEQ advances, and the reply credit of a half that has left is
free again (08_cluster, R252). -/
def dropPair (s : State) (cl ch : Nat) : State :=
  let p := vget (clusterOf s cl).pch ch PairCh.reset
  let addr := pairCtx s cl ch
  let s := setPair s cl ch (nextPair p)
  if p.armed then
    let s := modCtx s addr (fun x => if halfWaits x p then x else { x with replies := x.replies - 1 })
    match pairCore s cl ch with
    | some k => if (coreOf s k).bq.isEmpty then s else schedule s s.now .basinGrant (evArgs (basinOf s k) 0 0)
    | none => s
  else s
/-- The pairs of a context that has trapped for another reason end: the held half is discarded, SEQ advances, and the partner is
told (08_cluster, R252). -/
def abortPairs (s : State) (k c : Nat) : State :=
  let x := ctxOf s k c
  let cl := clusterKey k
  (List.range 16).foldl (fun s ch =>
    let p := vget (clusterOf s cl).pch ch PairCh.reset
    if channelBound x p && (p.armed || p.held.isSome) then
      let s := dropPair s cl ch
      match partnerCore s k ch with
      | some dst => sendFlit s 3 k dst (.pairAbort ch p.seq.toNat)
      | none => s
    else s) s
/-- A trap or machine check of a round taken, with the end of the context's pairs (07_core_failures, R219). -/
def raiseTrap (s : State) (k c : Nat) (fm : Bool) (cause : Cause) (mult : Bool) : State :=
  abortPairs (takeTrap s k c fm cause mult) k c

/-! ## CSR writes (07_core_failures, R208, R216, R222; 05_core_memory, R171; 12_package_launch, R340) -/

/-- Whether two block ranges meet. -/
def rangesMeet (a n b m : Nat) : Bool := a < b + m && b < a + n
/-- CORE_PUBW as a write leaves it: V at 0 where the window breaks a limit or overlaps another, SEL at 0 (R171). -/
def windowWord (o : Core) (n : Nat) (v : W64) : W64 :=
  let f := bits v 21 11
  let b := bits v 32 22
  let z := bits v 43 33
  let clash := (List.range 8).any (fun j =>
    let w := vget o.pubw j 0
    j != n && bitAt w 63 && ([bits w 21 11, bits w 32 22].any (fun a =>
      rangesMeet f z a (bits w 43 33) || rangesMeet b z a (bits w 43 33))))
  let bad := z == 0 || rangesMeet f z b z || 1536 < f + z || 1536 < b + z || clash
  let v := v &&& 0x80000FFFFFFFF800
  if bad then v &&& 0x7FFFFFFFFFFFFFFF else v
/-- A CSR written at commit. -/
def writeCsr (s : State) (k n : Nat) (v : W64) : State :=
  let o := coreOf s k
  if 0x10 ≤ n && n < 0x18 then setCore s k { o with pubw := vset o.pubw (n - 0x10) (windowWord o (n - 0x10) v) }
  else if n == 0x20 then
    let b := BitVec.ofNat 32 (bits v 23 16 * 65536 + bits v 12 8 * 256 + bits o.bucket 7 0)
    let b := if bitAt o.bucket 31 && !bitAt v 31 then putBits b 31 31 1 else b
    let s := setCore s k { o with bucket := b }
    if bitAt o.bucket 31 && !bitAt b 31 then noteSuspect s k false else s
  else if 0x30 ≤ n && n < 0x34 then
    if bits v 63 62 == 2 && bits v 15 0 == 0 then setCore s k { o with save := vset o.save (n - 0x30) v } else s
  else if n == 0x34 then (if bits v 63 62 == 2 && bits v 17 0 == 0 then setCore s k { o with ckpt := v } else s)
  else s

/-! ## Effects (R68) -/

/-- A request that leaves a commit: numbered, with its context's identity and its queue; one command-port entry (R57, R155). -/
def commitRequest (s : State) (k c : Nat) (r : Request) : State :=
  let x := ctxOf s k c
  let r := { r with id := s.nextId, core := k, cx := ctxAddr x, queue := (regionOf s x.region).queue }
  setCtx { s with nextId := s.nextId + 1 } k c { x with cpUsed := x.cpUsed + 1, outbound := x.outbound ++ [.req r] }
/-- A command that leaves a commit: numbered; one command-port entry. A CFGSWAP acts at once, a PFETCH of nothing sends nothing and
completes after the commit, and a PAIRX arms its channel (R71, R155, R173; 08_cluster, R258; 12_package_launch, R349). -/
def commitCommand (s : State) (k c : Nat) (q : Command) : State :=
  let x := ctxOf s k c
  let q := { q with id := s.nextId, core := k, cx := ctxAddr x }
  let s := { s with nextId := s.nextId + 1 }
  let put := fun (q : Command) (s : State) =>
    let x := ctxOf s k c
    setCtx s k c { x with cpUsed := x.cpUsed + 1, outbound := x.outbound ++ [.cmd q] }
  match q.op with
  | .cfgswap r discard =>
    let g := regionOf s r
    setRegion s r { g with swpend := true, discard := discard, swapper := some (q.cx, q.id, q.tag) }
  | .pfetch _ 0 => s
  | .pairx ch rt v sb _ =>
    let cl := clusterKey k
    let p := vget (clusterOf s cl).pch ch PairCh.reset
    pairDeliver (put { q with op := .pairx ch rt v sb p.seq.toNat } (setPair s cl ch { p with armed := true, rt := rt, id := q.id })) cl ch
  | _ => put q s
/-- A read pin on the receive slot of a matrix command's operand (06_core_basin, R184). -/
def pinTile (o : Core) (t : Tile) : Core :=
  match t with
  | .slot p i _ => { o with rx := vset o.rx (4 * p + i) { vget o.rx (4 * p + i) RxSlot.reset with pin := true } }
  | _ => o
/-- A basin command put into its core's queue (06_core_basin, R177). -/
def commitBasin (s : State) (k : Nat) (b : BasinCmd) : State :=
  let o := coreOf s k
  let o := match b.op with | .mma _ _ _ _ _ _ _ _ _ _ ta tb => pinTile (pinTile o ta) tb | _ => o
  schedule (setCore s k { o with bq := o.bq ++ [b] }) s.now .basinGrant (evArgs (basinOf s k) 0 0)
/-- A resume message on CTL to the logical core of a record (07_core_failures, R227). -/
def sendTret (s : State) (k : Nat) (w1 : W64) (action : Nat) : State :=
  let x := bits w1 47 39
  let y := bits w1 38 31
  match boundAt s k x y with
  | some (dst, _) => sendFlit s 3 k dst (.tret (ctxNumber x y (bits w1 30 29)) (bits w1 28 17) action)
  | none => s
/-- A counter cleared: context counters 0 to 12, core counters 32 to 42 (R230). -/
def clearCounter (s : State) (k c n : Nat) : State :=
  if n < 13 then
    let x := ctxOf s k c
    setCtx s k c { x with cnt := vset x.cnt n 0 }
  else if 32 ≤ n && n < 43 then
    let o := coreOf s k
    let now := clusterCycles s (clusterKey k)
    let hold := if n == 42 then o.hold.map (fun h => (h.1, { h.2 with from_ := now })) else o.hold
    setCore s k { o with cnt := vset o.cnt (n - 32) 0, hold := hold }
  else s
/-- A write of E of a group, held as a write of its CFG is; one that breaks the pool of a branch die is ignored and counted
(11_package_cascade, R299, R319). -/
def writeDepth (s : State) (k g e : Nat) : State :=
  let cur := groupOf s g
  let sum := fun (d : Nat) => s.group.foldl (fun a x =>
    if x.1 != g && bitAt x.2.cfg 63 && bitAt x.2.br d then a + bits x.2.cfg 52 50 else a) 0
  if (List.range 64).any (fun d => bitAt cur.br d && 64 < sum d + e) then countCasc s (dieKey k) 8 1
  else writeGroup s g false (putBits cur.cfg 52 50 e)
/-- Whether an offset of the control range lies in the registers of R54 or of the cluster, which a privileged write reaches at the round
boundary (R54, R78; 08_cluster, R232). -/
def ruleRegister (off : Nat) : Bool :=
  (0x70100 ≤ off && off < 0x701E0) || (0x70400 ≤ off && off < 0x70800) || (0x78000 ≤ off && off < 0x79000)
/-- FM of a record that a handler forwards: that of the context which raised it, while its trap is outstanding, 0 for a record of no
context; for any other value that of the operand's sideband (03_core_numbers, R101; log entry 100). -/
def forwardFm (s : State) (r : Record) (fm : Bool) : Bool :=
  if bitAt r.w0 52 then false
  else match anyCtx s (ctxNumber (bits r.w1 47 39) (bits r.w1 38 31) (bits r.w1 30 29)) with
    | some x => if x.trap == some r then x.trapFm else fm
    | none => fm
/-- An effect of a body at its rule's commit, in body order (R68). Counters are cleared before the round's events are counted; writes
to the registers of R54 wait for the round boundary. -/
def applyEffect (k c : Nat) (s : State) (e : Effect) : State :=
  let x := ctxOf s k c
  let o := coreOf s k
  match e with
  | .push p t =>
    let b := (vget x.binds p none).map (fun (b : Binding) => { b with credits := b.credits - 1 })
    setCtx s k c { x with binds := vset x.binds p b, outbound := x.outbound ++ [.token p t] }
  | .req r => commitRequest s k c r
  | .cmd q => commitCommand s k c q
  | .fence kind scope => setCtx s k c { x with outbound := x.outbound ++ [.fence kind scope] }
  | .basin b => commitBasin s k b
  | .store ps =>
    let s := storeBytes s k (some c) (ps.filter (fun p => p.1 < 0x70000))
    match ps.filter (fun p => 0x70000 ≤ p.1 && !ruleRegister p.1) with
    | [] => s
    | rs => writeRegBytes s k rs
  | .nibble off high v => if ruleRegister off then s else storeNibble s k (some c) off high v
  | .elem q v =>
    let st := streamOf s k c q
    wakeStream (setStream s k c q { st with queued := st.queued ++ [v] }) k c q
  | .stream q st => bindStream s k c q { st with fm := x.fm }
  | .strctl q op => strctl s k c q op
  | .drain q tag later => drainStream s k c q tag later
  | .tagSet n => setCtx s k c { x with tb := x.tb ||| (1#64 <<< n) }
  | .tagClear n => setCtx s k c { x with tb := x.tb &&& ~~~(1#64 <<< n) }
  | .tagMask m v => setCtx s k c { x with tb := (x.tb &&& ~~~m) ||| (v &&& m) }
  | .enable m v => setCtx s k c { x with en := (x.en &&& ~~~m) ||| (v &&& m) }
  | .clearAbort i => setCtx s k c { x with rabort := vset x.rabort i 0 }
  | .status fm rnd f => setCtx s k c { x with fm := fm, rnd := rnd, flags := f }
  | .format fm => setCtx s k c { x with fm := fm }
  | .raise f => setCtx s k c { x with flags := x.flags ||| f }
  | .csr n v => writeCsr s k n v
  | .clearCount _ => s
  | .clearBasin n => setCtx s k c { x with bcnt := vset x.bcnt n 0 }
  | .inject d => setCore s k { o with inj := d }
  | .softTrap _ _ => s
  | .tret w1 action => sendTret s k w1 action
  | .barrier b tag tout timeout =>
    setCtx s k c { x with
      barPend := x.barPend ||| (1#16 <<< b), barTag := vset x.barTag b tag, barTout := vset x.barTout b tout
      outbound := x.outbound ++ [.arrive b timeout] }
  | .gbar tag => setCtx s k c { x with gbar := some tag, outbound := x.outbound ++ [.gbar tag] }
  | .sluice reason => sendFlit s 3 k (barrierCore (clusterKey k)) (.sluice x.region reason)
  | .forward r fm =>
    match chainPosition s k c with
    | some n => sendRecord s k (n + 1) r n (forwardFm s r fm)
    | none => s
  | .vfreq pt freq =>
    let d := dieOf s (dieKey k)
    let i := vfIndex d (clusterKey k % 12)
    let v := vget d.vf i (VfRegion.reset i)
    if overtaken s v k then s
    else
      let n := { v with rpt := pt, rfreq := freq, req := (s.now, dieIndex s k) }
      requestVf (setDie s (dieKey k) { d with vf := vset d.vf i n }) (dieKey k) i 0
  | .weir lim => setCore s k { o with weirLim := lim }
  | .grant g hold =>
    match filterFor o g c with
    | some f => sendVote (setCore s k { o with cgf := vset o.cgf f (putBits (vget o.cgf f 0) 51 51 (ofBool hold)) }) k f
    | none => s
  | .release p n => ((popped o p c).take n).foldl (fun s i => releaseSlot s k i) s
  | .filter f v => setFilter s k f v
  | .rxPort p v => setCore s k (writeRxPort o p (v.extractLsb' 0 32))
  | .depth g e => writeDepth s k g e
  | .arm q =>
    let f := s.fab
    { s with nextId := s.nextId + 1, fab := { f with arm := some (some { q with id := s.nextId, core := k, cx := ctxAddr x }) } }
  | .yield_ => setCtx s k c { x with yielded := true }
  | .end_ => setCtx s k c { x with ended := true }

/-- An effect that waits for the round boundary: a write to the registers of R54. It follows every hardware update of the round, so
it wins over one of the same field (R54, R78; 00_scope, R12). -/
def applyLate (k : Nat) (s : State) (e : Effect) : State :=
  match e with
  | .store ps =>
    match ps.filter (fun p => ruleRegister p.1) with
    | [] => s
    | rs => writeRegBytes s k rs
  | .nibble off high v => if ruleRegister off then storeNibble s k none off high v else s
  | _ => s
/-- What completes with a commit, after it: a PFETCH that fetches nothing (R71; 05_core_memory, R173). -/
def completeAfter (k c : Nat) (s : State) (e : Effect) : State :=
  match e with
  | .cmd ⟨_, _, _, some n, .pfetch _ 0, _⟩ =>
    let x := ctxOf s k c
    setCtx s k c { x with tb := x.tb ||| (1#64 <<< n) }
  | _ => s
/-- Elements that a body writes through a stream before a new binding or an UNBIND of it. -/
def elementsUntil (q : Nat) : List Effect → Nat
  | [] => 0
  | .elem p _ :: r => (if p == q then 1 else 0) + elementsUntil q r
  | .stream p _ :: r => if p == q then 0 else elementsUntil q r
  | .strctl p 0 :: r => if p == q then 0 else elementsUntil q r
  | _ :: r => elementsUntil q r
/-- The effects of a body with every DRAIN told how many elements the body writes after it (05_core_memory, R165). -/
def countDrains : List Effect → List Effect
  | [] => []
  | .drain q tag _ :: r => .drain q tag (elementsUntil q r) :: countDrains r
  | e :: r => e :: countDrains r

/-! ## Registers, pops and streams (R68) -/

/-- The registers that a body wrote. -/
def commitRegisters (x : Ctx) (w : Work) : Ctx :=
  let pick := fun {α : Type} {n : Nat} (old new : Vector α n) (d : α) (m : Nat → Bool) =>
    (List.range n).foldl (fun v i => if m i then vset v i (vget new i d) else v) old
  { x with
    s := pick x.s w.s 0 (bitAt w.sD), v := pick x.v w.v 0 (bitAt w.vD), tm := pick x.tm w.tm 0 (bitAt w.tmD)
    lm := if w.lmD then w.lm else x.lm, bb := if w.bbD then w.bb else x.bb, bw := if w.bwD then w.bw else x.bw }
/-- The credit of a popped token returned to the binding that sent it, on CTL (R57). -/
def returnCredit (s : State) (k : Nat) (t : Token) : State :=
  match t.src with
  | some b =>
    match boundAt s k (b.cx / 1024) (b.cx / 4 % 256) with
    | some (dst, _) => sendFlit s 3 k dst (.credit b.cx b.port)
    | none => s
  | none => s
/-- A record popped from a handler's rp frees its place; any other token there frees its reply credit (R155; 08_cluster,
R253). -/
def returnReply (s : State) (k c : Nat) (t : Token) : State :=
  match chainPosition s k c with
  | some n =>
    if bits t.sb 18 13 == 63 then
      let cl := clusterOf s (clusterKey k)
      setCluster s (clusterKey k) { cl with recUsed := vset cl.recUsed n (vget cl.recUsed n 0 - 1) }
    else
      let x := ctxOf s k c
      setCtx s k c { x with replies := x.replies - 1 }
  | none =>
    let x := ctxOf s k c
    setCtx s k c { x with replies := x.replies - 1 }
/-- The tokens that a body popped from an input port leave its queue. -/
def commitPops (s : State) (k c p n : Nat) : State :=
  let x := ctxOf s k c
  let l := vget x.inq p []
  let s := setCtx s k c { x with inq := vset x.inq p (l.drop n) }
  let s := (l.take n).foldl (fun s t => if p == 4 then returnReply s k c t else returnCredit s k t) s
  if p == 4 && n != 0 && !(coreOf s k).bq.isEmpty then schedule s s.now .basinGrant (evArgs (basinOf s k) 0 0) else s
/-- The blocks that a body popped from an optical port are marked popped, and released under AREL (11_package_cascade, R305,
R306). -/
def commitBlocks (s : State) (k c p n : Nat) : State :=
  let x := ctxOf s k c
  let l := vget x.blocks p []
  let s := setCtx s k c { x with blocks := vset x.blocks p (l.drop n) }
  (l.take n).foldl (fun s i =>
    let o := coreOf s k
    let r := { vget o.rx i RxSlot.reset with st := .popped, cx := c, order := s.nextId }
    let s := setCore { s with nextId := s.nextId + 1 } k { o with rx := vset o.rx i r }
    if bitAt (vget o.cgp p 0) 30 then releaseSlot s k i else s) s
/-- The stream elements that a body read leave their stream. -/
def commitStream (s : State) (k c q n : Nat) : State :=
  if n == 0 then s
  else
    let st := streamOf s k c q
    wakeStream (setStream s k c q { st with fetched := st.fetched.drop n }) k c q

/-! ## Rules of a round (R74 to R77) -/

/-- A retry mark set or cleared. -/
def setRetry (s : State) (k c i : Nat) (on : Bool) : State :=
  let x := ctxOf s k c
  setCtx s k c { x with rm := putBits x.rm i i (ofBool on) }
/-- The commit of one rule: registers, effects in body order, pops and stream advances; a clean retry counts a corrected error
(R68, R76; 07_core_failures, R208). -/
def commitRule (k c : Nat) (s : State) (w : Work) : State :=
  let retry := bitAt (ctxOf s k c).rm w.rule
  let s := setCtx s k c (commitRegisters (ctxOf s k c) w)
  let before := coreOf s k
  let pins := fun (o : Core) (e : Effect) =>
    match e with | .basin ⟨_, _, _, .mma _ _ _ _ _ _ _ _ _ _ ta tb, _, _⟩ => pinTile (pinTile o ta) tb | _ => o
  let s := setCore s k (w.effects.foldl pins before)
  let s := (List.range 2).foldl (fun s p => commitBlocks s k c p (vget w.pops (5 + p) 0)) s
  let s := (countDrains w.effects).foldl (applyEffect k c) s
  let s := (List.range 5).foldl (fun s p => commitPops s k c p (vget w.pops p 0)) s
  let s := (List.range 4).foldl (fun s q =>
    if (vget (vget before.ctx c Ctx.reset).q q Stream.reset).bound then commitStream s k c q (vget w.adv q 0) else s) s
  let s := countCtx s k c 5 1
  let s := w.raised.foldl (fun s f =>
    (List.range 5).foldl (fun s i => if bitAt f (4 - i) then countCtx s k c i 1 else s) s) s
  if retry then bucketUp (countCtx (setRetry s k c w.rule false) k c 8 1) k else s
/-- The traps that a rule's commit raises: its software trap (07_core_failures, R226). -/
def softTraps (w : Work) : List Cause :=
  w.effects.filterMap (fun e => match e with
    | .softTrap n word => some { code := cExplicit, kind := 1, rule := w.rule, word := word, opcode := 0xB0, unit := 0,
                                 lane := 0, exp := 0, obs := 0, info := BitVec.ofNat 64 n }
    | _ => none)
/-- The cause of an abort's trap or machine check (R220). -/
def abortCause (w : Work) (a : Abort) (kind : Nat) : Cause :=
  { code := a.code, kind := kind, rule := w.rule, word := w.pc, opcode := w.opc, unit := a.unit, lane := a.lane, exp := a.exp,
    obs := a.obs, info := a.info }
/-- The abort of one rule: its record, its counters, and the outcome of its code, with the trap or machine check that it
raises (R74 to R76). -/
def abortRule (s : State) (k c : Nat) (w : Work) (a : Abort) : State × List Cause :=
  let x := ctxOf s k c
  let old := vget x.rabort w.rule 0
  let rec_ := BitVec.ofNat 24 (a.code.toNat * 65536 + min (bits old 15 0 + 1) 0xFFFF)
  let retry := bitAt x.rm w.rule
  let s := setCtx s k c { x with rabort := vset x.rabort w.rule rec_ }
  let s := countCtx (setRetry s k c w.rule false) k c 6 1
  if a.code == cExplicit then
    match bits w.hdrB 39 38 with
    | 1 =>
      let x := ctxOf s k c
      (setCtx s k c { x with en := putBits x.en w.rule w.rule 0 }, [])
    | 2 => (s, [abortCause w a 0])
    | _ => (s, [])
  else if a.code == cResidue then
    let s := countCtx s k c 7 1
    if retry then (s, [abortCause w a 2]) else (setRetry s k c w.rule true, [])
  else if a.code == cEccUe then (consumeError s x.region cEccUe, [])
  else if a.code == cQueueFull then (s, [])
  else (s, [abortCause w a 0])
/-- One rule of the round ended: committed, or aborted after the commit of the others (R71, R74). -/
def finishAbort (k c : Nat) (acc : State × List Cause) (f : Finished) : State × List Cause :=
  match f.abort with
  | some a =>
    let (s, l) := abortRule acc.1 k c f.work a
    (s, acc.2 ++ l)
  | none => (acc.1, acc.2 ++ softTraps f.work)
/-- The fairness pointer after a round (R72). -/
def movePointer (x : Ctx) (fs : List Finished) : Ctx :=
  let dist := fun (i : Nat) => (i + 64 - x.fp.toNat) % 64
  let ran := (fs.filter (fun f => match f.abort with | some a => a.code != cResidue | none => true)).map (fun f => f.work.rule)
  match ran with
  | [] => x
  | i :: r =>
    let f := r.foldl (fun b j => if dist j < dist b then j else b) i
    { x with fp := BitVec.ofNat 6 (f + 1), lastf := BitVec.ofNat 6 f }
/-- The traps and machine checks of a round raised under FM as at its cycle 0, in rule-index order, those of no rule last: the first is
the context's trap, marked MULT when there are more; every one counts, and any machine check sets SUSPECT (07_core_failures, R208,
R219; log entry 98). -/
def raiseTraps (s : State) (k c : Nat) (fm : Bool) (l : List Cause) : State :=
  match l with
  | [] => s
  | t :: r =>
    let s := countCtx (raiseTrap s k c fm t (!r.isEmpty)) k c 11 r.length
    if t.kind != 2 && r.any (fun u => u.kind == 2) then suspectOf s k else s
/-- The checks of a context's stream engines taken for raising (R206). -/
def takeChecks (s : State) (k c : Nat) : State × List Cause :=
  let x := ctxOf s k c
  (setCtx s k c { x with checks := [] }, x.checks.map (fun e => engineCause e.1 e.2.1 e.2.2))
/-- The cause of a disagreement of the duplicated selector or commit: unit 7, INFO bit 8 (R206, R220). -/
def selectorCause : Cause :=
  { code := cResidue, kind := 2, rule := 0, word := 0, opcode := 0, unit := 7, lane := 0, exp := 0, obs := 0, info := 0x100 }
/-- The counters that the round's rules clear; an event of the commit cycle is kept (R230). -/
def clearCounters (k c : Nat) (s : State) (w : Work) : State :=
  w.effects.foldl (fun s e => match e with | .clearCount n => clearCounter s k c n | _ => s) s
/-- The basin commands of a core whose commit is over: what is stored from now on their tile reads may find or not (06_core_basin, R185). -/
def openTiles (s : State) (k : Nat) : State :=
  let o := coreOf s k
  setCore s k { o with bq := o.bq.map (fun b => { b with open_ := true }) }
/-- The commit of a round whose selector and commit agree: the rules that ended cleanly in index order, then the aborts, the pointer, the
completions that fall into the cycle, and the traps; what may leave the context leaves. -/
def commitBodies (s : State) (k c : Nat) (fs : List Finished) : State :=
  let done := (fs.filter (fun f => f.abort.isNone)).map (fun f => f.work)
  let fm := (ctxOf s k c).fm
  let s := done.foldl (clearCounters k c) s
  let s := done.foldl (commitRule k c) s
  let (s, traps) := fs.foldl (finishAbort k c) (s, [])
  let x := { movePointer (ctxOf s k c) fs with fired := true }
  let s := setCtx s k c x
  let s := done.foldl (fun s w => w.effects.foldl (completeAfter k c) s) s
  let s := (List.range 4).foldl (fun s q => settleDrains s k c q) s
  let (s, checks) := takeChecks s k c
  let s := raiseTraps s k c fm (traps ++ checks)
  let s := drain (openTiles s k) k c false
  if (ctxOf s k c).outbound.any (fun o => match o with | .arrive _ _ => true | _ => false) then
    schedule s s.now .barrierArrivalLeave (evArgs k c 0)
  else s
/-- The end of a round that an upset of the selector or the commit has struck: every staged effect is discarded, no rule is retried, no
retry mark is set, and the context takes a machine check at once (07_core_failures, R206; log entry 98). -/
def discardRound (s : State) (k c : Nat) : State :=
  let fm := (ctxOf s k c).fm
  let o := coreOf s k
  let s := setCore s k { o with selUpset := false }
  let s := setCtx s k c { ctxOf s k c with fired := true }
  let (s, checks) := takeChecks s k c
  raiseTraps s k c fm (selectorCause :: checks)
/-- The commit of a round: the injector's count and the corrected reads stand; the bodies commit, unless the duplicated commit
disagrees. -/
def commitRound (s : State) : State :=
  let k := s.stage.core
  let c := s.stage.cx.val
  let fs := s.stage.finished
  let inj := match fs.getLast? with | some f => f.work.inj | none => (coreOf s k).inj
  let s := setCore { s with stage := Stage.reset } k { coreOf s k with inj := inj }
  let s := countCore s k 32 ((fs.map (fun f => f.work.corr)).sum)
  if (coreOf s k).selUpset then discardRound s k c else commitBodies s k c fs
/-- The writes of a round that its boundary takes: none of a round that was discarded (R54, R78). -/
def lateWrites (s : State) : State → State :=
  let fs := s.stage.finished
  let done := if (coreOf s s.stage.core).selUpset then [] else (fs.filter (fun f => f.abort.isNone)).map (fun f => f.work)
  fun t => done.foldl (fun t w => w.effects.foldl (applyLate s.stage.core) t) t

end Sys2Proof.Machine
end

