-- ==== Sys2Proof/Machine/SaveArea.lean ====
section
/-! DEFINITION. The save area of a context slot: its layout, writing it, reading a context back from it, and the inbound ring that a
core fills while the context is evicted (07_core_failures, R214 to R218; 12_package_launch, R340). -/
namespace Sys2Proof.Machine

/-- Bytes cut or filled with zeros to a length. -/
def padTo (n : Nat) (bs : List Byte) : List Byte := bs.take n ++ List.replicate (n - bs.length) 0
/-- A token record (R218). -/
def tokenRecord (port pos : Nat) (t : Token) : List Byte :=
  let pay := if bitAt t.sb 39 then t.pay.toNat else t.pay.toNat % 2 ^ 64
  leBytes 8 (t.sb.toNat + (16 + port) * 2 ^ 40 + pos * 2 ^ 45) ++ leBytes 64 pay
/-- The 32 bytes of a stream in a save area. -/
def streamBytes (st : Stream) : List Byte :=
  leBytes 4 (streamWord st).toNat ++ leBytes 4 st.block ++ st.idx.toList.flatMap (leBytes 4) ++ List.replicate 8 0
/-- A record's bytes (R220). -/
def recordBytes (r : Record) : List Byte := leBytes 8 r.w0.toNat ++ leBytes 8 r.w1.toNat ++ leBytes 8 r.w2.toNat ++ leBytes 8 r.w3.toNat
/-- A slot type and its poison bit as a byte. -/
def slotByte (a : AccSlot) : Byte :=
  BitVec.ofNat 8 ((match a.ty with | .fp32 => 0 | .int32 => 1 | .fp64 => 2 | .none => 3) + 4 * ofBool a.poison)
/-- The accumulator slots that a context maps, a0 to a3 (03_core_numbers, R93). -/
def mappedSlots (c : Core) (x : Ctx) : List AccSlot :=
  (List.range 4).map (fun i =>
    if bitAt x.amap (4 * i + 3) then vget c.acc (bits x.amap (4 * i + 2) (4 * i)) AccSlot.reset else AccSlot.reset)
/-- The bytes of a context's save area (R217, R218). -/
def areaBytes (c : Core) (slot : Nat) (x : Ctx) (seed : Nat) : List Byte :=
  let w := fun (n v : Nat) => leBytes n v
  let misc := x.lm.toNat + x.bw.toNat * 2 ^ 16 + ofBool x.yielded * 2 ^ 48 + ofBool x.ended * 2 ^ 49 + ofBool x.trap.isSome * 2 ^ 50
  let qr := if c.act.toNat == slot then c.qr else 0
  let sel := x.fp.toNat + x.lastf.toNat * 64 + ofBool x.fired * 2 ^ 12 + qr * 2 ^ 13 + x.replies * 2 ^ 26
  let acc := mappedSlots c x
  let basin := x.chains.toList.flatMap (fun v => w 32 v.toNat) ++ [BitVec.ofNat 8 (ofBool x.abftEn + 2 * ofBool x.abftCorr)] ++
    acc.map slotByte ++ List.replicate 3 0 ++ x.bcnt.toList.flatMap (fun v => w 4 v.toNat)
  let queued := (c.bq.filter (fun b => b.cx == slot)).zipIdx.flatMap (fun b => (List.range 32).map (Config.commandBytes (seed + b.2)))
  let toks := (List.range 5).flatMap (fun p => (vget x.inq p []).zipIdx.map (fun t => tokenRecord p t.2 t.1))
  let ring := x.ring.map (fun t => tokenRecord t.1 0 t.2)
  x.s.toList.flatMap (fun v => w 8 v.toNat) ++ x.v.toList.flatMap (fun v => w 64 v.toNat) ++
    w 8 (statusWord x x.flags).toNat ++ w 8 x.tb.toNat ++ x.tm.toList.flatMap (fun v => w 8 v.toNat) ++ w 8 misc ++
    w 8 x.bb.toNat ++ w 8 x.rounds.toNat ++ w 8 x.en.toNat ++ w 8 x.rm.toNat ++ w 8 sel ++
    x.rabort.toList.flatMap (fun v => w 4 v.toNat) ++ x.q.toList.flatMap streamBytes ++
    padTo 0x80 ((x.trap.map recordBytes).getD []) ++ (List.range 64).flatMap (fun i => w 8 (tableWord c slot (0x600 + 8 * i)).toNat) ++
    padTo 512 basin ++ padTo 0x500 queued ++ acc.flatMap (fun a => a.rows.toList.flatMap (fun v => w 64 v.toNat)) ++
    padTo 40960 (w 8 toks.length ++ toks.flatten) ++ padTo 16384 (padTo 64 (w 4 (ring.length * 65536)) ++ ring.flatten)
/-- A context's state written to device memory, where its address register holds an address of space 10. -/
def writeArea (s : State) (k slot : Nat) (at_ : W64) : State :=
  if bits at_ 63 62 != 2 then s
  else
    let (f, s) := takeFresh s
    physHomeWrite s at_ (areaBytes (coreOf s k) slot (ctxOf s k slot) f) false

/-! ## Reading an area back -/

/-- n bytes of an area, as a number: the core reads it at home through its memory port (R216). -/
def areaNat (s : State) (at_ : W64) (off n : Nat) : Nat := leNat (homeRead s (at_ + BitVec.ofNat 64 off) n)
/-- A token record of an area with its port; its binding, which a record does not hold, is that of the token that stood there (R218). -/
def areaToken (s : State) (at_ : W64) (off : Nat) (was : Nat → Nat → Option Token) : Nat × Nat × Token :=
  let w := areaNat s at_ off 8
  let port := w / 2 ^ 40 % 32 - 16
  let pos := w / 2 ^ 45 % 64
  (port, pos, { sb := BitVec.ofNat 40 w, pay := BitVec.ofNat 512 (areaNat s at_ (off + 8) 64),
                src := (was port pos).bind (fun t => t.src) })
/-- The scanned-out tokens of an area, each at the tail of its port's queue (R215, R218). -/
def areaQueues (s : State) (at_ : W64) (x : Ctx) : Vector (List Token) 5 :=
  let n := min (areaNat s at_ 0x2000 8) 568
  (List.range n).foldl (fun v i =>
    let (p, _, t) := areaToken s at_ (0x2008 + 72 * i) (fun p j => (vget x.inq p [])[j]?)
    vset v p (vget v p [] ++ [t])) (Vector.replicate 5 [])
/-- The records of an area's inbound ring from the read to the write index, in arrival order (R217, R218). -/
def areaRing (s : State) (at_ : W64) (x : Ctx) : List (Nat × Token) :=
  let rd := areaNat s at_ 0xC000 2 % 226
  let wr := areaNat s at_ 0xC002 2 % 226
  (List.range ((wr + 226 - rd) % 226)).map (fun i =>
    let (p, _, t) := areaToken s at_ (0xC040 + 72 * ((rd + i) % 226)) (fun _ _ => (x.ring[i]?).map (fun e => e.2))
    (p, t))
/-- A stream as an area keeps it: its QSTAT word, block and indices; the nest and the elements under way are the core's. -/
def areaStream (s : State) (at_ : W64) (off : Nat) (st : Stream) : Stream :=
  let w := areaNat s at_ off 4
  let idx := fun (i : Nat) => areaNat s at_ (off + 8 + 4 * i) 4
  { st with bound := w.testBit 31, dir := w.testBit 30, done := w.testBit 29, fmt := BitVec.ofNat 3 (w / 2 ^ 26),
            esz := BitVec.ofNat 2 (w / 2 ^ 24), block := areaNat s at_ (off + 4) 4, idx := #v[idx 0, idx 1, idx 2, idx 3] }
/-- A context read back from its area; what R217 gives no place there is as it was when the context left. Where the address register
holds no address of space 10, no area was written, and the context is as it was (R216, R217). -/
def areaCtx (s : State) (at_ : W64) (x : Ctx) : Ctx :=
  if bits at_ 63 62 != 2 then x
  else
    let rd := areaNat s at_
    let w64 := fun (off : Nat) => BitVec.ofNat 64 (rd off 8)
    let st := rd 0x480 8
    let misc := rd 0x4D0 8
    let sel := rd 0x4F8 8
    let rec_ : Record := { w0 := w64 0x680, w1 := w64 0x688, w2 := w64 0x690, w3 := w64 0x698 }
    { x with
      s := Vector.ofFn (fun i => w64 (8 * i.val))
      v := Vector.ofFn (fun i => BitVec.ofNat 512 (rd (0x80 + 64 * i.val) 64))
      fm := st.testBit 0, rnd := BitVec.ofNat 2 (st / 2), flags := BitVec.ofNat 5 (st / 16)
      tb := w64 0x488, tm := Vector.ofFn (fun i => w64 (0x490 + 8 * i.val))
      lm := BitVec.ofNat 16 misc, bw := BitVec.ofNat 32 (misc / 2 ^ 16), yielded := misc.testBit 48, ended := misc.testBit 49
      trap := if misc.testBit 50 then some rec_ else none
      bb := w64 0x4D8, rounds := w64 0x4E0, en := w64 0x4E8, rm := w64 0x4F0
      fp := BitVec.ofNat 6 sel, lastf := BitVec.ofNat 6 (sel / 64), fired := sel.testBit 12, replies := sel / 2 ^ 26 % 32
      rabort := Vector.ofFn (fun i => BitVec.ofNat 24 (rd (0x500 + 4 * i.val) 4))
      q := Vector.ofFn (fun i => areaStream s at_ (0x600 + 32 * i.val) (vget x.q i.val Stream.reset))
      chains := Vector.ofFn (fun i => BitVec.ofNat 256 (rd (0x900 + 32 * i.val) 32))
      abftEn := (rd 0xAE0 1).testBit 0, abftCorr := (rd 0xAE0 1).testBit 1
      bcnt := Vector.ofFn (fun i => BitVec.ofNat 32 (rd (0xAE8 + 4 * i.val) 4))
      inq := areaQueues s at_ x
      ring := areaRing s at_ x }
/-- QR of a context in its area (R217). -/
def areaQr (s : State) (at_ : W64) : Nat := areaNat s at_ 0x4F8 8 / 2 ^ 13 % 2 ^ 13
/-- A type code of an area's slot byte. -/
def slotType (n : Nat) : SlotType := match n % 4 with | 0 => .fp32 | 1 => .int32 | 2 => .fp64 | _ => .none
/-- The mapped accumulator slots of a context read back into its core, with their types and poison bits (R217; 03_core_numbers,
R93). -/
def areaSlots (s : State) (at_ : W64) (x : Ctx) (acc : Vector AccSlot 8) : Vector AccSlot 8 :=
  (List.range 4).foldl (fun acc i =>
    if bitAt x.amap (4 * i + 3) then
      let n := bits x.amap (4 * i + 2) (4 * i)
      let b := areaNat s at_ (0xAE1 + i) 1
      let a := vget acc n AccSlot.reset
      vset acc n { a with
        rows := Vector.ofFn (fun r => BitVec.ofNat 512 (areaNat s at_ (0x1000 + 1024 * i + 64 * r.val) 64))
        ty := slotType b, poison := b.testBit 2 }
    else acc) acc
/-- A core with the contexts of some slots read back from their areas: registers, queues and rings, literals, accumulators, and QR of
the active one (R216, R217). The areas' addresses are given by slot. -/
def areaCore (s : State) (at_ : Nat → W64) (slots : List Nat) (c : Core) : Core :=
  slots.foldl (fun c i =>
    if bits (at_ i) 63 62 != 2 then c
    else
      let x := vget c.ctx i Ctx.reset
      { c with
        ctx := vset c.ctx i (areaCtx s (at_ i) x)
        acc := areaSlots s (at_ i) x c.acc
        active := memStore c.active (placed (0x4000 + 0x800 * i + 0x600) (homeRead s (at_ i + 0x700) 512))
        qr := if c.act.toNat == i then areaQr s (at_ i) else c.qr }) c

/-! ## The inbound ring of an evicted context (R214, R217) -/

/-- The save area of an evicted context: that of its slot on the core that it left. -/
def savedArea (s : State) (addr : Nat) : W64 :=
  let one := fun (c : SavedCore) =>
    (c.ctxs.find? (fun p => ctxAddr p.2 == addr)).map (fun p => vget c.state.save p.1 0)
  (s.region.findSome? (fun r => r.2.saved.findSome? one)).getD 0
/-- A token put into an area's ring in memory: its record at the write index, which moves on (R217, R218). -/
def ringWrite (s : State) (at_ : W64) (port : Nat) (t : Token) : State :=
  if bits at_ 63 62 != 2 then s
  else
    let wr := areaNat s at_ 0xC002 2 % 226
    let s := physHomeWrite s (at_ + BitVec.ofNat 64 (0xC040 + 72 * wr)) (tokenRecord port 0 t) false
    physHomeWrite s (at_ + 0xC002) (leBytes 2 ((wr + 1) % 226)) false

end Sys2Proof.Machine
end

