-- ==== Sys2Proof/Machine/Arrivals.lean ====
section
/-! DEFINITION. What reaches a core: tokens, credits, replies, failures and resume messages, tokens held and spilled for evicted
contexts, and the memory port's service (05_core_memory, R156 to R161, R172; 07_core_failures, R213 to R215, R227). -/
namespace Sys2Proof.Machine

/-! ## Messages -/

/-- The mesh class of a message: 0 REQ, 1 RSP, 2 RED, 3 CTL (08_cluster, R234); what goes to a hub keeps an order of its own. -/
def msgClass (p : Payload) : Nat :=
  match p with
  | .token _ _ _ => 0
  | .request _ => 0
  | .pairHalf _ _ _ _ => 0
  | .reply _ _ _ => 1
  | .failed _ _ _ _ _ _ _ _ => 1
  | .barArrive _ _ _ _ => 2
  | .partials _ _ _ _ _ _ _ => 2
  | .still _ _ _ _ => 2
  | .vote _ _ _ _ _ => 4
  | .memberAck _ _ _ _ => 5
  | .branchAck _ _ _ => 6
  | .wake _ _ => 7
  | _ => 3
/-- The physical core to which a request's target has moved from core k, if it has (R241). -/
def movedTo (s : State) (k : Nat) (r : Request) : Option Nat :=
  if bits r.addr 63 62 != 0 then none
  else match placeOf s (bits r.addr 60 52) (bits r.addr 51 44) with
    | some (j, _) => if j == k then none else some j
    | none => none
/-- The core to which a message at core k is to be sent on, because the logical core that it is for has moved (08_cluster, R241). -/
def sendsOn (s : State) (k : Nat) (p : Payload) : Option Nat :=
  let to_ := fun (addr : Nat) => (coreOfAddr s addr).filter (fun j => j != k)
  match p with
  | .token addr _ _ => to_ addr
  | .reply addr id _ => if (coreOf s k).splits.any (fun p => p.id == id) then none else to_ addr
  | .failed addr id _ _ _ _ _ _ => if (coreOf s k).splits.any (fun p => p.id == id) then none else to_ addr
  | .tret addr _ _ => to_ addr
  | .request r => movedTo s k r
  | _ => none
/-- Whether messages of a class that a core sent under an old binding are still to come on to a core from where they were delivered:
it accepts none under the new binding before them (08_cluster, R241, R272). -/
def lagging (s : State) (src dst cls : Nat) : Bool :=
  s.flits.any (fun f => f.orig == src && f.src != f.orig && f.dst == dst && f.cls == cls) ||
    s.msgs.any (fun n => n.src == src && n.dst != dst && msgClass n.body == cls && sendsOn s n.dst n.body == some dst)
/-- The messages of a class between two cores, those sent on from an old place first. -/
def msgsBetween (s : State) (src dst cls : Nat) : List Msg :=
  let l := s.msgs.filter (fun n => n.src == src && n.dst == dst && msgClass n.body == cls)
  l.filter (fun n => n.moved) ++ l.filter (fun n => !n.moved)
/-- Whether a message is the next of its class between its two ends: messages of a pair keep their order, across a change of the core
map too (08_cluster, R235, R241). -/
def inOrder (s : State) (m : Msg) : Bool :=
  match msgsBetween s m.src m.dst (msgClass m.body) with
  | n :: _ => n.id == m.id && (m.moved || !lagging s m.src m.dst (msgClass m.body))
  | [] => false
/-- The message of a number, when it may be taken. -/
def msgOf (s : State) (id : Nat) : Option Msg := (s.msgs.find? (fun m => m.id == id)).filter (inOrder s)
/-- The state without a message. -/
def dropMsg (s : State) (id : Nat) : State := { s with msgs := s.msgs.filter (fun m => m.id != id) }
/-- A step put off: what it waits for has not happened. -/
def again (s : State) (op : Instr) : State := schedule s (s.now + 1) op s.ev
/-- A message that cannot be taken yet keeps its step. -/
def waitMsg (s : State) (op : Instr) : State := if s.msgs.any (fun m => m.id == s.ev.x) then again s op else s
/-- A core's RCVD increased (12_package_launch, R333). -/
def countReceived (s : State) (k : Nat) : State :=
  let c := coreOf s k
  setCore s k { c with rcvd := c.rcvd + 1 }

/-! ## Merged atomics (08_cluster, R242) -/

/-- The router that keeps the split record of a merged atomic, with the record. -/
def splitOf (s : State) (id : Nat) : Option (Nat × Split) :=
  s.core.findSome? (fun e => (e.2.splits.find? (fun p => p.id == id)).map (fun p => (e.1, p)))
/-- The state without a split record. -/
def dropSplit (s : State) (id : Nat) : State :=
  { s with core := s.core.map (fun e => (e.1, { e.2 with splits := e.2.splits.filter (fun p => p.id != id) })) }
/-- The requests that a request stands for: itself, or the atomics merged into it, through n merges at most. -/
def leaves (s : State) (r : Request) : Nat → List Request
  | 0 => [r]
  | n + 1 =>
    match splitOf s r.id with
    | none => [r]
    | some (_, p) => leaves s p.first n ++ leaves s p.second n
/-- The merges that any request may have passed: at most one for each split record that a router keeps. -/
def mergeDepth (s : State) : Nat := (s.core.map (fun e => e.2.splits.length)).sum + 1
/-- The state without the split records of a request, through n merges at most. -/
def dropSplits (s : State) (r : Request) : Nat → State
  | 0 => s
  | n + 1 =>
    match splitOf s r.id with
    | none => s
    | some (_, p) => dropSplits (dropSplits (dropSplit s r.id) p.first n) p.second n
/-- The old value of an atomic, which core k sends on: to the router that merged it, else as the reply of its issuer; a router drops the
record of one that no one awaits. -/
def answerAmo (s : State) (k : Nat) (r : Request) (old : Nat) : State :=
  let v := BitVec.ofNat 512 old
  match splitOf s r.id with
  | some (q, _) =>
    if r.rpy then sendFlit s 1 k q (.reply r.cx r.id (replyToken r.cx r.rt r.fm false false 0 v)) else dropSplits s r (mergeDepth s)
  | none => replyTo s (some k) r v
/-- A failed atomic, which core k sends back: to the router that merged it, else to its issuer (05_core_memory, R158). -/
def failAmo (s : State) (k : Nat) (r : Request) (code : BitVec 8) : State :=
  match splitOf s r.id with
  | some (q, _) => sendFlit s 1 k q (.failed r.cx r.id r.rpy code r.rt r.fm false r.org)
  | none => failRequest s (some k) r code
/-- The one old value that has returned to the router of a split record: the earlier port's atomic receives it, the later port's that of
the earlier applied. -/
def splitReply (s : State) (k : Nat) (p : Split) (old : Nat) : State :=
  let s := answerAmo (dropSplit s p.id) k p.first old
  match p.first.kind with
  | .amo op size x _ => answerAmo s k p.second (amoResult op size old x.toNat 0).1
  | _ => s
/-- A failure that has returned to the router of a split record: both atomics have failed. -/
def splitFail (s : State) (k : Nat) (p : Split) (code : BitVec 8) : State :=
  failAmo (failAmo (dropSplit s p.id) k p.first code) k p.second code
/-- The end of an atomic that the memory port of core k has performed: it is performed for every one merged into it, and the old value
goes back (05_core_memory, R160). -/
def finishAmo (s : State) (k : Nat) (r : Request) (old : Nat) : State :=
  answerAmo ((leaves s r (mergeDepth s)).foldl (fun s q => writeDone s q.cx q.id) s) k r old

/-! ## Tokens and replies (02_rule, R58; 07_core_failures, R213 to R215) -/

/-- A token at the tail of an input queue of a context. -/
def enqueue (s : State) (k c port : Nat) (t : Token) : State :=
  let x := ctxOf s k c
  setCtx s k c { x with inq := vset x.inq port (vget x.inq port [] ++ [t]) }
/-- A token that enters copy A of a duplicate placement from outside is copied to the same place in copy B; the copy
holds no credit (12_package_launch, R343). -/
def copyToTwin (s : State) (addr port : Nat) (t : Token) (from_ : Option Nat) : State :=
  match twinOf s addr with
  | none => s
  | some b =>
    let inside := match from_ with | some a => (twinOf s a).isSome | none => false
    match findCtx s b with
    | some (k, c) => if inside then s else enqueue s k c port { t with src := none }
    | none => s
/-- A reply, or the end of a failed request that expects one, that ends an access which left both copies of a duplicate placement as one
is copied to the same place in copy B; the replies within copy A are its own (12_package_launch, R343). -/
def replyToTwin (s : State) (addr id : Nat) (t : Token) : State :=
  match (twinAwaits s addr id).bind (findCtx s) with
  | some (k, c) => enqueue s k c 4 { t with src := none }
  | none => s
/-- The holding register of an input port and class (R214). -/
def holdKey (port cls : Nat) : Nat := 4 * port + cls
/-- Whether the input channel of a port and class accepts a token: it accepts none while its holding register is full (R214). -/
def channelOpen (s : State) (k port cls : Nat) : Bool := !(coreOf s k).hold.any (fun h => h.1 == holdKey port cls)
/-- A token for an evicted context held in its port's register, which is free (R214). -/
def holdToken (s : State) (k addr port cls : Nat) (t : Token) : State :=
  let c := coreOf s k
  let now := clusterCycles s (clusterKey k)
  let s := setCore s k { c with hold := tput c.hold (holdKey port cls) { addr := addr, tok := t, since := now, from_ := now } }
  schedule s (s.now + ticksOf s k 4096) .tokenSpill (evArgs k port 0)
/-- TOKEN_ARRIVAL: a port token is placed in its context's queue, held for an evicted one, or forwarded to where its logical core
has moved (R58, R214; 08_cluster, R241). Operand: message. -/
def execTokenArrival (s : State) : Outcome :=
  match msgOf s s.ev.x with
  | some ⟨id, src, k, .token addr port t, _⟩ =>
    let t0 := dropMsg s id
    let from_ := t.src.map (fun b => b.cx)
    let told := fun (s : State) => match t.src with | some b => tokenDone s b.cx b.port k | none => s
    match slotOf s k addr with
    | some c =>
      if channelOpen s k port 0 then .next (copyToTwin (enqueue (told (countReceived t0 k)) k c port t) addr port t from_)
      else .next (again s .tokenArrival)
    | none =>
      match coreOfAddr s addr with
      | some j =>
        if j != k then .next (forwardFlit t0 0 k j src (.token addr port t))
        else if channelOpen s k port 0 then .next (holdToken (told (countReceived t0 k)) k addr port 0 t)
        else .next (again s .tokenArrival)
      | none => .next (again s .tokenArrival)
  | _ => .next (waitMsg s .tokenArrival)
/-- The cycles of a core's clock since a count of them (00_scope, R10). -/
def cyclesSince (s : State) (k t : Nat) : Nat := clusterCycles s (clusterKey k) - t
/-- The register of an input port that holds a token, with its class: REQ, or RSP on rp. -/
def heldToken (c : Core) (port : Nat) : Option (Nat × Held) :=
  (c.hold.find? (fun h => h.1 / 4 == port))
/-- A saved context that has taken a spilled token into its inbound ring, in its save area's memory too; none when the ring of 226
entries is full (R217, R218). -/
def spill (s : State) (addr port : Nat) (t : Token) : Option State :=
  let full := s.region.any (fun r => r.2.saved.any (fun c => c.ctxs.any (fun p => ctxAddr p.2 == addr && 225 ≤ p.2.ring.length)))
  if full then none
  else some (modCtx (ringWrite s (savedArea s addr) port t) addr (fun x =>
    { x with ring := x.ring ++ [(port, t)], cnt := vset x.cnt 12 (satAdd (vget x.cnt 12 0) 1) }))
/-- A held token or reply sent on to where its logical core has moved (08_cluster, R241). -/
def followHeld (s : State) (k addr port cls : Nat) (t : Token) : State :=
  match coreOfAddr s addr with
  | none => s
  | some j =>
    let orig := match t.src with | some b => b.core | none => k
    if cls == 0 then
      let c := coreOf s k
      forwardFlit (setCore s k { c with sent := c.sent + 1 }) 0 k j orig (.token addr port t)
    else forwardFlit { s with nextId := s.nextId + 1 } 1 k j orig (.reply addr s.nextId t)
/-- TOKEN_SPILL: a token held for 4,096 cycles enters the inbound ring of its context's save area; with the ring full one resume
request goes to the scheduler and the token waits; a context that is back takes it, and one that has moved is followed (R214, R215,
R241). Operands: core, port. -/
def execTokenSpill (s : State) : Outcome :=
  let k := s.ev.x
  let c := coreOf s k
  match heldToken c s.ev.y with
  | none => .next s
  | some (key, ⟨addr, t, since, from_⟩) =>
    let port := key / 4
    let out := fun (s : State) =>
      let c := coreOf s k
      countCore (setCore s k { c with hold := tdel c.hold key }) k 42 (cyclesSince s k from_)
    match slotOf s k addr with
    | some d => .next (enqueue (out s) k d port t)
    | none =>
      if (coreOfAddr s addr).any (fun j => j != k) then .next (followHeld (out s) k addr port (key % 4) t)
      else if cyclesSince s k since < 4096 then
        .next (schedule s (s.now + ticksOf s k (4096 - cyclesSince s k since)) .tokenSpill s.ev)
      else match spill s addr port t with
      | some u => .next (out u)
      | none =>
        let s := if cyclesSince s k since < 2 * 4096 then countCore s k 40 1 else s
        .next (schedule s (s.now + ticksOf s k 4096) .tokenSpill (evArgs k s.ev.y 0))
/-- CREDIT_RETURN: a credit comes back to the binding that sent a popped token (02_rule, R57). Operand: message. -/
def execCreditReturn (s : State) : Outcome :=
  match msgOf s s.ev.x with
  | some ⟨id, _, _, .credit addr port, _⟩ =>
    .next (modCtx (dropMsg s id) addr (fun x =>
      match vget x.binds port none with
      | some b => { x with binds := vset x.binds port (some { b with credits := min (b.credits + 1) b.depth }) }
      | none => x))
  | _ => .next (waitMsg s .creditReturn)
/-- REPLY_ARRIVAL: a reply is placed on its context's rp queue, after any commit in the same cycle; that of a merged atomic is split at
the router that merged it (05_core_memory, R157; 08_cluster, R242). Operand: message. -/
def execReplyArrival (s : State) : Outcome :=
  match msgOf s s.ev.x with
  | some ⟨id, src, k, .reply addr n t, _⟩ =>
    let t0 := dropMsg s id
    match (coreOf s k).splits.find? (fun p => p.id == n), slotOf s k addr with
    | some p, _ => .next (splitReply t0 k p t.pay.toNat)
    | none, some c =>
      if channelOpen s k 4 1 then .next (readDone (replyToTwin (enqueue t0 k c 4 t) addr n t) addr n)
      else .next (again s .replyArrival)
    | none, none =>
      match coreOfAddr s addr with
      | some j =>
        if j != k then .next (forwardFlit t0 1 k j src (.reply addr n t))
        else if channelOpen s k 4 1 then .next (readDone (holdToken t0 k addr 4 1 t) addr n)
        else .next (again s .replyArrival)
      | none => .next (again s .replyArrival)
  | _ => .next (waitMsg s .replyArrival)
/-- The trap of a failed request or command, at the core's next round boundary; its record names the instruction (05_core_memory, R158;
R220). -/
def failTrap (s : State) (k c : Nat) (code : BitVec 8) (rt : BitVec 6) (org : Origin) : State :=
  trapAtBoundary s k c { code := code, kind := 3, rule := org.rule, word := org.word, opcode := org.opc, unit := 0, lane := 0, exp := 0,
                         obs := 0, info := rt.zeroExtend 64 }
/-- FAILED_REQUEST: a failure reaches its issuer: a reply with e = 1 and the code, or a trap. It follows a logical core that has moved;
for an evicted context the reply is held as any token is, and a trap waits until the context is resident, since no other has a round
to raise it (R158; R214; 08_cluster, R241). Operand: message. -/
def execFailedRequest (s : State) : Outcome :=
  match msgOf s s.ev.x with
  | some ⟨id, src, k, .failed addr n rpy code rt fm wd org, _⟩ =>
    let t0 := endAccess (dropMsg s id) addr n
    let t := replyToken addr rt fm wd true 0 (BitVec.ofNat 512 code.toNat)
    match (coreOf s k).splits.find? (fun p => p.id == n), slotOf s k addr with
    | some p, _ => .next (splitFail (dropMsg s id) k p code)
    | none, some c =>
      if !rpy then .next (failTrap t0 k c code rt org)
      else if channelOpen s k 4 1 then .next (endAccess (replyToTwin (enqueue (dropMsg s id) k c 4 t) addr n t) addr n)
      else .next (again s .failedRequest)
    | none, none =>
      match coreOfAddr s addr with
      | some j =>
        if j != k then .next (forwardFlit (dropMsg s id) 1 k j src (.failed addr n rpy code rt fm wd org))
        else if rpy && channelOpen s k 4 1 then .next (holdToken t0 k addr 4 1 t)
        else .next (again s .failedRequest)
      | none => .next (again s .failedRequest)
  | _ => .next (waitMsg s .failedRequest)
/-- TRET_MESSAGE_ARRIVAL: a resume message waits for the core's next round boundary; it follows a logical core that has moved (R227;
08_cluster, R241). Operand: message. -/
def execTretMessageArrival (s : State) : Outcome :=
  match msgOf s s.ev.x with
  | some ⟨id, src, k, .tret addr seq action, _⟩ =>
    let s := dropMsg s id
    match slotOf s k addr with
    | some c =>
      let o := coreOf s k
      .next (setCore s k { o with trets := o.trets ++ [(c, seq, action)] })
    | none =>
      match coreOfAddr s addr with
      | some j => if j != k then .next (forwardFlit s 3 k j src (.tret addr seq action)) else .next (countCore s k 39 1)
      | none => .next (countCore s k 39 1)
  | _ => .next (waitMsg s .tretMessageArrival)

/-! ## The memory port (05_core_memory, R156, R160, R161, R172) -/

/-- The step that serves a request at its target's memory port. -/
def serveStep (r : Request) : Instr :=
  match r.kind with | .amo _ _ _ _ => .amoPerform | .publish _ _ => .publishFlip | _ => .remoteAccessServe
/-- The head of a core's memory port with the rest of its queue; BANK_STALL counts the cycles for which the banks have held it, a free
number (R149, R161; 07_core_failures, R223; log entry 99). -/
def portHead (s : State) (k : Nat) : Option (Request × State) :=
  let c := coreOf s k
  match c.portq with
  | [] => none
  | r :: l =>
    let held := Config.bankStall s.fresh
    some (r, setCore { s with fresh := s.fresh + 1 } k { c with portq := l, cnt := vset c.cnt 9 (satAdd (vget c.cnt 9 0) held) })
/-- Where a request acts at its target core: the physical offset, or the code of its failure: a byte outside the logical core's
window, or a privileged offset from an unprivileged context (R158; 12_package_launch, R329). -/
def portPlace (s : State) (r : Request) (n : Nat) : Except (BitVec 8) Nat :=
  let off := bits r.addr 18 0
  if bits r.addr 63 62 != 0 then .ok off
  else
    let x := bits r.addr 60 52
    let y := bits r.addr 51 44
    if off < 0x60000 && (windowOf s x y).2 < off + n then .error cRange
    else if 0x60000 < off + n && !r.priv then .error cPriv
    else .ok (windowed s x y off)
/-- REMOTE_ACCESS_SERVE: the memory port performs the read or write at its head; an uncorrectable error withholds the reply and
starts a rollback (R147, R156). Operand: core. -/
def execRemoteAccessServe (s : State) : Outcome :=
  let k := s.ev.x
  match portHead s k with
  | none => .next s
  | some (r, t) =>
    match r.kind with
    | .read n =>
      match portPlace s r n with
      | .error code => .next (failRequest t (some k) r code)
      | .ok off =>
        if portBad s k off n then .next (consumeOnCore t k cEccUe)
        else .next (replyTo (countCorrected t k off n) (some k) r (ofBytes (portRead s k off n)))
    | .write n v =>
      match portPlace s r n with
      | .error code => .next (failRequest t (some k) r code)
      | .ok off => .next (replyTo (writeDone (portWrite t k off (leBytes n v.toNat) false) r.cx r.id) (some k) r 0)
    | _ => .next (again s .remoteAccessServe)
/-- Whether the core's injector matches an atomic that its port serves (07_core_failures, R229). -/
def portInjected (c : Core) : Bool :=
  bits c.inj 7 0 != 0 && bits c.inj 26 24 == 6 && (bitAt c.inj 31 || bits c.inj 39 32 == 0xCB)
/-- One injection used up. -/
def useInjection (s : State) (k : Nat) : State :=
  let c := coreOf s k
  setCore s k { c with inj := c.inj - 1 }
/-- The check of an atomic's arithmetic: a mismatch re-runs it once; a clean re-run counts a corrected error, a second mismatch
raises a machine check that names the port (R160; 07_core_failures, R205, R208). False when the request fails. -/
def amoCheck (s : State) (k new : Nat) : Bool × State :=
  if !portInjected (coreOf s k) then (true, s)
  else
    let d := bits (coreOf s k).inj 10 8
    let s := useInjection s k
    if !portInjected (coreOf s k) then (true, bucketUp (countCore s k 37 1) k)
    else
      let s := useInjection s k
      (false, takeUnitCheck s k { code := cResidue, kind := 2, rule := 0, word := 0, opcode := 0xCB, unit := 6, lane := 0,
                                  exp := residue7 new, obs := residue7 (new % 7 + d), info := 0 })
/-- AMO_PERFORM: the memory port performs the atomic at its head as one read, modify and write, and replies with the old value
when asked (R160, R161). Operand: core. -/
def execAmoPerform (s : State) : Outcome :=
  let k := s.ev.x
  match portHead s k with
  | none => .next s
  | some (r, t) =>
    match r.kind with
    | .amo op size x c =>
      match portPlace s r size with
      | .error code => .next (failAmo t k r code)
      | .ok off =>
        if portBad s k off size then .next (consumeOnCore t k cEccUe)
        else
          let old := leNat (portRead s k off size)
          let (new, f) := amoResult op size old x.toNat c.toNat
          match amoCheck (mendWords t k (portWords t k off size)) k new with
          | (false, t) => .next (failAmo t k r cResidue)
          | (true, t) =>
            let t := portWrite (countAmo t k f) k off (leBytes size new) false
            .next (finishAmo t k r old)
    | _ => .next (again s .amoPerform)
/-- PUBLISH_FLIP: the owner's memory port exchanges the buffers of a publish window; an undefined window is left as it is
(R172). Operand: core. -/
def execPublishFlip (s : State) : Outcome :=
  let k := s.ev.x
  match portHead s k with
  | none => .next s
  | some (r, t) =>
    match r.kind with
    | .publish win tag =>
      let c := coreOf t k
      let w := vget c.pubw win 0
      let t := if bitAt w 63 then setCore t k { c with pubw := vset c.pubw win (w ^^^ (1#64 <<< 62)) } else t
      .next (completeCommand t r.cx r.id tag)
    | _ => .next (again s .publishFlip)

/-- BUCKET_LEAK: LEVEL of a core's bucket falls by 1 once the core's clock has come to the leak's cycle, and leaks again 2^LEAK cycles
later while it is not empty; a clock that was slowed or stopped puts the leak off (07_core_failures, R208; 00_scope, R10).
Operands: core, cycle. -/
def execBucketLeak (s : State) : Outcome :=
  let k := s.ev.x
  let at_ := s.ev.y
  if clusterCycles s (clusterKey k) < at_ then .next (scheduleLeak s k at_)
  else
    let c := coreOf s k
    let lvl := bits c.bucket 7 0 - 1
    let s := setCore s k { c with bucket := putBits c.bucket 7 0 lvl, leakAt := some at_ }
    .next (if lvl == 0 then s else scheduleLeak s k (at_ + leakCycles s k))

end Sys2Proof.Machine
end

