-- ==== Sys2Proof/Machine/Basin.lean ====
section
/-! DEFINITION. The basins: the arbiter, the matrix arithmetic with its checks, accumulator access, epilogue chains, and what
each command leaves (06_core_basin, R175 to R202; 03_core_numbers, R97 to R99, R105, R107, R108). -/
namespace Sys2Proof.Machine

/-! ## The arbiter (06_core_basin, R175, R179, R181) -/

/-- The physical core behind a port of a basin: the one at its place, or the spare core that stands for it (R175). -/
def basinCore (s : State) (b p : Nat) : Nat :=
  let (cx, cy) := clusterPlace (b / 12)
  let x := 2 * (b % 6) + p % 2
  let y := 4 * (b % 12 / 6) + p / 2
  let k := 256 * (13 * cx + x) + 8 * cy + y
  match placeOf s (12 * cx + x) (8 * cy + y) with
  | some (j, _) => if j / 256 % 13 == 12 then j else k
  | none => k
/-- A chain of a context; chain 0 is none. -/
def chainOf (x : Ctx) (e : Nat) : BitVec 256 := vget x.chains (e - 1) 0
/-- Whether a chain delivers to rp (R200). -/
def chainToRp (d : BitVec 256) : Bool := !bitAt d 255
/-- The reply credits that a command takes at its grant (R197, R201). -/
def creditsOf (x : Ctx) (b : BasinCmd) : Nat :=
  match b.op with
  | .mma _ _ _ _ _ m _ _ _ ep _ _ => if ep != 0 && chainToRp (chainOf x ep) then m else 0
  | .accrd _ _ _ rows ep _ => if ep == 0 || chainToRp (chainOf x ep) then rows else 0
  | _ => 0
/-- Whether a core's next command may be granted, the first that is not: not on a stopped core, not while it waits for reply
credits. -/
def grantable (s : State) (k : Nat) : Bool :=
  let o := coreOf s k
  match o.bq.drop o.granted with
  | [] => false
  | b :: _ =>
    let x := ctxOf s k b.cx
    !o.stopped && !clockStopped s k && x.replies + creditsOf x b ≤ replyCredits s k b.cx
/-- The port that the arbiter grants next, with its grants in this visit and the visit's weight: up to W consecutive commands a visit,
with W as the visit began (R179). -/
def arbitrate (s : State) (b port used w : Nat) : Nat → Option (Nat × Nat × Nat)
  | 0 => none
  | n + 1 =>
    if grantable s (basinCore s b port) && used < w then some (port, used + 1, w)
    else
      let p := (port + 1) % 8
      arbitrate s b p 0 (max 1 (coreOf s (basinCore s b p)).bwgt.toNat) n
/-- T of a command: its array steps (R180). -/
def arraySteps (op af k : Nat) : Nat :=
  if op == 2 then (k + 31) / 32
  else match af with | 1 => 4 * k | 2 => k | 3 => (k + 7) / 8 | 4 => (k + 7) / 8 | _ => (k + 15) / 16
/-- The cycles from a grant to the end of a command, before rows are delivered (R181). -/
def commandCycles (b : BasinCmd) : Nat :=
  match b.op with
  | .mma op _ af _ k _ _ _ _ _ _ _ => 10 + arraySteps op af k
  | .accrd _ _ _ _ _ _ => 2
  | .accwr _ _ _ rows _ => 2 + rows
  | .accz _ _ => 1
  | _ => 0
/-- The cycles from a grant to the end of a command's last array step; none for one that makes none (R181). -/
def arrayCycles (b : BasinCmd) : Option Nat :=
  match b.op with
  | .mma op _ af _ k _ _ _ _ _ _ _ => some (4 + arraySteps op af k)
  | _ => none
/-- A core's next command granted: it takes its reply credits, and the array until its last step (R178, R181, R197). -/
def grantNext (s : State) (b k : Nat) : State :=
  let o := coreOf s k
  match o.bq.drop o.granted with
  | [] => s
  | c :: _ =>
    let x := ctxOf s k c.cx
    let s := setCtx s k c.cx { x with replies := x.replies + creditsOf x c }
    let s := setCore s k { coreOf s k with granted := o.granted + 1, stepping := true }
    let s := schedule s (s.now + ticksOf s k (commandCycles c)) .basinCommandComplete (evArgs k 0 0)
    match arrayCycles c with
    | some n => schedule s (s.now + ticksOf s k n) .basinGrant (evArgs b k 1)
    | none => s
/-- BASIN_GRANT: the arbiter of a basin grants the array to one core's next command: to any core's while no command of the basin runs,
else to the one after the command that runs, once that one has made its last array step (R178, R179). Operand: basin; z is 1 when the
command of core y has made its last array step. -/
def execBasinGrant (s : State) : Outcome :=
  let b := s.ev.x
  let s := if s.ev.z == 1 then setCore s s.ev.y { coreOf s s.ev.y with stepping := false } else s
  let cl := clusterOf s (b / 12)
  let (port, used, w) := vget cl.arb (b % 12) (0, 0, 1)
  let busy := ((List.range 8).map (basinCore s b)).filter (fun k => (coreOf s k).granted != 0)
  if busy.any (fun k => (coreOf s k).stepping) then .next s
  else
    match arbitrate s b port used w 9 with
    | none => .next s
    | some a =>
      let k := basinCore s b a.1
      if busy.any (fun j => j != k) then .next s
      else .next (grantNext (setCluster s (b / 12) { cl with arb := vset cl.arb (b % 12) a }) b k)

/-! ## Slots and events (06_core_basin, R176, R188) -/

/-- A slot of a core replaced. -/
def setSlot (s : State) (k n : Nat) (a : AccSlot) : State :=
  let o := coreOf s k
  setCore s k { o with acc := vset o.acc n a }
/-- A slot of a core. -/
def slotAcc (s : State) (k n : Nat) : AccSlot := vget (coreOf s k).acc n AccSlot.reset
/-- The bits of an element of a slot type (R176). -/
def typeWidth (t : SlotType) : Nat := match t with | .fp64 => 64 | _ => 32
/-- Element (m, n) of w bits. -/
def slotElem (rows : Vector V512 16) (w m n : Nat) : Nat := bits (vget rows m 0) (w * n + w - 1) (w * n)
/-- Rows with element (m, n) of w bits replaced. -/
def putElem (rows : Vector V512 16) (w m n v : Nat) : Vector V512 16 :=
  vset rows m (putBits (vget rows m 0) (w * n + w - 1) (w * n) v)
/-- A basin event counter of a context increased: 0 NV, 1 OF, 2 UF, 3 FLUSH, 4 TERN, 5 CORR (R188). -/
def countBasin (s : State) (k c n m : Nat) : State :=
  let x := ctxOf s k c
  setCtx s k c { x with bcnt := vset x.bcnt n (satAdd (vget x.bcnt n 0) m) }
/-- Events of one command: NV, OF, UF. -/
abbrev Events := Nat × Nat × Nat
/-- Events with those of one result added. -/
def addFlags (e : Events) (nv : Bool) (f : Flags) : Events :=
  (e.1 + ofBool nv, e.2.1 + ofBool (bitAt f 2), e.2.2 + ofBool (bitAt f 1))
/-- Events counted for a context. -/
def countEvents (s : State) (k c : Nat) (e : Events) : State :=
  countBasin (countBasin (countBasin s k c 0 e.1) k c 1 e.2.1) k c 2 e.2.2

/-! ## Operands (06_core_basin, R182 to R185, R195) -/

/-- The tiles of a matrix command as codes: A by (m, k), B by (k, n), the scale words of A by (m, block) and of B by
(n, block). -/
structure Tiles where
  a : Nat → Nat → Nat
  b : Nat → Nat → Nat
  sa : Nat → Nat → Nat
  sb : Nat → Nat → Nat

/-- A number out of 64-byte lines, the first lowest. -/
def linesNat (ls : List V512) : Nat := ls.foldr (fun v a => v.toNat + 2 ^ 512 * a) 0
/-- A byte of a core's memory as its head command's tile read finds it, and whether its word is uncorrectable: as it stands, or as it has
stood since the command's commit, by a free choice for each byte and operand (R185). -/
def seenByte (s : State) (k operand p : Nat) : Byte × Bool :=
  let c := coreOf s k
  let now := (if p < 0x70000 then localByte c p else regByte s k p, decide (p < 0x60000) && c.eccUe.contains (p / 8))
  match ((c.bq.head?.map (fun b => b.old)).getD []).filter (fun o => o.1 == p) with
  | [] => now
  | olds => (now :: olds.map (fun o => o.2)).getD (Config.basinSees s.fresh (8 * p + operand) % (olds.length + 1)) now
/-- The bytes that a read of n bytes at an offset of a context finds; the operand is 0 A, 1 B, 2 and 3 their scales, 4 the rows of ACCWR,
5 and 6 the addends of a chain. -/
def seenBytes (s : State) (k c operand off n : Nat) : List (Byte × Bool) :=
  let x := ctxOf s k c
  (List.range n).map (fun i => seenByte s k operand (portOffset s k (windowed s x.lx x.ly off + i) false))
/-- n bytes of a core's local memory at an offset of a context, as one number. -/
def localNat (s : State) (k c operand off n : Nat) : Nat := leNat ((seenBytes s k c operand off n).map (fun b => b.1))
/-- Whether n bytes of local memory of a context hold an uncorrectable error. -/
def localBad (s : State) (k c operand off n : Nat) : Bool := (seenBytes s k c operand off n).any (fun b => b.2)
/-- The bytes of A and of B (R182). -/
def tileBytes (op af bf k m n : Nat) : Nat × Nat :=
  (m * k * elementBits (BitVec.ofNat 3 af) false / 8, (k * n * elementBits (BitVec.ofNat 3 bf) (op == 2) + 7) / 8)
/-- The tiles that a command reads. -/
def readTiles (s : State) (core c op af bf k m n : Nat) (bt : Bool) (a b : Tile) : Tiles :=
  let wa := elementBits (BitVec.ofNat 3 af) false
  let wb := elementBits (BitVec.ofNat 3 bf) (op == 2)
  let (na, nb) := tileBytes op af bf k m n
  let index := fun (i j : Nat) => if bt then j * k + i else i * n + j
  let block := fun (p i : Nat) =>
    match (vget (coreOf s core).rx (4 * p + i) RxSlot.reset).blk with | some x => linesNat x.data | none => 0
  let av : Nat → Nat := match a with
    | .mem off _ => let v := localNat s core c 0 off na; fun m => v >>> (m * k * wa)
    | .bytes ls => let e := (k * wa / 8 + 63) / 64; fun m => linesNat ((ls.drop (m * e)).take e)
    | .slot _ _ _ => fun _ => 0
  let bv : Nat := match b with
    | .mem off _ => localNat s core c 1 off nb
    | .bytes ls => linesNat ls
    | .slot p i _ => block p i
  let sav : Nat := match a with | .mem _ sc => if op == 4 then localNat s core c 2 sc (m * k / 8) else 0 | _ => 0
  let sbv : Nat := match b with
    | .mem _ sc => if op == 4 then localNat s core c 3 sc (n * k / 8) else 0
    | .slot p i soff => if op == 4 then block p i >>> (8 * soff) else 0
    | .bytes _ => 0
  { a := fun m j => av m >>> (j * wa) % 2 ^ wa
    b := fun j n => bv >>> (index j n * wb) % 2 ^ wb
    sa := fun m j => sav >>> (32 * (m * k / 32 + j)) % 2 ^ 32
    sb := fun n j => sbv >>> (32 * (n * k / 32 + j)) % 2 ^ 32 }
/-- Whether a local tile or scale array of a command holds an uncorrectable error (R185). -/
def tilesBad (s : State) (core c op af bf k m n : Nat) (a b : Tile) : Bool :=
  let (na, nb) := tileBytes op af bf k m n
  (match a with | .mem off sc => localBad s core c 0 off na || (op == 4 && localBad s core c 2 sc (m * k / 8)) | _ => false) ||
    (match b with | .mem off sc => localBad s core c 1 off nb || (op == 4 && localBad s core c 3 sc (n * k / 8)) | _ => false)

/-! ## Floating K-groups (03_core_numbers, R107) -/

/-- Whether an input code is a BF16 or FP16 subnormal, which is flushed (R105). -/
def flushed (f code : Nat) : Bool :=
  (f == 3 || f == 4) && (match fpDecode f false code with | .num _ m _ => m != 0 && m < 2 ^ fpFracBits f | _ => false)
/-- The value of an input element; INT is an MX INT8. -/
def inputValue (f : Nat) (fm : Bool) (code : Nat) : FNum :=
  if f == 0 then
    let v := toSigned 8 code
    .num (v < 0) v.natAbs 0
  else if flushed f code then (match fpDecode f fm code with | .num n _ e => .num n 0 e | x => x)
  else fpDecode f fm code
/-- The fraction bits of a format as F counts them (R107, R186). -/
def inputFrac (f : Nat) : Nat := if f == 0 then 6 else fpFracBits f
/-- The exact product of two elements, and whether it is invalid: 0 x Inf. -/
def basinProduct (a b : FNum) : FNum × Bool :=
  let p := (fpProd a b).1
  (p, p.isNaN && !a.isNaN && !b.isNaN)
/-- The product of two elements with the scales of their blocks: a NaN scale makes it NaN, a zero scale zero (R99, R195). -/
def scaledProduct (a b : FNum) (sa sb : Nat) : FNum × Bool :=
  match scaleValue sa, scaleValue sb with
  | some (x, ex), some (y, ey) =>
    if x * y == 0 then (.num false 0 0, false)
    else
      match basinProduct a b with
      | (.num n m e, v) => (.num n (m * x * y) (e + ex + ey), v)
      | p => p
  | _, _ => (.nan false false, false)
/-- The products of a K-group that are not zero: sign, significand, exponent. -/
def groupTerms (ps : List (FNum × Bool)) : List (Bool × Nat × Int) :=
  ps.filterMap (fun p => match p.1 with | .num n m e => if m == 0 then none else some (n, m, e) | _ => none)
/-- The integer T of a K-group in units of q, with q's exponent and whether bits were cut off (R107). -/
def groupInteger (frac : Nat) (terms : List (Bool × Nat × Int)) : Int × Int × Bool :=
  match terms with
  | [] => (0, 0, false)
  | t :: r =>
    let top := fun (t : Bool × Nat × Int) => Int.ofNat (Nat.log2 t.2.1) + t.2.2
    let q := r.foldl (fun e u => max e (top u)) (top t) - Int.ofNat frac - 3
    let cut := fun (t : Bool × Nat × Int) =>
      if q ≤ t.2.2 then (t.2.1 * 2 ^ (t.2.2 - q).toNat, false)
      else (t.2.1 / 2 ^ (q - t.2.2).toNat, t.2.1 % 2 ^ (q - t.2.2).toNat != 0)
    ((t :: r).foldl (fun a u => a + signedMag u.1 (cut u).1) 0, q, (t :: r).any (fun u => (cut u).2))
/-- gsum of a K-group in a result format, with whether it is an invalid NaN, and its flags (R107). -/
def groupSum (f frac : Nat) (ps : List (FNum × Bool)) : Nat × Bool × Flags :=
  let ns := ps.map Prod.fst
  let clash := ns.any (fun p => p == .inf true) && ns.any (fun p => p == .inf false)
  if ns.any FNum.isNaN || clash then (fpNaN f, clash || ps.any Prod.snd, 0)
  else if ns.any (fun p => p == .inf true) then (fpSign f true + fpInf f, false, 0)
  else if ns.any (fun p => p == .inf false) then (fpInf f, false, 0)
  else
    match groupTerms ps with
    | [] => (fpSign f (ns.all (fun p => match p with | .num n _ _ => n | _ => false)), false, 0)
    | terms =>
      let (v, q, sticky) := groupInteger frac terms
      if v == 0 then (0, false, 0)
      else
        let (x, fl) := fpRound f false false 0 (v < 0) v.natAbs q sticky
        (x, false, fl)
/-- The products of K-group g for element (m, n), padded with +0 to the group's size. -/
def groupProducts (t : Tiles) (mx fm : Bool) (af bf k size g m n : Nat) : List (FNum × Bool) :=
  (List.range size).map (fun i =>
    let j := size * g + i
    if k ≤ j then (.num false 0 0, false)
    else
      let x := inputValue af fm (t.a m j)
      let y := inputValue bf fm (t.b j n)
      if mx then scaledProduct x y (t.sa m (j / 32)) (t.sb n (j / 32)) else basinProduct x y)
/-- Whether a code of a format is non-zero and below the smallest normal number. -/
def fpTiny (f code : Nat) : Bool :=
  let m := code % 2 ^ (fpWidth f - 1)
  m != 0 && decide (m < 2 ^ fpFracBits f)
/-- The events of one accumulate, group sum and addition taken together: NV an invalid group sum, OF an overflow, UF a result that is
tiny and inexact (R188; log entry 24). -/
def accumulateFlags (f y : Nat) (fl fa : Flags) : Flags :=
  ((fl ||| fa) &&& 0b00100) ||| (if fpTiny f y && bitAt (fl ||| fa) 0 then 0b00010 else 0)
/-- One K-group accumulated over an M x N tile, with its events (R188). -/
def accumulateGroup (t : Tiles) (mx fm : Bool) (af bf k m n g : Nat) (acc : Vector V512 16 × Events) :
    Vector V512 16 × Events :=
  let f := if af == 1 then 1 else 2
  let w := fpWidth f
  let size := if af == 1 then 2 else 8
  let one := fun (acc : Vector V512 16 × Events) (i : Nat) =>
    let (x, nv, fl) := groupSum f (inputFrac af + inputFrac bf) (groupProducts t mx fm af bf k size g (i / n) (i % n))
    let (y, fa) := fpAdd f 0 (slotElem acc.1 w (i / n) (i % n)) x
    (putElem acc.1 w (i / n) (i % n) y, addFlags acc.2 nv (accumulateFlags f y fl fa))
  (List.range (m * n)).foldl one acc
/-- Whether the injector of a core matches a K-group check of a command, and its DELTA (07_core_failures, R229). -/
def groupInjected (o : Core) (b : BasinCmd) : Bool :=
  bits o.inj 7 0 != 0 && bits o.inj 26 24 == 5 && bits o.inj 41 40 == b.cx % 4 &&
    (bitAt o.inj 31 || bits o.inj 39 32 == b.opc.toNat)
/-- The check of a K-group: a mismatch recomputes the group once; a clean recomputation counts CORR and one corrected error; a
second mismatch leaves the group's sum out, poisons the slot and raises a machine check (R189). A group is checked once for the whole
tile, and the record's residues are those of the tile's first element (DESIGN CHOICE, log entry 96); of a group that has no T, with a
NaN or an infinity among its products, they are free (log entry 18). False when the sum is left out. -/
def checkGroup (s : State) (k : Nat) (b : BasinCmd) (slot g : Nat) (first : List (FNum × Bool)) (frac : Nat) : Bool × State :=
  if !groupInjected (coreOf s k) b then (true, s)
  else
    let d := bits (coreOf s k).inj 10 8
    let s := useInjection s k
    if !groupInjected (coreOf s k) b then (true, bucketUp (countBasin s k b.cx 5 1) k)
    else
      let s := useInjection s k
      let (f, s) := takeFresh s
      let whole := first.all (fun p => match p.1 with | .num _ _ _ => true | _ => false)
      let exp := if whole then BitVec.ofNat 3 ((groupInteger frac (groupTerms first)).1 % 7).toNat else Config.residue f
      let s := setSlot s k slot { slotAcc s k slot with poison := true, code := cResidue }
      (false, trapAtBoundary s k b.cx
        { code := cResidue, kind := 2, rule := 0, word := 0, opcode := b.opc, unit := 5, lane := 0, exp := exp,
          obs := BitVec.ofNat 3 ((exp.toNat + d) % 7), info := BitVec.ofNat 64 (slot + 256 * g) })

/-! ## Integer products and the row and column check (03_core_numbers, R97, R108; 06_core_basin, R190) -/

/-- A ternary weight; 10 reads as 0 (R97). -/
def ternary (c : Nat) : Int := match c with | 1 => 1 | 3 => -1 | _ => 0
/-- The change of each element that an integer command makes, row by row. -/
def integerDelta (t : Tiles) (tern : Bool) (k m n : Nat) : List (List Int) :=
  let bv := fun (c : Nat) => if tern then ternary c else toSigned 8 c
  (List.range m).map (fun i => (List.range n).map (fun j =>
    (List.range k).foldl (fun (a : Int) q => a + toSigned 8 (t.a i q) * bv (t.b q j)) 0))
/-- The column sums and row sums that the separate unit forms, modulo 2^32. -/
def checkSums (t : Tiles) (tern : Bool) (k m n : Nat) : List Int × List Int :=
  let bv := fun (c : Nat) => if tern then ternary c else toSigned 8 c
  let sum := fun (c : Nat) (f : Nat → Int) => (List.range c).foldl (fun (a : Int) i => a + f i) 0
  ((List.range n).map (fun j => sum k (fun q => sum m (fun i => toSigned 8 (t.a i q)) * bv (t.b q j)) % 2 ^ 32),
   (List.range m).map (fun i => sum k (fun q => toSigned 8 (t.a i q) * sum n (fun j => bv (t.b q j))) % 2 ^ 32))
/-- The outcome of the check: the change as released, whether an element was corrected, whether the pattern was any other. -/
def abftCheck (cs rs : List Int) (corr : Bool) (d : List (List Int)) : List (List Int) × Bool × Bool :=
  let total := fun (l : List Int) => l.foldl (fun a x => a + x) 0
  let rowErr := (rs.zip d).map (fun p => (p.1 - total p.2) % 2 ^ 32)
  let colErr := (List.range cs.length).map (fun j => (cs.getD j 0 - total (d.map (fun r => r.getD j 0))) % 2 ^ 32)
  let bad := fun (l : List Int) => (List.range l.length).filter (fun i => l.getD i 0 != 0)
  match bad rowErr, bad colErr with
  | [], [] => (d, false, false)
  | [i], [j] =>
    let e := rowErr.getD i 0
    if corr && e == colErr.getD j 0 then (d.modify i (fun r => r.modify j (· + e)), true, false) else (d, false, true)
  | _, _ => (d, false, true)
/-- An integer command accumulated, its change checked before the release when the check is on. -/
def integerCommand (s : State) (k : Nat) (b : BasinCmd) (slot kk m n : Nat) (tern : Bool) (t : Tiles) : State :=
  let x := ctxOf s k b.cx
  let d := integerDelta t tern kk m n
  let (cs, rs) := checkSums t tern kk m n
  let (d, fixed, multi) := if x.abftEn then abftCheck cs rs x.abftCorr d else (d, false, false)
  let one := fun (rows : Vector V512 16) (i : Nat) =>
    let v := Int.ofNat (slotElem rows 32 (i / n) (i % n)) + (d.getD (i / n) []).getD (i % n) 0
    putElem rows 32 (i / n) (i % n) (v % 2 ^ 32).toNat
  let a := slotAcc s k slot
  let s := setSlot s k slot { a with rows := (List.range (m * n)).foldl one a.rows, ty := .int32 }
  let s := if tern then
      countBasin s k b.cx 4 (((List.range (kk * n)).filter (fun i => t.b (i / n) (i % n) == 2)).length)
    else s
  if fixed then bucketUp (countBasin s k b.cx 5 1) k
  else if multi then
    let s := setSlot s k slot { slotAcc s k slot with poison := true, code := cAbftMulti }
    trapAtBoundary s k b.cx
      { code := cAbftMulti, kind := 2, rule := 0, word := 0, opcode := b.opc, unit := 5, lane := 0, exp := 0, obs := 0,
        info := BitVec.ofNat 64 slot }
  else s

/-! ## The commands (06_core_basin, R194 to R202) -/

/-- A floating command accumulated, K-group by K-group, with its events. -/
def floatCommand (s : State) (k : Nat) (b : BasinCmd) (slot af bf kk m n : Nat) (mx : Bool) (t : Tiles) : State :=
  let size := if af == 1 then 2 else 8
  let group := fun (s : State) (g : Nat) =>
    match checkGroup s k b slot g (groupProducts t mx b.fm af bf kk size g 0 0) (inputFrac af + inputFrac bf) with
    | (false, s) => s
    | (true, s) =>
      let a := slotAcc s k slot
      let (rows, e) := accumulateGroup t mx b.fm af bf kk m n g (a.rows, (0, 0, 0))
      countEvents (setSlot s k slot { a with rows := rows }) k b.cx e
  let s := (List.range ((kk + size - 1) / size)).foldl group s
  let a := slotAcc s k slot
  let s := setSlot s k slot { a with ty := if af == 1 then .fp64 else .fp32 }
  let fa := ((List.range (m * kk)).filter (fun i => flushed af (t.a (i / kk) (i % kk)))).length
  let fb := ((List.range (kk * n)).filter (fun i => flushed bf (t.b (i / n) (i % n)))).length
  let nan := fun (w : Nat) => (scaleValue w).isNone
  let ns := if mx then
      ((List.range (m * (kk / 32))).filter (fun i => nan (t.sa (i / (kk / 32)) (i % (kk / 32))))).length +
        ((List.range (n * (kk / 32))).filter (fun i => nan (t.sb (i / (kk / 32)) (i % (kk / 32))))).length
    else 0
  countBasin (countBasin s k b.cx 3 (fa + fb)) k b.cx 0 ns
/-- A slot zeroed by MMAZ, or its M x N part by Z (R194). -/
def zeroPart (a : AccSlot) (op w m n : Nat) (z : Bool) : AccSlot :=
  if op == 1 then { a with rows := Vector.replicate 16 0, poison := false, code := 0 }
  else if z then { a with rows := (List.range (m * n)).foldl (fun r i => putElem r w (i / n) (i % n) 0) a.rows }
  else a
/-- The pins of a command's optical operand cleared in the cycle after its last read (R184). -/
def dropPins (s : State) (k : Nat) (b : Tile) : State :=
  match b with
  | .slot p i _ => schedule s (s.now + 1) .slotPinClear (evArgs k p i)
  | _ => s
/-- The end of a core's head command: its entry is freed and counted in DONE, and the array is free (R177, R203). -/
def endCommand (s : State) (k : Nat) : State :=
  let o := coreOf s k
  match o.bq with
  | [] => s
  | b :: r =>
    let s := setCore s k { o with bq := r, granted := o.granted - 1, stepping := o.stepping && decide (1 < o.granted), deliv := none }
    let x := ctxOf s k b.cx
    schedule (setCtx s k b.cx { x with bdone := x.bdone + 1 }) s.now .basinGrant (evArgs (basinOf s k) 0 0)
/-- The rows that a command has still to deliver. -/
def startDelivery (s : State) (k : Nat) (d : Delivery) : State :=
  let s := setCore s k { coreOf s k with deliv := some d }
  schedule s (s.now + 1) (if d.ep == 0 then .accrdRowDelivery else .epilogueRowDelivery) (evArgs k 0 0)
/-- An uncorrectable error in a basin read: the command is withheld and its gang rolls back (R185; 05_core_memory, R147). -/
def withhold (s : State) (k c : Nat) : State := consumeError s (ctxOf s k c).region cEccUe
/-- A matrix command performed (R194). -/
def runMma (s : State) (k : Nat) (b : BasinCmd) (op acc af bf kk m n : Nat) (z bt : Bool) (ep : Nat) (ta tb : Tile) : State :=
  if tilesBad s k b.cx op af bf kk m n ta tb then withhold s k b.cx
  else
    let t := readTiles s k b.cx op af bf kk m n bt ta tb
    let w := if af == 1 then 64 else 32
    let s := setSlot s k acc (zeroPart (slotAcc s k acc) op w m n z)
    let s := if op == 2 || op == 3 then integerCommand s k b acc kk m n (op == 2) t
      else floatCommand s k b acc af bf kk m n (op == 4) t
    let s := dropPins s k tb
    if ep == 0 then endCommand s k
    else startDelivery s k { cx := b.cx, acc := acc, ep := ep, rt := 0, first := 0, next := 0, rows := m, cols := n, clr := false,
                             fm := b.fm }
/-- ACCWR performed (R198). -/
def runAccwr (s : State) (k : Nat) (b : BasinCmd) (acc : Nat) (ty : SlotType) (first rows src : Nat) : State :=
  if localBad s k b.cx 4 src (64 * rows) then withhold s k b.cx
  else
    let v := localNat s k b.cx 4 src (64 * rows)
    let a := slotAcc s k acc
    let put := fun (r : Vector V512 16) (i : Nat) => vset r (first + i) (BitVec.ofNat 512 (v >>> (512 * i)))
    let a := { a with rows := (List.range rows).foldl put a.rows, ty := ty }
    endCommand (setSlot s k acc (if rows == 16 then { a with poison := false, code := 0 } else a)) k
/-- BASIN_COMMAND_COMPLETE: the granted head command of a core has its effects; one with rows to deliver goes on to its epilogue
or read-out, any other frees its entry; while the command before it still delivers rows it holds (R177, R178, R181). Operand: core. -/
def execBasinCommandComplete (s : State) : Outcome :=
  let k := s.ev.x
  let o := coreOf s k
  match o.bq with
  | [] => .next s
  | b :: _ =>
    if o.granted == 0 then .next s
    else if o.deliv.isSome then .next (again s .basinCommandComplete)
    else
      let x := ctxOf s k b.cx
      match b.op with
      | .mma op acc af bf kk m n z bt ep ta tb => .next (runMma s k b op acc af bf kk m n z bt ep ta tb)
      | .accrd acc rt first rows ep clr =>
        let cols := if (slotAcc s k acc).ty == .fp64 then 8 else 16
        .next (startDelivery s k { cx := b.cx, acc := acc, ep := ep, rt := BitVec.ofNat 6 rt, first := first, next := 0,
                                   rows := rows, cols := cols, clr := clr, fm := b.fm })
      | .accwr acc ty first rows src => .next (runAccwr s k b acc ty first rows src)
      | .accz acc ty =>
        .next (endCommand (setSlot s k acc { rows := Vector.replicate 16 0, ty := ty, poison := false, code := 0 }) k)
      | .epicfg ch d => .next (endCommand (setCtx s k b.cx { x with chains := vset x.chains (ch - 1) d }) k)
      | .abftcfg en corr => .next (endCommand (setCtx s k b.cx { x with abftEn := en, abftCorr := corr }) k)

/-! ## Read-out (06_core_basin, R191, R197, R200, R201) -/

/-- The fmt of a raw row (R197). -/
def slotFormat (t : SlotType) : Nat := match t with | .int32 => 0 | .fp64 => 1 | _ => 2
/-- A row token: h on the first, t on the last, e and the poison code for a poisoned slot (R191, R197). -/
def rowToken (s : State) (k : Nat) (d : Delivery) (fmt : Nat) (rt : BitVec 6) (v : V512) : Token :=
  let a := slotAcc s k d.acc
  let v := if a.poison then a.code.zeroExtend 512 else v
  let t := replyToken (ctxAddr (ctxOf s k d.cx)) rt d.fm true a.poison fmt v
  { t with sb := putBits (putBits t.sb 3 3 (ofBool (d.next == 0))) 4 4 (ofBool (d.next + 1 == d.rows)) }
/-- The rows of a delivery after one more: the row is cleared where CLR is set, and the command ends with the last. -/
def nextRow (s : State) (k : Nat) (d : Delivery) (op : Instr) : State :=
  let a := slotAcc s k d.acc
  let s := if d.clr then setSlot s k d.acc { a with rows := vset a.rows (d.first + d.next) 0 } else s
  if d.next + 1 == d.rows then endCommand s k
  else schedule (setCore s k { coreOf s k with deliv := some { d with next := d.next + 1 } }) (s.now + 1) op (evArgs k 0 0)
/-- ACCRD_ROW_DELIVERY: the next raw row of an ACCRD is placed on the context's rp (R197). Operand: core. -/
def execAccrdRowDelivery (s : State) : Outcome :=
  let k := s.ev.x
  match (coreOf s k).deliv with
  | none => .next s
  | some d =>
    let a := slotAcc s k d.acc
    let t := rowToken s k d (slotFormat a.ty) d.rt (vget a.rows (d.first + d.next) 0)
    .next (nextRow (enqueue s k d.cx 4 t) k d .accrdRowDelivery)
/-- The value of a slot's element as a chain reads it: FP32 as it stands, INT32 exact, FP64 rounded to FP32 (R200). -/
def chainInput (t : SlotType) (v : Nat) : FNum × Flags :=
  match t with
  | .int32 =>
    let x := toSigned 32 v
    (.num (x < 0) x.natAbs 0, 0)
  | .fp64 =>
    let (c, f) := cvtToFloat 2 false false 0 (fpDecode 1 false v)
    (fpDecode 2 false c, f)
  | _ => (fpDecode 2 false v, 0)
/-- One stage of a chain on an element; bias and res are the addends of its place. CVT is the last and gives a code; to FP32 it leaves the
bits as they are (03_core_numbers, R106). -/
def chainStage (d : BitVec 256) (fm : Bool) (bias res : Nat) (x : FNum × Flags × Nat) (st : Nat) : FNum × Flags × Nat :=
  let put := fun (r : Nat × Flags) => (fpDecode 2 false r.1, x.2.1 ||| r.2, r.1)
  let code := fpDeliver 2 0 (x.1, 0)
  match st with
  | 1 => put (fpDeliver 2 0 (fpProd x.1 (fpDecode 2 false (bits d 63 32))))
  | 2 => put (fpDeliver 2 0 (fpSum 0 [x.1, fpDecode 2 false bias]))
  | 3 => put (fpDeliver 2 0 (fpSum 0 [x.1, fpDecode 2 false res]))
  | 4 => if x.1.isNaN then put (fpNaN 2, 0) else if code.1.testBit 31 then put (0, code.2) else put code
  | 5 =>
    if x.1.isNaN then put (fpNaN 2, 0)
    else put ((fpMinMax 2 false (fpMinMax 2 true code.1 (bits d 159 128)).1 (bits d 191 160)).1, code.2)
  | 6 => put ((f32Tanh code.1).1, code.2 ||| (f32Tanh code.1).2)
  | 7 =>
    let f := bits d 202 200
    let (c, fl) := if f == 2 then (x.2.2, 0) else cvtToFloat f fm (bitAt d 197) 0 x.1
    (x.1, x.2.1 ||| fl, if flushed f c then fpSign f (c.testBit (fpWidth f - 1)) else c)
  | _ => x
/-- An element through a chain: its code in the chain's format, and its flags. An FP32 element enters as it stands; of an INT32 slot
a chain without stages delivers the element rounded to FP32 (DESIGN CHOICE, log entry 95). -/
def chainElement (d : BitVec 256) (fm : Bool) (t : SlotType) (bias res v : Nat) : Nat × Flags :=
  let (x, f) := chainInput t v
  let code := match t with | .int32 => (fpDeliver 2 0 (x, 0)).1 | .fp64 => (fpDeliver 2 0 (x, 0)).1 | _ => v
  let r := (chainStages d).foldl (chainStage d fm bias res) (x, f, code)
  (r.2.2, r.2.1)
/-- A row through a chain: the packed codes and the events (R201). -/
def chainRow (s : State) (k : Nat) (dl : Delivery) (d : BitVec 256) : Nat × Events :=
  let a := slotAcc s k dl.acc
  let row := dl.first + dl.next
  let st := chainStages d
  let bias := if st.contains 2 then localNat s k dl.cx 5 (bits d 95 64) 64 else 0
  let res := if st.contains 3 then localNat s k dl.cx 6 (bits d 127 96 + 64 * row) 64 else 0
  let w := typeWidth a.ty
  let fw := fpWidth (chainFormat d)
  (List.range dl.cols).foldl (fun (acc : Nat × Events) n =>
    let (c, f) := chainElement d dl.fm a.ty (bias >>> (32 * n) % 2 ^ 32) (res >>> (32 * n) % 2 ^ 32) (slotElem a.rows w row n)
    (acc.1 + c * 2 ^ (fw * n), addFlags acc.2 false f)) (0, (0, 0, 0))
/-- Whether the addends of a chain hold an uncorrectable error. -/
def chainBad (s : State) (k : Nat) (dl : Delivery) (d : BitVec 256) : Bool :=
  let st := chainStages d
  (st.contains 2 && localBad s k dl.cx 5 (bits d 95 64) 64) ||
    (st.contains 3 && localBad s k dl.cx 6 (bits d 127 96 + 64 * (dl.first + dl.next)) 64)
/-- EPILOGUE_ROW_DELIVERY: the next row of a chain is placed on rp, or written at the chain's local base, with its tag bit after
the last row; a poisoned slot writes nothing and sets no tag (R191, R201). Operand: core. -/
def execEpilogueRowDelivery (s : State) : Outcome :=
  let k := s.ev.x
  match (coreOf s k).deliv with
  | none => .next s
  | some dl =>
    let x := ctxOf s k dl.cx
    let d := chainOf x dl.ep
    let a := slotAcc s k dl.acc
    if chainBad s k dl d then .next (withhold s k dl.cx)
    else
      let (v, e) := chainRow s k dl d
      let s := if a.poison then s else countEvents s k dl.cx e
      if chainToRp d then
        let t := rowToken s k dl (chainFormat d) (d.extractLsb' 248 6) (BitVec.ofNat 512 v)
        .next (nextRow (enqueue s k dl.cx 4 t) k dl .epilogueRowDelivery)
      else if a.poison then .next (nextRow s k dl .epilogueRowDelivery)
      else
        let pitch := (dl.cols * fpWidth (chainFormat d) + 7) / 8
        let s := portWrite s k (windowed s x.lx x.ly (bits d 242 224 + dl.next * pitch)) (leBytes pitch v) false
        let x := ctxOf s k dl.cx
        let last := dl.next + 1 == dl.rows && bitAt d 247
        let s := if last then setCtx s k dl.cx { x with tb := x.tb ||| (1#64 <<< bits d 253 248) } else s
        .next (nextRow s k dl .epilogueRowDelivery)
/-- SLOT_PIN_CLEAR: the basin's read pin on a receive slot clears, and a release that waited for it takes effect (R184).
Operands: core, port, slot. -/
def execSlotPinClear (s : State) : Outcome :=
  let k := s.ev.x
  let n := 4 * s.ev.y + s.ev.z
  let o := coreOf s k
  let r := vget o.rx n RxSlot.reset
  let s := setCore s k { o with rx := vset o.rx n { r with pin := false } }
  .next (if r.rel then freeSlot s k n else s)

end Sys2Proof.Machine
end

