-- ==== Sys2Proof/Machine/BitStream.lean ====
section
/-! DEFINITION. The bit-stream instructions: bb and bw, refill from a read stream, Huffman decode, and packing into a write
stream (03_core_numbers, R92; 04_core_compute, R139 to R145). -/
namespace Sys2Proof.Machine

/-- NB of bw. -/
def bwNb (bw : W32) : Nat := bits bw 6 0
/-- MODE of bw: 0 off, 1 reading, 2 writing. -/
def bwMode (bw : W32) : Nat := bits bw 13 12
/-- QS of bw. -/
def bwQs (bw : W32) : Nat := bits bw 15 14
/-- HTAB of bw. -/
def bwHtab (bw : W32) : Nat := bits bw 26 16
/-- The top n bits of the buffer (R142). -/
def topBits (bb : W64) (n : Nat) : Nat := bb.toNat >>> (64 - n)
/-- The buffer with the bits below the NB valid ones zero (R140). -/
def keepTop (bb : W64) (nb : Nat) : W64 := BitVec.ofNat 64 (bb.toNat >>> (64 - nb) <<< (64 - nb))
/-- Four bytes with the first most significant: a 32-bit value with its bytes reversed. -/
def swap32 (x : Nat) : Nat := x % 256 * 2 ^ 24 + x / 256 % 256 * 2 ^ 16 + x / 65536 % 256 * 256 + x / 16777216 % 256

/-- The conditions on the stream operand of a bit-stream instruction: z, or qQS bound in the direction of MODE with 4-byte
elements (R139). -/
def bitOperand (s : State) (a : Opd) : Body Unit := do
  let w ← get
  let st := vget (bodyCtx s).q (bwQs w.bw) Stream.reset
  need (a == 31#5 || (a.toNat == 24 + bwQs w.bw && st.bound && st.esz == 1 &&
    (bwMode w.bw == 1 && !st.dir || bwMode w.bw == 2 && st.dir))) cIllegalOperand 0
/-- bb and NB staged, with the residue check of the unit on the low half of bb (R115; 07_core_failures, R205). -/
def stageBits (s : State) (bb : W64) (nb : Nat) : Body Unit := do
  let w ← get
  checked s 4 0 (bb.toNat % 2 ^ 32)
  stageBb bb
  stageBw (putBits w.bw 6 0 nb)
/-- Refill(src, need): at most one 4-byte element enters below the valid bits; the base sideband is that of the element popped
(R140; 01_encoding, R33). -/
def refill (s : State) (a : Opd) (n : Nat) : Body Sideband := do
  let w ← get
  let nb := bwNb w.bw
  if a != 31#5 && nb < n && nb ≤ 32 then
    let (x, sb) ← readS s a false
    let v := swap32 (x.toNat % 2 ^ 32)
    stageBits s (w.bb ||| BitVec.ofNat 64 (v <<< (32 - nb))) (nb + 32)
    pure sb
  else pure 0
/-- Consume(n) (R140). -/
def consume (s : State) (n : Nat) : Body Unit := do
  let w ← get
  if bwNb w.bw ≤ n then stageBits s 0 0 else stageBits s (w.bb <<< n) (bwNb w.bw - n)

/-- BSINIT (R141). -/
def execBsinit (a b d e : Opd) (t : Tag) (s : State) : Outcome :=
  runBody s 0x86 .plain 1 1 do
    let (x, sa) ← readS s a (keepIn t)
    let (y, sb) ← readS s b (keepIn t)
    let w ← get
    let mode := if bits x 13 12 == 3 then 0 else bits x 13 12
    let nb := min (bits x 6 0) (if mode == 2 then 31 else 64)
    stageBw (BitVec.ofNat 32 (bits x 26 16 * 65536 + bits x 15 14 * 16384 + mode * 4096 + nb))
    stageBits s (keepTop y nb) nb
    resultS s d e ⟨t, 0, sa, sb⟩ (w.bw.zeroExtend 64)
/-- BSPEEK: with z in any MODE, with a stream in reading mode (R139, R142). -/
def execBspeek (a d : Opd) (i : BitVec 7) (s : State) : Outcome :=
  runBody s 0x87 .plain 1 1 do
    let w ← get
    need (a == 31#5 || bwMode w.bw == 1) cIllegalOperand 0
    bitOperand s a
    let sb ← refill s a i.toNat
    let w ← get
    resultS s d 31#5 ⟨0, 0, sb, 0⟩ (BitVec.ofNat 64 (topBits w.bb i.toNat))
/-- BSGET (R142). -/
def execBsget (a d : Opd) (i : BitVec 7) (s : State) : Outcome :=
  runBody s 0x88 .plain 1 1 do
    let w ← get
    need (bwMode w.bw == 1) cIllegalOperand 0
    bitOperand s a
    let sb ← refill s a i.toNat
    let w ← get
    consume s i.toNat
    resultS s d 31#5 ⟨0, 0, sb, 0⟩ (BitVec.ofNat 64 (topBits w.bb i.toNat))
/-- BSSKIP (R142). -/
def execBsskip (a : Opd) (i : BitVec 7) (s : State) : Outcome :=
  runBody s 0x89 .plain 1 1 do
    let w ← get
    need (bwMode w.bw == 1) cIllegalOperand 0
    bitOperand s a
    let _ ← refill s a i.toNat
    consume s i.toNat

/-- The length and the index of the first code that matches, from length l on, at most n lengths (R143, R144). -/
def huffMatch (hdr : Nat) (bb : W64) (nb : Nat) : Nat → Nat → Option (Nat × Nat)
  | _, 0 => none
  | l, n + 1 =>
    if nb < l then none
    else
      let e := hdr >>> (64 * (l - 1)) % 2 ^ 64
      let first := e % 65536
      let count := e / 65536 % 65536
      let base := e / 2 ^ 32 % 65536
      let c := topBits bb l
      if first ≤ c && c - first < count then some (l, base + (c - first)) else huffMatch hdr bb nb (l + 1) n
/-- LocalRead of n bytes under every check of a local access. -/
def tableRead (s : State) (at_ n : Nat) : Body Nat := do
  checkAccess s (BitVec.ofNat 64 at_) n 1
  localRead s at_ n
/-- BSHUF (R144). -/
def execBshuf (a d e : Opd) (t : Tag) (s : State) : Outcome :=
  runBody s 0x8A .plain 1 3 do
    let w ← get
    need (bwMode w.bw == 1) cIllegalOperand 0
    bitOperand s a
    let sb ← refill s a 12
    let w ← get
    let at_ := 256 * bwHtab w.bw
    let hdr ← tableRead s at_ 96
    match huffMatch hdr w.bb (bwNb w.bw) 1 12 with
    | some (l, i) =>
      let sym ← tableRead s (at_ + 96 + 2 * i) 2
      consume s l
      resultS s d e ⟨t, 0, sb, 0⟩ (BitVec.ofNat 64 (sym + l * 65536))
    | none => resultS s d e ⟨t, 0, sb, 0⟩ 0xFFFFFFFFFFFFFFFF
/-- Whole 32-bit elements drained from a 96-bit working value to a stream, at most n; z discards them (R139, R145; 01_encoding,
R28). -/
def drainBits (s : State) (q : Option Nat) : Nat → Nat → Nat → Body (Nat × Nat)
  | 0, x, nb => pure (x, nb)
  | n + 1, x, nb =>
    if nb < 32 then pure (x, nb)
    else do
      match q with
      | some q => writeElement s q (BitVec.ofNat 512 (swap32 (x / 2 ^ 64)))
      | none => pure ()
      drainBits s q n (x * 2 ^ 32 % 2 ^ 96) (nb - 32)
/-- BSPUT (R145). A srcA that is a stream, as dstA of BSGET, may be any bound stream (DESIGN CHOICE, log entry 90). -/
def execBsput (a b d : Opd) (t : Tag) (s : State) : Outcome :=
  runBody s 0x8B .plain 1 1 do
    let w ← get
    need (bwMode w.bw == 2) cIllegalOperand 0
    bitOperand s d
    let (x, _) ← readS s a (keepIn t)
    let (y, _) ← readS s b (keepIn t)
    let n := min (bits y 6 0) 64
    let v := w.bb.toNat * 2 ^ 32 + (x.toNat % 2 ^ n) * 2 ^ (96 - bwNb w.bw - n)
    let (r, nb) ← drainBits s (if d == 31#5 then none else some (bwQs w.bw)) 3 v (bwNb w.bw + n)
    stageBits s (BitVec.ofNat 64 (r / 2 ^ 32)) nb
/-- BSFLUSH: in writing mode the last bits as one element, in reading mode the bits up to a byte boundary discarded (R145). -/
def execBsflush (d : Opd) (_t : Tag) (s : State) : Outcome :=
  runBody s 0x8C .plain 1 1 do
    let w ← get
    if bwMode w.bw == 1 && d == 31#5 then consume s (bwNb w.bw % 8)
    else
      need (bwMode w.bw == 2 && d.toNat == 24 + bwQs w.bw) cIllegalOperand 0
      bitOperand s d
      if bwNb w.bw == 0 then pure ()
      else writeElement s (bwQs w.bw) (BitVec.ofNat 512 (swap32 (w.bb.toNat / 2 ^ 32)))
      stageBits s 0 0
/-- BSSTAT (R141). -/
def execBsstat (d e : Opd) (t : Tag) (s : State) : Outcome :=
  runBody s 0x8D .plain 1 1 do
    let w ← get
    resultS s d e ⟨t, 0, 0, 0⟩ (w.bw.zeroExtend 64)

end Sys2Proof.Machine
end

