-- ==== Sys2Proof/Machine/Copies.lean ====
section
/-! DEFINITION. How the engines reach memory, and the copy engines of a cluster (05_core_memory, R169, R170; 09_memory_model,
R263, R265, R266; 13_package_memory, R359, R360). -/
namespace Sys2Proof.Machine

/-! ## Engine accesses -/

/-- The region slot of the context that issued a command. -/
def commandRegion (s : State) (c : Command) : Nat := regionOfCtx s c.cx
/-- The queue whose address space a command uses. -/
def commandQueue (s : State) (c : Command) : Nat := (regionOf s (commandRegion s c)).queue
/-- The space 10 address of an offset of a physical core. -/
def corePhys (k off : Nat) : W64 := BitVec.ofNat 64 (2 ^ 63 + 3 * 2 ^ 58 + k / 256 * 2 ^ 38 + k % 256 * 2 ^ 30 + off)
/-- The physical address that an engine's access reaches, for a command of core k: a failure gives its code; a table in a poisoned line
gives none. -/
inductive Reach where
  | at_ (pa : W64) (cmp : Bool)
  | absent (va : Nat)
  | failed (code : BitVec 8)
  | poisoned
deriving DecidableEq, Repr

/-- A resolved address taken to its place: a logical core by the core map, space 01 by translation (13_package_memory, R359). -/
def reach (s : State) (k q : Nat) (a : W64) (write : Bool) : Reach × State :=
  match bits a 63 62 with
  | 0 =>
    match boundAt s k (bits a 60 52) (bits a 51 44) with
    | some (j, _) => (.at_ (corePhys j (windowed s (bits a 60 52) (bits a 51 44) (bits a 18 0))) false, s)
    | none => (.failed cRange, s)
  | 1 =>
    match translate s k q (bits a 47 0) write with
    | (.ok pa cmp, s) => (.at_ pa cmp, s)
    | (.absent, s) => (.absent (bits a 47 0), s)
    | (.bad, s) => (.failed cPageFault, s)
    | (.poisoned, s) => (.poisoned, s)
  | _ => (.at_ a false, s)
/-- The bytes of a range from an address that lie in its first page. -/
def firstPiece (a : W64) (n : Nat) : Nat := if bits a 63 62 == 1 then min n (65536 - bits a 15 0) else n
/-- The physical core that a space 10 address names. -/
def physCore (pa : W64) : Nat := 256 * bits pa 46 38 + bits pa 37 30
/-- Whether n bytes at a physical address are uncorrectable or poisoned for an engine of a die. -/
def engineBad (s : State) (die : Nat) (pa : W64) (n : Nat) : Bool :=
  if bits pa 61 58 == 3 then portBad s (physCore pa) (bits pa 18 0) n else physBadOn s die pa n
/-- Poisoned data that an engine met counted under its stack or port (13_package_memory, R355, R372). -/
def countPoison (s : State) (pa : W64) : State :=
  if bits pa 61 58 == 1 || bits pa 61 58 == 2 then countStack s (counterPlace s pa) 5 1 else s
/-- n bytes at a physical address read by an engine of a die, through the memory port of a core. -/
def engineRead (s : State) (die : Nat) (pa : W64) (n : Nat) : List Byte × State :=
  match bits pa 61 58 with
  | 3 => (portRead s (physCore pa) (bits pa 18 0) n, countCorrected s (physCore pa) (bits pa 18 0) n)
  | 0 => (pkgBytes s (bits pa 47 0) n, s)
  | 2 => (memBytes s.tier2 (bits pa 43 0) n, countTier2Read s pa n)
  | _ => physRead s die pa n
/-- An engine's write as an operation on its way to memory outside the cores, under its command's number. -/
def engineXOp (q : Nat) (c : Command) (a pa : W64) (cmp : Bool) (bs : List Byte) (phase : XPhase) (copied : Bool)
    (mark : Nat) : XOp :=
  { req := { id := c.id, core := c.core, cx := c.cx, kind := .write bs.length (ofBytes bs), addr := a, rt := 0, rpy := false,
             fm := false, priv := true, queue := q, fails := 0, org := Origin.none }
    pa := pa, cmp := cmp, phase := phase, port := false, copyDone := copied, engine := true, mark := mark }
/-- At most 64 bytes written by an engine: to core memory through the port, redirected in a publish window; to HBM in the die's
copy first and then home; to the second tier or the host at home (05_core_memory, R171; 09_memory_model, R265, R266). -/
def engineWrite (s : State) (c : Command) (a pa : W64) (cmp : Bool) (bs : List Byte) : State :=
  match bits pa 61 58 with
  | 3 => portWrite s (physCore pa) (bits pa 18 0) bs true
  | 1 =>
    let m := s.nextId
    let s := dieWrite { s with nextId := m + 1 } (dieKey c.core) (bits pa 40 0) bs m
    addXOp s (engineXOp (commandQueue s c) c a pa cmp bs .home true m) .hbmWrite 60
  | 0 => writePkgBytes s false (bits pa 47 0) bs
  | _ => addXOp s (engineXOp (commandQueue s c) c a pa cmp bs .tier2 true 0) .secondTierAccess 1
/-- A piece of an engine's write performed: at home only, or as the copy engines write. -/
def finishWrite (s : State) (c : Command) (a pa : W64) (cmp home : Bool) (bs : List Byte) : State :=
  if home then physHomeWrite s pa bs cmp else engineWrite s c a pa cmp bs
/-- The exit of a piece of an engine's write that leaves its copy of a duplicate placement, with its region slot: the writes of a context to
one core outside the copy, or to one memory, are a stream (12_package_launch, R343; log entry 117). -/
def writeExit (s : State) (c : Command) (a pa : W64) (cmp home : Bool) (bs : List Byte) : Option (Nat × Exit) :=
  let n := regionOfCtx s c.cx
  let r := regionOf s n
  let second := !inCopy r false (c.cx / 1024) (c.cx / 4 % 256)
  let inside := bits pa 61 58 == 3 && copyCore s r second (physCore pa)
  if !r.dup || inside then none
  else
    let dest := if bits pa 61 58 == 3 then 2 ^ 17 + physCore pa else bits pa 61 58
    some (n, { second := second, pos := copyPlace r second c.cx, cls := 6, dest := dest, core := c.core, cx := c.cx % 4
               item := .write c a pa cmp home bs, since := s.now })
/-- A piece of an engine's write leaves its core, through the comparator where it leaves a copy of a duplicate placement. -/
def leaveWrite (s : State) (c : Command) (a pa : W64) (cmp home : Bool) (bs : List Byte) : State :=
  match writeExit s c a pa cmp home bs with
  | none => finishWrite s c a pa cmp home bs
  | some (n, e) =>
    match meetExit s n e with
    | (some o, s) =>
      match if e.second then o.item else e.item with
      | .write c a pa cmp home bs => finishWrite s c a pa cmp home bs
      | _ => s
    | (none, s) => s
/-- The pieces of a command's writes that wait at a comparator: physical address and length. -/
def comparedWrites (s : State) (id : Nat) : List (W64 × Nat) :=
  s.region.flatMap (fun r => r.2.exits.filterMap (fun e =>
    match e.item with | .write c _ pa _ _ bs => if c.id == id then some (pa, bs.length) else none | _ => none))
/-- Whether writes of a command are still on their way. -/
def writesOut (s : State) (id : Nat) : Bool := s.xops.any (fun o => o.req.id == id) || !(comparedWrites s id).isEmpty
/-- What an engine's access gives: bytes, or what stands in its way: an absent page, a failure, data or a table that is poisoned or
uncorrectable, a Reservoir that holds it up. -/
inductive Gather where
  | got (bs : List Byte)
  | absent (va : Nat)
  | failed (code : BitVec 8)
  | error
  | wait (w : Nat × Nat × Nat)
deriving DecidableEq, Repr

/-- A piece of a range in one page: its address, its physical address with its leaf's CMP bit, its length. -/
structure Piece where
  a : W64
  pa : W64
  cmp : Bool
  n : Nat
deriving DecidableEq, Repr

/-- The pieces of a range of n bytes that a command of core k reaches, page by page, or what stands in the way; a write to a pinned
store fails with PRIV (10_die, R291). The last number bounds the pages. -/
def reachPieces (s : State) (k q : Nat) (a : W64) (n : Nat) (write : Bool) : Nat → Except Gather (List Piece) × State
  | 0 => (.ok [], s)
  | m + 1 =>
    let n1 := firstPiece a n
    match reach s k q a write with
    | (.at_ pa cmp, s) =>
      if write && bits pa 61 58 == 4 then (.error (.failed cPriv), s)
      else if n1 == n then (.ok [⟨a, pa, cmp, n⟩], s)
      else
        match reachPieces s k q (a + BitVec.ofNat 64 n1) (n - n1) write m with
        | (.ok ps, s) => (.ok (⟨a, pa, cmp, n1⟩ :: ps), s)
        | r => r
    | (.absent va, s) => (.error (.absent va), s)
    | (.failed code, s) => (.error (.failed code), s)
    | (.poisoned, s) => (.error .error, s)
/-- The wait of an engine's pieces at their Reservoirs: of the first that waits (10_die, R292). -/
def piecesWait (s : State) (die : Nat) (ps : List Piece) : Option (Nat × Nat × Nat) :=
  (ps.map (fun p => reservoirWait s die p.pa p.n)).find? (fun w => w.2.1 != 0)
/-- Pieces read one after another by an engine of a die. -/
def readPieces (s : State) (die : Nat) : List Piece → List Byte × State
  | [] => ([], s)
  | p :: r =>
    let (b1, s) := engineRead s die p.pa p.n
    let (b2, s) := readPieces s die r
    (b1 ++ b2, s)
/-- n bytes read by an engine of a die for a command of core k; the last number bounds the pages. -/
def gatherOn (s : State) (die k q : Nat) (a : W64) (n pages : Nat) : Gather × State :=
  match reachPieces s k q a n false pages with
  | (.error g, s) => (g, s)
  | (.ok ps, s) =>
    match piecesWait s die ps with
    | some w => (.wait w, s)
    | none =>
      let s := ps.foldl (fun s p => physReady s die p.pa p.n) s
      match ps.find? (fun p => engineBad s die p.pa p.n) with
      | some p => (.error, countPoison s p.pa)
      | none =>
        let (bs, s) := readPieces s die ps
        (.got bs, s)
/-- n bytes, at most 65,536, read by an engine for a command of core k. -/
def gather (s : State) (k q : Nat) (a : W64) (n : Nat) : Gather × State := gatherOn s (dieKey k) k q a n 2
/-- Bytes written by an engine over at most two pages; nothing is written unless every page is reached. -/
def scatter (s : State) (c : Command) (q : Nat) (a : W64) (bs : List Byte) : Gather × State :=
  match reachPieces s c.core q a bs.length true 2 with
  | (.error g, s) => (g, s)
  | (.ok ps, s) =>
    match piecesWait s (dieKey c.core) ps with
    | some w => (.wait w, s)
    | none =>
      let put := fun (w : List Byte × State) (p : Piece) =>
        (w.1.drop p.n, leaveWrite w.2 c p.a p.pa p.cmp false (w.1.take p.n))
      (.got [], (ps.foldl put (bs, s)).2)

/-! ## The copy engines (05_core_memory, R169, R170) -/

/-- The range of a copy's row: source, destination, length, rows. -/
def copyRow (op : CmdOp) (row : Nat) : W64 × W64 × Nat × Nat :=
  match op with
  | .cpy src dst len => (src, dst, len, 1)
  | .cpy2 src dst len rows ss ds => (rowAddress src ss row, rowAddress dst ds row, len, rows)
  | _ => (0, 0, 0, 0)
/-- A job of a copy engine replaced. -/
def setJob (s : State) (ck e : Nat) (j : CopyJob) : State :=
  let cl := clusterOf s ck
  setCluster s ck { cl with cq := vset cl.cq e ((vget cl.cq e []).map (fun i => if i.cmd.id == j.cmd.id then j else i)) }
/-- A job taken out of its engine; the next job of its context may start. -/
def dropJob (s : State) (ck e : Nat) (c : Command) : State :=
  let cl := clusterOf s ck
  let rest := (vget cl.cq e []).filter (fun i => i.cmd.id != c.id)
  let s := setCluster s ck { cl with cq := vset cl.cq e rest }
  match rest.find? (fun i => i.cmd.cx == c.cx) with
  | some j => schedule s (s.now + 1) .copyUnit (evArgs ck e j.cmd.id)
  | none => s
/-- Whether a copy has moved all of its rows. -/
def copyDone (j : CopyJob) : Bool := let (_, _, _, rows) := copyRow j.cmd.op 0; rows ≤ j.row
/-- A refused page no longer noted against a command. -/
def undeny (s : State) (id : Nat) : State :=
  { s with pkg := { s.pkg with denied := s.pkg.denied.filter (fun n => n != id) } }
/-- Whether the gang of a command is stopped with its state saved: its engine commands that were parked wait for its resume
(13_package_memory, R361). -/
def gangAway (s : State) (addr : Nat) : Bool := (regionOf s (regionOfCtx s addr)).st == .stopped
/-- What an engine's access that does not succeed leaves of its command: it parks at a page or waits for a Reservoir, ends with a trap,
or is stopped and its gang rolls back (05_core_memory, R158, R170; 13_package_memory, R360; 10_die, R292). -/
def stopCopy (s : State) (ck e : Nat) (c : Command) (g : Gather) : State :=
  match g with
  | .absent va =>
    if s.pkg.denied.contains c.id then failCommand (dropJob (undeny s c.id) ck e c) c cPageFault
    else parkCommand s (commandQueue s c) c va .copyUnit (evArgs ck e c.id)
  | .wait w => putOff s w .copyUnit (evArgs ck e c.id)
  | .failed code => failCommand (dropJob s ck e c) c code
  | _ => consumeError (dropJob s ck e c) (commandRegion s c) cEccUe
/-- Whether a write of a command itself is still on its way to one of n bytes at a physical address. -/
def ownWrite (s : State) (c : Command) (pa : W64) (n : Nat) : Bool :=
  let size := fun (o : XOp) => match o.req.kind with | .write m _ => m | _ => 0
  s.xops.any (fun o => o.req.id == c.id && o.engine && pa.toNat < o.pa.toNat + size o && o.pa.toNat < pa.toNat + n) ||
    (comparedWrites s c.id).any (fun w => pa.toNat < w.1.toNat + w.2 && w.1.toNat < pa.toNat + n)
/-- Whether a copy's next unit is still to be written by an earlier unit of the same copy: the units go in order (R169). -/
def unitBehind (s : State) (c : Command) (q : Nat) (a : W64) (n : Nat) : Bool :=
  let n1 := firstPiece a n
  let waits := fun (a : W64) (n : Nat) => match (reach s c.core q a false).1 with | .at_ pa _ => ownWrite s c pa n | _ => false
  writesOut s c.id && (waits a n1 || (n1 < n && waits (a + BitVec.ofNat 64 n1) (n - n1)))
/-- The state after a unit has been written: the next unit or row, or the completion once every write is home. -/
def unitWritten (s : State) (ck e : Nat) (j : CopyJob) (n len : Nat) : State :=
  let j := if j.pos + n < len then { j with pos := j.pos + n, unit := none } else { j with row := j.row + 1, pos := 0, unit := none }
  let s := setJob s ck e j
  if copyDone j then schedule s (s.now + 1) .copyComplete (evArgs ck e j.cmd.id)
  else schedule s (s.now + 1) .copyUnit (evArgs ck e j.cmd.id)
/-- COPY_UNIT: a copy engine reads a command's next 64-byte unit whole, or writes the unit that it has read; the commands of one
context run one after another (R169). Operands: cluster, engine, command. -/
def execCopyUnit (s : State) : Outcome :=
  let ck := s.ev.x
  let e := s.ev.y
  let jobs := vget (clusterOf s ck).cq e []
  match jobs.find? (fun j => j.cmd.id == s.ev.z) with
  | none => .next s
  | some j =>
    let c := j.cmd
    if isParked s c.id then .next s
    else if gangAway s c.cx then .next (again s .copyUnit)
    else if copyDone j || (jobs.find? (fun i => i.cmd.cx == c.cx)).map (fun i => i.cmd.id) != some c.id then .next s
    else
      let q := commandQueue s c
      let (src, dst, len, _) := copyRow c.op j.row
      let n := min 64 (len - j.pos)
      match j.unit with
      | none =>
        if unitBehind s c q (src + BitVec.ofNat 64 j.pos) n then .next (again s .copyUnit)
        else
        match gather s c.core q (src + BitVec.ofNat 64 j.pos) n with
        | (.got bs, s) => .next (schedule (setJob s ck e { j with unit := some bs }) (s.now + 1) .copyUnit (evArgs ck e c.id))
        | (g, s) => .next (stopCopy s ck e c g)
      | some bs =>
        match scatter s c q (dst + BitVec.ofNat 64 j.pos) bs with
        | (.got _, s) => .next (unitWritten s ck e j n len)
        | (g, s) => .next (stopCopy s ck e c g)
/-- COPY_COMPLETE: a copy whose every byte is performed sets its tag (R166, R170). Operands: cluster, engine, command. -/
def execCopyComplete (s : State) : Outcome :=
  let ck := s.ev.x
  let e := s.ev.y
  match (vget (clusterOf s ck).cq e []).find? (fun j => j.cmd.id == s.ev.z) with
  | none => .next s
  | some j =>
    if !copyDone j then .next s
    else if writesOut s j.cmd.id then .next (again s .copyComplete)
    else .next (completeCommand (dropJob s ck e j.cmd) j.cmd.cx j.cmd.id j.cmd.tag)

end Sys2Proof.Machine
end

