-- ==== Sys2Proof/Machine/Mesh.lean ====
section
/-! DEFINITION. The mesh: routes, router and cistern places, hops, delivery acknowledgements, switches of bank and binding,
atomics merged on the way, and the Confluence trees (08_cluster, R233 to R247; 10_die, R282, R284, R285). -/
namespace Sys2Proof.Machine

/-! ## Places (08_cluster, R233, R234; 10_die, R282) -/

/-- The output port of a router towards a core, in a bank of its tables (R238). -/
def routePort (s : State) (k dst bank : Nat) : Nat :=
  if dst / 256 != k / 256 then routeEntry s k (0x400 * bank + dst / 256) else routeEntry s k (0x400 * bank + 0x200 + dst % 256)
/-- The output port of a router for a flit: local 0, W 1, N 2, E 3, S 4, by the bank that the flit carries (R239). -/
def outputPort (s : State) (k : Nat) (f : Flit) : Nat := routePort s k f.dst f.bank
/-- The router that an output port leads to; none past the edge of the package. -/
def neighbour (k out : Nat) : Option Nat :=
  match out with
  | 1 => if k / 256 == 0 then none else some (k - 256)
  | 2 => if k % 256 == 0 then none else some (k - 1)
  | 3 => if 311 ≤ k / 256 then none else some (k + 256)
  | 4 => if k % 256 == 255 then none else some (k + 1)
  | _ => none
/-- The input port at which a flit arrives that left by an output port. -/
def inputPort (out : Nat) : Nat := match out with | 1 => 3 | 2 => 4 | 3 => 1 | 4 => 2 | _ => 0
/-- The VF region of a core, by die and number. -/
def vfNumber (s : State) (k : Nat) : Nat := 4 * dieKey k + vfIndex (dieOf s (dieKey k)) (clusterKey k % 12)
/-- Whether a link between two routers passes a cistern. -/
def crosses (s : State) (a b : Nat) : Bool := vfNumber s a != vfNumber s b
/-- The band entry of a die's link that leaves by an output port: edge, direction 0, link by row or by column (10_die, R286). -/
def bandIndex (k out : Nat) : Nat :=
  let col := k / 256 % 39
  let i := if out == 1 || out == 3 then k % 32 else 12 * (col / 13) + min (col % 13) 11
  72 * (out - 1) + i
/-- The shared places of a cistern: CDEPTH of a stitch, 12 inside a die (10_die, R282). -/
def cisternDepth (s : State) (k next out : Nat) : Nat :=
  if dieKey k == dieKey next then 12 else bits (tget (dieOf s (dieKey k)).band 0 (bandIndex k out)) 23 16
/-- LO of a crossing, in ticks; inside a die the band has W = 1 (10_die, R283, R286). -/
def cisternDelay (s : State) (k next out : Nat) : Nat :=
  if dieKey k == dieKey next then 1 + (200 + (vfOfCore s next).freq - 1) / (vfOfCore s next).freq
  else bits (tget (dieOf s (dieKey k)).band 0 (bandIndex k out)) 7 0
/-- The flits that wait in a router's input of a class, or in the cistern before it. -/
def flitsAt (s : State) (k port cls : Nat) (cistern : Bool) : List Flit :=
  s.flits.filter (fun f => f.at_ == k && f.port == port && f.cls == cls && f.cistern == cistern)
/-- The place that a flit takes in a cistern: a shared one, else a reserved one of its class, else none (10_die, R282). -/
def cisternPlace (s : State) (k next out cls : Nat) : Option Bool :=
  let here := s.flits.filter (fun f => f.at_ == next && f.port == inputPort out && f.cistern)
  if (here.filter (fun f => !f.reserved)).length < cisternDepth s k next out then some false
  else if (here.filter (fun f => f.reserved && f.cls == cls)).length < (if cls == 3 then 4 else 2) then some true
  else none
/-- Whether a router's input has a free buffer place of a class (R234). -/
def bufferFree (s : State) (k port cls : Nat) : Bool := (flitsAt s k port cls false).length < (if cls == 3 then 4 else 8)
/-- The first flit of a router's input, or of a cistern, changed or taken out. -/
def editHead (p : Flit → Bool) (f : Flit → Option Flit) : List Flit → List Flit
  | [] => []
  | x :: r => if p x then (match f x with | some y => y :: r | none => r) else x :: editHead p f r
/-- The state with the head of a router's input or cistern changed; a flit that moves goes behind those already there. -/
def moveHead (s : State) (k port cls : Nat) (cistern : Bool) (to_ : Option Flit) : State :=
  let mine := fun (f : Flit) => f.at_ == k && f.port == port && f.cls == cls && f.cistern == cistern
  { s with flits := editHead mine (fun _ => none) s.flits ++ to_.toList }

/-! ## Ejection (08_cluster, R237, R241) -/

/-- The step that takes a message of a core. -/
def takeStep (p : Payload) : Instr :=
  match p with
  | .token _ _ _ => .tokenArrival
  | .request r => serveStep r
  | .reply _ _ _ => .replyArrival
  | .failed _ _ _ _ _ _ _ _ => .failedRequest
  | .credit _ _ => .creditReturn
  | .tret _ _ _ => .tretMessageArrival
  | .barArrive _ _ _ _ => .barrierArrival
  | .barDone _ _ _ => .barrierCompletionArrival
  | .pairHalf _ _ _ _ => .pairHalfArrival
  | .pairTimeout _ _ => .pairTimeoutMessage
  | .pairAbort _ _ => .pairAbortMessage
  | .record _ _ _ _ => .trapRecordDelivery
  | .partials _ _ _ _ _ _ _ => .confluenceCombine
  | .vote _ _ _ _ _ => .voteArrival
  | .memberAck _ _ _ _ => .blockAck
  | .branchAck _ _ _ => .blockAck
  | .wake _ _ => .cgwakeArrival
  | .acks _ => .deliveryAck
  | .sluice _ _ => .gangStop
  | .still _ _ _ _ => .sweepResult
  | .ask _ => .stillSweep
/-- A request at its target: sent on where its logical core has moved, else accepted by the memory port. -/
def acceptRequest (s : State) (k orig : Nat) (r : Request) : State :=
  match movedTo s k r with
  | some j => forwardFlit s 0 k j orig (.request r)
  | none =>
    let n := (leaves s r (mergeDepth s)).length
    let c := coreOf s k
    schedule (setCore s k { c with portq := c.portq ++ [r], rcvd := c.rcvd + BitVec.ofNat 64 n }) s.now (serveStep r) (evArgs k 0 0)
/-- The input at which a partial from a neighbour counts: W 1, N 2, E 3, S 4. -/
def partialInput (k src : Nat) : Nat :=
  if src + 256 == k then 1 else if src + 1 == k then 2 else if k + 256 == src then 3 else 4
/-- The cores that wait for the acknowledgement of a flit: the source, or each source of a merged request; nobody waits for one of an
acknowledgement, which would never end, or of what a unit that is no core has sent (R237, R242; DESIGN CHOICE, log entry 101). -/
def ackSources (s : State) (f : Flit) : List Nat :=
  match f.body with
  | .request r => if f.src == f.orig then (leaves s r (mergeDepth s)).map Request.core else [f.src]
  | .acks _ => []
  | .ask _ => []
  | .branchAck _ _ _ => []
  | _ => [f.src]
/-- Flits ejected at a core that are to be acknowledged, within 32 cycles (R237). -/
def oweAcks (s : State) (k : Nat) (f : Flit) : State :=
  (ackSources s f).foldl (fun s j =>
    let c := coreOf s k
    schedule (setCore s k { c with owed := c.owed ++ [(j, f.cls)] }) s.now .deliveryAck { evArgs k j 0 with v := 1 }) s
/-- A message whose body first came from a core, put among those that wait at a core, or at the hub of its die. -/
def postFlit (s : State) (k : Nat) (f : Flit) : State :=
  let dst := match f.body with | .vote _ _ _ _ _ => dieKey k | .memberAck _ _ _ _ => dieKey k | .branchAck _ _ _ => dieKey k | _ => k
  { s with nextId := s.nextId + 1, msgs := s.msgs ++ [{ id := s.nextId, src := f.orig, dst := dst, body := f.body, moved := f.src != f.orig }] }
/-- The v operand of the step that takes a message: 1 where the step has another use of its operands. -/
def takeForm (p : Payload) : W64 := match p with | .sluice _ _ => 1 | .still _ _ _ _ => 1 | .ask _ => 1 | _ => 0
/-- A flit ejected at its destination: its message waits for its step, behind those that come before it, and its source is to be
acknowledged. -/
def eject (s : State) (k : Nat) (f : Flit) : State :=
  let s := oweAcks s k f
  let moved := f.src != f.orig
  match f.body with
  | .request r =>
    if !(msgsBetween s f.orig k 0).isEmpty || (!moved && lagging s f.orig k 0) then
      schedule (postFlit s k f) s.now .flitHop { evArgs s.nextId 0 0 with v := 2 }
    else acceptRequest s k f.orig r
  | .partials tree v op vec all fm bad =>
    let c := coreOf s k
    let i : RedIn := { tree := tree, input := partialInput k f.src, val := v, op := op, vec := vec, all := all, fm := fm, bad := bad }
    schedule (setCore s k { c with redIn := c.redIn ++ [i] }) s.now .confluenceCombine (evArgs k tree 0)
  | p => schedule (postFlit s k f) s.now (takeStep p) { evArgs s.nextId 0 0 with v := takeForm p }

/-! ## Hops (08_cluster, R233 to R236, R242; 10_die, R282, R284, R285) -/

/-- Whether two atomics may be merged: same address, width and mergeable sub-operation, no source in common (R242). -/
def mergeable (s : State) (a b : Request) : Bool :=
  let from_ := fun (r : Request) => (leaves s r (mergeDepth s)).map Request.core
  match a.kind, b.kind with
  | .amo o z _ _, .amo p y _ _ => o == p && z == y && o ≤ 7 && a.addr == b.addr && (from_ a).all (fun k => !(from_ b).contains k)
  | _, _ => false
/-- Two atomics as one request with the combined operand. -/
def merged (a b : Request) (id : Nat) : Request :=
  match a.kind, b.kind with
  | .amo o z x c, .amo _ _ y _ =>
    { a with id := id, kind := .amo o z (BitVec.ofNat 64 (amoResult o z x.toNat y.toNat 0).1) c, rpy := a.rpy || b.rpy }
  | _, _ => a
/-- The request at the head of an input port's REQ buffer, with the bank of its flit. -/
def headRequest (s : State) (k port : Nat) : Option (Request × Nat) :=
  match (flitsAt s k port 0 false).head? with
  | some f => match f.body with | .request r => some (r, f.bank) | _ => none
  | none => none
/-- The input ports that a merged request still in its router holds: nothing else of a source passes its atomic (R235, R242). -/
def heldPorts (s : State) (k id : Nat) : List Nat :=
  ((coreOf s k).splits.filter (fun p => p.id == id)).flatMap (fun p => p.ports)
/-- Whether an input port's REQ buffer waits for a merged request to leave the router. -/
def portHeld (s : State) (k port : Nat) : Bool :=
  s.flits.any (fun f => f.at_ == k && !f.cistern &&
    (match f.body with | .request r => (heldPorts s k r.id).contains port | _ => false))
/-- The heads of two input ports merged at a router: the merged request takes the earlier port's place, a split record is kept,
the merge is counted; none when the head of a port matches no other (R242). Heads under different banks are not merged: what their
sources send later would leave the merged request's path (R235, R240; DEDUCED, log entry 102). -/
def mergeHeads (s : State) (k port : Nat) : Option State :=
  match headRequest s k port with
  | none => none
  | some (r, bank) =>
    let fits := fun (p : Nat) => p != port &&
      (match headRequest s k p with | some (q, b) => b == bank && mergeable s r q | none => false)
    match (List.range 5).find? fits with
    | none => none
    | some p =>
      match headRequest s k p with
      | none => none
      | some (q, _) =>
        let (first, second, keep, drop) := if port < p then (r, q, port, p) else (q, r, p, port)
        let m := merged first second s.nextId
        let ports := drop :: (heldPorts s k r.id ++ heldPorts s k q.id)
        let mine := fun (f : Flit) => f.at_ == k && f.port == keep && f.cls == 0 && !f.cistern
        let s := moveHead s k drop 0 false none
        let s := { s with nextId := s.nextId + 1, flits := editHead mine (fun f => some { f with body := .request m }) s.flits }
        let c := coreOf s k
        let s := setCore s k { c with splits := c.splits ++ [{ id := m.id, first := first, second := second, ports := ports }] }
        let cl := clusterOf s (clusterKey k)
        some (setCluster s (clusterKey k) { cl with cnt := vset cl.cnt 5 (satAdd (vget cl.cnt 5 0) 1) })
/-- The window of 256 cycles of a core's region that is under way (10_die, R284). -/
def weirWindow (s : State) (k : Nat) : Nat := clusterCycles s (clusterKey k) / 256
/-- Whether the weir lets a core inject a flit: REQ and RED from the local port are counted in a window (R284). -/
def weirHolds (s : State) (k port cls : Nat) : Bool :=
  let c := coreOf s k
  port == 0 && (cls == 0 || cls == 2) && c.win == weirWindow s k && coreWeirEff s k ≤ c.winCount
/-- An injected flit counted against the weir. -/
def countWeir (s : State) (k port cls : Nat) : State :=
  let c := coreOf s k
  if port == 0 && (cls == 0 || cls == 2) then
    let w := weirWindow s k
    setCore s k { c with win := w, winCount := if c.win == w then c.winCount + 1 else 1 }
  else s
/-- A cluster that is in retention, or on its way in or out, whose core a flit addresses: the exit starts, and the flit waits
(08_cluster, R255). -/
def asleep (s : State) (k : Nat) (f : Flit) : Bool := clusterKey f.dst == clusterKey k && (clusterOf s (clusterKey k)).rstate != 0
/-- Whether a link out of a router exists: one to another die does when its band entry is valid (10_die, R286). -/
def linkUp (s : State) (k next out : Nat) : Bool :=
  dieKey k == dieKey next || bitAt (tget (dieOf s (dieKey k)).band 0 (bandIndex k out)) 31
/-- Whether a flit of a class finds a place behind an output port: at the core itself, in the next router, or in the cistern
before it. -/
def placeFree (s : State) (k out cls : Nat) : Bool :=
  if out == 0 then true
  else match neighbour k out with
    | none => false
    | some next =>
      if crosses s k next then linkUp s k next out && (cisternPlace s k next out cls).isSome
      else bufferFree s next (inputPort out) cls
/-- Whether the head of a router's input waits for an output and could take it: it has come so far, and no weir, no sleeping cluster, no
merged request and no full place holds it. -/
def headReady (s : State) (k out port cls : Nat) : Bool :=
  match (flitsAt s k port cls false).head? with
  | none => false
  | some f =>
    f.ready ≤ s.now && outputPort s k f == out && !weirHolds s k port cls && !asleep s k f && !(cls == 0 && portHeld s k port) &&
      placeFree s k out cls
/-- Whether any input of a router has a head of a class that could take an output. -/
def classWaits (s : State) (k out cls : Nat) : Bool := (List.range 5).any (fun p => headReady s k out p cls)
/-- Whether an output of a router is another's in this cycle: it grants one flit a cycle, a waiting CTL flit first, then REQ, RSP and RED
in rotating order after the class granted last (R234). -/
def outputTaken (s : State) (k out cls : Nat) : Bool :=
  let (at_, last) := tget (coreOf s k).outs (0, 2) out
  at_ == clusterCycles s (clusterKey k) + 1 ||
    (cls != 3 && (classWaits s k out 3 ||
      (List.range 3).any (fun i => (last + 1 + i) % 3 != cls && i < (cls + 5 - last) % 3 && classWaits s k out ((last + 1 + i) % 3))))
/-- A grant of an output noted: its cycle, counted from 1, and for REQ, RSP and RED its class. -/
def noteGrant (s : State) (k out cls : Nat) : State :=
  let c := coreOf s k
  let last := (tget c.outs (0, 2) out).2
  setCore s k { c with outs := tput c.outs out (clusterCycles s (clusterKey k) + 1, if cls == 3 then last else cls) }
/-- A cycle of a core's clock in which the cistern behind an output refused a flit, counted once; with every 1,024 such cycles in a row
the sender's region halves its weir limit (10_die, R282, R285). -/
def refuse (s : State) (k out : Nat) : State :=
  let c := coreOf s k
  let now := clusterCycles s (clusterKey k)
  let (last, run) := vget c.refused out (0, 0)
  let n := if run == 0 then 1 else now - last
  let s := setCore (countDie s (dieKey k) 1 n) k { c with refused := vset c.refused out (now, run + n) }
  (List.range ((run + n) / 1024 - run / 1024)).foldl (fun s _ => schedule s s.now .weirHalve (evArgs (dieKey k) (vfNumber s k % 4) 0)) s
/-- The run of refusals of the cistern behind an output ended once no flit waits there that finds no place (10_die, R285). -/
def endRefusals (s : State) (k out : Nat) : State :=
  let c := coreOf s k
  let waits := fun (p cls : Nat) =>
    match (flitsAt s k p cls false).head? with | some f => outputPort s k f == out && !placeFree s k out cls | none => false
  if (List.range 5).any (fun p => (List.range 4).any (waits p)) then s
  else setCore s k { c with refused := vset c.refused out (clusterCycles s (clusterKey k), 0) }
/-- A flit put off for a cycle. -/
def stall (s : State) (k : Nat) : State := schedule s (s.now + ticksOf s k 1) .flitHop s.ev
/-- A flit leaves a router for the next one: into its buffer, or into the cistern between them. -/
def forward (s : State) (k port cls out next : Nat) (f : Flit) : State :=
  let into := { f with at_ := next, port := inputPort out, cistern := false, reserved := false }
  if crosses s k next then
    if !linkUp s k next out then stall s k
    else match cisternPlace s k next out cls with
    | some res =>
      let due := s.now + cisternDelay s k next out
      let s := countWeir (moveHead s k port cls false (some { into with cistern := true, reserved := res, ready := due })) k port cls
      schedule (endRefusals s k out) due .flitHop { evArgs next (inputPort out) cls with v := 1 }
    | none => stall (refuse s k out) k
  else if bufferFree s next (inputPort out) cls then
    let due := s.now + ticksOf s k 2
    let s := countWeir (moveHead s k port cls false (some { into with ready := due })) k port cls
    schedule s due .flitHop (evArgs next (inputPort out) cls)
  else stall s k
/-- A flit out of a cistern into the router behind it. -/
def leaveCistern (s : State) (k port cls : Nat) : State :=
  match (flitsAt s k port cls true).head? with
  | none => s
  | some f =>
    if s.now < f.ready || clockStopped s k || !bufferFree s k port cls then stall s k
    else
      let due := s.now + ticksOf s k 1
      let s := moveHead s k port cls true (some { f with cistern := false, reserved := false, ready := due })
      schedule s due .flitHop (evArgs k port cls)
/-- The head of a router's input goes one hop, when its output is its own in this cycle. -/
def hop (s : State) (k port cls : Nat) : State :=
  match (flitsAt s k port cls false).head? with
  | none => s
  | some f =>
    if s.now < f.ready || clockStopped s k || weirHolds s k port cls || (cls == 0 && portHeld s k port) then stall s k
    else if asleep s k f then
      let c := clusterOf s (clusterKey k)
      let s := schedule s s.now .retentionExitStart (evArgs (clusterKey k) 0 0)
      if cls == 3 && c.wake.length < 4 then
        setCluster (moveHead s k port cls false none) (clusterKey k) { c with wake := c.wake ++ [f] }
      else stall s k
    else
      let out := outputPort s k f
      if outputTaken s k out cls then stall s k
      else
        let s := if placeFree s k out cls then noteGrant s k out cls else s
        if out == 0 then eject (countWeir (moveHead s k port cls false none) k port cls) k f
        else
          match neighbour k out with
          | some next => forward s k port cls out next f
          | none => stall s k
/-- A request that waits at its target behind others is accepted once it is the next. -/
def takeRequest (s : State) : State :=
  match msgOf s s.ev.x with
  | some ⟨id, src, k, .request r, _⟩ => acceptRequest (dropMsg s id) k src r
  | _ => waitMsg s .flitHop
/-- FLIT_HOP: a router forwards the head flit of an input one hop, merging atomics that match, or a cistern gives one up to its
router, or a request is accepted that had to wait at its target. Operands: core, port, class; v is 1 for the cistern before the port;
v is 2 for a waiting request, x its message. -/
def execFlitHop (s : State) : Outcome :=
  let k := s.ev.x
  let port := s.ev.y
  let cls := s.ev.z
  if s.ev.v == 1 then .next (leaveCistern s k port cls)
  else if s.ev.v == 2 then .next (takeRequest s)
  else
    match (if cls == 0 then mergeHeads s k port else none) with
    | some s => .next (stall s k)
    | none => .next (hop s k port cls)

/-! ## Acknowledgements and switches (08_cluster, R237, R240, R241) -/

/-- The flits of a class that a core has outstanding. -/
def outstanding (c : Core) (cls : Nat) : Nat := ((c.outst.filter (fun o => o.1 == cls)).map (fun o => o.2.2)).sum
/-- The flits that a core has outstanding towards a core. -/
def outstandingTo (c : Core) (dst : Nat) : Nat := ((c.outst.filter (fun o => o.2.1 == dst)).map (fun o => o.2.2)).sum
/-- A source's outstanding count towards a core lowered by one (R237). -/
def lowerCount (dst : Nat) (c : Core) (cls : Nat) : Core :=
  let one := fun (o : Nat × Nat × Nat) => if o.1 == cls && o.2.1 == dst then (o.1, o.2.1, o.2.2 - 1) else o
  { c with outst := (c.outst.map one).filter (fun o => o.2.2 != 0) }
/-- An acknowledgement reaches its source, which lowers its counts; at zero a switch or a rebinding that waits for it may come. -/
def takeAcks (s : State) (k dst : Nat) (classes : List Nat) : State :=
  let c := classes.foldl (lowerCount dst) (coreOf s k)
  let s := setCore s k c
  let s := if (clusterOf s (clusterKey k)).rtSw then
      (List.range 4).foldl (fun s cls =>
        if classes.contains cls && outstanding c cls == 0 then schedule s s.now .routeClassSwitch (evArgs k cls 0) else s) s
    else s
  c.cmap.foldl (fun s e => schedule s s.now .coreMapRebind (evArgs k e.1 0)) s
/-- The acknowledgement flit of a core to a source, for up to 16 of the flits that it has ejected. -/
def sendAcks (s : State) (k src : Nat) : State :=
  let c := coreOf s k
  let mine := (c.owed.filter (fun o => o.1 == src)).take 16
  if mine.isEmpty then s
  else injectFlit (setCore s k { c with owed := mine.foldl (fun l o => l.erase o) c.owed }) 3 k src k (.acks (mine.map (fun o => o.2)))
/-- DELIVERY_ACK: a destination router sends its acknowledgement of up to 16 flits of a source on CTL, or one reaches its source, whose
outstanding counts it lowers (R237). Operands: message; v is 1 for the sending: core, source. -/
def execDeliveryAck (s : State) : Outcome :=
  if s.ev.v == 1 then .next (sendAcks s s.ev.x s.ev.y)
  else
    match msgOf s s.ev.x with
    | some ⟨id, src, k, .acks classes, _⟩ => .next (takeAcks (dropMsg s id) k src classes)
    | _ => .next (waitMsg s .deliveryAck)
/-- ROUTE_CLASS_SWITCH: a source core with nothing outstanding of a class selects the bank that ACT names; when every core of the
cluster has, DONE is set, and SW clears with the last class (R238, R240). Operands: core, class. -/
def execRouteClassSwitch (s : State) : Outcome :=
  let k := s.ev.x
  let cls := s.ev.y
  let ck := clusterKey k
  let cl := clusterOf s ck
  let c := coreOf s k
  if !cl.rtSw || outstanding c cls != 0 then .next s
  else
    let s := setCore s k { c with bank := putBits c.bank cls cls (ofBool cl.rtAct) }
    if (clusterCores ck).all (fun j => bitAt (coreOf s j).bank cls == cl.rtAct) then
      let done := putBits cl.rtDone cls cls 1
      .next (setCluster s ck { cl with rtDone := done, rtSw := done != 15 })
    else .next s
/-- CORE_MAP_REBIND: a source core with nothing outstanding towards a logical core's old place uses its new binding and invalidates its
cache's entry (R241).
Operands: core, target as 256 X + Y. -/
def execCoreMapRebind (s : State) : Outcome :=
  let k := s.ev.x
  let c := coreOf s k
  match c.cmap.find? (fun e => e.1 == s.ev.y) with
  | none => .next s
  | some (_, e) =>
    if bitAt e 63 && outstandingTo c (256 * bits e 57 49 + bits e 48 41) != 0 then .next s
    else .next (setCore s k { c with cmap := c.cmap.filter (fun x => x.1 != s.ev.y), mapc := c.mapc.filter (fun x => x.1 != s.ev.y) })

/-! ## Confluence trees (08_cluster, R243 to R247) -/

/-- An operator on two numbers of a width; 8 to 10 are FP32, 11 FP64 (R246). -/
def redWord (op w x y : Nat) : Nat × Flags :=
  match op with
  | 8 => fpAdd 2 0 (x % 2 ^ 32) (y % 2 ^ 32)
  | 9 => fpMinMax 2 true (x % 2 ^ 32) (y % 2 ^ 32)
  | 10 => fpMinMax 2 false (x % 2 ^ 32) (y % 2 ^ 32)
  | 11 => fpAdd 1 0 x y
  | _ => ((amoResult op (w / 8) x y 0).1, 0)
/-- An operator on two contributions: one scalar, or lane by lane, with the NV and OF events of each lane (R246). -/
def redCombine (op : Nat) (vec : Bool) (x y : V512) : V512 × Nat × Nat :=
  let w := if !vec || op == 11 then 64 else 32
  let n := if vec then 512 / w else 1
  (List.range n).foldl (fun (acc : V512 × Nat × Nat) i =>
    let (v, f) := redWord op w (bits x (w * i + w - 1) (w * i)) (bits y (w * i + w - 1) (w * i))
    (putBits acc.1 (w * i + w - 1) (w * i) v, acc.2.1 + ofBool (bitAt f 4), acc.2.2 + ofBool (bitAt f 2))) (0, 0, 0)
/-- The first contribution at an input of a tree. -/
def redInput (c : Core) (tree i : Nat) : Option RedIn := c.redIn.find? (fun r => r.tree == tree && r.input == i)
/-- The inputs that a router's entry asks for, in the order local, W, N, E, S (R244). -/
def redWanted (e : W16) : List Nat := (if bitAt e 14 then [0] else []) ++ ((List.range 4).filter (fun i => bitAt e (8 + i))).map (· + 1)
/-- A list of contributions without the first at each input of a tree. -/
def dropInputs (tree : Nat) (is : List Nat) (l : List RedIn) : List RedIn :=
  is.foldl (fun l i => match l.find? (fun r => r.tree == tree && r.input == i) with | some r => l.erase r | none => l) l
/-- Two contributions of a generation combined; a difference in OP, V, ALL or fm ends it with a code (R246, R247). -/
def redStep (acc : RedIn × Nat × Nat) (y : RedIn) : RedIn × Nat × Nat :=
  let x := acc.1
  if x.bad != 0 then acc
  else if y.bad != 0 then ({ x with bad := y.bad }, acc.2)
  else if x.op != y.op || x.vec != y.vec || x.all != y.all then ({ x with bad := cIllegalOperand }, acc.2)
  else if x.fm != y.fm then ({ x with bad := cFmtMode }, acc.2)
  else
    let (v, nv, of_) := redCombine x.op x.vec x.val y.val
    ({ x with val := v }, acc.2.1 + nv, acc.2.2 + of_)
/-- A step of a generation with the residue check of the router's adders: a mismatch recomputes the step once; a second one ends the
generation with RESIDUE (R246). The adder upsets left are counted down. -/
def redChecked (acc : (RedIn × Nat × Nat) × Nat) (y : RedIn) : (RedIn × Nat × Nat) × Nat :=
  let ok := acc.1.1.bad == 0 && (redStep acc.1 y).1.bad == 0
  match ok, acc.2 with
  | true, 1 => (redStep acc.1 y, 0)
  | true, n + 2 => (({ acc.1.1 with bad := cResidue }, acc.1.2), n)
  | _, n => (redStep acc.1 y, n)
/-- The machine check of a router's adders: no context, unit 0, INFO the tree; the residues are free numbers (R246; 07_core_failures,
R220; log entry 98). -/
def redCheck (s : State) (k tree : Nat) : State :=
  let (f, s) := takeFresh s
  takeUnitCheck s k { code := cResidue, kind := 2, rule := 0, word := 0, opcode := 0, unit := 0, lane := 0, exp := Config.residue (2 * f),
                      obs := Config.residue (2 * f + 1), info := BitVec.ofNat 64 tree }
/-- A value as a contribution of OP and V carries it: a scalar FP32 one is zero-extended (R246). -/
def redValue (r : RedIn) : RedIn :=
  if !r.vec && 8 ≤ r.op && r.op ≤ 10 then { r with val := BitVec.ofNat 512 (r.val.toNat % 2 ^ 32) } else r
/-- The fmt of a reduction's result (R247). -/
def redFormat (op : Nat) : Nat := if op == 11 then 1 else if 8 ≤ op && op ≤ 10 then 2 else 0
/-- The result given to the first waiting contribution of a tree on a core, sent from the root (R247). -/
def redReply (root : Nat) (r : RedIn) (s : State) (k : Nat) : State :=
  let c := coreOf s k
  match c.redWait.find? (fun w => w.tree == r.tree) with
  | none => s
  | some w =>
    let v := if r.bad != 0 then r.bad.zeroExtend 512 else r.val
    let t := replyToken w.cx w.rt r.fm r.vec (r.bad != 0) (redFormat r.op) v
    sendReply (endAccess (setCore s k { c with redWait := c.redWait.erase w }) w.cx w.id) (some root) w.cx w.id t
/-- A partial sent to a neighbouring router. -/
def sendPartial (s : State) (k : Nat) (y : RedIn) (next : Nat) : State :=
  sendFlit s 2 k next (.partials y.tree y.val y.op y.vec y.all y.fm y.bad)
/-- A partial leaves its router, through the comparator where it leaves a copy of a duplicate placement; its stream is its core's place in
the copy and its tree (12_package_launch, R343; log entry 117). -/
def leavePartial (s : State) (k : Nat) (y : RedIn) (next : Nat) : State :=
  let here := fun (e : Nat × Region) => e.2.dup && e.2.st != .free && (copyCore s e.2 false k || copyCore s e.2 true k)
  match s.region.find? here with
  | none => sendPartial s k y next
  | some (n, r) =>
    let second := copyCore s r true k
    match r.seats.find? (fun t => (placeOf s t.x t.y).any (fun p => p.1 == k)) with
    | none => sendPartial s k y next
    | some t =>
      if copyCore s r second next then sendPartial s k y next
      else
        let e : Exit := { second := second, pos := copyPlace r second (ctxNumber t.x t.y 0), cls := 2, dest := y.tree, core := k, cx := 0
                          item := .partials { y with input := 0 } next, since := s.now }
        match meetExit s n e with
        | (some o, s) =>
          match o.item, second with
          | .partials p to_, true => sendPartial s o.core p to_
          | _, _ => sendPartial s k y next
        | (none, s) => s
/-- CONFLUENCE_COMBINE: a router combines one generation of a tree once its own contribution and every child's partial are
there, and passes it on, or delivers it at the root (R244 to R247). Operands: core, tree. -/
def execConfluenceCombine (s : State) : Outcome :=
  let k := s.ev.x
  let tree := s.ev.y
  let c := coreOf s k
  let e := vget c.trn tree 0
  let is := redWanted e
  let xs := is.filterMap (redInput c tree)
  match treeOn e && xs.length == is.length, xs with
  | true, x :: r =>
    let ((y, nv, of_), left) := r.foldl redChecked ((redValue x, 0, 0), c.redUpsets)
    let s := setCore s k { c with redIn := dropInputs tree is c.redIn, redUpsets := left }
    let s := if y.bad == cResidue && r.all (fun i => i.bad != cResidue) && x.bad != cResidue then redCheck s k tree else s
    let cl := clusterOf s (clusterKey k)
    let cnt := vset cl.cnt 1 (satAdd (vget cl.cnt 1 0) nv)
    let s := setCluster s (clusterKey k) { cl with cnt := vset cnt 2 (satAdd (vget cnt 2 0) of_) }
    let s := schedule s s.now .confluenceCombine s.ev
    if bits e 7 5 == 4 then
      if y.all || y.bad != 0 then .next ((clusterCores (clusterKey k)).foldl (redReply k y) s) else .next (redReply k y s k)
    else
      match neighbour k (bits e 7 5 + 1) with
      | some next => .next (leavePartial s k { y with tree := tree } next)
      | none => .next s
  | _, _ => .next s

end Sys2Proof.Machine
end

