-- ==== Sys2Proof/Machine/ClusterUnit.lean ====
section
/-! DEFINITION. The units of a cluster: barriers, pairing buffers, delivery of trap records, retention (08_cluster, R248 to R256,
R258). -/
namespace Sys2Proof.Machine

/-- A counter of a cluster increased (08_cluster, R259). -/
def countCluster (s : State) (cl n m : Nat) : State :=
  let c := clusterOf s cl
  setCluster s cl { c with cnt := vset c.cnt n (satAdd (vget c.cnt n 0) m) }

/-! ## Barriers (08_cluster, R248, R258) -/

/-- A barrier of a cluster replaced. -/
def setBarrier (s : State) (cl k : Nat) (b : Barrier) : State :=
  let c := clusterOf s cl
  setCluster s cl { c with bar := vset c.bar k b }
/-- The end of a generation: every arrived member is told on CTL, and the next generation begins. -/
def endGeneration (s : State) (cl k : Nat) (cancel : Bool) : State :=
  let b := vget (clusterOf s cl).bar k Barrier.reset
  let s := setBarrier s cl k { b with arr := 0, gen := b.gen + 1, members := [], deadline := none, frozen := none }
  b.members.foldl (fun s m =>
    sendFlit s 3 (barrierCore cl) ((coreOfAddr s m.2).getD m.1) (.barDone m.2 k cancel)) s
/-- BARRIER_ARRIVAL: the barrier unit counts an arrival, keeps the least deadline, and completes the generation at COUNT (R248,
R258). Operand: message. -/
def execBarrierArrival (s : State) : Outcome :=
  match msgOf s s.ev.x with
  | some ⟨id, _, dst, .barArrive k core addr timeout, _⟩ =>
    let s := dropMsg s id
    let cl := clusterKey dst
    let b := vget (clusterOf s cl).bar k Barrier.reset
    let end_ := clusterCycles s cl + timeout
    let least := fun (d : Option Nat) (t : Nat) => some (match d with | some d => min d t | none => t)
    let b := { b with arr := b.arr + 1, members := b.members ++ [(core, addr)] }
    let b := if timeout == 0 then b
      else if (coreOf s core).stopped then { b with frozen := least b.frozen timeout }
      else { b with deadline := least b.deadline end_ }
    let s := setBarrier s cl k b
    if b.arr == b.count then .next (endGeneration s cl k false)
    else if timeout == 0 then .next s
    else .next (schedule s (s.now + vfTicks (vfOfCluster s cl) timeout) .bartTimeout (evArgs cl k 0))
  | _ => .next (waitMsg s .barrierArrival)
/-- BARRIER_COMPLETION_ARRIVAL: a completion or cancellation reaches a member: its arrival is no longer pending, and the tag that
it named is set (R248, R258). Operand: message. -/
def execBarrierCompletionArrival (s : State) : Outcome :=
  match msgOf s s.ev.x with
  | some ⟨id, _, _, .barDone addr k cancel, _⟩ =>
    .next (modCtx (dropMsg s id) addr (fun x =>
      let tag := if cancel then vget x.barTout k none else vget x.barTag k none
      { x with
        barPend := x.barPend &&& ~~~(1#16 <<< k)
        tb := match tag with | some n => x.tb ||| (1#64 <<< n) | none => x.tb }))
  | _ => .next (waitMsg s .barrierCompletionArrival)
/-- BART_TIMEOUT: the least deadline of a generation has passed: the generation is cancelled and counted (R258). Operands:
cluster, barrier. -/
def execBartTimeout (s : State) : Outcome :=
  let cl := s.ev.x
  let k := s.ev.y
  match (vget (clusterOf s cl).bar k Barrier.reset).deadline with
  | none => .next s
  | some d =>
    let n := clusterCycles s cl
    if n < d then .next (schedule s (s.now + vfTicks (vfOfCluster s cl) (d - n)) .bartTimeout s.ev)
    else .next (countCluster (endGeneration s cl k true) cl 4 1)

/-! ## Pairs (08_cluster, R250 to R252) -/

/-- The context that a channel binds trapped for the end of a pair: INFO holds the channel and the SEQ that ended. -/
def trapPair (s : State) (cl ch seq : Nat) (code : BitVec 8) : State :=
  match findCtx s (pairCtx s cl ch) with
  | some (k, c) =>
    trapAtBoundary s k c { code := code, kind := 0, rule := 0, word := 0, opcode := 0, unit := 0, lane := 0, exp := 0, obs := 0,
                           info := BitVec.ofNat 64 (ch + 16 * seq) }
  | none => s
/-- PAIR_HALF_ARRIVAL: the partner's half reaches a pairing buffer: a stale one is discarded and counted; else it is held, and
delivered when the own half has been sent (R251). Operand: message. -/
def execPairHalfArrival (s : State) : Outcome :=
  match msgOf s s.ev.x with
  | some ⟨id, _, dst, .pairHalf ch seq val sb, _⟩ =>
    let s := countReceived (dropMsg s id) dst
    let cl := clusterKey dst
    let p := vget (clusterOf s cl).pch ch PairCh.reset
    if p.seq.toNat != seq then .next (countCluster s cl 0 1)
    else
      let still := (pairCore s cl ch).any (fun k => (coreOf s k).stopped)
      let s := setPair s cl ch { p with held := some (val, sb), since := clusterCycles s cl, frozen := if still then some 0 else none }
      let due := vfTicks (vfOfCluster s cl) (max 1 (clusterOf s cl).deadline + 1)
      .next (pairDeliver (schedule s (s.now + due) .pairDeadline (evArgs cl ch 0)) cl ch)
  | _ => .next (waitMsg s .pairHalfArrival)
/-- PAIR_DEADLINE: WAIT of a held half has reached DEADLINE, and the cycle in which it did is over, so that a commit in that cycle came
first: the pair ends on both sides with PAIR_TIMEOUT; WAIT stands still while the gang is stopped (R71, R252). Operands: cluster,
channel. -/
def execPairDeadline (s : State) : Outcome :=
  let cl := s.ev.x
  let ch := s.ev.y
  let p := vget (clusterOf s cl).pch ch PairCh.reset
  let wait := pairWait s cl p
  let deadline := max 1 (clusterOf s cl).deadline
  if p.held.isNone || p.frozen.isSome then .next s
  else if wait ≤ deadline then
    .next (schedule s (s.now + max 1 (vfTicks (vfOfCluster s cl) (deadline + 1 - wait))) .pairDeadline s.ev)
  else
    let t := trapPair (dropPair s cl ch) cl ch p.seq.toNat cPairTimeout
    match pairCore s cl ch with
    | some k =>
      match partnerCore t k ch with
      | some dst => .next (sendFlit t 3 k dst (.pairTimeout ch p.seq.toNat))
      | none => .next t
    | none => .next t
/-- A pair ended by its partner; a message about an earlier sequence changes nothing. -/
def pairEnded (s : State) (dst ch seq : Nat) (code : BitVec 8) : State :=
  let cl := clusterKey dst
  if (vget (clusterOf s cl).pch ch PairCh.reset).seq.toNat != seq then s
  else trapPair (dropPair s cl ch) cl ch seq code
/-- PAIR_TIMEOUT_MESSAGE: the partner's PAIR_TIMEOUT arrives (R252). Operand: message. -/
def execPairTimeoutMessage (s : State) : Outcome :=
  match msgOf s s.ev.x with
  | some ⟨id, _, dst, .pairTimeout ch seq, _⟩ => .next (pairEnded (dropMsg s id) dst ch seq cPairTimeout)
  | _ => .next (waitMsg s .pairTimeoutMessage)
/-- PAIR_ABORT_MESSAGE: the partner's PAIR_ABORT arrives (R252). Operand: message. -/
def execPairAbortMessage (s : State) : Outcome :=
  match msgOf s s.ev.x with
  | some ⟨id, _, dst, .pairAbort ch seq, _⟩ => .next (pairEnded (dropMsg s id) dst ch seq cPairAbort)
  | _ => .next (waitMsg s .pairAbortMessage)

/-! ## Trap records (08_cluster, R253, R254) -/

/-- The token of a record: rt = 63, fmt INT, the record in bytes 0 to 31, the sender's chain position in byte 32. -/
def recordToken (addr : Nat) (r : Record) (from_ : Nat) (fm : Bool) : Token :=
  let v := BitVec.ofNat 512 (r.w0.toNat + r.w1.toNat * 2 ^ 64 + r.w2.toNat * 2 ^ 128 + r.w3.toNat * 2 ^ 192 + from_ % 256 * 2 ^ 256)
  replyToken addr 63 fm true false 0 v
/-- TRAP_RECORD_DELIVERY: a record reaches its entry of the handler chain: it is placed on the handler's rp, or refused when the
handler's 8 places are full, and sent again after 256 cycles (R253). Operand: message. -/
def execTrapRecordDelivery (s : State) : Outcome :=
  match msgOf s s.ev.x with
  | some ⟨id, src, dst, .record entry r from_ fm, _⟩ =>
    let t := dropMsg s id
    let cl := clusterKey dst
    let c := clusterOf t cl
    match handlerEntry t cl entry with
    | none => .next (sendRecord t src entry r from_ fm)
    | some (x, y, cx) =>
      match slotOf t dst (ctxNumber x y cx) with
      | none => .next (again s .trapRecordDelivery)
      | some n =>
        if 8 ≤ vget c.recUsed entry 0 then
          let back := { id := id, core := src, rec_ := r, entry := entry, from_ := from_, fm := fm, at_ := clusterCycles t cl + 256 : Resend }
          let t := setCluster t cl { c with resend := c.resend ++ [back] }
          .next (schedule (countCluster t cl 3 1) (t.now + vfTicks (vfOfCluster t cl) 256) .recordResend (evArgs id 0 0))
        else
          let t := setCluster t cl { c with recUsed := vset c.recUsed entry (vget c.recUsed entry 0 + 1) }
          .next (enqueue t dst n 4 (recordToken (ctxNumber x y cx) r from_ fm))
  | _ => .next (waitMsg s .trapRecordDelivery)
/-- RECORD_RESEND: a refused record is sent again by its sender once 256 cycles of its clock have passed (R253; 00_scope, R10). Operand:
the refused message. -/
def execRecordResend (s : State) : Outcome :=
  match s.cluster.find? (fun e => e.2.resend.any (fun r => r.id == s.ev.x)) with
  | none => .next s
  | some (cl, c) =>
    match c.resend.find? (fun r => r.id == s.ev.x) with
    | none => .next s
    | some r =>
      let n := clusterCycles s cl
      if n < r.at_ then .next (schedule s (s.now + max 1 (vfTicks (vfOfCluster s cl) (r.at_ - n))) .recordResend s.ev)
      else
        let s := setCluster s cl { c with resend := c.resend.filter (fun r => r.id != s.ev.x) }
        .next (sendRecord s r.core r.entry r.rec_ r.from_ r.fm)

/-! ## Retention (08_cluster, R255, R256) -/

/-- Whether a context is ended, absent or without an enabled rule. -/
def restful (o : Core) (c : Nat) : Bool :=
  let x := vget o.ctx c Ctx.reset
  !x.resident || x.ended || (selectRules o c x).isEmpty
/-- Whether a cluster may go into retention (R255). -/
def mayRetain (s : State) (cl : Nat) : Bool :=
  (clusterCores cl).all (fun k =>
    let o := coreOf s k
    (List.range 4).all (restful o) && o.bq.isEmpty && o.outst.isEmpty) &&
    (clusterOf s cl).pch.toList.all (fun p => !p.armed && p.held.isNone)
/-- A wide value in 64-bit words. -/
def wordsOf (n : Nat) (x : Nat) : List Nat := (List.range n).map (fun i => x / 2 ^ (64 * i) % 2 ^ 64)
/-- The 64-bit words of a context's retention elements: registers, rule state, chain registers and the basin slots that it maps (R255). -/
def retentionWords (c : Core) (x : Ctx) : List Nat :=
  if !x.resident then []
  else
    let w := fun {n : Nat} (v : Vector W64 n) => v.toList.map (fun a => a.toNat)
    let maps := fun (a : AccSlot) (i : Nat) => bitAt x.amap (4 * i + 3) && vget c.acc (bits x.amap (4 * i + 2) (4 * i)) AccSlot.reset == a
    w x.s ++ x.v.toList.flatMap (fun v => wordsOf 8 v.toNat) ++ [x.lm.toNat, x.tb.toNat] ++ w x.tm ++
      [x.bb.toNat, x.bw.toNat, (statusWord x x.flags).toNat, x.en.toNat, x.rm.toNat, x.fp.toNat + 64 * x.lastf.toNat, x.rounds.toNat] ++
      x.rabort.toList.map (fun v => v.toNat) ++ x.chains.toList.flatMap (fun v => wordsOf 4 v.toNat) ++
      ((mappedSlots c x).zipIdx.filter (fun a => maps a.1 a.2)).flatMap (fun a => a.1.rows.toList.flatMap (fun v => wordsOf 8 v.toNat))
/-- The exclusive or of the bits of a 64-bit word. -/
def oddParity (x : Nat) : Bool :=
  let a := x ^^^ (x >>> 32)
  let a := a ^^^ (a >>> 16)
  let a := a ^^^ (a >>> 8)
  let a := a ^^^ (a >>> 4)
  let a := a ^^^ (a >>> 2)
  (a ^^^ (a >>> 1)).testBit 0
/-- The parity bits over the retention elements of a cluster, one over each 64 bits (R255). -/
def parityBits (s : State) (cl : Nat) : List Bool :=
  (s.core.filter (fun e => clusterKey e.1 == cl)).flatMap (fun e =>
    e.2.ctx.toList.flatMap (fun x => (retentionWords e.2 x).map oddParity))
/-- RETENTION_ENTRY: the power manager places an idle cluster in retention; entry takes 64 cycles, and at its end the parity bits are
taken, unless the cluster is idle no more (R255). Operand: cluster. -/
def execRetentionEntry (s : State) : Outcome :=
  let cl := s.ev.x
  let c := clusterOf s cl
  if c.rstate == 0 && mayRetain s cl then
    .next (schedule (setCluster s cl { c with rstate := 1 }) (s.now + vfTicks (vfOfCluster s cl) 64) .retentionEntry s.ev)
  else if c.rstate == 1 then
    if mayRetain s cl then .next (setCluster s cl { c with rstate := 2, parity := parityBits s cl })
    else .next (setCluster s cl { c with rstate := 0 })
  else .next s
/-- RETENTION_EXIT_START: a flit for a core of a cluster in retention starts its exit, which takes 2,000 ticks (R255). Operand:
cluster. -/
def execRetentionExitStart (s : State) : Outcome :=
  let cl := s.ev.x
  let c := clusterOf s cl
  let args := evArgs cl 0 0
  if c.rstate == 2 then .next (schedule (setCluster s cl { c with rstate := 3 }) (s.now + 2000) .retentionExitEnd args)
  else if c.rstate == 1 then .next (again s .retentionExitStart)
  else .next s
/-- Every core of a cluster stopped at its next round boundary, until placed or resumed anew. -/
def haltCores (s : State) (cl : Nat) : State :=
  let one := fun (e : Nat × Core) => if clusterKey e.1 == cl then (e.1, { e.2 with halted := true }) else e
  { s with core := s.core.map one }
/-- The region slots in use that hold a core of a cluster. -/
def regionsIn (s : State) (cl : Nat) : List Nat :=
  let here := fun (r : Nat × Region) => r.2.st != .free && r.2.cores.any (fun k => clusterKey k == cl)
  (s.region.filter here).map (fun r => r.1)
/-- A cluster that no longer sleeps: what its wake buffer holds goes on ahead of the flits behind it (R255). -/
def openCluster (s : State) (cl : Nat) : State :=
  let c := clusterOf s cl
  let s := setCluster s cl { c with rstate := 0, wake := [] }
  c.wake.foldl (fun s f => schedule s s.now .flitHop (evArgs f.at_ f.port f.cls)) { s with flits := c.wake ++ s.flits }
/-- RETENTION_EXIT_END: the exit ends and checks every parity bit; with all of them right the cluster runs on, else it is LOST, its
contexts stay stopped, each gang there rolls back, and the flits that wait for it wait until then (R255, R256). Operand: cluster. -/
def execRetentionExitEnd (s : State) : Outcome :=
  let cl := s.ev.x
  let c := clusterOf s cl
  let struck := fun (b : Bool × Nat) => b.1 != ((c.flips.filter (fun i => i == b.2)).length % 2 == 1)
  if c.rstate != 3 then .next s
  else
    let now := ((parityBits s cl).zipIdx).map struck
    let s := setCluster s cl { c with parity := [], flips := [] }
    if now == c.parity then .next (openCluster s cl)
    else
      let s := haltCores (setCluster s cl { clusterOf s cl with lost := true }) cl
      .next ((regionsIn s cl).foldl (fun s n => consumeError s n cRetention) s)

end Sys2Proof.Machine
end

