-- ==== Sys2Proof/Machine/DieUnit.lean ====
section
/-! DEFINITION. The units of a die: VF changes, weir limits, time, the Reservoir's pinned store and copies (10_die, R281, R284 to
R287, R290 to R297; 05_core_memory, R173). -/
namespace Sys2Proof.Machine

/-! ## Bands (10_die, R286) -/

/-- The least whole number of times that b fills a. -/
def ceilDiv (a b : Nat) : Nat := (a + b - 1) / b
/-- The cluster on this side of a link of a die's edge: 0 W, 1 N, 2 E, 3 S; rows in clusters of 8, columns of 13 physical cores
of which a link stands for the first 12. -/
def edgeCluster (edge i : Nat) : Nat :=
  match edge with
  | 0 => 3 * (i / 8)
  | 1 => i / 12
  | 2 => 3 * (i / 8) + 2
  | _ => 9 + i / 12
/-- The die across an edge; none at the edge of the package. -/
def dieAcross (die edge : Nat) : Option Nat :=
  match edge with
  | 0 => if die % 8 == 0 then none else some (die - 1)
  | 1 => if die / 8 == 0 then none else some (die - 8)
  | 2 => if die % 8 == 7 then none else some (die + 1)
  | _ => if die / 8 == 7 then none else some (die + 8)
/-- DIE_BAND of a link with delay W between a sender and a receiver at given frequencies, in 10 MHz units. -/
def bandWord (w fs fr : Nat) : W32 :=
  let lo := w + ceilDiv 200 fr
  let hi := w + ceilDiv 300 fr + ceilDiv 100 fs
  BitVec.ofNat 32 (2 ^ 31 + min 32 (max 8 (ceilDiv (2 * hi * fs) 100)) * 65536 + hi % 256 * 256 + lo % 256)
/-- The band entry of a link of a die, in direction 0 out of it or 1 into it; 0 where the link is absent or failed calibration. -/
def bandEntry (s : State) (die edge dir i : Nat) : W32 :=
  match dieAcross die edge with
  | none => 0
  | some d =>
    let other := (edge + 2) % 4
    let mine := (vfOfCluster s (12 * die + edgeCluster edge i)).freq
    let far := (vfOfCluster s (12 * d + edgeCluster other i)).freq
    let delay := if dir == 0 then Config.wireDelay die edge i else Config.wireDelay d other i
    match delay with
    | none => 0
    | some w => if dir == 0 then bandWord w mine far else bandWord w far mine
/-- The links of an edge: one per row for W and E, one per column for N and S. -/
def edgeLinks (edge : Nat) : List Nat := if edge % 2 == 0 then List.range 32 else List.range 36
/-- Every band entry of a die computed anew. -/
def setBands (s : State) (die : Nat) : State :=
  let rows := (List.range 4).flatMap (fun e => (List.range 2).flatMap (fun dir => (edgeLinks e).map (fun i => (e, dir, i))))
  let entry := fun (b : SMap W32) (p : Nat × Nat × Nat) =>
    let v := bandEntry s die p.1 p.2.1 p.2.2
    if v == 0 then tdel b (72 * p.1 + 36 * p.2.1 + p.2.2) else tput b (72 * p.1 + 36 * p.2.1 + p.2.2) v
  setDie s die { dieOf s die with band := rows.foldl entry (dieOf s die).band }

/-! ## VF changes (10_die, R281) -/

/-- A VF region of a die. -/
def vfOf (s : State) (die k : Nat) : VfRegion := vget (dieOf s die).vf k (VfRegion.reset k)
/-- A VF region of a die replaced. -/
def setVf (s : State) (die k : Nat) (v : VfRegion) : State :=
  let d := dieOf s die
  setDie s die { d with vf := vset d.vf k v }
/-- Whether a region's watchdog counts: it stands still while the region is stopped (14_package_host, R380). -/
def counting (r : Region) : Bool := (r.st == .running || r.st == .swapping || r.st == .rolling) && !r.stopping
/-- The slowest clock, in 10 MHz units, of the VF regions that hold some cores; 0 while one of them stands still (14_package_host,
R380). -/
def slowestClock (s : State) (ks : List Nat) : Nat :=
  match ks.map (fun k => let v := vfOfCore s k; if v.off then 0 else v.freq) with
  | [] => 0
  | f :: r => r.foldl min f
/-- A region's watchdog count brought up to now. -/
def noteBeat (s : State) (n : Nat) : State :=
  let r := regionOf s n
  if counting r then
    setRegion s n { r with beatCycles := r.beatCycles + (s.now - r.slowAt) * slowestClock s r.cores, slowAt := s.now }
  else s
/-- Every region's watchdog count brought up to now, before a clock changes. -/
def noteBeats (s : State) : State := (s.region.map (fun e => e.1)).foldl noteBeat s
/-- VF_REQUEST_APPLY: the controller begins the latest request, once the change before it has ended: the region's clock stops for
2,000 ticks when the point changes, else for 200; a request that changes nothing stops no clock (R281). Operands: die, region;
z is 1 when a cluster with another frequency has moved to the region, 2 when one with another point has. -/
def execVfRequestApply (s : State) : Outcome :=
  let die := s.ev.x
  let k := s.ev.y
  let v := vfOf s die k
  if v.busy then .next (again s .vfRequestApply)
  else if s.ev.z == 0 && v.rpt == v.pt && clampFreq v == v.freq then .next (setVf s die k { v with pend := false })
  else
    let n := { v with busy := true, newPt := v.rpt, newFreq := clampFreq v, cyc := vfCycles s v, cycAt := s.now, off := true }
    .next (schedule (setVf (noteBeats s) die k n) (s.now + (if v.rpt == v.pt && s.ev.z != 2 then 200 else 2000)) .vfClockResume (evArgs die k 0))
/-- What waits on the cores of a VF region looked at again: outbound orders and basin queues. -/
def wakeRegion (s : State) (die k : Nat) : State :=
  s.core.foldl (fun s e =>
    if dieKey e.1 == die && vfNumber s e.1 == 4 * die + k then
      let s := if e.2.bq.isEmpty then s else schedule s s.now .basinGrant (evArgs (basinOf s e.1) 0 0)
      e.2.ctx.toList.foldl (fun s x => if x.resident then poke s (ctxAddr x) else s) s
    else s) s
/-- VF_CLOCK_RESUME: point and frequency take their new values, the bands that touch the region follow, VF_CHANGES counts one, and
the clock runs on; PEND stays set while a later request waits (R281). Operands: die, region. -/
def execVfClockResume (s : State) : Outcome :=
  let die := s.ev.x
  let k := s.ev.y
  let v := vfOf s die k
  if !v.busy then .next s
  else
    let later := s.agenda.any (fun p => p.op == .vfRequestApply && p.args.x == die && p.args.y == k)
    let s := setVf (noteBeats s) die k { v with pt := v.newPt, freq := v.newFreq, cycAt := s.now, off := false, busy := false, pend := later }
    let near := die :: (List.range 4).filterMap (dieAcross die)
    let s := near.foldl setBands s
    .next (wakeRegion (countDie s die 6 1) die k)

/-! ## Weir limits (10_die, R284, R285) -/

/-- WEIR_HALVE: a region that feeds a cistern which has refused for 1,024 cycles has its limit halved, to no less than 16 (R285).
Operands: die, region. -/
def execWeirHalve (s : State) : Outcome :=
  let die := s.ev.x
  let k := s.ev.y
  let v := vfOf s die k
  let s := countDie (setVf s die k { v with weirEff := max 16 (v.weirEff / 2) }) die 0 1
  .next (beginDoubling s die k v)
/-- Whether every cistern out of a region holds at most half of its shared places. -/
def cisternsLow (s : State) (die k : Nat) : Bool :=
  (s.flits.filter (fun f => f.cistern)).all (fun f =>
    match neighbour f.at_ f.port with
    | none => true
    | some from_ =>
      let out := inputPort f.port
      let here := s.flits.filter (fun g => g.at_ == f.at_ && g.port == f.port && g.cistern)
      vfNumber s from_ != 4 * die + k || 2 * here.length ≤ cisternDepth s from_ f.at_ out)
/-- WEIR_DOUBLE: at each window start the limit doubles up to LIM while the cisterns out of the region are at most half full (R285).
Operands: die, region; z is the window, by the region's cycles: a clock that ran slower meanwhile has it wait. -/
def execWeirDouble (s : State) : Outcome :=
  let die := s.ev.x
  let k := s.ev.y
  let v := vfOf s die k
  if v.limit ≤ v.weirEff then .next s
  else if vfCycles s v / 256 < s.ev.z then .next (schedule s (s.now + toWindow s v) .weirDouble s.ev)
  else
    let eff := if cisternsLow s die k then min v.limit (2 * v.weirEff) else v.weirEff
    let s := setVf s die k { v with weirEff := eff }
    if eff < v.limit then .next (beginDoubling s die k v) else .next s

/-! ## Time (10_die, R287) -/

/-- TIME_RECALIBRATION: a die's offset changes by at most one tick, in a tick in which the counter advances, and stays within U of the
true one; the next comes after 2^20 ticks (R287, R288). Operand: die. -/
def execTimeRecalibration (s : State) : Outcome :=
  let die := s.ev.x
  let d := dieOf s die
  let (f, t) := takeFresh s
  let c := max (-1) (min 1 (Config.recalibration f))
  let err := d.off.toInt + c - Config.dieStart die
  let off := if die == 0 || d.unc.toNat < err.natAbs then d.off else d.off + BitVec.ofInt 48 c
  let t := setDie { t with now := t.now + 1 } die { d with off := off }
  .next (schedule t (t.now + 2 ^ 20) .timeRecalibration s.ev)

/-! ## The Reservoir (10_die, R290 to R292, R296, R297) -/

/-- Source, local offset and length of an RSVLD. -/
def rsvRange (c : Command) : Nat × Nat × Nat := match c.op with | .rsvld src loc len => (src, loc, len) | _ => (0, 0, 0)
/-- The place where a command's logical core has its local memory: the physical core and the physical offset. -/
def localPlace (s : State) (c : Command) (off : Nat) : Nat × Nat :=
  ((coreOfAddr s c.cx).getD c.core, windowed s (c.cx / 1024) (c.cx / 4 % 256) off)
/-- The head RSVLD of a die is over; the next one begins (R296). -/
def nextRsvld (s : State) (die : Nat) (r : List RsvJob) : State :=
  let s := setDie s die { dieOf s die with rsvq := r }
  if r.isEmpty then s else schedule s s.now .rsvldLine (evArgs die 0 0)
/-- RSVLD_LINE: the head RSVLD of a die writes its next line to its core, after the refresh window of the line's bank, which holds
the lines after it too; an uncorrectable error in the line stops the command, its tag left clear, and its gang rolls back (R289, R292,
R296). Operand: die. -/
def execRsvldLine (s : State) : Outcome :=
  let die := s.ev.x
  let d := dieOf s die
  match d.rsvq with
  | [] => .next s
  | j :: r =>
    let (src, loc, len) := rsvRange j.cmd
    if len ≤ j.pos then .next s
    else
      let wait := refreshWait s die (pinnedBank d (src + j.pos))
      if wait != 0 then .next (putOff s (die, wait, wait * ((len - j.pos) / 64)) .rsvldLine s.ev)
      else if pinnedBad s die (src + j.pos) 64 then
        .next (consumeError (nextRsvld s die r) (regionOfCtx s j.cmd.cx) cEccUe)
      else
        let (k, at_) := localPlace s j.cmd (loc + j.pos)
        let s := pinnedFix s die (src + j.pos) 64
        let s := setDie s die { dieOf s die with rsvq := { j with pos := j.pos + 64 } :: r }
        let s := portWrite s k at_ (pinnedBytes s die (src + j.pos) 64) true
        .next (schedule s (s.now + 1) (if j.pos + 64 < len then .rsvldLine else .rsvldComplete) s.ev)
/-- RSVLD_COMPLETE: an RSVLD whose last line is written sets its tag, and the next one begins (R273, R296). Operand: die. -/
def execRsvldComplete (s : State) : Outcome :=
  let die := s.ev.x
  let d := dieOf s die
  match d.rsvq with
  | [] => .next s
  | j :: r =>
    let (_, _, len) := rsvRange j.cmd
    if j.pos < len then .next (schedule s s.now .rsvldLine s.ev)
    else .next (completeCommand (nextRsvld s die r) j.cmd.cx j.cmd.id j.cmd.tag)
/-- Whether the zeroing of a die's pinned store is under way. -/
def zeroing (s : State) (die : Nat) : Bool :=
  s.agenda.any (fun p => p.op == .rsvcfgPartApply && p.args.x == die && p.args.z == 1)
/-- RSVCFG_PART_APPLY: once no configuration uses the pinned store and no write is on its way home, P becomes PREQ and the store is
written with zero, which takes 98,304 ticks; then PEND clears and the PARTs complete; a PREQ that changed meanwhile is applied in
turn (R291, R297; 09_memory_model, R420). Operand: die; z is 1 at the end of the zeroing. -/
def execRsvcfgPartApply (s : State) : Outcome :=
  let die := s.ev.x
  let d := dieOf s die
  if s.ev.z == 1 && d.p == d.preq then
    let s := setDie s die { d with rpend := false, parts := [] }
    .next (d.parts.foldl (fun s c => completeCommand s c.cx c.id c.tag) s)
  else if d.parts.isEmpty || zeroing s die then .next s
  else if !d.users.isEmpty || d.cache.any (fun l => !l.out.isEmpty) then .next (schedule s (s.now + 1) .rsvcfgPartApply (evArgs die 0 0))
  else
    let keep := if d.p < d.preq then [] else d.cache
    let s := setDie s die { d with p := d.preq, pinned := [], pinUe := [], pinCorr := [], cache := keep }
    .next (schedule s (s.now + 98304) .rsvcfgPartApply (evArgs die 0 1))
/-- RSVCFG_DROP_COMPLETE: every line of the die's copy without a write on its way home is dropped, and the oldest DROP completes
(R297). Operand: die. -/
def execRsvcfgDropComplete (s : State) : Outcome :=
  let die := s.ev.x
  let d := dieOf s die
  match d.drops with
  | [] => .next s
  | c :: r => .next (completeCommand (dropLines (setDie s die { d with drops := r }) die) c.cx c.id c.tag)
/-- CACHE_REPLACEMENT: the cache policy drops a line of a die's copy; never one with a write on its way home (R267). Operands: die,
line. -/
def execCacheReplacement (s : State) : Outcome :=
  let die := s.ev.x
  let d := dieOf s die
  .next (setDie s die { d with cache := d.cache.filter (fun l => l.line != s.ev.y || !l.out.isEmpty) })

/-! ## Prefetch (05_core_memory, R173) -/

/-- A job of the package's engines, by its command's number. -/
def xjobOf (s : State) (id : Nat) : Option XJob := s.pkg.xjobs.find? (fun j => j.cmd.id == id)
/-- The state without a job. -/
def dropXJob (s : State) (id : Nat) : State :=
  { s with pkg := { s.pkg with xjobs := s.pkg.xjobs.filter (fun j => j.cmd.id != id) } }
/-- A job of the package's engines replaced. -/
def setXJob (s : State) (j : XJob) : State :=
  { s with pkg := { s.pkg with xjobs := s.pkg.xjobs.map (fun i => if i.cmd.id == j.cmd.id then j else i) } }
/-- The lines of a prefetch filled into the die's copy; a poisoned line delivers nothing (R173; 13_package_memory, R355). -/
def prefetchLines (s : State) (die a n : Nat) : State :=
  (linesOf64 a n).foldl (fun s l => if homeBad s (64 * l) 64 then s else fillLine s die l) s
/-- PFETCH_COMPLETE: a prefetch fills the lines of its next page into the die's copy, if its translation finds HBM; after the last
it sets its tag. It changes no value that a program can read, and asks for no page (R173); a bank in refresh holds it up (10_die,
R292). Operand: command. -/
def execPfetchComplete (s : State) : Outcome :=
  match xjobOf s s.ev.x with
  | some ⟨c, pos, _, _⟩ =>
    match c.op with
    | .pfetch a len =>
      if len ≤ pos then .next (completeCommand (dropXJob s c.id) c.cx c.id c.tag)
      else
        let va := a + BitVec.ofNat 64 pos
        let n := firstPiece va (len - pos)
        let j : XJob := { cmd := c, pos := pos + n, fail := none, stack := none }
        let (t, s) := translate s c.core (commandQueue s c) (bits va 47 0) false
        let pa := match t with | .ok pa _ => pa | _ => 0
        let wait := reservoirWait s (dieKey c.core) pa n
        if bits pa 61 58 == 1 && wait.2.1 != 0 then .next (putOff s wait .pfetchComplete s.ev)
        else
          let s := if bits pa 61 58 == 1 then prefetchLines s (dieKey c.core) (bits pa 40 0) n else s
          .next (schedule (setXJob s j) (s.now + 1) .pfetchComplete s.ev)
    | _ => .next s
  | none => .next s

end Sys2Proof.Machine
end

