-- ==== Sys2Proof/Machine/XMem.lean ====
section
/-! DEFINITION. Operations outside core memory step by step: table walks and page faults, the Reservoir, the stacks, the second tier,
invalidations, migrations and indirect streams (09_memory_model, R265 to R268; 13_package_memory, R355 to R372). -/
namespace Sys2Proof.Machine

/-! ## Operations on their way -/

/-- The first operation of a number in a phase. -/
def opIn (s : State) (id : Nat) (p : XPhase → Bool) : Option XOp := s.xops.find? (fun o => o.req.id == id && p o.phase)
/-- An operation that is over. -/
def dropOp (s : State) (x : XOp) : State := { s with xops := s.xops.erase x }
/-- An operation replaced. -/
def putOp (s : State) (x y : XOp) : State := { s with xops := swapOp x y s.xops }
/-- Whether a request only reads. -/
def readsOnly (r : Request) : Bool := match r.kind with | .read _ => true | _ => false
/-- Whether a request is an atomic. -/
def isAmo (r : Request) : Bool := match r.kind with | .amo _ _ _ _ => true | _ => false
/-- The bytes that a request touches. -/
def requestSize (r : Request) : Nat := match r.kind with | .read n => n | .write n _ => n | .amo _ n _ _ => n | .publish _ _ => 1
/-- The operations before one that come from the same context, or from the same engine command. -/
def earlierOps (s : State) (x : XOp) : List XOp :=
  (s.xops.takeWhile (fun o => o != x)).filter (fun o =>
    o.engine == x.engine && o.req.cx == x.req.cx && (!x.engine || o.req.id == x.req.id))
/-- Whether two operations meet in a 64-byte line of one space (05_core_memory, R159). -/
def sameLine (a b : XOp) : Bool := a.req.addr.toNat / 64 == b.req.addr.toNat / 64
/-- Whether an operation waits at the Reservoir or at home for an earlier one to its line; a write that stands in the die's copy
holds no later read or write of the copy (05_core_memory, R159; 09_memory_model, R266). -/
def heldByEarlier (s : State) (x : XOp) (home : Bool) : Bool :=
  let copies := (dieOf s (dieKey x.req.core)).p != 32
  (earlierOps s x).any (fun o =>
    sameLine o x && (home || isAmo x.req || !copies || !(o.copyDone && o.phase == .home)))
/-- An operation's end at its target: its context's access is performed, its reply sent. -/
def finishOp (s : State) (x : XOp) (v : V512) : State :=
  let s := dropOp s x
  if x.engine then s
  else replyTo (if readsOnly x.req then s else writeDone s x.req.cx x.req.id) none x.req v
/-- An operation whose data is poisoned: nothing is delivered, and its gang rolls back (R355). -/
def poisonOp (s : State) (x : XOp) : State :=
  consumeError (countStack (dropOp s x) (counterPlace s x.pa) 5 1) (regionOfCtx s x.req.cx) cEccUe
/-- An operation that failed. -/
def failOp (s : State) (x : XOp) (code : BitVec 8) : State :=
  let s := dropOp s x
  let s := if x.port then poke (freeCp s x.req.cx) x.req.cx else s
  failRequest s none x.req code

/-! ## Walks (13_package_memory, R358 to R360) -/

/-- A request whose leaf is known goes on to its target, and its command-port entry is free. -/
def walked (s : State) (x : XOp) (leaf : W64) (size : Nat) : State :=
  let va := bits x.req.addr 47 0
  let s := tlbFill s x.req.core x.req.queue va size leaf
  match leafAccess leaf va size (!readsOnly x.req) with
  | .ok pa cmp =>
    let s := dropOp s x
    let s := if x.port then poke (freeCp s x.req.cx) x.req.cx else s
    enterPhysical s x.req.core x.req pa cmp false
  | _ => failOp s x cPageFault
/-- A request at an absent page parks; with the fault buffer full, it holds its command port for another cycle, which counts
(R360, R372). -/
def parkOrHold (s : State) (x : XOp) : State :=
  if (clusterOf s (clusterKey x.req.core)).parked.length < 64 then
    let t := parkOp s x
    if x.port then poke t x.req.cx else t
  else
    let s := if x.port then countXl s 4 else s
    schedule (putOp s x { x with phase := .walk 3 0 }) (s.now + ticksOf s x.req.core 1) .translationWalk s.ev
/-- The earlier requests of the same context to the same page that await translation (R360). -/
def pageAhead (s : State) (x : XOp) : List XOp :=
  (earlierOps s x).filter (fun o =>
    bits o.req.addr 63 62 == 1 && bits o.req.addr 47 16 == bits x.req.addr 47 16 &&
      (match o.phase with | .parked _ => true | .walk _ _ => true | _ => false))
/-- A request whose walk met a poisoned line of the tables: it is withheld, and its gang rolls back (R355). -/
def poisonWalk (s : State) (x : XOp) : State := consumeError (dropOp s x) (regionOfCtx s x.req.cx) cEccUe
/-- One level of a request's walk, or its start, once the walker has room; its reads are counted (R357, R359, R366). -/
def walkOn (s : State) (x : XOp) (level : Nat) (table : W64) : State :=
  let va := bits x.req.addr 47 0
  let go := fun (s : State) (l : Nat) (t : W64) =>
    schedule (putOp s x { x with phase := .walk l t }) (s.now + 60) .translationWalk s.ev
  if table == 0 then
    if !asValid s x.req.queue then failOp s x cPageFault
    else match tlbLookup s x.req.core x.req.queue va with
    | some t => walked s x t.leaf t.size
    | none =>
      match walkRoot s x.req.queue with
      | some root =>
        if 4 ≤ walksOf s (clusterKey x.req.core) then again s .translationWalk
        else go (countXl (countXl s 0) 1) 3 root
      | none => failOp s x cPageFault
  else
    let w := walkLevel s level table va
    let s := countWalk s w [entryAt level table va]
    match w with
    | .next t => go s (level - 1) t
    | .leaf e size => walked s x e size
    | .absent => parkOrHold s x
    | .broken => failOp s x cPageFault
    | .poisoned => poisonWalk s x
/-- TRANSLATION_WALK: one level of a request's table walk, with one HBM read at home a level; a request to a page that an earlier
one of its context awaits parks or waits behind it, and a request whose gang is stopped with a save waits for its resume (R358 to
R361). Operand: request. -/
def execTranslationWalk (s : State) : Outcome :=
  match opIn s s.ev.x (fun p => match p with | .walk _ _ => true | _ => false) with
  | none => .next s
  | some x =>
    let ahead := pageAhead s x
    let parkedAhead := ahead.any (fun o => match o.phase with | .parked _ => true | _ => false)
    if gangAway s x.req.cx then .next (again s .translationWalk)
    else if s.pkg.denied.contains x.req.id then .next (failOp (undeny s x.req.id) x cPageFault)
    else if parkedAhead && x.port then .next (parkOrHold s x)
    else if !ahead.isEmpty then .next (again s .translationWalk)
    else match x.phase with
      | .walk level table => .next (walkOn s x level table)
      | _ => .next s

/-! ## The Reservoir, the stacks and the second tier -/

/-- An operation that goes on to its home stack. -/
def goHome (s : State) (x : XOp) (copied : Bool) : State :=
  schedule (putOp s x { x with phase := .home, copyDone := copied }) (s.now + 60) (if readsOnly x.req then .hbmRead else .hbmWrite)
    (evArgs x.req.id 0 0)
/-- An HBM access at its die's Reservoir: a read that hits is served there, a write is performed in the copy and goes home, what
misses and every atomic goes home (09_memory_model, R265 to R267). -/
def accessCopy (s : State) (x : XOp) : State :=
  let die := dieKey x.req.core
  let d := dieOf s die
  let a := bits x.pa 40 0
  let n := requestSize x.req
  if d.p == 32 || isAmo x.req then goHome s x false
  else
    let wait := reservoirWait s die x.pa n
    if wait.2.1 != 0 then putOff s wait .reservoirAccess s.ev
    else match x.req.kind with
      | .write _ v =>
        let m := s.nextId
        let s := dieWrite { s with nextId := m + 1 } die a (leBytes n v.toNat) m
        let s := modAccess s x.req.cx x.req.id (fun p => { p with atCopy := true })
        goHome (putOp s x { x with mark := m }) { x with mark := m } true
      | _ =>
        if (linesOf64 a n).all (fun l => (cacheLine s die l).isSome) then
          let s := mendLines s die a n
          if dieBad s die a n then poisonOp s x
          else
            let (bs, s) := dieRead s die a n
            finishOp s x (ofBytes bs)
        else goHome s x false
/-- A read of a pinned store by a privileged context (10_die, R291, R292); an uncorrectable error delivers nothing, and its gang rolls
back (10_die, R289; log entry 112). -/
def accessPinned (s : State) (x : XOp) : State :=
  let die := bits x.pa 53 48
  let off := bits x.pa 27 0
  let n := requestSize x.req
  let wait := reservoirWait s die x.pa n
  if wait.2.1 != 0 then putOff s wait .reservoirAccess s.ev
  else if pinnedBad s die off n then consumeError (dropOp s x) (regionOfCtx s x.req.cx) cEccUe
  else finishOp (pinnedFix s die off n) x (ofBytes (pinnedBytes s die off n))
/-- RESERVOIR_ACCESS: an operation reaches its die's Reservoir, or the pinned store that it reads. Operand: request. -/
def execReservoirAccess (s : State) : Outcome :=
  match opIn s s.ev.x (fun p => p == .reservoir) with
  | none => .next s
  | some x =>
    if heldByEarlier s x false then .next (again s .reservoirAccess)
    else if bits x.pa 61 58 == 4 then .next (accessPinned s x)
    else .next (accessCopy s x)
/-- HBM_READ: a read that missed is performed at home, filling the die's copy; a poisoned line delivers nothing (R355;
09_memory_model, R267). Operand: request. -/
def execHbmRead (s : State) : Outcome :=
  match opIn s s.ev.x (fun p => p == .home) with
  | none => .next s
  | some x =>
    let a := bits x.pa 40 0
    let n := requestSize x.req
    let die := dieKey x.req.core
    if heldByEarlier s x true || ((dieOf s die).p != 32 && (linesOf64 a n).any (fun l => !wayFree s die l)) then
      .next (again s .hbmRead)
    else
      let s := mendLines s die a n
      if dieBad s die a n then .next (poisonOp s x)
      else
        let (bs, s) := dieRead s die a n
        .next (finishOp s x (ofBytes bs))
/-- A write or atomic performed at its home, with the old value that an atomic replies. -/
def performHome (s : State) (x : XOp) : State :=
  match x.req.kind with
  | .write n v =>
    let s := physHomeWrite s x.pa (leBytes n v.toNat) x.cmp
    let s := if x.copyDone then cameHome s (dieKey x.req.core) (bits x.pa 40 0) n x.mark else s
    finishOp s x 0
  | .amo op n v c =>
    let old := leNat (homeRead s x.pa n)
    let s := physHomeWrite s x.pa (leBytes n (amoResult op n old v.toNat c.toNat).1) x.cmp
    finishOp s x (BitVec.ofNat 512 old)
  | _ => finishOp s x 0
/-- HBM_WRITE: a write that has reached home is performed there, in its order, or an atomic is performed (09_memory_model, R266;
R365). Operand: request or command. -/
def execHbmWrite (s : State) : Outcome :=
  match opIn s s.ev.x (fun p => p == .home) with
  | none => .next s
  | some x =>
    if heldByEarlier s x true then .next (again s .hbmWrite)
    else if isAmo x.req && homeBad s (bits x.pa 40 0) (requestSize x.req) then .next (poisonOp s x)
    else .next (performHome s x)
/-- Whether a physical address is host memory while no host link is up (14_package_host, R373). -/
def hostGone (s : State) (pa : W64) : Bool := bits pa 61 58 == 5 && s.pkg.linkUp == 0
/-- SECOND_TIER_ACCESS: an access to the second tier or to host memory is performed at its home; data that the device poisoned is
treated as poison of HBM (R355, R356). Operands: request or command; ok while the device poisons nothing. -/
def execSecondTierAccess (s : State) : Outcome :=
  match opIn s s.ev.x (fun p => p == .tier2) with
  | none => .next s
  | some x =>
    let n := requestSize x.req
    let reads := match x.req.kind with | .write _ _ => false | _ => true
    if heldByEarlier s x true || hostGone s x.pa then .next (again s .secondTierAccess)
    else if reads && (!s.ev.ok || physBad s x.pa n) then .next (poisonOp s x)
    else
      let s := if reads then countTier2Read s x.pa n else s
      match x.req.kind with
      | .read _ => .next (finishOp s x (ofBytes (homeRead s x.pa n)))
      | _ => .next (performHome s x)

/-! ## The host's answers and the deadline of a fault (R360, R361; 14_package_host, R374, R376) -/

/-- The traffic of a cluster's contexts looked at again: an entry of its fault buffer is free (R360). -/
def pokeCluster (s : State) (ck : Nat) : State :=
  s.core.foldl (fun s e =>
    if clusterKey e.1 == ck then e.2.ctx.toList.foldl (fun s x => if x.resident then poke s (ctxAddr x) else s) s else s) s
/-- An entry of a cluster's fault buffer freed. -/
def unpark (s : State) (ck id : Nat) : State :=
  let cl := clusterOf s ck
  pokeCluster (setCluster s ck { cl with parked := cl.parked.filter (fun n => n != id) }) ck
/-- The answer to the page request of a parked command: a COMPATTR runs or ends, another engine goes on and finds the answer itself
(R360). -/
def answerParked (ok : Bool) (s : State) (e : ParkedCmd) : State :=
  let c := e.cmd
  let s := unpark s (clusterKey c.core) c.id
  let s := { s with pkg := { s.pkg with parkedCmds := s.pkg.parkedCmds.filter (fun f => f.cmd.id != c.id) } }
  match c.op with
  | .compattr op va bit rt fm =>
    if ok then runCompattr s c.core e.queue c op va bit rt fm
    else if op == 0 then
      let t := replyToken c.cx rt fm false true 0 (BitVec.ofNat 512 cPageFault.toNat)
      sendReply (endAccess s c.cx c.id) none c.cx c.id t
    else failCommand s c cPageFault
  | _ =>
    let s := if ok then s else { s with pkg := { s.pkg with denied := s.pkg.denied ++ [c.id] } }
    schedule s s.now e.step.op e.step.args
/-- The answer to a page request for one operation: a parked request walks again, or ends with PAGE_FAULT, once its gang is not stopped;
a parked command goes on; a refused packet finds the refusal itself (R360, R361). -/
def answerOp (ok : Bool) (s : State) (id : Nat) : State :=
  match opIn s id (fun p => match p with | .parked _ => true | _ => false) with
  | some x =>
    let s := unpark s (clusterKey x.req.core) id
    if !ok && !gangAway s x.req.cx then failOp s x cPageFault
    else
      let s := if ok then s else { s with pkg := { s.pkg with denied := s.pkg.denied ++ [id] } }
      schedule (putOp s x { x with phase := .walk 3 0 }) s.now .translationWalk (evArgs id 0 0)
  | none =>
    match s.pkg.parkedCmds.find? (fun e => e.cmd.id == id) with
    | some e => answerParked ok s e
    | none => if ok then s else { s with pkg := { s.pkg with denied := s.pkg.denied ++ [id] } }
/-- A page of a queue as one number. -/
def pageKey (q page : Nat) : Nat := q * 2 ^ 32 + page
/-- A gang that waits for answers no longer waits for this page; at the last one it resumes (R361). -/
def pageAnswered (key : Nat) (s : State) (n : Nat) : State :=
  let r := regionOf s n
  if r.pages.contains key then
    let rest := r.pages.filter (fun p => p != key)
    let s := setRegion s n { r with pages := rest }
    if rest.isEmpty then schedule s s.now .gangResume (evArgs n 0 0) else s
  else s
/-- PAGE_REQUEST_RESPONSE: the host answers a page request: its requests walk again in park order, or end with PAGE_FAULT; the tag
is free (R360). Operands: tag; ok for success. -/
def execPageRequestResponse (s : State) : Outcome :=
  let tag := s.ev.x
  let ok := s.ev.ok
  match s.pkg.tags.find? (fun e => e.1 == tag) with
  | some (_, .page q page ops _) =>
    let s := { s with pkg := { s.pkg with tags := tdel s.pkg.tags tag } }
    let s := ops.foldl (answerOp ok) s
    let s := (s.region.map (fun e => e.1)).foldl (pageAnswered (pageKey q page)) s
    .next (grantTags 64 s)
  | _ => .next s
/-- The parked requests and engine commands of a gang: the page that each awaits, and since when (R360, R361). -/
def parkedOf (s : State) (n : Nat) : List (Nat × Nat) :=
  s.xops.filterMap (fun o =>
    match o.phase with
    | .parked t => if regionOfCtx s o.req.cx == n then some (pageKey o.req.queue (bits o.req.addr 47 16), t) else none
    | _ => none) ++
  s.pkg.parkedCmds.filterMap (fun e => if regionOfCtx s e.cmd.cx == n then some (pageKey e.queue e.page, e.since) else none)
/-- Whether NORB stands in a core of a gang, or in its slot (12_package_launch, R341). -/
def noRollback (s : State) (n : Nat) : Bool :=
  let r := regionOf s n
  r.norb || r.cores.any (fun k => (coreOf s k).ctx.toList.any (fun x => x.resident && bitAt x.undo 13))
/-- PF_DEADLINE: a gang whose oldest parked request has waited PFDL rolls back, or with NORB is stopped with a save, and resumes
once the host has answered every page request of those requests (R361). Operand: region slot. -/
def execPfDeadline (s : State) : Outcome :=
  let n := s.ev.x
  let r := regionOf s n
  let mine := parkedOf s n
  let due := (mine.map (fun p => p.2)).foldl min s.now + faultTicks s
  if mine.isEmpty || r.st != .running || r.stopping || !r.pages.isEmpty then .next s
  else if s.now < due then .next (schedule s due .pfDeadline s.ev)
  else
    let keys := (mine.map (fun p => p.1)).eraseDups
    if noRollback s n then
      .next (schedule (setRegion s n { r with pages := keys }) s.now .gangStop (evArgs n 0 0))
    else .next (consumeError (setRegion s n { r with pages := keys }) n cPageFault)

/-! ## Invalidation (R362, R371) -/

/-- The scope of an invalidation: 0 one page, 1 a queue, 2 every entry; address; queue. -/
def invalScope (s : State) (c : Command) : Nat × Nat × Nat :=
  match c.op with
  | .tlbinv op va q => (op, bits va 47 0, q)
  | .migrate va _ => (0, bits va 47 0, commandQueue s c)
  | _ => (2, 0, 0)
/-- Whether a TLB entry lies in a scope. -/
def entryIn (sc : Nat × Nat × Nat) (t : TlbEntry) : Bool :=
  sc.1 == 2 || (t.queue == sc.2.2 && (sc.1 == 1 || (t.va ≤ sc.2.1 && sc.2.1 < t.va + t.size)))
/-- Whether an operation may have been translated by an entry in a scope, or walks there: of the queue, and for one page within
the largest page around it. -/
def opIn01 (sc : Nat × Nat × Nat) (o : XOp) : Bool :=
  bits o.req.addr 63 62 == 1 &&
    (sc.1 == 2 || (o.req.queue == sc.2.2 && (sc.1 == 1 || bits o.req.addr 47 0 / 2 ^ 30 == sc.2.1 / 2 ^ 30)))
/-- The entries of a scope dropped from every TLB, and every walk there begun again. -/
def invalidate (s : State) (sc : Nat × Nat × Nat) : State :=
  let keep := fun (ts : List TlbEntry) => ts.filter (fun t => !entryIn sc t)
  let restart := fun (o : XOp) =>
    match o.phase with | .walk _ _ => if opIn01 sc o then { o with phase := .walk 3 0 } else o | _ => o
  { s with
    core := s.core.map (fun (e : Nat × Core) => (e.1, { e.2 with tlb := keep e.2.tlb }))
    cluster := s.cluster.map (fun (e : Nat × Cluster) => (e.1, { e.2 with tlb := keep e.2.tlb }))
    xops := s.xops.map restart }
/-- The operations that an invalidation waits for. -/
def translatedOps (s : State) (sc : Nat × Nat × Nat) : List Nat :=
  let done := fun (p : XPhase) => match p with | .walk _ _ => false | .parked _ => false | _ => true
  (s.xops.filter (fun o => done o.phase && opIn01 sc o)).map (fun o => o.req.id)
/-- TLBINV_COMPLETE: an invalidation drops the entries of its scope and restarts the walks there; it completes once every request
that they translated is performed or has failed; that of a migration leads to its release (R362, R369). Operand: command. -/
def execTlbinvComplete (s : State) : Outcome :=
  match s.pkg.invals.find? (fun v => v.1.id == s.ev.x) with
  | none => .next s
  | some v =>
    let (c, started, flag, ids) := v
    let sc := invalScope s c
    if started == 0 then
      let ids := translatedOps s sc
      let s := invalidate s sc
      let put := s.pkg.invals.map (fun w => if w.1.id == c.id then (c, 1, flag, ids) else w)
      .next (again { s with pkg := { s.pkg with invals := put } } .tlbinvComplete)
    else if s.xops.any (fun o => ids.contains o.req.id) then .next (again s .tlbinvComplete)
    else
      let s := countXl { s with pkg := { s.pkg with invals := s.pkg.invals.filter (fun w => w.1.id != c.id) } } 5
      match c.op with
      | .migrate _ _ => .next (schedule s s.now .migrationRelease s.ev)
      | _ => .next (completeCommand s c.cx c.id c.tag)

/-! ## Migration (R369, R371) -/

/-- A migration by its command's number. -/
def migOf (s : State) (id : Nat) : Option Migration := s.pkg.migs.find? (fun m => m.cmd.id == id)
/-- A migration replaced. -/
def setMig (s : State) (m : Migration) : State :=
  { s with pkg := { s.pkg with migs := s.pkg.migs.map (fun n => if n.cmd.id == m.cmd.id then m else n) } }
/-- A migration that is over. -/
def dropMig (s : State) (id : Nat) : State :=
  { s with pkg := { s.pkg with migs := s.pkg.migs.filter (fun m => m.cmd.id != id) } }
/-- Where a page's home keeps its forks: the stacks hold every page of HBM together; a second-tier page lies on some ports. -/
def forkPlaces (s : State) (pa : W64) (size : Nat) : List Nat :=
  if bits pa 61 58 == 1 then [0]
  else ((List.range (min 16 (size / 4096))).map (fun i => 32 + tier2Port s (bits pa 43 0 + i * (max 4096 (size / 16))))).eraseDups
/-- Whether every home of a page has one of its 4 fork entries free (R369). -/
def forkFree (s : State) (pa : W64) (size : Nat) : Bool :=
  (forkPlaces s pa size).all (fun p =>
    (s.pkg.migs.filter (fun m => m.phase != .waiting && (forkPlaces s m.old m.size).contains p)).length < 4)
/-- MIGRATION_FORK: a migration finds its page's leaf, checks the new place and enters a fork at the old page's home; with no entry
free it waits (R369, R371). Operand: command. -/
def execMigrationFork (s : State) : Outcome :=
  match migOf s s.ev.x with
  | some ⟨c, _, _, new, _, _, _, .waiting⟩ =>
    let va := match c.op with | .migrate va _ => bits va 47 0 | _ => 0
    match leafPlace s (commandQueue s c) va with
    | (.leaf e size, at_, s) =>
      let old := entryTarget e
      let apart := old.toNat + size ≤ new.toNat || new.toNat + size ≤ old.toNat
      if new.toNat % size != 0 || !apart || !space10Ok s new size || bits old 61 58 == 5 then
        .next (failCommand (dropMig s c.id) c cRange)
      else if !forkFree s old size then .next (again s .migrationFork)
      else
        let m := { cmd := c, size := size, old := old, new := new, leafAt := at_, leaf := e,
                   cmp := bitAt e 60 && bits new 61 58 == 1, phase := .copying 0 : Migration }
        .next (schedule (setMig s m) (s.now + 1) .migrationCopyLine s.ev)
    | (.poisoned, _, s) => .next (commandError (dropMig s c.id) c)
    | (_, _, s) => .next (failCommand (dropMig s c.id) c cPageFault)
  | _ => .next s
/-- MIGRATION_COPY_LINE: the engine of a fork copies the next 128-byte line from the old home to the new (R369); a poisoned line is not
copied, and the gang of the command rolls back (R355). Operand: command. -/
def execMigrationCopyLine (s : State) : Outcome :=
  match migOf s s.ev.x with
  | some m =>
    match m.phase with
    | .copying pos =>
      let from_ := m.old + BitVec.ofNat 64 pos
      if physBad s from_ 128 then .next (commandError (countPoison (dropMig s m.cmd.id) from_) m.cmd)
      else
        let bs := homeRead s from_ 128
        let s := countHome s from_ 128
        let s := physHomeWrite s (m.new + BitVec.ofNat 64 pos) bs m.cmp
        if pos + 128 < m.size then
          .next (schedule (setMig s { m with phase := .copying (pos + 128) }) (s.now + 1) .migrationCopyLine s.ev)
        else .next (schedule (setMig s { m with phase := .switching }) (s.now + 1) .migrationSwitch s.ev)
    | _ => .next s
  | none => .next s
/-- MIGRATION_SWITCH: the leaf's PA is rewritten at home to the new page, and the page's TLB entries are invalidated; CMP clears
where the new page is not in HBM (R358, R369). Operand: command. -/
def execMigrationSwitch (s : State) : Outcome :=
  match migOf s s.ev.x with
  | some m =>
    if m.phase == .switching && homeBad s m.leafAt 8 then
      .next (commandError (countStack (dropMig s m.cmd.id) (stackOf m.leafAt) 5 1) m.cmd)
    else if m.phase == .switching then
      let s := countRead s (m.leafAt / 128)
      let e := BitVec.ofNat 64 (leNat (hbmBytes s m.leafAt 8))
      let e := putBits e 45 0 (bits m.new 61 16)
      let e := if bits m.new 61 58 == 1 then e else putBits e 60 60 0
      let s := homeWrite (setMig s { m with phase := .invalidating }) m.leafAt (leBytes 8 e.toNat) false
      let s := { s with pkg := { s.pkg with invals := s.pkg.invals ++ [(m.cmd, 0, 0, [])] } }
      .next (schedule s s.now .tlbinvComplete s.ev)
    else .next s
  | none => .next s
/-- MIGRATION_RELEASE: every die's copies of the old page are dropped, the fork is free and the tag is set (R369). Operand:
command. -/
def execMigrationRelease (s : State) : Outcome :=
  match migOf s s.ev.x with
  | some m =>
    if m.phase == .invalidating && !s.pkg.invals.any (fun v => v.1.id == m.cmd.id) then
      let a := bits m.old 40 0
      let old := fun (l : CacheLine) => bits m.old 61 58 == 1 && a ≤ 64 * l.line && 64 * l.line < a + m.size
      let s := { s with die := s.die.map (fun (e : Nat × Die) => (e.1, { e.2 with cache := e.2.cache.filter (fun l => !old l) })) }
      .next (completeCommand (dropMig s m.cmd.id) m.cmd.cx m.cmd.id m.cmd.tag)
    else .next s
  | none => .next s

/-! ## Indirect streams (R367, R368) -/

/-- n bytes of at most two pages read at home for a command (R368; 09_memory_model, R266). -/
def homeGather (s : State) (c : Command) (a : W64) (n : Nat) : Gather × State :=
  match reachPieces s c.core (commandQueue s c) a n false 2 with
  | (.error g, s) => (g, s)
  | (.ok ps, s) =>
    match ps.find? (fun p => physBad s p.pa p.n) with
    | some p => (.error, countPoison s p.pa)
    | none => (.got (ps.flatMap (fun p => homeRead s p.pa p.n)), ps.foldl (fun s p => countHome s p.pa p.n) s)
/-- Bytes of at most two pages written at home, updating no copy; nothing is written unless every page is reached. -/
def homeScatter (s : State) (c : Command) (a : W64) (bs : List Byte) : Gather × State :=
  match reachPieces s c.core (commandQueue s c) a bs.length true 2 with
  | (.error g, s) => (g, s)
  | (.ok ps, s) =>
    let put := fun (w : List Byte × State) (p : Piece) => (w.1.drop p.n, leaveWrite w.2 c p.a p.pa p.cmp true (w.1.take p.n))
    (.got [], (ps.foldl put (bs, s)).2)
/-- The address of an indirect stream's table element, when it lies in space 01. -/
def tableAddress (d : V512) (idx : Nat) : Option W64 :=
  let a := BitVec.ofNat 64 (descField d 8 8 + idx * descField d 32 4)
  if bits a 63 48 == 2 ^ 14 then some a else none
/-- The core memory place of an indirect stream's element: physical core and offset, when it lies in the logical core's window. -/
def streamPlace (s : State) (c : Command) (d : V512) (i : Nat) : Option (Nat × Nat) :=
  let loc := BitVec.ofNat 64 (descField d 16 8)
  let esz := descField d 28 4
  let off := bits loc 18 0 + i * esz
  let x := bits loc 60 52
  let y := bits loc 51 44
  match boundAt s c.core x y with
  | some (k, _) => if off + esz ≤ (windowOf s x y).2 then some (k, windowed s x y off) else none
  | none => none
/-- One element moved: read and written; what stands in the way otherwise. -/
def moveElement (s : State) (c : Command) (d : V512) (i idx : Nat) : Gather × State :=
  let esz := descField d 28 4
  match tableAddress d idx, streamPlace s c d i with
  | none, _ => (.failed cPageFault, s)
  | _, none => (.failed cRange, s)
  | some a, some (k, off) =>
    if descField d 37 1 == 0 then
      match homeGather s c a esz with
      | (.got bs, s) => (.got [], portWrite s k off bs true)
      | r => r
    else if portBad s k off esz then (.error, s)
    else homeScatter (countCorrected s k off esz) c a (portRead s k off esz)
/-- The engine's stack counts an element moved (R367, R372). -/
def countElement (s : State) (j : XJob) : State :=
  match j.stack with
  | some k => countStack s k 6 1
  | none => s
/-- What an element that was not moved leaves of its command: it parks at a page, ends with a code, or its gang rolls back. -/
def stopXstr (s : State) (j : XJob) (g : Gather) : State :=
  match g with
  | .absent va =>
    if s.pkg.denied.contains j.cmd.id then
      schedule (setXJob (undeny s j.cmd.id) { j with fail := some cPageFault }) s.now .xstrComplete s.ev
    else parkCommand s (commandQueue s j.cmd) j.cmd va .xstrElement (evArgs j.cmd.id 0 0)
  | .failed code => schedule (setXJob s { j with fail := some code }) s.now .xstrComplete s.ev
  | .wait w => putOff s w .xstrElement s.ev
  | _ => consumeError (dropXJob s j.cmd.id) (commandRegion s j.cmd) cEccUe
/-- The stack of an indirect stream's index array; an array that begins outside HBM lies in no stack, and the model's part takes an
engine of its choice (R367; log entry 116). -/
def engineStack (s : State) (pa : W64) : Nat × State :=
  if bits pa 61 58 == 1 then (stackOf (bits pa 40 0), s)
  else
    let (f, s) := takeFresh s
    (Config.choice f % 32, s)
/-- An indirect stream sent to the engine of its index array's stack, behind the commands that the engine has (R367). -/
def joinEngine (s : State) (j : XJob) (pa : W64) : State :=
  let (k, s) := engineStack s pa
  let t := dropXJob s j.cmd.id
  { t with pkg := { t.pkg with xjobs := t.pkg.xjobs ++ [{ j with stack := some k }] } }
/-- Whether a command is the first of those that an engine has (R367). -/
def engineHead (s : State) (k id : Nat) : Bool :=
  ((s.pkg.xjobs.find? (fun j => j.stack == some k)).map (fun j => j.cmd.id)) == some id
/-- The next element of an indirect stream: its index read, its element moved, in ascending order (R367, R368). -/
def nextElement (s : State) (j : XJob) (d : V512) : State :=
  let c := j.cmd
  let w := if descField d 36 1 == 0 then 4 else 8
  match homeGather s c (BitVec.ofNat 64 (descField d 0 8 + j.pos * w)) w with
  | (.got bs, s) =>
    let idx := leNat bs
    if descField d 39 1 == 1 && descField d 40 8 ≤ idx then stopXstr s j (.failed cRange)
    else
      match moveElement s c d j.pos idx with
      | (.got _, s) => again (setXJob (countElement s j) { j with pos := j.pos + 1 }) .xstrElement
      | (g, s) => stopXstr s j g
  | (g, s) => stopXstr s j g
/-- XSTR_ELEMENT: an indirect stream goes to the engine of its index array's stack; there, after the commands before it, the engine
reads the next index and moves its element; an index at or above LIMIT, a rejected address or a refused page ends the command (R367,
R368). Operand: command. -/
def execXstrElement (s : State) : Outcome :=
  match xjobOf s s.ev.x with
  | some ⟨⟨id, k, cx, tag, .xstr d, org⟩, pos, none, at_⟩ =>
    let c : Command := ⟨id, k, cx, tag, .xstr d, org⟩
    let j : XJob := ⟨c, pos, none, at_⟩
    if isParked s id then .next s
    else if gangAway s cx then .next (again s .xstrElement)
    else match at_ with
    | none =>
      match reach s k (commandQueue s c) (BitVec.ofNat 64 (descField d 0 8)) false with
      | (.at_ pa _, s) => .next (again (joinEngine s j pa) .xstrElement)
      | (.absent va, s) => .next (stopXstr s j (.absent va))
      | (.failed code, s) => .next (stopXstr s j (.failed code))
      | (.poisoned, s) => .next (stopXstr s j .error)
    | some e =>
      if !engineHead s e id then .next (again s .xstrElement)
      else if descField d 24 4 ≤ pos then .next (schedule s s.now .xstrComplete s.ev)
      else .next (nextElement s j d)
  | _ => .next s
/-- XSTR_COMPLETE: an indirect stream whose every element is performed sets its tag, or ends with its code (R368). Operand:
command. -/
def execXstrComplete (s : State) : Outcome :=
  match xjobOf s s.ev.x with
  | some ⟨c, pos, fail, _⟩ =>
    match c.op, fail with
    | .xstr _, some code => .next (failCommand (dropXJob s c.id) c code)
    | .xstr d, none =>
      if pos < descField d 24 4 then .next s
      else if writesOut s c.id then .next (again s .xstrComplete)
      else .next (completeCommand (dropXJob s c.id) c.cx c.id c.tag)
    | _, _ => .next s
  | none => .next s

end Sys2Proof.Machine
end

