-- ==== Sys2Proof/Machine/CascadeUnit.lean ====
section
/-! DEFINITION. The Cascade: source hubs, branch hubs, receive slots, votes, acknowledgements, retries and lasers (11_package_cascade,
R298 to R321). -/
namespace Sys2Proof.Machine

/-! ## Fields -/

/-- The source die of a group. -/
def groupDie (g : Group) : Nat := bits g.cfg 62 57
/-- The branch depth of a group. -/
def groupDepth (g : Group) : Nat := bits g.cfg 52 50
/-- The dies that are branches of a group. -/
def branchDies (g : Group) : List Nat := (List.range 64).filter (bitAt g.br)
/-- A group's entry on a die. -/
def branchOf (s : State) (die g : Nat) : Branch := tget (dieOf s die).branch Branch.reset g
/-- A group's entry on a die replaced. -/
def setBranch (s : State) (die g : Nat) (b : Branch) : State :=
  let d := dieOf s die
  setDie s die { d with branch := tput d.branch g b }
/-- The steps that may follow a change at a group: its launch, and its branches' forwards. -/
def pokeGroup (s : State) (g : Nat) : State :=
  let s := schedule s s.now .cascadeBlockLaunch (evArgs g 0 0)
  (branchDies (groupOf s g)).foldl (fun s d => schedule s s.now .branchForward (evArgs d g 0)) s
/-- The ticks that a block takes at launch: its payload and header, 64 bytes a tick (R298). -/
def launchTicks (b : Block) : Nat := ceilDiv (b.len + 32) 64
/-- The ticks from a branch buffer to a member's slot (R298). -/
def emitTicks (b : Block) : Nat := ceilDiv b.len 64 + 8

/-! ## The bytes of a block (R300) -/

/-- Bytes 0 to 27 of a block's header. -/
def blockHeader (b : Block) : List Byte :=
  leBytes 1 b.gid ++ leBytes 1 (b.fmt.toNat + 8 * ofBool b.fm + 16 * ofBool b.last) ++ leBytes 2 b.seq.toNat ++ leBytes 2 b.len ++
    leBytes 2 b.soff ++ leBytes 4 b.scl.toNat ++ leBytes 16 0
/-- The payload of a block. -/
def blockPayload (b : Block) : List Byte := b.data.flatMap vBytes
/-- The CRC that a block's header carries: CRC-32C over bytes 0 to 27 and the payload. -/
def blockCrc (b : Block) : W32 := crc32c (blockHeader b ++ blockPayload b)
/-- A block as it is sent. -/
def blockBytes (b : Block) : List Byte := blockHeader b ++ leBytes 4 b.crc.toNat ++ blockPayload b
/-- A block as it is read from its bytes. -/
def blockOf (bs : List Byte) : Block :=
  let f := fun (k n : Nat) => leNat ((bs.drop k).take n)
  { gid := f 0 1, fmt := BitVec.ofNat 3 (f 1 1), fm := bitAt (bs.getD 1 0) 3, last := bitAt (bs.getD 1 0) 4, seq := BitVec.ofNat 16 (f 2 2),
    len := f 4 2, soff := f 6 2, scl := BitVec.ofNat 20 (f 8 4)
    data := (List.range ((bs.length - 32) / 64)).map (fun i => ofBytes ((bs.drop (32 + 64 * i)).take 64)), crc := BitVec.ofNat 32 (f 28 4) }
/-- Bytes with some received wrong: the bits of a pattern changed from a byte on. -/
def struck (bs : List Byte) (at_ : Nat) (flips : BitVec 2048) : List Byte :=
  bs.take at_ ++ (List.zipWith (fun a b => a ^^^ b) (bs.drop at_) (leBytes 256 flips.toNat)) ++ bs.drop (at_ + 256)
/-- A block as it is received, when its CRC checks; the pattern of the bits that came wrong, and the byte where it begins, are the outside
world's. -/
def received (b : Block) (at_ : Nat) (flips : BitVec 2048) : Option Block :=
  if flips == 0 then (if blockCrc b == b.crc then some b else none)
  else
    let c := blockOf (struck (blockBytes b) at_ flips)
    if blockCrc c == c.crc then some c else none

/-! ## Reading the source (R313, R315) -/

/-- n source bytes of a CGSEND from an offset of its source: from the pinned store, whose refresh windows and errors it meets, or from
memory page by page (10_die, R289, R292). -/
def sendBytes (s : State) (die : Nat) (c : Command) (off n : Nat) : Gather × State :=
  match c.op with
  | .cgsend _ src _ _ _ pinned _ _ _ _ =>
    if pinned then
      let at_ := src.toNat + off
      let wait := reservoirWait s die (pinnedAddress die at_) n
      if wait.2.1 != 0 then (.wait wait, s)
      else if pinnedBad s die at_ n then (.error, s)
      else (.got (pinnedBytes s die at_ n), pinnedFix s die at_ n)
    else gatherOn s die c.core (commandQueue s c) (src + BitVec.ofNat 64 off) n (n / 65536 + 2)
  | _ => (.got [], s)
/-- Whether the header of a compressed stream keeps its limits (R313). -/
def huffHeaderOk (hdr : List Byte) (len : Nat) : Bool :=
  let f := fun (k n : Nat) => leNat ((hdr.drop k).take n)
  let count := fun (l : Nat) => f (10 + 2 * l) 2
  let ls := (List.range 12).map (fun i => i + 1)
  f 0 4 == len && 1 ≤ f 8 2 && f 8 2 ≤ 256 && f 10 2 == 0 && (ls.map count).sum == f 8 2 &&
    (ls.map (fun l => count l * 2 ^ (12 - l))).sum ≤ 4096
/-- The bits of bytes, the most significant of each first. -/
def msbBits (bs : List Byte) : List Bool := bs.flatMap (fun b => (List.range 8).map (fun i => bitAt b (7 - i)))
/-- Symbols decoded from bits: the code read so far, its length, the first code of that length and the index of its symbol; none
when a code matches no symbol or the bits end early (R143, R313). -/
def huffSymbols (count : Nat → Nat) (sym : Nat → Byte) : List Bool → Nat → Nat → Nat → Nat → Nat → Option (List Byte)
  | _, _, _, _, _, 0 => some []
  | [], _, _, _, _, _ + 1 => none
  | b :: r, code, l, first, base, n + 1 =>
    let code := 2 * code + ofBool b
    let base := if l == 0 then 0 else base + count l
    let first := if l == 0 then 0 else 2 * (first + count l)
    let l := l + 1
    if 12 < l then none
    else if first ≤ code && code - first < count l then
      (huffSymbols count sym r 0 0 0 0 n).map (fun t => sym (base + (code - first)) :: t)
    else huffSymbols count sym r code l first base (n + 1)
/-- What a hub gets when it reads a block's payload: the bytes, a bad stream, or what stands in the way. -/
inductive Cut where
  | got (bs : List Byte)
  | badStream
  | stuck (g : Gather)
deriving DecidableEq, Repr

/-- The expanded bytes of a compressed source from an offset (R313). -/
def expanded (s : State) (die : Nat) (c : Command) (len pos n : Nat) : Cut × State :=
  match sendBytes s die c 0 36 with
  | (.got hdr, s) =>
    if !huffHeaderOk hdr len then (.badStream, s)
    else
      let nsym := leNat ((hdr.drop 8).take 2)
      let start := (36 + nsym + 3) / 4 * 4
      let want := min (leNat ((hdr.drop 4).take 4)) (2 * (pos + n))
      match sendBytes s die c 36 (start - 36 + want) with
      | (.got rest, s) =>
        let count := fun (l : Nat) => leNat ((hdr.drop (10 + 2 * l)).take 2)
        match huffSymbols count (fun i => rest.getD i 0) (msbBits (rest.drop (start - 36))) 0 0 0 0 (pos + n) with
        | some bs => (.got (bs.drop pos), s)
        | none => (.badStream, s)
      | (g, s) => (.stuck g, s)
  | (g, s) => (.stuck g, s)
/-- The payload of a CGSEND's block from a position. -/
def cutBlock (s : State) (die : Nat) (c : Command) (len pos n : Nat) (huf : Bool) : Cut × State :=
  if huf then expanded s die c len pos n
  else match sendBytes s die c pos n with
    | (.got bs, s) => (.got bs, s)
    | (g, s) => (.stuck g, s)

/-! ## Launch (R309, R315) -/

/-- Whether a branch has a free entry for a block: with E = 0, whether it could forward the block at once, those in flight and
waiting counted (R309). -/
def branchFree (s : State) (g e die : Nat) : Bool :=
  let b := branchOf s die g
  if e == 0 then
    let ahead := b.air.length + (b.buf.filter (fun x => !x.forwarded)).length
    !holdN b && (b.fwd - minRel b).toNat + ahead < 4
  else b.air.length + b.buf.length < e
/-- A CGSEND that is over without a further block. -/
def dropSend (s : State) (g : Nat) (c : Command) : State :=
  let x := groupOf s g
  pokeGroup (setGroup s g { x with sends := x.sends.filter (fun d => d.cmd.id != c.id) }) g
/-- A block of a group launched: into the retransmit store and on its way to every branch (R309, R310). -/
def launchBlock (s : State) (g : Nat) (b : Block) (send : Send) (last : Bool) : State :=
  let x := groupOf s g
  let dies := branchDies x
  let send' := { send with pos := send.pos + b.len, lastSeq := if last then some b.seq else none }
  let put := fun (d : Send) => if d.cmd.id == send.cmd.id then send' else d
  let s := setGroup s g { x with seq := x.seq + 1, since := s.now, store := x.store ++ [(b, dies, 0)], sends := x.sends.map put }
  let s := countCasc s (groupDie x) 0 1
  let fly := fun (s : State) (d : Nat) =>
    let h := branchOf s d g
    schedule (setBranch s d g { h with air := h.air ++ [b] }) (s.now + launchTicks b) .branchReceive (evArgs d g 0)
  schedule (dies.foldl fly s) (s.now + launchTicks b) .cascadeBlockLaunch (evArgs g 0 0)
/-- What a source hub that could not read its block leaves of the command: it parks at a page or waits for a Reservoir, ends with a code,
or its gang rolls back (R315; 10_die, R292; 13_package_memory, R360). -/
def stopSend (s : State) (g : Nat) (send : Send) (cut : Cut) : State :=
  let c := send.cmd
  match cut with
  | .badStream => failCommand (countCasc (dropSend s g c) (groupDie (groupOf s g)) 5 1) c cIllegalOperand
  | .stuck (.absent va) =>
    if s.pkg.denied.contains c.id then failCommand (dropSend (undeny s c.id) g c) c cPageFault
    else parkCommand s (commandQueue s c) c va .cascadeBlockLaunch (evArgs g 0 0)
  | .stuck (.wait w) => putOff s w .cascadeBlockLaunch (evArgs g 0 0)
  | .stuck (.failed code) => failCommand (dropSend s g c) c code
  | _ => consumeError (dropSend s g c) send.region cEccUe
/-- The block of a CGSEND cut at its position, read and launched (R300, R315). -/
def cutAndLaunch (s : State) (g : Nat) (send : Send) : State :=
  let x := groupOf s g
  let die := groupDie x
  match send.cmd.op with
  | .cgsend _ _ len blen soff _ huf lastBit fmt fm =>
    let n := min blen (len - send.pos)
    if isParked s send.cmd.id then s
    else if gangAway s send.cmd.cx then schedule s (s.now + 1) .cascadeBlockLaunch (evArgs g 0 0)
    else
      match cutBlock s die send.cmd len send.pos n huf with
      | (.got bs, s) =>
        let last := len ≤ send.pos + n
        let so := if n ≤ soff then 0 else soff
        let lines := (List.range (n / 64)).map (fun i => ofBytes ((bs.drop (64 * i)).take 64))
        let scl := if so == 0 then 0 else BitVec.ofNat 20 (leNat ((bs.drop so).take 4))
        let b : Block := { gid := g, fmt := fmt, fm := fm, last := last && lastBit, seq := x.seq, len := n, soff := so,
                           scl := scl, data := lines, crc := 0 }
        launchBlock s g { b with crc := blockCrc b } send last
      | (cut, s) => stopSend s g send cut
  | _ => s
/-- The tick of the last look of a stalled step: its own operand, or that of the same step under way; 0 when nothing stalls. -/
def lookedAt (s : State) (own : Nat) (mine : Pending → Bool) (at_ : Pending → Nat) : Nat :=
  if own != 0 then own else ((s.agenda.find? (fun p => mine p && at_ p != 0)).map at_).getD 0
/-- CASCADE_BLOCK_LAUNCH: the source hub launches its group's next block once the laser is lit, fewer than 4 blocks are
unacknowledged and every branch has a free entry; a wait for an entry counts BUF_STALL (R309). Operands: group; y is the tick of
the last look that stalled. -/
def execCascadeBlockLaunch (s : State) : Outcome :=
  let g := s.ev.x
  let x := groupOf s g
  let mine := fun (p : Pending) => p.op == .cascadeBlockLaunch && p.args.x == g
  let from_ := lookedAt s s.ev.y mine (fun p => p.args.y)
  let s := { s with agenda := s.agenda.filter (fun p => !(mine p && p.args.y != 0)) }
  let s := if from_ == 0 then s else countCasc s (groupDie x) 7 (s.now - from_)
  match x.sends.find? (fun d => d.lastSeq.isNone) with
  | none => .next s
  | some send =>
    if x.fault || x.laser != .lit || 4 ≤ (x.seq - x.ackd).toNat then .next s
    else if !(branchDies x).all (branchFree s g (groupDepth x)) then .next (schedule s (s.now + 1) .cascadeBlockLaunch (evArgs g s.now 0))
    else .next (cutAndLaunch { s with agenda := s.agenda.filter (fun p => !mine p) } g send)

/-! ## Branches (R308 to R311) -/

/-- A group that has failed 8 times at one level: FAULT is set, and every gang with a member rolls back (R311). -/
def faultGroup (s : State) (g : Nat) : State :=
  let s := setGroup s g { groupOf s g with fault := true }
  let member := fun (k : Nat) => (coreOf s k).cgf.toList.any (fun f => bitAt f 63 && bits f 62 55 == g)
  let gangs := (s.region.filter (fun e => e.2.st != .free && e.2.cores.any member)).map (fun e => e.1)
  gangs.foldl (fun s n => consumeError s n cEccUe) s
/-- A block put into a branch's entries in SEQ order. -/
def insertBlock (e : BranchEntry) : List BranchEntry → List BranchEntry
  | [] => [e]
  | x :: r => if serialBefore e.blk.seq x.blk.seq then e :: x :: r else x :: insertBlock e r
/-- BRANCH_RECEIVE: a branch hub drops a block from the waveguide: with a good CRC it takes the block and acknowledges, else it
counts CRC_BR and asks again for that SEQ, 8 failures of one block being a fault; a block that it holds or has forwarded is discarded
(R309 to R311). Operands: die, group; z and flit are the bits received wrong. -/
def execBranchReceive (s : State) : Outcome :=
  let die := s.ev.x
  let g := s.ev.y
  let b := branchOf s die g
  match b.air with
  | [] => .next s
  | blk :: r =>
    let b := { b with air := r }
    match received blk s.ev.z s.ev.flit with
    | some blk =>
      if b.buf.any (fun e => e.blk.seq == blk.seq) || serialBefore blk.seq b.fwd then .next (setBranch s die g b)
      else
        let e : BranchEntry := { blk := blk, forwarded := false, due := 0, wait := [], again := [], sent := [], fails := [] }
        let s := setBranch s die g { b with buf := insertBlock e b.buf, fails := b.fails.filter (fun x => x.1 != blk.seq) }
        let home := hubCore (groupDie (groupOf s g))
        let s := injectFlit s 3 (hubCore die) home (hubCore die) (.branchAck g die blk.seq)
        .next (schedule s s.now .branchForward (evArgs die g 0))
    | none =>
      let n := ((b.fails.find? (fun x => x.1 == blk.seq)).map (fun x => x.2)).getD 0 + 1
      let s := countCasc (setBranch s die g { b with fails := (blk.seq, n) :: b.fails.filter (fun x => x.1 != blk.seq) }) die 2 1
      if 8 ≤ n then .next (faultGroup s g) else .next (schedule s s.now .retransmitRequest (evArgs die g blk.seq.toNat))
/-- RETRANSMIT_REQUEST: the source launches a block again, from its store, towards a branch that has asked for its SEQ (R310).
Operands: die, group, SEQ. -/
def execRetransmitRequest (s : State) : Outcome :=
  let die := s.ev.x
  let g := s.ev.y
  let b := branchOf s die g
  match (groupOf s g).store.find? (fun e => e.1.seq.toNat == s.ev.z && e.2.1.contains die) with
  | none => .next s
  | some (blk, _, _) =>
    .next (schedule (setBranch s die g { b with air := b.air ++ [blk] }) (s.now + launchTicks blk) .branchReceive (evArgs die g 0))
/-- The members of a group on a die: cores and filters, in the lit segments (R303, R304). -/
def members (s : State) (die g : Nat) : List (Nat × Nat) :=
  let seg := (branchOf s die g).seg
  let here := s.core.filter (fun e => dieKey e.1 == die && bitAt seg (clusterKey e.1 % 12))
  here.flatMap (fun e =>
    ((List.range 4).filter (fun f => let v := vget e.2.cgf f 0; bitAt v 63 && bits v 62 55 == g)).map (fun f => (e.1, f)))
/-- Whether an entry of a branch is done with: forwarded, its last byte at the cores, no member to wait for. -/
def entryDone (now : Nat) (e : BranchEntry) : Bool := e.forwarded && e.wait.isEmpty && decide (e.due ≤ now)
/-- A branch's entries replaced, those that are done with freed; what may follow at the group is looked at again. -/
def putEntries (s : State) (die g : Nat) (f : BranchEntry → BranchEntry) : State :=
  let b := branchOf s die g
  pokeGroup (setBranch s die g { b with buf := (b.buf.map f).filter (fun e => !entryDone s.now e) }) g
/-- The entry of a branch that holds a SEQ changed. -/
def editEntry (s : State) (die g : Nat) (seq : W16) (f : BranchEntry → BranchEntry) : State :=
  putEntries s die g (fun e => if e.blk.seq == seq then f e else e)
/-- A branch forwards a block to the members that are there; one whose filter names the group before the last byte comes joins them
(R304, R309). -/
def forwardBlock (s : State) (die g : Nat) (e : BranchEntry) : State :=
  let b := branchOf s die g
  let ms := members s die g
  let due := s.now + emitTicks e.blk
  let buf := b.buf.map (fun x => if x.blk.seq == e.blk.seq then { e with forwarded := true, due := due, wait := ms } else x)
  let s := countCasc (setBranch s die g { b with fwd := b.fwd + 1, buf := buf }) die 1 1
  let s := ms.foldl (fun s m => schedule s due .memberSlotFill (evArgs m.1 m.2 e.blk.seq.toNat)) s
  schedule (schedule s due .branchForward (evArgs die g 0)) s.now .branchForward (evArgs die g 0)
/-- BRANCH_FORWARD: a branch frees the entries that it is done with, and forwards its oldest block to its members when no member holds
its grant, fewer than 4 blocks are ahead of the slowest release and no re-emission is due or under way; a wait for a grant counts
GRANT_STALL (R308, R309). Operands: die, group; z is the tick of the last look that stalled. -/
def execBranchForward (s : State) : Outcome :=
  let die := s.ev.x
  let g := s.ev.y
  let mine := fun (p : Pending) => p.op == .branchForward && p.args.x == die && p.args.y == g
  let from_ := lookedAt s s.ev.z mine (fun p => p.args.z)
  let s := { s with agenda := s.agenda.filter (fun p => !(mine p && p.args.z != 0)) }
  let s := if from_ == 0 then s else countCasc s die 6 (s.now - from_)
  let s := if (branchOf s die g).buf.any (entryDone s.now) then putEntries s die g id else s
  let b := branchOf s die g
  match b.buf.find? (fun e => !e.forwarded) with
  | none => .next s
  | some e =>
    if e.blk.seq != b.fwd || b.buf.any (fun x => !x.again.isEmpty || !x.sent.isEmpty) then .next s
    else if holdN b || 4 ≤ (b.fwd - minRel b).toNat then .next (schedule s (s.now + 1) .branchForward (evArgs die g s.now))
    else .next (forwardBlock s die g e)

/-! ## Members (R304 to R308, R310) -/

/-- The lowest free slot of a receive port. -/
def freeSlotOf (c : Core) (p : Nat) : Option Nat :=
  ((List.range 4).map (fun i => 4 * p + i)).find? (fun i => (vget c.rx i RxSlot.reset).st == .free)
/-- A slot filled with a block: deposited in local memory in deposit mode, then full, and queued for its context (R305 to R307). -/
def fillSlot (s : State) (k f slot : Nat) (blk : Block) : State :=
  let v := vget (coreOf s k).cgf f 0
  let p := slot / 4
  let cx := bits v 53 52
  let x := ctxOf s k cx
  let w := vget (coreOf s k).cgp p 0
  let at_ := windowed s x.lx x.ly (256 * bits w 29 19 + 8192 * (slot % 4))
  let s := if bitAt w 31 then portWrite s k at_ (blk.data.flatMap vBytes) true else s
  let o := coreOf s k
  let r : RxSlot := { RxSlot.reset with st := .full, blk := some blk, filter := f, cx := cx }
  let s := setCore s k { o with
    rx := vset o.rx slot r, fills := vset o.fills slot (vget o.fills slot 0 + 1), cgf := vset o.cgf f (putBits v 15 0 (bits v 15 0 + 1)) }
  let x := ctxOf s k cx
  setCtx s k cx { x with blocks := vset x.blocks p (vget x.blocks p [] ++ [slot]) }
/-- The group, the branch and the first entry at a core's die for which a condition holds. -/
def entryWhere (s : State) (k : Nat) (p : BranchEntry → Bool) : Option (Nat × Branch × BranchEntry) :=
  match (dieOf s (dieKey k)).branch.find? (fun b => b.2.buf.any p) with
  | none => none
  | some (g, b) => (b.buf.find? p).map (fun e => (g, b, e))
/-- Whether an earlier block of a group has not reached a member yet: it takes none before (R310, R312). -/
def behindEarlier (b : Branch) (e : BranchEntry) (m : Nat × Nat) : Bool :=
  b.buf.any (fun x => serialBefore x.blk.seq e.blk.seq && x.wait.contains m)
/-- A block that a member has not taken: its branch is to emit it again. -/
def needAgain (m : Nat × Nat) (e : BranchEntry) : BranchEntry := { e with again := e.again ++ [m], sent := e.sent.erase m }
/-- MEMBER_SLOT_FILL: a block fills a member's lowest free slot when its CRC checks, and is acknowledged; with no free slot, or behind
an earlier block that the member lacks, it is emitted again later, with a bad CRC at once, 8 failures being a fault (R305, R308,
R310 to R312). Operands: core, filter, SEQ; v and flit are the bits received wrong. -/
def execMemberSlotFill (s : State) : Outcome :=
  let k := s.ev.x
  let m := (k, s.ev.y)
  let die := dieKey k
  let v := vget (coreOf s k).cgf s.ev.y 0
  match entryWhere s k (fun e => e.forwarded && e.blk.seq.toNat == s.ev.z && e.wait.contains m && !e.again.contains m) with
  | none => .next s
  | some (g, b, e) =>
    if behindEarlier b e m then .next (editEntry s die g e.blk.seq (needAgain m))
    else
      match freeSlotOf (coreOf s k) (bits v 54 54), received e.blk s.ev.v.toNat s.ev.flit with
      | none, _ => .next (editEntry s die g e.blk.seq (needAgain m))
      | some _, none =>
        let n := ((e.fails.find? (fun x => (x.1, x.2.1) == m)).map (fun x => x.2.2)).getD 0 + 1
        let note := fun (e : BranchEntry) => { needAgain m e with fails := (k, s.ev.y, n) :: e.fails.filter (fun x => (x.1, x.2.1) != m) }
        let s := countCasc (editEntry s die g e.blk.seq note) die 3 1
        if 8 ≤ n then .next (faultGroup s g) else .next (schedule s s.now .memberReemit (evArgs k s.ev.y 0))
      | some slot, some blk => .next (sendFlit (fillSlot s k s.ev.y slot blk) 3 k (hubCore die) (.memberAck g k s.ev.y e.blk.seq))
/-- MEMBER_REEMIT: a branch emits from its entry again, to one member alone, the oldest block that the member needs (R308, R310).
Operands: core, filter. -/
def execMemberReemit (s : State) : Outcome :=
  let k := s.ev.x
  let m := (k, s.ev.y)
  match entryWhere s k (fun e => e.again.contains m) with
  | none => .next s
  | some (g, b, e) =>
    if behindEarlier b e m then .next s
    else
      let s := editEntry s (dieKey k) g e.blk.seq (fun e => { e with again := e.again.erase m, sent := e.sent ++ [m] })
      .next (schedule s (s.now + emitTicks e.blk) .memberSlotFill (evArgs k s.ev.y e.blk.seq.toNat))
/-- A group's store once some branches have acknowledged: blocks held by every branch leave it, ACKD follows, and the CGSENDs whose
final block every branch holds complete (R302, R310, R315). -/
def settleStore (s : State) (g : Nat) : State :=
  let x := groupOf s g
  let store := x.store.filter (fun e => !e.2.1.isEmpty)
  let ackd := match store with | [] => x.seq | e :: _ => e.1.seq
  let held := fun (d : Send) => match d.lastSeq with | some q => serialBefore q ackd | none => false
  let done := x.sends.filter held
  let s := setGroup s g { x with store := store, ackd := ackd, sends := x.sends.filter (fun d => !held d) }
  done.foldl (fun s d => completeCommand s d.cmd.cx d.cmd.id d.cmd.tag) s
/-- BLOCK_ACK: a member's acknowledgement reaches its branch hub, which emits again what waited behind that block, or a branch's
acknowledgement the source hub (R310, R312). Operand: message. -/
def execBlockAck (s : State) : Outcome :=
  match msgOf s s.ev.x with
  | some ⟨id, _, die, .memberAck g k f seq, _⟩ =>
    let s := editEntry (dropMsg s id) die g seq (fun e => { e with wait := e.wait.erase (k, f), sent := e.sent.erase (k, f) })
    .next (if (branchOf s die g).buf.any (fun e => e.again.contains (k, f)) then schedule s s.now .memberReemit (evArgs k f 0) else s)
  | some ⟨id, _, _, .branchAck g die seq, _⟩ =>
    let s := dropMsg s id
    let x := groupOf s g
    let one := fun (e : Block × List Nat × Nat) => if e.1.seq == seq then (e.1, e.2.1.erase die, e.2.2) else e
    .next (pokeGroup (settleStore (setGroup s g { x with store := x.store.map one }) g) g)
  | _ => .next (waitMsg s .blockAck)
/-- VOTE_ARRIVAL: a member's vote reaches the branch hub of its die, which takes it while the membership stands; one that shows a release
has the blocks emitted again for which its core had no free slot (R304, R308). Operand: message. -/
def execVoteArrival (s : State) : Outcome :=
  match msgOf s s.ev.x with
  | some ⟨id, _, die, .vote g k f rel hold, _⟩ =>
    let s := dropMsg s id
    let b := branchOf s die g
    match b.votes.find? (fun w => w.1 == k && w.2.1 == f) with
    | none => .next s
    | some (_, _, old, _) =>
      let rest := b.votes.filter (fun w => !(w.1 == k && w.2.1 == f))
      let s := setBranch s die g { b with votes := rest ++ [(k, f, rel, hold)] }
      let due := (dieOf s die).branch.flatMap (fun b => b.2.buf.flatMap (fun e => e.again.filter (fun m => m.1 == k)))
      let s := if rel == old then s else due.foldl (fun s m => schedule s s.now .memberReemit (evArgs m.1 m.2 0)) s
      .next (pokeGroup s g)
  | _ => .next (waitMsg s .voteArrival)

/-! ## Lasers and entries (R302, R317) -/

/-- A dark laser woken: lit after 2,000 ticks (R317). -/
def wakeLaser (s : State) (g : Nat) : State :=
  let x := groupOf s g
  if x.laser == .dark then
    schedule (countCasc (setGroup s g { x with laser := .waking }) (groupDie x) 4 1) (s.now + 2000) .laserLit (evArgs g 0 0)
  else s
/-- CGWAKE_ARRIVAL: a CGWAKE or a CGSEND reaches the source hub of its group: a dark laser wakes; a CGWAKE to a lit one restarts its
idle count and completes at once (R315, R317). Operand: message. -/
def execCgwakeArrival (s : State) : Outcome :=
  match msgOf s s.ev.x with
  | some ⟨id, _, _, .wake g (some c), _⟩ =>
    let s := dropMsg s id
    let x := groupOf s g
    match c.op with
    | .cgsend _ _ _ _ _ _ _ _ _ _ =>
      let d : Send := { cmd := c, region := commandRegion s c, pos := 0, lastSeq := none }
      .next (pokeGroup (wakeLaser (setGroup s g { x with sends := x.sends ++ [d] }) g) g)
    | _ =>
      if x.laser == .lit then .next (completeCommand (setGroup s g { x with since := s.now }) c.cx c.id c.tag)
      else .next (wakeLaser (setGroup s g { x with wakes := x.wakes ++ [c] }) g)
  | some ⟨id, _, _, .wake g none, _⟩ => .next (wakeLaser (dropMsg s id) g)
  | _ => .next (waitMsg s .cgwakeArrival)
/-- LASER_LIT: a waking laser is lit; the CGWAKEs that wait for it complete (R317). Operand: group. -/
def execLaserLit (s : State) : Outcome :=
  let g := s.ev.x
  let x := groupOf s g
  if x.laser != .waking then .next s
  else
    let s := setGroup s g { x with laser := .lit, since := s.now, wakes := [] }
    let s := x.wakes.foldl (fun s c => completeCommand s c.cx c.id c.tag) s
    .next (pokeGroup (schedule s (s.now + 1024 * bits x.cfg 49 40) .laserDark (evArgs g 0 0)) g)
/-- LASER_DARK: a laser goes dark after IDLE × 1,024 ticks without a launch or a CGWAKE, never with a block unacknowledged or a
CGSEND queued (R317). Operand: group. -/
def execLaserDark (s : State) : Outcome :=
  let g := s.ev.x
  let x := groupOf s g
  let idle := 1024 * bits x.cfg 49 40
  if idle == 0 || x.laser != .lit then .next s
  else if groupHeld s g || s.now < x.since + idle then
    .next (schedule s (max (s.now + 1) (x.since + idle)) .laserDark (evArgs g 0 0))
  else .next (setGroup s g { x with laser := .dark })
/-- The splitter entries of a group that its configuration has left, gone with the group's own (R302, R303). -/
def dropBranches (s : State) (g : Nat) : State :=
  { s with die := s.die.map (fun (e : Nat × Die) =>
      if (tget e.2.branch Branch.reset g).v then e else (e.1, { e.2 with branch := tdel e.2.branch g })) }
/-- GROUP_ENTRY_WRITE_APPLY: a write to a group's entry that was held takes effect once no block is unacknowledged and no CGSEND is
queued (R302). Operand: group. -/
def execGroupEntryWriteApply (s : State) : Outcome :=
  let g := s.ev.x
  let x := groupOf s g
  if x.heldCfg.isNone && x.heldBr.isNone then .next s
  else if groupHeld s g then .next (again s .groupEntryWriteApply)
  else
    let y := { x with cfg := x.heldCfg.getD x.cfg, br := x.heldBr.getD x.br, heldCfg := none, heldBr := none, fault := false }
    let s := if bitAt y.cfg 63 then setGroup s g y else dropBranches (setGroup s g y) g
    .next (schedule s s.now .laserDark (evArgs g 0 0))

end Sys2Proof.Machine
end

