-- ==== Sys2Proof/Machine/Vector.lean ====
section
/-! DEFINITION. The vector pipe's moves, arithmetic, compares, reductions and masks (04_core_compute, R124 to R132). -/
namespace Sys2Proof.Machine

/-! ## Shapes shared by the family -/

/-- What one lane, or one FP64 element, yields: its value, its flags, the quantity that its residue check compares (R115). -/
structure LaneOut (w : Nat) where
  val : BitVec w
  fl : Flags
  q : Nat

/-- The check of the lanes that take part: only the lane that the injector names can mismatch (R115, R229). -/
def checkedLanes (s : State) (part : Nat → Bool) (q : Nat → Nat) : Body Unit := do
  let w ← get
  let l := bits w.inj 19 16
  if part l then checked s 1 l (q l) else pure ()
/-- Every lane. -/
def allLanes (_ : Nat) : Bool := true
/-- The rounding mode of scalar and vector floating arithmetic, as at cycle 0 (03_core_numbers, R89, R102). -/
def rounding (s : State) : BitVec 2 := (bodyCtx s).rnd

/-- A masked instruction on lanes of 32 bits: x of srcA, y of srcB, the old lane of an in-place destination (R112, R113). -/
def vecMasked (s : State) (opc : BitVec 8) (cost : Nat) (rtype : BitVec 3) (a b d e : Opd) (t : Tag)
    (f : W32 → W32 → W32 → LaneOut 32) : Outcome :=
  runBody s opc .vector 1 cost do
    let (x, sa) ← readV s a (keepIn t)
    let (y, sb) ← readV s b (keepIn t)
    let w ← get
    let old := vget w.v d.toNat 0
    let r := fun i => f (lane x i) (lane y i) (lane old i)
    checkedLanes s (bitAt w.lm) (fun i => (r i).q)
    raiseFlags (laneFlags (bitAt w.lm) (fun i => (r i).fl))
    resultV s d e ⟨t, rtype, sa, sb⟩ (maskedLanes w d (bitAt w.lm) (fun i => (r i).val))
/-- FP64 element j of a vector value: lanes 2j and 2j + 1 (R124). -/
def elem64 (v : V512) (j : Nat) : W64 := v.extractLsb' (64 * j) 64
/-- A masked instruction on FP64 pairs: the pair takes its result when lm[2j] is set, and is checked at lane 2j (R113, R115). -/
def vecMasked64 (s : State) (opc : BitVec 8) (cost : Nat) (a b d e : Opd) (t : Tag)
    (f : W64 → W64 → W64 → LaneOut 64) : Outcome :=
  runBody s opc .vector 1 cost do
    let (x, sa) ← readV s a (keepIn t)
    let (y, sb) ← readV s b (keepIn t)
    let w ← get
    let old := vget w.v d.toNat 0
    let r := fun j => f (elem64 x j) (elem64 y j) (elem64 old j)
    let part := fun i => bitAt w.lm (i / 2 * 2)
    checkedLanes s (fun i => i % 2 == 0 && part i) (fun i => (r (i / 2)).q)
    raiseFlags (laneFlags (fun i => i % 2 == 0 && part i) (fun i => (r (i / 2)).fl))
    resultV s d e ⟨t, 1, sa, sb⟩ (maskedLanes w d part (fun i => (r (i / 2)).val.extractLsb' (32 * (i % 2)) 32))
/-- An instruction on every lane, ignoring lm. -/
def vecWhole (s : State) (opc : BitVec 8) (a b d e : Opd) (t : Tag) (f : V512 → V512 → Nat → W32) : Outcome :=
  runBody s opc .vector 1 1 do
    let (x, sa) ← readV s a (keepIn t)
    let (y, sb) ← readV s b (keepIn t)
    checkedLanes s allLanes (fun i => (f x y i).toNat)
    resultV s d e ⟨t, 0, sa, sb⟩ (ofLanes (f x y))
/-- A compare: all 16 bits of lm and the lanes of the result are written (R128). R115 lists no quantity for floating compares and for VMIN and
VMAX: the mask lane and the result code are checked (DESIGN CHOICE, log entry 89). -/
def vecCompare (s : State) (opc : BitVec 8) (rtype : BitVec 3) (a b d e : Opd) (t : Tag)
    (f : W32 → W32 → Bool × Flags) : Outcome :=
  runBody s opc .vector 1 1 do
    let (x, sa) ← readV s a (keepIn t)
    let (y, sb) ← readV s b (keepIn t)
    let r := fun i => f (lane x i) (lane y i)
    let v := maskLanes (fun i => (r i).1)
    checkedLanes s allLanes (fun i => (lane v i).toNat)
    raiseFlags (laneFlags allLanes (fun i => (r i).2))
    stageLm (maskBits (fun i => (r i).1))
    resultV s d e ⟨t, rtype, sa, sb⟩ v

/-- An FP32 lane from a code and flags. -/
def out32 (r : Nat × Flags) (q : Nat) : LaneOut 32 := ⟨BitVec.ofNat 32 r.1, r.2, q⟩
/-- An FP64 element from a code and flags. -/
def out64 (r : Nat × Flags) (q : Nat) : LaneOut 64 := ⟨BitVec.ofNat 64 r.1, r.2, q⟩
/-- A lane of an integer or bitwise operation: no flag, checked on its value. -/
def outInt (v : W32) : LaneOut 32 := ⟨v, 0, v.toNat⟩
/-- The value of an FP32 lane. -/
def num32 (x : W32) : FNum := fpDecode 2 false x.toNat
/-- The value of an FP64 element. -/
def num64 (x : W64) : FNum := fpDecode 1 false x.toNat
/-- The product of the significands of two values (R115); where one is no number there is none, and the residue is free. -/
def sigProduct (seed : Nat) (a b : FNum) : Nat :=
  match a, b with
  | .num _ m _, .num _ n _ => m * n
  | _, _ => (Config.residue seed).toNat
/-- The operands of a lane as one number, by which a free value may differ. -/
def laneSeed {w : Nat} (x y o : BitVec w) : Nat := x.toNat + 2 ^ 64 * y.toNat + 2 ^ 128 * o.toNat

/-! ## Moves and lane access (R125) -/

/-- VMOV. -/
def execVmov (a d e : Opd) (t : Tag) (s : State) : Outcome :=
  vecMasked s 0x40 1 0 a 31#5 d e t (fun x _ _ => outInt x)
/-- VBCAST: a scalar source. -/
def execVbcast (a d e : Opd) (t : Tag) (s : State) : Outcome :=
  runBody s 0x41 .vector 1 1 do
    let (x, sa) ← readS s a (keepIn t)
    let w ← get
    let v := x.extractLsb' 0 32
    checkedLanes s (bitAt w.lm) (fun _ => v.toNat)
    resultV s d e ⟨t, 0, sa, 0⟩ (maskedLanes w d (bitAt w.lm) (fun _ => v))
/-- VPERM. -/
def execVperm (a b d e : Opd) (t : Tag) (s : State) : Outcome :=
  vecWhole s 0x42 a b d e t (fun x y i => lane x (bits (lane y i) 3 0))
/-- VEXTR: a scalar destination. -/
def execVextr (a d : Opd) (i : BitVec 4) (s : State) : Outcome :=
  runBody s 0x43 .vector 1 1 do
    let (x, sa) ← readV s a false
    let v := lane x i.toNat
    checkedLanes s (fun l => l == i.toNat) (fun _ => v.toNat)
    resultS s d 31#5 ⟨0, 0, sa, 0⟩ (v.zeroExtend 64)
/-- VINS: in place, a scalar source. -/
def execVins (a d : Opd) (i : BitVec 4) (s : State) : Outcome :=
  runBody s 0x44 .vector 1 1 do
    let (x, sa) ← readS s a false
    let w ← get
    let old := vget w.v d.toNat 0
    let v := x.extractLsb' 0 32
    checkedLanes s (fun l => l == i.toNat) (fun _ => v.toNat)
    resultV s d 31#5 ⟨0, 0, sa, 0⟩ (ofLanes (fun l => if l == i.toNat then v else lane old l))

/-! ## Floating arithmetic (R126) -/

/-- VADD.F32. -/
def execVaddF32 (a b d e : Opd) (t : Tag) (s : State) : Outcome :=
  vecMasked s 0x45 1 2 a b d e t (fun x y _ =>
    out32 (fpAdd 2 (rounding s) x.toNat y.toNat) (alignedSum (laneSeed x y 0) [num32 x, num32 y]))
/-- VSUB.F32. -/
def execVsubF32 (a b d e : Opd) (t : Tag) (s : State) : Outcome :=
  vecMasked s 0x46 1 2 a b d e t (fun x y _ =>
    out32 (fpSub 2 (rounding s) x.toNat y.toNat) (alignedSum (laneSeed x y 0) [num32 x, (num32 y).negate]))
/-- VMUL.F32. -/
def execVmulF32 (a b d e : Opd) (t : Tag) (s : State) : Outcome :=
  vecMasked s 0x47 1 2 a b d e t (fun x y _ =>
    out32 (fpMul 2 (rounding s) x.toNat y.toNat) (sigProduct (laneSeed x y 0) (num32 x) (num32 y)))
/-- VFMA.F32: in place. -/
def execVfmaF32 (a b d e : Opd) (t : Tag) (s : State) : Outcome :=
  vecMasked s 0x48 1 2 a b d e t (fun x y o =>
    out32 (fpFma 2 (rounding s) x.toNat y.toNat o.toNat) (alignedSum (laneSeed x y o) [num32 o, (fpProd (num32 x) (num32 y)).1]))
/-- VMIN.F32. -/
def execVminF32 (a b d e : Opd) (t : Tag) (s : State) : Outcome :=
  vecMasked s 0x49 1 2 a b d e t (fun x y _ =>
    out32 (fpMinMax 2 false x.toNat y.toNat) (fpMinMax 2 false x.toNat y.toNat).1)
/-- VMAX.F32. -/
def execVmaxF32 (a b d e : Opd) (t : Tag) (s : State) : Outcome :=
  vecMasked s 0x4A 1 2 a b d e t (fun x y _ =>
    out32 (fpMinMax 2 true x.toNat y.toNat) (fpMinMax 2 true x.toNat y.toNat).1)
/-- VADD.F64. -/
def execVaddF64 (a b d e : Opd) (t : Tag) (s : State) : Outcome :=
  vecMasked64 s 0x4B 2 a b d e t (fun x y _ =>
    out64 (fpAdd 1 (rounding s) x.toNat y.toNat) (alignedSum (laneSeed x y 0) [num64 x, num64 y]))
/-- VSUB.F64. -/
def execVsubF64 (a b d e : Opd) (t : Tag) (s : State) : Outcome :=
  vecMasked64 s 0x4C 2 a b d e t (fun x y _ =>
    out64 (fpSub 1 (rounding s) x.toNat y.toNat) (alignedSum (laneSeed x y 0) [num64 x, (num64 y).negate]))
/-- VMUL.F64. -/
def execVmulF64 (a b d e : Opd) (t : Tag) (s : State) : Outcome :=
  vecMasked64 s 0x4D 2 a b d e t (fun x y _ =>
    out64 (fpMul 1 (rounding s) x.toNat y.toNat) (sigProduct (laneSeed x y 0) (num64 x) (num64 y)))
/-- VFMA.F64: in place. -/
def execVfmaF64 (a b d e : Opd) (t : Tag) (s : State) : Outcome :=
  vecMasked64 s 0x4E 2 a b d e t (fun x y o =>
    out64 (fpFma 1 (rounding s) x.toNat y.toNat o.toNat) (alignedSum (laneSeed x y o) [num64 o, (fpProd (num64 x) (num64 y)).1]))
/-- The low BF16 element of a lane. -/
def bfLo (x : W32) : Nat := x.toNat % 2 ^ 16
/-- The high BF16 element of a lane. -/
def bfHi (x : W32) : Nat := x.toNat / 2 ^ 16
/-- Both BF16 elements of a lane; the lane's residue is that of the low element. -/
def bfLane (f : Nat → Nat → Nat × Flags) (q : Nat → Nat → Nat) (x y : W32) : LaneOut 32 :=
  let lo := f (bfLo x) (bfLo y)
  let hi := f (bfHi x) (bfHi y)
  ⟨BitVec.ofNat 32 (hi.1 * 2 ^ 16 + lo.1), lo.2 ||| hi.2, q (bfLo x) (bfLo y)⟩
/-- VADD.BF16. -/
def execVaddBf16 (a b d e : Opd) (t : Tag) (s : State) : Outcome :=
  vecMasked s 0x4F 1 3 a b d e t (fun x y _ =>
    bfLane (fpAdd 3 (rounding s)) (fun p q => alignedSum (p + 2 ^ 64 * q) [fpDecode 3 false p, fpDecode 3 false q]) x y)
/-- VMUL.BF16. -/
def execVmulBf16 (a b d e : Opd) (t : Tag) (s : State) : Outcome :=
  vecMasked s 0x50 1 3 a b d e t (fun x y _ =>
    bfLane (fpMul 3 (rounding s)) (fun p q => sigProduct (p + 2 ^ 64 * q) (fpDecode 3 false p) (fpDecode 3 false q)) x y)
/-- VDOT2.BF16: in place, FP32 lanes. -/
def execVdot2Bf16 (a b d e : Opd) (t : Tag) (s : State) : Outcome :=
  vecMasked s 0x51 1 2 a b d e t (fun x y o =>
    let p := fun (f : W32 → Nat) => (fpProd (fpDecode 3 false (f x)) (fpDecode 3 false (f y))).1
    out32 (fpDot2 (rounding s) (bfLo x) (bfLo y) (bfHi x) (bfHi y) o.toNat) (alignedSum (laneSeed x y o) [num32 o, p bfLo, p bfHi]))

/-! ## Unary operations (R127) -/

/-- A unary table operation: its checks are parity per table word, so the residue reported is free (R115). -/
def vecTable (s : State) (opc : BitVec 8) (a d e : Opd) (t : Tag) (f : Nat → Nat × Flags) : Outcome :=
  vecMasked s opc 3 2 a 31#5 d e t (fun x _ _ => out32 (f x.toNat) (Config.residue x.toNat).toNat)
/-- VABS.F32: a bit operation. -/
def execVabsF32 (a d e : Opd) (t : Tag) (s : State) : Outcome :=
  vecMasked s 0x52 1 2 a 31#5 d e t (fun x _ _ => outInt (x &&& 0x7FFFFFFF))
/-- VNEG.F32: a bit operation. -/
def execVnegF32 (a d e : Opd) (t : Tag) (s : State) : Outcome :=
  vecMasked s 0x53 1 2 a 31#5 d e t (fun x _ _ => outInt (x ^^^ 0x80000000))
/-- VRCP.F32. -/
def execVrcpF32 (a d e : Opd) (t : Tag) (s : State) : Outcome := vecTable s 0x54 a d e t (f32Rcp (rounding s))
/-- VRSQ.F32. -/
def execVrsqF32 (a d e : Opd) (t : Tag) (s : State) : Outcome := vecTable s 0x55 a d e t f32Rsq
/-- VSQRT.F32. -/
def execVsqrtF32 (a d e : Opd) (t : Tag) (s : State) : Outcome := vecTable s 0x56 a d e t (f32Sqrt (rounding s))
/-- VEXP2.F32. -/
def execVexp2F32 (a d e : Opd) (t : Tag) (s : State) : Outcome := vecTable s 0x57 a d e t (f32Exp2 (rounding s))
/-- VLOG2.F32. -/
def execVlog2F32 (a d e : Opd) (t : Tag) (s : State) : Outcome := vecTable s 0x58 a d e t f32Log2
/-- VTANH.F32. -/
def execVtanhF32 (a d e : Opd) (t : Tag) (s : State) : Outcome := vecTable s 0x59 a d e t f32Tanh

/-! ## Compares and select (R128) -/

/-- VCEQ.F32. -/
def execVceqF32 (a b d e : Opd) (t : Tag) (s : State) : Outcome :=
  vecCompare s 0x5A 2 a b d e t (fun x y => fpEq 2 x.toNat y.toNat)
/-- VCLT.F32. -/
def execVcltF32 (a b d e : Opd) (t : Tag) (s : State) : Outcome :=
  vecCompare s 0x5B 2 a b d e t (fun x y => fpLess 2 false x.toNat y.toNat)
/-- VCLE.F32. -/
def execVcleF32 (a b d e : Opd) (t : Tag) (s : State) : Outcome :=
  vecCompare s 0x5C 2 a b d e t (fun x y => fpLess 2 true x.toNat y.toNat)
/-- VSEL: by lm, not masked. -/
def execVsel (a b d e : Opd) (t : Tag) (s : State) : Outcome :=
  vecWhole s 0x5D a b d e t (fun x y i => if bitAt s.stage.work.lm i then lane x i else lane y i)

/-! ## Integer lanes (R129) -/

/-- A masked integer instruction. -/
def vecInt (s : State) (opc : BitVec 8) (cost : Nat) (a b d e : Opd) (t : Tag) (f : W32 → W32 → W32) : Outcome :=
  vecMasked s opc cost 0 a b d e t (fun x y _ => outInt (f x y))
/-- VIADD. -/
def execViadd (a b d e : Opd) (t : Tag) (s : State) : Outcome := vecInt s 0x5E 1 a b d e t (fun x y => x + y)
/-- VISUB. -/
def execVisub (a b d e : Opd) (t : Tag) (s : State) : Outcome := vecInt s 0x5F 1 a b d e t (fun x y => x - y)
/-- VIMUL. -/
def execVimul (a b d e : Opd) (t : Tag) (s : State) : Outcome := vecInt s 0x60 2 a b d e t (fun x y => x * y)
/-- VAND. -/
def execVand (a b d e : Opd) (t : Tag) (s : State) : Outcome := vecInt s 0x61 1 a b d e t (fun x y => x &&& y)
/-- VOR. -/
def execVor (a b d e : Opd) (t : Tag) (s : State) : Outcome := vecInt s 0x62 1 a b d e t (fun x y => x ||| y)
/-- VXOR. -/
def execVxor (a b d e : Opd) (t : Tag) (s : State) : Outcome := vecInt s 0x63 1 a b d e t (fun x y => x ^^^ y)
/-- VSHL. -/
def execVshl (a b d e : Opd) (t : Tag) (s : State) : Outcome :=
  vecInt s 0x64 1 a b d e t (fun x y => x <<< bits y 4 0)
/-- VSHR. -/
def execVshr (a b d e : Opd) (t : Tag) (s : State) : Outcome :=
  vecInt s 0x65 1 a b d e t (fun x y => x >>> bits y 4 0)
/-- VSAR. -/
def execVsar (a b d e : Opd) (t : Tag) (s : State) : Outcome :=
  vecInt s 0x66 1 a b d e t (fun x y => x.sshiftRight (bits y 4 0))
/-- VIMIN, signed. -/
def execVimin (a b d e : Opd) (t : Tag) (s : State) : Outcome :=
  vecInt s 0x67 1 a b d e t (fun x y => if x.toInt ≤ y.toInt then x else y)
/-- VIMAX, signed. -/
def execVimax (a b d e : Opd) (t : Tag) (s : State) : Outcome :=
  vecInt s 0x68 1 a b d e t (fun x y => if x.toInt ≤ y.toInt then y else x)
/-- VICEQ. -/
def execViceq (a b d e : Opd) (t : Tag) (s : State) : Outcome := vecCompare s 0x69 0 a b d e t (fun x y => (x == y, 0))
/-- VICLT, signed. -/
def execViclt (a b d e : Opd) (t : Tag) (s : State) : Outcome :=
  vecCompare s 0x6A 0 a b d e t (fun x y => (decide (x.toInt < y.toInt), 0))
/-- Signed saturating add of byte k of two lanes. -/
def addSat8 (x y : W32) (k : Nat) : BitVec 8 :=
  let v := (x.extractLsb' (8 * k) 8).toInt + (y.extractLsb' (8 * k) 8).toInt
  BitVec.ofInt 8 (if v < -128 then -128 else if 127 < v then 127 else v)
/-- VIADDSAT.I8. -/
def execViaddsatI8 (a b d e : Opd) (t : Tag) (s : State) : Outcome :=
  vecInt s 0x6B 1 a b d e t (fun x y => addSat8 x y 3 ++ addSat8 x y 2 ++ addSat8 x y 1 ++ addSat8 x y 0)

/-! ## Reductions, masks and scans (R130 to R132; 03_core_numbers, R109) -/

/-- The pairwise tree over lanes i to i + 2^k - 1. -/
def reduceTree (f : Nat → Nat → Nat × Flags) (x : V512) : Nat → Nat → Nat × Flags
  | 0, i => ((lane x i).toNat, 0)
  | k + 1, i =>
    let l := reduceTree f x k i
    let r := reduceTree f x k (i + 2 ^ k)
    let v := f l.1 r.1
    (v.1, l.2 ||| r.2 ||| v.2)
/-- A scalar result of the vector pipe: dstA takes it as a scalar, dstB, of the vector class, as the vector that R30 makes of it
(01_encoding, R22, R36). -/
def resultSV (s : State) (d e : Opd) (u : TagUse) (v : W64) : Body Unit := do
  writeS s d v (u.sb s)
  writeV s e (ofScalar v) (u.sb s)
/-- A reduction of all 16 lanes to a scalar: its value, its flags and the quantity that its check in lane 0 compares. -/
def vecReduce (s : State) (opc : BitVec 8) (rtype : BitVec 3) (a d e : Opd) (t : Tag) (f : V512 → W64 × Flags × Nat) : Outcome :=
  runBody s opc .vector 1 2 do
    let (x, sa) ← readV s a (keepIn t)
    let r := f x
    checkedLanes s (fun l => l == 0) (fun _ => r.2.2)
    raiseFlags r.2.1
    resultSV s d e ⟨t, rtype, sa, 0⟩ r.1
/-- The quantity that the check of a sum over the lanes compares: the exact sum of the aligned significands in the tree's last
addition (R115). -/
def rootSum (f : Nat → Nat → Nat × Flags) (x : V512) : Nat :=
  let l := BitVec.ofNat 32 (reduceTree f x 3 0).1
  let r := BitVec.ofNat 32 (reduceTree f x 3 8).1
  alignedSum (laneSeed l r 0) [num32 l, num32 r]
/-- VRSUM.F32. -/
def execVrsumF32 (a d e : Opd) (t : Tag) (s : State) : Outcome :=
  vecReduce s 0x6C 2 a d e t (fun x =>
    let r := reduceTree (fpAdd 2 (rounding s)) x 4 0
    (BitVec.ofNat 64 r.1, r.2, rootSum (fpAdd 2 (rounding s)) x))
/-- VRMAX.F32: checked on its result, as a minimum or maximum of two lanes is (see `vecCompare`). -/
def execVrmaxF32 (a d e : Opd) (t : Tag) (s : State) : Outcome :=
  vecReduce s 0x6D 2 a d e t (fun x =>
    let r := reduceTree (fpMinMax 2 true) x 4 0
    (BitVec.ofNat 64 r.1, r.2, r.1))
/-- VRSUM.I32: wraps, sign-extended. -/
def execVrsumI32 (a d e : Opd) (t : Tag) (s : State) : Outcome :=
  vecReduce s 0x6E 0 a d e t (fun x =>
    let r := (reduceTree (fun p q => ((p + q) % 2 ^ 32, 0)) x 4 0).1
    (sext64 r 32, 0, r))
/-- VMSET: last lane in [7:4], first in [3:0]. -/
def execVmset (i : BitVec 8) (s : State) : Outcome :=
  runBody s 0x6F .vector 1 1 (stageLm (maskBits (fun l => bits i 3 0 ≤ l && l ≤ bits i 7 4)))
/-- VMGET. -/
def execVmget (d e : Opd) (t : Tag) (s : State) : Outcome :=
  runBody s 0x70 .vector 1 1 do
    let w ← get
    resultSV s d e ⟨t, 0, 0, 0⟩ (w.lm.zeroExtend 64)
/-- VSHIFTL. -/
def execVshiftl (a d : Opd) (i : BitVec 4) (s : State) : Outcome :=
  vecWhole s 0x71 a 31#5 d 31#5 0 (fun x _ l => if i.toNat ≤ l then lane x (l - i.toNat) else 0)
/-- Lane i of a scan: the sums from the left, each rounded; lane 0 delivers its operand, a NaN as the canonical one. -/
def scanLane (mode : BitVec 2) (x : V512) : Nat → LaneOut 32
  | 0 =>
    match num32 (lane x 0) with
    | .nan _ g => ⟨BitVec.ofNat 32 (fpNaN 2), nvIf g, (Config.residue (lane x 0).toNat).toNat⟩
    | _ => ⟨lane x 0, 0, significand 2 false (lane x 0).toNat⟩
  | i + 1 =>
    let p := scanLane mode x i
    out32 (fpAdd 2 mode p.val.toNat (lane x (i + 1)).toNat) (alignedSum (laneSeed p.val (lane x (i + 1)) 0) [num32 p.val, num32 (lane x (i + 1))])
/-- VSCAN.F32. -/
def execVscanF32 (a d e : Opd) (t : Tag) (s : State) : Outcome :=
  runBody s 0x72 .vector 1 4 do
    let (x, sa) ← readV s a (keepIn t)
    let r := scanLane (rounding s) x
    checkedLanes s allLanes (fun i => (r i).q)
    raiseFlags (laneFlags allLanes (fun i => (r i).fl))
    resultV s d e ⟨t, 2, sa, 0⟩ (ofLanes (fun i => (r i).val))

end Sys2Proof.Machine
end

