-- ==== Sys2Proof/Machine/Convert.lean ====
section
/-! DEFINITION. Conversions, scaling and classification (04_core_compute, R133 to R138). The control field of a conversion, without
its five reserved bits: source [8:6], destination [5:3], rounding [2:1], saturate [0] (01_encoding, R40). -/
namespace Sys2Proof.Machine

/-- Source format of a control field. -/
def ctlSrc (i : BitVec 9) : Nat := bits i 8 6
/-- Destination format of a control field. -/
def ctlDst (i : BitVec 9) : Nat := bits i 5 3
/-- Rounding of a control field. -/
def ctlRnd (i : BitVec 9) : BitVec 2 := i.extractLsb' 1 2
/-- Saturate bit of a control field. -/
def ctlSat (i : BitVec 9) : Bool := bitAt i 0
/-- The quantity that the check of a conversion compares: the rounded significand, or an integer result (R115). -/
def cvtQuantity (dst : Nat) (fm : Bool) (v : Nat) : Nat := if dst == 0 then v else significand dst fm v
/-- Format mode as at cycle 0 (03_core_numbers, R89). -/
def formatMode (s : State) : Bool := (bodyCtx s).fm

/-- CVT: one scalar (R133). -/
def execCvt (a d : Opd) (i : BitVec 9) (s : State) : Outcome :=
  runBody s 0x80 .plain 1 1 do
    let (x, sa) ← readS s a false
    let r := convert (ctlSrc i) (ctlDst i) 64 (formatMode s) (ctlSat i) (ctlRnd i) x.toNat
    checkedScalar s (BitVec.ofNat 64 (cvtQuantity (ctlDst i) (formatMode s) r.1))
    raiseFlags r.2
    resultS s d 31#5 ⟨0, 0, sa, 0⟩ (BitVec.ofNat 64 r.1)

/-- VCVT: each lane, masked (R134). -/
def execVcvt (a d : Opd) (i : BitVec 9) (s : State) : Outcome :=
  vecMasked s 0x81 1 0 a 31#5 d 31#5 0 (fun x _ _ =>
    let r := convert (ctlSrc i) (ctlDst i) 32 (formatMode s) (ctlSat i) (ctlRnd i) x.toNat
    out32 r (cvtQuantity (ctlDst i) (formatMode s) r.1))

/-- Bits of a packed element: INT counts as INT8 (R135). -/
def packWidth (f : Nat) : Nat := if f == 0 then 8 else fpWidth f
/-- One element of VPACK: an INT32 to INT8 is clamped or cut, a floating value to INT8 takes that integer's range, every other pair
converts by R106 (R135). -/
def packElement (s : State) (i : BitVec 9) (x : Nat) : Nat × Flags :=
  if ctlSrc i == 0 && ctlDst i == 0 then narrow8 (ctlSat i) x
  else if ctlDst i == 0 then convert (ctlSrc i) 0 8 (formatMode s) (ctlSat i) (ctlRnd i) x
  else convert (ctlSrc i) (ctlDst i) 32 (formatMode s) (ctlSat i) (ctlRnd i) x
/-- VPACK: 16 lanes to 16 packed elements from byte 0 (R135). -/
def execVpack (a d : Opd) (i : BitVec 9) (s : State) : Outcome :=
  runBody s 0x82 .vector 1 1 do
    let (x, sa) ← readV s a false
    let r := fun l => packElement s i (lane x l).toNat
    checkedLanes s allLanes (fun l => cvtQuantity (ctlDst i) (formatMode s) (r l).1)
    raiseFlags (laneFlags allLanes (fun l => (r l).2))
    let v := (List.range 16).foldl (fun acc l => acc + (r l).1 * 2 ^ (packWidth (ctlDst i) * l)) 0
    resultV s d 31#5 ⟨0, 0, sa, 0⟩ (BitVec.ofNat 512 v)
/-- One element of VUNPK; an INT8 goes to INT32 with its sign (R136). -/
def unpackElement (s : State) (i : BitVec 9) (x : V512) (l : Nat) : Nat × Flags :=
  let w := packWidth (ctlSrc i)
  let raw := x.toNat / 2 ^ (w * l) % 2 ^ w
  if ctlSrc i == 0 then
    let v := ofSigned 32 (toSigned 8 raw)
    if ctlDst i == 0 then (v, 0) else convert 0 (ctlDst i) 32 (formatMode s) (ctlSat i) (ctlRnd i) v
  else convert (ctlSrc i) (ctlDst i) 32 (formatMode s) (ctlSat i) (ctlRnd i) raw
/-- VUNPK: 16 packed elements to lanes (R136). -/
def execVunpk (a d : Opd) (i : BitVec 9) (s : State) : Outcome :=
  runBody s 0x83 .vector 1 1 do
    let (x, sa) ← readV s a false
    let r := unpackElement s i x
    checkedLanes s allLanes (fun l => cvtQuantity (ctlDst i) (formatMode s) (r l).1)
    raiseFlags (laneFlags allLanes (fun l => (r l).2))
    resultV s d 31#5 ⟨0, 0, sa, 0⟩ (ofLanes (fun l => BitVec.ofNat 32 (r l).1))

/-- A scaling of every lane by a scalar, masked (R137). -/
def vecScale (s : State) (opc : BitVec 8) (a b d e : Opd) (t : Tag) (f : W64 → Nat → Nat × Flags) : Outcome :=
  runBody s opc .vector 1 1 do
    let (x, sa) ← readV s a (keepIn t)
    let (y, sb) ← readS s b (keepIn t)
    let w ← get
    let r := fun l => f y (lane x l).toNat
    checkedLanes s (bitAt w.lm) (fun l => significand 2 false (r l).1)
    raiseFlags (laneFlags (bitAt w.lm) (fun l => (r l).2))
    resultV s d e ⟨t, 0, sa, sb⟩ (maskedLanes w d (bitAt w.lm) (fun l => BitVec.ofNat 32 (r l).1))
/-- VSCALE: by 2^k, k the scalar clamped to [-512, 511] (R137). -/
def execVscale (a b d e : Opd) (t : Tag) (s : State) : Outcome :=
  vecScale s 0x84 a b d e t (fun y x =>
    f32Scale (rounding s) x (if y.toInt < -512 then -512 else if 511 < y.toInt then 511 else y.toInt))
/-- VSCALEX: by a UE8M12 scale (R137). -/
def execVscalex (a b d e : Opd) (t : Tag) (s : State) : Outcome :=
  vecScale s 0x85 a b d e t (fun y x => f32ScaleX (rounding s) x (bits y 19 0))

/-- FCLASS (R138). -/
def execFclass (a b d e : Opd) (t : Tag) (s : State) : Outcome :=
  scalar2 s 0x8E 1 a b d e t (fun x y => BitVec.ofNat 64 (fpClass (bits y 2 0) (formatMode s) x.toNat))

end Sys2Proof.Machine
end

