-- ==== Sys2Proof/Machine/Die.lean ====
section
/-! DEFINITION. The die instructions as a body issues them (10_die, R294 to R297). -/
namespace Sys2Proof.Machine

/-- BANDRD (R295). -/
def execBandrd (a d e : Opd) (t : Tag) (s : State) : Outcome :=
  runBody s 0xF1 .plain 2 1 do
    let (x, sa) ← readS s a (keepIn t)
    let edge := bits x 1 0
    let i := bits x 13 8
    need (bits x 63 14 == 0 && bits x 7 3 == 0) cIllegalOperand 0
    need (i ≤ 35 && (edge % 2 == 1 || i ≤ 31)) cIllegalOperand 0
    let v := tget (dieOf s (dieKey s.stage.core)).band 0 (72 * edge + 36 * bits x 2 2 + i)
    resultS s d e ⟨t, 0, sa, 0⟩ (v.zeroExtend 64)
/-- TOFFRD (R287, R295). -/
def execToffrd (a d e : Opd) (t : Tag) (s : State) : Outcome :=
  runBody s 0xF1 .plain 2 1 do
    if a == 31#5 then resultS s d e ⟨t, 0, 0, 0⟩ (toffWord (dieOf s (dieKey s.stage.core)))
    else
      let (x, sa) ← readS s a (keepIn t)
      need (bits x 63 6 == 0) cIllegalOperand 0
      resultS s d e ⟨t, 0, sa, 0⟩ (toffWord (dieOf s x.toNat))
/-- VFREQ (R295). -/
def execVfreq (a d e : Opd) (t : Tag) (s : State) : Outcome :=
  runBody s 0xF1 .plain 2 1 do
    let v := vfOfCore s s.stage.core
    let old := BitVec.ofNat 64 (ofBool v.pend * 8192 + v.pt * 512 + v.freq)
    if a == 31#5 then resultS s d e ⟨t, 0, 0, 0⟩ old
    else
      privileged s
      let (x, sa) ← readS s a (keepIn t)
      need (bits x 63 13 == 0 && 40 ≤ bits x 8 0 && bits x 8 0 ≤ 160) cIllegalOperand 0
      stage (.vfreq (bits x 12 9) (bits x 8 0))
      resultS s d e ⟨t, 0, sa, 0⟩ old
/-- WEIR (R295). -/
def execWeir (a d e : Opd) (t : Tag) (s : State) : Outcome :=
  runBody s 0xF1 .plain 2 1 do
    let old := BitVec.ofNat 64 (coreWeirEff s s.stage.core)
    if a == 31#5 then resultS s d e ⟨t, 0, 0, 0⟩ old
    else
      let (x, sa) ← readS s a (keepIn t)
      need (bits x 63 9 == 0 && 16 ≤ x.toNat && x.toNat ≤ 256) cIllegalOperand 0
      stage (.weir x.toNat)
      resultS s d e ⟨t, 0, sa, 0⟩ old
/-- RSVLD: its checks in the order of R296. -/
def execRsvld (a b : Opd) (t : Tag) (xtg : BitVec 6) (xte : BitVec 1) (xlen : BitVec 4) (s : State) : Outcome :=
  runBody s 0xF1 .plain 2 1 do
    let (x, _) ← readS s a (keepIn t)
    let (y, _) ← readS s b (keepIn t)
    let w ← get
    let len := vget w.s xlen.toNat 0
    need (64 ≤ len.toNat && len.toNat ≤ 0x60000 && bits x 63 32 == 0 && bits y 63 32 == 0) cIllegalOperand 0
    checkedAddress s x
    need (x.toNat % 64 == 0) cAlign x
    need (y.toNat % 64 == 0) cAlign y
    need (len.toNat % 64 == 0) cAlign len
    need (x.toNat + len.toNat ≤ (dieOf s (dieKey s.stage.core)).p * 6291456) cRange x
    checkedAddress s y
    checkAccess s y len.toNat 64
    stageCommand s (tagOf xtg xte) (.rsvld x.toNat y.toNat len.toNat)
/-- RSVCFG PART (R297). -/
def execRsvcfgPart (a : Opd) (t : Tag) (xtg : BitVec 6) (xte : BitVec 1) (s : State) : Outcome :=
  runBody s 0xF1 .plain 2 1 do
    privileged s
    let (x, _) ← readS s a (keepIn t)
    need (x.toNat ≤ 32) cIllegalOperand 0
    stageCommand s (tagOf xtg xte) (.rsvPart x.toNat)
/-- RSVCFG DROP (R297). -/
def execRsvcfgDrop (a : Opd) (t : Tag) (xtg : BitVec 6) (xte : BitVec 1) (s : State) : Outcome :=
  runBody s 0xF1 .plain 2 1 do
    privileged s
    let _ ← readS s a (keepIn t)
    stageCommand s (tagOf xtg xte) .rsvDrop

end Sys2Proof.Machine
end

