-- ==== Sys2Proof/WellFormed.lean ====
section
/-! DEFINITION. Which instructions are well formed: the operand codes, tag actions and immediates that a word may hold
(01_encoding, R21, R22, R28, R33, R40, R41). A word that breaks one of these aborts its rule with ILLEGAL_OPERAND. -/
namespace Sys2Proof.WellFormed

/-- Codes a scalar-class source may name: all but cp (01_encoding, R28). -/
def scalarSrc (c : Opd) : Bool := c != 21#5
/-- Codes a vector-class source may name: all but cp, tb and st (01_encoding, R28). -/
def vectorSrc (c : Opd) : Bool := c != 21#5 && c != 29#5 && c != 30#5
/-- Codes a destination may name: a register, an output port, a stream or z (01_encoding, R28). -/
def dest (c : Opd) : Bool := c.toNat < 20 || (24 ≤ c.toNat && c.toNat < 28) || c == 31#5
/-- Two destinations: each legal, and different unless both are z (01_encoding, R22). -/
def destPair (d e : Opd) : Bool := dest d && dest e && (d != e || d == 31#5)
/-- A register of the field's class (04_core_compute, R112). -/
def isReg (c : Opd) : Bool := c.toNat < 16
/-- The condition register of SEL: s0 to s15 or z (04_core_compute, R119). -/
def isCond (c : Opd) : Bool := c.toNat < 16 || c == 31#5
/-- The target of TMASK: tm0 to tm7 or tb (05_core_memory, R168). -/
def isMask (c : Opd) : Bool := c.toNat < 8 || c == 29#5
/-- A stream register q0 to q3 (01_encoding, R28). -/
def isStream (c : Opd) : Bool := 24 ≤ c.toNat && c.toNat < 28
/-- The A source of a matrix command: a register or a stream (06_core_basin, R183). -/
def isTileA (c : Opd) : Bool := isReg c || isStream c
/-- The B source of a matrix command: a register, o0 or o1 (06_core_basin, R184). -/
def isTileB (c : Opd) : Bool := isReg c || c == 22#5 || c == 23#5
/-- Tag actions 0x0 to 0xC (01_encoding, R33). -/
def tagOk (t : Tag) : Bool := t.toNat < 13
/-- A bit count from 1 to 64 (01_encoding, R40). -/
def count64 (i : BitVec 7) : Bool := 1 ≤ i.toNat && i.toNat ≤ 64
/-- BFX: width 1 to 64 and b + w at most 64 (01_encoding, R40). -/
def fieldOk (i : BitVec 14) : Bool :=
  let w := (i.extractLsb' 6 7).toNat
  let b := (i.extractLsb' 0 6).toNat
  1 ≤ w && w ≤ 64 && b + w ≤ 64
/-- VMSET: the first lane does not pass the last (01_encoding, R40). -/
def laneRange (i : BitVec 8) : Bool := (i.extractLsb' 0 4).toNat ≤ (i.extractLsb' 4 4).toNat
/-- FENCE: scope 0 to 4, kind 1 to 3 (01_encoding, R40). -/
def fenceOk (i : BitVec 5) : Bool := (i.extractLsb' 0 3).toNat < 5 && (i.extractLsb' 3 2) != 0#2
/-- The source format of a conversion control (01_encoding, R40). -/
def cvtSrc (i : BitVec 9) : Nat := (i.extractLsb' 6 3).toNat
/-- The destination format of a conversion control (01_encoding, R40). -/
def cvtDst (i : BitVec 9) : Nat := (i.extractLsb' 3 3).toNat
/-- VCVT takes no FP64 (04_core_compute, R134). -/
def vcvtOk (i : BitVec 9) : Bool := cvtSrc i != 1 && cvtDst i != 1
/-- VPACK: FP32 or INT32 to a narrower format (04_core_compute, R135). -/
def vpackOk (i : BitVec 9) : Bool := (cvtSrc i == 2 || cvtSrc i == 0) && (cvtDst i == 0 || 3 ≤ cvtDst i)
/-- VUNPK: a narrower format to FP32 or INT32 (04_core_compute, R136). -/
def vunpkOk (i : BitVec 9) : Bool := (cvtSrc i == 0 || 3 ≤ cvtSrc i) && (cvtDst i == 2 || cvtDst i == 0)

end Sys2Proof.WellFormed

namespace Sys2Proof

open WellFormed in
/-- The operand and immediate checks of each row (01_encoding, R41). Event rows have no word and nothing to check. -/
def Instr.wf : Instr → Bool
  | .nop t => tagOk t
  | .mov a d e t => scalarSrc a && destPair d e && tagOk t
  | .movi d _ => dest d
  | .movsh a d _ => scalarSrc a && dest d
  | .add a b d e t => scalarSrc a && scalarSrc b && destPair d e && tagOk t
  | .addi a d _ => scalarSrc a && dest d
  | .sub a b d e t => scalarSrc a && scalarSrc b && destPair d e && tagOk t
  | .mul a b d e t => scalarSrc a && scalarSrc b && destPair d e && tagOk t
  | .mulh a b d e t => scalarSrc a && scalarSrc b && destPair d e && tagOk t
  | .mulhu a b d e t => scalarSrc a && scalarSrc b && destPair d e && tagOk t
  | .div a b d e t => scalarSrc a && scalarSrc b && destPair d e && tagOk t
  | .divu a b d e t => scalarSrc a && scalarSrc b && destPair d e && tagOk t
  | .rem a b d e t => scalarSrc a && scalarSrc b && destPair d e && tagOk t
  | .remu a b d e t => scalarSrc a && scalarSrc b && destPair d e && tagOk t
  | .and a b d e t => scalarSrc a && scalarSrc b && destPair d e && tagOk t
  | .andi a d _ => scalarSrc a && dest d
  | .or a b d e t => scalarSrc a && scalarSrc b && destPair d e && tagOk t
  | .ori a d _ => scalarSrc a && dest d
  | .xor a b d e t => scalarSrc a && scalarSrc b && destPair d e && tagOk t
  | .xori a d _ => scalarSrc a && dest d
  | .shl a b d e t => scalarSrc a && scalarSrc b && destPair d e && tagOk t
  | .shli a d _ => scalarSrc a && dest d
  | .shr a b d e t => scalarSrc a && scalarSrc b && destPair d e && tagOk t
  | .shri a d _ => scalarSrc a && dest d
  | .sar a b d e t => scalarSrc a && scalarSrc b && destPair d e && tagOk t
  | .sari a d _ => scalarSrc a && dest d
  | .rol a b d e t => scalarSrc a && scalarSrc b && destPair d e && tagOk t
  | .clz a d e t => scalarSrc a && destPair d e && tagOk t
  | .ctz a d e t => scalarSrc a && destPair d e && tagOk t
  | .popc a d e t => scalarSrc a && destPair d e && tagOk t
  | .min a b d e t => scalarSrc a && scalarSrc b && destPair d e && tagOk t
  | .max a b d e t => scalarSrc a && scalarSrc b && destPair d e && tagOk t
  | .minu a b d e t => scalarSrc a && scalarSrc b && destPair d e && tagOk t
  | .maxu a b d e t => scalarSrc a && scalarSrc b && destPair d e && tagOk t
  | .addsat a b d e t => scalarSrc a && scalarSrc b && destPair d e && tagOk t
  | .subsat a b d e t => scalarSrc a && scalarSrc b && destPair d e && tagOk t
  | .seq a b d e t => scalarSrc a && scalarSrc b && destPair d e && tagOk t
  | .sne a b d e t => scalarSrc a && scalarSrc b && destPair d e && tagOk t
  | .slt a b d e t => scalarSrc a && scalarSrc b && destPair d e && tagOk t
  | .sltu a b d e t => scalarSrc a && scalarSrc b && destPair d e && tagOk t
  | .sle a b d e t => scalarSrc a && scalarSrc b && destPair d e && tagOk t
  | .sleu a b d e t => scalarSrc a && scalarSrc b && destPair d e && tagOk t
  | .sel a b d e t => scalarSrc a && scalarSrc b && dest d && isCond e && tagOk t
  | .sext a d i => scalarSrc a && dest d && count64 i
  | .zext a d i => scalarSrc a && dest d && count64 i
  | .bfx a d i => scalarSrc a && dest d && fieldOk i
  | .bfi a b d e t => scalarSrc a && scalarSrc b && isReg d && destPair d e && tagOk t
  | .xyadr a b d e t => scalarSrc a && scalarSrc b && destPair d e && tagOk t
  | .reladr a b d e t => scalarSrc a && scalarSrc b && destPair d e && tagOk t
  | .myxy d e t => destPair d e && tagOk t
  | .adrx a d _ => scalarSrc a && dest d
  | .adrchk a b d e t => scalarSrc a && scalarSrc b && destPair d e && tagOk t
  | .vmov a d e t => vectorSrc a && destPair d e && tagOk t
  | .vbcast a d e t => scalarSrc a && destPair d e && tagOk t
  | .vperm a b d e t => vectorSrc a && vectorSrc b && destPair d e && tagOk t
  | .vextr a d _ => vectorSrc a && dest d
  | .vins a d _ => scalarSrc a && isReg d
  | .vaddF32 a b d e t => vectorSrc a && vectorSrc b && destPair d e && tagOk t
  | .vsubF32 a b d e t => vectorSrc a && vectorSrc b && destPair d e && tagOk t
  | .vmulF32 a b d e t => vectorSrc a && vectorSrc b && destPair d e && tagOk t
  | .vfmaF32 a b d e t => vectorSrc a && vectorSrc b && isReg d && destPair d e && tagOk t
  | .vminF32 a b d e t => vectorSrc a && vectorSrc b && destPair d e && tagOk t
  | .vmaxF32 a b d e t => vectorSrc a && vectorSrc b && destPair d e && tagOk t
  | .vaddF64 a b d e t => vectorSrc a && vectorSrc b && destPair d e && tagOk t
  | .vsubF64 a b d e t => vectorSrc a && vectorSrc b && destPair d e && tagOk t
  | .vmulF64 a b d e t => vectorSrc a && vectorSrc b && destPair d e && tagOk t
  | .vfmaF64 a b d e t => vectorSrc a && vectorSrc b && isReg d && destPair d e && tagOk t
  | .vaddBf16 a b d e t => vectorSrc a && vectorSrc b && destPair d e && tagOk t
  | .vmulBf16 a b d e t => vectorSrc a && vectorSrc b && destPair d e && tagOk t
  | .vdot2Bf16 a b d e t => vectorSrc a && vectorSrc b && isReg d && destPair d e && tagOk t
  | .vabsF32 a d e t => vectorSrc a && destPair d e && tagOk t
  | .vnegF32 a d e t => vectorSrc a && destPair d e && tagOk t
  | .vrcpF32 a d e t => vectorSrc a && destPair d e && tagOk t
  | .vrsqF32 a d e t => vectorSrc a && destPair d e && tagOk t
  | .vsqrtF32 a d e t => vectorSrc a && destPair d e && tagOk t
  | .vexp2F32 a d e t => vectorSrc a && destPair d e && tagOk t
  | .vlog2F32 a d e t => vectorSrc a && destPair d e && tagOk t
  | .vtanhF32 a d e t => vectorSrc a && destPair d e && tagOk t
  | .vceqF32 a b d e t => vectorSrc a && vectorSrc b && destPair d e && tagOk t
  | .vcltF32 a b d e t => vectorSrc a && vectorSrc b && destPair d e && tagOk t
  | .vcleF32 a b d e t => vectorSrc a && vectorSrc b && destPair d e && tagOk t
  | .vsel a b d e t => vectorSrc a && vectorSrc b && destPair d e && tagOk t
  | .viadd a b d e t => vectorSrc a && vectorSrc b && destPair d e && tagOk t
  | .visub a b d e t => vectorSrc a && vectorSrc b && destPair d e && tagOk t
  | .vimul a b d e t => vectorSrc a && vectorSrc b && destPair d e && tagOk t
  | .vand a b d e t => vectorSrc a && vectorSrc b && destPair d e && tagOk t
  | .vor a b d e t => vectorSrc a && vectorSrc b && destPair d e && tagOk t
  | .vxor a b d e t => vectorSrc a && vectorSrc b && destPair d e && tagOk t
  | .vshl a b d e t => vectorSrc a && vectorSrc b && destPair d e && tagOk t
  | .vshr a b d e t => vectorSrc a && vectorSrc b && destPair d e && tagOk t
  | .vsar a b d e t => vectorSrc a && vectorSrc b && destPair d e && tagOk t
  | .vimin a b d e t => vectorSrc a && vectorSrc b && destPair d e && tagOk t
  | .vimax a b d e t => vectorSrc a && vectorSrc b && destPair d e && tagOk t
  | .viceq a b d e t => vectorSrc a && vectorSrc b && destPair d e && tagOk t
  | .viclt a b d e t => vectorSrc a && vectorSrc b && destPair d e && tagOk t
  | .viaddsatI8 a b d e t => vectorSrc a && vectorSrc b && destPair d e && tagOk t
  | .vrsumF32 a d e t => vectorSrc a && destPair d e && tagOk t
  | .vrmaxF32 a d e t => vectorSrc a && destPair d e && tagOk t
  | .vrsumI32 a d e t => vectorSrc a && destPair d e && tagOk t
  | .vmset i => laneRange i
  | .vmget d e t => destPair d e && tagOk t
  | .vshiftl a d _ => vectorSrc a && dest d
  | .vscanF32 a d e t => vectorSrc a && destPair d e && tagOk t
  | .cvt a d _ => scalarSrc a && dest d
  | .vcvt a d i => vectorSrc a && dest d && vcvtOk i
  | .vpack a d i => vectorSrc a && dest d && vpackOk i
  | .vunpk a d i => vectorSrc a && dest d && vunpkOk i
  | .vscale a b d e t => vectorSrc a && scalarSrc b && destPair d e && tagOk t
  | .vscalex a b d e t => vectorSrc a && scalarSrc b && destPair d e && tagOk t
  | .bsinit a b d e t => scalarSrc a && scalarSrc b && destPair d e && tagOk t
  | .bspeek a d i => scalarSrc a && dest d && count64 i
  | .bsget a d i => scalarSrc a && dest d && count64 i
  | .bsskip a i => scalarSrc a && count64 i
  | .bshuf a d e t => scalarSrc a && destPair d e && tagOk t
  | .bsput a b d t => scalarSrc a && scalarSrc b && dest d && tagOk t
  | .bsflush d t => dest d && tagOk t
  | .bsstat d e t => destPair d e && tagOk t
  | .fclass a b d e t => scalarSrc a && scalarSrc b && destPair d e && tagOk t
  | .abort t => tagOk t
  | .abortz a t => scalarSrc a && tagOk t
  | .abortnz a t => scalarSrc a && tagOk t
  | .ruleon _ => true
  | .ruleoff _ => true
  | .rulemask a b d e t => scalarSrc a && scalarSrc b && destPair d e && tagOk t
  | .raborts a b d e t => scalarSrc a && scalarSrc b && destPair d e && tagOk t
  | .ctxend t => tagOk t
  | .ctxyield t => tagOk t
  | .tset _ => true
  | .tclr _ => true
  | .tffr a d e t => scalarSrc a && destPair d e && tagOk t
  | .tany a d e t => scalarSrc a && destPair d e && tagOk t
  | .tall a d e t => scalarSrc a && destPair d e && tagOk t
  | .tmask a b d e t => scalarSrc a && scalarSrc b && dest d && isMask e && tagOk t
  | .fence i => fenceOk i
  | .trap _ => true
  | .tret a b t => scalarSrc a && scalarSrc b && tagOk t
  | .csrr d _ => dest d
  | .csrw a d _ => scalarSrc a && dest d
  | .mcrd a d e t => scalarSrc a && destPair d e && tagOk t
  | .cntrd a d e t => scalarSrc a && destPair d e && tagOk t
  | .cntclr a t => scalarSrc a && tagOk t
  | .errinj a d e t => scalarSrc a && destPair d e && tagOk t
  | .timerd a d e t => scalarSrc a && destPair d e && tagOk t
  | .roundrd d e t => destPair d e && tagOk t
  | .fmtmode a d e t => scalarSrc a && destPair d e && tagOk t
  | .ld a d e t _ _ => scalarSrc a && destPair d e && tagOk t
  | .st a b t _ _ => scalarSrc a && scalarSrc b && tagOk t
  | .stn a b t _ _ => scalarSrc a && scalarSrc b && tagOk t
  | .vld a d e t _ => scalarSrc a && destPair d e && tagOk t
  | .vst a b t _ _ => scalarSrc a && vectorSrc b && tagOk t
  | .vldx a b d e t _ _ _ => scalarSrc a && vectorSrc b && destPair d e && tagOk t
  | .vstx a b t _ _ _ _ => scalarSrc a && vectorSrc b && tagOk t
  | .rld a t _ _ _ => scalarSrc a && tagOk t
  | .rst a b t _ _ _ _ => scalarSrc a && scalarSrc b && tagOk t
  | .rvld a t _ _ => scalarSrc a && tagOk t
  | .rvst a b t _ _ _ => scalarSrc a && vectorSrc b && tagOk t
  | .amoAdd a b t _ _ _ _ => scalarSrc a && scalarSrc b && tagOk t
  | .amoMin a b t _ _ _ _ => scalarSrc a && scalarSrc b && tagOk t
  | .amoMax a b t _ _ _ _ => scalarSrc a && scalarSrc b && tagOk t
  | .amoMinu a b t _ _ _ _ => scalarSrc a && scalarSrc b && tagOk t
  | .amoMaxu a b t _ _ _ _ => scalarSrc a && scalarSrc b && tagOk t
  | .amoAnd a b t _ _ _ _ => scalarSrc a && scalarSrc b && tagOk t
  | .amoOr a b t _ _ _ _ => scalarSrc a && scalarSrc b && tagOk t
  | .amoXor a b t _ _ _ _ => scalarSrc a && scalarSrc b && tagOk t
  | .amoSwap a b t _ _ _ _ => scalarSrc a && scalarSrc b && tagOk t
  | .amoCas a b t _ _ _ _ _ => scalarSrc a && scalarSrc b && tagOk t
  | .amoFaddF32 a b t _ _ _ _ => scalarSrc a && scalarSrc b && tagOk t
  | .amoFaddBf16 a b t _ _ _ _ => scalarSrc a && scalarSrc b && tagOk t
  | .stream a d t _ _ _ => scalarSrc a && isStream d && tagOk t
  | .strctlUnbind d t => isStream d && tagOk t
  | .strctlPause d t => isStream d && tagOk t
  | .strctlResume d t => isStream d && tagOk t
  | .strctlDrain d t _ => isStream d && tagOk t
  | .cpy a b _ _ _ => scalarSrc a && scalarSrc b
  | .cpy2 a _ _ => scalarSrc a
  | .publish a _ _ _ => scalarSrc a
  | .pfetch a b _ _ => scalarSrc a && scalarSrc b
  | .mma a b t _ _ _ _ _ _ _ _ _ => isTileA a && isTileB b && tagOk t
  | .mmaz a b t _ _ _ _ _ _ _ _ _ => isTileA a && isTileB b && tagOk t
  | .mmat a b t _ _ _ _ _ _ _ _ _ => isTileA a && isTileB b && tagOk t
  | .mmai8 a b t _ _ _ _ _ _ _ _ _ => isTileA a && isTileB b && tagOk t
  | .mmamx a b t _ _ _ _ _ _ _ _ _ => isReg a && isTileB b && tagOk t
  | .accrd t _ _ _ _ _ _ => tagOk t
  | .accwr a t _ _ _ _ => isReg a && tagOk t
  | .accz t _ _ => tagOk t
  | .epicfg a t _ => isReg a && tagOk t
  | .abftcfg t _ _ => tagOk t
  | .bqstat d e t _ _ => destPair d e && tagOk t
  | .bar _ _ _ => true
  | .bart a _ _ _ => scalarSrc a
  | .red a _ _ xv _ _ => (if xv = 1#1 then vectorSrc a else scalarSrc a)
  | .pairx a _ _ => vectorSrc a
  | .sluice a => scalarSrc a
  | .hfwd a => vectorSrc a
  | .bandrd a d e t => scalarSrc a && destPair d e && tagOk t
  | .toffrd a d e t => scalarSrc a && destPair d e && tagOk t
  | .vfreq a d e t => scalarSrc a && destPair d e && tagOk t
  | .weir a d e t => scalarSrc a && destPair d e && tagOk t
  | .rsvld a b t _ _ _ => scalarSrc a && scalarSrc b && tagOk t
  | .rsvcfgPart a t _ _ => scalarSrc a && tagOk t
  | .rsvcfgDrop a t _ _ => scalarSrc a && tagOk t
  | .cgsend a b _ _ _ _ _ _ _ => scalarSrc a && scalarSrc b
  | .cgrant _ _ => true
  | .cgwake _ _ _ => true
  | .cgrel _ _ => true
  | .cgcfgFilter a _ => scalarSrc a
  | .cgcfgPort a _ => scalarSrc a
  | .cgcfgDepth a _ => scalarSrc a
  | .cgstat a d e t _ => scalarSrc a && destPair d e && tagOk t
  | .eos _ _ => true
  | .cfgswap a _ _ _ => scalarSrc a
  | .gbar _ _ => true
  | .statred _ _ _ _ => true
  | .qstat a d e t _ => scalarSrc a && destPair d e && tagOk t
  | .xstr a _ _ => scalarSrc a
  | .migrate a b _ _ => scalarSrc a && scalarSrc b
  | .tlbinvPage a b _ _ => scalarSrc a && scalarSrc b
  | .tlbinvQueue b _ _ => scalarSrc b
  | .tlbinvAll _ _ => true
  | .compattrQuery a b _ _ => scalarSrc a && scalarSrc b
  | .compattrSet a b _ _ => scalarSrc a && scalarSrc b
  | .compattrRecomp a b _ _ => scalarSrc a && scalarSrc b
  | .coll a _ _ _ => scalarSrc a
  | .routesw _ _ => true
  | .fportQuiesce a b _ _ => scalarSrc a && scalarSrc b
  | .fportTrain a b _ _ => scalarSrc a && scalarSrc b
  | .fportCycle a b _ _ => scalarSrc a && scalarSrc b
  | .fstat a d e t _ => scalarSrc a && destPair d e && tagOk t
  | .round => true
  | .tretMessageArrival => true
  | .tokenArrival => true
  | .tokenSpill => true
  | .creditReturn => true
  | .replyArrival => true
  | .remoteAccessServe => true
  | .amoPerform => true
  | .publishFlip => true
  | .failedRequest => true
  | .streamFetch => true
  | .streamWrite => true
  | .streamDrainTag => true
  | .copyUnit => true
  | .copyComplete => true
  | .bucketLeak => true
  | .basinGrant => true
  | .basinCommandComplete => true
  | .accrdRowDelivery => true
  | .epilogueRowDelivery => true
  | .slotPinClear => true
  | .flitHop => true
  | .deliveryAck => true
  | .routeClassSwitch => true
  | .coreMapRebind => true
  | .confluenceCombine => true
  | .barrierArrivalLeave => true
  | .barrierArrival => true
  | .barrierCompletionArrival => true
  | .bartTimeout => true
  | .pairHalfArrival => true
  | .pairDeadline => true
  | .pairTimeoutMessage => true
  | .pairAbortMessage => true
  | .trapRecordDelivery => true
  | .recordResend => true
  | .retentionEntry => true
  | .retentionExitStart => true
  | .retentionExitEnd => true
  | .vfRequestApply => true
  | .vfClockResume => true
  | .weirHalve => true
  | .weirDouble => true
  | .timeRecalibration => true
  | .reservoirAccess => true
  | .cacheReplacement => true
  | .rsvldLine => true
  | .rsvldComplete => true
  | .rsvcfgPartApply => true
  | .rsvcfgDropComplete => true
  | .pfetchComplete => true
  | .cascadeBlockLaunch => true
  | .branchReceive => true
  | .retransmitRequest => true
  | .branchForward => true
  | .memberSlotFill => true
  | .memberReemit => true
  | .blockAck => true
  | .voteArrival => true
  | .laserLit => true
  | .laserDark => true
  | .groupEntryWriteApply => true
  | .queueKick => true
  | .queueEnable => true
  | .queueOff => true
  | .packetFetch => true
  | .packetRefetch => true
  | .packetDispatch => true
  | .ageRise => true
  | .packetCompletion => true
  | .launch => true
  | .launchSwapAtQuiescence => true
  | .launchSwapAtCfgswap => true
  | .shadowLoadEnd => true
  | .copy => true
  | .wait => true
  | .waitPoll => true
  | .signal => true
  | .groupload => true
  | .reservoirLoad => true
  | .fabricReconf => true
  | .portCmdQuiesce => true
  | .portCmdTrain => true
  | .portCmdCycle => true
  | .destroy => true
  | .destroyForce => true
  | .record => true
  | .pwrSetCap => true
  | .pwrSetFloor => true
  | .placement => true
  | .preemptDeadline => true
  | .stillSweep => true
  | .sweepResult => true
  | .gangStop => true
  | .gangStopScanOut => true
  | .gangResume => true
  | .gbarCompletion => true
  | .pkgRetireGo => true
  | .rollback => true
  | .comparatorMismatch => true
  | .comparatorTimeout => true
  | .translationWalk => true
  | .pageRequestResponse => true
  | .pfDeadline => true
  | .tlbinvComplete => true
  | .migrationFork => true
  | .migrationCopyLine => true
  | .migrationSwitch => true
  | .migrationRelease => true
  | .hbmWrite => true
  | .hbmRead => true
  | .xstrElement => true
  | .xstrComplete => true
  | .eventWrite => true
  | .pkgEvreplyWrite => true
  | .watchdogDead => true
  | .watchdogSlow => true
  | .powerManagerUpdate => true
  | .startup => true
  | .hostLinkDown => true
  | .hostLinkUp => true
  | .attestReport => true
  | .recoveryFirmware => true
  | .dieVfrWrite => true
  | .cluRouteSwitchRequest => true
  | .fabRouteSwitchRequest => true
  | .registerWrite => true
  | .fabricFlitTransmit => true
  | .fabricFlitReceive => true
  | .replayTimeout => true
  | .laneLock => true
  | .trainTimeout => true
  | .identityArrival => true
  | .verifyTimeout => true
  | .lossOfLock => true
  | .drainDeadline => true
  | .darkTimeExpiry => true
  | .transitForward => true
  | .fdataDelivery => true
  | .fctlArrival => true
  | .flowSwitch => true
  | .collStepStart => true
  | .collStepComplete => true
  | .fenceReleaseTraffic => true
  | .cgwakeArrival => true
  | .secondTierAccess => true

/-- An instruction that a word of a rule body can hold, as opposed to an event of the part. -/
def Instr.isBody : Instr → Bool
  | .nop _ => true
  | .mov _ _ _ _ => true
  | .movi _ _ => true
  | .movsh _ _ _ => true
  | .add _ _ _ _ _ => true
  | .addi _ _ _ => true
  | .sub _ _ _ _ _ => true
  | .mul _ _ _ _ _ => true
  | .mulh _ _ _ _ _ => true
  | .mulhu _ _ _ _ _ => true
  | .div _ _ _ _ _ => true
  | .divu _ _ _ _ _ => true
  | .rem _ _ _ _ _ => true
  | .remu _ _ _ _ _ => true
  | .and _ _ _ _ _ => true
  | .andi _ _ _ => true
  | .or _ _ _ _ _ => true
  | .ori _ _ _ => true
  | .xor _ _ _ _ _ => true
  | .xori _ _ _ => true
  | .shl _ _ _ _ _ => true
  | .shli _ _ _ => true
  | .shr _ _ _ _ _ => true
  | .shri _ _ _ => true
  | .sar _ _ _ _ _ => true
  | .sari _ _ _ => true
  | .rol _ _ _ _ _ => true
  | .clz _ _ _ _ => true
  | .ctz _ _ _ _ => true
  | .popc _ _ _ _ => true
  | .min _ _ _ _ _ => true
  | .max _ _ _ _ _ => true
  | .minu _ _ _ _ _ => true
  | .maxu _ _ _ _ _ => true
  | .addsat _ _ _ _ _ => true
  | .subsat _ _ _ _ _ => true
  | .seq _ _ _ _ _ => true
  | .sne _ _ _ _ _ => true
  | .slt _ _ _ _ _ => true
  | .sltu _ _ _ _ _ => true
  | .sle _ _ _ _ _ => true
  | .sleu _ _ _ _ _ => true
  | .sel _ _ _ _ _ => true
  | .sext _ _ _ => true
  | .zext _ _ _ => true
  | .bfx _ _ _ => true
  | .bfi _ _ _ _ _ => true
  | .xyadr _ _ _ _ _ => true
  | .reladr _ _ _ _ _ => true
  | .myxy _ _ _ => true
  | .adrx _ _ _ => true
  | .adrchk _ _ _ _ _ => true
  | .vmov _ _ _ _ => true
  | .vbcast _ _ _ _ => true
  | .vperm _ _ _ _ _ => true
  | .vextr _ _ _ => true
  | .vins _ _ _ => true
  | .vaddF32 _ _ _ _ _ => true
  | .vsubF32 _ _ _ _ _ => true
  | .vmulF32 _ _ _ _ _ => true
  | .vfmaF32 _ _ _ _ _ => true
  | .vminF32 _ _ _ _ _ => true
  | .vmaxF32 _ _ _ _ _ => true
  | .vaddF64 _ _ _ _ _ => true
  | .vsubF64 _ _ _ _ _ => true
  | .vmulF64 _ _ _ _ _ => true
  | .vfmaF64 _ _ _ _ _ => true
  | .vaddBf16 _ _ _ _ _ => true
  | .vmulBf16 _ _ _ _ _ => true
  | .vdot2Bf16 _ _ _ _ _ => true
  | .vabsF32 _ _ _ _ => true
  | .vnegF32 _ _ _ _ => true
  | .vrcpF32 _ _ _ _ => true
  | .vrsqF32 _ _ _ _ => true
  | .vsqrtF32 _ _ _ _ => true
  | .vexp2F32 _ _ _ _ => true
  | .vlog2F32 _ _ _ _ => true
  | .vtanhF32 _ _ _ _ => true
  | .vceqF32 _ _ _ _ _ => true
  | .vcltF32 _ _ _ _ _ => true
  | .vcleF32 _ _ _ _ _ => true
  | .vsel _ _ _ _ _ => true
  | .viadd _ _ _ _ _ => true
  | .visub _ _ _ _ _ => true
  | .vimul _ _ _ _ _ => true
  | .vand _ _ _ _ _ => true
  | .vor _ _ _ _ _ => true
  | .vxor _ _ _ _ _ => true
  | .vshl _ _ _ _ _ => true
  | .vshr _ _ _ _ _ => true
  | .vsar _ _ _ _ _ => true
  | .vimin _ _ _ _ _ => true
  | .vimax _ _ _ _ _ => true
  | .viceq _ _ _ _ _ => true
  | .viclt _ _ _ _ _ => true
  | .viaddsatI8 _ _ _ _ _ => true
  | .vrsumF32 _ _ _ _ => true
  | .vrmaxF32 _ _ _ _ => true
  | .vrsumI32 _ _ _ _ => true
  | .vmset _ => true
  | .vmget _ _ _ => true
  | .vshiftl _ _ _ => true
  | .vscanF32 _ _ _ _ => true
  | .cvt _ _ _ => true
  | .vcvt _ _ _ => true
  | .vpack _ _ _ => true
  | .vunpk _ _ _ => true
  | .vscale _ _ _ _ _ => true
  | .vscalex _ _ _ _ _ => true
  | .bsinit _ _ _ _ _ => true
  | .bspeek _ _ _ => true
  | .bsget _ _ _ => true
  | .bsskip _ _ => true
  | .bshuf _ _ _ _ => true
  | .bsput _ _ _ _ => true
  | .bsflush _ _ => true
  | .bsstat _ _ _ => true
  | .fclass _ _ _ _ _ => true
  | .abort _ => true
  | .abortz _ _ => true
  | .abortnz _ _ => true
  | .ruleon _ => true
  | .ruleoff _ => true
  | .rulemask _ _ _ _ _ => true
  | .raborts _ _ _ _ _ => true
  | .ctxend _ => true
  | .ctxyield _ => true
  | .tset _ => true
  | .tclr _ => true
  | .tffr _ _ _ _ => true
  | .tany _ _ _ _ => true
  | .tall _ _ _ _ => true
  | .tmask _ _ _ _ _ => true
  | .fence _ => true
  | .trap _ => true
  | .tret _ _ _ => true
  | .csrr _ _ => true
  | .csrw _ _ _ => true
  | .mcrd _ _ _ _ => true
  | .cntrd _ _ _ _ => true
  | .cntclr _ _ => true
  | .errinj _ _ _ _ => true
  | .timerd _ _ _ _ => true
  | .roundrd _ _ _ => true
  | .fmtmode _ _ _ _ => true
  | .ld _ _ _ _ _ _ => true
  | .st _ _ _ _ _ => true
  | .stn _ _ _ _ _ => true
  | .vld _ _ _ _ _ => true
  | .vst _ _ _ _ _ => true
  | .vldx _ _ _ _ _ _ _ _ => true
  | .vstx _ _ _ _ _ _ _ => true
  | .rld _ _ _ _ _ => true
  | .rst _ _ _ _ _ _ _ => true
  | .rvld _ _ _ _ => true
  | .rvst _ _ _ _ _ _ => true
  | .amoAdd _ _ _ _ _ _ _ => true
  | .amoMin _ _ _ _ _ _ _ => true
  | .amoMax _ _ _ _ _ _ _ => true
  | .amoMinu _ _ _ _ _ _ _ => true
  | .amoMaxu _ _ _ _ _ _ _ => true
  | .amoAnd _ _ _ _ _ _ _ => true
  | .amoOr _ _ _ _ _ _ _ => true
  | .amoXor _ _ _ _ _ _ _ => true
  | .amoSwap _ _ _ _ _ _ _ => true
  | .amoCas _ _ _ _ _ _ _ _ => true
  | .amoFaddF32 _ _ _ _ _ _ _ => true
  | .amoFaddBf16 _ _ _ _ _ _ _ => true
  | .stream _ _ _ _ _ _ => true
  | .strctlUnbind _ _ => true
  | .strctlPause _ _ => true
  | .strctlResume _ _ => true
  | .strctlDrain _ _ _ => true
  | .cpy _ _ _ _ _ => true
  | .cpy2 _ _ _ => true
  | .publish _ _ _ _ => true
  | .pfetch _ _ _ _ => true
  | .mma _ _ _ _ _ _ _ _ _ _ _ _ => true
  | .mmaz _ _ _ _ _ _ _ _ _ _ _ _ => true
  | .mmat _ _ _ _ _ _ _ _ _ _ _ _ => true
  | .mmai8 _ _ _ _ _ _ _ _ _ _ _ _ => true
  | .mmamx _ _ _ _ _ _ _ _ _ _ _ _ => true
  | .accrd _ _ _ _ _ _ _ => true
  | .accwr _ _ _ _ _ _ => true
  | .accz _ _ _ => true
  | .epicfg _ _ _ => true
  | .abftcfg _ _ _ => true
  | .bqstat _ _ _ _ _ => true
  | .bar _ _ _ => true
  | .bart _ _ _ _ => true
  | .red _ _ _ _ _ _ => true
  | .pairx _ _ _ => true
  | .sluice _ => true
  | .hfwd _ => true
  | .bandrd _ _ _ _ => true
  | .toffrd _ _ _ _ => true
  | .vfreq _ _ _ _ => true
  | .weir _ _ _ _ => true
  | .rsvld _ _ _ _ _ _ => true
  | .rsvcfgPart _ _ _ _ => true
  | .rsvcfgDrop _ _ _ _ => true
  | .cgsend _ _ _ _ _ _ _ _ _ => true
  | .cgrant _ _ => true
  | .cgwake _ _ _ => true
  | .cgrel _ _ => true
  | .cgcfgFilter _ _ => true
  | .cgcfgPort _ _ => true
  | .cgcfgDepth _ _ => true
  | .cgstat _ _ _ _ _ => true
  | .eos _ _ => true
  | .cfgswap _ _ _ _ => true
  | .gbar _ _ => true
  | .statred _ _ _ _ => true
  | .qstat _ _ _ _ _ => true
  | .xstr _ _ _ => true
  | .migrate _ _ _ _ => true
  | .tlbinvPage _ _ _ _ => true
  | .tlbinvQueue _ _ _ => true
  | .tlbinvAll _ _ => true
  | .compattrQuery _ _ _ _ => true
  | .compattrSet _ _ _ _ => true
  | .compattrRecomp _ _ _ _ => true
  | .coll _ _ _ _ => true
  | .routesw _ _ => true
  | .fportQuiesce _ _ _ _ => true
  | .fportTrain _ _ _ _ => true
  | .fportCycle _ _ _ _ => true
  | .fstat _ _ _ _ _ => true
  | .round => false
  | .tretMessageArrival => false
  | .tokenArrival => false
  | .tokenSpill => false
  | .creditReturn => false
  | .replyArrival => false
  | .remoteAccessServe => false
  | .amoPerform => false
  | .publishFlip => false
  | .failedRequest => false
  | .streamFetch => false
  | .streamWrite => false
  | .streamDrainTag => false
  | .copyUnit => false
  | .copyComplete => false
  | .bucketLeak => false
  | .basinGrant => false
  | .basinCommandComplete => false
  | .accrdRowDelivery => false
  | .epilogueRowDelivery => false
  | .slotPinClear => false
  | .flitHop => false
  | .deliveryAck => false
  | .routeClassSwitch => false
  | .coreMapRebind => false
  | .confluenceCombine => false
  | .barrierArrivalLeave => false
  | .barrierArrival => false
  | .barrierCompletionArrival => false
  | .bartTimeout => false
  | .pairHalfArrival => false
  | .pairDeadline => false
  | .pairTimeoutMessage => false
  | .pairAbortMessage => false
  | .trapRecordDelivery => false
  | .recordResend => false
  | .retentionEntry => false
  | .retentionExitStart => false
  | .retentionExitEnd => false
  | .vfRequestApply => false
  | .vfClockResume => false
  | .weirHalve => false
  | .weirDouble => false
  | .timeRecalibration => false
  | .reservoirAccess => false
  | .cacheReplacement => false
  | .rsvldLine => false
  | .rsvldComplete => false
  | .rsvcfgPartApply => false
  | .rsvcfgDropComplete => false
  | .pfetchComplete => false
  | .cascadeBlockLaunch => false
  | .branchReceive => false
  | .retransmitRequest => false
  | .branchForward => false
  | .memberSlotFill => false
  | .memberReemit => false
  | .blockAck => false
  | .voteArrival => false
  | .laserLit => false
  | .laserDark => false
  | .groupEntryWriteApply => false
  | .queueKick => false
  | .queueEnable => false
  | .queueOff => false
  | .packetFetch => false
  | .packetRefetch => false
  | .packetDispatch => false
  | .ageRise => false
  | .packetCompletion => false
  | .launch => false
  | .launchSwapAtQuiescence => false
  | .launchSwapAtCfgswap => false
  | .shadowLoadEnd => false
  | .copy => false
  | .wait => false
  | .waitPoll => false
  | .signal => false
  | .groupload => false
  | .reservoirLoad => false
  | .fabricReconf => false
  | .portCmdQuiesce => false
  | .portCmdTrain => false
  | .portCmdCycle => false
  | .destroy => false
  | .destroyForce => false
  | .record => false
  | .pwrSetCap => false
  | .pwrSetFloor => false
  | .placement => false
  | .preemptDeadline => false
  | .stillSweep => false
  | .sweepResult => false
  | .gangStop => false
  | .gangStopScanOut => false
  | .gangResume => false
  | .gbarCompletion => false
  | .pkgRetireGo => false
  | .rollback => false
  | .comparatorMismatch => false
  | .comparatorTimeout => false
  | .translationWalk => false
  | .pageRequestResponse => false
  | .pfDeadline => false
  | .tlbinvComplete => false
  | .migrationFork => false
  | .migrationCopyLine => false
  | .migrationSwitch => false
  | .migrationRelease => false
  | .hbmWrite => false
  | .hbmRead => false
  | .xstrElement => false
  | .xstrComplete => false
  | .eventWrite => false
  | .pkgEvreplyWrite => false
  | .watchdogDead => false
  | .watchdogSlow => false
  | .powerManagerUpdate => false
  | .startup => false
  | .hostLinkDown => false
  | .hostLinkUp => false
  | .attestReport => false
  | .recoveryFirmware => false
  | .dieVfrWrite => false
  | .cluRouteSwitchRequest => false
  | .fabRouteSwitchRequest => false
  | .registerWrite => false
  | .fabricFlitTransmit => false
  | .fabricFlitReceive => false
  | .replayTimeout => false
  | .laneLock => false
  | .trainTimeout => false
  | .identityArrival => false
  | .verifyTimeout => false
  | .lossOfLock => false
  | .drainDeadline => false
  | .darkTimeExpiry => false
  | .transitForward => false
  | .fdataDelivery => false
  | .fctlArrival => false
  | .flowSwitch => false
  | .collStepStart => false
  | .collStepComplete => false
  | .fenceReleaseTraffic => false
  | .cgwakeArrival => false
  | .secondTierAccess => false

end Sys2Proof
end

