-- ==== Sys2Proof/Decode.lean ====
section
/-! DEFINITION. Reading instructions from the words of a rule body and writing them as words: formats P, I and W
(01_encoding, R16 to R21, R35, R37 to R41). Event rows of the opcode table have no words. -/
namespace Sys2Proof

/-- Why a word is no instruction: the two run-time codes of 01_encoding, R41. -/
inductive DecodeError where
  /-- an unallocated opcode, a reserved sub-operation, or a format W word that stands last in its body -/
  | illegalOpcode
  /-- an operand code, tag action, reserved bit or immediate outside its reading -/
  | illegalOperand
deriving DecidableEq, Repr

/-- The fields of an operation word as format P lays them out (01_encoding, R18). -/
structure OpWord where
  op : BitVec 8
  a : Opd
  b : Opd
  d : Opd
  e : Opd
  t : Tag
deriving DecidableEq, Repr

namespace OpWord

/-- The fields of a word (01_encoding, R18). -/
def ofWord (w : W32) : OpWord :=
  ⟨w.extractLsb' 24 8, w.extractLsb' 19 5, w.extractLsb' 14 5, w.extractLsb' 9 5, w.extractLsb' 4 5, w.extractLsb' 0 4⟩

/-- The word that holds the fields (01_encoding, R18). -/
def toWord (f : OpWord) : W32 := (f.op ++ f.a ++ f.b ++ f.d ++ f.e ++ f.t).cast rfl

/-- The immediate of format I, bits 13 to 0 (01_encoding, R19); its destination stands where format P has srcB. -/
def imm (f : OpWord) : BitVec 14 := (f.d ++ f.e ++ f.t).cast rfl

/-- A format I word from its opcode, srcA, dstA and immediate (01_encoding, R19). -/
def ofImm (op : BitVec 8) (a d : Opd) (i : BitVec 14) : OpWord :=
  ⟨op, a, d, i.extractLsb' 9 5, i.extractLsb' 4 5, i.extractLsb' 0 4⟩

end OpWord

/-- The code z of a field that an instruction does not use (01_encoding, R21). -/
abbrev zOpd : Opd := 31#5

/-- An instruction whose unused fields hold what they must, or the operand error (01_encoding, R21, R41). -/
def decodeIf (ok : Bool) (i : Instr) : Except DecodeError Instr :=
  if ok && i.wf then .ok i else .error .illegalOperand

/-- The one-word instructions, formats P and I (01_encoding, R18, R19, R35). -/
def decodeOne (f : OpWord) : Except DecodeError Instr :=
  match f.op.toNat with
  | 0x00 => decodeIf (f.a == zOpd && f.b == zOpd && f.d == zOpd && f.e == zOpd) (.nop f.t)
  | 0x01 => decodeIf (f.b == zOpd) (.mov f.a f.d f.e f.t)
  | 0x02 => decodeIf (f.a == zOpd) (.movi f.b f.imm)
  | 0x03 => decodeIf (true) (.movsh f.a f.b f.imm)
  | 0x04 => decodeIf (true) (.add f.a f.b f.d f.e f.t)
  | 0x05 => decodeIf (true) (.addi f.a f.b f.imm)
  | 0x06 => decodeIf (true) (.sub f.a f.b f.d f.e f.t)
  | 0x07 => decodeIf (true) (.mul f.a f.b f.d f.e f.t)
  | 0x08 => decodeIf (true) (.mulh f.a f.b f.d f.e f.t)
  | 0x09 => decodeIf (true) (.mulhu f.a f.b f.d f.e f.t)
  | 0x0A => decodeIf (true) (.div f.a f.b f.d f.e f.t)
  | 0x0B => decodeIf (true) (.divu f.a f.b f.d f.e f.t)
  | 0x0C => decodeIf (true) (.rem f.a f.b f.d f.e f.t)
  | 0x0D => decodeIf (true) (.remu f.a f.b f.d f.e f.t)
  | 0x0E => decodeIf (true) (.and f.a f.b f.d f.e f.t)
  | 0x0F => decodeIf (true) (.andi f.a f.b f.imm)
  | 0x10 => decodeIf (true) (.or f.a f.b f.d f.e f.t)
  | 0x11 => decodeIf (true) (.ori f.a f.b f.imm)
  | 0x12 => decodeIf (true) (.xor f.a f.b f.d f.e f.t)
  | 0x13 => decodeIf (true) (.xori f.a f.b f.imm)
  | 0x14 => decodeIf (true) (.shl f.a f.b f.d f.e f.t)
  | 0x15 => decodeIf (f.imm.extractLsb' 6 8 == 0#8) (.shli f.a f.b (f.imm.extractLsb' 0 6))
  | 0x16 => decodeIf (true) (.shr f.a f.b f.d f.e f.t)
  | 0x17 => decodeIf (f.imm.extractLsb' 6 8 == 0#8) (.shri f.a f.b (f.imm.extractLsb' 0 6))
  | 0x18 => decodeIf (true) (.sar f.a f.b f.d f.e f.t)
  | 0x19 => decodeIf (f.imm.extractLsb' 6 8 == 0#8) (.sari f.a f.b (f.imm.extractLsb' 0 6))
  | 0x1A => decodeIf (true) (.rol f.a f.b f.d f.e f.t)
  | 0x1B => decodeIf (f.b == zOpd) (.clz f.a f.d f.e f.t)
  | 0x1C => decodeIf (f.b == zOpd) (.ctz f.a f.d f.e f.t)
  | 0x1D => decodeIf (f.b == zOpd) (.popc f.a f.d f.e f.t)
  | 0x1E => decodeIf (true) (.min f.a f.b f.d f.e f.t)
  | 0x1F => decodeIf (true) (.max f.a f.b f.d f.e f.t)
  | 0x20 => decodeIf (true) (.minu f.a f.b f.d f.e f.t)
  | 0x21 => decodeIf (true) (.maxu f.a f.b f.d f.e f.t)
  | 0x22 => decodeIf (true) (.addsat f.a f.b f.d f.e f.t)
  | 0x23 => decodeIf (true) (.subsat f.a f.b f.d f.e f.t)
  | 0x24 => decodeIf (true) (.seq f.a f.b f.d f.e f.t)
  | 0x25 => decodeIf (true) (.sne f.a f.b f.d f.e f.t)
  | 0x26 => decodeIf (true) (.slt f.a f.b f.d f.e f.t)
  | 0x27 => decodeIf (true) (.sltu f.a f.b f.d f.e f.t)
  | 0x28 => decodeIf (true) (.sle f.a f.b f.d f.e f.t)
  | 0x29 => decodeIf (true) (.sleu f.a f.b f.d f.e f.t)
  | 0x2A => decodeIf (true) (.sel f.a f.b f.d f.e f.t)
  | 0x2B => decodeIf (f.imm.extractLsb' 7 7 == 0#7) (.sext f.a f.b (f.imm.extractLsb' 0 7))
  | 0x2C => decodeIf (f.imm.extractLsb' 7 7 == 0#7) (.zext f.a f.b (f.imm.extractLsb' 0 7))
  | 0x2D => decodeIf (true) (.bfx f.a f.b f.imm)
  | 0x2E => decodeIf (true) (.bfi f.a f.b f.d f.e f.t)
  | 0x30 => decodeIf (true) (.xyadr f.a f.b f.d f.e f.t)
  | 0x31 => decodeIf (true) (.reladr f.a f.b f.d f.e f.t)
  | 0x32 => decodeIf (f.a == zOpd && f.b == zOpd) (.myxy f.d f.e f.t)
  | 0x33 => decodeIf (f.imm.extractLsb' 2 12 == 0#12) (.adrx f.a f.b (f.imm.extractLsb' 0 2))
  | 0x34 => decodeIf (true) (.adrchk f.a f.b f.d f.e f.t)
  | 0x40 => decodeIf (f.b == zOpd) (.vmov f.a f.d f.e f.t)
  | 0x41 => decodeIf (f.b == zOpd) (.vbcast f.a f.d f.e f.t)
  | 0x42 => decodeIf (true) (.vperm f.a f.b f.d f.e f.t)
  | 0x43 => decodeIf (f.imm.extractLsb' 4 10 == 0#10) (.vextr f.a f.b (f.imm.extractLsb' 0 4))
  | 0x44 => decodeIf (f.imm.extractLsb' 4 10 == 0#10) (.vins f.a f.b (f.imm.extractLsb' 0 4))
  | 0x45 => decodeIf (true) (.vaddF32 f.a f.b f.d f.e f.t)
  | 0x46 => decodeIf (true) (.vsubF32 f.a f.b f.d f.e f.t)
  | 0x47 => decodeIf (true) (.vmulF32 f.a f.b f.d f.e f.t)
  | 0x48 => decodeIf (true) (.vfmaF32 f.a f.b f.d f.e f.t)
  | 0x49 => decodeIf (true) (.vminF32 f.a f.b f.d f.e f.t)
  | 0x4A => decodeIf (true) (.vmaxF32 f.a f.b f.d f.e f.t)
  | 0x4B => decodeIf (true) (.vaddF64 f.a f.b f.d f.e f.t)
  | 0x4C => decodeIf (true) (.vsubF64 f.a f.b f.d f.e f.t)
  | 0x4D => decodeIf (true) (.vmulF64 f.a f.b f.d f.e f.t)
  | 0x4E => decodeIf (true) (.vfmaF64 f.a f.b f.d f.e f.t)
  | 0x4F => decodeIf (true) (.vaddBf16 f.a f.b f.d f.e f.t)
  | 0x50 => decodeIf (true) (.vmulBf16 f.a f.b f.d f.e f.t)
  | 0x51 => decodeIf (true) (.vdot2Bf16 f.a f.b f.d f.e f.t)
  | 0x52 => decodeIf (f.b == zOpd) (.vabsF32 f.a f.d f.e f.t)
  | 0x53 => decodeIf (f.b == zOpd) (.vnegF32 f.a f.d f.e f.t)
  | 0x54 => decodeIf (f.b == zOpd) (.vrcpF32 f.a f.d f.e f.t)
  | 0x55 => decodeIf (f.b == zOpd) (.vrsqF32 f.a f.d f.e f.t)
  | 0x56 => decodeIf (f.b == zOpd) (.vsqrtF32 f.a f.d f.e f.t)
  | 0x57 => decodeIf (f.b == zOpd) (.vexp2F32 f.a f.d f.e f.t)
  | 0x58 => decodeIf (f.b == zOpd) (.vlog2F32 f.a f.d f.e f.t)
  | 0x59 => decodeIf (f.b == zOpd) (.vtanhF32 f.a f.d f.e f.t)
  | 0x5A => decodeIf (true) (.vceqF32 f.a f.b f.d f.e f.t)
  | 0x5B => decodeIf (true) (.vcltF32 f.a f.b f.d f.e f.t)
  | 0x5C => decodeIf (true) (.vcleF32 f.a f.b f.d f.e f.t)
  | 0x5D => decodeIf (true) (.vsel f.a f.b f.d f.e f.t)
  | 0x5E => decodeIf (true) (.viadd f.a f.b f.d f.e f.t)
  | 0x5F => decodeIf (true) (.visub f.a f.b f.d f.e f.t)
  | 0x60 => decodeIf (true) (.vimul f.a f.b f.d f.e f.t)
  | 0x61 => decodeIf (true) (.vand f.a f.b f.d f.e f.t)
  | 0x62 => decodeIf (true) (.vor f.a f.b f.d f.e f.t)
  | 0x63 => decodeIf (true) (.vxor f.a f.b f.d f.e f.t)
  | 0x64 => decodeIf (true) (.vshl f.a f.b f.d f.e f.t)
  | 0x65 => decodeIf (true) (.vshr f.a f.b f.d f.e f.t)
  | 0x66 => decodeIf (true) (.vsar f.a f.b f.d f.e f.t)
  | 0x67 => decodeIf (true) (.vimin f.a f.b f.d f.e f.t)
  | 0x68 => decodeIf (true) (.vimax f.a f.b f.d f.e f.t)
  | 0x69 => decodeIf (true) (.viceq f.a f.b f.d f.e f.t)
  | 0x6A => decodeIf (true) (.viclt f.a f.b f.d f.e f.t)
  | 0x6B => decodeIf (true) (.viaddsatI8 f.a f.b f.d f.e f.t)
  | 0x6C => decodeIf (f.b == zOpd) (.vrsumF32 f.a f.d f.e f.t)
  | 0x6D => decodeIf (f.b == zOpd) (.vrmaxF32 f.a f.d f.e f.t)
  | 0x6E => decodeIf (f.b == zOpd) (.vrsumI32 f.a f.d f.e f.t)
  | 0x6F => decodeIf (f.a == zOpd && f.b == zOpd && f.imm.extractLsb' 8 6 == 0#6) (.vmset (f.imm.extractLsb' 0 8))
  | 0x70 => decodeIf (f.a == zOpd && f.b == zOpd) (.vmget f.d f.e f.t)
  | 0x71 => decodeIf (f.imm.extractLsb' 4 10 == 0#10) (.vshiftl f.a f.b (f.imm.extractLsb' 0 4))
  | 0x72 => decodeIf (f.b == zOpd) (.vscanF32 f.a f.d f.e f.t)
  | 0x80 => decodeIf (f.imm.extractLsb' 0 5 == 0#5) (.cvt f.a f.b (f.imm.extractLsb' 5 9))
  | 0x81 => decodeIf (f.imm.extractLsb' 0 5 == 0#5) (.vcvt f.a f.b (f.imm.extractLsb' 5 9))
  | 0x82 => decodeIf (f.imm.extractLsb' 0 5 == 0#5) (.vpack f.a f.b (f.imm.extractLsb' 5 9))
  | 0x83 => decodeIf (f.imm.extractLsb' 0 5 == 0#5) (.vunpk f.a f.b (f.imm.extractLsb' 5 9))
  | 0x84 => decodeIf (true) (.vscale f.a f.b f.d f.e f.t)
  | 0x85 => decodeIf (true) (.vscalex f.a f.b f.d f.e f.t)
  | 0x86 => decodeIf (true) (.bsinit f.a f.b f.d f.e f.t)
  | 0x87 => decodeIf (f.imm.extractLsb' 7 7 == 0#7) (.bspeek f.a f.b (f.imm.extractLsb' 0 7))
  | 0x88 => decodeIf (f.imm.extractLsb' 7 7 == 0#7) (.bsget f.a f.b (f.imm.extractLsb' 0 7))
  | 0x89 => decodeIf (f.b == zOpd && f.imm.extractLsb' 7 7 == 0#7) (.bsskip f.a (f.imm.extractLsb' 0 7))
  | 0x8A => decodeIf (f.b == zOpd) (.bshuf f.a f.d f.e f.t)
  | 0x8B => decodeIf (f.e == zOpd) (.bsput f.a f.b f.d f.t)
  | 0x8C => decodeIf (f.a == zOpd && f.b == zOpd && f.e == zOpd) (.bsflush f.d f.t)
  | 0x8D => decodeIf (f.a == zOpd && f.b == zOpd) (.bsstat f.d f.e f.t)
  | 0x8E => decodeIf (true) (.fclass f.a f.b f.d f.e f.t)
  | 0xA0 => decodeIf (f.a == zOpd && f.b == zOpd && f.d == zOpd && f.e == zOpd) (.abort f.t)
  | 0xA1 => decodeIf (f.b == zOpd && f.d == zOpd && f.e == zOpd) (.abortz f.a f.t)
  | 0xA2 => decodeIf (f.b == zOpd && f.d == zOpd && f.e == zOpd) (.abortnz f.a f.t)
  | 0xA3 => decodeIf (f.a == zOpd && f.b == zOpd && f.imm.extractLsb' 6 8 == 0#8) (.ruleon (f.imm.extractLsb' 0 6))
  | 0xA4 => decodeIf (f.a == zOpd && f.b == zOpd && f.imm.extractLsb' 6 8 == 0#8) (.ruleoff (f.imm.extractLsb' 0 6))
  | 0xA5 => decodeIf (true) (.rulemask f.a f.b f.d f.e f.t)
  | 0xA6 => decodeIf (true) (.raborts f.a f.b f.d f.e f.t)
  | 0xA7 => decodeIf (f.a == zOpd && f.b == zOpd && f.d == zOpd && f.e == zOpd) (.ctxend f.t)
  | 0xA8 => decodeIf (f.a == zOpd && f.b == zOpd && f.d == zOpd && f.e == zOpd) (.ctxyield f.t)
  | 0xA9 => decodeIf (f.a == zOpd && f.b == zOpd && f.imm.extractLsb' 6 8 == 0#8) (.tset (f.imm.extractLsb' 0 6))
  | 0xAA => decodeIf (f.a == zOpd && f.b == zOpd && f.imm.extractLsb' 6 8 == 0#8) (.tclr (f.imm.extractLsb' 0 6))
  | 0xAB => decodeIf (f.b == zOpd) (.tffr f.a f.d f.e f.t)
  | 0xAC => decodeIf (f.b == zOpd) (.tany f.a f.d f.e f.t)
  | 0xAD => decodeIf (f.b == zOpd) (.tall f.a f.d f.e f.t)
  | 0xAE => decodeIf (true) (.tmask f.a f.b f.d f.e f.t)
  | 0xAF => decodeIf (f.a == zOpd && f.b == zOpd && f.imm.extractLsb' 5 9 == 0#9) (.fence (f.imm.extractLsb' 0 5))
  | 0xB0 => decodeIf (f.a == zOpd && f.b == zOpd && f.imm.extractLsb' 8 6 == 0#6) (.trap (f.imm.extractLsb' 0 8))
  | 0xB1 => decodeIf (f.d == zOpd && f.e == zOpd) (.tret f.a f.b f.t)
  | 0xB2 => decodeIf (f.a == zOpd && f.imm.extractLsb' 12 2 == 0#2) (.csrr f.b (f.imm.extractLsb' 0 12))
  | 0xB3 => decodeIf (f.imm.extractLsb' 12 2 == 0#2) (.csrw f.a f.b (f.imm.extractLsb' 0 12))
  | 0xB4 => decodeIf (f.b == zOpd) (.mcrd f.a f.d f.e f.t)
  | 0xB5 => decodeIf (f.b == zOpd) (.cntrd f.a f.d f.e f.t)
  | 0xB6 => decodeIf (f.b == zOpd && f.d == zOpd && f.e == zOpd) (.cntclr f.a f.t)
  | 0xB7 => decodeIf (f.b == zOpd) (.errinj f.a f.d f.e f.t)
  | 0xB8 => decodeIf (f.b == zOpd) (.timerd f.a f.d f.e f.t)
  | 0xB9 => decodeIf (f.a == zOpd && f.b == zOpd) (.roundrd f.d f.e f.t)
  | 0xBA => decodeIf (f.b == zOpd) (.fmtmode f.a f.d f.e f.t)
  | _ => .error .illegalOpcode

/-- The two-word instructions, format W, from the operation word and the extension word (01_encoding, R20, R37 to R39).
A reserved sub-operation of AMO or 0xF0 to 0xF5 is an illegal opcode; a reserved operation inside one of the others is an
illegal operand (01_encoding, R41). -/
def decodeTwo (f : OpWord) (x : W32) : Except DecodeError Instr :=
  match f.op.toNat with
  | 0xC0 => decodeIf (f.b == zOpd && x.extractLsb' 20 10 == 0#10) (.ld f.a f.d f.e f.t (x.extractLsb' 30 2) (x.extractLsb' 0 20))
  | 0xC1 => decodeIf (f.d == zOpd && f.e == zOpd && x.extractLsb' 20 10 == 0#10) (.st f.a f.b f.t (x.extractLsb' 30 2) (x.extractLsb' 0 20))
  | 0xC2 => decodeIf (f.d == zOpd && f.e == zOpd && x.extractLsb' 21 11 == 0#11) (.stn f.a f.b f.t (x.extractLsb' 20 1) (x.extractLsb' 0 20))
  | 0xC3 => decodeIf (f.b == zOpd && x.extractLsb' 20 12 == 0#12) (.vld f.a f.d f.e f.t (x.extractLsb' 0 20))
  | 0xC4 => decodeIf (f.d == zOpd && f.e == zOpd && x.extractLsb' 20 11 == 0#11) (.vst f.a f.b f.t (x.extractLsb' 31 1) (x.extractLsb' 0 20))
  | 0xC5 => decodeIf (x.extractLsb' 20 9 == 0#9) (.vldx f.a f.b f.d f.e f.t (x.extractLsb' 30 2) (x.extractLsb' 29 1) (x.extractLsb' 0 20))
  | 0xC6 => decodeIf (f.d == zOpd && f.e == zOpd && x.extractLsb' 28 1 == 0#1 && x.extractLsb' 20 4 == 0#4) (.vstx f.a f.b f.t (x.extractLsb' 30 2) (x.extractLsb' 29 1) (x.extractLsb' 24 4) (x.extractLsb' 0 20))
  | 0xC7 => decodeIf (f.b == zOpd && f.d == 21#5 && f.e == zOpd && x.extractLsb' 23 1 == 1#1 && x.extractLsb' 20 3 == 0#3) (.rld f.a f.t (x.extractLsb' 30 2) (x.extractLsb' 24 6) (x.extractLsb' 0 20))
  | 0xC8 => decodeIf (f.d == 21#5 && f.e == zOpd && x.extractLsb' 20 3 == 0#3) (.rst f.a f.b f.t (x.extractLsb' 30 2) (x.extractLsb' 24 6) (x.extractLsb' 23 1) (x.extractLsb' 0 20))
  | 0xC9 => decodeIf (f.b == zOpd && f.d == 21#5 && f.e == zOpd && x.extractLsb' 30 2 == 0#2 && x.extractLsb' 23 1 == 1#1 && x.extractLsb' 20 3 == 0#3) (.rvld f.a f.t (x.extractLsb' 24 6) (x.extractLsb' 0 20))
  | 0xCA => decodeIf (f.d == 21#5 && f.e == zOpd && x.extractLsb' 30 2 == 0#2 && x.extractLsb' 20 3 == 0#3) (.rvst f.a f.b f.t (x.extractLsb' 24 6) (x.extractLsb' 23 1) (x.extractLsb' 0 20))
  | 0xCB => match (x.extractLsb' 28 4).toNat with
    | 0 => decodeIf (f.d == 21#5 && f.e == zOpd && x.extractLsb' 15 4 == 0#4) (.amoAdd f.a f.b f.t (x.extractLsb' 26 2) (x.extractLsb' 20 6) (x.extractLsb' 19 1) (x.extractLsb' 0 15))
    | 1 => decodeIf (f.d == 21#5 && f.e == zOpd && x.extractLsb' 15 4 == 0#4) (.amoMin f.a f.b f.t (x.extractLsb' 26 2) (x.extractLsb' 20 6) (x.extractLsb' 19 1) (x.extractLsb' 0 15))
    | 2 => decodeIf (f.d == 21#5 && f.e == zOpd && x.extractLsb' 15 4 == 0#4) (.amoMax f.a f.b f.t (x.extractLsb' 26 2) (x.extractLsb' 20 6) (x.extractLsb' 19 1) (x.extractLsb' 0 15))
    | 3 => decodeIf (f.d == 21#5 && f.e == zOpd && x.extractLsb' 15 4 == 0#4) (.amoMinu f.a f.b f.t (x.extractLsb' 26 2) (x.extractLsb' 20 6) (x.extractLsb' 19 1) (x.extractLsb' 0 15))
    | 4 => decodeIf (f.d == 21#5 && f.e == zOpd && x.extractLsb' 15 4 == 0#4) (.amoMaxu f.a f.b f.t (x.extractLsb' 26 2) (x.extractLsb' 20 6) (x.extractLsb' 19 1) (x.extractLsb' 0 15))
    | 5 => decodeIf (f.d == 21#5 && f.e == zOpd && x.extractLsb' 15 4 == 0#4) (.amoAnd f.a f.b f.t (x.extractLsb' 26 2) (x.extractLsb' 20 6) (x.extractLsb' 19 1) (x.extractLsb' 0 15))
    | 6 => decodeIf (f.d == 21#5 && f.e == zOpd && x.extractLsb' 15 4 == 0#4) (.amoOr f.a f.b f.t (x.extractLsb' 26 2) (x.extractLsb' 20 6) (x.extractLsb' 19 1) (x.extractLsb' 0 15))
    | 7 => decodeIf (f.d == 21#5 && f.e == zOpd && x.extractLsb' 15 4 == 0#4) (.amoXor f.a f.b f.t (x.extractLsb' 26 2) (x.extractLsb' 20 6) (x.extractLsb' 19 1) (x.extractLsb' 0 15))
    | 8 => decodeIf (f.d == 21#5 && f.e == zOpd && x.extractLsb' 15 4 == 0#4) (.amoSwap f.a f.b f.t (x.extractLsb' 26 2) (x.extractLsb' 20 6) (x.extractLsb' 19 1) (x.extractLsb' 0 15))
    | 9 => decodeIf (f.d == 21#5 && f.e == zOpd) (.amoCas f.a f.b f.t (x.extractLsb' 26 2) (x.extractLsb' 20 6) (x.extractLsb' 19 1) (x.extractLsb' 15 4) (x.extractLsb' 0 15))
    | 10 => decodeIf (f.d == 21#5 && f.e == zOpd && x.extractLsb' 15 4 == 0#4) (.amoFaddF32 f.a f.b f.t (x.extractLsb' 26 2) (x.extractLsb' 20 6) (x.extractLsb' 19 1) (x.extractLsb' 0 15))
    | 11 => decodeIf (f.d == 21#5 && f.e == zOpd && x.extractLsb' 15 4 == 0#4) (.amoFaddBf16 f.a f.b f.t (x.extractLsb' 26 2) (x.extractLsb' 20 6) (x.extractLsb' 19 1) (x.extractLsb' 0 15))
    | _ => .error .illegalOpcode
  | 0xCC => decodeIf (f.b == zOpd && f.e == zOpd && x.extractLsb' 0 26 == 0#26) (.stream f.a f.d f.t (x.extractLsb' 31 1) (x.extractLsb' 28 3) (x.extractLsb' 26 2))
  | 0xCD => match (x.extractLsb' 29 3).toNat with
    | 0 => decodeIf (f.a == zOpd && f.b == zOpd && f.e == zOpd && x.extractLsb' 0 29 == 0#29) (.strctlUnbind f.d f.t)
    | 1 => decodeIf (f.a == zOpd && f.b == zOpd && f.e == zOpd && x.extractLsb' 0 29 == 0#29) (.strctlPause f.d f.t)
    | 2 => decodeIf (f.a == zOpd && f.b == zOpd && f.e == zOpd && x.extractLsb' 0 29 == 0#29) (.strctlResume f.d f.t)
    | 3 => decodeIf (f.a == zOpd && f.b == zOpd && f.e == zOpd && x.extractLsb' 6 23 == 0#23) (.strctlDrain f.d f.t (x.extractLsb' 0 6))
    | _ => .error .illegalOperand
  | 0xCE => decodeIf (f.d == 21#5 && f.e == zOpd && f.t == 0#4 && x.extractLsb' 0 21 == 0#21) (.cpy f.a f.b (x.extractLsb' 26 6) (x.extractLsb' 25 1) (x.extractLsb' 21 4))
  | 0xCF => decodeIf (f.b == zOpd && f.d == 21#5 && f.e == zOpd && f.t == 0#4 && x.extractLsb' 0 25 == 0#25) (.cpy2 f.a (x.extractLsb' 26 6) (x.extractLsb' 25 1))
  | 0xD0 => decodeIf (f.b == zOpd && f.d == 21#5 && f.e == zOpd && f.t == 0#4 && x.extractLsb' 3 22 == 0#22) (.publish f.a (x.extractLsb' 26 6) (x.extractLsb' 25 1) (x.extractLsb' 0 3))
  | 0xD1 => decodeIf (f.d == 21#5 && f.e == zOpd && f.t == 0#4 && x.extractLsb' 0 25 == 0#25) (.pfetch f.a f.b (x.extractLsb' 26 6) (x.extractLsb' 25 1))
  | 0xE0 => decodeIf (f.d == zOpd && f.e == zOpd) (.mma f.a f.b f.t (x.extractLsb' 30 2) (x.extractLsb' 27 3) (x.extractLsb' 24 3) (x.extractLsb' 14 10) (x.extractLsb' 10 4) (x.extractLsb' 6 4) (x.extractLsb' 5 1) (x.extractLsb' 4 1) (x.extractLsb' 0 4))
  | 0xE1 => decodeIf (f.d == zOpd && f.e == zOpd) (.mmaz f.a f.b f.t (x.extractLsb' 30 2) (x.extractLsb' 27 3) (x.extractLsb' 24 3) (x.extractLsb' 14 10) (x.extractLsb' 10 4) (x.extractLsb' 6 4) (x.extractLsb' 5 1) (x.extractLsb' 4 1) (x.extractLsb' 0 4))
  | 0xE2 => decodeIf (f.d == zOpd && f.e == zOpd) (.mmat f.a f.b f.t (x.extractLsb' 30 2) (x.extractLsb' 27 3) (x.extractLsb' 24 3) (x.extractLsb' 14 10) (x.extractLsb' 10 4) (x.extractLsb' 6 4) (x.extractLsb' 5 1) (x.extractLsb' 4 1) (x.extractLsb' 0 4))
  | 0xE3 => decodeIf (f.d == zOpd && f.e == zOpd) (.mmai8 f.a f.b f.t (x.extractLsb' 30 2) (x.extractLsb' 27 3) (x.extractLsb' 24 3) (x.extractLsb' 14 10) (x.extractLsb' 10 4) (x.extractLsb' 6 4) (x.extractLsb' 5 1) (x.extractLsb' 4 1) (x.extractLsb' 0 4))
  | 0xEA => decodeIf (f.d == zOpd && f.e == zOpd) (.mmamx f.a f.b f.t (x.extractLsb' 30 2) (x.extractLsb' 27 3) (x.extractLsb' 24 3) (x.extractLsb' 14 10) (x.extractLsb' 10 4) (x.extractLsb' 6 4) (x.extractLsb' 5 1) (x.extractLsb' 4 1) (x.extractLsb' 0 4))
  | 0xE4 => decodeIf (f.a == zOpd && f.b == zOpd && f.d == zOpd && f.e == zOpd && x.extractLsb' 0 11 == 0#11) (.accrd f.t (x.extractLsb' 30 2) (x.extractLsb' 24 6) (x.extractLsb' 20 4) (x.extractLsb' 16 4) (x.extractLsb' 12 4) (x.extractLsb' 11 1))
  | 0xE5 => decodeIf (f.b == zOpd && f.d == zOpd && f.e == zOpd && x.extractLsb' 0 20 == 0#20) (.accwr f.a f.t (x.extractLsb' 30 2) (x.extractLsb' 28 2) (x.extractLsb' 24 4) (x.extractLsb' 20 4))
  | 0xE6 => decodeIf (f.a == zOpd && f.b == zOpd && f.d == zOpd && f.e == zOpd && x.extractLsb' 0 28 == 0#28) (.accz f.t (x.extractLsb' 30 2) (x.extractLsb' 28 2))
  | 0xE7 => decodeIf (f.b == zOpd && f.d == zOpd && f.e == zOpd && x.extractLsb' 0 28 == 0#28) (.epicfg f.a f.t (x.extractLsb' 28 4))
  | 0xE8 => decodeIf (f.a == zOpd && f.b == zOpd && f.d == zOpd && f.e == zOpd && x.extractLsb' 0 30 == 0#30) (.abftcfg f.t (x.extractLsb' 31 1) (x.extractLsb' 30 1))
  | 0xE9 => decodeIf (f.a == zOpd && f.b == zOpd && x.extractLsb' 0 27 == 0#27) (.bqstat f.d f.e f.t (x.extractLsb' 28 4) (x.extractLsb' 27 1))
  | 0xF0 => match (x.extractLsb' 27 5).toNat with
    | 0 => decodeIf (f.a == zOpd && f.b == zOpd && f.d == zOpd && f.e == zOpd && f.t == 0#4 && x.extractLsb' 0 16 == 0#16) (.bar (x.extractLsb' 23 4) (x.extractLsb' 17 6) (x.extractLsb' 16 1))
    | 1 => decodeIf (f.b == zOpd && f.d == zOpd && f.e == zOpd && f.t == 0#4 && x.extractLsb' 0 11 == 0#11) (.bart f.a (x.extractLsb' 23 4) (x.extractLsb' 17 6) (x.extractLsb' 11 6))
    | 2 => decodeIf (f.b == zOpd && f.d == 21#5 && f.e == zOpd && f.t == 0#4 && x.extractLsb' 0 10 == 0#10) (.red f.a (x.extractLsb' 22 5) (x.extractLsb' 18 4) (x.extractLsb' 17 1) (x.extractLsb' 16 1) (x.extractLsb' 10 6))
    | 3 => decodeIf (f.b == zOpd && f.d == 21#5 && f.e == zOpd && f.t == 0#4 && x.extractLsb' 0 17 == 0#17) (.pairx f.a (x.extractLsb' 23 4) (x.extractLsb' 17 6))
    | 4 => decodeIf (f.b == zOpd && f.d == zOpd && f.e == zOpd && f.t == 0#4 && x.extractLsb' 0 27 == 0#27) (.sluice f.a)
    | 5 => decodeIf (f.b == zOpd && f.d == zOpd && f.e == zOpd && f.t == 0#4 && x.extractLsb' 0 27 == 0#27) (.hfwd f.a)
    | _ => .error .illegalOpcode
  | 0xF1 => match (x.extractLsb' 27 5).toNat with
    | 0 => decodeIf (f.b == zOpd && x.extractLsb' 0 27 == 0#27) (.bandrd f.a f.d f.e f.t)
    | 1 => decodeIf (f.b == zOpd && x.extractLsb' 0 27 == 0#27) (.toffrd f.a f.d f.e f.t)
    | 2 => decodeIf (f.b == zOpd && x.extractLsb' 0 27 == 0#27) (.vfreq f.a f.d f.e f.t)
    | 3 => decodeIf (f.b == zOpd && x.extractLsb' 0 27 == 0#27) (.weir f.a f.d f.e f.t)
    | 4 => decodeIf (f.d == 21#5 && f.e == zOpd && x.extractLsb' 0 16 == 0#16) (.rsvld f.a f.b f.t (x.extractLsb' 21 6) (x.extractLsb' 20 1) (x.extractLsb' 16 4))
    | 5 => match (x.extractLsb' 25 2).toNat with
      | 0 => decodeIf (f.b == zOpd && f.d == 21#5 && f.e == zOpd && x.extractLsb' 0 18 == 0#18) (.rsvcfgPart f.a f.t (x.extractLsb' 19 6) (x.extractLsb' 18 1))
      | 1 => decodeIf (f.b == zOpd && f.d == 21#5 && f.e == zOpd && x.extractLsb' 0 18 == 0#18) (.rsvcfgDrop f.a f.t (x.extractLsb' 19 6) (x.extractLsb' 18 1))
      | _ => .error .illegalOperand
    | _ => .error .illegalOpcode
  | 0xF2 => match (x.extractLsb' 27 5).toNat with
    | 0 => decodeIf (f.d == 21#5 && f.e == zOpd && f.t == 0#4 && x.extractLsb' 0 5 == 0#5) (.cgsend f.a f.b (x.extractLsb' 19 8) (x.extractLsb' 13 6) (x.extractLsb' 12 1) (x.extractLsb' 10 2) (x.extractLsb' 9 1) (x.extractLsb' 6 3) (x.extractLsb' 5 1))
    | 1 => decodeIf (f.a == zOpd && f.b == zOpd && f.d == zOpd && f.e == zOpd && f.t == 0#4 && x.extractLsb' 0 18 == 0#18) (.cgrant (x.extractLsb' 19 8) (x.extractLsb' 18 1))
    | 2 => decodeIf (f.a == zOpd && f.b == zOpd && f.d == 21#5 && f.e == zOpd && f.t == 0#4 && x.extractLsb' 0 12 == 0#12) (.cgwake (x.extractLsb' 19 8) (x.extractLsb' 13 6) (x.extractLsb' 12 1))
    | 3 => decodeIf (f.a == zOpd && f.b == zOpd && f.d == zOpd && f.e == zOpd && f.t == 0#4 && x.extractLsb' 0 24 == 0#24) (.cgrel (x.extractLsb' 26 1) (x.extractLsb' 24 2))
    | 4 => match (x.extractLsb' 25 2).toNat with
      | 0 => decodeIf (f.b == zOpd && f.d == zOpd && f.e == zOpd && f.t == 0#4 && x.extractLsb' 0 17 == 0#17) (.cgcfgFilter f.a (x.extractLsb' 17 8))
      | 1 => decodeIf (f.b == zOpd && f.d == zOpd && f.e == zOpd && f.t == 0#4 && x.extractLsb' 0 17 == 0#17) (.cgcfgPort f.a (x.extractLsb' 17 8))
      | 2 => decodeIf (f.b == zOpd && f.d == zOpd && f.e == zOpd && f.t == 0#4 && x.extractLsb' 0 17 == 0#17) (.cgcfgDepth f.a (x.extractLsb' 17 8))
      | _ => .error .illegalOperand
    | 5 => decodeIf (f.b == zOpd && x.extractLsb' 0 24 == 0#24) (.cgstat f.a f.d f.e f.t (x.extractLsb' 24 3))
    | _ => .error .illegalOpcode
  | 0xF3 => match (x.extractLsb' 27 5).toNat with
    | 0 => decodeIf (f.a == zOpd && f.b == zOpd && f.d == zOpd && f.e == zOpd && f.t == 0#4 && x.extractLsb' 0 22 == 0#22) (.eos (x.extractLsb' 23 4) (x.extractLsb' 22 1))
    | 1 => decodeIf (f.b == zOpd && f.d == 21#5 && f.e == zOpd && f.t == 0#4 && x.extractLsb' 0 19 == 0#19) (.cfgswap f.a (x.extractLsb' 26 1) (x.extractLsb' 20 6) (x.extractLsb' 19 1))
    | 2 => decodeIf (f.a == zOpd && f.b == zOpd && f.d == zOpd && f.e == zOpd && f.t == 0#4 && x.extractLsb' 0 20 == 0#20) (.gbar (x.extractLsb' 21 6) (x.extractLsb' 20 1))
    | 3 => decodeIf (f.a == zOpd && f.b == zOpd && f.d == 21#5 && f.e == zOpd && f.t == 0#4 && x.extractLsb' 0 12 == 0#12) (.statred (x.extractLsb' 25 2) (x.extractLsb' 19 6) (x.extractLsb' 18 1) (x.extractLsb' 12 6))
    | 4 => decodeIf (f.b == zOpd && x.extractLsb' 0 24 == 0#24) (.qstat f.a f.d f.e f.t (x.extractLsb' 24 3))
    | _ => .error .illegalOpcode
  | 0xF4 => match (x.extractLsb' 27 5).toNat with
    | 0 => decodeIf (f.b == zOpd && f.d == 21#5 && f.e == zOpd && f.t == 0#4 && x.extractLsb' 0 20 == 0#20) (.xstr f.a (x.extractLsb' 21 6) (x.extractLsb' 20 1))
    | 1 => decodeIf (f.d == 21#5 && f.e == zOpd && f.t == 0#4 && x.extractLsb' 0 20 == 0#20) (.migrate f.a f.b (x.extractLsb' 21 6) (x.extractLsb' 20 1))
    | 2 => match (x.extractLsb' 25 2).toNat with
      | 0 => decodeIf (f.d == 21#5 && f.e == zOpd && f.t == 0#4 && x.extractLsb' 0 18 == 0#18) (.tlbinvPage f.a f.b (x.extractLsb' 19 6) (x.extractLsb' 18 1))
      | 1 => decodeIf (f.a == zOpd && f.d == 21#5 && f.e == zOpd && f.t == 0#4 && x.extractLsb' 0 18 == 0#18) (.tlbinvQueue f.b (x.extractLsb' 19 6) (x.extractLsb' 18 1))
      | 2 => decodeIf (f.a == zOpd && f.b == zOpd && f.d == 21#5 && f.e == zOpd && f.t == 0#4 && x.extractLsb' 0 18 == 0#18) (.tlbinvAll (x.extractLsb' 19 6) (x.extractLsb' 18 1))
      | _ => .error .illegalOperand
    | 3 => match (x.extractLsb' 25 2).toNat with
      | 0 => decodeIf (f.d == 21#5 && f.e == zOpd && f.t == 0#4 && x.extractLsb' 0 18 == 0#18) (.compattrQuery f.a f.b (x.extractLsb' 19 6) (x.extractLsb' 18 1))
      | 1 => decodeIf (f.d == 21#5 && f.e == zOpd && f.t == 0#4 && x.extractLsb' 0 18 == 0#18) (.compattrSet f.a f.b (x.extractLsb' 19 6) (x.extractLsb' 18 1))
      | 2 => decodeIf (f.d == 21#5 && f.e == zOpd && f.t == 0#4 && x.extractLsb' 0 18 == 0#18) (.compattrRecomp f.a f.b (x.extractLsb' 19 6) (x.extractLsb' 18 1))
      | _ => .error .illegalOperand
    | _ => .error .illegalOpcode
  | 0xF5 => match (x.extractLsb' 27 5).toNat with
    | 0 => decodeIf (f.b == zOpd && f.d == 21#5 && f.e == zOpd && f.t == 0#4 && x.extractLsb' 0 14 == 0#14) (.coll f.a (x.extractLsb' 21 6) (x.extractLsb' 15 6) (x.extractLsb' 14 1))
    | 1 => decodeIf (f.a == zOpd && f.b == zOpd && f.d == 21#5 && f.e == zOpd && f.t == 0#4 && x.extractLsb' 0 20 == 0#20) (.routesw (x.extractLsb' 21 6) (x.extractLsb' 20 1))
    | 2 => match (x.extractLsb' 25 2).toNat with
      | 0 => decodeIf (f.d == 21#5 && f.e == zOpd && f.t == 0#4 && x.extractLsb' 0 18 == 0#18) (.fportQuiesce f.a f.b (x.extractLsb' 19 6) (x.extractLsb' 18 1))
      | 1 => decodeIf (f.d == 21#5 && f.e == zOpd && f.t == 0#4 && x.extractLsb' 0 18 == 0#18) (.fportTrain f.a f.b (x.extractLsb' 19 6) (x.extractLsb' 18 1))
      | 2 => decodeIf (f.d == 21#5 && f.e == zOpd && f.t == 0#4 && x.extractLsb' 0 18 == 0#18) (.fportCycle f.a f.b (x.extractLsb' 19 6) (x.extractLsb' 18 1))
      | _ => .error .illegalOperand
    | 3 => decodeIf (f.b == zOpd && x.extractLsb' 0 24 == 0#24) (.fstat f.a f.d f.e f.t (x.extractLsb' 24 3))
    | _ => .error .illegalOpcode
  | _ => .error .illegalOpcode

/-- The first instruction of a list of words, with the words after it (01_encoding, R16, R20, R41). -/
def decode : List W32 → Except DecodeError (Instr × List W32)
  | [] => .error .illegalOpcode
  | w :: ws =>
    let f := OpWord.ofWord w
    if f.op.toNat < 0xC0 then (decodeOne f).map fun i => (i, ws)
    else match ws with
      | [] => .error .illegalOpcode
      | x :: rest => (decodeTwo f x).map fun i => (i, rest)

/-- Words of an instruction: 2 for format W, 1 for formats P and I, 0 for an event (01_encoding, R20). -/
def Instr.words : Instr → Nat
  | .nop _ => 1
  | .mov _ _ _ _ => 1
  | .movi _ _ => 1
  | .movsh _ _ _ => 1
  | .add _ _ _ _ _ => 1
  | .addi _ _ _ => 1
  | .sub _ _ _ _ _ => 1
  | .mul _ _ _ _ _ => 1
  | .mulh _ _ _ _ _ => 1
  | .mulhu _ _ _ _ _ => 1
  | .div _ _ _ _ _ => 1
  | .divu _ _ _ _ _ => 1
  | .rem _ _ _ _ _ => 1
  | .remu _ _ _ _ _ => 1
  | .and _ _ _ _ _ => 1
  | .andi _ _ _ => 1
  | .or _ _ _ _ _ => 1
  | .ori _ _ _ => 1
  | .xor _ _ _ _ _ => 1
  | .xori _ _ _ => 1
  | .shl _ _ _ _ _ => 1
  | .shli _ _ _ => 1
  | .shr _ _ _ _ _ => 1
  | .shri _ _ _ => 1
  | .sar _ _ _ _ _ => 1
  | .sari _ _ _ => 1
  | .rol _ _ _ _ _ => 1
  | .clz _ _ _ _ => 1
  | .ctz _ _ _ _ => 1
  | .popc _ _ _ _ => 1
  | .min _ _ _ _ _ => 1
  | .max _ _ _ _ _ => 1
  | .minu _ _ _ _ _ => 1
  | .maxu _ _ _ _ _ => 1
  | .addsat _ _ _ _ _ => 1
  | .subsat _ _ _ _ _ => 1
  | .seq _ _ _ _ _ => 1
  | .sne _ _ _ _ _ => 1
  | .slt _ _ _ _ _ => 1
  | .sltu _ _ _ _ _ => 1
  | .sle _ _ _ _ _ => 1
  | .sleu _ _ _ _ _ => 1
  | .sel _ _ _ _ _ => 1
  | .sext _ _ _ => 1
  | .zext _ _ _ => 1
  | .bfx _ _ _ => 1
  | .bfi _ _ _ _ _ => 1
  | .xyadr _ _ _ _ _ => 1
  | .reladr _ _ _ _ _ => 1
  | .myxy _ _ _ => 1
  | .adrx _ _ _ => 1
  | .adrchk _ _ _ _ _ => 1
  | .vmov _ _ _ _ => 1
  | .vbcast _ _ _ _ => 1
  | .vperm _ _ _ _ _ => 1
  | .vextr _ _ _ => 1
  | .vins _ _ _ => 1
  | .vaddF32 _ _ _ _ _ => 1
  | .vsubF32 _ _ _ _ _ => 1
  | .vmulF32 _ _ _ _ _ => 1
  | .vfmaF32 _ _ _ _ _ => 1
  | .vminF32 _ _ _ _ _ => 1
  | .vmaxF32 _ _ _ _ _ => 1
  | .vaddF64 _ _ _ _ _ => 1
  | .vsubF64 _ _ _ _ _ => 1
  | .vmulF64 _ _ _ _ _ => 1
  | .vfmaF64 _ _ _ _ _ => 1
  | .vaddBf16 _ _ _ _ _ => 1
  | .vmulBf16 _ _ _ _ _ => 1
  | .vdot2Bf16 _ _ _ _ _ => 1
  | .vabsF32 _ _ _ _ => 1
  | .vnegF32 _ _ _ _ => 1
  | .vrcpF32 _ _ _ _ => 1
  | .vrsqF32 _ _ _ _ => 1
  | .vsqrtF32 _ _ _ _ => 1
  | .vexp2F32 _ _ _ _ => 1
  | .vlog2F32 _ _ _ _ => 1
  | .vtanhF32 _ _ _ _ => 1
  | .vceqF32 _ _ _ _ _ => 1
  | .vcltF32 _ _ _ _ _ => 1
  | .vcleF32 _ _ _ _ _ => 1
  | .vsel _ _ _ _ _ => 1
  | .viadd _ _ _ _ _ => 1
  | .visub _ _ _ _ _ => 1
  | .vimul _ _ _ _ _ => 1
  | .vand _ _ _ _ _ => 1
  | .vor _ _ _ _ _ => 1
  | .vxor _ _ _ _ _ => 1
  | .vshl _ _ _ _ _ => 1
  | .vshr _ _ _ _ _ => 1
  | .vsar _ _ _ _ _ => 1
  | .vimin _ _ _ _ _ => 1
  | .vimax _ _ _ _ _ => 1
  | .viceq _ _ _ _ _ => 1
  | .viclt _ _ _ _ _ => 1
  | .viaddsatI8 _ _ _ _ _ => 1
  | .vrsumF32 _ _ _ _ => 1
  | .vrmaxF32 _ _ _ _ => 1
  | .vrsumI32 _ _ _ _ => 1
  | .vmset _ => 1
  | .vmget _ _ _ => 1
  | .vshiftl _ _ _ => 1
  | .vscanF32 _ _ _ _ => 1
  | .cvt _ _ _ => 1
  | .vcvt _ _ _ => 1
  | .vpack _ _ _ => 1
  | .vunpk _ _ _ => 1
  | .vscale _ _ _ _ _ => 1
  | .vscalex _ _ _ _ _ => 1
  | .bsinit _ _ _ _ _ => 1
  | .bspeek _ _ _ => 1
  | .bsget _ _ _ => 1
  | .bsskip _ _ => 1
  | .bshuf _ _ _ _ => 1
  | .bsput _ _ _ _ => 1
  | .bsflush _ _ => 1
  | .bsstat _ _ _ => 1
  | .fclass _ _ _ _ _ => 1
  | .abort _ => 1
  | .abortz _ _ => 1
  | .abortnz _ _ => 1
  | .ruleon _ => 1
  | .ruleoff _ => 1
  | .rulemask _ _ _ _ _ => 1
  | .raborts _ _ _ _ _ => 1
  | .ctxend _ => 1
  | .ctxyield _ => 1
  | .tset _ => 1
  | .tclr _ => 1
  | .tffr _ _ _ _ => 1
  | .tany _ _ _ _ => 1
  | .tall _ _ _ _ => 1
  | .tmask _ _ _ _ _ => 1
  | .fence _ => 1
  | .trap _ => 1
  | .tret _ _ _ => 1
  | .csrr _ _ => 1
  | .csrw _ _ _ => 1
  | .mcrd _ _ _ _ => 1
  | .cntrd _ _ _ _ => 1
  | .cntclr _ _ => 1
  | .errinj _ _ _ _ => 1
  | .timerd _ _ _ _ => 1
  | .roundrd _ _ _ => 1
  | .fmtmode _ _ _ _ => 1
  | .ld _ _ _ _ _ _ => 2
  | .st _ _ _ _ _ => 2
  | .stn _ _ _ _ _ => 2
  | .vld _ _ _ _ _ => 2
  | .vst _ _ _ _ _ => 2
  | .vldx _ _ _ _ _ _ _ _ => 2
  | .vstx _ _ _ _ _ _ _ => 2
  | .rld _ _ _ _ _ => 2
  | .rst _ _ _ _ _ _ _ => 2
  | .rvld _ _ _ _ => 2
  | .rvst _ _ _ _ _ _ => 2
  | .amoAdd _ _ _ _ _ _ _ => 2
  | .amoMin _ _ _ _ _ _ _ => 2
  | .amoMax _ _ _ _ _ _ _ => 2
  | .amoMinu _ _ _ _ _ _ _ => 2
  | .amoMaxu _ _ _ _ _ _ _ => 2
  | .amoAnd _ _ _ _ _ _ _ => 2
  | .amoOr _ _ _ _ _ _ _ => 2
  | .amoXor _ _ _ _ _ _ _ => 2
  | .amoSwap _ _ _ _ _ _ _ => 2
  | .amoCas _ _ _ _ _ _ _ _ => 2
  | .amoFaddF32 _ _ _ _ _ _ _ => 2
  | .amoFaddBf16 _ _ _ _ _ _ _ => 2
  | .stream _ _ _ _ _ _ => 2
  | .strctlUnbind _ _ => 2
  | .strctlPause _ _ => 2
  | .strctlResume _ _ => 2
  | .strctlDrain _ _ _ => 2
  | .cpy _ _ _ _ _ => 2
  | .cpy2 _ _ _ => 2
  | .publish _ _ _ _ => 2
  | .pfetch _ _ _ _ => 2
  | .mma _ _ _ _ _ _ _ _ _ _ _ _ => 2
  | .mmaz _ _ _ _ _ _ _ _ _ _ _ _ => 2
  | .mmat _ _ _ _ _ _ _ _ _ _ _ _ => 2
  | .mmai8 _ _ _ _ _ _ _ _ _ _ _ _ => 2
  | .mmamx _ _ _ _ _ _ _ _ _ _ _ _ => 2
  | .accrd _ _ _ _ _ _ _ => 2
  | .accwr _ _ _ _ _ _ => 2
  | .accz _ _ _ => 2
  | .epicfg _ _ _ => 2
  | .abftcfg _ _ _ => 2
  | .bqstat _ _ _ _ _ => 2
  | .bar _ _ _ => 2
  | .bart _ _ _ _ => 2
  | .red _ _ _ _ _ _ => 2
  | .pairx _ _ _ => 2
  | .sluice _ => 2
  | .hfwd _ => 2
  | .bandrd _ _ _ _ => 2
  | .toffrd _ _ _ _ => 2
  | .vfreq _ _ _ _ => 2
  | .weir _ _ _ _ => 2
  | .rsvld _ _ _ _ _ _ => 2
  | .rsvcfgPart _ _ _ _ => 2
  | .rsvcfgDrop _ _ _ _ => 2
  | .cgsend _ _ _ _ _ _ _ _ _ => 2
  | .cgrant _ _ => 2
  | .cgwake _ _ _ => 2
  | .cgrel _ _ => 2
  | .cgcfgFilter _ _ => 2
  | .cgcfgPort _ _ => 2
  | .cgcfgDepth _ _ => 2
  | .cgstat _ _ _ _ _ => 2
  | .eos _ _ => 2
  | .cfgswap _ _ _ _ => 2
  | .gbar _ _ => 2
  | .statred _ _ _ _ => 2
  | .qstat _ _ _ _ _ => 2
  | .xstr _ _ _ => 2
  | .migrate _ _ _ _ => 2
  | .tlbinvPage _ _ _ _ => 2
  | .tlbinvQueue _ _ _ => 2
  | .tlbinvAll _ _ => 2
  | .compattrQuery _ _ _ _ => 2
  | .compattrSet _ _ _ _ => 2
  | .compattrRecomp _ _ _ _ => 2
  | .coll _ _ _ _ => 2
  | .routesw _ _ => 2
  | .fportQuiesce _ _ _ _ => 2
  | .fportTrain _ _ _ _ => 2
  | .fportCycle _ _ _ _ => 2
  | .fstat _ _ _ _ _ => 2
  | .round => 0
  | .tretMessageArrival => 0
  | .tokenArrival => 0
  | .tokenSpill => 0
  | .creditReturn => 0
  | .replyArrival => 0
  | .remoteAccessServe => 0
  | .amoPerform => 0
  | .publishFlip => 0
  | .failedRequest => 0
  | .streamFetch => 0
  | .streamWrite => 0
  | .streamDrainTag => 0
  | .copyUnit => 0
  | .copyComplete => 0
  | .bucketLeak => 0
  | .basinGrant => 0
  | .basinCommandComplete => 0
  | .accrdRowDelivery => 0
  | .epilogueRowDelivery => 0
  | .slotPinClear => 0
  | .flitHop => 0
  | .deliveryAck => 0
  | .routeClassSwitch => 0
  | .coreMapRebind => 0
  | .confluenceCombine => 0
  | .barrierArrivalLeave => 0
  | .barrierArrival => 0
  | .barrierCompletionArrival => 0
  | .bartTimeout => 0
  | .pairHalfArrival => 0
  | .pairDeadline => 0
  | .pairTimeoutMessage => 0
  | .pairAbortMessage => 0
  | .trapRecordDelivery => 0
  | .recordResend => 0
  | .retentionEntry => 0
  | .retentionExitStart => 0
  | .retentionExitEnd => 0
  | .vfRequestApply => 0
  | .vfClockResume => 0
  | .weirHalve => 0
  | .weirDouble => 0
  | .timeRecalibration => 0
  | .reservoirAccess => 0
  | .cacheReplacement => 0
  | .rsvldLine => 0
  | .rsvldComplete => 0
  | .rsvcfgPartApply => 0
  | .rsvcfgDropComplete => 0
  | .pfetchComplete => 0
  | .cascadeBlockLaunch => 0
  | .branchReceive => 0
  | .retransmitRequest => 0
  | .branchForward => 0
  | .memberSlotFill => 0
  | .memberReemit => 0
  | .blockAck => 0
  | .voteArrival => 0
  | .laserLit => 0
  | .laserDark => 0
  | .groupEntryWriteApply => 0
  | .queueKick => 0
  | .queueEnable => 0
  | .queueOff => 0
  | .packetFetch => 0
  | .packetRefetch => 0
  | .packetDispatch => 0
  | .ageRise => 0
  | .packetCompletion => 0
  | .launch => 0
  | .launchSwapAtQuiescence => 0
  | .launchSwapAtCfgswap => 0
  | .shadowLoadEnd => 0
  | .copy => 0
  | .wait => 0
  | .waitPoll => 0
  | .signal => 0
  | .groupload => 0
  | .reservoirLoad => 0
  | .fabricReconf => 0
  | .portCmdQuiesce => 0
  | .portCmdTrain => 0
  | .portCmdCycle => 0
  | .destroy => 0
  | .destroyForce => 0
  | .record => 0
  | .pwrSetCap => 0
  | .pwrSetFloor => 0
  | .placement => 0
  | .preemptDeadline => 0
  | .stillSweep => 0
  | .sweepResult => 0
  | .gangStop => 0
  | .gangStopScanOut => 0
  | .gangResume => 0
  | .gbarCompletion => 0
  | .pkgRetireGo => 0
  | .rollback => 0
  | .comparatorMismatch => 0
  | .comparatorTimeout => 0
  | .translationWalk => 0
  | .pageRequestResponse => 0
  | .pfDeadline => 0
  | .tlbinvComplete => 0
  | .migrationFork => 0
  | .migrationCopyLine => 0
  | .migrationSwitch => 0
  | .migrationRelease => 0
  | .hbmWrite => 0
  | .hbmRead => 0
  | .xstrElement => 0
  | .xstrComplete => 0
  | .eventWrite => 0
  | .pkgEvreplyWrite => 0
  | .watchdogDead => 0
  | .watchdogSlow => 0
  | .powerManagerUpdate => 0
  | .startup => 0
  | .hostLinkDown => 0
  | .hostLinkUp => 0
  | .attestReport => 0
  | .recoveryFirmware => 0
  | .dieVfrWrite => 0
  | .cluRouteSwitchRequest => 0
  | .fabRouteSwitchRequest => 0
  | .registerWrite => 0
  | .fabricFlitTransmit => 0
  | .fabricFlitReceive => 0
  | .replayTimeout => 0
  | .laneLock => 0
  | .trainTimeout => 0
  | .identityArrival => 0
  | .verifyTimeout => 0
  | .lossOfLock => 0
  | .drainDeadline => 0
  | .darkTimeExpiry => 0
  | .transitForward => 0
  | .fdataDelivery => 0
  | .fctlArrival => 0
  | .flowSwitch => 0
  | .collStepStart => 0
  | .collStepComplete => 0
  | .fenceReleaseTraffic => 0
  | .cgwakeArrival => 0
  | .secondTierAccess => 0

/-- The operation word of an instruction; an event has none (01_encoding, R18 to R20). -/
def Instr.opWord : Instr → Option OpWord
  | .nop t => some ⟨0x00#8, zOpd, zOpd, zOpd, zOpd, t⟩
  | .mov a d e t => some ⟨0x01#8, a, zOpd, d, e, t⟩
  | .movi d i => some (OpWord.ofImm 0x02#8 zOpd d i)
  | .movsh a d i => some (OpWord.ofImm 0x03#8 a d i)
  | .add a b d e t => some ⟨0x04#8, a, b, d, e, t⟩
  | .addi a d i => some (OpWord.ofImm 0x05#8 a d i)
  | .sub a b d e t => some ⟨0x06#8, a, b, d, e, t⟩
  | .mul a b d e t => some ⟨0x07#8, a, b, d, e, t⟩
  | .mulh a b d e t => some ⟨0x08#8, a, b, d, e, t⟩
  | .mulhu a b d e t => some ⟨0x09#8, a, b, d, e, t⟩
  | .div a b d e t => some ⟨0x0A#8, a, b, d, e, t⟩
  | .divu a b d e t => some ⟨0x0B#8, a, b, d, e, t⟩
  | .rem a b d e t => some ⟨0x0C#8, a, b, d, e, t⟩
  | .remu a b d e t => some ⟨0x0D#8, a, b, d, e, t⟩
  | .and a b d e t => some ⟨0x0E#8, a, b, d, e, t⟩
  | .andi a d i => some (OpWord.ofImm 0x0F#8 a d i)
  | .or a b d e t => some ⟨0x10#8, a, b, d, e, t⟩
  | .ori a d i => some (OpWord.ofImm 0x11#8 a d i)
  | .xor a b d e t => some ⟨0x12#8, a, b, d, e, t⟩
  | .xori a d i => some (OpWord.ofImm 0x13#8 a d i)
  | .shl a b d e t => some ⟨0x14#8, a, b, d, e, t⟩
  | .shli a d i => some (OpWord.ofImm 0x15#8 a d (i.setWidth 14))
  | .shr a b d e t => some ⟨0x16#8, a, b, d, e, t⟩
  | .shri a d i => some (OpWord.ofImm 0x17#8 a d (i.setWidth 14))
  | .sar a b d e t => some ⟨0x18#8, a, b, d, e, t⟩
  | .sari a d i => some (OpWord.ofImm 0x19#8 a d (i.setWidth 14))
  | .rol a b d e t => some ⟨0x1A#8, a, b, d, e, t⟩
  | .clz a d e t => some ⟨0x1B#8, a, zOpd, d, e, t⟩
  | .ctz a d e t => some ⟨0x1C#8, a, zOpd, d, e, t⟩
  | .popc a d e t => some ⟨0x1D#8, a, zOpd, d, e, t⟩
  | .min a b d e t => some ⟨0x1E#8, a, b, d, e, t⟩
  | .max a b d e t => some ⟨0x1F#8, a, b, d, e, t⟩
  | .minu a b d e t => some ⟨0x20#8, a, b, d, e, t⟩
  | .maxu a b d e t => some ⟨0x21#8, a, b, d, e, t⟩
  | .addsat a b d e t => some ⟨0x22#8, a, b, d, e, t⟩
  | .subsat a b d e t => some ⟨0x23#8, a, b, d, e, t⟩
  | .seq a b d e t => some ⟨0x24#8, a, b, d, e, t⟩
  | .sne a b d e t => some ⟨0x25#8, a, b, d, e, t⟩
  | .slt a b d e t => some ⟨0x26#8, a, b, d, e, t⟩
  | .sltu a b d e t => some ⟨0x27#8, a, b, d, e, t⟩
  | .sle a b d e t => some ⟨0x28#8, a, b, d, e, t⟩
  | .sleu a b d e t => some ⟨0x29#8, a, b, d, e, t⟩
  | .sel a b d e t => some ⟨0x2A#8, a, b, d, e, t⟩
  | .sext a d i => some (OpWord.ofImm 0x2B#8 a d (i.setWidth 14))
  | .zext a d i => some (OpWord.ofImm 0x2C#8 a d (i.setWidth 14))
  | .bfx a d i => some (OpWord.ofImm 0x2D#8 a d i)
  | .bfi a b d e t => some ⟨0x2E#8, a, b, d, e, t⟩
  | .xyadr a b d e t => some ⟨0x30#8, a, b, d, e, t⟩
  | .reladr a b d e t => some ⟨0x31#8, a, b, d, e, t⟩
  | .myxy d e t => some ⟨0x32#8, zOpd, zOpd, d, e, t⟩
  | .adrx a d i => some (OpWord.ofImm 0x33#8 a d (i.setWidth 14))
  | .adrchk a b d e t => some ⟨0x34#8, a, b, d, e, t⟩
  | .vmov a d e t => some ⟨0x40#8, a, zOpd, d, e, t⟩
  | .vbcast a d e t => some ⟨0x41#8, a, zOpd, d, e, t⟩
  | .vperm a b d e t => some ⟨0x42#8, a, b, d, e, t⟩
  | .vextr a d i => some (OpWord.ofImm 0x43#8 a d (i.setWidth 14))
  | .vins a d i => some (OpWord.ofImm 0x44#8 a d (i.setWidth 14))
  | .vaddF32 a b d e t => some ⟨0x45#8, a, b, d, e, t⟩
  | .vsubF32 a b d e t => some ⟨0x46#8, a, b, d, e, t⟩
  | .vmulF32 a b d e t => some ⟨0x47#8, a, b, d, e, t⟩
  | .vfmaF32 a b d e t => some ⟨0x48#8, a, b, d, e, t⟩
  | .vminF32 a b d e t => some ⟨0x49#8, a, b, d, e, t⟩
  | .vmaxF32 a b d e t => some ⟨0x4A#8, a, b, d, e, t⟩
  | .vaddF64 a b d e t => some ⟨0x4B#8, a, b, d, e, t⟩
  | .vsubF64 a b d e t => some ⟨0x4C#8, a, b, d, e, t⟩
  | .vmulF64 a b d e t => some ⟨0x4D#8, a, b, d, e, t⟩
  | .vfmaF64 a b d e t => some ⟨0x4E#8, a, b, d, e, t⟩
  | .vaddBf16 a b d e t => some ⟨0x4F#8, a, b, d, e, t⟩
  | .vmulBf16 a b d e t => some ⟨0x50#8, a, b, d, e, t⟩
  | .vdot2Bf16 a b d e t => some ⟨0x51#8, a, b, d, e, t⟩
  | .vabsF32 a d e t => some ⟨0x52#8, a, zOpd, d, e, t⟩
  | .vnegF32 a d e t => some ⟨0x53#8, a, zOpd, d, e, t⟩
  | .vrcpF32 a d e t => some ⟨0x54#8, a, zOpd, d, e, t⟩
  | .vrsqF32 a d e t => some ⟨0x55#8, a, zOpd, d, e, t⟩
  | .vsqrtF32 a d e t => some ⟨0x56#8, a, zOpd, d, e, t⟩
  | .vexp2F32 a d e t => some ⟨0x57#8, a, zOpd, d, e, t⟩
  | .vlog2F32 a d e t => some ⟨0x58#8, a, zOpd, d, e, t⟩
  | .vtanhF32 a d e t => some ⟨0x59#8, a, zOpd, d, e, t⟩
  | .vceqF32 a b d e t => some ⟨0x5A#8, a, b, d, e, t⟩
  | .vcltF32 a b d e t => some ⟨0x5B#8, a, b, d, e, t⟩
  | .vcleF32 a b d e t => some ⟨0x5C#8, a, b, d, e, t⟩
  | .vsel a b d e t => some ⟨0x5D#8, a, b, d, e, t⟩
  | .viadd a b d e t => some ⟨0x5E#8, a, b, d, e, t⟩
  | .visub a b d e t => some ⟨0x5F#8, a, b, d, e, t⟩
  | .vimul a b d e t => some ⟨0x60#8, a, b, d, e, t⟩
  | .vand a b d e t => some ⟨0x61#8, a, b, d, e, t⟩
  | .vor a b d e t => some ⟨0x62#8, a, b, d, e, t⟩
  | .vxor a b d e t => some ⟨0x63#8, a, b, d, e, t⟩
  | .vshl a b d e t => some ⟨0x64#8, a, b, d, e, t⟩
  | .vshr a b d e t => some ⟨0x65#8, a, b, d, e, t⟩
  | .vsar a b d e t => some ⟨0x66#8, a, b, d, e, t⟩
  | .vimin a b d e t => some ⟨0x67#8, a, b, d, e, t⟩
  | .vimax a b d e t => some ⟨0x68#8, a, b, d, e, t⟩
  | .viceq a b d e t => some ⟨0x69#8, a, b, d, e, t⟩
  | .viclt a b d e t => some ⟨0x6A#8, a, b, d, e, t⟩
  | .viaddsatI8 a b d e t => some ⟨0x6B#8, a, b, d, e, t⟩
  | .vrsumF32 a d e t => some ⟨0x6C#8, a, zOpd, d, e, t⟩
  | .vrmaxF32 a d e t => some ⟨0x6D#8, a, zOpd, d, e, t⟩
  | .vrsumI32 a d e t => some ⟨0x6E#8, a, zOpd, d, e, t⟩
  | .vmset i => some (OpWord.ofImm 0x6F#8 zOpd zOpd (i.setWidth 14))
  | .vmget d e t => some ⟨0x70#8, zOpd, zOpd, d, e, t⟩
  | .vshiftl a d i => some (OpWord.ofImm 0x71#8 a d (i.setWidth 14))
  | .vscanF32 a d e t => some ⟨0x72#8, a, zOpd, d, e, t⟩
  | .cvt a d i => some (OpWord.ofImm 0x80#8 a d ((i ++ 0#5).cast rfl))
  | .vcvt a d i => some (OpWord.ofImm 0x81#8 a d ((i ++ 0#5).cast rfl))
  | .vpack a d i => some (OpWord.ofImm 0x82#8 a d ((i ++ 0#5).cast rfl))
  | .vunpk a d i => some (OpWord.ofImm 0x83#8 a d ((i ++ 0#5).cast rfl))
  | .vscale a b d e t => some ⟨0x84#8, a, b, d, e, t⟩
  | .vscalex a b d e t => some ⟨0x85#8, a, b, d, e, t⟩
  | .bsinit a b d e t => some ⟨0x86#8, a, b, d, e, t⟩
  | .bspeek a d i => some (OpWord.ofImm 0x87#8 a d (i.setWidth 14))
  | .bsget a d i => some (OpWord.ofImm 0x88#8 a d (i.setWidth 14))
  | .bsskip a i => some (OpWord.ofImm 0x89#8 a zOpd (i.setWidth 14))
  | .bshuf a d e t => some ⟨0x8A#8, a, zOpd, d, e, t⟩
  | .bsput a b d t => some ⟨0x8B#8, a, b, d, zOpd, t⟩
  | .bsflush d t => some ⟨0x8C#8, zOpd, zOpd, d, zOpd, t⟩
  | .bsstat d e t => some ⟨0x8D#8, zOpd, zOpd, d, e, t⟩
  | .fclass a b d e t => some ⟨0x8E#8, a, b, d, e, t⟩
  | .abort t => some ⟨0xA0#8, zOpd, zOpd, zOpd, zOpd, t⟩
  | .abortz a t => some ⟨0xA1#8, a, zOpd, zOpd, zOpd, t⟩
  | .abortnz a t => some ⟨0xA2#8, a, zOpd, zOpd, zOpd, t⟩
  | .ruleon i => some (OpWord.ofImm 0xA3#8 zOpd zOpd (i.setWidth 14))
  | .ruleoff i => some (OpWord.ofImm 0xA4#8 zOpd zOpd (i.setWidth 14))
  | .rulemask a b d e t => some ⟨0xA5#8, a, b, d, e, t⟩
  | .raborts a b d e t => some ⟨0xA6#8, a, b, d, e, t⟩
  | .ctxend t => some ⟨0xA7#8, zOpd, zOpd, zOpd, zOpd, t⟩
  | .ctxyield t => some ⟨0xA8#8, zOpd, zOpd, zOpd, zOpd, t⟩
  | .tset i => some (OpWord.ofImm 0xA9#8 zOpd zOpd (i.setWidth 14))
  | .tclr i => some (OpWord.ofImm 0xAA#8 zOpd zOpd (i.setWidth 14))
  | .tffr a d e t => some ⟨0xAB#8, a, zOpd, d, e, t⟩
  | .tany a d e t => some ⟨0xAC#8, a, zOpd, d, e, t⟩
  | .tall a d e t => some ⟨0xAD#8, a, zOpd, d, e, t⟩
  | .tmask a b d e t => some ⟨0xAE#8, a, b, d, e, t⟩
  | .fence i => some (OpWord.ofImm 0xAF#8 zOpd zOpd (i.setWidth 14))
  | .trap i => some (OpWord.ofImm 0xB0#8 zOpd zOpd (i.setWidth 14))
  | .tret a b t => some ⟨0xB1#8, a, b, zOpd, zOpd, t⟩
  | .csrr d i => some (OpWord.ofImm 0xB2#8 zOpd d (i.setWidth 14))
  | .csrw a d i => some (OpWord.ofImm 0xB3#8 a d (i.setWidth 14))
  | .mcrd a d e t => some ⟨0xB4#8, a, zOpd, d, e, t⟩
  | .cntrd a d e t => some ⟨0xB5#8, a, zOpd, d, e, t⟩
  | .cntclr a t => some ⟨0xB6#8, a, zOpd, zOpd, zOpd, t⟩
  | .errinj a d e t => some ⟨0xB7#8, a, zOpd, d, e, t⟩
  | .timerd a d e t => some ⟨0xB8#8, a, zOpd, d, e, t⟩
  | .roundrd d e t => some ⟨0xB9#8, zOpd, zOpd, d, e, t⟩
  | .fmtmode a d e t => some ⟨0xBA#8, a, zOpd, d, e, t⟩
  | .ld a d e t _ _ => some ⟨0xC0#8, a, zOpd, d, e, t⟩
  | .st a b t _ _ => some ⟨0xC1#8, a, b, zOpd, zOpd, t⟩
  | .stn a b t _ _ => some ⟨0xC2#8, a, b, zOpd, zOpd, t⟩
  | .vld a d e t _ => some ⟨0xC3#8, a, zOpd, d, e, t⟩
  | .vst a b t _ _ => some ⟨0xC4#8, a, b, zOpd, zOpd, t⟩
  | .vldx a b d e t _ _ _ => some ⟨0xC5#8, a, b, d, e, t⟩
  | .vstx a b t _ _ _ _ => some ⟨0xC6#8, a, b, zOpd, zOpd, t⟩
  | .rld a t _ _ _ => some ⟨0xC7#8, a, zOpd, 21#5, zOpd, t⟩
  | .rst a b t _ _ _ _ => some ⟨0xC8#8, a, b, 21#5, zOpd, t⟩
  | .rvld a t _ _ => some ⟨0xC9#8, a, zOpd, 21#5, zOpd, t⟩
  | .rvst a b t _ _ _ => some ⟨0xCA#8, a, b, 21#5, zOpd, t⟩
  | .amoAdd a b t _ _ _ _ => some ⟨0xCB#8, a, b, 21#5, zOpd, t⟩
  | .amoMin a b t _ _ _ _ => some ⟨0xCB#8, a, b, 21#5, zOpd, t⟩
  | .amoMax a b t _ _ _ _ => some ⟨0xCB#8, a, b, 21#5, zOpd, t⟩
  | .amoMinu a b t _ _ _ _ => some ⟨0xCB#8, a, b, 21#5, zOpd, t⟩
  | .amoMaxu a b t _ _ _ _ => some ⟨0xCB#8, a, b, 21#5, zOpd, t⟩
  | .amoAnd a b t _ _ _ _ => some ⟨0xCB#8, a, b, 21#5, zOpd, t⟩
  | .amoOr a b t _ _ _ _ => some ⟨0xCB#8, a, b, 21#5, zOpd, t⟩
  | .amoXor a b t _ _ _ _ => some ⟨0xCB#8, a, b, 21#5, zOpd, t⟩
  | .amoSwap a b t _ _ _ _ => some ⟨0xCB#8, a, b, 21#5, zOpd, t⟩
  | .amoCas a b t _ _ _ _ _ => some ⟨0xCB#8, a, b, 21#5, zOpd, t⟩
  | .amoFaddF32 a b t _ _ _ _ => some ⟨0xCB#8, a, b, 21#5, zOpd, t⟩
  | .amoFaddBf16 a b t _ _ _ _ => some ⟨0xCB#8, a, b, 21#5, zOpd, t⟩
  | .stream a d t _ _ _ => some ⟨0xCC#8, a, zOpd, d, zOpd, t⟩
  | .strctlUnbind d t => some ⟨0xCD#8, zOpd, zOpd, d, zOpd, t⟩
  | .strctlPause d t => some ⟨0xCD#8, zOpd, zOpd, d, zOpd, t⟩
  | .strctlResume d t => some ⟨0xCD#8, zOpd, zOpd, d, zOpd, t⟩
  | .strctlDrain d t _ => some ⟨0xCD#8, zOpd, zOpd, d, zOpd, t⟩
  | .cpy a b _ _ _ => some ⟨0xCE#8, a, b, 21#5, zOpd, 0#4⟩
  | .cpy2 a _ _ => some ⟨0xCF#8, a, zOpd, 21#5, zOpd, 0#4⟩
  | .publish a _ _ _ => some ⟨0xD0#8, a, zOpd, 21#5, zOpd, 0#4⟩
  | .pfetch a b _ _ => some ⟨0xD1#8, a, b, 21#5, zOpd, 0#4⟩
  | .mma a b t _ _ _ _ _ _ _ _ _ => some ⟨0xE0#8, a, b, zOpd, zOpd, t⟩
  | .mmaz a b t _ _ _ _ _ _ _ _ _ => some ⟨0xE1#8, a, b, zOpd, zOpd, t⟩
  | .mmat a b t _ _ _ _ _ _ _ _ _ => some ⟨0xE2#8, a, b, zOpd, zOpd, t⟩
  | .mmai8 a b t _ _ _ _ _ _ _ _ _ => some ⟨0xE3#8, a, b, zOpd, zOpd, t⟩
  | .mmamx a b t _ _ _ _ _ _ _ _ _ => some ⟨0xEA#8, a, b, zOpd, zOpd, t⟩
  | .accrd t _ _ _ _ _ _ => some ⟨0xE4#8, zOpd, zOpd, zOpd, zOpd, t⟩
  | .accwr a t _ _ _ _ => some ⟨0xE5#8, a, zOpd, zOpd, zOpd, t⟩
  | .accz t _ _ => some ⟨0xE6#8, zOpd, zOpd, zOpd, zOpd, t⟩
  | .epicfg a t _ => some ⟨0xE7#8, a, zOpd, zOpd, zOpd, t⟩
  | .abftcfg t _ _ => some ⟨0xE8#8, zOpd, zOpd, zOpd, zOpd, t⟩
  | .bqstat d e t _ _ => some ⟨0xE9#8, zOpd, zOpd, d, e, t⟩
  | .bar _ _ _ => some ⟨0xF0#8, zOpd, zOpd, zOpd, zOpd, 0#4⟩
  | .bart a _ _ _ => some ⟨0xF0#8, a, zOpd, zOpd, zOpd, 0#4⟩
  | .red a _ _ _ _ _ => some ⟨0xF0#8, a, zOpd, 21#5, zOpd, 0#4⟩
  | .pairx a _ _ => some ⟨0xF0#8, a, zOpd, 21#5, zOpd, 0#4⟩
  | .sluice a => some ⟨0xF0#8, a, zOpd, zOpd, zOpd, 0#4⟩
  | .hfwd a => some ⟨0xF0#8, a, zOpd, zOpd, zOpd, 0#4⟩
  | .bandrd a d e t => some ⟨0xF1#8, a, zOpd, d, e, t⟩
  | .toffrd a d e t => some ⟨0xF1#8, a, zOpd, d, e, t⟩
  | .vfreq a d e t => some ⟨0xF1#8, a, zOpd, d, e, t⟩
  | .weir a d e t => some ⟨0xF1#8, a, zOpd, d, e, t⟩
  | .rsvld a b t _ _ _ => some ⟨0xF1#8, a, b, 21#5, zOpd, t⟩
  | .rsvcfgPart a t _ _ => some ⟨0xF1#8, a, zOpd, 21#5, zOpd, t⟩
  | .rsvcfgDrop a t _ _ => some ⟨0xF1#8, a, zOpd, 21#5, zOpd, t⟩
  | .cgsend a b _ _ _ _ _ _ _ => some ⟨0xF2#8, a, b, 21#5, zOpd, 0#4⟩
  | .cgrant _ _ => some ⟨0xF2#8, zOpd, zOpd, zOpd, zOpd, 0#4⟩
  | .cgwake _ _ _ => some ⟨0xF2#8, zOpd, zOpd, 21#5, zOpd, 0#4⟩
  | .cgrel _ _ => some ⟨0xF2#8, zOpd, zOpd, zOpd, zOpd, 0#4⟩
  | .cgcfgFilter a _ => some ⟨0xF2#8, a, zOpd, zOpd, zOpd, 0#4⟩
  | .cgcfgPort a _ => some ⟨0xF2#8, a, zOpd, zOpd, zOpd, 0#4⟩
  | .cgcfgDepth a _ => some ⟨0xF2#8, a, zOpd, zOpd, zOpd, 0#4⟩
  | .cgstat a d e t _ => some ⟨0xF2#8, a, zOpd, d, e, t⟩
  | .eos _ _ => some ⟨0xF3#8, zOpd, zOpd, zOpd, zOpd, 0#4⟩
  | .cfgswap a _ _ _ => some ⟨0xF3#8, a, zOpd, 21#5, zOpd, 0#4⟩
  | .gbar _ _ => some ⟨0xF3#8, zOpd, zOpd, zOpd, zOpd, 0#4⟩
  | .statred _ _ _ _ => some ⟨0xF3#8, zOpd, zOpd, 21#5, zOpd, 0#4⟩
  | .qstat a d e t _ => some ⟨0xF3#8, a, zOpd, d, e, t⟩
  | .xstr a _ _ => some ⟨0xF4#8, a, zOpd, 21#5, zOpd, 0#4⟩
  | .migrate a b _ _ => some ⟨0xF4#8, a, b, 21#5, zOpd, 0#4⟩
  | .tlbinvPage a b _ _ => some ⟨0xF4#8, a, b, 21#5, zOpd, 0#4⟩
  | .tlbinvQueue b _ _ => some ⟨0xF4#8, zOpd, b, 21#5, zOpd, 0#4⟩
  | .tlbinvAll _ _ => some ⟨0xF4#8, zOpd, zOpd, 21#5, zOpd, 0#4⟩
  | .compattrQuery a b _ _ => some ⟨0xF4#8, a, b, 21#5, zOpd, 0#4⟩
  | .compattrSet a b _ _ => some ⟨0xF4#8, a, b, 21#5, zOpd, 0#4⟩
  | .compattrRecomp a b _ _ => some ⟨0xF4#8, a, b, 21#5, zOpd, 0#4⟩
  | .coll a _ _ _ => some ⟨0xF5#8, a, zOpd, 21#5, zOpd, 0#4⟩
  | .routesw _ _ => some ⟨0xF5#8, zOpd, zOpd, 21#5, zOpd, 0#4⟩
  | .fportQuiesce a b _ _ => some ⟨0xF5#8, a, b, 21#5, zOpd, 0#4⟩
  | .fportTrain a b _ _ => some ⟨0xF5#8, a, b, 21#5, zOpd, 0#4⟩
  | .fportCycle a b _ _ => some ⟨0xF5#8, a, b, 21#5, zOpd, 0#4⟩
  | .fstat a d e t _ => some ⟨0xF5#8, a, zOpd, d, e, t⟩
  | .round => none
  | .tretMessageArrival => none
  | .tokenArrival => none
  | .tokenSpill => none
  | .creditReturn => none
  | .replyArrival => none
  | .remoteAccessServe => none
  | .amoPerform => none
  | .publishFlip => none
  | .failedRequest => none
  | .streamFetch => none
  | .streamWrite => none
  | .streamDrainTag => none
  | .copyUnit => none
  | .copyComplete => none
  | .bucketLeak => none
  | .basinGrant => none
  | .basinCommandComplete => none
  | .accrdRowDelivery => none
  | .epilogueRowDelivery => none
  | .slotPinClear => none
  | .flitHop => none
  | .deliveryAck => none
  | .routeClassSwitch => none
  | .coreMapRebind => none
  | .confluenceCombine => none
  | .barrierArrivalLeave => none
  | .barrierArrival => none
  | .barrierCompletionArrival => none
  | .bartTimeout => none
  | .pairHalfArrival => none
  | .pairDeadline => none
  | .pairTimeoutMessage => none
  | .pairAbortMessage => none
  | .trapRecordDelivery => none
  | .recordResend => none
  | .retentionEntry => none
  | .retentionExitStart => none
  | .retentionExitEnd => none
  | .vfRequestApply => none
  | .vfClockResume => none
  | .weirHalve => none
  | .weirDouble => none
  | .timeRecalibration => none
  | .reservoirAccess => none
  | .cacheReplacement => none
  | .rsvldLine => none
  | .rsvldComplete => none
  | .rsvcfgPartApply => none
  | .rsvcfgDropComplete => none
  | .pfetchComplete => none
  | .cascadeBlockLaunch => none
  | .branchReceive => none
  | .retransmitRequest => none
  | .branchForward => none
  | .memberSlotFill => none
  | .memberReemit => none
  | .blockAck => none
  | .voteArrival => none
  | .laserLit => none
  | .laserDark => none
  | .groupEntryWriteApply => none
  | .queueKick => none
  | .queueEnable => none
  | .queueOff => none
  | .packetFetch => none
  | .packetRefetch => none
  | .packetDispatch => none
  | .ageRise => none
  | .packetCompletion => none
  | .launch => none
  | .launchSwapAtQuiescence => none
  | .launchSwapAtCfgswap => none
  | .shadowLoadEnd => none
  | .copy => none
  | .wait => none
  | .waitPoll => none
  | .signal => none
  | .groupload => none
  | .reservoirLoad => none
  | .fabricReconf => none
  | .portCmdQuiesce => none
  | .portCmdTrain => none
  | .portCmdCycle => none
  | .destroy => none
  | .destroyForce => none
  | .record => none
  | .pwrSetCap => none
  | .pwrSetFloor => none
  | .placement => none
  | .preemptDeadline => none
  | .stillSweep => none
  | .sweepResult => none
  | .gangStop => none
  | .gangStopScanOut => none
  | .gangResume => none
  | .gbarCompletion => none
  | .pkgRetireGo => none
  | .rollback => none
  | .comparatorMismatch => none
  | .comparatorTimeout => none
  | .translationWalk => none
  | .pageRequestResponse => none
  | .pfDeadline => none
  | .tlbinvComplete => none
  | .migrationFork => none
  | .migrationCopyLine => none
  | .migrationSwitch => none
  | .migrationRelease => none
  | .hbmWrite => none
  | .hbmRead => none
  | .xstrElement => none
  | .xstrComplete => none
  | .eventWrite => none
  | .pkgEvreplyWrite => none
  | .watchdogDead => none
  | .watchdogSlow => none
  | .powerManagerUpdate => none
  | .startup => none
  | .hostLinkDown => none
  | .hostLinkUp => none
  | .attestReport => none
  | .recoveryFirmware => none
  | .dieVfrWrite => none
  | .cluRouteSwitchRequest => none
  | .fabRouteSwitchRequest => none
  | .registerWrite => none
  | .fabricFlitTransmit => none
  | .fabricFlitReceive => none
  | .replayTimeout => none
  | .laneLock => none
  | .trainTimeout => none
  | .identityArrival => none
  | .verifyTimeout => none
  | .lossOfLock => none
  | .drainDeadline => none
  | .darkTimeExpiry => none
  | .transitForward => none
  | .fdataDelivery => none
  | .fctlArrival => none
  | .flowSwitch => none
  | .collStepStart => none
  | .collStepComplete => none
  | .fenceReleaseTraffic => none
  | .cgwakeArrival => none
  | .secondTierAccess => none

/-- The extension word of a format W instruction; zero for the others (01_encoding, R20, R39). -/
def Instr.extWord : Instr → W32
  | .nop _ => 0#32
  | .mov _ _ _ _ => 0#32
  | .movi _ _ => 0#32
  | .movsh _ _ _ => 0#32
  | .add _ _ _ _ _ => 0#32
  | .addi _ _ _ => 0#32
  | .sub _ _ _ _ _ => 0#32
  | .mul _ _ _ _ _ => 0#32
  | .mulh _ _ _ _ _ => 0#32
  | .mulhu _ _ _ _ _ => 0#32
  | .div _ _ _ _ _ => 0#32
  | .divu _ _ _ _ _ => 0#32
  | .rem _ _ _ _ _ => 0#32
  | .remu _ _ _ _ _ => 0#32
  | .and _ _ _ _ _ => 0#32
  | .andi _ _ _ => 0#32
  | .or _ _ _ _ _ => 0#32
  | .ori _ _ _ => 0#32
  | .xor _ _ _ _ _ => 0#32
  | .xori _ _ _ => 0#32
  | .shl _ _ _ _ _ => 0#32
  | .shli _ _ _ => 0#32
  | .shr _ _ _ _ _ => 0#32
  | .shri _ _ _ => 0#32
  | .sar _ _ _ _ _ => 0#32
  | .sari _ _ _ => 0#32
  | .rol _ _ _ _ _ => 0#32
  | .clz _ _ _ _ => 0#32
  | .ctz _ _ _ _ => 0#32
  | .popc _ _ _ _ => 0#32
  | .min _ _ _ _ _ => 0#32
  | .max _ _ _ _ _ => 0#32
  | .minu _ _ _ _ _ => 0#32
  | .maxu _ _ _ _ _ => 0#32
  | .addsat _ _ _ _ _ => 0#32
  | .subsat _ _ _ _ _ => 0#32
  | .seq _ _ _ _ _ => 0#32
  | .sne _ _ _ _ _ => 0#32
  | .slt _ _ _ _ _ => 0#32
  | .sltu _ _ _ _ _ => 0#32
  | .sle _ _ _ _ _ => 0#32
  | .sleu _ _ _ _ _ => 0#32
  | .sel _ _ _ _ _ => 0#32
  | .sext _ _ _ => 0#32
  | .zext _ _ _ => 0#32
  | .bfx _ _ _ => 0#32
  | .bfi _ _ _ _ _ => 0#32
  | .xyadr _ _ _ _ _ => 0#32
  | .reladr _ _ _ _ _ => 0#32
  | .myxy _ _ _ => 0#32
  | .adrx _ _ _ => 0#32
  | .adrchk _ _ _ _ _ => 0#32
  | .vmov _ _ _ _ => 0#32
  | .vbcast _ _ _ _ => 0#32
  | .vperm _ _ _ _ _ => 0#32
  | .vextr _ _ _ => 0#32
  | .vins _ _ _ => 0#32
  | .vaddF32 _ _ _ _ _ => 0#32
  | .vsubF32 _ _ _ _ _ => 0#32
  | .vmulF32 _ _ _ _ _ => 0#32
  | .vfmaF32 _ _ _ _ _ => 0#32
  | .vminF32 _ _ _ _ _ => 0#32
  | .vmaxF32 _ _ _ _ _ => 0#32
  | .vaddF64 _ _ _ _ _ => 0#32
  | .vsubF64 _ _ _ _ _ => 0#32
  | .vmulF64 _ _ _ _ _ => 0#32
  | .vfmaF64 _ _ _ _ _ => 0#32
  | .vaddBf16 _ _ _ _ _ => 0#32
  | .vmulBf16 _ _ _ _ _ => 0#32
  | .vdot2Bf16 _ _ _ _ _ => 0#32
  | .vabsF32 _ _ _ _ => 0#32
  | .vnegF32 _ _ _ _ => 0#32
  | .vrcpF32 _ _ _ _ => 0#32
  | .vrsqF32 _ _ _ _ => 0#32
  | .vsqrtF32 _ _ _ _ => 0#32
  | .vexp2F32 _ _ _ _ => 0#32
  | .vlog2F32 _ _ _ _ => 0#32
  | .vtanhF32 _ _ _ _ => 0#32
  | .vceqF32 _ _ _ _ _ => 0#32
  | .vcltF32 _ _ _ _ _ => 0#32
  | .vcleF32 _ _ _ _ _ => 0#32
  | .vsel _ _ _ _ _ => 0#32
  | .viadd _ _ _ _ _ => 0#32
  | .visub _ _ _ _ _ => 0#32
  | .vimul _ _ _ _ _ => 0#32
  | .vand _ _ _ _ _ => 0#32
  | .vor _ _ _ _ _ => 0#32
  | .vxor _ _ _ _ _ => 0#32
  | .vshl _ _ _ _ _ => 0#32
  | .vshr _ _ _ _ _ => 0#32
  | .vsar _ _ _ _ _ => 0#32
  | .vimin _ _ _ _ _ => 0#32
  | .vimax _ _ _ _ _ => 0#32
  | .viceq _ _ _ _ _ => 0#32
  | .viclt _ _ _ _ _ => 0#32
  | .viaddsatI8 _ _ _ _ _ => 0#32
  | .vrsumF32 _ _ _ _ => 0#32
  | .vrmaxF32 _ _ _ _ => 0#32
  | .vrsumI32 _ _ _ _ => 0#32
  | .vmset _ => 0#32
  | .vmget _ _ _ => 0#32
  | .vshiftl _ _ _ => 0#32
  | .vscanF32 _ _ _ _ => 0#32
  | .cvt _ _ _ => 0#32
  | .vcvt _ _ _ => 0#32
  | .vpack _ _ _ => 0#32
  | .vunpk _ _ _ => 0#32
  | .vscale _ _ _ _ _ => 0#32
  | .vscalex _ _ _ _ _ => 0#32
  | .bsinit _ _ _ _ _ => 0#32
  | .bspeek _ _ _ => 0#32
  | .bsget _ _ _ => 0#32
  | .bsskip _ _ => 0#32
  | .bshuf _ _ _ _ => 0#32
  | .bsput _ _ _ _ => 0#32
  | .bsflush _ _ => 0#32
  | .bsstat _ _ _ => 0#32
  | .fclass _ _ _ _ _ => 0#32
  | .abort _ => 0#32
  | .abortz _ _ => 0#32
  | .abortnz _ _ => 0#32
  | .ruleon _ => 0#32
  | .ruleoff _ => 0#32
  | .rulemask _ _ _ _ _ => 0#32
  | .raborts _ _ _ _ _ => 0#32
  | .ctxend _ => 0#32
  | .ctxyield _ => 0#32
  | .tset _ => 0#32
  | .tclr _ => 0#32
  | .tffr _ _ _ _ => 0#32
  | .tany _ _ _ _ => 0#32
  | .tall _ _ _ _ => 0#32
  | .tmask _ _ _ _ _ => 0#32
  | .fence _ => 0#32
  | .trap _ => 0#32
  | .tret _ _ _ => 0#32
  | .csrr _ _ => 0#32
  | .csrw _ _ _ => 0#32
  | .mcrd _ _ _ _ => 0#32
  | .cntrd _ _ _ _ => 0#32
  | .cntclr _ _ => 0#32
  | .errinj _ _ _ _ => 0#32
  | .timerd _ _ _ _ => 0#32
  | .roundrd _ _ _ => 0#32
  | .fmtmode _ _ _ _ => 0#32
  | .ld _ _ _ _ xw xoff => (xw ++ 0#10 ++ xoff).cast rfl
  | .st _ _ _ xw xoff => (xw ++ 0#10 ++ xoff).cast rfl
  | .stn _ _ _ xh xoff => (0#11 ++ xh ++ xoff).cast rfl
  | .vld _ _ _ _ xoff => (0#12 ++ xoff).cast rfl
  | .vst _ _ _ xm xoff => (xm ++ 0#11 ++ xoff).cast rfl
  | .vldx _ _ _ _ _ xw xm xoff => (xw ++ xm ++ 0#9 ++ xoff).cast rfl
  | .vstx _ _ _ xw xm xix xoff => (xw ++ xm ++ 0#1 ++ xix ++ 0#4 ++ xoff).cast rfl
  | .rld _ _ xw xrt xoff => (xw ++ xrt ++ 1#1 ++ 0#3 ++ xoff).cast rfl
  | .rst _ _ _ xw xrt xrpy xoff => (xw ++ xrt ++ xrpy ++ 0#3 ++ xoff).cast rfl
  | .rvld _ _ xrt xoff => (0#2 ++ xrt ++ 1#1 ++ 0#3 ++ xoff).cast rfl
  | .rvst _ _ _ xrt xrpy xoff => (0#2 ++ xrt ++ xrpy ++ 0#3 ++ xoff).cast rfl
  | .amoAdd _ _ _ xw xrt xrpy xoff => (0#4 ++ xw ++ xrt ++ xrpy ++ 0#4 ++ xoff).cast rfl
  | .amoMin _ _ _ xw xrt xrpy xoff => (1#4 ++ xw ++ xrt ++ xrpy ++ 0#4 ++ xoff).cast rfl
  | .amoMax _ _ _ xw xrt xrpy xoff => (2#4 ++ xw ++ xrt ++ xrpy ++ 0#4 ++ xoff).cast rfl
  | .amoMinu _ _ _ xw xrt xrpy xoff => (3#4 ++ xw ++ xrt ++ xrpy ++ 0#4 ++ xoff).cast rfl
  | .amoMaxu _ _ _ xw xrt xrpy xoff => (4#4 ++ xw ++ xrt ++ xrpy ++ 0#4 ++ xoff).cast rfl
  | .amoAnd _ _ _ xw xrt xrpy xoff => (5#4 ++ xw ++ xrt ++ xrpy ++ 0#4 ++ xoff).cast rfl
  | .amoOr _ _ _ xw xrt xrpy xoff => (6#4 ++ xw ++ xrt ++ xrpy ++ 0#4 ++ xoff).cast rfl
  | .amoXor _ _ _ xw xrt xrpy xoff => (7#4 ++ xw ++ xrt ++ xrpy ++ 0#4 ++ xoff).cast rfl
  | .amoSwap _ _ _ xw xrt xrpy xoff => (8#4 ++ xw ++ xrt ++ xrpy ++ 0#4 ++ xoff).cast rfl
  | .amoCas _ _ _ xw xrt xrpy xcmp xoff => (9#4 ++ xw ++ xrt ++ xrpy ++ xcmp ++ xoff).cast rfl
  | .amoFaddF32 _ _ _ xw xrt xrpy xoff => (10#4 ++ xw ++ xrt ++ xrpy ++ 0#4 ++ xoff).cast rfl
  | .amoFaddBf16 _ _ _ xw xrt xrpy xoff => (11#4 ++ xw ++ xrt ++ xrpy ++ 0#4 ++ xoff).cast rfl
  | .stream _ _ _ xdir xfmt xesz => (xdir ++ xfmt ++ xesz ++ 0#26).cast rfl
  | .strctlUnbind _ _ => (0#3 ++ 0#29).cast rfl
  | .strctlPause _ _ => (1#3 ++ 0#29).cast rfl
  | .strctlResume _ _ => (2#3 ++ 0#29).cast rfl
  | .strctlDrain _ _ xtg => (3#3 ++ 0#23 ++ xtg).cast rfl
  | .cpy _ _ xtg xte xlen => (xtg ++ xte ++ xlen ++ 0#21).cast rfl
  | .cpy2 _ xtg xte => (xtg ++ xte ++ 0#25).cast rfl
  | .publish _ xtg xte xwin => (xtg ++ xte ++ 0#22 ++ xwin).cast rfl
  | .pfetch _ _ xtg xte => (xtg ++ xte ++ 0#25).cast rfl
  | .mma _ _ _ xacc xaf xbf xk xm xn xz xbt xep => (xacc ++ xaf ++ xbf ++ xk ++ xm ++ xn ++ xz ++ xbt ++ xep).cast rfl
  | .mmaz _ _ _ xacc xaf xbf xk xm xn xz xbt xep => (xacc ++ xaf ++ xbf ++ xk ++ xm ++ xn ++ xz ++ xbt ++ xep).cast rfl
  | .mmat _ _ _ xacc xaf xbf xk xm xn xz xbt xep => (xacc ++ xaf ++ xbf ++ xk ++ xm ++ xn ++ xz ++ xbt ++ xep).cast rfl
  | .mmai8 _ _ _ xacc xaf xbf xk xm xn xz xbt xep => (xacc ++ xaf ++ xbf ++ xk ++ xm ++ xn ++ xz ++ xbt ++ xep).cast rfl
  | .mmamx _ _ _ xacc xaf xbf xk xm xn xz xbt xep => (xacc ++ xaf ++ xbf ++ xk ++ xm ++ xn ++ xz ++ xbt ++ xep).cast rfl
  | .accrd _ xacc xrt xfirst xrn xep xclr => (xacc ++ xrt ++ xfirst ++ xrn ++ xep ++ xclr ++ 0#11).cast rfl
  | .accwr _ _ xacc xtyp xfirst xrn => (xacc ++ xtyp ++ xfirst ++ xrn ++ 0#20).cast rfl
  | .accz _ xacc xtyp => (xacc ++ xtyp ++ 0#28).cast rfl
  | .epicfg _ _ xch => (xch ++ 0#28).cast rfl
  | .abftcfg _ xen xcorr => (xen ++ xcorr ++ 0#30).cast rfl
  | .bqstat _ _ _ xsel xclr => (xsel ++ xclr ++ 0#27).cast rfl
  | .bar xk xtg xte => (0#5 ++ xk ++ xtg ++ xte ++ 0#16).cast rfl
  | .bart _ xk xtg xtm => (1#5 ++ xk ++ xtg ++ xtm ++ 0#11).cast rfl
  | .red _ xtr xop xv xall xrt => (2#5 ++ xtr ++ xop ++ xv ++ xall ++ xrt ++ 0#10).cast rfl
  | .pairx _ xch xrt => (3#5 ++ xch ++ xrt ++ 0#17).cast rfl
  | .sluice _ => (4#5 ++ 0#27).cast rfl
  | .hfwd _ => (5#5 ++ 0#27).cast rfl
  | .bandrd _ _ _ _ => (0#5 ++ 0#27).cast rfl
  | .toffrd _ _ _ _ => (1#5 ++ 0#27).cast rfl
  | .vfreq _ _ _ _ => (2#5 ++ 0#27).cast rfl
  | .weir _ _ _ _ => (3#5 ++ 0#27).cast rfl
  | .rsvld _ _ _ xtg xte xlen => (4#5 ++ xtg ++ xte ++ xlen ++ 0#16).cast rfl
  | .rsvcfgPart _ _ xtg xte => (5#5 ++ 0#2 ++ xtg ++ xte ++ 0#18).cast rfl
  | .rsvcfgDrop _ _ xtg xte => (5#5 ++ 1#2 ++ xtg ++ xte ++ 0#18).cast rfl
  | .cgsend _ _ xg xtg xte xsrc xhuf xfmt xlast => (0#5 ++ xg ++ xtg ++ xte ++ xsrc ++ xhuf ++ xfmt ++ xlast ++ 0#5).cast rfl
  | .cgrant xg xhold => (1#5 ++ xg ++ xhold ++ 0#18).cast rfl
  | .cgwake xg xtg xte => (2#5 ++ xg ++ xtg ++ xte ++ 0#12).cast rfl
  | .cgrel xport xk => (3#5 ++ xport ++ xk ++ 0#24).cast rfl
  | .cgcfgFilter _ xix => (4#5 ++ 0#2 ++ xix ++ 0#17).cast rfl
  | .cgcfgPort _ xix => (4#5 ++ 1#2 ++ xix ++ 0#17).cast rfl
  | .cgcfgDepth _ xix => (4#5 ++ 2#2 ++ xix ++ 0#17).cast rfl
  | .cgstat _ _ _ _ xsel => (5#5 ++ xsel ++ 0#24).cast rfl
  | .eos xports xend => (0#5 ++ xports ++ xend ++ 0#22).cast rfl
  | .cfgswap _ xdis xtg xte => (1#5 ++ xdis ++ xtg ++ xte ++ 0#19).cast rfl
  | .gbar xtg xte => (2#5 ++ xtg ++ xte ++ 0#20).cast rfl
  | .statred xkind xidx xmax xrt => (3#5 ++ xkind ++ xidx ++ xmax ++ xrt ++ 0#12).cast rfl
  | .qstat _ _ _ _ xsel => (4#5 ++ xsel ++ 0#24).cast rfl
  | .xstr _ xtg xte => (0#5 ++ xtg ++ xte ++ 0#20).cast rfl
  | .migrate _ _ xtg xte => (1#5 ++ xtg ++ xte ++ 0#20).cast rfl
  | .tlbinvPage _ _ xtg xte => (2#5 ++ 0#2 ++ xtg ++ xte ++ 0#18).cast rfl
  | .tlbinvQueue _ xtg xte => (2#5 ++ 1#2 ++ xtg ++ xte ++ 0#18).cast rfl
  | .tlbinvAll xtg xte => (2#5 ++ 2#2 ++ xtg ++ xte ++ 0#18).cast rfl
  | .compattrQuery _ _ xtg xte => (3#5 ++ 0#2 ++ xtg ++ xte ++ 0#18).cast rfl
  | .compattrSet _ _ xtg xte => (3#5 ++ 1#2 ++ xtg ++ xte ++ 0#18).cast rfl
  | .compattrRecomp _ _ xtg xte => (3#5 ++ 2#2 ++ xtg ++ xte ++ 0#18).cast rfl
  | .coll _ xk xtg xte => (0#5 ++ xk ++ xtg ++ xte ++ 0#14).cast rfl
  | .routesw xtg xte => (1#5 ++ xtg ++ xte ++ 0#20).cast rfl
  | .fportQuiesce _ _ xtg xte => (2#5 ++ 0#2 ++ xtg ++ xte ++ 0#18).cast rfl
  | .fportTrain _ _ xtg xte => (2#5 ++ 1#2 ++ xtg ++ xte ++ 0#18).cast rfl
  | .fportCycle _ _ xtg xte => (2#5 ++ 2#2 ++ xtg ++ xte ++ 0#18).cast rfl
  | .fstat _ _ _ _ xsel => (3#5 ++ xsel ++ 0#24).cast rfl
  | .round => 0#32
  | .tretMessageArrival => 0#32
  | .tokenArrival => 0#32
  | .tokenSpill => 0#32
  | .creditReturn => 0#32
  | .replyArrival => 0#32
  | .remoteAccessServe => 0#32
  | .amoPerform => 0#32
  | .publishFlip => 0#32
  | .failedRequest => 0#32
  | .streamFetch => 0#32
  | .streamWrite => 0#32
  | .streamDrainTag => 0#32
  | .copyUnit => 0#32
  | .copyComplete => 0#32
  | .bucketLeak => 0#32
  | .basinGrant => 0#32
  | .basinCommandComplete => 0#32
  | .accrdRowDelivery => 0#32
  | .epilogueRowDelivery => 0#32
  | .slotPinClear => 0#32
  | .flitHop => 0#32
  | .deliveryAck => 0#32
  | .routeClassSwitch => 0#32
  | .coreMapRebind => 0#32
  | .confluenceCombine => 0#32
  | .barrierArrivalLeave => 0#32
  | .barrierArrival => 0#32
  | .barrierCompletionArrival => 0#32
  | .bartTimeout => 0#32
  | .pairHalfArrival => 0#32
  | .pairDeadline => 0#32
  | .pairTimeoutMessage => 0#32
  | .pairAbortMessage => 0#32
  | .trapRecordDelivery => 0#32
  | .recordResend => 0#32
  | .retentionEntry => 0#32
  | .retentionExitStart => 0#32
  | .retentionExitEnd => 0#32
  | .vfRequestApply => 0#32
  | .vfClockResume => 0#32
  | .weirHalve => 0#32
  | .weirDouble => 0#32
  | .timeRecalibration => 0#32
  | .reservoirAccess => 0#32
  | .cacheReplacement => 0#32
  | .rsvldLine => 0#32
  | .rsvldComplete => 0#32
  | .rsvcfgPartApply => 0#32
  | .rsvcfgDropComplete => 0#32
  | .pfetchComplete => 0#32
  | .cascadeBlockLaunch => 0#32
  | .branchReceive => 0#32
  | .retransmitRequest => 0#32
  | .branchForward => 0#32
  | .memberSlotFill => 0#32
  | .memberReemit => 0#32
  | .blockAck => 0#32
  | .voteArrival => 0#32
  | .laserLit => 0#32
  | .laserDark => 0#32
  | .groupEntryWriteApply => 0#32
  | .queueKick => 0#32
  | .queueEnable => 0#32
  | .queueOff => 0#32
  | .packetFetch => 0#32
  | .packetRefetch => 0#32
  | .packetDispatch => 0#32
  | .ageRise => 0#32
  | .packetCompletion => 0#32
  | .launch => 0#32
  | .launchSwapAtQuiescence => 0#32
  | .launchSwapAtCfgswap => 0#32
  | .shadowLoadEnd => 0#32
  | .copy => 0#32
  | .wait => 0#32
  | .waitPoll => 0#32
  | .signal => 0#32
  | .groupload => 0#32
  | .reservoirLoad => 0#32
  | .fabricReconf => 0#32
  | .portCmdQuiesce => 0#32
  | .portCmdTrain => 0#32
  | .portCmdCycle => 0#32
  | .destroy => 0#32
  | .destroyForce => 0#32
  | .record => 0#32
  | .pwrSetCap => 0#32
  | .pwrSetFloor => 0#32
  | .placement => 0#32
  | .preemptDeadline => 0#32
  | .stillSweep => 0#32
  | .sweepResult => 0#32
  | .gangStop => 0#32
  | .gangStopScanOut => 0#32
  | .gangResume => 0#32
  | .gbarCompletion => 0#32
  | .pkgRetireGo => 0#32
  | .rollback => 0#32
  | .comparatorMismatch => 0#32
  | .comparatorTimeout => 0#32
  | .translationWalk => 0#32
  | .pageRequestResponse => 0#32
  | .pfDeadline => 0#32
  | .tlbinvComplete => 0#32
  | .migrationFork => 0#32
  | .migrationCopyLine => 0#32
  | .migrationSwitch => 0#32
  | .migrationRelease => 0#32
  | .hbmWrite => 0#32
  | .hbmRead => 0#32
  | .xstrElement => 0#32
  | .xstrComplete => 0#32
  | .eventWrite => 0#32
  | .pkgEvreplyWrite => 0#32
  | .watchdogDead => 0#32
  | .watchdogSlow => 0#32
  | .powerManagerUpdate => 0#32
  | .startup => 0#32
  | .hostLinkDown => 0#32
  | .hostLinkUp => 0#32
  | .attestReport => 0#32
  | .recoveryFirmware => 0#32
  | .dieVfrWrite => 0#32
  | .cluRouteSwitchRequest => 0#32
  | .fabRouteSwitchRequest => 0#32
  | .registerWrite => 0#32
  | .fabricFlitTransmit => 0#32
  | .fabricFlitReceive => 0#32
  | .replayTimeout => 0#32
  | .laneLock => 0#32
  | .trainTimeout => 0#32
  | .identityArrival => 0#32
  | .verifyTimeout => 0#32
  | .lossOfLock => 0#32
  | .drainDeadline => 0#32
  | .darkTimeExpiry => 0#32
  | .transitForward => 0#32
  | .fdataDelivery => 0#32
  | .fctlArrival => 0#32
  | .flowSwitch => 0#32
  | .collStepStart => 0#32
  | .collStepComplete => 0#32
  | .fenceReleaseTraffic => 0#32
  | .cgwakeArrival => 0#32
  | .secondTierAccess => 0#32

/-- The words of an instruction (01_encoding, R16, R20); an event has none. -/
def encode (i : Instr) : List W32 :=
  match i.opWord with
  | none => []
  | some f => if i.words = 2 then [f.toWord, i.extWord] else [f.toWord]

/-- The instruction that the decoder reads from a row's bits, numbered as the opcode table numbers them: the first word is
bits 31 to 0, and the words above nbits are zero. -/
def decodeTableWord (nbits w : Nat) : Option Instr :=
  let v := w % 2 ^ nbits
  match decode [BitVec.ofNat 32 v, BitVec.ofNat 32 (v / 2 ^ 32)] with
  | .ok (i, _) => some i
  | .error _ => none

end Sys2Proof
end

