-- ==== Sys2Proof/Machine/Digest.lean ====
section
/-! DEFINITION. SHA-256 as FIPS 180-4 defines it (00_scope, R4; 12_package_launch, R344; 14_package_host, R383). -/
namespace Sys2Proof.Machine

/-- The eight words of a hash value. -/
structure Hash where
  a : W32
  b : W32
  c : W32
  d : W32
  e : W32
  f : W32
  g : W32
  h : W32
deriving DecidableEq, Repr

/-- The initial hash value. -/
def Hash.init : Hash :=
  { a := 0x6a09e667, b := 0xbb67ae85, c := 0x3c6ef372, d := 0xa54ff53a, e := 0x510e527f, f := 0x9b05688c, g := 0x1f83d9ab,
    h := 0x5be0cd19 }
/-- The round constants 0 to 31. -/
def roundConstsLow : List W32 :=
  [0x428a2f98, 0x71374491, 0xb5c0fbcf, 0xe9b5dba5, 0x3956c25b, 0x59f111f1, 0x923f82a4, 0xab1c5ed5,
   0xd807aa98, 0x12835b01, 0x243185be, 0x550c7dc3, 0x72be5d74, 0x80deb1fe, 0x9bdc06a7, 0xc19bf174,
   0xe49b69c1, 0xefbe4786, 0x0fc19dc6, 0x240ca1cc, 0x2de92c6f, 0x4a7484aa, 0x5cb0a9dc, 0x76f988da,
   0x983e5152, 0xa831c66d, 0xb00327c8, 0xbf597fc7, 0xc6e00bf3, 0xd5a79147, 0x06ca6351, 0x14292967]
/-- The round constants 32 to 63. -/
def roundConstsHigh : List W32 :=
  [0x27b70a85, 0x2e1b2138, 0x4d2c6dfc, 0x53380d13, 0x650a7354, 0x766a0abb, 0x81c2c92e, 0x92722c85,
   0xa2bfe8a1, 0xa81a664b, 0xc24b8b70, 0xc76c51a3, 0xd192e819, 0xd6990624, 0xf40e3585, 0x106aa070,
   0x19a4c116, 0x1e376c08, 0x2748774c, 0x34b0bcb5, 0x391c0cb3, 0x4ed8aa4a, 0x5b9cca4f, 0x682e6ff3,
   0x748f82ee, 0x78a5636f, 0x84c87814, 0x8cc70208, 0x90befffa, 0xa4506ceb, 0xbef9a3f7, 0xc67178f2]
/-- The functions of the message schedule. -/
def sigmaLow (x : W32) (r1 r2 sh : Nat) : W32 := x.rotateRight r1 ^^^ x.rotateRight r2 ^^^ (x >>> sh)
/-- The functions of the working variables. -/
def sigmaHigh (x : W32) (r1 r2 r3 : Nat) : W32 := x.rotateRight r1 ^^^ x.rotateRight r2 ^^^ x.rotateRight r3
/-- The message schedule, latest word first, with some words more. -/
def scheduleWords : Nat → List W32 → List W32
  | 0, l => l
  | n + 1, l =>
    let at_ := fun (i : Nat) => l.getD i 0
    scheduleWords n ((sigmaLow (at_ 1) 17 19 10 + at_ 6 + sigmaLow (at_ 14) 7 18 3 + at_ 15) :: l)
/-- One round on the working variables. -/
def hashRound (v : Hash) (kw : W32 × W32) : Hash :=
  let ch := (v.e &&& v.f) ^^^ (~~~v.e &&& v.g)
  let maj := (v.a &&& v.b) ^^^ (v.a &&& v.c) ^^^ (v.b &&& v.c)
  let t1 := v.h + sigmaHigh v.e 6 11 25 + ch + kw.1 + kw.2
  let t2 := sigmaHigh v.a 2 13 22 + maj
  { a := t1 + t2, b := v.a, c := v.b, d := v.c, e := v.d + t1, f := v.e, g := v.f, h := v.g }
/-- A big-endian number. -/
def beNat (bs : List Byte) : Nat := leNat bs.reverse
/-- The big-endian bytes of a word. -/
def beBytes (n v : Nat) : List Byte := (leBytes n v).reverse
/-- A hash value taken over one block of 64 bytes. -/
def hashBlock (v : Hash) (bs : List Byte) : Hash :=
  let ws := (List.range 16).map (fun i => BitVec.ofNat 32 (beNat ((bs.drop (4 * i)).take 4)))
  let w := (scheduleWords 48 ws.reverse).reverse
  let u := ((roundConstsLow ++ roundConstsHigh).zip w).foldl hashRound v
  { a := v.a + u.a, b := v.b + u.b, c := v.c + u.c, d := v.d + u.d, e := v.e + u.e, f := v.f + u.f, g := v.g + u.g, h := v.h + u.h }
/-- A hash value taken over blocks; the number bounds them. -/
def hashBlocks : Nat → Hash → List Byte → Hash
  | 0, v, _ => v
  | n + 1, v, bs => if bs.isEmpty then v else hashBlocks n (hashBlock v (bs.take 64)) (bs.drop 64)
/-- A message padded to whole blocks: a one bit, zeros, the length in bits. -/
def padded (bs : List Byte) : List Byte :=
  bs ++ 0x80#8 :: List.replicate ((119 - bs.length % 64) % 64) 0 ++ beBytes 8 (8 * bs.length)
/-- The SHA-256 digest of a byte string, its first byte in bits 7:0. -/
def sha256 (bs : List Byte) : BitVec 256 :=
  let v := hashBlocks (bs.length / 64 + 2) Hash.init (padded bs)
  BitVec.ofNat 256 (leNat ([v.a, v.b, v.c, v.d, v.e, v.f, v.g, v.h].flatMap (fun w => beBytes 4 w.toNat)))

end Sys2Proof.Machine
end

