-- ==== Sys2Proof/Machine/QueueMem.lean ====
section
/-! DEFINITION. How the queue engine reaches memory, the fields of a packet, and what several package units share: MSI-X messages,
the faulting of a queue, the end of a packet (12_package_launch, R322 to R326; 14_package_host, R373). -/
namespace Sys2Proof.Machine

/-! ## The queue engine's memory (R322, R325; 13_package_memory, R357 to R360) -/

/-- What the queue engine gets: bytes, an absent page, no translation, poisoned data, or a host link that is down. -/
inductive Fetched where
  | got (bs : List Byte)
  | absent (va : Nat)
  | broken
  | poisoned
  | noLink
deriving DecidableEq, Repr

/-- A virtual address of a queue's address space, walked by the queue engine without a TLB (R357, R358). -/
def queueTranslate (s : State) (q va : Nat) (write : Bool) : Trans × State :=
  match walkRoot s q with
  | none => (.bad, s)
  | some root =>
    let (w, l) := walkFrom s 3 root va
    let s := countWalk s w l
    match w with
    | .leaf e size => (leafAccess e va size write, s)
    | .absent => (.absent, s)
    | .poisoned => (.poisoned, s)
    | _ => (.bad, s)
/-- The space 10 address of a byte of host memory. -/
def hostAddress (a : Nat) : W64 := BitVec.ofNat 64 (2 ^ 63 + 5 * 2 ^ 58 + a % 2 ^ 57)
/-- The bytes of a range that lie in its first page. -/
def pagePiece (a n : Nat) : Nat := min n (65536 - a % 65536)
/-- The physical address of an address of a queue: in space 01 (virt), else host memory. -/
def queuePlace (s : State) (q : Nat) (virt : Bool) (a : Nat) (write : Bool) : Trans × State :=
  if virt then queueTranslate s q a write else (.ok (hostAddress a) false, s)
/-- n bytes read from an address, page by page, at home; the last number bounds the pages. -/
def queueRead (s : State) (q : Nat) (virt : Bool) (a n : Nat) : Nat → Fetched × State
  | 0 => (.got [], s)
  | m + 1 =>
    let n1 := pagePiece a n
    if n == 0 then (.got [], s)
    else match queuePlace s q virt a false with
      | (.absent, s) => (.absent a, s)
      | (.bad, s) => (.broken, s)
      | (.poisoned, s) => (.poisoned, s)
      | (.ok pa _, s) =>
        if hostGone s pa then (.noLink, s)
        else if physBad s pa n1 then (.poisoned, countStack s (counterPlace s pa) 5 1)
        else
          let t := countHome s pa n1
          match queueRead t q virt (a + n1) (n - n1) m with
          | (.got b2, t) => (.got (homeRead s pa n1 ++ b2), t)
          | r => r
/-- Bytes written to an address, page by page, at home; what is written before a page that fails stands. -/
def queueWrite (s : State) (q : Nat) (virt : Bool) (a : Nat) (bs : List Byte) : Nat → Fetched × State
  | 0 => (.got [], s)
  | m + 1 =>
    let n1 := pagePiece a bs.length
    if bs.isEmpty then (.got [], s)
    else match queuePlace s q virt a true with
      | (.absent, s) => (.absent a, s)
      | (.bad, s) => (.broken, s)
      | (.poisoned, s) => (.poisoned, s)
      | (.ok pa cmp, s) =>
        if hostGone s pa then (.noLink, s)
        else queueWrite (physHomeWrite s pa (bs.take n1) cmp) q virt (a + n1) (bs.drop n1) m

/-! ## Packets (R323 to R325) -/

/-- n bytes of a packet from a byte on, as a number. -/
def pktField (p : BitVec 1024) (lo n : Nat) : Nat := p.toNat >>> (8 * lo) % 2 ^ (8 * n)
/-- The bytes of a packet. -/
def pktBytes (p : BitVec 1024) : List Byte := leBytes 128 p.toNat
/-- TYPE of a packet. -/
def pktType (p : BitVec 1024) : Nat := pktField p 1 1
/-- FLAGS of a packet. -/
def pktFlags (p : BitVec 1024) : BitVec 8 := BitVec.ofNat 8 (pktField p 4 1)
/-- LOC of a queue: whether its addresses lie in space 01. -/
def queueLoc (q : Queue) : Bool := bitAt q.base 0
/-- The packets of a queue's ring. -/
def ringSize (q : Queue) : Nat := if 4 ≤ bits q.cfg 4 0 && bits q.cfg 4 0 ≤ 16 then 2 ^ bits q.cfg 4 0 else 16
/-- A 64-bit address of space 01 as its 48-bit virtual address. -/
def virtOf (a : Nat) : Option Nat := if a / 2 ^ 48 == 2 ^ 14 then some (a % 2 ^ 48) else none
/-- An address in the space that LOC names. -/
def locAddress (virt : Bool) (a : Nat) : Option Nat := if virt then virtOf a else if a < 2 ^ 57 then some a else none
/-- An address that may lie in space 01 or in host memory, with which of them. -/
def anyAddress (a : Nat) : Option (Bool × Nat) :=
  match virtOf a with
  | some v => some (true, v)
  | none => if a < 2 ^ 57 then some (false, a) else none
/-- The address of the ring slot of an index, in the space of LOC. -/
def slotAddress (q : Queue) (i : Nat) : Option Nat :=
  locAddress (queueLoc q) (q.base.toNat / 128 * 128 + 128 * (i % ringSize q))
/-- The number under which a packet asks for pages. -/
def packetOp (q idx : Nat) : Nat := 2 ^ 40 + 65536 * q + idx
/-- A packet of a queue that is not complete. -/
def packetOf (s : State) (q idx : Nat) : Option Packet :=
  (queueOf s q).packets.find? (fun p => p.idx.toNat == idx && p.status.isNone)
/-- A packet changed. -/
def modPacket (s : State) (q idx : Nat) (f : Packet → Packet) : State :=
  let x := queueOf s q
  setQueue s q { x with packets := x.packets.map (fun p => if p.idx.toNat == idx && p.status.isNone then f p else p) }
/-- The oldest packet of a queue that is not dispatched. -/
def headPacket (q : Queue) : Option Packet := q.packets.find? (fun p => !p.dispatched)
/-- Whether a queue has dispatched work that is not complete. -/
def workLeft (q : Queue) : Bool := q.packets.any (fun p => p.dispatched && p.status.isNone)

/-- STATUS values (R324). -/
def stDone : Nat := 1
def stAborted : Nat := 2
def stFault : Nat := 3
def stRejected : Nat := 4
/-- The CODE of a REJECTED packet whose place can never be found, or that breaks its limits (R324). -/
def rejNoPlace : Nat := 3
def rejBadPacket : Nat := 4
/-- A packet's completion under way, with STATUS and CODE. -/
def complete (s : State) (q idx st code : Nat) : State :=
  schedule s s.now .packetCompletion { evArgs q idx 0 with v := BitVec.ofNat 64 (st + 256 * code) }
/-- An MSI-X message sent on a vector (14_package_host, R373). -/
def sendMsix (s : State) (vec : Nat) : State := { s with pkg := { s.pkg with msix := s.pkg.msix ++ [vec] } }
/-- A queue's MSI-X message. -/
def queueMsix (s : State) (q : Nat) : State := sendMsix s (bits (queueOf s q).cfg 31 16)
/-- A record that names no cause. -/
def noRecord : Record := { w0 := 0, w1 := 0, w2 := 0, w3 := 0 }
/-- A queue FAULTED: nothing more is fetched or dispatched; the host is told by event and vector (R322, R328; 14_package_host, R375). -/
def faultQueue (s : State) (q : Nat) (code : BitVec 8) : State :=
  let x := queueOf s q
  hostEvent (queueMsix (setQueue s q { x with st := .faulted, fcode := code }) q) 6 255 q noRecord
/-- A refused page no longer noted against a packet. -/
def packetDenied (s : State) (q idx : Nat) : Bool := s.pkg.denied.contains (packetOp q idx)
/-- What a packet whose access did not succeed does: it waits for its page or for a host link and its step comes again, or it
completes FAULT: PAGE_FAULT for a refused page or a broken entry, LOCAL_ECC_UE for poisoned data (R325). -/
def stopPacket (s : State) (q idx : Nat) (op : Instr) (f : Fetched) : State :=
  match f with
  | .absent va =>
    if packetDenied s q idx then complete (undeny s (packetOp q idx)) q idx stFault cPageFault.toNat
    else schedule (requestPage s q va (packetOp q idx)) (s.now + 1) op (evArgs q idx 0)
  | .noLink => schedule s (s.now + 1) op (evArgs q idx 0)
  | .poisoned => complete s q idx stFault cEccUe.toNat
  | _ => complete s q idx stFault cPageFault.toNat

end Sys2Proof.Machine
end

