-- ==== Sys2Proof/Machine/Gang.lean ====
section
/-! DEFINITION. Gangs: the seats of a configuration and what placing one writes, what ends it, and how its contexts are saved,
checkpointed, moved and restored (01_encoding, R49 to R51; 07_core_failures, R214 to R218; 08_cluster, R241, R243, R248, R250,
R260; 11_package_cascade, R299, R302 to R304, R321; 12_package_launch, R329 to R342). -/
namespace Sys2Proof.Machine

/-- The configuration that an image's bytes hold, after jfload's checks: the binary form of an image is not in the spec, its
contents are (01_encoding, R49 to R52). -/
opaque imageOf : List Byte → Image

/-! ## Seats -/

/-- The seats of a placement at a region origin. -/
def seatsAt (p : Placement) (x0 y0 : Nat) : List Seat := p.cores.map (fun c => { x := x0 + c.rx, y := y0 + c.ry, core := c })
/-- The logical core whose physical core runs a seat. -/
def seatHost (t : Seat) : Nat × Nat := (t.x - t.core.rx + t.core.hx, t.y - t.core.ry + t.core.hy)
/-- The physical core of a seat, before or after its map entry is written. -/
def seatCore (s : State) (t : Seat) : Nat := ((placeOf s (seatHost t).1 (seatHost t).2).map (fun p => p.1)).getD 0
/-- The context slot of a seat's logical context (12_package_launch, R329). -/
def seatSlot (t : Seat) (c : Nat) : Nat := (t.core.cbase + c) % 4
/-- The physical cores of seats. -/
def seatCores (s : State) (ts : List Seat) : List Nat := (ts.map (seatCore s)).eraseDups
/-- The clusters of seats. -/
def seatClusters (s : State) (ts : List Seat) : List Nat := (ts.map (fun t => clusterKey (seatCore s t))).eraseDups
/-- The logical contexts of seats. -/
def seatCtxs (ts : List Seat) : List Nat := ts.flatMap (fun t => t.core.ctxs.map (fun i => ctxNumber t.x t.y i.c))
/-- The resident contexts of a region slot on its cores: core and slot. -/
def gangSlots (s : State) (n : Nat) : List (Nat × Nat) :=
  (regionOf s n).cores.flatMap (fun k =>
    ((List.range 4).filter (fun c => let x := ctxOf s k c; x.resident && x.region == n)).map (fun c => (k, c)))
/-- Every resident context of a region slot changed. -/
def mapGang (s : State) (n : Nat) (f : Ctx → Ctx) : State :=
  (gangSlots s n).foldl (fun s p => setCtx s p.1 p.2 (f (ctxOf s p.1 p.2))) s
/-- Every core of a region slot changed. -/
def mapCores (s : State) (n : Nat) (f : Core → Core) : State :=
  (regionOf s n).cores.foldl (fun s k => setCore s k (f (coreOf s k))) s

/-! ## Tree and barrier indices (08_cluster, R243) -/

/-- The trees that a seat's router is on. -/
def seatTrees (t : Seat) : List Nat := t.core.trn.map (fun e => e.1)
/-- The barriers that a seat's contexts name. -/
def seatBars (t : Seat) : List Nat := (List.range 16).filter (fun k => t.core.ctxs.any (fun c => bitAt c.bmem k))
/-- The indices that other configurations hold in a cluster, placed or loaded in a shadow plane. -/
def takenIn (s : State) (n cl : Nat) (idx : Seat → List Nat) : List Nat :=
  let of_ := fun (e : Nat × Region) =>
    if e.1 == n || e.2.st == .free then []
    else (e.2.seats ++ (e.2.next.map (fun (x : Shadow) => x.seats)).getD []).filter (fun t => clusterKey (seatCore s t) == cl)
  (s.region.flatMap of_).flatMap idx
/-- The index that each wanted one becomes: itself when free, else the lowest free one; none when too few are free. -/
def renames (limit : Nat) (taken wanted : List Nat) : Option (List (Nat × Nat)) :=
  let kept := (wanted.filter (fun w => !taken.contains w)).map (fun w => (w, w))
  (wanted.filter taken.contains).foldl (fun acc w =>
    match acc with
    | none => none
    | some m =>
      ((List.range limit).find? (fun i => !taken.contains i && !m.any (fun e => e.2 == i))).map (fun i => m ++ [(w, i)])) (some kept)
/-- An index under a renaming. -/
def rename (m : List (Nat × Nat)) (i : Nat) : Nat := ((m.find? (fun e => e.1 == i)).map (fun e => e.2)).getD i
/-- The extension word of a cluster instruction under the renamings of trees and barriers (08_cluster, R257). -/
def renameExt (tm bm : List (Nat × Nat)) (w e : W32) : W32 :=
  if bits w 31 24 != 0xF0 then e
  else match bits e 31 27 with
    | 0 => putBits e 26 23 (rename bm (bits e 26 23))
    | 1 => putBits e 26 23 (rename bm (bits e 26 23))
    | 2 => putBits e 26 22 (rename tm (bits e 26 22))
    | _ => e
/-- Body words with their cluster instructions renamed. -/
def renameBody (tm bm : List (Nat × Nat)) : List W32 → List W32
  | [] => []
  | [w] => [w]
  | w :: e :: r =>
    if 0xC0 ≤ bits w 31 24 then w :: renameExt tm bm w e :: renameBody tm bm r else w :: renameBody tm bm (e :: r)
/-- A seat under the renamings of its cluster. -/
def renameSeat (tm bm : List (Nat × Nat)) (t : Seat) : Seat :=
  let mask := fun (v : W16) => (List.range 16).foldl (fun (a : W16) k => if bitAt v k then a ||| (1#16 <<< rename bm k) else a) 0
  let one := fun (i : ImageCtx) => { i with body := renameBody tm bm i.body, bmem := mask i.bmem }
  { t with core := { t.core with trn := t.core.trn.map (fun e => (rename tm e.1, e.2)), ctxs := t.core.ctxs.map one } }
/-- The seats of a configuration with the indices that they get; none when a cluster has too few (08_cluster, R243). -/
def allocSeats (s : State) (n : Nat) (ts : List Seat) : Option (List Seat) :=
  (seatClusters s ts).foldl (fun acc cl =>
    match acc with
    | none => none
    | some ts =>
      let here := fun (t : Seat) => clusterKey (seatCore s t) == cl
      let mine := ts.filter here
      match renames 32 (takenIn s n cl seatTrees) (mine.flatMap seatTrees).eraseDups,
            renames 16 (takenIn s n cl seatBars) (mine.flatMap seatBars).eraseDups with
      | some tm, some bm => some (ts.map (fun t => if here t then renameSeat tm bm t else t))
      | _, _ => none) (some ts)

/-! ## Cascade groups of a configuration (11_package_cascade, R299, R302, R303) -/

/-- The groups that seats' filters name, each with core, filter number and filter word. -/
def seatFilters (s : State) (ts : List Seat) : List (Nat × Nat × W64) :=
  ts.flatMap (fun t => t.core.cgf.map (fun f =>
    (seatCore s t, f.1, putBits f.2 53 52 (seatSlot t (bits f.2 53 52)))))
/-- The dies of a group's members. -/
def memberDies (fs : List (Nat × Nat × W64)) (g : Nat) : List Nat :=
  ((fs.filter (fun f => bits f.2.2 62 55 == g)).map (fun f => dieKey f.1)).eraseDups
/-- The entries that the configurations in other regions' shadow planes will take. -/
def reservedPlans (s : State) (n : Nat) : List (Nat × W64 × W64) :=
  s.region.flatMap (fun e => if e.1 == n then [] else match e.2.next with | some h => h.plan | none => [])
/-- Whether a group entry is held by a configuration other than that of a region slot, placed or in a shadow plane. -/
def groupTaken (s : State) (n g : Nat) : Bool :=
  let r := regionOf s n
  bitAt (groupOf s g).cfg 63 && !(r.st != .free && bits (groupOf s g).cfg 39 28 == r.cfgid.toNat)
/-- The entries that an image's groups get: group, CFG, BR; none while an entry or a wavelength group is not free. -/
def groupPlan (s : State) (n : Nat) (cfgid : BitVec 12) (img : Image) (ts : List Seat) : Option (List (Nat × W64 × W64)) :=
  let fs := seatFilters s ts
  let dieOfSeat := fun (p : Nat × Nat) =>
    ((ts.find? (fun t => t.core.rx == p.1 && t.core.ry == p.2)).map (fun t => dieKey (seatCore s t))).getD 0
  img.groups.foldl (fun acc g =>
    match acc with
    | none => none
    | some l =>
      let src := dieOfSeat (g.2.2.getD (0, 0))
      let bound := fun (w : Nat) =>
        s.group.any (fun e => groupTaken s n e.1 && bits e.2.cfg 62 57 == src && bits e.2.cfg 56 53 == w) ||
          (reservedPlans s n ++ l).any (fun e => bits e.2.1 62 57 == src && bits e.2.1 56 53 == w)
      match (List.range 16).find? (fun w => !bound w) with
      | none => none
      | some w =>
        if groupTaken s n g.1 || (reservedPlans s n).any (fun e => e.1 == g.1) then none
        else
          let cfg := putBits (putBits (putBits (putBits g.2.1 63 63 1) 62 57 src) 56 53 w) 39 28 cfgid.toNat
          let br := (memberDies fs g.1).foldl (fun (b : W64) d => b ||| (1#64 <<< d)) 0
          some (l ++ [(g.1, cfg, br)])) (some [])
/-- A plan under the number of the configuration that it is for. -/
def planFor (cfgid : BitVec 12) (plan : List (Nat × W64 × W64)) : List (Nat × W64 × W64) :=
  plan.map (fun e => (e.1, putBits e.2.1 39 28 cfgid.toNat, e.2.2))
/-- Whether the branch depths of a plan and of the groups in place keep to a die's pool of 64 entries (R299). -/
def depthsFit (s : State) (n : Nat) (plan : List (Nat × W64 × W64)) : Bool :=
  (List.range 64).all (fun d =>
    let old := (s.group.filter (fun e => groupTaken s n e.1 && bitAt e.2.br d)).map (fun e => bits e.2.cfg 52 50)
    let new := ((reservedPlans s n ++ plan).filter (fun e => bitAt e.2.2 d)).map (fun e => bits e.2.1 52 50)
    old.sum + new.sum ≤ 64)
/-- The entries and splitter entries of a plan written, with every membership's vote at zero (R302, R303, R308). -/
def writeGroups (s : State) (ts : List Seat) (plan : List (Nat × W64 × W64)) : State :=
  let fs := seatFilters s ts
  plan.foldl (fun s e =>
    let s := setGroup s e.1 { Group.reset with cfg := e.2.1, br := e.2.2, since := s.now }
    (memberDies fs e.1).foldl (fun s d =>
      let mine := fs.filter (fun f => bits f.2.2 62 55 == e.1 && dieKey f.1 == d)
      let seg := mine.foldl (fun (v : BitVec 12) f => v ||| (1#12 <<< (clusterKey f.1 % 12))) 0
      let b := { Branch.reset with v := true, seg := seg, nmem := mine.length, votes := mine.map (fun f => (f.1, f.2.1, 0#16, false)) }
      setBranch s d e.1 b) s) s
/-- The groups that a region slot's configuration placed. -/
def gangGroups (s : State) (n : Nat) : List Nat :=
  let r := regionOf s n
  (s.group.filter (fun e => bitAt e.2.cfg 63 && bits e.2.cfg 39 28 == r.cfgid.toNat)).map (fun e => e.1)
/-- A group's entry cleared: its memberships are gone, its CGSENDs that have not launched their last block end; the entry itself is held
while a block is unacknowledged (R302). -/
def clearGroup (s : State) (g : Nat) : State :=
  let x := groupOf s g
  let left := fun (b : Branch) => { b with v := false, seg := 0, nmem := 0, votes := [], buf := b.buf.map (fun e => { e with wait := [], again := [], sent := [] }) }
  let one := fun (e : Nat × Die) =>
    if e.2.branch.any (fun b => b.1 == g) then (e.1, { e.2 with branch := tput e.2.branch g (left (tget e.2.branch Branch.reset g)) }) else e
  let s := { setGroup s g { x with sends := x.sends.filter (fun d => d.lastSeq.isSome), heldCfg := some 0, heldBr := some 0 } with die := s.die.map one }
  if x.seq == x.ackd then dropBranches (setGroup s g Group.reset) g
  else schedule (pokeGroup s g) s.now .groupEntryWriteApply (evArgs g 0 0)
/-- The entries of a configuration cleared with it (R299). -/
def clearGroups (s : State) (n : Nat) : State := (gangGroups s n).foldl clearGroup s

/-! ## Planes and launch states (01_encoding, R15; 02_rule, R53, R57; 03_core_numbers, R86, R93) -/

/-- 64-bit words from an offset. -/
def wordsAt (at_ : Nat) (ws : List W64) : List (Nat × Byte) := placed at_ (ws.flatMap (fun w => leBytes 8 w.toNat))
/-- The bytes of a context's body region and rule table in a plane. -/
def planeBytes (slot : Nat) (i : ImageCtx) : List (Nat × Byte) :=
  let t := 0x4000 + 0x800 * slot
  placed (0x1000 * slot) (i.body.flatMap (fun w => leBytes 4 w.toNat)) ++
    wordsAt t (i.headers.flatMap (fun h => [h.1, h.2])) ++ wordsAt (t + 0x400) i.matrix ++ wordsAt (t + 0x600) i.lits
/-- The planes of the seats of a core. -/
def planeOf (ts : List Seat) : Memory :=
  memStore [] (ts.flatMap (fun t => t.core.ctxs.flatMap (fun i => planeBytes (seatSlot t i.c) i)))
/-- The shadow planes of seats loaded (R331, R335). -/
def loadShadow (s : State) (ts : List Seat) : State :=
  (seatCores s ts).foldl (fun s k =>
    setCore s k { coreOf s k with shadow := planeOf (ts.filter (fun t => seatCore s t == k)) }) s
/-! ## The accumulator map (03_core_numbers, R93) -/

/-- The accumulator that a basin command names. -/
def accNamed (i : Instr) : Option Nat :=
  match i with
  | .mma _ _ _ a _ _ _ _ _ _ _ _ => some a.toNat
  | .mmaz _ _ _ a _ _ _ _ _ _ _ _ => some a.toNat
  | .mmat _ _ _ a _ _ _ _ _ _ _ _ => some a.toNat
  | .mmai8 _ _ _ a _ _ _ _ _ _ _ _ => some a.toNat
  | .mmamx _ _ _ a _ _ _ _ _ _ _ _ => some a.toNat
  | .accrd _ a _ _ _ _ _ => some a.toNat
  | .accwr _ _ a _ _ _ => some a.toNat
  | .accz _ a _ => some a.toNat
  | _ => none
/-- The instructions of a body's words, up to a word that does not decode; the number bounds the words. -/
def bodyInstrs : Nat → List W32 → List Instr
  | 0, _ => []
  | n + 1, ws =>
    match decode ws with
    | .ok (i, r) => i :: bodyInstrs n r
    | .error _ => []
/-- The accumulators that the basin commands of a context name, ascending. -/
def ctxAccs (i : ImageCtx) : List Nat :=
  let named := i.headers.flatMap (fun h =>
    (bodyInstrs 32 ((i.body.drop (bits h.1 10 0)).take (bits h.1 15 11 + 1))).filterMap accNamed)
  (List.range 4).filter named.contains
/-- The contexts of the seats of one core, by slot. -/
def slotCtxs (ts : List Seat) : List (Nat × ImageCtx) :=
  let all := ts.flatMap (fun t => t.core.ctxs.map (fun i => (seatSlot t i.c, i)))
  (List.range 4).flatMap (fun n => all.filter (fun p => p.1 == n))
/-- CORE_AMAP of each slot of a core: the contexts in slot order, and of each the accumulators that it names, take the accumulator slots
from 0 on. -/
def accMaps (ts : List Seat) : List (Nat × W16) :=
  ((slotCtxs ts).foldl (fun (acc : Nat × List (Nat × W16)) p =>
    let mine := (ctxAccs p.2).zipIdx
    let m := mine.foldl (fun (v : W16) a => putBits v (4 * a.1 + 3) (4 * a.1) (8 + (acc.1 + a.2) % 8)) 0
    (acc.1 + mine.length, acc.2 ++ [(p.1, m)])) (0, [])).2
/-- CORE_AMAP of a slot among the maps of its core. -/
def mapOf (maps : List (Nat × W16)) (slot : Nat) : W16 := ((maps.find? (fun m => m.1 == slot)).map (fun m => m.2)).getD 0
/-- Whether the contexts on each physical core of a placement need at most its 8 accumulator slots. -/
def accsFit (p : Placement) : Bool :=
  p.cores.all (fun c =>
    let here := p.cores.filter (fun d => d.hx == c.hx && d.hy == c.hy)
    ((here.flatMap (fun d => d.ctxs)).map (fun i => (ctxAccs i).length)).sum ≤ 8)

/-! ## The rates of bindings (10_die, R283) -/

/-- HI of the crossing of a link that leaves a router by an output port, in ticks; inside a die the band has W = 1 (10_die, R283,
R286). -/
def crossingHi (s : State) (k next out : Nat) : Nat :=
  if dieKey k == dieKey next then 1 + ceilDiv 300 (vfOfCore s next).freq + ceilDiv 100 (vfOfCore s k).freq
  else bits (tget (dieOf s (dieKey k)).band 0 (bandIndex k out)) 15 8
/-- The sum of HI over the crossings of a mesh route, out and back, with their number; the last number bounds the hops. -/
def routeHi (s : State) (bank dst : Nat) : Nat → Nat → Nat × Nat
  | _, 0 => (0, 0)
  | k, fuel + 1 =>
    let out := routePort s k dst bank
    match neighbour k out with
    | none => (0, 0)
    | some next =>
      let (hi, n) := routeHi s bank dst next fuel
      if crosses s k next then (hi + crossingHi s k next out + crossingHi s next k (inputPort out), n + 1) else (hi, n)
/-- The least depth of a binding from one core to another (R283): ⌈fs × sum⌉ + 2, fs in GHz; 1 without a crossing. -/
def leastDepth (s : State) (k dst : Nat) : Nat :=
  let (hi, n) := routeHi s (ofBool (clusterOf s (clusterKey k)).rtAct) dst k 1200
  if n == 0 then 1 else ceilDiv ((vfOfCore s k).freq * hi) 100 + 2
/-- Whether every binding of seats keeps to its rate (R283). -/
def ratesFit (s : State) (ts : List Seat) : Bool :=
  ts.all (fun t => t.core.ctxs.all (fun i => i.binds.all (fun b =>
    let x := (Int.ofNat t.x + b.2.1).toNat
    let y := (Int.ofNat t.y + b.2.2.1).toNat
    match ts.find? (fun u => u.x == x && u.y == y) with
    | some u =>
      let d := leastDepth s (seatCore s t) (seatCore s u)
      d ≤ b.2.2.2.2 && d ≤ 32
    | none => true)))

/-- The launch state of a context, with its accumulator map; st.PRIV for the host's own queues (16_program_rules, R403). -/
def launchCtx (n q : Nat) (t : Seat) (i : ImageCtx) (amap : W16) : Ctx :=
  let bind := fun (v : Vector (Option Binding) 4) (b : Nat × Int × Int × Nat × Nat) =>
    let to_ : Binding := { x := (Int.ofNat t.x + b.2.1).toNat, y := (Int.ofNat t.y + b.2.2.1).toNat, cx := b.2.2.2.1,
                           depth := b.2.2.2.2, credits := b.2.2.2.2 }
    vset v b.1 (some to_)
  { Ctx.reset with
    resident := true, saving := true, lx := t.x, ly := t.y, lc := i.c, region := n, priv := q < 8, amap := amap,
    undo := i.undo &&& 0x00007FFFFE000000
    tm := i.tmask.foldl (fun v p => vset v p.1 p.2) Ctx.reset.tm
    mcls := i.mcls.foldl (fun v p => vset v p.1 p.2) Ctx.reset.mcls
    binds := i.binds.foldl bind Ctx.reset.binds }
/-- The enable bits that a slot's headers give at launch: NOT off (R53). -/
def launchEnables (c : Core) (slot : Nat) : W64 :=
  (List.range 64).foldl (fun (v : W64) i => if bitAt (headerA c slot i) 59 then v else v ||| (1#64 <<< i)) 0
/-- The space 10 address of a place in HBM. -/
def saveAddress (n k c : Nat) : W64 := hbmAddress (65536 * (Config.saveArea (4 * (131072 * n + k) + c) % 25165824))
/-- The checkpoint area of a core. -/
def ckptAddress (n k : Nat) : W64 := hbmAddress (262144 * (Config.ckptArea (131072 * n + k) % 6291456))
/-- The stop log of a region slot. -/
def stopLogAddress (n : Nat) : W64 := hbmAddress (65536 * (Config.stopLog n % 25165824))
/-- A core taking its part of a configuration, in one step: the planes exchange roles, every context takes its launch state, every
accumulator slot its own, data SRAM is zeroed for another queue's configuration and takes the image's data (R331, R335). -/
def seatCoreState (n q : Nat) (ts : List Seat) (c : Core) : Core :=
  let foreign := c.owner != some q
  let maps := accMaps ts
  let ctxs := ts.flatMap (fun t => t.core.ctxs.map (fun i =>
    (seatSlot t i.c, launchCtx n q t i (mapOf maps (seatSlot t i.c)))))
  let data := ts.flatMap (fun t => t.core.data.map (fun d => (256 * t.core.wbase + d.1, d.2)))
  let c := { c with
    active := c.shadow, shadow := c.active
    mem := memStore (if foreign then [] else c.mem) data
    eccUe := if foreign then [] else c.eccUe, eccCorr := if foreign then [] else c.eccCorr
    acc := Vector.replicate 8 AccSlot.reset, bq := [], granted := 0, stepping := false, deliv := none, trets := [], traps := []
    act := BitVec.ofNat 2 ((ctxs.map (fun p => p.1)).foldl min 3), qr := 0, stopped := false, halted := false, owner := some q
    sent := 0, rcvd := 0, cgp := Vector.replicate 2 0, rx := Vector.replicate 8 RxSlot.reset }
  let slots := ctxs.foldl (fun v p => vset v p.1 { p.2 with en := launchEnables c p.1 }) (Vector.replicate 4 Ctx.reset)
  let bmem := ts.foldl (fun (b : W64) t => t.core.ctxs.foldl (fun (b : W64) i =>
    b ||| BitVec.ofNat 64 (i.bmem.toNat * 2 ^ (16 * seatSlot t i.c))) b) 0
  let filters := ts.foldl (fun (v : Vector W64 4) t => t.core.cgf.foldl (fun (v : Vector W64 4) f =>
    vset v f.1 (filterValue 0 (putBits f.2 53 52 (seatSlot t (bits f.2 53 52))))) v) (Vector.replicate 4 0)
  let trn := ts.foldl (fun (v : Vector W16 32) t => t.core.trn.foldl (fun (v : Vector W16 32) e => vset v e.1 e.2) v)
    (Vector.replicate 32 0)
  { c with ctx := slots, bmem := bmem, cgf := filters, trn := trn }
/-- The barriers of seats set up, with the number of member contexts in each cluster (08_cluster, R248). -/
def writeBarriers (s : State) (ts : List Seat) : State :=
  (seatClusters s ts).foldl (fun s cl =>
    let mine := ts.filter (fun t => clusterKey (seatCore s t) == cl)
    (List.range 16).foldl (fun s k =>
      let count := (mine.map (fun t => (t.core.ctxs.filter (fun i => bitAt i.bmem k)).length)).sum
      if count == 0 then s
      else
        let c := clusterOf s cl
        setCluster s cl { c with bar := vset c.bar k { Barrier.reset with v := true, count := count } }) s) s
/-- One side of a pair channel bound, with the partner of its cluster (08_cluster, R250). -/
def bindPair (s : State) (ts : List Seat) (ch : Nat) (a b : Nat × Nat × Nat) : State :=
  let find := fun (p : Nat × Nat × Nat) => ts.find? (fun t => t.core.rx == p.1 && t.core.ry == p.2.1)
  match find a, find b with
  | some t, some u =>
    let cl := clusterKey (seatCore s t)
    let other := clusterKey (seatCore s u)
    let c := clusterOf s cl
    let p := { PairCh.reset with v := true, lx := t.x % 12, ly := t.y % 8, cx := a.2.2 }
    setCluster s cl { c with pairV := true, pairDie := other / 12, pairCl := other % 12 % 3 + 4 * (other % 12 / 3), pch := vset c.pch ch p }
  | _, _ => s
/-- The pair channels of an image bound for one copy of its seats. -/
def writePairs (s : State) (img : Image) (ts : List Seat) : State :=
  img.pairs.foldl (fun s p => bindPair (bindPair s ts p.1 p.2.1 p.2.2) ts p.1 p.2.2 p.2.1) s
/-- The dies whose pinned store a configuration uses (10_die, R291). -/
def pinnedUsers (s : State) (img : Image) (ts : List Seat) (plan : List (Nat × W64 × W64)) : List Nat :=
  let loads := (ts.filter (fun t => img.pins.contains (t.core.rx, t.core.ry))).map (fun t => dieKey (seatCore s t))
  let sends := (plan.filter (fun e => img.pinGroups.contains e.1)).map (fun e => bits e.2.1 62 57)
  (loads ++ sends).eraseDups
/-- A region slot noted among the users of dies' pinned stores, or dropped from all. -/
def setUsers (s : State) (n : Nat) (dies : List Nat) : State :=
  let s := { s with die := s.die.map (fun (e : Nat × Die) => (e.1, { e.2 with users := e.2.users.filter (fun u => u != n) })) }
  dies.foldl (fun s d => setDie s d { dieOf s d with users := n :: (dieOf s d).users }) s
/-- The map entry of a seat: its host's physical core, the fold, the window (R329). -/
def seatEntry (s : State) (fold : Nat) (t : Seat) : W64 :=
  let k := seatCore s t
  BitVec.ofNat 64 (2 ^ 63 + fold * 2 ^ 60 + t.core.cbase % 4 * 2 ^ 58 + k / 256 * 2 ^ 49 + k % 256 * 2 ^ 41 +
    t.core.wbase * 2 ^ 30 + t.core.wsize * 2 ^ 19)
/-- A map entry changed under the drain rule: a source with flits outstanding towards the old place keeps the old binding until they
are acknowledged (08_cluster, R241). -/
def rebind (s : State) (x y : Nat) (e : W64) : State :=
  let old := mapEntry s x y
  let name := 256 * x + y
  let keep := fun (p : Nat × Core) =>
    if bitAt old 63 && outstandingTo p.2 (256 * bits old 57 49 + bits old 48 41) != 0 && !p.2.cmap.any (fun m => m.1 == name) then
      (p.1, { p.2 with cmap := p.2.cmap ++ [(name, old)] })
    else (p.1, { p.2 with mapc := p.2.mapc.filter (fun m => m.1 != name) })
  setMapEntry { s with core := s.core.map keep } x y e
/-- The map entries of a fold written; those that stood before. -/
def foldMap (s : State) (fold : Nat) (ts : List Seat) : State × List (Nat × W64) :=
  if fold == 0 then (s, [])
  else
    let es := ts.map (fun t => (t, seatEntry s fold t))
    let old := ts.map (fun t => (256 * t.x + t.y, mapEntry s t.x t.y))
    (es.foldl (fun s e => rebind s e.1.x e.1.y e.2) s, old)
/-- The map entries that stood before a fold put back. -/
def unfoldMap (s : State) (old : List (Nat × W64)) : State := old.foldl (fun s e => rebind s (e.1 / 256) (e.1 % 256) e.2) s
/-- The areas of seats' cores for a region slot: CORE_SAVE and CORE_CKPT written, the save areas zeroed when the core passes to another
queue; the areas of a gang that is stopped elsewhere stay its own (R331, R340). -/
def writeAreas (s : State) (n q : Nat) (ks : List Nat) : State :=
  ks.foldl (fun s k =>
    let c := coreOf s k
    let save := #v[saveAddress n k 0, saveAddress n k 1, saveAddress n k 2, saveAddress n k 3]
    let s := if c.owner.isNone || c.owner == some q then s
      else save.toList.foldl (fun s a => physHomeWrite s a (List.replicate 65536 0) false) s
    setCore s k { c with save := save, ckpt := ckptAddress n k }) s
/-- A configuration put in place of whatever its cores held: planes already in the shadows are exchanged in, and the shared state of
clusters, dies and the package is written (R331, R335). -/
def swapIn (s : State) (n q : Nat) (img : Image) (ts : List Seat) (plan : List (Nat × W64 × W64)) (dup : Bool) (split : Nat) :
    State :=
  let ks := seatCores s ts
  let here := fun (k : Nat) => ts.filter (fun t => seatCore s t == k)
  let s := ks.foldl (fun (t : State) k => setCore t k (seatCoreState n q (here k) (coreOf t k))) (writeAreas s n q ks)
  let s := writeBarriers s ts
  let s := writePairs s img (ts.take split)
  let s := if dup then writePairs s img (ts.drop split) else s
  setUsers (writeGroups s ts plan) n (pinnedUsers s img ts plan)

/-! ## The end of a configuration -/

/-- The barriers and channels of a region slot's seats no longer in use, and the entries of its routers. -/
def clearShared (s : State) (n : Nat) : State :=
  let r := regionOf s n
  let s := (seatClusters s r.seats).foldl (fun s cl =>
    let mine := r.seats.filter (fun t => clusterKey (seatCore s t) == cl)
    let named := mine.flatMap seatBars
    let (cx, cy) := clusterPlace cl
    let bound := fun (p : PairCh) => r.seats.any (fun t => t.x == 12 * cx + p.lx && t.y == 8 * cy + p.ly)
    let c := clusterOf s cl
    let bar := named.foldl (fun v k => vset v k Barrier.reset) c.bar
    setCluster s cl { c with bar := bar, pch := c.pch.map (fun p => if p.v && bound p then PairCh.reset else p) }) s
  setUsers (clearGroups s n) n []
/-- The sets of a core that belong to its configuration emptied. -/
def emptyCore (c : Core) : Core :=
  { c with
    ctx := Vector.replicate 4 Ctx.reset, bq := [], deliv := none, granted := 0, stepping := false, traps := [], trets := [], bmem := 0
    cgf := Vector.replicate 4 0, rx := Vector.replicate 8 RxSlot.reset, trn := Vector.replicate 32 0, redIn := [], redWait := []
    stopped := false, halted := false, acc := Vector.replicate 8 AccSlot.reset }
/-- A region slot as it is free again: RTIME and HBDL stand (R332; 14_package_host, R380). -/
def freedRegion (r : Region) : Region := { Region.reset with pdl := r.pdl, sweep := r.sweep, rhb := r.rhb }
/-- Whether a context number belongs to seats. -/
def ofSeats (ts : List Seat) (addr : Nat) : Bool := ts.any (fun t => t.x == addr / 1024 && t.y == addr / 4 % 256)
/-- The contexts that a message concerns: the receiver's or the issuer's. -/
def payloadCtx (s : State) (dst : Nat) (p : Payload) : List Nat :=
  match p with
  | .token cx _ t => cx :: (t.src.map (fun b => b.cx)).toList
  | .request r => [r.cx]
  | .reply cx _ _ => [cx]
  | .failed cx _ _ _ _ _ _ _ => [cx]
  | .credit cx _ => [cx]
  | .tret cx _ _ => [cx]
  | .barArrive _ _ cx _ => [cx]
  | .barDone cx _ _ => [cx]
  | .pairHalf ch _ _ _ => [pairCtx s (clusterKey dst) ch]
  | .pairTimeout ch _ => [pairCtx s (clusterKey dst) ch]
  | .pairAbort ch _ => [pairCtx s (clusterKey dst) ch]
  | .record _ r _ _ => [ctxNumber (bits r.w1 47 39) (bits r.w1 38 31) (bits r.w1 30 29)]
  | .partials _ _ _ _ _ _ _ => (coreOf s dst).ctx.toList.map ctxAddr
  | .vote _ k _ _ _ => (coreOf s k).ctx.toList.map ctxAddr
  | .memberAck _ k _ _ => (coreOf s k).ctx.toList.map ctxAddr
  | .branchAck _ _ _ => []
  | .wake _ c => (c.map (fun d => d.cx)).toList
  | .acks _ => []
  | .sluice _ _ => []
  | .still _ _ _ _ => []
  | .ask _ => []
/-- The outstanding counts of sources without flits that are discarded (08_cluster, R237). -/
def uncountFlits (s : State) (fs : List Flit) : State :=
  fs.foldl (fun s f => (ackSources s f).foldl (fun s j => setCore s j (lowerCount f.dst (coreOf s j) f.cls)) s) s
/-- The clear-to-send of a SEND that is discarded: it stands for the next SEND to the same package with the same STAG (15_fabric,
R399). -/
def keptCts (own : Nat) (t : RunStep) : Option FabPacket :=
  if bits t.word 7 0 == 0 && t.cts then
    some { id := t.order, dst := own, src := bits t.word 31 16, fctl := true, bank := false, sched := 0,
           stag := t.word.extractLsb' 128 32, off := 0, body := [], from_ := none }
  else none
/-- Everything of a gang that is under way discarded: its flits and messages, its requests outside the cores, its engine commands and COLLs, its
CGSENDs that have not launched their last block, what waits in its comparators (R342; 11_package_cascade, R302, R321). -/
def dropTraffic (s : State) (n : Nat) : State :=
  let r := regionOf s n
  let mine := ofSeats r.seats
  let gone := s.xops.filter (fun o => mine o.req.cx)
  let ids := gone.map (fun o => o.req.id) ++ (s.pkg.parkedCmds.filter (fun e => mine e.cmd.cx)).map (fun e => e.cmd.id)
  let marks := (gone.filter (fun o => o.copyDone)).map (fun o => o.mark)
  let s := uncountFlits s (s.flits.filter (fun f => (payloadCtx s f.dst f.body).any mine))
  let keepCmd := fun (c : Command) => !mine c.cx
  let parked := fun (c : Cluster) => c.parked.filter (fun i => !ids.contains i)
  let jobs := fun (v : Vector (List CopyJob) 2) => v.map (fun l => l.filter (fun j => keepCmd j.cmd))
  let held := fun (c : Core) => c.hold.filter (fun h => !mine h.2.addr)
  let sends := fun (g : Group) => g.sends.filter (fun d => d.lastSeq.isSome || keepCmd d.cmd)
  let coll := fun (e : Nat × Sched) =>
    let c := e.2
    let c := match c.run with | some (q, _) => if keepCmd q then c else { c with run := none, steps := [], next := 0 } | none => c
    (e.1, { c with waiting := c.waiting.filter (fun w => keepCmd w.1) })
  let ended := fun (e : Nat × Sched) => match e.2.run with | some (q, _) => if keepCmd q then [] else e.2.steps | none => []
  let early := (s.fab.cst.flatMap ended).filterMap (keptCts s.fab.id)
  let die := fun (d : Die) => { d with
    rsvq := d.rsvq.filter (fun j => keepCmd j.cmd), parts := d.parts.filter keepCmd, drops := d.drops.filter keepCmd
    cache := d.cache.map (fun l => { l with out := l.out.filter (fun m => !marks.contains m) }) }
  let p := s.pkg
  let s := { s with
    flits := s.flits.filter (fun f => !(payloadCtx s f.dst f.body).any mine)
    msgs := s.msgs.filter (fun m => !(payloadCtx s m.dst m.body).any mine)
    xops := s.xops.filter (fun o => !mine o.req.cx)
    core := s.core.map (fun (e : Nat × Core) =>
      (e.1, { e.2 with portq := e.2.portq.filter (fun q => !mine q.cx), hold := held e.2 }))
    cluster := s.cluster.map (fun (e : Nat × Cluster) => (e.1, { e.2 with parked := parked e.2, cq := jobs e.2.cq }))
    die := s.die.map (fun (e : Nat × Die) => (e.1, die e.2))
    group := s.group.map (fun (e : Nat × Group) => (e.1, { e.2 with sends := sends e.2, wakes := e.2.wakes.filter keepCmd }))
    pkg := { p with
      parkedCmds := p.parkedCmds.filter (fun e => keepCmd e.cmd)
      xjobs := p.xjobs.filter (fun j => keepCmd j.cmd), migs := p.migs.filter (fun m => keepCmd m.cmd)
      invals := p.invals.filter (fun v => keepCmd v.1) }
    fab := { s.fab with cst := s.fab.cst.map coll, early := s.fab.early ++ early } }
  let s := s.fab.cst.foldl (fun s e => schedule s s.now .collStepStart (evArgs e.1 0 0)) s
  setRegion s n { regionOf s n with exits := [], inflight := [] }
/-- A retirement that waits for a gang that ends without another GBAR completion: nothing holds the logical core any more, and it runs at
once (12_package_launch, R339). -/
def passRetire (s : State) (n : Nat) : State :=
  let r := regionOf s n
  if r.retire.isNone then s
  else schedule (setRegion s n { r with retire := none }) s.now .pkgRetireGo { evArgs 0 0 1 with v := s.pkg.retire }
/-- A region slot and its cores freed. -/
def freeRegion (s : State) (n : Nat) : State :=
  let s := clearShared (passRetire s n) n
  let r := regionOf s n
  let s := mapCores s n emptyCore
  setRegion (unfoldMap s r.unfold) n (freedRegion r)

/-! ## Strays (R334, R335, R350) -/

/-- A stray: Y, X, context, port code, position, whether it is held, and for a block its core and slot. -/
structure Stray where
  y : Nat
  x : Nat
  cx : Nat
  port : Nat
  pos : Nat
  held : Bool
  slot : Option (Nat × Nat)
deriving DecidableEq, Repr

/-- Seats by Y and then X. -/
def insertSeat (t : Seat) : List Seat → List Seat
  | [] => [t]
  | u :: r => if t.y < u.y || (t.y == u.y && t.x < u.x) then t :: u :: r else u :: insertSeat t r
/-- The strays of one context of a seat, by port and position. -/
def ctxStrays (s : State) (t : Seat) (i : ImageCtx) : List Stray :=
  let k := seatCore s t
  let x := ctxOf s k (seatSlot t i.c)
  let addr := ctxNumber t.x t.y i.c
  let one := fun (port pos : Nat) (held : Bool) (slot : Option (Nat × Nat)) =>
    ({ y := t.y, x := t.x, cx := i.c, port := port, pos := pos, held := held, slot := slot } : Stray)
  let ports := (List.range 5).flatMap (fun p =>
    (List.range (vget x.inq p []).length).map (fun j => one (16 + p) j false none) ++
      ((x.ring.zipIdx.filter (fun e => e.1.1 == p)).map (fun e => one (16 + p) e.2 true none)) ++
      (((coreOf s k).hold.filter (fun h => h.1 / 4 == p && h.2.addr == addr)).map (fun _ => one (16 + p) 0 true none)))
  let blocks := (List.range 2).flatMap (fun p =>
    ((List.range 4).filter (fun j =>
      let r := vget (coreOf s k).rx (4 * p + j) RxSlot.reset
      r.st == .full && r.cx == seatSlot t i.c)).map (fun j => one (22 + p) j false (some (k, 4 * p + j))))
  ports ++ blocks
/-- The strays of a region slot in order: Y, X, context, port code, position (R350). -/
def strays (s : State) (n : Nat) : List Stray :=
  ((regionOf s n).seats.foldl (fun l t => insertSeat t l) []).flatMap (fun t => t.core.ctxs.flatMap (ctxStrays s t))
/-- Strays discarded and counted; a block frees its slot, with REL and a vote (R334). -/
def discardStrays (s : State) (n : Nat) : State :=
  let l := strays s n
  let addrs := seatCtxs (regionOf s n).seats
  let s := countPkg s 7 l.length
  let s := l.foldl (fun s t => match t.slot with | some (k, i) => freeSlot s k i | none => s) s
  let s := mapCores s n (fun c => { c with hold := c.hold.filter (fun h => !addrs.contains h.2.addr) })
  mapGang s n (fun x => { x with inq := Vector.replicate 5 [], ring := [], blocks := Vector.replicate 2 [] })

/-! ## Sweeps (R333) -/

/-- Replies that a context still awaits, those of its STATREDs apart. -/
def repliesOut (x : Ctx) : Nat := x.replies - ((vget x.inq 4 []).filter (fun t => bits t.sb 18 13 != 63)).length - x.stats.length
/-- Whether a context counts as idle; one that waits on GBAR only where that is allowed (R333, R334, R351). -/
def ctxIdle (c : Core) (i : Nat) (x : Ctx) (gbar : Bool) : Bool :=
  x.trap.isNone && (x.ended || (x.gbar.isSome && gbar) || (eligible x && (enabledRules c i x).isEmpty)) && x.cpUsed == 0 &&
    repliesOut x == 0 && (x.stats.isEmpty || gbar) && x.outbound.isEmpty && x.pend.all (fun a => !a.read && !a.write) &&
    x.q.toList.all (fun q => q.queued.isEmpty) && x.oldq.isEmpty
/-- Whether a core is idle for its region (R333). -/
def coreIdle (s : State) (n k : Nat) (gbar : Bool) : Bool :=
  let c := coreOf s k
  (List.range 4).all (fun i => let x := vget c.ctx i Ctx.reset; !x.resident || x.region != n || ctxIdle c i x gbar) &&
    c.bq.isEmpty && c.granted == 0 && c.deliv.isNone && c.portq.isEmpty && c.outst.all (fun o => o.2.2 == 0) &&
    c.traps.isEmpty
/-- Whether the hubs of a region are idle: no block unacknowledged, no branch entry in use (R333). -/
def hubsIdle (s : State) (n : Nat) : Bool :=
  (gangGroups s n).all (fun g =>
    let x := groupOf s g
    x.seq == x.ackd && (branchDies x).all (fun d => (branchOf s d g).buf.isEmpty)) && (regionOf s n).exits.isEmpty
/-- The sums of SENT and RCVD over a region's cores. -/
def gangCounts (s : State) (n : Nat) : W64 × W64 :=
  (regionOf s n).cores.foldl (fun (a : W64 × W64) k => (a.1 + (coreOf s k).sent, a.2 + (coreOf s k).rcvd)) (0, 0)

/-! ## What a stop keeps (07_core_failures, R216; 08_cluster, R260) -/

/-- The structured copy of a core's part of a gang. -/
def savedCore (s : State) (n k : Nat) : SavedCore :=
  let c := coreOf s k
  let cs := ((List.range 4).filter (fun i => let x := vget c.ctx i Ctx.reset; x.resident && x.region == n)).map (fun i =>
    (i, vget c.ctx i Ctx.reset))
  { core := k, ctxs := cs, state := c }
/-- A pair channel that stands still: WAIT of a held half as it is (R252). -/
def freezePair (s : State) (cl : Nat) (p : PairCh) : PairCh := if p.held.isSome then { p with frozen := some (pairWait s cl p) } else p
/-- A barrier that stands still: the cycles left to its deadline (R260). -/
def freezeBar (s : State) (cl : Nat) (b : Barrier) : Barrier :=
  match b.deadline with | some d => { b with deadline := none, frozen := some (d - clusterCycles s cl) } | none => b
/-- The structured copy of a gang's shared state (08_cluster, R252, R260; 11_package_cascade, R321). -/
def savedShared (s : State) (n : Nat) : SavedShared :=
  let r := regionOf s n
  let cls := (r.cores.map clusterKey).eraseDups
  let gs := (s.group.filter (fun e => bitAt e.2.cfg 63)).map (fun e => e.1)
  let named := fun (cl : Nat) =>
    ((r.seats.filter (fun t => clusterKey (seatCore s t) == cl)).flatMap seatBars).eraseDups
  let chans : List (Nat × Nat) := cls.flatMap (fun cl => (List.range 16).filterMap (fun ch =>
    if (vget (clusterOf s cl).pch ch PairCh.reset).v && ofSeats r.seats (pairCtx s cl ch) then some (cl, ch) else none))
  { bars := cls.flatMap (fun cl => (named cl).map (fun k => (cl, k, freezeBar s cl (vget (clusterOf s cl).bar k Barrier.reset))))
    pairs := chans.map (fun p => (p.1, p.2, freezePair s p.1 (vget (clusterOf s p.1).pch p.2 PairCh.reset)))
    groups := gs.map (fun g => (g, (groupOf s g).seq))
    fwds := gs.flatMap (fun g => (branchDies (groupOf s g)).map (fun d => (d, g, (branchOf s d g).fwd)))
    filters := r.cores.flatMap (fun k => (List.range 4).map (fun f => (k, f, vget (coreOf s k).cgf f 0)))
    stood := (gangSlots s n).map (fun p =>
      let x := ctxOf s p.1 p.2
      (p.1, p.2, x.tb, x.inq.toList.map List.length))
    gave := [] }
/-- The barriers and pair channels of a gang stand still with it: their deadlines and WAIT do not advance (R252, R260). -/
def freezeShared (s : State) (n : Nat) : State :=
  let h := savedShared s n
  let s := h.bars.foldl (fun s b =>
    let c := clusterOf s b.1
    setCluster s b.1 { c with bar := vset c.bar b.2.1 b.2.2 }) s
  h.pairs.foldl (fun s p => setPair s p.1 p.2.1 p.2.2) s
/-- They go on from where they stood. -/
def thawShared (s : State) (n : Nat) : State :=
  let h := savedShared s n
  let s := h.bars.foldl (fun s b =>
    match b.2.2.frozen with
    | some left =>
      let c := clusterOf s b.1
      let now := clusterCycles s b.1
      let s := setCluster s b.1 { c with bar := vset c.bar b.2.1 { b.2.2 with deadline := some (now + left), frozen := none } }
      schedule s (s.now + vfTicks (vfOfCluster s b.1) left) .bartTimeout (evArgs b.1 b.2.1 0)
    | none => s) s
  h.pairs.foldl (fun s p =>
    match p.2.2.frozen with
    | some w =>
      let s := setPair s p.1 p.2.1 { p.2.2 with since := clusterCycles s p.1 - w, frozen := none }
      schedule s s.now .pairDeadline (evArgs p.1 p.2.1 0)
    | none => s) s
/-- Barriers and pair channels of a gang put back, standing still (R252, R260). -/
def restoreShared (s : State) (h : SavedShared) : State :=
  let s := h.bars.foldl (fun s b =>
    let c := clusterOf s b.1
    setCluster s b.1 { c with bar := vset c.bar b.2.1 b.2.2 }) s
  h.pairs.foldl (fun s p =>
    let c := clusterOf s p.1
    setCluster s p.1 { c with pch := vset c.pch p.2.1 p.2.2 }) s

/-! ## Waking -/

/-- What waits in a core's contexts and queues looked at again. -/
def wakeCore (s : State) (k : Nat) : State :=
  let s := if (coreOf s k).bq.isEmpty then s else schedule s s.now .basinGrant (evArgs (basinOf s k) 0 0)
  (List.range 4).foldl (fun s c =>
    if (ctxOf s k c).resident then
      let s := poke s (ctxAddr (ctxOf s k c))
      (List.range 4).foldl (fun s q => wakeStream s k c q) s
    else s) s
/-- A step scheduled unless the same one is under way. -/
def scheduleOnce (s : State) (due : Nat) (op : Instr) (args : EvArgs) : State :=
  if s.agenda.any (fun p => p.op == op && p.args == args) then s else schedule s due op args
/-- The watchdog of a region looked at (14_package_host, R380). -/
def watch (s : State) (n : Nat) : State :=
  if (regionOf s n).rhb == 0 then s
  else scheduleOnce (scheduleOnce s s.now .watchdogDead (evArgs n 0 0)) s.now .watchdogSlow (evArgs n 0 0)
/-- A beat of a region: CNT and the wall time start again, HST is OK (14_package_host, R380). -/
def beat (s : State) (n : Nat) : State :=
  let s := setRegion s n { regionOf s n with hst := 0, beat := s.now, beatCycles := 0, slowAt := s.now }
  watch s n

end Sys2Proof.Machine
end

