-- ==== Sys2Proof/Machine/Regions.lean ====
section
/-! DEFINITION. What happens to a region slot: its start, its sweeps, the end and the swap of its configuration, gang stop and
resume, superstep boundaries, shrink, retirement and rollback (08_cluster, R252, R260; 11_package_cascade, R321; 12_package_launch,
R332 to R345, R350 to R352). -/
namespace Sys2Proof.Machine

/-! ## Starting and going on -/

/-- A change of a region slot. -/
def modRegion (s : State) (n : Nat) (f : Region → Region) : State := setRegion s n (f (regionOf s n))
/-- The cores of a gang run again; a cluster that stands halted keeps its own (08_cluster, R254). -/
def wakeGang (s : State) (n : Nat) : State :=
  (regionOf s n).cores.foldl (fun s k =>
    let c := coreOf s k
    wakeCore (setCore s k { c with stopped := false, halted := (clusterOf s (clusterKey k)).halt }) k) s
/-- A gang RUNNING: its cores run, its Still tree sweeps from SWEEP ticks on, and its GBAR is looked at (R333, R351). -/
def runGang (s : State) (n : Nat) : State :=
  let s := modRegion s n (fun r => { r with st := .running, stopping := false, sweeping := none, lastSweep := none })
  let s := watch (wakeGang (thawShared s n) n) n
  let s := scheduleOnce s (s.now + (regionOf s n).sweep.toNat) .stillSweep (evArgs n 0 0)
  let s := if (parkedOf s n).isEmpty then s else scheduleOnce s s.now .pfDeadline (evArgs n 0 0)
  scheduleOnce s s.now .gbarCompletion (evArgs n 0 0)
/-- A context whose undo map is empty (R340). -/
def freshUndo (x : Ctx) : Ctx := { x with undo := putBits (putBits x.undo 24 14 0) 13 13 0, undoIdx := [] }
/-- The checkpoint areas of a gang written, undo maps, NORB and RBCNT cleared (R340). -/
def writeCheckpoints (s : State) (n : Nat) : State :=
  let s := mapGang s n freshUndo
  let s := (gangSlots s n).foldl (fun s p =>
    writeArea s p.1 p.2 ((coreOf s p.1).ckpt + BitVec.ofNat 64 (65536 * p.2))) s
  modRegion s n (fun r => { r with norb := false, rbcnt := 0 })
/-- The structured copy of a gang that stands beside its checkpoint areas, taken with them. -/
def keepCheck (s : State) (n : Nat) : State :=
  let check := (regionOf s n).cores.map (savedCore s n)
  let shared := savedShared s n
  modRegion s n (fun r => { r with check := check, shared := some shared })
/-- A configuration in place begins to run: its launch state is its first checkpoint (R340; 14_package_host, R380). -/
def startRegion (s : State) (n : Nat) : State :=
  let s := mapGang s n (fun x => { x with saving := false })
  let s := modRegion s n (fun r => { r with launched := s.now })
  runGang (beat (keepCheck (writeCheckpoints s n) n) n) n

/-! ## Sweeps (R333) -/

/-- The core whose router is the root of a region's Still tree: the first of its cores (DESIGN CHOICE, log entry 103). -/
def stillRoot (r : Region) : Nat := r.cores.headD 0
/-- A sweep request that has reached a core: its next round boundary answers it (R78, R333). -/
def takeAsk (s : State) (id : Nat) : State :=
  match msgOf s id with
  | some ⟨_, _, k, .ask n, _⟩ =>
    let s := dropMsg s id
    setCore s k { coreOf s k with ask := some n }
  | _ => waitMsg s .stillSweep
/-- The requests and answers of a region's sweep that are under way discarded: a region that stops or ends has none. -/
def dropSweep (s : State) (n : Nat) : State :=
  let mine := fun (p : Payload) => match p with | .ask m => m == n | .still m _ _ _ => m == n | _ => false
  let s := uncountFlits s (s.flits.filter (fun f => mine f.body))
  let s := { s with flits := s.flits.filter (fun f => !mine f.body), msgs := s.msgs.filter (fun m => !mine m.body) }
  modRegion (mapCores s n (fun c => { c with ask := none })) n (fun r => { r with sweeping := none, lastSweep := none })
/-- STILL_SWEEP: the root sends a sweep request to every core on CTL, SWEEP ticks after the one before or once that one has all its
answers; the first one follows the first round; a stopped region is not swept; or a request reaches a core (R333, R345). Operand: region
slot; v is 1 for a request that arrives: message. -/
def execStillSweep (s : State) : Outcome :=
  let n := s.ev.x
  let r := regionOf s n
  if s.ev.v == 1 then .next (takeAsk s n)
  else
  let begun := (gangSlots s n).any (fun p => (ctxOf s p.1 p.2).rounds != 0)
  if r.st != .running || r.stopping then .next s
  else if r.sweeping.isSome then .next (again s .stillSweep)
  else if !begun then .next (schedule s (s.now + r.sweep.toNat) .stillSweep s.ev)
  else
    let s := setRegion s n { r with sweeping := some (true, 0, 0, r.cores) }
    let root := stillRoot r
    let t := r.cores.foldl (fun s k => injectFlit s 3 root k root (.ask n)) s
    let t := if r.cores.isEmpty then schedule t s.now .sweepResult (evArgs n 0 0) else t
    .next (schedule t (s.now + r.sweep.toNat) .stillSweep s.ev)

/-! ## The end of a configuration (R334) -/

/-- The number that the next configuration placed takes: the first from the counter on that no slot holds. -/
def newCfgid (s : State) : BitVec 12 :=
  let used := fun (i : BitVec 12) => s.region.any (fun e => e.2.st != .free && e.2.cfgid == i)
  let c := (List.range 4096).map (fun i => s.pkg.cfgidNext + BitVec.ofNat 12 i)
  (c.find? (fun i => !used i)).getD s.pkg.cfgidNext
/-- A quiet configuration ends: strays are discarded, its LAUNCH completes DONE, a LAUNCH that has loaded or is loading a shadow
completes ABORTED, the cores are freed; the slot is ENDED until its LAUNCH is complete (R334). -/
def endRegion (s : State) (n : Nat) : State :=
  let r := regionOf s n
  let s := clearShared (discardStrays (passRetire s n) n) n
  let s := unfoldMap (mapCores s n emptyCore) r.unfold
  let s := complete s r.queue r.pkt.toNat stDone 0
  let s := match r.next with
    | some h => if h.mode == 3 then s else complete s h.queue h.pkt.toNat stAborted 0
    | none => s
  let s := modRegion s n (fun r =>
    { r with st := .ended, cores := [], seats := [], unfold := [], image := none, next := none, loading := false, shadow := false,
             swpend := false, sweeping := none, lastSweep := none, check := [], shared := none, error := none })
  if (packetOf s r.queue r.pkt.toNat).isSome then s else modRegion s n freedRegion

/-! ## The swap (R335, R350) -/

/-- INFO of a STRAY_TOKEN record (R350). -/
def strayInfo (l : List Stray) : W64 :=
  match l with
  | [] => 0
  | t :: _ =>
    BitVec.ofNat 64 (min l.length 2047 * 2 ^ 53 + t.x * 2 ^ 44 + t.y * 2 ^ 36 + t.port * 2 ^ 31 + t.cx * 2 ^ 29 +
      t.pos % 64 * 2 ^ 23 + ofBool t.held * 2 ^ 22)
/-- The cause of a STRAY_TOKEN record: a failed request (R350). -/
def strayCause (l : List Stray) : Cause :=
  { code := cStray, kind := 3, rule := 0, word := 0, opcode := 0xF3, unit := 0, lane := 0, exp := 0, obs := 0, info := strayInfo l }
/-- A swap that met strays fails: SWPEND is cleared, the shadow stays loaded, the contexts stand; the record goes to the context
that issued the CFGSWAP, which it traps even when it has ended, or for MODE 1 to the host (R335, R350). -/
def failSwap (s : State) (n : Nat) (h : Shadow) : State :=
  let r := regionOf s n
  let cause := strayCause (strays s n)
  let s := modRegion s n (fun r => { r with swpend := false, swapper := none })
  let host := fun (s : State) =>
    hostEvent s 3 255 n { w0 := causeWord cause 0 false true, w1 := 0, w2 := 0, w3 := cause.info }
  let s := if h.mode == 1 then
      let s := modRegion s n (fun r => { r with next := some { h with mode := 3 } })
      complete (host s) h.queue h.pkt.toNat stFault cStray.toNat
    else match r.swapper with
      | some (addr, _, _) =>
        match findCtx s addr with
        | some (k, c) =>
          let fm := (ctxOf s k c).fm
          let s := takeTrap s k c fm cause false
          let x := ctxOf s k c
          if x.trap.isNone then setCtx s k c { x with trap := (coreOf s k).ring.head?, trapFm := fm } else s
        | none => host s
      | none => host s
  runGang s n
/-- The shadow configuration put in place of the old one, whose LAUNCH completes DONE; it runs at once, and the tag of a CFGSWAP
from another region is set (R335, R349). -/
def doSwap (s : State) (n : Nat) (h : Shadow) : State :=
  let r := regionOf s n
  let s := complete (clearShared (discardStrays s n) n) r.queue r.pkt.toNat stDone 0
  let id := newCfgid s
  let s := { s with pkg := { s.pkg with cfgidNext := id + 1 } }
  let ks := seatCores s h.seats
  let s := (r.cores.filter (fun k => !ks.contains k)).foldl (fun s k => setCore s k (emptyCore (coreOf s k))) s
  let s := swapIn s n h.queue h.image h.seats (planFor id h.plan) r.dup (h.seats.length / 2)
  let s := modRegion s n (fun r =>
    { r with cfgid := id, queue := h.queue, pkt := h.pkt, image := some h.image, cores := ks, seats := h.seats, next := none,
             shadow := false, swpend := false, discard := false, swapper := none, error := none
             swapped := r.swapper.filter (fun w => !ofSeats r.seats w.1) })
  startRegion s n
/-- The tag of a CFGSWAP from outside a region set as the first round of the new configuration begins (R349). -/
def tellSwapper (s : State) (n : Nat) : State :=
  match (regionOf s n).swapped with
  | some (addr, cid, tag) => completeCommand (modRegion s n (fun r => { r with swapped := none })) addr cid tag
  | none => s
/-- The swap of a quiet region: its strays decide whether it takes place (R335). -/
def swapRegion (s : State) (n : Nat) : State :=
  let r := regionOf s n
  match r.next with
  | some h => if !r.discard && !(strays s n).isEmpty then failSwap s n h else doSwap s n h
  | none => runGang (modRegion s n (fun r => { r with swpend := false })) n

/-- A sweep with all its answers judged: the region is quiet after two sweeps that are all idle with equal sums; then its configuration
ends, or a pending swap begins and takes place with the next of these steps (R333 to R335). -/
def judgeSweep (s : State) (n : Nat) (idle : Bool) (a b : W64) : State :=
  let r := regionOf s n
  let all := idle && hubsIdle s n
  let quiet := all && a == b && r.lastSweep == some (true, a, b)
  let s := setRegion s n { r with sweeping := none, lastSweep := some (all, a, b) }
  if !quiet || r.error.isSome then s
  else if r.swpend then
    let s := mapCores (modRegion s n (fun r => { r with st := .swapping })) n (fun c => { c with stopped := true })
    schedule s s.now .sweepResult (evArgs n 0 0)
  else endRegion s n
/-- An answer of a core that has reached the root: the idle bits are ANDed and the counts summed, and the last answer ends the sweep. -/
def takeAnswer (s : State) (id : Nat) : State :=
  match msgOf s id with
  | some ⟨_, k, _, .still n idle a b, _⟩ =>
    let s := dropMsg s id
    let r := regionOf s n
    match r.sweeping with
    | some (all, x, y, ks) =>
      if !ks.contains k then s
      else
        let left := ks.filter (fun j => j != k)
        let s := setRegion s n { r with sweeping := some (all && idle, x + a, y + b, left) }
        if left.isEmpty then judgeSweep s n (all && idle) (x + a) (y + b) else s
    | none => s
  | _ => waitMsg s .sweepResult
/-- SWEEP_RESULT: an answer of a sweep reaches the root, and with the last the region is judged; or a swap that is due takes place (R333
to R335). Operand: region slot; v is 1 for an answer: message. -/
def execSweepResult (s : State) : Outcome :=
  let n := s.ev.x
  let r := regionOf s n
  if s.ev.v == 1 then .next (takeAnswer s n)
  else if r.st == .swapping then .next (swapRegion s n)
  else
    match r.sweeping with
    | some (idle, a, b, []) => .next (judgeSweep s n idle a b)
    | _ => .next s

/-! ## Superstep boundaries (R340, R351, R352) -/

/-- Whether every context of a gang that has not ended waits at GBAR with its arrival gone, and a sweep finds the gang idle apart
from them with S = R (R351). -/
def gbarReady (s : State) (n : Nat) : Bool :=
  let r := regionOf s n
  let xs := (gangSlots s n).map (fun p => ctxOf s p.1 p.2)
  let gone := fun (x : Ctx) => !x.outbound.any (fun o => match o with | .gbar _ => true | _ => false)
  let (a, b) := gangCounts s n
  r.st == .running && !r.stopping && r.error.isNone && xs.any (fun x => x.gbar.isSome) &&
    xs.all (fun x => x.ended || (x.gbar.isSome && gone x)) && r.cores.all (fun k => coreIdle s n k true) && hubsIdle s n && a == b
/-- The counters that a STATRED names, over the gang (R352). -/
def statValues (s : State) (n kind idx : Nat) : List Nat :=
  let ks := (regionOf s n).cores
  match kind with
  | 0 => (gangSlots s n).map (fun p => (vget (ctxOf s p.1 p.2).cnt idx 0).toNat)
  | 1 => ks.map (fun k => (vget (coreOf s k).cnt (idx - 32) 0).toNat)
  | 2 => ((ks.map clusterKey).eraseDups).map (fun c => (vget (clusterOf s c).cnt idx 0).toNat)
  | _ => ((ks.map dieKey).eraseDups).map (fun d => (vget (dieOf s d).cnt idx 0).toNat)
/-- The replies of the STATREDs of a gang: each with its sum or its maximum as it stands at the completion (R352). -/
def statReplies (s : State) (n : Nat) : State :=
  let one := fun (t : State) (p : Nat × Nat) =>
    let x := ctxOf s p.1 p.2
    let reply := fun (t : State) (q : StatReq) =>
      let vs := statValues s n q.kind q.idx
      let v := if q.max then vs.foldl max 0 else vs.sum
      enqueue t p.1 p.2 4 (replyToken (ctxAddr x) q.rt x.fm false false 0 (BitVec.ofNat 512 (v % 2 ^ 64)))
    let t := x.stats.foldl reply t
    setCtx t p.1 p.2 { ctxOf t p.1 p.2 with stats := [] }
  (gangSlots s n).foldl one s
/-- A context that waits at GBAR goes on, with its tag set (R351). -/
def passGbar (x : Ctx) : Ctx :=
  match x.gbar with
  | some (some t) => { x with gbar := none, tb := x.tb ||| (1#64 <<< t) }
  | some none => { x with gbar := none }
  | none => x

/-! ## Moving cores (08_cluster, R241; 12_package_launch, R338, R339) -/

/-- A core's contexts, memories, areas and basin share put on another core, which keeps its place, its counters, its mesh and the tokens
that it holds. -/
def restoredCore (c sv : Core) : Core :=
  { c with
    ctx := sv.ctx, mem := sv.mem, active := sv.active, shadow := sv.shadow, eccUe := sv.eccUe, eccCorr := sv.eccCorr, act := sv.act
    qr := sv.qr, bwgt := sv.bwgt, bmem := sv.bmem, cgf := sv.cgf, cgp := sv.cgp, rx := sv.rx, pubw := sv.pubw, acc := sv.acc
    bq := sv.bq, granted := 0, stepping := false, deliv := sv.deliv, save := sv.save, ckpt := sv.ckpt, redIn := sv.redIn, redWait := sv.redWait, trn := sv.trn
    sent := sv.sent, rcvd := sv.rcvd, owner := sv.owner, traps := sv.traps, trets := sv.trets, stopped := true, halted := false }
/-- The votes and entries of a die's branches and the arrivals of a cluster's barriers that name a core given to another core. -/
def renameCore (s : State) (k j : Nat) : State :=
  let d := dieOf s (dieKey k)
  let vote := fun (v : Nat × Nat × W16 × Bool) => if v.1 == k then (j, v.2) else v
  let member := fun (m : Nat × Nat) => if m.1 == k then (j, m.2) else m
  let entry := fun (e : BranchEntry) => { e with wait := e.wait.map member, again := e.again.map member, sent := e.sent.map member }
  let s := setDie s (dieKey k) { d with branch := d.branch.map (fun (b : Nat × Branch) =>
    (b.1, { b.2 with votes := b.2.votes.map vote, buf := b.2.buf.map entry })) }
  let cl := clusterOf s (clusterKey k)
  setCluster s (clusterKey k) { cl with bar := cl.bar.map (fun b => { b with members := b.members.map member }) }
/-- The logical cores that a physical core runs. -/
def namesOf (s : State) (k : Nat) : List (Nat × Nat) :=
  (clusterNames (clusterKey k)).filter (fun p => (placeOf s p.1 p.2).map (fun e => e.1) == some k)
/-- A logical core's range moved to a spare core of its cluster, with every logical core that shares its physical core; the router
keeps its place in the trees (R339). -/
def retireCore (s : State) (x y j : Nat) : State :=
  let bind := fun (s : State) (p : Nat × Nat) =>
    let e := mapEntry s p.1 p.2
    rebind s p.1 p.2 (putBits (putBits (putBits e 62 62 0) 57 49 (j / 256)) 48 41 (j % 256))
  let s := countPkg s 9 1
  match placeOf s x y with
  | none => rebind s x y (putBits (putBits (deliveryEntry x y) 57 49 (j / 256)) 48 41 (j % 256))
  | some (k, _) =>
    let old := coreOf s k
    let names := namesOf s k
    let s := setCore s j (restoredCore (coreOf s j) old)
    let s := setCore s k { emptyCore old with trn := old.trn, mem := [], owner := none }
    let s := renameCore (names.foldl bind s) k j
    let to_ := fun (c : Nat) => if c == k then j else c
    let keys := fun {α : Type} (l : List (Nat × α)) => l.map (fun e => (to_ e.1, e.2))
    let shared := fun (h : SavedShared) => { h with filters := keys h.filters, stood := keys h.stood, gave := keys h.gave }
    let swap := fun (e : Nat × Region) =>
      (e.1, { e.2 with
        cores := e.2.cores.map to_, check := e.2.check.map (fun v => { v with core := to_ v.core }), shared := e.2.shared.map shared })
    { s with region := s.region.map swap }
/-- Whether a physical core may take a logical core's place: of the same cluster, unbound, not SUSPECT (R339). -/
def spareOk (s : State) (x y j : Nat) : Bool :=
  x < 288 && y < 256 && j / 256 < 312 && clusterXY j == (x / 12, y / 8) && (namesOf s j).isEmpty &&
    !bitAt (coreOf s j).bucket 31
/-- The end of a retirement in PKG_RETIRE: GO reads 0 again, and FAIL says whether it was refused (R339). -/
def endRetire (s : State) (refused : Bool) : State :=
  { s with pkg := { s.pkg with retire := putBits (putBits s.pkg.retire 63 63 0) 28 28 (ofBool refused) } }
/-- A retirement run; a target that is not fit refuses it (R339). -/
def runRetire (s : State) (x y j : Nat) : State :=
  if spareOk s x y j then endRetire (retireCore s x y j) false else endRetire s true
/-- A retirement asked of a running gang, at its GBAR completion. -/
def retireNow (s : State) (n : Nat) : State :=
  match (regionOf s n).retire with
  | some (x, y, j) => runRetire (modRegion s n (fun r => { r with retire := none })) x y j
  | none => s
/-- The data window of a logical core, with the physical core that holds it. -/
def windowBytes (s : State) (t : Seat) : List Byte :=
  let (base, size) := windowOf s t.x t.y
  memBytes (coreOf s (((placeOf s t.x t.y).map (fun p => p.1)).getD 0)).mem base size
/-- A context that goes on in a folded placement: its accumulators, classes and undo region are the placement's. -/
def foldedCtx (i : ImageCtx) (amap : W16) (x : Ctx) : Ctx :=
  freshUndo { x with
    amap := amap, undo := i.undo &&& 0x00007FFFFE000000
    mcls := i.mcls.foldl (fun v p => vset v p.1 p.2) Ctx.reset.mcls }
/-- The accumulators of a context put where a folded placement maps them. -/
def foldedAcc (amap : W16) (slots : List AccSlot) (v : Vector AccSlot 8) : Vector AccSlot 8 :=
  (List.range 4).foldl (fun v a =>
    if bitAt amap (4 * a + 3) then vset v (bits amap (4 * a + 2) (4 * a)) (slots.getD a AccSlot.reset) else v) v
/-- The saved context of a logical context, with the core it was on. -/
def savedCtx (l : List SavedCore) (addr : Nat) : Option (Core × Ctx) :=
  l.findSome? (fun c => (c.ctxs.find? (fun p => ctxAddr p.2 == addr)).map (fun p => (c.state, p.2)))
/-- A core of a folded placement: its planes, and the contexts, accumulators and windows of the seats that it runs. -/
def foldedCore (ts : List Seat) (old : List SavedCore) (wins : List (Nat × List Byte)) (c : Core) : Core :=
  let ctxs := ts.flatMap (fun t => t.core.ctxs.filterMap (fun i =>
    (savedCtx old (ctxNumber t.x t.y i.c)).map (fun p => (seatSlot t i.c, i, p))))
  let data := ts.flatMap (fun t =>
    let bs := ((wins.find? (fun w => w.1 == 256 * t.x + t.y)).map (fun w => w.2)).getD []
    placed (256 * t.core.wbase) (bs.take (256 * t.core.wsize)))
  let e := emptyCore c
  let maps := accMaps ts
  { e with
    active := planeOf ts, shadow := [], mem := memStore [] data, stopped := true
    act := BitVec.ofNat 2 ((ctxs.map (fun p => p.1)).foldl min 3), qr := 0
    ctx := ctxs.foldl (fun v p => vset v p.1 (foldedCtx p.2.1 (mapOf maps p.1) p.2.2.2)) e.ctx
    acc := ctxs.foldl (fun v p => foldedAcc (mapOf maps p.1) (mappedSlots p.2.2.1 p.2.2.2) v) e.acc
    bmem := ts.foldl (fun (b : W64) t => t.core.ctxs.foldl (fun (b : W64) i =>
      b ||| BitVec.ofNat 64 (i.bmem.toNat * 2 ^ (16 * seatSlot t i.c))) b) 0
    trn := ts.foldl (fun (v : Vector W16 32) t => t.core.trn.foldl (fun (v : Vector W16 32) e => vset v e.1 e.2) v) e.trn
    sent := 0, rcvd := 0 }
/-- The placement of a region's image with a fold. -/
def foldOf (r : Region) (fold : Nat) : Option Placement := r.image.bind (fun i => i.placements.find? (fun p => p.fold == fold))
/-- The seats of a region's fold, with the indices that they get. -/
def foldSeats (s : State) (n : Nat) (p : Placement) : Option (List Seat) :=
  let r := regionOf s n
  allocSeats s n (seatsAt p r.x0 r.y0 ++ (if r.dup then seatsAt p r.dupX r.dupY else []))
/-- A region shrunk into a folded placement: windows and contexts are copied, the core map follows under the drain rule, the cores
that it no longer needs are freed (R338). -/
def shrinkGang (s : State) (n fold : Nat) : State :=
  let r := regionOf s n
  match (foldOf r fold).bind (foldSeats s n) with
  | none => s
  | some ts =>
    let old := r.cores.map (savedCore s n)
    let wins := ts.map (fun t => (256 * t.x + t.y, windowBytes s t))
    let (a, b) := gangCounts s n
    let (s, un) := foldMap s fold ts
    let ks := seatCores s ts
    let s := (r.cores.filter (fun k => !ks.contains k)).foldl (fun s k => setCore s k (emptyCore (coreOf s k))) s
    let s := ks.foldl (fun (s : State) k =>
      setCore s k (foldedCore (ts.filter (fun t => seatCore s t == k)) old wins (coreOf s k))) s
    let s := match ks with | k :: _ => setCore s k { coreOf s k with sent := a, rcvd := b } | [] => s
    let un := if r.unfold.isEmpty then un else r.unfold
    let s := modRegion s n (fun r => { r with fold := fold, cores := ks, seats := ts, unfold := un, victim := none })
    countPkg s 3 1
/-- A shrink asked of a running gang, at its GBAR completion. -/
def shrinkNow (s : State) (n : Nat) : State :=
  match (regionOf s n).victim with
  | some (_, fold) => if fold == 0 then s else keepCheck (writeCheckpoints (shrinkGang s n fold) n) n
  | none => s
/-- What a GBAR completion gives the contexts of a gang after their checkpoints: by core and slot, the tag bits that it sets and the
STATRED replies that it queues (R351, R352). -/
def gavenAt (s t : State) (n : Nat) : List (Nat × Nat × W64 × List Token) :=
  (gangSlots s n).map (fun p =>
    let x := ctxOf s p.1 p.2
    let y := ctxOf t p.1 p.2
    (p.1, p.2, y.tb &&& ~~~x.tb, (vget y.inq 4 []).drop (vget x.inq 4 []).length))
/-- A GBAR completion, in the order of R351: checkpoints, cache lines of the gang's dies dropped, SSTEP, STATRED replies, tags; then
a retirement or a shrink that waited for it, with which a shrunk gang takes its checkpoints anew. -/
def completeGbar (s : State) (n : Nat) : State :=
  let s := keepCheck (writeCheckpoints s n) n
  let s := (((regionOf s n).cores.map dieKey).eraseDups).foldl dropLines s
  let s := modRegion s n (fun r => { r with sstep := r.sstep + 1 })
  let t := mapGang (statReplies s n) n passGbar
  let gave := gavenAt s t n
  let t := modRegion t n (fun r => { r with shared := r.shared.map (fun h => { h with gave := gave }) })
  wakeGang (beat (shrinkNow (retireNow t n) n) n) n
/-- GBAR_COMPLETION: the package barrier of a gang completes once every context has arrived and the gang is idle (R351). Operand:
region slot. -/
def execGbarCompletion (s : State) : Outcome :=
  let n := s.ev.x
  let r := regionOf s n
  if gbarReady s n then .next (completeGbar s n)
  else if r.st == .running && !r.stopping && (gangSlots s n).any (fun p => (ctxOf s p.1 p.2).gbar.isSome) then
    .next (scheduleOnce s (s.now + r.sweep.toNat) .gbarCompletion s.ev)
  else .next s

/-! ## Gang stop (R337) -/

/-- The place of a seat in the stop log: region order, row by row, copy B after copy A (R332). -/
def logIndex (r : Region) (t : Seat) : Nat :=
  if inCopy r false t.x t.y || !r.dup then (t.y - r.y0) * r.w + (t.x - r.x0)
  else r.w * r.h + (t.y - r.dupY) * r.w + (t.x - r.dupX)
/-- The address of a byte of a seat's stop-log entry. -/
def logAddress (r : Region) (t : Seat) (off : Nat) : W64 := r.logb + BitVec.ofNat 64 (4096 * logIndex r t + off)
/-- SENT, RCVD and the round counters of every logical core written to the stop log (R337). -/
def writeStopLog (s : State) (n : Nat) : State :=
  let r := regionOf s n
  r.seats.foldl (fun s t =>
    let k := seatCore s t
    let c := coreOf s k
    let rounds := (List.range 4).flatMap (fun i =>
      let v := if t.core.ctxs.any (fun d => d.c == i) then (ctxOf s k (seatSlot t i)).rounds else 0
      leBytes 8 v.toNat)
    physHomeWrite s (logAddress r t 0) (leBytes 8 c.sent.toNat ++ leBytes 8 c.rcvd.toNat ++ rounds) false) s
/-- The index tables of the undo regions written to the stop log (R341). -/
def writeUndoLog (s : State) (n : Nat) : State :=
  let r := regionOf s n
  r.seats.foldl (fun s t =>
    let k := seatCore s t
    let table := t.core.ctxs.flatMap (fun i =>
      let l := (ctxOf s k (seatSlot t i.c)).undoIdx
      leBytes 2 l.length ++ l.flatMap (leBytes 2))
    physHomeWrite s (logAddress r t 64) table false) s
/-- The cores of a gang stop, and its flits drain for PDL ticks before the scan-out (R337). -/
def beginStop (s : State) (n : Nat) : State :=
  let s := mapCores (noteBeat s n) n (fun c => { c with stopped := true })
  let s := freezeShared (dropSweep s n) n
  let s := modRegion s n (fun r => { r with stopping := true, stopAt := s.now })
  schedule (writeStopLog s n) (s.now + (regionOf s n).pdl.toNat) .gangStopScanOut (evArgs n 0 0)
/-- GANG_STOP: every core of the gang stops at a round boundary; a GBAR completion that is due comes first, a swap waits (R337,
R345); a SLUICE first reaches the Sluice tree, and its reason is kept (08_cluster, R258). Operand: region slot; v is 1 for a SLUICE:
message. -/
def execGangStop (s : State) : Outcome :=
  if s.ev.v == 1 then
    match msgOf s s.ev.x with
    | some ⟨id, _, _, .sluice n reason, _⟩ =>
      .next (schedule (modRegion (dropMsg s id) n (fun r => { r with reason := reason })) s.now .gangStop (evArgs n 0 0))
    | _ => .next (waitMsg s .gangStop)
  else
  let n := s.ev.x
  let r := regionOf s n
  let s := if gbarReady s n then completeGbar s n else s
  if r.st == .swapping then .next (beginStop (modRegion s n (fun r => { r with st := .running })) n)
  else if r.st == .rolling then .next (again s .gangStop)
  else if r.st != .running || r.stopping then .next s
  else .next (beginStop s n)
/-- Whether what a stop lets finish is over: the command that holds the array, the memory port, rows on their way, engine commands,
steps of collectives (06_core_basin, R192; 15_fabric, R399). -/
def drained (s : State) (n : Nat) : Bool :=
  let r := regionOf s n
  let mine := ofSeats r.seats
  let parked := fun (o : XOp) => match o.phase with | .parked _ => true | _ => false
  let behind := fun (c : Command) => s.pkg.parkedCmds.any (fun e => e.cmd.cx == c.cx)
  let ended := fun (c : Command) => !mine c.cx || isParked s c.id || behind c
  let request := fun (p : Payload) => match p with | .request _ => true | _ => false
  r.cores.all (fun k => let c := coreOf s k; c.granted == 0 && c.deliv.isNone && c.portq.isEmpty) &&
    s.xops.all (fun o => parked o || !mine o.req.cx) && s.msgs.all (fun m => !request m.body || !r.cores.contains m.dst) &&
    s.flits.all (fun f => !request f.body || !r.cores.contains f.dst) &&
    s.cluster.all (fun e => e.2.cq.toList.all (fun l => l.all (fun j => ended j.cmd))) &&
    s.die.all (fun e => e.2.rsvq.all (fun j => ended j.cmd)) && s.pkg.xjobs.all (fun j => ended j.cmd) &&
    s.fab.cst.all (fun e => match e.2.run with | some (c, _) => ended c || e.2.steps.isEmpty | none => true)
/-- A token in the network scanned out to the tail of its queue (R337; 07_core_failures, R218). -/
def scanToken (s : State) (f : Flit) : State :=
  match f.body with
  | .token addr port t =>
    match findCtx s addr with
    | some (k, c) =>
      let s := match t.src with | some b => tokenDone s b.cx b.port f.dst | none => s
      enqueue (countReceived s k) k c port t
    | none => s
  | _ => s
/-- What is left in the network for a gang's contexts is taken out: tokens go to their queues in arrival order, everything else is
kept for the resume (R337). -/
def scanNetwork (s : State) (n : Nat) : State :=
  let r := regionOf s n
  let mine := ofSeats r.seats
  let isToken := fun (p : Payload) => match p with | .token _ _ _ => true | _ => false
  let takes := fun (dst : Nat) (p : Payload) => r.cores.contains dst && (payloadCtx s dst p).any mine &&
    (match p with | .vote _ _ _ _ _ => false | .memberAck _ _ _ _ => false | .branchAck _ _ _ => false | .wake _ _ => false | _ => true)
  let fs := s.flits.filter (fun f => takes f.dst f.body)
  let ms := (s.msgs.filter (fun m => takes m.dst m.body)).map (fun m =>
    ({ cls := min (msgClass m.body) 3, src := m.src, dst := m.dst, bank := 0, at_ := m.dst, port := 0, cistern := false,
       reserved := false, body := m.body, orig := m.src, ready := s.now } : Flit))
  let s := uncountFlits s fs
  let s := { s with flits := s.flits.filter (fun f => !takes f.dst f.body), msgs := s.msgs.filter (fun m => !takes m.dst m.body) }
  let s := ((ms ++ fs).filter (fun f => isToken f.body)).foldl scanToken s
  modRegion s n (fun r => { r with inflight := r.inflight ++ (ms ++ fs).filter (fun f => !isToken f.body) })
/-- Where the spill area of a region keeps a logical core's window: after the stop-log entries of all its logical cores (R337). -/
def spillAddress (r : Region) (t : Seat) : W64 :=
  r.logb + BitVec.ofNat 64 (4096 * (r.w * r.h * (if r.dup then 2 else 1)) + 0x60000 * logIndex r t)
/-- Whether a core holds a valid receive filter: its contexts are not evicted (11_package_cascade, R321). -/
def holdsFilter (c : Core) : Bool := c.cgf.toList.any (fun f => bitAt f 63)
/-- The windows of a pre-empted gang copied to the spill area, and its cores freed, those with a valid filter apart (R337;
11_package_cascade, R321). -/
def evictGang (s : State) (n : Nat) : State :=
  let r := regionOf s n
  let s := r.seats.foldl (fun s t => physHomeWrite s (spillAddress r t) (windowBytes s t) false) s
  let ks := r.cores.filter (fun k => !holdsFilter (coreOf s k))
  let saved := ks.map (savedCore s n)
  let s := ks.foldl (fun s k => setCore s k (emptyCore (coreOf s k))) s
  let left := r.cores.filter (fun k => !ks.contains k)
  let s := modRegion s n (fun r => { r with saved := saved, cores := left })
  if left.isEmpty then modRegion (unfoldMap s r.unfold) n (fun r => { r with unfold := [] }) else s
/-- GANG_STOP_SCAN_OUT: after the drain, what is in the network is scanned out, every context's state is written to its save area,
clusters and pairs are kept, and a pre-empted gang leaves its cores (R337; 06_core_basin, R192; 08_cluster, R252, R260). Operand:
region slot. -/
def execGangStopScanOut (s : State) : Outcome :=
  let n := s.ev.x
  if !(regionOf s n).stopping then .next s
  else if !drained s n then .next (again s .gangStopScanOut)
  else
    let s := writeUndoLog (scanNetwork s n) n
    let s := (gangSlots s n).foldl (fun s p => writeArea s p.1 p.2 (vget (coreOf s p.1).save p.2 0)) s
    let held := savedShared s n
    let s := modRegion s n (fun r => { r with held := some held, st := .stopped, stopping := false })
    let r := regionOf s n
    let s := if r.victim.isSome && !r.dead then evictGang s n else s
    if r.dead || !r.pages.isEmpty then .next s else .next (schedule s (s.now + 1000) .gangResume (evArgs n 0 0))

/-! ## Resume (R337, R338; 07_core_failures, R215) -/

/-- Whether a physical core is taken by a region slot other than one. -/
def coreTaken (s : State) (n k : Nat) : Bool :=
  s.region.any (fun e => e.1 != n && e.2.st != .free && e.2.st != .ended && e.2.cores.contains k)
/-- The physical core that the map now gives to a saved core: that of the logical core that ran its seats. -/
def savedPlace (s : State) (n : Nat) (c : SavedCore) : Option Nat :=
  let here := fun (t : Seat) => c.ctxs.any (fun p => p.2.lx == t.x && p.2.ly == t.y)
  match (regionOf s n).seats.find? here with
  | some t => (placeOf s (seatHost t).1 (seatHost t).2).map (fun p => p.1)
  | none => some c.core
/-- Whether every core of a stopped gang is free again. -/
def roomBack (s : State) (n : Nat) : Bool :=
  (regionOf s n).saved.all (fun c => match savedPlace s n c with | some k => !coreTaken s n k | none => false)
/-- The holding registers' and rings' tokens of a restored context replayed into its queues, after those scanned out (R215). -/
def replayRing (x : Ctx) : Ctx :=
  { x with ring := [], inq := x.ring.foldl (fun v t => vset v t.1 (vget v t.1 [] ++ [t.2])) x.inq }
/-- A saved core put on the core that the map gives it; its areas go with it. -/
def restoreCore (n : Nat) (s : State) (c : SavedCore) : State :=
  let j := (savedPlace s n c).getD c.core
  let s := setCore s j (restoredCore (coreOf s j) { c.state with
    ctx := c.ctxs.foldl (fun v p => vset v p.1 p.2) (Vector.replicate 4 Ctx.reset) })
  let move := fun (e : SavedCore) => if e.core == c.core then { e with core := j } else e
  modRegion s n (fun r => { r with cores := r.cores ++ [j], check := r.check.map move })
/-- What has come for a context while its gang was stopped kept behind what its area holds: tag bits set, tokens queued. -/
def keepLater (was : W64 × List Nat) (old x : Ctx) : Ctx :=
  { x with
    tb := x.tb ||| (old.tb &&& ~~~was.1)
    inq := (List.range 5).foldl (fun v p =>
      vset v p (vget x.inq p [] ++ (vget old.inq p []).drop (was.2.getD p 0))) x.inq }
/-- The contexts of a stopped gang read back from their save areas through the memory port (R337; 07_core_failures, R216). -/
def readBack (s : State) (n : Nat) (stood : List (Nat × Nat × W64 × List Nat)) : State :=
  (regionOf s n).cores.foldl (fun s k =>
    let c := coreOf s k
    let slots := (List.range 4).filter (fun i => let x := vget c.ctx i Ctx.reset; x.resident && x.region == n)
    let d := areaCore s (fun i => vget c.save i 0) slots c
    let was := fun (i : Nat) =>
      let x := vget c.ctx i Ctx.reset
      match stood.find? (fun e => e.1 == k && e.2.1 == i) with | some e => e.2.2 | none => (x.tb, x.inq.toList.map List.length)
    let ctx := slots.foldl (fun v i => vset v i (keepLater (was i) (vget c.ctx i Ctx.reset) (vget v i Ctx.reset))) d.ctx
    setCore s k { d with ctx := ctx }) s
/-- The windows of a pre-empted gang copied back from the spill area (R337). -/
def copyBack (s : State) (n : Nat) (seats : List Seat) : State :=
  seats.foldl (fun s t =>
    match placeOf s t.x t.y with
    | some (k, _) =>
      let (base, size) := windowOf s t.x t.y
      let c := coreOf s k
      setCore s k { c with mem := memStore c.mem (placed base (homeRead s (spillAddress (regionOf s n) t) size)) }
    | none => s) s
/-- The tokens that a core holds for a gang's contexts replayed after those of the rings (R215). -/
def replayHeld (s : State) (n : Nat) : State :=
  let mine := fun (h : Held) => (regionOf s n).cores.any (fun k => (slotOf s k h.addr).isSome)
  (regionOf s n).cores.foldl (fun s k =>
    let c := coreOf s k
    let here := c.hold.filter (fun h => mine h.2)
    let s := setCore s k { c with hold := c.hold.filter (fun h => !mine h.2) }
    here.foldl (fun s h => match slotOf s k h.2.addr with | some i => enqueue s k i (h.1 / 4) h.2.tok | none => s) s) s
/-- The watchdog of a region that was stopped goes on from where it stood (14_package_host, R380). -/
def resumeBeat (s : State) (n : Nat) : State :=
  modRegion s n (fun r => { r with beat := r.beat + (s.now - r.stopAt), slowAt := s.now })
/-- A stopped gang back on its rectangle: cores with their windows, contexts from their save areas, rings and holding registers replayed,
clusters, and what waited in the network sent on its way again (R215, R337). -/
def restoreGang (s : State) (n : Nat) : State :=
  let r := regionOf s n
  let s := modRegion s n (fun r => { r with saved := [], held := none, inflight := [], victim := none })
  let s := r.saved.foldl (restoreCore n) s
  let (s, un) := if r.saved.isEmpty || !r.cores.isEmpty then (s, r.unfold) else foldMap s r.fold r.seats
  let s := modRegion s n (fun r => { r with unfold := un })
  let gone := fun (t : Seat) => r.saved.any (fun c => c.ctxs.any (fun p => p.2.lx == t.x && p.2.ly == t.y))
  let s := copyBack s n (r.seats.filter gone)
  let s := readBack s n ((r.held.map (fun h => h.stood)).getD [])
  let s := replayHeld (mapGang s n replayRing) n
  let s := match r.held with | some h => restoreShared s h | none => s
  r.inflight.foldl (fun s f =>
    match payloadCtx s f.dst f.body with
    | a :: _ => sendFlit s f.cls f.src ((coreOfAddr s a).getD f.dst) f.body
    | [] => sendFlit s f.cls f.src f.dst f.body) s
/-- PREEMPT_DEADLINE: no GBAR has completed within PDL ticks, and the victim is gang-stopped and saved whole (R338). Operand: region
slot. -/
def execPreemptDeadline (s : State) : Outcome :=
  let n := s.ev.x
  let r := regionOf s n
  match r.victim with
  | some (q, _) =>
    if r.st != .running || r.stopping then .next s
    else if s.now < r.stopAt + r.pdl.toNat then .next (schedule s (r.stopAt + r.pdl.toNat) .preemptDeadline s.ev)
    else
      let s := countPkg (modRegion s n (fun r => { r with victim := some (q, 0) })) 4 1
      .next (schedule s s.now .gangStop (evArgs n 0 0))
  | none => .next s

/-! ## Retirement (R339) -/

/-- PKG_RETIRE_GO: a target that is not fit sets FAIL; else the retirement runs at the next GBAR completion of the gang that holds
the logical core, or at once (R339). Operands: the value written; z is 1 when its write has set GO. -/
def execPkgRetireGo (s : State) : Outcome :=
  let v := s.ev.v
  let x := bits v 62 54
  let y := bits v 53 46
  let j := 256 * bits v 45 37 + bits v 36 29
  if s.ev.z == 0 && bitAt s.pkg.retire 63 then .next s
  else
    let s := { s with pkg := { s.pkg with retire := putBits ((v &&& 0xFFFFFFFFE0000000) ||| (s.pkg.retire &&& 0x10000000)) 63 63 1 } }
    if !spareOk s x y j then .next (endRetire s true)
    else
      let holds := fun (e : Nat × Region) => e.2.st != .free && e.2.st != .ended && e.2.seats.any (fun t => t.x == x && t.y == y)
      match s.region.find? holds with
      | some (n, _) => .next (modRegion s n (fun r => { r with retire := some (x, y, j) }))
      | none => .next (runRetire s x y j)

/-! ## Rollback (R342) -/

/-- The logged blocks of a gang copied back to their places, each written whole, with no error left in it (R341, R342; 05_core_memory,
R147). -/
def undoBlocks (s : State) (n : Nat) : State :=
  (gangSlots s n).foldl (fun s p =>
    let x := ctxOf s p.1 p.2
    x.undoIdx.zipIdx.foldl (fun s b =>
      let c := coreOf s p.1
      let at_ := 256 * (windowBlock s x + bits x.undo 46 36 + b.2)
      let out := fun (w : Nat) => w < 32 * b.1 || 32 * (b.1 + 1) ≤ w
      setCore s p.1 { c with
        mem := memStore c.mem (placed (256 * b.1) (memBytes c.mem at_ 256))
        eccUe := c.eccUe.filter out, eccCorr := c.eccCorr.filter out }) s) s
/-- A context as its checkpoint area has it, with what the GBAR completion gave it after the checkpoint; counters, chain registers and
ABFT settings keep the values they hold (R342, R351; 06_core_basin, R192; 08_cluster, R260; log entry 39). -/
def rolledCtx (x old : Ctx) (gave : W64 × List Token) : Ctx :=
  { old with
    cnt := x.cnt, chains := x.chains, abftEn := x.abftEn, abftCorr := x.abftCorr, outbound := [], pend := [], cpUsed := 0
    barPend := 0, barTag := Vector.replicate 16 none, barTout := Vector.replicate 16 none, gbar := none, stats := []
    tb := old.tb ||| gave.1, inq := vset old.inq 4 (vget old.inq 4 [] ++ gave.2) }
/-- A core as a rollback leaves it: contexts from their checkpoint areas, basin commands discarded, slots zeroed with type NONE, receive
slots and filters as at the GBAR, a slot filled since then free (06_core_basin, R192; 11_package_cascade, R321). -/
def rolledCore (s : State) (gave : Nat → W64 × List Token) (c : Core) (v : SavedCore) : Core :=
  let at_ := fun (i : Nat) => c.ckpt + BitVec.ofNat 64 (65536 * i)
  let d := areaCore s at_ (v.ctxs.map (fun p => p.1)) { c with
    ctx := v.ctxs.foldl (fun t p => vset t p.1 p.2) c.ctx, act := v.state.act, qr := v.state.qr }
  let ctx := v.ctxs.foldl (fun t p => vset t p.1 (rolledCtx (vget c.ctx p.1 Ctx.reset) (vget d.ctx p.1 Ctx.reset) (gave p.1))) c.ctx
  let slot := fun (i : Nat) =>
    if vget c.fills i 0 == vget v.state.fills i 0 then { vget v.state.rx i RxSlot.reset with pin := false } else RxSlot.reset
  { d with
    ctx := ctx.map (fun x => { x with blocks := x.blocks.map (fun l => l.filter (fun i => (slot i).st != .free)) })
    acc := Vector.replicate 8 AccSlot.reset, bq := [], granted := 0, stepping := false, deliv := none
    redIn := [], redWait := [], splits := [], hold := v.state.hold, traps := [], trets := []
    cgf := Vector.ofFn (fun i => filterValue (vget v.state.cgf i.val 0) (vget c.cgf i.val 0))
    rx := Vector.ofFn (fun i => slot i.val), sent := v.state.sent, rcvd := v.state.rcvd }
/-- The tokens that hold a credit of a binding, in queues, rings and holding registers of a gang. -/
def creditsHeld (s : State) (n addr port : Nat) : Nat :=
  let holds := fun (t : Token) => match t.src with | some b => b.cx == addr && b.port == port | none => false
  let inCtx := (gangSlots s n).flatMap (fun p =>
    let x := ctxOf s p.1 p.2
    x.inq.toList.flatten ++ x.ring.map (fun r => r.2))
  let inHold := (regionOf s n).cores.flatMap (fun k => (coreOf s k).hold.map (fun h => h.2.tok))
  ((inCtx ++ inHold).filter holds).length
/-- The credits of a gang's bindings: what their depth leaves beside the tokens that stand (02_rule, R57). -/
def resetCredits (s : State) (n : Nat) : State :=
  (gangSlots s n).foldl (fun t p =>
    let x := ctxOf s p.1 p.2
    let one := fun (v : Vector (Option Binding) 4) (i : Nat) =>
      match vget x.binds i none with
      | some b => vset v i (some { b with credits := b.depth - creditsHeld s n (ctxAddr x) i })
      | none => v
    setCtx t p.1 p.2 { ctxOf t p.1 p.2 with binds := (List.range 4).foldl one x.binds }) s
/-- The groups with a member in a gang. -/
def memberGroups (s : State) (n : Nat) : List Nat :=
  ((regionOf s n).cores.flatMap (fun k => ((coreOf s k).cgf.toList.filter (fun f => bitAt f 63)).map (fun f => bits f 62 55))).eraseDups
/-- The groups with a member in a gang as at its GBAR: unlaunched blocks, branch entries, the retransmit store and acknowledgements on
their way discarded, SEQ and FWD back, the votes those of the filters (11_package_cascade, R321). -/
def rollGroups (s : State) (n : Nat) (h : SavedShared) : State :=
  let gs := memberGroups s n
  let ack := fun (p : Payload) => match p with | .memberAck g _ _ _ => gs.contains g | .branchAck g _ _ => gs.contains g | _ => false
  let s := uncountFlits s (s.flits.filter (fun f => ack f.body))
  let s := { s with flits := s.flits.filter (fun f => !ack f.body), msgs := s.msgs.filter (fun m => !ack m.body) }
  let s := (h.groups.filter (fun g => gs.contains g.1)).foldl (fun s g =>
    setGroup s g.1 { groupOf s g.1 with seq := g.2, ackd := g.2, sends := [], store := [] }) s
  (h.fwds.filter (fun f => gs.contains f.2.1)).foldl (fun s f =>
    let b := branchOf s f.1 f.2.1
    let vote := fun (v : Nat × Nat × W16 × Bool) =>
      let w := vget (coreOf s v.1).cgf v.2.1 0
      (v.1, v.2.1, w.extractLsb' 16 16, bitAt w 51)
    setBranch s f.1 f.2.1 { b with fwd := f.2.2, buf := [], air := [], fails := [], votes := b.votes.map vote }) s
/-- Barriers of a gang with no arrivals, GEN as at the GBAR; pairs as at the GBAR (08_cluster, R252, R260). -/
def rollShared (s : State) (h : SavedShared) : State :=
  restoreShared s { h with bars := h.bars.map (fun b =>
    (b.1, b.2.1, { b.2.2 with arr := 0, members := [], deadline := none, frozen := none })) }
/-- The clusters of a gang that lost their retention accept again what waited for them, once no gang there has an error to roll back
(08_cluster, R256). -/
def openLost (s : State) (n : Nat) : State :=
  (((regionOf s n).cores.map clusterKey).eraseDups).foldl (fun s cl =>
    if (clusterOf s cl).lost && (clusterOf s cl).rstate == 3 && (regionsIn s cl).all (fun m => (regionOf s m).error.isNone) then openCluster s cl
    else s) s
/-- The rollback of a stopped gang: its traffic discarded, blocks and contexts back, RBCNT and ROLLBACKS raised; for a page fault
PF_ROLLBACK counts instead, and the gang waits for its pages (R342; 13_package_memory, R361). -/
def runRollback (s : State) (n : Nat) (code : BitVec 8) : State :=
  let pf := code == cPageFault
  let s := undoBlocks (dropTraffic s n) n
  let r := regionOf s n
  let gave := fun (k i : Nat) =>
    match (r.shared.map (fun h => h.gave)).getD [] |>.find? (fun e => e.1 == k && e.2.1 == i) with
    | some e => e.2.2
    | none => (0, [])
  let s := r.check.foldl (fun s v => setCore s v.core (rolledCore s (gave v.core) (coreOf s v.core) v)) s
  let s := resetCredits s n
  let s := match r.shared with | some h => rollShared (rollGroups s n h) h | none => s
  let s := if pf then countXl s 3 else countPkg s 5 1
  let s := modRegion s n (fun r => { r with error := none, rbcnt := if pf then r.rbcnt else r.rbcnt + 1 })
  let s := openLost s n
  if (regionOf s n).pages.isEmpty then runGang s n
  else modRegion (noteBeat s n) n (fun r => { r with st := .stopped, stopAt := s.now })
/-- An error that no rollback can undo: the gang is stopped for good, its LAUNCH and its queue fault, the host is told (R342). -/
def escalate (s : State) (n : Nat) (code : BitVec 8) : State :=
  let r := regionOf s n
  let s := beginStop (modRegion s n (fun r => { r with dead := true, error := none, victim := none })) n
  let s := countPkg s 6 1
  faultQueue (complete s r.queue r.pkt.toNat stFault code.toNat) r.queue code
/-- ROLLBACK: an uncorrectable error that a gang has consumed stops its cores and, with the next of these steps, rolls it back; with
NORB set, or three rollbacks in the superstep, it escalates; during a gang stop it is only marked (R342, R345). Operand: region
slot. -/
def execRollback (s : State) : Outcome :=
  let n := s.ev.x
  let r := regionOf s n
  match r.error with
  | none => .next s
  | some code =>
    if r.st == .rolling then .next (runRollback s n code)
    else if r.stopping || r.st == .stopped then .next s
    else if r.st != .running && r.st != .swapping then .next (setRegion s n { r with error := none })
    else if noRollback s n || (3 ≤ r.rbcnt && code != cPageFault) then
      .next (escalate (modRegion s n (fun r => { r with st := .running })) n code)
    else
      let s := mapCores s n (fun c => { c with stopped := true })
      let s := writeUndoLog (writeStopLog (dropSweep s n) n) n
      .next (schedule (modRegion s n (fun r => { r with st := .rolling })) s.now .rollback s.ev)

/-! ## Duplicate placements (R343) -/

/-- COMPARATOR_MISMATCH: counted, and the gang rolls back (R343). Operand: region slot. -/
def execComparatorMismatch (s : State) : Outcome := .next (consumeError (countPkg s 8 1) s.ev.x cCmpMismatch)
/-- COMPARATOR_TIMEOUT: an item that has waited 100 µs without its match counts as a mismatch (R343). Operand: region slot. -/
def execComparatorTimeout (s : State) : Outcome :=
  if (regionOf s s.ev.x).exits.any (fun e => e.since + 100000 ≤ s.now) then
    .next (consumeError (countPkg s 8 1) s.ev.x cCmpMismatch)
  else .next s

end Sys2Proof.Machine
end

