-- ==== Sys2Proof/Machine/Queues.lean ====
section
/-! DEFINITION. Queues: kicks, fetches, the scheduler, the packet types and their completions, and the allocator
(12_package_launch, R322 to R328, R331, R335, R338, R344; 14_package_host, R382, R383). -/
namespace Sys2Proof.Machine

/-! ## Fetching (R322, R323) -/

/-- The scheduler looks at the queues. -/
def pokeQueues (s : State) : State := scheduleOnce s s.now .packetDispatch EvArgs.none
/-- A queue's next fetch. -/
def pokeFetch (s : State) (q : Nat) : State := scheduleOnce s s.now .packetFetch (evArgs q 0 0)
/-- (a - b) mod 2^16. -/
def diff16 (a b : W16) : Nat := (a - b).toNat
/-- A queue's CIDX and RIDX written to the word of PKG_QCPLA; while its page or its host link is not there the write waits, and a refused
page ends it (R322). -/
def writeCpla (s : State) (q : Nat) : State :=
  let x := queueOf s q
  let op := 2 ^ 41 + q
  match locAddress (queueLoc x) x.cpla.toNat with
  | none => s
  | some a =>
    if x.cpla == 0 then s
    else
      let wait := fun (s : State) => scheduleOnce s (s.now + 1) .packetFetch (evArgs q 0 1)
      match queueWrite s q (queueLoc x) a (leBytes 8 (x.cidx.toNat + 65536 * x.ridx.toNat)) 2 with
      | (.absent va, s) => if s.pkg.denied.contains op then undeny s op else wait (requestPage s q va op)
      | (.noLink, s) => wait s
      | (_, s) => s
/-- Whether an earlier write to PKG_QKICK or PKG_QCTL of a queue is still to be taken: the later one stands (R323). -/
def kickBefore (s : State) : Bool :=
  s.agenda.any (fun a => (a.op == .queueKick || a.op == .queueEnable || a.op == .queueOff) && a.args.x == s.ev.x && a.args.z < s.ev.z)
/-- QUEUE_KICK: a kick sets WIDX and restarts a parked fetch, or is ignored and counted in KICK_BAD; a CLOSING or CLOSED queue ignores
it; kicks of a queue are taken in the order in which they were written (R323, R328). Operands: queue, WIDX, its place in that order. -/
def execQueueKick (s : State) : Outcome :=
  let q := s.ev.x
  let x := queueOf s q
  let w := BitVec.ofNat 16 s.ev.y
  if kickBefore s then .next (again s .queueKick)
  else if x.st == .closing || x.st == .closed then .next s
  else if min (ringSize x) 65535 < diff16 w x.cidx then .next (countPkg s 1 1)
  else
    let x := if x.parked then { x with parked := false, rereads := 0 } else x
    .next (pokeFetch (setQueue s q { x with widx := w, kickAt := s.now + 1 }) q)
/-- The base level of a queue (R322). -/
def baseLevel (x : Queue) : Nat := bits x.cfg 11 8
/-- QUEUE_ENABLE: EN of PKG_QCTL, in a state that allows it: indices set, ACTIVE, FCODE clear; a CIDX that changes is written to
PKG_QCPLA (R322). Operands: queue, index, its place among the writes of the queue. -/
def execQueueEnable (s : State) : Outcome :=
  let q := s.ev.x
  let x := queueOf s q
  let i := BitVec.ofNat 16 s.ev.y
  if kickBefore s then .next (again s .queueEnable)
  else if !queueIdle x then .next s
  else
    let s := setQueue s q { x with
      ridx := i, cidx := i, widx := i, st := .active, fcode := 0, elev := baseLevel x, offPend := false, parked := false, rereads := 0
      packets := [], wait := 0 }
    .next (if i == x.cidx then s else writeCpla s q)
/-- A queue DISABLED once it has no dispatched work (R322). -/
def offWhenIdle (s : State) (q : Nat) : State :=
  let x := queueOf s q
  if x.offPend && !workLeft x then setQueue s q { x with st := .disabled, offPend := false, packets := [], wait := 0 } else s
/-- The region slots of packets that are placed and not dispatched, freed. -/
def freeUndispatched (s : State) (q : Nat) : State :=
  ((queueOf s q).packets.filterMap (fun p => if p.dispatched then none else p.placed)).foldl freeRegion s
/-- QUEUE_OFF: OFF of PKG_QCTL: no packet is dispatched any more, and the queue is DISABLED when its dispatched work is done (R322).
Operands: queue; z its place among the writes of the queue. -/
def execQueueOff (s : State) : Outcome :=
  let q := s.ev.x
  if kickBefore s then .next (again s .queueOff)
  else
  let s := freeUndispatched s q
  let x := queueOf s q
  let left := x.packets.filter (fun p => p.dispatched)
  .next (offWhenIdle (setQueue s q { x with offPend := true, packets := left, wait := 0 }) q)
/-- Whether the queue engine may fetch a queue's next packet: up to 4 ahead of dispatch (R323). -/
def mayFetch (x : Queue) : Bool :=
  x.st == .active && !x.offPend && !x.parked && x.widx != x.ridx && (x.packets.filter (fun p => !p.dispatched)).length < 4
/-- A fetch of packet RIDX: taken whole when VALID and SEQ fit, else read again; after the eighth mismatch the queue parks, and a kick
accepted in the same tick is taken after the park and restarts the fetch; a ring that cannot be reached faults the queue (R323, R328,
R345). -/
def fetchPacket (s : State) (q : Nat) (op : Instr) : State :=
  let x := queueOf s q
  match slotAddress x x.ridx.toNat with
  | none => faultQueue s q cPageFault
  | some a =>
    match queueRead s q (queueLoc x) a 128 3 with
    | (.got bs, s) =>
      let b := BitVec.ofNat 1024 (leNat bs)
      if pktField b 0 1 == 0xA5 && pktField b 2 2 == x.ridx.toNat then
        let p : Packet := { idx := x.ridx, bytes := b, dispatched := false, placed := none, status := none, progress := 0,
                            logSlot := none }
        pokeQueues (pokeFetch (setQueue s q { x with ridx := x.ridx + 1, rereads := 0, packets := x.packets ++ [p] }) q)
      else if x.rereads == 7 then
        if x.kickAt == s.now + 1 then pokeFetch (countPkg (setQueue s q { x with rereads := 0 }) 0 1) q
        else countPkg (setQueue s q { x with parked := true, rereads := 0 }) 0 1
      else schedule (setQueue s q { x with rereads := x.rereads + 1 }) (s.now + 1000) .packetRefetch (evArgs q 0 0)
    | (.noLink, s) => schedule s (s.now + 1) op (evArgs q 0 0)
    | (.poisoned, s) => faultQueue s q cEccUe
    | (_, s) => faultQueue s q cPageFault
/-- PACKET_FETCH: the engine fetches packet RIDX (R323); or a word of PKG_QCPLA that could not be written is tried again (R322). Operands:
queue; z is 1 for the word. -/
def execPacketFetch (s : State) : Outcome :=
  let x := queueOf s s.ev.x
  if s.ev.z == 1 then .next (writeCpla s s.ev.x)
  else if mayFetch x && x.rereads == 0 then .next (fetchPacket s s.ev.x .packetFetch) else .next s
/-- PACKET_REFETCH: 1 µs after a mismatch the packet is read again; after the eighth mismatch the queue parks (R323). Operand:
queue. -/
def execPacketRefetch (s : State) : Outcome :=
  let q := s.ev.x
  let x := queueOf s q
  if x.rereads == 0 then .next s
  else if mayFetch x then .next (fetchPacket s q .packetRefetch)
  else .next (setQueue s q { x with rereads := 0 })

/-! ## Packets within their limits (R324, R325) -/

/-- The addresses and lengths of a LAUNCH. -/
def launchMode (p : BitVec 1024) : Nat := pktField p 30 1
def launchSlot (p : BitVec 1024) : Nat := pktField p 28 2
/-- Whether a byte of a packet has only the bits of a mask. -/
def byteIn (p : BitVec 1024) (i mask : Nat) : Bool := pktField p i 1 &&& (255 - mask) == 0
/-- Whether a packet's reserved bits are clear and its fields keep their limits, by type (R324, R325, R328, R393, R394; 14_package_host,
R382). -/
def packetOk (q : Nat) (x : Queue) (p : BitVec 1024) : Bool :=
  let loc := fun (i : Nat) => (locAddress (queueLoc x) (pktField p i 8)).isSome
  let any := fun (i : Nat) => (anyAddress (pktField p i 8)).isSome
  let zero := fun (a n : Nat) => pktField p a n == 0
  let peer := fun (i : Nat) => pktField p i 2 ≤ 1023 || pktField p i 2 == 0xFFFF
  let port := fun (i : Nat) => pktField p i 1 ≤ 47 || pktField p i 1 == 0xFF
  zero 7 1 && byteIn p 4 (if pktType p == 9 then 7 else 3) &&
  match pktType p with
  | 1 =>
    loc 16 && pktField p 24 4 != 0 && byteIn p 31 1 && launchMode p ≤ 2 &&
      (if launchMode p == 0 then launchSlot p == 0xFFFF else launchSlot p < 512) && (pktField p 40 4 == 0 || loc 32)
  | 2 => any 16 && any 24 && 1 ≤ pktField p 32 8 && pktField p 32 8 ≤ 2 ^ 40
  | 3 => pktField p 16 1 ≤ 2 && (if pktField p 16 1 == 0 then pktField p 18 2 < 2048 else loc 24)
  | 4 => loc 16 && byteIn p 32 1
  | 5 => loc 16 && 1 ≤ pktField p 24 2 && pktField p 24 2 ≤ 256
  | 6 =>
    pktField p 16 1 < 64 && pktField p 20 4 % 64 == 0 && pktField p 32 4 % 64 == 0 && (virtOf (pktField p 24 8)).isSome
  | 7 =>
    loc 16 && pktField p 16 8 % 8 == 0 && 1 ≤ pktField p 24 2 && pktField p 24 2 ≤ 48 && zero 26 6 &&
      pktField p 32 8 % 8 == 0 && (zero 32 8 || loc 32)
  | 8 => pktField p 16 1 ≤ 47 && pktField p 17 1 ≤ 2 && peer 18 && port 20 && byteIn p 21 1 && zero 24 104
  | 9 => pktField p 16 2 < 2048 && pktField p 16 2 != q
  | 10 => loc 16 && [0, 1, 2, 3, 4, 5, 6, 7, 8, 9, 10, 11, 12, 13, 14, 15, 16, 17, 18, 19, 20, 21, 22, 23, 24, 25, 26, 27, 28, 29,
      30, 31].any (fun i => pktField p 24 4 == 2 ^ i) && byteIn p 28 1
  | 11 => pktField p 16 2 ≤ 1 && (pktField p 16 2 == 0 || (pktField p 18 2 < 16 && pktField p 20 4 < 32768))
  | _ => false
/-- Whether a TYPE is allocated (R325). -/
def typeKnown (p : BitVec 1024) : Bool := 1 ≤ pktType p && pktType p ≤ 11

/-! ## The head of a queue (R326) -/

/-- An outcome of a packet before its dispatch: STATUS and CODE in its progress. -/
def outcomeOf (st code : Nat) : Nat := 2 + st + 256 * code
/-- The head packet, when its FENCE condition holds (R324, R326). -/
def openHead (x : Queue) : Option Packet :=
  match headPacket x with
  | some p =>
    let before := x.packets.takeWhile (fun r => r.idx != p.idx)
    if bitAt (pktFlags p.bytes) 0 && before.any (fun r => r.status.isNone) then none else some p
  | none => none
/-- Whether a region slot can take the shadow of a LAUNCH now; a slot that holds one, or whose LAUNCH waits to start, makes it wait
(R335). -/
def shadowFree (r : Region) : Bool := (r.next.isNone && !r.shadow && r.st != .loading) || r.st == .free || r.st == .ended
/-- Whether a queue's packet SEQ is complete (R325). -/
def seqComplete (x : Queue) (seq : W16) : Bool := (x.cidx - seq - 1).toNat < 2 ^ 15
/-- Whether the condition of a WAIT holds: of KIND 0 the named queue's packet is complete; of the others the word met the value when it
was last read (R325, R326). -/
def waitHolds (s : State) (p : Packet) : Bool :=
  if pktField p.bytes 16 1 == 0 then
    seqComplete (queueOf s (pktField p.bytes 18 2)) (BitVec.ofNat 16 (pktField p.bytes 20 2))
  else p.progress == 1
/-- The head packet of a queue whose conditions hold (R326). -/
def readyHead (s : State) (q : Nat) : Option Packet :=
  let x := queueOf s q
  if x.st != .active || x.offPend then none
  else match openHead x with
    | none => none
    | some p =>
      if !packetOk q x p.bytes || 2 ≤ p.progress then some p
      else match pktType p.bytes with
        | 1 =>
          if launchMode p.bytes == 0 then (if p.placed.isSome then some p else none)
          else if shadowFree (regionOf s (launchSlot p.bytes)) then some p else none
        | 3 => if waitHolds s p then some p else none
        | _ => some p

/-! ## The RECORD log (R344) -/

/-- The bytes of a queue's address range, or what stands in their way. -/
def rangeBytes (s : State) (q at_ n : Nat) : Fetched × State :=
  let x := queueOf s q
  if n == 0 then (.got [], s)
  else match locAddress (queueLoc x) at_ with
    | some a => queueRead s q (queueLoc x) a n (n / 65536 + 2)
    | none => (.broken, s)
/-- A range's SHA-256 as 32 bytes, or what stands in its way. -/
def rangeDigest (s : State) (q at_ n : Nat) : Fetched × State :=
  match rangeBytes s q at_ n with
  | (.got bs, s) => (.got (leBytes 32 (sha256 bs).toNat), s)
  | r => r
/-- The digests of a LAUNCH's log entry, or what stands in their way; zero for the other types, and for a LAUNCH whose fields break their
limits. -/
def logDigests (s : State) (q : Nat) (p : Packet) : Fetched × State :=
  let b := p.bytes
  if pktType b != 1 || !packetOk q (queueOf s q) b then (.got (List.replicate 64 0), s)
  else match rangeDigest s q (pktField b 16 8) (pktField b 24 4) with
    | (.got one, s) =>
      match if pktField b 40 4 == 0 then (.got (List.replicate 32 0), s) else rangeDigest s q (pktField b 32 8) (pktField b 40 4) with
      | (.got two, s) => (.got (one ++ two), s)
      | r => r
    | r => r
/-- The log entry of a packet that is dispatched, or what stands in its way; with the last entry taken, RECFULL is set and recording
stops (R344). -/
def logPacket (s : State) (q : Nat) (p : Packet) : Fetched × State :=
  let x := queueOf s q
  if !bitAt x.cfg 32 || !x.logOn || x.recfull || x.logEntries ≤ x.logNext then (.got [], s)
  else match locAddress (queueLoc x) x.logBase.toNat with
    | none => (.broken, s)
    | some a =>
      match logDigests s q p with
      | (.got two, s) =>
        let time := dieTime s 0 + (dieOf s 0).off.signExtend 64
        let at_ := a + 256 * x.logNext
        match queueWrite s q (queueLoc x) at_ (pktBytes p.bytes ++ leBytes 8 time.toNat ++ two ++ List.replicate 56 0) 2 with
        | (.got _, s) =>
          let s := setQueue s q { queueOf s q with logNext := x.logNext + 1, recfull := x.logEntries ≤ x.logNext + 1 }
          (.got [], modPacket s q p.idx.toNat (fun r => { r with logSlot := some (queueLoc x, at_) }))
        | r => r
      | r => r
/-- Whether a head packet waits for a page or a host link of its log entry (R325, R344). -/
def logWaits (s : State) (q : Nat) (p : Packet) : Bool :=
  match (logPacket s q p).1 with
  | .absent _ => !packetDenied s q p.idx.toNat
  | .noLink => true
  | _ => false
/-- The head packet that could be dispatched: one that does not wait for its log entry (R325, R326). -/
def dispatchable (s : State) (q : Nat) : Option Packet := (readyHead s q).filter (fun p => !logWaits s q p)
/-- A page that a head packet's log entry needs is asked for (R325). -/
def startLog (s : State) (q : Nat) : State :=
  match readyHead s q with
  | some p =>
    match logPacket s q p with
    | (.absent va, _) => if packetDenied s q p.idx.toNat then s else requestPage s q va (packetOp q p.idx.toNat)
    | _ => s
  | none => s
/-- The completion written into a packet's log entry, or what stands in its way (R344). -/
def logCompletion (s : State) (q : Nat) (p : Packet) (st code : Nat) : Fetched × State :=
  match p.logSlot with
  | some (virt, a) => queueWrite s q virt (a + 200) (leBytes 8 (st + 256 * code)) 2
  | none => (.got [], s)

/-! ## What a head packet needs begun; ageing (R326, R327) -/

/-- What a head packet that is not dispatchable needs begun: the placement of a LAUNCH, the test of a WAIT. -/
def startHead (s : State) (q : Nat) : State :=
  let x := queueOf s q
  if x.st != .active || x.offPend then s
  else match openHead x with
    | some p =>
      if p.progress != 0 || p.placed.isSome || !packetOk q x p.bytes then s
      else if pktType p.bytes == 1 && launchMode p.bytes == 0 && !s.agenda.any (fun a => a.op == .placement && a.args.x == q) then
        scheduleOnce s s.now .launch (evArgs q p.idx.toNat 0)
      else if pktType p.bytes == 3 && pktField p.bytes 16 1 != 0 && !s.agenda.any (fun a => a.op == .waitPoll && a.args.x == q) then
        scheduleOnce s s.now .wait (evArgs q p.idx.toNat 0)
      else s
    | none => s
/-- A queue whose head has become dispatchable begins its wait; one that ages rises after AGE × 1,024 ticks; without a dispatchable head
there is no wait (R327). -/
def beginWait (s : State) (q : Nat) : State :=
  let x := queueOf s q
  if (dispatchable s q).isNone then (if x.wait == 0 then s else setQueue s q { x with wait := 0 })
  else if x.wait == 0 then
    let s := setQueue s q { x with wait := s.now + 1 }
    let age := bits x.cfg 63 48
    if age == 0 || baseLevel x == 15 then s else scheduleOnce s (s.now + 1024 * age) .ageRise (evArgs q 0 0)
  else s
/-- AGE_RISE: a queue whose dispatchable head has waited AGE × 1,024 ticks rises one level, to no more than 14, and starts its wait
again (R327). Operand: queue. -/
def execAgeRise (s : State) : Outcome :=
  let q := s.ev.x
  let x := queueOf s q
  let age := 1024 * bits x.cfg 63 48
  if x.wait == 0 || age == 0 || baseLevel x == 15 then .next s
  else if (dispatchable s q).isNone then .next (setQueue s q { x with wait := 0 })
  else if s.now + 1 < x.wait + age then .next (schedule s (x.wait + age - 1) .ageRise s.ev)
  else if 14 ≤ x.elev then .next s
  else
    let s := countPkg (setQueue s q { x with elev := x.elev + 1, wait := s.now + 1 }) 2 1
    .next (schedule s (s.now + age) .ageRise s.ev)

/-! ## Selection (R327) -/

/-- Of some queues the one that is selected: of the highest level, round robin by number, up to WGT packets a visit (R327). -/
def chooseAmong (s : State) (ready : List Nat) : Option Nat :=
  let top := (ready.map (fun q => (queueOf s q).elev)).foldl max 0
  let level := ready.filter (fun q => (queueOf s q).elev == top)
  let cur := s.pkg.rrQueue
  if level.contains cur && s.pkg.rrCount < max 1 (bits (queueOf s cur).cfg 15 12) then some cur
  else match level.find? (fun q => cur < q) with
    | some q => some q
    | none => level.head?
/-- The queue that is dispatched next: of those whose head packet could be dispatched (R327). -/
def chooseQueue (s : State) : Option Nat :=
  chooseAmong s ((s.queue.map (fun e => e.1)).filter (fun q => (dispatchable s q).isSome))
/-- The round-robin place after a dispatch of a queue. -/
def visit (s : State) (q : Nat) : State :=
  let n := if s.pkg.rrQueue == q && s.pkg.rrCount < max 1 (bits (queueOf s q).cfg 15 12) then s.pkg.rrCount + 1 else 1
  { s with pkg := { s.pkg with rrQueue := q, rrCount := n } }

/-! ## A stopped gang returns (R338) -/

/-- Whether a queue is again the one that the scheduler selects: it would be, were a packet of it dispatchable, among the queues whose
head could be dispatched or is a LAUNCH that waits for room (R327, R338). -/
def queueChosen (s : State) (q : Nat) : Bool :=
  let waits := fun (x : Queue) =>
    match openHead x with
    | some p => pktType p.bytes == 1 && launchMode p.bytes == 0 && p.placed.isNone && p.progress == 0 && x.st == .active && !x.offPend
    | none => false
  let others := s.queue.filter (fun e => e.1 != q && (waits e.2 || (dispatchable s e.1).isSome))
  !others.any (fun e => (queueOf s q).elev < e.2.elev) && chooseAmong s (q :: (others.filter (fun e => !waits e.2)).map (fun e => e.1)) == some q
/-- GANG_RESUME: a stopped region returns once the host has answered the pages that it waits for, room is free and its queue is
selected; a rollback that was marked comes before the first round (R337, R338, R345; 13_package_memory, R361). Operand: region
slot. -/
def execGangResume (s : State) : Outcome :=
  let n := s.ev.x
  let r := regionOf s n
  if r.st != .stopped || r.dead || !r.pages.isEmpty then .next s
  else if !roomBack s n || !queueChosen s r.queue then .next (schedule s (s.now + 1000) .gangResume s.ev)
  else
    let s := resumeBeat (restoreGang s n) n
    if r.error.isSome then .next (schedule (modRegion s n (fun r => { r with st := .running })) s.now .rollback s.ev)
    else .next (runGang s n)

/-! ## Dispatch (R326) -/

/-- A port command of a packet: bytes 16 to 23 of its layout (15_fabric, R393). -/
def portCmdOf (v : Nat) (packet : Option (Nat × W16)) : Nat × PortCmd :=
  (v % 256, { op := v / 2 ^ 8 % 256, peer := v / 2 ^ 16 % 65536, peerPort := v / 2 ^ 32 % 256, cmp := v.testBit 40,
              dark := v / 2 ^ 48 % 65536, packet := packet, cmd := none })
/-- A port command accepted by the fabric unit (15_fabric, R393). -/
def acceptPortCmd (s : State) (port : Nat) (j : PortCmd) : State :=
  let p := portOf s port
  let ev := match j.op with | 0 => Instr.portCmdQuiesce | 1 => Instr.portCmdTrain | _ => Instr.portCmdCycle
  schedule (setPort s port { p with cmds := p.cmds ++ [j] }) s.now ev (evArgs port 0 0)
/-- The work of a packet begun at its dispatch, by type (R325). -/
def startPacket (s : State) (q : Nat) (p : Packet) : State :=
  let idx := p.idx.toNat
  let run := fun (op : Instr) => schedule s s.now op (evArgs q idx 0)
  if 2 ≤ p.progress then complete s q idx ((p.progress - 2) % 256) ((p.progress - 2) / 256)
  else if !packetOk q (queueOf s q) p.bytes then complete s q idx stRejected rejBadPacket
  else match pktType p.bytes with
    | 1 =>
      match launchMode p.bytes with
      | 0 => match p.placed with | some n => startRegion s n | none => s
      | 1 => run .launchSwapAtQuiescence
      | _ => run .launchSwapAtCfgswap
    | 2 => run .copy
    | 3 => complete s q idx stDone 0
    | 4 => run .signal
    | 5 => run .groupload
    | 6 => run .reservoirLoad
    | 7 => run .fabricReconf
    | 8 =>
      let (port, j) := portCmdOf (pktField p.bytes 16 8) (some (q, p.idx))
      acceptPortCmd s port j
    | 9 => run (if bitAt (pktFlags p.bytes) 2 then .destroyForce else .destroy)
    | 10 => run .record
    | _ => run (if pktField p.bytes 16 2 == 0 then .pwrSetCap else .pwrSetFloor)
/-- PACKET_DISPATCH: the scheduler selects a queue and dispatches its head packet; while a packet waits it looks again every
microsecond (R326, R327, R344). -/
def execPacketDispatch (s : State) : Outcome :=
  let qs := s.queue.map (fun e => e.1)
  let s := qs.foldl beginWait (qs.foldl startLog (qs.foldl startHead s))
  let s := match chooseQueue s with
    | some q =>
      match dispatchable s q with
      | some p =>
        let s := visit s q
        let x := queueOf s q
        let s := setQueue s q { x with elev := baseLevel x, wait := 0 }
        let s := modPacket s q p.idx.toNat (fun r => { r with dispatched := true, progress := 0 })
        let s := match logPacket s q p with
          | (.got _, s) => startPacket s q p
          | (f, t) => stopPacket t q p.idx.toNat .packetDispatch f
        pokeQueues (pokeFetch s q)
      | none => s
    | none => s
  let left := s.queue.any (fun e => e.2.st == .active && !e.2.offPend && (headPacket e.2).isSome)
  if left then .next (scheduleOnce s (s.now + 1000) .packetDispatch EvArgs.none) else .next s

/-! ## Completion (R324, R328) -/

/-- CIDX past every packet that is complete with all before it (R326). -/
def advance (x : Queue) : Nat → Queue
  | 0 => x
  | n + 1 =>
    match x.packets with
    | p :: r => if p.idx == x.cidx && p.status.isSome then advance { x with cidx := x.cidx + 1, packets := r } n else x
    | [] => x
/-- A CLOSING queue without dispatched work CLOSED, and the DESTROYs of it complete (R328). -/
def closeWhenIdle (s : State) (q : Nat) : State :=
  let x := queueOf s q
  if x.st == .closing && !workLeft x then
    x.closers.foldl (fun s c => complete s c.1 c.2.1.toNat stDone 0) (setQueue s q { x with st := .closed, closers := [] })
  else s
/-- The slot of a configuration that has ended, freed with its LAUNCH. -/
def freeEnded (s : State) (q : Nat) (idx : W16) : State :=
  { s with region := s.region.map (fun (e : Nat × Region) =>
      if e.2.st == .ended && e.2.queue == q && e.2.pkt == idx then (e.1, freedRegion e.2) else e) }
/-- STATUS and CODE of a packet after its log entry: FAULT where the entry could not be written (R325). -/
def logOutcome (f : Fetched) (st code : Nat) : Nat × Nat :=
  match f with
  | .got _ => (st, code)
  | .poisoned => (stFault, cEccUe.toNat)
  | _ => (stFault, cPageFault.toNat)
/-- Whether what a packet met is a page that the host has not refused (R325). -/
def waitsPage (s : State) (q idx : Nat) (f : Fetched) : Bool := match f with | .absent _ => !packetDenied s q idx | _ => false
/-- The page that a packet met absent asked for (R325). -/
def askPage (s : State) (q idx : Nat) (f : Fetched) : State := match f with | .absent va => requestPage s q va (packetOp q idx) | _ => s
/-- PACKET_COMPLETION: bytes 0 to 7 written as one, the log entry, the vector, CIDX and its word; what waited for the queue's work
goes on; an unallocated TYPE faults the queue (R322, R324, R328, R344). Operands: queue, index; STATUS and CODE. -/
def execPacketCompletion (s : State) : Outcome :=
  let q := s.ev.x
  let idx := s.ev.y
  let again := .next (again s .packetCompletion)
  match packetOf s q idx with
  | none => .next s
  | some p =>
  match logCompletion s q p (bits s.ev.v 7 0) (bits s.ev.v 15 8) with
  | (.noLink, _) => again
  | (f, t) =>
    let x := queueOf s q
    let (st, code) := logOutcome f (bits s.ev.v 7 0) (bits s.ev.v 15 8)
    if waitsPage s q idx f then .next (schedule (askPage s q idx f) (s.now + 1) .packetCompletion s.ev)
    else
    let s := undeny t (packetOp q idx)
    let head := pktField p.bytes 1 4 * 256 + st * 2 ^ 40 + code * 2 ^ 48
    let wrote := match slotAddress x idx with
      | some a => queueWrite s q (queueLoc x) a (leBytes 8 head) 2
      | none => (.broken, s)
    match wrote with
    | (.noLink, _) => again
    | (_, s) =>
      let s := modPacket s q idx (fun r =>
        { r with status := some (BitVec.ofNat 8 st, BitVec.ofNat 8 code), dispatched := true })
      let s := if bitAt (pktFlags p.bytes) 1 then queueMsix s q else s
      let y := queueOf s q
      let z := advance y y.packets.length
      let s := setQueue s q z
      let s := if z.cidx == y.cidx then s else writeCpla s q
      let s := closeWhenIdle (offWhenIdle (freeEnded s q p.idx) q) q
      let s := if typeKnown p.bytes then s else faultQueue s q cIllegalOpcode
      .next (pokeQueues (pokeFetch s q))

/-! ## LAUNCH (R325, R331, R335) -/

/-- The image of a LAUNCH read from memory (R325). -/
def launchImage (s : State) (q : Nat) (p : Packet) : Fetched × State :=
  let x := queueOf s q
  let n := pktField p.bytes 24 4
  match locAddress (queueLoc x) (pktField p.bytes 16 8) with
  | some a => queueRead s q (queueLoc x) a n (n / 65536 + 2)
  | none => (.broken, s)
/-- A head packet's outcome noted; it completes when it is dispatched. -/
def settleHead (s : State) (q idx st code : Nat) : State :=
  pokeQueues (modPacket s q idx (fun p => { p with progress := outcomeOf st code }))
/-- What a head packet whose memory is not there does: it waits for its page or a link, or its outcome is FAULT (R325). -/
def stopHead (s : State) (q idx : Nat) (op : Instr) (f : Fetched) : State :=
  match f with
  | .absent va =>
    if packetDenied s q idx then settleHead (undeny s (packetOp q idx)) q idx stFault cPageFault.toNat
    else schedule (requestPage s q va (packetOp q idx)) (s.now + 1) op (evArgs q idx 0)
  | .noLink => schedule s (s.now + 1) op (evArgs q idx 0)
  | .poisoned => settleHead s q idx stFault cEccUe.toNat
  | _ => settleHead s q idx stFault cPageFault.toNat
/-- Why an image is refused whatever room there is, as STATUS REJECTED's CODE (01_encoding, R51; R325, R331). -/
def imageRefused (s : State) (q : Nat) (img : Image) : Option Nat :=
  let small := img.placements.any (fun p => p.w ≤ 288 && p.h ≤ 256 && img.w ≤ 288 && img.h ≤ 256)
  match img.reject with
  | some c => some c.toNat
  | none =>
    if !img.placements.all accsFit then some 1
    else if img.queue != q then some rejBadPacket
    else if s.pkg.grade < img.grade || !small then some rejNoPlace
    else none
/-- LAUNCH: the head packet of a queue asks for a new region: its image is checked, and then waits for the allocator (R325, R331).
Operands: queue, index. -/
def execLaunch (s : State) : Outcome :=
  let q := s.ev.x
  let idx := s.ev.y
  match headPacket (queueOf s q) with
  | some p =>
    if p.idx.toNat != idx || p.placed.isSome || p.progress != 0 || pktType p.bytes != 1 || launchMode p.bytes != 0 then .next s
    else match launchImage s q p with
      | (.got bs, s) =>
        match imageRefused s q (imageOf bs) with
        | some c => .next (settleHead s q idx stRejected c)
        | none => .next (scheduleOnce s s.now .placement (evArgs q 0 0))
      | (f, s) => .next (stopHead s q idx .launch f)
  | none => .next s

/-! ## The allocator (R331, R338) -/

/-- The physical core of a logical core that may be taken: bound, not SUSPECT and free (R331). -/
def freeCore (s : State) (x y : Nat) : Option Nat :=
  match placeOf s x y with
  | some (k, _) =>
    if bitAt (coreOf s k).bucket 31 || s.region.any (fun e => e.2.st != .free && e.2.st != .ended && e.2.cores.contains k) then none
    else some k
  | none => none
/-- Whether a logical core's name belongs to a region that stands on cores. -/
def nameTaken (s : State) (x y : Nat) : Bool :=
  s.region.any (fun e => e.2.st != .free && e.2.st != .ended && !e.2.cores.isEmpty && e.2.seats.any (fun t => t.x == x && t.y == y))
/-- Whether a placement fits with its origin at a logical core, outside a rectangle that the other copy takes. -/
def fitsAt (s : State) (img : Image) (p : Placement) (x0 y0 : Nat) (other : Option (Nat × Nat)) : Bool :=
  let apart := match other with
    | some (u, v) => x0 + img.w ≤ u || u + img.w ≤ x0 || y0 + img.h ≤ v || v + img.h ≤ y0
    | none => true
  apart &&
    (List.range p.h).all (fun j => (List.range p.w).all (fun i => (freeCore s (x0 + i) (y0 + j)).isSome)) &&
    (List.range img.h).all (fun j => (List.range img.w).all (fun i => !nameTaken s (x0 + i) (y0 + j)))
/-- The origin of a placement: of the rectangles that fit the one with the lowest Y, then the lowest X (R331). -/
def findOrigin (s : State) (img : Image) (p : Placement) (other : Option (Nat × Nat)) : Option (Nat × Nat) :=
  (List.range (257 - max p.h img.h)).findSome? (fun y =>
    ((List.range (289 - max p.w img.w)).find? (fun x => fitsAt s img p x y other)).map (fun x => (x, y)))
/-- A placement with its origin, and the second one of a DUP (R331, R343). -/
def findPlace (s : State) (img : Image) (dup : Bool) (p : Placement) : Option (Placement × (Nat × Nat) × (Nat × Nat)) :=
  match findOrigin s img p none with
  | none => none
  | some a => if dup then (findOrigin s img p (some a)).map (fun b => (p, a, b)) else some (p, a, (0, 0))
/-- M3 extended with a configuration image's digest (14_package_host, R383). -/
def measure (s : State) (n : Nat) (digest : BitVec 256) : State :=
  let m := vget s.pkg.meas n 0
  let v := sha256 (leBytes 32 m.toNat ++ leBytes 32 digest.toNat)
  { s with pkg := { s.pkg with meas := vset s.pkg.meas n v } }
/-- A configuration placed in a free region slot: the map of a fold, shadow planes, areas, shared entries; its contexts wait for
the dispatch of the LAUNCH (R331). -/
def placeRegion (s : State) (q : Nat) (idx : W16) (img : Image) (dup : Bool) (p : Placement) (a b : Nat × Nat) (ts : List Seat)
    (plan : List (Nat × W64 × W64)) (n : Nat) (digest : BitVec 256) : State :=
  let id := newCfgid s
  let s := measure { s with pkg := { s.pkg with cfgidNext := id + 1 } } 3 digest
  let (s, un) := foldMap s p.fold ts
  let ks := seatCores s ts
  let s := modRegion s n (fun r => { freedRegion r with
    st := .loading, x0 := a.1, y0 := a.2, w := img.w, h := img.h, fold := p.fold, cfgid := id, queue := q, pkt := idx, dup := dup
    dupX := b.1, dupY := b.2, image := some img, cores := ks, seats := ts, unfold := un, logb := stopLogAddress n })
  let s := swapIn (loadShadow s ts) n q img ts (planFor id plan) dup (if dup then ts.length / 2 else ts.length)
  modPacket s q idx.toNat (fun r => { r with placed := some n, progress := 1 })
/-- The placements of an image in the order in which they are tried: fat, folded 2 ways, folded 4 ways (R331). -/
def tryOrder (img : Image) : List Placement := (List.range 3).flatMap (fun f => img.placements.filter (fun p => p.fold == f))
/-- The victim of a LAUNCH that finds no room: of the running regions whose queue's level is lower, the lowest level, then the most
recent launch (R338). -/
def victimOf (s : State) (level : Nat) : Option Nat :=
  let c := (s.region.filter (fun e => e.2.st == .running && !e.2.stopping && e.2.victim.isNone && e.2.error.isNone &&
    (queueOf s e.2.queue).elev < level)).map (fun e => (e.1, (queueOf s e.2.queue).elev, e.2.launched))
  let better := fun (a b : Nat × Nat × Nat) => a.2.1 < b.2.1 || (a.2.1 == b.2.1 && b.2.2 < a.2.2)
  (c.foldl (fun acc e => match acc with | some b => if better e b then some e else some b | none => some e)
    (none : Option (Nat × Nat × Nat))).map (fun e => e.1)
/-- Pre-emption: a victim whose fold frees enough cores shrinks at its next GBAR completion, else it is gang-stopped (R338). -/
def preempt (s : State) (q need : Nat) : State :=
  if s.region.any (fun e => e.2.victim.isSome && e.2.st == .running) then s
  else match victimOf s (queueOf s q).elev with
    | none => s
    | some n =>
      let r := regionOf s n
      let hosts := fun (p : Placement) => (if r.dup then 2 else 1) * p.w * p.h
      let folds := ((r.image.map (fun i => i.placements)).getD []).filter (fun p =>
        r.fold < p.fold && need + hosts p ≤ r.cores.length && !r.cores.any (fun k => holdsFilter (coreOf s k)))
      match folds with
      | p :: _ =>
        let s := setRegion s n { r with victim := some (q, p.fold), stopAt := s.now }
        schedule s (s.now + r.pdl.toNat) .preemptDeadline (evArgs n 0 0)
      | [] => schedule (countPkg (setRegion s n { r with victim := some (q, 0) }) 4 1) s.now .gangStop (evArgs n 0 0)
/-- PLACEMENT: the allocator places the LAUNCH at the head of a queue on the first placement that fits; with no room it waits and
pre-empts (R331, R338). Operand: queue. -/
def execPlacement (s : State) : Outcome :=
  let q := s.ev.x
  let x := queueOf s q
  match headPacket x with
  | some p =>
    if x.st != .active || x.offPend || pktType p.bytes != 1 || launchMode p.bytes != 0 || p.placed.isSome || p.progress != 0 ||
      !packetOk q x p.bytes then .next s
    else match launchImage s q p with
      | (.got bs, s) =>
        let img := imageOf bs
        let dup := pktField p.bytes 31 1 == 1
        let later := fun (s : State) => schedule s (s.now + 1000) .placement s.ev
        match imageRefused s q img, (List.range 512).find? (fun n => (regionOf s n).st == .free) with
        | some c, _ => .next (settleHead s q p.idx.toNat stRejected c)
        | none, none => .next (later s)
        | none, some n =>
          match (tryOrder img).findSome? (findPlace s img dup) with
          | none =>
            let need := ((img.placements.map (fun p => p.w * p.h)).foldl min (288 * 256)) * (if dup then 2 else 1)
            .next (later (preempt s q need))
          | some (pl, a, b) =>
            let ts := seatsAt pl a.1 a.2 ++ (if dup then seatsAt pl b.1 b.2 else [])
            match allocSeats s n ts with
            | none => .next (later s)
            | some ts =>
              match groupPlan s n 0 img ts with
              | none => .next (later s)
              | some plan =>
                if depthsFit s n plan && ratesFit s ts then
                  .next (pokeQueues (placeRegion s q p.idx img dup pl a b ts plan n (sha256 bs)))
                else .next (settleHead s q p.idx.toNat stRejected 2)
      | (_, s) => .next (schedule s (s.now + 1000) .launch (evArgs q p.idx.toNat 0))
  | none => .next s

/-! ## Shadow loads (R335) -/

/-- A LAUNCH with MODE 1 or 2: its image must fit the region's extent and placement; its shadow load begins (R335). -/
def loadNext (s : State) (op : Instr) (mode : Nat) : State :=
  let q := s.ev.x
  let idx := s.ev.y
  match packetOf s q idx with
  | some p =>
    let n := launchSlot p.bytes
    match launchImage s q p with
    | (.got bs, s) =>
      let img := imageOf bs
      let r := regionOf s n
      let live := r.st == .running || r.st == .stopped || r.st == .rolling || r.st == .swapping
      match imageRefused s q img, img.placements.find? (fun p => p.fold == r.fold) with
      | some c, _ => complete s q idx stRejected c
      | none, none => complete s q idx stRejected rejBadPacket
      | none, some pl =>
        if !live || r.dead || img.w != r.w || img.h != r.h then complete s q idx stRejected rejBadPacket
        else if r.next.isSome then again s op
        else
          match allocSeats s n (seatsAt pl r.x0 r.y0 ++ (if r.dup then seatsAt pl r.dupX r.dupY else [])) with
          | none => schedule s (s.now + 1000) op s.ev
          | some ts => match groupPlan s n 0 img ts with
          | none => schedule s (s.now + 1000) op s.ev
          | some plan =>
            if !(depthsFit s n plan && ratesFit s ts) then complete s q idx stRejected 2
            else
            let h : Shadow := { image := img, seats := ts, plan := plan, queue := q, pkt := p.idx, mode := mode }
            let s := measure s 3 (sha256 bs)
            schedule (modRegion s n (fun r => { r with next := some h, loading := true })) s.now .shadowLoadEnd (evArgs n 0 0)
    | (f, s) => stopPacket s q idx op f
  | none => s
/-- LAUNCH_SWAP_AT_QUIESCENCE: a LAUNCH with MODE 1 (R335). Operands: queue, index. -/
def execLaunchSwapAtQuiescence (s : State) : Outcome := .next (loadNext s .launchSwapAtQuiescence 1)
/-- LAUNCH_SWAP_AT_CFGSWAP: a LAUNCH with MODE 2 (R335). Operands: queue, index. -/
def execLaunchSwapAtCfgswap (s : State) : Outcome := .next (loadNext s .launchSwapAtCfgswap 2)
/-- SHADOW_LOAD_END: the shadow planes hold the new configuration: SHADOW is set, and under MODE 1 SWPEND (R335). A gang that is off
its cores is waited for. Operand: region slot. -/
def execShadowLoadEnd (s : State) : Outcome :=
  let n := s.ev.x
  let r := regionOf s n
  match r.next with
  | some h =>
    if !r.loading then .next s
    else if r.st != .running || r.stopping then .next (schedule s (s.now + 1000) .shadowLoadEnd s.ev)
    else
      let s := loadShadow s h.seats
      .next (modRegion s n (fun r => { r with loading := false, shadow := true, swpend := r.swpend || h.mode == 1 }))
  | none => .next s

/-! ## COPY, WAIT and SIGNAL (R325) -/

/-- COPY: bytes are read and written at home in ascending order, a piece a step (R325). Operands: queue, index. -/
def execCopy (s : State) : Outcome :=
  let q := s.ev.x
  let idx := s.ev.y
  match packetOf s q idx with
  | some p =>
    let n := min 4096 (pktField p.bytes 32 8 - p.progress)
    if n == 0 then .next (complete s q idx stDone 0)
    else match anyAddress (pktField p.bytes 16 8), anyAddress (pktField p.bytes 24 8) with
      | some (v, a), some (w, b) =>
        match queueRead s q v (a + p.progress) n 3 with
        | (.got bs, s) =>
          match queueWrite s q w (b + p.progress) bs 3 with
          | (.got _, s) => .next (schedule (modPacket s q idx (fun r => { r with progress := r.progress + n })) s.now .copy s.ev)
          | (f, s) => .next (stopPacket s q idx .copy f)
        | (f, s) => .next (stopPacket s q idx .copy f)
      | _, _ => .next (complete s q idx stRejected rejBadPacket)
  | none => .next s
/-- The head packet of a queue, when it is the WAIT of an index. -/
def waitHead (s : State) (q idx : Nat) : Option Packet :=
  (headPacket (queueOf s q)).filter (fun p => p.idx.toNat == idx && pktType p.bytes == 3 && p.progress ≤ 1)
/-- WAIT: a head WAIT whose FENCE condition holds keeps its queue until its condition holds: KIND 0 looks at a queue, the others test
memory every microsecond until they are dispatched (R325, R326). Operands: queue, index. -/
def execWait (s : State) : Outcome :=
  let q := s.ev.x
  let idx := s.ev.y
  match waitHead s q idx with
  | some p =>
    if pktField p.bytes 16 1 == 0 then .next (if waitHolds s p then pokeQueues s else s)
    else .next (scheduleOnce s s.now .waitPoll s.ev)
  | none => .next s
/-- WAIT_POLL: a memory WAIT reads its word and tests it; it reads again 1 µs later (R325). Operands: queue, index. -/
def execWaitPoll (s : State) : Outcome :=
  let q := s.ev.x
  let idx := s.ev.y
  let x := queueOf s q
  match waitHead s q idx with
  | some p =>
    match locAddress (queueLoc x) (pktField p.bytes 24 8) with
    | some a =>
      match queueRead s q (queueLoc x) a 8 3 with
      | (.got bs, s) =>
        let want := pktField p.bytes 32 8
        let holds := if pktField p.bytes 16 1 == 1 then decide (want ≤ leNat bs) else leNat bs == want
        let s := modPacket s q idx (fun r => { r with progress := ofBool holds })
        .next (schedule (if holds then pokeQueues s else s) (s.now + 1000) .waitPoll s.ev)
      | (f, s) => .next (stopHead s q idx .waitPoll f)
    | none => .next s
  | none => .next s
/-- SIGNAL: once every earlier packet is complete the value is written, and MSI sends the queue's vector (R325). Operands: queue,
index. -/
def execSignal (s : State) : Outcome :=
  let q := s.ev.x
  let idx := s.ev.y
  let x := queueOf s q
  match packetOf s q idx with
  | some p =>
    if (x.packets.takeWhile (fun r => r.idx != p.idx)).any (fun r => r.status.isNone) then .next (again s .signal)
    else match locAddress (queueLoc x) (pktField p.bytes 16 8) with
      | some a =>
        match queueWrite s q (queueLoc x) a (leBytes 8 (pktField p.bytes 24 8)) 3 with
        | (.got _, s) =>
          let s := if pktField p.bytes 32 1 == 1 then queueMsix s q else s
          .next (complete s q idx stDone 0)
        | (f, s) => .next (stopPacket s q idx .signal f)
      | none => .next (complete s q idx stRejected rejBadPacket)
  | none => .next s

/-! ## GROUPLOAD and RESERVOIR_LOAD (R325) -/

/-- GROUPLOAD: an entry a step is written to the group table, each held as R302 holds it; complete once none is held (R325;
11_package_cascade, R302). Operands: queue, index. -/
def execGroupload (s : State) : Outcome :=
  let q := s.ev.x
  let idx := s.ev.y
  let x := queueOf s q
  match packetOf s q idx with
  | some p =>
    let n := p.progress
    match locAddress (queueLoc x) (pktField p.bytes 16 8) with
    | some a =>
      let count := pktField p.bytes 24 2
      if count ≤ n then
        match queueRead s q (queueLoc x) a (32 * count) 3 with
        | (.got bs, s) =>
          let held := fun (i : Nat) =>
            let g := groupOf s (bs.getD (32 * i) 0).toNat
            g.heldCfg.isSome || g.heldBr.isSome
          if (List.range count).any held then .next (again s .groupload) else .next (complete s q idx stDone 0)
        | (f, s) => .next (stopPacket s q idx .groupload f)
      else match queueRead s q (queueLoc x) (a + 32 * n) 32 3 with
        | (.got bs, s) =>
          let g := (bs.getD 0 0).toNat
          let word := fun (i : Nat) => BitVec.ofNat 64 (leNat ((bs.drop i).take 8))
          let s := writeGroup (writeGroup s g false (word 8)) g true (word 16)
          .next (schedule (modPacket s q idx (fun r => { r with progress := n + 1 })) s.now .groupload s.ev)
        | (f, s) => .next (stopPacket s q idx .groupload f)
    | none => .next (complete s q idx stRejected rejBadPacket)
  | none => .next s
/-- RESERVOIR_LOAD: bytes from space 01 written to a die's pinned store, held until nothing uses it (R325; 10_die, R291). Operands:
queue, index. -/
def execReservoirLoad (s : State) : Outcome :=
  let q := s.ev.x
  let idx := s.ev.y
  match packetOf s q idx with
  | some p =>
    let d := pktField p.bytes 16 1
    let off := pktField p.bytes 20 4
    let len := pktField p.bytes 32 4
    let x := dieOf s d
    if !x.users.isEmpty || x.rpend then .next (again s .reservoirLoad)
    else if x.p * 6291456 < off + len then .next (complete s q idx stRejected rejBadPacket)
    else match virtOf (pktField p.bytes 24 8) with
      | some a =>
        let wait := reservoirWait s d (pinnedAddress d off) len
        if wait.2.1 != 0 then .next (putOff s wait .reservoirLoad s.ev)
        else match queueRead s q true a len (len / 65536 + 2) with
        | (.got bs, s) => .next (complete (pinnedWrite s d off bs) q idx stDone 0)
        | (f, s) => .next (stopPacket s q idx .reservoirLoad f)
      | none => .next (complete s q idx stRejected rejBadPacket)
  | none => .next s

/-! ## DESTROY, RECORD and PWR (R325, R328, R344; 14_package_host, R382) -/

/-- A queue CLOSING for a DESTROY: staged packets are discarded whole, with the places that they were given (R328). -/
def closeQueue (s : State) (t q : Nat) (idx : W16) (force : Bool) : State :=
  let s := freeUndispatched s t
  let x := queueOf s t
  let x := { x with st := .closing, offPend := false, packets := x.packets.filter (fun p => p.dispatched), wait := 0
                    closers := x.closers ++ [(q, idx, force)] }
  closeWhenIdle (setQueue s t x) t
/-- DESTROY: the target is CLOSING until its dispatched work is complete, then CLOSED; of a CLOSED queue it is DONE at once (R328).
Operands: queue, index. -/
def execDestroy (s : State) : Outcome :=
  let q := s.ev.x
  let idx := s.ev.y
  match packetOf s q idx with
  | some p =>
    let t := pktField p.bytes 16 2
    if (queueOf s t).st == .closed then .next (complete s q idx stDone 0) else .next (closeQueue s t q p.idx false)
  | none => .next s
/-- A region of a destroyed queue stopped and freed without a save; a LAUNCH of another queue that has loaded its shadow completes
ABORTED (R328, R334). -/
def killRegion (s : State) (n : Nat) : State :=
  let r := regionOf s n
  let s := match r.next with
    | some h => if h.mode == 3 || h.queue == r.queue then s else complete s h.queue h.pkt.toNat stAborted 0
    | none => s
  freeRegion (dropTraffic s n) n
/-- DESTROY_FORCE: as DESTROY, with every region of the target freed without a save, every shadow of it dropped, and every
dispatched packet complete ABORTED (R328). Operands: queue, index. -/
def execDestroyForce (s : State) : Outcome :=
  let q := s.ev.x
  let idx := s.ev.y
  match packetOf s q idx with
  | some p =>
    let t := pktField p.bytes 16 2
    if (queueOf s t).st == .closed then .next (complete s q idx stDone 0)
    else
      let s := freeUndispatched s t
      let mine := (s.region.filter (fun e => e.2.st != .free && e.2.queue == t)).map (fun e => e.1)
      let s := mine.foldl killRegion s
      let unload := fun (e : Nat × Region) =>
        match e.2.next with
        | some h =>
          if h.queue == t then (e.1, { e.2 with next := none, loading := false, shadow := false, swpend := false, swapper := none })
          else e
        | none => e
      let s := { s with region := s.region.map unload }
      let open_ := (queueOf s t).packets.filter (fun r => r.dispatched && r.status.isNone)
      let s := open_.foldl (fun s r => complete s t r.idx.toNat stAborted 0) s
      .next (closeQueue s t q p.idx true)
  | none => .next s
/-- RECORD: log base, size and ON of the queue; recording starts at entry 0 (R325, R344). Operands: queue, index. -/
def execRecord (s : State) : Outcome :=
  let q := s.ev.x
  let idx := s.ev.y
  match packetOf s q idx with
  | some p =>
    let x := queueOf s q
    let x := { x with logBase := BitVec.ofNat 64 (pktField p.bytes 16 8), logEntries := pktField p.bytes 24 4, logNext := 0
                      logOn := pktField p.bytes 28 1 == 1, recfull := false }
    .next (complete (setQueue s q x) q idx stDone 0)
  | none => .next s
/-- A PWR packet waits for the manager's next computation (14_package_host, R382). -/
def awaitPower (s : State) (q : Nat) (idx : W16) : State :=
  { s with pkg := { s.pkg with newPower := s.pkg.newPower ++ [(q, idx)] } }
/-- PWR_SET_CAP: CAP is set; complete once the manager has used it (14_package_host, R381, R382). Operands: queue, index. -/
def execPwrSetCap (s : State) : Outcome :=
  match packetOf s s.ev.x s.ev.y with
  | some p =>
    let s := { s with pkg := { s.pkg with cap := min (pktField p.bytes 20 4) 28000 } }
    .next (awaitPower s s.ev.x p.idx)
  | none => .next s
/-- PWR_SET_FLOOR: a partition's FLOOR is set; complete once the manager has used it (14_package_host, R381, R382). Operands: queue,
index. -/
def execPwrSetFloor (s : State) : Outcome :=
  match packetOf s s.ev.x s.ev.y with
  | some p =>
    let n := pktField p.bytes 18 2
    let v := putBits (tget s.pkg.parts 0 n) 14 0 (pktField p.bytes 20 4)
    let s := { s with pkg := { s.pkg with parts := tput s.pkg.parts n v } }
    .next (awaitPower s s.ev.x p.idx)
  | none => .next s

end Sys2Proof.Machine
end

