-- ==== Sys2Proof/Machine/HostUnit.lean ====
section
/-! DEFINITION. The package's meeting points with the host: events and replies, the watchdog, the power manager, start-up, attestation and
recovery, host links, and register writes from the host (14_package_host, R373 to R384; 00_scope, R12). -/
namespace Sys2Proof.Machine

/-! ## Events (R375, R376) -/

/-- The 64 bytes of an event with its index and tag (R375). -/
def eventBytes (e : HostEvent) (i tag : Nat) : List Byte :=
  leBytes 2 i ++ leBytes 1 e.kind ++ leBytes 1 tag ++ leBytes 2 e.where_ ++ leBytes 2 0 ++ leBytes 8 e.time.toNat ++
    recordBytes e.record ++ List.replicate 16 0
/-- An event written at TAIL as one write; TAIL advances, the vector is sent, and an event that expects a reply holds its tag
(R375, R376). -/
def putEvent (s : State) (e : HostEvent) (rest : List HostEvent) (tag : Nat) : State :=
  let s := countHeld s
  let p := s.pkg
  let at_ := bits p.evcfg 63 6 * 64 % 2 ^ 57 + 64 * (p.evTail.toNat % 2 ^ ringLog p)
  let w := e.record.w1
  let tags := if e.kind == 1 then tput p.tags tag (.event (bits w 47 39) (bits w 38 31) (bits w 30 29) (bits w 28 17)) else p.tags
  let s := { s with
    host := memStore s.host (placed at_ (eventBytes e p.evTail.toNat tag))
    pkg := { p with waiting := rest, evTail := p.evTail + 1, tags := tags } }
  sendMsix s p.evVec
/-- EVENT_WRITE: the oldest event is written when EN is set, the ring has room, a tag is free if it expects a reply, and a host link
is up; each tick that it waits for room or a tag counts in EV_WAIT (R373 to R375). Operands: x the tick up to which the wait is
counted, y 1 for a step of a wait that counts, 2 for one that does not. -/
def execEventWrite (s : State) : Outcome :=
  let p := s.pkg
  match p.waiting with
  | [] => .next s
  | e :: rest =>
    if !bitAt p.evcfg 5 || (s.ev.y == 0 && s.agenda.any (fun a => a.op == .eventWrite && a.args.y != 0)) then .next s
    else
      let s := if s.ev.y == 1 then { s with pkg := { p with evWait := satAdd p.evWait (s.now - s.ev.x) } } else s
      let tag := if e.kind != 1 then some 255 else if e.behind == 0 then freeTag p else none
      match ringRoom p, tag with
      | true, some n =>
        if p.linkUp == 0 then .next (schedule s (s.now + 1) .eventWrite (evArgs 0 2 0))
        else
          let s := putEvent s e rest n
          let s := if e.kind == 1 then grantTags 64 s else s
          .next (if rest.isEmpty then s else schedule s s.now .eventWrite EvArgs.none)
      | _, _ => .next (schedule s (s.now + 1) .eventWrite (evArgs s.now 1 0))
/-- A tag free again: the page request or event that has waited for one longest takes it (R374). -/
def releaseTag (s : State) (tag : Nat) : State :=
  let s := grantTags 64 { s with pkg := { s.pkg with tags := tdel s.pkg.tags tag } }
  schedule s s.now .eventWrite EvArgs.none
/-- PKG_EVREPLY_WRITE: the resume message of a reply goes to the trapped context and its tag is free; a free tag is counted in EV_STALE. A
context that is off its core gets the reply when it is back (R376). Operand: the value written. -/
def execPkgEvreplyWrite (s : State) : Outcome :=
  let tag := bits s.ev.v 7 0
  match s.pkg.tags.find? (fun e => e.1 == tag) with
  | some (_, .event lx ly cx seq) =>
    let addr := ctxNumber lx ly cx
    match findCtx s addr, anyCtx s addr with
    | some (k, _), _ => .next (releaseTag (deliver s k k (.tret addr seq (bits s.ev.v 9 8)) .tretMessageArrival) tag)
    | none, some _ => .next (again s .pkgEvreplyWrite)
    | none, none => .next (releaseTag s tag)
  | _ => .next { s with pkg := { s.pkg with evStale := satAdd s.pkg.evStale 1 } }

/-! ## Watchdog (R380) -/

/-- The record of a watchdog: no context, code WATCHDOG. -/
def watchdogRecord (s : State) (n : Nat) : Record :=
  recordOf s ((regionOf s n).cores.headD 0) 0
    { code := cWatchdog, kind := 2, rule := 0, word := 0, opcode := 0, unit := 0, lane := 0, exp := 0, obs := 0, info := 0 } false true
/-- WATCHDOG_DEAD: CNT of a region has reached HBDL x 64: HST is DEAD and the host is told (R380). Operand: region slot. -/
def execWatchdogDead (s : State) : Outcome :=
  let n := s.ev.x
  let s := noteBeat s n
  let r := regionOf s n
  let limit := 6553600 * r.rhb.toNat
  if r.rhb == 0 || r.st == .free || r.hst == 2 then .next s
  else if counting r && limit ≤ r.beatCycles then
    .next (hostEvent (setRegion s n { r with hst := 2 }) 4 255 n (watchdogRecord s n))
  else .next (schedule s (s.now + max 1 (min 1000 ((limit - r.beatCycles) / 160))) .watchdogDead s.ev)
/-- WATCHDOG_SLOW: the ticks since a region's last beat have reached 10 x HBDL x 2^16 x 0.8 while HST is OK: HST is SLOW and the host is
told (R380). Operand: region slot. -/
def execWatchdogSlow (s : State) : Outcome :=
  let n := s.ev.x
  let r := regionOf s n
  let limit := 524288 * r.rhb.toNat
  if r.rhb == 0 || r.st == .free || r.hst != 0 then .next s
  else if counting r && limit ≤ s.now - r.beat then .next (hostEvent (setRegion s n { r with hst := 1 }) 5 255 n noRecord)
  else .next (schedule s (s.now + max 1 (limit - (s.now - r.beat))) .watchdogSlow s.ev)

/-! ## Power (R381, R382) -/

/-- The floors of the valid partitions, in watts. -/
def floorSum (p : Pkg) : Nat := ((p.parts.filter (fun e => bitAt e.2 31)).map (fun e => bits e.2 14 0)).sum
/-- Whether the manager's ceiling of a VF region binds. -/
def ceilingBinds (v : VfRegion) : Bool := v.ceil < min v.rfreq (pointCeiling v.rpt)
/-- The ceiling of one VF region set; while it binds the weir limit is halved (R382). -/
def setCeiling (f : Nat) (s : State) (p : Nat × Nat) : State :=
  let v := vfOf s p.1 p.2
  let c := Config.powerCeiling f p.1 p.2
  let s := if c == v.ceil then s else requestVf (setVf s p.1 p.2 { v with ceil := c }) p.1 p.2 0
  let v := vfOf s p.1 p.2
  if ceilingBinds v && v.weirEff == v.limit then schedule s s.now .weirHalve (evArgs p.1 p.2 0) else s
/-- POWER_MANAGER_UPDATE: every 10 µs the manager computes the effective cap and shares it out as frequency ceilings; PKG_PWRSTAT follows,
and the PWR packets that came before complete (R381, R382). -/
def execPowerManagerUpdate (s : State) : Outcome :=
  let (f, s) := takeFresh s
  let all : List (Nat × Nat) := (List.range 64).flatMap (fun d =>
    ((List.range 4).filter (fun k => (vfOf s d k).v)).map (fun k => (d, k)))
  let s := all.foldl (setCeiling f) s
  let p := s.pkg
  let limiting := all.any (fun r => ceilingBinds (vfOf s r.1 r.2))
  let stat := (Config.draw f p.sectors).toNat * 65536 + ofBool (Config.thermal f) * 8 + ofBool limiting * 4 +
    ofBool (decide (p.cap < floorSum p)) * 2 + ofBool (decide (p.cap < 3500))
  let s := p.newPower.foldl (fun s e => complete s e.1 e.2.toNat stDone 0)
    { s with pkg := { p with pstat := BitVec.ofNat 32 stat, newPower := [] } }
  .next (schedule s (s.now + 10000) .powerManagerUpdate EvArgs.none)

/-! ## Start-up (R378, R379; 12_package_launch, R329, R330; 10_die, R286, R287, R292) -/

/-- The cores of a cluster's 12 logical columns that failed built-in self-test, by row and column. -/
def deadCores (cl : Nat) : List Nat :=
  let (cx, cy) := clusterPlace cl
  (List.range 96).filter (fun i => !Config.selfTest (256 * (13 * cx + i % 12) + 8 * cy + i / 12))
/-- The cores of a cluster's spare column that passed. -/
def goodSpares (cl : Nat) : List Nat :=
  let (cx, cy) := clusterPlace cl
  ((List.range 8).map (fun j => 256 * (13 * cx + 12) + 8 * cy + j)).filter Config.selfTest
/-- The entry of a logical core placed on a physical core, unfolded (12_package_launch, R329). -/
def plainEntry (k : Nat) : W64 := BitVec.ofNat 64 (2 ^ 63 + k / 256 * 2 ^ 49 + k % 256 * 2 ^ 41 + 1536 * 2 ^ 19)
/-- The entries of a cluster's map that differ from a full-grade part's: a spare for each dead core while they last, else unbound. -/
def clusterMap (cl : Nat) : List (Nat × W64) :=
  let (cx, cy) := clusterPlace cl
  (deadCores cl).zipIdx.map (fun (e : Nat × Nat) =>
    (256 * (12 * cx + e.1 % 12) + 8 * cy + e.1 / 12,
      match (goodSpares cl)[e.2]? with | some k => plainEntry k | none => 0#64))
/-- The logical cores of a cluster that stay unbound. -/
def unboundIn (cl : Nat) : Nat := (deadCores cl).length - (goodSpares cl).length
/-- Whether a cluster's part of the map can be built (R379). -/
def clusterUsable (cl : Nat) : Bool := Config.routersGood cl && (clusterCores cl).any Config.selfTest
/-- The grade of a part by the most logical cores that a cluster leaves unbound (12_package_launch, R330). -/
def gradeOf (most : Nat) : Nat := if most == 0 then 3 else if most ≤ 1 then 2 else if most ≤ 8 then 1 else 0
/-- Start-up stopped in its phase with a failure code (R378, R379). -/
def failBoot (s : State) (code : Nat) : State := { s with pkg := { s.pkg with fail := true, ecode := code } }
/-- Start-up taken to its next step. -/
def nextPhase (s : State) (n : Nat) : State := schedule { s with pkg := { s.pkg with phase := n } } s.now .startup EvArgs.none
/-- The stitches that a die's offset is calibrated over, as a die and the edge that leaves it: along the row of die (0,0), then down the
die's column (10_die, R287; log entry 108). -/
def stitchPath (die : Nat) : List (Nat × Nat) :=
  (List.range (die % 8)).map (fun i => (i, 2)) ++ (List.range (die / 8)).map (fun i => (8 * i + die % 8, 3))
/-- HI - LO of the link of a stitch that calibration uses, one of those with V = 1 (10_die, R286, R287). -/
def stitchBand (s : State) (p : Nat × Nat) : Nat :=
  let live := (edgeLinks p.2).filter (fun i => bitAt (bandEntry s p.1 p.2 0 i) 31)
  match live[Config.pathLink p.1 p.2 % live.length]? with
  | some i =>
    let w := bandEntry s p.1 p.2 0 i
    bits w 15 8 - bits w 7 0
  | none => 0
/-- The uncertainty of a die's offset: half the sum of HI - LO along the path, rounded up (10_die, R287). -/
def uncertainty (s : State) (die : Nat) : Nat := min 255 ((((stitchPath die).map (stitchBand s)).sum + 1) / 2)
/-- The offset that calibration finds for a die: the true one, off by no more than the uncertainty (10_die, R287, R288). -/
def calibratedOffset (s : State) (die : Nat) : BitVec 48 :=
  let u : Int := uncertainty s die
  if die == 0 then 0 else BitVec.ofInt 48 (Config.dieStart die + max (-u) (min u (Config.offsetError die)))
/-- Step 3: time offsets, refresh windows, bands, the core map and the grade (R379). -/
def calibrate (s : State) : State :=
  let dies := List.range 64
  let s := dies.foldl (fun s d =>
    let x := dieOf s d
    let unc := if d == 0 then 0 else BitVec.ofNat 8 (uncertainty s d)
    setDie s d { x with off := calibratedOffset s d, unc := unc, rsvref := Config.refreshStart d }) s
  let s := dies.foldl setBands s
  let base := 65536 * (Config.mapPlace % (25165824 - 9))
  let map := ((List.range 768).flatMap clusterMap).foldl (fun (m : SMap W64) e => tput m e.1 e.2) []
  let most := ((List.range 768).map unboundIn).foldl max 0
  { s with pkg := { s.pkg with coreMap := map, mapAt := some base, cmbase := BitVec.ofNat 64 base, grade := gradeOf most } }
/-- Step 4: memories zero with their codes, HBM metadata 0001, counters clear (R379). -/
def zeroMemories (s : State) : State :=
  let core := fun (e : Nat × Core) =>
    (e.1, { e.2 with mem := [], active := [], shadow := [], eccUe := [], eccCorr := [], cnt := Vector.replicate 11 0 })
  let cluster := fun (e : Nat × Cluster) => (e.1, { e.2 with cnt := Vector.replicate 6 0 })
  let die := fun (e : Nat × Die) =>
    (e.1, { e.2 with pinned := [], pinUe := [], pinCorr := [], cache := [], cnt := Vector.replicate 7 0, casc := Vector.replicate 9 0 })
  let p := s.pkg
  { s with
    core := s.core.map core, cluster := s.cluster.map cluster, die := s.die.map die
    hbm := [], hbmMeta := [], hbmPoison := [], hbmCorr := []
    pkg := { p with
      cnt := Vector.replicate 10 0, evWait := 0, evStale := 0, stackCnt := [], xlCnt := Vector.replicate 6 0 }
    fab := { s.fab with cnt := Vector.replicate 12 0 } }
/-- STARTUP: one step of start-up after another, to READY or a failure (R379). -/
def execStartup (s : State) : Outcome :=
  let p := s.pkg
  if p.ready || p.fail then .next s
  else
    let (f, t) := takeFresh s
    let bad := Config.bootFailure f
    match p.phase with
    | 1 =>
      let cfg := (p.stcfg &&& 0xFFFFFFFFFFFF0000) ||| Config.tier2Present.zeroExtend 64
      .next (nextPhase { s with pkg := { p with stcfg := cfg } } 2)
    | 2 => if bad == 1 || bad == 2 then .next (failBoot t bad) else .next (nextPhase (measure t 0 (Config.bootDigest 0)) 3)
    | 3 =>
      if bad == 3 then .next (failBoot t 3)
      else if !(List.range 768).all clusterUsable then .next (failBoot t 4)
      else .next (nextPhase (measure (measure (calibrate t) 1 (Config.bootDigest 1)) 2 (Config.bootDigest 2)) 4)
    | 4 => if bad == 5 then .next (failBoot t 5) else .next (nextPhase (zeroMemories t) 5)
    | _ =>
      let s := sendMsix { s with pkg := { p with ready := true } } 0
      let s := schedule s (s.now + 10000) .powerManagerUpdate EvArgs.none
      .next ((List.range 64).foldl (fun s d => schedule s (s.now + 2 ^ 20) .timeRecalibration (evArgs d 0 0)) s)

/-! ## Attestation and recovery (R384) -/

/-- The host address of PKG_ATTEST's buffer. -/
def attestBuffer (p : Pkg) : Nat := bits p.attest 63 6 * 64 % 2 ^ 57
/-- GO cleared. -/
def clearGo (s : State) : State := { s with pkg := { s.pkg with attest := putBits s.pkg.attest 5 5 0 } }
/-- The signed part of a report over measurements (R384). -/
def reportBytes (s : State) (m : BitVec 2048) : List Byte :=
  leBytes 4 Config.partCode.toNat ++ leBytes 4 Config.svn.toNat ++ leBytes 1 s.pkg.grade ++ List.replicate 7 0 ++
    leBytes 32 s.pkg.nonce.toNat ++ leBytes 256 m.toNat ++ leBytes 8 (dieTime s 0).toNat
/-- ATTEST_REPORT: the report over the measurements as they stood at GO is signed and written to the host's buffer, and GO clears (R384).
Operand: the measurements, M0 lowest. -/
def execAttestReport (s : State) : Outcome :=
  if !bitAt s.pkg.attest 5 || bitAt s.pkg.attest 4 then .next s
  else if s.pkg.linkUp == 0 then .next (again s .attestReport)
  else
    let body := reportBytes s s.ev.flit
    let bs := body ++ (List.range 7856).map (Config.signature body)
    .next (clearGo { s with host := memStore s.host (placed (attestBuffer s.pkg) bs) })
/-- RECOVERY_FIRMWARE: firmware submitted in the buffer is verified as boot firmware is and GO clears; when it verifies, a part that had
failed goes on with it from the step after its verification (R379, R384). Operand: ok when its bytes are a firmware image. -/
def execRecoveryFirmware (s : State) : Outcome :=
  let p := s.pkg
  if !bitAt p.attest 5 || !bitAt p.attest 4 then .next s
  else if p.linkUp == 0 then .next (again s .recoveryFirmware)
  else
    let (f, t) := takeFresh (clearGo s)
    if s.ev.ok && Config.firmwareGood f && p.fail then
      let t := { t with pkg := { t.pkg with fail := false, ecode := 0 } }
      .next (nextPhase (measure t 0 (Config.bootDigest 0)) 3)
    else .next t

/-! ## Links and register writes -/

/-- HOST_LINK_DOWN: a host link goes down; its traffic passes to the other port (R373). Operand: port. -/
def execHostLinkDown (s : State) : Outcome :=
  .next { s with pkg := { s.pkg with linkUp := putBits s.pkg.linkUp (s.ev.x % 2) (s.ev.x % 2) 0 } }
/-- HOST_LINK_UP: a host link comes up (R373). Operand: port. -/
def execHostLinkUp (s : State) : Outcome :=
  .next { s with pkg := { s.pkg with linkUp := putBits s.pkg.linkUp (s.ev.x % 2) (s.ev.x % 2) 1 } }
/-- DIE_VFR_WRITE: a write to DIE_VFR (10_die, R280, R281). Operands: die, region, value. -/
def execDieVfrWrite (s : State) : Outcome := .next (writeVfr s (s.ev.x % 64) (s.ev.y % 4) s.ev.v)
/-- CLU_ROUTE_SWITCH_REQUEST: a write of 1 to CLU_RTCTL.SW (08_cluster, R238, R240). Operand: cluster. -/
def execCluRouteSwitchRequest (s : State) : Outcome := .next (requestRouteSwitch s (s.ev.x % 768))
/-- REGISTER_WRITE: a write to a package register, or to a control register of a physical core, by its space 10 address (00_scope, R12;
13_package_memory, R354). Operands: address; value; z its bytes, 8 when 0. -/
def execRegisterWrite (s : State) : Outcome :=
  let a := BitVec.ofNat 64 s.ev.x
  let n := if s.ev.z == 0 then 8 else min 8 s.ev.z
  let bs := leBytes n s.ev.v.toNat
  match bits a 61 58 with
  | 0 => .next (writePkgBytes s true (bits a 47 0) bs)
  | 3 =>
    if 0x70000 ≤ bits a 18 0 && bits a 46 38 < 312 then .next (writeRegBytes s (physCore a) (placed (bits a 18 0) bs)) else .next s
  | _ => .next s

end Sys2Proof.Machine
end

