-- ==== Sys2Proof/Machine/FabricLink.lean ====
section
/-! DEFINITION. Fabric ports: flows as the link sees them, flits, compression, transmission and reception, port states and port commands
(15_fabric, R387 to R396, R399, R402). -/
namespace Sys2Proof.Machine

/-! ## Counters and flows (R396, R402) -/

/-- A fabric counter increased (R402). -/
def countFabric (s : State) (n m : Nat) : State :=
  { s with fab := { s.fab with cnt := vset s.fab.cnt n (satAdd (vget s.fab.cnt n 0) m) } }
/-- The flow of a class to a package; a flow that never was has nothing outstanding, in the bank that ACT names. -/
def flowOf (f : Fabric) (fctl : Bool) (dst : Nat) : Flow :=
  (f.flows.find? (fun x => x.fctl == fctl && x.dst == dst)).getD { fctl := fctl, dst := dst, bank := f.act, out := 0 }
/-- The bank that the next packet of a flow takes: ACT's once nothing is outstanding (R396). -/
def flowBank (f : Fabric) (fctl : Bool) (dst : Nat) : Bool := let x := flowOf f fctl dst; if x.out == 0 then f.act else x.bank
/-- A flow replaced. -/
def setFlow (s : State) (x : Flow) : State :=
  let rest := s.fab.flows.filter (fun y => !(y.fctl == x.fctl && y.dst == x.dst))
  { s with fab := { s.fab with flows := x :: rest } }
/-- A packet of a flow sent. -/
def flowMore (s : State) (fctl : Bool) (dst : Nat) : State :=
  let x := flowOf s.fab fctl dst
  setFlow s { x with bank := flowBank s.fab fctl dst, out := x.out + 1 }
/-- A packet of a flow no longer outstanding; at zero the flow may switch (R396). -/
def flowLess (s : State) (fctl : Bool) (dst : Nat) : State :=
  let x := flowOf s.fab fctl dst
  let s := setFlow s { x with out := x.out - 1 }
  if x.out ≤ 1 && s.fab.sw then schedule s s.now .flowSwitch (evArgs (ofBool fctl) dst 0) else s

/-! ## Flits (R388) -/

/-- A port changed. -/
def modPort (s : State) (port : Nat) (f : Port → Port) : State := setPort s port (f (portOf s port))
/-- A port looks whether it has something to send. -/
def pokePort (s : State) (port : Nat) : State := scheduleOnce s s.now .fabricFlitTransmit (evArgs port 0 0)
/-- A flit: KIND 0 data, 1 idle, 2 identity; SEQ, ACK, NAK, credits returned, 240 bytes. -/
def flitOf (kind seq ack : Nat) (nak : Bool) (credits : Nat × Nat) (pay : List Byte) : BitVec 2048 :=
  let head := leBytes 2 (seq % 4096 + 4096 * kind) ++ leBytes 2 (ack % 4096 + 4096 * ofBool nak) ++ leBytes 1 credits.1 ++
    leBytes 1 credits.2 ++ leBytes 2 0 ++ padTo 240 pay
  BitVec.ofNat 2048 (leNat (head ++ leBytes 4 (crc32c head).toNat))
/-- The 240 bytes of packet stream in a flit. -/
def flitPay (f : BitVec 2048) : List Byte := (leBytes 248 f.toNat).drop 8
/-- Whether the CRC of a flit checks (R388). -/
def flitGood (f : BitVec 2048) : Bool := bits f 2015 1984 == (crc32c (leBytes 248 f.toNat)).toNat
/-- The identity flit of a port (R392). -/
def identityFlit (s : State) (port : Nat) : BitVec 2048 := flitOf 2 0 0 false (0, 0) (leBytes 2 s.fab.id ++ leBytes 1 port)
/-- The 16-byte header of a packet (R389). -/
def packetHeader (k : FabPacket) (len : Nat) (c : Bool) : List Byte :=
  leBytes 2 k.dst ++ leBytes 2 k.src ++ leBytes 1 (ofBool k.fctl + 2 * ofBool k.bank + 4 * ofBool c) ++ leBytes 1 k.sched ++
    leBytes 2 len ++ leBytes 4 k.stag.toNat ++ leBytes 4 k.off

/-! ## Compression (R390, R391) -/

/-- A word of a compressed body. -/
inductive DictWord where
  | ref (slot : Nat)
  | lit (w : W64) (slot : Option Nat)
deriving DecidableEq, Repr

/-- A body encoded so far: words, slots referred to, insertions. -/
structure Encoded where
  words : List DictWord
  refs : List Nat
  ins : List (Nat × W64)
deriving DecidableEq, Repr

/-- Whether a word may refer to a slot: filled by an acknowledged packet, and no packet that is not acknowledged inserts into it. -/
def mayRefer (p : Port) (e : Encoded) (n : Nat) : Bool :=
  !p.started.any (fun t => t.ins.any (fun i => i.1 == n)) && !e.ins.any (fun i => i.1 == n)
/-- Whether a packet may insert into a slot: no packet that is not acknowledged refers to it or inserts into it. -/
def mayInsert (p : Port) (e : Encoded) (n : Nat) : Bool :=
  n < 256 && !p.started.any (fun t => t.refs.contains n || t.ins.any (fun i => i.1 == n)) && !e.refs.contains n &&
    !e.ins.any (fun i => i.1 == n)
/-- One word encoded: a reference where a slot allows it, else a literal, inserted where the sender chooses and may. -/
def encodeWord (p : Port) (seed : Nat) (e : Encoded) (w : W64) : Encoded :=
  match p.txDict.find? (fun d => d.2 == w && mayRefer p e d.1) with
  | some (n, _) => { e with words := e.words ++ [.ref n], refs := n :: e.refs }
  | none =>
    let n := Config.insertSlot seed e.words.length
    if mayInsert p e n then { e with words := e.words ++ [.lit w (some n)], ins := e.ins ++ [(n, w)] }
    else { e with words := e.words ++ [.lit w none] }
/-- The 8-byte words of a body. -/
def bodyWords (bs : List Byte) : List W64 :=
  (List.range ((bs.length + 7) / 8)).map (fun i => BitVec.ofNat 64 (leNat ((bs.drop (8 * i)).take 8)))
/-- A body encoded for a port. -/
def encodeBody (p : Port) (seed : Nat) (bs : List Byte) : Encoded :=
  (bodyWords bs).foldl (encodeWord p seed) { words := [], refs := [], ins := [] }
/-- The bytes of a group of at most eight words (R390). -/
def groupBytes (g : List DictWord) : List Byte :=
  let r := g.zipIdx.foldl (fun n (x : DictWord × Nat) => match x.1 with | .ref _ => n + 2 ^ x.2 | .lit _ _ => n) 0
  let i := g.zipIdx.foldl (fun n (x : DictWord × Nat) => match x.1 with | .lit _ (some _) => n + 2 ^ x.2 | _ => n) 0
  leBytes 1 r ++ leBytes 1 i ++ g.flatMap (fun w =>
    match w with
    | .ref n => leBytes 1 n
    | .lit x none => leBytes 8 x.toNat
    | .lit x (some n) => leBytes 8 x.toNat ++ leBytes 1 n)
/-- The bytes of an encoded body. -/
def encodedBytes (ws : List DictWord) : List Byte :=
  (List.range ((ws.length + 7) / 8)).flatMap (fun i => groupBytes ((ws.drop (8 * i)).take 8))
/-- What a decoder has read: words, insertions, the bytes left. -/
structure Decoded where
  words : List W64
  ins : List (Nat × W64)
  rest : List Byte
deriving DecidableEq, Repr

/-- The words of a group from word k on, under R and I; none for an illegal body. The last group may be short (R390). -/
def decodeGroup (d : SMap W64) (r i k : Nat) (a : Decoded) : Nat → Option Decoded
  | 0 => some a
  | n + 1 =>
    match a.rest with
    | [] => some a
    | b :: more =>
      if r.testBit k then
        if i.testBit k then none
        else decodeGroup d r i (k + 1) { a with words := a.words ++ [tget d 0 b.toNat], rest := more } n
      else if a.rest.length < 8 then none
      else
        let w := BitVec.ofNat 64 (leNat (a.rest.take 8))
        match i.testBit k, a.rest.drop 8 with
        | false, more => decodeGroup d r i (k + 1) { a with words := a.words ++ [w], rest := more } n
        | true, c :: more =>
          decodeGroup d r i (k + 1) { words := a.words ++ [w], ins := a.ins ++ [(c.toNat, w)], rest := more } n
        | true, [] => none
/-- A compressed body decoded with a table; none when it is illegal. -/
def decodeBody (d : SMap W64) (a : Decoded) : Nat → Option Decoded
  | 0 => none
  | n + 1 =>
    match a.rest with
    | [] => some a
    | [_] => none
    | r :: i :: more =>
      match decodeGroup d r.toNat i.toNat 0 { a with rest := more } 8 with
      | some a => decodeBody d a n
      | none => none

/-! ## Sending (R388, R389) -/

/-- A credit of a class owed to the peer of the port that a packet came in on. -/
def creditBack (s : State) (k : FabPacket) : State :=
  match k.from_ with
  | some p =>
    let one := fun (x : Port) =>
      let c := if k.fctl then (x.credits.1, x.credits.2 + 1) else (x.credits.1 + 1, x.credits.2)
      { x with credits := c, say := true }
    pokePort (modPort s p one) p
  | none => s
/-- A waiting packet started: FCTL first, each class against its credits, while the port is ACTIVE (R389, R392). -/
def nextStart (p : Port) : Option FabPacket :=
  if p.st != .active then none
  else match if 0 < p.room.2 then p.waiting.find? (fun k => k.fctl) else none with
    | some k => some k
    | none => if 0 < p.room.1 then p.waiting.find? (fun k => !k.fctl) else none
/-- A packet started on a port: its header and body join the stream; an FCTL packet of this package has then passed its first port
(R389, R396). -/
def beginPacket (s : State) (port : Nat) (k : FabPacket) : State :=
  let p := portOf s port
  let (f, s) := takeFresh s
  let packed := p.cmp && !k.fctl && !k.body.isEmpty && Config.compress f
  let e : Encoded := if packed then encodeBody p f k.body else { words := [], refs := [], ins := [] }
  let body := if packed then encodedBytes e.words else k.body
  let bs := packetHeader k body.length packed ++ body
  let sent : Sent := { pkt := k, left := bs.length, last := none, refs := e.refs, ins := e.ins }
  let room := if k.fctl then (p.room.1, p.room.2 - 1) else (p.room.1 - 1, p.room.2)
  let p := { p with waiting := p.waiting.erase k, stream := p.stream ++ bs, started := p.started ++ [sent], room := room }
  let s := countFabric (setPort s port p) 4 e.refs.length
  if k.from_.isSome then creditBack s k else if k.fctl then flowLess s true k.dst else s
/-- Packets started while a header fits whole into the flit that is sent next. -/
def fillFlit (s : State) (port : Nat) : Nat → State
  | 0 => s
  | n + 1 =>
    let p := portOf s port
    if 224 < p.stream.length then s
    else match nextStart p with
      | some k => fillFlit (beginPacket s port k) port n
      | none => s
/-- The started packets after n more bytes of the stream have left in the flit of a SEQ. -/
def settleSent (n : Nat) (seq : BitVec 12) : List Sent → List Sent
  | [] => []
  | t :: r =>
    if t.left == 0 then t :: settleSent n seq r
    else
      let m := min n t.left
      { t with left := t.left - m, last := if t.left == m then some seq else none } :: settleSent (n - m) seq r
/-- Credits that fit into a flit. -/
def creditsNow (p : Port) : Nat × Nat := (min 255 p.credits.1, min 255 p.credits.2)
/-- A port that has told its peer ACK and credits. -/
def spoken (p : Port) (f : BitVec 2048) : Port :=
  let c := creditsNow p
  { p with tx := f, say := c != p.credits, credits := (p.credits.1 - c.1, p.credits.2 - c.2) }
/-- An idle flit with ACK, NAK and credits. -/
def sendIdle (s : State) (port : Nat) : State :=
  modPort s port (fun p => { spoken p (flitOf 1 0 (p.rxSeq - 1).toNat p.nak (creditsNow p) []) with nak := false })
/-- The next flit of a replay, exactly as it was first sent. -/
def sendReplay (s : State) (port : Nat) : State :=
  let p := portOf s port
  countFabric (setPort s port { p with tx := p.replay.getD (p.replay.length - p.replaying) 0, replaying := p.replaying - 1 }) 3 1
/-- The next data flit, kept for replay. -/
def sendData (s : State) (port : Nat) : State :=
  let p := portOf s port
  let f := flitOf 0 p.txSeq.toNat (p.rxSeq - 1).toNat false (creditsNow p) (p.stream.take 240)
  let q := { spoken p f with
    stream := p.stream.drop 240, replay := p.replay ++ [f], txSeq := p.txSeq + 1
    started := settleSent (min 240 p.stream.length) p.txSeq p.started, ackAt := if p.replay.isEmpty then s.now else p.ackAt }
  let s := countFabric (setPort s port q) 0 1
  scheduleOnce s (q.ackAt + 2000) .replayTimeout (evArgs port 0 0)

/-! ## Port states and commands (R392, R393) -/

/-- The step that runs a port command. -/
def portCmdStep (op : Nat) : Instr := match op with | 0 => .portCmdQuiesce | 1 => .portCmdTrain | _ => .portCmdCycle
/-- A port command ends: its packet, its FABRIC_RECONF or its FPORT hears of it, and the next one begins (R393, R394, R401). -/
def endCmd (s : State) (port st : Nat) : State :=
  let p := portOf s port
  match p.cmds with
  | [] => s
  | j :: rest =>
    let s := setPort s port { p with busy := false, cmds := rest }
    let mine := fun (r : Nat × W16 × List Nat × W64 × Bool) => j.packet == some (r.1, r.2.1)
    let s := match j.packet with
      | some (q, idx) =>
        if s.fab.reconf.any mine then
          let one := fun (r : Nat × W16 × List Nat × W64 × Bool) =>
            if mine r then (r.1, r.2.1, r.2.2.1.filter (fun i => i != port), r.2.2.2.1, r.2.2.2.2 || p.st == .failed) else r
          schedule { s with fab := { s.fab with reconf := s.fab.reconf.map one } } s.now .fabricReconf (evArgs q idx.toNat 0)
        else complete s q idx.toNat st (if st == stRejected then rejBadPacket else 0)
      | none => s
    let s := match j.cmd with
      | some c => completeCommand s c.cx c.id (if st == stDone then c.tag else none)
      | none => s
    match rest with
    | n :: _ => schedule s s.now (portCmdStep n.op) (evArgs port 0 0)
    | [] => s
/-- A port trained for its command: expectations written, TRAIN (R393). -/
def trainPort (s : State) (port : Nat) (j : PortCmd) : State :=
  let s := modPort s port (fun p => { p with
    expPeer := j.peer, expPort := j.peerPort, cmp := j.cmp, st := .train, since := s.now, busy := true })
  schedule s (s.now + 400000) .trainTimeout (evArgs port 0 0)
/-- The dark interval of a CYCLE (R393). -/
def darkPort (s : State) (port : Nat) (j : PortCmd) : State :=
  let s := modPort s port (fun p => { p with st := .dark, since := s.now, dark := j.dark, busy := true })
  schedule s (s.now + 10000 * j.dark) .darkTimeExpiry (evArgs port 0 0)
/-- A port that has drained goes DARK: a QUIESCE ends, a CYCLE waits (R393). -/
def goDark (s : State) (port : Nat) : State :=
  let s := modPort s port (fun p => { p with st := .dark, since := s.now })
  match (portOf s port).cmds with
  | j :: _ => if j.op == 2 then darkPort s port j else endCmd s port stDone
  | [] => s
/-- A quiescing port taken on: DRAIN once every started packet is sent, DARK once the replay buffer is empty (R392). -/
def settlePort (s : State) (port : Nat) : State :=
  let p := portOf s port
  let s := if p.st == .quiesce && p.stream.isEmpty then
      schedule (setPort s port { p with st := .drain, since := s.now }) (s.now + 100000) .drainDeadline (evArgs port 0 0)
    else s
  let p := portOf s port
  if p.st == .drain && p.replay.isEmpty then goDark s port else s
/-- The COLL with a step that sent a packet of this package: a SEND its data, a receive its clear-to-send and its acknowledgements, a
BARRIER its arrival (R398, R399); an acknowledgement names the schedule of the data, not that of the receive. -/
def stepOfPacket (s : State) (k : FabPacket) : Option Command :=
  let kind := fun (t : RunStep) =>
    let n := bits t.word 7 0
    if !k.fctl then n == 0 else if k.off == 2 then n == 3 else n == 1 || n == 2
  let mine := fun (t : RunStep) => kind t && bits t.word 31 16 == k.dst && t.word.extractLsb' 128 32 == k.stag
  (s.fab.cst.filter (fun e => e.1 == k.sched || (k.fctl && k.off == 1))).findSome? (fun e =>
    match e.2.run with
    | some (q, _) => if e.2.steps.any mine then some q else none
    | none => none)
/-- A packet held for a port discarded: it leaves its flow's count, and the gang whose step sent it rolls back (R396, R399). -/
def losePacket (counted : Bool) (s : State) (k : FabPacket) : State :=
  if k.from_.isSome then (if counted then creditBack s k else s)
  else
    let s := if !k.fctl || counted then flowLess s k.fctl k.dst else s
    match stepOfPacket s k with
    | some c => consumeError s (commandRegion s c) cEccUe
    | none => s
/-- What a port holds discarded: the flits of its replay buffer, packets started and packets waiting; DRAIN_LOSS counts flits and
packets (R399). -/
def loseHeld (s : State) (port : Nat) : State :=
  let p := portOf s port
  let s := countFabric s 5 (p.replay.length + p.waiting.length)
  let s := setPort s port { p with waiting := [], stream := [], started := [], replay := [], replaying := 0, partialRx := [] }
  let s := (p.started.map (fun t => t.pkt)).foldl (losePacket false) s
  p.waiting.foldl (losePacket true) s
/-- A port FAILED with a cause: its traffic is lost, its command ends (R392, R393, R399). -/
def failPort (s : State) (port cause : Nat) : State :=
  let s := modPort (loseHeld s port) port (fun p => { p with st := .failed, cause := cause, since := s.now })
  let s := if cause == 1 then countFabric s 6 1 else if cause == 2 then countFabric s 7 1 else s
  if (portOf s port).busy then endCmd s port stFault else s
/-- The head command of a port begun when it is of the step's kind and the port is free: not allowed from the port's state, it is
REJECTED (R393). -/
def beginCmd (s : State) (port op : Nat) : State :=
  let p := portOf s port
  match p.cmds with
  | [] => s
  | j :: _ =>
    let idle := p.st == .dark || p.st == .failed
    let quiesce := fun (s : State) =>
      pokePort (settlePort (modPort s port (fun p => { p with st := .quiesce, since := s.now, busy := true })) port) port
    if p.busy || j.op != op then s
    else match op with
      | 0 => if p.st == .active then quiesce s else endCmd s port stRejected
      | 1 => if idle && s.fab.idV then trainPort s port j else endCmd s port stRejected
      | _ =>
        if !s.fab.idV then endCmd s port stRejected
        else if p.st == .active then quiesce s
        else if idle then darkPort s port j
        else endCmd s port stRejected
/-- PORT_CMD_QUIESCE (R393). Operand: port. -/
def execPortCmdQuiesce (s : State) : Outcome := .next (beginCmd s s.ev.x 0)
/-- PORT_CMD_TRAIN (R393). Operand: port. -/
def execPortCmdTrain (s : State) : Outcome := .next (beginCmd s s.ev.x 1)
/-- PORT_CMD_CYCLE (R393). Operand: port. -/
def execPortCmdCycle (s : State) : Outcome := .next (beginCmd s s.ev.x 2)
/-- DARK_TIME_EXPIRY: the dark time of a CYCLE is over and the port trains (R393). Operand: port. -/
def execDarkTimeExpiry (s : State) : Outcome :=
  let port := s.ev.x
  let p := portOf s port
  match p.cmds with
  | j :: _ =>
    if p.busy && j.op == 2 && p.st == .dark && p.since + 10000 * j.dark ≤ s.now then
      .next (if s.fab.idV then trainPort s port j else endCmd s port stRejected)
    else .next s
  | [] => .next s
/-- LANE_LOCK: all lanes locked, a training port goes to VERIFY and sends its identity (R392). Operand: port. -/
def execLaneLock (s : State) : Outcome :=
  let port := s.ev.x
  if (portOf s port).st != .train then .next s
  else
    let s := modPort s port (fun p => { p with st := .verify, since := s.now, tx := identityFlit s port })
    .next (pokePort (schedule s (s.now + 20000) .verifyTimeout (evArgs port 0 0)) port)
/-- TRAIN_TIMEOUT: 400 µs without lock (R392). Operand: port. -/
def execTrainTimeout (s : State) : Outcome :=
  let p := portOf s s.ev.x
  if p.st == .train && p.since + 400000 ≤ s.now then .next (failPort s s.ev.x 1) else .next s
/-- A peer's identity judged: ACTIVE with the link and the dictionaries afresh, or FAILED on a mismatch (R390, R392). -/
def meetPeer (s : State) (port peer peerPort : Nat) : State :=
  let p := portOf s port
  if p.st != .verify then s
  else if (p.expPeer == 65535 || p.expPeer == peer) && (p.expPort == 255 || p.expPort == peerPort) then
    let s := setPort s port { p with
      st := .active, since := s.now, peer := peer, peerPort := peerPort, txSeq := 0, rxSeq := 0, ackd := 0xFFF#12, nak := false
      discarding := false, replay := [], resends := 0, replaying := 0, ackAt := s.now, stream := [], txDict := [], rxDict := []
      started := [], partialRx := [], credits := (0, 0), room := (Config.portCredits 0, Config.portCredits 1), say := false }
    pokePort (if p.busy then endCmd s port stDone else s) port
  else failPort s port 2
/-- IDENTITY_ARRIVAL: the peer's identity (R392). Operands: port, peer package, peer port. -/
def execIdentityArrival (s : State) : Outcome := .next (meetPeer s s.ev.x s.ev.y s.ev.z)
/-- VERIFY_TIMEOUT: 20 µs without an identity (R392). Operand: port. -/
def execVerifyTimeout (s : State) : Outcome :=
  let p := portOf s s.ev.x
  if p.st == .verify && p.since + 20000 ≤ s.now then .next (failPort s s.ev.x 2) else .next s
/-- LOSS_OF_LOCK: a lane of an ACTIVE port loses lock (R392, R399). Operand: port. -/
def execLossOfLock (s : State) : Outcome := .next (if (portOf s s.ev.x).st == .active then failPort s s.ev.x 4 else s)
/-- DRAIN_DEADLINE: 100 µs in DRAIN: the port is DARK with CAUSE 5 and its traffic is lost (R392, R399). Operand: port. -/
def execDrainDeadline (s : State) : Outcome :=
  let port := s.ev.x
  let p := portOf s port
  if p.st == .drain && p.since + 100000 ≤ s.now then
    .next (goDark (modPort (loseHeld s port) port (fun p => { p with cause := 5 })) port)
  else .next s

/-! ## Transmission and reception -/

/-- FABRIC_FLIT_TRANSMIT: a port sends one flit: its identity in VERIFY; else what it owes its peer, a flit of a replay, a data flit, or
nothing but idle filling (R388, R389, R392). Operand: port. -/
def execFabricFlitTransmit (s : State) : Outcome :=
  let port := s.ev.x
  let p := portOf s port
  let on := fun (s : State) => schedule s (s.now + 1) .fabricFlitTransmit (evArgs port 0 0)
  match p.st with
  | .verify => .next (schedule (setPort s port { p with tx := identityFlit s port }) (s.now + 64) .fabricFlitTransmit s.ev)
  | .dark => .next s
  | .train => .next s
  | .failed => .next s
  | _ =>
    if p.nak || (p.say && 0 < p.replaying) then .next (on (sendIdle s port))
    else if 0 < p.replaying then .next (on (sendReplay s port))
    else
      let s := if p.replay.length < 512 then fillFlit s port 16 else s
      let q := portOf s port
      if !q.stream.isEmpty && q.replay.length < 512 && q.st != .drain then .next (settlePort (on (sendData s port)) port)
      else if q.say then .next (on (sendIdle s port))
      else .next (settlePort s port)
/-- A replay from the oldest flit; in an ACTIVE port the sixteenth without a new ACK is the last, and the next means FAILED (R388,
R392). -/
def beginReplay (s : State) (port : Nat) : State :=
  let p := portOf s port
  if p.replay.isEmpty then s
  else if 16 ≤ p.resends && p.st == .active then failPort s port 3
  else
    let s := setPort s port { p with resends := p.resends + 1, replaying := p.replay.length, ackAt := s.now }
    pokePort (scheduleOnce s (s.now + 2000) .replayTimeout (evArgs port 0 0)) port
/-- REPLAY_TIMEOUT: 2 µs without a new ACK (R388). Operand: port. -/
def execReplayTimeout (s : State) : Outcome :=
  let port := s.ev.x
  let p := portOf s port
  let up := p.st == .active || p.st == .quiesce || p.st == .drain
  if !up || p.replay.isEmpty then .next s
  else if s.now < p.ackAt + 2000 then .next (schedule s (p.ackAt + 2000) .replayTimeout s.ev)
  else .next (beginReplay s port)
/-- The ACK of a flit: flits leave the replay buffer, packets whose last flit is acknowledged fill the dictionary (R388, R391). -/
def takeAck (s : State) (port : Nat) (ack : BitVec 12) : State :=
  let p := portOf s port
  let n := (ack - p.ackd).toNat
  if n == 0 || p.replay.length < n then s
  else
    let done := fun (t : Sent) => match t.last with | some q => (q - p.ackd - 1).toNat < n | none => false
    let dict := ((p.started.filter done).flatMap (fun t => t.ins)).foldl (fun (d : SMap W64) i => tput d i.1 i.2) p.txDict
    let s := setPort s port { p with
      replay := p.replay.drop n, ackd := ack, resends := 0, ackAt := s.now, replaying := min p.replaying (p.replay.length - n)
      started := p.started.filter (fun t => !done t), txDict := dict }
    pokePort (settlePort s port) port
/-- The step that takes a packet that has come in: delivery where the packet's bank says that it is for this package (R395). -/
def packetStep (s : State) (k : FabPacket) : Instr :=
  let e := fabricRoute s.fab k.bank k.dst
  if bitAt e 15 && bitAt e 14 then (if k.fctl then .fctlArrival else .fdataDelivery) else .transitForward
/-- A packet in the fabric unit. -/
def enterFabric (s : State) (k : FabPacket) : State :=
  let k := { k with id := s.nextId }
  let s := { s with nextId := s.nextId + 1, fab := { s.fab with transit := s.fab.transit ++ [k] } }
  schedule s s.now (packetStep s k) (evArgs k.id 0 0)
/-- A packet read whole from a port's stream: decoded with the port's table, its insertions performed; an illegal body is dropped
(R389, R390). -/
def takePacket (s : State) (port : Nat) (bs : List Byte) : State :=
  let n := fun (i k : Nat) => leNat ((bs.drop i).take k)
  let raw := bs.drop 16
  let p := portOf s port
  let a : Decoded := { words := [], ins := [], rest := raw }
  let got : Option Decoded := if (n 4 1).testBit 2 then decodeBody p.rxDict a 65 else some a
  let k : FabPacket := { id := 0, dst := n 0 2 % 1024, src := n 2 2 % 1024, fctl := (n 4 1).testBit 0, bank := (n 4 1).testBit 1,
                         sched := n 5 1 % 64, stag := BitVec.ofNat 32 (n 8 4), off := n 12 4, body := raw, from_ := some port }
  match got with
  | none => creditBack s k
  | some d =>
    let dict := d.ins.foldl (fun (t : SMap W64) i => tput t i.1 i.2) p.rxDict
    let body := if (n 4 1).testBit 2 then d.words.flatMap (fun w => leBytes 8 w.toNat) else raw
    enterFabric (setPort s port { p with rxDict := dict }) { k with body := body }
/-- The packets of an accepted flit's bytes; a zero header, or less than a header, fills the flit's rest. -/
def takeStream (s : State) (port : Nat) (bs : List Byte) : Nat → State
  | 0 => s
  | n + 1 =>
    let p := portOf s port
    if p.partialRx.isEmpty && (bs.length < 16 || (bs.take 16).all (fun b => b == 0)) then s
    else
      let all := p.partialRx ++ bs
      let need := 16 + leNat ((all.drop 6).take 2)
      if all.length < need then setPort s port { p with partialRx := all }
      else takeStream (takePacket (setPort s port { p with partialRx := [] }) port (all.take need)) port (all.drop need) n
/-- The credits that a flit returns. -/
def takeCredits (f : BitVec 2048) (p : Port) : Port := { p with room := (p.room.1 + bits f 39 32, p.room.2 + bits f 47 40) }
/-- A NAK owed, once until the expected SEQ arrives (R388). -/
def oweNak (s : State) (port : Nat) : State :=
  if (portOf s port).discarding then s else pokePort (modPort s port (fun p => { p with nak := true, discarding := true })) port
/-- A data flit: the next SEQ is accepted, an earlier one acknowledged again, any other discarded (R388). -/
def takeData (s : State) (port : Nat) (f : BitVec 2048) : State :=
  let p := portOf s port
  let seq := f.extractLsb' 0 12
  if seq == p.rxSeq then
    let s := setPort s port (takeCredits f { p with rxSeq := p.rxSeq + 1, discarding := false, say := true })
    pokePort (takeStream (countFabric s 1 1) port (flitPay f) 16) port
  else if (p.rxSeq - seq).toNat ≤ 2048 then pokePort (setPort s port { p with say := true }) port
  else oweNak s port
/-- FABRIC_FLIT_RECEIVE: a port takes a flit: in VERIFY an identity; else the ACK, NAK and credits that it carries, and its data (R388,
R392). Operands: port; the flit. -/
def execFabricFlitReceive (s : State) : Outcome :=
  let port := s.ev.x
  let f := s.ev.flit
  let p := portOf s port
  let kind := bits f 15 12
  match p.st with
  | .verify => if flitGood f && kind == 2 then .next (meetPeer s port (bits f 73 64) (bits f 87 80)) else .next s
  | .dark => .next s
  | .train => .next s
  | .failed => .next s
  | _ =>
    if !flitGood f then .next (oweNak (countFabric s 2 1) port)
    else if 2 ≤ kind then .next s
    else
      let s := takeAck s port (f.extractLsb' 16 12)
      let s := if bitAt f 28 then beginReplay s port else s
      let st := (portOf s port).st
      if st == .dark || st == .failed then .next s
      else if kind == 0 then .next (takeData s port f) else .next (pokePort (modPort s port (takeCredits f)) port)

end Sys2Proof.Machine
end

