-- ==== Sys2Proof/Machine/FabricUnit.lean ====
section
/-! DEFINITION. The fabric unit: forwarding, route switches, FABRIC_RECONF, and the collective engine (15_fabric, R389, R394 to R399,
R401). -/
namespace Sys2Proof.Machine

/-! ## Packets in the unit (R389, R395, R396) -/

/-- A packet waits for a port. -/
def queueAtPort (s : State) (port : Nat) (k : FabPacket) : State :=
  pokePort (modPort s port (fun p => { p with waiting := p.waiting ++ [k] })) port
/-- A packet of this package sent: it joins its flow and takes the flow's bank; without a route it is discarded (R395, R396). -/
def sendOwn (s : State) (fctl : Bool) (dst sched : Nat) (stag : W32) (off : Nat) (body : List Byte) : State :=
  let bank := flowBank s.fab fctl dst
  let k : FabPacket := { id := s.nextId, dst := dst, src := s.fab.id, fctl := fctl, bank := bank, sched := sched, stag := stag,
                         off := off, body := body, from_ := none }
  let s := flowMore { s with nextId := s.nextId + 1 } fctl dst
  let e := fabricRoute s.fab bank dst
  if !bitAt e 15 || 47 < bits e 5 0 then flowLess (countFabric s 8 1) fctl dst
  else if bitAt e 14 then enterFabric (if fctl then flowLess s fctl dst else s) k
  else queueAtPort s (bits e 5 0) k
/-- A packet in the unit that is the first of its input port and class: those are taken in arrival order (R395). -/
def firstPacket (s : State) (id : Nat) : Option FabPacket :=
  match s.fab.transit.find? (fun k => k.id == id) with
  | some k =>
    let same := fun (x : FabPacket) => x.from_ == k.from_ && x.fctl == k.fctl
    (s.fab.transit.find? same).filter (fun x => x.id == id)
  | none => none
/-- Whether a packet is still in the unit. -/
def inUnit (s : State) (id : Nat) : Bool := s.fab.transit.any (fun k => k.id == id)
/-- A packet taken out of the unit. -/
def leaveUnit (s : State) (k : FabPacket) : State :=
  { s with fab := { s.fab with transit := s.fab.transit.filter (fun x => x.id != k.id) } }
/-- TRANSIT_FORWARD: a packet goes on by its bank's entry for its destination, or is discarded where that is not reachable (R395).
Operand: packet. -/
def execTransitForward (s : State) : Outcome :=
  match firstPacket s s.ev.x with
  | some k =>
    let e := fabricRoute s.fab k.bank k.dst
    let t := leaveUnit s k
    if !bitAt e 15 || 47 < bits e 5 0 then .next (creditBack (countFabric t 8 1) k)
    else if bitAt e 14 then .next (schedule s s.now (packetStep s k) s.ev)
    else .next (queueAtPort t (bits e 5 0) k)
  | none => .next (if inUnit s s.ev.x then again s .transitForward else s)

/-! ## Route switches (R395, R396) -/

/-- DONE0 and DONE1 as the flows stand; with both, SW reads 0 and a ROUTESW completes. -/
def settleSwitch (s : State) : State :=
  let f := s.fab
  if !f.sw then s
  else
    let done := fun (c : Bool) => f.flows.all (fun x => x.fctl != c || x.bank == f.act)
    let both := done false && done true
    let s := { s with fab := { f with
      done0 := done false, done1 := done true, sw := !both, swCmd := if both then none else f.swCmd } }
    match both, f.swCmd with
    | true, some c => completeCommand s c.cx c.id c.tag
    | _, _ => s
/-- A switch begins: ACT toggles, and each flow with nothing outstanding may move (R396). -/
def beginSwitch (s : State) (cmd : Option Command) : State :=
  let f := s.fab
  let s := { s with fab := { f with act := !f.act, sw := true, done0 := false, done1 := false, arm := none, swCmd := cmd } }
  let idle := s.fab.flows.filter (fun x => x.out == 0)
  settleSwitch (idle.foldl (fun s x => schedule s s.now .flowSwitch (evArgs (ofBool x.fctl) x.dst 0)) s)
/-- FLOW_SWITCH: a flow with nothing outstanding moves to the bank that ACT names (R396). Operands: class, destination. -/
def execFlowSwitch (s : State) : Outcome :=
  let x := flowOf s.fab (s.ev.x == 1) s.ev.y
  if !s.fab.sw || x.out != 0 then .next s else .next (settleSwitch (setFlow s { x with bank := s.fab.act }))
/-- FAB_ROUTE_SWITCH_REQUEST: the host writes SW; ignored while SW or ARM reads 1 (R395, R396). -/
def execFabRouteSwitchRequest (s : State) : Outcome :=
  if s.fab.sw || s.fab.arm.isSome then .next s else .next (beginSwitch s none)

/-! ## FABRIC_RECONF (R394) -/

/-- An entry of a table within the limits of a PORT_CMD body (R393). -/
def reconfOk (v : Nat) : Bool :=
  let f := fun (lo n : Nat) => v / 2 ^ lo % 2 ^ n
  f 0 8 ≤ 47 && f 8 8 ≤ 2 && (f 16 16 ≤ 1023 || f 16 16 == 65535) && (f 32 8 ≤ 47 || f 32 8 == 255) && f 40 8 ≤ 1
/-- A FABRIC_RECONF under way. -/
def reconfOf (s : State) (q idx : Nat) : Option (List Nat × W64 × Bool) :=
  (s.fab.reconf.find? (fun r => r.1 == q && r.2.1.toNat == idx)).map (fun r => r.2.2)
/-- A FABRIC_RECONF no longer under way, or with other ports and image to wait for. -/
def setReconf (s : State) (q : Nat) (idx : W16) (r : Option (List Nat × W64 × Bool)) : State :=
  let rest := s.fab.reconf.filter (fun e => !(e.1 == q && e.2.1 == idx))
  { s with fab := { s.fab with reconf := match r with | some x => (q, idx, x) :: rest | none => rest } }
/-- A route image written to the standby bank (R394, R395). -/
def writeImage (s : State) (bs : List Byte) : State :=
  let base := if s.fab.act then 0x51000 else 0x51800
  (List.range 256).foldl (fun s i =>
    writeFabricRoutes s (base + 8 * i) (BitVec.ofNat 64 (leNat ((bs.drop (8 * i)).take 8))) 0xFFFFFFFFFFFFFFFF) s
/-- The entries of a FABRIC_RECONF judged and started together (R394). -/
def startReconf (s : State) (q : Nat) (p : Packet) (bs : List Byte) : State :=
  let es := (List.range (pktField p.bytes 24 2)).map (fun i => leNat ((bs.drop (8 * i)).take 8))
  let ports := es.map (fun v => v % 256)
  if !es.all reconfOk || ports.eraseDups.length != ports.length then complete s q p.idx.toNat stRejected rejBadPacket
  else
    let s := setReconf s q p.idx (some (ports, BitVec.ofNat 64 (pktField p.bytes 32 8), false))
    let s := es.foldl (fun s v =>
      let (port, j) := portCmdOf v (some (q, p.idx))
      acceptPortCmd s port j) s
    schedule s s.now .fabricReconf (evArgs q p.idx.toNat 0)
/-- FABRIC_RECONF: the entry table is read and its port commands started; the route image is written to the standby bank once SW reads
0; the packet completes when every port command has ended and the image is written (R394). Operands: queue, index. -/
def execFabricReconf (s : State) : Outcome :=
  let q := s.ev.x
  let idx := s.ev.y
  let virt := queueLoc (queueOf s q)
  match packetOf s q idx with
  | none => .next (setReconf s q (BitVec.ofNat 16 idx) none)
  | some p =>
    match reconfOf s q idx with
    | none =>
      match locAddress virt (pktField p.bytes 16 8) with
      | none => .next (complete s q idx stRejected rejBadPacket)
      | some a =>
        match queueRead s q virt a (8 * pktField p.bytes 24 2) 3 with
        | (.got bs, s) => .next (startReconf s q p bs)
        | (f, s) => .next (stopPacket s q idx .fabricReconf f)
    | some (ports, image, failed) =>
      if image != 0 then
        if s.fab.sw then .next (again s .fabricReconf)
        else match locAddress virt image.toNat with
          | none => .next (setReconf (complete s q idx stRejected rejBadPacket) q p.idx none)
          | some a =>
            match queueRead s q virt a 2048 3 with
            | (.got bs, s) =>
              .next (schedule (setReconf (writeImage s bs) q p.idx (some (ports, 0, failed))) s.now .fabricReconf s.ev)
            | (f, s) =>
              let s := stopPacket s q idx .fabricReconf f
              let waits := match f with | .noLink => true | .absent _ => true | _ => false
              .next (if waits then s else setReconf s q p.idx none)
      else if ports.isEmpty then .next (setReconf (complete s q idx (if failed then stFault else stDone) 0) q p.idx none)
      else .next s

/-! ## The collective engine's memory (R398; 09_memory_model, R263, R273) -/

/-- n bytes of at most two pages read for a COLL: core memory through its port, other memory at home. -/
def collRead (s : State) (c : Command) (a : W64) (n : Nat) : Gather × State :=
  match reachPieces s c.core (commandQueue s c) a n false 2 with
  | (.error g, s) => (g, s)
  | (.ok ps, s) =>
    let inCore := fun (p : Piece) => bits p.pa 61 58 == 3
    let bad := fun (p : Piece) =>
      if inCore p then portBad s (physCore p.pa) (bits p.pa 18 0) p.n else physBad s p.pa p.n
    match ps.find? bad with
    | some p => (.error, countPoison s p.pa)
    | none =>
      let one := fun (p : Piece) =>
        if inCore p then portRead s (physCore p.pa) (bits p.pa 18 0) p.n else homeRead s p.pa p.n
      let count := fun (s : State) (p : Piece) =>
        if inCore p then countCorrected s (physCore p.pa) (bits p.pa 18 0) p.n else countHome s p.pa p.n
      (.got (ps.flatMap one), ps.foldl count s)
/-- Bytes written for a COLL: core memory through its port, redirected in a publish window; other memory at home. -/
def collWrite (s : State) (c : Command) (a : W64) (bs : List Byte) : Gather × State :=
  match reachPieces s c.core (commandQueue s c) a bs.length true 2 with
  | (.error g, s) => (g, s)
  | (.ok ps, s) =>
    let put := fun (w : List Byte × State) (p : Piece) =>
      (w.1.drop p.n,
        if bits p.pa 61 58 == 3 then portWrite w.2 (physCore p.pa) (bits p.pa 18 0) (w.1.take p.n) true
        else physHomeWrite w.2 p.pa (w.1.take p.n) p.cmp)
    (.got [], (ps.foldl put (bs, s)).2)
/-- The code under which a range of a step fails R154, if it does. -/
def rangeFault (s : State) (c : Command) (a : W64) (n : Nat) : Option (BitVec 8) :=
  match anyCtx s c.cx with
  | none => none
  | some x =>
    match resolveAddress { x with priv := true } a n with
    | none => some cRange
    | some r =>
      let core := bits r 63 62 == 0
      let inner := bits r 63 62 == 2 || (core && 0x60000 < bits r 18 0 + n)
      if inner && !x.priv then some cPriv
      else if core && bits r 18 0 < 0x60000 && (windowOf s (bits r 60 52) (bits r 51 44)).2 < bits r 18 0 + n then some cRange
      else none

/-! ## Schedules (R397, R398) -/

/-- Fields of a step's 32 bytes (R397). -/
def stepKind (w : BitVec 256) : Nat := bits w 7 0
def stepPeer (w : BitVec 256) : Nat := bits w 31 16
def stepLen (w : BitVec 256) : Nat := bits w 63 32
def stepTag (w : BitVec 256) : W32 := w.extractLsb' 128 32
/-- A step within its limits (R397). -/
def stepOk (own : Nat) (w : BitVec 256) : Bool :=
  let len := stepLen w
  stepKind w ≤ 3 && bits w 15 13 == 0 && (stepKind w != 2 || bits w 11 8 ≤ 11) && stepPeer w ≤ 1023 && stepPeer w != own &&
    (if stepKind w == 3 then len == 0 else len % 64 == 0 && 64 ≤ len && len ≤ 2 ^ 24) &&
    (stepKind w == 2 || bits w 127 96 == 0) && bits w 255 160 == 0
/-- A schedule. -/
def schedOf (s : State) (k : Nat) : Sched := tget s.fab.cst Sched.reset k
/-- A schedule replaced. -/
def setSched (s : State) (k : Nat) (c : Sched) : State := { s with fab := { s.fab with cst := tput s.fab.cst k c } }
/-- NSTEP of a schedule. -/
def stepCount (c : Sched) : Nat := bits c.w0 58 48
/-- A step of a running schedule changed. -/
def modStep (s : State) (k n : Nat) (f : RunStep → RunStep) : State :=
  let c := schedOf s k
  setSched s k { c with steps := c.steps.map (fun t => if t.n == n then f t else t) }
/-- A COLL ended by a failure; steps already completed stand, and the next COLL of the schedule begins (R398, R401). -/
def endColl (s : State) (k : Nat) (code : BitVec 8) : State :=
  let c := schedOf s k
  match c.run with
  | some (q, _) =>
    let early := c.steps.filterMap (keptCts s.fab.id)
    let s := setSched (failCommand s q code) k { c with run := none, steps := [], next := 0 }
    schedule { s with fab := { s.fab with early := s.fab.early ++ early } } s.now .collStepStart (evArgs k 0 0)
  | none => s
/-- What an access of a COLL that does not succeed leaves: it parks at a page, ends with a code, or its gang rolls back. -/
def stopColl (s : State) (k : Nat) (q : Command) (g : Gather) (op : Instr) : State :=
  match g with
  | .absent va =>
    if s.pkg.denied.contains q.id then endColl (undeny s q.id) k cPageFault
    else parkCommand s (commandQueue s q) q va op s.ev
  | .wait w => putOff s w op s.ev
  | .failed code => endColl s k code
  | _ => consumeError s (commandRegion s q) cEccUe
/-- A clear-to-send, kind 0, or a barrier arrival, kind 2, that came before the step that it is for. -/
def earlyFor (s : State) (kind : Nat) (w : BitVec 256) : Option FabPacket :=
  s.fab.early.find? (fun e => e.off == kind && e.src == stepPeer w && e.stag == stepTag w)
/-- The state without an early packet. -/
def dropEarly (s : State) (e : Option FabPacket) : State :=
  match e with
  | some k => { s with fab := { s.fab with early := s.fab.early.erase k } }
  | none => s
/-- The ranges of a step: the first that fails gives the code (R401). -/
def stepFault (s : State) (c : Command) (base : W64) (w : BitVec 256) : Option (BitVec 8) :=
  let at_ := fun (off : Nat) => rangeFault s c (base + BitVec.ofNat 64 off) (stepLen w)
  if stepKind w == 3 then none
  else match at_ (bits w 95 64) with
    | some e => some e
    | none => if stepKind w == 2 then at_ (bits w 127 96) else none
/-- A step begun: a receive sends clear-to-send, a barrier its arrival (R398). -/
def beginStep (s : State) (k : Nat) (w : BitVec 256) : State :=
  let c := schedOf s k
  let kind := stepKind w
  let e := if kind == 0 then earlyFor s 0 w else if kind == 3 then earlyFor s 2 w else none
  let t : RunStep := { n := c.next, word := w, moved := 0, acked := 0, cts := kind == 0 && e.isSome, arrived := kind == 3 && e.isSome,
                       done := false, order := s.nextId }
  let s := setSched { dropEarly s e with nextId := s.nextId + 1 } k { c with next := c.next + 1, steps := c.steps ++ [t] }
  let s := if kind == 0 then s else sendOwn s true (stepPeer w) k (stepTag w) (if kind == 3 then 2 else 0) []
  schedule (schedule s s.now .collStepComplete (evArgs k t.n 0)) s.now .collStepStart (evArgs k 0 0)
/-- The next step of a running schedule fetched and begun, or the COLL ended (R397, R398, R401). -/
def nextStep (s : State) (k : Nat) (q : Command) (base : W64) : State :=
  let c := schedOf s k
  let a := c.w1 + BitVec.ofNat 64 (32 * c.next)
  match collRead s q a 32 with
  | (.got bs, s) =>
    let w := BitVec.ofNat 256 (leNat bs)
    let route := fabricRoute s.fab (flowBank s.fab (stepKind w != 0) (stepPeer w)) (stepPeer w)
    if bitAt w 12 && !c.steps.isEmpty then s
    else if !stepOk s.fab.id w then endColl s k cIllegalOperand
    else if !bitAt route 15 then endColl s k cRange
    else match stepFault s q base w with
      | some code => endColl s k code
      | none => beginStep s k w
  | (g, s) => stopColl s k q g .collStepStart
/-- COLL_STEP_START: a waiting COLL begins when its schedule is free; the next step starts while fewer than 8 run, its W flag allows it
and its gang runs (R398, R399). Operand: schedule. -/
def execCollStepStart (s : State) : Outcome :=
  let k := s.ev.x
  let c := schedOf s k
  match c.run with
  | none =>
    match c.waiting with
    | [] => .next s
    | r :: rest =>
      let s := setSched s k { c with run := some r, next := 0, doneN := 0, steps := [], waiting := rest }
      .next (schedule s s.now .collStepStart s.ev)
  | some (q, base) =>
    let r := regionOf s (commandRegion s q)
    if c.next == 0 && stepCount c == 0 then .next (endColl s k cIllegalOperand)
    else if stepCount c ≤ c.next || 8 ≤ c.steps.length then .next s
    else if r.st != .running || r.stopping then .next (schedule s (s.now + 1000) .collStepStart s.ev)
    else .next (nextStep s k q base)
/-- A step completed: counted; a BARRIER begins an armed switch; after the last step the COLL completes and the next one begins (R396,
R398). -/
def finishStep (s : State) (k : Nat) (t : RunStep) : State :=
  let c := schedOf s k
  let rest := c.steps.filter (fun x => x.n != t.n)
  let s := countFabric (setSched s k { c with steps := rest, doneN := c.doneN + 1 }) 9 1
  let s := match stepKind t.word == 3, s.fab.arm with
    | true, some a => beginSwitch s a
    | _, _ => s
  let s := match c.run with
    | some (q, _) =>
      if rest.isEmpty && stepCount c ≤ c.next then
        completeCommand (setSched s k { schedOf s k with run := none, next := 0 }) q.cx q.id q.tag
      else s
    | none => s
  schedule s s.now .collStepStart (evArgs k 0 0)
/-- Every running step of this package. -/
def allSteps (s : State) : List (Nat × RunStep) := s.fab.cst.flatMap (fun e => e.2.steps.map (fun t => (e.1, t)))
/-- The first started of the steps that a test holds for. -/
def firstStep (s : State) (ok : RunStep → Bool) : Option (Nat × RunStep) :=
  ((allSteps s).filter (fun e => ok e.2)).foldl (fun b e =>
    match b with
    | some x => if e.2.order < x.2.order then some e else b
    | none => some e) none
/-- A SEND with clear-to-send sends its next packet of at most 4,096 bytes, in ascending offset, after the earlier SENDs of its PEER and
STAG (R398). -/
def sendMore (s : State) (k : Nat) (q : Command) (base : W64) (t : RunStep) : State :=
  let w := t.word
  let before := fun (x : RunStep) =>
    stepKind x.word == 0 && stepPeer x.word == stepPeer w && stepTag x.word == stepTag w && x.moved < stepLen x.word
  if (firstStep s before).map (fun e => e.2.order) != some t.order then again s .collStepComplete
  else
    let n := min 4096 (stepLen w - t.moved)
    match collRead s q (base + BitVec.ofNat 64 (bits w 95 64 + t.moved)) n with
    | (.got bs, s) =>
      let s := sendOwn s false (stepPeer w) k (stepTag w) t.moved bs
      schedule (modStep s k t.n (fun x => { x with moved := x.moved + n })) (s.now + 1) .collStepComplete (evArgs k t.n 0)
    | (g, s) => stopColl s k q g .collStepComplete
/-- COLL_STEP_COMPLETE: a running step goes on, and completes: a SEND once all of it is delivered, a receive once all of it is written, a
BARRIER once the peer has arrived (R398). Operands: schedule, step. -/
def execCollStepComplete (s : State) : Outcome :=
  let k := s.ev.x
  let c := schedOf s k
  match c.run, c.steps.find? (fun t => t.n == s.ev.y) with
  | some (q, base), some t =>
    let len := stepLen t.word
    match stepKind t.word with
    | 0 =>
      if !t.cts then .next s
      else if t.moved < len then .next (sendMore s k q base t)
      else if (len + 4095) / 4096 ≤ t.acked then .next (finishStep s k t)
      else .next s
    | 3 => .next (if t.arrived then finishStep s k t else s)
    | _ => .next (if len ≤ t.moved then finishStep s k t else s)
  | _, _ => .next s

/-! ## Arrivals at this package (R389, R398) -/

/-- The bytes of a RECVRED: out[i] := op(a[i], r[i]) over 64-byte vectors, with the NV and OF events (R398; 08_cluster, R246). -/
def reduceBytes (op : Nat) (a r : List Byte) : List Byte × Nat × Nat :=
  let out := (List.range ((r.length + 63) / 64)).foldl (fun (acc : List Byte × Nat × Nat) i =>
    let (v, nv, of_) := redCombine op true (ofBytes (a.drop (64 * i))) (ofBytes (r.drop (64 * i)))
    (acc.1 ++ vBytes v, acc.2.1 + nv, acc.2.2 + of_)) ([], 0, 0)
  (out.1.take r.length, out.2)
/-- A delivered FDATA packet: it leaves the unit, its credit goes back, and its source is sent a delivery acknowledgement (R389). -/
def delivered (s : State) (k : FabPacket) : State :=
  sendOwn (creditBack (leaveUnit s k) k) true k.src k.sched k.stag 1 []
/-- A packet that its receive could not take: it waits, or its COLL has ended and it counts as delivered. -/
def stopDelivery (s : State) (k : FabPacket) (ki : Nat) (q : Command) (g : Gather) : State :=
  let t := stopColl s ki q g .fdataDelivery
  match g with
  | .absent _ => if (schedOf t ki).run.isSome then t else delivered t k
  | _ => delivered t k
/-- The bytes that a receive writes for a packet: those received, or the reduction of its local operand with them. -/
def receiveBytes (s : State) (q : Command) (base : W64) (w : BitVec 256) (k : FabPacket) : Gather × State :=
  if stepKind w == 1 then (.got k.body, s)
  else match collRead s q (base + BitVec.ofNat 64 (bits w 127 96 + k.off)) k.body.length with
    | (.got a, s) =>
      let (bs, nv, of_) := reduceBytes (bits w 11 8) a k.body
      (.got bs, countFabric (countFabric s 10 nv) 11 of_)
    | r => r
/-- FDATA_DELIVERY: a packet for this package is written or reduced by the first started receive of its source and STAG that has data
to come, and acknowledged; data that no receive claims is dropped (R389, R398, R399). Operand: packet. -/
def execFdataDelivery (s : State) : Outcome :=
  match firstPacket s s.ev.x with
  | some k =>
    let takes := fun (t : RunStep) => (stepKind t.word == 1 || stepKind t.word == 2) && stepPeer t.word == k.src &&
      stepTag t.word == k.stag && t.moved < stepLen t.word
    match firstStep s takes with
    | none => .next (delivered s k)
    | some (ki, t) =>
      match (schedOf s ki).run with
      | none => .next (delivered s k)
      | some (q, base) =>
        if stepLen t.word < k.off + k.body.length then .next (delivered s k)
        else match receiveBytes s q base t.word k with
          | (.got bs, s) =>
            match collWrite s q (base + BitVec.ofNat 64 (bits t.word 95 64 + k.off)) bs with
            | (.got _, s) =>
              let s := modStep s ki t.n (fun x => { x with moved := k.off + k.body.length })
              .next (schedule (delivered s k) s.now .collStepComplete (evArgs ki t.n 0))
            | (g, s) => .next (stopDelivery s k ki q g)
          | (g, s) => .next (stopDelivery s k ki q g)
  | none => .next (if inUnit s s.ev.x then again s .fdataDelivery else s)
/-- A step told of an arrival, and looked at again. -/
def tellStep (s : State) (e : Nat × RunStep) (f : RunStep → RunStep) : State :=
  schedule (modStep s e.1 e.2.n f) s.now .collStepComplete (evArgs e.1 e.2.n 0)
/-- FCTL_ARRIVAL: a clear-to-send lets the first started SEND that has none transmit, a barrier arrival completes the first BARRIER that
waits for it, each kept when it comes early; a delivery acknowledgement ends one packet of its flow (R389, R396, R398). Operand:
packet. -/
def execFctlArrival (s : State) : Outcome :=
  match firstPacket s s.ev.x with
  | some k =>
    let s := creditBack (leaveUnit s k) k
    let peer := fun (t : RunStep) => stepPeer t.word == k.src && stepTag t.word == k.stag
    let keep := { s with fab := { s.fab with early := s.fab.early ++ [k] } }
    match k.off with
    | 0 =>
      match firstStep s (fun t => stepKind t.word == 0 && !t.cts && peer t) with
      | some e => .next (tellStep s e (fun x => { x with cts := true }))
      | none => .next keep
    | 1 =>
      let s := flowLess s false k.src
      let mine := (schedOf s k.sched).steps.find? (fun t =>
        stepKind t.word == 0 && peer t && t.acked < (stepLen t.word + 4095) / 4096)
      match mine with
      | some t => .next (tellStep s (k.sched, t) (fun x => { x with acked := x.acked + 1 }))
      | none => .next s
    | 2 =>
      match firstStep s (fun t => stepKind t.word == 3 && !t.arrived && peer t) with
      | some e => .next (tellStep s e (fun x => { x with arrived := true }))
      | none => .next keep
    | _ => .next s
  | none => .next (if inUnit s s.ev.x then again s .fctlArrival else s)

end Sys2Proof.Machine
end

