-- ==== Sys2Proof/Machine/Fetch.lean ====
section
/-! DEFINITION. Fetching a body's words, starting a body, and the choice of the next step of the part (01_encoding, R16, R17, R42;
02_rule, R60, R63). -/
namespace Sys2Proof.Machine

/-- The working copy at a body's first word: the context's registers as committed, nothing staged. -/
def startWork (x : Ctx) (rule : Nat) (hdrA hdrB : W64) (inj : BitVec 42) : Work :=
  { Work.reset with
    rule := rule, hdrA := hdrA, hdrB := hdrB, s := x.s, v := x.v, lm := x.lm, bb := x.bb, bw := x.bw, tm := x.tm, tb := x.tb,
    en := x.en, flags := x.flags, inj := inj }

/-- The words of a body from header word A (01_encoding, R23). -/
def bodyLength (hdrA : W64) : Nat := bits hdrA 15 11 + 1
/-- Whether the body in flight has ended: at its last word, or by an abort. -/
def bodyOver (s : State) : Bool := !s.stage.running || bodyLength s.stage.work.hdrA ≤ s.stage.work.pc
/-- The words that the decoder sees at the body's program counter: none past the body's end (R16, R41). -/
def fetchWords (s : State) : List W32 :=
  let w := s.stage.work
  let at_ := bits w.hdrA 10 0 + w.pc
  let c := bodyCore s
  if w.pc + 1 < bodyLength w.hdrA then
    [bodyWord c s.stage.cx.val at_, bodyWord c s.stage.cx.val (at_ + 1)]
  else [bodyWord c s.stage.cx.val at_]
/-- The abort of a word that does not decode (R41, R42). -/
def decodeAbort (s : State) (e : DecodeError) : State :=
  let code := match e with | .illegalOpcode => cIllegalOpcode | .illegalOperand => cIllegalOperand
  let opc := ((fetchWords s).headD 0).extractLsb' 24 8
  bodyAborted s ({ s.stage.work with opc := opc }.advance 0 1)
    { code := code, info := 0, unit := 0, lane := 0, exp := 0, obs := 0 }

/-- Whether a core runs rounds: it holds a context that can become or is active, or work for its next round boundary, and
it is not stopped. -/
def coreLive (c : Core) : Bool :=
  !c.stopped && !c.halted &&
    (c.ctx.toList.any eligible || !c.traps.isEmpty ||
      !c.trets.isEmpty)

/-- Whether a step under way stands still because its core's or cluster's clock is stopped (10_die, R281). -/
def heldByClock (s : State) (p : Pending) : Bool :=
  let byMsg := match s.msgs.find? (fun m => m.id == p.args.x) with | some m => clockStopped s m.dst | none => false
  match p.op with
  | .tokenArrival => byMsg
  | .replyArrival => byMsg
  | .creditReturn => byMsg
  | .tretMessageArrival => byMsg
  | .trapRecordDelivery => byMsg
  | .barrierArrival => byMsg
  | .barrierCompletionArrival => byMsg
  | .pairHalfArrival => byMsg
  | .remoteAccessServe => clockStopped s p.args.x
  | .amoPerform => clockStopped s p.args.x
  | .publishFlip => clockStopped s p.args.x
  | .streamFetch => clockStopped s p.args.x
  | .streamWrite => clockStopped s p.args.x
  | .basinCommandComplete => clockStopped s p.args.x
  | .accrdRowDelivery => clockStopped s p.args.x
  | .epilogueRowDelivery => clockStopped s p.args.x
  | .confluenceCombine => clockStopped s p.args.x
  | .bucketLeak => clockStopped s p.args.x
  | .copyUnit => (vfOfCluster s p.args.x).off
  | _ => false
/-- The steps that may happen next when no body is in flight: the outside world's next input, every step under way, a round of
every live core. -/
def candidates (s : State) : List (Option Nat × Pending) :=
  (s.inputs.take 1).map (fun p => (none, p)) ++
    (s.agenda.zipIdx.filter (fun p => !heldByClock s p.1)).map (fun p => (some p.2, p.1)) ++
    (s.core.filter (fun c => coreLive c.2)).map (fun c => (some s.agenda.length, ⟨0, .round, evArgs c.1 0 0⟩))

/-- The step that happens next, and the state it acts on: one of the candidates, by the free choice (09_memory_model, R420);
its operands stand in ev, and time has passed. With no candidate only time passes. -/
def choose (s : State) : Option Instr × State :=
  let cs := candidates s
  let t := s.now + Config.elapsed s.fresh
  let s1 := { s with fresh := s.fresh + 1 }
  match cs.drop (Config.choice s.fresh % (max cs.length 1)) with
  | [] => (none, { s1 with now := t + 1 })
  | (src, p) :: _ =>
    let s2 := { s1 with now := max t p.due, ev := p.args }
    match src with
    | none => (some p.op, { s2 with inputs := s2.inputs.drop 1 })
    | some n => (some p.op, { s2 with agenda := s2.agenda.eraseIdx n })

/-- Header word A of a rule that holds any words: valid, both unit hints, 32 words from word 0. -/
def probeHeaderA : W64 := BitVec.ofNat 64 (2 ^ 58 + 2 ^ 57 + 2 ^ 56 + 31 * 2 ^ 11)
/-- Header word B of such a rule: every memory class. -/
def probeHeaderB : W64 := BitVec.ofNat 64 (0xFF * 2 ^ 40)
/-- The state with bytes of an instruction at the first words of context 0 of core 0, and a body in flight there. -/
def placeWords (s : State) (bs : List Byte) : State :=
  let c := coreOf s 0
  let x := vget c.ctx 0 Ctx.reset
  let s := setCore s 0 { c with active := memStore c.active (placed 0 bs) }
  { s with stage := { Stage.reset with active := true, core := 0, cx := 0, taken := [0], running := true,
                                       work := startWork x 0 probeHeaderA probeHeaderB c.inj } }

end Sys2Proof.Machine
end

