-- ==== Sys2Proof/Machine/Round.lean ====
section
/-! DEFINITION. The round of a core: guards and selection, the bodies one after another, the commit, the actions of the round
boundary and the pass to another context (02_rule, R60 to R63, R78; 07_core_failures, R210 to R212, R219). -/
namespace Sys2Proof.Machine

/-! ## The round boundary (02_rule, R78; 07_core_failures, R211, R219) -/

/-- A trap that waited for the boundary raised: its record takes the core's SEQ and the context's round counter (R219). -/
def raiseRecord (s : State) (k c : Nat) (r : Record) : State :=
  let x := ctxOf s k c
  let r := { r with w1 := putBits r.w1 28 17 (coreOf s k).seq.toNat, w2 := x.rounds }
  let s := keepRecord s k r
  let s := if bits r.w0 55 54 == 2 then suspectOf s k else s
  let (entry, from_) := match chainPosition s k c with | some n => (n + 1, n) | none => (0, 255)
  let s := countCtx (sendRecord s k entry r from_ x.fm) k c 11 1
  let x := ctxOf s k c
  if x.trap.isNone && !x.ended then abortPairs (setCtx s k c { x with trap := some r, trapFm := x.fm }) k c else s
/-- The other slots of a core in ring order after the active one (R211). -/
def ringFrom (act : Nat) : List Nat := [(act + 1) % 4, (act + 2) % 4, (act + 3) % 4]
/-- The context that the core passes to at a boundary, if it passes (R211). -/
def passTarget (o : Core) (idle : Bool) : Option Nat :=
  let act := o.act.toNat
  let x := vget o.ctx act Ctx.reset
  let other := (ringFrom act).find? (fun i => eligible (vget o.ctx i Ctx.reset))
  let rdy := (ringFrom act).find? (ready o)
  if !eligible x || (idle && other.isSome) then other
  else if x.yielded || o.qr == 4096 then rdy
  else none
/-- The pass to another context: QR cleared, SWITCHIN counted, the yield flag of the context left cleared (R211; 02_rule,
R53). -/
def passTo (s : State) (k n : Nat) : State :=
  let act := (coreOf s k).act.toNat
  let s := setCtx s k act { ctxOf s k act with yielded := false }
  let s := setCore s k { coreOf s k with act := BitVec.ofNat 2 n, qr := 0 }
  countCtx s k n 10 1
/-- The answer to a sweep of a core's region, on RED, with idle, SENT and RCVD as they stand at its round boundary
(12_package_launch, R333). -/
def answerSweep (s : State) (k : Nat) : State :=
  let o := coreOf s k
  match o.ask with
  | none => s
  | some n =>
    let p := Payload.still n (coreIdle s n k false) o.sent o.rcvd
    sendFlit (setCore s k { o with ask := none }) 2 k (stillRoot (regionOf s n)) p
/-- The actions of a round boundary: traps that wait for it, then resume messages, then the answer to a sweep. The context pass follows them: the core takes it
before its next cycle 0, so that a stop of the gang or of the clock falls before it (02_rule, R78; R211). -/
def boundary (s : State) (k : Nat) (idle : Bool) : State :=
  let o := coreOf s k
  let s := setCore s k { o with traps := [], trets := [], pass := some idle }
  let s := o.traps.foldl (fun s t => raiseRecord s k t.1 t.2) s
  answerSweep (o.trets.foldl (fun s t => applyTret s k t.1 t.2.1 t.2.2) s) k
/-- The context pass that the last round boundary called for (R211). -/
def takePass (s : State) (k : Nat) : State :=
  let o := coreOf s k
  match o.pass with
  | none => s
  | some idle =>
    let s := setCore s k { o with pass := none }
    match passTarget o idle with
    | some n => passTo s k n
    | none => s
/-- The counts of a round that has run: the context's round counter and QR (R210, R224). -/
def countRound (s : State) (k c : Nat) : State :=
  let x := ctxOf s k c
  let s := setCtx s k c { x with rounds := x.rounds + 1 }
  setCore s k { coreOf s k with qr := min ((coreOf s k).qr + 1) 4096 }

/-! ## Bodies -/

/-- The rules of a round in the order in which their bodies run: ascending index (02_rule, R67). -/
def runOrder (taken : List Nat) : List Nat := (List.range 64).filter (fun i => taken.contains i)
/-- The body of a rule of the round in flight put at its first word. -/
def startBody (s : State) (i : Nat) (rest : List Nat) (inj : BitVec 42) : State :=
  let c := coreOf s s.stage.core
  let cx := s.stage.cx.val
  let w := startWork (vget c.ctx cx Ctx.reset) i (headerA c cx i) (headerB c cx i) inj
  { s with stage := { s.stage with todo := rest, running := true, work := w } }
/-- The round of a core whose active context is settled: an active context that is not eligible leaves only the boundary; else the
guards are evaluated and the rules taken; an idle round is over at once, with the checks of the context's stream engines raised
(02_rule, R60, R62; R206). -/
def runRound (s : State) (k : Nat) : State :=
  let o := coreOf s k
  let c := o.act.toNat
  let x := vget o.ctx c Ctx.reset
  if !eligible x then boundary s k false
  else
    let s := countCore (setCore s k (markReady o)) k 33 (badHeaders o c)
    let taken := selectRules o c x
    match runOrder taken with
    | [] =>
      let x := ctxOf s k c
      let s := countCtx (setCtx s k c { x with fired := false }) k c 9 1
      let (s, checks) := takeChecks s k c
      boundary (countRound (raiseTraps s k c x.fm checks) k c) k true
    | i :: r =>
      let st := { Stage.reset with active := true, core := k, cx := Fin.ofNat 4 c, taken := taken }
      startBody { s with stage := st } i r o.inj
/-- A core's round begun: the pass that its last boundary called for is taken first (R78, R211). -/
def startRound (s : State) (k : Nat) : State :=
  if !coreLive (coreOf s k) || clockStopped s k || (clusterOf s (clusterKey k)).rstate != 0 then s
  else
    let s := takePass s k
    let x := ctxOf s k (coreOf s k).act.toNat
    runRound (if eligible x then tellSwapper s x.region else s) k
/-- The end of a body: the next body of the round starts, or the round commits and its boundary is taken (02_rule, R60, R68). -/
def endBody (s : State) : State :=
  let st := s.stage
  let fin := if st.running then st.finished ++ [⟨st.work, none⟩] else st.finished
  let s := { s with stage := { st with running := false, finished := fin } }
  match st.todo with
  | i :: r => startBody s i r st.work.inj
  | [] => boundary (lateWrites s (countRound (commitRound s) st.core st.cx.val)) st.core false
/-- ROUND: a core runs one round of its active context, its bodies between its start and its end (R60). Operand: core. -/
def execRound (s : State) : Outcome :=
  if s.stage.active then (if bodyOver s then .next (endBody s) else .next s) else .next (startRound s s.ev.x)

end Sys2Proof.Machine
end

