-- ==== Sys2Proof/Machine/Dispatch.lean ====
section
/-! DEFINITION. The dispatch: one arm for each constructor of Instr. -/
namespace Sys2Proof.Machine

/-- One step of an instruction or event. -/
def exec (i : Instr) (s : State) : Host.Outcome State Fault Refusal :=
  match i with
  | .nop t => Sys2Proof.Machine.execNop t s
  | .mov a d e t => Sys2Proof.Machine.execMov a d e t s
  | .movi d im => Sys2Proof.Machine.execMovi d im s
  | .movsh a d im => Sys2Proof.Machine.execMovsh a d im s
  | .add a b d e t => Sys2Proof.Machine.execAdd a b d e t s
  | .addi a d im => Sys2Proof.Machine.execAddi a d im s
  | .sub a b d e t => Sys2Proof.Machine.execSub a b d e t s
  | .mul a b d e t => Sys2Proof.Machine.execMul a b d e t s
  | .mulh a b d e t => Sys2Proof.Machine.execMulh a b d e t s
  | .mulhu a b d e t => Sys2Proof.Machine.execMulhu a b d e t s
  | .div a b d e t => Sys2Proof.Machine.execDiv a b d e t s
  | .divu a b d e t => Sys2Proof.Machine.execDivu a b d e t s
  | .rem a b d e t => Sys2Proof.Machine.execRem a b d e t s
  | .remu a b d e t => Sys2Proof.Machine.execRemu a b d e t s
  | .and a b d e t => Sys2Proof.Machine.execAnd a b d e t s
  | .andi a d im => Sys2Proof.Machine.execAndi a d im s
  | .or a b d e t => Sys2Proof.Machine.execOr a b d e t s
  | .ori a d im => Sys2Proof.Machine.execOri a d im s
  | .xor a b d e t => Sys2Proof.Machine.execXor a b d e t s
  | .xori a d im => Sys2Proof.Machine.execXori a d im s
  | .shl a b d e t => Sys2Proof.Machine.execShl a b d e t s
  | .shli a d im => Sys2Proof.Machine.execShli a d im s
  | .shr a b d e t => Sys2Proof.Machine.execShr a b d e t s
  | .shri a d im => Sys2Proof.Machine.execShri a d im s
  | .sar a b d e t => Sys2Proof.Machine.execSar a b d e t s
  | .sari a d im => Sys2Proof.Machine.execSari a d im s
  | .rol a b d e t => Sys2Proof.Machine.execRol a b d e t s
  | .clz a d e t => Sys2Proof.Machine.execClz a d e t s
  | .ctz a d e t => Sys2Proof.Machine.execCtz a d e t s
  | .popc a d e t => Sys2Proof.Machine.execPopc a d e t s
  | .min a b d e t => Sys2Proof.Machine.execMin a b d e t s
  | .max a b d e t => Sys2Proof.Machine.execMax a b d e t s
  | .minu a b d e t => Sys2Proof.Machine.execMinu a b d e t s
  | .maxu a b d e t => Sys2Proof.Machine.execMaxu a b d e t s
  | .addsat a b d e t => Sys2Proof.Machine.execAddsat a b d e t s
  | .subsat a b d e t => Sys2Proof.Machine.execSubsat a b d e t s
  | .seq a b d e t => Sys2Proof.Machine.execSeq a b d e t s
  | .sne a b d e t => Sys2Proof.Machine.execSne a b d e t s
  | .slt a b d e t => Sys2Proof.Machine.execSlt a b d e t s
  | .sltu a b d e t => Sys2Proof.Machine.execSltu a b d e t s
  | .sle a b d e t => Sys2Proof.Machine.execSle a b d e t s
  | .sleu a b d e t => Sys2Proof.Machine.execSleu a b d e t s
  | .sel a b d e t => Sys2Proof.Machine.execSel a b d e t s
  | .sext a d im => Sys2Proof.Machine.execSext a d im s
  | .zext a d im => Sys2Proof.Machine.execZext a d im s
  | .bfx a d im => Sys2Proof.Machine.execBfx a d im s
  | .bfi a b d e t => Sys2Proof.Machine.execBfi a b d e t s
  | .xyadr a b d e t => Sys2Proof.Machine.execXyadr a b d e t s
  | .reladr a b d e t => Sys2Proof.Machine.execReladr a b d e t s
  | .myxy d e t => Sys2Proof.Machine.execMyxy d e t s
  | .adrx a d im => Sys2Proof.Machine.execAdrx a d im s
  | .adrchk a b d e t => Sys2Proof.Machine.execAdrchk a b d e t s
  | .vmov a d e t => Sys2Proof.Machine.execVmov a d e t s
  | .vbcast a d e t => Sys2Proof.Machine.execVbcast a d e t s
  | .vperm a b d e t => Sys2Proof.Machine.execVperm a b d e t s
  | .vextr a d im => Sys2Proof.Machine.execVextr a d im s
  | .vins a d im => Sys2Proof.Machine.execVins a d im s
  | .vaddF32 a b d e t => Sys2Proof.Machine.execVaddF32 a b d e t s
  | .vsubF32 a b d e t => Sys2Proof.Machine.execVsubF32 a b d e t s
  | .vmulF32 a b d e t => Sys2Proof.Machine.execVmulF32 a b d e t s
  | .vfmaF32 a b d e t => Sys2Proof.Machine.execVfmaF32 a b d e t s
  | .vminF32 a b d e t => Sys2Proof.Machine.execVminF32 a b d e t s
  | .vmaxF32 a b d e t => Sys2Proof.Machine.execVmaxF32 a b d e t s
  | .vaddF64 a b d e t => Sys2Proof.Machine.execVaddF64 a b d e t s
  | .vsubF64 a b d e t => Sys2Proof.Machine.execVsubF64 a b d e t s
  | .vmulF64 a b d e t => Sys2Proof.Machine.execVmulF64 a b d e t s
  | .vfmaF64 a b d e t => Sys2Proof.Machine.execVfmaF64 a b d e t s
  | .vaddBf16 a b d e t => Sys2Proof.Machine.execVaddBf16 a b d e t s
  | .vmulBf16 a b d e t => Sys2Proof.Machine.execVmulBf16 a b d e t s
  | .vdot2Bf16 a b d e t => Sys2Proof.Machine.execVdot2Bf16 a b d e t s
  | .vabsF32 a d e t => Sys2Proof.Machine.execVabsF32 a d e t s
  | .vnegF32 a d e t => Sys2Proof.Machine.execVnegF32 a d e t s
  | .vrcpF32 a d e t => Sys2Proof.Machine.execVrcpF32 a d e t s
  | .vrsqF32 a d e t => Sys2Proof.Machine.execVrsqF32 a d e t s
  | .vsqrtF32 a d e t => Sys2Proof.Machine.execVsqrtF32 a d e t s
  | .vexp2F32 a d e t => Sys2Proof.Machine.execVexp2F32 a d e t s
  | .vlog2F32 a d e t => Sys2Proof.Machine.execVlog2F32 a d e t s
  | .vtanhF32 a d e t => Sys2Proof.Machine.execVtanhF32 a d e t s
  | .vceqF32 a b d e t => Sys2Proof.Machine.execVceqF32 a b d e t s
  | .vcltF32 a b d e t => Sys2Proof.Machine.execVcltF32 a b d e t s
  | .vcleF32 a b d e t => Sys2Proof.Machine.execVcleF32 a b d e t s
  | .vsel a b d e t => Sys2Proof.Machine.execVsel a b d e t s
  | .viadd a b d e t => Sys2Proof.Machine.execViadd a b d e t s
  | .visub a b d e t => Sys2Proof.Machine.execVisub a b d e t s
  | .vimul a b d e t => Sys2Proof.Machine.execVimul a b d e t s
  | .vand a b d e t => Sys2Proof.Machine.execVand a b d e t s
  | .vor a b d e t => Sys2Proof.Machine.execVor a b d e t s
  | .vxor a b d e t => Sys2Proof.Machine.execVxor a b d e t s
  | .vshl a b d e t => Sys2Proof.Machine.execVshl a b d e t s
  | .vshr a b d e t => Sys2Proof.Machine.execVshr a b d e t s
  | .vsar a b d e t => Sys2Proof.Machine.execVsar a b d e t s
  | .vimin a b d e t => Sys2Proof.Machine.execVimin a b d e t s
  | .vimax a b d e t => Sys2Proof.Machine.execVimax a b d e t s
  | .viceq a b d e t => Sys2Proof.Machine.execViceq a b d e t s
  | .viclt a b d e t => Sys2Proof.Machine.execViclt a b d e t s
  | .viaddsatI8 a b d e t => Sys2Proof.Machine.execViaddsatI8 a b d e t s
  | .vrsumF32 a d e t => Sys2Proof.Machine.execVrsumF32 a d e t s
  | .vrmaxF32 a d e t => Sys2Proof.Machine.execVrmaxF32 a d e t s
  | .vrsumI32 a d e t => Sys2Proof.Machine.execVrsumI32 a d e t s
  | .vmset im => Sys2Proof.Machine.execVmset im s
  | .vmget d e t => Sys2Proof.Machine.execVmget d e t s
  | .vshiftl a d im => Sys2Proof.Machine.execVshiftl a d im s
  | .vscanF32 a d e t => Sys2Proof.Machine.execVscanF32 a d e t s
  | .cvt a d im => Sys2Proof.Machine.execCvt a d im s
  | .vcvt a d im => Sys2Proof.Machine.execVcvt a d im s
  | .vpack a d im => Sys2Proof.Machine.execVpack a d im s
  | .vunpk a d im => Sys2Proof.Machine.execVunpk a d im s
  | .vscale a b d e t => Sys2Proof.Machine.execVscale a b d e t s
  | .vscalex a b d e t => Sys2Proof.Machine.execVscalex a b d e t s
  | .bsinit a b d e t => Sys2Proof.Machine.execBsinit a b d e t s
  | .bspeek a d im => Sys2Proof.Machine.execBspeek a d im s
  | .bsget a d im => Sys2Proof.Machine.execBsget a d im s
  | .bsskip a im => Sys2Proof.Machine.execBsskip a im s
  | .bshuf a d e t => Sys2Proof.Machine.execBshuf a d e t s
  | .bsput a b d t => Sys2Proof.Machine.execBsput a b d t s
  | .bsflush d t => Sys2Proof.Machine.execBsflush d t s
  | .bsstat d e t => Sys2Proof.Machine.execBsstat d e t s
  | .fclass a b d e t => Sys2Proof.Machine.execFclass a b d e t s
  | .abort t => Sys2Proof.Machine.execAbort t s
  | .abortz a t => Sys2Proof.Machine.execAbortz a t s
  | .abortnz a t => Sys2Proof.Machine.execAbortnz a t s
  | .ruleon im => Sys2Proof.Machine.execRuleon im s
  | .ruleoff im => Sys2Proof.Machine.execRuleoff im s
  | .rulemask a b d e t => Sys2Proof.Machine.execRulemask a b d e t s
  | .raborts a b d e t => Sys2Proof.Machine.execRaborts a b d e t s
  | .ctxend t => Sys2Proof.Machine.execCtxend t s
  | .ctxyield t => Sys2Proof.Machine.execCtxyield t s
  | .tset im => Sys2Proof.Machine.execTset im s
  | .tclr im => Sys2Proof.Machine.execTclr im s
  | .tffr a d e t => Sys2Proof.Machine.execTffr a d e t s
  | .tany a d e t => Sys2Proof.Machine.execTany a d e t s
  | .tall a d e t => Sys2Proof.Machine.execTall a d e t s
  | .tmask a b d e t => Sys2Proof.Machine.execTmask a b d e t s
  | .fence im => Sys2Proof.Machine.execFence im s
  | .trap im => Sys2Proof.Machine.execTrap im s
  | .tret a b t => Sys2Proof.Machine.execTret a b t s
  | .csrr d im => Sys2Proof.Machine.execCsrr d im s
  | .csrw a d im => Sys2Proof.Machine.execCsrw a d im s
  | .mcrd a d e t => Sys2Proof.Machine.execMcrd a d e t s
  | .cntrd a d e t => Sys2Proof.Machine.execCntrd a d e t s
  | .cntclr a t => Sys2Proof.Machine.execCntclr a t s
  | .errinj a d e t => Sys2Proof.Machine.execErrinj a d e t s
  | .timerd a d e t => Sys2Proof.Machine.execTimerd a d e t s
  | .roundrd d e t => Sys2Proof.Machine.execRoundrd d e t s
  | .fmtmode a d e t => Sys2Proof.Machine.execFmtmode a d e t s
  | .ld a d e t xw xoff => Sys2Proof.Machine.execLd a d e t xw xoff s
  | .st a b t xw xoff => Sys2Proof.Machine.execSt a b t xw xoff s
  | .stn a b t xh xoff => Sys2Proof.Machine.execStn a b t xh xoff s
  | .vld a d e t xoff => Sys2Proof.Machine.execVld a d e t xoff s
  | .vst a b t xm xoff => Sys2Proof.Machine.execVst a b t xm xoff s
  | .vldx a b d e t xw xm xoff => Sys2Proof.Machine.execVldx a b d e t xw xm xoff s
  | .vstx a b t xw xm xix xoff => Sys2Proof.Machine.execVstx a b t xw xm xix xoff s
  | .rld a t xw xrt xoff => Sys2Proof.Machine.execRld a t xw xrt xoff s
  | .rst a b t xw xrt xrpy xoff => Sys2Proof.Machine.execRst a b t xw xrt xrpy xoff s
  | .rvld a t xrt xoff => Sys2Proof.Machine.execRvld a t xrt xoff s
  | .rvst a b t xrt xrpy xoff => Sys2Proof.Machine.execRvst a b t xrt xrpy xoff s
  | .amoAdd a b t xw xrt xrpy xoff => Sys2Proof.Machine.execAmoAdd a b t xw xrt xrpy xoff s
  | .amoMin a b t xw xrt xrpy xoff => Sys2Proof.Machine.execAmoMin a b t xw xrt xrpy xoff s
  | .amoMax a b t xw xrt xrpy xoff => Sys2Proof.Machine.execAmoMax a b t xw xrt xrpy xoff s
  | .amoMinu a b t xw xrt xrpy xoff => Sys2Proof.Machine.execAmoMinu a b t xw xrt xrpy xoff s
  | .amoMaxu a b t xw xrt xrpy xoff => Sys2Proof.Machine.execAmoMaxu a b t xw xrt xrpy xoff s
  | .amoAnd a b t xw xrt xrpy xoff => Sys2Proof.Machine.execAmoAnd a b t xw xrt xrpy xoff s
  | .amoOr a b t xw xrt xrpy xoff => Sys2Proof.Machine.execAmoOr a b t xw xrt xrpy xoff s
  | .amoXor a b t xw xrt xrpy xoff => Sys2Proof.Machine.execAmoXor a b t xw xrt xrpy xoff s
  | .amoSwap a b t xw xrt xrpy xoff => Sys2Proof.Machine.execAmoSwap a b t xw xrt xrpy xoff s
  | .amoCas a b t xw xrt xrpy xcmp xoff => Sys2Proof.Machine.execAmoCas a b t xw xrt xrpy xcmp xoff s
  | .amoFaddF32 a b t xw xrt xrpy xoff => Sys2Proof.Machine.execAmoFaddF32 a b t xw xrt xrpy xoff s
  | .amoFaddBf16 a b t xw xrt xrpy xoff => Sys2Proof.Machine.execAmoFaddBf16 a b t xw xrt xrpy xoff s
  | .stream a d t xdir xfmt xesz => Sys2Proof.Machine.execStream a d t xdir xfmt xesz s
  | .strctlUnbind d t => Sys2Proof.Machine.execStrctlUnbind d t s
  | .strctlPause d t => Sys2Proof.Machine.execStrctlPause d t s
  | .strctlResume d t => Sys2Proof.Machine.execStrctlResume d t s
  | .strctlDrain d t xtg => Sys2Proof.Machine.execStrctlDrain d t xtg s
  | .cpy a b xtg xte xlen => Sys2Proof.Machine.execCpy a b xtg xte xlen s
  | .cpy2 a xtg xte => Sys2Proof.Machine.execCpy2 a xtg xte s
  | .publish a xtg xte xwin => Sys2Proof.Machine.execPublish a xtg xte xwin s
  | .pfetch a b xtg xte => Sys2Proof.Machine.execPfetch a b xtg xte s
  | .mma a b t xacc xaf xbf xk xm xn xz xbt xep => Sys2Proof.Machine.execMma a b t xacc xaf xbf xk xm xn xz xbt xep s
  | .mmaz a b t xacc xaf xbf xk xm xn xz xbt xep => Sys2Proof.Machine.execMmaz a b t xacc xaf xbf xk xm xn xz xbt xep s
  | .mmat a b t xacc xaf xbf xk xm xn xz xbt xep => Sys2Proof.Machine.execMmat a b t xacc xaf xbf xk xm xn xz xbt xep s
  | .mmai8 a b t xacc xaf xbf xk xm xn xz xbt xep => Sys2Proof.Machine.execMmai8 a b t xacc xaf xbf xk xm xn xz xbt xep s
  | .mmamx a b t xacc xaf xbf xk xm xn xz xbt xep => Sys2Proof.Machine.execMmamx a b t xacc xaf xbf xk xm xn xz xbt xep s
  | .accrd t xacc xrt xfirst xrn xep xclr => Sys2Proof.Machine.execAccrd t xacc xrt xfirst xrn xep xclr s
  | .accwr a t xacc xtyp xfirst xrn => Sys2Proof.Machine.execAccwr a t xacc xtyp xfirst xrn s
  | .accz t xacc xtyp => Sys2Proof.Machine.execAccz t xacc xtyp s
  | .epicfg a t xch => Sys2Proof.Machine.execEpicfg a t xch s
  | .abftcfg t xen xcorr => Sys2Proof.Machine.execAbftcfg t xen xcorr s
  | .bqstat d e t xsel xclr => Sys2Proof.Machine.execBqstat d e t xsel xclr s
  | .bar xk xtg xte => Sys2Proof.Machine.execBar xk xtg xte s
  | .bart a xk xtg xtm => Sys2Proof.Machine.execBart a xk xtg xtm s
  | .red a xtr xop xv xall xrt => Sys2Proof.Machine.execRed a xtr xop xv xall xrt s
  | .pairx a xch xrt => Sys2Proof.Machine.execPairx a xch xrt s
  | .sluice a => Sys2Proof.Machine.execSluice a s
  | .hfwd a => Sys2Proof.Machine.execHfwd a s
  | .bandrd a d e t => Sys2Proof.Machine.execBandrd a d e t s
  | .toffrd a d e t => Sys2Proof.Machine.execToffrd a d e t s
  | .vfreq a d e t => Sys2Proof.Machine.execVfreq a d e t s
  | .weir a d e t => Sys2Proof.Machine.execWeir a d e t s
  | .rsvld a b t xtg xte xlen => Sys2Proof.Machine.execRsvld a b t xtg xte xlen s
  | .rsvcfgPart a t xtg xte => Sys2Proof.Machine.execRsvcfgPart a t xtg xte s
  | .rsvcfgDrop a t xtg xte => Sys2Proof.Machine.execRsvcfgDrop a t xtg xte s
  | .cgsend a b xg xtg xte xsrc xhuf xfmt xlast => Sys2Proof.Machine.execCgsend a b xg xtg xte xsrc xhuf xfmt xlast s
  | .cgrant xg xhold => Sys2Proof.Machine.execCgrant xg xhold s
  | .cgwake xg xtg xte => Sys2Proof.Machine.execCgwake xg xtg xte s
  | .cgrel xport xk => Sys2Proof.Machine.execCgrel xport xk s
  | .cgcfgFilter a xix => Sys2Proof.Machine.execCgcfgFilter a xix s
  | .cgcfgPort a xix => Sys2Proof.Machine.execCgcfgPort a xix s
  | .cgcfgDepth a xix => Sys2Proof.Machine.execCgcfgDepth a xix s
  | .cgstat a d e t xsel => Sys2Proof.Machine.execCgstat a d e t xsel s
  | .eos xports xend => Sys2Proof.Machine.execEos xports xend s
  | .cfgswap a xdis xtg xte => Sys2Proof.Machine.execCfgswap a xdis xtg xte s
  | .gbar xtg xte => Sys2Proof.Machine.execGbar xtg xte s
  | .statred xkind xidx xmax xrt => Sys2Proof.Machine.execStatred xkind xidx xmax xrt s
  | .qstat a d e t xsel => Sys2Proof.Machine.execQstat a d e t xsel s
  | .xstr a xtg xte => Sys2Proof.Machine.execXstr a xtg xte s
  | .migrate a b xtg xte => Sys2Proof.Machine.execMigrate a b xtg xte s
  | .tlbinvPage a b xtg xte => Sys2Proof.Machine.execTlbinvPage a b xtg xte s
  | .tlbinvQueue b xtg xte => Sys2Proof.Machine.execTlbinvQueue b xtg xte s
  | .tlbinvAll xtg xte => Sys2Proof.Machine.execTlbinvAll xtg xte s
  | .compattrQuery a b xtg xte => Sys2Proof.Machine.execCompattrQuery a b xtg xte s
  | .compattrSet a b xtg xte => Sys2Proof.Machine.execCompattrSet a b xtg xte s
  | .compattrRecomp a b xtg xte => Sys2Proof.Machine.execCompattrRecomp a b xtg xte s
  | .coll a xk xtg xte => Sys2Proof.Machine.execColl a xk xtg xte s
  | .routesw xtg xte => Sys2Proof.Machine.execRoutesw xtg xte s
  | .fportQuiesce a b xtg xte => Sys2Proof.Machine.execFportQuiesce a b xtg xte s
  | .fportTrain a b xtg xte => Sys2Proof.Machine.execFportTrain a b xtg xte s
  | .fportCycle a b xtg xte => Sys2Proof.Machine.execFportCycle a b xtg xte s
  | .fstat a d e t xsel => Sys2Proof.Machine.execFstat a d e t xsel s
  | .round => Sys2Proof.Machine.execRound s
  | .tretMessageArrival => Sys2Proof.Machine.execTretMessageArrival s
  | .tokenArrival => Sys2Proof.Machine.execTokenArrival s
  | .tokenSpill => Sys2Proof.Machine.execTokenSpill s
  | .creditReturn => Sys2Proof.Machine.execCreditReturn s
  | .replyArrival => Sys2Proof.Machine.execReplyArrival s
  | .remoteAccessServe => Sys2Proof.Machine.execRemoteAccessServe s
  | .amoPerform => Sys2Proof.Machine.execAmoPerform s
  | .publishFlip => Sys2Proof.Machine.execPublishFlip s
  | .failedRequest => Sys2Proof.Machine.execFailedRequest s
  | .streamFetch => Sys2Proof.Machine.execStreamFetch s
  | .streamWrite => Sys2Proof.Machine.execStreamWrite s
  | .streamDrainTag => Sys2Proof.Machine.execStreamDrainTag s
  | .copyUnit => Sys2Proof.Machine.execCopyUnit s
  | .copyComplete => Sys2Proof.Machine.execCopyComplete s
  | .bucketLeak => Sys2Proof.Machine.execBucketLeak s
  | .basinGrant => Sys2Proof.Machine.execBasinGrant s
  | .basinCommandComplete => Sys2Proof.Machine.execBasinCommandComplete s
  | .accrdRowDelivery => Sys2Proof.Machine.execAccrdRowDelivery s
  | .epilogueRowDelivery => Sys2Proof.Machine.execEpilogueRowDelivery s
  | .slotPinClear => Sys2Proof.Machine.execSlotPinClear s
  | .flitHop => Sys2Proof.Machine.execFlitHop s
  | .deliveryAck => Sys2Proof.Machine.execDeliveryAck s
  | .routeClassSwitch => Sys2Proof.Machine.execRouteClassSwitch s
  | .coreMapRebind => Sys2Proof.Machine.execCoreMapRebind s
  | .confluenceCombine => Sys2Proof.Machine.execConfluenceCombine s
  | .barrierArrivalLeave => Sys2Proof.Machine.execBarrierArrivalLeave s
  | .barrierArrival => Sys2Proof.Machine.execBarrierArrival s
  | .barrierCompletionArrival => Sys2Proof.Machine.execBarrierCompletionArrival s
  | .bartTimeout => Sys2Proof.Machine.execBartTimeout s
  | .pairHalfArrival => Sys2Proof.Machine.execPairHalfArrival s
  | .pairDeadline => Sys2Proof.Machine.execPairDeadline s
  | .pairTimeoutMessage => Sys2Proof.Machine.execPairTimeoutMessage s
  | .pairAbortMessage => Sys2Proof.Machine.execPairAbortMessage s
  | .trapRecordDelivery => Sys2Proof.Machine.execTrapRecordDelivery s
  | .recordResend => Sys2Proof.Machine.execRecordResend s
  | .retentionEntry => Sys2Proof.Machine.execRetentionEntry s
  | .retentionExitStart => Sys2Proof.Machine.execRetentionExitStart s
  | .retentionExitEnd => Sys2Proof.Machine.execRetentionExitEnd s
  | .vfRequestApply => Sys2Proof.Machine.execVfRequestApply s
  | .vfClockResume => Sys2Proof.Machine.execVfClockResume s
  | .weirHalve => Sys2Proof.Machine.execWeirHalve s
  | .weirDouble => Sys2Proof.Machine.execWeirDouble s
  | .timeRecalibration => Sys2Proof.Machine.execTimeRecalibration s
  | .reservoirAccess => Sys2Proof.Machine.execReservoirAccess s
  | .cacheReplacement => Sys2Proof.Machine.execCacheReplacement s
  | .rsvldLine => Sys2Proof.Machine.execRsvldLine s
  | .rsvldComplete => Sys2Proof.Machine.execRsvldComplete s
  | .rsvcfgPartApply => Sys2Proof.Machine.execRsvcfgPartApply s
  | .rsvcfgDropComplete => Sys2Proof.Machine.execRsvcfgDropComplete s
  | .pfetchComplete => Sys2Proof.Machine.execPfetchComplete s
  | .cascadeBlockLaunch => Sys2Proof.Machine.execCascadeBlockLaunch s
  | .branchReceive => Sys2Proof.Machine.execBranchReceive s
  | .retransmitRequest => Sys2Proof.Machine.execRetransmitRequest s
  | .branchForward => Sys2Proof.Machine.execBranchForward s
  | .memberSlotFill => Sys2Proof.Machine.execMemberSlotFill s
  | .memberReemit => Sys2Proof.Machine.execMemberReemit s
  | .blockAck => Sys2Proof.Machine.execBlockAck s
  | .voteArrival => Sys2Proof.Machine.execVoteArrival s
  | .laserLit => Sys2Proof.Machine.execLaserLit s
  | .laserDark => Sys2Proof.Machine.execLaserDark s
  | .groupEntryWriteApply => Sys2Proof.Machine.execGroupEntryWriteApply s
  | .queueKick => Sys2Proof.Machine.execQueueKick s
  | .queueEnable => Sys2Proof.Machine.execQueueEnable s
  | .queueOff => Sys2Proof.Machine.execQueueOff s
  | .packetFetch => Sys2Proof.Machine.execPacketFetch s
  | .packetRefetch => Sys2Proof.Machine.execPacketRefetch s
  | .packetDispatch => Sys2Proof.Machine.execPacketDispatch s
  | .ageRise => Sys2Proof.Machine.execAgeRise s
  | .packetCompletion => Sys2Proof.Machine.execPacketCompletion s
  | .launch => Sys2Proof.Machine.execLaunch s
  | .launchSwapAtQuiescence => Sys2Proof.Machine.execLaunchSwapAtQuiescence s
  | .launchSwapAtCfgswap => Sys2Proof.Machine.execLaunchSwapAtCfgswap s
  | .shadowLoadEnd => Sys2Proof.Machine.execShadowLoadEnd s
  | .copy => Sys2Proof.Machine.execCopy s
  | .wait => Sys2Proof.Machine.execWait s
  | .waitPoll => Sys2Proof.Machine.execWaitPoll s
  | .signal => Sys2Proof.Machine.execSignal s
  | .groupload => Sys2Proof.Machine.execGroupload s
  | .reservoirLoad => Sys2Proof.Machine.execReservoirLoad s
  | .fabricReconf => Sys2Proof.Machine.execFabricReconf s
  | .portCmdQuiesce => Sys2Proof.Machine.execPortCmdQuiesce s
  | .portCmdTrain => Sys2Proof.Machine.execPortCmdTrain s
  | .portCmdCycle => Sys2Proof.Machine.execPortCmdCycle s
  | .destroy => Sys2Proof.Machine.execDestroy s
  | .destroyForce => Sys2Proof.Machine.execDestroyForce s
  | .record => Sys2Proof.Machine.execRecord s
  | .pwrSetCap => Sys2Proof.Machine.execPwrSetCap s
  | .pwrSetFloor => Sys2Proof.Machine.execPwrSetFloor s
  | .placement => Sys2Proof.Machine.execPlacement s
  | .preemptDeadline => Sys2Proof.Machine.execPreemptDeadline s
  | .stillSweep => Sys2Proof.Machine.execStillSweep s
  | .sweepResult => Sys2Proof.Machine.execSweepResult s
  | .gangStop => Sys2Proof.Machine.execGangStop s
  | .gangStopScanOut => Sys2Proof.Machine.execGangStopScanOut s
  | .gangResume => Sys2Proof.Machine.execGangResume s
  | .gbarCompletion => Sys2Proof.Machine.execGbarCompletion s
  | .pkgRetireGo => Sys2Proof.Machine.execPkgRetireGo s
  | .rollback => Sys2Proof.Machine.execRollback s
  | .comparatorMismatch => Sys2Proof.Machine.execComparatorMismatch s
  | .comparatorTimeout => Sys2Proof.Machine.execComparatorTimeout s
  | .translationWalk => Sys2Proof.Machine.execTranslationWalk s
  | .pageRequestResponse => Sys2Proof.Machine.execPageRequestResponse s
  | .pfDeadline => Sys2Proof.Machine.execPfDeadline s
  | .tlbinvComplete => Sys2Proof.Machine.execTlbinvComplete s
  | .migrationFork => Sys2Proof.Machine.execMigrationFork s
  | .migrationCopyLine => Sys2Proof.Machine.execMigrationCopyLine s
  | .migrationSwitch => Sys2Proof.Machine.execMigrationSwitch s
  | .migrationRelease => Sys2Proof.Machine.execMigrationRelease s
  | .hbmWrite => Sys2Proof.Machine.execHbmWrite s
  | .hbmRead => Sys2Proof.Machine.execHbmRead s
  | .xstrElement => Sys2Proof.Machine.execXstrElement s
  | .xstrComplete => Sys2Proof.Machine.execXstrComplete s
  | .eventWrite => Sys2Proof.Machine.execEventWrite s
  | .pkgEvreplyWrite => Sys2Proof.Machine.execPkgEvreplyWrite s
  | .watchdogDead => Sys2Proof.Machine.execWatchdogDead s
  | .watchdogSlow => Sys2Proof.Machine.execWatchdogSlow s
  | .powerManagerUpdate => Sys2Proof.Machine.execPowerManagerUpdate s
  | .startup => Sys2Proof.Machine.execStartup s
  | .hostLinkDown => Sys2Proof.Machine.execHostLinkDown s
  | .hostLinkUp => Sys2Proof.Machine.execHostLinkUp s
  | .attestReport => Sys2Proof.Machine.execAttestReport s
  | .recoveryFirmware => Sys2Proof.Machine.execRecoveryFirmware s
  | .dieVfrWrite => Sys2Proof.Machine.execDieVfrWrite s
  | .cluRouteSwitchRequest => Sys2Proof.Machine.execCluRouteSwitchRequest s
  | .fabRouteSwitchRequest => Sys2Proof.Machine.execFabRouteSwitchRequest s
  | .registerWrite => Sys2Proof.Machine.execRegisterWrite s
  | .fabricFlitTransmit => Sys2Proof.Machine.execFabricFlitTransmit s
  | .fabricFlitReceive => Sys2Proof.Machine.execFabricFlitReceive s
  | .replayTimeout => Sys2Proof.Machine.execReplayTimeout s
  | .laneLock => Sys2Proof.Machine.execLaneLock s
  | .trainTimeout => Sys2Proof.Machine.execTrainTimeout s
  | .identityArrival => Sys2Proof.Machine.execIdentityArrival s
  | .verifyTimeout => Sys2Proof.Machine.execVerifyTimeout s
  | .lossOfLock => Sys2Proof.Machine.execLossOfLock s
  | .drainDeadline => Sys2Proof.Machine.execDrainDeadline s
  | .darkTimeExpiry => Sys2Proof.Machine.execDarkTimeExpiry s
  | .transitForward => Sys2Proof.Machine.execTransitForward s
  | .fdataDelivery => Sys2Proof.Machine.execFdataDelivery s
  | .fctlArrival => Sys2Proof.Machine.execFctlArrival s
  | .flowSwitch => Sys2Proof.Machine.execFlowSwitch s
  | .collStepStart => Sys2Proof.Machine.execCollStepStart s
  | .collStepComplete => Sys2Proof.Machine.execCollStepComplete s
  | .fenceReleaseTraffic => Sys2Proof.Machine.execFenceReleaseTraffic s
  | .cgwakeArrival => Sys2Proof.Machine.execCgwakeArrival s
  | .secondTierAccess => Sys2Proof.Machine.execSecondTierAccess s

end Sys2Proof.Machine
end

