-- ==== Sys2Proof/Machine/Step.lean ====
section
/-! DEFINITION. One step of the part: the next word of the body in flight, the end of a body, or the next step that the agents
of the part take. -/
namespace Sys2Proof.Machine

/-- One step. While a round is in flight its bodies run, one instruction a step; a body that has ended hands over to the round.
Otherwise the next step of the part is chosen. -/
def step (s : State) : Host.Outcome State Fault Refusal :=
  if s.stage.active then
    if bodyOver s then exec .round s
    else
      match decode (fetchWords s) with
      | .ok (i, _) => exec i s
      | .error e => .next (decodeAbort s e)
  else
    match choose s with
    | (some i, t) => exec i t
    | (none, t) => .next t

/-- The state with an instruction word placed where the next step fetches. The longest instruction has two words of 32 bits,
little-endian, the first at the lowest address (01_encoding, R16, R20). -/
def State.withFetchWord (s : State) (nbits w : Nat) : State := placeWords s (leBytes 8 (w % 2 ^ nbits))

end Sys2Proof.Machine
end

