-- ==== Sys2Proof/Safety.lean ====
section
/-! DEFINITION. What the claims call a good state: every memory in its one canonical form (Host.Cell lists, 14_package_host,
R379 step 4 for what an unlisted byte reads as). -/
namespace Sys2Proof.Machine

/-- The memories of a core, and its routing table, are in canonical form. -/
def coreMemWf (c : Core) : Bool := memWf c.mem && memWf c.active && memWf c.shadow && memWf c.routes
/-- The memories of the cores that a region keeps for a resume or a rollback are in canonical form. -/
def regionMemWf (r : Region) : Bool := (r.saved ++ r.check).all (fun c => coreMemWf c.state)
/-- Every memory of the package is in canonical form: HBM, second tier, host memory, those of every core, the pinned store of
every die, and the copies that regions keep. -/
def State.memoriesWf (s : State) : Bool :=
  memWf s.hbm && memWf s.tier2 && memWf s.host && s.core.all (fun c => coreMemWf c.2) && s.die.all (fun d => memWf d.2.pinned) &&
    s.region.all (fun r => regionMemWf r.2)

end Sys2Proof.Machine
end

