-- ==== Sys2Proof/Certificates/Slice0/Obligations.lean ====
section
/-! DEFINITION. The statements for the provers. First the words in which they are written (namespace Claims): what a computation
of a body gives, the shapes that instructions of one form share. Then the obligations, in the order of OBLIGATIONS.json. -/
namespace Sys2Proof.Claims
open Sys2Proof.Machine

/-- From working copy w the computation ends without an abort, with the value x and the working copy w'. -/
def Gives {α : Type} (m : Body α) (w : Work) (x : α) (w' : Work) : Prop := m w = EStateM.Result.ok x w'
/-- From working copy w the computation aborts, leaving the working copy w'. -/
def Stops {α : Type} (m : Body α) (w : Work) (a : Abort) (w' : Work) : Prop := m w = EStateM.Result.error a w'
/-- The abort with a code and INFO that carries no finding of a unit. -/
def plainAbort (code : BitVec 8) (info : W64) : Abort := ⟨code, info, 0, 0, 0, 0⟩
/-- The working copy of the body in flight as the instruction with an opcode finds it. -/
def start (s : State) (opc : BitVec 8) : Work := { s.stage.work with opc := opc }
/-- No injected residue error is due: COUNT of the injector is 0 (07_core_failures, R229). -/
def Disarmed (s : State) : Prop := bits s.stage.work.inj 7 0 = 0
/-- The rule's header has the vector hint (01_encoding, R41). -/
def VectorHint (s : State) : Prop := bitAt s.stage.work.hdrA 57 = true
/-- The rule's header has the basin hint (01_encoding, R41). -/
def BasinHint (s : State) : Prop := bitAt s.stage.work.hdrA 58 = true

/-! ## Shapes of scalar instructions -/

/-- A format P instruction of two scalar sources: srcA and then srcB are read under the tag action, the result goes to dstA
and dstB, the instruction takes its cycles, and nothing else happens. Every operand form is covered: what reading and writing
one does is stated by the operand claims. -/
def ScalarTwo (mk : Opd → Opd → Opd → Opd → Tag → Instr) (opc : BitVec 8) (cost : Nat) (f : W64 → W64 → W64) : Prop :=
  ∀ (s : State) (a b d e : Opd) (t : Tag) (x y : W64) (sa sb : Sideband) (w1 w2 w3 : Work),
    Disarmed s →
    Gives (readS s a (keepIn t)) (start s opc) (x, sa) w1 →
    Gives (readS s b (keepIn t)) w1 (y, sb) w2 →
    Gives (resultS s d e ⟨t, 0, sa, sb⟩ (f x y)) w2 () w3 →
    exec (mk a b d e t) s = .next (bodyWent s (w3.advance 1 cost))
/-- A format P instruction of one scalar source. -/
def ScalarOne (mk : Opd → Opd → Opd → Tag → Instr) (opc : BitVec 8) (f : State → W64 → W64) : Prop :=
  ∀ (s : State) (a d e : Opd) (t : Tag) (x : W64) (sa : Sideband) (w1 w2 : Work),
    Disarmed s →
    Gives (readS s a (keepIn t)) (start s opc) (x, sa) w1 →
    Gives (resultS s d e ⟨t, 0, sa, 0⟩ (f s x)) w1 () w2 →
    exec (mk a d e t) s = .next (bodyWent s (w2.advance 1 1))
/-- A format I instruction of one scalar source and an immediate: ports are popped, a pushed result passes srcA's sideband. -/
def ScalarImm {n : Nat} (mk : Opd → Opd → BitVec n → Instr) (opc : BitVec 8) (f : W64 → BitVec n → W64) : Prop :=
  ∀ (s : State) (a d : Opd) (i : BitVec n) (x : W64) (sa : Sideband) (w1 w2 : Work),
    Disarmed s →
    Gives (readS s a false) (start s opc) (x, sa) w1 →
    Gives (resultS s d 31#5 ⟨0, 0, sa, 0⟩ (f x i)) w1 () w2 →
    exec (mk a d i) s = .next (bodyWent s (w2.advance 1 1))

/-- A number as a 64-bit result, modulo 2^64. -/
def word (n : Nat) : W64 := BitVec.ofNat 64 n
/-- An integer as a 64-bit result, modulo 2^64. -/
def wordI (n : Int) : W64 := BitVec.ofInt 64 n
/-- 1 when the proposition holds, else 0. -/
def flag (p : Prop) [Decidable p] : W64 := if p then 1 else 0
/-- The shift count of a register: bits [5:0]. -/
def cnt (y : W64) : Nat := y.toNat % 64
/-- A signed value clamped to [-2^63, 2^63 - 1]. -/
def clamp (v : Int) : W64 := wordI (max (-(2 ^ 63)) (min v (2 ^ 63 - 1)))
/-- Bits [lo + n - 1 : lo] of a value, as a number. -/
def field (x : W64) (lo n : Nat) : Nat := x.toNat / 2 ^ lo % 2 ^ n
/-- The low n bits of a number, sign-extended to 64 bits. -/
def signed (v n : Nat) : W64 := wordI (if v % 2 ^ n < 2 ^ (n - 1) then (v % 2 ^ n : Nat) else (v % 2 ^ n : Nat) - 2 ^ n)

/-- ADRCHK's steps for n bytes at address a (04_core_compute, R123): the resolved address, or nothing where the access is not well
formed. -/
def checkedPlace (c : Ctx) (a : W64) (n : Nat) : Option W64 :=
  if field a 62 2 = 0 then
    let px : Int := if a.getLsbD 61 then c.lx + (signed (field a 52 9) 9).toInt else field a 52 9
    let py : Int := if a.getLsbD 61 then c.ly + (signed (field a 44 8) 8).toInt else field a 44 8
    let off := field a 0 19
    let lim := if c.priv then 0x80000 else 0x60000
    if field a 19 25 = 0 ∧ 0 ≤ px ∧ px ≤ 287 ∧ 0 ≤ py ∧ py ≤ 255 ∧ 1 ≤ n ∧ off + n ≤ lim then
      some (word (px.toNat * 2 ^ 52 + py.toNat * 2 ^ 44 + off))
    else none
  else if field a 62 2 = 1 then (if field a 48 14 = 0 ∧ 1 ≤ n ∧ field a 0 48 + n ≤ 2 ^ 48 then some a else none)
  else if field a 62 2 = 2 then (if c.priv ∧ 1 ≤ n then some a else none)
  else none

/-! ## Shapes of vector instructions -/

/-- Flags raised by one instruction: ORed into those the body sees, to be ORed into st at commit, one event each
(03_core_numbers, R88). -/
def raising (w : Work) (f : Flags) : Work :=
  if f = 0 then w
  else { w with flags := w.flags ||| f, raised := w.raised ++ [f], effects := w.effects ++ [.raise f] }
/-- The union of the flags of the lanes below n that take part. -/
def unionFlags (n : Nat) (part : Nat → Bool) (f : Nat → Flags) : Flags :=
  ((List.range n).filter part).foldl (fun acc i => acc ||| f i) 0
/-- The result of a masked instruction (04_core_compute, R113): lane i where lm[i] is set, else the old lane of a register
destination, else 0. -/
def masked (w : Work) (d : Opd) (f : Nat → W32) : V512 :=
  ofLanes (fun i => if w.lm.getLsbD i then f i else if d.toNat < 16 then lane (vget w.v d.toNat 0) i else 0)
/-- The result of a masked instruction on FP64 pairs: pair j where lm[2j] is set. -/
def masked64 (w : Work) (d : Opd) (f : Nat → W64) : V512 :=
  ofLanes (fun i => if w.lm.getLsbD (2 * (i / 2)) then (f (i / 2)).extractLsb' (32 * (i % 2)) 32
    else if d.toNat < 16 then lane (vget w.v d.toNat 0) i else 0)
/-- FP64 element j of a vector value. -/
def pair (v : V512) (j : Nat) : W64 := lane v (2 * j + 1) ++ lane v (2 * j)

/-- A masked format P instruction of two vector sources: f gives a lane's value and flags from srcA's, srcB's and the old
destination's lane; a lane that is not taken raises nothing. -/
def VectorTwo (mk : Opd → Opd → Opd → Opd → Tag → Instr) (opc : BitVec 8) (cost : Nat) (rtype : BitVec 3)
    (f : State → W32 → W32 → W32 → W32 × Flags) : Prop :=
  ∀ (s : State) (a b d e : Opd) (t : Tag) (x y : V512) (sa sb : Sideband) (w1 w2 w3 : Work),
    Disarmed s → VectorHint s →
    Gives (readV s a (keepIn t)) (start s opc) (x, sa) w1 →
    Gives (readV s b (keepIn t)) w1 (y, sb) w2 →
    (let r := fun i => f s (lane x i) (lane y i) (lane (vget w2.v d.toNat 0) i)
     Gives (resultV s d e ⟨t, rtype, sa, sb⟩ (masked w2 d (fun i => (r i).1)))
       (raising w2 (unionFlags 16 w2.lm.getLsbD (fun i => (r i).2))) () w3) →
    exec (mk a b d e t) s = .next (bodyWent s (w3.advance 1 cost))
/-- A masked instruction of one vector source. -/
def VectorOne (mk : Opd → Opd → Opd → Tag → Instr) (opc : BitVec 8) (cost : Nat) (rtype : BitVec 3)
    (f : State → W32 → W32 × Flags) : Prop :=
  ∀ (s : State) (a d e : Opd) (t : Tag) (x : V512) (sa : Sideband) (w1 w2 : Work),
    Disarmed s → VectorHint s →
    Gives (readV s a (keepIn t)) (start s opc) (x, sa) w1 →
    Gives (resultV s d e ⟨t, rtype, sa, 0⟩ (masked w1 d (fun i => (f s (lane x i)).1)))
      (raising w1 (unionFlags 16 w1.lm.getLsbD (fun i => (f s (lane x i)).2))) () w2 →
    exec (mk a d e t) s = .next (bodyWent s (w2.advance 1 cost))
/-- A masked instruction on FP64 pairs. -/
def VectorDouble (mk : Opd → Opd → Opd → Opd → Tag → Instr) (opc : BitVec 8)
    (f : State → W64 → W64 → W64 → W64 × Flags) : Prop :=
  ∀ (s : State) (a b d e : Opd) (t : Tag) (x y : V512) (sa sb : Sideband) (w1 w2 w3 : Work),
    Disarmed s → VectorHint s →
    Gives (readV s a (keepIn t)) (start s opc) (x, sa) w1 →
    Gives (readV s b (keepIn t)) w1 (y, sb) w2 →
    (let r := fun j => f s (pair x j) (pair y j) (pair (vget w2.v d.toNat 0) j)
     Gives (resultV s d e ⟨t, 1, sa, sb⟩ (masked64 w2 d (fun j => (r j).1)))
       (raising w2 (unionFlags 8 (fun j => w2.lm.getLsbD (2 * j)) (fun j => (r j).2))) () w3) →
    exec (mk a b d e t) s = .next (bodyWent s (w3.advance 1 2))
/-- A compare of two vectors: lm and the lanes of the result say where it holds (04_core_compute, R128). -/
def VectorCompare (mk : Opd → Opd → Opd → Opd → Tag → Instr) (opc : BitVec 8) (rtype : BitVec 3)
    (f : W32 → W32 → Bool × Flags) : Prop :=
  ∀ (s : State) (a b d e : Opd) (t : Tag) (x y : V512) (sa sb : Sideband) (w1 w2 w3 w4 : Work) (m : W16),
    Disarmed s → VectorHint s →
    Gives (readV s a (keepIn t)) (start s opc) (x, sa) w1 →
    Gives (readV s b (keepIn t)) w1 (y, sb) w2 →
    (∀ i < 16, m.getLsbD i = (f (lane x i) (lane y i)).1) →
    Gives (stageLm m) (raising w2 (unionFlags 16 (fun _ => true) (fun i => (f (lane x i) (lane y i)).2))) () w3 →
    Gives (resultV s d e ⟨t, rtype, sa, sb⟩ (ofLanes (fun i => if m.getLsbD i then 0xFFFFFFFF else 0))) w3 () w4 →
    exec (mk a b d e t) s = .next (bodyWent s (w4.advance 1 1))
/-- A format P instruction of two vector sources that ignores the mask and raises nothing. -/
def VectorWhole (mk : Opd → Opd → Opd → Opd → Tag → Instr) (opc : BitVec 8) (f : State → V512 → V512 → Nat → W32) : Prop :=
  ∀ (s : State) (a b d e : Opd) (t : Tag) (x y : V512) (sa sb : Sideband) (w1 w2 w3 : Work),
    Disarmed s → VectorHint s →
    Gives (readV s a (keepIn t)) (start s opc) (x, sa) w1 →
    Gives (readV s b (keepIn t)) w1 (y, sb) w2 →
    Gives (resultV s d e ⟨t, 0, sa, sb⟩ (ofLanes (f s x y))) w2 () w3 →
    exec (mk a b d e t) s = .next (bodyWent s (w3.advance 1 1))
/-- A scalar of the vector pipe to dstA, and to dstB as a vector (01_encoding, R22, R30, R36). -/
def ScalarAndVector (s : State) (d e : Opd) (u : TagUse) (v : W64) (w w' : Work) : Prop :=
  ∃ w1, Gives (writeS s d v (u.sb s)) w () w1 ∧ Gives (writeV s e (BitVec.ofNat 512 v.toNat) (u.sb s)) w1 () w'
/-- A reduction of all 16 lanes to a scalar, in two cycles (04_core_compute, R130). -/
def VectorReduce (mk : Opd → Opd → Opd → Tag → Instr) (opc : BitVec 8) (rtype : BitVec 3)
    (f : State → V512 → W64 × Flags) : Prop :=
  ∀ (s : State) (a d e : Opd) (t : Tag) (x : V512) (sa : Sideband) (w1 w2 : Work),
    Disarmed s → VectorHint s →
    Gives (readV s a (keepIn t)) (start s opc) (x, sa) w1 →
    ScalarAndVector s d e ⟨t, rtype, sa, 0⟩ (f s x).1 (raising w1 (f s x).2) w2 →
    exec (mk a d e t) s = .next (bodyWent s (w2.advance 1 2))
/-- st.RND as it stood at cycle 0. -/
def mode (s : State) : BitVec 2 := (bodyCtx s).rnd
/-- A number as a 32-bit lane. -/
def lane32 (n : Nat) : W32 := BitVec.ofNat 32 n
/-- A lane with no flags. -/
def quiet (v : W32) : W32 × Flags := (v, 0)
/-- A floating result as a lane. -/
def fp32 (r : Nat × Flags) : W32 × Flags := (lane32 r.1, r.2)
/-- A floating result as an FP64 element. -/
def fp64 (r : Nat × Flags) : W64 × Flags := (word r.1, r.2)
/-- Both BF16 elements of a lane, with the flags of both. -/
def bf16 (f : Nat → Nat → Nat × Flags) (x y : W32) : W32 × Flags :=
  let lo := f (x.toNat % 65536) (y.toNat % 65536)
  let hi := f (x.toNat / 65536) (y.toNat / 65536)
  (lane32 (hi.1 * 65536 + lo.1), lo.2 ||| hi.2)
/-- A signed byte sum clamped to [-128, 127]. -/
def byteSum (x y : W32) (k : Nat) : BitVec 8 :=
  BitVec.ofInt 8 (max (-128) (min 127 ((x.extractLsb' (8 * k) 8).toInt + (y.extractLsb' (8 * k) 8).toInt)))
/-- The pairwise tree of a reduction over the 2^k values from i on, with the union of the flags (03_core_numbers, R109). -/
def tree (f : Nat → Nat → Nat × Flags) (v : Nat → Nat) : Nat → Nat → Nat × Flags
  | 0, i => (v i, 0)
  | k + 1, i =>
    let l := tree f v k i
    let r := tree f v k (i + 2 ^ k)
    ((f l.1 r.1).1, l.2 ||| r.2 ||| (f l.1 r.1).2)
/-- Lane i of a scan from the left: its code and its flags (04_core_compute, R132). -/
def scan (m : BitVec 2) (v : Nat → Nat) : Nat → Nat × Flags
  | 0 => match fpDecode 2 false (v 0) with | .nan _ g => (0x7FC00000, if g then fNV else 0) | _ => (v 0, 0)
  | i + 1 => fpAdd 2 m (scan m v i).1 (v (i + 1))

/-! ## Values of the number formats -/

/-- The rational number that a finite value stands for. -/
def value : FNum → ℚ
  | .num n m e => (if n then -1 else 1) * m * 2 ^ e
  | _ => 0
/-- A finite value, as opposed to an infinity or a NaN. -/
def finite : FNum → Prop
  | .num _ _ _ => True
  | _ => False
/-- The canonical NaN of a format (03_core_numbers, R104). -/
def canonicalNaN : Nat → Nat
  | 1 => 0x7FF8000000000000 | 2 => 0x7FC00000 | 3 => 0x7FC0 | 4 => 0x7E00 | 5 => 0x7F | _ => 0x7E
/-- A magnitude r is the rounding of the exact magnitude v in a mode, among the magnitudes of codes of a format
(03_core_numbers, R102): RNE the nearest, a tie to an even code; RTZ the nearest not greater in magnitude; RDN and RUP the nearest
on their side, which side of the magnitude that is depending on the sign. -/
def RoundedIn (f : Nat) (fm : Bool) (m : BitVec 2) (neg : Bool) (v : ℚ) (code : Nat) : Prop :=
  let r := value (fpDecode f fm code)
  let others := fun (P : ℚ → Nat → Prop) => ∀ c ≤ fpMaxCode f fm, P (value (fpDecode f fm c)) c
  if m = 0 then others (fun x c => |r - v| ≤ |x - v| ∧ (|r - v| = |x - v| → c ≠ code → code % 2 = 0))
  else if m = 1 ∨ (m = 2 ∧ neg = false) ∨ (m = 3 ∧ neg = true) then r ≤ v ∧ others (fun x _ => x ≤ v → x ≤ r)
  else v ≤ r ∧ others (fun x _ => v ≤ x → r ≤ x)

/-! ## Bit streams (04_core_compute, R139 to R145) -/

/-- NB of bw. -/
def bitsHeld (bw : W32) : Nat := bw.toNat % 128
/-- bw with NB replaced. -/
def holding (bw : W32) (nb : Nat) : W32 := BitVec.ofNat 32 (bw.toNat / 128 * 128 + nb)
/-- MODE of bw. -/
def streamMode (bw : W32) : Nat := bw.toNat / 4096 % 4
/-- QS of bw. -/
def streamUsed (bw : W32) : Nat := bw.toNat / 16384 % 4
/-- Four bytes in memory order as one number, the first most significant. -/
def firstByteHigh (x : Nat) : Nat :=
  x % 256 * 2 ^ 24 + x / 256 % 256 * 2 ^ 16 + x / 65536 % 256 * 2 ^ 8 + x / 16777216 % 256
/-- What a stream operand of a bit-stream instruction must be (R139). -/
def StreamOperand (s : State) (a : Opd) : Prop :=
  let bw := s.stage.work.bw
  let q := vget (bodyCtx s).q (streamUsed bw) Stream.reset
  a = 31#5 ∨ (a.toNat = 24 + streamUsed bw ∧ q.bound = true ∧ q.esz = 1 ∧
    ((streamMode bw = 1 ∧ q.dir = false) ∨ (streamMode bw = 2 ∧ q.dir = true)))
/-- bb and NB staged. -/
def BitsStaged (w : Work) (bb : W64) (nb : Nat) (w' : Work) : Prop :=
  ∃ w1, Gives (stageBb bb) w () w1 ∧ Gives (stageBw (holding w.bw nb)) w1 () w'
/-- The refill step (R140), with the sideband of the element that it pops. -/
def Refilled (s : State) (a : Opd) (n : Nat) (w : Work) (sb : Sideband) (w' : Work) : Prop :=
  if a ≠ 31#5 ∧ bitsHeld w.bw < n ∧ bitsHeld w.bw ≤ 32 then
    ∃ x w1, Gives (readS s a false) w (x, sb) w1 ∧
      BitsStaged w1 (w.bb ||| word (firstByteHigh x.toNat * 2 ^ (32 - bitsHeld w.bw))) (bitsHeld w.bw + 32) w'
  else w' = w ∧ sb = 0
/-- The consume step (R140). -/
def Consumed (n : Nat) (w w' : Work) : Prop :=
  if bitsHeld w.bw ≤ n then BitsStaged w 0 0 w' else BitsStaged w (word (w.bb.toNat * 2 ^ n)) (bitsHeld w.bw - n) w'
/-- k elements written to a stream, each the top 32 bits of what is left of the 96-bit working value (R145). -/
def Drained (s : State) (q : Nat) : Nat → Nat → Work → Work → Prop
  | 0, _, w, w' => w' = w
  | k + 1, v, w, w' => ∃ w1,
      Gives (writeElement s q (BitVec.ofNat 512 (firstByteHigh (v / 2 ^ 64)))) w () w1 ∧ Drained s q k (v * 2 ^ 32 % 2 ^ 96) w1 w'
/-- FIRST, COUNT and BASE of length l in a decode table's 96 bytes (R143). -/
def codeEntry (hdr l : Nat) : Nat × Nat × Nat :=
  let e := hdr / 2 ^ (64 * (l - 1)) % 2 ^ 64
  (e % 2 ^ 16, e / 2 ^ 16 % 2 ^ 16, e / 2 ^ 32 % 2 ^ 16)
/-- Whether the code at the top of bb is one of length l (R144). -/
def CodeMatches (hdr : Nat) (bb : W64) (nb l : Nat) : Prop :=
  l ≤ nb ∧ (codeEntry hdr l).1 ≤ bb.toNat / 2 ^ (64 - l) ∧
    bb.toNat / 2 ^ (64 - l) - (codeEntry hdr l).1 < (codeEntry hdr l).2.1

/-! ## Staged effects -/

/-- One effect staged behind those before it. -/
def staging (w : Work) (e : Effect) : Work := { w with effects := w.effects ++ [e] }
/-- Enable bits as the body sees them. -/
def seeingEnable (w : Work) (en : W64) : Work := { w with en := en }
/-- Tag bits as the body sees them. -/
def seeingTags (w : Work) (tb : W64) : Work := { w with tb := tb }
/-- A tag mask as the body sees it, marked for the commit. -/
def seeingMask (w : Work) (k : Nat) (v : W64) : Work :=
  { w with tm := vset w.tm k v, tmD := w.tmD ||| BitVec.ofNat 8 (2 ^ k) }
/-- Bit k alone. -/
def one (k : Nat) : W64 := word (2 ^ k)
/-- old with the bits of a mask replaced by those of v. -/
def under (old m v : W64) : W64 := BitVec.ofNat 64 ((old.toNat &&& (2 ^ 64 - 1 - m.toNat)) ||| (v.toNat &&& m.toNat))
/-- The abort of an instruction of one cycle that stages nothing more. -/
def AbortsAt (s : State) (w : Work) (cost : Nat) (a : Abort) : Host.Outcome State Fault Refusal :=
  .next (bodyAborted s (w.advance 0 cost) a)
/-- A format P instruction of one scalar source with a result, whose value depends on the state and the source, and which
stages effects around it. -/
def ControlRead (mk : Opd → Opd → Opd → Tag → Instr) (opc : BitVec 8) (f : State → W64 → W64) : Prop :=
  ∀ (s : State) (a d e : Opd) (t : Tag) (x : W64) (sa : Sideband) (w1 w2 : Work),
    Gives (readS s a (keepIn t)) (start s opc) (x, sa) w1 →
    Gives (resultS s d e ⟨t, 0, sa, 0⟩ (f s x)) w1 () w2 →
    exec (mk a d e t) s = .next (bodyWent s (w2.advance 1 1))
/-- A context that is not privileged. -/
def Unprivileged (s : State) : Prop := (bodyCtx s).priv = false
/-- A privileged context. -/
def Privileged (s : State) : Prop := (bodyCtx s).priv = true

/-! ## Local memory (05_core_memory, R146 to R152) -/

/-- A byte of the local address space lies in a class that the rule's mcmask names (02_rule, R54, R66). -/
def InClass (s : State) (w : Work) (off : Nat) : Prop :=
  ∃ k < 8, w.hdrB.getLsbD (40 + k) = true ∧
    (let m := (vget (bodyCtx s).mcls k 0).toNat
     m / 2 ^ 31 % 2 = 1 ∧ m / 2 ^ 11 % 2 ^ 11 ≤ 1535 ∧ m % 2 ^ 11 ≤ off / 256 ∧ off / 256 ≤ m / 2 ^ 11 % 2 ^ 11)
/-- The class check of n bytes: a rule without classes reaches only privileged offsets, which lie in no class (R66, R150). -/
def InClasses (s : State) (w : Work) (off n : Nat) : Prop :=
  (field w.hdrB 40 8 = 0 ∧ 0x60000 ≤ off) ∨
    (field w.hdrB 40 8 ≠ 0 ∧ off + n ≤ 0x60000 ∧ ∀ i < n, InClass s w (off + i))
/-- A data byte past the end of the logical core's window (12_package_launch, R329). -/
def PastWindow (s : State) (off n : Nat) : Prop :=
  off < 0x60000 ∧ (windowOf s (bodyCtx s).lx (bodyCtx s).ly).2 < off + n
/-- What the checks of a local access of n bytes answer at an offset: the code of the first that fails, in the order of R150, or
nothing when all hold. -/
def Verdict (s : State) (w : Work) (ea : W64) (n align : Nat) (r : Option (BitVec 8)) : Prop :=
  if 2 ^ 19 ≤ ea.toNat then r = some 0x09
  else if 0x60000 < ea.toNat + n ∧ (bodyCtx s).priv = false then r = some 0x0A
  else if ea.toNat % align ≠ 0 then r = some 0x08
  else (¬ InClasses s w ea.toNat n ∧ r = some 0x05) ∨
    (InClasses s w ea.toNat n ∧ PastWindow s ea.toNat n ∧ r = some 0x09) ∨
    (InClasses s w ea.toNat n ∧ ¬ PastWindow s ea.toNat n ∧ r = none)
/-- No uncorrectable error in a data word of the range (R147). -/
def Sound (s : State) (off n : Nat) : Prop :=
  ∀ i < n, off + i < 0x60000 → (bodyOffset s (off + i) / 8) ∉ (bodyCore s).eccUe
/-- v is the number of the n bytes that the body sees from an offset on, the lowest first. -/
def ReadsAs (s : State) (w : Work) (off n v : Nat) : Prop :=
  v < 256 ^ n ∧ ∀ i < n, v / 256 ^ i % 256 = (bodyByte s w (off + i)).toNat
/-- The correctable errors that a read met, counted (R147). -/
def correcting (s : State) (w : Work) (off n : Nat) : Work := { w with corr := w.corr + correctedWords s off n }
/-- The working copy after one store instruction: one commit entry, the bytes by physical offset, a later one over an earlier
one (R68, R150). -/
def storing (w : Work) (ps : List (Nat × Byte)) : Work :=
  { w with entries := w.entries + 1, bytes := ps.reverse ++ w.bytes, effects := w.effects ++ [.store ps] }
/-- The effective offset: the base plus the signed offset of n bits, modulo 2^64. -/
def offsetBy {n : Nat} (x : W64) (off : BitVec n) : W64 := wordI (x.toInt + off.toInt)
/-- Byte i of a value. -/
def byteAt {n : Nat} (x : BitVec n) (i : Nat) : Byte := x.extractLsb' (8 * i) 8
/-- The stored bytes of n bytes of a value at an offset. -/
def bytesAt {m : Nat} (s : State) (off n : Nat) (x : BitVec m) : List (Nat × Byte) :=
  (List.range n).map (fun i => (bodyOffset s (off + i), byteAt x i))
/-- The address of a lane of a gather or scatter (R152). -/
def laneOffset (x : W64) (off : BitVec 20) (idx : V512) (i : Nat) : W64 :=
  wordI (x.toInt + off.toInt + (lane idx i).toInt)
/-- The lanes that take part (R152). -/
def Takes (w : Work) (m : BitVec 1) (i : Nat) : Prop := i < 16 ∧ (m = 0 ∨ w.lm.getLsbD i = true)

/-! ## Requests and commands through the command port (05_core_memory, R153 to R160; 13_package_memory, R354) -/

/-- A space 10 address of an access of n bytes keeps its row of R354. -/
def Row10 (s : State) (a : W64) (n : Nat) : Prop :=
  (field a 58 4 = 0 ∧ field a 48 10 = 0) ∨
  (field a 58 4 = 1 ∧ field a 41 17 = 0 ∧ field a 0 41 + n ≤ 3 * 2 ^ 39) ∨
  (field a 58 4 = 2 ∧ field a 44 14 = 0 ∧ field a 0 44 + n ≤ Config.tier2Bytes) ∨
  (field a 58 4 = 3 ∧ field a 47 11 = 0 ∧ field a 19 11 = 0 ∧ field a 38 9 ≤ 311 ∧ field a 0 19 + n ≤ 0x80000 ∧
    Config.selfTest (256 * field a 38 9 + field a 30 8) = true) ∨
  (field a 58 4 = 4 ∧ field a 54 4 = 0 ∧ field a 28 20 = 0 ∧ field a 0 28 + n ≤ (dieOf s (field a 48 6)).p * 6291456) ∨
  (field a 58 4 = 5 ∧ field a 57 1 = 0)
/-- What the checks at issue answer for an access of n bytes at an address, aligned to al: the resolved address, or the code of the
abort and its INFO (R154, R156). -/
def Remote (s : State) (a : W64) (n al : Nat) (r : W64 ⊕ (BitVec 8 × W64)) : Prop :=
  match checkedPlace { bodyCtx s with priv := true } a n with
  | none => r = .inr (0x09, a)
  | some p =>
    if (bodyCtx s).priv = false ∧ (field p 62 2 = 2 ∨ (field p 62 2 = 0 ∧ 0x60000 < field p 0 19 + n)) then r = .inr (0x0A, a)
    else (field p 62 2 = 2 ∧ ¬ Row10 s p n ∧ r = .inr (0x09, a)) ∨
      ((field p 62 2 = 2 → Row10 s p n) ∧ ((p.toNat % al ≠ 0 ∧ r = .inr (0x08, p)) ∨ (p.toNat % al = 0 ∧ r = .inl p)))
/-- A free entry of the command port for this body's next request, and one of the commit buffer. -/
def PortRoom (s : State) (w : Work) : Prop := (bodyCtx s).cpUsed + vget w.push 4 0 < 8 ∧ w.entries < 32
/-- One entry of the command port taken by an effect (R155). -/
def through (w : Work) (e : Effect) : Work :=
  { w with entries := w.entries + 1, push := vset w.push 4 (vget w.push 4 0 + 1), effects := w.effects ++ [e] }
/-- The request that leaves at commit, with the context's FM and privilege as read in the body (R156); it names its rule, word and opcode
for the record of a failure (07_core_failures, R220). -/
def requestOf (s : State) (w : Work) (kind : ReqKind) (addr : W64) (rt : BitVec 6) (rpy : Bool) : Effect :=
  .req { id := 0, core := s.stage.core, cx := s.stage.cx.val, kind := kind, addr := addr, rt := rt, rpy := rpy,
         fm := (bodyCtx s).fm, priv := (bodyCtx s).priv, queue := 0, fails := 0, org := ⟨w.rule, w.pc, w.opc⟩ }
/-- An instruction that issues a request of n bytes at an address, from a working copy in which its operands have been read: it
issues, aborts with the code of the failed check, or aborts when the port or the commit buffer is full. -/
def Issues (s : State) (i : Instr) (w : Work) (ea : W64) (n : Nat) (kind : ReqKind) (rt : BitVec 6) (rpy : Bool) : Prop :=
  (∀ p, Remote s ea n n (.inl p) → PortRoom s w →
    exec i s = .next (bodyWent s ((through w (requestOf s w kind p rt rpy)).advance 2 1))) ∧
  (∀ c info, Remote s ea n n (.inr (c, info)) → exec i s = AbortsAt s w 1 (plainAbort c info)) ∧
  (∀ p, Remote s ea n n (.inl p) → 8 ≤ (bodyCtx s).cpUsed + vget w.push 4 0 →
    exec i s = AbortsAt s w 1 (plainAbort 0x04 0)) ∧
  (∀ p, Remote s ea n n (.inl p) → (bodyCtx s).cpUsed + vget w.push 4 0 < 8 → 32 ≤ w.entries →
    exec i s = AbortsAt s w 1 (plainAbort 0x0B 0))
/-- An AMO without a compare value: the sub-operation and the widths, as W codes, that it has (R160). -/
def AmoForm (mk : Opd → Opd → Tag → BitVec 2 → BitVec 6 → BitVec 1 → BitVec 15 → Instr) (op : Nat) (widths : List Nat) : Prop :=
  ∀ (s : State) (a b : Opd) (t : Tag) (xw : BitVec 2) (rt : BitVec 6) (rpy : BitVec 1) (xoff : BitVec 15) (x y : W64)
    (sa sb : Sideband) (w1 w2 : Work), Disarmed s →
    (xw.toNat ∈ widths → Gives (readS s a (keepIn t)) (start s 0xCB) (x, sa) w1 →
      Gives (readS s b (keepIn t)) w1 (y, sb) w2 →
      Issues s (mk a b t xw rt rpy xoff) w2 (offsetBy x xoff) (2 ^ xw.toNat) (.amo op (2 ^ xw.toNat) y 0) rt (rpy = 1)) ∧
    (xw.toNat ∉ widths → exec (mk a b t xw rt rpy xoff) s = AbortsAt s (start s 0xCB) 1 (plainAbort 0x04 0))

/-- The command that leaves at commit (05_core_memory, R155). -/
def commandOf (s : State) (w : Work) (tag : Option Nat) (op : CmdOp) : Effect :=
  .cmd { id := 0, core := s.stage.core, cx := s.stage.cx.val, tag := tag, op := op, org := ⟨w.rule, w.pc, w.opc⟩ }
/-- The tag bit of a command whose TE is set. -/
def named (n : BitVec 6) (te : BitVec 1) : Option Nat := if te = 1 then some n.toNat else none
/-- Bytes per element of an ESZ code (03_core_numbers, R91). -/
def bytesOf (esz : BitVec 2) : Nat := [1, 4, 8, 64].getD esz.toNat 0
/-- What a stream's parameter block at an offset reads as (R162). -/
def BlockReads (s : State) (w : Work) (at_ base r1 r2 : Nat) (cnt str : Vector Nat 4) : Prop :=
  ReadsAs s w at_ 4 base ∧ ReadsAs s w (at_ + 4) 4 r1 ∧ ReadsAs s w (at_ + 40) 8 r2 ∧
    ∀ k : Fin 4, ReadsAs s w (at_ + 8 + 8 * k) 4 cnt[k] ∧ ReadsAs s w (at_ + 12 + 8 * k) 4 str[k]
/-- A stride as a signed number. -/
def stride (n : Nat) : Int := if n < 2 ^ 31 then n else n - 2 ^ 32
/-- The least offset of an element of a nest. -/
def least (base : Nat) (cnt str : Vector Nat 4) : Int :=
  base + ((List.finRange 4).map (fun k => (min 0 ((Int.ofNat cnt[k] - 1) * stride str[k]) : Int))).sum
/-- The greatest offset of an element of a nest. -/
def greatest (base : Nat) (cnt str : Vector Nat 4) : Int :=
  base + ((List.finRange 4).map (fun k => (max 0 ((Int.ofNat cnt[k] - 1) * stride str[k]) : Int))).sum
/-- The bytes from the least element to the end of the greatest lie in classes of the rule's mcmask. -/
def SpanInClasses (s : State) (w : Work) (lo hi : Int) : Prop :=
  0 ≤ lo ∧ hi ≤ 0x60000 ∧ ∀ b : Nat, lo ≤ b → b < hi → InClass s w b

/-! ## Basin commands (06_core_basin, R177 to R203) -/

/-- The working copy after the start of a basin command. -/
def started (w : Work) : Work := { w with basins := w.basins + 1 }
/-- The body's first basin command finds room for all of its commands; a later one was counted then (02_rule, R75). -/
def QueueRoom (s : State) (w : Work) : Prop :=
  w.basins ≠ 0 ∨ basinWords (bodyCore s) s.stage.cx.val (field w.hdrA 0 11) (field w.hdrA 11 5 + 1) +
    (bodyCore s).bq.length ≤ 8
/-- The accumulator is mapped, to a slot (03_core_numbers, R93). -/
def MappedTo (s : State) (acc : BitVec 2) (slot : Nat) : Prop :=
  (bodyCtx s).amap.toNat / 2 ^ (4 * acc.toNat) % 16 = 8 + slot ∧ slot < 8
/-- Bits of an element by its format code; INT is INT8, and 2 bits as the B of MMAT (R182). -/
def widthOf (f : BitVec 3) (ternary : Bool) : Nat :=
  [if ternary then 2 else 8, 64, 32, 16, 16, 8, 8, 4].getD f.toNat 0
/-- The format pairs of R186: cmd 0 MMA, 1 MMAZ, 2 MMAT, 3 MMAI8, 4 MMAMX. -/
def Formats (cmd : Nat) (af bf : Nat) : Prop :=
  (cmd ≤ 1 ∧ ((af = bf ∧ 1 ≤ af ∧ af ≤ 4) ∨ (af ∈ [5, 6] ∧ bf ∈ [5, 6]))) ∨
  ((cmd = 2 ∨ cmd = 3) ∧ af = 0 ∧ bf = 0) ∨ (cmd = 4 ∧ af ∈ [0, 5, 6, 7] ∧ bf ∈ [0, 5, 6, 7])
/-- The fields of a matrix command within the limits of R182 and R193. -/
def MatrixFits (cmd : Nat) (af bf : BitVec 3) (k n : Nat) (z : BitVec 1) : Prop :=
  Formats cmd af.toNat bf.toNat ∧ 1 ≤ k ∧ k ≤ 512 ∧
    (∀ b ∈ [widthOf af false, widthOf bf (cmd = 2)], k * b % 8 = 0 ∧ k * b ≤ 4096) ∧
    (af = 1 → n ≤ 8) ∧ (cmd = 4 → k % 32 = 0) ∧ (cmd = 1 → z = 0)
/-- The pointer form of an MX operand: the tile, then its scale array, both checked (R195). -/
def PointerFits (s : State) (w : Work) (v : W64) (n scales : Nat) : Prop :=
  field v 51 13 = 0 ∧ field v 19 13 = 0 ∧ Verdict s w (word (field v 0 19)) n 64 none ∧
    Verdict s w (word (field v 32 19)) (4 * scales) 4 none
/-- The A operand of a matrix command, as it stands in the staged command (R183, R195). -/
def OperandA (s : State) (mx : Bool) (a : Opd) (af : BitVec 3) (k m : Nat) (w : Work) (tile : Tile) (w' : Work) : Prop :=
  let row := k * widthOf af false / 8
  (a.toNat < 16 ∧ mx = false ∧ Verdict s w (vget w.s a.toNat 0) (m * row) 64 none ∧
    tile = .mem (vget w.s a.toNat 0).toNat 0 ∧ w' = w) ∨
  (a.toNat < 16 ∧ mx = true ∧ PointerFits s w (vget w.s a.toNat 0) (m * row) (m * k / 32) ∧
    tile = .mem (field (vget w.s a.toNat 0) 0 19) (field (vget w.s a.toNat 0) 32 19) ∧ w' = w) ∨
  (24 ≤ a.toNat ∧ a.toNat < 28 ∧ mx = false ∧
    (let q := a.toNat - 24
     let st := vget (bodyCtx s).q q Stream.reset
     let c := m * ((row + 63) / 64)
     let ts := (st.fetched.drop (vget w.adv q 0)).take c
     st.bound = true ∧ st.dir = false ∧ st.esz = 3 ∧ c ≤ 63 ∧ ts.length = c ∧ tile = .bytes (ts.map (fun t => t.pay)) ∧
       w' = { w with adv := vset w.adv q (vget w.adv q 0 + c) }))
/-- The B operand of a matrix command (R184, R195). -/
def OperandB (s : State) (cmd : Nat) (b : Opd) (bf : BitVec 3) (k n : Nat) (w : Work) (tile : Tile) (w' : Work) : Prop :=
  let size := k * n * widthOf bf (cmd = 2) / 8
  (b.toNat < 16 ∧ cmd ≠ 4 ∧ Verdict s w (vget w.s b.toNat 0) size 64 none ∧ tile = .mem (vget w.s b.toNat 0).toNat 0 ∧ w' = w) ∨
  (b.toNat < 16 ∧ cmd = 4 ∧ PointerFits s w (vget w.s b.toNat 0) size (n * k / 32) ∧
    tile = .mem (field (vget w.s b.toNat 0) 0 19) (field (vget w.s b.toNat 0) 32 19) ∧ w' = w) ∨
  ((b.toNat = 22 ∨ b.toNat = 23) ∧ ∃ i blk, Gives (takeBlock s (b.toNat - 22) false) w (i, blk) w' ∧
    (vget (bodyCore s).cgp (i / 4) 0).getLsbD 31 = false ∧ blk.fmt = bf ∧
    size ≤ (if blk.soff = 0 then blk.len else blk.soff) ∧ (cmd = 4 → blk.soff ≠ 0) ∧ tile = .slot (i / 4) (i % 4) blk.soff)
/-- The staged basin command: one entry of the commit buffer, with FM at cycle 0 (R177, R187). -/
def queued (s : State) (w : Work) (opc : BitVec 8) (op : BasinOp) : Work :=
  { w with entries := w.entries + 1,
           effects := w.effects ++ [.basin { cx := s.stage.cx.val, opc := opc, fm := (bodyCtx s).fm, op := op, open_ := false, old := [] }] }
/-- A matrix command at issue. -/
def MatrixForm (mk : Opd → Opd → Tag → BitVec 2 → BitVec 3 → BitVec 3 → BitVec 10 → BitVec 4 → BitVec 4 → BitVec 1 → BitVec 1 →
    BitVec 4 → Instr) (cmd : Nat) (opc : BitVec 8) : Prop :=
  ∀ (s : State) (a b : Opd) (t : Tag) (acc : BitVec 2) (af bf : BitVec 3) (k : BitVec 10) (m1 n1 : BitVec 4) (z bt : BitVec 1)
      (ep : BitVec 4) (slot : Nat) (ta tb : Tile) (w1 w2 : Work), Disarmed s → BasinHint s →
    (let i := mk a b t acc af bf k m1 n1 z bt ep
     let m := m1.toNat + 1
     let n := n1.toNat + 1
     let w0 := started (start s opc)
     (¬ QueueRoom s (start s opc) → exec i s = AbortsAt s (start s opc) 1 (plainAbort 0x0C 0)) ∧
     (QueueRoom s (start s opc) →
       (¬ MatrixFits cmd af bf k.toNat n z ∨ (∀ j, ¬ MappedTo s acc j) →
         exec i s = AbortsAt s w0 1 (plainAbort 0x04 0)) ∧
       (MatrixFits cmd af bf k.toNat n z → MappedTo s acc slot → OperandA s (cmd = 4) a af k.toNat m w0 ta w1 →
         OperandB s cmd b bf k.toNat n w1 tb w2 →
         (w2.entries < 32 → exec i s = .next (bodyWent s ((queued s w2 opc
           (.mma cmd slot af.toNat bf.toNat k.toNat m n (z = 1) (bt = 1) ep.toNat ta tb)).advance 2 1))) ∧
         (32 ≤ w2.entries → exec i s = AbortsAt s w2 1 (plainAbort 0x0B 0)))))
/-- The stage codes of a chain descriptor before the first 0 (R200). -/
def stagesOf (d : BitVec 256) : List Nat := ((List.range 6).map (fun i => d.toNat / 16 ^ i % 16)).takeWhile (fun c => c ≠ 0)
/-- Bits of a descriptor as a number. -/
def fieldD (d : BitVec 256) (lo n : Nat) : Nat := d.toNat / 2 ^ lo % 2 ^ n
/-- A chain descriptor within the limits of R200. -/
def ChainFits (d : BitVec 256) : Prop :=
  fieldD d 24 8 = 0 ∧ fieldD d 0 24 < 16 ^ (stagesOf d).length ∧ (∀ c ∈ stagesOf d, c ≤ 7) ∧ 7 ∉ (stagesOf d).dropLast ∧
    (fpDecode 2 false (fieldD d 128 32)).isNaN = false ∧ (fpDecode 2 false (fieldD d 160 32)).isNaN = false ∧
    (fpLess 2 true (fieldD d 128 32) (fieldD d 160 32)).1 = true ∧
    (7 ∈ stagesOf d → fieldD d 198 2 = 0 ∧ 2 ≤ fieldD d 200 3 ∧ fieldD d 192 5 = 0 ∧ fieldD d 206 18 = 0) ∧ fieldD d 243 4 = 0
/-- The local ranges that a descriptor names pass the checks of a tile: bias, residual tile, rows of a local sink (R200, R201). -/
def RangesFit (s : State) (w : Work) (d : BitVec 256) : Prop :=
  (2 ∈ stagesOf d → Verdict s w (word (fieldD d 64 32)) 64 64 none) ∧
  (3 ∈ stagesOf d → Verdict s w (word (fieldD d 96 32)) 1024 64 none) ∧
  (fieldD d 255 1 = 1 → Verdict s w (word (fieldD d 224 19))
    (16 * ((16 * fpWidth (if 7 ∈ stagesOf d then fieldD d 200 3 else 2) + 7) / 8)) 64 none)
/-- The type that a TYP code names (R198). -/
def namedType (x : BitVec 2) : SlotType := [SlotType.fp32, .int32, .fp64].getD x.toNat .none

/-! ## Level instructions -/

/-- From a working copy in which its operands have been read, an instruction stages one command through the command port, or
aborts when the port or the commit buffer is full (R68, R155). -/
def Commands (s : State) (i : Instr) (w : Work) (tag : Option Nat) (op : CmdOp) : Prop :=
  (PortRoom s w → exec i s = .next (bodyWent s ((through w (commandOf s w tag op)).advance 2 1))) ∧
  (8 ≤ (bodyCtx s).cpUsed + vget w.push 4 0 → exec i s = AbortsAt s w 1 (plainAbort 0x04 0)) ∧
  ((bodyCtx s).cpUsed + vget w.push 4 0 < 8 → 32 ≤ w.entries → exec i s = AbortsAt s w 1 (plainAbort 0x0B 0))
/-- One entry of the commit buffer taken by an effect. -/
def entered (w : Work) (e : Effect) : Work := { w with entries := w.entries + 1, effects := w.effects ++ [e] }
/-- An instruction of one cycle and two words that aborts from a working copy. -/
def Refuses (s : State) (i : Instr) (w : Work) (code : BitVec 8) : Prop := exec i s = AbortsAt s w 1 (plainAbort code 0)
/-- An instruction of one cycle and two words that goes on with a working copy. -/
def GoesOn (s : State) (i : Instr) (w : Work) : Prop := exec i s = .next (bodyWent s (w.advance 2 1))
/-- A format P instruction of two words that answers a value from its scalar source, under conditions on both; the other sources
abort with ILLEGAL_OPERAND. -/
def Answers (s : State) (i : Instr) (a d e : Opd) (t : Tag) (opc : BitVec 8) (ok : W64 → Prop) (f : W64 → W64) : Prop :=
  ∀ (x : W64) (sa : Sideband) (w1 w2 : Work), Gives (readS s a (keepIn t)) (start s opc) (x, sa) w1 →
    (ok x → Gives (resultS s d e ⟨t, 0, sa, 0⟩ (f x)) w1 () w2 → GoesOn s i w2) ∧ (¬ ok x → Refuses s i w1 0x04)

/-- A token pushed on an output link 0 mn to 3 mw: the port is bound and has a credit left for this body, the commit buffer an
entry; the token names its source for the return of the credit (02_rule, R57, R59, R68). -/
def Pushes (s : State) (p : Nat) (v : V512) (sb : Nat → Sideband) (w w' : Work) : Prop :=
  ∃ b, vget (bodyCtx s).binds p none = some b ∧ vget w.push p 0 < b.credits ∧ w.entries < 32 ∧
    w' = { w with entries := w.entries + 1, push := vset w.push p (vget w.push p 0 + 1),
                  effects := w.effects ++ [.push p { sb := sb b.cx, pay := v, src := some ⟨s.stage.core, s.stage.cx.val, p⟩ }] }
/-- The end-of-stream tokens of EOS on the ports of a list (12_package_launch, R348): payload 0, e set, fmt INT. -/
def EndsPushed (s : State) (ports : BitVec 4) : List Nat → Work → Work → Prop
  | [], w, w' => w' = w
  | p :: r, w, w' =>
    if ports.getLsbD p then
      ∃ w1, Pushes s p 0 (fun cx => BitVec.ofNat 40 (cx % 4 * 2 ^ 11 + (if (bodyCtx s).fm then 2 ^ 10 else 0) + 2 ^ 5)) w w1 ∧
        EndsPushed s ports r w1 w'
    else EndsPushed s ports r w w'
/-- A number in bytes k to k + n - 1 of a descriptor. -/
def bytesOfD (d : V512) (k n : Nat) : Nat := d.toNat / 256 ^ k % 256 ^ n
/-- A descriptor of an indirect stream within the limits of R367 (13_package_memory). -/
def IndirectFits (d : V512) : Prop :=
  let esz := bytesOfD d 28 4
  bytesOfD d 0 8 / 2 ^ 62 = 1 ∧ bytesOfD d 8 8 / 2 ^ 62 = 1 ∧ bytesOfD d 16 8 / 2 ^ 62 = 0 ∧
    bytesOfD d 36 1 ≤ 1 ∧ bytesOfD d 37 1 ≤ 1 ∧ bytesOfD d 38 1 = 0 ∧ bytesOfD d 39 1 ≤ 1 ∧ bytesOfD d 48 16 = 0 ∧
    1 ≤ bytesOfD d 24 4 ∧ bytesOfD d 24 4 ≤ 65536 ∧ 4 ≤ esz ∧ esz ≤ 4096 ∧ esz % 4 = 0 ∧
    bytesOfD d 0 8 % (if bytesOfD d 36 1 = 0 then 4 else 8) = 0 ∧ bytesOfD d 8 8 % (if esz % 8 = 0 then 8 else 4) = 0 ∧
    bytesOfD d 16 8 % 64 = 0

/-- STATE of a region slot (12_package_launch, R332). -/
def regionCode : RState → Nat
  | .free => 0 | .loading => 1 | .running => 2 | .swapping => 3 | .stopped => 4 | .rolling => 5 | .ended => 6
/-- STATE of a fabric port (15_fabric, R387). -/
def portCode : PState → Nat
  | .dark => 0 | .train => 1 | .verify => 2 | .active => 3 | .quiesce => 4 | .drain => 5 | .failed => 6

/-! ## Operand ports (01_encoding, R28 to R34) -/

/-- Bits of a sideband as a number. -/
def part (sb : Sideband) (lo n : Nat) : Nat := sb.toNat / 2 ^ lo % 2 ^ n
/-- The token that a port's next read takes: the one after those that the body has popped (R29). -/
def nextToken (s : State) (p : Nat) (w : Work) : Option Token := (vget (bodyCtx s).inq p [])[vget w.pops p 0]?
/-- A record of the handler chain, whose fm is not checked (03_core_numbers, R101; 08_cluster, R253). -/
def ChainRecord (s : State) (p : Nat) (tok : Token) : Prop :=
  p = 4 ∧ part tok.sb 13 6 = 63 ∧ chainPosition s s.stage.core s.stage.cx.val ≠ none
/-- The slot whose block an optical port has next for the body (11_package_cascade, R305). -/
def nextBlock (s : State) (o : Nat) (w : Work) : Option Nat := (vget (bodyCtx s).blocks o [])[vget w.pops (5 + o) 0]?
/-- What a direct read of a block gives: its first 64 bytes, or in deposit mode its offset and length (R307). -/
def BlockReads307 (s : State) (n : Nat) (b : Block) (v : V512) : Prop :=
  let g := (vget (bodyCore s).cgp (n / 4) 0).toNat
  (g / 2 ^ 31 % 2 = 1 → v = BitVec.ofNat 512 ((b.len * 2 ^ 32 + (256 * (g / 2 ^ 19 % 2 ^ 11) + 8192 * (n % 4)) % 2 ^ 19) % 2 ^ 64)) ∧
  (g / 2 ^ 31 % 2 = 0 → v = b.data.headD 0)
/-- The sideband of a block as a token (R300). -/
def BlockSideband (s : State) (b : Block) (sb : Sideband) : Prop :=
  part sb 39 1 = 1 ∧ part sb 19 20 = b.scl.toNat ∧ part sb 13 6 = 0 ∧ part sb 11 2 = (bodyCtx s).lc % 4 ∧
    part sb 10 1 = (if b.fm then 1 else 0) ∧ part sb 6 4 = 0 ∧ part sb 5 1 = (if b.last then 1 else 0) ∧ part sb 3 2 = 3 ∧
    part sb 0 3 = b.fmt.toNat
/-- An element written through a bound write stream: a free place of its queue and an entry of the commit buffer
(05_core_memory, R163). -/
def Streams (s : State) (q : Nat) (v : V512) (w w' : Work) : Prop :=
  let st := vget (bodyCtx s).q q Stream.reset
  st.bound = true ∧ st.dir = true ∧ st.queued.length + vget w.wr q 0 < 64 ∧ w.entries < 32 ∧
    w' = { w with entries := w.entries + 1, wr := vset w.wr q (vget w.wr q 0 + 1), effects := w.effects ++ [.elem q v] }

/-! ## Rounds (02_rule, R55 to R77) -/

/-- The guard term of an input port, an output port or a stream: off, or its count there (R55). -/
def TermHolds (on : Bool) (need_ have_ : Nat) : Prop := on = true → need_ ≤ have_
/-- Rule i of a context is enabled, from its header words a and b (R23 to R25, R41, R55). -/
def Enabled (c : Core) (x : Ctx) (i : Nat) (a b : W64) : Prop :=
  a.getLsbD 56 = true ∧ headerOk a b = true ∧ x.en.getLsbD i = true ∧
  (∀ p < 7, TermHolds (a.getLsbD (22 + p)) (field b (24 + 2 * p) 2)
    (if p < 5 then (vget x.inq p []).length else (vget x.blocks (p - 5) []).length)) ∧
  (∀ p < 4, TermHolds (a.getLsbD (33 + p)) (field b (48 + 2 * p) 2)
    (match vget x.binds p none with | some g => g.credits | none => 0)) ∧
  TermHolds (a.getLsbD 37) (field b 56 2) (8 - x.cpUsed) ∧
  (∀ q < 4, TermHolds (a.getLsbD (29 + q)) (field b (6 * q) 6) (streamFill (vget x.q q Stream.reset))) ∧
  (let tm := vget x.tm (field a 40 3) 0
   (field a 38 2 = 1 → x.tb &&& tm ≠ 0) ∧ (field a 38 2 = 2 → x.tb &&& tm = tm) ∧ (field a 38 2 = 3 → x.tb &&& tm = 0)) ∧
  (let r := vget x.s (field a 43 4) 0
   (field a 47 3 = 1 → r = 0) ∧ (field a 47 3 = 2 → r ≠ 0) ∧ (field a 47 3 = 3 → r.toInt < 0) ∧
   (field a 47 3 = 4 → 0 ≤ r.toInt)) ∧
  (field a 50 3 ≠ 7 → headFmt c x (field a 50 3) = some (field a 53 3))
/-- Rule j stands in the conflict row of rule i (01_encoding, R26). -/
def Conflicts (c : Core) (cx i j : Nat) : Prop := (tableWord c cx (0x400 + 8 * i)).getLsbD j = true
/-- The vector hint, or the basin hint, of a rule's header. -/
def hintCount (c : Core) (cx i bit : Nat) : Nat := if (headerA c cx i).getLsbD bit then 1 else 0

/-! ## Steps of the part -/

/-- The step runs, to a state of which a property holds. -/
def Runs (i : Instr) (s : State) (P : State → Prop) : Prop := ∃ t, exec i s = .next t ∧ P t
/-- The message that the step names may be taken: it goes from core src to core dst with a body, and is the oldest of its class between
the two (08_cluster, R235). -/
def Receives (s : State) (src dst : Nat) (p : Payload) : Prop := ∃ moved, msgOf s s.ev.x = some ⟨s.ev.x, src, dst, p, moved⟩
/-- The message is gone. -/
def Taken (s t : State) : Prop := t.msgs = s.msgs.filter (fun m => m.id != s.ev.x)
/-- No memory of the part changes: HBM, second tier, host, every core's SRAM and planes, every pinned store. -/
def SameMemory (s t : State) : Prop :=
  t.hbm = s.hbm ∧ t.tier2 = s.tier2 ∧ t.host = s.host ∧
    (∀ k, (coreOf t k).mem = (coreOf s k).mem ∧ (coreOf t k).active = (coreOf s k).active ∧
      (coreOf t k).shadow = (coreOf s k).shadow) ∧ ∀ d, (dieOf t d).pinned = (dieOf s d).pinned
/-- One flit is injected: on a class, from core src to core dst, with a body, behind those there (08_cluster, R234). -/
def Sends (s t : State) (cls src dst : Nat) (p : Payload) : Prop :=
  ∃ f, t.flits = s.flits ++ [f] ∧ f.cls = cls ∧ f.src = src ∧ f.dst = dst ∧ f.body = p ∧ f.at_ = src ∧ f.port = 0 ∧
    f.cistern = false
/-- A step with two operands may happen from a tick on. -/
def Later (t : State) (op : Instr) (x y due : Nat) : Prop :=
  ∃ p ∈ t.agenda, p.op = op ∧ p.args.x = x ∧ p.args.y = y ∧ p.due = due
/-- The step is put off, and changes nothing else. -/
def PutOff (s t : State) (op : Instr) : Prop :=
  t = { s with agenda := t.agenda } ∧ t.agenda = s.agenda ++ [⟨s.now + 1, op, s.ev⟩]
/-- The tag of a command set in its context (05_core_memory, R166). -/
def TagSet (s t : State) (addr : Nat) (tag : Option Nat) : Prop :=
  ∀ k c, findCtx s addr = some (k, c) →
    (ctxOf t k c).tb = match tag with | some n => (ctxOf s k c).tb ||| (1#64 <<< n) | none => (ctxOf s k c).tb
/-- A core whose memory is in canonical form and whose contexts log no block (12_package_launch, R341). -/
def Unlogged (s : State) (k : Nat) : Prop :=
  memWf (coreOf s k).mem = true ∧ ∀ c < 4, ∀ blk, liveIn s (ctxOf s k c) blk = false
/-- n different places in data memory. -/
def Places (n : Nat) (place : Nat → Nat) : Prop :=
  (∀ i < n, place i < 0x60000) ∧ ∀ i < n, ∀ j < n, place i = place j → i = j
/-- The bytes of a value, least significant first, stored at n places of a core's data memory, and no other byte of any core changed. -/
def StoredAt (s t : State) (k n : Nat) (place : Nat → Nat) (v : Nat) : Prop :=
  (∀ i < n, memByte (coreOf t k).mem (place i) = BitVec.ofNat 8 (v / 256 ^ i)) ∧
    (∀ a, (∀ i < n, a ≠ place i) → memByte (coreOf t k).mem a = memByte (coreOf s k).mem a) ∧
    (∀ j, j ≠ k → (coreOf t j).mem = (coreOf s j).mem) ∧
    ∀ j, (coreOf t j).active = (coreOf s j).active ∧ (coreOf t j).shadow = (coreOf s j).shadow
/-- The gang of a region slot has consumed an error: its rollback is to come (12_package_launch, R342). -/
def RollsBack (s t : State) (n : Nat) (code : BitVec 8) : Prop :=
  (regionOf t n).error = some code ∧ Later t .rollback n 0 s.now


/-- The engines' next steps stand by: a stream, a copy (x, y the first two operands, z the third). -/
def LaterOf (t : State) (op : Instr) (x y z : Nat) : Prop :=
  ∃ p ∈ t.agenda, p.op = op ∧ p.args.x = x ∧ p.args.y = y ∧ p.args.z = z
/-- The command's failure is on its way to its issuer as a trap (05_core_memory, R158). -/
def FailsCommand (s t : State) (c : Command) (code : BitVec 8) : Prop :=
  ∀ dst, coreOfAddr s c.cx = some dst → ∃ m ∈ t.msgs, m.dst = dst ∧ m.body = .failed c.cx c.id false code 0 false false c.org
/-- The head command of a core has ended: its entry is free, DONE of its context counts it, and one grant fewer stands (06_core_basin,
R177, R178, R203). -/
def BasinEnds (s t : State) (k : Nat) (b : BasinCmd) (r : List BasinCmd) : Prop :=
  (coreOf t k).bq = r ∧ (coreOf t k).granted = (coreOf s k).granted - 1 ∧ (coreOf t k).deliv = none ∧
    (ctxOf t k b.cx).bdone = (ctxOf s k b.cx).bdone + 1 ∧ Later t .basinGrant (basinOf s k) 0 s.now
/-- Element (i, j) of w bits of a slot. -/
def elem (a : AccSlot) (w i j : Nat) : Nat := (vget a.rows i 0).toNat / 2 ^ (w * j) % 2 ^ w
/-- The value of element (i, j) after all K-groups, from e: each group's products are summed as gsum sums them, and the sum is added
in RNE (03_core_numbers, R107). -/
def grouped (t : Tiles) (mx fm : Bool) (af bf kk i j e : Nat) : Nat :=
  let f := if af = 1 then 1 else 2
  let size := if af = 1 then 2 else 8
  (List.range ((kk + size - 1) / size)).foldl
    (fun a g => (fpAdd f 0 a (groupSum f (inputFrac af + inputFrac bf) (groupProducts t mx fm af bf kk size g i j)).1).1) e
/-- A weight of MMAT: 01 is 1, 11 is -1, else 0; a byte of MMAI8 (03_core_numbers, R97). -/
def weight (tern : Bool) (c : Nat) : Int :=
  if tern then (if c = 1 then 1 else if c = 3 then -1 else 0) else if c < 128 then c else (c : Int) - 256


/-- What a core has outstanding of a class towards a core (08_cluster, R237). -/
def unacked (c : Core) (cls dst : Nat) : Nat :=
  ((c.outst.filter (fun o => o.1 == cls && o.2.1 == dst)).map (fun o => o.2.2)).sum
/-- The head of a router's input, or of the cistern before it, is a flit. -/
def Head (s : State) (k port cls : Nat) (cistern : Bool) (f : Flit) : Prop := (flitsAt s k port cls cistern).head? = some f
/-- The head flit is gone, and one may stand behind the others instead. -/
def Moves (s t : State) (f : Flit) (g : Option Flit) : Prop := t.flits = s.flits.erase f ++ g.toList
/-- A context whose outbound order may drain (12_package_launch, R337, R343; 10_die, R281). -/
def Drains (s : State) (k c : Nat) : Prop :=
  c < 4 ∧ (coreOf s k).stopped = false ∧ clockStopped s k = false ∧ (regionOf s (ctxOf s k c).region).dup = false
/-- The n-th member's completion or cancellation of a barrier is on its way on CTL (08_cluster, R248, R258). -/
def Told (s t : State) (cl k : Nat) (cancel : Bool) (m : Nat × Nat) : Prop :=
  ∃ f ∈ t.flits, f.cls = 3 ∧ f.src = barrierCore cl ∧ f.dst = (coreOfAddr s m.2).getD m.1 ∧ f.body = .barDone m.2 k cancel
/-- A pair of a channel ended without its exchange: SEQ advances, nothing is held or armed, and the bound context traps at its next round
boundary with a code, INFO holding channel and SEQ (08_cluster, R252). -/
def PairEnds (s t : State) (cl ch : Nat) (code : BitVec 8) : Prop :=
  let p := vget (clusterOf s cl).pch ch PairCh.reset
  vget (clusterOf t cl).pch ch PairCh.reset = { p with armed := false, held := none, since := 0, frozen := none, seq := p.seq + 1 } ∧
    ∀ k c, findCtx s (pairCtx s cl ch) = some (k, c) → ∃ r, (coreOf t k).traps = (coreOf s k).traps ++ [(c, r)] ∧
      field r.w0 56 8 = code.toNat ∧ r.w3 = BitVec.ofNat 64 (ch + 16 * p.seq.toNat)
/-- A count of 32 bits that saturates, after n more. -/
def more (v : W32) (n : Nat) : Nat := min (v.toNat + n) (2 ^ 32 - 1)


/-- A reply of a request is on its way to its issuer, from a unit of the package: it waits at the issuer's core (05_core_memory, R157). -/
def RepliesTo (s t : State) (r : Request) (v : Nat) : Prop :=
  r.rpy = true → ∀ dst, coreOfAddr s r.cx = some dst → ∃ m ∈ t.msgs, m.dst = dst ∧ ∃ tok, m.body = .reply r.cx r.id tok ∧
    tok.pay.toNat = v ∧ part tok.sb 13 6 = r.rt.toNat ∧ part tok.sb 5 1 = 0
/-- A request's failure is on its way to its issuer, from a unit of the package (05_core_memory, R158). -/
def FailsTo (s t : State) (r : Request) (code : BitVec 8) : Prop :=
  ∀ dst, coreOfAddr s r.cx = some dst → ∃ m ∈ t.msgs, m.dst = dst ∧ ∃ wd, m.body = .failed r.cx r.id r.rpy code r.rt r.fm wd r.org
/-- An operation outside core memory in a phase, first of its number, with none of its context before it (05_core_memory, R159). -/
def Under (s : State) (id : Nat) (p : XPhase) (x : XOp) : Prop :=
  s.xops.find? (fun o => o.req.id == id && o.phase == p) = some x ∧ x.phase = p ∧ earlierOps s x = []
/-- The least whole number not below a / b. -/
def up (a b : Nat) : Nat := (a + b - 1) / b


/-- m bytes of HBM from an address that hold no entry of the core map (12_package_launch, R329). -/
def MapApart (s : State) (a m : Nat) : Prop :=
  ∀ b, a ≤ b → b < a + m → (∀ base, s.pkg.mapAt = some base → b < base ∨ base + 589824 ≤ b) ∧
    (b < s.pkg.cmbase.toNat ∨ s.pkg.cmbase.toNat + 589824 ≤ b)



/-! ## Queues (12_package_launch, R322 to R328) -/

/-- n bytes of a packet from a byte on, as a number (12_package_launch, R324). -/
def inPacket (p : BitVec 1024) (lo n : Nat) : Nat := p.toNat / 256 ^ lo % 256 ^ n
/-- A packet completes next, with STATUS and CODE (12_package_launch, R324). -/
def Completing (s t : State) (q idx st code : Nat) : Prop :=
  ∃ p ∈ t.agenda, p.op = .packetCompletion ∧ p.args.x = q ∧ p.args.y = idx ∧ p.args.v = word (st + 256 * code) ∧ p.due = s.now
/-- A queue with one packet that is not complete changed. -/
def touched (x : Queue) (idx : Nat) (f : Packet → Packet) : Queue :=
  { x with packets := x.packets.map (fun p => if p.idx.toNat = idx ∧ p.status = none then f p else p) }
/-- Bytes of host memory from an address on. -/
def hostBytes (s : State) (a n : Nat) : List Byte := (List.range n).map (fun i => memByte s.host (a + i))
/-- Bytes stored in host memory from an address on, and no other byte of it changed. -/
def HostStored (s t : State) (a : Nat) (bs : List Byte) : Prop :=
  ∀ i, memByte t.host i = if a ≤ i ∧ i < a + bs.length then bs.getD (i - a) 0 else memByte s.host i
/-- The part's device memory is as it was: HBM, second tier, cores, pinned stores. -/
def SameDevice (s t : State) : Prop :=
  t.hbm = s.hbm ∧ t.tier2 = s.tier2 ∧
    (∀ k, (coreOf t k).mem = (coreOf s k).mem ∧ (coreOf t k).active = (coreOf s k).active ∧
      (coreOf t k).shadow = (coreOf s k).shadow) ∧ ∀ d, (dieOf t d).pinned = (dieOf s d).pinned
/-- A queue's ring has a size within its limits (12_package_launch, R322). -/
def RingSized (x : Queue) : Prop := 4 ≤ field x.cfg 0 5 ∧ field x.cfg 0 5 ≤ 16
/-- No packet of a queue that is not dispatched has a place (12_package_launch, R326). -/
def NonePlaced (x : Queue) : Prop := ∀ p ∈ x.packets, p.dispatched = false → p.placed = none
/-- A head packet that the scheduler may dispatch at once, of a TYPE other than LAUNCH and WAIT (12_package_launch, R326). -/
def Ready (s : State) (q : Nat) (p : Packet) : Prop :=
  let x := queueOf s q
  x.st = .active ∧ x.offPend = false ∧ headPacket x = some p ∧ p.progress = 0 ∧ p.status = none ∧
    inPacket p.bytes 1 1 ≠ 1 ∧ inPacket p.bytes 1 1 ≠ 3 ∧
    ((pktFlags p.bytes).getLsbD 0 = true → ∀ e ∈ x.packets.takeWhile (fun r => r.idx != p.idx), e.status ≠ none)
/-- The first step of a packet's work, by TYPE (12_package_launch, R325). -/
def firstStep (p : BitVec 1024) : Option Instr :=
  match inPacket p 1 1 with
  | 2 => some .copy
  | 4 => some .signal
  | 5 => some .groupload
  | 6 => some .reservoirLoad
  | 7 => some .fabricReconf
  | 9 => some (if inPacket p 4 1 / 4 % 2 = 1 then .destroyForce else .destroy)
  | 10 => some .record
  | 11 => some (if inPacket p 16 2 = 0 then .pwrSetCap else .pwrSetFloor)
  | _ => none


/-! ## The fabric (15_fabric, R388 to R399) -/

/-- The 16-byte header of a packet of a body length that is not compressed (15_fabric, R389). -/
def headerBytes (k : FabPacket) : List Byte :=
  leBytes 2 k.dst ++ leBytes 2 k.src ++ leBytes 1 ((if k.fctl then 1 else 0) + (if k.bank then 2 else 0)) ++ leBytes 1 k.sched ++
    leBytes 2 k.body.length ++ leBytes 4 k.stag.toNat ++ leBytes 4 k.off
/-- A port FAILED, with what it held lost and counted (15_fabric, R392, R399). -/
def PortFails (s t : State) (port cause : Nat) : Prop :=
  let p := portOf s port
  let q := portOf t port
  q.st = .failed ∧ q.cause = cause ∧ q.waiting = [] ∧ q.stream = [] ∧ q.replay = [] ∧
    (vget t.fab.cnt 5 0).toNat = more (vget s.fab.cnt 5 0) (p.replay.length + p.waiting.length)
/-- A packet of this package on its way: it waits for the port that its bank's entry names (15_fabric, R395, R396). -/
def FabricSends (s t : State) (fctl : Bool) (dst sched : Nat) (stag : W32) (off : Nat) (body : List Byte) : Prop :=
  let bank := flowBank s.fab fctl dst
  let e := fabricRoute s.fab bank dst
  e.getLsbD 15 = true → e.getLsbD 14 = false → e.toNat % 64 ≤ 47 → ∃ k ∈ (portOf t (e.toNat % 64)).waiting, k.dst = dst ∧
    k.src = s.fab.id ∧ k.fctl = fctl ∧ k.bank = bank ∧ k.sched = sched ∧ k.stag = stag ∧ k.off = off ∧ k.body = body ∧ k.from_ = none
/-- A packet of the fabric unit that came in on a port, the oldest there. -/
def Transits (s : State) (id : Nat) (k : FabPacket) (r : List FabPacket) : Prop :=
  s.fab.transit = k :: r ∧ k.id = id ∧ ∀ x ∈ r, x.id ≠ id
/-- A credit of a packet's class owed to the port that it came in on. -/
def Credited (s t : State) (k : FabPacket) : Prop :=
  ∀ p, k.from_ = some p → (portOf t p).credits =
    (if k.fctl then ((portOf s p).credits.1, (portOf s p).credits.2 + 1) else ((portOf s p).credits.1 + 1, (portOf s p).credits.2))
/-- A port's head command ends, that of a PORT_CMD packet (15_fabric, R393). -/
def EndsCommand (s t : State) (j : PortCmd) (st code : Nat) : Prop :=
  ∀ q idx, j.packet = some (q, idx) → (∀ r ∈ s.fab.reconf, ¬ (r.1 = q ∧ r.2.1 = idx)) → Completing s t q idx.toNat st code

end Sys2Proof.Claims

open Sys2Proof Sys2Proof.Machine Sys2Proof.Claims

/-- R117 (04_core_compute): the two-source arithmetic, bitwise, shift, minimum, maximum, saturating and compare instructions give
the values of the table, in one cycle but for the multiplications' two (R114). -/
def Sys2Proof.Claims.ScalarTwoSourceResults : Prop :=
  ScalarTwo .add 0x04 1 (fun x y => word (x.toNat + y.toNat)) ∧
  ScalarTwo .sub 0x06 1 (fun x y => wordI ((x.toNat : Int) - y.toNat)) ∧
  ScalarTwo .mul 0x07 2 (fun x y => word (x.toNat * y.toNat)) ∧
  ScalarTwo .mulh 0x08 2 (fun x y => wordI (x.toInt * y.toInt / 2 ^ 64)) ∧
  ScalarTwo .mulhu 0x09 2 (fun x y => word (x.toNat * y.toNat / 2 ^ 64)) ∧
  ScalarTwo .and 0x0E 1 (fun x y => word (x.toNat &&& y.toNat)) ∧
  ScalarTwo .or 0x10 1 (fun x y => word (x.toNat ||| y.toNat)) ∧
  ScalarTwo .xor 0x12 1 (fun x y => word (x.toNat ^^^ y.toNat)) ∧
  ScalarTwo .shl 0x14 1 (fun x y => word (x.toNat * 2 ^ cnt y)) ∧
  ScalarTwo .shr 0x16 1 (fun x y => word (x.toNat / 2 ^ cnt y)) ∧
  ScalarTwo .sar 0x18 1 (fun x y => wordI (x.toInt / 2 ^ cnt y)) ∧
  ScalarTwo .rol 0x1A 1 (fun x y => word (x.toNat * 2 ^ cnt y % 2 ^ 64 + x.toNat / 2 ^ (64 - cnt y))) ∧
  ScalarTwo .min 0x1E 1 (fun x y => wordI (min x.toInt y.toInt)) ∧
  ScalarTwo .max 0x1F 1 (fun x y => wordI (max x.toInt y.toInt)) ∧
  ScalarTwo .minu 0x20 1 (fun x y => word (min x.toNat y.toNat)) ∧
  ScalarTwo .maxu 0x21 1 (fun x y => word (max x.toNat y.toNat)) ∧
  ScalarTwo .addsat 0x22 1 (fun x y => clamp (x.toInt + y.toInt)) ∧
  ScalarTwo .subsat 0x23 1 (fun x y => clamp (x.toInt - y.toInt)) ∧
  ScalarTwo .seq 0x24 1 (fun x y => flag (x = y)) ∧
  ScalarTwo .sne 0x25 1 (fun x y => flag (x ≠ y)) ∧
  ScalarTwo .slt 0x26 1 (fun x y => flag (x.toInt < y.toInt)) ∧
  ScalarTwo .sltu 0x27 1 (fun x y => flag (x.toNat < y.toNat)) ∧
  ScalarTwo .sle 0x28 1 (fun x y => flag (x.toInt ≤ y.toInt)) ∧
  ScalarTwo .sleu 0x29 1 (fun x y => flag (x.toNat ≤ y.toNat))

/-- R118 (04_core_compute): division never faults; division by zero, the one quotient that overflows and the ordinary cases. Eight
cycles (R114). -/
def Sys2Proof.Claims.DivisionResults : Prop :=
  ScalarTwo .div 0x0A 8 (fun x y => if y = 0 then word (2 ^ 64 - 1) else
    if x.toInt = -(2 ^ 63) ∧ y.toInt = -1 then x else wordI (x.toInt.tdiv y.toInt)) ∧
  ScalarTwo .divu 0x0B 8 (fun x y => if y = 0 then word (2 ^ 64 - 1) else word (x.toNat / y.toNat)) ∧
  ScalarTwo .rem 0x0C 8 (fun x y => if y = 0 then x else
    if x.toInt = -(2 ^ 63) ∧ y.toInt = -1 then 0 else wordI (x.toInt - y.toInt * x.toInt.tdiv y.toInt)) ∧
  ScalarTwo .remu 0x0D 8 (fun x y => if y = 0 then x else word (x.toNat % y.toNat))

/-- R117, R120 (04_core_compute): the immediate forms, moves, bit counts, extensions and the bit-field extract. -/
def Sys2Proof.Claims.ScalarImmediateResults : Prop :=
  (∀ (s : State) (t : Tag), exec (.nop t) s = .next (bodyWent s ((start s 0x00).advance 1 1))) ∧
  ScalarOne .mov 0x01 (fun _ x => x) ∧
  (∀ (s : State) (d : Opd) (i : BitVec 14) (w : Work), Disarmed s →
    Gives (resultS s d 31#5 ⟨0, 0, 0, 0⟩ (signed i.toNat 14)) (start s 0x02) () w →
    exec (.movi d i) s = .next (bodyWent s (w.advance 1 1))) ∧
  ScalarImm .movsh 0x03 (fun x i => word (x.toNat * 2 ^ 14 % 2 ^ 64 + i.toNat)) ∧
  ScalarImm .addi 0x05 (fun x i => word (x.toNat + (signed i.toNat 14).toNat)) ∧
  ScalarImm .andi 0x0F (fun x i => word (x.toNat &&& i.toNat)) ∧
  ScalarImm .ori 0x11 (fun x i => word (x.toNat ||| i.toNat)) ∧
  ScalarImm .xori 0x13 (fun x i => word (x.toNat ^^^ i.toNat)) ∧
  ScalarImm .shli 0x15 (fun x i => word (x.toNat * 2 ^ i.toNat)) ∧
  ScalarImm .shri 0x17 (fun x i => word (x.toNat / 2 ^ i.toNat)) ∧
  ScalarImm .sari 0x19 (fun x i => wordI (x.toInt / 2 ^ i.toNat)) ∧
  ScalarOne .clz 0x1B (fun _ x => word (64 - Nat.size x.toNat)) ∧
  ScalarOne .ctz 0x1C (fun _ x => if x = 0 then 64 else word (padicValNat 2 x.toNat)) ∧
  ScalarOne .popc 0x1D (fun _ x => word ((List.range 64).countP (fun i => x.toNat.testBit i))) ∧
  ScalarImm .zext 0x2C (fun x i => word (field x 0 i.toNat)) ∧
  (∀ (s : State) (a d : Opd) (i : BitVec 7) (x : W64) (sa : Sideband) (w1 w2 : Work), Disarmed s →
    1 ≤ i.toNat → i.toNat ≤ 64 → Gives (readS s a false) (start s 0x2B) (x, sa) w1 →
    Gives (resultS s d 31#5 ⟨0, 0, sa, 0⟩ (signed x.toNat i.toNat)) w1 () w2 →
    exec (.sext a d i) s = .next (bodyWent s (w2.advance 1 1))) ∧
  (∀ (s : State) (a d : Opd) (i : BitVec 14) (x : W64) (sa : Sideband) (w1 w2 : Work), Disarmed s →
    WellFormed.fieldOk i = true → Gives (readS s a false) (start s 0x2D) (x, sa) w1 →
    Gives (resultS s d 31#5 ⟨0, 0, sa, 0⟩
      (if bits i 13 13 = 1 then signed (x.toNat / 2 ^ bits i 5 0) (bits i 12 6) else word (field x (bits i 5 0) (bits i 12 6))))
      w1 () w2 →
    exec (.bfx a d i) s = .next (bodyWent s (w2.advance 1 1)))

/-- R119, R120 (04_core_compute): SEL reads its condition register third and has one destination; BFI inserts in place. -/
def Sys2Proof.Claims.SelectAndInsertResults : Prop :=
  (∀ (s : State) (a b d e : Opd) (t : Tag) (x y c : W64) (sa sb sc : Sideband) (w1 w2 w3 w4 : Work), Disarmed s →
    Gives (readS s a (keepIn t)) (start s 0x2A) (x, sa) w1 → Gives (readS s b (keepIn t)) w1 (y, sb) w2 →
    Gives (readS s e false) w2 (c, sc) w3 →
    Gives (resultS s d 31#5 ⟨t, 0, sa, sb⟩ (if c = 0 then y else x)) w3 () w4 →
    exec (.sel a b d e t) s = .next (bodyWent s (w4.advance 1 1))) ∧
  (∀ (s : State) (a b d e : Opd) (t : Tag) (x y : W64) (sa sb : Sideband) (w1 w2 w3 : Work) (r : W64), Disarmed s →
    Gives (readS s a (keepIn t)) (start s 0x2E) (x, sa) w1 → Gives (readS s b (keepIn t)) w1 (y, sb) w2 →
    d.toNat < 16 →
    (∀ j < 64, r.getLsbD j =
      if cnt y ≤ j ∧ j < cnt y + field y 6 7 then x.getLsbD (j - cnt y) else (vget w2.s d.toNat 0).getLsbD j) →
    Gives (resultS s d e ⟨t, 0, sa, sb⟩ r) w2 () w3 →
    exec (.bfi a b d e t) s = .next (bodyWent s (w3.advance 1 1)))

/-- R117 to R120 (04_core_compute): what every scalar arithmetic, compare, shift, bit-count, division, select and bit-field
instruction gives. Every part is stated above. -/
def Obligations.ScalarResults : Prop :=
  Claims.ScalarTwoSourceResults ∧ Claims.DivisionResults ∧ Claims.ScalarImmediateResults ∧ Claims.SelectAndInsertResults

/-- R121, R122, R123 (04_core_compute): the address instructions give the values of the rules. XYADR and RELADR abort with RANGE
where the rule says so, INFO being the operand that fails; ADRCHK never aborts. -/
def Obligations.AddressArithmeticResults : Prop :=
  (∀ (s : State) (a b d e : Opd) (t : Tag) (x y : W64) (sa sb : Sideband) (w1 w2 : Work), Disarmed s →
    Gives (readS s a (keepIn t)) (start s 0x30) (x, sa) w1 → Gives (readS s b (keepIn t)) w1 (y, sb) w2 →
    (field x 8 9 ≤ 287 ∧ y.toNat < 0x80000 → ∀ w3,
      Gives (resultS s d e ⟨t, 0, sa, sb⟩ (word (field x 8 9 * 2 ^ 52 + field x 0 8 * 2 ^ 44 + y.toNat))) w2 () w3 →
      exec (.xyadr a b d e t) s = .next (bodyWent s (w3.advance 1 1))) ∧
    (287 < field x 8 9 → exec (.xyadr a b d e t) s = .next (bodyAborted s (w2.advance 0 1) (plainAbort cRange x))) ∧
    (field x 8 9 ≤ 287 ∧ 0x80000 ≤ y.toNat →
      exec (.xyadr a b d e t) s = .next (bodyAborted s (w2.advance 0 1) (plainAbort cRange y)))) ∧
  (∀ (s : State) (a b d e : Opd) (t : Tag) (x y : W64) (sa sb : Sideband) (w1 w2 : Work), Disarmed s →
    Gives (readS s a (keepIn t)) (start s 0x31) (x, sa) w1 → Gives (readS s b (keepIn t)) w1 (y, sb) w2 →
    (y.toNat < 0x80000 → ∀ w3,
      Gives (resultS s d e ⟨t, 0, sa, sb⟩ (word (2 ^ 61 + field x 8 9 * 2 ^ 52 + field x 0 8 * 2 ^ 44 + y.toNat))) w2 () w3 →
      exec (.reladr a b d e t) s = .next (bodyWent s (w3.advance 1 1))) ∧
    (0x80000 ≤ y.toNat → exec (.reladr a b d e t) s = .next (bodyAborted s (w2.advance 0 1) (plainAbort cRange y)))) ∧
  (∀ (s : State) (d e : Opd) (t : Tag) (w : Work), Disarmed s →
    (let x := bodyCtx s
     let r := regionOf s x.region
     x.lx ≤ 287 ∧ x.ly ≤ 255 ∧ r.x0 ≤ x.lx ∧ r.y0 ≤ x.ly ∧
       Gives (resultS s d e ⟨t, 0, 0, 0⟩
         (word ((x.lx - r.x0) * 2 ^ 40 + (x.ly - r.y0) * 2 ^ 32 + x.lx * 2 ^ 8 + x.ly))) (start s 0x32) () w) →
    exec (.myxy d e t) s = .next (bodyWent s (w.advance 1 1))) ∧
  ScalarImm .adrx 0x33 (fun x (f : BitVec 2) =>
    if f = 3 then word (field x 62 2)
    else if field x 62 2 ≠ 0 then 0
    else if f = 2 then word (field x 0 19)
    else if f = 1 then (if x.getLsbD 61 then signed (field x 44 8) 8 else word (field x 44 8))
    else (if x.getLsbD 61 then signed (field x 52 9) 9 else word (field x 52 9))) ∧
  (∀ (s : State) (a b d e : Opd) (t : Tag) (x y : W64) (sa sb : Sideband) (w1 w2 w3 : Work), Disarmed s →
    Gives (readS s a (keepIn t)) (start s 0x34) (x, sa) w1 → Gives (readS s b (keepIn t)) w1 (y, sb) w2 →
    Gives (resultS s d e ⟨t, 0, sa, sb⟩ ((checkedPlace (bodyCtx s) x y.toNat).getD 0xFFFFFFFFFFFFFFFF)) w2 () w3 →
    exec (.adrchk a b d e t) s = .next (bodyWent s (w3.advance 1 1)))

/-- R113, R125, R127, R129 (04_core_compute): the masked moves, sign operations and integer lanes. VIMUL takes two cycles (R114),
the others one; none raises a flag. -/
def Obligations.VectorIntegerLaneResults : Prop :=
  VectorOne .vmov 0x40 1 0 (fun _ x => quiet x) ∧
  VectorOne .vabsF32 0x52 1 2 (fun _ x => quiet (lane32 (x.toNat % 2 ^ 31))) ∧
  VectorOne .vnegF32 0x53 1 2 (fun _ x => quiet (lane32 ((x.toNat + 2 ^ 31) % 2 ^ 32))) ∧
  VectorTwo .viadd 0x5E 1 0 (fun _ x y _ => quiet (lane32 (x.toNat + y.toNat))) ∧
  VectorTwo .visub 0x5F 1 0 (fun _ x y _ => quiet (lane32 (x.toNat + (2 ^ 32 - y.toNat)))) ∧
  VectorTwo .vimul 0x60 2 0 (fun _ x y _ => quiet (lane32 (x.toNat * y.toNat))) ∧
  VectorTwo .vand 0x61 1 0 (fun _ x y _ => quiet (lane32 (x.toNat &&& y.toNat))) ∧
  VectorTwo .vor 0x62 1 0 (fun _ x y _ => quiet (lane32 (x.toNat ||| y.toNat))) ∧
  VectorTwo .vxor 0x63 1 0 (fun _ x y _ => quiet (lane32 (x.toNat ^^^ y.toNat))) ∧
  VectorTwo .vshl 0x64 1 0 (fun _ x y _ => quiet (lane32 (x.toNat * 2 ^ (y.toNat % 32)))) ∧
  VectorTwo .vshr 0x65 1 0 (fun _ x y _ => quiet (lane32 (x.toNat / 2 ^ (y.toNat % 32)))) ∧
  VectorTwo .vsar 0x66 1 0 (fun _ x y _ => quiet (BitVec.ofInt 32 (x.toInt / 2 ^ (y.toNat % 32)))) ∧
  VectorTwo .vimin 0x67 1 0 (fun _ x y _ => quiet (BitVec.ofInt 32 (min x.toInt y.toInt))) ∧
  VectorTwo .vimax 0x68 1 0 (fun _ x y _ => quiet (BitVec.ofInt 32 (max x.toInt y.toInt))) ∧
  VectorTwo .viaddsatI8 0x6B 1 0 (fun _ x y _ =>
    quiet (byteSum x y 3 ++ byteSum x y 2 ++ byteSum x y 1 ++ byteSum x y 0))

/-- R113, R114, R126, R127 (04_core_compute): the masked floating instructions on FP32 lanes and BF16 pairs deliver each element's
value and flags in st.RND as at cycle 0, with the cycles of the rule; the value functions are those of the number formats, whose
own claims follow. The result of a table operation is its faithful one. Where it rests on the model's own choice, that is log
entry 22. -/
def Obligations.VectorFloatLaneResults : Prop :=
  VectorTwo .vaddF32 0x45 1 2 (fun s x y _ => fp32 (fpAdd 2 (mode s) x.toNat y.toNat)) ∧
  VectorTwo .vsubF32 0x46 1 2 (fun s x y _ => fp32 (fpSub 2 (mode s) x.toNat y.toNat)) ∧
  VectorTwo .vmulF32 0x47 1 2 (fun s x y _ => fp32 (fpMul 2 (mode s) x.toNat y.toNat)) ∧
  VectorTwo .vfmaF32 0x48 1 2 (fun s x y o => fp32 (fpFma 2 (mode s) x.toNat y.toNat o.toNat)) ∧
  VectorTwo .vminF32 0x49 1 2 (fun _ x y _ => fp32 (fpMinMax 2 false x.toNat y.toNat)) ∧
  VectorTwo .vmaxF32 0x4A 1 2 (fun _ x y _ => fp32 (fpMinMax 2 true x.toNat y.toNat)) ∧
  VectorTwo .vaddBf16 0x4F 1 3 (fun s x y _ => bf16 (fpAdd 3 (mode s)) x y) ∧
  VectorTwo .vmulBf16 0x50 1 3 (fun s x y _ => bf16 (fpMul 3 (mode s)) x y) ∧
  VectorTwo .vdot2Bf16 0x51 1 2 (fun s x y o => fp32 (fpDot2 (mode s) (x.toNat % 65536) (y.toNat % 65536)
    (x.toNat / 65536) (y.toNat / 65536) o.toNat)) ∧
  VectorOne .vrcpF32 0x54 3 2 (fun s x => fp32 (f32Rcp (mode s) x.toNat)) ∧
  VectorOne .vrsqF32 0x55 3 2 (fun _ x => fp32 (f32Rsq x.toNat)) ∧
  VectorOne .vsqrtF32 0x56 3 2 (fun s x => fp32 (f32Sqrt (mode s) x.toNat)) ∧
  VectorOne .vexp2F32 0x57 3 2 (fun s x => fp32 (f32Exp2 (mode s) x.toNat)) ∧
  VectorOne .vlog2F32 0x58 3 2 (fun _ x => fp32 (f32Log2 x.toNat)) ∧
  VectorOne .vtanhF32 0x59 3 2 (fun _ x => fp32 (f32Tanh x.toNat)) ∧
  VectorDouble .vaddF64 0x4B (fun s x y _ => fp64 (fpAdd 1 (mode s) x.toNat y.toNat)) ∧
  VectorDouble .vsubF64 0x4C (fun s x y _ => fp64 (fpSub 1 (mode s) x.toNat y.toNat)) ∧
  VectorDouble .vmulF64 0x4D (fun s x y _ => fp64 (fpMul 1 (mode s) x.toNat y.toNat)) ∧
  VectorDouble .vfmaF64 0x4E (fun s x y o => fp64 (fpFma 1 (mode s) x.toNat y.toNat o.toNat))

/-- R125, R128, R130, R131, R132 (04_core_compute): broadcasts, permutes, lane access, compares and select, reductions, mask access,
shifts and scans. -/
def Obligations.VectorMoveCompareReduceResults : Prop :=
  (∀ (s : State) (a d e : Opd) (t : Tag) (x : W64) (sa : Sideband) (w1 w2 : Work), Disarmed s → VectorHint s →
    Gives (readS s a (keepIn t)) (start s 0x41) (x, sa) w1 →
    Gives (resultV s d e ⟨t, 0, sa, 0⟩ (masked w1 d (fun _ => lane32 x.toNat))) w1 () w2 →
    exec (.vbcast a d e t) s = .next (bodyWent s (w2.advance 1 1))) ∧
  VectorWhole .vperm 0x42 (fun _ x y i => lane x ((lane y i).toNat % 16)) ∧
  (∀ (s : State) (a d : Opd) (n : BitVec 4) (x : V512) (sa : Sideband) (w1 w2 : Work), Disarmed s → VectorHint s →
    Gives (readV s a false) (start s 0x43) (x, sa) w1 →
    Gives (resultS s d 31#5 ⟨0, 0, sa, 0⟩ (word (lane x n.toNat).toNat)) w1 () w2 →
    exec (.vextr a d n) s = .next (bodyWent s (w2.advance 1 1))) ∧
  (∀ (s : State) (a d : Opd) (n : BitVec 4) (x : W64) (sa : Sideband) (w1 w2 : Work), Disarmed s → VectorHint s →
    Gives (readS s a false) (start s 0x44) (x, sa) w1 →
    Gives (resultV s d 31#5 ⟨0, 0, sa, 0⟩
      (ofLanes (fun i => if i = n.toNat then lane32 x.toNat else lane (vget w1.v d.toNat 0) i))) w1 () w2 →
    exec (.vins a d n) s = .next (bodyWent s (w2.advance 1 1))) ∧
  VectorCompare .vceqF32 0x5A 2 (fun x y => fpEq 2 x.toNat y.toNat) ∧
  VectorCompare .vcltF32 0x5B 2 (fun x y => fpLess 2 false x.toNat y.toNat) ∧
  VectorCompare .vcleF32 0x5C 2 (fun x y => fpLess 2 true x.toNat y.toNat) ∧
  VectorCompare .viceq 0x69 0 (fun x y => (decide (x = y), 0)) ∧
  VectorCompare .viclt 0x6A 0 (fun x y => (decide (x.toInt < y.toInt), 0)) ∧
  VectorWhole .vsel 0x5D (fun s x y i => if s.stage.work.lm.getLsbD i then lane x i else lane y i) ∧
  VectorReduce .vrsumF32 0x6C 2 (fun s x => fp64 (tree (fpAdd 2 (mode s)) (fun i => (lane x i).toNat) 4 0)) ∧
  VectorReduce .vrmaxF32 0x6D 2 (fun _ x => fp64 (tree (fpMinMax 2 true) (fun i => (lane x i).toNat) 4 0)) ∧
  VectorReduce .vrsumI32 0x6E 0 (fun _ x => (signed (((List.range 16).map (fun i => (lane x i).toNat)).sum) 32, 0)) ∧
  (∀ (s : State) (i : BitVec 8) (m : W16) (w : Work), VectorHint s →
    (∀ j < 16, m.getLsbD j = decide (i.toNat % 16 ≤ j ∧ j ≤ i.toNat / 16)) → Gives (stageLm m) (start s 0x6F) () w →
    exec (.vmset i) s = .next (bodyWent s (w.advance 1 1))) ∧
  (∀ (s : State) (d e : Opd) (t : Tag) (w : Work), VectorHint s →
    ScalarAndVector s d e ⟨t, 0, 0, 0⟩ (word s.stage.work.lm.toNat) (start s 0x70) w →
    exec (.vmget d e t) s = .next (bodyWent s (w.advance 1 1))) ∧
  (∀ (s : State) (a d : Opd) (n : BitVec 4) (x : V512) (sa : Sideband) (w1 w2 : Work), Disarmed s → VectorHint s →
    Gives (readV s a false) (start s 0x71) (x, sa) w1 →
    Gives (resultV s d 31#5 ⟨0, 0, sa, 0⟩ (ofLanes (fun i => if n.toNat ≤ i then lane x (i - n.toNat) else 0))) w1 () w2 →
    exec (.vshiftl a d n) s = .next (bodyWent s (w2.advance 1 1))) ∧
  (∀ (s : State) (a d e : Opd) (t : Tag) (x : V512) (sa : Sideband) (w1 w2 : Work), Disarmed s → VectorHint s →
    Gives (readV s a (keepIn t)) (start s 0x72) (x, sa) w1 →
    (let r := scan (mode s) (fun i => (lane x i).toNat)
     Gives (resultV s d e ⟨t, 2, sa, 0⟩ (ofLanes (fun i => lane32 (r i).1)))
       (raising w1 (unionFlags 16 (fun _ => true) (fun i => (r i).2))) () w2) →
    exec (.vscanF32 a d e t) s = .next (bodyWent s (w2.advance 1 4)))

/-- R102, R103, R105 (03_core_numbers): rounding a positive magnitude to a floating format delivers, when it does not overflow, the
code whose magnitude is the rounding of the exact one in the mode, with the sign given; NX says whether it differs. Overflow is
judged on the rounded result, and raises OF and NX. -/
def Obligations.RoundingDeliversTheNearestOnItsSide : Prop :=
  ∀ (f : Nat) (fm sat : Bool) (m : BitVec 2) (neg : Bool) (k : Nat) (e : Int), 1 ≤ f → f ≤ 7 → 0 < k →
    (let r := fpRound f fm sat m neg k e false
     let v : ℚ := k * 2 ^ e
     if r.2 &&& fOF = 0 then
       ∃ code ≤ fpMaxCode f fm, r.1 = fpSign f neg + code ∧ RoundedIn f fm m neg v code ∧
         (r.2 &&& fNX = 0 ↔ value (fpDecode f fm code) = v)
     else value (fpDecode f fm (fpMaxCode f fm)) < v ∧ r.2 = fOF ||| fNX ∧
       (sat = true → r.1 = fpSign f neg + fpMaxCode f fm))

/-- R103, R104, R126 (03_core_numbers, 04_core_compute): invalid operations and NaN operands deliver the canonical NaN; minimum and
maximum order -0 below +0; an exact zero sum is +0 but for two -0 addends or RDN. -/
def Sys2Proof.Claims.NaNsAndZerosOfArithmetic : Prop :=
  ∀ (f : Nat) (m : BitVec 2) (a b c : Nat), 1 ≤ f → f ≤ 4 →
    (let x := fpDecode f false a
     let y := fpDecode f false b
     let z := fpDecode f false c
     let invalid := if x.signals ∨ y.signals then fNV else 0
     ((x.isNaN = true ∨ y.isNaN = true) →
       fpAdd f m a b = (canonicalNaN f, invalid) ∧ fpSub f m a b = (canonicalNaN f, invalid) ∧
       fpMul f m a b = (canonicalNaN f, invalid) ∧
       fpMinMax f false a b = (canonicalNaN f, invalid) ∧ fpMinMax f true a b = (canonicalNaN f, invalid)) ∧
     (∀ n, x = .inf n → y = .inf (!n) → fpAdd f m a b = (canonicalNaN f, fNV)) ∧
     (∀ n, x = .inf n → y = .inf n → fpSub f m a b = (canonicalNaN f, fNV)) ∧
     (∀ n k g, ((x = .inf n ∧ y = .num k 0 g) ∨ (x = .num k 0 g ∧ y = .inf n)) →
       fpMul f m a b = (canonicalNaN f, fNV) ∧ fpFma f m a b c = (canonicalNaN f, fNV)) ∧
     (∀ n, x = .inf n → y = .inf n → ∀ k, z = .inf k → k = true → fpFma f m a b c = (canonicalNaN f, fNV)) ∧
     (finite x → finite y → value x + value y = 0 →
       ((m = 2 ∨ (∃ g h, x = .num true 0 g ∧ y = .num true 0 h)) → fpAdd f m a b = (2 ^ (fpWidth f - 1), 0)) ∧
       (¬ (m = 2 ∨ (∃ g h, x = .num true 0 g ∧ y = .num true 0 h)) → fpAdd f m a b = (0, 0))) ∧
     (a < 2 ^ fpWidth f → b < 2 ^ fpWidth f → finite x → finite y → value x < value y →
       fpMinMax f false a b = (a, 0) ∧ fpMinMax f true a b = (b, 0) ∧
       fpMinMax f false b a = (a, 0) ∧ fpMinMax f true b a = (b, 0)) ∧
     fpMinMax f false 0 (2 ^ (fpWidth f - 1)) = (2 ^ (fpWidth f - 1), 0) ∧
     fpMinMax f true 0 (2 ^ (fpWidth f - 1)) = (0, 0))

/-- R127 (04_core_compute): the special results of the six table operations on FP32, and the flags that come with them. -/
def Sys2Proof.Claims.TableOperationSpecials : Prop :=
  ∀ (m : BitVec 2) (a : Nat),
    (∀ g h, fpDecode 2 false a = .nan g h →
      ∀ r ∈ [f32Rcp m a, f32Rsq a, f32Sqrt m a, f32Exp2 m a, f32Log2 a, f32Tanh a],
        r = (0x7FC00000, if h then fNV else 0)) ∧
    (∀ k e, fpDecode 2 false a = .num true k e → 0 < k →
      f32Rsq a = (0x7FC00000, fNV) ∧ f32Sqrt m a = (0x7FC00000, fNV) ∧ f32Log2 a = (0x7FC00000, fNV)) ∧
    (finite (fpDecode 2 false a) → value (fpDecode 2 false a) < -150 → f32Exp2 m a = (0, fUF ||| fNX)) ∧
    f32Rcp m 0 = (0x7F800000, fDZ) ∧ f32Rcp m 0x80000000 = (0xFF800000, fDZ) ∧
    f32Rcp m 0x7F800000 = (0, 0) ∧ f32Rcp m 0xFF800000 = (0x80000000, 0) ∧
    f32Rsq 0 = (0x7F800000, fDZ) ∧ f32Rsq 0x80000000 = (0xFF800000, fDZ) ∧ f32Rsq 0x7F800000 = (0, 0) ∧
    f32Rsq 0xFF800000 = (0x7FC00000, fNV) ∧
    f32Sqrt m 0x80000000 = (0x80000000, 0) ∧ f32Sqrt m 0x7F800000 = (0x7F800000, 0) ∧
    f32Sqrt m 0xFF800000 = (0x7FC00000, fNV) ∧
    f32Exp2 m 0xFF800000 = (0, 0) ∧ f32Exp2 m 0x7F800000 = (0x7F800000, 0) ∧
    f32Log2 0 = (0xFF800000, fDZ) ∧ f32Log2 0x80000000 = (0xFF800000, fDZ) ∧ f32Log2 0x7F800000 = (0x7F800000, 0) ∧
    f32Log2 0xFF800000 = (0x7FC00000, fNV) ∧ f32Log2 0x3F800000 = (0, 0) ∧
    f32Tanh 0 = (0, 0) ∧ f32Tanh 0x80000000 = (0x80000000, 0) ∧ f32Tanh 0x7F800000 = (0x3F800000, 0) ∧
    f32Tanh 0xFF800000 = (0xBF800000, 0)

/-- R103, R104 (03_core_numbers), R126, R127 (04_core_compute): the special operands and zeros of floating arithmetic and of the
table operations. Every part is stated above. Where it rests on the model's own choices, they are log entries 23 and 87. -/
def Obligations.FloatSpecialCases : Prop :=
  Claims.NaNsAndZerosOfArithmetic ∧ Claims.TableOperationSpecials

/-- R133 to R138 (04_core_compute): conversions, packing, scaling and classes deliver what the number formats' conversion gives, on
each element that the instruction takes, with the flags; format mode and rounding are those of cycle 0. -/
def Sys2Proof.Claims.ConversionResults : Prop :=
  (∀ (s : State) (a d : Opd) (i : BitVec 9) (x : W64) (sa : Sideband) (w1 w2 : Work), Disarmed s →
    Gives (readS s a false) (start s 0x80) (x, sa) w1 →
    (let r := convert (bits i 8 6) (bits i 5 3) 64 (bodyCtx s).fm (i.getLsbD 0) (i.extractLsb' 1 2) x.toNat
     Gives (resultS s d 31#5 ⟨0, 0, sa, 0⟩ (word r.1)) (raising w1 r.2) () w2) →
    exec (.cvt a d i) s = .next (bodyWent s (w2.advance 1 1))) ∧
  (∀ (s : State) (a d : Opd) (i : BitVec 9) (x : V512) (sa : Sideband) (w1 w2 : Work), Disarmed s → VectorHint s →
    Gives (readV s a false) (start s 0x81) (x, sa) w1 →
    (let r := fun l => convert (bits i 8 6) (bits i 5 3) 32 (bodyCtx s).fm (i.getLsbD 0) (i.extractLsb' 1 2) (lane x l).toNat
     Gives (resultV s d 31#5 ⟨0, 0, sa, 0⟩ (masked w1 d (fun l => lane32 (r l).1)))
       (raising w1 (unionFlags 16 w1.lm.getLsbD (fun l => (r l).2))) () w2) →
    exec (.vcvt a d i) s = .next (bodyWent s (w2.advance 1 1))) ∧
  (∀ (s : State) (a d : Opd) (i : BitVec 9) (x : V512) (sa : Sideband) (w1 w2 : Work), Disarmed s → VectorHint s →
    Gives (readV s a false) (start s 0x82) (x, sa) w1 →
    (let one := fun (v : Nat) =>
       if bits i 8 6 = 0 ∧ bits i 5 3 = 0 then
         (let n := toSigned 32 v
          (if i.getLsbD 0 then ofSigned 8 (max (-128) (min 127 n)) else v % 256, if n < -128 ∨ 127 < n then fNV else 0))
       else if bits i 5 3 = 0 then convert (bits i 8 6) 0 8 (bodyCtx s).fm (i.getLsbD 0) (i.extractLsb' 1 2) v
       else convert (bits i 8 6) (bits i 5 3) 32 (bodyCtx s).fm (i.getLsbD 0) (i.extractLsb' 1 2) v
     let size := if bits i 5 3 = 0 then 8 else fpWidth (bits i 5 3)
     Gives (resultV s d 31#5 ⟨0, 0, sa, 0⟩
         (BitVec.ofNat 512 ((List.range 16).map (fun l => (one (lane x l).toNat).1 * 2 ^ (size * l))).sum))
       (raising w1 (unionFlags 16 (fun _ => true) (fun l => (one (lane x l).toNat).2))) () w2) →
    exec (.vpack a d i) s = .next (bodyWent s (w2.advance 1 1))) ∧
  (∀ (s : State) (a d : Opd) (i : BitVec 9) (x : V512) (sa : Sideband) (w1 w2 : Work), Disarmed s → VectorHint s →
    Gives (readV s a false) (start s 0x83) (x, sa) w1 →
    (let size := if bits i 8 6 = 0 then 8 else fpWidth (bits i 8 6)
     let raw := fun l => x.toNat / 2 ^ (size * l) % 2 ^ size
     let one := fun l =>
       if bits i 8 6 = 0 then
         (let v := ofSigned 32 (toSigned 8 (raw l))
          if bits i 5 3 = 0 then (v, 0)
          else convert 0 (bits i 5 3) 32 (bodyCtx s).fm (i.getLsbD 0) (i.extractLsb' 1 2) v)
       else convert (bits i 8 6) (bits i 5 3) 32 (bodyCtx s).fm (i.getLsbD 0) (i.extractLsb' 1 2) (raw l)
     Gives (resultV s d 31#5 ⟨0, 0, sa, 0⟩ (ofLanes (fun l => lane32 (one l).1)))
       (raising w1 (unionFlags 16 (fun _ => true) (fun l => (one l).2))) () w2) →
    exec (.vunpk a d i) s = .next (bodyWent s (w2.advance 1 1))) ∧
  (∀ (s : State) (a b d e : Opd) (t : Tag) (x : V512) (y : W64) (sa sb : Sideband) (w1 w2 w3 : Work), Disarmed s →
    VectorHint s → Gives (readV s a (keepIn t)) (start s 0x84) (x, sa) w1 → Gives (readS s b (keepIn t)) w1 (y, sb) w2 →
    (let r := fun l => f32Scale (mode s) (lane x l).toNat (max (-512) (min 511 y.toInt))
     Gives (resultV s d e ⟨t, 0, sa, sb⟩ (masked w2 d (fun l => lane32 (r l).1)))
       (raising w2 (unionFlags 16 w2.lm.getLsbD (fun l => (r l).2))) () w3) →
    exec (.vscale a b d e t) s = .next (bodyWent s (w3.advance 1 1))) ∧
  (∀ (s : State) (a b d e : Opd) (t : Tag) (x : V512) (y : W64) (sa sb : Sideband) (w1 w2 w3 : Work), Disarmed s →
    VectorHint s → Gives (readV s a (keepIn t)) (start s 0x85) (x, sa) w1 → Gives (readS s b (keepIn t)) w1 (y, sb) w2 →
    (let r := fun l => f32ScaleX (mode s) (lane x l).toNat (field y 0 20)
     Gives (resultV s d e ⟨t, 0, sa, sb⟩ (masked w2 d (fun l => lane32 (r l).1)))
       (raising w2 (unionFlags 16 w2.lm.getLsbD (fun l => (r l).2))) () w3) →
    exec (.vscalex a b d e t) s = .next (bodyWent s (w3.advance 1 1))) ∧
  (∀ (s : State) (a b d e : Opd) (t : Tag) (x y : W64) (sa sb : Sideband) (w1 w2 w3 : Work), Disarmed s →
    Gives (readS s a (keepIn t)) (start s 0x8E) (x, sa) w1 → Gives (readS s b (keepIn t)) w1 (y, sb) w2 →
    Gives (resultS s d e ⟨t, 0, sa, sb⟩ (word (fpClass (field y 0 3) (bodyCtx s).fm x.toNat))) w2 () w3 →
    exec (.fclass a b d e t) s = .next (bodyWent s (w3.advance 1 1)))

/-- R106 (03_core_numbers): the conversions that the rule works out, result and flags. FM and the saturate bit stand free where the
rule says any or either. -/
def Sys2Proof.Claims.WorkedConversions : Prop :=
  (∀ fm sat, convert 2 3 32 fm sat 0 0x3F808000 = (0x3F80, fNX) ∧ convert 2 3 32 fm sat 3 0x3F808000 = (0x3F81, fNX)) ∧
  convert 2 5 32 false false 0 0x43E60000 = (0x7E, fNX) ∧
  convert 2 5 32 false false 0 0x43EB0000 = (0x7F, fOF ||| fNX) ∧
  convert 2 5 32 false true 0 0x43EB0000 = (0x7E, fOF ||| fNX) ∧
  (∀ sat, convert 2 5 32 true sat 0 0x43EB0000 = (0x7F, fNX)) ∧
  (∀ m, convert 6 5 32 false false m 0x7C = (0x7F, fNV) ∧ convert 6 5 32 false true m 0xFC = (0xFE, fOF)) ∧
  (∀ sat, convert 6 5 32 true sat 0 0x7C = (0x7F, fOF ||| fNX)) ∧
  (∀ fm sat, convert 2 0 32 fm sat 0 0xC06CCCCD = (0xFFFFFFFC, fNX) ∧
    convert 2 0 32 fm sat 1 0xC06CCCCD = (0xFFFFFFFD, fNX) ∧ convert 2 0 32 fm sat 2 0xC06CCCCD = (0xFFFFFFFC, fNX)) ∧
  (∀ fm sat, convert 2 7 32 fm sat 0 0x4019999A = (0x4, fNX)) ∧
  (∀ fm sat m, convert 2 7 32 fm sat m 0x7FC00000 = (0x0, fNV))

/-- R106 (03_core_numbers), R133 to R138 (04_core_compute): the conversion instructions, and the conversions that R106 works out.
Every part is stated above. -/
def Obligations.ConversionsAndExamples : Prop :=
  Claims.ConversionResults ∧ Claims.WorkedConversions

/-- R141 (04_core_compute): BSINIT sets bb and bw from its operands and answers the old bw; BSSTAT answers bw. -/
def Sys2Proof.Claims.BitStreamStateIsSetAndRead : Prop :=
  (∀ (s : State) (a b d e : Opd) (t : Tag) (x y : W64) (sa sb : Sideband) (w1 w2 w3 w4 w5 : Work) (md nb : Nat),
    Disarmed s →
    Gives (readS s a (keepIn t)) (start s 0x86) (x, sa) w1 → Gives (readS s b (keepIn t)) w1 (y, sb) w2 →
    md = (if field x 12 2 = 3 then 0 else field x 12 2) → nb = min (field x 0 7) (if md = 2 then 31 else 64) →
    Gives (stageBw (BitVec.ofNat 32 (field x 16 11 * 2 ^ 16 + field x 14 2 * 2 ^ 14 + md * 2 ^ 12 + nb))) w2 () w3 →
    BitsStaged w3 (word (y.toNat / 2 ^ (64 - nb) * 2 ^ (64 - nb))) nb w4 →
    Gives (resultS s d e ⟨t, 0, sa, sb⟩ (word w2.bw.toNat)) w4 () w5 →
    exec (.bsinit a b d e t) s = .next (bodyWent s (w5.advance 1 1))) ∧
  (∀ (s : State) (d e : Opd) (t : Tag) (w1 : Work), Disarmed s →
    Gives (resultS s d e ⟨t, 0, 0, 0⟩ (word s.stage.work.bw.toNat)) (start s 0x8D) () w1 →
    exec (.bsstat d e t) s = .next (bodyWent s (w1.advance 1 1)))

/-- R139, R140, R142 (04_core_compute): extraction of n bits with the refill before it and, for BSGET and BSSKIP, the consume
after it. -/
def Sys2Proof.Claims.BitExtractionResults : Prop :=
  ∀ (s : State) (a d : Opd) (i : BitVec 7) (sb : Sideband) (w1 w2 w3 : Work), Disarmed s → 1 ≤ i.toNat → i.toNat ≤ 64 →
    StreamOperand s a →
    ((a = 31#5 ∨ streamMode s.stage.work.bw = 1) → Refilled s a i.toNat (start s 0x87) sb w1 →
      Gives (resultS s d 31#5 ⟨0, 0, sb, 0⟩ (word (w1.bb.toNat / 2 ^ (64 - i.toNat)))) w1 () w2 →
      exec (.bspeek a d i) s = .next (bodyWent s (w2.advance 1 1))) ∧
    (streamMode s.stage.work.bw = 1 → Refilled s a i.toNat (start s 0x88) sb w1 → Consumed i.toNat w1 w2 →
      Gives (resultS s d 31#5 ⟨0, 0, sb, 0⟩ (word (w1.bb.toNat / 2 ^ (64 - i.toNat)))) w2 () w3 →
      exec (.bsget a d i) s = .next (bodyWent s (w3.advance 1 1))) ∧
    (streamMode s.stage.work.bw = 1 → Refilled s a i.toNat (start s 0x89) sb w1 → Consumed i.toNat w1 w2 →
      exec (.bsskip a i) s = .next (bodyWent s (w2.advance 1 1)))

/-- R143, R144 (04_core_compute): BSHUF takes the shortest length whose code matches, among the lengths that NB covers, with both
reads as local reads under their checks; with no match it answers all ones and consumes nothing. Three cycles. -/
def Sys2Proof.Claims.HuffmanDecodeResults : Prop :=
  ∀ (s : State) (a d e : Opd) (t : Tag) (sb : Sideband) (hdr : Nat) (w1 w2 w3 : Work), Disarmed s →
    StreamOperand s a → streamMode s.stage.work.bw = 1 → Refilled s a 12 (start s 0x8A) sb w1 →
    Gives (checkAccess s (word (256 * (w1.bw.toNat / 65536 % 2048))) 96 1) w1 () w1 →
    Gives (localRead s (256 * (w1.bw.toNat / 65536 % 2048)) 96) w1 hdr w2 →
    (∀ (l sym : Nat) (w4 w5 : Work), 1 ≤ l → l ≤ 12 → CodeMatches hdr w1.bb (bitsHeld w1.bw) l →
      (∀ k, 1 ≤ k → k < l → ¬ CodeMatches hdr w1.bb (bitsHeld w1.bw) k) →
      (let at_ := 256 * (w1.bw.toNat / 65536 % 2048) + 96 +
         2 * ((codeEntry hdr l).2.2 + (w1.bb.toNat / 2 ^ (64 - l) - (codeEntry hdr l).1))
       Gives (checkAccess s (word at_) 2 1) w2 () w2 ∧ Gives (localRead s at_ 2) w2 sym w3) →
      Consumed l w3 w4 → Gives (resultS s d e ⟨t, 0, sb, 0⟩ (word (sym + l * 2 ^ 16))) w4 () w5 →
      exec (.bshuf a d e t) s = .next (bodyWent s (w5.advance 1 3))) ∧
    ((∀ k, 1 ≤ k → k ≤ 12 → ¬ CodeMatches hdr w1.bb (bitsHeld w1.bw) k) →
      Gives (resultS s d e ⟨t, 0, sb, 0⟩ (word (2 ^ 64 - 1))) w2 () w3 →
      exec (.bshuf a d e t) s = .next (bodyWent s (w3.advance 1 3)))

/-- R139, R145 (04_core_compute): BSPUT appends bits and drains whole elements, for every NB that R145 gives it (below 32);
BSFLUSH writes the last bits of a writing stream as one element, and discards the bits up to a byte boundary when reading. -/
def Sys2Proof.Claims.BitPackingResults : Prop :=
  (∀ (s : State) (a b d : Opd) (t : Tag) (x y : W64) (sa sb : Sideband) (n nb : Nat) (w1 w2 w3 w4 : Work), Disarmed s →
    StreamOperand s d → streamMode s.stage.work.bw = 2 →
    Gives (readS s a (keepIn t)) (start s 0x8B) (x, sa) w1 → Gives (readS s b (keepIn t)) w1 (y, sb) w2 →
    n = min (field y 0 7) 64 → nb = bitsHeld w2.bw → nb < 32 →
    (let v := w2.bb.toNat * 2 ^ 32 + x.toNat % 2 ^ n * 2 ^ (96 - nb - n)
     let k := (nb + n) / 32
     (d ≠ 31#5 → Drained s (streamUsed s.stage.work.bw) k v w2 w3) ∧ (d = 31#5 → w3 = w2) ∧
     BitsStaged w3 (word (v * 2 ^ (32 * k) % 2 ^ 96 / 2 ^ 32)) (nb + n - 32 * k) w4) →
    exec (.bsput a b d t) s = .next (bodyWent s (w4.advance 1 1))) ∧
  (∀ (s : State) (d : Opd) (t : Tag) (w1 w2 : Work), Disarmed s → StreamOperand s d → d ≠ 31#5 →
    streamMode s.stage.work.bw = 2 →
    (bitsHeld s.stage.work.bw = 0 → BitsStaged (start s 0x8C) 0 0 w2 →
      exec (.bsflush d t) s = .next (bodyWent s (w2.advance 1 1))) ∧
    (bitsHeld s.stage.work.bw ≠ 0 →
      Gives (writeElement s (streamUsed s.stage.work.bw)
        (BitVec.ofNat 512 (firstByteHigh (s.stage.work.bb.toNat / 2 ^ 32)))) (start s 0x8C) () w1 → BitsStaged w1 0 0 w2 →
      exec (.bsflush d t) s = .next (bodyWent s (w2.advance 1 1)))) ∧
  (∀ (s : State) (t : Tag) (w1 : Work), Disarmed s → streamMode s.stage.work.bw = 1 →
    Consumed (bitsHeld s.stage.work.bw % 8) (start s 0x8C) w1 →
    exec (.bsflush 31#5 t) s = .next (bodyWent s (w1.advance 1 1)))

/-- R139, R143 to R145 (04_core_compute): decoding a symbol, and packing and flushing bits. Every part is stated above. Where it
rests on the model's own choice, that is log entry 33. -/
def Obligations.BitStreamCoding : Prop :=
  Claims.HuffmanDecodeResults ∧ Claims.BitPackingResults

/-- R139 (04_core_compute): a wrong mode, or a stream operand that does not meet the conditions, aborts the body with
ILLEGAL_OPERAND. -/
def Sys2Proof.Claims.WrongBitStreamOperandsAbort : Prop :=
  ∀ (s : State) (a b d e : Opd) (t : Tag) (i : BitVec 7),
    let stop := fun opc => Host.Outcome.next (bodyAborted s ((start s opc).advance 0 1) (plainAbort 0x04 0))
    let stop3 := Host.Outcome.next (bodyAborted s ((start s 0x8A).advance 0 3) (plainAbort 0x04 0))
    (¬ StreamOperand s a ∨ (a ≠ 31#5 ∧ streamMode s.stage.work.bw ≠ 1) → exec (.bspeek a d i) s = stop 0x87) ∧
    (¬ StreamOperand s a ∨ streamMode s.stage.work.bw ≠ 1 →
      exec (.bsget a d i) s = stop 0x88 ∧ exec (.bsskip a i) s = stop 0x89 ∧ exec (.bshuf a d e t) s = stop3) ∧
    (¬ StreamOperand s d ∨ streamMode s.stage.work.bw ≠ 2 → exec (.bsput a b d t) s = stop 0x8B) ∧
    ((d = 31#5 ∧ streamMode s.stage.work.bw ≠ 1) ∨ (d ≠ 31#5 ∧ (¬ StreamOperand s d ∨ streamMode s.stage.work.bw ≠ 2)) →
      exec (.bsflush d t) s = stop 0x8C)

/-- R139 to R142 (04_core_compute): the state of the bit-stream unit, extraction, and the operands that abort. Every part is
stated above. -/
def Obligations.BitStreamReading : Prop :=
  Claims.BitStreamStateIsSetAndRead ∧ Claims.BitExtractionResults ∧ Claims.WrongBitStreamOperandsAbort

/-- R80 (02_rule): ABORT aborts with EXPLICIT; ABORTZ and ABORTNZ read srcA and abort or go on. -/
def Sys2Proof.Claims.ExplicitAborts : Prop :=
  (∀ (s : State) (t : Tag), exec (.abort t) s = AbortsAt s (start s 0xA0) 1 (plainAbort 0x01 0)) ∧
  (∀ (s : State) (a : Opd) (t : Tag) (x : W64) (sa : Sideband) (w1 : Work), Disarmed s →
    (Gives (readS s a (keepIn t)) (start s 0xA1) (x, sa) w1 →
      (x = 0 → exec (.abortz a t) s = AbortsAt s w1 1 (plainAbort 0x01 0)) ∧
      (x ≠ 0 → exec (.abortz a t) s = .next (bodyWent s (w1.advance 1 1)))) ∧
    (Gives (readS s a (keepIn t)) (start s 0xA2) (x, sa) w1 →
      (x ≠ 0 → exec (.abortnz a t) s = AbortsAt s w1 1 (plainAbort 0x01 0)) ∧
      (x = 0 → exec (.abortnz a t) s = .next (bodyWent s (w1.advance 1 1)))))

/-- R81 to R85 (02_rule): the enable bits under RULEON, RULEOFF and RULEMASK, seen by later words of the same body and staged for
the commit; RABORTS reads the record of a rule as at cycle 0 and stages its clear; CTXEND and CTXYIELD stage their flags. -/
def Sys2Proof.Claims.RuleControlResults : Prop :=
  (∀ (s : State) (i : BitVec 6),
    exec (.ruleon i) s = .next (bodyWent s
      ((seeingEnable (staging (start s 0xA3) (.enable (one i.toNat) (one i.toNat)))
        (under s.stage.work.en (one i.toNat) (one i.toNat))).advance 1 1)) ∧
    exec (.ruleoff i) s = .next (bodyWent s
      ((seeingEnable (staging (start s 0xA4) (.enable (one i.toNat) 0)) (under s.stage.work.en (one i.toNat) 0)).advance 1 1))) ∧
  (∀ (s : State) (a b d e : Opd) (t : Tag) (v m : W64) (sa sb : Sideband) (w1 w2 w3 : Work),
    Gives (readS s a (keepIn t)) (start s 0xA5) (v, sa) w1 → Gives (readS s b (keepIn t)) w1 (m, sb) w2 →
    Gives (resultS s d e ⟨t, 0, sa, sb⟩ s.stage.work.en)
      (seeingEnable (staging w2 (.enable m v)) (under w2.en m v)) () w3 →
    exec (.rulemask a b d e t) s = .next (bodyWent s (w3.advance 1 1))) ∧
  (∀ (s : State) (a b d e : Opd) (t : Tag) (x y : W64) (sa sb : Sideband) (w1 w2 w3 : Work),
    Gives (readS s a (keepIn t)) (start s 0xA6) (x, sa) w1 → Gives (readS s b (keepIn t)) w1 (y, sb) w2 →
    Gives (resultS s d e ⟨t, 0, sa, sb⟩ (word (vget (bodyCtx s).rabort (field x 0 6) 0).toNat)) w2 () w3 →
    (b ≠ 31#5 ∧ y ≠ 0 →
      exec (.raborts a b d e t) s = .next (bodyWent s ((staging w3 (.clearAbort (field x 0 6))).advance 1 1))) ∧
    (b = 31#5 ∨ y = 0 → exec (.raborts a b d e t) s = .next (bodyWent s (w3.advance 1 1)))) ∧
  (∀ (s : State) (t : Tag),
    exec (.ctxend t) s = .next (bodyWent s ((staging (start s 0xA7) .end_).advance 1 1)) ∧
    exec (.ctxyield t) s = .next (bodyWent s ((staging (start s 0xA8) .yield_).advance 1 1)))

/-- R167, R168, R174 (05_core_memory): the tag instructions change or read tb as this body sees it; TMASK replaces bits of tm0 to
tm7 or tb under a mask and answers the old value, and any other target aborts; FENCE enters the outbound order at commit. -/
def Sys2Proof.Claims.TagAndFenceResults : Prop :=
  (∀ (s : State) (i : BitVec 6),
    exec (.tset i) s = .next (bodyWent s ((seeingTags (staging (start s 0xA9) (.tagSet i.toNat))
      (under s.stage.work.tb (one i.toNat) (one i.toNat))).advance 1 1)) ∧
    exec (.tclr i) s = .next (bodyWent s ((seeingTags (staging (start s 0xAA) (.tagClear i.toNat))
      (under s.stage.work.tb (one i.toNat) 0)).advance 1 1))) ∧
  (∀ (s : State) (a d e : Opd) (t : Tag) (x : W64) (sa : Sideband) (w1 w2 : Work),
    (Gives (readS s a (keepIn t)) (start s 0xAB) (x, sa) w1 → ∀ i ≤ 64,
      (∀ k < i, (w1.tb.getLsbD k && x.getLsbD k) = false) → (i < 64 → w1.tb.getLsbD i = true ∧ x.getLsbD i = true) →
      Gives (resultS s d e ⟨t, 0, sa, 0⟩ (word i)) w1 () w2 →
      exec (.tffr a d e t) s = .next (bodyWent s (w2.advance 1 1))) ∧
    (Gives (readS s a (keepIn t)) (start s 0xAC) (x, sa) w1 →
      Gives (resultS s d e ⟨t, 0, sa, 0⟩ (flag (w1.tb &&& x ≠ 0))) w1 () w2 →
      exec (.tany a d e t) s = .next (bodyWent s (w2.advance 1 1))) ∧
    (Gives (readS s a (keepIn t)) (start s 0xAD) (x, sa) w1 →
      Gives (resultS s d e ⟨t, 0, sa, 0⟩ (flag (w1.tb &&& x = x))) w1 () w2 →
      exec (.tall a d e t) s = .next (bodyWent s (w2.advance 1 1)))) ∧
  (∀ (s : State) (a b d e : Opd) (t : Tag) (v y m : W64) (sa sb : Sideband) (w1 w2 w3 : Work),
    Gives (readS s a (keepIn t)) (start s 0xAE) (v, sa) w1 → Gives (readS s b (keepIn t)) w1 (y, sb) w2 →
    (b = 31#5 → m = word (2 ^ 64 - 1)) → (b ≠ 31#5 → m = y) →
    (e = 29#5 →
      Gives (resultS s d 31#5 ⟨t, 0, sa, sb⟩ w2.tb) (seeingTags (staging w2 (.tagMask m v)) (under w2.tb m v)) () w3 →
      exec (.tmask a b d e t) s = .next (bodyWent s (w3.advance 1 1))) ∧
    (e.toNat < 8 →
      Gives (resultS s d 31#5 ⟨t, 0, sa, sb⟩ (vget w2.tm e.toNat 0))
        (seeingMask w2 e.toNat (under (vget w2.tm e.toNat 0) m v)) () w3 →
      exec (.tmask a b d e t) s = .next (bodyWent s (w3.advance 1 1))) ∧
    (8 ≤ e.toNat → e ≠ 29#5 → exec (.tmask a b d e t) s = AbortsAt s w2 1 (plainAbort 0x04 0))) ∧
  (∀ (s : State) (i : BitVec 5), exec (.fence i) s =
    .next (bodyWent s ((staging (start s 0xAF) (.fence (BitVec.ofNat 2 (i.toNat / 8)) (i.toNat % 8))).advance 1 1)))

/-- R80 to R85 (02_rule), R167, R168, R174 (05_core_memory): explicit aborts, rule control, tags and fences. Every part is stated
above. Where it rests on the model's own choice, that is log entry 28. -/
def Obligations.RuleAndTagControl : Prop :=
  Claims.ExplicitAborts ∧ Claims.RuleControlResults ∧ Claims.TagAndFenceResults

/-- R222, R228 (07_core_failures), with R87, R91, R93 and R171's registers: CSRR reads each CSR of the table as at cycle 0, with the
layout of st given bit by bit; any other number aborts CSRR and CSRW with ILLEGAL_OPERAND. -/
def Sys2Proof.Claims.ControlRegisterReads : Prop :=
  ∀ (s : State) (a d : Opd) (n : BitVec 12) (v : W64) (w1 : Work),
    let x := bodyCtx s
    let c := bodyCore s
    let b := fun (p : Bool) => if p then 1 else 0
    (n = 0x000 → v = word (b x.yielded * 2 ^ 20 + b x.ended * 2 ^ 19 + b x.priv * 2 ^ 18 + x.lc % 4 * 2 ^ 16 +
        x.flags.toNat * 2 ^ 4 + x.rnd.toNat * 2 + b x.fm)) →
    (n = 0x001 → v = word x.amap.toNat) →
    (∀ k < 4, n = BitVec.ofNat 12 (4 + k) → v = (let q := vget x.q k Stream.reset
      word (b q.bound * 2 ^ 31 + b q.dir * 2 ^ 30 + b q.done * 2 ^ 29 + q.fmt.toNat * 2 ^ 26 + q.esz.toNat * 2 ^ 24 +
        streamFill q))) →
    (∀ k < 8, n = BitVec.ofNat 12 (0x10 + k) → v = vget c.pubw k 0) →
    (n = 0x020 → v = word c.bucket.toNat) →
    (n = 0x021 → v = word (c.act.toNat * 2 ^ 30 + min c.qr 4096 * 2 ^ 16 +
      ((List.range 4).map (fun k => let y := vget c.ctx k Ctx.reset
        (b y.resident * 8 + b y.ready * 4 + b y.trap.isSome * 2 + b y.ended) * 16 ^ k)).sum)) →
    (n = 0x022 → v = word c.inj.toNat) →
    (∀ k < 4, n = BitVec.ofNat 12 (0x30 + k) → v = vget c.save k 0) →
    (n = 0x034 → v = c.ckpt) →
    ((n = 0 ∨ n = 1 ∨ (4 ≤ n.toNat ∧ n.toNat < 8) ∨ (0x10 ≤ n.toNat ∧ n.toNat < 0x18) ∨ (0x20 ≤ n.toNat ∧ n.toNat < 0x23) ∨
        (0x30 ≤ n.toNat ∧ n.toNat < 0x35)) →
      Gives (resultS s d 31#5 ⟨0, 0, 0, 0⟩ v) (start s 0xB2) () w1 →
      exec (.csrr d n) s = .next (bodyWent s (w1.advance 1 1))) ∧
    (¬ (n = 0 ∨ n = 1 ∨ (4 ≤ n.toNat ∧ n.toNat < 8) ∨ (0x10 ≤ n.toNat ∧ n.toNat < 0x18) ∨
        (0x20 ≤ n.toNat ∧ n.toNat < 0x23) ∨ (0x30 ≤ n.toNat ∧ n.toNat < 0x35)) →
      exec (.csrr d n) s = AbortsAt s (start s 0xB2) 1 (plainAbort 0x04 0) ∧
      exec (.csrw a d n) s = AbortsAt s (start s 0xB3) 1 (plainAbort 0x04 0))

/-- R222, R228, R88 (07_core_failures, 03_core_numbers): CSRW answers the old value and stages the write; a write of st replaces
FM, RND and the flags that the body has raised before it; BUCKET, SAVE and CKPT abort with PRIV in a context without privilege. -/
def Sys2Proof.Claims.ControlRegisterWrites : Prop :=
  ∀ (s : State) (a d : Opd) (n : BitVec 12) (old v : W64) (sa : Sideband) (w1 w2 : Work),
    csrValue s n.toNat = some old →
    (n = 0 → Gives (readS s a false) (start s 0xB3) (v, sa) w1 →
      Gives (resultS s d 31#5 ⟨0, 0, sa, 0⟩ old)
        { staging w1 (.status (v.getLsbD 0) (BitVec.ofNat 2 (field v 1 2)) (BitVec.ofNat 5 (field v 4 5))) with
          flags := BitVec.ofNat 5 (field v 4 5) } () w2 →
      exec (.csrw a d n) s = .next (bodyWent s (w2.advance 1 1))) ∧
    (n ≠ 0 → (n = 0x20 ∨ (0x30 ≤ n.toNat ∧ n.toNat ≤ 0x34) → Privileged s) →
      Gives (readS s a false) (start s 0xB3) (v, sa) w1 →
      Gives (resultS s d 31#5 ⟨0, 0, sa, 0⟩ old) (staging w1 (.csr n.toNat v)) () w2 →
      exec (.csrw a d n) s = .next (bodyWent s (w2.advance 1 1))) ∧
    (n = 0x20 ∨ (0x30 ≤ n.toNat ∧ n.toNat ≤ 0x34) → Unprivileged s →
      exec (.csrw a d n) s = AbortsAt s (start s 0xB3) 1 (plainAbort 0x0A 0))

/-- R222, R228 (07_core_failures): CSRR and CSRW on every register of the table. Every part is stated above. Where it rests on the
model's own choices, they are log entries 13 and 15. -/
def Obligations.ControlRegisterAccess : Prop :=
  Claims.ControlRegisterReads ∧ Claims.ControlRegisterWrites

/-- R226, R227, R225 (07_core_failures): TRAP stages a software trap with the number and the word; TRET stages the answer to the
record whose word 1 srcA holds, needs privilege and an action of 0 to 3. -/
def Sys2Proof.Claims.TrapAndReturnResults : Prop :=
  (∀ (s : State) (i : BitVec 8),
    exec (.trap i) s = .next (bodyWent s ((staging (start s 0xB0) (.softTrap i.toNat s.stage.work.pc)).advance 1 1))) ∧
  (∀ (s : State) (a b : Opd) (t : Tag) (x y : W64) (sa sb : Sideband) (w1 w2 : Work),
    (Unprivileged s → exec (.tret a b t) s = AbortsAt s (start s 0xB1) 1 (plainAbort 0x0A 0)) ∧
    (Privileged s → Gives (readS s a (keepIn t)) (start s 0xB1) (x, sa) w1 → Gives (readS s b (keepIn t)) w1 (y, sb) w2 →
      (y.toNat < 4 → exec (.tret a b t) s = .next (bodyWent s ((staging w2 (.tret x y.toNat)).advance 1 1))) ∧
      (4 ≤ y.toNat → exec (.tret a b t) s = AbortsAt s w2 1 (plainAbort 0x04 0))))

/-- R223, R225, R230, R224, R89 (07_core_failures, 03_core_numbers): MCRD, CNTRD, CNTCLR, TIMERD, ROUNDRD and FMTMODE, all reading
what stood at cycle 0. -/
def Sys2Proof.Claims.SystemReadResults : Prop :=
  (∀ (s : State) (a d e : Opd) (t : Tag) (x : W64) (sa : Sideband) (w1 w2 : Work), Privileged s →
    Gives (readS s a (keepIn t)) (start s 0xB4) (x, sa) w1 →
    (x.toNat < 16 →
      (∀ v, (∀ r, (bodyCore s).ring[field x 2 2]? = some r →
          (field x 0 2 = 0 → v = r.w0) ∧ (field x 0 2 = 1 → v = r.w1) ∧ (field x 0 2 = 2 → v = r.w2) ∧
          (field x 0 2 = 3 → v = r.w3)) →
        ((bodyCore s).ring[field x 2 2]? = none → v = 0) →
        Gives (resultS s d e ⟨t, 0, sa, 0⟩ v) w1 () w2 →
        exec (.mcrd a d e t) s = .next (bodyWent s (w2.advance 1 1)))) ∧
    (16 ≤ x.toNat → exec (.mcrd a d e t) s = AbortsAt s w1 1 (plainAbort 0x04 0))) ∧
  ControlRead .cntrd 0xB5 (fun s x =>
    let n := field x 0 6
    if n ≤ 12 then word (vget (bodyCtx s).cnt n 0).toNat
    else if n = 42 then word (more (vget (bodyCore s).cnt 10 0)
      ((bodyCore s).hold.map (fun h => clusterCycles s (clusterKey s.stage.core) - h.2.from_)).sum)
    else if 32 ≤ n ∧ n ≤ 42 then word (vget (bodyCore s).cnt (n - 32) 0).toNat else 0) ∧
  (∀ (s : State) (a : Opd) (t : Tag) (x : W64) (sa : Sideband) (w1 : Work),
    Gives (readS s a (keepIn t)) (start s 0xB6) (x, sa) w1 →
    (32 ≤ field x 0 6 ∧ field x 0 6 ≤ 42 → Unprivileged s →
      exec (.cntclr a t) s = AbortsAt s w1 1 (plainAbort 0x0A 0)) ∧
    ((32 ≤ field x 0 6 ∧ field x 0 6 ≤ 42 → Privileged s) →
      exec (.cntclr a t) s = .next (bodyWent s ((staging w1 (.clearCount (field x 0 6))).advance 1 1)))) ∧
  ControlRead .timerd 0xB8 (fun s x =>
    if x.getLsbD 0 then wordI ((dieTime s (dieKey s.stage.core)).toNat + (dieOf s (dieKey s.stage.core)).off.toInt)
    else dieTime s (dieKey s.stage.core)) ∧
  (∀ (s : State) (d e : Opd) (t : Tag) (w1 : Work),
    Gives (resultS s d e ⟨t, 0, 0, 0⟩ (bodyCtx s).rounds) (start s 0xB9) () w1 →
    exec (.roundrd d e t) s = .next (bodyWent s (w1.advance 1 1))) ∧
  (∀ (s : State) (a d e : Opd) (t : Tag) (x : W64) (sa : Sideband) (w1 w2 : Work),
    Gives (readS s a (keepIn t)) (start s 0xBA) (x, sa) w1 →
    Gives (resultS s d e ⟨t, 0, sa, 0⟩ (if (bodyCtx s).fm then 1 else 0)) (staging w1 (.format (x.getLsbD 0))) () w2 →
    exec (.fmtmode a d e t) s = .next (bodyWent s (w2.advance 1 1)))

/-- R229, R225 (07_core_failures): ERRINJ arms the injector with a descriptor within its limits and answers the count that
remained; outside them it aborts, and without privilege it aborts with PRIV, as MCRD does. -/
def Sys2Proof.Claims.InjectorResults : Prop :=
  ∀ (s : State) (a d e : Opd) (t : Tag) (x : W64) (sa : Sideband) (w1 w2 : Work),
    (Unprivileged s →
      exec (.errinj a d e t) s = AbortsAt s (start s 0xB7) 1 (plainAbort 0x0A 0) ∧
      exec (.mcrd a d e t) s = AbortsAt s (start s 0xB4) 1 (plainAbort 0x0A 0)) ∧
    (Privileged s → Gives (readS s a (keepIn t)) (start s 0xB7) (x, sa) w1 →
      (let fits := field x 40 24 = 0 ∧ field x 27 4 = 0 ∧ field x 20 4 = 0 ∧ field x 11 5 = 0 ∧ field x 24 3 ≠ 2 ∧
         field x 24 3 ≠ 7 ∧ (field x 24 3 = 0 → field x 16 4 < 2) ∧ 1 ≤ field x 8 3 ∧ field x 8 3 ≤ 6
       (fits → Gives (resultS s d e ⟨t, 0, sa, 0⟩ (word (s.stage.work.inj.toNat % 256)))
          (staging w1 (.inject (BitVec.ofNat 42 (field x 0 40 + s.stage.cx.val * 2 ^ 40)))) () w2 →
        exec (.errinj a d e t) s = .next (bodyWent s (w2.advance 1 1))) ∧
       (¬ fits → exec (.errinj a d e t) s = AbortsAt s w1 1 (plainAbort 0x04 0))))

/-- R223 to R230 (07_core_failures): traps and returns, counters, timers, records and the error injector. Every part is stated
above. Where it rests on the model's own choices, they are log entries 14 and 29. -/
def Obligations.SystemInstructionResults : Prop :=
  Claims.TrapAndReturnResults ∧ Claims.SystemReadResults ∧ Claims.InjectorResults

/-- R150, R146, R66 (05_core_memory, 02_rule), R329 (12_package_launch): the checks of a local access, in order, with the offset as
INFO, and what they let pass. -/
def Sys2Proof.Claims.LocalAccessChecks : Prop :=
  ∀ (s : State) (ea : W64) (n align : Nat) (w : Work), 0 < n →
    (Verdict s w ea n align none → Gives (checkAccess s ea n align) w () w) ∧
    (∀ c, Verdict s w ea n align (some c) → Stops (checkAccess s ea n align) w (plainAbort c ea) w)

/-- R150, R151 (05_core_memory): LD and VLD answer the bytes that the body sees at the effective offset, zero-extended, in two
cycles; a failed check aborts with its code, an uncorrectable error with LOCAL_ECC_UE. -/
def Sys2Proof.Claims.LocalLoadResults : Prop :=
  ∀ (s : State) (a d e : Opd) (t : Tag) (xw : BitVec 2) (xoff : BitVec 20) (x : W64) (sa : Sideband) (v : Nat) (w1 w2 : Work),
    Disarmed s →
    (let n := 2 ^ xw.toNat
     let ea := offsetBy x xoff
     Gives (readS s a (keepIn t)) (start s 0xC0) (x, sa) w1 →
     (Verdict s w1 ea n n none → Sound s ea.toNat n → ReadsAs s w1 ea.toNat n v →
       Gives (resultS s d e ⟨t, 0, sa, 0⟩ (word v)) (correcting s w1 ea.toNat n) () w2 →
       exec (.ld a d e t xw xoff) s = .next (bodyWent s (w2.advance 2 2))) ∧
     (∀ c, Verdict s w1 ea n n (some c) → exec (.ld a d e t xw xoff) s = AbortsAt s w1 2 (plainAbort c ea)) ∧
     (Verdict s w1 ea n n none → ¬ Sound s ea.toNat n →
       exec (.ld a d e t xw xoff) s = AbortsAt s w1 2 (plainAbort 0x07 0))) ∧
    (let ea := offsetBy x xoff
     Gives (readS s a (keepIn t)) (start s 0xC3) (x, sa) w1 →
     (Verdict s w1 ea 64 64 none → Sound s ea.toNat 64 → ReadsAs s w1 ea.toNat 64 v →
       Gives (resultV s d e ⟨t, 0, sa, 0⟩ (BitVec.ofNat 512 v)) (correcting s w1 ea.toNat 64) () w2 →
       exec (.vld a d e t xoff) s = .next (bodyWent s (w2.advance 2 2))) ∧
     (∀ c, Verdict s w1 ea 64 64 (some c) → exec (.vld a d e t xoff) s = AbortsAt s w1 2 (plainAbort c ea)) ∧
     (Verdict s w1 ea 64 64 none → ¬ Sound s ea.toNat 64 →
       exec (.vld a d e t xoff) s = AbortsAt s w1 2 (plainAbort 0x07 0)))

/-- R148, R150, R151 (05_core_memory): ST, STN and VST stage their bytes as one entry of the commit buffer; a failed check or a
full buffer aborts with nothing staged. -/
def Sys2Proof.Claims.LocalStoreResults : Prop :=
  ∀ (s : State) (a b : Opd) (t : Tag) (xw : BitVec 2) (xoff : BitVec 20) (xb : BitVec 1) (x y : W64) (v : V512)
    (sa sb : Sideband) (w1 w2 : Work), Disarmed s →
    (let n := 2 ^ xw.toNat
     let ea := offsetBy x xoff
     Gives (readS s a (keepIn t)) (start s 0xC1) (x, sa) w1 → Gives (readS s b (keepIn t)) w1 (y, sb) w2 →
     (Verdict s w2 ea n n none → w2.entries < 32 →
       exec (.st a b t xw xoff) s = .next (bodyWent s ((storing w2 (bytesAt s ea.toNat n y)).advance 2 1))) ∧
     (∀ c, Verdict s w2 ea n n (some c) → exec (.st a b t xw xoff) s = AbortsAt s w2 1 (plainAbort c ea)) ∧
     (Verdict s w2 ea n n none → 32 ≤ w2.entries →
       exec (.st a b t xw xoff) s = AbortsAt s w2 1 (plainAbort 0x0B 0))) ∧
    (let ea := offsetBy x xoff
     let at_ := bodyOffset s ea.toNat
     let old := (bodyByte s w2 ea.toNat).toNat
     let new : Byte := BitVec.ofNat 8 (if xb = 1 then field y 0 4 * 16 + old % 16 else old / 16 * 16 + field y 0 4)
     Gives (readS s a (keepIn t)) (start s 0xC2) (x, sa) w1 → Gives (readS s b (keepIn t)) w1 (y, sb) w2 →
     (Verdict s w2 ea 1 1 none → w2.entries < 32 →
       exec (.stn a b t xb xoff) s = .next (bodyWent s (({ w2 with
         entries := w2.entries + 1, bytes := (at_, new) :: w2.bytes,
         effects := w2.effects ++ [.nibble at_ (xb = 1) (BitVec.ofNat 4 (field y 0 4))] } : Work).advance 2 1))) ∧
     (∀ c, Verdict s w2 ea 1 1 (some c) → exec (.stn a b t xb xoff) s = AbortsAt s w2 1 (plainAbort c ea)) ∧
     (Verdict s w2 ea 1 1 none → 32 ≤ w2.entries →
       exec (.stn a b t xb xoff) s = AbortsAt s w2 1 (plainAbort 0x0B 0))) ∧
    (let ea := offsetBy x xoff
     Gives (readS s a (keepIn t)) (start s 0xC4) (x, sa) w1 → Gives (readV s b (keepIn t)) w1 (v, sb) w2 →
     (Verdict s w2 ea 64 64 none → w2.entries < 32 →
       exec (.vst a b t xb xoff) s = .next (bodyWent s ((storing w2 (((List.range 64).filter
         (fun i => xb = 0 || w2.lm.getLsbD (i / 4))).map
           (fun i => (bodyOffset s (ea.toNat + i), byteAt v i)))).advance 2 1))) ∧
     (∀ c, Verdict s w2 ea 64 64 (some c) → exec (.vst a b t xb xoff) s = AbortsAt s w2 1 (plainAbort c ea)) ∧
     (Verdict s w2 ea 64 64 none → 32 ≤ w2.entries →
       exec (.vst a b t xb xoff) s = AbortsAt s w2 1 (plainAbort 0x0B 0)))

/-- R148, R150, R151 (05_core_memory): LD, VLD, ST, STN and VST. Every part is stated above. Where it rests on the model's own
choice, that is log entry 30. -/
def Obligations.LocalLoadsAndStores : Prop :=
  Claims.LocalLoadResults ∧ Claims.LocalStoreResults

/-- R152 (05_core_memory): VLDX and VSTX check every lane that takes part and then read or store them, a higher lane's bytes over
a lower's; the first lane whose check fails sets the abort; widths other than 2 and 4 bytes abort with ILLEGAL_OPERAND. Where it
rests on the model's own choice, that is log entry 30. -/
def Obligations.GatherAndScatterResults : Prop :=
  (∀ (s : State) (a b d e : Opd) (t : Tag) (xw : BitVec 2) (xm : BitVec 1) (xix : BitVec 4) (xoff : BitVec 20),
    xw = 0 ∨ xw = 3 →
    exec (.vldx a b d e t xw xm xoff) s = AbortsAt s (start s 0xC5) 4 (plainAbort 0x04 0) ∧
    exec (.vstx a b t xw xm xix xoff) s = AbortsAt s (start s 0xC6) 4 (plainAbort 0x04 0)) ∧
  (∀ (s : State) (a b d e : Opd) (t : Tag) (xw : BitVec 2) (xm : BitVec 1) (xoff : BitVec 20) (x : W64) (idx : V512)
      (sa sb : Sideband) (r : V512) (w1 w2 w3 : Work), Disarmed s → xw = 1 ∨ xw = 2 →
    Gives (readS s a (keepIn t)) (start s 0xC5) (x, sa) w1 → Gives (readV s b (keepIn t)) w1 (idx, sb) w2 →
    (let n := 2 ^ xw.toNat
     let ea := laneOffset x xoff idx
     ((∀ i, Takes w2 xm i → Verdict s w2 (ea i) n n none ∧ Sound s (ea i).toNat n) →
       (∀ i < 16, ¬ Takes w2 xm i → lane r i = 0) →
       (∀ i, Takes w2 xm i → ReadsAs s w2 (ea i).toNat n (lane r i).toNat) →
       Gives (resultV s d e ⟨t, 0, sa, sb⟩ r) { w2 with corr := w2.corr + (((List.range 16).filter
         (fun i => xm = 0 || w2.lm.getLsbD i)).map (fun i => correctedWords s (ea i).toNat n)).sum } () w3 →
       exec (.vldx a b d e t xw xm xoff) s = .next (bodyWent s (w3.advance 2 4))) ∧
     ((∀ i, Takes w2 xm i → Verdict s w2 (ea i) n n none) → (∃ i, Takes w2 xm i ∧ ¬ Sound s (ea i).toNat n) →
       exec (.vldx a b d e t xw xm xoff) s = AbortsAt s w2 4 (plainAbort 0x07 0)) ∧
     (∀ i c, Takes w2 xm i → (∀ k < i, Takes w2 xm k → Verdict s w2 (ea k) n n none) → Verdict s w2 (ea i) n n (some c) →
       exec (.vldx a b d e t xw xm xoff) s = AbortsAt s w2 4 (plainAbort c (ea i))))) ∧
  (∀ (s : State) (a b : Opd) (t : Tag) (xw : BitVec 2) (xm : BitVec 1) (xix : BitVec 4) (xoff : BitVec 20) (x : W64) (y : V512)
      (sa sb : Sideband) (w1 w2 : Work), Disarmed s → xw = 1 ∨ xw = 2 →
    Gives (readS s a (keepIn t)) (start s 0xC6) (x, sa) w1 → Gives (readV s b (keepIn t)) w1 (y, sb) w2 →
    (let n := 2 ^ xw.toNat
     let ea := laneOffset x xoff (vget w2.v xix.toNat 0)
     ((∀ i, Takes w2 xm i → Verdict s w2 (ea i) n n none) → w2.entries < 32 →
       exec (.vstx a b t xw xm xix xoff) s = .next (bodyWent s ((storing w2
         (((List.range 16).filter (fun i => xm = 0 || w2.lm.getLsbD i)).flatMap
           (fun i => bytesAt s (ea i).toNat n (lane y i)))).advance 2 4))) ∧
     ((∀ i, Takes w2 xm i → Verdict s w2 (ea i) n n none) → 32 ≤ w2.entries →
       exec (.vstx a b t xw xm xix xoff) s = AbortsAt s w2 4 (plainAbort 0x0B 0)) ∧
     (∀ i c, Takes w2 xm i → (∀ k < i, Takes w2 xm k → Verdict s w2 (ea k) n n none) → Verdict s w2 (ea i) n n (some c) →
       exec (.vstx a b t xw xm xix xoff) s = AbortsAt s w2 4 (plainAbort c (ea i)))))

/-- R150, R171 (05_core_memory), R264 (09_memory_model): a load of the same body sees a staged store, byte by byte, and every byte
that no staged store covers as it stood at cycle 0; bytes are compared by their place behind the publish windows. -/
def Sys2Proof.Claims.LoadsSeeStagedStores : Prop :=
  ∀ (s : State) (w : Work) (ps : List (Nat × Byte)) (off : Nat),
    (∀ (i : Nat) (v : Byte), ps[i]? = some (bodyOffset s off, v) →
      (∀ j > i, ∀ q ∈ ps[j]?, q.1 ≠ bodyOffset s off) → bodyByte s (storing w ps) off = v) ∧
    ((∀ q ∈ ps, q.1 ≠ bodyOffset s off) → bodyByte s (storing w ps) off = bodyByte s w off) ∧
    (w.bytes = [] → bodyOffset s off < 0x70000 → bodyByte s w off = localByte (bodyCore s) (bodyOffset s off))

/-- R150, R146, R66, R171 (05_core_memory, 02_rule): the checks of a local access, and what a load sees of staged stores. Every
part is stated above. Where it rests on the model's own choices, they are log entries 31 and 32. -/
def Obligations.LocalAccessRules : Prop :=
  Claims.LocalAccessChecks ∧ Claims.LoadsSeeStagedStores

/-- R153 to R156 (05_core_memory), R354 (13_package_memory): the split-phase loads and stores resolve and check their address at
issue and stage one request through the command port, with the data and FM as read in the body. -/
def Sys2Proof.Claims.SplitPhaseRequests : Prop :=
  ∀ (s : State) (a b : Opd) (t : Tag) (xw : BitVec 2) (rt : BitVec 6) (rpy : BitVec 1) (xoff : BitVec 20) (x y : W64) (v : V512)
    (sa sb : Sideband) (w1 w2 : Work), Disarmed s →
    (let n := 2 ^ xw.toNat
     let ea := offsetBy x xoff
     (Gives (readS s a (keepIn t)) (start s 0xC7) (x, sa) w1 →
       Issues s (.rld a t xw rt xoff) w1 ea n (.read n) rt true) ∧
     (Gives (readS s a (keepIn t)) (start s 0xC8) (x, sa) w1 → Gives (readS s b (keepIn t)) w1 (y, sb) w2 →
       Issues s (.rst a b t xw rt rpy xoff) w2 ea n (.write n (BitVec.ofNat 512 y.toNat)) rt (rpy = 1)) ∧
     (Gives (readS s a (keepIn t)) (start s 0xC9) (x, sa) w1 →
       Issues s (.rvld a t rt xoff) w1 ea 64 (.read 64) rt true) ∧
     (Gives (readS s a (keepIn t)) (start s 0xCA) (x, sa) w1 → Gives (readV s b (keepIn t)) w1 (v, sb) w2 →
       Issues s (.rvst a b t rt rpy xoff) w2 ea 64 (.write 64 v) rt (rpy = 1)))

/-- R160 (05_core_memory): every AMO at the widths that it has captures its operand, and CAS its compare register, and issues one
request; any other width aborts with ILLEGAL_OPERAND. -/
def Sys2Proof.Claims.AtomicRequests : Prop :=
  AmoForm .amoAdd 0 [2, 3] ∧ AmoForm .amoMin 1 [2, 3] ∧ AmoForm .amoMax 2 [2, 3] ∧ AmoForm .amoMinu 3 [2, 3] ∧
  AmoForm .amoMaxu 4 [2, 3] ∧ AmoForm .amoAnd 5 [2, 3] ∧ AmoForm .amoOr 6 [2, 3] ∧ AmoForm .amoXor 7 [2, 3] ∧
  AmoForm .amoSwap 8 [2, 3] ∧ AmoForm .amoFaddF32 10 [2] ∧ AmoForm .amoFaddBf16 11 [1] ∧
  (∀ (s : State) (a b : Opd) (t : Tag) (xw : BitVec 2) (rt : BitVec 6) (rpy : BitVec 1) (k : BitVec 4) (xoff : BitVec 15)
      (x y : W64) (sa sb : Sideband) (w1 w2 : Work), Disarmed s →
    (xw = 2 ∨ xw = 3 → Gives (readS s a (keepIn t)) (start s 0xCB) (x, sa) w1 → Gives (readS s b (keepIn t)) w1 (y, sb) w2 →
      Issues s (.amoCas a b t xw rt rpy k xoff) w2 (offsetBy x xoff) (2 ^ xw.toNat)
        (.amo 9 (2 ^ xw.toNat) y (vget w2.s k.toNat 0)) rt (rpy = 1)) ∧
    (xw = 0 ∨ xw = 1 → exec (.amoCas a b t xw rt rpy k xoff) s = AbortsAt s (start s 0xCB) 1 (plainAbort 0x04 0)))

/-- R153 to R156, R160 (05_core_memory), R354 (13_package_memory): split-phase loads and stores and atomics at issue. Every part
is stated above. -/
def Obligations.RemoteRequests : Prop :=
  Claims.SplitPhaseRequests ∧ Claims.AtomicRequests

/-- R162, R165 (05_core_memory): STREAM checks its parameter block, in the order of R162, and stages the binding; STRCTL stages its
operation, and aborts on an unbound stream but for UNBIND. -/
def Sys2Proof.Claims.StreamCommands : Prop :=
  (∀ (s : State) (a d : Opd) (t : Tag) (dir : BitVec 1) (fmt : BitVec 3) (esz : BitVec 2) (x : W64) (sa : Sideband)
      (base r1 r2 : Nat) (cnt str : Vector Nat 4) (w1 : Work), Disarmed s →
    Gives (readS s a (keepIn t)) (start s 0xCC) (x, sa) w1 →
    (∀ c, Verdict s w1 x 48 8 (some c) → exec (.stream a d t dir fmt esz) s = AbortsAt s w1 2 (plainAbort c x)) ∧
    (Verdict s w1 x 48 8 none → ¬ Sound s x.toNat 48 →
      exec (.stream a d t dir fmt esz) s = AbortsAt s w1 2 (plainAbort 0x07 0)) ∧
    (Verdict s w1 x 48 8 none → Sound s x.toNat 48 → BlockReads s w1 x.toNat base r1 r2 cnt str →
      (let w2 := correcting s w1 x.toNat 48
       let fits := r1 = 0 ∧ r2 = 0 ∧ ∀ k : Fin 4, 1 ≤ cnt[k] ∧ cnt[k] ≤ 65536
       let even := base % bytesOf esz = 0 ∧ ∀ k : Fin 4, str[k] % bytesOf esz = 0
       let spans := SpanInClasses s w1 (least base cnt str) (greatest base cnt str + bytesOf esz)
       (¬ fits → exec (.stream a d t dir fmt esz) s = AbortsAt s w2 2 (plainAbort 0x04 0)) ∧
       (fits → ¬ even → ∃ info, exec (.stream a d t dir fmt esz) s = AbortsAt s w2 2 (plainAbort 0x08 info)) ∧
       (fits → even → ¬ spans → ∃ info, exec (.stream a d t dir fmt esz) s = AbortsAt s w2 2 (plainAbort 0x05 info)) ∧
       (fits → even → spans → exec (.stream a d t dir fmt esz) s = .next (bodyWent s ((staging w2 (.stream (d.toNat - 24)
         { Stream.reset with bound := true, dir := dir = 1, fmt := fmt, esz := esz, block := x.toNat, base := base,
                             cnt := cnt, str := str.map (fun n => BitVec.ofNat 32 n) })).advance 2 2)))))) ∧
  (∀ (s : State) (d : Opd) (t : Tag) (n : BitVec 6),
    let q := d.toNat - 24
    let went := fun e => Host.Outcome.next (bodyWent s ((staging (start s 0xCD) e).advance 2 1))
    exec (.strctlUnbind d t) s = went (.strctl q 0) ∧
    ((vget (bodyCtx s).q q Stream.reset).bound = true →
      exec (.strctlPause d t) s = went (.strctl q 1) ∧ exec (.strctlResume d t) s = went (.strctl q 2) ∧
      exec (.strctlDrain d t n) s = went (.drain q n.toNat 0)) ∧
    ((vget (bodyCtx s).q q Stream.reset).bound = false →
      exec (.strctlPause d t) s = AbortsAt s (start s 0xCD) 1 (plainAbort 0x04 0) ∧
      exec (.strctlResume d t) s = AbortsAt s (start s 0xCD) 1 (plainAbort 0x04 0) ∧
      exec (.strctlDrain d t n) s = AbortsAt s (start s 0xCD) 1 (plainAbort 0x04 0)))

/-- R170 (05_core_memory): CPY and CPY2 check their lengths and both address ranges at issue, CPY2 every row, and stage one command
through the command port. -/
def Sys2Proof.Claims.CopyCommands : Prop :=
  (∀ (s : State) (a b : Opd) (n : BitVec 6) (te : BitVec 1) (k : BitVec 4) (x y src dst : W64) (sa sb : Sideband)
      (w1 w2 : Work), Disarmed s →
    Gives (readS s a false) (start s 0xCE) (x, sa) w1 → Gives (readS s b false) w1 (y, sb) w2 →
    (let len := vget w2.s k.toNat 0
     ((len = 0 ∨ 2 ^ 24 < len.toNat) → exec (.cpy a b n te k) s = AbortsAt s w2 1 (plainAbort 0x09 len)) ∧
     (1 ≤ len.toNat → len.toNat ≤ 2 ^ 24 →
       (∀ c i, Remote s x len.toNat 1 (.inr (c, i)) → exec (.cpy a b n te k) s = AbortsAt s w2 1 (plainAbort c i)) ∧
       (Remote s x len.toNat 1 (.inl src) →
         (∀ c i, Remote s y len.toNat 1 (.inr (c, i)) → exec (.cpy a b n te k) s = AbortsAt s w2 1 (plainAbort c i)) ∧
         (Remote s y len.toNat 1 (.inl dst) → PortRoom s w2 →
           exec (.cpy a b n te k) s = .next (bodyWent s
             ((through w2 (commandOf s w2 (named n te) (.cpy src dst len.toNat))).advance 2 1))))))) ∧
  (∀ (s : State) (a : Opd) (n : BitVec 6) (te : BitVec 1) (x src dst src' dst' : W64) (sa : Sideband) (len rows ss ds : Nat)
      (w1 : Work), Disarmed s →
    Gives (readS s a false) (start s 0xCF) (x, sa) w1 →
    (∀ c, Verdict s w1 x 32 8 (some c) → exec (.cpy2 a n te) s = AbortsAt s w1 1 (plainAbort c x)) ∧
    (Verdict s w1 x 32 8 none → Sound s x.toNat 32 →
      ReadsAs s w1 x.toNat 8 src.toNat → ReadsAs s w1 (x.toNat + 8) 8 dst.toNat → ReadsAs s w1 (x.toNat + 16) 4 len →
      ReadsAs s w1 (x.toNat + 20) 4 rows → ReadsAs s w1 (x.toNat + 24) 4 ss → ReadsAs s w1 (x.toNat + 28) 4 ds →
      (let w2 := correcting s w1 x.toNat 32
       (len < 1 ∨ 65536 < len ∨ rows < 1 ∨ 65536 < rows →
         ∃ i, exec (.cpy2 a n te) s = AbortsAt s w2 1 (plainAbort 0x09 i)) ∧
       (1 ≤ len → len ≤ 65536 → 1 ≤ rows → rows ≤ 65536 →
         (∀ i < rows, (∃ r, Remote s (wordI (src.toInt + stride ss * i)) len 1 (.inl r)) ∧
           ∃ r, Remote s (wordI (dst.toInt + stride ds * i)) len 1 (.inl r)) →
         Remote s src len 1 (.inl src') → Remote s dst len 1 (.inl dst') → PortRoom s w2 →
         exec (.cpy2 a n te) s = .next (bodyWent s ((through w2 (commandOf s w2 (named n te)
           (.cpy2 src' dst' len rows (BitVec.ofNat 32 ss) (BitVec.ofNat 32 ds)))).advance 2 1))))))

/-- R172, R173 (05_core_memory): PUBLISH stages a request to the owner of the window, the issuing core for z; PFETCH stages its
command, which fetches nothing for a length of 0 or an address of another space. -/
def Sys2Proof.Claims.PublishAndPrefetchCommands : Prop :=
  (∀ (s : State) (a : Opd) (n : BitVec 6) (te : BitVec 1) (k : BitVec 3) (x v r : W64) (sa : Sideband) (w1 : Work), Disarmed s →
    Gives (readS s a false) (start s 0xD0) (x, sa) w1 →
    (a = 31#5 → v = word ((bodyCtx s).lx * 2 ^ 52 + (bodyCtx s).ly * 2 ^ 44)) → (a ≠ 31#5 → v = x) →
    (field v 62 2 = 2 → Unprivileged s → exec (.publish a n te k) s = AbortsAt s w1 1 (plainAbort 0x0A v)) ∧
    (field v 62 2 ≠ 0 → (field v 62 2 = 2 → Privileged s) → exec (.publish a n te k) s = AbortsAt s w1 1 (plainAbort 0x09 v)) ∧
    (field v 62 2 = 0 →
      (∀ c i, Remote s (word (v.toNat / 2 ^ 19 * 2 ^ 19)) 1 1 (.inr (c, i)) →
        exec (.publish a n te k) s = AbortsAt s w1 1 (plainAbort c i)) ∧
      (Remote s (word (v.toNat / 2 ^ 19 * 2 ^ 19)) 1 1 (.inl r) → PortRoom s w1 →
        exec (.publish a n te k) s = .next (bodyWent s
          ((through w1 (requestOf s w1 (.publish k.toNat (named n te)) r 0 false)).advance 2 1))))) ∧
  (∀ (s : State) (a b : Opd) (n : BitVec 6) (te : BitVec 1) (x y r : W64) (sa sb : Sideband) (w1 w2 : Work), Disarmed s →
    Gives (readS s a false) (start s 0xD1) (x, sa) w1 → Gives (readS s b false) w1 (y, sb) w2 → PortRoom s w2 →
    (field x 62 2 ≠ 1 ∨ y = 0 →
      exec (.pfetch a b n te) s = .next (bodyWent s ((through w2 (commandOf s w2 (named n te) (.pfetch x 0))).advance 2 1))) ∧
    (field x 62 2 = 1 → y ≠ 0 → Remote s x y.toNat 1 (.inl r) →
      exec (.pfetch a b n te) s =
        .next (bodyWent s ((through w2 (commandOf s w2 (named n te) (.pfetch r y.toNat))).advance 2 1))))

/-- R162, R165, R170, R172, R173 (05_core_memory): stream, copy, publish and prefetch commands at issue. Every part is stated
above. Where it rests on the model's own choices, they are log entries 36, 48 and 91. -/
def Obligations.EngineCommands : Prop :=
  Claims.StreamCommands ∧ Claims.CopyCommands ∧ Claims.PublishAndPrefetchCommands

/-- R177, R182 to R186, R193 to R196 (06_core_basin), R75 (02_rule): every matrix command checks its fields, its accumulator and
its operands at issue and stages one command for its core's queue, with FM at cycle 0. Where it rests on the model's own choice,
that is log entry 11. -/
def Obligations.MatrixCommands : Prop :=
  MatrixForm .mma 0 0xE0 ∧ MatrixForm .mmaz 1 0xE1 ∧ MatrixForm .mmat 2 0xE2 ∧ MatrixForm .mmai8 3 0xE3 ∧
  MatrixForm .mmamx 4 0xEA

/-- R197 to R199, R202 (06_core_basin): ACCRD, ACCWR, ACCZ and ABFTCFG at issue. -/
def Sys2Proof.Claims.AccumulatorCommands : Prop :=
  ∀ (s : State) (a : Opd) (t : Tag) (acc typ : BitVec 2) (rt : BitVec 6) (first rn ep : BitVec 4) (clr en corr : BitVec 1)
      (slot : Nat) (x : W64) (sa : Sideband) (w1 : Work), Disarmed s → BasinHint s → MappedTo s acc slot →
    (QueueRoom s (start s 0xE4) →
      (15 < first.toNat + rn.toNat ∨ (ep ≠ 0 ∧ rt ≠ 0) →
        exec (.accrd t acc rt first rn ep clr) s = AbortsAt s (started (start s 0xE4)) 1 (plainAbort 0x04 0)) ∧
      (first.toNat + rn.toNat ≤ 15 → (ep = 0 ∨ rt = 0) → s.stage.work.entries < 32 →
        exec (.accrd t acc rt first rn ep clr) s = .next (bodyWent s ((queued s (started (start s 0xE4)) 0xE4
          (.accrd slot rt.toNat first.toNat (rn.toNat + 1) ep.toNat (clr = 1))).advance 2 1)))) ∧
    (QueueRoom s (start s 0xE5) →
      (15 < first.toNat + rn.toNat ∨ typ = 3 →
        exec (.accwr a t acc typ first rn) s = AbortsAt s (started (start s 0xE5)) 1 (plainAbort 0x04 0)) ∧
      (first.toNat + rn.toNat ≤ 15 → typ ≠ 3 → Gives (readS s a false) (started (start s 0xE5)) (x, sa) w1 →
        (∀ c, Verdict s w1 x (64 * (rn.toNat + 1)) 64 (some c) →
          exec (.accwr a t acc typ first rn) s = AbortsAt s w1 1 (plainAbort c x)) ∧
        (Verdict s w1 x (64 * (rn.toNat + 1)) 64 none → w1.entries < 32 →
          exec (.accwr a t acc typ first rn) s = .next (bodyWent s ((queued s w1 0xE5
            (.accwr slot (namedType typ) first.toNat (rn.toNat + 1) x.toNat)).advance 2 1))))) ∧
    (QueueRoom s (start s 0xE6) →
      (typ = 3 → exec (.accz t acc typ) s = AbortsAt s (started (start s 0xE6)) 1 (plainAbort 0x04 0)) ∧
      (typ ≠ 3 → s.stage.work.entries < 32 →
        exec (.accz t acc typ) s = .next (bodyWent s ((queued s (started (start s 0xE6)) 0xE6
          (.accz slot (namedType typ))).advance 2 1)))) ∧
    (QueueRoom s (start s 0xE8) → s.stage.work.entries < 32 →
      exec (.abftcfg t en corr) s = .next (bodyWent s ((queued s (started (start s 0xE8)) 0xE8
        (.abftcfg (en = 1) (corr = 1))).advance 2 1)))

/-- R200 (06_core_basin): EPICFG reads its descriptor, checks it and every range that it names, and stages it. -/
def Sys2Proof.Claims.ChainConfiguration : Prop :=
  ∀ (s : State) (a : Opd) (t : Tag) (ch : BitVec 4) (x : W64) (sa : Sideband) (d : BitVec 256) (w1 : Work), Disarmed s →
    BasinHint s → QueueRoom s (start s 0xE7) →
    (ch = 0 → exec (.epicfg a t ch) s = AbortsAt s (started (start s 0xE7)) 2 (plainAbort 0x04 0)) ∧
    (ch ≠ 0 → Gives (readS s a false) (started (start s 0xE7)) (x, sa) w1 → Verdict s w1 x 32 8 none → Sound s x.toNat 32 →
      ReadsAs s w1 x.toNat 32 d.toNat →
      (¬ ChainFits d → exec (.epicfg a t ch) s = AbortsAt s (correcting s w1 x.toNat 32) 2 (plainAbort 0x04 0)) ∧
      (ChainFits d → RangesFit s w1 d → w1.entries < 32 →
        exec (.epicfg a t ch) s = .next (bodyWent s
          ((queued s (correcting s w1 x.toNat 32) 0xE7 (.epicfg ch.toNat d)).advance 2 2))))

/-- R203 (06_core_basin): BQSTAT reads the basin as at cycle 0 by SEL; 8 and above abort; CLR stages the clear of a counter. -/
def Sys2Proof.Claims.BasinStatusResults : Prop :=
  ∀ (s : State) (d e : Opd) (t : Tag) (sel : BitVec 4) (clr : BitVec 1) (v : W64) (w1 : Work),
    let c := bodyCore s
    let x := bodyCtx s
    let nib := fun k : Nat => x.amap.toNat / 16 ^ k % 16
    let b := fun (p : Bool) => if p then 1 else 0
    let row := fun k : Nat => if nib k < 8 then 3 else
      let a := vget c.acc (nib k % 8) AccSlot.reset
      b (c.bq.any (fun q => q.op.slot = some (nib k % 8))) * 8 + b a.poison * 4 +
        (match a.ty with | .fp32 => 0 | .int32 => 1 | .fp64 => 2 | .none => 3)
    (8 ≤ sel.toNat → exec (.bqstat d e t sel clr) s = AbortsAt s (start s 0xE9) 1 (plainAbort 0x04 0)) ∧
    ((sel = 0 → v = word (x.bdone.toNat * 2 ^ 32 + (c.bq.filter (fun q => q.cx = s.stage.cx.val)).length % 16 * 16 +
        (8 - c.bq.length))) →
      (sel = 1 → v = word (row 0 + row 1 * 2 ^ 8 + row 2 * 2 ^ 16 + row 3 * 2 ^ 24)) →
      (2 ≤ sel.toNat → v = word (vget x.bcnt (sel.toNat - 2) 0).toNat) → sel.toNat < 8 →
      Gives (resultS s d e ⟨t, 0, 0, 0⟩ v) (start s 0xE9) () w1 →
      (clr = 1 ∧ 2 ≤ sel.toNat → exec (.bqstat d e t sel clr) s =
        .next (bodyWent s ((staging w1 (.clearBasin (sel.toNat - 2))).advance 2 1))) ∧
      (clr = 0 ∨ sel.toNat < 2 → exec (.bqstat d e t sel clr) s = .next (bodyWent s (w1.advance 2 1))))

/-- R197 to R200, R202, R203 (06_core_basin): accumulator commands, chains and BQSTAT. Every part is stated above. Where it rests
on the model's own choices, they are log entries 35, 93 and 94. -/
def Obligations.BasinConfigurationAndStatus : Prop :=
  Claims.AccumulatorCommands ∧ Claims.ChainConfiguration ∧ Claims.BasinStatusResults

/-- R258, R248 (08_cluster): BAR and BART need a barrier in use, membership and no arrival pending at cycle 0; BART also a timeout
of 1 to 2^32 - 1 and two different tags. -/
def Sys2Proof.Claims.BarrierCommands : Prop :=
  ∀ (s : State) (a : Opd) (k : BitVec 4) (n m : BitVec 6) (te : BitVec 1) (x : W64) (sa : Sideband) (w1 : Work),
    let open_ := (vget (clusterOf s (clusterKey s.stage.core)).bar k.toNat Barrier.reset).v = true ∧
      (bodyCore s).bmem.getLsbD (16 * s.stage.cx.val + k.toNat) = true ∧ (bodyCtx s).barPend.getLsbD k.toNat = false
    let w0 := start s 0xF0
    (¬ open_ → Refuses s (.bar k n te) w0 0x04 ∧ Refuses s (.bart a k n m) w0 0x04) ∧
    (open_ →
      (w0.entries < 32 → GoesOn s (.bar k n te) (entered w0 (.barrier k.toNat (named n te) none 0))) ∧
      (32 ≤ w0.entries → Refuses s (.bar k n te) w0 0x0B) ∧
      (Gives (readS s a false) w0 (x, sa) w1 →
        (x = 0 ∨ 2 ^ 32 ≤ x.toNat ∨ n = m → Refuses s (.bart a k n m) w1 0x04) ∧
        (x ≠ 0 → x.toNat < 2 ^ 32 → n ≠ m → w1.entries < 32 →
          GoesOn s (.bart a k n m) (entered w1 (.barrier k.toNat (some n.toNat) (some m.toNat) x.toNat)))))

/-- R258, R243, R246, R250, R251 (08_cluster): RED needs a tree with a local entry for this core and context, and one of the twelve
operators; PAIRX a channel bound to this context and not armed. -/
def Sys2Proof.Claims.ReductionAndPairCommands : Prop :=
  ∀ (s : State) (a : Opd) (tr : BitVec 5) (op : BitVec 4) (v all : BitVec 1) (rt : BitVec 6) (ch : BitVec 4) (x : W64) (y : V512)
      (sa : Sideband) (w1 : Work),
    let w0 := start s 0xF0
    (let e := (vget (bodyCore s).trn tr.toNat 0).toNat
     let i := Instr.red a tr op v all rt
     let member := e / 2 ^ 15 % 2 = 1 ∧ e / 2 ^ 5 % 8 ≤ 4 ∧ e / 2 ^ 14 % 2 = 1 ∧ e / 2 ^ 12 % 4 = s.stage.cx.val ∧ op.toNat < 12
     (¬ member → Refuses s i w0 0x04) ∧
     (member →
       (v = 0 → Gives (readS s a false) w0 (x, sa) w1 → Commands s i w1 none
         (.red tr.toNat op.toNat false (all = 1) rt (BitVec.ofNat 512 x.toNat) (bodyCtx s).fm)) ∧
       (v = 1 → Gives (readV s a false) w0 (y, sa) w1 → Commands s i w1 none
         (.red tr.toNat op.toNat true (all = 1) rt y (bodyCtx s).fm)))) ∧
    (let p := vget (clusterOf s (clusterKey s.stage.core)).pch ch.toNat PairCh.reset
     let bound := p.v = true ∧ p.lx = (bodyCtx s).lx % 12 ∧ p.ly = (bodyCtx s).ly % 8 ∧ p.cx = (bodyCtx s).lc ∧ p.armed = false
     (¬ bound → Refuses s (.pairx a ch rt) w0 0x04) ∧
     (bound → Gives (readV s a false) w0 (y, sa) w1 → ∃ sb : Sideband,
       (sb.getLsbD 10 = (bodyCtx s).fm ∧ ∀ j < 40, j ≠ 10 → sb.getLsbD j = sa.getLsbD j) ∧
       Commands s (.pairx a ch rt) w1 none (.pairx ch.toNat rt y sb 0)))

/-- R258, R253 (08_cluster): SLUICE and HFWD need privilege, HFWD a place in the handler chain; each takes one entry of the commit
buffer. -/
def Sys2Proof.Claims.SluiceAndForwardCommands : Prop :=
  ∀ (s : State) (a : Opd) (x : W64) (y : V512) (sa : Sideband) (w1 : Work),
    let w0 := start s 0xF0
    (Unprivileged s → Refuses s (.sluice a) w0 0x0A ∧ Refuses s (.hfwd a) w0 0x0A) ∧
    (Privileged s →
      (Gives (readS s a false) w0 (x, sa) w1 → w1.entries < 32 →
        GoesOn s (.sluice a) (entered w1 (.sluice (BitVec.ofNat 8 (field x 0 8))))) ∧
      (chainPosition s s.stage.core s.stage.cx.val = none → Refuses s (.hfwd a) w0 0x04) ∧
      (chainPosition s s.stage.core s.stage.cx.val ≠ none → Gives (readV s a false) w0 (y, sa) w1 → w1.entries < 32 →
        GoesOn s (.hfwd a) (entered w1 (.forward ⟨pair y 0, pair y 1, pair y 2, pair y 3⟩ (sa.getLsbD 10)))))

/-- R258 (08_cluster): barriers, reductions, pair exchanges, SLUICE and HFWD at issue. Every part is stated above. Where it rests
on the model's own choice, that is log entry 11. -/
def Obligations.ClusterCommands : Prop :=
  Claims.BarrierCommands ∧ Claims.ReductionAndPairCommands ∧ Claims.SluiceAndForwardCommands

/-- R294, R295, R287 (10_die): BANDRD and TOFFRD answer the die's band entries and offsets as at cycle 0. -/
def Sys2Proof.Claims.DieReadResults : Prop :=
  ∀ (s : State) (a d e : Opd) (t : Tag) (w1 : Work),
    let die := dieOf s (dieKey s.stage.core)
    let toff := fun (k : Die) => word (k.unc.toNat * 2 ^ 48 + k.off.toNat)
    Answers s (.bandrd a d e t) a d e t 0xF1
      (fun x => field x 14 50 = 0 ∧ field x 3 5 = 0 ∧ field x 8 6 ≤ 35 ∧ (field x 0 2 % 2 = 0 → field x 8 6 ≤ 31))
      (fun x => word (tget die.band 0 (72 * field x 0 2 + 36 * field x 2 1 + field x 8 6)).toNat) ∧
    (a ≠ 31#5 → Answers s (.toffrd a d e t) a d e t 0xF1 (fun x => x.toNat < 64) (fun x => toff (dieOf s x.toNat))) ∧
    (a = 31#5 → Gives (resultS s d e ⟨t, 0, 0, 0⟩ (toff die)) (start s 0xF1) () w1 → GoesOn s (.toffrd a d e t) w1)

/-- R294, R295 (10_die): VFREQ and WEIR answer the state as at cycle 0, and with a source stage a request; VFREQ then needs
privilege. -/
def Sys2Proof.Claims.DieRequestResults : Prop :=
  ∀ (s : State) (a d e : Opd) (t : Tag) (x : W64) (sa : Sideband) (w1 w2 : Work),
    let w0 := start s 0xF1
    let v := vfOfCore s s.stage.core
    let old := word ((if v.pend then 1 else 0) * 2 ^ 13 + v.pt * 2 ^ 9 + v.freq)
    let eff := word (coreWeirEff s s.stage.core)
    (a = 31#5 →
      (Gives (resultS s d e ⟨t, 0, 0, 0⟩ old) w0 () w2 → GoesOn s (.vfreq a d e t) w2) ∧
      (Gives (resultS s d e ⟨t, 0, 0, 0⟩ eff) w0 () w2 → GoesOn s (.weir a d e t) w2)) ∧
    (a ≠ 31#5 → Unprivileged s → Refuses s (.vfreq a d e t) w0 0x0A) ∧
    (a ≠ 31#5 → Gives (readS s a (keepIn t)) w0 (x, sa) w1 →
      (Privileged s →
        (field x 13 51 ≠ 0 ∨ field x 0 9 < 40 ∨ 160 < field x 0 9 → Refuses s (.vfreq a d e t) w1 0x04) ∧
        (field x 13 51 = 0 → 40 ≤ field x 0 9 → field x 0 9 ≤ 160 →
          Gives (resultS s d e ⟨t, 0, sa, 0⟩ old) (staging w1 (.vfreq (field x 9 4) (field x 0 9))) () w2 →
          GoesOn s (.vfreq a d e t) w2)) ∧
      (x.toNat < 16 ∨ 256 < x.toNat → Refuses s (.weir a d e t) w1 0x04) ∧
      (16 ≤ x.toNat → x.toNat ≤ 256 → Gives (resultS s d e ⟨t, 0, sa, 0⟩ eff) (staging w1 (.weir x.toNat)) () w2 →
        GoesOn s (.weir a d e t) w2))

/-- R296, R297 (10_die): RSVLD checks its operands in the order of R296; RSVCFG needs privilege, and PART a size of at most 32. -/
def Sys2Proof.Claims.ReservoirCommands : Prop :=
  (∀ (s : State) (a b : Opd) (t : Tag) (n : BitVec 6) (te : BitVec 1) (k : BitVec 4) (x y : W64) (sa sb : Sideband) (w1 w2 : Work),
    Disarmed s → Gives (readS s a (keepIn t)) (start s 0xF1) (x, sa) w1 → Gives (readS s b (keepIn t)) w1 (y, sb) w2 →
    (let i := Instr.rsvld a b t n te k
     let len := vget w2.s k.toNat 0
     let sized := 64 ≤ len.toNat ∧ len.toNat ≤ 0x60000 ∧ x.toNat < 2 ^ 32 ∧ y.toNat < 2 ^ 32
     let even := x.toNat % 64 = 0 ∧ y.toNat % 64 = 0 ∧ len.toNat % 64 = 0
     let inside := x.toNat + len.toNat ≤ (dieOf s (dieKey s.stage.core)).p * (6 * 2 ^ 20)
     (¬ sized → Refuses s i w2 0x04) ∧
     (sized → ¬ even → ∃ info, exec i s = AbortsAt s w2 1 (plainAbort 0x08 info)) ∧
     (sized → even → ¬ inside → ∃ info, exec i s = AbortsAt s w2 1 (plainAbort 0x09 info)) ∧
     (∀ c, sized → even → inside → Verdict s w2 y len.toNat 64 (some c) → exec i s = AbortsAt s w2 1 (plainAbort c y)) ∧
     (sized → even → inside → Verdict s w2 y len.toNat 64 none →
       Commands s i w2 (named n te) (.rsvld x.toNat y.toNat len.toNat)))) ∧
  (∀ (s : State) (a : Opd) (t : Tag) (n : BitVec 6) (te : BitVec 1) (x : W64) (sa : Sideband) (w1 : Work),
    (Unprivileged s → Refuses s (.rsvcfgPart a t n te) (start s 0xF1) 0x0A ∧ Refuses s (.rsvcfgDrop a t n te) (start s 0xF1) 0x0A) ∧
    (Privileged s → Gives (readS s a (keepIn t)) (start s 0xF1) (x, sa) w1 →
      (32 < x.toNat → Refuses s (.rsvcfgPart a t n te) w1 0x04) ∧
      (x.toNat ≤ 32 → Commands s (.rsvcfgPart a t n te) w1 (named n te) (.rsvPart x.toNat)) ∧
      Commands s (.rsvcfgDrop a t n te) w1 (named n te) .rsvDrop))

/-- R294 to R297 (10_die): the six die instructions. Every part is stated above. Where it rests on the model's own choice, that is
log entry 35. -/
def Obligations.DieCommands : Prop :=
  Claims.DieReadResults ∧ Claims.DieRequestResults ∧ Claims.ReservoirCommands

/-- R314 to R318 (11_package_cascade): CGSEND, CGWAKE, CGRANT and CGREL check the group, the operands and the popped slots at issue
and stage their command or effect. -/
def Sys2Proof.Claims.CascadeCommands : Prop :=
  ∀ (s : State) (a b : Opd) (g : BitVec 8) (n : BitVec 6) (te : BitVec 1) (src : BitVec 2) (huf : BitVec 1) (fmt : BitVec 3)
      (last hold p : BitVec 1) (k : BitVec 2) (x y r : W64) (sa sb : Sideband) (w1 w2 : Work), Disarmed s →
    let w0 := start s 0xF2
    let e := (groupOf s g.toNat).cfg
    let own := e.getLsbD 63 = true ∧ field e 28 12 = (regionOf s (bodyCtx s).region).cfgid.toNat
    (let i := Instr.cgsend a b g n te src huf fmt last
     let len := field y 0 32
     let blen := (field y 32 7 + 1) * 64
     let soff := field y 39 7 * 64
     let sized := field y 46 18 = 0 ∧ len ≠ 0 ∧ len % 64 = 0 ∧ soff < blen
     let sent := fun (q : W64) => Commands s i w2 (named n te)
       (.cgsend g.toNat q len blen soff (src = 1) (huf = 1) (last = 1) fmt (bodyCtx s).fm)
     let m := if huf = 1 then 1 else len
     (2 ≤ src.toNat ∨ ¬ own ∨ (groupOf s g.toNat).br = 0 → Refuses s i w0 0x04) ∧
     (src.toNat < 2 → own → (groupOf s g.toNat).br ≠ 0 → Gives (readS s a false) w0 (x, sa) w1 →
       Gives (readS s b false) w1 (y, sb) w2 →
       (¬ sized → Refuses s i w2 0x04) ∧
       (sized → src = 1 →
         (x.toNat % 64 ≠ 0 → exec i s = AbortsAt s w2 1 (plainAbort 0x08 x)) ∧
         (x.toNat % 64 = 0 → (dieOf s (field e 57 6)).p * (6 * 2 ^ 20) < x.toNat + m →
           exec i s = AbortsAt s w2 1 (plainAbort 0x09 x)) ∧
         (x.toNat % 64 = 0 → x.toNat + m ≤ (dieOf s (field e 57 6)).p * (6 * 2 ^ 20) → sent x)) ∧
       (sized → src = 0 →
         (let there := field x 62 2 = 1 ∨ (field x 62 2 = 2 ∧ field x 58 4 = 1)
          (¬ there → exec i s = AbortsAt s w2 1 (plainAbort 0x09 x)) ∧
          (there → ∀ c info, Remote s x m 1 (.inr (c, info)) → exec i s = AbortsAt s w2 1 (plainAbort c info)) ∧
          (there → Remote s x m 1 (.inl r) → sent r))))) ∧
    (¬ own → Refuses s (.cgwake g n te) w0 0x04) ∧
    (own → Commands s (.cgwake g n te) w0 (named n te) (.cgwake g.toNat)) ∧
    (let named_ := ∃ j < 4, (let f := vget (bodyCore s).cgf j 0
       f.getLsbD 63 = true ∧ field f 55 8 = g.toNat ∧ field f 52 2 = s.stage.cx.val)
     (¬ named_ → Refuses s (.cgrant g hold) w0 0x04) ∧
     (named_ → GoesOn s (.cgrant g hold) (staging w0 (.grant g.toNat (hold = 1))))) ∧
    (let mine := ((List.range 4).filter (fun j =>
       let c := vget (bodyCore s).rx (4 * p.toNat + j) RxSlot.reset
       c.st = .popped && c.rel = false && c.cx = s.stage.cx.val)).length + vget w0.pops (5 + p.toNat) 0
     (mine < k.toNat + 1 → Refuses s (.cgrel p k) w0 0x04) ∧
     (k.toNat + 1 ≤ mine → GoesOn s (.cgrel p k) (staging w0 (.release p.toNat (k.toNat + 1)))))

/-- R314, R319, R320 (11_package_cascade): CGCFG needs privilege and an index and a value within range; CGSTAT answers Cascade state
as at cycle 0. -/
def Sys2Proof.Claims.CascadeConfigurationAndStatus : Prop :=
  ∀ (s : State) (a d e : Opd) (t : Tag) (ix : BitVec 8) (sel : BitVec 3) (x : W64) (sa : Sideband) (w1 : Work),
    let w0 := start s 0xF2
    let c := bodyCore s
    let die := dieOf s (dieKey s.stage.core)
    (Unprivileged s → Refuses s (.cgcfgFilter a ix) w0 0x0A ∧ Refuses s (.cgcfgPort a ix) w0 0x0A ∧
      Refuses s (.cgcfgDepth a ix) w0 0x0A) ∧
    (Privileged s →
      (4 ≤ ix.toNat → Refuses s (.cgcfgFilter a ix) w0 0x04) ∧ (2 ≤ ix.toNat → Refuses s (.cgcfgPort a ix) w0 0x04) ∧
      (Gives (readS s a false) w0 (x, sa) w1 →
        (ix.toNat < 4 → GoesOn s (.cgcfgFilter a ix) (staging w1 (.filter ix.toNat x))) ∧
        (ix.toNat < 2 → GoesOn s (.cgcfgPort a ix) (staging w1 (.rxPort ix.toNat x))) ∧
        (4 < x.toNat → Refuses s (.cgcfgDepth a ix) w1 0x04) ∧
        (x.toNat ≤ 4 → GoesOn s (.cgcfgDepth a ix) (staging w1 (.depth ix.toNat x.toNat))))) ∧
    (let i := Instr.cgstat a d e t sel
     (sel = 0 → Answers s i a d e t 0xF2 (fun x => x.toNat < 2)
       (fun x => word ((portWord c x.toNat).toNat + (vget (bodyCtx s).blocks x.toNat []).length * 2 ^ 32))) ∧
     (sel = 1 → Answers s i a d e t 0xF2 (fun x => x.toNat < 4) (fun x => vget c.cgf x.toNat 0)) ∧
     (sel = 2 → Answers s i a d e t 0xF2 (fun x => x.toNat < 256) (fun x => groupStatus (groupOf s x.toNat))) ∧
     (sel = 3 → Answers s i a d e t 0xF2 (fun x => x.toNat < 256)
       (fun x => branchStatus (tget die.branch Branch.reset x.toNat))) ∧
     (sel = 4 → Answers s i a d e t 0xF2 (fun x => x.toNat < 16) (fun x => word (vget die.casc x.toNat 0).toNat)) ∧
     (5 ≤ sel.toNat → Answers s i a d e t 0xF2 (fun _ => False) (fun x => x)))

/-- R347 to R349, R351, R352 (12_package_launch): EOS, CFGSWAP, GBAR and STATRED at issue. -/
def Sys2Proof.Claims.RegionCommands : Prop :=
  ∀ (s : State) (a : Opd) (ports : BitVec 4) (end_ dis te max_ : BitVec 1) (n rt idx : BitVec 6) (kind : BitVec 2) (x : W64)
      (sa : Sideband) (w1 : Work),
    let w0 := start s 0xF3
    (ports = 0 → end_ = 0 → Refuses s (.eos ports end_) w0 0x04) ∧
    ((ports ≠ 0 ∨ end_ = 1) → EndsPushed s ports [0, 1, 2, 3] w0 w1 →
      (end_ = 0 → GoesOn s (.eos ports end_) w1) ∧ (end_ = 1 → GoesOn s (.eos ports end_) (staging w1 .end_))) ∧
    (let fit := fun k => let q := regionOf s k
       q.st ≠ .free ∧ q.shadow = true ∧ q.swpend = false
     let i := Instr.cfgswap a dis n te
     (a = 31#5 → (te = 1 ∨ ¬ fit (bodyCtx s).region) → Refuses s i w0 0x04) ∧
     (a = 31#5 → te = 0 → fit (bodyCtx s).region → Commands s i w0 none (.cfgswap (bodyCtx s).region (dis = 1))) ∧
     (a ≠ 31#5 → Unprivileged s → Refuses s i w0 0x0A) ∧
     (a ≠ 31#5 → Privileged s → Gives (readS s a false) w0 (x, sa) w1 →
       (512 ≤ x.toNat ∨ ¬ fit x.toNat → Refuses s i w1 0x04) ∧
       (x.toNat < 512 → fit x.toNat → Commands s i w1 (named n te) (.cfgswap x.toNat (dis = 1))))) ∧
    GoesOn s (.gbar n te) (staging w0 (.gbar (named n te))) ∧
    (let i := Instr.statred kind idx max_ rt
     let counts := (kind = 0 ∧ idx.toNat ≤ 12) ∨ (kind = 1 ∧ 32 ≤ idx.toNat ∧ idx.toNat ≤ 42) ∨ (kind = 2 ∧ idx.toNat ≤ 5) ∨
       (kind = 3 ∧ idx.toNat ≤ 6)
     let waiting := statsPending (bodyCtx s) + (w0.effects.filter isStatred).length
     (¬ counts ∨ 4 ≤ waiting → Refuses s i w0 0x04) ∧
     (counts → waiting < 4 → Commands s i w0 none (.statred kind.toNat idx.toNat (max_ = 1) rt)))

/-- R353, R322, R332 (12_package_launch): QSTAT answers the status of a queue, or the status or control word of the context's
region, with the fields where R322 and R332 place them. -/
def Sys2Proof.Claims.QueueStatusResults : Prop :=
  ∀ (s : State) (a d e : Opd) (t : Tag) (sel : BitVec 3) (x v : W64) (sa : Sideband) (w1 w2 : Work),
    let w0 := start s 0xF3
    let r := regionOf s (bodyCtx s).region
    let b := fun (p : Bool) => if p then 1 else 0
    let i := Instr.qstat a d e t sel
    (sel = 0 → Gives (readS s a (keepIn t)) w0 (x, sa) w1 →
      (2048 ≤ x.toNat → Refuses s i w1 0x04) ∧
      (x.toNat < 2048 → x.toNat ≠ r.queue → Unprivileged s → Refuses s i w1 0x0A) ∧
      (x.toNat < 2048 → (x.toNat = r.queue ∨ Privileged s) →
        (let q := queueOf s x.toNat
         v = word ((match q.st with | .disabled => 0 | .active => 1 | .closing => 2 | .faulted => 3 | .closed => 4) * 2 ^ 61 +
           b q.recfull * 2 ^ 60 + q.fcode.toNat * 2 ^ 48 + q.elev * 2 ^ 44 + q.cidx.toNat * 2 ^ 16 + q.ridx.toNat)) →
        Gives (resultS s d e ⟨t, 0, sa, 0⟩ v) w1 () w2 → GoesOn s i w2)) ∧
    (sel = 1 ∨ sel = 2 → a ≠ 31#5 → Refuses s i w0 0x04) ∧
    (sel = 1 → a = 31#5 →
      v = word (r.sstep.toNat * 2 ^ 32 + b r.norb * 2 ^ 31 + r.rbcnt * 2 ^ 28 + b r.shadow * 2 ^ 27 + b r.swpend * 2 ^ 26 +
        b r.dup * 2 ^ 25) → Gives (resultS s d e ⟨t, 0, 0, 0⟩ v) w0 () w2 → GoesOn s i w2) ∧
    (sel = 2 → a = 31#5 → (r.st = .free → v = 0) →
      (r.st ≠ .free → v = word (2 ^ 63 + regionCode r.st * 2 ^ 60 + r.x0 * 2 ^ 51 + r.y0 * 2 ^ 43 + (r.w - 1) * 2 ^ 34 +
        (r.h - 1) * 2 ^ 26 + r.fold * 2 ^ 24 + r.cfgid.toNat * 2 ^ 12 + r.queue)) →
      Gives (resultS s d e ⟨t, 0, 0, 0⟩ v) w0 () w2 → GoesOn s i w2) ∧
    (3 ≤ sel.toNat → Refuses s i w0 0x04)

/-- R314 to R320 (11_package_cascade), R347 to R353 (12_package_launch): Cascade and region instructions. Every part is stated
above. Where it rests on the model's own choices, they are log entries 34 and 49. -/
def Obligations.CascadeAndRegionCommands : Prop :=
  Claims.CascadeCommands ∧ Claims.CascadeConfigurationAndStatus ∧ Claims.RegionCommands ∧ Claims.QueueStatusResults

/-- R367, R370, R371 (13_package_memory): XSTR reads and checks its descriptor and the first access of each array; MIGRATE needs
privilege, a page of space 01 and a target of HBM or the second tier. -/
def Sys2Proof.Claims.IndirectStreamAndMigration : Prop :=
  (∀ (s : State) (a : Opd) (n : BitVec 6) (te : BitVec 1) (x r1 r2 loc : W64) (sa : Sideband) (d d' : V512) (w1 : Work), Disarmed s →
    Gives (readS s a false) (start s 0xF4) (x, sa) w1 →
    (let i := Instr.xstr a n te
     let w2 := correcting s w1 x.toNat 64
     (x.toNat % 8 ≠ 0 → exec i s = AbortsAt s w1 1 (plainAbort 0x08 x)) ∧
     (∀ c, x.toNat % 8 = 0 → Verdict s w1 x 64 8 (some c) → exec i s = AbortsAt s w1 1 (plainAbort c x)) ∧
     (x.toNat % 8 = 0 → Verdict s w1 x 64 8 none → ¬ Sound s x.toNat 64 → Refuses s i w1 0x07) ∧
     (x.toNat % 8 = 0 → Verdict s w1 x 64 8 none → Sound s x.toNat 64 → ReadsAs s w1 x.toNat 64 d.toNat →
       (¬ IndirectFits d → Refuses s i w2 0x04) ∧
       (IndirectFits d → Remote s (word (bytesOfD d 0 8)) (if bytesOfD d 36 1 = 0 then 4 else 8) 1 (.inl r1) →
         Remote s (word (bytesOfD d 8 8)) (bytesOfD d 28 4) 1 (.inl r2) →
         Remote s (word (bytesOfD d 16 8)) (bytesOfD d 28 4) 1 (.inl loc) →
         bytesOfD d' 16 8 = loc.toNat → (∀ k < 64, k < 16 ∨ 24 ≤ k → byteAt d' k = byteAt d k) →
         Commands s i w2 (named n te) (.xstr d'))))) ∧
  (∀ (s : State) (a b : Opd) (n : BitVec 6) (te : BitVec 1) (x y va pa : W64) (sa sb : Sideband) (w1 w2 : Work), Disarmed s →
    (Unprivileged s → Refuses s (.migrate a b n te) (start s 0xF4) 0x0A) ∧
    (Privileged s → Gives (readS s a false) (start s 0xF4) (x, sa) w1 → Gives (readS s b false) w1 (y, sb) w2 →
      (let there := field x 62 2 = 1 ∧ field y 62 2 = 2 ∧ (field y 58 4 = 1 ∨ field y 58 4 = 2)
       (¬ there → ∃ info, exec (.migrate a b n te) s = AbortsAt s w2 1 (plainAbort 0x09 info)) ∧
       (there → Remote s x 1 1 (.inl va) → Remote s y 1 1 (.inl pa) →
         Commands s (.migrate a b n te) w2 (named n te) (.migrate va pa)))))

/-- R370, R371 (13_package_memory): the TLBINV forms need privilege and a queue number of at most 2047. -/
def Sys2Proof.Claims.TranslationInvalidation : Prop :=
  ∀ (s : State) (a b : Opd) (n : BitVec 6) (te : BitVec 1) (x y : W64) (sa sb : Sideband) (w1 w2 : Work),
    let w0 := start s 0xF4
    (Unprivileged s → Refuses s (.tlbinvPage a b n te) w0 0x0A ∧ Refuses s (.tlbinvQueue b n te) w0 0x0A ∧
      Refuses s (.tlbinvAll n te) w0 0x0A) ∧
    (Privileged s →
      Commands s (.tlbinvAll n te) w0 (named n te) (.tlbinv 2 0 0) ∧
      (Gives (readS s b false) w0 (y, sb) w1 →
        (2048 ≤ y.toNat → Refuses s (.tlbinvQueue b n te) w1 0x04) ∧
        (y.toNat < 2048 → Commands s (.tlbinvQueue b n te) w1 (named n te) (.tlbinv 1 0 y.toNat))) ∧
      (Gives (readS s a false) w0 (x, sa) w1 → Gives (readS s b false) w1 (y, sb) w2 →
        (2048 ≤ y.toNat → Refuses s (.tlbinvPage a b n te) w2 0x04) ∧
        (y.toNat < 2048 → Commands s (.tlbinvPage a b n te) w2 (named n te) (.tlbinv 0 x y.toNat))))

/-- R370, R371 (13_package_memory): COMPATTR needs a 128-aligned address of a space that its operation names; SET and RECOMP need
privilege, and SET a value of 0 or 1. -/
def Sys2Proof.Claims.CompressionAttributes : Prop :=
  ∀ (s : State) (a b : Opd) (n : BitVec 6) (te : BitVec 1) (x y r : W64) (sa sb : Sideband) (w1 w2 : Work), Disarmed s →
    let w0 := start s 0xF4
    let query := Instr.compattrQuery a b n te
    let set_ := Instr.compattrSet a b n te
    let recomp := Instr.compattrRecomp a b n te
    let virtual := field x 62 2 = 1
    let home := field x 62 2 = 2 ∧ (field x 58 4 = 1 ∨ field x 58 4 = 2 ∨ field x 58 4 = 5)
    (Unprivileged s → Refuses s set_ w0 0x0A ∧ Refuses s recomp w0 0x0A) ∧
    (Gives (readS s a false) w0 (x, sa) w1 → Gives (readS s b false) w1 (y, sb) w2 →
      (x.toNat % 128 ≠ 0 → exec query s = AbortsAt s w2 1 (plainAbort 0x08 x)) ∧
      (x.toNat % 128 = 0 → ¬ (virtual ∨ home) → exec query s = AbortsAt s w2 1 (plainAbort 0x09 x)) ∧
      (x.toNat % 128 = 0 → (virtual ∨ home) →
        (∀ c info, Remote s x 128 1 (.inr (c, info)) → exec query s = AbortsAt s w2 1 (plainAbort c info)) ∧
        (Remote s x 128 1 (.inl r) → Commands s query w2 none (.compattr 0 r false n (bodyCtx s).fm))) ∧
      (Privileged s →
        (x.toNat % 128 ≠ 0 → exec set_ s = AbortsAt s w2 1 (plainAbort 0x08 x) ∧
          exec recomp s = AbortsAt s w2 1 (plainAbort 0x08 x)) ∧
        (x.toNat % 128 = 0 → ¬ virtual → exec set_ s = AbortsAt s w2 1 (plainAbort 0x09 x) ∧
          exec recomp s = AbortsAt s w2 1 (plainAbort 0x09 x)) ∧
        (x.toNat % 128 = 0 → virtual → Remote s x 128 1 (.inl r) →
          (2 ≤ y.toNat → Refuses s set_ w2 0x04) ∧
          (y.toNat < 2 → Commands s set_ w2 (named n te) (.compattr 1 r (y = 1) 0 (bodyCtx s).fm)) ∧
          Commands s recomp w2 (named n te) (.compattr 2 r false 0 (bodyCtx s).fm))))

/-- R367, R370, R371 (13_package_memory): indirect streams, migration, invalidation and compression attributes at issue. Every
part is stated above. -/
def Obligations.ExternalMemoryCommands : Prop :=
  Claims.IndirectStreamAndMigration ∧ Claims.TranslationInvalidation ∧ Claims.CompressionAttributes

/-- R400, R401, R393, R397 (15_fabric): COLL needs a defined schedule and a 64-aligned base; ROUTESW and FPORT need privilege, no
switch armed or begun, and operands within R393. -/
def Sys2Proof.Claims.FabricCommands : Prop :=
  ∀ (s : State) (a b : Opd) (k n : BitVec 6) (te : BitVec 1) (x y r : W64) (sa sb : Sideband) (w1 w2 : Work), Disarmed s →
    let w0 := start s 0xF5
    (let i := Instr.coll a k n te
     let defined := (tget s.fab.cst Sched.reset k.toNat).w0.getLsbD 63 = true
     (¬ defined → Refuses s i w0 0x04) ∧
     (defined → Gives (readS s a false) w0 (x, sa) w1 →
       (2 ≤ field x 62 2 → exec i s = AbortsAt s w1 1 (plainAbort 0x09 x)) ∧
       (field x 62 2 < 2 → (∀ c info, Remote s x 1 1 (.inr (c, info)) → exec i s = AbortsAt s w1 1 (plainAbort c info)) ∧
         (Remote s x 1 1 (.inl r) →
           (r.toNat % 64 ≠ 0 → exec i s = AbortsAt s w1 1 (plainAbort 0x08 r)) ∧
           (r.toNat % 64 = 0 → Commands s i w1 (named n te) (.coll k.toNat r)))))) ∧
    (let i := Instr.routesw n te
     (Unprivileged s → Refuses s i w0 0x0A) ∧
     (Privileged s → (s.fab.arm ≠ none ∨ s.fab.sw = true) → Refuses s i w0 0x04) ∧
     (Privileged s → s.fab.arm = none → s.fab.sw = false → PortRoom s w0 →
       GoesOn s i (through w0 (.arm
         { id := 0, core := s.stage.core, cx := s.stage.cx.val, tag := named n te, op := .routesw, org := ⟨w0.rule, w0.pc, w0.opc⟩ })))) ∧
    (Unprivileged s → Refuses s (.fportQuiesce a b n te) w0 0x0A ∧ Refuses s (.fportTrain a b n te) w0 0x0A ∧
      Refuses s (.fportCycle a b n te) w0 0x0A) ∧
    (Privileged s → Gives (readS s a false) w0 (x, sa) w1 → Gives (readS s b false) w1 (y, sb) w2 →
      (let fits := x.toNat ≤ 47 ∧ (field y 0 16 ≤ 1023 ∨ field y 0 16 = 0xFFFF) ∧ (field y 16 8 ≤ 47 ∨ field y 16 8 = 0xFF) ∧
         field y 25 7 = 0 ∧ field y 48 16 = 0
       (¬ fits → Refuses s (.fportQuiesce a b n te) w2 0x04 ∧ Refuses s (.fportTrain a b n te) w2 0x04 ∧
         Refuses s (.fportCycle a b n te) w2 0x04) ∧
       (fits → Commands s (.fportQuiesce a b n te) w2 (named n te) (.fport 0 x.toNat y) ∧
         Commands s (.fportTrain a b n te) w2 (named n te) (.fport 1 x.toNat y) ∧
         Commands s (.fportCycle a b n te) w2 (named n te) (.fport 2 x.toNat y))))

/-- R400, R401, R386, R387, R395, R397 (15_fabric): FSTAT answers fabric state as at cycle 0, with the fields of FAB_PSTAT, FAB_RTCTL
and FAB_ID where R386, R387 and R395 place them. -/
def Sys2Proof.Claims.FabricStatusResults : Prop :=
  ∀ (s : State) (a d e : Opd) (t : Tag) (sel : BitVec 3),
    let i := Instr.fstat a d e t sel
    let b := fun (p : Bool) => if p then 1 else 0
    let f := s.fab
    let status := fun (p : Port) => word (portCode p.st * 2 ^ 61 + p.cause * 2 ^ 58 + b p.busy * 2 ^ 57 + p.peerPort * 2 ^ 40 + p.peer * 2 ^ 30 +
      p.replay.length * 2 ^ 20)
    (sel = 0 → Answers s i a d e t 0xF5 (fun x => x.toNat < 64) (fun x => if x.toNat < 48 then status (portOf s x.toNat) else 0)) ∧
    (sel = 1 → Answers s i a d e t 0xF5 (fun x => x = 0) (fun _ =>
      word ((b f.arm.isSome * 512 + b f.sw * 256 + b f.done1 * 128 + b f.done0 * 64 + b f.act) % 2 ^ 32))) ∧
    (sel = 2 → Answers s i a d e t 0xF5 (fun x => x.toNat < 64) (fun x => scheduleWord (tget f.cst Sched.reset x.toNat))) ∧
    (sel = 3 → Answers s i a d e t 0xF5 (fun x => x.toNat < 16) (fun x => word (vget f.cnt x.toNat 0).toNat)) ∧
    (sel = 4 → Answers s i a d e t 0xF5 (fun x => x = 0) (fun _ => word (b f.idV * 2 ^ 63 + f.id))) ∧
    (5 ≤ sel.toNat → Answers s i a d e t 0xF5 (fun _ => False) (fun x => x))

/-- R400, R401 (15_fabric): COLL, ROUTESW, FPORT and FSTAT. Every part is stated above. Where it rests on the model's own choices,
they are log entries 34 and 78. -/
def Obligations.FabricInstructions : Prop :=
  Claims.FabricCommands ∧ Claims.FabricStatusResults

/-- R27 to R30 (01_encoding), R59 (02_rule), R101 (03_core_numbers), R305, R307 (11_package_cascade): what every source operand
reads, in both classes: registers, input ports with the check of fm, optical ports, read streams, literals, tb, st and z; every
other code, and a read past what is there, aborts with ILLEGAL_OPERAND. Where it rests on the model's own choices, they are log
entries 16 and 17. -/
def Obligations.SourceOperandReads : Prop :=
  ∀ (s : State) (c : Opd) (keep : Bool) (w : Work),
    let n := c.toNat
    let stop := Stops (readV s c keep) w (plainAbort 0x04 0) w
    (n < 16 → Gives (readV s c keep) w (vget w.v n 0, 0) w) ∧
    (16 ≤ n → n < 21 → (nextToken s (n - 16) w = none → stop) ∧
      ∀ tok, nextToken s (n - 16) w = some tok →
        (keep = true → Gives (readV s c keep) w (tok.pay, tok.sb) w) ∧
        (keep = false →
          ((tok.sb.getLsbD 10 = (bodyCtx s).fm ∨ ChainRecord s (n - 16) tok) →
            Gives (readV s c keep) w (tok.pay, tok.sb)
              { w with pops := vset w.pops (n - 16) (vget w.pops (n - 16) 0 + 1) }) ∧
          (tok.sb.getLsbD 10 ≠ (bodyCtx s).fm → ¬ ChainRecord s (n - 16) tok →
            Stops (readV s c keep) w (plainAbort 0x06 0) w))) ∧
    (n = 22 ∨ n = 23 → (nextBlock s (n - 22) w = none → stop) ∧
      ∀ i b, nextBlock s (n - 22) w = some i → (vget (bodyCore s).rx i RxSlot.reset).blk = some b →
        (keep = false → b.fm ≠ (bodyCtx s).fm → Stops (readV s c keep) w (plainAbort 0x06 0) w) ∧
        (keep = true ∨ b.fm = (bodyCtx s).fm → ∃ v sb, BlockReads307 s i b v ∧ BlockSideband s b sb ∧
          Gives (readV s c keep) w (v, sb)
            (if keep then w else { w with pops := vset w.pops (n - 17) (vget w.pops (n - 17) 0 + 1) }))) ∧
    (24 ≤ n → n < 28 →
      (let st := vget (bodyCtx s).q (n - 24) Stream.reset
       let el := st.fetched[vget w.adv (n - 24) 0]?
       ((st.bound = false ∨ st.dir = true ∨ el = none) → stop) ∧
       (∀ tok, st.bound = true → st.dir = false → el = some tok → Gives (readV s c keep) w (tok.pay, tok.sb)
         { w with adv := vset w.adv (n - 24) (vget w.adv (n - 24) 0 + 1) }))) ∧
    (n = 28 →
      (let k := field w.hdrA 16 6 + w.lits
       let lit := tableWord (bodyCore s) s.stage.cx.val (0x600 + 8 * k)
       let w' := { w with lits := w.lits + 1 }
       (k ≤ 63 → Gives (readV s c keep) w (ofLanes (fun _ => lane32 lit.toNat), 0) w' ∧ Gives (readS s c keep) w (lit, 0) w') ∧
       (63 < k → Stops (readV s c keep) w (plainAbort 0x09 (word k)) w ∧ Stops (readS s c keep) w (plainAbort 0x09 (word k)) w))) ∧
    (n = 31 → Gives (readV s c keep) w (0, 0) w) ∧
    (n = 21 ∨ n = 29 ∨ n = 30 → stop) ∧
    (n < 16 → Gives (readS s c keep) w (vget w.s n 0, 0) w) ∧
    (n = 29 → Gives (readS s c keep) w (w.tb, 0) w) ∧
    (n = 30 → Gives (readS s c keep) w (statusWord (bodyCtx s) w.flags, 0) w) ∧
    (16 ≤ n → n ≠ 28 → n ≠ 29 → n ≠ 30 →
      (∀ v sb w', Gives (readV s c keep) w (v, sb) w' → Gives (readS s c keep) w (word v.toNat, sb) w') ∧
      (∀ a w', Stops (readV s c keep) w a w' → Stops (readS s c keep) w a w'))

/-- R28, R22 (01_encoding), R57, R59, R68 (02_rule), R163 (05_core_memory): what every destination operand does, in both classes: a
register staged with one entry the first time, a token pushed, an element written, nothing for z; every other code, an unbound
port, no credit, no stream bound for writing or no free place aborts with ILLEGAL_OPERAND; the 33rd entry with COMMIT_OVERFLOW. -/
def Sys2Proof.Claims.DestinationOperandWrites : Prop :=
  ∀ (s : State) (d e : Opd) (x : W64) (v : V512) (u : TagUse) (w w1 w2 : Work),
    let n := d.toNat
    let sb := u.sb s
    let both := fun a => Stops (writeS s d x sb) w a w ∧ Stops (writeV s d v sb) w a w
    (n < 16 →
      (w.sD.getLsbD n = true → Gives (writeS s d x sb) w () { w with s := vset w.s n x }) ∧
      (w.sD.getLsbD n = false → w.entries < 32 → Gives (writeS s d x sb) w ()
        { w with entries := w.entries + 1, s := vset w.s n x, sD := w.sD ||| BitVec.ofNat 16 (2 ^ n) }) ∧
      (w.sD.getLsbD n = false → 32 ≤ w.entries → Stops (writeS s d x sb) w (plainAbort 0x0B 0) w) ∧
      (w.vD.getLsbD n = true → Gives (writeV s d v sb) w () { w with v := vset w.v n v }) ∧
      (w.vD.getLsbD n = false → w.entries < 32 → Gives (writeV s d v sb) w ()
        { w with entries := w.entries + 1, v := vset w.v n v, vD := w.vD ||| BitVec.ofNat 16 (2 ^ n) }) ∧
      (w.vD.getLsbD n = false → 32 ≤ w.entries → Stops (writeV s d v sb) w (plainAbort 0x0B 0) w)) ∧
    (16 ≤ n → n < 20 →
      (Pushes s (n - 16) (BitVec.ofNat 512 x.toNat) (sb false) w w1 → Gives (writeS s d x sb) w () w1) ∧
      (Pushes s (n - 16) v (sb true) w w1 → Gives (writeV s d v sb) w () w1) ∧
      (vget (bodyCtx s).binds (n - 16) none = none → both (plainAbort 0x04 0)) ∧
      (∀ b, vget (bodyCtx s).binds (n - 16) none = some b →
        (b.credits ≤ vget w.push (n - 16) 0 → both (plainAbort 0x04 0)) ∧
        (vget w.push (n - 16) 0 < b.credits → 32 ≤ w.entries → both (plainAbort 0x0B 0)))) ∧
    (24 ≤ n → n < 28 →
      (let st := vget (bodyCtx s).q (n - 24) Stream.reset
       let open_ := st.bound = true ∧ st.dir = true ∧ st.queued.length + vget w.wr (n - 24) 0 < 64
       (Streams s (n - 24) (BitVec.ofNat 512 x.toNat) w w1 → Gives (writeS s d x sb) w () w1) ∧
       (Streams s (n - 24) v w w1 → Gives (writeV s d v sb) w () w1) ∧
       (¬ open_ → both (plainAbort 0x04 0)) ∧ (open_ → 32 ≤ w.entries → both (plainAbort 0x0B 0)))) ∧
    (n = 31 → Gives (writeS s d x sb) w () w ∧ Gives (writeV s d v sb) w () w) ∧
    ((20 ≤ n ∧ n < 24) ∨ (28 ≤ n ∧ n < 31) → both (plainAbort 0x04 0)) ∧
    (Gives (writeS s d x sb) w () w1 → Gives (writeS s e x sb) w1 () w2 → Gives (resultS s d e u x) w () w2) ∧
    (Gives (writeV s d v sb) w () w1 → Gives (writeV s e v sb) w1 () w2 → Gives (resultV s d e u v) w () w2)

/-- R31 to R33 (01_encoding): the sideband of a pushed token, field by field, for every tag action, result type and pair of
bases: rt is zero, fm the context's, ctx the receiver's, wd the width's, and the other fields as the tag action says. -/
def Sys2Proof.Claims.PushedSidebands : Prop :=
  ∀ (s : State) (u : TagUse) (wd : Bool) (cx : Nat), u.t.toNat ≤ 12 → cx < 4 →
    let r := u.sb s wd cx
    let t := u.t.toNat
    let b := if t = 11 then u.b else u.a
    let null := t = 1
    part r 39 1 = (if wd then 1 else 0) ∧ part r 13 6 = 0 ∧ part r 11 2 = cx ∧
    part r 10 1 = (if (bodyCtx s).fm then 1 else 0) ∧
    part r 19 20 = (if null then 0 else part b 19 20) ∧
    part r 0 3 = (if null then 0 else if t = 10 then u.rtype.toNat else part b 0 3) ∧
    part r 3 1 = (if null ∨ t = 3 then 0 else if t = 2 ∨ t = 4 then 1 else part b 3 1) ∧
    part r 4 1 = (if null ∨ t = 2 then 0 else if t = 3 ∨ t = 4 then 1 else part b 4 1) ∧
    part r 5 1 = (if null then 0 else if t = 5 then 1 else part b 5 1) ∧
    (∀ k < 4, part r (6 + k) 1 = (if null then 0 else if t = 6 + k then 1 else part b (6 + k) 1))

/-- R22, R28, R31 to R33 (01_encoding), R57, R59, R68 (02_rule): what destination operands do, and the sideband of a pushed token.
Every part is stated above. -/
def Obligations.DestinationWritesAndSidebands : Prop :=
  Claims.DestinationOperandWrites ∧ Claims.PushedSidebands

/-- R14 (00_scope), R61, R68, R74 (02_rule): whatever a body's instruction does, on every state and with every operand, it changes
nothing but the staging of the body in flight, and either goes on to the next word or ends the body with an abort: no register,
memory, port, stream or queue of any agent changes before the commit. -/
def Obligations.BodiesOnlyStage : Prop :=
  ∀ (i : Instr) (s : State), i.isBody = true →
    ∃ t w, exec i s = .next t ∧ t = { s with stage := t.stage } ∧
      (t.stage = { s.stage with work := w } ∨
        ∃ a, t.stage = { s.stage with running := false, finished := s.stage.finished ++ [⟨w, some a⟩] })

/-- R36, R41, R42 (01_encoding): a word that no instruction has ends its body with ILLEGAL_OPCODE or ILLEGAL_OPERAND, staging
nothing more; a vector-pipe instruction needs the rule's hv bit and a basin command its hb bit. Where it rests on the model's own
choice, that is log entry 11. -/
def Obligations.IllegalWordsAbort : Prop :=
  (∀ (s : State) (e : DecodeError), s.stage.active = true → bodyOver s = false → decode (fetchWords s) = .error e →
    ∃ opc, step s = AbortsAt s (start s opc) 1
      (plainAbort (match e with | .illegalOpcode => 0x03 | .illegalOperand => 0x04) 0)) ∧
  (∀ (w : W32) (r : List W32),
    (let o := w.toNat / 2 ^ 24
     o = 0x2F ∨ (0x35 ≤ o ∧ o ≤ 0x3F) ∨ (0x73 ≤ o ∧ o ≤ 0x7F) ∨ (0x8F ≤ o ∧ o ≤ 0x9F) ∨ (0xBB ≤ o ∧ o ≤ 0xBF) ∨
       (0xD2 ≤ o ∧ o ≤ 0xDF) ∨ (0xEB ≤ o ∧ o ≤ 0xEF) ∨ 0xF6 ≤ o) → decode (w :: r) = .error .illegalOpcode) ∧
  (∀ (w : W32), 0xC0 ≤ w.toNat / 2 ^ 24 → decode [w] = .error .illegalOpcode) ∧
  (∀ (i : Instr) (s : State) (w : W32) (r : List W32), i.isBody = true → encode i = w :: r →
    (let o := w.toNat / 2 ^ 24
     (((0x40 ≤ o ∧ o ≤ 0x72) ∨ (0x81 ≤ o ∧ o ≤ 0x85)) ∧ ¬ VectorHint s) ∨ (((0xE0 ≤ o ∧ o ≤ 0xE8) ∨ o = 0xEA) ∧ ¬ BasinHint s) →
     ∃ cost, exec i s = AbortsAt s (start s (BitVec.ofNat 8 o)) cost (plainAbort 0x04 0)))

/-- R55, R62 (02_rule), R26 (01_encoding), R84: a rule is enabled exactly when its header is valid and every guard term holds; the
selector takes enabled rules only, at most four, pairwise without conflict, at most two with the vector hint and one with the
basin hint, and refuses an enabled rule only for one of these; a rule with a retry mark comes before every other. -/
def Obligations.GuardsAndSelection : Prop :=
  (∀ (c : Core) (x : Ctx) (cx i : Nat), ruleEnabled c cx x i = true ↔ Enabled c x i (headerA c cx i) (headerB c cx i)) ∧
  (∀ (c : Core) (cx : Nat) (x : Ctx),
    let t := selectRules c cx x
    let on := fun i => i < 64 ∧ x.ended = false ∧ ruleEnabled c cx x i = true
    let count := fun (l : List Nat) bit => (l.map (fun i => hintCount c cx i bit)).sum
    t.Nodup ∧ t.length ≤ 4 ∧ (∀ i ∈ t, on i) ∧ count t 57 ≤ 2 ∧ count t 58 ≤ 1 ∧
    (∀ i j : Nat, (h : i < j) → (hj : j < t.length) → ¬ Conflicts c cx t[j] (t[i]'(by omega))) ∧
    (∀ i, on i → i ∉ t → t.length = 4 ∨ (∃ j ∈ t, Conflicts c cx i j) ∨ 2 < count t 57 + hintCount c cx i 57 ∨
      1 < count t 58 + hintCount c cx i 58) ∧
    (∀ i, on i → x.rm.getLsbD i = true → (∀ j < i, x.rm.getLsbD j = false) → t.head? = some i) ∧
    (∀ i, on i → x.rm = 0 → (∀ k, on k → (i + 64 - x.fp.toNat) % 64 ≤ (k + 64 - x.fp.toNat) % 64) → t.head? = some i))

/-- R60, R63, R78 (02_rule), R206, R211 (07_core_failures), R349 (12_package_launch): a core that runs takes the context pass that its
last boundary called for before its next round; a round of an eligible context takes the selected rules, whose bodies run one
after another in index order from committed state; with none, IDLE and the round counter count, the checks of its stream engines
are raised, and the boundary follows. Between two bodies the round only moves on. Where it rests on the model's own choices, they
are log entries 8, 14 and 98. -/
def Obligations.RoundsRunTheirBodies : Prop :=
  (∀ (s : State) (idle : Bool), s.stage.active = false →
    (let k := s.ev.x
     let o := coreOf s k
     let n := (passTarget o idle).getD o.act.toNat
     let t := takePass s k
     o.pass = some idle → coreLive o = true → clockStopped s k = false → (clusterOf s (clusterKey k)).rstate = 0 → n < 4 →
     exec .round s = exec .round t ∧ (coreOf t k).pass = none ∧ (coreOf t k).act.toNat = n ∧
       (passTarget o idle = none → t = setCore s k { o with pass := none }) ∧
       (passTarget o idle ≠ none → (coreOf t k).qr = 0 ∧ (n ≠ o.act.toNat → (ctxOf t k o.act.toNat).yielded = false ∧
         (vget (ctxOf t k n).cnt 10 0).toNat = min ((vget (ctxOf s k n).cnt 10 0).toNat + 1) (2 ^ 32 - 1))))) ∧
  (∀ (s : State) (r : List Nat) (i : Nat), s.stage.active = false →
    (let k := s.ev.x
     let c := (coreOf s k).act.toNat
     let s0 := tellSwapper s (ctxOf s k c).region
     let o := coreOf s0 k
     let x := vget o.ctx c Ctx.reset
     let s1 := countCore (setCore s0 k (markReady o)) k 33 (badHeaders o c)
     (coreOf s k).pass = none → coreLive (coreOf s k) = true → clockStopped s k = false →
     (clusterOf s (clusterKey k)).rstate = 0 → eligible (ctxOf s k c) = true →
     (selectRules o c x = [] →
       (let s2 := countCtx (setCtx s1 k c { ctxOf s1 k c with fired := false }) k c 9 1
        exec .round s = .next (boundary (countRound
          (raiseTraps (takeChecks s2 k c).1 k c x.fm (takeChecks s2 k c).2) k c) k true))) ∧
     ((∀ j < 64, j ∈ i :: r ↔ j ∈ selectRules o c x) → (i :: r).Pairwise (· < ·) → (∀ j ∈ i :: r, j < 64) →
       ∃ t, exec .round s = .next t ∧ t = { s1 with stage := t.stage } ∧ t.stage.active = true ∧ t.stage.core = k ∧
         t.stage.cx.val = c ∧ t.stage.todo = r ∧ t.stage.taken = selectRules o c x ∧ t.stage.finished = [] ∧
         t.stage.running = true ∧
         t.stage.work = { Work.reset with
           rule := i, hdrA := headerA (coreOf s1 k) c i, hdrB := headerB (coreOf s1 k) c i, s := x.s, v := x.v, lm := x.lm,
           bb := x.bb, bw := x.bw, tm := x.tm, tb := x.tb, en := x.en, flags := x.flags, inj := o.inj }))) ∧
  (∀ (s : State) (i : Nat) (r : List Nat), s.stage.active = true → bodyOver s = true → s.stage.todo = i :: r →
    ∃ t, exec .round s = .next t ∧ t = { s with stage := t.stage } ∧ t.stage.todo = r ∧ t.stage.running = true ∧
      t.stage.work.rule = i ∧ t.stage.work.effects = [] ∧ t.stage.work.inj = s.stage.work.inj ∧
      (s.stage.running = true → t.stage.finished = s.stage.finished ++ [⟨s.stage.work, none⟩]) ∧
      (s.stage.running = false → t.stage.finished = s.stage.finished))

/-- R68, R57, R71 (02_rule): what a commit does with each kind of staged effect of a context, and with the registers that a body
wrote; a register that the body did not write keeps its value. -/
def Obligations.CommitAppliesStagedEffects : Prop :=
  (∀ (x : Ctx) (w : Work),
    let y := commitRegisters x w
    (∀ i < 16, vget y.s i 0 = (if w.sD.getLsbD i then vget w.s i 0 else vget x.s i 0)) ∧
    (∀ i < 16, vget y.v i 0 = (if w.vD.getLsbD i then vget w.v i 0 else vget x.v i 0)) ∧
    (∀ i < 8, vget y.tm i 0 = (if w.tmD.getLsbD i then vget w.tm i 0 else vget x.tm i 0)) ∧
    y.lm = (if w.lmD then w.lm else x.lm) ∧ y.bb = (if w.bbD then w.bb else x.bb) ∧ y.bw = (if w.bwD then w.bw else x.bw) ∧
    y = { x with s := y.s, v := y.v, tm := y.tm, lm := y.lm, bb := y.bb, bw := y.bw }) ∧
  (∀ (s : State) (k c n p : Nat) (m v : W64) (tok : Token) (f : BitVec 5) (fm : Bool) (rnd : BitVec 2) (kind : BitVec 2)
      (d : BitVec 42), c < 4 → n < 64 → p < 4 →
    let x := ctxOf s k c
    let commits := fun e => ctxOf (applyEffect k c s e) k c
    commits (.tagSet n) = { x with tb := under x.tb (one n) (one n) } ∧ commits (.tagClear n) = { x with tb := under x.tb (one n) 0 } ∧
    commits (.tagMask m v) = { x with tb := under x.tb m v } ∧ commits (.enable m v) = { x with en := under x.en m v } ∧
    commits (.clearAbort n) = { x with rabort := vset x.rabort n 0 } ∧
    commits (.status fm rnd f) = { x with fm := fm, rnd := rnd, flags := f } ∧ commits (.format fm) = { x with fm := fm } ∧
    commits (.raise f) = { x with flags := x.flags ||| f } ∧ commits .yield_ = { x with yielded := true } ∧
    commits .end_ = { x with ended := true } ∧ commits (.fence kind n) = { x with outbound := x.outbound ++ [.fence kind n] } ∧
    (∀ b, vget x.binds p none = some b → commits (.push p tok) =
      { x with binds := vset x.binds p (some { b with credits := b.credits - 1 }), outbound := x.outbound ++ [.token p tok] }) ∧
    (coreOf (applyEffect k c s (.inject d)) k).inj = d ∧
    (coreOf (applyEffect k c s (.weir n)) k).weirLim = n)

/-- R74, R75, R76 (02_rule), R219, R220 (07_core_failures): an aborted rule leaves its record and its counts; then EXPLICIT follows
the rule's policy, RESIDUE sets the retry mark or, in a retry, raises a machine check, BASIN_QUEUE_FULL retries, LOCAL_ECC_UE
starts the rollback of the gang, every other code traps; the retry mark is cleared in every other case. -/
def Sys2Proof.Claims.AbortOutcomes : Prop :=
  ∀ (s : State) (k c : Nat) (w : Work) (a : Abort), c < 4 → w.rule < 64 →
    let x := ctxOf s k c
    let t := (abortRule s k c w a).1
    let y := ctxOf t k c
    let causes := (abortRule s k c w a).2
    let policy := field w.hdrB 38 2
    let cause := fun kind => [{ code := a.code, kind := kind, rule := w.rule, word := w.pc, opcode := w.opc, unit := a.unit,
                                lane := a.lane, exp := a.exp, obs := a.obs, info := a.info : Cause }]
    (vget y.rabort w.rule 0).toNat = a.code.toNat * 2 ^ 16 + min ((vget x.rabort w.rule 0).toNat % 2 ^ 16 + 1) 0xFFFF ∧
    (vget y.cnt 6 0).toNat = min ((vget x.cnt 6 0).toNat + 1) (2 ^ 32 - 1) ∧
    y.s = x.s ∧ y.v = x.v ∧ y.lm = x.lm ∧ y.bb = x.bb ∧ y.bw = x.bw ∧ y.tm = x.tm ∧ y.tb = x.tb ∧ y.inq = x.inq ∧
    y.binds = x.binds ∧ y.q = x.q ∧ y.outbound = x.outbound ∧ y.flags = x.flags ∧ (coreOf t k).mem = (coreOf s k).mem ∧
    y.rm.getLsbD w.rule = decide (a.code = 0x02 ∧ x.rm.getLsbD w.rule = false) ∧
    y.en = (if a.code = 0x01 ∧ policy = 1 then under x.en (one w.rule) 0 else x.en) ∧
    (vget y.cnt 7 0).toNat = (if a.code = 0x02 then min ((vget x.cnt 7 0).toNat + 1) (2 ^ 32 - 1) else (vget x.cnt 7 0).toNat) ∧
    causes = (if a.code = 0x01 then (if policy = 2 then cause 0 else [])
      else if a.code = 0x02 then (if x.rm.getLsbD w.rule then cause 2 else [])
      else if a.code = 0x07 ∨ a.code = 0x0C then [] else cause 0) ∧
    (a.code = 0x07 → (regionOf t x.region).error = some 0x07)

/-- R219 to R221, R227 (07_core_failures): taking a trap keeps its record in the ring, marks the context trapped unless a trap is
outstanding or it has ended, and counts it; a resume message acts on the outstanding trap whose record has its SEQ, and any
other is counted in STALE_TRET. -/
def Sys2Proof.Claims.TrapsAndReturns : Prop :=
  (∀ (s : State) (k c : Nat) (q : Cause) (fm mult : Bool), c < 4 → q.kind < 4 → q.rule < 64 → q.word < 32 →
    let x := ctxOf s k c
    let r := recordOf s k c q mult false
    let t := takeTrap s k c fm q mult
    r.w0 = word (q.code.toNat * 2 ^ 56 + q.kind * 2 ^ 54 + (if mult then 2 ^ 53 else 0) + c * 2 ^ 50 + q.rule * 2 ^ 44 +
      q.word * 2 ^ 39 + q.opcode.toNat * 2 ^ 31 + q.unit.toNat * 2 ^ 28 + q.lane.toNat * 2 ^ 24 + q.exp.toNat * 2 ^ 21 +
      q.obs.toNat * 2 ^ 18) ∧
    r.w1 = word (x.lx * 2 ^ 39 + x.ly * 2 ^ 31 + x.lc % 4 * 2 ^ 29 + (coreOf s k).seq.toNat * 2 ^ 17 + k) ∧
    r.w2 = x.rounds ∧ r.w3 = q.info ∧
    (coreOf t k).ring = (r :: (coreOf s k).ring).take 4 ∧ (coreOf t k).seq = (coreOf s k).seq + 1 ∧
    (ctxOf t k c).trap = (if x.trap = none ∧ x.ended = false then some r else x.trap) ∧
    (ctxOf t k c).trapFm = (if x.trap = none ∧ x.ended = false then fm else x.trapFm) ∧
    (vget (ctxOf t k c).cnt 11 0).toNat = min ((vget x.cnt 11 0).toNat + 1) (2 ^ 32 - 1)) ∧
  (∀ (s : State) (k c seq : Nat) (action : Nat), c < 4 → action < 4 →
    let x := ctxOf s k c
    let t := applyTret s k c seq action
    (∀ r, x.trap = some r → field r.w1 17 12 = seq → x.resident = true →
      (action = 0 → t = setCtx s k c { x with trap := none }) ∧
      (action = 1 → t = setCtx s k c { x with trap := none, en := under x.en (one (field r.w0 44 6)) 0 }) ∧
      (action = 2 → t = setCtx s k c { x with trap := none, ended := true }) ∧
      (action = 3 → ctxOf t k c = x)) ∧
    ((∀ r, x.trap = some r → field r.w1 17 12 ≠ seq ∨ x.resident = false) →
      ∃ o, t = setCore s k { coreOf s k with cnt := o } ∧
        (vget o 7 0).toNat = min ((vget (coreOf s k).cnt 7 0).toNat + 1) (2 ^ 32 - 1) ∧
        ∀ j < 11, j ≠ 7 → vget o j 0 = vget (coreOf s k).cnt j 0))

/-- R74 to R76 (02_rule), R219 to R221, R227 (07_core_failures): what an aborted rule leaves, traps and resume messages. Every
part is stated above. Where it rests on the model's own choices, they are log entries 15, 97 and 98. -/
def Obligations.AbortsTrapsAndReturns : Prop :=
  Claims.AbortOutcomes ∧ Claims.TrapsAndReturns

/-- R16, R17, R20 (01_encoding), R60, R63 (02_rule), R420 (09_memory_model): a step at a state with a body in flight runs the
instruction that the words at the body's program counter decode to, exactly as its meaning says; a body at its last word, or that
has aborted, hands over to the round; with no body in flight the step runs one of the steps that may happen next, at a time not
before it is due. The words are little-endian in the context's body region of the active plane, from the word that the header
names; the decoder sees the word after only where the body has one. Where it rests on the model's own choices, they are log
entries 7 and 8. -/
def Obligations.StepRunsTheDecodedInstruction : Prop :=
  (∀ (s : State) (i : Instr) (r : List W32), s.stage.active = true → bodyOver s = false →
    decode (fetchWords s) = .ok (i, r) → step s = exec i s) ∧
  (∀ (s : State), s.stage.active = true → bodyOver s = true → step s = exec .round s) ∧
  (∀ (s : State), bodyOver s = false ↔
    s.stage.running = true ∧ s.stage.work.pc < field s.stage.work.hdrA 11 5 + 1) ∧
  (∀ (s : State), bodyOver s = false →
    let at_ := 0x1000 * s.stage.cx.val + 4 * (field s.stage.work.hdrA 0 11 + s.stage.work.pc)
    let byte := fun n => (memByte (bodyCore s).active (at_ + n)).toNat
    let w := fun n => BitVec.ofNat 32 (byte n + 2 ^ 8 * byte (n + 1) + 2 ^ 16 * byte (n + 2) + 2 ^ 24 * byte (n + 3))
    fetchWords s = if s.stage.work.pc + 1 < field s.stage.work.hdrA 11 5 + 1 then [w 0, w 4] else [w 0]) ∧
  (∀ (s : State), s.stage.active = false → candidates s = [] →
    ∃ t, step s = .next t ∧ s.now < t.now ∧ t = { s with now := t.now, fresh := s.fresh + 1 }) ∧
  (∀ (s : State), s.stage.active = false → candidates s ≠ [] →
    ∃ src p t, (src, p) ∈ candidates s ∧ step s = exec p.op t ∧ s.now ≤ t.now ∧ p.due ≤ t.now ∧
      t = { s with now := t.now, fresh := s.fresh + 1, ev := p.args, inputs := t.inputs, agenda := t.agenda } ∧
      (src = none → t.inputs = s.inputs.drop 1 ∧ t.agenda = s.agenda) ∧
      (∀ n, src = some n → t.inputs = s.inputs ∧ t.agenda = s.agenda.eraseIdx n))

/-- R16 to R20, R35 to R41 (01_encoding): words that the spec writes out, one or more of each family of instructions, decode to the
instructions that it names. -/
def Obligations.DecodedWords : Prop :=
  decode [0x040CC3F0] = .ok (.add 1 19 1 31 0, []) ∧ decode [0x05213FFD] = .ok (.addi 4 4 0x3FFD, []) ∧
  decode [0x3110C9F0] = .ok (.reladr 2 3 4 31 0, []) ∧ decode [0x4514C310] = .ok (.vaddF32 2 19 1 17 0, []) ∧
  decode [0x80105520] = .ok (.cvt 2 1 0xA9, []) ∧ decode [0x8AC7C3F0] = .ok (.bshuf 24 1 31 0, []) ∧
  decode [0xA5FF0BF0] = .ok (.rulemask 31 28 5 31 0, []) ∧ decode [0xA9FFC005] = .ok (.tset 5, []) ∧
  decode [0xA7FFFFF0] = .ok (.ctxend 0, []) ∧
  decode [0xC017C3F0, 0x80000040] = .ok (.ld 2 1 31 0 2 0x40, []) ∧
  decode [0xCB08ABF0, 0x0C280100] = .ok (.amoAdd 1 2 0 3 2 1 0x100, []) ∧
  decode [0xC70FEBF0, 0xC3800100] = .ok (.rld 1 0 3 3 0x100, []) ∧
  decode [0xCC27F1F0, 0x24000000] = .ok (.stream 4 24 0 0 2 1, []) ∧
  decode [0xE025BFF0, 0x1B401FC0] = .ok (.mma 4 22 0 0 3 3 0x100 7 15 0 0 0, []) ∧
  decode [0xF0FFFFF0, 0x01130000] = .ok (.bar 2 9 1, []) ∧ decode [0xF117C3F0, 0] = .ok (.bandrd 2 1 31 0, []) ∧
  decode [0xF1192BF0, 0x20F50000] = .ok (.rsvld 3 4 0 7 1 5, []) ∧
  decode [0xF210EBF0, 0x0048D4E0] = .ok (.cgsend 2 3 9 6 1 1 0 3 1, []) ∧
  decode [0xF3FFEBF0, 0x0C000000] = .ok (.cfgswap 31 1 0 0, []) ∧ decode [0xF3FFFFF0, 0x10700000] = .ok (.gbar 3 1, []) ∧
  decode [0xF40FEBF0, 0x00700000] = .ok (.xstr 1 3 1, []) ∧ decode [0xF527EBF0, 0x00A64000] = .ok (.coll 4 5 12 1, [])

/-- R379 (14_package_host), with the reset values that R179 (06_core_basin), R208 (07_core_failures), R284, R293 (10_die), R259
(08_cluster), R322, R332 (12_package_launch), R375, R381 (14_package_host), R387 (15_fabric) give: the machine right after reset, as
its registers read. The values of registers to which the spec gives none are the model's choice (log entry 1) and are not
part of this. -/
def Obligations.ResetValues : Prop :=
  (let s := State.reset
   s.stage.active = false ∧ s.core = [] ∧ s.region = [] ∧ s.queue = [] ∧ s.flits = [] ∧ s.msgs = [] ∧ s.xops = [] ∧
   s.inputs = [] ∧ s.agenda.map (fun p => p.op) = [.startup]) ∧
  (∀ k < 0x12000,
    let s := State.reset
    let o := coreOf s k
    reg32 s k 0x70240 = 1 ∧ reg32 s k 0x70244 = 0x01000100 ∧ o.bucket = 0x00101800 ∧ o.inj = 0 ∧
    (∀ c < 4, (vget o.ctx c Ctx.reset).en = 0 ∧ (vget o.ctx c Ctx.reset).rm = 0 ∧ (vget o.ctx c Ctx.reset).resident = false) ∧
    reg64 s k 0x70248 = some 0 ∧ reg64 s k 0x78018 = some 125000 ∧ reg64 s k 0x7C008 = some 0 ∧
    (∀ n < 8, reg32 s k (0x78100 + 8 * n) = 0) ∧ reg32 s k 0x7A070 = 0x4010) ∧
  pkgWord State.reset 0x200 = 50 ∧ pkgWord State.reset 0x400 = 8 ∧ pkgWord State.reset 0x500 = 24000 ∧
  (∀ q < 2048, pkgWord State.reset (0x100000 + 64 * q + 8) = 0x1004) ∧
  (∀ r < 512, pkgWord State.reset (0x200000 + 32 * r + 16) = 20000 * 65536 + 1024) ∧
  (∀ p < 48, pkgWord State.reset (0x50100 + 16 * p) = 0x0000FFFFFF000000 ∧ pkgWord State.reset (0x50108 + 16 * p) = 0)

/-- R16 to R20, R35 to R41 (01_encoding): decoding the words of every well-formed instruction of a body gives the instruction back,
with every operand and field at every value that it admits, and leaves the words that follow; and every word that decodes is
the encoding of the well-formed instruction that it decodes to, so no two instructions share a word. -/
def Obligations.DecodingAgreesWithEncoding : Prop :=
  (∀ (i : Instr) (rest : List W32), i.isBody = true → i.wf = true → decode (encode i ++ rest) = .ok (i, rest)) ∧
  (∀ (ws rest : List W32) (i : Instr), decode ws = .ok (i, rest) → i.isBody = true ∧ i.wf = true ∧ ws = encode i ++ rest)

/-- R379 step 4 (14_package_host), R14 (00_scope): every step of the part keeps every memory in its one canonical form, whatever the
state: HBM, the second tier, host memory, every core's SRAM, instruction planes and route tables, every pinned store, and
the copies that regions keep. -/
def Obligations.MemoriesStayCanonical : Prop :=
  ∀ (s t : State), s.memoriesWf = true → step s = .next t → t.memoriesWf = true

/-- R379 step 4 (14_package_host): at reset every memory is in canonical form, and reads 0. Where it rests on the model's own
choices, they are log entries 2 and 4. -/
def Obligations.ResetMemoriesCanonical : Prop :=
  State.reset.memoriesWf = true ∧
  (∀ (k a : Nat), memByte (coreOf State.reset k).mem a = 0 ∧ memByte (coreOf State.reset k).active a = 0 ∧
    memByte State.reset.hbm a = 0)

/-- R58 (02_rule), R213 to R215, R227 (07_core_failures), R241 (08_cluster), R157, R158 (05_core_memory), R220, R57, R343
(12_package_launch): a token or reply that arrives goes to the tail of its queue in the context that it names, and in the twin of
a duplicate placement when it comes from outside, or ends an access that left both copies as one; one for a logical core that has
moved is sent on under the core that first sent it; one for an evicted context is held, and while a holding register is full its
channel accepts nothing; after 4,096 cycles it is spilled into the inbound ring, in the save area's memory too, while that has
room, and taken by a context that is back; a failure is a reply with e = 1 or a trap of kind 3 that names the instruction; a
credit goes back to its binding; a resume message waits for the round boundary. Where it rests on the model's own choices, they
are log entries 53, 62, 100 and 119. -/
def Obligations.TokensAndRepliesArrive : Prop :=
  (∀ (s : State) (src k addr port c : Nat) (tok : Token), Receives s src k (.token addr port tok) → port < 5 →
    (channelOpen s k port 0 = true ↔ ∀ h ∈ (coreOf s k).hold, h.1 ≠ 4 * port) ∧
    (slotOf s k addr = some c → channelOpen s k port 0 = true →
      (twinOf s addr = none → Runs .tokenArrival s fun t =>
        vget (ctxOf t k c).inq port [] = vget (ctxOf s k c).inq port [] ++ [tok] ∧
          (coreOf t k).rcvd = (coreOf s k).rcvd + 1 ∧ Taken s t ∧ SameMemory s t ∧ t.flits = s.flits) ∧
      (∀ b g k2 c2, twinOf s addr = some b → tok.src = some g → twinOf s g.cx = none → findCtx s b = some (k2, c2) →
        (k2, c2) ≠ (k, c) → Runs .tokenArrival s fun t =>
          vget (ctxOf t k c).inq port [] = vget (ctxOf s k c).inq port [] ++ [tok] ∧
          vget (ctxOf t k2 c2).inq port [] = vget (ctxOf s k2 c2).inq port [] ++ [{ tok with src := none }])) ∧
    (slotOf s k addr = none →
      (∀ j, coreOfAddr s addr = some j → j ≠ k →
        Runs .tokenArrival s fun t => Sends s t 0 k j (.token addr port tok) ∧ (t.flits.getLast?.map Flit.orig) = some src ∧
          Taken s t ∧ SameMemory s t) ∧
      (coreOfAddr s addr = some k → channelOpen s k port 0 = true →
        Runs .tokenArrival s fun t =>
          (let now := clusterCycles s (clusterKey k)
           tget (coreOf t k).hold ⟨0, tok, 0, 0⟩ (4 * port) = ⟨addr, tok, now, now⟩) ∧
          (coreOf t k).rcvd = (coreOf s k).rcvd + 1 ∧
          Later t .tokenSpill k port (s.now + ticksOf s k 4096) ∧ Taken s t ∧ SameMemory s t)) ∧
    (channelOpen s k port 0 = false → (slotOf s k addr = some c ∨ coreOfAddr s addr = some k) →
      Runs .tokenArrival s fun t => PutOff s t .tokenArrival)) ∧
  (∀ (s : State) (k port key : Nat) (h : Held), s.ev.x = k → s.ev.y = port → port < 5 →
    heldToken (coreOf s k) port = some (key, h) →
    let addr := h.addr
    let gone := fun (t : State) => ∀ g ∈ (coreOf t k).hold, g.1 ≠ key
    let held := clusterCycles s (clusterKey k) - h.since
    (∀ c, slotOf s k addr = some c → Runs .tokenSpill s fun t =>
      vget (ctxOf t k c).inq port [] = vget (ctxOf s k c).inq port [] ++ [h.tok] ∧ gone t ∧
        (vget (coreOf t k).cnt 10 0).toNat =
          min ((vget (coreOf s k).cnt 10 0).toNat + (clusterCycles s (clusterKey k) - h.from_)) (2 ^ 32 - 1)) ∧
    (∀ j, slotOf s k addr = none → coreOfAddr s addr = some j → j ≠ k →
      (key % 4 = 0 → Runs .tokenSpill s fun t => Sends s t 0 k j (.token addr port h.tok) ∧ gone t) ∧
      (key % 4 ≠ 0 → Runs .tokenSpill s fun t => Sends s t 1 k j (.reply addr s.nextId h.tok) ∧ gone t)) ∧
    (slotOf s k addr = none → coreOfAddr s addr = some k → held < 4096 → Runs .tokenSpill s fun t =>
      (coreOf t k).hold = (coreOf s k).hold ∧ Later t .tokenSpill k port (s.now + ticksOf s k (4096 - held))) ∧
    (slotOf s k addr = none → coreOfAddr s addr = some k → 4096 ≤ held →
      (∀ x, anyCtx s addr = some x →
        (∀ r ∈ s.region, ∀ c ∈ r.2.saved, ∀ p ∈ c.ctxs, ctxAddr p.2 = addr → p.2.ring.length < 225) →
        Runs .tokenSpill s fun t =>
          let area := savedArea s addr
          let u := ringWrite s area port h.tok
          gone t ∧ t.hbm = u.hbm ∧ t.tier2 = u.tier2 ∧ t.host = u.host ∧ (field area 62 2 ≠ 2 → SameMemory s t) ∧
            (t.pkg.coreMap = s.pkg.coreMap → ∃ y, anyCtx t addr = some y ∧ y.ring = x.ring ++ [(port, h.tok)] ∧
              (vget y.cnt 12 0).toNat = min ((vget x.cnt 12 0).toNat + 1) (2 ^ 32 - 1))) ∧
      ((∃ r ∈ s.region, ∃ c ∈ r.2.saved, ∃ p ∈ c.ctxs, ctxAddr p.2 = addr ∧ 225 ≤ p.2.ring.length) →
        Runs .tokenSpill s fun t => (coreOf t k).hold = (coreOf s k).hold ∧
          Later t .tokenSpill k port (s.now + ticksOf s k 4096) ∧
          (held < 8192 → (vget (coreOf t k).cnt 8 0).toNat = min ((vget (coreOf s k).cnt 8 0).toNat + 1) (2 ^ 32 - 1))))) ∧
  (∀ (s : State) (src k addr n c : Nat) (tok : Token), Receives s src k (.reply addr n tok) →
    (∀ p ∈ (coreOf s k).splits, p.id ≠ n) →
    (slotOf s k addr = some c → channelOpen s k 4 1 = true →
      (twinAwaits s addr n = none → Runs .replyArrival s fun t =>
        vget (ctxOf t k c).inq 4 [] = vget (ctxOf s k c).inq 4 [] ++ [tok] ∧ (coreOf t k).rcvd = (coreOf s k).rcvd ∧
          Taken s t ∧ SameMemory s t) ∧
      (∀ b k2 c2, twinAwaits s addr n = some b → findCtx s b = some (k2, c2) → (k2, c2) ≠ (k, c) → Runs .replyArrival s fun t =>
        vget (ctxOf t k c).inq 4 [] = vget (ctxOf s k c).inq 4 [] ++ [tok] ∧
          vget (ctxOf t k2 c2).inq 4 [] = vget (ctxOf s k2 c2).inq 4 [] ++ [{ tok with src := none }])) ∧
    (slotOf s k addr = none →
      (∀ j, coreOfAddr s addr = some j → j ≠ k → Runs .replyArrival s fun t =>
        Sends s t 1 k j (.reply addr n tok) ∧ (t.flits.getLast?.map Flit.orig) = some src ∧ Taken s t ∧ SameMemory s t) ∧
      (coreOfAddr s addr = some k → channelOpen s k 4 1 = true → Runs .replyArrival s fun t =>
        (let now := clusterCycles s (clusterKey k)
         tget (coreOf t k).hold ⟨0, tok, 0, 0⟩ 17 = ⟨addr, tok, now, now⟩) ∧
          Later t .tokenSpill k 4 (s.now + ticksOf s k 4096) ∧ Taken s t ∧ SameMemory s t)) ∧
    (channelOpen s k 4 1 = false → (slotOf s k addr = some c ∨ (slotOf s k addr = none ∧ coreOfAddr s addr = some k)) →
      Runs .replyArrival s fun t => PutOff s t .replyArrival)) ∧
  (∀ (s : State) (src k addr n c : Nat) (rpy : Bool) (code : BitVec 8) (rt : BitVec 6) (fm wd : Bool) (org : Origin),
    Receives s src k (.failed addr n rpy code rt fm wd org) → (∀ p ∈ (coreOf s k).splits, p.id ≠ n) →
    (slotOf s k addr = some c →
      (rpy = true → channelOpen s k 4 1 = true → twinAwaits s addr n = none → Runs .failedRequest s fun t =>
        Taken s t ∧ SameMemory s t ∧ ∃ tok, vget (ctxOf t k c).inq 4 [] = vget (ctxOf s k c).inq 4 [] ++ [tok] ∧
          tok.pay.toNat = code.toNat ∧ part tok.sb 5 1 = 1 ∧ part tok.sb 13 6 = rt.toNat) ∧
      (rpy = false → Runs .failedRequest s fun t => Taken s t ∧ SameMemory s t ∧
        ∃ r, (coreOf t k).traps = (coreOf s k).traps ++ [(c, r)] ∧ field r.w0 56 8 = code.toNat ∧
          field r.w0 54 2 = 3 ∧ field r.w0 50 3 = c ∧ field r.w0 44 6 = org.rule % 64 ∧ field r.w0 39 5 = org.word % 32 ∧
          field r.w0 31 8 = org.opc.toNat ∧ r.w3.toNat = rt.toNat)) ∧
    (slotOf s k addr = none →
      (∀ j, coreOfAddr s addr = some j → j ≠ k → Runs .failedRequest s fun t =>
        Sends s t 1 k j (.failed addr n rpy code rt fm wd org) ∧ Taken s t ∧ SameMemory s t) ∧
      (coreOfAddr s addr = some k → rpy = true → channelOpen s k 4 1 = true → Runs .failedRequest s fun t =>
        (∃ tok now, tget (coreOf t k).hold ⟨0, tok, 0, 0⟩ 17 = ⟨addr, tok, now, now⟩ ∧ tok.pay.toNat = code.toNat ∧
          part tok.sb 5 1 = 1 ∧ part tok.sb 13 6 = rt.toNat) ∧ Taken s t ∧ SameMemory s t) ∧
      (coreOfAddr s addr = some k → rpy = false → Runs .failedRequest s fun t => PutOff s t .failedRequest))) ∧
  (∀ (s : State) (src dst addr port k c : Nat) (b : Binding), Receives s src dst (.credit addr port) → port < 4 →
    findCtx s addr = some (k, c) → vget (ctxOf s k c).binds port none = some b → Runs .creditReturn s fun t =>
      ctxOf t k c = { ctxOf s k c with
        binds := vset (ctxOf s k c).binds port (some { b with credits := min (b.credits + 1) b.depth }) } ∧
      Taken s t ∧ SameMemory s t) ∧
  (∀ (s : State) (src k addr seq action : Nat), Receives s src k (.tret addr seq action) →
    (∀ c, slotOf s k addr = some c → Runs .tretMessageArrival s fun t =>
      (coreOf t k) = { coreOf s k with trets := (coreOf s k).trets ++ [(c, seq, action)] } ∧ Taken s t) ∧
    (∀ j, slotOf s k addr = none → coreOfAddr s addr = some j → j ≠ k → Runs .tretMessageArrival s fun t =>
      Sends s t 3 k j (.tret addr seq action) ∧ Taken s t) ∧
    (slotOf s k addr = none → (∀ j, coreOfAddr s addr = some j → j = k) → Runs .tretMessageArrival s fun t =>
      (vget (coreOf t k).cnt 7 0).toNat = min ((vget (coreOf s k).cnt 7 0).toNat + 1) (2 ^ 32 - 1) ∧ Taken s t))

/-- R156, R158, R160, R161, R172 (05_core_memory), R147, R208 (07_core_failures), R329 (12_package_launch): the memory port serves
the request at its head: a read answers the bytes, a write stores them, an atomic stores the new value and answers the old one, a
flip exchanges the buffers of a defined window; a byte outside the logical core's window or a privileged one answers a failure, an
uncorrectable word starts a rollback. The bucket leaks by one at the core's own cycle. Where it rests on the model's own choices, they
are log entries 57 and 99. -/
def Obligations.MemoryPortServesItsHead : Prop :=
  (∀ (s : State) (k dst : Nat) (r : Request) (l : List Request), s.ev.x = k → (coreOf s k).portq = r :: l →
    coreOfAddr s r.cx = some dst →
    let answers := fun (t : State) (v : Nat) => r.rpy = true → ∃ tok, Sends s t 1 k dst (.reply r.cx r.id tok) ∧
      tok.pay.toNat = v ∧ part tok.sb 13 6 = r.rt.toNat ∧ part tok.sb 5 1 = 0
    let fails := fun (t : State) (code : BitVec 8) => (coreOf t k).portq = l ∧ SameMemory s t ∧
      ∃ wd, Sends s t 1 k dst (.failed r.cx r.id r.rpy code r.rt r.fm wd r.org)
    let place := fun (off i : Nat) => portOffset s k (off + i) false
    (∀ n off, r.kind = .read n → portPlace s r n = .ok off → off + n ≤ 0x60000 → Places n (place off) →
      portBad s k off n = false → Runs .remoteAccessServe s fun t => (coreOf t k).portq = l ∧ SameMemory s t ∧
        ∃ v, answers t v ∧ ∀ i < 64, v / 256 ^ i % 256 = if i < n then (memByte (coreOf s k).mem (place off i)).toNat else 0) ∧
    (∀ n v off, r.kind = .write n v → portPlace s r n = .ok off → Places n (place off) → off + n ≤ 0x60000 → Unlogged s k →
      Runs .remoteAccessServe s fun t => (coreOf t k).portq = l ∧ StoredAt s t k n (place off) v.toNat ∧ answers t 0) ∧
    (∀ n code, r.kind = .read n → portPlace s r n = .error code → Runs .remoteAccessServe s fun t => fails t code) ∧
    (∀ n v code, r.kind = .write n v → portPlace s r n = .error code → Runs .remoteAccessServe s fun t => fails t code) ∧
    (∀ n off m, r.kind = .read n → portPlace s r n = .ok off → portBad s k off n = true → regionOfCore s k = some m →
      Runs .remoteAccessServe s fun t => (coreOf t k).portq = l ∧ RollsBack s t m 0x07 ∧ t.flits = s.flits) ∧
    (∀ op n x c off old, r.kind = .amo op n x c → portPlace s r n = .ok off → off + n ≤ 0x60000 → Places n (place off) →
      n ∈ [1, 2, 4, 8] → portBad s k off n = false → Unlogged s k → portInjected (coreOf s k) = false →
      splitOf s r.id = none → old = leNat ((List.range n).map (fun i => memByte (coreOf s k).mem (place off i))) →
      Runs .amoPerform s fun t => (coreOf t k).portq = l ∧ answers t old ∧
        StoredAt s t k n (place off) (amoResult op n old x.toNat c.toNat).1) ∧
    (∀ op n x c code, r.kind = .amo op n x c → portPlace s r n = .error code → splitOf s r.id = none →
      Runs .amoPerform s fun t => fails t code)) ∧
  (∀ (op n old x c : Nat), n ∈ [1, 2, 4, 8] → old < 256 ^ n → x < 256 ^ n → c < 256 ^ n →
    let sg := fun (v : Nat) => if 2 * v < 256 ^ n then (v : Int) else v - 256 ^ n
    let new := (amoResult op n old x c).1
    (op = 0 → new = (old + x) % 256 ^ n) ∧ (op = 1 → sg new = min (sg old) (sg x)) ∧ (op = 2 → sg new = max (sg old) (sg x)) ∧
    (op = 3 → new = min old x) ∧ (op = 4 → new = max old x) ∧ (op = 5 → new = old &&& x) ∧ (op = 6 → new = old ||| x) ∧
    (op = 7 → new = old ^^^ x) ∧ (op = 8 → new = x) ∧ (op = 9 → new = if old = c then x else old) ∧
    (op = 10 → new = (fpAdd 2 0 old x).1) ∧ (op = 11 → new = (fpAdd 3 0 old x).1)) ∧
  (∀ (s : State) (r : Request) (n off : Nat), field r.addr 62 2 = 0 → 1 ≤ n → off = field r.addr 0 19 →
    let x := field r.addr 52 9
    let y := field r.addr 44 8
    portPlace s r n = if off < 0x60000 ∧ (windowOf s x y).2 < off + n then .error 0x09
      else if 0x60000 < off + n ∧ r.priv = false then .error 0x0A
      else .ok (if off < 0x60000 then (windowOf s x y).1 + off else off)) ∧
  (∀ (s : State) (k win : Nat) (tag : Option Nat) (r : Request) (l : List Request), s.ev.x = k →
    (coreOf s k).portq = r :: l → r.kind = .publish win tag → win < 8 → twinOf s r.cx = none →
    Runs .publishFlip s fun t => (coreOf t k).portq = l ∧ TagSet s t r.cx tag ∧ SameMemory s t ∧
      ∀ j < 8, vget (coreOf t k).pubw j 0 = if j = win ∧ (vget (coreOf s k).pubw j 0).getLsbD 63 = true
        then vget (coreOf s k).pubw j 0 ^^^ (1#64 <<< 62) else vget (coreOf s k).pubw j 0) ∧
  (∀ (s : State) (k at_ : Nat), s.ev.x = k → s.ev.y = at_ →
    let now := clusterCycles s (clusterKey k)
    let due := fun (n : Nat) => s.now + max 1 (ticksOf s k (n - now))
    let next := at_ + 2 ^ max 10 ((coreOf s k).bucket.toNat / 2 ^ 8 % 32)
    (now < at_ → Runs .bucketLeak s fun t => t = { s with agenda := t.agenda } ∧ Later t .bucketLeak k at_ (due at_)) ∧
    (at_ ≤ now → (coreOf s k).bucket.toNat % 256 ≠ 0 → Runs .bucketLeak s fun t =>
      coreOf t k = { coreOf s k with bucket := (coreOf s k).bucket - 1, leakAt := some at_ } ∧ SameMemory s t ∧
        (1 < (coreOf s k).bucket.toNat % 256 → Later t .bucketLeak k next (due next))))

/-- R147, R162 to R166, R169, R170 (05_core_memory), R205, R206 (07_core_failures): the engine of a read stream fetches the element that
its nest names, with its sideband; that of a write stream writes its oldest element there, those of a binding that has been replaced
or unbound first; both step the nest; an address struck twice stops the stream with a machine check; a drain that is met sets its
tag; a copy engine reads a unit of at most 64 bytes whole, then writes it, row after row, and sets the tag when every byte is
performed. Where it rests on the model's own choices, they are log entries 48, 52, 92 and 98. -/
def Obligations.StreamAndCopyEnginesMove : Prop :=
  (∀ (st : Stream), (∀ j < 4, 1 ≤ vget st.cnt j 1) → (∀ j < 4, vget st.idx j 0 < vget st.cnt j 1) →
    let at_ : Int := st.base + ((List.range 4).map (fun j => ((vget st.idx j 0 : Nat) : Int) * (vget st.str j 0).toInt)).sum
    let place := fun (u : Stream) => vget u.idx 0 0 + vget st.cnt 0 1 * (vget u.idx 1 0 + vget st.cnt 1 1 *
      (vget u.idx 2 0 + vget st.cnt 2 1 * vget u.idx 3 0))
    let size := vget st.cnt 0 1 * vget st.cnt 1 1 * vget st.cnt 2 1 * vget st.cnt 3 1
    (0 ≤ at_ → (elementAt st : Int) = at_) ∧
    (place st + 1 < size → place (stepNest st) = place st + 1 ∧ stepNest st = { st with idx := (stepNest st).idx } ∧
      ∀ j < 4, vget (stepNest st).idx j 0 < vget st.cnt j 1) ∧
    (place st + 1 = size → stepNest st = { st with done := true }) ∧
    part (elementSb st) 0 3 = st.fmt.toNat ∧ part (elementSb st) 3 2 = 0 ∧
    part (elementSb st) 5 1 = (if place st + 1 = size then 1 else 0) ∧
    (∀ k < 4, (elementSb st).getLsbD (6 + k) = true ↔ ∀ j ≤ k, vget st.idx j 0 + 1 = vget st.cnt j 1) ∧
    part (elementSb st) 10 1 = (if st.fm then 1 else 0) ∧ part (elementSb st) 39 1 = (if st.esz = 3 then 1 else 0) ∧
    part (elementSb st) 11 28 = 0) ∧
  (∀ (s : State) (k c q : Nat), s.ev.x = k → s.ev.y = c → s.ev.z = q → c < 4 → q < 4 →
    let st := streamOf s k c q
    let x := ctxOf s k c
    let n := elementSize st.esz
    let off := windowed s x.lx x.ly (elementAt st)
    let placeOf := fun (b : Stream) i => portOffset s k (windowed s x.lx x.ly (elementAt b) + i) false
    let place := placeOf st
    let struck := (coreOf s k).upsets.count (4 * c + q)
    let checked := fun (t : State) => SameMemory s t ∧ streamOf t k c q = { st with paused := true } ∧
      (eligible x = true → ∃ o, o ≠ residue7 (elementAt st) ∧ (ctxOf t k c).checks = x.checks ++ [(q, residue7 (elementAt st), o)]) ∧
      (eligible x = false → ∃ r, (coreOf t k).traps = (coreOf s k).traps ++ [(c, r)] ∧ field r.w0 56 8 = 0x02 ∧ field r.w0 54 2 = 2 ∧
        field r.w0 28 3 = 7 ∧ r.w3.toNat = q)
    let left := fun (b : Stream) (r : List V512) =>
      { (if b.done then b else stepNest b) with queued := r, drains := b.drains.map (fun d => (d.1, d.2 - 1)) }
    let old := oldBinding x q
    (st.bound = true → st.dir = false → st.paused = false → st.done = false → st.fetched.length < 64 → old = none → 2 ≤ struck →
      Runs .streamFetch s checked) ∧
    (st.bound = true → st.dir = true → st.paused = false → st.unbinding = false → st.queued ≠ [] → old = none → 2 ≤ struck →
      Runs .streamWrite s checked) ∧
    (st.bound = true → st.dir = false → st.paused = false → st.done = false → st.fetched.length < 64 → old = none → struck = 0 →
      (portBad s k off n = false → Runs .streamFetch s fun t => SameMemory s t ∧
        streamOf t k c q = { stepNest st with
          fetched := st.fetched ++ [{ sb := elementSb st, pay := ofBytes (portRead s k off n), src := none }] }) ∧
      (portBad s k off n = true → Runs .streamFetch s fun t => RollsBack s t x.region 0x07 ∧ streamOf t k c q = st)) ∧
    (∀ v r, st.bound = true → st.dir = true → (st.paused = false ∨ st.unbinding = true) → st.queued = v :: r → old = none → struck = 0 →
      Unlogged s k →
      (st.done = false → Places n place → Runs .streamWrite s fun t => StoredAt s t k n place v.toNat ∧
        streamOf t k c q = left st r) ∧
      (st.done = true → Runs .streamWrite s fun t => SameMemory s t ∧ streamOf t k c q = left st r)) ∧
    (∀ o v r, old = some o → o.queued = v :: r → o.done = false → struck = 0 → Unlogged s k →
      Places (elementSize o.esz) (placeOf o) → Runs .streamWrite s fun t =>
        StoredAt s t k (elementSize o.esz) (placeOf o) v.toNat ∧ streamOf t k c q = st ∧
          (r ≠ [] → oldBinding (ctxOf t k c) q = some (left o r)) ∧
          (r = [] → (ctxOf t k c).oldq.length + 1 = x.oldq.length)) ∧
    (st.bound = true → st.dir = true → st.unbinding = true → st.queued = [] → old = none → Runs .streamWrite s fun t =>
      SameMemory s t ∧ (streamOf t k c q).bound = false ∧
        (∀ n < 64, (ctxOf t k c).tb.getLsbD n = true ↔ x.tb.getLsbD n = true ∨ ∃ d ∈ st.drains, d.1 = n ∧ d.2 = 0)) ∧
    (let met := fun (d : Nat × Nat) => (st.dir = true ∧ d.2 = 0) ∨ (st.dir = false ∧ st.done = true)
     Runs .streamDrainTag s fun t => SameMemory s t ∧
      (∀ n < 64, (ctxOf t k c).tb.getLsbD n = true ↔ x.tb.getLsbD n = true ∨ ∃ d ∈ st.drains, d.1 = n ∧ met d) ∧
      (∀ d, d ∈ (streamOf t k c q).drains ↔ d ∈ st.drains ∧ ¬ met d))) ∧
  (∀ (s : State) (ck e : Nat) (j : CopyJob), s.ev.x = ck → s.ev.y = e → e < 2 →
    (vget (clusterOf s ck).cq e []).find? (fun i => i.cmd.id == s.ev.z) = some j →
    (vget (clusterOf s ck).cq e []).find? (fun i => i.cmd.cx == j.cmd.cx) = some j →
    let (src, dst, len, rows) := copyRow j.cmd.op j.row
    let n := min 64 (len - j.pos)
    let q := commandQueue s j.cmd
    let rowed := fun (t : State) (j2 : CopyJob) => j2 ∈ vget (clusterOf t ck).cq e []
    isParked s j.cmd.id = false → gangAway s j.cmd.cx = false →
    (j.row < rows → j.unit = none → unitBehind s j.cmd q (src + BitVec.ofNat 64 j.pos) n = true →
      Runs .copyUnit s fun t => PutOff s t .copyUnit) ∧
    (j.row < rows → j.unit = none → unitBehind s j.cmd q (src + BitVec.ofNat 64 j.pos) n = false →
      (∀ bs u, gather s j.cmd.core q (src + BitVec.ofNat 64 j.pos) n = (.got bs, u) →
        Runs .copyUnit s fun t => rowed t { j with unit := some bs } ∧ SameMemory u t ∧ LaterOf t .copyUnit ck e j.cmd.id) ∧
      (∀ code u, gather s j.cmd.core q (src + BitVec.ofNat 64 j.pos) n = (.failed code, u) →
        Runs .copyUnit s fun t => ¬ rowed t j ∧ FailsCommand u t j.cmd code) ∧
      (∀ u, gather s j.cmd.core q (src + BitVec.ofNat 64 j.pos) n = (.error, u) →
        Runs .copyUnit s fun t => ¬ rowed t j ∧ (regionOf t (commandRegion u j.cmd)).error = some 0x07)) ∧
    (∀ bs u v, j.row < rows → j.unit = some bs → scatter s j.cmd q (dst + BitVec.ofNat 64 j.pos) bs = (.got v, u) →
      Runs .copyUnit s fun t => SameMemory u t ∧
        (j.pos + n < len → rowed t { j with pos := j.pos + n, unit := none } ∧ LaterOf t .copyUnit ck e j.cmd.id) ∧
        (len ≤ j.pos + n → j.row + 1 < rows → rowed t { j with row := j.row + 1, pos := 0, unit := none } ∧
          LaterOf t .copyUnit ck e j.cmd.id) ∧
        (len ≤ j.pos + n → rows ≤ j.row + 1 → LaterOf t .copyComplete ck e j.cmd.id)) ∧
    (rows ≤ j.row → writesOut s j.cmd.id = false → twinOf s j.cmd.cx = none → Runs .copyComplete s fun t =>
      TagSet s t j.cmd.cx j.cmd.tag ∧ ¬ rowed t j ∧ SameMemory s t) ∧
    (rows ≤ j.row → writesOut s j.cmd.id = true → Runs .copyComplete s fun t => PutOff s t .copyComplete))

/-- R177 to R179, R181, R184, R185, R194, R197 to R202 (06_core_basin), R97, R107, R108 (03_core_numbers): a free array is granted
to the next command of one core by weighted round robin, that of the core whose command runs once it has made its last array step;
the granted command has its effect on its slot, element by element, on its context's chains or check settings, or delivers rows;
then its entry is free. An uncorrectable tile withholds the command; a byte stored since the command's commit is found or not.
Where it rests on the model's own choices, they are log entries 18, 24, 25, 26 and 96. -/
def Obligations.BasinCommandsAct : Prop :=
  (∀ (s0 : State) (b port used w : Nat), s0.ev.x = b →
    let s := if s0.ev.z = 1 then setCore s0 s0.ev.y { coreOf s0 s0.ev.y with stepping := false } else s0
    vget (clusterOf s (b / 12)).arb (b % 12) (0, 0, 1) = (port, used, w) → port < 8 →
    let core := fun p => basinCore s b p
    let busy := fun p => (coreOf s (core p)).granted ≠ 0
    let free := ∀ p < 8, busy p → (coreOf s (core p)).stepping = false
    let ready := fun p => grantable s (core p) = true
    let alone := fun p => ∀ j < 8, busy j → core j = core p
    let given := fun (p u v : Nat) => (alone p → Runs .basinGrant s0 fun t => ∃ c,
        (coreOf s (core p)).bq[(coreOf s (core p)).granted]? = some c ∧
        (coreOf t (core p)).granted = (coreOf s (core p)).granted + 1 ∧ (coreOf t (core p)).stepping = true ∧
        (coreOf t (core p)).bq = (coreOf s (core p)).bq ∧ SameMemory s t ∧
        vget (clusterOf t (b / 12)).arb (b % 12) (0, 0, 1) = (p, u, v) ∧
        (c.cx < 4 → (ctxOf t (core p) c.cx).replies = (ctxOf s (core p) c.cx).replies + creditsOf (ctxOf s (core p) c.cx) c) ∧
        Later t .basinCommandComplete (core p) 0 (s.now + ticksOf s (core p) (commandCycles c)) ∧
        ∀ n, arrayCycles c = some n → Later t .basinGrant b (core p) (s.now + ticksOf s (core p) n)) ∧
      (¬ alone p → exec .basinGrant s0 = .next s)
    (¬ free → exec .basinGrant s0 = .next s) ∧
    (free → (∀ p < 8, ¬ ready p) → exec .basinGrant s0 = .next s) ∧
    (free → ready port → used < w → given port (used + 1) w) ∧
    (∀ d, free → (¬ ready port ∨ w ≤ used) → 1 ≤ d → d ≤ 8 →
      ready ((port + d) % 8) → (∀ i < d, 1 ≤ i → ¬ ready ((port + i) % 8)) →
      given ((port + d) % 8) 1 (max 1 (coreOf s (core ((port + d) % 8))).bwgt.toNat))) ∧
  (∀ (s : State) (k : Nat) (b : BasinCmd) (r : List BasinCmd), s.ev.x = k → (coreOf s k).bq = b :: r → b.cx < 4 →
    (coreOf s k).granted ≠ 0 → (coreOf s k).deliv = none →
    let x := ctxOf s k b.cx
    let other := fun (t : State) (a : Nat) => ∀ j < 8, j ≠ a → slotAcc t k j = slotAcc s k j
    (∀ acc ty, b.op = .accz acc ty → acc < 8 → Runs .basinCommandComplete s fun t =>
      BasinEnds s t k b r ∧ slotAcc t k acc = { AccSlot.reset with ty := ty } ∧ other t acc ∧ SameMemory s t) ∧
    (∀ acc ty first rows src, b.op = .accwr acc ty first rows src → acc < 8 → first + rows ≤ 16 →
      localBad s k b.cx 4 src (64 * rows) = false → Runs .basinCommandComplete s fun t =>
        BasinEnds s t k b r ∧ other t acc ∧ SameMemory s t ∧ (slotAcc t k acc).ty = ty ∧
        (∀ i < 16, vget (slotAcc t k acc).rows i 0 = if first ≤ i ∧ i < first + rows
          then BitVec.ofNat 512 (localNat s k b.cx 4 src (64 * rows) / 2 ^ (512 * (i - first))) else vget (slotAcc s k acc).rows i 0) ∧
        (slotAcc t k acc).poison = (if rows = 16 then false else (slotAcc s k acc).poison)) ∧
    (∀ ch d, b.op = .epicfg ch d → 1 ≤ ch → ch ≤ 15 → Runs .basinCommandComplete s fun t =>
      BasinEnds s t k b r ∧ (∀ j, chainOf (ctxOf t k b.cx) j = if j = ch ∨ (j = 0 ∧ ch = 1) then d else chainOf x j) ∧
        SameMemory s t) ∧
    (∀ en corr, b.op = .abftcfg en corr → Runs .basinCommandComplete s fun t => BasinEnds s t k b r ∧
      (ctxOf t k b.cx).abftEn = en ∧ (ctxOf t k b.cx).abftCorr = corr ∧ SameMemory s t) ∧
    (∀ acc rt first rows ep clr, b.op = .accrd acc rt first rows ep clr → Runs .basinCommandComplete s fun t => SameMemory s t ∧
      (coreOf t k).bq = b :: r ∧ ∃ d, (coreOf t k).deliv = some d ∧ d.cx = b.cx ∧ d.acc = acc ∧ d.ep = ep ∧ d.first = first ∧
        d.next = 0 ∧ d.rows = rows ∧ d.clr = clr ∧ d.rt.toNat = rt % 64 ∧
        d.cols = (if (slotAcc s k acc).ty = .fp64 then 8 else 16)) ∧
    (∀ op acc af bf kk m n z bt ep ta tb, b.op = .mma op acc af bf kk m n z bt ep ta tb →
      (tilesBad s k b.cx op af bf kk m n ta tb = true → Runs .basinCommandComplete s fun t =>
        RollsBack s t x.region 0x07 ∧ (coreOf t k).bq = b :: r ∧ other t 8) ∧
      (acc < 8 → op ≤ 4 → m ≤ 16 → n ≤ (if af = 1 then 8 else 16) → groupInjected (coreOf s k) b = false →
        tilesBad s k b.cx op af bf kk m n ta tb = false → op ≠ 2 → op ≠ 3 →
        let ts := readTiles s k b.cx op af bf kk m n bt ta tb
        let w := if af = 1 then 64 else 32
        Runs .basinCommandComplete s fun t => SameMemory s t ∧ other t acc ∧
          (slotAcc t k acc).ty = (if af = 1 then .fp64 else .fp32) ∧
          (∀ i < 16, ∀ j < 512 / w, elem (slotAcc t k acc) w i j = if i < m ∧ j < n
            then grouped ts (op = 4) b.fm af bf kk i j (if op = 1 ∨ z = true then 0 else elem (slotAcc s k acc) w i j)
            else if op = 1 then 0 else elem (slotAcc s k acc) w i j) ∧
          (ep = 0 → BasinEnds s t k b r) ∧
          (ep ≠ 0 → ∃ d, (coreOf t k).deliv = some d ∧ d.acc = acc ∧ d.ep = ep ∧ d.rows = m ∧ d.cols = n ∧ d.first = 0)) ∧
      (acc < 8 → (op = 2 ∨ op = 3) → m ≤ 16 → n ≤ 16 → tilesBad s k b.cx op af bf kk m n ta tb = false →
        let ts := readTiles s k b.cx op af bf kk m n bt ta tb
        Runs .basinCommandComplete s fun t => SameMemory s t ∧ other t acc ∧ (slotAcc t k acc).ty = .int32 ∧
          (∀ i < 16, ∀ j < 16,
            let e := elem (slotAcc s k acc) 32 i j
            let sum : Int := ((List.range kk).map (fun q =>
              weight false (ts.a i q % 256) * weight (op = 2) (if op = 2 then ts.b q j else ts.b q j % 256))).sum
            let new : Int := ((if z then 0 else e : Nat) : Int) + sum
            elem (slotAcc t k acc) 32 i j = if i < m ∧ j < n then (new % 4294967296).toNat else e) ∧
          (ep = 0 → BasinEnds s t k b r)))) ∧
  (∀ (s : State) (k c op af bf kk m n : Nat) (bt : Bool) (oa sa ob sb : Nat),
    let ts := readTiles s k c op af bf kk m n bt (.mem oa sa) (.mem ob sb)
    let wa := widthOf (BitVec.ofNat 3 af) false
    let wb := widthOf (BitVec.ofNat 3 bf) (op = 2)
    (∀ i q, ts.a i q = localNat s k c 0 oa (m * kk * wa / 8) / 2 ^ ((i * kk + q) * wa) % 2 ^ wa) ∧
    (∀ q j, ts.b q j = localNat s k c 1 ob ((kk * n * wb + 7) / 8) / 2 ^ ((if bt then j * kk + q else q * n + j) * wb) % 2 ^ wb)) ∧
  (∀ (s : State) (k operand p : Nat) (b : BasinCmd) (r : List BasinCmd), (coreOf s k).bq = b :: r → p < 0x60000 →
    let seen := (seenByte s k operand p).1
    (seen = memByte (coreOf s k).mem p ∨ ∃ o ∈ b.old, o.1 = p ∧ seen = o.2.1) ∧
      ((∀ o ∈ b.old, o.1 ≠ p) → seen = memByte (coreOf s k).mem p)) ∧
  (∀ (s : State) (k c operand off n i : Nat), i < n →
    localNat s k c operand off n / 256 ^ i % 256 =
      (seenByte s k operand (portOffset s k (windowed s (ctxOf s k c).lx (ctxOf s k c).ly off + i) false)).1.toNat)

/-- R184, R191, R197, R200, R201 (06_core_basin): a row of a slot is delivered to rp as a token, or through a chain, with the poison code in
place of the value of a poisoned slot, or stored at the chain's local base; after the last row the command ends. A read pin that
clears lets a release that waits take effect. -/
def Obligations.RowsAreDelivered : Prop :=
  (∀ (s : State) (k : Nat) (d : Delivery) (b : BasinCmd) (r : List BasinCmd), s.ev.x = k → (coreOf s k).deliv = some d →
    (coreOf s k).bq = b :: r → b.cx = d.cx → d.cx < 4 → d.acc < 8 →
    let a := slotAcc s k d.acc
    let x := ctxOf s k d.cx
    let row := d.first + d.next
    let token := fun (t : State) (rt : BitVec 6) (f : Nat) (v : Nat) =>
      ∃ tok, vget (ctxOf t k d.cx).inq 4 [] = vget x.inq 4 [] ++ [tok] ∧
        tok.pay.toNat = (if a.poison then a.code.toNat else v) ∧ part tok.sb 13 6 = rt.toNat ∧
        part tok.sb 3 1 = (if d.next = 0 then 1 else 0) ∧ part tok.sb 4 1 = (if d.next + 1 = d.rows then 1 else 0) ∧
        part tok.sb 5 1 = (if a.poison then 1 else 0) ∧ part tok.sb 39 1 = 1 ∧ part tok.sb 0 3 = f
    let goes := fun (t : State) =>
      (d.next + 1 = d.rows → BasinEnds s t k b r) ∧
      (d.next + 1 ≠ d.rows → (coreOf t k).bq = b :: r ∧ (coreOf t k).deliv = some { d with next := d.next + 1 }) ∧
      (∀ i < 16, vget (slotAcc t k d.acc).rows i 0 = if d.clr = true ∧ i = row then 0 else vget a.rows i 0)
    (Runs .accrdRowDelivery s fun t => goes t ∧ SameMemory s t ∧
      token t d.rt (match a.ty with | .int32 => 0 | .fp64 => 1 | _ => 2) (vget a.rows row 0).toNat) ∧
    (let e := chainOf x d.ep
     let f := chainFormat e
     let v := (chainRow s k d e).1
     let pitch := (d.cols * fpWidth f + 7) / 8
     let off := windowed s x.lx x.ly (fieldD e 224 19 + d.next * pitch)
     let place := fun i => portOffset s k (off + i) false
     (chainBad s k d e = true → Runs .epilogueRowDelivery s fun t => RollsBack s t x.region 0x07 ∧ SameMemory s t) ∧
     (chainBad s k d e = false → fieldD e 255 1 = 0 → v < 2 ^ 512 → f < 8 → Runs .epilogueRowDelivery s fun t => goes t ∧ SameMemory s t ∧
       token t (BitVec.ofNat 6 (fieldD e 248 6)) f v) ∧
     (chainBad s k d e = false → fieldD e 255 1 = 1 → a.poison = true → Runs .epilogueRowDelivery s fun t => goes t ∧ SameMemory s t ∧
       (ctxOf t k d.cx).tb = x.tb) ∧
     (chainBad s k d e = false → fieldD e 255 1 = 1 → a.poison = false → Unlogged s k → Places pitch place → off + pitch ≤ 0x60000 →
       Runs .epilogueRowDelivery s fun t => goes t ∧ StoredAt s t k pitch place v ∧
       (ctxOf t k d.cx).tb = if d.next + 1 = d.rows ∧ fieldD e 247 1 = 1 then x.tb ||| (1#64 <<< fieldD e 248 6) else x.tb))) ∧
  (∀ (s : State) (k : Nat) (d : Delivery) (e : BitVec 256), fpWidth (chainFormat e) ∈ [4, 8, 16, 32] → d.cols ≤ 16 →
    let a := slotAcc s k d.acc
    let w := if a.ty = .fp64 then 64 else 32
    let row := d.first + d.next
    let addend := fun (st off n : Nat) => if st ∈ stagesOf e then localNat s k d.cx (st + 3) off 64 / 2 ^ (32 * n) % 2 ^ 32 else 0
    ∀ n < d.cols, (∀ i < d.cols, (chainElement e d.fm a.ty (addend 2 (fieldD e 64 32) i) (addend 3 (fieldD e 96 32 + 64 * row) i)
        (elem a w row i)).1 < 2 ^ fpWidth (chainFormat e)) →
      (chainRow s k d e).1 / 2 ^ (fpWidth (chainFormat e) * n) % 2 ^ fpWidth (chainFormat e) =
        (chainElement e d.fm a.ty (addend 2 (fieldD e 64 32) n) (addend 3 (fieldD e 96 32 + 64 * row) n) (elem a w row n)).1) ∧
  (∀ (e : BitVec 256) (fm : Bool) (bias res v : Nat), v < 2 ^ 32 →
    let out := (chainElement e fm .fp32 bias res v).1
    let nan := (fpDecode 2 false v).isNaN = true
    (stagesOf e = [] → out = v) ∧ (stagesOf e = [1] → out = (fpMul 2 0 v (fieldD e 32 32)).1) ∧ (stagesOf e = [2] → out = (fpAdd 2 0 v bias).1) ∧
    (stagesOf e = [3] → out = (fpAdd 2 0 v res).1) ∧
    (stagesOf e = [4] → out = if nan then 0x7FC00000 else if 2 ^ 31 ≤ v then 0 else v) ∧
    (stagesOf e = [5] → out = if nan then 0x7FC00000
      else (fpMinMax 2 false (fpMinMax 2 true v (fieldD e 128 32)).1 (fieldD e 160 32)).1) ∧
    (stagesOf e = [1, 2, 4] →
      let y := (fpAdd 2 0 (fpMul 2 0 v (fieldD e 32 32)).1 bias).1
      out = if (fpDecode 2 false y).isNaN then 0x7FC00000 else if 2 ^ 31 ≤ y then 0 else y)) ∧
  (∀ (s : State) (k p i : Nat), s.ev.x = k → s.ev.y = p → s.ev.z = i → 4 * p + i < 8 →
    let y := vget (coreOf s k).rx (4 * p + i) RxSlot.reset
    Runs .slotPinClear s fun t => SameMemory s t ∧
      vget (coreOf t k).rx (4 * p + i) RxSlot.reset = if y.rel then RxSlot.reset else { y with pin := false })

/-- R233 to R242 (08_cluster), R282, R284 to R286 (10_die), R155, R174 (05_core_memory), R249: a router forwards the head flit of
an input by its table, out of the network, into the next router's buffer or into the cistern between two VF regions, waiting where
there is no place, the output is another's, or the weir holds; atomics that match are merged, and the old value is split at the
same router; acknowledgements travel on CTL and lower a source's counts, at zero a switch or a new binding takes effect; a
context's outbound order leaves item by item as its fences allow. Where it rests on the model's own choices, they are log entries
53, 55, 57, 101, 102 and 103. -/
def Obligations.MeshMovesFlits : Prop :=
  (∀ (s : State) (k : Nat) (f : Flit), outputPort s k f =
    if f.dst / 256 ≠ k / 256 then routeEntry s k (0x400 * f.bank + f.dst / 256) else routeEntry s k (0x400 * f.bank + 0x200 + f.dst % 256)) ∧
  (∀ (s : State) (k port cls : Nat) (f : Flit), s.ev.x = k → s.ev.y = port → s.ev.z = cls →
    let stays := fun (t : State) => t.flits = s.flits ∧ LaterOf t .flitHop k port cls
    (s.ev.v = 1 → Head s k port cls true f →
      (f.ready ≤ s.now → clockStopped s k = false → bufferFree s k port cls = true → Runs .flitHop s fun t => SameMemory s t ∧
        Moves s t f (some { f with cistern := false, reserved := false, ready := s.now + ticksOf s k 1 }) ∧
        LaterOf t .flitHop k port cls) ∧
      (s.now < f.ready ∨ clockStopped s k = true ∨ bufferFree s k port cls = false → Runs .flitHop s fun t => stays t)) ∧
    (s.ev.v ≠ 1 → s.ev.v ≠ 2 → Head s k port cls false f → (cls = 0 → mergeHeads s k port = none) →
      let held := s.now < f.ready ∨ clockStopped s k = true ∨ weirHolds s k port cls = true ∨ (cls = 0 ∧ portHeld s k port = true)
      let out := outputPort s k f
      (held → Runs .flitHop s fun t => stays t) ∧
      (¬ held →
        (asleep s k f = true → Runs .flitHop s fun t => Later t .retentionExitStart (clusterKey k) 0 s.now ∧
          (let wake := (clusterOf s (clusterKey k)).wake
           if cls = 3 ∧ wake.length < 4 then Moves s t f none ∧ (clusterOf t (clusterKey k)).wake = wake ++ [f] else stays t)) ∧
        (asleep s k f = false → outputTaken s k out cls = true → Runs .flitHop s fun t => stays t) ∧
        (asleep s k f = false → outputTaken s k out cls = false →
          (out = 0 → Runs .flitHop s fun t => SameMemory s t ∧
            (coreOf t k).owed = (coreOf s k).owed ++ (ackSources s f).map (fun j => (j, cls)) ∧
            ((∀ r, f.body ≠ .request r) → (∀ a b c d e g h, f.body ≠ .partials a b c d e g h) →
              Moves s t f none ∧
              ∃ m ∈ t.msgs, m.id = s.nextId ∧ m.src = f.orig ∧ m.body = f.body ∧
                m.dst = (match f.body with
                  | .vote _ _ _ _ _ => dieKey k | .memberAck _ _ _ _ => dieKey k | .branchAck _ _ _ => dieKey k | _ => k) ∧
                Later t (takeStep f.body) s.nextId 0 s.now) ∧
            (∀ tree v op vec all fm bad, f.body = .partials tree v op vec all fm bad → Moves s t f none ∧
              (coreOf t k).redIn = (coreOf s k).redIn ++ [⟨tree, partialInput k f.src, v, op, vec, all, fm, bad⟩] ∧
              Later t .confluenceCombine k tree s.now) ∧
            (∀ r, f.body = .request r → f.src = f.orig →
              (msgsBetween s f.orig k 0 = [] → lagging s f.orig k 0 = false →
                (movedTo s k r = none → Moves s t f none ∧ (coreOf t k).portq = (coreOf s k).portq ++ [r] ∧
                  Later t (serveStep r) k 0 s.now ∧
                  (coreOf t k).rcvd = (coreOf s k).rcvd + BitVec.ofNat 64 (leaves s r (mergeDepth s)).length) ∧
                (∀ j, movedTo s k r = some j → ∃ g, Moves s t f (some g) ∧ g.cls = 0 ∧ g.src = k ∧ g.dst = j ∧ g.orig = f.orig ∧
                  g.body = .request r)) ∧
              (msgsBetween s f.orig k 0 ≠ [] ∨ lagging s f.orig k 0 = true → Moves s t f none ∧
                (coreOf t k).portq = (coreOf s k).portq ∧ ∃ m ∈ t.msgs, m.id = s.nextId ∧ m.src = f.orig ∧ m.dst = k ∧
                  m.body = .request r))) ∧
          (∀ next, out ≠ 0 → neighbour k out = some next →
            let into := { f with at_ := next, port := inputPort out, cistern := false, reserved := false }
            let queue := fun (reserved : Bool) =>
              (s.flits.filter (fun g => g.at_ == next && g.port == inputPort out && g.cistern && g.reserved == reserved &&
                (!reserved || g.cls == cls))).length
            let low := queue false < cisternDepth s k next out
            let room := queue true < (if cls = 3 then 4 else 2)
            (crosses s k next = false → bufferFree s next (inputPort out) cls = true → Runs .flitHop s fun t =>
              SameMemory s t ∧ Moves s t f (some { into with ready := s.now + ticksOf s k 2 }) ∧
                LaterOf t .flitHop next (inputPort out) cls) ∧
            (crosses s k next = false → bufferFree s next (inputPort out) cls = false → Runs .flitHop s fun t => stays t) ∧
            (crosses s k next = true → linkUp s k next out = false → Runs .flitHop s fun t => stays t) ∧
            (crosses s k next = true → linkUp s k next out = true →
              (low ∨ room → Runs .flitHop s fun t =>
                Moves s t f (some { into with cistern := true, reserved := decide (¬ low), ready := s.now + cisternDelay s k next out }) ∧
                LaterOf t .flitHop next (inputPort out) cls) ∧
              (¬ low → ¬ room → Runs .flitHop s fun t => stays t ∧
                (let (last, run) := vget (coreOf s k).refused out (0, 0)
                 (vget (dieOf t (dieKey k)).cnt 1 0).toNat = more (vget (dieOf s (dieKey k)).cnt 1 0)
                   (if run = 0 then 1 else clusterCycles s (clusterKey k) - last))))))))) ∧
  (∀ (s : State) (k port p : Nat) (f g : Flit) (r q : Request) (o z : Nat) (x y cx cy : W64), s.ev.x = k → s.ev.y = port →
    s.ev.z = 0 → s.ev.v ≠ 1 → s.ev.v ≠ 2 → port < 5 → p < 5 → p ≠ port → Head s k port 0 false f → Head s k p 0 false g →
    f.body = .request r → g.body = .request q → f.bank = g.bank → r.kind = .amo o z x cx → q.kind = .amo o z y cy → o ≤ 7 →
    r.addr = q.addr → splitOf s r.id = none → splitOf s q.id = none → r.core ≠ q.core →
    (∀ j < 5, j ≠ port → j ≠ p → flitsAt s k j 0 false = []) → Runs .flitHop s fun t =>
      ∃ m sp, sp ∈ (coreOf t k).splits ∧ (port < p → sp.first = r ∧ sp.second = q) ∧ (p < port → sp.first = q ∧ sp.second = r) ∧
        sp.id = m.id ∧ (∃ h ∈ t.flits, h.body = .request m ∧ h.at_ = k ∧ h.port = min port p) ∧ m.addr = r.addr ∧
        m.rpy = (r.rpy || q.rpy) ∧ t.flits.length + 1 = s.flits.length ∧ portHeld t k (max port p) = true ∧
        (∃ w, m.kind = .amo o z (BitVec.ofNat 64 (amoResult o z (if port < p then x else y).toNat (if port < p then y else x).toNat 0).1) w) ∧
        (vget (clusterOf t (clusterKey k)).cnt 5 0).toNat = more (vget (clusterOf s (clusterKey k)).cnt 5 0) 1) ∧
  (∀ (s : State) (src k addr n : Nat) (tok : Token) (sp : Split) (o z d1 d2 : Nat) (x c : W64), Receives s src k (.reply addr n tok) →
    (coreOf s k).splits.find? (fun p => p.id == n) = some sp → sp.first.kind = .amo o z x c →
    splitOf s sp.first.id = none → splitOf s sp.second.id = none → sp.first.rpy = true → sp.second.rpy = true →
    coreOfAddr s sp.first.cx = some d1 → coreOfAddr s sp.second.cx = some d2 → (∀ w, sp.first.kind ≠ .read w) →
    (∀ w, sp.second.kind ≠ .read w) → Runs .replyArrival s fun t => Taken s t ∧ SameMemory s t ∧
      (∀ p ∈ (coreOf t k).splits, p.id ≠ sp.id) ∧
      ∃ f g u v, t.flits = s.flits ++ [f, g] ∧ f.src = k ∧ f.dst = d1 ∧ f.cls = 1 ∧ f.body = .reply sp.first.cx sp.first.id u ∧
        u.pay = tok.pay ∧ g.src = k ∧ g.dst = d2 ∧ g.cls = 1 ∧ g.body = .reply sp.second.cx sp.second.id v ∧
        v.pay = BitVec.ofNat 512 (amoResult o z tok.pay.toNat x.toNat 0).1) ∧
  (∀ (s : State) (k src : Nat), s.ev.x = k → s.ev.y = src → s.ev.v = 1 →
    let mine := ((coreOf s k).owed.filter (fun o => o.1 == src)).take 16
    (mine = [] → exec .deliveryAck s = .next s) ∧
    (mine ≠ [] → Runs .deliveryAck s fun t => SameMemory s t ∧ Sends s t 3 k src (.acks (mine.map (fun o => o.2))) ∧
      (coreOf t k).outst = (coreOf s k).outst ∧ (coreOf t k).owed.length + mine.length = (coreOf s k).owed.length)) ∧
  (∀ (s : State) (k src : Nat) (classes : List Nat), s.ev.v ≠ 1 → Receives s src k (.acks classes) →
    ((coreOf s k).outst.map (fun o => (o.1, o.2.1))).Nodup → Runs .deliveryAck s fun t => SameMemory s t ∧ Taken s t ∧
      (∀ a b, unacked (coreOf t k) a b = unacked (coreOf s k) a b - (if b = src then classes.count a else 0)) ∧
      (∀ cls ∈ classes, cls < 4 → (clusterOf s (clusterKey k)).rtSw = true → (∀ b, unacked (coreOf t k) cls b = 0) →
        Later t .routeClassSwitch k cls s.now) ∧
      (∀ e ∈ (coreOf s k).cmap, Later t .coreMapRebind k e.1 s.now)) ∧
  (∀ (s : State) (k cls : Nat), s.ev.x = k → s.ev.y = cls → cls < 4 →
    let c := clusterOf s (clusterKey k)
    (c.rtSw = false ∨ outstanding (coreOf s k) cls ≠ 0 → exec .routeClassSwitch s = .next s) ∧
    (c.rtSw = true → outstanding (coreOf s k) cls = 0 → Runs .routeClassSwitch s fun t => SameMemory s t ∧
      (∀ j < 4, (coreOf t k).bank.getLsbD j = if j = cls then c.rtAct else (coreOf s k).bank.getLsbD j) ∧
      ((∀ j ∈ clusterCores (clusterKey k), j ≠ k → (coreOf s j).bank.getLsbD cls = c.rtAct) →
        clusterOf t (clusterKey k) = { c with rtDone := c.rtDone ||| (1#4 <<< cls), rtSw := c.rtDone ||| (1#4 <<< cls) != 15 }) ∧
      ((∃ j ∈ clusterCores (clusterKey k), j ≠ k ∧ (coreOf s j).bank.getLsbD cls ≠ c.rtAct) →
        clusterOf t (clusterKey k) = c))) ∧
  (∀ (s : State) (k n : Nat) (e : W64), s.ev.x = k → s.ev.y = n →
    (coreOf s k).cmap.find? (fun p => p.1 == n) = some (n, e) →
    let old := 256 * field e 49 9 + field e 41 8
    (field e 63 1 = 1 → outstandingTo (coreOf s k) old ≠ 0 → exec .coreMapRebind s = .next s) ∧
    (field e 63 1 = 0 ∨ outstandingTo (coreOf s k) old = 0 → Runs .coreMapRebind s fun t =>
      coreOf t k = { coreOf s k with
        cmap := (coreOf s k).cmap.filter (fun p => p.1 != n), mapc := (coreOf s k).mapc.filter (fun p => p.1 != n) } ∧
      SameMemory s t)) ∧
  (∀ (s : State) (k c : Nat), s.ev.x = k → s.ev.y = c → Drains s k c →
    let x := ctxOf s k c
    let done := fun (t : State) => (ctxOf t k c).outbound = []
    (∀ p tok b dst y, x.outbound = [.token p tok] → p < 4 → vget x.binds p none = some b → boundAt s k b.x b.y = some (dst, y) →
      Runs .fenceReleaseTraffic s fun t => done t ∧ (coreOf t k).sent = (coreOf s k).sent + 1 ∧
        Sends s t 0 k dst (.token (ctxNumber b.x b.y b.cx) ((p + 2) % 4) { tok with src := some ⟨k, ctxAddr x, p⟩ })) ∧
    (∀ r dst y, x.outbound = [.req r] → field r.addr 62 2 = 0 → r.rpy = false → s.xops = [] → findCtx s r.cx = some (k, c) →
      boundAt s k (field r.addr 52 9) (field r.addr 44 8) = some (dst, y) → Runs .fenceReleaseTraffic s fun t => done t ∧
        Sends s t 0 k dst (.request r) ∧ (coreOf t k).sent = (coreOf s k).sent + 1 ∧ (ctxOf t k c).cpUsed = x.cpUsed - 1) ∧
    (∀ r, x.outbound = [.req r] → r.rpy = true → replyCredits s k c ≤ x.replies → Runs .fenceReleaseTraffic s fun t =>
      (ctxOf t k c).outbound = [.req r] ∧ t.flits = s.flits) ∧
    (∀ kind scope rest, x.outbound = .fence kind scope :: rest → (∀ i ∈ rest, ∃ q, i = .req q) → kind.getLsbD 1 = true →
      (∃ a ∈ x.pend, holdsRelease k scope a = true) → Runs .fenceReleaseTraffic s fun t =>
        (ctxOf t k c).outbound = x.outbound ∧ t.flits = s.flits) ∧
    (∀ kind scope, x.outbound = [.fence kind scope] → x.pend = [] → scope < 3 → Runs .fenceReleaseTraffic s fun t =>
      done t ∧ SameMemory s t ∧ t.flits = s.flits) ∧
    (∀ b timeout, x.outbound = [.arrive b timeout] →
      (Runs .fenceReleaseTraffic s fun t => (ctxOf t k c).outbound = x.outbound ∧ t.flits = s.flits) ∧
      ((∃ a ∈ x.pend, holdsArrival k a = true) → Runs .barrierArrivalLeave s fun t =>
        (ctxOf t k c).outbound = x.outbound ∧ t.flits = s.flits) ∧
      ((∀ a ∈ x.pend, holdsArrival k a = false) → Runs .barrierArrivalLeave s fun t => done t ∧
        Sends s t 2 k (256 * (13 * (k / 256 / 13) + 6) + 8 * (k % 256 / 8) + 4) (.barArrive b k (ctxAddr x) timeout)))) ∧
  (∀ (s : State) (k c : Nat), s.ev.x = k → s.ev.y = c → (coreOf s k).stopped = true →
    exec .fenceReleaseTraffic s = .next s ∧ exec .barrierArrivalLeave s = .next s)

/-- R243 to R247 (08_cluster): a router combines one generation of a tree once every input that its entry names is there, in the order
local, W, N, E, S; it sends the partial to its parent, or at the root answers the waiting contributions; contributions that
differ in operator, shape or format end the generation with a code; an upset of the adders is met by one recomputation, a second one
ends the generation. Where it rests on the model's own choice, that is log entry 98. -/
def Obligations.ConfluenceTreesCombine : Prop :=
  (∀ (s : State) (k tree : Nat) (x : RedIn) (r : List RedIn), s.ev.x = k → s.ev.y = tree →
    let e := vget (coreOf s k).trn tree 0
    let up := e.toNat / 32 % 8
    let inputs := redWanted e
    inputs.filterMap (redInput (coreOf s k) tree) = x :: r → (x :: r).length = inputs.length → e.getLsbD 15 = true → up ≤ 4 →
    let y := (r.foldl redStep (redValue x, 0, 0)).1
    (coreOf s k).redUpsets = 0 →
    (∀ next, up < 4 → neighbour k (up + 1) = some next → (∀ e ∈ s.region, e.2.dup = false) →
      Runs .confluenceCombine s fun t => SameMemory s t ∧
      Sends s t 2 k next (.partials tree y.val y.op y.vec y.all y.fm y.bad) ∧ Later t .confluenceCombine k tree s.now ∧
      (coreOf t k).redIn = dropInputs tree inputs (coreOf s k).redIn) ∧
    (∀ w dst, up = 4 → y.all = false → y.bad = 0 → (coreOf s k).redWait.find? (fun w => w.tree == tree) = some w → y.tree = tree →
      coreOfAddr s w.cx = some dst → Runs .confluenceCombine s fun t => SameMemory s t ∧
        ∃ tok, Sends s t 1 k dst (.reply w.cx w.id tok) ∧ tok.pay = y.val ∧ part tok.sb 13 6 = w.rt.toNat ∧ part tok.sb 5 1 = 0 ∧
          part tok.sb 39 1 = (if y.vec then 1 else 0))) ∧
  (∀ (s : State) (k tree : Nat), s.ev.x = k → s.ev.y = tree →
    let e := vget (coreOf s k).trn tree 0
    ((redWanted e).filterMap (redInput (coreOf s k) tree)).length ≠ (redWanted e).length →
      exec .confluenceCombine s = .next s) ∧
  (∀ (e : W16), redWanted e = (if e.getLsbD 14 then [0] else []) ++ (if e.getLsbD 8 then [1] else []) ++
    (if e.getLsbD 9 then [2] else []) ++ (if e.getLsbD 10 then [3] else []) ++ (if e.getLsbD 11 then [4] else [])) ∧
  (∀ (x : RedIn), x.vec = false → 8 ≤ x.op → x.op ≤ 10 → (redValue x).val.toNat = x.val.toNat % 2 ^ 32) ∧
  (∀ (x y : RedIn) (n m : Nat), x.bad = 0 → (redStep (x, n, m) y).1.bad = 0 →
    redChecked ((x, n, m), 1) y = (redStep (x, n, m) y, 0) ∧
      ∀ u, redChecked ((x, n, m), u + 2) y = (({ x with bad := 0x02 }, n, m), u)) ∧
  (∀ (x y : RedIn) (n m : Nat), x.bad = 0 →
    let z := (redStep (x, n, m) y).1
    (y.bad ≠ 0 → z.bad = y.bad) ∧
    (y.bad = 0 → (x.op ≠ y.op ∨ x.vec ≠ y.vec ∨ x.all ≠ y.all) → z.bad = 0x04) ∧
    (y.bad = 0 → x.op = y.op → x.vec = y.vec → x.all = y.all → x.fm ≠ y.fm → z.bad = 0x06) ∧
    (y.bad = 0 → x.op = y.op → x.vec = y.vec → x.all = y.all → x.fm = y.fm → z = { x with val := z.val } ∧
      (let w := if x.vec = false ∨ x.op = 11 then 64 else 32
       ∀ i, i < (if x.vec then 512 / w else 1) →
        let a := x.val.toNat / 2 ^ (w * i) % 2 ^ w
        let b := y.val.toNat / 2 ^ (w * i) % 2 ^ w
        let c := z.val.toNat / 2 ^ (w * i) % 2 ^ w
        (x.op ≤ 7 → c = (amoResult x.op (w / 8) a b 0).1) ∧ (x.op = 8 → c = (fpAdd 2 0 (a % 2 ^ 32) (b % 2 ^ 32)).1) ∧
        (x.op = 9 → c = (fpMinMax 2 true (a % 2 ^ 32) (b % 2 ^ 32)).1) ∧
        (x.op = 10 → c = (fpMinMax 2 false (a % 2 ^ 32) (b % 2 ^ 32)).1) ∧ (x.op = 11 → c = (fpAdd 1 0 a b).1))))

/-- R248 to R256, R258 (08_cluster), R227: barriers count arrivals and end their generations, at COUNT or at a deadline; pairing
buffers deliver, time out and abort; trap records go to their chain entry, are refused when its places are full, and pass to the
next; a cluster goes into retention when idle and still idle, and comes out of it when every parity bit agrees, or is lost. Where
it rests on the model's own choices, they are log entries 50, 58, 98, 100 and 103. -/
def Obligations.ClusterUnitsAct : Prop :=
  (∀ (s : State) (src dst k core addr timeout : Nat), Receives s src dst (.barArrive k core addr timeout) → k < 16 →
    let cl := clusterKey dst
    let b := vget (clusterOf s cl).bar k Barrier.reset
    let end_ := clusterCycles s cl + timeout
    let still := (coreOf s core).stopped
    (b.arr + 1 ≠ b.count → Runs .barrierArrival s fun t => SameMemory s t ∧ Taken s t ∧ t.flits = s.flits ∧
      vget (clusterOf t cl).bar k Barrier.reset = { b with
        arr := b.arr + 1, members := b.members ++ [(core, addr)],
        deadline := if timeout = 0 ∨ still = true then b.deadline
          else some (match b.deadline with | some d => min d end_ | none => end_)
        frozen := if timeout = 0 ∨ still = false then b.frozen
          else some (match b.frozen with | some d => min d timeout | none => timeout) } ∧
      (timeout ≠ 0 → Later t .bartTimeout cl k (s.now + vfTicks (vfOfCluster s cl) timeout))) ∧
    (b.arr + 1 = b.count → Runs .barrierArrival s fun t => SameMemory s t ∧ Taken s t ∧
      t.flits.length = s.flits.length + b.members.length + 1 ∧ (∀ m ∈ b.members ++ [(core, addr)], Told s t cl k false m) ∧
      vget (clusterOf t cl).bar k Barrier.reset = { b with
        arr := 0, gen := b.gen + 1, members := [], deadline := none, frozen := none })) ∧
  (∀ (s : State) (cl k d : Nat), s.ev.x = cl → s.ev.y = k → k < 16 →
    let b := vget (clusterOf s cl).bar k Barrier.reset
    b.deadline = some d →
    (clusterCycles s cl < d → Runs .bartTimeout s fun t => clusterOf t cl = clusterOf s cl ∧ t.flits = s.flits ∧
      Later t .bartTimeout cl k (s.now + vfTicks (vfOfCluster s cl) (d - clusterCycles s cl))) ∧
    (d ≤ clusterCycles s cl → Runs .bartTimeout s fun t => (∀ m ∈ b.members, Told s t cl k true m) ∧
      vget (clusterOf t cl).bar k Barrier.reset = { b with
        arr := 0, gen := b.gen + 1, members := [], deadline := none, frozen := none } ∧
      (vget (clusterOf t cl).cnt 4 0).toNat = more (vget (clusterOf s cl).cnt 4 0) 1)) ∧
  (∀ (s : State) (src dst addr k k2 c : Nat) (cancel : Bool), Receives s src dst (.barDone addr k cancel) → k < 16 →
    findCtx s addr = some (k2, c) → Runs .barrierCompletionArrival s fun t => SameMemory s t ∧ Taken s t ∧
      (∀ j < 16, (ctxOf t k2 c).barPend.getLsbD j = (decide (j ≠ k) && (ctxOf s k2 c).barPend.getLsbD j)) ∧
      (ctxOf t k2 c).tb = (match (if cancel then vget (ctxOf s k2 c).barTout k none else vget (ctxOf s k2 c).barTag k none) with
        | some n => (ctxOf s k2 c).tb ||| (1#64 <<< n) | none => (ctxOf s k2 c).tb)) ∧
  (∀ (s : State) (src dst ch seq : Nat) (v : V512) (sb : BitVec 40), Receives s src dst (.pairHalf ch seq v sb) → ch < 16 →
    let cl := clusterKey dst
    let p := vget (clusterOf s cl).pch ch PairCh.reset
    let own := fun (t : State) => vget (clusterOf t cl).pch ch PairCh.reset
    (p.seq.toNat ≠ seq → Runs .pairHalfArrival s fun t => own t = p ∧ SameMemory s t ∧ Taken s t ∧
      (vget (clusterOf t cl).cnt 0 0).toNat = more (vget (clusterOf s cl).cnt 0 0) 1 ∧
      (coreOf t dst).rcvd = (coreOf s dst).rcvd + 1) ∧
    (p.seq.toNat = seq → p.armed = false → Runs .pairHalfArrival s fun t => SameMemory s t ∧ Taken s t ∧
      own t = { p with
        held := some (v, sb), since := clusterCycles s cl
        frozen := if (pairCore s cl ch).any (fun k => (coreOf s k).stopped) then some 0 else none } ∧
      Later t .pairDeadline cl ch (s.now + vfTicks (vfOfCluster s cl) (max 1 (clusterOf s cl).deadline + 1))) ∧
    (∀ k2, p.seq.toNat = seq → p.armed = true → coreOfAddr s (pairCtx s cl ch) = some k2 → Runs .pairHalfArrival s fun t =>
      SameMemory s t ∧ own t = { p with armed := false, held := none, since := 0, frozen := none, seq := p.seq + 1 } ∧
      ∃ tok, Sends s t 1 (barrierCore cl) k2 (.reply (pairCtx s cl ch) p.id tok) ∧ tok.pay = v ∧
        part tok.sb 13 6 = p.rt.toNat ∧ part tok.sb 0 3 = part sb 0 3 ∧ part tok.sb 39 1 = 1)) ∧
  (∀ (s : State) (cl ch : Nat) (h : V512 × BitVec 40), s.ev.x = cl → s.ev.y = ch → ch < 16 →
    let p := vget (clusterOf s cl).pch ch PairCh.reset
    let wait := clusterCycles s cl - p.since
    let deadline := max 1 (clusterOf s cl).deadline
    p.held = some h →
    (p.frozen ≠ none → exec .pairDeadline s = .next s) ∧
    (p.frozen = none → wait ≤ deadline → Runs .pairDeadline s fun t => clusterOf t cl = clusterOf s cl ∧
      Later t .pairDeadline cl ch (s.now + max 1 (vfTicks (vfOfCluster s cl) (deadline + 1 - wait)))) ∧
    (∀ k j, p.frozen = none → deadline < wait → pairCore s cl ch = some k → clusterKey k = cl → partnerCore s k ch = some j →
      Runs .pairDeadline s fun t => PairEnds s t cl ch 0x0F ∧ Sends s t 3 k j (.pairTimeout ch p.seq.toNat) ∧ SameMemory s t)) ∧
  (∀ (s : State) (src dst ch seq : Nat), ch < 16 →
    let cl := clusterKey dst
    let same := (vget (clusterOf s cl).pch ch PairCh.reset).seq.toNat = seq
    (Receives s src dst (.pairTimeout ch seq) →
      (same → Runs .pairTimeoutMessage s fun t => PairEnds s t cl ch 0x0F ∧ Taken s t ∧ SameMemory s t) ∧
      (¬ same → Runs .pairTimeoutMessage s fun t => Taken s t ∧ t.cluster = s.cluster ∧ t.core = s.core)) ∧
    (Receives s src dst (.pairAbort ch seq) →
      (same → Runs .pairAbortMessage s fun t => PairEnds s t cl ch 0x10 ∧ Taken s t ∧ SameMemory s t) ∧
      (¬ same → Runs .pairAbortMessage s fun t => Taken s t ∧ t.cluster = s.cluster ∧ t.core = s.core))) ∧
  (∀ (s : State) (src dst entry from_ x y cx n : Nat) (r : Record) (fm : Bool), Receives s src dst (.record entry r from_ fm) →
    handlerEntry s (clusterKey dst) entry = some (x, y, cx) → slotOf s dst (ctxNumber x y cx) = some n → entry < 4 →
    let c := clusterOf s (clusterKey dst)
    (vget c.recUsed entry 0 < 8 → Runs .trapRecordDelivery s fun t => SameMemory s t ∧ Taken s t ∧
      clusterOf t (clusterKey dst) = { c with recUsed := vset c.recUsed entry (vget c.recUsed entry 0 + 1) } ∧
      ∃ tok, vget (ctxOf t dst n).inq 4 [] = vget (ctxOf s dst n).inq 4 [] ++ [tok] ∧ part tok.sb 13 6 = 63 ∧
        tok.pay.toNat = r.w0.toNat + r.w1.toNat * 2 ^ 64 + r.w2.toNat * 2 ^ 128 + r.w3.toNat * 2 ^ 192 + from_ % 256 * 2 ^ 256) ∧
    (8 ≤ vget c.recUsed entry 0 → Runs .trapRecordDelivery s fun t => SameMemory s t ∧ Taken s t ∧
      (clusterOf t (clusterKey dst)).resend =
        c.resend ++ [⟨s.ev.x, src, r, entry, from_, fm, clusterCycles s (clusterKey dst) + 256⟩] ∧
      (vget (clusterOf t (clusterKey dst)).cnt 3 0).toNat = more (vget c.cnt 3 0) 1 ∧
      Later t .recordResend s.ev.x 0 (s.now + vfTicks (vfOfCluster s (clusterKey dst)) 256))) ∧
  (∀ (s : State) (cl x y cx dst z : Nat) (r : Resend) (c : Cluster), s.ev.x = r.id →
    s.cluster = [(cl, c)] → c.resend = [r] → clusterKey r.core = cl →
    handlerEntry s cl r.entry = some (x, y, cx) → boundAt s r.core x y = some (dst, z) →
    let n := clusterCycles s cl
    (r.at_ ≤ n → Runs .recordResend s fun t => Sends s t 3 r.core dst (.record r.entry r.rec_ r.from_ r.fm) ∧
      (clusterOf t cl).resend = [] ∧ SameMemory s t) ∧
    (n < r.at_ → Runs .recordResend s fun t => t.cluster = s.cluster ∧ t.flits = s.flits ∧
      Later t .recordResend r.id s.ev.y (s.now + max 1 (vfTicks (vfOfCluster s cl) (r.at_ - n))))) ∧
  (∀ (s : State) (k entry from_ : Nat) (r : Record) (fm : Bool),
    let cl := clusterKey k
    (∀ x y cx dst z, handlerEntry s cl entry = some (x, y, cx) → boundAt s k x y = some (dst, z) →
      Sends s (sendRecord s k entry r from_ fm) 3 k dst (.record entry r from_ fm)) ∧
    (handlerEntry s cl entry = none →
      let t := sendRecord s k entry r from_ fm
      (clusterOf t cl).halt = true ∧ (∀ e ∈ t.core, clusterKey e.1 = cl → e.2.halted = true) ∧
      ∃ e, t.pkg.waiting = s.pkg.waiting ++ [e] ∧ e.kind = 2 ∧ e.record = r)) ∧
  (∀ (s : State) (cl : Nat), s.ev.x = cl →
    let c := clusterOf s cl
    let becomes := fun (i : Instr) (c2 : Cluster) (P : State → Prop) =>
      Runs i s fun t => clusterOf t cl = c2 ∧ t.core = s.core ∧ SameMemory s t ∧ P t
    (c.rstate = 0 → mayRetain s cl = true → becomes .retentionEntry { c with rstate := 1 }
      fun t => Later t .retentionEntry cl s.ev.y (s.now + vfTicks (vfOfCluster s cl) 64)) ∧
    (c.rstate = 1 → mayRetain s cl = true → becomes .retentionEntry { c with rstate := 2, parity := parityBits s cl } fun _ => True) ∧
    (c.rstate = 1 → mayRetain s cl = false → becomes .retentionEntry { c with rstate := 0 } fun _ => True) ∧
    ((c.rstate = 0 ∧ mayRetain s cl = false) ∨ 2 ≤ c.rstate.toNat → exec .retentionEntry s = .next s) ∧
    (c.rstate = 2 → becomes .retentionExitStart { c with rstate := 3 } fun t => Later t .retentionExitEnd cl 0 (s.now + 2000)) ∧
    (c.rstate = 1 → Runs .retentionExitStart s fun t => PutOff s t .retentionExitStart) ∧
    (let now := (parityBits s cl).zipIdx.map (fun b => b.1 != (c.flips.count b.2 % 2 == 1))
     (c.rstate = 3 → now = c.parity → becomes .retentionExitEnd { c with rstate := 0, wake := [], parity := [], flips := [] }
       fun t => t.flits = c.wake ++ s.flits) ∧
     (c.rstate = 3 → now ≠ c.parity → Runs .retentionExitEnd s fun t =>
       clusterOf t cl = { c with lost := true, parity := [], flips := [] } ∧ t.flits = s.flits ∧
       (∀ e ∈ t.core, clusterKey e.1 = cl → e.2.halted = true) ∧
       ∀ n ∈ regionsIn s cl, (regionOf t n).error = some 0x11 ∧ Later t .rollback n 0 s.now))) ∧
  (∀ (s : State) (cl : Nat), mayRetain s cl = true ↔
    (∀ k ∈ clusterCores cl, (coreOf s k).bq = [] ∧ (coreOf s k).outst = [] ∧ ∀ c < 4,
      (ctxOf s k c).resident = false ∨ (ctxOf s k c).ended = true ∨ selectRules (coreOf s k) c (ctxOf s k c) = []) ∧
    ∀ ch < 16, (vget (clusterOf s cl).pch ch PairCh.reset).armed = false ∧ (vget (clusterOf s cl).pch ch PairCh.reset).held = none)

/-- R280, R281, R283, R285 to R287, R290 to R292, R296, R297 (10_die), R267 (09_memory_model), R173 (05_core_memory), R380: a die
applies VF requests with its clock stopped meanwhile, keeps its bands, halves and doubles weir limits, corrects its time, copies
from its pinned store, repartitions and drops its Reservoir, and prefetches into it. Where it rests on the model's own choices,
they are log entries 27, 70, 84, 108, 112 and 118. -/
def Obligations.DieUnitsAct : Prop :=
  (∀ (s : State) (die k : Nat), s.ev.x = die → s.ev.y = k → k < 4 →
    let v := vfOf s die k
    let f := max 40 (min v.rfreq (min (40 + 8 * v.rpt) v.ceil))
    let others := fun (t : State) => ∀ j < 4, j ≠ k → vfOf t die j = vfOf s die j
    (v.busy = true → Runs .vfRequestApply s fun t => PutOff s t .vfRequestApply) ∧
    (v.busy = false → s.ev.z = 0 → v.rpt = v.pt → f = v.freq → Runs .vfRequestApply s fun t =>
      vfOf t die k = { v with pend := false } ∧ others t ∧ SameMemory s t) ∧
    (v.busy = false → s.ev.z ≠ 0 ∨ v.rpt ≠ v.pt ∨ f ≠ v.freq → Runs .vfRequestApply s fun t => others t ∧ SameMemory s t ∧
      vfOf t die k = { v with busy := true, newPt := v.rpt, newFreq := f, cyc := vfCycles s v, cycAt := s.now, off := true } ∧
      Later t .vfClockResume die k (s.now + if v.rpt = v.pt ∧ s.ev.z ≠ 2 then 200 else 2000)) ∧
    (v.busy = true → Runs .vfClockResume s fun t => others t ∧ SameMemory s t ∧
      (vfOf t die k).pt = v.newPt ∧ (vfOf t die k).freq = v.newFreq ∧ (vfOf t die k).off = false ∧ (vfOf t die k).busy = false ∧
      (vget (dieOf t die).cnt 6 0).toNat = more (vget (dieOf s die).cnt 6 0) 1 ∧
      (∀ e < 4, ∀ d < 2, ∀ i ∈ edgeLinks e, tget (dieOf t die).band 0 (72 * e + 36 * d + i) = bandEntry t die e d i)) ∧
    (v.busy = false → exec .vfClockResume s = .next s) ∧
    (Runs .weirHalve s fun t => vfOf t die k = { v with weirEff := max 16 (v.weirEff / 2) } ∧ others t ∧
      (vget (dieOf t die).cnt 0 0).toNat = more (vget (dieOf s die).cnt 0 0) 1 ∧
      ((∀ p ∈ s.agenda, p.op = .weirDouble → p.args.x = die → p.args.y ≠ k) → Later t .weirDouble die k (s.now + toWindow s v))) ∧
    (let limit := max 16 (min 256 v.weirLim)
     let eff := if cisternsLow s die k then min limit (2 * v.weirEff) else v.weirEff
     (limit ≤ v.weirEff → exec .weirDouble s = .next s) ∧
     (v.weirEff < limit → vfCycles s v / 256 < s.ev.z → Runs .weirDouble s fun t => dieOf t die = dieOf s die ∧
       LaterOf t .weirDouble die k s.ev.z) ∧
     (v.weirEff < limit → s.ev.z ≤ vfCycles s v / 256 → Runs .weirDouble s fun t => others t ∧
       vfOf t die k = { v with weirEff := eff } ∧
       (eff < limit → ∃ p ∈ t.agenda, p.op = .weirDouble ∧ p.args.x = die ∧ p.args.y = k)))) ∧
  (∀ (w fs fr : Nat), 40 ≤ fs → 40 ≤ fr →
    let lo := w + up 200 fr
    let hi := w + up 300 fr + up 100 fs
    hi < 256 → bandWord w fs fr = BitVec.ofNat 32 (2 ^ 31 + min 32 (max 8 (up (2 * hi * fs) 100)) * 2 ^ 16 + hi * 2 ^ 8 + lo)) ∧
  (∀ (s : State) (die : Nat), s.ev.x = die → Runs .timeRecalibration s fun t =>
    (dieOf t die) = { dieOf s die with off := (dieOf t die).off } ∧ SameMemory s t ∧ t.now = s.now + 1 ∧
    (die = 0 → (dieOf t die).off = (dieOf s die).off) ∧
    (∃ c : Int, c ∈ ([-1, 0, 1] : List Int) ∧ (dieOf t die).off = (dieOf s die).off + BitVec.ofInt 48 c) ∧
    Later t .timeRecalibration die s.ev.y (t.now + 2 ^ 20)) ∧
  (∀ (s : State) (die line : Nat), s.ev.x = die → s.ev.y = line → Runs .cacheReplacement s fun t => SameMemory s t ∧
    dieOf t die = { dieOf s die with cache := (dieOf t die).cache } ∧
    ∀ l, l ∈ (dieOf t die).cache ↔ l ∈ (dieOf s die).cache ∧ ¬ (l.line = line ∧ l.out = [])) ∧
  (∀ (s : State) (die src loc len : Nat) (j : RsvJob) (r : List RsvJob), s.ev.x = die → (dieOf s die).rsvq = j :: r →
    j.cmd.op = .rsvld src loc len →
    let wait := refreshWait s die (pinnedBank (dieOf s die) (src + j.pos))
    let at_ := localPlace s j.cmd (loc + j.pos)
    let place := fun i => portOffset s at_.1 (at_.2 + i) true
    (j.pos < len → wait = 0 → pinnedBad s die (src + j.pos) 64 = true → Runs .rsvldLine s fun t => SameMemory s t ∧
      (dieOf t die).rsvq = r ∧ RollsBack s t (regionOfCtx s j.cmd.cx) 0x07) ∧
    (j.pos < len → wait = 0 → pinnedBad s die (src + j.pos) 64 = false → Unlogged s at_.1 → Places 64 place → at_.2 + 64 ≤ 0x60000 → Runs .rsvldLine s fun t =>
      (dieOf t die).rsvq = { j with pos := j.pos + 64 } :: r ∧
      StoredAt s t at_.1 64 place (leNat (memBytes (dieOf s die).pinned (src + j.pos) 64)) ∧
      Later t (if j.pos + 64 < len then .rsvldLine else .rsvldComplete) die s.ev.y (s.now + 1)) ∧
    (j.pos < len → wait ≠ 0 → Runs .rsvldLine s fun t => (dieOf t die).rsvq = j :: r ∧ SameMemory s t ∧
      (⟨s.now + wait, .rsvldLine, s.ev⟩ ∉ s.agenda →
        (vget (dieOf t die).cnt 4 0).toNat = more (vget (dieOf s die).cnt 4 0) (wait * ((len - j.pos) / 64))) ∧
      Later t .rsvldLine die s.ev.y (s.now + wait)) ∧
    (len ≤ j.pos → twinOf s j.cmd.cx = none → Runs .rsvldComplete s fun t => (dieOf t die).rsvq = r ∧ SameMemory s t ∧
      TagSet s t j.cmd.cx j.cmd.tag)) ∧
  (∀ (s : State) (die bank : Nat),
    let t := (dieTime s die).toNat
    let t0 := (dieOf s die).rsvref.toNat
    let into := (t - t0) % 64000
    (t < t0 → refreshWait s die bank = 0) ∧ (t0 ≤ t → into < 2000 * bank ∨ 2000 * bank + 320 ≤ into → refreshWait s die bank = 0) ∧
    (t0 ≤ t → 2000 * bank ≤ into → into < 2000 * bank + 320 → refreshWait s die bank = 2000 * bank + 320 - into)) ∧
  (∀ (s : State) (die : Nat) (c : Command) (r : List Command), s.ev.x = die →
    let d := dieOf s die
    (s.ev.z ≠ 1 → d.parts = c :: r → zeroing s die = false → d.users = [] → (∀ l ∈ d.cache, l.out = []) →
      Runs .rsvcfgPartApply s fun t => dieOf t die = { d with
        p := d.preq, pinned := [], pinUe := [], pinCorr := [], cache := if d.p < d.preq then [] else d.cache } ∧ LaterOf t .rsvcfgPartApply die 0 1) ∧
    (s.ev.z ≠ 1 → d.parts = c :: r → zeroing s die = false → (d.users ≠ [] ∨ ∃ l ∈ d.cache, l.out ≠ []) →
      Runs .rsvcfgPartApply s fun t => dieOf t die = d ∧ Later t .rsvcfgPartApply die 0 (s.now + 1)) ∧
    (s.ev.z = 1 → d.p = d.preq → d.parts = [c] → twinOf s c.cx = none → Runs .rsvcfgPartApply s fun t =>
      dieOf t die = { d with rpend := false, parts := [] } ∧ TagSet s t c.cx c.tag ∧ SameMemory s t) ∧
    (d.drops = c :: r → twinOf s c.cx = none → Runs .rsvcfgDropComplete s fun t => TagSet s t c.cx c.tag ∧ SameMemory s t ∧
      dieOf t die = { d with drops := r, cache := d.cache.filter (fun l => !l.out.isEmpty) })) ∧
  (∀ (s : State) (id a len : Nat) (j : XJob) (w : W64), s.ev.x = id → xjobOf s id = some j → j.cmd.op = .pfetch w len →
    (len ≤ j.pos → twinOf s j.cmd.cx = none → Runs .pfetchComplete s fun t => TagSet s t j.cmd.cx j.cmd.tag ∧ SameMemory s t ∧
      ∀ i ∈ t.pkg.xjobs, i.cmd.id ≠ j.cmd.id) ∧
    (j.pos < len →
      let va := w + BitVec.ofNat 64 j.pos
      let n := firstPiece va (len - j.pos)
      let die := dieKey j.cmd.core
      (Runs .pfetchComplete s fun t => SameMemory s t ∧ LaterOf t .pfetchComplete id s.ev.y s.ev.z) ∧
      ∀ p u, translate s j.cmd.core (commandQueue s j.cmd) (field va 0 48) false = (p, u) →
        ((∀ pa cmp, p ≠ .ok pa cmp) → Runs .pfetchComplete s fun t =>
          { j with pos := j.pos + n, fail := none, stack := none } ∈ t.pkg.xjobs) ∧
        (∀ pa cmp, p = .ok pa cmp → (field pa 58 4 ≠ 1 ∨ (reservoirWait u die pa n).2.1 = 0) → Runs .pfetchComplete s fun t =>
          { j with pos := j.pos + n, fail := none, stack := none } ∈ t.pkg.xjobs ∧
          (field pa 58 4 = 1 → field va 62 2 = 1 → (dieOf s die).p ≠ 32 → a ∈ linesOf64 (field pa 0 41) n →
            homeBad s (64 * a) 64 = false → (cacheLine t die a).isSome = true))))

/-- R265 to R267 (09_memory_model), R354 to R365, R369, R371 (13_package_memory), R159 (05_core_memory), R360, R361: operations
outside core memory walk their tables, park at an absent page and go on with the host's answer, are served by the die's copy or at
home, in the order of their context to a line; poison delivers nothing and starts a rollback. Where it rests on the model's own
choices, they are log entries 27, 73, 81, 110 and 112. -/
def Obligations.MemoryOperationsAct : Prop :=
  (∀ (s : State) (id level : Nat) (table : W64) (x : XOp), s.ev.x = id → Under s id (.walk level table) x → table ≠ 0 →
    opIn s id (fun p => match p with | .walk _ _ => true | _ => false) = some x → gangAway s x.req.cx = false →
    let va := field x.req.addr 0 48
    (x.req.id ∈ s.pkg.denied → Runs .translationWalk s fun t => SameMemory s t ∧ FailsTo s t x.req 0x0D) ∧ (x.req.id ∉ s.pkg.denied →
    let goes := fun (t : State) (p : XPhase) => { x with phase := p } ∈ t.xops
    (∀ n, walkLevel s level table va = .next n → Runs .translationWalk s fun t => SameMemory s t ∧
      goes t (.walk (level - 1) n) ∧ LaterOf t .translationWalk id s.ev.y s.ev.z) ∧
    (∀ e size pa cmp, walkLevel s level table va = .leaf e size → leafAccess e va size (!readsOnly x.req) = .ok pa cmp →
      field pa 58 4 = 1 → Runs .translationWalk s fun t => SameMemory s t ∧ Later t .reservoirAccess x.req.id 0 (s.now + 2) ∧
        (∃ y ∈ t.xops, y.req = x.req ∧ y.pa = pa ∧ y.cmp = cmp ∧ y.phase = .reservoir ∧ y.port = false) ∧
        ((coreOf s x.req.core).tlb = [] → ∃ d, tlbLookup t x.req.core x.req.queue va = some d ∧ d.leaf = e)) ∧
    (walkLevel s level table va = .broken → Runs .translationWalk s fun t => SameMemory s t ∧ FailsTo s t x.req 0x0D) ∧
    (walkLevel s level table va = .poisoned → Runs .translationWalk s fun t => SameMemory s t ∧ t.msgs = s.msgs ∧
      (regionOf t (regionOfCtx s x.req.cx)).error = some 0x07) ∧
    (walkLevel s level table va = .absent → (clusterOf s (clusterKey x.req.core)).parked.length < 64 →
      Runs .translationWalk s fun t => SameMemory s t ∧ { x with phase := .parked s.now, port := false } ∈ t.xops ∧
        (clusterOf t (clusterKey x.req.core)).parked = (clusterOf s (clusterKey x.req.core)).parked ++ [x.req.id] ∧
        ∃ n ops since, ((n, .page x.req.queue (va / 65536) ops since) ∈ t.pkg.tags ∧ x.req.id ∈ ops) ∨
          (x.req.queue, va / 65536, ops) ∈ t.pkg.pageWait ∧ x.req.id ∈ ops))) ∧
  (∀ (s : State) (level va : Nat) (table : W64), level ≤ 3 →
    let i := match level with | 3 => va / 2 ^ 39 % 512 | 2 => va / 2 ^ 30 % 512 | 1 => va / 2 ^ 21 % 512 | _ => va / 2 ^ 16 % 32
    let e := BitVec.ofNat 64 (leNat (hbmBytes s (field table 0 41 + 8 * i) 8))
    let to_ := word (2 ^ 63 + field e 0 46 * 2 ^ 16)
    let size := match level with | 0 => 2 ^ 16 | 1 => 2 ^ 21 | _ => 2 ^ 30
    let w := walkLevel s level table va
    let bad := homeBad s (field table 0 41 + 8 * i) 8
    (bad = true → w = .poisoned) ∧ (bad = false →
    (field e 63 1 = 0 → w = .absent) ∧
    (field e 62 2 = 3 → level = 3 → w = .absent) ∧
    (field e 62 2 = 3 → level < 3 → field e 46 14 = 0 → to_.toNat % size = 0 → field to_ 58 4 ∈ [1, 2, 5] →
      (field e 60 1 = 1 → field to_ 58 4 = 1) → space10Ok s to_ 1 = true → w = .leaf e size) ∧
    (field e 62 2 = 3 → level < 3 → (field e 46 14 ≠ 0 ∨ to_.toNat % size ≠ 0 ∨ field to_ 58 4 ∉ [1, 2, 5]) → w = .broken) ∧
    (field e 62 2 = 2 → level = 0 → w = .absent) ∧
    (field e 62 2 = 2 → 1 ≤ level → field e 46 14 = 0 → field to_ 58 4 = 1 → space10Ok s to_ 1 = true → w = .next to_))) ∧
  (∀ (s : State) (die line i : Nat) (c : CacheLine), cacheLine s die line = some c → c.ue = true → c.out = [] → i < 64 →
    viewByte (mendLine s die line) die (64 * line + i) = hbmByte s (64 * line + i) ∧
      (vget (dieOf (mendLine s die line) die).cnt 5 0).toNat = more (vget (dieOf s die).cnt 5 0) 1) ∧
  (∀ (s : State) (id : Nat) (x : XOp), s.ev.x = id → Under s id .reservoir x →
    let die := dieKey x.req.core
    let a := field x.pa 0 41
    let n := requestSize x.req
    let home := fun (t : State) (i : Instr) (copied : Bool) => { x with phase := .home, copyDone := copied } ∈ t.xops ∧
      Later t i x.req.id 0 (s.now + 60)
    let cached := ∀ l ∈ linesOf64 a n, (cacheLine s die l).isSome = true
    (field x.pa 58 4 = 1 → (dieOf s die).p = 32 ∨ isAmo x.req = true → Runs .reservoirAccess s fun t => SameMemory s t ∧
      home t (if readsOnly x.req then .hbmRead else .hbmWrite) false) ∧
    let waits := (reservoirWait s die x.pa n).2.1
    let rollsBack := fun (t : State) => SameMemory s t ∧ t.msgs = s.msgs ∧ (regionOf t (regionOfCtx s x.req.cx)).error = some 0x07
    (field x.pa 58 4 = 1 → (dieOf s die).p ≠ 32 → isAmo x.req = false → waits ≠ 0 → Runs .reservoirAccess s fun t =>
      SameMemory s t ∧ t.xops = s.xops ∧ LaterOf t .reservoirAccess id s.ev.y s.ev.z) ∧
    (field x.pa 58 4 = 1 → (dieOf s die).p ≠ 32 → waits = 0 →
      (∀ m, x.req.kind = .read m → x.engine = false →
        let s1 := mendLines s die a m
        (cached → dieBad s1 die a m = false → Runs .reservoirAccess s fun t => SameMemory s t ∧
          RepliesTo s t x.req (ofBytes ((List.range m).map (fun i => viewByte s1 die (a + i)))).toNat) ∧
        (cached → dieBad s1 die a m = true → Runs .reservoirAccess s rollsBack) ∧
        (¬ cached → Runs .reservoirAccess s fun t => SameMemory s t ∧ home t .hbmRead false)) ∧
      (∀ m v, x.req.kind = .write m v → m ≤ 64 → x.engine = false → Runs .reservoirAccess s fun t => SameMemory s t ∧
        (∃ y, y ∈ t.xops ∧ y = { x with phase := .home, copyDone := true, mark := s.nextId }) ∧
        Later t .hbmWrite x.req.id 0 (s.now + 60) ∧
        ∀ i < m, viewByte t die (a + i) = BitVec.ofNat 8 (v.toNat / 256 ^ i))) ∧
    (∀ m, field x.pa 58 4 = 4 → x.req.kind = .read m → x.engine = false → waits = 0 →
      let pin := field x.pa 48 6
      let off := field x.pa 0 28
      (pinnedBad s pin off m = false → Runs .reservoirAccess s fun t => SameMemory s t ∧
        RepliesTo s t x.req (ofBytes (memBytes (dieOf s pin).pinned off m)).toNat) ∧
      (pinnedBad s pin off m = true → Runs .reservoirAccess s rollsBack))) ∧
  (∀ (s : State) (id : Nat) (x : XOp), s.ev.x = id → Under s id .home x → x.engine = false →
    let die := dieKey x.req.core
    let a := field x.pa 0 41
    let rollsBack := fun (t : State) => SameMemory s t ∧ t.msgs = s.msgs ∧ (regionOf t (regionOfCtx s x.req.cx)).error = some 0x07
    (∀ m, x.req.kind = .read m → m ≤ 64 →
      let s1 := mendLines s die a m
      let room := (dieOf s die).p = 32 ∨ ∀ l ∈ linesOf64 a m, wayFree s die l = true
      (room → dieBad s1 die a m = false → Runs .hbmRead s fun t => SameMemory s t ∧
        RepliesTo s t x.req (ofBytes ((List.range m).map (fun i => viewByte s1 die (a + i)))).toNat) ∧
      (room → dieBad s1 die a m = true → Runs .hbmRead s rollsBack) ∧
      (¬ room → Runs .hbmRead s fun t => PutOff s t .hbmRead)) ∧
    (∀ op m v c, x.req.kind = .amo op m v c → homeBad s a m = true → Runs .hbmWrite s rollsBack) ∧
    (field x.pa 58 4 = 1 → s.pkg.migs = [] → memWf s.hbm = true →
      let stored := fun (t : State) (m v : Nat) => ∀ b, hbmByte t b =
        if a ≤ b ∧ b < a + m then BitVec.ofNat 8 (v / 256 ^ (b - a)) else hbmByte s b
      (∀ m v, x.req.kind = .write m v → m ≤ 64 → MapApart s a m → Runs .hbmWrite s fun t => stored t m v.toNat ∧ RepliesTo s t x.req 0) ∧
      (∀ op m v c, x.req.kind = .amo op m v c → m ∈ [1, 2, 4, 8] → homeBad s a m = false → MapApart s a m →
        let old := leNat (hbmBytes s a m)
        Runs .hbmWrite s fun t => stored t m (amoResult op m old v.toNat c.toNat).1 ∧ RepliesTo s t x.req old))) ∧
  (∀ (s : State) (id : Nat) (x : XOp), s.ev.x = id → Under s id .tier2 x → x.engine = false → hostGone s x.pa = false →
    let a := field x.pa 0 44
    (∀ m, x.req.kind = .read m → field x.pa 58 4 = 2 → s.ev.ok = true → physBad s x.pa m = false → Runs .secondTierAccess s fun t =>
      SameMemory s t ∧ RepliesTo s t x.req (ofBytes (memBytes s.tier2 a m)).toNat) ∧
    (∀ m, x.req.kind = .read m → field x.pa 58 4 = 5 → s.ev.ok = true → Runs .secondTierAccess s fun t =>
      SameMemory s t ∧ RepliesTo s t x.req (ofBytes (memBytes s.host (field x.pa 0 57) m)).toNat) ∧
    (∀ m, x.req.kind = .read m → s.ev.ok = false → Runs .secondTierAccess s fun t => SameMemory s t ∧ t.msgs = s.msgs ∧
      (regionOf t (regionOfCtx s x.req.cx)).error = some 0x07) ∧
    (∀ m v, x.req.kind = .write m v → field x.pa 58 4 = 5 → memWf s.host = true → Runs .secondTierAccess s fun t =>
      t.hbm = s.hbm ∧ t.tier2 = s.tier2 ∧ RepliesTo s t x.req 0 ∧
      ∀ b, memByte t.host b = if field x.pa 0 57 ≤ b ∧ b < field x.pa 0 57 + m
        then BitVec.ofNat 8 (v.toNat / 256 ^ (b - field x.pa 0 57)) else memByte s.host b)) ∧
  (∀ (s : State) (tag q page since id : Nat) (x : XOp), s.ev.x = tag → s.pkg.tags = [(tag, .page q page [id] since)] →
    s.pkg.pageWait = [] → (∀ r ∈ s.region, r.2.pages = []) →
    opIn s id (fun p => match p with | .parked _ => true | _ => false) = some x → x.port = false →
    let gone := fun (t : State) => t.pkg.tags = [] ∧ SameMemory s t ∧ (clusterOf t (clusterKey x.req.core)).parked =
      (clusterOf s (clusterKey x.req.core)).parked.filter (fun n => n != id)
    (s.ev.ok = true → Runs .pageRequestResponse s fun t => gone t ∧ { x with phase := .walk 3 0 } ∈ t.xops ∧
      Later t .translationWalk id 0 s.now) ∧
    (s.ev.ok = false → gangAway s x.req.cx = false → Runs .pageRequestResponse s fun t => gone t ∧ FailsTo s t x.req 0x0D) ∧
    (s.ev.ok = false → gangAway s x.req.cx = true → Runs .pageRequestResponse s fun t => gone t ∧
      { x with phase := .walk 3 0 } ∈ t.xops ∧ id ∈ t.pkg.denied)) ∧
  (∀ (s : State) (n : Nat), s.ev.x = n → parkedOf s n ≠ [] → (regionOf s n).st = .running → (regionOf s n).stopping = false →
    (regionOf s n).pages = [] →
    let due := ((parkedOf s n).map (fun p => p.2)).foldl min s.now + faultTicks s
    (s.now < due → Runs .pfDeadline s fun t => Later t .pfDeadline n s.ev.y due ∧ t.region = s.region) ∧
    (due ≤ s.now → noRollback s n = true → Runs .pfDeadline s fun t => Later t .gangStop n 0 s.now ∧ (regionOf t n).pages ≠ []) ∧
    (due ≤ s.now → noRollback s n = false → Runs .pfDeadline s fun t => RollsBack s t n 0x0D ∧ (regionOf t n).pages ≠ []))

/-- R358, R362, R367 to R369 (13_package_memory), R166: an invalidation drops the TLB entries of its scope, and completes once
every request that they translated is done; a migration enters a fork, copies line by line, switches the leaf and releases the old
page; an indirect stream goes to the engine of its index array's stack, reads an index and moves an element at a time; what meets
a poisoned line is undone and its gang rolls back. Where it rests on the model's own choices, they are log entries 54, 74, 110 and
116. -/
def Obligations.PackageEnginesAct : Prop :=
  (∀ (s : State) (c : Command) (n f : Nat) (ids : List Nat), s.ev.x = c.id → s.pkg.invals = [(c, n, f, ids)] →
    let sc := invalScope s c
    (n = 0 → Runs .tlbinvComplete s fun t => SameMemory s t ∧ t.pkg.invals = [(c, 1, f, translatedOps s sc)] ∧
      (∀ k, (∀ e ∈ (coreOf t k).tlb, entryIn sc e = false) ∧ ∀ e ∈ (clusterOf t k).tlb, entryIn sc e = false) ∧
      (∀ k e, entryIn sc e = false → e ∈ (coreOf s k).tlb → e ∈ (coreOf t k).tlb) ∧
      (∀ x ∈ t.xops, opIn01 sc x = true → ∀ l a, x.phase = .walk l a → l = 3 ∧ a = 0)) ∧
    (n ≠ 0 → (∃ o ∈ s.xops, o.req.id ∈ ids) → Runs .tlbinvComplete s fun t => PutOff s t .tlbinvComplete) ∧
    (n ≠ 0 → (∀ o ∈ s.xops, o.req.id ∉ ids) → Runs .tlbinvComplete s fun t => SameMemory s t ∧ t.pkg.invals = [] ∧
      (vget t.pkg.xlCnt 5 0).toNat = more (vget s.pkg.xlCnt 5 0) 1 ∧
      (∀ op va q, c.op = .tlbinv op va q → twinOf s c.cx = none → TagSet s t c.cx c.tag) ∧
      (∀ va pa, c.op = .migrate va pa → Later t .migrationRelease c.id s.ev.y s.now))) ∧
  (∀ (sc : Nat × Nat × Nat) (e : TlbEntry), sc.1 ≤ 2 → (entryIn sc e = true ↔ sc.1 = 2 ∨ (e.queue = sc.2.2 ∧
    (sc.1 = 1 ∨ (e.va ≤ sc.2.1 ∧ sc.2.1 < e.va + e.size))))) ∧
  (∀ (s : State) (m : Migration) (va : W64), s.ev.x = m.cmd.id → s.pkg.migs = [m] → m.cmd.op = .migrate va m.new →
    (m.phase = .waiting → ∀ e size at_ u, leafPlace s (commandQueue s m.cmd) (field va 0 48) = (.leaf e size, at_, u) →
      let old := entryTarget e
      let fits := m.new.toNat % size = 0 ∧ (old.toNat + size ≤ m.new.toNat ∨ m.new.toNat + size ≤ old.toNat) ∧
        space10Ok s m.new size = true ∧ field old 58 4 ≠ 5
      (fits → forkFree u old size = false → Runs .migrationFork s fun t => SameMemory s t ∧ t.pkg.migs = [m] ∧
        LaterOf t .migrationFork m.cmd.id s.ev.y s.ev.z) ∧
      (fits → forkFree u old size = true → Runs .migrationFork s fun t => SameMemory s t ∧ LaterOf t .migrationCopyLine m.cmd.id s.ev.y s.ev.z ∧
        t.pkg.migs = [{ m with size := size, old := old, leafAt := at_, leaf := e,
                               cmp := decide (field e 60 1 = 1 ∧ field m.new 58 4 = 1), phase := .copying 0 }]) ∧
      (¬ fits → Runs .migrationFork s fun t => t.pkg.migs = [] ∧ FailsCommand s t m.cmd 0x09)) ∧
    (let undone := fun (i : Instr) => Runs i s fun t => SameMemory s t ∧ t.pkg.migs = [] ∧ t.msgs = s.msgs ∧
       (regionOf t (regionOfCtx s m.cmd.cx)).error = some 0x07
     (∀ at_ u, m.phase = .waiting → leafPlace s (commandQueue s m.cmd) (field va 0 48) = (.poisoned, at_, u) → undone .migrationFork) ∧
     (∀ pos, m.phase = .copying pos → physBad s (m.old + BitVec.ofNat 64 pos) 128 = true → undone .migrationCopyLine) ∧
     (m.phase = .switching → homeBad s m.leafAt 8 = true → undone .migrationSwitch)) ∧
    (∀ pos o n, m.phase = .copying pos → m.old.toNat = 2 ^ 63 + 2 ^ 58 + o → m.new.toNat = 2 ^ 63 + 2 ^ 58 + n → memWf s.hbm = true →
      o + m.size ≤ 2 ^ 40 → n + m.size ≤ 2 ^ 40 → (o + m.size ≤ n ∨ n + m.size ≤ o) → m.size % 128 = 0 → pos % 128 = 0 → pos < m.size →
      homeBad s (o + pos) 128 = false → Runs .migrationCopyLine s fun t =>
        (∀ i < 128, hbmByte t (n + pos + i) = hbmByte s (o + pos + i)) ∧
        (∀ b, (b < n + pos ∨ n + pos + 128 ≤ b) → hbmByte t b = hbmByte s b) ∧
        t.pkg.migs = [{ m with phase := if pos + 128 < m.size then .copying (pos + 128) else .switching }]) ∧
    (m.phase = .switching → memWf s.hbm = true → (m.leafAt + 8 ≤ field m.old 0 41 ∨ field m.old 0 41 + m.size ≤ m.leafAt) →
      field m.old 58 4 = 1 → m.old.toNat = 2 ^ 63 + 2 ^ 58 + field m.old 0 41 → m.leafAt < 2 ^ 40 → homeBad s m.leafAt 8 = false →
      Runs .migrationSwitch s fun t =>
      (let e := BitVec.ofNat 64 (leNat (hbmBytes s m.leafAt 8))
       let e2 := BitVec.ofNat 64 (leNat (hbmBytes t m.leafAt 8))
       field e2 0 46 = field m.new 16 46 ∧ field e2 61 3 = field e 61 3 ∧ field e2 46 14 = field e 46 14 ∧
       field e2 60 1 = if field m.new 58 4 = 1 then field e 60 1 else 0) ∧
      (∀ b, (b < m.leafAt ∨ m.leafAt + 8 ≤ b) → hbmByte t b = hbmByte s b) ∧
      t.pkg.migs = [{ m with phase := .invalidating }] ∧ (m.cmd, 0, 0, []) ∈ t.pkg.invals) ∧
    (m.phase = .invalidating → s.pkg.invals = [] → twinOf s m.cmd.cx = none → Runs .migrationRelease s fun t => SameMemory s t ∧
      t.pkg.migs = [] ∧ TagSet s t m.cmd.cx m.cmd.tag ∧
      (field m.old 58 4 = 1 → ∀ d, ∀ l ∈ (dieOf t d).cache,
        ¬ (field m.old 0 41 ≤ 64 * l.line ∧ 64 * l.line < field m.old 0 41 + m.size)))) ∧
  (∀ (s : State) (id k cx pos : Nat) (tag : Option Nat) (d : V512) (org : Origin), s.ev.x = id →
    let c : Command := ⟨id, k, cx, tag, .xstr d, org⟩
    let count := bytesOfD d 24 4
    let w := if bytesOfD d 36 1 = 0 then 4 else 8
    let goesOn := fun (t : State) => LaterOf t .xstrElement id s.ev.y s.ev.z
    let ends := fun (t : State) => Later t .xstrComplete id s.ev.y s.now
    (∀ pa cmp u, xjobOf s id = some ⟨c, pos, none, none⟩ → isParked s id = false → gangAway s cx = false →
      reach s k (commandQueue s c) (word (bytesOfD d 0 8)) false = (.at_ pa cmp, u) → Runs .xstrElement s fun t =>
        SameMemory s t ∧ goesOn t ∧ ∃ e, ⟨c, pos, none, some e⟩ ∈ t.pkg.xjobs ∧ (field pa 58 4 = 1 → e = stackOf (field pa 0 41))) ∧
    (∀ e, xjobOf s id = some ⟨c, pos, none, some e⟩ → isParked s id = false → gangAway s cx = false →
      (engineHead s e id = false → Runs .xstrElement s fun t => PutOff s t .xstrElement) ∧
      (engineHead s e id = true → count ≤ pos → Runs .xstrElement s fun t => ends t ∧ SameMemory s t) ∧
      (∀ bs u, engineHead s e id = true → pos < count → homeGather s c (word (bytesOfD d 0 8 + pos * w)) w = (.got bs, u) →
        let limited := bytesOfD d 39 1 = 1 ∧ bytesOfD d 40 8 ≤ leNat bs
        (limited → Runs .xstrElement s fun t => ⟨c, pos, some 0x09, some e⟩ ∈ t.pkg.xjobs ∧ ends t) ∧
        (∀ g v, ¬ limited → moveElement u c d pos (leNat bs) = (.got g, v) → Runs .xstrElement s fun t =>
          ⟨c, pos + 1, none, some e⟩ ∈ t.pkg.xjobs ∧ SameMemory v t ∧ goesOn t) ∧
        (∀ code v, ¬ limited → moveElement u c d pos (leNat bs) = (.failed code, v) → Runs .xstrElement s fun t =>
          ⟨c, pos, some code, some e⟩ ∈ t.pkg.xjobs ∧ ends t)) ∧
      (∀ va u, engineHead s e id = true → pos < count → homeGather s c (word (bytesOfD d 0 8 + pos * w)) w = (.absent va, u) →
        id ∉ u.pkg.denied → (clusterOf u (clusterKey k)).parked.length < 64 → Runs .xstrElement s fun t => isParked t id = true)) ∧
    (∀ e, xjobOf s id = some ⟨c, pos, none, e⟩ → count ≤ pos →
      (writesOut s id = true → Runs .xstrComplete s fun t => PutOff s t .xstrComplete) ∧
      (writesOut s id = false → twinOf s cx = none → Runs .xstrComplete s fun t => TagSet s t cx tag ∧ SameMemory s t)) ∧
    (∀ code e, xjobOf s id = some ⟨c, pos, some code, e⟩ → Runs .xstrComplete s fun t => FailsCommand s t c code ∧ SameMemory s t))

/-- R298, R300, R302 to R311, R313, R315, R317, R318 (11_package_cascade): a lit source hub launches its group's next block to
every branch while fewer than 4 are unacknowledged and every branch has room; a branch takes good blocks in order and forwards the
oldest when its members' grants and releases allow; a member's lowest free slot is filled, or it is served again; acknowledgements
free the branches' entries and the source's store and complete the command; lasers wake, light and go dark. Where it rests on the
model's own choices, they are log entries 85, 104, 106 and 107. -/
def Obligations.CascadeUnitsAct : Prop :=
  (∀ (b : Block) (z : Nat), received b z 0 = if blockCrc b = b.crc then some b else none) ∧
  (∀ (s : State) (g : Nat) (x : Send) (c : Command), s.ev.x = g → s.ev.y = 0 → x.cmd = c →
    (∀ p ∈ s.agenda, p.op = .cascadeBlockLaunch → p.args.x = g → p.args.y = 0) →
    let y := groupOf s g
    y.sends.find? (fun d => d.lastSeq.isNone) = some x →
    let room := ∀ d ∈ branchDies y, branchFree s g (groupDepth y) d = true
    (y.fault = true ∨ y.laser ≠ .lit ∨ 4 ≤ (y.seq - y.ackd).toNat → exec .cascadeBlockLaunch s = .next s) ∧
    (y.fault = false → y.laser = .lit → (y.seq - y.ackd).toNat < 4 → ¬ room →
      Runs .cascadeBlockLaunch s fun t => Later t .cascadeBlockLaunch g s.now (s.now + 1) ∧ t.group = s.group ∧ t.die = s.die) ∧
    (∀ src len blen soff last fmt fm bs u, c.op = .cgsend g src len blen soff false false last fmt fm →
      y.fault = false → y.laser = .lit → (y.seq - y.ackd).toNat < 4 → room → isParked s c.id = false → gangAway s c.cx = false →
      let n := min blen (len - x.pos)
      let s1 := { s with agenda := s.agenda.filter (fun p => !(p.op == .cascadeBlockLaunch && p.args.x == g)) }
      sendBytes s1 (groupDie y) c x.pos n = (.got bs, u) → Runs .cascadeBlockLaunch s fun t => SameMemory u t ∧
        ∃ b : Block, b.gid = g ∧ b.fmt = fmt ∧ b.fm = fm ∧ b.seq = y.seq ∧ b.len = n ∧
          b.last = (decide (len ≤ x.pos + n) && last) ∧ b.soff = (if n ≤ soff then 0 else soff) ∧
          b.scl = (if b.soff = 0 then 0 else BitVec.ofNat 20 (leNat ((bs.drop b.soff).take 4))) ∧ b.crc = blockCrc b ∧
          b.data = (List.range (n / 64)).map (fun i => ofBytes ((bs.drop (64 * i)).take 64)) ∧
          (groupOf t g).seq = y.seq + 1 ∧ (groupOf t g).store = y.store ++ [(b, branchDies y, 0)] ∧
          (∀ d ∈ branchDies y, (branchOf t d g).air = (branchOf s d g).air ++ [b] ∧
            Later t .branchReceive d g (s.now + launchTicks b)) ∧
          { x with pos := x.pos + n, lastSeq := if len ≤ x.pos + n then some y.seq else none } ∈ (groupOf t g).sends)) ∧
  (∀ (s : State) (die g : Nat) (blk : Block) (r : List Block), s.ev.x = die → s.ev.y = g →
    let b := branchOf s die g
    b.air = blk :: r →
    let got := received blk s.ev.z s.ev.flit
    let known := fun (q : W16) => (∃ e ∈ b.buf, e.blk.seq = q) ∨ serialBefore q b.fwd = true
    let old := ((b.fails.find? (fun x => x.1 == blk.seq)).map (fun x => x.2)).getD 0
    (∀ c, got = some c → known c.seq → Runs .branchReceive s fun t =>
      branchOf t die g = { b with air := r } ∧ t.flits = s.flits ∧ SameMemory s t) ∧
    (∀ c, got = some c → ¬ known c.seq → Runs .branchReceive s fun t => SameMemory s t ∧ (branchOf t die g).air = r ∧
      (∃ e ∈ (branchOf t die g).buf, e.blk = c ∧ e.forwarded = false) ∧ (branchOf t die g).buf.length = b.buf.length + 1 ∧
      (∀ x ∈ (branchOf t die g).fails, x.1 ≠ c.seq) ∧ Later t .branchForward die g s.now ∧
      Sends s t 3 (hubCore die) (hubCore (groupDie (groupOf s g))) (.branchAck g die c.seq)) ∧
    (got = none → Runs .branchReceive s fun t => SameMemory s t ∧ t.flits = s.flits ∧
      branchOf t die g = { b with air := r, fails := (blk.seq, old + 1) :: b.fails.filter (fun x => x.1 != blk.seq) } ∧
      (vget (dieOf t die).casc 2 0).toNat = more (vget (dieOf s die).casc 2 0) 1 ∧
      (old < 7 → LaterOf t .retransmitRequest die g blk.seq.toNat) ∧ (7 ≤ old → (groupOf t g).fault = true))) ∧
  (∀ (s : State) (die g : Nat) (blk : Block) (ds : List Nat) (n : Nat), s.ev.x = die → s.ev.y = g →
    let asked := (groupOf s g).store.find? (fun e => e.1.seq.toNat == s.ev.z && e.2.1.contains die)
    (asked = some (blk, ds, n) → Runs .retransmitRequest s fun t => SameMemory s t ∧
      (branchOf t die g).air = (branchOf s die g).air ++ [blk] ∧ Later t .branchReceive die g (s.now + launchTicks blk)) ∧
    (asked = none → exec .retransmitRequest s = .next s)) ∧
  (∀ (s : State) (die g : Nat) (e : BranchEntry), s.ev.x = die → s.ev.y = g →
    (∀ p ∈ s.agenda, p.op = .branchForward → p.args.x = die → p.args.y = g → p.args.z = 0) →
    let b := branchOf s die g
    b.buf.find? (fun e => !e.forwarded) = some e → e.blk.seq = b.fwd → (∀ x ∈ b.buf, x.again = [] ∧ x.sent = [] ∧ entryDone s.now x = false) →
    let ms := members s die g
    let clear := (∀ v ∈ b.votes, v.2.2.2 = false) ∧ (b.fwd - minRel b).toNat < 4
    (clear → s.ev.z = 0 → Runs .branchForward s fun t => SameMemory s t ∧
      (branchOf t die g).fwd = b.fwd + 1 ∧ (vget (dieOf t die).casc 1 0).toNat = more (vget (dieOf s die).casc 1 0) 1 ∧
      (∀ m ∈ ms, ∃ p ∈ t.agenda, p.op = .memberSlotFill ∧ p.args = evArgs m.1 m.2 e.blk.seq.toNat ∧ p.due = s.now + emitTicks e.blk) ∧
      { e with forwarded := true, due := s.now + emitTicks e.blk, wait := ms } ∈ (branchOf t die g).buf) ∧
    (¬ clear → s.ev.z = 0 → Runs .branchForward s fun t => t.die = s.die ∧ SameMemory s t) ∧
    (s.ev.z ≠ 0 → Runs .branchForward s fun t =>
      (vget (dieOf t die).casc 6 0).toNat = more (vget (dieOf s die).casc 6 0) (s.now - s.ev.z))) ∧
  (∀ (s : State) (die g : Nat) (e : BranchEntry), s.ev.x = die → s.ev.y = g → (branchOf s die g).buf = [e] → e.forwarded = true →
    e.wait = [] → e.due ≤ s.now → Runs .branchForward s fun t => SameMemory s t ∧ (branchOf t die g).buf = []) ∧
  (∀ (s : State) (k f g slot : Nat) (b : Branch) (e : BranchEntry), s.ev.x = k → s.ev.y = f → s.ev.z = e.blk.seq.toNat → f < 4 →
    (dieOf s (dieKey k)).branch = [(g, b)] → b.buf = [e] → e.forwarded = true → (k, f) ∈ e.wait → (k, f) ∉ e.again →
    let v := vget (coreOf s k).cgf f 0
    let p := field v 54 1
    let cx := field v 52 2
    let free := fun i => (vget (coreOf s k).rx (4 * p + i) RxSlot.reset).st = .free
    let got := received e.blk s.ev.v.toNat s.ev.flit
    let older := { e with again := e.again ++ [(k, f)], sent := e.sent.erase (k, f) }
    let old := ((e.fails.find? (fun x => (x.1, x.2.1) == (k, f))).map (fun x => x.2.2)).getD 0
    (∀ c, slot < 4 → free slot → (∀ i < slot, ¬ free i) → got = some c → (vget (coreOf s k).cgp p 0).getLsbD 31 = false →
      Runs .memberSlotFill s fun t => SameMemory s t ∧
        vget (coreOf t k).rx (4 * p + slot) RxSlot.reset =
          { RxSlot.reset with st := .full, blk := some c, filter := f, cx := cx } ∧
        vget (coreOf t k).fills (4 * p + slot) 0 = vget (coreOf s k).fills (4 * p + slot) 0 + 1 ∧
        vget (ctxOf t k cx).blocks p [] = vget (ctxOf s k cx).blocks p [] ++ [4 * p + slot] ∧
        field (vget (coreOf t k).cgf f 0) 0 16 = (field v 0 16 + 1) % 2 ^ 16 ∧
        Sends s t 3 k (hubCore (dieKey k)) (.memberAck g k f e.blk.seq)) ∧
    (∀ c bank, bank = 256 * ((vget (coreOf s k).cgp p 0).toNat / 2 ^ 19 % 2 ^ 11) + 8192 * slot → slot < 4 → free slot →
      (∀ i < slot, ¬ free i) → got = some c → (vget (coreOf s k).cgp p 0).getLsbD 31 = true → Unlogged s k →
      let x := ctxOf s k cx
      let place := fun i => portOffset s k (windowed s x.lx x.ly bank + i) true
      Places (64 * c.data.length) place → windowed s x.lx x.ly bank + 64 * c.data.length ≤ 0x60000 →
      Runs .memberSlotFill s fun t =>
        StoredAt s t k (64 * c.data.length) place (leNat (c.data.flatMap vBytes)) ∧
        (vget (coreOf t k).rx (4 * p + slot) RxSlot.reset).st = .full) ∧
    ((∀ i < 4, ¬ free i) → Runs .memberSlotFill s fun t => SameMemory s t ∧ (coreOf t k) = coreOf s k ∧
      (branchOf t (dieKey k) g).buf = [older]) ∧
    (slot < 4 → free slot → got = none → Runs .memberSlotFill s fun t => SameMemory s t ∧ t.flits = s.flits ∧
      (branchOf t (dieKey k) g).buf =
        [{ older with fails := (k, f, old + 1) :: e.fails.filter (fun x => (x.1, x.2.1) != (k, f)) }] ∧
      (old < 7 → Later t .memberReemit k f s.now) ∧ (7 ≤ old → (groupOf t g).fault = true))) ∧
  (∀ (s : State) (k f g : Nat) (b : Branch) (d e : BranchEntry), s.ev.x = k → s.ev.y = f → s.ev.z = e.blk.seq.toNat →
    (dieOf s (dieKey k)).branch = [(g, b)] → b.buf = [d, e] → d.blk.seq ≠ e.blk.seq → serialBefore d.blk.seq e.blk.seq = true →
    e.forwarded = true → (k, f) ∈ d.wait → (k, f) ∈ e.wait → (k, f) ∉ e.again → Runs .memberSlotFill s fun t =>
      coreOf t k = coreOf s k ∧ { e with again := e.again ++ [(k, f)], sent := e.sent.erase (k, f) } ∈ (branchOf t (dieKey k) g).buf) ∧
  (∀ (s : State) (k f g : Nat) (b : Branch) (e : BranchEntry), s.ev.x = k → s.ev.y = f →
    (dieOf s (dieKey k)).branch = [(g, b)] → b.buf = [e] → e.wait ≠ [] → (k, f) ∈ e.again → Runs .memberReemit s fun t => SameMemory s t ∧
      (branchOf t (dieKey k) g).buf = [{ e with again := e.again.erase (k, f), sent := e.sent ++ [(k, f)] }] ∧
      Later t .memberSlotFill k f (s.now + emitTicks e.blk)) ∧
  (∀ (s : State) (src die g k f : Nat) (seq : W16) (e : BranchEntry), Receives s src die (.memberAck g k f seq) →
    (branchOf s die g).buf.find? (fun e => e.blk.seq == seq) = some e → (∀ x ∈ (branchOf s die g).buf, x.blk.seq = seq → x = e) →
    e.forwarded = true →
    let done := e.wait.erase (k, f) = [] ∧ e.due ≤ s.now
    Runs .blockAck s fun t => Taken s t ∧ SameMemory s t ∧
      (done → ∀ x ∈ (branchOf t die g).buf, x.blk.seq ≠ seq) ∧
      (¬ done → { e with wait := e.wait.erase (k, f), sent := e.sent.erase (k, f) } ∈ (branchOf t die g).buf)) ∧
  (∀ (s : State) (src dst g die : Nat) (blk : Block) (n : Nat) (d : Send), Receives s src dst (.branchAck g die blk.seq) →
    (groupOf s g).store = [(blk, [die], n)] → (groupOf s g).sends = [d] → d.lastSeq = some blk.seq →
    (groupOf s g).seq = blk.seq + 1 → twinOf s d.cmd.cx = none → Runs .blockAck s fun t => Taken s t ∧ SameMemory s t ∧
      (groupOf t g).store = [] ∧ (groupOf t g).ackd = (groupOf s g).seq ∧ (groupOf t g).sends = [] ∧
      TagSet s t d.cmd.cx d.cmd.tag) ∧
  (∀ (s : State) (src die g k f : Nat) (rel : W16) (hold : Bool), Receives s src die (.vote g k f rel hold) →
    let w := (branchOf s die g).votes.find? (fun w => w.1 == k && w.2.1 == f)
    (w = none → Runs .voteArrival s fun t => Taken s t ∧ t.die = s.die ∧ SameMemory s t) ∧
    (∀ a c old h, w = some (a, c, old, h) → Runs .voteArrival s fun t => Taken s t ∧ SameMemory s t ∧
      (branchOf t die g).votes = (branchOf s die g).votes.filter (fun w => !(w.1 == k && w.2.1 == f)) ++ [(k, f, rel, hold)] ∧
      (rel ≠ old → ∀ x ∈ (branchOf s die g).buf, (k, f) ∈ x.again → LaterOf t .memberReemit k f 0))) ∧
  (∀ (s : State) (src dst g : Nat) (c : Command), Receives s src dst (.wake g (some c)) → twinOf s c.cx = none →
    let y := groupOf s g
    (∀ l m n o p q u v w, c.op = .cgsend g l m n o p q u v w →
      Runs .cgwakeArrival s fun t => Taken s t ∧
        (groupOf t g).sends = y.sends ++ [{ cmd := c, region := commandRegion s c, pos := 0, lastSeq := none }] ∧
        (groupOf t g).laser = (if y.laser = .dark then .waking else y.laser) ∧
        (y.laser = .dark → Later t .laserLit g 0 (s.now + 2000))) ∧
    (c.op = .cgwake g → y.laser = .lit → Runs .cgwakeArrival s fun t => Taken s t ∧ TagSet s t c.cx c.tag ∧
      groupOf t g = { y with since := s.now }) ∧
    (c.op = .cgwake g → y.laser ≠ .lit → Runs .cgwakeArrival s fun t => Taken s t ∧ (groupOf t g).wakes = y.wakes ++ [c] ∧
      (groupOf t g).laser = .waking ∧ (y.laser = .dark → Later t .laserLit g 0 (s.now + 2000)))) ∧
  (∀ (s : State) (g : Nat), s.ev.x = g →
    let y := groupOf s g
    let idle := 1024 * field y.cfg 40 10
    (y.laser = .waking → y.wakes = [] → Runs .laserLit s fun t => SameMemory s t ∧
      groupOf t g = { y with laser := .lit, since := s.now } ∧ Later t .laserDark g 0 (s.now + idle)) ∧
    (∀ c, y.laser = .waking → y.wakes = [c] → twinOf s c.cx = none → Runs .laserLit s fun t => TagSet s t c.cx c.tag) ∧
    (idle = 0 ∨ y.laser ≠ .lit → exec .laserDark s = .next s) ∧
    (idle ≠ 0 → y.laser = .lit → (groupHeld s g = true ∨ s.now < y.since + idle) → Runs .laserDark s fun t => t.group = s.group) ∧
    (idle ≠ 0 → y.laser = .lit → groupHeld s g = false → y.since + idle ≤ s.now → Runs .laserDark s fun t =>
      groupOf t g = { y with laser := .dark } ∧ SameMemory s t) ∧
    (groupHeld s g = true → (y.heldCfg ≠ none ∨ y.heldBr ≠ none) → Runs .groupEntryWriteApply s fun t =>
      PutOff s t .groupEntryWriteApply) ∧
    (groupHeld s g = false → (y.heldCfg ≠ none ∨ y.heldBr ≠ none) → Runs .groupEntryWriteApply s fun t => SameMemory s t ∧
      groupOf t g = { y with cfg := y.heldCfg.getD y.cfg, br := y.heldBr.getD y.br, heldCfg := none, heldBr := none, fault := false }))

/-- R322 to R324, R326 to R328, R345 (12_package_launch): kicks, EN and OFF; a packet is fetched whole when VALID and SEQ fit,
read again at most seven times, and then the fetch parks; the scheduler dispatches the head packet of the highest level, with its
wait at an end; a waiting queue rises a level after AGE x 1,024 ticks; a completion writes bytes 0 to 7 and moves CIDX. Where it
rests on the model's own choices, they are log entries 43, 44 and 65. -/
def Obligations.QueuesRun : Prop :=
  (∀ (s : State) (q a n m : Nat), s.pkg.linkUp ≠ 0 → 1 ≤ n → a < 2 ^ 57 → a % 65536 + n ≤ 65536 → 1 ≤ m →
    queueRead s q false a n m = (.got (hostBytes s a n), s)) ∧
  (∀ (x : Queue) (i : Nat), RingSized x → x.base.getLsbD 0 = false → x.base.toNat < 2 ^ 56 →
    slotAddress x i = some (x.base.toNat / 128 * 128 + 128 * (i % 2 ^ field x.cfg 0 5))) ∧
  (∀ (s : State) (i : Instr), i ∈ [Instr.queueKick, .queueEnable, .queueOff] → kickBefore s = true →
    Runs i s fun t => PutOff s t i) ∧
  (∀ (s : State) (q : Nat) (w : W16), s.ev.x = q → s.ev.y = w.toNat → RingSized (queueOf s q) → kickBefore s = false →
    let x := queueOf s q
    (x.st = .closing ∨ x.st = .closed → exec .queueKick s = .next s) ∧
    (x.st ≠ .closing → x.st ≠ .closed → min (2 ^ field x.cfg 0 5) 65535 < (w - x.cidx).toNat → Runs .queueKick s fun t =>
      t = { s with pkg := t.pkg } ∧ t.pkg = { s.pkg with cnt := t.pkg.cnt } ∧
      (vget t.pkg.cnt 1 0).toNat = more (vget s.pkg.cnt 1 0) 1) ∧
    (x.st ≠ .closing → x.st ≠ .closed → (w - x.cidx).toNat ≤ min (2 ^ field x.cfg 0 5) 65535 → Runs .queueKick s fun t =>
      queueOf t q = { x with widx := w, parked := false, rereads := if x.parked then 0 else x.rereads, kickAt := s.now + 1 } ∧
      LaterOf t .packetFetch q 0 0 ∧ t = { s with queue := t.queue, agenda := t.agenda })) ∧
  (∀ (s : State) (q : Nat) (i : W16), s.ev.x = q → s.ev.y = i.toNat → kickBefore s = false →
    let x := queueOf s q
    (x.st = .disabled ∨ x.st = .closed ∨ x.st = .faulted → i = x.cidx ∨ x.cpla = 0 →
      Runs .queueEnable s fun t => t = { s with queue := t.queue } ∧
      queueOf t q = { x with ridx := i, cidx := i, widx := i, st := .active, fcode := 0, elev := field x.cfg 8 4, offPend := false,
                             parked := false, rereads := 0, packets := [], wait := 0 }) ∧
    (x.st = .disabled ∨ x.st = .closed ∨ x.st = .faulted → i ≠ x.cidx → x.cpla ≠ 0 → x.cpla.toNat + 8 ≤ 2 ^ 57 →
      x.base.getLsbD 0 = false → s.pkg.linkUp ≠ 0 → memWf s.host = true → Runs .queueEnable s fun t =>
        HostStored s t x.cpla.toNat (leBytes 8 (i.toNat + 65536 * i.toNat)) ∧ (queueOf t q).cidx = i ∧ (queueOf t q).st = .active) ∧
    (x.st = .active ∨ x.st = .closing → exec .queueEnable s = .next s)) ∧
  (∀ (s : State) (q : Nat), s.ev.x = q → NonePlaced (queueOf s q) → kickBefore s = false →
    let x := queueOf s q
    let work := ∃ p ∈ x.packets, p.dispatched = true ∧ p.status = none
    (work → Runs .queueOff s fun t => t = { s with queue := t.queue } ∧
      queueOf t q = { x with offPend := true, packets := x.packets.filter (fun p => p.dispatched), wait := 0 }) ∧
    (¬ work → Runs .queueOff s fun t => t = { s with queue := t.queue } ∧
      queueOf t q = { x with st := .disabled, offPend := false, packets := [], wait := 0 })) ∧
  (∀ (s u : State) (q a : Nat) (bs : List Byte), s.ev.x = q → s.ev.z = 0 →
    let x := queueOf s q
    x.st = .active → x.offPend = false → x.parked = false → x.widx ≠ x.ridx →
    (x.packets.filter (fun p => !p.dispatched)).length < 4 → slotAddress x x.ridx.toNat = some a →
    queueRead s q (queueLoc x) a 128 3 = (.got bs, u) →
    let b := BitVec.ofNat 1024 (leNat bs)
    let good := inPacket b 0 1 = 0xA5 ∧ inPacket b 2 2 = x.ridx.toNat
    let op := if x.rereads = 0 then Instr.packetFetch else .packetRefetch
    (good → Runs op s fun t => LaterOf t .packetDispatch 0 0 0 ∧ SameMemory u t ∧
      queueOf t q = { x with ridx := x.ridx + 1, rereads := 0, packets := x.packets ++ [⟨x.ridx, b, false, none, none, 0, none⟩] }) ∧
    (¬ good → x.rereads < 7 → Runs op s fun t => SameMemory u t ∧ queueOf t q = { x with rereads := x.rereads + 1 } ∧
      Later t .packetRefetch q 0 (u.now + 1000)) ∧
    (¬ good → x.rereads = 7 → x.kickAt ≠ u.now + 1 → Runs op s fun t => SameMemory u t ∧
      queueOf t q = { x with rereads := 0, parked := true } ∧ (vget t.pkg.cnt 0 0).toNat = more (vget u.pkg.cnt 0 0) 1) ∧
    (¬ good → x.rereads = 7 → x.kickAt = u.now + 1 → Runs op s fun t => SameMemory u t ∧
      queueOf t q = { x with rereads := 0 } ∧ LaterOf t .packetFetch q 0 0 ∧
      (vget t.pkg.cnt 0 0).toNat = more (vget u.pkg.cnt 0 0) 1)) ∧
  (∀ (s u : State) (q a : Nat), s.ev.x = q → s.ev.z = 0 →
    let x := queueOf s q
    x.st = .active → x.offPend = false → x.parked = false → x.widx ≠ x.ridx → x.rereads = 0 →
    (x.packets.filter (fun p => !p.dispatched)).length < 4 → slotAddress x x.ridx.toNat = some a →
    queueRead s q (queueLoc x) a 128 3 = (.broken, u) → Runs .packetFetch s fun t => SameMemory u t ∧
      (queueOf t q).st = .faulted ∧ (queueOf t q).fcode = 0x0D ∧ t.pkg.msix = u.pkg.msix ++ [field (queueOf u q).cfg 16 16]) ∧
  (∀ (s : State) (q : Nat) (p : Packet), (∃ e ∈ s.queue, e.1 = q) → Ready s q p →
    (∀ e ∈ s.queue, e.1 ≠ q → dispatchable s e.1 = none ∨ (queueOf s e.1).elev < (queueOf s q).elev) →
    (queueOf s q).cfg.getLsbD 32 = false →
    let x := queueOf s q
    Runs .packetDispatch s fun t => SameMemory s t ∧
      queueOf t q = touched { x with elev := field x.cfg 8 4, wait := 0 } p.idx.toNat
        (fun r => { r with dispatched := true, progress := 0 }) ∧
      (packetOk q x p.bytes = true → (∀ op, firstStep p.bytes = some op → Later t op q p.idx.toNat s.now) ∧
        (inPacket p.bytes 1 1 = 8 → ∃ j, (portOf t (inPacket p.bytes 16 1)).cmds = (portOf s (inPacket p.bytes 16 1)).cmds ++ [j] ∧
          j.op = inPacket p.bytes 17 1 ∧ j.packet = some (q, p.idx))) ∧
      (packetOk q x p.bytes = false → Completing s t q p.idx.toNat 4 4)) ∧
  (∀ (s : State) (q : Nat), s.ev.x = q →
    let x := queueOf s q
    let age := 1024 * field x.cfg 48 16
    x.wait ≠ 0 → age ≠ 0 → field x.cfg 8 4 ≠ 15 →
    (dispatchable s q = none → Runs .ageRise s fun t => t = { s with queue := t.queue } ∧ queueOf t q = { x with wait := 0 }) ∧
    (∀ p, dispatchable s q = some p →
    (s.now + 1 < x.wait + age → Runs .ageRise s fun t => t = { s with agenda := t.agenda } ∧
      Later t .ageRise q s.ev.y (x.wait + age - 1)) ∧
    (x.wait + age ≤ s.now + 1 → 14 ≤ x.elev → exec .ageRise s = .next s) ∧
    (x.wait + age ≤ s.now + 1 → x.elev < 14 → Runs .ageRise s fun t => SameMemory s t ∧
      queueOf t q = { x with elev := x.elev + 1, wait := s.now + 1 } ∧ Later t .ageRise q s.ev.y (s.now + age) ∧
      (vget t.pkg.cnt 2 0).toNat = more (vget s.pkg.cnt 2 0) 1))) ∧
  (∀ (s : State) (q idx a : Nat) (p : Packet) (r : List Packet), s.ev.x = q → s.ev.y = idx →
    let x := queueOf s q
    let st := field s.ev.v 0 8
    let code := field s.ev.v 8 8
    x.packets = p :: r → p.idx = x.cidx → p.idx.toNat = idx → p.status = none → p.logSlot = none →
    (∀ e ∈ r, e.status = none ∧ e.idx ≠ p.idx) → x.st = .active → x.offPend = false → x.cpla = 0 → s.pkg.linkUp ≠ 0 →
    x.base.getLsbD 0 = false → slotAddress x idx = some a → memWf s.host = true →
    Runs .packetCompletion s fun t => SameDevice s t ∧
      HostStored s t a (leBytes 8 (256 * inPacket p.bytes 1 4 + st * 2 ^ 40 + code * 2 ^ 48)) ∧
      (queueOf t q).packets = r ∧ (queueOf t q).cidx = x.cidx + 1 ∧
      (1 ≤ inPacket p.bytes 1 1 → inPacket p.bytes 1 1 ≤ 11 → (queueOf t q).st = .active ∧
        t.pkg.msix = s.pkg.msix ++ (if (pktFlags p.bytes).getLsbD 1 then [field x.cfg 16 16] else []) ∧
        LaterOf t .packetDispatch 0 0 0) ∧
      (inPacket p.bytes 1 1 = 0 ∨ 11 < inPacket p.bytes 1 1 → (queueOf t q).st = .faulted ∧ (queueOf t q).fcode = 0x03) ∧
      (∀ n, (regionOf s n).st = .ended → (regionOf s n).queue = q → (regionOf s n).pkt = p.idx → (regionOf t n).st = .free))

/-- R325, R326, R331, R335 (12_package_launch), R93 (03_core_numbers), R283 (10_die), R299 (11_package_cascade): a LAUNCH has its
image checked, waits for the allocator, is placed on the first rectangle in row order that fits, or loads a shadow; a WAIT holds
its queue until its condition holds. Where it rests on the model's own choices, they are log entries 37, 41 and 64. -/
def Obligations.LaunchesArePlaced : Prop :=
  (∀ (s : State) (q : Nat) (img : Image), img.reject = none →
    let accs := img.placements.all accsFit = true
    let small := ∃ p ∈ img.placements, p.w ≤ 288 ∧ p.h ≤ 256 ∧ img.w ≤ 288 ∧ img.h ≤ 256
    (¬ accs → imageRefused s q img = some 1) ∧
    (accs → img.queue ≠ q → imageRefused s q img = some 4) ∧
    (accs → img.queue = q → s.pkg.grade < img.grade ∨ ¬ small → imageRefused s q img = some 3) ∧
    (accs → img.queue = q → img.grade ≤ s.pkg.grade → small → imageRefused s q img = none)) ∧
  (∀ (s u : State) (q idx : Nat) (p : Packet) (bs : List Byte), s.ev.x = q → s.ev.y = idx →
    headPacket (queueOf s q) = some p → p.idx.toNat = idx → p.placed = none → p.progress = 0 → inPacket p.bytes 1 1 = 1 →
    inPacket p.bytes 30 1 = 0 → launchImage s q p = (.got bs, u) →
    (imageRefused u q (imageOf bs) = none → Runs .launch s fun t => t = { u with agenda := t.agenda } ∧ LaterOf t .placement q 0 0) ∧
    (∀ c, imageRefused u q (imageOf bs) = some c → Runs .launch s fun t => LaterOf t .packetDispatch 0 0 0 ∧ SameMemory u t ∧
      queueOf t q = touched (queueOf u q) idx (fun e => { e with progress := 2 + 4 + 256 * c }))) ∧
  (∀ (s : State) (img : Image) (p : Placement) (other : Option (Nat × Nat)) (x0 y0 : Nat),
    findOrigin s img p other = some (x0, y0) → fitsAt s img p x0 y0 other = true ∧
      ∀ x y, x + max p.w img.w ≤ 288 → y + max p.h img.h ≤ 256 → fitsAt s img p x y other = true →
        y0 < y ∨ (y0 = y ∧ x0 ≤ x)) ∧
  (∀ (s u : State) (q n : Nat) (p : Packet) (bs : List Byte) (pl : Placement) (a b : Nat × Nat) (ts : List Seat)
    (plan : List (Nat × W64 × W64)), s.ev.x = q →
    let x := queueOf s q
    let img := imageOf bs
    let dup := decide (inPacket p.bytes 31 1 = 1)
    headPacket x = some p → x.st = .active → x.offPend = false → inPacket p.bytes 1 1 = 1 → inPacket p.bytes 30 1 = 0 →
    p.placed = none → p.progress = 0 → packetOk q x p.bytes = true → launchImage s q p = (.got bs, u) →
    imageRefused u q img = none → n < 512 → (regionOf u n).st = .free → (∀ m < n, (regionOf u m).st ≠ .free) →
    ((tryOrder img).findSome? (findPlace u img dup) = none → Runs .placement s fun t =>
      Later t .placement q s.ev.y (u.now + 1000) ∧ ∀ m, (regionOf u m).st = .free → (regionOf t m).st = .free) ∧
    ((tryOrder img).findSome? (findPlace u img dup) = some (pl, a, b) →
      allocSeats u n (seatsAt pl a.1 a.2 ++ (if dup then seatsAt pl b.1 b.2 else [])) = some ts →
      groupPlan u n 0 img ts = some plan →
      (depthsFit u n plan = false ∨ ratesFit u ts = false → Runs .placement s fun t => LaterOf t .packetDispatch 0 0 0 ∧
        queueOf t q = touched (queueOf u q) p.idx.toNat (fun e => { e with progress := 2 + 4 + 256 * 2 }) ∧ t.region = u.region) ∧
      (depthsFit u n plan = true → ratesFit u ts = true → Runs .placement s fun t =>
        let r := regionOf t n
        r.st = .loading ∧ r.x0 = a.1 ∧ r.y0 = a.2 ∧ r.w = img.w ∧ r.h = img.h ∧ r.fold = pl.fold ∧ r.queue = q ∧ r.pkt = p.idx ∧
          r.dup = dup ∧ r.image = some img ∧ r.seats = ts ∧ r.cfgid = newCfgid u ∧ LaterOf t .packetDispatch 0 0 0 ∧
          (pl.fold = 0 → ∀ k ∈ seatCores u ts, (coreOf t k).active = planeOf (ts.filter (fun e => seatCore u e == k))) ∧
          queueOf t q = touched (queueOf u q) p.idx.toNat (fun e => { e with placed := some n, progress := 1 })))) ∧
  (∀ (i : Instr) (mode : Nat), (i, mode) ∈ [(Instr.launchSwapAtQuiescence, 1), (.launchSwapAtCfgswap, 2)] →
    ∀ (s u : State) (q idx n : Nat) (p : Packet) (bs : List Byte) (pl : Placement) (ts : List Seat)
      (plan : List (Nat × W64 × W64)),
      s.ev.x = q → s.ev.y = idx → packetOf s q idx = some p → inPacket p.bytes 28 2 = n → launchImage s q p = (.got bs, u) →
      let img := imageOf bs
      let r := regionOf u n
      let live := r.st = .running ∨ r.st = .stopped ∨ r.st = .rolling ∨ r.st = .swapping
      imageRefused u q img = none → img.placements.find? (fun p => p.fold == r.fold) = some pl →
      (¬ live ∨ r.dead = true ∨ img.w ≠ r.w ∨ img.h ≠ r.h → Runs i s fun t => Completing u t q idx 4 4 ∧ t.region = u.region) ∧
      (live → r.dead = false → img.w = r.w → img.h = r.h → r.next = none →
        allocSeats u n (seatsAt pl r.x0 r.y0 ++ (if r.dup then seatsAt pl r.dupX r.dupY else [])) = some ts →
        groupPlan u n 0 img ts = some plan →
        (depthsFit u n plan = false ∨ ratesFit u ts = false → Runs i s fun t => Completing u t q idx 4 2 ∧ t.region = u.region) ∧
        (depthsFit u n plan = true → ratesFit u ts = true → Runs i s fun t =>
          SameMemory u t ∧ Later t .shadowLoadEnd n 0 u.now ∧
          regionOf t n = { r with next := some { image := img, seats := ts, plan := plan, queue := q, pkt := p.idx, mode := mode }, loading := true }))) ∧
  (∀ (s : State) (n : Nat) (h : Shadow), s.ev.x = n →
    let r := regionOf s n
    r.next = some h → r.loading = true → r.st = .running → r.stopping = false → Runs .shadowLoadEnd s fun t =>
      regionOf t n = { r with loading := false, shadow := true, swpend := r.swpend || decide (h.mode = 1) } ∧
      ∀ k ∈ seatCores s h.seats, (coreOf t k).shadow = planeOf (h.seats.filter (fun e => seatCore s e == k)) ∧
        (coreOf t k).active = (coreOf s k).active) ∧
  (∀ (s : State) (q idx : Nat) (p : Packet), s.ev.x = q → s.ev.y = idx → headPacket (queueOf s q) = some p → p.idx.toNat = idx →
    inPacket p.bytes 1 1 = 3 → p.progress ≤ 1 →
    let kind := inPacket p.bytes 16 1
    let done := (((queueOf s (inPacket p.bytes 18 2)).cidx - BitVec.ofNat 16 (inPacket p.bytes 20 2) - 1).toNat < 2 ^ 15)
    (kind = 0 → done → Runs .wait s fun t => t = { s with agenda := t.agenda } ∧ LaterOf t .packetDispatch 0 0 0) ∧
    (kind = 0 → ¬ done → exec .wait s = .next s) ∧
    (kind ≠ 0 → Runs .wait s fun t => t = { s with agenda := t.agenda } ∧ LaterOf t .waitPoll q idx s.ev.z) ∧
    (∀ a u bs, locAddress (queueLoc (queueOf s q)) (inPacket p.bytes 24 8) = some a →
      queueRead s q (queueLoc (queueOf s q)) a 8 3 = (.got bs, u) →
      let met := (kind = 1 ∧ inPacket p.bytes 32 8 ≤ leNat bs) ∨ (kind ≠ 1 ∧ leNat bs = inPacket p.bytes 32 8)
      Runs .waitPoll s fun t => SameMemory u t ∧ Later t .waitPoll q idx (u.now + 1000) ∧
        (met → LaterOf t .packetDispatch 0 0 0 ∧
          queueOf t q = touched (queueOf u q) idx (fun e => { e with progress := 1 })) ∧
        (¬ met → queueOf t q = touched (queueOf u q) idx (fun e => { e with progress := 0 })))) ∧
  (∀ (s : State) (q : Nat) (p : Packet), headPacket (queueOf s q) = some p →
    let x := queueOf s q
    let fenced := (pktFlags p.bytes).getLsbD 0 = true ∧ ∃ e ∈ x.packets.takeWhile (fun r => r.idx != p.idx), e.status = none
    let kind := inPacket p.bytes 16 1
    (fenced → readyHead s q = none ∧ dispatchable s q = none) ∧
    (¬ fenced → x.st = .active → x.offPend = false → packetOk q x p.bytes = true → p.progress ≤ 1 → inPacket p.bytes 1 1 = 3 →
      readyHead s q = if (kind = 0 ∧ ((queueOf s (inPacket p.bytes 18 2)).cidx - BitVec.ofNat 16 (inPacket p.bytes 20 2) - 1).toNat < 2 ^ 15)
        ∨ (kind ≠ 0 ∧ p.progress = 1) then some p else none))

/-- R325, R328 (12_package_launch), R291 (10_die), R302 (11_package_cascade), R344, R381, R382 (14_package_host): COPY, SIGNAL,
GROUPLOAD, RESERVOIR_LOAD, DESTROY, RECORD and PWR do their work and complete. Where it rests on the model's own choices, they are
log entries 45 and 66. -/
def Obligations.PacketsDoTheirWork : Prop :=
  (∀ (s : State) (q idx : Nat) (p : Packet), s.ev.x = q → s.ev.y = idx → packetOf s q idx = some p →
    let len := inPacket p.bytes 32 8
    let n := min 4096 (len - p.progress)
    (n = 0 → Runs .copy s fun t => t = { s with agenda := t.agenda } ∧ Completing s t q idx 1 0) ∧
    (∀ v a w b bs u u', n ≠ 0 → anyAddress (inPacket p.bytes 16 8) = some (v, a) → anyAddress (inPacket p.bytes 24 8) = some (w, b) →
      queueRead s q v (a + p.progress) n 3 = (.got bs, u) → queueWrite u q w (b + p.progress) bs 3 = (.got [], u') →
      Runs .copy s fun t => SameMemory u' t ∧ Later t .copy q idx u'.now ∧
        queueOf t q = touched (queueOf u' q) idx (fun e => { e with progress := e.progress + n })) ∧
    (∀ v a w b u, n ≠ 0 → anyAddress (inPacket p.bytes 16 8) = some (v, a) → anyAddress (inPacket p.bytes 24 8) = some (w, b) →
      (queueRead s q v (a + p.progress) n 3 = (.broken, u) → Runs .copy s fun t => Completing u t q idx 3 0x0D) ∧
      (queueRead s q v (a + p.progress) n 3 = (.poisoned, u) → Runs .copy s fun t => Completing u t q idx 3 0x07))) ∧
  (∀ (s : State) (q a : Nat) (bs : List Byte) (m : Nat), s.pkg.linkUp ≠ 0 → bs ≠ [] → a < 2 ^ 57 → a % 65536 + bs.length ≤ 65536 →
    1 ≤ m → memWf s.host = true → ∃ u, queueWrite s q false a bs m = (.got [], u) ∧ HostStored s u a bs ∧ SameDevice s u) ∧
  (∀ (s : State) (q idx a : Nat) (p : Packet), s.ev.x = q → s.ev.y = idx → packetOf s q idx = some p →
    let x := queueOf s q
    let before := x.packets.takeWhile (fun r => r.idx != p.idx)
    ((∃ e ∈ before, e.status = none) → Runs .signal s fun t => PutOff s t .signal) ∧
    (∀ u, (∀ e ∈ before, e.status ≠ none) → locAddress (queueLoc x) (inPacket p.bytes 16 8) = some a →
      queueWrite s q (queueLoc x) a (leBytes 8 (inPacket p.bytes 24 8)) 3 = (.got [], u) → Runs .signal s fun t =>
        SameMemory u t ∧ Completing u t q idx 1 0 ∧
        t.pkg.msix = u.pkg.msix ++ (if inPacket p.bytes 32 1 = 1 then [field (queueOf u q).cfg 16 16] else []))) ∧
  (∀ (s : State) (q idx a : Nat) (p : Packet), s.ev.x = q → s.ev.y = idx → packetOf s q idx = some p →
    let x := queueOf s q
    let count := inPacket p.bytes 24 2
    locAddress (queueLoc x) (inPacket p.bytes 16 8) = some a →
    (∀ bs u, count ≤ p.progress → queueRead s q (queueLoc x) a (32 * count) 3 = (.got bs, u) →
      let held := ∃ i < count, let g := groupOf u (bs.getD (32 * i) 0).toNat; g.heldCfg ≠ none ∨ g.heldBr ≠ none
      (¬ held → Runs .groupload s fun t => t = { u with agenda := t.agenda } ∧ Completing u t q idx 1 0) ∧
      (held → Runs .groupload s fun t => t = { u with agenda := t.agenda } ∧ Later t .groupload q idx (u.now + 1))) ∧
    (∀ bs u, p.progress < count → queueRead s q (queueLoc x) (a + 32 * p.progress) 32 3 = (.got bs, u) →
      let g := (bs.getD 0 0).toNat
      let wordAt := fun i => BitVec.ofNat 64 (leNat ((bs.drop i).take 8))
      Runs .groupload s fun t => SameMemory u t ∧ Later t .groupload q idx u.now ∧
        (queueOf t q).packets = (touched (queueOf u q) idx (fun e => { e with progress := p.progress + 1 })).packets ∧
        ((∀ v, groupHeld (setGroup u g { groupOf u g with cfg := v }) g = false) → field (wordAt 8) 50 3 ≤ 4 →
          (groupOf t g).br = wordAt 16 ∧ (groupOf t g).cfg.toNat = field (wordAt 8) 28 36 * 2 ^ 28))) ∧
  (∀ (s : State) (q idx d : Nat) (p : Packet), s.ev.x = q → s.ev.y = idx → packetOf s q idx = some p → inPacket p.bytes 16 1 = d →
    let off := inPacket p.bytes 20 4
    let len := inPacket p.bytes 32 4
    let x := dieOf s d
    (x.users ≠ [] ∨ x.rpend = true → Runs .reservoirLoad s fun t => PutOff s t .reservoirLoad) ∧
    (x.users = [] → x.rpend = false → x.p * 6291456 < off + len → Runs .reservoirLoad s fun t => Completing s t q idx 4 4) ∧
    let wait := (reservoirWait s d (pinnedAddress d off) len).2.1
    (∀ a, x.users = [] → x.rpend = false → off + len ≤ x.p * 6291456 → inPacket p.bytes 24 8 = 2 ^ 62 + a → a < 2 ^ 48 → wait ≠ 0 →
      Runs .reservoirLoad s fun t => SameMemory s t ∧ Later t .reservoirLoad q idx (s.now + wait)) ∧
    (∀ a bs u, x.users = [] → x.rpend = false → off + len ≤ x.p * 6291456 → inPacket p.bytes 24 8 = 2 ^ 62 + a → a < 2 ^ 48 → wait = 0 →
      queueRead s q true a len (len / 65536 + 2) = (.got bs, u) → bs.length = len → memWf (dieOf u d).pinned = true →
      Runs .reservoirLoad s fun t => Completing u t q idx 1 0 ∧
        ∀ i, memByte (dieOf t d).pinned i = if off ≤ i ∧ i < off + len then bs.getD (i - off) 0 else memByte (dieOf u d).pinned i)) ∧
  (∀ (s : State) (q idx g : Nat) (p : Packet), s.ev.x = q → s.ev.y = idx → packetOf s q idx = some p → inPacket p.bytes 16 2 = g →
    let x := queueOf s g
    let kept := x.packets.filter (fun r => r.dispatched)
    let work := ∃ r ∈ x.packets, r.dispatched = true ∧ r.status = none
    (x.st = .closed → (Runs .destroy s fun t => t = { s with agenda := t.agenda } ∧ Completing s t q idx 1 0) ∧
      Runs .destroyForce s fun t => t = { s with agenda := t.agenda } ∧ Completing s t q idx 1 0) ∧
    (x.st ≠ .closed → NonePlaced x → work → Runs .destroy s fun t => t = { s with queue := t.queue } ∧
      queueOf t g = { x with st := .closing, offPend := false, packets := kept, wait := 0, closers := x.closers ++ [(q, p.idx, false)] }) ∧
    (x.st ≠ .closed → NonePlaced x → ¬ work → Runs .destroy s fun t => (queueOf t g).st = .closed ∧ SameMemory s t ∧
      Completing s t q idx 1 0 ∧ ∀ c ∈ x.closers, Completing s t c.1 c.2.1.toNat 1 0) ∧
    (x.st ≠ .closed → Runs .destroyForce s fun t => ((queueOf t g).st = .closing ∨ (queueOf t g).st = .closed) ∧
      (∀ n, (regionOf s n).st ≠ .free → (regionOf s n).queue = g → (regionOf t n).st = .free) ∧
      (∀ r ∈ x.packets, r.dispatched = true → r.status = none → Completing s t g r.idx.toNat 2 0))) ∧
  (∀ (s : State) (q idx : Nat) (p : Packet), s.ev.x = q → s.ev.y = idx → packetOf s q idx = some p →
    let x := queueOf s q
    (Runs .record s fun t => t = { s with queue := t.queue, agenda := t.agenda } ∧ Completing s t q idx 1 0 ∧
      queueOf t q = { x with logBase := word (inPacket p.bytes 16 8), logEntries := inPacket p.bytes 24 4, logNext := 0,
                             logOn := decide (inPacket p.bytes 28 1 = 1), recfull := false }) ∧
    (Runs .pwrSetCap s fun t => t = { s with pkg := { s.pkg with
      cap := min (inPacket p.bytes 20 4) 28000, newPower := s.pkg.newPower ++ [(q, p.idx)] } }) ∧
    (Runs .pwrSetFloor s fun t => t = { s with pkg := { s.pkg with parts := t.pkg.parts, newPower := s.pkg.newPower ++ [(q, p.idx)] } } ∧
      let n := inPacket p.bytes 18 2
      (tget t.pkg.parts 0 n).toNat = (tget s.pkg.parts 0 n).toNat / 2 ^ 15 * 2 ^ 15 + inPacket p.bytes 20 4 % 2 ^ 15 ∧
      ∀ m, m ≠ n → tget t.pkg.parts 0 m = tget s.pkg.parts 0 m))

/-- R333 to R335, R337, R338, R349 to R351 (12_package_launch): sweeps find a region quiet, and then it ends or swaps; a GBAR
completes once every context waits and the gang is idle; a gang stop drains, scans out and saves; a stopped gang resumes when it
may. Where it rests on the model's own choices, they are log entries 39, 46, 60, 61, 103, 111 and 113. -/
def Obligations.GangsRunStopAndSwap : Prop :=
  (∀ (s : State) (n : Nat), s.ev.x = n →
    let r := regionOf s n
    let begun := ∃ p ∈ gangSlots s n, (ctxOf s p.1 p.2).rounds ≠ 0
    s.ev.v ≠ 1 →
    (r.st ≠ .running ∨ r.stopping = true → exec .stillSweep s = .next s) ∧
    (r.st = .running → r.stopping = false → r.sweeping ≠ none → Runs .stillSweep s fun t => PutOff s t .stillSweep) ∧
    (r.st = .running → r.stopping = false → r.sweeping = none → ¬ begun → Runs .stillSweep s fun t =>
      t = { s with agenda := t.agenda } ∧ Later t .stillSweep n s.ev.y (s.now + r.sweep.toNat)) ∧
    (r.st = .running → r.stopping = false → r.sweeping = none → begun → Runs .stillSweep s fun t =>
      t = { s with agenda := t.agenda, region := t.region, flits := t.flits } ∧
      regionOf t n = { r with sweeping := some (true, 0, 0, r.cores) } ∧ (r.cores = [] → Later t .sweepResult n 0 s.now) ∧
      (∃ fs, t.flits = s.flits ++ fs ∧ fs.map (fun f => (f.cls, f.src, f.dst, f.body)) =
        r.cores.map (fun k => (3, stillRoot r, k, .ask n))) ∧ Later t .stillSweep n s.ev.y (s.now + r.sweep.toNat))) ∧
  (∀ (s : State) (n src k : Nat), s.ev.v = 1 → Receives s src k (.ask n) → Runs .stillSweep s fun t =>
    Taken s t ∧ coreOf t k = { coreOf s k with ask := some n }) ∧
  (∀ (s : State) (k n : Nat), s.ev.x = k → s.stage.active = false →
    let o := coreOf s k
    o.ask = some n → o.pass = none → o.traps = [] → o.trets = [] → coreLive o = true → clockStopped s k = false →
    (clusterOf s (clusterKey k)).rstate = 0 → eligible (ctxOf s k o.act.toNat) = false → Runs .round s fun t =>
      (coreOf t k).ask = none ∧ Sends s t 2 k (stillRoot (regionOf s n)) (.still n (coreIdle s n k false) o.sent o.rcvd)) ∧
  (∀ (s : State) (n k root : Nat) (idle all : Bool) (a b x y : W64) (ks : List Nat), s.ev.v = 1 →
    Receives s k root (.still n idle a b) →
    let r := regionOf s n
    let left := ks.filter (fun j => j != k)
    (r.sweeping = none ∨ (r.sweeping = some (all, x, y, ks) ∧ k ∉ ks) → Runs .sweepResult s fun t => t = { s with msgs := t.msgs } ∧
      Taken s t) ∧
    (r.sweeping = some (all, x, y, ks) → k ∈ ks → left ≠ [] → Runs .sweepResult s fun t => Taken s t ∧
      t = { s with msgs := t.msgs, region := t.region } ∧ regionOf t n = { r with sweeping := some (all && idle, x + a, y + b, left) }) ∧
    (r.sweeping = some (all, x, y, ks) → k ∈ ks → left = [] →
      let u := { s with msgs := s.msgs.filter (fun m => m.id != s.ev.x) }
      let ok := all && idle && hubsIdle (setRegion u n { r with sweeping := some (all && idle, x + a, y + b, []) }) n
      let quiet := ok = true ∧ x + a = y + b ∧ r.lastSweep = some (true, x + a, y + b)
      (¬ quiet ∨ r.error ≠ none → Runs .sweepResult s fun t => Taken s t ∧
        regionOf t n = { r with sweeping := none, lastSweep := some (ok, x + a, y + b) }) ∧
      (quiet → r.error = none → r.swpend = true → Runs .sweepResult s fun t => Taken s t ∧ Later t .sweepResult n 0 s.now ∧
        (regionOf t n).st = .swapping ∧ ∀ c ∈ r.cores, (coreOf t c).stopped = true) ∧
      (quiet → r.error = none → r.swpend = false → Runs .sweepResult s fun t => Completing s t r.queue r.pkt.toNat 1 0))) ∧
  (∀ (s : State) (n : Nat) (idle : Bool) (a b : W64), s.ev.x = n → s.ev.v ≠ 1 →
    let r := regionOf s n
    r.st ≠ .swapping →
    ((∀ i c d, r.sweeping ≠ some (i, c, d, [])) → exec .sweepResult s = .next s) ∧
    (r.sweeping = some (idle, a, b, []) →
      let all := idle && hubsIdle s n
      let quiet := all = true ∧ a = b ∧ r.lastSweep = some (true, a, b)
      (¬ quiet ∨ r.error ≠ none → Runs .sweepResult s fun t => t = { s with region := t.region } ∧
        regionOf t n = { r with sweeping := none, lastSweep := some (all, a, b) }) ∧
      (quiet → r.error = none → r.swpend = true → Runs .sweepResult s fun t => Later t .sweepResult n 0 s.now ∧
        regionOf t n = { r with sweeping := none, lastSweep := some (all, a, b), st := .swapping } ∧
        ∀ c ∈ r.cores, coreOf t c = { coreOf s c with stopped := true }) ∧
      (quiet → r.error = none → r.swpend = false → Runs .sweepResult s fun t => Completing s t r.queue r.pkt.toNat 1 0 ∧
        (∀ h, r.next = some h → h.mode ≠ 3 → Completing s t h.queue h.pkt.toNat 2 0) ∧
        (regionOf t n).st = (if (packetOf s r.queue r.pkt.toNat).isSome then .ended else .free) ∧
        (vget t.pkg.cnt 7 0).toNat = more (vget s.pkg.cnt 7 0) (strays s n).length ∧
        ∀ c ∈ r.cores, (coreOf t c).ctx = Vector.replicate 4 Ctx.reset))) ∧
  (∀ (s : State) (n : Nat) (h : Shadow), s.ev.x = n → s.ev.v ≠ 1 →
    let r := regionOf s n
    r.st = .swapping → r.next = some h →
    (r.discard = true ∨ strays s n = [] → Runs .sweepResult s fun t =>
      let v := regionOf t n
      v.st = .running ∧ v.queue = h.queue ∧ v.pkt = h.pkt ∧ v.image = some h.image ∧ v.seats = h.seats ∧ v.next = none ∧
        v.shadow = false ∧ v.swpend = false ∧ v.discard = false ∧ v.rbcnt = 0 ∧ v.norb = false ∧
        v.swapped = r.swapper.filter (fun w => !ofSeats r.seats w.1) ∧
        Completing s t r.queue r.pkt.toNat 1 0 ∧
        (vget t.pkg.cnt 7 0).toNat = more (vget s.pkg.cnt 7 0) (strays s n).length ∧
        ∀ k ∈ seatCores s h.seats, (coreOf t k).active = (coreOf s k).shadow ∧ (coreOf t k).shadow = (coreOf s k).active) ∧
    (r.discard = false → strays s n ≠ [] → Runs .sweepResult s fun t =>
      let v := regionOf t n
      v.st = .running ∧ v.queue = r.queue ∧ v.pkt = r.pkt ∧ v.seats = r.seats ∧ v.swpend = false ∧ v.shadow = r.shadow ∧
        v.next.map (fun x => x.image) = some h.image ∧ (h.mode = 1 → Completing s t h.queue h.pkt.toNat 3 0x0E) ∧
        ∀ k ∈ seatCores s h.seats, (coreOf t k).active = (coreOf s k).active ∧ (coreOf t k).shadow = (coreOf s k).shadow)) ∧
  (∀ (s : State) (n : Nat), s.ev.x = n →
    let r := regionOf s n
    let waits := ∃ p ∈ gangSlots s n, (ctxOf s p.1 p.2).gbar ≠ none
    (gbarReady s n = true → r.retire = none → r.victim = none → Runs .gbarCompletion s fun t =>
      (regionOf t n).st = .running ∧ (regionOf t n).sstep = r.sstep + 1 ∧ (regionOf t n).norb = false ∧ (regionOf t n).rbcnt = 0 ∧
        (regionOf t n).hst = 0 ∧ (regionOf t n).beat = s.now ∧
        (∀ p ∈ gangSlots s n, (ctxOf t p.1 p.2).gbar = none ∧ (ctxOf t p.1 p.2).stats = [] ∧ (ctxOf t p.1 p.2).undoIdx = [] ∧
          (ctxOf t p.1 p.2).tb = match (ctxOf s p.1 p.2).gbar with
            | some (some g) => (ctxOf s p.1 p.2).tb ||| (1#64 <<< g)
            | _ => (ctxOf s p.1 p.2).tb) ∧
        ∀ k ∈ r.cores, ∀ l ∈ (dieOf t (dieKey k)).cache, l.out ≠ []) ∧
    (gbarReady s n = false → r.st = .running → r.stopping = false → waits → Runs .gbarCompletion s fun t =>
      t = { s with agenda := t.agenda } ∧ ∃ p ∈ t.agenda, p.op = .gbarCompletion ∧ p.args = s.ev) ∧
    (gbarReady s n = false → r.st ≠ .running ∨ r.stopping = true ∨ ¬ waits → exec .gbarCompletion s = .next s)) ∧
  (∀ (s : State) (n src root : Nat) (reason : BitVec 8), s.ev.v = 1 → Receives s src root (.sluice n reason) → Runs .gangStop s fun t =>
    Taken s t ∧ regionOf t n = { regionOf s n with reason := reason } ∧ Later t .gangStop n 0 s.now) ∧
  (∀ (s : State) (n : Nat), s.ev.x = n → s.ev.v ≠ 1 →
    let r := regionOf s n
    let free := ∀ e ∈ s.region, e.1 ≠ n → e.2.st = .free
    ((r.st = .running ∧ r.stopping = true) ∨ r.st = .free ∨ r.st = .loading ∨ r.st = .stopped ∨ r.st = .ended →
      gbarReady s n = false → exec .gangStop s = .next s) ∧
    (r.st = .rolling → gbarReady s n = false → Runs .gangStop s fun t => PutOff s t .gangStop) ∧
    (r.st = .running → r.stopping = false → gbarReady s n = false → Runs .gangStop s fun t =>
      (regionOf t n).st = .running ∧ (regionOf t n).stopping = true ∧ (regionOf t n).stopAt = s.now ∧
        (regionOf t n).sweeping = none ∧ Later t .gangStopScanOut n 0 (s.now + r.pdl.toNat) ∧
        ∀ k ∈ r.cores, (coreOf t k).stopped = true ∧ (coreOf t k).ask = none ∧ (coreOf t k).ctx = (coreOf s k).ctx ∧
          (coreOf t k).mem = (coreOf s k).mem ∧ (coreOf t k).acc = (coreOf s k).acc) ∧
    (r.stopping = false → exec .gangStopScanOut s = .next s) ∧
    (r.stopping = true → drained s n = false → Runs .gangStopScanOut s fun t => PutOff s t .gangStopScanOut) ∧
    (r.stopping = true → drained s n = true → r.victim = none → r.dead = false → Runs .gangStopScanOut s fun t =>
      (regionOf t n).st = .stopped ∧ (regionOf t n).stopping = false ∧ (regionOf t n).cores = r.cores ∧
        (∀ f ∈ t.flits, ∀ cx port tok, f.body = .token cx port tok → f.dst ∈ r.cores → ofSeats r.seats cx = false) ∧
        (∀ m ∈ t.msgs, ∀ cx port tok, m.body = .token cx port tok → m.dst ∈ r.cores → ofSeats r.seats cx = false) ∧
        (r.pages = [] → Later t .gangResume n 0 (s.now + 1000))) ∧
    (r.st ≠ .stopped ∨ r.dead = true ∨ r.pages ≠ [] → exec .gangResume s = .next s) ∧
    (r.st = .stopped → r.dead = false → r.pages = [] → roomBack s n = false ∨ queueChosen s r.queue = false →
      Runs .gangResume s fun t => t = { s with agenda := t.agenda } ∧ Later t .gangResume n s.ev.y (s.now + 1000)) ∧
    (r.st = .stopped → r.dead = false → r.pages = [] → queueChosen s r.queue = true → r.saved = [] → r.held = none →
      r.inflight = [] →
      (r.error = none → Runs .gangResume s fun t => (regionOf t n).st = .running ∧ (regionOf t n).cores = r.cores ∧
        (∀ k ∈ r.cores, (coreOf t k).stopped = false) ∧ LaterOf t .stillSweep n 0 0 ∧ LaterOf t .gbarCompletion n 0 0 ∧
        ∀ p ∈ gangSlots s n, let x := ctxOf t p.1 p.2
          let at_ := vget (coreOf s p.1).save p.2 0
          let rd := fun off m => leNat (homeRead s (at_ + word off) m)
          x.ring = [] ∧
          (field at_ 62 2 = 2 → (∀ i < 16, vget x.s i 0 = word (rd (8 * i) 8)) ∧
            (∀ i < 16, vget x.v i 0 = BitVec.ofNat 512 (rd (0x80 + 64 * i) 64)) ∧ x.tb = word (rd 0x488 8) ∧
            x.en = word (rd 0x4E8 8) ∧ x.rounds = word (rd 0x4E0 8)) ∧
          (field at_ 62 2 ≠ 2 → x.s = (ctxOf s p.1 p.2).s ∧ x.v = (ctxOf s p.1 p.2).v ∧ x.tb = (ctxOf s p.1 p.2).tb)) ∧
      (r.error ≠ none → Runs .gangResume s fun t => (regionOf t n).st = .running ∧ Later t .rollback n s.ev.y s.now)) ∧
    (free → (∀ c ∈ r.saved, savedPlace s n c ≠ none) → roomBack s n = true))

/-- R338, R339, R341 to R343 (12_package_launch), R192 (06_core_basin), R361 (13_package_memory): a victim that does not shrink in
time is stopped; a retirement moves a logical core to a fit spare; a consumed error stops the gang and rolls it back, or
escalates; a comparator's mismatch or timeout rolls the gang back. Where it rests on the model's own choices, they are log entries
39, 59, 61, 62, 114 and 117. -/
def Obligations.GangsRetireAndRollBack : Prop :=
  (∀ (s : State) (n q fold : Nat), s.ev.x = n →
    let r := regionOf s n
    (r.victim = none ∨ r.st ≠ .running ∨ r.stopping = true → exec .preemptDeadline s = .next s) ∧
    (r.victim = some (q, fold) → r.st = .running → r.stopping = false → s.now < r.stopAt + r.pdl.toNat →
      Runs .preemptDeadline s fun t => t = { s with agenda := t.agenda } ∧
        Later t .preemptDeadline n s.ev.y (r.stopAt + r.pdl.toNat)) ∧
    (r.victim = some (q, fold) → r.st = .running → r.stopping = false → r.stopAt + r.pdl.toNat ≤ s.now →
      Runs .preemptDeadline s fun t => regionOf t n = { r with victim := some (q, 0) } ∧ SameMemory s t ∧
        (vget t.pkg.cnt 4 0).toNat = more (vget s.pkg.cnt 4 0) 1 ∧ Later t .gangStop n 0 s.now)) ∧
  (∀ (s : State), let v := s.ev.v
    let x := field v 54 9
    let y := field v 46 8
    let j := 256 * field v 37 9 + field v 29 8
    let fields := field v 29 34 * 2 ^ 29
    let held := fun (e : Nat × Region) => e.2.st ≠ .free ∧ e.2.st ≠ .ended ∧ ∃ t ∈ e.2.seats, t.x = x ∧ t.y = y
    (spareOk s x y j = true ↔ x < 288 ∧ y < 256 ∧ j / 256 < 312 ∧ clusterXY j = (x / 12, y / 8) ∧ namesOf s j = [] ∧
      (coreOf s j).bucket.getLsbD 31 = false) ∧
    let asked := s.ev.z ≠ 0 ∨ s.pkg.retire.getLsbD 63 = false
    (¬ asked → exec .pkgRetireGo s = .next s) ∧
    (asked → spareOk s x y j = false → Runs .pkgRetireGo s fun t =>
      t = { s with pkg := { s.pkg with retire := word (fields + 2 ^ 28) } }) ∧
    (asked → spareOk s x y j = true → ∀ n r, s.region = [(n, r)] → held (n, r) →
      Runs .pkgRetireGo s fun t => t.pkg = { s.pkg with retire := word (fields + 2 ^ 63 + field s.pkg.retire 28 1 * 2 ^ 28) } ∧
        regionOf t n = { r with retire := some (x, y, j) } ∧ t.core = s.core) ∧
    (asked → spareOk s x y j = true → (∀ e ∈ s.region, ¬ held e) → ∀ k c0, placeOf s x y = some (k, c0) →
      k ≠ j → (x, y) ∈ namesOf s k → s.pkg.mapAt = some s.pkg.cmbase.toNat → Runs .pkgRetireGo s fun t =>
        t.pkg.retire = word fields ∧ (placeOf t x y).map (fun p => p.1) = some j ∧
          (vget t.pkg.cnt 9 0).toNat = more (vget s.pkg.cnt 9 0) 1 ∧
          (coreOf t j).ctx = (coreOf s k).ctx ∧ (coreOf t j).mem = (coreOf s k).mem ∧ (coreOf t j).active = (coreOf s k).active ∧
          (coreOf t j).acc = (coreOf s k).acc ∧ (coreOf t k).ctx = Vector.replicate 4 Ctx.reset ∧ (coreOf t k).mem = [])) ∧
  (∀ (s : State) (n : Nat) (code : BitVec 8), s.ev.x = n →
    let r := regionOf s n
    let last := noRollback s n = true ∨ (3 ≤ r.rbcnt ∧ code ≠ 0x0D)
    (r.error = none → exec .rollback s = .next s) ∧
    (r.error = some code → r.st ≠ .rolling → r.stopping = true ∨ r.st = .stopped → exec .rollback s = .next s) ∧
    (r.error = some code → r.st = .running ∨ r.st = .swapping → r.stopping = false → ¬ last → Runs .rollback s fun t =>
      regionOf t n = { r with st := .rolling, sweeping := none, lastSweep := none } ∧ Later t .rollback n s.ev.y s.now ∧
      ∀ k ∈ r.cores, (coreOf t k).stopped = true ∧ (coreOf t k).ctx = (coreOf s k).ctx ∧ (coreOf t k).mem = (coreOf s k).mem) ∧
    (r.error = some code → r.st = .running ∨ r.st = .swapping → r.stopping = false → last → Runs .rollback s fun t =>
      (regionOf t n).dead = true ∧ (regionOf t n).stopping = true ∧ (regionOf t n).error = none ∧
        (queueOf t r.queue).st = .faulted ∧ (queueOf t r.queue).fcode = code ∧ Completing s t r.queue r.pkt.toNat 3 code.toNat ∧
        (vget t.pkg.cnt 6 0).toNat = more (vget s.pkg.cnt 6 0) 1 ∧ ∀ k ∈ r.cores, (coreOf t k).stopped = true)) ∧
  (∀ (s : State) (n k : Nat) (code : BitVec 8) (v : SavedCore), s.ev.x = n →
    let r := regionOf s n
    r.st = .rolling → r.error = some code → r.check = [v] → v.core = k → r.cores = [k] →
    v.ctxs.Pairwise (fun a b => a.1 ≠ b.1) → (∀ p ∈ v.ctxs, p.1 < 4) → Runs .rollback s fun t =>
      (regionOf t n).error = none ∧
      (∀ p ∈ v.ctxs, let x := ctxOf t k p.1
        let at_ := (coreOf s k).ckpt + word (65536 * p.1)
        let rd := fun off m => leNat (homeRead s (at_ + word off) m)
        let gave := ((((r.shared.map (fun h => h.gave)).getD []).find? (fun e => e.1 == k && e.2.1 == p.1)).map (fun e => e.2.2.1)).getD 0
        x.cnt = (ctxOf s k p.1).cnt ∧ x.outbound = [] ∧ x.gbar = none ∧
        (field at_ 62 2 = 2 → (∀ i < 16, vget x.s i 0 = word (rd (8 * i) 8)) ∧
          (∀ i < 16, vget x.v i 0 = BitVec.ofNat 512 (rd (0x80 + 64 * i) 64)) ∧ x.tb = word (rd 0x488 8) ||| gave ∧
          x.en = word (rd 0x4E8 8) ∧ x.rounds = word (rd 0x4E0 8)) ∧
        (field at_ 62 2 ≠ 2 → x.s = p.2.s ∧ x.v = p.2.v ∧ x.tb = p.2.tb ||| gave ∧ x.en = p.2.en)) ∧
      (coreOf t k).acc = Vector.replicate 8 AccSlot.reset ∧ (coreOf t k).bq = [] ∧
      (code ≠ 0x0D → (regionOf t n).rbcnt = r.rbcnt + 1 ∧ (vget t.pkg.cnt 5 0).toNat = more (vget s.pkg.cnt 5 0) 1) ∧
      (code = 0x0D → (regionOf t n).rbcnt = r.rbcnt ∧ (vget t.pkg.xlCnt 3 0).toNat = more (vget s.pkg.xlCnt 3 0) 1) ∧
      (r.pages = [] → (regionOf t n).st = .running) ∧ (r.pages ≠ [] → (regionOf t n).st = .stopped) ∧
      (∀ c blk, gangSlots s n = [(k, c)] → (ctxOf s k c).undoIdx = [blk] → memWf (coreOf s k).mem = true →
        let from_ := 256 * (windowBlock s (ctxOf s k c) + field (ctxOf s k c).undo 36 11)
        ∀ i, memByte (coreOf t k).mem i =
          if 256 * blk ≤ i ∧ i < 256 * blk + 256 then memByte (coreOf s k).mem (from_ + (i - 256 * blk))
          else memByte (coreOf s k).mem i)) ∧
  (∀ (s : State) (n : Nat), s.ev.x = n →
    let fails := fun (t : State) => RollsBack s t n 0x13 ∧ (vget t.pkg.cnt 8 0).toNat = more (vget s.pkg.cnt 8 0) 1 ∧ t.core = s.core
    Runs .comparatorMismatch s fails ∧
    ((∃ e ∈ (regionOf s n).exits, e.since + 100000 ≤ s.now) → Runs .comparatorTimeout s fails) ∧
    ((∀ e ∈ (regionOf s n).exits, s.now < e.since + 100000) → exec .comparatorTimeout s = .next s))

/-- R373 to R376, R378 to R384 (14_package_host), R330 (12_package_launch): events are written to the host's ring, replies resume
their contexts, the watchdog judges a region, the power manager publishes its status, start-up runs step by step to READY, the
host asks for reports and recovers a failed part. Where it rests on the model's own choices, they are log entries 63, 67, 68 and
69. -/
def Obligations.HostServicesAct : Prop :=
  (∀ (s : State) (e : HostEvent) (rest : List HostEvent) (tag : Nat),
    let p := s.pkg
    let l := field p.evcfg 0 5
    let size := if 8 ≤ l ∧ l ≤ 16 then 2 ^ l else 256
    let room := (p.evTail - p.evHead).toNat < size
    let at_ := field p.evcfg 6 58 * 64 % 2 ^ 57 + 64 * (p.evTail.toNat % size)
    let free := fun n => ∀ x ∈ p.tags, x.1 ≠ n
    p.waiting = e :: rest → p.evcfg.getLsbD 5 = true → s.ev.y = 0 → (∀ a ∈ s.agenda, a.op = .eventWrite → a.args.y = 0) →
    (p.linkUp ≠ 0 → room → p.pageWait = [] → (e.kind ≠ 1 ∧ tag = 255) ∨
      (e.kind = 1 ∧ e.behind = 0 ∧ tag < 64 ∧ free tag ∧ ∀ m < tag, ¬ free m) →
      memWf s.host = true → Runs .eventWrite s fun t => SameDevice s t ∧
        HostStored s t at_ (leBytes 2 p.evTail.toNat ++ leBytes 1 e.kind ++ leBytes 1 tag ++ leBytes 2 e.where_ ++ leBytes 2 0 ++
          leBytes 8 e.time.toNat ++ leBytes 8 e.record.w0.toNat ++ leBytes 8 e.record.w1.toNat ++ leBytes 8 e.record.w2.toNat ++
          leBytes 8 e.record.w3.toNat ++ List.replicate 16 0) ∧
        t.pkg.evTail = p.evTail + 1 ∧ t.pkg.waiting = rest ∧ t.pkg.msix = p.msix ++ [p.evVec] ∧
        (e.kind = 1 → ∃ x ∈ t.pkg.tags, x.1 = tag ∧ x.2 = .event (field e.record.w1 39 9) (field e.record.w1 31 8)
          (field e.record.w1 29 2) (field e.record.w1 17 12)) ∧ (e.kind ≠ 1 → t.pkg.tags = p.tags)) ∧
    (¬ room ∨ (e.kind = 1 ∧ (e.behind ≠ 0 ∨ ∀ n < 64, ¬ free n)) → Runs .eventWrite s fun t => t = { s with agenda := t.agenda } ∧
      ∃ a ∈ t.agenda, a.op = .eventWrite ∧ a.args.x = s.now ∧ a.args.y = 1 ∧ a.due = s.now + 1)) ∧
  (∀ (s : State) (tag lx ly cx seq k c : Nat),
    field s.ev.v 0 8 = tag →
    (s.pkg.tags.find? (fun e => e.1 == tag) = none → Runs .pkgEvreplyWrite s fun t =>
      t.pkg = { s.pkg with evStale := t.pkg.evStale } ∧ t.pkg.evStale.toNat = more s.pkg.evStale 1 ∧ t.msgs = s.msgs) ∧
    (s.pkg.tags.find? (fun e => e.1 == tag) = some (tag, .event lx ly cx seq) → s.pkg.pageWait = [] →
      findCtx s (ctxNumber lx ly cx) = some (k, c) → Runs .pkgEvreplyWrite s fun t => (∀ e ∈ t.pkg.tags, e.1 ≠ tag) ∧
        t.pkg.evStale = s.pkg.evStale ∧
        ∃ m ∈ t.msgs, m.dst = k ∧ m.body = .tret (ctxNumber lx ly cx) seq (field s.ev.v 8 2))) ∧
  (∀ (s : State) (n : Nat), s.ev.x = n →
    let r := regionOf s n
    let runs := (r.st = .running ∨ r.st = .swapping ∨ r.st = .rolling) ∧ r.stopping = false
    let count := if runs then r.beatCycles + (s.now - r.slowAt) * slowestClock s r.cores else r.beatCycles
    let told := fun (t : State) (kind : Nat) => ∃ e, t.pkg.waiting = s.pkg.waiting ++ [e] ∧ e.kind = kind ∧ e.where_ = n
    (r.rhb = 0 ∨ r.st = .free ∨ r.hst = 2 → Runs .watchdogDead s fun t => t.pkg = s.pkg ∧ (regionOf t n).hst = r.hst) ∧
    (r.rhb ≠ 0 → r.st ≠ .free → r.hst ≠ 2 → runs → 100 * 65536 * r.rhb.toNat ≤ count → Runs .watchdogDead s fun t =>
      (regionOf t n).hst = 2 ∧ told t 4 ∧ t.core = s.core) ∧
    (r.rhb ≠ 0 → r.st ≠ .free → r.hst ≠ 2 → ¬ (runs ∧ 100 * 65536 * r.rhb.toNat ≤ count) → Runs .watchdogDead s fun t =>
      (regionOf t n).hst = r.hst ∧ t.pkg = s.pkg ∧ ∃ a ∈ t.agenda, a.op = .watchdogDead ∧ a.args.x = n ∧ s.now < a.due) ∧
    (r.rhb = 0 ∨ r.st = .free ∨ r.hst ≠ 0 → exec .watchdogSlow s = .next s) ∧
    (r.rhb ≠ 0 → r.st ≠ .free → r.hst = 0 → runs → 8 * 65536 * r.rhb.toNat ≤ s.now - r.beat → Runs .watchdogSlow s fun t =>
      regionOf t n = { r with hst := 1 } ∧ told t 5 ∧ t.core = s.core) ∧
    (r.rhb ≠ 0 → r.st ≠ .free → r.hst = 0 → ¬ (runs ∧ 8 * 65536 * r.rhb.toNat ≤ s.now - r.beat) → Runs .watchdogSlow s fun t =>
      t = { s with agenda := t.agenda } ∧ ∃ a ∈ t.agenda, a.op = .watchdogSlow ∧ a.args.x = n ∧ s.now < a.due)) ∧
  (∀ (s : State), Runs .powerManagerUpdate s fun t => SameMemory s t ∧
    let floors := ((s.pkg.parts.filter (fun e => e.2.getLsbD 31)).map (fun e => e.2.toNat % 2 ^ 15)).sum
    t.pkg.pstat.getLsbD 0 = decide (s.pkg.cap < 3500) ∧ t.pkg.pstat.getLsbD 1 = decide (s.pkg.cap < floors) ∧
      t.pkg.newPower = [] ∧ (∀ e ∈ s.pkg.newPower, Completing s t e.1 e.2.toNat 1 0) ∧
      Later t .powerManagerUpdate 0 0 (s.now + 10000)) ∧
  (∀ (s : State), s.pkg.ready = false → s.pkg.fail = false →
    let next := fun (n : Nat) (t : State) => t.pkg.phase = n ∧ t.pkg.fail = false ∧ t.pkg.ready = false ∧ Later t .startup 0 0 s.now
    let stops := fun (code : Nat) (t : State) => t.pkg.fail = true ∧ t.pkg.ecode = code ∧ t.pkg.phase = s.pkg.phase ∧
      t.pkg.ready = false ∧ t.agenda = s.agenda
    let bad := Config.bootFailure s.fresh
    let extends_ := fun (t : State) (n : Nat) => vget t.pkg.meas n 0 =
      sha256 (leBytes 32 (vget s.pkg.meas n 0).toNat ++ leBytes 32 (Config.bootDigest n).toNat)
    (s.pkg.phase = 1 → Runs .startup s (next 2)) ∧
    (s.pkg.phase = 2 → bad = 1 ∨ bad = 2 → Runs .startup s (stops bad)) ∧
    (s.pkg.phase = 2 → bad ≠ 1 → bad ≠ 2 → Runs .startup s fun t => next 3 t ∧ extends_ t 0) ∧
    (s.pkg.phase = 3 → bad = 3 → Runs .startup s (stops 3)) ∧
    (s.pkg.phase = 3 → bad ≠ 3 → (∃ cl < 768, clusterUsable cl = false) → Runs .startup s (stops 4)) ∧
    (s.pkg.phase = 3 → bad ≠ 3 → (∀ cl < 768, clusterUsable cl = true) → Runs .startup s fun t => next 4 t ∧ extends_ t 1 ∧
      extends_ t 2 ∧ t.pkg.mapAt = some t.pkg.cmbase.toNat ∧ (dieOf t 0).off = 0 ∧
      t.pkg.grade = gradeOf (((List.range 768).map unboundIn).foldl max 0)) ∧
    (s.pkg.phase = 4 → bad = 5 → Runs .startup s (stops 5)) ∧
    (s.pkg.phase = 4 → bad ≠ 5 → Runs .startup s fun t => next 5 t ∧ t.hbm = [] ∧ t.hbmMeta = [] ∧ t.hbmPoison = [] ∧
      t.pkg.cnt = Vector.replicate 10 0 ∧ (∀ k, (coreOf t k).mem = [] ∧ (coreOf t k).active = [] ∧ (coreOf t k).shadow = []) ∧
      ∀ d, (dieOf t d).pinned = []) ∧
    (s.pkg.phase = 5 → Runs .startup s fun t => t.pkg = { s.pkg with ready := true, msix := s.pkg.msix ++ [0] } ∧
      Later t .powerManagerUpdate 0 0 (s.now + 10000) ∧ ∀ d < 64, Later t .timeRecalibration d 0 (s.now + 2 ^ 20))) ∧
  (∀ (s : State), s.pkg.ready = true ∨ s.pkg.fail = true → exec .startup s = .next s) ∧
  (∀ (most : Nat), gradeOf most = if most = 0 then 3 else if most = 1 then 2 else if most ≤ 8 then 1 else 0) ∧
  (∀ (s : State) (p : Nat), s.ev.x = p → p < 2 → ∀ up, up ∈ [false, true] →
    Runs (if up then .hostLinkUp else .hostLinkDown) s fun t => t = { s with pkg := { s.pkg with linkUp := t.pkg.linkUp } } ∧
      ∀ i < 2, t.pkg.linkUp.getLsbD i = if i = p then up else s.pkg.linkUp.getLsbD i) ∧
  (∀ (s : State) (m : BitVec 2048), s.ev.flit = m → s.pkg.attest.getLsbD 5 = true → s.pkg.attest.getLsbD 4 = false →
    let body := leBytes 4 Config.partCode.toNat ++ leBytes 4 Config.svn.toNat ++ leBytes 1 s.pkg.grade ++ List.replicate 7 0 ++
      leBytes 32 s.pkg.nonce.toNat ++ leBytes 256 m.toNat ++ leBytes 8 (dieTime s 0).toNat
    (s.pkg.linkUp = 0 → Runs .attestReport s fun t => PutOff s t .attestReport) ∧
    (s.pkg.linkUp ≠ 0 → memWf s.host = true → Runs .attestReport s fun t => SameDevice s t ∧
      HostStored s t (field s.pkg.attest 6 58 * 64 % 2 ^ 57) (body ++ (List.range 7856).map (Config.signature body)) ∧
      t.pkg.attest.toNat = s.pkg.attest.toNat - 32)) ∧
  (∀ (s : State), s.pkg.attest.getLsbD 5 = true → s.pkg.attest.getLsbD 4 = true → s.pkg.linkUp ≠ 0 →
    let verifies := s.ev.ok = true ∧ Config.firmwareGood s.fresh = true
    (verifies → s.pkg.fail = true → Runs .recoveryFirmware s fun t => t.pkg.fail = false ∧ t.pkg.ecode = 0 ∧ t.pkg.phase = 3 ∧
      t.pkg.attest.getLsbD 5 = false ∧ Later t .startup 0 0 s.now) ∧
    (¬ verifies ∨ s.pkg.fail = false → Runs .recoveryFirmware s fun t => t.pkg = { s.pkg with attest := t.pkg.attest } ∧
      t.pkg.attest.toNat = s.pkg.attest.toNat - 32 ∧ t.agenda = s.agenda))

/-- R322, R332 (12_package_launch), R357, R361 (13_package_memory), R375, R378, R380, R381 (14_package_host), R238 (08_cluster),
R280 (10_die): what the package registers read as and what a write to them does; DIE_VFR and CLU_RTCTL.SW; a register of a core.
Where it rests on the model's own choice, that is log entry 71. -/
def Obligations.PackageRegisters : Prop :=
  (∀ (s : State),
    pkgWord s 0 = word s.pkg.grade ∧
    (s.pkg.phase < 16 → s.pkg.ecode < 2 ^ 16 → field (pkgWord s 8) 63 1 = (if s.pkg.ready then 1 else 0) ∧
      field (pkgWord s 8) 59 4 = s.pkg.phase ∧ field (pkgWord s 8) 58 1 = (if s.pkg.fail then 1 else 0) ∧
      field (pkgWord s 8) 32 16 = s.pkg.ecode ∧ field (pkgWord s 8) 0 32 = Config.svn.toNat) ∧
    pkgWord s 0x100 = s.pkg.retire ∧ pkgWord s 0x200 = s.pkg.xlctl.zeroExtend 64 ∧ pkgWord s 0x210 = s.pkg.stcfg ∧
    pkgWord s 0x220 = s.pkg.cmbase ∧ pkgWord s 0x400 = s.pkg.evcfg ∧
    (s.pkg.evVec < 2048 → field (pkgWord s 0x408) 32 11 = s.pkg.evVec ∧ field (pkgWord s 0x408) 16 16 = s.pkg.evTail.toNat ∧
      field (pkgWord s 0x408) 0 16 = s.pkg.evHead.toNat) ∧
    pkgWord s 0x500 = word s.pkg.cap ∧ pkgWord s 0x508 = s.pkg.pstat.zeroExtend 64 ∧ pkgWord s 0x600 = s.pkg.attest ∧
    (∀ p < 16, field (pkgWord s (0x540 + p / 2 * 8)) (32 * (p % 2)) 32 = (tget s.pkg.parts 0 p).toNat) ∧
    (∀ n < 10, field (pkgWord s (0x2000 + n / 2 * 8)) (32 * (n % 2)) 32 = (vget s.pkg.cnt n 0).toNat) ∧
    (∀ q < 2048, pkgWord s (0x100000 + 64 * q) = (queueOf s q).base ∧ pkgWord s (0x100008 + 64 * q) = (queueOf s q).cfg ∧
      pkgWord s (0x100018 + 64 * q) = (queueOf s q).widx.zeroExtend 64 ∧ pkgWord s (0x100028 + 64 * q) = (queueOf s q).cpla ∧
      pkgWord s (0x30000 + 8 * q) = (queueOf s q).asroot) ∧
    (∀ r < 512, let x := regionOf s r
      pkgWord s (0x200000 + 32 * r + 16) = word (x.pdl.toNat * 2 ^ 16 + x.sweep.toNat) ∧ pkgWord s (0x200000 + 32 * r + 24) = x.logb ∧
        pkgWord s (0x210000 + 8 * r) =
          word (x.rhb.toNat * 2 ^ 48 + x.hst.toNat * 2 ^ 46 + min (x.beatCycles / 102400) (2 ^ 30 - 1) * 2 ^ 16))) ∧
  (∀ (s : State) (off : Nat), s.ev.x = 2 ^ 63 + off → off < 2 ^ 48 → s.ev.z = 8 →
    let v := s.ev.v
    let W := fun (P : State → Prop) => Runs .registerWrite s P
    let cfgWord : W64 := word (field v 48 16 * 2 ^ 48 + field v 32 1 * 2 ^ 32 + field v 8 24 * 2 ^ 8 + field v 0 5)
    (off = 0x200 → W fun t => t = { s with pkg := { s.pkg with xlctl := BitVec.ofNat 32 (v.toNat % 2 ^ 16) } }) ∧
    (off = 0x100 → s.pkg.ready = true → s.pkg.retire.getLsbD 63 = false → W fun t =>
      t.pkg.retire = word (field v 29 35 * 2 ^ 29 + field s.pkg.retire 28 1 * 2 ^ 28) ∧
      (v.getLsbD 63 = true → ∃ a ∈ t.agenda, a.op = .pkgRetireGo ∧ a.args.v = v ∧ a.args.z = 1)) ∧
    (off = 0x100 → s.pkg.ready = false ∨ s.pkg.retire.getLsbD 63 = true → W fun t => t = s) ∧
    (off = 0x220 → (∀ e ∈ s.region, e.2.st = .free) → W fun t =>
      t = { s with pkg := { s.pkg with cmbase := word (field v 16 25 * 2 ^ 16) } }) ∧
    (off = 0x220 → (∃ e ∈ s.region, e.2.st ≠ .free) → W fun t => t = s) ∧
    (off = 0x400 → W fun t => t.pkg = { s.pkg with evcfg := v }) ∧
    (off = 0x408 → W fun t => t.pkg = { s.pkg with evVec := field v 32 11, evHead := BitVec.ofNat 16 (field v 0 16) }) ∧
    (off = 0x410 → W fun t => t.pkg = s.pkg ∧ ∃ a ∈ t.agenda, a.op = .pkgEvreplyWrite ∧ a.args.v = word (field v 0 32)) ∧
    (off = 0x500 → W fun t => t = { s with pkg := { s.pkg with
      cap := if s.pkg.ready then min (field v 0 15) 28000 else s.pkg.cap } }) ∧
    (∀ q < 2048,
      let x := queueOf s q
      let idle := x.st = .disabled ∨ x.st = .closed ∨ x.st = .faulted
      (off = 0x100000 + 64 * q → W fun t => (queueOf t q).base =
        if x.st = .active ∨ x.st = .closing then x.base else word (field v 7 57 * 2 ^ 7 + field v 0 1)) ∧
      (off = 0x100018 + 64 * q → W fun t => Later t .queueKick q (field v 0 16) s.now ∧ t.queue = s.queue) ∧
      (off = 0x100020 + 64 * q → s.pkg.ready = true → W fun t => t.queue = s.queue ∧
        (v.getLsbD 0 = true → Later t .queueEnable q (field v 16 16) s.now) ∧ (v.getLsbD 1 = true → Later t .queueOff q 0 s.now)) ∧
      (off = 0x100020 + 64 * q → s.pkg.ready = false → W fun t => t = s) ∧
      (off = 0x100028 + 64 * q → W fun t => queueOf t q = { x with cpla := word (field v 3 61 * 8) }) ∧
      (off = 0x100008 + 64 * q → idle → field v 8 4 < 15 ∨ q < 8 → W fun t => queueOf t q = { x with cfg := cfgWord }) ∧
      (off = 0x30000 + 8 * q → W fun t => queueOf t q = { x with asroot := word (field v 63 1 * 2 ^ 63 + field v 0 46) })) ∧
    (∀ r < 512, let x := regionOf s r
      (off = 0x200010 + 32 * r → x.st = .free → W fun t => regionOf t r =
        { x with pdl := BitVec.ofNat 32 (field v 16 32), sweep := BitVec.ofNat 16 (max 64 (field v 0 16)) }) ∧
      (off = 0x200010 + 32 * r → x.st ≠ .free → W fun t => t = s) ∧
      (off = 0x210000 + 8 * r → W fun t => regionOf t r = { x with rhb := BitVec.ofNat 16 (field v 48 16) }))) ∧
  (∀ (s : State) (k off : Nat), k / 256 < 312 → 0x70000 ≤ off → off < 0x80000 → s.ev.z = 8 →
    s.ev.x = 2 ^ 63 + 3 * 2 ^ 58 + k / 256 * 2 ^ 38 + k % 256 * 2 ^ 30 + off →
    Runs .registerWrite s fun t => t = writeRegBytes s k ((List.range 8).map (fun i => (off + i, s.ev.v.extractLsb' (8 * i) 8)))) ∧
  (∀ (s : State) (cl : Nat), s.ev.x = cl → cl < 768 →
    ((clusterOf s cl).rtSw = true → exec .cluRouteSwitchRequest s = .next s) ∧
    ((clusterOf s cl).rtSw = false → Runs .cluRouteSwitchRequest s fun t =>
      clusterOf t cl = { clusterOf s cl with rtSw := true, rtAct := !(clusterOf s cl).rtAct, rtDone := 0 } ∧
      ∀ k ∈ clusterCores cl, ∀ j < 4, Later t .routeClassSwitch k j s.now)) ∧
  (∀ (s : State) (die k : Nat), s.ev.x = die → s.ev.y = k → die < 64 → k < 4 →
    let v := s.ev.v
    let d := dieOf s die
    let o := vfOf s die k
    let n := { o with rpt := field v 55 4, rfreq := field v 46 9, x0 := field v 29 2, x1 := field v 27 2, y0 := field v 25 2,
                      y1 := field v 23 2 }
    (k = 0 → o.v = true → Runs .dieVfrWrite s fun t =>
      vfOf t die 0 = { n with pend := (vfOf t die 0).pend } ∧
      ((vfOf t die 0).pend = true ↔ o.busy = true ∨ n.rpt ≠ o.pt ∨ max 40 (min n.rfreq (min (40 + 8 * n.rpt) o.ceil)) ≠ o.freq) ∧
      ((vfOf t die 0).pend = true → ∃ a ∈ t.agenda, a.op = .vfRequestApply ∧ a.args.x = die ∧ a.args.y = 0)) ∧
    (k ≠ 0 → v.getLsbD 31 = false → o.v = false → Runs .dieVfrWrite s fun t => SameMemory s t ∧
      vfOf t die k = { n with v := false } ∧ ∀ c < 12, vfIndex (dieOf t die) c = vfIndex d c) ∧
    (k ≠ 0 → v.getLsbD 31 = true → (∀ j, j ∈ [1, 2, 3] → j ≠ k → (vfOf s die j).v = false) →
      (∃ c < 12, vfIndex d c = 0 ∧ clusterPlaced s (12 * die + c) = true ∧ field v 29 2 ≤ c % 3 ∧ c % 3 ≤ field v 27 2 ∧
        field v 25 2 ≤ c / 3 ∧ c / 3 ≤ field v 23 2) → exec .dieVfrWrite s = .next s))

/-- R387 to R393, R395, R399 (15_fabric): a port sends its identity, what it owes, a replay, or data of its packets; takes flits
in order, acknowledges, asks for replays; trains, verifies, drains, fails and goes dark as its state machine says, and ends its
commands. Where it rests on the model's own choices, they are log entries 76 and 77. -/
def Obligations.FabricPortsAct : Prop :=
  (∀ (kind seq ack : Nat) (nak : Bool) (c : Nat × Nat) (pay : List Byte), kind < 16 → seq < 4096 → ack < 4096 → c.1 < 256 →
    c.2 < 256 → pay.length ≤ 240 →
    let f := flitOf kind seq ack nak c pay
    let at_ := fun (lo n : Nat) => f.toNat / 2 ^ lo % 2 ^ n
    at_ 0 12 = seq ∧ at_ 12 4 = kind ∧ at_ 16 12 = ack ∧ at_ 28 1 = (if nak then 1 else 0) ∧ at_ 32 8 = c.1 ∧ at_ 40 8 = c.2 ∧
      at_ 48 16 = 0 ∧ flitPay f = (pay ++ List.replicate (240 - pay.length) 0) ∧
      at_ 1984 32 = (crc32c (leBytes 248 f.toNat)).toNat) ∧
  (∀ (s : State) (port : Nat), s.ev.x = port →
    let p := portOf s port
    let up := p.st = .active ∨ p.st = .quiesce ∨ p.st = .drain
    let cr := (min 255 p.credits.1, min 255 p.credits.2)
    let on := fun (t : State) => Later t .fabricFlitTransmit port 0 (s.now + 1)
    let own := flitOf 2 0 0 false (0, 0) (leBytes 2 s.fab.id ++ leBytes 1 port)
    (p.st = .dark ∨ p.st = .train ∨ p.st = .failed → exec .fabricFlitTransmit s = .next s) ∧
    (p.st = .verify → Runs .fabricFlitTransmit s fun t => portOf t port = { p with tx := own } ∧
      Later t .fabricFlitTransmit port s.ev.y (s.now + 64)) ∧
    (up → p.nak = true → Runs .fabricFlitTransmit s fun t => on t ∧ portOf t port =
      { p with tx := flitOf 1 0 (p.rxSeq - 1).toNat true cr [], say := decide (cr ≠ p.credits), nak := false,
               credits := (p.credits.1 - cr.1, p.credits.2 - cr.2) }) ∧
    (up → p.nak = false → p.say = false → 0 < p.replaying → Runs .fabricFlitTransmit s fun t => on t ∧
      portOf t port = { p with tx := p.replay.getD (p.replay.length - p.replaying) 0, replaying := p.replaying - 1 } ∧
      (vget t.fab.cnt 3 0).toNat = more (vget s.fab.cnt 3 0) 1) ∧
    (p.st = .active → p.nak = false → p.replaying = 0 → p.stream ≠ [] → p.waiting = [] → p.replay.length < 512 →
      Runs .fabricFlitTransmit s fun t =>
        let f := flitOf 0 p.txSeq.toNat (p.rxSeq - 1).toNat false cr (p.stream.take 240)
        let q := portOf t port
        on t ∧ q.tx = f ∧ q.stream = p.stream.drop 240 ∧ q.replay = p.replay ++ [f] ∧ q.txSeq = p.txSeq + 1 ∧ q.st = .active ∧
          q.credits = (p.credits.1 - cr.1, p.credits.2 - cr.2) ∧ (vget t.fab.cnt 0 0).toNat = more (vget s.fab.cnt 0 0) 1) ∧
    (∀ k, p.st = .active → p.nak = false → p.replaying = 0 → p.stream = [] → p.waiting = [k] → p.replay.length < 512 →
      p.cmp = false → k.fctl = false → 0 < p.room.1 → k.from_ = none → Runs .fabricFlitTransmit s fun t =>
        let bs := headerBytes k ++ k.body
        let q := portOf t port
        on t ∧ q.tx = flitOf 0 p.txSeq.toNat (p.rxSeq - 1).toNat false cr (bs.take 240) ∧ q.stream = bs.drop 240 ∧
          q.waiting = [] ∧ q.room = (p.room.1 - 1, p.room.2) ∧ q.started.map (fun x => x.pkt) = p.started.map (fun x => x.pkt) ++ [k]) ∧
    (p.st = .active → p.nak = false → p.say = false → p.replaying = 0 → p.stream = [] → p.waiting = [] →
      exec .fabricFlitTransmit s = .next s)) ∧
  (∀ (s : State) (port : Nat), s.ev.x = port →
    let p := portOf s port
    let f := s.ev.flit
    let at_ := fun (lo n : Nat) => f.toNat / 2 ^ lo % 2 ^ n
    let up := p.st = .active ∨ p.st = .quiesce ∨ p.st = .drain
    let ack := f.extractLsb' 16 12
    let good := at_ 1984 32 = (crc32c (leBytes 248 f.toNat)).toNat
    let room := (p.room.1 + at_ 32 8, p.room.2 + at_ 40 8)
    (p.st = .dark ∨ p.st = .train ∨ p.st = .failed → exec .fabricFlitReceive s = .next s) ∧
    (up → ¬ good → Runs .fabricFlitReceive s fun t => (vget t.fab.cnt 2 0).toNat = more (vget s.fab.cnt 2 0) 1 ∧
      portOf t port = { p with nak := p.nak || !p.discarding, discarding := true }) ∧
    (up → good → 2 ≤ at_ 12 4 → exec .fabricFlitReceive s = .next s) ∧
    (p.st = .active → good → at_ 12 4 = 0 → at_ 28 1 = 0 → ack = p.ackd →
      let seq := f.extractLsb' 0 12
      (seq ≠ p.rxSeq → (p.rxSeq - seq).toNat ≤ 2048 → Runs .fabricFlitReceive s fun t => portOf t port = { p with say := true } ∧
        t.fab.transit = s.fab.transit) ∧
      (seq ≠ p.rxSeq → 2048 < (p.rxSeq - seq).toNat → Runs .fabricFlitReceive s fun t => t.fab.transit = s.fab.transit ∧
        portOf t port = { p with nak := p.nak || !p.discarding, discarding := true }) ∧
      (seq = p.rxSeq → p.partialRx = [] → (∀ b ∈ (flitPay f).take 16, b = 0) → Runs .fabricFlitReceive s fun t =>
        portOf t port = { p with rxSeq := p.rxSeq + 1, discarding := false, say := true, room := room } ∧
        (vget t.fab.cnt 1 0).toNat = more (vget s.fab.cnt 1 0) 1 ∧ t.fab.transit = s.fab.transit) ∧
      (∀ (k : FabPacket) (r : Nat), seq = p.rxSeq → p.partialRx = [] → k.body ≠ [] → k.body.length ≤ 224 → k.dst < 1024 → k.src < 1024 →
        k.sched < 64 → k.off < 2 ^ 32 → k.from_ = some port → flitPay f = headerBytes k ++ k.body ++ List.replicate r 0 →
        Runs .fabricFlitReceive s fun t => (portOf t port).rxSeq = p.rxSeq + 1 ∧ (portOf t port).say = true ∧
          t.fab.transit = s.fab.transit ++ [{ k with id := s.nextId }] ∧
          ∃ a ∈ t.agenda, a.args.x = s.nextId ∧ a.op =
            (let e := fabricRoute s.fab k.bank k.dst
             if e.getLsbD 15 = true ∧ e.getLsbD 14 = true then (if k.fctl then Instr.fctlArrival else .fdataDelivery)
             else .transitForward))) ∧
    (p.st = .active → good → at_ 12 4 = 1 → at_ 28 1 = 0 →
      let n := (ack - p.ackd).toNat
      (1 ≤ n → n ≤ p.replay.length → Runs .fabricFlitReceive s fun t =>
        let q := portOf t port
        q.replay = p.replay.drop n ∧ q.ackd = ack ∧ q.resends = 0 ∧ q.room = room ∧ q.st = .active ∧
          (∀ x ∈ q.started, x ∈ p.started ∧ ∀ l, x.last = some l → n ≤ (l - p.ackd - 1).toNat)) ∧
      (n = 0 → Runs .fabricFlitReceive s fun t => portOf t port = { p with room := room }))) ∧
  (∀ (s : State) (port : Nat), s.ev.x = port →
    let p := portOf s port
    let up := p.st = .active ∨ p.st = .quiesce ∨ p.st = .drain
    (¬ up ∨ p.replay = [] → exec .replayTimeout s = .next s) ∧
    (up → p.replay ≠ [] → s.now < p.ackAt + 2000 → Runs .replayTimeout s fun t => t = { s with agenda := t.agenda } ∧
      Later t .replayTimeout port s.ev.y (p.ackAt + 2000)) ∧
    (up → p.replay ≠ [] → p.ackAt + 2000 ≤ s.now → p.resends < 16 ∨ p.st ≠ .active → Runs .replayTimeout s fun t =>
      portOf t port = { p with resends := p.resends + 1, replaying := p.replay.length, ackAt := s.now } ∧
      LaterOf t .fabricFlitTransmit port 0 0) ∧
    (p.st = .active → p.replay ≠ [] → p.ackAt + 2000 ≤ s.now → 16 ≤ p.resends → Runs .replayTimeout s fun t => PortFails s t port 3) ∧
    (p.st ≠ .train → exec .laneLock s = .next s) ∧
    (p.st = .train → Runs .laneLock s fun t => (portOf t port).st = .verify ∧
      (portOf t port).tx = flitOf 2 0 0 false (0, 0) (leBytes 2 s.fab.id ++ leBytes 1 port) ∧
      Later t .verifyTimeout port 0 (s.now + 20000) ∧ LaterOf t .fabricFlitTransmit port 0 0) ∧
    (p.st = .train → p.since + 400000 ≤ s.now → Runs .trainTimeout s fun t => PortFails s t port 1 ∧
      (vget t.fab.cnt 6 0).toNat = more (vget s.fab.cnt 6 0) 1) ∧
    (p.st ≠ .train ∨ s.now < p.since + 400000 → exec .trainTimeout s = .next s) ∧
    (p.st = .verify → p.since + 20000 ≤ s.now → Runs .verifyTimeout s fun t => PortFails s t port 2 ∧
      (vget t.fab.cnt 7 0).toNat = more (vget s.fab.cnt 7 0) 1) ∧
    (p.st ≠ .verify ∨ s.now < p.since + 20000 → exec .verifyTimeout s = .next s) ∧
    (p.st = .active → Runs .lossOfLock s fun t => PortFails s t port 4) ∧ (p.st ≠ .active → exec .lossOfLock s = .next s) ∧
    (p.st = .drain → p.since + 100000 ≤ s.now → Runs .drainDeadline s fun t => (portOf t port).st = .dark ∧
      (portOf t port).cause = 5 ∧ (portOf t port).replay = [] ∧ (portOf t port).waiting = [] ∧
      (vget t.fab.cnt 5 0).toNat = more (vget s.fab.cnt 5 0) (p.replay.length + p.waiting.length)) ∧
    (p.st ≠ .drain ∨ s.now < p.since + 100000 → exec .drainDeadline s = .next s)) ∧
  (∀ (s : State) (port : Nat), s.ev.x = port →
    let p := portOf s port
    let fits := (p.expPeer = 65535 ∨ p.expPeer = s.ev.y) ∧ (p.expPort = 255 ∨ p.expPort = s.ev.z)
    (p.st ≠ .verify → exec .identityArrival s = .next s) ∧
    (p.st = .verify → ¬ fits → Runs .identityArrival s fun t => PortFails s t port 2 ∧
      (vget t.fab.cnt 7 0).toNat = more (vget s.fab.cnt 7 0) 1) ∧
    (p.st = .verify → fits → Runs .identityArrival s fun t =>
      let q := portOf t port
      q.st = .active ∧ q.peer = s.ev.y ∧ q.peerPort = s.ev.z ∧ q.txSeq = 0 ∧ q.rxSeq = 0 ∧ q.replay = [] ∧ q.txDict = [] ∧
        q.rxDict = [] ∧ q.room = (Config.portCredits 0, Config.portCredits 1) ∧
        (∀ j r, p.busy = true → p.cmds = j :: r → q.busy = false ∧ EndsCommand s t j 1 0))) ∧
  (∀ (s : State) (port : Nat) (j : PortCmd) (r : List PortCmd), s.ev.x = port →
    let p := portOf s port
    p.busy = false → p.cmds = j :: r →
    let rejected := fun (i : Instr) => Runs i s fun t => EndsCommand s t j 4 4 ∧ portOf t port = { p with cmds := r }
    let quiesces := fun (i : Instr) =>
      (p.stream ≠ [] → Runs i s fun t => (portOf t port).st = .quiesce ∧ (portOf t port).busy = true) ∧
      (p.stream = [] → p.replay ≠ [] → Runs i s fun t => (portOf t port).st = .drain ∧ (portOf t port).busy = true ∧
        Later t .drainDeadline port 0 (s.now + 100000))
    let trains := fun (i : Instr) => Runs i s fun t => portOf t port = { p with
      expPeer := j.peer, expPort := j.peerPort, cmp := j.cmp, st := .train, since := s.now, busy := true } ∧
      Later t .trainTimeout port 0 (s.now + 400000)
    (j.op = 0 → p.st = .active → quiesces .portCmdQuiesce ∧ (p.stream = [] → p.replay = [] → Runs .portCmdQuiesce s fun t =>
      (portOf t port).st = .dark ∧ (portOf t port).busy = false ∧ EndsCommand s t j 1 0)) ∧
    (j.op = 0 → p.st ≠ .active → rejected .portCmdQuiesce) ∧
    (j.op = 1 → p.st = .dark ∨ p.st = .failed → s.fab.idV = true → trains .portCmdTrain) ∧
    (j.op = 1 → (p.st ≠ .dark ∧ p.st ≠ .failed) ∨ s.fab.idV = false → rejected .portCmdTrain) ∧
    (j.op = 2 → s.fab.idV = true → p.st = .active → quiesces .portCmdCycle) ∧
    (j.op = 2 → s.fab.idV = true → p.st = .dark ∨ p.st = .failed → Runs .portCmdCycle s fun t =>
      portOf t port = { p with st := .dark, since := s.now, dark := j.dark, busy := true } ∧
      Later t .darkTimeExpiry port 0 (s.now + 10000 * j.dark)) ∧
    (j.op = 2 → s.fab.idV = false ∨ p.st = .train ∨ p.st = .verify ∨ p.st = .quiesce ∨ p.st = .drain → rejected .portCmdCycle) ∧
    (∀ s2, s2 = setPort s port { p with busy := true } → j.op = 2 → p.st = .dark → s.fab.idV = true →
      p.since + 10000 * j.dark ≤ s.now → Runs .darkTimeExpiry s2 fun t => portOf t port = { p with
        expPeer := j.peer, expPort := j.peerPort, cmp := j.cmp, st := .train, since := s.now, busy := true } ∧
        Later t .trainTimeout port 0 (s.now + 400000)))

/-- R389, R394 to R399, R401 (15_fabric), R246 (08_cluster): transit packets follow their bank's routes; FCTL arrivals and FDATA
deliveries move the steps of collectives, which start in order and complete; route switches move flows that are idle; a
FABRIC_RECONF runs its port commands together. Where it rests on the model's own choices, they are log entries 78 and 79. -/
def Obligations.FabricUnitActs : Prop :=
  (∀ (s : State) (id : Nat) (k : FabPacket) (r : List FabPacket), s.ev.x = id → Transits s id k r →
    let e := fabricRoute s.fab k.bank k.dst
    (e.getLsbD 15 = false ∨ 47 < e.toNat % 64 → Runs .transitForward s fun t => t.fab.transit = r ∧ Credited s t k ∧
      (vget t.fab.cnt 8 0).toNat = more (vget s.fab.cnt 8 0) 1) ∧
    (e.getLsbD 15 = true → e.toNat % 64 ≤ 47 → e.getLsbD 14 = false → Runs .transitForward s fun t => t.fab.transit = r ∧
      portOf t (e.toNat % 64) = { portOf s (e.toNat % 64) with waiting := (portOf s (e.toNat % 64)).waiting ++ [k] } ∧
      LaterOf t .fabricFlitTransmit (e.toNat % 64) 0 0)) ∧
  (∀ (s : State) (id : Nat) (k : FabPacket) (r : List FabPacket), s.ev.x = id → Transits s id k r →
    let peer := fun (t : RunStep) => stepPeer t.word = k.src ∧ stepTag t.word = k.stag
    let alone := fun (t : RunStep) (n : Nat) => ∃ c, s.fab.cst = [(n, c)] ∧ c.steps = [t] ∧ peer t
    let told := fun (u : State) (t : RunStep) (n : Nat) (x : RunStep) => (schedOf u n).steps = [x] ∧ u.fab.transit = r ∧
      Later u .collStepComplete n t.n s.now
    let kept := fun (u : State) => u.fab.early = s.fab.early ++ [k] ∧ u.fab.transit = r ∧ u.fab.cst = s.fab.cst
    (k.off = 0 → (∀ t n, alone t n → stepKind t.word = 0 → t.cts = false → Runs .fctlArrival s fun u =>
        told u t n { t with cts := true }) ∧
      ((∀ c ∈ s.fab.cst, ∀ t ∈ c.2.steps, stepKind t.word ≠ 0 ∨ t.cts = true ∨ ¬ peer t) → Runs .fctlArrival s kept)) ∧
    (k.off = 1 → ∀ t n, alone t n → k.sched = n → stepKind t.word = 0 → t.acked < up (stepLen t.word) 4096 →
      Runs .fctlArrival s fun u => told u t n { t with acked := t.acked + 1 } ∧
        (flowOf u.fab false k.src).out = (flowOf s.fab false k.src).out - 1) ∧
    (k.off = 2 → (∀ t n, alone t n → stepKind t.word = 3 → t.arrived = false → Runs .fctlArrival s fun u =>
        told u t n { t with arrived := true }) ∧
      ((∀ c ∈ s.fab.cst, ∀ t ∈ c.2.steps, stepKind t.word ≠ 3 ∨ t.arrived = true ∨ ¬ peer t) → Runs .fctlArrival s kept)) ∧
    ((∀ c ∈ s.fab.cst, ∀ t ∈ c.2.steps, (stepKind t.word ≠ 1 ∧ stepKind t.word ≠ 2) ∨ ¬ peer t ∨ stepLen t.word ≤ t.moved) →
      Runs .fdataDelivery s fun u => (∃ l, u.fab.transit = r ++ l ∧ l.length ≤ 1) ∧ SameMemory s u ∧ u.fab.cst = s.fab.cst ∧
        FabricSends s u true k.src k.sched k.stag 1 []) ∧
    (∀ t n c q base u', alone t n → s.fab.cst = [(n, c)] → c.run = some (q, base) → stepKind t.word = 1 → t.moved < stepLen t.word →
      k.off + k.body.length ≤ stepLen t.word →
      collWrite s q (base + BitVec.ofNat 64 (bits t.word 95 64 + k.off)) k.body = (.got [], u') → Runs .fdataDelivery s fun v =>
        SameMemory u' v ∧ (schedOf v n).steps = [{ t with moved := k.off + k.body.length }] ∧ Later v .collStepComplete n t.n u'.now) ∧
    (∀ t n c q base a u u', alone t n → s.fab.cst = [(n, c)] → c.run = some (q, base) → stepKind t.word = 2 → t.moved < stepLen t.word →
      k.off + k.body.length ≤ stepLen t.word →
      collRead s q (base + BitVec.ofNat 64 (bits t.word 127 96 + k.off)) k.body.length = (.got a, u) →
      let res := reduceBytes (bits t.word 11 8) a k.body
      collWrite (countFabric (countFabric u 10 res.2.1) 11 res.2.2) q (base + BitVec.ofNat 64 (bits t.word 95 64 + k.off)) res.1 =
        (.got [], u') → Runs .fdataDelivery s fun v => SameMemory u' v ∧
        (schedOf v n).steps = [{ t with moved := k.off + k.body.length }] ∧ Later v .collStepComplete n t.n u'.now)) ∧
  (∀ (op : Nat) (a r : List Byte), a.length = 64 → r.length = 64 →
    (reduceBytes op a r).1 = vBytes (redCombine op true (ofBytes a) (ofBytes r)).1) ∧
  (∀ (s : State),
    let f := s.fab
    (f.sw = true ∨ f.arm ≠ none → exec .fabRouteSwitchRequest s = .next s) ∧
    (f.sw = false → f.arm = none → (∃ x ∈ f.flows, x.bank = f.act ∧ x.out ≠ 0) → Runs .fabRouteSwitchRequest s fun t =>
      t.fab.act = !f.act ∧ t.fab.sw = true ∧ ∀ x ∈ f.flows, x.out = 0 → Later t .flowSwitch (if x.fctl then 1 else 0) x.dst s.now) ∧
    (f.sw = false → f.arm = none → f.flows = [] → Runs .fabRouteSwitchRequest s fun t =>
      t.fab.act = !f.act ∧ t.fab.sw = false ∧ t.fab.done0 = true ∧ t.fab.done1 = true) ∧
    (let x := flowOf f (decide (s.ev.x = 1)) s.ev.y
     (f.sw = false ∨ x.out ≠ 0 → exec .flowSwitch s = .next s) ∧
     (f.sw = true → x.out = 0 → Runs .flowSwitch s fun t => (flowOf t.fab (decide (s.ev.x = 1)) s.ev.y).bank = f.act ∧
       t.fab.act = f.act ∧ (f.flows = [x] → t.fab.sw = false ∧ t.fab.done0 = true ∧ t.fab.done1 = true ∧
         ∀ c, f.swCmd = some c → TagSet s t c.cx c.tag)))) ∧
  (∀ (s : State) (k : Nat), s.ev.x = k →
    let c := schedOf s k
    (c.run = none → c.waiting = [] → exec .collStepStart s = .next s) ∧
    (∀ q rest, c.run = none → c.waiting = q :: rest → Runs .collStepStart s fun t => Later t .collStepStart k s.ev.y s.now ∧
      schedOf t k = { c with run := some q, next := 0, doneN := 0, steps := [], waiting := rest }) ∧
    (∀ q base, c.run = some (q, base) →
      let r := regionOf s (commandRegion s q)
      let n := field c.w0 48 11
      let ends := fun (u t : State) (code : BitVec 8) => FailsCommand u t q code ∧ (schedOf t k).run = none ∧
        (schedOf t k).steps = [] ∧ Later t .collStepStart k 0 u.now
      (n = 0 → c.next = 0 → Runs .collStepStart s fun t => ends s t 0x04) ∧
      (n ≠ 0 ∨ c.next ≠ 0 → n ≤ c.next ∨ 8 ≤ c.steps.length → exec .collStepStart s = .next s) ∧
      (c.next < n → c.steps.length < 8 → r.st ≠ .running ∨ r.stopping = true → Runs .collStepStart s fun t =>
        t = { s with agenda := t.agenda } ∧ Later t .collStepStart k s.ev.y (s.now + 1000)) ∧
      (∀ bs u, c.next < n → c.steps.length < 8 → r.st = .running → r.stopping = false →
        collRead s q (c.w1 + word (32 * c.next)) 32 = (.got bs, u) → schedOf u k = c →
        let w := BitVec.ofNat 256 (leNat bs)
        let kind := stepKind w
        let go := w.getLsbD 12 = false ∨ c.steps = []
        let route := fabricRoute u.fab (flowBank u.fab (decide (kind ≠ 0)) (stepPeer w)) (stepPeer w)
        (¬ go → exec .collStepStart s = .next u) ∧
        (go → stepOk u.fab.id w = false → Runs .collStepStart s fun t => ends u t 0x04) ∧
        (go → stepOk u.fab.id w = true → route.getLsbD 15 = false → Runs .collStepStart s fun t => ends u t 0x09) ∧
        (∀ code, go → stepOk u.fab.id w = true → route.getLsbD 15 = true → stepFault u q base w = some code →
          Runs .collStepStart s fun t => ends u t code) ∧
        (go → stepOk u.fab.id w = true → route.getLsbD 15 = true → stepFault u q base w = none → u.fab.early = [] →
          Runs .collStepStart s fun t => SameMemory u t ∧ (schedOf t k).next = c.next + 1 ∧
            (∃ o, (schedOf t k).steps = c.steps ++ [⟨c.next, w, 0, 0, false, false, false, o⟩]) ∧
            Later t .collStepComplete k c.next u.now ∧ Later t .collStepStart k 0 u.now ∧
            (kind ≠ 0 → FabricSends u t true (stepPeer w) k (stepTag w) (if kind = 3 then 2 else 0) []))))) ∧
  (∀ (s : State) (k n : Nat) (c : Sched) (q : Command) (base : W64) (x : RunStep), s.ev.x = k → s.ev.y = n → s.fab.cst = [(k, c)] →
    c.run = some (q, base) → c.steps.find? (fun t => t.n == n) = some x →
    let len := stepLen x.word
    let kind := stepKind x.word
    let rest := c.steps.filter (fun t => t.n != n)
    let ended := (kind = 0 ∧ x.cts = true ∧ len ≤ x.moved ∧ up len 4096 ≤ x.acked) ∨ (kind = 3 ∧ x.arrived = true) ∨
      (kind ≠ 0 ∧ kind ≠ 3 ∧ len ≤ x.moved)
    let more_ := kind = 0 ∧ x.cts = true ∧ x.moved < len
    (¬ ended → ¬ more_ → exec .collStepComplete s = .next s) ∧
    (ended → (vget s.fab.cnt 9 0).toNat < 2 ^ 32 - 1 → Runs .collStepComplete s fun t =>
      (vget t.fab.cnt 9 0).toNat = (vget s.fab.cnt 9 0).toNat + 1 ∧ (schedOf t k).steps = rest ∧ (schedOf t k).doneN = c.doneN + 1 ∧
      LaterOf t .collStepStart k 0 0 ∧
      (rest = [] → field c.w0 48 11 ≤ c.next → (schedOf t k).run = none ∧ (s.fab.arm = none → TagSet s t q.cx q.tag)) ∧
      (kind = 3 → s.fab.arm ≠ none → t.fab.act = (!s.fab.act) ∧ t.fab.arm = none) ∧
      (kind ≠ 3 → t.fab.act = s.fab.act ∧ t.fab.arm = s.fab.arm)) ∧
    (∀ bs u, more_ → c.steps = [x] →
      collRead s q (base + word (field (x.word.extractLsb' 64 64) 0 32 + x.moved)) (min 4096 (len - x.moved)) = (.got bs, u) →
      u.fab = s.fab → Runs .collStepComplete s fun t => SameMemory u t ∧ Later t .collStepComplete k n (u.now + 1) ∧
        (schedOf t k).steps = [{ x with moved := x.moved + min 4096 (len - x.moved) }] ∧
        FabricSends u t false (stepPeer x.word) k (stepTag x.word) x.moved bs)) ∧
  (∀ (s u : State) (q idx a : Nat) (p : Packet) (bs : List Byte), s.ev.x = q → s.ev.y = idx → packetOf s q idx = some p →
    let n := inPacket p.bytes 24 2
    let entry := fun i => leNat ((bs.drop (8 * i)).take 8)
    let twice := ∃ i < n, ∃ j < n, i ≠ j ∧ entry i % 256 = entry j % 256
    (reconfOf s q idx = none → locAddress (queueLoc (queueOf s q)) (inPacket p.bytes 16 8) = some a →
      queueRead s q (queueLoc (queueOf s q)) a (8 * n) 3 = (.got bs, u) →
      (twice ∨ (∃ i < n, reconfOk (entry i) = false) → Runs .fabricReconf s fun t => t = { u with agenda := t.agenda } ∧
        Completing u t q idx 4 4) ∧
      (¬ twice → (∀ i < n, reconfOk (entry i) = true) → Runs .fabricReconf s fun t => LaterOf t .fabricReconf q idx 0 ∧
        reconfOf t q idx = some ((List.range n).map (fun i => entry i % 256), word (inPacket p.bytes 32 8), false) ∧
        ∀ i < n, ∃ j, (portOf t (entry i % 256)).cmds = (portOf u (entry i % 256)).cmds ++ [j] ∧ j.op = entry i / 2 ^ 8 % 256 ∧
          j.peer = entry i / 2 ^ 16 % 65536 ∧ j.peerPort = entry i / 2 ^ 32 % 256 ∧ j.cmp = decide (entry i / 2 ^ 40 % 2 = 1) ∧
          j.dark = entry i / 2 ^ 48 % 65536 ∧ j.packet = some (q, p.idx))) ∧
    (∀ failed, reconfOf s q idx = some ([], 0, failed) → Runs .fabricReconf s fun t =>
      Completing s t q idx (if failed then 3 else 1) 0 ∧ reconfOf t q idx = none) ∧
    (∀ ports failed, ports ≠ [] → reconfOf s q idx = some (ports, 0, failed) → exec .fabricReconf s = .next s) ∧
    (∀ ports image failed, reconfOf s q idx = some (ports, image, failed) → image ≠ 0 →
      (s.fab.sw = true → Runs .fabricReconf s fun t => PutOff s t .fabricReconf) ∧
      (s.fab.sw = false → locAddress (queueLoc (queueOf s q)) image.toNat = some a →
        queueRead s q (queueLoc (queueOf s q)) a 2048 3 = (.got bs, u) → u.fab = s.fab → Runs .fabricReconf s fun t =>
          reconfOf t q idx = some (ports, 0, failed) ∧ Later t .fabricReconf q idx u.now ∧
          ∀ d < 1024, (fabricRoute t.fab (!s.fab.act) d).toNat =
            (let e := leNat ((bs.drop (2 * d)).take 2); e / 2 ^ 14 * 2 ^ 14 + e % 64) ∧
            fabricRoute t.fab s.fab.act d = fabricRoute s.fab s.fab.act d)))
end

