-- ==== Sys2Proof/Laws/Body.lean ====
section
/-! SUPPORT. The laws of a body's computations: what the shared operations of instruction meanings do when they succeed and
when they abort. -/
namespace Sys2Proof.Machine

/-! ## Computations of a body -/

theorem Body.pure_run {α : Type} (x : α) (w : Work) : (pure x : Body α) w = .ok x w := rfl
theorem Body.bind_ok {α β : Type} {m : Body α} {f : α → Body β} {w w' : Work} {x : α} (h : m w = .ok x w') :
    (m >>= f) w = f x w' := by
  show EStateM.bind m f w = _
  simp only [EStateM.bind, h]
theorem Body.bind_error {α β : Type} {m : Body α} {f : α → Body β} {w w' : Work} {a : Abort} (h : m w = .error a w') :
    (m >>= f) w = .error a w' := by
  show EStateM.bind m f w = _
  simp only [EStateM.bind, h]
theorem Body.get_run (w : Work) : (get : Body Work) w = .ok w w := rfl
theorem Body.set_run (w v : Work) : (set v : Body Unit) w = .ok () v := rfl
theorem Body.modify_run (f : Work → Work) (w : Work) : (modify f : Body Unit) w = .ok () (f w) := rfl
theorem abortWith_run {α : Type} (c : BitVec 8) (i : W64) (w : Work) :
    (abortWith c i : Body α) w = .error ⟨c, i, 0, 0, 0, 0⟩ w := rfl
theorem need_true (c : BitVec 8) (i : W64) (w : Work) : need true c i w = .ok () w := rfl
theorem need_false (c : BitVec 8) (i : W64) (w : Work) : need false c i w = .error ⟨c, i, 0, 0, 0, 0⟩ w := rfl

/-! ## The runner -/

/-- The unit hint that an instruction needs of its rule's header. -/
def hinted (u : BodyUnit) (hdrA : W64) : Bool :=
  match u with | .plain => true | .vector => bitAt hdrA 57 | .basin => bitAt hdrA 58

theorem runBody_ok {s : State} {opc : BitVec 8} {u : BodyUnit} {words cost : Nat} {m : Body Unit} {w' : Work}
    (hu : hinted u s.stage.work.hdrA = true) (h : m { s.stage.work with opc := opc } = .ok () w') :
    runBody s opc u words cost m = .next (bodyWent s (w'.advance words cost)) := by
  cases u with
  | plain => simp only [runBody, EStateM.run, h]
  | vector =>
    simp only [hinted] at hu
    simp only [runBody, EStateM.run, hu]
    rw [Body.bind_ok (need_true ..), h]
  | basin =>
    simp only [hinted] at hu
    simp only [runBody, EStateM.run, hu]
    rw [Body.bind_ok (need_true ..), h]
theorem runBody_error {s : State} {opc : BitVec 8} {u : BodyUnit} {words cost : Nat} {m : Body Unit} {w' : Work} {a : Abort}
    (hu : hinted u s.stage.work.hdrA = true) (h : m { s.stage.work with opc := opc } = .error a w') :
    runBody s opc u words cost m = .next (bodyAborted s (w'.advance 0 cost) a) := by
  cases u with
  | plain => simp only [runBody, EStateM.run, h]
  | vector =>
    simp only [hinted] at hu
    simp only [runBody, EStateM.run, hu]
    rw [Body.bind_ok (need_true ..), h]
  | basin =>
    simp only [hinted] at hu
    simp only [runBody, EStateM.run, hu]
    rw [Body.bind_ok (need_true ..), h]
/-- Without its unit hint an instruction aborts with ILLEGAL_OPERAND and stages nothing. -/
theorem runBody_unhinted {s : State} {opc : BitVec 8} {u : BodyUnit} {words cost : Nat} {m : Body Unit}
    (hu : hinted u s.stage.work.hdrA = false) :
    runBody s opc u words cost m =
      .next (bodyAborted s (({ s.stage.work with opc := opc } : Work).advance 0 cost) ⟨cIllegalOperand, 0, 0, 0, 0, 0⟩) := by
  cases u with
  | plain => cases hu
  | vector =>
    simp only [hinted] at hu
    simp only [runBody, EStateM.run, hu]
    rw [Body.bind_error (need_false ..)]
  | basin =>
    simp only [hinted] at hu
    simp only [runBody, EStateM.run, hu]
    rw [Body.bind_error (need_false ..)]
/-- Every instruction of a body goes on or ends its body with an abort; nothing else of the state changes. -/
theorem runBody_cases (s : State) (opc : BitVec 8) (u : BodyUnit) (words cost : Nat) (m : Body Unit) :
    (∃ w, runBody s opc u words cost m = .next (bodyWent s w)) ∨
      (∃ w a, runBody s opc u words cost m = .next (bodyAborted s w a)) := by
  simp only [runBody]
  split
  · exact .inl ⟨_, rfl⟩
  · exact .inr ⟨_, _, rfl⟩

/-! ## Staging -/

theorem entry_ok {w : Work} (h : w.entries < 32) : entry w = .ok () { w with entries := w.entries + 1 } := by
  simp only [entry, Body.bind_ok (Body.get_run _), h, decide_true, Body.bind_ok (need_true ..), Body.set_run]
theorem entry_full {w : Work} (h : ¬ w.entries < 32) : entry w = .error ⟨cOverflow, 0, 0, 0, 0, 0⟩ w := by
  simp only [entry, Body.bind_ok (Body.get_run _), h, decide_false, Body.bind_error (need_false ..)]
theorem stage_ok (e : Effect) (w : Work) : stage e w = .ok () { w with effects := w.effects ++ [e] } := rfl
theorem stageS_again {w : Work} {i : Nat} (v : W64) (h : bitAt w.sD i = true) :
    stageS i v w = .ok () { w with s := vset w.s i v } := by
  simp only [stageS, Body.bind_ok (Body.get_run _), h, if_true, Body.set_run]
theorem stageS_first {w : Work} {i : Nat} (v : W64) (h : bitAt w.sD i = false) (he : w.entries < 32) :
    stageS i v w = .ok () { w with entries := w.entries + 1, s := vset w.s i v, sD := w.sD ||| BitVec.ofNat 16 (2 ^ i) } := by
  simp only [stageS, Body.bind_ok (Body.get_run _), h, Bool.false_eq_true, if_false, Body.bind_ok (entry_ok he),
    Body.modify_run]
theorem stageV_again {w : Work} {i : Nat} (v : V512) (h : bitAt w.vD i = true) :
    stageV i v w = .ok () { w with v := vset w.v i v } := by
  simp only [stageV, Body.bind_ok (Body.get_run _), h, if_true, Body.set_run]
theorem stageV_first {w : Work} {i : Nat} (v : V512) (h : bitAt w.vD i = false) (he : w.entries < 32) :
    stageV i v w = .ok () { w with entries := w.entries + 1, v := vset w.v i v, vD := w.vD ||| BitVec.ofNat 16 (2 ^ i) } := by
  simp only [stageV, Body.bind_ok (Body.get_run _), h, Bool.false_eq_true, if_false, Body.bind_ok (entry_ok he),
    Body.modify_run]

/-! ## Residue checks -/

theorem injected_disarmed {s : State} {w : Work} (h : bits w.inj 7 0 = 0) (unit ln : Nat) : injected s w unit ln = false := by
  simp [injected, h]
theorem checked_disarmed {s : State} {w : Work} (h : bits w.inj 7 0 = 0) (unit ln q : Nat) :
    checked s unit ln q w = .ok () w := by
  simp only [checked, Body.bind_ok (Body.get_run _), injected_disarmed h, Bool.false_eq_true, if_false, Body.pure_run]
theorem checkedScalar_disarmed {s : State} {w : Work} (h : bits w.inj 7 0 = 0) (v : W64) : checkedScalar s v w = .ok () w := by
  simp only [checkedScalar, Body.bind_ok (checked_disarmed h ..), checked_disarmed h]
theorem checkedAddress_disarmed {s : State} {w : Work} (h : bits w.inj 7 0 = 0) (a : W64) :
    checkedAddress s a w = .ok () w := checked_disarmed h ..

/-! ## Reading an operand keeps the injector -/

/-- A computation that leaves the injector as it was whenever it succeeds from a working copy. -/
def KeepsFrom {α : Type} (w : Work) (m : Body α) : Prop := ∀ x w', m w = .ok x w' → w'.inj = w.inj
/-- A computation that leaves the injector as it was whenever it succeeds. -/
def KeepsInj {α : Type} (m : Body α) : Prop := ∀ w, KeepsFrom w m

theorem keepsFrom_pure {α : Type} {w : Work} (x : α) : KeepsFrom w (pure x : Body α) := by
  intro y w' h; cases h; rfl
theorem keepsFrom_abort {α : Type} {w : Work} (c : BitVec 8) (i : W64) : KeepsFrom w (abortWith c i : Body α) := by
  intro y w' h; cases h
theorem keepsFrom_need {α : Type} {w : Work} {b : Bool} {c : BitVec 8} {i : W64} {m : Body α} (h : KeepsFrom w m) :
    KeepsFrom w (need b c i >>= fun _ => m) := by
  intro x w' hm
  cases b
  · rw [Body.bind_error (need_false ..)] at hm; cases hm
  · rw [Body.bind_ok (need_true ..)] at hm; exact h x w' hm
theorem keepsFrom_set {α : Type} {w v : Work} {m : Body α} (hv : v.inj = w.inj) (h : KeepsFrom v m) :
    KeepsFrom w (set v >>= fun _ => m) := by
  intro x w' hm
  rw [Body.bind_ok (Body.set_run ..)] at hm
  exact (h x w' hm).trans hv
theorem keepsInj_pure {α : Type} (x : α) : KeepsInj (pure x : Body α) := fun _ => keepsFrom_pure x
theorem keepsInj_abort {α : Type} (c : BitVec 8) (i : W64) : KeepsInj (abortWith c i : Body α) :=
  fun _ => keepsFrom_abort c i
theorem keepsInj_get {α : Type} {f : Work → Body α} (hf : ∀ w, KeepsFrom w (f w)) : KeepsInj (get >>= f) := by
  intro w y w' h
  rw [Body.bind_ok (Body.get_run _)] at h
  exact hf w y w' h
theorem keepsInj_bind {α β : Type} {m : Body α} {f : α → Body β} (hm : KeepsInj m) (hf : ∀ x, KeepsInj (f x)) :
    KeepsInj (m >>= f) := by
  intro w y w' h
  cases hm' : m w with
  | ok x v => rw [Body.bind_ok hm'] at h; exact (hf x _ _ _ h).trans (hm _ _ _ hm')
  | error a v => rw [Body.bind_error hm'] at h; cases h

theorem takeToken_inj (s : State) (p : Nat) (keep : Bool) : KeepsInj (takeToken s p keep) := by
  refine keepsInj_get fun w => ?_
  dsimp only
  split
  · exact keepsFrom_abort _ _
  · split
    · exact keepsFrom_pure _
    · exact keepsFrom_need (keepsFrom_set rfl (keepsFrom_pure _))
theorem takeBlock_inj (s : State) (o : Nat) (keep : Bool) : KeepsInj (takeBlock s o keep) := by
  refine keepsInj_get fun w => ?_
  dsimp only
  split
  · exact keepsFrom_abort _ _
  · split
    · exact keepsFrom_abort _ _
    · split
      · exact keepsFrom_pure _
      · exact keepsFrom_need (keepsFrom_set rfl (keepsFrom_pure _))
theorem takeElement_inj (s : State) (q : Nat) : KeepsInj (takeElement s q) := by
  refine keepsInj_get fun w => ?_
  dsimp only
  split
  · split
    · exact keepsFrom_abort _ _
    · exact keepsFrom_set rfl (keepsFrom_pure _)
  · exact keepsFrom_abort _ _
theorem takeLit_inj (s : State) : KeepsInj (takeLit s) :=
  keepsInj_get fun _ => keepsFrom_need (keepsFrom_set rfl (keepsFrom_pure _))
theorem readV_inj (s : State) (c : Opd) (keep : Bool) : KeepsInj (readV s c keep) := by
  unfold readV
  dsimp only
  repeat' split
  · exact keepsInj_get fun _ => keepsFrom_pure _
  · exact keepsInj_bind (takeToken_inj _ _ _) fun _ => keepsInj_pure _
  · exact keepsInj_bind (takeBlock_inj _ _ _) fun _ => keepsInj_pure _
  · exact keepsInj_bind (takeElement_inj _ _) fun _ => keepsInj_pure _
  · exact keepsInj_bind (takeLit_inj _) fun _ => keepsInj_pure _
  · exact keepsInj_pure _
  · exact keepsInj_abort _ _
theorem readS_inj (s : State) (c : Opd) (keep : Bool) : KeepsInj (readS s c keep) := by
  unfold readS
  dsimp only
  repeat' split
  · exact keepsInj_get fun _ => keepsFrom_pure _
  · exact keepsInj_bind (takeLit_inj _) fun _ => keepsInj_pure _
  · exact keepsInj_get fun _ => keepsFrom_pure _
  · exact keepsInj_get fun _ => keepsFrom_pure _
  · exact keepsInj_bind (readV_inj _ _ _) fun _ => keepsInj_pure _

/-! ## The scalar shapes -/

theorem scalar1_next {s : State} {opc : BitVec 8} {cost : Nat} {a d e : Opd} {t : Tag} {f : W64 → W64} {x : W64}
    {sa : Sideband} {w1 w2 : Work} (hi : bits s.stage.work.inj 7 0 = 0)
    (h1 : readS s a (keepIn t) { s.stage.work with opc := opc } = .ok (x, sa) w1)
    (h2 : resultS s d e ⟨t, 0, sa, 0⟩ (f x) w1 = .ok () w2) :
    scalar1 s opc cost a d e t f = .next (bodyWent s (w2.advance 1 cost)) := by
  have i1 : bits w1.inj 7 0 = 0 := by rw [readS_inj _ _ _ _ _ _ h1]; exact hi
  apply runBody_ok rfl
  rw [Body.bind_ok h1]
  dsimp only
  rw [Body.bind_ok (checkedScalar_disarmed i1 _)]
  exact h2
theorem scalar2_next {s : State} {opc : BitVec 8} {cost : Nat} {a b d e : Opd} {t : Tag} {f : W64 → W64 → W64} {x y : W64}
    {sa sb : Sideband} {w1 w2 w3 : Work} (hi : bits s.stage.work.inj 7 0 = 0)
    (h1 : readS s a (keepIn t) { s.stage.work with opc := opc } = .ok (x, sa) w1)
    (h2 : readS s b (keepIn t) w1 = .ok (y, sb) w2) (h3 : resultS s d e ⟨t, 0, sa, sb⟩ (f x y) w2 = .ok () w3) :
    scalar2 s opc cost a b d e t f = .next (bodyWent s (w3.advance 1 cost)) := by
  have i1 : bits w1.inj 7 0 = 0 := by rw [readS_inj _ _ _ _ _ _ h1]; exact hi
  have i2 : bits w2.inj 7 0 = 0 := by rw [readS_inj _ _ _ _ _ _ h2]; exact i1
  apply runBody_ok rfl
  rw [Body.bind_ok h1]
  dsimp only
  rw [Body.bind_ok h2]
  dsimp only
  rw [Body.bind_ok (checkedScalar_disarmed i2 _)]
  exact h3
theorem scalarI_next {s : State} {opc : BitVec 8} {a d : Opd} {f : W64 → W64} {x : W64} {sa : Sideband} {w1 w2 : Work}
    (hi : bits s.stage.work.inj 7 0 = 0) (h1 : readS s a false { s.stage.work with opc := opc } = .ok (x, sa) w1)
    (h2 : resultS s d 31#5 ⟨0, 0, sa, 0⟩ (f x) w1 = .ok () w2) :
    scalarI s opc a d f = .next (bodyWent s (w2.advance 1 1)) := by
  have i1 : bits w1.inj 7 0 = 0 := by rw [readS_inj _ _ _ _ _ _ h1]; exact hi
  apply runBody_ok rfl
  rw [Body.bind_ok h1]
  dsimp only
  rw [Body.bind_ok (checkedScalar_disarmed i1 _)]
  exact h2

end Sys2Proof.Machine
end

