-- ==== Sys2Proof/Laws/Memory.lean ====
section
/-! SUPPORT. The laws of memory: a byte read after a write, and that every memory operation keeps the canonical form. -/
namespace Sys2Proof.Machine

theorem memWf_tail {e : Nat × Byte} {r : Memory} (h : memWf (e :: r) = true) : memWf r = true := by
  obtain ⟨i, b⟩ := e
  cases r with
  | nil => rfl
  | cons f r => obtain ⟨j, c⟩ := f; simp [memWf] at h; exact h.2
/-- The byte below the first address of a canonical memory is not listed. -/
theorem memByte_below {m : Memory} (h : memWf m = true) {a : Nat} (ha : ∀ i b r, m = (i, b) :: r → a < i) :
    memByte m a = 0 := by
  induction m with
  | nil => rfl
  | cons e r ih =>
    obtain ⟨i, b⟩ := e
    have hi := ha i b r rfl
    have : (i == a) = false := by simp; omega
    simp only [memByte, this]
    apply ih (memWf_tail h)
    intro j c t ht
    subst ht
    simp [memWf] at h
    omega
theorem memWf_cons {i : Nat} {b : Byte} {r : Memory} :
    memWf ((i, b) :: r) = true ↔ b ≠ 0 ∧ (∀ j c t, r = (j, c) :: t → i < j) ∧ memWf r = true := by
  cases r with
  | nil => simp [memWf]
  | cons f t =>
    obtain ⟨j, c⟩ := f
    simp [memWf, and_assoc]
/-- A byte written never makes the first address smaller than both. -/
theorem memPut_head {m : Memory} {a : Nat} {v : Byte} {j : Nat} {c : Byte} {t : Memory} (h : memPut m a v = (j, c) :: t)
    {lo : Nat} (ha : lo < a) (hm : ∀ i b r, m = (i, b) :: r → lo < i) (hw : memWf m = true) : lo < j := by
  cases m with
  | nil =>
    simp only [memPut] at h
    split at h
    · cases h
    · cases h; exact ha
  | cons e r =>
    obtain ⟨i, b⟩ := e
    have hi := hm i b r rfl
    simp only [memPut] at h
    split at h
    · cases h; exact hi
    · split at h
      · split at h
        · subst h
          have := (memWf_cons.mp hw).2.1 j c t rfl
          omega
        · cases h; exact ha
      · split at h
        · cases h; exact hi
        · cases h; exact ha
/-- Writing a byte keeps the canonical form. -/
theorem memPut_wf {m : Memory} (h : memWf m = true) (a : Nat) (v : Byte) : memWf (memPut m a v) = true := by
  induction m with
  | nil =>
    simp only [memPut]
    split
    · rfl
    · next hv => simpa [memWf] using hv
  | cons e r ih =>
    obtain ⟨i, b⟩ := e
    obtain ⟨hb, hr, hw⟩ := memWf_cons.mp h
    simp only [memPut]
    split
    · next hia =>
      exact memWf_cons.mpr ⟨hb, fun j c t ht => memPut_head ht hia hr hw, ih hw⟩
    · split
      · split
        · exact hw
        · next hv =>
          refine memWf_cons.mpr ⟨by simpa using hv, ?_, hw⟩
          intro j c t ht
          have := hr j c t ht
          simp_all
      · split
        · exact h
        · next hn hne hv =>
          refine memWf_cons.mpr ⟨by simpa using hv, ?_, h⟩
          intro j c t ht
          cases ht
          simp at hne
          omega
/-- A byte reads as the value just written. -/
theorem memByte_memPut_same {m : Memory} (h : memWf m = true) (a : Nat) (v : Byte) : memByte (memPut m a v) a = v := by
  induction m with
  | nil =>
    simp only [memPut]
    split
    · next hv => simp only [beq_iff_eq] at hv; simp [memByte, hv]
    · simp [memByte]
  | cons e r ih =>
    obtain ⟨i, b⟩ := e
    obtain ⟨hb, hr, hw⟩ := memWf_cons.mp h
    simp only [memPut]
    split
    · next hia =>
      have : (i == a) = false := by simp; omega
      simp only [memByte, this]
      exact ih hw
    · split
      · next hne hia =>
        simp only [beq_iff_eq] at hia
        split
        · next hv =>
          simp only [beq_iff_eq] at hv
          rw [hv]
          exact memByte_below hw (fun j c t ht => by have := hr j c t ht; omega)
        · simp [memByte]
      · next hn hne =>
        simp only [beq_iff_eq] at hne
        split
        · next hv =>
          simp only [beq_iff_eq] at hv
          rw [hv]
          refine memByte_below h (fun j c t ht => ?_)
          cases ht
          omega
        · simp [memByte]
/-- Another byte reads as before. -/
theorem memByte_memPut_other {m : Memory} (h : memWf m = true) (a c : Nat) (v : Byte) (hac : a ≠ c) :
    memByte (memPut m a v) c = memByte m c := by
  induction m with
  | nil =>
    simp only [memPut]
    split
    · rfl
    · simp [memByte, hac]
  | cons e r ih =>
    obtain ⟨i, b⟩ := e
    obtain ⟨hb, hr, hw⟩ := memWf_cons.mp h
    simp only [memPut]
    split
    · simp only [memByte, ih hw]
    · split
      · next hne hia =>
        simp only [beq_iff_eq] at hia
        subst hia
        have hic : (i == c) = false := by simpa using hac
        split
        · simp [memByte, hic]
        · simp [memByte, hic]
      · split
        · rfl
        · have hic : (a == c) = false := by simpa using hac
          simp [memByte, hic]
/-- Writing bytes keeps the canonical form. -/
theorem memStore_wf {m : Memory} (h : memWf m = true) (bs : List (Nat × Byte)) : memWf (memStore m bs) = true := by
  induction bs generalizing m with
  | nil => exact h
  | cons b r ih => exact ih (memPut_wf h b.1 b.2)
/-- A byte that is not among those written reads as before. -/
theorem memByte_memStore_other {m : Memory} (h : memWf m = true) (bs : List (Nat × Byte)) (a : Nat)
    (ha : ∀ b ∈ bs, b.1 ≠ a) : memByte (memStore m bs) a = memByte m a := by
  induction bs generalizing m with
  | nil => rfl
  | cons b r ih =>
    have hr := ih (memPut_wf h b.1 b.2) (fun x hx => ha x (List.mem_cons_of_mem _ hx))
    have hb := memByte_memPut_other h b.1 a b.2 (ha b List.mem_cons_self)
    exact hr.trans hb
/-- The empty memory is canonical. -/
theorem memWf_nil : memWf [] = true := rfl
/-- Writing a byte of a core's own memory keeps its memories canonical. -/
theorem setLocalByte_wf {c : Core} (h : coreMemWf c = true) (off : Nat) (v : Byte) : coreMemWf (setLocalByte c off v) = true := by
  simp only [coreMemWf, Bool.and_eq_true] at h ⊢
  obtain ⟨⟨h1, h2⟩, h3⟩ := h
  unfold setLocalByte
  repeat' split
  all_goals simp_all [memPut_wf]
/-- The memories of the state after reset are canonical. -/
theorem reset_memories : State.reset.memoriesWf = true := by decide

end Sys2Proof.Machine
end

