-- ==== Sys2Proof/Laws/PerInstr.lean ====
section
/-! SUPPORT. Per-instruction laws. Encoding: decoding the words of a well-formed instruction of a rule body gives the
instruction back, with the words that follow (01_encoding, R16 to R20, R37 to R41). -/
namespace Sys2Proof

theorem OpWord.ofWord_toWord (f : OpWord) : OpWord.ofWord f.toWord = f := by
  simp (decide := true) only [ofWord, toWord, BitVec.extractLsb'_cast, BitVec.extractLsb'_append_eq_of_le,
    BitVec.extractLsb'_append_eq_of_add_le]
  simp only [Nat.reduceSub, BitVec.extractLsb'_eq_self]
theorem OpWord.imm_ofImm (op : BitVec 8) (a d : Opd) (i : BitVec 14) : (OpWord.ofImm op a d i).imm = i := by
  apply BitVec.eq_of_toNat_eq
  simp only [imm, ofImm, BitVec.toNat_cast]
  rw [BitVec.toNat_append, BitVec.toNat_append, ← Nat.shiftLeft_add_eq_or_of_lt (by omega),
    ← Nat.shiftLeft_add_eq_or_of_lt (by omega)]
  simp [BitVec.extractLsb'_toNat, Nat.shiftLeft_eq, Nat.shiftRight_eq_div_pow]
  omega

set_option linter.unusedSimpArgs false

namespace Laws.Encoding

/-- Decoding gives a well-formed instruction of a rule body back from its words. -/
def Statement (i : Instr) : Prop :=
  i.isBody = true → i.wf = true → ∀ rest, decode (encode i ++ rest) = .ok (i, rest)

theorem decode_one {i : Instr} {f : OpWord} {ok : Bool} (hf : i.opWord = some f) (hw : i.words = 1)
    (hop : f.op.toNat.blt 0xC0 = true) (hd : decodeOne f = decodeIf ok i) (hok : ok = true) : Statement i := by
  intro _ h rest
  have hop : f.op.toNat < 0xC0 := Nat.blt_eq.mp hop
  simp only [encode, hf, hw, decode, OpWord.ofWord_toWord, hop, hd, decodeIf, hok, h, if_true, List.cons_append,
    List.nil_append, Bool.and_self, Except.map, OfNat.one_ne_ofNat, if_false]
theorem decode_two {i : Instr} {f : OpWord} {x : W32} {ok : Bool} (hf : i.opWord = some f) (hw : i.words = 2)
    (hx : i.extWord = x) (hop : f.op.toNat.blt 0xC0 = false) (hd : decodeTwo f x = decodeIf ok i) (hok : ok = true) :
    Statement i := by
  intro _ h rest
  have hop : ¬ f.op.toNat < 0xC0 := fun hc => by rw [Nat.blt_eq.mpr hc] at hop; cases hop
  simp only [encode, hf, hw, hx, decode, OpWord.ofWord_toWord, hop, hd, decodeIf, hok, h, if_true, List.cons_append,
    List.nil_append, Bool.and_self, Except.map, if_false]
theorem low_zero {n m : Nat} (i : BitVec n) : ((i.setWidth 14).extractLsb' n m == 0#m) = true := by
  rw [beq_iff_eq]
  apply BitVec.eq_of_toNat_eq
  have h : i.toNat < 2 ^ n := i.isLt
  have h2 : i.toNat % 2 ^ 14 ≤ i.toNat := Nat.mod_le _ _
  simp only [BitVec.extractLsb'_toNat, BitVec.toNat_setWidth, BitVec.toNat_ofNat, Nat.shiftRight_eq_div_pow, Nat.zero_mod]
  rw [Nat.div_eq_of_lt (lt_of_le_of_lt h2 h), Nat.zero_mod]
theorem low_field {n : Nat} (h : n ≤ 14) (i : BitVec n) : (i.setWidth 14).extractLsb' 0 n = i := by
  apply BitVec.eq_of_toNat_eq
  have h1 : i.toNat < 2 ^ n := i.isLt
  have h2 : i.toNat < 2 ^ 14 := lt_of_lt_of_le h1 (Nat.pow_le_pow_right (by decide) h)
  simp only [BitVec.extractLsb'_toNat, BitVec.toNat_setWidth, Nat.shiftRight_zero, Nat.mod_eq_of_lt h2, Nat.mod_eq_of_lt h1]

theorem nop (t : Tag) : Statement (.nop t) :=
  decode_one rfl rfl rfl rfl rfl
theorem mov (a : Opd) (d : Opd) (e : Opd) (t : Tag) : Statement (.mov a d e t) :=
  decode_one rfl rfl rfl rfl rfl
theorem movi (d : Opd) (i : BitVec 14) : Statement (.movi d i) :=
  decode_one (ok := true) rfl rfl rfl (congrArg (fun j => decodeIf true (.movi d j)) (OpWord.imm_ofImm _ _ _ _)) rfl
theorem movsh (a : Opd) (d : Opd) (i : BitVec 14) : Statement (.movsh a d i) :=
  decode_one (ok := true) rfl rfl rfl (congrArg (fun j => decodeIf true (.movsh a d j)) (OpWord.imm_ofImm _ _ _ _)) rfl
theorem add (a : Opd) (b : Opd) (d : Opd) (e : Opd) (t : Tag) : Statement (.add a b d e t) :=
  decode_one rfl rfl rfl rfl rfl
theorem addi (a : Opd) (d : Opd) (i : BitVec 14) : Statement (.addi a d i) :=
  decode_one (ok := true) rfl rfl rfl (congrArg (fun j => decodeIf true (.addi a d j)) (OpWord.imm_ofImm _ _ _ _)) rfl
theorem sub (a : Opd) (b : Opd) (d : Opd) (e : Opd) (t : Tag) : Statement (.sub a b d e t) :=
  decode_one rfl rfl rfl rfl rfl
theorem mul (a : Opd) (b : Opd) (d : Opd) (e : Opd) (t : Tag) : Statement (.mul a b d e t) :=
  decode_one rfl rfl rfl rfl rfl
theorem mulh (a : Opd) (b : Opd) (d : Opd) (e : Opd) (t : Tag) : Statement (.mulh a b d e t) :=
  decode_one rfl rfl rfl rfl rfl
theorem mulhu (a : Opd) (b : Opd) (d : Opd) (e : Opd) (t : Tag) : Statement (.mulhu a b d e t) :=
  decode_one rfl rfl rfl rfl rfl
theorem div (a : Opd) (b : Opd) (d : Opd) (e : Opd) (t : Tag) : Statement (.div a b d e t) :=
  decode_one rfl rfl rfl rfl rfl
theorem divu (a : Opd) (b : Opd) (d : Opd) (e : Opd) (t : Tag) : Statement (.divu a b d e t) :=
  decode_one rfl rfl rfl rfl rfl
theorem rem (a : Opd) (b : Opd) (d : Opd) (e : Opd) (t : Tag) : Statement (.rem a b d e t) :=
  decode_one rfl rfl rfl rfl rfl
theorem remu (a : Opd) (b : Opd) (d : Opd) (e : Opd) (t : Tag) : Statement (.remu a b d e t) :=
  decode_one rfl rfl rfl rfl rfl
theorem and (a : Opd) (b : Opd) (d : Opd) (e : Opd) (t : Tag) : Statement (.and a b d e t) :=
  decode_one rfl rfl rfl rfl rfl
theorem andi (a : Opd) (d : Opd) (i : BitVec 14) : Statement (.andi a d i) :=
  decode_one (ok := true) rfl rfl rfl (congrArg (fun j => decodeIf true (.andi a d j)) (OpWord.imm_ofImm _ _ _ _)) rfl
theorem or (a : Opd) (b : Opd) (d : Opd) (e : Opd) (t : Tag) : Statement (.or a b d e t) :=
  decode_one rfl rfl rfl rfl rfl
theorem ori (a : Opd) (d : Opd) (i : BitVec 14) : Statement (.ori a d i) :=
  decode_one (ok := true) rfl rfl rfl (congrArg (fun j => decodeIf true (.ori a d j)) (OpWord.imm_ofImm _ _ _ _)) rfl
theorem xor (a : Opd) (b : Opd) (d : Opd) (e : Opd) (t : Tag) : Statement (.xor a b d e t) :=
  decode_one rfl rfl rfl rfl rfl
theorem xori (a : Opd) (d : Opd) (i : BitVec 14) : Statement (.xori a d i) :=
  decode_one (ok := true) rfl rfl rfl (congrArg (fun j => decodeIf true (.xori a d j)) (OpWord.imm_ofImm _ _ _ _)) rfl
theorem shl (a : Opd) (b : Opd) (d : Opd) (e : Opd) (t : Tag) : Statement (.shl a b d e t) :=
  decode_one rfl rfl rfl rfl rfl
theorem shli (a : Opd) (d : Opd) (i : BitVec 6) : Statement (.shli a d i) := by
  refine decode_one (ok := true) rfl rfl rfl
    ((congrArg (fun j : BitVec 14 => decodeIf ((j.extractLsb' 6 8 == 0#8)) (.shli a d (j.extractLsb' 0 6))) (OpWord.imm_ofImm _ _ _ _)).trans ?_) rfl
  simp only [low_zero, low_field (show 6 ≤ 14 by decide)]
theorem shr (a : Opd) (b : Opd) (d : Opd) (e : Opd) (t : Tag) : Statement (.shr a b d e t) :=
  decode_one rfl rfl rfl rfl rfl
theorem shri (a : Opd) (d : Opd) (i : BitVec 6) : Statement (.shri a d i) := by
  refine decode_one (ok := true) rfl rfl rfl
    ((congrArg (fun j : BitVec 14 => decodeIf ((j.extractLsb' 6 8 == 0#8)) (.shri a d (j.extractLsb' 0 6))) (OpWord.imm_ofImm _ _ _ _)).trans ?_) rfl
  simp only [low_zero, low_field (show 6 ≤ 14 by decide)]
theorem sar (a : Opd) (b : Opd) (d : Opd) (e : Opd) (t : Tag) : Statement (.sar a b d e t) :=
  decode_one rfl rfl rfl rfl rfl
theorem sari (a : Opd) (d : Opd) (i : BitVec 6) : Statement (.sari a d i) := by
  refine decode_one (ok := true) rfl rfl rfl
    ((congrArg (fun j : BitVec 14 => decodeIf ((j.extractLsb' 6 8 == 0#8)) (.sari a d (j.extractLsb' 0 6))) (OpWord.imm_ofImm _ _ _ _)).trans ?_) rfl
  simp only [low_zero, low_field (show 6 ≤ 14 by decide)]
theorem rol (a : Opd) (b : Opd) (d : Opd) (e : Opd) (t : Tag) : Statement (.rol a b d e t) :=
  decode_one rfl rfl rfl rfl rfl
theorem clz (a : Opd) (d : Opd) (e : Opd) (t : Tag) : Statement (.clz a d e t) :=
  decode_one rfl rfl rfl rfl rfl
theorem ctz (a : Opd) (d : Opd) (e : Opd) (t : Tag) : Statement (.ctz a d e t) :=
  decode_one rfl rfl rfl rfl rfl
theorem popc (a : Opd) (d : Opd) (e : Opd) (t : Tag) : Statement (.popc a d e t) :=
  decode_one rfl rfl rfl rfl rfl
theorem min (a : Opd) (b : Opd) (d : Opd) (e : Opd) (t : Tag) : Statement (.min a b d e t) :=
  decode_one rfl rfl rfl rfl rfl
theorem max (a : Opd) (b : Opd) (d : Opd) (e : Opd) (t : Tag) : Statement (.max a b d e t) :=
  decode_one rfl rfl rfl rfl rfl
theorem minu (a : Opd) (b : Opd) (d : Opd) (e : Opd) (t : Tag) : Statement (.minu a b d e t) :=
  decode_one rfl rfl rfl rfl rfl
theorem maxu (a : Opd) (b : Opd) (d : Opd) (e : Opd) (t : Tag) : Statement (.maxu a b d e t) :=
  decode_one rfl rfl rfl rfl rfl
theorem addsat (a : Opd) (b : Opd) (d : Opd) (e : Opd) (t : Tag) : Statement (.addsat a b d e t) :=
  decode_one rfl rfl rfl rfl rfl
theorem subsat (a : Opd) (b : Opd) (d : Opd) (e : Opd) (t : Tag) : Statement (.subsat a b d e t) :=
  decode_one rfl rfl rfl rfl rfl
theorem seq (a : Opd) (b : Opd) (d : Opd) (e : Opd) (t : Tag) : Statement (.seq a b d e t) :=
  decode_one rfl rfl rfl rfl rfl
theorem sne (a : Opd) (b : Opd) (d : Opd) (e : Opd) (t : Tag) : Statement (.sne a b d e t) :=
  decode_one rfl rfl rfl rfl rfl
theorem slt (a : Opd) (b : Opd) (d : Opd) (e : Opd) (t : Tag) : Statement (.slt a b d e t) :=
  decode_one rfl rfl rfl rfl rfl
theorem sltu (a : Opd) (b : Opd) (d : Opd) (e : Opd) (t : Tag) : Statement (.sltu a b d e t) :=
  decode_one rfl rfl rfl rfl rfl
theorem sle (a : Opd) (b : Opd) (d : Opd) (e : Opd) (t : Tag) : Statement (.sle a b d e t) :=
  decode_one rfl rfl rfl rfl rfl
theorem sleu (a : Opd) (b : Opd) (d : Opd) (e : Opd) (t : Tag) : Statement (.sleu a b d e t) :=
  decode_one rfl rfl rfl rfl rfl
theorem sel (a : Opd) (b : Opd) (d : Opd) (e : Opd) (t : Tag) : Statement (.sel a b d e t) :=
  decode_one rfl rfl rfl rfl rfl
theorem sext (a : Opd) (d : Opd) (i : BitVec 7) : Statement (.sext a d i) := by
  refine decode_one (ok := true) rfl rfl rfl
    ((congrArg (fun j : BitVec 14 => decodeIf ((j.extractLsb' 7 7 == 0#7)) (.sext a d (j.extractLsb' 0 7))) (OpWord.imm_ofImm _ _ _ _)).trans ?_) rfl
  simp only [low_zero, low_field (show 7 ≤ 14 by decide)]
theorem zext (a : Opd) (d : Opd) (i : BitVec 7) : Statement (.zext a d i) := by
  refine decode_one (ok := true) rfl rfl rfl
    ((congrArg (fun j : BitVec 14 => decodeIf ((j.extractLsb' 7 7 == 0#7)) (.zext a d (j.extractLsb' 0 7))) (OpWord.imm_ofImm _ _ _ _)).trans ?_) rfl
  simp only [low_zero, low_field (show 7 ≤ 14 by decide)]
theorem bfx (a : Opd) (d : Opd) (i : BitVec 14) : Statement (.bfx a d i) :=
  decode_one (ok := true) rfl rfl rfl (congrArg (fun j => decodeIf true (.bfx a d j)) (OpWord.imm_ofImm _ _ _ _)) rfl
theorem bfi (a : Opd) (b : Opd) (d : Opd) (e : Opd) (t : Tag) : Statement (.bfi a b d e t) :=
  decode_one rfl rfl rfl rfl rfl
theorem xyadr (a : Opd) (b : Opd) (d : Opd) (e : Opd) (t : Tag) : Statement (.xyadr a b d e t) :=
  decode_one rfl rfl rfl rfl rfl
theorem reladr (a : Opd) (b : Opd) (d : Opd) (e : Opd) (t : Tag) : Statement (.reladr a b d e t) :=
  decode_one rfl rfl rfl rfl rfl
theorem myxy (d : Opd) (e : Opd) (t : Tag) : Statement (.myxy d e t) :=
  decode_one rfl rfl rfl rfl rfl
theorem adrx (a : Opd) (d : Opd) (i : BitVec 2) : Statement (.adrx a d i) := by
  refine decode_one (ok := true) rfl rfl rfl
    ((congrArg (fun j : BitVec 14 => decodeIf ((j.extractLsb' 2 12 == 0#12)) (.adrx a d (j.extractLsb' 0 2))) (OpWord.imm_ofImm _ _ _ _)).trans ?_) rfl
  simp only [low_zero, low_field (show 2 ≤ 14 by decide)]
theorem adrchk (a : Opd) (b : Opd) (d : Opd) (e : Opd) (t : Tag) : Statement (.adrchk a b d e t) :=
  decode_one rfl rfl rfl rfl rfl
theorem vmov (a : Opd) (d : Opd) (e : Opd) (t : Tag) : Statement (.vmov a d e t) :=
  decode_one rfl rfl rfl rfl rfl
theorem vbcast (a : Opd) (d : Opd) (e : Opd) (t : Tag) : Statement (.vbcast a d e t) :=
  decode_one rfl rfl rfl rfl rfl
theorem vperm (a : Opd) (b : Opd) (d : Opd) (e : Opd) (t : Tag) : Statement (.vperm a b d e t) :=
  decode_one rfl rfl rfl rfl rfl
theorem vextr (a : Opd) (d : Opd) (i : BitVec 4) : Statement (.vextr a d i) := by
  refine decode_one (ok := true) rfl rfl rfl
    ((congrArg (fun j : BitVec 14 => decodeIf ((j.extractLsb' 4 10 == 0#10)) (.vextr a d (j.extractLsb' 0 4))) (OpWord.imm_ofImm _ _ _ _)).trans ?_) rfl
  simp only [low_zero, low_field (show 4 ≤ 14 by decide)]
theorem vins (a : Opd) (d : Opd) (i : BitVec 4) : Statement (.vins a d i) := by
  refine decode_one (ok := true) rfl rfl rfl
    ((congrArg (fun j : BitVec 14 => decodeIf ((j.extractLsb' 4 10 == 0#10)) (.vins a d (j.extractLsb' 0 4))) (OpWord.imm_ofImm _ _ _ _)).trans ?_) rfl
  simp only [low_zero, low_field (show 4 ≤ 14 by decide)]
theorem vaddF32 (a : Opd) (b : Opd) (d : Opd) (e : Opd) (t : Tag) : Statement (.vaddF32 a b d e t) :=
  decode_one rfl rfl rfl rfl rfl
theorem vsubF32 (a : Opd) (b : Opd) (d : Opd) (e : Opd) (t : Tag) : Statement (.vsubF32 a b d e t) :=
  decode_one rfl rfl rfl rfl rfl
theorem vmulF32 (a : Opd) (b : Opd) (d : Opd) (e : Opd) (t : Tag) : Statement (.vmulF32 a b d e t) :=
  decode_one rfl rfl rfl rfl rfl
theorem vfmaF32 (a : Opd) (b : Opd) (d : Opd) (e : Opd) (t : Tag) : Statement (.vfmaF32 a b d e t) :=
  decode_one rfl rfl rfl rfl rfl
theorem vminF32 (a : Opd) (b : Opd) (d : Opd) (e : Opd) (t : Tag) : Statement (.vminF32 a b d e t) :=
  decode_one rfl rfl rfl rfl rfl
theorem vmaxF32 (a : Opd) (b : Opd) (d : Opd) (e : Opd) (t : Tag) : Statement (.vmaxF32 a b d e t) :=
  decode_one rfl rfl rfl rfl rfl
theorem vaddF64 (a : Opd) (b : Opd) (d : Opd) (e : Opd) (t : Tag) : Statement (.vaddF64 a b d e t) :=
  decode_one rfl rfl rfl rfl rfl
theorem vsubF64 (a : Opd) (b : Opd) (d : Opd) (e : Opd) (t : Tag) : Statement (.vsubF64 a b d e t) :=
  decode_one rfl rfl rfl rfl rfl
theorem vmulF64 (a : Opd) (b : Opd) (d : Opd) (e : Opd) (t : Tag) : Statement (.vmulF64 a b d e t) :=
  decode_one rfl rfl rfl rfl rfl
theorem vfmaF64 (a : Opd) (b : Opd) (d : Opd) (e : Opd) (t : Tag) : Statement (.vfmaF64 a b d e t) :=
  decode_one rfl rfl rfl rfl rfl
theorem vaddBf16 (a : Opd) (b : Opd) (d : Opd) (e : Opd) (t : Tag) : Statement (.vaddBf16 a b d e t) :=
  decode_one rfl rfl rfl rfl rfl
theorem vmulBf16 (a : Opd) (b : Opd) (d : Opd) (e : Opd) (t : Tag) : Statement (.vmulBf16 a b d e t) :=
  decode_one rfl rfl rfl rfl rfl
theorem vdot2Bf16 (a : Opd) (b : Opd) (d : Opd) (e : Opd) (t : Tag) : Statement (.vdot2Bf16 a b d e t) :=
  decode_one rfl rfl rfl rfl rfl
theorem vabsF32 (a : Opd) (d : Opd) (e : Opd) (t : Tag) : Statement (.vabsF32 a d e t) :=
  decode_one rfl rfl rfl rfl rfl
theorem vnegF32 (a : Opd) (d : Opd) (e : Opd) (t : Tag) : Statement (.vnegF32 a d e t) :=
  decode_one rfl rfl rfl rfl rfl
theorem vrcpF32 (a : Opd) (d : Opd) (e : Opd) (t : Tag) : Statement (.vrcpF32 a d e t) :=
  decode_one rfl rfl rfl rfl rfl
theorem vrsqF32 (a : Opd) (d : Opd) (e : Opd) (t : Tag) : Statement (.vrsqF32 a d e t) :=
  decode_one rfl rfl rfl rfl rfl
theorem vsqrtF32 (a : Opd) (d : Opd) (e : Opd) (t : Tag) : Statement (.vsqrtF32 a d e t) :=
  decode_one rfl rfl rfl rfl rfl
theorem vexp2F32 (a : Opd) (d : Opd) (e : Opd) (t : Tag) : Statement (.vexp2F32 a d e t) :=
  decode_one rfl rfl rfl rfl rfl
theorem vlog2F32 (a : Opd) (d : Opd) (e : Opd) (t : Tag) : Statement (.vlog2F32 a d e t) :=
  decode_one rfl rfl rfl rfl rfl
theorem vtanhF32 (a : Opd) (d : Opd) (e : Opd) (t : Tag) : Statement (.vtanhF32 a d e t) :=
  decode_one rfl rfl rfl rfl rfl
theorem vceqF32 (a : Opd) (b : Opd) (d : Opd) (e : Opd) (t : Tag) : Statement (.vceqF32 a b d e t) :=
  decode_one rfl rfl rfl rfl rfl
theorem vcltF32 (a : Opd) (b : Opd) (d : Opd) (e : Opd) (t : Tag) : Statement (.vcltF32 a b d e t) :=
  decode_one rfl rfl rfl rfl rfl
theorem vcleF32 (a : Opd) (b : Opd) (d : Opd) (e : Opd) (t : Tag) : Statement (.vcleF32 a b d e t) :=
  decode_one rfl rfl rfl rfl rfl
theorem vsel (a : Opd) (b : Opd) (d : Opd) (e : Opd) (t : Tag) : Statement (.vsel a b d e t) :=
  decode_one rfl rfl rfl rfl rfl
theorem viadd (a : Opd) (b : Opd) (d : Opd) (e : Opd) (t : Tag) : Statement (.viadd a b d e t) :=
  decode_one rfl rfl rfl rfl rfl
theorem visub (a : Opd) (b : Opd) (d : Opd) (e : Opd) (t : Tag) : Statement (.visub a b d e t) :=
  decode_one rfl rfl rfl rfl rfl
theorem vimul (a : Opd) (b : Opd) (d : Opd) (e : Opd) (t : Tag) : Statement (.vimul a b d e t) :=
  decode_one rfl rfl rfl rfl rfl
theorem vand (a : Opd) (b : Opd) (d : Opd) (e : Opd) (t : Tag) : Statement (.vand a b d e t) :=
  decode_one rfl rfl rfl rfl rfl
theorem vor (a : Opd) (b : Opd) (d : Opd) (e : Opd) (t : Tag) : Statement (.vor a b d e t) :=
  decode_one rfl rfl rfl rfl rfl
theorem vxor (a : Opd) (b : Opd) (d : Opd) (e : Opd) (t : Tag) : Statement (.vxor a b d e t) :=
  decode_one rfl rfl rfl rfl rfl
theorem vshl (a : Opd) (b : Opd) (d : Opd) (e : Opd) (t : Tag) : Statement (.vshl a b d e t) :=
  decode_one rfl rfl rfl rfl rfl
theorem vshr (a : Opd) (b : Opd) (d : Opd) (e : Opd) (t : Tag) : Statement (.vshr a b d e t) :=
  decode_one rfl rfl rfl rfl rfl
theorem vsar (a : Opd) (b : Opd) (d : Opd) (e : Opd) (t : Tag) : Statement (.vsar a b d e t) :=
  decode_one rfl rfl rfl rfl rfl
theorem vimin (a : Opd) (b : Opd) (d : Opd) (e : Opd) (t : Tag) : Statement (.vimin a b d e t) :=
  decode_one rfl rfl rfl rfl rfl
theorem vimax (a : Opd) (b : Opd) (d : Opd) (e : Opd) (t : Tag) : Statement (.vimax a b d e t) :=
  decode_one rfl rfl rfl rfl rfl
theorem viceq (a : Opd) (b : Opd) (d : Opd) (e : Opd) (t : Tag) : Statement (.viceq a b d e t) :=
  decode_one rfl rfl rfl rfl rfl
theorem viclt (a : Opd) (b : Opd) (d : Opd) (e : Opd) (t : Tag) : Statement (.viclt a b d e t) :=
  decode_one rfl rfl rfl rfl rfl
theorem viaddsatI8 (a : Opd) (b : Opd) (d : Opd) (e : Opd) (t : Tag) : Statement (.viaddsatI8 a b d e t) :=
  decode_one rfl rfl rfl rfl rfl
theorem vrsumF32 (a : Opd) (d : Opd) (e : Opd) (t : Tag) : Statement (.vrsumF32 a d e t) :=
  decode_one rfl rfl rfl rfl rfl
theorem vrmaxF32 (a : Opd) (d : Opd) (e : Opd) (t : Tag) : Statement (.vrmaxF32 a d e t) :=
  decode_one rfl rfl rfl rfl rfl
theorem vrsumI32 (a : Opd) (d : Opd) (e : Opd) (t : Tag) : Statement (.vrsumI32 a d e t) :=
  decode_one rfl rfl rfl rfl rfl
theorem vmset (i : BitVec 8) : Statement (.vmset i) := by
  refine decode_one (ok := true) rfl rfl rfl
    ((congrArg (fun j : BitVec 14 => decodeIf ((zOpd == zOpd) && (zOpd == zOpd) && (j.extractLsb' 8 6 == 0#6)) (.vmset (j.extractLsb' 0 8))) (OpWord.imm_ofImm _ _ _ _)).trans ?_) rfl
  simp only [low_zero, low_field (show 8 ≤ 14 by decide), beq_self_eq_true, Bool.and_self]
theorem vmget (d : Opd) (e : Opd) (t : Tag) : Statement (.vmget d e t) :=
  decode_one rfl rfl rfl rfl rfl
theorem vshiftl (a : Opd) (d : Opd) (i : BitVec 4) : Statement (.vshiftl a d i) := by
  refine decode_one (ok := true) rfl rfl rfl
    ((congrArg (fun j : BitVec 14 => decodeIf ((j.extractLsb' 4 10 == 0#10)) (.vshiftl a d (j.extractLsb' 0 4))) (OpWord.imm_ofImm _ _ _ _)).trans ?_) rfl
  simp only [low_zero, low_field (show 4 ≤ 14 by decide)]
theorem vscanF32 (a : Opd) (d : Opd) (e : Opd) (t : Tag) : Statement (.vscanF32 a d e t) :=
  decode_one rfl rfl rfl rfl rfl
theorem cvt (a : Opd) (d : Opd) (i : BitVec 9) : Statement (.cvt a d i) := by
  refine decode_one (ok := ((i ++ 0#5).cast rfl : BitVec 14).extractLsb' 0 5 == 0#5) rfl rfl rfl
    ((congrArg (fun j : BitVec 14 => decodeIf (j.extractLsb' 0 5 == 0#5) (.cvt a d (j.extractLsb' 5 9)))
      (OpWord.imm_ofImm _ _ _ _)).trans ?_) ?_
  · simp (decide := true) only [BitVec.extractLsb'_cast, BitVec.extractLsb'_append_eq_of_le,
    BitVec.extractLsb'_append_eq_of_add_le]
    simp only [Nat.reduceSub, BitVec.extractLsb'_eq_self]
  · simp (decide := true) only [BitVec.extractLsb'_cast, BitVec.extractLsb'_append_eq_of_le,
    BitVec.extractLsb'_append_eq_of_add_le]
theorem vcvt (a : Opd) (d : Opd) (i : BitVec 9) : Statement (.vcvt a d i) := by
  refine decode_one (ok := ((i ++ 0#5).cast rfl : BitVec 14).extractLsb' 0 5 == 0#5) rfl rfl rfl
    ((congrArg (fun j : BitVec 14 => decodeIf (j.extractLsb' 0 5 == 0#5) (.vcvt a d (j.extractLsb' 5 9)))
      (OpWord.imm_ofImm _ _ _ _)).trans ?_) ?_
  · simp (decide := true) only [BitVec.extractLsb'_cast, BitVec.extractLsb'_append_eq_of_le,
    BitVec.extractLsb'_append_eq_of_add_le]
    simp only [Nat.reduceSub, BitVec.extractLsb'_eq_self]
  · simp (decide := true) only [BitVec.extractLsb'_cast, BitVec.extractLsb'_append_eq_of_le,
    BitVec.extractLsb'_append_eq_of_add_le]
theorem vpack (a : Opd) (d : Opd) (i : BitVec 9) : Statement (.vpack a d i) := by
  refine decode_one (ok := ((i ++ 0#5).cast rfl : BitVec 14).extractLsb' 0 5 == 0#5) rfl rfl rfl
    ((congrArg (fun j : BitVec 14 => decodeIf (j.extractLsb' 0 5 == 0#5) (.vpack a d (j.extractLsb' 5 9)))
      (OpWord.imm_ofImm _ _ _ _)).trans ?_) ?_
  · simp (decide := true) only [BitVec.extractLsb'_cast, BitVec.extractLsb'_append_eq_of_le,
    BitVec.extractLsb'_append_eq_of_add_le]
    simp only [Nat.reduceSub, BitVec.extractLsb'_eq_self]
  · simp (decide := true) only [BitVec.extractLsb'_cast, BitVec.extractLsb'_append_eq_of_le,
    BitVec.extractLsb'_append_eq_of_add_le]
theorem vunpk (a : Opd) (d : Opd) (i : BitVec 9) : Statement (.vunpk a d i) := by
  refine decode_one (ok := ((i ++ 0#5).cast rfl : BitVec 14).extractLsb' 0 5 == 0#5) rfl rfl rfl
    ((congrArg (fun j : BitVec 14 => decodeIf (j.extractLsb' 0 5 == 0#5) (.vunpk a d (j.extractLsb' 5 9)))
      (OpWord.imm_ofImm _ _ _ _)).trans ?_) ?_
  · simp (decide := true) only [BitVec.extractLsb'_cast, BitVec.extractLsb'_append_eq_of_le,
    BitVec.extractLsb'_append_eq_of_add_le]
    simp only [Nat.reduceSub, BitVec.extractLsb'_eq_self]
  · simp (decide := true) only [BitVec.extractLsb'_cast, BitVec.extractLsb'_append_eq_of_le,
    BitVec.extractLsb'_append_eq_of_add_le]
theorem vscale (a : Opd) (b : Opd) (d : Opd) (e : Opd) (t : Tag) : Statement (.vscale a b d e t) :=
  decode_one rfl rfl rfl rfl rfl
theorem vscalex (a : Opd) (b : Opd) (d : Opd) (e : Opd) (t : Tag) : Statement (.vscalex a b d e t) :=
  decode_one rfl rfl rfl rfl rfl
theorem bsinit (a : Opd) (b : Opd) (d : Opd) (e : Opd) (t : Tag) : Statement (.bsinit a b d e t) :=
  decode_one rfl rfl rfl rfl rfl
theorem bspeek (a : Opd) (d : Opd) (i : BitVec 7) : Statement (.bspeek a d i) := by
  refine decode_one (ok := true) rfl rfl rfl
    ((congrArg (fun j : BitVec 14 => decodeIf ((j.extractLsb' 7 7 == 0#7)) (.bspeek a d (j.extractLsb' 0 7))) (OpWord.imm_ofImm _ _ _ _)).trans ?_) rfl
  simp only [low_zero, low_field (show 7 ≤ 14 by decide)]
theorem bsget (a : Opd) (d : Opd) (i : BitVec 7) : Statement (.bsget a d i) := by
  refine decode_one (ok := true) rfl rfl rfl
    ((congrArg (fun j : BitVec 14 => decodeIf ((j.extractLsb' 7 7 == 0#7)) (.bsget a d (j.extractLsb' 0 7))) (OpWord.imm_ofImm _ _ _ _)).trans ?_) rfl
  simp only [low_zero, low_field (show 7 ≤ 14 by decide)]
theorem bsskip (a : Opd) (i : BitVec 7) : Statement (.bsskip a i) := by
  refine decode_one (ok := true) rfl rfl rfl
    ((congrArg (fun j : BitVec 14 => decodeIf ((zOpd == zOpd) && (j.extractLsb' 7 7 == 0#7)) (.bsskip a (j.extractLsb' 0 7))) (OpWord.imm_ofImm _ _ _ _)).trans ?_) rfl
  simp only [low_zero, low_field (show 7 ≤ 14 by decide), beq_self_eq_true, Bool.and_self]
theorem bshuf (a : Opd) (d : Opd) (e : Opd) (t : Tag) : Statement (.bshuf a d e t) :=
  decode_one rfl rfl rfl rfl rfl
theorem bsput (a : Opd) (b : Opd) (d : Opd) (t : Tag) : Statement (.bsput a b d t) :=
  decode_one rfl rfl rfl rfl rfl
theorem bsflush (d : Opd) (t : Tag) : Statement (.bsflush d t) :=
  decode_one rfl rfl rfl rfl rfl
theorem bsstat (d : Opd) (e : Opd) (t : Tag) : Statement (.bsstat d e t) :=
  decode_one rfl rfl rfl rfl rfl
theorem fclass (a : Opd) (b : Opd) (d : Opd) (e : Opd) (t : Tag) : Statement (.fclass a b d e t) :=
  decode_one rfl rfl rfl rfl rfl
theorem abort (t : Tag) : Statement (.abort t) :=
  decode_one rfl rfl rfl rfl rfl
theorem abortz (a : Opd) (t : Tag) : Statement (.abortz a t) :=
  decode_one rfl rfl rfl rfl rfl
theorem abortnz (a : Opd) (t : Tag) : Statement (.abortnz a t) :=
  decode_one rfl rfl rfl rfl rfl
theorem ruleon (i : BitVec 6) : Statement (.ruleon i) := by
  refine decode_one (ok := true) rfl rfl rfl
    ((congrArg (fun j : BitVec 14 => decodeIf ((zOpd == zOpd) && (zOpd == zOpd) && (j.extractLsb' 6 8 == 0#8)) (.ruleon (j.extractLsb' 0 6))) (OpWord.imm_ofImm _ _ _ _)).trans ?_) rfl
  simp only [low_zero, low_field (show 6 ≤ 14 by decide), beq_self_eq_true, Bool.and_self]
theorem ruleoff (i : BitVec 6) : Statement (.ruleoff i) := by
  refine decode_one (ok := true) rfl rfl rfl
    ((congrArg (fun j : BitVec 14 => decodeIf ((zOpd == zOpd) && (zOpd == zOpd) && (j.extractLsb' 6 8 == 0#8)) (.ruleoff (j.extractLsb' 0 6))) (OpWord.imm_ofImm _ _ _ _)).trans ?_) rfl
  simp only [low_zero, low_field (show 6 ≤ 14 by decide), beq_self_eq_true, Bool.and_self]
theorem rulemask (a : Opd) (b : Opd) (d : Opd) (e : Opd) (t : Tag) : Statement (.rulemask a b d e t) :=
  decode_one rfl rfl rfl rfl rfl
theorem raborts (a : Opd) (b : Opd) (d : Opd) (e : Opd) (t : Tag) : Statement (.raborts a b d e t) :=
  decode_one rfl rfl rfl rfl rfl
theorem ctxend (t : Tag) : Statement (.ctxend t) :=
  decode_one rfl rfl rfl rfl rfl
theorem ctxyield (t : Tag) : Statement (.ctxyield t) :=
  decode_one rfl rfl rfl rfl rfl
theorem tset (i : BitVec 6) : Statement (.tset i) := by
  refine decode_one (ok := true) rfl rfl rfl
    ((congrArg (fun j : BitVec 14 => decodeIf ((zOpd == zOpd) && (zOpd == zOpd) && (j.extractLsb' 6 8 == 0#8)) (.tset (j.extractLsb' 0 6))) (OpWord.imm_ofImm _ _ _ _)).trans ?_) rfl
  simp only [low_zero, low_field (show 6 ≤ 14 by decide), beq_self_eq_true, Bool.and_self]
theorem tclr (i : BitVec 6) : Statement (.tclr i) := by
  refine decode_one (ok := true) rfl rfl rfl
    ((congrArg (fun j : BitVec 14 => decodeIf ((zOpd == zOpd) && (zOpd == zOpd) && (j.extractLsb' 6 8 == 0#8)) (.tclr (j.extractLsb' 0 6))) (OpWord.imm_ofImm _ _ _ _)).trans ?_) rfl
  simp only [low_zero, low_field (show 6 ≤ 14 by decide), beq_self_eq_true, Bool.and_self]
theorem tffr (a : Opd) (d : Opd) (e : Opd) (t : Tag) : Statement (.tffr a d e t) :=
  decode_one rfl rfl rfl rfl rfl
theorem tany (a : Opd) (d : Opd) (e : Opd) (t : Tag) : Statement (.tany a d e t) :=
  decode_one rfl rfl rfl rfl rfl
theorem tall (a : Opd) (d : Opd) (e : Opd) (t : Tag) : Statement (.tall a d e t) :=
  decode_one rfl rfl rfl rfl rfl
theorem tmask (a : Opd) (b : Opd) (d : Opd) (e : Opd) (t : Tag) : Statement (.tmask a b d e t) :=
  decode_one rfl rfl rfl rfl rfl
theorem fence (i : BitVec 5) : Statement (.fence i) := by
  refine decode_one (ok := true) rfl rfl rfl
    ((congrArg (fun j : BitVec 14 => decodeIf ((zOpd == zOpd) && (zOpd == zOpd) && (j.extractLsb' 5 9 == 0#9)) (.fence (j.extractLsb' 0 5))) (OpWord.imm_ofImm _ _ _ _)).trans ?_) rfl
  simp only [low_zero, low_field (show 5 ≤ 14 by decide), beq_self_eq_true, Bool.and_self]
theorem trap (i : BitVec 8) : Statement (.trap i) := by
  refine decode_one (ok := true) rfl rfl rfl
    ((congrArg (fun j : BitVec 14 => decodeIf ((zOpd == zOpd) && (zOpd == zOpd) && (j.extractLsb' 8 6 == 0#6)) (.trap (j.extractLsb' 0 8))) (OpWord.imm_ofImm _ _ _ _)).trans ?_) rfl
  simp only [low_zero, low_field (show 8 ≤ 14 by decide), beq_self_eq_true, Bool.and_self]
theorem tret (a : Opd) (b : Opd) (t : Tag) : Statement (.tret a b t) :=
  decode_one rfl rfl rfl rfl rfl
theorem csrr (d : Opd) (i : BitVec 12) : Statement (.csrr d i) := by
  refine decode_one (ok := true) rfl rfl rfl
    ((congrArg (fun j : BitVec 14 => decodeIf ((zOpd == zOpd) && (j.extractLsb' 12 2 == 0#2)) (.csrr d (j.extractLsb' 0 12))) (OpWord.imm_ofImm _ _ _ _)).trans ?_) rfl
  simp only [low_zero, low_field (show 12 ≤ 14 by decide), beq_self_eq_true, Bool.and_self]
theorem csrw (a : Opd) (d : Opd) (i : BitVec 12) : Statement (.csrw a d i) := by
  refine decode_one (ok := true) rfl rfl rfl
    ((congrArg (fun j : BitVec 14 => decodeIf ((j.extractLsb' 12 2 == 0#2)) (.csrw a d (j.extractLsb' 0 12))) (OpWord.imm_ofImm _ _ _ _)).trans ?_) rfl
  simp only [low_zero, low_field (show 12 ≤ 14 by decide)]
theorem mcrd (a : Opd) (d : Opd) (e : Opd) (t : Tag) : Statement (.mcrd a d e t) :=
  decode_one rfl rfl rfl rfl rfl
theorem cntrd (a : Opd) (d : Opd) (e : Opd) (t : Tag) : Statement (.cntrd a d e t) :=
  decode_one rfl rfl rfl rfl rfl
theorem cntclr (a : Opd) (t : Tag) : Statement (.cntclr a t) :=
  decode_one rfl rfl rfl rfl rfl
theorem errinj (a : Opd) (d : Opd) (e : Opd) (t : Tag) : Statement (.errinj a d e t) :=
  decode_one rfl rfl rfl rfl rfl
theorem timerd (a : Opd) (d : Opd) (e : Opd) (t : Tag) : Statement (.timerd a d e t) :=
  decode_one rfl rfl rfl rfl rfl
theorem roundrd (d : Opd) (e : Opd) (t : Tag) : Statement (.roundrd d e t) :=
  decode_one rfl rfl rfl rfl rfl
theorem fmtmode (a : Opd) (d : Opd) (e : Opd) (t : Tag) : Statement (.fmtmode a d e t) :=
  decode_one rfl rfl rfl rfl rfl
theorem ld (a : Opd) (d : Opd) (e : Opd) (t : Tag) (xw : BitVec 2) (xoff : BitVec 20) : Statement (.ld a d e t xw xoff) := by
  refine decode_two (x := (xw ++ 0#10 ++ xoff).cast rfl) (ok := true) rfl rfl rfl rfl ?_ rfl
  unfold decodeTwo
  dsimp only []
  simp (decide := true) only [BitVec.extractLsb'_cast, BitVec.extractLsb'_append_eq_of_le,
    BitVec.extractLsb'_append_eq_of_add_le]
  simp only [Nat.reduceSub, BitVec.extractLsb'_eq_self]
  rfl
theorem st (a : Opd) (b : Opd) (t : Tag) (xw : BitVec 2) (xoff : BitVec 20) : Statement (.st a b t xw xoff) := by
  refine decode_two (x := (xw ++ 0#10 ++ xoff).cast rfl) (ok := true) rfl rfl rfl rfl ?_ rfl
  unfold decodeTwo
  dsimp only []
  simp (decide := true) only [BitVec.extractLsb'_cast, BitVec.extractLsb'_append_eq_of_le,
    BitVec.extractLsb'_append_eq_of_add_le]
  simp only [Nat.reduceSub, BitVec.extractLsb'_eq_self]
  rfl
theorem stn (a : Opd) (b : Opd) (t : Tag) (xh : BitVec 1) (xoff : BitVec 20) : Statement (.stn a b t xh xoff) := by
  refine decode_two (x := (0#11 ++ xh ++ xoff).cast rfl) (ok := true) rfl rfl rfl rfl ?_ rfl
  unfold decodeTwo
  dsimp only []
  simp (decide := true) only [BitVec.extractLsb'_cast, BitVec.extractLsb'_append_eq_of_le,
    BitVec.extractLsb'_append_eq_of_add_le]
  simp only [Nat.reduceSub, BitVec.extractLsb'_eq_self]
  rfl
theorem vld (a : Opd) (d : Opd) (e : Opd) (t : Tag) (xoff : BitVec 20) : Statement (.vld a d e t xoff) := by
  refine decode_two (x := (0#12 ++ xoff).cast rfl) (ok := true) rfl rfl rfl rfl ?_ rfl
  unfold decodeTwo
  dsimp only []
  simp (decide := true) only [BitVec.extractLsb'_cast, BitVec.extractLsb'_append_eq_of_le,
    BitVec.extractLsb'_append_eq_of_add_le]
  simp only [Nat.reduceSub, BitVec.extractLsb'_eq_self]
  rfl
theorem vst (a : Opd) (b : Opd) (t : Tag) (xm : BitVec 1) (xoff : BitVec 20) : Statement (.vst a b t xm xoff) := by
  refine decode_two (x := (xm ++ 0#11 ++ xoff).cast rfl) (ok := true) rfl rfl rfl rfl ?_ rfl
  unfold decodeTwo
  dsimp only []
  simp (decide := true) only [BitVec.extractLsb'_cast, BitVec.extractLsb'_append_eq_of_le,
    BitVec.extractLsb'_append_eq_of_add_le]
  simp only [Nat.reduceSub, BitVec.extractLsb'_eq_self]
  rfl
theorem vldx (a : Opd) (b : Opd) (d : Opd) (e : Opd) (t : Tag) (xw : BitVec 2) (xm : BitVec 1) (xoff : BitVec 20) : Statement (.vldx a b d e t xw xm xoff) := by
  refine decode_two (x := (xw ++ xm ++ 0#9 ++ xoff).cast rfl) (ok := true) rfl rfl rfl rfl ?_ rfl
  unfold decodeTwo
  dsimp only []
  simp (decide := true) only [BitVec.extractLsb'_cast, BitVec.extractLsb'_append_eq_of_le,
    BitVec.extractLsb'_append_eq_of_add_le]
  simp only [Nat.reduceSub, BitVec.extractLsb'_eq_self]
  rfl
theorem vstx (a : Opd) (b : Opd) (t : Tag) (xw : BitVec 2) (xm : BitVec 1) (xix : BitVec 4) (xoff : BitVec 20) : Statement (.vstx a b t xw xm xix xoff) := by
  refine decode_two (x := (xw ++ xm ++ 0#1 ++ xix ++ 0#4 ++ xoff).cast rfl) (ok := true) rfl rfl rfl rfl ?_ rfl
  unfold decodeTwo
  dsimp only []
  simp (decide := true) only [BitVec.extractLsb'_cast, BitVec.extractLsb'_append_eq_of_le,
    BitVec.extractLsb'_append_eq_of_add_le]
  simp only [Nat.reduceSub, BitVec.extractLsb'_eq_self]
  rfl
theorem rld (a : Opd) (t : Tag) (xw : BitVec 2) (xrt : BitVec 6) (xoff : BitVec 20) : Statement (.rld a t xw xrt xoff) := by
  refine decode_two (x := (xw ++ xrt ++ 1#1 ++ 0#3 ++ xoff).cast rfl) (ok := true) rfl rfl rfl rfl ?_ rfl
  unfold decodeTwo
  dsimp only []
  simp (decide := true) only [BitVec.extractLsb'_cast, BitVec.extractLsb'_append_eq_of_le,
    BitVec.extractLsb'_append_eq_of_add_le]
  simp only [Nat.reduceSub, BitVec.extractLsb'_eq_self]
  rfl
theorem rst (a : Opd) (b : Opd) (t : Tag) (xw : BitVec 2) (xrt : BitVec 6) (xrpy : BitVec 1) (xoff : BitVec 20) : Statement (.rst a b t xw xrt xrpy xoff) := by
  refine decode_two (x := (xw ++ xrt ++ xrpy ++ 0#3 ++ xoff).cast rfl) (ok := true) rfl rfl rfl rfl ?_ rfl
  unfold decodeTwo
  dsimp only []
  simp (decide := true) only [BitVec.extractLsb'_cast, BitVec.extractLsb'_append_eq_of_le,
    BitVec.extractLsb'_append_eq_of_add_le]
  simp only [Nat.reduceSub, BitVec.extractLsb'_eq_self]
  rfl
theorem rvld (a : Opd) (t : Tag) (xrt : BitVec 6) (xoff : BitVec 20) : Statement (.rvld a t xrt xoff) := by
  refine decode_two (x := (0#2 ++ xrt ++ 1#1 ++ 0#3 ++ xoff).cast rfl) (ok := true) rfl rfl rfl rfl ?_ rfl
  unfold decodeTwo
  dsimp only []
  simp (decide := true) only [BitVec.extractLsb'_cast, BitVec.extractLsb'_append_eq_of_le,
    BitVec.extractLsb'_append_eq_of_add_le]
  simp only [Nat.reduceSub, BitVec.extractLsb'_eq_self]
  rfl
theorem rvst (a : Opd) (b : Opd) (t : Tag) (xrt : BitVec 6) (xrpy : BitVec 1) (xoff : BitVec 20) : Statement (.rvst a b t xrt xrpy xoff) := by
  refine decode_two (x := (0#2 ++ xrt ++ xrpy ++ 0#3 ++ xoff).cast rfl) (ok := true) rfl rfl rfl rfl ?_ rfl
  unfold decodeTwo
  dsimp only []
  simp (decide := true) only [BitVec.extractLsb'_cast, BitVec.extractLsb'_append_eq_of_le,
    BitVec.extractLsb'_append_eq_of_add_le]
  simp only [Nat.reduceSub, BitVec.extractLsb'_eq_self]
  rfl
theorem amoAdd (a : Opd) (b : Opd) (t : Tag) (xw : BitVec 2) (xrt : BitVec 6) (xrpy : BitVec 1) (xoff : BitVec 15) : Statement (.amoAdd a b t xw xrt xrpy xoff) := by
  refine decode_two (x := (0#4 ++ xw ++ xrt ++ xrpy ++ 0#4 ++ xoff).cast rfl) (ok := true) rfl rfl rfl rfl ?_ rfl
  have h0 : BitVec.extractLsb' 28 4 ((0#4 ++ xw ++ xrt ++ xrpy ++ 0#4 ++ xoff).cast rfl : W32) = 0#4 := by
    simp (decide := true) only [BitVec.extractLsb'_cast, BitVec.extractLsb'_append_eq_of_le,
    BitVec.extractLsb'_append_eq_of_add_le]
  unfold decodeTwo
  dsimp only []
  rw [h0]
  simp (decide := true) only [BitVec.extractLsb'_cast, BitVec.extractLsb'_append_eq_of_le,
    BitVec.extractLsb'_append_eq_of_add_le]
  simp only [Nat.reduceSub, BitVec.extractLsb'_eq_self]
  rfl
theorem amoMin (a : Opd) (b : Opd) (t : Tag) (xw : BitVec 2) (xrt : BitVec 6) (xrpy : BitVec 1) (xoff : BitVec 15) : Statement (.amoMin a b t xw xrt xrpy xoff) := by
  refine decode_two (x := (1#4 ++ xw ++ xrt ++ xrpy ++ 0#4 ++ xoff).cast rfl) (ok := true) rfl rfl rfl rfl ?_ rfl
  have h0 : BitVec.extractLsb' 28 4 ((1#4 ++ xw ++ xrt ++ xrpy ++ 0#4 ++ xoff).cast rfl : W32) = 1#4 := by
    simp (decide := true) only [BitVec.extractLsb'_cast, BitVec.extractLsb'_append_eq_of_le,
    BitVec.extractLsb'_append_eq_of_add_le]
  unfold decodeTwo
  dsimp only []
  rw [h0]
  simp (decide := true) only [BitVec.extractLsb'_cast, BitVec.extractLsb'_append_eq_of_le,
    BitVec.extractLsb'_append_eq_of_add_le]
  simp only [Nat.reduceSub, BitVec.extractLsb'_eq_self]
  rfl
theorem amoMax (a : Opd) (b : Opd) (t : Tag) (xw : BitVec 2) (xrt : BitVec 6) (xrpy : BitVec 1) (xoff : BitVec 15) : Statement (.amoMax a b t xw xrt xrpy xoff) := by
  refine decode_two (x := (2#4 ++ xw ++ xrt ++ xrpy ++ 0#4 ++ xoff).cast rfl) (ok := true) rfl rfl rfl rfl ?_ rfl
  have h0 : BitVec.extractLsb' 28 4 ((2#4 ++ xw ++ xrt ++ xrpy ++ 0#4 ++ xoff).cast rfl : W32) = 2#4 := by
    simp (decide := true) only [BitVec.extractLsb'_cast, BitVec.extractLsb'_append_eq_of_le,
    BitVec.extractLsb'_append_eq_of_add_le]
  unfold decodeTwo
  dsimp only []
  rw [h0]
  simp (decide := true) only [BitVec.extractLsb'_cast, BitVec.extractLsb'_append_eq_of_le,
    BitVec.extractLsb'_append_eq_of_add_le]
  simp only [Nat.reduceSub, BitVec.extractLsb'_eq_self]
  rfl
theorem amoMinu (a : Opd) (b : Opd) (t : Tag) (xw : BitVec 2) (xrt : BitVec 6) (xrpy : BitVec 1) (xoff : BitVec 15) : Statement (.amoMinu a b t xw xrt xrpy xoff) := by
  refine decode_two (x := (3#4 ++ xw ++ xrt ++ xrpy ++ 0#4 ++ xoff).cast rfl) (ok := true) rfl rfl rfl rfl ?_ rfl
  have h0 : BitVec.extractLsb' 28 4 ((3#4 ++ xw ++ xrt ++ xrpy ++ 0#4 ++ xoff).cast rfl : W32) = 3#4 := by
    simp (decide := true) only [BitVec.extractLsb'_cast, BitVec.extractLsb'_append_eq_of_le,
    BitVec.extractLsb'_append_eq_of_add_le]
  unfold decodeTwo
  dsimp only []
  rw [h0]
  simp (decide := true) only [BitVec.extractLsb'_cast, BitVec.extractLsb'_append_eq_of_le,
    BitVec.extractLsb'_append_eq_of_add_le]
  simp only [Nat.reduceSub, BitVec.extractLsb'_eq_self]
  rfl
theorem amoMaxu (a : Opd) (b : Opd) (t : Tag) (xw : BitVec 2) (xrt : BitVec 6) (xrpy : BitVec 1) (xoff : BitVec 15) : Statement (.amoMaxu a b t xw xrt xrpy xoff) := by
  refine decode_two (x := (4#4 ++ xw ++ xrt ++ xrpy ++ 0#4 ++ xoff).cast rfl) (ok := true) rfl rfl rfl rfl ?_ rfl
  have h0 : BitVec.extractLsb' 28 4 ((4#4 ++ xw ++ xrt ++ xrpy ++ 0#4 ++ xoff).cast rfl : W32) = 4#4 := by
    simp (decide := true) only [BitVec.extractLsb'_cast, BitVec.extractLsb'_append_eq_of_le,
    BitVec.extractLsb'_append_eq_of_add_le]
  unfold decodeTwo
  dsimp only []
  rw [h0]
  simp (decide := true) only [BitVec.extractLsb'_cast, BitVec.extractLsb'_append_eq_of_le,
    BitVec.extractLsb'_append_eq_of_add_le]
  simp only [Nat.reduceSub, BitVec.extractLsb'_eq_self]
  rfl
theorem amoAnd (a : Opd) (b : Opd) (t : Tag) (xw : BitVec 2) (xrt : BitVec 6) (xrpy : BitVec 1) (xoff : BitVec 15) : Statement (.amoAnd a b t xw xrt xrpy xoff) := by
  refine decode_two (x := (5#4 ++ xw ++ xrt ++ xrpy ++ 0#4 ++ xoff).cast rfl) (ok := true) rfl rfl rfl rfl ?_ rfl
  have h0 : BitVec.extractLsb' 28 4 ((5#4 ++ xw ++ xrt ++ xrpy ++ 0#4 ++ xoff).cast rfl : W32) = 5#4 := by
    simp (decide := true) only [BitVec.extractLsb'_cast, BitVec.extractLsb'_append_eq_of_le,
    BitVec.extractLsb'_append_eq_of_add_le]
  unfold decodeTwo
  dsimp only []
  rw [h0]
  simp (decide := true) only [BitVec.extractLsb'_cast, BitVec.extractLsb'_append_eq_of_le,
    BitVec.extractLsb'_append_eq_of_add_le]
  simp only [Nat.reduceSub, BitVec.extractLsb'_eq_self]
  rfl
theorem amoOr (a : Opd) (b : Opd) (t : Tag) (xw : BitVec 2) (xrt : BitVec 6) (xrpy : BitVec 1) (xoff : BitVec 15) : Statement (.amoOr a b t xw xrt xrpy xoff) := by
  refine decode_two (x := (6#4 ++ xw ++ xrt ++ xrpy ++ 0#4 ++ xoff).cast rfl) (ok := true) rfl rfl rfl rfl ?_ rfl
  have h0 : BitVec.extractLsb' 28 4 ((6#4 ++ xw ++ xrt ++ xrpy ++ 0#4 ++ xoff).cast rfl : W32) = 6#4 := by
    simp (decide := true) only [BitVec.extractLsb'_cast, BitVec.extractLsb'_append_eq_of_le,
    BitVec.extractLsb'_append_eq_of_add_le]
  unfold decodeTwo
  dsimp only []
  rw [h0]
  simp (decide := true) only [BitVec.extractLsb'_cast, BitVec.extractLsb'_append_eq_of_le,
    BitVec.extractLsb'_append_eq_of_add_le]
  simp only [Nat.reduceSub, BitVec.extractLsb'_eq_self]
  rfl
theorem amoXor (a : Opd) (b : Opd) (t : Tag) (xw : BitVec 2) (xrt : BitVec 6) (xrpy : BitVec 1) (xoff : BitVec 15) : Statement (.amoXor a b t xw xrt xrpy xoff) := by
  refine decode_two (x := (7#4 ++ xw ++ xrt ++ xrpy ++ 0#4 ++ xoff).cast rfl) (ok := true) rfl rfl rfl rfl ?_ rfl
  have h0 : BitVec.extractLsb' 28 4 ((7#4 ++ xw ++ xrt ++ xrpy ++ 0#4 ++ xoff).cast rfl : W32) = 7#4 := by
    simp (decide := true) only [BitVec.extractLsb'_cast, BitVec.extractLsb'_append_eq_of_le,
    BitVec.extractLsb'_append_eq_of_add_le]
  unfold decodeTwo
  dsimp only []
  rw [h0]
  simp (decide := true) only [BitVec.extractLsb'_cast, BitVec.extractLsb'_append_eq_of_le,
    BitVec.extractLsb'_append_eq_of_add_le]
  simp only [Nat.reduceSub, BitVec.extractLsb'_eq_self]
  rfl
theorem amoSwap (a : Opd) (b : Opd) (t : Tag) (xw : BitVec 2) (xrt : BitVec 6) (xrpy : BitVec 1) (xoff : BitVec 15) : Statement (.amoSwap a b t xw xrt xrpy xoff) := by
  refine decode_two (x := (8#4 ++ xw ++ xrt ++ xrpy ++ 0#4 ++ xoff).cast rfl) (ok := true) rfl rfl rfl rfl ?_ rfl
  have h0 : BitVec.extractLsb' 28 4 ((8#4 ++ xw ++ xrt ++ xrpy ++ 0#4 ++ xoff).cast rfl : W32) = 8#4 := by
    simp (decide := true) only [BitVec.extractLsb'_cast, BitVec.extractLsb'_append_eq_of_le,
    BitVec.extractLsb'_append_eq_of_add_le]
  unfold decodeTwo
  dsimp only []
  rw [h0]
  simp (decide := true) only [BitVec.extractLsb'_cast, BitVec.extractLsb'_append_eq_of_le,
    BitVec.extractLsb'_append_eq_of_add_le]
  simp only [Nat.reduceSub, BitVec.extractLsb'_eq_self]
  rfl
theorem amoCas (a : Opd) (b : Opd) (t : Tag) (xw : BitVec 2) (xrt : BitVec 6) (xrpy : BitVec 1) (xcmp : BitVec 4) (xoff : BitVec 15) : Statement (.amoCas a b t xw xrt xrpy xcmp xoff) := by
  refine decode_two (x := (9#4 ++ xw ++ xrt ++ xrpy ++ xcmp ++ xoff).cast rfl) (ok := true) rfl rfl rfl rfl ?_ rfl
  have h0 : BitVec.extractLsb' 28 4 ((9#4 ++ xw ++ xrt ++ xrpy ++ xcmp ++ xoff).cast rfl : W32) = 9#4 := by
    simp (decide := true) only [BitVec.extractLsb'_cast, BitVec.extractLsb'_append_eq_of_le,
    BitVec.extractLsb'_append_eq_of_add_le]
  unfold decodeTwo
  dsimp only []
  rw [h0]
  simp (decide := true) only [BitVec.extractLsb'_cast, BitVec.extractLsb'_append_eq_of_le,
    BitVec.extractLsb'_append_eq_of_add_le]
  simp only [Nat.reduceSub, BitVec.extractLsb'_eq_self]
  rfl
theorem amoFaddF32 (a : Opd) (b : Opd) (t : Tag) (xw : BitVec 2) (xrt : BitVec 6) (xrpy : BitVec 1) (xoff : BitVec 15) : Statement (.amoFaddF32 a b t xw xrt xrpy xoff) := by
  refine decode_two (x := (10#4 ++ xw ++ xrt ++ xrpy ++ 0#4 ++ xoff).cast rfl) (ok := true) rfl rfl rfl rfl ?_ rfl
  have h0 : BitVec.extractLsb' 28 4 ((10#4 ++ xw ++ xrt ++ xrpy ++ 0#4 ++ xoff).cast rfl : W32) = 10#4 := by
    simp (decide := true) only [BitVec.extractLsb'_cast, BitVec.extractLsb'_append_eq_of_le,
    BitVec.extractLsb'_append_eq_of_add_le]
  unfold decodeTwo
  dsimp only []
  rw [h0]
  simp (decide := true) only [BitVec.extractLsb'_cast, BitVec.extractLsb'_append_eq_of_le,
    BitVec.extractLsb'_append_eq_of_add_le]
  simp only [Nat.reduceSub, BitVec.extractLsb'_eq_self]
  rfl
theorem amoFaddBf16 (a : Opd) (b : Opd) (t : Tag) (xw : BitVec 2) (xrt : BitVec 6) (xrpy : BitVec 1) (xoff : BitVec 15) : Statement (.amoFaddBf16 a b t xw xrt xrpy xoff) := by
  refine decode_two (x := (11#4 ++ xw ++ xrt ++ xrpy ++ 0#4 ++ xoff).cast rfl) (ok := true) rfl rfl rfl rfl ?_ rfl
  have h0 : BitVec.extractLsb' 28 4 ((11#4 ++ xw ++ xrt ++ xrpy ++ 0#4 ++ xoff).cast rfl : W32) = 11#4 := by
    simp (decide := true) only [BitVec.extractLsb'_cast, BitVec.extractLsb'_append_eq_of_le,
    BitVec.extractLsb'_append_eq_of_add_le]
  unfold decodeTwo
  dsimp only []
  rw [h0]
  simp (decide := true) only [BitVec.extractLsb'_cast, BitVec.extractLsb'_append_eq_of_le,
    BitVec.extractLsb'_append_eq_of_add_le]
  simp only [Nat.reduceSub, BitVec.extractLsb'_eq_self]
  rfl
theorem stream (a : Opd) (d : Opd) (t : Tag) (xdir : BitVec 1) (xfmt : BitVec 3) (xesz : BitVec 2) : Statement (.stream a d t xdir xfmt xesz) := by
  refine decode_two (x := (xdir ++ xfmt ++ xesz ++ 0#26).cast rfl) (ok := true) rfl rfl rfl rfl ?_ rfl
  unfold decodeTwo
  dsimp only []
  simp (decide := true) only [BitVec.extractLsb'_cast, BitVec.extractLsb'_append_eq_of_le,
    BitVec.extractLsb'_append_eq_of_add_le]
  simp only [Nat.reduceSub, BitVec.extractLsb'_eq_self]
  rfl
theorem strctlUnbind (d : Opd) (t : Tag) : Statement (.strctlUnbind d t) := by
  refine decode_two (x := (0#3 ++ 0#29).cast rfl) (ok := true) rfl rfl rfl rfl ?_ rfl
  have h0 : BitVec.extractLsb' 29 3 ((0#3 ++ 0#29).cast rfl : W32) = 0#3 := by
    simp (decide := true) only [BitVec.extractLsb'_cast, BitVec.extractLsb'_append_eq_of_le,
    BitVec.extractLsb'_append_eq_of_add_le]
  unfold decodeTwo
  dsimp only []
  rw [h0]
  simp (decide := true) only [BitVec.extractLsb'_cast, BitVec.extractLsb'_append_eq_of_le,
    BitVec.extractLsb'_append_eq_of_add_le]
  simp only [Nat.reduceSub, BitVec.extractLsb'_eq_self]
  rfl
theorem strctlPause (d : Opd) (t : Tag) : Statement (.strctlPause d t) := by
  refine decode_two (x := (1#3 ++ 0#29).cast rfl) (ok := true) rfl rfl rfl rfl ?_ rfl
  have h0 : BitVec.extractLsb' 29 3 ((1#3 ++ 0#29).cast rfl : W32) = 1#3 := by
    simp (decide := true) only [BitVec.extractLsb'_cast, BitVec.extractLsb'_append_eq_of_le,
    BitVec.extractLsb'_append_eq_of_add_le]
  unfold decodeTwo
  dsimp only []
  rw [h0]
  simp (decide := true) only [BitVec.extractLsb'_cast, BitVec.extractLsb'_append_eq_of_le,
    BitVec.extractLsb'_append_eq_of_add_le]
  simp only [Nat.reduceSub, BitVec.extractLsb'_eq_self]
  rfl
theorem strctlResume (d : Opd) (t : Tag) : Statement (.strctlResume d t) := by
  refine decode_two (x := (2#3 ++ 0#29).cast rfl) (ok := true) rfl rfl rfl rfl ?_ rfl
  have h0 : BitVec.extractLsb' 29 3 ((2#3 ++ 0#29).cast rfl : W32) = 2#3 := by
    simp (decide := true) only [BitVec.extractLsb'_cast, BitVec.extractLsb'_append_eq_of_le,
    BitVec.extractLsb'_append_eq_of_add_le]
  unfold decodeTwo
  dsimp only []
  rw [h0]
  simp (decide := true) only [BitVec.extractLsb'_cast, BitVec.extractLsb'_append_eq_of_le,
    BitVec.extractLsb'_append_eq_of_add_le]
  simp only [Nat.reduceSub, BitVec.extractLsb'_eq_self]
  rfl
theorem strctlDrain (d : Opd) (t : Tag) (xtg : BitVec 6) : Statement (.strctlDrain d t xtg) := by
  refine decode_two (x := (3#3 ++ 0#23 ++ xtg).cast rfl) (ok := true) rfl rfl rfl rfl ?_ rfl
  have h0 : BitVec.extractLsb' 29 3 ((3#3 ++ 0#23 ++ xtg).cast rfl : W32) = 3#3 := by
    simp (decide := true) only [BitVec.extractLsb'_cast, BitVec.extractLsb'_append_eq_of_le,
    BitVec.extractLsb'_append_eq_of_add_le]
  unfold decodeTwo
  dsimp only []
  rw [h0]
  simp (decide := true) only [BitVec.extractLsb'_cast, BitVec.extractLsb'_append_eq_of_le,
    BitVec.extractLsb'_append_eq_of_add_le]
  simp only [Nat.reduceSub, BitVec.extractLsb'_eq_self]
  rfl
theorem cpy (a : Opd) (b : Opd) (xtg : BitVec 6) (xte : BitVec 1) (xlen : BitVec 4) : Statement (.cpy a b xtg xte xlen) := by
  refine decode_two (x := (xtg ++ xte ++ xlen ++ 0#21).cast rfl) (ok := true) rfl rfl rfl rfl ?_ rfl
  unfold decodeTwo
  dsimp only []
  simp (decide := true) only [BitVec.extractLsb'_cast, BitVec.extractLsb'_append_eq_of_le,
    BitVec.extractLsb'_append_eq_of_add_le]
  simp only [Nat.reduceSub, BitVec.extractLsb'_eq_self]
  rfl
theorem cpy2 (a : Opd) (xtg : BitVec 6) (xte : BitVec 1) : Statement (.cpy2 a xtg xte) := by
  refine decode_two (x := (xtg ++ xte ++ 0#25).cast rfl) (ok := true) rfl rfl rfl rfl ?_ rfl
  unfold decodeTwo
  dsimp only []
  simp (decide := true) only [BitVec.extractLsb'_cast, BitVec.extractLsb'_append_eq_of_le,
    BitVec.extractLsb'_append_eq_of_add_le]
  simp only [Nat.reduceSub, BitVec.extractLsb'_eq_self]
  rfl
theorem publish (a : Opd) (xtg : BitVec 6) (xte : BitVec 1) (xwin : BitVec 3) : Statement (.publish a xtg xte xwin) := by
  refine decode_two (x := (xtg ++ xte ++ 0#22 ++ xwin).cast rfl) (ok := true) rfl rfl rfl rfl ?_ rfl
  unfold decodeTwo
  dsimp only []
  simp (decide := true) only [BitVec.extractLsb'_cast, BitVec.extractLsb'_append_eq_of_le,
    BitVec.extractLsb'_append_eq_of_add_le]
  simp only [Nat.reduceSub, BitVec.extractLsb'_eq_self]
  rfl
theorem pfetch (a : Opd) (b : Opd) (xtg : BitVec 6) (xte : BitVec 1) : Statement (.pfetch a b xtg xte) := by
  refine decode_two (x := (xtg ++ xte ++ 0#25).cast rfl) (ok := true) rfl rfl rfl rfl ?_ rfl
  unfold decodeTwo
  dsimp only []
  simp (decide := true) only [BitVec.extractLsb'_cast, BitVec.extractLsb'_append_eq_of_le,
    BitVec.extractLsb'_append_eq_of_add_le]
  simp only [Nat.reduceSub, BitVec.extractLsb'_eq_self]
  rfl
theorem mma (a : Opd) (b : Opd) (t : Tag) (xacc : BitVec 2) (xaf : BitVec 3) (xbf : BitVec 3) (xk : BitVec 10) (xm : BitVec 4) (xn : BitVec 4) (xz : BitVec 1) (xbt : BitVec 1) (xep : BitVec 4) : Statement (.mma a b t xacc xaf xbf xk xm xn xz xbt xep) := by
  refine decode_two (x := (xacc ++ xaf ++ xbf ++ xk ++ xm ++ xn ++ xz ++ xbt ++ xep).cast rfl) (ok := true) rfl rfl rfl rfl ?_ rfl
  unfold decodeTwo
  dsimp only []
  simp (decide := true) only [BitVec.extractLsb'_cast, BitVec.extractLsb'_append_eq_of_le,
    BitVec.extractLsb'_append_eq_of_add_le]
  simp only [Nat.reduceSub, BitVec.extractLsb'_eq_self]
  rfl
theorem mmaz (a : Opd) (b : Opd) (t : Tag) (xacc : BitVec 2) (xaf : BitVec 3) (xbf : BitVec 3) (xk : BitVec 10) (xm : BitVec 4) (xn : BitVec 4) (xz : BitVec 1) (xbt : BitVec 1) (xep : BitVec 4) : Statement (.mmaz a b t xacc xaf xbf xk xm xn xz xbt xep) := by
  refine decode_two (x := (xacc ++ xaf ++ xbf ++ xk ++ xm ++ xn ++ xz ++ xbt ++ xep).cast rfl) (ok := true) rfl rfl rfl rfl ?_ rfl
  unfold decodeTwo
  dsimp only []
  simp (decide := true) only [BitVec.extractLsb'_cast, BitVec.extractLsb'_append_eq_of_le,
    BitVec.extractLsb'_append_eq_of_add_le]
  simp only [Nat.reduceSub, BitVec.extractLsb'_eq_self]
  rfl
theorem mmat (a : Opd) (b : Opd) (t : Tag) (xacc : BitVec 2) (xaf : BitVec 3) (xbf : BitVec 3) (xk : BitVec 10) (xm : BitVec 4) (xn : BitVec 4) (xz : BitVec 1) (xbt : BitVec 1) (xep : BitVec 4) : Statement (.mmat a b t xacc xaf xbf xk xm xn xz xbt xep) := by
  refine decode_two (x := (xacc ++ xaf ++ xbf ++ xk ++ xm ++ xn ++ xz ++ xbt ++ xep).cast rfl) (ok := true) rfl rfl rfl rfl ?_ rfl
  unfold decodeTwo
  dsimp only []
  simp (decide := true) only [BitVec.extractLsb'_cast, BitVec.extractLsb'_append_eq_of_le,
    BitVec.extractLsb'_append_eq_of_add_le]
  simp only [Nat.reduceSub, BitVec.extractLsb'_eq_self]
  rfl
theorem mmai8 (a : Opd) (b : Opd) (t : Tag) (xacc : BitVec 2) (xaf : BitVec 3) (xbf : BitVec 3) (xk : BitVec 10) (xm : BitVec 4) (xn : BitVec 4) (xz : BitVec 1) (xbt : BitVec 1) (xep : BitVec 4) : Statement (.mmai8 a b t xacc xaf xbf xk xm xn xz xbt xep) := by
  refine decode_two (x := (xacc ++ xaf ++ xbf ++ xk ++ xm ++ xn ++ xz ++ xbt ++ xep).cast rfl) (ok := true) rfl rfl rfl rfl ?_ rfl
  unfold decodeTwo
  dsimp only []
  simp (decide := true) only [BitVec.extractLsb'_cast, BitVec.extractLsb'_append_eq_of_le,
    BitVec.extractLsb'_append_eq_of_add_le]
  simp only [Nat.reduceSub, BitVec.extractLsb'_eq_self]
  rfl
theorem mmamx (a : Opd) (b : Opd) (t : Tag) (xacc : BitVec 2) (xaf : BitVec 3) (xbf : BitVec 3) (xk : BitVec 10) (xm : BitVec 4) (xn : BitVec 4) (xz : BitVec 1) (xbt : BitVec 1) (xep : BitVec 4) : Statement (.mmamx a b t xacc xaf xbf xk xm xn xz xbt xep) := by
  refine decode_two (x := (xacc ++ xaf ++ xbf ++ xk ++ xm ++ xn ++ xz ++ xbt ++ xep).cast rfl) (ok := true) rfl rfl rfl rfl ?_ rfl
  unfold decodeTwo
  dsimp only []
  simp (decide := true) only [BitVec.extractLsb'_cast, BitVec.extractLsb'_append_eq_of_le,
    BitVec.extractLsb'_append_eq_of_add_le]
  simp only [Nat.reduceSub, BitVec.extractLsb'_eq_self]
  rfl
theorem accrd (t : Tag) (xacc : BitVec 2) (xrt : BitVec 6) (xfirst : BitVec 4) (xrn : BitVec 4) (xep : BitVec 4) (xclr : BitVec 1) : Statement (.accrd t xacc xrt xfirst xrn xep xclr) := by
  refine decode_two (x := (xacc ++ xrt ++ xfirst ++ xrn ++ xep ++ xclr ++ 0#11).cast rfl) (ok := true) rfl rfl rfl rfl ?_ rfl
  unfold decodeTwo
  dsimp only []
  simp (decide := true) only [BitVec.extractLsb'_cast, BitVec.extractLsb'_append_eq_of_le,
    BitVec.extractLsb'_append_eq_of_add_le]
  simp only [Nat.reduceSub, BitVec.extractLsb'_eq_self]
  rfl
theorem accwr (a : Opd) (t : Tag) (xacc : BitVec 2) (xtyp : BitVec 2) (xfirst : BitVec 4) (xrn : BitVec 4) : Statement (.accwr a t xacc xtyp xfirst xrn) := by
  refine decode_two (x := (xacc ++ xtyp ++ xfirst ++ xrn ++ 0#20).cast rfl) (ok := true) rfl rfl rfl rfl ?_ rfl
  unfold decodeTwo
  dsimp only []
  simp (decide := true) only [BitVec.extractLsb'_cast, BitVec.extractLsb'_append_eq_of_le,
    BitVec.extractLsb'_append_eq_of_add_le]
  simp only [Nat.reduceSub, BitVec.extractLsb'_eq_self]
  rfl
theorem accz (t : Tag) (xacc : BitVec 2) (xtyp : BitVec 2) : Statement (.accz t xacc xtyp) := by
  refine decode_two (x := (xacc ++ xtyp ++ 0#28).cast rfl) (ok := true) rfl rfl rfl rfl ?_ rfl
  unfold decodeTwo
  dsimp only []
  simp (decide := true) only [BitVec.extractLsb'_cast, BitVec.extractLsb'_append_eq_of_le,
    BitVec.extractLsb'_append_eq_of_add_le]
  simp only [Nat.reduceSub, BitVec.extractLsb'_eq_self]
  rfl
theorem epicfg (a : Opd) (t : Tag) (xch : BitVec 4) : Statement (.epicfg a t xch) := by
  refine decode_two (x := (xch ++ 0#28).cast rfl) (ok := true) rfl rfl rfl rfl ?_ rfl
  unfold decodeTwo
  dsimp only []
  simp (decide := true) only [BitVec.extractLsb'_cast, BitVec.extractLsb'_append_eq_of_le,
    BitVec.extractLsb'_append_eq_of_add_le]
  simp only [Nat.reduceSub, BitVec.extractLsb'_eq_self]
  rfl
theorem abftcfg (t : Tag) (xen : BitVec 1) (xcorr : BitVec 1) : Statement (.abftcfg t xen xcorr) := by
  refine decode_two (x := (xen ++ xcorr ++ 0#30).cast rfl) (ok := true) rfl rfl rfl rfl ?_ rfl
  unfold decodeTwo
  dsimp only []
  simp (decide := true) only [BitVec.extractLsb'_cast, BitVec.extractLsb'_append_eq_of_le,
    BitVec.extractLsb'_append_eq_of_add_le]
  simp only [Nat.reduceSub, BitVec.extractLsb'_eq_self]
  rfl
theorem bqstat (d : Opd) (e : Opd) (t : Tag) (xsel : BitVec 4) (xclr : BitVec 1) : Statement (.bqstat d e t xsel xclr) := by
  refine decode_two (x := (xsel ++ xclr ++ 0#27).cast rfl) (ok := true) rfl rfl rfl rfl ?_ rfl
  unfold decodeTwo
  dsimp only []
  simp (decide := true) only [BitVec.extractLsb'_cast, BitVec.extractLsb'_append_eq_of_le,
    BitVec.extractLsb'_append_eq_of_add_le]
  simp only [Nat.reduceSub, BitVec.extractLsb'_eq_self]
  rfl
theorem bar (xk : BitVec 4) (xtg : BitVec 6) (xte : BitVec 1) : Statement (.bar xk xtg xte) := by
  refine decode_two (x := (0#5 ++ xk ++ xtg ++ xte ++ 0#16).cast rfl) (ok := true) rfl rfl rfl rfl ?_ rfl
  have h0 : BitVec.extractLsb' 27 5 ((0#5 ++ xk ++ xtg ++ xte ++ 0#16).cast rfl : W32) = 0#5 := by
    simp (decide := true) only [BitVec.extractLsb'_cast, BitVec.extractLsb'_append_eq_of_le,
    BitVec.extractLsb'_append_eq_of_add_le]
  unfold decodeTwo
  dsimp only []
  rw [h0]
  simp (decide := true) only [BitVec.extractLsb'_cast, BitVec.extractLsb'_append_eq_of_le,
    BitVec.extractLsb'_append_eq_of_add_le]
  simp only [Nat.reduceSub, BitVec.extractLsb'_eq_self]
  rfl
theorem bart (a : Opd) (xk : BitVec 4) (xtg : BitVec 6) (xtm : BitVec 6) : Statement (.bart a xk xtg xtm) := by
  refine decode_two (x := (1#5 ++ xk ++ xtg ++ xtm ++ 0#11).cast rfl) (ok := true) rfl rfl rfl rfl ?_ rfl
  have h0 : BitVec.extractLsb' 27 5 ((1#5 ++ xk ++ xtg ++ xtm ++ 0#11).cast rfl : W32) = 1#5 := by
    simp (decide := true) only [BitVec.extractLsb'_cast, BitVec.extractLsb'_append_eq_of_le,
    BitVec.extractLsb'_append_eq_of_add_le]
  unfold decodeTwo
  dsimp only []
  rw [h0]
  simp (decide := true) only [BitVec.extractLsb'_cast, BitVec.extractLsb'_append_eq_of_le,
    BitVec.extractLsb'_append_eq_of_add_le]
  simp only [Nat.reduceSub, BitVec.extractLsb'_eq_self]
  rfl
theorem red (a : Opd) (xtr : BitVec 5) (xop : BitVec 4) (xv : BitVec 1) (xall : BitVec 1) (xrt : BitVec 6) : Statement (.red a xtr xop xv xall xrt) := by
  refine decode_two (x := (2#5 ++ xtr ++ xop ++ xv ++ xall ++ xrt ++ 0#10).cast rfl) (ok := true) rfl rfl rfl rfl ?_ rfl
  have h0 : BitVec.extractLsb' 27 5 ((2#5 ++ xtr ++ xop ++ xv ++ xall ++ xrt ++ 0#10).cast rfl : W32) = 2#5 := by
    simp (decide := true) only [BitVec.extractLsb'_cast, BitVec.extractLsb'_append_eq_of_le,
    BitVec.extractLsb'_append_eq_of_add_le]
  unfold decodeTwo
  dsimp only []
  rw [h0]
  simp (decide := true) only [BitVec.extractLsb'_cast, BitVec.extractLsb'_append_eq_of_le,
    BitVec.extractLsb'_append_eq_of_add_le]
  simp only [Nat.reduceSub, BitVec.extractLsb'_eq_self]
  rfl
theorem pairx (a : Opd) (xch : BitVec 4) (xrt : BitVec 6) : Statement (.pairx a xch xrt) := by
  refine decode_two (x := (3#5 ++ xch ++ xrt ++ 0#17).cast rfl) (ok := true) rfl rfl rfl rfl ?_ rfl
  have h0 : BitVec.extractLsb' 27 5 ((3#5 ++ xch ++ xrt ++ 0#17).cast rfl : W32) = 3#5 := by
    simp (decide := true) only [BitVec.extractLsb'_cast, BitVec.extractLsb'_append_eq_of_le,
    BitVec.extractLsb'_append_eq_of_add_le]
  unfold decodeTwo
  dsimp only []
  rw [h0]
  simp (decide := true) only [BitVec.extractLsb'_cast, BitVec.extractLsb'_append_eq_of_le,
    BitVec.extractLsb'_append_eq_of_add_le]
  simp only [Nat.reduceSub, BitVec.extractLsb'_eq_self]
  rfl
theorem sluice (a : Opd) : Statement (.sluice a) := by
  refine decode_two (x := (4#5 ++ 0#27).cast rfl) (ok := true) rfl rfl rfl rfl ?_ rfl
  have h0 : BitVec.extractLsb' 27 5 ((4#5 ++ 0#27).cast rfl : W32) = 4#5 := by
    simp (decide := true) only [BitVec.extractLsb'_cast, BitVec.extractLsb'_append_eq_of_le,
    BitVec.extractLsb'_append_eq_of_add_le]
  unfold decodeTwo
  dsimp only []
  rw [h0]
  simp (decide := true) only [BitVec.extractLsb'_cast, BitVec.extractLsb'_append_eq_of_le,
    BitVec.extractLsb'_append_eq_of_add_le]
  simp only [Nat.reduceSub, BitVec.extractLsb'_eq_self]
  rfl
theorem hfwd (a : Opd) : Statement (.hfwd a) := by
  refine decode_two (x := (5#5 ++ 0#27).cast rfl) (ok := true) rfl rfl rfl rfl ?_ rfl
  have h0 : BitVec.extractLsb' 27 5 ((5#5 ++ 0#27).cast rfl : W32) = 5#5 := by
    simp (decide := true) only [BitVec.extractLsb'_cast, BitVec.extractLsb'_append_eq_of_le,
    BitVec.extractLsb'_append_eq_of_add_le]
  unfold decodeTwo
  dsimp only []
  rw [h0]
  simp (decide := true) only [BitVec.extractLsb'_cast, BitVec.extractLsb'_append_eq_of_le,
    BitVec.extractLsb'_append_eq_of_add_le]
  simp only [Nat.reduceSub, BitVec.extractLsb'_eq_self]
  rfl
theorem bandrd (a : Opd) (d : Opd) (e : Opd) (t : Tag) : Statement (.bandrd a d e t) := by
  refine decode_two (x := (0#5 ++ 0#27).cast rfl) (ok := true) rfl rfl rfl rfl ?_ rfl
  have h0 : BitVec.extractLsb' 27 5 ((0#5 ++ 0#27).cast rfl : W32) = 0#5 := by
    simp (decide := true) only [BitVec.extractLsb'_cast, BitVec.extractLsb'_append_eq_of_le,
    BitVec.extractLsb'_append_eq_of_add_le]
  unfold decodeTwo
  dsimp only []
  rw [h0]
  simp (decide := true) only [BitVec.extractLsb'_cast, BitVec.extractLsb'_append_eq_of_le,
    BitVec.extractLsb'_append_eq_of_add_le]
  simp only [Nat.reduceSub, BitVec.extractLsb'_eq_self]
  rfl
theorem toffrd (a : Opd) (d : Opd) (e : Opd) (t : Tag) : Statement (.toffrd a d e t) := by
  refine decode_two (x := (1#5 ++ 0#27).cast rfl) (ok := true) rfl rfl rfl rfl ?_ rfl
  have h0 : BitVec.extractLsb' 27 5 ((1#5 ++ 0#27).cast rfl : W32) = 1#5 := by
    simp (decide := true) only [BitVec.extractLsb'_cast, BitVec.extractLsb'_append_eq_of_le,
    BitVec.extractLsb'_append_eq_of_add_le]
  unfold decodeTwo
  dsimp only []
  rw [h0]
  simp (decide := true) only [BitVec.extractLsb'_cast, BitVec.extractLsb'_append_eq_of_le,
    BitVec.extractLsb'_append_eq_of_add_le]
  simp only [Nat.reduceSub, BitVec.extractLsb'_eq_self]
  rfl
theorem vfreq (a : Opd) (d : Opd) (e : Opd) (t : Tag) : Statement (.vfreq a d e t) := by
  refine decode_two (x := (2#5 ++ 0#27).cast rfl) (ok := true) rfl rfl rfl rfl ?_ rfl
  have h0 : BitVec.extractLsb' 27 5 ((2#5 ++ 0#27).cast rfl : W32) = 2#5 := by
    simp (decide := true) only [BitVec.extractLsb'_cast, BitVec.extractLsb'_append_eq_of_le,
    BitVec.extractLsb'_append_eq_of_add_le]
  unfold decodeTwo
  dsimp only []
  rw [h0]
  simp (decide := true) only [BitVec.extractLsb'_cast, BitVec.extractLsb'_append_eq_of_le,
    BitVec.extractLsb'_append_eq_of_add_le]
  simp only [Nat.reduceSub, BitVec.extractLsb'_eq_self]
  rfl
theorem weir (a : Opd) (d : Opd) (e : Opd) (t : Tag) : Statement (.weir a d e t) := by
  refine decode_two (x := (3#5 ++ 0#27).cast rfl) (ok := true) rfl rfl rfl rfl ?_ rfl
  have h0 : BitVec.extractLsb' 27 5 ((3#5 ++ 0#27).cast rfl : W32) = 3#5 := by
    simp (decide := true) only [BitVec.extractLsb'_cast, BitVec.extractLsb'_append_eq_of_le,
    BitVec.extractLsb'_append_eq_of_add_le]
  unfold decodeTwo
  dsimp only []
  rw [h0]
  simp (decide := true) only [BitVec.extractLsb'_cast, BitVec.extractLsb'_append_eq_of_le,
    BitVec.extractLsb'_append_eq_of_add_le]
  simp only [Nat.reduceSub, BitVec.extractLsb'_eq_self]
  rfl
theorem rsvld (a : Opd) (b : Opd) (t : Tag) (xtg : BitVec 6) (xte : BitVec 1) (xlen : BitVec 4) : Statement (.rsvld a b t xtg xte xlen) := by
  refine decode_two (x := (4#5 ++ xtg ++ xte ++ xlen ++ 0#16).cast rfl) (ok := true) rfl rfl rfl rfl ?_ rfl
  have h0 : BitVec.extractLsb' 27 5 ((4#5 ++ xtg ++ xte ++ xlen ++ 0#16).cast rfl : W32) = 4#5 := by
    simp (decide := true) only [BitVec.extractLsb'_cast, BitVec.extractLsb'_append_eq_of_le,
    BitVec.extractLsb'_append_eq_of_add_le]
  unfold decodeTwo
  dsimp only []
  rw [h0]
  simp (decide := true) only [BitVec.extractLsb'_cast, BitVec.extractLsb'_append_eq_of_le,
    BitVec.extractLsb'_append_eq_of_add_le]
  simp only [Nat.reduceSub, BitVec.extractLsb'_eq_self]
  rfl
theorem rsvcfgPart (a : Opd) (t : Tag) (xtg : BitVec 6) (xte : BitVec 1) : Statement (.rsvcfgPart a t xtg xte) := by
  refine decode_two (x := (5#5 ++ 0#2 ++ xtg ++ xte ++ 0#18).cast rfl) (ok := true) rfl rfl rfl rfl ?_ rfl
  have h0 : BitVec.extractLsb' 27 5 ((5#5 ++ 0#2 ++ xtg ++ xte ++ 0#18).cast rfl : W32) = 5#5 := by
    simp (decide := true) only [BitVec.extractLsb'_cast, BitVec.extractLsb'_append_eq_of_le,
    BitVec.extractLsb'_append_eq_of_add_le]
  have h1 : BitVec.extractLsb' 25 2 ((5#5 ++ 0#2 ++ xtg ++ xte ++ 0#18).cast rfl : W32) = 0#2 := by
    simp (decide := true) only [BitVec.extractLsb'_cast, BitVec.extractLsb'_append_eq_of_le,
    BitVec.extractLsb'_append_eq_of_add_le]
  unfold decodeTwo
  dsimp only []
  rw [h0]
  rw [h1]
  simp (decide := true) only [BitVec.extractLsb'_cast, BitVec.extractLsb'_append_eq_of_le,
    BitVec.extractLsb'_append_eq_of_add_le]
  simp only [Nat.reduceSub, BitVec.extractLsb'_eq_self]
  rfl
theorem rsvcfgDrop (a : Opd) (t : Tag) (xtg : BitVec 6) (xte : BitVec 1) : Statement (.rsvcfgDrop a t xtg xte) := by
  refine decode_two (x := (5#5 ++ 1#2 ++ xtg ++ xte ++ 0#18).cast rfl) (ok := true) rfl rfl rfl rfl ?_ rfl
  have h0 : BitVec.extractLsb' 27 5 ((5#5 ++ 1#2 ++ xtg ++ xte ++ 0#18).cast rfl : W32) = 5#5 := by
    simp (decide := true) only [BitVec.extractLsb'_cast, BitVec.extractLsb'_append_eq_of_le,
    BitVec.extractLsb'_append_eq_of_add_le]
  have h1 : BitVec.extractLsb' 25 2 ((5#5 ++ 1#2 ++ xtg ++ xte ++ 0#18).cast rfl : W32) = 1#2 := by
    simp (decide := true) only [BitVec.extractLsb'_cast, BitVec.extractLsb'_append_eq_of_le,
    BitVec.extractLsb'_append_eq_of_add_le]
  unfold decodeTwo
  dsimp only []
  rw [h0]
  rw [h1]
  simp (decide := true) only [BitVec.extractLsb'_cast, BitVec.extractLsb'_append_eq_of_le,
    BitVec.extractLsb'_append_eq_of_add_le]
  simp only [Nat.reduceSub, BitVec.extractLsb'_eq_self]
  rfl
theorem cgsend (a : Opd) (b : Opd) (xg : BitVec 8) (xtg : BitVec 6) (xte : BitVec 1) (xsrc : BitVec 2) (xhuf : BitVec 1) (xfmt : BitVec 3) (xlast : BitVec 1) : Statement (.cgsend a b xg xtg xte xsrc xhuf xfmt xlast) := by
  refine decode_two (x := (0#5 ++ xg ++ xtg ++ xte ++ xsrc ++ xhuf ++ xfmt ++ xlast ++ 0#5).cast rfl) (ok := true) rfl rfl rfl rfl ?_ rfl
  have h0 : BitVec.extractLsb' 27 5 ((0#5 ++ xg ++ xtg ++ xte ++ xsrc ++ xhuf ++ xfmt ++ xlast ++ 0#5).cast rfl : W32) = 0#5 := by
    simp (decide := true) only [BitVec.extractLsb'_cast, BitVec.extractLsb'_append_eq_of_le,
    BitVec.extractLsb'_append_eq_of_add_le]
  unfold decodeTwo
  dsimp only []
  rw [h0]
  simp (decide := true) only [BitVec.extractLsb'_cast, BitVec.extractLsb'_append_eq_of_le,
    BitVec.extractLsb'_append_eq_of_add_le]
  simp only [Nat.reduceSub, BitVec.extractLsb'_eq_self]
  rfl
theorem cgrant (xg : BitVec 8) (xhold : BitVec 1) : Statement (.cgrant xg xhold) := by
  refine decode_two (x := (1#5 ++ xg ++ xhold ++ 0#18).cast rfl) (ok := true) rfl rfl rfl rfl ?_ rfl
  have h0 : BitVec.extractLsb' 27 5 ((1#5 ++ xg ++ xhold ++ 0#18).cast rfl : W32) = 1#5 := by
    simp (decide := true) only [BitVec.extractLsb'_cast, BitVec.extractLsb'_append_eq_of_le,
    BitVec.extractLsb'_append_eq_of_add_le]
  unfold decodeTwo
  dsimp only []
  rw [h0]
  simp (decide := true) only [BitVec.extractLsb'_cast, BitVec.extractLsb'_append_eq_of_le,
    BitVec.extractLsb'_append_eq_of_add_le]
  simp only [Nat.reduceSub, BitVec.extractLsb'_eq_self]
  rfl
theorem cgwake (xg : BitVec 8) (xtg : BitVec 6) (xte : BitVec 1) : Statement (.cgwake xg xtg xte) := by
  refine decode_two (x := (2#5 ++ xg ++ xtg ++ xte ++ 0#12).cast rfl) (ok := true) rfl rfl rfl rfl ?_ rfl
  have h0 : BitVec.extractLsb' 27 5 ((2#5 ++ xg ++ xtg ++ xte ++ 0#12).cast rfl : W32) = 2#5 := by
    simp (decide := true) only [BitVec.extractLsb'_cast, BitVec.extractLsb'_append_eq_of_le,
    BitVec.extractLsb'_append_eq_of_add_le]
  unfold decodeTwo
  dsimp only []
  rw [h0]
  simp (decide := true) only [BitVec.extractLsb'_cast, BitVec.extractLsb'_append_eq_of_le,
    BitVec.extractLsb'_append_eq_of_add_le]
  simp only [Nat.reduceSub, BitVec.extractLsb'_eq_self]
  rfl
theorem cgrel (xport : BitVec 1) (xk : BitVec 2) : Statement (.cgrel xport xk) := by
  refine decode_two (x := (3#5 ++ xport ++ xk ++ 0#24).cast rfl) (ok := true) rfl rfl rfl rfl ?_ rfl
  have h0 : BitVec.extractLsb' 27 5 ((3#5 ++ xport ++ xk ++ 0#24).cast rfl : W32) = 3#5 := by
    simp (decide := true) only [BitVec.extractLsb'_cast, BitVec.extractLsb'_append_eq_of_le,
    BitVec.extractLsb'_append_eq_of_add_le]
  unfold decodeTwo
  dsimp only []
  rw [h0]
  simp (decide := true) only [BitVec.extractLsb'_cast, BitVec.extractLsb'_append_eq_of_le,
    BitVec.extractLsb'_append_eq_of_add_le]
  simp only [Nat.reduceSub, BitVec.extractLsb'_eq_self]
  rfl
theorem cgcfgFilter (a : Opd) (xix : BitVec 8) : Statement (.cgcfgFilter a xix) := by
  refine decode_two (x := (4#5 ++ 0#2 ++ xix ++ 0#17).cast rfl) (ok := true) rfl rfl rfl rfl ?_ rfl
  have h0 : BitVec.extractLsb' 27 5 ((4#5 ++ 0#2 ++ xix ++ 0#17).cast rfl : W32) = 4#5 := by
    simp (decide := true) only [BitVec.extractLsb'_cast, BitVec.extractLsb'_append_eq_of_le,
    BitVec.extractLsb'_append_eq_of_add_le]
  have h1 : BitVec.extractLsb' 25 2 ((4#5 ++ 0#2 ++ xix ++ 0#17).cast rfl : W32) = 0#2 := by
    simp (decide := true) only [BitVec.extractLsb'_cast, BitVec.extractLsb'_append_eq_of_le,
    BitVec.extractLsb'_append_eq_of_add_le]
  unfold decodeTwo
  dsimp only []
  rw [h0]
  rw [h1]
  simp (decide := true) only [BitVec.extractLsb'_cast, BitVec.extractLsb'_append_eq_of_le,
    BitVec.extractLsb'_append_eq_of_add_le]
  simp only [Nat.reduceSub, BitVec.extractLsb'_eq_self]
  rfl
theorem cgcfgPort (a : Opd) (xix : BitVec 8) : Statement (.cgcfgPort a xix) := by
  refine decode_two (x := (4#5 ++ 1#2 ++ xix ++ 0#17).cast rfl) (ok := true) rfl rfl rfl rfl ?_ rfl
  have h0 : BitVec.extractLsb' 27 5 ((4#5 ++ 1#2 ++ xix ++ 0#17).cast rfl : W32) = 4#5 := by
    simp (decide := true) only [BitVec.extractLsb'_cast, BitVec.extractLsb'_append_eq_of_le,
    BitVec.extractLsb'_append_eq_of_add_le]
  have h1 : BitVec.extractLsb' 25 2 ((4#5 ++ 1#2 ++ xix ++ 0#17).cast rfl : W32) = 1#2 := by
    simp (decide := true) only [BitVec.extractLsb'_cast, BitVec.extractLsb'_append_eq_of_le,
    BitVec.extractLsb'_append_eq_of_add_le]
  unfold decodeTwo
  dsimp only []
  rw [h0]
  rw [h1]
  simp (decide := true) only [BitVec.extractLsb'_cast, BitVec.extractLsb'_append_eq_of_le,
    BitVec.extractLsb'_append_eq_of_add_le]
  simp only [Nat.reduceSub, BitVec.extractLsb'_eq_self]
  rfl
theorem cgcfgDepth (a : Opd) (xix : BitVec 8) : Statement (.cgcfgDepth a xix) := by
  refine decode_two (x := (4#5 ++ 2#2 ++ xix ++ 0#17).cast rfl) (ok := true) rfl rfl rfl rfl ?_ rfl
  have h0 : BitVec.extractLsb' 27 5 ((4#5 ++ 2#2 ++ xix ++ 0#17).cast rfl : W32) = 4#5 := by
    simp (decide := true) only [BitVec.extractLsb'_cast, BitVec.extractLsb'_append_eq_of_le,
    BitVec.extractLsb'_append_eq_of_add_le]
  have h1 : BitVec.extractLsb' 25 2 ((4#5 ++ 2#2 ++ xix ++ 0#17).cast rfl : W32) = 2#2 := by
    simp (decide := true) only [BitVec.extractLsb'_cast, BitVec.extractLsb'_append_eq_of_le,
    BitVec.extractLsb'_append_eq_of_add_le]
  unfold decodeTwo
  dsimp only []
  rw [h0]
  rw [h1]
  simp (decide := true) only [BitVec.extractLsb'_cast, BitVec.extractLsb'_append_eq_of_le,
    BitVec.extractLsb'_append_eq_of_add_le]
  simp only [Nat.reduceSub, BitVec.extractLsb'_eq_self]
  rfl
theorem cgstat (a : Opd) (d : Opd) (e : Opd) (t : Tag) (xsel : BitVec 3) : Statement (.cgstat a d e t xsel) := by
  refine decode_two (x := (5#5 ++ xsel ++ 0#24).cast rfl) (ok := true) rfl rfl rfl rfl ?_ rfl
  have h0 : BitVec.extractLsb' 27 5 ((5#5 ++ xsel ++ 0#24).cast rfl : W32) = 5#5 := by
    simp (decide := true) only [BitVec.extractLsb'_cast, BitVec.extractLsb'_append_eq_of_le,
    BitVec.extractLsb'_append_eq_of_add_le]
  unfold decodeTwo
  dsimp only []
  rw [h0]
  simp (decide := true) only [BitVec.extractLsb'_cast, BitVec.extractLsb'_append_eq_of_le,
    BitVec.extractLsb'_append_eq_of_add_le]
  simp only [Nat.reduceSub, BitVec.extractLsb'_eq_self]
  rfl
theorem eos (xports : BitVec 4) (xend : BitVec 1) : Statement (.eos xports xend) := by
  refine decode_two (x := (0#5 ++ xports ++ xend ++ 0#22).cast rfl) (ok := true) rfl rfl rfl rfl ?_ rfl
  have h0 : BitVec.extractLsb' 27 5 ((0#5 ++ xports ++ xend ++ 0#22).cast rfl : W32) = 0#5 := by
    simp (decide := true) only [BitVec.extractLsb'_cast, BitVec.extractLsb'_append_eq_of_le,
    BitVec.extractLsb'_append_eq_of_add_le]
  unfold decodeTwo
  dsimp only []
  rw [h0]
  simp (decide := true) only [BitVec.extractLsb'_cast, BitVec.extractLsb'_append_eq_of_le,
    BitVec.extractLsb'_append_eq_of_add_le]
  simp only [Nat.reduceSub, BitVec.extractLsb'_eq_self]
  rfl
theorem cfgswap (a : Opd) (xdis : BitVec 1) (xtg : BitVec 6) (xte : BitVec 1) : Statement (.cfgswap a xdis xtg xte) := by
  refine decode_two (x := (1#5 ++ xdis ++ xtg ++ xte ++ 0#19).cast rfl) (ok := true) rfl rfl rfl rfl ?_ rfl
  have h0 : BitVec.extractLsb' 27 5 ((1#5 ++ xdis ++ xtg ++ xte ++ 0#19).cast rfl : W32) = 1#5 := by
    simp (decide := true) only [BitVec.extractLsb'_cast, BitVec.extractLsb'_append_eq_of_le,
    BitVec.extractLsb'_append_eq_of_add_le]
  unfold decodeTwo
  dsimp only []
  rw [h0]
  simp (decide := true) only [BitVec.extractLsb'_cast, BitVec.extractLsb'_append_eq_of_le,
    BitVec.extractLsb'_append_eq_of_add_le]
  simp only [Nat.reduceSub, BitVec.extractLsb'_eq_self]
  rfl
theorem gbar (xtg : BitVec 6) (xte : BitVec 1) : Statement (.gbar xtg xte) := by
  refine decode_two (x := (2#5 ++ xtg ++ xte ++ 0#20).cast rfl) (ok := true) rfl rfl rfl rfl ?_ rfl
  have h0 : BitVec.extractLsb' 27 5 ((2#5 ++ xtg ++ xte ++ 0#20).cast rfl : W32) = 2#5 := by
    simp (decide := true) only [BitVec.extractLsb'_cast, BitVec.extractLsb'_append_eq_of_le,
    BitVec.extractLsb'_append_eq_of_add_le]
  unfold decodeTwo
  dsimp only []
  rw [h0]
  simp (decide := true) only [BitVec.extractLsb'_cast, BitVec.extractLsb'_append_eq_of_le,
    BitVec.extractLsb'_append_eq_of_add_le]
  simp only [Nat.reduceSub, BitVec.extractLsb'_eq_self]
  rfl
theorem statred (xkind : BitVec 2) (xidx : BitVec 6) (xmax : BitVec 1) (xrt : BitVec 6) : Statement (.statred xkind xidx xmax xrt) := by
  refine decode_two (x := (3#5 ++ xkind ++ xidx ++ xmax ++ xrt ++ 0#12).cast rfl) (ok := true) rfl rfl rfl rfl ?_ rfl
  have h0 : BitVec.extractLsb' 27 5 ((3#5 ++ xkind ++ xidx ++ xmax ++ xrt ++ 0#12).cast rfl : W32) = 3#5 := by
    simp (decide := true) only [BitVec.extractLsb'_cast, BitVec.extractLsb'_append_eq_of_le,
    BitVec.extractLsb'_append_eq_of_add_le]
  unfold decodeTwo
  dsimp only []
  rw [h0]
  simp (decide := true) only [BitVec.extractLsb'_cast, BitVec.extractLsb'_append_eq_of_le,
    BitVec.extractLsb'_append_eq_of_add_le]
  simp only [Nat.reduceSub, BitVec.extractLsb'_eq_self]
  rfl
theorem qstat (a : Opd) (d : Opd) (e : Opd) (t : Tag) (xsel : BitVec 3) : Statement (.qstat a d e t xsel) := by
  refine decode_two (x := (4#5 ++ xsel ++ 0#24).cast rfl) (ok := true) rfl rfl rfl rfl ?_ rfl
  have h0 : BitVec.extractLsb' 27 5 ((4#5 ++ xsel ++ 0#24).cast rfl : W32) = 4#5 := by
    simp (decide := true) only [BitVec.extractLsb'_cast, BitVec.extractLsb'_append_eq_of_le,
    BitVec.extractLsb'_append_eq_of_add_le]
  unfold decodeTwo
  dsimp only []
  rw [h0]
  simp (decide := true) only [BitVec.extractLsb'_cast, BitVec.extractLsb'_append_eq_of_le,
    BitVec.extractLsb'_append_eq_of_add_le]
  simp only [Nat.reduceSub, BitVec.extractLsb'_eq_self]
  rfl
theorem xstr (a : Opd) (xtg : BitVec 6) (xte : BitVec 1) : Statement (.xstr a xtg xte) := by
  refine decode_two (x := (0#5 ++ xtg ++ xte ++ 0#20).cast rfl) (ok := true) rfl rfl rfl rfl ?_ rfl
  have h0 : BitVec.extractLsb' 27 5 ((0#5 ++ xtg ++ xte ++ 0#20).cast rfl : W32) = 0#5 := by
    simp (decide := true) only [BitVec.extractLsb'_cast, BitVec.extractLsb'_append_eq_of_le,
    BitVec.extractLsb'_append_eq_of_add_le]
  unfold decodeTwo
  dsimp only []
  rw [h0]
  simp (decide := true) only [BitVec.extractLsb'_cast, BitVec.extractLsb'_append_eq_of_le,
    BitVec.extractLsb'_append_eq_of_add_le]
  simp only [Nat.reduceSub, BitVec.extractLsb'_eq_self]
  rfl
theorem migrate (a : Opd) (b : Opd) (xtg : BitVec 6) (xte : BitVec 1) : Statement (.migrate a b xtg xte) := by
  refine decode_two (x := (1#5 ++ xtg ++ xte ++ 0#20).cast rfl) (ok := true) rfl rfl rfl rfl ?_ rfl
  have h0 : BitVec.extractLsb' 27 5 ((1#5 ++ xtg ++ xte ++ 0#20).cast rfl : W32) = 1#5 := by
    simp (decide := true) only [BitVec.extractLsb'_cast, BitVec.extractLsb'_append_eq_of_le,
    BitVec.extractLsb'_append_eq_of_add_le]
  unfold decodeTwo
  dsimp only []
  rw [h0]
  simp (decide := true) only [BitVec.extractLsb'_cast, BitVec.extractLsb'_append_eq_of_le,
    BitVec.extractLsb'_append_eq_of_add_le]
  simp only [Nat.reduceSub, BitVec.extractLsb'_eq_self]
  rfl
theorem tlbinvPage (a : Opd) (b : Opd) (xtg : BitVec 6) (xte : BitVec 1) : Statement (.tlbinvPage a b xtg xte) := by
  refine decode_two (x := (2#5 ++ 0#2 ++ xtg ++ xte ++ 0#18).cast rfl) (ok := true) rfl rfl rfl rfl ?_ rfl
  have h0 : BitVec.extractLsb' 27 5 ((2#5 ++ 0#2 ++ xtg ++ xte ++ 0#18).cast rfl : W32) = 2#5 := by
    simp (decide := true) only [BitVec.extractLsb'_cast, BitVec.extractLsb'_append_eq_of_le,
    BitVec.extractLsb'_append_eq_of_add_le]
  have h1 : BitVec.extractLsb' 25 2 ((2#5 ++ 0#2 ++ xtg ++ xte ++ 0#18).cast rfl : W32) = 0#2 := by
    simp (decide := true) only [BitVec.extractLsb'_cast, BitVec.extractLsb'_append_eq_of_le,
    BitVec.extractLsb'_append_eq_of_add_le]
  unfold decodeTwo
  dsimp only []
  rw [h0]
  rw [h1]
  simp (decide := true) only [BitVec.extractLsb'_cast, BitVec.extractLsb'_append_eq_of_le,
    BitVec.extractLsb'_append_eq_of_add_le]
  simp only [Nat.reduceSub, BitVec.extractLsb'_eq_self]
  rfl
theorem tlbinvQueue (b : Opd) (xtg : BitVec 6) (xte : BitVec 1) : Statement (.tlbinvQueue b xtg xte) := by
  refine decode_two (x := (2#5 ++ 1#2 ++ xtg ++ xte ++ 0#18).cast rfl) (ok := true) rfl rfl rfl rfl ?_ rfl
  have h0 : BitVec.extractLsb' 27 5 ((2#5 ++ 1#2 ++ xtg ++ xte ++ 0#18).cast rfl : W32) = 2#5 := by
    simp (decide := true) only [BitVec.extractLsb'_cast, BitVec.extractLsb'_append_eq_of_le,
    BitVec.extractLsb'_append_eq_of_add_le]
  have h1 : BitVec.extractLsb' 25 2 ((2#5 ++ 1#2 ++ xtg ++ xte ++ 0#18).cast rfl : W32) = 1#2 := by
    simp (decide := true) only [BitVec.extractLsb'_cast, BitVec.extractLsb'_append_eq_of_le,
    BitVec.extractLsb'_append_eq_of_add_le]
  unfold decodeTwo
  dsimp only []
  rw [h0]
  rw [h1]
  simp (decide := true) only [BitVec.extractLsb'_cast, BitVec.extractLsb'_append_eq_of_le,
    BitVec.extractLsb'_append_eq_of_add_le]
  simp only [Nat.reduceSub, BitVec.extractLsb'_eq_self]
  rfl
theorem tlbinvAll (xtg : BitVec 6) (xte : BitVec 1) : Statement (.tlbinvAll xtg xte) := by
  refine decode_two (x := (2#5 ++ 2#2 ++ xtg ++ xte ++ 0#18).cast rfl) (ok := true) rfl rfl rfl rfl ?_ rfl
  have h0 : BitVec.extractLsb' 27 5 ((2#5 ++ 2#2 ++ xtg ++ xte ++ 0#18).cast rfl : W32) = 2#5 := by
    simp (decide := true) only [BitVec.extractLsb'_cast, BitVec.extractLsb'_append_eq_of_le,
    BitVec.extractLsb'_append_eq_of_add_le]
  have h1 : BitVec.extractLsb' 25 2 ((2#5 ++ 2#2 ++ xtg ++ xte ++ 0#18).cast rfl : W32) = 2#2 := by
    simp (decide := true) only [BitVec.extractLsb'_cast, BitVec.extractLsb'_append_eq_of_le,
    BitVec.extractLsb'_append_eq_of_add_le]
  unfold decodeTwo
  dsimp only []
  rw [h0]
  rw [h1]
  simp (decide := true) only [BitVec.extractLsb'_cast, BitVec.extractLsb'_append_eq_of_le,
    BitVec.extractLsb'_append_eq_of_add_le]
  simp only [Nat.reduceSub, BitVec.extractLsb'_eq_self]
  rfl
theorem compattrQuery (a : Opd) (b : Opd) (xtg : BitVec 6) (xte : BitVec 1) : Statement (.compattrQuery a b xtg xte) := by
  refine decode_two (x := (3#5 ++ 0#2 ++ xtg ++ xte ++ 0#18).cast rfl) (ok := true) rfl rfl rfl rfl ?_ rfl
  have h0 : BitVec.extractLsb' 27 5 ((3#5 ++ 0#2 ++ xtg ++ xte ++ 0#18).cast rfl : W32) = 3#5 := by
    simp (decide := true) only [BitVec.extractLsb'_cast, BitVec.extractLsb'_append_eq_of_le,
    BitVec.extractLsb'_append_eq_of_add_le]
  have h1 : BitVec.extractLsb' 25 2 ((3#5 ++ 0#2 ++ xtg ++ xte ++ 0#18).cast rfl : W32) = 0#2 := by
    simp (decide := true) only [BitVec.extractLsb'_cast, BitVec.extractLsb'_append_eq_of_le,
    BitVec.extractLsb'_append_eq_of_add_le]
  unfold decodeTwo
  dsimp only []
  rw [h0]
  rw [h1]
  simp (decide := true) only [BitVec.extractLsb'_cast, BitVec.extractLsb'_append_eq_of_le,
    BitVec.extractLsb'_append_eq_of_add_le]
  simp only [Nat.reduceSub, BitVec.extractLsb'_eq_self]
  rfl
theorem compattrSet (a : Opd) (b : Opd) (xtg : BitVec 6) (xte : BitVec 1) : Statement (.compattrSet a b xtg xte) := by
  refine decode_two (x := (3#5 ++ 1#2 ++ xtg ++ xte ++ 0#18).cast rfl) (ok := true) rfl rfl rfl rfl ?_ rfl
  have h0 : BitVec.extractLsb' 27 5 ((3#5 ++ 1#2 ++ xtg ++ xte ++ 0#18).cast rfl : W32) = 3#5 := by
    simp (decide := true) only [BitVec.extractLsb'_cast, BitVec.extractLsb'_append_eq_of_le,
    BitVec.extractLsb'_append_eq_of_add_le]
  have h1 : BitVec.extractLsb' 25 2 ((3#5 ++ 1#2 ++ xtg ++ xte ++ 0#18).cast rfl : W32) = 1#2 := by
    simp (decide := true) only [BitVec.extractLsb'_cast, BitVec.extractLsb'_append_eq_of_le,
    BitVec.extractLsb'_append_eq_of_add_le]
  unfold decodeTwo
  dsimp only []
  rw [h0]
  rw [h1]
  simp (decide := true) only [BitVec.extractLsb'_cast, BitVec.extractLsb'_append_eq_of_le,
    BitVec.extractLsb'_append_eq_of_add_le]
  simp only [Nat.reduceSub, BitVec.extractLsb'_eq_self]
  rfl
theorem compattrRecomp (a : Opd) (b : Opd) (xtg : BitVec 6) (xte : BitVec 1) : Statement (.compattrRecomp a b xtg xte) := by
  refine decode_two (x := (3#5 ++ 2#2 ++ xtg ++ xte ++ 0#18).cast rfl) (ok := true) rfl rfl rfl rfl ?_ rfl
  have h0 : BitVec.extractLsb' 27 5 ((3#5 ++ 2#2 ++ xtg ++ xte ++ 0#18).cast rfl : W32) = 3#5 := by
    simp (decide := true) only [BitVec.extractLsb'_cast, BitVec.extractLsb'_append_eq_of_le,
    BitVec.extractLsb'_append_eq_of_add_le]
  have h1 : BitVec.extractLsb' 25 2 ((3#5 ++ 2#2 ++ xtg ++ xte ++ 0#18).cast rfl : W32) = 2#2 := by
    simp (decide := true) only [BitVec.extractLsb'_cast, BitVec.extractLsb'_append_eq_of_le,
    BitVec.extractLsb'_append_eq_of_add_le]
  unfold decodeTwo
  dsimp only []
  rw [h0]
  rw [h1]
  simp (decide := true) only [BitVec.extractLsb'_cast, BitVec.extractLsb'_append_eq_of_le,
    BitVec.extractLsb'_append_eq_of_add_le]
  simp only [Nat.reduceSub, BitVec.extractLsb'_eq_self]
  rfl
theorem coll (a : Opd) (xk : BitVec 6) (xtg : BitVec 6) (xte : BitVec 1) : Statement (.coll a xk xtg xte) := by
  refine decode_two (x := (0#5 ++ xk ++ xtg ++ xte ++ 0#14).cast rfl) (ok := true) rfl rfl rfl rfl ?_ rfl
  have h0 : BitVec.extractLsb' 27 5 ((0#5 ++ xk ++ xtg ++ xte ++ 0#14).cast rfl : W32) = 0#5 := by
    simp (decide := true) only [BitVec.extractLsb'_cast, BitVec.extractLsb'_append_eq_of_le,
    BitVec.extractLsb'_append_eq_of_add_le]
  unfold decodeTwo
  dsimp only []
  rw [h0]
  simp (decide := true) only [BitVec.extractLsb'_cast, BitVec.extractLsb'_append_eq_of_le,
    BitVec.extractLsb'_append_eq_of_add_le]
  simp only [Nat.reduceSub, BitVec.extractLsb'_eq_self]
  rfl
theorem routesw (xtg : BitVec 6) (xte : BitVec 1) : Statement (.routesw xtg xte) := by
  refine decode_two (x := (1#5 ++ xtg ++ xte ++ 0#20).cast rfl) (ok := true) rfl rfl rfl rfl ?_ rfl
  have h0 : BitVec.extractLsb' 27 5 ((1#5 ++ xtg ++ xte ++ 0#20).cast rfl : W32) = 1#5 := by
    simp (decide := true) only [BitVec.extractLsb'_cast, BitVec.extractLsb'_append_eq_of_le,
    BitVec.extractLsb'_append_eq_of_add_le]
  unfold decodeTwo
  dsimp only []
  rw [h0]
  simp (decide := true) only [BitVec.extractLsb'_cast, BitVec.extractLsb'_append_eq_of_le,
    BitVec.extractLsb'_append_eq_of_add_le]
  simp only [Nat.reduceSub, BitVec.extractLsb'_eq_self]
  rfl
theorem fportQuiesce (a : Opd) (b : Opd) (xtg : BitVec 6) (xte : BitVec 1) : Statement (.fportQuiesce a b xtg xte) := by
  refine decode_two (x := (2#5 ++ 0#2 ++ xtg ++ xte ++ 0#18).cast rfl) (ok := true) rfl rfl rfl rfl ?_ rfl
  have h0 : BitVec.extractLsb' 27 5 ((2#5 ++ 0#2 ++ xtg ++ xte ++ 0#18).cast rfl : W32) = 2#5 := by
    simp (decide := true) only [BitVec.extractLsb'_cast, BitVec.extractLsb'_append_eq_of_le,
    BitVec.extractLsb'_append_eq_of_add_le]
  have h1 : BitVec.extractLsb' 25 2 ((2#5 ++ 0#2 ++ xtg ++ xte ++ 0#18).cast rfl : W32) = 0#2 := by
    simp (decide := true) only [BitVec.extractLsb'_cast, BitVec.extractLsb'_append_eq_of_le,
    BitVec.extractLsb'_append_eq_of_add_le]
  unfold decodeTwo
  dsimp only []
  rw [h0]
  rw [h1]
  simp (decide := true) only [BitVec.extractLsb'_cast, BitVec.extractLsb'_append_eq_of_le,
    BitVec.extractLsb'_append_eq_of_add_le]
  simp only [Nat.reduceSub, BitVec.extractLsb'_eq_self]
  rfl
theorem fportTrain (a : Opd) (b : Opd) (xtg : BitVec 6) (xte : BitVec 1) : Statement (.fportTrain a b xtg xte) := by
  refine decode_two (x := (2#5 ++ 1#2 ++ xtg ++ xte ++ 0#18).cast rfl) (ok := true) rfl rfl rfl rfl ?_ rfl
  have h0 : BitVec.extractLsb' 27 5 ((2#5 ++ 1#2 ++ xtg ++ xte ++ 0#18).cast rfl : W32) = 2#5 := by
    simp (decide := true) only [BitVec.extractLsb'_cast, BitVec.extractLsb'_append_eq_of_le,
    BitVec.extractLsb'_append_eq_of_add_le]
  have h1 : BitVec.extractLsb' 25 2 ((2#5 ++ 1#2 ++ xtg ++ xte ++ 0#18).cast rfl : W32) = 1#2 := by
    simp (decide := true) only [BitVec.extractLsb'_cast, BitVec.extractLsb'_append_eq_of_le,
    BitVec.extractLsb'_append_eq_of_add_le]
  unfold decodeTwo
  dsimp only []
  rw [h0]
  rw [h1]
  simp (decide := true) only [BitVec.extractLsb'_cast, BitVec.extractLsb'_append_eq_of_le,
    BitVec.extractLsb'_append_eq_of_add_le]
  simp only [Nat.reduceSub, BitVec.extractLsb'_eq_self]
  rfl
theorem fportCycle (a : Opd) (b : Opd) (xtg : BitVec 6) (xte : BitVec 1) : Statement (.fportCycle a b xtg xte) := by
  refine decode_two (x := (2#5 ++ 2#2 ++ xtg ++ xte ++ 0#18).cast rfl) (ok := true) rfl rfl rfl rfl ?_ rfl
  have h0 : BitVec.extractLsb' 27 5 ((2#5 ++ 2#2 ++ xtg ++ xte ++ 0#18).cast rfl : W32) = 2#5 := by
    simp (decide := true) only [BitVec.extractLsb'_cast, BitVec.extractLsb'_append_eq_of_le,
    BitVec.extractLsb'_append_eq_of_add_le]
  have h1 : BitVec.extractLsb' 25 2 ((2#5 ++ 2#2 ++ xtg ++ xte ++ 0#18).cast rfl : W32) = 2#2 := by
    simp (decide := true) only [BitVec.extractLsb'_cast, BitVec.extractLsb'_append_eq_of_le,
    BitVec.extractLsb'_append_eq_of_add_le]
  unfold decodeTwo
  dsimp only []
  rw [h0]
  rw [h1]
  simp (decide := true) only [BitVec.extractLsb'_cast, BitVec.extractLsb'_append_eq_of_le,
    BitVec.extractLsb'_append_eq_of_add_le]
  simp only [Nat.reduceSub, BitVec.extractLsb'_eq_self]
  rfl
theorem fstat (a : Opd) (d : Opd) (e : Opd) (t : Tag) (xsel : BitVec 3) : Statement (.fstat a d e t xsel) := by
  refine decode_two (x := (3#5 ++ xsel ++ 0#24).cast rfl) (ok := true) rfl rfl rfl rfl ?_ rfl
  have h0 : BitVec.extractLsb' 27 5 ((3#5 ++ xsel ++ 0#24).cast rfl : W32) = 3#5 := by
    simp (decide := true) only [BitVec.extractLsb'_cast, BitVec.extractLsb'_append_eq_of_le,
    BitVec.extractLsb'_append_eq_of_add_le]
  unfold decodeTwo
  dsimp only []
  rw [h0]
  simp (decide := true) only [BitVec.extractLsb'_cast, BitVec.extractLsb'_append_eq_of_le,
    BitVec.extractLsb'_append_eq_of_add_le]
  simp only [Nat.reduceSub, BitVec.extractLsb'_eq_self]
  rfl
theorem round : Statement .round := fun h => nomatch h
theorem tretMessageArrival : Statement .tretMessageArrival := fun h => nomatch h
theorem tokenArrival : Statement .tokenArrival := fun h => nomatch h
theorem tokenSpill : Statement .tokenSpill := fun h => nomatch h
theorem creditReturn : Statement .creditReturn := fun h => nomatch h
theorem replyArrival : Statement .replyArrival := fun h => nomatch h
theorem remoteAccessServe : Statement .remoteAccessServe := fun h => nomatch h
theorem amoPerform : Statement .amoPerform := fun h => nomatch h
theorem publishFlip : Statement .publishFlip := fun h => nomatch h
theorem failedRequest : Statement .failedRequest := fun h => nomatch h
theorem streamFetch : Statement .streamFetch := fun h => nomatch h
theorem streamWrite : Statement .streamWrite := fun h => nomatch h
theorem streamDrainTag : Statement .streamDrainTag := fun h => nomatch h
theorem copyUnit : Statement .copyUnit := fun h => nomatch h
theorem copyComplete : Statement .copyComplete := fun h => nomatch h
theorem bucketLeak : Statement .bucketLeak := fun h => nomatch h
theorem basinGrant : Statement .basinGrant := fun h => nomatch h
theorem basinCommandComplete : Statement .basinCommandComplete := fun h => nomatch h
theorem accrdRowDelivery : Statement .accrdRowDelivery := fun h => nomatch h
theorem epilogueRowDelivery : Statement .epilogueRowDelivery := fun h => nomatch h
theorem slotPinClear : Statement .slotPinClear := fun h => nomatch h
theorem flitHop : Statement .flitHop := fun h => nomatch h
theorem deliveryAck : Statement .deliveryAck := fun h => nomatch h
theorem routeClassSwitch : Statement .routeClassSwitch := fun h => nomatch h
theorem coreMapRebind : Statement .coreMapRebind := fun h => nomatch h
theorem confluenceCombine : Statement .confluenceCombine := fun h => nomatch h
theorem barrierArrivalLeave : Statement .barrierArrivalLeave := fun h => nomatch h
theorem barrierArrival : Statement .barrierArrival := fun h => nomatch h
theorem barrierCompletionArrival : Statement .barrierCompletionArrival := fun h => nomatch h
theorem bartTimeout : Statement .bartTimeout := fun h => nomatch h
theorem pairHalfArrival : Statement .pairHalfArrival := fun h => nomatch h
theorem pairDeadline : Statement .pairDeadline := fun h => nomatch h
theorem pairTimeoutMessage : Statement .pairTimeoutMessage := fun h => nomatch h
theorem pairAbortMessage : Statement .pairAbortMessage := fun h => nomatch h
theorem trapRecordDelivery : Statement .trapRecordDelivery := fun h => nomatch h
theorem recordResend : Statement .recordResend := fun h => nomatch h
theorem retentionEntry : Statement .retentionEntry := fun h => nomatch h
theorem retentionExitStart : Statement .retentionExitStart := fun h => nomatch h
theorem retentionExitEnd : Statement .retentionExitEnd := fun h => nomatch h
theorem vfRequestApply : Statement .vfRequestApply := fun h => nomatch h
theorem vfClockResume : Statement .vfClockResume := fun h => nomatch h
theorem weirHalve : Statement .weirHalve := fun h => nomatch h
theorem weirDouble : Statement .weirDouble := fun h => nomatch h
theorem timeRecalibration : Statement .timeRecalibration := fun h => nomatch h
theorem reservoirAccess : Statement .reservoirAccess := fun h => nomatch h
theorem cacheReplacement : Statement .cacheReplacement := fun h => nomatch h
theorem rsvldLine : Statement .rsvldLine := fun h => nomatch h
theorem rsvldComplete : Statement .rsvldComplete := fun h => nomatch h
theorem rsvcfgPartApply : Statement .rsvcfgPartApply := fun h => nomatch h
theorem rsvcfgDropComplete : Statement .rsvcfgDropComplete := fun h => nomatch h
theorem pfetchComplete : Statement .pfetchComplete := fun h => nomatch h
theorem cascadeBlockLaunch : Statement .cascadeBlockLaunch := fun h => nomatch h
theorem branchReceive : Statement .branchReceive := fun h => nomatch h
theorem retransmitRequest : Statement .retransmitRequest := fun h => nomatch h
theorem branchForward : Statement .branchForward := fun h => nomatch h
theorem memberSlotFill : Statement .memberSlotFill := fun h => nomatch h
theorem memberReemit : Statement .memberReemit := fun h => nomatch h
theorem blockAck : Statement .blockAck := fun h => nomatch h
theorem voteArrival : Statement .voteArrival := fun h => nomatch h
theorem laserLit : Statement .laserLit := fun h => nomatch h
theorem laserDark : Statement .laserDark := fun h => nomatch h
theorem groupEntryWriteApply : Statement .groupEntryWriteApply := fun h => nomatch h
theorem queueKick : Statement .queueKick := fun h => nomatch h
theorem queueEnable : Statement .queueEnable := fun h => nomatch h
theorem queueOff : Statement .queueOff := fun h => nomatch h
theorem packetFetch : Statement .packetFetch := fun h => nomatch h
theorem packetRefetch : Statement .packetRefetch := fun h => nomatch h
theorem packetDispatch : Statement .packetDispatch := fun h => nomatch h
theorem ageRise : Statement .ageRise := fun h => nomatch h
theorem packetCompletion : Statement .packetCompletion := fun h => nomatch h
theorem launch : Statement .launch := fun h => nomatch h
theorem launchSwapAtQuiescence : Statement .launchSwapAtQuiescence := fun h => nomatch h
theorem launchSwapAtCfgswap : Statement .launchSwapAtCfgswap := fun h => nomatch h
theorem shadowLoadEnd : Statement .shadowLoadEnd := fun h => nomatch h
theorem copy : Statement .copy := fun h => nomatch h
theorem wait : Statement .wait := fun h => nomatch h
theorem waitPoll : Statement .waitPoll := fun h => nomatch h
theorem signal : Statement .signal := fun h => nomatch h
theorem groupload : Statement .groupload := fun h => nomatch h
theorem reservoirLoad : Statement .reservoirLoad := fun h => nomatch h
theorem fabricReconf : Statement .fabricReconf := fun h => nomatch h
theorem portCmdQuiesce : Statement .portCmdQuiesce := fun h => nomatch h
theorem portCmdTrain : Statement .portCmdTrain := fun h => nomatch h
theorem portCmdCycle : Statement .portCmdCycle := fun h => nomatch h
theorem destroy : Statement .destroy := fun h => nomatch h
theorem destroyForce : Statement .destroyForce := fun h => nomatch h
theorem record : Statement .record := fun h => nomatch h
theorem pwrSetCap : Statement .pwrSetCap := fun h => nomatch h
theorem pwrSetFloor : Statement .pwrSetFloor := fun h => nomatch h
theorem placement : Statement .placement := fun h => nomatch h
theorem preemptDeadline : Statement .preemptDeadline := fun h => nomatch h
theorem stillSweep : Statement .stillSweep := fun h => nomatch h
theorem sweepResult : Statement .sweepResult := fun h => nomatch h
theorem gangStop : Statement .gangStop := fun h => nomatch h
theorem gangStopScanOut : Statement .gangStopScanOut := fun h => nomatch h
theorem gangResume : Statement .gangResume := fun h => nomatch h
theorem gbarCompletion : Statement .gbarCompletion := fun h => nomatch h
theorem pkgRetireGo : Statement .pkgRetireGo := fun h => nomatch h
theorem rollback : Statement .rollback := fun h => nomatch h
theorem comparatorMismatch : Statement .comparatorMismatch := fun h => nomatch h
theorem comparatorTimeout : Statement .comparatorTimeout := fun h => nomatch h
theorem translationWalk : Statement .translationWalk := fun h => nomatch h
theorem pageRequestResponse : Statement .pageRequestResponse := fun h => nomatch h
theorem pfDeadline : Statement .pfDeadline := fun h => nomatch h
theorem tlbinvComplete : Statement .tlbinvComplete := fun h => nomatch h
theorem migrationFork : Statement .migrationFork := fun h => nomatch h
theorem migrationCopyLine : Statement .migrationCopyLine := fun h => nomatch h
theorem migrationSwitch : Statement .migrationSwitch := fun h => nomatch h
theorem migrationRelease : Statement .migrationRelease := fun h => nomatch h
theorem hbmWrite : Statement .hbmWrite := fun h => nomatch h
theorem hbmRead : Statement .hbmRead := fun h => nomatch h
theorem xstrElement : Statement .xstrElement := fun h => nomatch h
theorem xstrComplete : Statement .xstrComplete := fun h => nomatch h
theorem eventWrite : Statement .eventWrite := fun h => nomatch h
theorem pkgEvreplyWrite : Statement .pkgEvreplyWrite := fun h => nomatch h
theorem watchdogDead : Statement .watchdogDead := fun h => nomatch h
theorem watchdogSlow : Statement .watchdogSlow := fun h => nomatch h
theorem powerManagerUpdate : Statement .powerManagerUpdate := fun h => nomatch h
theorem startup : Statement .startup := fun h => nomatch h
theorem hostLinkDown : Statement .hostLinkDown := fun h => nomatch h
theorem hostLinkUp : Statement .hostLinkUp := fun h => nomatch h
theorem attestReport : Statement .attestReport := fun h => nomatch h
theorem recoveryFirmware : Statement .recoveryFirmware := fun h => nomatch h
theorem dieVfrWrite : Statement .dieVfrWrite := fun h => nomatch h
theorem cluRouteSwitchRequest : Statement .cluRouteSwitchRequest := fun h => nomatch h
theorem fabRouteSwitchRequest : Statement .fabRouteSwitchRequest := fun h => nomatch h
theorem registerWrite : Statement .registerWrite := fun h => nomatch h
theorem fabricFlitTransmit : Statement .fabricFlitTransmit := fun h => nomatch h
theorem fabricFlitReceive : Statement .fabricFlitReceive := fun h => nomatch h
theorem replayTimeout : Statement .replayTimeout := fun h => nomatch h
theorem laneLock : Statement .laneLock := fun h => nomatch h
theorem trainTimeout : Statement .trainTimeout := fun h => nomatch h
theorem identityArrival : Statement .identityArrival := fun h => nomatch h
theorem verifyTimeout : Statement .verifyTimeout := fun h => nomatch h
theorem lossOfLock : Statement .lossOfLock := fun h => nomatch h
theorem drainDeadline : Statement .drainDeadline := fun h => nomatch h
theorem darkTimeExpiry : Statement .darkTimeExpiry := fun h => nomatch h
theorem transitForward : Statement .transitForward := fun h => nomatch h
theorem fdataDelivery : Statement .fdataDelivery := fun h => nomatch h
theorem fctlArrival : Statement .fctlArrival := fun h => nomatch h
theorem flowSwitch : Statement .flowSwitch := fun h => nomatch h
theorem collStepStart : Statement .collStepStart := fun h => nomatch h
theorem collStepComplete : Statement .collStepComplete := fun h => nomatch h
theorem fenceReleaseTraffic : Statement .fenceReleaseTraffic := fun h => nomatch h
theorem cgwakeArrival : Statement .cgwakeArrival := fun h => nomatch h
theorem secondTierAccess : Statement .secondTierAccess := fun h => nomatch h

end Laws.Encoding
end Sys2Proof
end

