-- ==== Sys2Proof/Laws/State.lean ====
section
/-! SUPPORT. The small laws of the state: what each update of one level leaves of every field, tables and vectors read after a
write. -/
namespace Sys2Proof.Machine

/-! ## Tables and vectors -/

@[simp] theorem tget_tput_same {α : Type} (m : SMap α) (d : α) (k : Nat) (v : α) : tget (tput m k v) d k = v := by
  induction m with
  | nil => simp [tput, tget]
  | cons e r ih =>
    obtain ⟨i, x⟩ := e
    simp only [tput]
    split
    · simp [tget]
    · split
      · simp [tget]
      · simp_all [tget]
theorem tget_tput_other {α : Type} (m : SMap α) (d : α) (k j : Nat) (v : α) (h : k ≠ j) :
    tget (tput m k v) d j = tget m d j := by
  induction m with
  | nil => simp [tput, tget, h]
  | cons e r ih =>
    obtain ⟨i, x⟩ := e
    simp only [tput]
    split
    · next hk => simp only [beq_iff_eq] at hk; simp [tget, h, hk]
    · split
      · simp [tget, h]
      · simp only [tget, ih]
theorem vget_eq {α : Type} {n : Nat} (v : Vector α n) (i : Nat) (d : α) (h : i < n) : vget v i d = v[i] := by
  simp [vget, List.getD, h]
@[simp] theorem vget_vset_same {α : Type} {n : Nat} (v : Vector α n) (i : Nat) (x d : α) (h : i < n) :
    vget (vset v i x) i d = x := by
  rw [vget_eq _ _ _ h]; simp [vset]
theorem vget_vset_other {α : Type} {n : Nat} (v : Vector α n) (i j : Nat) (x d : α) (h : i ≠ j) :
    vget (vset v i x) j d = vget v j d := by
  by_cases hj : j < n
  · rw [vget_eq _ _ _ hj, vget_eq _ _ _ hj]; simp [vset, h]
  · simp [vget, List.getD, hj]

/-! ## setCore -/

@[simp] theorem setCore_now (s : State) (k : Nat) (c : Core) : (setCore s k c).now = s.now := rfl
@[simp] theorem setCore_fresh (s : State) (k : Nat) (c : Core) : (setCore s k c).fresh = s.fresh := rfl
@[simp] theorem setCore_nextId (s : State) (k : Nat) (c : Core) : (setCore s k c).nextId = s.nextId := rfl
@[simp] theorem setCore_ev (s : State) (k : Nat) (c : Core) : (setCore s k c).ev = s.ev := rfl
@[simp] theorem setCore_inputs (s : State) (k : Nat) (c : Core) : (setCore s k c).inputs = s.inputs := rfl
@[simp] theorem setCore_agenda (s : State) (k : Nat) (c : Core) : (setCore s k c).agenda = s.agenda := rfl
@[simp] theorem setCore_stage (s : State) (k : Nat) (c : Core) : (setCore s k c).stage = s.stage := rfl
@[simp] theorem setCore_cluster (s : State) (k : Nat) (c : Core) : (setCore s k c).cluster = s.cluster := rfl
@[simp] theorem setCore_die (s : State) (k : Nat) (c : Core) : (setCore s k c).die = s.die := rfl
@[simp] theorem setCore_group (s : State) (k : Nat) (c : Core) : (setCore s k c).group = s.group := rfl
@[simp] theorem setCore_queue (s : State) (k : Nat) (c : Core) : (setCore s k c).queue = s.queue := rfl
@[simp] theorem setCore_region (s : State) (k : Nat) (c : Core) : (setCore s k c).region = s.region := rfl
@[simp] theorem setCore_flits (s : State) (k : Nat) (c : Core) : (setCore s k c).flits = s.flits := rfl
@[simp] theorem setCore_msgs (s : State) (k : Nat) (c : Core) : (setCore s k c).msgs = s.msgs := rfl
@[simp] theorem setCore_xops (s : State) (k : Nat) (c : Core) : (setCore s k c).xops = s.xops := rfl
@[simp] theorem setCore_hbm (s : State) (k : Nat) (c : Core) : (setCore s k c).hbm = s.hbm := rfl
@[simp] theorem setCore_hbmMeta (s : State) (k : Nat) (c : Core) : (setCore s k c).hbmMeta = s.hbmMeta := rfl
@[simp] theorem setCore_hbmPoison (s : State) (k : Nat) (c : Core) : (setCore s k c).hbmPoison = s.hbmPoison := rfl
@[simp] theorem setCore_hbmCorr (s : State) (k : Nat) (c : Core) : (setCore s k c).hbmCorr = s.hbmCorr := rfl
@[simp] theorem setCore_tier2 (s : State) (k : Nat) (c : Core) : (setCore s k c).tier2 = s.tier2 := rfl
@[simp] theorem setCore_tier2Poison (s : State) (k : Nat) (c : Core) : (setCore s k c).tier2Poison = s.tier2Poison := rfl
@[simp] theorem setCore_host (s : State) (k : Nat) (c : Core) : (setCore s k c).host = s.host := rfl
@[simp] theorem setCore_pkg (s : State) (k : Nat) (c : Core) : (setCore s k c).pkg = s.pkg := rfl
@[simp] theorem setCore_fab (s : State) (k : Nat) (c : Core) : (setCore s k c).fab = s.fab := rfl
@[simp] theorem setCore_core (s : State) (k : Nat) (c : Core) : (setCore s k c).core = tput s.core k c := rfl

/-! ## setCluster -/

@[simp] theorem setCluster_now (s : State) (k : Nat) (c : Cluster) : (setCluster s k c).now = s.now := rfl
@[simp] theorem setCluster_fresh (s : State) (k : Nat) (c : Cluster) : (setCluster s k c).fresh = s.fresh := rfl
@[simp] theorem setCluster_nextId (s : State) (k : Nat) (c : Cluster) : (setCluster s k c).nextId = s.nextId := rfl
@[simp] theorem setCluster_ev (s : State) (k : Nat) (c : Cluster) : (setCluster s k c).ev = s.ev := rfl
@[simp] theorem setCluster_inputs (s : State) (k : Nat) (c : Cluster) : (setCluster s k c).inputs = s.inputs := rfl
@[simp] theorem setCluster_agenda (s : State) (k : Nat) (c : Cluster) : (setCluster s k c).agenda = s.agenda := rfl
@[simp] theorem setCluster_stage (s : State) (k : Nat) (c : Cluster) : (setCluster s k c).stage = s.stage := rfl
@[simp] theorem setCluster_core (s : State) (k : Nat) (c : Cluster) : (setCluster s k c).core = s.core := rfl
@[simp] theorem setCluster_die (s : State) (k : Nat) (c : Cluster) : (setCluster s k c).die = s.die := rfl
@[simp] theorem setCluster_group (s : State) (k : Nat) (c : Cluster) : (setCluster s k c).group = s.group := rfl
@[simp] theorem setCluster_queue (s : State) (k : Nat) (c : Cluster) : (setCluster s k c).queue = s.queue := rfl
@[simp] theorem setCluster_region (s : State) (k : Nat) (c : Cluster) : (setCluster s k c).region = s.region := rfl
@[simp] theorem setCluster_flits (s : State) (k : Nat) (c : Cluster) : (setCluster s k c).flits = s.flits := rfl
@[simp] theorem setCluster_msgs (s : State) (k : Nat) (c : Cluster) : (setCluster s k c).msgs = s.msgs := rfl
@[simp] theorem setCluster_xops (s : State) (k : Nat) (c : Cluster) : (setCluster s k c).xops = s.xops := rfl
@[simp] theorem setCluster_hbm (s : State) (k : Nat) (c : Cluster) : (setCluster s k c).hbm = s.hbm := rfl
@[simp] theorem setCluster_hbmMeta (s : State) (k : Nat) (c : Cluster) : (setCluster s k c).hbmMeta = s.hbmMeta := rfl
@[simp] theorem setCluster_hbmPoison (s : State) (k : Nat) (c : Cluster) : (setCluster s k c).hbmPoison = s.hbmPoison := rfl
@[simp] theorem setCluster_hbmCorr (s : State) (k : Nat) (c : Cluster) : (setCluster s k c).hbmCorr = s.hbmCorr := rfl
@[simp] theorem setCluster_tier2 (s : State) (k : Nat) (c : Cluster) : (setCluster s k c).tier2 = s.tier2 := rfl
@[simp] theorem setCluster_tier2Poison (s : State) (k : Nat) (c : Cluster) : (setCluster s k c).tier2Poison = s.tier2Poison := rfl
@[simp] theorem setCluster_host (s : State) (k : Nat) (c : Cluster) : (setCluster s k c).host = s.host := rfl
@[simp] theorem setCluster_pkg (s : State) (k : Nat) (c : Cluster) : (setCluster s k c).pkg = s.pkg := rfl
@[simp] theorem setCluster_fab (s : State) (k : Nat) (c : Cluster) : (setCluster s k c).fab = s.fab := rfl
@[simp] theorem setCluster_cluster (s : State) (k : Nat) (c : Cluster) : (setCluster s k c).cluster = tput s.cluster k c := rfl

/-! ## setDie -/

@[simp] theorem setDie_now (s : State) (k : Nat) (d : Die) : (setDie s k d).now = s.now := rfl
@[simp] theorem setDie_fresh (s : State) (k : Nat) (d : Die) : (setDie s k d).fresh = s.fresh := rfl
@[simp] theorem setDie_nextId (s : State) (k : Nat) (d : Die) : (setDie s k d).nextId = s.nextId := rfl
@[simp] theorem setDie_ev (s : State) (k : Nat) (d : Die) : (setDie s k d).ev = s.ev := rfl
@[simp] theorem setDie_inputs (s : State) (k : Nat) (d : Die) : (setDie s k d).inputs = s.inputs := rfl
@[simp] theorem setDie_agenda (s : State) (k : Nat) (d : Die) : (setDie s k d).agenda = s.agenda := rfl
@[simp] theorem setDie_stage (s : State) (k : Nat) (d : Die) : (setDie s k d).stage = s.stage := rfl
@[simp] theorem setDie_core (s : State) (k : Nat) (d : Die) : (setDie s k d).core = s.core := rfl
@[simp] theorem setDie_cluster (s : State) (k : Nat) (d : Die) : (setDie s k d).cluster = s.cluster := rfl
@[simp] theorem setDie_group (s : State) (k : Nat) (d : Die) : (setDie s k d).group = s.group := rfl
@[simp] theorem setDie_queue (s : State) (k : Nat) (d : Die) : (setDie s k d).queue = s.queue := rfl
@[simp] theorem setDie_region (s : State) (k : Nat) (d : Die) : (setDie s k d).region = s.region := rfl
@[simp] theorem setDie_flits (s : State) (k : Nat) (d : Die) : (setDie s k d).flits = s.flits := rfl
@[simp] theorem setDie_msgs (s : State) (k : Nat) (d : Die) : (setDie s k d).msgs = s.msgs := rfl
@[simp] theorem setDie_xops (s : State) (k : Nat) (d : Die) : (setDie s k d).xops = s.xops := rfl
@[simp] theorem setDie_hbm (s : State) (k : Nat) (d : Die) : (setDie s k d).hbm = s.hbm := rfl
@[simp] theorem setDie_hbmMeta (s : State) (k : Nat) (d : Die) : (setDie s k d).hbmMeta = s.hbmMeta := rfl
@[simp] theorem setDie_hbmPoison (s : State) (k : Nat) (d : Die) : (setDie s k d).hbmPoison = s.hbmPoison := rfl
@[simp] theorem setDie_hbmCorr (s : State) (k : Nat) (d : Die) : (setDie s k d).hbmCorr = s.hbmCorr := rfl
@[simp] theorem setDie_tier2 (s : State) (k : Nat) (d : Die) : (setDie s k d).tier2 = s.tier2 := rfl
@[simp] theorem setDie_tier2Poison (s : State) (k : Nat) (d : Die) : (setDie s k d).tier2Poison = s.tier2Poison := rfl
@[simp] theorem setDie_host (s : State) (k : Nat) (d : Die) : (setDie s k d).host = s.host := rfl
@[simp] theorem setDie_pkg (s : State) (k : Nat) (d : Die) : (setDie s k d).pkg = s.pkg := rfl
@[simp] theorem setDie_fab (s : State) (k : Nat) (d : Die) : (setDie s k d).fab = s.fab := rfl
@[simp] theorem setDie_die (s : State) (k : Nat) (d : Die) : (setDie s k d).die = tput s.die k d := rfl

/-! ## setGroup -/

@[simp] theorem setGroup_now (s : State) (k : Nat) (g : Group) : (setGroup s k g).now = s.now := rfl
@[simp] theorem setGroup_fresh (s : State) (k : Nat) (g : Group) : (setGroup s k g).fresh = s.fresh := rfl
@[simp] theorem setGroup_nextId (s : State) (k : Nat) (g : Group) : (setGroup s k g).nextId = s.nextId := rfl
@[simp] theorem setGroup_ev (s : State) (k : Nat) (g : Group) : (setGroup s k g).ev = s.ev := rfl
@[simp] theorem setGroup_inputs (s : State) (k : Nat) (g : Group) : (setGroup s k g).inputs = s.inputs := rfl
@[simp] theorem setGroup_agenda (s : State) (k : Nat) (g : Group) : (setGroup s k g).agenda = s.agenda := rfl
@[simp] theorem setGroup_stage (s : State) (k : Nat) (g : Group) : (setGroup s k g).stage = s.stage := rfl
@[simp] theorem setGroup_core (s : State) (k : Nat) (g : Group) : (setGroup s k g).core = s.core := rfl
@[simp] theorem setGroup_cluster (s : State) (k : Nat) (g : Group) : (setGroup s k g).cluster = s.cluster := rfl
@[simp] theorem setGroup_die (s : State) (k : Nat) (g : Group) : (setGroup s k g).die = s.die := rfl
@[simp] theorem setGroup_queue (s : State) (k : Nat) (g : Group) : (setGroup s k g).queue = s.queue := rfl
@[simp] theorem setGroup_region (s : State) (k : Nat) (g : Group) : (setGroup s k g).region = s.region := rfl
@[simp] theorem setGroup_flits (s : State) (k : Nat) (g : Group) : (setGroup s k g).flits = s.flits := rfl
@[simp] theorem setGroup_msgs (s : State) (k : Nat) (g : Group) : (setGroup s k g).msgs = s.msgs := rfl
@[simp] theorem setGroup_xops (s : State) (k : Nat) (g : Group) : (setGroup s k g).xops = s.xops := rfl
@[simp] theorem setGroup_hbm (s : State) (k : Nat) (g : Group) : (setGroup s k g).hbm = s.hbm := rfl
@[simp] theorem setGroup_hbmMeta (s : State) (k : Nat) (g : Group) : (setGroup s k g).hbmMeta = s.hbmMeta := rfl
@[simp] theorem setGroup_hbmPoison (s : State) (k : Nat) (g : Group) : (setGroup s k g).hbmPoison = s.hbmPoison := rfl
@[simp] theorem setGroup_hbmCorr (s : State) (k : Nat) (g : Group) : (setGroup s k g).hbmCorr = s.hbmCorr := rfl
@[simp] theorem setGroup_tier2 (s : State) (k : Nat) (g : Group) : (setGroup s k g).tier2 = s.tier2 := rfl
@[simp] theorem setGroup_tier2Poison (s : State) (k : Nat) (g : Group) : (setGroup s k g).tier2Poison = s.tier2Poison := rfl
@[simp] theorem setGroup_host (s : State) (k : Nat) (g : Group) : (setGroup s k g).host = s.host := rfl
@[simp] theorem setGroup_pkg (s : State) (k : Nat) (g : Group) : (setGroup s k g).pkg = s.pkg := rfl
@[simp] theorem setGroup_fab (s : State) (k : Nat) (g : Group) : (setGroup s k g).fab = s.fab := rfl
@[simp] theorem setGroup_group (s : State) (k : Nat) (g : Group) : (setGroup s k g).group = tput s.group k g := rfl

/-! ## setQueue -/

@[simp] theorem setQueue_now (s : State) (k : Nat) (q : Queue) : (setQueue s k q).now = s.now := rfl
@[simp] theorem setQueue_fresh (s : State) (k : Nat) (q : Queue) : (setQueue s k q).fresh = s.fresh := rfl
@[simp] theorem setQueue_nextId (s : State) (k : Nat) (q : Queue) : (setQueue s k q).nextId = s.nextId := rfl
@[simp] theorem setQueue_ev (s : State) (k : Nat) (q : Queue) : (setQueue s k q).ev = s.ev := rfl
@[simp] theorem setQueue_inputs (s : State) (k : Nat) (q : Queue) : (setQueue s k q).inputs = s.inputs := rfl
@[simp] theorem setQueue_agenda (s : State) (k : Nat) (q : Queue) : (setQueue s k q).agenda = s.agenda := rfl
@[simp] theorem setQueue_stage (s : State) (k : Nat) (q : Queue) : (setQueue s k q).stage = s.stage := rfl
@[simp] theorem setQueue_core (s : State) (k : Nat) (q : Queue) : (setQueue s k q).core = s.core := rfl
@[simp] theorem setQueue_cluster (s : State) (k : Nat) (q : Queue) : (setQueue s k q).cluster = s.cluster := rfl
@[simp] theorem setQueue_die (s : State) (k : Nat) (q : Queue) : (setQueue s k q).die = s.die := rfl
@[simp] theorem setQueue_group (s : State) (k : Nat) (q : Queue) : (setQueue s k q).group = s.group := rfl
@[simp] theorem setQueue_region (s : State) (k : Nat) (q : Queue) : (setQueue s k q).region = s.region := rfl
@[simp] theorem setQueue_flits (s : State) (k : Nat) (q : Queue) : (setQueue s k q).flits = s.flits := rfl
@[simp] theorem setQueue_msgs (s : State) (k : Nat) (q : Queue) : (setQueue s k q).msgs = s.msgs := rfl
@[simp] theorem setQueue_xops (s : State) (k : Nat) (q : Queue) : (setQueue s k q).xops = s.xops := rfl
@[simp] theorem setQueue_hbm (s : State) (k : Nat) (q : Queue) : (setQueue s k q).hbm = s.hbm := rfl
@[simp] theorem setQueue_hbmMeta (s : State) (k : Nat) (q : Queue) : (setQueue s k q).hbmMeta = s.hbmMeta := rfl
@[simp] theorem setQueue_hbmPoison (s : State) (k : Nat) (q : Queue) : (setQueue s k q).hbmPoison = s.hbmPoison := rfl
@[simp] theorem setQueue_hbmCorr (s : State) (k : Nat) (q : Queue) : (setQueue s k q).hbmCorr = s.hbmCorr := rfl
@[simp] theorem setQueue_tier2 (s : State) (k : Nat) (q : Queue) : (setQueue s k q).tier2 = s.tier2 := rfl
@[simp] theorem setQueue_tier2Poison (s : State) (k : Nat) (q : Queue) : (setQueue s k q).tier2Poison = s.tier2Poison := rfl
@[simp] theorem setQueue_host (s : State) (k : Nat) (q : Queue) : (setQueue s k q).host = s.host := rfl
@[simp] theorem setQueue_pkg (s : State) (k : Nat) (q : Queue) : (setQueue s k q).pkg = s.pkg := rfl
@[simp] theorem setQueue_fab (s : State) (k : Nat) (q : Queue) : (setQueue s k q).fab = s.fab := rfl
@[simp] theorem setQueue_queue (s : State) (k : Nat) (q : Queue) : (setQueue s k q).queue = tput s.queue k q := rfl

/-! ## setRegion -/

@[simp] theorem setRegion_now (s : State) (k : Nat) (r : Region) : (setRegion s k r).now = s.now := rfl
@[simp] theorem setRegion_fresh (s : State) (k : Nat) (r : Region) : (setRegion s k r).fresh = s.fresh := rfl
@[simp] theorem setRegion_nextId (s : State) (k : Nat) (r : Region) : (setRegion s k r).nextId = s.nextId := rfl
@[simp] theorem setRegion_ev (s : State) (k : Nat) (r : Region) : (setRegion s k r).ev = s.ev := rfl
@[simp] theorem setRegion_inputs (s : State) (k : Nat) (r : Region) : (setRegion s k r).inputs = s.inputs := rfl
@[simp] theorem setRegion_agenda (s : State) (k : Nat) (r : Region) : (setRegion s k r).agenda = s.agenda := rfl
@[simp] theorem setRegion_stage (s : State) (k : Nat) (r : Region) : (setRegion s k r).stage = s.stage := rfl
@[simp] theorem setRegion_core (s : State) (k : Nat) (r : Region) : (setRegion s k r).core = s.core := rfl
@[simp] theorem setRegion_cluster (s : State) (k : Nat) (r : Region) : (setRegion s k r).cluster = s.cluster := rfl
@[simp] theorem setRegion_die (s : State) (k : Nat) (r : Region) : (setRegion s k r).die = s.die := rfl
@[simp] theorem setRegion_group (s : State) (k : Nat) (r : Region) : (setRegion s k r).group = s.group := rfl
@[simp] theorem setRegion_queue (s : State) (k : Nat) (r : Region) : (setRegion s k r).queue = s.queue := rfl
@[simp] theorem setRegion_flits (s : State) (k : Nat) (r : Region) : (setRegion s k r).flits = s.flits := rfl
@[simp] theorem setRegion_msgs (s : State) (k : Nat) (r : Region) : (setRegion s k r).msgs = s.msgs := rfl
@[simp] theorem setRegion_xops (s : State) (k : Nat) (r : Region) : (setRegion s k r).xops = s.xops := rfl
@[simp] theorem setRegion_hbm (s : State) (k : Nat) (r : Region) : (setRegion s k r).hbm = s.hbm := rfl
@[simp] theorem setRegion_hbmMeta (s : State) (k : Nat) (r : Region) : (setRegion s k r).hbmMeta = s.hbmMeta := rfl
@[simp] theorem setRegion_hbmPoison (s : State) (k : Nat) (r : Region) : (setRegion s k r).hbmPoison = s.hbmPoison := rfl
@[simp] theorem setRegion_hbmCorr (s : State) (k : Nat) (r : Region) : (setRegion s k r).hbmCorr = s.hbmCorr := rfl
@[simp] theorem setRegion_tier2 (s : State) (k : Nat) (r : Region) : (setRegion s k r).tier2 = s.tier2 := rfl
@[simp] theorem setRegion_tier2Poison (s : State) (k : Nat) (r : Region) : (setRegion s k r).tier2Poison = s.tier2Poison := rfl
@[simp] theorem setRegion_host (s : State) (k : Nat) (r : Region) : (setRegion s k r).host = s.host := rfl
@[simp] theorem setRegion_pkg (s : State) (k : Nat) (r : Region) : (setRegion s k r).pkg = s.pkg := rfl
@[simp] theorem setRegion_fab (s : State) (k : Nat) (r : Region) : (setRegion s k r).fab = s.fab := rfl
@[simp] theorem setRegion_region (s : State) (k : Nat) (r : Region) : (setRegion s k r).region = tput s.region k r := rfl

/-! ## setPort -/

@[simp] theorem setPort_now (s : State) (p : Nat) (x : Port) : (setPort s p x).now = s.now := rfl
@[simp] theorem setPort_fresh (s : State) (p : Nat) (x : Port) : (setPort s p x).fresh = s.fresh := rfl
@[simp] theorem setPort_nextId (s : State) (p : Nat) (x : Port) : (setPort s p x).nextId = s.nextId := rfl
@[simp] theorem setPort_ev (s : State) (p : Nat) (x : Port) : (setPort s p x).ev = s.ev := rfl
@[simp] theorem setPort_inputs (s : State) (p : Nat) (x : Port) : (setPort s p x).inputs = s.inputs := rfl
@[simp] theorem setPort_agenda (s : State) (p : Nat) (x : Port) : (setPort s p x).agenda = s.agenda := rfl
@[simp] theorem setPort_stage (s : State) (p : Nat) (x : Port) : (setPort s p x).stage = s.stage := rfl
@[simp] theorem setPort_core (s : State) (p : Nat) (x : Port) : (setPort s p x).core = s.core := rfl
@[simp] theorem setPort_cluster (s : State) (p : Nat) (x : Port) : (setPort s p x).cluster = s.cluster := rfl
@[simp] theorem setPort_die (s : State) (p : Nat) (x : Port) : (setPort s p x).die = s.die := rfl
@[simp] theorem setPort_group (s : State) (p : Nat) (x : Port) : (setPort s p x).group = s.group := rfl
@[simp] theorem setPort_queue (s : State) (p : Nat) (x : Port) : (setPort s p x).queue = s.queue := rfl
@[simp] theorem setPort_region (s : State) (p : Nat) (x : Port) : (setPort s p x).region = s.region := rfl
@[simp] theorem setPort_flits (s : State) (p : Nat) (x : Port) : (setPort s p x).flits = s.flits := rfl
@[simp] theorem setPort_msgs (s : State) (p : Nat) (x : Port) : (setPort s p x).msgs = s.msgs := rfl
@[simp] theorem setPort_xops (s : State) (p : Nat) (x : Port) : (setPort s p x).xops = s.xops := rfl
@[simp] theorem setPort_hbm (s : State) (p : Nat) (x : Port) : (setPort s p x).hbm = s.hbm := rfl
@[simp] theorem setPort_hbmMeta (s : State) (p : Nat) (x : Port) : (setPort s p x).hbmMeta = s.hbmMeta := rfl
@[simp] theorem setPort_hbmPoison (s : State) (p : Nat) (x : Port) : (setPort s p x).hbmPoison = s.hbmPoison := rfl
@[simp] theorem setPort_hbmCorr (s : State) (p : Nat) (x : Port) : (setPort s p x).hbmCorr = s.hbmCorr := rfl
@[simp] theorem setPort_tier2 (s : State) (p : Nat) (x : Port) : (setPort s p x).tier2 = s.tier2 := rfl
@[simp] theorem setPort_tier2Poison (s : State) (p : Nat) (x : Port) : (setPort s p x).tier2Poison = s.tier2Poison := rfl
@[simp] theorem setPort_host (s : State) (p : Nat) (x : Port) : (setPort s p x).host = s.host := rfl
@[simp] theorem setPort_pkg (s : State) (p : Nat) (x : Port) : (setPort s p x).pkg = s.pkg := rfl

/-! ## Reading a level after writing it -/

@[simp] theorem coreOf_setCore_same (s : State) (k : Nat) (c : Core) : coreOf (setCore s k c) k = c := tget_tput_same ..
theorem coreOf_setCore_other (s : State) (k j : Nat) (c : Core) (h : k ≠ j) : coreOf (setCore s k c) j = coreOf s j :=
  tget_tput_other _ _ _ _ _ h
@[simp] theorem clusterOf_setCluster_same (s : State) (k : Nat) (c : Cluster) : clusterOf (setCluster s k c) k = c :=
  tget_tput_same ..
theorem clusterOf_setCluster_other (s : State) (k j : Nat) (c : Cluster) (h : k ≠ j) :
    clusterOf (setCluster s k c) j = clusterOf s j := tget_tput_other _ _ _ _ _ h
@[simp] theorem dieOf_setDie_same (s : State) (k : Nat) (d : Die) : dieOf (setDie s k d) k = d := tget_tput_same ..
theorem dieOf_setDie_other (s : State) (k j : Nat) (d : Die) (h : k ≠ j) : dieOf (setDie s k d) j = dieOf s j :=
  tget_tput_other _ _ _ _ _ h
@[simp] theorem groupOf_setGroup_same (s : State) (k : Nat) (g : Group) : groupOf (setGroup s k g) k = g :=
  tget_tput_same ..
@[simp] theorem queueOf_setQueue_same (s : State) (k : Nat) (q : Queue) : queueOf (setQueue s k q) k = q :=
  tget_tput_same ..
@[simp] theorem regionOf_setRegion_same (s : State) (k : Nat) (r : Region) : regionOf (setRegion s k r) k = r :=
  tget_tput_same ..
@[simp] theorem portOf_setPort_same (s : State) (p : Nat) (x : Port) : portOf (setPort s p x) p = x := tget_tput_same ..
@[simp] theorem ctxOf_setCtx_same (s : State) (k c : Nat) (x : Ctx) (h : c < 4) : ctxOf (setCtx s k c x) k c = x := by
  simp [ctxOf, setCtx, h]
theorem ctxOf_setCtx_other (s : State) (k c d : Nat) (x : Ctx) (h : c ≠ d) : ctxOf (setCtx s k c x) k d = ctxOf s k d := by
  simp [ctxOf, setCtx, vget_vset_other _ _ _ _ _ h]
theorem coreOf_setCtx_other (s : State) (k j c : Nat) (x : Ctx) (h : k ≠ j) : coreOf (setCtx s k c x) j = coreOf s j :=
  coreOf_setCore_other _ _ _ _ h

/-! ## Steps of a body -/

@[simp] theorem bodyWent_now (s : State) (w : Work) : (bodyWent s w).now = s.now := rfl
@[simp] theorem bodyWent_fresh (s : State) (w : Work) : (bodyWent s w).fresh = s.fresh := rfl
@[simp] theorem bodyWent_nextId (s : State) (w : Work) : (bodyWent s w).nextId = s.nextId := rfl
@[simp] theorem bodyWent_ev (s : State) (w : Work) : (bodyWent s w).ev = s.ev := rfl
@[simp] theorem bodyWent_inputs (s : State) (w : Work) : (bodyWent s w).inputs = s.inputs := rfl
@[simp] theorem bodyWent_agenda (s : State) (w : Work) : (bodyWent s w).agenda = s.agenda := rfl
@[simp] theorem bodyWent_core (s : State) (w : Work) : (bodyWent s w).core = s.core := rfl
@[simp] theorem bodyWent_cluster (s : State) (w : Work) : (bodyWent s w).cluster = s.cluster := rfl
@[simp] theorem bodyWent_die (s : State) (w : Work) : (bodyWent s w).die = s.die := rfl
@[simp] theorem bodyWent_group (s : State) (w : Work) : (bodyWent s w).group = s.group := rfl
@[simp] theorem bodyWent_queue (s : State) (w : Work) : (bodyWent s w).queue = s.queue := rfl
@[simp] theorem bodyWent_region (s : State) (w : Work) : (bodyWent s w).region = s.region := rfl
@[simp] theorem bodyWent_flits (s : State) (w : Work) : (bodyWent s w).flits = s.flits := rfl
@[simp] theorem bodyWent_msgs (s : State) (w : Work) : (bodyWent s w).msgs = s.msgs := rfl
@[simp] theorem bodyWent_xops (s : State) (w : Work) : (bodyWent s w).xops = s.xops := rfl
@[simp] theorem bodyWent_hbm (s : State) (w : Work) : (bodyWent s w).hbm = s.hbm := rfl
@[simp] theorem bodyWent_hbmMeta (s : State) (w : Work) : (bodyWent s w).hbmMeta = s.hbmMeta := rfl
@[simp] theorem bodyWent_hbmPoison (s : State) (w : Work) : (bodyWent s w).hbmPoison = s.hbmPoison := rfl
@[simp] theorem bodyWent_hbmCorr (s : State) (w : Work) : (bodyWent s w).hbmCorr = s.hbmCorr := rfl
@[simp] theorem bodyWent_tier2 (s : State) (w : Work) : (bodyWent s w).tier2 = s.tier2 := rfl
@[simp] theorem bodyWent_tier2Poison (s : State) (w : Work) : (bodyWent s w).tier2Poison = s.tier2Poison := rfl
@[simp] theorem bodyWent_host (s : State) (w : Work) : (bodyWent s w).host = s.host := rfl
@[simp] theorem bodyWent_pkg (s : State) (w : Work) : (bodyWent s w).pkg = s.pkg := rfl
@[simp] theorem bodyWent_fab (s : State) (w : Work) : (bodyWent s w).fab = s.fab := rfl
@[simp] theorem bodyAborted_now (s : State) (w : Work) (a : Abort) : (bodyAborted s w a).now = s.now := rfl
@[simp] theorem bodyAborted_fresh (s : State) (w : Work) (a : Abort) : (bodyAborted s w a).fresh = s.fresh := rfl
@[simp] theorem bodyAborted_nextId (s : State) (w : Work) (a : Abort) : (bodyAborted s w a).nextId = s.nextId := rfl
@[simp] theorem bodyAborted_ev (s : State) (w : Work) (a : Abort) : (bodyAborted s w a).ev = s.ev := rfl
@[simp] theorem bodyAborted_inputs (s : State) (w : Work) (a : Abort) : (bodyAborted s w a).inputs = s.inputs := rfl
@[simp] theorem bodyAborted_agenda (s : State) (w : Work) (a : Abort) : (bodyAborted s w a).agenda = s.agenda := rfl
@[simp] theorem bodyAborted_core (s : State) (w : Work) (a : Abort) : (bodyAborted s w a).core = s.core := rfl
@[simp] theorem bodyAborted_cluster (s : State) (w : Work) (a : Abort) : (bodyAborted s w a).cluster = s.cluster := rfl
@[simp] theorem bodyAborted_die (s : State) (w : Work) (a : Abort) : (bodyAborted s w a).die = s.die := rfl
@[simp] theorem bodyAborted_group (s : State) (w : Work) (a : Abort) : (bodyAborted s w a).group = s.group := rfl
@[simp] theorem bodyAborted_queue (s : State) (w : Work) (a : Abort) : (bodyAborted s w a).queue = s.queue := rfl
@[simp] theorem bodyAborted_region (s : State) (w : Work) (a : Abort) : (bodyAborted s w a).region = s.region := rfl
@[simp] theorem bodyAborted_flits (s : State) (w : Work) (a : Abort) : (bodyAborted s w a).flits = s.flits := rfl
@[simp] theorem bodyAborted_msgs (s : State) (w : Work) (a : Abort) : (bodyAborted s w a).msgs = s.msgs := rfl
@[simp] theorem bodyAborted_xops (s : State) (w : Work) (a : Abort) : (bodyAborted s w a).xops = s.xops := rfl
@[simp] theorem bodyAborted_hbm (s : State) (w : Work) (a : Abort) : (bodyAborted s w a).hbm = s.hbm := rfl
@[simp] theorem bodyAborted_hbmMeta (s : State) (w : Work) (a : Abort) : (bodyAborted s w a).hbmMeta = s.hbmMeta := rfl
@[simp] theorem bodyAborted_hbmPoison (s : State) (w : Work) (a : Abort) : (bodyAborted s w a).hbmPoison = s.hbmPoison := rfl
@[simp] theorem bodyAborted_hbmCorr (s : State) (w : Work) (a : Abort) : (bodyAborted s w a).hbmCorr = s.hbmCorr := rfl
@[simp] theorem bodyAborted_tier2 (s : State) (w : Work) (a : Abort) : (bodyAborted s w a).tier2 = s.tier2 := rfl
@[simp] theorem bodyAborted_tier2Poison (s : State) (w : Work) (a : Abort) : (bodyAborted s w a).tier2Poison = s.tier2Poison := rfl
@[simp] theorem bodyAborted_host (s : State) (w : Work) (a : Abort) : (bodyAborted s w a).host = s.host := rfl
@[simp] theorem bodyAborted_pkg (s : State) (w : Work) (a : Abort) : (bodyAborted s w a).pkg = s.pkg := rfl
@[simp] theorem bodyAborted_fab (s : State) (w : Work) (a : Abort) : (bodyAborted s w a).fab = s.fab := rfl
@[simp] theorem bodyWent_stage (s : State) (w : Work) : (bodyWent s w).stage = { s.stage with work := w } := rfl
@[simp] theorem bodyAborted_stage (s : State) (w : Work) (a : Abort) : (bodyAborted s w a).stage =
    { s.stage with running := false, finished := s.stage.finished ++ [⟨w, some a⟩] } := rfl
@[simp] theorem Work.advance_pc (w : Work) (n c : Nat) : (w.advance n c).pc = w.pc + n := rfl
@[simp] theorem Work.advance_cyc (w : Work) (n c : Nat) : (w.advance n c).cyc = w.cyc + c := rfl
@[simp] theorem Work.advance_rule (w : Work) (n c : Nat) : (w.advance n c).rule = w.rule := rfl
@[simp] theorem Work.advance_hdrA (w : Work) (n c : Nat) : (w.advance n c).hdrA = w.hdrA := rfl
@[simp] theorem Work.advance_hdrB (w : Work) (n c : Nat) : (w.advance n c).hdrB = w.hdrB := rfl
@[simp] theorem Work.advance_s (w : Work) (n c : Nat) : (w.advance n c).s = w.s := rfl
@[simp] theorem Work.advance_sD (w : Work) (n c : Nat) : (w.advance n c).sD = w.sD := rfl
@[simp] theorem Work.advance_v (w : Work) (n c : Nat) : (w.advance n c).v = w.v := rfl
@[simp] theorem Work.advance_vD (w : Work) (n c : Nat) : (w.advance n c).vD = w.vD := rfl
@[simp] theorem Work.advance_lm (w : Work) (n c : Nat) : (w.advance n c).lm = w.lm := rfl
@[simp] theorem Work.advance_lmD (w : Work) (n c : Nat) : (w.advance n c).lmD = w.lmD := rfl
@[simp] theorem Work.advance_bb (w : Work) (n c : Nat) : (w.advance n c).bb = w.bb := rfl
@[simp] theorem Work.advance_bbD (w : Work) (n c : Nat) : (w.advance n c).bbD = w.bbD := rfl
@[simp] theorem Work.advance_bw (w : Work) (n c : Nat) : (w.advance n c).bw = w.bw := rfl
@[simp] theorem Work.advance_bwD (w : Work) (n c : Nat) : (w.advance n c).bwD = w.bwD := rfl
@[simp] theorem Work.advance_tm (w : Work) (n c : Nat) : (w.advance n c).tm = w.tm := rfl
@[simp] theorem Work.advance_tmD (w : Work) (n c : Nat) : (w.advance n c).tmD = w.tmD := rfl
@[simp] theorem Work.advance_tb (w : Work) (n c : Nat) : (w.advance n c).tb = w.tb := rfl
@[simp] theorem Work.advance_en (w : Work) (n c : Nat) : (w.advance n c).en = w.en := rfl
@[simp] theorem Work.advance_flags (w : Work) (n c : Nat) : (w.advance n c).flags = w.flags := rfl
@[simp] theorem Work.advance_pops (w : Work) (n c : Nat) : (w.advance n c).pops = w.pops := rfl
@[simp] theorem Work.advance_checked (w : Work) (n c : Nat) : (w.advance n c).checked = w.checked := rfl
@[simp] theorem Work.advance_adv (w : Work) (n c : Nat) : (w.advance n c).adv = w.adv := rfl
@[simp] theorem Work.advance_wr (w : Work) (n c : Nat) : (w.advance n c).wr = w.wr := rfl
@[simp] theorem Work.advance_push (w : Work) (n c : Nat) : (w.advance n c).push = w.push := rfl
@[simp] theorem Work.advance_lits (w : Work) (n c : Nat) : (w.advance n c).lits = w.lits := rfl
@[simp] theorem Work.advance_entries (w : Work) (n c : Nat) : (w.advance n c).entries = w.entries := rfl
@[simp] theorem Work.advance_basins (w : Work) (n c : Nat) : (w.advance n c).basins = w.basins := rfl
@[simp] theorem Work.advance_corr (w : Work) (n c : Nat) : (w.advance n c).corr = w.corr := rfl
@[simp] theorem Work.advance_bytes (w : Work) (n c : Nat) : (w.advance n c).bytes = w.bytes := rfl
@[simp] theorem Work.advance_effects (w : Work) (n c : Nat) : (w.advance n c).effects = w.effects := rfl
@[simp] theorem Work.advance_raised (w : Work) (n c : Nat) : (w.advance n c).raised = w.raised := rfl
@[simp] theorem Work.advance_inj (w : Work) (n c : Nat) : (w.advance n c).inj = w.inj := rfl
@[simp] theorem Work.advance_opc (w : Work) (n c : Nat) : (w.advance n c).opc = w.opc := rfl

end Sys2Proof.Machine
end

