-- ==== Sys2Proof/Laws/Vector.lean ====
section
/-! SUPPORT. The laws of the vector pipe's shapes: what each does from operands that read and a result that is written. -/
namespace Sys2Proof.Machine

theorem checkedLanes_disarmed {s : State} {w : Work} (h : bits w.inj 7 0 = 0) (part : Nat → Bool) (q : Nat → Nat) :
    checkedLanes s part q w = .ok () w := by
  unfold checkedLanes
  rw [Body.bind_ok (Body.get_run _)]
  split
  · exact checked_disarmed h ..
  · rfl
/-- The working copy after an instruction's flags. -/
def flagged (w : Work) (f : Flags) : Work :=
  if f == 0 then w else { w with flags := w.flags ||| f, raised := w.raised ++ [f], effects := w.effects ++ [.raise f] }
theorem raiseFlags_run (f : Flags) (w : Work) : raiseFlags f w = .ok () (flagged w f) := by
  unfold raiseFlags flagged
  split <;> rfl
theorem vecMasked_next {s : State} {opc : BitVec 8} {cost : Nat} {rtype : BitVec 3} {a b d e : Opd} {t : Tag}
    {f : W32 → W32 → W32 → LaneOut 32} {x y : V512} {sa sb : Sideband} {w1 w2 w3 : Work}
    (hi : bits s.stage.work.inj 7 0 = 0) (hv : bitAt s.stage.work.hdrA 57 = true)
    (h1 : readV s a (keepIn t) { s.stage.work with opc := opc } = .ok (x, sa) w1)
    (h2 : readV s b (keepIn t) w1 = .ok (y, sb) w2)
    (h3 : resultV s d e ⟨t, rtype, sa, sb⟩
        (maskedLanes w2 d (bitAt w2.lm) (fun i => (f (lane x i) (lane y i) (lane (vget w2.v d.toNat 0) i)).val))
        (flagged w2 (laneFlags (bitAt w2.lm) (fun i => (f (lane x i) (lane y i) (lane (vget w2.v d.toNat 0) i)).fl))) =
      .ok () w3) :
    vecMasked s opc cost rtype a b d e t f = .next (bodyWent s (w3.advance 1 cost)) := by
  have i1 : bits w1.inj 7 0 = 0 := by rw [readV_inj _ _ _ _ _ _ h1]; exact hi
  have i2 : bits w2.inj 7 0 = 0 := by rw [readV_inj _ _ _ _ _ _ h2]; exact i1
  refine runBody_ok (u := .vector) hv ?_
  rw [Body.bind_ok h1]
  dsimp only
  rw [Body.bind_ok h2]
  dsimp only
  rw [Body.bind_ok (Body.get_run _)]
  rw [Body.bind_ok (checkedLanes_disarmed i2 ..), Body.bind_ok (raiseFlags_run ..)]
  exact h3
theorem vecMasked64_next {s : State} {opc : BitVec 8} {cost : Nat} {a b d e : Opd} {t : Tag}
    {f : W64 → W64 → W64 → LaneOut 64} {x y : V512} {sa sb : Sideband} {w1 w2 w3 : Work}
    (hi : bits s.stage.work.inj 7 0 = 0) (hv : bitAt s.stage.work.hdrA 57 = true)
    (h1 : readV s a (keepIn t) { s.stage.work with opc := opc } = .ok (x, sa) w1)
    (h2 : readV s b (keepIn t) w1 = .ok (y, sb) w2)
    (h3 : (let r := fun j => f (elem64 x j) (elem64 y j) (elem64 (vget w2.v d.toNat 0) j)
        let part := fun i => bitAt w2.lm (i / 2 * 2)
        resultV s d e ⟨t, 1, sa, sb⟩ (maskedLanes w2 d part (fun i => (r (i / 2)).val.extractLsb' (32 * (i % 2)) 32))
          (flagged w2 (laneFlags (fun i => i % 2 == 0 && part i) (fun i => (r (i / 2)).fl)))) = .ok () w3) :
    vecMasked64 s opc cost a b d e t f = .next (bodyWent s (w3.advance 1 cost)) := by
  have i1 : bits w1.inj 7 0 = 0 := by rw [readV_inj _ _ _ _ _ _ h1]; exact hi
  have i2 : bits w2.inj 7 0 = 0 := by rw [readV_inj _ _ _ _ _ _ h2]; exact i1
  refine runBody_ok (u := .vector) hv ?_
  rw [Body.bind_ok h1]
  dsimp only
  rw [Body.bind_ok h2]
  dsimp only
  rw [Body.bind_ok (Body.get_run _)]
  rw [Body.bind_ok (checkedLanes_disarmed i2 ..), Body.bind_ok (raiseFlags_run ..)]
  exact h3
theorem vecWhole_next {s : State} {opc : BitVec 8} {a b d e : Opd} {t : Tag} {f : V512 → V512 → Nat → W32} {x y : V512}
    {sa sb : Sideband} {w1 w2 w3 : Work} (hi : bits s.stage.work.inj 7 0 = 0) (hv : bitAt s.stage.work.hdrA 57 = true)
    (h1 : readV s a (keepIn t) { s.stage.work with opc := opc } = .ok (x, sa) w1)
    (h2 : readV s b (keepIn t) w1 = .ok (y, sb) w2)
    (h3 : resultV s d e ⟨t, 0, sa, sb⟩ (ofLanes (f x y)) w2 = .ok () w3) :
    vecWhole s opc a b d e t f = .next (bodyWent s (w3.advance 1 1)) := by
  have i1 : bits w1.inj 7 0 = 0 := by rw [readV_inj _ _ _ _ _ _ h1]; exact hi
  have i2 : bits w2.inj 7 0 = 0 := by rw [readV_inj _ _ _ _ _ _ h2]; exact i1
  refine runBody_ok (u := .vector) hv ?_
  rw [Body.bind_ok h1]
  dsimp only
  rw [Body.bind_ok h2]
  dsimp only
  rw [Body.bind_ok (checkedLanes_disarmed i2 ..)]
  exact h3
theorem vecCompare_next {s : State} {opc : BitVec 8} {rtype : BitVec 3} {a b d e : Opd} {t : Tag}
    {f : W32 → W32 → Bool × Flags} {x y : V512} {sa sb : Sideband} {w1 w2 w3 w4 : Work}
    (hi : bits s.stage.work.inj 7 0 = 0) (hv : bitAt s.stage.work.hdrA 57 = true)
    (h1 : readV s a (keepIn t) { s.stage.work with opc := opc } = .ok (x, sa) w1)
    (h2 : readV s b (keepIn t) w1 = .ok (y, sb) w2)
    (h3 : stageLm (maskBits (fun i => (f (lane x i) (lane y i)).1))
        (flagged w2 (laneFlags allLanes (fun i => (f (lane x i) (lane y i)).2))) = .ok () w3)
    (h4 : resultV s d e ⟨t, rtype, sa, sb⟩ (maskLanes (fun i => (f (lane x i) (lane y i)).1)) w3 = .ok () w4) :
    vecCompare s opc rtype a b d e t f = .next (bodyWent s (w4.advance 1 1)) := by
  have i1 : bits w1.inj 7 0 = 0 := by rw [readV_inj _ _ _ _ _ _ h1]; exact hi
  have i2 : bits w2.inj 7 0 = 0 := by rw [readV_inj _ _ _ _ _ _ h2]; exact i1
  refine runBody_ok (u := .vector) hv ?_
  rw [Body.bind_ok h1]
  dsimp only
  rw [Body.bind_ok h2]
  dsimp only
  rw [Body.bind_ok (checkedLanes_disarmed i2 ..), Body.bind_ok (raiseFlags_run ..), Body.bind_ok h3]
  exact h4
theorem vecReduce_next {s : State} {opc : BitVec 8} {rtype : BitVec 3} {a d e : Opd} {t : Tag} {f : V512 → W64 × Flags × Nat}
    {x : V512} {sa : Sideband} {w1 w2 : Work} (hi : bits s.stage.work.inj 7 0 = 0)
    (hv : bitAt s.stage.work.hdrA 57 = true)
    (h1 : readV s a (keepIn t) { s.stage.work with opc := opc } = .ok (x, sa) w1)
    (h2 : resultSV s d e ⟨t, rtype, sa, 0⟩ (f x).1 (flagged w1 (f x).2.1) = .ok () w2) :
    vecReduce s opc rtype a d e t f = .next (bodyWent s (w2.advance 1 2)) := by
  have i1 : bits w1.inj 7 0 = 0 := by rw [readV_inj _ _ _ _ _ _ h1]; exact hi
  refine runBody_ok (u := .vector) hv ?_
  rw [Body.bind_ok h1]
  dsimp only
  rw [Body.bind_ok (checkedLanes_disarmed i1 ..), Body.bind_ok (raiseFlags_run ..)]
  exact h2

end Sys2Proof.Machine
end

