-- ==== Sys2Proof/Tests/Slice0.lean ====
section
/-! SUPPORT. Tests of the model: the operand checks, words written out from the spec's encodings, one step of instructions on
small states with results taken from the spec's rules, and for every obligation with hypotheses a state that meets them. -/
namespace Sys2Proof.Tests
open Sys2Proof Sys2Proof.Machine Sys2Proof.Claims
set_option Elab.async false

/-! ## Small states -/

/-- The instruction that a request or command comes from: rule 0, word 0. -/
def og : Origin := ⟨0, 0, 0⟩
/-- The state that a step answers. -/
def after (o : Host.Outcome State Fault Refusal) : State := match o with | .next t => t | _ => State.reset
/-- A privileged resident context of core (0, 0), slot 0, whose memory class 0 is all data memory. -/
def ctx0 : Ctx := { Ctx.reset with resident := true, priv := true, mcls := vset Ctx.reset.mcls 0 0x802FF800 }
/-- Core (0, 0) with a change of its slot 0. -/
def core0 (f : Ctx → Ctx) : Core := { Core.reset 0 with ctx := vset (Core.reset 0).ctx 0 (f ctx0) }
/-- A part of one listed core, nothing due. -/
def base (c : Core) : State := { State.reset with agenda := [], core := [(0, c)], pkg := { Pkg.reset with mapAt := some 0 } }
/-- Rule 0 of slot 0 in flight, under a header with the vector and basin hints, its working copy changed. -/
def body (g : Ctx → Ctx) (f : Work → Work) : State :=
  let w := f (startWork (g ctx0) 0 probeHeaderA probeHeaderB 0)
  { base (core0 g) with stage := { Stage.reset with active := true, taken := [0], running := true, work := w } }
/-- The working copy after a step. -/
def wk (i : Instr) (s : State) : Work := (after (exec i s)).stage.work
/-- Scalar register n after a step. -/
def sreg (i : Instr) (n : Nat) (s : State) : W64 := vget (wk i s).s n 0
/-- Vector register n after a step. -/
def vreg (i : Instr) (n : Nat) (s : State) : V512 := vget (wk i s).v n 0
/-- The abort that a step ends its body with. -/
def abortOf (i : Instr) (s : State) : Option (BitVec 8 × W64) :=
  ((after (exec i s)).stage.finished.filterMap (fun f => f.abort)).head?.map (fun a => (a.code, a.info))
/-- s1 and s2 set. -/
def st2 (x y : W64) : State := body id fun w => { w with s := vset (vset w.s 1 x) 2 y }
/-- v1 and v2 set. -/
def sv2 (x y : V512) : State := body id fun w => { w with v := vset (vset w.v 1 x) 2 y }
/-- Nothing set. -/
def st0 : State := body id id

/-! ## Computations of a body -/

/-- The computation ends without an abort. -/
def ran {α : Type} (m : Body α) (w : Work) : Bool := match m w with | .ok _ _ => true | .error _ _ => false
/-- The value that it ends with. -/
def got {α : Type} (d : α) (m : Body α) (w : Work) : α := match m w with | .ok x _ => x | .error _ _ => d
/-- The working copy that it ends with. -/
def left {α : Type} (m : Body α) (w : Work) : Work := match m w with | .ok _ v => v | .error _ v => v
theorem gives_of_ran {α : Type} (d : α) {m : Body α} {w : Work} (h : ran m w = true) : Gives m w (got d m w) (left m w) := by
  unfold ran at h
  unfold Gives got left
  cases hm : m w with
  | ok x v => rfl
  | error a v => rw [hm] at h; cases h
theorem gives_same {m : Body Unit} {w : Work} (h : ran m w = true) (h' : left m w = w) : Gives m w () w := by
  have := gives_of_ran () h
  rwa [h'] at this

/-! ## Well-formed instructions and their words -/

/-- One term for each check of WellFormed, which the check refuses. -/
theorem test_ill_formed :
    [Instr.mov 21 1 31 0, .vmov 29 1 31 0, .mov 1 20 31 0, .mov 1 2 2 0, .bfi 1 2 24 31 0, .sel 1 2 3 16 0,
     .tmask 1 2 3 8 0, .strctlUnbind 1 0, .mma 23 1 0 0 0 0 0 0 0 0 0 0, .mma 1 24 0 0 0 0 0 0 0 0 0 0, .mov 1 2 31 13,
     .sext 1 2 0, .zext 1 2 65, .bfx 1 2 0x0FFF, .bfx 1 2 0, .vmset 0x12, .fence 0, .fence 0x0D,
     .vcvt 1 2 0x4A, .vpack 1 2 0x52, .vunpk 1 2 0x90].map Instr.wf = List.replicate 21 false := by
  decide +kernel
/-- The same checks at the last value that they let through. -/
theorem test_well_formed :
    [Instr.mov 30 1 31 12, .vmov 23 1 31 0, .mov 1 27 31 0, .mov 1 31 31 0, .bfi 1 2 15 31 0, .sel 1 2 3 31 0,
     .tmask 1 2 3 29 0, .strctlUnbind 24 0, .mma 27 1 0 0 0 0 0 0 0 0 0 0, .mma 1 23 0 0 0 0 0 0 0 0 0 0,
     .sext 1 2 64, .bfx 1 2 0x1000, .vmset 0x22, .fence 0x0C, .vcvt 1 2 0x90, .vpack 1 2 0x98, .vunpk 1 2 0xD0].map Instr.wf =
      List.replicate 17 true := by
  decide +kernel

/-- Words of the spec's encodings, bit by bit: one or more of each family (01_encoding, R16 to R20, R35 to R41). -/
theorem test_decode_plain :
    [[0x040CC3F0], [0x05213FFD], [0x3110C9F0], [0x4514C310], [0x80105520], [0x8AC7C3F0], [0xA5FF0BF0], [0xA9FFC005],
     [0xA7FFFFF0], [0xA3FFC002]].map (fun w => match decode w with | .ok (i, []) => some i | _ => none) =
    [some (.add 1 19 1 31 0), some (.addi 4 4 0x3FFD), some (.reladr 2 3 4 31 0), some (.vaddF32 2 19 1 17 0),
     some (.cvt 2 1 0xA9), some (.bshuf 24 1 31 0), some (.rulemask 31 28 5 31 0), some (.tset 5), some (.ctxend 0),
     some (.ruleon 2)] := by decide +kernel
theorem test_decode_extended :
    [[0xC017C3F0, 0x80000040], [0xCB08ABF0, 0x0C280100], [0xC70FEBF0, 0xC3800100], [0xCC27F1F0, 0x24000000],
     [0xE025BFF0, 0x1B401FC0], [0xF0FFFFF0, 0x01130000], [0xF117C3F0, 0], [0xF1192BF0, 0x20F50000], [0xF210EBF0, 0x0048D4E0],
     [0xF3FFEBF0, 0x0C000000], [0xF3FFFFF0, 0x10700000], [0xF40FEBF0, 0x00700000], [0xF527EBF0, 0x00A64000],
     [0xF3FFFFF0, 0x01400000], [0xF3FFCDF0, 0x21000000]].map (fun w => match decode w with | .ok (i, []) => some i | _ => none) =
    [some (.ld 2 1 31 0 2 0x40), some (.amoAdd 1 2 0 3 2 1 0x100), some (.rld 1 0 3 3 0x100), some (.stream 4 24 0 0 2 1),
     some (.mma 4 22 0 0 3 3 0x100 7 15 0 0 0), some (.bar 2 9 1), some (.bandrd 2 1 31 0), some (.rsvld 3 4 0 7 1 5),
     some (.cgsend 2 3 9 6 1 1 0 3 1), some (.cfgswap 31 1 0 0), some (.gbar 3 1), some (.xstr 1 3 1), some (.coll 4 5 12 1),
     some (.eos 2 1), some (.qstat 31 6 31 0 1)] := by decide +kernel
/-- Refused words: an opcode that the table does not have, a tag action that is reserved, an extended word without its second
(01_encoding, R35, R41). -/
theorem test_decode_refused :
    [[0x3F000000], [0x040CC3FD], [0xC017C3F0]].all (fun w => match decode w with | .ok _ => false | .error _ => true) = true := by
  decide +kernel

/-! ## Scalar and address instructions (04_core_compute, R117 to R123) -/

theorem test_scalar_arithmetic :
    [sreg (.add 1 2 3 31 0) 3 (st2 (-1) 2), sreg (.sub 1 2 3 31 0) 3 (st2 3 5), sreg (.mul 1 2 3 31 0) 3 (st2 (2 ^ 33) (2 ^ 32)),
     sreg (.mulh 1 2 3 31 0) 3 (st2 (-1) 2), sreg (.mulhu 1 2 3 31 0) 3 (st2 (-1) 2), sreg (.and 1 2 3 31 0) 3 (st2 12 10),
     sreg (.or 1 2 3 31 0) 3 (st2 12 10), sreg (.xor 1 2 3 31 0) 3 (st2 12 10)] = [1, -2, 0, -1, 1, 8, 14, 6] := by decide +kernel
theorem test_scalar_shifts :
    [sreg (.shl 1 2 3 31 0) 3 (st2 3 65), sreg (.shr 1 2 3 31 0) 3 (st2 (-1) 60), sreg (.sar 1 2 3 31 0) 3 (st2 (-8) 1),
     sreg (.rol 1 2 3 31 0) 3 (st2 (2 ^ 63) 1), sreg (.shli 1 3 63) 3 (st2 3 0), sreg (.shri 1 3 1) 3 (st2 (-1) 0),
     sreg (.sari 1 3 63) 3 (st2 (-8) 0)] = [6, 15, -4, 1, 2 ^ 63, 2 ^ 63 - 1, -1] := by decide +kernel
theorem test_scalar_order :
    [sreg (.min 1 2 3 31 0) 3 (st2 (-1) 2), sreg (.max 1 2 3 31 0) 3 (st2 (-1) 2), sreg (.minu 1 2 3 31 0) 3 (st2 (-1) 2),
     sreg (.maxu 1 2 3 31 0) 3 (st2 (-1) 2), sreg (.addsat 1 2 3 31 0) 3 (st2 (2 ^ 63 - 1) 1),
     sreg (.subsat 1 2 3 31 0) 3 (st2 (2 ^ 63) 1), sreg (.seq 1 2 3 31 0) 3 (st2 4 4), sreg (.sne 1 2 3 31 0) 3 (st2 4 4),
     sreg (.slt 1 2 3 31 0) 3 (st2 (-1) 0), sreg (.sltu 1 2 3 31 0) 3 (st2 (-1) 0), sreg (.sle 1 2 3 31 0) 3 (st2 4 4),
     sreg (.sleu 1 2 3 31 0) 3 (st2 4 4)] = [-1, 2, 2, -1, 2 ^ 63 - 1, 2 ^ 63, 1, 0, 1, 0, 1, 1] := by decide +kernel
/-- Division by 0 and the quotient that overflows (R118). -/
theorem test_division :
    [sreg (.div 1 2 3 31 0) 3 (st2 (-7) 2), sreg (.div 1 2 3 31 0) 3 (st2 7 0), sreg (.div 1 2 3 31 0) 3 (st2 (2 ^ 63) (-1)),
     sreg (.divu 1 2 3 31 0) 3 (st2 7 0), sreg (.rem 1 2 3 31 0) 3 (st2 (-7) 2), sreg (.rem 1 2 3 31 0) 3 (st2 (2 ^ 63) (-1)),
     sreg (.rem 1 2 3 31 0) 3 (st2 7 0), sreg (.remu 1 2 3 31 0) 3 (st2 7 0)] = [-3, -1, 2 ^ 63, -1, -1, 0, 7, 7] := by decide +kernel
theorem test_scalar_immediates :
    [sreg (.mov 1 3 31 0) 3 (st2 9 0), sreg (.movi 3 0x3FFF) 3 st0, sreg (.movsh 1 3 5) 3 (st2 1 0), sreg (.addi 1 3 0x3FFD) 3 (st2 7 0),
     sreg (.andi 1 3 0x3FFF) 3 (st2 (-1) 0), sreg (.ori 1 3 1) 3 (st2 8 0), sreg (.xori 1 3 1) 3 (st2 9 0),
     sreg (.clz 1 3 31 0) 3 (st2 0 0), sreg (.ctz 1 3 31 0) 3 (st2 0 0), sreg (.ctz 1 3 31 0) 3 (st2 8 0),
     sreg (.popc 1 3 31 0) 3 (st2 (-1) 0), sreg (.sext 1 3 8) 3 (st2 0x180 0), sreg (.zext 1 3 64) 3 (st2 (-1) 0)] =
      [9, -1, 16389, 4, 0x3FFF, 9, 8, 64, 64, 3, 64, -128, -1] := by decide +kernel
/-- BFX: the unsigned field of 4 bits at bit 4, then the signed one; BFI: the field 4 bits wide at bit 8 (R120). -/
theorem test_fields :
    [sreg (.bfx 1 3 0x0104) 3 (st2 0xF5 0), sreg (.bfx 1 3 0x2104) 3 (st2 0xF5 0), sreg (.bfi 2 1 1 31 0) 1 (st2 0x108 0xFF),
     sreg (.sel 1 2 3 31 0) 3 (st2 4 6), sreg (.sel 1 2 3 1 0) 3 (st2 4 6)] = [15, -1, 0xF08, 6, 4] := by decide +kernel
theorem test_addresses :
    [sreg (.xyadr 1 2 3 31 0) 3 (st2 0x102 0x40), sreg (.reladr 1 2 3 31 0) 3 (st2 0x1FFFF 0x40), sreg (.adrx 1 3 0) 3 (st2 (0x3FF * 2 ^ 52) 0),
     sreg (.adrx 1 3 2) 3 (st2 0x12345 0), sreg (.adrx 1 3 3) 3 (st2 (2 ^ 62) 0), sreg (.adrchk 1 2 3 31 0) 3 (st2 0x7FFF8 8),
     sreg (.adrchk 1 2 3 31 0) 3 (st2 0x7FFF8 9), sreg (.adrchk 1 2 3 31 0) 3 (st2 (2 ^ 61 + 2 ^ 52) 8), sreg (.myxy 3 31 0) 3 st0] =
      [2 ^ 52 + 2 * 2 ^ 44 + 0x40, 2 ^ 61 + 511 * 2 ^ 52 + 255 * 2 ^ 44 + 0x40, -1, 0x2345 + 0x10000, 1, 0x7FFF8, -1, 2 ^ 52, 0] := by
  decide +kernel
theorem test_address_ranges :
    [abortOf (.xyadr 1 2 3 31 0) (st2 0x11FFF 0x7FFFF), abortOf (.xyadr 1 2 3 31 0) (st2 0x12000 0x7FFFF),
     abortOf (.xyadr 1 2 3 31 0) (st2 0x11FFF 0x80000), abortOf (.reladr 1 2 3 31 0) (st2 0 0x80000)] =
      [none, some (0x09, 0x12000), some (0x09, 0x80000), some (0x09, 0x80000)] := by decide +kernel

/-! ## Vector, floating, conversion and bit-stream instructions (04_core_compute) -/

/-- A vector of one lane value. -/
def all (x : W32) : V512 := ofLanes (fun _ => x)
/-- v1 and v2 of one lane value each. -/
def la (x y : W32) : State := sv2 (all x) (all y)
/-- Lane i of v3 after a step. -/
def vl (i : Nat) (n : Instr) (s : State) : W32 := lane (vreg n 3 s) i
theorem test_vector_integer :
    [vl 0 (.vmov 1 3 31 0) (la 9 0), vl 1 (.vabsF32 1 3 31 0) (la 0xBF800000 0), vl 2 (.vnegF32 1 3 31 0) (la 0 0),
     vl 3 (.viadd 1 2 3 31 0) (la 0xFFFFFFFF 2), vl 4 (.visub 1 2 3 31 0) (la 1 2), vl 5 (.vimul 1 2 3 31 0) (la 0x10001 0x10000),
     vl 6 (.vand 1 2 3 31 0) (la 12 10), vl 7 (.vor 1 2 3 31 0) (la 12 10), vl 8 (.vxor 1 2 3 31 0) (la 12 10),
     vl 9 (.vshl 1 2 3 31 0) (la 3 33), vl 10 (.vshr 1 2 3 31 0) (la 0x80000000 31), vl 11 (.vsar 1 2 3 31 0) (la 0x80000000 31),
     vl 12 (.vimin 1 2 3 31 0) (la 0xFFFFFFFF 1), vl 13 (.vimax 1 2 3 31 0) (la 0xFFFFFFFF 1),
     vl 15 (.viaddsatI8 1 2 3 31 0) (la 0x7F80FF01 0x018001FF)] =
      [9, 0x3F800000, 0x80000000, 1, 0xFFFFFFFF, 0x10000, 8, 14, 6, 6, 1, 0xFFFFFFFF, 0xFFFFFFFF, 1, 0x7F800000] := by
  decide +kernel
/-- 1 + 2, 1 - 2, 2 · 3, 2 · 3 + 0, the smaller and larger of -0 and +0; BF16 pairs 1 + 1 and 2 · 1; the dot product 1 · 1 + 1 · 1. -/
theorem test_vector_float :
    [vl 0 (.vaddF32 1 2 3 31 0) (la 0x3F800000 0x40000000), vl 0 (.vsubF32 1 2 3 31 0) (la 0x3F800000 0x40000000),
     vl 0 (.vmulF32 1 2 3 31 0) (la 0x40000000 0x40400000), vl 0 (.vfmaF32 1 2 3 31 0) (la 0x40000000 0x40400000),
     vl 0 (.vminF32 1 2 3 31 0) (la 0 0x80000000), vl 0 (.vmaxF32 1 2 3 31 0) (la 0x80000000 0),
     vl 0 (.vaddBf16 1 2 3 31 0) (la 0x3F803F80 0x3F803F80), vl 0 (.vmulBf16 1 2 3 31 0) (la 0x40004000 0x3F803F80),
     vl 0 (.vdot2Bf16 1 2 3 31 0) (la 0x3F803F80 0x3F803F80)] =
      [0x40400000, 0xBF800000, 0x40C00000, 0x40C00000, 0x80000000, 0, 0x40004000, 0x40004000, 0x40000000] := by decide +kernel
/-- The exact results of the table operations at 1, 2 and 4, and FP64 pairs 1 + 1, 1 - 1, 1 · 1, 1 · 1 + 0. -/
theorem test_vector_tables :
    [vl 0 (.vrcpF32 1 3 31 0) (la 0x40000000 0), vl 0 (.vsqrtF32 1 3 31 0) (la 0x40800000 0), vl 0 (.vexp2F32 1 3 31 0) (la 0x40000000 0),
     vl 0 (.vlog2F32 1 3 31 0) (la 0x3F800000 0), vl 0 (.vtanhF32 1 3 31 0) (la 0x80000000 0), vl 0 (.vrsqF32 1 3 31 0) (la 0x7F800000 0)] =
      [0x3F000000, 0x40000000, 0x40800000, 0, 0x80000000, 0] ∧
    [(pair (vreg (.vaddF64 1 2 3 31 0) 3 (sv2 0x3FF0000000000000 0x3FF0000000000000)) 0),
     (pair (vreg (.vsubF64 1 2 3 31 0) 3 (sv2 0x3FF0000000000000 0x3FF0000000000000)) 0),
     (pair (vreg (.vmulF64 1 2 3 31 0) 3 (sv2 0x3FF0000000000000 0x4000000000000000)) 0),
     (pair (vreg (.vfmaF64 1 2 3 31 0) 3 (sv2 0x3FF0000000000000 0x4000000000000000)) 0)] =
      [0x4000000000000000, 0, 0x4000000000000000, 0x4000000000000000] := by decide +kernel
/-- A lane outside lm keeps the old value of a register destination (R113). -/
theorem test_vector_mask :
    (let s := body id fun w => { w with lm := 1, v := vset (vset w.v 1 (all 5)) 3 (all 8) }
     [vl 0 (.vmov 1 3 31 0) s, vl 1 (.vmov 1 3 31 0) s]) = [5, 8] := by decide +kernel
/-- Broadcast, permute, extract, insert, compares, select, reductions, masks, shift and scan. -/
theorem test_vector_moves :
    (let s := body id fun w => { w with s := vset w.s 2 6, v := vset (vset (vset w.v 1 (ofLanes (fun i => BitVec.ofNat 32 i))) 2 (all 3)) 4 (all 0x3F800000), lm := 3 }
     [vl 1 (.vbcast 2 3 31 0) s, vl 7 (.vperm 1 2 3 31 0) s, (sreg (.vextr 1 3 15) 3 s).truncate 32, vl 2 (.vins 2 3 2) s,
      vl 0 (.viceq 1 2 3 31 0) s, vl 3 (.viceq 1 2 3 31 0) s, vl 2 (.viclt 1 2 3 31 0) s, vl 3 (.viclt 1 2 3 31 0) s,
      vl 1 (.vsel 1 2 3 31 0) s, vl 2 (.vsel 1 2 3 31 0) s, (sreg (.vrsumI32 1 3 31 0) 3 s).truncate 32,
      (sreg (.vrsumF32 4 3 31 0) 3 s).truncate 32, (sreg (.vrmaxF32 4 3 31 0) 3 s).truncate 32, (sreg (.vmget 3 31 0) 3 s).truncate 32,
      vl 5 (.vshiftl 1 3 4) s, vl 3 (.vshiftl 1 3 4) s, vl 3 (.vscanF32 4 3 31 0) s] =
       [6, 3, 15, 6, 0, 0xFFFFFFFF, 0xFFFFFFFF, 0, 1, 3, 120, 0x41800000, 0x3F800000, 3, 1, 0, 0x40800000]) ∧
    (wk (.vmset 0x31) st0).lm = 0xE ∧ (wk (.vceqF32 1 2 3 31 0) (la 0 0x80000000)).lm = 0xFFFF ∧
    (wk (.vcltF32 1 2 3 31 0) (la 0x3F800000 0x40000000)).lm = 0xFFFF ∧ (wk (.vcleF32 1 2 3 31 0) (la 0x7FC00000 0)).lm = 0 := by
  decide +kernel
/-- An instruction of the vector unit in a rule without the vector hint (01_encoding, R41). -/
theorem test_vector_hint :
    abortOf (.vmov 1 3 31 0) (body id fun w => { w with hdrA := BitVec.ofNat 64 (2 ^ 56) }) = some (0x04, 0) := by decide +kernel
/-- CVT of FP32 -3.7 to INT32 toward -inf (03_core_numbers, R106); VCVT of 1.0 to BF16; VPACK and VUNPK of -1 as INT8; VSCALE by 2^-1;
VSCALEX by a scale code; the class of FP32 -0. -/
theorem test_conversions :
    (sreg (.cvt 1 3 0x84) 3 (st2 0xC06CCCCD 0)) = -4 ∧ vl 0 (.vcvt 1 3 0x98) (la 0x3F800000 0) = 0x3F80 ∧
    vl 3 (.vpack 1 3 0x00) (la 0xFFFFFFFF 0) = 0xFFFFFFFF ∧ vl 4 (.vpack 1 3 0x00) (la 0xFFFFFFFF 0) = 0 ∧
    vl 15 (.vunpk 1 3 0x00) (la 0xFF000000 0) = 0xFFFFFFFF ∧
    vl 0 (.vscale 1 2 3 31 0) (body id fun w => { w with s := vset w.s 2 (-1), v := vset w.v 1 (all 0x40000000) }) = 0x3F800000 ∧
    (sreg (.fclass 1 2 3 31 0) 3 (st2 0x80000000 2)) = 8 := by decide +kernel
/-- The example of R145: five symbols from the stream bytes 9B 80 00 00 under the table at local offset 0x20000. -/
def huffman (bb : W64) (nb : Nat) (pay : V512) : State :=
  let tab : List (Nat × Byte) := [(0x20002, 1), (0x20008, 2), (0x2000A, 1), (0x2000C, 1), (0x20010, 6), (0x20012, 2), (0x20014, 2),
    (0x20060, 0x41), (0x20062, 0x42), (0x20064, 0x43), (0x20066, 0x44)]
  let q := { Stream.reset with bound := true, esz := 1, fetched := [⟨0, pay, none⟩] }
  let c := core0 fun x => { x with q := vset x.q 0 q }
  let w := { startWork ctx0 0 probeHeaderA probeHeaderB 0 with bb := bb, bw := BitVec.ofNat 32 (0x02001000 + nb) }
  { base { c with mem := tab } with stage := { Stage.reset with active := true, taken := [0], running := true, work := w } }
theorem test_huffman :
    [(0, 0), (0x6E00000000000000, 30), (0xDC00000000000000, 29), (0xE000000000000000, 26), (0, 23)].map (fun (p : W64 × Nat) =>
      let w := wk (.bshuf 24 1 31 0) (huffman p.1 p.2 0x809B)
      (vget w.s 1 0, bitsHeld w.bw)) = [(0x20042, 30), (0x10041, 29), (0x30043, 26), (0x30044, 23), (0x10041, 22)] := by
  decide +kernel
/-- BSPEEK, BSGET and BSSKIP of 8 bits of 9B 80 00 00 (R142); BSINIT and BSSTAT (R141). -/
theorem test_bit_reading :
    (let s := huffman 0 0 0x809B
     [sreg (.bspeek 24 1 8) 1 s, sreg (.bsget 24 1 8) 1 s, (wk (.bsget 24 1 8) s).bb, word (wk (.bspeek 24 1 8) s).bw.toNat,
      word (wk (.bsskip 24 8) s).bw.toNat, sreg (.bsstat 1 31 0) 1 s, word (wk (.bsinit 1 31 31 31 0) (st2 0x02001000 0)).bw.toNat] =
      [0x9B, 0x9B, 0x8000000000000000, 0x02001020, 0x02001018, 0x02001000, 0x02001000]) := by decide +kernel
/-- A writing stream holding the 28 bits 0xFFFFFFF, to which BSPUT appends 8 bits, and which BSFLUSH ends (R145). -/
def packing : State :=
  body (fun x => { x with q := vset x.q 0 { Stream.reset with bound := true, esz := 1, dir := true } })
    (fun w => { w with bb := 0xFFFFFFF000000000, bw := BitVec.ofNat 32 (0x2000 + 28), s := vset (vset w.s 1 0xA5) 2 8 })
theorem test_bit_packing :
    (wk (.bsput 1 2 24 0) packing).effects = [.elem 0 0xFAFFFFFF] ∧ (wk (.bsput 1 2 24 0) packing).bb = 0x5000000000000000 ∧
    (wk (.bsput 1 2 24 0) packing).bw = 0x2004 ∧ (wk (.bsflush 24 0) packing).effects = [.elem 0 0xF0FFFFFF] ∧
    (wk (.bsflush 24 0) packing).bw = 0x2000 ∧ (wk (.bsflush 31 0) (huffman (-1) 29 0)).bw = 0x02001018 ∧
    abortOf (.bsput 1 2 24 0) (huffman 0 0 0) = some (0x04, 0) := by decide +kernel

/-! ## States that meet the hypotheses: scalar, address, vector, conversion and bit-stream statements -/

/-- The hypotheses of a scalar instruction of two sources s1, s2 and destination s3, with value f. -/
def MeetsTwo (s : State) (opc : BitVec 8) (f : W64 → W64 → W64) : Prop :=
  ∃ x y sa sb w1 w2 w3, Disarmed s ∧ Gives (readS s 1#5 (keepIn 0)) (start s opc) (x, sa) w1 ∧
    Gives (readS s 2#5 (keepIn 0)) w1 (y, sb) w2 ∧ Gives (resultS s 3#5 31#5 ⟨0, 0, sa, sb⟩ (f x y)) w2 () w3
/-- Those of one source s1. -/
def MeetsOne (s : State) (opc : BitVec 8) (keep : Bool) (f : W64 → W64) : Prop :=
  ∃ x sa w1 w2, Disarmed s ∧ Gives (readS s 1#5 keep) (start s opc) (x, sa) w1 ∧
    Gives (resultS s 3#5 31#5 ⟨0, 0, sa, 0⟩ (f x)) w1 () w2
theorem witness_ScalarResults :
    MeetsTwo (st2 7 5) 0x04 (fun x y => word (x.toNat + y.toNat)) ∧ MeetsTwo (st2 7 0) 0x0A (fun _ _ => word (2 ^ 64 - 1)) ∧
    MeetsOne (st2 7 0) 0x01 (keepIn 0) (fun x => x) ∧ MeetsOne (st2 7 0) 0x05 false (fun x => word (x.toNat + 1)) ∧
    MeetsOne (st2 0x80 0) 0x2B false (fun x => signed x.toNat 8) ∧
    (WellFormed.fieldOk 0x0104 = true ∧ MeetsOne (st2 0xF5 0) 0x2D false (fun x => word (field x 4 4))) ∧
    MeetsTwo (st2 0x108 0xFF) 0x2E (fun _ _ => 0xF08) ∧ (∃ w, Gives (resultS st0 3#5 31#5 ⟨0, 0, 0, 0⟩ (signed 5 14)) (start st0 0x02) () w) := by
  refine ⟨⟨_, _, _, _, _, _, _, rfl, rfl, rfl, rfl⟩, ⟨_, _, _, _, _, _, _, rfl, rfl, rfl, rfl⟩, ⟨_, _, _, _, rfl, rfl, rfl⟩,
    ⟨_, _, _, _, rfl, rfl, rfl⟩, ⟨_, _, _, _, rfl, rfl, rfl⟩, ⟨rfl, _, _, _, _, rfl, rfl, rfl⟩, ⟨_, _, _, _, _, _, _, rfl, rfl, rfl, rfl⟩, ⟨_, rfl⟩⟩
/-- SEL with s4 as its condition; BFI's value by its bits. -/
theorem witness_select_insert :
    (∃ x y c sa sb sc w1 w2 w3 w4, Gives (readS (st2 4 6) 1#5 (keepIn 0)) (start (st2 4 6) 0x2A) (x, sa) w1 ∧
      Gives (readS (st2 4 6) 2#5 (keepIn 0)) w1 (y, sb) w2 ∧ Gives (readS (st2 4 6) 4#5 false) w2 (c, sc) w3 ∧
      Gives (resultS (st2 4 6) 3#5 31#5 ⟨0, 0, sa, sb⟩ (if c = 0 then y else x)) w3 () w4) ∧
    (∀ j < 64, (0x108 : W64).getLsbD j = if cnt 0x108 ≤ j ∧ j < cnt 0x108 + field 0x108 6 7 then (1 : W64).getLsbD (j - cnt 0x108)
      else (0x108 : W64).getLsbD j) := by
  exact ⟨⟨_, _, _, _, _, _, _, _, _, _, rfl, rfl, rfl, rfl⟩, by decide +kernel⟩
/-- XYADR at its last column and offset, past its last column, past its last offset; RELADR; MYXY of a context in the part. -/
theorem witness_AddressArithmeticResults :
    MeetsTwo (st2 0x11FFF 0x7FFFF) 0x30 (fun x y => word (field x 8 9 * 2 ^ 52 + field x 0 8 * 2 ^ 44 + y.toNat)) ∧
    field (0x11FFF : W64) 8 9 ≤ 287 ∧ 287 < field (0x12000 : W64) 8 9 ∧ (0x7FFFF : W64).toNat < 0x80000 ∧ 0x80000 ≤ (0x80000 : W64).toNat ∧
    MeetsTwo (st2 0x1FFFF 0x7FFFF) 0x31 (fun x y => word (2 ^ 61 + field x 8 9 * 2 ^ 52 + field x 0 8 * 2 ^ 44 + y.toNat)) ∧
    MeetsTwo (st2 0x7FFF8 8) 0x34 (fun x y => (checkedPlace (bodyCtx (st2 0x7FFF8 8)) x y.toNat).getD 0xFFFFFFFFFFFFFFFF) ∧
    ((bodyCtx st0).lx ≤ 287 ∧ (bodyCtx st0).ly ≤ 255 ∧ (regionOf st0 (bodyCtx st0).region).x0 ≤ (bodyCtx st0).lx ∧
      ∃ w, Gives (resultS st0 3#5 31#5 ⟨0, 0, 0, 0⟩ 0) (start st0 0x32) () w) :=
  ⟨⟨_, _, _, _, _, _, _, rfl, rfl, rfl, rfl⟩, by decide, by decide, by decide, by decide, ⟨_, _, _, _, _, _, _, rfl, rfl, rfl, rfl⟩,
    ⟨_, _, _, _, _, _, _, rfl, rfl, rfl, rfl⟩, by decide, by decide, by decide +kernel, _, rfl⟩
/-- The hypotheses of a vector instruction of v1 and v2 with destination v3, a value and flags raised. -/
def MeetsVector (s : State) (opc : BitVec 8) (v : V512) (f : Flags) : Prop :=
  ∃ x y sa sb w1 w2 w3, Disarmed s ∧ VectorHint s ∧ Gives (readV s 1#5 (keepIn 0)) (start s opc) (x, sa) w1 ∧
    Gives (readV s 2#5 (keepIn 0)) w1 (y, sb) w2 ∧ Gives (resultV s 3#5 31#5 ⟨0, 0, sa, sb⟩ v) (raising w2 f) () w3
theorem witness_VectorIntegerLaneResults : MeetsVector (la 9 1) 0x5E (all 10) 0 :=
  ⟨_, _, _, _, _, _, _, rfl, rfl, rfl, rfl, gives_of_ran () (by decide +kernel)⟩
theorem witness_VectorFloatLaneResults : MeetsVector (la 0x3F800000 0x33800000) 0x45 (all 0x3F800000) fNX :=
  ⟨_, _, _, _, _, _, _, rfl, rfl, rfl, rfl, gives_of_ran () (by decide +kernel)⟩
theorem witness_VectorMoveCompareReduceResults : MeetsVector (la 9 9) 0x42 (all 9) 0 ∧
    (∃ w2 w3, (∀ i < 16, (0xFFFF : W16).getLsbD i = decide (lane (all 9) i = lane (all 9) i)) ∧
      Gives (stageLm 0xFFFF) (start (la 9 9) 0x69) () w2 ∧ Gives (resultV (la 9 9) 3#5 31#5 ⟨0, 0, 0, 0⟩ (all 0xFFFFFFFF)) w2 () w3) ∧
    (∃ w, Gives (resultS (la 9 9) 3#5 31#5 ⟨0, 0, 0, 0⟩ 144) (start (la 9 9) 0x6E) () w) ∧
    (∀ j < 16, (0xE : W16).getLsbD j = decide ((0x31 : BitVec 8).toNat % 16 ≤ j ∧ j ≤ (0x31 : BitVec 8).toNat / 16)) ∧
    (∃ w, Gives (stageLm 0xE) (start (la 9 9) 0x6F) () w) :=
  ⟨⟨_, _, _, _, _, _, _, rfl, rfl, rfl, rfl, gives_of_ran () (by decide +kernel)⟩,
    ⟨_, _, by decide +kernel, gives_of_ran () (by decide +kernel), gives_of_ran () (by decide +kernel)⟩,
    ⟨_, gives_of_ran () (by decide +kernel)⟩, by decide, ⟨_, gives_of_ran () (by decide +kernel)⟩⟩
/-- Rounding to FP32: an exact and an inexact magnitude that do not overflow, one that does. -/
theorem witness_RoundingDeliversTheNearestOnItsSide :
    (fpRound 2 false false 0 false 1 0 false).2 &&& fOF = 0 ∧ (fpRound 2 false false 0 false 0x1000001 0 false).2 = fNX ∧
    (fpRound 2 false true 0 false 1 128 false) = (0x7F7FFFFF, fOF ||| fNX) := by decide +kernel
/-- The operands of each special case: a NaN, infinities of both signs, an infinity and a zero, zeros of both signs, -1 for the
table operations, -151 for the power of two. -/
theorem witness_FloatSpecialCases :
    (fpDecode 2 false 0x7FC00000).isNaN = true ∧ fpDecode 2 false 0x7F800000 = .inf false ∧ fpDecode 2 false 0xFF800000 = .inf true ∧
    (∃ g, fpDecode 2 false 0 = .num false 0 g) ∧ (∃ g, fpDecode 2 false 0x80000000 = .num true 0 g) ∧
    (∃ k e, fpDecode 2 false 0xBF800000 = .num true k e ∧ 0 < k) ∧ fpDecode 2 false 0xC3170000 = .num true (151 * 2 ^ 16) (-16) ∧
    (f32Exp2 0 0xC3170000) = (0, fUF ||| fNX) :=
  ⟨by decide +kernel, by decide +kernel, by decide +kernel, ⟨_, rfl⟩, ⟨_, rfl⟩, ⟨_, _, rfl, by decide⟩, by decide +kernel, by decide +kernel⟩
theorem witness_ConversionsAndExamples :
    (∃ x sa w1 w2, Disarmed (st2 0xC06CCCCD 0) ∧ Gives (readS (st2 0xC06CCCCD 0) 1#5 false) (start (st2 0xC06CCCCD 0) 0x80) (x, sa) w1 ∧
      Gives (resultS (st2 0xC06CCCCD 0) 3#5 31#5 ⟨0, 0, sa, 0⟩ (-4)) (raising w1 fNX) () w2) ∧
    MeetsVector (la 0x3F800000 0) 0x81 (all 0x3F80) 0 ∧ MeetsTwo (st2 0x80000000 2) 0x8E (fun _ _ => 8) :=
  ⟨⟨_, _, _, _, rfl, rfl, gives_of_ran () (by decide +kernel)⟩,
   ⟨_, _, _, _, _, _, _, rfl, rfl, rfl, rfl, gives_of_ran () (by decide +kernel)⟩, ⟨_, _, _, _, _, _, _, rfl, rfl, rfl, rfl⟩⟩
/-- The working copy after bb and NB are staged. -/
def bitsLeft (w : Work) (bb : W64) (nb : Nat) : Work := left (stageBw (holding w.bw nb)) (left (stageBb bb) w)
theorem bitsStaged_of {w : Work} {bb : W64} {nb : Nat} (h : ran (stageBb bb) w = true)
    (h' : ran (stageBw (holding w.bw nb)) (left (stageBb bb) w) = true) : BitsStaged w bb nb (bitsLeft w bb nb) :=
  ⟨_, gives_of_ran () h, gives_of_ran () h'⟩
theorem refilled_none {s : State} {a : Opd} {n : Nat} {w : Work} (h : ¬ (a ≠ 31#5 ∧ bitsHeld w.bw < n ∧ bitsHeld w.bw ≤ 32)) :
    Refilled s a n w 0 w := by rw [Refilled, if_neg h]; exact ⟨rfl, rfl⟩
theorem refilled_one {s : State} {a : Opd} {n : Nat} {w : Work} (h : a ≠ 31#5 ∧ bitsHeld w.bw < n ∧ bitsHeld w.bw ≤ 32)
    (hr : ran (readS s a false) w = true)
    (hb : ran (stageBb (w.bb ||| word (firstByteHigh (got (0, 0) (readS s a false) w).1.toNat * 2 ^ (32 - bitsHeld w.bw))))
      (left (readS s a false) w) = true)
    (hn : ran (stageBw (holding (left (readS s a false) w).bw (bitsHeld w.bw + 32)))
      (left (stageBb (w.bb ||| word (firstByteHigh (got (0, 0) (readS s a false) w).1.toNat * 2 ^ (32 - bitsHeld w.bw))))
        (left (readS s a false) w)) = true) : ∃ sb w', Refilled s a n w sb w' := by
  refine ⟨(got (0, 0) (readS s a false) w).2, bitsLeft (left (readS s a false) w)
    (w.bb ||| word (firstByteHigh (got (0, 0) (readS s a false) w).1.toNat * 2 ^ (32 - bitsHeld w.bw))) (bitsHeld w.bw + 32), ?_⟩
  rw [Refilled, if_pos h]
  exact ⟨_, _, gives_of_ran (0, 0) hr, bitsStaged_of hb hn⟩
theorem consumed_of {n : Nat} {w : Work} (h : ¬ bitsHeld w.bw ≤ n) (hb : ran (stageBb (word (w.bb.toNat * 2 ^ n))) w = true)
    (hn : ran (stageBw (holding w.bw (bitsHeld w.bw - n))) (left (stageBb (word (w.bb.toNat * 2 ^ n))) w) = true) :
    Consumed n w (bitsLeft w (word (w.bb.toNat * 2 ^ n)) (bitsHeld w.bw - n)) := by
  rw [Consumed, if_neg h]
  exact bitsStaged_of hb hn
/-- A reading stream with 32 bits held, of which BSGET takes 8; the same stream before its refill; BSINIT; operands that abort. -/
theorem witness_BitStreamReading :
    (∃ x y sa sb w1 w2 w3 w4 w5, Gives (readS (st2 0x02001000 0) 1#5 (keepIn 0)) (start (st2 0x02001000 0) 0x86) (x, sa) w1 ∧
      Gives (readS (st2 0x02001000 0) 31#5 (keepIn 0)) w1 (y, sb) w2 ∧ Gives (stageBw 0x02001000) w2 () w3 ∧ BitsStaged w3 0 0 w4 ∧
      Gives (resultS (st2 0x02001000 0) 31#5 31#5 ⟨0, 0, sa, sb⟩ (word w2.bw.toNat)) w4 () w5) ∧
    (let s := huffman 0x9B80000000000000 32 0
     StreamOperand s 24#5 ∧ streamMode s.stage.work.bw = 1 ∧ Refilled s 24#5 8 (start s 0x88) 0 (start s 0x88) ∧
      ∃ w2 w3, Consumed 8 (start s 0x88) w2 ∧ Gives (resultS s 1#5 31#5 ⟨0, 0, 0, 0⟩ (word (s.stage.work.bb.toNat / 2 ^ 56))) w2 () w3) ∧
    (∃ sb w1, Refilled (huffman 0 0 0x809B) 24#5 8 (start (huffman 0 0 0x809B) 0x88) sb w1) ∧
    ¬ StreamOperand (huffman 0 0 0) 25#5 ∧ streamMode (huffman 0 0 0).stage.work.bw ≠ 2 ∧ streamMode packing.stage.work.bw ≠ 1 := by
  refine ⟨⟨_, _, _, _, _, _, _, _, _, gives_of_ran (0, 0) (by decide +kernel), gives_of_ran (0, 0) (by decide +kernel),
    gives_of_ran () (by decide +kernel), bitsStaged_of (by decide +kernel) (by decide +kernel),
    gives_of_ran () (by decide +kernel)⟩, ⟨.inr ⟨rfl, rfl, rfl, .inl ⟨rfl, rfl⟩⟩, rfl, refilled_none (by decide +kernel), _, _,
      consumed_of (by decide +kernel) (by decide +kernel) (by decide +kernel), gives_of_ran () (by decide +kernel)⟩,
    refilled_one (by decide +kernel) (by decide +kernel) (by decide +kernel) (by decide +kernel), ?_, by decide +kernel, by decide +kernel⟩
  rintro (h | ⟨h, -⟩) <;> revert h <;> decide +kernel
/-- BSHUF of the example's second code with 30 bits held: its length, its entry, its symbol, and what it consumes. -/
theorem witness_HuffmanDecodeResults :
    (let s := huffman 0x6E00000000000000 30 0
     let w2 := left (localRead s 0x20000 96) (start s 0x8A)
     let hdr := got 0 (localRead s 0x20000 96) (start s 0x8A)
     StreamOperand s 24#5 ∧ streamMode s.stage.work.bw = 1 ∧ Refilled s 24#5 12 (start s 0x8A) 0 (start s 0x8A) ∧
     Gives (checkAccess s 0x20000 96 1) (start s 0x8A) () (start s 0x8A) ∧ Gives (localRead s 0x20000 96) (start s 0x8A) hdr w2 ∧
     CodeMatches hdr 0x6E00000000000000 30 1 ∧ Gives (checkAccess s 0x20060 2 1) w2 () w2 ∧
     Gives (localRead s 0x20060 2) w2 (got 0 (localRead s 0x20060 2) w2) (left (localRead s 0x20060 2) w2) ∧ got 0 (localRead s 0x20060 2) w2 = 0x41 ∧
     ∃ w4 w5, Consumed 1 (left (localRead s 0x20060 2) w2) w4 ∧ Gives (resultS s 1#5 31#5 ⟨0, 0, 0, 0⟩ 0x10041) w4 () w5) := by
  refine ⟨.inr ⟨rfl, rfl, rfl, .inl ⟨rfl, rfl⟩⟩, rfl, refilled_none (by decide +kernel), gives_same (by decide +kernel) (by decide +kernel),
    gives_of_ran 0 (by decide +kernel), ?_, gives_same (by decide +kernel) (by decide +kernel), gives_of_ran 0 (by decide +kernel), by decide +kernel,
    _, _, consumed_of (by decide +kernel) (by decide +kernel) (by decide +kernel), gives_of_ran () (by decide +kernel)⟩
  unfold CodeMatches
  decide +kernel
/-- BSPUT of 8 bits behind 28; BSFLUSH with bits held and, reading, to the byte boundary. -/
theorem witness_BitStreamCoding :
    StreamOperand packing 24#5 ∧ streamMode packing.stage.work.bw = 2 ∧ bitsHeld packing.stage.work.bw = 28 ∧
    (∃ w3 w4, Drained packing 0 1 (0xFFFFFFFA5 * 2 ^ 60) (start packing 0x8B) w3 ∧ BitsStaged w3 0x5000000000000000 4 w4) ∧
    (∃ w1 w2, Gives (writeElement packing 0 (BitVec.ofNat 512 (firstByteHigh 0xFFFFFFF0))) (start packing 0x8C) () w1 ∧ BitsStaged w1 0 0 w2) ∧
    ∃ w1, Consumed 5 (start (huffman (-1) 29 0) 0x8C) w1 :=
  ⟨.inr ⟨rfl, rfl, rfl, .inr ⟨rfl, rfl⟩⟩, rfl, rfl, ⟨_, _, ⟨_, gives_of_ran () (by decide +kernel), rfl⟩, bitsStaged_of (by decide +kernel) (by decide +kernel)⟩,
    ⟨_, _, gives_of_ran () (by decide +kernel), bitsStaged_of (by decide +kernel) (by decide +kernel)⟩,
    _, consumed_of (by decide +kernel) (by decide +kernel) (by decide +kernel)⟩

/-! ## Control, system, local and remote instructions (02_rule, 05_core_memory, 07_core_failures) -/

/-- The effects staged by a step. -/
def eff (i : Instr) (s : State) : List Effect := (wk i s).effects
/-- A change of core 0, of its context 0, of cluster 0, of die 0. -/
def onCore (f : Core → Core) (s : State) : State := setCore s 0 (f (coreOf s 0))
def onCtx (f : Ctx → Ctx) (s : State) : State := onCore (fun c => { c with ctx := vset c.ctx 0 (f (vget c.ctx 0 Ctx.reset)) }) s
/-- The working copy of the body in flight changed. -/
def onWork (f : Work → Work) (s : State) : State :=
  let w := f s.stage.work
  { s with stage := { s.stage with work := w } }
/-- Without privilege. -/
def low (s : State) : State := onCtx (fun x => { x with priv := false }) s
theorem test_rule_control :
    eff (.ruleon 3) st0 = [.enable 8 8] ∧ eff (.ruleoff 3) st0 = [.enable 8 0] ∧ (wk (.ruleon 63) st0).en = 2 ^ 63 ∧
    eff (.rulemask 1 2 3 31 0) (st2 5 6) = [.enable 6 5] ∧ (wk (.rulemask 1 2 3 31 0) (st2 5 6)).en = 4 ∧
    eff (.raborts 1 2 3 31 0) (st2 5 1) = [.clearAbort 5] ∧ eff (.raborts 1 31 3 31 0) (st2 5 1) = [] ∧
    eff (.ctxend 0) st0 = [.end_] ∧ eff (.ctxyield 0) st0 = [.yield_] ∧ abortOf (.abort 0) st0 = some (1, 0) ∧
    abortOf (.abortz 1 0) (st2 0 0) = some (1, 0) ∧ abortOf (.abortz 1 0) (st2 1 0) = none ∧
    abortOf (.abortnz 1 0) (st2 1 0) = some (1, 0) ∧ abortOf (.abortnz 1 0) (st2 0 0) = none := by decide +kernel
theorem test_tags :
    (let s := onWork (fun w => { w with tb := 6 }) (st2 4 6)
     eff (.tset 0) s = [.tagSet 0] ∧ (wk (.tset 0) s).tb = 7 ∧ eff (.tclr 1) s = [.tagClear 1] ∧ (wk (.tclr 1) s).tb = 4 ∧
     sreg (.tffr 1 3 31 0) 3 s = 2 ∧ sreg (.tffr 31 3 31 0) 3 s = 64 ∧ sreg (.tany 1 3 31 0) 3 s = 1 ∧ sreg (.tall 1 3 31 0) 3 s = 1 ∧
     sreg (.tany 31 3 31 0) 3 s = 0 ∧ eff (.tmask 1 2 3 29 0) s = [.tagMask 6 4] ∧ sreg (.tmask 1 2 3 29 0) 3 s = 6 ∧
     vget (wk (.tmask 1 31 3 7 0) s).tm 7 0 = 4 ∧ abortOf (.tmask 1 2 3 8 0) s = some (4, 0) ∧ eff (.fence 0x0C) s = [.fence 1 4]) := by
  decide +kernel
/-- st of slot 0: FM 0, RND 0, no flags, PRIV; the stream CSR of an unbound stream; numbers out of the table. -/
theorem test_control_registers :
    sreg (.csrr 3 0) 3 st0 = 2 ^ 18 ∧ sreg (.csrr 3 0) 3 (low st0) = 0 ∧ sreg (.csrr 3 4) 3 st0 = 0 ∧ sreg (.csrr 3 0x20) 3 st0 = 0x00101800 ∧
    sreg (.csrr 3 0x21) 3 st0 = 8 ∧ abortOf (.csrr 3 2) st0 = some (4, 0) ∧ abortOf (.csrr 3 0x35) st0 = some (4, 0) ∧
    abortOf (.csrw 1 3 0x35) st0 = some (4, 0) ∧ eff (.csrw 1 3 0) (st2 0x15 0) = [.status true 2 1] ∧ eff (.csrw 1 3 0x34) (st2 7 0) = [.csr 0x34 7] ∧
    abortOf (.csrw 1 3 0x34) (low (st2 7 0)) = some (0x0A, 0) ∧ eff (.csrw 1 3 1) (low (st2 7 0)) = [.csr 1 7] := by decide +kernel
theorem test_system :
    eff (.trap 9) st0 = [.softTrap 9 0] ∧ eff (.tret 1 2 0) (st2 5 3) = [.tret 5 3] ∧ abortOf (.tret 1 2 0) (st2 5 4) = some (4, 0) ∧
    abortOf (.tret 1 2 0) (low st0) = some (0x0A, 0) ∧ abortOf (.mcrd 1 3 31 0) (st2 16 0) = some (4, 0) ∧
    sreg (.mcrd 1 3 31 0) 3 (onCore (fun c => { c with ring := [⟨0, 0, 0, 0⟩, ⟨5, 6, 7, 8⟩] }) (st2 6 0)) = 7 ∧
    sreg (.cntrd 1 3 31 0) 3 (onCtx (fun x => { x with cnt := vset x.cnt 12 77 }) (st2 12 0)) = 77 ∧
    sreg (.cntrd 1 3 31 0) 3 (onCore (fun c => { c with cnt := vset c.cnt 10 78 }) (st2 42 0)) = 78 ∧
    eff (.cntclr 1 0) (low (st2 31 0)) = [.clearCount 31] ∧ abortOf (.cntclr 1 0) (low (st2 32 0)) = some (0x0A, 0) ∧
    abortOf (.cntclr 1 0) (low (st2 42 0)) = some (0x0A, 0) ∧ eff (.cntclr 1 0) (low (st2 43 0)) = [.clearCount 43] ∧
    sreg (.roundrd 3 31 0) 3 (onCtx (fun x => { x with rounds := 9 }) st0) = 9 ∧ eff (.fmtmode 1 3 31 0) (st2 1 0) = [.format true] ∧
    eff (.errinj 1 3 31 0) (st2 0x01000105 0) = [.inject 0x01000105] ∧ abortOf (.errinj 1 3 31 0) (st2 0x02000105 0) = some (4, 0) ∧
    abortOf (.errinj 1 3 31 0) (low st0) = some (0x0A, 0) := by decide +kernel
/-- Core 0 with bytes 1 to 16 from offset 0x100. -/
def loaded (x y : W64) : State :=
  onCore (fun c => { c with mem := memStore [] (placed 0x100 ((List.range 16).map (fun i => BitVec.ofNat 8 (i + 1)))) }) (st2 x y)
theorem test_local_loads :
    [sreg (.ld 1 3 31 0 0 0) 3 (loaded 0x100 0), sreg (.ld 1 3 31 0 1 0) 3 (loaded 0x100 0), sreg (.ld 1 3 31 0 2 4) 3 (loaded 0x100 0),
     sreg (.ld 1 3 31 0 3 0xFFFF8) 3 (loaded 0x108 0), (pair (vreg (.vld 1 3 31 0 0) 3 (loaded 0x100 0)) 1)] =
      [1, 0x201, 0x08070605, 0x0807060504030201, 0x100F0E0D0C0B0A09] ∧
    [abortOf (.ld 1 3 31 0 3 0) (st2 0x104 0), abortOf (.ld 1 3 31 0 0 0) (st2 0x80000 0), abortOf (.ld 1 3 31 0 0 0) (low (st2 0x60000 0)),
     abortOf (.ld 1 3 31 0 0 0) (low (st2 0x5FFFF 0)), abortOf (.ld 1 3 31 0 0 0) (st2 0x60000 0),
     abortOf (.ld 1 3 31 0 0 0) (onCore (fun c => { c with eccUe := [0x20] }) (st2 0x107 0))] =
      [some (8, 0x104), some (9, 0x80000), some (0x0A, 0x60000), none, some (5, 0x60000), some (7, 0)] := by decide +kernel
theorem test_local_stores :
    eff (.st 1 2 0 1 0) (st2 0x100 0xABCD) = [.store [(0x100, 0xCD), (0x101, 0xAB)]] ∧
    eff (.stn 1 2 0 1 0) (loaded 0x100 0xA) = [.nibble 0x100 true 10] ∧
    (match eff (.vst 1 2 0 1 0) (onWork (fun w => { w with lm := 2, v := vset w.v 2 (all 7) }) (st2 0x100 0)) with
     | [.store bs] => bs | _ => []) = [(0x104, 7), (0x105, 0), (0x106, 0), (0x107, 0)] ∧
    abortOf (.st 1 2 0 1 0) (onWork (fun w => { w with entries := 32 }) (st2 0x100 0)) = some (0x0B, 0) ∧
    sreg (.ld 1 3 31 0 0 0) 3 (onWork (fun w => { w with bytes := [(0x100, 9)] }) (loaded 0x100 0)) = 9 := by decide +kernel
/-- A gather of words and a scatter of halves by the byte offsets of a vector; widths 0 and 3 abort (R152). -/
theorem test_gather_scatter :
    (let s := onWork (fun w => { w with lm := 3, v := vset (vset w.v 2 (ofLanes (fun i => BitVec.ofNat 32 (4 * i)))) 4 (all 0xBEEF) }) (loaded 0x100 0)
     [vl 1 (.vldx 1 2 3 31 0 2 1 0) s, vl 2 (.vldx 1 2 3 31 0 2 1 0) s] = [0x08070605, 0] ∧
     eff (.vstx 1 4 0 1 1 2 0) s = [.store [(0x100, 0xEF), (0x101, 0xBE), (0x104, 0xEF), (0x105, 0xBE)]] ∧
     abortOf (.vldx 1 2 3 31 0 0 1 0) s = some (4, 0) ∧ abortOf (.vstx 1 4 0 3 1 2 0) s = some (4, 0) ∧
     abortOf (.vldx 1 2 3 31 0 2 0 0xFFFFE) s = some (8, 0xFE)) := by decide +kernel
/-- The request that a step stages: kind, address, rt, reply. -/
def reqOf (i : Instr) (s : State) : Option (ReqKind × W64 × BitVec 6 × Bool) :=
  match eff i s with | [.req r] => some (r.kind, r.addr, r.rt, r.rpy) | _ => none
theorem test_remote :
    [reqOf (.rld 1 0 3 5 8) (st2 (2 ^ 52) 0), reqOf (.rst 1 2 0 2 5 0 0) (st2 (2 ^ 62) 9), reqOf (.rvld 1 0 5 0) (st2 (2 ^ 61 + 2 ^ 52) 9),
     reqOf (.rvst 1 2 0 5 1 0) (st2 0x40 9), reqOf (.amoAdd 1 2 0 2 5 1 0) (st2 0x40 9), reqOf (.amoCas 1 2 0 3 5 1 1 0) (st2 0x40 9),
     reqOf (.amoFaddBf16 1 2 0 1 5 0 0) (st2 0x40 9)] =
      [some (.read 8, 2 ^ 52 + 8, 5, true), some (.write 4 9, 2 ^ 62, 5, false), some (.read 64, 2 ^ 52, 5, true),
       some (.write 64 0, 0x40, 5, true), some (.amo 0 4 9 0, 0x40, 5, true), some (.amo 9 8 9 0x40, 0x40, 5, true),
       some (.amo 11 2 9 0, 0x40, 5, false)] := by decide +kernel
theorem test_remote_checks :
    abortOf (.amoAdd 1 2 0 1 5 1 0) (st2 0x40 9) = some (4, 0) ∧ abortOf (.amoFaddF32 1 2 0 3 5 1 0) (st2 0x40 9) = some (4, 0) ∧
    abortOf (.rld 1 0 3 5 0) (st2 4 0) = some (8, 4) ∧ abortOf (.rld 1 0 3 5 0) (st2 (288 * 2 ^ 52) 0) = some (9, 288 * 2 ^ 52) ∧
    abortOf (.rld 1 0 3 5 0) (low (st2 0x60000 0)) = some (0x0A, 0x60000) ∧ abortOf (.rld 1 0 3 5 0) (low (st2 (2 ^ 63) 0)) = some (0x0A, 2 ^ 63) ∧
    abortOf (.rld 1 0 3 5 0) (onCtx (fun x => { x with cpUsed := 8 }) (st2 0 0)) = some (4, 0) := by decide +kernel

/-! ## States that meet the hypotheses: control, local, remote and command statements. A register source reads and z takes a result
in every working copy; what else a statement asks is named with it. -/

theorem reads_s1 (s : State) (w : Work) (k : Bool) : Gives (readS s 1#5 k) w (vget w.s 1 0, 0) w := rfl
theorem reads_s2 (s : State) (w : Work) (k : Bool) : Gives (readS s 2#5 k) w (vget w.s 2 0, 0) w := rfl
theorem reads_v2 (s : State) (w : Work) (k : Bool) : Gives (readV s 2#5 k) w (vget w.v 2 0, 0) w := rfl
theorem reads_z (s : State) (w : Work) (k : Bool) : Gives (readS s 31#5 k) w (loScalar 0, 0) w := rfl
theorem writes_z (s : State) (w : Work) (u : TagUse) (v : W64) : Gives (resultS s 31#5 31#5 u v) w () w := rfl
theorem writes_zv (s : State) (w : Work) (u : TagUse) (v : V512) : Gives (resultV s 31#5 31#5 u v) w () w := rfl
/-- s1 is 0 and s2 is not, so every case of the conditional aborts and of RABORTS is met; a set of tags under a mask; a tag mask and
a code that is none. -/
theorem witness_RuleAndTagControl :
    Disarmed (st2 0 5) ∧ Gives (readS (st2 0 5) 1#5 (keepIn 0)) (start (st2 0 5) 0xA1) (0, 0) (start (st2 0 5) 0xA1) ∧
    Gives (readS (st2 0 5) 2#5 (keepIn 0)) (start (st2 0 5) 0xA1) (5, 0) (start (st2 0 5) 0xA1) ∧ (2#5 ≠ 31#5 ∧ (5 : W64) ≠ 0) ∧
    (∀ k < 2, ((6 : W64).getLsbD k && (4 : W64).getLsbD k) = false) ∧ ((6 : W64).getLsbD 2 = true ∧ (4 : W64).getLsbD 2 = true) ∧
    (∀ k < 64, ((6 : W64).getLsbD k && (0 : W64).getLsbD k) = false) ∧ (7#5).toNat < 8 ∧ (8 ≤ (8#5).toNat ∧ 8#5 ≠ 29#5) :=
  ⟨rfl, rfl, rfl, by decide, by decide, by decide, by decide, by decide, by decide⟩
theorem witness_ControlRegisterAccess :
    csrValue (st2 7 0) 0 = some (2 ^ 18) ∧ csrValue (st2 7 0) 0x34 = some 0 ∧ csrValue (low (st2 7 0)) 0x20 = some 0x00101800 ∧
    Privileged (st2 7 0) ∧ Unprivileged (low (st2 7 0)) ∧ Gives (readS (st2 7 0) 1#5 false) (start (st2 7 0) 0xB3) (7, 0) (start (st2 7 0) 0xB3) ∧
    Gives (resultS (st2 7 0) 31#5 31#5 ⟨0, 0, 0, 0⟩ (2 ^ 18)) (start (st2 7 0) 0xB2) () (start (st2 7 0) 0xB2) :=
  ⟨by decide +kernel, by decide +kernel, by decide +kernel, rfl, rfl, rfl, rfl⟩
/-- A record number in the ring and one beyond it, an action of TRET and one out of its range, a descriptor of ERRINJ at its limits and one
past them. -/
theorem witness_SystemInstructionResults :
    (let s := onCore (fun c => { c with ring := [⟨5, 6, 7, 8⟩] }) (st2 3 4)
     Privileged s ∧ Gives (readS s 1#5 (keepIn 0)) (start s 0xB4) (3, 0) (start s 0xB4) ∧ (bodyCore s).ring[field (3 : W64) 2 2]? = some ⟨5, 6, 7, 8⟩ ∧
     (bodyCore s).ring[field (4 : W64) 2 2]? = none ∧ (3 : W64).toNat < 4 ∧ 4 ≤ (4 : W64).toNat ∧ 16 ≤ (16 : W64).toNat) ∧
    Unprivileged (low (st2 3 4)) ∧ (32 ≤ field (32 : W64) 0 6 ∧ field (42 : W64) 0 6 ≤ 42) ∧ ¬ 32 ≤ field (31 : W64) 0 6 ∧ ¬ field (43 : W64) 0 6 ≤ 42 ∧
    (let d : W64 := 0x06010605
     field d 40 24 = 0 ∧ field d 27 4 = 0 ∧ field d 20 4 = 0 ∧ field d 11 5 = 0 ∧ field d 24 3 ≠ 2 ∧ field d 24 3 ≠ 7 ∧ field d 24 3 ≠ 0 ∧
       1 ≤ field d 8 3 ∧ field d 8 3 ≤ 6) ∧ field (0x0701 : W64) 8 3 = 7 :=
  ⟨⟨rfl, rfl, rfl, rfl, by decide, by decide, by decide⟩, rfl, by decide, by decide, by decide, by decide, by decide⟩
theorem inClass_of {s : State} {w : Work} {off : Nat} (h : w.hdrB.getLsbD 40 = true) (hm : vget (bodyCtx s).mcls 0 0 = 0x802FF800)
    (ho : off < 0x60000) : InClass s w off := by
  refine ⟨0, by decide, h, ?_⟩
  rw [hm]
  have e : (0x802FF800 : W32).toNat = 0x802FF800 := by decide
  rw [e]
  omega
/-- A word in data memory passes every check; misaligned, past the space, and of a class that the rule lacks it does not. -/
theorem witness_verdicts :
    Verdict (loaded 0x100 0) (start (loaded 0x100 0) 0xC0) 0x100 8 8 none ∧ Verdict (loaded 0 0) (start (loaded 0 0) 0xC0) 0x5FFF8 8 8 none ∧
    Verdict (loaded 0 0) (start (loaded 0 0) 0xC0) 0x80000 8 8 (some 0x09) ∧ Verdict (loaded 0 0) (start (loaded 0 0) 0xC0) 0x104 8 8 (some 0x08) ∧
    Verdict (low (loaded 0 0)) (start (low (loaded 0 0)) 0xC0) 0x60000 8 8 (some 0x0A) ∧
    Verdict (loaded 0 0) (start (loaded 0 0) 0xC0) 0x60000 8 8 (some 0x05) := by
  have hin : ∀ a : Nat, a + 8 ≤ 0x60000 → InClasses (loaded 0 0) (start (loaded 0 0) 0xC0) a 8 := fun a h =>
    .inr ⟨by decide +kernel, h, fun i hi => inClass_of rfl (by decide +kernel) (by omega)⟩
  have hin' : InClasses (loaded 0x100 0) (start (loaded 0x100 0) 0xC0) 0x100 8 :=
    .inr ⟨by decide +kernel, by decide, fun i hi => inClass_of rfl (by decide +kernel) (by omega)⟩
  refine ⟨?_, ?_, ?_, ?_, ?_, ?_⟩
  · rw [Verdict, if_neg (by decide), if_neg (by decide +kernel), if_neg (by decide)]
    exact .inr (.inr ⟨hin', by rw [PastWindow]; decide +kernel, rfl⟩)
  · rw [Verdict, if_neg (by decide), if_neg (by decide +kernel), if_neg (by decide)]
    exact .inr (.inr ⟨hin 0x5FFF8 (by decide), by rw [PastWindow]; decide +kernel, rfl⟩)
  · rw [Verdict, if_pos (by decide)]
  · rw [Verdict, if_neg (by decide), if_neg (by decide +kernel), if_pos (by decide)]
  · rw [Verdict, if_neg (by decide), if_pos (by decide +kernel)]
  · rw [Verdict, if_neg (by decide), if_neg (by decide +kernel), if_neg (by decide)]
    refine .inl ⟨?_, rfl⟩
    rintro (⟨h, -⟩ | ⟨-, h, -⟩)
    · revert h; decide +kernel
    · revert h; decide
theorem witness_LocalLoadsAndStores :
    Disarmed (loaded 0x100 9) ∧ Gives (readS (loaded 0x100 9) 1#5 (keepIn 0)) (start (loaded 0x100 9) 0xC0) (0x100, 0) (start (loaded 0x100 9) 0xC0) ∧
    offsetBy (0x108 : W64) (0xFFFF8 : BitVec 20) = 0x100 ∧ Sound (loaded 0x100 9) 0x100 8 ∧
    ReadsAs (loaded 0x100 9) (start (loaded 0x100 9) 0xC0) 0x100 8 0x0807060504030201 ∧
    ¬ Sound (onCore (fun c => { c with eccUe := [0x20] }) (loaded 0x100 9)) 0x100 8 ∧ (start (loaded 0x100 9) 0xC1).entries < 32 ∧
    32 ≤ (start (onWork (fun w => { w with entries := 32 }) (loaded 0x100 9)) 0xC1).entries := by
  refine ⟨rfl, rfl, by decide, ?_, ⟨by decide, by decide +kernel⟩, ?_, by decide +kernel, by decide +kernel⟩
  · intro i _ _
    rw [show (bodyCore (loaded 0x100 9)).eccUe = [] by decide +kernel]
    exact List.not_mem_nil
  · intro h; exact absurd (h 0 (by decide) (by decide)) (by decide +kernel)
/-- A gather of lane 0 alone. -/
theorem witness_GatherAndScatterResults :
    (let s := onWork (fun w => { w with lm := 1 }) (loaded 0x100 0)
     Disarmed s ∧ Gives (readS s 1#5 (keepIn 0)) (start s 0xC5) (0x100, 0) (start s 0xC5) ∧ Gives (readV s 2#5 (keepIn 0)) (start s 0xC5) (0, 0) (start s 0xC5) ∧
     laneOffset 0x100 0 0 0 = 0x100 ∧ Takes (start s 0xC5) 1 0 ∧ (∀ i, 0 < i → ¬ Takes (start s 0xC5) 1 i) ∧
     ReadsAs s (start s 0xC5) 0x100 4 (lane (0x04030201 : V512) 0).toNat ∧ ∀ i < 16, 0 < i → lane (0x04030201 : V512) i = 0) := by
  refine ⟨rfl, rfl, rfl, by decide +kernel, ⟨by decide, .inr (by decide +kernel)⟩, ?_, ⟨by decide +kernel, by decide +kernel⟩, by decide +kernel⟩
  rintro i h ⟨hi, hm⟩
  have : ∀ k < 16, 0 < k → ¬ ((1#1 : BitVec 1) = 0 ∨ (1#16).getLsbD k = true) := by decide
  exact this i hi h hm
/-- A load behind a store of the same byte, of another byte, and with nothing staged. -/
theorem witness_LocalAccessRules :
    [((0x100 : Nat), (7 : Byte))][0]? = some (bodyOffset (loaded 0 0) 0x100, 7) ∧ (∀ q ∈ [((0x100 : Nat), (7 : Byte))], q.1 ≠ bodyOffset (loaded 0 0) 0x101) ∧
    (start (loaded 0 0) 0).bytes = [] ∧ bodyOffset (loaded 0 0) 0x100 < 0x70000 ∧ 0 < 8 := by decide +kernel

/-! ## Streams, copies, basin and level instructions at issue (05_core_memory to 15_fabric) -/

/-- The command that a step stages: its operation and completion tag. -/
def cmdOf (i : Instr) (s : State) : Option (CmdOp × Option Nat) :=
  match eff i s with | [.cmd c] => some (c.op, c.tag) | _ => none
/-- A parameter block at 0x200: base 0x1000, 2 elements 8 bytes apart, nothing else. -/
def blocked (x y : W64) : State :=
  onCore (fun c => { c with mem := [(0x201, 0x10), (0x208, 2), (0x20C, 8), (0x210, 1), (0x218, 1), (0x220, 1)] }) (st2 x y)
theorem test_streams :
    (match eff (.stream 1 24 0 0 2 2) (blocked 0x200 0) with
     | [.stream q st] => some (q, { st with block := 0 }) | _ => none) =
      some (0, { Stream.reset with bound := true, fmt := 2, esz := 2, base := 0x1000, cnt := #v[2, 1, 1, 1], str := #v[8, 0, 0, 0] }) ∧
    (abortOf (.stream 1 24 0 0 2 3) (blocked 0x200 0)).map (fun a => a.1) = some 8 ∧ abortOf (.stream 1 24 0 0 2 2) (blocked 0x204 0) = some (8, 0x204) ∧
    abortOf (.stream 1 24 0 0 2 2) (blocked 0x300 0) = some (4, 0) ∧ eff (.strctlUnbind 25 0) st0 = [.strctl 1 0] ∧
    abortOf (.strctlPause 25 0) st0 = some (4, 0) ∧ eff (.strctlDrain 24 0 7) packing = [.drain 0 7 0] := by decide +kernel
theorem test_copies :
    cmdOf (.cpy 1 2 3 1 4) (onWork (fun w => { w with s := vset w.s 4 64 }) (st2 (2 ^ 62) 0x100)) = some (.cpy (2 ^ 62) 0x100 64, some 3) ∧
    abortOf (.cpy 1 2 3 1 4) (st2 (2 ^ 62) 0x100) = some (9, 0) ∧
    abortOf (.cpy 1 2 3 1 4) (onWork (fun w => { w with s := vset w.s 4 0x1000001 }) (st2 (2 ^ 62) 0x100)) = some (9, 0x1000001) ∧
    cmdOf (.cpy2 1 3 0) (onCore (fun c => { c with mem := [(0x107, 0x40), (0x109, 2), (0x110, 16), (0x114, 2), (0x118, 32), (0x11C, 16)] }) (st2 0x100 0)) =
      some (.cpy2 (2 ^ 62) 0x200 16 2 32 16, none) ∧
    abortOf (.cpy2 1 3 0) (st2 0x100 0) = some (9, 0) ∧
    reqOf (.publish 31 3 1 5) st0 = some (.publish 5 (some 3), 0, 0, false) ∧ abortOf (.publish 1 3 1 5) (st2 (2 ^ 62) 0) = some (9, 2 ^ 62) ∧
    cmdOf (.pfetch 1 2 3 0) (st2 (2 ^ 62) 64) = some (.pfetch (2 ^ 62) 64, none) ∧ cmdOf (.pfetch 1 2 3 0) (st2 64 64) = some (.pfetch 64 0, none) := by
  decide +kernel
/-- Accumulator 0 in slot 3. -/
def mapped (x y : W64) : State := onCtx (fun c => { c with amap := 0xB }) (st2 x y)
/-- The basin command that a step stages. -/
def basinCmd (i : Instr) (s : State) : Option BasinOp := match eff i s with | [.basin b] => some b.op | _ => none
theorem test_matrix :
    [basinCmd (.mma 1 2 0 0 2 2 16 15 15 0 0 0) (mapped 0x1000 0x2000), basinCmd (.mmaz 1 2 0 0 3 3 16 0 0 0 1 5) (mapped 0x1000 0x2000),
     basinCmd (.mmat 1 2 0 0 0 0 64 0 0 1 0 0) (mapped 0x1000 0x2000), basinCmd (.mmai8 1 2 0 0 0 0 64 0 0 0 0 0) (mapped 0x1000 0x2000),
     basinCmd (.mmamx 1 2 0 0 5 7 32 0 0 0 0 0) (mapped (0x3000 * 2 ^ 32 + 0x1000) (0x3004 * 2 ^ 32 + 0x2000))] =
      [some (.mma 0 3 2 2 16 16 16 false false 0 (.mem 0x1000 0) (.mem 0x2000 0)), some (.mma 1 3 3 3 16 1 1 false true 5 (.mem 0x1000 0) (.mem 0x2000 0)),
       some (.mma 2 3 0 0 64 1 1 true false 0 (.mem 0x1000 0) (.mem 0x2000 0)), some (.mma 3 3 0 0 64 1 1 false false 0 (.mem 0x1000 0) (.mem 0x2000 0)),
       some (.mma 4 3 5 7 32 1 1 false false 0 (.mem 0x1000 0x3000) (.mem 0x2000 0x3004))] := by decide +kernel
/-- No slot mapped, an illegal format pair, K past 512 bits of rows, a misaligned tile, a full queue. -/
theorem test_matrix_checks :
    [abortOf (.mma 1 2 0 1 2 2 16 15 15 0 0 0) (mapped 0x1000 0x2000), abortOf (.mma 1 2 0 0 2 3 16 15 15 0 0 0) (mapped 0x1000 0x2000),
     abortOf (.mma 1 2 0 0 2 2 129 15 15 0 0 0) (mapped 0x1000 0x2000), abortOf (.mma 1 2 0 0 2 2 16 15 15 0 0 0) (mapped 0x1020 0x2000),
     abortOf (.mmaz 1 2 0 0 3 3 16 0 0 1 1 5) (mapped 0x1000 0x2000),
     abortOf (.accz 0 0 0) (onCore (fun c => { c with bq := List.replicate 9 ⟨0, 0xE6, false, .accz 0 .fp32, false, []⟩ }) (mapped 0 0))] =
      [some (4, 0), some (4, 0), some (4, 0), some (8, 0x1020), some (4, 0), some (0x0C, 0)] := by decide +kernel
theorem test_basin_commands :
    basinCmd (.accrd 0 0 5 1 14 0 1) (mapped 0 0) = some (.accrd 3 5 1 15 0 true) ∧ abortOf (.accrd 0 0 5 2 14 0 1) (mapped 0 0) = some (4, 0) ∧
    abortOf (.accrd 0 0 5 1 14 1 1) (mapped 0 0) = some (4, 0) ∧ basinCmd (.accwr 1 0 0 1 2 3) (mapped 0x1000 0) = some (.accwr 3 .int32 2 4 0x1000) ∧
    abortOf (.accwr 1 0 0 3 2 3) (mapped 0x1000 0) = some (4, 0) ∧ basinCmd (.accz 0 0 2) (mapped 0 0) = some (.accz 3 .fp64) ∧
    basinCmd (.abftcfg 0 1 0) (mapped 0 0) = some (.abftcfg true false) ∧ abortOf (.epicfg 1 0 0) (mapped 0x1000 0) = some (4, 0) ∧
    basinCmd (.epicfg 1 0 4) (mapped 0x1000 0) = some (.epicfg 4 0) ∧ sreg (.bqstat 3 31 0 0 0) 3 st0 = 8 ∧
    sreg (.bqstat 3 31 0 1 0) 3 st0 = 0x03030303 ∧ eff (.bqstat 3 31 0 7 1) st0 = [.clearBasin 5] ∧ abortOf (.bqstat 3 31 0 8 0) st0 = some (4, 0) := by
  decide +kernel
/-- Barrier 2 of cluster 0 with slot 0 of core 0 a member; channel 1 bound to it; tree 3 with a local entry; a handler chain of it. -/
def joined : State :=
  let s := onCore (fun c => { c with bmem := 4, trn := vset c.trn 3 0xC000 }) (st2 9 0)
  let p := { PairCh.reset with v := true }
  setCluster s 0 { clusterOf s 0 with bar := vset (clusterOf s 0).bar 2 { Barrier.reset with v := true }, pch := vset (clusterOf s 0).pch 1 p }
theorem test_cluster_commands :
    eff (.bar 2 9 1) joined = [.barrier 2 (some 9) none 0] ∧ eff (.bart 1 2 9 10) joined = [.barrier 2 (some 9) (some 10) 9] ∧
    abortOf (.bar 3 9 1) joined = some (4, 0) ∧ abortOf (.bart 1 2 9 9) joined = some (4, 0) ∧ abortOf (.bart 31 2 9 10) joined = some (4, 0) ∧
    cmdOf (.red 1 3 0 0 1 5) joined = some (.red 3 0 false true 5 9 false, none) ∧ abortOf (.red 1 2 0 0 1 5) joined = some (4, 0) ∧
    abortOf (.red 1 3 12 0 1 5) joined = some (4, 0) ∧ cmdOf (.pairx 2 1 5) joined = some (.pairx 1 5 0 0 0, none) ∧
    abortOf (.pairx 2 2 5) joined = some (4, 0) ∧ eff (.sluice 1) joined = [.sluice 9] ∧ abortOf (.sluice 1) (low joined) = some (0x0A, 0) ∧
    abortOf (.hfwd 2) (low joined) = some (0x0A, 0) := by decide +kernel
/-- The example of 10_die: the reset point 11 and 1.25 GHz; a weir of 256. -/
theorem test_die_commands :
    sreg (.vfreq 31 3 31 0) 3 st0 = 11 * 512 + 125 ∧ sreg (.weir 31 3 31 0) 3 st0 = 256 ∧ eff (.vfreq 1 3 31 0) (st2 (9 * 512 + 100) 0) = [.vfreq 9 100] ∧
    abortOf (.vfreq 1 3 31 0) (st2 39 0) = some (4, 0) ∧ abortOf (.vfreq 1 3 31 0) (st2 161 0) = some (4, 0) ∧ eff (.weir 1 3 31 0) (low (st2 16 0)) = [.weir 16] ∧
    abortOf (.weir 1 3 31 0) (st2 257 0) = some (4, 0) ∧ sreg (.bandrd 1 3 31 0) 3 (setDie (st2 0x2307 0) 0 { Die.reset with band := [(72 * 3 + 36 + 35, 5)] }) = 5 ∧
    abortOf (.bandrd 1 3 31 0) (st2 0x2400 0) = some (4, 0) ∧ sreg (.toffrd 1 3 31 0) 3 (setDie (st2 63 0) 63 { Die.reset with off := 6, unc := 1 }) = 2 ^ 48 + 6 ∧
    abortOf (.toffrd 1 3 31 0) (st2 64 0) = some (4, 0) := by decide +kernel
theorem test_reservoir_commands :
    (let s := fun (x y n : W64) => onWork (fun w => { w with s := vset w.s 4 n }) (st2 x y)
     cmdOf (.rsvld 1 2 0 7 1 4) (s 0x40 0x1000 128) = some (.rsvld 0x40 0x1000 128, some 7) ∧ abortOf (.rsvld 1 2 0 7 1 4) (s 0x40 0x1000 63) = some (4, 0) ∧
     abortOf (.rsvld 1 2 0 7 1 4) (s 0x41 0x1000 128) = some (8, 0x41) ∧ abortOf (.rsvld 1 2 0 7 1 4) (s 0x6000000 0x1000 128) = some (9, 0x6000000)) ∧
    cmdOf (.rsvcfgPart 1 0 7 0) (st2 32 0) = some (.rsvPart 32, none) ∧ abortOf (.rsvcfgPart 1 0 7 0) (st2 33 0) = some (4, 0) ∧
    cmdOf (.rsvcfgDrop 31 0 7 1) st0 = some (.rsvDrop, some 7) ∧ abortOf (.rsvcfgDrop 31 0 7 1) (low st0) = some (0x0A, 0) := by decide +kernel
/-- Group 9 of configuration 0, with branches; filter 1 of core 0 names it for slot 0. -/
def grouped9 (x y : W64) : State :=
  let s := onCore (fun c => { c with cgf := vset c.cgf 1 (2 ^ 63 + 9 * 2 ^ 55) }) (st2 x y)
  setGroup s 9 { Group.reset with cfg := 2 ^ 63, br := 1 }
theorem test_cascade_commands :
    cmdOf (.cgsend 1 2 9 6 1 1 0 3 1) (grouped9 0x40 (2 ^ 32 + 256)) = some (.cgsend 9 0x40 256 128 0 true false true 3 false, some 6) ∧
    abortOf (.cgsend 1 2 9 6 1 1 0 3 1) (grouped9 0x41 (2 ^ 32 + 256)) = some (8, 0x41) ∧ abortOf (.cgsend 1 2 8 6 1 1 0 3 1) (grouped9 0x40 256) = some (4, 0) ∧
    abortOf (.cgsend 1 2 9 6 1 2 0 3 1) (grouped9 0x40 256) = some (4, 0) ∧ cmdOf (.cgsend 1 2 9 6 0 0 0 3 0) (grouped9 (2 ^ 62) 64) = some (.cgsend 9 (2 ^ 62) 64 64 0 false false false 3 false, none) ∧
    cmdOf (.cgwake 9 6 1) (grouped9 0 0) = some (.cgwake 9, some 6) ∧ abortOf (.cgwake 8 6 1) (grouped9 0 0) = some (4, 0) ∧
    eff (.cgrant 9 1) (grouped9 0 0) = [.grant 9 true] ∧ abortOf (.cgrant 8 1) (grouped9 0 0) = some (4, 0) := by decide +kernel
theorem test_cascade_configuration :
    abortOf (.cgrel 1 0) st0 = some (4, 0) ∧ eff (.cgrel 1 0) (onCore (fun c => { c with rx := vset c.rx 7 { RxSlot.reset with st := .popped } }) st0) = [.release 1 1] ∧
    eff (.cgcfgFilter 1 3) (st2 5 0) = [.filter 3 5] ∧ abortOf (.cgcfgFilter 1 4) st0 = some (4, 0) ∧ eff (.cgcfgPort 1 1) (st2 5 0) = [.rxPort 1 5] ∧
    abortOf (.cgcfgPort 1 2) st0 = some (4, 0) ∧ eff (.cgcfgDepth 1 255) (st2 4 0) = [.depth 255 4] ∧ abortOf (.cgcfgDepth 1 255) (st2 5 0) = some (4, 0) ∧
    abortOf (.cgcfgDepth 1 255) (low (st2 4 0)) = some (0x0A, 0) ∧ sreg (.cgstat 1 3 31 0 1) 3 (grouped9 1 0) = 2 ^ 63 + 9 * 2 ^ 55 ∧
    abortOf (.cgstat 1 3 31 0 0) (st2 2 0) = some (4, 0) ∧ abortOf (.cgstat 1 3 31 0 5) st0 = some (4, 0) := by decide +kernel
theorem test_region_commands :
    eff (.eos 0 1) st0 = [.end_] ∧ abortOf (.eos 0 0) st0 = some (4, 0) ∧ abortOf (.eos 1 0) st0 = some (4, 0) ∧
    (eff (.eos 2 0) (onCtx (fun x => { x with binds := vset x.binds 1 (some { x := 0, y := 0, cx := 1, depth := 4, credits := 1 }) }) st0)).length = 1 ∧
    cmdOf (.cfgswap 31 1 0 0) (setRegion st0 0 { Region.reset with st := .running, shadow := true }) = some (.cfgswap 0 true, none) ∧
    abortOf (.cfgswap 31 1 0 0) st0 = some (4, 0) ∧ cmdOf (.cfgswap 1 0 7 1) (setRegion (st2 511 0) 511 { Region.reset with st := .running, shadow := true }) = some (.cfgswap 511 false, some 7) ∧
    eff (.gbar 3 1) st0 = [.gbar (some 3)] ∧ eff (.gbar 3 0) st0 = [.gbar none] ∧ cmdOf (.statred 3 6 1 5) st0 = some (.statred 3 6 true 5, none) ∧
    abortOf (.statred 3 7 1 5) st0 = some (4, 0) ∧ abortOf (.statred 0 13 1 5) st0 = some (4, 0) := by decide +kernel
/-- QSTAT of an ACTIVE queue by its owner and by another; of a region by its words (12_package_launch, R322, R332, R353). -/
theorem test_queue_status :
    sreg (.qstat 1 3 31 0 0) 3 (setQueue (st2 6 0) 6 { Queue.reset with st := .active, cidx := 2, ridx := 3 }) = 2 ^ 61 + 2 * 2 ^ 16 + 3 ∧
    abortOf (.qstat 1 3 31 0 0) (low (st2 6 0)) = some (0x0A, 0) ∧ sreg (.qstat 1 3 31 0 0) 3 (low (st2 0 0)) = 0 ∧ abortOf (.qstat 1 3 31 0 0) (st2 2048 0) = some (4, 0) ∧
    sreg (.qstat 31 3 31 0 2) 3 (setRegion st0 0 { Region.reset with st := .running, w := 2, h := 1, queue := 6 }) = 2 ^ 63 + 2 * 2 ^ 60 + 2 ^ 34 + 6 ∧
    sreg (.qstat 31 3 31 0 2) 3 st0 = 0 ∧ sreg (.qstat 31 3 31 0 1) 3 (setRegion st0 0 { Region.reset with sstep := 5, dup := true }) = 5 * 2 ^ 32 + 2 ^ 25 ∧
    abortOf (.qstat 1 3 31 0 1) (st2 1 0) = some (4, 0) ∧ abortOf (.qstat 31 3 31 0 3) st0 = some (4, 0) := by decide +kernel
theorem test_external_memory_commands :
    cmdOf (.migrate 1 2 3 1) (st2 (2 ^ 62) (2 ^ 63 + 2 ^ 58)) = some (.migrate (2 ^ 62) (2 ^ 63 + 2 ^ 58), some 3) ∧ abortOf (.migrate 1 2 3 1) (low st0) = some (0x0A, 0) ∧
    abortOf (.migrate 1 2 3 1) (st2 0 (2 ^ 63 + 2 ^ 58)) = some (9, 0) ∧ cmdOf (.tlbinvPage 1 2 3 1) (st2 0x1000 2047) = some (.tlbinv 0 0x1000 2047, some 3) ∧
    abortOf (.tlbinvPage 1 2 3 1) (st2 0x1000 2048) = some (4, 0) ∧ cmdOf (.tlbinvQueue 2 3 1) (st2 0 5) = some (.tlbinv 1 0 5, some 3) ∧
    cmdOf (.tlbinvAll 3 0) st0 = some (.tlbinv 2 0 0, none) ∧ abortOf (.tlbinvAll 3 0) (low st0) = some (0x0A, 0) ∧
    cmdOf (.compattrQuery 1 2 5 0) (low (st2 (2 ^ 62 + 128) 0)) = some (.compattr 0 (2 ^ 62 + 128) false 5 false, none) ∧ abortOf (.compattrQuery 1 2 5 0) (st2 (2 ^ 62 + 64) 0) = some (8, 2 ^ 62 + 64) := by
  decide +kernel
theorem test_compression_commands :
    cmdOf (.compattrSet 1 2 5 1) (st2 (2 ^ 62) 1) = some (.compattr 1 (2 ^ 62) true 0 false, some 5) ∧ abortOf (.compattrSet 1 2 5 1) (st2 (2 ^ 62) 2) = some (4, 0) ∧
    cmdOf (.compattrRecomp 1 2 5 1) (st2 (2 ^ 62) 0) = some (.compattr 2 (2 ^ 62) false 0 false, some 5) ∧ abortOf (.compattrRecomp 1 2 5 1) (st2 0 0) = some (9, 0) ∧
    abortOf (.xstr 1 3 1) (st2 0x104 0) = some (8, 0x104) ∧ abortOf (.xstr 1 3 1) (st2 0x100 0) = some (4, 0) := by decide +kernel
/-- Schedule 12 defined; port operands at their limits; the identity and a port that is DARK (15_fabric, R393, R401). -/
theorem test_fabric_commands :
    (let s := fun (x y : W64) => (let t := st2 x y
       { t with fab := { Fabric.reset with cst := [(12, { Sched.reset with w0 := 2 ^ 63 })], id := 5, idV := true } })
     [cmdOf (.coll 1 12 9 1) (s (2 ^ 62) 0), cmdOf (.fportQuiesce 1 2 9 0) (s 47 0xFFFF), cmdOf (.fportTrain 1 2 9 0) (s 0 0xFF03FF),
      cmdOf (.fportCycle 1 2 9 0) (s 0 0x12F0000)] =
       [some (.coll 12 (2 ^ 62), some 9), some (.fport 0 47 0xFFFF, none), some (.fport 1 0 0xFF03FF, none), some (.fport 2 0 0x12F0000, none)] ∧
     [abortOf (.coll 1 11 9 1) (s (2 ^ 62) 0), abortOf (.coll 1 12 9 1) (s (2 ^ 62 + 1) 0), abortOf (.fportTrain 1 2 9 0) (s 48 0), abortOf (.fportTrain 1 2 9 0) (s 0 0x400),
      abortOf (.fportTrain 1 2 9 0) (low (s 0 0)), abortOf (.routesw 9 1) (low (s 0 0)), abortOf (.fstat 1 3 31 0 5) (s 0 0)] =
       [some (4, 0), some (8, 2 ^ 62 + 1), some (4, 0), some (4, 0), some (0x0A, 0), some (0x0A, 0), some (4, 0)] ∧
     (match eff (.routesw 9 1) (s 0 0) with | [.arm c] => some (c.op, c.tag) | _ => none) = some (.routesw, some 9) ∧
     [sreg (.fstat 1 3 31 0 4) 3 (s 0 0), sreg (.fstat 1 3 31 0 0) 3 (s 63 0), sreg (.fstat 1 3 31 0 1) 3 (s 0 0)] = [2 ^ 63 + 5, 0, 0]) := by
  decide +kernel

/-! ## States that meet the hypotheses: requests, commands and level instructions -/

/-- A small address in HBM's virtual space, in a core, in the other space; a misaligned one, one out of the part, a privileged one. -/
theorem witness_remote_checks :
    Remote (st2 0 0) (2 ^ 62) 8 8 (.inl (2 ^ 62)) ∧ Remote (st2 0 0) 0x40 64 64 (.inl 0x40) ∧ Remote (st2 0 0) 4 8 8 (.inr (0x08, 4)) ∧
    Remote (st2 0 0) (288 * 2 ^ 52) 8 8 (.inr (0x09, 288 * 2 ^ 52)) ∧ Remote (low (st2 0 0)) (2 ^ 63) 8 8 (.inr (0x0A, 2 ^ 63)) ∧
    Remote (st2 0 0) (2 ^ 63 + 2 ^ 58) 8 8 (.inl (2 ^ 63 + 2 ^ 58)) := by
  refine ⟨?_, ?_, ?_, ?_, ?_, ?_⟩
  · rw [Remote, show checkedPlace { bodyCtx (st2 0 0) with priv := true } (2 ^ 62) 8 = some (2 ^ 62) by decide +kernel]
    dsimp only
    rw [if_neg (by decide +kernel)]
    exact .inr ⟨fun h => absurd h (by decide +kernel), .inr ⟨by decide +kernel, rfl⟩⟩
  · rw [Remote, show checkedPlace { bodyCtx (st2 0 0) with priv := true } 0x40 64 = some 0x40 by decide +kernel]
    dsimp only
    rw [if_neg (by decide +kernel)]
    exact .inr ⟨fun h => absurd h (by decide +kernel), .inr ⟨by decide +kernel, rfl⟩⟩
  · rw [Remote, show checkedPlace { bodyCtx (st2 0 0) with priv := true } 4 8 = some 4 by decide +kernel]
    dsimp only
    rw [if_neg (by decide +kernel)]
    exact .inr ⟨fun h => absurd h (by decide +kernel), .inl ⟨by decide +kernel, rfl⟩⟩
  · rw [Remote, show checkedPlace { bodyCtx (st2 0 0) with priv := true } (288 * 2 ^ 52) 8 = none by decide +kernel]
  · rw [Remote, show checkedPlace { bodyCtx (low (st2 0 0)) with priv := true } (2 ^ 63) 8 = some (2 ^ 63) by decide +kernel]
    dsimp only
    rw [if_pos (by decide +kernel)]
  · rw [Remote, show checkedPlace { bodyCtx (st2 0 0) with priv := true } (2 ^ 63 + 2 ^ 58) 8 = some (2 ^ 63 + 2 ^ 58) by decide +kernel]
    dsimp only
    rw [if_neg (by decide +kernel)]
    exact .inr ⟨fun _ => .inr (.inl ⟨by decide +kernel, by decide +kernel, by decide +kernel⟩), .inr ⟨by decide +kernel, rfl⟩⟩
theorem witness_RemoteRequests :
    Disarmed (st2 (2 ^ 62) 9) ∧ Gives (readS (st2 (2 ^ 62) 9) 1#5 (keepIn 0)) (start (st2 (2 ^ 62) 9) 0xC8) (2 ^ 62, 0) (start (st2 (2 ^ 62) 9) 0xC8) ∧
    Gives (readS (st2 (2 ^ 62) 9) 2#5 (keepIn 0)) (start (st2 (2 ^ 62) 9) 0xC8) (9, 0) (start (st2 (2 ^ 62) 9) 0xC8) ∧
    offsetBy (2 ^ 62 : W64) (0 : BitVec 20) = 2 ^ 62 ∧ PortRoom (st2 (2 ^ 62) 9) (start (st2 (2 ^ 62) 9) 0xC8) ∧
    8 ≤ (bodyCtx (onCtx (fun x => { x with cpUsed := 8 }) (st2 0 0))).cpUsed ∧
    32 ≤ (start (onWork (fun w => { w with entries := 32 }) (st2 0 0)) 0xC8).entries ∧ (2#2).toNat ∈ [2, 3] ∧ (1#2).toNat ∉ [2, 3] :=
  ⟨rfl, rfl, rfl, by decide +kernel, ⟨by decide +kernel, by decide +kernel⟩, by decide +kernel, by decide +kernel, by decide +kernel, by decide +kernel⟩
/-- The parameter block of test_streams reads as it stands, is sound, and spans classes of the rule; a bound and an unbound stream. -/
theorem witness_stream_block :
    (let s := blocked 0x200 0
     let w := start s 0xCC
     Sound s 0x200 48 ∧ BlockReads s w 0x200 0x1000 0 0 #v[2, 1, 1, 1] #v[8, 0, 0, 0] ∧
     SpanInClasses s w (least 0x1000 #v[2, 1, 1, 1] #v[8, 0, 0, 0]) (greatest 0x1000 #v[2, 1, 1, 1] #v[8, 0, 0, 0] + bytesOf 2)) ∧
    (vget (bodyCtx packing).q 0 Stream.reset).bound = true ∧ (vget (bodyCtx st0).q 0 Stream.reset).bound = false := by
  refine ⟨⟨?_, ⟨⟨by decide +kernel, by decide +kernel⟩, ⟨by decide +kernel, by decide +kernel⟩, ⟨by decide +kernel, by decide +kernel⟩, ?_⟩, ?_⟩, by decide +kernel, by decide +kernel⟩
  · intro i _ _
    rw [show (bodyCore (blocked 0x200 0)).eccUe = [] by decide +kernel]
    exact List.not_mem_nil
  · intro k
    exact ⟨⟨by revert k; decide +kernel, by revert k; decide +kernel⟩, ⟨by revert k; decide +kernel, by revert k; decide +kernel⟩⟩
  · refine ⟨by decide +kernel, by decide +kernel, fun b _ hb => inClass_of rfl (by decide +kernel) ?_⟩
    have : greatest 0x1000 #v[2, 1, 1, 1] #v[8, 0, 0, 0] + bytesOf 2 = 0x1010 := by decide +kernel
    omega
/-- Lengths of copies at both ends of their ranges; PUBLISH of the own core; PFETCH of HBM and of another space. -/
theorem witness_EngineCommands :
    (1 ≤ (64 : W64).toNat ∧ (64 : W64).toNat ≤ 2 ^ 24) ∧ 2 ^ 24 < (0x1000001 : W64).toNat ∧ Remote (st2 0 0) (2 ^ 62) 64 1 (.inl (2 ^ 62)) ∧
    (let s := onCore (fun c => { c with mem := [(0x107, 0x40), (0x109, 2), (0x110, 16), (0x114, 2), (0x118, 32), (0x11C, 16)] }) (st2 0x100 0)
     let w := start s 0xCF
     ReadsAs s w 0x100 8 (2 ^ 62) ∧ ReadsAs s w 0x108 8 0x200 ∧ ReadsAs s w 0x110 4 16 ∧ ReadsAs s w 0x114 4 2 ∧ ReadsAs s w 0x118 4 32 ∧ ReadsAs s w 0x11C 4 16) ∧
    field (word ((bodyCtx st0).lx * 2 ^ 52 + (bodyCtx st0).ly * 2 ^ 44)) 62 2 = 0 ∧ field (2 ^ 62 : W64) 62 2 = 1 ∧ PortRoom st0 (start st0 0xD1) := by
  refine ⟨by decide +kernel, by decide +kernel, ?_, ⟨⟨by decide +kernel, by decide +kernel⟩, ⟨by decide +kernel, by decide +kernel⟩, ⟨by decide +kernel, by decide +kernel⟩, ⟨by decide +kernel, by decide +kernel⟩,
    ⟨by decide +kernel, by decide +kernel⟩, ⟨by decide +kernel, by decide +kernel⟩⟩, by decide +kernel, by decide +kernel, ⟨by decide +kernel, by decide +kernel⟩⟩
  rw [Remote, show checkedPlace { bodyCtx (st2 0 0) with priv := true } (2 ^ 62) 64 = some (2 ^ 62) by decide +kernel]
  dsimp only
  rw [if_neg (by decide +kernel)]
  exact .inr ⟨fun h => absurd h (by decide +kernel), .inr ⟨by decide +kernel, rfl⟩⟩
/-- A range of data memory passes the checks of a context whose class 0 is all data memory. -/
theorem verdict_inside {s : State} {w : Work} {a : W64} {n al : Nat} (hb : w.hdrB.getLsbD 40 = true) (hf : field w.hdrB 40 8 ≠ 0)
    (hm : vget (bodyCtx s).mcls 0 0 = 0x802FF800) (ha : a.toNat % al = 0) (hn : a.toNat + n ≤ 0x60000)
    (hw : (windowOf s (bodyCtx s).lx (bodyCtx s).ly).2 = 0x60000) : Verdict s w a n al none := by
  rw [Verdict, if_neg (by omega), if_neg (by omega), if_neg (by omega)]
  refine .inr (.inr ⟨.inr ⟨hf, hn, fun i hi => inClass_of hb hm (by omega)⟩, ?_, rfl⟩)
  rw [PastWindow, hw]
  omega
theorem witness_MatrixCommands :
    (let s := mapped 0x1000 0x2000
     let w := started (start s 0xE0)
     Disarmed s ∧ BasinHint s ∧ QueueRoom s (start s 0xE0) ∧ MatrixFits 0 2 2 16 16 0 ∧ MappedTo s 0 3 ∧
     OperandA s false 1#5 2 16 16 w (.mem 0x1000 0) w ∧ OperandB s 0 2#5 2 16 16 w (.mem 0x2000 0) w ∧ w.entries < 32) ∧
    ¬ QueueRoom (onCore (fun c => { c with bq := List.replicate 9 ⟨0, 0xE6, false, .accz 0 .fp32, false, []⟩ }) (mapped 0 0))
      (start (onCore (fun c => { c with bq := List.replicate 9 ⟨0, 0xE6, false, .accz 0 .fp32, false, []⟩ }) (mapped 0 0)) 0xE0) ∧
    ¬ MatrixFits 0 2 3 16 16 0 ∧ ∀ j, ¬ MappedTo (st2 0 0) 0 j := by
  refine ⟨⟨rfl, rfl, ?_, ?_, ?_, .inl ⟨by decide +kernel, rfl, verdict_inside rfl (by decide +kernel) (by decide +kernel) (by decide +kernel) (by decide +kernel) (by decide +kernel), rfl, rfl⟩,
    .inl ⟨by decide +kernel, by decide +kernel, verdict_inside rfl (by decide +kernel) (by decide +kernel) (by decide +kernel) (by decide +kernel) (by decide +kernel), rfl, rfl⟩, by decide +kernel⟩, ?_, ?_, ?_⟩
  · rw [QueueRoom]; decide +kernel
  · rw [MatrixFits, Formats]; decide +kernel
  · rw [MappedTo]; decide +kernel
  · rw [QueueRoom]; decide +kernel
  · rw [MatrixFits, Formats]; decide +kernel
  · rintro j ⟨h, -⟩
    rw [show (bodyCtx (st2 0 0)).amap = 0 by decide +kernel] at h
    revert h
    simp
    omega
/-- An empty descriptor is a chain of no stage; rows 1 to 15; a destination and a chain; a cleared counter. -/
theorem witness_BasinConfigurationAndStatus :
    (let s := mapped 0x1000 0
     Disarmed s ∧ BasinHint s ∧ MappedTo s 0 3 ∧ QueueRoom s (start s 0xE4) ∧ QueueRoom s (start s 0xE7) ∧ Sound s 0x1000 32 ∧
     ReadsAs s (started (start s 0xE7)) 0x1000 32 0 ∧ ChainFits 0 ∧ RangesFit s (started (start s 0xE7)) 0 ∧
     Verdict s (started (start s 0xE7)) 0x1000 32 8 none) ∧
    ¬ ChainFits 8 ∧ (1#4).toNat + (14#4).toNat ≤ 15 ∧ 15 < (2#4).toNat + (14#4).toNat ∧ 8 ≤ (8#4).toNat ∧ 2 ≤ (2#4).toNat := by
  have hr : ∀ v, Verdict (mapped 0x1000 0) (started (start (mapped 0x1000 0) 0xE7)) 0x1000 v 8 none ∨ 0x5F000 < v := fun v => by
    by_cases h : 0x5F000 < v
    · exact .inr h
    · exact .inl (verdict_inside rfl (by decide +kernel) (by decide +kernel) (by decide +kernel) (by show 0x1000 + v ≤ _; omega) (by decide +kernel))
  refine ⟨⟨rfl, rfl, ?_, ?_, ?_, ?_, ⟨by decide +kernel, by decide +kernel⟩, ?_, ?_, (hr 32).resolve_right (by decide +kernel)⟩, ?_, by decide +kernel, by decide +kernel, by decide +kernel, by decide +kernel⟩
  · rw [MappedTo]; decide +kernel
  · rw [QueueRoom]; decide +kernel
  · rw [QueueRoom]; decide +kernel
  · intro i _ _
    rw [show (bodyCore (mapped 0x1000 0)).eccUe = [] by decide +kernel]
    exact List.not_mem_nil
  · rw [ChainFits]; decide +kernel
  · rw [RangesFit]
    refine ⟨fun h => absurd h (by decide +kernel), fun h => absurd h (by decide +kernel), fun h => absurd h (by decide +kernel)⟩
  · rw [ChainFits]; decide +kernel
/-- Barrier 2 and channel 1 are open to the context, barrier 3 and channel 2 not; tree 3 has a local entry for it; timeouts at both ends. -/
theorem witness_ClusterCommands :
    ((vget (clusterOf joined (clusterKey joined.stage.core)).bar 2 Barrier.reset).v = true ∧ (bodyCore joined).bmem.getLsbD 2 = true ∧
      (bodyCtx joined).barPend.getLsbD 2 = false) ∧ ¬ (bodyCore joined).bmem.getLsbD 3 = true ∧ ((9 : W64) ≠ 0 ∧ (9 : W64).toNat < 2 ^ 32) ∧
    2 ^ 32 ≤ (2 ^ 32 : W64).toNat ∧ (vget (bodyCore joined).trn 3 0).toNat = 2 ^ 15 + 2 ^ 14 ∧ (vget (bodyCore joined).trn 2 0).toNat = 0 ∧
    (vget (clusterOf joined 0).pch 1 PairCh.reset).v = true ∧ (vget (clusterOf joined 0).pch 1 PairCh.reset).armed = false ∧
    (vget (clusterOf joined 0).pch 2 PairCh.reset).v = false ∧ PortRoom joined (start joined 0xF0) ∧
    Privileged joined ∧ Unprivileged (low joined) ∧ chainPosition joined 0 0 = none ∧
    chainPosition (setCluster joined 0 { clusterOf joined 0 with hch := 2 ^ 63 }) 0 0 ≠ none :=
  ⟨by decide +kernel, by decide +kernel, by decide +kernel, by decide +kernel, by decide +kernel, by decide +kernel, by decide +kernel,
    by decide +kernel, by decide +kernel, ⟨by decide +kernel, by decide +kernel⟩, rfl, rfl, by decide +kernel, by decide +kernel⟩
theorem witness_DieCommands :
    (let x : W64 := 0x2307
     field x 14 50 = 0 ∧ field x 3 5 = 0 ∧ field x 8 6 ≤ 35 ∧ field x 0 2 % 2 = 1) ∧ field (0x2300 : W64) 8 6 = 35 ∧ (63 : W64).toNat < 64 ∧
    (field (160 : W64) 13 51 = 0 ∧ field (40 : W64) 0 9 = 40 ∧ field (160 : W64) 0 9 = 160) ∧ (16 : W64).toNat = 16 ∧ 256 < (257 : W64).toNat ∧
    (let s := onWork (fun w => { w with s := vset w.s 4 0x5FFC0 }) (st2 (0x6000000 - 0x5FFC0) 0x40)
     Verdict s (start s 0xF1) 0x40 0x5FFC0 64 none ∧ 64 ≤ (vget (start s 0xF1).s 4 0).toNat ∧ (vget (start s 0xF1).s 4 0).toNat ≤ 0x60000 ∧
     (vget (start s 0xF1).s 1 0).toNat + 0x5FFC0 ≤ (dieOf s (dieKey s.stage.core)).p * (6 * 2 ^ 20)) ∧
    Privileged st0 ∧ Unprivileged (low st0) ∧ (32 : W64).toNat ≤ 32 ∧ PortRoom st0 (start st0 0xF1) :=
  ⟨by decide +kernel, by decide +kernel, by decide +kernel, by decide +kernel, by decide +kernel, by decide +kernel,
    ⟨verdict_inside rfl (by decide +kernel) (by decide +kernel) (by decide +kernel) (by decide +kernel) (by decide +kernel), by decide +kernel,
      by decide +kernel, by decide +kernel⟩, rfl, rfl, by decide +kernel, ⟨by decide +kernel, by decide +kernel⟩⟩
/-- Group 9 is the context's, group 8 is not; a block that fits; a region that may swap and one that may not; ports bound with a credit. -/
theorem witness_CascadeAndRegionCommands :
    (let s := grouped9 0x40 (2 ^ 32 + 256)
     (groupOf s 9).cfg.getLsbD 63 = true ∧ field (groupOf s 9).cfg 28 12 = (regionOf s (bodyCtx s).region).cfgid.toNat ∧ (groupOf s 9).br ≠ 0 ∧
     ¬ (groupOf s 8).cfg.getLsbD 63 = true ∧ (let y : W64 := 2 ^ 32 + 256
       field y 46 18 = 0 ∧ field y 0 32 ≠ 0 ∧ field y 0 32 % 64 = 0 ∧ field y 39 7 * 64 < (field y 32 7 + 1) * 64) ∧
     (∃ j < 4, (vget (bodyCore s).cgf j 0).getLsbD 63 = true ∧ field (vget (bodyCore s).cgf j 0) 55 8 = 9 ∧ field (vget (bodyCore s).cgf j 0) 52 2 = 0)) ∧
    (let r := regionOf (setRegion st0 0 { Region.reset with st := .running, shadow := true }) 0
     r.st ≠ .free ∧ r.shadow = true ∧ r.swpend = false) ∧ (regionOf st0 0).st = .free ∧
    (let s := onCtx (fun x => { x with binds := vset x.binds 1 (some { x := 0, y := 0, cx := 1, depth := 4, credits := 1 }) }) st0
     ∃ w, EndsPushed s 2 [0, 1, 2, 3] (start s 0xF3) w) ∧
    statsPending (bodyCtx st0) + ((start st0 0xF3).effects.filter isStatred).length < 4 := by
  refine ⟨⟨by decide +kernel, by decide +kernel, by decide +kernel, by decide +kernel, by decide +kernel, ⟨1, by decide +kernel⟩⟩, by decide +kernel,
    by decide +kernel, ⟨_, ⟨_, ⟨{ x := 0, y := 0, cx := 1, depth := 4, credits := 1 }, by decide +kernel, by decide +kernel, by decide +kernel, rfl⟩, rfl⟩⟩, by decide +kernel⟩
theorem witness_ExternalMemoryCommands :
    (field (2 ^ 62 : W64) 62 2 = 1 ∧ field (2 ^ 63 + 2 ^ 58 : W64) 62 2 = 2 ∧ field (2 ^ 63 + 2 ^ 58 : W64) 58 4 = 1) ∧ (2047 : W64).toNat < 2048 ∧
    ((2 ^ 62 + 128 : W64).toNat % 128 = 0 ∧ (2 ^ 62 + 64 : W64).toNat % 128 ≠ 0) ∧ IndirectFits (2 ^ 62 + 2 ^ 126 + 2 ^ 192 + 2 ^ 226) ∧ ¬ IndirectFits 0 ∧
    Privileged st0 ∧ Unprivileged (low st0) ∧ PortRoom st0 (start st0 0xF4) := by
  refine ⟨by decide +kernel, by decide +kernel, by decide +kernel, ?_, ?_, rfl, rfl, ⟨by decide +kernel, by decide +kernel⟩⟩ <;> rw [IndirectFits] <;> decide +kernel
theorem witness_FabricInstructions :
    (let s : State := { st0 with fab := { Fabric.reset with cst := [(12, { Sched.reset with w0 := 2 ^ 63 })] } }
     (tget s.fab.cst Sched.reset 12).w0.getLsbD 63 = true ∧ ¬ (tget s.fab.cst Sched.reset 11).w0.getLsbD 63 = true ∧ s.fab.arm = none ∧ s.fab.sw = false) ∧
    (let y : W64 := 0x12FFFFF
     (47 : W64).toNat ≤ 47 ∧ field y 0 16 = 0xFFFF ∧ field y 16 8 = 0x2F ∧ field y 25 7 = 0 ∧ field y 48 16 = 0) ∧ 47 < (48 : W64).toNat ∧
    (0x3FF : W64).toNat ≤ 1023 ∧ Privileged st0 ∧ Unprivileged (low st0) ∧ PortRoom st0 (start st0 0xF5) := by
  refine ⟨by decide +kernel, by decide +kernel, by decide +kernel, by decide +kernel, rfl, rfl, ⟨by decide +kernel, by decide +kernel⟩⟩

/-! ## Operands, rounds, commits, aborts and traps (01_encoding, 02_rule, 07_core_failures) -/

/-- A context with a token on mn, a token of the other format mode on me, a block on o0, a bound output mn with one credit. -/
def ported : State :=
  let b : Block := { gid := 1, fmt := 2, fm := false, last := true, seq := 0, len := 64, soff := 0, scl := 5, data := [7], crc := 0 }
  onCore (fun c => { c with rx := vset c.rx 2 { RxSlot.reset with st := .full, blk := some b } })
    (onCtx (fun x => { x with inq := vset (vset x.inq 0 [⟨0x10, 9, none⟩]) 1 [⟨0x400, 8, none⟩], blocks := vset x.blocks 0 [2], binds := vset x.binds 0 (some { x := 0, y := 0, cx := 1, depth := 4, credits := 1 }) }) st0)
theorem test_source_operands :
    sreg (.mov 16 3 31 0) 3 ported = 9 ∧ (wk (.mov 16 3 31 0) ported).pops.toList = [1, 0, 0, 0, 0, 0, 0] ∧ abortOf (.mov 17 3 31 0) ported = some (6, 0) ∧
    abortOf (.mov 18 3 31 0) ported = some (4, 0) ∧ sreg (.mov 22 3 31 0) 3 ported = 7 ∧ (wk (.mov 22 3 31 0) ported).pops.toList = [0, 0, 0, 0, 0, 1, 0] ∧
    sreg (.mov 29 3 31 0) 3 (onWork (fun w => { w with tb := 5 }) st0) = 5 ∧ sreg (.mov 30 3 31 0) 3 ported = 2 ^ 18 ∧
    sreg (.mov 28 3 31 0) 3 (onCore (fun c => { c with active := [(0x4600, 6)] }) st0) = 6 ∧
    abortOf (.mov 28 3 31 0) (onWork (fun w => { w with lits := 64 }) st0) = some (9, 64) ∧ abortOf (.mov 24 3 31 0) st0 = some (4, 0) := by decide +kernel
/-- A pushed token takes the receiver's context and its credit; a second push finds none (01_encoding, R31; 02_rule, R57). -/
theorem test_destination_operands :
    eff (.mov 1 16 31 5) (onWork (fun w => { w with s := vset w.s 1 6 }) ported) = [.push 0 { sb := 2 ^ 11 + 2 ^ 5, pay := 6, src := some ⟨0, 0, 0⟩ }] ∧
    abortOf (.mov 1 16 31 0) (onWork (fun w => { w with push := vset w.push 0 1 }) ported) = some (4, 0) ∧ abortOf (.mov 1 17 31 0) ported = some (4, 0) ∧
    eff (.mov 1 24 31 0) packing = [.elem 0 0xA5] ∧ abortOf (.mov 1 25 31 0) packing = some (4, 0) ∧
    abortOf (.mov 1 3 31 0) (onWork (fun w => { w with entries := 32 }) st0) = some (0x0B, 0) ∧ (wk (.mov 1 3 4 0) (st2 6 0)).entries = 2 := by decide +kernel
theorem witness_SourceOperandReads :
    nextToken ported 0 (start ported 0) = some ⟨0x10, 9, none⟩ ∧ nextToken ported 2 (start ported 0) = none ∧
    (0x10 : Sideband).getLsbD 10 = (bodyCtx ported).fm ∧ (0x400 : Sideband).getLsbD 10 ≠ (bodyCtx ported).fm ∧ ¬ ChainRecord ported 1 ⟨0x400, 8, none⟩ ∧
    nextBlock ported 0 (start ported 0) = some 2 ∧ nextBlock ported 1 (start ported 0) = none ∧ ((vget (bodyCore ported).rx 2 RxSlot.reset).blk.map (fun b => b.fm)) = some (bodyCtx ported).fm ∧
    (vget (bodyCtx ported).q 0 Stream.reset).bound = false ∧ field (start ported 0).hdrA 16 6 + (start ported 0).lits ≤ 63 ∧
    (vget (bodyCtx (huffman 0 0 5)).q 0 Stream.reset).fetched[0]? = some ⟨0, 5, none⟩ :=
  ⟨by decide +kernel, by decide +kernel, by decide +kernel, by decide +kernel, fun h => absurd h.1 (by decide), by decide +kernel, by decide +kernel, by decide +kernel,
    by decide +kernel, by decide +kernel, by decide +kernel⟩
theorem witness_DestinationWritesAndSidebands :
    (start ported 0).sD.getLsbD 3 = false ∧ (start ported 0).entries < 32 ∧ (∃ w, Pushes ported 0 6 (fun _ => 0) (start ported 0) w) ∧
    (∃ w, Streams packing 0 6 (start packing 0) w) ∧ vget (bodyCtx ported).binds 1 none = none ∧ (12#4).toNat ≤ 12 ∧ 3 < 4 := by
  refine ⟨by decide +kernel, by decide +kernel, ⟨_, { x := 0, y := 0, cx := 1, depth := 4, credits := 1 }, by decide +kernel, by decide +kernel, by decide +kernel, rfl⟩,
    ⟨_, by decide +kernel, by decide +kernel, by decide +kernel, by decide +kernel, rfl⟩, by decide +kernel, by decide +kernel, by decide⟩
/-- Plane bytes 0x3F000000 at word 0 decode to nothing; an instruction of the body has an effect only on its staging; hints missing. -/
theorem witness_IllegalWordsAbort :
    (let s := onCore (fun c => { c with active := [(3, 0x3F)] }) st0
     s.stage.active = true ∧ bodyOver s = false ∧ (match decode (fetchWords s) with | .error .illegalOpcode => true | _ => false) = true ∧
     abortOf (.nop 0) s = none ∧ ((after (step s)).stage.finished.filterMap (fun f => f.abort)).map (fun a => a.code) = [3]) ∧
    (0xF6000000 : W32).toNat / 2 ^ 24 = 0xF6 ∧ (Instr.add 1 2 3 31 0).isBody = true ∧ encode (.vmov 1 3 31 0) = [(0x400FC7F0 : W32)] ∧
    ¬ VectorHint (onWork (fun w => { w with hdrA := 0 }) st0) ∧ ¬ BasinHint (onWork (fun w => { w with hdrA := 0 }) st0) := by
  refine ⟨by decide +kernel, by decide, rfl, by decide +kernel, ?_, ?_⟩
  · rw [VectorHint]; decide +kernel
  · rw [BasinHint]; decide +kernel
/-- Rules 0, 3 and 5 are enabled and without conflict, rule 3 has the retry mark. -/
def ruled : Core × Ctx :=
  ({ Core.reset 0 with active := memStore [] ([0, 3, 5].flatMap (fun i => [(0x4006 + 16 * i, 0x1C), (0x4007 + 16 * i, 1)])) }, { ctx0 with en := 0xFF, rm := 8, fp := 5 })
theorem test_selection :
    selectRules ruled.1 0 ruled.2 = [3, 5, 0] ∧ selectRules ruled.1 0 { ruled.2 with rm := 0 } = [5, 0, 3] ∧
    selectRules ruled.1 0 { ruled.2 with en := 0x20 } = [5] ∧ selectRules ruled.1 0 { ruled.2 with ended := true } = [] := by decide +kernel
theorem witness_GuardsAndSelection :
    ruleEnabled ruled.1 0 ruled.2 3 = true ∧ ruled.2.rm.getLsbD 3 = true ∧ (∀ j < 3, ruled.2.rm.getLsbD j = false) ∧ ruled.2.ended = false ∧
    (∀ k < 64, ruleEnabled ruled.1 0 { ruled.2 with rm := 0 } k = true → (5 + 64 - 5) % 64 ≤ (k + 64 - 5) % 64) := by decide +kernel
/-- A core whose context 0 has those rules, whose round is due; the round then with a rule more to run, and with none. -/
def due_ : State := { State.reset with agenda := [], core := [(0, { ruled.1 with ctx := vset ruled.1.ctx 0 ruled.2 })], pkg := { Pkg.reset with mapAt := some 0 } }
theorem witness_RoundsRunTheirBodies :
    due_.stage.active = false ∧ coreLive (coreOf due_ 0) = true ∧ clockStopped due_ 0 = false ∧ (clusterOf due_ 0).rstate = 0 ∧ eligible (vget (coreOf due_ 0).ctx 0 Ctx.reset) = true ∧
    (∀ j < 64, j ∈ [0, 3, 5] ↔ j ∈ selectRules (coreOf due_ 0) 0 (vget (coreOf due_ 0).ctx 0 Ctx.reset)) ∧ [0, 3, 5].Pairwise (· < ·) ∧
    selectRules (coreOf st0 0) 0 (vget (coreOf st0 0).ctx 0 Ctx.reset) = [] ∧
    ((after (exec .round due_)).stage.todo = [3, 5] ∧ (after (exec .round due_)).stage.work.rule = 0 ∧ (after (exec .round due_)).stage.taken = [3, 5, 0]) ∧
    (let s := onWork (fun w => { w with pc := 32 }) st0
     bodyOver s = true ∧ (after (exec .round { s with stage := { s.stage with todo := [3] } })).stage.work.rule = 3) ∧
    -- a boundary left over that passes to another context, and one that stays
    (let s := onCore (fun c => { c with ctx := vset c.ctx 2 ruled.2, pass := some true, qr := 5 }) due_
     passTarget (coreOf s 0) true = some 2 ∧ passTarget (coreOf s 0) false = none ∧ (coreOf (takePass s 0) 0).act = 2 ∧
       (coreOf (takePass s 0) 0).qr = 0 ∧ vget (ctxOf (takePass s 0) 0 2).cnt 10 0 = 1) := by
  decide +kernel
theorem witness_CommitAppliesStagedEffects :
    vget (ctxOf ported 0 0).binds 0 none = some { x := 0, y := 0, cx := 1, depth := 4, credits := 1 } ∧
    (let t := ctxOf (applyEffect 0 0 ported (.push 0 ⟨0, 6, none⟩)) 0 0
     (vget t.binds 0 none).map (fun b => b.credits) = some 0 ∧ t.outbound = [.token 0 ⟨0, 6, none⟩]) ∧
    ctxOf (applyEffect 0 0 st0 (.tagSet 63)) 0 0 = { ctxOf st0 0 0 with tb := 2 ^ 63 } ∧ ctxOf (applyEffect 0 0 st0 (.enable 3 1)) 0 0 = { ctxOf st0 0 0 with en := 1 } ∧
    ctxOf (applyEffect 0 0 st0 (.raise 3)) 0 0 = { ctxOf st0 0 0 with flags := 3 } ∧ ctxOf (applyEffect 0 0 st0 (.status true 2 1)) 0 0 = { ctxOf st0 0 0 with fm := true, rnd := 2, flags := 1 } ∧
    ctxOf (applyEffect 0 0 st0 .end_) 0 0 = { ctxOf st0 0 0 with ended := true } ∧ ctxOf (applyEffect 0 0 st0 (.fence 1 4)) 0 0 = { ctxOf st0 0 0 with outbound := [.fence 1 4] } ∧
    vget (commitRegisters (ctxOf st0 0 0) (wk (.add 1 2 3 31 0) (st2 7 5))).s 3 0 = 12 ∧ vget (commitRegisters (ctxOf st0 0 0) (wk (.add 1 2 3 31 0) (st2 7 5))).s 1 0 = 0 := by
  decide +kernel
/-- EXPLICIT under each policy, RESIDUE with and without the retry mark, BASIN_QUEUE_FULL and a trap (02_rule, R74 to R76). -/
theorem witness_AbortsTrapsAndReturns :
    (let w := fun (pol : Nat) => { Work.reset with rule := 2, hdrB := BitVec.ofNat 64 (pol * 2 ^ 38) }
     let kinds := fun (s : State) (pol : Nat) (code : BitVec 8) => ((abortRule s 0 0 (w pol) ⟨code, 5, 0, 0, 0, 0⟩).2.map (fun q => q.kind), (ctxOf (abortRule s 0 0 (w pol) ⟨code, 5, 0, 0, 0, 0⟩).1 0 0).rm,
        (ctxOf (abortRule s 0 0 (w pol) ⟨code, 5, 0, 0, 0, 0⟩).1 0 0).en)
     let on := onCtx (fun x => { x with en := 4 }) st0
     [kinds on 0 1, kinds on 1 1, kinds on 2 1, kinds on 0 2, kinds (onCtx (fun x => { x with rm := 4 }) on) 0 2, kinds on 0 0x0C, kinds on 0 9] =
       [([], 0, 4), ([], 0, 0), ([0], 0, 4), ([], 4, 4), ([2], 0, 4), ([], 0, 4), ([0], 0, 4)]) ∧
    (let s := takeTrap st0 0 0 true { code := 9, kind := 0, rule := 2, word := 1, opcode := 4, unit := 0, lane := 0, exp := 0, obs := 0, info := 7 } false
     (ctxOf s 0 0).trap = some ⟨9 * 2 ^ 56 + 2 * 2 ^ 44 + 2 ^ 39 + 4 * 2 ^ 31, 0, 0, 7⟩ ∧ (ctxOf s 0 0).trapFm = true ∧ (coreOf s 0).seq = 1 ∧
     (ctxOf (applyTret s 0 0 0 0) 0 0).trap = none ∧ (ctxOf (applyTret s 0 0 0 1) 0 0).en = 0 ∧ (ctxOf (applyTret s 0 0 0 2) 0 0).ended = true ∧
     (vget (coreOf (applyTret s 0 0 1 0) 0).cnt 7 0) = 1) := by decide +kernel

/-! ## Steps of the units. Each part of a theorem takes one clause of the statement of its name: a small state that meets the
clause's hypotheses, and some of what the step leaves there. -/

/-- Contexts 0 of core (0, 0) and of core (0, 1), each at its own place, nothing in flight. -/
def pairOf (f g : Core → Core) : State :=
  let x1 := { ctx0 with ly := 1 }
  { base (f (core0 id)) with core := [(0, f (core0 id)), (1, g { Core.reset 1 with ctx := vset (Core.reset 1).ctx 0 x1 })] }
/-- The context in slot 0 of a core changed. -/
def inSlot (f : Ctx → Ctx) (c : Core) : Core := { c with ctx := vset c.ctx 0 (f (vget c.ctx 0 Ctx.reset)) }
/-- A message to take, number 7. -/
def letter (src dst : Nat) (p : Payload) (s : State) : State := { s with msgs := [⟨7, src, dst, p, false⟩], ev := evArgs 7 0 0 }
/-- The operands of the step. -/
def args (x y z : Nat) (s : State) : State := { s with ev := evArgs x y z }
/-- The state after an event. -/
def ran_ (i : Instr) (s : State) : State := after (exec i s)
/-- No memory changes, over the cores and dies that either state lists. -/
def sameMem (s t : State) : Bool :=
  let ks := (s.core ++ t.core).map (fun p => p.1)
  let ds := (s.die ++ t.die).map (fun p => p.1)
  decide (t.hbm = s.hbm ∧ t.tier2 = s.tier2 ∧ t.host = s.host) && ks.all (fun k => decide ((coreOf t k).mem = (coreOf s k).mem ∧
    (coreOf t k).active = (coreOf s k).active ∧ (coreOf t k).shadow = (coreOf s k).shadow)) && ds.all (fun d => decide ((dieOf t d).pinned = (dieOf s d).pinned))
/-- A step stands by: its name, its operands and its tick. -/
def standsBy (t : State) (op : Instr) (x y due : Nat) : Bool := t.agenda.any (fun p => decide (p.op = op ∧ p.args.x = x ∧ p.args.y = y ∧ p.due = due))
/-- The one flit of a state: class, source, destination, where it waits, body. -/
def oneFlit (t : State) : Option (Nat × Nat × Nat × Nat × Payload) := match t.flits with | [f] => some (f.cls, f.src, f.dst, f.at_, f.body) | _ => none
/-- A byte address of HBM in the physical space. -/
def hbmAt (a : Nat) : W64 := BitVec.ofNat 64 (2 ^ 63 + 2 ^ 58 + a)
def tokn : Token := ⟨2 ^ 11 + 5, 9, some ⟨1, 4, 2⟩⟩
theorem witness_TokensAndRepliesArrive :
    -- a resident context
    (let s := letter 1 0 (.token 0 2 tokn) (pairOf id id)
     let t := ran_ .tokenArrival s
     slotOf s 0 0 = some 0 ∧ twinOf s 0 = none ∧ vget (ctxOf t 0 0).inq 2 [] = [tokn] ∧ (coreOf t 0).rcvd = 1 ∧ t.msgs = [] ∧ sameMem s t = true ∧ t.flits = []) ∧
    -- a twin
    (let s := letter 1 0 (.token 0 2 tokn) (setRegion (pairOf id id) 3 { Region.reset with st := .running, w := 1, h := 1, dup := true, dupY := 1 })
     let t := ran_ .tokenArrival { s with msgs := [⟨7, 1, 0, .token 0 2 { tokn with src := some ⟨1, 2048, 2⟩ }, false⟩] }
     twinOf s 0 = some 4 ∧ twinOf s 2048 = none ∧ findCtx s 4 = some (1, 0) ∧ vget (ctxOf t 0 0).inq 2 [] = [{ tokn with src := some ⟨1, 2048, 2⟩ }] ∧
       vget (ctxOf t 1 0).inq 2 [] = [{ tokn with src := none }]) ∧
    -- a context whose core has moved; one that is nowhere, first and second time
    (let s := letter 1 0 (.token 4 2 tokn) (pairOf id id)
     let t := ran_ .tokenArrival s
     slotOf s 0 4 = none ∧ coreOfAddr s 4 = some 1 ∧ oneFlit t = some (0, 0, 1, 0, .token 4 2 tokn) ∧ t.msgs = []) ∧
    (let s := letter 1 0 (.token 1 2 tokn) (pairOf id id)
     let t := ran_ .tokenArrival s
     let u := ran_ .tokenArrival (letter 1 0 (.token 1 2 tokn) t)
     slotOf s 0 1 = none ∧ coreOfAddr s 1 = some 0 ∧ tget (coreOf t 0).hold ⟨0, tokn, 0, 0⟩ 8 = ⟨1, tokn, 0, 0⟩ ∧ standsBy t .tokenSpill 0 2 (ticksOf s 0 4096) = true ∧
       channelOpen t 0 2 0 = false ∧ u.msgs.length = 1 ∧ standsBy u .tokenArrival 7 0 1 = true ∧
       -- the full register keeps a resident context's token back too, on its own channel alone
       (ran_ .tokenArrival (letter 1 0 (.token 0 2 tokn) t)).msgs.length = 1 ∧ (ran_ .tokenArrival (letter 1 0 (.token 0 3 tokn) t)).msgs = []) ∧
    -- a held token: a context that is back, a core that has moved, the inbound ring of a saved context, a full ring
    (let s := { args 0 2 0 (pairOf (fun c => { c with hold := [(8, ⟨0, tokn, 0, 0⟩)] }) id) with now := 3 }
     let t := ran_ .tokenSpill s
     heldToken (coreOf s 0) 2 = some (8, ⟨0, tokn, 0, 0⟩) ∧ slotOf s 0 0 = some 0 ∧ vget (ctxOf t 0 0).inq 2 [] = [tokn] ∧ (coreOf t 0).hold = [] ∧
       (vget (coreOf t 0).cnt 10 0).toNat = clusterCycles s 0 ∧ 0 < clusterCycles s 0) ∧
    (let s := args 0 2 0 (pairOf (fun c => { c with hold := [(8, ⟨4, tokn, 0, 0⟩)] }) id)
     oneFlit (ran_ .tokenSpill s) = some (0, 0, 1, 0, .token 4 2 tokn) ∧ (coreOf (ran_ .tokenSpill s) 0).hold = []) ∧
    (let s := args 0 4 0 (pairOf (fun c => { c with hold := [(17, ⟨4, tokn, 0, 0⟩)] }) id)
     oneFlit (ran_ .tokenSpill s) = some (1, 0, 1, 0, .reply 4 0 tokn)) ∧
    (let s := { args 0 2 0 (pairOf (fun c => { c with hold := [(8, ⟨1, tokn, 0, 0⟩)] }) id) with now := 80 }
     let t := ran_ .tokenSpill s
     clusterCycles s 0 = 100 ∧ (coreOf t 0).hold = [(8, ⟨1, tokn, 0, 0⟩)] ∧ standsBy t .tokenSpill 0 2 (80 + ticksOf s 0 3996) = true) ∧
    (let saved := fun (n : Nat) => { Region.reset with st := .stopped, saved := [⟨0, [(1, { Ctx.reset with lc := 1, ring := List.replicate n (0, tokn) })],
       { Core.reset 0 with save := vset (Core.reset 0).save 1 (hbmAt 0x100000) }⟩] }
     let s := fun n => setRegion (args 0 2 0 { pairOf (fun c => { c with hold := [(8, ⟨1, tokn, 0, 0⟩)] }) id with now := 4096 }) 3 (saved n)
     let t := ran_ .tokenSpill (s 224)
     let u := ran_ .tokenSpill (s 225)
     4096 ≤ clusterCycles (s 224) 0 ∧ coreOfAddr (s 224) 1 = some 0 ∧ (anyCtx t 1).map (fun y => (y.ring.length, vget y.cnt 12 0)) = some (225, 1) ∧ (coreOf t 0).hold = [] ∧
       -- the ring in memory: the token's record at the write index, which moves on
       savedArea (s 224) 1 = hbmAt 0x100000 ∧ memByte t.hbm 0x10C002 = 1 ∧ t.hbm ≠ [] ∧
       (coreOf u 0).hold = [(8, ⟨1, tokn, 0, 0⟩)] ∧ vget (coreOf u 0).cnt 8 0 = 1 ∧ standsBy u .tokenSpill 0 2 (4096 + ticksOf (s 225) 0 4096) = true) ∧
    -- a reply; a failure with a reply and without
    (let t := ran_ .replyArrival (letter 1 0 (.reply 0 3 tokn) (pairOf id id))
     vget (ctxOf t 0 0).inq 4 [] = [tokn] ∧ (coreOf t 0).rcvd = 0 ∧ t.msgs = []) ∧
    -- a reply to a twin of an access that both wait for; for a context that is away, held or sent on; behind a full register
    (let s := letter 1 0 (.reply 0 3 tokn) (setRegion (pairOf id (inSlot (fun x => { x with pend := [⟨3, false, true, false, []⟩] }))) 3 { Region.reset with st := .running, w := 1, h := 1, dup := true, dupY := 1 })
     let t := ran_ .replyArrival s
     twinAwaits s 0 3 = some 4 ∧ vget (ctxOf t 0 0).inq 4 [] = [tokn] ∧ vget (ctxOf t 1 0).inq 4 [] = [{ tokn with src := none }]) ∧
    (let t := ran_ .replyArrival (letter 1 0 (.reply 1 3 tokn) (pairOf id id))
     tget (coreOf t 0).hold ⟨0, tokn, 0, 0⟩ 17 = ⟨1, tokn, 0, 0⟩ ∧ t.msgs = [] ∧ channelOpen t 0 4 1 = false ∧
       (ran_ .replyArrival (letter 1 0 (.reply 0 4 tokn) t)).msgs.length = 1 ∧
       oneFlit (ran_ .replyArrival (letter 1 0 (.reply 4 3 tokn) (pairOf id id))) = some (1, 0, 1, 0, .reply 4 3 tokn)) ∧
    -- a failure for a context that has moved, one held as a reply, a trap that waits
    (let t := fun a r => ran_ .failedRequest (letter 1 0 (.failed a 3 r 0x0A 5 false false ⟨2, 1, 0xC8⟩) (pairOf id id))
     oneFlit (t 4 false) = some (1, 0, 1, 0, .failed 4 3 false 0x0A 5 false false ⟨2, 1, 0xC8⟩) ∧
       (coreOf (t 1 true) 0).hold.map (fun h => (h.1, h.2.addr, h.2.tok.pay)) = [(17, 1, 0x0A)] ∧ (t 1 false).msgs.length = 1) ∧
    (let t := fun r => ran_ .failedRequest (letter 1 0 (.failed 0 3 r 0x0A 5 false false ⟨2, 1, 0xC8⟩) (pairOf id id))
     (vget (ctxOf (t true) 0 0).inq 4 []).map (fun k => (k.pay, part k.sb 5 1, part k.sb 13 6)) = [(0x0A, 1, 5)] ∧
       (coreOf (t false) 0).traps.map (fun r => (r.1, field r.2.w0 56 8, field r.2.w0 54 2, r.2.w3)) = [(0, 0x0A, 3, 5)] ∧
       (coreOf (t false) 0).traps.map (fun r => (field r.2.w0 44 6, field r.2.w0 39 5, field r.2.w0 31 8)) = [(2, 1, 0xC8)]) ∧
    -- a credit, at the depth and below it; a resume message for a resident context and for none
    (let b : Binding := { x := 0, y := 0, cx := 1, depth := 4, credits := 4 }
     let t := fun n => ran_ .creditReturn (letter 1 0 (.credit 0 1) (pairOf (inSlot (fun x => { x with binds := vset x.binds 1 (some { b with credits := n }) })) id))
     vget (ctxOf (t 4) 0 0).binds 1 none = some b ∧ vget (ctxOf (t 3) 0 0).binds 1 none = some b) ∧
    ((coreOf (ran_ .tretMessageArrival (letter 1 0 (.tret 0 3 2) (pairOf id id))) 0).trets = [(0, 3, 2)] ∧
      oneFlit (ran_ .tretMessageArrival (letter 1 0 (.tret 4 3 2) (pairOf id id))) = some (3, 0, 1, 0, .tret 4 3 2) ∧
      vget (coreOf (ran_ .tretMessageArrival (letter 1 0 (.tret 1 3 2) (pairOf id id))) 0).cnt 7 0 = 1) := by
  refine ⟨?_, ?_, ?_, ?_, ?_, ?_, ?_, ?_, ?_, ?_, ?_, ?_, ?_, ?_, ?_, ?_⟩ <;> decide +kernel
/-- A request of context 1 of core (0, 1) for a word at 0x100 of core (0, 0). -/
def asks (k : ReqKind) (a : W64) (priv : Bool) : Request :=
  { id := 3, core := 1, cx := 4, kind := k, addr := a, rt := 5, rpy := true, fm := false, priv := priv, queue := 0, fails := 0, org := og }
/-- Core (0, 0) with that request at its port's head and 01 02 03 04 at 0x100. -/
def served (k : ReqKind) (a : W64) (f : Core → Core) : State :=
  args 0 0 0 (pairOf (fun c => f { c with portq := [asks k a false], mem := [(0x100, 1), (0x101, 2), (0x102, 3), (0x103, 4)] }) id)
/-- The payload, the reply's class and destination of the one flit. -/
def replied (t : State) : Option (Nat × Nat × W64) :=
  match oneFlit t with | some (c, _, d, _, .reply 4 3 tok) => some (c, d, pair tok.pay 0) | _ => none
def failed_ (t : State) : Option (Nat × Nat × BitVec 8 × BitVec 6) :=
  match oneFlit t with | some (c, _, d, _, .failed 4 3 true code rt false _ _) => some (c, d, code, rt) | _ => none
theorem witness_MemoryPortServesItsHead :
    (let s := served (.read 4) 0x100 id
     let t := ran_ .remoteAccessServe s
     portPlace s (asks (.read 4) 0x100 false) 4 = .ok 0x100 ∧ coreOfAddr s 4 = some 1 ∧ portBad s 0 0x100 4 = false ∧ replied t = some (1, 1, 0x04030201) ∧
       (coreOf t 0).portq = [] ∧ sameMem s t = true) ∧
    (let s := served (.write 2 0xBBAA) 0x102 id
     let t := ran_ .remoteAccessServe s
     replied t = some (1, 1, 0) ∧ (coreOf t 0).mem = [(0x100, 1), (0x101, 2), (0x102, 0xAA), (0x103, 0xBB)]) ∧
    (let s := served (.read 4) 0x60000 id
     portPlace s (asks (.read 4) 0x60000 false) 4 = .error 0x0A ∧ failed_ (ran_ .remoteAccessServe s) = some (1, 1, 0x0A, 5)) ∧
    (let s := served (.write 8 0) 0x5FFF9 id
     portPlace s (asks (.write 8 0) 0x5FFF9 false) 8 = .error 0x09 ∧ failed_ (ran_ .remoteAccessServe s) = some (1, 1, 0x09, 5)) ∧
    (let s := served (.read 4) 0x100 (fun c => { c with eccUe := [0x20] })
     let t := ran_ .remoteAccessServe s
     portBad s 0 0x100 4 = true ∧ regionOfCore s 0 = some 0 ∧ t.flits = [] ∧ (regionOf t 0).error = some 7 ∧ standsBy t .rollback 0 0 0 = true) ∧
    (let s := served (.amo 0 4 5 0) 0x100 id
     let t := ran_ .amoPerform s
     portInjected (coreOf s 0) = false ∧ splitOf s 3 = none ∧ replied t = some (1, 1, 0x04030201) ∧ memByte (coreOf t 0).mem 0x100 = 6) ∧
    failed_ (ran_ .amoPerform (served (.amo 0 4 5 0) 0x60000 id)) = some (1, 1, 0x0A, 5) ∧
    [(amoResult 1 4 0xFFFFFFFF 1 0).1, (amoResult 4 4 0xFFFFFFFF 1 0).1, (amoResult 9 4 5 7 5).1, (amoResult 9 4 5 7 6).1] = [0xFFFFFFFF, 0xFFFFFFFF, 7, 5] ∧
    (let s := served (.publish 5 (some 9)) 0 (fun c => { c with pubw := vset (vset c.pubw 5 (2 ^ 63)) 4 1 })
     let t := ran_ .publishFlip s
     vget (coreOf t 0).pubw 5 0 = 2 ^ 63 + 2 ^ 62 ∧ vget (coreOf t 0).pubw 4 0 = 1 ∧ (ctxOf t 1 0).tb = 0x200 ∧ (coreOf t 0).portq = []) ∧
    (let s := args 0 0 0 (pairOf (fun c => { c with bucket := 0x101802 }) id)
     let t := ran_ .bucketLeak s
     (coreOf t 0).bucket = 0x101801 ∧ (coreOf t 0).leakAt = some 0 ∧ standsBy t .bucketLeak 0 (2 ^ 24) 13421773 = true ∧
       (ran_ .bucketLeak t).agenda.length = t.agenda.length ∧
       -- its cycle has not come
       standsBy (ran_ .bucketLeak (args 0 5 0 s)) .bucketLeak 0 5 4 = true ∧ (coreOf (ran_ .bucketLeak (args 0 5 0 s)) 0).bucket = 0x101802) := by
  refine ⟨?_, ?_, ?_, ?_, ?_, ?_, ?_, ?_, ?_, ?_⟩ <;> decide +kernel
/-- Stream q0 of that context bound over 2 elements of 4 bytes, 8 bytes apart, from 0x100. -/
def nest2 (f : Stream → Stream) : Stream :=
  f { Stream.reset with bound := true, esz := 1, fmt := 2, base := 0x100, cnt := vset Stream.reset.cnt 0 2, str := vset Stream.reset.str 0 8 }
def streaming (f : Stream → Stream) (g : Core → Core) : State :=
  args 0 0 0 (pairOf (fun c => g { inSlot (fun x => { x with q := vset x.q 0 (nest2 f) }) c with mem := [(0x100, 7), (0x108, 8)] }) id)
/-- A copy of 70 bytes from 0x100 to 0x200 of core (0, 0), in engine 0 of cluster 0. -/
def copying (f : CopyJob → CopyJob) : State :=
  let s := args 0 0 3 (pairOf (fun c => { c with mem := [(0x100, 7), (0x145, 8)] }) id)
  let j := f { cmd := { id := 3, core := 0, cx := 0, tag := some 4, op := .cpy 0x100 0x200 70, org := og }, row := 0, pos := 0, unit := none }
  setCluster s 0 { clusterOf s 0 with cq := vset (clusterOf s 0).cq 0 [j] }
def job (t : State) : List (Nat × Option Nat) := (vget (clusterOf t 0).cq 0 []).map (fun j => (j.pos, j.unit.map List.length))
theorem witness_StreamAndCopyEnginesMove :
    (elementAt (nest2 id) = 0x100 ∧ (stepNest (nest2 id)).idx.toList = [1, 0, 0, 0] ∧ (stepNest (stepNest (nest2 id))).done = true ∧
      elementAt (stepNest (nest2 id)) = 0x108 ∧ part (elementSb (nest2 id)) 0 3 = 2 ∧ part (elementSb (nest2 id)) 5 1 = 0 ∧
      part (elementSb (stepNest (nest2 id))) 5 5 = 0x1F ∧ part (elementSb (nest2 id)) 6 4 = 0) ∧
    (let s := streaming id id
     let t := ran_ .streamFetch s
     portBad s 0 0x100 4 = false ∧ windowed s 0 0 0x100 = 0x100 ∧ (streamOf t 0 0 0).fetched.map (fun k => k.pay) = [7] ∧ (streamOf t 0 0 0).idx.toList = [1, 0, 0, 0] ∧
       sameMem s t = true ∧ ((streamOf (ran_ .streamFetch t) 0 0 0).fetched.map (fun k => k.pay)) = [7, 8]) ∧
    (let s := streaming id (fun c => { c with eccUe := [0x20] })
     let t := ran_ .streamFetch s
     portBad s 0 0x100 4 = true ∧ (regionOf t 0).error = some 7 ∧ streamOf t 0 0 0 = nest2 id) ∧
    (let s := streaming (fun q => { q with dir := true, queued := [0xAABB, 1], drains := [(9, 2)] }) id
     let t := ran_ .streamWrite s
     (coreOf t 0).mem = [(0x100, 0xBB), (0x101, 0xAA), (0x108, 8)] ∧ (streamOf t 0 0 0).queued = [1] ∧ (streamOf t 0 0 0).drains = [(9, 1)]) ∧
    (let s := streaming (fun q => { q with dir := true, done := true, queued := [0xAABB, 1], drains := [(9, 2)] }) id
     let t := ran_ .streamWrite s
     sameMem s t = true ∧ (streamOf t 0 0 0).queued = [1] ∧ (streamOf t 0 0 0).drains = [(9, 1)]) ∧
    (let t := ran_ .streamDrainTag (streaming (fun q => { q with dir := true, drains := [(9, 0), (10, 1)] }) id)
     (ctxOf t 0 0).tb = 0x200 ∧ (streamOf t 0 0 0).drains = [(10, 1)]) ∧
    -- an address struck twice: 0x100 is 4 modulo 7; the context takes the check at its next round, one that has ended traps
    (let t := ran_ .streamFetch (streaming id (fun c => { c with upsets := [0, 0] }))
     (streamOf t 0 0 0) = { nest2 id with paused := true } ∧ (ctxOf t 0 0).checks.map (fun e => (e.1, e.2.1)) = [(0, 4)] ∧ (coreOf t 0).upsets = []) ∧
    (let t := ran_ .streamWrite (streaming (fun q => { q with dir := true, queued := [1] }) (fun c => inSlot (fun x => { x with ended := true }) { c with upsets := [0, 0] }))
     (streamOf t 0 0 0).queued = [1] ∧ (coreOf t 0).traps.map (fun r => (r.1, r.2.w2, r.2.w3)) = [(0, 0, 0)]) ∧
    -- a replaced binding is written first; a stream that UNBIND ends
    (let t := ran_ .streamWrite (streaming id (inSlot (fun x => { x with oldq := [(0, { nest2 id with dir := true, queued := [0xAABB, 1] })] })))
     (coreOf t 0).mem = [(0x100, 0xBB), (0x101, 0xAA), (0x108, 8)] ∧ (ctxOf t 0 0).oldq.map (fun e => (e.1, e.2.queued)) = [(0, [1])] ∧ streamOf t 0 0 0 = nest2 id ∧
       (ctxOf (ran_ .streamWrite t) 0 0).oldq = []) ∧
    (let t := ran_ .streamWrite (streaming (fun q => { q with dir := true, unbinding := true, drains := [(9, 0)] }) id)
     (streamOf t 0 0 0).bound = false ∧ (ctxOf t 0 0).tb = 0x200) := by
  refine ⟨?_, ?_, ?_, ?_, ?_, ?_, ?_, ?_, ?_, ?_⟩ <;> decide +kernel
theorem witness_copies :
    (let t := ran_ .copyUnit (copying id)
     job t = [(0, some 64)] ∧ sameMem (copying id) t = true ∧ t.agenda.any (fun p => decide (p.op = .copyUnit ∧ p.args = evArgs 0 0 3)) = true) ∧
    (let t := ran_ .copyUnit (copying (fun j => { j with unit := some ((7 : Byte) :: List.replicate 63 0) }))
     job t = [(64, none)] ∧ memByte (coreOf t 0).mem 0x200 = 7) ∧
    (let t := ran_ .copyUnit (copying (fun j => { j with pos := 64, unit := some [0, 0, 0, 0, 0, 8] }))
     memByte (coreOf t 0).mem 0x245 = 8 ∧ t.agenda.any (fun p => decide (p.op = .copyComplete ∧ p.args = evArgs 0 0 3)) = true) ∧
    (let s := copying (fun j => { j with row := 1 })
     let t := ran_ .copyComplete s
     writesOut s 3 = false ∧ isParked s 3 = false ∧ gangAway s 0 = false ∧ (ctxOf t 0 0).tb = 0x10 ∧ job t = []) ∧
    -- a unit that an earlier unit of the same copy is still to write; a completion that waits for a write; an address in no core
    (let w : XOp := { req := { asks (.write 64 0) (hbmAt 0x100) false with id := 3 }, pa := hbmAt 0x100, cmp := false, phase := .home, port := false, copyDone := false, engine := true, mark := 0 }
     let s := { copying (fun j => { j with cmd := { j.cmd with op := .cpy (hbmAt 0x120) (hbmAt 0x160) 70 } }) with xops := [w] }
     let c : Command := { id := 3, core := 0, cx := 0, tag := some 4, op := .cpy (hbmAt 0x120) (hbmAt 0x160) 70, org := og }
     unitBehind s c (commandQueue s c) (hbmAt 0x120) 64 = true ∧ unitBehind s c (commandQueue s c) (hbmAt 0x140) 64 = false ∧
       (ran_ .copyUnit s).agenda = s.agenda ++ [⟨1, .copyUnit, s.ev⟩] ∧
       (let u := { copying (fun j => { j with row := 1 }) with xops := [w] }
        writesOut u 3 = true ∧ (ran_ .copyComplete u).agenda = u.agenda ++ [⟨1, .copyComplete, u.ev⟩] ∧ job (ran_ .copyComplete u) = [(0, none)]) ∧
       (let u := copying (fun j => { j with cmd := { j.cmd with op := .cpy (511 * 2 ^ 52) 0x200 70 } })
        job (ran_ .copyUnit u) = [] ∧ (ran_ .copyUnit u).msgs.map (fun m => (m.dst, m.body)) = [(0, .failed 0 3 false 9 0 false false og)])) ∧
    (let s := copying id
     gather s 0 (commandQueue s { id := 3, core := 0, cx := 0, tag := some 4, op := .cpy 0x100 0x200 70, org := og }) 0x100 2 = (.got [7, 0], s)) ∧
    (let u := { copying id with core := [(0, { core0 id with eccUe := [0x20] })] }
     job (ran_ .copyUnit u) = [] ∧ (regionOf (ran_ .copyUnit u) 0).error = some 7) := by
  refine ⟨?_, ?_, ?_, ?_, ?_, ?_, ?_⟩ <;> decide +kernel
/-- Core (0, 0) whose head command is granted. -/
def basin_ (op : BasinOp) (f : Core → Core) : State :=
  args 0 0 0 (pairOf (fun c => f { c with bq := [⟨0, 0xE0, false, op, false, []⟩], granted := 1 }) id)
/-- The rows of slot 3 that are not zero, the slot's type, the commands left, the deliveries. -/
def slot3 (t : State) : List (Nat × V512) := ((List.range 16).map (fun i => (i, vget (slotAcc t 0 3).rows i 0))).filter (fun p => p.2 != 0)
def ended_ (t : State) : Bool := decide ((coreOf t 0).bq = [] ∧ (coreOf t 0).granted = 0 ∧ (ctxOf t 0 0).bdone = 1) && standsBy t .basinGrant (basinOf t 0) 0 0
/-- The array of basin 0 with a command in the queues of its ports p. -/
def queuedAt (ps : List Nat) (port used w : Nat) : State :=
  let b : BasinCmd := ⟨0, 0xE6, false, .accz 0 .fp32, false, []⟩
  let s := args 0 0 0 (base (core0 id))
  let s := ps.foldl (fun s p => setCore s (basinCore s 0 p) { coreOf s (basinCore s 0 p) with bq := [b] }) s
  setCluster s 0 { clusterOf s 0 with arb := vset (clusterOf s 0).arb 0 (port, used, w) }
theorem witness_BasinCommandsAct :
    (let s := queuedAt [0, 2] 0 0 1
     let t := ran_ .basinGrant s
     grantable s (basinCore s 0 0) = true ∧ (coreOf t (basinCore t 0 0)).granted = 1 ∧ (coreOf t (basinCore t 0 0)).stepping = true ∧ (coreOf t (basinCore t 0 2)).granted = 0 ∧
       vget (clusterOf t 0).arb 0 (0, 0, 0) = (0, 1, 1) ∧ standsBy t .basinCommandComplete (basinCore t 0 0) 0 (ticksOf t 0 1) = true) ∧
    (let t := ran_ .basinGrant (queuedAt [0, 2] 0 1 1)
     (coreOf t (basinCore t 0 0)).granted = 0 ∧ (coreOf t (basinCore t 0 2)).granted = 1 ∧ vget (clusterOf t 0).arb 0 (0, 0, 0) = (2, 1, 1)) ∧
    (let t := ran_ .basinGrant (queuedAt [0] 0 1 1)
     (coreOf t (basinCore t 0 0)).granted = 1 ∧ vget (clusterOf t 0).arb 0 (0, 0, 0) = (0, 1, 1)) ∧
    (let s := fun (g : Bool) => setCore (queuedAt [0, 2] 0 0 1) 256 { coreOf (queuedAt [0, 2] 0 0 1) 256 with granted := 1, stepping := g }
     -- nothing to grant; another core's command that runs, in its array steps and behind them
     ran_ .basinGrant (queuedAt [] 0 1 1) = queuedAt [] 0 1 1 ∧ basinCore (s true) 0 1 = 256 ∧ ran_ .basinGrant (s true) = s true ∧ ran_ .basinGrant (s false) = s false) ∧
    (let m : BasinCmd := ⟨0, 0xE0, false, .mma 0 3 2 2 16 16 16 false false 0 (.mem 0x1000 0) (.mem 0x2000 0), false, []⟩
     let d : BasinCmd := ⟨0, 0xE5, false, .accrd 3 5 1 15 0 true, false, []⟩
     let s := args 0 0 1 (onCore (fun c => { c with bq := [m, m, d], granted := 1, stepping := true }) (queuedAt [] 0 0 4))
     let t := ran_ .basinGrant s
     -- the same core's next command behind the last array step: 4 + 16 cycles to its own, 10 + 16 to its end
     ran_ .basinGrant (args 0 0 0 s) = args 0 0 0 s ∧ (coreOf t 0).granted = 2 ∧ vget (clusterOf t 0).arb 0 (0, 0, 0) = (0, 1, 4) ∧
       standsBy t .basinGrant 0 0 (ticksOf t 0 20) = true ∧ standsBy t .basinCommandComplete 0 0 (ticksOf t 0 26) = true ∧
       (ctxOf (ran_ .basinGrant (args 0 0 1 (onCore (fun c => { c with granted := 2 }) s))) 0 0).replies = 15) ∧
    (let t := ran_ .basinCommandComplete (basin_ (.accz 3 .int32) id)
     ended_ t = true ∧ slotAcc t 0 3 = { AccSlot.reset with ty := .int32 }) ∧
    (let t := ran_ .basinCommandComplete (basin_ (.accwr 3 .fp32 15 1 0x100) (fun c => { c with mem := [(0x100, 9)] }))
     ended_ t = true ∧ slot3 t = [(15, 9)] ∧ (slotAcc t 0 3).ty = .fp32) ∧
    (let t := ran_ .basinCommandComplete (basin_ (.epicfg 15 7) id)
     ended_ t = true ∧ chainOf (ctxOf t 0 0) 15 = 7 ∧ chainOf (ctxOf t 0 0) 14 = 0) ∧
    (let t := ran_ .basinCommandComplete (basin_ (.abftcfg false false) id)
     ended_ t = true ∧ (ctxOf t 0 0).abftEn = false ∧ (ctxOf t 0 0).abftCorr = false) ∧
    (let t := ran_ .basinCommandComplete (basin_ (.accrd 3 5 1 15 0 true) id)
     (coreOf t 0).bq.length = 1 ∧ (coreOf t 0).deliv = some ⟨0, 3, 0, 5, 1, 0, 15, 16, true, false⟩) := by
  refine ⟨?_, ?_, ?_, ?_, ?_, ?_, ?_, ?_, ?_, ?_⟩ <;> decide +kernel
/-- FP32 1 by 1 products of 2 and 3 with K = 2 over A at 0x100 and B at 0x200, added to 1; MMAZ; ternary and INT8 products; an
uncorrectable tile. -/
def tiles (a b : List (Nat × Byte)) (c : Core) : Core := { c with mem := a ++ b }
theorem witness_basin_products :
    (let m := tiles [(0x103, 0x40), (0x107, 0x40)] [(0x202, 0x40), (0x203, 0x40), (0x206, 0x40), (0x207, 0x40)]
     let one := fun c : Core => { m c with acc := vset c.acc 3 { AccSlot.reset with ty := .fp32, rows := vset AccSlot.reset.rows 0 0x3F800000 } }
     let t := ran_ .basinCommandComplete (basin_ (.mma 0 3 2 2 2 1 1 false false 0 (.mem 0x100 0) (.mem 0x200 0)) one)
     let u := ran_ .basinCommandComplete (basin_ (.mma 1 3 2 2 2 1 1 false false 0 (.mem 0x100 0) (.mem 0x200 0)) one)
     groupInjected (coreOf t 0) ⟨0, 0xE0, false, .accz 0 .fp32, false, []⟩ = false ∧ slot3 t = [(0, 0x41500000)] ∧ ended_ t = true ∧ slot3 u = [(0, 0x41400000)] ∧
       elem (slotAcc t 0 3) 32 0 0 = 0x41500000) ∧
    (let t := ran_ .basinCommandComplete (basin_ (.mma 3 3 0 0 2 1 1 false false 0 (.mem 0x100 0) (.mem 0x200 0)) (tiles [(0x100, 0xFF), (0x101, 2)] [(0x200, 5), (0x201, 3)]))
     slot3 t = [(0, 1)] ∧ (slotAcc t 0 3).ty = .int32) ∧
    (let t := ran_ .basinCommandComplete (basin_ (.mma 2 3 0 0 4 1 1 true false 0 (.mem 0x100 0) (.mem 0x200 0)) (tiles [(0x100, 10), (0x101, 2)] [(0x200, 0xD)]))
     slot3 t = [(0, 8)]) ∧
    (let t := ran_ .basinCommandComplete (basin_ (.mma 0 3 2 2 2 1 1 false false 4 (.mem 0x100 0) (.mem 0x200 0)) id)
     (coreOf t 0).deliv.map (fun d => (d.acc, d.ep, d.first, d.rows, d.cols)) = some (3, 4, 0, 1, 1)) ∧
    (let s := basin_ (.mma 0 3 2 2 2 1 1 false false 0 (.mem 0x100 0) (.mem 0x200 0)) (fun c => { c with eccUe := [0x40] })
     let t := ran_ .basinCommandComplete s
     tilesBad s 0 0 0 2 2 2 1 1 (.mem 0x100 0) (.mem 0x200 0) = true ∧ (regionOf t 0).error = some 7 ∧ (coreOf t 0).bq.length = 1 ∧ slot3 t = []) ∧
    -- a byte stored since the commit is one that the read may find
    (let s := onCore (fun c => { c with bq := [⟨0, 0xE0, false, .accz 0 .fp32, false, [(0x100, 9, false)]⟩] }) (basin_ (.accz 0 .fp32) (tiles [(0x101, 5)] []))
     (seenByte s 0 0 0x101).1 = 5 ∧ ((coreOf s 0).bq.map (fun b => b.old.any (fun o => o.1 == 0x100))) = [true]) := by
  refine ⟨?_, ?_, ?_, ?_, ?_, ?_⟩ <;> decide +kernel
/-- Row 1 of slot 3 on its way, of 2 rows from row 1, its slot changed and chain 4 set. -/
def row (f : AccSlot → AccSlot) (d : Delivery → Delivery) (e : BitVec 256) (g : Core → Core) : State :=
  basin_ (.accz 3 .fp32) (fun c => g { inSlot (fun x => { x with chains := vset x.chains 3 e }) c with
    deliv := some (d ⟨0, 3, 4, 5, 1, 0, 2, 16, true, false⟩), acc := vset c.acc 3 (f { AccSlot.reset with ty := .fp32, rows := vset (vset AccSlot.reset.rows 1 0x40000000) 2 9 }) })
def onRp (t : State) : List (W64 × Nat × Nat × Nat) := (vget (ctxOf t 0 0).inq 4 []).map (fun k => (pair k.pay 0, part k.sb 13 6, part k.sb 3 3, part k.sb 0 3))
theorem witness_RowsAreDelivered :
    (let t := ran_ .accrdRowDelivery (row id id 0 id)
     onRp t = [(0x40000000, 5, 1, 2)] ∧ slot3 t = [(2, 9)] ∧ (coreOf t 0).deliv.map (fun d => d.next) = some 1 ∧ (coreOf t 0).bq.length = 1) ∧
    (let t := ran_ .accrdRowDelivery (row (fun a => { a with poison := true, code := 0x20 }) (fun d => { d with next := 1, clr := false }) 0 id)
     onRp t = [(0x20, 5, 6, 2)] ∧ ended_ t = true) ∧
    (let s := row id id (6 * 2 ^ 248 + 1 + 0x40400000 * 2 ^ 32) id
     let t := ran_ .epilogueRowDelivery s
     chainBad s 0 ⟨0, 3, 4, 5, 1, 0, 2, 16, true, false⟩ (6 * 2 ^ 248 + 1) = false ∧ onRp t = [(0x40C00000, 6, 1, 2)] ∧ slot3 t = [(2, 9)]) ∧
    (let t := ran_ .epilogueRowDelivery (row id (fun d => { d with next := 1, clr := false, cols := 1 }) (2 ^ 255 + 9 * 2 ^ 248 + 2 ^ 247 + 0x200 * 2 ^ 224) id)
     onRp t = [] ∧ (coreOf t 0).mem = [(0x204, 9)] ∧ (ctxOf t 0 0).tb = 0x200 ∧ ended_ t = true) ∧
    (let s := row (fun a => { a with poison := true }) id (2 ^ 255) id
     sameMem s (ran_ .epilogueRowDelivery s) = true ∧ onRp (ran_ .epilogueRowDelivery s) = []) ∧
    (let s := row id id (2 + 0x300 * 2 ^ 64) (fun c => { c with eccUe := [0x60] })
     chainBad s 0 ⟨0, 3, 4, 5, 1, 0, 2, 16, true, false⟩ (2 + 0x300 * 2 ^ 64) = true ∧ (regionOf (ran_ .epilogueRowDelivery s) 0).error = some 7) ∧
    [(chainElement 4 false .fp32 0 0 0xBF800000).1, (chainElement 4 false .fp32 0 0 0x7F800001).1, (chainElement (2 + 16 * 4) false .fp32 0xC0000000 0 0x3F800000).1,
     (chainElement 3 false .fp32 0 0x3F800000 0x3F800000).1, (chainElement (5 + 0x3F800000 * 2 ^ 160) false .fp32 0 0 0x40000000).1] = [0, 0x7FC00000, 0, 0x40000000, 0x3F800000] ∧
    (let y := { RxSlot.reset with st := .popped, pin := true, cx := 2 }
     let s := fun (rel : Bool) => args 0 1 3 (pairOf (fun c => { c with rx := vset c.rx 7 { y with rel := rel } }) id)
     vget (coreOf (ran_ .slotPinClear (s true)) 0).rx 7 y = RxSlot.reset ∧ vget (coreOf (ran_ .slotPinClear (s false)) 0).rx 7 RxSlot.reset = { y with pin := false }) := by
  refine ⟨?_, ?_, ?_, ?_, ?_, ?_, ?_, ?_⟩ <;> decide +kernel
/-! ## Routers and trees (08_cluster, R233 to R247; 10_die, R282) -/

/-- A flit of a class at an input of core (0, 0), from its own core to a destination. -/
def flit (cls dst port : Nat) (p : Payload) : Flit := ⟨cls, 0, dst, 0, 0, port, false, false, p, 0, 0⟩
/-- Flits at core k, and FLIT_HOP there on an input and a class; v is 1 for the cistern. -/
def hops (k port cls v : Nat) (fs : List Flit) (s : State) : State := { s with flits := fs, ev := { evArgs k port cls with v := v } }
/-- Where the flits wait: router, port, cistern, reserved. -/
def places (t : State) : List (Nat × Nat × Bool × Bool) := t.flits.map (fun f => (f.at_, f.port, f.cistern, f.reserved))
/-- Die 0 changed. -/
def inDie_ (f : Die → Die) (s : State) : State := setDie s 0 (f (dieOf s 0))
def tokenOn : Payload := .token 0 2 tokn
theorem witness_MeshMovesFlits :
    -- out of a cistern, with a place and without
    (let f := { flit 3 0 2 tokenOn with cistern := true, reserved := true }
     let b := flit 3 0 2 tokenOn
     let t := ran_ .flitHop (hops 0 2 3 1 [f, b] (pairOf id id))
     places t = [(0, 2, false, false), (0, 2, false, false)] ∧ places (ran_ .flitHop (hops 0 2 3 1 [f, b, b, b, b] (pairOf id id))) =
       [(0, 2, true, true), (0, 2, false, false), (0, 2, false, false), (0, 2, false, false), (0, 2, false, false)]) ∧
    -- held by the weir; a sleeping cluster
    (let s := hops 0 0 0 0 [flit 0 1 0 tokenOn] (pairOf (fun c => { c with win := 0, winCount := 256 }) id)
     weirHolds s 0 0 0 = true ∧ places (ran_ .flitHop s) = [(0, 0, false, false)]) ∧
    (let s := setCluster (hops 0 1 0 0 [flit 0 0 1 tokenOn] (pairOf id id)) 0 { Cluster.reset with rstate := 2 }
     let t := ran_ .flitHop s
     asleep s 0 (flit 0 0 1 tokenOn) = true ∧ places t = [(0, 1, false, false)] ∧ standsBy t .retentionExitStart 0 0 0 = true ∧
       -- a CTL flit goes into the wake buffer, while it has room
       (let c := fun (n : Nat) => setCluster (hops 0 1 3 0 [flit 3 0 1 tokenOn] (pairOf id id)) 0 { Cluster.reset with rstate := 2, wake := List.replicate n (flit 3 0 1 tokenOn) }
        (ran_ .flitHop (c 3)).flits = [] ∧ (clusterOf (ran_ .flitHop (c 3)) 0).wake.length = 4 ∧ places (ran_ .flitHop (c 4)) = [(0, 1, false, false)])) ∧
    -- its cycle not come, the clock stopped, the output granted in this cycle, a waiting CTL flit before a REQ one
    (let f := flit 0 256 0 tokenOn
     let at0 := fun (l : List Flit) (g : Core → Core) => hops 0 0 0 0 l (pairOf g id)
     let stay := fun (s : State) => (ran_ .flitHop s).flits == s.flits
     stay (at0 [{ f with ready := 5 }] id) = true ∧ stay (inDie_ (fun d => { d with vf := vset d.vf 0 { VfRegion.reset 0 with off := true } }) (at0 [f] id)) = true ∧
       outputTaken (at0 [f] (fun c => { c with outs := [(3, (1, 2))] })) 0 3 0 = true ∧ stay (at0 [f] (fun c => { c with outs := [(3, (1, 2))] })) = true ∧
       outputTaken (at0 [f, flit 3 256 1 tokenOn] id) 0 3 0 = true ∧ stay (at0 [f, flit 3 256 1 tokenOn] id) = true ∧ stay (at0 [f] id) = false) ∧
    -- out of the network: a token, a request, a request for a core that has moved
    (let s := hops 0 1 0 0 [flit 0 0 1 tokenOn] (pairOf id id)
     let t := ran_ .flitHop s
     mergeHeads s 0 1 = none ∧ outputPort s 0 (flit 0 0 1 tokenOn) = 0 ∧ t.flits = [] ∧ ackSources s (flit 0 0 1 tokenOn) = [0] ∧ (coreOf t 0).owed = [(0, 0)] ∧
       t.msgs = [⟨s.nextId, 0, 0, tokenOn, false⟩] ∧ standsBy t .tokenArrival s.nextId 0 0 = true) ∧
    (let r := asks (.read 4) 0x100 false
     let s := hops 0 1 0 0 [flit 0 0 1 (.request r)] (pairOf id id)
     let t := ran_ .flitHop s
     movedTo s 0 r = none ∧ t.flits = [] ∧ (coreOf t 0).portq = [r] ∧ standsBy t .remoteAccessServe 0 0 0 = true ∧
       -- behind a message of the same source and class it waits as a message
       (let u := ran_ .flitHop { s with msgs := [⟨6, 0, 0, tokenOn, false⟩], nextId := 7 }
        msgsBetween { s with msgs := [⟨6, 0, 0, tokenOn, false⟩] } 0 0 0 ≠ [] ∧ (coreOf u 0).portq = [] ∧ u.msgs.map (fun m => (m.id, m.body)) = [(6, tokenOn), (7, .request r)]) ∧
       -- a partial
       (coreOf (ran_ .flitHop (hops 0 1 2 0 [flit 2 0 1 (.partials 3 5 0 false false false 0)] (pairOf id id))) 0).redIn = [⟨3, partialInput 0 0, 5, 0, false, false, false, 0⟩]) ∧
    (let r := asks (.read 4) (0x100 + 2 ^ 44) false
     let s := hops 0 1 0 0 [flit 0 0 1 (.request r)] (pairOf id id)
     movedTo s 0 r = some 1 ∧ oneFlit (ran_ .flitHop s) = some (0, 0, 1, 0, .request r)) ∧
    -- to the next router, with a place and without
    (let s := hops 0 0 1 0 [flit 1 256 0 tokenOn] (pairOf id id)
     outputPort s 0 (flit 1 256 0 tokenOn) = 3 ∧ neighbour 0 3 = some 256 ∧ crosses s 0 256 = false ∧ places (ran_ .flitHop s) = [(256, 1, false, false)]) ∧
    (let b := { flit 1 256 0 tokenOn with at_ := 256, port := 1 }
     let s := hops 0 0 1 0 (flit 1 256 0 tokenOn :: List.replicate 8 b) (pairOf id id)
     bufferFree s 256 1 1 = false ∧ (ran_ .flitHop s).flits = s.flits) ∧
    -- over a stitch of depth 1: a shared place, a reserved one, none
    (let f := { flit 3 32 0 tokenOn with at_ := 31 }
     let b := fun r : Bool => { f with at_ := 32, port := 2, cistern := true, reserved := r }
     let s := fun l => setDie (hops 31 0 3 0 (f :: l) (pairOf id id)) 0 { Die.reset with band := [(72 * 3, 0x80010000)] }
     let off := fun (v : W32) => setDie (hops 31 0 3 0 [f] (pairOf id id)) 0 { Die.reset with band := [(72 * 3, v)] }
     linkUp (s []) 31 32 4 = true ∧ linkUp (off 0x10000) 31 32 4 = false ∧ (ran_ .flitHop (off 0x10000)).flits = (off 0x10000).flits ∧ crosses (s []) 31 32 = true ∧ cisternDepth (s []) 31 32 4 = 1 ∧ places (ran_ .flitHop (s [])) = [(32, 2, true, false)] ∧
       (places (ran_ .flitHop (s [b false]))).getLast? = some (32, 2, true, true) ∧
       (let l := b false :: List.replicate 4 (b true)
        (ran_ .flitHop (s l)).flits = (s l).flits ∧ vget (dieOf (ran_ .flitHop (s l)) 0).cnt 1 0 = 1)) := by
  refine ⟨?_, ?_, ?_, ?_, ?_, ?_, ?_, ?_, ?_, ?_⟩ <;> decide +kernel
/-- An access of a context that waits. -/
def waits (w : Bool) (g : Target) : Access := { id := 3, write := w, read := !w, atCopy := false, targets := [g] }
/-- The outbound order of slot 0 of core (0, 0), and its step. -/
def leaving (l : List OutItem) (f : Ctx → Ctx) : State := args 0 0 0 (pairOf (inSlot (fun x => f { x with outbound := l })) id)
theorem witness_mesh_sources :
    -- two atomics at the heads of two inputs
    (let r := { asks (.amo 0 4 5 0) 0x100 false with rpy := false }
     let q := { asks (.amo 0 4 6 0) 0x100 false with id := 4, core := 2 }
     let s := hops 0 2 0 0 [flit 0 0 2 (.request r), flit 0 0 1 (.request q)] (pairOf id id)
     let t := ran_ .flitHop s
     (coreOf t 0).splits = [⟨s.nextId, q, r, [2]⟩] ∧ portHeld t 0 2 = true ∧ t.flits.map (fun f => (f.at_, f.port)) = [(0, 1)] ∧ vget (clusterOf t 0).cnt 5 0 = 1 ∧
       (oneFlit t).map (fun f => f.2.2.2.2) = some (.request { q with id := s.nextId, kind := .amo 0 4 11 0 })) ∧
    -- the old value of a merged atomic split again: the first gets it, the second the value in between
    (let r := { asks (.amo 0 4 5 0) 0x100 false with id := 20 }
     let q := { asks (.amo 0 4 6 0) 0x100 false with id := 21 }
     let t := ran_ .replyArrival (letter 1 0 (.reply 4 9 ⟨0, 7, none⟩) (pairOf (fun c => { c with splits := [⟨9, r, q, [2]⟩] }) id))
     (coreOf t 0).splits = [] ∧ t.flits.map (fun f => (f.cls, f.dst, match f.body with | .reply _ n k => (n, k.pay) | _ => (0, 0))) = [(1, 1, (20, 7)), (1, 1, (21, 12))]) ∧
    -- acknowledgements, sent and received, and the switch of a class
    (let s := { args 0 9 0 (pairOf (fun c => { c with owed := [(9, 0), (8, 1), (9, 2)] }) id) with ev := { evArgs 0 9 0 with v := 1 } }
     let t := ran_ .deliveryAck s
     oneFlit t = some (3, 0, 9, 0, .acks [0, 2]) ∧ (coreOf t 0).owed = [(8, 1)] ∧ (ran_ .deliveryAck { s with ev := { s.ev with y := 7 } }).flits = []) ∧
    (let s := setCluster (letter 9 0 (.acks [2, 3]) (pairOf (fun c => { c with outst := [(2, 9, 1), (3, 9, 2)], cmap := [(5, 0)] }) id)) 0 { Cluster.reset with rtSw := true, rtAct := true }
     let t := ran_ .deliveryAck s
     (coreOf t 0).outst = [(3, 9, 1)] ∧ standsBy t .routeClassSwitch 0 2 0 = true ∧ standsBy t .routeClassSwitch 0 3 0 = false ∧ standsBy t .coreMapRebind 0 5 0 = true ∧ t.msgs = [] ∧
       outstanding (coreOf t 0) 2 = 0 ∧ (coreOf (ran_ .routeClassSwitch (args 0 2 0 t)) 0).bank = 4 ∧ ran_ .routeClassSwitch (args 0 3 0 t) = args 0 3 0 t) ∧
    (let e : W64 := 2 ^ 63 + 1 * 2 ^ 41
     let s := args 0 5 0 (pairOf (fun c => { c with outst := [(2, 1, 1)], cmap := [(5, e)] }) id)
     let u := args 0 5 0 (pairOf (fun c => { c with cmap := [(5, e), (6, 0)], mapc := [(5, e), (7, e)] }) id)
     ran_ .coreMapRebind s = s ∧ (coreOf (ran_ .coreMapRebind u) 0).cmap = [(6, 0)] ∧ (coreOf (ran_ .coreMapRebind u) 0).mapc = [(7, e)]) ∧
    -- the outbound order: a token, a request, a request that waits for credits
    (let b : Binding := { x := 0, y := 1, cx := 0, depth := 4, credits := 4 }
     let t := ran_ .fenceReleaseTraffic (leaving [.token 3 tokn] (fun x => { x with binds := vset x.binds 3 (some b) }))
     boundAt State.reset 0 0 1 = none ∧ oneFlit t = some (0, 0, 1, 0, .token 4 1 { tokn with src := some ⟨0, 0, 3⟩ }) ∧ (ctxOf t 0 0).outbound = [] ∧ (coreOf t 0).sent = 1) ∧
    (let r := { asks (.read 4) (0x100 + 2 ^ 44) false with rpy := false, core := 0, cx := 0 }
     let t := ran_ .fenceReleaseTraffic (leaving [.req r] (fun x => { x with cpUsed := 2 }))
     oneFlit t = some (0, 0, 1, 0, .request r) ∧ (ctxOf t 0 0).cpUsed = 1 ∧ (coreOf t 0).sent = 1) ∧
    (let s := leaving [.req (asks (.read 4) 0x100 false)] (fun x => { x with replies := 64 })
     replyCredits s 0 0 ≤ 64 ∧ (ran_ .fenceReleaseTraffic s).flits = [] ∧ (ctxOf (ran_ .fenceReleaseTraffic s) 0 0).outbound.length = 1) ∧
    -- fences and arrivals
    (let s := fun p => leaving [.fence 2 1] (fun x => { x with pend := p })
     (ctxOf (ran_ .fenceReleaseTraffic (s [])) 0 0).outbound = [] ∧ holdsRelease 0 1 (waits true (.core 5)) = true ∧
       ctxOf (ran_ .fenceReleaseTraffic (s [waits true (.core 5)])) 0 0 = ctxOf (s [waits true (.core 5)]) 0 0) ∧
    (let s := fun p => leaving [.arrive 3 99] (fun x => { x with pend := p })
     (ctxOf (ran_ .fenceReleaseTraffic (s [])) 0 0).outbound.length = 1 ∧ holdsArrival 0 (waits true (.core 5)) = true ∧
       (ctxOf (ran_ .barrierArrivalLeave (s [waits true (.core 5)])) 0 0).outbound.length = 1 ∧ holdsArrival 0 (waits false (.core 5)) = false ∧
       oneFlit (ran_ .barrierArrivalLeave (s [waits false (.core 5)])) = some (2, 0, 256 * 6 + 4, 0, .barArrive 3 0 0 99)) := by
  refine ⟨?_, ?_, ?_, ?_, ?_, ?_, ?_, ?_, ?_, ?_⟩ <;> decide +kernel
/-- Tree 3 of core (0, 0): its entry and its inputs. -/
def tree3 (e : W16) (l : List RedIn) (w : List RedWait) : State :=
  args 0 3 0 (pairOf (fun c => { c with trn := vset c.trn 3 e, redIn := l, redWait := w }) id)
def gives_ (input : Nat) (v : V512) (op : Nat) : RedIn := ⟨3, input, v, op, false, false, false, 0⟩
theorem witness_ConfluenceTreesCombine :
    (let s := tree3 0xC240 [gives_ 2 4 0, gives_ 0 5 0, gives_ 0 6 0] []
     let t := ran_ .confluenceCombine s
     redWanted 0xC240 = [0, 2] ∧ oneFlit t = some (2, 0, 256, 0, .partials 3 9 0 false false false 0) ∧ (coreOf t 0).redIn = [gives_ 0 6 0]) ∧
    (let s := tree3 0xC080 [gives_ 0 0x3FF0000000000000 11] [⟨3, 4, 5, 8⟩]
     (oneFlit (ran_ .confluenceCombine s)).map (fun f => (f.1, f.2.2.1, match f.2.2.2.2 with | .reply 4 8 k => (pair k.pay 0, part k.sb 13 6, part k.sb 5 1, part k.sb 0 3) | _ => (0, 0, 0, 0))) =
       some (1, 1, 0x3FF0000000000000, 5, 0, 1)) ∧
    -- the value of a lone scalar F32, and an adder struck once and twice
    ((redValue { gives_ 0 (2 ^ 40 + 5) 8 with op := 8 }).val = 5 ∧ (redChecked ((gives_ 0 4 0, 0, 0), 1) (gives_ 2 5 0)).1.1.val = 9 ∧
      (redChecked ((gives_ 0 4 0, 0, 0), 3) (gives_ 2 5 0)) = (({ gives_ 0 4 0 with bad := 2 }, 0, 0), 1)) ∧
    ((let s := tree3 0xC240 [gives_ 0 5 0] []
      ran_ .confluenceCombine s = s) ∧ (redStep (gives_ 0 1 0, 0, 0) (gives_ 1 1 1)).1.bad = 4 ∧
      (redStep (gives_ 0 1 0, 0, 0) { gives_ 1 1 0 with fm := true }).1.bad = 6 ∧ (redStep (gives_ 0 1 0, 0, 0) { gives_ 1 1 0 with bad := 9 }).1.bad = 9 ∧
      [(redStep (gives_ 0 5 1, 0, 0) (gives_ 1 7 1)).1.val, (redStep (gives_ 0 0x3FF0000000000000 11, 0, 0) (gives_ 1 0x3FF0000000000000 11)).1.val] = [5, 0x4000000000000000] ∧
      (redStep ({ gives_ 0 (0x3F800000 + 0x40000000 * 2 ^ 480) 8 with vec := true }, 0, 0) { gives_ 1 (0x3F800000 * 2 ^ 480) 8 with vec := true }).1.val =
        0x3F800000 + 0x40400000 * 2 ^ 480) := by
  refine ⟨?_, ?_, ?_, ?_⟩ <;> decide +kernel
/-! ## Cluster units (08_cluster, R248 to R256, R258) -/

/-- A cluster 0 with changes, and messages for core (0, 0). -/
def inCluster (f : Cluster → Cluster) (s : State) : State := setCluster s 0 (f (clusterOf s 0))
/-- Barrier 3 of two contexts where one has arrived, channel 3 bound to context 0 of logical core (0, 0). -/
def barrier3 (arr : Nat) (d : Option Nat) : Barrier := { v := true, count := 2, arr := arr, gen := 0, members := (if arr = 0 then [] else [(0, 0)]), deadline := d, frozen := none }
def bar3 (t : State) : Barrier := vget (clusterOf t 0).bar 3 Barrier.reset
def withBar (b : Barrier) (c : Cluster) : Cluster := { c with bar := vset c.bar 3 b }
def pch3 (t : State) : PairCh := vget (clusterOf t 0).pch 3 PairCh.reset
def withPch (f : PairCh → PairCh) (c : Cluster) : Cluster := { c with pch := vset c.pch 3 (f { PairCh.reset with v := true, rt := 5, id := 9, seq := 7 }) }
/-- The trap code and INFO that wait in core (0, 0). -/
def trapOf (t : State) : List (Nat × Nat × W64) := (coreOf t 0).traps.map (fun r => (r.1, field r.2.w0 56 8, r.2.w3))
def rec9 : Record := ⟨0x0400000000000000, 0, 3, 9⟩
theorem witness_ClusterUnitsAct :
    (let t := ran_ .barrierArrival (inCluster (withBar (barrier3 0 (some 9000))) (letter 0 0 (.barArrive 3 1 4 500) (pairOf id id)))
     bar3 t = { barrier3 0 (some 500) with arr := 1, members := [(1, 4)] } ∧ t.flits = [] ∧ t.msgs = [] ∧
       standsBy t .bartTimeout 0 3 (vfTicks (vfOfCluster t 0) 500) = true ∧
       -- a stopped gang's deadline stands still
       bar3 (ran_ .barrierArrival (inCluster (withBar { barrier3 0 none with frozen := some 900 }) (letter 0 0 (.barArrive 3 1 4 500) (pairOf id (fun c => { c with stopped := true }))))) =
         { barrier3 0 none with arr := 1, members := [(1, 4)], frozen := some 500 }) ∧
    (let t := ran_ .barrierArrival (inCluster (withBar (barrier3 1 (some 9000))) (letter 0 0 (.barArrive 3 1 4 500) (pairOf id id)))
     bar3 t = { barrier3 0 none with gen := 1 } ∧ t.flits.map (fun f => (f.cls, f.src, f.dst, f.body)) =
       [(3, barrierCore 0, 0, .barDone 0 3 false), (3, barrierCore 0, 1, .barDone 4 3 false)]) ∧
    (let s := fun d => inCluster (withBar (barrier3 1 (some d))) (args 0 3 0 (pairOf id id))
     bar3 (ran_ .bartTimeout (s 5)) = barrier3 1 (some 5) ∧ standsBy (ran_ .bartTimeout (s 5)) .bartTimeout 0 3 4 = true ∧
       bar3 (ran_ .bartTimeout (s 0)) = { barrier3 0 none with gen := 1 } ∧ vget (clusterOf (ran_ .bartTimeout (s 0)) 0).cnt 4 0 = 1 ∧
       (oneFlit (ran_ .bartTimeout (s 0))) = some (3, barrierCore 0, 0, barrierCore 0, .barDone 0 3 true)) ∧
    (let s := fun cancel => letter 0 0 (.barDone 0 3 cancel) (pairOf (inSlot (fun x => { x with barPend := 9, barTag := vset x.barTag 3 (some 2), barTout := vset x.barTout 3 (some 4) })) id)
     findCtx (s true) 0 = some (0, 0) ∧ (ctxOf (ran_ .barrierCompletionArrival (s true)) 0 0).tb = 16 ∧ (ctxOf (ran_ .barrierCompletionArrival (s false)) 0 0).tb = 4 ∧
       (ctxOf (ran_ .barrierCompletionArrival (s false)) 0 0).barPend = 1) ∧
    -- halves of a pair: stale, early, exchanged; the deadline before and after
    (let t := fun f => ran_ .pairHalfArrival (inCluster (withPch f) (letter 0 0 (.pairHalf 3 7 0xAB 2) (pairOf id id)))
     pch3 (t (fun p => { p with seq := 8 })) = { PairCh.reset with v := true, rt := 5, id := 9, seq := 8 } ∧ vget (clusterOf (t (fun p => { p with seq := 8 })) 0).cnt 0 0 = 1 ∧
       (pch3 (t id)).held = some (0xAB, 2) ∧ (pch3 (t id)).frozen = none ∧ standsBy (t id) .pairDeadline 0 3 (vfTicks (vfOfCluster (t id) 0) 125001) = true ∧ pch3 (t (fun p => { p with armed := true })) = { PairCh.reset with v := true, rt := 5, id := 9, seq := 8 } ∧
       (match oneFlit (t (fun p => { p with armed := true })) with | some (1, src, 0, _, .reply 0 9 k) => (src, k.pay, part k.sb 13 6, part k.sb 0 3, part k.sb 39 1) | _ => (0, 0, 0, 0, 0)) = (barrierCore 0, 0xAB, 5, 2, 1) ∧
       (pch3 (ran_ .pairHalfArrival (inCluster (withPch id) (letter 0 0 (.pairHalf 3 7 0xAB 2) (pairOf (fun c => { c with stopped := true }) id))))).frozen = some 0) ∧
    (let s := fun (now : Nat) (stop : Bool) => inCluster (fun c => { withPch (fun p => { p with held := some (0xAB, 2) }) c with pairV := true, pairDie := 0, pairCl := 1, deadline := 100 })
       (setCluster { args 0 3 0 (pairOf (fun c => { c with stopped := stop }) id) with now := now } 1 (withPch id Cluster.reset))
     let t := ran_ .pairDeadline (s 200 false)
     pairCore (s 0 false) 0 3 = some 0 ∧ partnerCore (s 0 false) 0 3 = some (256 * 13) ∧ standsBy (ran_ .pairDeadline (s 0 false)) .pairDeadline 0 3 (vfTicks (vfOfCluster t 0) 101) = true ∧
       pch3 t = { PairCh.reset with v := true, rt := 5, id := 9, seq := 8 } ∧ trapOf t = [(0, 0x0F, 3 + 16 * 7)] ∧ oneFlit t = some (3, 0, 256 * 13, 0, .pairTimeout 3 7) ∧
       (let u := inCluster (withPch (fun p => { p with held := some (0xAB, 2), frozen := some 3 })) (s 200 true)
        ran_ .pairDeadline u = u)) ∧
    (let s := fun p => inCluster (withPch id) (letter 0 0 p (pairOf id id))
     trapOf (ran_ .pairTimeoutMessage (s (.pairTimeout 3 7))) = [(0, 0x0F, 3 + 16 * 7)] ∧ trapOf (ran_ .pairAbortMessage (s (.pairAbort 3 7))) = [(0, 0x10, 3 + 16 * 7)] ∧
       (pch3 (ran_ .pairAbortMessage (s (.pairAbort 3 7)))).seq = 8 ∧ ran_ .pairTimeoutMessage (s (.pairTimeout 3 6)) = { s (.pairTimeout 3 6) with msgs := [] } ∧
       ran_ .pairAbortMessage (s (.pairAbort 3 6)) = { s (.pairAbort 3 6) with msgs := [] }) := by
  refine ⟨?_, ?_, ?_, ?_, ?_, ?_, ?_⟩ <;> decide +kernel
theorem witness_cluster_records :
    (let s := fun n => inCluster (fun c => { c with hch := 0x8000, recUsed := vset c.recUsed 0 n }) (letter 1 0 (.record 0 rec9 5 false) (pairOf id id))
     let t := ran_ .trapRecordDelivery (s 7)
     handlerEntry (s 7) 0 0 = some (0, 0, 0) ∧ slotOf (s 7) 0 (ctxNumber 0 0 0) = some 0 ∧ vget (clusterOf t 0).recUsed 0 0 = 8 ∧
       (vget (ctxOf t 0 0).inq 4 []).map (fun k => (k.pay, part k.sb 13 6)) = [(0x0400000000000000 + 3 * 2 ^ 128 + 9 * 2 ^ 192 + 5 * 2 ^ 256, 63)] ∧
       (clusterOf (ran_ .trapRecordDelivery (s 8)) 0).resend = [⟨7, 1, rec9, 0, 5, false, 256⟩] ∧ standsBy (ran_ .trapRecordDelivery (s 8)) .recordResend 7 0 205 = true ∧
       vget (clusterOf (ran_ .trapRecordDelivery (s 8)) 0).cnt 3 0 = 1) ∧
    (let s := fun (at_ : Nat) => { args 7 0 0 (pairOf id id) with cluster := [(0, { Cluster.reset with hch := 0x8100, resend := [⟨7, 0, rec9, 0, 5, false, at_⟩] })] }
     handlerEntry (s 0) 0 0 = some (0, 1, 0) ∧ oneFlit (ran_ .recordResend (s 0)) = some (3, 0, 1, 0, .record 0 rec9 5 false) ∧ (clusterOf (ran_ .recordResend (s 0)) 0).resend = [] ∧
       (ran_ .recordResend (s 9)).flits = [] ∧ standsBy (ran_ .recordResend (s 9)) .recordResend 7 0 (vfTicks (vfOfCluster (s 9) 0) 9) = true) ∧
    (let t := sendRecord (pairOf id id) 0 0 rec9 5 false
     (clusterOf t 0).halt = true ∧ (coreOf t 1).halted = true ∧ t.pkg.waiting.map (fun e => (e.kind, e.record)) = [(2, rec9)]) ∧
    -- retention
    (let s := fun st => inCluster (fun c => { c with rstate := st }) (args 0 0 0 (pairOf id id))
     mayRetain (s 0) 0 = true ∧ mayRetain (setCore (s 0) 0 { core0 id with outst := [(0, 0, 1)] }) 0 = false ∧
       [0, 1, 2].map (fun st => (clusterOf (ran_ .retentionEntry (s st)) 0).rstate) = [1, 2, 2] ∧ standsBy (ran_ .retentionEntry (s 0)) .retentionEntry 0 0 52 = true ∧
       [1, 2].map (fun st => (clusterOf (ran_ .retentionExitStart (s st)) 0).rstate) = [1, 3] ∧ standsBy (ran_ .retentionExitStart (s 2)) .retentionExitEnd 0 0 2000 = true) ∧
    (let busy := inCluster (fun c => { c with rstate := 1 }) (setCore (args 0 0 0 (pairOf id id)) 0 { core0 id with outst := [(0, 0, 1)] })
     (clusterOf (ran_ .retentionEntry busy) 0).rstate = 0) ∧
    -- the parity as at the entry; a word that an upset has struck
    (let p := parityBits (pairOf id id) 0
     let s := fun l : List Nat => setRegion (inCluster (fun c => { c with rstate := 3, parity := p, flips := l, wake := [flit 3 0 1 tokenOn] }) (args 0 0 0 (pairOf id id))) 3 { Region.reset with st := .running, cores := [0] }
     p ≠ [] ∧ clusterOf (ran_ .retentionExitEnd (s [])) 0 = Cluster.reset ∧ (ran_ .retentionExitEnd (s [])).flits = [flit 3 0 1 tokenOn] ∧
       clusterOf (ran_ .retentionExitEnd (s [2])) 0 = { Cluster.reset with rstate := 3, lost := true, wake := [flit 3 0 1 tokenOn] } ∧
       (coreOf (ran_ .retentionExitEnd (s [2])) 1).halted = true ∧ regionsIn (s [2]) 0 = [3] ∧ (regionOf (ran_ .retentionExitEnd (s [2])) 3).error = some 0x11) := by
  refine ⟨?_, ?_, ?_, ?_, ?_, ?_⟩ <;> decide +kernel
/-! ## Die units (10_die) -/

/-- Die 0 changed; region 0 of its clocks. -/
def inDie (f : Die → Die) (s : State) : State := setDie s 0 (f (dieOf s 0))
/-- Queue 0 with an address space, its level-3 table at HBM 0x400000. -/
def withRoot (s : State) : State := setQueue s 0 { Queue.reset with asroot := BitVec.ofNat 64 (2 ^ 63 + 2 ^ 42 + 0x40) }
def clocked (f : VfRegion → VfRegion) (s : State) : State := inDie (fun d => { d with vf := vset d.vf 0 (f (VfRegion.reset 0)) }) s
def cmd5 (op : CmdOp) : Command := { id := 5, core := 0, cx := 0, tag := some 4, op := op, org := og }
theorem witness_DieUnitsAct :
    (let s := fun f => clocked f (args 0 0 0 (pairOf id id))
     let r := VfRegion.reset 0
     let t := ran_ .vfRequestApply (s (fun v => { v with rpt := 12, rfreq := 200, pend := true }))
     [ran_ .vfRequestApply (s (fun v => { v with busy := true })) == { s (fun v => { v with busy := true }) with agenda := [⟨1, .vfRequestApply, evArgs 0 0 0⟩] },
       vfOf (ran_ .vfRequestApply (s (fun v => { v with pend := true }))) 0 0 == r,
       vfOf t 0 0 == { r with rpt := 12, rfreq := 200, pend := true, busy := true, newPt := 12, newFreq := 136, off := true },
       standsBy t .vfClockResume 0 0 2000, standsBy (ran_ .vfRequestApply (s (fun v => { v with rfreq := 100 }))) .vfClockResume 0 0 200,
       ran_ .vfClockResume (s id) == s id, vfOf (ran_ .weirHalve (s (fun v => { v with weirEff := 20 }))) 0 0 == { r with weirEff := 16 },
       standsBy (ran_ .weirHalve (s (fun v => { v with weirEff := 20 }))) .weirDouble 0 0 (toWindow (s id) r),
       ran_ .weirDouble (s id) == s id, cisternsLow (s id) 0 0, vfOf (ran_ .weirDouble (s (fun v => { v with weirEff := 20 }))) 0 0 == { r with weirEff := 40 },
       -- a limit that is out of its range acts as 16; a window that has not begun
       ran_ .weirDouble (s (fun v => { v with weirEff := 16, weirLim := 8 })) == s (fun v => { v with weirEff := 16, weirLim := 8 }),
       vfOf (ran_ .weirDouble (args 0 0 1 (s (fun v => { v with weirEff := 20 })))) 0 0 == { r with weirEff := 20 },
       -- a region whose cluster has moved: the clock stops for 2,000 ticks at the same point too
       standsBy (ran_ .vfRequestApply (args 0 0 2 (s id))) .vfClockResume 0 0 2000,
       bandWord 5 125 100 == BitVec.ofNat 32 (2 ^ 31 + 23 * 65536 + 9 * 256 + 7)] = List.replicate 15 true) ∧
    (let s := clocked (fun v => { v with busy := true, newPt := 3, newFreq := 64, off := true }) (args 0 0 0 (pairOf id id))
     (vfOf s 0 0).busy = true ∧ (vfOf (setVf s 0 0 { vfOf s 0 0 with off := false }) 0 0).off = false) ∧
    (dieOf (ran_ .timeRecalibration (args 0 0 0 (pairOf id id))) 0).off = 0 ∧
    (let l := fun n o => (⟨n, 0, o, false, false, false⟩ : CacheLine)
     (dieOf (ran_ .cacheReplacement (inDie (fun d => { d with cache := [l 9 [], l 9 [1], l 8 []] }) (args 0 9 0 (pairOf id id)))) 0).cache = [l 9 [1], l 8 []]) ∧
    -- RSVLD: a line, a line that waits for its refresh window, the end
    (let s := fun ref pos => inDie (fun d => { d with pinned := [(0x43, 7)], rsvref := ref, rsvq := [⟨cmd5 (.rsvld 0 0x100 128), pos⟩] }) { args 0 0 0 (pairOf id id) with now := 2100 }
     let t := ran_ .rsvldLine (s 5000 64)
     refreshWait (s 5000 64) 0 1 = 0 ∧ localPlace (s 5000 64) (cmd5 (.rsvld 0 0x100 128)) 0x140 = (0, 0x140) ∧ (coreOf t 0).mem = [(0x143, 7)] ∧ standsBy t .rsvldComplete 0 0 2101 = true ∧
       refreshWait (s 0 64) 0 1 = 220 ∧ standsBy (ran_ .rsvldLine (s 0 64)) .rsvldLine 0 0 2320 = true ∧ vget (dieOf (ran_ .rsvldLine (s 0 64)) 0).cnt 4 0 = 220 ∧
       (ctxOf (ran_ .rsvldComplete (s 0 128)) 0 0).tb = 16 ∧ (dieOf (ran_ .rsvldComplete (s 0 128)) 0).rsvq = [] ∧
       -- an uncorrectable line
       (let u := inDie (fun d => { d with pinUe := [8] }) (s 5000 64)
        pinnedBad u 0 64 64 = true ∧ (regionOf (ran_ .rsvldLine u) 0).error = some 7 ∧ (dieOf (ran_ .rsvldLine u) 0).rsvq = [] ∧ (ctxOf (ran_ .rsvldLine u) 0 0).tb = 0)) ∧
    -- repartition and drop
    (let c := cmd5 (.rsvPart 20)
     let s := fun f => inDie f (args 0 0 0 (pairOf id id))
     let t := ran_ .rsvcfgPartApply (s (fun d => { d with parts := [c], preq := 20, pinned := [(0, 1)], cache := [⟨9, 0, [], false, false, false⟩] }))
     let u := ran_ .rsvcfgPartApply { (s (fun d => { d with parts := [c], p := 20, preq := 20, rpend := true })) with ev := evArgs 0 0 1 }
     dieOf t 0 = { Die.reset with p := 20, preq := 20, parts := [c] } ∧ zeroing t 0 = true ∧
       standsBy (ran_ .rsvcfgPartApply (s (fun d => { d with parts := [c], users := [3] }))) .rsvcfgPartApply 0 0 1 = true ∧
       dieOf u 0 = { Die.reset with p := 20, preq := 20 } ∧ (ctxOf u 0 0).tb = 16) ∧
    (let t := ran_ .rsvcfgDropComplete (inDie (fun d => { d with drops := [cmd5 .rsvDrop], cache := [⟨9, 0, [], false, false, false⟩, ⟨8, 0, [1], false, false, false⟩] }) (args 0 0 0 (pairOf id id)))
     (ctxOf t 0 0).tb = 16 ∧ dieOf t 0 = { Die.reset with cache := [⟨8, 0, [1], false, false, false⟩] }) ∧
    -- a prefetch: a piece of HBM through a TLB entry, and the end
    (let e : TlbEntry := { queue := 0, va := 0, size := 65536, leaf := 2 ^ 63 + 2 ^ 62 + 2 ^ 61 + 2 ^ 42 + 1 }
     let s := fun pos => withRoot <| inCluster (fun c => { c with tlb := [e] }) { args 5 0 0 (pairOf id id) with pkg := { (pairOf id id).pkg with xjobs := [⟨cmd5 (.pfetch (2 ^ 62) 128), pos, none, none⟩] } }
     let t := ran_ .pfetchComplete (s 0)
     (ctxOf (ran_ .pfetchComplete (s 128)) 0 0).tb = 16 ∧ (ran_ .pfetchComplete (s 128)).pkg.xjobs = [] ∧ t.pkg.xjobs.map (fun j => j.pos) = [128] ∧
       firstPiece (2 ^ 62) 128 = 128 ∧ (dieOf t 0).cache.map (fun l => l.line) = [1025, 1024] ∧
       (translate (s 0) 0 (commandQueue (s 0) (cmd5 (.pfetch (2 ^ 62) 128))) 0 false).1 = .ok (hbmAt 0x10000) false) := by
  refine ⟨?_, ?_, ?_, ?_, ?_, ?_, ?_, ?_⟩ <;> decide +kernel
/-! ## Operations outside core memory and the package's engines (09_memory_model, 13_package_memory) -/

/-- A request of context 1 of core (0, 1), number 3, in a phase at a physical address. -/
def xop (k : ReqKind) (pa : W64) (p : XPhase) : XOp :=
  { req := asks k (2 ^ 62) false, pa := pa, cmp := false, phase := p, port := false, copyDone := false, engine := false, mark := 0 }
/-- Eight bytes of HBM from an address. -/
def word8 (a : Nat) (v : W64) : List Host.Cell := (List.range 8).filterMap (fun i => let b := v.extractLsb' (8 * i) 8
  if b = 0 then none else some (a + i, b))
def outside (x : XOp) (h : List Host.Cell) : State := { args 3 0 0 (pairOf id id) with xops := [x], hbm := h }
/-- The reply of request 3 that waits at core (0, 1), or its failure. -/
def answered (t : State) : Option (Nat × V512 × Nat) :=
  match t.msgs with | [⟨_, _, 1, .reply 4 3 k, _⟩] => some (part k.sb 13 6, k.pay, part k.sb 5 1) | _ => none
def refused_ (t : State) : Option (BitVec 8 × BitVec 6) := match t.msgs with | [⟨_, _, 1, .failed 4 3 true c rt false _ _, _⟩] => some (c, rt) | _ => none
def phases (t : State) : List XPhase := t.xops.map (fun o => o.phase)
/-- An entry of a table: a leaf, or a pointer, to a byte address of HBM. -/
def leafTo (a : Nat) : W64 := BitVec.ofNat 64 (2 ^ 63 + 2 ^ 62 + 2 ^ 61 + 2 ^ 42 + a / 65536)
def tableTo (a : Nat) : W64 := BitVec.ofNat 64 (2 ^ 63 + 2 ^ 42 + a / 65536)
theorem witness_MemoryOperationsAct :
    -- a walk: the next table, a leaf, a broken entry, an absent one
    (let s := fun l e => outside (xop (.read 4) 0 (.walk l (hbmAt 0x100000))) (word8 0x100000 e)
     let t := ran_ .translationWalk (s 0 (leafTo 0x20000))
     walkLevel (s 2 (tableTo 0x20000)) 2 (hbmAt 0x100000) 0 = .next (hbmAt 0x20000) ∧ phases (ran_ .translationWalk (s 2 (tableTo 0x20000))) = [.walk 1 (hbmAt 0x20000)] ∧
       walkLevel (s 0 (leafTo 0x20000)) 0 (hbmAt 0x100000) 0 = .leaf (leafTo 0x20000) 65536 ∧ t.xops = [xop (.read 4) (hbmAt 0x20000) .reservoir] ∧ standsBy t .reservoirAccess 3 0 2 = true ∧
       (tlbLookup t 1 0 0).map (fun d => d.leaf) = some (leafTo 0x20000) ∧ walkLevel (s 1 (leafTo 0x20000)) 1 (hbmAt 0x100000) 0 = .broken ∧
       refused_ (ran_ .translationWalk (s 1 (leafTo 0x20000))) = some (0x0D, 5) ∧ walkLevel (s 3 (leafTo 0)) 3 (hbmAt 0x100000) 0 = .absent ∧
       phases (ran_ .translationWalk (s 3 0)) = [.parked 0] ∧ (clusterOf (ran_ .translationWalk (s 3 0)) 0).parked = [3] ∧
       -- a poisoned table; a page that the host has denied
       walkLevel { s 3 0 with hbmPoison := [0x2000] } 3 (hbmAt 0x100000) 0 = .poisoned ∧ (regionOf (ran_ .translationWalk { s 3 0 with hbmPoison := [0x2000] }) 0).error = some 7 ∧
       refused_ (ran_ .translationWalk { s 3 0 with pkg := { (s 3 0).pkg with denied := [3] } }) = some (0x0D, 5) ∧
       (ran_ .translationWalk (s 3 0)).pkg.tags.map (fun p => match p.2 with | .page q va ops _ => (q, va, ops) | _ => (9, 9, [])) = [(0, 0, [3])]) ∧
    -- a line of a die's copy with an uncorrectable error is fetched again
    (let s := inDie (fun d => { d with cache := [⟨0x4004, 9, [], false, true, false⟩] }) (outside (xop (.read 1) 0 .home) [(0x100102, 7)])
     viewByte (mendLine s 0 0x4004) 0 0x100102 = 7 ∧ vget (dieOf (mendLine s 0 0x4004) 0).cnt 5 0 = 1) ∧
    -- at the Reservoir
    (let s := fun k f => inDie f (outside (xop k (hbmAt 0x100102) .reservoir) [(0x100102, 7)])
     let line := fun d : Die => { d with cache := [⟨0x4004, 9 * 2 ^ 16, [], false, false, false⟩] }
     phases (ran_ .reservoirAccess (s (.amo 0 4 1 0) id)) = [.home] ∧ standsBy (ran_ .reservoirAccess (s (.amo 0 4 1 0) id)) .hbmWrite 3 0 60 = true ∧
       refreshWait (s (.read 1) id) 0 (cacheBank Die.reset 0x4004) = 0 ∧ phases (ran_ .reservoirAccess (s (.read 1) id)) = [.home] ∧ answered (ran_ .reservoirAccess (s (.read 1) line)) = some (5, 9, 0) ∧
       (let t := ran_ .reservoirAccess (s (.write 1 0x55) line)
        (t.xops.map (fun o => (o.copyDone, o.mark))) = [(true, (s (.read 1) id).nextId)] ∧ viewByte t 0 0x100102 = 0x55 ∧ t.hbm = [(0x100102, 7)]) ∧
       -- a line that came from a poisoned one, one with an uncorrectable error, a bank in refresh
       (let bad := fun p u => s (.read 1) (fun d => { d with cache := [⟨0x4004, 9 * 2 ^ 16, [], p, u, false⟩] })
        (ran_ .reservoirAccess (bad true false)).msgs = [] ∧ (regionOf (ran_ .reservoirAccess (bad true false)) 0).error = some 7 ∧
          answered (ran_ .reservoirAccess (bad false true)) = some (5, 7, 0) ∧ vget (dieOf (ran_ .reservoirAccess (bad false true)) 0).cnt 5 0 = 1) ∧
       (let late := { s (.read 1) line with now := 2000 * cacheBank Die.reset 0x4004 }
        (reservoirWait late 0 (hbmAt 0x100102) 1).2.1 = 320 ∧ phases (ran_ .reservoirAccess late) = [.reservoir])) ∧
    (let s := inDie (fun d => { d with pinned := [(0x102, 8)] }) (outside (xop (.read 1) (BitVec.ofNat 64 (2 ^ 63 + 2 ^ 60 + 0x102)) .reservoir) [])
     refreshWait (inDie (fun d => { d with rsvref := 1 }) s) 0 4 = 0 ∧ answered (ran_ .reservoirAccess s) = some (5, 8, 0) ∧
       (let u := inDie (fun d => { d with pinUe := [0x20] }) s
        pinnedBad u 0 0x102 1 = true ∧ (ran_ .reservoirAccess u).msgs = [] ∧ (regionOf (ran_ .reservoirAccess u) 0).error = some 7)) ∧
    -- at home
    (let s := fun k => outside (xop k (hbmAt 0x100102) .home) [(0x100102, 7), (0x100103, 1)]
     answered (ran_ .hbmRead (s (.read 2))) = some (5, 0x107, 0) ∧ (ran_ .hbmWrite (s (.write 2 0x55))).hbm = [(0x100102, 0x55)] ∧ answered (ran_ .hbmWrite (s (.write 2 0x55))) = some (5, 0, 0) ∧
       (ran_ .hbmWrite (s (.amo 0 1 1 0))).hbm = [(0x100102, 8), (0x100103, 1)] ∧ answered (ran_ .hbmWrite (s (.amo 0 1 1 0))) = some (5, 7, 0) ∧
       (let p := { s (.read 2) with hbmPoison := [0x2002] }
        let q := { s (.amo 0 1 1 0) with hbmPoison := [0x2002] }
        homeBad p 0x100102 2 = true ∧ (ran_ .hbmRead p).msgs = [] ∧ (regionOf (ran_ .hbmRead p) 0).error = some 7 ∧ (ran_ .hbmWrite q).hbm = q.hbm ∧ (regionOf (ran_ .hbmWrite q) 0).error = some 7) ∧
       -- a set whose 16 ways all hold writes on their way home
       (let full := inDie (fun d => { d with cache := (List.range 16).map (fun i => ⟨0x4004 + (i + 1) * 98304, 0, [1], false, false, false⟩) }) (s (.read 2))
        wayFree full 0 0x4004 = false ∧ (ran_ .hbmRead full).agenda = full.agenda ++ [⟨1, .hbmRead, full.ev⟩])) ∧
    -- the second tier and host memory
    (let s := fun k sp ok => { outside (xop k (BitVec.ofNat 64 (2 ^ 63 + sp * 2 ^ 58 + 0x102)) .tier2) [] with tier2 := [(0x102, 7)], host := [(0x102, 8)], ev := { evArgs 3 0 0 with ok := ok }, pkg := { (pairOf id id).pkg with linkUp := 1 } }
     hostGone (s (.read 1) 5 true) (BitVec.ofNat 64 (2 ^ 63 + 5 * 2 ^ 58 + 0x102)) = false ∧
       [answered (ran_ .secondTierAccess (s (.read 1) 2 true)), answered (ran_ .secondTierAccess (s (.read 1) 5 true)), answered (ran_ .secondTierAccess (s (.read 1) 5 false)),
         answered (ran_ .secondTierAccess (s (.write 1 6) 5 true))] = [some (5, 7, 0), some (5, 8, 0), none, some (5, 0, 0)] ∧
       (ran_ .secondTierAccess (s (.write 1 6) 5 true)).host = [(0x102, 6)] ∧ (regionOf (ran_ .secondTierAccess (s (.read 1) 5 false)) 0).error = some 7) ∧
    -- the host's answer to a page request, and a deadline
    (let s := fun ok => inCluster (fun c => { c with parked := [3] }) { outside (xop (.read 1) 0 (.parked 0)) [] with ev := { evArgs 9 0 0 with ok := ok }, pkg := { (pairOf id id).pkg with tags := [(9, .page 0 0 [3] 0)] } }
     phases (ran_ .pageRequestResponse (s true)) = [.walk 3 0] ∧ (clusterOf (ran_ .pageRequestResponse (s true)) 0).parked = [] ∧
       refused_ (ran_ .pageRequestResponse (s false)) = some (0x0D, 5) ∧ phases (ran_ .pageRequestResponse (s false)) = [] ∧
       -- the answer to the gang's page while it is away, and the walk after its resume
       (let u := setRegion (s false) 0 { Region.reset with st := .stopped }
        let t := ran_ .pageRequestResponse u
        gangAway u 4 = true ∧ phases t = [.walk 3 0] ∧ t.pkg.denied = [3] ∧
          t.msgs = [])) ∧
    (let s := fun now norb => setRegion { outside (xop (.read 1) 0 (.parked 5)) [] with ev := evArgs 0 0 0, now := now } 0 { Region.reset with st := .running, norb := norb }
     (parkedOf (s 9 false) 0).length = 1 ∧ standsBy (ran_ .pfDeadline (s 9 false)) .pfDeadline 0 0 (5 + faultTicks (s 9 false)) = true ∧
       (regionOf (ran_ .pfDeadline (s (10 ^ 9) false)) 0).error = some 0x0D ∧ standsBy (ran_ .pfDeadline (s (10 ^ 9) true)) .gangStop 0 0 (10 ^ 9) = true ∧
       (regionOf (ran_ .pfDeadline (s (10 ^ 9) true)) 0).pages.length = 1) := by
  refine ⟨?_, ?_, ?_, ?_, ?_, ?_, ?_, ?_⟩ <;> decide +kernel
/-- An invalidation's or a migration's state: page 0 of queue 0 at HBM 0x100000 in the TLBs, a walk under way. -/
def page0 : TlbEntry := { queue := 0, va := 0, size := 65536, leaf := leafTo 0x100000 }
def mapped0 (h : List Host.Cell) (f : Pkg → Pkg) : State :=
  withRoot <| inCluster (fun c => { c with tlb := [page0] }) { args 5 0 0 (pairOf (fun c => { c with tlb := [page0, { page0 with queue := 1 }] }) id) with hbm := h, pkg := f (pairOf id id).pkg }
/-- A page of 64 KB on its way from HBM 0x100000 to HBM 0x200000, its leaf at HBM 0x300000. -/
def moving (p : MigPhase) : Migration :=
  { cmd := cmd5 (.migrate (2 ^ 62) (hbmAt 0x200000)), size := 65536, old := hbmAt 0x100000, new := hbmAt 0x200000, leafAt := 0x300000, leaf := leafTo 0x100000, cmp := false, phase := p }
/-- Queue 0 with tables at HBM 0x400000 (level 3), 0x410000, 0x420000 and 0x300000 (level 0) that map page 0. -/
def tabled (e : W64) (s : State) : State :=
  setQueue { s with hbm := word8 0x300000 e ++ word8 0x400000 (tableTo 0x410000) ++ word8 0x410000 (tableTo 0x420000) ++ word8 0x420000 (tableTo 0x300000) } 0 { Queue.reset with asroot := tableTo 0x400000 }
/-- Two elements of 4 bytes, indices at address 0, a table at address 0x100, local offset 0x200, indices limited to less than n. -/
def indirect (n : Nat) : V512 :=
  BitVec.ofNat 512 (2 ^ 62 + (2 ^ 62 + 0x100) * 2 ^ 64 + 0x200 * 2 ^ 128 + 2 * 2 ^ 192 + 4 * 2 ^ 224 + 4 * 2 ^ 256 + 1 * 2 ^ 312 + n * 2 ^ 320)
theorem witness_PackageEnginesAct :
    (let c := cmd5 (.tlbinv 0 (2 ^ 62) 0)
     let s := fun n ids => { mapped0 [] (fun p => { p with invals := [(c, n, 0, ids)] }) with xops := [xop (.read 4) 0 (.walk 1 9)] }
     let t := ran_ .tlbinvComplete (s 0 [])
     [coreOf t 0 == { coreOf (s 0 []) 0 with tlb := [{ page0 with queue := 1 }] }, (clusterOf t 0).tlb == [], phases t == [.walk 3 0], t.pkg.invals == [(c, 1, 0, [])],
       (ran_ .tlbinvComplete (s 1 [3])).agenda.map (fun p => p.due) == [1], (ran_ .tlbinvComplete (s 1 [])).pkg.invals == [], vget (ran_ .tlbinvComplete (s 1 [])).pkg.xlCnt 5 0 == 1,
       (ctxOf (ran_ .tlbinvComplete (s 1 [])) 0 0).tb == 16] = List.replicate 8 true) ∧
    -- a migration: the fork taken and refused, a line, the switch, the release
    (let s := fun pa => tabled (leafTo 0x100000) (mapped0 [] (fun p => { p with migs := [{ moving .waiting with cmd := cmd5 (.migrate (2 ^ 62) pa), new := pa, size := 0, old := 0, leafAt := 0, leaf := 0 }] }))
     (leafPlace (s 0) 0 0).1 = .leaf (leafTo 0x100000) 65536 ∧ (leafPlace (s 0) 0 0).2.1 = 0x300000 ∧ (ran_ .migrationFork (s (hbmAt 0x200000))).pkg.migs = [moving (.copying 0)] ∧
       (ran_ .migrationFork (s (hbmAt 0x108000))).pkg.migs = [] ∧ (match (ran_ .migrationFork (s (hbmAt 0x108000))).msgs with | [⟨_, _, 0, .failed 0 5 false c 0 false false _, _⟩] => c | _ => 0) = 9) ∧
    (let s := fun p => mapped0 [(0x10FF80, 7), (0x10FFFF, 8), (0x300007, 0xE0)] (fun k => { k with migs := [moving p] })
     let t := ran_ .migrationCopyLine (s (.copying 0xFF80))
     let u := ran_ .migrationSwitch (s .switching)
     t.hbm = [(0x10FF80, 7), (0x10FFFF, 8), (0x20FF80, 7), (0x20FFFF, 8), (0x300007, 0xE0)] ∧ t.pkg.migs = [moving .switching] ∧
       leNat (hbmBytes u 0x300000 8) = (leafTo 0x200000).toNat ∧ u.pkg.migs = [moving .invalidating] ∧ u.pkg.invals = [((moving .waiting).cmd, 0, 0, [])] ∧
       (let v := ran_ .migrationRelease (inDie (fun d => { d with cache := [⟨0x4000, 0, [], false, false, false⟩, ⟨0x8000, 0, [], false, false, false⟩] }) (s .invalidating))
        (ctxOf v 0 0).tb = 16 ∧ v.pkg.migs = [] ∧ (dieOf v 0).cache.map (fun l => l.line) = [0x8000]) ∧
       -- a poisoned line of the page, and of the leaf
       (let bad := fun p l => { s p with hbmPoison := [l] }
        physBad (bad (.copying 0xFF80) 0x21FF) (hbmAt 0x10FF80) 128 = true ∧ (ran_ .migrationCopyLine (bad (.copying 0xFF80) 0x21FF)).pkg.migs = [] ∧
          (regionOf (ran_ .migrationCopyLine (bad (.copying 0xFF80) 0x21FF)) 0).error = some 7 ∧ (ran_ .migrationSwitch (bad .switching 0x6000)).pkg.migs = [] ∧
          (regionOf (ran_ .migrationSwitch (bad .switching 0x6000)) 0).error = some 7)) ∧
    -- an indirect stream
    (let s := fun n pos fail e => mapped0 [(0x100000, 3), (0x10010C, 0xAB)] (fun k => { k with xjobs := [⟨cmd5 (.xstr (indirect n)), pos, fail, e⟩] })
     let e := some (stackOf 0x100000)
     let t := ran_ .xstrElement (s 4 0 none e)
     bytesOfD (indirect 4) 39 1 = 1 ∧ (ran_ .xstrElement (s 4 0 none none)).pkg.xjobs.map (fun j => (j.pos, j.stack)) = [(0, e)] ∧ engineHead (s 4 0 none e) (stackOf 0x100000) 5 = true ∧
       (coreOf t 0).mem = [(0x200, 0xAB)] ∧ t.pkg.xjobs.map (fun j => j.pos) = [1] ∧
       (ran_ .xstrElement (s 3 0 none e)).pkg.xjobs.map (fun j => j.fail) = [some 9] ∧ standsBy (ran_ .xstrElement (s 4 2 none e)) .xstrComplete 5 0 0 = true ∧
       (ctxOf (ran_ .xstrComplete (s 4 2 none e)) 0 0).tb = 16 ∧ (match (ran_ .xstrComplete (s 3 0 (some 9) e)).msgs with | [⟨_, _, 0, .failed 0 5 false c 0 false false _, _⟩] => c | _ => 0) = 9 ∧
       -- behind another stream of the same stack; an index in a page that is absent
       (let u := { s 4 0 none e with pkg := { (s 4 0 none e).pkg with xjobs := [⟨{ cmd5 (.xstr (indirect 4)) with id := 6 }, 0, none, e⟩, ⟨cmd5 (.xstr (indirect 4)), 0, none, e⟩] } }
        engineHead u (stackOf 0x100000) 5 = false ∧ (ran_ .xstrElement u).agenda = u.agenda ++ [⟨1, .xstrElement, u.ev⟩]) ∧
       (let u := inCluster (fun c => { c with tlb := [] }) (tabled 0 (setCore (s 4 0 none e) 0 (core0 id)))
        isParked (ran_ .xstrElement u) 5 = true ∧ (clusterOf (ran_ .xstrElement u) 0).parked = [5])) := by
  refine ⟨?_, ?_, ?_, ?_⟩ <;> decide +kernel
/-! ## The Cascade (11_package_cascade) -/

/-- Group 2 with its source hub on die 0 and one branch, die 0; block 0 of 64 bytes. -/
def group2 (f : Group → Group) : Group := f { Group.reset with cfg := 2 ^ 63 + 3 * 2 ^ 40, br := 1, laser := .lit }
def block (n : Nat) : Block :=
  let b : Block := { gid := 2, fmt := 2, fm := false, last := true, seq := BitVec.ofNat 16 n, len := 64, soff := 0, scl := 0, data := [0xAB], crc := 0 }
  { b with crc := blockCrc b }
/-- Block n with a CRC that does not check. -/
def badBlock (n : Nat) : Block := { block n with crc := (block n).crc + 1 }
/-- The check value of CRC-32C, over the bytes of "123456789". -/
theorem test_crc32c : crc32c ((List.range 9).map (fun i => BitVec.ofNat 8 (0x31 + i))) = 0xE3069283#32 := by decide +kernel
def send2 : Send := { cmd := cmd5 (.cgsend 2 0x100 64 64 0 false false true 2 false), region := 0, pos := 0, lastSeq := none }
def cascade (g : Group → Group) (b : Branch → Branch) (s : State) : State :=
  setGroup (inDie (fun d => { d with branch := [(2, b { Branch.reset with v := true, seg := 1, nmem := 1 })] }) s) 2 (group2 g)
def branch2 (t : State) : Branch := branchOf t 0 2
def held (b : Block) (fwd : Bool) (w a : List (Nat × Nat)) (f : List (Nat × Nat × Nat)) : BranchEntry :=
  { blk := b, forwarded := fwd, due := 0, wait := w, again := a, sent := [], fails := f }
/-- Core (0, 0) with filter 1 on group 2, port 0, context 0; port 0's bank at 256 n when it has one. -/
def member (bank : W32) (rx : Nat) (c : Core) : Core :=
  { c with cgf := vset c.cgf 1 (2 ^ 63 + 2 * 2 ^ 55), cgp := vset c.cgp 0 bank,
           rx := (List.range rx).foldl (fun v i => vset v i { RxSlot.reset with st := .full }) c.rx }
theorem witness_CascadeUnitsAct :
    (let s := fun (g : Group → Group) (b : Branch → Branch) => cascade (fun y => g { y with sends := [send2] }) b (args 2 0 0 (pairOf (fun c => { c with mem := [(0x100, 0xAB)] }) id))
     let t := ran_ .cascadeBlockLaunch (s id id)
     branchDies (group2 id) = [0] ∧ branchFree (s id id) 2 0 0 = true ∧ (groupOf t 2).store = [(block 0, [0], 0)] ∧ (branch2 t).air = [block 0] ∧ standsBy t .branchReceive 0 2 2 = true ∧
       (groupOf t 2).seq = 1 ∧ (groupOf t 2).sends = [{ send2 with pos := 64, lastSeq := some 0 }] ∧
       ran_ .cascadeBlockLaunch (s (fun y => { y with fault := true }) id) = s (fun y => { y with fault := true }) id ∧
       ran_ .cascadeBlockLaunch (s (fun y => { y with seq := 4 }) id) = s (fun y => { y with seq := 4 }) id ∧
       standsBy (ran_ .cascadeBlockLaunch (s id (fun b => { b with votes := [(0, 1, 0, true)] }))) .cascadeBlockLaunch 2 0 1 = true) ∧
    -- a block that checks, one that does not, the eighth that does not, one already forwarded; the source launches again what is asked for
    received (block 0) 0 0 = some (block 0) ∧ received (badBlock 0) 0 0 = none ∧ received (block 0) 3 1 = none ∧
    (let s := fun b blk => cascade id (fun b0 => b { b0 with air := [blk] }) (args 0 2 0 (pairOf id id))
     let t := ran_ .branchReceive (s id (block 0))
     let u := fun n => ran_ .branchReceive (s (fun b => { b with fails := n }) (badBlock 0))
     (branch2 t).buf = [held (block 0) false [] [] []] ∧ (branch2 t).air = [] ∧ oneFlit t = some (3, hubCore 0, hubCore 0, hubCore 0, .branchAck 2 0 0) ∧
       standsBy t .branchForward 0 2 0 = true ∧ (branch2 (u [])).fails = [(0, 1)] ∧ standsBy (u []) .retransmitRequest 0 2 0 = true ∧ vget (dieOf (u []) 0).casc 2 0 = 1 ∧
       (groupOf (u [(1, 7)]) 2).fault = false ∧ (groupOf (u [(0, 7)]) 2).fault = true ∧ (branch2 (ran_ .branchReceive (s (fun b => { b with fwd := 1 }) (block 0)))).buf = []) ∧
    (let s := fun z => cascade (fun y => { y with store := [(block 0, [0], 0), (block 1, [0], 0)] }) id (args 0 2 z (pairOf id id))
     (branch2 (ran_ .retransmitRequest (s 1))).air = [block 1] ∧ standsBy (ran_ .retransmitRequest (s 1)) .branchReceive 0 2 2 = true ∧ ran_ .retransmitRequest (s 2) = s 2) ∧
    -- a branch forwards, with a member and with none; a member's grant holds it, and the wait is counted at the next look
    (let s := fun b f z now => { cascade id (fun b0 => b { b0 with buf := [held (block 0) false [] [] []] }) (args 0 2 z (pairOf f id)) with now := now }
     let t := ran_ .branchForward (s id (member 0 0) 0 0)
     let e := fun w => { held (block 0) true w [] [] with due := 9 }
     members (s id (member 0 0) 0 0) 0 2 = [(0, 1)] ∧ (branch2 t).buf = [e [(0, 1)]] ∧ (branch2 t).fwd = 1 ∧ vget (dieOf t 0).casc 1 0 = 1 ∧ standsBy t .memberSlotFill 0 1 9 = true ∧
       (branch2 (ran_ .branchForward (s id id 0 0))).buf = [e []] ∧ (branch2 (ran_ .branchForward (s (fun b => { b with votes := [(0, 1, 0, true)] }) (member 0 0) 0 0))).fwd = 0 ∧
       vget (dieOf (ran_ .branchForward (s (fun b => { b with votes := [(0, 1, 0, true)] }) (member 0 0) 5 9)) 0).casc 6 0 = 4) ∧
    (branch2 (ran_ .branchForward (cascade id (fun b => { b with buf := [held (block 0) true [] [] []] }) (args 0 2 0 (pairOf id id))))).buf = [] ∧
    -- a member's slot: filled, stored, none free, a bad block; behind an earlier block; served again
    (let s := fun bank rx a n blk => { cascade id (fun b0 => { b0 with buf := [held blk true [(0, 1)] a n] }) (pairOf (member bank rx) id) with ev := evArgs 0 1 0 }
     let t := ran_ .memberSlotFill (s 0 1 [] [] (block 0))
     let u := fun n => ran_ .memberSlotFill (s 0 0 [] n (badBlock 0))
     vget (coreOf t 0).rx 1 RxSlot.reset = { RxSlot.reset with st := .full, blk := some (block 0), filter := 1 } ∧ vget (coreOf t 0).fills 1 0 = 1 ∧ vget (ctxOf t 0 0).blocks 0 [] = [1] ∧
       field (vget (coreOf t 0).cgf 1 0) 0 16 = 1 ∧ oneFlit t = some (3, 0, hubCore 0, 0, .memberAck 2 0 1 0) ∧
       (coreOf (ran_ .memberSlotFill (s (2 ^ 31 + 2 * 2 ^ 19) 1 [] [] (block 0))) 0).mem = [(0x2200, 0xAB)] ∧
       (branch2 (ran_ .memberSlotFill (s 0 4 [] [] (block 0)))).buf = [held (block 0) true [(0, 1)] [(0, 1)] []] ∧ (branch2 (u [])).buf = [held (badBlock 0) true [(0, 1)] [(0, 1)] [(0, 1, 1)]] ∧
       standsBy (u []) .memberReemit 0 1 0 = true ∧ (groupOf (u [(0, 2, 7)]) 2).fault = false ∧ (groupOf (u [(0, 1, 7)]) 2).fault = true ∧
       (branch2 (ran_ .memberReemit (s 0 0 [(0, 1)] [] (block 0)))).buf = [{ held (block 0) true [(0, 1)] [] [] with sent := [(0, 1)] }] ∧
       standsBy (ran_ .memberReemit (s 0 0 [(0, 1)] [] (block 0))) .memberSlotFill 0 1 9 = true) ∧
    (let t := ran_ .memberSlotFill (cascade id (fun b => { b with buf := [held (block 0) true [(0, 1)] [(0, 1)] [], held (block 1) true [(0, 1)] [] []] }) { pairOf (member 0 0) id with ev := evArgs 0 1 1 })
     serialBefore 0 1 = true ∧ (vget (coreOf t 0).rx 0 RxSlot.reset).st = .free ∧ (branch2 t).buf.map (fun e => e.again) = [[(0, 1)], [(0, 1)]]) ∧
    -- acknowledgements and votes
    (let s := fun w due => cascade id (fun b => { b with buf := [{ held (block 0) true w [] [] with due := due }] }) (letter 0 0 (.memberAck 2 0 1 0) (pairOf id id))
     (branch2 (ran_ .blockAck (s [(0, 1)] 0))).buf = [] ∧ (branch2 (ran_ .blockAck (s [(0, 1)] 1))).buf.length = 1 ∧
       (branch2 (ran_ .blockAck (s [(0, 1), (0, 2)] 0))).buf = [held (block 0) true [(0, 2)] [] []]) ∧
    (let t := ran_ .blockAck (cascade (fun y => { y with seq := 1, store := [(block 0, [0], 0)], sends := [{ send2 with lastSeq := some 0 }] }) id (letter 0 0 (.branchAck 2 0 0) (pairOf id id)))
     (groupOf t 2).store = [] ∧ (groupOf t 2).ackd = 1 ∧ (groupOf t 2).sends = [] ∧ (ctxOf t 0 0).tb = 16) ∧
    (let s := fun k rel => cascade id (fun b => { b with votes := [(0, 1, 0, true), (0, 2, 0, true)], buf := [held (block 0) true [(0, 1)] [(0, 1)] []] }) (letter 0 0 (.vote 2 0 k rel false) (pairOf id id))
     (branch2 (ran_ .voteArrival (s 1 5))).votes = [(0, 2, 0, true), (0, 1, 5, false)] ∧ standsBy (ran_ .voteArrival (s 1 5)) .memberReemit 0 1 0 = true ∧
       standsBy (ran_ .voteArrival (s 1 0)) .memberReemit 0 1 0 = false ∧ (branch2 (ran_ .voteArrival (s 3 5))).votes = [(0, 1, 0, true), (0, 2, 0, true)]) ∧
    -- lasers
    (let s := fun l op => cascade (fun y => { y with laser := l }) id (letter 0 0 (.wake 2 (some (cmd5 op))) (pairOf id id))
     let t := ran_ .cgwakeArrival (s .dark send2.cmd.op)
     (groupOf t 2).sends = [send2] ∧ (groupOf t 2).laser = .waking ∧ standsBy t .laserLit 2 0 2000 = true ∧ (ctxOf (ran_ .cgwakeArrival (s .lit (.cgwake 2))) 0 0).tb = 16 ∧
       (groupOf (ran_ .cgwakeArrival (s .waking (.cgwake 2))) 2).wakes = [cmd5 (.cgwake 2)]) ∧
    (let s := fun y now => cascade y id { args 2 0 0 (pairOf id id) with now := now }
     let t := ran_ .laserLit (s (fun y => { y with laser := .waking, wakes := [cmd5 (.cgwake 2)] }) 0)
     (ctxOf t 0 0).tb = 16 ∧ (groupOf t 2).laser = .lit ∧ standsBy t .laserDark 2 0 3072 = true ∧ (groupOf (ran_ .laserDark (s id 3071)) 2).laser = .lit ∧
       (groupOf (ran_ .laserDark (s id 3072)) 2).laser = .dark ∧ (groupOf (ran_ .laserDark (s (fun y => { y with sends := [send2] }) 3072)) 2).laser = .lit ∧ groupHeld (s id 0) 2 = false ∧
       groupOf (ran_ .groupEntryWriteApply (s (fun y => { y with heldCfg := some 5, heldBr := some 6, fault := true }) 0)) 2 = group2 (fun y => { y with cfg := 5, br := 6 })) := by
  refine ⟨?_, ?_, ?_, ?_, ?_, ?_, ?_, ?_, ?_, ?_, ?_, ?_, ?_, ?_, ?_, ?_⟩ <;> decide +kernel
/-! ## Queues, packets and launches (12_package_launch) -/

/-- The number of a packet's fields: byte, width is in the value. -/
def pktOf (ty seq flags : Nat) (fs : List (Nat × Nat)) : BitVec 1024 :=
  BitVec.ofNat 1024 (fs.foldl (fun n f => n + f.2 * 256 ^ f.1) (0xA5 + ty * 2 ^ 8 + seq * 2 ^ 16 + flags * 2 ^ 32))
def packet (i : Nat) (b : BitVec 1024) (d : Bool) : Packet := ⟨BitVec.ofNat 16 i, b, d, none, none, 0, none⟩
/-- Queue 5 with its ring of 16 slots at host address 0x10000, active, over a host link that is up; CIDX, RIDX, WIDX. -/
def ring5 (f : Queue → Queue) (c r w : Nat) : Queue :=
  f { Queue.reset with base := 0x10000, cfg := 0x0000000000091004, st := .active, cidx := BitVec.ofNat 16 c, ridx := BitVec.ofNat 16 r, widx := BitVec.ofNat 16 w }
def queued (x : Queue) (a b : Nat) (h : List Host.Cell) (now : Nat) : State :=
  setQueue { args a b 0 (pairOf id id) with host := h, now := now, pkg := { (pairOf id id).pkg with linkUp := 1 } } 5 x
/-- A packet's bytes in host memory. -/
def cells (a : Nat) (b : BitVec 1024) : List Host.Cell := (List.range 128).filterMap (fun i => let v := b.extractLsb' (8 * i) 8
  if v = 0 then none else some (a + i, v))
def signal5 (i : Nat) : BitVec 1024 := pktOf 4 i 2 [(16, 0x5000), (24, 0x1122), (32, 1)]
/-- Whether a packet of queue 5 completes next, with STATUS and CODE. -/
def completing (t : State) (idx st code : Nat) : Bool :=
  t.agenda.any (fun p => decide (p.op = .packetCompletion ∧ p.args.x = 5 ∧ p.args.y = idx ∧ p.args.v = BitVec.ofNat 64 (st + 256 * code)))
theorem witness_QueuesRun :
    (let x := ring5 id 3 3 3
     (queueRead (queued x 0 0 [(0x5001, 7)] 0) 5 false 0x5000 3 1).1 = .got [0, 7, 0] ∧ slotAddress x 18 = some (0x10000 + 128 * 2) ∧
       -- kicks: beyond the ring, within it, of a closed queue
       queueOf (ran_ .queueKick (queued x 5 19 [] 0)) 5 = { x with widx := 19, kickAt := 1 } ∧ vget (ran_ .queueKick (queued x 5 20 [] 0)).pkg.cnt 1 0 = 1 ∧
       queueOf (ran_ .queueKick (queued x 5 20 [] 0)) 5 = x ∧ ran_ .queueKick (queued { x with st := .closed } 5 4 [] 0) = queued { x with st := .closed } 5 4 [] 0 ∧
       -- a later write of the queue waits for an earlier one
       (let s := fun z => { queued x 5 19 [] 0 with ev := evArgs 5 19 1, agenda := [⟨0, .queueKick, evArgs 5 4 z⟩] }
        kickBefore (s 0) = true ∧ ran_ .queueKick (s 0) = { s 0 with agenda := (s 0).agenda ++ [⟨1, .queueKick, evArgs 5 19 1⟩] } ∧ kickBefore (s 2) = false) ∧
       -- EN, with its word of PKG_QCPLA, and OFF
       queueOf (ran_ .queueEnable (queued { x with st := .disabled } 5 9 [] 0)) 5 = ring5 id 9 9 9 ∧ ran_ .queueEnable (queued x 5 9 [] 0) = queued x 5 9 [] 0 ∧
       (ran_ .queueEnable (queued { x with st := .disabled, cpla := 0x7000 } 5 9 [] 0)).host = [(0x7000, 9), (0x7002, 9)]) ∧
    (let x := fun d => ring5 (fun x => { x with packets := [packet 3 (signal5 3) d, packet 4 (signal5 4) false] }) 3 5 5
     (queueOf (ran_ .queueOff (queued (x true) 5 0 [] 0)) 5).packets.length = 1 ∧ (queueOf (ran_ .queueOff (queued (x true) 5 0 [] 0)) 5).offPend = true ∧
       (queueOf (ran_ .queueOff (queued (x false) 5 0 [] 0)) 5).st = .disabled ∧ (queueOf (ran_ .queueOff (queued (x false) 5 0 [] 0)) 5).packets = []) ∧
    -- fetches: a good slot, a stale one, the eighth stale one, a broken read
    (let x := fun n => ring5 (fun x => { x with rereads := n }) 3 3 4
     let s := fun n seq => queued (x n) 5 0 (cells 0x10180 (signal5 seq)) 0
     queueOf (ran_ .packetFetch (s 0 3)) 5 = { ring5 id 3 4 4 with packets := [packet 3 (signal5 3) false] } ∧ (queueOf (ran_ .packetFetch (s 0 2)) 5).rereads = 1 ∧
       standsBy (ran_ .packetRefetch (s 3 2)) .packetRefetch 5 0 1000 = true ∧ (queueOf (ran_ .packetRefetch (s 7 2)) 5).parked = true ∧ vget (ran_ .packetRefetch (s 7 2)).pkg.cnt 0 0 = 1 ∧
       -- a kick accepted in the same tick restarts the fetch
       (let u := ran_ .packetRefetch (queued { x 7 with kickAt := 1 } 5 0 (cells 0x10180 (signal5 2)) 0)
        (queueOf u 5).parked = false ∧ standsBy u .packetFetch 5 0 0 = true)) ∧
    (let s := queued { ring5 id 3 3 4 with base := 2 ^ 62 + 1 } 5 0 [] 0
     (queueRead s 5 true (3 * 128) 128 3).1 = .broken ∧ (queueOf (ran_ .packetFetch s) 5).st = .faulted ∧ (queueOf (ran_ .packetFetch s) 5).fcode = 0x0D ∧ (ran_ .packetFetch s).pkg.msix = [9]) ∧
    -- dispatch of a packet that keeps its limits and of one that does not; AGE
    (let x := fun b => ring5 (fun x => { x with packets := [packet 3 b false] }) 3 4 4
     let t := ran_ .packetDispatch (queued (x (signal5 3)) 0 0 [] 0)
     packetOk 5 (x (signal5 3)) (signal5 3) = true ∧ ((queueOf t 5).packets.map (fun p => p.dispatched)) = [true] ∧ standsBy t .signal 5 3 0 = true ∧
       completing (ran_ .packetDispatch (queued (x (signal5 3 + 256 ^ 7)) 0 0 [] 0)) 3 4 4 = true) ∧
    (let x := fun e => ring5 (fun x => { x with cfg := 0x0002000000091004, wait := 1000, elev := e, packets := [packet 3 (signal5 3) false] }) 3 4 4
     standsBy (ran_ .ageRise (queued (x 0) 5 0 [] 3046)) .ageRise 5 0 3047 = true ∧ (queueOf (ran_ .ageRise (queued (x 0) 5 0 [] 3047)) 5) = { x 1 with wait := 3048 } ∧
       ran_ .ageRise (queued (x 14) 5 0 [] 3047) = queued (x 14) 5 0 [] 3047 ∧
       (queueOf (ran_ .ageRise (queued { x 0 with packets := [] } 5 0 [] 3047)) 5).wait = 0) ∧
    -- completion of a SIGNAL and of an unknown TYPE
    (let s := fun b => { queued (ring5 (fun x => { x with packets := [packet 3 b true] }) 3 4 4) 5 3 [] 0 with ev := { evArgs 5 3 0 with v := 0x401 } }
     let t := ran_ .packetCompletion (s (signal5 3))
     (queueOf t 5).packets = [] ∧ (queueOf t 5).cidx = 4 ∧ (List.range 8).map (fun i => memByte t.host (0x10180 + i)) = [0, 4, 3, 0, 2, 1, 4, 0] ∧ t.pkg.msix = [9] ∧
       (queueOf (ran_ .packetCompletion (s (pktOf 12 3 0 []))) 5).fcode = 3) := by
  refine ⟨?_, ?_, ?_, ?_, ?_, ?_, ?_⟩ <;> decide +kernel
/-- An image of one logical core with one context that has no rule; what the bytes of an image decode to is a free value (log entry 37), so
the parts below show that the other hypotheses hold for this image in its place. -/
def seat1 : ImageCore :=
  { rx := 0, ry := 0, hx := 0, hy := 0, cbase := 0, wbase := 0, wsize := 1536, data := [(0x10, 7)], cgf := [], trn := [],
    ctxs := [{ c := 0, headers := [], body := [], matrix := [], lits := [], binds := [], mcls := [], tmask := [], undo := 0, bmem := 0 }] }
def image1 (w h : Nat) : Image :=
  { reject := none, queue := 5, grade := 0, record := false, w := w, h := h, placements := [{ fold := 0, w := w, h := h, cores := [seat1] }], groups := [], pairs := [], pins := [], pinGroups := [] }
/-- Context c whose one rule clears its accumulators 0 to 3. -/
def accs4 (c : Nat) : ImageCtx :=
  { c := c, headers := [(7 * 2048, 0)], body := (List.range 4).flatMap (fun n => encode (.accz 0 (BitVec.ofNat 2 n) 0)), matrix := [], lits := [], binds := [], mcls := [],
    tmask := [], undo := 0, bmem := 0 }
/-- Dies (0, 0) at 1.25 GHz and (1, 0) at 1.00 GHz with the band words of R286's worked case on row 5. -/
def twoDies : State :=
  setDie (setDie State.reset 0 { dieOf State.reset 0 with band := [(149, 0x80120705)] }) 1
    { dieOf State.reset 1 with band := [(5, 0x800E0705)], vf := vset (dieOf State.reset 1).vf 0 { VfRegion.reset 0 with freq := 100 } }
/-- The least depths of R286's worked case, and a binding one short of its least depth. -/
theorem test_least_depths :
    (leastDepth twoDies (256 * 36 + 5) (256 * 40 + 5), leastDepth twoDies (256 * 40 + 5) (256 * 36 + 5)) = (20, 16) ∧
    (let seats := fun d => [Seat.mk 0 0 { seat1 with ctxs := [{ accs4 0 with binds := [(0, 1, 0, 0, d)] }] }, ⟨1, 0, { seat1 with rx := 1, hx := 1 }⟩]
     (ratesFit State.reset (seats 1), ratesFit State.reset (seats 0)) = (true, false)) := by
  refine ⟨?_, ?_⟩ <;> decide +kernel
/-- Queue 5 with one packet; a LAUNCH of mode m on slot n. -/
def launched (m n : Nat) : BitVec 1024 := pktOf 1 3 0 [(16, 0x5000), (24, 64), (28, n), (30, m)]
def oneOf (b : BitVec 1024) (d : Bool) (f : Packet → Packet) (h : List Host.Cell) : State :=
  queued (ring5 (fun x => { x with packets := [f (packet 3 b d)] }) 3 4 4) 5 3 h 0
def running1 (f : Region → Region) (s : State) : State :=
  setRegion s 3 (f { Region.reset with st := .running, w := 1, h := 1, queue := 5, pkt := 3, cores := [0], seats := [{ x := 0, y := 0, core := seat1 }], image := some (image1 1 1) })
def settled (t : State) : List Nat := (queueOf t 5).packets.map (fun p => p.progress)
theorem witness_LaunchesArePlaced :
    -- accumulators: the maps of two contexts, and three contexts that need 12 slots
    ((image1 1 1).placements.all accsFit = true ∧ ctxAccs (accs4 0) = [0, 1, 2, 3] ∧ accMaps [⟨0, 0, { seat1 with ctxs := [accs4 0, accs4 1] }⟩] = [(0, 0xBA98), (1, 0xFEDC)] ∧
      accsFit ⟨0, 1, 1, [{ seat1 with ctxs := [accs4 0, accs4 1] }]⟩ = true ∧
      imageRefused State.reset 5 { image1 1 1 with placements := [⟨0, 1, 1, [{ seat1 with ctxs := [accs4 0, accs4 1, accs4 2] }]⟩] } = some 1) ∧
    (imageRefused State.reset 5 (image1 1 1) = none ∧ imageRefused State.reset 6 (image1 1 1) = some 4 ∧ imageRefused State.reset 5 (image1 289 1) = some 3 ∧
      imageRefused State.reset 5 { image1 1 1 with grade := 9 } = some 3) ∧
    (let s := oneOf (launched 0 0xFFFF) false id []
     let x := queueOf s 5
     let p := packet 3 (launched 0 0xFFFF) false
     headPacket x = some p ∧ packetOk 5 x p.bytes = true ∧ (match (launchImage s 5 p).1 with | .got bs => bs.length | _ => 0) = 64 ∧ regionOf s 0 = Region.reset) ∧
    -- a place, its seats, its groups; the lowest y and x, past a taken core; no place
    (let s := oneOf (launched 0 0xFFFF) false id []
     let u := running1 id s
     (tryOrder (image1 1 1)).findSome? (findPlace s (image1 1 1) false) = some (⟨0, 1, 1, [seat1]⟩, (0, 0), (0, 0)) ∧ allocSeats s 0 (seatsAt ⟨0, 1, 1, [seat1]⟩ 0 0) = some [⟨0, 0, seat1⟩] ∧
       groupPlan s 0 0 (image1 1 1) [⟨0, 0, seat1⟩] = some [] ∧ depthsFit s 0 [] = true ∧ ratesFit s [⟨0, 0, seat1⟩] = true ∧ findOrigin u (image1 1 1) ⟨0, 1, 1, [seat1]⟩ none = some (1, 0) ∧
       fitsAt u (image1 1 1) ⟨0, 1, 1, [seat1]⟩ 0 0 none = false ∧ (tryOrder (image1 288 256)).findSome? (findPlace u (image1 288 256) false) = none) ∧
    (let s := oneOf (launched 0 0xFFFF) false id []
     let t := placeRegion s 5 3 (image1 1 1) false ⟨0, 1, 1, [seat1]⟩ (0, 0) (0, 0) [⟨0, 0, seat1⟩] [] 0 0
     [(regionOf t 0).st == .loading, (regionOf t 0).w == 1, (regionOf t 0).queue == 5, (regionOf t 0).pkt == 3, (regionOf t 0).seats == [⟨0, 0, seat1⟩]] = List.replicate 5 true) ∧
    -- a shadow load: its packet, its slot, its end
    (let s := running1 id (oneOf (launched 1 3) true id [])
     packetOf s 5 3 = some (packet 3 (launched 1 3) true) ∧ inPacket (launched 1 3) 28 2 = 3 ∧ (image1 1 1).placements.find? (fun p => p.fold == (regionOf s 3).fold) = some ⟨0, 1, 1, [seat1]⟩ ∧
       allocSeats s 3 (seatsAt ⟨0, 1, 1, [seat1]⟩ 0 0) = some [⟨0, 0, seat1⟩] ∧ (regionOf s 3).next = none) ∧
    (let s := running1 (fun r => { r with next := some ⟨image1 1 1, [⟨0, 0, seat1⟩], [], 5, 3, 1⟩, loading := true }) (args 3 0 0 (pairOf id id))
     let r := regionOf (ran_ .shadowLoadEnd s) 3
     r.shadow = true ∧ r.loading = false ∧ r.swpend = true) ∧
    -- WAIT on an index, reached and not; on a word of memory
    (let s := fun (k n v : Nat) => oneOf (pktOf 3 3 0 [(16, k), (18, 5), (20, n), (24, 0x6000), (32, v)]) false id [(0x6000, 4)]
     ran_ .wait (s 0 2 0) = { s 0 2 0 with agenda := [⟨0, .packetDispatch, EvArgs.none⟩] } ∧
       -- at the head: it holds, it does not, and one under a FENCE behind a packet that is not complete
       ((dispatchable (s 0 2 0) 5).isSome, (dispatchable (s 0 3 0) 5).isSome, (dispatchable (s 1 0 4) 5).isSome) = (true, false, false) ∧
       (let w := pktOf 3 4 1 [(18, 5), (20, 2)]
        let u := fun d => setQueue (s 0 2 0) 5 { queueOf (s 0 2 0) 5 with packets := [{ packet 3 (signal5 3) true with status := d }, packet 4 w false] }
        ((readyHead (u none) 5).isSome, (readyHead (u (some (1, 0))) 5).isSome) = (false, true)) ∧ ran_ .wait (s 0 3 0) = s 0 3 0 ∧ standsBy (ran_ .wait (s 1 0 4)) .waitPoll 5 3 0 = true ∧ settled (ran_ .waitPoll (s 1 0 4)) = [1] ∧
       settled (ran_ .waitPoll (s 1 0 5)) = [0] ∧ standsBy (ran_ .waitPoll (s 1 0 5)) .waitPoll 5 3 1000 = true ∧ settled (ran_ .waitPoll (s 2 0 3)) = [0]) := by
  refine ⟨?_, ?_, ?_, ?_, ?_, ?_, ?_⟩ <;> decide +kernel
/-- Each dispatched packet's step on a small queue. -/
theorem witness_PacketsDoTheirWork :
    -- COPY: a piece, the end, a broken source, a poisoned one
    (let b := fun (src len : Nat) => pktOf 2 3 0 [(16, src), (24, 0x6000), (32, len)]
     let s := fun src len pr => oneOf (b src len) true (fun p => { p with progress := pr }) [(0x5000, 7), (0x5001, 8)]
     let t := ran_ .copy (s 0x5000 2 0)
     t.host = [(0x5000, 7), (0x5001, 8), (0x6000, 7), (0x6001, 8)] ∧ settled t = [2] ∧ standsBy t .copy 5 3 0 = true ∧ completing (ran_ .copy (s 0x5000 2 2)) 3 1 0 = true ∧
       completing (ran_ .copy (s (2 ^ 62) 2 0)) 3 3 0x0D = true) ∧
    -- SIGNAL, alone and behind a packet that is not complete
    (let s := oneOf (signal5 3) true id []
     let t := ran_ .signal s
     t.host = [(0x5000, 0x22), (0x5001, 0x11)] ∧ t.pkg.msix = [9] ∧ completing t 3 1 0 = true ∧
       (let u := setQueue s 5 { queueOf s 5 with packets := [packet 2 (signal5 2) true, packet 3 (signal5 3) true] }
        ran_ .signal u = { u with agenda := [⟨1, .signal, u.ev⟩] })) ∧
    -- GROUPLOAD: an entry, the end, an entry that is held
    (let b := pktOf 5 3 0 [(16, 0x5000), (24, 1)]
     let s := fun pr => oneOf b true (fun p => { p with progress := pr }) [(0x5000, 2), (0x5008, 1), (0x500D, 3), (0x500F, 0x80), (0x5010, 1)]
     let t := ran_ .groupload (s 0)
     settled t = [1] ∧ (groupOf t 2).br = 1 ∧ (groupOf t 2).cfg = 2 ^ 63 + 3 * 2 ^ 40 ∧ completing (ran_ .groupload (s 1)) 3 1 0 = true ∧
       standsBy (ran_ .groupload (setGroup (s 1) 2 { Group.reset with heldBr := some 1 })) .groupload 5 3 1 = true) ∧
    -- RESERVOIR_LOAD: behind a user, beyond the pinned part, stored
    (let b := fun off : Nat => pktOf 6 3 0 [(16, 0), (20, off), (24, 2 ^ 62), (32, 64)]
     let s := fun off f => inDie f (setQueue { (oneOf (b off) true id []) with hbm := [(0x100001, 9)] } 5 { queueOf (oneOf (b off) true id []) 5 with asroot := tableTo 0x400000 })
     let h := word8 0x300000 (leafTo 0x100000) ++ word8 0x400000 (tableTo 0x410000) ++ word8 0x410000 (tableTo 0x420000) ++ word8 0x420000 (tableTo 0x300000)
     let t := ran_ .reservoirLoad { s 64 id with hbm := (0x100001, 9) :: h }
     (dieOf t 0).pinned = [(65, 9)] ∧ completing t 3 1 0 = true ∧ standsBy (ran_ .reservoirLoad (s 64 (fun d => { d with users := [1] }))) .reservoirLoad 5 3 1 = true ∧
       completing (ran_ .reservoirLoad (s (16 * 6291456) id)) 3 4 4 = true ∧
       -- in the refresh window of its bank
       (reservoirWait { s 64 id with now := 2100 } 0 (pinnedAddress 0 64) 64).2.1 = 220 ∧ standsBy (ran_ .reservoirLoad { s 64 id with now := 2100 }) .reservoirLoad 5 3 2320 = true) ∧
    -- DESTROY of queue 6: closed, with work, without, by force
    (let b := pktOf 9 3 0 [(16, 6)]
     let s := fun f => setQueue (oneOf b true id []) 6 (f { Queue.reset with st := .active })
     let busy := fun x : Queue => { x with packets := [packet 0 (signal5 0) true] }
     completing (ran_ .destroy (s (fun x => { x with st := .closed }))) 3 1 0 = true ∧ (queueOf (ran_ .destroy (s busy)) 6).st = .closing ∧ (queueOf (ran_ .destroy (s busy)) 6).closers = [(5, 3, false)] ∧
       (queueOf (ran_ .destroy (s id)) 6).st = .closed ∧ completing (ran_ .destroy (s id)) 3 1 0 = true ∧ (queueOf (ran_ .destroyForce (running1 (fun r => { r with queue := 6 }) (s busy))) 6).st = .closing ∧
       (regionOf (ran_ .destroyForce (running1 (fun r => { r with queue := 6 }) (s busy))) 3).st = .free ∧
       (ran_ .destroyForce (s busy)).agenda.any (fun p => decide (p.op = .packetCompletion ∧ p.args.x = 6 ∧ p.args.v = 2)) = true) ∧
    -- RECORD and PWR
    (let s := oneOf (pktOf 10 3 0 [(16, 0x7000), (24, 64), (28, 1)]) true id []
     let x := queueOf (ran_ .record s) 5
     (x.logBase, x.logEntries, x.logOn) = (0x7000, 64, true) ∧ completing (ran_ .record s) 3 1 0 = true) ∧
    (let s := oneOf (pktOf 11 3 0 [(18, 2), (20, 30000)]) true id []
     (ran_ .pwrSetCap s).pkg.cap = 28000 ∧ (ran_ .pwrSetCap s).pkg.newPower = [(5, 3)] ∧ tget (ran_ .pwrSetFloor s).pkg.parts 0 2 = 30000) := by
  refine ⟨?_, ?_, ?_, ?_, ?_, ?_, ?_⟩ <;> decide +kernel
/-! ## Gangs (12_package_launch, R332 to R343) -/

/-- Region 3, running on core (0, 0) with its context 0, its LAUNCH packet 3 of queue 5. -/
def gang3 (f : Region → Region) (g : Core → Core) (now : Nat) : State :=
  let s := running1 f (oneOf (launched 0 0xFFFF) true id [])
  { setCore s 0 (g (inSlot (fun x => { x with region := 3 }) (coreOf s 0))) with ev := evArgs 3 0 0, now := now }
def region3 (t : State) : Region := regionOf t 3
def shadow1 (m : Nat) : Shadow := ⟨{ image1 1 1 with record := true }, [⟨0, 0, seat1⟩], [], 5, 4, m⟩
/-- A message to a step that also has operands of its own. -/
def note (dst : Nat) (p : Payload) (s : State) : State := { s with msgs := [⟨7, 0, dst, p, false⟩], ev := { evArgs 7 0 0 with v := 1 } }
theorem witness_GangsRunStopAndSwap :
    (let begun := inSlot (fun x => { x with rounds := 9 })
     let s := gang3 id begun 0
     gangSlots s 3 = [(0, 0)] ∧ ran_ .stillSweep (gang3 (fun r => { r with stopping := true }) begun 0) = gang3 (fun r => { r with stopping := true }) begun 0 ∧
       (ran_ .stillSweep (gang3 (fun r => { r with sweeping := some (true, 0, 0, []) }) begun 0)).agenda.map (fun p => p.due) = [1] ∧
       standsBy (ran_ .stillSweep (gang3 id id 0)) .stillSweep 3 0 1024 = true ∧ (region3 (ran_ .stillSweep s)).sweeping = some (true, 0, 0, [0]) ∧
       oneFlit (ran_ .stillSweep s) = some (3, 0, 0, 0, .ask 3) ∧ standsBy (ran_ .stillSweep s) .stillSweep 3 0 1024 = true) ∧
    -- the request reaches a core, and its next boundary answers
    (coreOf (ran_ .stillSweep (note 0 (.ask 3) (gang3 id id 0))) 0).ask = some 3 ∧
    (let s := { gang3 id (fun c => let d := inSlot (fun x => { x with ended := true }) c
       { d with ctx := vset d.ctx 1 { ctx0 with resident := true }, ask := some 3, sent := 4, rcvd := 5 }) 0 with ev := evArgs 0 0 0 }
     let t := ran_ .round s
     coreLive (coreOf s 0) = true ∧ clockStopped s 0 = false ∧ (clusterOf s (clusterKey 0)).rstate = 0 ∧ eligible (ctxOf s 0 (coreOf s 0).act.toNat) = false ∧
       coreIdle s 3 0 false = true ∧ (coreOf t 0).ask = none ∧ oneFlit t = some (2, 0, 0, 0, .still 3 true 4 5)) ∧
    -- an answer arrives: of no sweep, with others to come, the last one, not quiet and quiet
    (let s := fun (sw : Option (Bool × W64 × W64 × List Nat)) (f : Region → Region) => note 0 (.still 3 true 3 3) (gang3 (fun r => f { r with sweeping := sw }) id 0)
     let was := fun (r : Region) => { r with lastSweep := some (true, 4, 4) }
     (region3 (ran_ .sweepResult (s none id))).sweeping = none ∧ (region3 (ran_ .sweepResult (s (some (true, 1, 2, [0, 1])) id))).sweeping = some (true, 4, 5, [1]) ∧
       (region3 (ran_ .sweepResult (s (some (true, 1, 2, [0])) was))).lastSweep = some (true, 4, 5) ∧
       (region3 (ran_ .sweepResult (s (some (true, 1, 1, [0])) (fun r => { was r with error := some 7 })))).lastSweep = some (true, 4, 4) ∧
       (region3 (ran_ .sweepResult (s (some (true, 1, 1, [0])) (fun r => { was r with swpend := true })))).st = .swapping ∧
       (coreOf (ran_ .sweepResult (s (some (true, 1, 1, [0])) (fun r => { was r with swpend := true }))) 0).stopped = true ∧
       completing (ran_ .sweepResult (s (some (true, 1, 1, [0])) was)) 3 1 0 = true) ∧
    -- a sweep of no core ends not quiet, and quiet with and without a swap
    (let s := fun (sw : Option (Bool × W64 × W64 × List Nat)) (f : Region → Region) => gang3 (fun r => f { r with sweeping := sw }) id 0
     let was := fun (r : Region) => { r with lastSweep := some (true, 4, 4) }
     ran_ .sweepResult (s (some (true, 1, 1, [0])) id) = s (some (true, 1, 1, [0])) id ∧ (region3 (ran_ .sweepResult (s (some (true, 4, 5, [])) was))).lastSweep = some (true, 4, 5) ∧
       (region3 (ran_ .sweepResult (s (some (true, 4, 4, [])) (fun r => { was r with swpend := true })))).st = .swapping ∧
       (region3 (ran_ .sweepResult (s (some (true, 4, 4, [])) was))).st = .ended ∧ completing (ran_ .sweepResult (s (some (true, 4, 4, [])) was)) 3 1 0 = true ∧
       (ctxOf (ran_ .sweepResult (s (some (true, 4, 4, [])) was)) 0 0).resident = false) ∧
    -- the swap: taken, and refused for a stray token
    (let s := fun d f => gang3 (fun r => { r with st := .swapping, swpend := true, shadow := true, next := some (shadow1 1), discard := d, swapper := some (ctxNumber 9 9 0, 2, none) })
       (fun c => f { c with active := [(0x1000, 1)], shadow := [(0x1000, 2)] }) 0
     let stray := inSlot (fun x => { x with inq := vset x.inq 2 [tokn] })
     strays (s false id) 3 = [] ∧ (region3 (s false id)).next = some (shadow1 1) ∧ (strays (s false stray) 3).length = 1 ∧ (region3 (ran_ .sweepResult (s false stray))).pkt = 3 ∧
       completing (ran_ .sweepResult (s false stray)) 4 3 0x0E = true ∧ (coreOf (ran_ .sweepResult (s false stray)) 0).active = [(0x1000, 1)] ∧
       (region3 (s true stray)).st = .swapping ∧ (region3 (s true stray)).discard = true) ∧
    -- GBAR
    (let s := fun g f => gang3 f (inSlot (fun x => { x with gbar := g })) 0
     let t := ran_ .gbarCompletion (s (some (some 4)) id)
     gbarReady (s (some (some 4)) id) 3 = true ∧ (ctxOf t 0 0).tb = 16 ∧ (ctxOf t 0 0).gbar = none ∧ (region3 t).sstep = 1 ∧
       gbarReady (s (some none) (fun r => { r with error := some 7 })) 3 = false ∧ standsBy (ran_ .gbarCompletion (s (some none) (fun r => { r with error := some 7 }))) .gbarCompletion 3 0 1024 = true ∧
       ran_ .gbarCompletion (s none id) = s none id) := by
  refine ⟨?_, ?_, ?_, ?_, ?_, ?_, ?_⟩ <;> decide +kernel
theorem witness_gang_stops :
    (let s := gang3 id id 0
     let t := ran_ .gangStop s
     gbarReady s 3 = false ∧ (region3 t).stopping = true ∧ (coreOf t 0).stopped = true ∧ standsBy t .gangStopScanOut 3 0 20000 = true ∧
       ran_ .gangStop (gang3 (fun r => { r with st := .stopped }) id 0) = gang3 (fun r => { r with st := .stopped }) id 0 ∧
       (ran_ .gangStop (gang3 (fun r => { r with st := .rolling }) id 0)).agenda.map (fun p => p.due) = [1] ∧
       -- a SLUICE reaches the Sluice tree
       (region3 (ran_ .gangStop (note 0 (.sluice 3 9) s))).reason = 9 ∧ standsBy (ran_ .gangStop (note 0 (.sluice 3 9) s)) .gangStop 3 0 0 = true) ∧
    (let s := fun f => gang3 (fun r => { r with stopping := true }) f 0
     let t := ran_ .gangStopScanOut (s id)
     drained (s id) 3 = true ∧ (region3 t).st = .stopped ∧ (region3 t).stopping = false ∧ standsBy t .gangResume 3 0 1000 = true ∧ ran_ .gangStopScanOut (gang3 id id 0) = gang3 id id 0 ∧
       drained (s (fun c => { c with granted := 1 })) 3 = false ∧ (ran_ .gangStopScanOut (s (fun c => { c with granted := 1 }))).agenda.map (fun p => p.due) = [1]) ∧
    (let s := fun f => gang3 (fun r => f { r with st := .stopped }) (fun c => { c with stopped := true }) 0
     queueChosen (s id) 5 = true ∧ roomBack (s id) 3 = true ∧ (region3 (ran_ .gangResume (s id))).st = .running ∧ (coreOf (ran_ .gangResume (s id)) 0).stopped = false ∧
       standsBy (ran_ .gangResume (s (fun r => { r with error := some 7 }))) .rollback 3 0 0 = true ∧ ran_ .gangResume (s (fun r => { r with dead := true })) = s (fun r => { r with dead := true }) ∧
       (let u := setQueue (s id) 6 { ring5 (fun x => { x with packets := [packet 3 (launched 0 0xFFFF) false] }) 3 4 4 with elev := 3 }
        queueChosen u 5 = false ∧ standsBy (ran_ .gangResume u) .gangResume 3 0 1000 = true) ∧
       -- s4 and TB read back from the context's save area
       (let u := { s id with hbm := word8 0x100020 9 ++ word8 0x100488 16 }
        let v := ran_ .gangResume (setCore u 0 { coreOf u 0 with save := vset (coreOf u 0).save 0 (hbmAt 0x100000) })
        vget (ctxOf v 0 0).s 4 0 = 9 ∧ (ctxOf v 0 0).tb = 16)) := by
  refine ⟨?_, ?_, ?_⟩ <;> decide +kernel
/-- A retirement of logical core (0, 0) to the spare in column 12 of its cluster. -/
def retiring (j : Nat) (s : State) : State := { s with ev := { evArgs 0 0 0 with v := BitVec.ofNat 64 (j / 256 * 2 ^ 37 + j % 256 * 2 ^ 29) } }
theorem witness_GangsRetireAndRollBack :
    (let s := fun v now => gang3 (fun r => { r with victim := v, stopAt := 100 }) id now
     ran_ .preemptDeadline (s none 0) = s none 0 ∧ standsBy (ran_ .preemptDeadline (s (some (5, 1)) 200)) .preemptDeadline 3 0 20100 = true ∧
       (region3 (ran_ .preemptDeadline (s (some (5, 1)) 20100))).victim = some (5, 0) ∧ standsBy (ran_ .preemptDeadline (s (some (5, 1)) 20100)) .gangStop 3 0 20100 = true) ∧
    (let s := pairOf (fun c => { c with mem := [(5, 5)] }) id
     let t := ran_ .pkgRetireGo (retiring 3072 s)
     spareOk s 0 0 3072 = true ∧ spareOk s 0 0 1 = false ∧ (ran_ .pkgRetireGo (retiring 1 s)).pkg.retire = BitVec.ofNat 64 (2 ^ 29 + 2 ^ 28) ∧ s.pkg.cmbase = 0 ∧
       (placeOf t 0 0).map (fun p => p.1) = some 3072 ∧ (coreOf t 3072).mem = [(5, 5)] ∧ (coreOf t 0).mem = [] ∧ vget t.pkg.cnt 9 0 = 1) ∧
    (let u := retiring 3072 { pairOf id id with region := [(3, { Region.reset with st := .running, cores := [0], seats := [⟨0, 0, seat1⟩] })] }
     (region3 (ran_ .pkgRetireGo u)).retire = some (0, 0, 3072) ∧ (ran_ .pkgRetireGo u).pkg.retire = BitVec.ofNat 64 (2 ^ 63 + 12 * 2 ^ 37) ∧
       -- a retirement that waits already: ignored, and looked at again by its own step
       (let w := { u with pkg := { u.pkg with retire := BitVec.ofNat 64 (2 ^ 63) } }
        ran_ .pkgRetireGo w = w ∧ (region3 (ran_ .pkgRetireGo { w with ev := { w.ev with z := 1 } })).retire = some (0, 0, 3072))) ∧
    -- the stop of a rollback, the last one, the restore
    (let s := fun n => gang3 (fun r => { r with error := some 7, rbcnt := n }) id 0
     let t := ran_ .rollback (s 3)
     (region3 (ran_ .rollback (s 0))).st = .rolling ∧ (coreOf (ran_ .rollback (s 0)) 0).stopped = true ∧ (region3 t).dead = true ∧ (region3 t).error = none ∧ (queueOf t 5).st = .faulted ∧
       (queueOf t 5).fcode = 7 ∧ completing t 3 3 7 = true ∧ ran_ .rollback (gang3 id id 0) = gang3 id id 0) ∧
    (let old : SavedCore := ⟨0, [(0, { ctx0 with region := 3, s := vset ctx0.s 4 9 })], core0 id⟩
     let undo : W64 := 0x400 * 2 ^ 36 + 2 * 2 ^ 16
     let s := fun code ps => gang3 (fun r => { r with st := .rolling, error := some code, check := [old], pages := ps })
       (fun c => { inSlot (fun x => { x with undoIdx := [1], undo := undo }) c with mem := [(0x101, 2), (0x40001, 3)] }) 0
     let t := ran_ .rollback (s 7 [])
     (region3 t).st = .running ∧ (region3 t).rbcnt = 1 ∧ vget (ctxOf t 0 0).s 4 0 = 9 ∧ field undo 36 11 = 0x400 ∧ memByte (coreOf t 0).mem 0x101 = 3 ∧
       (region3 (ran_ .rollback (s 0x0D [9]))).st = .stopped ∧ (region3 (ran_ .rollback (s 0x0D [9]))).rbcnt = 0 ∧
       -- s4 and TB read back from the checkpoint area
       (let u := { s 7 [] with hbm := word8 0x100020 11 ++ word8 0x100488 16 }
        let v := ran_ .rollback (setCore u 0 { coreOf u 0 with ckpt := hbmAt 0x100000 })
        vget (ctxOf v 0 0).s 4 0 = 11 ∧ (ctxOf v 0 0).tb = 16)) ∧
    (let s := fun now => gang3 (fun r => { r with exits := [⟨false, 0, 0, 0, 0, 0, .item (.gbar none), 50⟩] }) id now
     (region3 (ran_ .comparatorMismatch (s 0))).error = some 0x13 ∧ (region3 (ran_ .comparatorTimeout (s 100050))).error = some 0x13 ∧ ran_ .comparatorTimeout (s 100049) = s 100049) := by
  refine ⟨?_, ?_, ?_, ?_, ?_, ?_⟩ <;> decide +kernel
/-! ## Host services and package registers (14_package_host) -/

/-- SHA-256 of "abc", as FIPS 180-4 gives it: its first and last words. -/
theorem test_sha256 :
    (leBytes 32 (sha256 [0x61, 0x62, 0x63]).toNat).take 4 = [0xBA, 0x78, 0x16, 0xBF] ∧
    (leBytes 32 (sha256 [0x61, 0x62, 0x63]).toNat).drop 28 = [0xF2, 0x00, 0x15, 0xAD] := by decide +kernel
/-- Events to write, package fields. -/
def pkged (f : Pkg → Pkg) (a b : Nat) (v : W64) (ok : Bool) : State :=
  { pairOf id id with pkg := f { (pairOf id id).pkg with linkUp := 1 }, ev := { evArgs a b 0 with v := v, ok := ok } }
def event1 (kind : Nat) : HostEvent := { kind := kind, tag := 0, where_ := 3, time := 0x77, record := rec9, behind := 0 }
theorem witness_HostServicesAct :
    (let s := fun kind head => pkged (fun p => { p with waiting := [event1 kind], evcfg := 0x10000 + 2 ^ 5 + 8, evTail := 300, evHead := head, evVec := 4 }) 0 0 0 true
     let t := ran_ .eventWrite (s 2 300)
     let u := ran_ .eventWrite (s 1 300)
     (List.range 7).map (fun i => memByte t.host (0x10000 + 64 * 44 + i)) = [44, 1, 2, 255, 3, 0, 0] ∧ t.pkg.evTail = 301 ∧ t.pkg.waiting = [] ∧ t.pkg.msix = [4] ∧
       u.pkg.tags = [(0, .event 0 0 0 0)] ∧ (ran_ .eventWrite (s 2 44)).pkg.waiting.length = 1 ∧ (ran_ .eventWrite (s 2 44)).agenda.map (fun a => (a.op, a.args.x, a.args.y, a.due)) = [(.eventWrite, 0, 1, 1)]) ∧
    (let s := fun l => pkged (fun p => { p with tags := l }) 0 0 0x209 true
     (ran_ .pkgEvreplyWrite (s [])).pkg.evStale = 1 ∧ findCtx (s []) (ctxNumber 0 0 0) = some (0, 0) ∧ (ran_ .pkgEvreplyWrite (s [(9, .event 0 0 0 7)])).msgs.map (fun m => (m.dst, m.body)) = [(0, .tret 0 7 2)] ∧
       (ran_ .pkgEvreplyWrite (s [(9, .event 0 0 0 7)])).pkg.tags = []) ∧
    -- the watchdog
    (let s := fun f now => gang3 (fun r => f { r with rhb := 1 }) id now
     (region3 (ran_ .watchdogDead (s (fun r => { r with beatCycles := 6553600 }) 0))).hst = 2 ∧ (ran_ .watchdogDead (s (fun r => { r with beatCycles := 6553600 }) 0)).pkg.waiting.map (fun e => (e.kind, e.where_)) = [(4, 3)] ∧
       (region3 (ran_ .watchdogDead (s id 0))).hst = 0 ∧ (region3 (ran_ .watchdogSlow (s id (8 * 65536)))).hst = 1 ∧ (ran_ .watchdogSlow (s id (8 * 65536))).pkg.waiting.map (fun e => (e.kind, e.where_)) = [(5, 3)] ∧
       (region3 (ran_ .watchdogSlow (s id (8 * 65536 - 1)))).hst = 0 ∧ ran_ .watchdogSlow (gang3 id id 0) = gang3 id id 0 ∧ (ran_ .watchdogDead (gang3 id id 0)).pkg = (gang3 id id 0).pkg) ∧
    -- start-up
    (let s := fun n f => pkged (fun p => { p with phase := n, fail := f }) 0 0 0 true
     let t := ran_ .startup (s 5 false)
     (ran_ .startup (s 1 false)).pkg.phase = 2 ∧ t.pkg.ready = true ∧ t.pkg.msix = [0] ∧ standsBy t .timeRecalibration 63 0 (2 ^ 20) = true ∧ ran_ .startup (s 1 true) = s 1 true ∧
       [0, 1, 8, 9].map gradeOf = [3, 2, 1, 0] ∧ (ran_ .hostLinkUp (pkged id 1 0 0 true)).pkg.linkUp = 3 ∧ (ran_ .hostLinkDown (pkged id 0 0 0 true)).pkg.linkUp = 0) ∧
    -- a report and firmware
    (let s := fun a link => pkged (fun p => { p with attest := a, linkUp := link }) 0 0 0 false
     (ran_ .attestReport (s 32 0)).agenda.map (fun p => p.due) = [1] ∧ (ran_ .recoveryFirmware (s 48 1)).pkg = { (s 48 1).pkg with attest := 16 }) := by
  refine ⟨?_, ?_, ?_, ?_, ?_⟩ <;> decide +kernel
/-- A write of 8 bytes to a package register, and the state after it. -/
def writes_ (off : Nat) (v : W64) (f : State → State) : State := ran_ .registerWrite { f (pairOf id id) with ev := { evArgs (2 ^ 63 + off) 0 8 with v := v } }
theorem witness_PackageRegisters :
    (let t := fun off v => (writes_ off v id).pkg
     [(t 0x200 (2 ^ 16 + 9)).xlctl.toNat, (t 0x220 (2 ^ 20 + 5)).cmbase.toNat, (t 0x400 77).evcfg.toNat, (t 0x408 (5 * 2 ^ 32 + 9)).evVec, (t 0x408 (5 * 2 ^ 32 + 9)).evHead.toNat, (t 0x500 100).cap] =
       [9, 2 ^ 20, 77, 5, 9, 24000]) ∧
    ((writes_ 0x500 30000 (fun s => { s with pkg := { s.pkg with ready := true } })).pkg.cap = 28000 ∧ (writes_ 0x220 (2 ^ 20) (running1 id)).pkg.cmbase = 0 ∧
      -- PKG_RETIRE: a write with GO, one before READY, one while a retirement waits
      (let r := fun b v => writes_ 0x100 (2 ^ 63 + 9 * 2 ^ 29) (fun s => { s with pkg := { s.pkg with ready := b, retire := v } })
       (r true 0).pkg.retire = 2 ^ 63 + 9 * 2 ^ 29 ∧ (r true 0).agenda.any (fun a => decide (a.op = .pkgRetireGo ∧ a.args.z = 1)) = true ∧
         (r false 0).pkg.retire = 0 ∧ (r true (2 ^ 63)).pkg.retire = 2 ^ 63) ∧
      (writes_ 0x410 0x209 id).agenda.any (fun a => decide (a.op = .pkgEvreplyWrite ∧ a.args.v = 0x209)) = true) ∧
    (let x := fun off v => queueOf (writes_ off v id) 9
     [(x (0x100000 + 576) 0x1234567).base, (x (0x100028 + 576) 15).cpla, (x (0x30000 + 72) (2 ^ 63 + 2 ^ 47 + 9)).asroot, (x (0x100008 + 576) (15 * 2 ^ 8)).cfg, (x (0x100008 + 576) (3 * 2 ^ 8 + 2 ^ 6 + 5)).cfg] =
       [0x1234501, 8, 2 ^ 63 + 9, 14 * 2 ^ 8, 3 * 2 ^ 8 + 5]) ∧
    (standsBy (writes_ (0x100018 + 576) 7 id) .queueKick 9 7 0 = true ∧ standsBy (writes_ (0x100020 + 576) (7 * 2 ^ 16 + 1) (fun s => { s with pkg := { s.pkg with ready := true } })) .queueEnable 9 7 0 = true ∧
      (writes_ (0x100020 + 576) 1 id).agenda = []) ∧
    (let x := fun off v f => regionOf (writes_ off v f) 3
     ((x (0x200010 + 96) (7 * 2 ^ 16 + 9) id).pdl, (x (0x200010 + 96) (7 * 2 ^ 16 + 9) id).sweep, (x (0x200010 + 96) 0 (running1 id)).sweep, (x (0x210000 + 24) (7 * 2 ^ 48) id).rhb) = (7, 64, 1024, 7)) ∧
    (let s := inCluster (fun c => { c with rtDone := 3 }) (args 0 0 0 (pairOf id id))
     let t := ran_ .cluRouteSwitchRequest s
     (clusterOf t 0).rtSw = true ∧ (clusterOf t 0).rtAct = true ∧ (clusterOf t 0).rtDone = 0 ∧ t.agenda.any (fun a => decide (a.op = .routeClassSwitch ∧ a.args.x = 256 ∧ a.args.y = 3)) = true ∧
       ran_ .cluRouteSwitchRequest (inCluster (fun c => { c with rtSw := true }) s) = inCluster (fun c => { c with rtSw := true }) s) ∧
    (let s := fun k v f => clocked id { f (pairOf id id) with ev := { evArgs 0 k 0 with v := v } }
     let t := ran_ .dieVfrWrite (s 0 (12 * 2 ^ 55 + 130 * 2 ^ 46) id)
     let c := s 1 (2 ^ 31 + 2 ^ 55) (running1 id)
     (vfOf t 0 0).rpt = 12 ∧ (vfOf t 0 0).rfreq = 130 ∧ (vfOf t 0 0).pend = true ∧ t.agenda.map (fun a => (a.op, a.args.x, a.args.y)) = [(.vfRequestApply, 0, 0)] ∧
       vfIndex (dieOf c 0) 0 = 0 ∧ clusterPlaced c 0 = true ∧ ran_ .dieVfrWrite c = c ∧ (vfOf (ran_ .dieVfrWrite (s 1 (12 * 2 ^ 55 + 2 ^ 29) id)) 0 1).x0 = 1) := by
  refine ⟨?_, ?_, ?_, ?_, ?_, ?_, ?_⟩ <;> decide +kernel
/-! ## The fabric (15_fabric) -/

/-- Port 4 of the fabric unit with identity 7, its event's operands; the route to package 9 is port 4, package 7 is this one. -/
def fabric (f : Port → Port) (g : Fabric → Fabric) (now y z : Nat) (flit : BitVec 2048) (ok : Bool) : State :=
  { queued (ring5 (fun x => { x with packets := [packet 3 (pktOf 8 3 0 []) true] }) 3 4 4) 0 0 [] now with
      fab := g { Fabric.reset with idV := true, id := 7, port := [(4, f Port.reset)], route0 := [(7, 0xC000), (9, 0x8004)] }
      ev := { evArgs 4 y z with flit := flit, ok := ok } }
def port4 (t : State) : Port := portOf t 4
def active (f : Port → Port) (p : Port) : Port := f { p with st := .active, room := (3, 3) }
def fabPkt (dst src : Nat) (fctl : Bool) (off : Nat) (body : List Byte) : FabPacket :=
  { id := 0, dst := dst, src := src, fctl := fctl, bank := false, sched := 2, stag := 5, off := off, body := body, from_ := none }
/-- A port command of the PORT_CMD packet 3 of queue 5. -/
def portCmd (op : Nat) : PortCmd := { op := op, peer := 9, peerPort := 6, cmp := true, dark := 2, packet := some (5, 3), cmd := none }
/-- A flit's fields: KIND, SEQ, ACK, credits, bytes; with its CRC. -/
def rawFlit (kind seq ack c d pay : Nat) : BitVec 2048 :=
  let w := seq + kind * 2 ^ 12 + ack * 2 ^ 16 + c * 2 ^ 32 + d * 2 ^ 40 + pay * 2 ^ 64
  BitVec.ofNat 2048 (w + (crc32c (leBytes 248 w)).toNat * 2 ^ 1984)
theorem witness_FabricPortsAct :
    -- sending: an identity, an ACK that is owed, a replay, data, a new packet
    (let s := fun f => fabric f id 0 0 0 0 true
     let t := fun f => ran_ .fabricFlitTransmit (s f)
     let k := fabPkt 9 7 false 0 [1, 2, 3]
     t id = s id ∧ standsBy (t (fun p => { p with st := .verify })) .fabricFlitTransmit 4 0 64 = true ∧
       ((port4 (t (active (fun p => { p with nak := true, credits := (300, 1) })))).nak, (port4 (t (active (fun p => { p with nak := true, credits := (300, 1) })))).credits) = (false, (45, 0)) ∧
       (port4 (t (active (fun p => { p with replay := [11, 12], replaying := 1 })))).tx = 12 ∧ (port4 (t (active (fun p => { p with stream := [5, 6], txSeq := 8 })))).txSeq = 9 ∧
       (port4 (t (active (fun p => { p with stream := [5, 6], txSeq := 8 })))).replay.length = 1 ∧ (port4 (t (active (fun p => { p with waiting := [k] })))).started.map (fun x => x.pkt) = [k] ∧
       (port4 (t (active (fun p => { p with waiting := [k] })))).room = (2, 3) ∧ t (active id) = s (active id)) ∧
    -- receiving: a bad flit, an old one, a gap, an empty one, a packet, an acknowledgement
    (let s := fun f flit => fabric (active f) id 0 0 0 flit true
     let t := fun f flit => ran_ .fabricFlitReceive (s f flit)
     let k := fabPkt 7 9 true 2 [1]
     let at8 := fun p : Port => { p with rxSeq := 8 }
     (port4 (t id 0)).nak = true ∧ (port4 (t at8 (rawFlit 0 7 0 0 0 0))).say = true ∧ (port4 (t at8 (rawFlit 0 9 0 0 0 0))).nak = true ∧
       (port4 (t at8 (rawFlit 0 8 0 2 1 0))).room = (5, 4) ∧ (port4 (t at8 (rawFlit 0 8 0 2 1 0))).rxSeq = 9 ∧ s id (rawFlit 2 0 0 0 0 0) = t id (rawFlit 2 0 0 0 0 0) ∧
       (let u := t at8 (rawFlit 0 8 0 0 0 (leNat (headerBytes k ++ [1])))
        u.fab.transit = [{ k with id := (s id 0).nextId, from_ := some 4 }] ∧ standsBy u .fctlArrival (s id 0).nextId 0 0 = true) ∧
       (port4 (t (fun p => { p with replay := [11, 12, 13] }) (rawFlit 1 0 2 1 0 0))).replay = [13] ∧ (port4 (t id (rawFlit 1 0 0 1 0 0))).room = (4, 3)) ∧
    -- timeouts
    (let s := fun (f : Port → Port) now => fabric f id now 0 0 0 true
     let old := active (fun p => { p with replay := [11] })
     standsBy (ran_ .replayTimeout (s old 1999)) .replayTimeout 4 0 2000 = true ∧ (port4 (ran_ .replayTimeout (s old 2000))).replaying = 1 ∧ (port4 (ran_ .replayTimeout (s (fun p => { old p with resends := 16 }) 2000))).cause = 3 ∧
       ran_ .replayTimeout (s id 0) = s id 0 ∧ ran_ .laneLock (s id 0) = s id 0) ∧
    (let s := fun st now => fabric (fun p => { p with st := st, replay := [11] }) id now 0 0 0 true
     [(port4 (ran_ .laneLock (s .train 0))).st, (port4 (ran_ .trainTimeout (s .train 400000))).st, (port4 (ran_ .trainTimeout (s .train 399999))).st, (port4 (ran_ .verifyTimeout (s .verify 20000))).st,
         (port4 (ran_ .verifyTimeout (s .verify 19999))).st, (port4 (ran_ .lossOfLock (s .active 0))).st, (port4 (ran_ .drainDeadline (s .drain 100000))).st, (port4 (ran_ .drainDeadline (s .drain 99999))).st] =
       [.verify, .failed, .train, .failed, .verify, .failed, .dark, .drain] ∧
       [(port4 (ran_ .trainTimeout (s .train 400000))).cause, (port4 (ran_ .verifyTimeout (s .verify 20000))).cause, (port4 (ran_ .lossOfLock (s .active 0))).cause, (port4 (ran_ .drainDeadline (s .drain 100000))).cause] = [1, 2, 4, 5]) ∧
    -- identities and commands
    (let s := fun peer => fabric (fun p => { p with st := .verify, expPeer := peer, busy := true, cmds := [portCmd 1] }) id 0 9 6 0 true
     (port4 (ran_ .identityArrival (s 8))).cause = 2 ∧ (port4 (ran_ .identityArrival (s 9))).st = .active ∧ (port4 (ran_ .identityArrival (s 9))).peerPort = 6 ∧ completing (ran_ .identityArrival (s 9)) 3 1 0 = true) ∧
    (let s := fun op st f => fabric (fun p => f { p with st := st, cmds := [portCmd op] }) id 0 0 0 0 true
     let busy := fun p : Port => { p with stream := [1] }
     [(port4 (ran_ .portCmdQuiesce (s 0 .active busy))).st, (port4 (ran_ .portCmdQuiesce (s 0 .active (fun p => { p with replay := [11] })))).st, (port4 (ran_ .portCmdQuiesce (s 0 .active id))).st, (port4 (ran_ .portCmdTrain (s 1 .dark id))).st,
         (port4 (ran_ .portCmdCycle (s 2 .active busy))).st, (port4 (ran_ .portCmdCycle (s 2 .failed id))).st, (port4 (ran_ .darkTimeExpiry { (s 2 .dark (fun p => { p with busy := true })) with now := 20000 })).st] =
       [.quiesce, .drain, .dark, .train, .quiesce, .dark, .train] ∧
       [completing (ran_ .portCmdQuiesce (s 0 .active id)) 3 1 0, completing (ran_ .portCmdQuiesce (s 0 .dark id)) 3 4 4, completing (ran_ .portCmdTrain (s 1 .active id)) 3 4 4, completing (ran_ .portCmdCycle (s 2 .train id)) 3 4 4,
         standsBy (ran_ .portCmdCycle (s 2 .failed id)) .darkTimeExpiry 4 0 20000] = List.replicate 5 true) := by
  refine ⟨?_, ?_, ?_, ?_, ?_, ?_⟩ <;> decide +kernel
/-- A step of a schedule: kind, flags, peer, length, source and local offset, tag 5. -/
def stepWord (kind flags peer len a b : Nat) : BitVec 256 :=
  BitVec.ofNat 256 (kind + flags * 2 ^ 8 + peer * 2 ^ 16 + len * 2 ^ 32 + a * 2 ^ 64 + b * 2 ^ 96 + 5 * 2 ^ 128)
def coll1 : Command := cmd5 (.coll 2 0)
def step1 (w : BitVec 256) (f : RunStep → RunStep) : RunStep := f ⟨1, w, 0, 0, false, false, false, 0⟩
/-- Schedule 2 of n steps at 0x400 of core (0, 0), its run over memory from 0x1000 there. -/
def sched2 (n : Nat) (run : Bool) (next : Nat) (ts : List RunStep) : Sched :=
  { w0 := BitVec.ofNat 64 (2 ^ 63 + n * 2 ^ 48), w1 := 0x400, run := if run then some (coll1, 0x1000) else none, next := next, doneN := 0, steps := ts, waiting := if run then [] else [(coll1, 0x1000)] }
def transits (k : FabPacket) (c : Sched) (g : Fabric → Fabric) : State :=
  let s := fabric (active id) (fun f => g { f with cst := [(2, c)], transit := [{ k with id := 6, from_ := some 4 }] }) 0 0 0 0 true
  { s with ev := evArgs 6 0 0 }
def steps2 (t : State) : List (Nat × Nat × Bool × Bool) := (schedOf t 2).steps.map (fun x => (x.moved, x.acked, x.cts, x.arrived))
/-- Schedule 2's step of an event, over a region that runs. -/
def runs2 (c : Sched) (m : List (Nat × Byte)) (g : Fabric → Fabric) (st : RState) : State :=
  let s := fabric (active id) (fun f => g { f with cst := [(2, c)] }) 0 0 0 0 true
  setRegion { (setCore s 0 { core0 id with mem := m }) with ev := evArgs 2 1 0 } 0 { Region.reset with st := st }
theorem witness_FabricUnitActs :
    (let s := fun d => transits (fabPkt d 9 false 0 [1]) Sched.reset id
     (ran_ .transitForward (s 8)).fab.transit = [] ∧ vget (ran_ .transitForward (s 8)).fab.cnt 8 0 = 1 ∧ (port4 (ran_ .transitForward (s 8))).credits = (1, 0) ∧
       (port4 (ran_ .transitForward (s 9))).waiting.length = 1) ∧
    -- FCTL: clear to send, an acknowledgement, a barrier arrival; early ones
    (let t := fun off w f => ran_ .fctlArrival (transits (fabPkt 7 9 true off []) (sched2 2 true 2 [step1 w f]) id)
     steps2 (t 0 (stepWord 0 0 9 64 0 0) id) = [(0, 0, true, false)] ∧ (t 0 (stepWord 1 0 9 64 0 0) id).fab.early.length = 1 ∧ steps2 (t 1 (stepWord 0 0 9 64 0 0) id) = [(0, 1, false, false)] ∧
       steps2 (t 2 (stepWord 3 0 9 0 0 0) id) = [(0, 0, false, true)] ∧ (t 2 (stepWord 3 0 8 0 0 0) id).fab.early.length = 1 ∧ standsBy (t 1 (stepWord 0 0 9 64 0 0) id) .collStepComplete 2 1 0 = true) ∧
    -- FDATA: into a receive, into a reducing receive, without a step
    (let t := fun w => ran_ .fdataDelivery (setCore (transits (fabPkt 7 9 false 0 (List.replicate 64 1)) (sched2 2 true 2 [step1 w id]) id) 0 { core0 id with mem := [(0x1080, 2)] })
     steps2 (t (stepWord 1 0 9 64 0x40 0)) = [(64, 0, false, false)] ∧ memByte (coreOf (t (stepWord 1 0 9 64 0x40 0)) 0).mem 0x107F = 1 ∧
       memByte (coreOf (t (stepWord 2 0 9 64 0x40 0x80)) 0).mem 0x1040 = 3 ∧ memByte (coreOf (t (stepWord 2 0 9 64 0x40 0x80)) 0).mem 0x1044 = 1 ∧
       (t (stepWord 0 0 9 64 0 0)).fab.cst = [(2, sched2 2 true 2 [step1 (stepWord 0 0 9 64 0 0) id])] ∧ (port4 (t (stepWord 0 0 9 64 0 0))).waiting.map (fun k => (k.dst, k.fctl, k.off)) = [(9, true, 1)]) ∧
    -- route switches
    (let s := fun g => { fabric id g 0 9 0 0 true with ev := evArgs 1 9 0 }
     let one := fun f : Fabric => { f with flows := [⟨true, 9, false, 1⟩] }
     let idle := fun f : Fabric => { f with sw := true, act := true, flows := [⟨true, 9, false, 0⟩], swCmd := some coll1 }
     ran_ .fabRouteSwitchRequest (s idle) = s idle ∧ (ran_ .fabRouteSwitchRequest (s one)).fab.sw = true ∧ (ran_ .fabRouteSwitchRequest (s one)).fab.act = true ∧ (ran_ .fabRouteSwitchRequest (s id)).fab.done1 = true ∧
       ran_ .flowSwitch (s one) = s one ∧ (ran_ .flowSwitch (s idle)).fab.flows = [⟨true, 9, true, 0⟩] ∧ (ran_ .flowSwitch (s idle)).fab.sw = false ∧ (ctxOf (ran_ .flowSwitch (s idle)) 0 0).tb = 16) := by
  refine ⟨?_, ?_, ?_, ?_⟩ <;> decide +kernel
/-- Byte cells of a step. -/
def stepCells (w : BitVec 256) : List (Nat × Byte) := (List.range 32).filterMap (fun i => let b := w.extractLsb' (8 * i) 8
  if b = 0 then none else some (0x400 + i, b))
theorem witness_collectives :
    -- a schedule is taken up; no steps; a full list; a stopped gang; an order that waits
    (let t := fun c m st => ran_ .collStepStart (runs2 c m id st)
     let w := stepWord 1 0 9 64 0 0
     (schedOf (t (sched2 2 false 7 []) [] .running) 2).run = some (coll1, 0x1000) ∧ (schedOf (t (sched2 0 true 0 []) [] .running) 2).run = none ∧
       t (sched2 2 true 2 []) [] .running = runs2 (sched2 2 true 2 []) [] id .running ∧ standsBy (t (sched2 2 true 0 []) [] .stopped) .collStepStart 2 1 1000 = true ∧
       (schedOf (t (sched2 2 true 0 []) (stepCells (stepWord 4 0 9 64 0 0)) .running) 2).run = none ∧ (schedOf (t (sched2 2 true 0 []) (stepCells (stepWord 1 0 8 64 0 0)) .running) 2).run = none ∧
       (let u := t (sched2 2 true 0 []) (stepCells w) .running
        (schedOf u 2).steps.map (fun x => (x.n, x.word)) = [(0, w)] ∧ (port4 u).waiting.map (fun k => (k.dst, k.fctl, k.off)) = [(9, true, 0)]) ∧
       (schedOf (t (sched2 2 true 0 [step1 w id]) (stepCells (stepWord 1 16 9 64 0 0)) .running) 2).steps.length = 1) ∧
    -- a step ends, the last one of its run; a send moves a piece
    (let t := fun c m => ran_ .collStepComplete (runs2 c m id .running)
     let sent := step1 (stepWord 0 0 9 64 0 0) (fun x => { x with cts := true })
     (schedOf (t (sched2 2 true 2 [step1 (stepWord 1 0 9 64 0 0) (fun x => { x with moved := 64 })]) []) 2).run = none ∧
       (ctxOf (t (sched2 2 true 2 [step1 (stepWord 1 0 9 64 0 0) (fun x => { x with moved := 64 })]) []) 0 0).tb = 16 ∧
       vget (t (sched2 2 true 2 [step1 (stepWord 3 0 9 0 0 0) (fun x => { x with arrived := true })]) []).fab.cnt 9 0 = 1 ∧
       steps2 (t (sched2 2 true 2 [sent]) [(0x1001, 7)]) = [(64, 0, true, false)] ∧ (port4 (t (sched2 2 true 2 [sent]) [(0x1001, 7)])).waiting.map (fun k => k.body.take 3) = [[0, 7, 0]] ∧
       t (sched2 2 true 2 [step1 (stepWord 0 0 9 64 0 0) id]) [] = runs2 (sched2 2 true 2 [step1 (stepWord 0 0 9 64 0 0) id]) [] id .running) ∧
    -- FABRIC_RECONF: one port, a port twice, its end, its image
    (let b := fun n : Nat => pktOf 7 3 0 [(16, 0x5000), (24, n), (32, 0x6000)]
     let s := fun n h (l : List (Nat × W16 × List Nat × W64 × Bool)) => { oneOf (b n) true id h with fab := { Fabric.reset with reconf := l } }
     let e := [(0x5000, (4 : Byte)), (0x5001, 1), (0x5002, 9), (0x5004, 6), (0x5006, 2)]
     let t := ran_ .fabricReconf (s 1 e [])
     (portOf t 4).cmds = [{ portCmd 1 with cmp := false }] ∧ reconfOf t 5 3 = some ([4], 0x6000, false) ∧ standsBy t .fabricReconf 5 3 0 = true ∧
       completing (ran_ .fabricReconf (s 2 (e ++ [(0x5008, 4)]) [])) 3 4 4 = true ∧ completing (ran_ .fabricReconf (s 1 [] [(5, 3, [], 0, true)])) 3 3 0 = true ∧
       ran_ .fabricReconf (s 1 [] [(5, 3, [4], 0, false)]) = s 1 [] [(5, 3, [4], 0, false)]) ∧
    (let s := { oneOf (pktOf 7 3 0 [(16, 0x5000), (24, 1), (32, 0x6000)]) true id [(0x6002, 5), (0x6003, 0x80)] with fab := { Fabric.reset with reconf := [(5, 3, [4], 0x6000, false)] } }
     let t := ran_ .fabricReconf s
     reconfOf t 5 3 = some ([4], 0, false) ∧ fabricRoute t.fab true 1 = 0x8005 ∧ fabricRoute t.fab false 1 = 0) := by
  refine ⟨?_, ?_, ?_, ?_⟩ <;> decide +kernel
/-! ## Steps -/

/-- A body of one word, one that is over, no body with a step that may come and with none. -/
theorem witness_StepRunsTheDecodedInstruction :
    (let s := State.reset.withFetchWord 32 0x040CC3F0
     s.stage.active = true ∧ bodyOver s = false ∧ decode (fetchWords s) = .ok (.add 1 19 1 31 0, [0]) ∧ (State.reset.withFetchWord 32 0x040CC3F0).memoriesWf = true) ∧
    (let s := State.reset.withFetchWord 64 0x80000040C017C3F0
     bodyOver s = false ∧ s.stage.work.pc + 1 < field s.stage.work.hdrA 11 5 + 1 ∧ fetchWords s = [0xC017C3F0, 0x80000040] ∧ decode (fetchWords s) = .ok (.ld 2 1 31 0 2 0x40, [])) ∧
    (let s := body id (fun w => { w with pc := field w.hdrA 11 5 + 1 })
     s.stage.active = true ∧ bodyOver s = true) ∧
    (State.reset.stage.active = false ∧ candidates State.reset ≠ []) ∧
    (let s := { State.reset with agenda := [] }
     s.stage.active = false ∧ candidates s = []) := by
  refine ⟨?_, ?_, ?_, ?_, ?_⟩ <;> decide +kernel
/-- The step on a placed word is the instruction's. -/
theorem test_step_runs_the_placed_word :
    step (State.reset.withFetchWord 32 0x040CC3F0) = exec (.add 1 19 1 31 0) (State.reset.withFetchWord 32 0x040CC3F0) ∧
    decodeTableWord 32 0x040CC3F0 = some (.add 1 19 1 31 0) ∧ decodeTableWord 64 0x80000040C017C3F0 = some (.ld 2 1 31 0 2 0x40) := by
  refine ⟨by rfl, ?_⟩
  decide +kernel
theorem witness_DecodingAgreesWithEncoding :
    (Instr.add 1 19 1 31 0).isBody = true ∧ (Instr.add 1 19 1 31 0).wf = true ∧ (Instr.ld 2 1 31 0 2 0x40).isBody = true ∧ (Instr.ld 2 1 31 0 2 0x40).wf = true ∧
    decode [0xC017C3F0, 0x80000040, 7] = .ok (.ld 2 1 31 0 2 0x40, [7]) := by decide +kernel
/-- A state in canonical form whose step answers a next state. -/
theorem witness_MemoriesStayCanonical : State.reset.memoriesWf = true ∧ (State.reset.withFetchWord 32 0x040CC3F0).memoriesWf = true ∧
    (match step (State.reset.withFetchWord 32 0x040CC3F0) with | .next t => t.memoriesWf | _ => false) = true := by decide +kernel
end Sys2Proof.Tests
end

