-- ==== Sys2Proof/Proofs/BodiesOnlyStage.lean ====
section
/-! PROOF. What an instruction of a body may change: the staging of its own body, and nothing else of the state. -/
namespace Sys2Proof.Machine

/-- What an outcome of a body's instruction may be on a state: the machine goes on, and nothing but the staging of the body in flight has
changed (02_rule, R61, R68, R74). -/
def OnlyStages (s : State) (o : Outcome) : Prop :=
  ∃ t w, o = .next t ∧ t = { s with stage := t.stage } ∧
    (t.stage = { s.stage with work := w } ∨
      ∃ a, t.stage = { s.stage with running := false, finished := s.stage.finished ++ [⟨w, some a⟩] })

section
variable {s : State} {opc : BitVec 8}

theorem runBody_onlyStages {u : BodyUnit} {words cost : Nat} {m : Body Unit} : OnlyStages s (runBody s opc u words cost m) := by
  obtain ⟨w, h⟩ | ⟨w, a, h⟩ := runBody_cases s opc u words cost m
  · exact ⟨_, w, h, rfl, .inl rfl⟩
  · exact ⟨_, w, h, rfl, .inr ⟨a, rfl⟩⟩
theorem scalar1_onlyStages {cost : Nat} {a d e : Opd} {t : Tag} {f : W64 → W64} :
    OnlyStages s (scalar1 s opc cost a d e t f) := by
  unfold scalar1
  exact runBody_onlyStages
theorem scalarI_onlyStages {a d : Opd} {f : W64 → W64} :
    OnlyStages s (scalarI s opc a d f) := by
  unfold scalarI
  exact runBody_onlyStages
theorem scalar2_onlyStages {cost : Nat} {a b d e : Opd} {t : Tag} {f : W64 → W64 → W64} :
    OnlyStages s (scalar2 s opc cost a b d e t f) := by
  unfold scalar2
  exact runBody_onlyStages
theorem vecMasked_onlyStages {cost : Nat} {rtype : BitVec 3} {a b d e : Opd} {t : Tag} {f : W32 → W32 → W32 → LaneOut 32} :
    OnlyStages s (vecMasked s opc cost rtype a b d e t f) := by
  unfold vecMasked
  exact runBody_onlyStages
theorem vecWhole_onlyStages {a b d e : Opd} {t : Tag} {f : V512 → V512 → Nat → W32} :
    OnlyStages s (vecWhole s opc a b d e t f) := by
  unfold vecWhole
  exact runBody_onlyStages
theorem vecMasked64_onlyStages {cost : Nat} {a b d e : Opd} {t : Tag} {f : W64 → W64 → W64 → LaneOut 64} :
    OnlyStages s (vecMasked64 s opc cost a b d e t f) := by
  unfold vecMasked64
  exact runBody_onlyStages
theorem vecTable_onlyStages {a d e : Opd} {t : Tag} {f : Nat → Nat × Flags} :
    OnlyStages s (vecTable s opc a d e t f) := by
  unfold vecTable
  exact runBody_onlyStages
theorem vecCompare_onlyStages {rtype : BitVec 3} {a b d e : Opd} {t : Tag} {f : W32 → W32 → Bool × Flags} :
    OnlyStages s (vecCompare s opc rtype a b d e t f) := by
  unfold vecCompare
  exact runBody_onlyStages
theorem vecInt_onlyStages {cost : Nat} {a b d e : Opd} {t : Tag} {f : W32 → W32 → W32} :
    OnlyStages s (vecInt s opc cost a b d e t f) := by
  unfold vecInt
  exact runBody_onlyStages
theorem vecReduce_onlyStages {rtype : BitVec 3} {a d e : Opd} {t : Tag} {f : V512 → W64 × Flags × Nat} :
    OnlyStages s (vecReduce s opc rtype a d e t f) := by
  unfold vecReduce
  exact runBody_onlyStages
theorem vecScale_onlyStages {a b d e : Opd} {t : Tag} {f : W64 → Nat → Nat × Flags} :
    OnlyStages s (vecScale s opc a b d e t f) := by
  unfold vecScale
  exact runBody_onlyStages
theorem tagQuery_onlyStages {a d e : Opd} {t : Tag} {f : W64 → W64 → W64} :
    OnlyStages s (tagQuery s opc a d e t f) := by
  unfold tagQuery
  exact runBody_onlyStages
theorem runAmo_onlyStages {op : Nat} {cmp : Option (BitVec 4)} {a b : Opd} {t : Tag} {xw : BitVec 2} {xrt : BitVec 6} {xrpy : BitVec 1} {xoff : BitVec 15} :
    OnlyStages s (runAmo op cmp a b t xw xrt xrpy xoff s) := by
  unfold runAmo
  exact runBody_onlyStages
theorem runStrctl_onlyStages {unbind : Bool} {e : Nat → Effect} {d : Opd} :
    OnlyStages s (runStrctl unbind e d s) := by
  unfold runStrctl
  exact runBody_onlyStages
theorem runMatrix_onlyStages {cmd : Nat} {a b : Opd} {xacc : BitVec 2} {xaf xbf : BitVec 3} {xk : BitVec 10} {xm xn : BitVec 4} {xz xbt : BitVec 1} {xep : BitVec 4} :
    OnlyStages s (runMatrix cmd opc a b xacc xaf xbf xk xm xn xz xbt xep s) := by
  unfold runMatrix
  exact runBody_onlyStages
theorem runFport_onlyStages {op : Nat} {a b : Opd} {xtg : BitVec 6} {xte : BitVec 1} :
    OnlyStages s (runFport op a b xtg xte s) := by
  unfold runFport
  exact runBody_onlyStages

end

theorem exec_onlyStages {i : Instr} (s : State) (h : i.isBody = true) : OnlyStages s (exec i s) := by
  cases i
  all_goals simp only [Instr.isBody, Bool.false_eq_true] at h
  all_goals unfold exec
  case mov | clz | ctz | popc | myxy => exact scalar1_onlyStages
  case movi | movsh | addi | andi | ori | xori | shli | shri | sari | sext | zext | bfx | adrx => exact scalarI_onlyStages
  case add | sub | mul | mulh | mulhu | div | divu | rem | remu | and | or | xor | shl | shr | sar | rol | min | max |
      minu | maxu | addsat | subsat | seq | sne | slt | sltu | sle | sleu | adrchk | fclass => exact scalar2_onlyStages
  case vmov | vaddF32 | vsubF32 | vmulF32 | vfmaF32 | vminF32 | vmaxF32 | vaddBf16 | vmulBf16 | vdot2Bf16 | vabsF32 |
      vnegF32 | vcvt => exact vecMasked_onlyStages
  case vperm | vsel | vshiftl => exact vecWhole_onlyStages
  case vaddF64 | vsubF64 | vmulF64 | vfmaF64 => exact vecMasked64_onlyStages
  case vrcpF32 | vrsqF32 | vsqrtF32 | vexp2F32 | vlog2F32 | vtanhF32 => exact vecTable_onlyStages
  case vceqF32 | vcltF32 | vcleF32 | viceq | viclt => exact vecCompare_onlyStages
  case viadd | visub | vimul | vand | vor | vxor | vshl | vshr | vsar | vimin | vimax | viaddsatI8 => exact vecInt_onlyStages
  case vrsumF32 | vrmaxF32 | vrsumI32 => exact vecReduce_onlyStages
  case vscale | vscalex => exact vecScale_onlyStages
  case tffr | tany | tall => exact tagQuery_onlyStages
  case amoAdd | amoMin | amoMax | amoMinu | amoMaxu | amoAnd | amoOr | amoXor | amoSwap | amoCas | amoFaddF32 |
      amoFaddBf16 => exact runAmo_onlyStages
  case strctlUnbind | strctlPause | strctlResume | strctlDrain => exact runStrctl_onlyStages
  case mma | mmaz | mmat | mmai8 | mmamx => exact runMatrix_onlyStages
  case fportQuiesce | fportTrain | fportCycle => exact runFport_onlyStages
  all_goals exact runBody_onlyStages

/-- Settles O28: every instruction of a body is a run of its working copy. -/
theorem bodiesOnlyStage : Obligations.BodiesOnlyStage := fun _ s h => exec_onlyStages s h

end Sys2Proof.Machine
end

