-- ==== Sys2Proof/Proofs/CanonicalForm.lean ====
section
/-! PROOF. The states whose memories are all in their one canonical form (14_package_host, R379), and what keeps them so: changes of
a table's entry, branches, folds, and changes that leave every memory as it is. -/
namespace Sys2Proof.Machine

/-! ## Canonical states -/

/-- A core whose memories and routing table are in canonical form. -/
structure CoreCanonical (c : Core) : Prop where
  mem : memWf c.mem = true
  active : memWf c.active = true
  shadow : memWf c.shadow = true
  routes : memWf c.routes = true
/-- A region slot whose kept copies of cores are canonical. -/
structure RegionCanonical (r : Region) : Prop where
  saved : ∀ v ∈ r.saved, CoreCanonical v.state
  check : ∀ v ∈ r.check, CoreCanonical v.state
/-- A die whose pinned store is in canonical form. -/
structure DieCanonical (d : Die) : Prop where
  pinned : memWf d.pinned = true
/-- A state with every memory in its canonical form, field by field. -/
structure Canonical (s : State) : Prop where
  hbm : memWf s.hbm = true
  tier2 : memWf s.tier2 = true
  host : memWf s.host = true
  core : ∀ e ∈ s.core, CoreCanonical e.2
  die : ∀ e ∈ s.die, DieCanonical e.2
  region : ∀ e ∈ s.region, RegionCanonical e.2
/-- An outcome that goes on in a canonical state. -/
inductive NextCanonical : Outcome → Prop where
  | next {s : State} (h : Canonical s) : NextCanonical (.next s)
/-- A state, if there is one, that is canonical. -/
inductive SomeCanonical : Option State → Prop where
  | none : SomeCanonical none
  | some {s : State} (h : Canonical s) : SomeCanonical (some s)

theorem coreMemWf_iff {c : Core} : coreMemWf c = true ↔ CoreCanonical c := by
  simp only [coreMemWf, Bool.and_eq_true]
  exact ⟨fun ⟨⟨⟨hm, ha⟩, hs⟩, hr⟩ => ⟨hm, ha, hs, hr⟩, fun ⟨hm, ha, hs, hr⟩ => ⟨⟨⟨hm, ha⟩, hs⟩, hr⟩⟩
theorem regionMemWf_iff {r : Region} : regionMemWf r = true ↔ RegionCanonical r := by
  simp only [regionMemWf, List.all_eq_true, List.mem_append, coreMemWf_iff]
  exact ⟨fun h => ⟨fun v hv => h v (.inl hv), fun v hv => h v (.inr hv)⟩,
    fun h v hv => hv.elim (h.saved v) (h.check v)⟩
theorem dieMemWf_iff {d : Die} : memWf d.pinned = true ↔ DieCanonical d :=
  ⟨fun h => ⟨h⟩, fun h => h.pinned⟩
theorem memoriesWf_iff {s : State} : s.memoriesWf = true ↔ Canonical s := by
  simp only [State.memoriesWf, Bool.and_eq_true, List.all_eq_true, coreMemWf_iff, regionMemWf_iff, dieMemWf_iff]
  exact ⟨fun ⟨⟨⟨⟨⟨h1, h2⟩, h3⟩, h4⟩, h5⟩, h6⟩ => ⟨h1, h2, h3, h4, h5, h6⟩,
    fun ⟨h1, h2, h3, h4, h5, h6⟩ => ⟨⟨⟨⟨⟨h1, h2⟩, h3⟩, h4⟩, h5⟩, h6⟩⟩

/-! ## Tables -/

/-- Every entry of a table has a property after one entry with it is written. -/
theorem forall_tput {α : Type} {P : α → Prop} {m : SMap α} {k : Nat} {v : α} (hm : ∀ e ∈ m, P e.2) (hv : P v) :
    ∀ e ∈ tput m k v, P e.2 := by
  induction m with
  | nil => simpa [tput] using hv
  | cons e r ih =>
    obtain ⟨i, x⟩ := e
    obtain ⟨hx, hr⟩ := List.forall_mem_cons.mp hm
    simp only [tput]
    split
    · exact List.forall_mem_cons.mpr ⟨hv, hr⟩
    · split
      · exact List.forall_mem_cons.mpr ⟨hv, hm⟩
      · exact List.forall_mem_cons.mpr ⟨hx, ih hr⟩
/-- What is read from a table has a property that every entry and the default have. -/
theorem tget_of_forall {α : Type} {P : α → Prop} {m : SMap α} {d : α} {k : Nat} (hm : ∀ e ∈ m, P e.2) (hd : P d) :
    P (tget m d k) := by
  induction m with
  | nil => exact hd
  | cons e r ih =>
    obtain ⟨i, x⟩ := e
    obtain ⟨hx, hr⟩ := List.forall_mem_cons.mp hm
    simp only [tget]
    split
    · exact hx
    · exact ih hr
/-- Every entry of a table has a property after each is changed by a function that keeps it. -/
theorem forall_map {α : Type} {P : α → Prop} {m : SMap α} {f : Nat × α → Nat × α} (hm : ∀ e ∈ m, P e.2)
    (hf : ∀ e, P e.2 → P (f e).2) : ∀ e ∈ m.map f, P e.2 :=
  List.forall_mem_map.mpr fun e he => hf e (hm e he)

section
variable {s t : State}

/-! ## Branches, folds and updates that touch no memory -/

/-- Both branches of a condition have a property. -/
theorem ite_intro {α : Type} {P : α → Prop} {p : Prop} [Decidable p] {a b : α} (ha : P a) (hb : P b) :
    P (if p then a else b) := by
  split
  · exact ha
  · exact hb
theorem canonical_ite {p : Prop} [Decidable p] (hs : Canonical s) (ht : Canonical t) : Canonical (if p then s else t) :=
  ite_intro hs ht
/-- A change under a condition. -/
theorem canonical_when {p : Prop} [Decidable p] (h : Canonical s) (ht : Canonical s → Canonical t) :
    Canonical (if p then t else s) := canonical_ite (ht h) h
/-- A change unless a condition holds. -/
theorem canonical_unless {p : Prop} [Decidable p] (h : Canonical s) (ht : Canonical s → Canonical t) :
    Canonical (if p then s else t) := canonical_ite h (ht h)
theorem nextCanonical_ite {p : Prop} [Decidable p] {a b : Outcome} (ha : NextCanonical a) (hb : NextCanonical b) :
    NextCanonical (if p then a else b) := ite_intro ha hb
theorem someCanonical_ite {p : Prop} [Decidable p] {a b : Option State} (ha : SomeCanonical a) (hb : SomeCanonical b) :
    SomeCanonical (if p then a else b) := ite_intro ha hb
theorem coreCanonical_ite {p : Prop} [Decidable p] {a b : Core} (ha : CoreCanonical a) (hb : CoreCanonical b) :
    CoreCanonical (if p then a else b) := ite_intro ha hb
theorem dieCanonical_ite {p : Prop} [Decidable p] {a b : Die} (ha : DieCanonical a) (hb : DieCanonical b) :
    DieCanonical (if p then a else b) := ite_intro ha hb
theorem canonical_snd_ite {α : Type} {p : Prop} [Decidable p] {a b : α × State} (ha : Canonical a.2) (hb : Canonical b.2) :
    Canonical (if p then a else b).2 := ite_intro (P := fun (x : α × State) => Canonical x.2) ha hb
theorem canonical_fst_ite {α : Type} {p : Prop} [Decidable p] {a b : State × α} (ha : Canonical a.1) (hb : Canonical b.1) :
    Canonical (if p then a else b).1 := ite_intro (P := fun (x : State × α) => Canonical x.1) ha hb
/-- The state that an optional result gives. -/
theorem SomeCanonical.of_eq {o : Option State} (ho : SomeCanonical o) (e : o = Option.some s) : Canonical s := by
  cases ho with
  | none => cases e
  | some h => cases e; exact h
theorem canonical_foldl {α : Type} {f : State → α → State} {l : List α} (h : Canonical s)
    (hf : ∀ t x, Canonical t → Canonical (f t x)) : Canonical (l.foldl f s) :=
  List.foldlRecOn l f h fun t ht x _ => hf t x ht
theorem coreCanonical_foldl {α : Type} {f : Core → α → Core} {l : List α} {c : Core} (hc : CoreCanonical c)
    (hf : ∀ d x, CoreCanonical d → CoreCanonical (f d x)) : CoreCanonical (l.foldl f c) :=
  List.foldlRecOn l f hc fun d hd x _ => hf d x hd
theorem dieCanonical_foldl {α : Type} {f : Die → α → Die} {l : List α} {d : Die} (hd : DieCanonical d)
    (hf : ∀ d x, DieCanonical d → DieCanonical (f d x)) : DieCanonical (l.foldl f d) :=
  List.foldlRecOn l f hd fun d hd x _ => hf d x hd
/-- The state of a pair that a computation has given. -/
theorem canonical_of_eq {α : Type} {p : α × State} {a : α} (h : Canonical p.2) (e : p = (a, s)) : Canonical s := by
  rw [e] at h
  exact h
/-- The same where the state comes first. -/
theorem canonical_of_eq_fst {α : Type} {p : State × α} {a : α} (h : Canonical p.1) (e : p = (s, a)) : Canonical s := by
  rw [e] at h
  exact h
/-- A state built from the memories of a canonical one. -/
theorem Canonical.frame {now fresh nextId ev inputs agenda stage cluster group queue flits msgs xops hbmMeta hbmPoison hbmCorr
    tier2Poison pkg fab} (h : Canonical s) :
    Canonical ⟨now, fresh, nextId, ev, inputs, agenda, stage, s.core, cluster, s.die, group, queue, s.region, flits, msgs, xops,
      s.hbm, hbmMeta, hbmPoison, hbmCorr, s.tier2, tier2Poison, s.host, pkg, fab⟩ := { h with }

/-- A state built from the memories of a canonical one and a new memory of the host. -/
theorem Canonical.frame_host {now fresh nextId ev inputs agenda stage cluster group queue flits msgs xops hbmMeta hbmPoison hbmCorr
    tier2Poison host pkg fab} (h : Canonical s) (hm : memWf host = true) :
    Canonical ⟨now, fresh, nextId, ev, inputs, agenda, stage, s.core, cluster, s.die, group, queue, s.region, flits, msgs, xops,
      s.hbm, hbmMeta, hbmPoison, hbmCorr, s.tier2, tier2Poison, host, pkg, fab⟩ := { h with host := hm }

/-! ## The operations of the levels -/

theorem core_reset_canonical {k : Nat} : CoreCanonical (Core.reset k) := ⟨rfl, rfl, rfl, rfl⟩
theorem coreOf_canonical {k : Nat} (h : Canonical s) : CoreCanonical (coreOf s k) := tget_of_forall h.core core_reset_canonical
theorem dieOf_canonical {d : Nat} (h : Canonical s) : DieCanonical (dieOf s d) := tget_of_forall h.die ⟨rfl⟩
theorem region_reset_canonical : RegionCanonical Region.reset := ⟨List.forall_mem_nil _, List.forall_mem_nil _⟩
theorem regionOf_canonical {n : Nat} (h : Canonical s) : RegionCanonical (regionOf s n) :=
  tget_of_forall h.region region_reset_canonical
theorem setCore_canonical {k : Nat} {c : Core} (h : Canonical s) (hc : CoreCanonical c) : Canonical (setCore s k c) :=
  { h with core := forall_tput h.core hc }
theorem setDie_canonical {d : Nat} {x : Die} (h : Canonical s) (hx : DieCanonical x) : Canonical (setDie s d x) :=
  { h with die := forall_tput h.die hx }
theorem setRegion_canonical {n : Nat} {r : Region} (h : Canonical s) (hr : RegionCanonical r) : Canonical (setRegion s n r) :=
  { h with region := forall_tput h.region hr }
/-- A core replaced by one made from it. -/
theorem updateCore_canonical {k : Nat} {c : Core} (h : Canonical s) (hc : CoreCanonical (coreOf s k) → CoreCanonical c) :
    Canonical (setCore s k c) := setCore_canonical h (hc (coreOf_canonical h))
/-- A die replaced by one made from it. -/
theorem updateDie_canonical {d : Nat} {x : Die} (h : Canonical s) (hx : DieCanonical (dieOf s d) → DieCanonical x) :
    Canonical (setDie s d x) := setDie_canonical h (hx (dieOf_canonical h))
/-- A region slot replaced by one made from it. -/
theorem updateRegion_canonical {n : Nat} {r : Region} (h : Canonical s)
    (hr : RegionCanonical (regionOf s n) → RegionCanonical r) :
    Canonical (setRegion s n r) := setRegion_canonical h (hr (regionOf_canonical h))
end
end Sys2Proof.Machine
end

