-- ==== Sys2Proof/Proofs/CanonicalCore.lean ====
section
/-! PROOF. Every memory stays in its canonical form:
the operations of a core, its ports and the registers of the package.
One lemma for each operation of the model, in the model's order. -/
namespace Sys2Proof.Machine

section
variable {s : State}

/-! ## The levels of the state -/

theorem setCtx_canonical {k c : Nat} {x : Ctx} (h : Canonical s) : Canonical (setCtx s k c x) := by
  unfold setCtx
  exact updateCore_canonical h fun hc => { hc with }
theorem setCluster_canonical {k : Nat} {c : Cluster} (h : Canonical s) : Canonical (setCluster s k c) := by
  unfold setCluster
  exact { h with }
theorem setGroup_canonical {k : Nat} {g : Group} (h : Canonical s) : Canonical (setGroup s k g) := by
  unfold setGroup
  exact { h with }
theorem setQueue_canonical {k : Nat} {q : Queue} (h : Canonical s) : Canonical (setQueue s k q) := by
  unfold setQueue
  exact { h with }
theorem setPort_canonical {p : Nat} {x : Port} (h : Canonical s) : Canonical (setPort s p x) := by
  unfold setPort
  exact { h with }

/-! ## Identity: the core map (12_package_launch, R329, R330) -/

theorem setMapEntry_canonical {x y : Nat} {e : W64} (h : Canonical s) : Canonical (setMapEntry s x y e) := by
  unfold setMapEntry
  refine canonical_ite h ?_
  split
  · exact h
  · exact canonical_ite { h with } { h with hbm := memStore_wf h.hbm _ }
theorem cacheMap_canonical {k x y : Nat} (h : Canonical s) : Canonical (cacheMap s k x y) := by
  unfold cacheMap
  exact canonical_ite (updateCore_canonical h fun hc => { hc with }) h
theorem noteSuspect_canonical {k : Nat} {on : Bool} (h : Canonical s) : Canonical (noteSuspect s k on) := by
  unfold noteSuspect
  refine canonical_foldl h fun _ _ h1 => ?_
  split
  · exact canonical_ite (setMapEntry_canonical h1) h1
  · exact h1

/-! ## Messages -/

theorem schedule_canonical {due : Nat} {op : Instr} {args : EvArgs} (h : Canonical s) : Canonical (schedule s due op args) := by
  unfold schedule
  exact { h with }
theorem injectFlit_canonical {cls src dst orig : Nat} {body : Payload} (h : Canonical s) :
    Canonical (injectFlit s cls src dst orig body) := by
  unfold injectFlit
  exact { h with }
theorem countFlit_canonical {cls src dst : Nat} (h : Canonical s) : Canonical (countFlit s cls src dst) := by
  unfold countFlit
  exact updateCore_canonical h fun hc => { hc with }
theorem sendFlit_canonical {cls src dst : Nat} {body : Payload} (h : Canonical s) :
    Canonical (sendFlit s cls src dst body) := by
  unfold sendFlit
  exact injectFlit_canonical (countFlit_canonical h)
theorem forwardFlit_canonical {cls src dst orig : Nat} {body : Payload} (h : Canonical s) :
    Canonical (forwardFlit s cls src dst orig body) := by
  unfold forwardFlit
  exact injectFlit_canonical (countFlit_canonical h)
theorem postMsg_canonical {src dst : Nat} {body : Payload} (h : Canonical s) : Canonical (postMsg s src dst body) := by
  unfold postMsg
  exact { h with }
theorem deliver_canonical {src dst : Nat} {body : Payload} {op : Instr} (h : Canonical s) :
    Canonical (deliver s src dst body op) := by
  unfold deliver
  exact schedule_canonical (postMsg_canonical h)
theorem takeFresh_canonical (h : Canonical s) : Canonical (takeFresh s).2 := by
  unfold takeFresh
  exact { h with }
theorem countHeld_canonical (h : Canonical s) : Canonical (countHeld s) := by
  unfold countHeld
  exact canonical_ite { h with } h
theorem startHeld_canonical (h : Canonical s) : Canonical (startHeld s) := by
  unfold startHeld
  exact canonical_ite { h with } h
theorem hostEvent_canonical {kind tag where_ : Nat} {r : Record} (h : Canonical s) :
    Canonical (hostEvent s kind tag where_ r) := by
  unfold hostEvent
  exact schedule_canonical (startHeld_canonical (countHeld_canonical h).frame)

/-! ## Taking a trap and returning from one (07_core_failures, R219 to R221, R227) -/

theorem haltCluster_canonical {cl : Nat} (h : Canonical s) : Canonical (haltCluster s cl) := by
  unfold haltCluster
  extract_lets _ t
  have ht : Canonical t := setCluster_canonical h
  refine { ht with core := forall_map ht.core fun _ hc => ?_ }
  split
  · exact { hc with }
  · exact hc
theorem sendRecord_canonical {k entry : Nat} {r : Record} {from_ : Nat} {fm : Bool} (h : Canonical s) :
    Canonical (sendRecord s k entry r from_ fm) := by
  unfold sendRecord
  dsimp only
  split
  · split
    · exact sendFlit_canonical h
    · exact hostEvent_canonical (haltCluster_canonical h)
  · exact hostEvent_canonical (haltCluster_canonical h)
theorem keepRecord_canonical {k : Nat} {r : Record} (h : Canonical s) : Canonical (keepRecord s k r) := by
  unfold keepRecord
  exact updateCore_canonical h fun hc => { hc with }
theorem suspectOf_canonical {k : Nat} (h : Canonical s) : Canonical (suspectOf s k) := by
  unfold suspectOf
  exact noteSuspect_canonical (updateCore_canonical h fun hc => { hc with })
theorem takeTrap_canonical {k cx : Nat} {fm : Bool} {c : Cause} {mult : Bool} (h : Canonical s) :
    Canonical (takeTrap s k cx fm c mult) := by
  unfold takeTrap
  exact setCtx_canonical (sendRecord_canonical (canonical_when (keepRecord_canonical h) fun h1 => suspectOf_canonical h1))
theorem takeUnitCheck_canonical {k : Nat} {c : Cause} (h : Canonical s) : Canonical (takeUnitCheck s k c) := by
  unfold takeUnitCheck
  exact sendRecord_canonical (canonical_when (keepRecord_canonical h) fun h1 => suspectOf_canonical h1)
theorem trapAtBoundary_canonical {k cx : Nat} {c : Cause} (h : Canonical s) : Canonical (trapAtBoundary s k cx c) := by
  unfold trapAtBoundary
  exact updateCore_canonical h fun hc => { hc with }
theorem applyTret_canonical {k cx seq action : Nat} (h : Canonical s) : Canonical (applyTret s k cx seq action) := by
  unfold applyTret
  dsimp only
  split
  · refine canonical_ite ?_ (updateCore_canonical h fun hc => { hc with })
    split
    · exact setCtx_canonical h
    · exact setCtx_canonical h
    · exact setCtx_canonical h
    · exact hostEvent_canonical h
  · exact updateCore_canonical h fun hc => { hc with }

/-! ## Local memory (05_core_memory, R146; 01_encoding, R15) -/

theorem setLocalByte_canonical {c : Core} {off : Nat} {v : Byte} (hc : CoreCanonical c) :
    CoreCanonical (setLocalByte c off v) := by
  unfold setLocalByte
  refine coreCanonical_ite { hc with mem := memPut_wf hc.mem _ _ } ?_
  refine coreCanonical_ite { hc with active := memPut_wf hc.active _ _ } ?_
  refine coreCanonical_ite { hc with shadow := memPut_wf hc.shadow _ _ } ?_
  refine coreCanonical_ite { hc with active := memPut_wf hc.active _ _ } ?_
  exact coreCanonical_ite { hc with shadow := memPut_wf hc.shadow _ _ } hc

theorem markReady_canonical {c : Core} (hc : CoreCanonical c) : CoreCanonical (markReady c) := by
  unfold markReady
  exact { hc with }

/-! ## VF regions of a die (10_die, R280, R281; 00_scope, R5) -/

theorem beginDoubling_canonical {die k : Nat} {v : VfRegion} (h : Canonical s) : Canonical (beginDoubling s die k v) := by
  unfold beginDoubling
  exact canonical_ite h (schedule_canonical h)
theorem requestVf_canonical {die k moved : Nat} (h : Canonical s) : Canonical (requestVf s die k moved) := by
  unfold requestVf
  refine canonical_ite (updateDie_canonical h fun hd => { hd with }) ?_
  exact schedule_canonical (setDie_canonical { h with } { dieOf_canonical h with })
theorem adoptClock_canonical {moved : List Nat} {d d2 : Die} {j : Nat} (hdd2 : DieCanonical d2) :
    DieCanonical (adoptClock s moved d d2 j) := by
  unfold adoptClock
  refine dieCanonical_ite hdd2 ?_
  split
  · exact hdd2
  · exact { hdd2 with }
theorem writeVfr_canonical {die k : Nat} {w : W64} (h : Canonical s) : Canonical (writeVfr s die k w) := by
  unfold writeVfr
  refine canonical_ite h ?_
  exact canonical_when (canonical_foldl (updateDie_canonical h fun hd => dieCanonical_foldl { hd with } fun _ _ hd1 =>
    adoptClock_canonical hd1) fun _ _ h1 => requestVf_canonical h1) fun h1 => requestVf_canonical h1

/-! ## Route tables and their switch (08_cluster, R238 to R240) -/

theorem writeRoute_canonical {k i v : Nat} (h : Canonical s) : Canonical (writeRoute s k i v) := by
  unfold writeRoute
  exact canonical_ite h (updateCore_canonical h fun hc => { hc with routes := memPut_wf hc.routes _ _ })
theorem requestRouteSwitch_canonical {cl : Nat} (h : Canonical s) : Canonical (requestRouteSwitch s cl) := by
  unfold requestRouteSwitch
  exact canonical_ite h (setCluster_canonical h).frame

/-! ## Writing -/

theorem leaveGroup_canonical {k f g : Nat} (h : Canonical s) : Canonical (leaveGroup s k f g) := by
  unfold leaveGroup
  exact schedule_canonical (updateDie_canonical h fun hd => { hd with })
theorem joinGroup_canonical {k f g : Nat} (h : Canonical s) : Canonical (joinGroup s k f g) := by
  unfold joinGroup
  exact canonical_foldl (updateDie_canonical h fun hd => { hd with }) fun _ _ h1 => schedule_canonical h1
theorem setFilter_canonical {k f : Nat} {v : W64} (h : Canonical s) : Canonical (setFilter s k f v) := by
  unfold setFilter
  exact canonical_when (canonical_when (updateCore_canonical h fun hc => { hc with }) fun h1 => leaveGroup_canonical h1)
    fun h1 => joinGroup_canonical h1
theorem writeRxPort_canonical {c : Core} {p : Nat} {v : W32} (hc : CoreCanonical c) : CoreCanonical (writeRxPort c p v) := by
  unfold writeRxPort
  exact coreCanonical_ite { hc with } hc
theorem writeGroup_canonical {n : Nat} {br : Bool} {v : W64} (h : Canonical s) : Canonical (writeGroup s n br v) := by
  unfold writeGroup
  exact canonical_ite (schedule_canonical (setGroup_canonical h)) (schedule_canonical (setGroup_canonical h))
theorem writeReg32_canonical {k off : Nat} {m v : W32} (h : Canonical s) : Canonical (writeReg32 s k off m v) := by
  unfold writeReg32
  refine canonical_ite (setCtx_canonical h) ?_
  refine canonical_ite (setCtx_canonical h) ?_
  refine canonical_ite (updateCore_canonical h fun hc => { hc with }) ?_
  refine canonical_ite (updateCore_canonical h fun hc => { hc with }) ?_
  refine canonical_ite (updateCore_canonical h fun hc => writeRxPort_canonical hc) ?_
  refine canonical_ite (updateCore_canonical h fun hc => writeRxPort_canonical hc) ?_
  refine canonical_ite (setCtx_canonical h) ?_
  refine canonical_ite (setCluster_canonical h) ?_
  refine canonical_ite (canonical_ite (requestRouteSwitch_canonical h) h) ?_
  refine canonical_ite (setCluster_canonical h) ?_
  refine canonical_ite (updateCore_canonical h fun hc => { hc with }) ?_
  exact canonical_ite (canonical_when (updateDie_canonical h fun hd => { hd with }) fun h1 => beginDoubling_canonical h1) h
theorem writeReg64_canonical {k off : Nat} {old m v : W64} (h : Canonical s) : Canonical (writeReg64 s k off old m v) := by
  unfold writeReg64
  refine canonical_ite (setCtx_canonical h) ?_
  refine canonical_ite (updateCore_canonical h fun hc => { hc with }) ?_
  refine canonical_ite (setFilter_canonical h) ?_
  refine canonical_ite (setCtx_canonical h) ?_
  refine canonical_ite (setCluster_canonical h) ?_
  refine canonical_ite (setCluster_canonical h) ?_
  refine canonical_ite (setCluster_canonical h) ?_
  refine canonical_ite (canonical_ite h (writeVfr_canonical (updateDie_canonical h fun hd => { hd with }))) ?_
  refine canonical_ite (updateDie_canonical h fun hd => { hd with }) ?_
  refine canonical_ite ?_ h
  dsimp only
  split
  · exact writeGroup_canonical h
  · exact writeGroup_canonical h
  · exact canonical_ite (setGroup_canonical h) h
  · exact h
theorem writeWord_canonical {k off : Nat} {m v : W64} (h : Canonical s) : Canonical (writeWord s k off m v) := by
  unfold writeWord
  refine canonical_ite (canonical_foldl h fun _ _ h1 => canonical_ite (writeRoute_canonical h1) h1) ?_
  split
  · exact writeReg64_canonical h
  · exact canonical_when (canonical_ite (writeReg32_canonical h) h) fun h1 => writeReg32_canonical h1
theorem writeRegBytes_canonical {k : Nat} {bs : List (Nat × Byte)} (h : Canonical s) : Canonical (writeRegBytes s k bs) := by
  unfold writeRegBytes
  exact canonical_foldl h fun _ _ h1 => writeWord_canonical h1

/-! ## Home (13_package_memory, R354, R363 to R366) -/

theorem hbmPut_canonical {a : Nat} {v : Byte} (h : Canonical s) : Canonical (hbmPut s a v) := by
  unfold hbmPut
  split
  · exact { h with }
  · exact { h with hbm := memPut_wf h.hbm _ _ }
theorem countStack_canonical {stack n k : Nat} (h : Canonical s) : Canonical (countStack s stack n k) := by
  unfold countStack
  exact { h with }
theorem countRead_canonical {line : Nat} (h : Canonical s) : Canonical (countRead s line) := by
  unfold countRead
  exact canonical_unless (countStack_canonical (countStack_canonical h)) fun h1 => countStack_canonical h1
theorem homeWriteLine_canonical {line : Nat} {bs : List (Nat × Byte)} {cmp : Bool} (h : Canonical s) :
    Canonical (homeWriteLine s line bs cmp) := by
  unfold homeWriteLine
  exact (countStack_canonical (countStack_canonical (canonical_foldl (canonical_ite h (countStack_canonical (countRead_canonical
    h))) fun _ _ h1 => hbmPut_canonical h1))).frame
theorem homeLines_canonical {ps : List (Nat × Byte)} {cmp : Bool} (h : Canonical s) : Canonical (homeLines s ps cmp) := by
  unfold homeLines
  exact canonical_foldl h fun _ _ h1 => homeWriteLine_canonical h1
theorem tier2Write_canonical {ps : List (Nat × Byte)} (h : Canonical s) : Canonical (tier2Write s ps) := by
  unfold tier2Write
  extract_lets _ t
  have ht : Canonical t := canonical_foldl h fun _ _ h => countStack_canonical h
  exact { ht with tier2 := memStore_wf ht.tier2 _ }
theorem placeWrite_canonical {pa : W64} {ps : List (Nat × Byte)} {cmp : Bool} (h : Canonical s) :
    Canonical (placeWrite s pa ps cmp) := by
  unfold placeWrite
  split
  · exact homeLines_canonical h
  · exact tier2Write_canonical h
theorem forkWrite_canonical {pa : W64} {bs : List Byte} {m : Migration} (h : Canonical s) :
    Canonical (forkWrite s pa bs m) := by
  unfold forkWrite
  exact canonical_ite h (countStack_canonical (placeWrite_canonical h))
theorem forkedWrite_canonical {pa : W64} {bs : List Byte} {cmp : Bool} (h : Canonical s) :
    Canonical (forkedWrite s pa bs cmp) := by
  unfold forkedWrite
  exact canonical_foldl (placeWrite_canonical h) fun _ _ h1 => forkWrite_canonical h1
theorem homeWrite_canonical {a : Nat} {bs : List Byte} {cmp : Bool} (h : Canonical s) : Canonical (homeWrite s a bs cmp) := by
  unfold homeWrite
  exact forkedWrite_canonical h

/-! ## Copies in the dies' Reservoirs (09_memory_model, R262, R266, R267; 10_die, R290) -/

theorem countDie_canonical {die n k : Nat} (h : Canonical s) : Canonical (countDie s die n k) := by
  unfold countDie
  exact updateDie_canonical h fun hd => { hd with }
theorem putLine_canonical {die : Nat} {l : CacheLine} (h : Canonical s) : Canonical (putLine s die l) := by
  unfold putLine
  exact updateDie_canonical h fun hd => { hd with }
theorem fillLine_canonical {die line : Nat} (h : Canonical s) : Canonical (fillLine s die line) := by
  unfold fillLine
  refine canonical_ite h ?_
  refine putLine_canonical ?_
  refine schedule_canonical ?_
  refine countRead_canonical ?_
  refine canonical_ite h ?_
  dsimp only
  split
  · exact setDie_canonical (takeFresh_canonical h) { dieOf_canonical h with }
  · exact takeFresh_canonical h
theorem mendLine_canonical {die line : Nat} (h : Canonical s) : Canonical (mendLine s die line) := by
  unfold mendLine
  split
  · refine canonical_ite (putLine_canonical (countDie_canonical (countRead_canonical h))) ?_
    exact canonical_ite (putLine_canonical (countDie_canonical h)) h
  · exact h
theorem dieRead_canonical {die a n : Nat} (h : Canonical s) : Canonical (dieRead s die a n).2 := by
  unfold dieRead
  exact canonical_foldl h fun _ _ h1 => canonical_ite (countRead_canonical h1) (canonical_ite (countDie_canonical h1)
    (fillLine_canonical (countDie_canonical h1)))
theorem mendLines_canonical {die a n : Nat} (h : Canonical s) : Canonical (mendLines s die a n) := by
  unfold mendLines
  exact canonical_foldl h fun _ _ h1 => mendLine_canonical h1
theorem dieWrite_canonical {die a : Nat} {bs : List Byte} {mark : Nat} (h : Canonical s) :
    Canonical (dieWrite s die a bs mark) := by
  unfold dieWrite
  refine canonical_ite h ?_
  refine canonical_foldl h fun _ _ h1 => ?_
  dsimp only
  split
  · exact putLine_canonical (fillLine_canonical (mendLine_canonical h1))
  · exact fillLine_canonical (mendLine_canonical h1)
theorem cameHome_canonical {die a n mark : Nat} (h : Canonical s) : Canonical (cameHome s die a n mark) := by
  unfold cameHome
  refine canonical_foldl h fun _ _ h1 => ?_
  split
  · exact putLine_canonical h1
  · exact h1
theorem dropLines_canonical {die : Nat} (h : Canonical s) : Canonical (dropLines s die) := by
  unfold dropLines
  exact updateDie_canonical h fun hd => { hd with }

/-! ## The pinned store (10_die, R289 to R292) -/

theorem pinnedFix_canonical {die off n : Nat} (h : Canonical s) : Canonical (pinnedFix s die off n) := by
  unfold pinnedFix
  exact canonical_ite h (countDie_canonical (updateDie_canonical h fun hd => { hd with }))
theorem pinnedWrite_canonical {die off : Nat} {bs : List Byte} (h : Canonical s) : Canonical (pinnedWrite s die off bs) := by
  unfold pinnedWrite
  exact updateDie_canonical h fun hd => { pinned := memStore_wf hd.pinned _ }
theorem putOff_canonical {w : Nat × Nat × Nat} {op : Instr} {args : EvArgs} (h : Canonical s) :
    Canonical (putOff s w op args) := by
  unfold putOff
  exact canonical_ite h (schedule_canonical (canonical_ite h (countDie_canonical h)))

/-! ## Translation (13_package_memory, R357 to R359) -/

theorem countWalk_canonical {w : Walk} {l : List Nat} (h : Canonical s) : Canonical (countWalk s w l) := by
  unfold countWalk
  exact canonical_when (canonical_foldl h fun _ _ h1 => countRead_canonical h1) fun h1 => countStack_canonical h1
theorem countXl_canonical {n : Nat} (h : Canonical s) : Canonical (countXl s n) := by
  unfold countXl
  exact { h with }
theorem tlbFill_canonical {k q va size : Nat} {leaf : W64} (h : Canonical s) : Canonical (tlbFill s k q va size leaf) := by
  unfold tlbFill
  exact setCluster_canonical (updateCore_canonical (takeFresh_canonical h) fun hc => { hc with })
theorem translate_canonical {k q va : Nat} {write : Bool} (h : Canonical s) : Canonical (translate s k q va write).2 := by
  unfold translate
  refine canonical_snd_ite h ?_
  split
  · exact h
  · dsimp only
    split
    · exact countXl_canonical (countXl_canonical h)
    · split
      · exact tlbFill_canonical (countWalk_canonical (countXl_canonical (countXl_canonical h)))
      · exact countWalk_canonical (countXl_canonical (countXl_canonical h))
      · exact countWalk_canonical (countXl_canonical (countXl_canonical h))
      · exact countWalk_canonical (countXl_canonical (countXl_canonical h))
theorem grantTags_canonical {n : Nat} {s : State} (h : Canonical s) : Canonical (grantTags n s) := by
  induction n generalizing s with
  | zero => exact h
  | succ n ih =>
    unfold grantTags
    split
    · exact canonical_ite h (ih (countXl_canonical (countHeld_canonical h).frame))
    · exact h
theorem requestPage_canonical {q va op : Nat} (h : Canonical s) : Canonical (requestPage s q va op) := by
  unfold requestPage
  dsimp only
  split
  · exact canonical_ite h { h with }
  · split
    · exact canonical_ite h { h with }
    · exact grantTags_canonical (startHeld_canonical (countHeld_canonical h).frame)

/-! ## Physical memory as engines reach it -/

theorem countTier2Read_canonical {pa : W64} {n : Nat} (h : Canonical s) : Canonical (countTier2Read s pa n) := by
  unfold countTier2Read
  exact canonical_ite (canonical_foldl h fun _ _ h1 => countStack_canonical h1) h
theorem countHome_canonical {pa : W64} {n : Nat} (h : Canonical s) : Canonical (countHome s pa n) := by
  unfold countHome
  exact canonical_ite (canonical_foldl h fun _ _ h1 => countRead_canonical h1) (countTier2Read_canonical h)
theorem physReady_canonical {die : Nat} {pa : W64} {n : Nat} (h : Canonical s) : Canonical (physReady s die pa n) := by
  unfold physReady
  exact canonical_ite (mendLines_canonical h) h
theorem physRead_canonical {die : Nat} {pa : W64} {n : Nat} (h : Canonical s) : Canonical (physRead s die pa n).2 := by
  unfold physRead
  split
  · exact dieRead_canonical h
  · exact h
  · exact h
  · exact pinnedFix_canonical h
  · exact h
  · exact h
theorem physHomeWrite_canonical {pa : W64} {bs : List Byte} {cmp : Bool} (h : Canonical s) :
    Canonical (physHomeWrite s pa bs cmp) := by
  unfold physHomeWrite
  split
  · exact forkedWrite_canonical h
  · exact forkedWrite_canonical h
  · exact { h with host := memStore_wf h.host _ }
  · exact h

/-! ## Writing -/

theorem queueStep_canonical {n : Nat} {op : Instr} {v : Nat} (h : Canonical s) : Canonical (queueStep s n op v) := by
  unfold queueStep
  exact schedule_canonical { h with }
theorem writeQueueReg_canonical {n off : Nat} {v : W64} {low : Bool} (h : Canonical s) :
    Canonical (writeQueueReg s n off v low) := by
  unfold writeQueueReg
  dsimp only
  split
  · exact canonical_ite (setQueue_canonical h) h
  · exact canonical_ite (setQueue_canonical h) h
  · exact canonical_ite (queueStep_canonical h) h
  · exact canonical_ite (canonical_when (canonical_ite (queueStep_canonical h) h) fun h1 => queueStep_canonical h1) h
  · exact setQueue_canonical h
  · exact h
theorem writeFabricRoutes_canonical {off : Nat} {v m : W64} (h : Canonical s) : Canonical (writeFabricRoutes s off v m) := by
  unfold writeFabricRoutes
  exact canonical_ite h { h with }
theorem writeFabricReg_canonical {off : Nat} {v m : W64} (h : Canonical s) : Canonical (writeFabricReg s off v m) := by
  unfold writeFabricReg
  refine canonical_ite (canonical_ite h { h with }) ?_
  refine canonical_ite (canonical_ite (schedule_canonical h) h) ?_
  exact canonical_ite (writeFabricRoutes_canonical h) (canonical_ite (canonical_ite h { h with }) h)
theorem writeRetire_canonical {v : W64} (h : Canonical s) : Canonical (writeRetire s v) := by
  unfold writeRetire
  exact canonical_ite h (canonical_when { h with } fun h1 => schedule_canonical h1)
theorem writeAttest_canonical {v : W64} (h : Canonical s) : Canonical (writeAttest s v) := by
  unfold writeAttest
  exact canonical_ite h (canonical_unless { h with } fun h1 => schedule_canonical h1)
theorem writePkgWord_canonical {host : Bool} {off : Nat} {v0 m : W64} (h : Canonical s) :
    Canonical (writePkgWord s host off v0 m) := by
  unfold writePkgWord
  refine canonical_ite (writeRetire_canonical h) (canonical_ite h.frame (canonical_ite h.frame ?_))
  refine canonical_ite (canonical_ite h h.frame) (canonical_ite (schedule_canonical h.frame) ?_)
  refine canonical_ite (schedule_canonical h.frame) (canonical_ite (canonical_ite (schedule_canonical h) h) ?_)
  refine canonical_ite (canonical_ite h.frame h) (canonical_ite (canonical_ite h.frame h) ?_)
  refine canonical_ite (writeAttest_canonical h) (canonical_ite h.frame (canonical_ite (setQueue_canonical h) ?_))
  refine canonical_ite (writeFabricReg_canonical h) (canonical_ite (writeQueueReg_canonical h) ?_)
  refine canonical_ite (canonical_ite (updateRegion_canonical h fun hr => { hr with }) h) (canonical_ite ?_ h)
  exact canonical_unless (updateRegion_canonical h fun hr => { hr with }) fun h => schedule_canonical (schedule_canonical h)
theorem writePkgBytes_canonical {host : Bool} {off : Nat} {bs : List Byte} (h : Canonical s) :
    Canonical (writePkgBytes s host off bs) := by
  unfold writePkgBytes
  exact canonical_foldl h fun _ _ h1 => writePkgWord_canonical h1

/-! ## The undo log (12_package_launch, R341) -/

theorem logBlock_canonical {k : Nat} {writer : Option Nat} {blk : Nat} (h : Canonical s) :
    Canonical (logBlock s k writer blk) := by
  unfold logBlock
  dsimp only
  split
  · exact h
  · refine canonical_ite h (canonical_ite ?_ ?_)
    · exact setRegion_canonical (setCtx_canonical h) { regionOf_canonical h with }
    · refine setCtx_canonical (updateCore_canonical h fun hc => { hc with mem := ?_ })
      dsimp only
      exact memStore_wf hc.mem _

/-! ## Stores at the banks -/

theorem noteOld_canonical {c : Core} {ps : List (Nat × Byte)} (hc : CoreCanonical c) : CoreCanonical (noteOld c ps) := by
  unfold noteOld
  exact { hc with }
theorem storeBytes_canonical {k : Nat} {writer : Option Nat} {ps : List (Nat × Byte)} (h : Canonical s) :
    Canonical (storeBytes s k writer ps) := by
  unfold storeBytes
  exact updateCore_canonical (canonical_foldl h fun _ _ h1 => logBlock_canonical h1) fun hc =>
    { coreCanonical_foldl (noteOld_canonical hc) (fun _ _ hc1 => setLocalByte_canonical hc1) with }
theorem countCorrected_canonical {k off n : Nat} (h : Canonical s) : Canonical (countCorrected s k off n) := by
  unfold countCorrected
  exact updateCore_canonical h fun hc => { hc with }
theorem mendWords_canonical {k : Nat} {ws : List Nat} (h : Canonical s) : Canonical (mendWords s k ws) := by
  unfold mendWords
  exact updateCore_canonical h fun hc => { hc with }
theorem storeNibble_canonical {k : Nat} {writer : Option Nat} {off : Nat} {high : Bool} {v : BitVec 4}
    (h : Canonical s) :
    Canonical (storeNibble s k writer off high v) := by
  unfold storeNibble
  exact canonical_ite (storeBytes_canonical (canonical_ite (mendWords_canonical h) h)) (writeRegBytes_canonical h)
theorem portWrite_canonical {k off : Nat} {bs : List Byte} {redirect : Bool} (h : Canonical s) :
    Canonical (portWrite s k off bs redirect) := by
  unfold portWrite
  dsimp only
  split
  · exact storeBytes_canonical h
  · exact writeRegBytes_canonical (storeBytes_canonical h)

/-! ## Atomics (05_core_memory, R160) -/

theorem countAmo_canonical {k : Nat} {f : Flags} (h : Canonical s) : Canonical (countAmo s k f) := by
  unfold countAmo
  exact updateCore_canonical h fun hc => { hc with }

/-! ## Corrected errors (07_core_failures, R208) -/

theorem scheduleLeak_canonical {k at_ : Nat} (h : Canonical s) : Canonical (scheduleLeak s k at_) := by
  unfold scheduleLeak
  exact schedule_canonical h
theorem bucketUp_canonical {k : Nat} (h : Canonical s) : Canonical (bucketUp s k) := by
  unfold bucketUp
  refine canonical_ite (canonical_when (updateCore_canonical h fun hc => { hc with }) fun h1 => scheduleLeak_canonical h1) ?_
  refine canonical_ite (scheduleLeak_canonical (setCore_canonical { h with } { coreOf_canonical h with })) ?_
  exact canonical_when (canonical_when (updateCore_canonical h fun hc => { hc with }) fun h1 => noteSuspect_canonical h1)
    fun h1 => scheduleLeak_canonical h1

end

end Sys2Proof.Machine
end

