-- ==== Sys2Proof/Proofs/CanonicalCommit.lean ====
section
/-! PROOF. Every memory stays in its canonical form:
what a core sends, its streams and the commit of a body.
One lemma for each operation of the model, in the model's order. -/
namespace Sys2Proof.Machine

section
variable {s : State}

/-! ## Contexts by their logical identity -/

theorem modCtx_canonical {addr : Nat} {f : Ctx → Ctx} (h : Canonical s) : Canonical (modCtx s addr f) := by
  unfold modCtx
  split
  · exact setCtx_canonical h
  · exact { h with region := forall_map h.region fun _ hr => { hr with saved := List.forall_mem_map.mpr hr.saved } }
theorem modTwins_canonical {addr : Nat} {f : Ctx → Ctx} (h : Canonical s) : Canonical (modTwins s addr f) := by
  unfold modTwins
  dsimp only
  split
  · exact modCtx_canonical (modCtx_canonical h)
  · exact modCtx_canonical h
theorem poke_canonical {addr : Nat} (h : Canonical s) : Canonical (poke s addr) := by
  unfold poke
  split
  · exact canonical_ite h (canonical_when (schedule_canonical h) fun h1 => schedule_canonical h1)
  · exact h
theorem pokeTwins_canonical {addr : Nat} (h : Canonical s) : Canonical (pokeTwins s addr) := by
  unfold pokeTwins
  split
  · exact poke_canonical (poke_canonical h)
  · exact poke_canonical h

/-! ## Accesses that fences wait for (05_core_memory, R174; 09_memory_model, R268) -/

theorem modAccess_canonical {addr id : Nat} {f : Access → Access} (h : Canonical s) : Canonical (modAccess s addr id f) := by
  unfold modAccess
  exact pokeTwins_canonical (modTwins_canonical h)
theorem endAccess_canonical {addr id : Nat} (h : Canonical s) : Canonical (endAccess s addr id) := by
  unfold endAccess
  exact modAccess_canonical h
theorem writeDone_canonical {addr id : Nat} (h : Canonical s) : Canonical (writeDone s addr id) := by
  unfold writeDone
  exact modAccess_canonical h
theorem readDone_canonical {addr id : Nat} (h : Canonical s) : Canonical (readDone s addr id) := by
  unfold readDone
  exact modAccess_canonical h
theorem tokenDone_canonical {addr port dst : Nat} (h : Canonical s) : Canonical (tokenDone s addr port dst) := by
  unfold tokenDone
  exact poke_canonical (modCtx_canonical h)

/-! ## Replies, failures and completions (05_core_memory, R157, R158, R166) -/

theorem sendReply_canonical {k : Option Nat} {addr id : Nat} {t : Token} (h : Canonical s) :
    Canonical (sendReply s k addr id t) := by
  unfold sendReply
  split
  · exact h
  · split
    · exact sendFlit_canonical h
    · exact deliver_canonical h
theorem replyTo_canonical {k : Option Nat} {r : Request} {v : V512} (h : Canonical s) : Canonical (replyTo s k r v) := by
  unfold replyTo
  exact canonical_ite (sendReply_canonical h) h
theorem failRequest_canonical {k : Option Nat} {r : Request} {code : BitVec 8} (h : Canonical s) :
    Canonical (failRequest s k r code) := by
  unfold failRequest
  dsimp only
  split
  · exact h
  · split
    · exact sendFlit_canonical h
    · exact deliver_canonical h
theorem failCommand_canonical {c : Command} {code : BitVec 8} (h : Canonical s) : Canonical (failCommand s c code) := by
  unfold failCommand
  split
  · exact h
  · exact deliver_canonical h
theorem completeCommand_canonical {addr id : Nat} {tag : Option Nat} (h : Canonical s) :
    Canonical (completeCommand s addr id tag) := by
  unfold completeCommand
  refine endAccess_canonical ?_
  split
  · dsimp only
    split
    · exact modCtx_canonical (modCtx_canonical h)
    · exact modCtx_canonical h
  · exact h

/-! ## Leaving (05_core_memory, R155, R159) -/

theorem freeCp_canonical {addr : Nat} (h : Canonical s) : Canonical (freeCp s addr) := by
  unfold freeCp
  exact modCtx_canonical h
theorem noteAccess_canonical {addr : Nat} {a : Access} (h : Canonical s) : Canonical (noteAccess s addr a) := by
  unfold noteAccess
  exact canonical_ite h (modCtx_canonical h)
theorem sendRequest_canonical {k dst : Nat} {p : Payload} (h : Canonical s) : Canonical (sendRequest s k dst p) := by
  unfold sendRequest
  exact sendFlit_canonical (updateCore_canonical h fun hc => { hc with })
theorem addXOp_canonical {x : XOp} {op : Instr} {delay : Nat} (h : Canonical s) : Canonical (addXOp s x op delay) := by
  unfold addXOp
  exact schedule_canonical { h with }
theorem dropAmoLine_canonical {k : Nat} {r : Request} {pa : W64} (h : Canonical s) : Canonical (dropAmoLine s k r pa) := by
  unfold dropAmoLine
  split
  · exact updateDie_canonical h fun hd => { hd with }
  · exact h
theorem servePkg_canonical {r : Request} (h : Canonical s) : Canonical (servePkg s r) := by
  unfold servePkg
  dsimp only
  split
  · exact replyTo_canonical h
  · exact writeDone_canonical (replyTo_canonical (writePkgBytes_canonical h))
  · exact writeDone_canonical (writePkgBytes_canonical (replyTo_canonical h))
  · exact h
theorem enterPhysical_canonical {k : Nat} {r : Request} {pa : W64} {cmp port : Bool} (h : Canonical s) :
    Canonical (enterPhysical s k r pa cmp port) := by
  unfold enterPhysical
  dsimp only
  split
  · exact addXOp_canonical (dropAmoLine_canonical (canonical_ite (modAccess_canonical h) h))
  · exact addXOp_canonical (canonical_ite (modAccess_canonical h) h)
  · exact addXOp_canonical (canonical_ite (modAccess_canonical h) h)
  · split
    · exact addXOp_canonical (canonical_ite (modAccess_canonical h) h)
    · exact failRequest_canonical (canonical_ite (modAccess_canonical h) h)
  · exact sendRequest_canonical (canonical_ite (modAccess_canonical h) h)
  · exact servePkg_canonical (canonical_ite (modAccess_canonical h) h)
theorem parkCommand_canonical {q : Nat} {c : Command} {va : Nat} {op : Instr} {args : EvArgs} (h : Canonical s) :
    Canonical (parkCommand s q c va op args) := by
  unfold parkCommand
  refine canonical_ite h ?_
  exact canonical_ite (schedule_canonical h) (schedule_canonical (requestPage_canonical (setCluster_canonical h).frame))
theorem parkOp_canonical {x : XOp} (h : Canonical s) : Canonical (parkOp s x) := by
  unfold parkOp
  exact schedule_canonical (requestPage_canonical (canonical_when (setCluster_canonical h).frame fun h1 => freeCp_canonical h1))
theorem enterVirtual_canonical {k : Nat} {r : Request} (h : Canonical s) : Canonical (enterVirtual s k r) := by
  unfold enterVirtual
  refine canonical_ite (failRequest_canonical (freeCp_canonical h)) ?_
  split
  · dsimp only
    split
    · exact parkOp_canonical h
    · exact addXOp_canonical h
  · split
    · split
      · exact enterPhysical_canonical (freeCp_canonical (tlbFill_canonical h))
      · exact failRequest_canonical (freeCp_canonical h)
    · split
      · exact failRequest_canonical (freeCp_canonical h)
      · exact canonical_ite (addXOp_canonical h) (addXOp_canonical (countXl_canonical (countXl_canonical h)))
theorem leaveRequest_canonical {k : Nat} {r : Request} (h : Canonical s) : Canonical (leaveRequest s k r) := by
  unfold leaveRequest
  dsimp only
  split
  · split
    · exact failRequest_canonical (freeCp_canonical (canonical_when (noteAccess_canonical h) fun h1 => modCtx_canonical h1))
    · exact sendRequest_canonical (cacheMap_canonical (freeCp_canonical (canonical_when (noteAccess_canonical h) fun h1 =>
        modCtx_canonical h1)))
  · exact enterVirtual_canonical (canonical_when (noteAccess_canonical h) fun h1 => modCtx_canonical h1)
  · exact enterPhysical_canonical (freeCp_canonical (canonical_when (noteAccess_canonical h) fun h1 => modCtx_canonical h1))
theorem leaveToken_canonical {k c port : Nat} {t : Token} (h : Canonical s) : SomeCanonical (leaveToken s k c port t) := by
  unfold leaveToken
  dsimp only
  split
  · exact .some h
  · split
    · exact .none
    · exact .some (sendRequest_canonical (cacheMap_canonical (setCtx_canonical h)))
theorem launchPackage_canonical {c : Command} (h : Canonical s) : Canonical (launchPackage s c) := by
  unfold launchPackage
  dsimp only
  split
  · exact schedule_canonical { h with }
  · exact schedule_canonical { h with }
  · exact schedule_canonical { h with }
  · exact schedule_canonical { h with }
  · exact h
theorem attrPlace_canonical {k q : Nat} {va : W64} (h : Canonical s) : Canonical (attrPlace s k q va).2 := by
  unfold attrPlace
  exact canonical_snd_ite (translate_canonical h) h
theorem leafPlace_canonical {s t : State} {q va at_ : Nat} {w : Walk} (h : Canonical s) (e : leafPlace s q va = (w, at_, t)) :
    Canonical t := by
  unfold leafPlace at e
  split at e
  · cases e
    exact countWalk_canonical h
  · cases e
    exact h
theorem consumeError_canonical {n : Nat} {code : BitVec 8} (h : Canonical s) : Canonical (consumeError s n code) := by
  unfold consumeError
  exact schedule_canonical (updateRegion_canonical h fun hr => { hr with })
theorem awaitPage_canonical {q va : Nat} {c : Command} (h : Canonical s) : Canonical (awaitPage s q va c) := by
  unfold awaitPage
  exact parkCommand_canonical h
theorem commandError_canonical {c : Command} (h : Canonical s) : Canonical (commandError s c) := by
  unfold commandError
  exact consumeError_canonical h
theorem recompress_canonical {pa : W64} {size : Nat} {cmp : Bool} (h : Canonical s) : Canonical (recompress s pa size cmp) := by
  unfold recompress
  exact canonical_ite h (canonical_foldl h fun _ _ h1 => homeWriteLine_canonical (countRead_canonical h1))
theorem runCompattr_canonical {k q : Nat} {c : Command} {op : Nat} {va : W64} {bit : Bool} {rt : BitVec 6}
    {fm : Bool} (h : Canonical s) :
    Canonical (runCompattr s k q c op va bit rt fm) := by
  unfold runCompattr
  refine canonical_ite ?_ ?_
  · split
    · exact sendReply_canonical (endAccess_canonical (canonical_of_eq (attrPlace_canonical h) ‹_›))
    · exact awaitPage_canonical (canonical_of_eq (attrPlace_canonical h) ‹_›)
    · exact commandError_canonical (canonical_of_eq (attrPlace_canonical h) ‹_›)
    · exact sendReply_canonical (endAccess_canonical (canonical_of_eq (attrPlace_canonical h) ‹_›))
  · split
    · refine canonical_ite (canonical_ite (completeCommand_canonical (homeWrite_canonical (leafPlace_canonical h ‹_›)))
        (failCommand_canonical (leafPlace_canonical h ‹_›))) ?_
      refine canonical_ite (commandError_canonical (countStack_canonical (leafPlace_canonical h ‹_›))) ?_
      exact completeCommand_canonical (recompress_canonical (leafPlace_canonical h ‹_›))
    · exact awaitPage_canonical (leafPlace_canonical h ‹_›)
    · exact commandError_canonical (leafPlace_canonical h ‹_›)
    · exact failCommand_canonical (leafPlace_canonical h ‹_›)
theorem leaveCommand_canonical {k cx : Nat} {c : Command} (h : Canonical s) : Canonical (leaveCommand s k cx c) := by
  unfold leaveCommand
  extract_lets x q t u v ck d
  have hu : Canonical u := canonical_when (noteAccess_canonical h) fun h => modCtx_canonical h
  have hv : Canonical v := freeCp_canonical hu
  clear_value v
  dsimp only
  split
  · exact schedule_canonical (updateCore_canonical hv fun hc => { hc with })
  · split
    · exact sendRequest_canonical hv
    · exact hv
  · exact schedule_canonical (setCluster_canonical hv)
  · exact schedule_canonical (setCluster_canonical hv)
  · exact canonical_when (updateDie_canonical hv fun hd => { hd with }) fun h => schedule_canonical h
  · exact schedule_canonical (updateDie_canonical hv fun hd => { hd with })
  · exact schedule_canonical (updateDie_canonical hv fun hd => { hd with })
  · exact schedule_canonical (postMsg_canonical hv)
  · exact schedule_canonical (postMsg_canonical hv)
  · exact modCtx_canonical hv
  · exact runCompattr_canonical hv
  · exact schedule_canonical hv.frame
  · exact hv
  · exact schedule_canonical (setPort_canonical hv)
  · exact launchPackage_canonical hv

/-! ## The comparators of a duplicate placement (12_package_launch, R343) -/

theorem meetExit_canonical {n : Nat} {e : Exit} (h : Canonical s) : Canonical (meetExit s n e).2 := by
  unfold meetExit
  dsimp only
  split
  · exact schedule_canonical (updateRegion_canonical h fun hr => { hr with })
  · refine canonical_snd_ite (updateRegion_canonical h fun hr => { hr with }) ?_
    exact schedule_canonical (updateRegion_canonical h fun hr => { hr with })
theorem dropTwin_canonical {k c : Nat} {b a : OutItem} (h : Canonical s) : Canonical (dropTwin s k c b a) := by
  unfold dropTwin
  dsimp only
  split
  · exact canonical_when (freeCp_canonical (noteAccess_canonical h)) fun h1 => modCtx_canonical h1
  · exact freeCp_canonical (noteAccess_canonical h)
  · exact h
theorem leaveItem_canonical {k c : Nat} {i : OutItem} (h : Canonical s) : SomeCanonical (leaveItem s k c i) := by
  unfold leaveItem
  split
  · exact leaveToken_canonical h
  · exact .some (leaveRequest_canonical h)
  · exact someCanonical_ite .none (.some (leaveCommand_canonical h))
  · exact .some (leaveCommand_canonical h)
  · exact .some h
theorem leaveChecked_canonical {k c : Nat} {i : OutItem} (h : Canonical s) : SomeCanonical (leaveChecked s k c i) := by
  unfold leaveChecked
  split
  · exact leaveItem_canonical h
  · split
    · exact .some (canonical_of_eq (meetExit_canonical h) ‹_›)
    · split
      · exact leaveItem_canonical (dropTwin_canonical (canonical_of_eq (meetExit_canonical h) ‹_›))
      · exact leaveItem_canonical (dropTwin_canonical (canonical_of_eq (meetExit_canonical h) ‹_›))
      · exact .some (canonical_of_eq (meetExit_canonical h) ‹_›)

/-! ## The outbound order (05_core_memory, R174; 08_cluster, R249) -/

theorem walkItem_canonical {k c : Nat} {arr : Bool} {w : Walked} {i : OutItem} (h : Canonical w.st) :
    Canonical (walkItem k c arr w i).st := by
  unfold walkItem
  dsimp only
  split
  · split
    · exact h
    · split
      · exact (leaveChecked_canonical h).of_eq ‹_›
      · exact h
  · split
    · exact h
    · split
      · exact (leaveChecked_canonical h).of_eq ‹_›
      · exact h
  · split
    · exact h
    · split
      · exact (leaveChecked_canonical h).of_eq ‹_›
      · exact h
  · split
    · exact h
    · split
      · exact dropLines_canonical h
      · exact h
  · split
    · exact h
    · exact sendFlit_canonical h
  · split
    · exact h
    · exact schedule_canonical h
theorem drain_canonical {k c : Nat} {arr : Bool} (h : Canonical s) : Canonical (drain s k c arr) := by
  unfold drain
  split
  · exact h
  · extract_lets x w
    have hw : Canonical w.st :=
      List.foldlRecOn (motive := fun w : Walked => Canonical w.st) _ _ (setCtx_canonical h) fun _ hw _ _ => walkItem_canonical hw
    exact setCtx_canonical hw
theorem execFenceReleaseTraffic_canonical (h : Canonical s) : NextCanonical (execFenceReleaseTraffic s) := by
  unfold execFenceReleaseTraffic
  exact .next (drain_canonical h)
theorem execBarrierArrivalLeave_canonical (h : Canonical s) : NextCanonical (execBarrierArrivalLeave s) := by
  unfold execBarrierArrivalLeave
  exact .next (drain_canonical h)

theorem consumeOnCore_canonical {k : Nat} {code : BitVec 8} (h : Canonical s) : Canonical (consumeOnCore s k code) := by
  unfold consumeOnCore
  split
  · exact consumeError_canonical h
  · exact h
theorem setStream_canonical {k c q : Nat} {st : Stream} (h : Canonical s) : Canonical (setStream s k c q st) := by
  unfold setStream
  exact setCtx_canonical h
theorem wakeStream_canonical {k c q : Nat} (h : Canonical s) : Canonical (wakeStream s k c q) := by
  unfold wakeStream
  exact canonical_unless (schedule_canonical h) fun h1 => canonical_ite h (canonical_ite (canonical_ite h h1) (canonical_ite h
    (schedule_canonical h)))
theorem wakeDrain_canonical {k c q : Nat} (h : Canonical s) : Canonical (wakeDrain s k c q) := by
  unfold wakeDrain
  exact canonical_ite (schedule_canonical h) h
theorem settleDrains_canonical {k c q : Nat} (h : Canonical s) : Canonical (settleDrains s k c q) := by
  unfold settleDrains
  exact setStream_canonical (setCtx_canonical h)
theorem engineAddress_canonical {k c q : Nat} {st : Stream} (h : Canonical s) : Canonical (engineAddress s k c q st).2 := by
  unfold engineAddress
  refine canonical_snd_ite h ?_
  refine canonical_snd_ite (bucketUp_canonical (updateCore_canonical h fun hc => { hc with })) ?_
  refine canonical_snd_ite (setCtx_canonical (setStream_canonical (updateCore_canonical (updateCore_canonical h fun hc =>
    { hc with }) fun hc => { hc with }))) ?_
  exact trapAtBoundary_canonical (setStream_canonical (updateCore_canonical (updateCore_canonical h fun hc => { hc with })
    fun hc => { hc with }))
theorem execStreamFetch_canonical (h : Canonical s) : NextCanonical (execStreamFetch s) := by
  unfold execStreamFetch
  refine nextCanonical_ite (.next h) ?_
  dsimp only
  split
  · exact .next (canonical_of_eq (engineAddress_canonical h) ‹_›)
  · refine nextCanonical_ite (.next (consumeError_canonical (canonical_of_eq (engineAddress_canonical h) ‹_›))) ?_
    exact .next (wakeDrain_canonical (wakeStream_canonical (setStream_canonical (countCorrected_canonical (canonical_of_eq
      (engineAddress_canonical h) ‹_›)))))
theorem writeHead_canonical {k c : Nat} {st : Stream} (h : Canonical s) : Canonical (writeHead s k c st).1 := by
  unfold writeHead
  split
  · exact h
  · exact canonical_ite h (storeBytes_canonical h)
theorem endBinding_canonical {k c : Nat} {st : Stream} (h : Canonical s) : Canonical (endBinding s k c st) := by
  unfold endBinding
  exact setCtx_canonical h
theorem writeOld_canonical {k c q : Nat} {st : Stream} (h : Canonical s) : Canonical (writeOld s k c q st) := by
  unfold writeOld
  split
  · exact wakeStream_canonical (canonical_of_eq (engineAddress_canonical h) ‹_›)
  · refine canonical_ite (wakeStream_canonical (endBinding_canonical (setCtx_canonical (writeHead_canonical (canonical_of_eq
      (engineAddress_canonical h) ‹_›))))) ?_
    exact wakeStream_canonical (setCtx_canonical (writeHead_canonical (canonical_of_eq (engineAddress_canonical h) ‹_›)))
theorem execStreamWrite_canonical (h : Canonical s) : NextCanonical (execStreamWrite s) := by
  unfold execStreamWrite
  dsimp only
  split
  · exact .next (writeOld_canonical h)
  · refine nextCanonical_ite (.next h) ?_
    refine nextCanonical_ite (nextCanonical_ite (.next (setStream_canonical (endBinding_canonical h))) (.next h)) ?_
    split
    · exact .next (canonical_ite (wakeStream_canonical (canonical_of_eq (engineAddress_canonical h) ‹_›)) (canonical_of_eq
        (engineAddress_canonical h) ‹_›))
    · exact .next (wakeDrain_canonical (wakeStream_canonical (setStream_canonical (writeHead_canonical (canonical_of_eq
        (engineAddress_canonical h) ‹_›)))))
theorem execStreamDrainTag_canonical (h : Canonical s) : NextCanonical (execStreamDrainTag s) := by
  unfold execStreamDrainTag
  exact .next (settleDrains_canonical h)
theorem unbindStream_canonical {k c q : Nat} (h : Canonical s) : Canonical (unbindStream s k c q) := by
  unfold unbindStream
  refine canonical_ite (wakeStream_canonical (setStream_canonical h)) ?_
  exact setStream_canonical (canonical_ite h (endBinding_canonical h))
theorem bindStream_canonical {k c q : Nat} {n : Stream} (h : Canonical s) : Canonical (bindStream s k c q n) := by
  unfold bindStream
  exact wakeStream_canonical (setStream_canonical (canonical_when (canonical_ite h (endBinding_canonical h)) fun h1 =>
    setCtx_canonical h1))
theorem strctl_canonical {k c q op : Nat} (h : Canonical s) : Canonical (strctl s k c q op) := by
  unfold strctl
  dsimp only
  split
  · exact canonical_ite (unbindStream_canonical h) h
  · exact setStream_canonical h
  · exact wakeStream_canonical (setStream_canonical h)
theorem drainStream_canonical {k c q tag later : Nat} (h : Canonical s) : Canonical (drainStream s k c q tag later) := by
  unfold drainStream
  exact setStream_canonical h

/-! ## Shared state that a commit touches -/

theorem countCtx_canonical {k c n m : Nat} (h : Canonical s) : Canonical (countCtx s k c n m) := by
  unfold countCtx
  exact setCtx_canonical h
theorem countCore_canonical {k n m : Nat} (h : Canonical s) : Canonical (countCore s k n m) := by
  unfold countCore
  exact updateCore_canonical h fun hc => { hc with }
theorem countPkg_canonical {n m : Nat} (h : Canonical s) : Canonical (countPkg s n m) := by
  unfold countPkg
  exact { h with }
theorem countCasc_canonical {die n m : Nat} (h : Canonical s) : Canonical (countCasc s die n m) := by
  unfold countCasc
  exact updateDie_canonical h fun hd => { hd with }
theorem sendVote_canonical {k f : Nat} (h : Canonical s) : Canonical (sendVote s k f) := by
  unfold sendVote
  exact canonical_ite (sendFlit_canonical h) h
theorem raiseRel_canonical {k f : Nat} (h : Canonical s) : Canonical (raiseRel s k f) := by
  unfold raiseRel
  exact sendVote_canonical (updateCore_canonical h fun hc => { hc with })
theorem freeSlot_canonical {k n : Nat} (h : Canonical s) : Canonical (freeSlot s k n) := by
  unfold freeSlot
  dsimp only
  split
  · exact raiseRel_canonical (updateCore_canonical h fun hc => { hc with })
  · exact updateCore_canonical h fun hc => { hc with }
theorem releaseSlot_canonical {k n : Nat} (h : Canonical s) : Canonical (releaseSlot s k n) := by
  unfold releaseSlot
  exact canonical_ite (updateCore_canonical h fun hc => { hc with }) (freeSlot_canonical h)
theorem setPair_canonical {cl ch : Nat} {p : PairCh} (h : Canonical s) : Canonical (setPair s cl ch p) := by
  unfold setPair
  exact setCluster_canonical h
theorem pairDeliver_canonical {cl ch : Nat} (h : Canonical s) : Canonical (pairDeliver s cl ch) := by
  unfold pairDeliver
  dsimp only
  split
  · exact canonical_ite (sendReply_canonical (modCtx_canonical (setPair_canonical h))) h
  · exact h
theorem dropPair_canonical {cl ch : Nat} (h : Canonical s) : Canonical (dropPair s cl ch) := by
  unfold dropPair
  refine canonical_ite ?_ (setPair_canonical h)
  dsimp only
  split
  · exact canonical_unless (modCtx_canonical (setPair_canonical h)) fun h1 => schedule_canonical h1
  · exact modCtx_canonical (setPair_canonical h)
theorem abortPairs_canonical {k c : Nat} (h : Canonical s) : Canonical (abortPairs s k c) := by
  unfold abortPairs
  refine canonical_foldl h fun _ _ h1 => ?_
  refine canonical_ite ?_ h1
  dsimp only
  split
  · exact sendFlit_canonical (dropPair_canonical h1)
  · exact dropPair_canonical h1
theorem raiseTrap_canonical {k c : Nat} {fm : Bool} {cause : Cause} {mult : Bool} (h : Canonical s) :
    Canonical (raiseTrap s k c fm cause mult) := by
  unfold raiseTrap
  exact abortPairs_canonical (takeTrap_canonical h)

/-! ## CSR writes (07_core_failures, R208, R216, R222; 05_core_memory, R171; 12_package_launch, R340) -/

theorem writeCsr_canonical {k n : Nat} {v : W64} (h : Canonical s) : Canonical (writeCsr s k n v) := by
  unfold writeCsr
  refine canonical_ite (updateCore_canonical h fun hc => { hc with }) ?_
  refine canonical_ite (canonical_when (updateCore_canonical h fun hc => { hc with }) fun h1 => noteSuspect_canonical h1) ?_
  refine canonical_ite (canonical_ite (updateCore_canonical h fun hc => { hc with }) h) ?_
  exact canonical_ite (canonical_ite (updateCore_canonical h fun hc => { hc with }) h) h

/-! ## Effects (R68) -/

theorem commitRequest_canonical {k c : Nat} {r : Request} (h : Canonical s) : Canonical (commitRequest s k c r) := by
  unfold commitRequest
  exact setCtx_canonical { h with }
theorem commitCommand_canonical {k c : Nat} {q : Command} (h : Canonical s) : Canonical (commitCommand s k c q) := by
  unfold commitCommand
  dsimp only
  split
  · exact updateRegion_canonical { h with } fun hr => { hr with }
  · exact { h with }
  · exact pairDeliver_canonical (setCtx_canonical (setPair_canonical { h with }))
  · exact setCtx_canonical { h with }
theorem pinTile_canonical {o : Core} {t : Tile} (hc : CoreCanonical o) : CoreCanonical (pinTile o t) := by
  unfold pinTile
  split
  · exact { hc with }
  · exact hc
theorem commitBasin_canonical {k : Nat} {b : BasinCmd} (h : Canonical s) : Canonical (commitBasin s k b) := by
  unfold commitBasin
  extract_lets c d
  have hc : CoreCanonical c := coreOf_canonical h
  have hd : CoreCanonical d := by
    unfold d
    split
    · exact pinTile_canonical (pinTile_canonical hc)
    · exact hc
  exact schedule_canonical (setCore_canonical h { hd with })
theorem sendTret_canonical {k : Nat} {w1 : W64} {action : Nat} (h : Canonical s) : Canonical (sendTret s k w1 action) := by
  unfold sendTret
  dsimp only
  split
  · exact sendFlit_canonical h
  · exact h
theorem clearCounter_canonical {k c n : Nat} (h : Canonical s) : Canonical (clearCounter s k c n) := by
  unfold clearCounter
  exact canonical_ite (setCtx_canonical h) (canonical_ite (updateCore_canonical h fun hc => { hc with }) h)
theorem writeDepth_canonical {k g e : Nat} (h : Canonical s) : Canonical (writeDepth s k g e) := by
  unfold writeDepth
  exact canonical_ite (countCasc_canonical h) (writeGroup_canonical h)
theorem applyEffect_canonical {k c : Nat} {s : State} {e : Effect} (h : Canonical s) : Canonical (applyEffect k c s e) := by
  unfold applyEffect
  dsimp only
  split
  · exact setCtx_canonical h
  · exact commitRequest_canonical h
  · exact commitCommand_canonical h
  · exact setCtx_canonical h
  · exact commitBasin_canonical h
  · split
    · exact storeBytes_canonical h
    · exact writeRegBytes_canonical (storeBytes_canonical h)
  · exact canonical_ite h (storeNibble_canonical h)
  · exact wakeStream_canonical (setStream_canonical h)
  · exact bindStream_canonical h
  · exact strctl_canonical h
  · exact drainStream_canonical h
  · exact setCtx_canonical h
  · exact setCtx_canonical h
  · exact setCtx_canonical h
  · exact setCtx_canonical h
  · exact setCtx_canonical h
  · exact setCtx_canonical h
  · exact setCtx_canonical h
  · exact setCtx_canonical h
  · exact writeCsr_canonical h
  · exact h
  · exact setCtx_canonical h
  · exact updateCore_canonical h fun hc => { hc with }
  · exact h
  · exact sendTret_canonical h
  · exact setCtx_canonical h
  · exact setCtx_canonical h
  · exact sendFlit_canonical h
  · split
    · exact sendRecord_canonical h
    · exact h
  · exact canonical_ite h (requestVf_canonical (updateDie_canonical h fun hd => { hd with }))
  · exact updateCore_canonical h fun hc => { hc with }
  · split
    · exact sendVote_canonical (updateCore_canonical h fun hc => { hc with })
    · exact h
  · exact canonical_foldl h fun _ _ h1 => releaseSlot_canonical h1
  · exact setFilter_canonical h
  · exact updateCore_canonical h fun hc => writeRxPort_canonical hc
  · exact writeDepth_canonical h
  · exact { h with }
  · exact setCtx_canonical h
  · exact setCtx_canonical h
theorem applyLate_canonical {k : Nat} {s : State} {e : Effect} (h : Canonical s) : Canonical (applyLate k s e) := by
  unfold applyLate
  split
  · split
    · exact h
    · exact writeRegBytes_canonical h
  · exact canonical_ite (storeNibble_canonical h) h
  · exact h
theorem completeAfter_canonical {k c : Nat} {s : State} {e : Effect} (h : Canonical s) : Canonical (completeAfter k c s e) := by
  unfold completeAfter
  split
  · exact setCtx_canonical h
  · exact h

/-! ## Registers, pops and streams (R68) -/

theorem returnCredit_canonical {k : Nat} {t : Token} (h : Canonical s) : Canonical (returnCredit s k t) := by
  unfold returnCredit
  split
  · split
    · exact sendFlit_canonical h
    · exact h
  · exact h
theorem returnReply_canonical {k c : Nat} {t : Token} (h : Canonical s) : Canonical (returnReply s k c t) := by
  unfold returnReply
  split
  · exact canonical_ite (setCluster_canonical h) (setCtx_canonical h)
  · exact setCtx_canonical h
theorem commitPops_canonical {k c p n : Nat} (h : Canonical s) : Canonical (commitPops s k c p n) := by
  unfold commitPops
  exact canonical_when (canonical_foldl (setCtx_canonical h) fun _ _ h1 => canonical_ite (returnReply_canonical h1)
    (returnCredit_canonical h1)) fun h1 => schedule_canonical h1
theorem commitBlocks_canonical {k c p n : Nat} (h : Canonical s) : Canonical (commitBlocks s k c p n) := by
  unfold commitBlocks
  exact canonical_foldl (setCtx_canonical h) fun _ _ h1 => canonical_when (setCore_canonical { h1 with }
    { coreOf_canonical h1 with }) fun h2 => releaseSlot_canonical h2
theorem commitStream_canonical {k c q n : Nat} (h : Canonical s) : Canonical (commitStream s k c q n) := by
  unfold commitStream
  exact canonical_ite h (wakeStream_canonical (setStream_canonical h))

/-! ## Rules of a round (R74 to R77) -/

theorem setRetry_canonical {k c i : Nat} {on : Bool} (h : Canonical s) : Canonical (setRetry s k c i on) := by
  unfold setRetry
  exact setCtx_canonical h
theorem commitRule_canonical {k c : Nat} {s : State} {w : Work} (h : Canonical s) : Canonical (commitRule k c s w) := by
  unfold commitRule
  refine canonical_when ?_ fun h1 => bucketUp_canonical (countCtx_canonical (setRetry_canonical h1))
  refine canonical_foldl ?_ fun _ _ h1 => canonical_foldl h1 fun _ _ h2 => canonical_ite (countCtx_canonical h2) h2
  refine countCtx_canonical ?_
  refine canonical_foldl ?_ fun _ _ h1 => canonical_ite (commitStream_canonical h1) h1
  refine canonical_foldl ?_ fun _ _ h1 => commitPops_canonical h1
  refine canonical_foldl ?_ fun _ _ h1 => applyEffect_canonical h1
  refine canonical_foldl ?_ fun _ _ h1 => commitBlocks_canonical h1
  refine updateCore_canonical (setCtx_canonical h) fun hc => ?_
  refine coreCanonical_foldl hc fun _ _ hc1 => ?_
  split
  · exact pinTile_canonical (pinTile_canonical hc1)
  · exact hc1
theorem abortRule_canonical {k c : Nat} {w : Work} {a : Abort} (h : Canonical s) : Canonical (abortRule s k c w a).1 := by
  unfold abortRule
  extract_lets x old rec_ retry t u _ v
  have hu : Canonical u := countCtx_canonical (setRetry_canonical (setCtx_canonical h))
  have hv : Canonical v := countCtx_canonical hu
  refine canonical_fst_ite ?_ (canonical_fst_ite (canonical_fst_ite hv (setRetry_canonical hv)) ?_)
  · split
    · exact setCtx_canonical hu
    · exact hu
    · exact hu
  · exact canonical_fst_ite (consumeError_canonical hu) (canonical_fst_ite hu hu)
theorem finishAbort_canonical {k c : Nat} {acc : State × List Cause} {f : Finished} (h : Canonical acc.1) :
    Canonical (finishAbort k c acc f).1 := by
  unfold finishAbort
  split
  · exact abortRule_canonical h
  · exact h
theorem foldl_finishAbort_canonical {k c : Nat} {acc : State × List Cause} {fs : List Finished} (h : Canonical acc.1) :
    Canonical (fs.foldl (finishAbort k c) acc).1 :=
  List.foldlRecOn (motive := fun acc : State × List Cause => Canonical acc.1) _ _ h fun _ h _ _ => finishAbort_canonical h
theorem raiseTraps_canonical {k c : Nat} {fm : Bool} {l : List Cause} (h : Canonical s) :
    Canonical (raiseTraps s k c fm l) := by
  unfold raiseTraps
  split
  · exact h
  · exact canonical_when (countCtx_canonical (raiseTrap_canonical h)) fun h1 => suspectOf_canonical h1
theorem takeChecks_canonical {k c : Nat} (h : Canonical s) : Canonical (takeChecks s k c).1 := by
  unfold takeChecks
  exact setCtx_canonical h
theorem clearCounters_canonical {k c : Nat} {s : State} {w : Work} (h : Canonical s) : Canonical (clearCounters k c s w) := by
  unfold clearCounters
  refine canonical_foldl h fun _ _ h1 => ?_
  split
  · exact clearCounter_canonical h1
  · exact h1
theorem openTiles_canonical {k : Nat} (h : Canonical s) : Canonical (openTiles s k) := by
  unfold openTiles
  exact updateCore_canonical h fun hc => { hc with }
theorem commitBodies_canonical {k c : Nat} {fs : List Finished} (h : Canonical s) : Canonical (commitBodies s k c fs) := by
  unfold commitBodies
  extract_lets done fm t u
  have ht : Canonical t := canonical_foldl h fun _ _ h => clearCounters_canonical h
  have hu : Canonical u := canonical_foldl ht fun _ _ h => commitRule_canonical h
  have ha : Canonical (fs.foldl (finishAbort k c) (u, [])).1 := foldl_finishAbort_canonical hu
  split
  extract_lets _ x v w y
  have hw : Canonical w := canonical_foldl (setCtx_canonical (canonical_of_eq_fst ha ‹_›)) fun _ _ h =>
    canonical_foldl h fun _ _ h => completeAfter_canonical h
  have hy : Canonical y := canonical_foldl hw fun _ _ h => settleDrains_canonical h
  refine canonical_when (drain_canonical (openTiles_canonical (raiseTraps_canonical ?_))) fun h => schedule_canonical h
  exact takeChecks_canonical hy
theorem discardRound_canonical {k c : Nat} (h : Canonical s) : Canonical (discardRound s k c) := by
  unfold discardRound
  exact raiseTraps_canonical (takeChecks_canonical (setCtx_canonical (updateCore_canonical h fun hc => { hc with })))
theorem commitRound_canonical (h : Canonical s) : Canonical (commitRound s) := by
  unfold commitRound
  refine canonical_ite (discardRound_canonical (countCore_canonical (setCore_canonical { h with } { coreOf_canonical h with })))
    ?_
  exact commitBodies_canonical (countCore_canonical (setCore_canonical { h with } { coreOf_canonical h with }))
theorem lateWrites_canonical {s t : State} (h : Canonical t) : Canonical (lateWrites s t) := by
  unfold lateWrites
  exact canonical_foldl h fun _ _ h => canonical_foldl h fun _ _ h => applyLate_canonical h

theorem writeArea_canonical {k slot : Nat} {at_ : W64} (h : Canonical s) : Canonical (writeArea s k slot at_) := by
  unfold writeArea
  exact canonical_ite h (physHomeWrite_canonical (takeFresh_canonical h))

/-! ## Reading an area back -/

theorem areaCore_canonical {at_ : Nat → W64} {slots : List Nat} {c : Core} (hc : CoreCanonical c) :
    CoreCanonical (areaCore s at_ slots c) := by
  unfold areaCore
  exact coreCanonical_foldl hc fun _ _ hc1 => coreCanonical_ite hc1 { hc1 with active := memStore_wf hc1.active _ }

/-! ## The inbound ring of an evicted context (R214, R217) -/

theorem ringWrite_canonical {at_ : W64} {port : Nat} {t : Token} (h : Canonical s) : Canonical (ringWrite s at_ port t) := by
  unfold ringWrite
  exact canonical_ite h (physHomeWrite_canonical (physHomeWrite_canonical h))

end

end Sys2Proof.Machine
end

