-- ==== Sys2Proof/Proofs/CanonicalCluster.lean ====
section
/-! PROOF. Every memory stays in its canonical form:
the arrivals, the Basin, the copy engines, the mesh and the units of a cluster.
One lemma for each operation of the model, in the model's order. -/
namespace Sys2Proof.Machine

section
variable {s : State}

/-! ## Messages -/

theorem dropMsg_canonical {id : Nat} (h : Canonical s) : Canonical (dropMsg s id) := by
  unfold dropMsg
  exact { h with }
theorem again_canonical {op : Instr} (h : Canonical s) : Canonical (again s op) := by
  unfold again
  exact schedule_canonical h
theorem waitMsg_canonical {op : Instr} (h : Canonical s) : Canonical (waitMsg s op) := by
  unfold waitMsg
  exact canonical_ite (again_canonical h) h
theorem countReceived_canonical {k : Nat} (h : Canonical s) : Canonical (countReceived s k) := by
  unfold countReceived
  exact updateCore_canonical h fun hc => { hc with }

/-! ## Merged atomics (08_cluster, R242) -/

theorem dropSplit_canonical {id : Nat} (h : Canonical s) : Canonical (dropSplit s id) := by
  unfold dropSplit
  exact { h with core := forall_map h.core fun _ hc => { hc with } }
theorem dropSplits_canonical {r : Request} {n : Nat} (h : Canonical s) : Canonical (dropSplits s r n) := by
  induction n generalizing s r with
  | zero => exact h
  | succ n ih =>
    unfold dropSplits
    split
    · exact h
    · exact ih (ih (dropSplit_canonical h))
theorem answerAmo_canonical {k : Nat} {r : Request} {old : Nat} (h : Canonical s) : Canonical (answerAmo s k r old) := by
  unfold answerAmo
  dsimp only
  split
  · exact canonical_ite (sendFlit_canonical h) (dropSplits_canonical h)
  · exact replyTo_canonical h
theorem failAmo_canonical {k : Nat} {r : Request} {code : BitVec 8} (h : Canonical s) : Canonical (failAmo s k r code) := by
  unfold failAmo
  split
  · exact sendFlit_canonical h
  · exact failRequest_canonical h
theorem splitReply_canonical {k : Nat} {p : Split} {old : Nat} (h : Canonical s) : Canonical (splitReply s k p old) := by
  unfold splitReply
  dsimp only
  split
  · exact answerAmo_canonical (answerAmo_canonical (dropSplit_canonical h))
  · exact answerAmo_canonical (dropSplit_canonical h)
theorem splitFail_canonical {k : Nat} {p : Split} {code : BitVec 8} (h : Canonical s) : Canonical (splitFail s k p code) := by
  unfold splitFail
  exact failAmo_canonical (failAmo_canonical (dropSplit_canonical h))
theorem finishAmo_canonical {k : Nat} {r : Request} {old : Nat} (h : Canonical s) : Canonical (finishAmo s k r old) := by
  unfold finishAmo
  exact answerAmo_canonical (canonical_foldl h fun _ _ h1 => writeDone_canonical h1)

/-! ## Tokens and replies (02_rule, R58; 07_core_failures, R213 to R215) -/

theorem enqueue_canonical {k c port : Nat} {t : Token} (h : Canonical s) : Canonical (enqueue s k c port t) := by
  unfold enqueue
  exact setCtx_canonical h
theorem copyToTwin_canonical {addr port : Nat} {t : Token} {from_ : Option Nat} (h : Canonical s) :
    Canonical (copyToTwin s addr port t from_) := by
  unfold copyToTwin
  split
  · exact h
  · dsimp only
    split
    · exact canonical_ite h (enqueue_canonical h)
    · exact h
theorem replyToTwin_canonical {addr id : Nat} {t : Token} (h : Canonical s) : Canonical (replyToTwin s addr id t) := by
  unfold replyToTwin
  split
  · exact enqueue_canonical h
  · exact h
theorem holdToken_canonical {k addr port cls : Nat} {t : Token} (h : Canonical s) :
    Canonical (holdToken s k addr port cls t) := by
  unfold holdToken
  exact schedule_canonical (updateCore_canonical h fun hc => { hc with })
theorem execTokenArrival_canonical (h : Canonical s) : NextCanonical (execTokenArrival s) := by
  unfold execTokenArrival
  split
  · extract_lets t from_ told
    have ht : Canonical t := dropMsg_canonical h
    have htold (u : State) (hu : Canonical u) : Canonical (told u) := by
      unfold told
      split
      · exact tokenDone_canonical hu
      · exact hu
    split
    · refine nextCanonical_ite (.next ?_) (.next (again_canonical h))
      exact copyToTwin_canonical (enqueue_canonical (htold _ (countReceived_canonical ht)))
    · split
      · refine nextCanonical_ite (.next (forwardFlit_canonical ht)) ?_
        refine nextCanonical_ite (.next ?_) (.next (again_canonical h))
        exact holdToken_canonical (htold _ (countReceived_canonical ht))
      · exact .next (again_canonical h)
  · exact .next (waitMsg_canonical h)
theorem spill_canonical {addr port : Nat} {t : Token} (h : Canonical s) : SomeCanonical (spill s addr port t) := by
  unfold spill
  exact someCanonical_ite .none (.some (modCtx_canonical (ringWrite_canonical h)))
theorem followHeld_canonical {k addr port cls : Nat} {t : Token} (h : Canonical s) :
    Canonical (followHeld s k addr port cls t) := by
  unfold followHeld
  split
  · exact h
  · refine canonical_ite (forwardFlit_canonical (updateCore_canonical h fun hc => { hc with })) ?_
    exact forwardFlit_canonical { h with }
theorem execTokenSpill_canonical (h : Canonical s) : NextCanonical (execTokenSpill s) := by
  unfold execTokenSpill
  dsimp only
  split
  · exact .next h
  · split
    · exact .next (enqueue_canonical (countCore_canonical (updateCore_canonical h fun hc => { hc with })))
    · refine nextCanonical_ite (.next (followHeld_canonical (countCore_canonical (updateCore_canonical h fun hc =>
        { hc with })))) ?_
      refine nextCanonical_ite (.next (schedule_canonical h)) ?_
      split
      · exact .next (countCore_canonical (updateCore_canonical (SomeCanonical.of_eq (spill_canonical h) ‹_›) fun hc =>
          { hc with }))
      · exact .next (schedule_canonical (canonical_ite (countCore_canonical h) h))
theorem execCreditReturn_canonical (h : Canonical s) : NextCanonical (execCreditReturn s) := by
  unfold execCreditReturn
  split
  · exact .next (modCtx_canonical (dropMsg_canonical h))
  · exact .next (waitMsg_canonical h)
theorem execReplyArrival_canonical (h : Canonical s) : NextCanonical (execReplyArrival s) := by
  unfold execReplyArrival
  split
  · dsimp only
    split
    · exact .next (splitReply_canonical (dropMsg_canonical h))
    · refine nextCanonical_ite (.next (readDone_canonical (replyToTwin_canonical (enqueue_canonical (dropMsg_canonical h))))) ?_
      exact .next (again_canonical h)
    · split
      · refine nextCanonical_ite (.next (forwardFlit_canonical (dropMsg_canonical h))) ?_
        refine nextCanonical_ite (.next (readDone_canonical (holdToken_canonical (dropMsg_canonical h)))) ?_
        exact .next (again_canonical h)
      · exact .next (again_canonical h)
  · exact .next (waitMsg_canonical h)
theorem failTrap_canonical {k c : Nat} {code : BitVec 8} {rt : BitVec 6} {org : Origin} (h : Canonical s) :
    Canonical (failTrap s k c code rt org) := by
  unfold failTrap
  exact trapAtBoundary_canonical h
theorem execFailedRequest_canonical (h : Canonical s) : NextCanonical (execFailedRequest s) := by
  unfold execFailedRequest
  split
  · dsimp only
    split
    · exact .next (splitFail_canonical (dropMsg_canonical h))
    · refine nextCanonical_ite (.next (failTrap_canonical (endAccess_canonical (dropMsg_canonical h)))) ?_
      refine nextCanonical_ite (.next (endAccess_canonical (replyToTwin_canonical (enqueue_canonical (dropMsg_canonical h)))))
        ?_
      exact .next (again_canonical h)
    · split
      · refine nextCanonical_ite (.next (forwardFlit_canonical (dropMsg_canonical h))) ?_
        refine nextCanonical_ite (.next (holdToken_canonical (endAccess_canonical (dropMsg_canonical h)))) ?_
        exact .next (again_canonical h)
      · exact .next (again_canonical h)
  · exact .next (waitMsg_canonical h)
theorem execTretMessageArrival_canonical (h : Canonical s) : NextCanonical (execTretMessageArrival s) := by
  unfold execTretMessageArrival
  split
  · dsimp only
    split
    · exact .next (updateCore_canonical (dropMsg_canonical h) fun hc => { hc with })
    · split
      · refine nextCanonical_ite (.next (forwardFlit_canonical (dropMsg_canonical h))) ?_
        exact .next (countCore_canonical (dropMsg_canonical h))
      · exact .next (countCore_canonical (dropMsg_canonical h))
  · exact .next (waitMsg_canonical h)

/-! ## The memory port (05_core_memory, R156, R160, R161, R172) -/

theorem portHead_canonical {s t : State} {k : Nat} {r : Request} (h : Canonical s) (e : portHead s k = some (r, t)) :
    Canonical t := by
  unfold portHead at e
  dsimp only at e
  split at e
  · cases e
  · cases e
    exact updateCore_canonical h.frame fun hc => { hc with }
theorem execRemoteAccessServe_canonical (h : Canonical s) : NextCanonical (execRemoteAccessServe s) := by
  unfold execRemoteAccessServe
  dsimp only
  split
  · exact .next h
  · split
    · split
      · exact .next (failRequest_canonical (portHead_canonical h ‹_›))
      · refine nextCanonical_ite (.next (consumeOnCore_canonical (portHead_canonical h ‹_›))) ?_
        exact .next (replyTo_canonical (countCorrected_canonical (portHead_canonical h ‹_›)))
    · split
      · exact .next (failRequest_canonical (portHead_canonical h ‹_›))
      · exact .next (replyTo_canonical (writeDone_canonical (portWrite_canonical (portHead_canonical h ‹_›))))
    · exact .next (again_canonical h)
theorem useInjection_canonical {k : Nat} (h : Canonical s) : Canonical (useInjection s k) := by
  unfold useInjection
  exact updateCore_canonical h fun hc => { hc with }
theorem amoCheck_canonical {k new : Nat} (h : Canonical s) : Canonical (amoCheck s k new).2 := by
  unfold amoCheck
  refine canonical_snd_ite h ?_
  refine canonical_snd_ite (bucketUp_canonical (countCore_canonical (useInjection_canonical h))) ?_
  exact takeUnitCheck_canonical (useInjection_canonical (useInjection_canonical h))
theorem execAmoPerform_canonical (h : Canonical s) : NextCanonical (execAmoPerform s) := by
  unfold execAmoPerform
  dsimp only
  split
  · exact .next h
  · split
    · split
      · exact .next (failAmo_canonical (portHead_canonical h ‹_›))
      · refine nextCanonical_ite (.next (consumeOnCore_canonical (portHead_canonical h ‹_›))) ?_
        split
        · exact .next (failAmo_canonical (canonical_of_eq (amoCheck_canonical (mendWords_canonical (portHead_canonical h ‹_›)))
            ‹_›))
        · exact .next (finishAmo_canonical (portWrite_canonical (countAmo_canonical (canonical_of_eq (amoCheck_canonical
            (mendWords_canonical (portHead_canonical h ‹_›))) ‹_›))))
    · exact .next (again_canonical h)
theorem execPublishFlip_canonical (h : Canonical s) : NextCanonical (execPublishFlip s) := by
  unfold execPublishFlip
  dsimp only
  split
  · exact .next h
  · split
    · exact .next (completeCommand_canonical (canonical_ite (updateCore_canonical (portHead_canonical h ‹_›) fun hc =>
        { hc with }) (portHead_canonical h ‹_›)))
    · exact .next (again_canonical h)
theorem execBucketLeak_canonical (h : Canonical s) : NextCanonical (execBucketLeak s) := by
  unfold execBucketLeak
  refine nextCanonical_ite (.next (scheduleLeak_canonical h)) ?_
  exact .next (canonical_unless (updateCore_canonical h fun hc => { hc with }) fun h1 => scheduleLeak_canonical h1)

/-! ## The arbiter (06_core_basin, R175, R179, R181) -/

theorem grantNext_canonical {b k : Nat} (h : Canonical s) : Canonical (grantNext s b k) := by
  unfold grantNext
  dsimp only
  split
  · exact h
  · split
    · exact schedule_canonical (schedule_canonical (updateCore_canonical (setCtx_canonical h) fun hc => { hc with }))
    · exact schedule_canonical (updateCore_canonical (setCtx_canonical h) fun hc => { hc with })
theorem execBasinGrant_canonical (h : Canonical s) : NextCanonical (execBasinGrant s) := by
  unfold execBasinGrant
  extract_lets b _ t
  have ht : Canonical t := canonical_when h fun h => updateCore_canonical h fun hc => { hc with }
  clear_value t
  dsimp only
  refine nextCanonical_ite (.next ht) ?_
  split
  · exact .next ht
  · exact nextCanonical_ite (.next ht) (.next (grantNext_canonical (setCluster_canonical ht)))

/-! ## Slots and events (06_core_basin, R176, R188) -/

theorem setSlot_canonical {k n : Nat} {a : AccSlot} (h : Canonical s) : Canonical (setSlot s k n a) := by
  unfold setSlot
  exact updateCore_canonical h fun hc => { hc with }
theorem countBasin_canonical {k c n m : Nat} (h : Canonical s) : Canonical (countBasin s k c n m) := by
  unfold countBasin
  exact setCtx_canonical h
theorem countEvents_canonical {k c : Nat} {e : Events} (h : Canonical s) : Canonical (countEvents s k c e) := by
  unfold countEvents
  exact countBasin_canonical (countBasin_canonical (countBasin_canonical h))

/-! ## Floating K-groups (03_core_numbers, R107) -/

theorem checkGroup_canonical {k : Nat} {b : BasinCmd} {slot g : Nat} {first : List (FNum × Bool)} {frac : Nat}
    (h : Canonical s) :
    Canonical (checkGroup s k b slot g first frac).2 := by
  unfold checkGroup
  refine canonical_snd_ite h ?_
  refine canonical_snd_ite (bucketUp_canonical (countBasin_canonical (useInjection_canonical h))) ?_
  exact trapAtBoundary_canonical (setSlot_canonical (takeFresh_canonical (useInjection_canonical (useInjection_canonical h))))

/-! ## Integer products and the row and column check (03_core_numbers, R97, R108; 06_core_basin, R190) -/

theorem integerCommand_canonical {k : Nat} {b : BasinCmd} {slot kk m n : Nat} {tern : Bool} {t : Tiles}
    (h : Canonical s) :
    Canonical (integerCommand s k b slot kk m n tern t) := by
  unfold integerCommand
  dsimp only
  have hs {a} {i : Nat} : Canonical (if tern then countBasin (setSlot s k slot a) k b.cx 4 i else setSlot s k slot a) :=
    canonical_when (setSlot_canonical h) fun h => countBasin_canonical h
  split <;> exact canonical_ite (bucketUp_canonical (countBasin_canonical hs)) (canonical_when hs fun h =>
    trapAtBoundary_canonical (setSlot_canonical h))

/-! ## The commands (06_core_basin, R194 to R202) -/

theorem floatCommand_canonical {k : Nat} {b : BasinCmd} {slot af bf kk m n : Nat} {mx : Bool} {t : Tiles}
    (h : Canonical s) :
    Canonical (floatCommand s k b slot af bf kk m n mx t) := by
  unfold floatCommand
  refine countBasin_canonical ?_
  refine countBasin_canonical ?_
  refine setSlot_canonical ?_
  refine canonical_foldl h fun _ _ h1 => ?_
  dsimp only
  split
  · exact canonical_of_eq (checkGroup_canonical h1) ‹_›
  · exact countEvents_canonical (setSlot_canonical (canonical_of_eq (checkGroup_canonical h1) ‹_›))
theorem dropPins_canonical {k : Nat} {b : Tile} (h : Canonical s) : Canonical (dropPins s k b) := by
  unfold dropPins
  split
  · exact schedule_canonical h
  · exact h
theorem endCommand_canonical {k : Nat} (h : Canonical s) : Canonical (endCommand s k) := by
  unfold endCommand
  dsimp only
  split
  · exact h
  · exact schedule_canonical (setCtx_canonical (updateCore_canonical h fun hc => { hc with }))
theorem startDelivery_canonical {k : Nat} {d : Delivery} (h : Canonical s) : Canonical (startDelivery s k d) := by
  unfold startDelivery
  exact schedule_canonical (updateCore_canonical h fun hc => { hc with })
theorem withhold_canonical {k c : Nat} (h : Canonical s) : Canonical (withhold s k c) := by
  unfold withhold
  exact consumeError_canonical h
theorem runMma_canonical {k : Nat} {b : BasinCmd} {op acc af bf kk m n : Nat} {z bt : Bool} {ep : Nat}
    {ta tb : Tile} (h : Canonical s) :
    Canonical (runMma s k b op acc af bf kk m n z bt ep ta tb) := by
  unfold runMma
  refine canonical_ite (withhold_canonical h) ?_
  refine canonical_ite (endCommand_canonical (dropPins_canonical (canonical_ite (integerCommand_canonical (setSlot_canonical h))
    (floatCommand_canonical (setSlot_canonical h))))) ?_
  exact startDelivery_canonical (dropPins_canonical (canonical_ite (integerCommand_canonical (setSlot_canonical h))
    (floatCommand_canonical (setSlot_canonical h))))
theorem runAccwr_canonical {k : Nat} {b : BasinCmd} {acc : Nat} {ty : SlotType} {first rows src : Nat}
    (h : Canonical s) :
    Canonical (runAccwr s k b acc ty first rows src) := by
  unfold runAccwr
  exact canonical_ite (withhold_canonical h) (endCommand_canonical (setSlot_canonical h))
theorem execBasinCommandComplete_canonical (h : Canonical s) : NextCanonical (execBasinCommandComplete s) := by
  unfold execBasinCommandComplete
  dsimp only
  split
  · exact .next h
  · refine nextCanonical_ite (.next h) ?_
    refine nextCanonical_ite (.next (again_canonical h)) ?_
    split
    · exact .next (runMma_canonical h)
    · exact .next (startDelivery_canonical h)
    · exact .next (runAccwr_canonical h)
    · exact .next (endCommand_canonical (setSlot_canonical h))
    · exact .next (endCommand_canonical (setCtx_canonical h))
    · exact .next (endCommand_canonical (setCtx_canonical h))

/-! ## Read-out (06_core_basin, R191, R197, R200, R201) -/

theorem nextRow_canonical {k : Nat} {d : Delivery} {op : Instr} (h : Canonical s) : Canonical (nextRow s k d op) := by
  unfold nextRow
  refine canonical_ite (endCommand_canonical (canonical_ite (setSlot_canonical h) h)) ?_
  exact schedule_canonical (updateCore_canonical (canonical_ite (setSlot_canonical h) h) fun hc => { hc with })
theorem execAccrdRowDelivery_canonical (h : Canonical s) : NextCanonical (execAccrdRowDelivery s) := by
  unfold execAccrdRowDelivery
  dsimp only
  split
  · exact .next h
  · exact .next (nextRow_canonical (enqueue_canonical h))
theorem execEpilogueRowDelivery_canonical (h : Canonical s) : NextCanonical (execEpilogueRowDelivery s) := by
  unfold execEpilogueRowDelivery
  dsimp only
  split
  · exact .next h
  · refine nextCanonical_ite (.next (withhold_canonical h)) ?_
    refine nextCanonical_ite (.next (nextRow_canonical (enqueue_canonical (canonical_ite h (countEvents_canonical h))))) ?_
    refine nextCanonical_ite (.next (nextRow_canonical (canonical_ite h (countEvents_canonical h)))) ?_
    exact .next (nextRow_canonical (canonical_when (portWrite_canonical (canonical_ite h (countEvents_canonical h))) fun h1 =>
      setCtx_canonical h1))
theorem execSlotPinClear_canonical (h : Canonical s) : NextCanonical (execSlotPinClear s) := by
  unfold execSlotPinClear
  exact .next (canonical_when (updateCore_canonical h fun hc => { hc with }) fun h1 => freeSlot_canonical h1)

/-! ## Engine accesses -/

theorem reach_canonical {k q : Nat} {a : W64} {write : Bool} (h : Canonical s) : Canonical (reach s k q a write).2 := by
  unfold reach
  split
  · split
    · exact h
    · exact h
  · split
    · exact canonical_of_eq (translate_canonical h) ‹_›
    · exact canonical_of_eq (translate_canonical h) ‹_›
    · exact canonical_of_eq (translate_canonical h) ‹_›
    · exact canonical_of_eq (translate_canonical h) ‹_›
  · exact h
theorem countPoison_canonical {pa : W64} (h : Canonical s) : Canonical (countPoison s pa) := by
  unfold countPoison
  exact canonical_ite (countStack_canonical h) h
theorem engineRead_canonical {die : Nat} {pa : W64} {n : Nat} (h : Canonical s) : Canonical (engineRead s die pa n).2 := by
  unfold engineRead
  split
  · exact countCorrected_canonical h
  · exact h
  · exact countTier2Read_canonical h
  · exact physRead_canonical h
theorem engineWrite_canonical {c : Command} {a pa : W64} {cmp : Bool} {bs : List Byte} (h : Canonical s) :
    Canonical (engineWrite s c a pa cmp bs) := by
  unfold engineWrite
  split
  · exact portWrite_canonical h
  · exact addXOp_canonical (dieWrite_canonical { h with })
  · exact writePkgBytes_canonical h
  · exact addXOp_canonical h
theorem finishWrite_canonical {c : Command} {a pa : W64} {cmp home : Bool} {bs : List Byte} (h : Canonical s) :
    Canonical (finishWrite s c a pa cmp home bs) := by
  unfold finishWrite
  exact canonical_ite (physHomeWrite_canonical h) (engineWrite_canonical h)
theorem leaveWrite_canonical {c : Command} {a pa : W64} {cmp home : Bool} {bs : List Byte} (h : Canonical s) :
    Canonical (leaveWrite s c a pa cmp home bs) := by
  unfold leaveWrite
  split
  · exact finishWrite_canonical h
  · split
    · split
      · exact finishWrite_canonical (canonical_of_eq (meetExit_canonical h) ‹_›)
      · exact canonical_of_eq (meetExit_canonical h) ‹_›
    · exact canonical_of_eq (meetExit_canonical h) ‹_›
theorem reachPieces_canonical {k q : Nat} {a : W64} {n : Nat} {write : Bool} {pages : Nat} (h : Canonical s) :
    Canonical (reachPieces s k q a n write pages).2 := by
  induction pages generalizing s a n with
  | zero => exact h
  | succ m ih =>
    have hr : Canonical (reach s k q a write).2 := reach_canonical h
    unfold reachPieces
    dsimp only
    split
    · have ht := canonical_of_eq hr ‹_›
      split
      · exact ht
      · split
        · exact ht
        · have hm := ih (a := a + BitVec.ofNat 64 (firstPiece a n)) (n := n - firstPiece a n) ht
          split
          · exact canonical_of_eq hm ‹_›
          · exact hm
    · exact canonical_of_eq hr ‹_›
    · exact canonical_of_eq hr ‹_›
    · exact canonical_of_eq hr ‹_›
theorem readPieces_canonical {die : Nat} {ps : List Piece} (h : Canonical s) : Canonical (readPieces s die ps).2 := by
  induction ps generalizing s with
  | nil => exact h
  | cons p r ih => exact ih (engineRead_canonical h)
theorem gatherOn_canonical {die k q : Nat} {a : W64} {n pages : Nat} (h : Canonical s) :
    Canonical (gatherOn s die k q a n pages).2 := by
  unfold gatherOn
  split
  · exact canonical_of_eq (reachPieces_canonical h) ‹_›
  · split
    · exact canonical_of_eq (reachPieces_canonical h) ‹_›
    · dsimp only
      split
      · exact countPoison_canonical (canonical_foldl (canonical_of_eq (reachPieces_canonical h) ‹_›) fun _ _ h1 =>
          physReady_canonical h1)
      · exact readPieces_canonical (canonical_foldl (canonical_of_eq (reachPieces_canonical h) ‹_›) fun _ _ h1 =>
          physReady_canonical h1)
theorem gather_canonical {k q : Nat} {a : W64} {n : Nat} (h : Canonical s) : Canonical (gather s k q a n).2 := by
  unfold gather
  exact gatherOn_canonical h
theorem scatter_canonical {c : Command} {q : Nat} {a : W64} {bs : List Byte} (h : Canonical s) :
    Canonical (scatter s c q a bs).2 := by
  unfold scatter
  split
  · exact canonical_of_eq (reachPieces_canonical h) ‹_›
  · have ht := canonical_of_eq (reachPieces_canonical h) ‹_›
    split
    · exact ht
    · exact List.foldlRecOn (motive := fun w : List Byte × State => Canonical w.2) _ _ ht fun w h p _ => leaveWrite_canonical (s
        := w.2) h

/-! ## The copy engines (05_core_memory, R169, R170) -/

theorem setJob_canonical {ck e : Nat} {j : CopyJob} (h : Canonical s) : Canonical (setJob s ck e j) := by
  unfold setJob
  exact setCluster_canonical h
theorem dropJob_canonical {ck e : Nat} {c : Command} (h : Canonical s) : Canonical (dropJob s ck e c) := by
  unfold dropJob
  dsimp only
  split
  · exact schedule_canonical (setCluster_canonical h)
  · exact setCluster_canonical h
theorem undeny_canonical {id : Nat} (h : Canonical s) : Canonical (undeny s id) := by
  unfold undeny
  exact { h with }
theorem stopCopy_canonical {ck e : Nat} {c : Command} {g : Gather} (h : Canonical s) : Canonical (stopCopy s ck e c g) := by
  unfold stopCopy
  split
  · exact canonical_ite (failCommand_canonical (dropJob_canonical (undeny_canonical h))) (parkCommand_canonical h)
  · exact putOff_canonical h
  · exact failCommand_canonical (dropJob_canonical h)
  · exact consumeError_canonical (dropJob_canonical h)
theorem unitWritten_canonical {ck e : Nat} {j : CopyJob} {n len : Nat} (h : Canonical s) :
    Canonical (unitWritten s ck e j n len) := by
  unfold unitWritten
  exact canonical_ite (schedule_canonical (setJob_canonical h)) (schedule_canonical (setJob_canonical h))
theorem execCopyUnit_canonical (h : Canonical s) : NextCanonical (execCopyUnit s) := by
  unfold execCopyUnit
  dsimp only
  split
  · exact .next h
  · refine nextCanonical_ite (.next h) (nextCanonical_ite (.next (again_canonical h)) (nextCanonical_ite (.next h) ?_))
    split
    · refine nextCanonical_ite (.next (again_canonical h)) ?_
      split
      · exact .next (schedule_canonical (setJob_canonical (canonical_of_eq (gather_canonical h) ‹_›)))
      · exact .next (stopCopy_canonical (canonical_of_eq (gather_canonical h) ‹_›))
    · split
      · exact .next (unitWritten_canonical (canonical_of_eq (scatter_canonical h) ‹_›))
      · exact .next (stopCopy_canonical (canonical_of_eq (scatter_canonical h) ‹_›))
theorem execCopyComplete_canonical (h : Canonical s) : NextCanonical (execCopyComplete s) := by
  unfold execCopyComplete
  dsimp only
  split
  · exact .next h
  · refine nextCanonical_ite (.next h) ?_
    exact nextCanonical_ite (.next (again_canonical h)) (.next (completeCommand_canonical (dropJob_canonical h)))

/-! ## Places (08_cluster, R233, R234; 10_die, R282) -/

theorem moveHead_canonical {k port cls : Nat} {cistern : Bool} {to_ : Option Flit} (h : Canonical s) :
    Canonical (moveHead s k port cls cistern to_) := by
  unfold moveHead
  exact { h with }

/-! ## Ejection (08_cluster, R237, R241) -/

theorem acceptRequest_canonical {k orig : Nat} {r : Request} (h : Canonical s) : Canonical (acceptRequest s k orig r) := by
  unfold acceptRequest
  split
  · exact forwardFlit_canonical h
  · exact schedule_canonical (updateCore_canonical h fun hc => { hc with })
theorem oweAcks_canonical {k : Nat} {f : Flit} (h : Canonical s) : Canonical (oweAcks s k f) := by
  unfold oweAcks
  exact canonical_foldl h fun _ _ h1 => schedule_canonical (updateCore_canonical h1 fun hc => { hc with })
theorem postFlit_canonical {k : Nat} {f : Flit} (h : Canonical s) : Canonical (postFlit s k f) := by
  unfold postFlit
  exact { h with }
theorem eject_canonical {k : Nat} {f : Flit} (h : Canonical s) : Canonical (eject s k f) := by
  unfold eject
  dsimp only
  split
  · refine canonical_ite (schedule_canonical (postFlit_canonical (oweAcks_canonical h))) ?_
    exact acceptRequest_canonical (oweAcks_canonical h)
  · exact schedule_canonical (updateCore_canonical (oweAcks_canonical h) fun hc => { hc with })
  · exact schedule_canonical (postFlit_canonical (oweAcks_canonical h))

/-! ## Hops (08_cluster, R233 to R236, R242; 10_die, R282, R284, R285) -/

theorem mergeHeads_canonical {k port : Nat} (h : Canonical s) : SomeCanonical (mergeHeads s k port) := by
  unfold mergeHeads
  split
  · exact .none
  · dsimp only
    split
    · exact .none
    · split
      · exact .none
      · split <;>
          exact .some (setCluster_canonical (updateCore_canonical (moveHead_canonical h).frame fun hc => { hc with }))
theorem countWeir_canonical {k port cls : Nat} (h : Canonical s) : Canonical (countWeir s k port cls) := by
  unfold countWeir
  exact canonical_ite (updateCore_canonical h fun hc => { hc with }) h
theorem noteGrant_canonical {k out cls : Nat} (h : Canonical s) : Canonical (noteGrant s k out cls) := by
  unfold noteGrant
  exact updateCore_canonical h fun hc => { hc with }
theorem refuse_canonical {k out : Nat} (h : Canonical s) : Canonical (refuse s k out) := by
  unfold refuse
  exact canonical_foldl (setCore_canonical (countDie_canonical h) { coreOf_canonical h with }) fun _ _ h1 => schedule_canonical
    h1
theorem endRefusals_canonical {k out : Nat} (h : Canonical s) : Canonical (endRefusals s k out) := by
  unfold endRefusals
  exact canonical_ite h (updateCore_canonical h fun hc => { hc with })
theorem stall_canonical {k : Nat} (h : Canonical s) : Canonical (stall s k) := by
  unfold stall
  exact schedule_canonical h
theorem forward_canonical {k port cls out next : Nat} {f : Flit} (h : Canonical s) :
    Canonical (forward s k port cls out next f) := by
  unfold forward
  refine canonical_ite ?_ (canonical_ite (schedule_canonical (countWeir_canonical (moveHead_canonical h))) (stall_canonical h))
  refine canonical_ite (stall_canonical h) ?_
  split
  · exact schedule_canonical (endRefusals_canonical (countWeir_canonical (moveHead_canonical h)))
  · exact stall_canonical (refuse_canonical h)
theorem leaveCistern_canonical {k port cls : Nat} (h : Canonical s) : Canonical (leaveCistern s k port cls) := by
  unfold leaveCistern
  split
  · exact h
  · exact canonical_ite (stall_canonical h) (schedule_canonical (moveHead_canonical h))
theorem hop_canonical {k port cls : Nat} (h : Canonical s) : Canonical (hop s k port cls) := by
  unfold hop
  split
  · exact h
  · refine canonical_ite (stall_canonical h) ?_
    refine canonical_ite (canonical_ite (setCluster_canonical (moveHead_canonical (schedule_canonical h))) (stall_canonical
      (schedule_canonical h))) ?_
    refine canonical_ite (stall_canonical h) ?_
    refine canonical_ite (eject_canonical (countWeir_canonical (moveHead_canonical (canonical_ite (noteGrant_canonical h) h))))
      ?_
    split
    · exact forward_canonical (canonical_ite (noteGrant_canonical h) h)
    · exact stall_canonical (canonical_ite (noteGrant_canonical h) h)
theorem takeRequest_canonical (h : Canonical s) : Canonical (takeRequest s) := by
  unfold takeRequest
  split
  · exact acceptRequest_canonical (dropMsg_canonical h)
  · exact waitMsg_canonical h
theorem execFlitHop_canonical (h : Canonical s) : NextCanonical (execFlitHop s) := by
  unfold execFlitHop
  refine nextCanonical_ite (.next (leaveCistern_canonical h)) ?_
  refine nextCanonical_ite (.next (takeRequest_canonical h)) ?_
  split
  · exact .next (stall_canonical (SomeCanonical.of_eq (someCanonical_ite (mergeHeads_canonical h) .none) ‹_›))
  · exact .next (hop_canonical h)

/-! ## Acknowledgements and switches (08_cluster, R237, R240, R241) -/

theorem lowerCount_canonical {dst : Nat} {c : Core} {cls : Nat} (hc : CoreCanonical c) :
    CoreCanonical (lowerCount dst c cls) := by
  unfold lowerCount
  exact { hc with }
theorem takeAcks_canonical {k dst : Nat} {classes : List Nat} (h : Canonical s) : Canonical (takeAcks s k dst classes) := by
  unfold takeAcks
  exact canonical_foldl (canonical_when (updateCore_canonical h fun hc => coreCanonical_foldl hc fun _ _ hc1 =>
    lowerCount_canonical hc1) fun h1 => canonical_foldl h1 fun _ _ h2 => canonical_ite (schedule_canonical h2) h2) fun _ _ h1 =>
    schedule_canonical h1
theorem sendAcks_canonical {k src : Nat} (h : Canonical s) : Canonical (sendAcks s k src) := by
  unfold sendAcks
  exact canonical_ite h (injectFlit_canonical (updateCore_canonical h fun hc => { hc with }))
theorem execDeliveryAck_canonical (h : Canonical s) : NextCanonical (execDeliveryAck s) := by
  unfold execDeliveryAck
  refine nextCanonical_ite (.next (sendAcks_canonical h)) ?_
  split
  · exact .next (takeAcks_canonical (dropMsg_canonical h))
  · exact .next (waitMsg_canonical h)
theorem execRouteClassSwitch_canonical (h : Canonical s) : NextCanonical (execRouteClassSwitch s) := by
  unfold execRouteClassSwitch
  refine nextCanonical_ite (.next h) ?_
  refine nextCanonical_ite (.next (setCluster_canonical (updateCore_canonical h fun hc => { hc with }))) ?_
  exact .next (updateCore_canonical h fun hc => { hc with })
theorem execCoreMapRebind_canonical (h : Canonical s) : NextCanonical (execCoreMapRebind s) := by
  unfold execCoreMapRebind
  dsimp only
  split
  · exact .next h
  · exact nextCanonical_ite (.next h) (.next (updateCore_canonical h fun hc => { hc with }))

/-! ## Confluence trees (08_cluster, R243 to R247) -/

theorem redCheck_canonical {k tree : Nat} (h : Canonical s) : Canonical (redCheck s k tree) := by
  unfold redCheck
  exact takeUnitCheck_canonical (takeFresh_canonical h)
theorem redReply_canonical {root : Nat} {r : RedIn} {s : State} {k : Nat} (h : Canonical s) :
    Canonical (redReply root r s k) := by
  unfold redReply
  dsimp only
  split
  · exact h
  · exact sendReply_canonical (endAccess_canonical (updateCore_canonical h fun hc => { hc with }))
theorem sendPartial_canonical {k : Nat} {y : RedIn} {next : Nat} (h : Canonical s) : Canonical (sendPartial s k y next) := by
  unfold sendPartial
  exact sendFlit_canonical h
theorem leavePartial_canonical {k : Nat} {y : RedIn} {next : Nat} (h : Canonical s) : Canonical (leavePartial s k y next) := by
  unfold leavePartial
  dsimp only
  split
  · exact sendPartial_canonical h
  · split
    · exact sendPartial_canonical h
    · refine canonical_ite (sendPartial_canonical h) ?_
      split
      · split
        · exact sendPartial_canonical (canonical_of_eq (meetExit_canonical h) ‹_›)
        · exact sendPartial_canonical (canonical_of_eq (meetExit_canonical h) ‹_›)
      · exact canonical_of_eq (meetExit_canonical h) ‹_›
theorem execConfluenceCombine_canonical (h : Canonical s) : NextCanonical (execConfluenceCombine s) := by
  unfold execConfluenceCombine
  extract_lets k tree c e is xs
  split
  · split
    extract_lets t u cl cnt v w
    have ht : Canonical t := updateCore_canonical h fun hc => { hc with }
    have hu : Canonical u := canonical_when ht fun h => redCheck_canonical h
    have hw : Canonical w := schedule_canonical (setCluster_canonical hu)
    refine nextCanonical_ite (nextCanonical_ite (.next ?_) (.next (redReply_canonical hw))) ?_
    · exact canonical_foldl hw fun _ _ h => redReply_canonical h
    · split
      · exact .next (leavePartial_canonical hw)
      · exact .next hw
  · exact .next h

theorem countCluster_canonical {cl n m : Nat} (h : Canonical s) : Canonical (countCluster s cl n m) := by
  unfold countCluster
  exact setCluster_canonical h

/-! ## Barriers (08_cluster, R248, R258) -/

theorem setBarrier_canonical {cl k : Nat} {b : Barrier} (h : Canonical s) : Canonical (setBarrier s cl k b) := by
  unfold setBarrier
  exact setCluster_canonical h
theorem endGeneration_canonical {cl k : Nat} {cancel : Bool} (h : Canonical s) : Canonical (endGeneration s cl k cancel) := by
  unfold endGeneration
  exact canonical_foldl (setBarrier_canonical h) fun _ _ h1 => sendFlit_canonical h1
theorem execBarrierArrival_canonical (h : Canonical s) : NextCanonical (execBarrierArrival s) := by
  unfold execBarrierArrival
  split
  · refine nextCanonical_ite (.next (endGeneration_canonical (setBarrier_canonical (dropMsg_canonical h)))) ?_
    refine nextCanonical_ite (.next (setBarrier_canonical (dropMsg_canonical h))) ?_
    exact .next (schedule_canonical (setBarrier_canonical (dropMsg_canonical h)))
  · exact .next (waitMsg_canonical h)
theorem execBarrierCompletionArrival_canonical (h : Canonical s) : NextCanonical (execBarrierCompletionArrival s) := by
  unfold execBarrierCompletionArrival
  split
  · exact .next (modCtx_canonical (dropMsg_canonical h))
  · exact .next (waitMsg_canonical h)
theorem execBartTimeout_canonical (h : Canonical s) : NextCanonical (execBartTimeout s) := by
  unfold execBartTimeout
  dsimp only
  split
  · exact .next h
  · exact nextCanonical_ite (.next (schedule_canonical h)) (.next (countCluster_canonical (endGeneration_canonical h)))

/-! ## Pairs (08_cluster, R250 to R252) -/

theorem trapPair_canonical {cl ch seq : Nat} {code : BitVec 8} (h : Canonical s) : Canonical (trapPair s cl ch seq code) := by
  unfold trapPair
  split
  · exact trapAtBoundary_canonical h
  · exact h
theorem execPairHalfArrival_canonical (h : Canonical s) : NextCanonical (execPairHalfArrival s) := by
  unfold execPairHalfArrival
  split
  · refine nextCanonical_ite (.next (countCluster_canonical (countReceived_canonical (dropMsg_canonical h)))) ?_
    exact .next (pairDeliver_canonical (schedule_canonical (setPair_canonical (countReceived_canonical (dropMsg_canonical h)))))
  · exact .next (waitMsg_canonical h)
theorem execPairDeadline_canonical (h : Canonical s) : NextCanonical (execPairDeadline s) := by
  unfold execPairDeadline
  refine nextCanonical_ite (.next h) ?_
  refine nextCanonical_ite (.next (schedule_canonical h)) ?_
  dsimp only
  split
  · split
    · exact .next (sendFlit_canonical (trapPair_canonical (dropPair_canonical h)))
    · exact .next (trapPair_canonical (dropPair_canonical h))
  · exact .next (trapPair_canonical (dropPair_canonical h))
theorem pairEnded_canonical {dst ch seq : Nat} {code : BitVec 8} (h : Canonical s) :
    Canonical (pairEnded s dst ch seq code) := by
  unfold pairEnded
  exact canonical_ite h (trapPair_canonical (dropPair_canonical h))
theorem execPairTimeoutMessage_canonical (h : Canonical s) : NextCanonical (execPairTimeoutMessage s) := by
  unfold execPairTimeoutMessage
  split
  · exact .next (pairEnded_canonical (dropMsg_canonical h))
  · exact .next (waitMsg_canonical h)
theorem execPairAbortMessage_canonical (h : Canonical s) : NextCanonical (execPairAbortMessage s) := by
  unfold execPairAbortMessage
  split
  · exact .next (pairEnded_canonical (dropMsg_canonical h))
  · exact .next (waitMsg_canonical h)

/-! ## Trap records (08_cluster, R253, R254) -/

theorem execTrapRecordDelivery_canonical (h : Canonical s) : NextCanonical (execTrapRecordDelivery s) := by
  unfold execTrapRecordDelivery
  split
  · dsimp only
    split
    · exact .next (sendRecord_canonical (dropMsg_canonical h))
    · split
      · exact .next (again_canonical h)
      · refine nextCanonical_ite (.next (schedule_canonical (countCluster_canonical (setCluster_canonical (dropMsg_canonical
          h))))) ?_
        exact .next (enqueue_canonical (setCluster_canonical (dropMsg_canonical h)))
  · exact .next (waitMsg_canonical h)
theorem execRecordResend_canonical (h : Canonical s) : NextCanonical (execRecordResend s) := by
  unfold execRecordResend
  split
  · exact .next h
  · split
    · exact .next h
    · exact nextCanonical_ite (.next (schedule_canonical h)) (.next (sendRecord_canonical (setCluster_canonical h)))

/-! ## Retention (08_cluster, R255, R256) -/

theorem execRetentionEntry_canonical (h : Canonical s) : NextCanonical (execRetentionEntry s) := by
  unfold execRetentionEntry
  refine nextCanonical_ite (.next (schedule_canonical (setCluster_canonical h))) ?_
  exact nextCanonical_ite (nextCanonical_ite (.next (setCluster_canonical h)) (.next (setCluster_canonical h))) (.next h)
theorem execRetentionExitStart_canonical (h : Canonical s) : NextCanonical (execRetentionExitStart s) := by
  unfold execRetentionExitStart
  refine nextCanonical_ite (.next (schedule_canonical (setCluster_canonical h))) ?_
  exact nextCanonical_ite (.next (again_canonical h)) (.next h)
theorem haltCores_canonical {cl : Nat} (h : Canonical s) : Canonical (haltCores s cl) := by
  unfold haltCores
  refine { h with core := forall_map h.core fun _ hc => ?_ }
  split
  · exact { hc with }
  · exact hc
theorem openCluster_canonical {cl : Nat} (h : Canonical s) : Canonical (openCluster s cl) := by
  unfold openCluster
  exact canonical_foldl (setCluster_canonical h).frame fun _ _ h1 => schedule_canonical h1
theorem execRetentionExitEnd_canonical (h : Canonical s) : NextCanonical (execRetentionExitEnd s) := by
  unfold execRetentionExitEnd
  refine nextCanonical_ite (.next h) ?_
  refine nextCanonical_ite (.next (openCluster_canonical (setCluster_canonical h))) ?_
  exact .next (canonical_foldl (haltCores_canonical (setCluster_canonical (setCluster_canonical h))) fun _ _ h1 =>
    consumeError_canonical h1)

end

end Sys2Proof.Machine
end

