-- ==== Sys2Proof/Proofs/CanonicalDie.lean ====
section
/-! PROOF. Every memory stays in its canonical form:
the units of a die, the memory system and the Cascade.
One lemma for each operation of the model, in the model's order. -/
namespace Sys2Proof.Machine

section
variable {s : State}

/-! ## Bands (10_die, R286) -/

theorem setBands_canonical {die : Nat} (h : Canonical s) : Canonical (setBands s die) := by
  unfold setBands
  exact updateDie_canonical h fun hd => { hd with }

/-! ## VF changes (10_die, R281) -/

theorem setVf_canonical {die k : Nat} {v : VfRegion} (h : Canonical s) : Canonical (setVf s die k v) := by
  unfold setVf
  exact updateDie_canonical h fun hd => { hd with }
theorem noteBeat_canonical {n : Nat} (h : Canonical s) : Canonical (noteBeat s n) := by
  unfold noteBeat
  exact canonical_ite (updateRegion_canonical h fun hr => { hr with }) h
theorem noteBeats_canonical (h : Canonical s) : Canonical (noteBeats s) := by
  unfold noteBeats
  exact canonical_foldl h fun _ _ h1 => noteBeat_canonical h1
theorem execVfRequestApply_canonical (h : Canonical s) : NextCanonical (execVfRequestApply s) := by
  unfold execVfRequestApply
  refine nextCanonical_ite (.next (again_canonical h)) ?_
  exact nextCanonical_ite (.next (setVf_canonical h)) (.next (schedule_canonical (setVf_canonical (noteBeats_canonical h))))
theorem wakeRegion_canonical {die k : Nat} (h : Canonical s) : Canonical (wakeRegion s die k) := by
  unfold wakeRegion
  exact canonical_foldl h fun _ _ h1 => canonical_ite (canonical_foldl (canonical_ite h1 (schedule_canonical h1)) fun _ _ h2 =>
    canonical_ite (poke_canonical h2) h2) h1
theorem execVfClockResume_canonical (h : Canonical s) : NextCanonical (execVfClockResume s) := by
  unfold execVfClockResume
  refine nextCanonical_ite (.next h) ?_
  exact .next (wakeRegion_canonical (countDie_canonical (canonical_foldl (setVf_canonical (noteBeats_canonical h)) fun _ _ h1 =>
    setBands_canonical h1)))

/-! ## Weir limits (10_die, R284, R285) -/

theorem execWeirHalve_canonical (h : Canonical s) : NextCanonical (execWeirHalve s) := by
  unfold execWeirHalve
  exact .next (beginDoubling_canonical (countDie_canonical (setVf_canonical h)))
theorem execWeirDouble_canonical (h : Canonical s) : NextCanonical (execWeirDouble s) := by
  unfold execWeirDouble
  refine nextCanonical_ite (.next h) ?_
  refine nextCanonical_ite (.next (schedule_canonical h)) ?_
  exact nextCanonical_ite (.next (beginDoubling_canonical (setVf_canonical h))) (.next (setVf_canonical h))

/-! ## Time (10_die, R287) -/

theorem execTimeRecalibration_canonical (h : Canonical s) : NextCanonical (execTimeRecalibration s) := by
  unfold execTimeRecalibration
  exact .next (schedule_canonical (setDie_canonical (takeFresh_canonical h).frame { dieOf_canonical h with }))

/-! ## The Reservoir (10_die, R290 to R292, R296, R297) -/

theorem nextRsvld_canonical {die : Nat} {r : List RsvJob} (h : Canonical s) : Canonical (nextRsvld s die r) := by
  unfold nextRsvld
  exact canonical_unless (updateDie_canonical h fun hd => { hd with }) fun h1 => schedule_canonical h1
theorem execRsvldLine_canonical (h : Canonical s) : NextCanonical (execRsvldLine s) := by
  unfold execRsvldLine
  dsimp only
  split
  · exact .next h
  · refine nextCanonical_ite (.next h) ?_
    refine nextCanonical_ite (.next (putOff_canonical h)) ?_
    refine nextCanonical_ite (.next (consumeError_canonical (nextRsvld_canonical h))) ?_
    exact .next (schedule_canonical (portWrite_canonical (updateDie_canonical (pinnedFix_canonical h) fun hd => { hd with })))
theorem execRsvldComplete_canonical (h : Canonical s) : NextCanonical (execRsvldComplete s) := by
  unfold execRsvldComplete
  dsimp only
  split
  · exact .next h
  · exact nextCanonical_ite (.next (schedule_canonical h)) (.next (completeCommand_canonical (nextRsvld_canonical h)))
theorem execRsvcfgPartApply_canonical (h : Canonical s) : NextCanonical (execRsvcfgPartApply s) := by
  unfold execRsvcfgPartApply
  refine nextCanonical_ite (.next (canonical_foldl (updateDie_canonical h fun hd => { hd with }) fun _ _ h1 =>
    completeCommand_canonical h1)) ?_
  refine nextCanonical_ite (.next h) ?_
  exact nextCanonical_ite (.next (schedule_canonical h)) (.next (schedule_canonical (setDie_canonical h { pinned := rfl })))
theorem execRsvcfgDropComplete_canonical (h : Canonical s) : NextCanonical (execRsvcfgDropComplete s) := by
  unfold execRsvcfgDropComplete
  dsimp only
  split
  · exact .next h
  · exact .next (completeCommand_canonical (dropLines_canonical (updateDie_canonical h fun hd => { hd with })))
theorem execCacheReplacement_canonical (h : Canonical s) : NextCanonical (execCacheReplacement s) := by
  unfold execCacheReplacement
  exact .next (updateDie_canonical h fun hd => { hd with })

/-! ## Prefetch (05_core_memory, R173) -/

theorem dropXJob_canonical {id : Nat} (h : Canonical s) : Canonical (dropXJob s id) := by
  unfold dropXJob
  exact { h with }
theorem setXJob_canonical {j : XJob} (h : Canonical s) : Canonical (setXJob s j) := by
  unfold setXJob
  exact { h with }
theorem prefetchLines_canonical {die a n : Nat} (h : Canonical s) : Canonical (prefetchLines s die a n) := by
  unfold prefetchLines
  exact canonical_foldl h fun _ _ h1 => canonical_ite h1 (fillLine_canonical h1)
theorem execPfetchComplete_canonical (h : Canonical s) : NextCanonical (execPfetchComplete s) := by
  unfold execPfetchComplete
  split
  · split
    · refine nextCanonical_ite (.next (completeCommand_canonical (dropXJob_canonical h))) ?_
      refine nextCanonical_ite (.next (putOff_canonical (translate_canonical h))) ?_
      exact .next (schedule_canonical (setXJob_canonical (canonical_when (translate_canonical h) fun h1 =>
        prefetchLines_canonical h1)))
    · exact .next h
  · exact .next h

/-! ## Operations on their way -/

theorem dropOp_canonical {x : XOp} (h : Canonical s) : Canonical (dropOp s x) := by
  unfold dropOp
  exact { h with }
theorem putOp_canonical {x y : XOp} (h : Canonical s) : Canonical (putOp s x y) := by
  unfold putOp
  exact { h with }
theorem finishOp_canonical {x : XOp} {v : V512} (h : Canonical s) : Canonical (finishOp s x v) := by
  unfold finishOp
  exact canonical_unless (dropOp_canonical h) fun h1 => replyTo_canonical (canonical_unless h1 fun h2 => writeDone_canonical h2)
theorem poisonOp_canonical {x : XOp} (h : Canonical s) : Canonical (poisonOp s x) := by
  unfold poisonOp
  exact consumeError_canonical (countStack_canonical (dropOp_canonical h))
theorem failOp_canonical {x : XOp} {code : BitVec 8} (h : Canonical s) : Canonical (failOp s x code) := by
  unfold failOp
  exact failRequest_canonical (canonical_when (dropOp_canonical h) fun h1 => poke_canonical (freeCp_canonical h1))

/-! ## Walks (13_package_memory, R358 to R360) -/

theorem walked_canonical {x : XOp} {leaf : W64} {size : Nat} (h : Canonical s) : Canonical (walked s x leaf size) := by
  unfold walked
  dsimp only
  split
  · exact enterPhysical_canonical (canonical_when (dropOp_canonical (tlbFill_canonical h)) fun h1 => poke_canonical
      (freeCp_canonical h1))
  · exact failOp_canonical (tlbFill_canonical h)
theorem parkOrHold_canonical {x : XOp} (h : Canonical s) : Canonical (parkOrHold s x) := by
  unfold parkOrHold
  refine canonical_ite (canonical_when (parkOp_canonical h) fun h1 => poke_canonical h1) ?_
  exact schedule_canonical (putOp_canonical (canonical_ite (countXl_canonical h) h))
theorem poisonWalk_canonical {x : XOp} (h : Canonical s) : Canonical (poisonWalk s x) := by
  unfold poisonWalk
  exact consumeError_canonical (dropOp_canonical h)
theorem walkOn_canonical {x : XOp} {level : Nat} {table : W64} (h : Canonical s) : Canonical (walkOn s x level table) := by
  unfold walkOn
  refine canonical_ite ?_ ?_
  · refine canonical_ite (failOp_canonical h) ?_
    split
    · exact walked_canonical h
    · split
      · exact canonical_ite (again_canonical h) (schedule_canonical (putOp_canonical (countXl_canonical (countXl_canonical h))))
      · exact failOp_canonical h
  · dsimp only
    split
    · exact schedule_canonical (putOp_canonical (countWalk_canonical h))
    · exact walked_canonical (countWalk_canonical h)
    · exact parkOrHold_canonical (countWalk_canonical h)
    · exact failOp_canonical (countWalk_canonical h)
    · exact poisonWalk_canonical (countWalk_canonical h)
theorem execTranslationWalk_canonical (h : Canonical s) : NextCanonical (execTranslationWalk s) := by
  unfold execTranslationWalk
  split
  · exact .next h
  · refine nextCanonical_ite (.next (again_canonical h)) ?_
    refine nextCanonical_ite (.next (failOp_canonical (undeny_canonical h))) ?_
    refine nextCanonical_ite (.next (parkOrHold_canonical h)) ?_
    refine nextCanonical_ite (.next (again_canonical h)) ?_
    split
    · exact .next (walkOn_canonical h)
    · exact .next h

/-! ## The Reservoir, the stacks and the second tier -/

theorem goHome_canonical {x : XOp} {copied : Bool} (h : Canonical s) : Canonical (goHome s x copied) := by
  unfold goHome
  exact schedule_canonical (putOp_canonical h)
theorem accessCopy_canonical {x : XOp} (h : Canonical s) : Canonical (accessCopy s x) := by
  unfold accessCopy
  refine canonical_ite (goHome_canonical h) ?_
  refine canonical_ite (putOff_canonical h) ?_
  split
  · exact goHome_canonical (putOp_canonical (modAccess_canonical (dieWrite_canonical { h with })))
  · refine canonical_ite (canonical_ite (poisonOp_canonical (mendLines_canonical h)) (finishOp_canonical (dieRead_canonical
      (mendLines_canonical h)))) ?_
    exact goHome_canonical h
theorem accessPinned_canonical {x : XOp} (h : Canonical s) : Canonical (accessPinned s x) := by
  unfold accessPinned
  refine canonical_ite (putOff_canonical h) ?_
  exact canonical_ite (consumeError_canonical (dropOp_canonical h)) (finishOp_canonical (pinnedFix_canonical h))
theorem execReservoirAccess_canonical (h : Canonical s) : NextCanonical (execReservoirAccess s) := by
  unfold execReservoirAccess
  split
  · exact .next h
  · refine nextCanonical_ite (.next (again_canonical h)) ?_
    exact nextCanonical_ite (.next (accessPinned_canonical h)) (.next (accessCopy_canonical h))
theorem execHbmRead_canonical (h : Canonical s) : NextCanonical (execHbmRead s) := by
  unfold execHbmRead
  split
  · exact .next h
  · refine nextCanonical_ite (.next (again_canonical h)) ?_
    refine nextCanonical_ite (.next (poisonOp_canonical (mendLines_canonical h))) ?_
    exact .next (finishOp_canonical (dieRead_canonical (mendLines_canonical h)))
theorem performHome_canonical {x : XOp} (h : Canonical s) : Canonical (performHome s x) := by
  unfold performHome
  split
  · exact finishOp_canonical (canonical_when (physHomeWrite_canonical h) fun h1 => cameHome_canonical h1)
  · exact finishOp_canonical (physHomeWrite_canonical h)
  · exact finishOp_canonical h
theorem execHbmWrite_canonical (h : Canonical s) : NextCanonical (execHbmWrite s) := by
  unfold execHbmWrite
  split
  · exact .next h
  · refine nextCanonical_ite (.next (again_canonical h)) ?_
    exact nextCanonical_ite (.next (poisonOp_canonical h)) (.next (performHome_canonical h))
theorem execSecondTierAccess_canonical (h : Canonical s) : NextCanonical (execSecondTierAccess s) := by
  unfold execSecondTierAccess
  split
  · exact .next h
  · refine nextCanonical_ite (.next (again_canonical h)) ?_
    refine nextCanonical_ite (.next (poisonOp_canonical h)) ?_
    dsimp only
    split
    · exact .next (finishOp_canonical (canonical_ite (countTier2Read_canonical h) h))
    · exact .next (performHome_canonical (canonical_ite (countTier2Read_canonical h) h))

/-! ## The host's answers and the deadline of a fault (R360, R361; 14_package_host, R374, R376) -/

theorem pokeCluster_canonical {ck : Nat} (h : Canonical s) : Canonical (pokeCluster s ck) := by
  unfold pokeCluster
  exact canonical_foldl h fun _ _ h1 => canonical_ite (canonical_foldl h1 fun _ _ h2 => canonical_ite (poke_canonical h2) h2) h1
theorem unpark_canonical {ck id : Nat} (h : Canonical s) : Canonical (unpark s ck id) := by
  unfold unpark
  exact pokeCluster_canonical (setCluster_canonical h)
theorem answerParked_canonical {ok : Bool} {s : State} {e : ParkedCmd} (h : Canonical s) : Canonical (answerParked ok s e) := by
  unfold answerParked
  dsimp only
  split
  · refine canonical_ite (runCompattr_canonical (unpark_canonical h).frame) ?_
    refine canonical_ite (sendReply_canonical (endAccess_canonical (unpark_canonical h).frame)) ?_
    exact failCommand_canonical (unpark_canonical h).frame
  · exact schedule_canonical (canonical_ite (unpark_canonical h).frame (unpark_canonical h).frame)
theorem answerOp_canonical {ok : Bool} {s : State} {id : Nat} (h : Canonical s) : Canonical (answerOp ok s id) := by
  unfold answerOp
  split
  · refine canonical_ite (failOp_canonical (unpark_canonical h)) ?_
    exact schedule_canonical (putOp_canonical (canonical_unless (unpark_canonical h) fun h1 => { h1 with }))
  · split
    · exact answerParked_canonical h
    · exact canonical_ite h { h with }
theorem pageAnswered_canonical {key : Nat} {s : State} {n : Nat} (h : Canonical s) : Canonical (pageAnswered key s n) := by
  unfold pageAnswered
  exact canonical_ite (canonical_when (updateRegion_canonical h fun hr => { hr with }) fun h1 => schedule_canonical h1) h
theorem execPageRequestResponse_canonical (h : Canonical s) : NextCanonical (execPageRequestResponse s) := by
  unfold execPageRequestResponse
  dsimp only
  split
  · exact .next (grantTags_canonical (canonical_foldl (canonical_foldl { h with } fun _ _ h1 => answerOp_canonical h1)
      fun _ _ h1 => pageAnswered_canonical h1))
  · exact .next h
theorem execPfDeadline_canonical (h : Canonical s) : NextCanonical (execPfDeadline s) := by
  unfold execPfDeadline
  refine nextCanonical_ite (.next h) ?_
  refine nextCanonical_ite (.next (schedule_canonical h)) ?_
  refine nextCanonical_ite (.next (schedule_canonical (updateRegion_canonical h fun hr => { hr with }))) ?_
  exact .next (consumeError_canonical (updateRegion_canonical h fun hr => { hr with }))

/-! ## Invalidation (R362, R371) -/

theorem invalidate_canonical {sc : Nat × Nat × Nat} (h : Canonical s) : Canonical (invalidate s sc) := by
  unfold invalidate
  exact { h with core := forall_map h.core fun _ hc => { hc with } }
theorem execTlbinvComplete_canonical (h : Canonical s) : NextCanonical (execTlbinvComplete s) := by
  unfold execTlbinvComplete
  split
  · exact .next h
  · split
    · refine nextCanonical_ite (.next (again_canonical (invalidate_canonical h).frame)) ?_
      refine nextCanonical_ite (.next (again_canonical h)) ?_
      dsimp only
      split
      · exact .next (schedule_canonical (countXl_canonical { h with }))
      · exact .next (completeCommand_canonical (countXl_canonical { h with }))

/-! ## Migration (R369, R371) -/

theorem setMig_canonical {m : Migration} (h : Canonical s) : Canonical (setMig s m) := by
  unfold setMig
  exact { h with }
theorem dropMig_canonical {id : Nat} (h : Canonical s) : Canonical (dropMig s id) := by
  unfold dropMig
  exact { h with }
theorem execMigrationFork_canonical (h : Canonical s) : NextCanonical (execMigrationFork s) := by
  unfold execMigrationFork
  split
  · dsimp only
    split
    · refine nextCanonical_ite (.next (failCommand_canonical (dropMig_canonical (leafPlace_canonical h ‹_›)))) ?_
      refine nextCanonical_ite (.next (again_canonical (leafPlace_canonical h ‹_›))) ?_
      exact .next (schedule_canonical (setMig_canonical (leafPlace_canonical h ‹_›)))
    · exact .next (commandError_canonical (dropMig_canonical (leafPlace_canonical h ‹_›)))
    · exact .next (failCommand_canonical (dropMig_canonical (leafPlace_canonical h ‹_›)))
  · exact .next h
theorem execMigrationCopyLine_canonical (h : Canonical s) : NextCanonical (execMigrationCopyLine s) := by
  unfold execMigrationCopyLine
  split
  · split
    · refine nextCanonical_ite (.next (commandError_canonical (countPoison_canonical (dropMig_canonical h)))) ?_
      refine nextCanonical_ite (.next (schedule_canonical (setMig_canonical (physHomeWrite_canonical (countHome_canonical h)))))
        ?_
      exact .next (schedule_canonical (setMig_canonical (physHomeWrite_canonical (countHome_canonical h))))
    · exact .next h
  · exact .next h
theorem execMigrationSwitch_canonical (h : Canonical s) : NextCanonical (execMigrationSwitch s) := by
  unfold execMigrationSwitch
  split
  · refine nextCanonical_ite (.next (commandError_canonical (countStack_canonical (dropMig_canonical h)))) ?_
    refine nextCanonical_ite (.next (schedule_canonical (homeWrite_canonical (setMig_canonical (countRead_canonical h))).frame))
      ?_
    exact .next h
  · exact .next h
theorem execMigrationRelease_canonical (h : Canonical s) : NextCanonical (execMigrationRelease s) := by
  unfold execMigrationRelease
  split
  · refine nextCanonical_ite (.next (completeCommand_canonical (dropMig_canonical
      { h with die := forall_map h.die fun _ hd => { hd with } }))) ?_
    exact .next h
  · exact .next h

/-! ## Indirect streams (R367, R368) -/

theorem homeGather_canonical {c : Command} {a : W64} {n : Nat} (h : Canonical s) : Canonical (homeGather s c a n).2 := by
  unfold homeGather
  split
  · exact canonical_of_eq (reachPieces_canonical h) ‹_›
  · split
    · exact countPoison_canonical (canonical_of_eq (reachPieces_canonical h) ‹_›)
    · exact canonical_foldl (canonical_of_eq (reachPieces_canonical h) ‹_›) fun _ _ h1 => countHome_canonical h1
theorem homeScatter_canonical {c : Command} {a : W64} {bs : List Byte} (h : Canonical s) :
    Canonical (homeScatter s c a bs).2 := by
  unfold homeScatter
  split
  · exact canonical_of_eq (reachPieces_canonical h) ‹_›
  · have ht := canonical_of_eq (reachPieces_canonical h) ‹_›
    exact List.foldlRecOn (motive := fun w : List Byte × State => Canonical w.2) _ _ ht fun w h p _ => leaveWrite_canonical (s
      := w.2) h
theorem moveElement_canonical {c : Command} {d : V512} {i idx : Nat} (h : Canonical s) :
    Canonical (moveElement s c d i idx).2 := by
  unfold moveElement
  dsimp only
  split
  · exact h
  · exact h
  · refine canonical_snd_ite ?_ (canonical_snd_ite h (homeScatter_canonical (countCorrected_canonical h)))
    split
    · exact portWrite_canonical (canonical_of_eq (homeGather_canonical h) ‹_›)
    · exact homeGather_canonical h
theorem countElement_canonical {j : XJob} (h : Canonical s) : Canonical (countElement s j) := by
  unfold countElement
  split
  · exact countStack_canonical h
  · exact h
theorem stopXstr_canonical {j : XJob} {g : Gather} (h : Canonical s) : Canonical (stopXstr s j g) := by
  unfold stopXstr
  split
  · exact canonical_ite (schedule_canonical (setXJob_canonical (undeny_canonical h))) (parkCommand_canonical h)
  · exact schedule_canonical (setXJob_canonical h)
  · exact putOff_canonical h
  · exact consumeError_canonical (dropXJob_canonical h)
theorem engineStack_canonical {pa : W64} (h : Canonical s) : Canonical (engineStack s pa).2 := by
  unfold engineStack
  exact canonical_snd_ite h (takeFresh_canonical h)
theorem joinEngine_canonical {j : XJob} {pa : W64} (h : Canonical s) : Canonical (joinEngine s j pa) := by
  unfold joinEngine
  exact (dropXJob_canonical (engineStack_canonical h)).frame
theorem nextElement_canonical {j : XJob} {d : V512} (h : Canonical s) : Canonical (nextElement s j d) := by
  unfold nextElement
  dsimp only
  split
  · refine canonical_ite (stopXstr_canonical (canonical_of_eq (homeGather_canonical h) ‹_›)) ?_
    split
    · exact again_canonical (setXJob_canonical (countElement_canonical (canonical_of_eq (moveElement_canonical (canonical_of_eq
        (homeGather_canonical h) ‹_›)) ‹_›)))
    · exact stopXstr_canonical (canonical_of_eq (moveElement_canonical (canonical_of_eq (homeGather_canonical h) ‹_›)) ‹_›)
  · exact stopXstr_canonical (canonical_of_eq (homeGather_canonical h) ‹_›)
theorem execXstrElement_canonical (h : Canonical s) : NextCanonical (execXstrElement s) := by
  unfold execXstrElement
  split
  · refine nextCanonical_ite (.next h) ?_
    refine nextCanonical_ite (.next (again_canonical h)) ?_
    split
    · split
      · exact .next (again_canonical (joinEngine_canonical (canonical_of_eq (reach_canonical h) ‹_›)))
      · exact .next (stopXstr_canonical (canonical_of_eq (reach_canonical h) ‹_›))
      · exact .next (stopXstr_canonical (canonical_of_eq (reach_canonical h) ‹_›))
      · exact .next (stopXstr_canonical (canonical_of_eq (reach_canonical h) ‹_›))
    · refine nextCanonical_ite (.next (again_canonical h)) ?_
      exact nextCanonical_ite (.next (schedule_canonical h)) (.next (nextElement_canonical h))
  · exact .next h
theorem execXstrComplete_canonical (h : Canonical s) : NextCanonical (execXstrComplete s) := by
  unfold execXstrComplete
  split
  · split
    · exact .next (failCommand_canonical (dropXJob_canonical h))
    · refine nextCanonical_ite (.next h) ?_
      exact nextCanonical_ite (.next (again_canonical h)) (.next (completeCommand_canonical (dropXJob_canonical h)))
    · exact .next h
  · exact .next h

/-! ## Fields -/

theorem setBranch_canonical {die g : Nat} {b : Branch} (h : Canonical s) : Canonical (setBranch s die g b) := by
  unfold setBranch
  exact updateDie_canonical h fun hd => { hd with }
theorem pokeGroup_canonical {g : Nat} (h : Canonical s) : Canonical (pokeGroup s g) := by
  unfold pokeGroup
  exact canonical_foldl (schedule_canonical h) fun _ _ h1 => schedule_canonical h1

/-! ## Reading the source (R313, R315) -/

theorem sendBytes_canonical {die : Nat} {c : Command} {off n : Nat} (h : Canonical s) :
    Canonical (sendBytes s die c off n).2 := by
  unfold sendBytes
  dsimp only
  split
  · exact canonical_snd_ite (canonical_snd_ite h (canonical_snd_ite h (pinnedFix_canonical h))) (gatherOn_canonical h)
  · exact h
theorem expanded_canonical {die : Nat} {c : Command} {len pos n : Nat} (h : Canonical s) :
    Canonical (expanded s die c len pos n).2 := by
  unfold expanded
  split
  · have ht := canonical_of_eq (sendBytes_canonical h) ‹_›
    refine canonical_snd_ite ht ?_
    extract_lets nsym start want
    split
    · have hu := canonical_of_eq (sendBytes_canonical ht) ‹_›
      split
      · exact hu
      · exact hu
    · exact canonical_of_eq (sendBytes_canonical ht) ‹_›
  · exact canonical_of_eq (sendBytes_canonical h) ‹_›
theorem cutBlock_canonical {die : Nat} {c : Command} {len pos n : Nat} {huf : Bool} (h : Canonical s) :
    Canonical (cutBlock s die c len pos n huf).2 := by
  unfold cutBlock
  refine canonical_snd_ite (expanded_canonical h) ?_
  split
  · exact canonical_of_eq (sendBytes_canonical h) ‹_›
  · exact canonical_of_eq (sendBytes_canonical h) ‹_›

/-! ## Launch (R309, R315) -/

theorem dropSend_canonical {g : Nat} {c : Command} (h : Canonical s) : Canonical (dropSend s g c) := by
  unfold dropSend
  exact pokeGroup_canonical (setGroup_canonical h)
theorem launchBlock_canonical {g : Nat} {b : Block} {send : Send} {last : Bool} (h : Canonical s) :
    Canonical (launchBlock s g b send last) := by
  unfold launchBlock
  exact schedule_canonical (canonical_foldl (countCasc_canonical (setGroup_canonical h)) fun _ _ h1 => schedule_canonical
    (setBranch_canonical h1))
theorem stopSend_canonical {g : Nat} {send : Send} {cut : Cut} (h : Canonical s) : Canonical (stopSend s g send cut) := by
  unfold stopSend
  dsimp only
  split
  · exact failCommand_canonical (countCasc_canonical (dropSend_canonical h))
  · exact canonical_ite (failCommand_canonical (dropSend_canonical (undeny_canonical h))) (parkCommand_canonical h)
  · exact putOff_canonical h
  · exact failCommand_canonical (dropSend_canonical h)
  · exact consumeError_canonical (dropSend_canonical h)
theorem cutAndLaunch_canonical {g : Nat} {send : Send} (h : Canonical s) : Canonical (cutAndLaunch s g send) := by
  unfold cutAndLaunch
  dsimp only
  split
  · refine canonical_ite h ?_
    refine canonical_ite (schedule_canonical h) ?_
    split
    · exact launchBlock_canonical (canonical_of_eq (cutBlock_canonical h) ‹_›)
    · exact stopSend_canonical (canonical_of_eq (cutBlock_canonical h) ‹_›)
  · exact h
theorem execCascadeBlockLaunch_canonical (h : Canonical s) : NextCanonical (execCascadeBlockLaunch s) := by
  unfold execCascadeBlockLaunch
  extract_lets g x mine from_ t u
  have ht : Canonical t := { h with }
  have hu : Canonical u := canonical_unless ht fun h => countCasc_canonical h
  clear_value u
  split
  · exact .next hu
  · refine nextCanonical_ite (.next hu) ?_
    exact nextCanonical_ite (.next (schedule_canonical hu)) (.next (cutAndLaunch_canonical hu.frame))

/-! ## Branches (R308 to R311) -/

theorem faultGroup_canonical {g : Nat} (h : Canonical s) : Canonical (faultGroup s g) := by
  unfold faultGroup
  exact canonical_foldl (setGroup_canonical h) fun _ _ h1 => consumeError_canonical h1
theorem execBranchReceive_canonical (h : Canonical s) : NextCanonical (execBranchReceive s) := by
  unfold execBranchReceive
  dsimp only
  split
  · exact .next h
  · split
    · refine nextCanonical_ite (.next (setBranch_canonical h)) ?_
      exact .next (schedule_canonical (injectFlit_canonical (setBranch_canonical h)))
    · refine nextCanonical_ite (.next (faultGroup_canonical (countCasc_canonical (setBranch_canonical h)))) ?_
      exact .next (schedule_canonical (countCasc_canonical (setBranch_canonical h)))
theorem execRetransmitRequest_canonical (h : Canonical s) : NextCanonical (execRetransmitRequest s) := by
  unfold execRetransmitRequest
  dsimp only
  split
  · exact .next h
  · exact .next (schedule_canonical (setBranch_canonical h))
theorem putEntries_canonical {die g : Nat} {f : BranchEntry → BranchEntry} (h : Canonical s) :
    Canonical (putEntries s die g f) := by
  unfold putEntries
  exact pokeGroup_canonical (setBranch_canonical h)
theorem editEntry_canonical {die g : Nat} {seq : W16} {f : BranchEntry → BranchEntry} (h : Canonical s) :
    Canonical (editEntry s die g seq f) := by
  unfold editEntry
  exact putEntries_canonical h
theorem forwardBlock_canonical {die g : Nat} {e : BranchEntry} (h : Canonical s) : Canonical (forwardBlock s die g e) := by
  unfold forwardBlock
  exact schedule_canonical (schedule_canonical (canonical_foldl (countCasc_canonical (setBranch_canonical h)) fun _ _ h1 =>
    schedule_canonical h1))
theorem execBranchForward_canonical (h : Canonical s) : NextCanonical (execBranchForward s) := by
  unfold execBranchForward
  dsimp only
  split
  · exact .next (canonical_when (canonical_unless { h with } fun h1 => countCasc_canonical h1) fun h1 => putEntries_canonical
      h1)
  · refine nextCanonical_ite (.next (canonical_when (canonical_unless { h with } fun h1 => countCasc_canonical h1) fun h1 =>
      putEntries_canonical h1)) ?_
    refine nextCanonical_ite (.next (schedule_canonical (canonical_when (canonical_unless { h with } (fun h1 =>
      countCasc_canonical h1)) fun h1 => putEntries_canonical h1))) ?_
    exact .next (forwardBlock_canonical (canonical_when (canonical_unless { h with } fun h1 => countCasc_canonical h1) fun h1 =>
      putEntries_canonical h1))

/-! ## Members (R304 to R308, R310) -/

theorem fillSlot_canonical {k f slot : Nat} {blk : Block} (h : Canonical s) : Canonical (fillSlot s k f slot blk) := by
  unfold fillSlot
  exact setCtx_canonical (updateCore_canonical (canonical_ite (portWrite_canonical h) h) fun hc => { hc with })
theorem execMemberSlotFill_canonical (h : Canonical s) : NextCanonical (execMemberSlotFill s) := by
  unfold execMemberSlotFill
  dsimp only
  split
  · exact .next h
  · refine nextCanonical_ite (.next (editEntry_canonical h)) ?_
    split
    · exact .next (editEntry_canonical h)
    · refine nextCanonical_ite (.next (faultGroup_canonical (countCasc_canonical (editEntry_canonical h)))) ?_
      exact .next (schedule_canonical (countCasc_canonical (editEntry_canonical h)))
    · exact .next (sendFlit_canonical (fillSlot_canonical h))
theorem execMemberReemit_canonical (h : Canonical s) : NextCanonical (execMemberReemit s) := by
  unfold execMemberReemit
  dsimp only
  split
  · exact .next h
  · exact nextCanonical_ite (.next h) (.next (schedule_canonical (editEntry_canonical h)))
theorem settleStore_canonical {g : Nat} (h : Canonical s) : Canonical (settleStore s g) := by
  unfold settleStore
  exact canonical_foldl (setGroup_canonical h) fun _ _ h1 => completeCommand_canonical h1
theorem execBlockAck_canonical (h : Canonical s) : NextCanonical (execBlockAck s) := by
  unfold execBlockAck
  split
  · exact .next (canonical_when (editEntry_canonical (dropMsg_canonical h)) fun h1 => schedule_canonical h1)
  · exact .next (pokeGroup_canonical (settleStore_canonical (setGroup_canonical (dropMsg_canonical h))))
  · exact .next (waitMsg_canonical h)
theorem execVoteArrival_canonical (h : Canonical s) : NextCanonical (execVoteArrival s) := by
  unfold execVoteArrival
  split
  · dsimp only
    split
    · exact .next (dropMsg_canonical h)
    · exact .next (pokeGroup_canonical (canonical_unless (setBranch_canonical (dropMsg_canonical h)) fun h1 => canonical_foldl
        h1 fun _ _ h2 => schedule_canonical h2))
  · exact .next (waitMsg_canonical h)

/-! ## Lasers and entries (R302, R317) -/

theorem wakeLaser_canonical {g : Nat} (h : Canonical s) : Canonical (wakeLaser s g) := by
  unfold wakeLaser
  exact canonical_ite (schedule_canonical (countCasc_canonical (setGroup_canonical h))) h
theorem execCgwakeArrival_canonical (h : Canonical s) : NextCanonical (execCgwakeArrival s) := by
  unfold execCgwakeArrival
  split
  · dsimp only
    split
    · exact .next (pokeGroup_canonical (wakeLaser_canonical (setGroup_canonical (dropMsg_canonical h))))
    · refine nextCanonical_ite (.next (completeCommand_canonical (setGroup_canonical (dropMsg_canonical h)))) ?_
      exact .next (wakeLaser_canonical (setGroup_canonical (dropMsg_canonical h)))
  · exact .next (wakeLaser_canonical (dropMsg_canonical h))
  · exact .next (waitMsg_canonical h)
theorem execLaserLit_canonical (h : Canonical s) : NextCanonical (execLaserLit s) := by
  unfold execLaserLit
  refine nextCanonical_ite (.next h) ?_
  exact .next (pokeGroup_canonical (schedule_canonical (canonical_foldl (setGroup_canonical h) (fun _ _ h1 =>
    completeCommand_canonical h1))))
theorem execLaserDark_canonical (h : Canonical s) : NextCanonical (execLaserDark s) := by
  unfold execLaserDark
  exact nextCanonical_ite (.next h) (nextCanonical_ite (.next (schedule_canonical h)) (.next (setGroup_canonical h)))
theorem dropBranches_canonical {g : Nat} (h : Canonical s) : Canonical (dropBranches s g) := by
  unfold dropBranches
  refine { h with die := forall_map h.die fun _ hd => ?_ }
  split
  · exact hd
  · exact { hd with }
theorem execGroupEntryWriteApply_canonical (h : Canonical s) : NextCanonical (execGroupEntryWriteApply s) := by
  unfold execGroupEntryWriteApply
  refine nextCanonical_ite (.next h) ?_
  refine nextCanonical_ite (.next (again_canonical h)) ?_
  exact .next (schedule_canonical (canonical_unless (setGroup_canonical h) fun h1 => dropBranches_canonical h1))

end

end Sys2Proof.Machine
end

