-- ==== Sys2Proof/Proofs/CanonicalGang.lean ====
section
/-! PROOF. Every memory stays in its canonical form:
the memory of a queue, the gangs and the regions.
One lemma for each operation of the model, in the model's order. -/
namespace Sys2Proof.Machine

section
variable {s : State}

/-! ## The queue engine's memory (R322, R325; 13_package_memory, R357 to R360) -/

theorem queueTranslate_canonical {q va : Nat} {write : Bool} (h : Canonical s) : Canonical (queueTranslate s q va write).2 := by
  unfold queueTranslate
  split
  · exact h
  · dsimp only
    split
    · exact countWalk_canonical h
    · exact countWalk_canonical h
    · exact countWalk_canonical h
    · exact countWalk_canonical h
theorem queuePlace_canonical {q : Nat} {virt : Bool} {a : Nat} {write : Bool} (h : Canonical s) :
    Canonical (queuePlace s q virt a write).2 := by
  unfold queuePlace
  exact canonical_snd_ite (queueTranslate_canonical h) h
theorem queueRead_canonical {q : Nat} {virt : Bool} {a n pages : Nat} (h : Canonical s) :
    Canonical (queueRead s q virt a n pages).2 := by
  induction pages generalizing s a n with
  | zero => exact h
  | succ m ih =>
    have hp : Canonical (queuePlace s q virt a false).2 := queuePlace_canonical h
    unfold queueRead
    dsimp only
    split
    · exact h
    · split
      · exact canonical_of_eq hp ‹_›
      · exact canonical_of_eq hp ‹_›
      · exact canonical_of_eq hp ‹_›
      · have ht := canonical_of_eq hp ‹_›
        split
        · exact ht
        · split
          · exact countStack_canonical ht
          · split
            · exact canonical_of_eq (ih (countHome_canonical ht)) ‹_›
            · exact ih (countHome_canonical ht)
theorem queueWrite_canonical {q : Nat} {virt : Bool} {a : Nat} {bs : List Byte} {pages : Nat} (h : Canonical s) :
    Canonical (queueWrite s q virt a bs pages).2 := by
  induction pages generalizing s a bs with
  | zero => exact h
  | succ m ih =>
    have hp : Canonical (queuePlace s q virt a true).2 := queuePlace_canonical h
    unfold queueWrite
    dsimp only
    split
    · exact h
    · split
      · exact canonical_of_eq hp ‹_›
      · exact canonical_of_eq hp ‹_›
      · exact canonical_of_eq hp ‹_›
      · have ht := canonical_of_eq hp ‹_›
        split
        · exact ht
        · exact ih (physHomeWrite_canonical ht)

/-! ## Packets (R323 to R325) -/

theorem modPacket_canonical {q idx : Nat} {f : Packet → Packet} (h : Canonical s) : Canonical (modPacket s q idx f) := by
  unfold modPacket
  exact setQueue_canonical h
theorem complete_canonical {q idx st code : Nat} (h : Canonical s) : Canonical (complete s q idx st code) := by
  unfold complete
  exact schedule_canonical h
theorem sendMsix_canonical {vec : Nat} (h : Canonical s) : Canonical (sendMsix s vec) := by
  unfold sendMsix
  exact { h with }
theorem queueMsix_canonical {q : Nat} (h : Canonical s) : Canonical (queueMsix s q) := by
  unfold queueMsix
  exact sendMsix_canonical h
theorem faultQueue_canonical {q : Nat} {code : BitVec 8} (h : Canonical s) : Canonical (faultQueue s q code) := by
  unfold faultQueue
  exact hostEvent_canonical (queueMsix_canonical (setQueue_canonical h))
theorem stopPacket_canonical {q idx : Nat} {op : Instr} {f : Fetched} (h : Canonical s) :
    Canonical (stopPacket s q idx op f) := by
  unfold stopPacket
  split
  · exact canonical_ite (complete_canonical (undeny_canonical h)) (schedule_canonical (requestPage_canonical h))
  · exact schedule_canonical h
  · exact complete_canonical h
  · exact complete_canonical h

/-! ## Seats -/

theorem mapGang_canonical {n : Nat} {f : Ctx → Ctx} (h : Canonical s) : Canonical (mapGang s n f) := by
  unfold mapGang
  exact canonical_foldl h fun _ _ h1 => setCtx_canonical h1
theorem mapCores_canonical {n : Nat} {f : Core → Core} (h : Canonical s)
    (hf : ∀ (a : Core), CoreCanonical a → CoreCanonical (f a)) :
    Canonical (mapCores s n f) := by
  unfold mapCores
  exact canonical_foldl h fun _ _ h1 => updateCore_canonical h1 fun hc => hf _ hc

/-! ## Cascade groups of a configuration (11_package_cascade, R299, R302, R303) -/

theorem writeGroups_canonical {ts : List Seat} {plan : List (Nat × W64 × W64)} (h : Canonical s) :
    Canonical (writeGroups s ts plan) := by
  unfold writeGroups
  exact canonical_foldl h fun _ _ h1 => canonical_foldl (setGroup_canonical h1) fun _ _ h2 => setBranch_canonical h2
theorem clearGroup_canonical {g : Nat} (h : Canonical s) : Canonical (clearGroup s g) := by
  unfold clearGroup
  extract_lets x left one u t
  have hone : ∀ e, DieCanonical e.2 → DieCanonical (one e).2 := by
    intro e hd
    unfold one
    split
    · exact { hd with }
    · exact hd
  have hu : Canonical u := setGroup_canonical h
  have ht : Canonical t := { hu with die := forall_map h.die hone }
  exact canonical_ite (dropBranches_canonical (setGroup_canonical ht)) (schedule_canonical (pokeGroup_canonical ht))
theorem clearGroups_canonical {n : Nat} (h : Canonical s) : Canonical (clearGroups s n) := by
  unfold clearGroups
  exact canonical_foldl h fun _ _ h1 => clearGroup_canonical h1

/-! ## Planes and launch states (01_encoding, R15; 02_rule, R53, R57; 03_core_numbers, R86, R93) -/

theorem planeOf_wf {ts : List Seat} : memWf (planeOf ts) = true := memStore_wf memWf_nil _
theorem loadShadow_canonical {ts : List Seat} (h : Canonical s) : Canonical (loadShadow s ts) := by
  unfold loadShadow
  exact canonical_foldl h fun _ _ h1 => updateCore_canonical h1 fun hc => { hc with shadow := planeOf_wf }

/-! ## The rates of bindings (10_die, R283) -/

theorem seatCoreState_canonical {n q : Nat} {ts : List Seat} {c : Core} (hc : CoreCanonical c) :
    CoreCanonical (seatCoreState n q ts c) := by
  have hm : memWf (if (c.owner != some q) = true then [] else c.mem) = true := by
    split
    · rfl
    · exact hc.mem
  exact { mem := memStore_wf hm _, active := hc.shadow, shadow := hc.active, routes := hc.routes }
theorem writeBarriers_canonical {ts : List Seat} (h : Canonical s) : Canonical (writeBarriers s ts) := by
  unfold writeBarriers
  exact canonical_foldl h fun _ _ h1 => canonical_foldl h1 fun _ _ h2 => canonical_ite h2 (setCluster_canonical h2)
theorem bindPair_canonical {ts : List Seat} {ch : Nat} {a b : Nat × Nat × Nat} (h : Canonical s) :
    Canonical (bindPair s ts ch a b) := by
  unfold bindPair
  dsimp only
  split
  · exact setCluster_canonical h
  · exact h
theorem writePairs_canonical {img : Image} {ts : List Seat} (h : Canonical s) : Canonical (writePairs s img ts) := by
  unfold writePairs
  exact canonical_foldl h fun _ _ h1 => bindPair_canonical (bindPair_canonical h1)
theorem setUsers_canonical {n : Nat} {dies : List Nat} (h : Canonical s) : Canonical (setUsers s n dies) := by
  unfold setUsers
  exact canonical_foldl { h with die := forall_map h.die fun _ hd => { hd with } } fun _ _ h1 => updateDie_canonical h1
    fun hd => { hd with }
theorem rebind_canonical {x y : Nat} {e : W64} (h : Canonical s) : Canonical (rebind s x y e) := by
  unfold rebind
  refine setMapEntry_canonical ?_
  refine { h with core := forall_map h.core fun _ hc => ?_ }
  split
  · exact { hc with }
  · exact { hc with }
theorem foldMap_canonical {fold : Nat} {ts : List Seat} (h : Canonical s) : Canonical (foldMap s fold ts).1 := by
  unfold foldMap
  exact canonical_fst_ite h (canonical_foldl h fun _ _ h1 => rebind_canonical h1)
theorem unfoldMap_canonical {old : List (Nat × W64)} (h : Canonical s) : Canonical (unfoldMap s old) := by
  unfold unfoldMap
  exact canonical_foldl h fun _ _ h1 => rebind_canonical h1
theorem writeAreas_canonical {n q : Nat} {ks : List Nat} (h : Canonical s) : Canonical (writeAreas s n q ks) := by
  unfold writeAreas
  exact canonical_foldl h fun _ _ h1 => setCore_canonical (canonical_ite h1 (canonical_foldl h1 fun _ _ h2 =>
    physHomeWrite_canonical h2)) { coreOf_canonical h1 with }
theorem swapIn_canonical {n q : Nat} {img : Image} {ts : List Seat} {plan : List (Nat × W64 × W64)} {dup : Bool}
    {split : Nat} (h : Canonical s) :
    Canonical (swapIn s n q img ts plan dup split) := by
  unfold swapIn
  exact setUsers_canonical (writeGroups_canonical (canonical_when (writePairs_canonical (writeBarriers_canonical
    (canonical_foldl (writeAreas_canonical h) fun _ _ h1 => updateCore_canonical h1 fun hc => seatCoreState_canonical hc)))
    fun h1 => writePairs_canonical h1))

/-! ## The end of a configuration -/

theorem clearShared_canonical {n : Nat} (h : Canonical s) : Canonical (clearShared s n) := by
  unfold clearShared
  exact setUsers_canonical (clearGroups_canonical (canonical_foldl h fun _ _ h1 => setCluster_canonical h1))
theorem emptyCore_canonical {c : Core} (hc : CoreCanonical c) : CoreCanonical (emptyCore c) := by
  unfold emptyCore
  exact { hc with }
theorem freedRegion_canonical {r : Region} : RegionCanonical (freedRegion r) := by
  unfold freedRegion
  exact { region_reset_canonical with }
theorem uncountFlits_canonical {fs : List Flit} (h : Canonical s) : Canonical (uncountFlits s fs) := by
  unfold uncountFlits
  exact canonical_foldl h fun _ _ h1 => canonical_foldl h1 fun _ _ h2 => updateCore_canonical h2 fun hc => lowerCount_canonical
    hc
theorem dropTraffic_canonical {n : Nat} (h : Canonical s) : Canonical (dropTraffic s n) := by
  unfold dropTraffic
  extract_lets _ _ _ _ _ t _ _ _ _ _ _ _ _ _ _ _ u v
  have ht : Canonical t := uncountFlits_canonical h
  have hu : Canonical u :=
    { ht with
      core := forall_map ht.core fun _ hc => { hc with }
      die := forall_map ht.die fun _ hd => { hd with } }
  have hv : Canonical v := canonical_foldl hu fun _ _ h => schedule_canonical h
  exact updateRegion_canonical hv fun hr => { hr with }
theorem passRetire_canonical {n : Nat} (h : Canonical s) : Canonical (passRetire s n) := by
  unfold passRetire
  exact canonical_ite h (schedule_canonical (updateRegion_canonical h fun hr => { hr with }))
theorem freeRegion_canonical {n : Nat} (h : Canonical s) : Canonical (freeRegion s n) := by
  unfold freeRegion
  exact setRegion_canonical (unfoldMap_canonical (mapCores_canonical (clearShared_canonical (passRetire_canonical h))
    fun _ hc => emptyCore_canonical hc)) freedRegion_canonical

/-! ## Strays (R334, R335, R350) -/

theorem discardStrays_canonical {n : Nat} (h : Canonical s) : Canonical (discardStrays s n) := by
  unfold discardStrays
  refine mapGang_canonical ?_
  refine mapCores_canonical ?_ fun _ hc => { hc with }
  refine canonical_foldl (countPkg_canonical h) fun _ _ h1 => ?_
  split
  · exact freeSlot_canonical h1
  · exact h1

/-! ## What a stop keeps (07_core_failures, R216; 08_cluster, R260) -/

theorem savedCore_canonical {n k : Nat} (h : Canonical s) : CoreCanonical (savedCore s n k).state :=
  coreOf_canonical h
theorem freezeShared_canonical {n : Nat} (h : Canonical s) : Canonical (freezeShared s n) := by
  unfold freezeShared
  exact canonical_foldl (canonical_foldl h fun _ _ h1 => setCluster_canonical h1) fun _ _ h1 => setPair_canonical h1
theorem thawShared_canonical {n : Nat} (h : Canonical s) : Canonical (thawShared s n) := by
  unfold thawShared
  refine canonical_foldl ?_ fun _ _ h1 => ?_
  · refine canonical_foldl h fun _ _ h1 => ?_
    dsimp only
    split
    · exact schedule_canonical (setCluster_canonical h1)
    · exact h1
  · dsimp only
    split
    · exact schedule_canonical (setPair_canonical h1)
    · exact h1
theorem restoreShared_canonical {h : SavedShared} (hs : Canonical s) : Canonical (restoreShared s h) := by
  unfold restoreShared
  exact canonical_foldl (canonical_foldl hs fun _ _ h => setCluster_canonical h) fun _ _ h => setCluster_canonical h

/-! ## Waking -/

theorem wakeCore_canonical {k : Nat} (h : Canonical s) : Canonical (wakeCore s k) := by
  unfold wakeCore
  exact canonical_foldl (canonical_ite h (schedule_canonical h)) fun _ _ h1 => canonical_ite (canonical_foldl (poke_canonical
    h1) fun _ _ h2 => wakeStream_canonical h2) h1
theorem scheduleOnce_canonical {due : Nat} {op : Instr} {args : EvArgs} (h : Canonical s) :
    Canonical (scheduleOnce s due op args) := by
  unfold scheduleOnce
  exact canonical_ite h (schedule_canonical h)
theorem watch_canonical {n : Nat} (h : Canonical s) : Canonical (watch s n) := by
  unfold watch
  exact canonical_ite h (scheduleOnce_canonical (scheduleOnce_canonical h))
theorem beat_canonical {n : Nat} (h : Canonical s) : Canonical (beat s n) := by
  unfold beat
  exact watch_canonical (updateRegion_canonical h fun hr => { hr with })

/-! ## Starting and going on -/

theorem modRegion_canonical {n : Nat} {f : Region → Region} (h : Canonical s)
    (hf : ∀ (a : Region), RegionCanonical a → RegionCanonical (f a)) :
    Canonical (modRegion s n f) := by
  unfold modRegion
  exact updateRegion_canonical h fun hr => hf _ hr
theorem wakeGang_canonical {n : Nat} (h : Canonical s) : Canonical (wakeGang s n) := by
  unfold wakeGang
  exact canonical_foldl h fun _ _ h1 => wakeCore_canonical (updateCore_canonical h1 fun hc => { hc with })
theorem runGang_canonical {n : Nat} (h : Canonical s) : Canonical (runGang s n) := by
  unfold runGang
  exact scheduleOnce_canonical (canonical_unless (scheduleOnce_canonical (watch_canonical (wakeGang_canonical
    (thawShared_canonical (modRegion_canonical h fun _ hr => { hr with }))))) fun h1 => scheduleOnce_canonical h1)
theorem writeCheckpoints_canonical {n : Nat} (h : Canonical s) : Canonical (writeCheckpoints s n) := by
  unfold writeCheckpoints
  exact modRegion_canonical (canonical_foldl (mapGang_canonical h) fun _ _ h1 => writeArea_canonical h1) fun _ hr => { hr with }
theorem keepCheck_canonical {n : Nat} (h : Canonical s) : Canonical (keepCheck s n) := by
  unfold keepCheck
  exact modRegion_canonical h fun _ hr => { hr with check := List.forall_mem_map.mpr fun _ _ => savedCore_canonical h }
theorem startRegion_canonical {n : Nat} (h : Canonical s) : Canonical (startRegion s n) := by
  unfold startRegion
  exact runGang_canonical (beat_canonical (keepCheck_canonical (writeCheckpoints_canonical (modRegion_canonical
    (mapGang_canonical h) fun _ hr => { hr with }))))

/-! ## Sweeps (R333) -/

theorem takeAsk_canonical {id : Nat} (h : Canonical s) : Canonical (takeAsk s id) := by
  unfold takeAsk
  split
  · exact updateCore_canonical (dropMsg_canonical h) fun hc => { hc with }
  · exact waitMsg_canonical h
theorem dropSweep_canonical {n : Nat} (h : Canonical s) : Canonical (dropSweep s n) := by
  unfold dropSweep
  exact modRegion_canonical (mapCores_canonical (uncountFlits_canonical h).frame fun _ hc => { hc with }) fun _ hr =>
    { hr with }
theorem execStillSweep_canonical (h : Canonical s) : NextCanonical (execStillSweep s) := by
  unfold execStillSweep
  refine nextCanonical_ite (.next (takeAsk_canonical h)) ?_
  refine nextCanonical_ite (.next h) ?_
  refine nextCanonical_ite (.next (again_canonical h)) ?_
  refine nextCanonical_ite (.next (schedule_canonical h)) ?_
  exact .next (schedule_canonical (canonical_when (canonical_foldl (updateRegion_canonical h fun hr => { hr with })
    fun _ _ h1 => injectFlit_canonical h1) fun h1 => schedule_canonical h1))

/-! ## The end of a configuration (R334) -/

theorem endRegion_canonical {n : Nat} (h : Canonical s) : Canonical (endRegion s n) := by
  unfold endRegion
  refine canonical_unless ?_ fun h1 => modRegion_canonical h1 fun _ _ => freedRegion_canonical
  refine modRegion_canonical ?_ fun _ hr => { hr with check := List.forall_mem_nil _ }
  split
  · exact canonical_unless (complete_canonical (unfoldMap_canonical (mapCores_canonical (clearShared_canonical
      (discardStrays_canonical (passRetire_canonical h))) fun _ hc => emptyCore_canonical hc))) fun h1 => complete_canonical h1
  · exact complete_canonical (unfoldMap_canonical (mapCores_canonical (clearShared_canonical (discardStrays_canonical
      (passRetire_canonical h))) fun _ hc => emptyCore_canonical hc))

/-! ## The swap (R335, R350) -/

theorem failSwap_canonical {n : Nat} {h : Shadow} (hs : Canonical s) : Canonical (failSwap s n h) := by
  unfold failSwap
  refine runGang_canonical ?_
  refine canonical_ite (complete_canonical (hostEvent_canonical (modRegion_canonical (modRegion_canonical hs fun _ hr =>
    { hr with }) fun _ hr => { hr with }))) ?_
  split
  · split
    · exact canonical_when (takeTrap_canonical (modRegion_canonical hs fun _ hr => { hr with })) fun h => setCtx_canonical h
    · exact hostEvent_canonical (modRegion_canonical hs fun _ hr => { hr with })
  · exact hostEvent_canonical (modRegion_canonical hs fun _ hr => { hr with })
theorem doSwap_canonical {n : Nat} {h : Shadow} (hs : Canonical s) : Canonical (doSwap s n h) := by
  unfold doSwap
  extract_lets r t id _ u ks v w x
  have ht : Canonical t := complete_canonical (clearShared_canonical (discardStrays_canonical hs))
  clear_value t
  have hu : Canonical u := ht.frame
  have hv : Canonical v := canonical_foldl hu fun _ _ h => updateCore_canonical h fun hc => emptyCore_canonical hc
  have hw : Canonical w := swapIn_canonical hv
  have hx : Canonical x := modRegion_canonical hw fun _ hr => ⟨hr.saved, hr.check⟩
  exact startRegion_canonical hx
theorem tellSwapper_canonical {n : Nat} (h : Canonical s) : Canonical (tellSwapper s n) := by
  unfold tellSwapper
  split
  · exact completeCommand_canonical (modRegion_canonical h fun _ hr => { hr with })
  · exact h
theorem swapRegion_canonical {n : Nat} (h : Canonical s) : Canonical (swapRegion s n) := by
  unfold swapRegion
  dsimp only
  split
  · exact canonical_ite (failSwap_canonical h) (doSwap_canonical h)
  · exact runGang_canonical (modRegion_canonical h fun _ hr => { hr with })
theorem judgeSweep_canonical {n : Nat} {idle : Bool} {a b : W64} (h : Canonical s) : Canonical (judgeSweep s n idle a b) := by
  unfold judgeSweep
  exact canonical_unless (updateRegion_canonical h fun hr => { hr with }) fun h1 => canonical_ite (schedule_canonical
    (mapCores_canonical (modRegion_canonical h1 fun _ hr => { hr with }) fun _ hc => { hc with })) (endRegion_canonical h1)
theorem takeAnswer_canonical {id : Nat} (h : Canonical s) : Canonical (takeAnswer s id) := by
  unfold takeAnswer
  split
  · dsimp only
    split
    · exact canonical_unless (dropMsg_canonical h) fun h1 => canonical_when (updateRegion_canonical h1 fun hr => { hr with })
        fun h2 => judgeSweep_canonical h2
    · exact dropMsg_canonical h
  · exact waitMsg_canonical h
theorem execSweepResult_canonical (h : Canonical s) : NextCanonical (execSweepResult s) := by
  unfold execSweepResult
  refine nextCanonical_ite (.next (takeAnswer_canonical h)) ?_
  refine nextCanonical_ite (.next (swapRegion_canonical h)) ?_
  split
  · exact .next (judgeSweep_canonical h)
  · exact .next h

/-! ## Superstep boundaries (R340, R351, R352) -/

theorem statReplies_canonical {n : Nat} (h : Canonical s) : Canonical (statReplies s n) := by
  unfold statReplies
  exact canonical_foldl h fun _ _ h1 => setCtx_canonical (canonical_foldl h1 fun _ _ h2 => enqueue_canonical h2)

/-! ## Moving cores (08_cluster, R241; 12_package_launch, R338, R339) -/

theorem restoredCore_canonical {c sv : Core} (hc : CoreCanonical c) (hcsv : CoreCanonical sv) :
    CoreCanonical (restoredCore c sv) := by
  unfold restoredCore
  exact { hcsv with routes := hc.routes }
theorem renameCore_canonical {k j : Nat} (h : Canonical s) : Canonical (renameCore s k j) := by
  unfold renameCore
  exact setCluster_canonical (updateDie_canonical h fun hd => { hd with })
theorem retireCore_canonical {x y j : Nat} (h : Canonical s) : Canonical (retireCore s x y j) := by
  unfold retireCore
  extract_lets bind t
  have ht : Canonical t := countPkg_canonical h
  split
  · exact rebind_canonical ht
  · extract_lets old names u _ v w
    have hold : CoreCanonical old := coreOf_canonical ht
    have hu : Canonical u := updateCore_canonical ht fun hc => restoredCore_canonical hc hold
    have hv : Canonical v := setCore_canonical hu { emptyCore_canonical hold with mem := memWf_nil }
    have hw : Canonical w := renameCore_canonical (canonical_foldl hv fun _ _ h => rebind_canonical h)
    exact { hw with region := forall_map hw.region fun _ hr => { hr with check := List.forall_mem_map.mpr hr.check } }
theorem endRetire_canonical {refused : Bool} (h : Canonical s) : Canonical (endRetire s refused) := by
  unfold endRetire
  exact { h with }
theorem runRetire_canonical {x y j : Nat} (h : Canonical s) : Canonical (runRetire s x y j) := by
  unfold runRetire
  exact canonical_ite (endRetire_canonical (retireCore_canonical h)) (endRetire_canonical h)
theorem retireNow_canonical {n : Nat} (h : Canonical s) : Canonical (retireNow s n) := by
  unfold retireNow
  split
  · exact runRetire_canonical (modRegion_canonical h fun _ hr => { hr with })
  · exact h
theorem foldedCore_canonical {ts : List Seat} {old : List SavedCore} {wins : List (Nat × List Byte)} {c : Core}
    (hc : CoreCanonical c) :
    CoreCanonical (foldedCore ts old wins c) := by
  unfold foldedCore
  exact { emptyCore_canonical hc with mem := memStore_wf rfl _, active := planeOf_wf, shadow := rfl }
theorem shrinkGang_canonical {n fold : Nat} (h : Canonical s) : Canonical (shrinkGang s n fold) := by
  unfold shrinkGang
  dsimp only
  split
  · exact h
  · refine countPkg_canonical ?_
    refine modRegion_canonical ?_ fun _ hr => { hr with }
    split
    · exact updateCore_canonical (canonical_foldl (canonical_foldl (foldMap_canonical h) fun _ _ h1 => updateCore_canonical h1
        fun hc => emptyCore_canonical hc) fun _ _ h1 => updateCore_canonical h1 fun hc => foldedCore_canonical hc) fun hc =>
        { hc with }
    · exact canonical_foldl (canonical_foldl (foldMap_canonical h) fun _ _ h1 => updateCore_canonical h1 fun hc =>
        emptyCore_canonical hc) fun _ _ h1 => updateCore_canonical h1 fun hc => foldedCore_canonical hc
theorem shrinkNow_canonical {n : Nat} (h : Canonical s) : Canonical (shrinkNow s n) := by
  unfold shrinkNow
  split
  · exact canonical_ite h (keepCheck_canonical (writeCheckpoints_canonical (shrinkGang_canonical h)))
  · exact h
theorem completeGbar_canonical {n : Nat} (h : Canonical s) : Canonical (completeGbar s n) := by
  unfold completeGbar
  exact wakeGang_canonical (beat_canonical (shrinkNow_canonical (retireNow_canonical (modRegion_canonical (mapGang_canonical
    (statReplies_canonical (modRegion_canonical (canonical_foldl (keepCheck_canonical (writeCheckpoints_canonical h))
    fun _ _ h1 => dropLines_canonical h1) fun _ hr => { hr with }))) fun _ hr => { hr with }))))
theorem execGbarCompletion_canonical (h : Canonical s) : NextCanonical (execGbarCompletion s) := by
  unfold execGbarCompletion
  exact nextCanonical_ite (.next (completeGbar_canonical h)) (nextCanonical_ite (.next (scheduleOnce_canonical h)) (.next h))

/-! ## Gang stop (R337) -/

theorem writeStopLog_canonical {n : Nat} (h : Canonical s) : Canonical (writeStopLog s n) := by
  unfold writeStopLog
  exact canonical_foldl h fun _ _ h1 => physHomeWrite_canonical h1
theorem writeUndoLog_canonical {n : Nat} (h : Canonical s) : Canonical (writeUndoLog s n) := by
  unfold writeUndoLog
  exact canonical_foldl h fun _ _ h1 => physHomeWrite_canonical h1
theorem beginStop_canonical {n : Nat} (h : Canonical s) : Canonical (beginStop s n) := by
  unfold beginStop
  exact schedule_canonical (writeStopLog_canonical (modRegion_canonical (freezeShared_canonical (dropSweep_canonical
    (mapCores_canonical (noteBeat_canonical h) fun _ hc => { hc with }))) fun _ hr => { hr with }))
theorem execGangStop_canonical (h : Canonical s) : NextCanonical (execGangStop s) := by
  unfold execGangStop
  refine nextCanonical_ite ?_ ?_
  · split
    · exact .next (schedule_canonical (modRegion_canonical (dropMsg_canonical h) fun _ hr => { hr with }))
    · exact .next (waitMsg_canonical h)
  · extract_lets n r t
    have ht : Canonical t := canonical_when h fun h => completeGbar_canonical h
    refine nextCanonical_ite (.next (beginStop_canonical (modRegion_canonical ht fun _ hr => { hr with }))) ?_
    refine nextCanonical_ite (.next (again_canonical ht)) (nextCanonical_ite (.next ht) ?_)
    exact .next (beginStop_canonical ht)
theorem scanToken_canonical {f : Flit} (h : Canonical s) : Canonical (scanToken s f) := by
  unfold scanToken
  split
  · split
    · refine enqueue_canonical ?_
      refine countReceived_canonical ?_
      split
      · exact tokenDone_canonical h
      · exact h
    · exact h
  · exact h
theorem scanNetwork_canonical {n : Nat} (h : Canonical s) : Canonical (scanNetwork s n) := by
  unfold scanNetwork
  exact modRegion_canonical (canonical_foldl (uncountFlits_canonical h).frame fun _ _ h1 => scanToken_canonical h1) fun _ hr =>
    { hr with }
theorem evictGang_canonical {n : Nat} (h : Canonical s) : Canonical (evictGang s n) := by
  unfold evictGang
  extract_lets r t ks saved u left v
  have ht : Canonical t := canonical_foldl h fun _ _ h => physHomeWrite_canonical h
  have hu : Canonical u := canonical_foldl ht fun _ _ h => updateCore_canonical h emptyCore_canonical
  have hv : Canonical v :=
    modRegion_canonical hu fun _ hr => { hr with saved := List.forall_mem_map.mpr fun _ _ => savedCore_canonical ht }
  exact canonical_ite (modRegion_canonical (unfoldMap_canonical hv) fun _ hr => { hr with }) hv
theorem execGangStopScanOut_canonical (h : Canonical s) : NextCanonical (execGangStopScanOut s) := by
  unfold execGangStopScanOut
  refine nextCanonical_ite (.next h) ?_
  refine nextCanonical_ite (.next (again_canonical h)) ?_
  refine nextCanonical_ite (.next (canonical_when (modRegion_canonical (canonical_foldl (writeUndoLog_canonical
    (scanNetwork_canonical h)) fun _ _ h1 => writeArea_canonical h1) fun _ hr => { hr with }) fun h1 => evictGang_canonical h1))
    ?_
  exact .next (schedule_canonical (canonical_when (modRegion_canonical (canonical_foldl (writeUndoLog_canonical
    (scanNetwork_canonical h)) fun _ _ h1 => writeArea_canonical h1) fun _ hr => { hr with }) fun h1 => evictGang_canonical h1))

/-! ## Resume (R337, R338; 07_core_failures, R215) -/

theorem restoreCore_canonical {n : Nat} {s : State} {c : SavedCore} (h : Canonical s) (hc : CoreCanonical c.state) :
    Canonical (restoreCore n s c) := by
  unfold restoreCore
  refine modRegion_canonical (updateCore_canonical h fun ho => restoredCore_canonical ho { hc with }) fun _ hr =>
    { hr with check := List.forall_mem_map.mpr fun v hv => ?_ }
  split
  · exact hr.check v hv
  · exact hr.check v hv
theorem readBack_canonical {n : Nat} {stood : List (Nat × Nat × W64 × List Nat)} (h : Canonical s) :
    Canonical (readBack s n stood) := by
  unfold readBack
  exact canonical_foldl h fun _ _ h1 => updateCore_canonical h1 fun hc => { areaCore_canonical hc with }
theorem copyBack_canonical {n : Nat} {seats : List Seat} (h : Canonical s) : Canonical (copyBack s n seats) := by
  unfold copyBack
  refine canonical_foldl h fun _ _ h1 => ?_
  split
  · exact updateCore_canonical h1 fun hc => { hc with mem := memStore_wf hc.mem _ }
  · exact h1
theorem replayHeld_canonical {n : Nat} (h : Canonical s) : Canonical (replayHeld s n) := by
  unfold replayHeld
  refine canonical_foldl h fun _ _ h1 => ?_
  refine canonical_foldl (updateCore_canonical h1 fun hc => { hc with }) fun _ _ h2 => ?_
  split
  · exact enqueue_canonical h2
  · exact h2
theorem resumeBeat_canonical {n : Nat} (h : Canonical s) : Canonical (resumeBeat s n) := by
  unfold resumeBeat
  exact modRegion_canonical h fun _ hr => { hr with }
theorem restoreGang_canonical {n : Nat} (h : Canonical s) : Canonical (restoreGang s n) := by
  have hr := regionOf_canonical (n := n) h
  unfold restoreGang
  extract_lets r t u _
  have ht : Canonical t := modRegion_canonical h fun _ hr => { hr with saved := List.forall_mem_nil _ }
  have hu : Canonical u := List.foldlRecOn _ _ ht fun _ h v hv => restoreCore_canonical h (hr.saved v hv)
  have hm : Canonical (if r.saved.isEmpty || !r.cores.isEmpty then (u, r.unfold) else foldMap u r.fold r.seats).1 :=
    canonical_fst_ite hu (foldMap_canonical hu)
  split
  extract_lets v w x y z
  have hv : Canonical v := modRegion_canonical (canonical_of_eq_fst hm ‹_›) fun _ hr => { hr with }
  have hy : Canonical y := replayHeld_canonical (mapGang_canonical (readBack_canonical (copyBack_canonical hv)))
  have hz : Canonical z := by
    unfold z
    split
    · exact restoreShared_canonical hy
    · exact hy
  refine canonical_foldl hz fun _ _ h => ?_
  split
  · exact sendFlit_canonical h
  · exact sendFlit_canonical h
theorem execPreemptDeadline_canonical (h : Canonical s) : NextCanonical (execPreemptDeadline s) := by
  unfold execPreemptDeadline
  dsimp only
  split
  · refine nextCanonical_ite (.next h) ?_
    refine nextCanonical_ite (.next (schedule_canonical h)) ?_
    exact .next (schedule_canonical (countPkg_canonical (modRegion_canonical h fun _ hr => { hr with })))
  · exact .next h

/-! ## Retirement (R339) -/

theorem execPkgRetireGo_canonical (h : Canonical s) : NextCanonical (execPkgRetireGo s) := by
  unfold execPkgRetireGo
  refine nextCanonical_ite (.next h) ?_
  refine nextCanonical_ite (.next (endRetire_canonical { h with })) ?_
  dsimp only
  split
  · exact .next (modRegion_canonical { h with } fun _ hr => { hr with })
  · exact .next (runRetire_canonical { h with })

/-! ## Rollback (R342) -/

theorem undoBlocks_canonical {n : Nat} (h : Canonical s) : Canonical (undoBlocks s n) := by
  unfold undoBlocks
  refine canonical_foldl h fun _ _ h => canonical_foldl h fun _ _ h => updateCore_canonical h fun hc => { hc with mem := ?_ }
  dsimp only
  exact memStore_wf hc.mem _
theorem rolledCore_canonical {gave : Nat → W64 × List Token} {c : Core} {v : SavedCore} (hc : CoreCanonical c) :
    CoreCanonical (rolledCore s gave c v) := by
  unfold rolledCore
  extract_lets at_ d
  have hd : CoreCanonical d := areaCore_canonical { hc with }
  exact { hd with }
theorem resetCredits_canonical {n : Nat} (h : Canonical s) : Canonical (resetCredits s n) := by
  unfold resetCredits
  exact canonical_foldl h fun _ _ h1 => setCtx_canonical h1
theorem rollGroups_canonical {n : Nat} {h : SavedShared} (hs : Canonical s) : Canonical (rollGroups s n h) := by
  unfold rollGroups
  exact canonical_foldl (canonical_foldl (uncountFlits_canonical hs).frame fun _ _ h => setGroup_canonical h) fun _ _ h =>
    setBranch_canonical h
theorem rollShared_canonical {h : SavedShared} (hs : Canonical s) : Canonical (rollShared s h) := by
  unfold rollShared
  exact restoreShared_canonical hs
theorem openLost_canonical {n : Nat} (h : Canonical s) : Canonical (openLost s n) := by
  unfold openLost
  exact canonical_foldl h fun _ _ h1 => canonical_ite (openCluster_canonical h1) h1
theorem runRollback_canonical {n : Nat} {code : BitVec 8} (h : Canonical s) : Canonical (runRollback s n code) := by
  unfold runRollback
  extract_lets pf t r gave u v w x y z
  have hu : Canonical u := canonical_foldl (undoBlocks_canonical (dropTraffic_canonical h)) fun _ _ h =>
    updateCore_canonical h fun hc => rolledCore_canonical hc
  have hv : Canonical v := resetCredits_canonical hu
  have hw : Canonical w := by
    unfold w
    split
    · exact rollShared_canonical (rollGroups_canonical hv)
    · exact hv
  have hx : Canonical x := canonical_ite (countXl_canonical hw) (countPkg_canonical hw)
  have hz : Canonical z := openLost_canonical (modRegion_canonical hx fun _ hr => { hr with })
  exact canonical_ite (runGang_canonical hz) (modRegion_canonical (noteBeat_canonical hz) fun _ hr => { hr with })
theorem escalate_canonical {n : Nat} {code : BitVec 8} (h : Canonical s) : Canonical (escalate s n code) := by
  unfold escalate
  exact faultQueue_canonical (complete_canonical (countPkg_canonical (beginStop_canonical (modRegion_canonical h fun _ hr =>
    { hr with }))))
theorem execRollback_canonical (h : Canonical s) : NextCanonical (execRollback s) := by
  unfold execRollback
  dsimp only
  split
  · exact .next h
  · refine nextCanonical_ite (.next (runRollback_canonical h)) ?_
    refine nextCanonical_ite (.next h) ?_
    refine nextCanonical_ite (.next (updateRegion_canonical h fun hr => { hr with })) ?_
    refine nextCanonical_ite (.next (escalate_canonical (modRegion_canonical h fun _ hr => { hr with }))) ?_
    exact .next (schedule_canonical (modRegion_canonical (writeUndoLog_canonical (writeStopLog_canonical (dropSweep_canonical
      (mapCores_canonical h fun _ hc => { hc with })))) fun _ hr => { hr with }))

/-! ## Duplicate placements (R343) -/

theorem execComparatorMismatch_canonical (h : Canonical s) : NextCanonical (execComparatorMismatch s) := by
  unfold execComparatorMismatch
  exact .next (consumeError_canonical (countPkg_canonical h))
theorem execComparatorTimeout_canonical (h : Canonical s) : NextCanonical (execComparatorTimeout s) := by
  unfold execComparatorTimeout
  exact nextCanonical_ite (.next (consumeError_canonical (countPkg_canonical h))) (.next h)

end

end Sys2Proof.Machine
end

