-- ==== Sys2Proof/Proofs/CanonicalHost.lean ====
section
/-! PROOF. Every memory stays in its canonical form:
the queues and the host's unit.
One lemma for each operation of the model, in the model's order. -/
namespace Sys2Proof.Machine

section
variable {s : State}

/-! ## Fetching (R322, R323) -/

theorem pokeQueues_canonical (h : Canonical s) : Canonical (pokeQueues s) := by
  unfold pokeQueues
  exact scheduleOnce_canonical h
theorem pokeFetch_canonical {q : Nat} (h : Canonical s) : Canonical (pokeFetch s q) := by
  unfold pokeFetch
  exact scheduleOnce_canonical h
theorem writeCpla_canonical {q : Nat} (h : Canonical s) : Canonical (writeCpla s q) := by
  unfold writeCpla
  dsimp only
  split
  · exact h
  · refine canonical_ite h ?_
    split
    · refine canonical_ite (undeny_canonical (canonical_of_eq (queueWrite_canonical h) ‹_›)) ?_
      exact scheduleOnce_canonical (requestPage_canonical (canonical_of_eq (queueWrite_canonical h) ‹_›))
    · exact scheduleOnce_canonical (canonical_of_eq (queueWrite_canonical h) ‹_›)
    · exact canonical_of_eq (queueWrite_canonical h) ‹_›
theorem execQueueKick_canonical (h : Canonical s) : NextCanonical (execQueueKick s) := by
  unfold execQueueKick
  refine nextCanonical_ite (.next (again_canonical h)) ?_
  refine nextCanonical_ite (.next h) ?_
  exact nextCanonical_ite (.next (countPkg_canonical h)) (.next (pokeFetch_canonical (setQueue_canonical h)))
theorem execQueueEnable_canonical (h : Canonical s) : NextCanonical (execQueueEnable s) := by
  unfold execQueueEnable
  refine nextCanonical_ite (.next (again_canonical h)) ?_
  exact nextCanonical_ite (.next h) (.next (canonical_unless (setQueue_canonical h) fun h1 => writeCpla_canonical h1))
theorem offWhenIdle_canonical {q : Nat} (h : Canonical s) : Canonical (offWhenIdle s q) := by
  unfold offWhenIdle
  exact canonical_ite (setQueue_canonical h) h
theorem freeUndispatched_canonical {q : Nat} (h : Canonical s) : Canonical (freeUndispatched s q) := by
  unfold freeUndispatched
  exact canonical_foldl h fun _ _ h1 => freeRegion_canonical h1
theorem execQueueOff_canonical (h : Canonical s) : NextCanonical (execQueueOff s) := by
  unfold execQueueOff
  refine nextCanonical_ite (.next (again_canonical h)) ?_
  exact .next (offWhenIdle_canonical (setQueue_canonical (freeUndispatched_canonical h)))
theorem fetchPacket_canonical {q : Nat} {op : Instr} (h : Canonical s) : Canonical (fetchPacket s q op) := by
  unfold fetchPacket
  dsimp only
  split
  · exact faultQueue_canonical h
  · split
    · have ht := canonical_of_eq (queueRead_canonical h) ‹_›
      refine canonical_ite (pokeQueues_canonical (pokeFetch_canonical (setQueue_canonical ht))) ?_
      refine canonical_ite (canonical_ite ?_ ?_) (schedule_canonical (setQueue_canonical ht))
      · exact pokeFetch_canonical (countPkg_canonical (setQueue_canonical ht))
      · exact countPkg_canonical (setQueue_canonical ht)
    · exact schedule_canonical (canonical_of_eq (queueRead_canonical h) ‹_›)
    · exact faultQueue_canonical (canonical_of_eq (queueRead_canonical h) ‹_›)
    · exact faultQueue_canonical (canonical_of_eq (queueRead_canonical h) ‹_›)
theorem execPacketFetch_canonical (h : Canonical s) : NextCanonical (execPacketFetch s) := by
  unfold execPacketFetch
  exact nextCanonical_ite (.next (writeCpla_canonical h)) (nextCanonical_ite (.next (fetchPacket_canonical h)) (.next h))
theorem execPacketRefetch_canonical (h : Canonical s) : NextCanonical (execPacketRefetch s) := by
  unfold execPacketRefetch
  exact nextCanonical_ite (.next h) (nextCanonical_ite (.next (fetchPacket_canonical h)) (.next (setQueue_canonical h)))

/-! ## The RECORD log (R344) -/

theorem rangeBytes_canonical {q at_ n : Nat} (h : Canonical s) : Canonical (rangeBytes s q at_ n).2 := by
  unfold rangeBytes
  refine canonical_snd_ite h ?_
  split
  · exact queueRead_canonical h
  · exact h
theorem rangeDigest_canonical {q at_ n : Nat} (h : Canonical s) : Canonical (rangeDigest s q at_ n).2 := by
  unfold rangeDigest
  split
  · exact canonical_of_eq (rangeBytes_canonical h) ‹_›
  · exact rangeBytes_canonical h
theorem logDigests_canonical {q : Nat} {p : Packet} (h : Canonical s) : Canonical (logDigests s q p).2 := by
  unfold logDigests
  refine canonical_snd_ite h ?_
  split
  · have ht := canonical_of_eq (rangeDigest_canonical h) ‹_›
    split
    · refine canonical_of_eq ?_ ‹_›
      exact canonical_snd_ite ht (rangeDigest_canonical ht)
    · exact canonical_snd_ite ht (rangeDigest_canonical ht)
  · exact rangeDigest_canonical h
theorem logPacket_canonical {q : Nat} {p : Packet} (h : Canonical s) : Canonical (logPacket s q p).2 := by
  unfold logPacket
  refine canonical_snd_ite h ?_
  split
  · exact h
  · split
    · dsimp only
      split
      · exact modPacket_canonical (setQueue_canonical (canonical_of_eq (queueWrite_canonical (canonical_of_eq
          (logDigests_canonical h) ‹_›)) ‹_›))
      · exact queueWrite_canonical (canonical_of_eq (logDigests_canonical h) ‹_›)
    · exact logDigests_canonical h
theorem startLog_canonical {q : Nat} (h : Canonical s) : Canonical (startLog s q) := by
  unfold startLog
  split
  · split
    · exact canonical_ite h (requestPage_canonical h)
    · exact h
  · exact h
theorem logCompletion_canonical {q : Nat} {p : Packet} {st code : Nat} (h : Canonical s) :
    Canonical (logCompletion s q p st code).2 := by
  unfold logCompletion
  split
  · exact queueWrite_canonical h
  · exact h

/-! ## What a head packet needs begun; ageing (R326, R327) -/

theorem startHead_canonical {q : Nat} (h : Canonical s) : Canonical (startHead s q) := by
  unfold startHead
  refine canonical_ite h ?_
  split
  · exact canonical_ite h (canonical_ite (scheduleOnce_canonical h) (canonical_ite (scheduleOnce_canonical h) h))
  · exact h
theorem beginWait_canonical {q : Nat} (h : Canonical s) : Canonical (beginWait s q) := by
  unfold beginWait
  refine canonical_ite (canonical_ite h (setQueue_canonical h)) ?_
  exact canonical_ite (canonical_unless (setQueue_canonical h) fun h1 => scheduleOnce_canonical h1) h
theorem execAgeRise_canonical (h : Canonical s) : NextCanonical (execAgeRise s) := by
  unfold execAgeRise
  refine nextCanonical_ite (.next h) ?_
  refine nextCanonical_ite (.next (setQueue_canonical h)) ?_
  refine nextCanonical_ite (.next (schedule_canonical h)) ?_
  exact nextCanonical_ite (.next h) (.next (schedule_canonical (countPkg_canonical (setQueue_canonical h))))

/-! ## Selection (R327) -/

theorem visit_canonical {q : Nat} (h : Canonical s) : Canonical (visit s q) := by
  unfold visit
  exact { h with }

/-! ## A stopped gang returns (R338) -/

theorem execGangResume_canonical (h : Canonical s) : NextCanonical (execGangResume s) := by
  unfold execGangResume
  refine nextCanonical_ite (.next h) ?_
  refine nextCanonical_ite (.next (schedule_canonical h)) ?_
  refine nextCanonical_ite (.next (schedule_canonical (modRegion_canonical (resumeBeat_canonical (restoreGang_canonical h))
    fun _ hr => { hr with }))) ?_
  exact .next (runGang_canonical (resumeBeat_canonical (restoreGang_canonical h)))

/-! ## Dispatch (R326) -/

theorem acceptPortCmd_canonical {port : Nat} {j : PortCmd} (h : Canonical s) : Canonical (acceptPortCmd s port j) := by
  unfold acceptPortCmd
  exact schedule_canonical (setPort_canonical h)
theorem startPacket_canonical {q : Nat} {p : Packet} (h : Canonical s) : Canonical (startPacket s q p) := by
  unfold startPacket
  refine canonical_ite (complete_canonical h) ?_
  refine canonical_ite (complete_canonical h) ?_
  split
  · split
    · split
      · exact startRegion_canonical h
      · exact h
    · exact schedule_canonical h
    · exact schedule_canonical h
  · exact schedule_canonical h
  · exact complete_canonical h
  · exact schedule_canonical h
  · exact schedule_canonical h
  · exact schedule_canonical h
  · exact schedule_canonical h
  · exact acceptPortCmd_canonical h
  · exact schedule_canonical h
  · exact schedule_canonical h
  · exact schedule_canonical h
theorem execPacketDispatch_canonical (h : Canonical s) : NextCanonical (execPacketDispatch s) := by
  unfold execPacketDispatch
  extract_lets qs t u left
  have ht : Canonical t := canonical_foldl (canonical_foldl (canonical_foldl h fun _ _ h => startHead_canonical h)
    fun _ _ h => startLog_canonical h) fun _ _ h => beginWait_canonical h
  have hu : Canonical u := by
    unfold u
    split
    · split
      · refine pokeQueues_canonical (pokeFetch_canonical ?_)
        split
        · exact startPacket_canonical (canonical_of_eq (logPacket_canonical (modPacket_canonical (setQueue_canonical
            (visit_canonical ht)))) ‹_›)
        · exact stopPacket_canonical (canonical_of_eq (logPacket_canonical (modPacket_canonical (setQueue_canonical
            (visit_canonical ht)))) ‹_›)
      · exact ht
    · exact ht
  exact nextCanonical_ite (.next (scheduleOnce_canonical hu)) (.next hu)

/-! ## Completion (R324, R328) -/

theorem closeWhenIdle_canonical {q : Nat} (h : Canonical s) : Canonical (closeWhenIdle s q) := by
  unfold closeWhenIdle
  exact canonical_ite (canonical_foldl (setQueue_canonical h) fun _ _ h1 => complete_canonical h1) h
theorem freeEnded_canonical {q : Nat} {idx : W16} (h : Canonical s) : Canonical (freeEnded s q idx) := by
  unfold freeEnded
  refine { h with region := forall_map h.region fun _ hr => ?_ }
  split
  · exact freedRegion_canonical
  · exact hr
theorem askPage_canonical {q idx : Nat} {f : Fetched} (h : Canonical s) : Canonical (askPage s q idx f) := by
  unfold askPage
  split
  · exact requestPage_canonical h
  · exact h
theorem execPacketCompletion_canonical (h : Canonical s) : NextCanonical (execPacketCompletion s) := by
  unfold execPacketCompletion
  dsimp only
  split
  · exact .next h
  · split
    · exact .next (again_canonical h)
    · refine nextCanonical_ite (.next (schedule_canonical (askPage_canonical h))) ?_
      split
      · exact .next (again_canonical h)
      · refine .next ?_
        refine pokeQueues_canonical ?_
        refine pokeFetch_canonical ?_
        refine canonical_unless ?_ fun h1 => faultQueue_canonical h1
        refine closeWhenIdle_canonical ?_
        refine offWhenIdle_canonical ?_
        refine freeEnded_canonical ?_
        refine canonical_unless ?_ fun h1 => writeCpla_canonical h1
        refine setQueue_canonical ?_
        refine canonical_when ?_ fun h1 => queueMsix_canonical h1
        refine modPacket_canonical ?_
        refine canonical_of_eq ?_ ‹_›
        split
        · exact queueWrite_canonical (undeny_canonical (canonical_of_eq (logCompletion_canonical h) ‹_›))
        · exact undeny_canonical (canonical_of_eq (logCompletion_canonical h) ‹_›)

/-! ## LAUNCH (R325, R331, R335) -/

theorem launchImage_canonical {q : Nat} {p : Packet} (h : Canonical s) : Canonical (launchImage s q p).2 := by
  unfold launchImage
  dsimp only
  split
  · exact queueRead_canonical h
  · exact h
theorem settleHead_canonical {q idx st code : Nat} (h : Canonical s) : Canonical (settleHead s q idx st code) := by
  unfold settleHead
  exact pokeQueues_canonical (modPacket_canonical h)
theorem stopHead_canonical {q idx : Nat} {op : Instr} {f : Fetched} (h : Canonical s) : Canonical (stopHead s q idx op f) := by
  unfold stopHead
  split
  · exact canonical_ite (settleHead_canonical (undeny_canonical h)) (schedule_canonical (requestPage_canonical h))
  · exact schedule_canonical h
  · exact settleHead_canonical h
  · exact settleHead_canonical h
theorem execLaunch_canonical (h : Canonical s) : NextCanonical (execLaunch s) := by
  unfold execLaunch
  dsimp only
  split
  · refine nextCanonical_ite (.next h) ?_
    split
    · split
      · exact .next (settleHead_canonical (canonical_of_eq (launchImage_canonical h) ‹_›))
      · exact .next (scheduleOnce_canonical (canonical_of_eq (launchImage_canonical h) ‹_›))
    · exact .next (stopHead_canonical (canonical_of_eq (launchImage_canonical h) ‹_›))
  · exact .next h

/-! ## The allocator (R331, R338) -/

theorem measure_canonical {n : Nat} {digest : BitVec 256} (h : Canonical s) : Canonical (measure s n digest) := by
  unfold measure
  exact { h with }
theorem placeRegion_canonical {q : Nat} {idx : W16} {img : Image} {dup : Bool} {p : Placement} {a b : Nat × Nat}
    {ts : List Seat} {plan : List (Nat × W64 × W64)} {n : Nat} {digest : BitVec 256} (h : Canonical s) :
    Canonical (placeRegion s q idx img dup p a b ts plan n digest) := by
  unfold placeRegion
  refine modPacket_canonical (swapIn_canonical (loadShadow_canonical (modRegion_canonical (foldMap_canonical (measure_canonical
    h.frame)) fun _ _ => ?_)))
  exact { freedRegion_canonical (r := regionOf s n) with }
theorem preempt_canonical {q need : Nat} (h : Canonical s) : Canonical (preempt s q need) := by
  unfold preempt
  refine canonical_ite h ?_
  split
  · exact h
  · dsimp only
    split
    · exact schedule_canonical (updateRegion_canonical h fun hr => { hr with })
    · exact schedule_canonical (countPkg_canonical (updateRegion_canonical h fun hr => { hr with }))
theorem execPlacement_canonical (h : Canonical s) : NextCanonical (execPlacement s) := by
  unfold execPlacement
  extract_lets q x later
  split
  · refine nextCanonical_ite (.next h) ?_
    split
    · have ht := canonical_of_eq (launchImage_canonical h) ‹_›
      extract_lets img dup _
      have hl (u : State) (hu : Canonical u) : Canonical (later u) := schedule_canonical hu
      split
      · exact .next (settleHead_canonical ht)
      · exact .next (hl _ ht)
      · split
        · exact .next (hl _ (preempt_canonical ht))
        · extract_lets
          split
          · exact .next (hl _ ht)
          · split
            · exact .next (hl _ ht)
            · refine nextCanonical_ite (.next (pokeQueues_canonical (placeRegion_canonical ht))) ?_
              exact .next (settleHead_canonical ht)
    · exact .next (schedule_canonical (canonical_of_eq (launchImage_canonical h) ‹_›))
  · exact .next h

/-! ## Shadow loads (R335) -/

theorem loadNext_canonical {op : Instr} {mode : Nat} (h : Canonical s) : Canonical (loadNext s op mode) := by
  unfold loadNext
  dsimp only
  split
  · split
    · have ht := canonical_of_eq (launchImage_canonical h) ‹_›
      split
      · exact complete_canonical ht
      · exact complete_canonical ht
      · refine canonical_ite (complete_canonical ht) (canonical_ite (again_canonical ht) ?_)
        split
        · exact schedule_canonical ht
        · split
          · exact schedule_canonical ht
          · refine canonical_ite (complete_canonical ht) (schedule_canonical ?_)
            exact modRegion_canonical (measure_canonical ht) fun _ hr => { hr with }
    · exact stopPacket_canonical (canonical_of_eq (launchImage_canonical h) ‹_›)
  · exact h
theorem execLaunchSwapAtQuiescence_canonical (h : Canonical s) : NextCanonical (execLaunchSwapAtQuiescence s) := by
  unfold execLaunchSwapAtQuiescence
  exact .next (loadNext_canonical h)
theorem execLaunchSwapAtCfgswap_canonical (h : Canonical s) : NextCanonical (execLaunchSwapAtCfgswap s) := by
  unfold execLaunchSwapAtCfgswap
  exact .next (loadNext_canonical h)
theorem execShadowLoadEnd_canonical (h : Canonical s) : NextCanonical (execShadowLoadEnd s) := by
  unfold execShadowLoadEnd
  dsimp only
  split
  · refine nextCanonical_ite (.next h) ?_
    refine nextCanonical_ite (.next (schedule_canonical h)) ?_
    exact .next (modRegion_canonical (loadShadow_canonical h) fun _ hr => { hr with })
  · exact .next h

/-! ## COPY, WAIT and SIGNAL (R325) -/

theorem execCopy_canonical (h : Canonical s) : NextCanonical (execCopy s) := by
  unfold execCopy
  dsimp only
  split
  · refine nextCanonical_ite (.next (complete_canonical h)) ?_
    split
    · split
      · split
        · exact .next (schedule_canonical (modPacket_canonical (canonical_of_eq (queueWrite_canonical (canonical_of_eq
            (queueRead_canonical h) ‹_›)) ‹_›)))
        · exact .next (stopPacket_canonical (canonical_of_eq (queueWrite_canonical (canonical_of_eq (queueRead_canonical h)
            ‹_›)) ‹_›))
      · exact .next (stopPacket_canonical (canonical_of_eq (queueRead_canonical h) ‹_›))
    · exact .next (complete_canonical h)
  · exact .next h
theorem execWait_canonical (h : Canonical s) : NextCanonical (execWait s) := by
  unfold execWait
  dsimp only
  split
  · exact nextCanonical_ite (.next (canonical_ite (pokeQueues_canonical h) h)) (.next (scheduleOnce_canonical h))
  · exact .next h
theorem execWaitPoll_canonical (h : Canonical s) : NextCanonical (execWaitPoll s) := by
  unfold execWaitPoll
  dsimp only
  split
  · split
    · split
      · exact .next (schedule_canonical (canonical_when (modPacket_canonical (canonical_of_eq (queueRead_canonical h) ‹_›))
          (fun h1 => pokeQueues_canonical h1)))
      · exact .next (stopHead_canonical (canonical_of_eq (queueRead_canonical h) ‹_›))
    · exact .next h
  · exact .next h
theorem execSignal_canonical (h : Canonical s) : NextCanonical (execSignal s) := by
  unfold execSignal
  dsimp only
  split
  · refine nextCanonical_ite (.next (again_canonical h)) ?_
    split
    · split
      · exact .next (complete_canonical (canonical_ite (queueMsix_canonical (canonical_of_eq (queueWrite_canonical h) ‹_›))
          (canonical_of_eq (queueWrite_canonical h) ‹_›)))
      · exact .next (stopPacket_canonical (canonical_of_eq (queueWrite_canonical h) ‹_›))
    · exact .next (complete_canonical h)
  · exact .next h

/-! ## GROUPLOAD and RESERVOIR_LOAD (R325) -/

theorem execGroupload_canonical (h : Canonical s) : NextCanonical (execGroupload s) := by
  unfold execGroupload
  dsimp only
  split
  · split
    · refine nextCanonical_ite ?_ ?_
      · split
        · refine nextCanonical_ite (.next (again_canonical (canonical_of_eq (queueRead_canonical h) ‹_›))) ?_
          exact .next (complete_canonical (canonical_of_eq (queueRead_canonical h) ‹_›))
        · exact .next (stopPacket_canonical (canonical_of_eq (queueRead_canonical h) ‹_›))
      · split
        · exact .next (schedule_canonical (modPacket_canonical (writeGroup_canonical (writeGroup_canonical (canonical_of_eq
            (queueRead_canonical h) ‹_›)))))
        · exact .next (stopPacket_canonical (canonical_of_eq (queueRead_canonical h) ‹_›))
    · exact .next (complete_canonical h)
  · exact .next h
theorem execReservoirLoad_canonical (h : Canonical s) : NextCanonical (execReservoirLoad s) := by
  unfold execReservoirLoad
  dsimp only
  split
  · refine nextCanonical_ite (.next (again_canonical h)) ?_
    refine nextCanonical_ite (.next (complete_canonical h)) ?_
    split
    · refine nextCanonical_ite (.next (putOff_canonical h)) ?_
      split
      · exact .next (complete_canonical (pinnedWrite_canonical (canonical_of_eq (queueRead_canonical h) ‹_›)))
      · exact .next (stopPacket_canonical (canonical_of_eq (queueRead_canonical h) ‹_›))
    · exact .next (complete_canonical h)
  · exact .next h

/-! ## DESTROY, RECORD and PWR (R325, R328, R344; 14_package_host, R382) -/

theorem closeQueue_canonical {t q : Nat} {idx : W16} {force : Bool} (h : Canonical s) :
    Canonical (closeQueue s t q idx force) := by
  unfold closeQueue
  exact closeWhenIdle_canonical (setQueue_canonical (freeUndispatched_canonical h))
theorem execDestroy_canonical (h : Canonical s) : NextCanonical (execDestroy s) := by
  unfold execDestroy
  dsimp only
  split
  · exact nextCanonical_ite (.next (complete_canonical h)) (.next (closeQueue_canonical h))
  · exact .next h
theorem killRegion_canonical {n : Nat} (h : Canonical s) : Canonical (killRegion s n) := by
  unfold killRegion
  refine freeRegion_canonical ?_
  refine dropTraffic_canonical ?_
  split
  · exact canonical_ite h (complete_canonical h)
  · exact h
theorem execDestroyForce_canonical (h : Canonical s) : NextCanonical (execDestroyForce s) := by
  unfold execDestroyForce
  extract_lets q idx
  split
  · refine nextCanonical_ite (.next (complete_canonical h)) ?_
    extract_lets t mine u unload v open_ w
    have hu : Canonical u := canonical_foldl (freeUndispatched_canonical h) fun _ _ h => killRegion_canonical h
    have hunload (e : Nat × Region) (hr : RegionCanonical e.2) : RegionCanonical (unload e).2 := by
      unfold unload
      split
      · split
        · exact { hr with }
        · exact hr
      · exact hr
    have hv : Canonical v := { hu with region := forall_map hu.region hunload }
    exact .next (closeQueue_canonical (canonical_foldl hv fun _ _ h => complete_canonical h))
  · exact .next h
theorem execRecord_canonical (h : Canonical s) : NextCanonical (execRecord s) := by
  unfold execRecord
  dsimp only
  split
  · exact .next (complete_canonical (setQueue_canonical h))
  · exact .next h
theorem awaitPower_canonical {q : Nat} {idx : W16} (h : Canonical s) : Canonical (awaitPower s q idx) := by
  unfold awaitPower
  exact { h with }
theorem execPwrSetCap_canonical (h : Canonical s) : NextCanonical (execPwrSetCap s) := by
  unfold execPwrSetCap
  split
  · exact .next (awaitPower_canonical { h with })
  · exact .next h
theorem execPwrSetFloor_canonical (h : Canonical s) : NextCanonical (execPwrSetFloor s) := by
  unfold execPwrSetFloor
  split
  · exact .next (awaitPower_canonical { h with })
  · exact .next h

/-! ## Events (R375, R376) -/

theorem putEvent_canonical {e : HostEvent} {rest : List HostEvent} {tag : Nat} (h : Canonical s) :
    Canonical (putEvent s e rest tag) := by
  unfold putEvent
  extract_lets t
  have ht : Canonical t := countHeld_canonical h
  exact sendMsix_canonical (ht.frame_host (memStore_wf ht.host _))
theorem execEventWrite_canonical (h : Canonical s) : NextCanonical (execEventWrite s) := by
  unfold execEventWrite
  dsimp only
  split
  · exact .next h
  · refine nextCanonical_ite (.next h) ?_
    split
    · refine nextCanonical_ite (.next (schedule_canonical (canonical_ite { h with } h))) ?_
      exact .next (canonical_unless (canonical_when (putEvent_canonical (canonical_ite { h with } h)) fun h1 =>
        grantTags_canonical h1) fun h1 => schedule_canonical h1)
    · exact .next (schedule_canonical (canonical_ite { h with } h))
theorem releaseTag_canonical {tag : Nat} (h : Canonical s) : Canonical (releaseTag s tag) := by
  unfold releaseTag
  exact schedule_canonical (grantTags_canonical { h with })
theorem execPkgEvreplyWrite_canonical (h : Canonical s) : NextCanonical (execPkgEvreplyWrite s) := by
  unfold execPkgEvreplyWrite
  dsimp only
  split
  · split
    · exact .next (releaseTag_canonical (deliver_canonical h))
    · exact .next (again_canonical h)
    · exact .next (releaseTag_canonical h)
  · exact .next { h with }

/-! ## Watchdog (R380) -/

theorem execWatchdogDead_canonical (h : Canonical s) : NextCanonical (execWatchdogDead s) := by
  unfold execWatchdogDead
  refine nextCanonical_ite (.next (noteBeat_canonical h)) ?_
  refine nextCanonical_ite (.next (hostEvent_canonical (updateRegion_canonical (noteBeat_canonical h) fun hr => { hr with })))
    ?_
  exact .next (schedule_canonical (noteBeat_canonical h))
theorem execWatchdogSlow_canonical (h : Canonical s) : NextCanonical (execWatchdogSlow s) := by
  unfold execWatchdogSlow
  refine nextCanonical_ite (.next h) ?_
  refine nextCanonical_ite (.next (hostEvent_canonical (updateRegion_canonical h fun hr => { hr with }))) ?_
  exact .next (schedule_canonical h)

/-! ## Power (R381, R382) -/

theorem setCeiling_canonical {f : Nat} {s : State} {p : Nat × Nat} (h : Canonical s) : Canonical (setCeiling f s p) := by
  unfold setCeiling
  exact canonical_when (canonical_ite h (requestVf_canonical (setVf_canonical h))) fun h1 => schedule_canonical h1
theorem execPowerManagerUpdate_canonical (h : Canonical s) : NextCanonical (execPowerManagerUpdate s) := by
  unfold execPowerManagerUpdate
  exact .next (schedule_canonical (canonical_foldl (canonical_foldl (takeFresh_canonical h) fun _ _ h1 => setCeiling_canonical
    h1).frame fun _ _ h1 => complete_canonical h1))

/-! ## Start-up (R378, R379; 12_package_launch, R329, R330; 10_die, R286, R287, R292) -/

theorem failBoot_canonical {code : Nat} (h : Canonical s) : Canonical (failBoot s code) := by
  unfold failBoot
  exact { h with }
theorem nextPhase_canonical {n : Nat} (h : Canonical s) : Canonical (nextPhase s n) := by
  unfold nextPhase
  exact schedule_canonical { h with }
theorem calibrate_canonical (h : Canonical s) : Canonical (calibrate s) := by
  unfold calibrate
  extract_lets dies t u
  have ht : Canonical t := canonical_foldl h fun _ _ h => updateDie_canonical h fun hd => { hd with }
  have hu : Canonical u := canonical_foldl ht fun _ _ h => setBands_canonical h
  clear_value u
  exact hu.frame
theorem zeroMemories_canonical (h : Canonical s) : Canonical (zeroMemories s) := by
  unfold zeroMemories
  exact { h with hbm := rfl, core := forall_map h.core (fun _ hc => { hc with mem := rfl, active := rfl, shadow := rfl }), die
    := forall_map h.die fun _ hd => { pinned := rfl } }
theorem execStartup_canonical (h : Canonical s) : NextCanonical (execStartup s) := by
  unfold execStartup
  refine nextCanonical_ite (.next h) ?_
  dsimp only
  split
  · exact .next (nextPhase_canonical { h with })
  · refine nextCanonical_ite (.next (failBoot_canonical (takeFresh_canonical h))) ?_
    exact .next (nextPhase_canonical (measure_canonical (takeFresh_canonical h)))
  · refine nextCanonical_ite (.next (failBoot_canonical (takeFresh_canonical h))) ?_
    refine nextCanonical_ite (.next (failBoot_canonical (takeFresh_canonical h))) ?_
    exact .next (nextPhase_canonical (measure_canonical (measure_canonical (calibrate_canonical (takeFresh_canonical h)))))
  · refine nextCanonical_ite (.next (failBoot_canonical (takeFresh_canonical h))) ?_
    exact .next (nextPhase_canonical (zeroMemories_canonical (takeFresh_canonical h)))
  · exact .next (canonical_foldl (schedule_canonical (sendMsix_canonical { h with })) fun _ _ h1 => schedule_canonical h1)

/-! ## Attestation and recovery (R384) -/

theorem clearGo_canonical (h : Canonical s) : Canonical (clearGo s) := by
  unfold clearGo
  exact { h with }
theorem execAttestReport_canonical (h : Canonical s) : NextCanonical (execAttestReport s) := by
  unfold execAttestReport
  refine nextCanonical_ite (.next h) ?_
  exact nextCanonical_ite (.next (again_canonical h)) (.next (clearGo_canonical (h.frame_host (memStore_wf h.host _))))
theorem execRecoveryFirmware_canonical (h : Canonical s) : NextCanonical (execRecoveryFirmware s) := by
  unfold execRecoveryFirmware
  refine nextCanonical_ite (.next h) ?_
  refine nextCanonical_ite (.next (again_canonical h)) ?_
  refine nextCanonical_ite (.next (nextPhase_canonical (measure_canonical (takeFresh_canonical (clearGo_canonical h)).frame)))
    ?_
  exact .next (takeFresh_canonical (clearGo_canonical h))

/-! ## Links and register writes -/

theorem execHostLinkDown_canonical (h : Canonical s) : NextCanonical (execHostLinkDown s) := by
  unfold execHostLinkDown
  exact .next { h with }
theorem execHostLinkUp_canonical (h : Canonical s) : NextCanonical (execHostLinkUp s) := by
  unfold execHostLinkUp
  exact .next { h with }
theorem execDieVfrWrite_canonical (h : Canonical s) : NextCanonical (execDieVfrWrite s) := by
  unfold execDieVfrWrite
  exact .next (writeVfr_canonical h)
theorem execCluRouteSwitchRequest_canonical (h : Canonical s) : NextCanonical (execCluRouteSwitchRequest s) := by
  unfold execCluRouteSwitchRequest
  exact .next (requestRouteSwitch_canonical h)
theorem execRegisterWrite_canonical (h : Canonical s) : NextCanonical (execRegisterWrite s) := by
  unfold execRegisterWrite
  dsimp only
  split
  · exact .next (writePkgBytes_canonical h)
  · exact nextCanonical_ite (.next (writeRegBytes_canonical h)) (.next h)
  · exact .next h

end

end Sys2Proof.Machine
end

