-- ==== Sys2Proof/Proofs/CanonicalFabric.lean ====
section
/-! PROOF. Every memory stays in its canonical form:
the fabric's links and units.
One lemma for each operation of the model, in the model's order. -/
namespace Sys2Proof.Machine

section
variable {s : State}

/-! ## Counters and flows (R396, R402) -/

theorem countFabric_canonical {n m : Nat} (h : Canonical s) : Canonical (countFabric s n m) := by
  unfold countFabric
  exact { h with }
theorem setFlow_canonical {x : Flow} (h : Canonical s) : Canonical (setFlow s x) := by
  unfold setFlow
  exact { h with }
theorem flowMore_canonical {fctl : Bool} {dst : Nat} (h : Canonical s) : Canonical (flowMore s fctl dst) := by
  unfold flowMore
  exact setFlow_canonical h
theorem flowLess_canonical {fctl : Bool} {dst : Nat} (h : Canonical s) : Canonical (flowLess s fctl dst) := by
  unfold flowLess
  exact canonical_when (setFlow_canonical h) fun h1 => schedule_canonical h1

/-! ## Flits (R388) -/

theorem modPort_canonical {port : Nat} {f : Port → Port} (h : Canonical s) : Canonical (modPort s port f) := by
  unfold modPort
  exact setPort_canonical h
theorem pokePort_canonical {port : Nat} (h : Canonical s) : Canonical (pokePort s port) := by
  unfold pokePort
  exact scheduleOnce_canonical h

/-! ## Sending (R388, R389) -/

theorem creditBack_canonical {k : FabPacket} (h : Canonical s) : Canonical (creditBack s k) := by
  unfold creditBack
  split
  · exact pokePort_canonical (modPort_canonical h)
  · exact h
theorem beginPacket_canonical {port : Nat} {k : FabPacket} (h : Canonical s) : Canonical (beginPacket s port k) := by
  unfold beginPacket
  refine canonical_ite (creditBack_canonical (countFabric_canonical (setPort_canonical (takeFresh_canonical h)))) ?_
  exact canonical_when (countFabric_canonical (setPort_canonical (takeFresh_canonical h))) fun h1 => flowLess_canonical h1
theorem fillFlit_canonical {port n : Nat} (h : Canonical s) : Canonical (fillFlit s port n) := by
  induction n generalizing s with
  | zero => exact h
  | succ n ih =>
    unfold fillFlit
    dsimp only
    split
    · exact h
    · split
      · exact ih (beginPacket_canonical h)
      · exact h
theorem sendIdle_canonical {port : Nat} (h : Canonical s) : Canonical (sendIdle s port) := by
  unfold sendIdle
  exact modPort_canonical h
theorem sendReplay_canonical {port : Nat} (h : Canonical s) : Canonical (sendReplay s port) := by
  unfold sendReplay
  exact countFabric_canonical (setPort_canonical h)
theorem sendData_canonical {port : Nat} (h : Canonical s) : Canonical (sendData s port) := by
  unfold sendData
  exact scheduleOnce_canonical (countFabric_canonical (setPort_canonical h))

/-! ## Port states and commands (R392, R393) -/

theorem endCmd_canonical {port st : Nat} (h : Canonical s) : Canonical (endCmd s port st) := by
  unfold endCmd
  extract_lets p
  split
  · exact h
  · extract_lets t mine _ _ u v
    have ht : Canonical t := setPort_canonical h
    have hu : Canonical u := by
      unfold u
      split
      · exact canonical_ite (schedule_canonical ht.frame) (complete_canonical ht)
      · exact ht
    have hv : Canonical v := by
      unfold v
      split
      · exact completeCommand_canonical hu
      · exact hu
    split
    · exact schedule_canonical hv
    · exact hv
theorem trainPort_canonical {port : Nat} {j : PortCmd} (h : Canonical s) : Canonical (trainPort s port j) := by
  unfold trainPort
  exact schedule_canonical (modPort_canonical h)
theorem darkPort_canonical {port : Nat} {j : PortCmd} (h : Canonical s) : Canonical (darkPort s port j) := by
  unfold darkPort
  exact schedule_canonical (modPort_canonical h)
theorem goDark_canonical {port : Nat} (h : Canonical s) : Canonical (goDark s port) := by
  unfold goDark
  dsimp only
  split
  · exact canonical_ite (darkPort_canonical (modPort_canonical h)) (endCmd_canonical (modPort_canonical h))
  · exact modPort_canonical h
theorem settlePort_canonical {port : Nat} (h : Canonical s) : Canonical (settlePort s port) := by
  unfold settlePort
  exact canonical_when (canonical_ite (schedule_canonical (setPort_canonical h)) h) fun h1 => goDark_canonical h1
theorem losePacket_canonical {counted : Bool} {s : State} {k : FabPacket} (h : Canonical s) :
    Canonical (losePacket counted s k) := by
  unfold losePacket
  refine canonical_ite (canonical_ite (creditBack_canonical h) h) ?_
  dsimp only
  split
  · exact consumeError_canonical (canonical_ite (flowLess_canonical h) h)
  · exact canonical_ite (flowLess_canonical h) h
theorem loseHeld_canonical {port : Nat} (h : Canonical s) : Canonical (loseHeld s port) := by
  unfold loseHeld
  exact canonical_foldl (canonical_foldl (setPort_canonical (countFabric_canonical h)) fun _ _ h1 => losePacket_canonical h1)
    fun _ _ h1 => losePacket_canonical h1
theorem failPort_canonical {port cause : Nat} (h : Canonical s) : Canonical (failPort s port cause) := by
  unfold failPort
  exact canonical_when (canonical_ite (countFabric_canonical (modPort_canonical (loseHeld_canonical h))) (canonical_when
    (modPort_canonical (loseHeld_canonical h)) fun h1 => countFabric_canonical h1)) fun h1 => endCmd_canonical h1
theorem beginCmd_canonical {port op : Nat} (h : Canonical s) : Canonical (beginCmd s port op) := by
  unfold beginCmd
  dsimp only
  split
  · exact h
  · refine canonical_ite h ?_
    split
    · exact canonical_ite (pokePort_canonical (settlePort_canonical (modPort_canonical h))) (endCmd_canonical h)
    · exact canonical_ite (trainPort_canonical h) (endCmd_canonical h)
    · exact canonical_unless (endCmd_canonical h) fun h1 => canonical_ite (pokePort_canonical (settlePort_canonical
        (modPort_canonical h))) (canonical_ite (darkPort_canonical h) h1)
theorem execPortCmdQuiesce_canonical (h : Canonical s) : NextCanonical (execPortCmdQuiesce s) := by
  unfold execPortCmdQuiesce
  exact .next (beginCmd_canonical h)
theorem execPortCmdTrain_canonical (h : Canonical s) : NextCanonical (execPortCmdTrain s) := by
  unfold execPortCmdTrain
  exact .next (beginCmd_canonical h)
theorem execPortCmdCycle_canonical (h : Canonical s) : NextCanonical (execPortCmdCycle s) := by
  unfold execPortCmdCycle
  exact .next (beginCmd_canonical h)
theorem execDarkTimeExpiry_canonical (h : Canonical s) : NextCanonical (execDarkTimeExpiry s) := by
  unfold execDarkTimeExpiry
  dsimp only
  split
  · exact nextCanonical_ite (.next (canonical_ite (trainPort_canonical h) (endCmd_canonical h))) (.next h)
  · exact .next h
theorem execLaneLock_canonical (h : Canonical s) : NextCanonical (execLaneLock s) := by
  unfold execLaneLock
  exact nextCanonical_ite (.next h) (.next (pokePort_canonical (schedule_canonical (modPort_canonical h))))
theorem execTrainTimeout_canonical (h : Canonical s) : NextCanonical (execTrainTimeout s) := by
  unfold execTrainTimeout
  exact nextCanonical_ite (.next (failPort_canonical h)) (.next h)
theorem meetPeer_canonical {port peer peerPort : Nat} (h : Canonical s) : Canonical (meetPeer s port peer peerPort) := by
  unfold meetPeer
  refine canonical_ite h ?_
  refine canonical_ite (pokePort_canonical (canonical_when (setPort_canonical h) fun h1 => endCmd_canonical h1)) ?_
  exact failPort_canonical h
theorem execIdentityArrival_canonical (h : Canonical s) : NextCanonical (execIdentityArrival s) := by
  unfold execIdentityArrival
  exact .next (meetPeer_canonical h)
theorem execVerifyTimeout_canonical (h : Canonical s) : NextCanonical (execVerifyTimeout s) := by
  unfold execVerifyTimeout
  exact nextCanonical_ite (.next (failPort_canonical h)) (.next h)
theorem execLossOfLock_canonical (h : Canonical s) : NextCanonical (execLossOfLock s) := by
  unfold execLossOfLock
  exact .next (canonical_ite (failPort_canonical h) h)
theorem execDrainDeadline_canonical (h : Canonical s) : NextCanonical (execDrainDeadline s) := by
  unfold execDrainDeadline
  exact nextCanonical_ite (.next (goDark_canonical (modPort_canonical (loseHeld_canonical h)))) (.next h)

/-! ## Transmission and reception -/

theorem execFabricFlitTransmit_canonical (h : Canonical s) : NextCanonical (execFabricFlitTransmit s) := by
  unfold execFabricFlitTransmit
  dsimp only
  split
  · exact .next (schedule_canonical (setPort_canonical h))
  · exact .next h
  · exact .next h
  · exact .next h
  · refine nextCanonical_ite (.next (schedule_canonical (sendIdle_canonical h))) ?_
    refine nextCanonical_ite (.next (schedule_canonical (sendReplay_canonical h))) ?_
    refine nextCanonical_ite (.next (settlePort_canonical (schedule_canonical (sendData_canonical (canonical_ite
      (fillFlit_canonical h) h))))) ?_
    refine nextCanonical_ite (.next (schedule_canonical (sendIdle_canonical (canonical_ite (fillFlit_canonical h) h)))) ?_
    exact .next (settlePort_canonical (canonical_ite (fillFlit_canonical h) h))
theorem beginReplay_canonical {port : Nat} (h : Canonical s) : Canonical (beginReplay s port) := by
  unfold beginReplay
  refine canonical_ite h ?_
  exact canonical_ite (failPort_canonical h) (pokePort_canonical (scheduleOnce_canonical (setPort_canonical h)))
theorem execReplayTimeout_canonical (h : Canonical s) : NextCanonical (execReplayTimeout s) := by
  unfold execReplayTimeout
  exact nextCanonical_ite (.next h) (nextCanonical_ite (.next (schedule_canonical h)) (.next (beginReplay_canonical h)))
theorem takeAck_canonical {port : Nat} {ack : BitVec 12} (h : Canonical s) : Canonical (takeAck s port ack) := by
  unfold takeAck
  exact canonical_ite h (pokePort_canonical (settlePort_canonical (setPort_canonical h)))
theorem enterFabric_canonical {k : FabPacket} (h : Canonical s) : Canonical (enterFabric s k) := by
  unfold enterFabric
  exact schedule_canonical { h with }
theorem takePacket_canonical {port : Nat} {bs : List Byte} (h : Canonical s) : Canonical (takePacket s port bs) := by
  unfold takePacket
  dsimp only
  split
  · exact creditBack_canonical h
  · exact enterFabric_canonical (setPort_canonical h)
theorem takeStream_canonical {port : Nat} {bs : List Byte} {n : Nat} (h : Canonical s) :
    Canonical (takeStream s port bs n) := by
  induction n generalizing s bs with
  | zero => exact h
  | succ n ih =>
    exact canonical_ite h (canonical_ite (setPort_canonical h) (ih (takePacket_canonical (setPort_canonical h))))
theorem oweNak_canonical {port : Nat} (h : Canonical s) : Canonical (oweNak s port) := by
  unfold oweNak
  exact canonical_ite h (pokePort_canonical (modPort_canonical h))
theorem takeData_canonical {port : Nat} {f : BitVec 2048} (h : Canonical s) : Canonical (takeData s port f) := by
  unfold takeData
  refine canonical_ite (pokePort_canonical (takeStream_canonical (countFabric_canonical (setPort_canonical h)))) ?_
  exact canonical_ite (pokePort_canonical (setPort_canonical h)) (oweNak_canonical h)
theorem execFabricFlitReceive_canonical (h : Canonical s) : NextCanonical (execFabricFlitReceive s) := by
  unfold execFabricFlitReceive
  dsimp only
  split
  · exact nextCanonical_ite (.next (meetPeer_canonical h)) (.next h)
  · exact .next h
  · exact .next h
  · exact .next h
  · refine nextCanonical_ite (.next (oweNak_canonical (countFabric_canonical h))) ?_
    refine nextCanonical_ite (.next h) ?_
    refine nextCanonical_ite (.next (canonical_when (takeAck_canonical h) fun h1 => beginReplay_canonical h1)) ?_
    refine nextCanonical_ite (.next (takeData_canonical (canonical_when (takeAck_canonical h) fun h1 => beginReplay_canonical
      h1))) ?_
    exact .next (pokePort_canonical (modPort_canonical (canonical_when (takeAck_canonical h) fun h1 => beginReplay_canonical
      h1)))

/-! ## Packets in the unit (R389, R395, R396) -/

theorem queueAtPort_canonical {port : Nat} {k : FabPacket} (h : Canonical s) : Canonical (queueAtPort s port k) := by
  unfold queueAtPort
  exact pokePort_canonical (modPort_canonical h)
theorem sendOwn_canonical {fctl : Bool} {dst sched : Nat} {stag : W32} {off : Nat} {body : List Byte}
    (h : Canonical s) :
    Canonical (sendOwn s fctl dst sched stag off body) := by
  unfold sendOwn
  refine canonical_ite (flowLess_canonical (countFabric_canonical (flowMore_canonical { h with }))) ?_
  refine canonical_ite (enterFabric_canonical (canonical_when (flowMore_canonical { h with }) fun h1 => flowLess_canonical h1))
    ?_
  exact queueAtPort_canonical (flowMore_canonical { h with })
theorem leaveUnit_canonical {k : FabPacket} (h : Canonical s) : Canonical (leaveUnit s k) := by
  unfold leaveUnit
  exact { h with }
theorem execTransitForward_canonical (h : Canonical s) : NextCanonical (execTransitForward s) := by
  unfold execTransitForward
  split
  · refine nextCanonical_ite (.next (creditBack_canonical (countFabric_canonical (leaveUnit_canonical h)))) ?_
    exact nextCanonical_ite (.next (schedule_canonical h)) (.next (queueAtPort_canonical (leaveUnit_canonical h)))
  · exact .next (canonical_ite (again_canonical h) h)

/-! ## Route switches (R395, R396) -/

theorem settleSwitch_canonical (h : Canonical s) : Canonical (settleSwitch s) := by
  unfold settleSwitch
  refine canonical_ite h ?_
  dsimp only
  split
  · exact completeCommand_canonical { h with }
  · exact { h with }
theorem beginSwitch_canonical {cmd : Option Command} (h : Canonical s) : Canonical (beginSwitch s cmd) := by
  unfold beginSwitch
  exact settleSwitch_canonical (canonical_foldl { h with } fun _ _ h1 => schedule_canonical h1)
theorem execFlowSwitch_canonical (h : Canonical s) : NextCanonical (execFlowSwitch s) := by
  unfold execFlowSwitch
  exact nextCanonical_ite (.next h) (.next (settleSwitch_canonical (setFlow_canonical h)))
theorem execFabRouteSwitchRequest_canonical (h : Canonical s) : NextCanonical (execFabRouteSwitchRequest s) := by
  unfold execFabRouteSwitchRequest
  exact nextCanonical_ite (.next h) (.next (beginSwitch_canonical h))

/-! ## FABRIC_RECONF (R394) -/

theorem setReconf_canonical {q : Nat} {idx : W16} {r : Option (List Nat × W64 × Bool)} (h : Canonical s) :
    Canonical (setReconf s q idx r) := by
  unfold setReconf
  exact { h with }
theorem writeImage_canonical {bs : List Byte} (h : Canonical s) : Canonical (writeImage s bs) := by
  unfold writeImage
  exact canonical_foldl h fun _ _ h1 => writeFabricRoutes_canonical h1
theorem startReconf_canonical {q : Nat} {p : Packet} {bs : List Byte} (h : Canonical s) : Canonical (startReconf s q p bs) := by
  unfold startReconf
  refine canonical_ite (complete_canonical h) ?_
  exact schedule_canonical (canonical_foldl (setReconf_canonical h) fun _ _ h1 => acceptPortCmd_canonical h1)
theorem execFabricReconf_canonical (h : Canonical s) : NextCanonical (execFabricReconf s) := by
  unfold execFabricReconf
  dsimp only
  split
  · exact .next (setReconf_canonical h)
  · split
    · split
      · exact .next (complete_canonical h)
      · split
        · exact .next (startReconf_canonical (canonical_of_eq (queueRead_canonical h) ‹_›))
        · exact .next (stopPacket_canonical (canonical_of_eq (queueRead_canonical h) ‹_›))
    · refine nextCanonical_ite ?_ (nextCanonical_ite (.next (setReconf_canonical (complete_canonical h))) (.next h))
      refine nextCanonical_ite (.next (again_canonical h)) ?_
      split
      · exact .next (setReconf_canonical (complete_canonical h))
      · split
        · exact .next (schedule_canonical (setReconf_canonical (writeImage_canonical (canonical_of_eq (queueRead_canonical h)
            ‹_›))))
        · exact .next (canonical_unless (stopPacket_canonical (canonical_of_eq (queueRead_canonical h) ‹_›)) fun h1 =>
            setReconf_canonical h1)

/-! ## The collective engine's memory (R398; 09_memory_model, R263, R273) -/

theorem collRead_canonical {c : Command} {a : W64} {n : Nat} (h : Canonical s) : Canonical (collRead s c a n).2 := by
  unfold collRead
  split
  · exact canonical_of_eq (reachPieces_canonical h) ‹_›
  · dsimp only
    split
    · exact countPoison_canonical (canonical_of_eq (reachPieces_canonical h) ‹_›)
    · exact canonical_foldl (canonical_of_eq (reachPieces_canonical h) ‹_›) fun _ _ h1 => canonical_ite
        (countCorrected_canonical h1) (countHome_canonical h1)
theorem collWrite_canonical {c : Command} {a : W64} {bs : List Byte} (h : Canonical s) : Canonical (collWrite s c a bs).2 := by
  unfold collWrite
  split
  · exact canonical_of_eq (reachPieces_canonical h) ‹_›
  · exact List.foldlRecOn (motive := fun w : List Byte × State => Canonical w.2) _ _ (canonical_of_eq (reachPieces_canonical h)
      ‹_›) fun _ h _ _ => canonical_ite (portWrite_canonical h) (physHomeWrite_canonical h)

/-! ## Schedules (R397, R398) -/

theorem setSched_canonical {k : Nat} {c : Sched} (h : Canonical s) : Canonical (setSched s k c) := by
  unfold setSched
  exact { h with }
theorem modStep_canonical {k n : Nat} {f : RunStep → RunStep} (h : Canonical s) : Canonical (modStep s k n f) := by
  unfold modStep
  exact setSched_canonical h
theorem endColl_canonical {k : Nat} {code : BitVec 8} (h : Canonical s) : Canonical (endColl s k code) := by
  unfold endColl
  dsimp only
  split
  · exact schedule_canonical (setSched_canonical (failCommand_canonical h)).frame
  · exact h
theorem stopColl_canonical {k : Nat} {q : Command} {g : Gather} {op : Instr} (h : Canonical s) :
    Canonical (stopColl s k q g op) := by
  unfold stopColl
  split
  · exact canonical_ite (endColl_canonical (undeny_canonical h)) (parkCommand_canonical h)
  · exact putOff_canonical h
  · exact endColl_canonical h
  · exact consumeError_canonical h
theorem dropEarly_canonical {e : Option FabPacket} (h : Canonical s) : Canonical (dropEarly s e) := by
  unfold dropEarly
  split
  · exact { h with }
  · exact h
theorem beginStep_canonical {k : Nat} {w : BitVec 256} (h : Canonical s) : Canonical (beginStep s k w) := by
  unfold beginStep
  exact schedule_canonical (schedule_canonical (canonical_unless (setSched_canonical (dropEarly_canonical h).frame) fun h1 =>
    sendOwn_canonical h1))
theorem nextStep_canonical {k : Nat} {q : Command} {base : W64} (h : Canonical s) : Canonical (nextStep s k q base) := by
  unfold nextStep
  dsimp only
  split
  · refine canonical_ite (canonical_of_eq (collRead_canonical h) ‹_›) ?_
    refine canonical_ite (endColl_canonical (canonical_of_eq (collRead_canonical h) ‹_›)) ?_
    refine canonical_ite (endColl_canonical (canonical_of_eq (collRead_canonical h) ‹_›)) ?_
    split
    · exact endColl_canonical (canonical_of_eq (collRead_canonical h) ‹_›)
    · exact beginStep_canonical (canonical_of_eq (collRead_canonical h) ‹_›)
  · exact stopColl_canonical (canonical_of_eq (collRead_canonical h) ‹_›)
theorem execCollStepStart_canonical (h : Canonical s) : NextCanonical (execCollStepStart s) := by
  unfold execCollStepStart
  dsimp only
  split
  · split
    · exact .next h
    · exact .next (schedule_canonical (setSched_canonical h))
  · refine nextCanonical_ite (.next (endColl_canonical h)) ?_
    exact nextCanonical_ite (.next h) (nextCanonical_ite (.next (schedule_canonical h)) (.next (nextStep_canonical h)))
theorem finishStep_canonical {k : Nat} {t : RunStep} (h : Canonical s) : Canonical (finishStep s k t) := by
  unfold finishStep
  extract_lets c rest u v _ w
  have hu : Canonical u := countFabric_canonical (setSched_canonical h)
  have hv : Canonical v := by
    unfold v
    split
    · exact beginSwitch_canonical hu
    · exact hu
  refine schedule_canonical ?_
  unfold w
  split
  · exact canonical_when hv fun h => completeCommand_canonical (setSched_canonical h)
  · exact hv
theorem sendMore_canonical {k : Nat} {q : Command} {base : W64} {t : RunStep} (h : Canonical s) :
    Canonical (sendMore s k q base t) := by
  unfold sendMore
  refine canonical_ite (again_canonical h) ?_
  dsimp only
  split
  · exact schedule_canonical (modStep_canonical (sendOwn_canonical (canonical_of_eq (collRead_canonical h) ‹_›)))
  · exact stopColl_canonical (canonical_of_eq (collRead_canonical h) ‹_›)
theorem execCollStepComplete_canonical (h : Canonical s) : NextCanonical (execCollStepComplete s) := by
  unfold execCollStepComplete
  dsimp only
  split
  · split
    · refine nextCanonical_ite (.next h) ?_
      exact nextCanonical_ite (.next (sendMore_canonical h)) (nextCanonical_ite (.next (finishStep_canonical h)) (.next h))
    · exact .next (canonical_ite (finishStep_canonical h) h)
    · exact .next (canonical_ite (finishStep_canonical h) h)
  · exact .next h

/-! ## Arrivals at this package (R389, R398) -/

theorem delivered_canonical {k : FabPacket} (h : Canonical s) : Canonical (delivered s k) := by
  unfold delivered
  exact sendOwn_canonical (creditBack_canonical (leaveUnit_canonical h))
theorem stopDelivery_canonical {k : FabPacket} {ki : Nat} {q : Command} {g : Gather} (h : Canonical s) :
    Canonical (stopDelivery s k ki q g) := by
  unfold stopDelivery
  dsimp only
  split
  · exact canonical_unless (stopColl_canonical h) fun h1 => delivered_canonical h1
  · exact delivered_canonical (stopColl_canonical h)
theorem receiveBytes_canonical {q : Command} {base : W64} {w : BitVec 256} {k : FabPacket} (h : Canonical s) :
    Canonical (receiveBytes s q base w k).2 := by
  unfold receiveBytes
  refine canonical_snd_ite h ?_
  split
  · split
    · exact countFabric_canonical (countFabric_canonical (canonical_of_eq (collRead_canonical h) ‹_›))
  · exact collRead_canonical h
theorem execFdataDelivery_canonical (h : Canonical s) : NextCanonical (execFdataDelivery s) := by
  unfold execFdataDelivery
  split
  · dsimp only
    split
    · exact .next (delivered_canonical h)
    · split
      · exact .next (delivered_canonical h)
      · refine nextCanonical_ite (.next (delivered_canonical h)) ?_
        split
        · split
          · exact .next (schedule_canonical (delivered_canonical (modStep_canonical (canonical_of_eq (collWrite_canonical
              (canonical_of_eq (receiveBytes_canonical h) ‹_›)) ‹_›))))
          · exact .next (stopDelivery_canonical (canonical_of_eq (collWrite_canonical (canonical_of_eq (receiveBytes_canonical
              h) ‹_›)) ‹_›))
        · exact .next (stopDelivery_canonical (canonical_of_eq (receiveBytes_canonical h) ‹_›))
  · exact .next (canonical_ite (again_canonical h) h)
theorem tellStep_canonical {e : Nat × RunStep} {f : RunStep → RunStep} (h : Canonical s) : Canonical (tellStep s e f) := by
  unfold tellStep
  exact schedule_canonical (modStep_canonical h)
theorem execFctlArrival_canonical (h : Canonical s) : NextCanonical (execFctlArrival s) := by
  unfold execFctlArrival
  split
  · extract_lets t peer _ keep u mine
    have ht : Canonical t := creditBack_canonical (leaveUnit_canonical h)
    have hkeep : Canonical keep := ht.frame
    have hu : Canonical u := flowLess_canonical ht
    clear_value mine
    split
    · split
      · exact .next (tellStep_canonical ht)
      · exact .next hkeep
    · split
      · exact .next (tellStep_canonical hu)
      · exact .next hu
    · split
      · exact .next (tellStep_canonical ht)
      · exact .next hkeep
    · exact .next ht
  · exact .next (canonical_ite (again_canonical h) h)

end

end Sys2Proof.Machine
end

