-- ==== Sys2Proof/Proofs/CanonicalStep.lean ====
section
/-! PROOF. Every memory stays in its canonical form:
the rounds of a core, an instruction or event, and the step.
One lemma for each operation of the model, in the model's order. -/
namespace Sys2Proof.Machine

section
variable {s : State}

theorem choose_canonical (h : Canonical s) : Canonical (choose s).2 := by
  unfold choose
  dsimp only
  split
  · exact { h with }
  · split
    · exact { h with }
    · exact { h with }

/-! ## The round boundary (02_rule, R78; 07_core_failures, R211, R219) -/

theorem raiseRecord_canonical {k c : Nat} {r : Record} (h : Canonical s) : Canonical (raiseRecord s k c r) := by
  unfold raiseRecord
  exact canonical_when (countCtx_canonical (sendRecord_canonical (canonical_when (keepRecord_canonical h) fun h1 =>
    suspectOf_canonical h1))) fun h1 => abortPairs_canonical (setCtx_canonical h1)
theorem passTo_canonical {k n : Nat} (h : Canonical s) : Canonical (passTo s k n) := by
  unfold passTo
  exact countCtx_canonical (updateCore_canonical (setCtx_canonical h) fun hc => { hc with })
theorem answerSweep_canonical {k : Nat} (h : Canonical s) : Canonical (answerSweep s k) := by
  unfold answerSweep
  dsimp only
  split
  · exact h
  · exact sendFlit_canonical (updateCore_canonical h fun hc => { hc with })
theorem boundary_canonical {k : Nat} {idle : Bool} (h : Canonical s) : Canonical (boundary s k idle) := by
  unfold boundary
  exact answerSweep_canonical (canonical_foldl (canonical_foldl (updateCore_canonical h fun hc => { hc with }) fun _ _ h1 =>
    raiseRecord_canonical h1) fun _ _ h1 => applyTret_canonical h1)
theorem takePass_canonical {k : Nat} (h : Canonical s) : Canonical (takePass s k) := by
  unfold takePass
  dsimp only
  split
  · exact h
  · split
    · exact passTo_canonical (updateCore_canonical h fun hc => { hc with })
    · exact updateCore_canonical h fun hc => { hc with }
theorem countRound_canonical {k c : Nat} (h : Canonical s) : Canonical (countRound s k c) := by
  unfold countRound
  exact updateCore_canonical (setCtx_canonical h) fun hc => { hc with }

/-! ## Bodies -/

theorem startBody_canonical {i : Nat} {rest : List Nat} {inj : BitVec 42} (h : Canonical s) :
    Canonical (startBody s i rest inj) := by
  unfold startBody
  exact { h with }
theorem runRound_canonical {k : Nat} (h : Canonical s) : Canonical (runRound s k) := by
  unfold runRound
  refine canonical_ite (boundary_canonical h) ?_
  dsimp only
  split
  · exact boundary_canonical (countRound_canonical (raiseTraps_canonical (takeChecks_canonical (countCtx_canonical
      (setCtx_canonical (countCore_canonical (updateCore_canonical h fun hc => markReady_canonical hc)))))))
  · exact startBody_canonical (countCore_canonical (updateCore_canonical h fun hc => markReady_canonical hc)).frame
theorem startRound_canonical {k : Nat} (h : Canonical s) : Canonical (startRound s k) := by
  unfold startRound
  exact canonical_ite h (runRound_canonical (canonical_when (takePass_canonical h) fun h1 => tellSwapper_canonical h1))
theorem endBody_canonical (h : Canonical s) : Canonical (endBody s) := by
  unfold endBody
  dsimp only
  split
  · exact startBody_canonical { h with }
  · exact boundary_canonical (lateWrites_canonical (countRound_canonical (commitRound_canonical { h with })))
theorem execRound_canonical (h : Canonical s) : NextCanonical (execRound s) := by
  unfold execRound
  exact nextCanonical_ite (nextCanonical_ite (.next (endBody_canonical h)) (.next h)) (.next (startRound_canonical h))

/-! ## The step -/

/-- Every instruction and event goes on and keeps the memories canonical: a body's instruction only stages, an event is one of the
operations above. -/
theorem exec_canonical {i : Instr} (h : Canonical s) : NextCanonical (exec i s) := by
  by_cases hb : i.isBody = true
  · obtain ⟨t, _, ho, ht, _⟩ := exec_onlyStages s hb
    rw [ho, ht]
    exact .next h.frame
  · cases i
    all_goals simp only [Instr.isBody, Bool.false_eq_true, not_true_eq_false, not_false_eq_true] at hb
    all_goals unfold exec
    case round => exact execRound_canonical h
    case tretMessageArrival => exact execTretMessageArrival_canonical h
    case tokenArrival => exact execTokenArrival_canonical h
    case tokenSpill => exact execTokenSpill_canonical h
    case creditReturn => exact execCreditReturn_canonical h
    case replyArrival => exact execReplyArrival_canonical h
    case remoteAccessServe => exact execRemoteAccessServe_canonical h
    case amoPerform => exact execAmoPerform_canonical h
    case publishFlip => exact execPublishFlip_canonical h
    case failedRequest => exact execFailedRequest_canonical h
    case streamFetch => exact execStreamFetch_canonical h
    case streamWrite => exact execStreamWrite_canonical h
    case streamDrainTag => exact execStreamDrainTag_canonical h
    case copyUnit => exact execCopyUnit_canonical h
    case copyComplete => exact execCopyComplete_canonical h
    case bucketLeak => exact execBucketLeak_canonical h
    case basinGrant => exact execBasinGrant_canonical h
    case basinCommandComplete => exact execBasinCommandComplete_canonical h
    case accrdRowDelivery => exact execAccrdRowDelivery_canonical h
    case epilogueRowDelivery => exact execEpilogueRowDelivery_canonical h
    case slotPinClear => exact execSlotPinClear_canonical h
    case flitHop => exact execFlitHop_canonical h
    case deliveryAck => exact execDeliveryAck_canonical h
    case routeClassSwitch => exact execRouteClassSwitch_canonical h
    case coreMapRebind => exact execCoreMapRebind_canonical h
    case confluenceCombine => exact execConfluenceCombine_canonical h
    case barrierArrivalLeave => exact execBarrierArrivalLeave_canonical h
    case barrierArrival => exact execBarrierArrival_canonical h
    case barrierCompletionArrival => exact execBarrierCompletionArrival_canonical h
    case bartTimeout => exact execBartTimeout_canonical h
    case pairHalfArrival => exact execPairHalfArrival_canonical h
    case pairDeadline => exact execPairDeadline_canonical h
    case pairTimeoutMessage => exact execPairTimeoutMessage_canonical h
    case pairAbortMessage => exact execPairAbortMessage_canonical h
    case trapRecordDelivery => exact execTrapRecordDelivery_canonical h
    case recordResend => exact execRecordResend_canonical h
    case retentionEntry => exact execRetentionEntry_canonical h
    case retentionExitStart => exact execRetentionExitStart_canonical h
    case retentionExitEnd => exact execRetentionExitEnd_canonical h
    case vfRequestApply => exact execVfRequestApply_canonical h
    case vfClockResume => exact execVfClockResume_canonical h
    case weirHalve => exact execWeirHalve_canonical h
    case weirDouble => exact execWeirDouble_canonical h
    case timeRecalibration => exact execTimeRecalibration_canonical h
    case reservoirAccess => exact execReservoirAccess_canonical h
    case cacheReplacement => exact execCacheReplacement_canonical h
    case rsvldLine => exact execRsvldLine_canonical h
    case rsvldComplete => exact execRsvldComplete_canonical h
    case rsvcfgPartApply => exact execRsvcfgPartApply_canonical h
    case rsvcfgDropComplete => exact execRsvcfgDropComplete_canonical h
    case pfetchComplete => exact execPfetchComplete_canonical h
    case cascadeBlockLaunch => exact execCascadeBlockLaunch_canonical h
    case branchReceive => exact execBranchReceive_canonical h
    case retransmitRequest => exact execRetransmitRequest_canonical h
    case branchForward => exact execBranchForward_canonical h
    case memberSlotFill => exact execMemberSlotFill_canonical h
    case memberReemit => exact execMemberReemit_canonical h
    case blockAck => exact execBlockAck_canonical h
    case voteArrival => exact execVoteArrival_canonical h
    case laserLit => exact execLaserLit_canonical h
    case laserDark => exact execLaserDark_canonical h
    case groupEntryWriteApply => exact execGroupEntryWriteApply_canonical h
    case queueKick => exact execQueueKick_canonical h
    case queueEnable => exact execQueueEnable_canonical h
    case queueOff => exact execQueueOff_canonical h
    case packetFetch => exact execPacketFetch_canonical h
    case packetRefetch => exact execPacketRefetch_canonical h
    case packetDispatch => exact execPacketDispatch_canonical h
    case ageRise => exact execAgeRise_canonical h
    case packetCompletion => exact execPacketCompletion_canonical h
    case launch => exact execLaunch_canonical h
    case launchSwapAtQuiescence => exact execLaunchSwapAtQuiescence_canonical h
    case launchSwapAtCfgswap => exact execLaunchSwapAtCfgswap_canonical h
    case shadowLoadEnd => exact execShadowLoadEnd_canonical h
    case copy => exact execCopy_canonical h
    case wait => exact execWait_canonical h
    case waitPoll => exact execWaitPoll_canonical h
    case signal => exact execSignal_canonical h
    case groupload => exact execGroupload_canonical h
    case reservoirLoad => exact execReservoirLoad_canonical h
    case fabricReconf => exact execFabricReconf_canonical h
    case portCmdQuiesce => exact execPortCmdQuiesce_canonical h
    case portCmdTrain => exact execPortCmdTrain_canonical h
    case portCmdCycle => exact execPortCmdCycle_canonical h
    case destroy => exact execDestroy_canonical h
    case destroyForce => exact execDestroyForce_canonical h
    case record => exact execRecord_canonical h
    case pwrSetCap => exact execPwrSetCap_canonical h
    case pwrSetFloor => exact execPwrSetFloor_canonical h
    case placement => exact execPlacement_canonical h
    case preemptDeadline => exact execPreemptDeadline_canonical h
    case stillSweep => exact execStillSweep_canonical h
    case sweepResult => exact execSweepResult_canonical h
    case gangStop => exact execGangStop_canonical h
    case gangStopScanOut => exact execGangStopScanOut_canonical h
    case gangResume => exact execGangResume_canonical h
    case gbarCompletion => exact execGbarCompletion_canonical h
    case pkgRetireGo => exact execPkgRetireGo_canonical h
    case rollback => exact execRollback_canonical h
    case comparatorMismatch => exact execComparatorMismatch_canonical h
    case comparatorTimeout => exact execComparatorTimeout_canonical h
    case translationWalk => exact execTranslationWalk_canonical h
    case pageRequestResponse => exact execPageRequestResponse_canonical h
    case pfDeadline => exact execPfDeadline_canonical h
    case tlbinvComplete => exact execTlbinvComplete_canonical h
    case migrationFork => exact execMigrationFork_canonical h
    case migrationCopyLine => exact execMigrationCopyLine_canonical h
    case migrationSwitch => exact execMigrationSwitch_canonical h
    case migrationRelease => exact execMigrationRelease_canonical h
    case hbmWrite => exact execHbmWrite_canonical h
    case hbmRead => exact execHbmRead_canonical h
    case xstrElement => exact execXstrElement_canonical h
    case xstrComplete => exact execXstrComplete_canonical h
    case eventWrite => exact execEventWrite_canonical h
    case pkgEvreplyWrite => exact execPkgEvreplyWrite_canonical h
    case watchdogDead => exact execWatchdogDead_canonical h
    case watchdogSlow => exact execWatchdogSlow_canonical h
    case powerManagerUpdate => exact execPowerManagerUpdate_canonical h
    case startup => exact execStartup_canonical h
    case hostLinkDown => exact execHostLinkDown_canonical h
    case hostLinkUp => exact execHostLinkUp_canonical h
    case attestReport => exact execAttestReport_canonical h
    case recoveryFirmware => exact execRecoveryFirmware_canonical h
    case dieVfrWrite => exact execDieVfrWrite_canonical h
    case cluRouteSwitchRequest => exact execCluRouteSwitchRequest_canonical h
    case fabRouteSwitchRequest => exact execFabRouteSwitchRequest_canonical h
    case registerWrite => exact execRegisterWrite_canonical h
    case fabricFlitTransmit => exact execFabricFlitTransmit_canonical h
    case fabricFlitReceive => exact execFabricFlitReceive_canonical h
    case replayTimeout => exact execReplayTimeout_canonical h
    case laneLock => exact execLaneLock_canonical h
    case trainTimeout => exact execTrainTimeout_canonical h
    case identityArrival => exact execIdentityArrival_canonical h
    case verifyTimeout => exact execVerifyTimeout_canonical h
    case lossOfLock => exact execLossOfLock_canonical h
    case drainDeadline => exact execDrainDeadline_canonical h
    case darkTimeExpiry => exact execDarkTimeExpiry_canonical h
    case transitForward => exact execTransitForward_canonical h
    case fdataDelivery => exact execFdataDelivery_canonical h
    case fctlArrival => exact execFctlArrival_canonical h
    case flowSwitch => exact execFlowSwitch_canonical h
    case collStepStart => exact execCollStepStart_canonical h
    case collStepComplete => exact execCollStepComplete_canonical h
    case fenceReleaseTraffic => exact execFenceReleaseTraffic_canonical h
    case cgwakeArrival => exact execCgwakeArrival_canonical h
    case secondTierAccess => exact execSecondTierAccess_canonical h
theorem step_canonical (h : Canonical s) : NextCanonical (step s) := by
  unfold step
  split
  · split
    · exact exec_canonical h
    · split
      · exact exec_canonical h
      · exact .next h.frame
  · split
    · exact exec_canonical (canonical_of_eq (choose_canonical h) ‹_›)
    · exact .next (canonical_of_eq (choose_canonical h) ‹_›)

end

/-- Settles O38: the canonical form is kept by every operation of the model, and by the step that runs one. -/
theorem memoriesStayCanonical : Obligations.MemoriesStayCanonical := by
  intro s t h hst
  have hn := step_canonical (memoriesWf_iff.mp h)
  rw [hst] at hn
  cases hn with
  | next ht => exact memoriesWf_iff.mpr ht

end Sys2Proof.Machine
end

