-- ==== Sys2Proof/Proofs/DecodeInverse.lean ====
section
/-! PROOF. The decoder and the encoder are inverse to each other on the instructions of a body (01_encoding, R16 to R20, R35 to R41):
a word is known from its slices, each arm of the decoder fixes every slice of the words that it accepts, and the encoder writes the
same slices. -/
namespace Sys2Proof

/-! ## Slices of a word -/

/-- v stands in x from bit s on. -/
def SliceOf {k n : Nat} (x : BitVec k) (s : Nat) (v : BitVec n) : Prop := x.extractLsb' s n = v

section
variable {k m n s : Nat} {x : BitVec k}

theorem sliceOf_append {u : BitVec m} {v : BitVec n} :
    SliceOf x s (u ++ v) ↔ SliceOf x (s + n) u ∧ SliceOf x s v := by
  unfold SliceOf
  rw [← BitVec.extractLsb'_append_extractLsb'_eq_extractLsb' (rfl : s + n = s + n)]
  constructor
  · intro h
    have hu := congrArg (BitVec.extractLsb' n m) h
    have hv := congrArg (BitVec.extractLsb' 0 n) h
    simp only [BitVec.extractLsb'_append_eq_left, BitVec.extractLsb'_append_eq_right] at hu hv
    exact ⟨hu, hv⟩
  · rintro ⟨rfl, rfl⟩
    rfl
theorem sliceOf_self : SliceOf x s (x.extractLsb' s n) := rfl
theorem sliceOf_ofNat {c : Nat} : SliceOf x s (BitVec.ofNat n c) ↔ x.extractLsb' s n = BitVec.ofNat n c := Iff.rfl
theorem sliceOf_whole {v : BitVec k} : SliceOf x 0 v ↔ v = x := by
  rw [SliceOf, BitVec.extractLsb'_eq_self, eq_comm]
theorem sliceOf_refl : SliceOf x 0 x := sliceOf_whole.mpr rfl

end

theorem OpWord.mk_eq_iff {f : OpWord} {op : BitVec 8} {a b d e : Opd} {t : Tag} :
    (⟨op, a, b, d, e, t⟩ : OpWord) = f ↔ f.op = op ∧ f.a = a ∧ f.b = b ∧ f.d = d ∧ f.e = e ∧ f.t = t := by
  cases f
  simp only [OpWord.mk.injEq, eq_comm]
theorem OpWord.imm_eq_iff {f : OpWord} {i : BitVec 14} :
    f.imm = i ↔ (i.extractLsb' 9 5 = f.d ∧ i.extractLsb' 4 5 = f.e) ∧ i.extractLsb' 0 4 = f.t := by
  rw [← sliceOf_whole, OpWord.imm, BitVec.cast_eq]
  simp only [sliceOf_append]
  rfl
theorem OpWord.ofImm_eq_iff {f : OpWord} {op : BitVec 8} {a d : Opd} {i : BitVec 14} :
    OpWord.ofImm op a d i = f ↔ f.op = op ∧ f.a = a ∧ f.b = d ∧ SliceOf f.imm 0 i := by
  rw [sliceOf_whole, eq_comm (a := i), OpWord.imm_eq_iff, OpWord.ofImm, OpWord.mk_eq_iff]
  simp only [eq_comm, and_assoc]
theorem OpWord.toWord_ofWord (w : W32) : (OpWord.ofWord w).toWord = w := by
  rw [← sliceOf_whole, OpWord.toWord, BitVec.cast_eq]
  simp only [sliceOf_append]
  exact ⟨⟨⟨⟨⟨rfl, rfl⟩, rfl⟩, rfl⟩, rfl⟩, rfl⟩

/-- The immediate of format I whose high bits are 0 is the short field below them (01_encoding, R40). -/
theorem sliceOf_setWidth {n : Nat} {x : BitVec 14} (hn : n ≤ 14) (h : x.extractLsb' n (14 - n) = 0#(14 - n)) :
    SliceOf x 0 ((x.extractLsb' 0 n).setWidth 14) := by
  refine sliceOf_whole.mpr (BitVec.eq_of_getLsbD_eq fun i hi => ?_)
  rw [BitVec.getLsbD_setWidth, BitVec.getLsbD_extractLsb', Nat.zero_add]
  by_cases hin : i < n
  · simp only [hi, hin, decide_true, Bool.true_and]
  · have hz := congrArg (·.getLsbD (i - n)) h
    simp only [BitVec.getLsbD_extractLsb', BitVec.getLsbD_zero, show i - n < 14 - n by omega,
      show n + (i - n) = i by omega, decide_true, Bool.true_and] at hz
    simp only [hin, hz, decide_false, Bool.and_false]

/-! ## What the decoder accepts -/

theorem decodeIf_ok {c : Bool} {i j : Instr} (h : decodeIf c i = .ok j) : c = true ∧ j.wf = true ∧ i = j := by
  unfold decodeIf at h
  split at h
  · next hc =>
    cases h
    exact ⟨(Bool.and_eq_true_iff.mp hc).1, (Bool.and_eq_true_iff.mp hc).2, rfl⟩
  · cases h

/-- A well-formed instruction of a body that n words hold: the operation word f and, in format W, the extension word x. -/
structure HeldBy (f : OpWord) (n : Nat) (x : W32) (i : Instr) : Prop where
  body : i.isBody = true
  wf : i.wf = true
  words : i.words = n
  opWord : i.opWord = some f
  extWord : SliceOf x 0 i.extWord

/-- The arms of formats P and I: the pattern fixes the opcode, the guard the fields that the row does not use (R18, R19, R21). -/
theorem decodeOne_ok {f : OpWord} {i : Instr} (h : decodeOne f = .ok i) : HeldBy f 1 0 i := by
  unfold decodeOne at h
  split at h
  case h_146 => cases h
  all_goals
    obtain ⟨hguard, hwf, rfl⟩ := decodeIf_ok h
    refine ⟨rfl, hwf, rfl, congrArg some ?_, rfl⟩
    simp only [Bool.and_eq_true, beq_iff_eq, BitVec.toNat_eq_nat] at *
    simp only [OpWord.mk_eq_iff, OpWord.ofImm_eq_iff, BitVec.cast_eq, sliceOf_append, sliceOf_ofNat, sliceOf_self,
      sliceOf_refl, sliceOf_setWidth, Nat.reduceSub, Nat.reduceLeDiff, and_true, *]

/-- The arms of format W: the patterns fix the opcode and the sub-operation, the guard the unused fields and reserved bits (R20, R37
to R39); the arms of reserved codes accept nothing. -/
theorem decodeTwo_ok {f : OpWord} {x : W32} {i : Instr} (h : decodeTwo f x = .ok i) : HeldBy f 2 x i := by
  unfold decodeTwo at h
  repeat' split at h
  any_goals cases h
  all_goals
    obtain ⟨hguard, hwf, rfl⟩ := decodeIf_ok h
    simp only [Bool.and_eq_true, beq_iff_eq, BitVec.toNat_eq_nat] at *
    refine ⟨rfl, hwf, rfl, congrArg some ?_, ?_⟩
    · simp only [OpWord.mk_eq_iff, and_true, *]
    · simp only [Instr.extWord, BitVec.cast_eq, sliceOf_append]
      simp only [sliceOf_ofNat, sliceOf_self, Nat.reduceAdd, and_true, *]

theorem exceptMap_ok {ε α β : Type} {g : α → β} {r : Except ε α} {y : β} (h : r.map g = .ok y) :
    ∃ x, r = .ok x ∧ g x = y := by
  cases r with
  | error e => cases h
  | ok x => exact ⟨x, rfl, Except.ok.inj h⟩

/-- Words that decode are the encoding of a well-formed instruction, with the words that follow (R16, R20). -/
theorem decode_ok {ws rest : List W32} {i : Instr} (h : decode ws = .ok (i, rest)) :
    i.isBody = true ∧ i.wf = true ∧ ws = encode i ++ rest := by
  unfold decode at h
  split at h
  · cases h
  · next w ws =>
    dsimp only at h
    split at h
    · obtain ⟨j, hj, ⟨⟩⟩ := exceptMap_ok h
      obtain ⟨hbody, hwf, hwords, hop, -⟩ := decodeOne_ok hj
      refine ⟨hbody, hwf, ?_⟩
      simp only [encode, hop, hwords, OpWord.toWord_ofWord, OfNat.one_ne_ofNat, if_false, List.cons_append, List.nil_append]
    · split at h
      · cases h
      · obtain ⟨j, hj, ⟨⟩⟩ := exceptMap_ok h
        obtain ⟨hbody, hwf, hwords, hop, hx⟩ := decodeTwo_ok hj
        refine ⟨hbody, hwf, ?_⟩
        simp only [encode, hop, hwords, sliceOf_whole.mp hx, OpWord.toWord_ofWord, if_true, List.cons_append,
          List.nil_append]

namespace Laws.Encoding

/-- Decoding undoes encoding, for every row of the opcode table. -/
theorem statement (i : Instr) : Statement i := by
  cases i
  case nop => exact nop _
  case mov => exact mov _ _ _ _
  case movi => exact movi _ _
  case movsh => exact movsh _ _ _
  case add => exact add _ _ _ _ _
  case addi => exact addi _ _ _
  case sub => exact sub _ _ _ _ _
  case mul => exact mul _ _ _ _ _
  case mulh => exact mulh _ _ _ _ _
  case mulhu => exact mulhu _ _ _ _ _
  case div => exact div _ _ _ _ _
  case divu => exact divu _ _ _ _ _
  case rem => exact rem _ _ _ _ _
  case remu => exact remu _ _ _ _ _
  case and => exact and _ _ _ _ _
  case andi => exact andi _ _ _
  case or => exact or _ _ _ _ _
  case ori => exact ori _ _ _
  case xor => exact xor _ _ _ _ _
  case xori => exact xori _ _ _
  case shl => exact shl _ _ _ _ _
  case shli => exact shli _ _ _
  case shr => exact shr _ _ _ _ _
  case shri => exact shri _ _ _
  case sar => exact sar _ _ _ _ _
  case sari => exact sari _ _ _
  case rol => exact rol _ _ _ _ _
  case clz => exact clz _ _ _ _
  case ctz => exact ctz _ _ _ _
  case popc => exact popc _ _ _ _
  case min => exact min _ _ _ _ _
  case max => exact max _ _ _ _ _
  case minu => exact minu _ _ _ _ _
  case maxu => exact maxu _ _ _ _ _
  case addsat => exact addsat _ _ _ _ _
  case subsat => exact subsat _ _ _ _ _
  case seq => exact seq _ _ _ _ _
  case sne => exact sne _ _ _ _ _
  case slt => exact slt _ _ _ _ _
  case sltu => exact sltu _ _ _ _ _
  case sle => exact sle _ _ _ _ _
  case sleu => exact sleu _ _ _ _ _
  case sel => exact sel _ _ _ _ _
  case sext => exact sext _ _ _
  case zext => exact zext _ _ _
  case bfx => exact bfx _ _ _
  case bfi => exact bfi _ _ _ _ _
  case xyadr => exact xyadr _ _ _ _ _
  case reladr => exact reladr _ _ _ _ _
  case myxy => exact myxy _ _ _
  case adrx => exact adrx _ _ _
  case adrchk => exact adrchk _ _ _ _ _
  case vmov => exact vmov _ _ _ _
  case vbcast => exact vbcast _ _ _ _
  case vperm => exact vperm _ _ _ _ _
  case vextr => exact vextr _ _ _
  case vins => exact vins _ _ _
  case vaddF32 => exact vaddF32 _ _ _ _ _
  case vsubF32 => exact vsubF32 _ _ _ _ _
  case vmulF32 => exact vmulF32 _ _ _ _ _
  case vfmaF32 => exact vfmaF32 _ _ _ _ _
  case vminF32 => exact vminF32 _ _ _ _ _
  case vmaxF32 => exact vmaxF32 _ _ _ _ _
  case vaddF64 => exact vaddF64 _ _ _ _ _
  case vsubF64 => exact vsubF64 _ _ _ _ _
  case vmulF64 => exact vmulF64 _ _ _ _ _
  case vfmaF64 => exact vfmaF64 _ _ _ _ _
  case vaddBf16 => exact vaddBf16 _ _ _ _ _
  case vmulBf16 => exact vmulBf16 _ _ _ _ _
  case vdot2Bf16 => exact vdot2Bf16 _ _ _ _ _
  case vabsF32 => exact vabsF32 _ _ _ _
  case vnegF32 => exact vnegF32 _ _ _ _
  case vrcpF32 => exact vrcpF32 _ _ _ _
  case vrsqF32 => exact vrsqF32 _ _ _ _
  case vsqrtF32 => exact vsqrtF32 _ _ _ _
  case vexp2F32 => exact vexp2F32 _ _ _ _
  case vlog2F32 => exact vlog2F32 _ _ _ _
  case vtanhF32 => exact vtanhF32 _ _ _ _
  case vceqF32 => exact vceqF32 _ _ _ _ _
  case vcltF32 => exact vcltF32 _ _ _ _ _
  case vcleF32 => exact vcleF32 _ _ _ _ _
  case vsel => exact vsel _ _ _ _ _
  case viadd => exact viadd _ _ _ _ _
  case visub => exact visub _ _ _ _ _
  case vimul => exact vimul _ _ _ _ _
  case vand => exact vand _ _ _ _ _
  case vor => exact vor _ _ _ _ _
  case vxor => exact vxor _ _ _ _ _
  case vshl => exact vshl _ _ _ _ _
  case vshr => exact vshr _ _ _ _ _
  case vsar => exact vsar _ _ _ _ _
  case vimin => exact vimin _ _ _ _ _
  case vimax => exact vimax _ _ _ _ _
  case viceq => exact viceq _ _ _ _ _
  case viclt => exact viclt _ _ _ _ _
  case viaddsatI8 => exact viaddsatI8 _ _ _ _ _
  case vrsumF32 => exact vrsumF32 _ _ _ _
  case vrmaxF32 => exact vrmaxF32 _ _ _ _
  case vrsumI32 => exact vrsumI32 _ _ _ _
  case vmset => exact vmset _
  case vmget => exact vmget _ _ _
  case vshiftl => exact vshiftl _ _ _
  case vscanF32 => exact vscanF32 _ _ _ _
  case cvt => exact cvt _ _ _
  case vcvt => exact vcvt _ _ _
  case vpack => exact vpack _ _ _
  case vunpk => exact vunpk _ _ _
  case vscale => exact vscale _ _ _ _ _
  case vscalex => exact vscalex _ _ _ _ _
  case bsinit => exact bsinit _ _ _ _ _
  case bspeek => exact bspeek _ _ _
  case bsget => exact bsget _ _ _
  case bsskip => exact bsskip _ _
  case bshuf => exact bshuf _ _ _ _
  case bsput => exact bsput _ _ _ _
  case bsflush => exact bsflush _ _
  case bsstat => exact bsstat _ _ _
  case fclass => exact fclass _ _ _ _ _
  case abort => exact abort _
  case abortz => exact abortz _ _
  case abortnz => exact abortnz _ _
  case ruleon => exact ruleon _
  case ruleoff => exact ruleoff _
  case rulemask => exact rulemask _ _ _ _ _
  case raborts => exact raborts _ _ _ _ _
  case ctxend => exact ctxend _
  case ctxyield => exact ctxyield _
  case tset => exact tset _
  case tclr => exact tclr _
  case tffr => exact tffr _ _ _ _
  case tany => exact tany _ _ _ _
  case tall => exact tall _ _ _ _
  case tmask => exact tmask _ _ _ _ _
  case fence => exact fence _
  case trap => exact trap _
  case tret => exact tret _ _ _
  case csrr => exact csrr _ _
  case csrw => exact csrw _ _ _
  case mcrd => exact mcrd _ _ _ _
  case cntrd => exact cntrd _ _ _ _
  case cntclr => exact cntclr _ _
  case errinj => exact errinj _ _ _ _
  case timerd => exact timerd _ _ _ _
  case roundrd => exact roundrd _ _ _
  case fmtmode => exact fmtmode _ _ _ _
  case ld => exact ld _ _ _ _ _ _
  case st => exact st _ _ _ _ _
  case stn => exact stn _ _ _ _ _
  case vld => exact vld _ _ _ _ _
  case vst => exact vst _ _ _ _ _
  case vldx => exact vldx _ _ _ _ _ _ _ _
  case vstx => exact vstx _ _ _ _ _ _ _
  case rld => exact rld _ _ _ _ _
  case rst => exact rst _ _ _ _ _ _ _
  case rvld => exact rvld _ _ _ _
  case rvst => exact rvst _ _ _ _ _ _
  case amoAdd => exact amoAdd _ _ _ _ _ _ _
  case amoMin => exact amoMin _ _ _ _ _ _ _
  case amoMax => exact amoMax _ _ _ _ _ _ _
  case amoMinu => exact amoMinu _ _ _ _ _ _ _
  case amoMaxu => exact amoMaxu _ _ _ _ _ _ _
  case amoAnd => exact amoAnd _ _ _ _ _ _ _
  case amoOr => exact amoOr _ _ _ _ _ _ _
  case amoXor => exact amoXor _ _ _ _ _ _ _
  case amoSwap => exact amoSwap _ _ _ _ _ _ _
  case amoCas => exact amoCas _ _ _ _ _ _ _ _
  case amoFaddF32 => exact amoFaddF32 _ _ _ _ _ _ _
  case amoFaddBf16 => exact amoFaddBf16 _ _ _ _ _ _ _
  case stream => exact stream _ _ _ _ _ _
  case strctlUnbind => exact strctlUnbind _ _
  case strctlPause => exact strctlPause _ _
  case strctlResume => exact strctlResume _ _
  case strctlDrain => exact strctlDrain _ _ _
  case cpy => exact cpy _ _ _ _ _
  case cpy2 => exact cpy2 _ _ _
  case publish => exact publish _ _ _ _
  case pfetch => exact pfetch _ _ _ _
  case mma => exact mma _ _ _ _ _ _ _ _ _ _ _ _
  case mmaz => exact mmaz _ _ _ _ _ _ _ _ _ _ _ _
  case mmat => exact mmat _ _ _ _ _ _ _ _ _ _ _ _
  case mmai8 => exact mmai8 _ _ _ _ _ _ _ _ _ _ _ _
  case mmamx => exact mmamx _ _ _ _ _ _ _ _ _ _ _ _
  case accrd => exact accrd _ _ _ _ _ _ _
  case accwr => exact accwr _ _ _ _ _ _
  case accz => exact accz _ _ _
  case epicfg => exact epicfg _ _ _
  case abftcfg => exact abftcfg _ _ _
  case bqstat => exact bqstat _ _ _ _ _
  case bar => exact bar _ _ _
  case bart => exact bart _ _ _ _
  case red => exact red _ _ _ _ _ _
  case pairx => exact pairx _ _ _
  case sluice => exact sluice _
  case hfwd => exact hfwd _
  case bandrd => exact bandrd _ _ _ _
  case toffrd => exact toffrd _ _ _ _
  case vfreq => exact vfreq _ _ _ _
  case weir => exact weir _ _ _ _
  case rsvld => exact rsvld _ _ _ _ _ _
  case rsvcfgPart => exact rsvcfgPart _ _ _ _
  case rsvcfgDrop => exact rsvcfgDrop _ _ _ _
  case cgsend => exact cgsend _ _ _ _ _ _ _ _ _
  case cgrant => exact cgrant _ _
  case cgwake => exact cgwake _ _ _
  case cgrel => exact cgrel _ _
  case cgcfgFilter => exact cgcfgFilter _ _
  case cgcfgPort => exact cgcfgPort _ _
  case cgcfgDepth => exact cgcfgDepth _ _
  case cgstat => exact cgstat _ _ _ _ _
  case eos => exact eos _ _
  case cfgswap => exact cfgswap _ _ _ _
  case gbar => exact gbar _ _
  case statred => exact statred _ _ _ _
  case qstat => exact qstat _ _ _ _ _
  case xstr => exact xstr _ _ _
  case migrate => exact migrate _ _ _ _
  case tlbinvPage => exact tlbinvPage _ _ _ _
  case tlbinvQueue => exact tlbinvQueue _ _ _
  case tlbinvAll => exact tlbinvAll _ _
  case compattrQuery => exact compattrQuery _ _ _ _
  case compattrSet => exact compattrSet _ _ _ _
  case compattrRecomp => exact compattrRecomp _ _ _ _
  case coll => exact coll _ _ _ _
  case routesw => exact routesw _ _
  case fportQuiesce => exact fportQuiesce _ _ _ _
  case fportTrain => exact fportTrain _ _ _ _
  case fportCycle => exact fportCycle _ _ _ _
  case fstat => exact fstat _ _ _ _ _
  all_goals exact fun hbody => nomatch hbody

end Laws.Encoding

theorem decode_encode {i : Instr} (hbody : i.isBody = true) (hwf : i.wf = true) (rest : List W32) :
    decode (encode i ++ rest) = .ok (i, rest) := Laws.Encoding.statement i hbody hwf rest

/-- Settles O37: each row's words decode to it, and each arm of the decoder accepts nothing but its row's words. -/
theorem decodingAgreesWithEncoding : Obligations.DecodingAgreesWithEncoding :=
  ⟨fun _ rest hbody hwf => decode_encode hbody hwf rest, fun _ _ _ h => decode_ok h⟩

/-- Settles O35: the decoder, run on each of the words. -/
theorem decodedWords : Obligations.DecodedWords :=
  ⟨rfl, rfl, rfl, rfl, rfl, rfl, rfl, rfl, rfl, rfl, rfl, rfl, rfl, rfl, rfl, rfl, rfl, rfl, rfl, rfl, rfl, rfl⟩

end Sys2Proof
end

