-- ==== Sys2Proof/Proofs/StepDecodes.lean ====
section
/-! PROOF. What a step does: it runs the instruction that the words in place decode to, hands a body that is over to the round, or
takes one of the steps that may happen next (01_encoding, R16, R17, R20; 02_rule, R60, R63; 09_memory_model, R420). -/
namespace Sys2Proof.Machine
open Sys2Proof.Claims

section
variable {s : State}

theorem step_decoded {i : Instr} {r : List W32} (hact : s.stage.active = true) (hover : bodyOver s = false)
    (hd : decode (fetchWords s) = .ok (i, r)) : step s = exec i s := by
  simp only [step, hact, hover, hd, if_true, Bool.false_eq_true, if_false]
theorem step_illegal {e : DecodeError} (hact : s.stage.active = true) (hover : bodyOver s = false)
    (hd : decode (fetchWords s) = .error e) : step s = .next (decodeAbort s e) := by
  simp only [step, hact, hover, hd, if_true, Bool.false_eq_true, if_false]
theorem step_over (hact : s.stage.active = true) (hover : bodyOver s = true) : step s = exec .round s := by
  simp only [step, hact, hover, if_true]
theorem step_chosen {i : Instr} {t : State} (hact : s.stage.active = false) (hc : choose s = (some i, t)) :
    step s = exec i t := by
  simp only [step, hact, hc, Bool.false_eq_true, if_false]
theorem step_idle {t : State} (hact : s.stage.active = false) (hc : choose s = (none, t)) : step s = .next t := by
  simp only [step, hact, hc, Bool.false_eq_true, if_false]

/-! ## The words of a body -/

theorem bits_eq_field (x : W64) (hi lo n : Nat) (hn : hi + 1 - lo = n) : bits x hi lo = field x lo n := by
  rw [bits, field, hn, Nat.shiftRight_eq_div_pow]
theorem bodyLength_eq (h : W64) : bodyLength h = field h 11 5 + 1 := by rw [bodyLength, bits_eq_field h 15 11 5 rfl]
theorem bodyOver_eq_false_iff :
    bodyOver s = false ↔ s.stage.running = true ∧ s.stage.work.pc < field s.stage.work.hdrA 11 5 + 1 := by
  simp only [bodyOver, bodyLength_eq, Bool.or_eq_false_iff, Bool.not_eq_false', decide_eq_false_iff_not, Nat.not_le]
theorem bodyWord_eq (c : Core) (cx w : Nat) :
    bodyWord c cx w = (let a := 0x1000 * cx + 4 * w
      let byte := fun n => (memByte c.active (a + n)).toNat
      BitVec.ofNat 32 (byte 0 + 2 ^ 8 * byte 1 + 2 ^ 16 * byte 2 + 2 ^ 24 * byte 3)) := by
  refine congrArg (BitVec.ofNat 32) ?_
  simp only [memBytes, List.range_succ, List.range_zero, List.nil_append, List.map_cons, List.cons_append, List.map_nil, leNat]
  omega

/-! ## The choice of the next step -/

theorem choose_none (h : candidates s = []) :
    choose s = (none, { s with now := s.now + Config.elapsed s.fresh + 1, fresh := s.fresh + 1 }) := by
  simp only [choose, h, List.drop_nil]
/-- The state on which a chosen step acts: no earlier than now and than the step is due, with its operands in ev, and with the step
taken from the list that it stood in. -/
def chosen (s : State) (c : Option Nat × Pending) : State :=
  let t := { s with now := max (s.now + Config.elapsed s.fresh) c.2.due, fresh := s.fresh + 1, ev := c.2.args }
  match c.1 with
  | none => { t with inputs := s.inputs.drop 1 }
  | some n => { t with agenda := s.agenda.eraseIdx n }
theorem chosen_now (c : Option Nat × Pending) : (chosen s c).now = max (s.now + Config.elapsed s.fresh) c.2.due := by
  obtain ⟨_ | n, p⟩ := c <;> rfl
theorem now_le_chosen (c : Option Nat × Pending) : s.now ≤ (chosen s c).now := by
  rw [chosen_now]
  exact (Nat.le_add_right ..).trans (Nat.le_max_left ..)
theorem due_le_chosen (c : Option Nat × Pending) : c.2.due ≤ (chosen s c).now := by
  rw [chosen_now]
  exact Nat.le_max_right ..
theorem choose_some (h : candidates s ≠ []) : ∃ c ∈ candidates s, choose s = (some c.2.op, chosen s c) := by
  have hlen := List.length_pos_iff.mpr h
  have hk : Config.choice s.fresh % max (candidates s).length 1 < (candidates s).length := by
    rw [Nat.max_eq_left hlen]
    exact Nat.mod_lt _ hlen
  refine ⟨_, List.getElem_mem hk, ?_⟩
  simp only [choose, List.drop_eq_getElem_cons hk]
  generalize (candidates s)[Config.choice s.fresh % max (candidates s).length 1] = c
  obtain ⟨_ | n, p⟩ := c <;> rfl

end

/-- Settles O34: the branches of the step, the bytes of the words that it decodes, and the choice among the candidates. -/
theorem stepRunsTheDecodedInstruction : Obligations.StepRunsTheDecodedInstruction := by
  refine ⟨fun s i r => step_decoded, fun s => step_over, fun s => bodyOver_eq_false_iff, fun s _ => ?_,
    fun s hact hnone => ?_, fun s hact hsome => ?_⟩
  · simp only [fetchWords, bodyLength_eq, bits_eq_field s.stage.work.hdrA 10 0 11 rfl, bodyWord_eq]
    rfl
  · exact ⟨_, step_idle hact (choose_none hnone), Nat.lt_succ_of_le (Nat.le_add_right ..), rfl⟩
  · obtain ⟨⟨src, p⟩, hmem, hc⟩ := choose_some hsome
    refine ⟨src, p, chosen s (src, p), hmem, step_chosen hact hc, now_le_chosen _, due_le_chosen (src, p), ?_⟩
    cases src with
    | none => exact ⟨rfl, fun _ => ⟨rfl, rfl⟩, nofun⟩
    | some n =>
      refine ⟨rfl, nofun, ?_⟩
      rintro _ ⟨⟩
      exact ⟨rfl, rfl⟩

end Sys2Proof.Machine
end

