-- ==== Sys2Proof/Proofs/IllegalWords.lean ====
section
/-! PROOF. How illegal words and missing unit hints end a body (01_encoding, R36, R41, R42). -/
namespace Sys2Proof

/-! ## Opcodes that no row has -/

theorem ofWord_op (w : W32) : (OpWord.ofWord w).op.toNat = w.toNat / 2 ^ 24 := by
  have hw : w.toNat / 2 ^ 24 < 2 ^ 8 := Nat.div_lt_of_lt_mul w.isLt
  rw [OpWord.ofWord, BitVec.extractLsb'_toNat, Nat.shiftRight_eq_div_pow, Nat.mod_eq_of_lt hw]
theorem decode_oneWord {w : W32} {ws : List W32} (h : w.toNat / 2 ^ 24 < 0xC0) :
    decode (w :: ws) = (decodeOne (OpWord.ofWord w)).map (·, ws) := by
  rw [decode.eq_def]
  exact if_pos (by rwa [ofWord_op])
theorem decode_twoWords {w x : W32} {ws : List W32} (h : 0xC0 ≤ w.toNat / 2 ^ 24) :
    decode (w :: x :: ws) = (decodeTwo (OpWord.ofWord w) x).map (·, ws) := by
  rw [decode, if_neg (by rw [ofWord_op]; omega)]
theorem decode_lastWord {w : W32} (h : 0xC0 ≤ w.toNat / 2 ^ 24) : decode [w] = .error .illegalOpcode := by
  rw [decode, if_neg (by rw [ofWord_op]; omega)]

/-- The opcodes without a row (01_encoding, R35, R36). -/
def Unallocated (o : Nat) : Prop :=
  o = 0x2F ∨ (0x35 ≤ o ∧ o ≤ 0x3F) ∨ (0x73 ≤ o ∧ o ≤ 0x7F) ∨ (0x8F ≤ o ∧ o ≤ 0x9F) ∨
    (0xBB ≤ o ∧ o ≤ 0xBF) ∨ (0xD2 ≤ o ∧ o ≤ 0xDF) ∨ (0xEB ≤ o ∧ o ≤ 0xEF) ∨ 0xF6 ≤ o
theorem decodeOne_unallocated {f : OpWord} (h : Unallocated f.op.toNat) : decodeOne f = .error .illegalOpcode := by
  unfold Unallocated at h
  unfold decodeOne
  split
  case h_146 => rfl
  all_goals omega
theorem decodeTwo_unallocated {f : OpWord} {x : W32} (h : Unallocated f.op.toNat) : decodeTwo f x = .error .illegalOpcode := by
  unfold Unallocated at h
  unfold decodeTwo
  split
  case h_36 => rfl
  all_goals omega
theorem decode_unallocated {w : W32} (ws : List W32) (h : Unallocated (w.toNat / 2 ^ 24)) :
    decode (w :: ws) = .error .illegalOpcode := by
  have hf : Unallocated (OpWord.ofWord w).op.toNat := by rwa [ofWord_op]
  rcases Nat.lt_or_ge (w.toNat / 2 ^ 24) 0xC0 with hlow | hhigh
  · rw [decode_oneWord hlow, decodeOne_unallocated hf]
    rfl
  · cases ws with
    | nil => exact decode_lastWord hhigh
    | cons x ws =>
      rw [decode_twoWords hhigh, decodeTwo_unallocated hf]
      rfl

namespace Machine
open Sys2Proof.Claims

/-! ## The unit of an instruction -/

/-- The unit that an opcode's instructions run on (01_encoding, R36). -/
def unitOf (o : Nat) : BodyUnit :=
  if (0x40 ≤ o ∧ o ≤ 0x72) ∨ (0x81 ≤ o ∧ o ≤ 0x85) then .vector
  else if (0xE0 ≤ o ∧ o ≤ 0xE8) ∨ o = 0xEA then .basin
  else .plain

/-- Every instruction of a body is a run on the unit of its opcode. -/
theorem exec_runBody {i : Instr} {f : OpWord} (hf : i.opWord = some f) (s : State) :
    ∃ words cost m, exec i s = runBody s f.op (unitOf f.op.toNat) words cost m := by
  cases i
  all_goals cases hf
  all_goals unfold exec
  case strctlUnbind =>
    unfold execStrctlUnbind runStrctl
    exact ⟨_, _, _, rfl⟩
  all_goals exact ⟨_, _, _, rfl⟩

theorem encode_head {i : Instr} {w : W32} {r : List W32} (h : encode i = w :: r) :
    ∃ f, i.opWord = some f ∧ f.op.toNat = w.toNat / 2 ^ 24 := by
  unfold encode at h
  split at h
  · cases h
  · next f hf =>
    have hw : f.toWord = w := by split at h <;> exact (List.cons.inj h).1
    exact ⟨f, hf, by rw [← hw, ← ofWord_op, OpWord.ofWord_toWord]⟩

/-- An opcode whose unit hint the rule's header does not give. -/
def Unhinted (s : State) (o : Nat) : Prop :=
  (((0x40 ≤ o ∧ o ≤ 0x72) ∨ (0x81 ≤ o ∧ o ≤ 0x85)) ∧ ¬ VectorHint s) ∨
    (((0xE0 ≤ o ∧ o ≤ 0xE8) ∨ o = 0xEA) ∧ ¬ BasinHint s)
theorem hinted_of_unhinted {s : State} {o : Nat} (h : Unhinted s o) : hinted (unitOf o) s.stage.work.hdrA = false := by
  obtain ⟨ho, hv⟩ | ⟨ho, hb⟩ := h
  · rw [unitOf, if_pos ho]
    exact Bool.eq_false_iff.mpr hv
  · rw [unitOf, if_neg (by omega), if_pos ho]
    exact Bool.eq_false_iff.mpr hb
theorem exec_unhinted {i : Instr} {s : State} {w : W32} {r : List W32} (he : encode i = w :: r)
    (h : Unhinted s (w.toNat / 2 ^ 24)) :
    ∃ cost, exec i s = AbortsAt s (start s (BitVec.ofNat 8 (w.toNat / 2 ^ 24))) cost (plainAbort 0x04 0) := by
  obtain ⟨f, hf, ho⟩ := encode_head he
  obtain ⟨words, cost, m, hx⟩ := exec_runBody hf s
  rw [← ho] at h ⊢
  rw [BitVec.ofNat_toNat, BitVec.setWidth_eq]
  exact ⟨cost, hx.trans (runBody_unhinted (hinted_of_unhinted h))⟩

/-- Settles O29: the abort of a word that does not decode, the codes that no row has, and the check of the unit hints. -/
theorem illegalWordsAbort : Obligations.IllegalWordsAbort := by
  refine ⟨fun s e hact hover hd => ⟨((fetchWords s).headD 0).extractLsb' 24 8, ?_⟩, fun w r => decode_unallocated r,
    fun w => decode_lastWord, fun i s w r _ he => exec_unhinted he⟩
  rw [step_illegal hact hover hd]
  cases e <;> rfl

end Machine
end Sys2Proof
end

