-- ==== Sys2Proof/Proofs/OperandReads.lean ====
section
/-! PROOF. What a source operand reads, in both classes (01_encoding, R27 to R30; 02_rule, R59; 03_core_numbers, R101;
11_package_cascade, R305, R307): first each thing that can be read, then the codes of an operand. -/
namespace Sys2Proof.Machine
open Sys2Proof.Claims

/-! ## Computations that give a value or stop -/

section
variable {α β : Type} {m : Body α} {f : α → Body β} {w w' w'' : Work} {x : α} {y : β} {a : Abort}

theorem gives_bind (hm : Gives m w x w') (hf : Gives (f x) w' y w'') : Gives (m >>= f) w y w'' :=
  (Body.bind_ok hm).trans hf
theorem stops_bind (hm : Stops m w a w') : Stops (m >>= f) w a w' := Body.bind_error hm
theorem stops_bind_gives (hm : Gives m w x w') (hf : Stops (f x) w' a w'') : Stops (m >>= f) w a w'' :=
  (Body.bind_ok hm).trans hf
theorem gives_pure : Gives (pure x : Body α) w x w := rfl
theorem gives_get : Gives (get : Body Work) w w w := rfl
theorem stops_illegal : Stops (illegal : Body α) w (plainAbort 0x04 0) w := rfl
theorem gives_need {c : BitVec 8} {i : W64} {ok : Bool} (h : ok = true) : Gives (need ok c i) w () w := by
  subst h
  exact need_true ..
theorem stops_need {c : BitVec 8} {i : W64} {ok : Bool} (h : ok = false) : Stops (need ok c i) w (plainAbort c i) w := by
  subst h
  exact need_false ..

end

/-! ## Fields -/

theorem bitAt_eq_getLsbD {n : Nat} (x : BitVec n) (i : Nat) : bitAt x i = x.getLsbD i := rfl
theorem bits_eq_part (sb : Sideband) (hi lo n : Nat) (hn : hi + 1 - lo = n) : bits sb hi lo = part sb lo n := by
  rw [bits, part, hn, Nat.shiftRight_eq_div_pow]
theorem ofScalar_eq_ofNat (x : W64) : ofScalar x = BitVec.ofNat 512 x.toNat := (BitVec.ofNat_toNat 512 x).symm
theorem slice_zero_eq_ofNat {n m : Nat} (x : BitVec n) : x.extractLsb' 0 m = BitVec.ofNat m x.toNat := by
  rw [BitVec.extractLsb', Nat.shiftRight_zero]
theorem drop_of_getElem?_none {α : Type} {l : List α} {k : Nat} (h : l[k]? = none) : l.drop k = [] :=
  List.drop_eq_nil_of_le (List.getElem?_eq_none_iff.mp h)
theorem drop_of_getElem?_some {α : Type} {l : List α} {k : Nat} {x : α} (h : l[k]? = some x) :
    l.drop k = x :: l.drop (k + 1) := by
  obtain ⟨hk, rfl⟩ := List.getElem?_eq_some_iff.mp h
  exact List.drop_eq_getElem_cons hk

section
variable {s : State} {w : Work}

/-! ## Tokens -/

theorem takeToken_none {p : Nat} {keep : Bool} (h : nextToken s p w = none) :
    Stops (takeToken s p keep) w (plainAbort 0x04 0) w := by
  refine stops_bind_gives gives_get ?_
  dsimp only
  rw [drop_of_getElem?_none h]
  exact stops_illegal
theorem takeToken_keep {p : Nat} {tok : Token} (h : nextToken s p w = some tok) : Gives (takeToken s p true) w tok w := by
  refine gives_bind gives_get ?_
  dsimp only
  rw [drop_of_getElem?_some h]
  exact gives_pure
/-- The check of fm that a pop makes, but for the records of the handler chain (R101). -/
theorem exempt_or_fm_iff {p : Nat} {tok : Token} :
    (p == 4 && bits tok.sb 18 13 == 63 && (chainPosition s s.stage.core s.stage.cx.val).isSome ||
      bitAt tok.sb 10 == (bodyCtx s).fm) = true ↔ tok.sb.getLsbD 10 = (bodyCtx s).fm ∨ ChainRecord s p tok := by
  simp only [bitAt_eq_getLsbD, bits_eq_part tok.sb 18 13 6 rfl, ChainRecord, Bool.or_eq_true, Bool.and_eq_true, beq_iff_eq,
    Option.isSome_iff_ne_none, and_assoc, or_comm]
theorem takeToken_pop {p : Nat} {tok : Token} (h : nextToken s p w = some tok)
    (hfm : tok.sb.getLsbD 10 = (bodyCtx s).fm ∨ ChainRecord s p tok) :
    Gives (takeToken s p false) w tok { w with pops := vset w.pops p (vget w.pops p 0 + 1) } := by
  refine gives_bind gives_get ?_
  dsimp only
  rw [drop_of_getElem?_some h]
  exact gives_bind (gives_need (exempt_or_fm_iff.mpr hfm)) rfl
theorem takeToken_badFm {p : Nat} {tok : Token} (h : nextToken s p w = some tok)
    (hfm : tok.sb.getLsbD 10 ≠ (bodyCtx s).fm) (hchain : ¬ ChainRecord s p tok) :
    Stops (takeToken s p false) w (plainAbort 0x06 0) w := by
  refine stops_bind_gives gives_get ?_
  dsimp only
  rw [drop_of_getElem?_some h]
  exact stops_bind (stops_need (Bool.eq_false_iff.mpr fun hc => (exempt_or_fm_iff.mp hc).elim hfm hchain))

/-! ## Blocks of the Cascade -/

theorem takeBlock_none {o : Nat} {keep : Bool} (h : nextBlock s o w = none) :
    Stops (takeBlock s o keep) w (plainAbort 0x04 0) w := by
  refine stops_bind_gives gives_get ?_
  dsimp only
  rw [drop_of_getElem?_none h]
  exact stops_illegal
section
variable {o i : Nat} {b : Block} (h : nextBlock s o w = some i) (hb : (vget (bodyCore s).rx i RxSlot.reset).blk = some b)
include h hb

theorem takeBlock_keep : Gives (takeBlock s o true) w (i, b) w := by
  refine gives_bind gives_get ?_
  dsimp only
  rw [drop_of_getElem?_some h]
  dsimp only
  rw [hb]
  exact gives_pure
theorem takeBlock_pop (hfm : b.fm = (bodyCtx s).fm) :
    Gives (takeBlock s o false) w (i, b) { w with pops := vset w.pops (5 + o) (vget w.pops (5 + o) 0 + 1) } := by
  refine gives_bind gives_get ?_
  dsimp only
  rw [drop_of_getElem?_some h]
  dsimp only
  rw [hb]
  exact gives_bind (gives_need (beq_iff_eq.mpr hfm)) rfl
theorem takeBlock_badFm (hfm : b.fm ≠ (bodyCtx s).fm) : Stops (takeBlock s o false) w (plainAbort 0x06 0) w := by
  refine stops_bind_gives gives_get ?_
  dsimp only
  rw [drop_of_getElem?_some h]
  dsimp only
  rw [hb]
  exact stops_bind (stops_need (beq_eq_false_iff_ne.mpr hfm))

end

/-- A block is read as its first 64 bytes, or in deposit mode as its place and length (R307). -/
theorem blockValue_reads (i : Nat) (b : Block) : BlockReads307 s i b (blockValue (bodyCore s) i b) := by
  simp only [BlockReads307, blockValue, bitAt, Nat.testBit_eq_decide_div_mod_eq, decide_eq_true_eq]
  refine ⟨fun hdep => ?_, fun hdirect => ?_⟩
  · rw [if_pos hdep, bits, Nat.shiftRight_eq_div_pow, ofScalar_eq_ofNat, BitVec.toNat_ofNat]
  · rw [if_neg (by omega)]
theorem blockSb_reads (b : Block) : BlockSideband s b (blockSb b ((bodyCtx s).lc % 4)) := by
  have hscl := b.scl.isLt
  have hfmt := b.fmt.isLt
  have hfm : ofBool b.fm = (if b.fm then 1 else 0) := rfl
  have hlast : ofBool b.last = (if b.last then 1 else 0) := rfl
  have hfm1 : ofBool b.fm ≤ 1 := by rw [hfm]; split <;> omega
  have hlast1 : ofBool b.last ≤ 1 := by rw [hlast]; split <;> omega
  simp only [BlockSideband, part, blockSb, BitVec.toNat_ofNat, ← hfm, ← hlast]
  omega

/-! ## Elements and literals -/

theorem takeElement_stops {q : Nat} (h : (vget (bodyCtx s).q q Stream.reset).bound = false ∨
      (vget (bodyCtx s).q q Stream.reset).dir = true ∨
      (vget (bodyCtx s).q q Stream.reset).fetched[vget w.adv q 0]? = none) :
    Stops (takeElement s q) w (plainAbort 0x04 0) w := by
  refine stops_bind_gives gives_get ?_
  dsimp only
  split
  · next hopen =>
    simp only [Bool.and_eq_true, Bool.not_eq_true'] at hopen
    obtain ⟨hbound, hdir⟩ := hopen
    have hnone : (vget (bodyCtx s).q q Stream.reset).fetched[vget w.adv q 0]? = none := by simpa [hbound, hdir] using h
    rw [drop_of_getElem?_none hnone]
    exact stops_illegal
  · exact stops_illegal
theorem takeElement_gives {q : Nat} {tok : Token} (hbound : (vget (bodyCtx s).q q Stream.reset).bound = true)
    (hdir : (vget (bodyCtx s).q q Stream.reset).dir = false)
    (h : (vget (bodyCtx s).q q Stream.reset).fetched[vget w.adv q 0]? = some tok) :
    Gives (takeElement s q) w tok { w with adv := vset w.adv q (vget w.adv q 0 + 1) } := by
  refine gives_bind gives_get ?_
  dsimp only
  rw [hbound, hdir, drop_of_getElem?_some h]
  rfl
theorem takeLit_gives (h : field w.hdrA 16 6 + w.lits ≤ 63) :
    Gives (takeLit s) w (tableWord (bodyCore s) s.stage.cx.val (0x600 + 8 * (field w.hdrA 16 6 + w.lits)))
      { w with lits := w.lits + 1 } := by
  refine gives_bind gives_get ?_
  dsimp only
  rw [bits_eq_field w.hdrA 21 16 6 rfl]
  exact gives_bind (gives_need (decide_eq_true h)) rfl
theorem takeLit_stops (h : 63 < field w.hdrA 16 6 + w.lits) :
    Stops (takeLit s) w (plainAbort 0x09 (word (field w.hdrA 16 6 + w.lits))) w := by
  refine stops_bind_gives gives_get ?_
  dsimp only
  rw [bits_eq_field w.hdrA 21 16 6 rfl]
  exact stops_bind (stops_need (decide_eq_false (Nat.not_le.mpr h)))


/-! ## The codes of a source operand (R28) -/

section
variable {c : Opd} {keep : Bool}

theorem readV_register (h : c.toNat < 16) : readV s c keep = (get >>= fun w => pure (vget w.v c.toNat 0, 0)) := by
  simp [readV, h]
theorem readV_port (h16 : 16 ≤ c.toNat) (h21 : c.toNat < 21) :
    readV s c keep = (takeToken s (c.toNat - 16) keep >>= fun tok => pure (tok.pay, tok.sb)) := by
  simp [readV, h21, show ¬ c.toNat < 16 by omega]
theorem readV_optical (h : c.toNat = 22 ∨ c.toNat = 23) :
    readV s c keep = (takeBlock s (c.toNat - 22) keep >>= fun b =>
      pure (blockValue (bodyCore s) b.1 b.2, blockSb b.2 ((bodyCtx s).lc % 4))) := by
  simp [readV, h, show ¬ c.toNat < 16 by omega, show ¬ c.toNat < 21 by omega]
theorem readV_stream (h24 : 24 ≤ c.toNat) (h28 : c.toNat < 28) :
    readV s c keep = (takeElement s (c.toNat - 24) >>= fun tok => pure (tok.pay, tok.sb)) := by
  simp [readV, h24, h28, show ¬ c.toNat < 16 by omega, show ¬ c.toNat < 21 by omega, show ¬ c.toNat = 22 by omega,
    show ¬ c.toNat = 23 by omega]
theorem readV_literal (h : c.toNat = 28) :
    readV s c keep = (takeLit s >>= fun v => pure (ofLanes (fun _ => v.extractLsb' 0 32), 0)) := by
  simp [readV, h]
theorem readV_zero (h : c.toNat = 31) : readV s c keep = pure (0, 0) := by
  simp [readV, h]
theorem readV_other (h : c.toNat = 21 ∨ c.toNat = 29 ∨ c.toNat = 30) : readV s c keep = illegal := by
  obtain h | h | h := h <;> simp [readV, h]
theorem readS_register (h : c.toNat < 16) : readS s c keep = (get >>= fun w => pure (vget w.s c.toNat 0, 0)) := by
  simp [readS, h]
theorem readS_literal (h : c.toNat = 28) : readS s c keep = (takeLit s >>= fun v => pure (v, 0)) := by
  simp [readS, h]
theorem readS_tags (h : c.toNat = 29) : readS s c keep = (get >>= fun w => pure (w.tb, 0)) := by
  simp [readS, h]
theorem readS_status (h : c.toNat = 30) :
    readS s c keep = (get >>= fun w => pure (statusWord (bodyCtx s) w.flags, 0)) := by
  simp [readS, h]
theorem readS_vector (h16 : 16 ≤ c.toNat) (h28 : c.toNat ≠ 28) (h29 : c.toNat ≠ 29) (h30 : c.toNat ≠ 30) :
    readS s c keep = (readV s c keep >>= fun v => pure (loScalar v.1, v.2)) := by
  simp [readS, h28, h29, h30, show ¬ c.toNat < 16 by omega]

end
end

/-- Settles O26: the codes of a source operand, each by what its reads give and where they stop. -/
theorem sourceOperandReads : Obligations.SourceOperandReads := by
  intro s c keep w
  refine ⟨fun hreg => ?_, fun h16 h21 => ⟨fun hnone => ?_, fun tok htok => ⟨?_, ?_⟩⟩,
    fun hopt => ⟨fun hnone => ?_, fun i b hi hb => ⟨?_, ?_⟩⟩,
    fun h24 h28 => ⟨fun hshut => ?_, fun tok hbound hdir htok => ?_⟩,
    fun hlit => ⟨fun hin => ⟨?_, ?_⟩, fun hout => ⟨?_, ?_⟩⟩, fun hz => ?_, fun hother => ?_,
    fun hreg => ?_, fun htags => ?_, fun hst => ?_, fun h16 h28 h29 h30 => ⟨fun v sb w' hv => ?_, fun a w' hv => ?_⟩⟩
  · rw [readV_register hreg]
    exact gives_bind gives_get gives_pure
  · rw [readV_port h16 h21]
    exact stops_bind (takeToken_none hnone)
  · rintro rfl
    rw [readV_port h16 h21]
    exact gives_bind (takeToken_keep htok) gives_pure
  · rintro rfl
    rw [readV_port h16 h21]
    exact ⟨fun hfm => gives_bind (takeToken_pop htok hfm) gives_pure,
      fun hfm hchain => stops_bind (takeToken_badFm htok hfm hchain)⟩
  · rw [readV_optical hopt]
    exact stops_bind (takeBlock_none hnone)
  · rintro rfl hfm
    rw [readV_optical hopt]
    exact stops_bind (takeBlock_badFm hi hb hfm)
  · intro hfm
    refine ⟨_, _, blockValue_reads i b, blockSb_reads b, ?_⟩
    rw [readV_optical hopt]
    cases keep with
    | true => exact gives_bind (takeBlock_keep hi hb) gives_pure
    | false =>
      have hpops : c.toNat - 17 = 5 + (c.toNat - 22) := by omega
      rw [if_neg (by decide), hpops]
      exact gives_bind (takeBlock_pop hi hb (hfm.resolve_left (by decide))) gives_pure
  · rw [readV_stream h24 h28]
    exact stops_bind (takeElement_stops hshut)
  · rw [readV_stream h24 h28]
    exact gives_bind (takeElement_gives hbound hdir htok) gives_pure
  · rw [readV_literal hlit]
    refine gives_bind (takeLit_gives hin) ?_
    simp only [slice_zero_eq_ofNat]
    exact gives_pure
  · rw [readS_literal hlit]
    exact gives_bind (takeLit_gives hin) gives_pure
  · rw [readV_literal hlit]
    exact stops_bind (takeLit_stops hout)
  · rw [readS_literal hlit]
    exact stops_bind (takeLit_stops hout)
  · rw [readV_zero hz]
    exact gives_pure
  · rw [readV_other hother]
    exact stops_illegal
  · rw [readS_register hreg]
    exact gives_bind gives_get gives_pure
  · rw [readS_tags htags]
    exact gives_bind gives_get gives_pure
  · rw [readS_status hst]
    exact gives_bind gives_get gives_pure
  · rw [readS_vector h16 h28 h29 h30]
    refine gives_bind hv ?_
    simp only [loScalar, slice_zero_eq_ofNat]
    exact gives_pure
  · rw [readS_vector h16 h28 h29 h30]
    exact stops_bind hv

end Sys2Proof.Machine
end

