-- ==== Sys2Proof/Proofs/OperandWrites.lean ====
section
/-! PROOF. What a destination operand does, in both classes, and the sideband of a pushed token (01_encoding, R22, R28, R31 to R33;
02_rule, R57, R59, R68; 05_core_memory, R163). -/
namespace Sys2Proof.Machine
open Sys2Proof.Claims

section
variable {s : State} {w w' : Work}

/-! ## Pushed tokens and written elements -/

theorem pushToken_gives {p : Nat} {v : V512} {sb : Nat → Sideband} (h : Pushes s p v sb w w') :
    Gives (pushToken s p v sb) w () w' := by
  obtain ⟨b, hb, hcredit, hroom, rfl⟩ := h
  refine gives_bind gives_get ?_
  dsimp only
  rw [hb]
  exact gives_bind (gives_need (decide_eq_true hcredit)) (gives_bind (entry_ok hroom) rfl)
theorem pushToken_unbound {p : Nat} {v : V512} {sb : Nat → Sideband} (hb : vget (bodyCtx s).binds p none = none) :
    Stops (pushToken s p v sb) w (plainAbort 0x04 0) w := by
  refine stops_bind_gives gives_get ?_
  dsimp only
  rw [hb]
  exact stops_illegal
section
variable {p : Nat} {v : V512} {sb : Nat → Sideband} {b : Binding} (hb : vget (bodyCtx s).binds p none = some b)
include hb

theorem pushToken_noCredit (hcredit : b.credits ≤ vget w.push p 0) :
    Stops (pushToken s p v sb) w (plainAbort 0x04 0) w := by
  refine stops_bind_gives gives_get ?_
  dsimp only
  rw [hb]
  exact stops_bind (stops_need (decide_eq_false (Nat.not_lt.mpr hcredit)))
theorem pushToken_full (hcredit : vget w.push p 0 < b.credits) (hfull : 32 ≤ w.entries) :
    Stops (pushToken s p v sb) w (plainAbort 0x0B 0) w := by
  refine stops_bind_gives gives_get ?_
  dsimp only
  rw [hb]
  exact stops_bind_gives (gives_need (decide_eq_true hcredit)) (stops_bind (entry_full (Nat.not_lt.mpr hfull)))

end

/-- A stream that takes one element more of the body: bound for writing, with a free place (05_core_memory, R163). -/
def StreamOpen (s : State) (q : Nat) (w : Work) : Prop :=
  let st := vget (bodyCtx s).q q Stream.reset
  st.bound = true ∧ st.dir = true ∧ st.queued.length + vget w.wr q 0 < 64
theorem streamOpen_iff {q : Nat} :
    (let st := vget (bodyCtx s).q q Stream.reset
     st.bound && st.dir && decide (st.queued.length + vget w.wr q 0 < 64)) = true ↔ StreamOpen s q w := by
  simp only [StreamOpen, Bool.and_eq_true, decide_eq_true_eq, and_assoc]
theorem writeElement_gives {q : Nat} {v : V512} (h : Streams s q v w w') : Gives (writeElement s q v) w () w' := by
  obtain ⟨hbound, hdir, hplace, hroom, rfl⟩ := h
  refine gives_bind gives_get (gives_bind (gives_need (streamOpen_iff.mpr ⟨hbound, hdir, hplace⟩)) ?_)
  exact gives_bind (entry_ok hroom) rfl
theorem writeElement_shut {q : Nat} {v : V512} (h : ¬ StreamOpen s q w) :
    Stops (writeElement s q v) w (plainAbort 0x04 0) w :=
  stops_bind_gives gives_get (stops_bind (stops_need (Bool.eq_false_iff.mpr fun hc => h (streamOpen_iff.mp hc))))
theorem writeElement_full {q : Nat} {v : V512} (h : StreamOpen s q w) (hfull : 32 ≤ w.entries) :
    Stops (writeElement s q v) w (plainAbort 0x0B 0) w :=
  stops_bind_gives gives_get (stops_bind_gives (gives_need (streamOpen_iff.mpr h))
    (stops_bind (entry_full (Nat.not_lt.mpr hfull))))

/-! ## The codes of a destination operand (R28) -/

section
variable {d : Opd} {x : W64} {v : V512} {sb : Bool → Nat → Sideband}

theorem writeS_register (h : d.toNat < 16) : writeS s d x sb = stageS d.toNat x := by simp [writeS, h]
theorem writeS_port (h16 : 16 ≤ d.toNat) (h20 : d.toNat < 20) :
    writeS s d x sb = pushToken s (d.toNat - 16) (BitVec.ofNat 512 x.toNat) (sb false) := by
  simp [writeS, h20, show ¬ d.toNat < 16 by omega, ofScalar_eq_ofNat]
theorem writeS_stream (h24 : 24 ≤ d.toNat) (h28 : d.toNat < 28) :
    writeS s d x sb = writeElement s (d.toNat - 24) (BitVec.ofNat 512 x.toNat) := by
  simp [writeS, h24, h28, show ¬ d.toNat < 16 by omega, show ¬ d.toNat < 20 by omega, ofScalar_eq_ofNat]
theorem writeS_zero (h : d.toNat = 31) : writeS s d x sb = pure () := by simp [writeS, h]
theorem writeS_other (h : (20 ≤ d.toNat ∧ d.toNat < 24) ∨ (28 ≤ d.toNat ∧ d.toNat < 31)) : writeS s d x sb = illegal := by
  have hstream : ¬ (24 ≤ d.toNat ∧ d.toNat < 28) := by omega
  simp [writeS, hstream, show ¬ d.toNat < 16 by omega, show ¬ d.toNat < 20 by omega, show ¬ d.toNat = 31 by omega]
theorem writeV_register (h : d.toNat < 16) : writeV s d v sb = stageV d.toNat v := by simp [writeV, h]
theorem writeV_port (h16 : 16 ≤ d.toNat) (h20 : d.toNat < 20) :
    writeV s d v sb = pushToken s (d.toNat - 16) v (sb true) := by
  simp [writeV, h20, show ¬ d.toNat < 16 by omega]
theorem writeV_stream (h24 : 24 ≤ d.toNat) (h28 : d.toNat < 28) : writeV s d v sb = writeElement s (d.toNat - 24) v := by
  simp [writeV, h24, h28, show ¬ d.toNat < 16 by omega, show ¬ d.toNat < 20 by omega]
theorem writeV_zero (h : d.toNat = 31) : writeV s d v sb = pure () := by simp [writeV, h]
theorem writeV_other (h : (20 ≤ d.toNat ∧ d.toNat < 24) ∨ (28 ≤ d.toNat ∧ d.toNat < 31)) : writeV s d v sb = illegal := by
  have hstream : ¬ (24 ≤ d.toNat ∧ d.toNat < 28) := by omega
  simp [writeV, hstream, show ¬ d.toNat < 16 by omega, show ¬ d.toNat < 20 by omega, show ¬ d.toNat = 31 by omega]

end

theorem stageS_full {i : Nat} {x : W64} (h : w.sD.getLsbD i = false) (hfull : 32 ≤ w.entries) :
    Stops (stageS i x) w (plainAbort 0x0B 0) w := by
  refine stops_bind_gives gives_get ?_
  rw [bitAt_eq_getLsbD, h]
  exact stops_bind (entry_full (Nat.not_lt.mpr hfull))
theorem stageV_full {i : Nat} {v : V512} (h : w.vD.getLsbD i = false) (hfull : 32 ≤ w.entries) :
    Stops (stageV i v) w (plainAbort 0x0B 0) w := by
  refine stops_bind_gives gives_get ?_
  rw [bitAt_eq_getLsbD, h]
  exact stops_bind (entry_full (Nat.not_lt.mpr hfull))

end

theorem destinationOperandWrites : DestinationOperandWrites := by
  intro s d e x v u w w1 w2
  refine ⟨fun hreg => ?_, fun h16 h20 => ⟨fun hpush => ?_, fun hpush => ?_, fun hunbound => ?_,
      fun b hb => ⟨fun hcredit => ?_, fun hcredit hfull => ?_⟩⟩,
    fun h24 h28 => ⟨fun hstr => ?_, fun hstr => ?_, fun hshut => ?_, fun hopen hfull => ?_⟩, fun hz => ?_, fun hother => ?_,
    fun hd he => gives_bind hd he, fun hd he => gives_bind hd he⟩
  · rw [writeS_register hreg, writeV_register hreg]
    exact ⟨stageS_again x, stageS_first x, stageS_full, stageV_again v, stageV_first v, stageV_full⟩
  · rw [writeS_port h16 h20]
    exact pushToken_gives hpush
  · rw [writeV_port h16 h20]
    exact pushToken_gives hpush
  · rw [writeS_port h16 h20, writeV_port h16 h20]
    exact ⟨pushToken_unbound hunbound, pushToken_unbound hunbound⟩
  · rw [writeS_port h16 h20, writeV_port h16 h20]
    exact ⟨pushToken_noCredit hb hcredit, pushToken_noCredit hb hcredit⟩
  · rw [writeS_port h16 h20, writeV_port h16 h20]
    exact ⟨pushToken_full hb hcredit hfull, pushToken_full hb hcredit hfull⟩
  · rw [writeS_stream h24 h28]
    exact writeElement_gives hstr
  · rw [writeV_stream h24 h28]
    exact writeElement_gives hstr
  · rw [writeS_stream h24 h28, writeV_stream h24 h28]
    exact ⟨writeElement_shut hshut, writeElement_shut hshut⟩
  · rw [writeS_stream h24 h28, writeV_stream h24 h28]
    exact ⟨writeElement_full hopen hfull, writeElement_full hopen hfull⟩
  · rw [writeS_zero hz, writeV_zero hz]
    exact ⟨gives_pure, gives_pure⟩
  · rw [writeS_other hother, writeV_other hother]
    exact ⟨stops_illegal, stops_illegal⟩

/-! ## The sideband of a pushed token (R31 to R33) -/

theorem part_testBit (x : Sideband) (l n i : Nat) : (part x l n).testBit i = (decide (i < n) && x.getLsbD (l + i)) := by
  rw [part, Nat.testBit_mod_two_pow, Nat.testBit_div_two_pow, Nat.add_comm i l]
  rfl
theorem putBits_getLsbD {n hi lo v i : Nat} (x : BitVec n) (hlo : lo ≤ hi) (hin : i < n) :
    (putBits x hi lo v).getLsbD i = if lo ≤ i ∧ i ≤ hi then v.testBit (i - lo) else x.getLsbD i := by
  have hk : hi + 1 = lo + (hi + 1 - lo) := by omega
  have hsum : x.toNat % 2 ^ lo + v % 2 ^ (hi + 1 - lo) * 2 ^ lo + x.toNat / 2 ^ (hi + 1) * 2 ^ (hi + 1) =
      2 ^ lo * (2 ^ (hi + 1 - lo) * (x.toNat / 2 ^ (hi + 1)) + v % 2 ^ (hi + 1 - lo)) + x.toNat % 2 ^ lo := by
    rw [show (2 : Nat) ^ (hi + 1) = 2 ^ lo * 2 ^ (hi + 1 - lo) by rw [← Nat.pow_add, ← hk]]
    ring
  rw [putBits, hsum, BitVec.getLsbD_ofNat, Nat.testBit_two_pow_mul_add _ (Nat.mod_lt _ (Nat.two_pow_pos lo)),
    Nat.testBit_two_pow_mul_add _ (Nat.mod_lt _ (Nat.two_pow_pos _)), Nat.testBit_mod_two_pow, Nat.testBit_mod_two_pow,
    Nat.testBit_div_two_pow, decide_eq_true hin, Bool.true_and]
  by_cases hlow : i < lo
  · rw [if_pos hlow, if_neg (by omega), decide_eq_true hlow, Bool.true_and]
    rfl
  · by_cases hmid : i ≤ hi
    · rw [if_neg hlow, if_pos (by omega), if_pos (by omega), decide_eq_true (by omega), Bool.true_and]
    · rw [if_neg hlow, if_neg (by omega), if_neg (by omega), show i - lo - (hi + 1 - lo) + (hi + 1) = i by omega]
      rfl
/-- A field that lies outside the bits replaced. -/
theorem part_putBits_other {x : Sideband} {hi lo v l n : Nat} (hlo : lo ≤ hi) (hn : l + n ≤ 40)
    (h : l + n ≤ lo ∨ hi < l) : part (putBits x hi lo v) l n = part x l n := by
  apply Nat.eq_of_testBit_eq
  intro i
  rw [part_testBit, part_testBit]
  by_cases hi : i < n
  · rw [putBits_getLsbD x hlo (by omega), if_neg (by omega)]
  · simp only [hi, decide_false, Bool.false_and]
/-- A field that lies in the bits replaced. -/
theorem part_putBits_within {x : Sideband} {hi lo v l n : Nat} (hhi : hi < 40) (hl : lo ≤ l) (hn : l + n ≤ hi + 1) (hpos : 0 < n) :
    part (putBits x hi lo v) l n = v / 2 ^ (l - lo) % 2 ^ n := by
  apply Nat.eq_of_testBit_eq
  intro i
  rw [part_testBit, Nat.testBit_mod_two_pow, Nat.testBit_div_two_pow]
  by_cases hi : i < n
  · rw [putBits_getLsbD x (by omega) (by omega), if_pos (by omega), show l + i - lo = i + (l - lo) by omega]
  · simp only [hi, decide_false, Bool.false_and]

/-- The sideband before the fields of the port: the tag action on the bases (R32, R33). -/
def tagged (t : Tag) (rtype : BitVec 3) (a b : Sideband) : Sideband :=
  match t.toNat with
  | 1 => 0
  | 2 => putBits (sbBase a) 4 3 1
  | 3 => putBits (sbBase a) 4 3 2
  | 4 => putBits (sbBase a) 4 3 3
  | 5 => putBits (sbBase a) 5 5 1
  | 6 => putBits (sbBase a) 6 6 1
  | 7 => putBits (sbBase a) 7 7 1
  | 8 => putBits (sbBase a) 8 8 1
  | 9 => putBits (sbBase a) 9 9 1
  | 10 => putBits (sbBase a) 2 0 rtype.toNat
  | 11 => sbBase b
  | _ => sbBase a
theorem sbPush_eq (t : Tag) (rtype : BitVec 3) (a b : Sideband) (fm : Bool) (cx : Nat) (wd : Bool) :
    sbPush t rtype a b fm cx wd =
      putBits (putBits (putBits (tagged t rtype a b) 10 10 (ofBool fm)) 12 11 cx) 39 39 (ofBool wd) := rfl
/-- The fields that a tag action passes on are those of the base (R32). -/
theorem part_sbBase {sb : Sideband} {l n : Nat} (h : l + n ≤ 10 ∨ (19 ≤ l ∧ l + n ≤ 39)) :
    part (sbBase sb) l n = part sb l n := by
  have hmask : ∀ j < 40, j < 10 ∨ (19 ≤ j ∧ j < 39) → (0x7FFFF803FF#40).getLsbD j = true := by decide
  apply Nat.eq_of_testBit_eq
  intro i
  rw [part_testBit, part_testBit, sbBase, BitVec.getLsbD_and]
  by_cases hi : i < n
  · rw [hmask (l + i) (by omega) (by omega), Bool.and_true]
  · simp only [hi, decide_false, Bool.false_and]
/-- No base has an rt (R31). -/
theorem part_sbBase_rt {sb : Sideband} : part (sbBase sb) 13 6 = 0 := by
  have hmask : ∀ j < 6, (0x7FFFF803FF#40).getLsbD (13 + j) = false := by decide
  apply Nat.eq_of_testBit_eq
  intro i
  rw [part_testBit, sbBase, BitVec.getLsbD_and, Nat.zero_testBit]
  by_cases hi : i < 6
  · rw [hmask i hi, Bool.and_false, Bool.and_false]
  · simp only [hi, decide_false, Bool.false_and]
theorem part_zero {l n : Nat} : part 0#40 l n = 0 := by
  rw [part, BitVec.toNat_ofNat, Nat.zero_mod, Nat.zero_div, Nat.zero_mod]

section
variable {t : Tag} {rtype : BitVec 3} {a b : Sideband} {fm wd : Bool} {cx : Nat}

/-- The fields that are neither the port's own nor h, t, e and d: the tag action's base (R32, R33). -/
theorem part_tagged_base {u : TagUse} (ht : u.t.toNat ≤ 12) :
    let r := tagged u.t u.rtype u.a u.b
    let t := u.t.toNat
    let b := if t = 11 then u.b else u.a
    part r 13 6 = 0 ∧ part r 19 20 = (if t = 1 then 0 else part b 19 20) ∧
    part r 0 3 = (if t = 1 then 0 else if t = 10 then u.rtype.toNat else part b 0 3) := by
  have hrtype : u.rtype.toNat < 8 := u.rtype.isLt
  unfold tagged
  generalize u.t.toNat = t at ht
  interval_cases t
  all_goals
    simp (disch := omega) [part_putBits_other, part_putBits_within, part_sbBase, part_sbBase_rt, part_zero, hrtype]
/-- h and t of a token, one tag action at a time (R33). -/
theorem part_tagged_headTail {u : TagUse} (ht : u.t.toNat ≤ 12) :
    let r := tagged u.t u.rtype u.a u.b
    let t := u.t.toNat
    let b := if t = 11 then u.b else u.a
    part r 3 1 = (if t = 1 ∨ t = 3 then 0 else if t = 2 ∨ t = 4 then 1 else part b 3 1) ∧
    part r 4 1 = (if t = 1 ∨ t = 2 then 0 else if t = 3 ∨ t = 4 then 1 else part b 4 1) := by
  unfold tagged
  generalize u.t.toNat = t at ht
  interval_cases t
  all_goals
    simp (disch := omega) [part_putBits_other, part_putBits_within, part_sbBase, part_zero]
/-- e and the four bits of d, which the tag actions 5 to 9 set one by one (R33). -/
theorem part_tagged_mark {u : TagUse} (ht : u.t.toNat ≤ 12) {k : Nat} (h5 : 5 ≤ k) (h9 : k ≤ 9) :
    let t := u.t.toNat
    let b := if t = 11 then u.b else u.a
    part (tagged u.t u.rtype u.a u.b) k 1 = (if t = 1 then 0 else if t = k then 1 else part b k 1) := by
  unfold tagged
  generalize u.t.toNat = t at ht
  interval_cases k
  all_goals interval_cases t
  all_goals
    simp (disch := omega) [part_putBits_other, part_putBits_within, part_sbBase, part_zero]

theorem part_sbPush {l n : Nat} (h : l + n ≤ 10 ∨ (13 ≤ l ∧ l + n ≤ 39)) :
    part (sbPush t rtype a b fm cx wd) l n = part (tagged t rtype a b) l n := by
  rw [sbPush_eq]
  simp (disch := omega) only [part_putBits_other]
theorem part_sbPush_wd : part (sbPush t rtype a b fm cx wd) 39 1 = (if wd then 1 else 0) := by
  rw [sbPush_eq, part_putBits_within (by omega) (by omega) (by omega) (by omega)]
  cases wd <;> rfl
theorem part_sbPush_cx (hcx : cx < 4) : part (sbPush t rtype a b fm cx wd) 11 2 = cx := by
  rw [sbPush_eq, part_putBits_other (by omega) (by omega) (by omega),
    part_putBits_within (by omega) (by omega) (by omega) (by omega)]
  omega
theorem part_sbPush_fm : part (sbPush t rtype a b fm cx wd) 10 1 = (if fm then 1 else 0) := by
  rw [sbPush_eq, part_putBits_other (by omega) (by omega) (by omega), part_putBits_other (by omega) (by omega) (by omega),
    part_putBits_within (by omega) (by omega) (by omega) (by omega)]
  cases fm <;> rfl

end

theorem pushedSidebands : PushedSidebands := by
  intro s u wd cx ht hcx
  obtain ⟨hrt, hscl, hfmt⟩ := part_tagged_base ht
  obtain ⟨hh, htl⟩ := part_tagged_headTail ht
  have hmark := fun k h5 h9 => part_tagged_mark (u := u) (k := k) ht h5 h9
  exact ⟨part_sbPush_wd, (part_sbPush (.inr (by omega))).trans hrt, part_sbPush_cx hcx, part_sbPush_fm,
    (part_sbPush (.inr (by omega))).trans hscl, (part_sbPush (.inl (by omega))).trans hfmt,
    (part_sbPush (.inl (by omega))).trans hh, (part_sbPush (.inl (by omega))).trans htl,
    (part_sbPush (.inl (by omega))).trans (hmark 5 (by omega) (by omega)),
    fun k hk => (part_sbPush (.inl (by omega))).trans (hmark (6 + k) (by omega) (by omega))⟩

/-- Settles O27: the codes of a destination operand, and the sideband field by field. -/
theorem destinationWritesAndSidebands : Obligations.DestinationWritesAndSidebands :=
  ⟨destinationOperandWrites, pushedSidebands⟩

end Sys2Proof.Machine
end

