-- ==== Sys2Proof/Proofs/BodyRuns.lean ====
section
/-! PROOF. SUPPORT. Running an instruction of a body from what its computation gives or where it stops, and the bit fields that the statements
write as numbers (01_encoding, R41; 02_rule, R68; 04_core_compute, R115). -/
namespace Sys2Proof.Machine
open Sys2Proof.Claims

/-! ## The runner -/

section
variable {s : State} {opc : BitVec 8} {words cost : Nat} {m : Body Unit} {w' : Work} {a : Abort}

theorem runBody_gives (h : Gives m (start s opc) () w') :
    runBody s opc .plain words cost m = .next (bodyWent s (w'.advance words cost)) := runBody_ok rfl h
theorem runBody_stops (h : Stops m (start s opc) a w') : runBody s opc .plain words cost m = AbortsAt s w' cost a :=
  runBody_error rfl h
theorem runBody_gives_basin (hb : BasinHint s) (h : Gives m (start s opc) () w') :
    runBody s opc .basin words cost m = .next (bodyWent s (w'.advance words cost)) := runBody_ok hb h
theorem runBody_stops_basin (hb : BasinHint s) (h : Stops m (start s opc) a w') :
    runBody s opc .basin words cost m = AbortsAt s w' cost a := runBody_error hb h

end

section
variable {s : State} {w w' : Work}

theorem gives_set {v : Work} : Gives (set v : Body Unit) w () v := rfl
theorem gives_modify {f : Work → Work} : Gives (modify f : Body Unit) w () (f w) := rfl
theorem gives_stage {e : Effect} : Gives (stage e) w () (staging w e) := rfl
theorem gives_entry (h : w.entries < 32) : Gives entry w () { w with entries := w.entries + 1 } := entry_ok h
theorem stops_entry (h : 32 ≤ w.entries) : Stops entry w (plainAbort 0x0B 0) w := entry_full (by omega)

/-! ## Residue checks with the injector off -/

theorem gives_checked (h : bits w.inj 7 0 = 0) (unit ln q : Nat) : Gives (checked s unit ln q) w () w := checked_disarmed h unit ln q
theorem gives_checkedScalar (h : bits w.inj 7 0 = 0) (v : W64) : Gives (checkedScalar s v) w () w := checkedScalar_disarmed h v
theorem gives_checkedAddress (h : bits w.inj 7 0 = 0) (v : W64) : Gives (checkedAddress s v) w () w := checkedAddress_disarmed h v
theorem readS_disarmed {a : Opd} {keep : Bool} {r : W64 × Sideband} (hr : Gives (readS s a keep) w r w') (h : bits w.inj 7 0 = 0) :
    bits w'.inj 7 0 = 0 := by
  rw [readS_inj _ _ _ _ _ _ hr, h]

end

/-! ## Fields and masks -/

theorem toNat_one {i : Nat} (h : i < 64) : (one i).toNat = 2 ^ i := by
  rw [one, word, BitVec.toNat_ofNat, Nat.mod_eq_of_lt (Nat.pow_lt_pow_right (by omega) h)]
theorem shiftLeft_eq_one (i : Nat) : 1#64 <<< i = one i := by
  apply BitVec.eq_of_toNat_eq
  simp [one, word, Nat.shiftLeft_eq]
theorem replace_eq_under (old m v : W64) : old &&& ~~~m ||| v &&& m = under old m v := by
  have h : (old &&& ~~~m ||| v &&& m).toNat = old.toNat &&& (2 ^ 64 - 1 - m.toNat) ||| v.toNat &&& m.toNat := by
    rw [BitVec.toNat_or, BitVec.toNat_and, BitVec.toNat_and, BitVec.toNat_not]
  rw [under, ← h, BitVec.ofNat_toNat, BitVec.setWidth_eq]
theorem set_eq_under (old m : W64) : old ||| m = under old m m := by
  rw [← replace_eq_under]
  ext i hi
  by_cases hm : m[i] <;> simp [hm]
theorem clear_eq_under (old m : W64) : old &&& ~~~m = under old m 0 := by
  rw [← replace_eq_under]
  simp
theorem bits_eq_field_nat {n : Nat} (x : BitVec n) (hi lo k : Nat) (hk : hi + 1 - lo = k) : bits x hi lo = x.toNat / 2 ^ lo % 2 ^ k := by
  rw [bits, hk, Nat.shiftRight_eq_div_pow]

end Sys2Proof.Machine
end

