-- ==== Sys2Proof/Proofs/RuleControl.lean ====
section
/-! PROOF. Explicit aborts, rule control, tags and fences (02_rule, R80 to R85; 05_core_memory, R167, R168, R174). -/
namespace Sys2Proof.Machine
open Sys2Proof.Claims

/-! ## Explicit aborts -/

theorem explicitAborts : ExplicitAborts := by
  refine ⟨fun s t => runBody_stops (words := 1) rfl, fun s a t x sa w1 hoff => ⟨fun ha => ?_, fun ha => ?_⟩⟩
  · have hchecked := gives_checkedScalar (s := s) (readS_disarmed ha hoff) x
    exact ⟨fun hx => runBody_stops (stops_bind_gives ha (stops_bind_gives hchecked (stops_need (by simp [hx])))),
      fun hx => runBody_gives (gives_bind ha (gives_bind hchecked (gives_need (bne_iff_ne.mpr hx))))⟩
  · have hchecked := gives_checkedScalar (s := s) (readS_disarmed ha hoff) x
    exact ⟨fun hx => runBody_stops (stops_bind_gives ha (stops_bind_gives hchecked (stops_need (beq_eq_false_iff_ne.mpr hx)))),
      fun hx => runBody_gives (gives_bind ha (gives_bind hchecked (gives_need (by simp [hx]))))⟩

/-! ## Rule control -/

theorem gives_stageEnable {w : Work} (m v : W64) :
    Gives (stageEnable m v) w () (seeingEnable (staging w (.enable m v)) (under w.en m v)) := by
  rw [← replace_eq_under]
  exact gives_modify
/-- The 24 bits of an abort record as a scalar result. -/
theorem zeroExtend_eq_word (x : BitVec 24) : x.zeroExtend 64 = word x.toNat := (BitVec.ofNat_toNat 64 x).symm

theorem ruleControlResults : RuleControlResults := by
  refine ⟨fun s i => ⟨?_, ?_⟩, ?_, ?_, fun s t => ⟨runBody_gives gives_stage, runBody_gives gives_stage⟩⟩
  · show execRuleon i s = _
    rw [execRuleon, shiftLeft_eq_one]
    exact runBody_gives (gives_stageEnable ..)
  · show execRuleoff i s = _
    rw [execRuleoff, shiftLeft_eq_one]
    exact runBody_gives (gives_stageEnable ..)
  · intro s a b d e t v m sa sb w1 w2 w3 ha hb hr
    exact runBody_gives (gives_bind gives_get (gives_bind ha (gives_bind hb (gives_bind (gives_stageEnable ..) hr))))
  · intro s a b d e t x y sa sb w1 w2 w3 ha hb hr
    rw [← zeroExtend_eq_word, ← bits_eq_field x 5 0 6 rfl] at hr
    refine ⟨fun ⟨hbz, hy⟩ => ?_, fun hz => ?_⟩
    · refine runBody_gives (gives_bind ha (gives_bind hb (gives_bind hr ?_)))
      rw [if_pos (by rw [bne_iff_ne.mpr hbz, bne_iff_ne.mpr hy]; rfl), bits_eq_field x 5 0 6 rfl]
      exact gives_stage
    · refine runBody_gives (gives_bind ha (gives_bind hb (gives_bind hr ?_)))
      rw [if_neg (by simpa [or_iff_not_imp_left] using hz)]
      exact gives_pure

/-! ## Tags and fences -/

theorem trailingZeros_eq {x : W64} {i : Nat} (hi : i ≤ 64) (hlow : ∀ k < i, x.getLsbD k = false)
    (hbit : i < 64 → x.getLsbD i = true) : trailingZeros x = word i := by
  have hfirst : ((List.range 64).find? x.getLsbD).getD 64 = i := by
    by_cases h : i < 64
    · rw [List.find?_range_eq_some.mpr ⟨hbit h, List.mem_range.mpr h, fun k hk => by rw [hlow k hk]; rfl⟩]
      rfl
    · obtain rfl : i = 64 := by omega
      rw [List.find?_range_eq_none.mpr fun k hk => by rw [hlow k hk]; rfl]
      rfl
  exact congrArg word hfirst
theorem truth_eq_flag {p : Prop} [Decidable p] {b : Bool} (h : b = true ↔ p) : truth b = flag p := by
  simp only [truth, flag, h]

theorem tagQuery_next {s : State} {opc : BitVec 8} {a d e : Opd} {t : Tag} {f : W64 → W64 → W64} {x y : W64} {sa : Sideband} {w1 w2 : Work}
    (ha : Gives (readS s a (keepIn t)) (start s opc) (x, sa) w1) (hy : f w1.tb x = y)
    (hr : Gives (resultS s d e ⟨t, 0, sa, 0⟩ y) w1 () w2) :
    tagQuery s opc a d e t f = .next (bodyWent s (w2.advance 1 1)) := by
  subst hy
  exact runBody_gives (gives_bind ha (gives_bind gives_get hr))

theorem tagQueryResults (s : State) (a d e : Opd) (t : Tag) (x : W64) (sa : Sideband) (w1 w2 : Work) :
    (Gives (readS s a (keepIn t)) (start s 0xAB) (x, sa) w1 → ∀ i ≤ 64,
      (∀ k < i, (w1.tb.getLsbD k && x.getLsbD k) = false) → (i < 64 → w1.tb.getLsbD i = true ∧ x.getLsbD i = true) →
      Gives (resultS s d e ⟨t, 0, sa, 0⟩ (word i)) w1 () w2 →
      exec (.tffr a d e t) s = .next (bodyWent s (w2.advance 1 1))) ∧
    (Gives (readS s a (keepIn t)) (start s 0xAC) (x, sa) w1 →
      Gives (resultS s d e ⟨t, 0, sa, 0⟩ (flag (w1.tb &&& x ≠ 0))) w1 () w2 →
      exec (.tany a d e t) s = .next (bodyWent s (w2.advance 1 1))) ∧
    (Gives (readS s a (keepIn t)) (start s 0xAD) (x, sa) w1 →
      Gives (resultS s d e ⟨t, 0, sa, 0⟩ (flag (w1.tb &&& x = x))) w1 () w2 →
      exec (.tall a d e t) s = .next (bodyWent s (w2.advance 1 1))) := by
  have hany : truth (w1.tb &&& x != 0) = flag (w1.tb &&& x ≠ 0) := truth_eq_flag bne_iff_ne
  have hallOf : truth (w1.tb &&& x == x) = flag (w1.tb &&& x = x) := truth_eq_flag beq_iff_eq
  refine ⟨fun ha i hi hlow hbit hr => ?_, fun ha hr => ?_, fun ha hr => ?_⟩
  · have hfirst : trailingZeros (w1.tb &&& x) = word i :=
      trailingZeros_eq hi (fun k hk => by rw [BitVec.getLsbD_and, hlow k hk])
        fun h => by rw [BitVec.getLsbD_and, (hbit h).1, (hbit h).2]; rfl
    exact tagQuery_next (f := fun tb x => trailingZeros (tb &&& x)) ha hfirst hr
  · exact tagQuery_next (f := fun tb x => truth (tb &&& x != 0)) ha hany hr
  · exact tagQuery_next (f := fun tb x => truth (tb &&& x == x)) ha hallOf hr

/-- TMASK from its two sources on, one target at a time (R168). -/
theorem tmaskResults (s : State) (a b d e : Opd) (t : Tag) (v y m : W64) (sa sb : Sideband) (w1 w2 w3 : Work)
    (ha : Gives (readS s a (keepIn t)) (start s 0xAE) (v, sa) w1) (hb : Gives (readS s b (keepIn t)) w1 (y, sb) w2)
    (hall : b = 31#5 → m = word (2 ^ 64 - 1)) (hmask : b ≠ 31#5 → m = y) :
    (e = 29#5 →
      Gives (resultS s d 31#5 ⟨t, 0, sa, sb⟩ w2.tb) (seeingTags (staging w2 (.tagMask m v)) (under w2.tb m v)) () w3 →
      exec (.tmask a b d e t) s = .next (bodyWent s (w3.advance 1 1))) ∧
    (e.toNat < 8 →
      Gives (resultS s d 31#5 ⟨t, 0, sa, sb⟩ (vget w2.tm e.toNat 0))
        (seeingMask w2 e.toNat (under (vget w2.tm e.toNat 0) m v)) () w3 →
      exec (.tmask a b d e t) s = .next (bodyWent s (w3.advance 1 1))) ∧
    (8 ≤ e.toNat → e ≠ 29#5 → exec (.tmask a b d e t) s = AbortsAt s w2 1 (plainAbort 0x04 0)) := by
  obtain rfl : m = if b == 31#5 then 0xFFFFFFFFFFFFFFFF else y := by
    by_cases h : b = 31#5
    · rw [hall h, h]; rfl
    · simp [hmask h, h]
  refine ⟨fun he hr => ?_, fun he hr => ?_, fun he hne => ?_⟩
  · refine runBody_gives (gives_bind ha (gives_bind hb (gives_bind gives_get ?_)))
    rw [if_pos (beq_iff_eq.mpr he), replace_eq_under]
    exact gives_bind gives_set hr
  · have hne : e ≠ 29#5 := by rintro rfl; simp at he
    refine runBody_gives (gives_bind ha (gives_bind hb (gives_bind gives_get ?_)))
    rw [if_neg (by simp [hne]), if_pos he]
    dsimp only
    rw [replace_eq_under]
    exact gives_bind gives_set hr
  · refine runBody_stops (stops_bind_gives ha (stops_bind_gives hb (stops_bind_gives gives_get ?_)))
    rw [if_neg (by simp [hne]), if_neg (by omega)]
    exact stops_illegal

theorem tagAndFenceResults : TagAndFenceResults := by
  refine ⟨fun s i => ⟨?_, ?_⟩, tagQueryResults, tmaskResults, fun s i => ?_⟩
  · show execTset i s = _
    rw [← set_eq_under, ← shiftLeft_eq_one]
    exact runBody_gives rfl
  · show execTclr i s = _
    rw [← clear_eq_under, ← shiftLeft_eq_one]
    exact runBody_gives rfl
  · have hkind : BitVec.ofNat 2 (i.toNat / 8) = i.extractLsb' 3 2 := by rw [BitVec.extractLsb', Nat.shiftRight_eq_div_pow]
    have hscope : i.toNat % 8 = bits i 2 0 := by simp [bits]
    rw [hkind, hscope]
    exact runBody_gives gives_stage

/-- Settles O11: each instruction is a run of its working copy, its effects staged in the order of its words. -/
theorem ruleAndTagControl : Obligations.RuleAndTagControl := ⟨explicitAborts, ruleControlResults, tagAndFenceResults⟩

end Sys2Proof.Machine
end

