-- ==== Sys2Proof/Proofs/LocalAccess.lean ====
section
/-! PROOF. The checks of a local access and what a load of the same body sees (02_rule, R54, R66; 05_core_memory, R146, R150, R171;
09_memory_model, R264). -/
namespace Sys2Proof.Machine
open Sys2Proof.Claims

section
variable {s : State} {w : Work}

/-! ## Memory classes -/

theorem bitAt_eq_one_iff {n : Nat} (x : BitVec n) (i : Nat) : bitAt x i = true ↔ x.toNat / 2 ^ i % 2 = 1 := by
  rw [bitAt, Nat.testBit_eq_decide_div_mod_eq, decide_eq_true_eq]
theorem classHolds_iff {off : Nat} : classHolds (bodyCtx s) w.hdrB off = true ↔ InClass s w off := by
  simp only [classHolds, InClass, List.any_eq_true, List.mem_range, Bool.and_eq_true, decide_eq_true_eq, bitAt_eq_one_iff _ 31,
    bitAt_eq_getLsbD w.hdrB, bits_eq_field_nat _ 21 11 11 rfl, bits_eq_field_nat _ 10 0 11 rfl, pow_zero, Nat.div_one, and_assoc]
/-- A class holds whole blocks of 256 bytes. -/
theorem inClass_block {a b : Nat} (h : a / 256 = b / 256) : InClass s w a ↔ InClass s w b := by
  simp only [InClass, h]
theorem blocks_iff_bytes {off n : Nat} {P : Nat → Prop} (hn : 0 < n) (hP : ∀ {a b : Nat}, a / 256 = b / 256 → (P a ↔ P b)) :
    (∀ i < (off + n + 255) / 256 - off / 256, P (256 * (off / 256 + i))) ↔ ∀ i < n, P (off + i) := by
  constructor
  · intro h i hi
    exact (hP (by omega)).mp (h ((off + i) / 256 - off / 256) (by omega))
  · intro h i hi
    exact (hP (by omega)).mp (h (max off (256 * (off / 256 + i)) - off) (by omega))
theorem classOk_iff {off n : Nat} (hn : 0 < n) : classOk (bodyCtx s) w.hdrB off n = true ↔ InClasses s w off n := by
  have hmask : bits w.hdrB 47 40 = field w.hdrB 40 8 := bits_eq_field _ 47 40 8 rfl
  have hblocks := blocks_iff_bytes (off := off) (n := n) (P := InClass s w) hn inClass_block
  by_cases h : field w.hdrB 40 8 = 0
  · simp [classOk, InClasses, hmask, h]
  · simp only [classOk, InClasses, hmask, h, beq_iff_eq, if_false, Bool.and_eq_true, decide_eq_true_eq, List.all_eq_true,
      List.mem_range, classHolds_iff, hblocks, false_and, false_or, not_false_eq_true, true_and, ne_eq]

/-! ## The checks in order -/

section
variable {ea : W64} {n align : Nat}

theorem checkAccess_range (h : 2 ^ 19 ≤ ea.toNat) : Stops (checkAccess s ea n align) w (plainAbort 0x09 ea) w :=
  stops_bind_gives gives_get (stops_bind (stops_need (decide_eq_false (by omega))))
theorem checkAccess_priv (hrange : ea.toNat < 2 ^ 19) (h : 0x60000 < ea.toNat + n) (hpriv : (bodyCtx s).priv = false) :
    Stops (checkAccess s ea n align) w (plainAbort 0x0A ea) w :=
  stops_bind_gives gives_get (stops_bind_gives (gives_need (decide_eq_true hrange))
    (stops_bind (stops_need (by rw [hpriv, Bool.or_false]; exact decide_eq_false (by omega)))))

theorem gives_privilege (hpriv : 0x60000 < ea.toNat + n → (bodyCtx s).priv = true) :
    Gives (need (ea.toNat + n ≤ 0x60000 || (bodyCtx s).priv) cPriv ea) w () w := by
  apply gives_need
  by_cases h : ea.toNat + n ≤ 0x60000
  · simp [h]
  · rw [hpriv (by omega), Bool.or_true]

section
variable (hrange : ea.toNat < 2 ^ 19) (hpriv : 0x60000 < ea.toNat + n → (bodyCtx s).priv = true)
include hrange hpriv

theorem checkAccess_align (h : ea.toNat % align ≠ 0) : Stops (checkAccess s ea n align) w (plainAbort 0x08 ea) w :=
  stops_bind_gives gives_get (stops_bind_gives (gives_need (decide_eq_true hrange))
    (stops_bind_gives (gives_privilege hpriv) (stops_bind (stops_need (beq_eq_false_iff_ne.mpr h)))))

section
variable (hn : 0 < n) (halign : ea.toNat % align = 0)
include hn halign

theorem checkAccess_class (h : ¬ InClasses s w ea.toNat n) : Stops (checkAccess s ea n align) w (plainAbort 0x05 ea) w :=
  stops_bind_gives gives_get (stops_bind_gives (gives_need (decide_eq_true hrange))
    (stops_bind_gives (gives_privilege hpriv) (stops_bind_gives (gives_need (beq_iff_eq.mpr halign))
      (stops_bind (stops_need (Bool.eq_false_iff.mpr fun hc => h ((classOk_iff hn).mp hc)))))))

section
variable (hclass : InClasses s w ea.toNat n)
include hclass

theorem checkAccess_window {R : EStateM.Result Abort Work Unit}
    (h : need (0x60000 ≤ ea.toNat || ea.toNat + n ≤ (windowOf s (bodyCtx s).lx (bodyCtx s).ly).2) cRange ea w = R) :
    checkAccess s ea n align w = R :=
  (Body.bind_ok gives_get).trans ((Body.bind_ok (gives_need (decide_eq_true hrange))).trans
    ((Body.bind_ok (gives_privilege hpriv)).trans ((Body.bind_ok (gives_need (beq_iff_eq.mpr halign))).trans
      ((Body.bind_ok (gives_need ((classOk_iff hn).mpr hclass))).trans h))))
theorem checkAccess_past (h : PastWindow s ea.toNat n) : Stops (checkAccess s ea n align) w (plainAbort 0x09 ea) w := by
  obtain ⟨hdata, hpast⟩ := h
  refine checkAccess_window hrange hpriv hn halign hclass (stops_need ?_)
  rw [decide_eq_false (by omega), decide_eq_false (by omega), Bool.or_false]
theorem checkAccess_passes (h : ¬ PastWindow s ea.toNat n) : Gives (checkAccess s ea n align) w () w := by
  refine checkAccess_window hrange hpriv hn halign hclass (gives_need ?_)
  rw [Bool.or_eq_true, decide_eq_true_eq, decide_eq_true_eq, or_iff_not_imp_left]
  intro hdata
  rw [PastWindow, not_and] at h
  exact Nat.le_of_not_lt (h (by omega))

end
end
end

/-- What the checks of an access do, from what they answer (R150). -/
theorem checkAccess_verdict {r : Option (BitVec 8)} (hn : 0 < n) (h : Verdict s w ea n align r) :
    match r with
    | none => Gives (checkAccess s ea n align) w () w
    | some c => Stops (checkAccess s ea n align) w (plainAbort c ea) w := by
  unfold Verdict at h
  split at h
  next hrange => subst h; exact checkAccess_range hrange
  next hrange =>
    rw [Nat.not_le] at hrange
    split at h
    next hpriv => subst h; exact checkAccess_priv hrange hpriv.1 hpriv.2
    next hpriv =>
      have hpriv' : 0x60000 < ea.toNat + n → (bodyCtx s).priv = true := fun hn => by
        rw [← Bool.not_eq_false]; exact fun hf => hpriv ⟨hn, hf⟩
      split at h
      next halign => subst h; exact checkAccess_align hrange hpriv' halign
      next halign =>
        rw [ne_eq, not_not] at halign
        obtain ⟨hclass, rfl⟩ | ⟨hclass, hpast, rfl⟩ | ⟨hclass, hpast, rfl⟩ := h
        · exact checkAccess_class hrange hpriv' hn halign hclass
        · exact checkAccess_past hrange hpriv' hn halign hclass hpast
        · exact checkAccess_passes hrange hpriv' hn halign hclass hpast
theorem gives_checkAccess (hn : 0 < n) (h : Verdict s w ea n align none) : Gives (checkAccess s ea n align) w () w := checkAccess_verdict hn h
theorem stops_checkAccess {c : BitVec 8} (hn : 0 < n) (h : Verdict s w ea n align (some c)) :
    Stops (checkAccess s ea n align) w (plainAbort c ea) w := checkAccess_verdict hn h

end

/-! ## What a load sees -/

/-- The last entry of a list under a key is the first of the reversed list. -/
theorem find?_reverse_last {ps r : List (Nat × Byte)} {p i : Nat} {v : Byte} (hi : ps[i]? = some (p, v))
    (hlast : ∀ j > i, ∀ q ∈ ps[j]?, q.1 ≠ p) : (ps.reverse ++ r).find? (fun b => b.1 == p) = some (p, v) := by
  obtain ⟨hlen, hget⟩ := List.getElem?_eq_some_iff.mp hi
  have hsplit : ps = ps.take i ++ (p, v) :: ps.drop (i + 1) := by
    rw [← hget, ← List.drop_eq_getElem_cons hlen, List.take_append_drop]
  have hafter : (ps.drop (i + 1)).reverse.find? (fun b => b.1 == p) = none := by
    rw [List.find?_eq_none]
    intro q hq
    obtain ⟨j, hj⟩ := List.mem_iff_getElem?.mp (List.mem_reverse.mp hq)
    rw [List.getElem?_drop] at hj
    simpa using hlast (i + 1 + j) (by omega) q hj
  rw [hsplit, List.reverse_append, List.reverse_cons, List.append_assoc, List.append_assoc, List.find?_append, hafter]
  simp
theorem bodyByte_storing_last {ps : List (Nat × Byte)} {off i : Nat} {v : Byte} (hi : ps[i]? = some (bodyOffset s off, v))
    (hlast : ∀ j > i, ∀ q ∈ ps[j]?, q.1 ≠ bodyOffset s off) : bodyByte s (storing w ps) off = v := by
  simp only [bodyByte, storing, find?_reverse_last hi hlast]
theorem bodyByte_storing_apart {ps : List (Nat × Byte)} {off : Nat} (h : ∀ q ∈ ps, q.1 ≠ bodyOffset s off) :
    bodyByte s (storing w ps) off = bodyByte s w off := by
  have hnone : ps.reverse.find? (fun b => b.1 == bodyOffset s off) = none := by
    rw [List.find?_eq_none]
    intro q hq
    simpa using h q (List.mem_reverse.mp hq)
  simp only [bodyByte, storing, List.find?_append, hnone, Option.none_or]
theorem bodyByte_committed {off : Nat} (hw : w.bytes = []) (h : bodyOffset s off < 0x70000) :
    bodyByte s w off = localByte (bodyCore s) (bodyOffset s off) := by
  simp only [bodyByte, hw, List.find?_nil, if_pos h]

end

/-- Settles O16: the checks one after another, and the staged bytes searched from the latest on. -/
theorem localAccessRules : Obligations.LocalAccessRules :=
  ⟨fun _ _ _ _ _ hn => ⟨gives_checkAccess hn, fun _ => stops_checkAccess hn⟩,
    fun _ _ _ _ => ⟨fun _ _ => bodyByte_storing_last, bodyByte_storing_apart, bodyByte_committed⟩⟩

end Sys2Proof.Machine
end

