-- ==== Sys2Proof/Proofs/MatrixIssue.lean ====
section
/-! PROOF. A matrix command at issue: its fields, its accumulator, its operands, the command staged (02_rule, R75; 06_core_basin, R177,
R182 to R186, R193 to R196). -/
namespace Sys2Proof.Machine
open Sys2Proof.Claims

section
variable {s : State} {w w' : Work}

/-! ## The start of a basin command and its accumulator -/

theorem startBasin_room_iff : (w.basins != 0 || decide (basinWords (bodyCore s) s.stage.cx.val (bits w.hdrA 10 0) (bits w.hdrA 15 11 + 1) +
    (bodyCore s).bq.length ≤ 8)) = true ↔ QueueRoom s w := by
  rw [Bool.or_eq_true, bne_iff_ne, decide_eq_true_eq, bits_eq_field w.hdrA 10 0 11 rfl, bits_eq_field w.hdrA 15 11 5 rfl, QueueRoom]
theorem gives_startBasin (h : QueueRoom s w) : Gives (startBasin s) w () (started w) :=
  gives_bind gives_get (gives_bind (gives_need (startBasin_room_iff.mpr h)) gives_set)
theorem stops_startBasin (h : ¬ QueueRoom s w) : Stops (startBasin s) w (plainAbort 0x0C 0) w :=
  stops_bind_gives gives_get (stops_bind (stops_need (Bool.eq_false_iff.mpr fun hroom => h (startBasin_room_iff.mp hroom))))

theorem mappedTo_iff {acc : BitVec 2} {slot : Nat} :
    MappedTo s acc slot ↔ ((bodyCtx s).amap.toNat >>> (4 * acc.toNat)).testBit 3 = true ∧
      (bodyCtx s).amap.toNat >>> (4 * acc.toNat) % 8 = slot := by
  rw [MappedTo, Nat.testBit_eq_decide_div_mod_eq, decide_eq_true_eq, Nat.shiftRight_eq_div_pow]
  omega
theorem gives_accSlot {acc : BitVec 2} {slot : Nat} (h : MappedTo s acc slot) : Gives (accSlot s acc) w slot w := by
  obtain ⟨hvalid, rfl⟩ := mappedTo_iff.mp h
  exact gives_bind (gives_need hvalid) gives_pure
theorem stops_accSlot {acc : BitVec 2} (h : ∀ j, ¬ MappedTo s acc j) : Stops (accSlot s acc) w (plainAbort 0x04 0) w :=
  stops_bind (stops_need (Bool.eq_false_iff.mpr fun hvalid => h _ (mappedTo_iff.mpr ⟨hvalid, rfl⟩)))

/-! ## Formats and fields -/

theorem elementBits_eq (f : BitVec 3) (tern : Bool) : elementBits f tern = widthOf f tern := by
  revert f tern
  decide
theorem elementBits_pos (f : BitVec 3) (tern : Bool) : 0 < elementBits f tern := by
  revert f tern
  decide
theorem formatsOk_iff {cmd : Nat} (hcmd : cmd ≤ 4) (af bf : BitVec 3) : formatsOk cmd af bf = true ↔ Formats cmd af.toNat bf.toNat := by
  have haf := af.isLt
  have hbf := bf.isLt
  interval_cases cmd
  all_goals simp [formatsOk, Formats]
  all_goals omega
theorem matrixOk_iff {cmd : Nat} (hcmd : cmd ≤ 4) (af bf : BitVec 3) (k n : Nat) (z : BitVec 1) :
    matrixOk cmd af bf k n (z == 1) = true ↔ MatrixFits cmd af bf k n z := by
  have hz : (z == 1) = false ↔ z = 0 := by revert z; decide
  have hrow (b : Nat) : k * b % 8 = 0 ∧ k * b / 8 ≤ 512 ↔ k * b % 8 = 0 ∧ k * b ≤ 4096 := by omega
  have htern : (cmd == 2) = decide (cmd = 2) := rfl
  rw [MatrixFits, List.forall_mem_cons, List.forall_mem_singleton]
  simp only [matrixOk, Bool.and_eq_true, Bool.or_eq_true, decide_eq_true_eq, beq_iff_eq, bne_iff_ne, Bool.not_eq_true', hz,
    hrow, htern, formatsOk_iff hcmd, elementBits_eq, and_assoc, imp_iff_not_or, ne_eq]

/-! ## Tiles -/

section
variable {n scales : Nat} {v : W64}

theorem gives_checkTile (hoff : bits w.inj 7 0 = 0) (hn : 0 < n) (h : Verdict s w v n 64 none) : Gives (checkTile s v n) w () w :=
  gives_bind (gives_checkedAddress hoff v) (gives_checkAccess hn h)
theorem gives_checkPointer (hoff : bits w.inj 7 0 = 0) (hn : 0 < n) (hscales : 0 < scales) (h : PointerFits s w v n scales) :
    Gives (checkPointer s v n scales) w () w := by
  obtain ⟨hhigh, hmid, htile, hscale⟩ := h
  refine gives_bind (gives_checkedAddress hoff v) (gives_bind (gives_need ?_)
    (gives_bind (gives_checkAccess hn ?_) (gives_checkAccess (by omega) ?_)))
  · rw [bits_eq_field v 63 51 13 rfl, bits_eq_field v 31 19 13 rfl, hhigh, hmid]; rfl
  · rw [bits_eq_field v 18 0 19 rfl]; exact htile
  · rw [bits_eq_field v 50 32 19 rfl]; exact hscale

end

theorem vset_vset {α : Type} {n : Nat} (v : Vector α n) (i : Nat) (x y : α) : vset (vset v i x) i y = vset v i y := by
  ext j hj
  simp only [vset, Vector.getElem_setIfInBounds]
  split <;> rfl
theorem vset_vget {α : Type} {n : Nat} (v : Vector α n) (i : Nat) (d : α) : vset v i (vget v i d) = v := by
  ext j hj
  simp only [vset, Vector.getElem_setIfInBounds]
  split
  next h => subst h; exact vget_eq v i d hj
  next => rfl
theorem gives_takeElements {q c : Nat} (hq : q < 4) (hbound : (vget (bodyCtx s).q q Stream.reset).bound = true)
    (hdir : (vget (bodyCtx s).q q Stream.reset).dir = false)
    (hlen : (((vget (bodyCtx s).q q Stream.reset).fetched.drop (vget w.adv q 0)).take c).length = c) :
    Gives (takeElements s q c) w ((((vget (bodyCtx s).q q Stream.reset).fetched.drop (vget w.adv q 0)).take c).map (fun t => t.pay))
      { w with adv := vset w.adv q (vget w.adv q 0 + c) } := by
  induction c generalizing w with
  | zero =>
    rw [Nat.add_zero, vset_vget]
    exact gives_pure
  | succ c ih =>
    rw [List.length_take, List.length_drop] at hlen
    have hhere : vget w.adv q 0 < (vget (bodyCtx s).q q Stream.reset).fetched.length := by omega
    have hadv : vget (vset w.adv q (vget w.adv q 0 + 1)) q 0 = vget w.adv q 0 + 1 := vget_vset_same _ _ _ _ hq
    have hrest := ih (w := { w with adv := vset w.adv q (vget w.adv q 0 + 1) }) (by
      rw [hadv, List.length_take, List.length_drop]
      omega)
    rw [hadv, vset_vset, Nat.add_assoc, Nat.add_comm 1] at hrest
    rw [List.drop_eq_getElem_cons hhere, List.take_succ_cons, List.map_cons]
    exact gives_bind (takeElement_gives hbound hdir (List.getElem?_eq_getElem hhere)) (gives_bind hrest gives_pure)

/-! ## Operands -/

section
variable {k : Nat}

/-- A row of an operand has at least one byte. -/
theorem row_pos {b : Nat} (hk : 1 ≤ k) (hb : 0 < b) (h8 : k * b % 8 = 0) : 0 < k * b / 8 := by
  have := Nat.mul_pos hk hb
  omega
theorem scales_pos {m : Nat} (hm : 0 < m) (hk : 1 ≤ k) (h32 : k % 32 = 0) : 0 < m * k / 32 := by
  obtain ⟨j, rfl⟩ := Nat.dvd_of_mod_eq_zero h32
  rw [show m * (32 * j) = 32 * (m * j) by ring, Nat.mul_div_cancel_left _ (by omega)]
  exact Nat.mul_pos hm (by omega)

theorem gives_operandA {mx : Bool} {a : Opd} {af : BitVec 3} {m : Nat} {tile : Tile} (hoff : bits w.inj 7 0 = 0) (hm : 0 < m) (hk : 1 ≤ k)
    (h8 : k * widthOf af false % 8 = 0) (hmx : mx = true → k % 32 = 0) (h : OperandA s mx a af k m w tile w') :
    Gives (operandA s mx a af k m) w tile w' ∧ w'.inj = w.inj := by
  rw [← elementBits_eq] at h8
  have hsize : 0 < m * (k * elementBits af false / 8) := Nat.mul_pos hm (row_pos hk (elementBits_pos af false) h8)
  rw [OperandA, ← elementBits_eq] at h
  obtain ⟨hreg, rfl, hv, rfl, rfl⟩ | ⟨hreg, rfl, hv, rfl, rfl⟩ | ⟨h24, h28, rfl, hbound, hdir, hesz, hc, hlen, rfl, rfl⟩ := h
  · refine ⟨gives_bind gives_get ?_, rfl⟩
    rw [if_pos hreg]
    exact gives_bind (gives_checkTile hoff hsize hv) gives_pure
  · refine ⟨gives_bind gives_get ?_, rfl⟩
    rw [if_pos hreg]
    refine gives_bind (gives_checkPointer hoff hsize (scales_pos hm hk (hmx rfl)) hv) ?_
    rw [bits_eq_field _ 18 0 19 rfl, bits_eq_field _ 50 32 19 rfl]
    exact gives_pure
  · refine ⟨gives_bind gives_get ?_, rfl⟩
    rw [if_neg (by omega)]
    refine gives_bind (gives_need (by simp [h24, h28])) (gives_bind (gives_need ?_)
      (gives_bind (gives_takeElements (by omega) hbound hdir hlen) gives_pure))
    rw [hbound, hdir, hesz, decide_eq_true hc]
    rfl

theorem takeBlock_keeps_inj {o : Nat} {keep : Bool} {r : Nat × Block} (h : Gives (takeBlock s o keep) w r w') : w'.inj = w.inj :=
  takeBlock_inj s o keep _ _ _ h
theorem gives_operandB {cmd : Nat} {b : Opd} {bf : BitVec 3} {n : Nat} {tile : Tile} (hoff : bits w.inj 7 0 = 0) (hn : 0 < n) (hk : 1 ≤ k)
    (h8 : k * widthOf bf (cmd = 2) % 8 = 0) (hmx : cmd = 4 → k % 32 = 0) (h : OperandB s cmd b bf k n w tile w') :
    Gives (operandB s cmd b bf k n) w tile w' := by
  have htern : decide (cmd = 2) = (cmd == 2) := rfl
  rw [← elementBits_eq, htern] at h8
  have hrow := row_pos hk (elementBits_pos bf (cmd == 2)) h8
  obtain ⟨r, hr⟩ := Nat.dvd_of_mod_eq_zero h8
  have htotal : k * n * elementBits bf (cmd == 2) = 8 * (n * r) := by
    rw [Nat.mul_right_comm, hr]; ring
  have hround : (k * n * elementBits bf (cmd == 2) + 7) / 8 = k * n * elementBits bf (cmd == 2) / 8 := by omega
  have hsize : 0 < k * n * elementBits bf (cmd == 2) / 8 := by
    rw [htotal, Nat.mul_div_cancel_left _ (by omega)]
    exact Nat.mul_pos hn (by omega)
  rw [OperandB, ← elementBits_eq, htern] at h
  refine gives_bind gives_get ?_
  rw [hround]
  obtain ⟨hreg, hcmd, hv, rfl, rfl⟩ | ⟨hreg, rfl, hv, rfl, rfl⟩ | ⟨hport, i, blk, htake, hdirect, hfmt, hfits, hscales, rfl⟩ := h
  · rw [if_pos hreg, if_neg (by simpa using hcmd)]
    exact gives_bind (gives_checkTile hoff hsize hv) gives_pure
  · rw [if_pos hreg, if_pos (beq_self_eq_true 4)]
    refine gives_bind (gives_checkPointer hoff hsize (scales_pos hn hk (hmx rfl)) hv) ?_
    rw [bits_eq_field _ 18 0 19 rfl, bits_eq_field _ 50 32 19 rfl]
    exact gives_pure
  · rw [if_neg (by omega)]
    refine gives_bind (gives_need (by simpa using hport)) (gives_bind htake (gives_bind (gives_need ?_)
      (gives_bind (gives_need ?_) (gives_bind (gives_need ?_) gives_pure))))
    · rw [bitAt_eq_getLsbD, hdirect]; rfl
    · simpa [hfmt] using hfits
    · simpa [imp_iff_not_or] using hscales

end

/-! ## The command -/

section
variable {opc : BitVec 8} {op : BasinOp}

theorem gives_stageBasin (h : w.entries < 32) : Gives (stageBasin s opc op) w () (queued s w opc op) :=
  gives_bind (gives_entry h) gives_stage
theorem stops_stageBasin (h : 32 ≤ w.entries) : Stops (stageBasin s opc op) w (plainAbort 0x0B 0) w := stops_bind (stops_entry h)

end
end

/-- A matrix command is the shared steps of its kind (R193, R194). -/
theorem matrixForm {mk : Opd → Opd → Tag → BitVec 2 → BitVec 3 → BitVec 3 → BitVec 10 → BitVec 4 → BitVec 4 → BitVec 1 → BitVec 1 →
    BitVec 4 → Instr} {cmd : Nat} {opc : BitVec 8} (hcmd : cmd ≤ 4)
    (hmk : ∀ a b t acc af bf k m1 n1 z bt ep s, exec (mk a b t acc af bf k m1 n1 z bt ep) s = runMatrix cmd opc a b acc af bf k m1 n1 z bt ep s) :
    MatrixForm mk cmd opc := by
  intro s a b t acc af bf k m1 n1 z bt ep slot ta tb w1 w2 hoff hhint
  dsimp only
  rw [hmk]
  refine ⟨fun hroom => runBody_stops_basin hhint (stops_bind (stops_startBasin hroom)), fun hroom => ⟨fun hbad => ?_, ?_⟩⟩
  · refine runBody_stops_basin hhint (stops_bind_gives (gives_startBasin hroom) ?_)
    by_cases hfits : MatrixFits cmd af bf k.toNat (n1.toNat + 1) z
    · exact stops_bind_gives (gives_need ((matrixOk_iff hcmd ..).mpr hfits))
        (stops_bind (stops_accSlot (hbad.resolve_left (not_not_intro hfits))))
    · exact stops_bind (stops_need (Bool.eq_false_iff.mpr fun h => hfits ((matrixOk_iff hcmd ..).mp h)))
  · intro hfits hslot ha hb
    have hfields := gives_need (c := cIllegalOperand) (i := 0) (w := started (start s opc)) ((matrixOk_iff hcmd ..).mpr hfits)
    obtain ⟨-, hk, -, hrows, -, hmx, -⟩ := hfits
    rw [List.forall_mem_cons, List.forall_mem_singleton] at hrows
    obtain ⟨⟨hrowA, -⟩, ⟨hrowB, -⟩⟩ := hrows
    obtain ⟨hgivesA, hinj⟩ := gives_operandA (w := started (start s opc)) hoff (Nat.succ_pos _) hk hrowA (fun h => hmx (of_decide_eq_true h)) ha
    have hgivesB := gives_operandB (by rw [hinj]; exact hoff) (Nat.succ_pos _) hk hrowB hmx hb
    refine ⟨fun hroom2 => runBody_gives_basin hhint ?_, fun hfull => runBody_stops_basin hhint ?_⟩
    · exact gives_bind (gives_startBasin hroom) (gives_bind hfields (gives_bind (gives_accSlot hslot) (gives_bind hgivesA
        (gives_bind hgivesB (gives_stageBasin hroom2)))))
    · exact stops_bind_gives (gives_startBasin hroom) (stops_bind_gives hfields (stops_bind_gives (gives_accSlot hslot)
        (stops_bind_gives hgivesA (stops_bind_gives hgivesB (stops_stageBasin hfull)))))

/-- Settles O19: the five commands share their steps. -/
theorem matrixCommands : Obligations.MatrixCommands :=
  ⟨matrixForm (by omega) fun _ _ _ _ _ _ _ _ _ _ _ _ _ => rfl, matrixForm (by omega) fun _ _ _ _ _ _ _ _ _ _ _ _ _ => rfl,
    matrixForm (by omega) fun _ _ _ _ _ _ _ _ _ _ _ _ _ => rfl, matrixForm (by omega) fun _ _ _ _ _ _ _ _ _ _ _ _ _ => rfl,
    matrixForm (by omega) fun _ _ _ _ _ _ _ _ _ _ _ _ _ => rfl⟩

end Sys2Proof.Machine
end

