-- ==== Sys2Proof/Proofs/GuardTerms.lean ====
section
/-! PROOF. The guard of a rule, term by term (01_encoding, R23 to R25, R41; 02_rule, R55). -/
namespace Sys2Proof.Machine
open Sys2Proof.Claims

section
variable {c : Core} {x : Ctx} {i : Nat} {a b : W64}

theorem term_iff {on : Bool} {need_ have_ : Nat} : (!on || decide (need_ ≤ have_)) = true ↔ TermHolds on need_ have_ := by
  cases on <;> simp [TermHolds]

theorem inputTerms_iff :
    (List.range 7).all (fun p => !bitAt a (22 + p) || bits b (25 + 2 * p) (24 + 2 * p) ≤ inCount x p) = true ↔
      ∀ p < 7, TermHolds (a.getLsbD (22 + p)) (field b (24 + 2 * p) 2)
        (if p < 5 then (vget x.inq p []).length else (vget x.blocks (p - 5) []).length) := by
  simp only [List.all_eq_true, List.mem_range, term_iff]
  exact forall₂_congr fun p _ => by rw [bits_eq_field b (25 + 2 * p) (24 + 2 * p) 2 (by omega), bitAt_eq_getLsbD, inCount]
/-- The ports mn, me, ms and mw, then the command port. -/
theorem outputTerms_iff :
    (List.range 5).all (fun p => !bitAt a (33 + p) || bits b (49 + 2 * p) (48 + 2 * p) ≤ outCount x p) = true ↔
      (∀ p < 4, TermHolds (a.getLsbD (33 + p)) (field b (48 + 2 * p) 2)
        (match vget x.binds p none with | some g => g.credits | none => 0)) ∧
      TermHolds (a.getLsbD 37) (field b 56 2) (8 - x.cpUsed) := by
  simp only [List.all_eq_true, List.mem_range, term_iff]
  rw [Nat.forall_lt_succ_right]
  refine and_congr (forall₂_congr fun p hp => ?_) ?_
  · have hport : outCount x p = match vget x.binds p none with | some g => g.credits | none => 0 := if_pos hp
    rw [bits_eq_field b (49 + 2 * p) (48 + 2 * p) 2 (by omega), bitAt_eq_getLsbD, hport]
  · rw [bits_eq_field b _ _ 2 rfl, bitAt_eq_getLsbD, outCount, if_neg (by omega)]
theorem streamTerms_iff :
    (List.range 4).all (fun q => !bitAt a (29 + q) || bits b (5 + 6 * q) (6 * q) ≤ streamFill (vget x.q q Stream.reset)) = true ↔
      ∀ q < 4, TermHolds (a.getLsbD (29 + q)) (field b (6 * q) 6) (streamFill (vget x.q q Stream.reset)) := by
  simp only [List.all_eq_true, List.mem_range, term_iff]
  exact forall₂_congr fun q _ => by rw [bits_eq_field b (5 + 6 * q) (6 * q) 6 (by omega), bitAt_eq_getLsbD]

theorem bitAt_top_iff {r : W64} : bitAt r 63 = true ↔ r.toInt < 0 := by
  rw [bitAt_eq_getLsbD, ← BitVec.msb_eq_getLsbD_last, BitVec.msb_eq_toInt, decide_eq_true_eq]

/-- The guard holds exactly when the header is valid and every term does (R55). -/
theorem guardHolds_iff : guardHolds c x i a b = true ↔ Enabled c x i a b := by
  have htags : field a 38 2 < 4 := Nat.mod_lt _ (by decide)
  simp only [guardHolds, Bool.and_eq_true, inputTerms_iff, outputTerms_iff, streamTerms_iff, and_assoc]
  unfold Enabled
  refine and_congr_right fun _ => and_congr_right fun hok => and_congr_right fun _ => and_congr_right fun _ => and_congr_right fun _ =>
    and_congr_right fun _ => and_congr_right fun _ => ?_
  have hcond : field a 47 3 ≤ 4 := by
    simp only [headerOk, Bool.and_eq_true, decide_eq_true_eq, and_assoc] at hok
    obtain ⟨-, -, hcond, -⟩ := hok
    rwa [bits_eq_field a 49 47 3 rfl] at hcond
  rw [bits_eq_field a 42 40 3 rfl, bits_eq_field a 39 38 2 rfl, bits_eq_field a 46 43 4 rfl, bits_eq_field a 49 47 3 rfl,
    bits_eq_field a 52 50 3 rfl, bits_eq_field a 55 53 3 rfl]
  refine and_congr ?_ (and_congr ?_ ?_)
  · generalize field a 38 2 = n at htags
    interval_cases n
    all_goals simp
  · generalize field a 47 3 = n at hcond
    interval_cases n
    all_goals simp [bitAt_top_iff, ← Bool.not_eq_true]
  · rw [Bool.or_eq_true, beq_iff_eq, beq_iff_eq, or_iff_not_imp_left]

theorem ruleEnabled_iff {cx : Nat} : ruleEnabled c cx x i = true ↔ Enabled c x i (headerA c cx i) (headerB c cx i) := guardHolds_iff

end
end Sys2Proof.Machine
end

