-- ==== Sys2Proof/Proofs/RuleSelection.lean ====
section
/-! PROOF. The selector of a round (01_encoding, R26; 02_rule, R62): the rules that it has taken carry their own unit counts, so that what
it takes is a fold over the rules alone; what is taken stays, and what does not fit never fits again. -/
namespace Sys2Proof.Machine
open Sys2Proof.Claims

/-- How many of the rules of a list have a unit hint. -/
def hintSum (c : Core) (cx bit : Nat) (t : List Nat) : Nat := (t.map (fun i => hintCount c cx i bit)).sum
/-- A rule fits beside those taken: a place, no conflict, its units (R62). -/
def Fits (c : Core) (cx : Nat) (t : List Nat) (i : Nat) : Prop :=
  t.length < 4 ∧ (∀ j ∈ t, ¬ Conflicts c cx i j) ∧ hintSum c cx 57 t + hintCount c cx i 57 ≤ 2 ∧
    hintSum c cx 58 t + hintCount c cx i 58 ≤ 1
open Classical in
/-- The rules taken after one more is tried (R62). -/
noncomputable def taking (c : Core) (cx : Nat) (en t : List Nat) (i : Nat) : List Nat :=
  if i ∈ en ∧ i ∉ t ∧ Fits c cx t i then t ++ [i] else t
/-- What every list of rules taken keeps (R62). -/
structure Together (c : Core) (cx : Nat) (en t : List Nat) : Prop where
  nodup : t.Nodup
  length_le : t.length ≤ 4
  enabled : ∀ i ∈ t, i ∈ en
  vectors : hintSum c cx 57 t ≤ 2
  basins : hintSum c cx 58 t ≤ 1
  apart : t.Pairwise fun i j => ¬ Conflicts c cx j i

section
variable {c : Core} {cx : Nat} {x : Ctx} {en t l : List Nat} {i : Nat}

theorem hintSum_append (bit : Nat) : hintSum c cx bit (t ++ [i]) = hintSum c cx bit t + hintCount c cx i bit := by
  simp [hintSum]
theorem hintSum_mono {bit : Nat} {u : List Nat} (h : t <+: u) : hintSum c cx bit t ≤ hintSum c cx bit u := by
  obtain ⟨r, rfl⟩ := h
  simp [hintSum]
theorem hintCount_le (bit : Nat) : hintCount c cx i bit ≤ 1 := by
  rw [hintCount]
  split <;> omega

/-! ## One more rule tried -/

theorem tryRule_eq : tryRule c cx en (t, hintSum c cx 57 t, hintSum c cx 58 t) i =
    (taking c cx en t i, hintSum c cx 57 (taking c cx en t i), hintSum c cx 58 (taking c cx en t i)) := by
  have hcond : (decide (t.length < 4) && en.contains i && !t.contains i && t.all (fun j => !bitAt (tableWord c cx (0x400 + 8 * i)) j) &&
      decide (hintSum c cx 57 t + hintCount c cx i 57 ≤ 2) && decide (hintSum c cx 58 t + hintCount c cx i 58 ≤ 1)) = true ↔
      i ∈ en ∧ i ∉ t ∧ Fits c cx t i := by
    simp only [Bool.and_eq_true, decide_eq_true_eq, List.contains_iff_mem, Bool.not_eq_true', ← Bool.not_eq_true, List.all_eq_true,
      bitAt_eq_getLsbD, Fits, Conflicts]
    constructor
    · rintro ⟨⟨⟨⟨⟨hplace, hen⟩, hnew⟩, hapart⟩, hvec⟩, hbas⟩
      exact ⟨hen, hnew, hplace, hapart, hvec, hbas⟩
    · rintro ⟨hen, hnew, hplace, hapart, hvec, hbas⟩
      exact ⟨⟨⟨⟨⟨hplace, hen⟩, hnew⟩, hapart⟩, hvec⟩, hbas⟩
  by_cases h : i ∈ en ∧ i ∉ t ∧ Fits c cx t i
  · have htaken : tryRule c cx en (t, hintSum c cx 57 t, hintSum c cx 58 t) i =
        (t ++ [i], hintSum c cx 57 t + hintCount c cx i 57, hintSum c cx 58 t + hintCount c cx i 58) := if_pos (hcond.mpr h)
    rw [htaken, taking, if_pos h, hintSum_append, hintSum_append]
  · have hleft : tryRule c cx en (t, hintSum c cx 57 t, hintSum c cx 58 t) i = (t, hintSum c cx 57 t, hintSum c cx 58 t) :=
      if_neg (hcond.not.mpr h)
    rw [hleft, taking, if_neg h]
theorem foldl_tryRule : l.foldl (tryRule c cx en) (t, hintSum c cx 57 t, hintSum c cx 58 t) =
    (l.foldl (taking c cx en) t, hintSum c cx 57 (l.foldl (taking c cx en) t), hintSum c cx 58 (l.foldl (taking c cx en) t)) := by
  induction l generalizing t with
  | nil => rfl
  | cons j l ih => rw [List.foldl_cons, List.foldl_cons, tryRule_eq, ih]

theorem taking_prefix : t <+: taking c cx en t i := by
  rw [taking]
  split
  · exact List.prefix_append _ _
  · exact List.prefix_rfl
theorem taking_together (h : Together c cx en t) : Together c cx en (taking c cx en t i) := by
  rw [taking]
  split
  next hi =>
    obtain ⟨hen, hnew, hplace, hapart, hvec, hbas⟩ := hi
    constructor
    case nodup => simpa using h.nodup.concat hnew
    case length_le => rw [List.length_append, List.length_singleton]; omega
    case enabled => simpa [or_imp, forall_and, hen] using h.enabled
    case vectors => exact (hintSum_append 57).trans_le hvec
    case basins => exact (hintSum_append 58).trans_le hbas
    case apart => exact List.pairwise_append.mpr ⟨h.apart, List.pairwise_singleton _ _, fun j hj k hk => List.mem_singleton.mp hk ▸ hapart j hj⟩
  next => exact h

/-! ## All rules tried -/

theorem foldl_taking_prefix : t <+: l.foldl (taking c cx en) t := by
  induction l generalizing t with
  | nil => exact List.prefix_rfl
  | cons j l ih => exact taking_prefix.trans ih
theorem foldl_taking_together (h : Together c cx en t) : Together c cx en (l.foldl (taking c cx en) t) := by
  induction l generalizing t with
  | nil => exact h
  | cons j l ih => exact ih (taking_together h)
theorem fits_of_prefix {u : List Nat} (h : t <+: u) (hu : Fits c cx u i) : Fits c cx t i := by
  obtain ⟨hplace, hapart, hvec, hbas⟩ := hu
  have hv := hintSum_mono (c := c) (cx := cx) (bit := 57) h
  have hb := hintSum_mono (c := c) (cx := cx) (bit := 58) h
  exact ⟨h.length_le.trans_lt hplace, fun j hj => hapart j (h.mem hj), by omega, by omega⟩
/-- An enabled rule that was tried and not taken does not fit beside those taken. -/
theorem foldl_taking_maximal (hl : i ∈ l) (hen : i ∈ en) (hout : i ∉ l.foldl (taking c cx en) t) :
    ¬ Fits c cx (l.foldl (taking c cx en) t) i := by
  induction l generalizing t with
  | nil => simp at hl
  | cons j l ih =>
    rw [List.foldl_cons] at hout ⊢
    obtain rfl | hl := List.mem_cons.mp hl
    · intro hfits
      have hbefore : i ∉ t := fun hi => hout ((taking_prefix.trans foldl_taking_prefix).mem hi)
      have htaken : i ∈ taking c cx en t i := by
        rw [taking, if_pos ⟨hen, hbefore, fits_of_prefix (taking_prefix.trans foldl_taking_prefix) hfits⟩]
        exact List.mem_append_right _ (List.mem_singleton_self i)
      exact hout (foldl_taking_prefix.mem htaken)
    · exact ih hl hout
/-- The first enabled rule tried is the first one taken. -/
theorem foldl_taking_head (h : l.find? (fun j => decide (j ∈ en)) = some i) : (l.foldl (taking c cx en) []).head? = some i := by
  obtain ⟨hen, before, after, rfl, hbefore⟩ := List.find?_eq_some_iff_append.mp h
  rw [decide_eq_true_eq] at hen
  have hnone : before.foldl (taking c cx en) [] = [] := by
    clear h
    induction before with
    | nil => rfl
    | cons j before ih =>
      have hj : j ∉ en := by simpa using hbefore j List.mem_cons_self
      rw [List.foldl_cons, taking, if_neg (fun hc => hj hc.1)]
      exact ih fun k hk => hbefore k (List.mem_cons_of_mem j hk)
  have hv := hintCount_le (c := c) (cx := cx) (i := i) 57
  have hb := hintCount_le (c := c) (cx := cx) (i := i) 58
  have hfits : Fits c cx [] i := ⟨by simp, by simp, by simp [hintSum]; omega, by simp [hintSum]; omega⟩
  rw [List.foldl_append, hnone, List.foldl_cons, taking, if_pos ⟨hen, List.not_mem_nil, hfits⟩, List.nil_append]
  obtain ⟨r, hr⟩ := foldl_taking_prefix (c := c) (cx := cx) (en := en) (t := [i]) (l := after)
  rw [← hr]
  rfl

/-! ## The rules of a round -/

theorem mem_enabledRules : i ∈ enabledRules c cx x ↔ i < 64 ∧ x.ended = false ∧ ruleEnabled c cx x i = true := by
  rw [enabledRules]
  split
  next h => simp [h]
  next h => simp [h]

/-- The order in which the rules of a context are tried: those with a retry mark by index, then from the fairness pointer on (R62). -/
def ruleOrder (x : Ctx) : List Nat :=
  (List.range 64).filter (fun i => bitAt x.rm i) ++ (List.range 64).map (fun k => (x.fp.toNat + k) % 64)

theorem selectRules_eq : selectRules c cx x = (ruleOrder x).foldl (taking c cx (enabledRules c cx x)) [] :=
  congrArg Prod.fst (foldl_tryRule (t := []) (l := ruleOrder x))
theorem selectRules_together : Together c cx (enabledRules c cx x) (selectRules c cx x) := by
  rw [selectRules_eq]
  refine foldl_taking_together ⟨List.nodup_nil, ?_, ?_, ?_, ?_, List.Pairwise.nil⟩
  all_goals simp [hintSum]
theorem mem_ruleOrder (h : i < 64) : i ∈ ruleOrder x := by
  have hfp := x.fp.isLt
  refine List.mem_append_right _ (List.mem_map.mpr ⟨(i + 64 - x.fp.toNat) % 64, List.mem_range.mpr (by omega), ?_⟩)
  omega
theorem selectRules_maximal (hon : i ∈ enabledRules c cx x) (hout : i ∉ selectRules c cx x) : ¬ Fits c cx (selectRules c cx x) i := by
  rw [selectRules_eq] at hout ⊢
  exact foldl_taking_maximal (mem_ruleOrder (mem_enabledRules.mp hon).1) hon hout

/-- The lowest retry mark comes first (R62). -/
theorem selectRules_retry (hon : i ∈ enabledRules c cx x) (hmark : x.rm.getLsbD i = true) (hlow : ∀ j < i, x.rm.getLsbD j = false) :
    (selectRules c cx x).head? = some i := by
  rw [selectRules_eq]
  apply foldl_taking_head
  rw [ruleOrder, List.find?_append, List.find?_filter, List.find?_range_eq_some.mpr ⟨?_, ?_, ?_⟩]
  · rfl
  · simp [bitAt_eq_getLsbD, hmark, hon]
  · exact List.mem_range.mpr (mem_enabledRules.mp hon).1
  · intro j hj
    simp [bitAt_eq_getLsbD, hlow j hj]
/-- Without retry marks the first enabled rule from the fairness pointer on comes first (R62, R72). -/
theorem selectRules_scan (hon : i ∈ enabledRules c cx x) (hmarks : x.rm = 0)
    (hfirst : ∀ k ∈ enabledRules c cx x, (i + 64 - x.fp.toNat) % 64 ≤ (k + 64 - x.fp.toNat) % 64) :
    (selectRules c cx x).head? = some i := by
  have hfp := x.fp.isLt
  have hi := (mem_enabledRules.mp hon).1
  have hplace : (x.fp.toNat + (i + 64 - x.fp.toNat) % 64) % 64 = i := by omega
  have hretry : (List.range 64).filter (fun i => bitAt x.rm i) = [] := by simp [hmarks, bitAt_eq_getLsbD]
  rw [selectRules_eq]
  apply foldl_taking_head
  have hfind : (List.range 64).find? ((fun j => decide (j ∈ enabledRules c cx x)) ∘ fun k => (x.fp.toNat + k) % 64) =
      some ((i + 64 - x.fp.toNat) % 64) := by
    refine List.find?_range_eq_some.mpr ⟨by simpa [hplace] using hon, List.mem_range.mpr (by omega), fun k hk => ?_⟩
    have hout : (x.fp.toNat + k) % 64 ∉ enabledRules c cx x := fun hin => by
      have := hfirst _ hin
      omega
    simpa using hout
  rw [ruleOrder, hretry, List.nil_append, List.find?_map, hfind, Option.map_some, hplace]

end

/-- Settles O30: the guard term by term, and the fold of the selector. -/
theorem guardsAndSelection : Obligations.GuardsAndSelection := by
  refine ⟨fun c x cx i => ruleEnabled_iff, fun c cx x => ?_⟩
  obtain ⟨hnodup, hlen, hon, hvec, hbas, hapart⟩ := selectRules_together (c := c) (cx := cx) (x := x)
  refine ⟨hnodup, hlen, fun i hi => mem_enabledRules.mp (hon i hi), hvec, hbas,
    fun i j h hj => List.pairwise_iff_getElem.mp hapart i j (by omega) hj h, fun i hi hout => ?_,
    fun i hi => selectRules_retry (mem_enabledRules.mpr hi),
    fun i hi hmarks hfirst => selectRules_scan (mem_enabledRules.mpr hi) hmarks fun k hk => hfirst k (mem_enabledRules.mp hk)⟩
  by_contra hroom
  simp only [not_or, not_exists, not_and, Nat.not_lt] at hroom
  obtain ⟨hplace, hfree, hv, hb⟩ := hroom
  exact selectRules_maximal (mem_enabledRules.mpr hi) hout ⟨by omega, hfree, hv, hb⟩

end Sys2Proof.Machine
end

