-- ==== Sys2Proof/Proofs/MarkedContexts.lean ====
section
/-! PROOF. SUPPORT. What a completion leaves of every core: all but the tag bits of contexts and the accesses that their fences wait for
(05_core_memory, R166, R174; 12_package_launch, R349). -/
namespace Sys2Proof.Machine

/-- Two contexts that differ at most in their tag bits and in the accesses that fences wait for. -/
def MarkedCtx (x y : Ctx) : Prop := ∃ tb pend, y = { x with tb := tb, pend := pend }
/-- Two cores that differ at most in that. -/
def MarkedCore (o p : Core) : Prop :=
  (∃ ctx, p = { o with ctx := ctx }) ∧ ∀ c, MarkedCtx (vget o.ctx c Ctx.reset) (vget p.ctx c Ctx.reset)
/-- A state whose cores differ from those of another at most in that. -/
def Marks (s t : State) : Prop := ∀ k, MarkedCore (coreOf s k) (coreOf t k)

section
variable {s t u : State}

theorem markedCtx_refl (x : Ctx) : MarkedCtx x x := ⟨x.tb, x.pend, rfl⟩
theorem markedCtx_trans {x y z : Ctx} (h : MarkedCtx x y) (h' : MarkedCtx y z) : MarkedCtx x z := by
  obtain ⟨_, _, rfl⟩ := h
  obtain ⟨tb, pend, rfl⟩ := h'
  exact ⟨tb, pend, rfl⟩
theorem eligible_of_marked {x y : Ctx} (h : MarkedCtx x y) : eligible y = eligible x := by
  obtain ⟨_, _, rfl⟩ := h
  rfl
theorem marks_of_core (h : t.core = s.core) : Marks s t := fun k => by
  have hk : coreOf t k = coreOf s k := by simp only [coreOf, h]
  rw [hk]
  exact ⟨⟨_, rfl⟩, fun _ => markedCtx_refl _⟩
theorem marks_trans (h : Marks s t) (h' : Marks t u) : Marks s u := fun k => by
  obtain ⟨⟨_, hst⟩, hctx⟩ := h k
  obtain ⟨⟨ctx, htu⟩, hctx'⟩ := h' k
  exact ⟨⟨ctx, by rw [htu, hst]⟩, fun c => markedCtx_trans (hctx c) (hctx' c)⟩
theorem vget_vset_out {α : Type} {n : Nat} (v : Vector α n) {i : Nat} (h : n ≤ i) (x : α) : vset v i x = v := by
  ext j hj
  rw [vset, Vector.getElem_setIfInBounds_ne hj (by omega)]
theorem marks_setCtx {k c : Nat} {x : Ctx} (h : MarkedCtx (ctxOf s k c) x) : Marks s (setCtx s k c x) := by
  intro j
  by_cases hj : k = j
  · subst hj
    rw [setCtx, coreOf_setCore_same]
    refine ⟨⟨_, rfl⟩, fun d => ?_⟩
    by_cases hd : c = d
    · subst hd
      by_cases hc : c < 4
      · rwa [vget_vset_same _ _ _ _ hc]
      · rw [vget_vset_out _ (by omega)]
        exact markedCtx_refl _
    · rw [vget_vset_other _ _ _ _ _ hd]
      exact markedCtx_refl _
  · rw [coreOf_setCtx_other _ _ _ _ _ hj]
    exact ⟨⟨_, rfl⟩, fun _ => markedCtx_refl _⟩
theorem marks_modCtx {addr : Nat} {f : Ctx → Ctx} (h : ∀ x, MarkedCtx x (f x)) : Marks s (modCtx s addr f) := by
  unfold modCtx
  split
  · exact marks_setCtx (h _)
  · exact marks_of_core rfl
theorem marks_modTwins {addr : Nat} {f : Ctx → Ctx} (h : ∀ x, MarkedCtx x (f x)) : Marks s (modTwins s addr f) := by
  unfold modTwins
  dsimp only
  split
  · exact marks_trans (marks_modCtx h) (marks_modCtx h)
  · exact marks_modCtx h
theorem poke_core {addr : Nat} : (poke s addr).core = s.core := by
  unfold poke
  split
  · dsimp only
    split
    · rfl
    · split <;> rfl
  · rfl
theorem pokeTwins_core {addr : Nat} : (pokeTwins s addr).core = s.core := by
  unfold pokeTwins
  split
  · rw [poke_core, poke_core]
  · exact poke_core
theorem markedCtx_settleAccess {id : Nat} {f : Access → Access} (x : Ctx) : MarkedCtx x (settleAccess id f x) := ⟨x.tb, _, rfl⟩
theorem markedCtx_setTag (n : Nat) (x : Ctx) : MarkedCtx x { x with tb := x.tb ||| (1#64 <<< n) } := ⟨_, x.pend, rfl⟩
theorem marks_endAccess {addr id : Nat} : Marks s (endAccess s addr id) :=
  marks_trans (marks_modTwins markedCtx_settleAccess) (marks_of_core pokeTwins_core)
theorem marks_completeCommand {addr id : Nat} {tag : Option Nat} : Marks s (completeCommand s addr id tag) := by
  unfold completeCommand
  cases tag with
  | none => exact marks_endAccess
  | some n =>
    dsimp only
    split
    · exact marks_trans (marks_trans (marks_modCtx (markedCtx_setTag n)) (marks_modCtx (markedCtx_setTag n))) marks_endAccess
    · exact marks_trans (marks_modCtx (markedCtx_setTag n)) marks_endAccess
theorem marks_tellSwapper {n : Nat} : Marks s (tellSwapper s n) := by
  unfold tellSwapper
  split
  · refine marks_trans ?_ marks_completeCommand
    exact marks_of_core (setRegion_core ..)
  · exact marks_of_core rfl

end
end Sys2Proof.Machine
end

