-- ==== Sys2Proof/Proofs/Rounds.lean ====
section
/-! PROOF. A round of a core: the context pass before it, the rules that it takes, the bodies one after another (02_rule, R60, R63, R78;
07_core_failures, R206, R211; 12_package_launch, R349). -/
namespace Sys2Proof.Machine
open Sys2Proof.Claims

section
variable {s : State} {k : Nat}

/-! ## Contexts and counters -/

theorem toNat_satAdd (v : W32) (n : Nat) : (satAdd v n).toNat = min (v.toNat + n) (2 ^ 32 - 1) := by
  rw [satAdd, BitVec.toNat_ofNat]
  omega
@[simp] theorem ctxOf_setCore (c : Core) (i : Nat) : ctxOf (setCore s k c) k i = vget c.ctx i Ctx.reset := by
  rw [ctxOf, coreOf_setCore_same]
@[simp] theorem coreOf_setCtx (c : Nat) (x : Ctx) :
    coreOf (setCtx s k c x) k = { coreOf s k with ctx := vset (coreOf s k).ctx c x } := coreOf_setCore_same ..
@[simp] theorem coreOf_countCore (n m : Nat) : coreOf (countCore s k n m) k =
    { coreOf s k with cnt := vset (coreOf s k).cnt (n - 32) (satAdd (vget (coreOf s k).cnt (n - 32) 0) m) } := coreOf_setCore_same ..
theorem ctxOf_countCtx_same {c n m : Nat} (hc : c < 4) : ctxOf (countCtx s k c n m) k c =
    { ctxOf s k c with cnt := vset (ctxOf s k c).cnt n (satAdd (vget (ctxOf s k c).cnt n 0) m) } := ctxOf_setCtx_same _ _ _ _ hc
theorem ctxOf_countCtx_other {c d n m : Nat} (h : c ≠ d) : ctxOf (countCtx s k c n m) k d = ctxOf s k d := ctxOf_setCtx_other _ _ _ _ _ h

/-! ## Cores that run rounds -/

theorem coreLive_eq_of {o p : Core} (hstop : p.stopped = o.stopped) (hhalt : p.halted = o.halted) (htraps : p.traps = o.traps)
    (htrets : p.trets = o.trets) (hctx : ∀ c, eligible (vget p.ctx c Ctx.reset) = eligible (vget o.ctx c Ctx.reset)) :
    coreLive p = coreLive o := by
  have hany (q : Core) : q.ctx.toList.any eligible = true ↔ ∃ c < 4, eligible (vget q.ctx c Ctx.reset) = true := by
    rw [List.any_eq_true]
    constructor
    · rintro ⟨x, hx, hel⟩
      obtain ⟨c, hc, rfl⟩ := List.mem_iff_getElem.mp hx
      have hc4 : c < 4 := by simpa using hc
      exact ⟨c, hc4, by rw [vget_eq _ _ _ hc4]; simpa using hel⟩
    · rintro ⟨c, hc, hel⟩
      rw [vget_eq _ _ _ hc] at hel
      exact ⟨_, by simp, hel⟩
  have hanyEq : p.ctx.toList.any eligible = o.ctx.toList.any eligible := by
    rw [Bool.eq_iff_iff, hany, hany]
    simp only [hctx]
  rw [coreLive, coreLive, hstop, hhalt, htraps, htrets, hanyEq]

/-- A core that runs rounds, on a clock that runs, in a cluster out of retention (07_core_failures, R210; 10_die, R281; 08_cluster,
R255). -/
structure RunsRounds (s : State) (k : Nat) : Prop where
  live : coreLive (coreOf s k) = true
  clock : clockStopped s k = false
  awake : (clusterOf s (clusterKey k)).rstate = 0

/-- The round of a core whose pass is taken (R60, R349). -/
def settledRound (s : State) (k : Nat) : State :=
  let x := ctxOf s k (coreOf s k).act.toNat
  runRound (if eligible x then tellSwapper s x.region else s) k
theorem execRound_idle (hact : s.stage.active = false) (hruns : RunsRounds s s.ev.x) :
    exec .round s = .next (settledRound (takePass s s.ev.x) s.ev.x) := by
  have hstart : startRound s s.ev.x = settledRound (takePass s s.ev.x) s.ev.x := by
    rw [startRound, if_neg (by simp [hruns.live, hruns.clock, hruns.awake])]
    rfl
  show execRound s = _
  rw [execRound, hact, hstart]
  rfl
theorem takePass_none (h : (coreOf s k).pass = none) : takePass s k = s := by
  simp only [takePass, h]

/-! ## The context pass -/

/-- The contexts of a core whose active context has given way. -/
def leftContexts (o : Core) : Vector Ctx 4 := vset o.ctx o.act.toNat { vget o.ctx o.act.toNat Ctx.reset with yielded := false }
/-- A context that has been switched in. -/
def switchedIn (y : Ctx) : Ctx := { y with cnt := vset y.cnt 10 (satAdd (vget y.cnt 10 0) 1) }
/-- What passing to another context leaves of a core (R211). -/
def passedCore (o : Core) (n : Nat) : Core :=
  { o with act := BitVec.ofNat 2 n, qr := 0, ctx := vset (leftContexts o) n (switchedIn (vget (leftContexts o) n Ctx.reset)) }
theorem coreOf_passTo {n : Nat} : coreOf (passTo s k n) k = passedCore (coreOf s k) n := by
  simp only [passTo, countCtx, coreOf_setCtx, coreOf_setCore_same, ctxOf_setCore]
  rfl
theorem vget_vset_map {α β : Type} {n : Nat} (v : Vector α n) (i c : Nat) (x d : α) (f : α → β) (h : f x = f (vget v i d)) :
    f (vget (vset v i x) c d) = f (vget v c d) := by
  by_cases hc : i = c
  · subst hc
    by_cases hi : i < n
    · rw [vget_vset_same _ _ _ _ hi, h]
    · rw [vget_vset_out _ (by omega)]
  · rw [vget_vset_other _ _ _ _ _ hc]
theorem eligible_passedCore {o : Core} {n c : Nat} :
    eligible (vget (passedCore o n).ctx c Ctx.reset) = eligible (vget o.ctx c Ctx.reset) := by
  calc eligible (vget (passedCore o n).ctx c Ctx.reset)
      = eligible (vget (leftContexts o) c Ctx.reset) := vget_vset_map _ _ _ _ _ eligible rfl
    _ = eligible (vget o.ctx c Ctx.reset) := vget_vset_map _ _ _ _ _ eligible rfl
theorem ctx_passedCore_left {o : Core} {n : Nat} (h : n ≠ o.act.toNat) :
    vget (passedCore o n).ctx o.act.toNat Ctx.reset = { vget o.ctx o.act.toNat Ctx.reset with yielded := false } :=
  (vget_vset_other _ _ _ _ _ h).trans (vget_vset_same _ _ _ _ o.act.isLt)
theorem ctx_passedCore_switchedIn {o : Core} {n : Nat} (hn : n < 4) (h : n ≠ o.act.toNat) :
    vget (passedCore o n).ctx n Ctx.reset = switchedIn (vget o.ctx n Ctx.reset) := by
  rw [← vget_vset_other o.ctx o.act.toNat n { vget o.ctx o.act.toNat Ctx.reset with yielded := false } Ctx.reset h.symm]
  exact vget_vset_same _ _ _ _ hn
theorem passTo_runsRounds {n : Nat} (h : RunsRounds s k) : RunsRounds (passTo s k n) k := by
  refine ⟨?_, h.clock, h.awake⟩
  rw [coreOf_passTo, coreLive_eq_of (o := coreOf s k) (p := passedCore (coreOf s k) n) rfl rfl rfl rfl fun c => ?_]
  · exact h.live
  · exact eligible_passedCore
/-- The core with its pass judged (R211). -/
def unpassed (o : Core) : Core := { o with pass := none }
def passJudged (s : State) (k : Nat) : State := setCore s k (unpassed (coreOf s k))
theorem coreOf_passJudged : coreOf (passJudged s k) k = unpassed (coreOf s k) := coreOf_setCore_same ..
theorem passJudged_runsRounds (h : RunsRounds s k) : RunsRounds (passJudged s k) k := by
  refine ⟨?_, h.clock, h.awake⟩
  rw [coreOf_passJudged]
  exact h.live

section
variable {idle : Bool}

theorem takePass_stays (h : (coreOf s k).pass = some idle) (hstay : passTarget (coreOf s k) idle = none) :
    takePass s k = passJudged s k := by
  simp only [takePass, h, hstay]
  rfl
theorem takePass_passes {n : Nat} (h : (coreOf s k).pass = some idle) (hpass : passTarget (coreOf s k) idle = some n) :
    takePass s k = passTo (passJudged s k) k n := by
  simp only [takePass, h, hpass]
  rfl
theorem coreOf_takePass_passes {n : Nat} (h : (coreOf s k).pass = some idle) (hpass : passTarget (coreOf s k) idle = some n) (hn : n < 4) :
    let o := coreOf (takePass s k) k
    o.pass = none ∧ o.act.toNat = n ∧ o.qr = 0 := by
  rw [takePass_passes h hpass, coreOf_passTo, coreOf_passJudged]
  exact ⟨rfl, Nat.mod_eq_of_lt hn, rfl⟩
/-- The context left has no yield flag, and the one passed to counts SWITCHIN (R211). -/
theorem ctxOf_takePass_passes {n : Nat} (h : (coreOf s k).pass = some idle) (hpass : passTarget (coreOf s k) idle = some n) (hn : n < 4)
    (hother : n ≠ (coreOf s k).act.toNat) :
    (ctxOf (takePass s k) k (coreOf s k).act.toNat).yielded = false ∧
      vget (ctxOf (takePass s k) k n).cnt 10 0 = satAdd (vget (ctxOf s k n).cnt 10 0) 1 := by
  rw [takePass_passes h hpass, ctxOf, ctxOf, coreOf_passTo, coreOf_passJudged]
  refine ⟨?_, ?_⟩
  · exact congrArg Ctx.yielded (ctx_passedCore_left (o := unpassed (coreOf s k)) hother)
  · rw [ctx_passedCore_switchedIn (o := unpassed (coreOf s k)) hn hother]
    exact vget_vset_same _ _ _ _ (by omega)
theorem takePass_cases : ((coreOf s k).pass = none ∧ takePass s k = s) ∨ takePass s k = passJudged s k ∨
    ∃ n, takePass s k = passTo (passJudged s k) k n := by
  cases h : (coreOf s k).pass with
  | none => exact .inl ⟨rfl, takePass_none h⟩
  | some idle =>
    cases hpass : passTarget (coreOf s k) idle with
    | none => exact .inr (.inl (takePass_stays h hpass))
    | some n => exact .inr (.inr ⟨n, takePass_passes h hpass⟩)
theorem takePass_runsRounds (hruns : RunsRounds s k) : RunsRounds (takePass s k) k := by
  obtain ⟨-, h⟩ | h | ⟨n, h⟩ := takePass_cases (s := s) (k := k)
  · rwa [h]
  · rw [h]
    exact passJudged_runsRounds hruns
  · rw [h]
    exact passTo_runsRounds (passJudged_runsRounds hruns)
theorem takePass_pass : (coreOf (takePass s k) k).pass = none := by
  obtain ⟨hnone, h⟩ | h | ⟨n, h⟩ := takePass_cases (s := s) (k := k)
  · rwa [h]
  · rw [h, coreOf_passJudged]
    rfl
  · rw [h, coreOf_passTo, coreOf_passJudged]
    rfl
/-- The pass is a matter of the cores alone. -/
theorem takePass_keeps : (takePass s k).stage = s.stage ∧ (takePass s k).ev = s.ev := by
  obtain ⟨-, h⟩ | h | ⟨n, h⟩ := takePass_cases (s := s) (k := k)
  all_goals
    rw [h]
    exact ⟨rfl, rfl⟩

end

/-- Taking the pass is the start of the round, and taking it earlier changes nothing (R349). -/
theorem execRound_takePass (hact : s.stage.active = false) (hruns : RunsRounds s s.ev.x) :
    exec .round s = exec .round (takePass s s.ev.x) := by
  obtain ⟨hstage, hev⟩ := takePass_keeps (s := s) (k := s.ev.x)
  rw [execRound_idle hact hruns, execRound_idle (by rw [hstage, hact]) (by rw [hev]; exact takePass_runsRounds hruns), hev,
    takePass_none takePass_pass]

/-! ## The rules of a round, and their bodies -/

@[simp] theorem coreOf_markReady_act {o : Core} : (markReady o).act = o.act := rfl
theorem vget_markReady {o : Core} : vget (markReady o).ctx o.act.toNat Ctx.reset = vget o.ctx o.act.toNat Ctx.reset := by
  rw [vget_eq _ _ _ o.act.isLt, markReady, Vector.getElem_ofFn]
  simp
theorem mem_runOrder {taken : List Nat} {j : Nat} : j ∈ runOrder taken ↔ j < 64 ∧ j ∈ taken := by
  simp [runOrder]
theorem runOrder_pairwise {taken : List Nat} : (runOrder taken).Pairwise (· < ·) :=
  List.pairwise_lt_range.filter _
theorem runOrder_eq {taken l : List Nat} (hmem : ∀ j < 64, j ∈ l ↔ j ∈ taken) (hsorted : l.Pairwise (· < ·)) (hlt : ∀ j ∈ l, j < 64) :
    runOrder taken = l :=
  runOrder_pairwise.eq_of_mem_iff hsorted fun j => by
    rw [mem_runOrder]
    exact ⟨fun h => (hmem j h.1).mpr h.2, fun h => ⟨hlt j h, (hmem j (hlt j h)).mp h⟩⟩

/-- What a round of an eligible context comes to with the rules of the state that the swapper has been told in (R60, R206). -/
theorem settledRound_eligible (hel : eligible (ctxOf s k (coreOf s k).act.toNat) = true) :
    settledRound s k = runRound (tellSwapper s (ctxOf s k (coreOf s k).act.toNat).region) k := by
  simp only [settledRound, hel, if_true]
theorem tellSwapper_act {n : Nat} : (coreOf (tellSwapper s n) k).act = (coreOf s k).act := by
  obtain ⟨⟨_, h⟩, -⟩ := marks_tellSwapper (s := s) (n := n) k
  rw [h]
theorem tellSwapper_eligible {n c : Nat} : eligible (ctxOf (tellSwapper s n) k c) = eligible (ctxOf s k c) :=
  eligible_of_marked ((marks_tellSwapper (s := s) (n := n) k).2 c)

/-- The state in which the rules of a round have been judged: ready bits and bad headers (R210; R55). -/
def judged (s : State) (k : Nat) : State :=
  countCore (setCore s k (markReady (coreOf s k))) k 33 (badHeaders (coreOf s k) (coreOf s k).act.toNat)
theorem ctxOf_judged : ctxOf (judged s k) k (coreOf s k).act.toNat = ctxOf s k (coreOf s k).act.toNat := by
  rw [judged, ctxOf, coreOf_countCore, coreOf_setCore_same]
  exact vget_markReady

/-- The rules that a round takes (R62). -/
def roundRules (s : State) (k : Nat) : List Nat :=
  selectRules (coreOf s k) (coreOf s k).act.toNat (ctxOf s k (coreOf s k).act.toNat)
/-- The staging of a round before its first body. -/
def roundStage (s : State) (k : Nat) : Stage :=
  { Stage.reset with active := true, core := k, cx := Fin.ofNat 4 (coreOf s k).act.toNat, taken := roundRules s k }
/-- An idle round up to its checks (R60, R224). -/
def idled (s : State) (k c : Nat) : State := countCtx (setCtx s k c { ctxOf s k c with fired := false }) k c 9 1

theorem runRound_idle (hel : eligible (ctxOf s k (coreOf s k).act.toNat) = true) (h : roundRules s k = []) :
    runRound s k =
      let c := (coreOf s k).act.toNat
      let checks := takeChecks (idled (judged s k) k c) k c
      boundary (countRound (raiseTraps checks.1 k c (ctxOf s k c).fm checks.2) k c) k true := by
  have hrun : runOrder (selectRules (coreOf s k) (coreOf s k).act.toNat (ctxOf s k (coreOf s k).act.toNat)) = [] := by
    rw [roundRules] at h
    rw [h]
    rfl
  rw [ctxOf] at hel hrun
  dsimp only
  rw [← ctxOf_judged]
  simp only [runRound, hel, hrun, idled, judged, Bool.not_true, Bool.false_eq_true, if_false]
theorem runRound_bodies {i : Nat} {r : List Nat} (hel : eligible (ctxOf s k (coreOf s k).act.toNat) = true)
    (h : runOrder (roundRules s k) = i :: r) :
    runRound s k = startBody { judged s k with stage := roundStage s k } i r (coreOf s k).inj := by
  rw [roundRules, ctxOf] at h
  rw [ctxOf] at hel
  simp only [runRound, hel, h]
  exact if_neg (by decide)

/-- The first body's registers are those of the context, and its header that of its rule (R60, R63). -/
theorem startBody_work {i : Nat} {r : List Nat} {inj : BitVec 42} :
    (startBody { judged s k with stage := roundStage s k } i r inj).stage.work =
      startWork (ctxOf s k (coreOf s k).act.toNat) i (headerA (coreOf (judged s k) k) (coreOf s k).act.toNat i)
        (headerB (coreOf (judged s k) k) (coreOf s k).act.toNat i) inj := by
  have hcx : (roundStage s k).cx.val = (coreOf s k).act.toNat := Nat.mod_eq_of_lt (coreOf s k).act.isLt
  show startWork (vget (coreOf (judged s k) k).ctx (roundStage s k).cx.val Ctx.reset) i
    (headerA (coreOf (judged s k) k) (roundStage s k).cx.val i) (headerB (coreOf (judged s k) k) (roundStage s k).cx.val i) inj = _
  rw [hcx, ← ctxOf_judged]
  rfl

end

/-! ## The obligation's parts -/

section
variable {s : State}

theorem roundTakesPass {idle : Bool} (hact : s.stage.active = false) (hpass : (coreOf s s.ev.x).pass = some idle)
    (hruns : RunsRounds s s.ev.x) (hn : (passTarget (coreOf s s.ev.x) idle).getD (coreOf s s.ev.x).act.toNat < 4) :
    let k := s.ev.x
    let o := coreOf s k
    let n := (passTarget o idle).getD o.act.toNat
    let t := takePass s k
    exec .round s = exec .round t ∧ (coreOf t k).pass = none ∧ (coreOf t k).act.toNat = n ∧
      (passTarget o idle = none → t = setCore s k { o with pass := none }) ∧
      (passTarget o idle ≠ none → (coreOf t k).qr = 0 ∧ (n ≠ o.act.toNat → (ctxOf t k o.act.toNat).yielded = false ∧
        (vget (ctxOf t k n).cnt 10 0).toNat = min ((vget (ctxOf s k n).cnt 10 0).toNat + 1) (2 ^ 32 - 1))) := by
  dsimp only
  refine ⟨execRound_takePass hact hruns, takePass_pass, ?_⟩
  cases htarget : passTarget (coreOf s s.ev.x) idle with
  | none =>
    have ht := takePass_stays hpass htarget
    refine ⟨?_, fun _ => ht, fun hc => absurd rfl hc⟩
    rw [ht, coreOf_passJudged]
    rfl
  | some n =>
    rw [htarget] at hn
    obtain ⟨-, hn', hqr⟩ := coreOf_takePass_passes hpass htarget hn
    refine ⟨hn', fun hc => by simp at hc, fun _ => ⟨hqr, fun hother => ?_⟩⟩
    obtain ⟨hleft, hcount⟩ := ctxOf_takePass_passes hpass htarget hn hother
    exact ⟨hleft, by rw [Option.getD_some, hcount, toNat_satAdd]⟩

theorem execRound_eligible (hact : s.stage.active = false) (hpass : (coreOf s s.ev.x).pass = none) (hruns : RunsRounds s s.ev.x)
    (hel : eligible (ctxOf s s.ev.x (coreOf s s.ev.x).act.toNat) = true) :
    exec .round s = .next (runRound (tellSwapper s (ctxOf s s.ev.x (coreOf s s.ev.x).act.toNat).region) s.ev.x) := by
  rw [execRound_idle hact hruns, takePass_none hpass, settledRound_eligible hel]

/-- Between two bodies the round only moves on (R60). -/
theorem nextBody {i : Nat} {r : List Nat} (hact : s.stage.active = true) (hover : bodyOver s = true) (htodo : s.stage.todo = i :: r) :
    ∃ t, exec .round s = .next t ∧ t = { s with stage := t.stage } ∧ t.stage.todo = r ∧ t.stage.running = true ∧
      t.stage.work.rule = i ∧ t.stage.work.effects = [] ∧ t.stage.work.inj = s.stage.work.inj ∧
      (s.stage.running = true → t.stage.finished = s.stage.finished ++ [⟨s.stage.work, none⟩]) ∧
      (s.stage.running = false → t.stage.finished = s.stage.finished) := by
  have hend : exec .round s = .next (endBody s) := by
    show execRound s = _
    rw [execRound, if_pos hact, if_pos hover]
  rw [hend]
  simp only [endBody, htodo]
  refine ⟨_, rfl, rfl, rfl, rfl, rfl, rfl, rfl, fun hrunning => ?_, fun hrunning => ?_⟩
  · show (if s.stage.running then _ else _) = _
    rw [if_pos hrunning]
  · show (if s.stage.running then _ else _) = _
    rw [if_neg (by simp [hrunning])]

end

/-- Settles O31: the pass first, then the round of the rules selected, and the next body of a round under way. -/
theorem roundsRunTheirBodies : Obligations.RoundsRunTheirBodies := by
  refine ⟨fun s idle hact hpass hlive hclock hawake hn => roundTakesPass hact hpass ⟨hlive, hclock, hawake⟩ hn, ?_, ?_⟩
  · intro s r i hact
    dsimp only
    intro hpass hlive hclock hawake hel
    have hround := execRound_eligible hact hpass ⟨hlive, hclock, hawake⟩ hel
    generalize hs0 : tellSwapper s _ = s0 at hround ⊢
    have hc : (coreOf s0 s.ev.x).act.toNat = (coreOf s s.ev.x).act.toNat := by rw [← hs0, tellSwapper_act]
    have hel0 : eligible (ctxOf s0 s.ev.x (coreOf s0 s.ev.x).act.toNat) = true := by rw [hc, ← hs0, tellSwapper_eligible, hel]
    rw [hround, ← hc]
    refine ⟨fun hnone => ?_, fun hmem hsorted hlt => ?_⟩
    · rw [runRound_idle hel0 hnone]
      rfl
    · rw [runRound_bodies hel0 (runOrder_eq hmem hsorted hlt)]
      refine ⟨_, rfl, rfl, rfl, rfl, Nat.mod_eq_of_lt (coreOf s0 s.ev.x).act.isLt, rfl, rfl, rfl, rfl, ?_⟩
      exact startBody_work
  · intro s i r hact hover htodo
    exact nextBody hact hover htodo

end Sys2Proof.Machine
end

