-- ==== Sys2Proof/Proofs/RuleAborts.lean ====
section
/-! PROOF. The abort of a rule: the record, counts and retry mark that every code leaves, then the outcome of each code (02_rule, R74 to
R76). -/
namespace Sys2Proof.Machine
open Sys2Proof.Claims

/-! ## What every abort leaves -/

/-- An abort's record (R74). -/
def abortRecord (old : BitVec 24) (code : BitVec 8) : BitVec 24 :=
  BitVec.ofNat 24 (code.toNat * 65536 + min (bits old 15 0 + 1) 0xFFFF)
/-- A context whose rule has aborted, before the outcome of the code (R74). -/
def abortedCtx (x : Ctx) (rule : Nat) (code : BitVec 8) : Ctx :=
  { x with
    rabort := vset x.rabort rule (abortRecord (vget x.rabort rule 0) code)
    rm := putBits x.rm rule rule 0
    cnt := vset x.cnt 6 (satAdd (vget x.cnt 6 0) 1) }
/-- The state whose rule has aborted, before the outcome of the code. -/
def abortNoted (s : State) (k c rule : Nat) (code : BitVec 8) : State :=
  let x := ctxOf s k c
  countCtx (setRetry (setCtx s k c { x with rabort := vset x.rabort rule (abortRecord (vget x.rabort rule 0) code) }) k c rule false) k c 6 1

section
variable {s : State} {k c : Nat} {w : Work} {a : Abort}

theorem ctxOf_abortNoted {rule : Nat} {code : BitVec 8} (hc : c < 4) :
    ctxOf (abortNoted s k c rule code) k c = abortedCtx (ctxOf s k c) rule code := by
  simp only [abortNoted, countCtx, setRetry, ctxOf_setCtx_same _ _ _ _ hc]
  rfl
theorem mem_setCtx {d : Nat} {x : Ctx} : (coreOf (setCtx s k d x) k).mem = (coreOf s k).mem := by rw [coreOf_setCtx]
theorem mem_abortNoted {rule : Nat} {code : BitVec 8} : (coreOf (abortNoted s k c rule code) k).mem = (coreOf s k).mem := by
  simp only [abortNoted, countCtx, setRetry, mem_setCtx]
theorem toNat_abortRecord {old : BitVec 24} {code : BitVec 8} :
    (abortRecord old code).toNat = code.toNat * 2 ^ 16 + min (old.toNat % 2 ^ 16 + 1) 0xFFFF := by
  have hcode := code.isLt
  rw [abortRecord, bits_eq_field_nat old 15 0 16 rfl, BitVec.toNat_ofNat, Nat.pow_zero, Nat.div_one]
  omega
theorem putBits_one_bit {x : W64} {i v : Nat} (h : i < 64) : (putBits x i i v).getLsbD i = v.testBit 0 := by
  rw [putBits_getLsbD x (le_refl i) h, if_pos ⟨le_refl i, le_refl i⟩, Nat.sub_self]
theorem putBits_zero_eq_under {x : W64} {i : Nat} (h : i < 64) : putBits x i i 0 = under x (one i) 0 := by
  rw [← clear_eq_under, ← shiftLeft_eq_one]
  apply BitVec.eq_of_getLsbD_eq
  intro j hj
  rw [putBits_getLsbD x (le_refl i) hj]
  by_cases hji : j = i
  · subst hji
    simp [hj]
  · rw [if_neg (by omega)]
    simp [hj]
    omega

/-! ## The outcome of each code -/

theorem abortRule_explicit (h : a.code = cExplicit) : abortRule s k c w a =
    let t := abortNoted s k c w.rule a.code
    (if bits w.hdrB 39 38 = 1 then setCtx t k c { ctxOf t k c with en := putBits (ctxOf t k c).en w.rule w.rule 0 } else t,
      if bits w.hdrB 39 38 = 2 then [abortCause w a 0] else []) := by
  simp only [abortRule, beq_iff_eq.mpr h, if_true]
  split
  next hpol => rw [if_pos hpol, if_neg (by omega)]; rfl
  next hpol => rw [if_neg (by omega), if_pos hpol]; rfl
  next hdis htrap => rw [if_neg hdis, if_neg htrap]; rfl
theorem abortRule_residue (h : a.code = cResidue) : abortRule s k c w a =
    let t := countCtx (abortNoted s k c w.rule a.code) k c 7 1
    if bitAt (ctxOf s k c).rm w.rule then (t, [abortCause w a 2]) else (setRetry t k c w.rule true, []) := by
  have hexp : ¬ (a.code == cExplicit) = true := by rw [h]; decide
  simp only [abortRule]
  rw [if_neg hexp, if_pos (beq_iff_eq.mpr h)]
  rfl
theorem abortRule_error (h : a.code = cEccUe) :
    abortRule s k c w a = (consumeError (abortNoted s k c w.rule a.code) (ctxOf s k c).region cEccUe, []) := by
  have hexp : ¬ (a.code == cExplicit) = true := by rw [h]; decide
  have hres : ¬ (a.code == cResidue) = true := by rw [h]; decide
  simp only [abortRule]
  rw [if_neg hexp, if_neg hres, if_pos (beq_iff_eq.mpr h)]
  rfl
theorem abortRule_other (hexp : a.code ≠ cExplicit) (hres : a.code ≠ cResidue) (hecc : a.code ≠ cEccUe) :
    abortRule s k c w a = (abortNoted s k c w.rule a.code, if a.code = cQueueFull then [] else [abortCause w a 0]) := by
  simp only [abortRule]
  rw [if_neg (by simpa using hexp), if_neg (by simpa using hres), if_neg (by simpa using hecc)]
  simp only [beq_iff_eq]
  split <;> rfl

/-- What the outcome of a code leaves of a context whose rule has aborted. -/
structure AbortLeaves (s : State) (k c : Nat) (w : Work) (a : Abort) (t : State) : Prop where
  ctx : ∃ en rm cnt, ctxOf t k c = { abortedCtx (ctxOf s k c) w.rule a.code with en := en, rm := rm, cnt := cnt }
  mem : (coreOf t k).mem = (coreOf s k).mem
  retry : (ctxOf t k c).rm.getLsbD w.rule = decide (a.code = cResidue ∧ (ctxOf s k c).rm.getLsbD w.rule = false)
  enable : (ctxOf t k c).en =
    if a.code = cExplicit ∧ bits w.hdrB 39 38 = 1 then under (ctxOf s k c).en (one w.rule) 0 else (ctxOf s k c).en
  aborts : vget (ctxOf t k c).cnt 6 0 = satAdd (vget (ctxOf s k c).cnt 6 0) 1
  found : vget (ctxOf t k c).cnt 7 0 = if a.code = cResidue then satAdd (vget (ctxOf s k c).cnt 7 0) 1 else vget (ctxOf s k c).cnt 7 0

theorem abortNoted_leaves (hc : c < 4) (hrule : w.rule < 64) (hres : a.code ≠ cResidue)
    (hdis : ¬ (a.code = cExplicit ∧ bits w.hdrB 39 38 = 1)) : AbortLeaves s k c w a (abortNoted s k c w.rule a.code) := by
  have hy := ctxOf_abortNoted (s := s) (k := k) (rule := w.rule) (code := a.code) hc
  refine ⟨⟨_, _, _, hy⟩, mem_abortNoted, ?_, ?_, ?_, ?_⟩
  · rw [hy, abortedCtx, putBits_one_bit hrule]
    simp [hres]
  · rw [hy, if_neg hdis]
    rfl
  · rw [hy]
    exact vget_vset_same _ _ _ _ (by omega)
  · rw [hy, if_neg hres]
    exact vget_vset_other _ _ _ _ _ (by omega)

/-- Policy 1 of an explicit abort disables the rule (R75). -/
theorem abortDisabled_leaves (hc : c < 4) (hrule : w.rule < 64) (hexp : a.code = cExplicit) (hdis : bits w.hdrB 39 38 = 1) :
    let t := abortNoted s k c w.rule a.code
    AbortLeaves s k c w a (setCtx t k c { ctxOf t k c with en := putBits (ctxOf t k c).en w.rule w.rule 0 }) := by
  have hres : a.code ≠ cResidue := by rw [hexp]; decide
  dsimp only
  rw [ctxOf_abortNoted hc]
  constructor
  case ctx => exact ⟨_, _, _, ctxOf_setCtx_same _ _ _ _ hc⟩
  case mem => rw [mem_setCtx, mem_abortNoted]
  all_goals rw [ctxOf_setCtx_same _ _ _ _ hc]
  case retry =>
    rw [abortedCtx, putBits_one_bit hrule]
    simp [hres]
  case enable =>
    rw [if_pos ⟨hexp, hdis⟩]
    exact putBits_zero_eq_under hrule
  case aborts => exact vget_vset_same _ _ _ _ (by omega)
  case found =>
    rw [if_neg hres]
    exact vget_vset_other _ _ _ _ _ (by omega)

/-- A residue error is counted, and its rule marked for a retry unless it was one (R76). -/
theorem abortResidue_ctx (hc : c < 4) : let x := abortedCtx (ctxOf s k c) w.rule a.code
    ctxOf (countCtx (abortNoted s k c w.rule a.code) k c 7 1) k c = { x with cnt := vset x.cnt 7 (satAdd (vget x.cnt 7 0) 1) } := by
  rw [ctxOf_countCtx_same hc, ctxOf_abortNoted hc]
theorem cnt_abortResidue {x : Ctx} {rule : Nat} {code : BitVec 8} : let y := abortedCtx x rule code
    let cnt := vset y.cnt 7 (satAdd (vget y.cnt 7 0) 1)
    vget cnt 6 0 = satAdd (vget x.cnt 6 0) 1 ∧ vget cnt 7 0 = satAdd (vget x.cnt 7 0) 1 := by
  simp only [abortedCtx]
  rw [vget_vset_other _ _ _ _ _ (by omega), vget_vset_same _ _ _ _ (by omega), vget_vset_same _ _ _ _ (by omega),
    vget_vset_other _ _ _ _ _ (by omega)]
  exact ⟨rfl, rfl⟩
theorem abortResidue_leaves (hc : c < 4) (hrule : w.rule < 64) (hres : a.code = cResidue) :
    AbortLeaves s k c w a (abortRule s k c w a).1 := by
  obtain ⟨haborts, hfound⟩ := cnt_abortResidue (x := ctxOf s k c) (rule := w.rule) (code := a.code)
  have hexp : ¬ (a.code = cExplicit ∧ bits w.hdrB 39 38 = 1) := fun h => absurd (hres.symm.trans h.1) (by decide)
  rw [abortRule_residue hres, bitAt_eq_getLsbD]
  dsimp only
  split
  next hretry =>
    constructor
    case ctx => exact ⟨_, _, _, abortResidue_ctx hc⟩
    case mem => rw [countCtx, mem_setCtx, mem_abortNoted]
    all_goals rw [abortResidue_ctx hc]
    case retry =>
      rw [abortedCtx, putBits_one_bit hrule]
      simp [hretry]
    case enable => rw [if_neg hexp]; rfl
    case aborts => exact haborts
    case found => rw [if_pos hres]; exact hfound
  next hfirst =>
    constructor
    case ctx =>
      rw [setRetry, abortResidue_ctx hc]
      exact ⟨_, _, _, ctxOf_setCtx_same _ _ _ _ hc⟩
    case mem => rw [setRetry, countCtx, mem_setCtx, mem_setCtx, mem_abortNoted]
    all_goals rw [setRetry, abortResidue_ctx hc, ctxOf_setCtx_same _ _ _ _ hc]
    case retry =>
      dsimp only
      rw [putBits_one_bit hrule]
      simp [hres, hfirst, ofBool]
    case enable => rw [if_neg hexp]; rfl
    case aborts => exact haborts
    case found => rw [if_pos hres]; exact hfound

theorem abortRule_leaves (hc : c < 4) (hrule : w.rule < 64) : AbortLeaves s k c w a (abortRule s k c w a).1 := by
  by_cases hexp : a.code = cExplicit
  · have hres : a.code ≠ cResidue := by rw [hexp]; decide
    rw [abortRule_explicit hexp]
    dsimp only
    split
    next hdis => exact abortDisabled_leaves hc hrule hexp hdis
    next hdis => exact abortNoted_leaves hc hrule hres fun h => hdis h.2
  · by_cases hres : a.code = cResidue
    · exact abortResidue_leaves hc hrule hres
    · have hleaves := abortNoted_leaves (s := s) (k := k) hc hrule hres fun h => hexp h.1
      by_cases hecc : a.code = cEccUe
      · rw [abortRule_error hecc]
        exact ⟨hleaves.ctx, hleaves.mem, hleaves.retry, hleaves.enable, hleaves.aborts, hleaves.found⟩
      · rwa [abortRule_other hexp hres hecc]

/-- The trap or machine check that an abort raises (R74 to R76). -/
theorem abortRule_causes : (abortRule s k c w a).2 =
    if a.code = cExplicit then (if bits w.hdrB 39 38 = 2 then [abortCause w a 0] else [])
    else if a.code = cResidue then (if (ctxOf s k c).rm.getLsbD w.rule then [abortCause w a 2] else [])
    else if a.code = cEccUe ∨ a.code = cQueueFull then [] else [abortCause w a 0] := by
  by_cases hexp : a.code = cExplicit
  · rw [if_pos hexp, abortRule_explicit hexp]
  · rw [if_neg hexp]
    by_cases hres : a.code = cResidue
    · rw [if_pos hres, abortRule_residue hres, bitAt_eq_getLsbD]
      dsimp only
      split <;> rfl
    · rw [if_neg hres]
      by_cases hecc : a.code = cEccUe
      · rw [if_pos (.inl hecc), abortRule_error hecc]
      · rw [abortRule_other hexp hres hecc]
        simp only [hecc, false_or]
theorem abortRule_rollback (h : a.code = cEccUe) : (regionOf (abortRule s k c w a).1 (ctxOf s k c).region).error = some cEccUe := by
  rw [abortRule_error h]
  exact congrArg Region.error (tget_tput_same ..)

end

theorem abortOutcomes : AbortOutcomes := by
  intro s k c w a hc hrule
  obtain ⟨⟨en, rm, cnt, hy⟩, hmem, hretry, henable, haborts, hfound⟩ := abortRule_leaves (s := s) (k := k) (a := a) hc hrule
  have hcauses := abortRule_causes (s := s) (k := k) (c := c) (w := w) (a := a)
  rw [bits_eq_field w.hdrB 39 38 2 rfl] at henable hcauses
  rw [hy] at hretry henable haborts hfound
  dsimp only
  rw [hy]
  refine ⟨?_, by rw [haborts, toNat_satAdd], rfl, rfl, rfl, rfl, rfl, rfl, rfl, rfl, rfl, rfl, rfl, rfl, hmem, hretry, henable, ?_, hcauses,
    abortRule_rollback⟩
  · exact (congrArg BitVec.toNat (vget_vset_same _ _ _ _ hrule)).trans toNat_abortRecord
  · rw [hfound, apply_ite BitVec.toNat, toNat_satAdd]
    rfl

end Sys2Proof.Machine
end

