-- ==== Sys2Proof/Proofs/TrapRecords.lean ====
section
/-! PROOF. Taking a trap and returning from one: sending its record changes neither the contexts of its core nor the record ring
(07_core_failures, R219 to R221, R227). -/
namespace Sys2Proof.Machine
open Sys2Proof.Claims

/-- A core whose contexts, record ring and SEQ are those of another. -/
structure KeepsRecords (o p : Core) : Prop where
  ctx : p.ctx = o.ctx
  ring : p.ring = o.ring
  seq : p.seq = o.seq

section
variable {s t : State} {k : Nat}

theorem keepsRecords_trans {o p q : Core} (h : KeepsRecords o p) (h' : KeepsRecords p q) : KeepsRecords o q :=
  ⟨h'.ctx.trans h.ctx, h'.ring.trans h.ring, h'.seq.trans h.seq⟩
theorem keepsRecords_of_core (h : t.core = s.core) : KeepsRecords (coreOf s k) (coreOf t k) := by
  rw [coreOf, coreOf, h]
  exact ⟨rfl, rfl, rfl⟩

/-! ## Sending a record -/

theorem setMapEntry_core {x y : Nat} {e : W64} : (setMapEntry s x y e).core = s.core := by
  unfold setMapEntry
  split
  · rfl
  · split
    · rfl
    · split <;> rfl
theorem noteSuspect_core {on : Bool} : (noteSuspect s k on).core = s.core := by
  unfold noteSuspect
  generalize clusterNames (clusterKey k) = names
  induction names generalizing s with
  | nil => rfl
  | cons p names ih =>
    rw [List.foldl_cons, ih]
    split
    · split
      · exact setMapEntry_core
      · rfl
    · rfl
theorem suspectOf_keepsRecords : KeepsRecords (coreOf s k) (coreOf (suspectOf s k) k) := by
  refine keepsRecords_trans ?_ (keepsRecords_of_core noteSuspect_core)
  rw [coreOf_setCore_same]
  exact ⟨rfl, rfl, rfl⟩
theorem hostEvent_core {kind tag where_ : Nat} {r : Record} : (hostEvent s kind tag where_ r).core = s.core := by
  have hstart (u : State) : (startHeld u).core = u.core := by
    unfold startHeld
    split <;> rfl
  have hcount : (countHeld s).core = s.core := by
    unfold countHeld
    split <;> rfl
  simp only [hostEvent, schedule, hstart, hcount]
/-- The cores with those of a cluster halted (R254). -/
def haltedCores (cl : Nat) (cores : SMap Core) : SMap Core :=
  cores.map fun e => if clusterKey e.1 == cl then (e.1, { e.2 with halted := true }) else e
theorem haltCluster_core {cl : Nat} : (haltCluster s cl).core = haltedCores cl s.core := rfl
theorem tget_haltedCores {cl : Nat} {cores : SMap Core} {d : Core} :
    KeepsRecords (tget cores d k) (tget (haltedCores cl cores) d k) := by
  induction cores with
  | nil => exact ⟨rfl, rfl, rfl⟩
  | cons e cores ih =>
    rw [haltedCores, List.map_cons, ← haltedCores]
    by_cases hcl : (clusterKey e.1 == cl) = true
    · rw [if_pos hcl, tget, tget]
      split
      · exact ⟨rfl, rfl, rfl⟩
      · exact ih
    · rw [if_neg hcl, tget, tget]
      split
      · exact ⟨rfl, rfl, rfl⟩
      · exact ih
theorem haltCluster_keepsRecords {cl : Nat} : KeepsRecords (coreOf s k) (coreOf (haltCluster s cl) k) := by
  rw [coreOf, coreOf, haltCluster_core]
  exact tget_haltedCores
theorem sendFlit_keepsRecords {cls dst : Nat} {body : Payload} : KeepsRecords (coreOf s k) (coreOf (sendFlit s cls k dst body) k) := by
  have hcore : (sendFlit s cls k dst body).core = (countFlit s cls k dst).core := rfl
  refine keepsRecords_trans ?_ (keepsRecords_of_core hcore)
  rw [countFlit, coreOf_setCore_same]
  exact ⟨rfl, rfl, rfl⟩
theorem sendRecord_keepsRecords {entry from_ : Nat} {r : Record} {fm : Bool} :
    KeepsRecords (coreOf s k) (coreOf (sendRecord s k entry r from_ fm) k) := by
  have hhalt {cl kind tag where_ : Nat} :
      KeepsRecords (coreOf s k) (coreOf (hostEvent (haltCluster s cl) kind tag where_ r) k) :=
    keepsRecords_trans haltCluster_keepsRecords (keepsRecords_of_core hostEvent_core)
  unfold sendRecord
  dsimp only
  split
  · split
    · exact sendFlit_keepsRecords
    · exact hhalt
  · exact hhalt

/-! ## Taking a trap -/

/-- A context that takes a trap (R219). -/
def trapped (x : Ctx) (fm : Bool) (r : Record) : Ctx :=
  let x := { x with cnt := vset x.cnt 11 (satAdd (vget x.cnt 11 0) 1) }
  if x.trap.isNone && !x.ended then { x with trap := some r, trapFm := fm } else x
/-- The state with a trap's record kept and sent. -/
def trapSent (s : State) (k c : Nat) (fm : Bool) (q : Cause) (mult : Bool) : State :=
  let r := recordOf s k c q mult false
  let s := keepRecord s k r
  let s := if q.kind == 2 then suspectOf s k else s
  let (entry, from_) := match chainPosition s k c with | some n => (n + 1, n) | none => (0, 255)
  sendRecord s k entry r from_ fm

variable {c : Nat} {q : Cause} {fm mult : Bool}

theorem trapSent_keepsRecords :
    KeepsRecords (coreOf (keepRecord s k (recordOf s k c q mult false)) k) (coreOf (trapSent s k c fm q mult) k) := by
  refine keepsRecords_trans ?_ sendRecord_keepsRecords
  split
  · exact suspectOf_keepsRecords
  · exact ⟨rfl, rfl, rfl⟩
theorem coreOf_keepRecord {r : Record} :
    coreOf (keepRecord s k r) k = { coreOf s k with ring := (r :: (coreOf s k).ring).take 4, seq := (coreOf s k).seq + 1 } :=
  coreOf_setCore_same ..
theorem takeTrap_eq : takeTrap s k c fm q mult =
    setCtx (trapSent s k c fm q mult) k c (trapped (ctxOf (trapSent s k c fm q mult) k c) fm (recordOf s k c q mult false)) := rfl
theorem ctxOf_trapSent : ctxOf (trapSent s k c fm q mult) k c = ctxOf s k c := by
  rw [ctxOf, trapSent_keepsRecords.ctx, coreOf_keepRecord]
  rfl
theorem ctxOf_takeTrap (hc : c < 4) : ctxOf (takeTrap s k c fm q mult) k c = trapped (ctxOf s k c) fm (recordOf s k c q mult false) := by
  rw [takeTrap_eq, ctxOf_setCtx_same _ _ _ _ hc, ctxOf_trapSent]
theorem takeTrap_ring : (coreOf (takeTrap s k c fm q mult) k).ring = (recordOf s k c q mult false :: (coreOf s k).ring).take 4 ∧
    (coreOf (takeTrap s k c fm q mult) k).seq = (coreOf s k).seq + 1 := by
  obtain ⟨-, hring, hseq⟩ := trapSent_keepsRecords (s := s) (k := k) (c := c) (q := q) (fm := fm) (mult := mult)
  rw [takeTrap_eq, coreOf_setCtx]
  exact ⟨hring.trans (by rw [coreOf_keepRecord]), hseq.trans (by rw [coreOf_keepRecord])⟩
/-- A context takes the trap unless one is outstanding or it has ended; it counts it all the same (R219). -/
theorem trapped_fields {x : Ctx} {r : Record} :
    (trapped x fm r).trap = (if x.trap = none ∧ x.ended = false then some r else x.trap) ∧
      (trapped x fm r).trapFm = (if x.trap = none ∧ x.ended = false then fm else x.trapFm) ∧
      vget (trapped x fm r).cnt 11 0 = satAdd (vget x.cnt 11 0) 1 := by
  have hcount : vget (vset x.cnt 11 (satAdd (vget x.cnt 11 0) 1)) 11 0 = satAdd (vget x.cnt 11 0) 1 := vget_vset_same _ _ _ _ (by omega)
  by_cases h : x.trap = none ∧ x.ended = false
  · have htaken : (x.trap.isNone && !x.ended) = true := by simp [h.1, h.2]
    simp only [trapped, if_pos h, htaken, hcount, if_true, and_self]
  · have hleft : ¬ (x.trap.isNone && !x.ended) = true := by simpa using h
    simp only [trapped, if_neg h, if_neg hleft, hcount, and_self]
theorem causeWord_eq (hc : c < 4) (hkind : q.kind < 4) (hrule : q.rule < 64) (hword : q.word < 32) : causeWord q c mult false =
    word (q.code.toNat * 2 ^ 56 + q.kind * 2 ^ 54 + (if mult then 2 ^ 53 else 0) + c * 2 ^ 50 + q.rule * 2 ^ 44 +
      q.word * 2 ^ 39 + q.opcode.toNat * 2 ^ 31 + q.unit.toNat * 2 ^ 28 + q.lane.toNat * 2 ^ 24 + q.exp.toNat * 2 ^ 21 +
      q.obs.toNat * 2 ^ 18) := by
  rw [causeWord, word, Nat.mod_eq_of_lt hc, Nat.mod_eq_of_lt hkind, Nat.mod_eq_of_lt hrule, Nat.mod_eq_of_lt hword]
  have hmult : ofBool mult * 2 ^ 53 = if mult then 2 ^ 53 else 0 := by cases mult <;> rfl
  refine congrArg (BitVec.ofNat 64) ?_
  rw [hmult, if_neg (show ¬ false = true by decide), show ofBool false = 0 from rfl]
  generalize (if mult then 2 ^ 53 else 0) = m
  ring

/-! ## Resume messages -/

variable {r : Record} {seq action : Nat}

/-- A resume message of the trap outstanding: RESUME, DISABLE, END or HOLD (R227). -/
theorem applyTret_acts (htrap : (ctxOf s k c).trap = some r) (hseq : recordSeq r = seq) (hres : (ctxOf s k c).resident = true) :
    (action = 0 → applyTret s k c seq action = setCtx s k c { ctxOf s k c with trap := none }) ∧
      (action = 1 → applyTret s k c seq action =
        setCtx s k c { ctxOf s k c with trap := none, en := under (ctxOf s k c).en (one (bits r.w0 49 44)) 0 }) ∧
      (action = 2 → applyTret s k c seq action = setCtx s k c { ctxOf s k c with trap := none, ended := true }) ∧
      (action = 3 → applyTret s k c seq action = hostEvent s 1 0 (ctxOf s k c).region r) := by
  rw [← clear_eq_under, ← shiftLeft_eq_one]
  simp only [applyTret, htrap, hseq, hres, beq_self_eq_true, Bool.and_self, if_true]
  refine ⟨?_, ?_, ?_, ?_⟩
  all_goals
    rintro rfl
    rfl
theorem ctxOf_hostEvent {kind tag where_ : Nat} : ctxOf (hostEvent s kind tag where_ r) k c = ctxOf s k c := by
  rw [ctxOf, coreOf, hostEvent_core]
  rfl
/-- A resume message that finds no trap of its SEQ in place is counted and does nothing else (R227). -/
theorem applyTret_stale (h : ∀ r, (ctxOf s k c).trap = some r → recordSeq r ≠ seq ∨ (ctxOf s k c).resident = false) :
    applyTret s k c seq action =
      setCore s k { coreOf s k with cnt := vset (coreOf s k).cnt 7 (satAdd (vget (coreOf s k).cnt 7 0) 1) } := by
  cases htrap : (ctxOf s k c).trap with
  | none => simp only [applyTret, htrap]
  | some r =>
    have hstale : ¬ (recordSeq r == seq && (ctxOf s k c).resident) = true := by
      obtain hne | hgone := h r htrap
      · simp [hne]
      · simp [hgone]
    simp only [applyTret, htrap, if_neg hstale]

end

theorem trapsAndReturns : TrapsAndReturns := by
  refine ⟨fun s k c q fm mult hc hkind hrule hword => ?_, fun s k c seq action hc haction => ?_⟩
  · obtain ⟨hring, hseq⟩ := takeTrap_ring (s := s) (k := k) (c := c) (q := q) (fm := fm) (mult := mult)
    obtain ⟨htrap, hfm, hcount⟩ := trapped_fields (fm := fm) (x := ctxOf s k c) (r := recordOf s k c q mult false)
    dsimp only
    rw [ctxOf_takeTrap hc]
    exact ⟨causeWord_eq hc hkind hrule hword, rfl, rfl, rfl, hring, hseq, htrap, hfm, by rw [hcount, toNat_satAdd]⟩
  · dsimp only
    refine ⟨fun r htrap hseq hres => ?_, fun hstale => ?_⟩
    · rw [← bits_eq_field r.w1 28 17 12 rfl] at hseq
      obtain ⟨hresume, hdisable, hend, hhold⟩ := applyTret_acts (action := action) htrap hseq hres
      rw [bits_eq_field r.w0 49 44 6 rfl] at hdisable
      exact ⟨hresume, hdisable, hend, fun h => by rw [hhold h, ctxOf_hostEvent]⟩
    · simp only [← bits_eq_field _ 28 17 12 rfl] at hstale
      refine ⟨_, applyTret_stale hstale, ?_, fun j hj hother => vget_vset_other _ _ _ _ _ hother.symm⟩
      rw [vget_vset_same _ _ _ _ (by omega), toNat_satAdd]

/-- Settles O33: the outcome of each abort code, and the trap's record and return. -/
theorem abortsTrapsAndReturns : Obligations.AbortsTrapsAndReturns := ⟨abortOutcomes, trapsAndReturns⟩

end Sys2Proof.Machine
end

