-- ==== Sys2Proof/Proofs/LostToken.lean ====
section
/-! PROOF. A spilled token whose record in the save area's memory overwrites the core map's entry of its own logical core (08_cluster,
R241; 07_core_failures, R215, R217; 12_package_launch, R325): the core map's state is unchanged, but its memory image is what places
the context from then on, and the context found there has an empty ring. -/
namespace Sys2Proof.Machine
open Sys2Proof.Claims

/-- A token whose low bytes, as its ring entry holds them, are the core map's entry of physical core 1. -/
def lostToken : Token := { sb := 0, pay := BitVec.ofNat 512 (2 ^ 63 + 2 ^ 41), src := none }
/-- A context of logical address 1 with a given inbound ring. -/
def lostCtx (ring : List (Nat × Token)) : Ctx := { Ctx.reset with resident := true, lc := 1, ring := ring }
/-- The evicted core 0: its save area's ring has its second entry at the core map's address. -/
def lostSave : Core :=
  { Core.reset 0 with save := vset (Core.reset 0).save 0 (BitVec.ofNat 64 (2 ^ 63 + 2 ^ 58 + (2 ^ 24 - 0xC048))) }
/-- Core 0 has held a token for its evicted context for 4,096 ticks; core 1 holds a context of the same number; the core map lies in
HBM, with an entry that gives core 0. -/
def lostState : State :=
  { State.reset with
    now := 4096
    core := [(0, { Core.reset 0 with hold := [(0, ⟨1, lostToken, 0, 0⟩)] }),
      (1, { Core.reset 1 with ctx := vset (Core.reset 1).ctx 0 (lostCtx []) })]
    region := [(0, { Region.reset with saved := [⟨0, [(0, lostCtx [(0, lostToken)])], lostSave⟩] })]
    hbm := [(2 ^ 24 + 7, 0x80)]
    pkg := { Pkg.reset with mapAt := some 0, cmbase := BitVec.ofNat _ (2 ^ 24) } }

/-- What a step leaves of a context's inbound ring, by its length. -/
def ringLength (s : State) (addr : Nat) : Option Nat := (anyCtx s addr).map (fun x => x.ring.length)
/-- An outcome that leaves the core map's state as it was, and a ring of a single entry. -/
def leavesOneEntry : Outcome → Bool
  | .next t => t.pkg.coreMap == lostState.pkg.coreMap && ringLength t 1 == some 1
  | _ => false

theorem lostState_held : slotOf lostState 0 1 = none ∧ coreOfAddr lostState 1 = some 0 ∧
    4096 ≤ clusterCycles lostState (clusterKey 0) - 0 := by
  decide +kernel
theorem lostState_ring : ringLength lostState 1 = some 1 := by decide +kernel
theorem lostState_spills : leavesOneEntry (exec .tokenSpill lostState) = true := by decide +kernel
theorem lostState_saved : ∀ r ∈ lostState.region, ∀ c ∈ r.2.saved, ∀ p ∈ c.ctxs, ctxAddr p.2 = 1 → p.2.ring.length < 225 := by
  decide +kernel

/-- Refutes O40: the spilled token's ring entry moves the context, in the map's memory, to a core whose context has an empty ring. -/
theorem not_tokensAndRepliesArrive : ¬ Obligations.TokensAndRepliesArrive := by
  intro h
  obtain ⟨-, hspill, -⟩ := h
  obtain ⟨-, -, -, hheld⟩ := hspill lostState 0 0 0 ⟨1, lostToken, 0, 0⟩ rfl rfl (by decide) rfl
  obtain ⟨hslot, hcore, htime⟩ := lostState_held
  obtain ⟨hfits, -⟩ := hheld hslot hcore htime
  obtain ⟨x, hx, hlen⟩ := Option.map_eq_some_iff.mp lostState_ring
  obtain ⟨t, ht, -, -, -, -, -, hring⟩ := hfits x hx lostState_saved
  have hleaves := lostState_spills
  rw [ht] at hleaves
  simp only [leavesOneEntry, Bool.and_eq_true, beq_iff_eq] at hleaves
  obtain ⟨hmap, hone⟩ := hleaves
  obtain ⟨y, hy, hyring, -⟩ := hring hmap
  rw [ringLength, hy, Option.map_some, hyring, List.length_append, hlen] at hone
  simp at hone

end Sys2Proof.Machine
end

