-- ==== Sys2Proof/Proofs/FloatSpecials.lean ====
section
/-! PROOF. NaNs, zeros and invalid operations of floating arithmetic, and the special results of the table operations (03_core_numbers,
R103, R104; 04_core_compute, R126, R127). -/
namespace Sys2Proof.Machine
open Sys2Proof.Claims

section
variable {f : Nat} {m : BitVec 2} {x y z : FNum} {n p : Bool} {k l : Nat} {e g : Int}

/-! ## Values at a common exponent -/

theorem nvIf_or (b c : Bool) : nvIf (b || c) = if b = true ∨ c = true then fNV else 0 := by
  simp only [nvIf, Bool.or_eq_true]
/-- A magnitude written at a lower exponent stands for the same value. -/
theorem signedMag_aligned (h : g ≤ e) : (signedMag n (k * 2 ^ (e - g).toNat) : ℚ) * 2 ^ g = value (.num n k e) := by
  have hpow : (2 : ℚ) ^ (e - g).toNat * 2 ^ g = 2 ^ e := by
    rw [← zpow_natCast, ← zpow_add₀ two_ne_zero, Int.toNat_of_nonneg (by omega), Int.sub_add_cancel]
  have hmag : (k * 2 ^ (e - g).toNat : ℚ) * 2 ^ g = k * 2 ^ e := by rw [mul_assoc, hpow]
  cases n <;> simp [signedMag, value, hmag]

/-! ## Sums, products and the order of values -/

theorem fpSum_nan (h : x.isNaN = true ∨ y.isNaN = true) : fpSum m [x, y] = (.nan false false, nvIf (x.signals || y.signals)) := by
  have hany : [x, y].any FNum.isNaN = true := by simpa using h
  simp only [fpSum, hany, if_true, List.any_cons, List.any_nil, Bool.or_false]
theorem fpProd_nan (h : x.isNaN = true ∨ y.isNaN = true) : fpProd x y = (.nan false false, nvIf (x.signals || y.signals)) := by
  cases x with
  | nan => rfl
  | inf | num =>
    cases y with
    | nan => rfl
    | inf | num => simp [FNum.isNaN] at h
@[simp] theorem isNaN_negate : y.negate.isNaN = y.isNaN := by cases y <;> rfl
@[simp] theorem signals_negate : y.negate.signals = y.signals := by cases y <;> rfl
theorem fpSum_opposite_infinities : fpSum m [.inf n, .inf !n] = (.nan false false, fNV) := by cases n <;> rfl
/-- The product of an infinity and a zero, either way round. -/
theorem fpProd_infinity_zero (h : (x = .inf n ∧ y = .num p 0 g) ∨ (x = .num p 0 g ∧ y = .inf n)) :
    fpProd x y = (.nan false false, fNV) := by
  rcases h with ⟨rfl, rfl⟩ | ⟨rfl, rfl⟩ <;> rfl
/-- An invalid product makes a fused sum invalid, whatever the addend. -/
theorem fpFused_invalid (h : fpProd x y = (.nan false false, fNV)) : fpFused m [(x, y)] z = (.nan false false, fNV) := by
  have hsum : fpSum m [z, .nan false false] = (.nan false false, nvIf (z.signals || false)) := fpSum_nan (.inr rfl)
  simp only [fpFused, List.map_cons, List.map_nil, List.foldl_cons, List.foldl_nil, h, hsum]
  cases z.signals <;> rfl
/-- The exact sum of two numbers is zero as their values' sum is. -/
theorem sumTerms_eq_zero : (sumTerms [(n, k, e), (p, l, g)]).1 = 0 ↔ value (.num n k e) + value (.num p l g) = 0 := by
  have hsum : ((sumTerms [(n, k, e), (p, l, g)]).1 : ℚ) * 2 ^ min e g = value (.num n k e) + value (.num p l g) := by
    rw [← signedMag_aligned (min_le_left e g), ← signedMag_aligned (min_le_right e g)]
    simp [sumTerms, add_mul]
  rw [← hsum, mul_eq_zero, or_iff_left (zpow_ne_zero _ two_ne_zero), Int.cast_eq_zero]
theorem fpSum_zero (h : value (.num n k e) + value (.num p l g) = 0) : fpSum m [.num n k e, .num p l g] =
    (.num (m == 2 || (n && k == 0) && (p && l == 0)) 0 0, 0) := by
  have hzero := sumTerms_eq_zero.mpr h
  simp [fpSum, FNum.isNaN, hzero]
theorem fpOrder_of_lt (h : value (.num n k e) < value (.num p l g)) :
    fpOrder (.num n k e) (.num p l g) = -1 ∧ fpOrder (.num p l g) (.num n k e) = 1 := by
  rw [← signedMag_aligned (min_le_left e g), ← signedMag_aligned (min_le_right e g)] at h
  have hlt := Int.cast_lt.mp (lt_of_mul_lt_mul_right h (by positivity))
  refine ⟨Int.sign_eq_neg_one_of_neg (by omega), Int.sign_eq_one_of_pos ?_⟩
  rw [min_comm g e]
  omega

/-! ## Results as they are delivered -/

@[simp] theorem fpDeliver_nan (c : Flags) : fpDeliver f m (.nan n p, c) = (fpNaN f, c) := rfl
@[simp] theorem fpDeliver_zero : fpDeliver f m (.num n 0 e, 0) = (fpSign f n, 0) := by
  simp [fpDeliver, fpRound]
theorem fpMinMax_nan {a b : Nat} {big : Bool} (h : (fpDecode f false a).isNaN = true ∨ (fpDecode f false b).isNaN = true) :
    fpMinMax f big a b = (fpNaN f, nvIf ((fpDecode f false a).signals || (fpDecode f false b).signals)) :=
  if_pos (by simpa using h)
/-- Of two codes of numbers with a smaller and a larger value, the first or the second is delivered, in either order. -/
theorem fpMinMax_of_lt {a b : Nat} {big : Bool} (ha : finite (fpDecode f false a)) (hb : finite (fpDecode f false b))
    (h : value (fpDecode f false a) < value (fpDecode f false b)) :
    fpMinMax f big a b = (if big then b else a, 0) ∧ fpMinMax f big b a = (if big then b else a, 0) := by
  cases hx : fpDecode f false a with
  | nan | inf => exact absurd ha (by rw [hx]; exact id)
  | num n k e =>
    cases hy : fpDecode f false b with
    | nan | inf => exact absurd hb (by rw [hy]; exact id)
    | num p l g =>
      rw [hx, hy] at h
      obtain ⟨hlt, hgt⟩ := fpOrder_of_lt h
      cases big <;> simp [fpMinMax, hx, hy, FNum.isNaN, hlt, hgt]
/-- Minimum and maximum of +0 and -0, in each format with NaN codes. -/
theorem fpMinMax_zeros (h1 : 1 ≤ f) (h4 : f ≤ 4) : fpMinMax f false 0 (2 ^ (fpWidth f - 1)) = (2 ^ (fpWidth f - 1), 0) ∧
    fpMinMax f true 0 (2 ^ (fpWidth f - 1)) = (0, 0) := by
  interval_cases f <;> decide +kernel
theorem fpNaN_eq_canonicalNaN (h1 : 1 ≤ f) (h4 : f ≤ 4) : fpNaN f = canonicalNaN f := by
  interval_cases f <;> rfl
end

/-- A zero magnitude is that of -0 as its sign says. -/
theorem zero_negative : (n && k == 0) = true ↔ ∃ i, FNum.num n k e = .num true 0 i := by
  cases n <;> simp

theorem nansAndZerosOfArithmetic : NaNsAndZerosOfArithmetic := by
  intro f m a b c h1 h4 x y z invalid
  have hcanon := fpNaN_eq_canonicalNaN h1 h4
  have hinvalid : nvIf (x.signals || y.signals) = invalid := nvIf_or _ _
  have hadd : fpAdd f m a b = fpDeliver f m (fpSum m [x, y]) := rfl
  have hsub : fpSub f m a b = fpDeliver f m (fpSum m [x, y.negate]) := rfl
  have hmul : fpMul f m a b = fpDeliver f m (fpProd x y) := rfl
  have hfma : fpFma f m a b c = fpDeliver f m (fpFused m [(x, y)] z) := rfl
  refine ⟨fun h => ?_, fun n hx hy => ?_, fun n hx hy => ?_, fun n k g h => ?_, fun n hx hy k hz hk => ?_, fun hx hy hzero => ?_,
    fun _ _ hx hy hlt => ?_, fpMinMax_zeros h1 h4⟩
  · have hneg : x.isNaN = true ∨ y.negate.isNaN = true := by rwa [isNaN_negate]
    rw [hadd, hsub, hmul, fpSum_nan h, fpSum_nan hneg, fpProd_nan h, fpMinMax_nan h, fpMinMax_nan h, signals_negate,
      fpDeliver_nan, hcanon, hinvalid]
    exact ⟨rfl, rfl, rfl, rfl, rfl⟩
  · rw [hadd, hx, hy, fpSum_opposite_infinities, fpDeliver_nan, hcanon]
  · rw [hsub, hx, hy, FNum.negate, fpSum_opposite_infinities, fpDeliver_nan, hcanon]
  · have hprod : fpProd x y = (.nan false false, fNV) := fpProd_infinity_zero h
    rw [hmul, hfma, hprod, fpFused_invalid hprod, fpDeliver_nan, hcanon]
    exact ⟨rfl, rfl⟩
  · have hfused : fpFused m [(x, y)] z = (.nan false false, fNV) := by
      have hprod : fpProd x y = (.inf false, 0) := by
        rw [hx, hy]
        cases n <;> rfl
      simp only [fpFused, List.map_cons, List.map_nil, List.foldl_cons, List.foldl_nil, hprod, hz, hk]
      rw [← Bool.not_true, fpSum_opposite_infinities]
      rfl
    rw [hfma, hfused, fpDeliver_nan, hcanon]
  · cases hx' : x with
    | nan | inf => exact absurd hx (by rw [hx']; exact id)
    | num n k e =>
      cases hy' : y with
      | nan | inf => exact absurd hy (by rw [hy']; exact id)
      | num p l g =>
        rw [hx', hy'] at hzero
        rw [hadd, hx', hy', fpSum_zero hzero, fpDeliver_zero, fpSign]
        have hsign : (m == 2 || (n && k == 0) && (p && l == 0)) = true ↔
            m = 2 ∨ ∃ i j, FNum.num n k e = .num true 0 i ∧ FNum.num p l g = .num true 0 j := by
          rw [Bool.or_eq_true, Bool.and_eq_true, zero_negative (e := e), zero_negative (e := g), beq_iff_eq]
          simp only [exists_and_left, exists_and_right]
        exact ⟨fun h => by rw [if_pos (hsign.mpr h)], fun h => by rw [if_neg (hsign.not.mpr h)]⟩
  · obtain ⟨hmin, hmin'⟩ := fpMinMax_of_lt (big := false) hx hy hlt
    obtain ⟨hmax, hmax'⟩ := fpMinMax_of_lt (big := true) hx hy hlt
    exact ⟨hmin, hmax, hmin', hmax'⟩

/-! ## The table operations -/

/-- An exponent of an FP32 number is not below that of its subnormals. -/
theorem fpDecode_single_exp {a : Nat} {n : Bool} {k : Nat} {e : Int} (h : fpDecode 2 false a = .num n k e) : -149 ≤ e := by
  have hmin : fpMinExp 2 = -149 := by decide
  simp only [fpDecode] at h
  split at h
  · split at h <;> simp at h
  · simp at h
    split at h <;> simp at h <;> omega
/-- A value below -150 whose leading bit is below 2^8 is below -150 in fixed point too. -/
theorem fixed_of_value_lt {k : Nat} {e : Int} {n : Bool} (he : -149 ≤ e) (h : value (.num n k e) < -150) :
    n = true ∧ k ≠ 0 ∧ signedMag n (k * 2 ^ (e + 256).toNat) < -150 * 2 ^ fixBits := by
  have hfix : (signedMag n (k * 2 ^ (e + 256).toNat) : ℚ) * 2 ^ (-256 : ℤ) = value (.num n k e) := by
    rw [← sub_neg_eq_add, signedMag_aligned (by omega)]
  have hlt : (signedMag n (k * 2 ^ (e + 256).toNat) : ℚ) < -150 * 2 ^ 256 := by
    rw [← hfix] at h
    rw [zpow_neg, ← div_eq_mul_inv, div_lt_iff₀ (by positivity)] at h
    exact_mod_cast h
  have hint : signedMag n (k * 2 ^ (e + 256).toNat) < -150 * 2 ^ 256 := by exact_mod_cast hlt
  refine ⟨?_, ?_, hint⟩
  · cases n
    · have hpos : 0 ≤ signedMag false (k * 2 ^ (e + 256).toNat) := Int.natCast_nonneg _
      omega
    · rfl
  · rintro rfl
    cases n <;> simp [signedMag] at hint
theorem f32Exp2_underflows {m : BitVec 2} {a : Nat} (hfin : finite (fpDecode 2 false a)) (h : value (fpDecode 2 false a) < -150) :
    f32Exp2 m a = (0, fUF ||| fNX) := by
  cases hx : fpDecode 2 false a with
  | nan | inf => exact absurd hfin (by rw [hx]; exact id)
  | num n k e =>
    rw [hx] at h
    obtain ⟨rfl, hk, hlow⟩ := fixed_of_value_lt (fpDecode_single_exp hx) h
    simp only [f32Exp2, hx, hk, hlow, beq_iff_eq, if_true, if_false, Bool.not_true, Bool.and_false, Bool.false_eq_true, ite_self]

theorem tableOperationSpecials : TableOperationSpecials := by
  intro m a
  refine ⟨fun g h hx r hr => ?_, fun k e hx hk => ?_, f32Exp2_underflows, ?_⟩
  · have hnan : r = (fpNaN 2, nvIf h) := by
      simp only [f32Rcp, f32Rsq, f32Sqrt, f32Exp2, f32Log2, f32Tanh, hx, List.mem_cons, List.not_mem_nil, or_false, or_self] at hr
      exact hr
    exact hnan
  · have hk' : (k == 0) = false := by simpa using hk.ne'
    simp only [f32Rsq, f32Sqrt, f32Log2, hx, hk', if_true, Bool.false_eq_true, if_false]
    exact ⟨rfl, rfl, rfl⟩
  · refine ⟨rfl, rfl, rfl, rfl, rfl, rfl, rfl, rfl, rfl, rfl, rfl, rfl, rfl, rfl, rfl, rfl, rfl, rfl, rfl, rfl, rfl, rfl⟩

/-- Settles O7: special operands pass through sums, products and fused sums; zeros and orders through values at one exponent. -/
theorem floatSpecialCases : Obligations.FloatSpecialCases := ⟨nansAndZerosOfArithmetic, tableOperationSpecials⟩

end Sys2Proof.Machine
end

