-- ==== Sys2Proof/Proofs/Conversions.lean ====
section
/-! PROOF. The conversion instructions, and the conversions that R106 works out (03_core_numbers, R106; 04_core_compute, R133 to R138). -/
namespace Sys2Proof.Machine
open Sys2Proof.Claims

/-! ## Instructions of the vector pipe -/

section
variable {s : State} {opc : BitVec 8} {w w' : Work}

theorem runBody_gives_vector {words cost : Nat} {m : Body Unit} (hv : VectorHint s) (h : Gives m (start s opc) () w') :
    runBody s opc .vector words cost m = .next (bodyWent s (w'.advance words cost)) := runBody_ok hv h
theorem readV_disarmed {a : Opd} {keep : Bool} {r : V512 × Sideband} (hr : Gives (readV s a keep) w r w')
    (h : bits w.inj 7 0 = 0) : bits w'.inj 7 0 = 0 := by
  rw [readV_inj _ _ _ _ _ _ hr, h]
theorem raising_eq_flagged (f : Flags) : raising w f = flagged w f := by
  simp only [raising, flagged, beq_iff_eq]
theorem raiseFlags_gives (f : Flags) : Gives (raiseFlags f) w () (raising w f) := by
  rw [Gives, raiseFlags_run, raising_eq_flagged]
theorem laneFlags_eq_unionFlags (part : Nat → Bool) (f : Nat → Flags) : laneFlags part f = unionFlags 16 part f := by
  rw [laneFlags, unionFlags, List.foldl_filter]
/-- The checks of the lanes, then their flags, then the rest of the instruction. -/
theorem lanes_gives {part q : Nat → _} {f : Nat → Flags} {m : Body Unit} (hi : bits w.inj 7 0 = 0)
    (h : Gives m (raising w (unionFlags 16 part f)) () w') :
    Gives (do checkedLanes s part q; raiseFlags (laneFlags part f); m) w () w' := by
  rw [← laneFlags_eq_unionFlags] at h
  exact gives_bind (checkedLanes_disarmed hi part q) (gives_bind (raiseFlags_gives _) h)
theorem maskedLanes_eq_masked (d : Opd) (f : Nat → W32) : maskedLanes w d (bitAt w.lm) f = masked w d f := rfl

/-! ## Control fields and elements -/

theorem narrow8_eq (sat : Bool) (x : Nat) : narrow8 sat x =
    (if sat then ofSigned 8 (max (-128) (min 127 (toSigned 32 x))) else x % 256,
      if toSigned 32 x < -128 ∨ 127 < toSigned 32 x then fNV else 0) := by
  have hcut : toSigned 32 x % 2 ^ 8 = (x % 256 : Nat) := by
    unfold toSigned
    split <;> simp only [Int.ofNat_eq_natCast] <;> omega
  simp only [narrow8, nvIf, Bool.or_eq_true, Bool.and_eq_true, decide_eq_true_eq]
  congr 1
  cases sat with
  | false => simp
  | true =>
    by_cases hlow : toSigned 32 x < -128
    · simp [hlow, show toSigned 32 x < 0 by omega, show max (-128) (min 127 (toSigned 32 x)) = -128 by omega]
    · by_cases hhigh : 127 < toSigned 32 x
      · simp [hlow, hhigh, show ¬ toSigned 32 x < 0 by omega, show max (-128) (min 127 (toSigned 32 x)) = 127 by omega]
      · simp only [hlow, hhigh, or_self, and_false, if_false, if_true]
        rw [show max (-128) (min 127 (toSigned 32 x)) = toSigned 32 x by omega, ofSigned, hcut, Int.toNat_natCast]
theorem packElement_eq (i : BitVec 9) (x : Nat) : packElement s i x =
    if bits i 8 6 = 0 ∧ bits i 5 3 = 0 then
      (if i.getLsbD 0 then ofSigned 8 (max (-128) (min 127 (toSigned 32 x))) else x % 256,
        if toSigned 32 x < -128 ∨ 127 < toSigned 32 x then fNV else 0)
    else if bits i 5 3 = 0 then convert (bits i 8 6) 0 8 (bodyCtx s).fm (i.getLsbD 0) (i.extractLsb' 1 2) x
    else convert (bits i 8 6) (bits i 5 3) 32 (bodyCtx s).fm (i.getLsbD 0) (i.extractLsb' 1 2) x := by
  simp only [packElement, narrow8_eq, ctlSrc, ctlDst, ctlSat, ctlRnd, formatMode, bitAt_eq_getLsbD, Bool.and_eq_true, beq_iff_eq]
theorem unpackElement_eq (i : BitVec 9) (x : V512) (l : Nat) : unpackElement s i x l =
    let size := if bits i 8 6 = 0 then 8 else fpWidth (bits i 8 6)
    let raw := x.toNat / 2 ^ (size * l) % 2 ^ size
    if bits i 8 6 = 0 then
      (if bits i 5 3 = 0 then (ofSigned 32 (toSigned 8 raw), 0)
        else convert 0 (bits i 5 3) 32 (bodyCtx s).fm (i.getLsbD 0) (i.extractLsb' 1 2) (ofSigned 32 (toSigned 8 raw)))
    else convert (bits i 8 6) (bits i 5 3) 32 (bodyCtx s).fm (i.getLsbD 0) (i.extractLsb' 1 2) raw := by
  simp only [unpackElement, packWidth, ctlSrc, ctlDst, ctlSat, ctlRnd, formatMode, bitAt_eq_getLsbD, beq_iff_eq]
theorem foldl_add_eq_sum (l : List Nat) (f : Nat → Nat) : l.foldl (fun acc i => acc + f i) 0 = (l.map f).sum := by
  rw [List.sum_eq_foldl, List.foldl_map]
end

/-! ## The instructions (R133 to R138) -/

section
variable {s : State} {a b d e : Opd} {t : Tag}

theorem vecScale_next {opc : BitVec 8} {f : W64 → Nat → Nat × Flags} {x : V512} {y : W64} {sa sb : Sideband} {w1 w2 w3 : Work}
    (hi : Disarmed s) (hv : VectorHint s) (h1 : Gives (readV s a (keepIn t)) (start s opc) (x, sa) w1)
    (h2 : Gives (readS s b (keepIn t)) w1 (y, sb) w2)
    (h3 : Gives (resultV s d e ⟨t, 0, sa, sb⟩ (masked w2 d (fun l => lane32 (f y (lane x l).toNat).1)))
      (raising w2 (unionFlags 16 w2.lm.getLsbD (fun l => (f y (lane x l).toNat).2))) () w3) :
    vecScale s opc a b d e t f = .next (bodyWent s (w3.advance 1 1)) :=
  runBody_gives_vector hv (gives_bind h1 (gives_bind h2 (gives_bind gives_get
    (lanes_gives (readS_disarmed h2 (readV_disarmed h1 hi)) h3))))
theorem clamped_eq (y : W64) : (if y.toInt < -512 then -512 else if 511 < y.toInt then 511 else y.toInt) = max (-512) (min 511 y.toInt) := by
  split
  · omega
  · split <;> omega

theorem vcvt_next {i : BitVec 9} {x : V512} {sa : Sideband} {w1 w2 : Work} (hi : Disarmed s) (hv : VectorHint s)
    (h1 : Gives (readV s a false) (start s 0x81) (x, sa) w1)
    (h2 : let r := fun l => convert (ctlSrc i) (ctlDst i) 32 (bodyCtx s).fm (ctlSat i) (ctlRnd i) (lane x l).toNat
      Gives (resultV s d 31#5 ⟨0, 0, sa, 0⟩ (masked w1 d (fun l => lane32 (r l).1)))
        (raising w1 (unionFlags 16 w1.lm.getLsbD (fun l => (r l).2))) () w2) :
    execVcvt a d i s = .next (bodyWent s (w2.advance 1 1)) := by
  have hz : Gives (readV s 31#5 (keepIn 0)) w1 (0, 0) w1 := by
    rw [readV_zero rfl]
    exact gives_pure
  refine vecMasked_next hi hv h1 hz ?_
  rw [laneFlags_eq_unionFlags, ← raising_eq_flagged, maskedLanes_eq_masked]
  exact h2
theorem vpack_next {i : BitVec 9} {x : V512} {sa : Sideband} {w1 w2 : Work} (hi : Disarmed s) (hv : VectorHint s)
    (h1 : Gives (readV s a false) (start s 0x82) (x, sa) w1)
    (h2 : let r := fun l => packElement s i (lane x l).toNat
      Gives (resultV s d 31#5 ⟨0, 0, sa, 0⟩
          (BitVec.ofNat 512 ((List.range 16).map (fun l => (r l).1 * 2 ^ (packWidth (ctlDst i) * l))).sum))
        (raising w1 (unionFlags 16 allLanes (fun l => (r l).2))) () w2) :
    execVpack a d i s = .next (bodyWent s (w2.advance 1 1)) := by
  refine runBody_gives_vector hv (gives_bind h1 (lanes_gives (readV_disarmed h1 hi) ?_))
  rw [foldl_add_eq_sum]
  exact h2
theorem vunpk_next {i : BitVec 9} {x : V512} {sa : Sideband} {w1 w2 : Work} (hi : Disarmed s) (hv : VectorHint s)
    (h1 : Gives (readV s a false) (start s 0x83) (x, sa) w1)
    (h2 : Gives (resultV s d 31#5 ⟨0, 0, sa, 0⟩ (ofLanes (fun l => lane32 (unpackElement s i x l).1)))
        (raising w1 (unionFlags 16 allLanes (fun l => (unpackElement s i x l).2))) () w2) :
    execVunpk a d i s = .next (bodyWent s (w2.advance 1 1)) :=
  runBody_gives_vector hv (gives_bind h1 (lanes_gives (readV_disarmed h1 hi) h2))

theorem conversionResults : ConversionResults := by
  refine ⟨fun s a d i x sa w1 w2 hi h1 h2 => ?_, fun s a d i x sa w1 w2 hi hv h1 h2 => vcvt_next hi hv h1 h2,
    fun s a d i x sa w1 w2 hi hv h1 h2 => vpack_next hi hv h1 ?_, fun s a d i x sa w1 w2 hi hv h1 h2 => vunpk_next hi hv h1 ?_,
    fun s a b d e t x y sa sb w1 w2 w3 hi hv h1 h2 h3 => ?_,
    fun s a b d e t x y sa sb w1 w2 w3 hi hv h1 h2 h3 => ?_,
    fun s a b d e t x y sa sb w1 w2 w3 hi h1 h2 h3 => ?_⟩
  · exact runBody_gives (gives_bind h1 (gives_bind (gives_checkedScalar (readS_disarmed h1 hi) _)
      (gives_bind (raiseFlags_gives _) h2)))
  · simp only [packElement_eq, packWidth, ctlDst, beq_iff_eq]
    exact h2
  · simp only [unpackElement_eq]
    exact h2
  · change execVscale a b d e t s = _
    rw [execVscale]
    refine vecScale_next hi hv h1 h2 ?_
    simp only [clamped_eq]
    exact h3
  · change execVscalex a b d e t s = _
    rw [execVscalex]
    refine vecScale_next hi hv h1 h2 ?_
    simp only [bits_eq_field _ 19 0 20 rfl]
    exact h3
  · change execFclass a b d e t s = _
    rw [execFclass]
    refine scalar2_next hi h1 h2 ?_
    rw [bits_eq_field _ 2 0 3 rfl]
    exact h3
end

theorem workedConversions : WorkedConversions := by
  refine ⟨?_, ?_, ?_, ?_, ?_, ?_, ?_, ?_, ?_, ?_⟩ <;> decide +kernel

/-- Settles O8: each instruction is a run of its working copy; the conversions that R106 works out are computed. -/
theorem conversionsAndExamples : Obligations.ConversionsAndExamples := ⟨conversionResults, workedConversions⟩

end Sys2Proof.Machine
end

