-- ==== Sys2Proof/Proofs/ForeignFormat.lean ====
section
/-! PROOF. An MMAT whose A format names FP64: no command that passes issue has it (06_core_basin, R186), but the statement about matrix
commands leaves the format of an integer command free. Z zeroes its 1 x 1 part as an element of 64 bits, and with it the INT32 element
beside it (06_core_basin, R194). -/
namespace Sys2Proof.Machine
open Sys2Proof.Claims

/-- An MMAT of K = 4 over a 1 x 1 part of slot 0, with Z, its tiles zero and its A format FP64. -/
def foreignMmat : BasinCmd :=
  { cx := 0, opc := 0xE2, fm := false, op := .mma 2 0 1 0 4 1 1 true false 0 (.bytes [0]) (.bytes [0]), open_ := false, old := [] }
/-- A slot with INT32 element (0, 1) at 1. -/
def besideSlot : AccSlot := { AccSlot.reset with rows := vset AccSlot.reset.rows 0 (BitVec.ofNat 512 (2 ^ 32)), ty := .int32 }
/-- Core 0 with that slot, and the command granted. -/
def foreignState : State :=
  { State.reset with
    core := [(0, { Core.reset 0 with bq := [foreignMmat], granted := 1, acc := vset (Core.reset 0).acc 0 besideSlot })] }
/-- INT32 element (0, 1) of slot 0 of core 0 in the state that an outcome gives. -/
def besideAfter : Outcome → Option Nat
  | .next t => some (elem (slotAcc t 0 0) 32 0 1)
  | _ => none

theorem foreignState_tiles : tilesBad foreignState 0 0 2 1 0 4 1 1 (.bytes [0]) (.bytes [0]) = false := by decide +kernel
theorem foreignState_before : elem (slotAcc foreignState 0 0) 32 0 1 = 1 := by decide +kernel
theorem foreignState_after : besideAfter (exec .basinCommandComplete foreignState) = some 0 := by decide +kernel

/-- Refutes O43: an integer command with A format FP64 and Z zeroes an element outside its M x N part. -/
theorem not_basinCommandsAct : ¬ Obligations.BasinCommandsAct := by
  intro h
  obtain ⟨-, hcommand, -⟩ := h
  obtain ⟨-, -, -, -, -, hmma⟩ := hcommand foreignState 0 foreignMmat [] rfl rfl (by decide) (by decide) rfl
  obtain ⟨-, -, hinteger⟩ := hmma 2 0 1 0 4 1 1 true false 0 (.bytes [0]) (.bytes [0]) rfl
  obtain ⟨t, ht, -, -, -, helem, -⟩ :=
    hinteger (by decide) (.inl rfl) (by decide) (by decide) foreignState_tiles
  have hkept : elem (slotAcc t 0 0) 32 0 1 = 1 := by
    rw [helem 0 (by decide) 1 (by decide), if_neg (by decide)]
    exact foreignState_before
  have hzeroed := foreignState_after
  rw [ht, besideAfter, hkept] at hzeroed
  cases hzeroed

end Sys2Proof.Machine
end

