-- ==== Sys2Proof/Proofs/QueueSteps.lean ====
section
/-! PROOF. SUPPORT. What the shared operations of the queue engine leave of the state: a read of memory counts and no more, a step is put
off or begun once, a packet is changed in place (12_package_launch, R322 to R326). -/
namespace Sys2Proof.Machine
open Sys2Proof.Claims

/-- A fold of steps that each leave a view of a value leaves it. -/
theorem foldl_keeps {σ α β : Type} {f : σ → α → σ} {g : σ → β} (h : ∀ s a, g (f s a) = g s) (l : List α) (s : σ) :
    g (l.foldl f s) = g s := by
  induction l generalizing s with
  | nil => rfl
  | cons a l ih => exact (ih _).trans (h s a)

section
variable {s t : State}

/-! ## Reads -/

theorem countStack_ev {stack n k : Nat} : (countStack s stack n k).ev = s.ev := rfl
theorem countRead_ev {line : Nat} : (countRead s line).ev = s.ev := by
  unfold countRead
  dsimp only
  split <;> rfl
theorem countWalk_ev {w : Walk} {l : List Nat} : (countWalk s w l).ev = s.ev := by
  have hreads := foldl_keeps (g := State.ev) (fun t a => countRead_ev (s := t) (line := a / 128)) l s
  unfold countWalk
  dsimp only
  split <;> exact hreads
theorem queueTranslate_ev {q va : Nat} {write : Bool} : (queueTranslate s q va write).2.ev = s.ev := by
  unfold queueTranslate
  split
  · rfl
  · dsimp only
    split <;> exact countWalk_ev
theorem queuePlace_ev {q a : Nat} {virt write : Bool} : (queuePlace s q virt a write).2.ev = s.ev := by
  unfold queuePlace
  split
  · exact queueTranslate_ev
  · rfl
theorem countHome_ev {pa : W64} {n : Nat} : (countHome s pa n).ev = s.ev := by
  unfold countHome countTier2Read
  split
  · exact foldl_keeps (g := State.ev) (fun t a => countRead_ev) _ _
  · split
    · exact foldl_keeps (g := State.ev) (fun _ _ => countStack_ev) _ _
    · rfl
/-- A read keeps the operands of the step under way. -/
theorem queueRead_ev {q a n m : Nat} {virt : Bool} : (queueRead s q virt a n m).2.ev = s.ev := by
  induction m generalizing s a n with
  | zero => rfl
  | succ m ih =>
    have hplace : (queuePlace s q virt a false).2.ev = s.ev := queuePlace_ev
    unfold queueRead
    dsimp only
    split
    · rfl
    · split
      · next h => rwa [h] at hplace
      · next h => rwa [h] at hplace
      · next h => rwa [h] at hplace
      · next pa _ u h =>
        rw [h] at hplace
        have hrest := (ih (s := countHome u pa (pagePiece a n)) (a := a + pagePiece a n) (n := n - pagePiece a n)).trans
          (countHome_ev.trans hplace)
        split
        · exact hplace
        · split
          · exact hplace
          · split
            · next hgot => rwa [hgot] at hrest
            · exact hrest
theorem launchImage_ev {q : Nat} {p : Packet} : (launchImage s q p).2.ev = s.ev := by
  unfold launchImage
  dsimp only
  split
  · exact queueRead_ev
  · rfl

/-! ## Steps begun -/

section
variable {due due' : Nat} {op op' : Instr} {args args' : EvArgs} {x y z : Nat}

theorem later_schedule : Later (schedule s due op args) op args.x args.y due :=
  ⟨_, List.mem_append_right _ (List.mem_singleton_self _), rfl, rfl, rfl, rfl⟩
theorem laterOf_schedule (h : LaterOf s op x y z) : LaterOf (schedule s due op' args) op x y z := by
  obtain ⟨p, hp, hargs⟩ := h
  exact ⟨p, List.mem_append_left _ hp, hargs⟩
theorem scheduleOnce_eq : scheduleOnce s due op args = { s with agenda := (scheduleOnce s due op args).agenda } := by
  unfold scheduleOnce
  split <;> rfl
theorem laterOf_scheduleOnce : LaterOf (scheduleOnce s due op args) op args.x args.y args.z := by
  unfold scheduleOnce
  split
  · next hany =>
    obtain ⟨p, hp, hsame⟩ := List.any_eq_true.mp hany
    simp only [Bool.and_eq_true, beq_iff_eq] at hsame
    obtain ⟨rfl, rfl⟩ := hsame
    exact ⟨p, hp, rfl, rfl, rfl, rfl⟩
  · exact ⟨_, List.mem_append_right _ (List.mem_singleton_self _), rfl, rfl, rfl, rfl⟩
theorem pokeQueues_eq : pokeQueues s = { s with agenda := (pokeQueues s).agenda } := scheduleOnce_eq
theorem laterOf_pokeQueues : LaterOf (pokeQueues s) .packetDispatch 0 0 0 := laterOf_scheduleOnce
theorem pokeQueues_queue : (pokeQueues s).queue = s.queue := by rw [pokeQueues_eq]
theorem pokeQueues_region : (pokeQueues s).region = s.region := by rw [pokeQueues_eq]
theorem pokeQueues_core : (pokeQueues s).core = s.core := by rw [pokeQueues_eq]
theorem completing_complete {q idx st code : Nat} : Completing s (complete s q idx st code) q idx st code :=
  ⟨_, List.mem_append_right _ (List.mem_singleton_self _), rfl, rfl, rfl, rfl, rfl⟩

end

/-! ## Memory and packets -/

theorem sameMemory_of (hhbm : t.hbm = s.hbm) (htier : t.tier2 = s.tier2) (hhost : t.host = s.host) (hcore : t.core = s.core)
    (hdie : t.die = s.die) : SameMemory s t := by
  refine ⟨hhbm, htier, hhost, fun k => ?_, fun d => ?_⟩
  · simp only [coreOf, hcore, and_self]
  · simp only [dieOf, hdie]
theorem pktField_eq_inPacket (p : BitVec 1024) (lo n : Nat) : pktField p lo n = inPacket p lo n := by
  rw [pktField, inPacket, Nat.shiftRight_eq_div_pow, pow_mul, pow_mul]
  norm_num
theorem queueOf_modPacket {q idx : Nat} {f : Packet → Packet} : queueOf (modPacket s q idx f) q = touched (queueOf s q) idx f := by
  simp only [modPacket, queueOf_setQueue_same, touched, Bool.and_eq_true, beq_iff_eq, Option.isNone_iff_eq_none]

section
variable {q idx st code : Nat}

theorem settleHead_queue : queueOf (settleHead s q idx st code) q =
    touched (queueOf s q) idx (fun p => { p with progress := 2 + st + 256 * code }) := by
  rw [settleHead, queueOf, pokeQueues_queue]
  exact queueOf_modPacket
theorem settleHead_region : (settleHead s q idx st code).region = s.region := pokeQueues_region
theorem settleHead_memory : SameMemory s (settleHead s q idx st code) := by
  rw [settleHead, pokeQueues_eq]
  exact sameMemory_of rfl rfl rfl rfl rfl
theorem settleHead_dispatch : LaterOf (settleHead s q idx st code) .packetDispatch 0 0 0 := laterOf_pokeQueues

end
end
end Sys2Proof.Machine
end

