-- ==== Sys2Proof/Proofs/LaunchRequests.lean ====
section
/-! PROOF. A LAUNCH or a WAIT at the head of its queue: the check of the image, the test of a WAIT's condition, what a FENCE holds back
(12_package_launch, R325, R326, R331). -/
namespace Sys2Proof.Machine
open Sys2Proof.Claims

section
variable {s u : State} {q idx : Nat} {p : Packet} {bs : List Byte}

/-! ## Images -/

theorem small_iff {img : Image} : img.placements.any (fun p => p.w ≤ 288 && p.h ≤ 256 && img.w ≤ 288 && img.h ≤ 256) = true ↔
    ∃ p ∈ img.placements, p.w ≤ 288 ∧ p.h ≤ 256 ∧ img.w ≤ 288 ∧ img.h ≤ 256 := by
  simp only [List.any_eq_true, Bool.and_eq_true, decide_eq_true_eq, and_assoc]
/-- The checks of an image that jfload has let through, in order. -/
theorem imageRefused_eq {img : Image} (h : img.reject = none) : imageRefused s q img =
    if ¬ img.placements.all accsFit = true then some 1 else if img.queue ≠ q then some 4
    else if s.pkg.grade < img.grade ∨ ¬ (∃ p ∈ img.placements, p.w ≤ 288 ∧ p.h ≤ 256 ∧ img.w ≤ 288 ∧ img.h ≤ 256) then some 3
    else none := by
  simp only [imageRefused, h, ← small_iff, rejBadPacket, rejNoPlace, Bool.not_eq_true', Bool.or_eq_true, decide_eq_true_eq, bne_iff_ne,
    Bool.not_eq_true]

/-! ## LAUNCH -/

/-- The packet is a LAUNCH of MODE 0 that has neither a place nor an outcome. -/
structure AsksRegion (p : Packet) : Prop where
  type : inPacket p.bytes 1 1 = 1
  mode : inPacket p.bytes 30 1 = 0
  placed : p.placed = none
  progress : p.progress = 0

theorem AsksRegion.type_eq (h : AsksRegion p) : pktType p.bytes = 1 := (pktField_eq_inPacket ..).trans h.type
theorem AsksRegion.mode_eq (h : AsksRegion p) : launchMode p.bytes = 0 := (pktField_eq_inPacket ..).trans h.mode

section
variable (hx : s.ev.x = q) (hy : s.ev.y = idx) (hhead : headPacket (queueOf s q) = some p) (hidx : p.idx.toNat = idx)
  (hask : AsksRegion p) (himg : launchImage s q p = (.got bs, u))
include hx hy hhead hidx hask himg

theorem execLaunch_refused {c : Nat} (h : imageRefused u q (imageOf bs) = some c) :
    execLaunch s = .next (settleHead u q idx stRejected c) := by
  simp [execLaunch, hx, hy, hhead, hidx, hask.type_eq, hask.mode_eq, hask.placed, hask.progress, himg, h]
theorem execLaunch_accepted (h : imageRefused u q (imageOf bs) = none) :
    execLaunch s = .next (scheduleOnce u u.now .placement (evArgs q 0 0)) := by
  simp [execLaunch, hx, hy, hhead, hidx, hask.type_eq, hask.mode_eq, hask.placed, hask.progress, himg, h]
end

/-! ## WAIT -/

theorem waitHead_eq (hhead : headPacket (queueOf s q) = some p) (hidx : p.idx.toNat = idx) (htype : inPacket p.bytes 1 1 = 3)
    (hprog : p.progress ≤ 1) : waitHead s q idx = some p := by
  have htype' : pktType p.bytes = 3 := (pktField_eq_inPacket ..).trans htype
  simp [waitHead, hhead, hidx, htype', hprog]
/-- KIND 0 looks at the named queue, the others at what the last read found. -/
theorem waitHolds_iff : waitHolds s p = true ↔
    (inPacket p.bytes 16 1 = 0 ∧
      ((queueOf s (inPacket p.bytes 18 2)).cidx - BitVec.ofNat 16 (inPacket p.bytes 20 2) - 1).toNat < 2 ^ 15) ∨
    (inPacket p.bytes 16 1 ≠ 0 ∧ p.progress = 1) := by
  simp only [waitHolds, seqComplete, pktField_eq_inPacket]
  by_cases hkind : inPacket p.bytes 16 1 = 0 <;> simp [hkind]

section
variable (hx : s.ev.x = q) (hy : s.ev.y = idx) (hwait : waitHead s q idx = some p)
include hx hy hwait

theorem execWait_queue (hkind : inPacket p.bytes 16 1 = 0) :
    execWait s = .next (if waitHolds s p then pokeQueues s else s) := by
  simp only [execWait, hx, hy, hwait, pktField_eq_inPacket, hkind, beq_self_eq_true, if_true]
theorem execWait_memory (hkind : inPacket p.bytes 16 1 ≠ 0) : execWait s = .next (scheduleOnce s s.now .waitPoll s.ev) := by
  have hkind' : (inPacket p.bytes 16 1 == 0) = false := beq_eq_false_iff_ne.mpr hkind
  simp only [execWait, hx, hy, hwait, pktField_eq_inPacket, hkind', Bool.false_eq_true, if_false]
end

/-- Whether a word that a memory WAIT reads meets its value. -/
def wordMeets (p : Packet) (n : Nat) : Bool :=
  if inPacket p.bytes 16 1 == 1 then decide (inPacket p.bytes 32 8 ≤ n) else n == inPacket p.bytes 32 8
theorem wordMeets_iff {n : Nat} : wordMeets p n = true ↔
    (inPacket p.bytes 16 1 = 1 ∧ inPacket p.bytes 32 8 ≤ n) ∨ (inPacket p.bytes 16 1 ≠ 1 ∧ n = inPacket p.bytes 32 8) := by
  by_cases hkind : inPacket p.bytes 16 1 = 1 <;> simp [wordMeets, hkind]
/-- The state after a memory WAIT has noted what it read. -/
def notedWait (u : State) (q idx : Nat) (met : Bool) : State := modPacket u q idx (fun r => { r with progress := ofBool met })

section
variable {met : Bool}

/-- The state after a read of a memory WAIT: the scheduler looks again when the condition is met, and another read stands by. -/
def polledWait (u : State) (q idx : Nat) (met : Bool) : State :=
  schedule (if met then pokeQueues (notedWait u q idx met) else notedWait u q idx met) (u.now + 1000) .waitPoll u.ev
theorem execWaitPoll_read {a : Nat} (hx : s.ev.x = q) (hy : s.ev.y = idx) (hwait : waitHead s q idx = some p)
    (haddr : locAddress (queueLoc (queueOf s q)) (inPacket p.bytes 24 8) = some a)
    (hread : queueRead s q (queueLoc (queueOf s q)) a 8 3 = (.got bs, u)) :
    execWaitPoll s = .next (polledWait u q idx (wordMeets p (leNat bs))) := by
  simp only [execWaitPoll, hx, hy, hwait, pktField_eq_inPacket, haddr, hread]
  rfl
theorem polledWait_eq : polledWait u q idx met = { notedWait u q idx met with agenda := (polledWait u q idx met).agenda } := by
  cases met with
  | false => rfl
  | true =>
    rw [polledWait, if_pos rfl, pokeQueues_eq]
    rfl
theorem polledWait_memory : SameMemory u (polledWait u q idx met) := by
  rw [polledWait_eq]
  exact sameMemory_of rfl rfl rfl rfl rfl
theorem polledWait_queue : queueOf (polledWait u q idx met) q =
    touched (queueOf u q) idx (fun r => { r with progress := ofBool met }) := by
  rw [polledWait_eq]
  exact queueOf_modPacket
theorem polledWait_dispatch : LaterOf (polledWait u q idx true) .packetDispatch 0 0 0 := laterOf_schedule laterOf_pokeQueues
end

/-! ## FENCE and the head of a queue -/

section
variable (hhead : headPacket (queueOf s q) = some p)
include hhead

/-- A FENCE holds its packet back while one before it is not complete. -/
def Fenced (x : Queue) (p : Packet) : Prop :=
  (pktFlags p.bytes).getLsbD 0 = true ∧ ∃ e ∈ x.packets.takeWhile (fun r => r.idx != p.idx), e.status = none

theorem openHead_fenced (h : Fenced (queueOf s q) p) : openHead (queueOf s q) = none := by
  obtain ⟨hfence, e, he, hopen⟩ := h
  have hbefore : ((queueOf s q).packets.takeWhile (fun r => r.idx != p.idx)).any (fun r => r.status.isNone) = true :=
    List.any_eq_true.mpr ⟨e, he, by rw [hopen]; rfl⟩
  simp only [openHead, hhead, bitAt_eq_getLsbD, hfence, hbefore, Bool.and_self, if_true]
theorem openHead_open (h : ¬ Fenced (queueOf s q) p) : openHead (queueOf s q) = some p := by
  simp only [openHead, hhead, bitAt_eq_getLsbD]
  refine if_neg fun hboth => h ?_
  rw [Bool.and_eq_true] at hboth
  obtain ⟨hfence, hbefore⟩ := hboth
  obtain ⟨e, he, hopen⟩ := List.any_eq_true.mp hbefore
  exact ⟨hfence, e, he, Option.isNone_iff_eq_none.mp hopen⟩
theorem readyHead_fenced (h : Fenced (queueOf s q) p) : readyHead s q = none := by
  simp only [readyHead, openHead_fenced hhead h, ite_self]
theorem readyHead_wait (h : ¬ Fenced (queueOf s q) p) (hst : (queueOf s q).st = .active) (hoff : (queueOf s q).offPend = false)
    (hok : packetOk q (queueOf s q) p.bytes = true) (hprog : p.progress ≤ 1) (htype : inPacket p.bytes 1 1 = 3) :
    readyHead s q = if waitHolds s p then some p else none := by
  have htype' : pktType p.bytes = 3 := (pktField_eq_inPacket ..).trans htype
  have hprog' : ¬ 2 ≤ p.progress := by omega
  simp [readyHead, openHead_open hhead h, hst, hoff, hok, hprog', htype']
end
end

/-! ## The first rectangle in row order -/

theorem findSome?_range_eq_some {α : Type} {f : Nat → Option α} {b : α} {n : Nat} (h : (List.range n).findSome? f = some b) :
    ∃ i < n, f i = some b ∧ ∀ j < i, f j = none := by
  induction n with
  | zero => simp at h
  | succ n ih =>
    rw [List.range_succ, List.findSome?_append, Option.or_eq_some_iff] at h
    rcases h with h | ⟨hnone, h⟩
    · obtain ⟨i, hi, hfi⟩ := ih h
      exact ⟨i, by omega, hfi⟩
    · refine ⟨n, by omega, by simpa using h, fun j hj => ?_⟩
      exact List.findSome?_eq_none_iff.mp hnone j (List.mem_range.mpr hj)
/-- The origin found fits, and every other that fits lies above it or in its row to the right (R331). -/
theorem findOrigin_first {s : State} {img : Image} {p : Placement} {other : Option (Nat × Nat)} {x0 y0 : Nat}
    (h : findOrigin s img p other = some (x0, y0)) : fitsAt s img p x0 y0 other = true ∧
      ∀ x y, x + max p.w img.w ≤ 288 → y + max p.h img.h ≤ 256 → fitsAt s img p x y other = true →
        y0 < y ∨ (y0 = y ∧ x0 ≤ x) := by
  obtain ⟨y1, -, hrow, hbelow⟩ := findSome?_range_eq_some h
  obtain ⟨x1, hx1, heq⟩ := Option.map_eq_some_iff.mp hrow
  obtain ⟨rfl, rfl⟩ := Prod.mk.inj heq
  rw [List.find?_range_eq_some] at hx1
  obtain ⟨hfits, -, hleft⟩ := hx1
  refine ⟨hfits, fun x y hx hy hfit => ?_⟩
  have hinrow : x < 289 - max p.w img.w := by omega
  rcases Nat.lt_trichotomy y1 y with hlt | rfl | hgt
  · exact .inl hlt
  · refine .inr ⟨rfl, ?_⟩
    by_contra hx'
    simpa [hfit] using hleft x (by omega)
  · have hnone := Option.map_eq_none_iff.mp (hbelow y hgt)
    simpa [hfit] using List.find?_eq_none.mp hnone x (List.mem_range.mpr hinrow)

end Sys2Proof.Machine
end

