-- ==== Sys2Proof/Proofs/ShadowLoads.lean ====
section
/-! PROOF. Shadow planes: what a load writes into the cores of a configuration, and the load of a LAUNCH with MODE 1 or 2
(12_package_launch, R331, R335). -/
namespace Sys2Proof.Machine
open Sys2Proof.Claims

/-! ## Cores written one after another -/

theorem nodup_eraseDups (l : List Nat) : l.eraseDups.Nodup := by
  match l with
  | [] => exact List.nodup_nil
  | a :: l =>
    rw [List.eraseDups_cons, List.nodup_cons]
    refine ⟨fun h => ?_, nodup_eraseDups _⟩
    simp at h
termination_by l.length
decreasing_by exact Nat.lt_succ_of_le (List.length_filter_le ..)
theorem coreOf_foldl_setCore {f : Nat → Core → Core} {ks : List Nat} (hks : ks.Nodup) (s : State) (j : Nat) :
    coreOf (ks.foldl (fun t k => setCore t k (f k (coreOf t k))) s) j = if j ∈ ks then f j (coreOf s j) else coreOf s j := by
  induction ks generalizing s with
  | nil => rfl
  | cons k ks ih =>
    obtain ⟨hk, hks⟩ := List.nodup_cons.mp hks
    rw [List.foldl_cons, ih hks]
    by_cases hj : k = j
    · subst hj
      rw [if_neg hk, if_pos (List.mem_cons_self ..), coreOf_setCore_same]
    · rw [coreOf_setCore_other _ _ _ _ hj]
      simp only [List.mem_cons, Ne.symm hj, false_or]

theorem foldl_setCore_keeps {β : Type} {g : State → β} (hg : ∀ s k c, g (setCore s k c) = g s) (f : State → Nat → Core)
    (ks : List Nat) (s : State) : g (ks.foldl (fun t k => setCore t k (f t k)) s) = g s := foldl_keeps (fun _ _ => hg ..) ks s
/-- Two folds agree whose steps agree wherever a property holds that the second one's steps keep. -/
theorem foldl_congr_keeping {σ α : Type} {f g : σ → α → σ} {P : σ → Prop} (hfg : ∀ t a, P t → f t a = g t a)
    (hP : ∀ t a, P t → P (g t a)) {l : List α} {s : σ} (hs : P s) : l.foldl f s = l.foldl g s := by
  induction l generalizing s with
  | nil => rfl
  | cons a l ih =>
    rw [List.foldl_cons, List.foldl_cons, hfg s a hs]
    exact ih (hP s a hs)

/-! ## The core map as a view of the state -/

/-- What the places of logical cores depend on. -/
def mapView (s : State) : Option Nat × Nat × SMap W64 × Memory := (s.pkg.mapAt, s.pkg.cmbase.toNat, s.pkg.coreMap, s.hbm)
theorem seatCore_of_mapView {s t : State} (h : mapView t = mapView s) : seatCore t = seatCore s := by
  simp only [mapView, Prod.mk.injEq] at h
  obtain ⟨hat, hbase, hmap, hhbm⟩ := h
  have hentry (x y : Nat) : mapEntry t x y = mapEntry s x y := by
    rw [mapEntry, mapEntry, hat, hbase, hmap, hhbm]
  funext e
  simp only [seatCore, placeOf, hentry]
theorem setCore_mapView (s : State) (k : Nat) (c : Core) : mapView (setCore s k c) = mapView s := rfl
theorem seatCores_of_mapView {s t : State} (h : mapView t = mapView s) (ts : List Seat) : seatCores t ts = seatCores s ts := by
  rw [seatCores, seatCores, seatCore_of_mapView h]

/-! ## A shadow load -/

/-- The plane that a core gets of a configuration's seats. -/
def seatPlane (s : State) (ts : List Seat) (k : Nat) : Memory := planeOf (ts.filter (fun e => seatCore s e == k))
section
variable {s t : State} {ts : List Seat}

theorem seatPlane_of_mapView (h : mapView t = mapView s) : seatPlane t ts = seatPlane s ts := by
  funext k
  rw [seatPlane, seatPlane, seatCore_of_mapView h]
/-- The cores that a load writes do not move the places of its seats. -/
theorem loadShadow_eq : loadShadow s ts = (seatCores s ts).foldl
    (fun t k => setCore t k { coreOf t k with shadow := seatPlane s ts k }) s := by
  unfold loadShadow
  refine foldl_congr_keeping (P := fun t => mapView t = mapView s) (fun t k ht => ?_) (fun t k ht => (setCore_mapView ..).trans ht) rfl
  rw [seatPlane, seatCore_of_mapView ht]
theorem coreOf_loadShadow (k : Nat) : coreOf (loadShadow s ts) k =
    if k ∈ seatCores s ts then { coreOf s k with shadow := seatPlane s ts k } else coreOf s k := by
  rw [loadShadow_eq]
  exact coreOf_foldl_setCore (f := fun k c => { c with shadow := seatPlane s ts k }) (nodup_eraseDups _) s k
theorem loadShadow_mapView : mapView (loadShadow s ts) = mapView s := by
  rw [loadShadow_eq]
  exact foldl_setCore_keeps setCore_mapView _ _ s
theorem loadShadow_region : (loadShadow s ts).region = s.region := by
  rw [loadShadow_eq]
  exact foldl_setCore_keeps setCore_region _ _ s
theorem loadShadow_queue : (loadShadow s ts).queue = s.queue := by
  rw [loadShadow_eq]
  exact foldl_setCore_keeps setCore_queue _ _ s

theorem regionOf_modRegion {n : Nat} {f : Region → Region} : regionOf (modRegion s n f) n = f (regionOf s n) :=
  regionOf_setRegion_same ..
/-- The end of a load that a running gang has waited for. -/
theorem execShadowLoadEnd_loaded {n : Nat} {h : Shadow} (hx : s.ev.x = n) (hnext : (regionOf s n).next = some h)
    (hload : (regionOf s n).loading = true) (hst : (regionOf s n).st = .running) (hstop : (regionOf s n).stopping = false) :
    execShadowLoadEnd s = .next (modRegion (loadShadow s h.seats) n
      (fun r => { r with loading := false, shadow := true, swpend := r.swpend || decide (h.mode = 1) })) := by
  simp [execShadowLoadEnd, hx, hnext, hload, hst, hstop, beq_eq_decide]
end

/-! ## LAUNCH with MODE 1 or 2 -/

section
variable {s u : State} {q idx n mode : Nat} {op : Instr} {p : Packet} {bs : List Byte} {pl : Placement} {ts : List Seat}
  {plan : List (Nat × W64 × W64)}

/-- A gang that a new configuration may be loaded beside. -/
def LiveGang (r : Region) : Prop := r.st = .running ∨ r.st = .stopped ∨ r.st = .rolling ∨ r.st = .swapping
theorem liveGang_iff {r : Region} :
    (r.st == .running || r.st == .stopped || r.st == .rolling || r.st == .swapping) = true ↔ LiveGang r := by
  simp only [LiveGang, Bool.or_eq_true, beq_iff_eq, or_assoc]
theorem unfit_iff {r : Region} {img : Image} : (!(r.st == .running || r.st == .stopped || r.st == .rolling || r.st == .swapping) ||
    r.dead || img.w != r.w || img.h != r.h) = true ↔ ¬ LiveGang r ∨ r.dead = true ∨ img.w ≠ r.w ∨ img.h ≠ r.h := by
  rw [Bool.or_eq_true, Bool.or_eq_true, Bool.or_eq_true, Bool.not_eq_true', ← Bool.not_eq_true, liveGang_iff, bne_iff_ne, bne_iff_ne,
    or_assoc, or_assoc]

section
variable (hx : s.ev.x = q) (hy : s.ev.y = idx) (hpacket : packetOf s q idx = some p) (hslot : inPacket p.bytes 28 2 = n)
  (himg : launchImage s q p = (.got bs, u)) (hkeep : imageRefused u q (imageOf bs) = none)
  (hfold : (imageOf bs).placements.find? (fun p => p.fold == (regionOf u n).fold) = some pl)
include hx hy hpacket hslot himg hkeep hfold

theorem loadNext_unfit (h : ¬ LiveGang (regionOf u n) ∨ (regionOf u n).dead = true ∨ (imageOf bs).w ≠ (regionOf u n).w ∨
    (imageOf bs).h ≠ (regionOf u n).h) : loadNext s op mode = complete u q idx stRejected rejBadPacket := by
  simp only [loadNext, hx, hy, hpacket, launchSlot, pktField_eq_inPacket, hslot, himg, hkeep, hfold, unfit_iff.mpr h, if_true]
/-- An image that fits its region: the load begins when its depths and rates fit too. -/
theorem loadNext_fits (hlive : LiveGang (regionOf u n)) (hdead : (regionOf u n).dead = false)
    (hw : (imageOf bs).w = (regionOf u n).w) (hh : (imageOf bs).h = (regionOf u n).h) (hnext : (regionOf u n).next = none)
    (hseats : allocSeats u n (seatsAt pl (regionOf u n).x0 (regionOf u n).y0 ++
      (if (regionOf u n).dup then seatsAt pl (regionOf u n).dupX (regionOf u n).dupY else [])) = some ts)
    (hplan : groupPlan u n 0 (imageOf bs) ts = some plan) :
    loadNext s op mode = if depthsFit u n plan && ratesFit u ts then
      schedule (modRegion (measure u 3 (sha256 bs)) n (fun r => { r with
        next := some { image := imageOf bs, seats := ts, plan := plan, queue := q, pkt := p.idx, mode := mode }, loading := true }))
        u.now .shadowLoadEnd (evArgs n 0 0)
      else complete u q idx stRejected 2 := by
  simp only [loadNext, hx, hy, hpacket, launchSlot, pktField_eq_inPacket, hslot, himg, hkeep, hfold, liveGang_iff.mpr hlive, hdead,
    hw, hh, hnext, hseats, hplan, bne_self_eq_false, Bool.not_true, Bool.or_self, Bool.false_eq_true, if_false, Option.isSome_none]
  cases depthsFit u n plan && ratesFit u ts <;> rfl
end
end
end Sys2Proof.Machine
end

