-- ==== Sys2Proof/Proofs/Placements.lean ====
section
/-! PROOF. The allocator: what writing a configuration into its cores, clusters, dies and groups leaves of the cores, region slots and
queues, and the outcomes of a LAUNCH that waits for a place (12_package_launch, R331, R335, R338). -/
namespace Sys2Proof.Machine
open Sys2Proof.Claims

/-! ## Cores, region slots and queues -/

/-- The cores, the region slots and the queues of a state. -/
def tables (s : State) : SMap Core × SMap Region × SMap Queue := (s.core, s.region, s.queue)

section
variable {s t : State}

theorem core_of_tables (h : tables t = tables s) : t.core = s.core := congrArg Prod.fst h
theorem region_of_tables (h : tables t = tables s) : t.region = s.region := congrArg (fun v => v.2.1) h
theorem queue_of_tables (h : tables t = tables s) : t.queue = s.queue := congrArg (fun v => v.2.2) h

/-! ## Memory written at home -/

theorem countStack_tables (s : State) {stack n k : Nat} : tables (countStack s stack n k) = tables s := rfl
theorem countRead_tables {line : Nat} : tables (countRead s line) = tables s := by
  unfold countRead
  dsimp only
  split <;> rfl
theorem hbmPut_tables {a : Nat} {v : Byte} : tables (hbmPut s a v) = tables s := by
  unfold hbmPut
  split <;> rfl
theorem homeWriteLine_tables {line : Nat} {bs : List (Nat × Byte)} {cmp : Bool} :
    tables (homeWriteLine s line bs cmp) = tables s := by
  have hput (t : State) : tables (bs.foldl (fun s b => hbmPut s b.1 b.2) t) = tables t := foldl_keeps (fun _ _ => hbmPut_tables) ..
  unfold homeWriteLine
  refine (hput _).trans ?_
  split
  · rfl
  · exact countRead_tables
theorem homeLines_tables {ps : List (Nat × Byte)} {cmp : Bool} : tables (homeLines s ps cmp) = tables s :=
  foldl_keeps (fun _ _ => homeWriteLine_tables) ..
theorem tier2Write_tables {ps : List (Nat × Byte)} : tables (tier2Write s ps) = tables s :=
  foldl_keeps (g := tables) (fun s _ => countStack_tables s) _ s
theorem placeWrite_tables {pa : W64} {ps : List (Nat × Byte)} {cmp : Bool} : tables (placeWrite s pa ps cmp) = tables s := by
  unfold placeWrite
  split
  · exact homeLines_tables
  · exact tier2Write_tables
theorem forkWrite_tables {pa : W64} {bs : List Byte} {m : Migration} : tables (forkWrite s pa bs m) = tables s := by
  unfold forkWrite
  dsimp only
  split
  · rfl
  · exact placeWrite_tables
theorem forkedWrite_tables {pa : W64} {bs : List Byte} {cmp : Bool} : tables (forkedWrite s pa bs cmp) = tables s :=
  (foldl_keeps (fun _ _ => forkWrite_tables) ..).trans placeWrite_tables
theorem physHomeWrite_tables {pa : W64} {bs : List Byte} {cmp : Bool} : tables (physHomeWrite s pa bs cmp) = tables s := by
  unfold physHomeWrite
  split
  · exact forkedWrite_tables
  · exact forkedWrite_tables
  · rfl
  · rfl

/-! ## Clusters, groups and dies -/

section
variable {ts : List Seat} {img : Image} {plan : List (Nat × W64 × W64)}

theorem setCluster_tables (s : State) (k : Nat) (c : Cluster) : tables (setCluster s k c) = tables s := rfl
theorem setDie_tables (s : State) (k : Nat) (d : Die) : tables (setDie s k d) = tables s := rfl
theorem writeBarriers_tables : tables (writeBarriers s ts) = tables s := by
  refine foldl_keeps (fun s cl => foldl_keeps (fun s k => ?_) _ s) _ s
  dsimp only
  split
  · rfl
  · exact setCluster_tables ..
theorem bindPair_tables {ch : Nat} {a b : Nat × Nat × Nat} : tables (bindPair s ts ch a b) = tables s := by
  unfold bindPair
  dsimp only
  split
  · exact setCluster_tables ..
  · rfl
theorem writePairs_tables : tables (writePairs s img ts) = tables s :=
  foldl_keeps (fun _ _ => bindPair_tables.trans bindPair_tables) _ s
theorem setBranch_tables (s : State) {die g : Nat} {b : Branch} : tables (setBranch s die g b) = tables s := rfl
theorem setGroup_tables (s : State) {k : Nat} {g : Group} : tables (setGroup s k g) = tables s := rfl
theorem writeGroups_tables : tables (writeGroups s ts plan) = tables s := by
  unfold writeGroups
  refine foldl_keeps (fun s e => ?_) _ s
  exact (foldl_keeps (g := tables) (fun s _ => setBranch_tables s) _ _).trans (setGroup_tables s)
theorem setUsers_tables {n : Nat} {dies : List Nat} : tables (setUsers s n dies) = tables s := by
  unfold setUsers
  exact foldl_keeps (g := tables) (fun s d => setDie_tables s d _) _ _

end

/-! ## The map of a fold -/

/-- The region slots and the queues of a state. -/
def slots (s : State) : SMap Region × SMap Queue := (s.region, s.queue)
theorem slots_of_tables (h : tables t = tables s) : slots t = slots s := congrArg Prod.snd h
theorem regionOf_of_slots (h : slots t = slots s) (n : Nat) : regionOf t n = regionOf s n := by
  have hregion : t.region = s.region := congrArg Prod.fst h
  rw [regionOf, hregion, regionOf]
theorem queueOf_of_slots (h : slots t = slots s) (n : Nat) : queueOf t n = queueOf s n := by
  have hqueue : t.queue = s.queue := congrArg Prod.snd h
  rw [queueOf, hqueue, queueOf]
theorem setCore_slots (s : State) (k : Nat) (c : Core) : slots (setCore s k c) = slots s := rfl
theorem setMapEntry_slots {x y : Nat} {e : W64} : slots (setMapEntry s x y e) = slots s := by
  unfold setMapEntry
  split
  · rfl
  · split
    · rfl
    · split <;> rfl
theorem rebind_slots {x y : Nat} {e : W64} : slots (rebind s x y e) = slots s := setMapEntry_slots
theorem foldMap_slots {fold : Nat} {ts : List Seat} : slots (foldMap s fold ts).1 = slots s := by
  unfold foldMap
  split
  · rfl
  · exact foldl_keeps (g := slots) (fun _ _ => rebind_slots) _ s
theorem foldMap_none {ts : List Seat} : foldMap s 0 ts = (s, []) := rfl

/-! ## A configuration in place -/

section
variable {n q : Nat} {ts : List Seat} {img : Image} {plan : List (Nat × W64 × W64)} {dup : Bool} {split : Nat}

theorem zeroAreas_tables {l : List W64} {kept : Bool} :
    tables (if kept then s else l.foldl (fun s a => physHomeWrite s a (List.replicate 65536 0) false) s) = tables s := by
  split
  · rfl
  · exact foldl_keeps (g := tables) (fun _ _ => physHomeWrite_tables) _ _
/-- Writing the areas of one core leaves every core's shadow plane. -/
theorem setCore_areas_shadow {k : Nat} {c : Core} (ht : tables t = tables s) (hc : c.shadow = (coreOf s k).shadow) (j : Nat) :
    (coreOf (setCore t k c) j).shadow = (coreOf s j).shadow := by
  by_cases hj : k = j
  · subst hj
    rw [coreOf_setCore_same, hc]
  · rw [coreOf_setCore_other _ _ _ _ hj, coreOf, core_of_tables ht, coreOf]
theorem writeAreas_shadow {ks : List Nat} (j : Nat) : (coreOf (writeAreas s n q ks) j).shadow = (coreOf s j).shadow := by
  refine foldl_keeps (g := fun s => (coreOf s j).shadow) (fun s k => ?_) ks s
  dsimp only
  refine setCore_areas_shadow zeroAreas_tables ?_ j
  rfl
theorem writeAreas_slots {ks : List Nat} : slots (writeAreas s n q ks) = slots s := by
  refine foldl_keeps (g := slots) (fun s k => ?_) ks s
  dsimp only
  exact (setCore_slots ..).trans (slots_of_tables zeroAreas_tables)

/-- What follows the cores' parts leaves them as they are. -/
theorem swapIn_tables : tables (swapIn s n q img ts plan dup split) = tables ((seatCores s ts).foldl
    (fun t k => setCore t k (seatCoreState n q (ts.filter (fun e => seatCore s e == k)) (coreOf t k)))
    (writeAreas s n q (seatCores s ts))) := by
  unfold swapIn
  refine setUsers_tables.trans (writeGroups_tables.trans ?_)
  split
  · exact writePairs_tables.trans (writePairs_tables.trans writeBarriers_tables)
  · exact writePairs_tables.trans writeBarriers_tables
theorem swapIn_slots : slots (swapIn s n q img ts plan dup split) = slots s :=
  (slots_of_tables swapIn_tables).trans ((foldl_setCore_keeps (fun _ _ _ => rfl) _ _ _).trans writeAreas_slots)
theorem seatCores_nodup : (seatCores s ts).Nodup := nodup_eraseDups _
/-- Every core of the configuration runs from what its shadow plane held. -/
theorem swapIn_active {k : Nat} (hk : k ∈ seatCores s ts) :
    (coreOf (swapIn s n q img ts plan dup split) k).active = (coreOf s k).shadow := by
  have hcore := coreOf_foldl_setCore (f := fun k c => seatCoreState n q (ts.filter (fun e => seatCore s e == k)) c)
    (seatCores_nodup (s := s) (ts := ts)) (writeAreas s n q (seatCores s ts)) k
  rw [if_pos hk] at hcore
  rw [coreOf, core_of_tables swapIn_tables, ← coreOf, hcore, ← writeAreas_shadow (n := n) (q := q) (ks := seatCores s ts) k]
  rfl
end

/-! ## A region placed -/

section
variable {u : State} {q n : Nat} {idx : W16} {img : Image} {dup : Bool} {p : Placement} {a b : Nat × Nat} {ts : List Seat}
  {plan : List (Nat × W64 × W64)} {digest : BitVec 256}

/-- The state in which a placement's map entries are written: the number is taken, the image measured. -/
def measured (u : State) (digest : BitVec 256) : State :=
  measure { u with pkg := { u.pkg with cfgidNext := newCfgid u + 1 } } 3 digest
/-- The region slot as a placement leaves it, given its cores and the map entries that stood before its fold. -/
def placedRegion (u : State) (q n : Nat) (idx : W16) (img : Image) (dup : Bool) (p : Placement) (a b : Nat × Nat) (ts : List Seat)
    (ks : List Nat) (un : List (Nat × W64)) : Region :=
  { freedRegion (regionOf u n) with
    st := .loading, x0 := a.1, y0 := a.2, w := img.w, h := img.h, fold := p.fold, cfgid := newCfgid u, queue := q, pkt := idx, dup := dup
    dupX := b.1, dupY := b.2, image := some img, cores := ks, seats := ts, unfold := un, logb := stopLogAddress n }
/-- The state with the map entries and the region slot of a placement written. -/
def claimed (u : State) (q n : Nat) (idx : W16) (img : Image) (dup : Bool) (p : Placement) (a b : Nat × Nat) (ts : List Seat)
    (digest : BitVec 256) : State :=
  let m := foldMap (measured u digest) p.fold ts
  setRegion m.1 n (placedRegion u q n idx img dup p a b ts (seatCores m.1 ts) m.2)
theorem measured_slots : slots (measured u digest) = slots u := rfl
theorem measured_mapView : mapView (measured u digest) = mapView u := rfl
theorem placeRegion_eq : placeRegion u q idx img dup p a b ts plan n digest =
    modPacket (swapIn (loadShadow (claimed u q n idx img dup p a b ts digest) ts) n q img ts (planFor (newCfgid u) plan) dup
      (if dup then ts.length / 2 else ts.length)) q idx.toNat (fun r => { r with placed := some n, progress := 1 }) := by
  have hregion : regionOf (foldMap (measured u digest) p.fold ts).1 n = regionOf u n :=
    regionOf_of_slots (foldMap_slots.trans measured_slots) n
  simp only [claimed, placedRegion, ← hregion]
  rfl
theorem loadShadow_slots {s : State} : slots (loadShadow s ts) = slots s := Prod.ext loadShadow_region loadShadow_queue
/-- A configuration put in place leaves the region slots and the queues as the placement has written them. -/
theorem placed_slots : slots (swapIn (loadShadow (claimed u q n idx img dup p a b ts digest) ts) n q img ts (planFor (newCfgid u) plan)
    dup (if dup then ts.length / 2 else ts.length)) = slots (claimed u q n idx img dup p a b ts digest) :=
  swapIn_slots.trans loadShadow_slots
theorem placeRegion_region : ∃ ks un, regionOf (placeRegion u q idx img dup p a b ts plan n digest) n =
    placedRegion u q n idx img dup p a b ts ks un := by
  rw [placeRegion_eq]
  exact ⟨_, _, (regionOf_of_slots placed_slots n).trans (regionOf_setRegion_same ..)⟩
theorem placeRegion_queue : queueOf (placeRegion u q idx img dup p a b ts plan n digest) q =
    touched (queueOf u q) idx.toNat (fun r => { r with placed := some n, progress := 1 }) := by
  rw [placeRegion_eq, queueOf_modPacket, queueOf_of_slots placed_slots]
  exact congrArg (touched · _ _) (queueOf_of_slots (foldMap_slots.trans measured_slots) q)
/-- Without a fold every core runs from the plane of its seats. -/
theorem placeRegion_active (hfold : p.fold = 0) {k : Nat} (hk : k ∈ seatCores u ts) :
    (coreOf (placeRegion u q idx img dup p a b ts plan n digest) k).active = seatPlane u ts k := by
  have hview : mapView (claimed u q n idx img dup p a b ts digest) = mapView u := by
    rw [claimed, hfold, foldMap_none]
    rfl
  have hload : mapView (loadShadow (claimed u q n idx img dup p a b ts digest) ts) = mapView u := loadShadow_mapView.trans hview
  have hcores := seatCores_of_mapView hview ts
  have hkept := seatCores_of_mapView hload ts
  rw [placeRegion_eq]
  refine (swapIn_active (by rwa [hkept])).trans ?_
  rw [coreOf_loadShadow, if_pos (by rwa [hcores]), seatPlane_of_mapView hview]
end
end

/-! ## Pre-emption -/

section
variable {s : State}

theorem regionOf_setRegion_st {n : Nat} {r : Region} (h : r.st = (regionOf s n).st) (m : Nat) :
    (regionOf (setRegion s n r) m).st = (regionOf s m).st := by
  by_cases hm : n = m
  · subst hm
    rw [regionOf_setRegion_same, h]
  · exact congrArg Region.st (tget_tput_other _ _ _ _ _ hm)
/-- Pre-emption marks at most one region, and begins its shrink or its stop. -/
theorem preempt_keeps {q need : Nat} : (preempt s q need).ev = s.ev ∧ (preempt s q need).now = s.now ∧
    ∀ m, (regionOf (preempt s q need) m).st = (regionOf s m).st := by
  unfold preempt
  split
  · exact ⟨rfl, rfl, fun _ => rfl⟩
  · split
    · exact ⟨rfl, rfl, fun _ => rfl⟩
    · dsimp only
      split
      · exact ⟨rfl, rfl, regionOf_setRegion_st rfl⟩
      · exact ⟨rfl, rfl, regionOf_setRegion_st rfl⟩
end

/-! ## PLACEMENT -/

section
variable {s u : State} {q n : Nat} {p : Packet} {bs : List Byte} {pl : Placement} {a b : Nat × Nat} {ts : List Seat}
  {plan : List (Nat × W64 × W64)}

/-- What a placement finds at the head of its queue: a LAUNCH whose image is accepted, and the first free region slot. -/
structure Placeable (s u : State) (q n : Nat) (p : Packet) (bs : List Byte) : Prop where
  operand : s.ev.x = q
  head : headPacket (queueOf s q) = some p
  active : (queueOf s q).st = .active
  power : (queueOf s q).offPend = false
  asks : AsksRegion p
  ok : packetOk q (queueOf s q) p.bytes = true
  image : launchImage s q p = (.got bs, u)
  accepted : imageRefused u q (imageOf bs) = none
  free : (List.range 512).find? (fun n => (regionOf u n).st == .free) = some n

/-- The packet asks for a duplicate placement. -/
def asksDup (p : Packet) : Bool := inPacket p.bytes 31 1 == 1
theorem findSlot_free (hn : n < 512) (hfree : (regionOf u n).st = .free) (hfirst : ∀ m < n, (regionOf u m).st ≠ .free) :
    (List.range 512).find? (fun n => (regionOf u n).st == .free) = some n := by
  rw [List.find?_range_eq_some]
  exact ⟨beq_iff_eq.mpr hfree, List.mem_range.mpr hn, fun m hm => by simpa using hfirst m hm⟩

/-- The least number of cores that a placement of an image takes. -/
def coresNeeded (img : Image) (dup : Bool) : Nat :=
  ((img.placements.map (fun p => p.w * p.h)).foldl min (288 * 256)) * (if dup then 2 else 1)

section
variable (h : Placeable s u q n p bs)
include h

theorem execPlacement_noRoom (hnone : (tryOrder (imageOf bs)).findSome? (findPlace u (imageOf bs) (asksDup p)) = none) :
    execPlacement s = .next (schedule (preempt u q (coresNeeded (imageOf bs) (asksDup p)))
      ((preempt u q (coresNeeded (imageOf bs) (asksDup p))).now + 1000) .placement
      (preempt u q (coresNeeded (imageOf bs) (asksDup p))).ev) := by
  obtain ⟨hx, hhead, hst, hoff, hask, hok, himg, hkeep, hfree⟩ := h
  rw [asksDup] at hnone
  simp only [execPlacement, hx, hhead, hst, hoff, hask.type_eq, hask.mode_eq, hask.placed, hask.progress, hok, himg, hkeep, hfree,
    pktField_eq_inPacket, hnone, bne_self_eq_false, Option.isSome_none, Bool.not_true, Bool.or_self, Bool.false_eq_true, if_false]
  rfl
theorem execPlacement_found
    (hplace : (tryOrder (imageOf bs)).findSome? (findPlace u (imageOf bs) (asksDup p)) = some (pl, a, b))
    (hseats : allocSeats u n (seatsAt pl a.1 a.2 ++ (if asksDup p then seatsAt pl b.1 b.2 else [])) = some ts)
    (hplan : groupPlan u n 0 (imageOf bs) ts = some plan) :
    execPlacement s = .next (if depthsFit u n plan && ratesFit u ts then
      pokeQueues (placeRegion u q p.idx (imageOf bs) (asksDup p) pl a b ts plan n (sha256 bs))
      else settleHead u q p.idx.toNat stRejected 2) := by
  obtain ⟨hx, hhead, hst, hoff, hask, hok, himg, hkeep, hfree⟩ := h
  rw [asksDup] at hplace hseats
  simp only [execPlacement, hx, hhead, hst, hoff, hask.type_eq, hask.mode_eq, hask.placed, hask.progress, hok, himg, hkeep, hfree,
    pktField_eq_inPacket, hplace, hseats, hplan, bne_self_eq_false, Option.isSome_none, Bool.not_true, Bool.or_self, Bool.false_eq_true,
    if_false]
  cases depthsFit u n plan && ratesFit u ts <;> rfl
end
end
end Sys2Proof.Machine
end

