-- ==== Sys2Proof/Proofs/Launches.lean ====
section
/-! PROOF. LAUNCH and WAIT packets, from the outcomes of their steps (12_package_launch, R325, R326, R331, R335). -/
namespace Sys2Proof.Machine
open Sys2Proof.Claims

/-! ## PLACEMENT -/

section
variable {s u : State} {q n : Nat} {p : Packet} {bs : List Byte} {pl : Placement} {a b : Nat × Nat} {ts : List Seat}
  {plan : List (Nat × W64 × W64)} (h : Placeable s u q n p bs)
include h

theorem placement_waits (hnone : (tryOrder (imageOf bs)).findSome? (findPlace u (imageOf bs) (asksDup p)) = none) :
    Runs .placement s fun t => Later t .placement q s.ev.y (u.now + 1000) ∧
      ∀ m, (regionOf u m).st = .free → (regionOf t m).st = .free := by
  obtain ⟨hev, hnow, hst⟩ := preempt_keeps (s := u) (q := q) (need := coresNeeded (imageOf bs) (asksDup p))
  have hread : u.ev = s.ev := by
    have := launchImage_ev (s := s) (q := q) (p := p)
    rwa [h.image] at this
  refine ⟨_, execPlacement_noRoom h hnone, ?_, fun m hm => (hst m).trans hm⟩
  rw [hev, hnow, hread]
  have hlater := later_schedule (s := preempt u q (coresNeeded (imageOf bs) (asksDup p))) (due := u.now + 1000) (op := .placement)
    (args := s.ev)
  rwa [h.operand] at hlater

section
variable (hplace : (tryOrder (imageOf bs)).findSome? (findPlace u (imageOf bs) (asksDup p)) = some (pl, a, b))
  (hseats : allocSeats u n (seatsAt pl a.1 a.2 ++ (if asksDup p then seatsAt pl b.1 b.2 else [])) = some ts)
  (hplan : groupPlan u n 0 (imageOf bs) ts = some plan)
include hplace hseats hplan

theorem placement_crowded (hfit : depthsFit u n plan = false ∨ ratesFit u ts = false) :
    Runs .placement s fun t => LaterOf t .packetDispatch 0 0 0 ∧
      queueOf t q = touched (queueOf u q) p.idx.toNat (fun e => { e with progress := 2 + 4 + 256 * 2 }) ∧ t.region = u.region := by
  have hbad : (depthsFit u n plan && ratesFit u ts) = false := Bool.and_eq_false_iff.mpr hfit
  refine ⟨_, execPlacement_found h hplace hseats hplan, ?_⟩
  rw [hbad]
  exact ⟨settleHead_dispatch, settleHead_queue, settleHead_region⟩
theorem placement_takes (hdepths : depthsFit u n plan = true) (hrates : ratesFit u ts = true) :
    Runs .placement s fun t =>
      (∃ ks un, regionOf t n = placedRegion u q n p.idx (imageOf bs) (asksDup p) pl a b ts ks un) ∧ LaterOf t .packetDispatch 0 0 0 ∧
      (pl.fold = 0 → ∀ k ∈ seatCores u ts, (coreOf t k).active = seatPlane u ts k) ∧
      queueOf t q = touched (queueOf u q) p.idx.toNat (fun e => { e with placed := some n, progress := 1 }) := by
  refine ⟨_, execPlacement_found h hplace hseats hplan, ?_⟩
  rw [hdepths, hrates]
  refine ⟨?_, laterOf_pokeQueues, fun hfold k hk => ?_, ?_⟩
  · simp only [Bool.and_self, if_true, regionOf, pokeQueues_region]
    exact placeRegion_region
  · simp only [Bool.and_self, if_true, coreOf, pokeQueues_core]
    exact placeRegion_active hfold hk
  · simp only [Bool.and_self, if_true, queueOf, pokeQueues_queue]
    exact placeRegion_queue
end
end

/-! ## Shadow loads -/

section
variable {s : State}

theorem exec_swap {i : Instr} {mode : Nat} (h : (i, mode) ∈ [(Instr.launchSwapAtQuiescence, 1), (.launchSwapAtCfgswap, 2)]) :
    exec i s = .next (loadNext s i mode) := by
  simp only [List.mem_cons, List.not_mem_nil, or_false, Prod.mk.injEq] at h
  rcases h with ⟨rfl, rfl⟩ | ⟨rfl, rfl⟩ <;> rfl
theorem measure_memory {n : Nat} {digest : BitVec 256} {m : Nat} {f : Region → Region} {due : Nat} {op : Instr} {args : EvArgs} :
    SameMemory s (schedule (modRegion (measure s n digest) m f) due op args) := sameMemory_of rfl rfl rfl rfl rfl
theorem measure_region {n : Nat} {digest : BitVec 256} {m : Nat} {f : Region → Region} {due : Nat} {op : Instr} {args : EvArgs} :
    regionOf (schedule (modRegion (measure s n digest) m f) due op args) m = f (regionOf s m) := regionOf_modRegion
end

/-! ## WAIT -/

section
variable {s u : State} {q idx : Nat} {p : Packet} (hx : s.ev.x = q) (hy : s.ev.y = idx) (hwait : waitHead s q idx = some p)
include hx hy hwait

theorem wait_queueDone (hkind : inPacket p.bytes 16 1 = 0) (hdone : waitHolds s p = true) :
    Runs .wait s fun t => t = { s with agenda := t.agenda } ∧ LaterOf t .packetDispatch 0 0 0 := by
  refine ⟨_, execWait_queue hx hy hwait hkind, ?_⟩
  rw [if_pos hdone]
  exact ⟨pokeQueues_eq, laterOf_pokeQueues⟩
theorem wait_queueOpen (hkind : inPacket p.bytes 16 1 = 0) (hopen : waitHolds s p = false) : exec .wait s = .next s := by
  refine (execWait_queue hx hy hwait hkind).trans ?_
  rw [hopen]
  rfl
theorem wait_memory (hkind : inPacket p.bytes 16 1 ≠ 0) :
    Runs .wait s fun t => t = { s with agenda := t.agenda } ∧ LaterOf t .waitPoll q idx s.ev.z := by
  refine ⟨_, execWait_memory hx hy hwait hkind, scheduleOnce_eq, ?_⟩
  have hlater := laterOf_scheduleOnce (s := s) (due := s.now) (op := .waitPoll) (args := s.ev)
  rwa [hx, hy] at hlater
theorem wait_polled {a : Nat} {bs : List Byte} (haddr : locAddress (queueLoc (queueOf s q)) (inPacket p.bytes 24 8) = some a)
    (hread : queueRead s q (queueLoc (queueOf s q)) a 8 3 = (.got bs, u)) :
    Runs .waitPoll s fun t => SameMemory u t ∧ Later t .waitPoll q idx (u.now + 1000) ∧
      (wordMeets p (leNat bs) = true → LaterOf t .packetDispatch 0 0 0) ∧
      queueOf t q = touched (queueOf u q) idx (fun e => { e with progress := ofBool (wordMeets p (leNat bs)) }) := by
  have hev : u.ev = s.ev := by
    have := queueRead_ev (s := s) (q := q) (virt := queueLoc (queueOf s q)) (a := a) (n := 8) (m := 3)
    rwa [hread] at this
  refine ⟨_, execWaitPoll_read hx hy hwait haddr hread, polledWait_memory, ?_, fun hmet => ?_, polledWait_queue⟩
  · have hlater := later_schedule (due := u.now + 1000) (op := .waitPoll) (args := u.ev) (s :=
      if wordMeets p (leNat bs) then pokeQueues (notedWait u q idx (wordMeets p (leNat bs)))
      else notedWait u q idx (wordMeets p (leNat bs)))
    rwa [show u.ev.x = q by rw [hev, hx], show u.ev.y = idx by rw [hev, hy]] at hlater
  · rw [hmet]
    exact polledWait_dispatch
end

/-! ## The statement -/

/-- Settles O53: the checks of an image in order, the first rectangle that fits, what a placement and a shadow load write, what a WAIT
tests. -/
theorem launchesArePlaced : Obligations.LaunchesArePlaced := by
  refine ⟨fun s q img hreject => ?_, fun s u q idx p bs hx hy hhead hidx hplaced hprog htype hmode himg => ?_,
    fun s img p other x0 y0 h => findOrigin_first h,
    fun s u q n p bs pl a b ts plan hx hhead hst hoff htype hmode hplaced hprog hok himg hkeep hn hfree hfirst => ?_,
    fun i mode hi s u q idx n p bs pl ts plan hx hy hpacket hslot himg hkeep hfold => ?_,
    fun s n h hx hnext hload hst hstop => ?_, fun s q idx p hx hy hhead hidx htype hprog => ?_,
    fun s q p hhead => ⟨fun h => ?_, fun h hst hoff hok hprog htype => ?_⟩⟩
  · rw [imageRefused_eq hreject]
    refine ⟨fun h => if_pos h, fun h hq => ?_, fun h hq hno => ?_, fun h hq hgrade hsmall => ?_⟩
    · rw [if_neg (not_not.mpr h), if_pos hq]
    · rw [if_neg (not_not.mpr h), if_neg (not_not.mpr hq), if_pos hno]
    · rw [if_neg (not_not.mpr h), if_neg (not_not.mpr hq), if_neg (by rintro (hlow | hbig); exacts [by omega, hbig hsmall])]
  · have hask : AsksRegion p := ⟨htype, hmode, hplaced, hprog⟩
    refine ⟨fun h => ⟨_, execLaunch_accepted hx hy hhead hidx hask himg h, scheduleOnce_eq, laterOf_scheduleOnce⟩, fun c h => ?_⟩
    exact ⟨_, execLaunch_refused hx hy hhead hidx hask himg h, settleHead_dispatch, settleHead_memory, settleHead_queue⟩
  · have hplace : Placeable s u q n p bs := ⟨hx, hhead, hst, hoff, ⟨htype, hmode, hplaced, hprog⟩, hok, himg, hkeep,
      findSlot_free hn hfree hfirst⟩
    refine ⟨placement_waits hplace, fun hfound hseats hplan =>
      ⟨placement_crowded hplace hfound hseats hplan, fun hdepths hrates => ?_⟩⟩
    obtain ⟨t, ht, ⟨ks, un, hregion⟩, hdispatch, hactive, hqueue⟩ := placement_takes hplace hfound hseats hplan hdepths hrates
    refine ⟨t, ht, ?_⟩
    simp only [hregion, placedRegion, asksDup, beq_eq_decide, true_and]
    exact ⟨hdispatch, hactive, hqueue⟩
  · refine ⟨fun h => ⟨_, exec_swap hi, ?_⟩, fun hlive hdead hw hh hnext hseats hplan => ⟨fun h => ⟨_, exec_swap hi, ?_⟩,
      fun hdepths hrates => ⟨_, exec_swap hi, ?_⟩⟩⟩
    · rw [loadNext_unfit hx hy hpacket hslot himg hkeep hfold h]
      exact ⟨completing_complete, rfl⟩
    · rw [loadNext_fits hx hy hpacket hslot himg hkeep hfold hlive hdead hw hh hnext hseats hplan, Bool.and_eq_false_iff.mpr h]
      exact ⟨completing_complete, rfl⟩
    · rw [loadNext_fits hx hy hpacket hslot himg hkeep hfold hlive hdead hw hh hnext hseats hplan, hdepths, hrates, Bool.and_self,
        if_pos rfl]
      exact ⟨measure_memory, later_schedule, measure_region⟩
  · refine ⟨_, execShadowLoadEnd_loaded hx hnext hload hst hstop, ?_, fun k hk => ?_⟩
    · rw [regionOf_modRegion, regionOf_of_slots loadShadow_slots]
    · have hcore := coreOf_loadShadow (s := s) (ts := h.seats) k
      rw [if_pos hk] at hcore
      rw [show coreOf (modRegion _ n _) k = _ from hcore]
      exact ⟨rfl, rfl⟩
  · have hwait := waitHead_eq hhead hidx htype hprog
    have hholds (hkind : inPacket p.bytes 16 1 = 0) : waitHolds s p = true ↔
        ((queueOf s (inPacket p.bytes 18 2)).cidx - BitVec.ofNat 16 (inPacket p.bytes 20 2) - 1).toNat < 2 ^ 15 := by
      rw [waitHolds_iff]
      simp [hkind]
    refine ⟨fun hkind hdone => wait_queueDone hx hy hwait hkind ((hholds hkind).mpr hdone), fun hkind hdone => ?_,
      fun hkind => wait_memory hx hy hwait hkind, fun a u bs haddr hread => ?_⟩
    · exact wait_queueOpen hx hy hwait hkind (Bool.eq_false_iff.mpr ((hholds hkind).not.mpr hdone))
    · obtain ⟨t, ht, hmem, hlater, hdispatch, hqueue⟩ := wait_polled hx hy hwait haddr hread
      refine ⟨t, ht, hmem, hlater, fun hmet => ?_, fun hmet => ?_⟩
      · rw [wordMeets_iff.mpr hmet] at hdispatch hqueue
        exact ⟨hdispatch rfl, hqueue⟩
      · have hmissed : wordMeets p (leNat bs) = false := Bool.eq_false_iff.mpr (wordMeets_iff.not.mpr hmet)
        rwa [hmissed] at hqueue
  · have hnone := readyHead_fenced hhead h
    exact ⟨hnone, by rw [dispatchable, hnone]; rfl⟩
  · rw [readyHead_wait hhead h hst hoff hok hprog htype]
    simp only [waitHolds_iff]

end Sys2Proof.Machine
end

