-- ==== Sys2Proof/Proofs/LocalTransfers.lean ====
section
/-! PROOF. Loads, stores, gathers and scatters of local memory: the bytes they read and stage, lane by lane (05_core_memory, R147, R148,
R150 to R152). -/
namespace Sys2Proof.Machine
open Sys2Proof.Claims

/-! ## Bytes and numbers -/

theorem leNat_of_bytes {n v : Nat} {f : Nat → Byte} (hv : v < 256 ^ n) (hf : ∀ i < n, v / 256 ^ i % 256 = (f i).toNat) :
    leNat ((List.range n).map f) = v := by
  induction n generalizing v f with
  | zero => simp only [pow_zero, Nat.lt_one_iff] at hv; simp [leNat, hv]
  | succ n ih =>
    have hrest : leNat ((List.range n).map (fun i => f (i + 1))) = v / 256 := by
      refine ih (Nat.div_lt_of_lt_mul (by rw [← pow_succ']; exact hv)) fun i hi => ?_
      rw [Nat.div_div_eq_div_mul, ← pow_succ']
      exact hf (i + 1) (by omega)
    have hlow : v % 256 = (f 0).toNat := by simpa using hf 0 (by omega)
    rw [List.range_succ_eq_map, List.map_cons, List.map_map, leNat, ← hlow]
    exact (congrArg (v % 256 + 256 * ·) hrest).trans (Nat.mod_add_div v 256)
theorem placed_leBytes (a n x : Nat) :
    placed a (leBytes n x) = (List.range n).map (fun i => (a + i, BitVec.ofNat 8 (x / 256 ^ i))) := by
  induction n generalizing a x with
  | zero => rfl
  | succ n ih =>
    rw [leBytes, placed, ih, List.range_succ_eq_map, List.map_cons, List.map_map]
    simp only [pow_zero, Nat.div_one, Nat.add_zero, Function.comp_def, Nat.succ_eq_add_one, pow_succ', Nat.div_div_eq_div_mul,
      Nat.add_assoc, Nat.add_comm 1]
theorem byteAt_eq {n : Nat} (x : BitVec n) (i : Nat) : byteAt x i = BitVec.ofNat 8 (x.toNat / 256 ^ i) := by
  rw [byteAt, BitVec.extractLsb', Nat.shiftRight_eq_div_pow, pow_mul]
  rfl

/-- The effective offset: the base plus the signed displacement (R150). -/
theorem add_signExtend_eq_offsetBy {n : Nat} (x : W64) (off : BitVec n) : x + off.signExtend 64 = offsetBy x off := by
  rw [offsetBy, wordI, BitVec.ofInt_add, BitVec.ofInt_toInt, BitVec.signExtend]
theorem effective_eq (x : W64) (off : BitVec 20) : effective x off = offsetBy x off := add_signExtend_eq_offsetBy x off

section
variable {s : State} {w w' : Work}

/-! ## Reading and staging a range -/

section
variable {off n : Nat}

theorem rangeBad_iff : rangeBad s off n = false ↔ Sound s off n := by
  simp only [rangeBad, Sound, List.any_eq_false, List.mem_range, Bool.and_eq_true, decide_eq_true_eq, List.contains_iff_mem, not_and]
theorem gives_localRead {v : Nat} (hsound : Sound s off n) (hv : ReadsAs s w off n v) :
    Gives (localRead s off n) w v (correcting s w off n) := by
  obtain ⟨hlt, hbytes⟩ := hv
  rw [← leNat_of_bytes hlt hbytes]
  exact gives_bind gives_get (gives_bind (gives_need (by rw [rangeBad_iff.mpr hsound]; rfl)) (gives_bind gives_modify gives_pure))
theorem stops_localRead (h : ¬ Sound s off n) : Stops (localRead s off n) w (plainAbort 0x07 0) w :=
  stops_bind_gives gives_get (stops_bind (stops_need (by rw [Bool.not_eq_false', ← Bool.not_eq_false, rangeBad_iff]; exact h)))

end

theorem gives_localWrite {bs ps : List (Nat × Byte)} (hps : bs.map (fun b => (bodyOffset s b.1, b.2)) = ps) (h : w.entries < 32) :
    Gives (localWrite s bs) w () (storing w ps) := by
  subst hps
  exact gives_bind (gives_entry h) gives_modify
theorem stops_localWrite {bs : List (Nat × Byte)} (h : 32 ≤ w.entries) : Stops (localWrite s bs) w (plainAbort 0x0B 0) w :=
  stops_bind (stops_entry h)
theorem placed_bytesAt {m : Nat} (off n : Nat) (x : BitVec m) :
    (placed off (leBytes n x.toNat)).map (fun b => (bodyOffset s b.1, b.2)) = bytesAt s off n x := by
  simp only [placed_leBytes, bytesAt, List.map_map, Function.comp_def, byteAt_eq]

end

/-! ## Loads and stores -/

section
variable {s : State} {o : Outcome} {opc : BitVec 8} {a : Opd} {keep : Bool} {x : W64} {sa : Sideband} {ea : W64} {n : Nat} {w1 w2 w3 : Work}

/-- A load, from its address operand on: address, checks, bytes, result (R150, R151). -/
theorem load_outcomes {f : W64 × Sideband → Body Unit} {result : Nat → Body Unit} {v : Nat} (hoff : Disarmed s) (hn : 0 < n)
    (ho : o = runBody s opc .plain 2 2 (readS s a keep >>= f)) (ha : Gives (readS s a keep) (start s opc) (x, sa) w1)
    (hf : f (x, sa) = do checkedAddress s ea; checkAccess s ea n n; result (← localRead s ea.toNat n)) :
    (Verdict s w1 ea n n none → Sound s ea.toNat n → ReadsAs s w1 ea.toNat n v →
      Gives (result v) (correcting s w1 ea.toNat n) () w2 → o = .next (bodyWent s (w2.advance 2 2))) ∧
    (∀ c, Verdict s w1 ea n n (some c) → o = AbortsAt s w1 2 (plainAbort c ea)) ∧
    (Verdict s w1 ea n n none → ¬ Sound s ea.toNat n → o = AbortsAt s w1 2 (plainAbort 0x07 0)) := by
  subst ho
  have haddr := gives_checkedAddress (s := s) (readS_disarmed ha hoff) ea
  refine ⟨fun hok hsound hv hr => runBody_gives (gives_bind ha ?_), fun c hbad => runBody_stops (stops_bind_gives ha ?_),
    fun hok hue => runBody_stops (stops_bind_gives ha ?_)⟩
  all_goals rw [hf]
  · exact gives_bind haddr (gives_bind (gives_checkAccess hn hok) (gives_bind (gives_localRead hsound hv) hr))
  · exact stops_bind_gives haddr (stops_bind (stops_checkAccess hn hbad))
  · exact stops_bind_gives haddr (stops_bind_gives (gives_checkAccess hn hok) (stops_bind (stops_localRead hue)))
/-- A store, from its two operands on: address, checks, one entry of the commit buffer (R148, R150, R151). -/
theorem store_outcomes {α : Type} {f : W64 × Sideband → Body Unit} {data : Body (α × Sideband)} {g : α × Sideband → Body Unit} {y : α}
    {sb : Sideband} {al : Nat} {put : Body Unit} (hn : 0 < n)
    (ho : o = runBody s opc .plain 2 1 (readS s a keep >>= f)) (ha : Gives (readS s a keep) (start s opc) (x, sa) w1)
    (hf : f (x, sa) = data >>= g) (hb : Gives data w1 (y, sb) w2) (hoff : bits w2.inj 7 0 = 0)
    (hg : g (y, sb) = do checkedAddress s ea; checkAccess s ea n al; put)
    (hput : w2.entries < 32 → Gives put w2 () w3) (hfull : 32 ≤ w2.entries → Stops put w2 (plainAbort 0x0B 0) w2) :
    (Verdict s w2 ea n al none → w2.entries < 32 → o = .next (bodyWent s (w3.advance 2 1))) ∧
    (∀ c, Verdict s w2 ea n al (some c) → o = AbortsAt s w2 1 (plainAbort c ea)) ∧
    (Verdict s w2 ea n al none → 32 ≤ w2.entries → o = AbortsAt s w2 1 (plainAbort 0x0B 0)) := by
  subst ho
  have haddr := gives_checkedAddress (s := s) hoff ea
  refine ⟨fun hok hroom => runBody_gives (gives_bind ha ?_), fun c hbad => runBody_stops (stops_bind_gives ha ?_),
    fun hok hroom => runBody_stops (stops_bind_gives ha ?_)⟩
  all_goals rw [hf]
  · refine gives_bind hb ?_
    rw [hg]
    exact gives_bind haddr (gives_bind (gives_checkAccess hn hok) (hput hroom))
  · refine stops_bind_gives hb ?_
    rw [hg]
    exact stops_bind_gives haddr (stops_bind (stops_checkAccess hn hbad))
  · refine stops_bind_gives hb ?_
    rw [hg]
    exact stops_bind_gives haddr (stops_bind_gives (gives_checkAccess hn hok) (hfull hroom))

end

theorem localLoadResults : LocalLoadResults := by
  intro s a d e t xw xoff x sa v w1 w2 hoff
  dsimp only
  rw [← effective_eq]
  exact ⟨fun ha => load_outcomes (result := fun v => resultS s d e ⟨t, 0, sa, 0⟩ (word v)) hoff (Nat.two_pow_pos _) rfl ha rfl,
    fun ha => load_outcomes (result := fun v => resultV s d e ⟨t, 0, sa, 0⟩ (BitVec.ofNat 512 v)) hoff (by omega) rfl ha rfl⟩

/-- One half of a byte replaced (R148). -/
theorem half_replaced (old : Byte) (y : W64) (high : BitVec 1) :
    (if high == 1 then putBits old 7 4 y.toNat else putBits old 3 0 y.toNat) =
      BitVec.ofNat 8 (if high = 1 then field y 0 4 * 16 + old.toNat % 16 else old.toNat / 16 * 16 + field y 0 4) := by
  have hold := old.isLt
  by_cases h : high = 1
  · simp only [h, beq_self_eq_true, if_true, putBits, field, pow_zero, Nat.div_one]
    exact congrArg _ (by omega)
  · simp only [beq_eq_false_iff_ne.mpr h, h, Bool.false_eq_true, if_false, putBits, field, pow_zero, Nat.div_one]
    exact congrArg _ (by omega)

theorem low_half (y : W64) : y.extractLsb' 0 4 = BitVec.ofNat 4 (field y 0 4) := by
  rw [slice_zero_eq_ofNat, field, pow_zero, Nat.div_one]
  apply BitVec.eq_of_toNat_eq
  simp
/-- The bytes of a vector that a store under lm stages: those of the lanes that take part (R151). -/
theorem placed_lanes {s : State} (w : Work) (off : Nat) (m : BitVec 1) (v : V512) :
    ((placed off (vBytes v)).filter (fun p => m == 0 || bitAt w.lm ((p.1 - off) / 4))).map (fun b => (bodyOffset s b.1, b.2)) =
      ((List.range 64).filter (fun i => m = 0 || w.lm.getLsbD (i / 4))).map (fun i => (bodyOffset s (off + i), byteAt v i)) := by
  simp only [vBytes, placed_leBytes, List.filter_map, List.map_map, Function.comp_def, Nat.add_sub_cancel_left, byteAt_eq,
    bitAt_eq_getLsbD]
  rfl

theorem localStoreResults : LocalStoreResults := by
  intro s a b t xw xoff xb x y v sa sb w1 w2 hoff
  dsimp only
  rw [← effective_eq]
  refine ⟨fun ha hb => ?_, fun ha hb => ?_, fun ha hb => ?_⟩
  · exact store_outcomes (Nat.two_pow_pos _) rfl ha rfl hb (readS_disarmed hb (readS_disarmed ha hoff)) rfl
      (gives_localWrite (placed_bytesAt ..)) stops_localWrite
  · rw [← half_replaced, ← low_half]
    exact store_outcomes (by omega) rfl ha rfl hb (readS_disarmed hb (readS_disarmed ha hoff)) rfl
      (fun h => gives_bind gives_get (gives_bind (gives_entry h) gives_modify)) (fun h => stops_bind_gives gives_get (stops_bind (stops_entry h)))
  · exact store_outcomes (by omega) rfl ha rfl hb (readV_disarmed hb (readS_disarmed ha hoff)) rfl
      (fun h => gives_bind gives_get (gives_localWrite (placed_lanes ..) h)) (fun h => stops_bind_gives gives_get (stops_localWrite h))

/-- Settles O14: each load and store runs its address, its checks and its bytes in that order. -/
theorem localLoadsAndStores : Obligations.LocalLoadsAndStores := ⟨localLoadResults, localStoreResults⟩

/-! ## Lanes -/

theorem ite_eq_of {α : Type} {c : Prop} [Decidable c] {a b x : α} (ha : c → a = x) (hb : ¬ c → b = x) : (if c then a else b) = x := by
  split
  next h => exact ha h
  next h => exact hb h
theorem getLsbD_ofLanes (f : Nat → W32) {j : Nat} (hj : j < 512) : (ofLanes f).getLsbD j = (f (j / 32)).getLsbD (j % 32) := by
  simp only [ofLanes, BitVec.getLsbD_append]
  have hat {k i : Nat} (hk : k = j / 32) (hi : i = j % 32) : (f k).getLsbD i = (f (j / 32)).getLsbD (j % 32) := by rw [hk, hi]
  repeat' refine ite_eq_of (fun _ => ?_) fun _ => ?_
  all_goals exact hat (by omega) (by omega)
/-- A vector is made of its lanes. -/
theorem eq_ofLanes {v : V512} {f : Nat → W32} (h : ∀ i < 16, lane v i = f i) : v = ofLanes f := by
  apply BitVec.eq_of_getLsbD_eq
  intro j hj
  rw [getLsbD_ofLanes f hj, ← h (j / 32) (by omega), lane, BitVec.getLsbD_extractLsb', decide_eq_true (Nat.mod_lt j (by omega)),
    Bool.true_and, Nat.div_add_mod]

theorem indexedAddress_eq (x : W64) (off : BitVec 20) (idx : V512) (i : Nat) : indexedAddress x off idx i = laneOffset x off idx i := by
  simp only [indexedAddress, effective, laneOffset, wordI, BitVec.ofInt_add, BitVec.ofInt_toInt, BitVec.signExtend]
theorem mem_indexedLanes {w : Work} {m : BitVec 1} {i : Nat} : i ∈ indexedLanes w m ↔ Takes w m i := by
  simp only [indexedLanes, Takes, List.mem_filter, List.mem_range, Bool.or_eq_true, beq_iff_eq, bitAt_eq_getLsbD]
theorem indexedLanes_rising (w : Work) (m : BitVec 1) : (indexedLanes w m).Pairwise (· < ·) :=
  List.Pairwise.filter _ List.pairwise_lt_range

section
variable {s : State} {w : Work} {x : W64} {off : BitVec 20} {idx : V512} {n : Nat}

theorem gives_checkIndexed {l : List Nat} (hoff : bits w.inj 7 0 = 0) (hn : 0 < n)
    (h : ∀ i ∈ l, Verdict s w (laneOffset x off idx i) n n none) : Gives (checkIndexed s x off idx n l) w () w := by
  induction l with
  | nil => exact gives_pure
  | cons i r ih =>
    rw [List.forall_mem_cons, ← indexedAddress_eq] at h
    exact gives_bind (gives_checked hoff ..) (gives_bind (gives_checkAccess hn h.1) (ih h.2))
/-- The first lane whose check fails sets the abort (R152). -/
theorem stops_checkIndexed {l : List Nat} {i : Nat} {c : BitVec 8} (hoff : bits w.inj 7 0 = 0) (hn : 0 < n) (hl : l.Pairwise (· < ·))
    (hi : i ∈ l) (hbefore : ∀ k ∈ l, k < i → Verdict s w (laneOffset x off idx k) n n none)
    (hbad : Verdict s w (laneOffset x off idx i) n n (some c)) :
    Stops (checkIndexed s x off idx n l) w (plainAbort c (laneOffset x off idx i)) w := by
  induction l with
  | nil => simp at hi
  | cons j r ih =>
    obtain ⟨hj, hr⟩ := List.pairwise_cons.mp hl
    rw [List.forall_mem_cons] at hbefore
    refine stops_bind_gives (gives_checked hoff ..) ?_
    obtain rfl | hi := List.mem_cons.mp hi
    · rw [indexedAddress_eq]
      exact stops_bind (stops_checkAccess hn hbad)
    · rw [indexedAddress_eq]
      exact stops_bind_gives (gives_checkAccess hn (hbefore.1 (hj i hi))) (ih hr hi hbefore.2)

end

/-- What a gather delivers, from what it reads lane by lane (R152). -/
theorem gathered_eq {s : State} {w : Work} {m : BitVec 1} {ea : Nat → W64} {n : Nat} {r : V512}
    (hout : ∀ i < 16, ¬ Takes w m i → lane r i = 0) (hin : ∀ i, Takes w m i → ReadsAs s w (ea i).toNat n (lane r i).toNat) :
    r = ofLanes (fun i => if (indexedLanes w m).contains i
      then BitVec.ofNat 32 (leNat ((List.range n).map (fun k => bodyByte s w ((ea i).toNat + k)))) else 0) := by
  refine eq_ofLanes fun i hi => ?_
  by_cases h : Takes w m i
  · obtain ⟨hlt, hbytes⟩ := hin i h
    rw [if_pos (List.contains_iff_mem.mpr (mem_indexedLanes.mpr h)), leNat_of_bytes hlt hbytes, BitVec.ofNat_toNat, BitVec.setWidth_eq]
  · rw [if_neg (by rw [List.contains_iff_mem, mem_indexedLanes]; exact h), hout i hi h]

section
variable {s : State} {a b d e : Opd} {t : Tag} {xw : BitVec 2} {xm : BitVec 1} {xoff : BitVec 20} {x : W64} {y idx : V512}
  {sa sb : Sideband} {w1 w2 w3 : Work} (hoff : Disarmed s) (hxw : xw = 1 ∨ xw = 2)
include hoff hxw

theorem gather_lanes {r : V512} (ha : Gives (readS s a (keepIn t)) (start s 0xC5) (x, sa) w1)
    (hb : Gives (readV s b (keepIn t)) w1 (idx, sb) w2) :
    let n := 2 ^ xw.toNat
    let ea := laneOffset x xoff idx
    ((∀ i, Takes w2 xm i → Verdict s w2 (ea i) n n none ∧ Sound s (ea i).toNat n) → (∀ i < 16, ¬ Takes w2 xm i → lane r i = 0) →
      (∀ i, Takes w2 xm i → ReadsAs s w2 (ea i).toNat n (lane r i).toNat) →
      Gives (resultV s d e ⟨t, 0, sa, sb⟩ r)
        { w2 with corr := w2.corr + ((indexedLanes w2 xm).map (fun i => correctedWords s (ea i).toNat n)).sum } () w3 →
      exec (.vldx a b d e t xw xm xoff) s = .next (bodyWent s (w3.advance 2 4))) ∧
    ((∀ i, Takes w2 xm i → Verdict s w2 (ea i) n n none) → (∃ i, Takes w2 xm i ∧ ¬ Sound s (ea i).toNat n) →
      exec (.vldx a b d e t xw xm xoff) s = AbortsAt s w2 4 (plainAbort 0x07 0)) ∧
    (∀ i c, Takes w2 xm i → (∀ k < i, Takes w2 xm k → Verdict s w2 (ea k) n n none) → Verdict s w2 (ea i) n n (some c) →
      exec (.vldx a b d e t xw xm xoff) s = AbortsAt s w2 4 (plainAbort c (ea i))) := by
  have hwidth : (xw == 1 || xw == 2) = true := by revert xw; decide
  have hpos : 0 < 2 ^ xw.toNat := Nat.two_pow_pos _
  have hoff2 : bits w2.inj 7 0 = 0 := readV_disarmed hb (readS_disarmed ha hoff)
  have hplace : indexedAddress x xoff idx = laneOffset x xoff idx := funext (indexedAddress_eq x xoff idx)
  refine ⟨fun hok hout hin hr => ?_, fun hok hue => ?_, fun i c hi hbefore hbad => ?_⟩
  · rw [← hplace] at hin hr hok
    rw [gathered_eq hout hin] at hr
    refine runBody_gives (gives_bind (gives_need hwidth) (gives_bind ha (gives_bind hb (gives_bind gives_get
      (gives_bind (gives_checkIndexed hoff2 hpos fun i hi => ?_) (gives_bind (gives_need ?_) (gives_bind gives_modify hr)))))))
    · rw [← hplace]
      exact (hok i (mem_indexedLanes.mp hi)).1
    · simp only [List.all_eq_true, Bool.not_eq_true', rangeBad_iff]
      exact fun i hi => (hok i (mem_indexedLanes.mp hi)).2
  · rw [← hplace] at hue
    obtain ⟨j, hj, hbad⟩ := hue
    refine runBody_stops (stops_bind_gives (gives_need hwidth) (stops_bind_gives ha (stops_bind_gives hb (stops_bind_gives gives_get
      (stops_bind_gives (gives_checkIndexed hoff2 hpos fun i hi => hok i (mem_indexedLanes.mp hi)) (stops_bind (stops_need ?_)))))))
    rw [List.all_eq_false]
    exact ⟨j, mem_indexedLanes.mpr hj, by rw [Bool.not_eq_true', rangeBad_iff]; exact hbad⟩
  · exact runBody_stops (stops_bind_gives (gives_need hwidth) (stops_bind_gives ha (stops_bind_gives hb (stops_bind_gives gives_get
      (stops_bind (stops_checkIndexed hoff2 hpos (indexedLanes_rising w2 xm) (mem_indexedLanes.mpr hi)
        (fun k hk hlt => hbefore k hlt (mem_indexedLanes.mp hk)) hbad))))))

theorem scatter_lanes {xix : BitVec 4} (ha : Gives (readS s a (keepIn t)) (start s 0xC6) (x, sa) w1)
    (hb : Gives (readV s b (keepIn t)) w1 (y, sb) w2) :
    let n := 2 ^ xw.toNat
    let ea := laneOffset x xoff (vget w2.v xix.toNat 0)
    ((∀ i, Takes w2 xm i → Verdict s w2 (ea i) n n none) → w2.entries < 32 →
      exec (.vstx a b t xw xm xix xoff) s = .next (bodyWent s ((storing w2
        ((indexedLanes w2 xm).flatMap (fun i => bytesAt s (ea i).toNat n (lane y i)))).advance 2 4))) ∧
    ((∀ i, Takes w2 xm i → Verdict s w2 (ea i) n n none) → 32 ≤ w2.entries →
      exec (.vstx a b t xw xm xix xoff) s = AbortsAt s w2 4 (plainAbort 0x0B 0)) ∧
    (∀ i c, Takes w2 xm i → (∀ k < i, Takes w2 xm k → Verdict s w2 (ea k) n n none) → Verdict s w2 (ea i) n n (some c) →
      exec (.vstx a b t xw xm xix xoff) s = AbortsAt s w2 4 (plainAbort c (ea i))) := by
  have hwidth : (xw == 1 || xw == 2) = true := by revert xw; decide
  have hpos : 0 < 2 ^ xw.toNat := Nat.two_pow_pos _
  have hoff2 : bits w2.inj 7 0 = 0 := readV_disarmed hb (readS_disarmed ha hoff)
  refine ⟨fun hok hroom => ?_, fun hok hfull => ?_, fun i c hi hbefore hbad => ?_⟩
  · refine runBody_gives (gives_bind (gives_need hwidth) (gives_bind ha (gives_bind hb (gives_bind gives_get
      (gives_bind (gives_checkIndexed hoff2 hpos fun i hi => hok i (mem_indexedLanes.mp hi)) (gives_localWrite ?_ hroom))))))
    simp only [List.map_flatMap, placed_bytesAt, indexedAddress_eq]
  · exact runBody_stops (stops_bind_gives (gives_need hwidth) (stops_bind_gives ha (stops_bind_gives hb (stops_bind_gives gives_get
      (stops_bind_gives (gives_checkIndexed hoff2 hpos fun i hi => hok i (mem_indexedLanes.mp hi)) (stops_localWrite hfull))))))
  · exact runBody_stops (stops_bind_gives (gives_need hwidth) (stops_bind_gives ha (stops_bind_gives hb (stops_bind_gives gives_get
      (stops_bind (stops_checkIndexed hoff2 hpos (indexedLanes_rising w2 xm) (mem_indexedLanes.mpr hi)
        (fun k hk hlt => hbefore k hlt (mem_indexedLanes.mp hk)) hbad))))))

end

/-- Settles O15: the lanes in order, the first that fails its check ahead of the others. -/
theorem gatherAndScatterResults : Obligations.GatherAndScatterResults := by
  refine ⟨fun s a b d e t xw xm xix xoff hxw => ?_, fun s a b d e t xw xm xoff x idx sa sb r w1 w2 w3 hoff hxw ha hb => ?_,
    fun s a b t xw xm xix xoff x y sa sb w1 w2 hoff hxw ha hb => ?_⟩
  · have hwidth : (xw == 1 || xw == 2) = false := by revert xw; decide
    exact ⟨runBody_stops (stops_bind (stops_need hwidth)), runBody_stops (stops_bind (stops_need hwidth))⟩
  · exact gather_lanes hoff hxw ha hb
  · exact scatter_lanes hoff hxw ha hb

end Sys2Proof.Machine
end

