-- ==== Sys2Proof/Proofs/RemoteIssue.lean ====
section
/-! PROOF. Split-phase requests and engine commands at issue: the resolved address, its checks, one entry of the command port
(04_core_compute, R123; 05_core_memory, R153 to R173; 13_package_memory, R354). -/
namespace Sys2Proof.Machine
open Sys2Proof.Claims

/-! ## Resolved addresses -/

theorem signed_eq_signExtend {n : Nat} (v : Nat) (hn : 0 < n) : signed v n = (BitVec.ofNat n v).signExtend 64 := by
  obtain ⟨k, rfl⟩ := Nat.exists_eq_add_of_lt hn
  have hhalf (m : Nat) : m < 2 ^ (0 + k + 1 - 1) ↔ 2 * m < 2 ^ (0 + k + 1) := by
    rw [Nat.add_sub_cancel, Nat.zero_add, pow_succ]
    omega
  rw [signed, wordI, BitVec.signExtend, BitVec.toInt_eq_toNat_cond, BitVec.toNat_ofNat]
  simp only [hhalf]
  norm_cast
theorem toInt_signed {n : Nat} (v : Nat) (hn : 0 < n) (h64 : n ≤ 64) : (signed v n).toInt = (BitVec.ofNat n v).toInt := by
  rw [signed_eq_signExtend v hn, BitVec.toInt_signExtend_of_le h64]

theorem resolveAddress_eq (c : Ctx) (a : W64) (n : Nat) : resolveAddress c a n = checkedPlace c a n := by
  have hspace : field a 62 2 < 4 := Nat.mod_lt _ (by omega)
  simp only [resolveAddress, checkedPlace, bits_eq_field a 63 62 2 rfl, bits_eq_field a 60 52 9 rfl, bits_eq_field a 51 44 8 rfl,
    bits_eq_field a 18 0 19 rfl, bits_eq_field a 43 19 25 rfl, bits_eq_field a 61 48 14 rfl, bits_eq_field a 47 0 48 rfl,
    bitAt_eq_getLsbD, toInt_signed (n := 9) _ (by omega) (by omega), toInt_signed (n := 8) _ (by omega) (by omega)]
  split
  next h => simp [h, word, and_assoc]
  next h => simp [h, and_assoc]
  next h => simp [h]
  next h0 h1 h2 => rw [if_neg h0, if_neg h1, if_neg h2]

section
variable {s : State} {w : Work} {a p : W64} {n al : Nat}

theorem space10Ok_iff : space10Ok s a n = true ↔ Row10 s a n := by
  rw [space10Ok, Row10, ← bits_eq_field a 61 58 4 rfl]
  generalize hrow : bits a 61 58 = row
  split
  case h_7 h0 h1 h2 h3 h4 h5 => 
    simp only [eq_false h0, eq_false h1, eq_false h2, eq_false h3, eq_false h4, eq_false h5, false_and, or_false, Bool.false_eq_true]
  all_goals simp [and_assoc, bits_eq_field a 57 48 10 rfl,
    bits_eq_field a 57 41 17 rfl, bits_eq_field a 40 0 41 rfl, bits_eq_field a 57 44 14 rfl, bits_eq_field a 43 0 44 rfl,
    bits_eq_field a 57 47 11 rfl, bits_eq_field a 29 19 11 rfl, bits_eq_field a 46 38 9 rfl, bits_eq_field a 18 0 19 rfl,
    bits_eq_field a 37 30 8 rfl, bits_eq_field a 57 54 4 rfl, bits_eq_field a 47 28 20 rfl, bits_eq_field a 27 0 28 rfl,
    bits_eq_field a 53 48 6 rfl, bits_eq_field a 57 57 1 rfl]

/-- The checks at issue pass only an address that they resolve, under the privilege and the row that it needs. -/
theorem remote_passed (h : Remote s a n al (.inl p)) : checkedPlace { bodyCtx s with priv := true } a n = some p ∧
    ¬ ((bodyCtx s).priv = false ∧ (field p 62 2 = 2 ∨ (field p 62 2 = 0 ∧ 0x60000 < field p 0 19 + n))) ∧
    (field p 62 2 = 2 → Row10 s p n) ∧ p.toNat % al = 0 := by
  unfold Remote at h
  split at h
  next => simp at h
  next q hq =>
    split at h
    next => simp at h
    next hpriv =>
      obtain ⟨-, -, h⟩ | ⟨hrow, ⟨-, h⟩ | ⟨hal, h⟩⟩ := h
      · simp at h
      · simp at h
      · cases h
        exact ⟨hq, hpriv, hrow, hal⟩

/-- The privilege of an access as its check computes it (R154). -/
theorem privilege_iff : (((bodyCtx s).priv || !(bits p 63 62 == 2 || (bits p 63 62 == 0 && decide (0x60000 < bits p 18 0 + n)))) = true) ↔
    ¬ ((bodyCtx s).priv = false ∧ (field p 62 2 = 2 ∨ (field p 62 2 = 0 ∧ 0x60000 < field p 0 19 + n))) := by
  rw [bits_eq_field p 63 62 2 rfl, bits_eq_field p 18 0 19 rfl]
  cases (bodyCtx s).priv <;> simp [imp_iff_not_or]
theorem row10_checked_iff : (bits p 63 62 != 2 || space10Ok s p n) = true ↔ (field p 62 2 = 2 → Row10 s p n) := by
  rw [bits_eq_field p 63 62 2 rfl, Bool.or_eq_true, bne_iff_ne, space10Ok_iff, imp_iff_not_or]

theorem remoteAddress_unresolved (h : checkedPlace { bodyCtx s with priv := true } a n = none) :
    Stops (remoteAddress s a n) w (plainAbort 0x09 a) w := by
  rw [remoteAddress, resolveAddress_eq, h]
  rfl
section
variable (hplace : checkedPlace { bodyCtx s with priv := true } a n = some p)
include hplace

theorem remoteAddress_resolved : remoteAddress s a n = (do
    need ((bodyCtx s).priv || !(bits p 63 62 == 2 || (bits p 63 62 == 0 && 0x60000 < bits p 18 0 + n))) cPriv a
    need (bits p 63 62 != 2 || space10Ok s p n) cRange a
    pure p) := by
  rw [remoteAddress, resolveAddress_eq, hplace]

end

theorem gives_remoteAddress (h : Remote s a n al (.inl p)) : Gives (remoteAddress s a n) w p w := by
  obtain ⟨hplace, hpriv, hrow, -⟩ := remote_passed h
  rw [remoteAddress_resolved hplace]
  exact gives_bind (gives_need (privilege_iff.mpr hpriv)) (gives_bind (gives_need (row10_checked_iff.mpr hrow)) gives_pure)
/-- A failed check at issue: before the alignment, or the alignment itself. -/
theorem remoteAddress_failed {c : BitVec 8} {i : W64} (h : Remote s a n al (.inr (c, i))) :
    Stops (remoteAddress s a n) w (plainAbort c i) w ∨ (c = 0x08 ∧ i.toNat % al ≠ 0 ∧ Gives (remoteAddress s a n) w i w) := by
  unfold Remote at h
  split at h
  next hplace => cases h; exact .inl (remoteAddress_unresolved hplace)
  next p hplace =>
    rw [remoteAddress_resolved hplace]
    split at h
    next hpriv =>
      cases h
      exact .inl (stops_bind (stops_need (Bool.eq_false_iff.mpr fun hc => privilege_iff.mp hc hpriv)))
    next hpriv =>
      have hgives := gives_need (c := cPriv) (i := a) (w := w) (privilege_iff.mpr hpriv)
      obtain ⟨hspace, hrow, h⟩ | ⟨hrow, ⟨hal, h⟩ | ⟨-, h⟩⟩ := h <;> cases h
      · exact .inl (stops_bind_gives hgives (stops_bind (stops_need (Bool.eq_false_iff.mpr fun hc => hrow (row10_checked_iff.mp hc hspace)))))
      · exact .inr ⟨rfl, hal, gives_bind hgives (gives_bind (gives_need (row10_checked_iff.mpr hrow)) gives_pure)⟩
theorem stops_remoteAddress {c : BitVec 8} {i : W64} (h : Remote s a n 1 (.inr (c, i))) :
    Stops (remoteAddress s a n) w (plainAbort c i) w :=
  (remoteAddress_failed h).resolve_right fun ⟨_, hal, _⟩ => hal (Nat.mod_one _)

section
variable (hoff : bits w.inj 7 0 = 0)
include hoff

theorem gives_splitAddress (h : Remote s a n n (.inl p)) : Gives (splitAddress s a n) w p w := by
  obtain ⟨-, -, -, hal⟩ := remote_passed h
  exact gives_bind (gives_checkedAddress hoff a) (gives_bind (gives_remoteAddress h) (gives_bind (gives_need (beq_iff_eq.mpr hal)) gives_pure))
theorem stops_splitAddress {c : BitVec 8} {i : W64} (h : Remote s a n n (.inr (c, i))) :
    Stops (splitAddress s a n) w (plainAbort c i) w := by
  refine stops_bind_gives (gives_checkedAddress hoff a) ?_
  obtain hstop | ⟨rfl, hal, hgives⟩ := remoteAddress_failed (w := w) h
  · exact stops_bind hstop
  · exact stops_bind_gives hgives (stops_bind (stops_need (beq_eq_false_iff_ne.mpr hal)))

end

/-! ## The command port -/

theorem stops_takeCp_port (h : 8 ≤ (bodyCtx s).cpUsed + vget w.push 4 0) : Stops (takeCp s) w (plainAbort 0x04 0) w :=
  stops_bind_gives gives_get (stops_bind (stops_need (decide_eq_false (by omega))))
theorem stops_takeCp_entry (h : (bodyCtx s).cpUsed + vget w.push 4 0 < 8) (hfull : 32 ≤ w.entries) :
    Stops (takeCp s) w (plainAbort 0x0B 0) w :=
  stops_bind_gives gives_get (stops_bind_gives (gives_need (decide_eq_true h)) (stops_bind (stops_entry hfull)))
theorem gives_takeCp (h : PortRoom s w) :
    Gives (takeCp s) w () { w with entries := w.entries + 1, push := vset w.push 4 (vget w.push 4 0 + 1) } :=
  gives_bind gives_get (gives_bind (gives_need (decide_eq_true h.1)) (gives_bind (gives_entry h.2) gives_modify))
theorem gives_stageRequest {kind : ReqKind} {rt : BitVec 6} {rpy : Bool} (h : PortRoom s w) :
    Gives (stageRequest s kind p rt rpy) w () (through w (requestOf s w kind p rt rpy)) :=
  gives_bind (gives_takeCp h) (gives_bind gives_get gives_stage)
theorem gives_stageCommand {tag : Option Nat} {op : CmdOp} (h : PortRoom s w) :
    Gives (stageCommand s tag op) w () (through w (commandOf s w tag op)) :=
  gives_bind (gives_takeCp h) (gives_bind gives_get gives_stage)

/-! ## Requests -/

theorem run_bind {α β : Type} {m : Body α} {f : α → Body β} {k : Body β} {w' : Work} {x : α} (hm : Gives m w x w') (hf : f x = k) :
    (m >>= f) w = k w' := by
  rw [Body.bind_ok hm, hf]
/-- An instruction that, once its operands are read, resolves its address and stages its request. -/
theorem issues_of_run {i : Instr} {opc : BitVec 8} {m : Body Unit} {kind : ReqKind} {rt : BitVec 6} {rpy : Bool}
    (hexec : exec i s = runBody s opc .plain 2 1 m) (hoff : bits w.inj 7 0 = 0)
    (hm : m (start s opc) = (splitAddress s a n >>= fun r => stageRequest s kind r rt rpy) w) : Issues s i w a n kind rt rpy := by
  rw [Issues, hexec]
  refine ⟨fun p hp hroom => runBody_gives ?_, fun c info hbad => runBody_stops ?_, fun p hp hport => runBody_stops ?_,
    fun p hp hport hfull => runBody_stops ?_⟩
  · exact hm.trans (gives_bind (gives_splitAddress hoff hp) (gives_stageRequest hroom))
  · exact hm.trans (stops_bind (stops_splitAddress hoff hbad))
  · exact hm.trans (stops_bind_gives (gives_splitAddress hoff hp) (stops_bind (stops_takeCp_port hport)))
  · exact hm.trans (stops_bind_gives (gives_splitAddress hoff hp) (stops_bind (stops_takeCp_entry hport hfull)))

end

theorem splitPhaseRequests : SplitPhaseRequests := by
  intro s a b t xw rt rpy xoff x y v sa sb w1 w2 hoff
  dsimp only
  rw [← effective_eq, ← ofScalar_eq_ofNat]
  refine ⟨fun ha => ?_, fun ha hb => ?_, fun ha => ?_, fun ha hb => ?_⟩
  · exact issues_of_run rfl (readS_disarmed ha hoff) (run_bind ha rfl)
  · exact issues_of_run rfl (readS_disarmed hb (readS_disarmed ha hoff)) ((run_bind ha rfl).trans (run_bind hb rfl))
  · exact issues_of_run rfl (readS_disarmed ha hoff) (run_bind ha rfl)
  · exact issues_of_run rfl (readV_disarmed hb (readS_disarmed ha hoff)) ((run_bind ha rfl).trans (run_bind hb rfl))

/-! ## Atomics -/

/-- The compare value of an atomic: CAS's register (R160). -/
def comparand (w : Work) (cmp : Option (BitVec 4)) : W64 := match cmp with | some k => vget w.s k.toNat 0 | none => 0
/-- An AMO of a sub-operation with its compare value, at its widths (R160). -/
theorem runAmo_issues {s : State} {i : Instr} {op : Nat} {cmp : Option (BitVec 4)} {a b : Opd} {t : Tag} {xw : BitVec 2} {rt : BitVec 6}
    {rpy : BitVec 1} {xoff : BitVec 15} {x y : W64} {sa sb : Sideband} {w1 w2 : Work}
    (hexec : exec i s = runAmo op cmp a b t xw rt rpy xoff s) (hoff : Disarmed s) (hwidth : amoWidthOk op xw = true)
    (ha : Gives (readS s a (keepIn t)) (start s 0xCB) (x, sa) w1) (hb : Gives (readS s b (keepIn t)) w1 (y, sb) w2) :
    Issues s i w2 (offsetBy x xoff) (2 ^ xw.toNat)
      (.amo op (2 ^ xw.toNat) y (comparand w2 cmp)) rt (rpy = 1) := by
  rw [← add_signExtend_eq_offsetBy]
  exact issues_of_run hexec (readS_disarmed hb (readS_disarmed ha hoff))
    ((run_bind (gives_need hwidth) rfl).trans ((run_bind ha rfl).trans ((run_bind hb rfl).trans (run_bind gives_get rfl))))
theorem runAmo_badWidth {s : State} {op : Nat} {cmp : Option (BitVec 4)} {a b : Opd} {t : Tag} {xw : BitVec 2} {rt : BitVec 6}
    {rpy : BitVec 1} {xoff : BitVec 15} (hwidth : amoWidthOk op xw = false) :
    runAmo op cmp a b t xw rt rpy xoff s = AbortsAt s (start s 0xCB) 1 (plainAbort 0x04 0) :=
  runBody_stops (stops_bind (stops_need hwidth))
theorem amoForm {mk : Opd → Opd → Tag → BitVec 2 → BitVec 6 → BitVec 1 → BitVec 15 → Instr} {op : Nat} {widths : List Nat}
    (hmk : ∀ a b t xw rt rpy xoff s, exec (mk a b t xw rt rpy xoff) s = runAmo op none a b t xw rt rpy xoff s)
    (hwidth : ∀ xw : BitVec 2, amoWidthOk op xw = decide (xw.toNat ∈ widths)) : AmoForm mk op widths := by
  intro s a b t xw rt rpy xoff x y sa sb w1 w2 hoff
  refine ⟨fun hxw ha hb => runAmo_issues (hmk ..) hoff ((hwidth xw).trans (decide_eq_true hxw)) ha hb, fun hxw => ?_⟩
  rw [hmk]
  exact runAmo_badWidth ((hwidth xw).trans (decide_eq_false hxw))

theorem atomicRequests : AtomicRequests := by
  refine ⟨amoForm (fun _ _ _ _ _ _ _ _ => rfl) (by decide), amoForm (fun _ _ _ _ _ _ _ _ => rfl) (by decide),
    amoForm (fun _ _ _ _ _ _ _ _ => rfl) (by decide), amoForm (fun _ _ _ _ _ _ _ _ => rfl) (by decide),
    amoForm (fun _ _ _ _ _ _ _ _ => rfl) (by decide), amoForm (fun _ _ _ _ _ _ _ _ => rfl) (by decide),
    amoForm (fun _ _ _ _ _ _ _ _ => rfl) (by decide), amoForm (fun _ _ _ _ _ _ _ _ => rfl) (by decide),
    amoForm (fun _ _ _ _ _ _ _ _ => rfl) (by decide), amoForm (fun _ _ _ _ _ _ _ _ => rfl) (by decide),
    amoForm (fun _ _ _ _ _ _ _ _ => rfl) (by decide), ?_⟩
  intro s a b t xw rt rpy k xoff x y sa sb w1 w2 hoff
  refine ⟨fun hxw ha hb => ?_, fun hxw => ?_⟩
  · have hwidth : amoWidthOk 9 xw = true := by revert xw; decide
    exact runAmo_issues (op := 9) (cmp := some k) rfl hoff hwidth ha hb
  · have hwidth : amoWidthOk 9 xw = false := by revert xw; decide
    exact runAmo_badWidth (op := 9) (cmp := some k) hwidth

/-- Settles O17: once its operands are read, every request resolves its address, then takes its entry of the port. -/
theorem remoteRequests : Obligations.RemoteRequests := ⟨splitPhaseRequests, atomicRequests⟩

end Sys2Proof.Machine
end

