-- ==== Sys2Proof/Proofs/EngineIssue.lean ====
section
/-! PROOF. Stream, copy, publish and prefetch commands at issue: their parameter blocks, their checks in order, what they stage
(02_rule, R54, R66; 05_core_memory, R162, R165, R170, R172, R173). -/
namespace Sys2Proof.Machine
open Sys2Proof.Claims

/-! ## Parameter blocks -/

section
variable {s : State} {w : Work} {off n v : Nat}

theorem readsAs_eq (h : ReadsAs s w off n v) : leNat ((List.range n).map (fun i => bodyByte s w (off + i))) = v := leNat_of_bytes h.1 h.2
theorem leNat_append (l r : List Byte) : leNat (l ++ r) = leNat l + 256 ^ l.length * leNat r := by
  induction l with
  | nil => simp [leNat]
  | cons b l ih =>
    rw [List.cons_append, leNat, ih, leNat, List.length_cons, pow_succ']
    ring
theorem leNat_lt (l : List Byte) : leNat l < 256 ^ l.length := by
  induction l with
  | nil => simp [leNat]
  | cons b l ih =>
    rw [leNat, List.length_cons, pow_succ']
    have := b.isLt
    omega
/-- Part of a range's bytes, as a number, is part of the whole range's number. -/
theorem leNat_part {f : Nat → Byte} {k m : Nat} (h : k + m ≤ n) :
    leNat ((List.range n).map f) / 256 ^ k % 256 ^ m = leNat ((List.range m).map (fun i => f (k + i))) := by
  obtain ⟨r, rfl⟩ := Nat.exists_eq_add_of_le h
  have hlow := leNat_lt ((List.range k).map f)
  have hmid := leNat_lt ((List.range m).map (fun i => f (k + i)))
  rw [List.length_map, List.length_range] at hlow hmid
  rw [Nat.add_assoc, List.range_add, List.range_add, List.map_append, leNat_append, List.map_append, List.map_append, leNat_append]
  simp only [List.length_map, List.length_range, List.map_map, Function.comp_def]
  rw [Nat.add_mul_div_left _ _ (by positivity), Nat.div_eq_of_lt hlow, Nat.zero_add, Nat.add_mul_mod_self_left, Nat.mod_eq_of_lt hmid]
theorem readsAs_part {k m u : Nat} (hu : ReadsAs s w (off + k) m u) (h : k + m ≤ n) :
    leNat ((List.range n).map (fun i => bodyByte s w (off + i))) / 256 ^ k % 256 ^ m = u := by
  rw [leNat_part h]
  simpa only [Nat.add_assoc] using readsAs_eq hu
/-- The number that a range reads as. -/
def rangeNat (s : State) (w : Work) (off n : Nat) : Nat := leNat ((List.range n).map (fun i => bodyByte s w (off + i)))
theorem word32_rangeNat {k u : Nat} (hu : ReadsAs s w (off + k) 4 u) (h : k + 4 ≤ n) : word32 (rangeNat s w off n) k = u := by
  rw [word32, Nat.shiftRight_eq_div_pow, show 2 ^ (8 * k) = 256 ^ k by rw [pow_mul]; rfl]
  exact readsAs_part hu h
theorem gives_localRead_range (h : Sound s off n) : Gives (localRead s off n) w (rangeNat s w off n) (correcting s w off n) :=
  gives_bind gives_get (gives_bind (gives_need (by rw [rangeBad_iff.mpr h]; rfl)) (gives_bind gives_modify gives_pure))

end

/-! ## The span of a nest -/

theorem toInt_ofNat_eq_stride {n : Nat} (h : n < 2 ^ 32) : (BitVec.ofNat 32 n).toInt = stride n := by
  rw [BitVec.toInt_eq_toNat_cond, BitVec.toNat_ofNat, Nat.mod_eq_of_lt h, stride]
  split_ifs <;> omega
/-- One step of the bounds of a nest (R162). -/
theorem boundStep_eq {c n : Nat} (hc : 1 ≤ c) (hn : n < 2 ^ 32) :
    Int.ofNat (c - 1) * (BitVec.ofNat 32 n).toInt = (Int.ofNat c - 1) * stride n := by
  rw [toInt_ofNat_eq_stride hn, Int.ofNat_eq_natCast, Int.ofNat_eq_natCast, Nat.cast_pred hc]
theorem foldl_bounds (l : List (Nat × W32)) (lo hi : Int) :
    l.foldl (fun acc p =>
      let d := Int.ofNat (p.1 - 1) * p.2.toInt
      (acc.1 + min 0 d, acc.2 + max 0 d)) (lo, hi) =
    (lo + (l.map (fun p => min 0 (Int.ofNat (p.1 - 1) * p.2.toInt))).sum, hi + (l.map (fun p => max 0 (Int.ofNat (p.1 - 1) * p.2.toInt))).sum) := by
  induction l generalizing lo hi with
  | nil => simp
  | cons p l ih => simp only [List.foldl_cons, ih, List.map_cons, List.sum_cons, Int.add_assoc]
theorem elementSize_eq (esz : BitVec 2) : elementSize esz = bytesOf esz := by revert esz; decide
theorem bytesOf_pos (esz : BitVec 2) : 0 < bytesOf esz := by revert esz; decide

theorem forall_mem_toList {α : Type} {n : Nat} {v : Vector α n} {P : α → Prop} : (∀ x ∈ v.toList, P x) ↔ ∀ k : Fin n, P v[k] := by
  simp only [List.forall_mem_iff_forall_getElem, Vector.length_toList, Vector.getElem_toList]
  exact ⟨fun h k => h k k.isLt, fun h k hk => h ⟨k, hk⟩⟩

/-- The counts of a stream's parameter block (R162). -/
def blockCounts (blk : Nat) : List Nat := (List.range 4).map (fun k => word32 blk (8 + 8 * k))
/-- The strides of a stream's parameter block (R162). -/
def blockStrides (blk : Nat) : List W32 := (List.range 4).map (fun k => BitVec.ofNat 32 (word32 blk (12 + 8 * k)))
/-- Counts in range and reserved words 0 (R162). -/
def blockFits (blk : Nat) : Bool :=
  (blockCounts blk).all (fun c => 1 ≤ c && c ≤ 65536) && word32 blk 4 == 0 && word32 blk 40 == 0 && word32 blk 44 == 0

section
variable {s : State} {w : Work} {at_ base r1 r2 : Nat} {cnt str : Vector Nat 4}

section
variable (h : BlockReads s w at_ base r1 r2 cnt str)
include h

theorem word32_base : word32 (rangeNat s w at_ 48) 0 = base := word32_rangeNat h.1 (by omega)
theorem blockCounts_eq : blockCounts (rangeNat s w at_ 48) = cnt.toList := by
  obtain ⟨-, -, -, hnest⟩ := h
  refine List.ext_getElem (by simp [blockCounts]) fun k hk hk' => ?_
  rw [blockCounts, List.length_map, List.length_range] at hk
  have hread := (hnest ⟨k, hk⟩).1
  rw [Nat.add_assoc] at hread
  simpa [blockCounts] using word32_rangeNat hread (by dsimp only; omega)
theorem blockStrides_eq : blockStrides (rangeNat s w at_ 48) = (str.map (fun n => BitVec.ofNat 32 n)).toList := by
  obtain ⟨-, -, -, hnest⟩ := h
  refine List.ext_getElem (by simp [blockStrides]) fun k hk hk' => ?_
  rw [blockStrides, List.length_map, List.length_range] at hk
  have hread := (hnest ⟨k, hk⟩).2
  rw [Nat.add_assoc] at hread
  simpa [blockStrides] using congrArg (BitVec.ofNat 32) (word32_rangeNat hread (by dsimp only; omega))
theorem stride_lt (k : Fin 4) : str[k] < 2 ^ 32 := (h.2.2.2 k).2.1
theorem blockFits_iff : blockFits (rangeNat s w at_ 48) = true ↔ r1 = 0 ∧ r2 = 0 ∧ ∀ k : Fin 4, 1 ≤ cnt[k] ∧ cnt[k] ≤ 65536 := by
  have hcounts := blockCounts_eq h
  obtain ⟨-, hr1, hr2, -⟩ := h
  have hsplit : word32 (rangeNat s w at_ 48) 40 = r2 % 2 ^ 32 ∧ word32 (rangeNat s w at_ 48) 44 = r2 / 2 ^ 32 := by
    have hread := readsAs_part hr2 (show 40 + 8 ≤ 48 by omega)
    have hlt : r2 < 256 ^ 8 := hr2.1
    simp only [word32, rangeNat, Nat.shiftRight_eq_div_pow]
    omega
  simp only [blockFits, Bool.and_eq_true, beq_iff_eq, hcounts, List.all_eq_true, decide_eq_true_eq, word32_rangeNat hr1 (show 4 + 4 ≤ 48 by omega),
    hsplit, forall_mem_toList (P := fun c => 1 ≤ c ∧ c ≤ 65536)]
  have hlt : r2 < 256 ^ 8 := hr2.1
  constructor
  · rintro ⟨⟨⟨hc, h1⟩, h2⟩, h3⟩
    exact ⟨h1, by omega, hc⟩
  · rintro ⟨h1, h2, hc⟩
    exact ⟨⟨⟨hc, h1⟩, by omega⟩, by omega⟩

/-- A stride off the element's size is found among the strides. -/
theorem strides_aligned_iff {size : Nat} : (blockStrides (rangeNat s w at_ 48)).find? (fun v => v.toNat % size != 0) = none ↔
    ∀ k : Fin 4, str[k] % size = 0 := by
  have hlt := stride_lt h
  rw [blockStrides_eq h, List.find?_eq_none, forall_mem_toList (P := fun v : W32 => ¬ (v.toNat % size != 0) = true)]
  refine forall_congr' fun k => ?_
  have hk : str[k.val] % 4294967296 = str[k.val] := Nat.mod_eq_of_lt (hlt k)
  simp [hk]

theorem nestBounds_eq (hc : ∀ k : Fin 4, 1 ≤ cnt[k]) :
    nestBounds base (blockCounts (rangeNat s w at_ 48)) (blockStrides (rangeNat s w at_ 48)) = (least base cnt str, greatest base cnt str) := by
  have hzip : cnt.toList.zip (str.map (fun n => BitVec.ofNat 32 n)).toList = (List.finRange 4).map (fun k => (cnt[k], BitVec.ofNat 32 str[k])) :=
    List.ext_getElem (by simp) fun k hk hk' => by simp
  have hstep (k : Fin 4) : Int.ofNat (cnt[k] - 1) * (BitVec.ofNat 32 str[k]).toInt = (Int.ofNat cnt[k] - 1) * stride str[k] :=
    boundStep_eq (hc k) (stride_lt h k)
  rw [blockCounts_eq h, blockStrides_eq h, nestBounds, hzip, foldl_bounds]
  simp only [List.map_map, Function.comp_def, hstep]
  rfl

end

theorem least_le_greatest : least base cnt str ≤ greatest base cnt str := by
  refine Int.add_le_add_left (List.sum_le_sum fun k _ => ?_) _
  omega
/-- The class check of a nest's span, block by block (R66). -/
theorem rangeInClasses_iff {lo hi : Int} (hlt : lo < hi) :
    rangeInClasses (bodyCtx s) w.hdrB lo hi = true ↔ SpanInClasses s w lo hi := by
  simp only [rangeInClasses, SpanInClasses, Bool.and_eq_true, decide_eq_true_eq, List.all_eq_true, List.mem_range, classHolds_iff, and_assoc]
  refine and_congr_right fun h0 => and_congr_right fun _ => ?_
  obtain ⟨n, hn⟩ : ∃ n, hi.toNat = lo.toNat + n := ⟨hi.toNat - lo.toNat, by omega⟩
  rw [hn, blocks_iff_bytes (P := InClass s w) (by omega) inClass_block]
  constructor
  · intro h b hb hb'
    have := h (b - lo.toNat) (by omega)
    rwa [show lo.toNat + (b - lo.toNat) = b by omega] at this
  · exact fun h i hi => h (lo.toNat + i) (by omega) (by omega)

theorem spanChecked_iff {size : Nat} (hsize : 0 < size) :
    rangeInClasses (bodyCtx s) w.hdrB (least base cnt str) (greatest base cnt str + Int.ofNat size) = true ↔
      SpanInClasses s w (least base cnt str) (greatest base cnt str + size) := by
  have hle : least base cnt str ≤ greatest base cnt str := least_le_greatest
  exact rangeInClasses_iff (Int.lt_of_le_of_lt hle (Int.lt_add_of_pos_right _ (Int.natCast_pos.mpr hsize)))

end

/-! ## Streams -/

/-- The binding that a parameter block names (R162). -/
def boundStream (at_ : W64) (dir : BitVec 1) (fmt : BitVec 3) (esz : BitVec 2) (blk : Nat) : Stream :=
  let at' := fun k => (blockCounts blk).getD k 1
  let by' := fun k => (blockStrides blk).getD k 0
  { Stream.reset with
    bound := true, dir := dir == 1, fmt := fmt, esz := esz, block := at_.toNat, base := word32 blk 0,
    cnt := #v[at' 0, at' 1, at' 2, at' 3], str := #v[by' 0, by' 1, by' 2, by' 3] }
/-- The alignment of the strides (R162). -/
def stridesAligned (strides : List W32) (size : Nat) : Body Unit :=
  match strides.find? (fun v => v.toNat % size != 0) with
  | some v => abortWith cAlign (v.zeroExtend 64)
  | none => pure ()

/-- The span of the nest checked and the binding staged (R162, R66). -/
def spanBound (s : State) (d : Opd) (hdrB : W64) (size : Nat) (blk : Nat) (st : Stream) : Body Unit := do
  let (lo, hi) := nestBounds (word32 blk 0) (blockCounts blk) (blockStrides blk)
  checkedAddress s (BitVec.ofInt 64 lo)
  checkedAddress s (BitVec.ofInt 64 hi)
  need (rangeInClasses (bodyCtx s) hdrB lo (hi + Int.ofNat size)) cClass
    (if rangeInClasses (bodyCtx s) hdrB lo (lo + 1) then BitVec.ofInt 64 hi else BitVec.ofInt 64 lo)
  stage (.stream (d.toNat - 24) st)
/-- STREAM once its parameter block is read (R162). -/
def blockBound (s : State) (d : Opd) (esz : BitVec 2) (blk : Nat) (st : Stream) : Body Unit := do
  let w ← get
  need (blockFits blk) cIllegalOperand 0
  need (word32 blk 0 % elementSize esz == 0) cAlign (BitVec.ofNat 64 (word32 blk 0))
  stridesAligned (blockStrides blk) (elementSize esz)
  spanBound s d w.hdrB (elementSize esz) blk st
/-- STREAM from its operand on (R162). -/
def streamBody (a d : Opd) (t : Tag) (dir : BitVec 1) (fmt : BitVec 3) (esz : BitVec 2) (s : State) : Body Unit := do
  let (x, _) ← readS s a (keepIn t)
  checkedAddress s x
  checkAccess s x 48 8
  let blk ← localRead s x.toNat 48
  blockBound s d esz blk (boundStream x dir fmt esz blk)
theorem execStream_eq (a d : Opd) (t : Tag) (dir : BitVec 1) (fmt : BitVec 3) (esz : BitVec 2) (s : State) :
    exec (.stream a d t dir fmt esz) s = runBody s 0xCC .plain 2 2 (streamBody a d t dir fmt esz s) := by
  have hstrides (l : List W32) (n : Nat) (k : Body Unit) : (stridesAligned l n >>= fun _ => k) =
      match l.find? (fun v => v.toNat % n != 0) with
      | some v => (abortWith cAlign (v.zeroExtend 64) : Body Unit) >>= fun _ => k
      | none => k := by
    rw [stridesAligned]
    split <;> rfl
  simp only [streamBody, blockBound, hstrides]
  rfl

theorem vector_of_toList {α : Type} (v : Vector α 4) (d : α) :
    #v[v.toList.getD 0 d, v.toList.getD 1 d, v.toList.getD 2 d, v.toList.getD 3 d] = v := by
  ext k hk
  interval_cases k <;> simp

section
variable {s : State} {w : Work} {base r1 r2 : Nat} {cnt str : Vector Nat 4} {x : W64}

theorem boundStream_eq (h : BlockReads s w x.toNat base r1 r2 cnt str) (dir : BitVec 1) (fmt : BitVec 3) (esz : BitVec 2) :
    boundStream x dir fmt esz (rangeNat s w x.toNat 48) =
      { Stream.reset with bound := true, dir := dir = 1, fmt := fmt, esz := esz, block := x.toNat, base := base,
                          cnt := cnt, str := str.map (fun n => BitVec.ofNat 32 n) } := by
  simp only [boundStream, word32_base h, blockCounts_eq h, blockStrides_eq h, vector_of_toList]
  rfl
theorem gives_stridesAligned {strides : List W32} {size : Nat} (h : strides.find? (fun v => v.toNat % size != 0) = none) :
    Gives (stridesAligned strides size) w () w := by
  rw [stridesAligned, h]
  exact gives_pure
theorem stops_stridesAligned {strides : List W32} {size : Nat} (h : strides.find? (fun v => v.toNat % size != 0) ≠ none) :
    ∃ info, Stops (stridesAligned strides size) w (plainAbort 0x08 info) w := by
  obtain ⟨v, hv⟩ := Option.ne_none_iff_exists'.mp h
  rw [stridesAligned, hv]
  exact ⟨_, rfl⟩

section
variable {d : Opd} {esz : BitVec 2} {st : Stream} (hblk : BlockReads s w x.toNat base r1 r2 cnt str)
include hblk

theorem blockBound_unfit (h : ¬ (r1 = 0 ∧ r2 = 0 ∧ ∀ k : Fin 4, 1 ≤ cnt[k] ∧ cnt[k] ≤ 65536)) :
    Stops (blockBound s d esz (rangeNat s w x.toNat 48) st) (correcting s w x.toNat 48) (plainAbort 0x04 0) (correcting s w x.toNat 48) :=
  stops_bind_gives gives_get (stops_bind (stops_need (Bool.eq_false_iff.mpr ((blockFits_iff hblk).not.mpr h))))

section
variable (hfits : r1 = 0 ∧ r2 = 0 ∧ ∀ k : Fin 4, 1 ≤ cnt[k] ∧ cnt[k] ≤ 65536)
include hfits

theorem blockBound_odd (h : ¬ (base % bytesOf esz = 0 ∧ ∀ k : Fin 4, str[k] % bytesOf esz = 0)) :
    ∃ info, Stops (blockBound s d esz (rangeNat s w x.toNat 48) st) (correcting s w x.toNat 48) (plainAbort 0x08 info)
      (correcting s w x.toNat 48) := by
  have hcounts := gives_need (c := cIllegalOperand) (i := 0) (w := correcting s w x.toNat 48) ((blockFits_iff hblk).mpr hfits)
  rw [blockBound, word32_base hblk, elementSize_eq]
  by_cases hbase : base % bytesOf esz = 0
  · obtain ⟨info, hstop⟩ := stops_stridesAligned (w := correcting s w x.toNat 48) ((strides_aligned_iff hblk).not.mpr (fun hstr => h ⟨hbase, hstr⟩))
    exact ⟨info, stops_bind_gives gives_get (stops_bind_gives hcounts
      (stops_bind_gives (gives_need (beq_iff_eq.mpr hbase)) (stops_bind hstop)))⟩
  · exact ⟨_, stops_bind_gives gives_get (stops_bind_gives hcounts (stops_bind (stops_need (beq_eq_false_iff_ne.mpr hbase))))⟩

section
variable (heven : base % bytesOf esz = 0 ∧ ∀ k : Fin 4, str[k] % bytesOf esz = 0)
include heven

theorem blockBound_span {R : EStateM.Result Abort Work Unit}
    (h : spanBound s d w.hdrB (bytesOf esz) (rangeNat s w x.toNat 48) st (correcting s w x.toNat 48) = R) :
    blockBound s d esz (rangeNat s w x.toNat 48) st (correcting s w x.toNat 48) = R := by
  rw [blockBound, word32_base hblk, elementSize_eq]
  exact (Body.bind_ok gives_get).trans ((Body.bind_ok (gives_need ((blockFits_iff hblk).mpr hfits))).trans
    ((Body.bind_ok (gives_need (beq_iff_eq.mpr heven.1))).trans
      ((Body.bind_ok (gives_stridesAligned ((strides_aligned_iff hblk).mpr heven.2))).trans h)))

section
variable (hoff : bits w.inj 7 0 = 0)
include hoff

theorem blockBound_outside (h : ¬ SpanInClasses s w (least base cnt str) (greatest base cnt str + bytesOf esz)) :
    ∃ info, Stops (blockBound s d esz (rangeNat s w x.toNat 48) st) (correcting s w x.toNat 48) (plainAbort 0x05 info)
      (correcting s w x.toNat 48) := by
  have hoff2 : bits (correcting s w x.toNat 48).inj 7 0 = 0 := hoff
  have hspan : ∃ info, Stops (spanBound s d w.hdrB (bytesOf esz) (rangeNat s w x.toNat 48) st) (correcting s w x.toNat 48)
      (plainAbort 0x05 info) (correcting s w x.toNat 48) := by
    rw [spanBound, word32_base hblk, nestBounds_eq hblk fun k => (hfits.2.2 k).1]
    exact ⟨_, stops_bind_gives (gives_checkedAddress hoff2 _) (stops_bind_gives (gives_checkedAddress hoff2 _)
      (stops_bind (stops_need (Bool.eq_false_iff.mpr ((spanChecked_iff (bytesOf_pos esz)).not.mpr h)))))⟩
  obtain ⟨info, hstop⟩ := hspan
  exact ⟨info, blockBound_span hblk hfits heven hstop⟩
theorem blockBound_gives (h : SpanInClasses s w (least base cnt str) (greatest base cnt str + bytesOf esz)) :
    Gives (blockBound s d esz (rangeNat s w x.toNat 48) st) (correcting s w x.toNat 48) ()
      (staging (correcting s w x.toNat 48) (.stream (d.toNat - 24) st)) := by
  have hoff2 : bits (correcting s w x.toNat 48).inj 7 0 = 0 := hoff
  refine blockBound_span hblk hfits heven ?_
  rw [spanBound, word32_base hblk, nestBounds_eq hblk fun k => (hfits.2.2 k).1]
  exact gives_bind (gives_checkedAddress hoff2 _) (gives_bind (gives_checkedAddress hoff2 _)
    (gives_bind (gives_need ((spanChecked_iff (bytesOf_pos esz)).mpr h)) gives_stage))

end
end
end
end
end

/-- An operation on a stream, staged unless it needs a binding that is not there (R165). -/
theorem runStrctl_next {i : Instr} {unbind : Bool} {e : Nat → Effect} {f : Effect} {d : Opd} {s : State}
    (hexec : exec i s = runStrctl unbind e d s) (hf : e (d.toNat - 24) = f)
    (h : unbind = true ∨ (vget (bodyCtx s).q (d.toNat - 24) Stream.reset).bound = true) :
    exec i s = .next (bodyWent s ((staging (start s 0xCD) f).advance 2 1)) := by
  rw [hexec, ← hf]
  exact runBody_gives (gives_bind (gives_need (by simpa using h)) gives_stage)
theorem runStrctl_unbound {i : Instr} {e : Nat → Effect} {d : Opd} {s : State} (hexec : exec i s = runStrctl false e d s)
    (h : (vget (bodyCtx s).q (d.toNat - 24) Stream.reset).bound = false) :
    exec i s = AbortsAt s (start s 0xCD) 1 (plainAbort 0x04 0) := by
  rw [hexec]
  exact runBody_stops (stops_bind (stops_need (by simpa using h)))

theorem streamCommands : StreamCommands := by
  refine ⟨?_, ?_⟩
  · intro s a d t dir fmt esz x sa base r1 r2 cnt str w1 hoff ha
    have haddr := gives_checkedAddress (s := s) (readS_disarmed ha hoff) x
    rw [execStream_eq]
    refine ⟨fun c hbad => runBody_stops (stops_bind_gives ha (stops_bind_gives haddr (stops_bind (stops_checkAccess (by omega) hbad)))),
      fun hok hue => runBody_stops (stops_bind_gives ha (stops_bind_gives haddr (stops_bind_gives (gives_checkAccess (by omega) hok)
        (stops_bind (stops_localRead hue))))), fun hok hsound hblk => ?_⟩
    have hread := gives_localRead_range (w := w1) hsound
    have hrun : streamBody a d t dir fmt esz s (start s 0xCC) = blockBound s d esz (rangeNat s w1 x.toNat 48)
        (boundStream x dir fmt esz (rangeNat s w1 x.toNat 48)) (correcting s w1 x.toNat 48) :=
      (run_bind ha rfl).trans ((run_bind haddr rfl).trans ((run_bind (gives_checkAccess (by omega) hok) rfl).trans (run_bind hread rfl)))
    rw [← boundStream_eq hblk]
    refine ⟨fun hunfit => ?_, fun hfits hodd => ?_, fun hfits heven hspan => ?_, fun hfits heven hspan => ?_⟩
    · exact runBody_stops (hrun.trans (blockBound_unfit hblk hunfit))
    · obtain ⟨info, h⟩ := blockBound_odd hblk hfits hodd
      exact ⟨info, runBody_stops (hrun.trans h)⟩
    · obtain ⟨info, h⟩ := blockBound_outside hblk hfits heven (readS_disarmed ha hoff) hspan
      exact ⟨info, runBody_stops (hrun.trans h)⟩
    · exact runBody_gives (hrun.trans (blockBound_gives hblk hfits heven (readS_disarmed ha hoff) hspan))
  · exact fun s d t n => ⟨runStrctl_next (e := (.strctl · 0)) rfl rfl (.inl rfl),
      fun hbound => ⟨runStrctl_next (e := (.strctl · 1)) rfl rfl (.inr hbound), runStrctl_next (e := (.strctl · 2)) rfl rfl (.inr hbound),
        runStrctl_next (e := (.drain · n.toNat 0)) rfl rfl (.inr hbound)⟩,
      fun hunbound => ⟨runStrctl_unbound (e := (.strctl · 1)) rfl hunbound, runStrctl_unbound (e := (.strctl · 2)) rfl hunbound,
        runStrctl_unbound (e := (.drain · n.toNat 0)) rfl hunbound⟩⟩

/-! ## Copies -/

theorem tagOf_eq (n : BitVec 6) (te : BitVec 1) : tagOf n te = named n te := by
  rw [tagOf, named]
  split <;> simp_all
theorem rowAddress_eq {n : Nat} (a : W64) (hn : n < 2 ^ 32) (i : Nat) :
    rowAddress a (BitVec.ofNat 32 n) i = wordI (a.toInt + stride n * i) := by
  rw [rowAddress, toInt_ofNat_eq_stride hn, wordI, BitVec.ofInt_add, BitVec.ofInt_toInt]
  rfl
/-- Every row of a two-dimensional copy passes (R170). -/
theorem gives_checkRows {s : State} {w : Work} {src dst : W64} {ss ds len i n : Nat} (hss : ss < 2 ^ 32) (hds : ds < 2 ^ 32)
    (h : ∀ j, i ≤ j → j < i + n → (∃ r, Remote s (wordI (src.toInt + stride ss * j)) len 1 (.inl r)) ∧
      ∃ r, Remote s (wordI (dst.toInt + stride ds * j)) len 1 (.inl r)) :
    Gives (checkRows s src dst (BitVec.ofNat 32 ss) (BitVec.ofNat 32 ds) len i n) w () w := by
  induction n generalizing i with
  | zero => exact gives_pure
  | succ n ih =>
    obtain ⟨⟨_, hsrc⟩, ⟨_, hdst⟩⟩ := h i (by omega) (by omega)
    rw [← rowAddress_eq _ hss] at hsrc
    rw [← rowAddress_eq _ hds] at hdst
    exact gives_bind (gives_remoteAddress hsrc) (gives_bind (gives_remoteAddress hdst) (ih fun j hj hj' => h j (by omega) (by omega)))

section
variable {s : State} {w : Work} {off : Nat} {u : W64}

theorem block_src (h : ReadsAs s w off 8 u.toNat) : BitVec.ofNat 64 (rangeNat s w off 32 % 2 ^ 64) = u := by
  have hread := readsAs_part (k := 0) h (show 0 + 8 ≤ 32 by omega)
  rw [pow_zero, Nat.div_one] at hread
  exact BitVec.eq_of_toNat_eq (by rw [BitVec.toNat_ofNat, Nat.mod_mod]; exact hread)
theorem block_dst (h : ReadsAs s w (off + 8) 8 u.toNat) : BitVec.ofNat 64 (rangeNat s w off 32 / 2 ^ 64 % 2 ^ 64) = u :=
  BitVec.eq_of_toNat_eq (by rw [BitVec.toNat_ofNat, Nat.mod_mod]; exact readsAs_part h (show 8 + 8 ≤ 32 by omega))

end

/-- CPY2 once its parameter block is read (R170). -/
def copyRows (s : State) (tag : Option Nat) (src dst : W64) (len rows : Nat) (ss ds : W32) : Body Unit := do
  need (1 ≤ len && len ≤ 65536) cRange (BitVec.ofNat 64 len)
  need (1 ≤ rows && rows ≤ 65536) cRange (BitVec.ofNat 64 rows)
  checkedAddress s src
  checkedAddress s dst
  checkRows s src dst ss ds len 0 rows
  let src ← remoteAddress s src len
  let dst ← remoteAddress s dst len
  stageCommand s tag (.cpy2 src dst len rows ss ds)

section
variable {s : State} {w : Work} {tag : Option Nat} {src dst src' dst' : W64} {len rows : Nat}

theorem copyRows_range {ss ds : W32} (h : len < 1 ∨ 65536 < len ∨ rows < 1 ∨ 65536 < rows) :
    ∃ i, Stops (copyRows s tag src dst len rows ss ds) w (plainAbort 0x09 i) w := by
  by_cases hlen : 1 ≤ len ∧ len ≤ 65536
  · have hrows : (decide (1 ≤ rows) && decide (rows ≤ 65536)) = false := by
      rw [Bool.and_eq_false_iff, decide_eq_false_iff_not, decide_eq_false_iff_not]
      omega
    exact ⟨_, stops_bind_gives (gives_need (by simpa using hlen)) (stops_bind (stops_need hrows))⟩
  · exact ⟨_, stops_bind (stops_need (by rw [← Bool.decide_and, decide_eq_false hlen]))⟩
theorem gives_copyRows {ss ds : Nat} (hoff : bits w.inj 7 0 = 0) (hlen : 1 ≤ len ∧ len ≤ 65536) (hrows : 1 ≤ rows ∧ rows ≤ 65536)
    (hss : ss < 2 ^ 32) (hds : ds < 2 ^ 32)
    (hgood : ∀ i < rows, (∃ r, Remote s (wordI (src.toInt + stride ss * i)) len 1 (.inl r)) ∧
      ∃ r, Remote s (wordI (dst.toInt + stride ds * i)) len 1 (.inl r))
    (hsrc : Remote s src len 1 (.inl src')) (hdst : Remote s dst len 1 (.inl dst')) (hroom : PortRoom s w) :
    Gives (copyRows s tag src dst len rows (BitVec.ofNat 32 ss) (BitVec.ofNat 32 ds)) w ()
      (through w (commandOf s w tag (.cpy2 src' dst' len rows (BitVec.ofNat 32 ss) (BitVec.ofNat 32 ds)))) :=
  gives_bind (gives_need (by simpa using hlen)) (gives_bind (gives_need (by simpa using hrows))
    (gives_bind (gives_checkedAddress hoff src) (gives_bind (gives_checkedAddress hoff dst)
      (gives_bind (gives_checkRows hss hds fun j _ hj => hgood j (by omega)) (gives_bind (gives_remoteAddress hsrc)
        (gives_bind (gives_remoteAddress hdst) (gives_stageCommand hroom)))))))

end

theorem copyCommands : CopyCommands := by
  refine ⟨fun s a b n te k x y src dst sa sb w1 w2 hoff ha hb => ?_, fun s a n te x src dst src' dst' sa len rows ss ds w1 hoff ha => ?_⟩
  · have hoff2 := readS_disarmed hb (readS_disarmed ha hoff)
    dsimp only
    rw [← tagOf_eq]
    refine ⟨fun hlen => ?_, fun hlow hhigh => ?_⟩
    · refine runBody_stops (stops_bind_gives ha (stops_bind_gives hb (stops_bind_gives gives_get (stops_bind (stops_need ?_)))))
      rw [Bool.and_eq_false_iff, decide_eq_false_iff_not, decide_eq_false_iff_not]
      obtain h | h := hlen
      · rw [h]
        exact .inl (by decide)
      · exact .inr (by omega)
    · have hlen := gives_need (c := cRange) (i := vget w2.s k.toNat 0) (w := w2)
        (show (decide (1 ≤ (vget w2.s k.toNat 0).toNat) && decide ((vget w2.s k.toNat 0).toNat ≤ 2 ^ 24)) = true by
          rw [decide_eq_true hlow, decide_eq_true hhigh]; rfl)
      refine ⟨fun c i hbad => ?_, fun hsrc => ⟨fun c i hbad => ?_, fun hdst hroom => ?_⟩⟩
      · exact runBody_stops (stops_bind_gives ha (stops_bind_gives hb (stops_bind_gives gives_get (stops_bind_gives hlen
          (stops_bind_gives (gives_checkedAddress hoff2 x) (stops_bind (stops_remoteAddress hbad)))))))
      · exact runBody_stops (stops_bind_gives ha (stops_bind_gives hb (stops_bind_gives gives_get (stops_bind_gives hlen
          (stops_bind_gives (gives_checkedAddress hoff2 x) (stops_bind_gives (gives_remoteAddress hsrc)
            (stops_bind_gives (gives_checkedAddress hoff2 y) (stops_bind (stops_remoteAddress hbad)))))))))
      · exact runBody_gives (gives_bind ha (gives_bind hb (gives_bind gives_get (gives_bind hlen
          (gives_bind (gives_checkedAddress hoff2 x) (gives_bind (gives_remoteAddress hsrc)
            (gives_bind (gives_checkedAddress hoff2 y) (gives_bind (gives_remoteAddress hdst) (gives_stageCommand hroom)))))))))
  · have haddr := gives_checkedAddress (s := s) (readS_disarmed ha hoff) x
    refine ⟨fun c hbad => runBody_stops (stops_bind_gives ha (stops_bind_gives haddr (stops_bind (stops_checkAccess (by omega) hbad)))),
      fun hok hsound hrsrc hrdst hrlen hrrows hrss hrds => ?_⟩
    have hcheck := gives_checkAccess (s := s) (w := w1) (by omega) hok
    have hread := gives_localRead_range (w := w1) hsound
    have hoff1 := readS_disarmed ha hoff
    have hlen := word32_rangeNat hrlen (show 16 + 4 ≤ 32 by omega)
    have hrows := word32_rangeNat hrrows (show 20 + 4 ≤ 32 by omega)
    have hss := word32_rangeNat hrss (show 24 + 4 ≤ 32 by omega)
    have hds := word32_rangeNat hrds (show 28 + 4 ≤ 32 by omega)
    have hrun : ∃ m, exec (.cpy2 a n te) s = runBody s 0xCF .plain 2 1 m ∧ m (start s 0xCF) =
        copyRows s (tagOf n te) src dst len rows (BitVec.ofNat 32 ss) (BitVec.ofNat 32 ds) (correcting s w1 x.toNat 32) := by
      refine ⟨_, rfl, (run_bind ha rfl).trans ((run_bind haddr rfl).trans ((run_bind hcheck rfl).trans (run_bind hread ?_)))⟩
      rw [← block_src hrsrc, ← block_dst hrdst, ← hlen, ← hrows, ← hss, ← hds]
      rfl
    obtain ⟨m, hexec, hm⟩ := hrun
    rw [hexec, ← tagOf_eq]
    refine ⟨fun hbad => ?_, fun hlow hhigh hrow hrow' hgood hsrc hdst hroom => ?_⟩
    · obtain ⟨i, h⟩ := copyRows_range (s := s) (tag := tagOf n te) (src := src) (dst := dst) (ss := BitVec.ofNat 32 ss) (ds := BitVec.ofNat 32 ds)
        (w := correcting s w1 x.toNat 32) hbad
      exact ⟨i, runBody_stops (hm.trans h)⟩
    · exact runBody_gives (hm.trans (gives_copyRows hoff1 ⟨hlow, hhigh⟩ ⟨hrow, hrow'⟩ hrss.1 hrds.1 hgood hsrc hdst hroom))

/-! ## Publication and prefetch -/

/-- PUBLISH once its owner is named (R172). -/
def ownerAsked (s : State) (kind : ReqKind) (v : W64) : Body Unit := do
  checkedAddress s v
  need (bits v 63 62 != 2 || (bodyCtx s).priv) cPriv v
  need (bits v 63 62 == 0) cRange v
  let r ← remoteAddress s (v &&& ~~~0x7FFFF#64) 1
  stageRequest s kind r 0 false
theorem clearOffset_eq (v : W64) : v &&& ~~~0x7FFFF#64 = word (v.toNat / 2 ^ 19 * 2 ^ 19) := by
  apply BitVec.eq_of_getLsbD_eq
  intro i hi
  rw [word, ← Nat.shiftRight_eq_div_pow, ← Nat.shiftLeft_eq]
  have hmask : (0x7FFFF#64).getLsbD i = decide (i < 19) := by
    rw [show (0x7FFFF#64) = BitVec.ofNat 64 (2 ^ 19 - 1) from rfl, BitVec.getLsbD_ofNat, Nat.testBit_two_pow_sub_one, decide_eq_true hi,
      Bool.true_and]
  simp only [BitVec.getLsbD_and, BitVec.getLsbD_not, hmask, hi, decide_true, Bool.true_and, BitVec.getLsbD_ofNat, Nat.testBit_shiftLeft,
    Nat.testBit_shiftRight]
  by_cases h : i < 19
  · simp [h]
  · simp [h, show 19 + (i - 19) = i by omega, show 19 ≤ i by omega, BitVec.testBit_toNat]

theorem publishAndPrefetchCommands : PublishAndPrefetchCommands := by
  refine ⟨fun s a n te k x v r sa w1 hoff ha hown hother => ?_, fun s a b n te x y r sa sb w1 w2 hoff ha hb hroom => ?_⟩
  · have hv : (if a == 31#5 then BitVec.ofNat 64 ((bodyCtx s).lx * 2 ^ 52 + (bodyCtx s).ly * 2 ^ 44) else x) = v := by
      by_cases h : a = 31#5
      · rw [if_pos (beq_iff_eq.mpr h), hown h]; rfl
      · rw [if_neg (by simpa using h), hother h]
    have hrun : ∃ m, exec (.publish a n te k) s = runBody s 0xD0 .plain 2 1 m ∧
        m (start s 0xD0) = ownerAsked s (.publish k.toNat (tagOf n te)) v w1 := by
      refine ⟨_, rfl, (run_bind ha rfl).trans ?_⟩
      rw [← hv]
      rfl
    obtain ⟨m, hexec, hm⟩ := hrun
    have haddr := gives_checkedAddress (s := s) (readS_disarmed ha hoff) v
    rw [hexec, ← tagOf_eq, ← clearOffset_eq]
    refine ⟨fun hspace hpriv => runBody_stops (hm.trans (stops_bind_gives haddr (stops_bind (stops_need ?_)))),
      fun hspace hpriv => runBody_stops (hm.trans (stops_bind_gives haddr (stops_bind_gives (gives_need ?_) (stops_bind (stops_need ?_))))),
      fun hspace => ?_⟩
    · rw [bits_eq_field v 63 62 2 rfl, hspace, show (bodyCtx s).priv = false from hpriv]; rfl
    · rw [bits_eq_field v 63 62 2 rfl, Bool.or_eq_true, bne_iff_ne, ← imp_iff_not_or]
      exact hpriv
    · rw [bits_eq_field v 63 62 2 rfl]
      exact beq_eq_false_iff_ne.mpr hspace
    · have hspace' : bits v 63 62 = 0 := (bits_eq_field v 63 62 2 rfl).trans hspace
      have hpriv := gives_need (c := cPriv) (i := v) (w := w1) (show (bits v 63 62 != 2 || (bodyCtx s).priv) = true by rw [hspace']; rfl)
      have hzero := gives_need (c := cRange) (i := v) (w := w1) (show (bits v 63 62 == 0) = true by rw [hspace']; rfl)
      exact ⟨fun c i hbad => runBody_stops (hm.trans (stops_bind_gives haddr (stops_bind_gives hpriv (stops_bind_gives hzero
          (stops_bind (stops_remoteAddress hbad)))))),
        fun hok hroom => runBody_gives (hm.trans (gives_bind haddr (gives_bind hpriv (gives_bind hzero
          (gives_bind (gives_remoteAddress hok) (gives_stageRequest hroom))))))⟩
  · have haddr := gives_checkedAddress (s := s) (readS_disarmed hb (readS_disarmed ha hoff)) x
    have hspace := bits_eq_field x 63 62 2 rfl
    rw [← tagOf_eq]
    refine ⟨fun hnone => ?_, fun hx hy hok => ?_⟩
    · refine runBody_gives (gives_bind ha (gives_bind hb (gives_bind haddr ?_)))
      rw [if_neg (by simpa [hspace, or_iff_not_imp_left] using hnone)]
      exact gives_stageCommand hroom
    · refine runBody_gives (gives_bind ha (gives_bind hb (gives_bind haddr ?_)))
      rw [if_pos (by rw [hspace, hx, bne_iff_ne.mpr hy]; rfl)]
      exact gives_bind (gives_remoteAddress hok) (gives_stageCommand hroom)

/-- Settles O18: each command's checks in their order, then one effect of it staged. -/
theorem engineCommands : Obligations.EngineCommands := ⟨streamCommands, copyCommands, publishAndPrefetchCommands⟩

end Sys2Proof.Machine
end

