-- ==== Sys2Proof/Proofs/Frames.lean ====
section
/-! PROOF. SUPPORT. What single state operations leave: a core replaced, a flit sent, the accesses of a context settled, a command
completed (05_core_memory, R166, R174; 08_cluster, R234). -/
namespace Sys2Proof.Machine
open Sys2Proof.Claims

section
variable {s t u : State} {k : Nat}

/-! ## Memories -/

theorem sameMemory_refl (s : State) : SameMemory s s := ⟨rfl, rfl, rfl, fun _ => ⟨rfl, rfl, rfl⟩, fun _ => rfl⟩
theorem sameMemory_trans (h : SameMemory s t) (h' : SameMemory t u) : SameMemory s u := by
  obtain ⟨hbm, tier, host, core, die⟩ := h
  obtain ⟨hbm', tier', host', core', die'⟩ := h'
  refine ⟨hbm'.trans hbm, tier'.trans tier, host'.trans host, fun j => ?_, fun d => (die' d).trans (die d)⟩
  obtain ⟨hm, ha, hs⟩ := core j
  obtain ⟨hm', ha', hs'⟩ := core' j
  exact ⟨hm'.trans hm, ha'.trans ha, hs'.trans hs⟩
theorem sameMemory_setCore {c : Core} (hm : c.mem = (coreOf s k).mem) (ha : c.active = (coreOf s k).active)
    (hs : c.shadow = (coreOf s k).shadow) : SameMemory s (setCore s k c) := by
  refine ⟨rfl, rfl, rfl, fun j => ?_, fun _ => rfl⟩
  by_cases hj : k = j
  · subst hj
    rw [coreOf_setCore_same]
    exact ⟨hm, ha, hs⟩
  · rw [coreOf_setCore_other _ _ _ _ hj]
    exact ⟨rfl, rfl, rfl⟩
theorem sameMemory_sendFlit {cls src dst : Nat} {p : Payload} : SameMemory s (sendFlit s cls src dst p) :=
  sameMemory_trans (t := countFlit s cls src dst) (sameMemory_setCore rfl rfl rfl) (sameMemory_of rfl rfl rfl rfl rfl)

/-! ## Flits -/

theorem sends_sendFlit {cls src dst : Nat} {p : Payload} (h : t.flits = s.flits) : Sends s (sendFlit t cls src dst p) cls src dst p :=
  ⟨_, congrArg (· ++ _) h, rfl, rfl, rfl, rfl, rfl, rfl, rfl⟩
theorem portq_sendFlit {cls src dst : Nat} {p : Payload} : (coreOf (sendFlit s cls src dst p) k).portq = (coreOf s k).portq := by
  show (coreOf (countFlit s cls src dst) k).portq = _
  rw [countFlit]
  by_cases hk : src = k
  · subst hk
    rw [coreOf_setCore_same]
  · rw [coreOf_setCore_other _ _ _ _ hk]

/-! ## Accesses and completions -/

/-- A state that differs at most in tag bits and awaited accesses of contexts, in the region slots and in the steps to come. -/
structure Settles (s t : State) : Prop where
  marks : Marks s t
  rest : ∃ core region agenda, t = { s with core := core, region := region, agenda := agenda }

theorem settles_trans (h : Settles s t) (h' : Settles t u) : Settles s u := by
  refine ⟨marks_trans h.marks h'.marks, ?_⟩
  obtain ⟨_, _, _, rfl⟩ := h.rest
  obtain ⟨core, region, agenda, rfl⟩ := h'.rest
  exact ⟨core, region, agenda, rfl⟩
theorem settles_refl (s : State) : Settles s s := ⟨marks_of_core rfl, s.core, s.region, s.agenda, rfl⟩
theorem settles_schedule {due : Nat} {op : Instr} {args : EvArgs} : Settles s (schedule s due op args) :=
  ⟨marks_of_core rfl, s.core, s.region, _, rfl⟩
theorem settles_modCtx {addr : Nat} {f : Ctx → Ctx} (h : ∀ x, MarkedCtx x (f x)) : Settles s (modCtx s addr f) := by
  refine ⟨marks_modCtx h, ?_⟩
  unfold modCtx
  split
  · exact ⟨_, s.region, s.agenda, rfl⟩
  · exact ⟨s.core, _, s.agenda, rfl⟩
theorem settles_modTwins {addr : Nat} {f : Ctx → Ctx} (h : ∀ x, MarkedCtx x (f x)) : Settles s (modTwins s addr f) := by
  unfold modTwins
  dsimp only
  split
  · exact settles_trans (settles_modCtx h) (settles_modCtx h)
  · exact settles_modCtx h
theorem settles_poke {addr : Nat} : Settles s (poke s addr) := by
  unfold poke
  split
  · dsimp only
    split
    · exact settles_refl s
    · split
      · exact settles_trans settles_schedule settles_schedule
      · exact settles_schedule
  · exact settles_refl s
theorem settles_pokeTwins {addr : Nat} : Settles s (pokeTwins s addr) := by
  unfold pokeTwins
  split
  · exact settles_trans settles_poke settles_poke
  · exact settles_poke
theorem settles_modAccess {addr id : Nat} {f : Access → Access} : Settles s (modAccess s addr id f) :=
  settles_trans (settles_modTwins markedCtx_settleAccess) settles_pokeTwins
theorem settles_completeCommand {addr id : Nat} {tag : Option Nat} : Settles s (completeCommand s addr id tag) := by
  unfold completeCommand
  cases tag with
  | none => exact settles_modAccess
  | some n =>
    dsimp only
    split
    · exact settles_trans (settles_trans (settles_modCtx (markedCtx_setTag n)) (settles_modCtx (markedCtx_setTag n))) settles_modAccess
    · exact settles_trans (settles_modCtx (markedCtx_setTag n)) settles_modAccess
theorem settles_core (h : Settles s t) (j : Nat) : ∃ ctx, coreOf t j = { coreOf s j with ctx := ctx } := (h.marks j).1
theorem settles_sameMemory (h : Settles s t) : SameMemory s t := by
  have hcore (j : Nat) := settles_core h j
  obtain ⟨core, region, agenda, rfl⟩ := h.rest
  refine ⟨rfl, rfl, rfl, fun j => ?_, fun _ => rfl⟩
  obtain ⟨ctx, hj⟩ := hcore j
  rw [hj]
  exact ⟨rfl, rfl, rfl⟩
theorem settles_coreOfAddr (h : Settles s t) (addr : Nat) : coreOfAddr t addr = coreOfAddr s addr := by
  obtain ⟨_, _, _, rfl⟩ := h.rest
  rfl
theorem settles_flits (h : Settles s t) : t.flits = s.flits := by
  obtain ⟨_, _, _, rfl⟩ := h.rest
  rfl


/-! ## Tags of completions (R166) -/

theorem slotOf_lt {addr c : Nat} (h : slotOf s k addr = some c) : c < 4 := List.mem_range.mp (List.mem_of_find?_eq_some h)
theorem findCtx_lt {addr c : Nat} (h : findCtx s addr = some (k, c)) : c < 4 := by
  unfold findCtx at h
  split at h
  · obtain ⟨d, hd, heq⟩ := Option.map_eq_some_iff.mp h
    obtain ⟨rfl, rfl⟩ := Prod.mk.inj heq
    exact slotOf_lt hd
  · cases h
theorem ctxOf_setCtx_cases (s : State) (j d : Nat) (x : Ctx) (k c : Nat) :
    ctxOf (setCtx s j d x) k c = ctxOf s k c ∨ (j = k ∧ d = c ∧ ctxOf (setCtx s j d x) k c = x) := by
  by_cases hj : j = k
  · subst hj
    by_cases hd : d = c
    · subst hd
      by_cases hc : d < 4
      · exact .inr ⟨rfl, rfl, ctxOf_setCtx_same _ _ _ _ hc⟩
      · rw [ctxOf, coreOf_setCtx, vget_vset_out _ (by omega)]
        exact .inl rfl
    · exact .inl (ctxOf_setCtx_other _ _ _ _ _ hd)
  · rw [ctxOf, coreOf_setCtx_other _ _ _ _ _ hj]
    exact .inl rfl
theorem ctxOf_modCtx_cases (s : State) (addr : Nat) (f : Ctx → Ctx) (k c : Nat) :
    ctxOf (modCtx s addr f) k c = ctxOf s k c ∨ ctxOf (modCtx s addr f) k c = f (ctxOf s k c) := by
  unfold modCtx
  split
  · next j d _ =>
    obtain h | ⟨rfl, rfl, h⟩ := ctxOf_setCtx_cases s j d (f (ctxOf s j d)) k c
    · exact .inl h
    · exact .inr h
  · exact .inl rfl
theorem ctxOf_modCtx_same {addr c : Nat} {f : Ctx → Ctx} (h : findCtx s addr = some (k, c)) :
    ctxOf (modCtx s addr f) k c = f (ctxOf s k c) := by
  rw [modCtx, h]
  exact ctxOf_setCtx_same _ _ _ _ (findCtx_lt h)
theorem tb_modCtx {addr : Nat} {f : Ctx → Ctx} (hf : ∀ x, (f x).tb = x.tb) (c : Nat) : (ctxOf (modCtx s addr f) k c).tb = (ctxOf s k c).tb := by
  obtain h | h := ctxOf_modCtx_cases s addr f k c
  · rw [h]
  · rw [h, hf]
theorem tb_endAccess {addr id : Nat} (c : Nat) : (ctxOf (endAccess s addr id) k c).tb = (ctxOf s k c).tb := by
  have hset (x : Ctx) : (settleAccess id (fun a => { a with read := false, write := false }) x).tb = x.tb := rfl
  rw [endAccess, modAccess, ctxOf, coreOf, pokeTwins_core]
  show (ctxOf (modTwins s addr _) k c).tb = _
  unfold modTwins
  dsimp only
  split
  · rw [tb_modCtx hset, tb_modCtx hset]
  · exact tb_modCtx hset c
theorem tagSet_completeCommand (s : State) (addr id : Nat) (tag : Option Nat) : TagSet s (completeCommand s addr id tag) addr tag := by
  intro k c hfind
  refine (tb_endAccess c).trans ?_
  cases tag with
  | none => rfl
  | some n =>
    have honce : (ctxOf (modCtx s addr fun x => { x with tb := x.tb ||| (1#64 <<< n) }) k c).tb = (ctxOf s k c).tb ||| (1#64 <<< n) := by
      rw [ctxOf_modCtx_same hfind]
    dsimp only
    split
    · next b _ =>
      obtain h | h := ctxOf_modCtx_cases (modCtx s addr fun x => { x with tb := x.tb ||| (1#64 <<< n) }) b
        (fun x => { x with tb := x.tb ||| (1#64 <<< n) }) k c
      · rw [h, honce]
      · rw [h]
        dsimp only
        rw [honce, BitVec.or_assoc, BitVec.or_self]
    · exact honce
theorem findCtx_eq_of {addr : Nat} (hmap : coreOfAddr t addr = coreOfAddr s addr) (hctx : ∀ j, (coreOf t j).ctx = (coreOf s j).ctx) :
    findCtx t addr = findCtx s addr := by
  simp only [findCtx, slotOf, ctxOf, hmap, hctx]
theorem tagSet_before {addr : Nat} {tag : Option Nat} (hmap : coreOfAddr t addr = coreOfAddr s addr)
    (hctx : ∀ j, (coreOf t j).ctx = (coreOf s j).ctx) (h : TagSet t u addr tag) : TagSet s u addr tag := by
  intro k c hfind
  rw [← findCtx_eq_of hmap hctx] at hfind
  rw [h k c hfind, ctxOf, hctx]
  rfl
theorem ctx_setCore {c : Core} (hc : c.ctx = (coreOf s k).ctx) (j : Nat) : (coreOf (setCore s k c) j).ctx = (coreOf s j).ctx := by
  by_cases hj : k = j
  · subst hj
    rw [coreOf_setCore_same, hc]
  · rw [coreOf_setCore_other _ _ _ _ hj]

end
end Sys2Proof.Machine
end

