-- ==== Sys2Proof/Proofs/PortService.lean ====
section
/-! PROOF. What a core's memory port does with the request at its head, and how its bucket leaks (05_core_memory, R147, R156, R158, R160,
R161, R172; 07_core_failures, R208; 12_package_launch, R329). -/
namespace Sys2Proof.Machine
open Sys2Proof.Claims

/-! ## Bytes -/

theorem leNat_byte (l : List Byte) (i : Nat) : leNat l / 256 ^ i % 256 = (l.getD i 0).toNat := by
  induction l generalizing i with
  | nil => simp [leNat]
  | cons b l ih =>
    cases i with
    | zero =>
      have hb := b.isLt
      simp only [leNat, pow_zero, Nat.div_one, List.getD_cons_zero]
      omega
    | succ i =>
      have hrest : leNat (b :: l) / 256 = leNat l := by
        have hb := b.isLt
        simp only [leNat]
        omega
      rw [pow_succ', ← Nat.div_div_eq_div_mul, hrest, ih, List.getD_cons_succ]
theorem leBytes_leNat (l : List Byte) : leBytes l.length (leNat l) = l := by
  induction l with
  | nil => rfl
  | cons b l ih =>
    have hb := b.isLt
    have hlow : BitVec.ofNat 8 (b.toNat + 256 * leNat l) = b := by
      apply BitVec.eq_of_toNat_eq
      rw [BitVec.toNat_ofNat]
      omega
    have hrest : (b.toNat + 256 * leNat l) / 256 = leNat l := by omega
    rw [List.length_cons, leNat, leBytes, hlow, hrest, ih]
theorem toNat_ofBytes (l : List Byte) : (ofBytes l).toNat = leNat (l.take 64) := by
  have hlt : leNat (l.take 64) < 256 ^ 64 :=
    lt_of_lt_of_le (leNat_lt _) (Nat.pow_le_pow_right (by omega) (List.length_take_le 64 l))
  rw [ofBytes, BitVec.toNat_ofNat, Nat.mod_eq_of_lt (lt_of_lt_of_eq hlt (by rw [show 256 = 2 ^ 8 from rfl, ← pow_mul]))]
theorem ofBytes_byte (f : Nat → Byte) (n : Nat) {i : Nat} (hi : i < 64) :
    (ofBytes ((List.range n).map f)).toNat / 256 ^ i % 256 = if i < n then (f i).toNat else 0 := by
  rw [toNat_ofBytes, leNat_byte, ← List.map_take, List.take_range, List.getD_eq_getElem?_getD, List.getElem?_map]
  by_cases hn : i < n
  · rw [List.getElem?_range (by omega), if_pos hn]
    rfl
  · rw [List.getElem?_eq_none (by simp; omega), if_neg hn]
    rfl

/-! ## Places stored -/

theorem memByte_memStore_place {m : Memory} (h : memWf m = true) {place : Nat → Nat} {b : Nat → Byte} {n : Nat}
    (hinj : ∀ i < n, ∀ j < n, place i = place j → i = j) {i : Nat} (hi : i < n) :
    memByte (memStore m ((List.range n).map (fun j => (place j, b j)))) (place i) = b i := by
  induction n with
  | zero => omega
  | succ n ih =>
    rw [List.range_succ, List.map_append, memStore, List.foldl_append]
    show memByte (memPut (memStore m ((List.range n).map _)) (place n) (b n)) (place i) = _
    have hwf := memStore_wf h ((List.range n).map (fun j => (place j, b j)))
    by_cases hin : i = n
    · rw [hin, memByte_memPut_same hwf]
    · rw [memByte_memPut_other hwf _ _ _ (fun he => hin (hinj i hi n (by omega) he.symm))]
      exact ih (fun i hi j hj => hinj i (by omega) j (by omega)) (by omega)
theorem foldl_setLocalByte (ps : List (Nat × Byte)) (hps : ∀ p ∈ ps, p.1 < 0x60000) (c : Core) :
    ps.foldl (fun c p => setLocalByte c p.1 p.2) c = { c with mem := memStore c.mem ps } := by
  induction ps generalizing c with
  | nil => rfl
  | cons p ps ih =>
    rw [List.foldl_cons, ih (fun q hq => hps q (List.mem_cons_of_mem _ hq)), setLocalByte, if_pos (hps p List.mem_cons_self)]
    rfl

section
variable {s t u : State} {k : Nat}

theorem logBlock_unlogged (h : ∀ c < 4, ∀ blk, liveIn s (ctxOf s k c) blk = false) (w : Option Nat) (blk : Nat) :
    logBlock s k w blk = s := by
  have hnone : (List.range 4).filter (fun i => liveIn s (vget (coreOf s k).ctx i Ctx.reset) blk) = [] :=
    List.filter_eq_nil_iff.mpr fun c hc => Bool.not_eq_true _ ▸ h c (List.mem_range.mp hc) blk
  simp only [logBlock, hnone]
theorem logBlocks_unlogged (h : ∀ c < 4, ∀ blk, liveIn s (ctxOf s k c) blk = false) (w : Option Nat) (l : List Nat) :
    l.foldl (fun s b => logBlock s k w b) s = s := by
  induction l with
  | nil => rfl
  | cons b l ih => rw [List.foldl_cons, logBlock_unlogged h, ih]
/-- Bytes put into a core's data memory: beside the memory, only its error marks and the notes of open commands change. -/
def Banked (s t : State) (k : Nat) (ps : List (Nat × Byte)) : Prop :=
  ∃ bq ue corr, t = setCore s k { coreOf s k with mem := memStore (coreOf s k).mem ps, bq := bq, eccUe := ue, eccCorr := corr }
/-- The bytes of a value at n places. -/
def valueAt (n : Nat) (place : Nat → Nat) (v : Nat) : List (Nat × Byte) :=
  (List.range n).map (fun i => (place i, BitVec.ofNat 8 (v / 256 ^ i)))

theorem banked_storeBytes (h : ∀ c < 4, ∀ blk, liveIn s (ctxOf s k c) blk = false) (w : Option Nat) {ps : List (Nat × Byte)}
    (hps : ∀ p ∈ ps, p.1 < 0x60000) : Banked s (storeBytes s k w ps) k ps := by
  simp only [storeBytes, logBlocks_unlogged h, foldl_setLocalByte ps hps]
  exact ⟨_, _, _, rfl⟩
theorem banked_portWrite (h : ∀ c < 4, ∀ blk, liveIn s (ctxOf s k c) blk = false) {off n v : Nat} {redirect : Bool}
    (hplace : ∀ i < n, portOffset s k (off + i) redirect < 0x60000) :
    Banked s (portWrite s k off (leBytes n v) redirect) k (valueAt n (fun i => portOffset s k (off + i) redirect) v) := by
  have hlow : ∀ p ∈ valueAt n (fun i => portOffset s k (off + i) redirect) v, p.1 < 0x60000 := by
    intro p hp
    obtain ⟨i, hi, rfl⟩ := List.mem_map.mp hp
    exact hplace i (List.mem_range.mp hi)
  have hps : (placed off (leBytes n v)).map (fun p => (portOffset s k p.1 redirect, p.2)) =
      valueAt n (fun i => portOffset s k (off + i) redirect) v := by
    rw [placed_leBytes, List.map_map]
    rfl
  have hbank : (valueAt n (fun i => portOffset s k (off + i) redirect) v).filter (fun p => p.1 < 0x70000) = valueAt n _ v :=
    List.filter_eq_self.mpr fun p hp => decide_eq_true (lt_trans (hlow p hp) (by omega))
  have hreg : (valueAt n (fun i => portOffset s k (off + i) redirect) v).filter (fun p => 0x70000 ≤ p.1) = [] :=
    List.filter_eq_nil_iff.mpr fun p hp hle => absurd (hlow p hp) (by have := of_decide_eq_true hle; omega)
  rw [portWrite, hps]
  rw [hbank, hreg]
  exact banked_storeBytes h none hlow
theorem storedAt_of_banked {n v : Nat} {place : Nat → Nat} (hwf : memWf (coreOf s k).mem = true) (hplaces : Places n place)
    (h : Banked s t k (valueAt n place v)) : StoredAt s t k n place v := by
  obtain ⟨bq, ue, corr, rfl⟩ := h
  refine ⟨fun i hi => ?_, fun a ha => ?_, fun j hj => ?_, fun j => ?_⟩
  · rw [coreOf_setCore_same]
    exact memByte_memStore_place hwf hplaces.2 hi
  · rw [coreOf_setCore_same]
    refine memByte_memStore_other hwf _ _ fun b hb => ?_
    obtain ⟨i, hi, rfl⟩ := List.mem_map.mp hb
    exact (ha i (List.mem_range.mp hi)).symm
  · rw [coreOf_setCore_other _ _ _ _ hj.symm]
  · by_cases hj : k = j
    · subst hj
      rw [coreOf_setCore_same]
      exact ⟨rfl, rfl⟩
    · rw [coreOf_setCore_other _ _ _ _ hj]
      exact ⟨rfl, rfl⟩

/-! ## Stores and memories left alone -/

theorem storedAt_after {n v : Nat} {place : Nat → Nat} (h : StoredAt s t k n place v) (h' : SameMemory t u) : StoredAt s u k n place v := by
  obtain ⟨hin, hout, hother, hplanes⟩ := h
  obtain ⟨-, -, -, hcore, -⟩ := h'
  refine ⟨fun i hi => ?_, fun a ha => ?_, fun j hj => (hcore j).1.trans (hother j hj), fun j => ?_⟩
  · rw [(hcore k).1]
    exact hin i hi
  · rw [(hcore k).1]
    exact hout a ha
  · exact ⟨(hcore j).2.1.trans (hplanes j).1, (hcore j).2.2.trans (hplanes j).2⟩
theorem storedAt_before {n v : Nat} {place : Nat → Nat} (h : SameMemory s t) (h' : StoredAt t u k n place v) : StoredAt s u k n place v := by
  obtain ⟨-, -, -, hcore, -⟩ := h
  obtain ⟨hin, hout, hother, hplanes⟩ := h'
  refine ⟨hin, fun a ha => ?_, fun j hj => (hother j hj).trans (hcore j).1, fun j => ?_⟩
  · rw [hout a ha, (hcore k).1]
  · exact ⟨(hplanes j).1.trans (hcore j).2.1, (hplanes j).2.trans (hcore j).2.2⟩

end

/-! ## The head of the port -/

section
variable {s t : State} {k dst : Nat} {r : Request} {l : List Request}

/-- The state whose port has given up its head. -/
def served (s : State) (k : Nat) (l : List Request) : State :=
  setCore { s with fresh := s.fresh + 1 } k { coreOf s k with
    portq := l, cnt := vset (coreOf s k).cnt 9 (satAdd (vget (coreOf s k).cnt 9 0) (Config.bankStall s.fresh)) }

theorem portHead_cons (h : (coreOf s k).portq = r :: l) : portHead s k = some (r, served s k l) := by
  rw [portHead, h]
  rfl
theorem portq_served : (coreOf (served s k l) k).portq = l := by rw [served, coreOf_setCore_same]
theorem sameMemory_served : SameMemory s (served s k l) :=
  sameMemory_trans (t := { s with fresh := s.fresh + 1 }) (sameMemory_of rfl rfl rfl rfl rfl) (sameMemory_setCore rfl rfl rfl)

/-! ## Answers and failures -/

/-- The port answers its issuer with a value, when a reply is asked for (R157). -/
def Answers (s t : State) (k dst : Nat) (r : Request) (v : Nat) : Prop :=
  r.rpy = true → ∃ tok, Sends s t 1 k dst (.reply r.cx r.id tok) ∧ tok.pay.toNat = v ∧ part tok.sb 13 6 = r.rt.toNat ∧ part tok.sb 5 1 = 0

theorem replySb_fields (rt : BitVec 6) (cx : Nat) (fm wd : Bool) :
    part (replySb rt cx fm wd false 0) 13 6 = rt.toNat ∧ part (replySb rt cx fm wd false 0) 5 1 = 0 := by
  have hrt := rt.isLt
  have hfm := Bool.toNat_lt fm
  have hwd := Bool.toNat_lt wd
  simp only [part, replySb, ofBool, BitVec.toNat_ofNat]
  cases fm <;> cases wd <;> simp <;> omega
theorem portq_replyTo {v : V512} : (coreOf (replyTo t (some k) r v) k).portq = (coreOf t k).portq := by
  simp only [replyTo, sendReply]
  split
  · split
    · rfl
    · exact portq_sendFlit
  · rfl
theorem sameMemory_replyTo {v : V512} : SameMemory t (replyTo t (some k) r v) := by
  simp only [replyTo, sendReply]
  split
  · split
    · exact sameMemory_refl t
    · exact sameMemory_sendFlit
  · exact sameMemory_refl t
theorem answers_replyTo {v : V512} (hdst : coreOfAddr t r.cx = some dst) (hflits : t.flits = s.flits) :
    Answers s (replyTo t (some k) r v) k dst r v.toNat := by
  intro hrpy
  simp only [replyTo, sendReply, hrpy, hdst, if_true]
  exact ⟨_, sends_sendFlit hflits, rfl, (replySb_fields ..)⟩
theorem fails_failRequest {code : BitVec 8} (hdst : coreOfAddr s r.cx = some dst) :
    let t := failRequest (served s k l) (some k) r code
    (coreOf t k).portq = l ∧ SameMemory s t ∧ ∃ wd, Sends s t 1 k dst (.failed r.cx r.id r.rpy code r.rt r.fm wd r.org) := by
  have hdst' : coreOfAddr (served s k l) r.cx = some dst := hdst
  simp only [failRequest, hdst']
  exact ⟨portq_sendFlit.trans portq_served, sameMemory_trans sameMemory_served sameMemory_sendFlit, _, sends_sendFlit rfl⟩

/-! ## Reads and writes (R147, R156) -/

theorem portRead_data {off n : Nat} (hoff : ∀ i < n, portOffset s k (off + i) false < 0x60000) :
    portRead s k off n = (List.range n).map (fun i => memByte (coreOf s k).mem (portOffset s k (off + i) false)) := by
  refine List.map_congr_left fun i hi => ?_
  have hlow := hoff i (List.mem_range.mp hi)
  dsimp only
  rw [if_pos (lt_trans hlow (by omega)), localByte, if_pos hlow]
theorem portq_countCorrected {off n : Nat} : (coreOf (countCorrected s k off n) k).portq = (coreOf s k).portq := by
  rw [countCorrected, coreOf_setCore_same]
theorem sameMemory_countCorrected {off n : Nat} : SameMemory s (countCorrected s k off n) := sameMemory_setCore rfl rfl rfl
theorem exec_read {off n : Nat} (hq : (coreOf s s.ev.x).portq = r :: l) (hkind : r.kind = .read n) (hplace : portPlace s r n = .ok off)
    (hbad : portBad s s.ev.x off n = false) : exec .remoteAccessServe s = .next
      (replyTo (countCorrected (served s s.ev.x l) s.ev.x off n) (some s.ev.x) r (ofBytes (portRead s s.ev.x off n))) := by
  show execRemoteAccessServe s = _
  simp only [execRemoteAccessServe, portHead_cons hq, hkind, hplace, hbad]
  rfl
theorem exec_read_failed {n : Nat} {code : BitVec 8} (hq : (coreOf s s.ev.x).portq = r :: l) (hkind : r.kind = .read n)
    (hplace : portPlace s r n = .error code) :
    exec .remoteAccessServe s = .next (failRequest (served s s.ev.x l) (some s.ev.x) r code) := by
  show execRemoteAccessServe s = _
  simp only [execRemoteAccessServe, portHead_cons hq, hkind, hplace]
theorem exec_read_uncorrectable {off n : Nat} (hq : (coreOf s s.ev.x).portq = r :: l) (hkind : r.kind = .read n)
    (hplace : portPlace s r n = .ok off) (hbad : portBad s s.ev.x off n = true) :
    exec .remoteAccessServe s = .next (consumeOnCore (served s s.ev.x l) s.ev.x 0x07) := by
  show execRemoteAccessServe s = _
  simp only [execRemoteAccessServe, portHead_cons hq, hkind, hplace, hbad]
  rfl
theorem exec_write {off n : Nat} {v : V512} (hq : (coreOf s s.ev.x).portq = r :: l) (hkind : r.kind = .write n v)
    (hplace : portPlace s r n = .ok off) : exec .remoteAccessServe s = .next
      (replyTo (writeDone (portWrite (served s s.ev.x l) s.ev.x off (leBytes n v.toNat) false) r.cx r.id) (some s.ev.x) r 0) := by
  show execRemoteAccessServe s = _
  simp only [execRemoteAccessServe, portHead_cons hq, hkind, hplace]
theorem exec_write_failed {n : Nat} {v : V512} {code : BitVec 8} (hq : (coreOf s s.ev.x).portq = r :: l) (hkind : r.kind = .write n v)
    (hplace : portPlace s r n = .error code) :
    exec .remoteAccessServe s = .next (failRequest (served s s.ev.x l) (some s.ev.x) r code) := by
  show execRemoteAccessServe s = _
  simp only [execRemoteAccessServe, portHead_cons hq, hkind, hplace]

theorem rollsBack_consumeOnCore {m : Nat} {code : BitVec 8} (h : regionOfCore s k = some m) : RollsBack s (consumeOnCore s k code) m code := by
  rw [consumeOnCore, h]
  exact ⟨congrArg Region.error (tget_tput_same ..), later_schedule⟩

theorem splitOf_eq_none_iff {id : Nat} : splitOf s id = none ↔ ∀ e ∈ s.core, ∀ p ∈ e.2.splits, p.id ≠ id := by
  simp [splitOf, List.findSome?_eq_none_iff]
theorem splitOf_setCore {c : Core} {id : Nat} (hc : c.splits = (coreOf s k).splits) (h : splitOf s id = none) :
    splitOf (setCore s k c) id = none := by
  rw [splitOf_eq_none_iff] at h ⊢
  refine forall_tput (P := fun (c : Core) => ∀ p ∈ c.splits, p.id ≠ id) h ?_
  rw [hc]
  exact tget_of_forall (P := fun (c : Core) => ∀ p ∈ c.splits, p.id ≠ id) h (fun _ hp => nomatch hp)
theorem splitOf_setCtx {c id : Nat} {x : Ctx} (h : splitOf s id = none) : splitOf (setCtx s k c x) id = none := splitOf_setCore rfl h
theorem splitOf_modCtx {addr id : Nat} {f : Ctx → Ctx} (h : splitOf s id = none) : splitOf (modCtx s addr f) id = none := by
  unfold modCtx
  split
  · exact splitOf_setCtx h
  · exact h
theorem splitOf_of_core {id : Nat} (hcore : t.core = s.core) (h : splitOf s id = none) : splitOf t id = none := by
  rwa [splitOf, hcore]
theorem splitOf_modAccess {addr n id : Nat} {f : Access → Access} (h : splitOf s id = none) :
    splitOf (modAccess s addr n f) id = none := by
  refine splitOf_of_core pokeTwins_core ?_
  unfold modTwins
  dsimp only
  split
  · exact splitOf_modCtx (splitOf_modCtx h)
  · exact splitOf_modCtx h

/-- A state of a step whose port has given up its head and has not written yet. -/
structure Ready (s t : State) (k : Nat) (l : List Request) : Prop where
  queue : (coreOf t k).portq = l
  inj : (coreOf t k).inj = (coreOf s k).inj
  memory : SameMemory s t
  quiet : ∀ c < 4, ∀ blk, liveIn t (ctxOf t k c) blk = false
  place : ∀ off, portOffset t k off false = portOffset s k off false
  flits : t.flits = s.flits
  map : ∀ addr, coreOfAddr t addr = coreOfAddr s addr
  splits : ∀ id, splitOf s id = none → splitOf t id = none

theorem ready_setCore {c : Core} (h : Ready s t k l) (hc : c = { coreOf t k with eccCorr := c.eccCorr, cnt := c.cnt }) :
    Ready s (setCore t k c) k l := by
  have hcore : coreOf (setCore t k c) k = { coreOf t k with eccCorr := c.eccCorr, cnt := c.cnt } := by rw [coreOf_setCore_same, ← hc]
  refine ⟨by rw [hcore, ← h.queue], by rw [hcore, ← h.inj], sameMemory_trans h.memory ?_, fun d hd blk => ?_, fun off => ?_, h.flits, h.map,
    fun id hid => splitOf_setCore (by rw [hc]) (h.splits id hid)⟩
  · exact sameMemory_setCore (by rw [hc]) (by rw [hc]) (by rw [hc])
  · rw [ctxOf, hcore]
    exact h.quiet d hd blk
  · rw [← h.place off, portOffset, hcore]
    rfl
theorem ready_served (h : Unlogged s k) : Ready s (served s k l) k l := by
  refine ⟨portq_served, by rw [served, coreOf_setCore_same], sameMemory_served, fun c hc blk => ?_, fun off => ?_, rfl, fun _ => rfl,
    fun id hid => splitOf_setCore (s := { s with fresh := s.fresh + 1 }) rfl hid⟩
  · rw [served, ctxOf, coreOf_setCore_same]
    exact h.2 c hc blk
  · rw [served, portOffset, coreOf_setCore_same]
    rfl
theorem ready_mendWords {ws : List Nat} (h : Ready s t k l) : Ready s (mendWords t k ws) k l := ready_setCore h rfl
theorem ready_countAmo {f : Flags} (h : Ready s t k l) : Ready s (countAmo t k f) k l := ready_setCore h rfl

/-- A state of a step whose port has written: the bytes stand at their places. -/
structure Performed (s t : State) (k : Nat) (l : List Request) (n : Nat) (place : Nat → Nat) (v : Nat) : Prop where
  queue : (coreOf t k).portq = l
  stored : StoredAt s t k n place v
  flits : t.flits = s.flits
  map : ∀ addr, coreOfAddr t addr = coreOfAddr s addr
  splits : ∀ id, splitOf s id = none → splitOf t id = none

theorem performed_portWrite {off n v : Nat} (h : Ready s t k l) (hwf : memWf (coreOf s k).mem = true)
    (hplaces : Places n (fun i => portOffset s k (off + i) false)) :
    Performed s (portWrite t k off (leBytes n v) false) k l n (fun i => portOffset s k (off + i) false) v := by
  have hplace : (fun i => portOffset t k (off + i) false) = fun i => portOffset s k (off + i) false := funext fun i => h.place _
  have hbanked : Banked t (portWrite t k off (leBytes n v) false) k (valueAt n (fun i => portOffset s k (off + i) false) v) := by
    rw [← hplace] at hplaces ⊢
    exact banked_portWrite h.quiet hplaces.1
  have hwf' : memWf (coreOf t k).mem = true := by rwa [(h.memory.2.2.2.1 k).1]
  have hstored := storedAt_before h.memory (storedAt_of_banked hwf' hplaces hbanked)
  obtain ⟨bq, ue, corr, heq⟩ := hbanked
  refine ⟨?_, hstored, ?_, fun addr => ?_, fun id hid => ?_⟩
  · rw [heq, coreOf_setCore_same, ← h.queue]
  · rw [heq, ← h.flits]
    rfl
  · rw [heq, ← h.map]
    rfl
  · rw [heq]
    exact splitOf_setCore rfl (h.splits id hid)
theorem performed_writeDone {n v addr id : Nat} {place : Nat → Nat} (h : Performed s t k l n place v) :
    Performed s (writeDone t addr id) k l n place v := by
  have hset : Settles t (writeDone t addr id) := settles_modAccess
  obtain ⟨ctx, hcore⟩ := settles_core hset k
  exact ⟨by rw [hcore, ← h.queue], storedAt_after h.stored (settles_sameMemory hset), (settles_flits hset).trans h.flits,
    fun a => (settles_coreOfAddr hset a).trans (h.map a), fun i hi => splitOf_modAccess (h.splits i hi)⟩
theorem answered {n v : Nat} {w : V512} {place : Nat → Nat} (h : Performed s t k l n place v) (hdst : coreOfAddr s r.cx = some dst) :
    let u := replyTo t (some k) r w
    (coreOf u k).portq = l ∧ StoredAt s u k n place v ∧ Answers s u k dst r w.toNat :=
  ⟨portq_replyTo.trans h.queue, storedAt_after h.stored sameMemory_replyTo, answers_replyTo ((h.map _).trans hdst) h.flits⟩

/-! ## Atomics (R160) -/

theorem finishAmo_unmerged {old : Nat} (h : splitOf t r.id = none) (hdone : splitOf (writeDone t r.cx r.id) r.id = none) :
    finishAmo t k r old = replyTo (writeDone t r.cx r.id) (some k) r (BitVec.ofNat 512 old) := by
  have hleaves : leaves t r (mergeDepth t) = [r] := by
    rw [mergeDepth, leaves, h]
  simp only [finishAmo, hleaves, List.foldl_cons, List.foldl_nil, answerAmo, hdone]
theorem exec_amo {op n off old : Nat} {x c : W64} (hq : (coreOf s s.ev.x).portq = r :: l) (hkind : r.kind = .amo op n x c)
    (hplace : portPlace s r n = .ok off) (hbad : portBad s s.ev.x off n = false) (hinj : portInjected (coreOf s s.ev.x) = false)
    (hready : ∀ ws, Ready s (mendWords (served s s.ev.x l) s.ev.x ws) s.ev.x l) (hold : leNat (portRead s s.ev.x off n) = old) :
    exec .amoPerform s = .next (finishAmo (portWrite (countAmo (mendWords (served s s.ev.x l) s.ev.x
      (portWords (served s s.ev.x l) s.ev.x off n)) s.ev.x (amoResult op n old x.toNat c.toNat).2) s.ev.x off
      (leBytes n (amoResult op n old x.toNat c.toNat).1) false) s.ev.x r old) := by
  have hinj' (ws : List Nat) : portInjected (coreOf (mendWords (served s s.ev.x l) s.ev.x ws) s.ev.x) = false := by
    rw [portInjected, (hready ws).inj]
    exact hinj
  show execAmoPerform s = _
  simp only [execAmoPerform, portHead_cons hq, hkind, hplace, hbad, amoCheck, hinj', hold]
  rfl
theorem exec_amo_failed {op n : Nat} {x c : W64} {code : BitVec 8} (hq : (coreOf s s.ev.x).portq = r :: l)
    (hkind : r.kind = .amo op n x c) (hplace : portPlace s r n = .error code) (hsplit : splitOf (served s s.ev.x l) r.id = none) :
    exec .amoPerform s = .next (failRequest (served s s.ev.x l) (some s.ev.x) r code) := by
  show execAmoPerform s = _
  simp only [execAmoPerform, portHead_cons hq, hkind, hplace, failAmo, hsplit]

/-! ## The arithmetic of atomics (R160) -/

/-- The value of n bytes as a two's complement number. -/
def signedValue (n v : Nat) : Int := if 2 * v < 256 ^ n then (v : Int) else v - 256 ^ n

theorem toSigned_bytes {n v : Nat} (hn : 0 < n) (hv : v < 256 ^ n) : toSigned (8 * n) v = signedValue n v := by
  have hpow : 2 ^ (8 * n) = 256 ^ n := by rw [pow_mul]; rfl
  have hhalf : 2 * 2 ^ (8 * n - 1) = 256 ^ n := by rw [← pow_succ', Nat.sub_add_cancel (by omega), hpow]
  have hpowI : (2 : Int) ^ (8 * n) = 256 ^ n := by rw [pow_mul]; rfl
  rw [toSigned, signedValue, hpow, Nat.mod_eq_of_lt hv, hpowI]
  split_ifs <;> first | rfl | omega
theorem amoResult_values {op n old x c : Nat} (hn : n ∈ [1, 2, 4, 8]) (ho : old < 256 ^ n) (hx : x < 256 ^ n) (hc : c < 256 ^ n) :
    let new := (amoResult op n old x c).1
    (op = 0 → new = (old + x) % 256 ^ n) ∧
    (op = 1 → signedValue n new = min (signedValue n old) (signedValue n x)) ∧
    (op = 2 → signedValue n new = max (signedValue n old) (signedValue n x)) ∧
    (op = 3 → new = min old x) ∧ (op = 4 → new = max old x) ∧ (op = 5 → new = old &&& x) ∧ (op = 6 → new = old ||| x) ∧
    (op = 7 → new = old ^^^ x) ∧ (op = 8 → new = x) ∧ (op = 9 → new = if old = c then x else old) ∧
    (op = 10 → new = (fpAdd 2 0 old x).1) ∧ (op = 11 → new = (fpAdd 3 0 old x).1) := by
  have hpos : 0 < n := by
    simp only [List.mem_cons, List.not_mem_nil, or_false] at hn
    omega
  have hpow : 2 ^ (8 * n) = 256 ^ n := by rw [pow_mul]; rfl
  have hso := toSigned_bytes hpos ho
  have hsx := toSigned_bytes hpos hx
  refine ⟨?_, ?_, ?_, ?_, ?_, ?_, ?_, ?_, ?_, ?_, ?_, ?_⟩ <;> rintro rfl <;>
    simp only [amoResult, hpow, Nat.mod_eq_of_lt ho, Nat.mod_eq_of_lt hx, Nat.mod_eq_of_lt hc, hso, hsx, beq_iff_eq]
  · rw [apply_ite (signedValue n), min_def]
    split_ifs <;> omega
  · rw [apply_ite (signedValue n), max_def]
    split_ifs <;> omega

/-! ## Where a request acts (R158; 12_package_launch, R329) -/

theorem portPlace_local {n off : Nat} (hspace : field r.addr 62 2 = 0) (hoff : off = field r.addr 0 19) :
    portPlace s r n = if off < 0x60000 ∧ (windowOf s (field r.addr 52 9) (field r.addr 44 8)).2 < off + n then .error 0x09
      else if 0x60000 < off + n ∧ r.priv = false then .error 0x0A
      else .ok (if off < 0x60000 then (windowOf s (field r.addr 52 9) (field r.addr 44 8)).1 + off else off) := by
  subst hoff
  simp only [portPlace, windowed, bits_eq_field r.addr 63 62 2 rfl, bits_eq_field r.addr 60 52 9 rfl, bits_eq_field r.addr 51 44 8 rfl,
    bits_eq_field r.addr 18 0 19 rfl, hspace, bne_self_eq_false, Bool.and_eq_true, decide_eq_true_eq, Bool.not_eq_true', cRange, cPriv]
  rfl

/-! ## Publish windows (R172) -/

/-- The state of a port whose window has changed buffers, when it is defined. -/
def flipped (s : State) (k win : Nat) : State :=
  if bitAt (vget (coreOf s k).pubw win 0) 63 then
    setCore s k { coreOf s k with pubw := vset (coreOf s k).pubw win (vget (coreOf s k).pubw win 0 ^^^ (1#64 <<< 62)) }
  else s

theorem exec_publish {win : Nat} {tag : Option Nat} (hq : (coreOf s s.ev.x).portq = r :: l) (hkind : r.kind = .publish win tag) :
    exec .publishFlip s = .next (completeCommand (flipped (served s s.ev.x l) s.ev.x win) r.cx r.id tag) := by
  show execPublishFlip s = _
  simp only [execPublishFlip, portHead_cons hq, hkind]
  rfl
theorem portq_flipped {win : Nat} : (coreOf (flipped s k win) k).portq = (coreOf s k).portq := by
  unfold flipped
  split
  · rw [coreOf_setCore_same]
  · rfl
theorem sameMemory_flipped {win : Nat} : SameMemory s (flipped s k win) := by
  unfold flipped
  split
  · exact sameMemory_setCore rfl rfl rfl
  · exact sameMemory_refl s
theorem pubw_flipped {win j : Nat} (hj : j < 8) : vget (coreOf (flipped s k win) k).pubw j 0 =
    if j = win ∧ (vget (coreOf s k).pubw j 0).getLsbD 63 = true then vget (coreOf s k).pubw j 0 ^^^ (1#64 <<< 62)
    else vget (coreOf s k).pubw j 0 := by
  unfold flipped
  by_cases hwin : j = win
  · subst hwin
    by_cases hdef : bitAt (vget (coreOf s k).pubw j 0) 63 = true
    · rw [if_pos hdef, coreOf_setCore_same, vget_vset_same _ _ _ _ hj, if_pos ⟨rfl, hdef⟩]
    · rw [if_neg hdef, if_neg (fun h => hdef h.2)]
  · rw [if_neg (c := j = win ∧ _) (fun h => hwin h.1)]
    split
    · rw [coreOf_setCore_same, vget_vset_other _ _ _ _ _ (Ne.symm hwin)]
    · rfl
theorem ctx_flipped {win j : Nat} : (coreOf (flipped s k win) j).ctx = (coreOf s j).ctx := by
  unfold flipped
  split
  · rw [ctx_setCore]
    rfl
  · rfl
theorem map_flipped {win addr : Nat} : coreOfAddr (flipped s k win) addr = coreOfAddr s addr := by
  unfold flipped
  split <;> rfl
/-- The state after a publish: the window has changed buffers and the command is complete. -/
def published (s : State) (k : Nat) (l : List Request) (win : Nat) (r : Request) (tag : Option Nat) : State :=
  completeCommand (flipped (served s k l) k win) r.cx r.id tag
theorem settles_published {win : Nat} {tag : Option Nat} : Settles (flipped (served s k l) k win) (published s k l win r tag) :=
  settles_completeCommand
theorem tagSet_published {win : Nat} {tag : Option Nat} : TagSet s (published s k l win r tag) r.cx tag := by
  have hserved (j : Nat) : (coreOf (served s k l) j).ctx = (coreOf s j).ctx := by
    rw [served, ctx_setCore]
    · rfl
    · rfl
  exact tagSet_before (t := flipped (served s k l) k win) map_flipped (fun j => ctx_flipped.trans (hserved j))
    (tagSet_completeCommand (flipped (served s k l) k win) r.cx r.id tag)
theorem sameMemory_published {win : Nat} {tag : Option Nat} : SameMemory s (published s k l win r tag) :=
  sameMemory_trans (sameMemory_trans sameMemory_served sameMemory_flipped) (settles_sameMemory settles_published)
theorem portq_published {win : Nat} {tag : Option Nat} : (coreOf (published s k l win r tag) k).portq = l := by
  obtain ⟨ctx, h⟩ := settles_core (settles_published (s := s) (l := l) (r := r) (win := win) (tag := tag)) k
  rw [h]
  exact portq_flipped.trans portq_served
theorem pubw_published {win : Nat} {tag : Option Nat} {j : Nat} (hj : j < 8) : vget (coreOf (published s k l win r tag) k).pubw j 0 =
    if j = win ∧ (vget (coreOf s k).pubw j 0).getLsbD 63 = true then vget (coreOf s k).pubw j 0 ^^^ (1#64 <<< 62)
    else vget (coreOf s k).pubw j 0 := by
  have hserved : (coreOf (served s k l) k).pubw = (coreOf s k).pubw := by rw [served, coreOf_setCore_same]
  obtain ⟨ctx, h⟩ := settles_core (settles_published (s := s) (l := l) (r := r) (win := win) (tag := tag)) k
  rw [h, ← hserved]
  exact pubw_flipped hj

/-! ## The bucket (07_core_failures, R208) -/

theorem toNat_pred {b : W32} (h : b.toNat % 256 ≠ 0) : (b - 1).toNat = b.toNat - 1 := by
  have hone : (1 : W32).toNat = 1 := rfl
  rw [BitVec.toNat_sub_of_le (by rw [BitVec.le_def, hone]; omega), hone]
theorem bucket_fallen {b : W32} (h : b.toNat % 256 ≠ 0) : putBits b 7 0 (bits b 7 0 - 1) = b - 1 := by
  have hb := b.isLt
  have hpred := toNat_pred h
  apply BitVec.eq_of_toNat_eq
  rw [putBits, hpred, BitVec.toNat_ofNat, bits_eq_field_nat b 7 0 8 rfl]
  simp only [pow_zero, Nat.div_one, Nat.mod_one]
  omega
theorem exec_leak_early {k at_ : Nat} (hx : s.ev.x = k) (hy : s.ev.y = at_) (h : clusterCycles s (clusterKey k) < at_) :
    exec .bucketLeak s = .next (scheduleLeak s k at_) := by
  show execBucketLeak s = _
  simp only [execBucketLeak, hx, hy, if_pos h]
/-- The state whose bucket has leaked by one. -/
def leaked (s : State) (k at_ : Nat) : State :=
  setCore s k { coreOf s k with bucket := (coreOf s k).bucket - 1, leakAt := some at_ }
theorem exec_leak {k at_ : Nat} (hx : s.ev.x = k) (hy : s.ev.y = at_) (h : at_ ≤ clusterCycles s (clusterKey k))
    (hb : (coreOf s k).bucket.toNat % 256 ≠ 0) : exec .bucketLeak s = .next
      (if (coreOf s k).bucket.toNat % 256 = 1 then leaked s k at_
        else scheduleLeak (leaked s k at_) k (at_ + 2 ^ max 10 ((coreOf s k).bucket.toNat / 2 ^ 8 % 32))) := by
  have hlevel : (bits (coreOf s k).bucket 7 0 - 1 == 0) = decide ((coreOf s k).bucket.toNat % 256 = 1) := by
    rw [bits_eq_field_nat _ 7 0 8 rfl, pow_zero, Nat.div_one]
    rw [Bool.eq_iff_iff, beq_iff_eq, decide_eq_true_eq]
    omega
  have hcycles : leakCycles (leaked s k at_) k = 2 ^ max 10 ((coreOf s k).bucket.toNat / 2 ^ 8 % 32) := by
    rw [leakCycles, leaked, coreOf_setCore_same]
    dsimp only
    rw [bits_eq_field_nat _ 12 8 5 rfl, toNat_pred hb]
    congr 2
    omega
  show execBucketLeak s = _
  simp only [execBucketLeak, hx, hy, if_neg (Nat.not_lt.mpr h), bucket_fallen hb, hlevel, decide_eq_true_eq]
  rw [← hcycles]
  rfl

end

/-- Settles O41: the port gives up its head, then answers, stores or fails it; a leak lowers LEVEL and stands by for the next. -/
theorem memoryPortServesItsHead : Obligations.MemoryPortServesItsHead := by
  refine ⟨?_, fun op n old x c hn ho hx hc => amoResult_values hn ho hx hc, fun s r n off hspace _ hoff => portPlace_local hspace hoff, ?_, ?_⟩
  · rintro s _ dst r l rfl hq hdst
    refine ⟨?_, ?_, ?_, ?_, ?_, ?_, ?_⟩
    · intro n off hkind hplace _ hplaces hbad
      refine ⟨_, exec_read hq hkind hplace hbad, portq_replyTo.trans (portq_countCorrected.trans portq_served), ?_, _,
        answers_replyTo hdst rfl, fun i hi => ?_⟩
      · exact sameMemory_trans sameMemory_served (sameMemory_trans sameMemory_countCorrected sameMemory_replyTo)
      · rw [portRead_data hplaces.1]
        exact ofBytes_byte _ n hi
    · intro n v off hkind hplace hplaces _ hquiet
      obtain ⟨hqueue, hstored, hanswers⟩ :=
        answered (w := 0) (performed_writeDone (addr := r.cx) (id := r.id) (performed_portWrite (v := v.toNat) (ready_served hquiet) hquiet.1 hplaces)) hdst
      rw [show (0 : V512).toNat = 0 from BitVec.toNat_zero ..] at hanswers
      exact ⟨_, exec_write hq hkind hplace, hqueue, hstored, hanswers⟩
    · exact fun n code hkind hplace => ⟨_, exec_read_failed hq hkind hplace, fails_failRequest hdst⟩
    · exact fun n v code hkind hplace => ⟨_, exec_write_failed hq hkind hplace, fails_failRequest hdst⟩
    · intro n off m hkind hplace hbad hregion
      have hserved : regionOfCore (served s s.ev.x l) s.ev.x = some m := by
        rwa [regionOfCore, served, coreOf_setCore_same]
      obtain ⟨herror, hlater⟩ := rollsBack_consumeOnCore (code := 0x07) hserved
      refine ⟨_, exec_read_uncorrectable hq hkind hplace hbad, ?_, ⟨herror, hlater⟩, ?_⟩
      · rw [consumeOnCore, hserved]
        exact portq_served
      · rw [consumeOnCore, hserved]
        rfl
    · intro op n x c off old hkind hplace _ hplaces hn hbad hquiet hinj hsplit hold
      have hready := ready_served (l := l) hquiet
      have holdlt : old < 2 ^ 512 := by
        have hlt := leNat_lt ((List.range n).map (fun i => memByte (coreOf s s.ev.x).mem (portOffset s s.ev.x (off + i) false)))
        have hn8 : n ≤ 64 := by
          simp only [List.mem_cons, List.not_mem_nil, or_false] at hn
          omega
        rw [hold]
        refine lt_of_lt_of_le hlt (le_trans (Nat.pow_le_pow_right (by omega) (by simpa using hn8)) ?_)
        rw [show 256 = 2 ^ 8 from rfl, ← pow_mul]
      have hrun := exec_amo hq hkind hplace hbad hinj (fun ws => ready_mendWords hready) ((congrArg leNat (portRead_data hplaces.1)).trans hold.symm)
      have hwritten := performed_portWrite (off := off) (v := (amoResult op n old x.toNat c.toNat).1)
        (ready_countAmo (f := (amoResult op n old x.toNat c.toNat).2)
          (ready_mendWords (ws := portWords (served s s.ev.x l) s.ev.x off n) hready)) hquiet.1 hplaces
      have hdone := performed_writeDone (addr := r.cx) (id := r.id) hwritten
      rw [finishAmo_unmerged (hwritten.splits _ hsplit) (hdone.splits _ hsplit)] at hrun
      obtain ⟨hqueue, hstored, hanswers⟩ := answered (w := BitVec.ofNat 512 old) hdone hdst
      rw [BitVec.toNat_ofNat, Nat.mod_eq_of_lt holdlt] at hanswers
      exact ⟨_, hrun, hqueue, hanswers, hstored⟩
    · intro op n x c code hkind hplace hsplit
      exact ⟨_, exec_amo_failed hq hkind hplace (splitOf_setCore (s := { s with fresh := s.fresh + 1 }) rfl hsplit), fails_failRequest hdst⟩
  · rintro s _ win tag r l rfl hq hkind _ _
    exact ⟨_, exec_publish hq hkind, portq_published, tagSet_published, sameMemory_published, fun j hj => pubw_published hj⟩
  · intro s k at_ hx hy
    refine ⟨fun hearly => ⟨_, exec_leak_early hx hy hearly, rfl, later_schedule⟩, fun hdue hlevel => ⟨_, exec_leak hx hy hdue hlevel, ?_⟩⟩
    have hleaked : coreOf (leaked s k at_) k = { coreOf s k with bucket := (coreOf s k).bucket - 1, leakAt := some at_ } := by
      rw [leaked, coreOf_setCore_same]
    have hmem : SameMemory s (leaked s k at_) := sameMemory_setCore rfl rfl rfl
    split
    · exact ⟨hleaked, hmem, fun h => by omega⟩
    · exact ⟨hleaked, hmem, fun _ => later_schedule⟩

end Sys2Proof.Machine
end

