-- ==== Sys2Proof/Proofs/UnorderedCores.lean ====
section
/-! PROOF. A table of cores whose keys do not rise, which no step of the part leaves but which the statement about the mesh admits: the
grant of an output writes core 0 before the others, and of two split records of one number (08_cluster, R242) the other core's is no
longer the first. The acknowledgements owed for the merged request go to the sources of the record found after the grant. -/
namespace Sys2Proof.Machine
open Sys2Proof.Claims

/-- A read of core memory that a core has sent, under a number. -/
def readFrom (core id : Nat) : Request :=
  { id := id, core := core, cx := 0, kind := .read 8, addr := 0, rt := 0, rpy := false, fm := false, priv := false, queue := 0, fails := 0,
    org := Origin.none }
/-- A split record of request 1 with two sources. -/
def splitOver (a b : Nat) : Split := { id := 1, first := readFrom a 2, second := readFrom b 3, ports := [] }
/-- Request 1 at the head of input port 1 of core 0, which is its destination. -/
def arrivingFlit : Flit :=
  { cls := 0, src := 5, dst := 0, bank := 0, at_ := 0, port := 1, cistern := false, reserved := false, body := .request (readFrom 5 1),
    orig := 5, ready := 0 }
/-- Core 5 listed before core 0; each keeps a split record of request 1. -/
def unorderedState : State :=
  { State.reset with
    ev := { EvArgs.none with y := 1 }
    core := [(5, { Core.reset 5 with splits := [splitOver 7 8] }), (0, { Core.reset 0 with splits := [splitOver 9 10] })]
    flits := [arrivingFlit] }
/-- The acknowledgements that core 0 owes in the state that an outcome gives. -/
def owedAfter : Outcome → List (Nat × Nat)
  | .next t => (coreOf t 0).owed
  | _ => []

theorem unorderedState_head : Head unorderedState 0 1 0 false arrivingFlit := by
  unfold Head
  decide +kernel
theorem unorderedState_unmerged : mergeHeads unorderedState 0 1 = none := by decide +kernel
theorem unorderedState_free : clockStopped unorderedState 0 = false ∧ weirHolds unorderedState 0 1 0 = false ∧
    portHeld unorderedState 0 1 = false ∧ asleep unorderedState 0 arrivingFlit = false := by
  decide +kernel
theorem unorderedState_local : outputPort unorderedState 0 arrivingFlit = 0 := by decide +kernel
theorem unorderedState_open : outputTaken unorderedState 0 0 0 = false := by decide +kernel
theorem unorderedState_sources : ackSources unorderedState arrivingFlit = [7, 8] := by decide +kernel
theorem unorderedState_owes : owedAfter (exec .flitHop unorderedState) = [(9, 0), (10, 0)] := by decide +kernel
theorem unorderedState_owed : (coreOf unorderedState 0).owed = [] := by decide +kernel

/-- Refutes O45: with the cores out of order the hop owes acknowledgements to cores 9 and 10, and the statement names 7 and 8. -/
theorem not_meshMovesFlits : ¬ Obligations.MeshMovesFlits := by
  intro h
  obtain ⟨-, hhop, -⟩ := h
  obtain ⟨-, hrouter⟩ := hhop unorderedState 0 1 0 arrivingFlit rfl rfl rfl
  obtain ⟨-, hmoves⟩ := hrouter (by decide) (by decide) unorderedState_head (fun _ => unorderedState_unmerged)
  obtain ⟨hclock, hweir, hport, hawake⟩ := unorderedState_free
  obtain ⟨-, -, hout⟩ := hmoves (by
    rw [hclock, hweir, hport]
    decide)
  obtain ⟨hlocal, -⟩ := hout hawake (by rw [unorderedState_local]; exact unorderedState_open)
  obtain ⟨t, ht, -, howed, -⟩ := hlocal unorderedState_local
  have howes := unorderedState_owes
  rw [ht, owedAfter, howed, unorderedState_sources, unorderedState_owed] at howes
  exact absurd howes (by decide)

end Sys2Proof.Machine
end

