-- ==== Sys2Proof/Proofs/DieClocks.lean ====
section
/-! PROOF. VF requests and clocks, bands, weir limits and time of a die (10_die, R280, R281, R283, R285 to R287; 14_package_host,
R380). -/
namespace Sys2Proof.Machine
open Sys2Proof.Claims

section
variable {s t u : State} {die k : Nat}

/-! ## What steps of a die leave -/

theorem sameMemory_setDie {d : Nat} {x : Die} (h : x.pinned = (dieOf s d).pinned) : SameMemory s (setDie s d x) := by
  refine ⟨rfl, rfl, rfl, fun _ => ⟨rfl, rfl, rfl⟩, fun e => ?_⟩
  by_cases he : d = e
  · subst he
    rw [dieOf_setDie_same, h]
  · rw [dieOf_setDie_other _ _ _ _ he]
theorem sameMemory_schedule {due : Nat} {op : Instr} {args : EvArgs} : SameMemory s (schedule s due op args) :=
  sameMemory_of rfl rfl rfl rfl rfl
theorem sameMemory_countDie {d n m : Nat} : SameMemory s (countDie s d n m) := sameMemory_setDie rfl
theorem dieOf_countDie {n m : Nat} : dieOf (countDie s die n m) die =
    { dieOf s die with cnt := vset (dieOf s die).cnt n (satAdd (vget (dieOf s die).cnt n 0) m) } := dieOf_setDie_same ..
theorem toNat_counted (v : W32) (m : Nat) : (satAdd v m).toNat = more v m := toNat_satAdd v m
theorem cnt_countDie {n m : Nat} (hn : n < 7) :
    (vget (dieOf (countDie s die n m) die).cnt n 0).toNat = more (vget (dieOf s die).cnt n 0) m := by
  rw [dieOf_countDie]
  exact (congrArg BitVec.toNat (vget_vset_same _ _ _ _ hn)).trans (toNat_counted _ _)

/-- A state in which at most the steps to come differ. -/
def AgendaOnly (s t : State) : Prop := ∃ agenda, t = { s with agenda := agenda }

theorem agendaOnly_refl (s : State) : AgendaOnly s s := ⟨s.agenda, rfl⟩
theorem agendaOnly_schedule {due : Nat} {op : Instr} {args : EvArgs} : AgendaOnly s (schedule s due op args) := ⟨_, rfl⟩
theorem agendaOnly_trans (h : AgendaOnly s t) (h' : AgendaOnly t u) : AgendaOnly s u := by
  obtain ⟨_, rfl⟩ := h
  obtain ⟨agenda, rfl⟩ := h'
  exact ⟨agenda, rfl⟩
theorem agendaOnly_foldl {α : Type} {f : State → α → State} (hf : ∀ s a, AgendaOnly s (f s a)) (l : List α) (s : State) :
    AgendaOnly s (l.foldl f s) := by
  induction l generalizing s with
  | nil => exact agendaOnly_refl s
  | cons a l ih => exact agendaOnly_trans (hf s a) (ih (f s a))
theorem agendaOnly_poke {addr : Nat} : AgendaOnly s (poke s addr) := by
  unfold poke
  split
  · dsimp only
    split
    · exact agendaOnly_refl s
    · split
      · exact agendaOnly_trans agendaOnly_schedule agendaOnly_schedule
      · exact agendaOnly_schedule
  · exact agendaOnly_refl s
theorem agendaOnly_pokeResidents (l : List Ctx) : AgendaOnly s (l.foldl (fun s x => if x.resident then poke s (ctxAddr x) else s) s) := by
  refine agendaOnly_foldl (fun s x => ?_) l s
  split
  · exact agendaOnly_poke
  · exact agendaOnly_refl s
theorem agendaOnly_sameMemory (h : AgendaOnly s t) : SameMemory s t := by
  obtain ⟨_, rfl⟩ := h
  exact sameMemory_of rfl rfl rfl rfl rfl
theorem agendaOnly_dieOf (h : AgendaOnly s t) (d : Nat) : dieOf t d = dieOf s d := by
  obtain ⟨_, rfl⟩ := h
  rfl

/-! ## VF regions of a die -/

@[simp] theorem vfOf_setVf_same {v : VfRegion} (hk : k < 4) : vfOf (setVf s die k v) die k = v := by
  rw [vfOf, setVf, dieOf_setDie_same]
  exact vget_vset_same _ _ _ _ hk
theorem vfOf_setVf_other {v : VfRegion} {j : Nat} (hj : k ≠ j) : vfOf (setVf s die k v) die j = vfOf s die j := by
  rw [vfOf, setVf, dieOf_setDie_same]
  exact vget_vset_other _ _ _ _ _ hj
theorem sameMemory_setVf {v : VfRegion} : SameMemory s (setVf s die k v) := sameMemory_setDie rfl
theorem vfOf_eq_of (h : (dieOf t die).vf = (dieOf s die).vf) (j : Nat) : vfOf t die j = vfOf s die j := by
  rw [vfOf, h]
  rfl
theorem vf_countDie {n m : Nat} : (dieOf (countDie s die n m) die).vf = (dieOf s die).vf := by rw [dieOf_countDie]

/-- A state in which at most the region slots differ. -/
def RegionsOnly (s t : State) : Prop := ∃ region, t = { s with region := region }

theorem regionsOnly_noteBeats (s : State) : RegionsOnly s (noteBeats s) := by
  unfold noteBeats
  generalize s.region.map (fun e => e.1) = l
  induction l generalizing s with
  | nil => exact ⟨s.region, rfl⟩
  | cons n l ih =>
    have hone : RegionsOnly s (noteBeat s n) := by
      unfold noteBeat
      dsimp only
      split
      · exact ⟨_, rfl⟩
      · exact ⟨s.region, rfl⟩
    obtain ⟨region, h⟩ := ih (noteBeat s n)
    obtain ⟨region', h'⟩ := hone
    refine ⟨region, ?_⟩
    rw [List.foldl_cons, h, h']
theorem sameMemory_noteBeats (s : State) : SameMemory s (noteBeats s) := by
  obtain ⟨_, h⟩ := regionsOnly_noteBeats s
  rw [h]
  exact sameMemory_of rfl rfl rfl rfl rfl
theorem dieOf_noteBeats (s : State) (d : Nat) : dieOf (noteBeats s) d = dieOf s d := by
  obtain ⟨_, h⟩ := regionsOnly_noteBeats s
  rw [h]
  rfl

/-! ## VF requests (R280, R281) -/

section
variable (hx : s.ev.x = die) (hy : s.ev.y = k)
include hx hy

theorem vfRequestApply_busy (hbusy : (vfOf s die k).busy = true) : exec .vfRequestApply s = .next (again s .vfRequestApply) := by
  show execVfRequestApply s = _
  simp only [execVfRequestApply, hx, hy, hbusy, if_true]
theorem vfRequestApply_nothing (hbusy : (vfOf s die k).busy = false) (hz : s.ev.z = 0) (hpt : (vfOf s die k).rpt = (vfOf s die k).pt)
    (hf : clampFreq (vfOf s die k) = (vfOf s die k).freq) :
    exec .vfRequestApply s = .next (setVf s die k { vfOf s die k with pend := false }) := by
  show execVfRequestApply s = _
  simp only [execVfRequestApply, hx, hy, hbusy, hz, hpt, hf, beq_self_eq_true, Bool.and_self, if_true]
  rfl
/-- A VF region whose change begins: its clock stops with its cycles counted. -/
def begun (s : State) (v : VfRegion) : VfRegion :=
  { v with busy := true, newPt := v.rpt, newFreq := clampFreq v, cyc := vfCycles s v, cycAt := s.now, off := true }
theorem vfRequestApply_begins (hbusy : (vfOf s die k).busy = false)
    (h : s.ev.z ≠ 0 ∨ (vfOf s die k).rpt ≠ (vfOf s die k).pt ∨ clampFreq (vfOf s die k) ≠ (vfOf s die k).freq) :
    exec .vfRequestApply s = .next (schedule (setVf (noteBeats s) die k (begun s (vfOf s die k)))
      (s.now + if (vfOf s die k).rpt = (vfOf s die k).pt ∧ s.ev.z ≠ 2 then 200 else 2000) .vfClockResume (evArgs die k 0)) := by
  have hno : (s.ev.z == 0 && (vfOf s die k).rpt == (vfOf s die k).pt && clampFreq (vfOf s die k) == (vfOf s die k).freq) = false := by
    rw [Bool.eq_false_iff]
    intro hall
    simp only [Bool.and_eq_true, beq_iff_eq] at hall
    obtain ⟨⟨hz, hpt⟩, hf⟩ := hall
    exact h.elim (· hz) (·.elim (· hpt) (· hf))
  show execVfRequestApply s = _
  simp only [execVfRequestApply, hx, hy, hbusy, hno, Bool.and_eq_true, beq_iff_eq, bne_iff_ne]
  rfl

end

theorem begun_outcome (hk : k < 4) {due : Nat} :
    let t := schedule (setVf (noteBeats s) die k (begun s (vfOf s die k))) due .vfClockResume (evArgs die k 0)
    (∀ j < 4, j ≠ k → vfOf t die j = vfOf s die j) ∧ SameMemory s t ∧ vfOf t die k = begun s (vfOf s die k) := by
  refine ⟨fun j _ hj => ?_, ?_, vfOf_setVf_same hk⟩
  · show vfOf (setVf (noteBeats s) die k _) die j = _
    rw [vfOf_setVf_other hj.symm, vfOf, dieOf_noteBeats]
    rfl
  · exact sameMemory_trans (sameMemory_noteBeats s) (sameMemory_trans sameMemory_setVf sameMemory_schedule)

/-! ## Bands (R286) -/

theorem tget_tdel {α : Type} (m : SMap α) (d : α) (i k : Nat) : tget (tdel m i) d k = if k = i then d else tget m d k := by
  induction m with
  | nil => simp [tdel, tget]
  | cons e m ih =>
    obtain ⟨j, x⟩ := e
    unfold tdel at ih ⊢
    by_cases hj : j = i
    · subst hj
      rw [List.filter_cons_of_neg (by simp), ih, tget]
      by_cases hk : k = j
      · rw [if_pos hk, if_pos hk]
      · rw [if_neg hk, if_neg hk, if_neg (by simpa using Ne.symm hk)]
    · rw [List.filter_cons_of_pos (by simpa using hj), tget, ih, tget]
      by_cases hk : j = k
      · subst hk
        rw [if_pos (beq_self_eq_true j), if_neg hj, if_pos (beq_self_eq_true j)]
      · rw [if_neg (c := (j == k) = true) (by simpa using hk), if_neg (c := (j == k) = true) (by simpa using hk)]
/-- A table with an entry written, or taken out where it is zero. -/
def bandPut (b : SMap W32) (i : Nat) (v : W32) : SMap W32 := if v == 0 then tdel b i else tput b i v
theorem tget_bandPut (b : SMap W32) (i j : Nat) (v : W32) : tget (bandPut b i v) 0 j = if j = i then v else tget b 0 j := by
  unfold bandPut
  by_cases hv : v = 0
  · rw [if_pos (by simpa using hv), tget_tdel, hv]
  · rw [if_neg (by simpa using hv)]
    by_cases hj : j = i
    · rw [hj, tget_tput_same, if_pos rfl]
    · rw [tget_tput_other _ _ _ _ _ (Ne.symm hj), if_neg hj]
theorem tget_bandPuts {α : Type} (key : α → Nat) (val : α → W32) (j : Nat) (v : W32) (l : List α)
    (hsame : ∀ p ∈ l, key p = j → val p = v) (b : SMap W32) (h : tget b 0 j = v ∨ ∃ p ∈ l, key p = j) :
    tget (l.foldl (fun b p => bandPut b (key p) (val p)) b) 0 j = v := by
  induction l generalizing b with
  | nil => simpa using h
  | cons p l ih =>
    refine ih (fun q hq => hsame q (List.mem_cons_of_mem _ hq)) _ ?_
    rw [tget_bandPut]
    by_cases hp : key p = j
    · exact .inl (by rw [if_pos hp.symm, hsame p List.mem_cons_self hp])
    · rw [if_neg (Ne.symm hp)]
      refine h.imp_right fun ⟨q, hq, hj⟩ => ?_
      obtain rfl | hq := List.mem_cons.mp hq
      · exact absurd hj hp
      · exact ⟨q, hq, hj⟩

/-- The entries of a die's bands: edge, direction, link. -/
def bandRows : List (Nat × Nat × Nat) :=
  (List.range 4).flatMap (fun e => (List.range 2).flatMap (fun dir => (edgeLinks e).map (fun i => (e, dir, i))))
/-- The place of a band entry. -/
def bandKey (p : Nat × Nat × Nat) : Nat := 72 * p.1 + 36 * p.2.1 + p.2.2

theorem mem_bandRows {p : Nat × Nat × Nat} : p ∈ bandRows ↔ p.1 < 4 ∧ p.2.1 < 2 ∧ p.2.2 ∈ edgeLinks p.1 := by
  simp only [bandRows, List.mem_flatMap, List.mem_map, List.mem_range]
  constructor
  · rintro ⟨e, he, d, hd, i, hi, rfl⟩
    exact ⟨he, hd, hi⟩
  · rintro ⟨he, hd, hi⟩
    exact ⟨_, he, _, hd, _, hi, rfl⟩
theorem edgeLinks_lt {e i : Nat} (h : i ∈ edgeLinks e) : i < 36 := by
  unfold edgeLinks at h
  split at h <;> have := List.mem_range.mp h <;> omega
theorem bandKey_inj {p q : Nat × Nat × Nat} (hp : p ∈ bandRows) (hq : q ∈ bandRows) (h : bandKey p = bandKey q) : p = q := by
  obtain ⟨-, hd, hi⟩ := mem_bandRows.mp hp
  obtain ⟨-, hd', hi'⟩ := mem_bandRows.mp hq
  have hlt := edgeLinks_lt hi
  have hlt' := edgeLinks_lt hi'
  obtain ⟨e, d, i⟩ := p
  obtain ⟨e', d', i'⟩ := q
  simp only [bandKey] at h hd hd' hlt hlt'
  have he : e = e' := by omega
  have hdd : d = d' := by omega
  have hii : i = i' := by omega
  rw [he, hdd, hii]

/-- The bands of a die are those that its clocks, its neighbours' and the wires give. -/
def BandsRight (s : State) (die : Nat) : Prop :=
  ∀ e < 4, ∀ d < 2, ∀ i ∈ edgeLinks e, tget (dieOf s die).band 0 (72 * e + 36 * d + i) = bandEntry s die e d i

theorem vfOfCluster_eq_of (h : ∀ d, (dieOf t d).vf = (dieOf s d).vf) (cl : Nat) : vfOfCluster t cl = vfOfCluster s cl := by
  simp only [vfOfCluster, vfIndex, h]
theorem bandEntry_eq_of (h : ∀ d, (dieOf t d).vf = (dieOf s d).vf) (die e d i : Nat) : bandEntry t die e d i = bandEntry s die e d i := by
  simp only [bandEntry, vfOfCluster_eq_of h]
theorem vf_setBands (s : State) (die d : Nat) : (dieOf (setBands s die) d).vf = (dieOf s d).vf := by
  unfold setBands
  by_cases hd : die = d
  · subst hd
    rw [dieOf_setDie_same]
  · rw [dieOf_setDie_other _ _ _ _ hd]
theorem band_setBands (s : State) (die : Nat) : (dieOf (setBands s die) die).band =
    bandRows.foldl (fun b p => bandPut b (bandKey p) (bandEntry s die p.1 p.2.1 p.2.2)) (dieOf s die).band := by
  unfold setBands bandRows bandPut bandKey
  rw [dieOf_setDie_same]
theorem bandsRight_setBands_same (s : State) (die : Nat) : BandsRight (setBands s die) die := by
  intro e he d hd i hi
  rw [bandEntry_eq_of (vf_setBands s die), band_setBands]
  have hmem : (e, d, i) ∈ bandRows := mem_bandRows.mpr ⟨he, hd, hi⟩
  refine tget_bandPuts bandKey (fun p => bandEntry s die p.1 p.2.1 p.2.2) (72 * e + 36 * d + i) _ bandRows (fun p hp hkey => ?_) _
    (.inr ⟨_, hmem, rfl⟩)
  rw [bandKey_inj hp hmem hkey]
theorem bandsRight_setBands (h : BandsRight s die) (d : Nat) : BandsRight (setBands s d) die := by
  by_cases hd : d = die
  · subst hd
    exact bandsRight_setBands_same s d
  · intro e he b hb i hi
    rw [bandEntry_eq_of (vf_setBands s d), ← h e he b hb i hi, setBands, dieOf_setDie_other _ _ _ _ hd]
theorem bandsRight_foldl (l : List Nat) (h : BandsRight s die) : BandsRight (l.foldl setBands s) die := by
  induction l generalizing s with
  | nil => exact h
  | cons d l ih => exact ih (bandsRight_setBands h d)
theorem bandsRight_eq_of (hvf : ∀ d, (dieOf t d).vf = (dieOf s d).vf) (hband : (dieOf t die).band = (dieOf s die).band)
    (h : BandsRight s die) : BandsRight t die := by
  intro e he d hd i hi
  rw [bandEntry_eq_of hvf, hband]
  exact h e he d hd i hi

/-! ## A clock runs on (R281) -/

theorem dieOf_setBands (s : State) (a d : Nat) : ∃ band, dieOf (setBands s a) d = { dieOf s d with band := band } := by
  unfold setBands
  by_cases hd : a = d
  · subst hd
    rw [dieOf_setDie_same]
    exact ⟨_, rfl⟩
  · rw [dieOf_setDie_other _ _ _ _ hd]
    exact ⟨_, rfl⟩
theorem dieOf_foldl_setBands (l : List Nat) (s : State) (d : Nat) : ∃ band, dieOf (l.foldl setBands s) d = { dieOf s d with band := band } := by
  induction l generalizing s with
  | nil => exact ⟨_, rfl⟩
  | cons a l ih =>
    obtain ⟨band, h⟩ := ih (setBands s a)
    obtain ⟨band', h'⟩ := dieOf_setBands s a d
    exact ⟨band, by rw [List.foldl_cons, h, h']⟩
theorem sameMemory_foldl {α : Type} {f : State → α → State} (hf : ∀ s a, SameMemory s (f s a)) (l : List α) (s : State) :
    SameMemory s (l.foldl f s) := by
  induction l generalizing s with
  | nil => exact sameMemory_refl s
  | cons a l ih => exact sameMemory_trans (hf s a) (ih (f s a))
theorem agendaOnly_wakeRegion (s : State) (die k : Nat) : AgendaOnly s (wakeRegion s die k) := by
  refine agendaOnly_foldl (fun s e => ?_) _ s
  split
  · refine agendaOnly_trans ?_ (agendaOnly_pokeResidents _)
    split
    · exact agendaOnly_refl s
    · exact agendaOnly_schedule
  · exact agendaOnly_refl s

/-- A VF region whose change ends; PEND stands while another request waits. -/
def resumedVf (s : State) (die k : Nat) (v : VfRegion) : VfRegion :=
  { v with pt := v.newPt, freq := v.newFreq, cycAt := s.now, off := false, busy := false,
           pend := s.agenda.any (fun p => p.op == .vfRequestApply && p.args.x == die && p.args.y == k) }
/-- The state in which a VF region's change has ended and the bands that touch it follow. -/
def resumed (s : State) (die k : Nat) : State :=
  (die :: (List.range 4).filterMap (dieAcross die)).foldl setBands (setVf (noteBeats s) die k (resumedVf s die k (vfOf s die k)))

theorem vfClockResume_idle (hx : s.ev.x = die) (hy : s.ev.y = k) (hbusy : (vfOf s die k).busy = false) :
    exec .vfClockResume s = .next s := by
  show execVfClockResume s = _
  simp only [execVfClockResume, hx, hy, hbusy]
  rfl
theorem vfClockResume_runs (hx : s.ev.x = die) (hy : s.ev.y = k) (hbusy : (vfOf s die k).busy = true) :
    exec .vfClockResume s = .next (wakeRegion (countDie (resumed s die k) die 6 1) die k) := by
  show execVfClockResume s = _
  simp only [execVfClockResume, hx, hy, hbusy]
  rfl
theorem dieOf_resumed : ∃ band, dieOf (resumed s die k) die =
    { dieOf s die with band := band, vf := vset (dieOf s die).vf k (resumedVf s die k (vfOf s die k)) } := by
  obtain ⟨band, h⟩ := dieOf_foldl_setBands (die :: (List.range 4).filterMap (dieAcross die))
    (setVf (noteBeats s) die k (resumedVf s die k (vfOf s die k))) die
  refine ⟨band, ?_⟩
  rw [resumed, h, setVf, dieOf_setDie_same, dieOf_noteBeats]
theorem sameMemory_resumed : SameMemory s (resumed s die k) := by
  refine sameMemory_trans (sameMemory_noteBeats s) (sameMemory_trans sameMemory_setVf (sameMemory_foldl (fun s a => ?_) _ _))
  exact sameMemory_setDie rfl
theorem bandsRight_resumed : BandsRight (resumed s die k) die :=
  bandsRight_foldl ((List.range 4).filterMap (dieAcross die)) (bandsRight_setBands_same (setVf _ _ _ _) die)
theorem resumed_outcome (hk : k < 4) :
    let t := wakeRegion (countDie (resumed s die k) die 6 1) die k
    (∀ j < 4, j ≠ k → vfOf t die j = vfOf s die j) ∧ SameMemory s t ∧ vfOf t die k = resumedVf s die k (vfOf s die k) ∧
      (vget (dieOf t die).cnt 6 0).toNat = more (vget (dieOf s die).cnt 6 0) 1 ∧ BandsRight t die := by
  have hwoken := agendaOnly_wakeRegion (countDie (resumed s die k) die 6 1) die k
  have hdie := agendaOnly_dieOf hwoken
  obtain ⟨band, hres⟩ := dieOf_resumed (s := s) (die := die) (k := k)
  have hvf : (dieOf (wakeRegion (countDie (resumed s die k) die 6 1) die k) die).vf =
      vset (dieOf s die).vf k (resumedVf s die k (vfOf s die k)) := by
    rw [hdie, vf_countDie, hres]
  refine ⟨fun j _ hj => ?_, ?_, ?_, ?_, ?_⟩
  · rw [vfOf, hvf]
    exact vget_vset_other _ _ _ _ _ hj.symm
  · exact sameMemory_trans sameMemory_resumed (sameMemory_trans sameMemory_countDie (agendaOnly_sameMemory hwoken))
  · rw [vfOf, hvf]
    exact vget_vset_same _ _ _ _ hk
  · rw [hdie, cnt_countDie (by omega), hres]
  · refine bandsRight_eq_of (s := resumed s die k) (fun d => ?_) ?_ bandsRight_resumed
    · rw [hdie]
      by_cases hd : die = d
      · subst hd
        exact vf_countDie
      · rw [countDie, dieOf_setDie_other _ _ _ _ hd]
    · rw [hdie, dieOf_countDie]

/-! ## Weir limits (R284, R285) -/

theorem agendaOnly_beginDoubling (v : VfRegion) : AgendaOnly s (beginDoubling s die k v) := by
  unfold beginDoubling
  split
  · exact agendaOnly_refl s
  · exact agendaOnly_schedule
theorem later_beginDoubling (v : VfRegion) (h : ∀ p ∈ s.agenda, p.op = .weirDouble → p.args.x = die → p.args.y ≠ k) :
    Later (beginDoubling s die k v) .weirDouble die k (s.now + toWindow s v) := by
  have hnone : s.agenda.any (fun p => p.op == .weirDouble && p.args.x == die && p.args.y == k) = false := by
    rw [List.any_eq_false]
    intro p hp hall
    simp only [Bool.and_eq_true, beq_iff_eq] at hall
    obtain ⟨⟨hop, hx⟩, hy⟩ := hall
    exact h p hp hop hx hy
  rw [beginDoubling, hnone]
  exact later_schedule
theorem doubling_stands (v : VfRegion) :
    ∃ p ∈ (beginDoubling s die k v).agenda, p.op = .weirDouble ∧ p.args.x = die ∧ p.args.y = k := by
  unfold beginDoubling
  split
  · next hany =>
    obtain ⟨p, hp, hall⟩ := List.any_eq_true.mp hany
    simp only [Bool.and_eq_true, beq_iff_eq] at hall
    obtain ⟨⟨hop, hx⟩, hy⟩ := hall
    exact ⟨p, hp, hop, hx, hy⟩
  · exact ⟨_, List.mem_append_right _ (List.mem_singleton_self _), rfl, rfl, rfl⟩
theorem weirHalve_outcome (hx : s.ev.x = die) (hy : s.ev.y = k) (hk : k < 4) :
    let v := vfOf s die k
    Runs .weirHalve s fun t => vfOf t die k = { v with weirEff := max 16 (v.weirEff / 2) } ∧
      (∀ j < 4, j ≠ k → vfOf t die j = vfOf s die j) ∧ (vget (dieOf t die).cnt 0 0).toNat = more (vget (dieOf s die).cnt 0 0) 1 ∧
      ((∀ p ∈ s.agenda, p.op = .weirDouble → p.args.x = die → p.args.y ≠ k) → Later t .weirDouble die k (s.now + toWindow s v)) := by
  have hrun : exec .weirHalve s = .next (beginDoubling
      (countDie (setVf s die k { vfOf s die k with weirEff := max 16 ((vfOf s die k).weirEff / 2) }) die 0 1) die k (vfOf s die k)) := by
    show execWeirHalve s = _
    simp only [execWeirHalve, hx, hy]
  have hdie := agendaOnly_dieOf (agendaOnly_beginDoubling (k := k) (die := die)
    (s := countDie (setVf s die k { vfOf s die k with weirEff := max 16 ((vfOf s die k).weirEff / 2) }) die 0 1) (vfOf s die k)) die
  have hvf := (congrArg Die.vf hdie).trans vf_countDie
  refine ⟨_, hrun, ?_, fun j _ hj => ?_, ?_, fun h => later_beginDoubling _ h⟩
  · rw [vfOf_eq_of hvf, vfOf_setVf_same hk]
  · rw [vfOf_eq_of hvf, vfOf_setVf_other hj.symm]
  · rw [hdie, cnt_countDie (by omega), setVf, dieOf_setDie_same]
theorem weirDouble_outcome (hx : s.ev.x = die) (hy : s.ev.y = k) (hk : k < 4) :
    let v := vfOf s die k
    let limit := max 16 (min 256 v.weirLim)
    let eff := if cisternsLow s die k then min limit (2 * v.weirEff) else v.weirEff
    (limit ≤ v.weirEff → exec .weirDouble s = .next s) ∧
    (v.weirEff < limit → vfCycles s v / 256 < s.ev.z → Runs .weirDouble s fun t => dieOf t die = dieOf s die ∧
      LaterOf t .weirDouble die k s.ev.z) ∧
    (v.weirEff < limit → s.ev.z ≤ vfCycles s v / 256 → Runs .weirDouble s fun t =>
      (∀ j < 4, j ≠ k → vfOf t die j = vfOf s die j) ∧ vfOf t die k = { v with weirEff := eff } ∧
      (eff < limit → ∃ p ∈ t.agenda, p.op = .weirDouble ∧ p.args.x = die ∧ p.args.y = k)) := by
  intro v limit eff
  have hlimit : v.limit = limit := rfl
  refine ⟨fun hfull => ?_, fun hless hwait => ?_, fun hless hdue => ?_⟩
  · show execWeirDouble s = _
    simp only [execWeirDouble, hx, hy]
    exact if_pos hfull
  · have hrun : exec .weirDouble s = .next (schedule s (s.now + toWindow s v) .weirDouble s.ev) := by
      show execWeirDouble s = _
      simp only [execWeirDouble, hx, hy]
      exact (if_neg (Nat.not_le.mpr hless)).trans (if_pos hwait)
    exact ⟨_, hrun, rfl, _, List.mem_append_right _ (List.mem_singleton_self _), rfl, hx, hy, rfl⟩
  · have hrun : exec .weirDouble s = .next (if eff < limit then beginDoubling (setVf s die k { v with weirEff := eff }) die k v
        else setVf s die k { v with weirEff := eff }) := by
      show execWeirDouble s = _
      simp only [execWeirDouble, hx, hy]
      refine (if_neg (Nat.not_le.mpr hless)).trans ((if_neg (Nat.not_lt.mpr hdue)).trans ?_)
      by_cases heff : eff < limit
      · rw [if_pos heff]
        exact if_pos heff
      · rw [if_neg heff]
        exact if_neg heff
    by_cases heff : eff < limit
    · rw [if_pos heff] at hrun
      have hvf := congrArg Die.vf (agendaOnly_dieOf (agendaOnly_beginDoubling (k := k) (die := die) (s := setVf s die k { v with weirEff := eff }) v) die)
      refine ⟨_, hrun, fun j _ hj => ?_, ?_, fun _ => doubling_stands v⟩
      · rw [vfOf_eq_of hvf, vfOf_setVf_other hj.symm]
      · rw [vfOf_eq_of hvf, vfOf_setVf_same hk]
    · rw [if_neg heff] at hrun
      exact ⟨_, hrun, fun j _ hj => vfOf_setVf_other hj.symm, vfOf_setVf_same hk, fun h => absurd h heff⟩

/-! ## Delays of a band (R286) -/

theorem bandWord_eq {w fs fr : Nat} (h : w + up 300 fr + up 100 fs < 256) :
    let lo := w + up 200 fr
    let hi := w + up 300 fr + up 100 fs
    bandWord w fs fr = BitVec.ofNat 32 (2 ^ 31 + min 32 (max 8 (up (2 * hi * fs) 100)) * 2 ^ 16 + hi * 2 ^ 8 + lo) := by
  have hup : up 200 fr ≤ up 300 fr := Nat.div_le_div_right (by omega)
  have hlo : w + up 200 fr < 256 := by omega
  show BitVec.ofNat 32 (2 ^ 31 + min 32 (max 8 (up (2 * (w + up 300 fr + up 100 fs) * fs) 100)) * 65536 +
    (w + up 300 fr + up 100 fs) % 256 * 256 + (w + up 200 fr) % 256) = _
  rw [Nat.mod_eq_of_lt h, Nat.mod_eq_of_lt hlo]
  rfl

/-! ## Time (R287) -/

/-- The change that a recalibration draws. -/
def recalibrationStep (s : State) : Int := max (-1) (min 1 (Config.recalibration s.fresh))
/-- A die's offset after its recalibration. -/
def newOffset (s : State) (die : Nat) : BitVec 48 :=
  if die == 0 || (dieOf s die).unc.toNat < ((dieOf s die).off.toInt + recalibrationStep s - Config.dieStart die).natAbs then (dieOf s die).off
  else (dieOf s die).off + BitVec.ofInt 48 (recalibrationStep s)
/-- The state after a recalibration. -/
def recalibrated (s : State) (die : Nat) : State :=
  schedule (setDie { s with fresh := s.fresh + 1, now := s.now + 1 } die { dieOf s die with off := newOffset s die }) (s.now + 1 + 2 ^ 20)
    .timeRecalibration s.ev

theorem dieOf_recalibrated : dieOf (recalibrated s die) die = { dieOf s die with off := newOffset s die } := dieOf_setDie_same ..
theorem newOffset_steps (s : State) (die : Nat) :
    ∃ c : Int, c ∈ ([-1, 0, 1] : List Int) ∧ newOffset s die = (dieOf s die).off + BitVec.ofInt 48 c := by
  have hc : recalibrationStep s = -1 ∨ recalibrationStep s = 0 ∨ recalibrationStep s = 1 := by
    unfold recalibrationStep
    omega
  unfold newOffset
  split
  · exact ⟨0, by decide, by simp⟩
  · exact ⟨recalibrationStep s, by simpa using hc, rfl⟩
theorem timeRecalibration_outcome (hx : s.ev.x = die) : Runs .timeRecalibration s fun t =>
    dieOf t die = { dieOf s die with off := (dieOf t die).off } ∧ SameMemory s t ∧ t.now = s.now + 1 ∧
    (die = 0 → (dieOf t die).off = (dieOf s die).off) ∧
    (∃ c : Int, c ∈ ([-1, 0, 1] : List Int) ∧ (dieOf t die).off = (dieOf s die).off + BitVec.ofInt 48 c) ∧
    Later t .timeRecalibration die s.ev.y (t.now + 2 ^ 20) := by
  subst hx
  have hrun : exec .timeRecalibration s = .next (recalibrated s s.ev.x) := rfl
  refine ⟨_, hrun, by rw [dieOf_recalibrated], ?_, rfl, fun h0 => ?_, ?_, later_schedule⟩
  · refine sameMemory_trans (t := { s with fresh := s.fresh + 1, now := s.now + 1 }) (sameMemory_of rfl rfl rfl rfl rfl)
      (sameMemory_trans ?_ sameMemory_schedule)
    exact sameMemory_setDie rfl
  · rw [dieOf_recalibrated]
    exact if_pos (by rw [h0]; rfl)
  · rw [dieOf_recalibrated]
    exact newOffset_steps s s.ev.x

end
end Sys2Proof.Machine
end

