-- ==== Sys2Proof/Proofs/DieReservoir.lean ====
section
/-! PROOF. The Reservoir of a die: lines dropped, copies from the pinned store, refresh windows, repartition and drop, prefetch
(10_die, R289 to R292, R296, R297; 09_memory_model, R267; 05_core_memory, R173). -/
namespace Sys2Proof.Machine
open Sys2Proof.Claims

section
variable {s t u : State} {die : Nat}

/-! ## Steps put off, errors, completions -/

theorem rollsBack_consumeError {n : Nat} {code : BitVec 8} (hnow : t.now = s.now) : RollsBack s (consumeError t n code) n code := by
  refine ⟨congrArg Region.error (regionOf_setRegion_same ..), ?_⟩
  rw [← hnow]
  exact later_schedule
theorem sameMemory_consumeError {n : Nat} {code : BitVec 8} : SameMemory s (consumeError s n code) := sameMemory_of rfl rfl rfl rfl rfl
theorem later_putOff (s : State) (w : Nat × Nat × Nat) (op : Instr) (args : EvArgs) :
    Later (putOff s w op args) op args.x args.y (s.now + w.2.1) ∧ LaterOf (putOff s w op args) op args.x args.y args.z := by
  unfold putOff
  split
  · next hin =>
    have hmem := List.contains_iff_mem.mp hin
    exact ⟨⟨_, hmem, rfl, rfl, rfl, rfl⟩, _, hmem, rfl, rfl, rfl, rfl⟩
  · exact ⟨later_schedule, _, List.mem_append_right _ (List.mem_singleton_self _), rfl, rfl, rfl, rfl⟩
theorem putOff_rest (s : State) (w : Nat × Nat × Nat) (op : Instr) (args : EvArgs) :
    ∃ agenda cnt, putOff s w op args = { s with agenda := agenda } ∨
      putOff s w op args = { setDie s w.1 { dieOf s w.1 with cnt := cnt } with agenda := agenda } := by
  unfold putOff
  split
  · exact ⟨s.agenda, (dieOf s w.1).cnt, .inl rfl⟩
  · split
    · exact ⟨_, (dieOf s w.1).cnt, .inl rfl⟩
    · exact ⟨_, _, .inr rfl⟩
theorem sameMemory_putOff (s : State) (w : Nat × Nat × Nat) (op : Instr) (args : EvArgs) : SameMemory s (putOff s w op args) := by
  obtain ⟨agenda, cnt, h | h⟩ := putOff_rest s w op args
  · rw [h]
    exact sameMemory_of rfl rfl rfl rfl rfl
  · rw [h]
    exact sameMemory_trans (t := setDie s w.1 { dieOf s w.1 with cnt := cnt }) (sameMemory_setDie rfl) (sameMemory_of rfl rfl rfl rfl rfl)
theorem dieOf_putOff (s : State) (w : Nat × Nat × Nat) (op : Instr) (args : EvArgs) :
    ∃ cnt, dieOf (putOff s w op args) w.1 = { dieOf s w.1 with cnt := cnt } := by
  obtain ⟨agenda, cnt, h | h⟩ := putOff_rest s w op args
  · exact ⟨_, by rw [h]; rfl⟩
  · refine ⟨cnt, ?_⟩
    rw [h]
    exact dieOf_setDie_same ..
theorem cnt_putOff {w : Nat × Nat × Nat} {op : Instr} {args : EvArgs} (h : ⟨s.now + w.2.1, op, args⟩ ∉ s.agenda) :
    (vget (dieOf (putOff s w op args) w.1).cnt 4 0).toNat = more (vget (dieOf s w.1).cnt 4 0) w.2.2 := by
  have hout : s.agenda.contains ⟨s.now + w.2.1, op, args⟩ = false := by
    rw [Bool.eq_false_iff]
    exact fun hin => h (List.contains_iff_mem.mp hin)
  unfold putOff
  rw [hout]
  by_cases hw : w.2.2 = 0
  · rw [hw]
    have hlt := (vget (dieOf s w.1).cnt 4 0).isLt
    show (vget (dieOf s w.1).cnt 4 0).toNat = _
    rw [more]
    omega
  · rw [if_neg (by decide), if_neg (by simpa using hw)]
    exact cnt_countDie (by omega)
theorem settles_dieOf (h : Settles s t) (d : Nat) : dieOf t d = dieOf s d := by
  obtain ⟨_, _, _, rfl⟩ := h.rest
  rfl

/-! ## The cache policy (R267) -/

theorem cacheReplacement_outcome {line : Nat} (hx : s.ev.x = die) (hy : s.ev.y = line) : Runs .cacheReplacement s fun t => SameMemory s t ∧
    dieOf t die = { dieOf s die with cache := (dieOf t die).cache } ∧
    ∀ l, l ∈ (dieOf t die).cache ↔ l ∈ (dieOf s die).cache ∧ ¬ (l.line = line ∧ l.out = []) := by
  subst hx hy
  refine ⟨_, rfl, sameMemory_setDie rfl, ?_, fun l => ?_⟩
  · rw [dieOf_setDie_same]
  · rw [dieOf_setDie_same, List.mem_filter]
    refine and_congr_right fun _ => ?_
    simp [imp_iff_not_or]

/-! ## Copies from the pinned store (R289, R292, R296) -/

theorem rsvRange_of {c : Command} {src loc len : Nat} (h : c.op = .rsvld src loc len) : rsvRange c = (src, loc, len) := by
  rw [rsvRange, h]
theorem dieOf_nextRsvld {r : List RsvJob} : dieOf (nextRsvld s die r) die = { dieOf s die with rsvq := r } := by
  unfold nextRsvld
  dsimp only
  split <;> exact dieOf_setDie_same ..
theorem sameMemory_nextRsvld {r : List RsvJob} : SameMemory s (nextRsvld s die r) := by
  unfold nextRsvld
  dsimp only
  split
  · exact sameMemory_setDie rfl
  · refine sameMemory_trans ?_ sameMemory_schedule
    exact sameMemory_setDie rfl
theorem core_nextRsvld {r : List RsvJob} : (nextRsvld s die r).core = s.core ∧ (nextRsvld s die r).now = s.now ∧
    ∀ addr, coreOfAddr (nextRsvld s die r) addr = coreOfAddr s addr := by
  unfold nextRsvld
  dsimp only
  split <;> exact ⟨rfl, rfl, fun _ => rfl⟩
theorem pinnedFix_rest {off n : Nat} : ∃ corr cnt, pinnedFix s die off n = s ∨
    pinnedFix s die off n = setDie (setDie s die { dieOf s die with pinCorr := corr }) die { dieOf s die with pinCorr := corr, cnt := cnt } := by
  unfold pinnedFix
  dsimp only
  split
  · exact ⟨[], (dieOf s die).cnt, .inl rfl⟩
  · rw [countDie, dieOf_setDie_same]
    exact ⟨_, _, .inr rfl⟩
theorem dieOf_pinnedFix {off n : Nat} : ∃ corr cnt, dieOf (pinnedFix s die off n) die = { dieOf s die with pinCorr := corr, cnt := cnt } := by
  obtain ⟨corr, cnt, h | h⟩ := pinnedFix_rest (s := s) (die := die) (off := off) (n := n)
  · exact ⟨(dieOf s die).pinCorr, (dieOf s die).cnt, by rw [h]⟩
  · exact ⟨corr, cnt, by rw [h, dieOf_setDie_same]⟩
theorem diesOnly_pinnedFix {off n : Nat} : ∃ dies, pinnedFix s die off n = { s with die := dies } := by
  obtain ⟨corr, cnt, h | h⟩ := pinnedFix_rest (s := s) (die := die) (off := off) (n := n)
  · exact ⟨s.die, h⟩
  · exact ⟨_, h⟩
theorem sameMemory_pinnedFix {off n : Nat} : SameMemory s (pinnedFix s die off n) := by
  obtain ⟨corr, cnt, h | h⟩ := pinnedFix_rest (s := s) (die := die) (off := off) (n := n)
  · rw [h]
    exact sameMemory_refl s
  · rw [h]
    refine sameMemory_trans (t := setDie s die { dieOf s die with pinCorr := corr }) (sameMemory_setDie rfl) (sameMemory_setDie ?_)
    rw [dieOf_setDie_same]

section
variable {src loc len : Nat} {j : RsvJob} {r : List RsvJob}

/-- The state in which an RSVLD's line has been taken from the pinned store. -/
def lineTaken (s : State) (die off : Nat) (q : List RsvJob) : State :=
  setDie (pinnedFix s die off 64) die { dieOf (pinnedFix s die off 64) die with rsvq := q }

theorem sameMemory_lineTaken {off : Nat} {q : List RsvJob} : SameMemory s (lineTaken s die off q) :=
  sameMemory_trans sameMemory_pinnedFix (sameMemory_setDie rfl)
theorem diesOnly_lineTaken {off : Nat} {q : List RsvJob} : ∃ dies, lineTaken s die off q = { s with die := dies } := by
  obtain ⟨dies, h⟩ := diesOnly_pinnedFix (s := s) (die := die) (off := off) (n := 64)
  rw [lineTaken, h]
  exact ⟨_, rfl⟩
theorem dieOf_lineTaken {off : Nat} {q : List RsvJob} :
    (dieOf (lineTaken s die off q) die).rsvq = q ∧ (dieOf (lineTaken s die off q) die).pinned = (dieOf s die).pinned := by
  obtain ⟨corr, cnt, h⟩ := dieOf_pinnedFix (s := s) (die := die) (off := off) (n := 64)
  rw [lineTaken, dieOf_setDie_same, h]
  exact ⟨rfl, rfl⟩
theorem exec_rsvldLine (hx : s.ev.x = die) (hq : (dieOf s die).rsvq = j :: r) (hop : j.cmd.op = .rsvld src loc len) (hpos : j.pos < len)
    (hwait : refreshWait s die (pinnedBank (dieOf s die) (src + j.pos)) = 0) (hgood : pinnedBad s die (src + j.pos) 64 = false) :
    exec .rsvldLine s = .next (schedule (portWrite (lineTaken s die (src + j.pos) ({ j with pos := j.pos + 64 } :: r))
      (localPlace s j.cmd (loc + j.pos)).1 (localPlace s j.cmd (loc + j.pos)).2
      (memBytes (dieOf s die).pinned (src + j.pos) 64) true)
      ((portWrite (lineTaken s die (src + j.pos) ({ j with pos := j.pos + 64 } :: r))
        (localPlace s j.cmd (loc + j.pos)).1 (localPlace s j.cmd (loc + j.pos)).2
        (memBytes (dieOf s die).pinned (src + j.pos) 64) true).now + 1)
      (if j.pos + 64 < len then .rsvldLine else .rsvldComplete)
      (portWrite (lineTaken s die (src + j.pos) ({ j with pos := j.pos + 64 } :: r))
        (localPlace s j.cmd (loc + j.pos)).1 (localPlace s j.cmd (loc + j.pos)).2
        (memBytes (dieOf s die).pinned (src + j.pos) 64) true).ev) := by
  have hbytes := (dieOf_lineTaken (s := s) (die := die) (off := src + j.pos) (q := { j with pos := j.pos + 64 } :: r)).2
  show execRsvldLine s = _
  simp only [execRsvldLine, hx, hq, rsvRange_of hop, hwait, hgood, if_neg (Nat.not_le.mpr hpos)]
  rw [← hbytes]
  rfl
theorem rsvldLine_bad (hx : s.ev.x = die) (hq : (dieOf s die).rsvq = j :: r) (hop : j.cmd.op = .rsvld src loc len) (hpos : j.pos < len)
    (hwait : refreshWait s die (pinnedBank (dieOf s die) (src + j.pos)) = 0) (hbad : pinnedBad s die (src + j.pos) 64 = true) :
    Runs .rsvldLine s fun t => SameMemory s t ∧ (dieOf t die).rsvq = r ∧ RollsBack s t (regionOfCtx s j.cmd.cx) 0x07 := by
  have hrun : exec .rsvldLine s = .next (consumeError (nextRsvld s die r) (regionOfCtx s j.cmd.cx) 0x07) := by
    show execRsvldLine s = _
    simp only [execRsvldLine, hx, hq, rsvRange_of hop, hwait, hbad, if_neg (Nat.not_le.mpr hpos)]
    rfl
  refine ⟨_, hrun, sameMemory_trans sameMemory_nextRsvld sameMemory_consumeError, ?_, rollsBack_consumeError core_nextRsvld.2.1⟩
  show (dieOf (nextRsvld s die r) die).rsvq = r
  rw [dieOf_nextRsvld]
theorem rsvldLine_good (hx : s.ev.x = die) (hq : (dieOf s die).rsvq = j :: r) (hop : j.cmd.op = .rsvld src loc len) (hpos : j.pos < len)
    (hwait : refreshWait s die (pinnedBank (dieOf s die) (src + j.pos)) = 0) (hgood : pinnedBad s die (src + j.pos) 64 = false) :
    let at_ := localPlace s j.cmd (loc + j.pos)
    let place := fun i => portOffset s at_.1 (at_.2 + i) true
    Unlogged s at_.1 → Places 64 place → Runs .rsvldLine s fun t => (dieOf t die).rsvq = { j with pos := j.pos + 64 } :: r ∧
      StoredAt s t at_.1 64 place (leNat (memBytes (dieOf s die).pinned (src + j.pos) 64)) ∧
      Later t (if j.pos + 64 < len then .rsvldLine else .rsvldComplete) die s.ev.y (s.now + 1) := by
  intro at_ place hquiet hplaces
  have hrun := exec_rsvldLine hx hq hop hpos hwait hgood
  have hmem := sameMemory_lineTaken (s := s) (die := die) (off := src + j.pos) (q := { j with pos := j.pos + 64 } :: r)
  have hrsvq := (dieOf_lineTaken (s := s) (die := die) (off := src + j.pos) (q := { j with pos := j.pos + 64 } :: r)).1
  obtain ⟨dies, htaken⟩ := diesOnly_lineTaken (s := s) (die := die) (off := src + j.pos) (q := { j with pos := j.pos + 64 } :: r)
  generalize lineTaken s die (src + j.pos) ({ j with pos := j.pos + 64 } :: r) = t0 at *
  subst htaken
  have hlen : (memBytes (dieOf s die).pinned (src + j.pos) 64).length = 64 := by simp [memBytes]
  have hbanked := banked_portWrite (s := { s with die := dies }) (k := at_.1) (off := at_.2) (n := 64) (redirect := true)
    (v := leNat (memBytes (dieOf s die).pinned (src + j.pos) 64)) hquiet.2 hplaces.1
  rw [show leBytes 64 (leNat (memBytes (dieOf s die).pinned (src + j.pos) 64)) = memBytes (dieOf s die).pinned (src + j.pos) 64 from
    hlen ▸ leBytes_leNat _] at hbanked
  have hstored := storedAt_of_banked (s := { s with die := dies }) (k := at_.1) hquiet.1 hplaces hbanked
  obtain ⟨bq, ue, corr, heq⟩ := hbanked
  refine ⟨_, hrun, ?_, storedAt_after (storedAt_before hmem hstored) sameMemory_schedule, ?_⟩
  · rw [heq]
    exact hrsvq
  · rw [heq, ← hx]
    exact later_schedule
theorem rsvldLine_waits (hx : s.ev.x = die) (hq : (dieOf s die).rsvq = j :: r) (hop : j.cmd.op = .rsvld src loc len) (hpos : j.pos < len) :
    let wait := refreshWait s die (pinnedBank (dieOf s die) (src + j.pos))
    wait ≠ 0 → Runs .rsvldLine s fun t => (dieOf t die).rsvq = j :: r ∧ SameMemory s t ∧
      (⟨s.now + wait, .rsvldLine, s.ev⟩ ∉ s.agenda →
        (vget (dieOf t die).cnt 4 0).toNat = more (vget (dieOf s die).cnt 4 0) (wait * ((len - j.pos) / 64))) ∧
      Later t .rsvldLine die s.ev.y (s.now + wait) := by
  intro wait hwait
  have hrun : exec .rsvldLine s = .next (putOff s (die, wait, wait * ((len - j.pos) / 64)) .rsvldLine s.ev) := by
    show execRsvldLine s = _
    simp only [execRsvldLine, hx, hq, rsvRange_of hop, if_neg (Nat.not_le.mpr hpos)]
    exact if_pos (bne_iff_ne.mpr hwait)
  obtain ⟨cnt, hdie⟩ := dieOf_putOff s (die, wait, wait * ((len - j.pos) / 64)) .rsvldLine s.ev
  refine ⟨_, hrun, ?_, sameMemory_putOff .., fun h => cnt_putOff h, ?_⟩
  · rw [hdie]
    exact hq
  · rw [← hx]
    exact (later_putOff s (s.ev.x, wait, wait * ((len - j.pos) / 64)) .rsvldLine s.ev).1
theorem rsvldComplete_outcome (hx : s.ev.x = die) (hq : (dieOf s die).rsvq = j :: r) (hop : j.cmd.op = .rsvld src loc len)
    (hpos : len ≤ j.pos) : Runs .rsvldComplete s fun t => (dieOf t die).rsvq = r ∧ SameMemory s t ∧ TagSet s t j.cmd.cx j.cmd.tag := by
  have hrun : exec .rsvldComplete s = .next (completeCommand (nextRsvld s die r) j.cmd.cx j.cmd.id j.cmd.tag) := by
    show execRsvldComplete s = _
    simp only [execRsvldComplete, hx, hq, rsvRange_of hop, if_neg (Nat.not_lt.mpr hpos)]
  obtain ⟨hcore, -, hmap⟩ := core_nextRsvld (s := s) (die := die) (r := r)
  refine ⟨_, hrun, ?_, sameMemory_trans sameMemory_nextRsvld (settles_sameMemory settles_completeCommand), ?_⟩
  · rw [settles_dieOf settles_completeCommand, dieOf_nextRsvld]
  · exact tagSet_before (hmap _) (fun k => by rw [coreOf, hcore]; rfl) (tagSet_completeCommand (nextRsvld s die r) j.cmd.cx j.cmd.id j.cmd.tag)

end

/-! ## Refresh windows (R292) -/

theorem refreshWait_window (s : State) (die bank : Nat) :
    let t := (dieTime s die).toNat
    let t0 := (dieOf s die).rsvref.toNat
    let into := (t - t0) % 64000
    (t < t0 → refreshWait s die bank = 0) ∧ (t0 ≤ t → into < 2000 * bank ∨ 2000 * bank + 320 ≤ into → refreshWait s die bank = 0) ∧
    (t0 ≤ t → 2000 * bank ≤ into → into < 2000 * bank + 320 → refreshWait s die bank = 2000 * bank + 320 - into) := by
  intro t t0 into
  have hdef : refreshWait s die bank = if t < t0 ∨ into < 2000 * bank ∨ 2000 * bank + 320 ≤ into then 0 else 2000 * bank + 320 - into := by
    simp only [refreshWait, Bool.or_eq_true, decide_eq_true_eq, or_assoc]
    rfl
  rw [hdef]
  refine ⟨fun h => if_pos (.inl h), fun _ h => if_pos (.inr h), fun h hlow hhigh => if_neg ?_⟩
  omega

end
end Sys2Proof.Machine
end

