-- ==== Sys2Proof/Proofs/DieCopies.lean ====
section
/-! PROOF. SUPPORT. What reads, table walks and the dies' copies leave of a state, and which lines a copy holds after a fill (09_memory_model,
R267; 10_die, R290; 13_package_memory, R359, R366, R372). -/
namespace Sys2Proof.Machine
open Sys2Proof.Claims

section
variable {s t u : State}

/-! ## Counters of the memory system -/

/-- A state in which at most the counters of the stacks, of their sectors and of the translation unit differ. -/
def Counted (s t : State) : Prop := ∃ stackCnt sectors xlCnt,
  t = { s with pkg := { s.pkg with stackCnt := stackCnt, sectors := sectors, xlCnt := xlCnt } }

theorem counted_refl (s : State) : Counted s s := ⟨s.pkg.stackCnt, s.pkg.sectors, s.pkg.xlCnt, rfl⟩
theorem counted_trans (h : Counted s t) (h' : Counted t u) : Counted s u := by
  obtain ⟨_, _, _, rfl⟩ := h
  obtain ⟨st, se, xl, rfl⟩ := h'
  exact ⟨st, se, xl, rfl⟩
theorem counted_foldl {α : Type} {f : State → α → State} (hf : ∀ s a, Counted s (f s a)) (l : List α) (s : State) :
    Counted s (l.foldl f s) := by
  induction l generalizing s with
  | nil => exact counted_refl s
  | cons a l ih => exact counted_trans (hf s a) (ih (f s a))
theorem counted_countStack {stack n k : Nat} : Counted s (countStack s stack n k) := ⟨_, _, s.pkg.xlCnt, rfl⟩
theorem counted_countXl {n : Nat} : Counted s (countXl s n) := ⟨s.pkg.stackCnt, s.pkg.sectors, _, rfl⟩
theorem counted_countRead {line : Nat} : Counted s (countRead s line) := by
  unfold countRead
  dsimp only
  split
  · exact counted_trans counted_countStack counted_countStack
  · exact counted_trans (counted_trans counted_countStack counted_countStack) counted_countStack
theorem counted_countWalk {w : Walk} {l : List Nat} : Counted s (countWalk s w l) := by
  have hreads : Counted s (l.foldl (fun s a => countRead s (a / 128)) s) := counted_foldl (fun _ _ => counted_countRead) l s
  unfold countWalk
  dsimp only
  split
  · exact counted_trans hreads counted_countStack
  · exact hreads
theorem counted_countTier2Read {pa : W64} {n : Nat} : Counted s (countTier2Read s pa n) := by
  unfold countTier2Read
  split
  · exact counted_foldl (fun _ _ => counted_countStack) _ _
  · exact counted_refl s
theorem counted_countHome {pa : W64} {n : Nat} : Counted s (countHome s pa n) := by
  unfold countHome
  split
  · exact counted_foldl (fun _ _ => counted_countRead) _ _
  · exact counted_countTier2Read
theorem sameMemory_counted (h : Counted s t) : SameMemory s t := by
  obtain ⟨_, _, _, rfl⟩ := h
  exact sameMemory_of rfl rfl rfl rfl rfl

/-! ## Translations (R359) -/

/-- A state that differs at most in what a translation caches and counts. -/
structure Translated (s t : State) : Prop where
  rest : ∃ fresh core cluster stackCnt sectors xlCnt, t = { s with
    fresh := fresh, core := core, cluster := cluster,
    pkg := { s.pkg with stackCnt := stackCnt, sectors := sectors, xlCnt := xlCnt } }
  core : ∀ k, ∃ tlb, coreOf t k = { coreOf s k with tlb := tlb }
  cluster : ∀ k, ∃ tlb, clusterOf t k = { clusterOf s k with tlb := tlb }

theorem translated_counted (h : Counted s t) : Translated s t := by
  obtain ⟨st, se, xl, rfl⟩ := h
  exact ⟨⟨s.fresh, s.core, s.cluster, st, se, xl, rfl⟩, fun k => ⟨(coreOf s k).tlb, rfl⟩, fun k => ⟨(clusterOf s k).tlb, rfl⟩⟩
theorem translated_refl (s : State) : Translated s s := translated_counted (counted_refl s)
theorem translated_trans (h : Translated s t) (h' : Translated t u) : Translated s u := by
  refine ⟨?_, fun k => ?_, fun k => ?_⟩
  · obtain ⟨_, _, _, _, _, _, rfl⟩ := h.rest
    obtain ⟨f, c, cl, st, se, xl, rfl⟩ := h'.rest
    exact ⟨f, c, cl, st, se, xl, rfl⟩
  · obtain ⟨_, hk⟩ := h.core k
    obtain ⟨tlb, hk'⟩ := h'.core k
    exact ⟨tlb, by rw [hk', hk]⟩
  · obtain ⟨_, hk⟩ := h.cluster k
    obtain ⟨tlb, hk'⟩ := h'.cluster k
    exact ⟨tlb, by rw [hk', hk]⟩
theorem translated_tlbFill {k q va size : Nat} {leaf : W64} : Translated s (tlbFill s k q va size leaf) := by
  refine ⟨⟨_, _, _, _, _, _, rfl⟩, fun j => ?_, fun j => ?_⟩
  · by_cases hj : k = j
    · subst hj
      exact ⟨_, coreOf_setCore_same ..⟩
    · exact ⟨_, coreOf_setCore_other _ _ _ _ hj⟩
  · by_cases hj : clusterKey k = j
    · subst hj
      exact ⟨_, clusterOf_setCluster_same ..⟩
    · exact ⟨_, clusterOf_setCluster_other _ _ _ _ hj⟩
theorem translated_translate {k q va : Nat} {write : Bool} : Translated s (translate s k q va write).2 := by
  have hmiss : Counted s (countXl (countXl s 0) 1) := counted_trans counted_countXl counted_countXl
  unfold translate
  split
  · exact translated_refl s
  · split
    · exact translated_refl s
    · dsimp only
      split
      · exact translated_counted hmiss
      · split
        · exact translated_trans (translated_counted (counted_trans hmiss counted_countWalk)) translated_tlbFill
        · exact translated_counted (counted_trans hmiss counted_countWalk)
        · exact translated_counted (counted_trans hmiss counted_countWalk)
        · exact translated_counted (counted_trans hmiss counted_countWalk)
theorem sameMemory_translated (h : Translated s t) : SameMemory s t := by
  have hcore := h.core
  obtain ⟨_, _, _, _, _, _, rfl⟩ := h.rest
  refine ⟨rfl, rfl, rfl, fun k => ?_, fun _ => rfl⟩
  obtain ⟨_, hk⟩ := hcore k
  rw [hk]
  exact ⟨rfl, rfl, rfl⟩
theorem translated_dieOf (h : Translated s t) (d : Nat) : dieOf t d = dieOf s d := by
  obtain ⟨_, _, _, _, _, _, rfl⟩ := h.rest
  rfl
theorem translated_homeBad (h : Translated s t) (a n : Nat) : homeBad t a n = homeBad s a n := by
  obtain ⟨_, _, _, _, _, _, rfl⟩ := h.rest
  rfl

/-! ## The copies of a die (R267, R290) -/

section
variable {die : Nat}

/-- A state that differs at most in the copy and the counters of one die, in the steps to come, and in what reads count. -/
structure Copied (s t : State) (die : Nat) : Prop where
  rest : ∃ fresh agenda dies stackCnt sectors xlCnt, t = { s with
    fresh := fresh, agenda := agenda, die := dies,
    pkg := { s.pkg with stackCnt := stackCnt, sectors := sectors, xlCnt := xlCnt } }
  mine : ∃ cache cnt, dieOf t die = { dieOf s die with cache := cache, cnt := cnt }
  others : ∀ d, d ≠ die → dieOf t d = dieOf s d

theorem copied_counted (h : Counted s t) : Copied s t die := by
  obtain ⟨st, se, xl, rfl⟩ := h
  exact ⟨⟨s.fresh, s.agenda, s.die, st, se, xl, rfl⟩, ⟨(dieOf s die).cache, (dieOf s die).cnt, rfl⟩, fun _ _ => rfl⟩
theorem copied_refl (s : State) (die : Nat) : Copied s s die := copied_counted (counted_refl s)
theorem copied_trans (h : Copied s t die) (h' : Copied t u die) : Copied s u die := by
  refine ⟨?_, ?_, fun d hd => (h'.others d hd).trans (h.others d hd)⟩
  · obtain ⟨_, _, _, _, _, _, rfl⟩ := h.rest
    obtain ⟨f, a, d, st, se, xl, rfl⟩ := h'.rest
    exact ⟨f, a, d, st, se, xl, rfl⟩
  · obtain ⟨_, _, hd⟩ := h.mine
    obtain ⟨cache, cnt, hd'⟩ := h'.mine
    exact ⟨cache, cnt, by rw [hd', hd]⟩
theorem copied_foldl {α : Type} {f : State → α → State} (hf : ∀ s a, Copied s (f s a) die) (l : List α) (s : State) :
    Copied s (l.foldl f s) die := by
  induction l generalizing s with
  | nil => exact copied_refl s die
  | cons a l ih => exact copied_trans (hf s a) (ih (f s a))
theorem copied_setDie {cache : List CacheLine} {cnt : Vector W32 7} : Copied s (setDie s die { dieOf s die with cache := cache, cnt := cnt }) die :=
  ⟨⟨s.fresh, s.agenda, _, s.pkg.stackCnt, s.pkg.sectors, s.pkg.xlCnt, rfl⟩, ⟨cache, cnt, dieOf_setDie_same ..⟩,
    fun _ hd => dieOf_setDie_other _ _ _ _ (Ne.symm hd)⟩
theorem copied_putLine {l : CacheLine} : Copied s (putLine s die l) die := copied_setDie
theorem copied_countDie {n k : Nat} : Copied s (countDie s die n k) die := copied_setDie
theorem copied_schedule {due : Nat} {op : Instr} {args : EvArgs} : Copied s (schedule s due op args) die :=
  ⟨⟨s.fresh, _, s.die, s.pkg.stackCnt, s.pkg.sectors, s.pkg.xlCnt, rfl⟩, ⟨(dieOf s die).cache, (dieOf s die).cnt, rfl⟩, fun _ _ => rfl⟩
theorem copied_fresh {n : Nat} : Copied s { s with fresh := n } die :=
  ⟨⟨n, s.agenda, s.die, s.pkg.stackCnt, s.pkg.sectors, s.pkg.xlCnt, rfl⟩, ⟨(dieOf s die).cache, (dieOf s die).cnt, rfl⟩, fun _ _ => rfl⟩
theorem sameMemory_copied (h : Copied s t die) : SameMemory s t := by
  have hmine := h.mine
  have hothers := h.others
  obtain ⟨_, _, _, _, _, _, rfl⟩ := h.rest
  refine ⟨rfl, rfl, rfl, fun _ => ⟨rfl, rfl, rfl⟩, fun d => ?_⟩
  by_cases hd : d = die
  · subst hd
    obtain ⟨_, _, hd⟩ := hmine
    rw [hd]
  · rw [hothers d hd]
theorem copied_p (h : Copied s t die) : (dieOf t die).p = (dieOf s die).p := by
  obtain ⟨_, _, hd⟩ := h.mine
  rw [hd]
theorem copied_homeBad (h : Copied s t die) (a n : Nat) : homeBad t a n = homeBad s a n := by
  obtain ⟨_, _, _, _, _, _, rfl⟩ := h.rest
  rfl
theorem copied_hbmByte (h : Copied s t die) (a : Nat) : hbmByte t a = hbmByte s a := by
  obtain ⟨_, _, _, _, _, _, rfl⟩ := h.rest
  rfl
theorem copied_hbmBytes (h : Copied s t die) (a n : Nat) : hbmBytes t a n = hbmBytes s a n :=
  List.map_congr_left fun i _ => copied_hbmByte h (a + i)

/-! ## The lines that a copy holds -/

theorem cacheLine_of_cache {m : Nat} (h : (dieOf t die).cache = (dieOf s die).cache) : cacheLine t die m = cacheLine s die m := by
  rw [cacheLine, h]
  rfl
theorem cacheLine_putLine_same {l : CacheLine} : cacheLine (putLine s die l) die l.line = some l := by
  rw [cacheLine, putLine, dieOf_setDie_same]
  exact List.find?_cons_of_pos (by simp)
theorem cacheLine_putLine_other {l : CacheLine} {m : Nat} (h : m ≠ l.line) : cacheLine (putLine s die l) die m = cacheLine s die m := by
  rw [cacheLine, putLine, dieOf_setDie_same, cacheLine, List.find?_cons_of_neg (by simpa using h.symm), List.find?_filter]
  congr 1
  funext x
  by_cases hx : x.line = m
  · simp [hx, h]
  · simp [hx]
theorem line_of_cacheLine {l : CacheLine} {m : Nat} (h : cacheLine s die m = some l) : l.line = m := by
  have := List.find?_some h
  simpa using this
theorem find?_erase_of_neg {l : List CacheLine} {v : CacheLine} {p : CacheLine → Bool} (h : p v = false) :
    (l.erase v).find? p = l.find? p := by
  induction l with
  | nil => rfl
  | cons x l ih =>
    by_cases hx : x = v
    · subst hx
      rw [List.erase_cons_head, List.find?_cons_of_neg (by simp [h])]
    · rw [List.erase_cons_tail (by simpa using hx), List.find?_cons, List.find?_cons, ih]
theorem cacheSet_of_p {d e : Die} (h : d.p = e.p) (m : Nat) : cacheSet d m = cacheSet e m := by rw [cacheSet, h, cacheSet]
/-- The line that a fill brings from home (R267). -/
def homeLine (s : State) (line : Nat) : CacheLine where
  line := line
  data := ofBytes (hbmBytes s (64 * line) 64)
  out := []
  poison := homeBad s (64 * line) 64
  ue := false
  corr := false
/-- A fill of an absent line: what a full set loses lies in that set. -/
theorem fillLine_absent {l : Nat} (hp : (dieOf s die).p ≠ 32) (habsent : cacheLine s die l = none) : ∃ u, Copied s u die ∧
    (∀ m, cacheSet (dieOf s die) m ≠ cacheSet (dieOf s die) l → cacheLine u die m = cacheLine s die m) ∧
    fillLine s die l = putLine u die (homeLine u l) := by
  have hcounted (t : State) (ht : Copied s t die)
      (hkept : ∀ m, cacheSet (dieOf s die) m ≠ cacheSet (dieOf s die) l → cacheLine t die m = cacheLine s die m) :
      let u := schedule (countRead t (l / 2)) t.now .cacheReplacement (evArgs die l 0)
      Copied s u die ∧ ∀ m, cacheSet (dieOf s die) m ≠ cacheSet (dieOf s die) l → cacheLine u die m = cacheLine s die m := by
    refine ⟨copied_trans ht (copied_trans (copied_counted counted_countRead) copied_schedule), fun m hm => ?_⟩
    rw [← hkept m hm]
    refine cacheLine_of_cache ?_
    obtain ⟨_, _, _, h⟩ := counted_countRead (s := t) (line := l / 2)
    rw [h]
    rfl
  have hfresh : Copied s (takeFresh s).2 die := copied_fresh
  unfold fillLine
  dsimp only
  rw [if_neg (by simp [hp, habsent])]
  split
  · obtain ⟨hu, hkept⟩ := hcounted s (copied_refl s die) fun _ _ => rfl
    exact ⟨_, hu, hkept, rfl⟩
  · split
    · next v hv =>
      have hset : cacheSet (dieOf s die) v.line = cacheSet (dieOf s die) l := by
        have hmem := (List.mem_filter.mp (List.mem_of_getElem? hv)).1
        simpa [sameSet] using (List.mem_filter.mp hmem).2
      obtain ⟨hu, hkept⟩ := hcounted (setDie (takeFresh s).2 die { dieOf s die with cache := (dieOf s die).cache.erase v })
        (copied_trans hfresh copied_setDie) fun m hm => by
          rw [cacheLine, dieOf_setDie_same]
          refine find?_erase_of_neg (beq_eq_false_iff_ne.mpr fun hv => hm ?_)
          rw [← hv, hset]
      exact ⟨_, hu, hkept, rfl⟩
    · obtain ⟨hu, hkept⟩ := hcounted (takeFresh s).2 hfresh fun _ _ => rfl
      exact ⟨_, hu, hkept, rfl⟩
theorem fillLine_present {l : Nat} (h : (dieOf s die).p = 32 ∨ (cacheLine s die l).isSome = true) : fillLine s die l = s :=
  if_pos (by simpa using h)
theorem copied_fillLine {l : Nat} : Copied s (fillLine s die l) die := by
  by_cases h : (dieOf s die).p = 32 ∨ (cacheLine s die l).isSome = true
  · rw [fillLine_present h]
    exact copied_refl s die
  · rw [not_or, Option.not_isSome_iff_eq_none] at h
    obtain ⟨u, hu, -, heq⟩ := fillLine_absent h.1 h.2
    rw [heq]
    exact copied_trans hu copied_putLine
theorem cacheLine_fillLine_same {l : Nat} (hp : (dieOf s die).p ≠ 32) : (cacheLine (fillLine s die l) die l).isSome = true := by
  by_cases h : (cacheLine s die l).isSome = true
  · rwa [fillLine_present (.inr h)]
  · obtain ⟨u, -, -, heq⟩ := fillLine_absent hp (Option.not_isSome_iff_eq_none.mp h)
    rw [heq]
    exact congrArg Option.isSome (cacheLine_putLine_same (s := u) (die := die) (l := homeLine u l))
/-- A fill of a line of another set leaves what the copy holds of a line. -/
theorem cacheLine_fillLine_other {l m : Nat} (h : cacheSet (dieOf s die) m ≠ cacheSet (dieOf s die) l) :
    cacheLine (fillLine s die l) die m = cacheLine s die m := by
  by_cases hp : (dieOf s die).p = 32 ∨ (cacheLine s die l).isSome = true
  · rw [fillLine_present hp]
  · rw [not_or, Option.not_isSome_iff_eq_none] at hp
    obtain ⟨u, -, hkept, heq⟩ := fillLine_absent hp.1 hp.2
    have hne : m ≠ (homeLine u l).line := fun hm => h (congrArg (cacheSet (dieOf s die)) hm)
    rw [heq, cacheLine_putLine_other hne, hkept m h]
/-- Lines that lie close together lie in sets of their own (R290). -/
theorem cacheSet_ne {d : Die} {l m : Nat} (hp : d.p ≠ 32) (hlm : l ≠ m) (hnear : l < m + 6144 ∧ m < l + 6144) :
    cacheSet d m ≠ cacheSet d l := by
  intro h
  unfold cacheSet at h
  obtain hbig | hsmall := Nat.lt_or_ge 32 d.p
  · rw [show 32 - d.p = 0 by omega, Nat.zero_mul, Nat.mod_zero, Nat.mod_zero] at h
    exact hlm h.symm
  · have hbanks : 6144 ≤ (32 - d.p) * 6144 := Nat.le_mul_of_pos_left _ (by omega)
    generalize (32 - d.p) * 6144 = n at *
    have hm := Nat.div_add_mod m n
    have hl := Nat.div_add_mod l n
    obtain hq | hq | hq := Nat.lt_trichotomy (m / n) (l / n)
    · have := Nat.mul_le_mul_left n (Nat.succ_le_of_lt hq)
      rw [Nat.mul_succ] at this
      omega
    · rw [hq] at hm
      omega
    · have := Nat.mul_le_mul_left n (Nat.succ_le_of_lt hq)
      rw [Nat.mul_succ] at this
      omega
theorem mem_linesOf64 {a n l : Nat} : l ∈ linesOf64 a n ↔ a / 64 ≤ l ∧ l < (a + n + 63) / 64 := by
  simp only [linesOf64, List.mem_map, List.mem_range]
  constructor
  · rintro ⟨i, hi, rfl⟩
    omega
  · rintro ⟨hlow, hhigh⟩
    exact ⟨l - a / 64, by omega, by omega⟩
theorem mem_linesOf64_near {a n l m : Nat} (hn : n ≤ 2 ^ 18) (hl : l ∈ linesOf64 a n) (hm : m ∈ linesOf64 a n) :
    l < m + 6144 ∧ m < l + 6144 := by
  rw [mem_linesOf64] at hl hm
  omega
end
end
end Sys2Proof.Machine
end

