-- ==== Sys2Proof/Proofs/DieEngines.lean ====
section
/-! PROOF. Repartition and drop of a die's Reservoir, and prefetch into it (10_die, R291, R297; 05_core_memory, R173). -/
namespace Sys2Proof.Machine
open Sys2Proof.Claims

section
variable {s t u : State} {die : Nat} {c : Command} {r : List Command}

theorem sameMemory_completed {addr n : Nat} {tag : Option Nat} (h : SameMemory s t) : SameMemory s (completeCommand t addr n tag) :=
  sameMemory_trans h (settles_sameMemory settles_completeCommand)

/-! ## Repartition and drop (R291, R297) -/

theorem rsvcfgPartApply_begins (hx : s.ev.x = die) (hz : s.ev.z ≠ 1) (hparts : (dieOf s die).parts = c :: r)
    (hzero : zeroing s die = false) (husers : (dieOf s die).users = []) (hhome : ∀ l ∈ (dieOf s die).cache, l.out = []) :
    Runs .rsvcfgPartApply s fun t => dieOf t die = { dieOf s die with
      p := (dieOf s die).preq, pinned := [], pinUe := [], pinCorr := [],
      cache := if (dieOf s die).p < (dieOf s die).preq then [] else (dieOf s die).cache } ∧ LaterOf t .rsvcfgPartApply die 0 1 := by
  have hnone : (dieOf s die).cache.any (fun l => !l.out.isEmpty) = false :=
    List.any_eq_false.mpr fun l hl => by simp [hhome l hl]
  have hrun : exec .rsvcfgPartApply s = .next (schedule (setDie s die { dieOf s die with
      p := (dieOf s die).preq, pinned := [], pinUe := [], pinCorr := [],
      cache := if (dieOf s die).p < (dieOf s die).preq then [] else (dieOf s die).cache })
      (s.now + 98304) .rsvcfgPartApply (evArgs die 0 1)) := by
    show execRsvcfgPartApply s = _
    simp only [execRsvcfgPartApply, hx, beq_eq_false_iff_ne.mpr hz, hparts, hzero, husers, hnone]
    rfl
  exact ⟨_, hrun, dieOf_setDie_same .., _, List.mem_append_right _ (List.mem_singleton_self _), rfl, rfl, rfl, rfl⟩
theorem rsvcfgPartApply_waits (hx : s.ev.x = die) (hz : s.ev.z ≠ 1) (hparts : (dieOf s die).parts = c :: r)
    (hzero : zeroing s die = false) (hbusy : (dieOf s die).users ≠ [] ∨ ∃ l ∈ (dieOf s die).cache, l.out ≠ []) :
    Runs .rsvcfgPartApply s fun t => dieOf t die = dieOf s die ∧ Later t .rsvcfgPartApply die 0 (s.now + 1) := by
  have hwait : (!(dieOf s die).users.isEmpty || (dieOf s die).cache.any (fun l => !l.out.isEmpty)) = true := by
    simpa using hbusy
  have hrun : exec .rsvcfgPartApply s = .next (schedule s (s.now + 1) .rsvcfgPartApply (evArgs die 0 0)) := by
    show execRsvcfgPartApply s = _
    simp only [execRsvcfgPartApply, hx, beq_eq_false_iff_ne.mpr hz, hparts, hzero, hwait]
    rfl
  exact ⟨_, hrun, rfl, later_schedule⟩
theorem rsvcfgPartApply_ends (hx : s.ev.x = die) (hz : s.ev.z = 1) (hp : (dieOf s die).p = (dieOf s die).preq)
    (hparts : (dieOf s die).parts = [c]) : Runs .rsvcfgPartApply s fun t =>
      dieOf t die = { dieOf s die with rpend := false, parts := [] } ∧ TagSet s t c.cx c.tag ∧ SameMemory s t := by
  have hrun : exec .rsvcfgPartApply s = .next (completeCommand (setDie s die { dieOf s die with rpend := false, parts := [] }) c.cx c.id c.tag) := by
    show execRsvcfgPartApply s = _
    simp only [execRsvcfgPartApply, hx, hz, hp, hparts, beq_self_eq_true]
    rfl
  have hmem : SameMemory s (setDie s die { dieOf s die with rpend := false, parts := [] }) := sameMemory_setDie rfl
  refine ⟨_, hrun, ?_, ?_, sameMemory_completed hmem⟩
  · rw [settles_dieOf settles_completeCommand, dieOf_setDie_same]
  · exact tagSet_before rfl (fun _ => rfl) (tagSet_completeCommand (setDie s die { dieOf s die with rpend := false, parts := [] }) c.cx c.id c.tag)
theorem rsvcfgDropComplete_outcome (hx : s.ev.x = die) (hdrops : (dieOf s die).drops = c :: r) : Runs .rsvcfgDropComplete s fun t =>
    TagSet s t c.cx c.tag ∧ SameMemory s t ∧
      dieOf t die = { dieOf s die with drops := r, cache := (dieOf s die).cache.filter (fun l => !l.out.isEmpty) } := by
  have hrun : exec .rsvcfgDropComplete s =
      .next (completeCommand (dropLines (setDie s die { dieOf s die with drops := r }) die) c.cx c.id c.tag) := by
    show execRsvcfgDropComplete s = _
    simp only [execRsvcfgDropComplete, hx, hdrops]
  refine ⟨_, hrun, ?_, ?_, ?_⟩
  · exact tagSet_before rfl (fun _ => rfl) (tagSet_completeCommand (dropLines (setDie s die { dieOf s die with drops := r }) die) c.cx c.id c.tag)
  · have htaken : SameMemory s (setDie s die { dieOf s die with drops := r }) := sameMemory_setDie rfl
    exact sameMemory_completed (sameMemory_trans htaken (sameMemory_setDie rfl))
  · rw [settles_dieOf settles_completeCommand, dropLines, dieOf_setDie_same, dieOf_setDie_same]

/-! ## Prefetch (R173) -/

/-- One line of a prefetch: filled unless it is poisoned. -/
def prefetchLine (die : Nat) (s : State) (l : Nat) : State := if homeBad s (64 * l) 64 then s else fillLine s die l

theorem copied_prefetchLine {l : Nat} : Copied s (prefetchLine die s l) die := by
  unfold prefetchLine
  split
  · exact copied_refl s die
  · exact copied_fillLine
theorem copied_prefetchLines {a n : Nat} : Copied s (prefetchLines s die a n) die := copied_foldl (fun _ _ => copied_prefetchLine) _ _
theorem prefetchLine_keeps {l m : Nat} (hset : m = l ∨ cacheSet (dieOf s die) m ≠ cacheSet (dieOf s die) l)
    (h : (cacheLine s die m).isSome = true) : (cacheLine (prefetchLine die s l) die m).isSome = true := by
  unfold prefetchLine
  split
  · exact h
  · obtain rfl | hset := hset
    · rwa [fillLine_present (.inr h)]
    · rwa [cacheLine_fillLine_other hset]
theorem prefetched {m : Nat} {ls : List Nat} (hp : (dieOf s die).p ≠ 32) (hgood : homeBad s (64 * m) 64 = false)
    (hset : ∀ l ∈ ls, m = l ∨ cacheSet (dieOf s die) m ≠ cacheSet (dieOf s die) l)
    (h : m ∈ ls ∨ (cacheLine s die m).isSome = true) : (cacheLine (ls.foldl (prefetchLine die) s) die m).isSome = true := by
  induction ls generalizing s with
  | nil => simpa using h
  | cons l ls ih =>
    have hcopied := copied_prefetchLine (s := s) (die := die) (l := l)
    have hpart (x : Nat) : cacheSet (dieOf (prefetchLine die s l) die) x = cacheSet (dieOf s die) x := cacheSet_of_p (copied_p hcopied) x
    refine ih (by rwa [copied_p hcopied]) (by rwa [copied_homeBad hcopied]) (fun x hx => ?_) ?_
    · rw [hpart, hpart]
      exact hset x (List.mem_cons_of_mem _ hx)
    · obtain hm | h := h
      · obtain rfl | hm := List.mem_cons.mp hm
        · refine .inr ?_
          rw [prefetchLine, hgood]
          exact cacheLine_fillLine_same hp
        · exact .inl hm
      · exact .inr (prefetchLine_keeps (hset l List.mem_cons_self) h)

section
variable {id : Nat} {j : XJob} {w : W64} {len : Nat}

theorem firstPiece_le {va : W64} {n : Nat} (h : field va 62 2 = 1) : firstPiece va n ≤ 65536 := by
  unfold firstPiece
  rw [bits_eq_field va 63 62 2 rfl, h, if_pos (beq_self_eq_true 1)]
  omega
theorem pfetchComplete_ends (hx : s.ev.x = id) (hjob : xjobOf s id = some j) (hop : j.cmd.op = .pfetch w len) (hpos : len ≤ j.pos) :
    Runs .pfetchComplete s fun t => TagSet s t j.cmd.cx j.cmd.tag ∧ SameMemory s t ∧ ∀ i ∈ t.pkg.xjobs, i.cmd.id ≠ j.cmd.id := by
  have hrun : exec .pfetchComplete s = .next (completeCommand (dropXJob s j.cmd.id) j.cmd.cx j.cmd.id j.cmd.tag) := by
    show execPfetchComplete s = _
    simp only [execPfetchComplete, hx, hjob, hop, if_pos hpos]
  have hset := settles_completeCommand (s := dropXJob s j.cmd.id) (addr := j.cmd.cx) (id := j.cmd.id) (tag := j.cmd.tag)
  refine ⟨_, hrun, ?_, ?_, fun i hi => ?_⟩
  · exact tagSet_before rfl (fun _ => rfl) (tagSet_completeCommand (dropXJob s j.cmd.id) j.cmd.cx j.cmd.id j.cmd.tag)
  · have hmem : SameMemory s (dropXJob s j.cmd.id) := sameMemory_of rfl rfl rfl rfl rfl
    exact sameMemory_completed hmem
  · obtain ⟨_, _, _, heq⟩ := hset.rest
    rw [heq] at hi
    simpa using (List.mem_filter.mp hi).2
/-- A prefetch with a page less to fetch. -/
def nextPage (j : XJob) (n : Nat) : XJob := { j with pos := j.pos + n, fail := none, stack := none }
theorem mem_setXJob (hjob : xjobOf s id = some j) (hu : u.pkg.xjobs = s.pkg.xjobs) (n : Nat) :
    nextPage j n ∈ (setXJob u (nextPage j n)).pkg.xjobs := by
  refine List.mem_map.mpr ⟨j, ?_, if_pos (beq_self_eq_true j.cmd.id)⟩
  rw [hu]
  exact List.mem_of_find?_eq_some hjob

section
variable {p : Trans}
/-- The physical address that a translation gives, 0 for none. -/
def transAddress (p : Trans) : W64 := match p with | .ok pa _ => pa | _ => 0

theorem exec_pfetchComplete (hx : s.ev.x = id) (hjob : xjobOf s id = some j) (hop : j.cmd.op = .pfetch w len) (hpos : j.pos < len)
    (htr : translate s j.cmd.core (commandQueue s j.cmd) (field (w + BitVec.ofNat 64 j.pos) 0 48) false = (p, u)) :
    let n := firstPiece (w + BitVec.ofNat 64 j.pos) (len - j.pos)
    let pa := transAddress p
    let wait := reservoirWait u (dieKey j.cmd.core) pa n
    let t := if field pa 58 4 = 1 then prefetchLines u (dieKey j.cmd.core) (field pa 0 41) n else u
    exec .pfetchComplete s = if field pa 58 4 = 1 ∧ wait.2.1 ≠ 0 then .next (putOff u wait .pfetchComplete u.ev)
      else .next (schedule (setXJob t (nextPage j n)) (t.now + 1) .pfetchComplete t.ev) := by
  intro n pa wait t
  show execPfetchComplete s = _
  have htr' : translate s j.cmd.core (commandQueue s j.cmd) (bits (w + BitVec.ofNat 64 j.pos) 47 0) false = (p, u) := by
    rw [bits_eq_field _ 47 0 48 rfl]
    exact htr
  obtain ⟨cmd, pos, fail, stack⟩ := j
  dsimp only at hop hpos htr'
  rw [execPfetchComplete, hx, hjob]
  dsimp only
  rw [hop]
  dsimp only
  rw [if_neg (Nat.not_le.mpr hpos), htr']
  simp only [bits_eq_field _ 61 58 4 rfl, bits_eq_field _ 40 0 41 rfl, Bool.and_eq_true, beq_iff_eq, bne_iff_ne]
  rfl
theorem pfetchComplete_page (hx : s.ev.x = id) (hjob : xjobOf s id = some j) (hop : j.cmd.op = .pfetch w len) (hpos : j.pos < len)
    (htr : translate s j.cmd.core (commandQueue s j.cmd) (field (w + BitVec.ofNat 64 j.pos) 0 48) false = (p, u)) :
    Runs .pfetchComplete s fun t => SameMemory s t ∧ LaterOf t .pfetchComplete id s.ev.y s.ev.z := by
  have hrun := exec_pfetchComplete hx hjob hop hpos htr
  have htrans : Translated s u := by
    rw [show u = _ from (congrArg Prod.snd htr).symm]
    exact translated_translate
  have hev : u.ev = s.ev := by
    obtain ⟨_, _, _, _, _, _, rfl⟩ := htrans.rest
    rfl
  have hmem := sameMemory_translated htrans
  dsimp only at hrun
  generalize firstPiece (w + BitVec.ofNat 64 j.pos) (len - j.pos) = n at hrun
  generalize reservoirWait u (dieKey j.cmd.core) (transAddress p) n = wait at hrun
  split at hrun
  · refine ⟨_, hrun, sameMemory_trans hmem (sameMemory_putOff ..), ?_⟩
    rw [← hx, ← hev]
    exact (later_putOff ..).2
  · refine ⟨_, hrun, ?_⟩
    have ht : Copied u (if field (transAddress p) 58 4 = 1 then prefetchLines u (dieKey j.cmd.core) (field (transAddress p) 0 41) n else u)
        (dieKey j.cmd.core) := by
      split
      · exact copied_prefetchLines
      · exact copied_refl ..
    generalize (if field (transAddress p) 58 4 = 1 then prefetchLines u (dieKey j.cmd.core) (field (transAddress p) 0 41) n else u) = t at *
    have hevt : t.ev = u.ev := by
      obtain ⟨_, _, _, _, _, _, rfl⟩ := ht.rest
      rfl
    refine ⟨sameMemory_trans hmem (sameMemory_trans (sameMemory_copied ht) (sameMemory_of rfl rfl rfl rfl rfl)), ?_⟩
    rw [← hx, ← hev, ← hevt]
    exact ⟨_, List.mem_append_right _ (List.mem_singleton_self _), rfl, rfl, rfl, rfl⟩
/-- A page of a prefetch that no bank holds up. -/
theorem pfetchComplete_goes (hx : s.ev.x = id) (hjob : xjobOf s id = some j) (hop : j.cmd.op = .pfetch w len) (hpos : j.pos < len)
    (htr : translate s j.cmd.core (commandQueue s j.cmd) (field (w + BitVec.ofNat 64 j.pos) 0 48) false = (p, u))
    (hgo : field (transAddress p) 58 4 = 1 →
      (reservoirWait u (dieKey j.cmd.core) (transAddress p) (firstPiece (w + BitVec.ofNat 64 j.pos) (len - j.pos))).2.1 = 0) :
    let va := w + BitVec.ofNat 64 j.pos
    let n := firstPiece va (len - j.pos)
    let die := dieKey j.cmd.core
    Runs .pfetchComplete s fun t => nextPage j n ∈ t.pkg.xjobs ∧ ∀ a, field (transAddress p) 58 4 = 1 → field va 62 2 = 1 →
      (dieOf s die).p ≠ 32 → a ∈ linesOf64 (field (transAddress p) 0 41) n → homeBad s (64 * a) 64 = false →
      (cacheLine t die a).isSome = true := by
  intro va n die
  have hrun := exec_pfetchComplete hx hjob hop hpos htr
  have htrans : Translated s u := by
    rw [show u = _ from (congrArg Prod.snd htr).symm]
    exact translated_translate
  have hjobs : u.pkg.xjobs = s.pkg.xjobs := by
    obtain ⟨_, _, _, _, _, _, rfl⟩ := htrans.rest
    rfl
  dsimp only at hrun
  rw [if_neg (fun h => h.2 (hgo h.1))] at hrun
  refine ⟨_, hrun, mem_setXJob hjob ?_ _, fun a hhbm hvirt hp ha hgood => ?_⟩
  · split
    · obtain ⟨_, _, _, _, _, _, heq⟩ := (copied_prefetchLines (s := u) (die := die) (a := field (transAddress p) 0 41) (n := n)).rest
      exact (congrArg (fun t => t.pkg.xjobs) heq).trans hjobs
    · exact hjobs
  · rw [← translated_homeBad htrans] at hgood
    rw [← translated_dieOf htrans] at hp
    have hfetched := prefetched (s := u) (die := die) (ls := linesOf64 (field (transAddress p) 0 41) n) hp hgood (fun l hl => by
      by_cases hal : a = l
      · exact .inl hal
      · refine .inr (cacheSet_ne hp (Ne.symm hal) (mem_linesOf64_near ?_ hl ha))
        exact (firstPiece_le hvirt).trans (by decide)) (.inl ha)
    rw [if_pos hhbm]
    exact hfetched
end
end
end

section
variable {s : State} {die k : Nat}

/-- A request of a VF region as it is applied (R280, R281). -/
theorem vfRequestApply_outcome (hx : s.ev.x = die) (hy : s.ev.y = k) (hk : k < 4) :
    let v := vfOf s die k
    let f := max 40 (min v.rfreq (min (40 + 8 * v.rpt) v.ceil))
    let others := fun (t : State) => ∀ j < 4, j ≠ k → vfOf t die j = vfOf s die j
    (v.busy = true → Runs .vfRequestApply s fun t => PutOff s t .vfRequestApply) ∧
    (v.busy = false → s.ev.z = 0 → v.rpt = v.pt → f = v.freq → Runs .vfRequestApply s fun t =>
      vfOf t die k = { v with pend := false } ∧ others t ∧ SameMemory s t) ∧
    (v.busy = false → s.ev.z ≠ 0 ∨ v.rpt ≠ v.pt ∨ f ≠ v.freq → Runs .vfRequestApply s fun t => others t ∧ SameMemory s t ∧
      vfOf t die k = { v with busy := true, newPt := v.rpt, newFreq := f, cyc := vfCycles s v, cycAt := s.now, off := true } ∧
      Later t .vfClockResume die k (s.now + if v.rpt = v.pt ∧ s.ev.z ≠ 2 then 200 else 2000)) := by
  intro v f others
  refine ⟨fun hbusy => ?_, fun hbusy hz hpt hf => ?_, fun hbusy h => ?_⟩
  · exact ⟨_, vfRequestApply_busy hx hy hbusy, rfl, rfl⟩
  · exact ⟨_, vfRequestApply_nothing hx hy hbusy hz hpt hf, vfOf_setVf_same hk, fun j _ hj => vfOf_setVf_other hj.symm, sameMemory_setVf⟩
  · obtain ⟨hothers, hmem, hv⟩ := begun_outcome (s := s) (die := die) hk
      (due := s.now + if v.rpt = v.pt ∧ s.ev.z ≠ 2 then 200 else 2000)
    exact ⟨_, vfRequestApply_begins hx hy hbusy h, hothers, hmem, hv, later_schedule⟩
/-- A page of a prefetch with the outcome of its translation. -/
theorem pfetchComplete_translated {id len : Nat} {j : XJob} {w : W64} (hx : s.ev.x = id) (hjob : xjobOf s id = some j)
    (hop : j.cmd.op = .pfetch w len) (hpos : j.pos < len) (a : Nat) (p : Trans) (u : State)
    (htr : translate s j.cmd.core (commandQueue s j.cmd) (field (w + BitVec.ofNat 64 j.pos) 0 48) false = (p, u)) :
    let va := w + BitVec.ofNat 64 j.pos
    let n := firstPiece va (len - j.pos)
    let die := dieKey j.cmd.core
    ((∀ pa cmp, p ≠ .ok pa cmp) → Runs .pfetchComplete s fun t => nextPage j n ∈ t.pkg.xjobs) ∧
    (∀ pa cmp, p = .ok pa cmp → (field pa 58 4 ≠ 1 ∨ (reservoirWait u die pa n).2.1 = 0) → Runs .pfetchComplete s fun t =>
      nextPage j n ∈ t.pkg.xjobs ∧
      (field pa 58 4 = 1 → field va 62 2 = 1 → (dieOf s die).p ≠ 32 → a ∈ linesOf64 (field pa 0 41) n →
        homeBad s (64 * a) 64 = false → (cacheLine t die a).isSome = true)) := by
  refine ⟨fun hno => ?_, fun pa cmp hpa hgo => ?_⟩
  · have hzero : transAddress p = 0 := by
      cases p with
      | ok pa cmp => exact absurd rfl (hno pa cmp)
      | absent => rfl
      | bad => rfl
      | poisoned => rfl
    have hspace : field (transAddress p) 58 4 ≠ 1 := by
      rw [hzero]
      decide
    obtain ⟨t, hrun, hjobs, -⟩ := pfetchComplete_goes hx hjob hop hpos htr (fun h => absurd h hspace)
    exact ⟨t, hrun, hjobs⟩
  · subst hpa
    obtain ⟨t, hrun, hjobs, hlines⟩ := pfetchComplete_goes hx hjob hop hpos htr (fun h => hgo.resolve_left (· h))
    exact ⟨t, hrun, hjobs, hlines a⟩
end

/-- Settles O48, unit by unit: VF regions, weir limits, bands, time, the cache policy, the pinned store, refresh, repartition, prefetch. -/
theorem dieUnitsAct : Obligations.DieUnitsAct := by
  unfold Obligations.DieUnitsAct
  refine ⟨?_, ?_, ?_, ?_, ?_, ?_, ?_, ?_⟩
  · intro s die k hx hy hk v f others
    obtain ⟨hbusy, hnothing, hbegins⟩ := vfRequestApply_outcome hx hy hk
    refine ⟨hbusy, hnothing, hbegins, fun hbusy => ?_, vfClockResume_idle hx hy, weirHalve_outcome hx hy hk, ?_⟩
    · obtain ⟨hothers, hmem, hv, hcount, hbands⟩ := resumed_outcome (s := s) (die := die) hk
      exact ⟨_, vfClockResume_runs hx hy hbusy, hothers, hmem, by rw [hv]; rfl, by rw [hv]; rfl, by rw [hv]; rfl, by rw [hv]; rfl,
        hcount, hbands⟩
    · exact weirDouble_outcome hx hy hk
  · intro w fs fr _ _ lo hi h
    exact bandWord_eq h
  · intro s die hx
    exact timeRecalibration_outcome hx
  · intro s die line hx hy
    exact cacheReplacement_outcome hx hy
  · intro s die src loc len j r hx hq hop wait at_ place
    refine ⟨fun hpos hwait hbad => rsvldLine_bad hx hq hop hpos hwait hbad,
      fun hpos hwait hgood hquiet hplaces _ => rsvldLine_good hx hq hop hpos hwait hgood hquiet hplaces,
      fun hpos hwait => rsvldLine_waits hx hq hop hpos hwait, fun hpos _ => rsvldComplete_outcome hx hq hop hpos⟩
  · exact refreshWait_window
  · intro s die c r hx d
    exact ⟨fun hz hparts hzero husers hhome => rsvcfgPartApply_begins hx hz hparts hzero husers hhome,
      fun hz hparts hzero hbusy => rsvcfgPartApply_waits hx hz hparts hzero hbusy,
      fun hz hp hparts _ => rsvcfgPartApply_ends hx hz hp hparts, fun hdrops _ => rsvcfgDropComplete_outcome hx hdrops⟩
  · intro s id a len j w hx hjob hop
    refine ⟨fun hpos _ => pfetchComplete_ends hx hjob hop hpos, fun hpos => ?_⟩
    intro va n die
    refine ⟨?_, fun p u htr => ?_⟩
    · generalize htr : translate s j.cmd.core (commandQueue s j.cmd) (field va 0 48) false = pu
      exact pfetchComplete_page hx hjob hop hpos htr
    · exact pfetchComplete_translated hx hjob hop hpos a p u htr
end Sys2Proof.Machine
end

