-- ==== Sys2Proof/Proofs/MemoryEnds.lean ====
section
/-! PROOF. SUPPORT. How an operation outside core memory ends: its reply or its failure on its way to the issuer, or the rollback of its
gang (05_core_memory, R157, R158; 13_package_memory, R355). -/
namespace Sys2Proof.Machine
open Sys2Proof.Claims

section
variable {s t u : State}

/-! ## The place of a context -/

theorem coreOfAddr_of_mapView (h : mapView t = mapView s) (addr : Nat) : coreOfAddr t addr = coreOfAddr s addr := by
  simp only [mapView, Prod.mk.injEq] at h
  obtain ⟨hat, hbase, hmap, hhbm⟩ := h
  have hentry (x y : Nat) : mapEntry t x y = mapEntry s x y := by
    rw [mapEntry, mapEntry, hat, hbase, hmap, hhbm]
  simp only [coreOfAddr, placeOf, hentry]
theorem regionOfCtx_of (hmap : mapView t = mapView s) (hctx : ∀ k, (coreOf t k).ctx = (coreOf s k).ctx) (hregion : t.region = s.region)
    (addr : Nat) : regionOfCtx t addr = regionOfCtx s addr := by
  have hfind : findCtx t addr = findCtx s addr := findCtx_eq_of (coreOfAddr_of_mapView hmap addr) hctx
  simp only [regionOfCtx, anyCtx, hfind, ctxOf, hctx, hregion]
theorem mapView_counted (h : Counted s t) : mapView t = mapView s := by
  obtain ⟨_, _, _, rfl⟩ := h
  rfl
theorem mapView_copied {die : Nat} (h : Copied s t die) : mapView t = mapView s := by
  obtain ⟨_, _, _, _, _, _, rfl⟩ := h.rest
  rfl
theorem mapView_translated (h : Translated s t) : mapView t = mapView s := by
  obtain ⟨_, _, _, _, _, _, rfl⟩ := h.rest
  rfl

/-! ## What an end leaves -/

/-- A state that differs at most in contexts, in saved contexts, in the operations and messages under way and in the steps to come. -/
structure Passed (s t : State) : Prop where
  rest : ∃ core region agenda xops nextId msgs, t = { s with
    core := core, region := region, agenda := agenda, xops := xops, nextId := nextId, msgs := msgs }
  cores : ∀ k, ∃ ctx, coreOf t k = { coreOf s k with ctx := ctx }

theorem passed_of_core (hcore : t.core = s.core) (hrest : ∃ region agenda xops nextId msgs, t = { s with
    region := region, agenda := agenda, xops := xops, nextId := nextId, msgs := msgs }) : Passed s t := by
  obtain ⟨r, a, x, n, m, rfl⟩ := hrest
  exact ⟨⟨s.core, r, a, x, n, m, rfl⟩, fun k => ⟨(coreOf s k).ctx, rfl⟩⟩
theorem passed_refl (s : State) : Passed s s := passed_of_core rfl ⟨_, _, _, _, _, rfl⟩
theorem passed_trans (h : Passed s t) (h' : Passed t u) : Passed s u := by
  refine ⟨?_, fun k => ?_⟩
  · obtain ⟨_, _, _, _, _, _, rfl⟩ := h.rest
    obtain ⟨c, r, a, x, n, m, rfl⟩ := h'.rest
    exact ⟨c, r, a, x, n, m, rfl⟩
  · obtain ⟨_, hk⟩ := h.cores k
    obtain ⟨ctx, hk'⟩ := h'.cores k
    exact ⟨ctx, by rw [hk', hk]⟩
theorem passed_settles (h : Settles s t) : Passed s t := by
  refine ⟨?_, settles_core h⟩
  obtain ⟨c, r, a, rfl⟩ := h.rest
  exact ⟨c, r, a, s.xops, s.nextId, s.msgs, rfl⟩
theorem passed_schedule {due : Nat} {op : Instr} {args : EvArgs} : Passed s (schedule s due op args) := passed_of_core rfl ⟨_, _, _, _, _, rfl⟩
theorem passed_xops {l : List XOp} : Passed s { s with xops := l } := passed_of_core rfl ⟨_, _, _, _, _, rfl⟩
theorem passed_dropOp {x : XOp} : Passed s (dropOp s x) := passed_xops
theorem passed_putOp {x y : XOp} : Passed s (putOp s x y) := passed_xops
theorem passed_deliver {src dst : Nat} {p : Payload} {op : Instr} : Passed s (deliver s src dst p op) := passed_of_core rfl ⟨_, _, _, _, _, rfl⟩
theorem passed_setRegion {n : Nat} {r : Region} : Passed s (setRegion s n r) := passed_of_core rfl ⟨_, _, _, _, _, rfl⟩
theorem passed_consumeError {n : Nat} {code : BitVec 8} : Passed s (consumeError s n code) := passed_trans passed_setRegion passed_schedule
theorem passed_poke {addr : Nat} : Passed s (poke s addr) := passed_settles settles_poke
theorem passed_modCtx {addr : Nat} {f : Ctx → Ctx} : Passed s (modCtx s addr f) := by
  unfold modCtx
  split
  · next k c _ =>
    refine ⟨⟨_, s.region, s.agenda, s.xops, s.nextId, s.msgs, rfl⟩, fun j => ?_⟩
    by_cases hj : k = j
    · subst hj
      exact ⟨_, coreOf_setCtx ..⟩
    · exact ⟨_, coreOf_setCtx_other _ _ _ _ _ hj⟩
  · exact passed_of_core rfl ⟨_, _, _, _, _, rfl⟩
theorem passed_modAccess {addr id : Nat} {f : Access → Access} : Passed s (modAccess s addr id f) := passed_settles settles_modAccess
theorem sameMemory_passed (h : Passed s t) : SameMemory s t := by
  have hcores := h.cores
  obtain ⟨_, _, _, _, _, _, rfl⟩ := h.rest
  refine ⟨rfl, rfl, rfl, fun k => ?_, fun _ => rfl⟩
  obtain ⟨_, hk⟩ := hcores k
  rw [hk]
  exact ⟨rfl, rfl, rfl⟩
theorem mapView_passed (h : Passed s t) : mapView t = mapView s := by
  obtain ⟨_, _, _, _, _, _, rfl⟩ := h.rest
  rfl
theorem tlb_passed (h : Passed s t) (k : Nat) : (coreOf t k).tlb = (coreOf s k).tlb := by
  obtain ⟨_, hk⟩ := h.cores k
  rw [hk]
theorem hbmByte_passed (h : Passed s t) (a : Nat) : hbmByte t a = hbmByte s a := by
  obtain ⟨_, _, _, _, _, _, rfl⟩ := h.rest
  rfl
theorem dieOf_passed (h : Passed s t) (d : Nat) : dieOf t d = dieOf s d := by
  obtain ⟨_, _, _, _, _, _, rfl⟩ := h.rest
  rfl

/-! ## Replies and failures -/

section
variable {r : Request}

theorem passed_replyTo {v : V512} : Passed s (replyTo s none r v) := by
  unfold replyTo sendReply
  dsimp only
  split
  · split
    · exact passed_refl s
    · exact passed_deliver
  · exact passed_refl s
theorem repliesTo_replyTo {v : V512} (hmap : coreOfAddr t r.cx = coreOfAddr s r.cx) : RepliesTo s (replyTo t none r v) r v.toNat := by
  intro hrpy dst hdst
  have hdst' : coreOfAddr t r.cx = some dst := hmap.trans hdst
  simp only [replyTo, sendReply, hrpy, hdst', if_true]
  exact ⟨_, List.mem_append_right _ (List.mem_singleton_self _), rfl, _, rfl, rfl, replySb_fields ..⟩
theorem passed_failRequest {code : BitVec 8} : Passed s (failRequest s none r code) := by
  unfold failRequest
  dsimp only
  split
  · exact passed_refl s
  · exact passed_deliver
theorem failsTo_failRequest {code : BitVec 8} (hmap : coreOfAddr t r.cx = coreOfAddr s r.cx) : FailsTo s (failRequest t none r code) r code := by
  intro dst hdst
  have hdst' : coreOfAddr t r.cx = some dst := hmap.trans hdst
  simp only [failRequest, hdst']
  exact ⟨_, List.mem_append_right _ (List.mem_singleton_self _), rfl, _, rfl⟩

end

/-! ## Ends of an operation -/

section
variable {x : XOp}

/-- An operation of a context whose end is not an engine's: what its reply leaves from. -/
def finished (t : State) (x : XOp) : State :=
  if readsOnly x.req then dropOp t x else writeDone (dropOp t x) x.req.cx x.req.id
theorem passed_finished : Passed t (finished t x) := by
  unfold finished
  split
  · exact passed_dropOp
  · exact passed_trans passed_dropOp passed_modAccess
theorem finishOp_context {v : V512} (hengine : x.engine = false) : finishOp t x v = replyTo (finished t x) none x.req v := by
  rw [finishOp, hengine]
  rfl
theorem passed_finishOp {v : V512} : Passed t (finishOp t x v) := by
  cases hengine : x.engine with
  | true =>
    rw [finishOp, hengine]
    exact passed_dropOp
  | false =>
    rw [finishOp_context hengine]
    exact passed_trans passed_finished passed_replyTo
theorem repliesTo_finishOp {v : V512} (hengine : x.engine = false) (hmap : coreOfAddr t x.req.cx = coreOfAddr s x.req.cx) :
    RepliesTo s (finishOp t x v) x.req v.toNat := by
  rw [finishOp_context hengine]
  exact repliesTo_replyTo ((coreOfAddr_of_mapView (mapView_passed passed_finished) _).trans hmap)
/-- An end with a reply that leaves every memory. -/
theorem answered_finishOp {v : V512} (hengine : x.engine = false) (hmem : SameMemory s t) (hmap : mapView t = mapView s) :
    SameMemory s (finishOp t x v) ∧ RepliesTo s (finishOp t x v) x.req v.toNat :=
  ⟨sameMemory_trans hmem (sameMemory_passed passed_finishOp), repliesTo_finishOp hengine (coreOfAddr_of_mapView hmap _)⟩
/-- A poisoned operation: nothing is delivered, and the gang of its context consumes the error. -/
def Poisons (s t : State) (x : XOp) : Prop :=
  SameMemory s t ∧ t.msgs = s.msgs ∧ (regionOf t (regionOfCtx s x.req.cx)).error = some 0x07
theorem error_consumeError {n : Nat} {code : BitVec 8} : (regionOf (consumeError s n code) n).error = some code := by
  show (regionOf (setRegion s n _) n).error = _
  rw [regionOf_setRegion_same]
theorem poisons_poisonOp (hmem : SameMemory s t) (hmsgs : t.msgs = s.msgs) (hregion : regionOfCtx t x.req.cx = regionOfCtx s x.req.cx) :
    Poisons s (poisonOp t x) x := by
  have hcount : Counted (dropOp t x) (countStack (dropOp t x) (counterPlace t x.pa) 5 1) := counted_countStack
  refine ⟨sameMemory_trans hmem (sameMemory_trans (sameMemory_passed (passed_dropOp (x := x))) ?_), hmsgs, ?_⟩
  · exact sameMemory_trans (sameMemory_counted hcount) (sameMemory_passed passed_consumeError)
  · rw [← hregion]
    exact error_consumeError
/-- The state in which a failed operation's command port is free. -/
def released (t : State) (x : XOp) : State :=
  if x.port then poke (freeCp (dropOp t x) x.req.cx) x.req.cx else dropOp t x
theorem passed_released : Passed t (released t x) := by
  unfold released
  split
  · exact passed_trans passed_dropOp (passed_trans passed_modCtx passed_poke)
  · exact passed_dropOp
theorem failOp_eq {code : BitVec 8} : failOp t x code = failRequest (released t x) none x.req code := rfl
theorem passed_failOp {code : BitVec 8} : Passed t (failOp t x code) := passed_trans passed_released passed_failRequest
theorem fails_failOp {code : BitVec 8} (hmem : SameMemory s t) (hmap : mapView t = mapView s) :
    SameMemory s (failOp t x code) ∧ FailsTo s (failOp t x code) x.req code := by
  refine ⟨sameMemory_trans hmem (sameMemory_passed passed_failOp), ?_⟩
  rw [failOp_eq]
  refine failsTo_failRequest (coreOfAddr_of_mapView ?_ _)
  exact (mapView_passed passed_released).trans hmap
theorem mem_swapOp {x y : XOp} {l : List XOp} (h : x ∈ l) : y ∈ swapOp x y l := by
  induction l with
  | nil => cases h
  | cons o l ih =>
    rw [swapOp]
    by_cases ho : o = x
    · rw [if_pos (by simpa using ho)]
      exact List.mem_cons_self
    · rw [if_neg (by simpa using ho)]
      exact List.mem_cons_of_mem _ (ih ((List.mem_cons.mp h).resolve_left (Ne.symm ho)))
theorem mem_putOp {y : XOp} (h : x ∈ t.xops) : y ∈ (putOp t x y).xops := mem_swapOp h

end
end
end Sys2Proof.Machine
end

