-- ==== Sys2Proof/Proofs/TableWalks.lean ====
section
/-! PROOF. Table walks and page requests (13_package_memory, R358 to R361). -/
namespace Sys2Proof.Machine
open Sys2Proof.Claims

/-! ## Tables of tags -/

theorem mem_tput_same {α : Type} (m : SMap α) (k : Nat) (v : α) : (k, v) ∈ tput m k v := by
  induction m with
  | nil => exact List.mem_singleton_self _
  | cons e m ih =>
    obtain ⟨i, x⟩ := e
    unfold tput
    split
    · exact List.mem_cons_self
    · split
      · exact List.mem_cons_self
      · exact List.mem_cons_of_mem _ ih
theorem mem_tput_other {α : Type} {m : SMap α} {k : Nat} {v : α} {p : Nat × α} (h : p ∈ m) (hk : p.1 ≠ k) : p ∈ tput m k v := by
  induction m with
  | nil => cases h
  | cons e m ih =>
    obtain ⟨i, x⟩ := e
    unfold tput
    by_cases hi : i = k
    · rw [if_pos (by simpa using hi)]
      refine List.mem_cons_of_mem _ ((List.mem_cons.mp h).resolve_left fun hp => hk ?_)
      rw [hp, hi]
    · rw [if_neg (by simpa using hi)]
      split
      · exact List.mem_cons_of_mem _ h
      · obtain rfl | h := List.mem_cons.mp h
        · exact List.mem_cons_self
        · exact List.mem_cons_of_mem _ (ih h)

section
variable {s t u : State}

/-! ## Page requests (R360) -/

/-- An operation awaits a page of a queue: in the request that holds a tag, or in one that waits for a tag. -/
def Awaits (s : State) (q page op : Nat) : Prop :=
  ∃ n ops since, ((n, .page q page ops since) ∈ s.pkg.tags ∧ op ∈ ops) ∨ (q, page, ops) ∈ s.pkg.pageWait ∧ op ∈ ops

theorem freeTag_free {p : Pkg} {tag : Nat} (h : freeTag p = some tag) : ∀ e ∈ p.tags, e.1 ≠ tag := by
  have hnone := List.find?_some h
  intro e he heq
  rw [Bool.not_eq_true', List.any_eq_false] at hnone
  exact hnone e he (beq_iff_eq.mpr heq)
/-- A state in which at most the package's page requests, its counters and its waiting events differ. -/
def PagesOnly (s t : State) : Prop := ∃ tags pageWait waiting evWait heldAt xlCnt, t = { s with pkg := { s.pkg with
  tags := tags, pageWait := pageWait, waiting := waiting, evWait := evWait, heldAt := heldAt, xlCnt := xlCnt } }
theorem pagesOnly_refl (s : State) : PagesOnly s s := ⟨_, _, _, _, _, _, rfl⟩
theorem pagesOnly_trans (h : PagesOnly s t) (h' : PagesOnly t u) : PagesOnly s u := by
  obtain ⟨_, _, _, _, _, _, rfl⟩ := h
  obtain ⟨a, b, c, d, e, f, rfl⟩ := h'
  exact ⟨a, b, c, d, e, f, rfl⟩
theorem countHeld_cases (s : State) : ∃ evWait heldAt, countHeld s = { s with pkg := { s.pkg with evWait := evWait, heldAt := heldAt } } := by
  unfold countHeld
  split
  · exact ⟨_, _, rfl⟩
  · exact ⟨s.pkg.evWait, s.pkg.heldAt, rfl⟩
theorem pagesOnly_countHeld : PagesOnly s (countHeld s) := by
  obtain ⟨_, _, h⟩ := countHeld_cases s
  rw [h]
  exact ⟨_, _, _, _, _, _, rfl⟩
theorem startHeld_cases (s : State) : ∃ heldAt, startHeld s = { s with pkg := { s.pkg with heldAt := heldAt } } := by
  unfold startHeld
  split
  · exact ⟨_, rfl⟩
  · exact ⟨s.pkg.heldAt, rfl⟩
/-- What a grant of a tag makes of a state. -/
def granted (s : State) (tag q page : Nat) (ops : List Nat) (rest : List (Nat × Nat × List Nat)) : State :=
  let s := countHeld s
  let left := s.pkg.waiting.map (fun (e : HostEvent) => { e with behind := e.behind - 1 })
  countXl { s with pkg := { s.pkg with tags := tput s.pkg.tags tag (.page q page ops s.now), pageWait := rest, waiting := left } } 2
theorem pagesOnly_granted {tag q page : Nat} {ops : List Nat} {rest : List (Nat × Nat × List Nat)} :
    PagesOnly s (granted s tag q page ops rest) := by
  obtain ⟨_, _, h⟩ := countHeld_cases s
  simp only [granted, h]
  exact ⟨_, _, _, _, _, _, rfl⟩
theorem awaits_granted {tag q page op q' page' : Nat} {ops : List Nat} {rest : List (Nat × Nat × List Nat)}
    (hwait : s.pkg.pageWait = (q', page', ops) :: rest) (hfree : ∀ e ∈ s.pkg.tags, e.1 ≠ tag) (h : Awaits s q page op) :
    Awaits (granted s tag q' page' ops rest) q page op := by
  obtain ⟨_, _, heq⟩ := countHeld_cases s
  have htags : (granted s tag q' page' ops rest).pkg.tags = tput s.pkg.tags tag (.page q' page' ops s.now) := by
    simp only [granted, heq]
    rfl
  have hpw : (granted s tag q' page' ops rest).pkg.pageWait = rest := rfl
  obtain ⟨n, l, since, ⟨hmem, hop⟩ | ⟨hmem, hop⟩⟩ := h
  · exact ⟨n, l, since, .inl ⟨htags ▸ mem_tput_other hmem (hfree _ hmem), hop⟩⟩
  · rw [hwait] at hmem
    obtain hhead | hmem := List.mem_cons.mp hmem
    · simp only [Prod.mk.injEq] at hhead
      obtain ⟨rfl, rfl, rfl⟩ := hhead
      exact ⟨tag, l, s.now, .inl ⟨htags ▸ mem_tput_same .., hop⟩⟩
    · exact ⟨n, l, since, .inr ⟨hpw ▸ hmem, hop⟩⟩
theorem grantTags_succ (n : Nat) (s : State) : grantTags (n + 1) s = s ∨ ∃ tag q page ops rest,
    s.pkg.pageWait = (q, page, ops) :: rest ∧ (∀ e ∈ s.pkg.tags, e.1 ≠ tag) ∧
    grantTags (n + 1) s = grantTags n (granted s tag q page ops rest) := by
  rw [grantTags]
  split
  · next q page ops r tag hwait htag =>
    split
    · exact .inl rfl
    · exact .inr ⟨tag, q, page, ops, r, hwait, freeTag_free htag, rfl⟩
  · exact .inl rfl
theorem grantTags_keeps {q page op : Nat} (n : Nat) (h : Awaits s q page op) :
    PagesOnly s (grantTags n s) ∧ Awaits (grantTags n s) q page op := by
  induction n generalizing s with
  | zero => exact ⟨pagesOnly_refl s, h⟩
  | succ n ih =>
    obtain heq | ⟨tag, q', page', ops, rest, hwait, hfree, heq⟩ := grantTags_succ n s
    · rw [heq]
      exact ⟨pagesOnly_refl s, h⟩
    · obtain ⟨hpages, hawaits⟩ := ih (awaits_granted hwait hfree h)
      rw [heq]
      exact ⟨pagesOnly_trans pagesOnly_granted hpages, hawaits⟩
theorem grantTags_none (n : Nat) (h : s.pkg.pageWait = []) : grantTags n s = s := by
  cases n with
  | zero => rfl
  | succ n =>
    unfold grantTags
    rw [h]
/-- A request for a page that nothing awaits yet, behind those that wait for a tag. -/
def asked (s : State) (q page op : Nat) : State :=
  let s := countHeld s
  startHeld { s with pkg := { s.pkg with pageWait := s.pkg.pageWait ++ [(q, page, [op])] } }
theorem pagesOnly_asked {q page op : Nat} : PagesOnly s (asked s q page op) := by
  obtain ⟨_, h⟩ := startHeld_cases { countHeld s with pkg := { (countHeld s).pkg with
    pageWait := (countHeld s).pkg.pageWait ++ [(q, page, [op])] } }
  refine pagesOnly_trans pagesOnly_countHeld ?_
  rw [asked, h]
  exact ⟨_, _, _, _, _, _, rfl⟩
/-- A page request for an operation leaves it awaiting the page, whoever asked first. -/
theorem requestPage_awaits (q va op : Nat) : PagesOnly s (requestPage s q va op) ∧ Awaits (requestPage s q va op) q (va / 65536) op := by
  unfold requestPage
  dsimp only
  split
  · next n q' p ops since hfind =>
    have hmem := List.mem_of_find?_eq_some hfind
    have hmine : q' = q ∧ p = va / 65536 := by simpa using List.find?_some hfind
    obtain ⟨rfl, rfl⟩ := hmine
    split
    · next hin => exact ⟨pagesOnly_refl s, n, ops, since, .inl ⟨hmem, List.contains_iff_mem.mp hin⟩⟩
    · exact ⟨⟨_, _, _, _, _, _, rfl⟩, n, _, since, .inl ⟨mem_tput_same .., List.mem_append_right _ (List.mem_singleton_self op)⟩⟩
  · split
    · next w hfind =>
      have hmem := List.mem_of_find?_eq_some hfind
      obtain ⟨q', p, ops⟩ := w
      have hmine : q' = q ∧ p = va / 65536 := by simpa using List.find?_some hfind
      obtain ⟨rfl, rfl⟩ := hmine
      split
      · next hin => exact ⟨pagesOnly_refl s, 0, ops, 0, .inr ⟨hmem, List.contains_iff_mem.mp hin⟩⟩
      · refine ⟨⟨_, _, _, _, _, _, rfl⟩, 0, ops ++ [op], 0, .inr ⟨List.mem_map.mpr ⟨_, hmem, ?_⟩, ?_⟩⟩
        · exact if_pos (by simp)
        · exact List.mem_append_right _ (List.mem_singleton_self op)
    · have hasked : Awaits (asked s q (va / 65536) op) q (va / 65536) op := by
        obtain ⟨_, h⟩ := startHeld_cases { countHeld s with pkg := { (countHeld s).pkg with
          pageWait := (countHeld s).pkg.pageWait ++ [(q, va / 65536, [op])] } }
        refine ⟨0, [op], 0, .inr ⟨?_, List.mem_singleton_self op⟩⟩
        rw [asked, h]
        exact List.mem_append_right _ (List.mem_singleton_self _)
      obtain ⟨hpages, hawaits⟩ := grantTags_keeps 64 hasked
      exact ⟨pagesOnly_trans pagesOnly_asked hpages, hawaits⟩

/-! ## A level of a walk (R358) -/

section
variable {level va : Nat} {table e : W64}

theorem walkLevel_bad (h : homeBad s (entryAt level table va) 8 = true) : walkLevel s level table va = .poisoned := if_pos h
theorem walkLevel_good (h : homeBad s (entryAt level table va) 8 = false) :
    walkLevel s level table va = readEntry s level (BitVec.ofNat 64 (leNat (hbmBytes s (entryAt level table va) 8))) := by
  rw [walkLevel, h]
  rfl
/-- What makes the entry of a page broken (R358). -/
def LeafBroken (s : State) (level : Nat) (e : W64) : Prop :=
  field e 46 14 ≠ 0 ∨ (entryTarget e).toNat % pageSize level ≠ 0 ∨ field (entryTarget e) 58 4 ∉ [1, 2, 5] ∨
    (bitAt e 60 = true ∧ field (entryTarget e) 58 4 ≠ 1) ∨ space10Ok s (entryTarget e) 1 = false
theorem readEntry_absent (h : bitAt e 63 = false) : readEntry s level e = .absent := by
  rw [readEntry, h]
  rfl
theorem readEntry_rootLeaf (h : bitAt e 62 = true) : readEntry s 3 e = .absent := by
  rw [readEntry, h]
  split <;> rfl
theorem readEntry_leaf (hv : bitAt e 63 = true) (hl : bitAt e 62 = true) (hlevel : level ≠ 3) :
    (LeafBroken s level e → readEntry s level e = .broken) ∧ (¬ LeafBroken s level e → readEntry s level e = .leaf e (pageSize level)) := by
  have hiff : (bits e 59 46 != 0 || (entryTarget e).toNat % pageSize level != 0 ||
      !(bits (entryTarget e) 61 58 == 1 || bits (entryTarget e) 61 58 == 2 || bits (entryTarget e) 61 58 == 5)
        || (bitAt e 60 && bits (entryTarget e) 61 58 != 1) || !space10Ok s (entryTarget e) 1) = true ↔ LeafBroken s level e := by
    simp only [LeafBroken, bits_eq_field _ 61 58 4 rfl, bits_eq_field _ 59 46 14 rfl, Bool.or_eq_true, Bool.and_eq_true, bne_iff_ne,
      Bool.not_eq_true', List.mem_cons, List.not_mem_nil, or_false, or_assoc, Bool.or_eq_false_iff, beq_eq_false_iff_ne, not_or, and_assoc,
      ne_eq]
  constructor <;> intro h <;>
    simp only [readEntry, hv, hl, Bool.not_true, if_true, beq_eq_false_iff_ne.mpr hlevel, Bool.false_eq_true, if_false, hiff, h]
theorem readEntry_noTable (hl : bitAt e 62 = false) : readEntry s 0 e = .absent := by
  rw [readEntry, hl]
  split <;> rfl
theorem readEntry_next (hv : bitAt e 63 = true) (hl : bitAt e 62 = false) (hlevel : level ≠ 0) (hzero : field e 46 14 = 0)
    (hspace : field (entryTarget e) 58 4 = 1) (hok : space10Ok s (entryTarget e) 1 = true) : readEntry s level e = .next (entryTarget e) := by
  simp only [readEntry, hv, hl, bits_eq_field _ 61 58 4 rfl, bits_eq_field _ 59 46 14 rfl, hzero, hspace, hok, beq_eq_false_iff_ne.mpr hlevel]
  rfl
/-- A leaf maps a page of its level. -/
theorem leaf_size {f : W64} {size : Nat} (h : walkLevel s level table va = .leaf f size) : size = pageSize level := by
  cases hbad : homeBad s (entryAt level table va) 8 with
  | true =>
    rw [walkLevel_bad hbad] at h
    cases h
  | false =>
    rw [walkLevel_good hbad] at h
    generalize BitVec.ofNat 64 (leNat (hbmBytes s (entryAt level table va) 8)) = e at h
    cases hv : bitAt e 63 with
    | false =>
      rw [readEntry_absent hv] at h
      cases h
    | true =>
      cases hl : bitAt e 62 with
      | false =>
        simp only [readEntry, hv, hl, Bool.not_true, Bool.false_eq_true, if_false] at h
        split at h
        · cases h
        · split at h <;> cases h
      | true =>
        by_cases hlevel : level = 3
        · rw [hlevel, readEntry_rootLeaf hl] at h
          cases h
        · obtain ⟨hbroken, hleaf⟩ := readEntry_leaf (s := s) hv hl hlevel
          by_cases hb : LeafBroken s level e
          · rw [hbroken hb] at h
            cases h
          · rw [hleaf hb] at h
            cases h
            rfl
theorem pageSize_pos : 0 < pageSize level := by
  unfold pageSize
  split <;> decide
theorem bitAt_eq_decide (x : W64) (i : Nat) : bitAt x i = decide (x.toNat / 2 ^ i % 2 = 1) := Nat.testBit_eq_decide_div_mod_eq
/-- The two top bits of an entry: valid, and leaf. -/
theorem top_bits (e : W64) : bitAt e 63 = decide (2 ≤ field e 62 2) ∧ bitAt e 62 = decide (field e 62 2 % 2 = 1) := by
  have hlt := e.isLt
  rw [bitAt_eq_decide, bitAt_eq_decide, field]
  refine ⟨decide_eq_decide.mpr ?_, decide_eq_decide.mpr ?_⟩ <;> omega
/-- A level of a walk, by the entry that it reads (R358). -/
theorem walkLevel_outcome (level va : Nat) (table : W64) :
    let i := match level with | 3 => va / 2 ^ 39 % 512 | 2 => va / 2 ^ 30 % 512 | 1 => va / 2 ^ 21 % 512 | _ => va / 2 ^ 16 % 32
    let e := BitVec.ofNat 64 (leNat (hbmBytes s (field table 0 41 + 8 * i) 8))
    let to_ := word (2 ^ 63 + field e 0 46 * 2 ^ 16)
    let size := match level with | 0 => 2 ^ 16 | 1 => 2 ^ 21 | _ => 2 ^ 30
    let w := walkLevel s level table va
    let bad := homeBad s (field table 0 41 + 8 * i) 8
    (bad = true → w = .poisoned) ∧ (bad = false →
    (field e 63 1 = 0 → w = .absent) ∧
    (field e 62 2 = 3 → level = 3 → w = .absent) ∧
    (field e 62 2 = 3 → level < 3 → field e 46 14 = 0 → to_.toNat % size = 0 → field to_ 58 4 ∈ [1, 2, 5] →
      (field e 60 1 = 1 → field to_ 58 4 = 1) → space10Ok s to_ 1 = true → w = .leaf e size) ∧
    (field e 62 2 = 3 → level < 3 → (field e 46 14 ≠ 0 ∨ to_.toNat % size ≠ 0 ∨ field to_ 58 4 ∉ [1, 2, 5]) → w = .broken) ∧
    (field e 62 2 = 2 → level = 0 → w = .absent) ∧
    (field e 62 2 = 2 → 1 ≤ level → field e 46 14 = 0 → field to_ 58 4 = 1 → space10Ok s to_ 1 = true → w = .next to_)) := by
  intro i e to_ size w bad
  have hplace : entryAt level table va = field table 0 41 + 8 * i := by
    have hindex : tableIndex level va = i := by
      rcases level with _ | _ | _ | _ | _ <;> rfl
    rw [entryAt, hindex, bits_eq_field _ 40 0 41 rfl]
  have hto : to_ = entryTarget e := by
    rw [entryTarget, bits_eq_field _ 45 0 46 rfl]
    rfl
  have hsize : size = pageSize level := by
    rcases level with _ | _ | _ <;> rfl
  obtain ⟨hv, hl⟩ := top_bits e
  refine ⟨fun hbad => walkLevel_bad (hplace ▸ hbad), fun hgood => ?_⟩
  have hw : w = readEntry s level e := by
    have h := walkLevel_good (s := s) (level := level) (va := va) (table := table) (hplace ▸ hgood)
    rw [hplace] at h
    exact h
  rw [hw, hto, hsize]
  have hsplit : field e 63 1 = field e 62 2 / 2 := by
    have hlt := e.isLt
    simp only [field]
    omega
  refine ⟨fun h63 => ?_, fun hleaf hroot => ?_, fun hleaf hlow hzero halign hspace hcmp hok => ?_, fun hleaf hlow hbroken => ?_,
    fun htable hlast => ?_, fun htable hmore hzero hspace hok => ?_⟩
  · refine readEntry_absent (hv.trans (decide_eq_false ?_))
    omega
  · rw [hroot]
    refine readEntry_rootLeaf (hl.trans (decide_eq_true ?_))
    rw [hleaf]
  · refine (readEntry_leaf (hv.trans ?_) (hl.trans ?_) (by omega)).2 ?_
    · rw [hleaf]
      rfl
    · rw [hleaf]
      rfl
    · rintro (h | h | h | ⟨h60, hne⟩ | h)
      · exact h hzero
      · exact h halign
      · exact h hspace
      · refine hne (hcmp ?_)
        rw [bitAt_eq_decide, decide_eq_true_eq] at h60
        simpa [field] using h60
      · rw [hok] at h
        cases h
  · refine (readEntry_leaf (hv.trans ?_) (hl.trans ?_) (by omega)).1 ?_
    · rw [hleaf]
      rfl
    · rw [hleaf]
      rfl
    · exact hbroken.imp_right (Or.imp_right .inl)
  · rw [hlast]
    refine readEntry_noTable (hl.trans ?_)
    rw [htable]
    rfl
  · refine readEntry_next (hv.trans ?_) (hl.trans ?_) (by omega) hzero hspace hok
    · rw [htable]
      rfl
    · rw [htable]
      rfl
end
end
end Sys2Proof.Machine
end

