-- ==== Sys2Proof/Proofs/Translations.lean ====
section
/-! PROOF. What a request's walk leads to: the next level, its target, a park at an absent page, or a failure (13_package_memory, R358 to
R361). -/
namespace Sys2Proof.Machine
open Sys2Proof.Claims

section
variable {s t u : State} {x : XOp} {id level : Nat} {table : W64}

/-! ## The step -/

/-- The phases of a walk. -/
def isWalk (p : XPhase) : Bool := match p with | .walk _ _ => true | _ => false
theorem pageAhead_none (h : earlierOps s x = []) : pageAhead s x = [] := by rw [pageAhead, h, List.filter_nil]
theorem exec_translationWalk (hx : s.ev.x = id) (hop : opIn s id isWalk = some x) (hphase : x.phase = .walk level table)
    (hahead : earlierOps s x = []) (hgang : gangAway s x.req.cx = false) : exec .translationWalk s =
      if x.req.id ∈ s.pkg.denied then .next (failOp (undeny s x.req.id) x cPageFault) else .next (walkOn s x level table) := by
  have hop' : opIn s s.ev.x isWalk = some x := hx ▸ hop
  show execTranslationWalk s = _
  unfold execTranslationWalk
  split
  · next hnone => exact absurd (hnone.symm.trans hop') nofun
  · next y hy =>
    obtain rfl : y = x := Option.some.inj (hy.symm.trans hop')
    simp only [hgang, pageAhead_none hahead, hphase, List.contains_iff_mem, List.any_nil, List.isEmpty_nil, Bool.false_and, Bool.not_true,
      Bool.false_eq_true, if_false]

/-! ## Levels -/

theorem counted_level {va : Nat} {w : Walk} : Counted s (countWalk s w [entryAt level table va]) := counted_countWalk
/-- A level that names the next table, a leaf, nothing, or what cannot be read. -/
theorem walkOn_eq (htable : table ≠ 0) :
    let va := field x.req.addr 0 48
    let u := countWalk s (walkLevel s level table va) [entryAt level table va]
    walkOn s x level table = match walkLevel s level table va with
      | .next n => schedule (putOp u x { x with phase := .walk (level - 1) n }) (u.now + 60) .translationWalk u.ev
      | .leaf e size => walked u x e size
      | .absent => parkOrHold u x
      | .broken => failOp u x cPageFault
      | .poisoned => poisonWalk u x := by
  intro va u
  have hva : bits x.req.addr 47 0 = va := bits_eq_field _ 47 0 48 rfl
  simp only [walkOn, beq_eq_false_iff_ne.mpr htable, hva, Bool.false_eq_true, if_false]
  rfl

/-! ## A leaf -/

section
variable {va size : Nat} {e : W64}

/-- The entry that a fill caches. -/
def filledEntry (q va size : Nat) (leaf : W64) : TlbEntry where
  queue := q
  va := va / size * size
  size := size
  leaf := leaf
theorem tlbHit_filled {q k : Nat} (hsize : 0 < size) (hempty : (coreOf s k).tlb = []) :
    tlbHit (coreOf (tlbFill s k q va size e) k).tlb q va = some (filledEntry q va size e) := by
  have htlb : (coreOf (tlbFill s k q va size e) k).tlb =
      tlbAdd (coreOf s k).tlb 96 (Config.choice s.fresh) (fun _ => 0) (filledEntry q va size e) := by
    show (coreOf (setCore (takeFresh s).2 k _) k).tlb = _
    rw [coreOf_setCore_same]
    rfl
  rw [hempty] at htlb
  have hrow : (coreOf (tlbFill s k q va size e) k).tlb = [filledEntry q va size e] := htlb
  have hin : va / size * size ≤ va ∧ va < va / size * size + size := ⟨Nat.div_mul_le_self va size, Nat.lt_div_mul_add hsize⟩
  rw [tlbHit, hrow, List.find?_cons_of_pos]
  dsimp only [filledEntry]
  simpa using hin
theorem tlbLookup_of_core {k q : Nat} {d : TlbEntry} (htlb : (coreOf t k).tlb = (coreOf s k).tlb)
    (h : tlbHit (coreOf s k).tlb q va = some d) : tlbLookup t k q va = some d := by
  rw [tlbLookup, htlb, h]
theorem sameMemory_dropAmoLine {k : Nat} {r : Request} {pa : W64} : SameMemory s (dropAmoLine s k r pa) := by
  unfold dropAmoLine
  split
  · exact sameMemory_setDie rfl
  · exact sameMemory_refl s
theorem dropAmoLine_rest {k : Nat} {r : Request} {pa : W64} : ∃ die, dropAmoLine s k r pa = { s with die := die } := by
  unfold dropAmoLine
  split
  · exact ⟨_, rfl⟩
  · exact ⟨s.die, rfl⟩
/-- The access of a request, told its target. -/
def targeted (t : State) (r : Request) (pa : W64) : State :=
  if bits r.addr 63 62 == 1 then modAccess t r.cx r.id (fun a => { a with targets := [physTarget pa] }) else t
theorem passed_targeted {r : Request} {pa : W64} : Passed t (targeted t r pa) := by
  unfold targeted
  split
  · exact passed_modAccess
  · exact passed_refl t
/-- An operation at the Reservoir of its die. -/
def atReservoir (x : XOp) (pa : W64) (cmp : Bool) : XOp where
  req := x.req
  pa := pa
  cmp := cmp
  phase := .reservoir
  port := false
  copyDone := false
  engine := false
  mark := 0
theorem enterPhysical_hbm {pa : W64} {cmp : Bool} (hspace : field pa 58 4 = 1) : enterPhysical t x.req.core x.req pa cmp false =
    addXOp (dropAmoLine (targeted t x.req pa) x.req.core x.req pa) (atReservoir x pa cmp) .reservoirAccess 2 := by
  simp only [enterPhysical, bits_eq_field pa 61 58 4 rfl, hspace]
  rfl
theorem walked_hbm {pa : W64} {cmp : Bool} (hacc : leafAccess e (field x.req.addr 0 48) size (!readsOnly x.req) = .ok pa cmp)
    (hspace : field pa 58 4 = 1) : walked u x e size = addXOp (dropAmoLine (targeted (released
      (tlbFill u x.req.core x.req.queue (field x.req.addr 0 48) size e) x) x.req pa) x.req.core x.req pa)
      (atReservoir x pa cmp) .reservoirAccess 2 := by
  rw [← enterPhysical_hbm hspace]
  simp only [walked, bits_eq_field _ 47 0 48 rfl, hacc]
  rfl
/-- A request whose leaf names a page of HBM goes on to its die's Reservoir, and the leaf is cached. -/
theorem walked_outcome {pa : W64} {cmp : Bool} (hsize : 0 < size)
    (hacc : leafAccess e (field x.req.addr 0 48) size (!readsOnly x.req) = .ok pa cmp) (hspace : field pa 58 4 = 1) :
    let t := walked u x e size
    SameMemory u t ∧ Later t .reservoirAccess x.req.id 0 (u.now + 2) ∧ atReservoir x pa cmp ∈ t.xops ∧
      ((coreOf u x.req.core).tlb = [] → ∃ d, tlbLookup t x.req.core x.req.queue (field x.req.addr 0 48) = some d ∧ d.leaf = e) := by
  intro t
  have ht : t = _ := walked_hbm hacc hspace
  have hfilled : Translated u (tlbFill u x.req.core x.req.queue (field x.req.addr 0 48) size e) := translated_tlbFill
  have hpassed : Passed (tlbFill u x.req.core x.req.queue (field x.req.addr 0 48) size e) (targeted (released
      (tlbFill u x.req.core x.req.queue (field x.req.addr 0 48) size e) x) x.req pa) := passed_trans passed_released passed_targeted
  have hlookup : (coreOf u x.req.core).tlb = [] → ∃ d, tlbHit (coreOf (tlbFill u x.req.core x.req.queue (field x.req.addr 0 48) size e)
      x.req.core).tlb x.req.queue (field x.req.addr 0 48) = some d ∧ d.leaf = e := fun hempty => ⟨_, tlbHit_filled hsize hempty, rfl⟩
  generalize targeted (released (tlbFill u x.req.core x.req.queue (field x.req.addr 0 48) size e) x) x.req pa = v at *
  generalize tlbFill u x.req.core x.req.queue (field x.req.addr 0 48) size e = f at *
  have hnow : v.now = u.now := by
    obtain ⟨_, _, _, _, _, _, rfl⟩ := hpassed.rest
    obtain ⟨_, _, _, _, _, _, rfl⟩ := hfilled.rest
    rfl
  obtain ⟨dies, hdrop⟩ := dropAmoLine_rest (s := v) (k := x.req.core) (r := x.req) (pa := pa)
  have hdropped : SameMemory v (dropAmoLine v x.req.core x.req pa) := sameMemory_dropAmoLine
  rw [ht]
  refine ⟨sameMemory_trans (sameMemory_trans (sameMemory_translated hfilled) (sameMemory_passed hpassed)) (sameMemory_trans hdropped
    (sameMemory_of rfl rfl rfl rfl rfl)), ?_, List.mem_append_right _ (List.mem_singleton_self _), fun hempty => ?_⟩
  · rw [← hnow, show v.now = (dropAmoLine v x.req.core x.req pa).now by rw [hdrop]]
    exact later_schedule
  · obtain ⟨d, hhit, hleaf⟩ := hlookup hempty
    refine ⟨d, tlbLookup_of_core ?_ hhit, hleaf⟩
    rw [hdrop]
    exact tlb_passed hpassed x.req.core
end

/-! ## An absent page -/

theorem sameMemory_pagesOnly (h : PagesOnly s t) : SameMemory s t := by
  obtain ⟨_, _, _, _, _, _, rfl⟩ := h
  exact sameMemory_of rfl rfl rfl rfl rfl

/-- The state in which a parked request stands in its cluster's fault buffer. -/
def inBuffer (s : State) (x : XOp) : State :=
  let ck := clusterKey x.req.core
  let s := setCluster s ck { clusterOf s ck with parked := (clusterOf s ck).parked ++ [x.req.id] }
  let y := { x with phase := .parked s.now, port := false }
  { s with xops := if s.xops.contains x then swapOp x y s.xops else s.xops ++ [y] }
/-- The same, its command port free. -/
def parkedAt (s : State) (x : XOp) : State := if x.port then freeCp (inBuffer s x) x.req.cx else inBuffer s x
theorem parkOp_eq : parkOp s x = schedule (requestPage (parkedAt s x) x.req.queue (field x.req.addr 0 48) x.req.id)
    ((requestPage (parkedAt s x) x.req.queue (field x.req.addr 0 48) x.req.id).now +
      faultTicks (requestPage (parkedAt s x) x.req.queue (field x.req.addr 0 48) x.req.id)) .pfDeadline
    (evArgs (regionOfCtx (requestPage (parkedAt s x) x.req.queue (field x.req.addr 0 48) x.req.id) x.req.cx) 0 0) := by
  rw [← bits_eq_field x.req.addr 47 0 48 rfl]
  rfl
theorem sameMemory_inBuffer : SameMemory s (inBuffer s x) := sameMemory_of rfl rfl rfl rfl rfl
theorem modCtx_rest {addr : Nat} {f : Ctx → Ctx} : ∃ core region, modCtx s addr f = { s with core := core, region := region } := by
  unfold modCtx
  split
  · exact ⟨_, s.region, rfl⟩
  · exact ⟨s.core, _, rfl⟩
theorem parkedAt_rest : ∃ core region, parkedAt s x = { inBuffer s x with core := core, region := region } := by
  unfold parkedAt
  split
  · exact modCtx_rest
  · exact ⟨s.core, s.region, rfl⟩
theorem sameMemory_parkedAt : SameMemory s (parkedAt s x) := by
  unfold parkedAt
  split
  · exact sameMemory_trans sameMemory_inBuffer (sameMemory_passed passed_modCtx)
  · exact sameMemory_inBuffer
theorem mem_inBuffer (hx : x ∈ s.xops) : { x with phase := .parked s.now, port := false } ∈ (inBuffer s x).xops := by
  show _ ∈ if s.xops.contains x then _ else _
  rw [List.contains_iff_mem.mpr hx]
  exact mem_swapOp hx
theorem parked_inBuffer :
    (clusterOf (inBuffer s x) (clusterKey x.req.core)).parked = (clusterOf s (clusterKey x.req.core)).parked ++ [x.req.id] := by
  show (clusterOf (setCluster s _ _) _).parked = _
  rw [clusterOf_setCluster_same]
theorem parkOp_outcome (hx : x ∈ s.xops) :
    let t := parkOp s x
    SameMemory s t ∧ { x with phase := .parked s.now, port := false } ∈ t.xops ∧
    (clusterOf t (clusterKey x.req.core)).parked = (clusterOf s (clusterKey x.req.core)).parked ++ [x.req.id] ∧
    Awaits t x.req.queue (field x.req.addr 0 48 / 65536) x.req.id := by
  obtain ⟨hpages, hawaits⟩ := requestPage_awaits (s := parkedAt s x) x.req.queue (field x.req.addr 0 48) x.req.id
  obtain ⟨core, region, hparked⟩ := parkedAt_rest (s := s) (x := x)
  have hmem := sameMemory_trans (sameMemory_parkedAt (s := s) (x := x)) (sameMemory_pagesOnly hpages)
  intro t
  have ht : t = _ := parkOp_eq
  generalize requestPage (parkedAt s x) x.req.queue (field x.req.addr 0 48) x.req.id = v at *
  obtain ⟨_, _, _, _, _, _, hv⟩ := hpages
  rw [ht]
  refine ⟨sameMemory_trans hmem sameMemory_schedule, ?_, ?_, hawaits⟩
  · show _ ∈ v.xops
    rw [hv, hparked]
    exact mem_inBuffer hx
  · show (clusterOf v _).parked = _
    rw [hv, hparked]
    exact parked_inBuffer
/-- A request at an absent page parks. -/
theorem parkOrHold_outcome (hx : x ∈ s.xops) (hroom : (clusterOf s (clusterKey x.req.core)).parked.length < 64) :
    let t := parkOrHold s x
    SameMemory s t ∧ { x with phase := .parked s.now, port := false } ∈ t.xops ∧
    (clusterOf t (clusterKey x.req.core)).parked = (clusterOf s (clusterKey x.req.core)).parked ++ [x.req.id] ∧
    Awaits t x.req.queue (field x.req.addr 0 48 / 65536) x.req.id := by
  intro t
  have ht : t = if x.port then poke (parkOp s x) x.req.cx else parkOp s x := if_pos hroom
  obtain ⟨hmem, hop, hparked, hawaits⟩ := parkOp_outcome hx
  rw [ht]
  split
  · obtain ⟨_, hpoke⟩ := agendaOnly_poke (s := parkOp s x) (addr := x.req.cx)
    rw [hpoke]
    exact ⟨sameMemory_trans hmem (sameMemory_of rfl rfl rfl rfl rfl), hop, hparked, hawaits⟩
  · exact ⟨hmem, hop, hparked, hawaits⟩

/-! ## Every outcome of a walk -/

theorem translationWalk_outcome (hx : s.ev.x = id) (hphase : x.phase = .walk level table) (hahead : earlierOps s x = [])
    (hmem : x ∈ s.xops) (htable : table ≠ 0) (hop : opIn s id isWalk = some x) (hgang : gangAway s x.req.cx = false) :
    let va := field x.req.addr 0 48
    (x.req.id ∈ s.pkg.denied → Runs .translationWalk s fun t => SameMemory s t ∧ FailsTo s t x.req 0x0D) ∧ (x.req.id ∉ s.pkg.denied →
    let goes := fun (t : State) (p : XPhase) => { x with phase := p } ∈ t.xops
    (∀ n, walkLevel s level table va = .next n → Runs .translationWalk s fun t => SameMemory s t ∧
      goes t (.walk (level - 1) n) ∧ LaterOf t .translationWalk id s.ev.y s.ev.z) ∧
    (∀ e size pa cmp, walkLevel s level table va = .leaf e size → leafAccess e va size (!readsOnly x.req) = .ok pa cmp →
      field pa 58 4 = 1 → Runs .translationWalk s fun t => SameMemory s t ∧ Later t .reservoirAccess x.req.id 0 (s.now + 2) ∧
        (∃ y ∈ t.xops, y.req = x.req ∧ y.pa = pa ∧ y.cmp = cmp ∧ y.phase = .reservoir ∧ y.port = false) ∧
        ((coreOf s x.req.core).tlb = [] → ∃ d, tlbLookup t x.req.core x.req.queue va = some d ∧ d.leaf = e)) ∧
    (walkLevel s level table va = .broken → Runs .translationWalk s fun t => SameMemory s t ∧ FailsTo s t x.req 0x0D) ∧
    (walkLevel s level table va = .poisoned → Runs .translationWalk s fun t => SameMemory s t ∧ t.msgs = s.msgs ∧
      (regionOf t (regionOfCtx s x.req.cx)).error = some 0x07) ∧
    (walkLevel s level table va = .absent → (clusterOf s (clusterKey x.req.core)).parked.length < 64 →
      Runs .translationWalk s fun t => SameMemory s t ∧ { x with phase := .parked s.now, port := false } ∈ t.xops ∧
        (clusterOf t (clusterKey x.req.core)).parked = (clusterOf s (clusterKey x.req.core)).parked ++ [x.req.id] ∧
        Awaits t x.req.queue (va / 65536) x.req.id)) := by
  intro va
  have hrun := exec_translationWalk hx hop hphase hahead hgang
  refine ⟨fun hdenied => ?_, fun hallowed => ?_⟩
  · rw [if_pos hdenied] at hrun
    exact ⟨_, hrun, fails_failOp (t := undeny s x.req.id) (sameMemory_of rfl rfl rfl rfl rfl) rfl⟩
  · rw [if_neg hallowed, walkOn_eq htable] at hrun
    have hcount : Counted s (countWalk s (walkLevel s level table va) [entryAt level table va]) := counted_level
    have hsame := sameMemory_counted hcount
    have hmap := mapView_counted hcount
    generalize countWalk s (walkLevel s level table va) [entryAt level table va] = u at *
    obtain ⟨_, _, _, hu⟩ := hcount
    refine ⟨fun n hw => ?_, fun e size pa cmp hw hacc hspace => ?_, fun hw => ?_, fun hw => ?_, fun hw hroom => ?_⟩
    · rw [hw] at hrun
      refine ⟨_, hrun, sameMemory_trans hsame (sameMemory_of rfl rfl rfl rfl rfl), ?_, ?_⟩
      · exact mem_putOp (hu ▸ hmem)
      · rw [← hx, hu]
        exact ⟨_, List.mem_append_right _ (List.mem_singleton_self _), rfl, rfl, rfl, rfl⟩
    · rw [hw] at hrun
      obtain ⟨hwalk, hlater, hop, hlookup⟩ := walked_outcome (u := u) (leaf_size hw ▸ pageSize_pos) hacc hspace
      refine ⟨_, hrun, sameMemory_trans hsame hwalk, ?_, ⟨_, hop, rfl, rfl, rfl, rfl, rfl⟩, fun hempty => hlookup ?_⟩
      · rw [show s.now = u.now by rw [hu]]
        exact hlater
      · rw [hu]
        exact hempty
    · rw [hw] at hrun
      exact ⟨_, hrun, fails_failOp hsame hmap⟩
    · rw [hw] at hrun
      have hregion : regionOfCtx (dropOp u x) x.req.cx = regionOfCtx s x.req.cx := by
        rw [hu]
        rfl
      refine ⟨_, hrun, sameMemory_trans hsame (sameMemory_passed (passed_trans passed_dropOp passed_consumeError)), ?_, ?_⟩
      · rw [hu]
        rfl
      · rw [← hregion]
        exact error_consumeError
    · rw [hw] at hrun
      have hcluster : clusterOf u (clusterKey x.req.core) = clusterOf s (clusterKey x.req.core) := by
        rw [hu]
        rfl
      obtain ⟨hpark, hrow, hparked, hawaits⟩ := parkOrHold_outcome (s := u) (x := x) (hu ▸ hmem) (by rwa [hcluster])
      refine ⟨_, hrun, sameMemory_trans hsame hpark, ?_, ?_, hawaits⟩
      · rwa [show s.now = u.now by rw [hu]]
      · rwa [hcluster] at hparked
end
end Sys2Proof.Machine
end

