-- ==== Sys2Proof/Proofs/DieAccess.lean ====
section
/-! PROOF. What reads and writes see of a die's copy: lines mended, fills, writes in the copy (09_memory_model, R266, R267; 10_die, R290). -/
namespace Sys2Proof.Machine
open Sys2Proof.Claims

section
variable {s t u : State} {die : Nat}

/-! ## The view of a byte -/

theorem viewByte_of_cacheLine {a : Nat} (hline : cacheLine t die (a / 64) = cacheLine s die (a / 64)) (hhome : hbmByte t a = hbmByte s a) :
    viewByte t die a = viewByte s die a := by rw [viewByte, hline, hhome, viewByte]
theorem viewByte_absent {a : Nat} (h : cacheLine s die (a / 64) = none) : viewByte s die a = hbmByte s a := by rw [viewByte, h]
theorem viewByte_present {a : Nat} {c : CacheLine} (h : cacheLine s die (a / 64) = some c) :
    viewByte s die a = c.data.extractLsb' (8 * (a % 64)) 8 := by rw [viewByte, h]
/-- A line read from home holds home's bytes. -/
theorem extract_hbmBytes {a : Nat} : (ofBytes (hbmBytes s (64 * (a / 64)) 64)).extractLsb' (8 * (a % 64)) 8 = hbmByte s a := by
  have hbyte := ofBytes_byte (fun i => hbmByte s (64 * (a / 64) + i)) 64 (i := a % 64) (by omega)
  rw [if_pos (by omega), show 64 * (a / 64) + a % 64 = a by omega] at hbyte
  refine BitVec.eq_of_toNat_eq ?_
  rw [← hbyte, BitVec.extractLsb'_toNat, Nat.shiftRight_eq_div_pow, show (256 : Nat) = 2 ^ 8 from rfl, ← pow_mul]
  rfl
theorem viewByte_putLine_home {a : Nat} {l : CacheLine} (hl : l.line = a / 64) (hdata : l.data = ofBytes (hbmBytes s (64 * (a / 64)) 64)) :
    viewByte (putLine t die l) die a = hbmByte s a := by
  rw [viewByte_present (c := l) (hl ▸ cacheLine_putLine_same), hdata, extract_hbmBytes]
theorem viewByte_fillLine_same {a : Nat} : viewByte (fillLine s die (a / 64)) die a = viewByte s die a := by
  by_cases hp : (dieOf s die).p = 32 ∨ (cacheLine s die (a / 64)).isSome = true
  · rw [fillLine_present hp]
  · rw [not_or, Option.not_isSome_iff_eq_none] at hp
    obtain ⟨u, hu, -, heq⟩ := fillLine_absent hp.1 hp.2
    rw [heq, viewByte_absent hp.2, ← copied_hbmByte hu a]
    exact viewByte_putLine_home rfl rfl
theorem viewByte_fillLine {a l : Nat} (h : l = a / 64 ∨ cacheSet (dieOf s die) (a / 64) ≠ cacheSet (dieOf s die) l) :
    viewByte (fillLine s die l) die a = viewByte s die a := by
  obtain rfl | h := h
  · exact viewByte_fillLine_same
  · exact viewByte_of_cacheLine (cacheLine_fillLine_other h) (copied_hbmByte copied_fillLine a)

/-! ## Lines mended (R290) -/

theorem cache_countDie {n k : Nat} : (dieOf (countDie s die n k) die).cache = (dieOf s die).cache := by rw [dieOf_countDie]
theorem copied_mendLine {l : Nat} : Copied s (mendLine s die l) die := by
  unfold mendLine
  split
  · dsimp only
    split
    · exact copied_trans (copied_trans (copied_counted counted_countRead) copied_countDie) copied_putLine
    · split
      · exact copied_trans copied_countDie copied_putLine
      · exact copied_refl s die
  · exact copied_refl s die
theorem copied_mendLines {a n : Nat} : Copied s (mendLines s die a n) die := copied_foldl (fun _ _ => copied_mendLine) _ _
theorem cache_countRead {l : Nat} : (dieOf (countRead s l) die).cache = (dieOf s die).cache := by
  obtain ⟨_, _, _, h⟩ := counted_countRead (s := s) (line := l)
  rw [h]
  rfl
theorem isSome_putLine {c : CacheLine} {m : Nat} (hc : (cacheLine s die c.line).isSome = true)
    (hcache : (dieOf t die).cache = (dieOf s die).cache) : (cacheLine (putLine t die c) die m).isSome = (cacheLine s die m).isSome := by
  by_cases hm : m = c.line
  · rw [hm, cacheLine_putLine_same, hc]
    rfl
  · rw [cacheLine_putLine_other hm, cacheLine_of_cache hcache]
/-- Mending a line drops none and brings none. -/
theorem isSome_mendLine {l m : Nat} : (cacheLine (mendLine s die l) die m).isSome = (cacheLine s die m).isSome := by
  unfold mendLine
  split
  · next c hc =>
    have hline : (cacheLine s die c.line).isSome = true := by rw [line_of_cacheLine hc, hc]; rfl
    dsimp only
    split
    · exact isSome_putLine (c := { c with data := _, poison := _, ue := false, corr := false }) hline (cache_countDie.trans cache_countRead)
    · split
      · exact isSome_putLine (c := { c with corr := false }) hline cache_countDie
      · rfl
  · rfl
theorem isSome_mendLines {a n m : Nat} : (cacheLine (mendLines s die a n) die m).isSome = (cacheLine s die m).isSome :=
  foldl_keeps (g := fun s => (cacheLine s die m).isSome) (fun _ _ => isSome_mendLine) _ s
/-- A line with an uncorrectable error and no write on its way home is read again from home. -/
theorem mendLine_uncorrectable {line i : Nat} {c : CacheLine} (hc : cacheLine s die line = some c) (hue : c.ue = true) (hout : c.out = [])
    (hi : i < 64) : viewByte (mendLine s die line) die (64 * line + i) = hbmByte s (64 * line + i) ∧
      (vget (dieOf (mendLine s die line) die).cnt 5 0).toNat = more (vget (dieOf s die).cnt 5 0) 1 := by
  have hcopied : Copied s (countDie (countRead s (line / 2)) die 5 1) die :=
    copied_trans (copied_counted counted_countRead) copied_countDie
  have hcnt : (dieOf (countRead s (line / 2)) die).cnt = (dieOf s die).cnt := by
    obtain ⟨_, _, _, h⟩ := counted_countRead (s := s) (line := line / 2)
    rw [h]
    rfl
  have hcount : (vget (dieOf (countDie (countRead s (line / 2)) die 5 1) die).cnt 5 0).toNat = more (vget (dieOf s die).cnt 5 0) 1 := by
    rw [cnt_countDie (by omega), hcnt]
  have hnone (l : List XOp) : l.filter (fun o => c.out.contains o.mark) = [] := by
    rw [hout]
    exact List.filter_eq_nil_iff.mpr fun _ _ => by simp
  have hmend : mendLine s die line = putLine (countDie (countRead s (line / 2)) die 5 1) die { c with
      data := ofBytes (hbmBytes (countDie (countRead s (line / 2)) die 5 1) (64 * line) 64),
      poison := homeBad (countDie (countRead s (line / 2)) die 5 1) (64 * line) 64, ue := false, corr := false } := by
    simp only [mendLine, hc, hue, hnone, if_true]
    rfl
  rw [hmend]
  generalize countDie (countRead s (line / 2)) die 5 1 = u at *
  have hline : (64 * line + i) / 64 = line := by omega
  refine ⟨?_, ?_⟩
  · rw [← copied_hbmByte hcopied]
    exact viewByte_putLine_home ((line_of_cacheLine hc).trans hline.symm) (by rw [hline])
  · rw [putLine, dieOf_setDie_same]
    exact hcount

/-! ## Reads through a copy -/

/-- One line of a read: counted as a hit or a miss, and filled on a miss. -/
def readLine (die : Nat) (s : State) (l : Nat) : State :=
  if (dieOf s die).p == 32 then countRead s (l / 2)
  else if (cacheLine s die l).isSome then countDie s die 2 1 else fillLine (countDie s die 3 1) die l
theorem copied_readLine {l : Nat} : Copied s (readLine die s l) die := by
  unfold readLine
  split
  · exact copied_counted counted_countRead
  · split
    · exact copied_countDie
    · exact copied_trans copied_countDie copied_fillLine
theorem viewByte_countDie {a n k : Nat} : viewByte (countDie s die n k) die a = viewByte s die a :=
  viewByte_of_cacheLine (cacheLine_of_cache cache_countDie) rfl
theorem viewByte_readLine {a l : Nat}
    (h : (dieOf s die).p = 32 ∨ l = a / 64 ∨ cacheSet (dieOf s die) (a / 64) ≠ cacheSet (dieOf s die) l) :
    viewByte (readLine die s l) die a = viewByte s die a := by
  unfold readLine
  split
  · exact viewByte_of_cacheLine (cacheLine_of_cache cache_countRead) (copied_hbmByte (copied_counted (die := die) counted_countRead) a)
  · next hp =>
    split
    · exact viewByte_countDie
    · have hset (m : Nat) : cacheSet (dieOf (countDie s die 3 1) die) m = cacheSet (dieOf s die) m := cacheSet_of_p (copied_p copied_countDie) m
      rw [viewByte_fillLine (by rw [hset, hset]; exact h.resolve_left (by simpa using hp)), viewByte_countDie]
theorem viewByte_readLines {a : Nat} {ls : List Nat}
    (h : ∀ l ∈ ls, (dieOf s die).p = 32 ∨ l = a / 64 ∨ cacheSet (dieOf s die) (a / 64) ≠ cacheSet (dieOf s die) l) :
    viewByte (ls.foldl (readLine die) s) die a = viewByte s die a := by
  induction ls generalizing s with
  | nil => rfl
  | cons l ls ih =>
    have hcopied := copied_readLine (s := s) (die := die) (l := l)
    have hset (m : Nat) : cacheSet (dieOf (readLine die s l) die) m = cacheSet (dieOf s die) m := cacheSet_of_p (copied_p hcopied) m
    refine (ih fun m hm => ?_).trans (viewByte_readLine (h l List.mem_cons_self))
    rw [copied_p hcopied, hset, hset]
    exact h m (List.mem_cons_of_mem _ hm)
/-- A read of lines that the copy holds fills nothing. -/
theorem viewByte_readHits {a : Nat} {ls : List Nat} (hp : (dieOf s die).p ≠ 32) (h : ∀ l ∈ ls, (cacheLine s die l).isSome = true) :
    viewByte (ls.foldl (readLine die) s) die a = viewByte s die a := by
  induction ls generalizing s with
  | nil => rfl
  | cons l ls ih =>
    have hhit : readLine die s l = countDie s die 2 1 := by
      rw [readLine, h l List.mem_cons_self, if_neg (by simpa using hp)]
      rfl
    rw [List.foldl_cons, hhit]
    refine (ih ?_ fun m hm => ?_).trans viewByte_countDie
    · rwa [copied_p copied_countDie]
    · rw [cacheLine_of_cache cache_countDie]
      exact h m (List.mem_cons_of_mem _ hm)
theorem dieRead_eq (s : State) (die a n : Nat) : dieRead s die a n =
    ((List.range n).map (fun i => viewByte ((linesOf64 a n).foldl (readLine die) s) die (a + i)), (linesOf64 a n).foldl (readLine die) s) := rfl
theorem copied_dieRead {a n : Nat} : Copied s (dieRead s die a n).2 die := copied_foldl (fun _ _ => copied_readLine) _ _
theorem dieRead_hits {a n : Nat} (hp : (dieOf s die).p ≠ 32) (h : ∀ l ∈ linesOf64 a n, (cacheLine s die l).isSome = true) :
    (dieRead s die a n).1 = (List.range n).map (fun i => viewByte s die (a + i)) :=
  List.map_congr_left fun _ _ => viewByte_readHits hp h
theorem dieRead_near {a n : Nat} (hn : n ≤ 2 ^ 18) : (dieRead s die a n).1 = (List.range n).map (fun i => viewByte s die (a + i)) := by
  refine List.map_congr_left fun i hi => viewByte_readLines fun l hl => ?_
  have hi := List.mem_range.mp hi
  have hmine : (a + i) / 64 ∈ linesOf64 a n := by
    rw [mem_linesOf64]
    omega
  by_cases hp : (dieOf s die).p = 32
  · exact .inl hp
  · by_cases hl' : l = (a + i) / 64
    · exact .inr (.inl hl')
    · exact .inr (.inr (cacheSet_ne hp hl' (mem_linesOf64_near hn hl hmine)))
end
end Sys2Proof.Machine
end

