-- ==== Sys2Proof/Proofs/DieWrites.lean ====
section
/-! PROOF. Writes performed in a die's copy (09_memory_model, R266, R267). -/
namespace Sys2Proof.Machine
open Sys2Proof.Claims

section
variable {s t u : State} {die : Nat}

/-! ## Bytes of a line replaced -/

theorem extract_putBits {n : Nat} {v : BitVec n} {j k x : Nat} (hj : 8 * j + 8 ≤ n) (hk : 8 * k + 8 ≤ n) :
    (putBits v (8 * j + 7) (8 * j) x).extractLsb' (8 * k) 8 = if k = j then BitVec.ofNat 8 x else v.extractLsb' (8 * k) 8 := by
  refine BitVec.eq_of_getLsbD_eq fun i hi => ?_
  rw [BitVec.getLsbD_extractLsb', putBits_getLsbD v (by omega) (by omega)]
  by_cases hkj : k = j
  · subst hkj
    rw [if_pos rfl, if_pos (by omega), Nat.add_sub_cancel_left, BitVec.getLsbD_ofNat]
  · rw [if_neg hkj, if_neg (by omega), BitVec.getLsbD_extractLsb']
/-- One byte put over its place in a line. -/
def putByte (v : V512) (p : Nat × Byte) : V512 := putBits v (8 * (p.1 % 64) + 7) (8 * (p.1 % 64)) p.2.toNat
theorem extract_putByte {v : V512} {p : Nat × Byte} {k : Nat} (hk : k < 64) :
    (putByte v p).extractLsb' (8 * k) 8 = if k = p.1 % 64 then p.2 else v.extractLsb' (8 * k) 8 := by
  rw [putByte, extract_putBits (by omega) (by omega), BitVec.ofNat_toNat, BitVec.setWidth_eq]
theorem extract_putBytes {k : Nat} (hk : k < 64) {x : Byte} (ps : List (Nat × Byte)) (hsame : ∀ p ∈ ps, k = p.1 % 64 → p.2 = x) (v : V512)
    (h : v.extractLsb' (8 * k) 8 = x ∨ ∃ p ∈ ps, k = p.1 % 64) : (ps.foldl putByte v).extractLsb' (8 * k) 8 = x := by
  induction ps generalizing v with
  | nil => simpa using h
  | cons p ps ih =>
    refine ih (fun q hq => hsame q (List.mem_cons_of_mem _ hq)) _ ?_
    rw [extract_putByte hk]
    by_cases hp : k = p.1 % 64
    · exact .inl (by rw [if_pos hp, hsame p List.mem_cons_self hp])
    · rw [if_neg hp]
      refine h.imp_right fun ⟨q, hq, hkq⟩ => ?_
      obtain rfl | hq := List.mem_cons.mp hq
      · exact absurd hkq hp
      · exact ⟨q, hq, hkq⟩

/-! ## One line of a write -/

/-- A line of a copy with bytes put over it, their write on its way home. -/
def overLine (c : CacheLine) (mine : List (Nat × Byte)) (mark : Nat) : CacheLine :=
  { c with data := mine.foldl putByte c.data, out := c.out ++ [mark], poison := c.poison && mine.length != 64 }
/-- One line of a write in a copy: mended, filled when absent, its bytes put over it. -/
def writeLine (die : Nat) (ps : List (Nat × Byte)) (mark : Nat) (s : State) (l : Nat) : State :=
  let s := fillLine (mendLine s die l) die l
  match cacheLine s die l with
  | some c => putLine s die (overLine c (ps.filter (fun p => p.1 / 64 == l)) mark)
  | none => s
theorem dieWrite_eq {a mark : Nat} {bs : List Byte} (hp : (dieOf s die).p ≠ 32) :
    dieWrite s die a bs mark = (linesOf64 a bs.length).foldl (writeLine die (placed a bs) mark) s := if_neg (by simpa using hp)

section
variable {ps : List (Nat × Byte)} {mark l : Nat}

theorem copied_writeLine : Copied s (writeLine die ps mark s l) die := by
  have hready : Copied s (fillLine (mendLine s die l) die l) die := copied_trans copied_mendLine copied_fillLine
  unfold writeLine
  dsimp only
  split
  · exact copied_trans hready copied_putLine
  · exact hready
theorem copied_dieWrite {a : Nat} {bs : List Byte} : Copied s (dieWrite s die a bs mark) die := by
  by_cases hp : (dieOf s die).p = 32
  · rw [dieWrite, hp]
    exact copied_refl s die
  · rw [dieWrite_eq hp]
    exact copied_foldl (fun _ _ => copied_writeLine) _ _
theorem cacheLine_mendLine_other {m : Nat} (h : m ≠ l) : cacheLine (mendLine s die l) die m = cacheLine s die m := by
  unfold mendLine
  split
  · next c hc =>
    have hne : m ≠ c.line := line_of_cacheLine hc ▸ h
    dsimp only
    split
    · exact (cacheLine_putLine_other (by exact hne)).trans (cacheLine_of_cache (cache_countDie.trans cache_countRead))
    · split
      · exact (cacheLine_putLine_other (by exact hne)).trans (cacheLine_of_cache cache_countDie)
      · rfl
  · rfl
theorem viewByte_putLine {a : Nat} {l : CacheLine} (hl : l.line = a / 64) :
    viewByte (putLine t die l) die a = l.data.extractLsb' (8 * (a % 64)) 8 := viewByte_present (hl ▸ cacheLine_putLine_same)
/-- The bytes that a write puts over a line are in the copy's view at once. -/
theorem viewByte_writeLine_same {b : Nat} {x : Byte} (hp : (dieOf s die).p ≠ 32) (hin : (b, x) ∈ ps) (hsame : ∀ p ∈ ps, p.1 = b → p.2 = x) :
    viewByte (writeLine die ps mark s (b / 64)) die b = x := by
  have hp' : (dieOf (mendLine s die (b / 64)) die).p ≠ 32 := by rwa [copied_p copied_mendLine]
  obtain ⟨c, hc⟩ := Option.isSome_iff_exists.mp (cacheLine_fillLine_same (l := b / 64) hp')
  have hstep : writeLine die ps mark s (b / 64) = putLine (fillLine (mendLine s die (b / 64)) die (b / 64)) die
      (overLine c (ps.filter (fun p => p.1 / 64 == b / 64)) mark) := by
    simp only [writeLine, hc]
  have hfound : c.line = b / 64 := line_of_cacheLine hc
  have hline : (overLine c (ps.filter (fun p => p.1 / 64 == b / 64)) mark).line = b / 64 := hfound
  rw [hstep, viewByte_putLine hline]
  refine extract_putBytes (by omega) _ (fun p hp hk => ?_) _ (.inr ⟨(b, x), List.mem_filter.mpr ⟨hin, by simp⟩, rfl⟩)
  obtain ⟨hmem, hl⟩ := List.mem_filter.mp hp
  refine hsame p hmem ?_
  have hl : p.1 / 64 = b / 64 := by simpa using hl
  omega
theorem viewByte_writeLine_other {b : Nat} (hl : b / 64 ≠ l) (hset : cacheSet (dieOf s die) (b / 64) ≠ cacheSet (dieOf s die) l) :
    viewByte (writeLine die ps mark s l) die b = viewByte s die b := by
  have hset' : cacheSet (dieOf (mendLine s die l) die) (b / 64) ≠ cacheSet (dieOf (mendLine s die l) die) l := by
    rwa [cacheSet_of_p (copied_p copied_mendLine), cacheSet_of_p (copied_p copied_mendLine)]
  refine viewByte_of_cacheLine ?_ (copied_hbmByte copied_writeLine b)
  have hready : cacheLine (fillLine (mendLine s die l) die l) die (b / 64) = cacheLine s die (b / 64) :=
    (cacheLine_fillLine_other hset').trans (cacheLine_mendLine_other hl)
  unfold writeLine
  dsimp only
  split
  · next c hc =>
    have hline : c.line = l := line_of_cacheLine hc
    exact (cacheLine_putLine_other (l := overLine c _ mark) fun h => hl (h.trans hline)).trans hready
  · exact hready
theorem viewByte_writeLines {b : Nat} {x : Byte} {ls : List Nat} (hp : (dieOf s die).p ≠ 32) (hin : (b, x) ∈ ps)
    (hsame : ∀ p ∈ ps, p.1 = b → p.2 = x) (hnear : ∀ l ∈ ls, l < b / 64 + 6144 ∧ b / 64 < l + 6144)
    (h : b / 64 ∈ ls ∨ viewByte s die b = x) : viewByte (ls.foldl (writeLine die ps mark) s) die b = x := by
  induction ls generalizing s with
  | nil => simpa using h
  | cons l ls ih =>
    have hp' : (dieOf (writeLine die ps mark s l) die).p ≠ 32 := by rwa [copied_p copied_writeLine]
    refine ih hp' (fun m hm => hnear m (List.mem_cons_of_mem _ hm)) ?_
    by_cases hl : b / 64 = l
    · subst hl
      exact .inr (viewByte_writeLine_same hp hin hsame)
    · refine (h.imp (fun hmem => (List.mem_cons.mp hmem).resolve_left hl) fun hview => ?_)
      rw [viewByte_writeLine_other hl (cacheSet_ne hp (Ne.symm hl) (hnear l List.mem_cons_self)), hview]
theorem length_leBytes (n v : Nat) : (leBytes n v).length = n := by
  induction n generalizing v with
  | zero => rfl
  | succ n ih => rw [leBytes, List.length_cons, ih]
/-- Every byte of a write stands in the copy's view. -/
theorem viewByte_dieWrite {a n v i : Nat} (hp : (dieOf s die).p ≠ 32) (hn : n ≤ 2 ^ 18) (hi : i < n) :
    viewByte (dieWrite s die a (leBytes n v) mark) die (a + i) = BitVec.ofNat 8 (v / 256 ^ i) := by
  have hmine : (a + i) / 64 ∈ linesOf64 a n := by
    rw [mem_linesOf64]
    omega
  rw [dieWrite_eq hp, length_leBytes, placed_leBytes]
  refine viewByte_writeLines hp (List.mem_map.mpr ⟨i, List.mem_range.mpr hi, rfl⟩) (fun p hmem hpi => ?_)
    (fun l hl => mem_linesOf64_near hn hl hmine) (.inl hmine)
  obtain ⟨j, -, rfl⟩ := List.mem_map.mp hmem
  rw [show j = i by simpa using hpi]
end
end
end Sys2Proof.Machine
end

