-- ==== Sys2Proof/Proofs/CopyAccess.lean ====
section
/-! PROOF. Operations served by a die's copy, by a pinned store or by a read at home (09_memory_model, R265 to R267; 10_die, R289, R290;
13_package_memory, R355). -/
namespace Sys2Proof.Machine
open Sys2Proof.Claims

section
variable {s t u : State} {x : XOp} {id : Nat} {p : XPhase}

/-! ## The operation under way -/

theorem opIn_of_under (h : Under s id p x) : opIn s id (fun q => q == p) = some x := h.1
theorem mem_of_under (h : Under s id p x) : x ∈ s.xops := List.mem_of_find?_eq_some h.1
theorem heldByEarlier_of_under (h : Under s id p x) (home : Bool) : heldByEarlier s x home = false := by
  rw [heldByEarlier, h.2.2]
  rfl
theorem id_of_under (h : Under s id p x) : x.req.id = id := by
  have hfound := List.find?_some h.1
  simp only [Bool.and_eq_true, beq_iff_eq] at hfound
  exact hfound.1
theorem exec_reservoirAccess (hx : s.ev.x = id) (h : Under s id .reservoir x) : exec .reservoirAccess s =
    if field x.pa 58 4 = 4 then .next (accessPinned s x) else .next (accessCopy s x) := by
  show execReservoirAccess s = _
  simp only [execReservoirAccess, hx, opIn_of_under h, heldByEarlier_of_under h, bits_eq_field x.pa 61 58 4 rfl, beq_iff_eq,
    Bool.false_eq_true, if_false]

/-! ## On to home -/

/-- An operation on its way to its home stack. -/
def atHome (x : XOp) (copied : Bool) : XOp := { x with phase := .home, copyDone := copied }
theorem passed_goHome {copied : Bool} : Passed s (goHome s x copied) := passed_trans passed_putOp passed_schedule
theorem goHome_outcome {copied : Bool} (h : x ∈ s.xops) : atHome x copied ∈ (goHome s x copied).xops ∧
    Later (goHome s x copied) (if readsOnly x.req then .hbmRead else .hbmWrite) x.req.id 0 (s.now + 60) :=
  ⟨mem_putOp h, later_schedule⟩

/-! ## The copy -/

section
variable (hcopy : ((dieOf s (dieKey x.req.core)).p == 32 || isAmo x.req) = false)
include hcopy

theorem accessCopy_waits (hwait : (reservoirWait s (dieKey x.req.core) x.pa (requestSize x.req)).2.1 ≠ 0) :
    accessCopy s x = putOff s (reservoirWait s (dieKey x.req.core) x.pa (requestSize x.req)) .reservoirAccess s.ev := by
  simp only [accessCopy, hcopy, bne_iff_ne, Bool.false_eq_true, if_false]
  exact if_pos hwait
theorem accessCopy_read {m : Nat} (hwait : (reservoirWait s (dieKey x.req.core) x.pa (requestSize x.req)).2.1 = 0)
    (hkind : x.req.kind = .read m) : accessCopy s x =
      if (linesOf64 (field x.pa 0 41) m).all (fun l => (cacheLine s (dieKey x.req.core) l).isSome) then
        let u := mendLines s (dieKey x.req.core) (field x.pa 0 41) m
        if dieBad u (dieKey x.req.core) (field x.pa 0 41) m then poisonOp u x
        else finishOp (dieRead u (dieKey x.req.core) (field x.pa 0 41) m).2 x (ofBytes (dieRead u (dieKey x.req.core) (field x.pa 0 41) m).1)
      else goHome s x false := by
  have hsize : requestSize x.req = m := by rw [requestSize, hkind]
  rw [hsize] at hwait
  simp only [accessCopy, hcopy, hsize, hwait, hkind, bits_eq_field x.pa 40 0 41 rfl, bne_self_eq_false, Bool.false_eq_true, if_false]
/-- The state in which a write stands in its die's copy, its context's access performed there. -/
def writtenInCopy (s : State) (x : XOp) (m : Nat) (v : V512) : State :=
  modAccess (dieWrite { s with nextId := s.nextId + 1 } (dieKey x.req.core) (field x.pa 0 41) (leBytes m v.toNat) s.nextId)
    x.req.cx x.req.id (fun p => { p with atCopy := true })
theorem accessCopy_write {m : Nat} {v : V512} (hwait : (reservoirWait s (dieKey x.req.core) x.pa (requestSize x.req)).2.1 = 0)
    (hkind : x.req.kind = .write m v) : accessCopy s x =
      goHome (putOp (writtenInCopy s x m v) x { x with mark := s.nextId }) { x with mark := s.nextId } true := by
  have hsize : requestSize x.req = m := by rw [requestSize, hkind]
  rw [hsize] at hwait
  simp only [accessCopy, hcopy, hsize, hwait, hkind, bits_eq_field x.pa 40 0 41 rfl, bne_self_eq_false, Bool.false_eq_true, if_false]
  rfl
end

/-! ## Outcomes at the Reservoir -/

/-- A pinned store is the same Reservoir whoever reads it. -/
theorem reservoirWait_pinned {d e n : Nat} {pa : W64} (h : field pa 58 4 = 4) : reservoirWait s d pa n = reservoirWait s e pa n := by
  simp only [reservoirWait, bits_eq_field pa 61 58 4 rfl, h]

theorem poisons_of_copied {die : Nat} (h : Copied s t die) : Poisons s (poisonOp t x) x := by
  refine poisons_poisonOp (sameMemory_copied h) ?_ ?_
  · obtain ⟨_, _, _, _, _, _, rfl⟩ := h.rest
    rfl
  · refine regionOfCtx_of (mapView_copied h) ?_ ?_ _
    · obtain ⟨_, _, _, _, _, _, rfl⟩ := h.rest
      exact fun _ => rfl
    · obtain ⟨_, _, _, _, _, _, rfl⟩ := h.rest
      rfl
section
variable (hx : s.ev.x = id) (h : Under s id .reservoir x)
include hx h

theorem reservoirAccess_home (hspace : field x.pa 58 4 = 1) (hout : (dieOf s (dieKey x.req.core)).p = 32 ∨ isAmo x.req = true) :
    Runs .reservoirAccess s fun t => SameMemory s t ∧ atHome x false ∈ t.xops ∧
      Later t (if readsOnly x.req then .hbmRead else .hbmWrite) x.req.id 0 (s.now + 60) := by
  have hrun := exec_reservoirAccess hx h
  have hgo : accessCopy s x = goHome s x false := if_pos (by simpa using hout)
  rw [if_neg (by omega), hgo] at hrun
  exact ⟨_, hrun, sameMemory_passed passed_goHome, goHome_outcome (mem_of_under h)⟩
section
variable (hspace : field x.pa 58 4 = 1) (hp : (dieOf s (dieKey x.req.core)).p ≠ 32) (hamo : isAmo x.req = false)
include hspace hp hamo

omit hp hamo in
theorem reservoirAccess_copy : exec .reservoirAccess s = .next (accessCopy s x) := by
  have hrun := exec_reservoirAccess hx h
  rwa [if_neg (by omega)] at hrun
theorem reservoirAccess_waits (hwait : (reservoirWait s (dieKey x.req.core) x.pa (requestSize x.req)).2.1 ≠ 0) :
    Runs .reservoirAccess s fun t => SameMemory s t ∧ t.xops = s.xops ∧ LaterOf t .reservoirAccess id s.ev.y s.ev.z := by
  have hrun := reservoirAccess_copy hx h hspace
  rw [accessCopy_waits (by simp [hp, hamo]) hwait] at hrun
  refine ⟨_, hrun, sameMemory_putOff .., ?_, hx ▸ (later_putOff ..).2⟩
  obtain ⟨_, _, heq | heq⟩ := putOff_rest s (reservoirWait s (dieKey x.req.core) x.pa (requestSize x.req)) .reservoirAccess s.ev
  · rw [heq]
  · rw [heq]
    rfl
section
variable {m : Nat} (hwait : (reservoirWait s (dieKey x.req.core) x.pa (requestSize x.req)).2.1 = 0)
include hwait

theorem reservoirAccess_hit (hkind : x.req.kind = .read m) (hengine : x.engine = false)
    (hcached : ∀ l ∈ linesOf64 (field x.pa 0 41) m, (cacheLine s (dieKey x.req.core) l).isSome = true) :
    let s1 := mendLines s (dieKey x.req.core) (field x.pa 0 41) m
    (dieBad s1 (dieKey x.req.core) (field x.pa 0 41) m = false → Runs .reservoirAccess s fun t => SameMemory s t ∧
      RepliesTo s t x.req (ofBytes ((List.range m).map (fun i => viewByte s1 (dieKey x.req.core) (field x.pa 0 41 + i)))).toNat) ∧
    (dieBad s1 (dieKey x.req.core) (field x.pa 0 41) m = true → Runs .reservoirAccess s fun t => Poisons s t x) := by
  intro s1
  have hrun := reservoirAccess_copy hx h hspace
  have hmended : Copied s s1 (dieKey x.req.core) := copied_mendLines
  have hhits : ∀ l ∈ linesOf64 (field x.pa 0 41) m, (cacheLine s1 (dieKey x.req.core) l).isSome = true := fun l hl => by
    rw [isSome_mendLines]
    exact hcached l hl
  rw [accessCopy_read (by simp [hp, hamo]) hwait hkind, if_pos (List.all_eq_true.mpr hcached)] at hrun
  refine ⟨fun hgood => ?_, fun hbad => ?_⟩
  · rw [← dieRead_hits (by rwa [copied_p hmended]) hhits]
    have hread := copied_trans hmended (copied_dieRead (a := field x.pa 0 41) (n := m))
    dsimp only at hrun
    rw [if_neg (by rw [hgood]; decide)] at hrun
    exact ⟨_, hrun, answered_finishOp hengine (sameMemory_copied hread) (mapView_copied hread)⟩
  · dsimp only at hrun
    rw [if_pos hbad] at hrun
    exact ⟨_, hrun, poisons_of_copied hmended⟩
theorem reservoirAccess_miss (hkind : x.req.kind = .read m)
    (hmiss : ¬ ∀ l ∈ linesOf64 (field x.pa 0 41) m, (cacheLine s (dieKey x.req.core) l).isSome = true) :
    Runs .reservoirAccess s fun t => SameMemory s t ∧ atHome x false ∈ t.xops ∧ Later t .hbmRead x.req.id 0 (s.now + 60) := by
  have hrun := reservoirAccess_copy hx h hspace
  rw [accessCopy_read (by simp [hp, hamo]) hwait hkind, if_neg (fun hall => hmiss (List.all_eq_true.mp hall))] at hrun
  obtain ⟨hop, hlater⟩ := goHome_outcome (copied := false) (mem_of_under h)
  rw [show readsOnly x.req = true by rw [readsOnly, hkind]] at hlater
  exact ⟨_, hrun, sameMemory_passed passed_goHome, hop, hlater⟩
theorem reservoirAccess_write {v : V512} (hkind : x.req.kind = .write m v) (hm : m ≤ 64) :
    Runs .reservoirAccess s fun t => SameMemory s t ∧ { x with phase := .home, copyDone := true, mark := s.nextId } ∈ t.xops ∧
      Later t .hbmWrite x.req.id 0 (s.now + 60) ∧
      ∀ i < m, viewByte t (dieKey x.req.core) (field x.pa 0 41 + i) = BitVec.ofNat 8 (v.toNat / 256 ^ i) := by
  have hrun := reservoirAccess_copy hx h hspace
  rw [accessCopy_write (by simp [hp, hamo]) hwait hkind] at hrun
  have hwrite (i : Nat) (hi : i < m) := viewByte_dieWrite (s := { s with nextId := s.nextId + 1 }) (die := dieKey x.req.core)
    (mark := s.nextId) (a := field x.pa 0 41) (v := v.toNat) hp (by omega) hi
  have hcopied : Copied { s with nextId := s.nextId + 1 } (dieWrite { s with nextId := s.nextId + 1 } (dieKey x.req.core)
      (field x.pa 0 41) (leBytes m v.toNat) s.nextId) (dieKey x.req.core) := copied_dieWrite
  have haccess : Settles (dieWrite { s with nextId := s.nextId + 1 } (dieKey x.req.core) (field x.pa 0 41) (leBytes m v.toNat) s.nextId)
    (writtenInCopy s x m v) := settles_modAccess
  generalize writtenInCopy s x m v = w at *
  generalize dieWrite { s with nextId := s.nextId + 1 } (dieKey x.req.core) (field x.pa 0 41) (leBytes m v.toNat) s.nextId = d at *
  have hkept : w.xops = s.xops ∧ w.now = s.now := by
    obtain ⟨_, _, _, rfl⟩ := haccess.rest
    obtain ⟨_, _, _, _, _, _, rfl⟩ := hcopied.rest
    exact ⟨rfl, rfl⟩
  have hmem : SameMemory s w := sameMemory_trans (t := { s with nextId := s.nextId + 1 }) (sameMemory_of rfl rfl rfl rfl rfl)
    (sameMemory_trans (sameMemory_copied hcopied) (settles_sameMemory haccess))
  have hpassed : Passed w (goHome (putOp w x { x with mark := s.nextId }) { x with mark := s.nextId } true) :=
    passed_trans passed_putOp passed_goHome
  obtain ⟨hop, hlater⟩ := goHome_outcome (s := putOp w x { x with mark := s.nextId }) (x := { x with mark := s.nextId }) (copied := true)
    (mem_putOp (hkept.1 ▸ mem_of_under h))
  refine ⟨_, hrun, sameMemory_trans hmem (sameMemory_passed hpassed), hop, ?_, fun i hi => ?_⟩
  · have hwrites : readsOnly x.req = false := by rw [readsOnly, hkind]
    rw [← hkept.2]
    rw [show readsOnly ({ x with mark := s.nextId } : XOp).req = false from hwrites] at hlater
    exact hlater
  · rw [← hwrite i hi]
    refine viewByte_of_cacheLine (cacheLine_of_cache ?_) ?_
    · rw [dieOf_passed hpassed, settles_dieOf haccess]
    · rw [hbmByte_passed hpassed, hbmByte_passed (passed_settles haccess)]
end
end
theorem reservoirAccess_pinned {m : Nat} (hspace : field x.pa 58 4 = 4) (hkind : x.req.kind = .read m) (hengine : x.engine = false)
    (hwait : (reservoirWait s (dieKey x.req.core) x.pa (requestSize x.req)).2.1 = 0) :
    let pin := field x.pa 48 6
    let off := field x.pa 0 28
    (pinnedBad s pin off m = false → Runs .reservoirAccess s fun t => SameMemory s t ∧
      RepliesTo s t x.req (ofBytes (memBytes (dieOf s pin).pinned off m)).toNat) ∧
    (pinnedBad s pin off m = true → Runs .reservoirAccess s fun t => Poisons s t x) := by
  intro pin off
  have hsize : requestSize x.req = m := by rw [requestSize, hkind]
  rw [hsize, reservoirWait_pinned (e := pin) hspace] at hwait
  have hrun := exec_reservoirAccess hx h
  have haccess : accessPinned s x = if pinnedBad s pin off m then consumeError (dropOp s x) (regionOfCtx s x.req.cx) cEccUe
      else finishOp (pinnedFix s pin off m) x (ofBytes (memBytes (dieOf s pin).pinned off m)) := by
    simp only [accessPinned, hsize, bits_eq_field x.pa 53 48 6 rfl, bits_eq_field x.pa 27 0 28 rfl]
    exact if_neg (by rw [hwait]; decide)
  rw [if_pos hspace, haccess] at hrun
  refine ⟨fun hgood => ?_, fun hbad => ?_⟩
  · rw [if_neg (by rw [hgood]; decide)] at hrun
    obtain ⟨dies, hfix⟩ := diesOnly_pinnedFix (s := s) (die := pin) (off := off) (n := m)
    exact ⟨_, hrun, answered_finishOp hengine sameMemory_pinnedFix (by rw [hfix]; rfl)⟩
  · rw [if_pos hbad] at hrun
    exact ⟨_, hrun, sameMemory_passed (passed_trans passed_dropOp passed_consumeError), rfl, error_consumeError⟩
end

/-! ## Reads at home (R267, R355) -/

theorem exec_hbmRead (hx : s.ev.x = id) (h : Under s id .home x) {m : Nat} (hkind : x.req.kind = .read m) :
    let die := dieKey x.req.core
    let a := field x.pa 0 41
    let u := mendLines s die a m
    exec .hbmRead s = if (dieOf s die).p ≠ 32 ∧ ∃ l ∈ linesOf64 a m, wayFree s die l = false then .next (again s .hbmRead)
      else if dieBad u die a m then .next (poisonOp u x)
      else .next (finishOp (dieRead u die a m).2 x (ofBytes (dieRead u die a m).1)) := by
  intro die a u
  have hsize : requestSize x.req = m := by rw [requestSize, hkind]
  show execHbmRead s = _
  simp only [execHbmRead, hx, opIn_of_under h, heldByEarlier_of_under h, hsize, bits_eq_field x.pa 40 0 41 rfl, Bool.false_or,
    Bool.and_eq_true, bne_iff_ne, List.any_eq_true, Bool.not_eq_true', ne_eq]
  rfl
theorem hbmRead_outcome (hx : s.ev.x = id) (h : Under s id .home x) (hengine : x.engine = false) {m : Nat} (hkind : x.req.kind = .read m)
    (hm : m ≤ 64) :
    let die := dieKey x.req.core
    let a := field x.pa 0 41
    let s1 := mendLines s die a m
    let room := (dieOf s die).p = 32 ∨ ∀ l ∈ linesOf64 a m, wayFree s die l = true
    (room → dieBad s1 die a m = false → Runs .hbmRead s fun t => SameMemory s t ∧
      RepliesTo s t x.req (ofBytes ((List.range m).map (fun i => viewByte s1 die (a + i)))).toNat) ∧
    (room → dieBad s1 die a m = true → Runs .hbmRead s fun t => Poisons s t x) ∧
    (¬ room → Runs .hbmRead s fun t => PutOff s t .hbmRead) := by
  intro die a s1 room
  have hrun := exec_hbmRead hx h hkind
  dsimp only at hrun
  have hfull : ((dieOf s die).p ≠ 32 ∧ ∃ l ∈ linesOf64 a m, wayFree s die l = false) ↔ ¬ room := by
    simp only [room, not_or, not_forall, Bool.not_eq_true, exists_prop]
  have hmended : Copied s s1 die := copied_mendLines
  refine ⟨fun hroom hgood => ?_, fun hroom hbad => ?_, fun hroom => ?_⟩
  · rw [if_neg (fun hno => hfull.mp hno hroom), if_neg (by rw [hgood]; decide)] at hrun
    rw [← dieRead_near (by omega)]
    have hread := copied_trans hmended (copied_dieRead (a := a) (n := m))
    exact ⟨_, hrun, answered_finishOp hengine (sameMemory_copied hread) (mapView_copied hread)⟩
  · rw [if_neg (fun hno => hfull.mp hno hroom), if_pos hbad] at hrun
    exact ⟨_, hrun, poisons_of_copied hmended⟩
  · rw [if_pos (hfull.mpr hroom)] at hrun
    exact ⟨_, hrun, rfl, rfl⟩
end
end Sys2Proof.Machine
end

