-- ==== Sys2Proof/Proofs/HomeWrites.lean ====
section
/-! PROOF. Writes and atomics performed at home, and accesses to the second tier and to host memory (13_package_memory, R355, R356, R363 to
R365). -/
namespace Sys2Proof.Machine
open Sys2Proof.Claims

/-! ## Bytes stored line by line -/

theorem memByte_memStore_mem {m : Memory} (h : memWf m = true) {b : Nat} {x : Byte} (ps : List (Nat × Byte))
    (hsame : ∀ p ∈ ps, p.1 = b → p.2 = x) (hin : memByte m b = x ∨ ∃ p ∈ ps, p.1 = b) : memByte (memStore m ps) b = x := by
  induction ps generalizing m with
  | nil => exact hin.resolve_right (by simp)
  | cons p ps ih =>
    refine ih (m := memPut m p.1 p.2) (memPut_wf h p.1 p.2) (fun q hq => hsame q (List.mem_cons_of_mem _ hq)) ?_
    by_cases hp : p.1 = b
    · refine .inl ?_
      rw [← hp, memByte_memPut_same h]
      exact hsame p List.mem_cons_self hp
    · rw [memByte_memPut_other h _ _ _ hp]
      refine hin.imp_right fun ⟨q, hq, hb⟩ => ?_
      obtain rfl | hq := List.mem_cons.mp hq
      · exact absurd hb hp
      · exact ⟨q, hq, hb⟩
/-- Bytes stored line by line. -/
def storeLines (m : Memory) (ls : List Nat) (ps : List (Nat × Byte)) : Memory :=
  ls.foldl (fun m l => memStore m (ps.filter (fun p => p.1 / 128 == l))) m
theorem storeLines_wf {m : Memory} (h : memWf m = true) (ls : List Nat) (ps : List (Nat × Byte)) : memWf (storeLines m ls ps) = true := by
  induction ls generalizing m with
  | nil => exact h
  | cons l ls ih => exact ih (memStore_wf h _)
theorem memByte_storeLines_other {m : Memory} (h : memWf m = true) (ls : List Nat) {ps : List (Nat × Byte)} {b : Nat} (hb : ∀ p ∈ ps, p.1 ≠ b) :
    memByte (storeLines m ls ps) b = memByte m b := by
  induction ls generalizing m with
  | nil => rfl
  | cons l ls ih => exact (ih (memStore_wf h _)).trans (memByte_memStore_other h _ _ fun p hp => hb p (List.mem_filter.mp hp).1)
theorem memByte_storeLines_mem {m : Memory} (h : memWf m = true) (ls : List Nat) {ps : List (Nat × Byte)} {b : Nat} {x : Byte}
    (hin : (b, x) ∈ ps) (hsame : ∀ p ∈ ps, p.1 = b → p.2 = x) (hls : b / 128 ∈ ls ∨ memByte m b = x) : memByte (storeLines m ls ps) b = x := by
  induction ls generalizing m with
  | nil => exact hls.resolve_left (by simp)
  | cons l ls ih =>
    refine ih (m := memStore m (ps.filter (fun p => p.1 / 128 == l))) (memStore_wf h _) ?_
    have hstep := memByte_memStore_mem h (ps.filter (fun p => p.1 / 128 == l)) (fun p hp => hsame p (List.mem_filter.mp hp).1)
    obtain hmem | hview := hls
    · obtain rfl | hmem := List.mem_cons.mp hmem
      · exact .inr (hstep (.inr ⟨_, List.mem_filter.mpr ⟨hin, beq_self_eq_true _⟩, rfl⟩))
      · exact .inl hmem
    · exact .inr (hstep (.inl hview))

section
variable {s t u : State}

/-! ## Home -/

/-- A state in which at most the bytes of HBM, their codes and poison, and the counters of the memory system differ. -/
def HomeOnly (s t : State) (hbm : Memory) : Prop := ∃ codes poison corr stackCnt sectors xlCnt, t = { s with
  hbm := hbm, hbmMeta := codes, hbmPoison := poison, hbmCorr := corr,
  pkg := { s.pkg with stackCnt := stackCnt, sectors := sectors, xlCnt := xlCnt } }

theorem homeOnly_counted (h : Counted s t) : HomeOnly s t s.hbm := by
  obtain ⟨st, se, xl, rfl⟩ := h
  exact ⟨s.hbmMeta, s.hbmPoison, s.hbmCorr, st, se, xl, rfl⟩
theorem homeOnly_trans {m n : Memory} (h : HomeOnly s t m) (h' : HomeOnly t u n) : HomeOnly s u n := by
  obtain ⟨_, _, _, _, _, _, rfl⟩ := h
  obtain ⟨a, b, c, d, e, f, rfl⟩ := h'
  exact ⟨a, b, c, d, e, f, rfl⟩
theorem hbm_of_homeOnly {m : Memory} (h : HomeOnly s t m) : t.hbm = m := by
  obtain ⟨_, _, _, _, _, _, rfl⟩ := h
  rfl
theorem mapSlot_homeOnly {m : Memory} (h : HomeOnly s t m) (a : Nat) : mapSlot t a = mapSlot s a := by
  obtain ⟨_, _, _, _, _, _, rfl⟩ := h
  rfl
theorem homeOnly_hbmPuts {ps : List (Nat × Byte)} (h : ∀ p ∈ ps, mapSlot s p.1 = none) :
    HomeOnly s (ps.foldl (fun s b => hbmPut s b.1 b.2) s) (memStore s.hbm ps) := by
  induction ps generalizing s with
  | nil => exact homeOnly_counted (counted_refl s)
  | cons p ps ih =>
    have hput : hbmPut s p.1 p.2 = { s with hbm := memPut s.hbm p.1 p.2 } := by
      rw [hbmPut, h p List.mem_cons_self]
    have hone : HomeOnly s { s with hbm := memPut s.hbm p.1 p.2 } (memPut s.hbm p.1 p.2) :=
      ⟨s.hbmMeta, s.hbmPoison, s.hbmCorr, s.pkg.stackCnt, s.pkg.sectors, s.pkg.xlCnt, rfl⟩
    rw [List.foldl_cons, hput]
    exact homeOnly_trans hone (ih (s := { s with hbm := memPut s.hbm p.1 p.2 }) fun q hq => h q (List.mem_cons_of_mem _ hq))
theorem homeOnly_homeWriteLine {line : Nat} {ps : List (Nat × Byte)} {cmp : Bool} (h : ∀ p ∈ ps, mapSlot s p.1 = none) :
    HomeOnly s (homeWriteLine s line ps cmp) (memStore s.hbm ps) := by
  have hread : Counted s (if ps.length == 128 then s else countStack (countRead s line) (stackOf (128 * line)) 3 1) := by
    split
    · exact counted_refl s
    · exact counted_trans counted_countRead counted_countStack
  unfold homeWriteLine
  dsimp only
  generalize (if ps.length == 128 then s else countStack (countRead s line) (stackOf (128 * line)) 3 1) = u at *
  have hu := homeOnly_counted hread
  have hputs := homeOnly_hbmPuts (s := u) (ps := ps) fun p hp => (mapSlot_homeOnly hu p.1).trans (h p hp)
  rw [hbm_of_homeOnly hu] at hputs
  have hstored := homeOnly_trans hu hputs
  generalize ps.foldl (fun s b => hbmPut s b.1 b.2) u = v at *
  obtain ⟨_, _, _, _, _, _, rfl⟩ := hstored
  exact ⟨_, _, _, _, _, _, rfl⟩
theorem homeOnly_homeLines {ps : List (Nat × Byte)} {cmp : Bool} (h : ∀ p ∈ ps, mapSlot s p.1 = none) :
    HomeOnly s (homeLines s ps cmp) (storeLines s.hbm ((ps.map (fun p => p.1 / 128)).eraseDups) ps) := by
  unfold homeLines
  generalize (ps.map (fun p => p.1 / 128)).eraseDups = ls
  induction ls generalizing s with
  | nil => exact homeOnly_counted (counted_refl s)
  | cons l ls ih =>
    have hone := homeOnly_homeWriteLine (s := s) (line := l) (cmp := cmp) (ps := ps.filter (fun p => p.1 / 128 == l))
      fun p hp => h p (List.mem_filter.mp hp).1
    have hrest := ih (s := homeWriteLine s l (ps.filter (fun p => p.1 / 128 == l)) cmp)
      fun p hp => (mapSlot_homeOnly hone p.1).trans (h p hp)
    rw [hbm_of_homeOnly hone] at hrest
    exact homeOnly_trans hone hrest
theorem mapSlot_apart {a m b : Nat} (h : MapApart s a m) (hlow : a ≤ b) (hhigh : b < a + m) : mapSlot s b = none := by
  unfold mapSlot
  split
  · next base hbase =>
    have hout := (h b hlow hhigh).1 base hbase
    exact if_neg (by simp only [Bool.and_eq_true, decide_eq_true_eq]; omega)
  · rfl
/-- The bytes of a value from an address on. -/
def valueFrom (a n v : Nat) : List (Nat × Byte) := (List.range n).map (fun i => (a + i, BitVec.ofNat 8 (v / 256 ^ i)))
theorem mem_valueFrom {a n v : Nat} {p : Nat × Byte} : p ∈ valueFrom a n v ↔ ∃ i < n, p = (a + i, BitVec.ofNat 8 (v / 256 ^ i)) := by
  simp only [valueFrom, List.mem_map, List.mem_range, eq_comm]
theorem placed_valueFrom (a n v : Nat) : placed a (leBytes n v) = valueFrom a n v := placed_leBytes a n v
/-- What bytes of a value stored line by line leave to read. -/
theorem memByte_storeLines_value {m : Memory} (h : memWf m = true) (a n v b : Nat) :
    memByte (storeLines m (((valueFrom a n v).map (fun p => p.1 / 128)).eraseDups) (valueFrom a n v)) b =
      if a ≤ b ∧ b < a + n then BitVec.ofNat 8 (v / 256 ^ (b - a)) else memByte m b := by
  by_cases hb : a ≤ b ∧ b < a + n
  · rw [if_pos hb]
    have hin : (b, BitVec.ofNat 8 (v / 256 ^ (b - a))) ∈ valueFrom a n v :=
      mem_valueFrom.mpr ⟨b - a, by omega, by rw [Nat.add_sub_cancel' hb.1]⟩
    refine memByte_storeLines_mem h _ hin (fun p hp hpb => ?_) (.inl (List.mem_eraseDups.mpr (List.mem_map.mpr ⟨_, hin, rfl⟩)))
    obtain ⟨i, -, rfl⟩ := mem_valueFrom.mp hp
    rw [← hpb, Nat.add_sub_cancel_left]
  · rw [if_neg hb]
    refine memByte_storeLines_other h _ fun p hp hpb => hb ?_
    obtain ⟨i, hi, rfl⟩ := mem_valueFrom.mp hp
    simp only at hpb
    omega

/-! ## A write at its home (R363 to R365) -/

/-- Bytes of a value stand in HBM, and nothing else there changed. -/
def StoredHome (s t : State) (a m v : Nat) : Prop :=
  ∀ b, hbmByte t b = if a ≤ b ∧ b < a + m then BitVec.ofNat 8 (v / 256 ^ (b - a)) else hbmByte s b
theorem hbmByte_homeOnly_map {m : Memory} {b k : Nat} (h : HomeOnly s t m) (hslot : mapSlot s b = some k) : hbmByte t b = hbmByte s b := by
  have hslot' := (mapSlot_homeOnly h b).trans hslot
  obtain ⟨_, _, _, _, _, _, rfl⟩ := h
  rw [hbmByte, hslot', hbmByte, hslot]
theorem hbmByte_homeOnly_data {m : Memory} {b : Nat} (h : HomeOnly s t m) (hslot : mapSlot s b = none) : hbmByte t b = memByte m b := by
  have hslot' := (mapSlot_homeOnly h b).trans hslot
  obtain ⟨_, _, _, _, _, _, rfl⟩ := h
  rw [hbmByte, hslot']
theorem memBytes_congr {m n : Memory} {a k : Nat} (h : ∀ b, a ≤ b → b < a + k → memByte m b = memByte n b) : memBytes m a k = memBytes n a k :=
  List.map_congr_left fun i hi => h (a + i) (by omega) (by have := List.mem_range.mp hi; omega)
theorem mapEntry_congr (hat : t.pkg.mapAt = s.pkg.mapAt) (hbase : t.pkg.cmbase = s.pkg.cmbase) (hmap : t.pkg.coreMap = s.pkg.coreMap)
    (hbytes : ∀ b, s.pkg.cmbase.toNat ≤ b → b < s.pkg.cmbase.toNat + 589824 → memByte t.hbm b = memByte s.hbm b) (x y : Nat) :
    mapEntry t x y = mapEntry s x y := by
  by_cases hout : (decide (287 < x) || decide (255 < y)) = true
  · rw [mapEntry, if_pos hout, mapEntry, if_pos hout]
  · have hin : x ≤ 287 ∧ y ≤ 255 := by simpa using hout
    rw [mapEntry, if_neg hout, mapEntry, if_neg hout, hat, hbase, hmap,
      memBytes_congr (m := t.hbm) (n := s.hbm) fun b hlow hhigh => hbytes b (by omega) (by omega)]
/-- A write apart from the core map moves no place of a logical core. -/
theorem coreOfAddr_homeOnly {m : Memory} {a n : Nat} (h : HomeOnly s t m) (hapart : MapApart s a n)
    (hm : ∀ b, ¬ (a ≤ b ∧ b < a + n) → memByte m b = memByte s.hbm b) (addr : Nat) : coreOfAddr t addr = coreOfAddr s addr := by
  have hentry (x y : Nat) : mapEntry t x y = mapEntry s x y := by
    refine mapEntry_congr ?_ ?_ ?_ (fun b hlow hhigh => ?_) x y
    · obtain ⟨_, _, _, _, _, _, rfl⟩ := h
      rfl
    · obtain ⟨_, _, _, _, _, _, rfl⟩ := h
      rfl
    · obtain ⟨_, _, _, _, _, _, rfl⟩ := h
      rfl
    · rw [hbm_of_homeOnly h]
      refine hm b fun hin => ?_
      have hmap := (hapart b hin.1 hin.2).2
      omega
  simp only [coreOfAddr, placeOf, hentry]
theorem forkedWrite_hbm {pa : W64} {m v : Nat} {cmp : Bool} (hspace : field pa 58 4 = 1) (hmigs : s.pkg.migs = [])
    (hapart : MapApart s (field pa 0 41) m) : HomeOnly s (physHomeWrite s pa (leBytes m v) cmp)
      (storeLines s.hbm (((valueFrom (field pa 0 41) m v).map (fun p => p.1 / 128)).eraseDups) (valueFrom (field pa 0 41) m v)) := by
  have hpairs : (placed 0 (leBytes m v)).map (fun p => (bits pa 40 0 + p.1, p.2)) = valueFrom (field pa 0 41) m v := by
    rw [placed_leBytes, bits_eq_field pa 40 0 41 rfl, List.map_map]
    refine List.map_congr_left fun i _ => ?_
    simp
  have hlines := homeOnly_homeLines (s := s) (cmp := cmp) (ps := valueFrom (field pa 0 41) m v) fun p hp => by
    obtain ⟨i, hi, rfl⟩ := mem_valueFrom.mp hp
    exact mapSlot_apart hapart (by simp) (by simpa using hi)
  have hwrite : physHomeWrite s pa (leBytes m v) cmp = homeLines s (valueFrom (field pa 0 41) m v) cmp := by
    have hplace : placeWrite s pa (placed 0 (leBytes m v)) cmp = homeLines s (valueFrom (field pa 0 41) m v) cmp := by
      simp only [placeWrite, bits_eq_field pa 61 58 4 rfl, hspace, hpairs]
    have hnone : (homeLines s (valueFrom (field pa 0 41) m v) cmp).pkg.migs = [] := by
      obtain ⟨_, _, _, _, _, _, heq⟩ := hlines
      rw [heq]
      exact hmigs
    simp only [physHomeWrite, forkedWrite, bits_eq_field pa 61 58 4 rfl, hspace, hplace, hnone, List.foldl_nil]
  rw [hwrite]
  exact hlines
/-- Bytes written at their home stand there, and a reply still finds its way. -/
theorem physHomeWrite_stored {pa : W64} {m v : Nat} {cmp : Bool} (hspace : field pa 58 4 = 1) (hmigs : s.pkg.migs = [])
    (hwf : memWf s.hbm = true) (hapart : MapApart s (field pa 0 41) m) :
    let t := physHomeWrite s pa (leBytes m v) cmp
    StoredHome s t (field pa 0 41) m v ∧ ∀ addr, coreOfAddr t addr = coreOfAddr s addr := by
  intro t
  have hhome : HomeOnly s t _ := forkedWrite_hbm (cmp := cmp) (v := v) hspace hmigs hapart
  have hvalue := memByte_storeLines_value hwf (field pa 0 41) m v
  generalize storeLines s.hbm (((valueFrom (field pa 0 41) m v).map (fun p => p.1 / 128)).eraseDups) (valueFrom (field pa 0 41) m v) = n at *
  refine ⟨fun b => ?_, coreOfAddr_homeOnly hhome hapart fun b hb => (hvalue b).trans (if_neg hb)⟩
  by_cases hb : field pa 0 41 ≤ b ∧ b < field pa 0 41 + m
  · rw [hbmByte_homeOnly_data hhome (mapSlot_apart hapart hb.1 hb.2), hvalue b, if_pos hb, if_pos hb]
  · rw [if_neg hb]
    cases hslot : mapSlot s b with
    | some k => exact hbmByte_homeOnly_map hhome hslot
    | none => rw [hbmByte_homeOnly_data hhome hslot, hvalue b, if_neg hb, hbmByte, hslot]

/-! ## The steps -/

section
variable {x : XOp} {id : Nat}

theorem exec_hbmWrite (hx : s.ev.x = id) (h : Under s id .home x) : exec .hbmWrite s =
    if isAmo x.req = true ∧ homeBad s (field x.pa 0 41) (requestSize x.req) = true then .next (poisonOp s x) else .next (performHome s x) := by
  show execHbmWrite s = _
  simp only [execHbmWrite, hx, opIn_of_under h, heldByEarlier_of_under h, bits_eq_field x.pa 40 0 41 rfl, Bool.false_eq_true, if_false,
    Bool.and_eq_true]
theorem copied_cameHome {die a n mark : Nat} : Copied s (cameHome s die a n mark) die := by
  refine copied_foldl (fun s l => ?_) _ _
  split
  · exact copied_putLine
  · exact copied_refl s die
/-- A write performed, with its copy told that it has come home. -/
def cameBack (t : State) (x : XOp) (n : Nat) : State :=
  if x.copyDone then cameHome t (dieKey x.req.core) (bits x.pa 40 0) n x.mark else t
theorem copied_cameBack {n : Nat} : Copied t (cameBack t x n) (dieKey x.req.core) := by
  unfold cameBack
  split
  · exact copied_cameHome
  · exact copied_refl ..
theorem performHome_write {m : Nat} {v : V512} (hkind : x.req.kind = .write m v) :
    performHome s x = finishOp (cameBack (physHomeWrite s x.pa (leBytes m v.toNat) x.cmp) x m) x 0 := by
  rw [performHome, hkind]
  rfl
theorem performHome_amo {op m : Nat} {v c : W64} (hkind : x.req.kind = .amo op m v c) : performHome s x =
    finishOp (physHomeWrite s x.pa (leBytes m (amoResult op m (leNat (homeRead s x.pa m)) v.toNat c.toNat).1) x.cmp) x
      (BitVec.ofNat 512 (leNat (homeRead s x.pa m))) := by
  rw [performHome, hkind]
theorem storedHome_finishOp {a m v : Nat} {w : V512} {y : XOp} (h : StoredHome s t a m v) : StoredHome s (finishOp t y w) a m v := by
  intro b
  rw [hbmByte_passed passed_finishOp, h b]
/-- The value of at most 8 bytes fits the old value of a reply. -/
theorem toNat_ofNat_leNat {l : List Byte} (h : l.length ≤ 8) : (BitVec.ofNat 512 (leNat l)).toNat = leNat l := by
  have hlt : leNat l < 256 ^ 64 := lt_of_lt_of_le (leNat_lt l) (Nat.pow_le_pow_right (by omega) (by omega))
  rw [BitVec.toNat_ofNat, Nat.mod_eq_of_lt (lt_of_lt_of_eq hlt (by rw [show 256 = 2 ^ 8 from rfl, ← pow_mul]))]
theorem repliesTo_finishOp_zero (hengine : x.engine = false) (hmap : coreOfAddr t x.req.cx = coreOfAddr s x.req.cx) :
    RepliesTo s (finishOp t x 0) x.req 0 := by
  have hreply := repliesTo_finishOp (v := 0) hengine hmap
  rwa [show (0 : V512).toNat = 0 from BitVec.toNat_zero ..] at hreply
theorem hbmWrite_poisoned (hx : s.ev.x = id) (h : Under s id .home x) {op m : Nat} {v c : W64} (hkind : x.req.kind = .amo op m v c)
    (hbad : homeBad s (field x.pa 0 41) m = true) : Runs .hbmWrite s fun t => Poisons s t x := by
  have hrun := exec_hbmWrite hx h
  rw [if_pos ⟨by rw [isAmo, hkind], by rw [requestSize, hkind]; exact hbad⟩] at hrun
  exact ⟨_, hrun, poisons_poisonOp (sameMemory_refl s) rfl rfl⟩
section
variable (hx : s.ev.x = id) (h : Under s id .home x) (hengine : x.engine = false) (hspace : field x.pa 58 4 = 1) (hmigs : s.pkg.migs = [])
  (hwf : memWf s.hbm = true)
include hx h hengine hspace hmigs hwf

theorem hbmWrite_write {m : Nat} {v : V512} (hkind : x.req.kind = .write m v) (hapart : MapApart s (field x.pa 0 41) m) :
    Runs .hbmWrite s fun t => StoredHome s t (field x.pa 0 41) m v.toNat ∧ RepliesTo s t x.req 0 := by
  have hrun := exec_hbmWrite hx h
  have hno : isAmo x.req = false := by rw [isAmo, hkind]
  rw [if_neg (fun hamo => by rw [hno] at hamo; cases hamo.1), performHome_write hkind] at hrun
  obtain ⟨hstored, hmap⟩ := physHomeWrite_stored (cmp := x.cmp) (v := v.toNat) hspace hmigs hwf hapart
  generalize physHomeWrite s x.pa (leBytes m v.toNat) x.cmp = w at *
  have hback := copied_cameBack (t := w) (x := x) (n := m)
  refine ⟨_, hrun, storedHome_finishOp fun b => ?_, ?_⟩
  · rw [copied_hbmByte hback, hstored b]
  · exact repliesTo_finishOp_zero hengine ((coreOfAddr_of_mapView (mapView_copied hback) _).trans (hmap _))
theorem hbmWrite_amo {op m : Nat} {v c : W64} (hkind : x.req.kind = .amo op m v c) (hm : m ∈ [1, 2, 4, 8])
    (hgood : homeBad s (field x.pa 0 41) m = false) (hapart : MapApart s (field x.pa 0 41) m) :
    let old := leNat (hbmBytes s (field x.pa 0 41) m)
    Runs .hbmWrite s fun t => StoredHome s t (field x.pa 0 41) m (amoResult op m old v.toNat c.toNat).1 ∧ RepliesTo s t x.req old := by
  intro old
  have hrun := exec_hbmWrite hx h
  have hread : homeRead s x.pa m = hbmBytes s (field x.pa 0 41) m := by
    simp only [homeRead, bits_eq_field x.pa 61 58 4 rfl, hspace, bits_eq_field x.pa 40 0 41 rfl]
  rw [if_neg (fun hbad => by rw [requestSize, hkind, hgood] at hbad; cases hbad.2), performHome_amo hkind, hread] at hrun
  obtain ⟨hstored, hmap⟩ := physHomeWrite_stored (cmp := x.cmp) (v := (amoResult op m old v.toNat c.toNat).1) hspace hmigs hwf hapart
  refine ⟨_, hrun, storedHome_finishOp hstored, ?_⟩
  have hvalue : (BitVec.ofNat 512 old).toNat = old := by
    refine toNat_ofNat_leNat ?_
    simp only [List.mem_cons, List.not_mem_nil, or_false] at hm
    rw [hbmBytes, List.length_map, List.length_range]
    omega
  have hreply := repliesTo_finishOp (t := physHomeWrite s x.pa (leBytes m (amoResult op m old v.toNat c.toNat).1) x.cmp)
    (v := BitVec.ofNat 512 old) hengine (hmap _)
  rwa [hvalue] at hreply
end

/-! ## The second tier and host memory (R355, R356) -/

theorem exec_secondTierAccess (hx : s.ev.x = id) (h : Under s id .tier2 x) (hgone : hostGone s x.pa = false) :
    (∀ m, x.req.kind = .read m → exec .secondTierAccess s = if s.ev.ok = false ∨ physBad s x.pa m = true then .next (poisonOp s x)
      else .next (finishOp (countTier2Read s x.pa m) x (ofBytes (homeRead (countTier2Read s x.pa m) x.pa m)))) ∧
    (∀ m v, x.req.kind = .write m v → exec .secondTierAccess s = .next (performHome s x)) := by
  refine ⟨fun m hkind => ?_, fun m v hkind => ?_⟩
  · have hsize : requestSize x.req = m := by rw [requestSize, hkind]
    show execSecondTierAccess s = _
    simp only [execSecondTierAccess, hx, opIn_of_under h, heldByEarlier_of_under h, hgone, hkind, hsize, Bool.or_self, Bool.false_eq_true,
      if_false, Bool.true_and, Bool.or_eq_true, Bool.not_eq_true', if_true]
  · show execSecondTierAccess s = _
    simp only [execSecondTierAccess, hx, opIn_of_under h, heldByEarlier_of_under h, hgone, hkind, Bool.or_self, Bool.false_eq_true,
      if_false, Bool.false_and]
theorem homeRead_counted {pa : W64} {m : Nat} (h : Counted s t) : homeRead t pa m = homeRead s pa m := by
  obtain ⟨_, _, _, rfl⟩ := h
  rfl
theorem secondTierAccess_read (hx : s.ev.x = id) (h : Under s id .tier2 x) (hgone : hostGone s x.pa = false) (hengine : x.engine = false)
    {m : Nat} (hkind : x.req.kind = .read m) (hok : s.ev.ok = true) (hgood : physBad s x.pa m = false) :
    Runs .secondTierAccess s fun t => SameMemory s t ∧ RepliesTo s t x.req (ofBytes (homeRead s x.pa m)).toNat := by
  have hrun := (exec_secondTierAccess hx h hgone).1 m hkind
  rw [if_neg (by rw [hok, hgood]; decide), homeRead_counted counted_countTier2Read] at hrun
  exact ⟨_, hrun, answered_finishOp hengine (sameMemory_counted counted_countTier2Read) (mapView_counted counted_countTier2Read)⟩
theorem secondTierAccess_poisoned (hx : s.ev.x = id) (h : Under s id .tier2 x) (hgone : hostGone s x.pa = false)
    {m : Nat} (hkind : x.req.kind = .read m) (hok : s.ev.ok = false) : Runs .secondTierAccess s fun t => Poisons s t x := by
  have hrun := (exec_secondTierAccess hx h hgone).1 m hkind
  rw [if_pos (.inl hok)] at hrun
  exact ⟨_, hrun, poisons_poisonOp (sameMemory_refl s) rfl rfl⟩
theorem secondTierAccess_host (hx : s.ev.x = id) (h : Under s id .tier2 x) (hgone : hostGone s x.pa = false) (hengine : x.engine = false)
    {m : Nat} {v : V512} (hkind : x.req.kind = .write m v) (hspace : field x.pa 58 4 = 5) (hwf : memWf s.host = true) :
    Runs .secondTierAccess s fun t => t.hbm = s.hbm ∧ t.tier2 = s.tier2 ∧ RepliesTo s t x.req 0 ∧
      ∀ b, memByte t.host b = if field x.pa 0 57 ≤ b ∧ b < field x.pa 0 57 + m
        then BitVec.ofNat 8 (v.toNat / 256 ^ (b - field x.pa 0 57)) else memByte s.host b := by
  have hrun := (exec_secondTierAccess hx h hgone).2 m v hkind
  have hwrite : physHomeWrite s x.pa (leBytes m v.toNat) x.cmp = { s with host := memStore s.host (valueFrom (field x.pa 0 57) m v.toNat) } := by
    simp only [physHomeWrite, bits_eq_field x.pa 61 58 4 rfl, hspace, bits_eq_field x.pa 56 0 57 rfl, placed_valueFrom]
  rw [performHome_write hkind, hwrite] at hrun
  have hback := copied_cameBack (t := { s with host := memStore s.host (valueFrom (field x.pa 0 57) m v.toNat) }) (x := x) (n := m)
  have hend := passed_finishOp (t := cameBack { s with host := memStore s.host (valueFrom (field x.pa 0 57) m v.toNat) } x m) (x := x) (v := 0)
  obtain ⟨hhbm, htier, hhost, -, -⟩ := sameMemory_trans (sameMemory_copied hback) (sameMemory_passed hend)
  refine ⟨_, hrun, hhbm, htier, repliesTo_finishOp_zero hengine (coreOfAddr_of_mapView ((mapView_copied hback).trans rfl) _), fun b => ?_⟩
  rw [hhost]
  by_cases hb : field x.pa 0 57 ≤ b ∧ b < field x.pa 0 57 + m
  · rw [if_pos hb]
    refine memByte_memStore_mem hwf _ (fun p hp hpb => ?_) (.inr ⟨_, mem_valueFrom.mpr ⟨b - field x.pa 0 57, by omega, rfl⟩, ?_⟩)
    · obtain ⟨i, -, rfl⟩ := mem_valueFrom.mp hp
      rw [← hpb, Nat.add_sub_cancel_left]
    · exact Nat.add_sub_cancel' hb.1
  · rw [if_neg hb]
    refine memByte_memStore_other hwf _ _ fun p hp hpb => hb ?_
    obtain ⟨i, hi, rfl⟩ := mem_valueFrom.mp hp
    simp only at hpb
    omega
end
end
end Sys2Proof.Machine
end

