-- ==== Sys2Proof/Proofs/PageAnswers.lean ====
section
/-! PROOF. The host's answer to a page request, and the deadline of a fault (13_package_memory, R360, R361; 14_package_host, R374, R376). -/
namespace Sys2Proof.Machine
open Sys2Proof.Claims

section
variable {s t u : State} {x : XOp} {id : Nat}

/-! ## An entry of a fault buffer freed -/

theorem agendaOnly_pokeCluster {ck : Nat} : AgendaOnly s (pokeCluster s ck) := by
  refine agendaOnly_foldl (fun s e => ?_) _ s
  split
  · exact agendaOnly_pokeResidents _
  · exact agendaOnly_refl s
theorem agendaOnly_unpark {ck : Nat} : AgendaOnly (setCluster s ck { clusterOf s ck with parked := (clusterOf s ck).parked.filter (fun n => n != id) })
    (unpark s ck id) := agendaOnly_pokeCluster
/-- What an unparked request's cluster keeps in its fault buffer. -/
theorem unpark_outcome {ck : Nat} : ∃ cluster agenda, unpark s ck id = { s with cluster := cluster, agenda := agenda } ∧
    (clusterOf (unpark s ck id) ck).parked = (clusterOf s ck).parked.filter (fun n => n != id) := by
  obtain ⟨agenda, h⟩ := agendaOnly_unpark (s := s) (id := id) (ck := ck)
  refine ⟨_, agenda, h, ?_⟩
  rw [h]
  show (clusterOf (setCluster s ck _) ck).parked = _
  rw [clusterOf_setCluster_same]

/-! ## Gangs that await no page -/

theorem regionOf_pages (h : ∀ r ∈ s.region, r.2.pages = []) (n : Nat) : (regionOf s n).pages = [] :=
  tget_of_forall (P := fun (r : Region) => r.pages = []) (k := n) h rfl
theorem foldl_pageAnswered {key : Nat} (h : ∀ r ∈ s.region, r.2.pages = []) (l : List Nat) : l.foldl (pageAnswered key) s = s := by
  induction l with
  | nil => rfl
  | cons n l ih =>
    have hone : pageAnswered key s n = s := by
      rw [pageAnswered, regionOf_pages h]
      rfl
    rw [List.foldl_cons, hone, ih]

/-! ## The answer (R360) -/

/-- The phases of a parked request. -/
def parkedPhase (p : XPhase) : Bool := match p with | .parked _ => true | _ => false
/-- A request that walks again. -/
def walkingAgain (s : State) (x : XOp) (id : Nat) : State :=
  schedule (putOp s x { x with phase := .walk 3 0 }) s.now .translationWalk (evArgs id 0 0)
theorem answerOp_parked {ok : Bool} (hop : opIn s id parkedPhase = some x) :
    answerOp ok s id = if ok = false ∧ gangAway (unpark s (clusterKey x.req.core) id) x.req.cx = false then
        failOp (unpark s (clusterKey x.req.core) id) x cPageFault
      else if ok then walkingAgain (unpark s (clusterKey x.req.core) id) x id
      else walkingAgain { unpark s (clusterKey x.req.core) id with pkg := { (unpark s (clusterKey x.req.core) id).pkg with
        denied := (unpark s (clusterKey x.req.core) id).pkg.denied ++ [id] } } x id := by
  unfold answerOp
  split
  · next y hy =>
    obtain rfl : y = x := Option.some.inj (hy.symm.trans hop)
    cases ok with
    | true => rfl
    | false =>
      cases hgang : gangAway (unpark s (clusterKey y.req.core) id) y.req.cx with
      | true => simp only [hgang]; rfl
      | false => simp only [hgang]; rfl
  · next hnone => exact absurd (hnone.symm.trans hop) nofun
theorem failRequest_kept {r : Request} {code : BitVec 8} : (failRequest s none r code).region = s.region ∧
    (failRequest s none r code).pkg = s.pkg ∧ (failRequest s none r code).cluster = s.cluster := by
  unfold failRequest
  dsimp only
  split <;> exact ⟨rfl, rfl, rfl⟩
section
variable {tag q page since : Nat} (hx : s.ev.x = tag) (htags : s.pkg.tags = [(tag, .page q page [id] since)]) (hwait : s.pkg.pageWait = [])
  (hpages : ∀ r ∈ s.region, r.2.pages = [])
include hx htags hwait hpages

/-- The answer to the only page request, where the answer of its operation leaves every gang without pages to await. -/
theorem exec_pageRequestResponse (hv : answerOp s.ev.ok { s with pkg := { s.pkg with tags := [] } } id = t) (hregion : t.region = s.region)
    (htwait : t.pkg.pageWait = s.pkg.pageWait) : exec .pageRequestResponse s = .next t := by
  have hkept : ∀ r ∈ t.region, r.2.pages = [] := by rwa [hregion]
  have hfind : s.pkg.tags.find? (fun e => e.1 == tag) = some (tag, .page q page [id] since) := by
    rw [htags]
    exact List.find?_cons_of_pos (beq_self_eq_true tag)
  have hdel : tdel s.pkg.tags tag = [] := by
    rw [htags]
    simp [tdel]
  show execPageRequestResponse s = _
  simp only [execPageRequestResponse, hx, hfind, hdel, List.foldl_cons, List.foldl_nil, hv]
  rw [foldl_pageAnswered hkept, grantTags_none _ (htwait.trans hwait)]
/-- The tag is free, and the cluster's fault buffer has an entry free. -/
def TagGone (s t : State) (x : XOp) (id : Nat) : Prop :=
  t.pkg.tags = [] ∧ SameMemory s t ∧ (clusterOf t (clusterKey x.req.core)).parked =
    (clusterOf s (clusterKey x.req.core)).parked.filter (fun n => n != id)
theorem pageRequestResponse_outcome (hop : opIn s id parkedPhase = some x) (hport : x.port = false) :
    (s.ev.ok = true → Runs .pageRequestResponse s fun t => TagGone s t x id ∧ { x with phase := .walk 3 0 } ∈ t.xops ∧
      Later t .translationWalk id 0 s.now) ∧
    (s.ev.ok = false → gangAway s x.req.cx = false → Runs .pageRequestResponse s fun t => TagGone s t x id ∧ FailsTo s t x.req 0x0D) ∧
    (s.ev.ok = false → gangAway s x.req.cx = true → Runs .pageRequestResponse s fun t => TagGone s t x id ∧
      { x with phase := .walk 3 0 } ∈ t.xops ∧ id ∈ t.pkg.denied) := by
  have hmem : x ∈ s.xops := List.mem_of_find?_eq_some hop
  have hanswer (ok : Bool) := answerOp_parked (s := { s with pkg := { s.pkg with tags := [] } }) (ok := ok) hop
  have hrun (t : State) := exec_pageRequestResponse (t := t) hx htags hwait hpages
  obtain ⟨cluster, agenda, hunpark, hparked⟩ := unpark_outcome (s := { s with pkg := { s.pkg with tags := [] } }) (id := id)
    (ck := clusterKey x.req.core)
  have hgang : gangAway (unpark { s with pkg := { s.pkg with tags := [] } } (clusterKey x.req.core) id) x.req.cx = gangAway s x.req.cx := by
    rw [hunpark]
    rfl
  rw [hgang] at hanswer
  have hgone : TagGone s (unpark { s with pkg := { s.pkg with tags := [] } } (clusterKey x.req.core) id) x id := by
    refine ⟨?_, ?_, hparked⟩
    · rw [hunpark]
    · rw [hunpark]
      exact sameMemory_of rfl rfl rfl rfl rfl
  generalize unpark { s with pkg := { s.pkg with tags := [] } } (clusterKey x.req.core) id = u at *
  refine ⟨fun hok => ?_, fun hok haway => ?_, fun hok haway => ?_⟩
  · have hgo := hanswer s.ev.ok
    rw [if_neg (fun h => by rw [hok] at h; cases h.1), if_pos hok] at hgo
    obtain ⟨htag, hsame, hcl⟩ := hgone
    refine ⟨_, hrun _ hgo (by rw [hunpark]; rfl) (by rw [hunpark]; rfl), ⟨htag, ?_, hcl⟩, mem_putOp (by rw [hunpark]; exact hmem), ?_⟩
    · exact sameMemory_trans hsame (sameMemory_of rfl rfl rfl rfl rfl)
    · rw [show s.now = u.now by rw [hunpark]]
      exact later_schedule
  · have hgo := hanswer s.ev.ok
    rw [if_pos ⟨hok, haway⟩] at hgo
    have hfail : failOp u x cPageFault = failRequest (dropOp u x) none x.req cPageFault := by
      rw [failOp_eq, released, hport]
      rfl
    obtain ⟨hregion, hpkg, hcluster⟩ := failRequest_kept (s := dropOp u x) (r := x.req) (code := cPageFault)
    obtain ⟨htag, hsame, hcl⟩ := hgone
    obtain ⟨hmemory, hfails⟩ := fails_failOp (s := s) (t := u) (x := x) (code := cPageFault) hsame (by rw [hunpark]; rfl)
    refine ⟨_, hrun _ hgo ?_ ?_, ⟨?_, hmemory, ?_⟩, hfails⟩
    · rw [hfail, hregion, hunpark]
      rfl
    · rw [hfail, hpkg, hunpark]
      rfl
    · rw [hfail, hpkg]
      exact htag
    · rw [hfail, clusterOf, hcluster]
      exact hcl
  · have hgo := hanswer s.ev.ok
    rw [if_neg (fun h => by rw [haway] at h; cases h.2), if_neg (by rw [hok]; decide)] at hgo
    obtain ⟨htag, hsame, hcl⟩ := hgone
    refine ⟨_, hrun _ hgo (by rw [hunpark]; rfl) (by rw [hunpark]; rfl), ⟨htag, ?_, hcl⟩, mem_putOp (by rw [hunpark]; exact hmem),
      List.mem_append_right _ (List.mem_singleton_self id)⟩
    exact sameMemory_trans hsame (sameMemory_of rfl rfl rfl rfl rfl)
end

/-! ## The deadline of a fault (R361) -/

theorem pfDeadline_outcome {n : Nat} (hx : s.ev.x = n) (hmine : parkedOf s n ≠ []) (hst : (regionOf s n).st = .running)
    (hstop : (regionOf s n).stopping = false) (hpages : (regionOf s n).pages = []) :
    let due := ((parkedOf s n).map (fun p => p.2)).foldl min s.now + faultTicks s
    (s.now < due → Runs .pfDeadline s fun t => Later t .pfDeadline n s.ev.y due ∧ t.region = s.region) ∧
    (due ≤ s.now → noRollback s n = true → Runs .pfDeadline s fun t => Later t .gangStop n 0 s.now ∧ (regionOf t n).pages ≠ []) ∧
    (due ≤ s.now → noRollback s n = false → Runs .pfDeadline s fun t => RollsBack s t n 0x0D ∧ (regionOf t n).pages ≠ []) := by
  intro due
  have hkeys : ((parkedOf s n).map (fun p => p.1)).eraseDups ≠ [] := by
    obtain ⟨p, hp⟩ := List.exists_mem_of_ne_nil _ hmine
    exact List.ne_nil_of_mem (List.mem_eraseDups.mpr (List.mem_map.mpr ⟨p, hp, rfl⟩))
  have hrun : exec .pfDeadline s = if s.now < due then .next (schedule s due .pfDeadline s.ev)
      else if noRollback s n then
        .next (schedule (setRegion s n { regionOf s n with pages := ((parkedOf s n).map (fun p => p.1)).eraseDups }) s.now .gangStop
          (evArgs n 0 0))
      else .next (consumeError (setRegion s n { regionOf s n with pages := ((parkedOf s n).map (fun p => p.1)).eraseDups }) n cPageFault) := by
    show execPfDeadline s = _
    simp only [execPfDeadline, hx, List.isEmpty_eq_false_iff.mpr hmine, hst, hstop, hpages]
    rfl
  refine ⟨fun hearly => ?_, fun hdue hnorb => ?_, fun hdue hnorb => ?_⟩
  · rw [if_pos hearly] at hrun
    exact ⟨_, hrun, hx ▸ later_schedule, rfl⟩
  · rw [if_neg (Nat.not_lt.mpr hdue), if_pos hnorb] at hrun
    refine ⟨_, hrun, later_schedule, ?_⟩
    show (regionOf (setRegion s n _) n).pages ≠ []
    rwa [regionOf_setRegion_same]
  · rw [if_neg (Nat.not_lt.mpr hdue), if_neg (by rw [hnorb]; decide)] at hrun
    refine ⟨_, hrun, ⟨error_consumeError, later_schedule⟩, ?_⟩
    show (regionOf (setRegion (setRegion s n _) n _) n).pages ≠ []
    rw [regionOf_setRegion_same, regionOf_setRegion_same]
    exact hkeys
end

theorem homeRead_tier2 {s : State} {pa : W64} {m : Nat} (h : field pa 58 4 = 2) : homeRead s pa m = memBytes s.tier2 (field pa 0 44) m := by
  simp only [homeRead, bits_eq_field pa 61 58 4 rfl, h, bits_eq_field pa 43 0 44 rfl]
theorem homeRead_host {s : State} {pa : W64} {m : Nat} (h : field pa 58 4 = 5) : homeRead s pa m = memBytes s.host (field pa 0 57) m := by
  simp only [homeRead, bits_eq_field pa 61 58 4 rfl, h, bits_eq_field pa 56 0 57 rfl]
/-- Settles O49, step by step: walks and their levels, lines mended, the die's copy, home, the second tier, page answers, deadlines. -/
theorem memoryOperationsAct : Obligations.MemoryOperationsAct := by
  unfold Obligations.MemoryOperationsAct
  refine ⟨?_, ?_, ?_, ?_, ?_, ?_, ?_, ?_⟩
  · intro s id level table x hx hunder htable hop hgang
    exact translationWalk_outcome hx hunder.2.1 hunder.2.2 (mem_of_under hunder) htable hop hgang
  · intro s level va table _
    exact walkLevel_outcome level va table
  · intro s die line i c hc hue hout hi
    exact mendLine_uncorrectable hc hue hout hi
  · intro s id x hx hunder die a n home cached
    refine ⟨fun hspace hout => reservoirAccess_home hx hunder hspace hout, ?_⟩
    intro waits rollsBack
    refine ⟨fun hspace hp hamo hwait => reservoirAccess_waits hx hunder hspace hp hamo hwait, fun hspace hp hwait => ⟨?_, ?_⟩, ?_⟩
    · intro m hkind hengine
      have hamo : isAmo x.req = false := by rw [isAmo, hkind]
      obtain rfl : m = n := by
        show m = requestSize x.req
        rw [requestSize, hkind]
      exact ⟨fun hcached => (reservoirAccess_hit hx hunder hspace hp hamo hwait hkind hengine hcached).1,
        fun hcached => (reservoirAccess_hit hx hunder hspace hp hamo hwait hkind hengine hcached).2,
        fun hmiss => reservoirAccess_miss hx hunder hspace hp hamo hwait hkind hmiss⟩
    · intro m v hkind hm _
      have hamo : isAmo x.req = false := by rw [isAmo, hkind]
      obtain ⟨t, hrun, hmem, hop, hlater, hview⟩ := reservoirAccess_write hx hunder hspace hp hamo hwait hkind hm
      exact ⟨t, hrun, hmem, ⟨_, hop, rfl⟩, hlater, hview⟩
    · intro m hspace hkind hengine hwait
      exact reservoirAccess_pinned hx hunder hspace hkind hengine hwait
  · intro s id x hx hunder hengine die a rollsBack
    refine ⟨fun m hkind hm => hbmRead_outcome hx hunder hengine hkind hm,
      fun op m v c hkind hbad => hbmWrite_poisoned hx hunder hkind hbad, fun hspace hmigs hwf => ?_⟩
    intro stored
    exact ⟨fun m v hkind _ hapart => hbmWrite_write hx hunder hengine hspace hmigs hwf hkind hapart,
      fun op m v c hkind hm hgood hapart => hbmWrite_amo hx hunder hengine hspace hmigs hwf hkind hm hgood hapart⟩
  · intro s id x hx hunder hengine hgone a
    refine ⟨fun m hkind hspace hok hgood => ?_, fun m hkind hspace hok => ?_,
      fun m hkind hok => secondTierAccess_poisoned hx hunder hgone hkind hok,
      fun m v hkind hspace hwf => secondTierAccess_host hx hunder hgone hengine hkind hspace hwf⟩
    · have hread := secondTierAccess_read hx hunder hgone hengine hkind hok hgood
      rwa [homeRead_tier2 hspace] at hread
    · have hgood : physBad s x.pa m = false := by simp only [physBad, bits_eq_field x.pa 61 58 4 rfl, hspace]
      have hread := secondTierAccess_read hx hunder hgone hengine hkind hok hgood
      rwa [homeRead_host hspace] at hread
  · intro s tag q page since id x hx htags hwait hpages hop hport gone
    exact pageRequestResponse_outcome hx htags hwait hpages hop hport
  · intro s n hx hmine hst hstop hpages
    exact pfDeadline_outcome hx hmine hst hstop hpages
end Sys2Proof.Machine
end

