-- ==== Sys2Proof/Proofs/EngineFrames.lean ====
section
/-! PROOF. SUPPORT. What an engine's access leaves of the engines themselves: the time, the step's operands, the jobs of the package's engines and
of the copy engines (05_core_memory, R169, R170; 13_package_memory, R367, R368). -/
namespace Sys2Proof.Machine
open Sys2Proof.Claims

/-- What the steps of the engines go by: the time, the operands of the step, the jobs of the package's engines and of the copy engines. -/
def engineView (s : State) : Nat × EvArgs × List XJob × (Nat → Vector (List CopyJob) 2) :=
  (s.now, s.ev, s.pkg.xjobs, fun k => (clusterOf s k).cq)

section
variable {s t : State}

theorem now_of_engineView (h : engineView t = engineView s) : t.now = s.now := congrArg Prod.fst h
theorem ev_of_engineView (h : engineView t = engineView s) : t.ev = s.ev := congrArg (fun v => v.2.1) h
theorem xjobs_of_engineView (h : engineView t = engineView s) : t.pkg.xjobs = s.pkg.xjobs := congrArg (fun v => v.2.2.1) h
theorem cq_of_engineView (h : engineView t = engineView s) (k : Nat) : (clusterOf t k).cq = (clusterOf s k).cq :=
  congrFun (congrArg (fun v => v.2.2.2) h) k

/-! ## Parts of the state replaced -/

@[simp] theorem engineView_setCore (s : State) (k : Nat) (c : Core) : engineView (setCore s k c) = engineView s := rfl
@[simp] theorem engineView_setCtx (s : State) (k c : Nat) (x : Ctx) : engineView (setCtx s k c x) = engineView s := rfl
@[simp] theorem engineView_setDie (s : State) (k : Nat) (d : Die) : engineView (setDie s k d) = engineView s := rfl
@[simp] theorem engineView_setGroup (s : State) (k : Nat) (g : Group) : engineView (setGroup s k g) = engineView s := rfl
@[simp] theorem engineView_setQueue (s : State) (k : Nat) (q : Queue) : engineView (setQueue s k q) = engineView s := rfl
@[simp] theorem engineView_setRegion (s : State) (k : Nat) (r : Region) : engineView (setRegion s k r) = engineView s := rfl
@[simp] theorem engineView_schedule (s : State) (due : Nat) (op : Instr) (args : EvArgs) :
    engineView (schedule s due op args) = engineView s := rfl
@[simp] theorem engineView_agenda (s : State) (l : List Pending) : engineView { s with agenda := l } = engineView s := rfl
@[simp] theorem engineView_fab (s : State) (f : Fabric) : engineView { s with fab := f } = engineView s := rfl
@[simp] theorem engineView_nextId (s : State) (n : Nat) : engineView { s with nextId := n } = engineView s := rfl
@[simp] theorem engineView_host (s : State) (m : Memory) : engineView { s with host := m } = engineView s := rfl
theorem engineView_codes (s : State) (codes : SMap (BitVec 4)) (poison corr : List Nat) :
    engineView { s with hbmMeta := codes, hbmPoison := poison, hbmCorr := corr } = engineView s := rfl
@[simp] theorem engineView_addXOp (s : State) (x : XOp) (op : Instr) (n : Nat) : engineView (addXOp s x op n) = engineView s := rfl
/-- A cluster replaced by one with the same copies. -/
theorem engineView_setCluster {k : Nat} {c : Cluster} (h : c.cq = (clusterOf s k).cq) : engineView (setCluster s k c) = engineView s := by
  have hcq : (fun j => (clusterOf (setCluster s k c) j).cq) = fun j => (clusterOf s j).cq := by
    funext j
    by_cases hj : k = j
    · subst hj
      rw [clusterOf_setCluster_same, h]
    · rw [clusterOf_setCluster_other _ _ _ _ hj]
  show (s.now, s.ev, s.pkg.xjobs, fun j => (clusterOf (setCluster s k c) j).cq) = _
  rw [hcq]
  rfl
theorem engineView_foldl {α : Type} {f : State → α → State} (h : ∀ s a, engineView (f s a) = engineView s) (l : List α) (s : State) :
    engineView (l.foldl f s) = engineView s := foldl_keeps h l s
theorem engineView_counted (h : Counted s t) : engineView t = engineView s := by
  obtain ⟨_, _, _, rfl⟩ := h
  rfl
theorem engineView_copied {die : Nat} (h : Copied s t die) : engineView t = engineView s := by
  obtain ⟨_, _, _, _, _, _, rfl⟩ := h.rest
  rfl
theorem engineView_translated (h : Translated s t) : engineView t = engineView s := by
  have hcq : (fun k => (clusterOf t k).cq) = fun k => (clusterOf s k).cq := by
    funext k
    obtain ⟨_, hk⟩ := h.cluster k
    rw [hk]
  obtain ⟨_, _, _, _, _, _, rfl⟩ := h.rest
  exact congrArg (fun f => (s.now, s.ev, s.pkg.xjobs, f)) hcq

/-! ## Registers of cores and clusters -/

@[simp] theorem engineView_beginDoubling (die k : Nat) (v : VfRegion) : engineView (beginDoubling s die k v) = engineView s := by
  simp only [beginDoubling, apply_ite engineView, engineView_schedule, ite_self]
theorem engineView_requestVf (die k moved : Nat) : engineView (requestVf s die k moved) = engineView s := by
  simp only [requestVf, apply_ite engineView, engineView_schedule, engineView_setDie, engineView_agenda, ite_self]
@[simp] theorem engineView_writeVfr (die k : Nat) (w : W64) : engineView (writeVfr s die k w) = engineView s := by
  simp only [writeVfr, apply_ite engineView, engineView_requestVf, engineView_foldl fun s j => engineView_requestVf (s := s) die j _,
    engineView_setDie, ite_self]
@[simp] theorem engineView_writeRoute (k i v : Nat) : engineView (writeRoute s k i v) = engineView s := by
  simp only [writeRoute, apply_ite engineView, engineView_setCore, ite_self]
@[simp] theorem engineView_requestRouteSwitch (cl : Nat) : engineView (requestRouteSwitch s cl) = engineView s := by
  simp only [requestRouteSwitch, apply_ite engineView, engineView_agenda, engineView_setCluster, ite_self]
theorem engineView_leaveGroup (k f g : Nat) : engineView (leaveGroup s k f g) = engineView s := rfl
theorem engineView_joinGroup (k f g : Nat) : engineView (joinGroup s k f g) = engineView s :=
  engineView_foldl (fun s _ => engineView_schedule s _ _ _) _ _
@[simp] theorem engineView_setFilter (k f : Nat) (v : W64) : engineView (setFilter s k f v) = engineView s := by
  simp only [setFilter, apply_ite engineView, engineView_leaveGroup, engineView_joinGroup, engineView_setCore, ite_self]
@[simp] theorem engineView_writeGroup (n : Nat) (br : Bool) (v : W64) : engineView (writeGroup s n br v) = engineView s := by
  simp only [writeGroup, apply_ite engineView, engineView_schedule, engineView_setGroup, ite_self]
theorem engineView_writeReg32 (k off : Nat) (m v : W32) : engineView (writeReg32 s k off m v) = engineView s := by
  simp [writeReg32, apply_ite engineView, engineView_setCluster]
theorem engineView_writeReg64 (k off : Nat) (old m v : W64) : engineView (writeReg64 s k off old m v) = engineView s := by
  simp [writeReg64, apply_ite engineView, engineView_setCluster]
  intros
  split
  · exact engineView_writeGroup ..
  · exact engineView_writeGroup ..
  · rw [apply_ite engineView, engineView_setGroup, ite_self]
  · rfl
theorem engineView_writeWord (k off : Nat) (m v : W64) : engineView (writeWord s k off m v) = engineView s := by
  unfold writeWord
  split
  · refine engineView_foldl (fun s i => ?_) _ _
    rw [apply_ite engineView, engineView_writeRoute, ite_self]
  · split
    · exact engineView_writeReg64 ..
    · simp only [apply_ite engineView, engineView_writeReg32, ite_self]
theorem engineView_writeRegBytes (k : Nat) (bs : List (Nat × Byte)) : engineView (writeRegBytes s k bs) = engineView s :=
  engineView_foldl (fun _ _ => engineView_writeWord ..) _ _

/-! ## Registers of the package -/

theorem engineView_writeQueueReg (n off : Nat) (v : W64) (low : Bool) : engineView (writeQueueReg s n off v low) = engineView s := by
  have hstep (s : State) (op : Instr) (w : Nat) : engineView (queueStep s n op w) = engineView s := rfl
  unfold writeQueueReg
  dsimp only
  split <;> simp only [apply_ite engineView, engineView_setQueue, hstep, ite_self]
theorem engineView_writeFabricReg (off : Nat) (v m : W64) : engineView (writeFabricReg s off v m) = engineView s := by
  have hroutes : engineView (writeFabricRoutes s off v m) = engineView s := by
    simp only [writeFabricRoutes, apply_ite engineView, engineView_fab, ite_self]
  simp only [writeFabricReg, apply_ite engineView, engineView_fab, engineView_schedule, hroutes, ite_self]
theorem engineView_pkg {p : Pkg} (h : p.xjobs = s.pkg.xjobs) : engineView { s with pkg := p } = engineView s := by
  show (s.now, s.ev, p.xjobs, fun k => (clusterOf s k).cq) = _
  rw [h]
  rfl
theorem engineView_writeRetire (v : W64) : engineView (writeRetire s v) = engineView s := by
  simp only [writeRetire, apply_ite engineView, engineView_schedule, engineView_pkg, ite_self]
theorem engineView_writeAttest (v : W64) : engineView (writeAttest s v) = engineView s := by
  simp only [writeAttest, apply_ite engineView, engineView_schedule, engineView_pkg, ite_self]
theorem engineView_writePkgWord (host : Bool) (off : Nat) (v m : W64) : engineView (writePkgWord s host off v m) = engineView s := by
  simp only [writePkgWord, apply_ite engineView, engineView_writeRetire, engineView_writeAttest, engineView_writeFabricReg,
    engineView_writeQueueReg, engineView_schedule, engineView_setQueue, engineView_setRegion, engineView_pkg, ite_self]
theorem engineView_writePkgBytes (host : Bool) (off : Nat) (bs : List Byte) : engineView (writePkgBytes s host off bs) = engineView s :=
  engineView_foldl (fun _ _ => engineView_writePkgWord ..) _ _

/-! ## The memory port -/

theorem engineView_logBlock (k : Nat) (writer : Option Nat) (blk : Nat) : engineView (logBlock s k writer blk) = engineView s := by
  unfold logBlock
  dsimp only
  split
  · rfl
  · simp only [apply_ite engineView, engineView_setRegion, engineView_setCtx, engineView_setCore, ite_self]
theorem engineView_storeBytes (k : Nat) (writer : Option Nat) (ps : List (Nat × Byte)) : engineView (storeBytes s k writer ps) = engineView s := by
  unfold storeBytes
  exact (engineView_setCore ..).trans (engineView_foldl (fun _ _ => engineView_logBlock ..) _ _)
theorem engineView_portWrite (k off : Nat) (bs : List Byte) (redirect : Bool) : engineView (portWrite s k off bs redirect) = engineView s := by
  unfold portWrite
  dsimp only
  split
  · exact engineView_storeBytes ..
  · exact (engineView_writeRegBytes ..).trans (engineView_storeBytes ..)
theorem engineView_countCorrected (k off n : Nat) : engineView (countCorrected s k off n) = engineView s := rfl

/-! ## Home -/

theorem engineView_hbmPut (a : Nat) (v : Byte) : engineView (hbmPut s a v) = engineView s := by
  unfold hbmPut
  split <;> rfl
theorem engineView_homeWriteLine (line : Nat) (bs : List (Nat × Byte)) (cmp : Bool) : engineView (homeWriteLine s line bs cmp) = engineView s := by
  have hput (t : State) : engineView (bs.foldl (fun s b => hbmPut s b.1 b.2) t) = engineView t := engineView_foldl (fun _ _ => engineView_hbmPut ..) _ _
  unfold homeWriteLine
  refine (engineView_codes ..).trans ((engineView_counted (counted_trans counted_countStack counted_countStack)).trans ((hput _).trans ?_))
  rw [apply_ite engineView, engineView_counted (counted_trans counted_countRead counted_countStack), ite_self]
theorem engineView_homeLines (ps : List (Nat × Byte)) (cmp : Bool) : engineView (homeLines s ps cmp) = engineView s :=
  engineView_foldl (fun _ _ => engineView_homeWriteLine ..) _ _
theorem engineView_tier2Write (ps : List (Nat × Byte)) : engineView (tier2Write s ps) = engineView s :=
  engineView_foldl (fun _ _ => engineView_counted counted_countStack) _ _
theorem engineView_placeWrite (pa : W64) (ps : List (Nat × Byte)) (cmp : Bool) : engineView (placeWrite s pa ps cmp) = engineView s := by
  unfold placeWrite
  split
  · exact engineView_homeLines ..
  · exact engineView_tier2Write ..
theorem engineView_forkWrite (pa : W64) (bs : List Byte) (m : Migration) : engineView (forkWrite s pa bs m) = engineView s := by
  unfold forkWrite
  dsimp only
  split
  · rfl
  · exact (engineView_counted counted_countStack).trans (engineView_placeWrite ..)
theorem engineView_forkedWrite (pa : W64) (bs : List Byte) (cmp : Bool) : engineView (forkedWrite s pa bs cmp) = engineView s :=
  (engineView_foldl (fun _ _ => engineView_forkWrite ..) _ _).trans (engineView_placeWrite ..)
theorem engineView_physHomeWrite (pa : W64) (bs : List Byte) (cmp : Bool) : engineView (physHomeWrite s pa bs cmp) = engineView s := by
  unfold physHomeWrite
  split
  · exact engineView_forkedWrite ..
  · exact engineView_forkedWrite ..
  · rfl
  · rfl

/-! ## Writes of engines -/

theorem engineView_engineWrite (c : Command) (a pa : W64) (cmp : Bool) (bs : List Byte) : engineView (engineWrite s c a pa cmp bs) = engineView s := by
  unfold engineWrite
  split
  · exact engineView_portWrite ..
  · exact (engineView_addXOp ..).trans ((engineView_copied copied_dieWrite).trans (engineView_nextId ..))
  · exact engineView_writePkgBytes ..
  · exact engineView_addXOp ..
theorem engineView_finishWrite (c : Command) (a pa : W64) (cmp home : Bool) (bs : List Byte) :
    engineView (finishWrite s c a pa cmp home bs) = engineView s := by
  rw [finishWrite, apply_ite engineView, engineView_physHomeWrite, engineView_engineWrite, ite_self]
theorem engineView_meetExit (n : Nat) (e : Exit) : engineView (meetExit s n e).2 = engineView s := by
  unfold meetExit
  dsimp only
  split
  · rfl
  · split <;> rfl
theorem engineView_leaveWrite (c : Command) (a pa : W64) (cmp home : Bool) (bs : List Byte) :
    engineView (leaveWrite s c a pa cmp home bs) = engineView s := by
  unfold leaveWrite
  split
  · exact engineView_finishWrite ..
  · next n e _ =>
    have hmeet := engineView_meetExit (s := s) n e
    split
    · next o u hu =>
      rw [hu] at hmeet
      split
      · exact (engineView_finishWrite ..).trans hmeet
      · exact hmeet
    · next u hu =>
      rw [hu] at hmeet
      exact hmeet
/-- The state of a scatter's pieces, written one after another. -/
theorem engineView_pieces {f : List Byte × State → Piece → List Byte × State} (h : ∀ w p, engineView (f w p).2 = engineView w.2)
    (ps : List Piece) (w : List Byte × State) : engineView (ps.foldl f w).2 = engineView w.2 := by
  induction ps generalizing w with
  | nil => rfl
  | cons p ps ih => exact (ih (f w p)).trans (h w p)

/-! ## Accesses of engines -/

theorem translated_reach (k q : Nat) (a : W64) (write : Bool) : Translated s (reach s k q a write).2 := by
  have htranslate : Translated s (translate s k q (bits a 47 0) write).2 := translated_translate
  unfold reach
  split
  · split <;> exact translated_refl s
  · split
    all_goals
      next h =>
        rw [h] at htranslate
        exact htranslate
  · exact translated_refl s
theorem translated_reachPieces (k q : Nat) (a : W64) (n : Nat) (write : Bool) (m : Nat) : Translated s (reachPieces s k q a n write m).2 := by
  induction m generalizing s a n with
  | zero => exact translated_refl s
  | succ m ih =>
    have hreach := translated_reach (s := s) k q a write
    unfold reachPieces
    dsimp only
    split
    · next u hu =>
      rw [hu] at hreach
      split
      · exact hreach
      · split
        · exact hreach
        · have hrest := translated_trans hreach (ih (s := u) (a := a + BitVec.ofNat 64 (firstPiece a n)) (n := n - firstPiece a n))
          split
          · next h =>
            rw [h] at hrest
            exact hrest
          · exact hrest
    all_goals
      next hu =>
        rw [hu] at hreach
        exact hreach
end
end Sys2Proof.Machine
end

