-- ==== Sys2Proof/Proofs/Invalidations.lean ====
section
/-! PROOF. Invalidations of TLB entries (13_package_memory, R362, R371). -/
namespace Sys2Proof.Machine
open Sys2Proof.Claims

/-! ## Tables whose entries are all changed -/

theorem tget_map {α : Type} (f : α → α) (m : SMap α) {d : α} (hd : f d = d) (k : Nat) :
    tget (m.map (fun e => (e.1, f e.2))) d k = f (tget m d k) := by
  induction m with
  | nil => exact hd.symm
  | cons e m ih =>
    obtain ⟨i, x⟩ := e
    rw [List.map_cons, tget, tget, ih]
    split <;> rfl

section
variable {s t : State} {c : Command}

/-! ## An entry in a scope (R362, R371) -/

theorem entryIn_iff (sc : Nat × Nat × Nat) (e : TlbEntry) : entryIn sc e = true ↔ sc.1 = 2 ∨ (e.queue = sc.2.2 ∧
    (sc.1 = 1 ∨ (e.va ≤ sc.2.1 ∧ sc.2.1 < e.va + e.size))) := by
  simp only [entryIn, Bool.or_eq_true, Bool.and_eq_true, beq_iff_eq, decide_eq_true_eq]

/-! ## Entries dropped -/

/-- The entries of a TLB outside a scope. -/
def outside (sc : Nat × Nat × Nat) (ts : List TlbEntry) : List TlbEntry := ts.filter (fun t => !entryIn sc t)
theorem entryIn_of_outside {sc : Nat × Nat × Nat} {ts : List TlbEntry} {e : TlbEntry} (h : e ∈ outside sc ts) : entryIn sc e = false := by
  simpa using (List.mem_filter.mp h).2
theorem coreOf_invalidate (sc : Nat × Nat × Nat) (k : Nat) :
    coreOf (invalidate s sc) k = { coreOf s k with tlb := outside sc (coreOf s k).tlb } :=
  tget_map (fun c : Core => { c with tlb := outside sc c.tlb }) s.core rfl k
theorem clusterOf_invalidate (sc : Nat × Nat × Nat) (k : Nat) :
    clusterOf (invalidate s sc) k = { clusterOf s k with tlb := outside sc (clusterOf s k).tlb } :=
  tget_map (fun c : Cluster => { c with tlb := outside sc c.tlb }) s.cluster rfl k
theorem sameMemory_invalidate (sc : Nat × Nat × Nat) : SameMemory s (invalidate s sc) := by
  refine ⟨rfl, rfl, rfl, fun k => ?_, fun _ => rfl⟩
  rw [coreOf_invalidate]
  exact ⟨rfl, rfl, rfl⟩
/-- A walk in the scope begins again. -/
theorem walks_invalidate {sc : Nat × Nat × Nat} {x : XOp} (hx : x ∈ (invalidate s sc).xops) (hin : opIn01 sc x = true) {l : Nat} {a : W64}
    (hphase : x.phase = .walk l a) : l = 3 ∧ a = 0 := by
  obtain ⟨o, -, ho⟩ := List.mem_map.mp hx
  split at ho
  · split at ho
    · rw [← ho] at hphase
      simp only [XPhase.walk.injEq] at hphase
      exact ⟨hphase.1.symm, hphase.2.symm⟩
    · next hout => exact absurd (ho ▸ hin) hout
  · next hno =>
    rw [ho] at hno
    exact absurd hphase (hno l a)

/-! ## The step -/

section
variable {n f : Nat} {ids : List Nat} (hx : s.ev.x = c.id) (hinvals : s.pkg.invals = [(c, n, f, ids)])
include hx hinvals
theorem inval_found : s.pkg.invals.find? (fun v => v.1.id == s.ev.x) = some (c, n, f, ids) := by
  rw [hinvals, hx]
  simp
theorem tlbinvComplete_begins (hn : n = 0) :
    let sc := invalScope s c
    Runs .tlbinvComplete s fun t => SameMemory s t ∧ t.pkg.invals = [(c, 1, f, translatedOps s sc)] ∧
      (∀ k, (∀ e ∈ (coreOf t k).tlb, entryIn sc e = false) ∧ ∀ e ∈ (clusterOf t k).tlb, entryIn sc e = false) ∧
      (∀ k e, entryIn sc e = false → e ∈ (coreOf s k).tlb → e ∈ (coreOf t k).tlb) ∧
      (∀ x ∈ t.xops, opIn01 sc x = true → ∀ l a, x.phase = .walk l a → l = 3 ∧ a = 0) := by
  intro sc
  have hrun : exec .tlbinvComplete s = .next (again { invalidate s sc with pkg := { (invalidate s sc).pkg with
      invals := [(c, 1, f, translatedOps s sc)] } } .tlbinvComplete) := by
    show execTlbinvComplete s = _
    have hput : (invalidate s sc).pkg.invals.map (fun w => if w.1.id == c.id then (c, 1, f, translatedOps s sc) else w) =
        [(c, 1, f, translatedOps s sc)] := by
      rw [show (invalidate s sc).pkg.invals = [(c, n, f, ids)] from hinvals]
      simp
    rw [execTlbinvComplete, inval_found hx hinvals]
    subst hn
    rw [← hput]
    rfl
  refine ⟨_, hrun, ?_, rfl, fun k => ⟨fun e he => ?_, fun e he => ?_⟩, fun k e hout he => ?_, fun x hmem hin l a hphase => ?_⟩
  · exact sameMemory_trans (sameMemory_invalidate sc) (sameMemory_of rfl rfl rfl rfl rfl)
  · have he' : e ∈ (coreOf (invalidate s sc) k).tlb := he
    rw [coreOf_invalidate] at he'
    exact entryIn_of_outside he'
  · have he' : e ∈ (clusterOf (invalidate s sc) k).tlb := he
    rw [clusterOf_invalidate] at he'
    exact entryIn_of_outside he'
  · show e ∈ (coreOf (invalidate s sc) k).tlb
    rw [coreOf_invalidate]
    exact List.mem_filter.mpr ⟨he, by rw [hout]; rfl⟩
  · exact walks_invalidate hmem hin hphase
theorem tlbinvComplete_waits (hn : n ≠ 0) (hbusy : ∃ o ∈ s.xops, o.req.id ∈ ids) : exec .tlbinvComplete s = .next (again s .tlbinvComplete) := by
  obtain ⟨o, ho, hid⟩ := hbusy
  have hany : s.xops.any (fun o => ids.contains o.req.id) = true := List.any_eq_true.mpr ⟨o, ho, List.contains_iff_mem.mpr hid⟩
  show execTlbinvComplete s = _
  rw [execTlbinvComplete, inval_found hx hinvals]
  exact (if_neg (mt beq_iff_eq.mp hn)).trans (if_pos hany)
/-- An invalidation that is over, counted. -/
def invalidated (s : State) (c : Command) : State :=
  countXl { s with pkg := { s.pkg with invals := s.pkg.invals.filter (fun w => w.1.id != c.id) } } 5
theorem exec_tlbinvComplete_over (hn : n ≠ 0) (hidle : ∀ o ∈ s.xops, o.req.id ∉ ids) : exec .tlbinvComplete s = match c.op with
    | .migrate _ _ => .next (schedule (invalidated s c) s.now .migrationRelease s.ev)
    | _ => .next (completeCommand (invalidated s c) c.cx c.id c.tag) := by
  have hany : ¬ s.xops.any (fun o => ids.contains o.req.id) = true := fun h => by
    obtain ⟨o, ho, hid⟩ := List.any_eq_true.mp h
    exact hidle o ho (List.contains_iff_mem.mp hid)
  show execTlbinvComplete s = _
  rw [execTlbinvComplete, inval_found hx hinvals]
  refine ((if_neg (mt beq_iff_eq.mp hn)).trans (if_neg hany)).trans ?_
  cases c.op <;> rfl
omit hx in
theorem invals_invalidated : (invalidated s c).pkg.invals = [] := by
  show s.pkg.invals.filter (fun w => w.1.id != c.id) = []
  rw [hinvals]
  simp
theorem tlbinvComplete_ends (hn : n ≠ 0) (hidle : ∀ o ∈ s.xops, o.req.id ∉ ids) : Runs .tlbinvComplete s fun t => SameMemory s t ∧
    t.pkg.invals = [] ∧ (vget t.pkg.xlCnt 5 0).toNat = more (vget s.pkg.xlCnt 5 0) 1 ∧
    (∀ op va q, c.op = .tlbinv op va q → twinOf s c.cx = none → TagSet s t c.cx c.tag) ∧
    (∀ va pa, c.op = .migrate va pa → Later t .migrationRelease c.id s.ev.y s.now) := by
  have hmem : SameMemory s (invalidated s c) := sameMemory_of rfl rfl rfl rfl rfl
  have hcount : (vget (invalidated s c).pkg.xlCnt 5 0).toNat = more (vget s.pkg.xlCnt 5 0) 1 := by
    rw [← toNat_counted]
    exact congrArg BitVec.toNat (vget_vset_same _ _ _ _ (by omega))
  by_cases hmigrate : ∃ va pa, c.op = .migrate va pa
  · obtain ⟨va, pa, hop⟩ := hmigrate
    refine ⟨schedule (invalidated s c) s.now .migrationRelease s.ev, by rw [exec_tlbinvComplete_over hx hinvals hn hidle, hop],
      sameMemory_trans hmem sameMemory_schedule, invals_invalidated hinvals, hcount, fun op w q h => ?_, fun _ _ _ => ?_⟩
    · rw [hop] at h
      nomatch h
    · rw [← hx]
      exact later_schedule ..
  · have hrun : exec .tlbinvComplete s = .next (completeCommand (invalidated s c) c.cx c.id c.tag) := by
      rw [exec_tlbinvComplete_over hx hinvals hn hidle]
      split
      · next va pa hop => exact absurd ⟨va, pa, hop⟩ hmigrate
      · rfl
    obtain ⟨-, _, _, _, hsettled⟩ := settles_completeCommand (s := invalidated s c) (addr := c.cx) (id := c.id) (tag := c.tag)
    refine ⟨_, hrun, sameMemory_completed hmem, ?_, ?_, fun _ _ _ _ _ =>
      tagSet_before rfl (fun _ => rfl) (tagSet_completeCommand (invalidated s c) c.cx c.id c.tag), fun va pa h => absurd ⟨va, pa, h⟩ hmigrate⟩
    · rw [hsettled]
      exact invals_invalidated hinvals
    · rw [hsettled]
      exact hcount
end
end
end Sys2Proof.Machine
end

