-- ==== Sys2Proof/Proofs/HomeBytes.lean ====
section
/-! PROOF. What bytes written at home leave to read, in data and in the core map alike (13_package_memory, R363 to R365). -/
namespace Sys2Proof.Machine
open Sys2Proof.Claims

/-! ## What a write at home changes -/

section
variable {s t u : State}

/-- A state in which at most HBM, the core map, the lines' codes and poison, and the counters of the memory system differ. -/
def AtHome (s t : State) : Prop := ∃ hbm codes poison corr coreMap stackCnt sectors xlCnt, t = { s with
  hbm := hbm, hbmMeta := codes, hbmPoison := poison, hbmCorr := corr,
  pkg := { s.pkg with coreMap := coreMap, stackCnt := stackCnt, sectors := sectors, xlCnt := xlCnt } }

theorem atHome_counted (h : Counted s t) : AtHome s t := by
  obtain ⟨st, se, xl, rfl⟩ := h
  exact ⟨s.hbm, s.hbmMeta, s.hbmPoison, s.hbmCorr, s.pkg.coreMap, st, se, xl, rfl⟩
theorem atHome_refl (s : State) : AtHome s s := atHome_counted (counted_refl s)
theorem atHome_trans (h : AtHome s t) (h' : AtHome t u) : AtHome s u := by
  obtain ⟨_, _, _, _, _, _, _, _, rfl⟩ := h
  obtain ⟨a, b, c, d, e, f, g, i, rfl⟩ := h'
  exact ⟨a, b, c, d, e, f, g, i, rfl⟩
theorem mapSlot_atHome (h : AtHome s t) (a : Nat) : mapSlot t a = mapSlot s a := by
  obtain ⟨_, _, _, _, _, _, _, _, rfl⟩ := h
  rfl
theorem migs_atHome (h : AtHome s t) : t.pkg.migs = s.pkg.migs := by
  obtain ⟨_, _, _, _, _, _, _, _, rfl⟩ := h
  rfl

/-! ## One byte -/

/-- The entry of the core map behind a slot. -/
def slotEntry (s : State) (k : Nat) : W64 := tget s.pkg.coreMap (deliveryEntry (k / 256) (k % 256)) k
theorem hbmByte_data {a : Nat} (h : mapSlot s a = none) : hbmByte s a = memByte s.hbm a := by rw [hbmByte, h]
theorem hbmByte_map {a k : Nat} (h : mapSlot s a = some k) : hbmByte s a = (slotEntry s k).extractLsb' (8 * (a % 8)) 8 := by
  rw [hbmByte, h, slotEntry]
/-- An entry of the core map replaced. -/
def putSlot (s : State) (k : Nat) (e : W64) : State := { s with pkg := { s.pkg with coreMap := tput s.pkg.coreMap k e } }
theorem hbmPut_map {a k : Nat} {v : Byte} (h : mapSlot s a = some k) :
    hbmPut s a v = putSlot s k (putBits (slotEntry s k) (8 * (a % 8) + 7) (8 * (a % 8)) v.toNat) := by rw [hbmPut, h, putSlot, slotEntry]
theorem slotEntry_putSlot (k j : Nat) (e : W64) : slotEntry (putSlot s k e) j = if j = k then e else slotEntry s j := by
  by_cases h : j = k
  · rw [if_pos h, h]
    exact tget_tput_same ..
  · rw [if_neg h]
    exact tget_tput_other _ _ _ _ _ (Ne.symm h)
/-- Two bytes of one entry have different places in it. -/
theorem eq_of_mapSlot {a b k : Nat} (ha : mapSlot s a = some k) (hb : mapSlot s b = some k) (hplace : b % 8 = a % 8) : b = a := by
  unfold mapSlot at ha hb
  split at ha
  · next base hbase =>
    simp only [hbase] at hb
    split at ha
    · split at hb
      · next hina hinb =>
        simp only [Bool.and_eq_true, decide_eq_true_eq] at hina hinb
        injection ha with ha
        injection hb with hb
        omega
      · nomatch hb
    · nomatch ha
  · nomatch ha
theorem atHome_hbmPut (a : Nat) (v : Byte) : AtHome s (hbmPut s a v) := by
  unfold hbmPut
  split
  · exact ⟨s.hbm, s.hbmMeta, s.hbmPoison, s.hbmCorr, _, s.pkg.stackCnt, s.pkg.sectors, s.pkg.xlCnt, rfl⟩
  · exact ⟨_, s.hbmMeta, s.hbmPoison, s.hbmCorr, s.pkg.coreMap, s.pkg.stackCnt, s.pkg.sectors, s.pkg.xlCnt, rfl⟩
theorem hbmByte_hbmPut (hwf : memWf s.hbm = true) (a : Nat) (v : Byte) (b : Nat) :
    hbmByte (hbmPut s a v) b = if b = a then v else hbmByte s b := by
  have hslots := mapSlot_atHome (atHome_hbmPut (s := s) a v)
  cases ha : mapSlot s a with
  | none =>
    have hput : hbmPut s a v = { s with hbm := memPut s.hbm a v } := by rw [hbmPut, ha]
    cases hb : mapSlot s b with
    | none =>
      rw [hbmByte_data ((hslots b).trans hb), hbmByte_data hb, hput]
      by_cases hba : b = a
      · rw [if_pos hba, hba]
        exact memByte_memPut_same hwf a v
      · rw [if_neg hba]
        exact memByte_memPut_other hwf a b v (Ne.symm hba)
    | some k =>
      have hba : b ≠ a := fun h => by
        rw [h, ha] at hb
        nomatch hb
      rw [hbmByte_map ((hslots b).trans hb), hbmByte_map hb, if_neg hba, hput]
      rfl
  | some k =>
    cases hb : mapSlot s b with
    | none =>
      have hba : b ≠ a := fun h => by
        rw [h, ha] at hb
        nomatch hb
      rw [hbmByte_data ((hslots b).trans hb), hbmByte_data hb, if_neg hba, hbmPut_map ha, putSlot]
    | some j =>
      rw [hbmByte_map ((hslots b).trans hb), hbmByte_map hb, hbmPut_map ha, slotEntry_putSlot]
      by_cases hj : j = k
      · subst hj
        rw [if_pos rfl, extract_putBits (by omega) (by omega), BitVec.ofNat_toNat, BitVec.setWidth_eq]
        by_cases hba : b = a
        · rw [if_pos (by rw [hba]), if_pos hba]
        · rw [if_neg (mt (eq_of_mapSlot ha hb) hba), if_neg hba]
      · have hba : b ≠ a := fun h => by
          rw [h, ha] at hb
          exact hj (Option.some.inj hb).symm
        rw [if_neg hj, if_neg hba]

/-! ## Bytes that are given by one function -/

/-- The bytes at the given addresses become those that a function gives, and no other byte at home changes. -/
structure Rewrites (s t : State) (g : Nat → Byte) (at_ : List Nat) : Prop where
  rest : AtHome s t
  wf : memWf s.hbm = true → memWf t.hbm = true
  bytes : memWf s.hbm = true → ∀ b, hbmByte t b = if b ∈ at_ then g b else hbmByte s b

variable {g : Nat → Byte}
theorem rewrites_trans {l m : List Nat} (h : Rewrites s t g l) (h' : Rewrites t u g m) : Rewrites s u g (l ++ m) := by
  refine ⟨atHome_trans h.rest h'.rest, fun hwf => h'.wf (h.wf hwf), fun hwf b => ?_⟩
  rw [h'.bytes (h.wf hwf), h.bytes hwf]
  by_cases hm : b ∈ m <;> by_cases hl : b ∈ l <;> simp [hm, hl]
theorem hbmByte_of_counters {codes : SMap (BitVec 4)} {poison corr : List Nat} (h : Counted s t) (b : Nat) :
    hbmByte { t with hbmMeta := codes, hbmPoison := poison, hbmCorr := corr } b = hbmByte s b := by
  obtain ⟨_, _, _, rfl⟩ := h
  rfl
theorem rewrites_counters {codes : SMap (BitVec 4)} {poison corr : List Nat} (h : Counted s t) :
    Rewrites s { t with hbmMeta := codes, hbmPoison := poison, hbmCorr := corr } g [] := by
  refine ⟨?_, ?_, fun _ b => ?_⟩
  · obtain ⟨st, se, xl, rfl⟩ := h
    exact ⟨s.hbm, codes, poison, corr, s.pkg.coreMap, st, se, xl, rfl⟩
  · obtain ⟨_, _, _, rfl⟩ := h
    exact id
  · rw [hbmByte_of_counters h, if_neg List.not_mem_nil]
theorem rewrites_counted (h : Counted s t) : Rewrites s t g [] := rewrites_counters h
theorem rewrites_hbmPut {a : Nat} {v : Byte} (hv : v = g a) : Rewrites s (hbmPut s a v) g [a] := by
  refine ⟨atHome_hbmPut a v, fun hwf => ?_, fun hwf b => ?_⟩
  · unfold hbmPut
    split
    · exact hwf
    · exact memPut_wf hwf a v
  · rw [hbmByte_hbmPut hwf, hv]
    by_cases hba : b = a
    · rw [if_pos hba, if_pos (List.mem_singleton.mpr hba), hba]
    · rw [if_neg hba, if_neg (mt List.mem_singleton.mp hba)]
theorem rewrites_hbmPuts (ps : List (Nat × Byte)) (h : ∀ p ∈ ps, p.2 = g p.1) :
    Rewrites s (ps.foldl (fun s b => hbmPut s b.1 b.2) s) g (ps.map Prod.fst) := by
  induction ps generalizing s with
  | nil => exact rewrites_counted (counted_refl s)
  | cons p ps ih =>
    exact rewrites_trans (rewrites_hbmPut (h p List.mem_cons_self)) (ih fun q hq => h q (List.mem_cons_of_mem _ hq))
theorem rewrites_homeWriteLine {line : Nat} {ps : List (Nat × Byte)} {cmp : Bool} (h : ∀ p ∈ ps, p.2 = g p.1) :
    Rewrites s (homeWriteLine s line ps cmp) g (ps.map Prod.fst) := by
  have hread : Counted s (if ps.length == 128 then s else countStack (countRead s line) (stackOf (128 * line)) 3 1) := by
    split
    · exact counted_refl s
    · exact counted_trans counted_countRead counted_countStack
  unfold homeWriteLine
  dsimp only
  have hall := rewrites_trans (rewrites_counted (g := g) hread) (rewrites_hbmPuts ps h)
  rw [List.nil_append] at hall
  rw [← List.append_nil (ps.map Prod.fst)]
  exact rewrites_trans hall (rewrites_counters (counted_trans counted_countStack counted_countStack))
/-- The addresses of bytes, line by line. -/
def lineAddresses (ls : List Nat) (ps : List (Nat × Byte)) : List Nat :=
  ls.flatMap (fun l => (ps.filter (fun p => p.1 / 128 == l)).map Prod.fst)
theorem mem_lineAddresses {ps : List (Nat × Byte)} {b : Nat} :
    b ∈ lineAddresses ((ps.map (fun p => p.1 / 128)).eraseDups) ps ↔ b ∈ ps.map Prod.fst := by
  simp only [lineAddresses, List.mem_flatMap, List.mem_eraseDups, List.mem_map, List.mem_filter, beq_iff_eq]
  constructor
  · rintro ⟨_, _, p, ⟨hp, _⟩, hb⟩
    exact ⟨p, hp, hb⟩
  · rintro ⟨p, hp, hb⟩
    exact ⟨_, ⟨p, hp, rfl⟩, p, ⟨hp, rfl⟩, hb⟩
theorem rewrites_lines (ls : List Nat) {ps : List (Nat × Byte)} {cmp : Bool} (h : ∀ p ∈ ps, p.2 = g p.1) :
    Rewrites s (ls.foldl (fun s l => homeWriteLine s l (ps.filter (fun p => p.1 / 128 == l)) cmp) s) g (lineAddresses ls ps) := by
  induction ls generalizing s with
  | nil => exact rewrites_counted (counted_refl s)
  | cons l ls ih => exact rewrites_trans (rewrites_homeWriteLine fun p hp => h p (List.mem_filter.mp hp).1) ih
theorem rewrites_homeLines {ps : List (Nat × Byte)} {cmp : Bool} (h : ∀ p ∈ ps, p.2 = g p.1) :
    Rewrites s (homeLines s ps cmp) g (ps.map Prod.fst) := by
  obtain ⟨hrest, hwf, hbytes⟩ := rewrites_lines (s := s) (cmp := cmp) ((ps.map (fun p => p.1 / 128)).eraseDups) h
  refine ⟨hrest, hwf, fun h b => (hbytes h b).trans ?_⟩
  simp only [mem_lineAddresses]

/-! ## A write of consecutive bytes -/

theorem mem_placed {a : Nat} {bs : List Byte} {p : Nat × Byte} : p ∈ placed a bs ↔ ∃ i < bs.length, p = (a + i, bs.getD i 0) := by
  induction bs generalizing a with
  | nil => simp [placed]
  | cons b bs ih =>
    rw [placed, List.mem_cons, ih]
    constructor
    · rintro (rfl | ⟨i, hi, rfl⟩)
      · exact ⟨0, by simp, rfl⟩
      · exact ⟨i + 1, by simpa using hi, by rw [List.getD_cons_succ, Nat.add_assoc, Nat.add_comm 1 i]⟩
    · rintro ⟨i, hi, rfl⟩
      cases i with
      | zero => exact .inl rfl
      | succ i => exact .inr ⟨i, by simpa using hi, by rw [List.getD_cons_succ, Nat.add_assoc, Nat.add_comm 1 i]⟩
/-- The bytes of a list from an address on stand at home, and no other byte there changed. -/
structure PutHome (s t : State) (a : Nat) (bs : List Byte) : Prop where
  rest : AtHome s t
  bytes : memWf s.hbm = true → ∀ b, hbmByte t b = if a ≤ b ∧ b < a + bs.length then bs.getD (b - a) 0 else hbmByte s b
theorem putHome_placeWrite {pa : W64} {bs : List Byte} {cmp : Bool} (hspace : field pa 58 4 = 1) :
    PutHome s (placeWrite s pa (placed 0 bs) cmp) (field pa 0 41) bs := by
  have hplace : placeWrite s pa (placed 0 bs) cmp = homeLines s ((placed 0 bs).map (fun p => (field pa 0 41 + p.1, p.2))) cmp := by
    simp only [placeWrite, bits_eq_field pa 61 58 4 rfl, hspace, bits_eq_field pa 40 0 41 rfl]
  have hmem (p : Nat × Byte) : p ∈ (placed 0 bs).map (fun p => (field pa 0 41 + p.1, p.2)) ↔
      ∃ i < bs.length, p = (field pa 0 41 + i, bs.getD i 0) := by
    simp only [List.mem_map, mem_placed]
    constructor
    · rintro ⟨_, ⟨i, hi, rfl⟩, rfl⟩
      exact ⟨i, hi, by simp⟩
    · rintro ⟨i, hi, rfl⟩
      exact ⟨_, ⟨i, hi, rfl⟩, by simp⟩
  obtain ⟨hrest, -, hbytes⟩ := rewrites_homeLines (s := s) (cmp := cmp) (g := fun b => bs.getD (b - field pa 0 41) 0)
    (ps := (placed 0 bs).map (fun p => (field pa 0 41 + p.1, p.2))) fun p hp => by
      obtain ⟨i, -, rfl⟩ := (hmem p).mp hp
      simp
  rw [hplace]
  refine ⟨hrest, fun hwf b => (hbytes hwf b).trans (if_congr ?_ rfl rfl)⟩
  rw [List.mem_map]
  constructor
  · rintro ⟨p, hp, rfl⟩
    obtain ⟨i, hi, rfl⟩ := (hmem p).mp hp
    simp only
    omega
  · exact fun hb => ⟨_, (hmem _).mpr ⟨b - field pa 0 41, by omega, rfl⟩, by simp only; omega⟩
end
end Sys2Proof.Machine
end

