-- ==== Sys2Proof/Proofs/Migrations.lean ====
section
/-! PROOF. Migrations of pages (13_package_memory, R369, R371). -/
namespace Sys2Proof.Machine
open Sys2Proof.Claims

section
variable {s t u : State} {m : Migration}

/-! ## The only migration -/

theorem migOf_only (hx : s.ev.x = m.cmd.id) (hmigs : s.pkg.migs = [m]) : migOf s s.ev.x = some m := by
  rw [migOf, hmigs, hx]
  simp
theorem migs_dropMig (hmigs : s.pkg.migs = [m]) : (dropMig s m.cmd.id).pkg.migs = [] := by
  show s.pkg.migs.filter (fun n => n.cmd.id != m.cmd.id) = []
  rw [hmigs]
  simp
theorem migs_setMig {n : Migration} (hmigs : s.pkg.migs = [m]) (hid : n.cmd = m.cmd) : (setMig s n).pkg.migs = [n] := by
  show s.pkg.migs.map (fun o => if o.cmd.id == n.cmd.id then n else o) = [n]
  rw [hmigs, hid]
  simp
theorem migs_counted (h : Counted s t) : t.pkg.migs = s.pkg.migs := by
  obtain ⟨_, _, _, rfl⟩ := h
  rfl
theorem sameMemory_dropMig {n : Nat} : SameMemory s (dropMig s n) := sameMemory_of rfl rfl rfl rfl rfl
theorem sameMemory_setMig {n : Migration} : SameMemory s (setMig s n) := sameMemory_of rfl rfl rfl rfl rfl

/-! ## How a migration ends early -/

theorem counted_countPoison {pa : W64} : Counted s (countPoison s pa) := by
  unfold countPoison
  split
  · exact counted_countStack
  · exact counted_refl s
/-- The migration is undone: nothing is written, no message leaves, and the gang of its command rolls back. -/
def Undone (s t : State) (m : Migration) : Prop :=
  SameMemory s t ∧ t.pkg.migs = [] ∧ t.msgs = s.msgs ∧ (regionOf t (regionOfCtx s m.cmd.cx)).error = some 0x07
theorem undone_commandError (hmem : SameMemory s t) (hmigs : t.pkg.migs = []) (hmsgs : t.msgs = s.msgs)
    (hregion : regionOfCtx t m.cmd.cx = regionOfCtx s m.cmd.cx) : Undone s (commandError t m.cmd) m := by
  refine ⟨sameMemory_trans hmem sameMemory_consumeError, hmigs, hmsgs, ?_⟩
  rw [← hregion]
  exact error_consumeError
theorem undone_counted (h : Counted s t) (hmigs : s.pkg.migs = [m]) : Undone s (commandError (dropMig t m.cmd.id) m.cmd) m := by
  refine undone_commandError (sameMemory_trans (sameMemory_counted h) sameMemory_dropMig) (migs_dropMig ((migs_counted h).trans hmigs)) ?_ ?_
  · obtain ⟨_, _, _, rfl⟩ := h
    rfl
  · obtain ⟨_, _, _, rfl⟩ := h
    rfl
theorem undone_dropped (h : Counted (dropMig s m.cmd.id) t) (hmigs : s.pkg.migs = [m]) : Undone s (commandError t m.cmd) m := by
  refine undone_commandError (sameMemory_trans sameMemory_dropMig (sameMemory_counted h)) ((migs_counted h).trans (migs_dropMig hmigs)) ?_ ?_
  · obtain ⟨_, _, _, heq⟩ := h
    rw [heq]
    rfl
  · obtain ⟨_, _, _, heq⟩ := h
    rw [heq]
    rfl
theorem failsCommand_failCommand {c : Command} {code : BitVec 8} (hmap : coreOfAddr t c.cx = coreOfAddr s c.cx) :
    FailsCommand s (failCommand t c code) c code := by
  intro dst hdst
  rw [failCommand, hmap, hdst]
  exact ⟨_, List.mem_append_right _ (List.mem_singleton_self _), rfl, rfl⟩
theorem migs_failCommand {c : Command} {code : BitVec 8} : (failCommand t c code).pkg.migs = t.pkg.migs := by
  unfold failCommand
  split <;> rfl

/-! ## The fork -/

theorem counted_leafPlace {q va : Nat} : Counted s (leafPlace s q va).2.2 := by
  unfold leafPlace
  split
  · exact counted_countWalk
  · exact counted_refl s
theorem space10Ok_counted (h : Counted s t) (a : W64) (n : Nat) : space10Ok t a n = space10Ok s a n := by
  obtain ⟨_, _, _, rfl⟩ := h
  rfl
/-- A migration whose fork is entered. -/
def forked (m : Migration) (size : Nat) (e : W64) (at_ : Nat) : Migration where
  cmd := m.cmd
  size := size
  old := entryTarget e
  new := m.new
  leafAt := at_
  leaf := e
  cmp := decide (field e 60 1 = 1 ∧ field m.new 58 4 = 1)
  phase := .copying 0

section
variable {va e : W64} {size at_ : Nat} (hx : s.ev.x = m.cmd.id) (hmigs : s.pkg.migs = [m]) (hop : m.cmd.op = .migrate va m.new)
  (hphase : m.phase = .waiting)
include hx hmigs hop hphase

theorem exec_migrationFork (hleaf : leafPlace s (commandQueue s m.cmd) (field va 0 48) = (.leaf e size, at_, u)) : exec .migrationFork s =
    if m.new.toNat % size != 0 || !((entryTarget e).toNat + size ≤ m.new.toNat || m.new.toNat + size ≤ (entryTarget e).toNat) ||
        !space10Ok u m.new size || bits (entryTarget e) 61 58 == 5 then .next (failCommand (dropMig u m.cmd.id) m.cmd cRange)
    else if !forkFree u (entryTarget e) size then .next (again u .migrationFork)
    else .next (schedule (setMig u (forked m size e at_)) (u.now + 1) .migrationCopyLine u.ev) := by
  have hfound := migOf_only hx hmigs
  have hcmp : (bitAt e 60 && bits m.new 61 58 == 1) = decide (field e 60 1 = 1 ∧ field m.new 58 4 = 1) := by
    rw [bits_eq_field m.new 61 58 4 rfl, bitAt_eq_decide, Bool.decide_and]
    rfl
  rw [forked, ← hcmp]
  obtain ⟨c, size0, old, new, leafAt, leaf, cmp, phase⟩ := m
  subst hphase
  show execMigrationFork s = _
  have hva : bits va 47 0 = field va 0 48 := bits_eq_field va 47 0 48 rfl
  simp only at hop hleaf
  simp only [execMigrationFork, hfound, hop, hva, hleaf]
theorem migrationFork_poisoned (hleaf : leafPlace s (commandQueue s m.cmd) (field va 0 48) = (.poisoned, at_, u)) :
    Runs .migrationFork s fun t => Undone s t m := by
  have hcount : Counted s u := by
    have h := counted_leafPlace (s := s) (q := commandQueue s m.cmd) (va := field va 0 48)
    rwa [hleaf] at h
  have hfound := migOf_only hx hmigs
  refine ⟨commandError (dropMig u m.cmd.id) m.cmd, ?_, undone_counted hcount hmigs⟩
  obtain ⟨c, size0, old, new, leafAt, leaf, cmp, phase⟩ := m
  subst hphase
  show execMigrationFork s = _
  have hva : bits va 47 0 = field va 0 48 := bits_eq_field va 47 0 48 rfl
  simp only at hop hleaf
  simp only [execMigrationFork, hfound, hop, hva, hleaf]
/-- Whether the new place of a page fits. -/
def PageFits (s : State) (m : Migration) (e : W64) (size : Nat) : Prop :=
  m.new.toNat % size = 0 ∧ ((entryTarget e).toNat + size ≤ m.new.toNat ∨ m.new.toNat + size ≤ (entryTarget e).toNat) ∧
    space10Ok s m.new size = true ∧ field (entryTarget e) 58 4 ≠ 5
theorem migrationFork_outcome (hleaf : leafPlace s (commandQueue s m.cmd) (field va 0 48) = (.leaf e size, at_, u)) :
    (PageFits s m e size → forkFree u (entryTarget e) size = false → Runs .migrationFork s fun t => SameMemory s t ∧ t.pkg.migs = [m] ∧
      LaterOf t .migrationFork m.cmd.id s.ev.y s.ev.z) ∧
    (PageFits s m e size → forkFree u (entryTarget e) size = true → Runs .migrationFork s fun t => SameMemory s t ∧
      LaterOf t .migrationCopyLine m.cmd.id s.ev.y s.ev.z ∧ t.pkg.migs = [forked m size e at_]) ∧
    (¬ PageFits s m e size → Runs .migrationFork s fun t => t.pkg.migs = [] ∧ FailsCommand s t m.cmd 0x09) := by
  have hcount : Counted s u := by
    have h := counted_leafPlace (s := s) (q := commandQueue s m.cmd) (va := field va 0 48)
    rwa [hleaf] at h
  have hrun := exec_migrationFork hx hmigs hop hphase hleaf
  have hfits : (m.new.toNat % size != 0 || !((entryTarget e).toNat + size ≤ m.new.toNat || m.new.toNat + size ≤ (entryTarget e).toNat) ||
      !space10Ok u m.new size || bits (entryTarget e) 61 58 == 5) = true ↔ ¬ PageFits s m e size := by
    rw [space10Ok_counted hcount, bits_eq_field _ 61 58 4 rfl, PageFits]
    simp only [Bool.or_eq_true, bne_iff_ne, Bool.not_eq_true', Bool.or_eq_false_iff, decide_eq_false_iff_not, beq_iff_eq]
    grind
  have hev : u.ev = s.ev := by
    obtain ⟨_, _, _, rfl⟩ := hcount
    rfl
  have hmem := sameMemory_counted hcount
  have hmigs' : u.pkg.migs = [m] := (migs_counted hcount).trans hmigs
  refine ⟨fun hfit hfree => ?_, fun hfit hfree => ?_, fun hfit => ?_⟩
  · rw [if_neg (mt hfits.mp (not_not_intro hfit)), if_pos (by rw [hfree]; rfl)] at hrun
    refine ⟨_, hrun, sameMemory_trans hmem sameMemory_schedule, hmigs', ?_⟩
    rw [← hx, ← hev]
    exact ⟨_, List.mem_append_right _ (List.mem_singleton_self _), rfl, rfl, rfl, rfl⟩
  · rw [if_neg (mt hfits.mp (not_not_intro hfit)), if_neg (by rw [hfree]; decide)] at hrun
    refine ⟨_, hrun, sameMemory_trans (sameMemory_trans hmem sameMemory_setMig) sameMemory_schedule, ?_, migs_setMig hmigs' rfl⟩
    rw [← hx, ← hev]
    exact ⟨_, List.mem_append_right _ (List.mem_singleton_self _), rfl, rfl, rfl, rfl⟩
  · rw [if_pos (hfits.mpr hfit)] at hrun
    refine ⟨_, hrun, migs_failCommand.trans (migs_dropMig hmigs'), failsCommand_failCommand ?_⟩
    exact coreOfAddr_of_mapView (mapView_counted hcount) _
end

/-! ## Bytes written while the page migrates -/

theorem hbm_address {a : W64} {o : Nat} (h : a.toNat = 2 ^ 63 + 2 ^ 58 + o) (ho : o < 2 ^ 41) : field a 58 4 = 1 ∧ field a 0 41 = o := by
  rw [field, field, h]
  omega
theorem toNat_add_pos {a : W64} {o pos : Nat} (h : a.toNat = 2 ^ 63 + 2 ^ 58 + o) (ho : o + pos < 2 ^ 41) :
    (a + BitVec.ofNat 64 pos).toNat = 2 ^ 63 + 2 ^ 58 + (o + pos) := by
  rw [BitVec.toNat_add, BitVec.toNat_ofNat, h]
  omega
/-- A write outside the old page does not fork. -/
theorem forkWrite_apart {pa : W64} {bs : List Byte} (hcopied : copiedBytes m ≤ m.size)
    (h : pa.toNat + bs.length ≤ m.old.toNat ∨ m.old.toNat + m.size ≤ pa.toNat) : forkWrite s pa bs m = s := by
  refine if_pos (List.isEmpty_iff.mpr (List.filter_eq_nil_iff.mpr fun p hp => ?_))
  obtain ⟨i, hi, rfl⟩ := mem_placed.mp hp
  simp only [Bool.and_eq_true, decide_eq_true_eq]
  omega
theorem putHome_physHomeWrite {pa : W64} {bs : List Byte} {cmp : Bool} (hspace : field pa 58 4 = 1) (hmigs : s.pkg.migs = [m])
    (hcopied : copiedBytes m ≤ m.size) (h : pa.toNat + bs.length ≤ m.old.toNat ∨ m.old.toNat + m.size ≤ pa.toNat) :
    PutHome s (physHomeWrite s pa bs cmp) (field pa 0 41) bs := by
  have hput := putHome_placeWrite (s := s) (bs := bs) (cmp := cmp) hspace
  have hwrite : physHomeWrite s pa bs cmp = placeWrite s pa (placed 0 bs) cmp := by
    simp only [physHomeWrite, bits_eq_field pa 61 58 4 rfl, hspace, forkedWrite, migs_atHome hput.rest, hmigs, List.foldl_cons, List.foldl_nil,
      forkWrite_apart hcopied h]
  rw [hwrite]
  exact hput
theorem memWf_counted (h : Counted s t) : memWf t.hbm = memWf s.hbm := by
  obtain ⟨_, _, _, rfl⟩ := h
  rfl
theorem hbmByte_counted (h : Counted s t) (b : Nat) : hbmByte t b = hbmByte s b := by
  obtain ⟨_, _, _, rfl⟩ := h
  rfl
@[simp] theorem hbmByte_schedule (s : State) (due : Nat) (op : Instr) (args : EvArgs) (b : Nat) :
    hbmByte (schedule s due op args) b = hbmByte s b := rfl
@[simp] theorem hbmByte_setMig (s : State) (n : Migration) (b : Nat) : hbmByte (setMig s n) b = hbmByte s b := rfl
theorem getD_hbmBytes {a n i : Nat} (hi : i < n) : (hbmBytes s a n).getD i 0 = hbmByte s (a + i) := by
  simp [hbmBytes, List.getD, hi]
theorem length_hbmBytes {a n : Nat} : (hbmBytes s a n).length = n := by rw [hbmBytes, List.length_map, List.length_range]

/-! ## The copy -/

section
variable {pos : Nat} (hx : s.ev.x = m.cmd.id) (hmigs : s.pkg.migs = [m]) (hphase : m.phase = .copying pos)
include hx hmigs hphase

theorem migrationCopyLine_poisoned (hbad : physBad s (m.old + BitVec.ofNat 64 pos) 128 = true) :
    Runs .migrationCopyLine s fun t => Undone s t m := by
  have hrun : exec .migrationCopyLine s =
      .next (commandError (countPoison (dropMig s m.cmd.id) (m.old + BitVec.ofNat 64 pos)) m.cmd) := by
    show execMigrationCopyLine s = _
    rw [execMigrationCopyLine, migOf_only hx hmigs]
    simp only [hphase]
    exact if_pos hbad
  exact ⟨_, hrun, undone_dropped counted_countPoison hmigs⟩
/-- The state after a line of a migration is written at its new place. -/
def lineCopied (s : State) (m : Migration) (pos : Nat) : State :=
  physHomeWrite (countHome s (m.old + BitVec.ofNat 64 pos) 128) (m.new + BitVec.ofNat 64 pos) (homeRead s (m.old + BitVec.ofNat 64 pos) 128) m.cmp
/-- A migration after its line at pos. -/
def lineDone (m : Migration) (pos : Nat) : Migration := { m with phase := if pos + 128 < m.size then .copying (pos + 128) else .switching }
theorem exec_migrationCopyLine (hgood : physBad s (m.old + BitVec.ofNat 64 pos) 128 = false) : exec .migrationCopyLine s =
    .next (schedule (setMig (lineCopied s m pos) (lineDone m pos)) ((lineCopied s m pos).now + 1)
      (if pos + 128 < m.size then .migrationCopyLine else .migrationSwitch) (lineCopied s m pos).ev) := by
  show execMigrationCopyLine s = _
  rw [execMigrationCopyLine, migOf_only hx hmigs]
  simp only [hphase]
  refine (if_neg (by rw [hgood]; decide)).trans ?_
  unfold lineDone
  split <;> rfl
theorem migrationCopyLine_outcome {o n : Nat} (hold : m.old.toNat = 2 ^ 63 + 2 ^ 58 + o) (hnew : m.new.toNat = 2 ^ 63 + 2 ^ 58 + n)
    (hwf : memWf s.hbm = true) (ho : o + m.size ≤ 2 ^ 40) (hn : n + m.size ≤ 2 ^ 40) (hapart : o + m.size ≤ n ∨ n + m.size ≤ o)
    (hsize : m.size % 128 = 0) (haligned : pos % 128 = 0) (hpos : pos < m.size) (hgood : homeBad s (o + pos) 128 = false) :
    Runs .migrationCopyLine s fun t => (∀ i < 128, hbmByte t (n + pos + i) = hbmByte s (o + pos + i)) ∧
      (∀ b, (b < n + pos ∨ n + pos + 128 ≤ b) → hbmByte t b = hbmByte s b) ∧
      t.pkg.migs = [{ m with phase := if pos + 128 < m.size then .copying (pos + 128) else .switching }] := by
  have hfrom := toNat_add_pos (pos := pos) hold (by omega)
  have hto := toNat_add_pos (pos := pos) hnew (by omega)
  obtain ⟨hfromSpace, hfromOff⟩ := hbm_address hfrom (by omega)
  obtain ⟨htoSpace, htoOff⟩ := hbm_address hto (by omega)
  have hphys : physBad s (m.old + BitVec.ofNat 64 pos) 128 = false := by
    simp only [physBad, bits_eq_field _ 61 58 4 rfl, bits_eq_field _ 40 0 41 rfl, hfromSpace, hfromOff, hgood]
  have hread : homeRead s (m.old + BitVec.ofNat 64 pos) 128 = hbmBytes s (o + pos) 128 := by
    simp only [homeRead, bits_eq_field _ 61 58 4 rfl, bits_eq_field _ 40 0 41 rfl, hfromSpace, hfromOff]
  have hcount : Counted s (countHome s (m.old + BitVec.ofNat 64 pos) 128) := counted_countHome
  have hput : PutHome (countHome s (m.old + BitVec.ofNat 64 pos) 128) (lineCopied s m pos) (n + pos) (hbmBytes s (o + pos) 128) := by
    rw [lineCopied, hread, ← htoOff]
    refine putHome_physHomeWrite htoSpace ((migs_counted hcount).trans hmigs) (by rw [copiedBytes, hphase]; exact hpos.le) ?_
    rw [hto, hold, length_hbmBytes]
    omega
  have hbytes (b : Nat) := hput.bytes ((memWf_counted hcount).trans hwf) b
  simp only [length_hbmBytes, hbmByte_counted hcount] at hbytes
  refine ⟨_, exec_migrationCopyLine hx hmigs hphase hphys, fun i hi => ?_, fun b hb => ?_, ?_⟩
  · rw [hbmByte_schedule, hbmByte_setMig, hbytes, if_pos (by omega), Nat.add_sub_cancel_left, getD_hbmBytes hi]
  · rw [hbmByte_schedule, hbmByte_setMig, hbytes, if_neg (by omega)]
  · exact migs_setMig ((migs_atHome hput.rest).trans ((migs_counted hcount).trans hmigs)) rfl
end

/-! ## The switch -/

theorem leNat_leBytes (n v : Nat) : leNat (leBytes n v) = v % 256 ^ n := by
  induction n generalizing v with
  | zero => rw [pow_zero, Nat.mod_one]; rfl
  | succ n ih =>
    have hstep : v % 256 ^ (n + 1) = v % 256 + 256 * (v / 256 % 256 ^ n) := by rw [pow_succ', Nat.mod_mul]
    rw [leBytes, leNat, ih, BitVec.toNat_ofNat, hstep]

/-- A leaf that maps its page to a new place. -/
def switchedLeaf (e new : W64) : W64 :=
  if bits new 61 58 == 1 then putBits e 45 0 (bits new 61 16) else putBits (putBits e 45 0 (bits new 61 16)) 60 60 0
theorem toNat_putBits_target (e : W64) (v : Nat) : (putBits e 45 0 v).toNat = e.toNat / 2 ^ 46 * 2 ^ 46 + v % 2 ^ 46 := by
  have he := e.isLt
  rw [putBits, BitVec.toNat_ofNat]
  omega
theorem toNat_putBits_cmp (e : W64) : (putBits e 60 60 0).toNat = e.toNat / 2 ^ 61 * 2 ^ 61 + e.toNat % 2 ^ 60 := by
  have he := e.isLt
  rw [putBits, BitVec.toNat_ofNat]
  omega
theorem switchedLeaf_fields (e new : W64) :
    field (switchedLeaf e new) 0 46 = field new 16 46 ∧ field (switchedLeaf e new) 61 3 = field e 61 3 ∧
      field (switchedLeaf e new) 46 14 = field e 46 14 ∧
      field (switchedLeaf e new) 60 1 = if field new 58 4 = 1 then field e 60 1 else 0 := by
  rw [switchedLeaf, bits_eq_field new 61 58 4 rfl, bits_eq_field new 61 16 46 rfl]
  by_cases hspace : field new 58 4 = 1
  · rw [if_pos (beq_iff_eq.mpr hspace), if_pos hspace]
    simp only [field, toNat_putBits_target]
    omega
  · rw [if_neg (mt beq_iff_eq.mp hspace), if_neg hspace]
    simp only [field, toNat_putBits_cmp, toNat_putBits_target]
    omega

section
variable (hx : s.ev.x = m.cmd.id) (hmigs : s.pkg.migs = [m]) (hphase : m.phase = .switching)
include hx hmigs hphase

theorem migrationSwitch_poisoned (hbad : homeBad s m.leafAt 8 = true) : Runs .migrationSwitch s fun t => Undone s t m := by
  have hrun : exec .migrationSwitch s = .next (commandError (countStack (dropMig s m.cmd.id) (stackOf m.leafAt) 5 1) m.cmd) := by
    show execMigrationSwitch s = _
    rw [execMigrationSwitch, migOf_only hx hmigs]
    exact if_pos (by rw [hphase, hbad]; rfl)
  exact ⟨_, hrun, undone_dropped counted_countStack hmigs⟩
/-- The state whose leaf is about to be rewritten. -/
def leafRead (s : State) (m : Migration) : State := setMig (countRead s (m.leafAt / 128)) { m with phase := .invalidating }
/-- The leaf of a migration's page as it stands at home. -/
def leafEntry (s : State) (m : Migration) : W64 := BitVec.ofNat 64 (leNat (hbmBytes s m.leafAt 8))
/-- The state whose leaf maps the page to its new place. -/
def leafWritten (s : State) (m : Migration) : State :=
  homeWrite (leafRead s m) m.leafAt (leBytes 8 (switchedLeaf (leafEntry s m) m.new).toNat) false
/-- The state in which the invalidation of a migration stands. -/
def invalidationBegun (u : State) (m : Migration) : State :=
  { u with pkg := { u.pkg with invals := u.pkg.invals ++ [(m.cmd, 0, 0, [])] } }
omit hx hmigs hphase in
theorem leafEntry_schedule {due : Nat} {op : Instr} {args : EvArgs} : leafEntry (schedule s due op args) m = leafEntry s m := rfl
omit hx hmigs hphase in
theorem leafEntry_begun : leafEntry (invalidationBegun s m) m = leafEntry s m := rfl
omit hx hmigs hphase in
theorem hbmByte_begun (b : Nat) : hbmByte (invalidationBegun s m) b = hbmByte s b := rfl
theorem exec_migrationSwitch (hgood : homeBad s m.leafAt 8 = false) : exec .migrationSwitch s =
    .next (schedule (invalidationBegun (leafWritten s m) m) (leafWritten s m).now .tlbinvComplete (leafWritten s m).ev) := by
  have hread : hbmBytes (countRead s (m.leafAt / 128)) m.leafAt 8 = hbmBytes s m.leafAt 8 :=
    List.map_congr_left fun i _ => hbmByte_counted counted_countRead _
  show execMigrationSwitch s = _
  rw [execMigrationSwitch, migOf_only hx hmigs]
  refine ((if_neg (by rw [hphase, hgood]; decide)).trans (if_pos (beq_iff_eq.mpr hphase))).trans ?_
  dsimp only
  rw [hread]
  rfl
theorem migrationSwitch_outcome (hwf : memWf s.hbm = true) (hapart : m.leafAt + 8 ≤ field m.old 0 41 ∨ field m.old 0 41 + m.size ≤ m.leafAt)
    (hold : m.old.toNat = 2 ^ 63 + 2 ^ 58 + field m.old 0 41) (hleaf : m.leafAt < 2 ^ 40) (hgood : homeBad s m.leafAt 8 = false) :
    Runs .migrationSwitch s fun t => leafEntry t m = switchedLeaf (leafEntry s m) m.new ∧
      (∀ b, (b < m.leafAt ∨ m.leafAt + 8 ≤ b) → hbmByte t b = hbmByte s b) ∧
      t.pkg.migs = [{ m with phase := .invalidating }] ∧ (m.cmd, 0, 0, []) ∈ t.pkg.invals := by
  have hcount : Counted s (countRead s (m.leafAt / 128)) := counted_countRead
  have haddr : (hbmAddress m.leafAt).toNat = 2 ^ 63 + 2 ^ 58 + m.leafAt := by
    rw [hbmAddress, BitVec.toNat_ofNat]
    omega
  obtain ⟨hspace, hoff⟩ := hbm_address haddr (by omega)
  have hmigs' : (leafRead s m).pkg.migs = [{ m with phase := .invalidating }] := migs_setMig ((migs_counted hcount).trans hmigs) rfl
  have hput : PutHome (leafRead s m) (leafWritten s m) m.leafAt (leBytes 8 (switchedLeaf (leafEntry s m) m.new).toNat) := by
    have hwrite : leafWritten s m = physHomeWrite (leafRead s m) (hbmAddress m.leafAt)
        (leBytes 8 (switchedLeaf (leafEntry s m) m.new).toNat) false := by
      simp only [physHomeWrite, bits_eq_field _ 61 58 4 rfl, hspace]
      rfl
    have h := putHome_physHomeWrite (s := leafRead s m) (cmp := false) (bs := leBytes 8 (switchedLeaf (leafEntry s m) m.new).toNat)
      hspace hmigs' le_rfl (by rw [haddr, length_leBytes]; show _ ≤ m.old.toNat ∨ m.old.toNat + m.size ≤ _; omega)
    rw [hoff, ← hwrite] at h
    exact h
  have hbytes (b : Nat) := hput.bytes ((memWf_counted hcount).trans hwf) b
  rw [leafRead] at hbytes
  simp only [length_leBytes, hbmByte_setMig, hbmByte_counted hcount] at hbytes
  refine ⟨_, exec_migrationSwitch hx hmigs hphase hgood, ?_, fun b hb => ?_, (migs_atHome hput.rest).trans hmigs',
    List.mem_append_right _ (List.mem_singleton_self _)⟩
  · have hentry : hbmBytes (leafWritten s m) m.leafAt 8 = leBytes 8 (switchedLeaf (leafEntry s m) m.new).toNat := by
      refine List.ext_getElem (by rw [length_hbmBytes, length_leBytes]) fun i hi hi' => ?_
      rw [length_hbmBytes] at hi
      simp only [hbmBytes, List.getElem_map, List.getElem_range, hbytes, Nat.add_sub_cancel_left]
      rw [if_pos (by omega), List.getD_eq_getElem]
    rw [leafEntry_schedule, leafEntry_begun, leafEntry, hentry, leNat_leBytes, Nat.mod_eq_of_lt (b := 256 ^ 8) (switchedLeaf (leafEntry s m) m.new).isLt,
      BitVec.ofNat_toNat, BitVec.setWidth_eq]
  · rw [hbmByte_schedule, hbmByte_begun, hbytes, if_neg (by omega)]
end

/-! ## The release -/

/-- Whether a line of a copy lies in the old page of a migration. -/
def inOldPage (m : Migration) (l : CacheLine) : Bool :=
  bits m.old 61 58 == 1 && bits m.old 40 0 ≤ 64 * l.line && 64 * l.line < bits m.old 40 0 + m.size
/-- A die whose copies of the old page are dropped. -/
def withoutOld (m : Migration) (d : Die) : Die := { d with cache := d.cache.filter (fun l => !inOldPage m l) }
/-- The state in which no die has a copy of the old page. -/
def copiesDropped (s : State) (m : Migration) : State := { s with die := s.die.map (fun e => (e.1, withoutOld m e.2)) }
theorem dieOf_copiesDropped (d : Nat) : dieOf (copiesDropped s m) d = withoutOld m (dieOf s d) := tget_map (withoutOld m) s.die rfl d
theorem sameMemory_copiesDropped : SameMemory s (copiesDropped s m) :=
  ⟨rfl, rfl, rfl, fun _ => ⟨rfl, rfl, rfl⟩, fun d => by rw [dieOf_copiesDropped]; rfl⟩
theorem migrationRelease_outcome (hx : s.ev.x = m.cmd.id) (hmigs : s.pkg.migs = [m]) (hphase : m.phase = .invalidating)
    (hinvals : s.pkg.invals = []) : Runs .migrationRelease s fun t => SameMemory s t ∧ t.pkg.migs = [] ∧ TagSet s t m.cmd.cx m.cmd.tag ∧
      (field m.old 58 4 = 1 → ∀ d, ∀ l ∈ (dieOf t d).cache,
        ¬ (field m.old 0 41 ≤ 64 * l.line ∧ 64 * l.line < field m.old 0 41 + m.size)) := by
  have hrun : exec .migrationRelease s =
      .next (completeCommand (dropMig (copiesDropped s m) m.cmd.id) m.cmd.cx m.cmd.id m.cmd.tag) := by
    show execMigrationRelease s = _
    rw [execMigrationRelease, migOf_only hx hmigs]
    exact if_pos (by rw [hphase, hinvals]; rfl)
  have hsettles := settles_completeCommand (s := dropMig (copiesDropped s m) m.cmd.id) (addr := m.cmd.cx) (id := m.cmd.id) (tag := m.cmd.tag)
  refine ⟨_, hrun, sameMemory_completed (sameMemory_trans sameMemory_copiesDropped sameMemory_dropMig), ?_, ?_, fun hspace d l hl hin => ?_⟩
  · obtain ⟨-, _, _, _, heq⟩ := hsettles
    rw [heq]
    exact migs_dropMig (s := copiesDropped s m) hmigs
  · exact tagSet_before rfl (fun _ => rfl) (tagSet_completeCommand (dropMig (copiesDropped s m) m.cmd.id) m.cmd.cx m.cmd.id m.cmd.tag)
  · rw [settles_dieOf hsettles] at hl
    have hl' : l ∈ (dieOf (copiesDropped s m) d).cache := hl
    rw [dieOf_copiesDropped] at hl'
    have hout := (List.mem_filter.mp hl').2
    simp only [inOldPage, bits_eq_field m.old 61 58 4 rfl, bits_eq_field m.old 40 0 41 rfl, hspace] at hout
    simp only [beq_self_eq_true, hin.1, hin.2, decide_true, Bool.and_self, Bool.not_true, Bool.false_eq_true] at hout
end
end Sys2Proof.Machine
end

