-- ==== Sys2Proof/Proofs/IndirectStreams.lean ====
section
/-! PROOF. Indirect streams (13_package_memory, R367, R368). -/
namespace Sys2Proof.Machine
open Sys2Proof.Claims

section
variable {s t u v : State} {c : Command} {d : V512} {pos : Nat}

theorem descField_eq (d : V512) (k : Nat) {n : Nat} (hn : 0 < n) : descField d k n = bytesOfD d k n := by
  have hwidth : 8 * (k + n) - 1 + 1 - 8 * k = 8 * n := by omega
  rw [descField, bits, bytesOfD, Nat.shiftRight_eq_div_pow, hwidth, pow_mul, pow_mul]
  norm_num

/-! ## Bytes read and written for an element -/

theorem translated_homeGather {a : W64} {n : Nat} : Translated s (homeGather s c a n).2 := by
  have hpieces := translated_reachPieces (s := s) c.core (commandQueue s c) a n false 2
  unfold homeGather
  split
  · next h =>
    rw [h] at hpieces
    exact hpieces
  · next ps u h =>
    rw [h] at hpieces
    split
    · exact translated_trans hpieces (translated_counted counted_countPoison)
    · exact translated_trans hpieces (translated_counted (counted_foldl (fun _ _ => counted_countHome) _ _))
theorem engineView_homeScatter {a : W64} {bs : List Byte} : engineView (homeScatter s c a bs).2 = engineView s := by
  have hpieces := translated_reachPieces (s := s) c.core (commandQueue s c) a bs.length true 2
  unfold homeScatter
  split
  · next h =>
    rw [h] at hpieces
    exact engineView_translated hpieces
  · next ps u h =>
    rw [h] at hpieces
    exact (engineView_pieces (fun _ _ => engineView_leaveWrite ..) ps (bs, u)).trans (engineView_translated hpieces)
theorem engineView_moveElement {i idx : Nat} : engineView (moveElement s c d i idx).2 = engineView s := by
  unfold moveElement
  dsimp only
  split
  · rfl
  · rfl
  · next a k off _ _ =>
    split
    · have hgather := engineView_translated (translated_homeGather (s := s) (c := c) (a := a) (n := descField d 28 4))
      split
      · next h =>
        rw [h] at hgather
        exact (engineView_portWrite ..).trans hgather
      · exact hgather
    · split
      · rfl
      · exact engineView_homeScatter.trans (engineView_countCorrected ..)
theorem engineView_of_move {i idx : Nat} {g : Gather} (h : moveElement u c d i idx = (g, v)) (hu : engineView u = engineView s) :
    engineView v = engineView s := by
  have hmove := engineView_moveElement (s := u) (c := c) (d := d) (i := i) (idx := idx)
  rw [h] at hmove
  exact hmove.trans hu

/-! ## A job replaced -/

theorem mem_setXJob_of {i j : XJob} {id : Nat} (hjob : xjobOf s id = some i) (hid : j.cmd = i.cmd) (hu : u.pkg.xjobs = s.pkg.xjobs) :
    j ∈ (setXJob u j).pkg.xjobs := by
  refine List.mem_map.mpr ⟨i, ?_, if_pos (by rw [hid]; exact beq_self_eq_true _)⟩
  rw [hu]
  exact List.mem_of_find?_eq_some hjob
@[simp] theorem xjobs_schedule (s : State) (due : Nat) (op : Instr) (args : EvArgs) : (schedule s due op args).pkg.xjobs = s.pkg.xjobs := rfl
@[simp] theorem xjobs_again (s : State) (op : Instr) : (again s op).pkg.xjobs = s.pkg.xjobs := rfl
theorem laterOf_again (s : State) (op : Instr) : LaterOf (again s op) op s.ev.x s.ev.y s.ev.z :=
  ⟨_, List.mem_append_right _ (List.mem_singleton_self _), rfl, rfl, rfl, rfl⟩
@[simp] theorem ev_setXJob (s : State) (j : XJob) : (setXJob s j).ev = s.ev := rfl
theorem sameMemory_setXJob {j : XJob} : SameMemory s (setXJob s j) := sameMemory_of rfl rfl rfl rfl rfl
theorem counted_countElement {j : XJob} : Counted s (countElement s j) := by
  unfold countElement
  split
  · exact counted_countStack
  · exact counted_refl s

/-! ## What an indirect stream does next -/

section
variable {at_ : Option Nat} {e : Nat} (hjob : xjobOf s s.ev.x = some ⟨c, pos, none, at_⟩) (hop : c.op = .xstr d)
  (hparked : isParked s c.id = false) (haway : gangAway s c.cx = false)
include hjob hop hparked haway

theorem exec_xstrElement_joins {pa : W64} {cmp : Bool} (hat : at_ = none)
    (hreach : reach s c.core (commandQueue s c) (word (bytesOfD d 0 8)) false = (.at_ pa cmp, u)) :
    exec .xstrElement s = .next (again (joinEngine u ⟨c, pos, none, none⟩ pa) .xstrElement) := by
  obtain ⟨id, k, cx, tag, op, org⟩ := c
  subst hop hat
  rw [← descField_eq d 0 (by decide), word] at hreach
  show execXstrElement s = _
  simp only [execXstrElement, hjob, hparked, haway, hreach, Bool.false_eq_true, if_false]
theorem exec_xstrElement (hat : at_ = some e) : exec .xstrElement s =
    if !engineHead s e c.id then .next (again s .xstrElement)
    else if descField d 24 4 ≤ pos then .next (schedule s s.now .xstrComplete s.ev)
    else .next (nextElement s ⟨c, pos, none, some e⟩ d) := by
  obtain ⟨id, k, cx, tag, op, org⟩ := c
  subst hop hat
  show execXstrElement s = _
  simp only [execXstrElement, hjob, hparked, haway, Bool.false_eq_true, if_false]
theorem xstrElement_joins {pa : W64} {cmp : Bool} (hat : at_ = none)
    (hreach : reach s c.core (commandQueue s c) (word (bytesOfD d 0 8)) false = (.at_ pa cmp, u)) :
    Runs .xstrElement s fun t => SameMemory s t ∧ LaterOf t .xstrElement s.ev.x s.ev.y s.ev.z ∧
      ∃ e, ⟨c, pos, none, some e⟩ ∈ t.pkg.xjobs ∧ (field pa 58 4 = 1 → e = stackOf (field pa 0 41)) := by
  have htrans : Translated s u := by
    have h := translated_reach (s := s) c.core (commandQueue s c) (word (bytesOfD d 0 8)) false
    rwa [hreach] at h
  have hev := ev_of_engineView (engineView_translated htrans)
  have hmem := sameMemory_translated htrans
  refine ⟨_, exec_xstrElement_joins hjob hop hparked haway hat hreach, ?_⟩
  by_cases hspace : field pa 58 4 = 1
  · have hstack : engineStack u pa = (stackOf (field pa 0 41), u) := by
      rw [engineStack, bits_eq_field pa 61 58 4 rfl, bits_eq_field pa 40 0 41 rfl, if_pos (beq_iff_eq.mpr hspace)]
    rw [joinEngine, hstack, ← hev]
    exact ⟨sameMemory_trans hmem (sameMemory_of rfl rfl rfl rfl rfl), ⟨_, List.mem_append_right _ (List.mem_singleton_self _), rfl, rfl, rfl, rfl⟩,
      _, List.mem_append_right _ (List.mem_singleton_self _), fun _ => rfl⟩
  · have hstack : engineStack u pa = (Config.choice u.fresh % 32, { u with fresh := u.fresh + 1 }) := by
      rw [engineStack, bits_eq_field pa 61 58 4 rfl, if_neg (mt beq_iff_eq.mp hspace), takeFresh]
    rw [joinEngine, hstack, ← hev]
    exact ⟨sameMemory_trans hmem (sameMemory_of rfl rfl rfl rfl rfl), ⟨_, List.mem_append_right _ (List.mem_singleton_self _), rfl, rfl, rfl, rfl⟩,
      _, List.mem_append_right _ (List.mem_singleton_self _), fun h => absurd h hspace⟩

section
variable (hat : at_ = some e)
include hat

theorem xstrElement_waits (hhead : engineHead s e c.id = false) : Runs .xstrElement s fun t => PutOff s t .xstrElement := by
  refine ⟨again s .xstrElement, ?_, rfl, rfl⟩
  rw [exec_xstrElement hjob hop hparked haway hat, hhead]
  rfl
theorem xstrElement_ends (hhead : engineHead s e c.id = true) (hcount : bytesOfD d 24 4 ≤ pos) :
    Runs .xstrElement s fun t => Later t .xstrComplete s.ev.x s.ev.y s.now ∧ SameMemory s t := by
  refine ⟨schedule s s.now .xstrComplete s.ev, ?_, later_schedule, sameMemory_schedule⟩
  rw [exec_xstrElement hjob hop hparked haway hat, hhead, descField_eq d 24 (by decide)]
  exact if_pos hcount
theorem xstrElement_next (hhead : engineHead s e c.id = true) (hcount : pos < bytesOfD d 24 4) :
    exec .xstrElement s = .next (nextElement s ⟨c, pos, none, some e⟩ d) := by
  rw [exec_xstrElement hjob hop hparked haway hat, hhead, descField_eq d 24 (by decide)]
  exact (if_neg (by decide)).trans (if_neg (by omega))
end
end

/-! ## One element -/

/-- The bytes of an index of a stream. -/
def indexBytes (d : V512) : Nat := if bytesOfD d 36 1 = 0 then 4 else 8
/-- Where the next index of a stream lies. -/
def indexAddress (d : V512) (pos : Nat) : W64 := word (bytesOfD d 0 8 + pos * indexBytes d)
/-- Whether an index lies at or above its stream's limit. -/
def AtLimit (d : V512) (idx : Nat) : Prop := bytesOfD d 39 1 = 1 ∧ bytesOfD d 40 8 ≤ idx
theorem atLimit_iff {idx : Nat} : (descField d 39 1 == 1 && descField d 40 8 ≤ idx) = true ↔ AtLimit d idx := by
  rw [descField_eq d 39 (by decide), descField_eq d 40 (by decide), Bool.and_eq_true, beq_iff_eq, decide_eq_true_eq, AtLimit]
theorem homeGather_index {j : XJob} : homeGather s j.cmd (BitVec.ofNat 64 (descField d 0 8 +
    j.pos * if descField d 36 1 == 0 then 4 else 8)) (if descField d 36 1 == 0 then 4 else 8) =
      homeGather s j.cmd (indexAddress d j.pos) (indexBytes d) := by
  rw [descField_eq d 0 (by decide), descField_eq d 36 (by decide), indexAddress, word, indexBytes]
  simp only [beq_iff_eq]

section
variable {j : XJob} {bs : List Byte} (hindex : homeGather s j.cmd (indexAddress d j.pos) (indexBytes d) = (.got bs, u))
include hindex

theorem nextElement_limited (h : AtLimit d (leNat bs)) : nextElement s j d =
    schedule (setXJob u { j with fail := some cRange }) u.now .xstrComplete u.ev := by
  simp only [nextElement, homeGather_index, hindex]
  exact if_pos (atLimit_iff.mpr h)
theorem nextElement_moved {g : List Byte} (h : ¬ AtLimit d (leNat bs)) (hmove : moveElement u j.cmd d j.pos (leNat bs) = (.got g, v)) :
    nextElement s j d = again (setXJob (countElement v j) { j with pos := j.pos + 1 }) .xstrElement := by
  simp only [nextElement, homeGather_index, hindex, hmove]
  exact if_neg (mt atLimit_iff.mp h)
theorem nextElement_failed {code : BitVec 8} (h : ¬ AtLimit d (leNat bs)) (hmove : moveElement u j.cmd d j.pos (leNat bs) = (.failed code, v)) :
    nextElement s j d = schedule (setXJob v { j with fail := some code }) v.now .xstrComplete v.ev := by
  simp only [nextElement, homeGather_index, hindex, hmove]
  exact if_neg (mt atLimit_iff.mp h)
end
theorem nextElement_absent {j : XJob} {va : Nat} (hindex : homeGather s j.cmd (indexAddress d j.pos) (indexBytes d) = (.absent va, u))
    (hgranted : j.cmd.id ∉ u.pkg.denied) :
    nextElement s j d = parkCommand u (commandQueue u j.cmd) j.cmd va .xstrElement (evArgs j.cmd.id 0 0) := by
  simp only [nextElement, homeGather_index, hindex, stopXstr]
  exact if_neg (mt List.contains_iff_mem.mp hgranted)
theorem parkedCmds_pagesOnly (h : PagesOnly s t) : t.pkg.parkedCmds = s.pkg.parkedCmds := by
  obtain ⟨_, _, _, _, _, _, rfl⟩ := h
  rfl
theorem isParked_parkCommand {q va : Nat} {op : Instr} {args : EvArgs} (hroom : (clusterOf s (clusterKey c.core)).parked.length < 64) :
    isParked (parkCommand s q c va op args) c.id = true := by
  unfold parkCommand
  dsimp only
  split
  · next h => exact h
  · rw [if_neg (by omega)]
    refine List.any_eq_true.mpr ⟨_, (congrArg (_ ∈ ·) (parkedCmds_pagesOnly (requestPage_awaits q va c.id).1)).mpr
      (List.mem_append_right _ (List.mem_singleton_self _)), ?_⟩
    exact beq_self_eq_true c.id

/-! ## The steps of the elements -/

/-- A stream that has ended with a code: its job holds it, and its end follows. -/
theorem stream_stops {e : Nat} {code : BitVec 8} (hjob : xjobOf s s.ev.x = some ⟨c, pos, none, some e⟩) (hv : engineView v = engineView s) :
    ⟨c, pos, some code, some e⟩ ∈ (schedule (setXJob v ⟨c, pos, some code, some e⟩) v.now .xstrComplete v.ev).pkg.xjobs ∧
      Later (schedule (setXJob v ⟨c, pos, some code, some e⟩) v.now .xstrComplete v.ev) .xstrComplete s.ev.x s.ev.y s.now := by
  rw [xjobs_schedule]
  refine ⟨mem_setXJob_of hjob rfl (xjobs_of_engineView hv), ?_⟩
  rw [now_of_engineView hv, ev_of_engineView hv]
  exact later_schedule
section
variable {e : Nat} (hjob : xjobOf s s.ev.x = some ⟨c, pos, none, some e⟩) (hop : c.op = .xstr d)
  (hparked : isParked s c.id = false) (haway : gangAway s c.cx = false) (hhead : engineHead s e c.id = true) (hcount : pos < bytesOfD d 24 4)
include hjob hop hparked haway hhead hcount

theorem xstrElement_parks {va : Nat} (hindex : homeGather s c (indexAddress d pos) (indexBytes d) = (.absent va, u))
    (hgranted : c.id ∉ u.pkg.denied) (hroom : (clusterOf u (clusterKey c.core)).parked.length < 64) :
    Runs .xstrElement s fun t => isParked t c.id = true := by
  refine ⟨_, xstrElement_next hjob hop hparked haway rfl hhead hcount, ?_⟩
  rw [nextElement_absent (j := ⟨c, pos, none, some e⟩) hindex hgranted]
  exact isParked_parkCommand hroom

section
variable {bs : List Byte} (hindex : homeGather s c (indexAddress d pos) (indexBytes d) = (.got bs, u))
include hindex

theorem xstrElement_indexed :
    (AtLimit d (leNat bs) → Runs .xstrElement s fun t => ⟨c, pos, some 0x09, some e⟩ ∈ t.pkg.xjobs ∧
      Later t .xstrComplete s.ev.x s.ev.y s.now) ∧
    (∀ g v, ¬ AtLimit d (leNat bs) → moveElement u c d pos (leNat bs) = (.got g, v) → Runs .xstrElement s fun t =>
      ⟨c, pos + 1, none, some e⟩ ∈ t.pkg.xjobs ∧ SameMemory v t ∧ LaterOf t .xstrElement s.ev.x s.ev.y s.ev.z) ∧
    (∀ code v, ¬ AtLimit d (leNat bs) → moveElement u c d pos (leNat bs) = (.failed code, v) → Runs .xstrElement s fun t =>
      ⟨c, pos, some code, some e⟩ ∈ t.pkg.xjobs ∧ Later t .xstrComplete s.ev.x s.ev.y s.now) := by
  have hu : engineView u = engineView s := by
    have h := translated_homeGather (s := s) (c := c) (a := indexAddress d pos) (n := indexBytes d)
    rw [hindex] at h
    exact engineView_translated h
  have hrun := xstrElement_next hjob hop hparked haway rfl hhead hcount
  refine ⟨fun hlimit => ?_, fun g v hlimit hmove => ?_, fun code v hlimit hmove => ?_⟩
  · rw [nextElement_limited (j := ⟨c, pos, none, some e⟩) hindex hlimit] at hrun
    exact ⟨_, hrun, stream_stops hjob hu⟩
  · rw [nextElement_moved (j := ⟨c, pos, none, some e⟩) hindex hlimit hmove] at hrun
    have hv : engineView (countElement v ⟨c, pos, none, some e⟩) = engineView s :=
      (engineView_counted counted_countElement).trans (engineView_of_move hmove hu)
    refine ⟨_, hrun, ?_, sameMemory_trans (sameMemory_counted counted_countElement) (sameMemory_trans sameMemory_setXJob sameMemory_schedule), ?_⟩
    · rw [xjobs_again]
      exact mem_setXJob_of hjob rfl (xjobs_of_engineView hv)
    · rw [← ev_of_engineView hv, ← ev_setXJob]
      exact laterOf_again ..
  · rw [nextElement_failed (j := ⟨c, pos, none, some e⟩) hindex hlimit hmove] at hrun
    exact ⟨_, hrun, stream_stops hjob (engineView_of_move hmove hu)⟩
end
end

/-! ## The end of an indirect stream -/

section
variable {at_ : Option Nat}

theorem xstrComplete_waits (hjob : xjobOf s s.ev.x = some ⟨c, pos, none, at_⟩) (hop : c.op = .xstr d) (hcount : bytesOfD d 24 4 ≤ pos)
    (hout : writesOut s c.id = true) : Runs .xstrComplete s fun t => PutOff s t .xstrComplete := by
  refine ⟨again s .xstrComplete, ?_, rfl, rfl⟩
  show execXstrComplete s = _
  simp only [execXstrComplete, hjob, hop, descField_eq d 24 (by decide : 0 < 4), hout]
  exact if_neg (by omega)
theorem sameMemory_dropXJob {id : Nat} : SameMemory s (dropXJob s id) := sameMemory_of rfl rfl rfl rfl rfl
theorem xstrComplete_ends (hjob : xjobOf s s.ev.x = some ⟨c, pos, none, at_⟩) (hop : c.op = .xstr d) (hcount : bytesOfD d 24 4 ≤ pos)
    (hout : writesOut s c.id = false) : Runs .xstrComplete s fun t => TagSet s t c.cx c.tag ∧ SameMemory s t := by
  have hrun : exec .xstrComplete s = .next (completeCommand (dropXJob s c.id) c.cx c.id c.tag) := by
    show execXstrComplete s = _
    simp only [execXstrComplete, hjob, hop, descField_eq d 24 (by decide : 0 < 4), hout]
    exact if_neg (by omega)
  exact ⟨_, hrun, tagSet_before rfl (fun _ => rfl) (tagSet_completeCommand (dropXJob s c.id) c.cx c.id c.tag),
    sameMemory_completed sameMemory_dropXJob⟩
theorem sameMemory_failCommand {code : BitVec 8} : SameMemory s (failCommand s c code) := by
  unfold failCommand
  split
  · exact sameMemory_refl s
  · exact sameMemory_of rfl rfl rfl rfl rfl
theorem xstrComplete_fails {code : BitVec 8} (hjob : xjobOf s s.ev.x = some ⟨c, pos, some code, at_⟩) (hop : c.op = .xstr d) :
    Runs .xstrComplete s fun t => FailsCommand s t c code ∧ SameMemory s t := by
  refine ⟨failCommand (dropXJob s c.id) c code, ?_, failsCommand_failCommand rfl, sameMemory_trans sameMemory_dropXJob sameMemory_failCommand⟩
  show execXstrComplete s = _
  simp only [execXstrComplete, hjob, hop]
end
end

/-! ## The obligation -/

/-- Settles O50: an invalidation filters the TLBs and starts the walks again; a migration's copy and switch write bytes at home that its
own fork does not touch; an indirect stream's accesses keep the engines' jobs. -/
theorem packageEnginesAct : Obligations.PackageEnginesAct := by
  unfold Obligations.PackageEnginesAct
  refine ⟨fun s c n f ids hx hinvals => ⟨tlbinvComplete_begins hx hinvals, fun hn ⟨o, ho, hid⟩ => ?_, tlbinvComplete_ends hx hinvals⟩,
    fun sc e _ => entryIn_iff sc e, fun s m va hx hmigs hop => ?_, fun s id k cx pos tag d org hx => ?_⟩
  · exact ⟨_, tlbinvComplete_waits hx hinvals hn ⟨o, ho, hid⟩, rfl, rfl⟩
  · refine ⟨fun hphase e size at_ u hleaf => migrationFork_outcome hx hmigs hop hphase hleaf,
      ⟨fun at_ u hphase hleaf => migrationFork_poisoned hx hmigs hop hphase hleaf, fun pos hphase hbad =>
        migrationCopyLine_poisoned hx hmigs hphase hbad, fun hphase hbad => migrationSwitch_poisoned hx hmigs hphase hbad⟩,
      fun pos o n hphase hold hnew hwf ho hn hapart hsize haligned hpos hgood =>
        migrationCopyLine_outcome hx hmigs hphase hold hnew hwf ho hn hapart hsize haligned hpos hgood,
      fun hphase hwf hapart _ hold hleaf hgood => ?_, fun hphase hinvals _ => migrationRelease_outcome hx hmigs hphase hinvals⟩
    obtain ⟨t, hrun, hentry, hrest⟩ := migrationSwitch_outcome hx hmigs hphase hwf hapart hold hleaf hgood
    refine ⟨t, hrun, ?_, hrest⟩
    have hfields := switchedLeaf_fields (leafEntry s m) m.new
    rw [← hentry] at hfields
    exact hfields
  · intro c count w goesOn ends
    subst hx
    refine ⟨fun pa cmp u hjob hparked haway hreach => xstrElement_joins hjob rfl hparked haway rfl hreach,
      fun e hjob hparked haway => ⟨xstrElement_waits hjob rfl hparked haway rfl, xstrElement_ends hjob rfl hparked haway rfl,
        fun bs u hhead hcount hindex => xstrElement_indexed hjob rfl hparked haway hhead hcount hindex,
        fun va u hhead hcount hindex hgranted hroom => xstrElement_parks hjob rfl hparked haway hhead hcount hindex hgranted hroom⟩,
      fun e hjob hcount => ⟨xstrComplete_waits hjob rfl hcount, fun hout _ => xstrComplete_ends (c := c) (d := d) hjob rfl hcount hout⟩,
      fun code e hjob => xstrComplete_fails hjob rfl⟩
end Sys2Proof.Machine
end

