-- ==== Sys2Proof/Proofs/StreamNest.lean ====
section
/-! PROOF. The nest of a stream: the element that its indices name, the next one, and the sideband of an element (05_core_memory, R162, R163). -/
namespace Sys2Proof.Machine
open Sys2Proof.Claims

theorem toList_four {α : Type} (v : Vector α 4) (d : α) : v.toList = [vget v 0 d, vget v 1 d, vget v 2 d, vget v 3 d] := by
  refine List.ext_getElem (by simp) fun i hi _ => ?_
  obtain rfl | rfl | rfl | rfl : i = 0 ∨ i = 1 ∨ i = 2 ∨ i = 3 := by
    simp only [Vector.length_toList] at hi
    omega
  all_goals simp [vget_eq]
theorem forall_lt_four {P : Nat → Prop} : (∀ j < 4, P j) ↔ P 0 ∧ P 1 ∧ P 2 ∧ P 3 := by
  constructor
  · exact fun h => ⟨h 0 (by omega), h 1 (by omega), h 2 (by omega), h 3 (by omega)⟩
  · rintro ⟨h0, h1, h2, h3⟩ j hj
    obtain rfl | rfl | rfl | rfl : j = 0 ∨ j = 1 ∨ j = 2 ∨ j = 3 := by omega
    all_goals assumption

section
variable {st : Stream}

/-! ## The element that the indices name (R162) -/

/-- Where the element that the indices name lies. -/
def nestAt (st : Stream) : Int := st.base + ((List.range 4).map (fun j => ((vget st.idx j 0 : Nat) : Int) * (vget st.str j 0).toInt)).sum
theorem elementAt_eq (h : 0 ≤ nestAt st) : (elementAt st : Int) = nestAt st := by
  have hfold : (st.idx.toList.zip st.str.toList).foldl (fun (a : Int) p => a + Int.ofNat p.1 * p.2.toInt) (Int.ofNat st.base) = nestAt st := by
    rw [toList_four st.idx 0, toList_four st.str 0, nestAt]
    simp only [List.zip_cons_cons, List.zip_nil_right, List.foldl_cons, List.foldl_nil, List.range_succ, List.range_zero, List.nil_append,
      List.cons_append, List.map_cons, List.map_nil, List.sum_cons, List.sum_nil, Int.ofNat_eq_natCast]
    omega
  rw [elementAt, hfold, Int.toNat_of_nonneg h]

/-! ## The next element (R163) -/

/-- The number of the element that the indices name, in the order of the nest. -/
def nestPlace (cnt idx : Vector Nat 4) : Nat :=
  vget idx 0 0 + vget cnt 0 1 * (vget idx 1 0 + vget cnt 1 1 * (vget idx 2 0 + vget cnt 2 1 * vget idx 3 0))
/-- The elements of a nest. -/
def nestSize (cnt : Vector Nat 4) : Nat := vget cnt 0 1 * vget cnt 1 1 * vget cnt 2 1 * vget cnt 3 1
/-- Every index lies below its count. -/
def InNest (cnt idx : Vector Nat 4) : Prop := ∀ j < 4, vget idx j 0 < vget cnt j 1
/-- The index of a loop stands at its last value. -/
def AtLast (st : Stream) (j : Nat) : Prop := vget st.idx j 0 + 1 = vget st.cnt j 1
theorem nestNext_eq : nestNext (st.cnt.toList.zip st.idx.toList) =
    if vget st.idx 0 0 + 1 < vget st.cnt 0 1 then some [vget st.idx 0 0 + 1, vget st.idx 1 0, vget st.idx 2 0, vget st.idx 3 0]
    else if vget st.idx 1 0 + 1 < vget st.cnt 1 1 then some [0, vget st.idx 1 0 + 1, vget st.idx 2 0, vget st.idx 3 0]
    else if vget st.idx 2 0 + 1 < vget st.cnt 2 1 then some [0, 0, vget st.idx 2 0 + 1, vget st.idx 3 0]
    else if vget st.idx 3 0 + 1 < vget st.cnt 3 1 then some [0, 0, 0, vget st.idx 3 0 + 1]
    else none := by
  rw [toList_four st.cnt 1, toList_four st.idx 0]
  simp only [List.zip_cons_cons, List.zip_nil_right, nestNext, List.map_cons, List.map_nil]
  repeat' split
  all_goals rfl
/-- A stream at other indices of its nest. -/
def atIndices (st : Stream) (l : List Nat) : Stream := { st with idx := #v[l.getD 0 0, l.getD 1 0, l.getD 2 0, l.getD 3 0] }
/-- A stream at the indices that follow, or done. -/
def movedOn (st : Stream) : Option (List Nat) → Stream
  | some l => atIndices st l
  | none => { st with done := true }
theorem stepNest_eq : stepNest st = movedOn st (nestNext (st.cnt.toList.zip st.idx.toList)) := by
  unfold stepNest
  split <;> next h => rw [h]; rfl
theorem horner_lt {i c a n : Nat} (hi : i < c) (ha : a < n) : i + c * a < c * n :=
  calc i + c * a < c + c * a := Nat.add_lt_add_right hi _
    _ = c * (a + 1) := by ring
    _ ≤ c * n := Nat.mul_le_mul_left c ha
theorem nestPlace_lt {cnt idx : Vector Nat 4} (h : InNest cnt idx) : nestPlace cnt idx < nestSize cnt := by
  obtain ⟨h0, h1, h2, h3⟩ := forall_lt_four.mp h
  have hlt := horner_lt h0 (horner_lt h1 (horner_lt h2 h3))
  rwa [← Nat.mul_assoc (vget cnt 1 1), ← Nat.mul_assoc, ← Nat.mul_assoc] at hlt
theorem stepNest_last (h : ∀ j < 4, AtLast st j) : stepNest st = { st with done := true } := by
  obtain ⟨h0, h1, h2, h3⟩ := forall_lt_four.mp h
  simp only [AtLast] at h0 h1 h2 h3
  rw [stepNest_eq, nestNext_eq, if_neg (by omega), if_neg (by omega), if_neg (by omega), if_neg (by omega)]
  rfl
/-- Before its last element a nest goes on by one. -/
theorem stepNest_next (hin : InNest st.cnt st.idx) (h : ¬ ∀ j < 4, AtLast st j) : ∃ l, stepNest st = atIndices st l ∧
    InNest st.cnt (atIndices st l).idx ∧ nestPlace st.cnt (atIndices st l).idx = nestPlace st.cnt st.idx + 1 := by
  obtain ⟨b0, b1, b2, b3⟩ := forall_lt_four.mp hin
  rw [forall_lt_four] at h
  simp only [AtLast] at h
  rw [stepNest_eq, nestNext_eq]
  have hidx (l : List Nat) : vget (atIndices st l).idx 0 0 = l.getD 0 0 ∧ vget (atIndices st l).idx 1 0 = l.getD 1 0 ∧
      vget (atIndices st l).idx 2 0 = l.getD 2 0 ∧ vget (atIndices st l).idx 3 0 = l.getD 3 0 := ⟨rfl, rfl, rfl, rfl⟩
  simp only [InNest, forall_lt_four, nestPlace, hidx]
  by_cases h0 : vget st.idx 0 0 + 1 < vget st.cnt 0 1
  · rw [if_pos h0]
    exact ⟨_, rfl, ⟨h0, b1, b2, b3⟩, by simp only [List.getD_cons_zero, List.getD_cons_succ]; ring⟩
  · have e0 : vget st.cnt 0 1 = vget st.idx 0 0 + 1 := by omega
    rw [if_neg h0]
    by_cases h1 : vget st.idx 1 0 + 1 < vget st.cnt 1 1
    · rw [if_pos h1]
      exact ⟨_, rfl, ⟨by simp only [List.getD_cons_zero]; omega, h1, b2, b3⟩,
        by simp only [List.getD_cons_zero, List.getD_cons_succ, e0]; ring⟩
    · have e1 : vget st.cnt 1 1 = vget st.idx 1 0 + 1 := by omega
      rw [if_neg h1]
      by_cases h2 : vget st.idx 2 0 + 1 < vget st.cnt 2 1
      · rw [if_pos h2]
        exact ⟨_, rfl, ⟨by simp only [List.getD_cons_zero]; omega, by simp only [List.getD_cons_zero, List.getD_cons_succ]; omega, h2, b3⟩,
          by simp only [List.getD_cons_zero, List.getD_cons_succ, e0, e1]; ring⟩
      · have e2 : vget st.cnt 2 1 = vget st.idx 2 0 + 1 := by omega
        rw [if_neg h2, if_pos (by omega)]
        exact ⟨_, rfl, ⟨by simp only [List.getD_cons_zero]; omega, by simp only [List.getD_cons_zero, List.getD_cons_succ]; omega,
          by simp only [List.getD_cons_zero, List.getD_cons_succ]; omega, by simp only [List.getD_cons_zero, List.getD_cons_succ]; omega⟩,
          by simp only [List.getD_cons_zero, List.getD_cons_succ, e0, e1, e2]; ring⟩
theorem nestPlace_last (hin : InNest st.cnt st.idx) : nestPlace st.cnt st.idx + 1 = nestSize st.cnt ↔ ∀ j < 4, AtLast st j := by
  constructor
  · intro hsize
    by_contra h
    obtain ⟨l, -, hl, hplace⟩ := stepNest_next hin h
    have := nestPlace_lt hl
    omega
  · intro h
    obtain ⟨h0, h1, h2, h3⟩ := forall_lt_four.mp h
    simp only [AtLast] at h0 h1 h2 h3
    rw [nestPlace, nestSize, ← h0, ← h1, ← h2, ← h3]
    ring

/-! ## The sideband of an element (R163) -/

/-- Bit j of d of an element. -/
def endsAt (st : Stream) (j : Nat) : Bool := (List.range (j + 1)).all (fun k => vget st.idx k 0 + 1 == vget st.cnt k 1)
theorem endsAt_iff {j : Nat} : endsAt st j = true ↔ ∀ k ≤ j, AtLast st k := by
  simp only [endsAt, List.all_eq_true, List.mem_range, beq_iff_eq, AtLast, Nat.lt_succ_iff]
theorem nestEnds_eq : nestEnds st = ofBool (endsAt st 0) + 2 * ofBool (endsAt st 1) + 4 * ofBool (endsAt st 2) + 8 * ofBool (endsAt st 3) := by
  have hadd (a k : Nat) (b : Bool) : (if b then a + 2 ^ k else a) = a + ofBool b * 2 ^ k := by cases b <;> simp [ofBool]
  show ((List.range 4).filter (endsAt st)).foldl (fun a k => a + 2 ^ k) 0 = _
  simp only [List.foldl_filter, hadd, List.range_succ, List.range_zero, List.nil_append, List.cons_append, List.foldl_cons, List.foldl_nil]
  omega
theorem ofBool_le (b : Bool) : ofBool b ≤ 1 := by cases b <;> decide
theorem ofBool_eq_one {b : Bool} : ofBool b = 1 ↔ b = true := by cases b <;> decide
theorem nestEnds_lt : nestEnds st < 16 := by
  have h0 := ofBool_le (endsAt st 0)
  have h1 := ofBool_le (endsAt st 1)
  have h2 := ofBool_le (endsAt st 2)
  have h3 := ofBool_le (endsAt st 3)
  rw [nestEnds_eq]
  omega
theorem nestEnds_bit {k : Nat} (hk : k < 4) : nestEnds st / 2 ^ k % 2 = 1 ↔ ∀ j ≤ k, AtLast st j := by
  have h0 := ofBool_le (endsAt st 0)
  have h1 := ofBool_le (endsAt st 1)
  have h2 := ofBool_le (endsAt st 2)
  have h3 := ofBool_le (endsAt st 3)
  rw [← endsAt_iff, ← ofBool_eq_one, nestEnds_eq]
  obtain rfl | rfl | rfl | rfl : k = 0 ∨ k = 1 ∨ k = 2 ∨ k = 3 := by omega
  all_goals omega
theorem nestEnds_all : nestEnds st = 15 ↔ ∀ j < 4, AtLast st j := by
  have h0 := nestEnds_bit (st := st) (k := 0) (by omega)
  have h1 := nestEnds_bit (st := st) (k := 1) (by omega)
  have h2 := nestEnds_bit (st := st) (k := 2) (by omega)
  have h3 := nestEnds_bit (st := st) (k := 3) (by omega)
  have hlt := nestEnds_lt (st := st)
  constructor
  · intro h j hj
    exact h3.mp (by omega) j (by omega)
  · intro h
    have g0 := h0.mpr fun j hj => h j (by omega)
    have g1 := h1.mpr fun j hj => h j (by omega)
    have g2 := h2.mpr fun j hj => h j (by omega)
    have g3 := h3.mpr fun j hj => h j (by omega)
    omega
theorem toNat_elementSb : (elementSb st).toNat =
    ofBool (st.esz == 3) * 2 ^ 39 + ofBool st.fm * 2 ^ 10 + nestEnds st * 64 + ofBool (nestEnds st == 15) * 32 + st.fmt.toNat := by
  have he := ofBool_le (st.esz == 3)
  have hf := ofBool_le st.fm
  have hd := nestEnds_lt (st := st)
  have hl := ofBool_le (nestEnds st == 15)
  have hfmt := st.fmt.isLt
  rw [elementSb, BitVec.toNat_ofNat, Nat.mod_eq_of_lt (by omega)]
theorem ofBool_eq_ite (b : Bool) {p : Prop} [Decidable p] (h : b = true ↔ p) : ofBool b = if p then 1 else 0 := by
  by_cases hp : p
  · rw [if_pos hp, h.mpr hp]
    rfl
  · rw [if_neg hp, Bool.eq_false_iff.mpr (mt h.mp hp)]
    rfl
theorem elementSb_parts (hin : InNest st.cnt st.idx) :
    part (elementSb st) 0 3 = st.fmt.toNat ∧ part (elementSb st) 3 2 = 0 ∧
    part (elementSb st) 5 1 = (if nestPlace st.cnt st.idx + 1 = nestSize st.cnt then 1 else 0) ∧
    (∀ k < 4, (elementSb st).getLsbD (6 + k) = true ↔ ∀ j ≤ k, AtLast st j) ∧
    part (elementSb st) 10 1 = (if st.fm then 1 else 0) ∧ part (elementSb st) 39 1 = (if st.esz = 3 then 1 else 0) ∧
    part (elementSb st) 11 28 = 0 := by
  have hlast : ofBool (nestEnds st == 15) = if nestPlace st.cnt st.idx + 1 = nestSize st.cnt then 1 else 0 :=
    ofBool_eq_ite _ (by rw [beq_iff_eq, nestEnds_all, nestPlace_last hin])
  have hfm : ofBool st.fm = if st.fm then 1 else 0 := ofBool_eq_ite _ Iff.rfl
  have hesz : ofBool (st.esz == 3) = if st.esz = 3 then 1 else 0 := ofBool_eq_ite _ beq_iff_eq
  rw [← hlast, ← hfm, ← hesz]
  have he := ofBool_le (st.esz == 3)
  have hf := ofBool_le st.fm
  have hd := nestEnds_lt (st := st)
  have hl := ofBool_le (nestEnds st == 15)
  have hfmt := st.fmt.isLt
  have hsb := toNat_elementSb (st := st)
  generalize ofBool (st.esz == 3) = e at *
  generalize ofBool st.fm = f at *
  generalize ofBool (nestEnds st == 15) = l at *
  have hends (k : Nat) (hk : k < 4) : (elementSb st).getLsbD (6 + k) = true ↔ ∀ j ≤ k, AtLast st j := by
    rw [← nestEnds_bit hk, BitVec.getLsbD, Nat.testBit_eq_decide_div_mod_eq, decide_eq_true_eq, hsb]
    obtain rfl | rfl | rfl | rfl : k = 0 ∨ k = 1 ∨ k = 2 ∨ k = 3 := by omega
    all_goals omega
  refine ⟨?_, ?_, ?_, hends, ?_, ?_, ?_⟩
  all_goals
    rw [part, hsb]
    omega
/-- What the nest of a stream gives: the first part of O42. -/
theorem nest_outcome (hin : InNest st.cnt st.idx) :
    (0 ≤ nestAt st → (elementAt st : Int) = nestAt st) ∧
    (nestPlace st.cnt st.idx + 1 < nestSize st.cnt → nestPlace st.cnt (stepNest st).idx = nestPlace st.cnt st.idx + 1 ∧
      stepNest st = { st with idx := (stepNest st).idx } ∧ InNest st.cnt (stepNest st).idx) ∧
    (nestPlace st.cnt st.idx + 1 = nestSize st.cnt → stepNest st = { st with done := true }) := by
  refine ⟨elementAt_eq, fun hlt => ?_, fun hsize => stepNest_last ((nestPlace_last hin).mp hsize)⟩
  obtain ⟨l, hstep, hl, hplace⟩ := stepNest_next hin fun h => by
    have := (nestPlace_last hin).mpr h
    omega
  rw [hstep]
  exact ⟨hplace, rfl, hl⟩
end
end Sys2Proof.Machine
end

