-- ==== Sys2Proof/Proofs/StreamChecks.lean ====
section
/-! PROOF. The registers of streams, the address that a stream's engine computes, and the fetches of read streams (05_core_memory, R163,
R165; 07_core_failures, R205, R206). -/
namespace Sys2Proof.Machine
open Sys2Proof.Claims

section
variable {s t u : State} {k c q : Nat}

/-! ## Contexts and their streams -/

theorem sameMemory_setCtx {x : Ctx} : SameMemory s (setCtx s k c x) := sameMemory_setCore rfl rfl rfl
theorem sameMemory_setStream {n : Stream} : SameMemory s (setStream s k c q n) := sameMemory_setCtx
theorem ctxOf_setStream {n : Stream} (hc : c < 4) : ctxOf (setStream s k c q n) k c = { ctxOf s k c with q := vset (ctxOf s k c).q q n } :=
  ctxOf_setCtx_same _ _ _ _ hc
theorem streamOf_setStream {n : Stream} (hc : c < 4) (hq : q < 4) : streamOf (setStream s k c q n) k c q = n := by
  rw [streamOf, ctxOf_setStream hc]
  exact vget_vset_same _ _ _ _ hq
theorem streamOf_of_q (h : (ctxOf t k c).q = (ctxOf s k c).q) : streamOf t k c q = streamOf s k c q := by rw [streamOf, h, streamOf]
theorem ctxOf_agendaOnly (h : AgendaOnly s t) (k c : Nat) : ctxOf t k c = ctxOf s k c := by
  obtain ⟨_, rfl⟩ := h
  rfl
theorem streamOf_agendaOnly (h : AgendaOnly s t) : streamOf t k c q = streamOf s k c q := streamOf_of_q (by rw [ctxOf_agendaOnly h])
theorem agendaOnly_wakeStream : AgendaOnly s (wakeStream s k c q) := by
  unfold wakeStream
  dsimp only
  split
  · exact agendaOnly_schedule
  · split
    · exact agendaOnly_refl s
    · split <;> split
      · exact agendaOnly_refl s
      · exact agendaOnly_schedule
      · exact agendaOnly_refl s
      · exact agendaOnly_schedule
theorem agendaOnly_wakeDrain : AgendaOnly s (wakeDrain s k c q) := by
  unfold wakeDrain
  dsimp only
  split
  · exact agendaOnly_schedule
  · exact agendaOnly_refl s
theorem agendaOnly_woken : AgendaOnly s (wakeDrain (wakeStream s k c q) k c q) := agendaOnly_trans agendaOnly_wakeStream agendaOnly_wakeDrain

/-! ## The address that an engine computes (07_core_failures, R205, R206) -/

theorem engineAddress_clean {st : Stream} (h : (coreOf s k).upsets.count (4 * c + q) = 0) : engineAddress s k c q st = (true, s) := by
  have hno : (coreOf s k).upsets.contains (4 * c + q) = false := by
    rw [Bool.eq_false_iff]
    exact mt List.contains_iff_mem.mp (List.count_eq_zero.mp h)
  simp only [engineAddress, hno]
  rfl
/-- A core with one upset of a stream gone. -/
def struckOff (s : State) (k i : Nat) : State := setCore s k { coreOf s k with upsets := (coreOf s k).upsets.erase i }
theorem count_struckOff (i : Nat) : (coreOf (struckOff s k i) k).upsets.count i = (coreOf s k).upsets.count i - 1 := by
  rw [struckOff, coreOf_setCore_same]
  exact List.count_erase_self
theorem contains_of_count {l : List Nat} {i : Nat} (h : 1 ≤ l.count i) : l.contains i = true := List.contains_iff_mem.mpr (List.count_pos_iff.mp h)
theorem ctxOf_struckOff (i : Nat) : ctxOf (struckOff s k i) k c = ctxOf s k c := by
  rw [struckOff, ctxOf_setCore]
  rfl
theorem traps_struckOff (i : Nat) : (coreOf (struckOff s k i) k).traps = (coreOf s k).traps := by rw [struckOff, coreOf_setCore_same]
theorem sameMemory_struckOff {i : Nat} : SameMemory s (struckOff s k i) := sameMemory_setCore rfl rfl rfl
/-- The state in which a stream that was struck twice is paused. -/
def struckDown (s : State) (k c q : Nat) : State :=
  let t := struckOff (struckOff s k (4 * c + q)) k (4 * c + q)
  setStream t k c q { streamOf t k c q with paused := true }
theorem ctxOf_struckDown (hc : c < 4) : ctxOf (struckDown s k c q) k c =
    { ctxOf s k c with q := vset (ctxOf s k c).q q { streamOf s k c q with paused := true } } := by
  simp only [struckDown]
  rw [ctxOf_setStream hc, streamOf, ctxOf_struckOff, ctxOf_struckOff, streamOf]
theorem traps_struckDown : (coreOf (struckDown s k c q) k).traps = (coreOf s k).traps := by
  simp only [struckDown, setStream, coreOf_setCtx]
  rw [traps_struckOff, traps_struckOff]
theorem sameMemory_struckDown : SameMemory s (struckDown s k c q) :=
  sameMemory_trans (sameMemory_trans sameMemory_struckOff sameMemory_struckOff) sameMemory_setStream
/-- The residue that the check of an element's address observes. -/
def observed (a : Nat) : BitVec 3 := residue7 (a % 7 + 1 + (Config.residue a).toNat % 6)
theorem observed_ne (a : Nat) : observed a ≠ residue7 a := by
  intro h
  have := congrArg BitVec.toNat h
  simp only [observed, residue7, BitVec.toNat_ofNat] at this
  omega
/-- The state after the second strike of a stream: its context takes the machine check after its next round, or at the next boundary. -/
def machineChecked (s : State) (k c q a : Nat) : State :=
  let t := struckDown s k c q
  if eligible (ctxOf t k c) then setCtx t k c { ctxOf t k c with checks := (ctxOf t k c).checks ++ [(q, residue7 a, observed a)] }
  else trapAtBoundary t k c (engineCause q (residue7 a) (observed a))
theorem engineAddress_struck {st : Stream} (h : 2 ≤ (coreOf s k).upsets.count (4 * c + q)) :
    engineAddress s k c q st = (false, machineChecked s k c q (elementAt st)) := by
  have hone := contains_of_count (show 1 ≤ (coreOf s k).upsets.count (4 * c + q) by omega)
  have htwo : (coreOf (struckOff s k (4 * c + q)) k).upsets.contains (4 * c + q) = true :=
    contains_of_count (by rw [count_struckOff]; omega)
  unfold struckOff at htwo
  simp only [engineAddress, hone, htwo, Bool.not_true, Bool.false_eq_true, if_false]
  unfold machineChecked
  dsimp only
  rw [apply_ite (Prod.mk false)]
  rfl
/-- A stream of context c has stopped with a machine check, and no memory changed (R206). -/
def Checked (s t : State) (k c q : Nat) : Prop :=
  SameMemory s t ∧ streamOf t k c q = { streamOf s k c q with paused := true } ∧
    (eligible (ctxOf s k c) = true → ∃ o, o ≠ residue7 (elementAt (streamOf s k c q)) ∧
      (ctxOf t k c).checks = (ctxOf s k c).checks ++ [(q, residue7 (elementAt (streamOf s k c q)), o)]) ∧
    (eligible (ctxOf s k c) = false → ∃ r, (coreOf t k).traps = (coreOf s k).traps ++ [(c, r)] ∧ field r.w0 56 8 = 0x02 ∧ field r.w0 54 2 = 2 ∧
      field r.w0 28 3 = 7 ∧ r.w3.toNat = q)
theorem engineRecord_fields {e o : BitVec 3} (hq : q < 4) : field (recordOf s k c (engineCause q e o) false false).w0 56 8 = 0x02 ∧
    field (recordOf s k c (engineCause q e o) false false).w0 54 2 = 2 ∧ field (recordOf s k c (engineCause q e o) false false).w0 28 3 = 7 ∧
    (recordOf s k c (engineCause q e o) false false).w3.toNat = q := by
  have he := e.isLt
  have ho := o.isLt
  have hword : (recordOf s k c (engineCause q e o) false false).w0.toNat =
      2 * 2 ^ 56 + 2 * 2 ^ 54 + c % 4 * 2 ^ 50 + 7 * 2 ^ 28 + e.toNat * 2 ^ 21 + o.toNat * 2 ^ 18 := by
    have hw : (recordOf s k c (engineCause q e o) false false).w0 = BitVec.ofNat 64 (2 * 2 ^ 56 + 2 % 4 * 2 ^ 54 + 0 * 2 ^ 53 + 0 * 2 ^ 52 +
        (c % 4 * 2 ^ 50 + 0 % 64 * 2 ^ 44 + 0 % 32 * 2 ^ 39) + 0 * 2 ^ 31 + 7 * 2 ^ 28 + 0 * 2 ^ 24 + e.toNat * 2 ^ 21 + o.toNat * 2 ^ 18) := rfl
    rw [hw, BitVec.toNat_ofNat]
    omega
  simp only [field, hword]
  refine ⟨by omega, by omega, by omega, ?_⟩
  simp only [recordOf, engineCause, BitVec.toNat_ofNat]
  omega
theorem traps_trapAtBoundary (s : State) (k c : Nat) (cause : Cause) :
    (coreOf (trapAtBoundary s k c cause) k).traps = (coreOf s k).traps ++ [(c, recordOf s k c cause false false)] := by
  rw [trapAtBoundary, coreOf_setCore_same]
theorem checked_machineChecked (hc : c < 4) (hq : q < 4) : Checked s (machineChecked s k c q (elementAt (streamOf s k c q))) k c q := by
  have hctx := ctxOf_struckDown (s := s) (k := k) (q := q) hc
  have heligible : eligible (ctxOf (struckDown s k c q) k c) = eligible (ctxOf s k c) := by rw [hctx]; rfl
  have hstream : streamOf (struckDown s k c q) k c q = { streamOf s k c q with paused := true } := by
    rw [streamOf, hctx]
    exact vget_vset_same _ _ _ _ hq
  unfold machineChecked
  dsimp only
  rw [heligible]
  cases hel : eligible (ctxOf s k c) with
  | true =>
    rw [if_pos rfl]
    refine ⟨sameMemory_trans sameMemory_struckDown sameMemory_setCtx, ?_, fun _ => ⟨observed _, observed_ne _, ?_⟩, fun h => ?_⟩
    · rw [← hstream]
      exact streamOf_of_q (by rw [ctxOf_setCtx_same _ _ _ _ hc])
    · rw [ctxOf_setCtx_same _ _ _ _ hc, hctx]
    · rw [hel] at h
      nomatch h
  | false =>
    rw [if_neg (by decide)]
    refine ⟨sameMemory_trans sameMemory_struckDown (sameMemory_setCore rfl rfl rfl), ?_, fun h => ?_, fun _ => ?_⟩
    · rw [← hstream]
      exact streamOf_of_q (by rw [trapAtBoundary, ctxOf_setCore]; rfl)
    · rw [hel] at h
      nomatch h
    · exact ⟨_, (traps_trapAtBoundary ..).trans (by rw [traps_struckDown]), engineRecord_fields hq⟩

/-! ## Fetches -/

/-- A read stream whose engine may fetch: bound, reading, not paused, with elements left and room for them, and alone. -/
structure Fetching (s : State) (k c q : Nat) : Prop where
  x : s.ev.x = k
  y : s.ev.y = c
  z : s.ev.z = q
  bound : (streamOf s k c q).bound = true
  reads : (streamOf s k c q).dir = false
  runs : (streamOf s k c q).paused = false
  more : (streamOf s k c q).done = false
  room : (streamOf s k c q).fetched.length < 64
  alone : oldBinding (ctxOf s k c) q = none

/-- Where the next element of a stream lies in its physical core. -/
def elementOffset (s : State) (k c : Nat) (st : Stream) : Nat := windowed s (ctxOf s k c).lx (ctxOf s k c).ly (elementAt st)
/-- The element that a stream's nest names, as its engine fetches it. -/
def elementToken (s : State) (k c : Nat) (st : Stream) : Token where
  sb := elementSb st
  pay := ofBytes (portRead s k (elementOffset s k c st) (elementSize st.esz))
  src := none
/-- A read stream past its next element, which it holds. -/
def fetchedOn (st : Stream) (tok : Token) : Stream := { stepNest st with fetched := st.fetched ++ [tok] }
theorem exec_streamFetch (h : Fetching s k c q) : exec .streamFetch s =
    match engineAddress s k c q (streamOf s k c q) with
    | (false, t) => .next t
    | (true, t) =>
      if portBad t k (elementOffset s k c (streamOf s k c q)) (elementSize (streamOf s k c q).esz) then
        .next (consumeError t (ctxOf s k c).region cEccUe)
      else
        let n := elementSize (streamOf s k c q).esz
        let off := elementOffset s k c (streamOf s k c q)
        let tok : Token := { sb := elementSb (streamOf s k c q), pay := ofBytes (portRead t k off n), src := none }
        let t := setStream (countCorrected t k off n) k c q (fetchedOn (streamOf s k c q) tok)
        .next (wakeDrain (wakeStream t k c q) k c q) := by
  obtain ⟨rfl, rfl, rfl, hbound, hreads, hruns, hmore, hroom, halone⟩ := h
  show execStreamFetch s = _
  unfold execStreamFetch
  dsimp only
  rw [if_neg]
  · rfl
  · rw [hbound, hreads, hruns, hmore, halone]
    simpa using hroom
theorem streamFetch_struck (h : Fetching s k c q) (hc : c < 4) (hq : q < 4) (hstruck : 2 ≤ (coreOf s k).upsets.count (4 * c + q)) :
    Runs .streamFetch s fun t => Checked s t k c q := by
  refine ⟨_, ?_, checked_machineChecked hc hq⟩
  rw [exec_streamFetch h, engineAddress_struck hstruck]
theorem streamFetch_bad (h : Fetching s k c q) (hclean : (coreOf s k).upsets.count (4 * c + q) = 0)
    (hbad : portBad s k (elementOffset s k c (streamOf s k c q)) (elementSize (streamOf s k c q).esz) = true) :
    Runs .streamFetch s fun t => RollsBack s t (ctxOf s k c).region 0x07 ∧ streamOf t k c q = streamOf s k c q := by
  refine ⟨consumeError s (ctxOf s k c).region cEccUe, ?_, rollsBack_consumeError rfl, rfl⟩
  rw [exec_streamFetch h, engineAddress_clean hclean]
  exact if_pos hbad
theorem streamFetch_good (h : Fetching s k c q) (hc : c < 4) (hq : q < 4) (hclean : (coreOf s k).upsets.count (4 * c + q) = 0)
    (hgood : portBad s k (elementOffset s k c (streamOf s k c q)) (elementSize (streamOf s k c q).esz) = false) :
    Runs .streamFetch s fun t => SameMemory s t ∧ streamOf t k c q = fetchedOn (streamOf s k c q)
      (elementToken s k c (streamOf s k c q)) := by
  have hrun := exec_streamFetch h
  rw [engineAddress_clean hclean] at hrun
  refine ⟨_, hrun.trans (if_neg (by rw [hgood]; decide)), ?_, ?_⟩
  · exact sameMemory_trans sameMemory_countCorrected (sameMemory_trans sameMemory_setStream (agendaOnly_sameMemory agendaOnly_woken))
  · exact (streamOf_agendaOnly agendaOnly_woken).trans (streamOf_setStream hc hq)
end
end Sys2Proof.Machine
end

