-- ==== Sys2Proof/Proofs/StreamWrites.lean ====
section
/-! PROOF. The elements that write streams write, the bindings that they end, and the tags of their drains (05_core_memory, R163 to R165). -/
namespace Sys2Proof.Machine
open Sys2Proof.Claims

section
variable {s t u : State} {k c q : Nat} {b : Stream} {v : V512} {r : List V512}

/-! ## The head of a queue written -/

theorem take_leBytes {m n : Nat} (h : n ≤ m) (v : Nat) : (leBytes m v).take n = leBytes n v := by
  induction m generalizing n v with
  | zero => rw [Nat.le_zero.mp h, List.take_zero, leBytes]
  | succ m ih =>
    cases n with
    | zero => rw [List.take_zero, leBytes]
    | succ n => rw [leBytes, List.take_succ_cons, ih (Nat.le_of_succ_le_succ h), leBytes]
/-- A write stream past its oldest element. -/
def pastHead (b : Stream) (r : List V512) : Stream :=
  { (if b.done then b else stepNest b) with queued := r, drains := b.drains.map (fun d => (d.1, d.2 - 1)) }
theorem drains_stepNest : (stepNest b).drains = b.drains := by
  unfold stepNest
  split <;> rfl
/-- The places of the element that a stream's nest names. -/
def elementPlace (s : State) (k c : Nat) (b : Stream) (i : Nat) : Nat := portOffset s k (elementOffset s k c b + i) false
theorem stream_writeHead (hq : b.queued = v :: r) : (writeHead s k c b).2 = pastHead b r := by
  unfold writeHead pastHead
  rw [hq]
  dsimp only
  split
  · rfl
  · rw [drains_stepNest]
theorem writeHead_done (hq : b.queued = v :: r) (hdone : b.done = true) : (writeHead s k c b).1 = s := by
  unfold writeHead
  rw [hq]
  exact if_pos hdone
theorem banked_writeHead (hq : b.queued = v :: r) (hdone : b.done = false) (hlog : Unlogged s k)
    (hplaces : Places (elementSize b.esz) (elementPlace s k c b)) :
    Banked s (writeHead s k c b).1 k (valueAt (elementSize b.esz) (elementPlace s k c b) v.toNat) := by
  have hsize : elementSize b.esz ≤ 64 := by
    rw [elementSize]
    split <;> decide
  have hbytes : (placed (elementOffset s k c b) ((vBytes v).take (elementSize b.esz))).map (fun p => (portOffset s k p.1 false, p.2)) =
      valueAt (elementSize b.esz) (elementPlace s k c b) v.toNat := by
    rw [vBytes, take_leBytes hsize, placed_leBytes, List.map_map]
    rfl
  have hwrite : (writeHead s k c b).1 = storeBytes s k (some c) (valueAt (elementSize b.esz) (elementPlace s k c b) v.toNat) := by
    rw [← hbytes]
    unfold writeHead
    rw [hq]
    exact if_neg (by rw [hdone]; decide)
  rw [hwrite]
  refine banked_storeBytes hlog.2 _ fun p hp => ?_
  obtain ⟨i, hi, rfl⟩ := List.mem_map.mp hp
  exact hplaces.1 i (List.mem_range.mp hi)
theorem ctxOf_banked {ps : List (Nat × Byte)} (h : Banked s t k ps) : ctxOf t k c = ctxOf s k c := by
  obtain ⟨_, _, _, rfl⟩ := h
  rw [ctxOf_setCore]
  rfl
theorem storedAt_writeHead (hq : b.queued = v :: r) (hdone : b.done = false) (hlog : Unlogged s k)
    (hplaces : Places (elementSize b.esz) (elementPlace s k c b)) :
    StoredAt s (writeHead s k c b).1 k (elementSize b.esz) (elementPlace s k c b) v.toNat :=
  storedAt_of_banked hlog.1 hplaces (banked_writeHead hq hdone hlog hplaces)

/-! ## Tags of drains -/

theorem getLsbD_drainTags {n : Nat} (hn : n < 64) (ds : List (Nat × Nat)) (b : W64) :
    (ds.foldl (fun b d => b ||| (1#64 <<< d.1)) b).getLsbD n = true ↔ b.getLsbD n = true ∨ ∃ d ∈ ds, d.1 = n := by
  induction ds generalizing b with
  | nil => simp
  | cons d ds ih =>
    have hbit : (1#64 <<< d.1).getLsbD n = true ↔ d.1 = n := by
      simp only [BitVec.getLsbD_shiftLeft, BitVec.getLsbD_one]
      simp
      omega
    rw [List.foldl_cons, ih, BitVec.getLsbD_or, Bool.or_eq_true, hbit, or_assoc]
    simp only [List.mem_cons, exists_eq_or_imp]
/-- What a drain of a stream waits for has happened. -/
def Met (b : Stream) (d : Nat × Nat) : Prop := (b.dir = true ∧ d.2 = 0) ∨ (b.dir = false ∧ b.done = true)
theorem drainMet_iff {d : Nat × Nat} : drainMet b d = true ↔ Met b d := by
  unfold drainMet Met
  cases b.dir <;> simp
theorem tb_setDrainTags {x : Ctx} {n : Nat} (hn : n < 64) : (setDrainTags x (b.drains.filter (drainMet b))).tb.getLsbD n = true ↔
    x.tb.getLsbD n = true ∨ ∃ d ∈ b.drains, d.1 = n ∧ Met b d := by
  refine (getLsbD_drainTags hn _ _).trans (or_congr_right ?_)
  simp only [List.mem_filter, drainMet_iff]
  constructor
  · rintro ⟨d, ⟨hd, hmet⟩, hn⟩
    exact ⟨d, hd, hn, hmet⟩
  · rintro ⟨d, hd, hn, hmet⟩
    exact ⟨d, ⟨hd, hmet⟩, hn⟩
theorem streamDrainTag_outcome (hx : s.ev.x = k) (hy : s.ev.y = c) (hz : s.ev.z = q) (hc : c < 4) (hq : q < 4) :
    Runs .streamDrainTag s fun t => SameMemory s t ∧
      (∀ n < 64, (ctxOf t k c).tb.getLsbD n = true ↔ (ctxOf s k c).tb.getLsbD n = true ∨
        ∃ d ∈ (streamOf s k c q).drains, d.1 = n ∧ Met (streamOf s k c q) d) ∧
      (∀ d, d ∈ (streamOf t k c q).drains ↔ d ∈ (streamOf s k c q).drains ∧ ¬ Met (streamOf s k c q) d) := by
  subst hx hy hz
  refine ⟨settleDrains s s.ev.x s.ev.y s.ev.z, rfl, sameMemory_trans sameMemory_setCtx sameMemory_setStream, fun n hn => ?_, fun d => ?_⟩
  · rw [settleDrains, ctxOf_setStream hc]
    rw [ctxOf_setCtx_same _ _ _ _ hc]
    exact tb_setDrainTags hn
  · rw [settleDrains, streamOf_setStream hc hq]
    simp only [List.mem_filter, Bool.not_eq_true', ← Bool.not_eq_true, drainMet_iff]

/-! ## Bindings that have been replaced -/

theorem find?_setOld {l : List (Nat × Stream)} {o : Nat × Stream} {n : Stream} (h : l.find? (fun e => e.1 == q) = some o) :
    (setOld q (some n) l).find? (fun e => e.1 == q) = some (q, n) := by
  induction l with
  | nil => nomatch h
  | cons e l ih =>
    rw [setOld]
    split
    · exact List.find?_cons_of_pos (beq_self_eq_true q)
    · next hne =>
      rw [List.find?_cons_of_neg (p := fun e => e.1 == q) (a := e) hne] at h ⊢
      exact ih h
theorem length_setOld {l : List (Nat × Stream)} {o : Nat × Stream} (h : l.find? (fun e => e.1 == q) = some o) :
    (setOld q none l).length + 1 = l.length := by
  induction l with
  | nil => nomatch h
  | cons e l ih =>
    rw [setOld]
    split
    · rfl
    · next hne =>
      rw [List.find?_cons_of_neg (p := fun e => e.1 == q) (a := e) hne] at h
      rw [List.length_cons, ih h, List.length_cons]
theorem oldq_of_oldBinding {x : Ctx} {o : Stream} (h : oldBinding x q = some o) : ∃ e, x.oldq.find? (fun e => e.1 == q) = some e := by
  obtain ⟨e, he, -⟩ := Option.map_eq_some_iff.mp h
  exact ⟨e, he⟩

/-! ## The steps of a write stream -/

/-- The step of a write stream is the next one. -/
structure Writing (s : State) (k c q : Nat) : Prop where
  x : s.ev.x = k
  y : s.ev.y = c
  z : s.ev.z = q
  context : c < 4
  stream : q < 4

theorem exec_streamWrite_old {o : Stream} (h : Writing s k c q) (hold : oldBinding (ctxOf s k c) q = some o) :
    exec .streamWrite s = .next (writeOld s k c q o) := by
  obtain ⟨rfl, rfl, rfl, -, -⟩ := h
  show execStreamWrite s = _
  simp only [execStreamWrite, hold]
theorem exec_streamWrite (h : Writing s k c q) (hold : oldBinding (ctxOf s k c) q = none) (hbound : (streamOf s k c q).bound = true)
    (hdir : (streamOf s k c q).dir = true) (hgoes : (streamOf s k c q).paused = false ∨ (streamOf s k c q).unbinding = true) :
    exec .streamWrite s =
      if (streamOf s k c q).queued.isEmpty then
        if (streamOf s k c q).unbinding then .next (setStream (endBinding s k c (streamOf s k c q)) k c q
          { streamOf s k c q with bound := false, unbinding := false, drains := [] })
        else .next s
      else
        match engineAddress s k c q (streamOf s k c q) with
        | (false, t) => .next (if (streamOf s k c q).unbinding then wakeStream t k c q else t)
        | (true, t) =>
          let w := writeHead t k c (streamOf s k c q)
          .next (wakeDrain (wakeStream (setStream w.1 k c q w.2) k c q) k c q) := by
  obtain ⟨rfl, rfl, rfl, -, -⟩ := h
  show execStreamWrite s = _
  unfold execStreamWrite
  simp only [hold]
  refine (if_neg ?_).trans rfl
  rw [hbound, hdir]
  obtain hp | hu := hgoes
  · rw [hp]
    simp
  · rw [hu]
    simp
theorem streamWrite_struck (h : Writing s k c q) (hold : oldBinding (ctxOf s k c) q = none) (hbound : (streamOf s k c q).bound = true)
    (hdir : (streamOf s k c q).dir = true) (hruns : (streamOf s k c q).paused = false) (hkeeps : (streamOf s k c q).unbinding = false)
    (hqueued : (streamOf s k c q).queued ≠ []) (hstruck : 2 ≤ (coreOf s k).upsets.count (4 * c + q)) :
    Runs .streamWrite s fun t => Checked s t k c q := by
  refine ⟨_, ?_, checked_machineChecked h.context h.stream⟩
  rw [exec_streamWrite h hold hbound hdir (.inl hruns), if_neg (mt List.isEmpty_iff.mp hqueued), engineAddress_struck hstruck, hkeeps]
  rfl
theorem streamWrite_head (h : Writing s k c q) (hold : oldBinding (ctxOf s k c) q = none) (hbound : (streamOf s k c q).bound = true)
    (hdir : (streamOf s k c q).dir = true) (hgoes : (streamOf s k c q).paused = false ∨ (streamOf s k c q).unbinding = true)
    (hqueued : (streamOf s k c q).queued = v :: r) (hclean : (coreOf s k).upsets.count (4 * c + q) = 0) :
    Runs .streamWrite s fun t => SameMemory (writeHead s k c (streamOf s k c q)).1 t ∧ streamOf t k c q = pastHead (streamOf s k c q) r := by
  have hrun := exec_streamWrite h hold hbound hdir hgoes
  rw [if_neg (by rw [hqueued]; simp), engineAddress_clean hclean] at hrun
  refine ⟨_, hrun, sameMemory_trans sameMemory_setStream (agendaOnly_sameMemory agendaOnly_woken), ?_⟩
  refine (streamOf_agendaOnly agendaOnly_woken).trans ((streamOf_setStream h.context h.stream).trans ?_)
  exact stream_writeHead hqueued
theorem streamWrite_unbinds (h : Writing s k c q) (hold : oldBinding (ctxOf s k c) q = none) (hbound : (streamOf s k c q).bound = true)
    (hdir : (streamOf s k c q).dir = true) (hends : (streamOf s k c q).unbinding = true) (hqueued : (streamOf s k c q).queued = []) :
    Runs .streamWrite s fun t => SameMemory s t ∧ (streamOf t k c q).bound = false ∧
      (∀ n < 64, (ctxOf t k c).tb.getLsbD n = true ↔ (ctxOf s k c).tb.getLsbD n = true ∨
        ∃ d ∈ (streamOf s k c q).drains, d.1 = n ∧ d.2 = 0) := by
  have hrun := exec_streamWrite h hold hbound hdir (.inr hends)
  rw [hqueued, hends] at hrun
  have hc := h.context
  refine ⟨_, hrun, sameMemory_trans sameMemory_setCtx sameMemory_setStream, ?_, fun n hn => ?_⟩
  · rw [streamOf_setStream hc h.stream]
  · rw [ctxOf_setStream hc, endBinding]
    rw [ctxOf_setCtx_same _ _ _ _ hc]
    refine (tb_setDrainTags hn).trans (or_congr_right (exists_congr fun d => and_congr_right fun _ => and_congr_right fun _ => ?_))
    simp only [Met, hdir, true_and, Bool.true_eq_false, false_and, or_false]
theorem streamWrite_old {o : Stream} (h : Writing s k c q) (hold : oldBinding (ctxOf s k c) q = some o) (hqueued : o.queued = v :: r)
    (hctx : ctxOf (writeHead s k c o).1 k c = ctxOf s k c) (hclean : (coreOf s k).upsets.count (4 * c + q) = 0) :
    Runs .streamWrite s fun t => SameMemory (writeHead s k c o).1 t ∧ streamOf t k c q = streamOf s k c q ∧
      (r ≠ [] → oldBinding (ctxOf t k c) q = some (pastHead o r)) ∧ (r = [] → (ctxOf t k c).oldq.length + 1 = (ctxOf s k c).oldq.length) := by
  have hc := h.context
  obtain ⟨e, hfound⟩ := oldq_of_oldBinding hold
  have hhead := stream_writeHead (s := s) (k := k) (c := c) hqueued
  have hrun := exec_streamWrite_old h hold
  rw [writeOld, engineAddress_clean hclean] at hrun
  dsimp only at hrun
  rw [hhead, hctx, show (pastHead o r).queued = r from rfl] at hrun
  by_cases hr : r = []
  · rw [if_pos (by rw [hr]; rfl)] at hrun
    refine ⟨_, hrun, sameMemory_trans (sameMemory_trans sameMemory_setCtx sameMemory_setCtx) (agendaOnly_sameMemory agendaOnly_wakeStream), ?_,
      fun h => absurd hr h, fun _ => ?_⟩
    · refine (streamOf_agendaOnly agendaOnly_wakeStream).trans (streamOf_of_q ?_)
      rw [endBinding, ctxOf_setCtx_same _ _ _ _ hc, ctxOf_setCtx_same _ _ _ _ hc]
      rfl
    · rw [ctxOf_agendaOnly agendaOnly_wakeStream, endBinding, ctxOf_setCtx_same _ _ _ _ hc, ctxOf_setCtx_same _ _ _ _ hc]
      exact length_setOld hfound
  · rw [if_neg (mt List.isEmpty_iff.mp hr)] at hrun
    refine ⟨_, hrun, sameMemory_trans sameMemory_setCtx (agendaOnly_sameMemory agendaOnly_wakeStream), ?_, fun _ => ?_, fun h => absurd h hr⟩
    · refine (streamOf_agendaOnly agendaOnly_wakeStream).trans (streamOf_of_q ?_)
      rw [ctxOf_setCtx_same _ _ _ _ hc]
    · rw [ctxOf_agendaOnly agendaOnly_wakeStream, ctxOf_setCtx_same _ _ _ _ hc, oldBinding, find?_setOld hfound]
      rfl
end
end Sys2Proof.Machine
end

