-- ==== Sys2Proof/Proofs/CopyEngines.lean ====
section
/-! PROOF. The copy engines of a cluster (05_core_memory, R169, R170). -/
namespace Sys2Proof.Machine
open Sys2Proof.Claims

section
variable {s t u : State} {die : Nat}

/-! ## Reads and writes of an engine -/

theorem engineView_pinnedFix {d off n : Nat} : engineView (pinnedFix s d off n) = engineView s := by
  obtain ⟨_, h⟩ := diesOnly_pinnedFix (s := s) (die := d) (off := off) (n := n)
  rw [h]
  rfl
theorem engineView_physRead {pa : W64} {n : Nat} : engineView (physRead s die pa n).2 = engineView s := by
  unfold physRead
  dsimp only
  split
  · exact engineView_copied copied_dieRead
  · rfl
  · rfl
  · exact engineView_pinnedFix
  · rfl
  · rfl
theorem engineView_engineRead {pa : W64} {n : Nat} : engineView (engineRead s die pa n).2 = engineView s := by
  unfold engineRead
  split
  · exact engineView_countCorrected ..
  · rfl
  · exact engineView_counted counted_countTier2Read
  · exact engineView_physRead
theorem engineView_readPieces {ps : List Piece} : engineView (readPieces s die ps).2 = engineView s := by
  induction ps generalizing s with
  | nil => rfl
  | cons p ps ih => exact ih.trans engineView_engineRead
theorem engineView_physReady (pa : W64) (n : Nat) : engineView (physReady s die pa n) = engineView s := by
  unfold physReady
  split
  · exact engineView_copied copied_mendLines
  · rfl
theorem engineView_gatherOn {k q n pages : Nat} {a : W64} : engineView (gatherOn s die k q a n pages).2 = engineView s := by
  have hpieces := engineView_translated (translated_reachPieces (s := s) k q a n false pages)
  unfold gatherOn
  split
  · next h =>
    rw [h] at hpieces
    exact hpieces
  · next ps v h =>
    rw [h] at hpieces
    split
    · exact hpieces
    · have hready := (engineView_foldl (fun s (p : Piece) => engineView_physReady (s := s) (die := die) p.pa p.n) ps v).trans hpieces
      dsimp only
      split
      · exact (engineView_counted counted_countPoison).trans hready
      · exact engineView_readPieces.trans hready
theorem engineView_scatter {c : Command} {q : Nat} {a : W64} {bs : List Byte} : engineView (scatter s c q a bs).2 = engineView s := by
  have hpieces := engineView_translated (translated_reachPieces (s := s) c.core q a bs.length true 2)
  unfold scatter
  split
  · next h =>
    rw [h] at hpieces
    exact hpieces
  · next ps v h =>
    rw [h] at hpieces
    split
    · exact hpieces
    · exact (engineView_pieces (fun _ _ => engineView_leaveWrite ..) ps (bs, v)).trans hpieces
end

section
variable {s t u : State} {ck e : Nat} {j : CopyJob} {c : Command}

/-! ## The jobs of an engine -/

/-- The jobs of a copy engine. -/
def jobsOf (s : State) (ck e : Nat) : List CopyJob := vget (clusterOf s ck).cq e []
theorem jobsOf_engineView (h : engineView t = engineView s) : jobsOf t ck e = jobsOf s ck e := by rw [jobsOf, cq_of_engineView h, jobsOf]
theorem jobsOf_setJob (he : e < 2) : jobsOf (setJob s ck e j) ck e = (jobsOf s ck e).map (fun i => if i.cmd.id == j.cmd.id then j else i) := by
  rw [jobsOf, setJob, clusterOf_setCluster_same]
  exact vget_vset_same _ _ _ _ he
theorem mem_setJob {i : CopyJob} (he : e < 2) (hin : i ∈ jobsOf s ck e) (hcmd : j.cmd = i.cmd) : j ∈ jobsOf (setJob s ck e j) ck e := by
  rw [jobsOf_setJob he]
  exact List.mem_map.mpr ⟨i, hin, if_pos (by rw [hcmd]; exact beq_self_eq_true _)⟩
theorem jobsOf_schedule {due : Nat} {op : Instr} {args : EvArgs} : jobsOf (schedule s due op args) ck e = jobsOf s ck e := rfl
theorem sameMemory_setJob : SameMemory s (setJob s ck e j) := sameMemory_of rfl rfl rfl rfl rfl
theorem agendaOnly_dropJob : ∃ v, AgendaOnly (setCluster s ck { clusterOf s ck with cq := vset (clusterOf s ck).cq e v }) (dropJob s ck e c) ∧
    v = (jobsOf s ck e).filter (fun i => i.cmd.id != c.id) := by
  refine ⟨_, ?_, rfl⟩
  unfold dropJob
  dsimp only
  split
  · exact agendaOnly_schedule
  · exact agendaOnly_refl _
/-- A state without a job: beside the cluster's engines, only the steps to come differ. -/
theorem dropJob_rest : ∃ cluster agenda, dropJob s ck e c = { s with cluster := cluster, agenda := agenda } := by
  obtain ⟨_, ⟨_, h⟩, -⟩ := agendaOnly_dropJob (s := s) (ck := ck) (e := e) (c := c)
  exact ⟨_, _, h⟩
theorem jobsOf_dropJob (he : e < 2) : jobsOf (dropJob s ck e c) ck e = (jobsOf s ck e).filter (fun i => i.cmd.id != c.id) := by
  obtain ⟨v, ⟨_, h⟩, hv⟩ := agendaOnly_dropJob (s := s) (ck := ck) (e := e) (c := c)
  rw [h, ← hv]
  show vget (clusterOf (setCluster s ck _) ck).cq e [] = v
  rw [clusterOf_setCluster_same]
  exact vget_vset_same _ _ _ _ he
theorem not_mem_dropJob (he : e < 2) : j ∉ jobsOf (dropJob s ck e j.cmd) ck e := by
  rw [jobsOf_dropJob he]
  simp
theorem sameMemory_dropJob : SameMemory s (dropJob s ck e c) := by
  obtain ⟨_, _, h⟩ := dropJob_rest (s := s) (ck := ck) (e := e) (c := c)
  rw [h]
  exact sameMemory_of rfl rfl rfl rfl rfl
theorem coreOfAddr_dropJob (addr : Nat) : coreOfAddr (dropJob s ck e c) addr = coreOfAddr s addr := by
  obtain ⟨_, _, h⟩ := dropJob_rest (s := s) (ck := ck) (e := e) (c := c)
  rw [h]
  rfl
theorem jobsOf_failCommand {code : BitVec 8} : jobsOf (failCommand s c code) ck e = jobsOf s ck e := by
  unfold failCommand
  split <;> rfl
theorem jobsOf_settles (h : Settles s t) : jobsOf t ck e = jobsOf s ck e := by
  obtain ⟨-, _, _, _, heq⟩ := h
  rw [heq]
  rfl

/-! ## The step of a unit -/

/-- The job of a copy engine whose turn it is. -/
structure Copying (s : State) (ck e : Nat) (j : CopyJob) : Prop where
  x : s.ev.x = ck
  y : s.ev.y = e
  engine : e < 2
  job : (jobsOf s ck e).find? (fun i => i.cmd.id == s.ev.z) = some j

theorem id_of_copying (h : Copying s ck e j) : j.cmd.id = s.ev.z := by simpa using List.find?_some h.job
theorem mem_of_copying (h : Copying s ck e j) : j ∈ jobsOf s ck e := List.mem_of_find?_eq_some h.job
/-- A job that may go on: it stands first of its context, its command is not parked and its gang runs. -/
structure Goes (s : State) (ck e : Nat) (j : CopyJob) : Prop extends Copying s ck e j where
  first : (jobsOf s ck e).find? (fun i => i.cmd.cx == j.cmd.cx) = some j
  unparked : isParked s j.cmd.id = false
  here : gangAway s j.cmd.cx = false

/-- What a copy engine does with a job that goes on: it reads the next unit whole, or writes the one that it has read. -/
def copyStep (s : State) (ck e : Nat) (j : CopyJob) (src dst : W64) (len : Nat) : Outcome :=
  match j.unit with
  | none =>
    if unitBehind s j.cmd (commandQueue s j.cmd) (src + BitVec.ofNat 64 j.pos) (min 64 (len - j.pos)) then .next (again s .copyUnit)
    else
    match gather s j.cmd.core (commandQueue s j.cmd) (src + BitVec.ofNat 64 j.pos) (min 64 (len - j.pos)) with
    | (.got bs, t) => .next (schedule (setJob t ck e { j with unit := some bs }) (t.now + 1) .copyUnit (evArgs ck e j.cmd.id))
    | (g, t) => .next (stopCopy t ck e j.cmd g)
  | some bs =>
    match scatter s j.cmd (commandQueue s j.cmd) (dst + BitVec.ofNat 64 j.pos) bs with
    | (.got _, t) => .next (unitWritten t ck e j (min 64 (len - j.pos)) len)
    | (g, t) => .next (stopCopy t ck e j.cmd g)
theorem laterOf_scheduled {due : Nat} {op : Instr} {x y z : Nat} : LaterOf (schedule s due op (evArgs x y z)) op x y z :=
  ⟨_, List.mem_append_right _ (List.mem_singleton_self _), rfl, rfl, rfl, rfl⟩
/-- A job past a unit in its row, and at its next row. -/
def unitOn (j : CopyJob) (n : Nat) : CopyJob := { j with pos := j.pos + n, unit := none }
def rowOn (j : CopyJob) : CopyJob := { j with row := j.row + 1, pos := 0, unit := none }
/-- A job replaced, with its engine's next step for it. -/
def jobOn (s : State) (ck e : Nat) (i : CopyJob) : State :=
  schedule (setJob s ck e i) (s.now + 1) (if copyDone i then .copyComplete else .copyUnit) (evArgs ck e i.cmd.id)
theorem unitWritten_eq {n len : Nat} : unitWritten s ck e j n len = jobOn s ck e (if j.pos + n < len then unitOn j n else rowOn j) := by
  have hnext (i : CopyJob) : (if copyDone i then schedule (setJob s ck e i) (s.now + 1) .copyComplete (evArgs ck e i.cmd.id)
      else schedule (setJob s ck e i) (s.now + 1) .copyUnit (evArgs ck e i.cmd.id)) = jobOn s ck e i := by
    unfold jobOn
    split <;> rfl
  exact hnext _
theorem sameMemory_jobOn : SameMemory s (jobOn s ck e j) := sameMemory_trans sameMemory_setJob sameMemory_schedule
theorem jobOn_more (h : copyDone j = false) : LaterOf (jobOn s ck e j) .copyUnit ck e j.cmd.id := by
  rw [jobOn, h]
  exact laterOf_scheduled
theorem jobOn_done (h : copyDone j = true) : LaterOf (jobOn s ck e j) .copyComplete ck e j.cmd.id := by
  rw [jobOn, h]
  exact laterOf_scheduled
theorem rows_copyRow (op : CmdOp) (row : Nat) : (copyRow op row).2.2.2 = (copyRow op 0).2.2.2 := by
  cases op <;> rfl
section
variable {src dst : W64} {len rows : Nat} (hrow : copyRow j.cmd.op j.row = (src, dst, len, rows))
include hrow

theorem copyDone_iff {i : CopyJob} (hcmd : i.cmd = j.cmd) : copyDone i = true ↔ rows ≤ i.row := by
  have hrows : (copyRow i.cmd.op 0).2.2.2 = rows := by rw [← rows_copyRow i.cmd.op j.row, hcmd, hrow]
  rw [← hrows]
  exact decide_eq_true_iff
theorem copyDone_eq_false {i : CopyJob} (hcmd : i.cmd = j.cmd) (hmore : i.row < rows) : copyDone i = false :=
  Bool.eq_false_iff.mpr fun h => by
    have := (copyDone_iff hrow hcmd).mp h
    omega

section
variable (h : Goes s ck e j) (hmore : j.row < rows)
include h hmore

theorem exec_copyUnit : exec .copyUnit s = copyStep s ck e j src dst len := by
  obtain ⟨⟨rfl, rfl, -, hjob⟩, hfirst, hunparked, hhere⟩ := h
  have hdone := copyDone_eq_false hrow rfl hmore
  rw [jobsOf] at hjob hfirst
  show execCopyUnit s = _
  unfold execCopyUnit
  simp only [hjob, hunparked, hhere, hdone, hfirst, hrow, Option.map_some, Bool.false_eq_true, if_false, Bool.false_or, bne_self_eq_false]
  rfl
theorem copyUnit_behind (hunit : j.unit = none)
    (hbehind : unitBehind s j.cmd (commandQueue s j.cmd) (src + BitVec.ofNat 64 j.pos) (min 64 (len - j.pos)) = true) :
    Runs .copyUnit s fun t => PutOff s t .copyUnit := by
  refine ⟨again s .copyUnit, ?_, rfl, rfl⟩
  simp only [exec_copyUnit hrow h hmore, copyStep, hunit, hbehind, if_true]
omit hrow h hmore in
theorem jobsOf_gather {k q n : Nat} {a : W64} {g : Gather} (h : gather s k q a n = (g, u)) : jobsOf u ck e = jobsOf s ck e := by
  have hview := engineView_gatherOn (s := s) (die := dieKey k) (k := k) (q := q) (pages := 2) (a := a) (n := n)
  rw [gather] at h
  rw [h] at hview
  exact jobsOf_engineView hview
section
variable {g : Gather} (hunit : j.unit = none)
  (hbehind : unitBehind s j.cmd (commandQueue s j.cmd) (src + BitVec.ofNat 64 j.pos) (min 64 (len - j.pos)) = false)
  (hgather : gather s j.cmd.core (commandQueue s j.cmd) (src + BitVec.ofNat 64 j.pos) (min 64 (len - j.pos)) = (g, u))
include hunit hbehind hgather

theorem copyUnit_reads {bs : List Byte} (hg : g = .got bs) : Runs .copyUnit s fun t => { j with unit := some bs } ∈ jobsOf t ck e ∧
    SameMemory u t ∧ LaterOf t .copyUnit ck e j.cmd.id := by
  have hjobs := jobsOf_gather (ck := ck) (e := e) hgather
  have hrun := exec_copyUnit hrow h hmore
  subst hg
  simp only [copyStep, hunit, hbehind, hgather, Bool.false_eq_true, if_false] at hrun
  refine ⟨_, hrun, ?_, sameMemory_trans sameMemory_setJob sameMemory_schedule, laterOf_scheduled⟩
  rw [jobsOf_schedule]
  refine mem_setJob (i := j) h.engine ?_ rfl
  rw [hjobs]
  exact mem_of_copying h.toCopying
theorem copyUnit_fails {code : BitVec 8} (hg : g = .failed code) :
    Runs .copyUnit s fun t => j ∉ jobsOf t ck e ∧ FailsCommand u t j.cmd code := by
  have hrun := exec_copyUnit hrow h hmore
  subst hg
  simp only [copyStep, hunit, hbehind, hgather, Bool.false_eq_true, if_false, stopCopy] at hrun
  refine ⟨_, hrun, ?_, failsCommand_failCommand (coreOfAddr_dropJob _)⟩
  rw [jobsOf_failCommand]
  exact not_mem_dropJob h.engine
theorem copyUnit_poisoned (hg : g = .error) :
    Runs .copyUnit s fun t => j ∉ jobsOf t ck e ∧ (regionOf t (commandRegion u j.cmd)).error = some 0x07 := by
  have hrun := exec_copyUnit hrow h hmore
  subst hg
  simp only [copyStep, hunit, hbehind, hgather, Bool.false_eq_true, if_false, stopCopy] at hrun
  exact ⟨_, hrun, not_mem_dropJob (s := u) h.engine, error_consumeError⟩
end

/-! ## A unit written -/

theorem copyUnit_writes {bs v : List Byte} (hunit : j.unit = some bs)
    (hscatter : scatter s j.cmd (commandQueue s j.cmd) (dst + BitVec.ofNat 64 j.pos) bs = (.got v, u)) :
    Runs .copyUnit s fun t => SameMemory u t ∧
      (j.pos + min 64 (len - j.pos) < len → { j with pos := j.pos + min 64 (len - j.pos), unit := none } ∈ jobsOf t ck e ∧
        LaterOf t .copyUnit ck e j.cmd.id) ∧
      (len ≤ j.pos + min 64 (len - j.pos) → j.row + 1 < rows → { j with row := j.row + 1, pos := 0, unit := none } ∈ jobsOf t ck e ∧
        LaterOf t .copyUnit ck e j.cmd.id) ∧
      (len ≤ j.pos + min 64 (len - j.pos) → rows ≤ j.row + 1 → LaterOf t .copyComplete ck e j.cmd.id) := by
  have hview := engineView_scatter (s := s) (c := j.cmd) (q := commandQueue s j.cmd) (a := dst + BitVec.ofNat 64 j.pos) (bs := bs)
  rw [hscatter] at hview
  have hmem : j ∈ jobsOf u ck e := by
    rw [jobsOf_engineView hview]
    exact mem_of_copying h.toCopying
  have hrun := exec_copyUnit hrow h hmore
  simp only [copyStep, hunit, hscatter] at hrun
  rw [unitWritten_eq] at hrun
  refine ⟨_, hrun, sameMemory_jobOn, fun hlt => ?_, fun hle hrows => ?_, fun hle hrows => ?_⟩
  · rw [if_pos hlt]
    exact ⟨mem_setJob h.engine hmem rfl, jobOn_more (copyDone_eq_false hrow rfl hmore)⟩
  · rw [if_neg (Nat.not_lt.mpr hle)]
    exact ⟨mem_setJob h.engine hmem rfl, jobOn_more (copyDone_eq_false hrow rfl hrows)⟩
  · rw [if_neg (Nat.not_lt.mpr hle)]
    exact jobOn_done ((copyDone_iff (i := rowOn j) hrow rfl).mpr hrows)
end

/-! ## The end of a copy -/

theorem copyComplete_ends (h : Copying s ck e j) (hrows : rows ≤ j.row) (hout : writesOut s j.cmd.id = false) :
    Runs .copyComplete s fun t => TagSet s t j.cmd.cx j.cmd.tag ∧ j ∉ jobsOf t ck e ∧ SameMemory s t := by
  have hdone := (copyDone_iff (i := j) hrow rfl).mpr hrows
  have hrun : exec .copyComplete s = .next (completeCommand (dropJob s ck e j.cmd) j.cmd.cx j.cmd.id j.cmd.tag) := by
    obtain ⟨rfl, rfl, -, hjob⟩ := h
    rw [jobsOf] at hjob
    show execCopyComplete s = _
    simp only [execCopyComplete, hjob, hdone, hout, Bool.not_true, Bool.false_eq_true, if_false]
  refine ⟨_, hrun, ?_, ?_, sameMemory_completed sameMemory_dropJob⟩
  · refine tagSet_before (coreOfAddr_dropJob _) (fun k => ?_) (tagSet_completeCommand (dropJob s ck e j.cmd) j.cmd.cx j.cmd.id j.cmd.tag)
    obtain ⟨_, _, heq⟩ := dropJob_rest (s := s) (ck := ck) (e := e) (c := j.cmd)
    rw [heq]
    rfl
  · rw [jobsOf_settles settles_completeCommand]
    exact not_mem_dropJob h.engine
theorem copyComplete_waits (h : Copying s ck e j) (hrows : rows ≤ j.row) (hout : writesOut s j.cmd.id = true) :
    Runs .copyComplete s fun t => PutOff s t .copyComplete := by
  have hdone := (copyDone_iff (i := j) hrow rfl).mpr hrows
  refine ⟨again s .copyComplete, ?_, rfl, rfl⟩
  obtain ⟨rfl, rfl, -, hjob⟩ := h
  rw [jobsOf] at hjob
  show execCopyComplete s = _
  simp only [execCopyComplete, hjob, hdone, hout, Bool.not_true, Bool.false_eq_true, if_false, if_true]
end
end
end Sys2Proof.Machine
end

