-- ==== Sys2Proof/Proofs/StreamsAndCopies.lean ====
section
/-! PROOF. The stream engines and the copy engines of a core's cluster (O42). -/
namespace Sys2Proof.Machine
open Sys2Proof.Claims

/-- Settles O42: the nest counts its elements in a mixed base, an engine's address stands unless it is struck, and what an engine reads or
writes for a unit of a copy keeps the jobs of the engines. -/
theorem streamAndCopyEnginesMove : Obligations.StreamAndCopyEnginesMove := by
  unfold Obligations.StreamAndCopyEnginesMove
  refine ⟨fun st _ hin => ?_, fun s k c q hx hy hz hc hq => ?_, fun s ck e j hx hy he hjob hfirst => ?_⟩
  · obtain ⟨hat, hnext, hlast⟩ := nest_outcome hin
    exact ⟨hat, hnext, hlast, elementSb_parts hin⟩
  · have hw : Writing s k c q := ⟨hx, hy, hz, hc, hq⟩
    refine ⟨fun hbound hdir hruns hmore hroom hold hstruck => streamFetch_struck ⟨hx, hy, hz, hbound, hdir, hruns, hmore, hroom, hold⟩ hc hq hstruck,
      fun hbound hdir hruns hkeeps hqueued hold hstruck => streamWrite_struck hw hold hbound hdir hruns hkeeps hqueued hstruck,
      fun hbound hdir hruns hmore hroom hold hclean =>
        ⟨streamFetch_good ⟨hx, hy, hz, hbound, hdir, hruns, hmore, hroom, hold⟩ hc hq hclean,
          streamFetch_bad ⟨hx, hy, hz, hbound, hdir, hruns, hmore, hroom, hold⟩ hclean⟩,
      fun v r hbound hdir hgoes hqueued hold hclean hlog => ?_, fun o v r hold hqueued hdone hclean hlog hplaces => ?_,
      fun hbound hdir hends hqueued hold => streamWrite_unbinds hw hold hbound hdir hends hqueued, streamDrainTag_outcome hx hy hz hc hq⟩
    · obtain ⟨t, hrun, hmem, hstream⟩ := streamWrite_head hw hold hbound hdir hgoes hqueued hclean
      refine ⟨fun hdone hplaces => ⟨t, hrun, storedAt_after (storedAt_writeHead hqueued hdone hlog hplaces) hmem, hstream⟩,
        fun hdone => ⟨t, hrun, ?_, hstream⟩⟩
      rwa [writeHead_done hqueued hdone] at hmem
    · obtain ⟨t, hrun, hmem, hrest⟩ := streamWrite_old hw hold hqueued (ctxOf_banked (banked_writeHead hqueued hdone hlog hplaces)) hclean
      exact ⟨t, hrun, storedAt_after (storedAt_writeHead hqueued hdone hlog hplaces) hmem, hrest⟩
  · have hcopying : Copying s ck e j := ⟨hx, hy, he, hjob⟩
    obtain ⟨src, dst, len, rows, hrow⟩ : ∃ src dst len rows, copyRow j.cmd.op j.row = (src, dst, len, rows) := ⟨_, _, _, _, rfl⟩
    rw [hrow]
    intro hunparked hhere
    have hgoes : Goes s ck e j := ⟨hcopying, hfirst, hunparked, hhere⟩
    exact ⟨fun hmore hunit hbehind => copyUnit_behind hrow hgoes hmore hunit hbehind,
      fun hmore hunit hbehind => ⟨fun bs u hgather => copyUnit_reads hrow hgoes hmore hunit hbehind hgather rfl,
        fun code u hgather => copyUnit_fails hrow hgoes hmore hunit hbehind hgather rfl,
        fun u hgather => copyUnit_poisoned hrow hgoes hmore hunit hbehind hgather rfl⟩,
      fun bs u v hmore hunit hscatter => copyUnit_writes hrow hgoes hmore hunit hscatter,
      fun hrows hout _ => copyComplete_ends hrow hcopying hrows hout, fun hrows hout => copyComplete_waits hrow hcopying hrows hout⟩
end Sys2Proof.Machine
end
